-- ==== Sys2Proof/Word.lean ====
section
/-! DEFINITION. The word types of the register pages and of the memories: a register is 32 bits (R36), a memory cell of the
MRAM and of the scratchpad is a byte. -/
namespace Sys2Proof

/-- A register value (R36). -/
abbrev Word := BitVec 32
/-- A byte. -/
abbrev Byte := BitVec 8

end Sys2Proof
end

