-- ==== Sys2Proof/Syntax.lean ====
section
/-! DEFINITION. The commands the hub takes from outside and the operands they carry: one constructor of `Instr` per row of
the opcode table. Operands that name a unit are of a type with exactly those units, so a term naming a unit the hub does not
have cannot be written; the remaining bounds are in `WellFormed`. -/
namespace Sys2Proof

/-- Who makes a register, scratchpad or canopy access (R39, R453): the host port, the SPI port, the lantern, a request from
another hub, the option reader's preload path (R85) or the mirror stream (R401). -/
inductive Initiator where
  | host | spi | lantern | ring | preload | mirror
deriving DecidableEq, Repr

/-- The ports with lanes of their own (R102). -/
inductive LanePort where
  | east | west | twin
deriving DecidableEq, Repr

/-- The two ring ports (R122). -/
inductive RingPort where
  | east | west
deriving DecidableEq, Repr

/-- The ring port as a port with lanes. -/
def RingPort.lanes : RingPort → LanePort
  | .east => .east
  | .west => .west

/-- The other ring port. -/
def RingPort.other : RingPort → RingPort
  | .east => .west
  | .west => .east

/-- The directions of travel (R122); `west` is DIR 0, `east` is DIR 1 (R124). -/
inductive Dir where
  | west | east
deriving DecidableEq, Repr

/-- The four traffic classes, CLASS 0 to 3 (R124). -/
inductive Cls where
  | E | T | B | M
deriving DecidableEq, Repr

/-- The canopy images (R23). -/
inductive Image where
  | input | output
deriving DecidableEq, Repr

/-- The levels of the two strap pins (R99). -/
structure Straps where
  compatBn : Bool
  bootHold : Bool
deriving DecidableEq, Repr

/-- How a received frame ended (R129): with end-good K29.7, with end-bad K30.7, on another control code-group or a code
violation, shown by a physical lane (`part` where it is K28.5, K28.0 or K28.1 on some logical lanes and not on others, R118), or
without a delimiter (its data stopped, or went past the 134 columns). -/
inductive Ending where
  | good | bad | symbol (lane : Fin 5) (part : Bool) | none
deriving DecidableEq, Repr

/-- What a card lane's receiver finds in a frame beside its bytes (R225, R242): nothing, code violations (`more` beside the first), the
loss of symbol lock, or an overflow or underflow of the elastic buffer. -/
inductive CardEnd where
  | clean | violations (more : Fin 10) | unlock | elastic
deriving DecidableEq, Repr

/-- What made a lane faulty (R117). -/
inductive LaneCause where
  | signal | lock | violations
deriving DecidableEq, Repr

/-- What the SECDED check of a read finds (R193, R194, R204): nothing, or a corrected or an uncorrected error in the data row, in the
link entry, in the frame record or in the queue's entry. -/
inductive Ecc where
  | ok | ce | ue | linkCe | linkUe | recCe | recUe | entCe | entUe
deriving DecidableEq, Repr

/-- The two 24 V feeds. -/
inductive Feed where
  | a | b
deriving DecidableEq, Repr

/-- A pitch (card slot): its power channel, card link and engine cluster. -/
abbrev Pitch := Fin 24
/-- A channel of a pitch. -/
abbrev Channel := Fin 8
/-- An engine page instance: cluster × 9 + position (R48). -/
abbrev Engine := Fin 216
/-- A core port (R160). -/
abbrev CorePort := Fin 30
/-- A mailbox. -/
abbrev Mailbox := Fin 64
/-- A forwarding window. -/
abbrev Win := Fin 32
/-- A transaction tag. -/
abbrev Tag := Fin 256
/-- A schedule matrix. -/
abbrev Matrix := Fin 64
/-- An island: 0 Ring East, 1 Ring West, 2 time, 3 core, 4 twin, 5-10 card quads 0-5, 11-34 engine clusters 0-23, 35 scan,
36 bridge, 37 host, 38 lantern (the release order of R88), 39 the routing block (R312). -/
abbrev Island := Fin 40

/-- A parity error in the microcode that an engine fetched (R254): none, of the engine that serves the channel, or of the spare that
follows it (R282, R285). -/
inductive EngParity where
  | ok | engine | spare
deriving DecidableEq, Repr

/-- A 1 µs sample of the supervisor die (R422): the bus, the feeds and the hold-up capacitor in units of 100 mV, and for each pitch from
0 on its sense code and its output in 100 mV. -/
structure SupSample where
  vbus : Nat := 0
  va : Nat := 0
  vb : Nat := 0
  hu : Nat := 0
  pitches : List (Nat × Nat) := []
deriving DecidableEq, Repr

/-- One measurement of an ageing sentinel (R480). Oscillator counts come with the junction temperature in °C, distances in ppm, margins in
the units of their registers. -/
inductive Sentinel where
  /-- Ring oscillator of an island, by the index of R486. -/
  | island (unit : Fin 39) (count : Nat) (tj : Int)
  /-- Ring oscillator of an engine. -/
  | engine (unit : Fin 216) (count : Nat) (tj : Int)
  /-- Eye of a lane, numbered as in R119. -/
  | eye (lane : Fin 36) (v h : Byte)
  /-- Weak write of a scratchpad row, of a row of a physical cell bank, of a canopy copy (image × 8192 + copy × 4096 + group) and of a
  cluster's microcode store: whether the row failed it, and whether it passed the normal march. -/
  | spRow (bank : Fin 8) (row : Fin 512) (fails passes : Bool)
  | cellRow (bank : Fin 17) (fails passes : Bool)
  | canopy (copy : Fin 16384) (fails passes : Bool)
  | microcode (cluster : Fin 24) (fails passes : Bool)
  /-- Lock margin of a PLL or its spare, in percent. -/
  | pll (pll : Fin 13) (spare : Bool) (margin : Nat)
  /-- The references: the distance between them, and of each from the crystal. -/
  | references (apart a b : Nat)
  /-- On-resistance of a pass transistor, as its page measured it (R437). -/
  | transistor (pitch : Fin 24)
deriving DecidableEq, Repr


/-- The commands of the hub: one constructor per row of the opcode table: those with operands, then those
without, each part in the order of the table. `who` is the initiator of a
register access; `v` is the word written; the other operands are what the command brings from outside. -/
inductive Instr where
  /-- A write to a register field that has no row of its own takes effect by its access code: RW direct, RWS to the shadow, RWL only while not running, W1C or W1S on the bits written (R49). -/
  | registerWrite (who : Initiator) (page : Nat) (off : Nat) (v : Word)
  /-- A write of PAGE_CTRL.ENABLE requests that the block run, latched until READY, or requests that it stop at its stop point (R42). -/
  | pageEnableWrite (who : Initiator) (page : Nat) (en : Bool) (readActive : Bool)
  /-- A write of PAGE_CTRL.COMMIT freezes the shadow set and makes the commit pending (R52). -/
  | commit (who : Initiator) (page : Nat) (en : Bool) (readActive : Bool)
  /-- A write of ABORT_COMMIT cancels a pending commit, or reloads the shadows from the active values (R55). -/
  | abortCommit (who : Initiator) (page : Nat) (en : Bool) (readActive : Bool) (commit : Bool)
  /-- A write of RESET_BLOCK applies an L3 reset to the page's block and discards any pending commit (R44). -/
  | resetBlock (who : Initiator) (page : Nat) (others : Word)
  /-- A write of 1 to an EVT_FORCE bit acts as one occurrence of the event, including its fault source (R47). -/
  | evtForce (who : Initiator) (page : Nat) (v : Word)
  /-- At the block's commit point, the pending shadow set is checked and is then applied or refused (R52). -/
  | commitPoint (page : Nat)
  /-- A block's READY rises once all of its conditions hold, and a latched ENABLE then starts the block (R91). -/
  | blockReadyRise (page : Nat)
  /-- A block asked to stop reaches its stop point, and RUNNING falls (R42). -/
  | blockStopPoint (page : Nat)
  /-- A bit of the ready vector follows its page's READY after a lag of 1 to 3 groundsheet cycles (R92). -/
  | readyVectorUpdate (reg : Fin 4) (bit : Fin 32)
  /-- A host address phase starts an access, which is decoded, served locally, forwarded or answered, and ends in its data phase (R392). -/
  | hostAccess (addr : BitVec 27) (write : Bool) (data : Word) (be : BitVec 4)
  /-- An access to the host control block completes in the host island with its data phase in C2 (R64). -/
  | hostControlBlockAccess (addr : BitVec 26) (write : Bool) (data : Word) (be : BitVec 4)
  /-- While the host island is held in reset, the pad responder answers every access with NOT_READY in C1 (R516). -/
  | padResponderAccess (addr : BitVec 27) (write : Bool) (data : Word)
  /-- An SPI frame between the fall and rise of SPI_CS_N performs one read or write (R394). -/
  | spiFrame (cmd : BitVec 8) (addr : BitVec 32) (data : Word)
  /-- A rise of SPI_CS_N before the last byte still completes the access, which is counted in SPI_ABORT (R394). -/
  | spiAbort (cmd : BitVec 8) (addr : BitVec 32) (data : Word)
  /-- A write to a canopy view goes to the hidden copy, goes to both copies while not running, or is held during the guard (R347). -/
  | canopyWrite (who : Initiator) (img : Image) (word : Nat) (data : Word) (be : BitVec 4)
  /-- A word written to a packed group is collected, and the whole group is written when the third word arrives (R26). -/
  | canopyPackedWrite (who : Initiator) (img : Image) (group : Nat) (word : Fin 3) (data : Word) (be : BitVec 4)
  /-- A read of a group's first packed word takes a snapshot that the reads of the group's other two words return (R27). -/
  | canopyPackedRead (who : Initiator) (img : Image) (group : Nat) (word : Fin 3)
  /-- RESET_N held high for 40 consecutive samples ends the reset (R77). -/
  | resetNRelease (straps : Straps)
  /-- A write of GS_SOFT_RESET with GO and the correct key causes a host soft reset; a wrong key raises SOFT_KEY_BAD (R69). -/
  | hostSoftReset (who : Initiator) (v : Word)
  /-- A write of 0x0000_00A5 to GS_WDOG_KICK restarts the lantern watchdog (R70). -/
  | wdogKick (who : Initiator) (v : Word)
  /-- A junction reading of 112 °C or more asserts the thermal-trip reset (R71). -/
  | thermalTrip (tj : Int)
  /-- A junction reading below 100 °C ends the thermal-trip reset (R71). -/
  | thermalTripRelease (tj : Int) (straps : Straps)
  /-- One reference with continuous edges for 1 ms ends the clock-loss reset (R71). -/
  | clockLossRelease (straps : Straps)
  /-- A monitored supply below its warning threshold stops new MRAM write pulses and raises SUPPLY_WARN (R79). -/
  | supplyWarn (supply : Fin 4)
  /-- An island's reset synchronizer releases it once its PLL has locked and 64 cycles have passed (R89). -/
  | islandSyncRelease (island : Island)
  /-- Writing 1 to a GS_HOLD bit of a running island applies L3 to it and holds it (R90). -/
  | gsHoldSet (who : Initiator) (v : Word)
  /-- Writing 0 to a GS_HOLD bit requests the island's release (R89). -/
  | gsHoldRelease (who : Initiator) (v : Word)
  /-- A read of GS_AON_LO latches the high part of the AON count (R98). -/
  | aonRead (who : Initiator)
  /-- A keyed FUSE_PROG_CTRL write starts programming one fuse bit, or is refused (R101). -/
  | fuseProgGo (who : Initiator) (v : Word)
  /-- Fuse programming ends with the bit verified, and DONE is set (R101). -/
  | fuseProgDone (ok : Bool)
  /-- A training set received on a lane is checked and drives lock, deskew, bridging and switching (R107). -/
  | tsReceived (port : LanePort) (lane : Fin 5) (inv : Bool) (cv : Fin 5) (bytes : List Byte)
  /-- DESKEW not completed within 50 µs returns the port to TRAIN (R108). -/
  | deskewTimeout (port : LanePort)
  /-- A capability block received in CAPX is checked and, after two identical blocks, accepted (R111). -/
  | capBlockReceived (port : LanePort) (bytes : List Byte) (ending : Ending)
  /-- CAPX not completed within 200 µs returns the port to TRAIN (R108). -/
  | capxTimeout (port : LanePort)
  /-- The port enters ACTIVE, maps its logical lanes and initialises its credit (R112). -/
  | portEnterActive (port : LanePort)
  /-- A write of LN_CTRL.FORCE_RETRAIN sends the port to TRAIN (R108). -/
  | forceRetrain (who : Initiator) (port : LanePort)
  /-- A write of PORT_EN 0 takes the port to OFF after the frame in progress; a write of 1 lets it train (R108). -/
  | portEnWrite (who : Initiator) (port : LanePort) (v : Word)
  /-- A write of LN_CTRL.CLR_CNT clears the lane and port counters (R118). -/
  | lnClrCnt (who : Initiator) (port : LanePort)
  /-- A transmitter sends a /CC/ once 1920 columns have passed, at the next point outside every frame (R114). -/
  | ccSend (port : LanePort)
  /-- A received /CC/ lets the elastic buffer delete or insert a K28.0 column (R115). -/
  | ccReceived (port : LanePort) (fills : List Nat) (deskew : Nat) (cv : List Nat)
  /-- Overflow or underflow of the elastic buffer closes any frame in progress as bad and counts violations (R115). -/
  | elasticErr (port : LanePort)
  /-- A lane fault closes the frame in progress and leads to urgent substitution or to the port going down (R117). -/
  | laneFault (port : LanePort) (lane : Fin 5) (cause : LaneCause)
  /-- An urgent substitution not completed within 10 µs takes the port down (R117). -/
  | urgentSubstTimeout (port : LanePort)
  /-- THRESH code violations within WINDOW on a lane in use request a planned substitution (R118). -/
  | laneErrThreshold (port : LanePort) (lane : Fin 5)
  /-- A write of LN_SPARE_CMD.GO requests a planned substitution of a receive lane (R120). -/
  | lnSpareCmd (who : Initiator) (port : LanePort) (v : Word)
  /-- T receives a REQUEST and refuses it or begins bridging on the spare (R120). -/
  | laneCtrlRequestReceived (port : LanePort) (body : List Byte)
  /-- T receives an URGENT, sends TSCODE 6 and moves the logical lane to the spare (R120). -/
  | laneCtrlUrgentReceived (port : LanePort) (body : List Byte)
  /-- After 1024 equal columns, R moves the logical lane to the spare and sends CONFIRM (R120). -/
  | spareCompareDone (port : LanePort)
  /-- T receives CONFIRM, drops the old lane and retires it (R120). -/
  | laneCtrlConfirmReceived (port : LanePort) (body : List Byte)
  /-- T receives CANCEL, stops bridging and retires the spare (R121). -/
  | laneCtrlCancelReceived (port : LanePort) (body : List Byte)
  /-- R receives REFUSE, and the substitution ends as refused (R120). -/
  | laneCtrlRefuseReceived (port : LanePort) (body : List Byte)
  /-- No BRIDGE within 1 ms repeats the request; after three attempts the request times out (R121). -/
  | spareRequestTimeout (port : LanePort)
  /-- A frame received on a ring port is checked and then stripped, forwarded, consumed or discarded (R131). -/
  | ringFrameReceive (port : RingPort) (bytes : List Byte) (ending : Ending) (sub : Fin 26)
  /-- At a frame boundary, a ring egress starts the first available frame in priority order (R133). -/
  | egressFrameStart (port : LanePort) (sub : Fin 26)
  /-- A ridge frame ready during a core T, B or M frame preempts that frame, which is sent again later (R134). -/
  | mergePreempt (port : RingPort) (sub : Fin 26)
  /-- A CREDIT frame updates LIMIT and, with INIT set, resets SENT (R137). -/
  | creditReceived (port : RingPort) (bytes : List Byte)
  /-- The receiver sends a CREDIT frame on an advance of 8 cells, within 1 µs of a smaller advance, or every 10 µs (R137). -/
  | creditSend (port : RingPort)
  /-- Each ring port in ACTIVE sends a GUY frame every PERIOD (R143). -/
  | guySend (port : RingPort)
  /-- A GUY frame updates the neighbour state and GUY_HUB, and detects a change of neighbour (R144). -/
  | guyReceived (port : RingPort) (src : Fin 128) (seq : Byte) (wrapFlags : Byte)
  /-- No GUY frame for TIMEOUT makes the neighbour state SILENT (R144). -/
  | guySilenceTimeout (port : RingPort)
  /-- After UNWRAP_HOLD of good neighbour state, the hub unwraps the port and sends fences (R149). -/
  | unwrap (port : RingPort)
  /-- A TOPO frame makes its source live and updates its distances (R146). -/
  | topoReceived (port : RingPort) (src : Fin 128) (dir : Dir) (wraps : Nat) (hops : Nat) (flags : Byte)
  /-- A class fence arriving on the recorded port closes the holds of that class (R151). -/
  | fenceReceived (port : RingPort) (cls : Cls) (src : Fin 128) (fseq : Nat) (kind : Nat)
  /-- A hold closes after HOLD_MAX and releases its frames (R151). -/
  | holdExpired (cls : Cls) (src : Fin 128)
  /-- A ring port not back within GRACE has its frozen queues flushed (R154). -/
  | ringGraceExpired (port : RingPort)
  /-- A write of RC_RST_SEND.GO sends one RESET frame carrying the stored credential (R155). -/
  | resetSend (who : Initiator) (v : Word)
  /-- A RESET frame addressed to this hub is checked against CREDENTIAL and causes a reset or an authentication failure (R67). -/
  | remoteResetReceived (src : Fin 128) (cred : List Byte)
  /-- A write of RP_CTRL.CLR_CNT clears the ring port counters (R157). -/
  | rpClrCnt (who : Initiator) (port : RingPort)
  /-- Writing a frame's head cell decides its admission, charges, copies and forwarding start (R174). -/
  | coreHeadCellWrite (p : CorePort)
  /-- A port cell is written to a bank chosen by the allocator (R163). -/
  | coreCellWrite (p : CorePort)
  /-- A write that waited because every free cell lay in the bank being read takes its cycle (R170). -/
  | coreDeferredWrite (p : CorePort)
  /-- The last cell delivers the frame's verdict; store-and-forward copies become eligible, or bad copies are handled (R185). -/
  | frameVerdict (p : CorePort) (good : Bool)
  /-- An egress port or consumer reads a cell of an eligible copy, with a SECDED check (R163). -/
  | coreCellRead (p : CorePort) (ecc : Ecc)
  /-- A copy ends, REFS falls, and the cells are freed once REFS reaches 0 (R168). -/
  | copyEnd (p : CorePort)
  /-- THRESH corrected errors in a bank within WINDOW request a bank replacement (R195). -/
  | bankEccThreshold (bank : Fin 17)
  /-- One allocated row of the bank under replacement is copied to the spare bank in a maintenance access (R196). -/
  | bankRowCopy (ecc : Ecc)
  /-- A write of CORE_SPARE_CMD.GO requests the replacement of a logical bank (R196). -/
  | coreSpareCmd (who : Initiator) (v : Word)
  /-- A write of CORE_CTRL.CLR_CNT clears the core counters (R200). -/
  | coreClrCnt (who : Initiator)
  /-- A write of Q_FLUSH.GO requests a flush of one queue (R209). -/
  | qFlush (who : Initiator) (page : Fin 4) (v : Word)
  /-- At the flush point, the unstarted entries of the queue are removed (R209). -/
  | flushPoint (page : Fin 4)
  /-- A twin or cluster port lost beyond its grace interval has its queues flushed (R212). -/
  | queueGraceExpired (p : CorePort)
  /-- A write of Q_CTRL.CLR_CNT clears the queue counters (R211). -/
  | qClrCnt (who : Initiator) (page : Fin 4)
  /-- A write to MB_PUSH pushes one item, or the item is refused and flagged as overrun (R214). -/
  | mbPush (who : Initiator) (m : Mailbox) (v : Word)
  /-- A read of MB_POP returns and pops the head item, or returns the last value and flags underrun (R215). -/
  | mbPopTake (who : Initiator) (m : Mailbox) (ecc : Ecc)
  /-- A take of QRP_TAKE returns the next cell of the selected queue's head frame (R217). -/
  | qrpTake (who : Initiator) (page : Fin 4) (ecc : Ecc)
  /-- A receiver-detect probe runs every 100 µs in DETECT (R231). -/
  | receiverDetectProbe (pitch : Pitch) (term : Bool)
  /-- A training frame received on a card lane counts toward lock and pairs FCNT for LOOP (R233): the time from the outbound frame of the
  same FCNT in 1/16 ns, whether the pair comes inverted, and what its receiver found. -/
  | cardTrainingFrame (pitch : Pitch) (bytes : List Byte) (sample : Nat) (inv : Bool) (mark : CardEnd)
  /-- A card link not locked within 1 ms of TRAIN returns to DETECT (R231). -/
  | cardTrainTimeout (pitch : Pitch)
  /-- Loss of signal lasting 1 µs returns the link to TRAIN, or restarts the lock count (R231). -/
  | cardLosPersist (pitch : Pitch)
  /-- 256 LOOP samples are judged; the link enters ROLLCALL, measures again or is HELD (R234). -/
  | loopMeasureDone (pitch : Pitch)
  /-- A complete inbound sideband block is checked and handled by its TYPE (R236). -/
  | sidebandBlockReceived (pitch : Pitch) (bytes : List Byte) (anyBad : Bool)
  /-- No accepted roll call within 64 superframes returns the link to TRAIN (R231). -/
  | rollcallTimeout (pitch : Pitch)
  /-- An inbound card frame is judged good or bad, passed to the engines as a report or a gap, and counted (R241). -/
  | cardFrameReceived (pitch : Pitch) (bytes : List Byte) (mark : CardEnd)
  /-- Each 16 ns the card quad sends an outbound frame carrying the engines' output state (R222). -/
  | cardFrameSend (pitch : Pitch)
  /-- At each superframe boundary, the loop is measured again, sideband blocks change, and pending stops and commits apply (R235). -/
  | superframeBoundary (pitch : Pitch) (live : Nat)
  /-- 16 superframes after a CL_SAFE commit or a SELECT_CHANGE, a STATUS block that still differs is flagged (R247). -/
  | safeMismatch (pitch : Pitch)
  /-- A write of CL_CTRL.RETRAIN sends the link to TRAIN (R231). -/
  | clRetrain (who : Initiator) (pitch : Pitch)
  /-- A write of CL_CTRL.CLR_CNT clears the card-link counters (R241). -/
  | clClrCnt (who : Initiator) (pitch : Pitch)
  /-- The cluster loader finishes loading the microcode and checks it; the cluster is released or held with UCODE_BAD (R254). -/
  | ucodeLoadDone (cluster : Pitch)
  /-- An engine takes one frame's line report, updates its line record and runs its mode's decisions (R255). -/
  | engineFrameReport (pitch : Pitch) (chan : Channel) (parity : EngParity)
  /-- A gap marker makes the interval unknown and applies the mode's gap rules (R256). -/
  | engineGap (pitch : Pitch) (chan : Channel)
  /-- GAP bit times with no start edge close the open record with END (R265). -/
  | asyncIdleGap (pitch : Pitch) (chan : Channel)
  /-- The transmitter starts a character once the FIFO holds one and the previous stop bits have ended (R267). -/
  | asyncTxStart (pitch : Pitch) (chan : Channel)
  /-- In half duplex, TXEN falls DE_LAG after the last stop bit when the FIFO is empty (R267). -/
  | asyncDeLagExpire (pitch : Pitch) (chan : Channel)
  /-- FLUSH µs after its first item, an open record closes and is sent (R259). -/
  | recordFlushTimeout (pitch : Pitch) (chan : Channel)
  /-- A cluster takes a transmit frame from its queue and accepts it into a channel FIFO or discards it (R260). -/
  | txRecordReceived (pitch : Pitch)
  /-- A write of SY_CMD.GO starts a software-triggered SYNC transfer (R271). -/
  | syCmdGo (who : Initiator) (engine : Engine)
  /-- An epoch or period trigger starts a SYNC transfer, or the trigger is skipped (R271). -/
  | syncTrigger (pitch : Pitch) (chan : Channel)
  /-- The last bit is judged and the sample is stored, published and recorded (R272). -/
  | syncTransferEnd (pitch : Pitch) (chan : Channel)
  /-- A change held for DEB × 100 ns is accepted, counted and recorded (R274). -/
  | discDebounceAccept (pitch : Pitch) (chan : Channel)
  /-- A take of EN_DI_COUNT returns the count and clears it and UNSURE (R275). -/
  | enDiCountTake (who : Initiator) (engine : Engine)
  /-- A write of DI_OUT in STATIC mode places the new level and enable (R278). -/
  | diOutWrite (who : Initiator) (engine : Engine) (v : Word)
  /-- A PWM period starts and places its high and low edges (R278). -/
  | pwmPeriodStart (pitch : Pitch) (chan : Channel)
  /-- A DI_SCHED item is placed at its instant, or discarded as late or out of order (R279). -/
  | discSchedItem (pitch : Pitch) (chan : Channel)
  /-- A write that changes EN_MODE.MODE resets the mode registers and counters (R286). -/
  | enModeWrite (who : Initiator) (engine : Engine) (v : Word)
  /-- A write of EN_MODE.CLR_CNT clears EN_CNT0 to EN_CNT3 (R286). -/
  | enClrCnt (who : Initiator) (engine : Engine)
  /-- A write of EC_MIG_CMD.GO requests a planned migration of a channel to the spare engine (R281). -/
  | ecMigCmd (who : Initiator) (cluster : Pitch) (v : Word)
  /-- A write of EC_MIG_CMD with URGENT requests an urgent migration (R284). -/
  | ecMigUrgent (who : Initiator) (cluster : Pitch) (v : Word)
  /-- At the mode boundary, the channel's state and outputs pass to the spare (R282). -/
  | migrationSwitch (cluster : Pitch)
  /-- No switch within TIMEOUT abandons the migration (R283). -/
  | migrationTimeout (cluster : Pitch)
  /-- A write of EC_CTRL.CLR_CNT clears the cluster counters (R285). -/
  | ecClrCnt (who : Initiator) (cluster : Pitch)
  /-- A valid received bus message is stamped and queued for lookup, or recorded (R303). -/
  | pbusMessageReceived (pitch : Pitch) (chan : Channel)
  /-- A write of PB_CMD.ABORT removes the head message if its transmission has not started (R302). -/
  | pbAbort (who : Initiator) (engine : Engine)
  /-- A write of PB_CMD.FLUSH empties the FIFO at the next PBUS boundary (R302). -/
  | pbFlush (who : Initiator) (engine : Engine)
  /-- A write of PB_CMD.RECOVER starts recovery from BUS_OFF (R296). -/
  | pbRecover (who : Initiator) (engine : Engine)
  /-- A cluster puts a routed message into the destination channel's FIFO, or discards it (R310). -/
  | routedFrameReceived (pitch : Pitch)
  /-- A basic cycle of the schedule matrix starts (R305). -/
  | ttBasicCycleStart (matrix : Matrix)
  /-- A column starts and the engine acts by its cell type (R306). -/
  | ttColumnStart (matrix : Matrix)
  /-- No reference within REF_WAIT counts a miss, or the backup becomes master (R307). -/
  | ttRefTimeout (matrix : Matrix)
  /-- A write of TM_SMP_CMD.GO submits a sample that is judged and used by the servo (R322). -/
  | sampleSubmit (who : Initiator) (v : Word)
  /-- No used sample for TIMEOUT puts the domain in HOLDOVER, or a backup in MASTER (R321). -/
  | domainTimeout (dom : Fin 2)
  /-- A write of TM_CTRL.JUMP zeroes the residual, or is refused while the scan unit runs (R328). -/
  | tmJump (who : Initiator)
  /-- A write of TM_CTRL.SNAP latches the local, domain and service times (R338). -/
  | tmSnap (who : Initiator)
  /-- A write of TM_CTRL.CLR_CNT clears both TM_D_CNT (R322). -/
  | tmClrCnt (who : Initiator)
  /-- A domain in MASTER originates a SYNC pair every PERIOD (R331). -/
  | syncOriginate (dom : Fin 2)
  /-- A port sends a PD_REQ every PERIOD (R335). -/
  | pdRequestSend (port : RingPort) (sub : Fin 26)
  /-- A PD_REQ is answered with a PD_RESP carrying TURN (R335). -/
  | pdReqReceived (port : RingPort) (bytes : List Byte) (turn : BitVec 32)
  /-- A PD_RESP yields a delay sample that is accepted into the mean or rejected (R336). -/
  | pdRespReceived (port : RingPort) (bytes : List Byte) (sub : Fin 26)
  /-- A write of SC_OPUB_SEND sends the chosen output publications for release epoch REL (R359). -/
  | scOpubSend (who : Initiator) (v : Word)
  /-- A write of SC_CTRL.CLR_CNT clears the scan counters and GAPS (R361). -/
  | scClrCnt (who : Initiator)
  /-- No completion within LIMIT ends the access with TIMEOUT and quarantines the tag (R370). -/
  | transactionTimeout (tag : Tag)
  /-- A quarantined tag is freed after a further LIMIT (R370). -/
  | tagQuarantineEnd (tag : Tag)
  /-- A request answered RETRY, or refused by the core, is resent 1 µs later (R369). -/
  | requestResend (tag : Tag)
  /-- A held-read slot's lifetime expires, and a taken value is recorded as lost (R378). -/
  | slotExpired (slot : Fin 16)
  /-- A write of BR_WIN_FENCE.GO starts a fence of the window (R383). -/
  | fenceStart (who : Initiator) (win : Win) (v : Word)
  /-- A write of BR_SIG_SEND.GO sends one signal (R388). -/
  | signalSend (who : Initiator) (v : Word)
  /-- A write of BR_TXF_CMD.GO sends the frame buffer through the core, or is refused (R391). -/
  | txfSend (who : Initiator) (v : Word)
  /-- A write of BR_CTRL.CLR_CNT clears the bridge counters (R395). -/
  | brClrCnt (who : Initiator)
  /-- A frame received on the twin link is checked and consumed by the port logic, or passed to the core (R398). -/
  | twinPortFrameReceive (bytes : List Byte) (ending : Ending)
  /-- A write of TW_CMD.RESYNC starts a snapshot resync (R408). -/
  | twResync (who : Initiator)
  /-- A write of TW_CMD.SWAP requests a planned switchover (R411). -/
  | twSwap (who : Initiator)
  /-- A held pitch becomes quiet and the old hub sends ACTIVE 0 on its lane (R412). -/
  | pitchQuiet (pitch : Pitch)
  /-- 1 ms after B_E, the old hub sends ACTIVE 0 on a pitch that is still not quiet (R412). -/
  | quietHoldTimeout (pitch : Pitch)
  /-- A write of TW_CMD.RELEASE hands the node to the twin, or is refused (R418). -/
  | twRelease (who : Initiator)
  /-- A write of TW_CMD.RESET_TWIN sends a reset command to the twin (R419). -/
  | twResetTwin (who : Initiator)
  /-- A write of TW_CMD.CLR_CNT clears the twin counters (R420). -/
  | twClrCnt (who : Initiator)
  /-- Each 1 µs sample updates the breaker timers, windows and measurements (R422). -/
  | supervisorSample (smp : SupSample)
  /-- The filtered presence or seating pin changes, and the channel enters INSERT or EMPTY (R424). -/
  | presenceChange (pitch : Pitch) (pres : Bool) (seat : Bool)
  /-- The insertion condition and delay complete, and the channel enters PRECHECK (R426). -/
  | insertConditionMet (pitch : Pitch)
  /-- After PRE, the pole test passes to RAMP or latches on a short (R427). -/
  | precheckDone (pitch : Pitch)
  /-- The output reaches bus − 0.5 V, and the channel enters ENHANCE (R428). -/
  | rampReached (pitch : Pitch)
  /-- RAMP_MAX passes without the output reaching bus − 0.5 V: POLE_OPEN, latched (R428). -/
  | rampTimeout (pitch : Pitch)
  /-- After 1 ms of ENHANCE, the channel enters ON (R425). -/
  | enhanceDone (pitch : Pitch)
  /-- In ON with every breaker timer at 0, power-good is given (R429). -/
  | powerGoodGiven (pitch : Pitch)
  /-- The bus outside the window for FILT turns the gate off (R430). -/
  | busWindowFault (pitch : Pitch)
  /-- The seating pin opening while powered turns the gate off within 10 µs (R431). -/
  | seatOpenExtract (pitch : Pitch)
  /-- The shunt voltage above IINST turns the gate off within 1 µs (R433). -/
  | instantTrip (pitch : Pitch)
  /-- A breaker timer reaches its point's time and trips the channel (R434). -/
  | breakerTrip (pitch : Pitch)
  /-- The cool-down ends and the channel returns to INSERT (R425). -/
  | coolDone (pitch : Pitch)
  /-- A write of PP_CTRL.CLEAR_LATCH leaves LATCHED with ATTEMPTS 0 (R425). -/
  | clearLatch (who : Initiator) (pitch : Pitch)
  /-- Power-good given for 10 s without interruption sets ATTEMPTS to 0 (R435). -/
  | attemptsClear (pitch : Pitch)
  /-- The on-resistance is measured each PERIOD, and RDS_WEAR and captures follow (R437). -/
  | rdsMeasure (pitch : Pitch)
  /-- A write of PP_CTRL.RDS_CAPTURE captures the mean of the next 16 measurements (R437). -/
  | rdsCapture (who : Initiator) (pitch : Pitch)
  /-- A write of PP_CTRL.CLR_CNT clears PP_CNT (R450). -/
  | ppClrCnt (who : Initiator) (pitch : Pitch)
  /-- A feed inside its inner window for QUAL becomes qualified, and selection may change over (R441). -/
  | feedQualified (feed : Feed)
  /-- A feed outside its window for FILT, or above OV, stops being qualified (R441). -/
  | feedLost (feed : Feed)
  /-- A disturbance ends after 1 ms in the window, and an entry is written (R447). -/
  | disturbanceEnd (feed : Feed)
  /-- A read of word 0 of a recorder entry latches word 1 (R448). -/
  | disturbEntryRead (who : Initiator) (entry : Fin 64)
  /-- A write of FD_CTRL.CLR_CNT clears FD_CNT (R451). -/
  | fdClrCnt (who : Initiator)
  /-- A scratchpad access is served or refused by ownership, including unaligned access and ECC handling (R453). -/
  | scratchpadAccess (who : Initiator) (addr : Nat) (write : Bool) (data : Word) (be : BitVec 4)
  /-- A MEM_BANK_CMD with OP 1 starts a handover of a bank's ownership (R454). -/
  | bankHandover (who : Initiator) (v : Word)
  /-- A MEM_BANK_CMD with OP 2 sets a bank to ON (R455). -/
  | bankPowerOn (who : Initiator) (v : Word)
  /-- A MEM_BANK_CMD with OP 3 sets a bank to RETENTION (R455). -/
  | bankPowerRetention (who : Initiator) (v : Word)
  /-- A MEM_BANK_CMD with OP 4 sets a bank to OFF (R455). -/
  | bankPowerOff (who : Initiator) (v : Word)
  /-- A draining bank finishes, and its owner or power state changes (R454). -/
  | bankDrainDone (bank : Fin 8)
  /-- A bank leaving OFF finishes being written with 0 (R455). -/
  | bankInitDone (bank : Fin 8)
  /-- A tracked row reaching ROW_THRESH requests a row repair (R459). -/
  | spRowEccThreshold (bank : Fin 8) (row : Nat)
  /-- A write of MEM_MARCH_CMD.GO starts a march run, or is refused (R465). -/
  | marchGo (who : Initiator) (v : Word)
  /-- A write of MEM_MARCH_CMD.ABORT stops the run at the end of the current row (R465). -/
  | marchAbort (who : Initiator)
  /-- A preserving run finishes one row and writes it back (R463). -/
  | marchRowStep (fails : Bool)
  /-- A march run ends, passed or failed, with the repairs of its failing rows (R464). -/
  | marchRunDone (mem : Fin 3) (failing : List (Nat × Nat))
  /-- A failing scratchpad row is moved to a spare row and recorded (R464). -/
  | rowRepair (bank : Fin 8) (row : Nat)
  /-- A write of MEM_CTRL.CLR_CNT clears the memory counters (R470). -/
  | memClrCnt (who : Initiator)
  /-- A write of FT_RELEASE.GO releases the isolation held by a source (R476). -/
  | ftRelease (who : Initiator) (v : Word)
  /-- A write of FT_CTRL.CLR_CNT clears the fault counters (R489). -/
  | ftClrCnt (who : Initiator)
  /-- The junction at WARN or above raises THERMAL_WARN (R488). -/
  | thermalWarn (tj : Int)
  /-- A sentinel measurement is judged and may raise a wear event with a spare action (R480). -/
  | sentinelMeasure (m : Sentinel)
  /-- A write of WR_CMD.CAPTURE measures every oscillator 16 times (R487). -/
  | wrCapture (who : Initiator)
  /-- A write of WR_CMD.STORE writes the baselines into the other copy (R487). -/
  | wrStore (who : Initiator)
  /-- A baseline capture or store ends (R487). -/
  | blDone (tj : Int) (means : List (Nat × Nat)) (ok : Bool)
  /-- A write of WR_CMD.WEAR_CLR re-arms every unit (R482). -/
  | wearClr (who : Initiator)
  /-- A write of WR_CMD.CLR_CNT clears WR_CNT (R490). -/
  | wrClrCnt (who : Initiator)
  /-- A reference in use fails or drifts, and the PLLs move to the other reference (R484). -/
  | referenceFail (ref : Fin 2) (drift : Bool)
  /-- A write of WR_REF_CMD.GO moves to a chosen reference (R484). -/
  | wrRefCmd (who : Initiator) (v : Word)
  /-- A PLL in use loses lock, and its spare is brought in or its islands are held (R485). -/
  | pllLockLoss (pll : Fin 13) (spare : Bool)
  /-- A PLL of a held island locks again, and the island is released (R485). -/
  | pllRelock (pll : Fin 13) (spare : Bool)
  /-- A write of WR_PLL_CMD.GO brings in a PLL's spare (R485). -/
  | wrPllCmd (who : Initiator) (v : Word)
  /-- UP_CMD CLEAR loads UP_SEQ and clears the chunk map (R496). -/
  | updClear (who : Initiator) (v : Word)
  /-- UP_CMD WRITE writes a chunk to the inactive slot (R496). -/
  | updWrite (who : Initiator) (v : Word)
  /-- A chunk write ends with read-back and its map bit set, or with UPD_MRAM_FAIL (R496). -/
  | updWriteDone (ok : Bool)
  /-- UP_CMD VERIFY starts verification of the inactive slot (R497). -/
  | updVerify (who : Initiator) (v : Word)
  /-- UP_CMD ARM sets a strike at epoch UP_EPOCH, or is refused (R499). -/
  | updArm (who : Initiator) (v : Word)
  /-- UP_CMD ARM_NOW strikes at once (R499). -/
  | updArmNow (who : Initiator) (v : Word)
  /-- UP_CMD DISARM returns an armed strike to VERIFIED (R499). -/
  | updDisarm (who : Initiator) (v : Word)
  /-- UP_CMD WRITE_AREA writes UP_WBUF to an option or equalization area of MRAM (R508). -/
  | updWriteArea (who : Initiator) (v : Word)
  /-- A write of UP_CTRL.CONFIRM gives the lantern's first-run confirmation (R501). -/
  | updConfirm (who : Initiator)
  /-- CARDS ends without failure; the strike is committed and the floors are raised (R507). -/
  | updateCommit (bad : Option Nat)
  /-- A write of UP_CTRL.CLR_CNT clears UP_CNT (R508). -/
  | upClrCnt (who : Initiator)
  /-- The supervisor die releases power-on reset 1 ms after the last monitored supply has passed its warning threshold; the straps are sampled and the reader leaves IDLE for FUSE (R523). -/
  | powerOnResetRelease (straps : Straps)
  /-- The groundsheet's control-link controller receives a frame from the supervisor die, which refreshes the logic die's status copy of the supervisor pages or, when it fails its check, raises SUPV_LINK_ERR (R488). -/
  | controlFrameReceived (ok : Bool)
  /-- The 32.768 kHz crystal starts or stops oscillating, which sets or clears GS_AON_HI.XTAL_OK, starts or stops the AON count, and enables or disables the crystal comparisons of the reference monitor (R510). -/
  | crystalOscillationChange (on : Bool)
  /-- A fall of HOST_ADS_N during an access in progress is ignored and counted in PROTO (R393). -/
  | hostAdsDuringAccess
  /-- A rise of HOST_CS_N before the data phase abandons the access; it still completes at the target, and the data of a take is recorded as lost (R393). -/
  | hostAccessAbandon
  /-- The supervisor die's power-on reset asserts an L0 reset (R65). -/
  | powerOnReset
  /-- A low level on RESET_N that passes the filter asserts a reset at its fuse-selected level (R77). -/
  | resetNRecognised
  /-- Expiry of the lantern watchdog causes a reset at its level (R70). -/
  | watchdogExpire
  /-- No edge on either reference for 2 µs asserts the clock-loss reset (R71). -/
  | clockLoss
  /-- A reset held back behind an MRAM write pulse is asserted when the pulse ends (R78). -/
  | resetAssertDeferred
  /-- The reader reads the fuses, applies the peg map and checks the CRCs, and enters MRAM_WAKE or FUSE_BAD (R84). -/
  | optFuseRead
  /-- The MRAM reports ready, and the reader reads both headers and chooses a copy (R84). -/
  | mramWakeDone
  /-- The reader verifies the chosen image, falls back to the other copy or to a bare start, and proceeds (R83). -/
  | optVerify
  /-- Every PLL and its spare report lock, and the reader proceeds to APPLY (R84). -/
  | optClocksLocked
  /-- The reader applies one option record through the preload path, with a commit when TYPE is 0x01 (R85). -/
  | optApplyRecord
  /-- The reader loads the equalization table into the lanes and reaches DONE (R119). -/
  | optEqualize
  /-- At each groundsheet cycle of DONE, the island at the next release position is released unless it is held (R88). -/
  | islandReleasePosition
  /-- The hub sends a TOPO frame in each direction every period, and within 10 µs of its own wraps (R145). -/
  | topoSend
  /-- Each TOPO period ages the entries, and sources that reach AGE are marked not live (R146). -/
  | topoAgeTick
  /-- After the last row, the spare bank serves the logical bank and the repair is recorded (R196). -/
  | bankReplaceDone
  /-- The routing unit begins the lookup of a waiting message (R311). -/
  | routeLookupBegin
  /-- A lookup ends and each match sends, queues, pushes or records the message (R309). -/
  | routeLookupDone
  /-- Service time changes automatically to the other domain once the conditions hold (R326). -/
  | stAutoSwitch
  /-- The residual reaches 0 (R324). -/
  | slewDone
  /-- At each boundary, written groups flip, outputs release, subscriptions settle and the epoch increments (R346). -/
  | epochBoundary
  /-- Once the inputs are latched, the scan unit sends the publications and auto output publications (R353). -/
  | latchDone
  /-- At the cutoff, the guard begins and output groups pass to the engines for release (R354). -/
  | guardStart
  /-- The scan unit takes a canopy frame from its queue and writes or discards it by epoch (R355). -/
  | scanFrameTake
  /-- A forwarded non-posted request is sent once a tag and a quota slot are free (R368). -/
  | forwardRequestSend
  /-- A request frame from another hub is served locally, or answered with RETRY when no tag is free (R369). -/
  | incomingRequest
  /-- A completion is matched to its tag and ends a held access, fills a slot or ends a fence (R377). -/
  | completionReceived
  /-- A LATE_WR frame logs a posted-write error and sets ERR of the window (R382). -/
  | lateWrReceived
  /-- The far bridge completes a FENCE once every earlier frame of the source is performed (R383). -/
  | farFenceComplete
  /-- A SIGNAL frame sets its pending bit and updates BR_SIG_LAST (R387). -/
  | signalReceived
  /-- The frame has been written to the core and BUSY falls (R391). -/
  | txfWriteDone
  /-- With the twin link down after START_WAIT, the hub becomes a single ACTIVE hub (R397). -/
  | twinStartWaitExpired
  /-- The hub sends a TGUY frame every PERIOD (R399). -/
  | tguySend
  /-- A TGUY frame refreshes the twin guy line and decides STARTING roles or split-brain healing (R397). -/
  | tguyReceived
  /-- No TGUY for TIMEOUT loses the twin guy line; a silent twin causes a standby to claim (R399). -/
  | twinGuyTimeout
  /-- The standby applies a MIRROR frame's entries in MSEQ order (R400). -/
  | mirrorReceived
  /-- The standby sends a MACK every 8 MIRROR frames or 10 µs (R406). -/
  | mackSend
  /-- A MACK reduces the backlog or requests a resync (R406). -/
  | mackReceived
  /-- A QCOPY and the copy after it are delivered to the mirrored queue (R407). -/
  | qcopyReceived
  /-- The active hub sends TIME, ENGINE and STATE entries when they are due (R404). -/
  | mirrorPeriodicEntry
  /-- The standby answers SWAP_PROPOSE with accept or refuse (R411). -/
  | swapProposeReceived
  /-- The active hub receives SWAP_ACCEPT or SWAP_REFUSE (R411). -/
  | swapAnswerReceived
  /-- No answer within 100 µs ends the swap as refused (R411). -/
  | swapAnswerTimeout
  /-- INTERVAL minutes after the last role change, the active hub requests a swap (R413). -/
  | periodicSwapDue
  /-- A RELEASE makes the standby claim (R414). -/
  | releaseReceived
  /-- After CLAIM superframes, a claiming hub becomes ACTIVE or STANDBY by the cards' selections (R415). -/
  | claimDecision
  /-- A twin reset command is accepted as a twin-commanded reset or ignored (R68). -/
  | twinResetReceived
  /-- A write to a supervisor page takes effect in the supervisor die (R12). -/
  | supvWriteArrive
  /-- The supervisor control link goes down, and its pages read NOT_READY (R423). -/
  | supvLinkDown
  /-- The supervisor control link comes up, and its pages can become READY (R91). -/
  | supvLinkUp
  /-- A role change reaching the supervisor holds the channels in STANDBY or releases them (R432). -/
  | roleToSupervisor
  /-- After the dead time, the selected feed is connected (R443). -/
  | changeoverDeadEnd
  /-- 100 µs after enhancement, HU_DIS opens and the changeover completes (R443). -/
  | changeoverEnd
  /-- A fault source event is counted, judged minor or severe, and takes its reaction (R473). -/
  | faultEvent
  /-- The ERR_N pulse ends, and any reset requested by the reaction is asserted (R477). -/
  | errPulseEnd
  /-- Verification ends with VERIFIED or a failure reason (R497). -/
  | updVerifyDone
  /-- Every 1 ms, the hub reads its twin's update state (R500). -/
  | twinUpdatePoll
  /-- The trial's conditions are met, and the hub enters HELD (R501). -/
  | strikeDone
  /-- TRIAL passes without the first run passing, and the strike reverts (R502). -/
  | trialExpired
  /-- The twin's swap or strike does not arrive in time, and this hub fails and reverts (R503). -/
  | twinStrikeTimeout
  /-- With the hubs in HELD, the active hub enters CARDS and relays firmware to eligible cards (R504). -/
  | cardRelayStart
  /-- At the end of CARD_WAIT, cards that have not passed fail or are skipped (R504). -/
  | cardWaitExpired
  /-- When the scan unit is not running, a LAGGING mirror returns to SYNCED once every readiness condition has held for 1 ms (R409). -/
  | mstateReturnSynced
  /-- During a strike, a refused switchover is requested again every 1 s, and an ACTIVE hub whose switchover request was refused reverts 1 s after that request (R503). -/
  | switchoverRequestRepeat
deriving DecidableEq, Repr

end Sys2Proof
end

