-- ==== Sys2Proof/Decode.lean ====
section
/-! DEFINITION. The opcode table gives no row of this hardware any bits: its commands are named, not encoded. No word spells
a command. -/
namespace Sys2Proof

/-- The command a word of the opcode table's bits spells: none, since no row has bits. -/
def decodeTableWord (_nbits _w : Nat) : Option Instr := none

end Sys2Proof
end

