-- ==== Sys2Proof/Config.lean ====
section
/-! DEFINITION. What the spec leaves open: opaque constants without a body, applied to a counter of the state or to the
operands. Nothing can prove a value of one, so a statement about a free value holds for every value of it. -/
namespace Sys2Proof.Config

/-- The stream of free values: every use takes the next one, by the state's counter `fresh`. -/
opaque free : Nat → Nat

end Sys2Proof.Config
end

