-- ==== Sys2Proof/Machine/Store.lean ====
section
/-! DEFINITION. Finite maps with a default, as plain data in one canonical form: keys strictly rising, and no entry equal to
the value an unlisted key reads as. Registers, queues' entries, cells and the byte memories are all held this way, so equal
contents are equal data. Fields of a register word (`Fld`) and rows of the register map (`Row`) are here too. -/
namespace Sys2Proof.Machine

/-- A finite map as a list of key and value pairs, keys strictly rising. -/
abbrev Map (V : Type) := List (Nat × V)

/-- The value at `k`, or `d` where `k` is not listed. -/
def Map.getD {V : Type} : Map V → Nat → V → V
  | [], _, d => d
  | (k', v) :: m, k, d => if k = k' then v else Map.getD m k d

/-- `m` without key `k`. -/
def Map.erase {V : Type} : Map V → Nat → Map V
  | [], _ => []
  | (k', v) :: m, k => if k = k' then Map.erase m k else (k', v) :: Map.erase m k

/-- `m` with the pair `(k, v)` put in key order. -/
def Map.ins {V : Type} : Map V → Nat → V → Map V
  | [], k, v => [(k, v)]
  | (k', v') :: m, k, v => if k ≤ k' then (k, v) :: (k', v') :: m else (k', v') :: Map.ins m k v

/-- `m` with `v` at `k`; a value equal to the default `d` removes the entry. -/
def Map.put {V : Type} [DecidableEq V] (m : Map V) (k : Nat) (v d : V) : Map V :=
  if v = d then m.erase k else (m.erase k).ins k v

/-- The keys are strictly rising and every one of them lies above `lo`. -/
def Map.sortedFrom {V : Type} (lo : Nat) : Map V → Bool
  | [] => true
  | (k, _) :: m => decide (lo ≤ k) && Map.sortedFrom (k + 1) m

/-- The canonical form: keys strictly rising, no entry equal to what `dflt` gives for its key. -/
def Map.wf {V : Type} [DecidableEq V] (dflt : Nat → V) (m : Map V) : Bool :=
  Map.sortedFrom 0 m && m.all fun e => decide (e.2 ≠ dflt e.1)

/-- `m` without the keys `p` names. -/
def Map.drop {V : Type} (p : Nat → Bool) (m : Map V) : Map V := m.filter fun e => !p e.1

/-- A field of a register: its register's offset in the page, its lowest bit and its width. -/
structure Fld where
  off : Nat
  lo : Nat
  w : Nat
deriving DecidableEq, Repr

/-- The same field in the register `d` bytes further on (arrays of registers). -/
def Fld.at (f : Fld) (d : Nat) : Fld := { f with off := f.off + d }

/-- The bits of the field, as a mask of the word. -/
def Fld.mask (f : Fld) : Word := BitVec.ofNat 32 ((2 ^ f.w - 1) <<< f.lo)

/-- The value of the field in a word. -/
def Fld.get (f : Fld) (x : Word) : Nat := (x.toNat >>> f.lo) % 2 ^ f.w

/-- The word with the field set to `v` modulo its width. -/
def Fld.set (f : Fld) (v : Nat) (x : Word) : Word :=
  (x &&& ~~~ f.mask) ||| BitVec.ofNat 32 ((v % 2 ^ f.w) <<< f.lo)

/-- A row of the register map: `count` groups of `inner` words, `stride` bytes apart, from offset `off`; the reset value of
each word and the bits of each access code of R49. -/
structure Row where
  off : Nat
  inner : Nat
  stride : Nat
  count : Nat
  reset : Nat
  rw : Nat
  rws : Nat
  rwl : Nat
  w1c : Nat
  w1s : Nat
  wo : Nat
deriving DecidableEq, Repr

/-- The row covers the offset. -/
def Row.has (r : Row) (off : Nat) : Bool :=
  decide (r.off ≤ off) && decide ((off - r.off) / r.stride < r.count) &&
  decide ((off - r.off) % r.stride < 4 * r.inner) && decide (off % 4 = 0)

/-- The first row that covers the offset. -/
def rowAt : List Row → Nat → Option Row
  | [], _ => none
  | r :: rs, off => if r.has off then some r else rowAt rs off

end Sys2Proof.Machine
end

