-- ==== Sys2Proof/Machine/RegMap.lean ====
section
/-! DEFINITION. The register map: every register of the page chapters' register tables by its name, with its offset in
its page, its fields, the bits each access code covers (R49) and its reset value. One `Fld` per field of the spec's
tables (reserved fields have none: they read their reset value and ignore writes), one `Row` per register or register
array, grouped by kind of page. Reset values that depend on the page, the index, a strap, a fuse or the option image are
0 here and are given in `resetWord` below or loaded by the operation the spec names. -/
namespace Sys2Proof.Machine

/-! ### common header (every page) -/
def PAGE_ID : Nat := 0
def PAGE_ID_BLOCK_TYPE : Fld := ⟨0, 16, 16⟩
def PAGE_ID_INSTANCE : Fld := ⟨0, 0, 16⟩
def PAGE_VER : Nat := 4
def PAGE_VER_MAJOR : Fld := ⟨4, 8, 8⟩
def PAGE_VER_MINOR : Fld := ⟨4, 0, 8⟩
def PAGE_STATE : Nat := 8
def PAGE_STATE_NR_REASON : Fld := ⟨8, 8, 8⟩
def PAGE_STATE_COMPAT_ACTIVE : Fld := ⟨8, 5, 1⟩
def PAGE_STATE_COMMIT_PENDING : Fld := ⟨8, 4, 1⟩
def PAGE_STATE_SPARED : Fld := ⟨8, 3, 1⟩
def PAGE_STATE_FAULT : Fld := ⟨8, 2, 1⟩
def PAGE_STATE_RUNNING : Fld := ⟨8, 1, 1⟩
def PAGE_STATE_READY : Fld := ⟨8, 0, 1⟩
def PAGE_CTRL : Nat := 0xC
def PAGE_CTRL_READ_ACTIVE : Fld := ⟨0xC, 8, 1⟩
def PAGE_CTRL_RESET_BLOCK : Fld := ⟨0xC, 3, 1⟩
def PAGE_CTRL_ABORT_COMMIT : Fld := ⟨0xC, 2, 1⟩
def PAGE_CTRL_COMMIT : Fld := ⟨0xC, 1, 1⟩
def PAGE_CTRL_ENABLE : Fld := ⟨0xC, 0, 1⟩
def EVT_STATUS : Nat := 0x10
def EVT_STATUS_BLOCK_EVT : Fld := ⟨0x10, 8, 24⟩
def EVT_STATUS_STATE_CHANGE : Fld := ⟨0x10, 4, 1⟩
def EVT_STATUS_CFG_SHADOW_BUSY : Fld := ⟨0x10, 3, 1⟩
def EVT_STATUS_CFG_COMMIT_REFUSED : Fld := ⟨0x10, 2, 1⟩
def EVT_STATUS_CFG_COMMIT_DONE : Fld := ⟨0x10, 1, 1⟩
def EVT_STATUS_CFG_LOCKED_WRITE : Fld := ⟨0x10, 0, 1⟩
def EVT_ENABLE : Nat := 0x14
def EVT_FORCE : Nat := 0x18
def CFG_STATUS : Nat := 0x1C
def CFG_STATUS_OFFSET : Fld := ⟨0x1C, 22, 10⟩
def CFG_STATUS_SEQ : Fld := ⟨0x1C, 16, 6⟩
def CFG_STATUS_REASON : Fld := ⟨0x1C, 8, 8⟩
def CFG_STATUS_RESULT : Fld := ⟨0x1C, 0, 3⟩
def COMPAT : Nat := 0x20
def COMPAT_MODE : Fld := ⟨0x20, 0, 2⟩
def FAULT_LINK : Nat := 0x24
def FAULT_LINK_FIRST : Fld := ⟨0x24, 8, 8⟩
def FAULT_LINK_COUNT : Fld := ⟨0x24, 0, 8⟩

/-! ### 0x000 groundsheet -/
def GS_LAST_CAUSE : Nat := 0x40
def GS_LAST_CAUSE_DETAIL : Fld := ⟨0x40, 8, 8⟩
def GS_LAST_CAUSE_LEVEL : Fld := ⟨0x40, 4, 2⟩
def GS_LAST_CAUSE_CAUSE : Fld := ⟨0x40, 0, 4⟩
def GS_LAST_STAMP_LO : Nat := 0x44
def GS_LAST_STAMP_LO_COUNT_LO : Fld := ⟨0x44, 0, 32⟩
def GS_LAST_STAMP_HI : Nat := 0x48
def GS_LAST_STAMP_HI_COUNT_HI : Fld := ⟨0x48, 0, 16⟩
def GS_AON_LO : Nat := 0x4C
def GS_AON_LO_COUNT_LO : Fld := ⟨0x4C, 0, 32⟩
def GS_AON_HI : Nat := 0x50
def GS_AON_HI_XTAL_OK : Fld := ⟨0x50, 31, 1⟩
def GS_AON_HI_COUNT_HI : Fld := ⟨0x50, 0, 16⟩
def GS_READY0 : Nat := 0x54
def GS_READY0_UPDATE : Fld := ⟨0x54, 20, 1⟩
def GS_READY0_MEM : Fld := ⟨0x54, 19, 1⟩
def GS_READY0_SCHED : Fld := ⟨0x54, 18, 1⟩
def GS_READY0_ROUTE : Fld := ⟨0x54, 17, 1⟩
def GS_READY0_LANTERN : Fld := ⟨0x54, 16, 1⟩
def GS_READY0_FEEDS : Fld := ⟨0x54, 15, 1⟩
def GS_READY0_TWIN : Fld := ⟨0x54, 14, 1⟩
def GS_READY0_HOST : Fld := ⟨0x54, 13, 1⟩
def GS_READY0_BRIDGE : Fld := ⟨0x54, 12, 1⟩
def GS_READY0_SCAN : Fld := ⟨0x54, 11, 1⟩
def GS_READY0_TIME : Fld := ⟨0x54, 10, 1⟩
def GS_READY0_QUEUE : Fld := ⟨0x54, 9, 1⟩
def GS_READY0_CORE : Fld := ⟨0x54, 8, 1⟩
def GS_READY0_RING_C : Fld := ⟨0x54, 7, 1⟩
def GS_READY0_RING_W : Fld := ⟨0x54, 6, 1⟩
def GS_READY0_RING_E : Fld := ⟨0x54, 5, 1⟩
def GS_READY0_WEAR : Fld := ⟨0x54, 4, 1⟩
def GS_READY0_FAULT : Fld := ⟨0x54, 3, 1⟩
def GS_READY0_CLK : Fld := ⟨0x54, 2, 1⟩
def GS_READY0_SUPV : Fld := ⟨0x54, 1, 1⟩
def GS_READY0_OPT : Fld := ⟨0x54, 0, 1⟩
def GS_READY_CL : Nat := 0x58
def GS_READY_CL_PITCH : Fld := ⟨0x58, 0, 24⟩
def GS_READY_PP : Nat := 0x5C
def GS_READY_PP_PITCH : Fld := ⟨0x5C, 0, 24⟩
def GS_READY_EC : Nat := 0x60
def GS_READY_EC_PITCH : Fld := ⟨0x60, 0, 24⟩
def GS_HOLD : Nat := 0x64
def GS_HOLD_ENG : Fld := ⟨0x64, 14, 1⟩
def GS_HOLD_CQ : Fld := ⟨0x64, 8, 6⟩
def GS_HOLD_HOST : Fld := ⟨0x64, 7, 1⟩
def GS_HOLD_LANTERN : Fld := ⟨0x64, 6, 1⟩
def GS_HOLD_TWIN : Fld := ⟨0x64, 5, 1⟩
def GS_HOLD_BRIDGE : Fld := ⟨0x64, 4, 1⟩
def GS_HOLD_SCAN : Fld := ⟨0x64, 3, 1⟩
def GS_HOLD_TIME : Fld := ⟨0x64, 2, 1⟩
def GS_HOLD_CORE : Fld := ⟨0x64, 1, 1⟩
def GS_HOLD_RING : Fld := ⟨0x64, 0, 1⟩
def GS_SOFT_RESET : Nat := 0x68
def GS_SOFT_RESET_KEY : Fld := ⟨0x68, 16, 16⟩
def GS_SOFT_RESET_GO : Fld := ⟨0x68, 0, 1⟩
def GS_RESET_CTRL : Nat := 0x6C
def GS_RESET_CTRL_TWIN_EN : Fld := ⟨0x6C, 1, 1⟩
def GS_RESET_CTRL_REMOTE_EN : Fld := ⟨0x6C, 0, 1⟩
def GS_WDOG_CTRL : Nat := 0x70
def GS_WDOG_CTRL_LOCK : Fld := ⟨0x70, 16, 1⟩
def GS_WDOG_CTRL_PERIOD : Fld := ⟨0x70, 0, 16⟩
def GS_WDOG_KICK : Nat := 0x74
def GS_WDOG_KICK_KICK : Fld := ⟨0x74, 0, 32⟩
def GS_OPT_STATUS : Nat := 0x78
def GS_OPT_STATUS_REFUSED : Fld := ⟨0x78, 8, 16⟩
def GS_OPT_STATUS_FUSE_BAD : Fld := ⟨0x78, 7, 1⟩
def GS_OPT_STATUS_FALLBACK : Fld := ⟨0x78, 6, 1⟩
def GS_OPT_STATUS_COPY : Fld := ⟨0x78, 4, 2⟩
def GS_OPT_STATUS_STATE : Fld := ⟨0x78, 0, 4⟩
def GS_OPT_FAIL : Nat := 0x7C
def GS_OPT_FAIL_OFFSET : Fld := ⟨0x7C, 0, 24⟩
def GS_HUB_ID : Nat := 0x80
def GS_HUB_ID_REDUNDANT : Fld := ⟨0x80, 9, 1⟩
def GS_HUB_ID_VALID : Fld := ⟨0x80, 8, 1⟩
def GS_HUB_ID_ID : Fld := ⟨0x80, 0, 7⟩
def GS_STRAPS : Nat := 0x84
def GS_STRAPS_BOOT_HOLD : Fld := ⟨0x84, 1, 1⟩
def GS_STRAPS_COMPAT_BN : Fld := ⟨0x84, 0, 1⟩
def GS_AUTH_FAIL : Nat := 0x88
def GS_AUTH_FAIL_COUNT : Fld := ⟨0x88, 0, 16⟩

/-! ### 0x001 fuses and option bytes -/
def FUSE_SERIAL_LO : Nat := 0x40
def FUSE_SERIAL_LO_VALUE : Fld := ⟨0x40, 0, 32⟩
def FUSE_SERIAL_HI : Nat := 0x44
def FUSE_SERIAL_HI_VALUE : Fld := ⟨0x44, 0, 32⟩
def FUSE_PART : Nat := 0x48
def FUSE_PART_SUPV_REV : Fld := ⟨0x48, 12, 4⟩
def FUSE_PART_LOGIC_REV : Fld := ⟨0x48, 8, 4⟩
def FUSE_PART_ORDER : Fld := ⟨0x48, 0, 8⟩
def FUSE_PROG_ADDR : Nat := 0x4C
def FUSE_PROG_ADDR_BIT : Fld := ⟨0x4C, 0, 12⟩
def FUSE_PROG_CTRL : Nat := 0x50
def FUSE_PROG_CTRL_KEY : Fld := ⟨0x50, 16, 16⟩
def FUSE_PROG_CTRL_GO : Fld := ⟨0x50, 0, 1⟩
def FUSE_PROG_STATUS : Nat := 0x54
def FUSE_PROG_STATUS_VERIFY_FAIL : Fld := ⟨0x54, 3, 1⟩
def FUSE_PROG_STATUS_REFUSED : Fld := ⟨0x54, 2, 1⟩
def FUSE_PROG_STATUS_DONE : Fld := ⟨0x54, 1, 1⟩
def FUSE_PROG_STATUS_BUSY : Fld := ⟨0x54, 0, 1⟩
def OPT_ACTIVE_GEN : Nat := 0x58
def OPT_ACTIVE_GEN_VALUE : Fld := ⟨0x58, 0, 32⟩
def FUSE_RAW : Nat := 0x400
def FUSE_RAW_WORD : Fld := ⟨0x400, 0, 32⟩

/-! ### 0x002 clocks -/

/-! ### 0x008/0x009 ring port (lane, port, peer-delay registers) -/
def LN_CTRL : Nat := 0x40
def LN_CTRL_CLR_CNT : Fld := ⟨0x40, 8, 1⟩
def LN_CTRL_FORCE_RETRAIN : Fld := ⟨0x40, 7, 1⟩
def LN_CTRL_PORT_EN : Fld := ⟨0x40, 2, 1⟩
def LN_CTRL_URGENT_EN : Fld := ⟨0x40, 1, 1⟩
def LN_CTRL_ERR_SPARE_EN : Fld := ⟨0x40, 0, 1⟩
def LN_STATUS : Nat := 0x44
def LN_STATUS_EQ_TABLE : Fld := ⟨0x44, 13, 1⟩
def LN_STATUS_LOCKED : Fld := ⟨0x44, 8, 5⟩
def LN_STATUS_PARTNER_NEW : Fld := ⟨0x44, 4, 1⟩
def LN_STATUS_PSTATE : Fld := ⟨0x44, 0, 3⟩
def LN_MAP : Nat := 0x48
def LN_MAP_RX : Fld := ⟨0x48, 16, 12⟩
def LN_MAP_TX : Fld := ⟨0x48, 0, 12⟩
def LN_SPARE_CMD : Nat := 0x4C
def LN_SPARE_CMD_GO : Fld := ⟨0x4C, 7, 1⟩
def LN_SPARE_CMD_LANE : Fld := ⟨0x4C, 0, 3⟩
def LN_SPARE_STATUS : Nat := 0x50
def LN_SPARE_STATUS_RX_RETIRED : Fld := ⟨0x50, 16, 5⟩
def LN_SPARE_STATUS_TX_RETIRED : Fld := ⟨0x50, 8, 5⟩
def LN_SPARE_STATUS_RX_SPARE_OK : Fld := ⟨0x50, 7, 1⟩
def LN_SPARE_STATUS_TX_SPARE_OK : Fld := ⟨0x50, 6, 1⟩
def LN_SPARE_STATUS_RX_OP : Fld := ⟨0x50, 0, 3⟩
def LN_ERR_CFG : Nat := 0x54
def LN_ERR_CFG_WINDOW : Fld := ⟨0x54, 16, 16⟩
def LN_ERR_CFG_THRESH : Fld := ⟨0x54, 0, 16⟩
def LN_PARTNER : Nat := 0x58
def LN_PARTNER_FLAGS : Fld := ⟨0x58, 16, 8⟩
def LN_PARTNER_KIND : Fld := ⟨0x58, 8, 8⟩
def LN_PARTNER_HUB : Fld := ⟨0x58, 0, 8⟩
def LN_PARTNER_SN_LO : Nat := 0x5C
def LN_PARTNER_SN_LO_SERIAL : Fld := ⟨0x5C, 0, 32⟩
def LN_PARTNER_SN_HI : Nat := 0x60
def LN_PARTNER_SN_HI_SERIAL : Fld := ⟨0x60, 0, 32⟩
def LN_PORT_CNT : Nat := 0x64
def LN_PORT_CNT_TRAIN_FAIL : Fld := ⟨0x64, 16, 16⟩
def LN_PORT_CNT_DESKEW_ERR : Fld := ⟨0x64, 0, 16⟩
def LN_CC_CNT : Nat := 0x68
def LN_CC_CNT_INSERTED : Fld := ⟨0x68, 16, 16⟩
def LN_CC_CNT_DELETED : Fld := ⟨0x68, 0, 16⟩
def LN_EQ : Nat := 0x80
def LN_EQ_CTLE : Fld := ⟨0x80, 12, 4⟩
def LN_EQ_DEEMPH : Fld := ⟨0x80, 8, 4⟩
def LN_EQ_SWING : Fld := ⟨0x80, 0, 5⟩
def LN_LSTAT : Nat := 0x84
def LN_LSTAT_LOS : Fld := ⟨0x84, 7, 1⟩
def LN_LSTAT_INV : Fld := ⟨0x84, 6, 1⟩
def LN_LSTAT_LOCKED : Fld := ⟨0x84, 5, 1⟩
def LN_LSTAT_FAULT : Fld := ⟨0x84, 4, 1⟩
def LN_LSTAT_ROLE : Fld := ⟨0x84, 2, 2⟩
def LN_CNT : Nat := 0x88
def LN_CNT_CV : Fld := ⟨0x88, 16, 16⟩
def LN_CNT_LOCK_LOSS : Fld := ⟨0x88, 0, 16⟩
def LN_EYE : Nat := 0x8C
def LN_EYE_EYE_V : Fld := ⟨0x8C, 8, 8⟩
def LN_EYE_EYE_H : Fld := ⟨0x8C, 0, 8⟩
def RP_CREDIT_GRANT : Nat := 0x100
def RP_CREDIT_GRANT_GRANT_T : Fld := ⟨0x100, 20, 12⟩
def RP_CREDIT_GRANT_GRANT_B : Fld := ⟨0x100, 8, 12⟩
def RP_CREDIT_GRANT_GRANT_M : Fld := ⟨0x100, 0, 8⟩
def RP_CREDIT_AVAIL : Nat := 0x104
def RP_CREDIT_AVAIL_AVAIL_T : Fld := ⟨0x104, 20, 12⟩
def RP_CREDIT_AVAIL_AVAIL_B : Fld := ⟨0x104, 8, 12⟩
def RP_CREDIT_AVAIL_AVAIL_M : Fld := ⟨0x104, 0, 8⟩
def RP_NEIGHBOUR : Nat := 0x108
def RP_NEIGHBOUR_FROZEN : Fld := ⟨0x108, 20, 1⟩
def RP_NEIGHBOUR_WRAPPED : Fld := ⟨0x108, 19, 1⟩
def RP_NEIGHBOUR_STATE : Fld := ⟨0x108, 16, 3⟩
def RP_NEIGHBOUR_GUY_VALID : Fld := ⟨0x108, 15, 1⟩
def RP_NEIGHBOUR_GUY_HUB : Fld := ⟨0x108, 8, 7⟩
def RP_CTRL : Nat := 0x10C
def RP_CTRL_CLR_CNT : Fld := ⟨0x10C, 0, 1⟩
def RP_RX_FRAMES : Nat := 0x120
def RP_RX_FRAMES_COUNT : Fld := ⟨0x120, 0, 32⟩
def RP_TX_FRAMES : Nat := 0x124
def RP_TX_FRAMES_COUNT : Fld := ⟨0x124, 0, 32⟩
def RP_RX_HCRC : Nat := 0x128
def RP_RX_HCRC_COUNT : Fld := ⟨0x128, 0, 32⟩
def RP_RX_BAD : Nat := 0x12C
def RP_RX_BAD_COUNT : Fld := ⟨0x12C, 0, 32⟩
def RP_RIDGE : Nat := 0x130
def RP_RIDGE_COUNT : Fld := ⟨0x130, 0, 32⟩
def RP_PREEMPT : Nat := 0x134
def RP_PREEMPT_COUNT : Fld := ⟨0x134, 0, 32⟩
def RP_TRUNC : Nat := 0x138
def RP_TRUNC_COUNT : Fld := ⟨0x138, 0, 32⟩
def RP_DROP_RONLY : Nat := 0x13C
def RP_DROP_RONLY_COUNT : Fld := ⟨0x13C, 0, 32⟩
def RP_DROP_E : Nat := 0x140
def RP_DROP_E_COUNT : Fld := ⟨0x140, 0, 32⟩
def RP_DROP_OVERRUN : Nat := 0x144
def RP_DROP_OVERRUN_COUNT : Fld := ⟨0x144, 0, 32⟩
def RP_STRIP : Nat := 0x148
def RP_STRIP_COUNT : Fld := ⟨0x148, 0, 32⟩
def RP_UNDELIV : Nat := 0x14C
def RP_UNDELIV_COUNT : Fld := ⟨0x14C, 0, 32⟩
def RP_DROP_LOOP : Nat := 0x150
def RP_DROP_LOOP_COUNT : Fld := ⟨0x150, 0, 32⟩
def RP_DROP_ORPHAN : Nat := 0x154
def RP_DROP_ORPHAN_COUNT : Fld := ⟨0x154, 0, 32⟩
def RP_FLUSHED : Nat := 0x158
def RP_FLUSHED_COUNT : Fld := ⟨0x158, 0, 32⟩
def RP_LL_DROP : Nat := 0x15C
def RP_LL_DROP_COUNT : Fld := ⟨0x15C, 0, 32⟩
def RP_PD_CFG : Nat := 0x180
def RP_PD_CFG_EN : Fld := ⟨0x180, 16, 1⟩
def RP_PD_CFG_PERIOD : Fld := ⟨0x180, 0, 16⟩
def RP_PD_DELAY : Nat := 0x184
def RP_PD_DELAY_VALID : Fld := ⟨0x184, 31, 1⟩
def RP_PD_DELAY_DELAY : Fld := ⟨0x184, 0, 16⟩
def RP_PD_ASYM : Nat := 0x188
def RP_PD_ASYM_ASYM : Fld := ⟨0x188, 0, 16⟩
def RP_PD_LAST : Nat := 0x18C
def RP_PD_LAST_ACCEPTED : Fld := ⟨0x18C, 31, 1⟩
def RP_PD_LAST_SAMPLE : Fld := ⟨0x18C, 0, 16⟩
def RP_PD_CNT : Nat := 0x190
def RP_PD_CNT_SAMPLES : Fld := ⟨0x190, 16, 16⟩
def RP_PD_CNT_REJECTED : Fld := ⟨0x190, 0, 16⟩

/-! ### 0x00A ring common -/
def RC_CTRL : Nat := 0x40
def RC_CTRL_HOLD_EN : Fld := ⟨0x40, 3, 1⟩
def RC_CTRL_UNWRAP_EN : Fld := ⟨0x40, 2, 1⟩
def RC_CTRL_ORPHAN_EN : Fld := ⟨0x40, 1, 1⟩
def RC_CTRL_WRAP_EN : Fld := ⟨0x40, 0, 1⟩
def RC_GUY_CFG : Nat := 0x44
def RC_GUY_CFG_TIMEOUT : Fld := ⟨0x44, 8, 16⟩
def RC_GUY_CFG_PERIOD : Fld := ⟨0x44, 0, 8⟩
def RC_TOPO_CFG : Nat := 0x48
def RC_TOPO_CFG_UNWRAP_HOLD : Fld := ⟨0x48, 16, 16⟩
def RC_TOPO_CFG_AGE : Fld := ⟨0x48, 8, 8⟩
def RC_TOPO_CFG_PERIOD : Fld := ⟨0x48, 0, 8⟩
def RC_HOLD_CFG : Nat := 0x4C
def RC_HOLD_CFG_HOLD_MAX : Fld := ⟨0x4C, 0, 16⟩
def RC_GRACE : Nat := 0x50
def RC_GRACE_GRACE : Fld := ⟨0x50, 0, 16⟩
def RC_MCAST : Nat := 0x54
def RC_MCAST_GROUPS : Fld := ⟨0x54, 0, 7⟩
def RC_PIN_CFG : Nat := 0x58
def RC_PIN_CFG_SALT : Fld := ⟨0x58, 0, 8⟩
def RC_ARB : Nat := 0x5C
def RC_ARB_B_WEIGHT : Fld := ⟨0x5C, 8, 8⟩
def RC_ARB_T_WEIGHT : Fld := ⟨0x5C, 0, 8⟩
def RC_STATE : Nat := 0x60
def RC_STATE_LIVE_COUNT : Fld := ⟨0x60, 16, 7⟩
def RC_STATE_RIDGE_ONLY : Fld := ⟨0x60, 10, 1⟩
def RC_STATE_WRAP_W : Fld := ⟨0x60, 9, 1⟩
def RC_STATE_WRAP_E : Fld := ⟨0x60, 8, 1⟩
def RC_CNT_NO_DEST : Nat := 0x64
def RC_CNT_NO_DEST_COUNT : Fld := ⟨0x64, 0, 32⟩
def RC_CNT_HOLD : Nat := 0x68
def RC_CNT_HOLD_COUNT : Fld := ⟨0x68, 0, 32⟩
def RC_CNT_HOLD_EXP : Nat := 0x6C
def RC_CNT_HOLD_EXP_COUNT : Fld := ⟨0x6C, 0, 32⟩
def RC_CNT_UNKNOWN : Nat := 0x70
def RC_CNT_UNKNOWN_COUNT : Fld := ⟨0x70, 0, 32⟩
def RC_CNT_RESET_DROP : Nat := 0x74
def RC_CNT_RESET_DROP_COUNT : Fld := ⟨0x74, 0, 32⟩
def RC_RST_CRED : Nat := 0x80
def RC_RST_CRED_CRED : Fld := ⟨0x80, 0, 32⟩
def RC_RST_SEND : Nat := 0x90
def RC_RST_SEND_DST : Fld := ⟨0x90, 16, 7⟩
def RC_RST_SEND_GO : Fld := ⟨0x90, 0, 1⟩
def RC_PIN : Nat := 0x100
def RC_PIN_ENTRY : Fld := ⟨0x100, 0, 32⟩
def RC_TOPO : Nat := 0x400
def RC_TOPO_AGE : Fld := ⟨0x400, 24, 8⟩
def RC_TOPO_DIST_E : Fld := ⟨0x400, 16, 8⟩
def RC_TOPO_DIST_W : Fld := ⟨0x400, 8, 8⟩
def RC_TOPO_REDUNDANT : Fld := ⟨0x400, 2, 1⟩
def RC_TOPO_SELF : Fld := ⟨0x400, 1, 1⟩
def RC_TOPO_LIVE : Fld := ⟨0x400, 0, 1⟩

/-! ### 0x010 switch core -/
def CORE_CTRL : Nat := 0x40
def CORE_CTRL_CLR_CNT : Fld := ⟨0x40, 8, 1⟩
def CORE_CTRL_SPARE_AUTO : Fld := ⟨0x40, 0, 1⟩
def CORE_POOL : Nat := 0x44
def CORE_POOL_FREE : Fld := ⟨0x44, 16, 15⟩
def CORE_POOL_SHARED : Fld := ⟨0x44, 0, 15⟩
def CORE_PORT_EN : Nat := 0x48
def CORE_PORT_EN_PORT : Fld := ⟨0x48, 0, 30⟩
def CORE_PORT_DOWN : Nat := 0x4C
def CORE_PORT_DOWN_PORT : Fld := ⟨0x4C, 0, 30⟩
def CORE_FWD_CT_E : Nat := 0x50
def CORE_FWD_CT_E_CLUSTER : Fld := ⟨0x50, 6, 24⟩
def CORE_FWD_CT_E_SCAN : Fld := ⟨0x50, 5, 1⟩
def CORE_FWD_CT_E_LANTERN : Fld := ⟨0x50, 4, 1⟩
def CORE_FWD_CT_E_BRIDGE : Fld := ⟨0x50, 3, 1⟩
def CORE_FWD_CT_E_RING_TWIN : Fld := ⟨0x50, 0, 3⟩
def CORE_FWD_CT_T : Nat := 0x54
def CORE_FWD_CT_T_CLUSTER : Fld := ⟨0x54, 6, 24⟩
def CORE_FWD_CT_T_SCAN : Fld := ⟨0x54, 5, 1⟩
def CORE_FWD_CT_T_LANTERN : Fld := ⟨0x54, 4, 1⟩
def CORE_FWD_CT_T_BRIDGE : Fld := ⟨0x54, 3, 1⟩
def CORE_FWD_CT_T_RING_TWIN : Fld := ⟨0x54, 0, 3⟩
def CORE_FWD_CT_B : Nat := 0x58
def CORE_FWD_CT_B_CLUSTER : Fld := ⟨0x58, 6, 24⟩
def CORE_FWD_CT_B_SCAN : Fld := ⟨0x58, 5, 1⟩
def CORE_FWD_CT_B_LANTERN : Fld := ⟨0x58, 4, 1⟩
def CORE_FWD_CT_B_BRIDGE : Fld := ⟨0x58, 3, 1⟩
def CORE_FWD_CT_B_RING_TWIN : Fld := ⟨0x58, 0, 3⟩
def CORE_FWD_CT_M : Nat := 0x5C
def CORE_FWD_CT_M_CLUSTER : Fld := ⟨0x5C, 6, 24⟩
def CORE_FWD_CT_M_SCAN : Fld := ⟨0x5C, 5, 1⟩
def CORE_FWD_CT_M_LANTERN : Fld := ⟨0x5C, 4, 1⟩
def CORE_FWD_CT_M_BRIDGE : Fld := ⟨0x5C, 3, 1⟩
def CORE_FWD_CT_M_RING_TWIN : Fld := ⟨0x5C, 0, 3⟩
def CORE_RING_RSV_E : Nat := 0x60
def CORE_RING_RSV_E_RSV_T : Fld := ⟨0x60, 20, 12⟩
def CORE_RING_RSV_E_RSV_B : Fld := ⟨0x60, 8, 12⟩
def CORE_RING_RSV_E_RSV_M : Fld := ⟨0x60, 0, 8⟩
def CORE_RING_RSV_W : Nat := 0x64
def CORE_RING_RSV_W_RSV_T : Fld := ⟨0x64, 20, 12⟩
def CORE_RING_RSV_W_RSV_B : Fld := ⟨0x64, 8, 12⟩
def CORE_RING_RSV_W_RSV_M : Fld := ⟨0x64, 0, 8⟩
def CORE_BANK_SPARE : Nat := 0x68
def CORE_BANK_SPARE_RETIRED : Fld := ⟨0x68, 8, 5⟩
def CORE_BANK_SPARE_SPARED : Fld := ⟨0x68, 4, 1⟩
def CORE_BANK_SPARE_LOGICAL : Fld := ⟨0x68, 0, 4⟩
def CORE_SPARE_CMD : Nat := 0x6C
def CORE_SPARE_CMD_GO : Fld := ⟨0x6C, 7, 1⟩
def CORE_SPARE_CMD_BANK : Fld := ⟨0x6C, 0, 4⟩
def CORE_SPARE_STATUS : Nat := 0x70
def CORE_SPARE_STATUS_ROW : Fld := ⟨0x70, 16, 11⟩
def CORE_SPARE_STATUS_BANK : Fld := ⟨0x70, 12, 4⟩
def CORE_SPARE_STATUS_STATE : Fld := ⟨0x70, 0, 3⟩
def CORE_ECC_CFG : Nat := 0x74
def CORE_ECC_CFG_WINDOW : Fld := ⟨0x74, 16, 16⟩
def CORE_ECC_CFG_THRESH : Fld := ⟨0x74, 0, 16⟩
def CORE_ECC_LAST : Nat := 0x78
def CORE_ECC_LAST_WHERE : Fld := ⟨0x78, 16, 2⟩
def CORE_ECC_LAST_CELL : Fld := ⟨0x78, 0, 14⟩
def CORE_CNT_MCAST_PARTIAL : Nat := 0x7C
def CORE_CNT_MCAST_PARTIAL_COUNT : Fld := ⟨0x7C, 0, 32⟩
def CORE_CNT_WR_DEFER : Nat := 0x80
def CORE_CNT_WR_DEFER_COUNT : Fld := ⟨0x80, 0, 32⟩
def CORE_CNT_UE : Nat := 0x84
def CORE_CNT_UE_COUNT : Fld := ⟨0x84, 0, 32⟩
def CORE_BANK_CNT : Nat := 0xC0
def CORE_BANK_CNT_CE : Fld := ⟨0xC0, 0, 16⟩
def CORE_DELIV : Nat := 0x200
def CORE_DELIV_ENTRY : Fld := ⟨0x200, 0, 32⟩
def CORE_PCNT_CELLS_IN : Nat := 0x400
def CORE_PCNT_CELLS_IN_COUNT : Fld := ⟨0x400, 0, 32⟩
def CORE_PCNT_CELLS_OUT : Nat := 0x404
def CORE_PCNT_CELLS_OUT_COUNT : Fld := ⟨0x404, 0, 32⟩
def CORE_PCNT_FRAMES_IN : Nat := 0x408
def CORE_PCNT_FRAMES_IN_COUNT : Fld := ⟨0x408, 0, 32⟩
def CORE_PCNT_FRAMES_OUT : Nat := 0x40C
def CORE_PCNT_FRAMES_OUT_COUNT : Fld := ⟨0x40C, 0, 32⟩
def CORE_PCNT_DROP_DOWN : Nat := 0x410
def CORE_PCNT_DROP_DOWN_COUNT : Fld := ⟨0x410, 0, 32⟩
def CORE_PCNT_DROP_QMAX : Nat := 0x414
def CORE_PCNT_DROP_QMAX_COUNT : Fld := ⟨0x414, 0, 32⟩
def CORE_PCNT_DROP_POOL : Nat := 0x418
def CORE_PCNT_DROP_POOL_COUNT : Fld := ⟨0x418, 0, 32⟩
def CORE_PCNT_DROP_BAD : Nat := 0x41C
def CORE_PCNT_DROP_BAD_COUNT : Fld := ⟨0x41C, 0, 32⟩

/-! ### 0x011-0x014 queues -/
def Q_FLUSH : Nat := 0x40
def Q_FLUSH_GO : Fld := ⟨0x40, 31, 1⟩
def Q_FLUSH_QUEUE : Fld := ⟨0x40, 0, 10⟩
def Q_FLUSH_STATUS : Nat := 0x44
def Q_FLUSH_STATUS_BUSY : Fld := ⟨0x44, 31, 1⟩
def Q_FLUSH_STATUS_QUEUE : Fld := ⟨0x44, 16, 10⟩
def Q_FLUSH_STATUS_REMOVED : Fld := ⟨0x44, 0, 16⟩
def Q_GRACE : Nat := 0x48
def Q_GRACE_GRACE : Fld := ⟨0x48, 0, 16⟩
def Q_FROZEN : Nat := 0x4C
def Q_FROZEN_CLUSTER : Fld := ⟨0x4C, 6, 24⟩
def Q_FROZEN_TWIN : Fld := ⟨0x4C, 2, 1⟩
def Q_FROZEN_RING : Fld := ⟨0x4C, 0, 2⟩
def Q_CNT_FLUSH : Nat := 0x50
def Q_CNT_FLUSH_COUNT : Fld := ⟨0x50, 0, 32⟩
def Q_CNT_GRACE : Nat := 0x54
def Q_CNT_GRACE_COUNT : Fld := ⟨0x54, 0, 32⟩
def Q_CTRL : Nat := 0x58
def Q_CTRL_CLR_CNT : Fld := ⟨0x58, 0, 1⟩
def MB_UNDERRUN : Nat := 0x60
def MB_UNDERRUN_UNDERRUN : Fld := ⟨0x60, 0, 32⟩
def MB_OVERRUN : Nat := 0x68
def MB_OVERRUN_OVERRUN : Fld := ⟨0x68, 0, 32⟩
def MB_NONEMPTY : Nat := 0x70
def MB_NONEMPTY_NONEMPTY : Fld := ⟨0x70, 0, 32⟩
def MB_ARRIVE_EN : Nat := 0x78
def MB_ARRIVE_EN_ARRIVE_EN : Fld := ⟨0x78, 0, 32⟩
def QRP_SEL : Nat := 0x80
def QRP_SEL_QUEUE : Fld := ⟨0x80, 0, 10⟩
def QRP_TAKE : Nat := 0x84
def QRP_TAKE_VALID : Fld := ⟨0x84, 31, 1⟩
def QRP_TAKE_FIRST : Fld := ⟨0x84, 30, 1⟩
def QRP_TAKE_LAST : Fld := ⟨0x84, 29, 1⟩
def QRP_TAKE_BAD : Fld := ⟨0x84, 28, 1⟩
def QRP_TAKE_CUT : Fld := ⟨0x84, 27, 1⟩
def QRP_TAKE_PENDING : Fld := ⟨0x84, 26, 1⟩
def QRP_TAKE_SEL_ERR : Fld := ⟨0x84, 25, 1⟩
def QRP_TAKE_LEN : Fld := ⟨0x84, 20, 5⟩
def QRP_TAKE_DEPTH : Fld := ⟨0x84, 0, 15⟩
def QRP_CELL : Nat := 0x88
def QRP_CELL_DATA : Fld := ⟨0x88, 0, 32⟩
def MB_PUSH : Nat := 0x200
def MB_PUSH_ITEM : Fld := ⟨0x200, 0, 32⟩
def MB_POP : Nat := 0x300
def MB_POP_ITEM : Fld := ⟨0x300, 0, 32⟩
def QCFG : Nat := 0x400
def QCFG_QMAX : Fld := ⟨0x400, 17, 15⟩
def QCFG_QMIN : Fld := ⟨0x400, 3, 14⟩
def QSTAT : Nat := 0xC00
def QSTAT_FLUSHING : Fld := ⟨0xC00, 31, 1⟩
def QSTAT_CHARGE : Fld := ⟨0xC00, 16, 15⟩
def QSTAT_FROZEN : Fld := ⟨0xC00, 15, 1⟩
def QSTAT_DEPTH : Fld := ⟨0xC00, 0, 15⟩
def QRP_PEEK : Nat := 0x884
def MB_PEEK : Nat := 0xB00

/-! ### 0x018 time -/
def TM_CTRL : Nat := 0x40
def TM_CTRL_CLR_CNT : Fld := ⟨0x40, 2, 1⟩
def TM_CTRL_JUMP : Fld := ⟨0x40, 1, 1⟩
def TM_CTRL_SNAP : Fld := ⟨0x40, 0, 1⟩
def TM_ST_CFG : Nat := 0x44
def TM_ST_CFG_AUTO_MAX : Fld := ⟨0x44, 16, 16⟩
def TM_ST_CFG_SLEW : Fld := ⟨0x44, 6, 10⟩
def TM_ST_CFG_AUTO : Fld := ⟨0x44, 1, 1⟩
def TM_ST_CFG_SEL : Fld := ⟨0x44, 0, 1⟩
def TM_ST_STATUS : Nat := 0x48
def TM_ST_STATUS_SLEWING : Fld := ⟨0x48, 1, 1⟩
def TM_ST_STATUS_SEL_ACTIVE : Fld := ⟨0x48, 0, 1⟩
def TM_ST_RESID : Nat := 0x4C
def TM_ST_RESID_RES : Fld := ⟨0x4C, 0, 32⟩
def TM_SNAP_LOC_LO : Nat := 0x50
def TM_SNAP_LOC_LO_LSTAMP : Fld := ⟨0x50, 0, 32⟩
def TM_SNAP_LOC_HI : Nat := 0x54
def TM_SNAP_LOC_HI_LSTAMP : Fld := ⟨0x54, 0, 32⟩
def TM_SNAP_A_NS : Nat := 0x58
def TM_SNAP_A_NS_NS : Fld := ⟨0x58, 0, 32⟩
def TM_SNAP_A_FRAC : Nat := 0x5C
def TM_SNAP_A_FRAC_FRAC : Fld := ⟨0x5C, 0, 16⟩
def TM_SNAP_A_ERA : Nat := 0x60
def TM_SNAP_A_ERA_ERA : Fld := ⟨0x60, 0, 32⟩
def TM_SNAP_B_NS : Nat := 0x64
def TM_SNAP_B_NS_NS : Fld := ⟨0x64, 0, 32⟩
def TM_SNAP_B_FRAC : Nat := 0x68
def TM_SNAP_B_FRAC_FRAC : Fld := ⟨0x68, 0, 16⟩
def TM_SNAP_B_ERA : Nat := 0x6C
def TM_SNAP_B_ERA_ERA : Fld := ⟨0x6C, 0, 32⟩
def TM_SNAP_ST_NS : Nat := 0x70
def TM_SNAP_ST_NS_NS : Fld := ⟨0x70, 0, 32⟩
def TM_SNAP_ST_FRAC : Nat := 0x74
def TM_SNAP_ST_FRAC_FRAC : Fld := ⟨0x74, 0, 16⟩
def TM_SNAP_ST_ERA : Nat := 0x78
def TM_SNAP_ST_ERA_ERA : Fld := ⟨0x78, 0, 32⟩
def TM_SMP_NS : Nat := 0x80
def TM_SMP_NS_NS : Fld := ⟨0x80, 0, 32⟩
def TM_SMP_FRAC : Nat := 0x84
def TM_SMP_FRAC_FRAC : Fld := ⟨0x84, 0, 16⟩
def TM_SMP_ERA : Nat := 0x88
def TM_SMP_ERA_ERA : Fld := ⟨0x88, 0, 32⟩
def TM_SMP_LOC_LO : Nat := 0x8C
def TM_SMP_LOC_LO_LSTAMP : Fld := ⟨0x8C, 0, 32⟩
def TM_SMP_LOC_HI : Nat := 0x90
def TM_SMP_LOC_HI_LSTAMP : Fld := ⟨0x90, 0, 32⟩
def TM_SMP_CMD : Nat := 0x94
def TM_SMP_CMD_GO : Fld := ⟨0x94, 31, 1⟩
def TM_SMP_CMD_DOM : Fld := ⟨0x94, 30, 1⟩
def TM_SMP_CMD_DIR : Fld := ⟨0x94, 29, 1⟩
def TM_SMP_CMD_SRC : Fld := ⟨0x94, 16, 7⟩
def TM_SMP_CMD_SEQ : Fld := ⟨0x94, 0, 16⟩
def TM_D_CFG : Nat := 0x100
def TM_D_CFG_ROLE : Fld := ⟨0x100, 30, 2⟩
def TM_D_CFG_DIR : Fld := ⟨0x100, 28, 2⟩
def TM_D_CFG_RLOAD : Fld := ⟨0x100, 27, 1⟩
def TM_D_CFG_NET : Fld := ⟨0x100, 16, 8⟩
def TM_D_CFG_MASTER : Fld := ⟨0x100, 8, 7⟩
def TM_D_CFG_BACKUP : Fld := ⟨0x100, 0, 7⟩
def TM_D_OFFSET_NS : Nat := 0x104
def TM_D_OFFSET_NS_NS : Fld := ⟨0x104, 0, 32⟩
def TM_D_OFFSET_FRAC : Nat := 0x108
def TM_D_OFFSET_FRAC_FRAC : Fld := ⟨0x108, 0, 16⟩
def TM_D_RATE : Nat := 0x10C
def TM_D_RATE_RATE : Fld := ⟨0x10C, 0, 32⟩
def TM_D_ADJ_NS : Nat := 0x110
def TM_D_ADJ_NS_ADJ : Fld := ⟨0x110, 0, 32⟩
def TM_D_ADJ_FRAC : Nat := 0x114
def TM_D_ADJ_FRAC_FRAC : Fld := ⟨0x114, 0, 16⟩
def TM_D_RATE_SET : Nat := 0x118
def TM_D_RATE_SET_RATE : Fld := ⟨0x118, 0, 32⟩
def TM_D_SERVO : Nat := 0x11C
def TM_D_SERVO_KP : Fld := ⟨0x11C, 28, 4⟩
def TM_D_SERVO_KI : Fld := ⟨0x11C, 24, 4⟩
def TM_D_SERVO_LOCK_COUNT : Fld := ⟨0x11C, 16, 8⟩
def TM_D_SERVO_LOCK_NS : Fld := ⟨0x11C, 0, 16⟩
def TM_D_TIMING : Nat := 0x120
def TM_D_TIMING_TIMEOUT : Fld := ⟨0x120, 16, 16⟩
def TM_D_TIMING_PERIOD : Fld := ⟨0x120, 0, 16⟩
def TM_D_STEP : Nat := 0x124
def TM_D_STEP_STEP : Fld := ⟨0x124, 0, 32⟩
def TM_D_STATUS : Nat := 0x128
def TM_D_STATUS_LAST_SRC : Fld := ⟨0x128, 7, 7⟩
def TM_D_STATUS_SOURCE : Fld := ⟨0x128, 5, 2⟩
def TM_D_STATUS_OUTLIERS : Fld := ⟨0x128, 3, 2⟩
def TM_D_STATUS_STATE : Fld := ⟨0x128, 0, 3⟩
def TM_D_ERROR : Nat := 0x12C
def TM_D_ERROR_ERROR : Fld := ⟨0x12C, 0, 32⟩
def TM_D_ERA : Nat := 0x130
def TM_D_ERA_ERA : Fld := ⟨0x130, 0, 32⟩
def TM_D_CNT : Nat := 0x134
def TM_D_CNT_USED : Fld := ⟨0x134, 16, 16⟩
def TM_D_CNT_REJECTED : Fld := ⟨0x134, 0, 16⟩

/-! ### 0x01C scan -/
def SC_CTRL : Nat := 0x40
def SC_CTRL_CLR_CNT : Fld := ⟨0x40, 8, 1⟩
def SC_PERIOD : Nat := 0x44
def SC_PERIOD_PERIOD : Fld := ⟨0x44, 0, 20⟩
def SC_GUARD : Nat := 0x48
def SC_GUARD_GUARD : Fld := ⟨0x48, 0, 16⟩
def SC_START_NS : Nat := 0x4C
def SC_START_NS_NS : Fld := ⟨0x4C, 0, 32⟩
def SC_START_EPOCH : Nat := 0x50
def SC_START_EPOCH_EPOCH : Fld := ⟨0x50, 0, 32⟩
def SC_EPOCH : Nat := 0x54
def SC_EPOCH_EPOCH : Fld := ⟨0x54, 0, 32⟩
def SC_BOUND_NS : Nat := 0x58
def SC_BOUND_NS_NS : Fld := ⟨0x58, 0, 32⟩
def SC_STATUS : Nat := 0x5C
def SC_STATUS_GUARDING : Fld := ⟨0x5C, 2, 1⟩
def SC_STATUS_STARTED : Fld := ⟨0x5C, 1, 1⟩
def SC_STATUS_WAITING : Fld := ⟨0x5C, 0, 1⟩
def SC_OPUB_REL : Nat := 0x60
def SC_OPUB_REL_REL : Fld := ⟨0x60, 0, 32⟩
def SC_OPUB_SEND : Nat := 0x64
def SC_OPUB_SEND_MASK : Fld := ⟨0x64, 0, 32⟩
def SC_CNT_IN : Nat := 0x70
def SC_CNT_IN_COUNT : Fld := ⟨0x70, 0, 32⟩
def SC_CNT_LATE_IN : Nat := 0x74
def SC_CNT_LATE_IN_COUNT : Fld := ⟨0x74, 0, 32⟩
def SC_CNT_SKEW : Nat := 0x78
def SC_CNT_SKEW_COUNT : Fld := ⟨0x78, 0, 32⟩
def SC_CNT_OUT : Nat := 0x7C
def SC_CNT_OUT_COUNT : Fld := ⟨0x7C, 0, 32⟩
def SC_CNT_LATE_OUT : Nat := 0x80
def SC_CNT_LATE_OUT_COUNT : Fld := ⟨0x80, 0, 32⟩
def SC_CNT_EARLY : Nat := 0x84
def SC_CNT_EARLY_COUNT : Fld := ⟨0x84, 0, 32⟩
def SC_CNT_BAD : Nat := 0x88
def SC_CNT_BAD_COUNT : Fld := ⟨0x88, 0, 32⟩
def SC_CNT_IDLE : Nat := 0x8C
def SC_CNT_IDLE_COUNT : Fld := ⟨0x8C, 0, 32⟩
def SC_LATE : Nat := 0xA0
def SC_LATE_LATE : Fld := ⟨0xA0, 0, 32⟩
def SC_PUB_RANGE : Nat := 0x100
def SC_PUB_RANGE_LEN : Fld := ⟨0x100, 16, 16⟩
def SC_PUB_RANGE_FIRST : Fld := ⟨0x100, 0, 15⟩
def SC_PUB_DEST : Nat := 0x104
def SC_PUB_DEST_EN : Fld := ⟨0x104, 31, 1⟩
def SC_PUB_DEST_DST : Fld := ⟨0x104, 16, 7⟩
def SC_PUB_DEST_STREAM : Fld := ⟨0x104, 0, 6⟩
def SC_PUB_STAT : Nat := 0x108
def SC_PUB_STAT_LAST : Fld := ⟨0x108, 0, 32⟩
def SC_SUB_CFG : Nat := 0x200
def SC_SUB_CFG_EN : Fld := ⟨0x200, 31, 1⟩
def SC_SUB_CFG_SRC : Fld := ⟨0x200, 8, 7⟩
def SC_SUB_CFG_PUB : Fld := ⟨0x200, 0, 3⟩
def SC_SUB_RANGE : Nat := 0x204
def SC_SUB_RANGE_LEN : Fld := ⟨0x204, 16, 16⟩
def SC_SUB_RANGE_BASE : Fld := ⟨0x204, 0, 15⟩
def SC_SUB_LAST : Nat := 0x208
def SC_SUB_LAST_EPOCH : Fld := ⟨0x208, 0, 32⟩
def SC_SUB_STAT : Nat := 0x20C
def SC_SUB_STAT_FRESH : Fld := ⟨0x20C, 31, 1⟩
def SC_SUB_STAT_GAPS : Fld := ⟨0x20C, 0, 16⟩
def SC_OPUB_RANGE : Nat := 0x400
def SC_OPUB_RANGE_LEN : Fld := ⟨0x400, 16, 16⟩
def SC_OPUB_RANGE_FIRST : Fld := ⟨0x400, 0, 15⟩
def SC_OPUB_DEST : Nat := 0x404
def SC_OPUB_DEST_EN : Fld := ⟨0x404, 31, 1⟩
def SC_OPUB_DEST_AUTO : Fld := ⟨0x404, 30, 1⟩
def SC_OPUB_DEST_DST : Fld := ⟨0x404, 16, 7⟩
def SC_OPUB_DEST_STREAM : Fld := ⟨0x404, 0, 6⟩
def SC_OPUB_RFIRST : Nat := 0x408
def SC_OPUB_RFIRST_RFIRST : Fld := ⟨0x408, 0, 15⟩

/-! ### 0x020 bridge -/
def BR_CTRL : Nat := 0x40
def BR_CTRL_CLR_CNT : Fld := ⟨0x40, 3, 1⟩
def BR_CTRL_RETRY_SPI : Fld := ⟨0x40, 2, 1⟩
def BR_CTRL_RETRY_HOST : Fld := ⟨0x40, 1, 1⟩
def BR_STATUS : Nat := 0x44
def BR_STATUS_SLOTS : Fld := ⟨0x44, 27, 5⟩
def BR_STATUS_TAGS_OUT : Fld := ⟨0x44, 16, 9⟩
def BR_STATUS_TAGS_IN : Fld := ⟨0x44, 0, 9⟩
def BR_TLIMIT : Nat := 0x48
def BR_TLIMIT_LIMIT : Fld := ⟨0x48, 0, 20⟩
def BR_SLOT_CFG : Nat := 0x4C
def BR_SLOT_CFG_LIFE : Fld := ⟨0x4C, 0, 16⟩
def BR_PWLOG_STAT : Nat := 0x50
def BR_PWLOG_STAT_TOTAL : Fld := ⟨0x50, 16, 16⟩
def BR_PWLOG_STAT_DROPPED : Fld := ⟨0x50, 0, 8⟩
def BR_PWLOG_ACK : Nat := 0x54
def BR_PWLOG_ACK_ACK : Fld := ⟨0x54, 0, 16⟩
def BR_TL_ADDR : Nat := 0x58
def BR_TL_ADDR_OFFSET : Fld := ⟨0x58, 0, 32⟩
def BR_TL_INFO : Nat := 0x5C
def BR_TL_INFO_VALID : Fld := ⟨0x5C, 31, 1⟩
def BR_TL_INFO_HUB : Fld := ⟨0x5C, 16, 7⟩
def BR_TL_INFO_OFFSET32 : Fld := ⟨0x5C, 0, 1⟩
def BR_TL_DATA : Nat := 0x60
def BR_TL_DATA_DATA : Fld := ⟨0x60, 0, 32⟩
def BR_CNT_TIMEOUT : Nat := 0x80
def BR_CNT_TIMEOUT_COUNT : Fld := ⟨0x80, 0, 32⟩
def BR_CNT_RETRY : Nat := 0x84
def BR_CNT_RETRY_COUNT : Fld := ⟨0x84, 0, 32⟩
def BR_CNT_REFUSED : Nat := 0x88
def BR_CNT_REFUSED_COUNT : Fld := ⟨0x88, 0, 32⟩
def BR_CNT_SLOT_EXP : Nat := 0x8C
def BR_CNT_SLOT_EXP_COUNT : Fld := ⟨0x8C, 0, 32⟩
def BR_CNT_LATE_CPL : Nat := 0x90
def BR_CNT_LATE_CPL_COUNT : Fld := ⟨0x90, 0, 32⟩
def BR_CNT_RESEND : Nat := 0x94
def BR_CNT_RESEND_COUNT : Fld := ⟨0x94, 0, 32⟩
def BR_CNT_TAKE_LOST : Nat := 0x98
def BR_CNT_TAKE_LOST_COUNT : Fld := ⟨0x98, 0, 32⟩
def BR_CNT_NO_DEST : Nat := 0x9C
def BR_CNT_NO_DEST_COUNT : Fld := ⟨0x9C, 0, 32⟩
def BR_WIN_BASE : Nat := 0x100
def BR_WIN_BASE_EN : Fld := ⟨0x100, 31, 1⟩
def BR_WIN_BASE_SIZE : Fld := ⟨0x100, 24, 6⟩
def BR_WIN_BASE_BASE : Fld := ⟨0x100, 0, 20⟩
def BR_WIN_TGT : Nat := 0x104
def BR_WIN_TGT_STREAM : Fld := ⟨0x104, 24, 6⟩
def BR_WIN_TGT_TBASE : Fld := ⟨0x104, 0, 20⟩
def BR_WIN_CFG : Nat := 0x108
def BR_WIN_CFG_POSTED : Fld := ⟨0x108, 31, 1⟩
def BR_WIN_CFG_SIDE_EFFECT : Fld := ⟨0x108, 30, 1⟩
def BR_WIN_CFG_QUOTA : Fld := ⟨0x108, 16, 9⟩
def BR_WIN_CFG_WSEQ : Fld := ⟨0x108, 0, 16⟩
def BR_WIN_FENCE : Nat := 0x10C
def BR_WIN_FENCE_GO : Fld := ⟨0x10C, 31, 1⟩
def BR_WIN_FENCE_BUSY : Fld := ⟨0x10C, 30, 1⟩
def BR_WIN_FENCE_ERR : Fld := ⟨0x10C, 29, 1⟩
def BR_WIN_FENCE_RESULT : Fld := ⟨0x10C, 24, 3⟩
def BR_WIN_FENCE_CONF : Fld := ⟨0x10C, 0, 16⟩
def BR_SLOT_ADDR : Nat := 0x300
def BR_SLOT_ADDR_OFFSET : Fld := ⟨0x300, 0, 32⟩
def BR_SLOT_INFO : Nat := 0x304
def BR_SLOT_INFO_STATE : Fld := ⟨0x304, 29, 3⟩
def BR_SLOT_INFO_PORT : Fld := ⟨0x304, 28, 1⟩
def BR_SLOT_INFO_WRITE : Fld := ⟨0x304, 27, 1⟩
def BR_SLOT_INFO_RSP : Fld := ⟨0x304, 24, 3⟩
def BR_SLOT_INFO_HUB : Fld := ⟨0x304, 16, 7⟩
def BR_SLOT_INFO_OFFSET32 : Fld := ⟨0x304, 8, 1⟩
def BR_SLOT_INFO_TAG : Fld := ⟨0x304, 0, 8⟩
def BR_SLOT_DATA : Nat := 0x308
def BR_SLOT_DATA_DATA : Fld := ⟨0x308, 0, 32⟩
def BR_SLOT_AGE : Nat := 0x30C
def BR_SLOT_AGE_AGE : Fld := ⟨0x30C, 0, 16⟩
def BR_SIG_PEND : Nat := 0x400
def BR_SIG_PEND_PEND : Fld := ⟨0x400, 0, 32⟩
def BR_SIG_EN : Nat := 0x420
def BR_SIG_EN_EN : Fld := ⟨0x420, 0, 32⟩
def BR_SIG_TGT : Nat := 0x440
def BR_SIG_TGT_EN : Fld := ⟨0x440, 31, 1⟩
def BR_SIG_TGT_CLASS_T : Fld := ⟨0x440, 30, 1⟩
def BR_SIG_TGT_STREAM : Fld := ⟨0x440, 24, 6⟩
def BR_SIG_TGT_HUB : Fld := ⟨0x440, 16, 7⟩
def BR_SIG_SEND : Nat := 0x444
def BR_SIG_SEND_GO : Fld := ⟨0x444, 31, 1⟩
def BR_SIG_SEND_VIA_WIN : Fld := ⟨0x444, 30, 1⟩
def BR_SIG_SEND_WIN : Fld := ⟨0x444, 24, 5⟩
def BR_SIG_SEND_CLASS_T : Fld := ⟨0x444, 23, 1⟩
def BR_SIG_SEND_HUB : Fld := ⟨0x444, 16, 7⟩
def BR_SIG_SEND_STREAM : Fld := ⟨0x444, 8, 6⟩
def BR_SIG_SEND_SIG : Fld := ⟨0x444, 0, 8⟩
def BR_SIG_LAST : Nat := 0x448
def BR_SIG_LAST_PAGE : Fld := ⟨0x448, 16, 12⟩
def BR_SIG_LAST_SRC : Fld := ⟨0x448, 8, 7⟩
def BR_SIG_LAST_SIG : Fld := ⟨0x448, 0, 8⟩
def BR_TXF_CMD : Nat := 0x44C
def BR_TXF_CMD_GO : Fld := ⟨0x44C, 31, 1⟩
def BR_TXF_CMD_DIRECT : Fld := ⟨0x44C, 30, 1⟩
def BR_TXF_CMD_QUEUE : Fld := ⟨0x44C, 20, 10⟩
def BR_TXF_CMD_P : Fld := ⟨0x44C, 0, 10⟩
def BR_TXF_STATUS : Nat := 0x450
def BR_TXF_STATUS_BUSY : Fld := ⟨0x450, 31, 1⟩
def BR_TXF_STATUS_RESULT : Fld := ⟨0x450, 0, 3⟩
def BR_TXF_BUF : Nat := 0x500
def BR_TXF_BUF_DATA : Fld := ⟨0x500, 0, 32⟩
def BR_PWLOG0 : Nat := 0xA00
def BR_PWLOG0_CAUSE : Fld := ⟨0xA00, 30, 2⟩
def BR_PWLOG0_RSP : Fld := ⟨0xA00, 27, 3⟩
def BR_PWLOG0_HUB : Fld := ⟨0xA00, 16, 7⟩
def BR_PWLOG0_WIN : Fld := ⟨0xA00, 0, 5⟩
def BR_PWLOG1 : Nat := 0xA04
def BR_PWLOG1_OFFSET32 : Fld := ⟨0xA04, 16, 1⟩
def BR_PWLOG1_WSEQ : Fld := ⟨0xA04, 0, 16⟩
def BR_PWLOG2 : Nat := 0xA08
def BR_PWLOG2_OFFSET : Fld := ⟨0xA08, 0, 32⟩
def BR_PWLOG3 : Nat := 0xA0C
def BR_PWLOG3_TIME : Fld := ⟨0xA0C, 0, 32⟩
def BR_IRQ_ROUTE : Nat := 0xC00
def BR_IRQ_ROUTE_ROUTE : Fld := ⟨0xC00, 0, 32⟩

/-! ### 0x021 host port and SPI -/
def HOST_PSEL : Nat := 0x40
def HOST_PSEL_SELF : Fld := ⟨0x40, 31, 1⟩
def HOST_PSEL_HUB : Fld := ⟨0x40, 16, 7⟩
def HOST_PSEL_BASE : Fld := ⟨0x40, 0, 8⟩
def HOST_CFG : Nat := 0x48
def HOST_CFG_INT_OD : Fld := ⟨0x48, 1, 1⟩
def HOST_CFG_INT_OE : Fld := ⟨0x48, 0, 1⟩
def HOST_CNT : Nat := 0x4C
def HOST_CNT_SPI_ABORT : Fld := ⟨0x4C, 16, 16⟩
def HOST_CNT_PROTO : Fld := ⟨0x4C, 0, 16⟩

/-! ### 0x024 twin -/
def TW_CFG : Nat := 0x100
def TW_CFG_PREFER : Fld := ⟨0x100, 31, 1⟩
def TW_CFG_CLAIM : Fld := ⟨0x100, 16, 8⟩
def TW_CFG_START_WAIT : Fld := ⟨0x100, 0, 16⟩
def TW_SWAP : Nat := 0x104
def TW_SWAP_INTERVAL : Fld := ⟨0x104, 0, 16⟩
def TW_GUY : Nat := 0x108
def TW_GUY_TIMEOUT : Fld := ⟨0x108, 8, 16⟩
def TW_GUY_PERIOD : Fld := ⟨0x108, 0, 8⟩
def TW_CMD : Nat := 0x10C
def TW_CMD_CLR_CNT : Fld := ⟨0x10C, 4, 1⟩
def TW_CMD_RESYNC : Fld := ⟨0x10C, 3, 1⟩
def TW_CMD_RESET_TWIN : Fld := ⟨0x10C, 2, 1⟩
def TW_CMD_RELEASE : Fld := ⟨0x10C, 1, 1⟩
def TW_CMD_SWAP : Fld := ⟨0x10C, 0, 1⟩
def TW_STATUS : Nat := 0x110
def TW_STATUS_TWIN_ROLE : Fld := ⟨0x110, 12, 3⟩
def TW_STATUS_SWAP_DUE : Fld := ⟨0x110, 11, 1⟩
def TW_STATUS_RING_GUY : Fld := ⟨0x110, 10, 1⟩
def TW_STATUS_TWIN_GUY : Fld := ⟨0x110, 9, 1⟩
def TW_STATUS_PRESENT : Fld := ⟨0x110, 8, 1⟩
def TW_STATUS_READY : Fld := ⟨0x110, 7, 1⟩
def TW_STATUS_MSTATE : Fld := ⟨0x110, 5, 2⟩
def TW_STATUS_ROLE : Fld := ⟨0x110, 0, 3⟩
def TW_LAG : Nat := 0x114
def TW_LAG_BACKLOG : Fld := ⟨0x114, 0, 13⟩
def TW_LAG_CFG : Nat := 0x118
def TW_LAG_CFG_MAX : Fld := ⟨0x118, 0, 13⟩
def TW_CNT_SWITCH : Nat := 0x11C
def TW_CNT_SWITCH_PLANNED : Fld := ⟨0x11C, 16, 16⟩
def TW_CNT_SWITCH_UNPLANNED : Fld := ⟨0x11C, 0, 16⟩
def TW_CNT_RESYNC : Nat := 0x120
def TW_CNT_RESYNC_COUNT : Fld := ⟨0x120, 0, 32⟩
def TW_CNT_CANOPY_LATE : Nat := 0x124
def TW_CNT_CANOPY_LATE_COUNT : Fld := ⟨0x124, 0, 32⟩
def TW_CNT_BAD : Nat := 0x128
def TW_CNT_BAD_COUNT : Fld := ⟨0x128, 0, 32⟩
def TW_ENG_MIR : Nat := 0x140
def TW_ENG_MIR_CHAN : Fld := ⟨0x140, 0, 32⟩
def TW_QMIR : Nat := 0x160
def TW_QMIR_EN_HI : Fld := ⟨0x160, 31, 1⟩
def TW_QMIR_QUEUE_HI : Fld := ⟨0x160, 16, 10⟩
def TW_QMIR_EN_LO : Fld := ⟨0x160, 15, 1⟩
def TW_QMIR_QUEUE_LO : Fld := ⟨0x160, 0, 10⟩

/-! ### 0x028 feeds -/
def FD_CTRL : Nat := 0x40
def FD_CTRL_CLR_CNT : Fld := ⟨0x40, 8, 1⟩
def FD_CTRL_REVERT : Fld := ⟨0x40, 3, 1⟩
def FD_CTRL_PREF : Fld := ⟨0x40, 2, 1⟩
def FD_CTRL_MODE : Fld := ⟨0x40, 0, 2⟩
def FD_WIN_A : Nat := 0x44
def FD_WIN_A_OV : Fld := ⟨0x44, 9, 9⟩
def FD_WIN_A_UV : Fld := ⟨0x44, 0, 9⟩
def FD_WIN_B : Nat := 0x48
def FD_WIN_B_OV : Fld := ⟨0x48, 9, 9⟩
def FD_WIN_B_UV : Fld := ⟨0x48, 0, 9⟩
def FD_TIMING : Nat := 0x4C
def FD_TIMING_DEAD : Fld := ⟨0x4C, 24, 5⟩
def FD_TIMING_FILT : Fld := ⟨0x4C, 14, 10⟩
def FD_TIMING_QUAL : Fld := ⟨0x4C, 0, 14⟩
def FD_HOLDUP : Nat := 0x50
def FD_HOLDUP_HU_EN : Fld := ⟨0x50, 31, 1⟩
def FD_HOLDUP_HU_MIN : Fld := ⟨0x50, 0, 9⟩
def FD_STATUS : Nat := 0x54
def FD_STATUS_HU_ACTIVE : Fld := ⟨0x54, 11, 1⟩
def FD_STATUS_HU_OK : Fld := ⟨0x54, 10, 1⟩
def FD_STATUS_CHANGING : Fld := ⟨0x54, 9, 1⟩
def FD_STATUS_B_OV : Fld := ⟨0x54, 7, 1⟩
def FD_STATUS_A_OV : Fld := ⟨0x54, 6, 1⟩
def FD_STATUS_B_OK : Fld := ⟨0x54, 5, 1⟩
def FD_STATUS_A_OK : Fld := ⟨0x54, 4, 1⟩
def FD_STATUS_SEL : Fld := ⟨0x54, 0, 2⟩
def FD_VFEED : Nat := 0x58
def FD_VFEED_HI : Fld := ⟨0x58, 16, 9⟩
def FD_VFEED_LO : Fld := ⟨0x58, 0, 9⟩
def FD_VBUS : Nat := 0x5C
def FD_VBUS_HI : Fld := ⟨0x5C, 16, 9⟩
def FD_VBUS_LO : Fld := ⟨0x5C, 0, 9⟩
def FD_CNT : Nat := 0x60
def FD_CNT_CHANGEOVERS : Fld := ⟨0x60, 16, 16⟩
def FD_CNT_NO_FEED : Fld := ⟨0x60, 0, 16⟩

/-! ### 0x030+n pitch power -/
def PP_CTRL : Nat := 0x40
def PP_CTRL_CLR_CNT : Fld := ⟨0x40, 8, 1⟩
def PP_CTRL_RDS_CAPTURE : Fld := ⟨0x40, 2, 1⟩
def PP_CTRL_CLEAR_LATCH : Fld := ⟨0x40, 0, 1⟩
def PP_CFG : Nat := 0x44
def PP_CFG_STBY_OFF : Fld := ⟨0x44, 31, 1⟩
def PP_CFG_RETRY : Fld := ⟨0x44, 24, 4⟩
def PP_CFG_PRES_DEB : Fld := ⟨0x44, 16, 8⟩
def PP_CFG_COOL : Fld := ⟨0x44, 0, 16⟩
def PP_INS : Nat := 0x48
def PP_INS_DELAY : Fld := ⟨0x48, 0, 14⟩
def PP_WIN : Nat := 0x4C
def PP_WIN_FILT : Fld := ⟨0x4C, 22, 10⟩
def PP_WIN_OV : Fld := ⟨0x4C, 9, 9⟩
def PP_WIN_UV : Fld := ⟨0x4C, 0, 9⟩
def PP_RAMP : Nat := 0x50
def PP_RAMP_SLEW : Fld := ⟨0x50, 24, 8⟩
def PP_RAMP_PRE : Fld := ⟨0x50, 16, 8⟩
def PP_RAMP_RAMP_MAX : Fld := ⟨0x50, 0, 16⟩
def PP_IINST : Nat := 0x54
def PP_IINST_IINST : Fld := ⟨0x54, 0, 8⟩
def PP_RDS_CFG : Nat := 0x58
def PP_RDS_CFG_BASE : Fld := ⟨0x58, 16, 16⟩
def PP_RDS_CFG_WARN : Fld := ⟨0x58, 8, 8⟩
def PP_RDS_CFG_PERIOD : Fld := ⟨0x58, 0, 8⟩
def PP_SHUNT : Nat := 0x5C
def PP_SHUNT_SHUNT : Fld := ⟨0x5C, 0, 16⟩
def PP_CURVE : Nat := 0x60
def PP_CURVE_EN : Fld := ⟨0x60, 31, 1⟩
def PP_CURVE_I : Fld := ⟨0x60, 20, 10⟩
def PP_CURVE_T : Fld := ⟨0x60, 0, 20⟩
def PP_STATUS : Nat := 0x80
def PP_STATUS_ATTEMPTS : Fld := ⟨0x80, 20, 4⟩
def PP_STATUS_CAUSE : Fld := ⟨0x80, 16, 4⟩
def PP_STATUS_TRIP_POINT : Fld := ⟨0x80, 13, 3⟩
def PP_STATUS_PG : Fld := ⟨0x80, 7, 1⟩
def PP_STATUS_GATE : Fld := ⟨0x80, 6, 1⟩
def PP_STATUS_SEATED : Fld := ⟨0x80, 5, 1⟩
def PP_STATUS_PRESENT : Fld := ⟨0x80, 4, 1⟩
def PP_STATUS_STATE : Fld := ⟨0x80, 0, 4⟩
def PP_MEAS : Nat := 0x84
def PP_MEAS_I : Fld := ⟨0x84, 16, 10⟩
def PP_MEAS_VOUT : Fld := ⟨0x84, 0, 9⟩
def PP_RDS : Nat := 0x88
def PP_RDS_CAPT : Fld := ⟨0x88, 16, 16⟩
def PP_RDS_RDS : Fld := ⟨0x88, 0, 16⟩
def PP_TIMER : Nat := 0x8C
def PP_TIMER_POINT : Fld := ⟨0x8C, 29, 3⟩
def PP_TIMER_ELAPSED : Fld := ⟨0x8C, 0, 20⟩
def PP_CNT : Nat := 0x90
def PP_CNT_TRIPS : Fld := ⟨0x90, 16, 16⟩
def PP_CNT_POLE_FAIL : Fld := ⟨0x90, 8, 8⟩
def PP_CNT_INSERTIONS : Fld := ⟨0x90, 0, 8⟩

/-! ### 0x050+n card link -/
def CL_CTRL : Nat := 0x40
def CL_CTRL_CLR_CNT : Fld := ⟨0x40, 8, 1⟩
def CL_CTRL_RETRAIN : Fld := ⟨0x40, 7, 1⟩
def CL_STATUS : Nat := 0x44
def CL_STATUS_HELD_REASON : Fld := ⟨0x44, 16, 8⟩
def CL_STATUS_SEL_THIS : Fld := ⟨0x44, 15, 1⟩
def CL_STATUS_TX_ACTIVE : Fld := ⟨0x44, 14, 1⟩
def CL_STATUS_TX_OUT_VALID : Fld := ⟨0x44, 13, 1⟩
def CL_STATUS_CARD_SAFE : Fld := ⟨0x44, 12, 1⟩
def CL_STATUS_CAP_RELAY : Fld := ⟨0x44, 11, 1⟩
def CL_STATUS_CAP_TWIN : Fld := ⟨0x44, 10, 1⟩
def CL_STATUS_CARD_LANE : Fld := ⟨0x44, 9, 1⟩
def CL_STATUS_ID_VALID : Fld := ⟨0x44, 8, 1⟩
def CL_STATUS_STATE : Fld := ⟨0x44, 0, 3⟩
def CL_LOOP : Nat := 0x48
def CL_LOOP_LIVE : Fld := ⟨0x48, 16, 12⟩
def CL_LOOP_LOOP : Fld := ⟨0x48, 0, 12⟩
def CL_CARD : Nat := 0x4C
def CL_CARD_TYPE : Fld := ⟨0x4C, 16, 16⟩
def CL_CARD_FW : Fld := ⟨0x4C, 0, 16⟩
def CL_SN_LO : Nat := 0x50
def CL_SN_LO_SERIAL : Fld := ⟨0x50, 0, 32⟩
def CL_SN_HI : Nat := 0x54
def CL_SN_HI_SERIAL : Fld := ⟨0x54, 0, 32⟩
def CL_EXPECT : Nat := 0x58
def CL_EXPECT_TYPE : Fld := ⟨0x58, 0, 16⟩
def CL_SAFE : Nat := 0x5C
def CL_SAFE_LLT : Fld := ⟨0x5C, 16, 4⟩
def CL_SAFE_SAFE_EN : Fld := ⟨0x5C, 8, 8⟩
def CL_SAFE_SAFE_LEVEL : Fld := ⟨0x5C, 0, 8⟩
def CL_CARD_STAT : Nat := 0x60
def CL_CARD_STAT_FITTED : Fld := ⟨0x60, 24, 8⟩
def CL_CARD_STAT_LLT : Fld := ⟨0x60, 20, 4⟩
def CL_CARD_STAT_PWR_OTHER : Fld := ⟨0x60, 19, 1⟩
def CL_CARD_STAT_PWR_THIS : Fld := ⟨0x60, 18, 1⟩
def CL_CARD_STAT_SAFE_EN : Fld := ⟨0x60, 8, 8⟩
def CL_CARD_STAT_SAFE_LEVEL : Fld := ⟨0x60, 0, 8⟩
def CL_CNT_BAD : Nat := 0x64
def CL_CNT_BAD_COUNT : Fld := ⟨0x64, 0, 32⟩
def CL_CNT_FAR : Nat := 0x68
def CL_CNT_FAR_COUNT : Fld := ⟨0x68, 0, 32⟩
def CL_CNT_LINK : Nat := 0x6C
def CL_CNT_LINK_LOSS : Fld := ⟨0x6C, 16, 16⟩
def CL_CNT_LINK_TRAIN_FAIL : Fld := ⟨0x6C, 0, 16⟩
def CL_CNT_BLOCK : Nat := 0x70
def CL_CNT_BLOCK_COUNT : Fld := ⟨0x70, 0, 32⟩
def CL_CNT_GLITCH : Nat := 0x74
def CL_CNT_GLITCH_COUNT : Fld := ⟨0x74, 0, 32⟩
def CL_EQ : Nat := 0x80
def CL_EQ_CTLE : Fld := ⟨0x80, 12, 4⟩
def CL_EQ_DEEMPH : Fld := ⟨0x80, 8, 4⟩
def CL_EQ_SWING : Fld := ⟨0x80, 0, 5⟩
def CL_LSTAT : Nat := 0x84
def CL_LSTAT_LOS : Fld := ⟨0x84, 7, 1⟩
def CL_LSTAT_INV : Fld := ⟨0x84, 6, 1⟩
def CL_LSTAT_LOCKED : Fld := ⟨0x84, 5, 1⟩
def CL_LSTAT_TERM : Fld := ⟨0x84, 4, 1⟩
def CL_LCNT : Nat := 0x88
def CL_LCNT_CV : Fld := ⟨0x88, 16, 16⟩
def CL_LCNT_LOCK_LOSS : Fld := ⟨0x88, 0, 16⟩
def CL_EYE : Nat := 0x8C
def CL_EYE_EYE_V : Fld := ⟨0x8C, 8, 8⟩
def CL_EYE_EYE_H : Fld := ⟨0x8C, 0, 8⟩

/-! ### 0x080+n engine cluster -/
def EC_CTRL : Nat := 0x40
def EC_CTRL_CLR_CNT : Fld := ⟨0x40, 8, 1⟩
def EC_CTRL_MIG_AUTO : Fld := ⟨0x40, 0, 1⟩
def EC_MAP : Nat := 0x44
def EC_MAP_POS : Fld := ⟨0x44, 0, 32⟩
def EC_MIG_CMD : Nat := 0x48
def EC_MIG_CMD_GO : Fld := ⟨0x48, 7, 1⟩
def EC_MIG_CMD_URGENT : Fld := ⟨0x48, 4, 1⟩
def EC_MIG_CMD_CHAN : Fld := ⟨0x48, 0, 3⟩
def EC_MIG_STATUS : Nat := 0x4C
def EC_MIG_STATUS_SPARE_USED : Fld := ⟨0x4C, 17, 1⟩
def EC_MIG_STATUS_SPARE_OK : Fld := ⟨0x4C, 16, 1⟩
def EC_MIG_STATUS_FROM : Fld := ⟨0x4C, 12, 4⟩
def EC_MIG_STATUS_CHAN : Fld := ⟨0x4C, 8, 3⟩
def EC_MIG_STATUS_STATE : Fld := ⟨0x4C, 0, 3⟩
def EC_MIG_CFG : Nat := 0x50
def EC_MIG_CFG_TIMEOUT : Fld := ⟨0x50, 0, 16⟩
def EC_UCODE : Nat := 0x54
def EC_UCODE_LOADED : Fld := ⟨0x54, 16, 1⟩
def EC_UCODE_VERSION : Fld := ⟨0x54, 0, 16⟩
def EC_CNT_MIG : Nat := 0x58
def EC_CNT_MIG_DONE : Fld := ⟨0x58, 16, 16⟩
def EC_CNT_MIG_TRUNC : Fld := ⟨0x58, 0, 16⟩
def EC_CNT_TXDROP : Nat := 0x5C
def EC_CNT_TXDROP_COUNT : Fld := ⟨0x5C, 0, 32⟩

/-! ### 0x100+e engine -/
def EN_MODE : Nat := 0x40
def EN_MODE_CLR_CNT : Fld := ⟨0x40, 8, 1⟩
def EN_MODE_MODE : Fld := ⟨0x40, 0, 3⟩
def EN_STATUS : Nat := 0x44
def EN_STATUS_TX_SPACE : Fld := ⟨0x44, 24, 8⟩
def EN_STATUS_CHAN : Fld := ⟨0x44, 8, 3⟩
def EN_STATUS_SERVING : Fld := ⟨0x44, 7, 1⟩
def EN_STATUS_FOLLOWING : Fld := ⟨0x44, 6, 1⟩
def EN_STATUS_TX_BUSY : Fld := ⟨0x44, 5, 1⟩
def EN_STATUS_RX_BUSY : Fld := ⟨0x44, 4, 1⟩
def EN_STATUS_LEVEL : Fld := ⟨0x44, 3, 1⟩
def EN_STATUS_MODE : Fld := ⟨0x44, 0, 3⟩
def EN_RXDST : Nat := 0x48
def EN_RXDST_SELF : Fld := ⟨0x48, 31, 1⟩
def EN_RXDST_RX_EN : Fld := ⟨0x48, 30, 1⟩
def EN_RXDST_HUB : Fld := ⟨0x48, 16, 7⟩
def EN_RXDST_STREAM : Fld := ⟨0x48, 10, 6⟩
def EN_RXDST_QUEUE : Fld := ⟨0x48, 0, 10⟩
def EN_REC : Nat := 0x4C
def EN_REC_BATCH : Fld := ⟨0x4C, 16, 8⟩
def EN_REC_FLUSH : Fld := ⟨0x4C, 0, 16⟩
def EN_CNT : Nat := 0x50
def EN_CNT_COUNT : Fld := ⟨0x50, 0, 32⟩
def EN_DI_COUNT : Nat := 0xA0
def EN_DI_COUNT_COUNT : Fld := ⟨0xA0, 0, 32⟩
def EN_DI_PEEK : Nat := 0x8A0

/-! ### engine page, mode registers in ASYNC -/
def AS_CFG : Nat := 0x80
def AS_CFG_INV : Fld := ⟨0x80, 31, 1⟩
def AS_CFG_DUPLEX : Fld := ⟨0x80, 30, 1⟩
def AS_CFG_FRAMING : Fld := ⟨0x80, 28, 2⟩
def AS_CFG_STOP : Fld := ⟨0x80, 26, 2⟩
def AS_CFG_PARITY : Fld := ⟨0x80, 24, 2⟩
def AS_CFG_DATA : Fld := ⟨0x80, 20, 4⟩
def AS_CFG_BATCH : Fld := ⟨0x80, 8, 8⟩
def AS_CFG_GAP : Fld := ⟨0x80, 0, 8⟩
def AS_BIT : Nat := 0x84
def AS_BIT_BIT_TIME : Fld := ⟨0x84, 0, 32⟩
def AS_DE : Nat := 0x88
def AS_DE_DE_LAG : Fld := ⟨0x88, 16, 16⟩
def AS_DE_DE_LEAD : Fld := ⟨0x88, 0, 16⟩
def AS_ADDR : Nat := 0x8C
def AS_ADDR_FILT : Fld := ⟨0x8C, 16, 1⟩
def AS_ADDR_MASK : Fld := ⟨0x8C, 8, 8⟩
def AS_ADDR_ADDR : Fld := ⟨0x8C, 0, 8⟩

/-! ### engine page, mode registers in SYNC -/
def SY_CFG : Nat := 0x80
def SY_CFG_PAIR : Fld := ⟨0x80, 30, 2⟩
def SY_CFG_CPOL : Fld := ⟨0x80, 29, 1⟩
def SY_CFG_CPHA : Fld := ⟨0x80, 28, 1⟩
def SY_CFG_SEL_POL : Fld := ⟨0x80, 27, 1⟩
def SY_CFG_SIGN : Fld := ⟨0x80, 26, 1⟩
def SY_CFG_TRIG : Fld := ⟨0x80, 24, 2⟩
def SY_CFG_WIDTH : Fld := ⟨0x80, 16, 5⟩
def SY_CFG_CLK_PERIOD : Fld := ⟨0x80, 0, 16⟩
def SY_PERIOD : Nat := 0x84
def SY_PERIOD_PERIOD : Fld := ⟨0x84, 0, 32⟩
def SY_SEL : Nat := 0x88
def SY_SEL_SEL_LEAD : Fld := ⟨0x88, 16, 16⟩
def SY_SEL_IDLE : Fld := ⟨0x88, 0, 16⟩
def SY_OFFSET : Nat := 0x8C
def SY_OFFSET_OFFSET : Fld := ⟨0x8C, 0, 32⟩
def SY_DLY : Nat := 0x90
def SY_DLY_SAMPLE_DLY : Fld := ⟨0x90, 0, 12⟩
def SY_DOUT : Nat := 0x94
def SY_DOUT_DOUT : Fld := ⟨0x94, 0, 24⟩
def SY_CMD : Nat := 0x98
def SY_CMD_GO : Fld := ⟨0x98, 0, 1⟩
def SY_LAST : Nat := 0x9C
def SY_LAST_OK : Fld := ⟨0x9C, 31, 1⟩
def SY_LAST_SAMPLE : Fld := ⟨0x9C, 0, 24⟩

/-! ### engine page, mode registers in DISC -/
def DI_CFG : Nat := 0x80
def DI_CFG_INV : Fld := ⟨0x80, 31, 1⟩
def DI_CFG_EDGE_SEL : Fld := ⟨0x80, 29, 2⟩
def DI_CFG_REC_EN : Fld := ⟨0x80, 28, 1⟩
def DI_CFG_OUTMODE : Fld := ⟨0x80, 26, 2⟩
def DI_CFG_OUTSRC : Fld := ⟨0x80, 25, 1⟩
def DI_CFG_UNSURE : Fld := ⟨0x80, 24, 1⟩
def DI_CFG_DEB : Fld := ⟨0x80, 0, 20⟩
def DI_OUT : Nat := 0x84
def DI_OUT_EN : Fld := ⟨0x84, 1, 1⟩
def DI_OUT_LEVEL : Fld := ⟨0x84, 0, 1⟩
def DI_PWM_PERIOD : Nat := 0x88
def DI_PWM_PERIOD_PERIOD : Fld := ⟨0x88, 0, 32⟩
def DI_PWM_HIGH : Nat := 0x8C
def DI_PWM_HIGH_HIGH : Fld := ⟨0x8C, 0, 32⟩
def DI_PWM_PHASE : Nat := 0x90
def DI_PWM_PHASE_PHASE : Fld := ⟨0x90, 0, 32⟩
def DI_WIDTH : Nat := 0x94
def DI_WIDTH_WIDTH : Fld := ⟨0x94, 0, 32⟩
def DI_PERIOD : Nat := 0x98
def DI_PERIOD_PERIOD : Fld := ⟨0x98, 0, 32⟩

/-! ### engine page, mode registers in PBUS -/
def PB_CFG : Nat := 0x80
def PB_CFG_INV : Fld := ⟨0x80, 31, 1⟩
def PB_CFG_FD_EN : Fld := ⟨0x80, 30, 1⟩
def PB_CFG_BRS_EN : Fld := ⟨0x80, 29, 1⟩
def PB_CFG_RESTRICTED : Fld := ⟨0x80, 28, 1⟩
def PB_CFG_UNMATCHED : Fld := ⟨0x80, 27, 1⟩
def PB_CFG_AUTO_RECOVER : Fld := ⟨0x80, 26, 1⟩
def PB_CFG_TT_EN : Fld := ⟨0x80, 25, 1⟩
def PB_CFG_TDC_EN : Fld := ⟨0x80, 24, 1⟩
def PB_CFG_TXDONE_EN : Fld := ⟨0x80, 23, 1⟩
def PB_CFG_RETX : Fld := ⟨0x80, 16, 4⟩
def PB_CFG_TDCO : Fld := ⟨0x80, 8, 8⟩
def PB_CFG_TDCV : Fld := ⟨0x80, 0, 8⟩
def PB_NBT : Nat := 0x84
def PB_NBT_NTQ : Fld := ⟨0x84, 22, 10⟩
def PB_NBT_NSEG1 : Fld := ⟨0x84, 14, 8⟩
def PB_NBT_NSEG2 : Fld := ⟨0x84, 7, 7⟩
def PB_NBT_NSJW : Fld := ⟨0x84, 0, 7⟩
def PB_DBT : Nat := 0x88
def PB_DBT_DTQ : Fld := ⟨0x88, 24, 8⟩
def PB_DBT_DSEG1 : Fld := ⟨0x88, 19, 5⟩
def PB_DBT_DSEG2 : Fld := ⟨0x88, 15, 4⟩
def PB_DBT_DSJW : Fld := ⟨0x88, 11, 4⟩
def PB_ERR : Nat := 0x8C
def PB_ERR_STATE : Fld := ⟨0x8C, 24, 3⟩
def PB_ERR_REC : Fld := ⟨0x8C, 16, 8⟩
def PB_ERR_TEC : Fld := ⟨0x8C, 8, 8⟩
def PB_ERR_LEC : Fld := ⟨0x8C, 0, 3⟩
def PB_CMD : Nat := 0x90
def PB_CMD_FLUSH : Fld := ⟨0x90, 2, 1⟩
def PB_CMD_ABORT : Fld := ⟨0x90, 1, 1⟩
def PB_CMD_RECOVER : Fld := ⟨0x90, 0, 1⟩
def PB_TT_STAT : Nat := 0x94
def PB_TT_STAT_ROW : Fld := ⟨0x94, 28, 4⟩
def PB_TT_STAT_COL : Fld := ⟨0x94, 22, 6⟩
def PB_TT_STAT_ROLE : Fld := ⟨0x94, 20, 2⟩
def PB_TT_STAT_SYNCED : Fld := ⟨0x94, 19, 1⟩
def PB_TT_STAT_MISSED : Fld := ⟨0x94, 8, 8⟩
def PB_TT_OFFSET : Nat := 0x98
def PB_TT_OFFSET_OFFSET : Fld := ⟨0x98, 0, 32⟩
def PB_CNT_ARB : Nat := 0x9C
def PB_CNT_ARB_COUNT : Fld := ⟨0x9C, 0, 32⟩
def PB_SLOT_W0 : Nat := 0x100
def PB_SLOT_W0_IDW : Fld := ⟨0x100, 0, 32⟩
def PB_SLOT_W1 : Nat := 0x104
def PB_SLOT_W1_VALID : Fld := ⟨0x104, 31, 1⟩
def PB_SLOT_W1_BRS : Fld := ⟨0x104, 4, 1⟩
def PB_SLOT_W1_DLC : Fld := ⟨0x104, 0, 4⟩
def PB_SLOT_DATA : Nat := 0x108
def PB_SLOT_DATA_DATA : Fld := ⟨0x108, 0, 32⟩
def PB_CNT_RX : Nat := 0x340
def PB_CNT_RX_COUNT : Fld := ⟨0x340, 0, 32⟩
def PB_CNT_TX : Nat := 0x344
def PB_CNT_TX_COUNT : Fld := ⟨0x344, 0, 32⟩

/-! ### 0x240+m schedule matrix -/
def SM_OWNER : Nat := 0x40
def SM_OWNER_VALID : Fld := ⟨0x40, 31, 1⟩
def SM_OWNER_PITCH : Fld := ⟨0x40, 8, 5⟩
def SM_OWNER_CHAN : Fld := ⟨0x40, 0, 3⟩
def SM_CFG : Nat := 0x44
def SM_CFG_ROLE : Fld := ⟨0x44, 30, 2⟩
def SM_CFG_COLS : Fld := ⟨0x44, 16, 7⟩
def SM_CFG_ROWS : Fld := ⟨0x44, 8, 5⟩
def SM_CYCLE : Nat := 0x48
def SM_CYCLE_CYCLE : Fld := ⟨0x48, 0, 32⟩
def SM_PHASE : Nat := 0x4C
def SM_PHASE_PHASE : Fld := ⟨0x4C, 0, 32⟩
def SM_REF : Nat := 0x50
def SM_REF_REF_WAIT : Fld := ⟨0x50, 16, 16⟩
def SM_REF_REF_ID : Fld := ⟨0x50, 0, 11⟩
def SM_COL : Nat := 0x100
def SM_COL_START : Fld := ⟨0x100, 0, 32⟩
def SM_CELL : Nat := 0x800
def SM_CELL_TYPE_HI : Fld := ⟨0x800, 30, 2⟩
def SM_CELL_SLOT_HI : Fld := ⟨0x800, 16, 3⟩
def SM_CELL_TYPE_LO : Fld := ⟨0x800, 14, 2⟩
def SM_CELL_SLOT_LO : Fld := ⟨0x800, 0, 3⟩

/-! ### 0x200+k routing table -/
def RT_CTRL : Nat := 0x40
def RT_CTRL_EN : Fld := ⟨0x40, 0, 1⟩
def RT_CNT_MISS : Nat := 0x44
def RT_CNT_MISS_COUNT : Fld := ⟨0x44, 0, 32⟩
def RT_CNT_DROP : Nat := 0x48
def RT_CNT_DROP_COUNT : Fld := ⟨0x48, 0, 32⟩
def RT_MATCH : Nat := 0x100
def RT_MATCH_VALID : Fld := ⟨0x100, 31, 1⟩
def RT_MATCH_IDE : Fld := ⟨0x100, 30, 1⟩
def RT_MATCH_ID : Fld := ⟨0x100, 0, 29⟩
def RT_MASK : Nat := 0x104
def RT_MASK_MASK : Fld := ⟨0x104, 0, 29⟩
def RT_SRC : Nat := 0x108
def RT_SRC_ANY : Fld := ⟨0x108, 31, 1⟩
def RT_SRC_PITCH : Fld := ⟨0x108, 8, 5⟩
def RT_SRC_CHAN : Fld := ⟨0x108, 0, 3⟩
def RT_DEST : Nat := 0x10C
def RT_DEST_KIND : Fld := ⟨0x10C, 30, 2⟩
def RT_DEST_CONT : Fld := ⟨0x10C, 29, 1⟩
def RT_DEST_CLASS_E : Fld := ⟨0x10C, 28, 1⟩
def RT_DEST_SELF : Fld := ⟨0x10C, 27, 1⟩
def RT_DEST_HUB : Fld := ⟨0x10C, 20, 7⟩
def RT_DEST_PITCH : Fld := ⟨0x10C, 15, 5⟩
def RT_DEST_CHAN : Fld := ⟨0x10C, 12, 3⟩
def RT_DEST_QUEUE : Fld := ⟨0x10C, 0, 10⟩
def RT_XLATE : Nat := 0x110
def RT_XLATE_EN : Fld := ⟨0x110, 31, 1⟩
def RT_XLATE_IDE : Fld := ⟨0x110, 30, 1⟩
def RT_XLATE_NEW_ID : Fld := ⟨0x110, 0, 29⟩
def RT_HITS : Nat := 0x114
def RT_HITS_COUNT : Fld := ⟨0x114, 0, 32⟩

/-! ### 0x280 memories -/
def MEM_CTRL : Nat := 0x40
def MEM_CTRL_CLR_CNT : Fld := ⟨0x40, 8, 1⟩
def MEM_CTRL_REPAIR_AUTO : Fld := ⟨0x40, 1, 1⟩
def MEM_BANK_CMD : Nat := 0x44
def MEM_BANK_CMD_GO : Fld := ⟨0x44, 31, 1⟩
def MEM_BANK_CMD_BANK : Fld := ⟨0x44, 8, 3⟩
def MEM_BANK_CMD_ARG : Fld := ⟨0x44, 4, 4⟩
def MEM_BANK_CMD_OP : Fld := ⟨0x44, 0, 3⟩
def MEM_BANK_CMD_STATUS : Nat := 0x48
def MEM_BANK_CMD_STATUS_BUSY : Fld := ⟨0x48, 31, 1⟩
def MEM_BANK_CMD_STATUS_BANK : Fld := ⟨0x48, 8, 3⟩
def MEM_BANK_CMD_STATUS_RESULT : Fld := ⟨0x48, 0, 3⟩
def MEM_ECC_CFG : Nat := 0x4C
def MEM_ECC_CFG_ROW_THRESH : Fld := ⟨0x4C, 0, 8⟩
def MEM_UE_LAST : Nat := 0x50
def MEM_UE_LAST_MEMORY : Fld := ⟨0x50, 30, 2⟩
def MEM_UE_LAST_BANK : Fld := ⟨0x50, 27, 3⟩
def MEM_UE_LAST_WORD : Fld := ⟨0x50, 0, 14⟩
def MEM_MARCH_CMD : Nat := 0x54
def MEM_MARCH_CMD_GO : Fld := ⟨0x54, 31, 1⟩
def MEM_MARCH_CMD_ABORT : Fld := ⟨0x54, 30, 1⟩
def MEM_MARCH_CMD_TARGET : Fld := ⟨0x54, 4, 2⟩
def MEM_MARCH_CMD_DESTRUCT : Fld := ⟨0x54, 3, 1⟩
def MEM_MARCH_CMD_BANK : Fld := ⟨0x54, 0, 3⟩
def MEM_MARCH_STATUS : Nat := 0x58
def MEM_MARCH_STATUS_STATE : Fld := ⟨0x58, 29, 3⟩
def MEM_MARCH_STATUS_FAILS : Fld := ⟨0x58, 0, 16⟩
def MEM_MARCH_FAIL : Nat := 0x5C
def MEM_MARCH_FAIL_MEMORY : Fld := ⟨0x5C, 30, 2⟩
def MEM_MARCH_FAIL_BANK : Fld := ⟨0x5C, 25, 5⟩
def MEM_MARCH_FAIL_ROW : Fld := ⟨0x5C, 0, 14⟩
def MEM_HIST_CFG : Nat := 0x60
def MEM_HIST_CFG_EN : Fld := ⟨0x60, 31, 1⟩
def MEM_HIST_CFG_BANKS : Fld := ⟨0x60, 4, 2⟩
def MEM_HIST_CFG_FIRST : Fld := ⟨0x60, 0, 3⟩
def MEM_HIST_STAT : Nat := 0x64
def MEM_HIST_STAT_MISSED : Fld := ⟨0x64, 0, 16⟩
def MEM_TBL : Nat := 0x68
def MEM_TBL_COPY : Fld := ⟨0x68, 30, 2⟩
def MEM_TBL_ENTRIES : Fld := ⟨0x68, 0, 16⟩
def MEM_CNT_FOREIGN : Nat := 0x6C
def MEM_CNT_FOREIGN_COUNT : Fld := ⟨0x6C, 0, 32⟩
def MEM_CAN_CNT : Nat := 0x70
def MEM_CAN_CNT_CE : Fld := ⟨0x70, 16, 16⟩
def MEM_CAN_CNT_UE : Fld := ⟨0x70, 0, 16⟩
def MEM_BANK_STAT : Nat := 0x80
def MEM_BANK_STAT_SPARES : Fld := ⟨0x80, 8, 3⟩
def MEM_BANK_STAT_POWER : Fld := ⟨0x80, 6, 2⟩
def MEM_BANK_STAT_DRAINING : Fld := ⟨0x80, 5, 1⟩
def MEM_BANK_STAT_TESTING : Fld := ⟨0x80, 4, 1⟩
def MEM_BANK_STAT_OWNER : Fld := ⟨0x80, 0, 4⟩
def MEM_BANK_CFG : Nat := 0x84
def MEM_BANK_CFG_RD_ALL : Fld := ⟨0x84, 0, 1⟩
def MEM_BANK_CNT : Nat := 0x88
def MEM_BANK_CNT_CE : Fld := ⟨0x88, 16, 16⟩
def MEM_BANK_CNT_UE : Fld := ⟨0x88, 0, 16⟩

/-! ### 0x004 fault unit -/
def FT_CTRL : Nat := 0x40
def FT_CTRL_CLR_CNT : Fld := ⟨0x40, 8, 1⟩
def FT_CTRL_AUTO_HOLD : Fld := ⟨0x40, 1, 1⟩
def FT_CTRL_ERR_OE : Fld := ⟨0x40, 0, 1⟩
def FT_ERR : Nat := 0x44
def FT_ERR_PIN : Fld := ⟨0x44, 2, 1⟩
def FT_ERR_PULSE : Fld := ⟨0x44, 1, 1⟩
def FT_ERR_HOLD : Fld := ⟨0x44, 0, 1⟩
def FT_LAST : Nat := 0x48
def FT_LAST_SOURCE : Fld := ⟨0x48, 24, 8⟩
def FT_LAST_DETAIL : Fld := ⟨0x48, 16, 8⟩
def FT_LAST_SEVERE : Fld := ⟨0x48, 15, 1⟩
def FT_LAST_REACTION : Fld := ⟨0x48, 12, 3⟩
def FT_LAST_TIME : Nat := 0x4C
def FT_LAST_TIME_NS : Fld := ⟨0x4C, 0, 32⟩
def FT_RELEASE : Nat := 0x50
def FT_RELEASE_GO : Fld := ⟨0x50, 31, 1⟩
def FT_RELEASE_SOURCE : Fld := ⟨0x50, 0, 8⟩
def FT_THERM : Nat := 0x54
def FT_THERM_TJ : Fld := ⟨0x54, 8, 8⟩
def FT_THERM_WARN : Fld := ⟨0x54, 0, 8⟩
def FT_CNT : Nat := 0x58
def FT_CNT_MINOR : Fld := ⟨0x58, 16, 16⟩
def FT_CNT_SEVERE : Fld := ⟨0x58, 0, 16⟩
def FT_STICKY : Nat := 0x80
def FT_STICKY_STICKY : Fld := ⟨0x80, 0, 32⟩
def FT_ISO : Nat := 0xA0
def FT_ISO_ISO : Fld := ⟨0xA0, 0, 32⟩
def FT_SRC_CFG : Nat := 0x400
def FT_SRC_CFG_N : Fld := ⟨0x400, 24, 8⟩
def FT_SRC_CFG_MINOR : Fld := ⟨0x400, 20, 3⟩
def FT_SRC_CFG_SEVERE : Fld := ⟨0x400, 16, 3⟩
def FT_SRC_CFG_W : Fld := ⟨0x400, 0, 16⟩
def FT_SRC_CNT : Nat := 0xC00
def FT_SRC_CNT_TOTAL : Fld := ⟨0xC00, 16, 16⟩
def FT_SRC_CNT_WIN : Fld := ⟨0xC00, 8, 8⟩

/-! ### 0x005 wear and spares -/
def WR_CMD : Nat := 0x40
def WR_CMD_CLR_CNT : Fld := ⟨0x40, 3, 1⟩
def WR_CMD_WEAR_CLR : Fld := ⟨0x40, 2, 1⟩
def WR_CMD_STORE : Fld := ⟨0x40, 1, 1⟩
def WR_CMD_CAPTURE : Fld := ⟨0x40, 0, 1⟩
def WR_SPARE_EN : Nat := 0x44
def WR_SPARE_EN_KIND : Fld := ⟨0x44, 0, 6⟩
def WR_RO_CFG : Nat := 0x48
def WR_RO_CFG_PERIOD : Fld := ⟨0x48, 8, 16⟩
def WR_RO_CFG_PCT : Fld := ⟨0x48, 0, 8⟩
def WR_EYE_CFG : Nat := 0x4C
def WR_EYE_CFG_COUNT : Fld := ⟨0x4C, 16, 8⟩
def WR_EYE_CFG_V_MIN : Fld := ⟨0x4C, 8, 8⟩
def WR_EYE_CFG_H_MIN : Fld := ⟨0x4C, 0, 8⟩
def WR_WW_CFG : Nat := 0x50
def WR_WW_CFG_EN : Fld := ⟨0x50, 31, 1⟩
def WR_WW_CFG_PERIOD : Fld := ⟨0x50, 0, 16⟩
def WR_PLL_CFG : Nat := 0x54
def WR_PLL_CFG_REF_PPM : Fld := ⟨0x54, 16, 10⟩
def WR_PLL_CFG_MIN : Fld := ⟨0x54, 0, 6⟩
def WR_REF_STATUS : Nat := 0x58
def WR_REF_STATUS_DRIFT : Fld := ⟨0x58, 3, 1⟩
def WR_REF_STATUS_B_OK : Fld := ⟨0x58, 2, 1⟩
def WR_REF_STATUS_A_OK : Fld := ⟨0x58, 1, 1⟩
def WR_REF_STATUS_IN_USE : Fld := ⟨0x58, 0, 1⟩
def WR_REF_CMD : Nat := 0x5C
def WR_REF_CMD_GO : Fld := ⟨0x5C, 31, 1⟩
def WR_REF_CMD_SEL : Fld := ⟨0x5C, 0, 1⟩
def WR_PLL_STATUS : Nat := 0x60
def WR_PLL_STATUS_SPARE_BAD : Fld := ⟨0x60, 16, 13⟩
def WR_PLL_STATUS_ON_SPARE : Fld := ⟨0x60, 0, 13⟩
def WR_PLL_CMD : Nat := 0x64
def WR_PLL_CMD_GO : Fld := ⟨0x64, 31, 1⟩
def WR_PLL_CMD_PLL : Fld := ⟨0x64, 0, 4⟩
def WR_BL_STATUS : Nat := 0x68
def WR_BL_STATUS_STATE : Fld := ⟨0x68, 29, 3⟩
def WR_BL_STATUS_COPY : Fld := ⟨0x68, 27, 2⟩
def WR_BL_STATUS_TJ : Fld := ⟨0x68, 16, 8⟩
def WR_BL_STATUS_COUNT : Fld := ⟨0x68, 0, 16⟩
def WR_LAST : Nat := 0x6C
def WR_LAST_KIND : Fld := ⟨0x6C, 28, 4⟩
def WR_LAST_UNIT : Fld := ⟨0x6C, 16, 12⟩
def WR_LAST_ACTION : Fld := ⟨0x6C, 0, 3⟩
def WR_CNT : Nat := 0x70
def WR_CNT_WEAR : Fld := ⟨0x70, 16, 16⟩
def WR_CNT_SPARED : Fld := ⟨0x70, 0, 16⟩

/-! ### 0x290 update -/
def UP_CTRL : Nat := 0x40
def UP_CTRL_CLR_CNT : Fld := ⟨0x40, 1, 1⟩
def UP_CTRL_CONFIRM : Fld := ⟨0x40, 0, 1⟩
def UP_CMD : Nat := 0x44
def UP_CMD_GO : Fld := ⟨0x44, 31, 1⟩
def UP_CMD_OP : Fld := ⟨0x44, 0, 4⟩
def UP_ADDR : Nat := 0x48
def UP_ADDR_ADDR : Fld := ⟨0x48, 0, 22⟩
def UP_SEQ : Nat := 0x4C
def UP_SEQ_MAN_SEQ : Fld := ⟨0x4C, 0, 32⟩
def UP_EPOCH : Nat := 0x50
def UP_EPOCH_EPOCH : Fld := ⟨0x50, 0, 32⟩
def UP_CFG : Nat := 0x54
def UP_CFG_TRIAL : Fld := ⟨0x54, 16, 16⟩
def UP_CFG_CARD_WAIT : Fld := ⟨0x54, 0, 16⟩
def UP_STATUS : Nat := 0x58
def UP_STATUS_STATE : Fld := ⟨0x58, 28, 4⟩
def UP_STATUS_BUSY : Fld := ⟨0x58, 27, 1⟩
def UP_STATUS_ACTIVE_SLOT : Fld := ⟨0x58, 26, 1⟩
def UP_STATUS_REVERTED : Fld := ⟨0x58, 25, 1⟩
def UP_STATUS_TWIN_MISMATCH : Fld := ⟨0x58, 24, 1⟩
def UP_STATUS_TWIN_STATE : Fld := ⟨0x58, 20, 4⟩
def UP_STATUS_PIECES : Fld := ⟨0x58, 0, 9⟩
def UP_FAIL : Nat := 0x5C
def UP_FAIL_REASON : Fld := ⟨0x5C, 24, 8⟩
def UP_FAIL_ENTRY : Fld := ⟨0x5C, 16, 8⟩
def UP_FAIL_PIECE : Fld := ⟨0x5C, 0, 9⟩
def UP_VER : Nat := 0x60
def UP_VER_VERSION : Fld := ⟨0x60, 0, 32⟩
def UP_FLOOR : Nat := 0x70
def UP_FLOOR_CARD : Fld := ⟨0x70, 24, 8⟩
def UP_FLOOR_SUPV : Fld := ⟨0x70, 16, 8⟩
def UP_FLOOR_UCODE : Fld := ⟨0x70, 8, 8⟩
def UP_FLOOR_LANTERN : Fld := ⟨0x70, 0, 8⟩
def UP_CNT : Nat := 0x74
def UP_CNT_REVERTS : Fld := ⟨0x74, 16, 16⟩
def UP_CNT_SKIPPED : Fld := ⟨0x74, 8, 8⟩
def UP_CNT_STRIKES : Fld := ⟨0x74, 0, 8⟩
def UP_MAP : Nat := 0x80
def UP_MAP_MAP : Fld := ⟨0x80, 0, 32⟩
def UP_WBUF : Nat := 0x400
def UP_WBUF_DATA : Fld := ⟨0x400, 0, 32⟩

/-! ### Block events: bit numbers of EVT_STATUS (R40 and the page chapters) -/
def EV_LOCKED_WRITE : Nat := 0
def EV_COMMIT_DONE : Nat := 1
def EV_COMMIT_REFUSED : Nat := 2
def EV_SHADOW_BUSY : Nat := 3
def EV_STATE_CHANGE : Nat := 4
def EV_GS_OPT_COMMIT_REFUSED : Nat := 8
def EV_GS_OPT_FALLBACK : Nat := 9
def EV_GS_REMOTE_AUTH_FAIL : Nat := 10
def EV_GS_SOFT_KEY_BAD : Nat := 11
def EV_GS_FUSE_LEVEL_INVALID : Nat := 12
def EV_LN_LANE_FAULT : Nat := 8
def EV_LN_SPARE_DONE : Nat := 9
def EV_LN_SPARE_REFUSED : Nat := 10
def EV_LN_SPARE_LOST : Nat := 11
def EV_LN_LINK_UP : Nat := 12
def EV_LN_LINK_DOWN : Nat := 13
def EV_LN_CAP_MISMATCH : Nat := 14
def EV_LN_ELASTIC_ERR : Nat := 15
def EV_RP_WRAP_START : Nat := 16
def EV_RP_WRAP_END : Nat := 17
def EV_RP_GUY_LOST : Nat := 18
def EV_RP_NEIGHBOUR_CHANGED : Nat := 19
def EV_RP_CREDIT_OVERRUN : Nat := 20
def EV_RP_FRAME_ERR : Nat := 21
def EV_RP_GRACE_FLUSH : Nat := 22
def EV_RP_PD_VALID : Nat := 23
def EV_RP_PD_FAIL : Nat := 24
def EV_RC_TOPO_CHANGE : Nat := 8
def EV_RC_HOLD_EXPIRED : Nat := 9
def EV_RC_NO_DEST : Nat := 10
def EV_RC_RESET_GROUP_DROP : Nat := 11
def EV_CORE_MULTICAST_PARTIAL : Nat := 8
def EV_CORE_POOL_EXHAUSTED : Nat := 9
def EV_CORE_ECC_CE : Nat := 10
def EV_CORE_ECC_UE : Nat := 11
def EV_CORE_LINK_UE : Nat := 12
def EV_CORE_SPARE_DONE : Nat := 13
def EV_CORE_SPARE_REFUSED : Nat := 14
def EV_Q_FLUSH_DONE : Nat := 8
def EV_Q_FLUSH_IGNORED : Nat := 9
def EV_Q_GRACE_FLUSH : Nat := 10
def EV_Q_MB_UNDERRUN : Nat := 11
def EV_Q_MB_OVERRUN : Nat := 12
def EV_Q_MB_ARRIVE : Nat := 13
def EV_Q_QRP_EMPTY : Nat := 14
def EV_CL_LINK_UP : Nat := 8
def EV_CL_LINK_DOWN : Nat := 9
def EV_CL_CARD_NEW : Nat := 10
def EV_CL_HELD : Nat := 11
def EV_CL_FRAME_ERR : Nat := 12
def EV_CL_SELECT_CHANGE : Nat := 13
def EV_CL_SAFE_ENTERED : Nat := 14
def EV_CL_LOOP_DRIFT : Nat := 15
def EV_CL_SAFE_MISMATCH : Nat := 16
def EV_EC_MIG_DONE : Nat := 8
def EV_EC_MIG_REFUSED : Nat := 9
def EV_EC_MIG_TIMEOUT : Nat := 10
def EV_EC_UCODE_BAD : Nat := 11
def EV_EC_CARD_RESTART : Nat := 12
def EV_EC_TX_DROP : Nat := 13
def EV_EN_REC_LOST : Nat := 8
def EV_EN_RX_ERR : Nat := 9
def EV_EN_TX_LOW : Nat := 10
def EV_EN_SCHED_LATE : Nat := 11
def EV_EN_BUS_OFF : Nat := 12
def EV_EN_ERR_PASSIVE : Nat := 13
def EV_EN_TURN_FAIL : Nat := 14
def EV_EN_TT_LOST : Nat := 15
def EV_TM_A_LOCKED : Nat := 8
def EV_TM_A_HOLDOVER : Nat := 9
def EV_TM_A_STEP : Nat := 10
def EV_TM_B_LOCKED : Nat := 11
def EV_TM_B_HOLDOVER : Nat := 12
def EV_TM_B_STEP : Nat := 13
def EV_TM_ST_SWITCH : Nat := 14
def EV_TM_SLEW_DONE : Nat := 15
def EV_TM_SAMPLE_REJECT : Nat := 16
def EV_TM_JUMP_REFUSED : Nat := 17
def EV_TM_BACKUP_MASTER : Nat := 18
def EV_SC_EPOCH : Nat := 8
def EV_SC_LATE_OUT : Nat := 9
def EV_SC_GAP : Nat := 10
def EV_SC_SKEW : Nat := 11
def EV_SC_CANOPY_PACK_PARTIAL : Nat := 12
def EV_SC_BAD_FRAME : Nat := 13
def EV_SC_EARLY : Nat := 14
def EV_BR_LATE_WRITE : Nat := 8
def EV_BR_LOG_OVERFLOW : Nat := 9
def EV_BR_FENCE_FAIL : Nat := 10
def EV_BR_TIMEOUT : Nat := 11
def EV_BR_SLOT_EXPIRED : Nat := 12
def EV_BR_TAKE_LOST : Nat := 13
def EV_BR_LATE_CPL : Nat := 14
def EV_BR_TXF_REFUSED : Nat := 15
def EV_TW_ROLE_CHANGE : Nat := 16
def EV_TW_SWAP_DONE : Nat := 17
def EV_TW_SWAP_REFUSED : Nat := 18
def EV_TW_MIRROR_LAG : Nat := 19
def EV_TW_RESYNC : Nat := 20
def EV_TW_TWIN_LOST : Nat := 21
def EV_TW_SPLIT_BRAIN : Nat := 22
def EV_TW_CLAIM_UNREADY : Nat := 23
def EV_TW_STBY_WRITE : Nat := 24
def EV_TW_RELEASE_REFUSED : Nat := 25
def EV_PP_PRESENT_CHG : Nat := 8
def EV_PP_PG_UP : Nat := 9
def EV_PP_PG_DOWN : Nat := 10
def EV_PP_TRIP : Nat := 11
def EV_PP_LATCHED : Nat := 12
def EV_PP_POLE_SHORT : Nat := 13
def EV_PP_POLE_OPEN : Nat := 14
def EV_PP_RDS_WEAR : Nat := 15
def EV_PP_EXTRACT : Nat := 16
def EV_PP_BUS_WIN : Nat := 17
def EV_PP_PIN_ERR : Nat := 18
def EV_FD_CHANGEOVER : Nat := 8
def EV_FD_FEED_LOST : Nat := 9
def EV_FD_NO_FEED : Nat := 10
def EV_FD_FEED_OV : Nat := 11
def EV_FD_HU_LOW : Nat := 12
def EV_FD_DISTURB : Nat := 13
def EV_MEM_HANDOVER_DONE : Nat := 8
def EV_MEM_CMD_REFUSED : Nat := 9
def EV_MEM_ECC_CE : Nat := 10
def EV_MEM_ECC_UE : Nat := 11
def EV_MEM_FOREIGN : Nat := 12
def EV_MEM_MARCH_DONE : Nat := 13
def EV_MEM_MARCH_FAIL : Nat := 14
def EV_MEM_REPAIR_DONE : Nat := 15
def EV_MEM_REPAIR_FULL : Nat := 16
def EV_MEM_TABLE_BAD : Nat := 17
def EV_MEM_HIST_MISSED : Nat := 18
def EV_FT_MINOR : Nat := 8
def EV_FT_SEVERE : Nat := 9
def EV_FT_THERMAL_WARN : Nat := 10
def EV_FT_SUPPLY_WARN : Nat := 11
def EV_FT_SUPV_LINK_DOWN : Nat := 12
def EV_FT_SUPV_LINK_ERR : Nat := 13
def EV_WR_WEAR : Nat := 8
def EV_WR_REF_SWITCH : Nat := 9
def EV_WR_PLL_SWITCH : Nat := 10
def EV_WR_REF_A_FAIL : Nat := 11
def EV_WR_REF_B_FAIL : Nat := 12
def EV_WR_PLL_BOTH_LOST : Nat := 13
def EV_WR_SPARE_EXHAUSTED : Nat := 14
def EV_WR_BASELINE_BAD : Nat := 15
def EV_WR_BL_DONE : Nat := 16
def EV_UP_UPD_VERIFY_FAIL : Nat := 8
def EV_UP_UPD_REVERT : Nat := 9
def EV_UP_UPD_ROLLBACK_REFUSED : Nat := 10
def EV_UP_UPD_MRAM_FAIL : Nat := 11
def EV_UP_VERIFIED : Nat := 12
def EV_UP_STRIKE_DONE : Nat := 13
def EV_UP_COMMITTED : Nat := 14
def EV_UP_FLOOR_FAIL : Nat := 15
def EV_UP_CMD_REFUSED : Nat := 16

/-- The kinds of page of R48. -/
inductive Kind where
  | gs | opt | clk | rp | rc | core | q | tm | sc | br | hp | tw | fd | pp | cl | ec | en | sm | rt | mem | ft | wr | up
deriving DecidableEq, Repr

/-- The block-event bits [31:8] each kind of page defines. -/
def Kind.evtMask : Kind → Nat
  | .gs => 0x1F00
  | .opt => 0
  | .clk => 0
  | .rp => 0x1FFFF00
  | .rc => 0xF00
  | .core => 0x7F00
  | .q => 0x7F00
  | .tm => 0x7FF00
  | .sc => 0x7F00
  | .br => 0xFF00
  | .hp => 0
  | .tw => 0x3FFFF00
  | .fd => 0x3F00
  | .pp => 0x7FF00
  | .cl => 0x1FF00
  | .ec => 0x3F00
  | .en => 0xFF00
  | .sm => 0
  | .rt => 0
  | .mem => 0x7FF00
  | .ft => 0x3F00
  | .wr => 0x1FF00
  | .up => 0x1FF00

/-- Registers of 0x000 groundsheet: offset, words, stride, count, reset, then the RW, RWS, RWL, W1C, W1S and WO bits. -/
def rows_gs : List Row := [
  ⟨0x40, 1, 4, 1, 1, 0, 0, 0, 0, 0, 0⟩, -- GS_LAST_CAUSE
  ⟨0x44, 1, 4, 1, 0, 0, 0, 0, 0, 0, 0⟩, -- GS_LAST_STAMP_LO
  ⟨0x48, 1, 4, 1, 0, 0, 0, 0, 0, 0, 0⟩, -- GS_LAST_STAMP_HI
  ⟨0x4C, 1, 4, 1, 0, 0, 0, 0, 0, 0, 0⟩, -- GS_AON_LO
  ⟨0x50, 1, 4, 1, 0, 0, 0, 0, 0, 0, 0⟩, -- GS_AON_HI
  ⟨0x54, 1, 4, 1, 0, 0, 0, 0, 0, 0, 0⟩, -- GS_READY0
  ⟨0x58, 1, 4, 1, 0, 0, 0, 0, 0, 0, 0⟩, -- GS_READY_CL
  ⟨0x5C, 1, 4, 1, 0, 0, 0, 0, 0, 0, 0⟩, -- GS_READY_PP
  ⟨0x60, 1, 4, 1, 0, 0, 0, 0, 0, 0, 0⟩, -- GS_READY_EC
  ⟨0x64, 1, 4, 1, 0, 0x7FFF, 0, 0, 0, 0, 0⟩, -- GS_HOLD
  ⟨0x68, 1, 4, 1, 0, 0, 0, 0, 0, 0, 0xFFFF0001⟩, -- GS_SOFT_RESET
  ⟨0x6C, 1, 4, 1, 0, 3, 0, 0, 0, 0, 0⟩, -- GS_RESET_CTRL
  ⟨0x70, 1, 4, 1, 0, 0xFFFF, 0, 0, 0, 0x10000, 0⟩, -- GS_WDOG_CTRL
  ⟨0x74, 1, 4, 1, 0, 0, 0, 0, 0, 0, 0xFFFFFFFF⟩, -- GS_WDOG_KICK
  ⟨0x78, 1, 4, 1, 0, 0, 0, 0, 0, 0, 0⟩, -- GS_OPT_STATUS
  ⟨0x7C, 1, 4, 1, 0, 0, 0, 0, 0, 0, 0⟩, -- GS_OPT_FAIL
  ⟨0x80, 1, 4, 1, 0, 0, 0, 0, 0, 0, 0⟩, -- GS_HUB_ID
  ⟨0x84, 1, 4, 1, 0, 0, 0, 0, 0, 0, 0⟩, -- GS_STRAPS
  ⟨0x88, 1, 4, 1, 0, 0, 0, 0, 0, 0, 0⟩] -- GS_AUTH_FAIL

/-- Registers of 0x001 fuses and option bytes: offset, words, stride, count, reset, then the RW, RWS, RWL, W1C, W1S and WO bits. -/
def rows_opt : List Row := [
  ⟨0x40, 1, 4, 1, 0, 0, 0, 0, 0, 0, 0⟩, -- FUSE_SERIAL_LO
  ⟨0x44, 1, 4, 1, 0, 0, 0, 0, 0, 0, 0⟩, -- FUSE_SERIAL_HI
  ⟨0x48, 1, 4, 1, 0, 0, 0, 0, 0, 0, 0⟩, -- FUSE_PART
  ⟨0x4C, 1, 4, 1, 0, 0xFFF, 0, 0, 0, 0, 0⟩, -- FUSE_PROG_ADDR
  ⟨0x50, 1, 4, 1, 0, 0, 0, 0, 0, 0, 0xFFFF0001⟩, -- FUSE_PROG_CTRL
  ⟨0x54, 1, 4, 1, 0, 0, 0, 0, 0, 0, 0⟩, -- FUSE_PROG_STATUS
  ⟨0x58, 1, 4, 1, 0, 0, 0, 0, 0, 0, 0⟩, -- OPT_ACTIVE_GEN
  ⟨0x400, 1, 4, 128, 0, 0, 0, 0, 0, 0, 0⟩] -- FUSE_RAW

/-- Registers of 0x002 clocks: offset, words, stride, count, reset, then the RW, RWS, RWL, W1C, W1S and WO bits. -/
def rows_clk : List Row := [
  ]

/-- Registers of 0x008/0x009 ring port (lane, port, peer-delay registers): offset, words, stride, count, reset, then the RW, RWS, RWL, W1C, W1S and WO bits. -/
def rows_rp : List Row := [
  ⟨0x40, 1, 4, 1, 7, 7, 0, 0, 0, 0, 0x180⟩, -- LN_CTRL
  ⟨0x44, 1, 4, 1, 0, 0, 0, 0, 0x10, 0, 0⟩, -- LN_STATUS
  ⟨0x48, 1, 4, 1, 0x6880688, 0, 0, 0, 0, 0, 0⟩, -- LN_MAP
  ⟨0x4C, 1, 4, 1, 0, 0, 0, 0, 0, 0, 0x87⟩, -- LN_SPARE_CMD
  ⟨0x50, 1, 4, 1, 0, 0, 0, 0, 0, 0, 0⟩, -- LN_SPARE_STATUS
  ⟨0x54, 1, 4, 1, 0x3E80040, 0, 0xFFFFFFFF, 0, 0, 0, 0⟩, -- LN_ERR_CFG
  ⟨0x58, 1, 4, 1, 0, 0, 0, 0, 0, 0, 0⟩, -- LN_PARTNER
  ⟨0x5C, 1, 4, 1, 0, 0, 0, 0, 0, 0, 0⟩, -- LN_PARTNER_SN_LO
  ⟨0x60, 1, 4, 1, 0, 0, 0, 0, 0, 0, 0⟩, -- LN_PARTNER_SN_HI
  ⟨0x64, 1, 4, 1, 0, 0, 0, 0, 0, 0, 0⟩, -- LN_PORT_CNT
  ⟨0x68, 1, 4, 1, 0, 0, 0, 0, 0, 0, 0⟩, -- LN_CC_CNT
  ⟨0x80, 1, 16, 5, 0x6708, 0, 0, 0xFF1F, 0, 0, 0⟩, -- LN_EQ
  ⟨0x84, 1, 16, 5, 0, 0, 0, 0, 0, 0, 0⟩, -- LN_LSTAT
  ⟨0x88, 1, 16, 5, 0, 0, 0, 0, 0, 0, 0⟩, -- LN_CNT
  ⟨0x8C, 1, 16, 5, 0, 0, 0, 0, 0, 0, 0⟩, -- LN_EYE
  ⟨0x100, 1, 4, 1, 0x10008010, 0, 0xFFFFFFFF, 0, 0, 0, 0⟩, -- RP_CREDIT_GRANT
  ⟨0x104, 1, 4, 1, 0, 0, 0, 0, 0, 0, 0⟩, -- RP_CREDIT_AVAIL
  ⟨0x108, 1, 4, 1, 0, 0, 0, 0, 0, 0, 0⟩, -- RP_NEIGHBOUR
  ⟨0x10C, 1, 4, 1, 0, 0, 0, 0, 0, 0, 1⟩, -- RP_CTRL
  ⟨0x120, 1, 4, 1, 0, 0, 0, 0, 0, 0, 0⟩, -- RP_RX_FRAMES
  ⟨0x124, 1, 4, 1, 0, 0, 0, 0, 0, 0, 0⟩, -- RP_TX_FRAMES
  ⟨0x128, 1, 4, 1, 0, 0, 0, 0, 0, 0, 0⟩, -- RP_RX_HCRC
  ⟨0x12C, 1, 4, 1, 0, 0, 0, 0, 0, 0, 0⟩, -- RP_RX_BAD
  ⟨0x130, 1, 4, 1, 0, 0, 0, 0, 0, 0, 0⟩, -- RP_RIDGE
  ⟨0x134, 1, 4, 1, 0, 0, 0, 0, 0, 0, 0⟩, -- RP_PREEMPT
  ⟨0x138, 1, 4, 1, 0, 0, 0, 0, 0, 0, 0⟩, -- RP_TRUNC
  ⟨0x13C, 1, 4, 1, 0, 0, 0, 0, 0, 0, 0⟩, -- RP_DROP_RONLY
  ⟨0x140, 1, 4, 1, 0, 0, 0, 0, 0, 0, 0⟩, -- RP_DROP_E
  ⟨0x144, 1, 4, 1, 0, 0, 0, 0, 0, 0, 0⟩, -- RP_DROP_OVERRUN
  ⟨0x148, 1, 4, 1, 0, 0, 0, 0, 0, 0, 0⟩, -- RP_STRIP
  ⟨0x14C, 1, 4, 1, 0, 0, 0, 0, 0, 0, 0⟩, -- RP_UNDELIV
  ⟨0x150, 1, 4, 1, 0, 0, 0, 0, 0, 0, 0⟩, -- RP_DROP_LOOP
  ⟨0x154, 1, 4, 1, 0, 0, 0, 0, 0, 0, 0⟩, -- RP_DROP_ORPHAN
  ⟨0x158, 1, 4, 1, 0, 0, 0, 0, 0, 0, 0⟩, -- RP_FLUSHED
  ⟨0x15C, 1, 4, 1, 0, 0, 0, 0, 0, 0, 0⟩, -- RP_LL_DROP
  ⟨0x180, 1, 4, 1, 0x103E8, 0, 0x1FFFF, 0, 0, 0, 0⟩, -- RP_PD_CFG
  ⟨0x184, 1, 4, 1, 0, 0, 0, 0, 0, 0, 0⟩, -- RP_PD_DELAY
  ⟨0x188, 1, 4, 1, 0, 0, 0xFFFF, 0, 0, 0, 0⟩, -- RP_PD_ASYM
  ⟨0x18C, 1, 4, 1, 0, 0, 0, 0, 0, 0, 0⟩, -- RP_PD_LAST
  ⟨0x190, 1, 4, 1, 0, 0, 0, 0, 0, 0, 0⟩] -- RP_PD_CNT

/-- Registers of 0x00A ring common: offset, words, stride, count, reset, then the RW, RWS, RWL, W1C, W1S and WO bits. -/
def rows_rc : List Row := [
  ⟨0x40, 1, 4, 1, 0xF, 0xF, 0, 0, 0, 0, 0⟩, -- RC_CTRL
  ⟨0x44, 1, 4, 1, 0x320A, 0, 0xFFFFFF, 0, 0, 0, 0⟩, -- RC_GUY_CFG
  ⟨0x48, 1, 4, 1, 0x64040A, 0, 0xFFFFFFFF, 0, 0, 0, 0⟩, -- RC_TOPO_CFG
  ⟨0x4C, 1, 4, 1, 0xC8, 0, 0xFFFF, 0, 0, 0, 0⟩, -- RC_HOLD_CFG
  ⟨0x50, 1, 4, 1, 0x32, 0, 0xFFFF, 0, 0, 0, 0⟩, -- RC_GRACE
  ⟨0x54, 1, 4, 1, 0, 0x7F, 0, 0, 0, 0, 0⟩, -- RC_MCAST
  ⟨0x58, 1, 4, 1, 0, 0, 0xFF, 0, 0, 0, 0⟩, -- RC_PIN_CFG
  ⟨0x5C, 1, 4, 1, 0x104, 0, 0xFFFF, 0, 0, 0, 0⟩, -- RC_ARB
  ⟨0x60, 1, 4, 1, 0, 0, 0, 0, 0, 0, 0⟩, -- RC_STATE
  ⟨0x64, 1, 4, 1, 0, 0, 0, 0, 0, 0, 0⟩, -- RC_CNT_NO_DEST
  ⟨0x68, 1, 4, 1, 0, 0, 0, 0, 0, 0, 0⟩, -- RC_CNT_HOLD
  ⟨0x6C, 1, 4, 1, 0, 0, 0, 0, 0, 0, 0⟩, -- RC_CNT_HOLD_EXP
  ⟨0x70, 1, 4, 1, 0, 0, 0, 0, 0, 0, 0⟩, -- RC_CNT_UNKNOWN
  ⟨0x74, 1, 4, 1, 0, 0, 0, 0, 0, 0, 0⟩, -- RC_CNT_RESET_DROP
  ⟨0x80, 1, 4, 4, 0, 0, 0, 0, 0, 0, 0xFFFFFFFF⟩, -- RC_RST_CRED
  ⟨0x90, 1, 4, 1, 0, 0, 0, 0, 0, 0, 0x7F0001⟩, -- RC_RST_SEND
  ⟨0x100, 1, 4, 16, 0xAAAAAAAA, 0, 0xFFFFFFFF, 0, 0, 0, 0⟩, -- RC_PIN
  ⟨0x400, 1, 4, 128, 0xFFFFFF00, 0, 0, 0, 0, 0, 0⟩] -- RC_TOPO

/-- Registers of 0x010 switch core: offset, words, stride, count, reset, then the RW, RWS, RWL, W1C, W1S and WO bits. -/
def rows_core : List Row := [
  ⟨0x40, 1, 4, 1, 1, 1, 0, 0, 0, 0, 0x100⟩, -- CORE_CTRL
  ⟨0x44, 1, 4, 1, 0x40000000, 0, 0, 0, 0, 0, 0⟩, -- CORE_POOL
  ⟨0x48, 1, 4, 1, 0x3FFFFFFF, 0x3FFFFFFF, 0, 0, 0, 0, 0⟩, -- CORE_PORT_EN
  ⟨0x4C, 1, 4, 1, 0x3FFFFFFF, 0, 0, 0, 0, 0, 0⟩, -- CORE_PORT_DOWN
  ⟨0x50, 1, 4, 1, 7, 0, 0x3FFFFFD7, 0, 0, 0, 0⟩, -- CORE_FWD_CT_E
  ⟨0x54, 1, 4, 1, 7, 0, 0x3FFFFFD7, 0, 0, 0, 0⟩, -- CORE_FWD_CT_T
  ⟨0x58, 1, 4, 1, 7, 0, 0x3FFFFFD7, 0, 0, 0, 0⟩, -- CORE_FWD_CT_B
  ⟨0x5C, 1, 4, 1, 7, 0, 0x3FFFFFD7, 0, 0, 0, 0⟩, -- CORE_FWD_CT_M
  ⟨0x60, 1, 4, 1, 0x10008010, 0, 0xFFFFFFFF, 0, 0, 0, 0⟩, -- CORE_RING_RSV_E
  ⟨0x64, 1, 4, 1, 0x10008010, 0, 0xFFFFFFFF, 0, 0, 0, 0⟩, -- CORE_RING_RSV_W
  ⟨0x68, 1, 4, 1, 0x1F00, 0, 0, 0, 0, 0, 0⟩, -- CORE_BANK_SPARE
  ⟨0x6C, 1, 4, 1, 0, 0, 0, 0, 0, 0, 0x8F⟩, -- CORE_SPARE_CMD
  ⟨0x70, 1, 4, 1, 0, 0, 0, 0, 0, 0, 0⟩, -- CORE_SPARE_STATUS
  ⟨0x74, 1, 4, 1, 0x3E80010, 0, 0xFFFFFFFF, 0, 0, 0, 0⟩, -- CORE_ECC_CFG
  ⟨0x78, 1, 4, 1, 0, 0, 0, 0, 0, 0, 0⟩, -- CORE_ECC_LAST
  ⟨0x7C, 1, 4, 1, 0, 0, 0, 0, 0, 0, 0⟩, -- CORE_CNT_MCAST_PARTIAL
  ⟨0x80, 1, 4, 1, 0, 0, 0, 0, 0, 0, 0⟩, -- CORE_CNT_WR_DEFER
  ⟨0x84, 1, 4, 1, 0, 0, 0, 0, 0, 0, 0⟩, -- CORE_CNT_UE
  ⟨0xC0, 1, 4, 17, 0, 0, 0, 0, 0, 0, 0⟩, -- CORE_BANK_CNT
  ⟨0x200, 1, 4, 64, 0, 0, 0xFFFFFFFF, 0, 0, 0, 0⟩, -- CORE_DELIV
  ⟨0x400, 1, 32, 30, 0, 0, 0, 0, 0, 0, 0⟩, -- CORE_PCNT_CELLS_IN
  ⟨0x404, 1, 32, 30, 0, 0, 0, 0, 0, 0, 0⟩, -- CORE_PCNT_CELLS_OUT
  ⟨0x408, 1, 32, 30, 0, 0, 0, 0, 0, 0, 0⟩, -- CORE_PCNT_FRAMES_IN
  ⟨0x40C, 1, 32, 30, 0, 0, 0, 0, 0, 0, 0⟩, -- CORE_PCNT_FRAMES_OUT
  ⟨0x410, 1, 32, 30, 0, 0, 0, 0, 0, 0, 0⟩, -- CORE_PCNT_DROP_DOWN
  ⟨0x414, 1, 32, 30, 0, 0, 0, 0, 0, 0, 0⟩, -- CORE_PCNT_DROP_QMAX
  ⟨0x418, 1, 32, 30, 0, 0, 0, 0, 0, 0, 0⟩, -- CORE_PCNT_DROP_POOL
  ⟨0x41C, 1, 32, 30, 0, 0, 0, 0, 0, 0, 0⟩] -- CORE_PCNT_DROP_BAD

/-- Registers of 0x011-0x014 queues: offset, words, stride, count, reset, then the RW, RWS, RWL, W1C, W1S and WO bits. -/
def rows_q : List Row := [
  ⟨0x40, 1, 4, 1, 0, 0, 0, 0, 0, 0, 0x800003FF⟩, -- Q_FLUSH
  ⟨0x44, 1, 4, 1, 0, 0, 0, 0, 0, 0, 0⟩, -- Q_FLUSH_STATUS
  ⟨0x48, 1, 4, 1, 0x32, 0, 0xFFFF, 0, 0, 0, 0⟩, -- Q_GRACE
  ⟨0x4C, 1, 4, 1, 0, 0, 0, 0, 0, 0, 0⟩, -- Q_FROZEN
  ⟨0x50, 1, 4, 1, 0, 0, 0, 0, 0, 0, 0⟩, -- Q_CNT_FLUSH
  ⟨0x54, 1, 4, 1, 0, 0, 0, 0, 0, 0, 0⟩, -- Q_CNT_GRACE
  ⟨0x58, 1, 4, 1, 0, 0, 0, 0, 0, 0, 1⟩, -- Q_CTRL
  ⟨0x60, 1, 4, 2, 0, 0, 0, 0, 0xFFFFFFFF, 0, 0⟩, -- MB_UNDERRUN
  ⟨0x68, 1, 4, 2, 0, 0, 0, 0, 0xFFFFFFFF, 0, 0⟩, -- MB_OVERRUN
  ⟨0x70, 1, 4, 2, 0, 0, 0, 0, 0, 0, 0⟩, -- MB_NONEMPTY
  ⟨0x78, 1, 4, 2, 0, 0xFFFFFFFF, 0, 0, 0, 0, 0⟩, -- MB_ARRIVE_EN
  ⟨0x80, 1, 4, 1, 0, 0x3FF, 0, 0, 0, 0, 0⟩, -- QRP_SEL
  ⟨0x84, 1, 4, 1, 0, 0, 0, 0, 0, 0, 0⟩, -- QRP_TAKE
  ⟨0x88, 1, 4, 6, 0, 0, 0, 0, 0, 0, 0⟩, -- QRP_CELL
  ⟨0x200, 1, 4, 64, 0, 0, 0, 0, 0, 0, 0xFFFFFFFF⟩, -- MB_PUSH
  ⟨0x300, 1, 4, 64, 0, 0, 0, 0, 0, 0, 0⟩, -- MB_POP
  ⟨0x400, 1, 4, 256, 0, 0, 0xFFFFFFF8, 0, 0, 0, 0⟩, -- QCFG
  ⟨0xC00, 1, 4, 256, 0, 0, 0, 0, 0, 0, 0⟩, -- QSTAT
  ⟨0x884, 1, 4, 1, 0, 0, 0, 0, 0, 0, 0⟩, -- QRP_PEEK
  ⟨0xB00, 1, 4, 64, 0, 0, 0, 0, 0, 0, 0⟩] -- MB_PEEK

/-- Registers of 0x018 time: offset, words, stride, count, reset, then the RW, RWS, RWL, W1C, W1S and WO bits. -/
def rows_tm : List Row := [
  ⟨0x40, 1, 4, 1, 0, 0, 0, 0, 0, 0, 7⟩, -- TM_CTRL
  ⟨0x44, 1, 4, 1, 0x3E81902, 0, 0xFFFFFFC3, 0, 0, 0, 0⟩, -- TM_ST_CFG
  ⟨0x48, 1, 4, 1, 0, 0, 0, 0, 0, 0, 0⟩, -- TM_ST_STATUS
  ⟨0x4C, 1, 4, 1, 0, 0, 0, 0, 0, 0, 0⟩, -- TM_ST_RESID
  ⟨0x50, 1, 4, 1, 0, 0, 0, 0, 0, 0, 0⟩, -- TM_SNAP_LOC_LO
  ⟨0x54, 1, 4, 1, 0, 0, 0, 0, 0, 0, 0⟩, -- TM_SNAP_LOC_HI
  ⟨0x58, 1, 4, 1, 0, 0, 0, 0, 0, 0, 0⟩, -- TM_SNAP_A_NS
  ⟨0x5C, 1, 4, 1, 0, 0, 0, 0, 0, 0, 0⟩, -- TM_SNAP_A_FRAC
  ⟨0x60, 1, 4, 1, 0, 0, 0, 0, 0, 0, 0⟩, -- TM_SNAP_A_ERA
  ⟨0x64, 1, 4, 1, 0, 0, 0, 0, 0, 0, 0⟩, -- TM_SNAP_B_NS
  ⟨0x68, 1, 4, 1, 0, 0, 0, 0, 0, 0, 0⟩, -- TM_SNAP_B_FRAC
  ⟨0x6C, 1, 4, 1, 0, 0, 0, 0, 0, 0, 0⟩, -- TM_SNAP_B_ERA
  ⟨0x70, 1, 4, 1, 0, 0, 0, 0, 0, 0, 0⟩, -- TM_SNAP_ST_NS
  ⟨0x74, 1, 4, 1, 0, 0, 0, 0, 0, 0, 0⟩, -- TM_SNAP_ST_FRAC
  ⟨0x78, 1, 4, 1, 0, 0, 0, 0, 0, 0, 0⟩, -- TM_SNAP_ST_ERA
  ⟨0x80, 1, 4, 1, 0, 0xFFFFFFFF, 0, 0, 0, 0, 0⟩, -- TM_SMP_NS
  ⟨0x84, 1, 4, 1, 0, 0xFFFF, 0, 0, 0, 0, 0⟩, -- TM_SMP_FRAC
  ⟨0x88, 1, 4, 1, 0, 0xFFFFFFFF, 0, 0, 0, 0, 0⟩, -- TM_SMP_ERA
  ⟨0x8C, 1, 4, 1, 0, 0xFFFFFFFF, 0, 0, 0, 0, 0⟩, -- TM_SMP_LOC_LO
  ⟨0x90, 1, 4, 1, 0, 0xFFFFFFFF, 0, 0, 0, 0, 0⟩, -- TM_SMP_LOC_HI
  ⟨0x94, 1, 4, 1, 0, 0, 0, 0, 0, 0, 0xE07FFFFF⟩, -- TM_SMP_CMD
  ⟨0x100, 1, 64, 2, 0x20007F7F, 0, 0xF8FF7F7F, 0, 0, 0, 0⟩, -- TM_D_CFG
  ⟨0x104, 1, 64, 2, 0, 0, 0, 0, 0, 0, 0⟩, -- TM_D_OFFSET_NS
  ⟨0x108, 1, 64, 2, 0, 0, 0, 0, 0, 0, 0⟩, -- TM_D_OFFSET_FRAC
  ⟨0x10C, 1, 64, 2, 0, 0, 0, 0, 0, 0, 0⟩, -- TM_D_RATE
  ⟨0x110, 1, 64, 2, 0, 0, 0xFFFFFFFF, 0, 0, 0, 0⟩, -- TM_D_ADJ_NS
  ⟨0x114, 1, 64, 2, 0, 0, 0xFFFF, 0, 0, 0, 0⟩, -- TM_D_ADJ_FRAC
  ⟨0x118, 1, 64, 2, 0, 0, 0xFFFFFFFF, 0, 0, 0, 0⟩, -- TM_D_RATE_SET
  ⟨0x11C, 1, 64, 2, 0x14080032, 0, 0xFFFFFFFF, 0, 0, 0, 0⟩, -- TM_D_SERVO
  ⟨0x120, 1, 64, 2, 0x15E0064, 0, 0xFFFFFFFF, 0, 0, 0, 0⟩, -- TM_D_TIMING
  ⟨0x124, 1, 64, 2, 0x3E8, 0, 0xFFFFFFFF, 0, 0, 0, 0⟩, -- TM_D_STEP
  ⟨0x128, 1, 64, 2, 0x3F80, 0, 0, 0, 0, 0, 0⟩, -- TM_D_STATUS
  ⟨0x12C, 1, 64, 2, 0, 0, 0, 0, 0, 0, 0⟩, -- TM_D_ERROR
  ⟨0x130, 1, 64, 2, 0, 0, 0, 0, 0, 0, 0⟩, -- TM_D_ERA
  ⟨0x134, 1, 64, 2, 0, 0, 0, 0, 0, 0, 0⟩] -- TM_D_CNT

/-- Registers of 0x01C scan: offset, words, stride, count, reset, then the RW, RWS, RWL, W1C, W1S and WO bits. -/
def rows_sc : List Row := [
  ⟨0x40, 1, 4, 1, 0, 0, 0, 0, 0, 0, 0x100⟩, -- SC_CTRL
  ⟨0x44, 1, 4, 1, 0x3E8, 0, 0xFFFFF, 0, 0, 0, 0⟩, -- SC_PERIOD
  ⟨0x48, 1, 4, 1, 0x7D0, 0, 0xFFFF, 0, 0, 0, 0⟩, -- SC_GUARD
  ⟨0x4C, 1, 4, 1, 0, 0, 0, 0xFFFFFFFF, 0, 0, 0⟩, -- SC_START_NS
  ⟨0x50, 1, 4, 1, 0, 0, 0, 0xFFFFFFFF, 0, 0, 0⟩, -- SC_START_EPOCH
  ⟨0x54, 1, 4, 1, 0, 0, 0, 0, 0, 0, 0⟩, -- SC_EPOCH
  ⟨0x58, 1, 4, 1, 0, 0, 0, 0, 0, 0, 0⟩, -- SC_BOUND_NS
  ⟨0x5C, 1, 4, 1, 0, 0, 0, 0, 0, 0, 0⟩, -- SC_STATUS
  ⟨0x60, 1, 4, 1, 0, 0xFFFFFFFF, 0, 0, 0, 0, 0⟩, -- SC_OPUB_REL
  ⟨0x64, 1, 4, 1, 0, 0, 0, 0, 0, 0, 0xFFFFFFFF⟩, -- SC_OPUB_SEND
  ⟨0x70, 1, 4, 1, 0, 0, 0, 0, 0, 0, 0⟩, -- SC_CNT_IN
  ⟨0x74, 1, 4, 1, 0, 0, 0, 0, 0, 0, 0⟩, -- SC_CNT_LATE_IN
  ⟨0x78, 1, 4, 1, 0, 0, 0, 0, 0, 0, 0⟩, -- SC_CNT_SKEW
  ⟨0x7C, 1, 4, 1, 0, 0, 0, 0, 0, 0, 0⟩, -- SC_CNT_OUT
  ⟨0x80, 1, 4, 1, 0, 0, 0, 0, 0, 0, 0⟩, -- SC_CNT_LATE_OUT
  ⟨0x84, 1, 4, 1, 0, 0, 0, 0, 0, 0, 0⟩, -- SC_CNT_EARLY
  ⟨0x88, 1, 4, 1, 0, 0, 0, 0, 0, 0, 0⟩, -- SC_CNT_BAD
  ⟨0x8C, 1, 4, 1, 0, 0, 0, 0, 0, 0, 0⟩, -- SC_CNT_IDLE
  ⟨0xA0, 1, 4, 6, 0, 0, 0, 0, 0xFFFFFFFF, 0, 0⟩, -- SC_LATE
  ⟨0x100, 1, 16, 8, 0, 0, 0xFFFF7FFF, 0, 0, 0, 0⟩, -- SC_PUB_RANGE
  ⟨0x104, 1, 16, 8, 0x7F0000, 0, 0x807F003F, 0, 0, 0, 0⟩, -- SC_PUB_DEST
  ⟨0x108, 1, 16, 8, 0, 0, 0, 0, 0, 0, 0⟩, -- SC_PUB_STAT
  ⟨0x200, 1, 16, 32, 0, 0, 0x80007F07, 0, 0, 0, 0⟩, -- SC_SUB_CFG
  ⟨0x204, 1, 16, 32, 0, 0, 0xFFFF7FFF, 0, 0, 0, 0⟩, -- SC_SUB_RANGE
  ⟨0x208, 1, 16, 32, 0, 0, 0, 0, 0, 0, 0⟩, -- SC_SUB_LAST
  ⟨0x20C, 1, 16, 32, 0, 0, 0, 0, 0, 0, 0⟩, -- SC_SUB_STAT
  ⟨0x400, 1, 16, 32, 0, 0, 0xFFFF7FFF, 0, 0, 0, 0⟩, -- SC_OPUB_RANGE
  ⟨0x404, 1, 16, 32, 0, 0, 0xC07F003F, 0, 0, 0, 0⟩, -- SC_OPUB_DEST
  ⟨0x408, 1, 16, 32, 0, 0, 0x7FFF, 0, 0, 0, 0⟩] -- SC_OPUB_RFIRST

/-- Registers of 0x020 bridge: offset, words, stride, count, reset, then the RW, RWS, RWL, W1C, W1S and WO bits. -/
def rows_br : List Row := [
  ⟨0x40, 1, 4, 1, 6, 6, 0, 0, 0, 0, 8⟩, -- BR_CTRL
  ⟨0x44, 1, 4, 1, 0, 0, 0, 0, 0, 0, 0⟩, -- BR_STATUS
  ⟨0x48, 1, 4, 1, 0x3E8, 0, 0xFFFFF, 0, 0, 0, 0⟩, -- BR_TLIMIT
  ⟨0x4C, 1, 4, 1, 0x3E8, 0, 0xFFFF, 0, 0, 0, 0⟩, -- BR_SLOT_CFG
  ⟨0x50, 1, 4, 1, 0, 0, 0, 0, 0, 0, 0⟩, -- BR_PWLOG_STAT
  ⟨0x54, 1, 4, 1, 0, 0xFFFF, 0, 0, 0, 0, 0⟩, -- BR_PWLOG_ACK
  ⟨0x58, 1, 4, 1, 0, 0, 0, 0, 0, 0, 0⟩, -- BR_TL_ADDR
  ⟨0x5C, 1, 4, 1, 0, 0, 0, 0, 0x80000000, 0, 0⟩, -- BR_TL_INFO
  ⟨0x60, 1, 4, 1, 0, 0, 0, 0, 0, 0, 0⟩, -- BR_TL_DATA
  ⟨0x80, 1, 4, 1, 0, 0, 0, 0, 0, 0, 0⟩, -- BR_CNT_TIMEOUT
  ⟨0x84, 1, 4, 1, 0, 0, 0, 0, 0, 0, 0⟩, -- BR_CNT_RETRY
  ⟨0x88, 1, 4, 1, 0, 0, 0, 0, 0, 0, 0⟩, -- BR_CNT_REFUSED
  ⟨0x8C, 1, 4, 1, 0, 0, 0, 0, 0, 0, 0⟩, -- BR_CNT_SLOT_EXP
  ⟨0x90, 1, 4, 1, 0, 0, 0, 0, 0, 0, 0⟩, -- BR_CNT_LATE_CPL
  ⟨0x94, 1, 4, 1, 0, 0, 0, 0, 0, 0, 0⟩, -- BR_CNT_RESEND
  ⟨0x98, 1, 4, 1, 0, 0, 0, 0, 0, 0, 0⟩, -- BR_CNT_TAKE_LOST
  ⟨0x9C, 1, 4, 1, 0, 0, 0, 0, 0, 0, 0⟩, -- BR_CNT_NO_DEST
  ⟨0x100, 1, 16, 32, 0, 0, 0xBF0FFFFF, 0, 0, 0, 0⟩, -- BR_WIN_BASE
  ⟨0x104, 1, 16, 32, 0, 0, 0x3F0FFFFF, 0, 0, 0, 0⟩, -- BR_WIN_TGT
  ⟨0x108, 1, 16, 32, 0x400000, 0, 0xC1FF0000, 0, 0, 0, 0⟩, -- BR_WIN_CFG
  ⟨0x10C, 1, 16, 32, 0, 0, 0, 0, 0, 0, 0x80000000⟩, -- BR_WIN_FENCE
  ⟨0x300, 1, 16, 16, 0, 0, 0, 0, 0, 0, 0⟩, -- BR_SLOT_ADDR
  ⟨0x304, 1, 16, 16, 0, 0, 0, 0, 0, 0, 0⟩, -- BR_SLOT_INFO
  ⟨0x308, 1, 16, 16, 0, 0, 0, 0, 0, 0, 0⟩, -- BR_SLOT_DATA
  ⟨0x30C, 1, 16, 16, 0, 0, 0, 0, 0, 0, 0⟩, -- BR_SLOT_AGE
  ⟨0x400, 1, 4, 8, 0, 0, 0, 0, 0xFFFFFFFF, 0, 0⟩, -- BR_SIG_PEND
  ⟨0x420, 1, 4, 8, 0, 0xFFFFFFFF, 0, 0, 0, 0, 0⟩, -- BR_SIG_EN
  ⟨0x440, 1, 4, 1, 0, 0xFF7F0000, 0, 0, 0, 0, 0⟩, -- BR_SIG_TGT
  ⟨0x444, 1, 4, 1, 0, 0, 0, 0, 0, 0, 0xDFFF3FFF⟩, -- BR_SIG_SEND
  ⟨0x448, 1, 4, 1, 0, 0, 0, 0, 0, 0, 0⟩, -- BR_SIG_LAST
  ⟨0x44C, 1, 4, 1, 0, 0, 0, 0, 0, 0, 0xFFF003FF⟩, -- BR_TXF_CMD
  ⟨0x450, 1, 4, 1, 0, 0, 0, 0, 0, 0, 0⟩, -- BR_TXF_STATUS
  ⟨0x500, 1, 4, 132, 0, 0xFFFFFFFF, 0, 0, 0, 0, 0⟩, -- BR_TXF_BUF
  ⟨0xA00, 1, 16, 32, 0, 0, 0, 0, 0, 0, 0⟩, -- BR_PWLOG0
  ⟨0xA04, 1, 16, 32, 0, 0, 0, 0, 0, 0, 0⟩, -- BR_PWLOG1
  ⟨0xA08, 1, 16, 32, 0, 0, 0, 0, 0, 0, 0⟩, -- BR_PWLOG2
  ⟨0xA0C, 1, 16, 32, 0, 0, 0, 0, 0, 0, 0⟩, -- BR_PWLOG3
  ⟨0xC00, 1, 4, 192, 0x80808080, 0xFFFFFFFF, 0, 0, 0, 0, 0⟩] -- BR_IRQ_ROUTE

/-- Registers of 0x021 host port and SPI: offset, words, stride, count, reset, then the RW, RWS, RWL, W1C, W1S and WO bits. -/
def rows_hp : List Row := [
  ⟨0x40, 1, 4, 2, 0x80000000, 0x807F00FF, 0, 0, 0, 0, 0⟩, -- HOST_PSEL
  ⟨0x48, 1, 4, 1, 0, 3, 0, 0, 0, 0, 0⟩, -- HOST_CFG
  ⟨0x4C, 1, 4, 1, 0, 0, 0, 0, 0, 0, 0⟩] -- HOST_CNT

/-- Registers of 0x024 twin: offset, words, stride, count, reset, then the RW, RWS, RWL, W1C, W1S and WO bits. -/
def rows_tw : List Row := [
  ⟨0x40, 1, 4, 1, 4, 4, 0, 0, 0, 0, 0x180⟩, -- LN_CTRL
  ⟨0x44, 1, 4, 1, 0, 0, 0, 0, 0x10, 0, 0⟩, -- LN_STATUS
  ⟨0x48, 1, 4, 1, 0x80008, 0, 0, 0, 0, 0, 0⟩, -- LN_MAP
  ⟨0x4C, 1, 4, 1, 0, 0, 0, 0, 0, 0, 0⟩, -- LN_SPARE_CMD
  ⟨0x50, 1, 4, 1, 0, 0, 0, 0, 0, 0, 0⟩, -- LN_SPARE_STATUS
  ⟨0x54, 1, 4, 1, 0, 0, 0, 0, 0, 0, 0⟩, -- LN_ERR_CFG
  ⟨0x58, 1, 4, 1, 0, 0, 0, 0, 0, 0, 0⟩, -- LN_PARTNER
  ⟨0x5C, 1, 4, 1, 0, 0, 0, 0, 0, 0, 0⟩, -- LN_PARTNER_SN_LO
  ⟨0x60, 1, 4, 1, 0, 0, 0, 0, 0, 0, 0⟩, -- LN_PARTNER_SN_HI
  ⟨0x64, 1, 4, 1, 0, 0, 0, 0, 0, 0, 0⟩, -- LN_PORT_CNT
  ⟨0x68, 1, 4, 1, 0, 0, 0, 0, 0, 0, 0⟩, -- LN_CC_CNT
  ⟨0x80, 1, 16, 2, 0x6708, 0, 0, 0xFF1F, 0, 0, 0⟩, -- LN_EQ
  ⟨0x84, 1, 16, 2, 0, 0, 0, 0, 0, 0, 0⟩, -- LN_LSTAT
  ⟨0x88, 1, 16, 2, 0, 0, 0, 0, 0, 0, 0⟩, -- LN_CNT
  ⟨0x8C, 1, 16, 2, 0, 0, 0, 0, 0, 0, 0⟩, -- LN_EYE
  ⟨0x100, 1, 4, 1, 0x10000A, 0, 0x80FFFFFF, 0, 0, 0, 0⟩, -- TW_CFG
  ⟨0x104, 1, 4, 1, 0x5A0, 0, 0xFFFF, 0, 0, 0, 0⟩, -- TW_SWAP
  ⟨0x108, 1, 4, 1, 0x1405, 0, 0xFFFFFF, 0, 0, 0, 0⟩, -- TW_GUY
  ⟨0x10C, 1, 4, 1, 0, 0, 0, 0, 0, 0, 0x1F⟩, -- TW_CMD
  ⟨0x110, 1, 4, 1, 0, 0, 0, 0, 0, 0, 0⟩, -- TW_STATUS
  ⟨0x114, 1, 4, 1, 0, 0, 0, 0, 0, 0, 0⟩, -- TW_LAG
  ⟨0x118, 1, 4, 1, 0x400, 0, 0x1FFF, 0, 0, 0, 0⟩, -- TW_LAG_CFG
  ⟨0x11C, 1, 4, 1, 0, 0, 0, 0, 0, 0, 0⟩, -- TW_CNT_SWITCH
  ⟨0x120, 1, 4, 1, 0, 0, 0, 0, 0, 0, 0⟩, -- TW_CNT_RESYNC
  ⟨0x124, 1, 4, 1, 0, 0, 0, 0, 0, 0, 0⟩, -- TW_CNT_CANOPY_LATE
  ⟨0x128, 1, 4, 1, 0, 0, 0, 0, 0, 0, 0⟩, -- TW_CNT_BAD
  ⟨0x140, 1, 4, 6, 0, 0, 0xFFFFFFFF, 0, 0, 0, 0⟩, -- TW_ENG_MIR
  ⟨0x160, 1, 4, 8, 0, 0, 0x83FF83FF, 0, 0, 0, 0⟩] -- TW_QMIR

/-- Registers of 0x028 feeds: offset, words, stride, count, reset, then the RW, RWS, RWL, W1C, W1S and WO bits. -/
def rows_fd : List Row := [
  ⟨0x40, 1, 4, 1, 8, 0, 0xF, 0, 0, 0, 0x100⟩, -- FD_CTRL
  ⟨0x44, 1, 4, 1, 0x280B4, 0, 0x3FFFF, 0, 0, 0, 0⟩, -- FD_WIN_A
  ⟨0x48, 1, 4, 1, 0x280B4, 0, 0x3FFFF, 0, 0, 0, 0⟩, -- FD_WIN_B
  ⟨0x4C, 1, 4, 1, 0x505000A, 0, 0x1FFFFFFF, 0, 0, 0, 0⟩, -- FD_TIMING
  ⟨0x50, 1, 4, 1, 0xB4, 0, 0x800001FF, 0, 0, 0, 0⟩, -- FD_HOLDUP
  ⟨0x54, 1, 4, 1, 0, 0, 0, 0, 0, 0, 0⟩, -- FD_STATUS
  ⟨0x58, 1, 4, 1, 0, 0, 0, 0, 0, 0, 0⟩, -- FD_VFEED
  ⟨0x5C, 1, 4, 1, 0, 0, 0, 0, 0, 0, 0⟩, -- FD_VBUS
  ⟨0x60, 1, 4, 1, 0, 0, 0, 0, 0, 0, 0⟩] -- FD_CNT

/-- Registers of 0x030+n pitch power: offset, words, stride, count, reset, then the RW, RWS, RWL, W1C, W1S and WO bits. -/
def rows_pp : List Row := [
  ⟨0x40, 1, 4, 1, 0, 0, 0, 0, 0, 0, 0x105⟩, -- PP_CTRL
  ⟨0x44, 1, 4, 1, 0x30A01F4, 0, 0x8FFFFFFF, 0, 0, 0, 0⟩, -- PP_CFG
  ⟨0x48, 1, 4, 1, 0xFA, 0, 0x3FFF, 0, 0, 0, 0⟩, -- PP_INS
  ⟨0x4C, 1, 4, 1, 0x190280B4, 0, 0xFFC3FFFF, 0, 0, 0, 0⟩, -- PP_WIN
  ⟨0x50, 1, 4, 1, 0x18050064, 0, 0xFFFFFFFF, 0, 0, 0, 0⟩, -- PP_RAMP
  ⟨0x54, 1, 4, 1, 0xC8, 0, 0xFF, 0, 0, 0, 0⟩, -- PP_IINST
  ⟨0x58, 1, 4, 1, 0x963C, 0, 0xFFFFFFFF, 0, 0, 0, 0⟩, -- PP_RDS_CFG
  ⟨0x5C, 1, 4, 1, 0x3E8, 0, 0xFFFF, 0, 0, 0, 0⟩, -- PP_SHUNT
  ⟨0x60, 1, 4, 8, 0, 0, 0xBFFFFFFF, 0, 0, 0, 0⟩, -- PP_CURVE
  ⟨0x80, 1, 4, 1, 0, 0, 0, 0, 0, 0, 0⟩, -- PP_STATUS
  ⟨0x84, 1, 4, 1, 0, 0, 0, 0, 0, 0, 0⟩, -- PP_MEAS
  ⟨0x88, 1, 4, 1, 0xFFFFFFFF, 0, 0, 0, 0, 0, 0⟩, -- PP_RDS
  ⟨0x8C, 1, 4, 1, 0, 0, 0, 0, 0, 0, 0⟩, -- PP_TIMER
  ⟨0x90, 1, 4, 1, 0, 0, 0, 0, 0, 0, 0⟩] -- PP_CNT

/-- Registers of 0x050+n card link: offset, words, stride, count, reset, then the RW, RWS, RWL, W1C, W1S and WO bits. -/
def rows_cl : List Row := [
  ⟨0x40, 1, 4, 1, 0, 0, 0, 0, 0, 0, 0x180⟩, -- CL_CTRL
  ⟨0x44, 1, 4, 1, 0, 0, 0, 0, 0, 0, 0⟩, -- CL_STATUS
  ⟨0x48, 1, 4, 1, 0, 0, 0, 0, 0, 0, 0⟩, -- CL_LOOP
  ⟨0x4C, 1, 4, 1, 0, 0, 0, 0, 0, 0, 0⟩, -- CL_CARD
  ⟨0x50, 1, 4, 1, 0, 0, 0, 0, 0, 0, 0⟩, -- CL_SN_LO
  ⟨0x54, 1, 4, 1, 0, 0, 0, 0, 0, 0, 0⟩, -- CL_SN_HI
  ⟨0x58, 1, 4, 1, 0, 0, 0xFFFF, 0, 0, 0, 0⟩, -- CL_EXPECT
  ⟨0x5C, 1, 4, 1, 0xA0000, 0, 0xFFFFF, 0, 0, 0, 0⟩, -- CL_SAFE
  ⟨0x60, 1, 4, 1, 0, 0, 0, 0, 0, 0, 0⟩, -- CL_CARD_STAT
  ⟨0x64, 1, 4, 1, 0, 0, 0, 0, 0, 0, 0⟩, -- CL_CNT_BAD
  ⟨0x68, 1, 4, 1, 0, 0, 0, 0, 0, 0, 0⟩, -- CL_CNT_FAR
  ⟨0x6C, 1, 4, 1, 0, 0, 0, 0, 0, 0, 0⟩, -- CL_CNT_LINK
  ⟨0x70, 1, 4, 1, 0, 0, 0, 0, 0, 0, 0⟩, -- CL_CNT_BLOCK
  ⟨0x74, 1, 4, 1, 0, 0, 0, 0, 0, 0, 0⟩, -- CL_CNT_GLITCH
  ⟨0x80, 1, 4, 1, 0x6708, 0, 0, 0xFF1F, 0, 0, 0⟩, -- CL_EQ
  ⟨0x84, 1, 4, 1, 0, 0, 0, 0, 0, 0, 0⟩, -- CL_LSTAT
  ⟨0x88, 1, 4, 1, 0, 0, 0, 0, 0, 0, 0⟩, -- CL_LCNT
  ⟨0x8C, 1, 4, 1, 0, 0, 0, 0, 0, 0, 0⟩] -- CL_EYE

/-- Registers of 0x080+n engine cluster: offset, words, stride, count, reset, then the RW, RWS, RWL, W1C, W1S and WO bits. -/
def rows_ec : List Row := [
  ⟨0x40, 1, 4, 1, 1, 1, 0, 0, 0, 0, 0x100⟩, -- EC_CTRL
  ⟨0x44, 1, 4, 1, 0x76543210, 0, 0, 0, 0, 0, 0⟩, -- EC_MAP
  ⟨0x48, 1, 4, 1, 0, 0, 0, 0, 0, 0, 0x97⟩, -- EC_MIG_CMD
  ⟨0x4C, 1, 4, 1, 0x10000, 0, 0, 0, 0, 0, 0⟩, -- EC_MIG_STATUS
  ⟨0x50, 1, 4, 1, 0x64, 0, 0xFFFF, 0, 0, 0, 0⟩, -- EC_MIG_CFG
  ⟨0x54, 1, 4, 1, 0, 0, 0, 0, 0, 0, 0⟩, -- EC_UCODE
  ⟨0x58, 1, 4, 1, 0, 0, 0, 0, 0, 0, 0⟩, -- EC_CNT_MIG
  ⟨0x5C, 1, 4, 1, 0, 0, 0, 0, 0, 0, 0⟩] -- EC_CNT_TXDROP

/-- Registers of 0x100+e engine: offset, words, stride, count, reset, then the RW, RWS, RWL, W1C, W1S and WO bits. -/
def rows_en : List Row := [
  ⟨0x40, 1, 4, 1, 0, 0, 0, 7, 0, 0, 0x100⟩, -- EN_MODE
  ⟨0x44, 1, 4, 1, 0x80000000, 0, 0, 0, 0, 0, 0⟩, -- EN_STATUS
  ⟨0x48, 1, 4, 1, 0x80000000, 0, 0xC07FFFFF, 0, 0, 0, 0⟩, -- EN_RXDST
  ⟨0x4C, 1, 4, 1, 0x1003E8, 0, 0xFFFFFF, 0, 0, 0, 0⟩, -- EN_REC
  ⟨0x50, 1, 4, 4, 0, 0, 0, 0, 0, 0, 0⟩, -- EN_CNT
  ⟨0xA0, 1, 4, 1, 0, 0, 0, 0, 0, 0, 0⟩, -- EN_DI_COUNT
  ⟨0x8A0, 1, 4, 1, 0, 0, 0, 0, 0, 0, 0⟩] -- EN_DI_PEEK

/-- Registers of engine page, mode registers in ASYNC: offset, words, stride, count, reset, then the RW, RWS, RWL, W1C, W1S and WO bits. -/
def rows_en_as : List Row := [
  ⟨0x80, 1, 4, 1, 0x801003, 0, 0xFFF0FFFF, 0, 0, 0, 0⟩, -- AS_CFG
  ⟨0x84, 1, 4, 1, 0x196E6B, 0, 0xFFFFFFFF, 0, 0, 0, 0⟩, -- AS_BIT
  ⟨0x88, 1, 4, 1, 0x640064, 0, 0xFFFFFFFF, 0, 0, 0, 0⟩, -- AS_DE
  ⟨0x8C, 1, 4, 1, 0, 0, 0x1FFFF, 0, 0, 0, 0⟩] -- AS_ADDR

/-- Registers of engine page, mode registers in SYNC: offset, words, stride, count, reset, then the RW, RWS, RWL, W1C, W1S and WO bits. -/
def rows_en_sy : List Row := [
  ⟨0x80, 1, 4, 1, 0x410C03E8, 0, 0xFF1FFFFF, 0, 0, 0, 0⟩, -- SY_CFG
  ⟨0x84, 1, 4, 1, 0xF4240, 0, 0xFFFFFFFF, 0, 0, 0, 0⟩, -- SY_PERIOD
  ⟨0x88, 1, 4, 1, 0x640000, 0, 0xFFFFFFFF, 0, 0, 0, 0⟩, -- SY_SEL
  ⟨0x8C, 1, 4, 1, 0, 0, 0xFFFFFFFF, 0, 0, 0, 0⟩, -- SY_OFFSET
  ⟨0x90, 1, 4, 1, 0, 0, 0xFFF, 0, 0, 0, 0⟩, -- SY_DLY
  ⟨0x94, 1, 4, 1, 0, 0xFFFFFF, 0, 0, 0, 0, 0⟩, -- SY_DOUT
  ⟨0x98, 1, 4, 1, 0, 0, 0, 0, 0, 0, 1⟩, -- SY_CMD
  ⟨0x9C, 1, 4, 1, 0, 0, 0, 0, 0, 0, 0⟩] -- SY_LAST

/-- Registers of engine page, mode registers in DISC: offset, words, stride, count, reset, then the RW, RWS, RWL, W1C, W1S and WO bits. -/
def rows_en_di : List Row := [
  ⟨0x80, 1, 4, 1, 0x20000000, 0, 0xFE0FFFFF, 0, 0, 0, 0⟩, -- DI_CFG
  ⟨0x84, 1, 4, 1, 0, 3, 0, 0, 0, 0, 0⟩, -- DI_OUT
  ⟨0x88, 1, 4, 1, 0xF4240, 0, 0xFFFFFFFF, 0, 0, 0, 0⟩, -- DI_PWM_PERIOD
  ⟨0x8C, 1, 4, 1, 0x7A120, 0, 0xFFFFFFFF, 0, 0, 0, 0⟩, -- DI_PWM_HIGH
  ⟨0x90, 1, 4, 1, 0, 0, 0xFFFFFFFF, 0, 0, 0, 0⟩, -- DI_PWM_PHASE
  ⟨0x94, 1, 4, 1, 0, 0, 0, 0, 0, 0, 0⟩, -- DI_WIDTH
  ⟨0x98, 1, 4, 1, 0, 0, 0, 0, 0, 0, 0⟩] -- DI_PERIOD

/-- Registers of engine page, mode registers in PBUS: offset, words, stride, count, reset, then the RW, RWS, RWL, W1C, W1S and WO bits. -/
def rows_en_pb : List Row := [
  ⟨0x80, 1, 4, 1, 0xC000000, 0, 0xFF8FFF00, 0, 0, 0, 0⟩, -- PB_CFG
  ⟨0x84, 1, 4, 1, 0xC87450A, 0, 0xFFFFFFFF, 0, 0, 0, 0⟩, -- PB_NBT
  ⟨0x88, 1, 4, 1, 0x1972A800, 0, 0xFFFFF800, 0, 0, 0, 0⟩, -- PB_DBT
  ⟨0x8C, 1, 4, 1, 0, 0, 0, 0, 0, 0, 0⟩, -- PB_ERR
  ⟨0x90, 1, 4, 1, 0, 0, 0, 0, 0, 0, 7⟩, -- PB_CMD
  ⟨0x94, 1, 4, 1, 0, 0, 0, 0, 0, 0, 0⟩, -- PB_TT_STAT
  ⟨0x98, 1, 4, 1, 0, 0, 0, 0, 0, 0, 0⟩, -- PB_TT_OFFSET
  ⟨0x9C, 1, 4, 1, 0, 0, 0, 0, 0, 0, 0⟩, -- PB_CNT_ARB
  ⟨0x100, 1, 72, 8, 0, 0, 0xFFFFFFFF, 0, 0, 0, 0⟩, -- PB_SLOT_W0
  ⟨0x104, 1, 72, 8, 0, 0, 0x8000001F, 0, 0, 0, 0⟩, -- PB_SLOT_W1
  ⟨0x108, 16, 72, 8, 0, 0, 0xFFFFFFFF, 0, 0, 0, 0⟩, -- PB_SLOT_DATA
  ⟨0x340, 1, 4, 1, 0, 0, 0, 0, 0, 0, 0⟩, -- PB_CNT_RX
  ⟨0x344, 1, 4, 1, 0, 0, 0, 0, 0, 0, 0⟩] -- PB_CNT_TX

/-- Registers of 0x240+m schedule matrix: offset, words, stride, count, reset, then the RW, RWS, RWL, W1C, W1S and WO bits. -/
def rows_sm : List Row := [
  ⟨0x40, 1, 4, 1, 0, 0, 0x80001F07, 0, 0, 0, 0⟩, -- SM_OWNER
  ⟨0x44, 1, 4, 1, 0x10100, 0, 0xC07F1F00, 0, 0, 0, 0⟩, -- SM_CFG
  ⟨0x48, 1, 4, 1, 0xF4240, 0, 0xFFFFFFFF, 0, 0, 0, 0⟩, -- SM_CYCLE
  ⟨0x4C, 1, 4, 1, 0, 0, 0xFFFFFFFF, 0, 0, 0, 0⟩, -- SM_PHASE
  ⟨0x50, 1, 4, 1, 0x7D00000, 0, 0xFFFF07FF, 0, 0, 0, 0⟩, -- SM_REF
  ⟨0x100, 1, 4, 64, 0, 0, 0xFFFFFFFF, 0, 0, 0, 0⟩, -- SM_COL
  ⟨0x800, 1, 4, 512, 0x80008000, 0, 0xC007C007, 0, 0, 0, 0⟩] -- SM_CELL

/-- Registers of 0x200+k routing table: offset, words, stride, count, reset, then the RW, RWS, RWL, W1C, W1S and WO bits. -/
def rows_rt : List Row := [
  ⟨0x40, 1, 4, 1, 1, 1, 0, 0, 0, 0, 0⟩, -- RT_CTRL
  ⟨0x44, 1, 4, 1, 0, 0, 0, 0, 0, 0, 0⟩, -- RT_CNT_MISS
  ⟨0x48, 1, 4, 1, 0, 0, 0, 0, 0, 0, 0⟩, -- RT_CNT_DROP
  ⟨0x100, 1, 32, 64, 0, 0, 0xDFFFFFFF, 0, 0, 0, 0⟩, -- RT_MATCH
  ⟨0x104, 1, 32, 64, 0x1FFFFFFF, 0, 0x1FFFFFFF, 0, 0, 0, 0⟩, -- RT_MASK
  ⟨0x108, 1, 32, 64, 0, 0, 0x80001F07, 0, 0, 0, 0⟩, -- RT_SRC
  ⟨0x10C, 1, 32, 64, 0xC8000000, 0, 0xFFFFF3FF, 0, 0, 0, 0⟩, -- RT_DEST
  ⟨0x110, 1, 32, 64, 0, 0, 0xDFFFFFFF, 0, 0, 0, 0⟩, -- RT_XLATE
  ⟨0x114, 1, 32, 64, 0, 0, 0, 0, 0, 0, 0⟩] -- RT_HITS

/-- Registers of 0x280 memories: offset, words, stride, count, reset, then the RW, RWS, RWL, W1C, W1S and WO bits. -/
def rows_mem : List Row := [
  ⟨0x40, 1, 4, 1, 2, 2, 0, 0, 0, 0, 0x100⟩, -- MEM_CTRL
  ⟨0x44, 1, 4, 1, 0, 0, 0, 0, 0, 0, 0x800007F7⟩, -- MEM_BANK_CMD
  ⟨0x48, 1, 4, 1, 0, 0, 0, 0, 0, 0, 0⟩, -- MEM_BANK_CMD_STATUS
  ⟨0x4C, 1, 4, 1, 4, 0, 0xFF, 0, 0, 0, 0⟩, -- MEM_ECC_CFG
  ⟨0x50, 1, 4, 1, 0, 0, 0, 0, 0, 0, 0⟩, -- MEM_UE_LAST
  ⟨0x54, 1, 4, 1, 0, 0, 0, 0, 0, 0, 0xC000003F⟩, -- MEM_MARCH_CMD
  ⟨0x58, 1, 4, 1, 0, 0, 0, 0, 0, 0, 0⟩, -- MEM_MARCH_STATUS
  ⟨0x5C, 1, 4, 1, 0, 0, 0, 0, 0, 0, 0⟩, -- MEM_MARCH_FAIL
  ⟨0x60, 1, 4, 1, 0, 0, 0x80000037, 0, 0, 0, 0⟩, -- MEM_HIST_CFG
  ⟨0x64, 1, 4, 1, 0, 0, 0, 0, 0, 0, 0⟩, -- MEM_HIST_STAT
  ⟨0x68, 1, 4, 1, 0, 0, 0, 0, 0, 0, 0⟩, -- MEM_TBL
  ⟨0x6C, 1, 4, 1, 0, 0, 0, 0, 0, 0, 0⟩, -- MEM_CNT_FOREIGN
  ⟨0x70, 1, 4, 1, 0, 0, 0, 0, 0, 0, 0⟩, -- MEM_CAN_CNT
  ⟨0x80, 1, 16, 8, 0, 0, 0, 0, 0, 0, 0⟩, -- MEM_BANK_STAT
  ⟨0x84, 1, 16, 8, 0, 1, 0, 0, 0, 0, 0⟩, -- MEM_BANK_CFG
  ⟨0x88, 1, 16, 8, 0, 0, 0, 0, 0, 0, 0⟩] -- MEM_BANK_CNT

/-- Registers of 0x004 fault unit: offset, words, stride, count, reset, then the RW, RWS, RWL, W1C, W1S and WO bits. -/
def rows_ft : List Row := [
  ⟨0x40, 1, 4, 1, 2, 3, 0, 0, 0, 0, 0x100⟩, -- FT_CTRL
  ⟨0x44, 1, 4, 1, 0, 1, 0, 0, 0, 0, 0⟩, -- FT_ERR
  ⟨0x48, 1, 4, 1, 0, 0, 0, 0, 0, 0, 0⟩, -- FT_LAST
  ⟨0x4C, 1, 4, 1, 0, 0, 0, 0, 0, 0, 0⟩, -- FT_LAST_TIME
  ⟨0x50, 1, 4, 1, 0, 0, 0, 0, 0, 0, 0x800000FF⟩, -- FT_RELEASE
  ⟨0x54, 1, 4, 1, 0x69, 0, 0xFF, 0, 0, 0, 0⟩, -- FT_THERM
  ⟨0x58, 1, 4, 1, 0, 0, 0, 0, 0, 0, 0⟩, -- FT_CNT
  ⟨0x80, 1, 4, 8, 0, 0, 0, 0, 0xFFFFFFFF, 0, 0⟩, -- FT_STICKY
  ⟨0xA0, 1, 4, 8, 0, 0, 0, 0, 0, 0, 0⟩, -- FT_ISO
  ⟨0x400, 1, 4, 256, 0, 0, 0xFF77FFFF, 0, 0, 0, 0⟩, -- FT_SRC_CFG
  ⟨0xC00, 1, 4, 256, 0, 0, 0, 0, 0, 0, 0⟩] -- FT_SRC_CNT

/-- Registers of 0x005 wear and spares: offset, words, stride, count, reset, then the RW, RWS, RWL, W1C, W1S and WO bits. -/
def rows_wr : List Row := [
  ⟨0x40, 1, 4, 1, 0, 0, 0, 0, 0, 0, 0xF⟩, -- WR_CMD
  ⟨0x44, 1, 4, 1, 0x3F, 0x3F, 0, 0, 0, 0, 0⟩, -- WR_SPARE_EN
  ⟨0x48, 1, 4, 1, 0x3C1E, 0, 0xFFFFFF, 0, 0, 0, 0⟩, -- WR_RO_CFG
  ⟨0x4C, 1, 4, 1, 0xA0A0C, 0, 0xFFFFFF, 0, 0, 0, 0⟩, -- WR_EYE_CFG
  ⟨0x50, 1, 4, 1, 0x8000000A, 0, 0x8000FFFF, 0, 0, 0, 0⟩, -- WR_WW_CFG
  ⟨0x54, 1, 4, 1, 0x96000F, 0, 0x3FF003F, 0, 0, 0, 0⟩, -- WR_PLL_CFG
  ⟨0x58, 1, 4, 1, 0, 0, 0, 0, 0, 0, 0⟩, -- WR_REF_STATUS
  ⟨0x5C, 1, 4, 1, 0, 0, 0, 0, 0, 0, 0x80000001⟩, -- WR_REF_CMD
  ⟨0x60, 1, 4, 1, 0, 0, 0, 0, 0, 0, 0⟩, -- WR_PLL_STATUS
  ⟨0x64, 1, 4, 1, 0, 0, 0, 0, 0, 0, 0x8000000F⟩, -- WR_PLL_CMD
  ⟨0x68, 1, 4, 1, 0, 0, 0, 0, 0, 0, 0⟩, -- WR_BL_STATUS
  ⟨0x6C, 1, 4, 1, 0, 0, 0, 0, 0, 0, 0⟩, -- WR_LAST
  ⟨0x70, 1, 4, 1, 0, 0, 0, 0, 0, 0, 0⟩] -- WR_CNT

/-- Registers of 0x290 update: offset, words, stride, count, reset, then the RW, RWS, RWL, W1C, W1S and WO bits. -/
def rows_up : List Row := [
  ⟨0x40, 1, 4, 1, 0, 0, 0, 0, 0, 0, 3⟩, -- UP_CTRL
  ⟨0x44, 1, 4, 1, 0, 0, 0, 0, 0, 0, 0x8000000F⟩, -- UP_CMD
  ⟨0x48, 1, 4, 1, 0, 0x3FFFFF, 0, 0, 0, 0, 0⟩, -- UP_ADDR
  ⟨0x4C, 1, 4, 1, 0, 0xFFFFFFFF, 0, 0, 0, 0, 0⟩, -- UP_SEQ
  ⟨0x50, 1, 4, 1, 0, 0xFFFFFFFF, 0, 0, 0, 0, 0⟩, -- UP_EPOCH
  ⟨0x54, 1, 4, 1, 0x27101388, 0xFFFFFFFF, 0, 0, 0, 0, 0⟩, -- UP_CFG
  ⟨0x58, 1, 4, 1, 0, 0, 0, 0, 0, 0, 0⟩, -- UP_STATUS
  ⟨0x5C, 1, 4, 1, 0, 0, 0, 0, 0, 0, 0⟩, -- UP_FAIL
  ⟨0x60, 1, 4, 3, 0, 0, 0, 0, 0, 0, 0⟩, -- UP_VER
  ⟨0x70, 1, 4, 1, 0, 0, 0, 0, 0, 0, 0⟩, -- UP_FLOOR
  ⟨0x74, 1, 4, 1, 0, 0, 0, 0, 0, 0, 0⟩, -- UP_CNT
  ⟨0x80, 1, 4, 12, 0, 0, 0, 0, 0, 0, 0⟩, -- UP_MAP
  ⟨0x400, 1, 4, 128, 0, 0xFFFFFFFF, 0, 0, 0, 0, 0⟩] -- UP_WBUF

/-- The register rows of a kind of page. -/
def Kind.rows : Kind → List Row
  | .gs => rows_gs
  | .opt => rows_opt
  | .clk => rows_clk
  | .rp => rows_rp
  | .rc => rows_rc
  | .core => rows_core
  | .q => rows_q
  | .tm => rows_tm
  | .sc => rows_sc
  | .br => rows_br
  | .hp => rows_hp
  | .tw => rows_tw
  | .fd => rows_fd
  | .pp => rows_pp
  | .cl => rows_cl
  | .ec => rows_ec
  | .en => rows_en
  | .sm => rows_sm
  | .rt => rows_rt
  | .mem => rows_mem
  | .ft => rows_ft
  | .wr => rows_wr
  | .up => rows_up

end Sys2Proof.Machine
end

