-- ==== Sys2Proof/Machine/PageMap.lean ====
section
/-! DEFINITION. The page assignment (R48), the fault sources of the pages (R471), and the reset value of every register that
depends on its page or index. -/
namespace Sys2Proof.Machine

/-- The kind of block behind a page; `none` is an unlisted page (R35). -/
def kindOf (p : Nat) : Option Kind :=
  if p = 0x000 then some .gs else if p = 0x001 then some .opt else if p = 0x002 then some .clk
  else if p = 0x004 then some .ft else if p = 0x005 then some .wr
  else if p = 0x008 then some .rp else if p = 0x009 then some .rp else if p = 0x00A then some .rc
  else if p = 0x010 then some .core else if 0x011 ≤ p ∧ p ≤ 0x014 then some .q
  else if p = 0x018 then some .tm else if p = 0x01C then some .sc
  else if p = 0x020 then some .br else if p = 0x021 then some .hp else if p = 0x024 then some .tw
  else if p = 0x028 then some .fd else if 0x030 ≤ p ∧ p ≤ 0x047 then some .pp
  else if 0x050 ≤ p ∧ p ≤ 0x067 then some .cl else if 0x080 ≤ p ∧ p ≤ 0x097 then some .ec
  else if 0x100 ≤ p ∧ p ≤ 0x1D7 then some .en
  else if 0x200 ≤ p ∧ p ≤ 0x23F then some .rt else if 0x240 ≤ p ∧ p ≤ 0x27F then some .sm
  else if p = 0x280 then some .mem else if p = 0x290 then some .up else none

/-- The first page of each kind (R48). -/
def Kind.base : Kind → Nat
  | .gs => 0x000 | .opt => 0x001 | .clk => 0x002 | .ft => 0x004 | .wr => 0x005 | .rp => 0x008 | .rc => 0x00A
  | .core => 0x010 | .q => 0x011 | .tm => 0x018 | .sc => 0x01C | .br => 0x020 | .hp => 0x021 | .tw => 0x024
  | .fd => 0x028 | .pp => 0x030 | .cl => 0x050 | .ec => 0x080 | .en => 0x100 | .rt => 0x200 | .sm => 0x240
  | .mem => 0x280 | .up => 0x290

/-- BLOCK_TYPE of each kind (R48). -/
def Kind.blockType : Kind → Nat
  | .gs => 0x0001 | .opt => 0x0002 | .clk => 0x0003 | .ft => 0x0004 | .wr => 0x0005 | .rp => 0x0010 | .rc => 0x0011
  | .core => 0x0020 | .q => 0x0021 | .tm => 0x0030 | .sc => 0x0031 | .br => 0x0040 | .hp => 0x0041 | .tw => 0x0050
  | .fd => 0x0060 | .pp => 0x0061 | .cl => 0x0070 | .ec => 0x0080 | .en => 0x0081 | .rt => 0x0090 | .sm => 0x0091
  | .mem => 0x00A0 | .up => 0x00B0

/-- FAULT_LINK of a page: FIRST and COUNT (R471). -/
def faultLink (p : Nat) : Nat × Nat :=
  if p = 0x000 then (0x00, 4) else if p = 0x004 then (0x04, 4) else if p = 0x005 then (0x08, 8)
  else if p = 0x008 then (0x10, 10) else if p = 0x009 then (0x1A, 10) else if p = 0x00A then (0x24, 4)
  else if p = 0x010 then (0x28, 6) else if p = 0x011 then (0x2E, 1) else if p = 0x014 then (0x2F, 2)
  else if p = 0x018 then (0x31, 5) else if p = 0x01C then (0x36, 5) else if p = 0x020 then (0x3B, 6)
  else if p = 0x024 then (0x41, 6) else if p = 0x028 then (0x47, 4) else if p = 0x280 then (0x4B, 7)
  else if p = 0x290 then (0x52, 4) else if p = 0x200 then (0x56, 1)
  else if 0x030 ≤ p ∧ p ≤ 0x047 then (0x57 + 3 * (p - 0x030), 3)
  else if 0x050 ≤ p ∧ p ≤ 0x067 then (0x9F + 2 * (p - 0x050), 2)
  else if 0x080 ≤ p ∧ p ≤ 0x097 then (0xCF + 2 * (p - 0x080), 2)
  else (0x00, 0)

/-- The events of each kind of page that raise fault sources, in the order of R471 (a repeated place is one source raised by
two events); ENG_PARITY of a cluster page has no page event and is raised by name. Of the routing pages only page 0x200 has its event
RT_DROP, bit 8. -/
def Kind.faultEvents : Kind → List (Nat × Nat)
  | .gs => [(EV_GS_OPT_COMMIT_REFUSED, 0), (EV_GS_OPT_FALLBACK, 1), (EV_GS_REMOTE_AUTH_FAIL, 2),
            (EV_GS_FUSE_LEVEL_INVALID, 3)]
  | .ft => [(EV_FT_THERMAL_WARN, 0), (EV_FT_SUPPLY_WARN, 1), (EV_FT_SUPV_LINK_DOWN, 2), (EV_FT_SUPV_LINK_ERR, 3)]
  | .wr => [(EV_WR_REF_A_FAIL, 0), (EV_WR_REF_B_FAIL, 1), (EV_WR_PLL_SWITCH, 2), (EV_WR_PLL_BOTH_LOST, 3),
            (EV_WR_WEAR, 4), (EV_WR_SPARE_EXHAUSTED, 5), (EV_WR_BASELINE_BAD, 6), (EV_WR_REF_SWITCH, 7)]
  | .rp => [(EV_LN_LANE_FAULT, 0), (EV_LN_SPARE_LOST, 1), (EV_LN_LINK_DOWN, 2), (EV_LN_CAP_MISMATCH, 3),
            (EV_LN_ELASTIC_ERR, 4), (EV_RP_GUY_LOST, 5), (EV_RP_CREDIT_OVERRUN, 6), (EV_RP_FRAME_ERR, 7),
            (EV_RP_GRACE_FLUSH, 8), (EV_RP_PD_FAIL, 9)]
  | .rc => [(EV_RC_TOPO_CHANGE, 0), (EV_RC_HOLD_EXPIRED, 1), (EV_RC_NO_DEST, 2), (EV_RC_RESET_GROUP_DROP, 3)]
  | .core => [(EV_CORE_MULTICAST_PARTIAL, 0), (EV_CORE_POOL_EXHAUSTED, 1), (EV_CORE_ECC_CE, 2), (EV_CORE_ECC_UE, 3),
              (EV_CORE_LINK_UE, 4), (EV_CORE_SPARE_REFUSED, 5)]
  | .q => [(EV_Q_GRACE_FLUSH, 0), (EV_Q_MB_UNDERRUN, 0), (EV_Q_MB_OVERRUN, 1)]
  | .tm => [(EV_TM_A_HOLDOVER, 0), (EV_TM_A_STEP, 1), (EV_TM_B_HOLDOVER, 2), (EV_TM_B_STEP, 3), (EV_TM_SAMPLE_REJECT, 4)]
  | .sc => [(EV_SC_LATE_OUT, 0), (EV_SC_GAP, 1), (EV_SC_SKEW, 2), (EV_SC_BAD_FRAME, 3), (EV_SC_EARLY, 4)]
  | .br => [(EV_BR_LATE_WRITE, 0), (EV_BR_LOG_OVERFLOW, 1), (EV_BR_FENCE_FAIL, 2), (EV_BR_TIMEOUT, 3),
            (EV_BR_TAKE_LOST, 4), (EV_BR_LATE_CPL, 5)]
  | .tw => [(EV_LN_LANE_FAULT, 0), (EV_LN_LINK_DOWN, 1), (EV_TW_MIRROR_LAG, 2), (EV_TW_TWIN_LOST, 3),
            (EV_TW_SPLIT_BRAIN, 4), (EV_TW_CLAIM_UNREADY, 5)]
  | .fd => [(EV_FD_FEED_LOST, 0), (EV_FD_NO_FEED, 1), (EV_FD_FEED_OV, 2), (EV_FD_HU_LOW, 3)]
  | .mem => [(EV_MEM_ECC_CE, 0), (EV_MEM_ECC_UE, 1), (EV_MEM_MARCH_FAIL, 3), (EV_MEM_REPAIR_FULL, 4),
             (EV_MEM_TABLE_BAD, 5), (EV_MEM_HIST_MISSED, 6)]
  | .up => [(EV_UP_UPD_VERIFY_FAIL, 0), (EV_UP_UPD_REVERT, 1), (EV_UP_UPD_ROLLBACK_REFUSED, 2), (EV_UP_UPD_MRAM_FAIL, 3)]
  | .pp => [(EV_PP_TRIP, 0), (EV_PP_LATCHED, 1), (EV_PP_POLE_SHORT, 2), (EV_PP_POLE_OPEN, 2)]
  | .cl => [(EV_CL_LINK_DOWN, 0), (EV_CL_FRAME_ERR, 1)]
  | .ec => [(EV_EC_UCODE_BAD, 1)]
  | .opt => [] | .clk => [] | .hp => [] | .en => [] | .sm => []
  | .rt => [(8, 0)]

/-- The fault source that event `bit` of page `p` raises, if any (R471, R472). The queue pages share a kind, and only the
events of their own row count: page 0x011 has GRACE_FLUSH, page 0x014 the two mailbox events. -/
def faultSource (p bit : Nat) : Option Nat :=
  match kindOf p with
  | none => none
  | some k =>
    match k.faultEvents.find? (fun e => e.1 == bit) with
    | none => none
    | some e =>
      if k = .q then
        if p = 0x011 then (if bit = EV_Q_GRACE_FLUSH then some 0x2E else none)
        else if p = 0x014 then (if bit = EV_Q_GRACE_FLUSH then none else some (0x2F + e.2))
        else none
      else some ((faultLink p).1 + e.2)

/-- The event bits a page defines: the common bits [4:0] and its block events. Of the queue pages only page 0x011 has
GRACE_FLUSH and only page 0x014 the mailbox events; of the routing pages only page 0x200 has RT_DROP. -/
def evtMaskOf (p : Nat) : Nat :=
  match kindOf p with
  | none => 0
  | some k =>
    0x1F ||| (if k = .q then
      (1 <<< EV_Q_FLUSH_DONE) ||| (1 <<< EV_Q_FLUSH_IGNORED) ||| (1 <<< EV_Q_QRP_EMPTY) |||
      (if p = 0x011 then 1 <<< EV_Q_GRACE_FLUSH else 0) |||
      (if p = 0x014 then (1 <<< EV_Q_MB_UNDERRUN) ||| (1 <<< EV_Q_MB_OVERRUN) ||| (1 <<< EV_Q_MB_ARRIVE) else 0)
      else if p = 0x200 then 1 <<< 8
      else k.evtMask)

/-- COMPAT acts on the queue pages, the time page and the pitch power pages only (R61). -/
def compatPage (p : Nat) : Bool :=
  match kindOf p with
  | some .q => true | some .tm => true | some .pp => true | _ => false

/-- The reset value of FT_SRC_CFG of source `n` (the table above R489). -/
def ftSrcReset (n : Nat) : Nat :=
  if n = 0x2C then 0x014403E8
  else if 0xCF ≤ n ∧ n < 0xFF ∧ n % 2 = 1 then 0x010203E8
  else if (0x04 ≤ n ∧ n ≤ 0x0B) ∨ n = 0x0D ∨ n = 0x2B ∨ n = 0x4C ∨ n = 0x4D ∨ n = 0x51 ∨ (0x52 ≤ n ∧ n ≤ 0x55) ∨
      (0x59 ≤ n ∧ n ≤ 0x9E ∧ (n - 0x59) % 3 = 0) then 0x010103E8
  else if n = 0xFF then 0x000003E8
  else 0x100103E8

/-- The delivery map's reset entry `e` = CLASS × 64 + MTYPE (R183). -/
def delivReset (e : Nat) : Nat :=
  if e < 0x10 then 0x45                                   -- E 0x00-0x0F: port 5, scan
  else if e < 0x18 then 0x44                              -- E 0x10-0x17: port 4, lantern
  else if e < 0x20 then 0x43                              -- E 0x18-0x1F: port 3, bridge
  else if e < 0x28 then 0x80                              -- E 0x20-0x27: cluster named by STREAM
  else if 0x40 ≤ e ∧ e < 0x60 then 0x43                   -- T 0x00-0x1F: port 3, bridge
  else if 0x60 ≤ e ∧ e < 0x68 then 0x80                   -- T 0x20-0x27
  else if 0x80 ≤ e ∧ e < 0x90 then 0x44                   -- B 0x00-0x0F: port 4, lantern
  else if e = 0x90 then 0xC0                              -- B 0x10: queue of ARG
  else 0

/-- Reset value of QCFG of queue `q`: QMAX in bits [31:17], QMIN in bits [16:3]. -/
def qcfgReset (q : Nat) : Nat :=
  if q < 120 then (1024 <<< 17) ||| (8 <<< 3) else if q < 960 then 512 <<< 17 else (256 <<< 17) ||| (4 <<< 3)

/-- The register row of an offset of page `p`. Registers marked "page 0x011" or "page 0x014" are reserved on the other queue
pages, and those marked "page 0x200" on the other routing pages. -/
def rowOf (p off : Nat) : Option Row :=
  match kindOf p with
  | none => none
  | some k =>
    if k = .q ∧ p ≠ 0x011 ∧ (off = Q_GRACE ∨ off = Q_FROZEN ∨ off = Q_CNT_GRACE) then none
    else if k = .q ∧ p ≠ 0x014 ∧
        ((0x060 ≤ off ∧ off < 0x080) ∨ (0x200 ≤ off ∧ off < 0x400) ∨ (0xB00 ≤ off ∧ off < 0xC00)) then none
    else if k = .rt ∧ p ≠ 0x200 ∧ off < 0x100 then none
    else if k = .gs ∧ 0x200 ≤ off ∧ off < 0x400 then some ⟨0x200, 1, 4, 128, 0, 0, 0, 0, 0, 0, 0⟩  -- the recorder (R448)
    else rowAt k.rows off

/-- The reset value of a register, by its key `page × 4096 + offset`: the value of the spec's register tables, and where that
depends on the page or the index the value of the rule named beside it. -/
def resetWord (key : Nat) : Word :=
  let p := key / 4096
  let off := key % 4096
  BitVec.ofNat 32 (
    match kindOf p with
    | none => 0
    | some k =>
      if off = PAGE_ID then (k.blockType <<< 16) ||| (p - k.base)
      else if off = PAGE_VER then 0x0100
      else if off = PAGE_STATE then 0x0100
      else if off = FAULT_LINK then ((faultLink p).1 <<< 8) ||| (faultLink p).2
      else if off < 0x040 then 0
      else match k with
        | .core => if 0x200 ≤ off ∧ off < 0x300 then
              delivReset (off - 0x200) ||| (delivReset (off - 0x1FF) <<< 8) |||
              (delivReset (off - 0x1FE) <<< 16) ||| (delivReset (off - 0x1FD) <<< 24)
            else ((rowOf p off).map (·.reset)).getD 0
        | .q => if 0x400 ≤ off ∧ off < 0x800 then qcfgReset (256 * (p - 0x011) + (off - 0x400) / 4)
            else if off = QRP_SEL then (if p = 0x011 then 0x078 else 256 * (p - 0x011))
            else ((rowOf p off).map (·.reset)).getD 0
        | .ft => if 0x400 ≤ off ∧ off < 0x800 then ftSrcReset ((off - 0x400) / 4)
            else ((rowOf p off).map (·.reset)).getD 0
        | .mem => if 0x080 ≤ off ∧ off < 0x100 ∧ off % 16 = 0 then
              (let b := (off - 0x080) / 16; if b < 4 then 0 else if b < 7 then 1 else 2)
            else ((rowOf p off).map (·.reset)).getD 0
        | .pp => if off = PP_CURVE then 0x800003E8 ||| (0x3E8 <<< 20) else ((rowOf p off).map (·.reset)).getD 0
        | .br => if off = BR_WIN_BASE + 0x1F0 then 0xA8000000
            else if 0x100 ≤ off ∧ off < 0x300 ∧ off % 16 = 0 then 0x14000000
            else ((rowOf p off).map (·.reset)).getD 0
        | .hp => if off = HOST_PSEL then 0x80000000 else if off = HOST_PSEL + 4 then 0x80000001
            else ((rowOf p off).map (·.reset)).getD 0
        | .tm => if off = TM_D_CFG + 0x40 then 0x20017F7F else ((rowOf p off).map (·.reset)).getD 0
        | .en => if off = EN_STATUS then 0x80000000 ||| (((p - 0x100) % 9 % 8) <<< 8)
            else ((rowOf p off).map (·.reset)).getD 0
        | _ => ((rowOf p off).map (·.reset)).getD 0)

end Sys2Proof.Machine
end

