-- ==== Sys2Proof/Machine/Parts.lean ====
section
/-! DEFINITION. The parts of the hub's state that are not registers: frames, the groundsheet, the switch core and its queues,
the ports with lanes, the memories and the twin. Every field's default is its value after reset. -/
namespace Sys2Proof.Machine

/-! ### Frames -/

/-- The header of a ring frame (R124), without HCRC, which its sender computes (R125). -/
structure Hdr where
  cls : Cls := .E
  mtype : Nat := 0
  dir : Dir := .west
  dst : Nat := 0
  ll : Bool := false
  src : Nat := 0
  wraps : Nat := 0
  stream : Nat := 0
  arg : Nat := 0
deriving DecidableEq, Repr

/-- A frame: header and payload; `bad` is a trailer kept bad in forwarding (R125). -/
structure Frame where
  hdr : Hdr := {}
  payload : List Byte := []
  bad : Bool := false
  /-- The instant a time message crossed the receive pins, in 1/160 ns of local time (R332). -/
  tin : Option Int := none
deriving DecidableEq, Repr

/-- How a frame at a core port's ingress is delivered: for a frame from a ring port the copies R181 decides, the forwarded copy's
egress port and the consumed copy with the hold it falls under (R151); for one that the ring logic originates its queue (R541); for
every other port its ingress descriptor (R179). -/
inductive Route where
  | ring (fwd : Option RingPort) (consume : Bool) (hold : Option Nat)
  | logic (q : Nat)
  | desc (d : Nat)
deriving DecidableEq, Repr

/-- A frame at a core port's ingress, waiting to be written to the cell memory. -/
structure InFrame where
  frame : Frame := {}
  route : Route := .desc 0
  /-- The frame is an output of the routing unit, whose refusal counts in RT_CNT_DROP; it is the frame of BR_TXF_CMD. -/
  routed : Bool := false
  soft : Bool := false
deriving DecidableEq, Repr

/-- What an access ended with: a response code of R6, its data, and for the host port the cycle of its data phase (R540);
`none` where that cycle depends on when an answer from another hub or the groundsheet arrives. -/
structure Answer where
  rsp : Nat := 0
  data : Word := 0
  cycle : Option Nat := none
deriving DecidableEq, Repr

/-! ### Groundsheet (chapter 3) -/

/-- A recorded or pending reset: source code, level and detail byte (R65, R98). -/
structure ResetReq where
  cause : Nat := 0
  level : Nat := 0
  detail : Nat := 0
deriving DecidableEq, Repr

/-- The groundsheet's reset controller, reader and fuses. -/
structure Gs where
  /-- The power-on reset, RESET_N, the thermal trip and the clock loss that hold a reset asserted (R71, R77). -/
  por : Bool := true
  resetN : Bool := false
  thermal : Bool := false
  clockLoss : Bool := false
  /-- The reset sequence in progress (R76). -/
  seq : Option ResetReq := some { cause := 1, level := 0, detail := 0 }
  /-- The instant at which the sequence in progress, or the reset held back, was recognised (R76). -/
  seqAt : Nat := 0
  /-- A reset held back behind an MRAM write pulse (R78), and an L3 of the update page held back: RESET_BLOCK, or that of a source. -/
  deferred : Option ResetReq := none
  deferBlock : Option (Option ResetReq) := none
  /-- A supply is below its warning threshold: no new MRAM write pulse starts (R79); VDDIO33 is one of them (R101). -/
  supplyLow : Bool := false
  io33Low : Bool := false
  /-- The strap pins' levels, and the sampled straps (R59, R99). -/
  strapPins : Straps := ⟨false, false⟩
  straps : Straps := ⟨false, false⟩
  /-- AON count (48 bits) and its latched high half is GS_AON_HI; the part of the next count passed, in 1/32768 of a local cycle. -/
  aon : Nat := 0
  aonAcc : Nat := 0
  /-- The disturbance recorder's next entry, and word 1 of the entry last read (R448). -/
  distNext : Nat := 0
  distLatch : Option (Nat × Word) := none
  /-- The fuse array, and the words the groundsheet holds since the last FUSE state (R72, R100, R101). -/
  fuse : Map Word := [(2, 1), (7, 0x479D), (23, 0xC9DB)]
  fuseHeld : Map Word := []
  /-- The fuse bit being programmed (R101), and whether a request is for a floor (R507). -/
  prog : Option Nat := none
  /-- An ERR_N pulse runs, and the resets that reactions requested, asserted when it ends (R477, R479). -/
  errPulse : Bool := false
  errReset : List ResetReq := []
  /-- The local counter starts from 0 when a ring island is next released (R316). -/
  lcZero : Bool := true
  /-- Clusters whose loader runs (R254). -/
  loading : List Nat := []
  /-- FUSE has run since the last L0: pages 0x000-0x002 are READY and peg states are applied (R91, R95). -/
  fused : Bool := false
  /-- The reader: the level it runs for, the copy in use (0 A, 1 B), the copies tried, the next record. -/
  copy : Nat := 0
  tried : Bool := false
  record : Nat := 0
  /-- The next release position of R88. -/
  pos : Option Nat := none
  /-- CREDENTIAL of the image in use (R67). -/
  cred : List Byte := []
  /-- The lantern watchdog counts, and its last restart in local cycles (R70). -/
  wdog : Bool := false
  wdogAt : Nat := 0
  /-- HOST_CFG and FT_CTRL have been written since their blocks' last reset: their pins have left the peg state (R95). -/
  cfgHost : Bool := false
  cfgErr : Bool := false
deriving DecidableEq, Repr

/-- An island's reset synchronizer (R88, R89): released, or a release requested and waiting for the PLL. -/
structure Isl where
  rel : Bool := false
  req : Bool := false
deriving DecidableEq, Repr

/-! ### Switch core and queues (chapters 6 and 7) -/

/-- An entry of a link array (R166). -/
structure Link where
  next : Nat := 0
  last : Bool := false
  len : Nat := 0
deriving DecidableEq, Repr

/-- VERDICT of a frame record (R167). -/
inductive Verdict where
  | pending | good | bad
deriving DecidableEq, Repr

/-- A frame record (R167), with what R191 needs beside it: the copies admitted and whether the partial delivery was raised. -/
structure FRec where
  refs : Nat := 0
  verdict : Verdict := .pending
  ingress : Nat := 0
  cls : Cls := .E
  written : Nat := 0
  copies : Nat := 0
  partialSeen : Bool := false
deriving DecidableEq, Repr

/-- A queue entry (R203): its index in the entry array, head cell, item or frame copy, ring account, cut-through; the cells charged
for it (R175); how often it was moved at a wrap, so that it leaves turned (R148); the hold it falls under (R151); and for a copy to
the twin the mirrored queue it is for, which a QCOPY frame names (R407). NEXT is the entry after it in its queue's list. -/
structure QEnt where
  idx : Nat := 0
  cell : Nat := 0
  item : Bool := false
  acct : Bool := false
  ct : Bool := false
  n : Nat := 0
  moved : Nat := 0
  hold : Option Nat := none
  qcopy : Option Nat := none
deriving DecidableEq, Repr

/-- A queue (R205): its entries, oldest first; for a software queue the cells taken of the head frame, the next cell and the
CUT mark (R210, R219); for a mailbox the last value (R215), and the cell released by a take with the cycle of LC in which it was taken
(R208). -/
structure Que where
  ents : List QEnt := []
  taken : Nat := 0
  next : Nat := 0
  cut : Bool := false
  last : Word := 0
  popped : Option (Nat × Nat) := none
deriving DecidableEq, Repr

/-- The free list of a logical bank (R169): the rows never used since the last discard, from `fresh` on, then the rows
returned, oldest first. -/
structure Bank where
  fresh : Nat := 0
  back : List Nat := []
deriving DecidableEq, Repr

/-- A core port's ingress while it writes a frame: cells written, head cell, the cell before, the bytes still to write,
whether the frame is stored, the CELLS of its descriptor, and the cycles its next write has waited (R170). -/
structure Ing where
  busy : Bool := false
  k : Nat := 0
  head : Nat := 0
  prev : Nat := 0
  rest : List Byte := []
  stored : Bool := false
  cells : Nat := 0
  bad : Bool := false
  waits : Nat := 0
  /-- A PUBLISH frame of the scan unit: its publication, its epoch and FINAL (R353). -/
  pub : Option (Nat × Nat × Bool) := none
deriving DecidableEq, Repr

/-- A copy that an egress port is sending or a consumer is taking: its queue, cells read, the next cell, whether the last
one has been read, whether it ends bad, and the bytes read. -/
structure Eg where
  q : Nat := 0
  k : Nat := 0
  next : Nat := 0
  done : Bool := false
  bad : Bool := false
  bytes : List Byte := []
  /-- The instant its start column crosses the transmit pins, in 1/160 ns of local time (R318). -/
  start : Int := 0
deriving DecidableEq, Repr

/-- The switch core and the queue manager beside their registers. -/
structure CoreSt where
  /-- Data rows and link entries, by physical bank × 1024 + row. -/
  cells : Map (BitVec 192) := []
  links : Map Link := []
  /-- Frame records, by the cell index of the head cell. -/
  recs : Map FRec := []
  banks : Map Bank := []
  /-- The entry array's free list (R203). -/
  entFree : Bank := {}
  /-- The instants in cycles of LC of the corrected errors of each physical bank (R195). -/
  ceAt : Map (List Nat) := []
  /-- The logical bank that the port read of this core cycle reads (R169). -/
  readBank : Option Nat := none
  /-- Ingress and egress of the core ports. -/
  ing : Map Ing := []
  eg : Map (Option Eg) := []
  ques : Map Que := []
  /-- Twin and cluster ports lost (1), and lost beyond the grace interval (2) (R212). -/
  lost : Map Nat := []
  /-- The logical bank under replacement (R196), and the CAUSE its repair will carry (R466). -/
  repl : Option Nat := none
  spareCause : Nat := 0
  /-- Frames a local port's block has received from the core and not yet worked on, oldest first. -/
  inbox : Map (List Frame) := []
deriving DecidableEq, Repr

/-! ### Rings and twin link (chapters 4 and 5) -/

/-- The credit of one class on one link (R136, R137): SENT and LIMIT as sender; as receiver the LIMIT advertised, FREED, the cells withheld after a lowered GRANT, and the cells received since the last INIT. -/
structure Cr where
  sent : Nat := 0
  limit : Nat := 0
  lim : Nat := 0
  freed : Nat := 0
  withheld : Nat := 0
  recv : Nat := 0
deriving DecidableEq, Repr

/-- A lane port beside its registers. -/
structure Port where
  /-- Merge buffer (R135) and link-local frames of the port logic (R133), oldest first. -/
  merge : List Frame := []
  ll : List Frame := []
  /-- T and B frames sent in the current round of R133. -/
  rrT : Nat := 0
  rrB : Nat := 0
  /-- Bytes of the last frame put on the lanes. -/
  tx : List Byte := []
  /-- A CREDIT frame with INIT is due (R137). -/
  initDue : Bool := false
  /-- GUY sequence number; a GUY frame has been received since the last L0 or L1 reset. -/
  guySeq : Nat := 0
  guyEver : Bool := false
  /-- The grace interval of R154: 0 not running, 1 running, 2 expired while the port is still out of ACTIVE. -/
  grace : Nat := 0
  /-- Bring-up (R108, R109, R111): valid TS counts by lane; the lanes, as bits, that have shown the TS of each SEQ whose column is not
  complete; aligned columns and TS with RX_OK and CAP_OK seen in a row; the previous block and its acceptance; a block of another
  pairing has come; TSCODE 3 is being sent. RX_OK and CAP_OK of the TS sent are `rxOk` and `capOk`. -/
  lockCnt : Map Nat := []
  rxOk : Bool := false
  cols : Map Nat := []
  aligned : Nat := 0
  partnerRx : Nat := 0
  partnerCap : Nat := 0
  capPrev : List Byte := []
  capOk : Bool := false
  mismatch : Bool := false
  entering : Bool := false
  /-- The instants in cycles of LC of each lane's code violations (R118). -/
  cvAt : Map (List Nat) := []
  txLocked : Nat := 0
  /-- The previous capability exchange since the last L0 or L1 reset (R113): serial and hub byte. -/
  partner : Option (Nat × Nat) := none
  /-- Lane sparing (R120, R121). As receiver: the lane to be replaced, the sequence number, the attempts made, an urgent
  substitution in progress, comparison started. As transmitter: the lane bridged. -/
  rxSub : Option Nat := none
  subSeq : Nat := 0
  tries : Nat := 0
  cause : Nat := 0
  urgent : Bool := false
  txSub : Option Nat := none
  /-- The spare lane of each direction. -/
  rxSpare : Option Nat := none
  txSpare : Option Nat := none
  /-- TSCODE 5 or 6 of the one TS after which a lane carries data again (R120). -/
  tscode : Map Nat := []
  /-- A write of PORT_EN 0 waits for the frame in progress (R108). -/
  offReq : Bool := false
  /-- Clock-compensation sets sent (R114). -/
  ccTx : Nat := 0
  /-- Peer delay (R335, R336): SEQ of the next request, the request outstanding with its stamp t1 in 1/160 ns, the samples
  accepted (at most 16, newest first), the rejections in a row, and the last /TM/ sent. -/
  pdSeq : Nat := 0
  pdSent : Option (Nat × Int) := none
  pdHist : List Nat := []
  pdRej : Nat := 0
  tm : List Byte := []
deriving DecidableEq, Repr

/-- What a hub keeps for one class and source (R151): the recorded port, whether a fence has arrived on it since, and the
open hold. -/
structure Flow where
  port : Option RingPort := none
  fence : Bool := false
  hold : Option Nat := none
deriving DecidableEq, Repr

/-- The rings beside their registers. -/
structure Ring where
  ports : Map Port := []
  /-- Credit by lane port × 4 + CLASS. -/
  cred : Map Cr := []
  /-- By CLASS × 128 + source. -/
  flows : Map Flow := []
  holdNo : Nat := 0
  fseq : Nat := 0
deriving DecidableEq, Repr

/-! ### Card links and engines (chapters 8 to 10) -/

/-- What the card quad hands an engine for one frame (R255, R256): a gap marker, or the report with its glitch flag; `base` is the
start of the input interval, in 1/160 ns of local time. -/
structure Rep where
  gap : Bool := false
  level : Bool := false
  edge : Bool := false
  glitch : Bool := false
  fine : Nat := 0
  base : Int := 0
deriving DecidableEq, Repr

/-- An output change wanted at an instant of local time (R228), on the line of channel `chan` of the pitch. -/
structure Place where
  at0 : Int := 0
  level : Bool := false
  en : Bool := false
deriving DecidableEq, Repr

/-- A card link beside its registers: probes with termination in a row; runs of valid training frames, of LOCKED seen, of bad
frames and of RX_OK 0; LOOP samples and tries; FCNT and whether LOOP has been measured; frame positions sent and expected; the
instants outbound syncs left by position; the last ROLL_CALL block; the outbound block, its SEQ, the HUB_HELLO blocks due, the
superframes since ACTIVE was entered and the relay blocks waiting; superframes since the safe image was to be checked; superframes
of loop drift; the last frame sent. -/
structure Card where
  probes : Nat := 0
  lock : Nat := 0
  seen : Nat := 0
  badRun : Nat := 0
  farRun : Nat := 0
  samples : List Nat := []
  tries : Nat := 0
  fcnt : Nat := 0
  looped : Bool := false
  txPos : Nat := 0
  rxPos : Nat := 0
  sentAt : Map Int := []
  roll : List Byte := []
  outSeq : Nat := 0
  block : List Byte := []
  hello : Nat := 0
  sf : Nat := 0
  relay : List (List Byte) := []
  /-- The check of CL_SAFE (R247): the superframes since it began, and whether a STATUS block has come since. -/
  safeAge : Option Nat := none
  statSeen : Bool := false
  drift : Nat := 0
  tx : List Byte := []
  /-- Firmware relay (R504, R505): the serial number when it began (none: the pitch is not relayed); the
  last RL_STATUS, STATE and NEXT; the offset of the next RL_DATA; RL_CHECK has been sent. -/
  rlSn : Option Nat := none
  rlState : Nat := 0
  rlNext : Nat := 0
  rlOff : Option Nat := none
  rlCheck : Bool := false
  /-- The last input interval judged at each position: its start and whether its report was good. -/
  judged : Map (Int × Bool) := []
deriving DecidableEq, Repr

/-- A record being assembled (R258): its type, FLAGS, and its items, each with its instant in 1/160 ns of local time. The first
item's instant is the record's TS. -/
structure RecBuf where
  rtype : Nat := 0
  flags : Nat := 0
  items : List (Int × List Byte) := []
deriving DecidableEq, Repr

/-- A character being received (R264): its start edge, the next bit to judge, the bits judged and NOISE. -/
structure AsyncRx where
  start : Int := 0
  i : Nat := 0
  bits : Nat := 0
  noise : Bool := false
deriving DecidableEq, Repr

/-- A SYNC transfer (R270): its start and its bits so far. -/
structure Xfer where
  t0 : Int := 0
  i : Nat := 0
  bits : Nat := 0
deriving DecidableEq, Repr

/-! ### PBUS (chapter 10) -/

/-- A frame being parsed: its bits without stuff bits, those up to the CRC with them, the level and the length of the last run, the
stuff bits, and the bits of an FD frame's CRC field. -/
structure PbRx where
  bits : List Bool := []
  raw : List Bool := []
  prev : Bool := true
  run : Nat := 0
  stuff : Nat := 0
  fix : Nat := 0
deriving DecidableEq, Repr

/-- What a PBUS engine does with the bus: nothing but waiting for 11 recessive bits in a row; bus idle; the bits of a frame up to its CRC;
its CRC delimiter, acknowledge slot and delimiter, and end; an error or overload flag, what follows it up to the first recessive bit, and
the delimiter; intermission; and the suspension of a transmitter that is error-passive. -/
inductive PbPhase where
  | integrate | idle | frame | crcDel | ack | ackDel | eof | flag | after | delim | inter | suspend
deriving DecidableEq, Repr

/-- A flag being sent: the active or the passive error flag, or the overload flag. -/
inductive PbFlag where
  | active | passive | overload
deriving DecidableEq, Repr

/-- A PBUS engine's bit machine (R288-R299). A level is true where the bus is recessive. -/
structure Pb where
  /-- The phase, and the bits counted in it. -/
  ph : PbPhase := .integrate
  k : Nat := 0
  /-- The bit in progress, or after its sample point the next one: its start, its sample point, and whether it is a data bit. -/
  b0 : Int := 0
  x : Option Int := none
  fast : Bool := false
  /-- The bus has been synchronised since the last sample point; the level judged there; the engine's own output. -/
  sync : Bool := false
  last : Bool := true
  out : Bool := true
  /-- The instant of an own start of frame that does not follow the bits in progress. -/
  start : Option Int := none
  /-- The frame in progress: its start of frame, its bits, whether its CRC was wrong, and whether it has been acknowledged. -/
  sof : Int := 0
  rx : PbRx := {}
  bad : Bool := false
  ackd : Bool := false
  /-- The engine is the frame's transmitter, of an extended frame, with these bits still to send; the bits to be judged at their
  secondary sample points; the instant of the res edge it has placed (R291). -/
  tx : Bool := false
  ide : Bool := false
  send : List Bool := []
  ssp : List (Int × Bool) := []
  res : Option Int := none
  /-- The flag being sent; the acknowledge error of an error-passive transmitter, which counts only with a dominant bit after it. -/
  flag : PbFlag := .active
  ackErr : Bool := false
  /-- The report taken last held the third bit of intermission, judged recessive (R299). -/
  bnd : Bool := false
deriving DecidableEq, Repr

/-- A channel as its engine works it, beside the engine page's registers. -/
structure Chan where
  /-- Reports not yet taken, oldest first; the level the last one ended with, unless a gap followed. -/
  reps : List Rep := []
  prev : Option Bool := none
  lvl : Option Bool := none
  /-- The output in force and the changes wanted (R228). -/
  outLvl : Bool := false
  outEn : Bool := false
  due : List Place := []
  /-- Transmit FIFO: one entry an item, with the instant a scheduled item names (R257, R260, R261). -/
  fifo : List (Int × List Byte) := []
  /-- The record being assembled, and the closed ones that a hub holds, oldest first (R404, R410). -/
  buf : Option RecBuf := none
  recs : List RecBuf := []
  /-- ASYNC receiver: the character in progress; waiting for mark after a break; the instant since which the line has been at mark
  after a gap; the last stop bit's centre; an address character has been seen, and its message is kept. -/
  rx : Option AsyncRx := none
  brk : Bool := false
  wait : Option Int := none
  stopAt : Option Int := none
  addrSeen : Bool := false
  keep : Bool := false
  /-- ASYNC transmitter: the end of the last character's stop bits; the driver is enabled in half duplex, when it was enabled, and until
  when the receiver ignores its input; the next record takes CONT. -/
  txEnd : Option Int := none
  de : Bool := false
  deFrom : Option Int := none
  deaf : Option Int := none
  cont : Bool := false
  /-- SYNC: the transfer in progress and the earliest start of the next. -/
  xfer : Option Xfer := none
  nextOk : Int := 0
  /-- The end of the last report's interval. DISC: the accepted level; a change being debounced with its stamp; the last accepted rise;
  what a latch may take (R351): instants with a level or sample and a count or OK. -/
  upto : Int := 0
  acc : Option Bool := none
  deb : Option (Int × Bool) := none
  rise : Option Int := none
  hist : List (Int × Nat × Nat) := []
  /-- DISC outputs: the duty in use, and those from the canopy with the service time in ns from which each applies; the last scheduled
  item; the next PWM period in ns of service time. -/
  duty : Nat := 0
  dutyNew : List (Int × Nat) := []
  lastItem : Option Int := none
  pwmNext : Option Int := none
  /-- PBUS: the bit machine; the message being sent and where from (none: the FIFO; some: a slot, 8 the reference), its start of frame,
  the attempts of the head message; messages received, as items with their start of frame, not yet handed to their lookup; occurrences
  of 11 recessive bits; FLUSH waiting for the boundary. -/
  pb : Pb := {}
  tx : Option (Option Nat × Int) := none
  attempts : Nat := 0
  got : List (Int × List Byte) := []
  rec11 : Nat := 0
  flush : Bool := false
  /-- Schedule: the start of the basic cycle in local time; the reference is due; start and end of the ARBITRATE column in progress; the next
  column; and the next basic cycle, or the expected start of a reference, in ns of service time. -/
  cycle : Option Int := none
  refDue : Bool := false
  arb : Option (Int × Int) := none
  col : Option Nat := none
  ttNext : Option Int := none
  /-- A migration of the channel: urgent, and the CAUSE of its repair entry (R281, R466). -/
  mig : Option (Bool × Nat) := none
  /-- A mirrored channel: items taken from the transmit FIFO since release, and the instant of the last item sent (R404). -/
  taken : Nat := 0
  sentTs : Option Int := none
deriving DecidableEq, Repr

/-- A message waiting for its lookup or being looked up (R311): its pitch, channel, item bytes of R300 with TIME 0, and the stamp of
its start of frame. -/
structure Look where
  pitch : Nat := 0
  chan : Nat := 0
  item : List Byte := []
  sof : Int := 0
deriving DecidableEq, Repr

/-! ### Canopy and scan unit (chapter 12) -/

/-- The words one initiator has collected for a packed write (R26): image, group, the words written as bits, and the bytes written with
their values. -/
structure Pack where
  img : Image := .input
  group : Nat := 0
  got : Nat := 0
  mask : BitVec 96 := 0
  val : BitVec 96 := 0
deriving DecidableEq, Repr

/-- The scan unit beside its registers. -/
structure ScanSt where
  /-- The visible copies, and the hidden copies written since the last boundary, by image × 4096 + group (R345). -/
  vis : Map (BitVec 96) := []
  hid : Map (Option (BitVec 96)) := []
  /-- The boundary of the epoch in progress, in ns of service time; writes held in the guard, oldest first, as a group key with the grains'
  mask and values, and the accesses that wait for them, with the request of another hub (R347). -/
  bnd : Int := 0
  held : List (Nat × BitVec 96 × BitVec 96) := []
  waits : List (Initiator × Option Frame) := []
  /-- Groups received by subscription × 4096 + group (R355); packed writes and snapshots by initiator (R26, R27). -/
  got : List Nat := []
  packs : Map (Option Pack) := []
  snaps : Map (Option (Nat × BitVec 96)) := []
  /-- The next boundary, in ns of service time, and the epoch number of the first one (R342). -/
  next : Int := 0
  first : Nat := 0
  /-- Gaps, as pitch and start of the interval; channels marked late in the epoch in progress and in the one before (R349); the RUN, MODE
  and SY_OK bits of each channel's status grain at the boundary, with bit 0 for a link in ACTIVE; a latch that is due. -/
  gaps : List (Nat × Int) := []
  late : List Nat := []
  lateWas : List Nat := []
  stat : Map Nat := []
  latchDue : Bool := false
  /-- Which of a group's two copies is the visible one, and the copies holding an uncorrectable and a correctable error, by image × 8192 +
  copy × 4096 + group (R458). -/
  ptr : Map Bool := []
  ue : List Nat := []
  ce : List Nat := []
  /-- MEM_HIST_CFG as the last boundary found it (R469). -/
  hist : Word := 0
deriving DecidableEq, Repr

/-! ### Memories (chapter 16) -/

/-- A march run (R460-R465): its target (0 bank, 1 all scratchpad, 2 cell memory, 3 canopy), bank and kind; the rows a preserving run
has finished; a requested abort; a row has failed, and the cell banks with failing rows. -/
structure March where
  target : Nat := 0
  bank : Nat := 0
  destruct : Bool := false
  next : Nat := 0
  abort : Bool := false
  failed : Bool := false
  cellBanks : List Nat := []
deriving DecidableEq, Repr

/-- A scratchpad bank beside its registers: rows moved to spare rows, and spare rows that are unusable (R464); corrected errors
tracked by row (R459); the command draining, as OP and ARG (R454, R455); OFF, and being written with 0 (R455); not ready until a
destructive run completes (R461, R465). -/
structure SpBank where
  moved : List (Nat × Nat) := []
  badSpare : List Nat := []
  track : List (Nat × Nat) := []
  drain : Option (Nat × Nat) := none
  off : Bool := false
  filling : Bool := false
  notReady : Bool := false
deriving DecidableEq, Repr

/-- A scratchpad access held for a bank's new owner (R454): its initiator, for a request from another hub the request, and whether its initiator
abandoned it. -/
structure SpHold where
  who : Initiator := .host
  addr : Nat := 0
  write : Bool := false
  data : Word := 0
  be : BitVec 4 := 0
  req : Option Frame := none
  gone : Bool := false
deriving DecidableEq, Repr

/-- The memories beside their registers. -/
structure MemSt where
  march : Option March := none
  /-- Memories whose power-on run has not ended (R462): 0 scratchpad, 1 cell memory, 2 canopy. -/
  powerOn : List Nat := [0, 1, 2]
  /-- The cell memory and the canopy stay not ready until a destructive run completes (R461, R465). -/
  cellsUnready : Bool := false
  canopyUnready : Bool := false
  banks : Map SpBank := []
  /-- Scratchpad words by word number, 16,384 to a bank; an unlisted word reads 0. -/
  sp : Map Word := []
  /-- Scratchpad words holding an uncorrectable error, and words holding a correctable one (R458). -/
  spUe : List Nat := []
  spCe : List Nat := []
  /-- Row repairs requested, oldest first: bank, row and CAUSE (R464). -/
  repairs : List (Nat × Nat × Nat) := []
  /-- Accesses held for a new owner, in order of arrival (R454). -/
  held : List SpHold := []
deriving DecidableEq, Repr

/-! ### Time (chapter 11) -/

/-- A time domain beside its registers (R319, R321-R323). OFFSET in 2^-16 ns, unwrapped; ACC in 2^-16/(5·2^29) ns; the anchor and
the stamp of the reference sample in 1/160 ns of local time; the correction of ERA; the runs of used samples within and beyond
LOCK_NS; the SEQs of the last 4 samples judged from MASTER and from BACKUP; whether a sample from MASTER has been used within
TIMEOUT; the samples from MASTER counted while a ROLE 3 domain is in MASTER; SEQ of the next SYNC. -/
structure Dom where
  off : Int := 0
  acc : Int := 0
  anchor : Int := 0
  eraAdj : Int := 0
  ref : Option Int := none
  good : Nat := 0
  bad : Nat := 0
  seenM : List Nat := []
  seenB : List Nat := []
  recent : Bool := false
  mcount : Nat := 0
  seq : Nat := 0
deriving DecidableEq, Repr

/-- The time island: the domains, and service time's residual at its anchor, in 2^-16/(5·2^29) ns and 1/160 ns, with the whole
multiple of 2^32 ns between service time and the selected domain (R324, R325). -/
structure TmSt where
  doms : Map Dom := []
  res0 : Int := 0
  anchor : Int := 0
  stAdj : Int := 0
deriving DecidableEq, Repr

/-! ### Twin (chapter 14) -/

/-- An entry of the mirror stream waiting to be sent (R400): its KIND, its epoch and its bytes. -/
structure MEntry where
  kind : Nat := 0
  epoch : Nat := 0
  bytes : List Byte := []
deriving DecidableEq, Repr

/-- The twin block beside its registers. -/
structure Tw where
  /-- Mirror entries not yet sent, oldest first; MSEQ of the last MIRROR frame sent; frames sent and not acknowledged, with their
  entries; SNAP_END has not been acknowledged (R406, R408). -/
  entries : List MEntry := []
  mseq : Nat := 0
  sentQ : List (Nat × Nat) := []
  snap : Bool := false
  /-- A TGUY frame has arrived within TIMEOUT; the twin is silent (R399); sequence of the next TGUY. -/
  guy : Bool := false
  silent : Bool := true
  seq : Nat := 0
  /-- Frames the port logic has received and not yet worked on, oldest first; frames go alternately from the mirror and from classes M,
  T and B (R398). -/
  inbox : List Frame := []
  turn : Bool := false
  /-- The standby has accepted a swap and sends ACTIVE 1; the pitches the old active hub still holds in a quiet hold; the swap proposed
  or accepted, as its epoch and whether it has been accepted; the new active hub waits for its cards (R411, R412). -/
  swapYes : Bool := false
  quiet : List Nat := []
  swap : Option (Nat × Bool) := none
  newSwap : Bool := false
  /-- As standby: last MSEQ applied; a resync is to be requested; the queue of a QCOPY whose copy follows; pops owed by queue (R407); a
  canopy entry came late in this epoch, and in the last; every condition has held since the last boundary (R409); the last STATE and
  TIME entries; engine states waiting for their boundary, by channel (R404). -/
  rseq : Option Nat := none
  resyncReq : Bool := false
  qcopy : Option Nat := none
  owed : Map Nat := []
  canLate : Bool := false
  canBad : Bool := false
  lagOk : Bool := false
  links : Nat := 0
  peer : Option (Nat × Nat × Nat) := none
  eng : Map (List Byte) := []
deriving DecidableEq, Repr

/-! ### Pitch power and feeds (chapter 15) -/

/-- A pitch power channel beside its registers (R425-R437): the breaker timers by point, in µs; samples in a row with the bus
outside the window; INSERT waits without the insertion delay; samples in a row with the insertion condition met; the configuration words kept in force after an L3
of the page (R75); a capture in progress, as measurements taken and their sum. -/
structure Pwr where
  timers : Map Nat := []
  out : Nat := 0
  fast : Bool := false
  ins : Nat := 0
  kept : Option (Map Word) := none
  capture : Option (Nat × Nat) := none
deriving DecidableEq, Repr

/-- A disturbance of a feed in progress (R447): the AON count at its start, its lowest and highest sample, its samples so far,
the samples up to the last one outside the window, whether it was below UV and above OV. -/
structure Disturb where
  aon : Nat := 0
  lo : Nat := 0
  hi : Nat := 0
  n : Nat := 0
  last : Nat := 0
  below : Bool := false
  above : Bool := false
deriving DecidableEq, Repr

/-- A feed beside its registers: its last sample, samples in a row inside the inner window and outside the window, and its
disturbance. -/
structure FeedSt where
  v : Nat := 0
  inside : Nat := 0
  out : Nat := 0
  dist : Option Disturb := none
deriving DecidableEq, Repr

/-- The feeds beside page 0x028 (R441-R444): each feed, the last samples of the bus and of the hold-up capacitor, a changeover in its
dead time, and the words of the page in force where a reset has taken the registers back (R75). -/
structure Feeds where
  a : FeedSt := {}
  b : FeedSt := {}
  vbus : Nat := 0
  hu : Nat := 0
  dead : Bool := false
  kept : Option (Map Word) := none
deriving DecidableEq, Repr

/-- A write on its way to the supervisor die (R12). -/
structure SupWrite where
  page : Nat := 0
  off : Nat := 0
  v : Word := 0
deriving DecidableEq, Repr

/-- The control link and the supervisor die's side of it: writes on their way, oldest first; the status copy that the logic die's
reads return (R12), with the shadows of the same instant; the last twin role received (R423); the link is up. -/
structure Supv where
  queue : List SupWrite := []
  copy : Map Word := []
  copySh : Map Word := []
  role : Nat := 0
  link : Bool := false
  pwr : Map Pwr := []
  fd : Feeds := {}
deriving DecidableEq, Repr

/-! ### Bridge, host port and SPI (chapter 13) -/

/-- What waits for an outgoing tag's completion (R368): a held access, a held-read slot, a window's fence, or a register of the twin
that the update block polls (R500), or nobody since its initiator abandoned it: the hub and offset it reaches (R393). -/
inductive Holder where
  | access (who : Initiator)
  | slot (k : Nat)
  | fence (win : Nat)
  | poll (reg : Nat)
  | gone (hub off : Nat) (write : Bool)
deriving DecidableEq, Repr

/-- A forwarded non-posted request (R368): its window, what waits for it, its frame with DST the target hub and the offset of the
word; and whether it is a fence asked for while a commit held the window (R367). -/
structure Fwd where
  win : Nat := 0
  holder : Holder := .access .host
  frame : Frame := {}
  late : Bool := false
deriving DecidableEq, Repr

/-- Where the request of an outgoing tag is (R369, R370, R542): not yet admitted by the core, sent, answered with RETRY, or ended and
quarantined. -/
inductive TagPhase where
  | unsent | sent | again | quarantined
deriving DecidableEq, Repr

/-- An outgoing tag (R368). -/
structure Txn where
  fwd : Fwd := {}
  phase : TagPhase := .unsent
deriving DecidableEq, Repr

/-- A held-read slot (R377): its port, the fabric address, direction, data and byte enables of its key, the translated hub and offset,
its window, its state, what it holds, its tag, and the instant its lifetime began. -/
structure Slot where
  spi : Bool := false
  addr : Nat := 0
  write : Bool := false
  data : Word := 0
  be : BitVec 4 := 0
  hub : Nat := 0
  off : Nat := 0
  win : Nat := 0
  state : Nat := 0
  rsp : Nat := 0
  held : Word := 0
  tag : Nat := 0
  born : Int := 0
deriving DecidableEq, Repr

/-- The access last begun at the host or SPI port (R392, R394): the hub and offset it reaches, its direction, and whether its answer is
known. -/
structure Acc where
  hub : Nat := 0
  off : Nat := 0
  write : Bool := false
  done : Bool := false
deriving DecidableEq, Repr

/-- An entry of the sequence table (R381). -/
structure SeqEnt where
  wseq : Nat := 0
  valid : Bool := false
  gap : Bool := false
deriving DecidableEq, Repr

/-- The bridge beside its registers: outgoing tags; slots; requests waiting for a tag, oldest first; incoming non-posted requests being
served that have not ended; the sequence table by source × 32 + window; windows whose next posted write needs no SYNC, and windows
that have sent a posted write since their last fence; far fences waiting, oldest first. -/
structure BrSt where
  tags : Map (Option Txn) := []
  slots : Map (Option Slot) := []
  waits : List Fwd := []
  serving : List Frame := []
  seq : Map SeqEnt := []
  synced : List Nat := []
  posted : List Nat := []
  farFences : List Frame := []
deriving DecidableEq, Repr

/-! ### Update (chapter 18) -/

/-- A command of the update block that runs (R496, R497, R508): its OP, the MRAM address and bytes of a write, for a write of a
slot the chunk, and whether its write pulses could start (R78, R79). -/
structure UpJob where
  op : Nat := 0
  addr : Nat := 0
  bytes : List Byte := []
  chunk : Nat := 0
  started : Bool := false
deriving DecidableEq, Repr

/-! ### Faults and wear (chapter 17) -/

/-- The fault unit beside its registers: the opening instants of the open windows (R473), and THERMAL_WARN raised and not yet re-armed
(R488). -/
structure Ft where
  win : Map (Option Int) := []
  warm : Bool := false
deriving DecidableEq, Repr

/-- The wear unit beside its registers: units whose wear event has been raised, as KIND × 4096 + unit (R482); consecutive low
measurements by the same key (R480); the baselines in use with their temperature, by KIND × 4096 + unit (R486); captured values with
theirs; references that have failed; the baseline table being stored. -/
structure Wr where
  worn : List Nat := []
  runs : Map Nat := []
  base : Map Nat := []
  tj : Option Int := none
  capt : Option (Int × List (Nat × Nat)) := none
  refBad : List Nat := []
  store : Option UpJob := none
deriving DecidableEq, Repr

/-- The update block beside its registers. The update state in MRAM: the strike record's ACTIVE, STATE TRIAL and MAN_SEQ (R498), and
the manifest sequence loaded by CLEAR (R496). The command that runs; the lantern has confirmed (R501); the epoch of an armed strike, and
whether the twin has struck and this hub waits for its turn (R500). The twin's UP_SEQ and UP_EPOCH as last read, and which of its UP_VER
agree with this hub's. A switchover this block requested; an ACTIVE hub that has failed waits for SWAP_DONE (R503); a failure has
requested its reset (R502). The pitches being relayed to, whether RL_ACTIVATE has been sent, and those that have yet to
send RL_REVERT before this hub fails (R504); a floor is to be raised again
after an L0 reset (R507). -/
structure Up where
  active : Nat := 0
  trial : Bool := false
  recSeq : Nat := 0
  seq : Nat := 0
  job : Option UpJob := none
  confirmed : Bool := false
  strikeAt : Option Nat := none
  turn : Bool := false
  twinSeq : Nat := 0
  twinEpoch : Nat := 0
  agree : List Nat := []
  swapWanted : Bool := false
  leaving : Bool := false
  failing : Bool := false
  relayed : List Nat := []
  activated : Bool := false
  reverting : List Nat := []
  floorOwed : Bool := false
deriving DecidableEq, Repr

end Sys2Proof.Machine
end

