-- ==== Sys2Proof/Machine/State.lean ====
section
/-! DEFINITION. The state of the hub as plain data: the register pages, and beside them every buffer, queue, counter, timer
mark and mode the chapters give its blocks. Every structure's field defaults are its value after reset, so `{}` is the reset
state of its block. -/
namespace Sys2Proof.Machine

/-- Why the hub model stops with a fault. -/
inductive Fault where
  /-- A command whose byte list is not of the length its bus carries: a card frame or card training frame that is not 10 bytes, a sideband
  block that is not 64 bytes. No such event exists on the part. Raised by CARD_FRAME_RECEIVED, CARD_TRAINING_FRAME and
  SIDEBAND_BLOCK_RECEIVED. Safe. -/
  | malformed
deriving DecidableEq, Repr

/-- Why the hub model refuses a command. -/
inductive Refusal where
  /-- The command has no meaning in the model. Raised by the dispatch alone. Safe. -/
  | notModelled (mnemonic : String)
deriving DecidableEq, Repr

/-! ### The hub -/

/-- The hub. -/
structure State where
  /-- Every register at its active value, by the key page × 4096 + offset; an unlisted one holds `resetWord`. -/
  regs : Map Word := []
  /-- The shadows that differ in standing from their registers: an unlisted shadow equals the active value (R49, R52). -/
  shad : Map Word := []
  /-- The pages with a commit frozen and pending, and with a stop pending (R42, R52). -/
  stopping : List Nat := []
  /-- The last answer of each initiator. -/
  ans : Map Answer := []
  /-- Fault sources raised and not yet taken by the fault unit, oldest first, with the detail byte (R472, R473). -/
  faultQ : List (Nat × Nat) := []
  /-- Pages held isolated, with the source that holds each, plus 1 (R476). -/
  iso : Map Nat := []
  gs : Gs := {}
  isl : Map Isl := []
  /-- PLLs (0-12) and their spares that are locked (R11, R89). -/
  pll : Map Bool := []
  spll : Map Bool := []
  /-- MRAM bytes (R80); an unlisted byte reads 0. -/
  mram : List Host.Cell := []
  /-- Local counter (R316): cycles of 1.6 ns. -/
  lc : Nat := 0
  /-- Frames at the core ports' ingress, by port, oldest first. -/
  ingress : Map (List InFrame) := []
  core : CoreSt := {}
  ring : Ring := {}
  mem : MemSt := {}
  tm : TmSt := {}
  scan : ScanSt := {}
  cards : Map Card := []
  /-- Channels, by pitch × 8 + channel. -/
  chans : Map Chan := []
  /-- Microcode stores, by cluster (R254): the bytes of the set loaded. -/
  ucode : Map (List Byte) := []
  /-- Messages waiting for lookup and being looked up, oldest first (R311). -/
  lookWait : List Look := []
  looking : List Look := []
  tw : Tw := {}
  supv : Supv := {}
  br : BrSt := {}
  /-- The access last begun at the host port and at the SPI port (R392, R394). -/
  host : Option Acc := none
  spi : Option Acc := none
  ft : Ft := {}
  wear : Wr := {}
  up : Up := {}
  /-- Free values taken so far; the next one is `Config.free` of it. -/
  fresh : Nat := 0
  /-- Commands waiting, first in first out. -/
  pending : List Instr := []
deriving DecidableEq, Repr

/-- The hub when power-on reset is asserted. -/
def State.reset : State := {}

end Sys2Proof.Machine
end

