-- ==== Sys2Proof/Machine/Ops.lean ====
section
/-! DEFINITION. The named operations every block shares: registers and their fields, shadows, events with their fault sources
and page interrupts, answers to initiators, the two CRCs, the bytes of a frame, and the MRAM. -/
namespace Sys2Proof

/-- The place of an initiator in the list of answers. -/
def Initiator.idx : Initiator → Nat
  | .host => 0 | .spi => 1 | .lantern => 2 | .ring => 3 | .preload => 4 | .mirror => 5

/-- CLASS of a class (R124), and back. -/
def Cls.code : Cls → Nat
  | .E => 0 | .T => 1 | .B => 2 | .M => 3
def clsOf (n : Nat) : Cls := if n % 4 = 0 then .E else if n % 4 = 1 then .T else if n % 4 = 2 then .B else .M

/-- DIR of a direction (R124), and the opposite direction. -/
def Dir.code : Dir → Nat
  | .west => 0 | .east => 1
def Dir.flip : Dir → Dir
  | .west => .east | .east => .west

/-- Maximum payload of a class (R126). -/
def Cls.maxP : Cls → Nat
  | .E => 64 | .T => 512 | .B => 512 | .M => 64

/-- Pages of the lane ports (R48). -/
def LanePort.page : LanePort → Nat
  | .east => 0x008 | .west => 0x009 | .twin => 0x024
def RingPort.page : RingPort → Nat
  | .east => 0x008 | .west => 0x009
def RingPort.core : RingPort → Nat
  | .east => 0 | .west => 1

end Sys2Proof

namespace Sys2Proof.Machine

/-- What a command's meaning answers. -/
abbrev Out := Host.Outcome State Fault Refusal

/-! ### Registers -/

/-- The key of a register: page × 4096 + offset in the page. -/
def regKey (p off : Nat) : Nat := p * 4096 + off % 4096

/-- The active value of a register. -/
def State.rd (s : State) (p off : Nat) : Word := s.regs.getD (regKey p off) (resetWord (regKey p off))

/-- The state with a register's active value set. -/
def State.wr (s : State) (p off : Nat) (v : Word) : State :=
  { s with regs := s.regs.put (regKey p off) v (resetWord (regKey p off)) }

/-- The active value of a field. -/
def State.fg (s : State) (p : Nat) (f : Fld) : Nat := f.get (s.rd p f.off)

/-- A one-bit field as a Bool. -/
def State.fb (s : State) (p : Nat) (f : Fld) : Bool := s.fg p f != 0

/-- The state with a field's active value set. -/
def State.fs (s : State) (p : Nat) (f : Fld) (v : Nat) : State := s.wr p f.off (f.set v (s.rd p f.off))

/-- A Bool as a bit. -/
def bit (b : Bool) : Nat := if b then 1 else 0

/-- A saturating increment of a counter field by `n`. -/
def State.addSat (s : State) (p : Nat) (f : Fld) (n : Nat) : State :=
  s.fs p f (min (s.fg p f + n) (2 ^ f.w - 1))

/-- A saturating increment of a counter field. -/
def State.inc (s : State) (p : Nat) (f : Fld) : State := s.addSat p f 1

/-- A wrapping increment of a counter field by `n`. -/
def State.addWrap (s : State) (p : Nat) (f : Fld) (n : Nat) : State := s.fs p f (s.fg p f + n)

/-- A whole 32-bit register as a counter field. -/
def whole (off : Nat) : Fld := ⟨off, 0, 32⟩

/-- The shadow of a register: its own value where one is listed, else the active value (R49). -/
def State.rdSh (s : State) (p off : Nat) : Word := s.shad.getD (regKey p off) (s.rd p off)

/-- The shadow value of a field: what a commit checks and applies (R52). -/
def State.fgSh (s : State) (p : Nat) (f : Fld) : Nat := f.get (s.rdSh p f.off)

/-- A one-bit field of the shadow. -/
def State.fbSh (s : State) (p : Nat) (f : Fld) : Bool := s.fgSh p f != 0

/-- The state with a register's shadow set; a shadow equal to the active value is not listed. -/
def State.wrSh (s : State) (p off : Nat) (v : Word) : State :=
  { s with shad := s.shad.put (regKey p off) v (s.rd p off) }

/-- The keys of page `p` from offset `lo` on. -/
def inPage (p lo k : Nat) : Bool := decide (k / 4096 = p) && decide (lo ≤ k % 4096)

/-- The state with every shadow of the page equal to its active value (R55). -/
def State.dropShadows (s : State) (p : Nat) : State := { s with shad := s.shad.drop (inPage p 0) }

/-- The state with every register of the page from offset `lo` on at its reset value, and its shadows too. -/
def State.dropRegs (s : State) (p lo : Nat) : State :=
  { s with regs := s.regs.drop (inPage p lo), shad := s.shad.drop (inPage p 0) }

/-- READY, RUNNING, ENABLE and COMMIT_PENDING of a page. -/
def State.ready (s : State) (p : Nat) : Bool := s.fb p PAGE_STATE_READY
def State.running (s : State) (p : Nat) : Bool := s.fb p PAGE_STATE_RUNNING
def State.enabled (s : State) (p : Nat) : Bool := s.fb p PAGE_CTRL_ENABLE
def State.commitPending (s : State) (p : Nat) : Bool := s.fb p PAGE_STATE_COMMIT_PENDING

/-- The effective BN-compatibility selection of a page (R60, R61). -/
def State.compat (s : State) (p : Nat) : Bool :=
  compatPage p &&
    (if s.fg p COMPAT_MODE = 0 then s.gs.straps.compatBn else decide (s.fg p COMPAT_MODE = 2))

/-- This hub's identifier, and whether it is valid (R21, R86). -/
def State.hubId (s : State) : Nat := s.fg 0 GS_HUB_ID_ID
def State.hubValid (s : State) : Bool := s.fb 0 GS_HUB_ID_VALID

/-! ### Answers -/

/-- The response codes of R6. -/
def rspOk : Nat := 0
def rspNotReady : Nat := 1
def rspRetry : Nat := 2
def rspUnmapped : Nat := 3
def rspSideEffect : Nat := 4
def rspRemote : Nat := 5
def rspTimeout : Nat := 6

/-- The state with an initiator's access answered; a read that is not OK returns 0 (R9). -/
def State.answer (s : State) (who : Initiator) (rsp : Nat) (data : Word) : State :=
  { s with ans := s.ans.put who.idx ⟨rsp, if rsp = rspOk then data else 0, none⟩ {} }

/-- The last answer of an initiator. -/
def State.ansOf (s : State) (who : Initiator) : Answer := s.ans.getD who.idx {}

/-! ### Frames -/

/-- Byte `i` of a number, little-endian. -/
def byteOf (n i : Nat) : Byte := BitVec.ofNat 8 (n >>> (8 * i))

/-- A number as `k` bytes, little-endian. -/
def leBytes : Nat → Nat → List Byte
  | _, 0 => []
  | n, k + 1 => BitVec.ofNat 8 n :: leBytes (n / 256) k

/-- Little-endian bytes as a number. -/
def ofLe : List Byte → Nat
  | [] => 0
  | b :: bs => b.toNat + 256 * ofLe bs

/-- Bytes `i` to `i + k - 1` of a list as a little-endian number; a missing byte reads 0. -/
def leAt (bs : List Byte) (i k : Nat) : Nat := ofLe ((bs.drop i).take k)

/-- One bit of CRC-16 (polynomial 0x1021). -/
def crc16Bit (c : Nat) : Nat := if c &&& 0x8000 = 0 then (c <<< 1) &&& 0xFFFF else ((c <<< 1) ^^^ 0x1021) &&& 0xFFFF

/-- One byte of CRC-16, most significant bit first. -/
def crc16Byte (c : Nat) (b : Byte) : Nat :=
  let c := c ^^^ (b.toNat <<< 8)
  crc16Bit (crc16Bit (crc16Bit (crc16Bit (crc16Bit (crc16Bit (crc16Bit (crc16Bit c)))))))

/-- The CRC-16 of R125: initial value 0xFFFF, no final inversion. -/
def crc16 (bs : List Byte) : Nat := bs.foldl crc16Byte 0xFFFF

/-- One bit of the reflected CRC-32. -/
def crc32Bit (c : Nat) : Nat := if c &&& 1 = 0 then c >>> 1 else (c >>> 1) ^^^ 0xEDB88320

/-- One byte of CRC-32, least significant bit first. -/
def crc32Byte (c : Nat) (b : Byte) : Nat :=
  let c := c ^^^ b.toNat
  crc32Bit (crc32Bit (crc32Bit (crc32Bit (crc32Bit (crc32Bit (crc32Bit (crc32Bit c)))))))

/-- The CRC-32 of R81: reflected, initial value 0xFFFFFFFF, inverted at the end. -/
def crc32 (bs : List Byte) : Nat := (bs.foldl crc32Byte 0xFFFFFFFF) ^^^ 0xFFFFFFFF

/-- Header bytes 0-9 (R124). -/
def Hdr.bytes10 (h : Hdr) : List Byte :=
  [BitVec.ofNat 8 (h.cls.code * 64 + h.mtype % 64), BitVec.ofNat 8 (h.dir.code * 128 + h.dst % 128),
   BitVec.ofNat 8 (bit h.ll * 128 + h.src % 128), BitVec.ofNat 8 (h.wraps % 4 * 64 + h.stream % 64)] ++ leBytes h.arg 6

/-- The 12 header bytes with HCRC (R125). -/
def Hdr.bytes (h : Hdr) : List Byte := h.bytes10 ++ leBytes (crc16 h.bytes10) 2

/-- The header that 12 bytes spell. -/
def Hdr.ofBytes (bs : List Byte) : Hdr :=
  let b (i : Nat) : Nat := leAt bs i 1
  { cls := clsOf (b 0 / 64), mtype := b 0 % 64, dir := if b 1 < 128 then .west else .east, dst := b 1 % 128,
    ll := decide (128 ≤ b 2), src := b 2 % 128, wraps := b 3 / 64, stream := b 3 % 64, arg := leAt bs 4 6 }

/-- L: header, payload and trailer (R123). -/
def Frame.len (f : Frame) : Nat := 16 + f.payload.length

/-- The cells a frame takes: ⌈L/24⌉ (R126, R136). -/
def Frame.cells (f : Frame) : Nat := (f.len + 23) / 24

/-- The bytes of a frame with its checks; a bad trailer is the good one inverted. -/
def Frame.bytes (f : Frame) : List Byte :=
  let body := f.hdr.bytes ++ f.payload
  let c := crc32 body
  body ++ leBytes (if f.bad then c ^^^ 0xFFFFFFFF else c) 4

/-- ARG bits [lo + w - 1 : lo]. -/
def Hdr.argBits (h : Hdr) (lo w : Nat) : Nat := (h.arg >>> lo) % 2 ^ w

/-! ### Core port ingress -/

/-- The core ports (R160): East, West, twin, bridge, lantern, scan, and cluster `n` at 6 + n. -/
def portEast : Nat := 0
def portWest : Nat := 1
def portTwin : Nat := 2
def portBridge : Nat := 3
def portLantern : Nat := 4
def portScan : Nat := 5
def portCluster (n : Nat) : Nat := 6 + n

/-- The state with a frame waiting at a core port's ingress. -/
def State.stage (s : State) (p : Nat) (x : InFrame) : State :=
  { s with ingress := s.ingress.put p (s.ingress.getD p [] ++ [x]) [] }

/-- The ingress descriptor of a ring-addressed frame and of a direct one (R179). -/
def descRing (f : Frame) : Nat := f.cells <<< 15
def descDirect (q : Nat) (f : Frame) : Nat := (1 <<< 30) ||| (q <<< 20) ||| (f.cells <<< 15)

/-- The frame that its bytes, with a right trailer, spell. -/
def Frame.ofBytes (bs : List Byte) : Frame :=
  { hdr := Hdr.ofBytes bs, payload := (bs.drop 12).take (bs.length - 16) }

/-- The state with a frame this hub originates at local port `p`, ring-addressed. -/
def State.originate (s : State) (p : Nat) (f : Frame) : State := s.stage p { frame := f, route := .desc (descRing f) }

/-- The state with a frame this hub puts at local port `p` directly for queue `q`. -/
def State.direct (s : State) (p q : Nat) (f : Frame) : State := s.stage p { frame := f, route := .desc (descDirect q f) }

/-! ### Events, fault sources and page interrupts -/

/-- The page's interrupt request (R45). -/
def State.irq (s : State) (p : Nat) : Bool := decide ((s.rd p EVT_STATUS &&& s.rd p EVT_ENABLE) ≠ 0)

/-- The route byte of page `p` (R389). -/
def State.route (s : State) (p : Nat) : Nat :=
  ((s.rd 0x020 (BR_IRQ_ROUTE + p / 4 * 4)).toNat >>> (8 * (p % 4))) % 256

/-- The SIGNAL frame with number `sig` from source page `page` (R386). -/
def signalFrame (cls : Cls) (dst stream src sig page : Nat) : Frame :=
  { hdr := { cls := cls, mtype := 0x18, dst := dst, src := src, stream := stream, arg := sig ||| (page <<< 8) } }

/-- A page routed with KIND 3 sends one signal when its interrupt request rises (R388). `before` is the request before. -/
def State.irqRise (s : State) (p : Nat) (before : Bool) : State :=
  if !before && s.irq p && decide (s.route p / 64 = 3) && decide (p < 0x300) && s.fb 0x020 BR_SIG_TGT_EN
      && s.ready 0x020 then
    s.originate portBridge (signalFrame (if s.fb 0x020 BR_SIG_TGT_CLASS_T then .T else .E) (s.fg 0x020 BR_SIG_TGT_HUB)
      (s.fg 0x020 BR_SIG_TGT_STREAM) s.hubId (s.route p % 64) p)
  else s

/-- The state with a fault source raised once (R472). -/
def State.fault (s : State) (n detail : Nat) : State := { s with faultQ := s.faultQ ++ [(n, detail)] }

/-- The status bit of an event set, and the page's interrupt request followed; no fault source. -/
def State.raiseBit (s : State) (p b : Nat) : State :=
  (s.wr p EVT_STATUS (s.rd p EVT_STATUS ||| BitVec.ofNat 32 (1 <<< b))).irqRise p (s.irq p)

/-- An event of page `p` occurs once: its status bit, its fault source where it has one, and the page's interrupt. -/
def State.raise (s : State) (p b : Nat) : State :=
  match faultSource p b with
  | some n => (s.raiseBit p b).fault n 0
  | none => s.raiseBit p b

/-- `raise` under a condition. -/
def State.raiseIf (s : State) (c : Bool) (p b : Nat) : State := if c then s.raise p b else s

/-- A page-state bit written, with STATE_CHANGE raised when it changed. -/
def State.setState (s : State) (p : Nat) (f : Fld) (v : Bool) : State :=
  if s.fb p f = v then s else (s.fs p f (bit v)).raise p EV_STATE_CHANGE

/-! ### Lists of bits and of small helpers -/

/-- Bit `i` of a number. -/
def nbit (n i : Nat) : Bool := n.testBit i

/-- `n` with bit `i` set to `b`. -/
def setBit (n i : Nat) (b : Bool) : Nat :=
  if b then n ||| (1 <<< i) else if n.testBit i then n - (1 <<< i) else n

/-- Signed value of a `w`-bit two's complement number, and back. -/
def sgn (w n : Nat) : Int := if n % 2 ^ w < 2 ^ (w - 1) then (n % 2 ^ w : Nat) else (n % 2 ^ w : Nat) - (2 ^ w : Nat)
def uns (w : Nat) (i : Int) : Nat := (i % (2 ^ w : Nat)).toNat

/-- A free value: the next value of the opaque stream, of `w` bits. -/
def State.freeNat (s : State) (w : Nat) : Nat := Config.free s.fresh % 2 ^ w

/-- The state after a free value was taken. -/
def State.tookFree (s : State) : State := { s with fresh := s.fresh + 1 }

/-- One of the values a silent tie leaves open: the only one where there is one, else a free choice. -/
def State.pick (s : State) (l : List Nat) : Nat := match l with
  | [] => 0
  | [x] => x
  | _ => l.getD (Config.free s.fresh % l.length) 0

/-- A quotient whose rounding the spec does not state: a free choice between the two whole numbers around it. -/
def State.roundQ (s : State) (n d : Nat) : Nat := if n % d = 0 then n / d else n / d + s.freeNat 1

/-! ### The mirror stream -/

/-- The hub is ACTIVE and mirrors to its twin (R400, R408). -/
def State.mirroring (s : State) : Bool :=
  decide (s.fg 0x024 TW_STATUS_ROLE = 1) && decide (s.fg 0x024 TW_STATUS_MSTATE ≠ 0)

/-- The state with an entry appended to the mirror stream, when the hub mirrors. -/
def State.mirror (s : State) (kind epoch : Nat) (bytes : List Byte) : State :=
  if s.mirroring then { s with tw := { s.tw with entries := s.tw.entries ++ [⟨kind, epoch, bytes⟩] } } else s

/-- A queue that TW_QMIR names (R407). -/
def State.mirroredQueue (s : State) (q : Nat) : Bool :=
  (List.range 8).any fun k =>
    (s.fb 0x024 (TW_QMIR_EN_LO.at (4 * k)) && decide (s.fg 0x024 (TW_QMIR_QUEUE_LO.at (4 * k)) = q)) ||
    (s.fb 0x024 (TW_QMIR_EN_HI.at (4 * k)) && decide (s.fg 0x024 (TW_QMIR_QUEUE_HI.at (4 * k)) = q))

/-- A QUEUE entry of a mirrored queue: OP 0 pops, 1 mailbox push (R400, R407). -/
def State.mirrorQueue (s : State) (q op v : Nat) : State :=
  if s.mirroring && s.mirroredQueue q then s.mirror 5 0 (leBytes (q + 65536 * op) 4 ++ leBytes v 4) else s

/-- The mirrored registers of R401. -/
def mirrored (p off : Nat) : Bool :=
  match kindOf p with
  | some .q => (decide (0x400 ≤ off) && decide (off < 0x800)) || decide (off = PAGE_CTRL)
  | some .sc => true | some .cl => true | some .ec => true | some .en => true | some .rt => true | some .sm => true
  | _ => false

/-- A write that took effect on a mirrored page is sent as a CFG entry: OP 0 write, 1 COMMIT, 2 ABORT_COMMIT (R401). -/
def State.mirrorCfg (s : State) (op p off : Nat) (v : Word) : State :=
  if mirrored p off then s.mirror 1 0 (leBytes (p * 4096 + off) 3 ++ leBytes op 1 ++ leBytes v.toNat 4) else s

/-- On the standby, a write to a mirrored page from any initiator but the mirror stream has no effect (R401). The option
reader's preload path runs before the twin has a role. -/
def State.stbyRefuses (s : State) (who : Initiator) (p off : Nat) : Bool :=
  mirrored p off && decide (s.fg 0x024 TW_STATUS_ROLE = 2) && decide (who ≠ .mirror) && decide (who ≠ .preload)

/-! ### MRAM -/

/-- A byte of the MRAM; one that nothing has written reads 0. -/
def State.mb (s : State) (a : Nat) : Byte := Map.getD s.mram a 0

/-- `k` bytes of the MRAM from `a`. -/
def State.mbytes (s : State) : Nat → Nat → List Byte
  | _, 0 => []
  | a, k + 1 => s.mb a :: s.mbytes (a + 1) k

/-- A little-endian field of the MRAM. -/
def State.mle (s : State) (a k : Nat) : Nat := ofLe (s.mbytes a k)

/-- The state with bytes written to the MRAM from `a`. -/
def State.mwr (s : State) : Nat → List Byte → State
  | _, [] => s
  | a, b :: bs => State.mwr { s with mram := Map.put s.mram a b 0 } (a + 1) bs

/-- No new MRAM write pulse starts: a supply is below its warning threshold (R79), or a reset of the MRAM controller is held back (R78). -/
def State.mramStop (s : State) : Bool := s.gs.supplyLow || s.gs.deferred.isSome || s.gs.deferBlock.isSome

/-- Bytes that the hub writes to the MRAM from `a`, where a write pulse may start. -/
def State.store (s : State) (a : Nat) (bs : List Byte) : State := if s.mramStop then s else s.mwr a bs

/-! ### Pins of the peg map (R93-R95, R515) -/

/-- What a pin shows. -/
inductive Pin where
  /-- High-impedance, with a weak pull-down, with a weak pull-up, and with neither named. -/
  | pullDown | pullUp | floating
  | low | high
deriving DecidableEq, Repr

/-- The peg state of pin `p`: high-impedance with a weak pull-down until FUSE has ended, then its fuse entry (R93, R94). -/
def State.peg (s : State) (p : Nat) : Pin :=
  if !s.gs.fused then .pullDown
  else match (s.gs.fuseHeld.getD (26 + p / 16) 0).toNat / 4 ^ (p % 16) % 4 with
    | 0 => .pullDown | 1 => .pullUp | 2 => .low | _ => .high

/-- The weak pull of a pin's peg entry, which stays while the pin is released (R390). -/
def State.pegPull (s : State) (p : Nat) : Pin := match s.peg p with
  | .pullUp => .pullUp | .high => .pullUp | _ => .pullDown

/-- The instants of a list that lie within the last `ms` milliseconds, in cycles of LC of 1.6 ns. -/
def State.inWindow (s : State) (ms : Nat) (l : List Nat) : List Nat := l.filter fun t => decide (s.lc < t + 625000 * ms)

end Sys2Proof.Machine
end

