-- ==== Sys2Proof/Machine/Pages.lean ====
section
/-! DEFINITION. The register pages (chapter 2): how an access reaches a page, what a plain write does by access code, the
parts of PAGE_CTRL, the event registers, and what a plain read returns. -/
namespace Sys2Proof.Machine

/-! ### Reaching a page -/

/-- How an access by `who` to a register ends before it reaches the block: UNMAPPED (R35, R36), NOT_READY (R38), else OK. The
SPI port reaches pages 0x000 to 0x002 directly (R97); the preload path does not depend on READY (R85). -/
def State.reach (s : State) (who : Initiator) (p off : Nat) : Nat :=
  let direct := decide (who = .preload) || (decide (who = .spi) && decide (p ≤ 0x002) && s.gs.fused)
  if !direct && !s.ready 0x020 then rspNotReady
  else if (kindOf p).isNone || decide (off % 4 ≠ 0) || decide (0x1000 ≤ off) then rspUnmapped
  else if direct || decide (off < 0x040) || s.ready p then rspOk else rspNotReady

/-- The mode registers of an engine page in each mode: 1 ASYNC, 2 PBUS, 3 SYNC, 4 DISC (R252). -/
def modeRows (m : Nat) : List Row :=
  if m = 1 then rows_en_as else if m = 2 then rows_en_pb else if m = 3 then rows_en_sy
  else if m = 4 then rows_en_di else []

/-- The register row at an offset, by the engine's active mode on an engine page. -/
def State.rowAt (s : State) (p off : Nat) : Option Row :=
  match rowOf p off with
  | some r => some r
  | none => if kindOf p = some .en then Sys2Proof.Machine.rowAt (modeRows (s.fg p EN_MODE_MODE)) off else none

/-! ### Writes by access code -/

/-- The bits of `old` that `mask` covers replaced by those of `v`. -/
def blend (mask : Nat) (v old : Word) : Word :=
  (old &&& ~~~ (BitVec.ofNat 32 mask)) ||| (v &&& BitVec.ofNat 32 mask)

/-- The written word as the register takes it: a SWING above 16 is taken as 16 (R119), and a locked watchdog PERIOD keeps its
value (R70); UP_CFG takes the nearest limit (the page's own table). -/
def State.adjust (s : State) (p off : Nat) (v : Word) : Word :=
  let sw := fun (o : Nat) => decide (0x080 ≤ o) && decide (o < 0x0D0) && decide (o % 16 = 0)
  match kindOf p with
  | some .rp => if sw off && decide (16 < (⟨off, 0, 5⟩ : Fld).get v) then (⟨off, 0, 5⟩ : Fld).set 16 v else v
  | some .tw => if sw off && decide (16 < (⟨off, 0, 5⟩ : Fld).get v) then (⟨off, 0, 5⟩ : Fld).set 16 v else v
  | some .cl => if off = CL_EQ ∧ 16 < CL_EQ_SWING.get v then CL_EQ_SWING.set 16 v else v
  | some .gs => if off = GS_WDOG_CTRL ∧ s.fb 0 GS_WDOG_CTRL_LOCK then
      GS_WDOG_CTRL_PERIOD.set (s.fg 0 GS_WDOG_CTRL_PERIOD) v else v
  | some .up => if off = UP_CFG then
      UP_CFG_TRIAL.set (max 100 (UP_CFG_TRIAL.get v)) (UP_CFG_CARD_WAIT.set (max 100 (UP_CFG_CARD_WAIT.get v)) v) else v
  | _ => v

/-- A write of a register by the access codes of its row (R49, R51, R53): RW bits take effect, RWL bits only while RUNNING is
0 (else CFG_LOCKED_WRITE), RWS bits go to the shadow unless a commit is pending (else CFG_SHADOW_BUSY), W1C and W1S bits clear
and set. `pre` is the preload path, which acts as with RUNNING 0 (R85). -/
def State.plain (s : State) (pre : Bool) (p off : Nat) (v0 : Word) : State :=
  match s.rowAt p off with
  | none => s
  | some r =>
    let v := s.adjust p off v0
    let locked := s.running p && !pre && decide (r.rwl ≠ 0)
    let old := s.rd p off
    let a := blend (if locked then r.rw else r.rw ||| r.rwl) v old
    let a := (a &&& ~~~ (v &&& BitVec.ofNat 32 r.w1c)) ||| (v &&& BitVec.ofNat 32 r.w1s)
    let busy := decide (r.rws ≠ 0) && s.commitPending p
    let s1 := s.wr p off a
    let s2 := if r.rws = 0 ∨ busy then s1 else s1.wrSh p off (blend r.rws v (blend r.rws (s.rdSh p off) a))
    let s3 := s2.raiseIf locked p EV_LOCKED_WRITE
    let s4 := s3.raiseIf busy p EV_SHADOW_BUSY
    if locked ∨ busy then s4 else s4.mirrorCfg 0 p off v0

/-- A write of EVT_STATUS: each 1 clears its bit (R45, R46). -/
def State.wrEvtStatus (s : State) (p : Nat) (v : Word) : State := s.wr p EVT_STATUS (s.rd p EVT_STATUS &&& ~~~ v)

/-- A write of EVT_ENABLE: the defined bits; the page's interrupt request may rise (R45, R388). -/
def State.wrEvtEnable (s : State) (p : Nat) (v : Word) : State :=
  (s.wr p EVT_ENABLE (v &&& BitVec.ofNat 32 (evtMaskOf p))).irqRise p (s.irq p)

/-- The events a forced word names, lowest bit first. -/
def forcedBits (mask : Nat) (v : Word) : List Nat := (List.range 32).filter fun b => nbit mask b && nbit v.toNat b

/-- EVT_FORCE: each defined bit written 1 acts as one occurrence of its event (R47). -/
def State.force (s : State) (p : Nat) (v : Word) : State := (forcedBits (evtMaskOf p) v).foldl (fun t b => t.raise p b) s

/-- A write of COMPAT: MODE is an RWL field; 0b11 is ignored, and only the pages of R61 have it. -/
def State.wrCompat (s : State) (pre : Bool) (p : Nat) (v : Word) : State :=
  if !compatPage p then s
  else if s.running p && !pre then s.raise p EV_LOCKED_WRITE
  else if COMPAT_MODE.get v = 3 then s
  else s.fs p COMPAT_MODE (COMPAT_MODE.get v)

/-! ### PAGE_CTRL -/

/-- ENABLE and READ_ACTIVE take the written values (R43). A block asked to stop while it runs is stopping until its stop
point; a block asked to run is started by BLOCK_READY_RISE or at once by the block's own rule (R42). -/
def State.setEnable (s : State) (p : Nat) (en readActive : Bool) : State :=
  let s1 := (s.fs p PAGE_CTRL_ENABLE (bit en)).fs p PAGE_CTRL_READ_ACTIVE (bit readActive)
  { s1 with stopping := if !en && s.running p then (if s.stopping.contains p then s.stopping else s.stopping ++ [p])
                        else s.stopping.filter (· != p) }

/-- COMMIT: the shadow set is frozen and the commit pends (R52); no effect while one pends (R53). -/
def State.commitWrite (s : State) (p : Nat) : State :=
  if s.commitPending p then s
  else (s.fs p PAGE_STATE_COMMIT_PENDING 1).fs p CFG_STATUS_RESULT 1

/-- The ending of a commit: COMMIT_PENDING 0, RESULT, REASON, OFFSET (only with RESULT 3), SEQ + 1 modulo 64 (R52, R57). -/
def State.endCommit (s : State) (p result reason off : Nat) : State :=
  let s1 := s.fs p PAGE_STATE_COMMIT_PENDING 0
  let s2 := (s1.fs p CFG_STATUS_RESULT result).fs p CFG_STATUS_REASON reason
  let s3 := s2.fs p CFG_STATUS_OFFSET (if result = 3 then off / 4 else 0)
  s3.addWrap p CFG_STATUS_SEQ 1

/-- ABORT_COMMIT (R55). -/
def State.abortWrite (s : State) (p : Nat) : State :=
  if s.commitPending p then (s.dropShadows p).endCommit p 4 5 0 else s.dropShadows p

/-- The keys of a page whose shadow is listed. -/
def State.shadKeys (s : State) (p : Nat) : List (Nat × Word) := s.shad.filter fun e => inPage p 0 e.1

/-- Every shadowed field of the page takes its shadow value (R52). -/
def State.applyShadows (s : State) (p : Nat) : State :=
  ((s.shadKeys p).foldl (fun t e =>
    match s.rowAt p (e.1 % 4096) with
    | some r => t.wr p (e.1 % 4096) (blend r.rws (s.rdSh p (e.1 % 4096)) (t.rd p (e.1 % 4096)))
    | none => t) s).dropShadows p

/-- A commit pending on a block that stops being ready ends refused, with REASON 0x04 (R57). -/
def State.refuseUnready (s : State) (p : Nat) : State :=
  if s.commitPending p then s.endCommit p 3 4 0 else s

/-- READY falls: a pending commit is refused, and RUNNING falls; a latched ENABLE starts the block again (R42, R57). -/
def State.unready (s : State) (p : Nat) : State :=
  let s1 := ((s.refuseUnready p).setState p PAGE_STATE_READY false).setState p PAGE_STATE_RUNNING false
  { s1 with stopping := s1.stopping.filter (· != p) }

/-! ### Reads -/

/-- What a plain read of a register returns: RO, RW and W1 bits their value, RWS bits the shadow unless READ_ACTIVE is 1, WO
bits 0 (R49); PAGE_STATE with the effective BN-compatibility selection (R60); reserved registers 0 (R4). -/
def State.plainRead (s : State) (p off : Nat) : Word :=
  if off < 0x040 then
    if off = EVT_FORCE ∨ off > FAULT_LINK then 0
    else if off = PAGE_STATE then PAGE_STATE_COMPAT_ACTIVE.set (bit (s.compat p)) (s.rd p off)
    else if off = PAGE_CTRL then s.rd p off &&& 0x101
    else s.rd p off
  else
    match s.rowAt p off with
    | none => 0
    | some r =>
      let v := if s.fb p PAGE_CTRL_READ_ACTIVE then s.rd p off else blend r.rws (s.rdSh p off) (s.rd p off)
      v &&& ~~~ (BitVec.ofNat 32 r.wo)

/-! ### Accesses -/

/-- The snapshot of an initiator ended (R27). -/
def State.endSnap (s : State) (who : Initiator) : State :=
  { s with scan := { s.scan with snaps := s.scan.snaps.put who.idx none none } }

/-- The packed group an initiator is collecting given up, with CANOPY_PACK_PARTIAL (R26). -/
def State.endPack (s : State) (who : Initiator) : State :=
  if (s.scan.packs.getD who.idx none).isSome then
    ({ s with scan := { s.scan with packs := s.scan.packs.put who.idx none none } } : State).raise 0x01C EV_SC_CANOPY_PACK_PARTIAL
  else s

/-- An access of `who` to an address outside the group it is packing: the partial group is discarded with CANOPY_PACK_PARTIAL, and a
read ends its snapshot (R26, R27). -/
def State.touch (s : State) (who : Initiator) (read : Bool) : State := (if read then s.endSnap who else s).endPack who

/-- A register write by `who` to page `p`: refused as `reach` says, without effect but STBY_WRITE on a standby's mirrored page (R401), else
`op`, and answered OK. -/
def State.write (s0 : State) (who : Initiator) (p off : Nat) (op : State → State) : State :=
  let s := s0.touch who false
  if s.reach who p off ≠ rspOk then s.answer who (s.reach who p off) 0
  else if s.stbyRefuses who p off then (s.raise 0x024 EV_TW_STBY_WRITE).answer who rspOk 0
  else (op s).answer who rspOk 0

/-- A register read by `who` with an effect: refused as `reach` says, else answered with what `op` gives. -/
def State.read (s0 : State) (who : Initiator) (p off : Nat) (op : State → State × Word) : State :=
  let s := s0.touch who true
  if s.reach who p off ≠ rspOk then s.answer who (s.reach who p off) 0
  else (op s).1.answer who rspOk (op s).2

end Sys2Proof.Machine
end

