-- ==== Sys2Proof/Machine/RepairTable.lean ====
section
/-! DEFINITION. The repair table in the MRAM (R466, R467): which copy is valid and chosen, its entries, and how a repair is
recorded. -/
namespace Sys2Proof.Machine

/-- The MRAM offsets of copies A and B (R466). -/
def rtBase (copy : Nat) : Nat := if copy = 0 then 0x320000 else 0x322000

/-- RT_GENERATION and RT_COUNT of a copy. -/
def State.rtGen (s : State) (copy : Nat) : Nat := s.mle (rtBase copy + 4) 4
def State.rtCount (s : State) (copy : Nat) : Nat := s.mle (rtBase copy + 8) 2

/-- A copy is valid when its magic, count and CRC are correct (R467). -/
def State.rtValid (s : State) (copy : Nat) : Bool :=
  decide (s.mle (rtBase copy) 4 = 0x0A192F01) && decide (s.rtCount copy ≤ 1022) &&
  decide (s.mle (rtBase copy + 12) 4 =
    crc32 (s.mbytes (rtBase copy) 12 ++ s.mbytes (rtBase copy + 16) (8 * s.rtCount copy)))

/-- The valid copy with the higher RT_GENERATION, copy A when they are equal (R467). -/
def State.rtChosen (s : State) : Option Nat :=
  match s.rtValid 0, s.rtValid 1 with
  | true, true => some (if s.rtGen 0 < s.rtGen 1 then 1 else 0)
  | true, false => some 0
  | false, true => some 1
  | false, false => none

/-- An entry of the table (R466). -/
structure Repair where
  type : Nat
  unit : Nat
  index : Nat
  spare : Nat
  cause : Nat
deriving DecidableEq, Repr

def Repair.bytes (r : Repair) : List Byte :=
  leBytes r.type 1 ++ leBytes r.unit 1 ++ leBytes r.index 2 ++ leBytes r.spare 1 ++ leBytes r.cause 1 ++ [0, 0]

/-- The entry at an MRAM offset. -/
def State.repairAt (s : State) (a : Nat) : Repair :=
  ⟨s.mle a 1, s.mle (a + 1) 1, s.mle (a + 2) 2, s.mle (a + 4) 1, s.mle (a + 5) 1⟩

/-- The entries of the table in use, in order; an entry of another TYPE is skipped (R466). -/
def State.repairs (s : State) : List Repair :=
  match s.rtChosen with
  | none => []
  | some c => ((List.range (s.rtCount c)).map fun i => s.repairAt (rtBase c + 16 + 8 * i)).filter fun r =>
      decide (r.type = 1) || decide (r.type = 2) || decide (r.type = 3)

/-- MEM_TBL shows the copy in use and its count. -/
def State.showTable (s : State) : State :=
  match s.rtChosen with
  | none => (s.fs 0x280 MEM_TBL_COPY 0).fs 0x280 MEM_TBL_ENTRIES 0
  | some c => (s.fs 0x280 MEM_TBL_COPY (c + 1)).fs 0x280 MEM_TBL_ENTRIES (s.rtCount c)

/-- The bytes of a copy of the table. -/
def tableBytes (gen : Nat) (entries : List Byte) : List Byte :=
  let head := leBytes 0x0A192F01 4 ++ leBytes gen 4 ++ leBytes (entries.length / 8) 2 ++ [0, 0]
  head ++ leBytes (crc32 (head ++ entries)) 4 ++ entries

/-- A spare action that a wear event requested has completed (R483). -/
def State.wearSpared (s : State) (cause : Nat) : State := if cause = 3 then s.inc 0x005 WR_CNT_SPARED else s

/-- A repair recorded: the chosen copy's entries and the new one written into the other copy with RT_GENERATION + 1; with no
valid copy TABLE_BAD is raised and a table starts at generation 1 (R467). A full table takes no further entry; no entry is written
while no write pulse may start (R79). -/
def State.recordRepair (s0 : State) (r : Repair) : State :=
  let s := s0.wearSpared r.cause
  match s.rtChosen with
  | none => ((s.raise 0x280 EV_MEM_TABLE_BAD).store (rtBase 0) (tableBytes 1 r.bytes)).showTable
  | some c =>
    if 1022 ≤ s.rtCount c then s
    else (s.store (rtBase (1 - c)) (tableBytes (s.rtGen c + 1) (s.mbytes (rtBase c + 16) (8 * s.rtCount c) ++ r.bytes))).showTable

end Sys2Proof.Machine
end

