-- ==== Sys2Proof/Machine/RingRoute.lean ====
section
/-! DEFINITION. Where a frame goes on the ring: live sources, the pin table, the egress of a frame this hub originates, and
the mode of the rings (R73, R86, R141, R146, R148). -/
namespace Sys2Proof.Machine

/-- Lane ports in order: East 0, West 1, twin 2. -/
def laneIdx : LanePort → Nat
  | .east => 0 | .west => 1 | .twin => 2

/-- A lane port's part of the state. -/
def State.port (s : State) (p : LanePort) : Port := s.ring.ports.getD (laneIdx p) {}
def State.setPort (s : State) (p : LanePort) (v : Port) : State :=
  { s with ring := { s.ring with ports := s.ring.ports.put (laneIdx p) v {} } }

/-- PSTATE of a lane port (R108), and whether it is ACTIVE. -/
def State.pstate (s : State) (p : LanePort) : Nat := s.fg p.page LN_STATUS_PSTATE
def State.portActive (s : State) (p : LanePort) : Bool := decide (s.pstate p = 4)

/-- A ring port is wrapped (R147). -/
def State.wrapped (s : State) (p : RingPort) : Bool := s.fb p.page RP_NEIGHBOUR_WRAPPED

/-- Ridge-only mode: the switch core is not READY (R73) or not RUNNING (R199). -/
def State.ridgeOnly (s : State) : Bool := !(s.ready 0x010 && s.running 0x010)

/-- A bare start: the hub has no valid identifier (R86). -/
def State.bare (s : State) : Bool := !s.hubValid

/-- SRC is this hub's valid identifier (R131). -/
def State.isSelf (s : State) (h : Nat) : Bool := s.hubValid && decide (h = s.hubId)

/-- The hub's own entry, or one the topology table holds live (R146). -/
def State.live (s : State) (h : Nat) : Bool := s.isSelf h || (decide (h < 128) && s.fb 0x00A (RC_TOPO_LIVE.at (4 * h)))

/-- DIST_W and DIST_E of a hub; its own are 0. -/
def State.distW (s : State) (h : Nat) : Nat := if s.isSelf h then 0 else s.fg 0x00A (RC_TOPO_DIST_W.at (4 * h))
def State.distE (s : State) (h : Nat) : Nat := if s.isSelf h then 0 else s.fg 0x00A (RC_TOPO_DIST_E.at (4 * h))

/-- An 8-bit value rotated left. -/
def rotl8 (x n : Nat) : Nat := ((x <<< n) ||| (x >>> (8 - n))) % 256

/-- The pin table's entry index (R141). -/
def pinIdx (salt src dst stream : Nat) : Nat := salt ^^^ src ^^^ rotl8 dst 3 ^^^ rotl8 stream 5

/-- The pin table's entry. -/
def State.pinEntry (s : State) (idx : Nat) : Nat :=
  ((s.rd 0x00A (RC_PIN + 4 * (idx / 16))).toNat >>> (2 * (idx % 16))) % 4

/-- The shortest direction: westbound on a tie, for a group or broadcast, and when no distance is known (R141). -/
def State.shortest (s : State) (dst : Nat) : Dir :=
  if dst < 120 ∧ s.distE dst < s.distW dst then .east else .west

/-- The DIR of a frame this hub originates (R141). -/
def State.pinDir (s : State) (src dst stream : Nat) : Dir :=
  let e := s.pinEntry (pinIdx (s.fg 0x00A RC_PIN_CFG_SALT) src dst stream)
  if e = 0 then .west else if e = 1 then .east else s.shortest dst

/-- The port a direction leaves by (R122). -/
def dirPort : Dir → RingPort
  | .west => .west | .east => .east

/-- The egress of a frame originated with a direction: its port, or where that is wrapped and the other is not, the other port
with DIR inverted and WRAPS 0b10 (R148). -/
def State.originEgress (s : State) (d : Dir) : RingPort × Dir × Nat :=
  if s.wrapped (dirPort d) && !s.wrapped (dirPort d).other then ((dirPort d).other, d.flip, 2) else ((dirPort d), d, 0)

/-- The header of a frame this hub originates for a ring, resolved, with its egress port. -/
def State.resolve (s : State) (h : Hdr) : RingPort × Hdr :=
  let (p, d, w) := s.originEgress (s.pinDir h.src h.dst h.stream)
  (p, { h with dir := d, wraps := w })

/-- A frame originated to a hub that is not live is discarded and counted (R146). -/
def State.noDest (s : State) : State := (s.inc 0x00A RC_CNT_NO_DEST_COUNT).raise 0x00A EV_RC_NO_DEST

/-! ### Credit accounts (R136, R137) -/

/-- The credit account of a class on a lane port. -/
def crKey (p : LanePort) (c : Cls) : Nat := 4 * laneIdx p + c.code
def State.cr (s : State) (p : LanePort) (c : Cls) : Cr := s.ring.cred.getD (crKey p c) {}
def State.setCr (s : State) (p : LanePort) (c : Cls) (v : Cr) : State :=
  { s with ring := { s.ring with cred := s.ring.cred.put (crKey p c) v {} } }

/-- GRANT of a class on a ring port (R136). -/
def State.grant (s : State) (p : LanePort) (c : Cls) : Nat :=
  match c with
  | .E => 0
  | .T => s.fg p.page RP_CREDIT_GRANT_GRANT_T
  | .B => s.fg p.page RP_CREDIT_GRANT_GRANT_B
  | .M => s.fg p.page RP_CREDIT_GRANT_GRANT_M

/-- The classes under credit (R126). -/
def creditClasses : List Cls := [.T, .B, .M]

/-- Cells of a class freed at a receiving port: FREED advances, and LIMIT by what is not withheld (R137). -/
def State.freed (s : State) (p : LanePort) (c : Cls) (n : Nat) : State :=
  if c = .E then s else
  let x := s.cr p c
  let back := min x.withheld n
  s.setCr p c { x with freed := (x.freed + n) % 65536, withheld := x.withheld - back, lim := (x.lim + (n - back)) % 65536 }

/-- The receiver's accounts initialised: FREED 0 and LIMIT the GRANT (R137). -/
def State.creditInit (s : State) (p : LanePort) : State :=
  creditClasses.foldl (fun t c => t.setCr p c { t.cr p c with freed := 0, withheld := 0, recv := 0, lim := t.grant p c % 65536 }) s

/-- The credit left for sending: (LIMIT − SENT) mod 2^16, and 0 where that is 32,768 or more (R136). -/
def Cr.avail (x : Cr) : Nat :=
  let d := (x.limit + 65536 - x.sent) % 65536
  if d < 32768 then d else 0

end Sys2Proof.Machine
end

