-- ==== Sys2Proof/Machine/TimeMsg.lean ====
section
/-! DEFINITION. Local stamps, and what the ring ports do to time messages in flight (R318, R330-R333, R337). Local time is
counted here in 1/160 ns: a cycle of LC is 256 of them, 1/16 ns is 10. -/
namespace Sys2Proof.Machine

/-- The local instant of the present cycle of LC, and the instant `sub` sixteenths of a ns into it (R316, R318). -/
def State.now (s : State) : Int := 256 * (s.lc : Int)
def State.stampAt (s : State) (sub : Nat) : Int := s.now + 10 * (sub : Int)

/-- An instant as an LSTAMP, and the instant an LSTAMP names (R318). -/
def lstampOf (u : Int) : Nat := (u / 256).toNat % 2 ^ 59 * 32 + ((u % 256) / 10).toNat
def lstampU (n : Nat) : Int := 256 * ((n / 32 : Nat) : Int) + 10 * ((n % 32 : Nat) : Int)

/-- A number modulo `m`, into [−m/2, m/2). -/
def wrapInt (m x : Int) : Int := (x + m / 2) % m - m / 2

/-- The instant nearest to `u` that an LSTAMP names: COUNT wraps at 2^59 (R318). -/
def lstampBy (u : Int) (n : Nat) : Int := u + wrapInt (256 * 2 ^ 59) (lstampU n - u)

/-- Bytes put over those of a list from `i` on. -/
def putBytes (bs : List Byte) (i : Nat) (v : List Byte) : List Byte := bs.take i ++ v ++ bs.drop (i + v.length)

/-- Where a version's SYNC payload holds its fields (R330, R333). -/
structure SyncFields where
  hops : Nat
  flags : Nat
  corr : Nat
  rate : Nat
  loc : Nat
deriving DecidableEq, Repr

def sync1 : SyncFields := ⟨1, 10, 12, 20, 24⟩
def sync2 : SyncFields := ⟨2, 3, 16, 28, 32⟩

/-- A time message, by its version: class E, DST 127, LL 0, and the payload length of its MTYPE. -/
def Frame.sync (f : Frame) : Option SyncFields :=
  if f.hdr.cls = .E ∧ f.hdr.dst = 127 ∧ f.hdr.ll = false then
    if f.hdr.mtype = 0x10 ∧ f.payload.length = 32 then some sync1
    else if f.hdr.mtype = 0x11 ∧ f.payload.length = 40 then some sync2 else none
  else none

/-- FLAGS.ORIG of a payload. -/
def origOf (x : SyncFields) (bs : List Byte) : Bool := nbit (leAt bs x.flags 1) 0

/-- CORRECTION raised by `d`, in units of 2^-16 ns. -/
def addCorr (x : SyncFields) (d : Int) (bs : List Byte) : List Byte :=
  putBytes bs x.corr (leBytes (uns 64 (sgn 64 (leAt bs x.corr 8) + d)) 8)

/-- Local time in units of 2^-16 ns. -/
def wOf (u : Int) : Int := u * 2048 / 5

/-- A time message received at instant `t` (R332): the frame forwarded and the frame consumed. `delay` is the ingress delay, where
it is valid. One with ORIG 1 is left as it is. -/
def Frame.arrive (f : Frame) (delay : Option Int) (t : Int) : Frame × Frame :=
  match f.sync with
  | none => (f, f)
  | some x =>
    if origOf x f.payload then (f, f)
    else
      let p := match delay with
        | some d => addCorr x d f.payload
        | none => putBytes f.payload x.flags [BitVec.ofNat 8 (leAt f.payload x.flags 1 ||| 2)]
      ({ f with payload := p, tin := some t }, { f with payload := putBytes p x.loc (leBytes (lstampOf t) 8) })

/-- A time message sent at instant `t` (R331, R332): this hub's own one with ORIG 1 is corrected for its residence; a forwarded
one takes its residence and a hop. -/
def Frame.depart (f : Frame) (self : Option Nat) (t : Int) : Frame :=
  match f.sync with
  | none => f
  | some x =>
    if origOf x f.payload then
      if some f.hdr.src = self then
        let d := t - lstampBy t (leAt f.payload x.loc 8)
        let rate := sgn 32 (leAt f.payload x.rate 4)
        let p := addCorr x (d * 2048 * (2 ^ 40 + rate) / (5 * 2 ^ 40)) f.payload
        let p := putBytes p x.flags [BitVec.ofNat 8 (leAt f.payload x.flags 1 &&& 0xFE)]
        { f with payload := putBytes (putBytes p x.rate (leBytes 0 4)) x.loc (leBytes 0 8) }
      else f
    else match f.tin with
      | none => f
      | some t0 =>
        { f with payload := putBytes (addCorr x (wOf (t - t0)) f.payload) x.hops
                              [BitVec.ofNat 8 (leAt f.payload x.hops 1 + 1)] }

/-- The ingress delay of a ring port in 2^-16 ns, where VALID (R332, R337). -/
def State.ingressDelay (s : State) (p : RingPort) : Option Int :=
  if s.fb p.page RP_PD_DELAY_VALID then
    some ((s.fg p.page RP_PD_DELAY_DELAY : Int) * 4096 + (2 * sgn 16 (s.fg p.page RP_PD_ASYM_ASYM) * 8192 + 125) / 250)
  else none

/-- This hub's identifier, where it has one. -/
def State.self (s : State) : Option Nat := if s.hubValid then some s.hubId else none

/-- The bytes of a frame as a ring port sends them at instant `t`. -/
def State.departBytes (s : State) (t : Int) (bs : List Byte) : List Byte :=
  if (Frame.ofBytes bs).sync.isSome then ((Frame.ofBytes bs).depart s.self t).bytes else bs

end Sys2Proof.Machine
end

