-- ==== Sys2Proof/Machine/SwitchCore.lean ====
section
/-! DEFINITION. The switch core (chapter 6): cells, links, frame records, free lists, admission and accounts, delivery,
forwarding start, verdicts, copies and their ends, cell-memory errors and bank replacement. -/
namespace Sys2Proof.Machine

/-! ### Parts of the state -/

def State.que (s : State) (q : Nat) : Que := s.core.ques.getD q {}
def State.setQue (s : State) (q : Nat) (v : Que) : State := { s with core := { s.core with ques := s.core.ques.put q v {} } }
def State.frec (s : State) (c : Nat) : FRec := s.core.recs.getD c {}
def State.setRec (s : State) (c : Nat) (v : FRec) : State := { s with core := { s.core with recs := s.core.recs.put c v {} } }
def State.bank (s : State) (b : Nat) : Bank := s.core.banks.getD b {}
def State.setBank (s : State) (b : Nat) (v : Bank) : State := { s with core := { s.core with banks := s.core.banks.put b v {} } }
def State.ing (s : State) (p : Nat) : Ing := s.core.ing.getD p {}
def State.setIng (s : State) (p : Nat) (v : Ing) : State := { s with core := { s.core with ing := s.core.ing.put p v {} } }
def State.eg (s : State) (p : Nat) : Option Eg := s.core.eg.getD p none
def State.setEg (s : State) (p : Nat) (v : Option Eg) : State := { s with core := { s.core with eg := s.core.eg.put p v none } }
def State.inbox (s : State) (p : Nat) : List Frame := s.core.inbox.getD p []
def State.setInbox (s : State) (p : Nat) (v : List Frame) : State :=
  { s with core := { s.core with inbox := s.core.inbox.put p v [] } }

/-- An island is released (R88). -/
def State.islUp (s : State) (i : Nat) : Bool := (s.isl.getD i {}).rel

/-- A counter of core port `p` (CORE_PCNT). -/
def State.pcnt (s : State) (p off : Nat) : State := s.inc 0x010 (whole (off + 0x20 * p))

/-! ### Ports (R160, R189) -/

/-- The page of a core port's block; the lantern has none. -/
def portPage (p : Nat) : Option Nat :=
  if p = 0 then some 0x008 else if p = 1 then some 0x009 else if p = 2 then some 0x024 else if p = 3 then some 0x020
  else if p = 4 then none else if p = 5 then some 0x01C else if p < 30 then some (0x080 + (p - 6)) else none

/-- A core port is down (R189): its block not ready or isolated, or its bit in CORE_PORT_EN 0. An isolated block has READY 0
(R476). -/
def State.portDown (s : State) (p : Nat) : Bool :=
  !nbit (s.fg 0x010 CORE_PORT_EN_PORT) p ||
  (match portPage p with
   | some g => !s.ready g
   | none => !s.islUp 38)

/-- CORE_PORT_DOWN. -/
def State.portDownBits (s : State) : Nat := (List.range 30).foldl (fun n p => setBit n p (s.portDown p)) 0

/-- The port's queues are frozen: a ring port by R154, the twin and a cluster by R212. -/
def State.portFrozen (s : State) (p : Nat) : Bool :=
  if p = 0 then s.fb 0x008 RP_NEIGHBOUR_FROZEN else if p = 1 then s.fb 0x009 RP_NEIGHBOUR_FROZEN
  else s.core.lost.getD p 0 != 0

/-- Core cycles between two cells of a port (R18). -/
def portSpacing (p : Nat) : Nat := if p < 2 then 6 else if p = 4 then 24 else if p < 6 then 12 else 96

/-- CORE_FWD_CT of egress port `p` and a class (R184); it is 0 for the bridge and the scan unit. -/
def State.fwdCt (s : State) (p : Nat) (c : Cls) : Bool :=
  p != 3 && p != 5 && nbit (s.rd 0x010 (CORE_FWD_CT_E + 4 * c.code)).toNat p

/-- The core admits new frames and starts copies: READY, RUNNING and not asked to stop (R199). -/
def State.coreAdmits (s : State) : Bool := s.ready 0x010 && s.running 0x010 && !s.stopping.contains 0x010

/-! ### Accounts and shared space (R172-R175) -/

/-- CHARGE and DEPTH of a queue (R205). -/
def Que.charge (x : Que) : Nat := ((x.ents.filter fun e => !e.acct).map (·.n)).sum
def Que.depth (x : Que) : Nat := x.ents.length

/-- QMIN and QMAX (R206). -/
def qPage (q : Nat) : Nat := 0x011 + q % 1024 / 256
def State.qmin (s : State) (q : Nat) : Nat := s.fg (qPage q) (QCFG_QMIN.at (4 * (q % 256)))
def State.qmax (s : State) (q : Nat) : Nat := s.fg (qPage q) (QCFG_QMAX.at (4 * (q % 256)))

/-- The charge of the ring ingress account of port `p` (0 East, 1 West) and a class: the cells written of every copy charged
to it that has not ended (R175, R177). Such copies wait in the ring ports' queues. -/
def State.acctCharge (s : State) (p : Nat) (c : Cls) : Nat :=
  ((List.range 8).map fun q => (((s.que q).ents.filter fun e =>
    e.acct && decide ((s.frec e.cell).ingress = p) && decide ((s.frec e.cell).cls = c)).map
      fun e => (s.frec e.cell).written).sum).sum

/-- RSV of a ring ingress account (R173). -/
def State.rsv (s : State) (p : Nat) (c : Cls) : Nat :=
  match c with
  | .E => 0
  | .T => s.fg 0x010 (CORE_RING_RSV_E_RSV_T.at (4 * p))
  | .B => s.fg 0x010 (CORE_RING_RSV_E_RSV_B.at (4 * p))
  | .M => s.fg 0x010 (CORE_RING_RSV_E_RSV_M.at (4 * p))

/-- A bank replacement runs, and its logical bank (R196). -/
def State.replacing (s : State) : Bool := s.core.repl.isSome
def State.replBank (s : State) : Nat := s.core.repl.getD 0

/-- The pool (R173). -/
def State.pool (s : State) : Nat := if s.replacing then 15360 else 16384

/-- What the queues and the ring ingress accounts hold or reserve (R173). -/
def State.heldByQueues (s : State) : Nat := ((List.range 1024).map fun q => max (s.qmin q) (s.que q).charge).sum
def State.heldByRings (s : State) : Nat :=
  ([0, 1].map fun p => (creditClasses.map fun c => max (s.rsv p c) (s.acctCharge p c)).sum).sum

/-- The shared space, never below 0 (R173). -/
def State.sharedSpace (s : State) : Nat := s.pool - s.heldByQueues - s.heldByRings

/-- How R174 judges a copy. -/
inductive Admit where
  | ok | qmax | pool
deriving DecidableEq, Repr

/-- The judgement of a copy of `n` cells to queue `q` (R174). -/
def State.admission (s : State) (q n : Nat) : Admit :=
  let c := (s.que q).charge
  if s.qmax q < c + n then .qmax
  else if s.sharedSpace < n - (s.qmin q - c) then .pool else .ok

/-- The class maximum in cells (R175). -/
def maxCells (c : Cls) : Nat := if c = .E ∨ c = .M then 4 else 22

/-! ### The allocator (R169, R170) and the banks (R165, R196) -/

/-- Free cells of a logical bank. -/
def Bank.free (b : Bank) : Nat := (1024 - b.fresh) + b.back.length

/-- A row of a logical bank holds a cell. -/
def Bank.allocated (b : Bank) (row : Nat) : Bool := decide (row < b.fresh) && !b.back.contains row

/-- The banks a write may go to: a free cell, not the bank being read, not the bank under replacement (R169). -/
def State.openBanks (s : State) : List Nat :=
  (List.range 16).filter fun b => decide (0 < (s.bank b).free) && decide (s.core.readBank ≠ some b) &&
    !(s.replacing && decide (b = s.replBank))

/-- The open bank with the most free cells, the lowest on a tie (R169). -/
def State.pickBank (s : State) : Option Nat :=
  s.openBanks.foldl (fun best b =>
    match best with
    | none => some b
    | some a => if (s.bank a).free < (s.bank b).free then some b else some a) none

/-- The head of the free list of an array of `size` rows, and the list without it. -/
def Bank.takeOf (size : Nat) (b : Bank) : Nat × Bank :=
  if b.fresh < size then (b.fresh, { b with fresh := b.fresh + 1 })
  else (b.back.headD 0, { b with back := b.back.tail })

/-- The head of a bank's free list, and the list without it. -/
def Bank.take (b : Bank) : Nat × Bank := b.takeOf 1024

/-- The physical bank that holds a row of a logical bank (R165, R196 step 4). -/
def State.phys (s : State) (b row : Nat) : Nat :=
  if s.fb 0x010 CORE_BANK_SPARE_SPARED && decide (s.fg 0x010 CORE_BANK_SPARE_LOGICAL = b) then 16
  else if s.replacing && decide (s.replBank = b) && decide (row < s.fg 0x010 CORE_SPARE_STATUS_ROW) then 16 else b

/-- The place of a cell index in the data rows and link arrays. -/
def State.cellKey (s : State) (c : Nat) : Nat := s.phys (c / 1024 % 16) (c % 1024) * 1024 + c % 1024

/-- The link entry and the data of a cell. -/
def State.link (s : State) (c : Nat) : Link := s.core.links.getD (s.cellKey c) {}
def State.cell (s : State) (c : Nat) : BitVec 192 := s.core.cells.getD (s.cellKey c) 0
def State.setLink (s : State) (c : Nat) (v : Link) : State :=
  { s with core := { s.core with links := s.core.links.put (s.cellKey c) v {} } }
def State.setCell (s : State) (c : Nat) (v : BitVec 192) : State :=
  { s with core := { s.core with cells := s.core.cells.put (s.cellKey c) v 0 } }

/-- 24 bytes as a cell (R164), and the bytes of a cell. -/
def packCell (bs : List Byte) : BitVec 192 := BitVec.ofNat 192 (ofLe (bs.take 24))
def cellBytes (v : BitVec 192) (n : Nat) : List Byte := leBytes v.toNat n

/-- A cell's row returned to its bank's free list. -/
def State.freeCell (s : State) (c : Nat) : State :=
  let b := s.bank (c / 1024 % 16)
  s.setBank (c / 1024 % 16) { b with back := b.back ++ [c % 1024] }

/-- An entry returned to the free list of the entry array (R203). -/
def State.freeEnt (s : State) (i : Nat) : State :=
  { s with core := { s.core with entFree := { s.core.entFree with back := s.core.entFree.back ++ [i] } } }

/-- The cells of a chain returned, `n` of them from `c` on (R168). -/
def State.freeChain : Nat → Nat → State → State
  | 0, _, s => s
  | n + 1, c, s => State.freeChain n (s.link c).next (s.freeCell c)

/-! ### Copies -/

/-- A frame with a copy dropped and another admitted: MULTICAST_PARTIAL, once for the frame (R191). -/
def State.partialDelivery (s : State) (c : Nat) : State :=
  let r := s.frec c
  if r.partialSeen then s
  else ((s.setRec c { r with partialSeen := true }).inc 0x010 CORE_CNT_MCAST_PARTIAL_COUNT).raise 0x010 EV_CORE_MULTICAST_PARTIAL

/-- The lane port of a ring core port. -/
def ringLane (p : Nat) : LanePort := if p = 0 then .east else .west

/-- REFS falls by one; at 0 the frame's cells are free and an ingress still writing it stores no more (R168). -/
def State.unref (s : State) (c : Nat) : State :=
  let r := s.frec c
  if r.refs ≤ 1 then
    let s1 : State := { s with core := { s.core with ing := s.core.ing.map fun (e : Nat × Ing) =>
      (e.1, if e.2.busy && e.2.stored && decide (e.2.head = c) then { e.2 with stored := false } else e.2) } }
    (s1.freeChain r.written c).setRec c {}
  else s.setRec c { r with refs := r.refs - 1 }

/-- Cells of the frame at a head cell that its ingress has still to write. -/
def State.cellsLeft (s : State) (head : Nat) : Nat :=
  ((s.core.ing.filter fun e => e.2.busy && e.2.stored && decide (e.2.head = head)).map fun e => (e.2.rest.length + 23) / 24).sum

/-- The cells of the frame at a head cell: those written, and those its ingress has still to write. -/
def State.frameCells (s : State) (head : Nat) : Nat := (s.frec head).written + s.cellsLeft head

/-- A copy ends (R168): a ring ingress account releases its cells, those that arrive after it among them (R177), REFS falls, and its
entry is free. -/
def State.endCopy (s : State) (e : QEnt) : State :=
  let r := s.frec e.cell
  let s1 := if e.acct then s.freed (ringLane r.ingress) r.cls (s.frameCells e.cell) else s
  (s1.unref e.cell).freeEnt e.idx

/-- The copy in progress at egress port `p` is the head of queue `q`. -/
def State.sending (s : State) (p q : Nat) : Bool :=
  match s.eg p with
  | some g => decide (g.q = q)
  | none => false

/-- The head entry of the queue has been started: by its port, or by takes of the read port. A flush removes a partly taken
frame of a software queue (R210), so only a port's copy is kept. -/
def State.headStarted (s : State) (q : Nat) : Bool := decide (q < 120) && s.sending (q / 4) q

/-- The entries of a queue whose copies have not started, and the started head. -/
def State.unstarted (s : State) (q : Nat) : List QEnt :=
  if s.headStarted q then (s.que q).ents.tail else (s.que q).ents
def State.startedEnts (s : State) (q : Nat) : List QEnt :=
  if s.headStarted q then (s.que q).ents.take 1 else []

/-- One copy dropped by a flush: it ends, and counts as dropped under R191 where its frame has other copies. -/
def State.dropFlushed (s : State) (e : QEnt) : State :=
  if e.item then (s.freeCell e.cell).freeEnt e.idx
  else (if 1 < (s.frec e.cell).copies then s.partialDelivery e.cell else s).endCopy e

/-- Every unstarted entry of a queue removed (R209); answers the number removed. -/
def State.flushQueue (s : State) (q : Nat) : State × Nat :=
  let gone := s.unstarted q
  let x := s.que q
  let s1 := s.setQue q { x with ents := s.startedEnts q, cut := x.cut || decide (0 < x.taken), taken := 0, next := 0 }
  (gone.foldl (fun t e => t.dropFlushed e) s1, gone.length)

/-! ### Delivery (R180-R183) -/

/-- What the delivery map gives a consumed frame: no copy, a dropped copy, or a queue. -/
inductive Deliv where
  | none | bad | queue (q : Nat)
deriving DecidableEq, Repr

/-- The delivery map's answer for a header (R182, R202). -/
def State.deliver (s : State) (h : Hdr) : Deliv :=
  let e := h.cls.code * 64 + h.mtype % 64
  let b := ((s.rd 0x010 (CORE_DELIV + 4 * (e / 4))).toNat >>> (8 * (e % 4))) % 256
  let stream := h.stream % 32
  let arg := h.argBits 0 10
  if b / 64 = 0 then .none
  else if b / 64 = 1 then .queue (4 * (b % 32) + h.cls.code)
  else if b / 64 = 2 then (if 23 < stream then .bad else .queue (4 * (6 + stream) + h.cls.code))
  else if arg < 12 ∨ 960 ≤ arg then .bad else .queue arg

/-- The types the ring port logic consumes itself, which take no queue-charged copy (R181). -/
def portLogicType (h : Hdr) : Bool :=
  decide (h.mtype = 0x3F) || (decide (h.cls = .M) && [0x01, 0x02, 0x03, 0x08, 0x09].contains h.mtype)

/-- A copy asked for: its queue, whether a ring ingress account takes the charge, the cells to take in, and its hold. -/
structure Want where
  q : Nat
  acct : Bool
  n : Nat
  hold : Option Nat
deriving DecidableEq, Repr

/-- The unallocated types among those that the lantern or a cluster would consume (R127, R310, R330, R495); the scan unit and the bridge
judge their own. -/
def unallocated (h : Hdr) : Bool :=
  (decide (h.cls = .E) && decide (0x12 ≤ h.mtype) && decide (h.mtype ≤ 0x17)) ||
  (decide (h.cls = .B) && decide (1 ≤ h.mtype) && decide (h.mtype ≤ 0x0F)) ||
  ((decide (h.cls = .E) || decide (h.cls = .T)) && decide (0x21 ≤ h.mtype) && decide (h.mtype ≤ 0x27))

/-- A version-1 SYNC for the lantern in native operation (R334). -/
def State.oldSync (s : State) (h : Hdr) : Bool :=
  decide (h.cls = .E) && decide (h.mtype = 0x10) && !s.compat 0x018 && decide (s.deliver h = .queue (4 * portLantern))

/-- The copy through the delivery map, if any, with the counters of R127 and R182; the lantern discards a version-1 SYNC of native operation,
which DOM_A counts as rejected (R334). -/
def State.wantDeliv (s : State) (p n : Nat) (h : Hdr) (hold : Option Nat) : State × List Want × Bool :=
  if unallocated h then (s.inc 0x00A RC_CNT_UNKNOWN_COUNT, [], false)
  else if s.oldSync h then (if s.ready 0x018 then s.inc 0x018 TM_D_CNT_REJECTED else s, [], false)
  else match s.deliver h with
  | .none => (s.inc 0x00A RC_CNT_UNKNOWN_COUNT, [], false)
  | .bad => (s.pcnt p CORE_PCNT_DROP_BAD, [], true)
  | .queue q => (s, [⟨q, false, n, hold⟩], false)

/-- A header turned at a wrap (R130, R148): DIR inverted; WRAPS raised where the frame is passing through, else 0b10; none where it may
not turn again. -/
def Hdr.turn (passing : Bool) (h : Hdr) : Option Hdr :=
  if h.wraps = 0 then some { h with dir := h.dir.flip, wraps := if passing then 1 else 2 }
  else if h.wraps = 2 then some { h with dir := h.dir.flip, wraps := 3 }
  else none

/-- A frame refused a further turn is counted at its receiving port. -/
def State.dropLoop (s : State) (p : RingPort) : State := s.inc p.page RP_DROP_LOOP_COUNT

/-- Where a frame for ring port `o` leaves now: by `o`, or where that is wrapped and the other is not, by the other with its header
turned; none where it may not turn (R148). -/
def State.leavesBy (s : State) (o : RingPort) (passing : Bool) (h : Hdr) : Option (RingPort × Hdr) :=
  if s.wrapped o && !s.wrapped o.other then (h.turn passing).map fun h' => (o.other, h') else some (o, h)

/-- A ring port is in ACTIVE; a hub with none is a segment of one and originates no ring frame (R153). -/
def State.ringUp (s : State) : Bool := s.portActive .east || s.portActive .west

/-- The ring port of a port queue, and of a ring core port. -/
def ringOfCore (p : Nat) : RingPort := if p = 0 then .east else .west

/-- The copies a frame at port `p` asks for, with its header as it is stored; true where one was dropped already. A port that has wrapped
since the frame was decided turns it (R148). -/
def State.wants (s : State) (p : Nat) (x : InFrame) : State × Hdr × List Want × Bool :=
  let h := x.frame.hdr
  match x.route with
  | .ring fwd consume hold =>
    let way := fwd.map fun o => s.leavesBy o true h
    let s0 := if way = some none then s.dropLoop (ringOfCore p) else s
    let (h1, a) : Hdr × List Want := match way with
      | some (some (o, h')) => (h', [⟨4 * o.core + h.cls.code, decide (h.cls ≠ .E), maxCells h.cls, none⟩])
      | _ => (h, [])
    if consume && !portLogicType h then
      let (s1, c, lost) := s0.wantDeliv p (maxCells h.cls) h hold
      (s1, h1, a ++ c, lost)
    else (s0, h1, a, false)
  | .logic q => match s.leavesBy (ringOfCore (q / 4)) false h with
    | some (o, h') => (s, h', [⟨4 * o.core + h.cls.code, false, x.frame.cells, none⟩], false)
    | none => (s.dropLoop (ringOfCore (q / 4)), h, [], false)
  | .desc d =>
    let kind := d / 2 ^ 30 % 4
    let q := d / 2 ^ 20 % 1024
    let cells := d / 2 ^ 15 % 32
    if 1 < kind ∨ cells = 0 ∨ 22 < cells ∨ (kind = 1 ∧ (q < 12 ∨ 960 ≤ q)) then (s.pcnt p CORE_PCNT_DROP_BAD, h, [], false)
    else if kind = 1 then (s, h, [⟨q, false, cells, none⟩], false)
    else if s.isSelf h.dst then
      let (s1, c, lost) := s.wantDeliv p cells h none
      (s1, h, c, lost)
    else if h.dst < 120 ∧ !s.live h.dst then (s.noDest, h, [], false)
    else if !s.ringUp then (s, h, [], false)
    else
      let (o, h') := s.resolve h
      (s, h', [⟨4 * o.core + h.cls.code, false, cells, none⟩], false)

/-! ### Writing frames -/

/-- The port read of the cycle is over. -/
def State.endCycle (s : State) : State := { s with core := { s.core with readBank := none } }

/-- A copy starts cut-through (R184). -/
def State.cutThrough (s : State) (p q : Nat) (c : Cls) : Bool :=
  decide (q < 120) && s.fwdCt (q / 4) c && decide (portSpacing p ≤ portSpacing (q / 4))

/-- One copy judged (R174, R176, R190): the state with its drop counted, and its entry where it is admitted. -/
def State.judge (s : State) (p : Nat) (c : Cls) (w : Want) (head : Nat) : State × Option QEnt :=
  let e : QEnt := { cell := head, acct := w.acct, ct := s.cutThrough p w.q c, n := w.n, hold := w.hold }
  if decide (w.q < 120) && s.portDown (w.q / 4) then (s.pcnt (w.q / 4) CORE_PCNT_DROP_DOWN, none)
  else if w.acct then (s, some e)
  else match s.admission w.q w.n with
    | .ok => (s, some e)
    | .qmax =>
      let s1 := s.pcnt p CORE_PCNT_DROP_QMAX
      (if p < 2 ∧ c = .E then s1.inc (ringLane p).page RP_DROP_E_COUNT else s1, none)
    | .pool =>
      let s1 := (s.pcnt p CORE_PCNT_DROP_POOL).raise 0x010 EV_CORE_POOL_EXHAUSTED
      (if p < 2 ∧ c = .E then s1.inc (ringLane p).page RP_DROP_E_COUNT else s1, none)

/-- A hold is open (R151). -/
def State.holdOpen (s : State) (n : Nat) : Bool := s.ring.flows.any fun e => decide (e.2.hold = some n)

/-- The entry's frame is held (R151). -/
def State.heldNow (s : State) (e : QEnt) : Bool := match e.hold with
  | some n => s.holdOpen n
  | none => false

/-- Entries in the order in which they may be delivered: those of open holds after all others, so that frames of the old path go before
the frames held (R142, R151). -/
def State.heldLast (s : State) (es : List QEnt) : List QEnt := (es.filter fun e => !s.heldNow e) ++ es.filter s.heldNow

/-- An entry linked to the tail of a queue. -/
def State.linkEnt (s : State) (q : Nat) (e : QEnt) : State :=
  s.setQue q { s.que q with ents := s.heldLast ((s.que q).ents ++ [e]), popped := none }

/-- A push: an entry of the entry array taken for it (R203). -/
def State.pushEnt (s : State) (q : Nat) (e : QEnt) : State :=
  ({ s with core := { s.core with entFree := (s.core.entFree.takeOf 16384).2 } } : State).linkEnt q
    { e with idx := (s.core.entFree.takeOf 16384).1 }

/-- The word of the entry array that a queue's entry is, with NEXT the index of the entry after it (R203). -/
def QEnt.word (e : QEnt) (next : Nat) : Word :=
  (⟨0, 18, 14⟩ : Fld).set next ((⟨0, 4, 14⟩ : Fld).set e.cell ((⟨0, 3, 1⟩ : Fld).set (bit e.item)
    ((⟨0, 2, 1⟩ : Fld).set (bit e.acct) ((⟨0, 1, 1⟩ : Fld).set (bit e.ct) 0))))

/-- The copy of an admitted copy that goes to the twin for a mirrored software queue (R407): the copies admitted, and whether one was
dropped. -/
def State.admitTwin (s : State) (p : Nat) (c : Cls) (head : Nat) (w : Want) : State × Nat × Bool :=
  if s.mirroring && decide (120 ≤ w.q) && s.mirroredQueue w.q then
    match s.judge p c { w with q := 8 + c.code, hold := none } head with
    | (u, some e) => (u.pushEnt (8 + c.code) { e with qcopy := some w.q }, 1, false)
    | (u, none) => (u, 0, true)
  else (s, 0, false)

/-- The copies judged in order; each admitted one enters its queue at once (R174, R187). Answers the number admitted and
whether one was dropped. -/
def State.admitAll (s : State) (p : Nat) (c : Cls) (head : Nat) (ws : List Want) : State × Nat × Bool :=
  ws.foldl (fun (t : State × Nat × Bool) w =>
    match t.1.judge p c w head with
    | (u, some e) =>
      let (u', k, lost) := (u.pushEnt w.q e).admitTwin p c head w
      (u', t.2.1 + 1 + k, t.2.2 || lost)
    | (u, none) => (u, t.2.1, true)) (s, 0, false)

/-- An entry of the frame at `head` that its queue is charged for takes the frame's actual cells (R175, R179). -/
def QEnt.settle (head n : Nat) (x : QEnt) : QEnt :=
  if decide (x.cell = head) && !x.item && !x.acct then { x with n := n } else x

/-- Every copy of the frame at `head` so settled. -/
def State.settleCharge (s : State) (head n : Nat) : State :=
  let ques : Map Que := s.core.ques.map fun e => (e.1, { e.2 with ents := e.2.ents.map (QEnt.settle head n) })
  { s with core := { s.core with ques := ques } }

/-- A copy awaiting its end for a bad verdict (R186): an unstarted one is dropped and counted, a started one ends bad. -/
def State.badCopies (s : State) (head : Nat) : State :=
  let p := (s.frec head).ingress
  let s1 : State := { s with core := { s.core with eg := s.core.eg.map fun (e : Nat × Option Eg) =>
    (e.1, match e.2 with
          | some g => if decide ((s.que g.q).ents.head?.map (·.cell) = some head) then some { g with bad := true } else some g
          | none => none) } }
  s.core.ques.foldl (fun t e =>
    let gone := (t.unstarted e.1).filter fun x => decide (x.cell = head) && !x.item
    let keep := t.startedEnts e.1 ++ (t.unstarted e.1).filter fun x => !(decide (x.cell = head) && !x.item)
    if gone.isEmpty || (decide (120 ≤ e.1) && decide (0 < e.2.taken) && decide ((e.2.ents.head?.map (·.cell)) = some head)) then t
    else gone.foldl (fun u x => (u.pcnt p CORE_PCNT_DROP_BAD).endCopy x) (t.setQue e.1 { t.que e.1 with ents := keep })) s1

/-- VERDICT delivered (R185, R186). -/
def State.setVerdict (s : State) (head : Nat) (good : Bool) : State :=
  if (s.frec head).verdict ≠ .pending ∨ (s.frec head).refs = 0 then s
  else if good then s.setRec head { s.frec head with verdict := .good }
  else (s.setRec head { s.frec head with verdict := .bad }).badCopies head

/-- One cell written to bank `b` from ingress slot `i` of port `p` (R164, R166). -/
def State.putCell (s : State) (i p b : Nat) : State :=
  let x := s.ing i
  let (row, bk) := (s.bank b).take
  let c := b * 1024 + row
  let bytes := x.rest.take 24
  let rest := x.rest.drop 24
  let s1 := (s.setBank b bk).setCell c (packCell bytes)
  let s2 := s1.setLink c { next := 0, last := rest.isEmpty, len := bytes.length }
  let s3 := if x.k = 0 then s2 else s2.setLink x.prev { s2.link x.prev with next := c }
  let head := if x.k = 0 then c else x.head
  let s4 := if x.k = 0 then s3 else s3.setRec head { s3.frec head with written := (s3.frec head).written + 1 }
  (s4.setIng i { x with k := x.k + 1, head := head, prev := c, rest := rest, waits := 0 }).pcnt p CORE_PCNT_CELLS_IN

/-- The head cell of a frame written at slot `i` of port `p` to bank `b`, and everything decided with it (R174-R177, R190,
R191, R200). `fed` says that the frame arrived on a ring link under credit. -/
def State.putHead (s : State) (i p b : Nat) (c : Cls) (ws : List Want) (lost0 : Bool) (fed : Bool) (bytes : List Byte)
    (cells : Nat) (bad : Bool) : State :=
  let cred := bytes.length
  let head := b * 1024 + (s.bank b).take.1
  let (s1, k, lost) := s.admitAll p c head ws
  let s2 := s1.pcnt p CORE_PCNT_FRAMES_IN
  let s3 := if fed && !(ws.any fun w => w.acct && !(decide (w.q < 120) && s.portDown (w.q / 4))) then
    s2.freed (ringLane p) c ((cred + 23) / 24) else s2
  if k = 0 then
    (s3.setIng i { busy := true, k := 1, rest := bytes.drop 24, stored := false, cells := cells, bad := bad }).pcnt p CORE_PCNT_CELLS_IN
  else
    let s4 := s3.setRec head { refs := k, verdict := .pending, ingress := p, cls := c, written := 1, copies := k }
    let s5 := (s4.setIng i { busy := true, k := 0, rest := bytes, stored := true, cells := cells, bad := bad }).putCell i p b
    let s6 := if (s5.ing i).rest.isEmpty then s5.settleCharge head 1 else s5
    if lost || lost0 then s6.partialDelivery head else s6

/-- A write that finds no bank waits a cycle (R170). -/
def State.defer (s : State) (i : Nat) : State :=
  ((s.setIng i { s.ing i with waits := (s.ing i).waits + 1 }).inc 0x010 CORE_CNT_WR_DEFER_COUNT).endCycle

/-- The next cell of the frame in progress at slot `i` written to bank `b`. A frame that writes more cells than its CELLS is
dropped and counted (R179). -/
def State.putNext (s : State) (i p b : Nat) : State :=
  let x := s.ing i
  if 0 < x.cells ∧ x.cells ≤ x.k then
    let s1 := (s.setIng i { x with rest := [], bad := true })
    if x.stored then s1.setVerdict x.head false else s1.pcnt p CORE_PCNT_DROP_BAD
  else if x.stored then
    let s1 := s.putCell i p b
    if (s1.ing i).rest.isEmpty then s1.settleCharge x.head (s1.ing i).k else s1
  else (s.setIng i { x with k := x.k + 1, rest := x.rest.drop 24 }).pcnt p CORE_PCNT_CELLS_IN

/-- An output of the routing unit refused at its origin: RT_CNT_DROP and RT_DROP, fault source 0x56. -/
def State.routeDropped (s : State) : State := (s.inc 0x200 RT_CNT_DROP_COUNT).raise 0x200 8

/-- What the scan unit keeps of the PUBLISH frame that its port writes, and LAST when a publication's last frame has been sent (R353). -/
def State.pubNote (s : State) (p : Nat) (f : Frame) : State :=
  if p = portScan ∧ f.hdr.cls = .E ∧ f.hdr.mtype = 0 then
    s.setIng p { s.ing p with pub := some (leAt f.payload 2 1, f.hdr.argBits 0 32, nbit (leAt f.payload 1 1) 0) }
  else s
def State.pubSent (s : State) (p : Nat) : State := match (s.ing p).pub with
  | some (k, e, true) => s.wr 0x01C (SC_PUB_STAT + 0x10 * k) (BitVec.ofNat 32 e)
  | _ => s

/-- The head cell of the frame waiting at port `p` takes its write, in a bank if there is one. -/
def State.writeHead (s : State) (p : Nat) (x : InFrame) (rest : List InFrame) : State :=
  match s.pickBank with
  | none => s.defer p
  | some b =>
    let (s1, h, ws, lost) := s.wants p x
    let fed := match x.route with
      | .ring _ _ _ => decide (h.cls ≠ .E)
      | _ => false
    let cells := match x.route with
      | .ring _ _ _ => 0
      | .logic _ => x.frame.cells
      | .desc d => d / 2 ^ 15 % 32
    let s2 := { s1 with ingress := s1.ingress.put p (s1.ingress.getD p []).tail [] }
    let s3 := ((s2.putHead p p b h.cls ws lost fed ({ x.frame with hdr := h } : Frame).bytes cells x.frame.bad).endCycle).pubNote p x.frame
    if x.routed && !(s3.ing p).stored then s3.routeDropped else s3

/-- The next cell of slot `i` of port `p` takes its write, in a bank if there is one. -/
def State.writeNext (s : State) (i p : Nat) : State :=
  if !(s.ing i).stored then s.putNext i p 0
  else match s.pickBank with
    | none => s.defer i
    | some b => (s.putNext i p b).endCycle

/-- The cells still to write of slot `i` of port `p`, with the cycles that a write waits for a bank (R170); `n` bounds both together. -/
def State.writeRest (i p : Nat) : Nat → State → State
  | 0, s => s
  | n + 1, s => if (s.ing i).rest.isEmpty then s else State.writeRest i p n (s.writeNext i p)

/-- The head cell of the frame at port `p`'s ingress is written (R174). -/
def State.headWrite (s : State) (p : Nat) : State := match s.ingress.getD p [] with
  | x :: rest => if s.coreAdmits && !(s.ing p).busy && !s.portDown p then s.writeHead p x rest else s
  | [] => s


/-- A deferred write of port `p` (R170): the waiting write takes its cycle; the core grants no read of its bank in it. -/
def State.deferredWrite (s : State) (p : Nat) : State :=
  if (s.ing p).waits = 0 then s
  else if (s.ing p).busy then (if (s.ing p).rest.isEmpty then s else s.endCycle.writeNext p p)
  else match s.ingress.getD p [] with
    | x :: rest => if s.coreAdmits && !s.portDown p then s.endCycle.writeHead p x rest else s
    | [] => s

/-- An ingress that stops before its last cell: the cells that it will not write are free for a frame charged to a ring ingress
account (R177). -/
def State.stopIngress (s : State) (p : Nat) : State :=
  let x := s.ing p
  let r := s.frec x.head
  let acct := (List.range 8).any fun q => (s.que q).ents.any fun e => e.acct && decide (e.cell = x.head)
  let s1 := if x.stored && acct then s.freed (ringLane r.ingress) r.cls (s.cellsLeft x.head) else s
  s1.setIng p { x with rest := [] }

/-- The frame in progress at port `p`'s ingress stops before its last cell: VERDICT bad from now on (R185). -/
def State.ingressBad (s : State) (p : Nat) : State :=
  let x := s.ing p
  if !x.busy || x.rest.isEmpty then s
  else
    let s1 := if x.stored then (s.stopIngress p).setVerdict x.head false else s
    s1.setIng p { s1.ing p with rest := [], bad := true }

/-- The first frame of a list that was received, and not originated by the ring logic, closed as bad. -/
def closeFirst : List InFrame → Option (List InFrame)
  | [] => none
  | x :: xs => match x.route with
    | .logic _ => (closeFirst xs).map fun q => x :: q
    | _ => some ({ x with frame := { x.frame with bad := true } } :: xs)

/-- The frame that port `p` is receiving is closed as bad (R115, R117, R129, R135): the last one staged, or the one whose cells are being
written. -/
def State.closeArriving (s : State) (p : Nat) : State :=
  match closeFirst (s.ingress.getD p []).reverse with
  | some q => { s with ingress := s.ingress.put p q.reverse [] }
  | none => s.ingressBad p

/-- The block behind port `p` goes down (R185): what it was bringing stops. -/
def State.ingressDown (s : State) (p : Nat) : State :=
  let s1 := (s.ingressBad p).setIng p {}
  { s1 with ingress := s1.ingress.put p [] [] }

/-- A port reset: its ingress stops, and every entry of its four queues is removed; no copy is in progress (R211). -/
def State.flushPortReset (s : State) (p : Nat) : State :=
  let s0 := (s.ingressDown p).setEg p none
  let (s1, n) := (List.range 4).foldl (fun (t : State × Nat) c =>
    let (u, k) := t.1.flushQueue (4 * p + c)
    (u, t.2 + k)) (s0, 0)
  ({ s1 with core := { s1.core with lost := s1.core.lost.erase p, inbox := s1.core.inbox.erase p } } : State).addSat 0x011 (whole Q_CNT_FLUSH) n

/-- CORE_CELL_WRITE (R163). The frame of a port that has gone down stops (R185). -/
def execCoreCellWrite (p : CorePort) (s : State) : Out :=
  .next (
    if !(s.ing p.val).busy || (s.ing p.val).rest.isEmpty then s
    else if s.portDown p.val then s.ingressBad p.val else s.writeNext p.val p.val)

/-- FRAME_VERDICT (R185): the verdict comes with the last cell; a bad one from the cycle in which a stop is known. -/
def execFrameVerdict (p : CorePort) (good : Bool) (s : State) : Out :=
  .next (
    let x := s.ing p.val
    if !x.busy || (good && !x.rest.isEmpty) then s
    else
      let s1 := if x.stored then (s.stopIngress p.val).setVerdict x.head (good && !x.bad) else s
      (if good && !x.bad then s1.pubSent p.val else s1).setIng p.val {})

/-! ### Frames of the ring logic (R541) and of the read port -/

/-- A frame placed directly in queue `q` through core port `p`: FENCE of the ring logic (R541), and the copy after a QCOPY (R407). It is
written as soon as the frame in progress at the port has been (R187), with verdict good; none while the core admits no frame (R199). -/
def State.placeDirect (s : State) (p q : Nat) (f : Frame) : State :=
  if !s.coreAdmits then s
  else
    let i := 100 + p
    let s0 := State.writeRest p p 64 s
    let s1 := if s0.pickBank.isNone then s0.defer i else s0
    match s1.pickBank with
    | none => (s1.pcnt p CORE_PCNT_DROP_POOL).raise 0x010 EV_CORE_POOL_EXHAUSTED
    | some b =>
      let s2 := (s1.putHead i p b f.hdr.cls [⟨q, false, f.cells, none⟩] false false f.bytes f.cells false).endCycle
      let s3 := State.writeRest i p 64 s2
      (if (s3.ing i).stored then s3.setVerdict (s3.ing i).head (s3.ing i).rest.isEmpty else s3).setIng i {}

/-! ### Reading copies -/

/-- The entry may start: no open hold, and a head cell written for cut-through, a good verdict otherwise (R184). -/
def State.eligible (s : State) (e : QEnt) : Bool :=
  !s.heldNow e && (e.ct || decide ((s.frec e.cell).verdict = .good))

/-- The head of a queue, where it may start. -/
def State.eligibleHead (s : State) (q : Nat) : Option QEnt :=
  match (s.que q).ents with
  | e :: _ => if s.eligible e then some e else none
  | [] => none

/-- The first of the queues `qs` whose head may start. -/
def State.firstQueue (s : State) (qs : List Nat) : Option Nat := qs.find? fun q => (s.eligibleHead q).isSome

/-- Strict priority E, M, T, B of a port's queues (R162). -/
def portOrder (p : Nat) : List Nat := [4 * p, 4 * p + 3, 4 * p + 1, 4 * p + 2]

/-- Egress port `p` starts the head of queue `q`, at instant `t`. -/
def State.startCopy (s : State) (p q : Nat) (t : Int) : State :=
  match (s.que q).ents with
  | e :: _ => s.setEg p (some { q := q, next := e.cell, start := t })
  | [] => s

/-- An uncorrected error at a cell (R194): 1 data, 2 link entry, 3 frame record. -/
def State.uncorrected (s : State) (w c : Nat) : State :=
  let s1 := (s.inc 0x010 CORE_CNT_UE_COUNT).wr 0x010 CORE_ECC_LAST (CORE_ECC_LAST_WHERE.set w (CORE_ECC_LAST_CELL.set c 0))
  s1.raise 0x010 (if w = 1 then EV_CORE_ECC_UE else EV_CORE_LINK_UE)

/-- A corrected error of physical bank `k` (R193): counted, with its instant (R195). -/
def State.corrected (s : State) (k : Nat) : State :=
  let at0 := s.inWindow (s.fg 0x010 CORE_ECC_CFG_WINDOW) (s.core.ceAt.getD k []) ++ [s.lc]
  (({ s with core := { s.core with ceAt := s.core.ceAt.put k at0 [] } } : State).inc 0x010 (CORE_BANK_CNT_CE.at (4 * k))).raise 0x010
    EV_CORE_ECC_CE

/-- What the SECDED check of a read of cell `c` of the frame at `head` does (R193, R194, R204). An item of a mailbox has no frame. -/
def State.eccRead (s : State) (e : Ecc) (head c : Nat) : State :=
  let k := s.cellKey c / 1024
  match e with
  | .ok => s
  | .ce => s.corrected k
  | .linkCe => s.corrected k
  | .recCe => s.corrected (s.cellKey head / 1024)
  | .entCe => s.corrected (s.cellKey head / 1024)
  | .ue =>
    let s1 := s.uncorrected 1 c
    if (s1.frec head).refs = 0 then s1 else (s1.setRec head { s1.frec head with verdict := .bad }).badCopies head
  | .linkUe => s.uncorrected 2 c
  | .recUe => s.uncorrected 3 head
  | .entUe => s.uncorrected 2 head

/-- A header after `n` moves at a wrap. -/
def Hdr.turns (passing : Bool) : Nat → Hdr → Hdr
  | 0, h => h
  | n + 1, h => Hdr.turns passing n ((h.turn passing).getD h)

/-- The bytes of a copy as they leave: one moved at a wrap leaves turned, with HCRC and the trailer recomputed (R125, R148). -/
def QEnt.out (e : QEnt) (bs : List Byte) : List Byte :=
  if e.moved = 0 then bs else ({ Frame.ofBytes bs with hdr := (Frame.ofBytes bs).hdr.turns e.acct e.moved } : Frame).bytes

/-- No read of bank `b` is granted (R170): a write has waited in two consecutive cycles, and every free cell lies in it. -/
def State.readBarred (s : State) (b : Nat) : Bool :=
  (s.core.ing.any fun e => decide (2 ≤ e.2.waits)) && s.endCycle.openBanks.all fun a => decide (a = b)

/-- One cell of the copy in progress at port `p` read (R163). A cut-through copy's cell is read only once it is written. -/
def State.readCell (s : State) (p : Nat) (g : Eg) (ecc : Ecc) : State :=
  match (s.que g.q).ents with
  | [] => s.setEg p none
  | e :: _ =>
    if g.done ∨ g.bad ∨ (s.frec e.cell).written ≤ g.k ∨ s.readBarred (g.next / 1024 % 16) = true then s
    else
      let l := s.link g.next
      let bytes := cellBytes (s.cell g.next) l.len
      let s1 := s.setEg p (some { g with k := g.k + 1, next := l.next, done := l.last, bytes := g.bytes ++ bytes })
      let s2 := ({ s1 with core := { s1.core with readBank := some (g.next / 1024 % 16) } } : State).pcnt p CORE_PCNT_CELLS_OUT
      let s3 := if p < 3 then
          let lp := if p = 2 then LanePort.twin else ringLane p
          let c := clsOf (g.q % 4)
          if c = .E then s2 else s2.setCr lp c { s2.cr lp c with sent := ((s2.cr lp c).sent + 1) % 65536 }
        else s2
      s3.eccRead ecc e.cell g.next

/-- In the guard the scan unit takes no frame from its queues (R354). -/
def State.inGuard (s : State) (p : Nat) : Bool := decide (p = portScan) && s.fb 0x01C SC_STATUS_GUARDING

/-- CORE_CELL_READ (R163). A local port that reads nothing yet starts the first eligible copy in its order (R162); the ring
ports and the twin port start theirs at EGRESS_FRAME_START. -/
def execCoreCellRead (p : CorePort) (ecc : Ecc) (s : State) : Out :=
  .next (match s.eg p.val with
    | some g => s.readCell p.val g ecc
    | none =>
      if p.val < 3 || !s.coreAdmits || s.portDown p.val || s.portFrozen p.val || s.inGuard p.val then s
      else match s.firstQueue (portOrder p.val) with
        | none => s
        | some q =>
          let s1 := s.startCopy p.val q s.now
          match s1.eg p.val with
          | some g => s1.readCell p.val g ecc
          | none => s1)

/-- The copy in progress at port `p` leaves its queue and ends. -/
def State.popCopy (s : State) (p : Nat) (g : Eg) : State :=
  match (s.que g.q).ents with
  | [] => s.setEg p none
  | e :: es => ((s.setQue g.q { s.que g.q with ents := es }).setEg p none).endCopy e

/-- A copy sent or taken whole: counted, and handed to the lanes or to the block behind the port. -/
def State.finishCopy (s : State) (p : Nat) (g : Eg) : State :=
  let s1 := (s.popCopy p g).pcnt p CORE_PCNT_FRAMES_OUT
  if p < 3 then
    let lp := if p = 2 then LanePort.twin else ringLane p
    let bs := match (s.que g.q).ents with
      | e :: _ => e.out g.bytes
      | [] => g.bytes
    let s2 := s1.setPort lp { s1.port lp with tx := if p < 2 then s.departBytes g.start bs else bs }
    if p < 2 then s2.inc lp.page RP_TX_FRAMES_COUNT else s2
  else s1.setInbox p (s1.inbox p ++ [Frame.ofBytes g.bytes])

/-- COPY_END (R168): a copy read to its last cell ends with its frame's verdict good; one whose verdict became bad ends where
it stands, closed with K30.7 on a ring or twin egress (R135, R186). -/
def execCopyEnd (p : CorePort) (s : State) : Out :=
  .next (match s.eg p.val with
    | none => s
    | some g =>
      if g.bad then
        let s1 := s.popCopy p.val g
        if p.val < 2 then s1.inc (ringLane p.val).page RP_TRUNC_COUNT else s1
      else if g.done && decide (((s.que g.q).ents.head?.map fun e => (s.frec e.cell).verdict) = some .good) then
        s.finishCopy p.val g
      else s)

/-! ### Bank replacement (R195-R198) -/

/-- A replacement refused (R196 step 1). `busy` is a march test running on the cell memory. -/
def State.refuseSpare (s : State) (b : Nat) : State :=
  ((s.fs 0x010 CORE_SPARE_STATUS_STATE 3).fs 0x010 CORE_SPARE_STATUS_BANK b).raise 0x010 EV_CORE_SPARE_REFUSED

/-- A march run works on the cell memory (R465). -/
def State.marchOnCells (s : State) : Bool :=
  match s.mem.march with
  | some m => decide (m.target = 2)
  | none => false

/-- A replacement of logical bank `b` requested (R196), with the CAUSE its repair entry will carry (R466). -/
def State.requestSpare (s : State) (b cause : Nat) : State :=
  if s.replacing || s.fb 0x010 CORE_BANK_SPARE_SPARED || s.marchOnCells || !s.running 0x010 then s.refuseSpare b
  else { ((s.fs 0x010 CORE_SPARE_STATUS_STATE 1).fs 0x010 CORE_SPARE_STATUS_BANK b).fs 0x010 CORE_SPARE_STATUS_ROW 0 with
    core := { s.core with spareCause := cause, repl := some b } }

/-- The corrected errors of a physical bank have reached THRESH within WINDOW (R195). -/
def State.bankWorn (s : State) (k : Nat) : Bool :=
  decide (s.fg 0x010 CORE_ECC_CFG_THRESH ≠ 0) &&
  decide (s.fg 0x010 CORE_ECC_CFG_THRESH ≤ (s.inWindow (s.fg 0x010 CORE_ECC_CFG_WINDOW) (s.core.ceAt.getD k [])).length)

/-- BANK_ECC_THRESHOLD (R195): the physical bank's logical bank is to be replaced, with THRESH reached and SPARE_AUTO 1. -/
def execBankEccThreshold (bank : Fin 17) (s : State) : Out :=
  .next (
    if !s.bankWorn bank.val || !s.fb 0x010 CORE_CTRL_SPARE_AUTO then s
    else if bank.val = 16 then
      (if s.fb 0x010 CORE_BANK_SPARE_SPARED then s.requestSpare (s.fg 0x010 CORE_BANK_SPARE_LOGICAL) 2 else s)
    else s.requestSpare bank.val 2)

/-- CORE_SPARE_CMD (R196). -/
def State.coreSpareCmd (s : State) (v : Word) : State :=
  if CORE_SPARE_CMD_GO.get v = 1 then s.requestSpare (CORE_SPARE_CMD_BANK.get v) 0 else s

/-- The first allocated row of logical bank `b` from `r` on. -/
def State.nextRow (s : State) (b r : Nat) : Option Nat :=
  (List.range 1024).find? fun i => decide (r ≤ i) && (s.bank b).allocated i

/-- The cells of a chain, `n` of them from `c` on. -/
def State.chain (s : State) : Nat → Nat → List Nat
  | 0, _ => []
  | n + 1, c => c :: s.chain n (s.link c).next

/-- The head cell of the frame that a cell belongs to; the cell itself where no frame holds it. -/
def State.frameOf (s : State) (c : Nat) : Nat :=
  ((s.core.recs.find? fun e => (s.chain e.2.written e.1).contains c).map fun e => e.1).getD c

/-- BANK_ROW_COPY (R196 step 3): the next allocated row with its link entry goes to physical bank 16 and is marked moved. An error found
in it is handled as in any read, and the row goes as read (R197). -/
def execBankRowCopy (ecc : Ecc) (s : State) : Out :=
  .next (
    if !s.replacing then s
    else
      let b := s.replBank
      match s.nextRow b (s.fg 0x010 CORE_SPARE_STATUS_ROW) with
      | none => s.fs 0x010 CORE_SPARE_STATUS_ROW 1024
      | some r =>
        let d := s.core.cells.getD (b * 1024 + r) 0
        let l := s.core.links.getD (b * 1024 + r) {}
        let s0 := s.eccRead ecc (s.frameOf (b * 1024 + r)) (b * 1024 + r)
        let s1 : State := { s0 with core := { s0.core with
          cells := s0.core.cells.put (16 * 1024 + r) d 0
          links := s0.core.links.put (16 * 1024 + r) l {} } }
        s1.fs 0x010 CORE_SPARE_STATUS_ROW (r + 1))

/-- BANK_REPLACE_DONE (R196 steps 5 and 6), once every row has been scanned. -/
def execBankReplaceDone (s : State) : Out :=
  .next (
    if !s.replacing || (s.nextRow s.replBank (s.fg 0x010 CORE_SPARE_STATUS_ROW)).isSome then s
    else
      let b := s.replBank
      let s1 := s.wr 0x010 CORE_BANK_SPARE
        (CORE_BANK_SPARE_RETIRED.set b (CORE_BANK_SPARE_SPARED.set 1 (CORE_BANK_SPARE_LOGICAL.set b 0)))
      let t : State := (s1.fs 0x010 CORE_SPARE_STATUS_STATE 2).fs 0x010 CORE_SPARE_STATUS_ROW 1024
      let s2 : State := { t with core := { t.core with repl := none } }
      ((s2.setState 0x010 PAGE_STATE_SPARED true).raise 0x010 EV_CORE_SPARE_DONE).recordRepair ⟨2, b, 0, 0, s.core.spareCause⟩)

/-- CORE_CTRL with CLR_CNT: every counter of the page (R200). -/
def State.coreClrCnt (s : State) : State :=
  let s1 := (((s.wr 0x010 CORE_CNT_MCAST_PARTIAL 0).wr 0x010 CORE_CNT_WR_DEFER 0).wr 0x010 CORE_CNT_UE 0)
  let s2 := (List.range 17).foldl (fun (t : State) k => t.wr 0x010 (CORE_BANK_CNT + 4 * k) 0) s1
  (List.range 240).foldl (fun (t : State) k => t.wr 0x010 (CORE_PCNT_CELLS_IN + 4 * k) 0) s2

/-- CORE_POOL.FREE: the cells free in the logical banks; those of a bank under replacement count too. -/
def State.freeCells (s : State) : Nat := ((List.range 16).map fun b => (s.bank b).free).sum

end Sys2Proof.Machine
end

