-- ==== Sys2Proof/Machine/TwinRole.lean ====
section
/-! DEFINITION. The role of this hub and whether its twin is silent (R396, R399, R414). -/
namespace Sys2Proof.Machine

/-- The roles (R396). -/
def roleStarting : Nat := 0
def roleActive : Nat := 1
def roleStandby : Nat := 2
def roleClaiming : Nat := 3
def State.role (s : State) : Nat := s.fg 0x024 TW_STATUS_ROLE

/-- The hub is one of a redundant node (R396). -/
def State.redundant (s : State) : Bool := s.fb 0 GS_HUB_ID_REDUNDANT

/-- The standby of a redundant node. -/
def State.standby (s : State) : Bool := s.redundant && decide (s.role = roleStandby)

/-- The twin's identifier. -/
def State.twinHub (s : State) : Nat := s.fg 0x024 LN_PARTNER_HUB % 128

/-- A change of role raises ROLE_CHANGE (R396). -/
def State.setRole (s : State) (r : Nat) : State :=
  if s.role = r then s else (s.fs 0x024 TW_STATUS_ROLE r).raise 0x024 EV_TW_ROLE_CHANGE

/-- The ring guy line through a port is not lost: LINKED, from the twin (R399). -/
def State.guyLineOn (s : State) (p : RingPort) : Bool :=
  decide (s.fg p.page LN_PARTNER_HUB % 128 = s.twinHub) && decide (s.fg p.page RP_NEIGHBOUR_STATE = 1) &&
  decide (s.fg p.page RP_NEIGHBOUR_GUY_HUB = s.twinHub)

/-- TW_STATUS.RING_GUY and TWIN_GUY (R399). -/
def State.ringGuy (s : State) : Bool :=
  s.fb 0x024 TW_STATUS_PRESENT && (s.guyLineOn .east || s.guyLineOn .west)
def State.twinGuy (s : State) : Bool := s.portActive .twin && s.tw.guy

/-- The twin is silent (R399). -/
def State.twinSilent (s : State) : Bool := !s.twinGuy && !s.ringGuy

/-- A STANDBY hub claims (R414). -/
def State.claim (s : State) : State :=
  let s1 := s.raiseIf (!s.fb 0x024 TW_STATUS_READY) 0x024 EV_TW_CLAIM_UNREADY
  (s1.setRole roleClaiming).fs 0x024 TW_STATUS_MSTATE 0

/-- The twin island is released, or its block has been reset (R396): a hub that is not redundant takes the role ACTIVE, one of a
pair starts. -/
def State.twinStart (s : State) : State := if s.redundant then s else s.setRole roleActive

/-- The guy lines watched after a change: TWIN_LOST when the twin becomes silent, and a standby's claim (R399, R414). -/
def State.twinWatch (s : State) : State :=
  if !s.redundant then s
  else if s.twinSilent then
    if s.tw.silent then s
    else
      let s1 := { s with tw := { s.tw with silent := true } }.raise 0x024 EV_TW_TWIN_LOST
      if s1.role = roleStandby then s1.claim else s1
  else { s with tw := { s.tw with silent := false } }

/-- The hub sends ACTIVE 1 on a pitch's lane: a single hub always; one of a pair as active or claiming, as the standby that has
accepted a swap, and for the pitches it still holds after one (R224, R396, R411, R412). -/
def State.serves (s : State) (pitch : Nat) : Bool :=
  !s.redundant || decide (s.role = roleActive) || decide (s.role = roleClaiming) || s.tw.swapYes || s.tw.quiet.contains pitch

/-- The engines of a pitch of a redundant node begin no transmission: in a quiet hold, and while the card does not select this hub's lane
(R412, R415). -/
def State.pitchHeld (s : State) (pitch : Nat) : Bool :=
  s.tw.quiet.contains pitch || (s.redundant && !s.fb (0x050 + pitch) CL_STATUS_SEL_THIS)

/-- The engines hold their receive records and close none: the hub is not the active one of a pair (R404, R410). -/
def State.holdsRecords (s : State) : Bool := s.redundant && decide (s.role ≠ roleActive)

end Sys2Proof.Machine
end

