-- ==== Sys2Proof/Machine/Time.lean ====
section
/-! DEFINITION. Network time (chapter 11): domain times, sample judging and the servo, service time with its residual, the
snapshot, SYNC messages and the peer delay of the ring ports. -/
namespace Sys2Proof.Machine

/-! ### Domain times (R319) -/

/-- Units of 2^-16/(5·2^29) ns in 2^-16 ns, and in 2^32 ns. -/
def timeG : Int := 5 * 2 ^ 29
def timeWrap : Int := 2 ^ 48 * timeG

def State.dom (s : State) (k : Nat) : Dom := s.tm.doms.getD k {}
def State.setDom (s : State) (k : Nat) (d : Dom) : State := { s with tm := { s.tm with doms := s.tm.doms.put k d {} } }

/-- Register field of domain `k`. -/
def domF (f : Fld) (k : Nat) : Fld := f.at (0x40 * k)

/-- RATE of a domain. -/
def State.rate (s : State) (k : Nat) : Int := sgn 32 (s.fg 0x018 (domF TM_D_RATE_RATE k))

/-- Domain time at local instant `u`, unwrapped, in 2^-16/(5·2^29) ns. -/
def State.domAt (s : State) (k : Nat) (u : Int) : Int :=
  let d := s.dom k
  u * 2 ^ 40 + d.off * timeG + d.acc + s.rate k * (u - d.anchor)

/-- Domain time in the TS format (R257): ns and fraction in 48 bits; and its ERA (R319). -/
def State.dom48 (s : State) (k : Nat) (u : Int) : Nat := uns 48 (s.domAt k u / timeG)
def State.domEra (s : State) (k : Nat) (u : Int) : Nat := uns 32 (s.domAt k u / timeWrap + (s.dom k).eraAdj)

/-- RATE changed at the present instant, with no step (R319). -/
def State.setRate (s : State) (k : Nat) (r : Int) : State :=
  let d := s.dom k
  (s.setDom k { d with acc := d.acc + s.rate k * (s.now - d.anchor), anchor := s.now }).fs 0x018 (domF TM_D_RATE_RATE k) (uns 32 r)

/-! ### Service time (R324-R329) -/

/-- The domain followed. -/
def State.sel (s : State) : Nat := s.fg 0x018 TM_ST_STATUS_SEL_ACTIVE

/-- RES at local instant `u`: it moves toward 0 by SLEW ppm of local time. -/
def State.resAt (s : State) (u : Int) : Int :=
  let step := (u - s.tm.anchor) * 2 ^ 40 * (s.fg 0x018 TM_ST_CFG_SLEW : Int) / 1000000
  if s.tm.res0.natAbs ≤ step.toNat then 0 else if 0 < s.tm.res0 then s.tm.res0 - step else s.tm.res0 + step

/-- Service time at local instant `u`, unwrapped. -/
def State.stAt (s : State) (u : Int) : Int := s.domAt s.sel u - s.resAt u + s.tm.stAdj

/-- Service time in the TS format, its ns, and its ERA (R325). -/
def State.st48 (s : State) (u : Int) : Nat := uns 48 (s.stAt u / timeG)
def State.stNs (s : State) (u : Int) : Nat := s.st48 u / 65536
def State.stEra (s : State) (u : Int) : Nat := uns 32 (s.stAt u / timeWrap)

/-- The local instant at which service time is `st`, found from the present one (R329): each step halves no less than 100 times
the distance that is left. -/
def State.localOf (s : State) (st : Int) : Int :=
  (List.range 8).foldl (fun (u : Int) _ => u + (st - s.stAt u) / 2 ^ 40) s.now

/-- RES taken at the present instant, before SLEW changes. -/
def State.resRebase (s : State) : State := { s with tm := { s.tm with res0 := s.resAt s.now, anchor := s.now } }

/-- A change of domain time or of the selection: RES takes what keeps service time continuous (R324). -/
def State.absorb (s : State) (f : State → State) : State :=
  let before := s.stAt s.now
  let t := f s
  let raw := t.domAt t.sel t.now
  let res := wrapInt timeWrap (raw - before)
  { t with tm := { t.tm with res0 := res, anchor := t.now, stAdj := before - raw + res } }

/-- OFFSET of domain `k` stepped by `d`. -/
def State.stepOff (s : State) (k : Nat) (d : Int) : State :=
  let f (t : State) : State := t.setDom k { t.dom k with off := (t.dom k).off + d }
  if s.sel = k then s.absorb f else f s

/-- The selection changed to domain `k` (R326). -/
def State.select (s : State) (k : Nat) : State :=
  (s.absorb fun t => t.fs 0x018 TM_ST_STATUS_SEL_ACTIVE k).raise 0x018 EV_TM_ST_SWITCH

/-- Released or reset: both domains restart from local time with ERA 0, RES is 0, and service time equals the selected domain with
ERA 0 (R316, R325). -/
def State.tmStart (s : State) : State :=
  let z := { s with tm := { s.tm with res0 := 0, anchor := s.now, stAdj := 0 } }
  let era (t : State) (k : Nat) : State := t.setDom k { t.dom k with eraAdj := -(t.domAt k t.now / timeWrap) }
  let t := era (era z 0) 1
  let t := t.fs 0x018 TM_ST_STATUS_SEL_ACTIVE (t.fg 0x018 TM_ST_CFG_SEL)
  { t with tm := { t.tm with stAdj := -(t.domAt t.sel t.now / timeWrap) * timeWrap } }

/-- The reset of page 0x018 beside its registers. -/
def State.tmReset (s : State) : State :=
  { s with tm := { doms := [(0, { anchor := s.now }), (1, { anchor := s.now })], anchor := s.now } }.tmStart

/-- ROLE of a domain (R320); BN compatibility holds DOM_B at 0 (R334). -/
def State.domRole (s : State) (k : Nat) : Nat :=
  if s.compat 0x018 && decide (k = 1) then 0 else s.fg 0x018 (domF TM_D_CFG_ROLE k)

/-- STATE of a domain, and a change of it with its event (R321). -/
def State.dstate (s : State) (k : Nat) : Nat := s.fg 0x018 (domF TM_D_STATUS_STATE k)
def State.setDstate (s : State) (k v : Nat) : State :=
  if s.dstate k = v then s
  else
    let s1 := s.fs 0x018 (domF TM_D_STATUS_STATE k) v
    if v = 2 then s1.raise 0x018 (if k = 0 then EV_TM_A_LOCKED else EV_TM_B_LOCKED)
    else if v = 3 then s1.raise 0x018 (if k = 0 then EV_TM_A_HOLDOVER else EV_TM_B_HOLDOVER) else s1

/-- LOCKED or MASTER. -/
def State.domGood (s : State) (k : Nat) : Bool := decide (s.dstate k = 2) || decide (s.dstate k = 4)

/-- The conditions of an automatic change (R326); a standby follows the selection of the active hub (R403). -/
def State.mayAuto (s : State) : Bool :=
  s.fb 0x018 TM_ST_CFG_AUTO && !s.standby && !s.domGood s.sel && s.domGood (1 - s.sel) &&
  decide ((wrapInt timeWrap (s.domAt (1 - s.sel) s.now - s.stAt s.now)).natAbs ≤
    s.fg 0x018 TM_ST_CFG_AUTO_MAX * 1000 * 65536 * (5 * 2 ^ 29))

/-- ST_AUTO_SWITCH (R326). -/
def execStAutoSwitch (s : State) : Out :=
  .next (if s.ready 0x018 && s.mayAuto then s.select (1 - s.sel) else s)

/-- SLEW_DONE (R324). -/
def execSlewDone (s : State) : Out :=
  .next (
    if s.tm.res0 = 0 ∨ s.resAt s.now ≠ 0 then s
    else ({ s with tm := { s.tm with res0 := 0, anchor := s.now } }).raise 0x018 EV_TM_SLEW_DONE)

/-- TM_CTRL.JUMP (R328). -/
def State.tmJump (s : State) : State :=
  if s.running 0x01C then s.raise 0x018 EV_TM_JUMP_REFUSED
  else { s with tm := { s.tm with res0 := 0, anchor := s.now } }

/-- TM_CTRL.CLR_CNT. -/
def State.tmClrCnt (s : State) : State := (s.wr 0x018 TM_D_CNT 0).wr 0x018 (TM_D_CNT + 0x40) 0

/-- A 48-bit time and its ERA latched at a group of snapshot registers. -/
def State.snapAt (s : State) (off v era : Nat) : State :=
  ((s.wr 0x018 off (BitVec.ofNat 32 (v / 65536))).wr 0x018 (off + 4) (BitVec.ofNat 32 (v % 65536))).wr 0x018 (off + 8)
    (BitVec.ofNat 32 era)

/-- TM_CTRL.SNAP (R338). -/
def State.tmSnap (s : State) : State :=
  let n := lstampOf s.now
  let s1 := (s.wr 0x018 TM_SNAP_LOC_LO (BitVec.ofNat 32 n)).wr 0x018 TM_SNAP_LOC_HI (BitVec.ofNat 32 (n / 2 ^ 32))
  let s2 := s1.snapAt TM_SNAP_A_NS (s.dom48 0 s.now) (s.domEra 0 s.now)
  let s3 := s2.snapAt TM_SNAP_B_NS (s.dom48 1 s.now) (s.domEra 1 s.now)
  s3.snapAt TM_SNAP_ST_NS (s.st48 s.now) (s.stEra s.now)

/-- A write of TM_CTRL: the actions of its bits. -/
def State.tmCtrlWrite (s : State) (v : Word) : State :=
  let s1 := if TM_CTRL_SNAP.get v = 1 then s.tmSnap else s
  let s2 := if TM_CTRL_JUMP.get v = 1 then s1.tmJump else s1
  if TM_CTRL_CLR_CNT.get v = 1 then s2.tmClrCnt else s2

/-- TM_JUMP (R328). -/
def execTmJump (who : Initiator) (s : State) : Out := .next (s.write who 0x018 TM_CTRL State.tmJump)
/-- TM_SNAP (R338). -/
def execTmSnap (who : Initiator) (s : State) : Out := .next (s.write who 0x018 TM_CTRL State.tmSnap)
/-- TM_CLR_CNT (R322). -/
def execTmClrCnt (who : Initiator) (s : State) : Out := .next (s.write who 0x018 TM_CTRL State.tmClrCnt)

/-! ### Samples and the servo (R320-R323) -/

/-- A sample as TM_SMP and TM_SMP_CMD give it. -/
structure Sample where
  dom : Nat
  dir : Nat
  src : Nat
  seq : Nat
deriving DecidableEq, Repr

/-- The last four of a memory of SEQs with one more. -/
def remember (l : List Nat) (q : Nat) : List Nat := (q :: l).take 4

/-- A sample rejected (R322). -/
def State.smpReject (s : State) (k : Nat) : State :=
  (s.inc 0x018 (domF TM_D_CNT_REJECTED k)).raise 0x018 EV_TM_SAMPLE_REJECT

/-- The runs of used samples within and beyond LOCK_NS, and the changes between ACQUIRING and LOCKED (R321). -/
def State.lockCount (s : State) (k : Nat) (e : Int) : State :=
  let d := s.dom k
  let n := s.fg 0x018 (domF TM_D_SERVO_LOCK_COUNT k)
  let inside := decide (e.natAbs ≤ s.fg 0x018 (domF TM_D_SERVO_LOCK_NS k) * 65536)
  let good := if inside then min 255 (d.good + 1) else 0
  let bad := if inside then 0 else min 255 (d.bad + 1)
  let s1 := s.setDom k { d with good := good, bad := bad }
  if s.dstate k = 1 ∧ n ≤ good then s1.setDstate k 2
  else if s.dstate k = 2 ∧ n ≤ bad then (s1.setDom k { s1.dom k with good := 0 }).setDstate k 1 else s1

/-- The clamp of RATE (R323). -/
def clampRate (r : Int) : Int := max (-1099511628) (min 1099511628 r)

/-- RATE after a used sample with error `e` at stamp `x`: (e × 2^40 / I) >> KI is added. I is measured from the reference sample; for
I = 0 the quotient is a free value. -/
def State.servoRate (s : State) (k : Nat) (e x : Int) : State :=
  match (s.dom k).ref with
  | none => s
  | some r =>
    let q := if x = r then sgn 64 (s.freeNat 64) else Int.fdiv (e * timeG) (x - r)
    let t := if x = r then s.tookFree else s
    t.setRate k (clampRate (s.rate k + q / 2 ^ s.fg 0x018 (domF TM_D_SERVO_KI k)))

/-- The servo on a used sample with master time `m` (48 bits), `era` and stamp `x` (R323). -/
def State.servo (s : State) (k : Nat) (m era : Nat) (x : Int) : State :=
  let e := wrapInt (2 ^ 48) ((m : Int) - s.domAt k x / timeG)
  let s0 := s.fs 0x018 (domF TM_D_ERROR_ERROR k) (uns 32 (max (-2 ^ 31) (min (2 ^ 31 - 1) e)))
  let big := decide (s.fg 0x018 (domF TM_D_STEP_STEP k) * 65536 < e.natAbs)
  let out := s.fg 0x018 (domF TM_D_STATUS_OUTLIERS k)
  if big && decide (s.dstate k = 2) && decide (out < 2) then
    (s0.fs 0x018 (domF TM_D_STATUS_OUTLIERS k) (out + 1)).lockCount k e
  else
    let s1 := s0.fs 0x018 (domF TM_D_STATUS_OUTLIERS k) 0
    if big then
      let s2 := s1.stepOff k e
      let d := s2.dom k
      let adj := if s.compat 0x018 then d.eraAdj else (era : Int) - s2.domAt k x / timeWrap
      let y := { d with ref := some x, eraAdj := adj }
      (((s2.setDom k (if s.dstate k = 1 then y else { y with good := 0, bad := 0 })).raise 0x018
        (if k = 0 then EV_TM_A_STEP else EV_TM_B_STEP)).setDstate k 1).lockCount k e
    else
      let s2 := (s1.stepOff k (e / 2 ^ s.fg 0x018 (domF TM_D_SERVO_KP k))).servoRate k e x
      let s3 := s2.setDom k { s2.dom k with ref := some x }
      (if s.dstate k = 0 ∨ s.dstate k = 3 then (s3.setDom k { s3.dom k with good := 0, bad := 0 }).setDstate k 1 else s3).lockCount k e

/-- A sample used from MASTER (1) or BACKUP (2). -/
def State.smpUse (s : State) (x : Sample) (kind : Nat) : State :=
  let k := x.dom
  let s1 := ((s.inc 0x018 (domF TM_D_CNT_USED k)).fs 0x018 (domF TM_D_STATUS_LAST_SRC k) x.src).fs 0x018 (domF TM_D_STATUS_SOURCE k) kind
  let s2 := if kind = 1 then s1.setDom k { s1.dom k with recent := true } else s1
  s2.servo k ((s.rd 0x018 TM_SMP_NS).toNat * 65536 + s.fg 0x018 TM_SMP_FRAC_FRAC) (s.rd 0x018 TM_SMP_ERA).toNat
    (lstampBy s.now ((s.rd 0x018 TM_SMP_LOC_LO).toNat + 2 ^ 32 * (s.rd 0x018 TM_SMP_LOC_HI).toNat))

/-- A sample from MASTER while a ROLE 3 domain is in MASTER: counted toward LOCK_COUNT only (R321). -/
def State.smpReturn (s : State) (k : Nat) : State :=
  let n := (s.dom k).mcount + 1
  if s.fg 0x018 (domF TM_D_SERVO_LOCK_COUNT k) ≤ n then
    (s.setDom k { s.dom k with mcount := 0, good := 0, bad := 0 }).setDstate k 1
  else s.setDom k { s.dom k with mcount := n }

/-- A sample judged (R322). One that rule 3 rejects is not remembered for rule 2. -/
def State.smpJudge (s : State) (x : Sample) : State :=
  let k := x.dom
  let d := s.dom k
  let role := s.domRole k
  let fromM := decide (x.src = s.fg 0x018 (domF TM_D_CFG_MASTER k))
  let fromB := decide (x.src ≠ 127) && decide (x.src = s.fg 0x018 (domF TM_D_CFG_BACKUP k))
  let seen := if fromM then d.seenM else d.seenB
  let dir := s.fg 0x018 (domF TM_D_CFG_DIR k)
  if role = 0 ∨ role = 2 then s.smpReject k
  else if !fromM && !fromB then s.smpReject k
  else if seen.contains x.seq ∨ (dir < 2 ∧ dir ≠ x.dir) then s.smpReject k
  else
    let s1 := s.setDom k (if fromM then { d with seenM := remember seen x.seq } else { d with seenB := remember seen x.seq })
    if role = 3 ∧ s.dstate k = 4 then (if fromM then s1.smpReturn k else s1.smpReject k)
    else if fromM then s1.smpUse x 1
    else if d.recent then s1.smpReject k else s1.smpUse x 2

/-- A write of TM_SMP_CMD (R322). -/
def State.smpWrite (s : State) (v : Word) : State :=
  if TM_SMP_CMD_GO.get v = 1 then
    s.smpJudge ⟨TM_SMP_CMD_DOM.get v, TM_SMP_CMD_DIR.get v, TM_SMP_CMD_SRC.get v, TM_SMP_CMD_SEQ.get v⟩
  else s

/-- SAMPLE_SUBMIT (R322). -/
def execSampleSubmit (who : Initiator) (v : Word) (s : State) : Out := .next (s.write who 0x018 TM_SMP_CMD fun t => t.smpWrite v)

/-- DOMAIN_TIMEOUT (R321). -/
def execDomainTimeout (dom : Fin 2) (s : State) : Out :=
  .next (
    let k := dom.val
    let role := s.domRole k
    let s1 := s.setDom k { s.dom k with recent := false, mcount := 0 }
    if !s.ready 0x018 then s
    else if role = 3 ∧ s.dstate k ≠ 4 then (s1.setDstate k 4).raise 0x018 EV_TM_BACKUP_MASTER
    else if role = 1 then (if s.dstate k = 1 ∨ s.dstate k = 2 then s1.setDstate k 3 else s1) else s)

/-! ### Commit of page 0x018 (R341) -/

/-- A field of the shadow set of domain `k`. -/
def State.domSh (s : State) (f : Fld) (k : Nat) : Nat := s.fgSh 0x018 (domF f k)

/-- The ranges of a domain block: REASON 0x01 and the offset. -/
def State.domRange (s : State) (k : Nat) : Option (Nat × Nat) :=
  let o (x : Nat) : Option (Nat × Nat) := some (1, x + 0x40 * k)
  if s.domSh TM_D_CFG_DIR k = 3 then o TM_D_CFG
  else if s.domSh TM_D_SERVO_LOCK_COUNT k = 0 ∨ s.domSh TM_D_SERVO_LOCK_NS k = 0 then o TM_D_SERVO
  else if s.domSh TM_D_TIMING_TIMEOUT k < 2 ∨ s.domSh TM_D_TIMING_PERIOD k = 0 ∨ 1000 < s.domSh TM_D_TIMING_PERIOD k then o TM_D_TIMING
  else if s.domSh TM_D_STEP_STEP k = 0 then o TM_D_STEP
  else if s.domSh TM_D_CFG_RLOAD k = 1 ∧ 1099511628 < (sgn 32 (s.domSh TM_D_RATE_SET_RATE k)).natAbs then o TM_D_RATE_SET
  else none

/-- The roles of a domain block: REASON 0x02. -/
def State.domRoles (s : State) (k : Nat) : Option (Nat × Nat) :=
  let role := s.domSh TM_D_CFG_ROLE k
  let m := s.domSh TM_D_CFG_MASTER k
  if ((role = 1 ∨ role = 3) ∧ m = 127) ∨ (role = 2 ∧ s.self ≠ some m) ∨ (role = 3 ∧ s.self ≠ some (s.domSh TM_D_CFG_BACKUP k)) then
    some (2, TM_D_CFG + 0x40 * k)
  else if s.domSh TM_D_TIMING_TIMEOUT k < 2 * s.domSh TM_D_TIMING_PERIOD k then some (2, TM_D_TIMING + 0x40 * k) else none

/-- Why a commit of page 0x018 is refused (R341). -/
def State.tmCheck (s : State) : Option (Nat × Nat) :=
  let slew := s.fgSh 0x018 TM_ST_CFG_SLEW
  if slew = 0 ∨ 1000 < slew then some (1, TM_ST_CFG)
  else (s.domRange 0).orElse fun _ => (s.domRange 1).orElse fun _ => (s.domRoles 0).orElse fun _ => (s.domRoles 1).orElse fun _ =>
    if s.compat 0x018 && decide (s.domSh TM_D_CFG_ROLE 1 ≠ 0) then some (0x80, TM_D_CFG + 0x40) else none

/-- A domain takes a new ROLE (R321). -/
def State.domBegin (s : State) (k : Nat) : State :=
  ((s.setDom k { s.dom k with ref := none, good := 0, bad := 0, mcount := 0, recent := false, seenM := [], seenB := [] }).fs 0x018
    (domF TM_D_STATUS_OUTLIERS k) 0).setDstate k (if s.domRole k = 2 then 4 else 0)

/-- A write of COMPAT on page 0x018: DOM_B's ROLE is held at 0, or acts again (R334). -/
def State.tmCompat (s : State) (pre : Bool) (v : Word) : State :=
  let t := s.wrCompat pre 0x018 v
  if t.domRole 1 = s.domRole 1 then t else t.domBegin 1

/-- A committed domain: ADJ and RLOAD act and return to 0; a new ROLE, MASTER or BACKUP takes effect (R321, R322, R341). -/
def State.domCommitted (before : State) (s : State) (k : Nat) : State :=
  let adj := sgn 32 (s.fg 0x018 (domF TM_D_ADJ_NS_ADJ k)) * 65536 + (s.fg 0x018 (domF TM_D_ADJ_FRAC_FRAC k) : Int)
  let load := s.fb 0x018 (domF TM_D_CFG_RLOAD k)
  let s1 := if adj = 0 then s else s.stepOff k adj
  let s2 := if load then s1.setRate k (sgn 32 (s.fg 0x018 (domF TM_D_RATE_SET_RATE k))) else s1
  let s3 := ((s2.fs 0x018 (domF TM_D_ADJ_NS_ADJ k) 0).fs 0x018 (domF TM_D_ADJ_FRAC_FRAC k) 0).fs 0x018 (domF TM_D_CFG_RLOAD k) 0
  let s4 := if adj ≠ 0 ∨ load then s3.setDom k { s3.dom k with ref := none } else s3
  let f (x : Fld) : Bool := decide (before.fg 0x018 (domF x k) ≠ s.fg 0x018 (domF x k))
  let s5 := if f TM_D_CFG_ROLE then s4.domBegin k else s4
  let s6 := if f TM_D_CFG_MASTER || f TM_D_CFG_BACKUP then s5.setDom k { s5.dom k with seenM := [], seenB := [] } else s5
  if f TM_D_CFG_MASTER then s6.setDom k { s6.dom k with recent := false, mcount := 0 } else s6

/-- What a commit of page 0x018 does beside taking the shadows (R341). -/
def State.tmCommitted (s before : State) : State :=
  let r := before.resAt before.now
  let s1 := { s with tm := { s.tm with res0 := r, anchor := s.now } }
  let s2 := State.domCommitted before (State.domCommitted before s1 0) 1
  if !s.fb 0x018 TM_ST_CFG_AUTO && !s.standby && decide (s2.sel ≠ s2.fg 0x018 TM_ST_CFG_SEL) then s2.select (s2.fg 0x018 TM_ST_CFG_SEL) else s2

/-! ### SYNC origination (R331, R334) -/

/-- The version-2 and version-1 payloads from the snapshot registers. -/
def State.syncPayload (s : State) (k seq : Nat) (v1 : Bool) : List Byte :=
  let off := if k = 0 then TM_SNAP_A_NS else TM_SNAP_B_NS
  let origin := leBytes (s.fg 0x018 ⟨off + 4, 0, 16⟩ + 65536 * (s.rd 0x018 off).toNat) 6
  let loc := leBytes (s.rd 0x018 TM_SNAP_LOC_LO).toNat 4 ++ leBytes (s.rd 0x018 TM_SNAP_LOC_HI).toNat 4
  let rate := leBytes (uns 32 (s.rate k)) 4
  if v1 then [1, 0] ++ leBytes seq 2 ++ origin ++ [1, 0] ++ leBytes 0 8 ++ rate ++ loc
  else [2, BitVec.ofNat 8 (s.fg 0x018 (domF TM_D_CFG_NET k)), 0, 1] ++ leBytes seq 2 ++ [0, 0] ++ origin ++ [0, 0] ++ leBytes 0 8 ++
    leBytes (s.rd 0x018 (off + 8)).toNat 4 ++ rate ++ loc

/-- SYNC_ORIGINATE (R331): one snapshot, two frames with one SEQ on STREAM 62 and 63 through the lantern's core port. Under
BN compatibility DOM_A sends version 1 (R334). -/
def execSyncOriginate (dom : Fin 2) (s : State) : Out :=
  .next (
    let k := dom.val
    if !s.ready 0x018 || decide (s.dstate k ≠ 4) || s.bare then s
    else
      let s1 := s.tmSnap
      let seq := (s.dom k).seq
      let v1 := s.compat 0x018
      let f (st : Nat) : Frame := { hdr := { cls := .E, mtype := if v1 then 0x10 else 0x11, dst := 127, src := s.hubId, stream := st },
                                    payload := s1.syncPayload k seq v1 }
      ((s1.setDom k { s1.dom k with seq := (seq + 1) % 65536 }).originate portLantern (f 62)).originate portLantern (f 63))

/-! ### Peer delay (R335, R336) -/

/-- A /TM/ with its CRC. -/
def tmBytes (ty seq turn : Nat) : List Byte :=
  let b := [BitVec.ofNat 8 ty, BitVec.ofNat 8 seq] ++ leBytes turn 4 ++ leBytes 0 4
  b ++ leBytes (crc16 b) 2

/-- A /TM/ received whole with a right CRC. -/
def tmOk (bs : List Byte) (ty : Nat) : Bool :=
  decide (bs.length = 12) && decide (leAt bs 0 1 = ty) && decide (crc16 (bs.take 10) = leAt bs 10 2)

/-- A ring port measures: ACTIVE, EN 1. -/
def State.pdOn (s : State) (p : RingPort) : Bool := s.portActive p.lanes && s.fb p.page RP_PD_CFG_EN

/-- A frame boundary of a ring port at which no frame waits in the merge buffer: a /TM/ may be sent (R335). -/
def State.tmMay (s : State) (p : RingPort) : Bool := (s.eg p.core).isNone && (s.port p.lanes).merge.isEmpty

/-- PD_REQUEST_SEND (R335). -/
def execPdRequestSend (port : RingPort) (sub : Fin 26) (s : State) : Out :=
  .next (
    let x := s.port port.lanes
    if !s.pdOn port || !s.tmMay port then s
    else s.setPort port.lanes { x with pdSeq := (x.pdSeq + 1) % 256, pdSent := some (x.pdSeq, s.stampAt sub.val),
                                       tm := tmBytes 1 x.pdSeq 0 })

/-- PD_REQ_RECEIVED (R335): the answer to a request is sent now, TURN after it came, which is at most 2 µs. One with a bad CRC is not
answered. -/
def execPdReqReceived (port : RingPort) (bytes : List Byte) (turn : BitVec 32) (s : State) : Out :=
  .next (
    if s.portActive port.lanes && s.tmMay port && tmOk bytes 1 && decide (turn.toNat ≤ 32000) then
      s.setPort port.lanes { s.port port.lanes with tm := tmBytes 2 (leAt bytes 1 1) turn.toNat }
    else s)

/-- A delay sample in 1/16 ns taken by a port (R336). -/
def State.pdSample (s : State) (p : RingPort) (v : Int) : State :=
  let g := p.page
  let x := s.port p.lanes
  let valid := s.fb g RP_PD_DELAY_VALID
  let s0 := s.fs g RP_PD_LAST_SAMPLE (min 65535 v.toNat)
  let far := valid && decide (32 < (v - (s.fg g RP_PD_DELAY_DELAY : Int)).natAbs)
  if v < 0 ∨ 32000 < v ∨ far then
    let s1 := (s0.fs g RP_PD_LAST_ACCEPTED 0).inc g RP_PD_CNT_REJECTED
    if x.pdRej + 1 < 16 then s1.setPort p.lanes { x with pdRej := x.pdRej + 1 }
    else (((s1.setPort p.lanes { x with pdRej := 0, pdHist := [] }).fs g RP_PD_DELAY_VALID 0)).raise g EV_RP_PD_FAIL
  else
    let hist := (v.toNat :: x.pdHist).take 16
    let s1 := ((s0.fs g RP_PD_LAST_ACCEPTED 1).inc g RP_PD_CNT_SAMPLES).setPort p.lanes { x with pdRej := 0, pdHist := hist }
    if hist.length < 16 then s1
    else
      let s2 := (s1.fs g RP_PD_DELAY_DELAY (hist.sum / 16)).fs g RP_PD_DELAY_VALID 1
      s2.raiseIf (!valid) g EV_RP_PD_VALID

/-- PD_RESP_RECEIVED (R335, R336). An unknown SEQ, a bad CRC, or more than 10 µs: discarded. -/
def execPdRespReceived (port : RingPort) (bytes : List Byte) (sub : Fin 26) (s : State) : Out :=
  .next (
    match (s.port port.lanes).pdSent with
    | none => s
    | some (q, t1) =>
      let d := s.stampAt sub.val - t1
      if !s.pdOn port || !tmOk bytes 2 || decide (leAt bytes 1 1 ≠ q) || decide (1600000 < d) then s
      else (s.setPort port.lanes { s.port port.lanes with pdSent := none }).pdSample port ((d - 10 * (leAt bytes 2 4 : Int)) / 20))

/-! ### Registers computed as they are read -/

/-- The registers of page 0x018 that show time. -/
def State.tmRead (s : State) (off : Nat) : Option Word :=
  let d (k : Nat) : Option Word :=
    let o := off - 0x40 * k
    if o = TM_D_OFFSET_NS then some (BitVec.ofNat 32 (uns 48 (s.dom k).off / 65536))
    else if o = TM_D_OFFSET_FRAC then some (BitVec.ofNat 32 (uns 48 (s.dom k).off % 65536))
    else if o = TM_D_ERA then some (BitVec.ofNat 32 (s.domEra k s.now)) else none
  if off = TM_ST_STATUS then some (TM_ST_STATUS_SLEWING.set (bit (s.resAt s.now ≠ 0)) (s.rd 0x018 TM_ST_STATUS))
  else if off = TM_ST_RESID then some (BitVec.ofNat 32 (uns 32 (s.resAt s.now / (timeG * 65536))))
  else if off < 0x140 then d 0 else d 1

end Sys2Proof.Machine
end

