-- ==== Sys2Proof/Machine/Engine.lean ====
section
/-! DEFINITION. What every channel engine shares (chapter 9): which engine serves a channel, counters, records, transmit FIFOs,
output placement, restarts and migration. -/
namespace Sys2Proof.Machine

/-! ### Pages and channels (R251) -/

def clPage (n : Nat) : Nat := 0x050 + n % 24
def ecPage (n : Nat) : Nat := 0x080 + n % 24
def enPage (n pos : Nat) : Nat := 0x100 + 9 * (n % 24) + pos % 9

/-- The cluster and position of an engine page. -/
def enCluster (p : Nat) : Nat := (p - 0x100) / 9
def enPos (p : Nat) : Nat := (p - 0x100) % 9

/-- EC_MAP's position of channel `c` of cluster `n`, and the page of the engine that serves it. -/
def State.mapPos (s : State) (n c : Nat) : Nat := (s.rd (ecPage n) EC_MAP).toNat / 16 ^ c % 16

/-- The second channel of a pair that EC_MAP moves to the spare together with the first (R281) keeps its own engine, which runs mode OFF
(R269): the spare serves the pair as channel c. -/
def State.engPos (s : State) (n c : Nat) : Nat :=
  if s.mapPos n c = 8 ∧ c % 2 = 1 ∧ s.mapPos n (c - 1) = 8 then c else s.mapPos n c
def State.enOf (s : State) (n c : Nat) : Nat := enPage n (s.engPos n c)

/-- The channel that the engine at a position serves. -/
def State.servedBy (s : State) (n pos : Nat) : Option Nat := (List.range 8).find? fun c => decide (s.engPos n c = pos)

/-- Accesses to a retired source's page reach the spare's registers (R282). -/
def State.enAlias (s : State) (p : Nat) : Nat :=
  if kindOf p = some .en then
    let n := enCluster p
    if s.fb (ecPage n) EC_MIG_STATUS_SPARE_USED && decide (s.fg (ecPage n) EC_MIG_STATUS_FROM = enPos p) then enPage n 8 else p
  else p

def State.chan (s : State) (n c : Nat) : Chan := s.chans.getD (8 * n + c) {}
def State.setChan (s : State) (n c : Nat) (x : Chan) : State := { s with chans := s.chans.put (8 * n + c) x {} }

/-- The channel the spare of a cluster follows (R282). -/
def State.followed (s : State) (n : Nat) : Option Nat := (List.range 8).find? fun c => (s.chan n c).mig.isSome

/-- The active mode of an engine page (R252): 0 OFF, 1 ASYNC, 2 PBUS, 3 SYNC, 4 DISC. -/
def State.enMode (s : State) (g : Nat) : Nat := s.fg g EN_MODE_MODE

/-- The engine of a page runs. -/
def State.enRuns (s : State) (g : Nat) : Bool := s.running g && s.ready g

/-- EN_CNT`i` counts, and RX_ERR with EN_CNT0 to EN_CNT2. -/
def State.enCnt (s : State) (g i : Nat) : State :=
  let t := s.inc g (EN_CNT_COUNT.at (4 * i))
  if i < 3 then t.raise g EV_EN_RX_ERR else t

/-! ### Time across the card link (R228) -/

/-- One ns, and one card-link frame, in 1/160 ns. -/
def nsU : Int := 160
def frameU : Int := 2560

/-- The one-way delay d of a pitch: LOOP / 32 ns. -/
def State.delayU (s : State) (n : Nat) : Int := 5 * (s.fg (clPage n) CL_LOOP_LOOP : Int)

/-- The earliest instant an output decided now can be placed (R29): 64 ns + d ahead. -/
def State.earliest (s : State) (n : Nat) : Int := s.now + 64 * nsU + s.delayU n

/-- The stamp of an edge a report gives (R228). -/
def Rep.stamp (r : Rep) : Int := r.base + (r.fine : Int) * nsU + 80

/-- The level of the line at instant `x` of the report's interval, given the level before it, and whether it is uncertain (R255). -/
def Rep.at (r : Rep) (prev : Bool) (x : Int) : Bool × Bool :=
  if r.glitch then (r.level, decide (x < r.stamp))
  else if r.edge && decide (x < r.stamp) then (prev, false) else (r.level, false)

/-- An instant of local time in the TS format of service time (R257). -/
def State.tsBytes (s : State) (u : Int) : List Byte := leBytes (s.st48 u) 6

/-- An output change wanted (R228). -/
def State.place (s : State) (n c : Nat) (u : Int) (level en : Bool) : State :=
  s.setChan n c { s.chan n c with due := (s.chan n c).due ++ [⟨u, level, en⟩] }

/-! ### Records (R258, R259) -/

/-- A list of bytes with zeros up to a multiple of 4. -/
def pad4 (bs : List Byte) : List Byte := bs ++ List.replicate ((4 - bs.length % 4) % 4) 0

/-- The ns from instant `a` to instant `u`. -/
def nsFrom (a u : Int) : List Byte := leBytes ((u - a) / nsU).toNat 4

/-- An item of a record of type `t` that begins at `ts`, with the times that its type gives it (R258, R300, R301). -/
def State.recItem (s : State) (t : Nat) (ts : Int) (i : Int × List Byte) : List Byte :=
  if t = 4 then s.tsBytes i.1 ++ i.2.drop 6
  else if t = 3 then i.2.take 4 ++ nsFrom ts i.1
  else if t = 0x10 then i.2.take 8 ++ nsFrom ts i.1 ++ i.2.drop 12
  else if t = 0x12 then i.2.take 4 ++ nsFrom ts i.1
  else i.2

/-- The payload of a record. -/
def State.recBytes (s : State) (c : Nat) (b : RecBuf) : List Byte :=
  let ts := (b.items.head?.map (·.1)).getD 0
  [BitVec.ofNat 8 c, BitVec.ofNat 8 b.flags, BitVec.ofNat 8 b.items.length, BitVec.ofNat 8 b.rtype] ++ s.tsBytes ts ++ [0, 0] ++
    pad4 (b.items.map (s.recItem b.rtype ts)).flatten

/-- A record sent to the core from the cluster's port (R259). -/
def State.recSend (s : State) (n c : Nat) (b : RecBuf) : State :=
  let g := s.enOf n c
  let dst := if s.fb g EN_RXDST_SELF then s.hubId else s.fg g EN_RXDST_HUB
  let s1 := s.originate (portCluster n)
    { hdr := { cls := .B, mtype := 0x10, dst := dst, src := s.hubId, stream := s.fg g EN_RXDST_STREAM, arg := s.fg g EN_RXDST_QUEUE },
      payload := s.recBytes c b }
  s1.setChan n c { s1.chan n c with sentTs := b.items.getLast?.map (·.1) }

/-- A record closed (R259): sent, or with RX_EN 0 dropped with REC_LOST. A hub that holds its records keeps it (R404, R410). -/
def State.recClose (s : State) (n c flags : Nat) : State :=
  match (s.chan n c).buf with
  | none => s
  | some b =>
    let r := { b with flags := b.flags ||| flags }
    let s1 := s.setChan n c { s.chan n c with buf := none }
    if s.holdsRecords then s1.setChan n c { s1.chan n c with recs := if s.fb (s.enOf n c) EN_RXDST_RX_EN then (s1.chan n c).recs ++ [r] else (s1.chan n c).recs }
    else if s.fb (s.enOf n c) EN_RXDST_RX_EN then s1.recSend n c r
    else s1.raise (s.enOf n c) EV_EN_REC_LOST

/-- The items of a record for whose instants `p` holds, where there are any; and so for all that a channel holds. -/
def RecBuf.keep (p : Int → Bool) (b : RecBuf) : Option RecBuf :=
  let its := b.items.filter fun i => p i.1
  if its = [] then none else some { b with items := its }
def Chan.keepItems (x : Chan) (p : Int → Bool) : Chan :=
  { x with buf := x.buf.bind (RecBuf.keep p), recs := x.recs.filterMap (RecBuf.keep p) }

/-- The closed records that a channel holds are sent. -/
def State.sendHeld (s : State) (n c : Nat) : State :=
  (s.chan n c).recs.foldl (fun (t : State) b => t.recSend n c b) (s.setChan n c { s.chan n c with recs := [] })

/-- An item added to the channel's record, which opens with it where none is open. -/
def State.recAdd (s : State) (n c rtype flags : Nat) (u : Int) (item : List Byte) : State :=
  let x := s.chan n c
  let b := match x.buf with
    | some b => { b with items := b.items ++ [(u, item)] }
    | none => { rtype := rtype, flags := flags, items := [(u, item)] }
  s.setChan n c { x with buf := some b }

/-- The items of the open record, and its bytes. -/
def State.recLen (s : State) (n c : Nat) : Nat := ((s.chan n c).buf.map fun b => b.items.length).getD 0
def State.recSize (s : State) (n c : Nat) : Nat := ((s.chan n c).buf.map fun b => 12 + (b.items.map fun i => i.2.length).sum).getD 12

/-- An item added under EN_REC: the record closes at BATCH items, and after each with FLUSH 0; one of another type or too long
for the item closes first. -/
def State.recBatch (s : State) (n c rtype : Nat) (u : Int) (item : List Byte) : State :=
  let g := s.enOf n c
  let other := match (s.chan n c).buf with
    | some b => decide (b.rtype ≠ rtype) || (decide (0x10 ≤ rtype) && decide (512 < s.recSize n c + item.length))
    | none => false
  let s1 := (if other then s.recClose n c 0 else s).recAdd n c rtype 0 u item
  if s.fg g EN_REC_BATCH ≤ s1.recLen n c ∨ s.fg g EN_REC_FLUSH = 0 then s1.recClose n c 0 else s1

/-- RECORD_FLUSH_TIMEOUT (R259, EN_REC). ASYNC records close under AS_CFG. -/
def execRecordFlushTimeout (pitch : Pitch) (chan : Fin 8) (s : State) : Out :=
  .next (if s.enMode (s.enOf pitch.val chan.val) = 1 then s else s.recClose pitch.val chan.val 0)

/-! ### Transmit FIFOs (R260, R261) -/

/-- Bytes in a channel's transmit FIFO, and its free space in units of 8 bytes. -/
def Chan.used (x : Chan) : Nat := (x.fifo.map fun i => i.2.length).sum
def Chan.space (x : Chan) : Nat := (1024 - x.used) / 8

/-- The FIFO without its first item; TX_LOW when the space rises above 64. -/
def State.fifoPop (s : State) (n c : Nat) : State :=
  let x := s.chan n c
  let y := { x with fifo := x.fifo.tail, taken := x.taken + 1 }
  (s.setChan n c y).raiseIf (decide (x.space ≤ 64) && decide (64 < y.space)) (s.enOf n c) EV_EN_TX_LOW

/-- A transmit frame discarded (R260). -/
def State.txDrop (s : State) (n : Nat) : State := (s.inc (ecPage n) EC_CNT_TXDROP_COUNT).raise (ecPage n) EV_EC_TX_DROP

/-- The data length of a message item (R300). -/
def pbusLen (fdf rtr : Bool) (dlc : Nat) : Nat :=
  if rtr then 0 else if dlc ≤ 8 then dlc
  else if !fdf then 8
  else if dlc = 9 then 12 else if dlc = 10 then 16 else if dlc = 11 then 20 else if dlc = 12 then 24
  else if dlc = 13 then 32 else if dlc = 14 then 48 else 64

/-- The length of the message item at the head of a list of bytes. -/
def itemLen (bs : List Byte) : Nat :=
  let n := pbusLen (nbit (leAt bs 0 4) 31) (nbit (leAt bs 0 4) 30) (leAt bs 4 1 % 16)
  12 + 4 * ((n + 3) / 4)

/-- `k` message items of a list of bytes, none where it is too short. -/
def splitItems : Nat → List Byte → Option (List (List Byte))
  | 0, _ => some []
  | k + 1, bs =>
    if bs.length < itemLen bs then none
    else (splitItems k (bs.drop (itemLen bs))).map fun r => bs.take (itemLen bs) :: r

/-- `k` items of `w` bytes. -/
def fixedItems (w : Nat) : Nat → List Byte → Option (List (List Byte))
  | 0, _ => some []
  | k + 1, bs => if bs.length < w then none else (fixedItems w k (bs.drop w)).map fun r => bs.take w :: r

/-- The items of a transmit record for a mode: AS_TX for ASYNC, PB_TX for PBUS, DI_SCHED for DISC. -/
def txItems (mode : Nat) (bs : List Byte) : Option (List (List Byte)) :=
  let k := leAt bs 2 1
  let ty := leAt bs 3 1
  if bs.length < 12 ∨ k = 0 then none
  else if mode = 1 ∧ ty = 2 ∧ k ≤ 250 then fixedItems 2 k (bs.drop 12)
  else if mode = 4 ∧ ty = 5 ∧ k ≤ 62 then fixedItems 8 k (bs.drop 12)
  else if mode = 2 ∧ ty = 0x11 then splitItems k (bs.drop 12)
  else none

/-- The instant a scheduled item names: the occurrence of its value within the 2^31 ns that follow, else the one before, which is
too late (R279). -/
def State.schedAt (s : State) (item : List Byte) : Int :=
  let ts : Int := leAt item 0 6
  let st := s.stAt s.now / timeG
  let d := (ts - st) % 2 ^ 48
  s.localOf ((st + (if d < 2 ^ 47 then d else d - 2 ^ 48)) * timeG)

/-! ### Restart (R263) and outputs at rest -/

/-- A channel at its initial state, with what the card quad has handed over, the output changes of before and a migration under way kept. The items it drops
count as taken (R404). -/
def Chan.fresh (x : Chan) : Chan :=
  { reps := x.reps, prev := x.prev, lvl := x.lvl, outLvl := x.outLvl, outEn := x.outEn, due := x.due, taken := x.taken + x.fifo.length,
    sentTs := x.sentTs, mig := x.mig }

/-- The channel without the output changes of instant `e` or later. -/
def Chan.cutDue (x : Chan) (e : Int) : Chan := { x with due := x.due.filter fun p => decide (p.at0 < e) }

/-- The level of ASYNC's mark. -/
def State.mark (s : State) (g : Nat) : Bool := !s.fb g AS_CFG_INV

/-- The outputs an engine holds while it runs and nothing is sent: level and enable of its channel. -/
def State.idleOut (s : State) (g n c : Nat) : Bool × Bool :=
  let m := s.enMode g
  if m = 1 then (s.mark g, !s.fb g AS_CFG_DUPLEX)
  else if m = 2 then (!s.fb g PB_CFG_INV, true)
  else if m = 3 then (s.fb g SY_CFG_CPOL, true)
  else if m = 4 then ((s.chan n c).outLvl, (s.chan n c).outEn)
  else (false, false)

/-- The second line of a SYNC engine that drives channel c + 1: its idle level (R269). -/
def State.pairIdle (s : State) (g : Nat) : Option Bool :=
  let p := s.fg g SY_CFG_PAIR
  if s.enMode g ≠ 3 then none
  else if p = 1 then some (!s.fb g SY_CFG_SEL_POL) else if p = 2 then some false else none

/-- The outputs placed as an engine starts. -/
def State.startOut (s : State) (n c : Nat) : State :=
  let g := s.enOf n c
  let (l, e) := s.idleOut g n c
  let s1 := if s.enMode g = 4 then
      (if s.fg g DI_CFG_OUTMODE = 0 && !s.fb g DI_CFG_OUTSRC then
        s.place n c (s.earliest n) (s.fb g DI_OUT_LEVEL) (s.fb g DI_OUT_EN) else s)
    else s.place n c (s.earliest n) l e
  match s1.pairIdle g with
  | some p => s1.place n (c + 1) (s.earliest n) p true
  | none => s1

/-- The outputs at rest of an engine that runs follow a commit that changes them (R267, R269, R289); `b` is the state before. -/
def State.reIdle (s b : State) (n c : Nat) : State :=
  let g := s.enOf n c
  let e := s.earliest n
  let turned := decide (s.enMode g = 1) && (s.fb g AS_CFG_DUPLEX != b.fb g AS_CFG_DUPLEX)
  let x := s.chan n c
  let s0 := if turned then s.setChan n c { x.cutDue e with de := false, deFrom := none, deaf := none } else s
  let (l, en) := s0.idleOut g n c
  let s1 := if s.idleOut g n c = b.idleOut g n c then s0 else s0.place n c e l (en || (s0.chan n c).de)
  match s1.pairIdle g with
  | some p => if b.pairIdle g = some p then s1 else s1.place n (c + 1) e p true
  | none => if (b.pairIdle g).isSome then s1.setChan n (c + 1) ((s1.chan n (c + 1)).cutDue e) else s1

/-- The outputs an engine leaves at its stop point (R262, R289): what it had still to place is dropped, and a later start begins PWM
anew (R278). -/
def State.stopOut (s : State) (n c : Nat) : State :=
  let g := s.enOf n c
  let m := s.enMode g
  let (l, _) := s.idleOut g n c
  let e := s.earliest n
  let s0 := s.setChan n c { (s.chan n c).cutDue e with pwmNext := none, de := false,
                                                        deaf := if (s.chan n c).de then some e else (s.chan n c).deaf }
  let s1 := if m = 4 then s0 else s0.place n c e l false
  match s1.pairIdle g with
  | some p => (s1.setChan n (c + 1) ((s1.chan n (c + 1)).cutDue e)).place n (c + 1) e p false
  | none => s1

/-- The four counters of an engine page cleared, and those of PBUS with them. -/
def State.enClrCnt (s : State) (g : Nat) : State :=
  let t := (List.range 4).foldl (fun (u : State) i => u.wr g (EN_CNT + 4 * i) 0) s
  if s.enMode g = 2 then ((t.wr g PB_CNT_ARB 0).wr g PB_CNT_RX 0).wr g PB_CNT_TX 0 else t

/-- The counts, captures and state that an engine page shows, in their initial state: a PBUS engine INTEGRATING with both counters 0
(R263, R302). -/
def State.restartRegs (s : State) (g : Nat) : State :=
  let s1 := s.enClrCnt g
  let m := s.enMode g
  if m = 4 then ((((s1.wr g EN_DI_COUNT 0).wr g DI_WIDTH 0).wr g DI_PERIOD 0).fs g DI_CFG_UNSURE 0)
  else if m = 3 then s1.wr g SY_LAST 0
  else if m = 2 then
    ((s1.wr g PB_ERR (PB_ERR_STATE.set (if s.enRuns g then 1 else 0) 0)).wr g PB_TT_STAT 0).wr g PB_TT_OFFSET 0
  else s1

/-- One channel's engine restarts (R263): its decoder, transmitter, schedules, FIFO and buffers return to their initial state, with
what its page shows of them. -/
def State.restartChan (n : Nat) (s : State) (c : Nat) : State :=
  let g := s.enOf n c
  let x := (s.chan n c).fresh
  let disc := decide (s.enMode g = 4)
  (s.setChan n c { x with due := [], outLvl := x.outLvl && !disc, outEn := x.outEn && !disc, hist := [(s.now, 0, 0)] }).restartRegs g

/-- The outputs of a channel whose engine runs, as at its start. -/
def State.restartOut (n : Nat) (s : State) (c : Nat) : State :=
  if s.enRuns (s.enOf n c) then s.startOut n c else s

/-- Every engine of a cluster restarts, and the cluster raises CARD_RESTART. -/
def State.restartCluster (s : State) (n : Nat) : State :=
  ((List.range 8).foldl (State.restartOut n) ((List.range 8).foldl (State.restartChan n) s)).raise (ecPage n) EV_EC_CARD_RESTART

/-! ### Mode writes and counters (R286) -/

/-- The mode registers of an engine page at the reset values of its mode. -/
def State.loadModeRegs (s : State) (g m : Nat) : State :=
  (List.range 8).foldl (fun (t : State) i =>
    let off := 0x080 + 4 * i
    let v := ((Sys2Proof.Machine.rowAt (modeRows m) off).map (·.reset)).getD 0
    let u := t.wr g off (BitVec.ofNat 32 v)
    { u with shad := u.shad.erase (regKey g off) }) s

/-- A write of EN_MODE: MODE is RWL and takes no reserved value; a change loads the mode registers and clears EN_CNT (R252,
R286), and the channel begins anew in its new mode. -/
def State.enModeWrite (s : State) (pre : Bool) (g : Nat) (v : Word) : State :=
  let m := EN_MODE_MODE.get v
  let s0 := if EN_MODE_CLR_CNT.get v = 1 then s.enClrCnt g else s
  if s.running g && !pre then s0.raise g EV_LOCKED_WRITE
  else if 4 < m ∨ m = s.enMode g then s0.mirrorCfg 0 g EN_MODE v
  else
    let s1 := match s0.servedBy (enCluster g) (enPos g) with
      | some c => s0.setChan (enCluster g) c { (s0.chan (enCluster g) c).fresh with due := [] }
      | none => s0
    (((s1.fs g EN_MODE_MODE m).loadModeRegs g m).enClrCnt g).mirrorCfg 0 g EN_MODE v

/-- The page of an engine as the accesses to it reach it. -/
def State.enReg (s : State) (e : Engine) : Nat := s.enAlias (0x100 + e.val)

/-- EN_MODE_WRITE (R286). -/
def execEnModeWrite (who : Initiator) (engine : Engine) (v : Word) (s : State) : Out :=
  .next (s.write who (s.enReg engine) EN_MODE fun t => t.enModeWrite (decide (who = .preload)) (s.enReg engine) v)

/-- EN_CLR_CNT: EN_CNT0 to EN_CNT3 cleared. -/
def execEnClrCnt (who : Initiator) (engine : Engine) (s : State) : Out :=
  .next (s.write who (s.enReg engine) EN_MODE fun t => t.enClrCnt (s.enReg engine))

/-- EC_CTRL.CLR_CNT. -/
def State.ecClrCnt (s : State) (n : Nat) : State := (s.wr (ecPage n) EC_CNT_MIG 0).wr (ecPage n) EC_CNT_TXDROP 0

/-- EC_CLR_CNT. -/
def execEcClrCnt (who : Initiator) (cluster : Pitch) (s : State) : Out :=
  .next (s.write who (ecPage cluster.val) EC_CTRL fun t => t.ecClrCnt cluster.val)

/-! ### Migration (R281-R285) -/

/-- Channel `c` is the second line of a SYNC pair (R269, R281). -/
def State.secondOfPair (s : State) (n c : Nat) : Bool :=
  decide (c % 2 = 1) && (s.pairIdle (s.enOf n (c - 1))).isSome

/-- A migration refused (R281). One that runs goes on. -/
def State.migRefuse (s : State) (n c : Nat) : State :=
  let g := ecPage n
  ((s.fs g EC_MIG_STATUS_STATE 3).fs g EC_MIG_STATUS_CHAN c).raise g EV_EC_MIG_REFUSED

/-- The spare page takes what the source page holds, shadows and all (R282 step 1). -/
def State.copyPage (s : State) (src dst : Nat) : State :=
  let s1 := s.dropRegs dst 0
  let s2 := (s.regs.filter fun e => inPage src 0 e.1).foldl (fun (t : State) e => t.wr dst (e.1 % 4096) e.2) s1
  (s.shad.filter fun e => inPage src 0 e.1).foldl (fun (t : State) e => t.wrSh dst (e.1 % 4096) e.2) s2

/-- A migration of channel `c` of cluster `n` requested (R281, R282). -/
def State.migRequest (s : State) (n c : Nat) (urgent : Bool) (cause : Nat) : State :=
  let g := ecPage n
  if s.fb g EC_MIG_STATUS_SPARE_USED || !s.fb g EC_MIG_STATUS_SPARE_OK || (s.followed n).isSome ||
      !s.running g || s.secondOfPair n c then s.migRefuse n c
  else
    let s1 := s.copyPage (s.enOf n c) (enPage n 8)
    let s2 := (s1.fs g EC_MIG_STATUS_STATE 1).fs g EC_MIG_STATUS_CHAN c
    s2.setChan n c { s2.chan n c with mig := some (urgent, cause) }

/-- A write of EC_MIG_CMD. -/
def State.ecMigWrite (s : State) (n : Nat) (v : Word) : State :=
  if EC_MIG_CMD_GO.get v = 1 then s.migRequest n (EC_MIG_CMD_CHAN.get v) (EC_MIG_CMD_URGENT.get v = 1) 0 else s

/-- EC_MIG_CMD (R281). -/
def execEcMigCmd (who : Initiator) (cluster : Pitch) (v : Word) (s : State) : Out :=
  .next (s.write who (ecPage cluster.val) EC_MIG_CMD fun t => t.ecMigWrite cluster.val v)

/-- EC_MIG_URGENT (R284): the same register, with URGENT 1. -/
def execEcMigUrgent (who : Initiator) (cluster : Pitch) (v : Word) (s : State) : Out :=
  .next (s.write who (ecPage cluster.val) EC_MIG_CMD fun t => t.ecMigWrite cluster.val (EC_MIG_CMD_URGENT.set 1 v))

/-- MIGRATION_TIMEOUT (R283). -/
def execMigrationTimeout (cluster : Pitch) (s : State) : Out :=
  .next (
    let g := ecPage cluster.val
    match s.followed cluster.val with
    | none => s
    | some c => ((s.fs g EC_MIG_STATUS_STATE 4).setChan cluster.val c { s.chan cluster.val c with mig := none }).raise g EV_EC_MIG_TIMEOUT)

/-- A frame is in progress on the bus: being received or sent. -/
def Pb.inFrame (p : Pb) : Bool := match p.ph with
  | .frame => true | .crcDel => true | .ack => true | .ackDel => true | .eof => true | _ => false

/-- The boundary of a channel's mode at which it may stop, commit or migrate (R262, R266, R282, R299). An edge whose instant has passed
is no longer to be placed, where the link could not carry it (R242). -/
def State.atBoundary (s : State) (n c : Nat) : Bool :=
  let g := s.enOf n c
  let m := s.enMode g
  let x := s.chan n c
  if m = 1 then x.rx.isNone && x.due.all fun p => decide (p.at0 < s.now)
  else if m = 2 then x.pb.bnd || (decide (s.fg g PB_ERR_STATE ≠ 2) && decide (s.fg g PB_ERR_STATE ≠ 3))
  else if m = 3 then x.xfer.isNone
  else true

/-- A character, frame or transfer is in progress, which an urgent switch cuts (R284); `m` is the mode, and output changes from instant
`e` on are still to be placed. -/
def Chan.cutShort (x : Chan) (m : Nat) (e : Int) : Bool :=
  x.rx.isSome || x.xfer.isSome || x.pb.inFrame || x.tx.isSome || (decide (m = 1) && x.due.any fun p => decide (e ≤ p.at0))

/-- The switch to the spare (R282 steps 3 and 4): EC_MAP names position 8, the source is retired, and the migration is recorded in
the repair table (R285). In an urgent one the spare has the source's configuration and starts in its initial state (R284); the FIFO
and the record stay with the channel (R261). -/
def State.migSwitch (s : State) (n c : Nat) (urgent : Bool) (cause : Nat) : State :=
  let g := ecPage n
  let src := s.enOf n c
  let from0 := s.mapPos n c
  let x := s.chan n c
  let y : Chan := if urgent then
      { x.fresh.cutDue (s.earliest n) with fifo := x.fifo, taken := x.taken, buf := x.buf, recs := x.recs, wait := x.wait, mig := none, prev := none }
    else { x with mig := none }
  let s1 := (s.copyPage src (enPage n 8)).setChan n c y
  let map1 := (⟨EC_MAP, 4 * c, 4⟩ : Fld).set 8 (s1.rd g EC_MAP)
  let s2 := s1.wr g EC_MAP (if (s.pairIdle src).isSome then (⟨EC_MAP, 4 * (c + 1), 4⟩ : Fld).set 8 map1 else map1)
  let s3 := ((s2.fs g EC_MIG_STATUS_STATE 2).fs g EC_MIG_STATUS_SPARE_USED 1).fs g EC_MIG_STATUS_FROM from0
  let s4 := ((s3.setState (enPage n 8) PAGE_STATE_SPARED true).setState src PAGE_STATE_SPARED true).setState g PAGE_STATE_SPARED true
  let s5 := s4.setState (enPage n 8) PAGE_STATE_RUNNING (s.running src)
  let s6 := if urgent then State.restartOut n (s5.restartRegs (enPage n 8)) c else s5
  ((s6.inc g EC_CNT_MIG_DONE).raise g EV_EC_MIG_DONE).recordRepair ⟨3, n, c + 16 * from0, 0, cause⟩

end Sys2Proof.Machine
end

