-- ==== Sys2Proof/Machine/Async.lean ====
section
/-! DEFINITION. ASYNC mode (R264-R268): the character receiver, record framing, the transmitter and its driver enable. -/
namespace Sys2Proof.Machine

/-- The bit time, and the bits of a character (R264): data bits, whether there is a parity bit, k. -/
def State.asT (s : State) (g : Nat) : Int := 10 * (s.fg g AS_BIT_BIT_TIME : Int)
def State.asData (s : State) (g : Nat) : Nat := s.fg g AS_CFG_DATA
def State.asPar (s : State) (g : Nat) : Nat := s.fg g AS_CFG_PARITY
def State.asK (s : State) (g : Nat) : Nat := 1 + s.asData g + (if s.asPar g = 0 then 0 else 1)

/-- The stop bits, in half bits. -/
def State.asStop2 (s : State) (g : Nat) : Nat := 2 + s.fg g AS_CFG_STOP

/-- One full character time (R268). -/
def State.asChar (s : State) (g : Nat) : Int := s.asT g * (2 * (s.asK g : Int) + (s.asStop2 g : Int)) / 2

/-- The parity bit of a character (R264). -/
def parityBit (odd : Bool) (n data : Nat) : Bool :=
  let ones := ((List.range n).filter fun i => nbit data i).length
  if odd then decide (ones % 2 = 0) else decide (ones % 2 = 1)

/-- The item of AS_RX (R258). -/
def asItem (data : Nat) (pe fe brk noise : Bool) : List Byte :=
  leBytes (data % 512 + 512 * bit pe + 1024 * bit fe + 2048 * bit brk + 4096 * bit noise) 2

/-- An address character passes the filter (R265). -/
def State.asKeep (s : State) (g data : Nat) : Bool :=
  !s.fb g AS_ADDR_FILT || decide ((data % 256 ^^^ s.fg g AS_ADDR_ADDR) &&& s.fg g AS_ADDR_MASK = 0)

/-- A character added to the channel's record, which opens with CONT where the one before was full; at 250 it closes (R265). -/
def State.asAdd (s : State) (n c : Nat) (u : Int) (item : List Byte) (max : Nat) : State :=
  let s1 := s.recAdd n c 0x01 (if (s.chan n c).cont then 2 else 0) u item
  let s2 := s1.setChan n c { s1.chan n c with cont := false }
  if max ≤ s2.recLen n c then
    let s3 := s2.recClose n c 0
    s3.setChan n c { s3.chan n c with cont := decide (s2.fg (s2.enOf n c) AS_CFG_FRAMING ≠ 0) }
  else s2

/-- A received character framed (R265). -/
def State.asFrame (s : State) (n c : Nat) (u : Int) (data : Nat) (item : List Byte) : State :=
  let g := s.enOf n c
  let f := s.fg g AS_CFG_FRAMING
  if f = 0 then s.asAdd n c u item (s.fg g AS_CFG_BATCH)
  else if f = 1 then s.asAdd n c u item 250
  else if nbit data 8 then
    let s1 := s.recClose n c 4
    let s2 := s1.setChan n c { s1.chan n c with keep := s.asKeep g data, addrSeen := true, cont := false }
    if s.asKeep g data then s2.asAdd n c u item 250 else s2
  else if (s.chan n c).addrSeen && (s.chan n c).keep then s.asAdd n c u item 250
  else s

/-- A character ends: its first stop bit has been judged at `u` (R264). -/
def State.asEnd (s : State) (n c : Nat) (x : AsyncRx) (stop : Bool) (u : Int) : State :=
  let g := s.enOf n c
  let d := s.asData g
  let data := x.bits % 2 ^ d
  let fe := stop ≠ s.mark g
  let brk := fe && decide (x.bits = 0)
  let pe := decide (s.asPar g ≠ 0) && decide (nbit x.bits d ≠ parityBit (s.asPar g = 2) d data)
  let s0 := s.setChan n c { s.chan n c with rx := none, brk := brk, stopAt := some u }
  let s1 := if fe then s0.enCnt g 0 else s0
  let s2 := if pe then s1.enCnt g 1 else s1
  s2.asFrame n c x.start data (asItem data pe fe brk x.noise)

/-- A bit judged at its centre `u`: level and uncertainty as the line record gives them (R264). -/
def State.asJudge (s : State) (n c : Nat) (x : AsyncRx) (lvl unsure : Bool) (u : Int) : State :=
  let g := s.enOf n c
  let s1 := if unsure && !x.noise then s.enCnt g 3 else s
  let one := decide (lvl = s.mark g)
  let y := { x with i := x.i + 1, noise := x.noise || unsure }
  if x.i = 0 then
    if one then (s1.enCnt g 3).setChan n c { s1.chan n c with rx := none } else s1.setChan n c { s1.chan n c with rx := some y }
  else if x.i < s.asK g then
    s1.setChan n c { s1.chan n c with rx := some { y with bits := x.bits + bit one * 2 ^ (x.i - 1) } }
  else s1.asEnd n c y lvl u

/-- The centre of the next bit of the character in progress. -/
def State.asCentre (s : State) (g : Nat) (x : AsyncRx) : Int := x.start + s.asT g * (2 * (x.i : Int) + 1) / 2

/-- In half duplex, the receiver ignores its input from the rise of TXEN until one bit time after its fall (R267). -/
def Chan.deafAt (x : Chan) (u : Int) : Bool :=
  match x.deFrom with
  | none => false
  | some a => decide (a ≤ u) && (match x.deaf with | none => true | some b => decide (u < b))

/-- The wait for mark after a gap, followed through one report (R268): the instant since which the line is at mark, or none once it
has been there for a full character time. -/
def waitMark (need : Int) (mark : Bool) (r : Rep) (since : Int) : Option Int :=
  let fin := r.base + frameU
  if r.level ≠ mark then
    (if r.edge && !r.glitch && decide (need ≤ r.stamp - since) then none else some fin)
  else if r.edge then some (max since r.stamp)
  else if need ≤ fin - since then none else some since

/-- A start edge in the report, where the receiver takes one (R264). -/
def State.asStart (s : State) (n c : Nat) (r : Rep) : State :=
  let g := s.enOf n c
  let x := s.chan n c
  let m := s.mark g
  let late := match x.stopAt with
    | some u => decide (r.stamp ≤ u)
    | none => false
  if x.rx.isSome || x.brk || x.wait.isSome || !r.edge || r.glitch || decide (r.level = m) || x.deafAt r.stamp || late then
    (if r.level = m then s.setChan n c { x with brk := false } else s)
  else s.setChan n c { x with rx := some { start := r.stamp } }

/-- One report taken by an ASYNC engine. -/
def State.asReport (s : State) (n c : Nat) (r : Rep) : State :=
  let g := s.enOf n c
  let x := s.chan n c
  let prev := x.prev.getD (if r.edge then !r.level else r.level)
  if x.deafAt r.base then s.setChan n c { x with rx := none }
  else
    let s1 := match x.wait with
      | some u => s.setChan n c { x with wait := waitMark (s.asChar g) (s.mark g) r u }
      | none => s
    let s2 := match x.rx with
      | some y =>
        let u := s.asCentre g y
        if u < r.base + frameU then
          let (l, q) := r.at prev u
          s1.asJudge n c y l q u
        else s1
      | none => s1
    s2.asStart n c r

/-- A gap at an ASYNC engine (R268): a character in progress ends, its record closes with TRUNC, and the receiver waits for mark. A wait
for good reports begins again. -/
def State.asGap (s : State) (n c : Nat) (fin : Int) : State :=
  let x := s.chan n c
  if x.rx.isSome then ((s.setChan n c { x with rx := none, wait := some fin }).enCnt (s.enOf n c) 2).recClose n c 1
  else if x.wait.isSome then s.setChan n c { x with wait := some fin } else s

/-- ASYNC_IDLE_GAP (R265): the record closes with END. -/
def execAsyncIdleGap (pitch : Pitch) (chan : Channel) (s : State) : Out :=
  .next (
    let n := pitch.val
    let c := chan.val
    if s.enMode (s.enOf n c) ≠ 1 ∨ (s.chan n c).rx.isSome then s
    else
      let s1 := s.recClose n c 4
      s1.setChan n c { s1.chan n c with keep := false, cont := false })

/-! ### Transmitter (R267) -/

/-- The edges of a character that starts at `u`: start bit, data bits, parity bit, then mark. -/
def State.asEdges (s : State) (g data : Nat) (u : Int) : List Place :=
  let d := s.asData g
  let m := s.mark g
  let bits := [false] ++ (List.range d).map (fun i => nbit data i) ++
    (if s.asPar g = 0 then [] else [parityBit (s.asPar g = 2) d (data % 2 ^ d)]) ++ [true]
  let go := bits.foldl (fun (t : List Place × Nat × Bool) b =>
    let p : Place := ⟨u + s.asT g * (t.2.1 : Int), if b then m else !m, true⟩
    (if b = t.2.2 then t.1 else t.1 ++ [p], t.2.1 + 1, b)) ([], 0, true)
  go.1

/-- A commit, a stop or a migration waits for the channel's boundary, or the pitch is held: no new transmission starts (R266, R412,
R415). -/
def State.txHeld (s : State) (n c : Nat) : Bool :=
  let g := s.enOf n c
  s.commitPending g || s.stopping.contains g || (s.chan n c).mig.isSome || s.pitchHeld n

/-- ASYNC_TX_START (R267). -/
def execAsyncTxStart (pitch : Pitch) (chan : Channel) (s : State) : Out :=
  .next (
    let n := pitch.val
    let c := chan.val
    let g := s.enOf n c
    let x := s.chan n c
    match x.fifo with
    | [] => s
    | item :: _ =>
      if s.enMode g ≠ 1 ∨ !s.enRuns g ∨ s.txHeld n c then s
      else
        let half := s.fb g AS_CFG_DUPLEX
        let free := max (s.earliest n) (x.txEnd.getD (s.earliest n))
        let lead := half && !x.de
        let start := if lead then free + nsU * (s.fg g AS_DE_DE_LEAD : Int) else free
        let rise : List Place := if lead then [⟨free, s.mark g, true⟩] else []
        let s1 := s.fifoPop n c
        let y := s1.chan n c
        s1.setChan n c { y with due := y.due ++ rise ++ s.asEdges g (leAt item.2 0 2 % 512) start
                                txEnd := some (start + s.asChar g)
                                de := half
                                deFrom := if lead then some free else y.deFrom
                                deaf := if lead then none else y.deaf })

/-- ASYNC_DE_LAG_EXPIRE (R267): with the FIFO empty, TXEN falls DE_LAG after the last stop bit. -/
def execAsyncDeLagExpire (pitch : Pitch) (chan : Channel) (s : State) : Out :=
  .next (
    let n := pitch.val
    let c := chan.val
    let g := s.enOf n c
    let x := s.chan n c
    if s.enMode g ≠ 1 ∨ !x.de ∨ !x.fifo.isEmpty then s
    else
      let fall := max (s.earliest n) ((x.txEnd.getD (s.earliest n)) + nsU * (s.fg g AS_DE_DE_LAG : Int))
      s.setChan n c { x with due := x.due ++ [⟨fall, s.mark g, false⟩], de := false, deaf := some (fall + s.asT g) })

end Sys2Proof.Machine
end

