-- ==== Sys2Proof/Machine/Canopy.lean ====
section
/-! DEFINITION. The canopy's images: groups and grains, their visible and hidden copies, and the writes to them (R23-R27, R345-R348). -/
namespace Sys2Proof.Machine

def imgCode : Image → Nat
  | .input => 0 | .output => 1

/-- The key of a group of an image. -/
def grpKey (img : Image) (m : Nat) : Nat := 4096 * imgCode img + m

/-- The visible copy of a group, and its newest content (R345). -/
def State.grpVis (s : State) (k : Nat) : BitVec 96 := s.scan.vis.getD k 0
def State.grpNew (s : State) (k : Nat) : BitVec 96 := (s.scan.hid.getD k none).getD (s.grpVis k)

/-- The copy that holds a group's newest content, as the errors are listed: the hidden one where it has been written since the last
boundary; `flip` asks for the other one (R345). -/
def State.copyKey (s : State) (k : Nat) (flip : Bool) : Nat :=
  let c := (s.scan.ptr.getD k false).xor ((s.scan.hid.getD k none).isSome.xor flip)
  k / 4096 * 8192 + (if c then 4096 else 0) + k % 4096

/-- A copy written in full holds no error. -/
def State.errClear (s : State) (ck : Nat) : State :=
  { s with scan := { s.scan with ue := s.scan.ue.filter (· != ck), ce := s.scan.ce.filter (· != ck) } }

/-- A copy read: its errors counted, recorded and raised (R458). -/
def State.copyRead (s : State) (ck : Nat) : State :=
  if s.scan.ue.contains ck then
    let s1 := s.inc 0x280 MEM_CAN_CNT_UE
    ((s1.wr 0x280 MEM_UE_LAST (BitVec.ofNat 32 (2 ^ 30 + ck))).raiseBit 0x280 EV_MEM_ECC_UE).fault 0x4D 0
  else if s.scan.ce.contains ck then (s.inc 0x280 MEM_CAN_CNT_CE).raise 0x280 EV_MEM_ECC_CE
  else s

/-- The copy holds an uncorrectable error. -/
def State.copyBad (s : State) (ck : Nat) : Bool := s.scan.ue.contains ck

/-- The scan unit runs and its first boundary has passed (R347). -/
def State.scanOn (s : State) : Bool := s.running 0x01C && !s.fb 0x01C SC_STATUS_WAITING

/-- A group written under a mask: to the hidden copy while the scan unit runs, which the active hub mirrors but for the latched inputs
(R402), to both copies otherwise (R345, R347). -/
def State.grpPut (s : State) (k : Nat) (mask v : BitVec 96) : State :=
  let x := (s.grpNew k &&& ~~~ mask) ||| (v &&& mask)
  let s := if mask = BitVec.allOnes 96 then s.errClear (s.copyKey k (s.scanOn && !(s.scan.hid.getD k none).isSome)) else s
  if s.scanOn then
    let s1 := { s with scan := { s.scan with hid := s.scan.hid.put k (some x) none } }
    if k < 96 then s1
    else s1.mirror 2 (s.rd 0x01C SC_EPOCH).toNat (leBytes (k % 4096 + 32768 * (k / 4096)) 2 ++ leBytes x.toNat 12)
  else { s with scan := { s.scan with vis := s.scan.vis.put k x 0, hid := s.scan.hid.erase k } }

/-- Every written group made visible (R346). -/
def State.flip (s : State) : State :=
  { s with scan := { s.scan with
      vis := s.scan.hid.foldl (fun (m : Map (BitVec 96)) e => m.put e.1 (s.grpNew e.1) 0) s.scan.vis
      ptr := s.scan.hid.foldl (fun (m : Map Bool) e => m.put e.1 (!m.getD e.1 false) false) s.scan.ptr
      hid := [] } }

/-- Every group's bits. -/
def allGrains : BitVec 96 := BitVec.allOnes 96

/-- Grain `j` of a group, and the mask and value that put it there. -/
def grainOf (v : BitVec 96) (j : Nat) : Nat := (v >>> (12 * j)).toNat % 4096
def grainMask (j : Nat) : BitVec 96 := BitVec.ofNat 96 (0xFFF <<< (12 * j))
def grainVal (j x : Nat) : BitVec 96 := BitVec.ofNat 96 ((x % 4096) <<< (12 * j))

/-- A grain of an image's visible copy, and of its newest content. -/
def State.grain (s : State) (img : Image) (g : Nat) : Nat := grainOf (s.grpVis (grpKey img (g / 8))) (g % 8)
def State.grainNew (s : State) (img : Image) (g : Nat) : Nat := grainOf (s.grpNew (grpKey img (g / 8))) (g % 8)

/-- A grain written. -/
def State.grainPut (s : State) (img : Image) (g x : Nat) : State :=
  s.grpPut (grpKey img (g / 8)) (grainMask (g % 8)) (grainVal (g % 8) x)

/-- A software write to a group: input grains 0 to 767 take none, and in the guard it is held until the boundary (R347). -/
def State.softPut (s : State) (img : Image) (m : Nat) (mask v : BitVec 96) : State :=
  if img = .input ∧ m < 96 then s
  else if s.fb 0x01C SC_STATUS_GUARDING then
    { s with scan := { s.scan with held := s.scan.held ++ [(grpKey img m, mask, v)] } }
  else s.grpPut (grpKey img m) mask v

/-- The bytes of a group as the packed view and the canopy frames carry it (R25, R352). -/
def grpBytes (v : BitVec 96) : List Byte := leBytes v.toNat 12
def grpOf (bs : List Byte) : BitVec 96 := BitVec.ofNat 96 (ofLe (bs.take 12))

/-- PERIOD in ns of service time. -/
def State.epochNs (s : State) : Int := 1000 * (s.fg 0x01C SC_PERIOD_PERIOD : Int)

/-- The epoch in progress. -/
def State.epoch (s : State) : Nat := (s.rd 0x01C SC_EPOCH).toNat

end Sys2Proof.Machine
end

