-- ==== Sys2Proof/Machine/SyncMode.lean ====
section
/-! DEFINITION. SYNC mode (R269-R273): transfers, triggers, sampling and samples. -/
namespace Sys2Proof.Machine

/-- The timing of a transfer (R270): P, h, L, WIDTH and the length it occupies the lines, in 1/160 ns. -/
def State.syP (s : State) (g : Nat) : Int := nsU * (s.fg g SY_CFG_CLK_PERIOD : Int)
def State.syH (s : State) (g : Nat) : Int := nsU * ((s.fg g SY_CFG_CLK_PERIOD / 2 : Nat) : Int)
def State.syL (s : State) (g : Nat) : Int := if s.fg g SY_CFG_PAIR = 1 then nsU * (s.fg g SY_SEL_SEL_LEAD : Int) else 0
def State.syLen (s : State) (g : Nat) : Int := (s.fg g SY_CFG_WIDTH : Int) * s.syP g + 2 * s.syL g

/-- The shortest time from a transfer's end to the next (R270). -/
def State.sySpace (s : State) (g : Nat) : Int :=
  let idle := s.fg g SY_SEL_IDLE
  nsU * (if s.fg g SY_CFG_PAIR = 1 then max 16 idle else idle : Nat)

/-- The sampling edge of bit `i` of a transfer that starts at `t0`. -/
def State.syEdge (s : State) (g : Nat) (t0 : Int) (i : Nat) : Int :=
  t0 + s.syL g + (i : Int) * s.syP g + (if s.fb g SY_CFG_CPHA then s.syH g else 0)

/-- The clock edges of a transfer. -/
def State.syClock (s : State) (g : Nat) (t0 : Int) : List Place :=
  let pol := s.fb g SY_CFG_CPOL
  ((List.range (s.fg g SY_CFG_WIDTH)).map fun (i : Nat) =>
    let a := t0 + s.syL g + (i : Int) * s.syP g
    [(⟨a, !pol, true⟩ : Place), ⟨a + s.syH g, pol, true⟩]).flatten

/-- What the second line does in a transfer: SEL, or DOUT. -/
def State.sySecond (s : State) (g : Nat) (t0 : Int) : List Place :=
  let p := s.fg g SY_CFG_PAIR
  let w := s.fg g SY_CFG_WIDTH
  if p = 1 then [⟨t0, s.fb g SY_CFG_SEL_POL, true⟩, ⟨t0 + s.syLen g, !s.fb g SY_CFG_SEL_POL, true⟩]
  else if p = 2 then
    (List.range w).map fun (i : Nat) => ⟨s.syEdge g t0 i - s.syH g, nbit (s.fg g SY_DOUT_DOUT) (w - 1 - i), true⟩
  else []

/-- The earliest start of a transfer decided now: its first change, which with PAIR 2 and CPHA 0 is DOUT's h before the start, must
still be placed (R29, R270). -/
def State.syFirst (s : State) (n g : Nat) : Int :=
  s.earliest n + (if s.fg g SY_CFG_PAIR = 2 ∧ s.fg g SY_CFG_CPHA = 0 then s.syH g else 0)

/-- A transfer started at `t0`, or skipped and counted while one runs or its spacing has not passed (R270, R271). -/
def State.syStart (s : State) (n c : Nat) (t0 : Int) : State :=
  let g := s.enOf n c
  let x := s.chan n c
  if x.xfer.isSome ∨ t0 < x.nextOk then s.enCnt g 2
  else if s.txHeld n c then s
  else
    let s1 := s.setChan n c { x with xfer := some { t0 := t0 }, nextOk := t0 + s.syLen g + s.sySpace g,
                                     due := x.due ++ s.syClock g t0 }
    if s.fg g SY_CFG_PAIR = 0 then s1
    else s1.setChan n (c + 1) { s1.chan n (c + 1) with due := (s1.chan n (c + 1)).due ++ s.sySecond g t0 }

/-- A write of SY_CMD: GO starts a transfer with TRIG 0 (R271). -/
def State.syCmdWrite (s : State) (g : Nat) (v : Word) : State :=
  match s.servedBy (enCluster g) (enPos g) with
  | none => s
  | some c =>
    if SY_CMD_GO.get v = 1 && decide (s.enMode g = 3) && decide (s.fg g SY_CFG_TRIG = 0) && s.enRuns g then
      s.syStart (enCluster g) c (s.syFirst (enCluster g) g)
    else s

/-- SY_CMD_GO (R271). In another mode the offset is not SY_CMD, and the write has no effect. -/
def execSyCmdGo (who : Initiator) (engine : Engine) (s : State) : Out :=
  .next (s.write who (s.enReg engine) SY_CMD fun t => if t.enMode (t.enReg engine) = 3 then t.syCmdWrite (t.enReg engine) 1 else t)

/-- The next trigger instant (R271): OFFSET after the boundary of the epoch in progress, or of a later one; or the next service time
whose ns modulo PERIOD is 0; no earlier than it can be placed. -/
def State.syTrigger (s : State) (n g : Nat) : Int :=
  let first := s.syFirst n g
  let st := s.stAt first
  let unit := timeG * 65536
  if s.fg g SY_CFG_TRIG = 1 then
    let off := (s.scan.bnd + (s.fg g SY_OFFSET_OFFSET : Int)) * unit
    let per := s.epochNs * unit
    if st ≤ off ∨ per = 0 then s.localOf off else s.localOf (off + (st - off + per - 1) / per * per)
  else
    let per := (s.fg g SY_PERIOD_PERIOD : Int) * unit
    let base := st / timeWrap * timeWrap
    s.localOf (if per = 0 then st else min (base + (st - base + per - 1) / per * per) (base + timeWrap))

/-- SYNC_TRIGGER (R271). -/
def execSyncTrigger (pitch : Pitch) (chan : Channel) (s : State) : Out :=
  .next (
    let n := pitch.val
    let g := s.enOf n chan.val
    if s.enMode g = 3 && decide (s.fg g SY_CFG_TRIG ≠ 0) && s.enRuns g then s.syStart n chan.val (s.syTrigger n g) else s)

/-- One report taken by a SYNC engine: the bit whose instant it holds is sampled (R270). -/
def State.syReport (s : State) (n c : Nat) (r : Rep) : State :=
  let g := s.enOf n c
  let x := s.chan n c
  match x.xfer with
  | none => s
  | some y =>
    let u := s.syEdge g y.t0 y.i + nsU * (s.fg g SY_DLY_SAMPLE_DLY : Int)
    if y.i < s.fg g SY_CFG_WIDTH ∧ u < r.base + frameU then
      let prev := x.prev.getD (if r.edge then !r.level else r.level)
      s.setChan n c { x with xfer := some { y with i := y.i + 1, bits := 2 * y.bits + bit (r.at prev u).1 } }
    else s

/-- A sample with its sign extended (R272). -/
def sySample (sign : Bool) (w bits : Nat) : Nat :=
  let top := if w ≤ 12 then 12 else 24
  if sign && nbit bits (w - 1) then bits % 2 ^ w + (2 ^ top - 2 ^ w) else bits % 2 ^ w

/-- What a latch may take is remembered (R351): the sample, from the instant by which its last bit has been judged: d + 64 ns after it.
Only the newest is kept while the scan unit does not run. -/
def State.syNote (s : State) (n c : Nat) (t0 : Int) (v : Nat) : State :=
  let g := s.enOf n c
  let x := s.chan n c
  let last := s.syEdge g t0 (s.fg g SY_CFG_WIDTH - 1) + nsU * (s.fg g SY_DLY_SAMPLE_DLY : Int)
  let e := (last + 64 * nsU + s.delayU n, v, 1)
  s.setChan n c { x with hist := if s.running 0x01C then x.hist ++ [e] else [e] }

/-- SYNC_TRANSFER_END (R270, R272): the last bit has been judged. -/
def execSyncTransferEnd (pitch : Pitch) (chan : Channel) (s : State) : Out :=
  .next (
    let n := pitch.val
    let c := chan.val
    let g := s.enOf n c
    match (s.chan n c).xfer with
    | none => s
    | some y =>
      if s.enMode g ≠ 3 ∨ y.i < s.fg g SY_CFG_WIDTH then s
      else
        let v := sySample (s.fb g SY_CFG_SIGN) (s.fg g SY_CFG_WIDTH) y.bits
        let s1 := (s.setChan n c { s.chan n c with xfer := none }).enCnt g 0
        let s2 := s1.wr g SY_LAST (SY_LAST_OK.set 1 (SY_LAST_SAMPLE.set v 0))
        let s3 := s2.syNote n c y.t0 v
        if !s.fb g EN_RXDST_RX_EN then s3
        else
          s3.recBatch n c 3 y.t0 (leBytes v 3 ++ [0] ++ leBytes 0 4))

/-- The transfer in progress ends as truncated and the lines return to idle (R273). -/
def State.syCut (s : State) (n c : Nat) : State :=
  let g := s.enOf n c
  let x := s.chan n c
  let s1 := (s.setChan n c { x with xfer := none, due := [⟨s.earliest n, s.fb g SY_CFG_CPOL, true⟩] }).enCnt g 1
  let s2 := s1.fs g SY_LAST_OK 0
  match s.pairIdle g with
  | some p => s2.setChan n (c + 1) { s2.chan n (c + 1) with due := [⟨s.earliest n, p, true⟩] }
  | none => s2

/-- A gap at a SYNC engine (R273): a transfer one of whose bit instants lies in it ends. -/
def State.syGap (s : State) (n c : Nat) (base : Int) : State :=
  let g := s.enOf n c
  let x := s.chan n c
  match x.xfer with
  | none => s
  | some y =>
    let inGap := (List.range (s.fg g SY_CFG_WIDTH)).any fun i =>
      let u := s.syEdge g y.t0 i + nsU * (s.fg g SY_DLY_SAMPLE_DLY : Int)
      decide (y.i ≤ i) && decide (base ≤ u) && decide (u < base + frameU)
    if inGap then s.syCut n c else s

end Sys2Proof.Machine
end

