-- ==== Sys2Proof/Machine/DiscMode.lean ====
section
/-! DEFINITION. DISC mode (R274-R280): debounce, counting and edge records, captures, and the static, PWM and scheduled outputs. -/
namespace Sys2Proof.Machine

/-! ### Input (R274-R277) -/

/-- The item of DI_EDGE (R258). -/
def State.diItem (s : State) (u : Int) (level glitch gap : Bool) : List Byte :=
  s.tsBytes u ++ [BitVec.ofNat 8 (bit level + 2 * bit glitch + 4 * bit gap), 0]

/-- An item appended to the DI_EDGE record when REC_EN and RX_EN are 1 (R275). -/
def State.diRecord (s : State) (n c : Nat) (u : Int) (level glitch gap : Bool) : State :=
  let g := s.enOf n c
  if s.fb g DI_CFG_REC_EN && s.fb g EN_RXDST_RX_EN then s.recBatch n c 4 u (s.diItem u level glitch gap) else s

/-- A difference of instants in ns, rounded to the nearest, saturating (R276). -/
def nsRound (d : Int) : Nat := min ((d + 80) / nsU).toNat 0xFFFFFFFF

/-- The kind of change EDGE_SEL selects. -/
def State.diSelects (s : State) (g : Nat) (level : Bool) : Bool :=
  let e := s.fg g DI_CFG_EDGE_SEL
  decide (e = 3) || (decide (e = 1) && level) || (decide (e = 2) && !level)

/-- What a latch may take is remembered (R351): the level with UNSURE and the count from instant `u` on. Only the newest is kept while
the scan unit does not run. -/
def State.diNote (s : State) (n c : Nat) (u : Int) : State :=
  let g := s.enOf n c
  let x := s.chan n c
  let e := (u, bit (x.acc.getD false) + 2 * s.fg g DI_CFG_UNSURE, (s.rd g EN_DI_COUNT).toNat)
  s.setChan n c { x with hist := if s.running 0x01C then x.hist ++ [e] else [e] }

/-- The captures of R276: nothing from a glitch. -/
def State.diCapture (s : State) (n c : Nat) (u : Int) (level glitch : Bool) : State :=
  let g := s.enOf n c
  let x := s.chan n c
  if glitch then s.setChan n c { x with rise := none }
  else match x.rise with
    | some r =>
      if level then (s.wr g DI_PERIOD (BitVec.ofNat 32 (nsRound (u - r)))).setChan n c { x with rise := some u }
      else s.wr g DI_WIDTH (BitVec.ofNat 32 (nsRound (u - r)))
    | none => if level then s.setChan n c { x with rise := some u } else s

/-- A change accepted with stamp `u` at instant `i` (R274, R275). -/
def State.diAccept (s : State) (n c : Nat) (u i : Int) (level glitch : Bool) : State :=
  let g := s.enOf n c
  let s1 := s.setChan n c { s.chan n c with acc := some level, deb := none }
  let s2 := if s1.diSelects g level then (s1.addWrap g EN_DI_COUNT_COUNT 1).diRecord n c u level glitch false else s1
  (s2.diCapture n c u level glitch).diNote n c i

/-- The debounce time. -/
def State.diDeb (s : State) (g : Nat) : Int := 100 * nsU * (s.fg g DI_CFG_DEB : Int)

/-- A debounce whose time has passed by `u` accepts its change (R274). -/
def State.diMature (s : State) (n c : Nat) (u : Int) : State :=
  let d := s.diDeb (s.enOf n c)
  match (s.chan n c).deb with
  | some (a, l) => if a + d ≤ u then s.diAccept n c a (a + d) l false else s
  | none => s

/-- An edge to `level` with stamp `u` (R274). -/
def State.diEdge (s : State) (n c : Nat) (u : Int) (level : Bool) : State :=
  let g := s.enOf n c
  let x := s.chan n c
  if x.acc = some level then
    if x.deb.isSome then (s.setChan n c { x with deb := none }).enCnt g 0 else s
  else if s.diDeb g = 0 then s.diAccept n c u u level false
  else s.setChan n c { x with deb := some (u, level) }

/-- A glitch with stamp `u`, after which the line is at `level` (R274): a bounce with DEB above 0, else two accepted changes. -/
def State.diGlitch (s : State) (n c : Nat) (u : Int) (level : Bool) : State :=
  let g := s.enOf n c
  let x := s.chan n c
  if s.diDeb g ≠ 0 then
    (s.setChan n c { x with deb := if x.acc = some level then none else some (u, level) }).enCnt g 0
  else if x.acc = some level then (s.diAccept n c u u (!level) true).diAccept n c u u level true
  else s.diAccept n c u u level true

/-- The level at the start of the first report after a gap (R277). -/
def State.diAfterGap (s : State) (n c : Nat) (u : Int) (level : Bool) : State :=
  let g := s.enOf n c
  let x := s.chan n c
  if x.acc.isNone then (s.setChan n c { x with acc := some level }).diNote n c u
  else if x.acc = some level then s
  else
    let s1 := ((s.setChan n c { x with acc := some level }).fs g DI_CFG_UNSURE 1).enCnt g 3
    (s1.diRecord n c u level false true).diNote n c u

/-- One report taken by a DISC engine. -/
def State.diReport (s : State) (n c : Nat) (r : Rep) : State :=
  let g := s.enOf n c
  let inv := s.fb g DI_CFG_INV
  let level := r.level != inv
  let first := if r.edge && !r.glitch then !level else level
  let s1 := if (s.chan n c).prev.isNone || (s.chan n c).acc.isNone then s.diAfterGap n c r.base first else s
  let s2 := if r.edge || r.glitch then s1.diMature n c r.stamp else s1
  let s3 := if r.glitch then s2.diGlitch n c r.stamp level
    else if r.edge then s2.diEdge n c r.stamp level else s2
  s3.setChan n c { s3.chan n c with upto := r.base + frameU }

/-- A gap at a DISC engine (R277): the debounce is abandoned and the measurements begin again. -/
def State.diGap (s : State) (n c : Nat) : State := s.setChan n c { s.chan n c with deb := none, rise := none }

/-- The input of a DISC engine that starts is taken as it finds it: its first report gives the accepted level. -/
def State.diStart (s : State) (n c : Nat) : State := s.setChan n c { s.chan n c with acc := none, deb := none, rise := none }

/-- A commit turns INV: the levels known turn with it, and no change is accepted. -/
def State.diTurn (s : State) (n c : Nat) : State :=
  let x := s.chan n c
  (s.setChan n c { x with acc := x.acc.map (!·), deb := x.deb.map fun d => (d.1, !d.2), rise := none }).diNote n c s.now

/-- DISC_DEBOUNCE_ACCEPT (R274): the line record holds the new level for the whole time. -/
def execDiscDebounceAccept (pitch : Pitch) (chan : Channel) (s : State) : Out :=
  .next (if s.enMode (s.enOf pitch.val chan.val) ≠ 4 then s
         else s.diMature pitch.val chan.val (s.chan pitch.val chan.val).upto)

/-- The take of EN_DI_COUNT: the count, which with UNSURE is cleared (R275). -/
def State.diCountTake (s : State) (g : Nat) : State × Word :=
  let v := s.rd g EN_DI_COUNT
  let s1 := s.wr g EN_DI_COUNT 0
  if s.enMode g ≠ 4 then (s1, v)
  else
    let s2 := s1.fs g DI_CFG_UNSURE 0
    match s2.servedBy (enCluster g) (enPos g) with
    | some c => (s2.diNote (enCluster g) c s2.now, v)
    | none => (s2, v)

/-- EN_DI_COUNT_TAKE (R275). -/
def execEnDiCountTake (who : Initiator) (engine : Engine) (s : State) : Out :=
  .next (s.read who (s.enReg engine) EN_DI_COUNT fun t => t.diCountTake (s.enReg engine))

/-! ### Output (R278, R279) -/

/-- A write of DI_OUT: with the engine running in STATIC mode from the register, level and enable are placed (R278). -/
def State.diOut (s : State) (pre : Bool) (g : Nat) (v : Word) : State :=
  let s1 := s.plain pre g DI_OUT v
  match s1.servedBy (enCluster g) (enPos g) with
  | none => s1
  | some c =>
    let n := enCluster g
    if decide (s1.enMode g = 4) && s1.enRuns g && decide (s1.fg g DI_CFG_OUTMODE = 0) && !s1.fb g DI_CFG_OUTSRC then
      s1.place n c (s1.earliest n) (s1.fb g DI_OUT_LEVEL) (s1.fb g DI_OUT_EN)
    else s1

/-- DI_OUT_WRITE (R278). -/
def execDiOutWrite (who : Initiator) (engine : Engine) (v : Word) (s : State) : Out :=
  .next (s.write who (s.enReg engine) DI_OUT fun t => t.diOut (decide (who = .preload)) (s.enReg engine) v)

/-- HIGH adjusted where a period could not carry both edges 16 ns apart (R278). -/
def pwmHigh (period high : Nat) : Nat :=
  if 1 ≤ high ∧ high ≤ 15 then 0 else if period - 15 ≤ high ∧ high < period then period else high

/-- The start of the next PWM period, in ns of service time (R278). -/
def State.pwmStart (s : State) (n c : Nat) : Int :=
  let g := s.enOf n c
  match (s.chan n c).pwmNext with
  | some t => t
  | none =>
    let per : Int := s.fg g DI_PWM_PERIOD_PERIOD
    let first := -((-(s.stAt (s.earliest n))) / (timeG * 65536))
    let base := first / 2 ^ 32 * 2 ^ 32
    let ph : Int := s.fg g DI_PWM_PHASE_PHASE
    min (first + (ph - (first - base)) % per) (base + 2 ^ 32 + ph)

/-- A PWM period starts and places its edges (R278). -/
def State.pwmPeriod (s : State) (n c : Nat) : State :=
  let g := s.enOf n c
  let x := s.chan n c
  let t := s.pwmStart n c
  let duty := x.dutyNew.foldl (fun d e => if e.1 ≤ t then e.2 else d) x.duty
  let per := s.fg g DI_PWM_PERIOD_PERIOD
  let high := if s.fb g DI_CFG_OUTSRC then pwmHigh per (per * duty / 4096) else s.fg g DI_PWM_HIGH_HIGH
  let at0 (ns : Int) : Int := s.localOf (ns * timeG * 65536)
  let up : List Place := if high = 0 then [⟨at0 t, false, true⟩] else [⟨at0 t, true, true⟩]
  let down : List Place := if high = 0 ∨ per ≤ high then [] else [⟨at0 (t + high), false, true⟩]
  s.setChan n c { x with due := x.due ++ up ++ down, pwmNext := some (t + per), duty := duty, dutyNew := x.dutyNew.filter fun e => decide (t < e.1) }

/-- PWM_PERIOD_START (R278). -/
def execPwmPeriodStart (pitch : Pitch) (chan : Channel) (s : State) : Out :=
  .next (
    let g := s.enOf pitch.val chan.val
    if s.enMode g = 4 ∧ s.enRuns g ∧ s.fg g DI_CFG_OUTMODE = 1 then s.pwmPeriod pitch.val chan.val else s)

/-- A scheduled item discarded as too late (R279). -/
def State.schedLate (s : State) (n c : Nat) : State :=
  let g := s.enOf n c
  ((s.fifoPop n c).enCnt g 1).raise g EV_EN_SCHED_LATE

/-- Scheduled items already handed to the card link whose instant passes while the link is not in ACTIVE, or which its first frames cannot
carry: each is discarded and counted (R279). -/
def State.dueLost (s : State) (n c : Nat) : State :=
  let g := s.enOf n c
  let x := s.chan n c
  if s.enMode g ≠ 4 ∨ s.fg g DI_CFG_OUTMODE ≠ 2 ∨ !s.enRuns g then s
  else
    let gone := x.due.filter fun p => decide (p.at0 < s.now + s.delayU n)
    gone.foldl (fun (t : State) _ => (t.enCnt g 1).raise g EV_EN_SCHED_LATE)
      (s.setChan n c { x with due := x.due.filter fun p => decide (¬ p.at0 < s.now + s.delayU n) })

/-- DISC_SCHED_ITEM (R279): the head of the channel's FIFO. -/
def execDiscSchedItem (pitch : Pitch) (chan : Channel) (s : State) : Out :=
  .next (
    let n := pitch.val
    let c := chan.val
    let g := s.enOf n c
    let x := s.chan n c
    match x.fifo with
    | [] => s
    | (u, item) :: _ =>
      if s.enMode g ≠ 4 ∨ s.fg g DI_CFG_OUTMODE ≠ 2 ∨ !s.enRuns g then s
      else if s.fg (clPage n) CL_STATUS_STATE ≠ 5 then (if u ≤ s.now then s.schedLate n c else s)
      else if u < s.earliest n then s.schedLate n c
      else if (match x.lastItem with
               | some l => decide (u < l + 16 * nsU)
               | none => false) then (s.fifoPop n c).enCnt g 2
      else
        let s1 := s.fifoPop n c
        let y := s1.chan n c
        s1.setChan n c { y with due := y.due ++ [⟨u, nbit (leAt item 6 1) 0, nbit (leAt item 6 1) 1⟩], lastItem := some u })

end Sys2Proof.Machine
end

