-- ==== Sys2Proof/Machine/PbusBits.lean ====
section
/-! DEFINITION. The bits of a PBUS frame (R288): the fields of a frame by position, bit stuffing, the three CRCs, the bits of a message
to send, and the receiver's parse of one bit more. What R288 takes from ISO 11898-1 without restating it is PRESUMED and listed in the
assumption log. A bit is true where the bus is recessive. -/
namespace Sys2Proof.Machine

/-- Bit `i` of a list, and the number that `w` bits from bit `i` on spell, most significant first; and the bits of a number. -/
def bitAt (b : List Bool) (i : Nat) : Bool := b.getD i true
def numAt (b : List Bool) (i w : Nat) : Nat := ((b.drop i).take w).foldl (fun v x => 2 * v + bit x) 0
def bitsOf (w v : Nat) : List Bool := (List.range w).map fun i => nbit v (w - 1 - i)

/-! ### CRCs -/

/-- A CRC register of `w` bits with polynomial `poly` after one bit, and over a list of bits. -/
def crcStep (w poly r : Nat) (b : Bool) : Nat := (if nbit r (w - 1) != b then (2 * r) ^^^ poly else 2 * r) % 2 ^ w
def crcOver (w poly init : Nat) (bs : List Bool) : Nat := bs.foldl (crcStep w poly) init

/-- The CRC of a classical frame, of an FD frame of up to 16 data bytes, and of a longer one. -/
def pbCrc15 (bs : List Bool) : Nat := crcOver 15 0x4599 0 bs
def pbCrc17 (bs : List Bool) : Nat := crcOver 17 0x1685B 0x10000 bs
def pbCrc21 (bs : List Bool) : Nat := crcOver 21 0x102899 0x100000 bs

/-- The width of an FD frame's CRC for `n` data bytes, and the CRC. -/
def fdCrcW (n : Nat) : Nat := if n ≤ 16 then 17 else 21
def fdCrc (n : Nat) (bs : List Bool) : Nat := if n ≤ 16 then pbCrc17 bs else pbCrc21 bs

/-- The four bits of an FD frame's stuff count: the count modulo 8 in Gray code, and its parity. -/
def stuffCount (k : Nat) : List Bool :=
  let g := bitsOf 3 (k % 8 ^^^ (k % 8 / 2))
  g ++ [g.foldl xor false]

/-! ### The fields of a frame -/

/-- What the first bits of a frame, without stuff bits, say of it: the format bits, where FDF and DLC stand, the data length, and the
number of bits before the CRC. Bits not yet known read as recessive, which puts every later position past the end of the list. -/
structure PbHead where
  ide : Bool
  fdf : Bool
  rtr : Bool
  at0 : Nat
  dlcAt : Nat
  len : Nat
  body : Nat
deriving DecidableEq, Repr

def pbHead (b : List Bool) : PbHead :=
  let ide := bitAt b 13
  let at0 := if ide then 33 else 14
  let fdf := bitAt b at0
  let rtr := !fdf && bitAt b (if ide then 32 else 12)
  let dlcAt := if fdf then at0 + 4 else if ide then at0 + 2 else at0 + 1
  let len := pbusLen fdf rtr (numAt b dlcAt 4)
  { ide := ide, fdf := fdf, rtr := rtr, at0 := at0, dlcAt := dlcAt, len := len, body := dlcAt + 4 + 8 * len }

/-- The item of R300, with TAG and TIME 0, that the bits of a frame spell. -/
def pbItem (b : List Bool) : List Byte :=
  let h := pbHead b
  let id := if h.ide then numAt b 1 11 * 2 ^ 18 + numAt b 14 18 else numAt b 1 11
  let idw := id + 2 ^ 29 * bit h.ide + 2 ^ 30 * bit h.rtr + 2 ^ 31 * bit h.fdf
  let fmt := numAt b h.dlcAt 4 + 16 * bit (h.fdf && bitAt b (h.at0 + 2)) + 32 * bit (h.fdf && bitAt b (h.at0 + 3))
  leBytes idw 4 ++ [BitVec.ofNat 8 fmt, 0, 0, 0] ++ leBytes 0 4 ++
    pad4 ((List.range h.len).map fun i => BitVec.ofNat 8 (numAt b (h.dlcAt + 4 + 8 * i) 8))

/-! ### Bits to send -/

/-- Stuff bits after every five equal bits; `run` bits equal to `prev` stand before the list. `tail` asks for one after the last bit. -/
def stuffed (tail : Bool) : Bool → Nat → List Bool → List Bool
  | prev, run, [] => if tail && decide (run = 5) then [!prev] else []
  | prev, run, b :: bs =>
    if run = 5 then (!prev) :: b :: stuffed tail b (if b = prev then 1 else 2) bs
    else b :: stuffed tail b (if b = prev then run + 1 else 1) bs

/-- A fixed stuff bit before every four bits (FD). -/
def fixStuffed : Bool → Nat → List Bool → List Bool
  | _, _, [] => []
  | prev, k, b :: bs => if k % 4 = 0 then (!prev) :: b :: fixStuffed b (k + 1) bs else b :: fixStuffed b (k + 1) bs

/-- The bits of a message from its start of frame to its last data bit. -/
def pbBody (idw dlc : Nat) (brs esi : Bool) (data : List Byte) : List Bool :=
  let ide := nbit idw 29
  let rtr := nbit idw 30
  let fdf := nbit idw 31
  let id := idw % 2 ^ 29
  let n := pbusLen fdf rtr dlc
  [false] ++ (if ide then bitsOf 11 (id / 2 ^ 18) ++ [true, true] ++ bitsOf 18 id else bitsOf 11 id) ++
    (if ide then [rtr && !fdf] ++ (if fdf then [true, false, brs, esi] else [false, false])
     else [rtr && !fdf, false] ++ (if fdf then [true, false, brs, esi] else [false])) ++
    bitsOf 4 dlc ++ ((List.range n).map fun i => bitsOf 8 (data.getD i 0).toNat).flatten

/-- The bits of a message as they are sent, from its start of frame to the end of its CRC. -/
def pbRaw (idw dlc : Nat) (brs esi : Bool) (data : List Byte) : List Bool :=
  let body := pbBody idw dlc brs esi data
  if nbit idw 31 then
    let n := pbusLen true false dlc
    let dyn := stuffed false true 0 body
    let sc := stuffCount (dyn.length - body.length)
    dyn ++ fixStuffed (dyn.getLast?.getD true) 0 (sc ++ bitsOf (fdCrcW n) (fdCrc n (dyn ++ sc)))
  else stuffed true true 0 (body ++ bitsOf 15 (pbCrc15 body))

/-- The bits of a frame of its form and length at most, with worst-case stuffing: those at the nominal bit time, with 3 bits of
intermission, and those at the data bit time (R306). -/
def pbLongest (idw dlc : Nat) (brs : Bool) : Nat × Nat :=
  let fdf := nbit idw 31
  let h := pbHead (pbBody idw dlc brs false [])
  let n := pbusLen fdf (nbit idw 30) dlc
  let body := h.dlcAt + 4 + 8 * n
  if fdf then
    let head := h.at0 + 3
    let s := (body - 1) / 4
    let s0 := (head - 1) / 4
    let data := body - head + (s - s0) + (if n ≤ 16 then 27 else 32)
    if brs then (head + s0 + 13, data) else (head + s0 + 13 + data, 0)
  else (body + 15 + (body + 14) / 4 + 13, 0)

/-! ### Bits received -/

/-- What one bit more makes of a frame: it goes on, its CRC is complete (right or not), or it shows a stuff or a form error. -/
inductive PbTake where
  | more (r : PbRx)
  | done (r : PbRx) (good : Bool)
  | stuffErr
  | formErr
deriving DecidableEq, Repr

/-- The bit is a dynamic stuff bit. -/
def PbRx.atStuff (r : PbRx) : Bool :=
  let h := pbHead r.bits
  decide (r.run = 5) && !(h.fdf && decide (h.body ≤ r.bits.length))

/-- The CRC, and an FD frame's stuff count, are those of the bits before them. -/
def PbRx.crcOk (r : PbRx) : Bool :=
  let h := pbHead r.bits
  if h.fdf then
    let sc := (r.bits.drop h.body).take 4
    decide (sc = stuffCount r.stuff) && decide (numAt r.bits (h.body + 4) (fdCrcW h.len) = fdCrc h.len (r.raw ++ sc))
  else decide (numAt r.bits h.body 15 = pbCrc15 (r.bits.take h.body))

/-- A bit of an FD frame's CRC field: the first and every fifth is a fixed stuff bit. -/
def PbRx.takeFix (r : PbRx) (v : Bool) : PbTake :=
  let h := pbHead r.bits
  if r.fix % 5 = 0 then (if v = r.prev then .formErr else .more { r with fix := r.fix + 1, prev := v })
  else
    let t := { r with bits := r.bits ++ [v], fix := r.fix + 1, prev := v }
    if t.bits.length = h.body + 4 + fdCrcW h.len then .done t t.crcOk else .more t

/-- The parse after a bit that was no stuff bit, or after the stuff bit behind it. A classical frame ends with its CRC and, where five
equal bits end that, a stuff bit. -/
def PbRx.ended (t : PbRx) : PbTake :=
  let h := pbHead t.bits
  if !h.fdf && decide (t.bits.length = h.body + 15) && decide (t.run ≠ 5) then .done t t.crcOk else .more t

/-- One bit more. A recessive FDF with FD_EN 0, and a recessive res bit, are form errors (R288). -/
def PbRx.take (fdEn : Bool) (r : PbRx) (v : Bool) : PbTake :=
  let h := pbHead r.bits
  let i := r.bits.length
  if h.fdf && decide (h.body ≤ i) then r.takeFix v
  else if r.run = 5 then
    if v = r.prev then .stuffErr else PbRx.ended { r with raw := r.raw ++ [v], prev := v, run := 1, stuff := r.stuff + 1 }
  else if v && ((decide (i = h.at0) && !fdEn) || (decide (i = h.at0 + 1) && h.fdf)) then .formErr
  else PbRx.ended { r with bits := r.bits ++ [v], raw := r.raw ++ [v], prev := v, run := if v = r.prev then r.run + 1 else 1 }

end Sys2Proof.Machine
end

