-- ==== Sys2Proof/Machine/Pbus.lean ====
section
/-! DEFINITION. PBUS mode (R288-R303): bit timing and synchronisation, the bit machine of a node, its operating states and counters,
messages sent from the FIFO, the slots and the schedule, and messages received. What R288 takes from ISO 11898-1 without restating it is
PRESUMED and listed in the assumption log. -/
namespace Sys2Proof.Machine

/-! ### Items and state -/

/-- The fields of a message item (R300). -/
def itemIdw (bs : List Byte) : Nat := leAt bs 0 4
def itemTag (bs : List Byte) : Nat := leAt bs 5 1

/-- A message is invalid for the channel (R301). -/
def State.pbInvalid (s : State) (g : Nat) (item : List Byte) : Bool :=
  let fdf := nbit (itemIdw item) 31
  let rtr := nbit (itemIdw item) 30
  (fdf && !s.fb g PB_CFG_FD_EN) || (rtr && fdf)

/-- PB_ERR.STATE (R296). -/
def State.pbState (s : State) (g : Nat) : Nat := s.fg g PB_ERR_STATE

/-- The engine takes part in frames: error-active or error-passive. -/
def State.pbOn (s : State) (g : Nat) : Bool := decide (s.pbState g = 2) || decide (s.pbState g = 3)

/-- The bit machine of a channel. -/
def State.pb (s : State) (n c : Nat) : Pb := (s.chan n c).pb
def State.setPb (s : State) (n c : Nat) (p : Pb) : State := s.setChan n c { s.chan n c with pb := p }

/-- The bit machine waiting for 11 recessive bits, its bit timing kept. -/
def Pb.rest (p : Pb) : Pb := { b0 := p.b0, x := p.x, last := p.last, out := p.out }

/-! ### Bit timing (R290) -/

/-- A time quantum, the time up to the sample point and after it, and the jump width, in 1/160 ns. -/
def State.pbTq (s : State) (g : Nat) (fast : Bool) : Int := nsU * ((if fast then s.fg g PB_DBT_DTQ else s.fg g PB_NBT_NTQ : Nat) : Int)
def State.pbSeg1 (s : State) (g : Nat) (fast : Bool) : Int :=
  s.pbTq g fast * ((1 + if fast then s.fg g PB_DBT_DSEG1 else s.fg g PB_NBT_NSEG1 : Nat) : Int)
def State.pbSeg2 (s : State) (g : Nat) (fast : Bool) : Int :=
  s.pbTq g fast * ((if fast then s.fg g PB_DBT_DSEG2 else s.fg g PB_NBT_NSEG2 : Nat) : Int)
def State.pbSjw (s : State) (g : Nat) (fast : Bool) : Int := ((if fast then s.fg g PB_DBT_DSJW else s.fg g PB_NBT_NSJW : Nat) : Int)

/-- The bit time. -/
def State.pbT (s : State) (g : Nat) (fast : Bool) : Int := s.pbSeg1 g fast + s.pbSeg2 g fast

/-- TURN (R292). -/
def State.pbTurnU (s : State) (n : Nat) : Int := 2 * s.delayU n + 128 * nsU

/-- The bit timing that goes on from a bit that starts at `u`. -/
def State.pbGrid (s : State) (g : Nat) (p : Pb) (u : Int) (fast : Bool) : Pb := { p with b0 := u, x := some (u + s.pbSeg1 g fast), fast := fast }

/-- The transmitter judges its data bits at secondary sample points (R291). -/
def State.pbTdc (s : State) (g : Nat) (p : Pb) : Bool := p.tx && p.fast && s.fb g PB_CFG_TDC_EN

/-! ### Outputs (R289) -/

/-- An output level placed at `u`, where it changes. -/
def State.pbDrive (s : State) (n c : Nat) (u : Int) (out : Bool) : State :=
  let p := s.pb n c
  if p.out = out then s else (s.place n c u (out != s.fb (s.enOf n c) PB_CFG_INV) true).setPb n c { p with out := out }

/-- What was to be placed from `u` on is replaced by one level. -/
def State.pbForce (s : State) (n c : Nat) (u : Int) (out : Bool) : State :=
  let s1 := s.setChan n c ((s.chan n c).cutDue u)
  (s1.place n c u (out != s.fb (s.enOf n c) PB_CFG_INV) true).setPb n c { s1.pb n c with out := out }

/-! ### Counters and states (R296) -/

/-- The engine becomes error-active or error-passive by its counters (R296). -/
def State.pbActive (s : State) (g : Nat) : State :=
  if 128 ≤ s.fg g PB_ERR_TEC ∨ 128 ≤ s.fg g PB_ERR_REC then (s.fs g PB_ERR_STATE 3).raiseIf (decide (s.pbState g ≠ 3)) g EV_EN_ERR_PASSIVE
  else s.fs g PB_ERR_STATE 2

/-- New values of the error counters (R296); in restricted operation they stay (R297). -/
def State.pbCounters (s : State) (n c tec rc : Nat) : State :=
  let g := s.enOf n c
  if s.fb g PB_CFG_RESTRICTED then s
  else
    let s1 := (s.fs g PB_ERR_TEC (min tec 255)).fs g PB_ERR_REC (min rc 255)
    if !s.pbOn g then s1
    else if 255 < tec then
      let s2 := (s1.fs g PB_ERR_STATE (if s.fb g PB_CFG_AUTO_RECOVER then 5 else 4)).raise g EV_EN_BUS_OFF
      s2.setChan n c { s2.chan n c with rec11 := 0, tx := none }
    else s1.pbActive g

/-- An increase of one of the counters: of TEC for a transmitter, else of REC. -/
def State.pbMore (s : State) (n c : Nat) (tx : Bool) (d : Nat) : State :=
  let g := s.enOf n c
  let tec := s.fg g PB_ERR_TEC
  let rc := s.fg g PB_ERR_REC
  if tx then s.pbCounters n c (tec + d) rc else s.pbCounters n c tec (rc + d)

/-- A frame sent, or received, without error: its counter falls by 1; a REC above 127 becomes a value from 119 to 127. -/
def State.pbLess (s : State) (n c : Nat) (tx : Bool) : State :=
  let g := s.enOf n c
  let tec := s.fg g PB_ERR_TEC
  let rc := s.fg g PB_ERR_REC
  if tx then s.pbCounters n c (tec - 1) rc
  else if rc ≤ 127 then s.pbCounters n c tec (rc - 1)
  else s.tookFree.pbCounters n c tec (119 + s.freeNat 8 % 9)

/-- 11 consecutive recessive bits have been judged (R296). -/
def State.pbRecessive (s : State) (n c : Nat) : State :=
  let g := s.enOf n c
  let x := s.chan n c
  if s.pbState g = 1 then s.pbActive g
  else if s.pbState g = 5 then
    if 127 ≤ x.rec11 then
      (((s.fs g PB_ERR_TEC 0).fs g PB_ERR_REC 0).fs g PB_ERR_STATE 2).setChan n c { x with rec11 := 0 }
    else s.setChan n c { x with rec11 := x.rec11 + 1 }
  else s

/-- The turnaround test of R293: NSEG2 × NTQ ≥ 2d + 128 ns. -/
def State.pbTurnOk (s : State) (n g : Nat) : Bool := decide (s.pbTurnU n ≤ s.pbSeg2 g false)

/-- The engine makes the test (R293), when the link enters ACTIVE and at every commit while it is there. -/
def State.pbTurn (s : State) (n c : Nat) : State :=
  let g := s.enOf n c
  if s.enMode g ≠ 2 ∨ s.pbState g = 0 then s
  else if s.pbTurnOk n g then (if s.pbState g = 6 then (s.fs g PB_ERR_STATE 1).setPb n c (s.pb n c).rest else s)
  else
    let s1 := (s.fs g PB_ERR_STATE 6).raise g EV_EN_TURN_FAIL
    s1.setChan n c { s1.chan n c with tx := none, pb := (s1.pb n c).rest }

/-! ### Messages to send (R301, R302, R306, R307) -/

/-- The head message of the FIFO ends with a RESULT (R301, R302): it leaves the FIFO, RESULT 2 and 4 count in EN_CNT2, and a PB_TXDONE
item reports it. `sof` is its start of frame where it was sent. -/
def State.pbEnd (s : State) (n c result : Nat) (sof : Option Int) : State :=
  let g := s.enOf n c
  let x := s.chan n c
  match x.fifo with
  | [] => s
  | (_, item) :: _ =>
    let tries := x.attempts + (if result = 0 then 1 else 0)
    let s1 := s.fifoPop n c
    let s2 := s1.setChan n c { s1.chan n c with tx := (s1.chan n c).tx.filter fun t => t.1.isSome, attempts := 0 }
    let s3 := if result = 2 ∨ result = 4 then s2.enCnt g 2 else s2
    if s3.fb g PB_CFG_TXDONE_EN && decide (itemTag item < 0xFF) then
      s3.recBatch n c 0x12 (sof.getD s3.now) ([BitVec.ofNat 8 (itemTag item), BitVec.ofNat 8 result] ++ leBytes tries 2 ++
        leBytes 0 4)
    else s3

/-- Messages at the head of the FIFO that are invalid for the channel end with RESULT 4. -/
def State.pbInvalidHeads (s : State) (n c : Nat) : Nat → State
  | 0 => s
  | k + 1 =>
    match (s.chan n c).fifo with
    | [] => s
    | (_, item) :: _ => if s.pbInvalid (s.enOf n c) item then (s.pbEnd n c 4 none).pbInvalidHeads n c k else s

/-- The matrix that serves a channel (R304). -/
def State.matrixOf (s : State) (n c : Nat) : Option Nat :=
  ((List.range 64).map (0x240 + ·)).find? fun m =>
    s.fb m SM_OWNER_VALID && decide (s.fg m SM_OWNER_PITCH = n) && decide (s.fg m SM_OWNER_CHAN = c)

/-- The engine follows its matrix: TT_EN 1, and the matrix page READY (R304, R312). -/
def State.ttOn (s : State) (n c : Nat) : Option Nat :=
  let g := s.enOf n c
  if decide (s.enMode g = 2) && s.enRuns g && s.fb g PB_CFG_TT_EN then (s.matrixOf n c).filter (fun m => s.ready m) else none

/-- ns of service time as a local instant. -/
def State.ofNs (s : State) (t : Int) : Int := s.localOf (t * timeG * 65536)

/-- A message as the engine sends it: IDW, DLC, BRS and its data. BRS is 0 while BRS_EN is 0 (R301). -/
structure PbMsg where
  idw : Nat := 0
  dlc : Nat := 0
  brs : Bool := false
  esi : Bool := false
  data : List Byte := []
deriving DecidableEq, Repr

/-- The message of an item, and of slot `k`. -/
def State.itemMsg (s : State) (g : Nat) (item : List Byte) : PbMsg :=
  { idw := itemIdw item, dlc := leAt item 4 1 % 16, brs := nbit (leAt item 4 1) 4 && s.fb g PB_CFG_BRS_EN, esi := nbit (leAt item 4 1) 5
    data := item.drop 12 }
def State.slotMsg (s : State) (g k : Nat) : PbMsg :=
  { idw := (s.rd g (PB_SLOT_W0 + 0x48 * k)).toNat, dlc := s.fg g (PB_SLOT_W1_DLC.at (0x48 * k))
    brs := s.fb g (PB_SLOT_W1_BRS.at (0x48 * k)) && s.fb g PB_CFG_BRS_EN
    data := ((List.range 16).map fun i => leBytes (s.rd g (PB_SLOT_DATA + 0x48 * k + 4 * i)).toNat 4).flatten }

/-- The reference message of matrix `m` with its start of frame at `u` (R307): row, DELAY, and the nominal start in service time. -/
def State.refMsg (s : State) (n c m : Nat) (u : Int) : PbMsg :=
  let z := (s.chan n c).cycle.getD u
  { idw := s.fg m SM_REF_REF_ID, dlc := 8
    data := [BitVec.ofNat 8 (s.fg (s.enOf n c) PB_TT_STAT_ROW)] ++ leBytes ((u - z) / nsU).toNat 2 ++ leBytes (s.stNs z) 4 ++ [0] }

/-- The message that a source names: the head of the FIFO, a slot, or the reference. -/
def State.pbMsg (s : State) (n c : Nat) (src : Option Nat) (u : Int) : PbMsg :=
  let g := s.enOf n c
  match src with
  | none => s.itemMsg g (((s.chan n c).fifo.head?.map (·.2)).getD [])
  | some k => if k = 8 then (match s.matrixOf n c with
      | some m => s.refMsg n c m u
      | none => {})
    else s.slotMsg g k

/-- The end, with intermission, of the longest frame of a message that starts at `u` (R306). -/
def State.pbFrameEnd (s : State) (g : Nat) (m : PbMsg) (u : Int) : Int :=
  let (a, b) := pbLongest m.idw m.dlc m.brs
  u + s.pbT g false * (a : Int) + s.pbT g true * (b : Int)

/-- The engine may begin a frame (R296, R297, R412). -/
def State.pbMay (s : State) (n c : Nat) : Bool :=
  let g := s.enOf n c
  s.pbOn g && !s.fb g PB_CFG_RESTRICTED && (s.chan n c).tx.isNone && !s.pitchHeld n

/-- The source of a frame that may have its start of frame at `u`, if there is one: the reference that is due, no later than REF_WAIT
after the basic cycle's start; else the head of the FIFO, with TT_EN 1 where it ends within an ARBITRATE column (R302, R306, R307). -/
def State.pbPick (s : State) (n c : Nat) (u : Int) : State × Option (Option Nat) :=
  let g := s.enOf n c
  let x := s.chan n c
  if !s.pbMay n c then (s, none)
  else match (if x.refDue then s.ttOn n c else none), x.cycle with
    | some m, some z =>
      let s1 := s.setChan n c { x with refDue := false }
      if u ≤ z + nsU * (s.fg m SM_REF_REF_WAIT : Int) then (s1, some (some 8)) else (s1, none)
    | _, _ =>
      let s1 := s.pbInvalidHeads n c x.fifo.length
      if (s1.chan n c).fifo.isEmpty then (s1, none)
      else if !s.fb g PB_CFG_TT_EN then (s1, some none)
      else match (if (s.ttOn n c).isSome then x.arb else none) with
        | some (beg, fin) => (s1, if beg ≤ u ∧ s.pbFrameEnd g (s1.pbMsg n c none u) u < fin then some none else none)
        | none => (s1, none)

/-! ### Sending -/

/-- The frame in progress becomes the engine's own, from source `src` with its start of frame at `u`; `bits` are those still to send. -/
def State.pbOwn (s : State) (n c : Nat) (src : Option Nat) (u : Int) : State :=
  let g := s.enOf n c
  let m := s.pbMsg n c src u
  let x := s.chan n c
  s.setChan n c { x with tx := some (src, u), pb := { x.pb with
    tx := true, ide := nbit m.idw 29, send := (pbRaw m.idw m.dlc m.brs (m.esi || decide (s.pbState g = 3)) m.data).drop 1 } }

/-- A frame begins: its bits are still to come. -/
def Pb.begin (p : Pb) (sof : Int) : Pb :=
  { p with ph := .frame, k := 0, sof := sof, rx := {}, bad := false, ackd := false, tx := false, send := [], ssp := [], res := none,
           start := none, fast := false }

/-- The engine's own frame begins with the bit that starts at `u`. -/
def State.pbStart (s : State) (n c : Nat) (src : Option Nat) (u : Int) : State :=
  ((s.setPb n c ((s.pb n c).begin u)).pbOwn n c src u).pbDrive n c u false

/-- Where a frame may start with the bit that starts at `u`, it does. -/
def State.pbTry (s : State) (n c : Nat) (u : Int) : State := match s.pbPick n c u with
  | (t, some src) => t.pbStart n c src u
  | (t, none) => t

/-- The engine's own frame will begin at `u`, which is no bit boundary of the bits in progress. -/
def State.pbStartAt (s : State) (n c : Nat) (src : Option Nat) (u : Int) : State :=
  let s1 := s.pbOwn n c src u
  (s1.setPb n c { s1.pb n c with start := some u }).pbDrive n c u false

/-- The next bit of the engine's own frame, which starts at `u`; the bits of a data phase have been placed ahead. -/
def State.pbSendNext (s : State) (n c : Nat) (u : Int) (fast : Bool) : State :=
  let p := s.pb n c
  let b := p.send.headD true
  let s1 := s.setPb n c { p with send := p.send.tail }
  if fast then s1.setPb n c { s1.pb n c with out := b } else s1.pbDrive n c u b

/-- The changes of level among bits of length `t` from `u` on, the level before them being `prev`. -/
def bitEdges (t : Int) : Int → Bool → List Bool → List (Int × Bool)
  | _, _, [] => []
  | u, prev, b :: bs => (if b = prev then [] else [(u, b)]) ++ bitEdges t (u + t) b bs

/-- The data phase of the engine's own frame will begin with the bit that starts at `u`: its bits, and the CRC delimiter, are placed ahead
when the bit before BRS has been judged, and with TDC_EN 1 their secondary sample points set (R291, R292). -/
def State.pbAhead (s : State) (n c : Nat) (u : Int) : State :=
  let g := s.enOf n c
  let t := s.pbT g true
  let p := s.pb n c
  let inv := s.fb g PB_CFG_INV
  let es := bitEdges t u p.out (p.send ++ [true])
  let x := s.chan n c
  let off := nsU * ((s.fg g PB_CFG_TDCV + s.fg g PB_CFG_TDCO : Nat) : Int)
  let ssp := if s.fb g PB_CFG_TDC_EN then p.send.mapIdx fun i b => (u + t * (i : Int) + off, b) else []
  s.setChan n c { x with due := x.due ++ es.map fun e => ⟨e.1, e.2 != inv, true⟩, pb := { p with ssp := ssp } }

/-! ### Errors (R294, R296, R302) -/

/-- An error in the engine's own transmission (R302): an attempt of a FIFO message, after RETX of which it ends with RESULT 2. A slot's
message is sent once (R306). -/
def State.pbTxError (s : State) (n c : Nat) : State :=
  let g := s.enOf n c
  let x := s.chan n c
  match x.tx with
  | none => s
  | some (some _, _) => s.setChan n c { x with tx := none }
  | some (none, _) =>
    let s1 := s.setChan n c { x with tx := none, attempts := x.attempts + 1 }
    let r := s.fg g PB_CFG_RETX
    if r ≠ 0 ∧ r ≤ x.attempts + 1 then s1.pbEnd n c 2 none else s1

/-- A flag of six bits begins with the bit that starts at `u`, in nominal bit timing. -/
def State.pbFlag (s : State) (n c : Nat) (f : PbFlag) (u : Int) : State :=
  let p := s.pbGrid (s.enOf n c) (s.pb n c) u false
  (s.setPb n c { p with ph := .flag, k := 0, flag := f, send := [], ssp := [], res := none }).pbForce n c u (decide (f = .passive))

/-- The engine is out of the frame, and of the bus: it waits for 11 recessive bits, recessive from `u` on. -/
def State.pbOut (s : State) (n c : Nat) (u : Int) : State :=
  (s.setPb n c (s.pbGrid (s.enOf n c) (s.pb n c).rest u false)).pbForce n c u true

/-- An error detected (R288, R294): LEC and EN_CNT0, the counters, the attempt, and an error flag from `u` on. `exempt` where the standard
leaves TEC unchanged. In restricted operation there is no flag, and the engine waits for 11 recessive bits (R297). -/
def State.pbError (s : State) (n c lec : Nat) (exempt : Bool) (u : Int) : State :=
  let g := s.enOf n c
  let p := s.pb n c
  let s1 := (s.fs g PB_ERR_LEC lec).enCnt g 0
  if s.fb g PB_CFG_RESTRICTED then (s1.fs g PB_ERR_STATE 1).pbOut n c u
  else
    let passive := decide (s.pbState g = 3)
    let late := passive && p.tx && decide (lec = 3)
    let s2 := if p.tx then s1.pbTxError n c else s1
    let s3 := if p.tx && (exempt || late) then s2 else s2.pbMore n c p.tx (if p.tx then 8 else 1)
    if !s3.pbOn g then s3.pbOut n c u
    else (s3.setPb n c { s3.pb n c with ackErr := late }).pbFlag n c (if passive then .passive else .active) u

/-- The start of the error flag of an error at instant `x` in a bit that ends at `u` (R294). -/
def State.pbFlagAt (s : State) (n : Nat) (fast : Bool) (x u : Int) : Int := if fast then max u (x + s.pbTurnU n) else u

/-! ### The bits of a frame -/

/-- The engine's own frame was sent (R301, R302). -/
def State.pbSent (s0 : State) (n c : Nat) : State :=
  let s := s0.pbLess n c true
  let g := s.enOf n c
  match (s.chan n c).tx with
  | none => s
  | some (some _, _) => (s.setChan n c { s.chan n c with tx := none }).inc g PB_CNT_TX_COUNT
  | some (none, u) => (s.inc g PB_CNT_TX_COUNT).pbEnd n c 0 (some u)

/-- A frame of another node is valid (R303). -/
def State.pbGot (s0 : State) (n c : Nat) : State :=
  let s := s0.pbLess n c false
  let x := s.chan n c
  s.setChan n c { x with got := x.got ++ [(x.pb.sof, pbItem x.pb.rx.bits)] }

/-- A bit of the frame taken into its parse, judged at `x`; the next one starts at `u`. -/
def State.pbTake (s : State) (n c : Nat) (x u : Int) (v : Bool) : State :=
  let g := s.enOf n c
  let p := s.pb n c
  let h := pbHead p.rx.bits
  let i := p.rx.bits.length
  let stuff := p.rx.atStuff
  match p.rx.take (s.fb g PB_CFG_FD_EN) v with
  | .stuffErr => s.pbError n c 1 false (s.pbFlagAt n p.fast x u)
  | .formErr => s.pbError n c 2 false (s.pbFlagAt n p.fast x u)
  | .done r good => (s.setPb n c { p with ph := .crcDel, rx := r, bad := !good }).pbSendNext n c u p.fast
  | .more r =>
    let turn := !stuff && h.fdf && decide (i = h.at0 + 2) && v && s.fb g PB_CFG_BRS_EN
    let u1 := if turn then x + s.pbSeg2 g true else u
    let res := if p.tx && !stuff && v && decide (i = h.at0) && s.fb g PB_CFG_TDC_EN && p.send.getD 1 false then some u1 else p.res
    let q := { p with rx := r, res := res }
    let s1 := s.setPb n c (if turn then s.pbGrid g q u1 true else q)
    let ahead := p.tx && !stuff && h.fdf && decide (i = h.at0 + 1) && p.send.headD false && s.fb g PB_CFG_BRS_EN
    let s2 := if p.tx then s1.pbSendNext n c u1 (turn || p.fast) else s1
    if ahead then s2.pbAhead n c (u + s.pbSeg1 g false + s.pbSeg2 g true) else s2

/-- A bit of the frame judged at `x` (R288). A transmitter that sees another level than its own has lost arbitration, or detected an
error. -/
def State.pbFrameBit (s : State) (n c : Nat) (x u : Int) (v : Bool) : State :=
  let p := s.pb n c
  let i := p.rx.bits.length
  let arb := decide (1 ≤ i) && (decide (i ≤ 12) || (p.ide && decide (i ≤ 32)))
  let fl := s.pbFlagAt n p.fast x u
  if !p.tx || decide (v = p.out) then s.pbTake n c x u v
  else if arb && p.out then
    if p.rx.atStuff then s.pbError n c 1 true fl
    else
      let y := s.chan n c
      ((s.setChan n c { y with tx := none, pb := { p with tx := false, send := [], res := none } }).inc (s.enOf n c)
        PB_CNT_ARB_COUNT).pbTake n c x u v
  else s.pbError n c (if p.out then 4 else 5) false fl

/-- The end of a frame after its CRC (R288). An FD frame's CRC delimiter and acknowledge may be two bits long at a node that they reach
late. -/
def State.pbTail (s : State) (n c : Nat) (x u : Int) (v : Bool) : State :=
  let g := s.enOf n c
  let p := s.pb n c
  let fdf := (pbHead p.rx.bits).fdf
  match p.ph with
  | .crcDel =>
    if !v then s.pbError n c 2 false (s.pbFlagAt n p.fast x u)
    else
      let u1 := x + s.pbSeg2 g false
      (s.setPb n c { s.pbGrid g p u1 false with ph := .ack, ssp := [] }).pbDrive n c u1 (p.tx || p.bad)
  | .ack =>
    if !p.tx && !p.out && v then s.pbError n c 5 false u
    else if p.tx && !fdf && v then s.pbError n c 3 false u
    else (s.setPb n c { p with ph := .ackDel, k := 0, ackd := !v }).pbDrive n c u true
  | .ackDel =>
    if v then
      if p.tx && !p.ackd then s.pbError n c 3 false u
      else if !p.tx && p.bad then s.pbError n c 6 false u
      else s.setPb n c { p with ph := .eof, k := 0 }
    else if fdf ∧ p.k = 0 then s.setPb n c { p with k := 1, ackd := true }
    else s.pbError n c 2 false u
  | .eof =>
    if v ∨ (!p.tx ∧ p.k = 6) then
      let s1 := s.setPb n c (if p.k = 6 then { p with ph := .inter, k := 0 } else { p with k := p.k + 1 })
      if !p.tx ∧ p.k = 5 then s1.pbGot n c else if p.tx ∧ p.k = 6 then s1.pbSent n c else s1
    else s.pbError n c 2 false u
  | _ => s

/-! ### Flags, delimiters and intermission -/

/-- A bit of a flag, or of what follows it up to the end of the delimiter. -/
def State.pbFlagBit (s : State) (n c : Nat) (u : Int) (v was : Bool) : State :=
  let g := s.enOf n c
  let p := s.pb n c
  let next (t : State) (ph : PbPhase) (k : Nat) : State :=
    if t.pbOn g then t.setPb n c { t.pb n c with ph := ph, k := k } else t.pbOut n c u
  match p.ph with
  | .flag =>
    if p.flag = .passive then
      let k := if p.k = 0 ∨ v = was then p.k + 1 else 1
      let s1 := if p.ackErr && !v then (s.pbMore n c true 8).setPb n c { p with ackErr := false } else s
      next s1 (if k = 6 then .after else .flag) (if k = 6 then 0 else k)
    else
      let s1 := if v then ((s.fs g PB_ERR_LEC 5).enCnt g 0).pbMore n c p.tx 8 else s
      if p.k = 5 then (next s1 .after 0).pbDrive n c u true else next s1 .flag (p.k + 1)
  | .after =>
    if v then s.setPb n c { p with ph := .delim, k := 1 }
    else
      let s1 := if p.k = 0 ∧ !p.tx ∧ p.flag ≠ .overload then s.pbMore n c false 8 else s
      let s2 := if (p.k + 1) % 8 = 0 then s1.pbMore n c p.tx 8 else s1
      next s2 .after (p.k + 1)
  | .delim =>
    if p.k = 7 then s.setPb n c { p with ph := .inter, k := 0 }
    else if v then s.setPb n c { p with k := p.k + 1 }
    else s.pbError n c 2 false u
  | _ => s

/-- FLUSH takes effect at a PBUS boundary: every message ends with RESULT 3 (R302). -/
def State.pbFlushAll (s : State) (n c : Nat) : Nat → State
  | 0 => s.setChan n c { s.chan n c with flush := false }
  | k + 1 => (s.pbEnd n c 3 none).pbFlushAll n c k

def State.pbBoundary (s : State) (n c : Nat) : State :=
  if (s.chan n c).flush then s.pbFlushAll n c (s.chan n c).fifo.length else s

/-- A stop, a commit or a migration of the channel's engine waits for the boundary: the decision to start is taken after it (R299). -/
def State.pbWaits (s : State) (n c : Nat) : Bool :=
  let g := s.enOf n c
  s.commitPending g || s.stopping.contains g || (s.chan n c).mig.isSome

/-- A start of frame of another node, judged dominant: the engine receives, or with a message of its own to send joins in. -/
def State.pbSof (s : State) (n c : Nat) (x u : Int) (v may : Bool) : State :=
  let p := s.pb n c
  let own := p.start.isSome
  let src := ((s.chan n c).tx.map (·.1)).getD none
  let s1 := s.setPb n c (p.begin p.sof)
  if own then ((s1.pbOwn n c src p.sof).pbForce n c u true).pbTake n c x u v
  else if !may then s1.pbTake n c x u v
  else match s1.pbPick n c p.sof with
    | (t, some src) => (t.pbOwn n c src p.sof).pbTake n c x u v
    | (t, none) => t.pbTake n c x u v

/-- The bits between frames (R288, R296, R299). -/
def State.pbBetween (s : State) (n c : Nat) (x u : Int) (v : Bool) : State :=
  let g := s.enOf n c
  let p := s.pb n c
  match p.ph with
  | .integrate =>
    if !v then s.setPb n c { p with k := 0 }
    else if p.k < 10 then s.setPb n c { p with k := p.k + 1 }
    else
      let s1 := s.pbRecessive n c
      s1.setPb n c { s1.pb n c with k := 0, ph := if s1.pbOn g then .idle else .integrate }
  | .idle => if !v then s.pbSof n c x u v true else if p.start.isSome then s else s.pbTry n c u
  | .suspend =>
    if !v then s.pbSof n c x u v false
    else if p.k < 7 then s.setPb n c { p with k := p.k + 1 }
    else (s.setPb n c { p with ph := .idle, k := 0, tx := false }).pbTry n c u
  | .inter =>
    if p.k < 2 then
      if v then s.setPb n c { p with k := p.k + 1 }
      else if s.fb g PB_CFG_RESTRICTED then (s.fs g PB_ERR_STATE 1).pbOut n c u
      else s.pbFlag n c .overload u
    else if !v then s.pbSof n c x u v (!(p.tx && decide (s.pbState g = 3)))
    else
      let s1 := (s.setPb n c { p with bnd := s.pbWaits n c }).pbBoundary n c
      if p.tx ∧ s.pbState g = 3 then s1.setPb n c { s1.pb n c with ph := .suspend, k := 0 }
      else
        let s2 := s1.setPb n c { s1.pb n c with ph := .idle, k := 0, tx := false }
        if s.pbWaits n c then s2 else s2.pbTry n c u
  | _ => s

/-! ### Instants of a report (R255, R292, R295) -/

/-- A sample point at `x` with the bus at level `m`: the next bit follows, and the bit machine judges. A transmitter with secondary sample
points goes by its own bits. -/
def State.pbJudge (s : State) (n c : Nat) (x : Int) (m : Bool) : State :=
  let g := s.enOf n c
  let p := s.pb n c
  let v := if s.pbTdc g p then p.out else m
  let u := x + s.pbSeg2 g p.fast
  let s1 := s.setPb n c { s.pbGrid g p u p.fast with sync := false, last := m }
  match p.ph with
  | .frame => s1.pbFrameBit n c x u v
  | .crcDel => s1.pbTail n c x u v
  | .ack => s1.pbTail n c x u v
  | .ackDel => s1.pbTail n c x u v
  | .eof => s1.pbTail n c x u v
  | .flag => s1.pbFlagBit n c u v p.last
  | .after => s1.pbFlagBit n c u v p.last
  | .delim => s1.pbFlagBit n c u v p.last
  | .integrate => s1.pbBetween n c x u v
  | .idle => s1.pbBetween n c x u v
  | .inter => s1.pbBetween n c x u v
  | .suspend => s1.pbBetween n c x u v

/-- A secondary sample point at `y` (R291): another level than the bit's is an error. The data bit in progress ends where the next one
starts. -/
def State.pbSecond (s : State) (n c : Nat) (y : Int) (m : Bool) : State :=
  let g := s.enOf n c
  let p := s.pb n c
  match p.ssp with
  | [] => s
  | (_, b) :: rest =>
    let s1 := s.setPb n c { p with ssp := rest }
    if m = b then s1
    else
      let fin := if y < p.b0 then p.b0 else p.b0 + s.pbT g true
      s1.pbError n c (if b then 4 else 5) false (s.pbFlagAt n true y fin)

/-- A recessive-to-dominant edge at `e` (R291, R295): the res edge of the engine's own frame come back, a hard synchronisation, or a
resynchronisation by whole time quanta within the jump width. -/
def State.pbEdge (s0 : State) (n c : Nat) (e : Int) : State :=
  let g := s0.enOf n c
  let q := s0.pb n c
  let s := match q.res with
    | some u => if u ≤ e then (s0.fs g PB_CFG_TDCV (min ((e - u) / nsU).toNat 255)).setPb n c { q with res := none } else s0
    | none => s0
  let p := s.pb n c
  let h := pbHead p.rx.bits
  let open_ := match p.ph with
    | .integrate => true | .idle => true | .suspend => true | .inter => decide (p.k = 2) | _ => false
  let atRes := decide (p.ph = .frame) && !p.tx && h.fdf && decide (p.rx.bits.length = h.at0 + 1)
  let tq := s.pbTq g p.fast
  if p.sync || !p.last then s
  else if open_ then s.setPb n c { s.pbGrid g p e false with sync := true, sof := e }
  else if atRes then s.setPb n c { s.pbGrid g p e false with sync := true }
  else if p.tx && p.fast then s
  else if e < p.b0 then
    s.setPb n c { s.pbGrid g p (p.b0 - tq * min (s.pbSjw g p.fast) ((p.b0 - e + tq - 1) / tq)) p.fast with sync := true }
  else if !p.out then s
  else s.setPb n c { s.pbGrid g p (p.b0 + tq * min (s.pbSjw g p.fast) ((e - p.b0) / tq)) p.fast with sync := true }

/-- The earliest of some instants before `fin`. -/
def firstBefore (fin : Int) (l : List (Option Int)) : Option Int :=
  (l.filterMap id).foldl (fun a x => if fin ≤ x then a else match a with
    | none => some x
    | some y => some (min x y)) none

/-- The instants of one report in their order: the edge, an own start of frame, secondary and ordinary sample points; `k` bounds them. -/
def State.pbRun (n c : Nat) (r : Rep) (prev : Bool) : Nat → Option Int → State → State
  | 0, _, s => s
  | k + 1, edge, s =>
    let g := s.enOf n c
    let p := s.pb n c
    let lvl (x : Int) : Bool := (r.at prev x).1 != s.fb g PB_CFG_INV
    match firstBefore (r.base + frameU) [edge, p.start, p.ssp.head?.map (·.1), p.x] with
    | none => s
    | some t =>
      if edge = some t then State.pbRun n c r prev k none (s.pbEdge n c t)
      else if p.start = some t then
        State.pbRun n c r prev k edge (s.setPb n c { (s.pbGrid g (p.begin t) t false) with tx := p.tx, ide := p.ide, send := p.send })
      else if p.ssp.head?.map (·.1) = some t then State.pbRun n c r prev k edge (s.pbSecond n c t (lvl t))
      else State.pbRun n c r prev k edge (s.pbJudge n c t (lvl t))

/-- One report taken by a PBUS engine. Every card-link frame is a PBUS boundary while the engine is not error-active or -passive
(R299). A glitch gives no synchronisation (R295). -/
def State.pbReport (s : State) (n c : Nat) (r : Rep) : State :=
  let g := s.enOf n c
  let p := { s.pb n c with bnd := false }
  let s1 := s.setPb n c (if p.x.isNone then s.pbGrid g p r.base false else p)
  let s2 := if s1.pbOn g then s1 else s1.pbBoundary n c
  let prev := (s.chan n c).prev.getD (if r.edge then !r.level else r.level)
  let dominant := decide (r.level = s.fb g PB_CFG_INV)
  s2.pbRun n c r prev 8 (if r.edge && !r.glitch && dominant then some r.stamp else none)

/-- A gap at a PBUS engine (R298): recessive from the first bit whose output can still be decided. -/
def State.pbGap (s : State) (n c : Nat) : State :=
  let g := s.enOf n c
  let x := s.chan n c
  let p := x.pb
  let t := s.pbT g p.fast
  let e := s.earliest n
  let u := if e ≤ p.b0 ∨ t ≤ 0 then max e p.b0 else p.b0 + (e - p.b0 + t - 1) / t * t
  let s1 := if x.tx.isSome then (s.setChan n c { x with tx := none }).enCnt g 2
    else if p.inFrame && !p.tx then s.enCnt g 1 else s
  let s2 := if p.out && !p.tx then s1 else s1.pbForce n c u true
  let s3 := s2.setPb n c { out := true }
  if s.pbOn g then s3.fs g PB_ERR_STATE 1 else s3

/-! ### Commands (R296, R302) -/

/-- A write of PB_CMD. -/
def State.pbCmdWrite (s : State) (g : Nat) (v : Word) : State :=
  match s.servedBy (enCluster g) (enPos g) with
  | none => s
  | some c =>
    let n := enCluster g
    let inFifo (x : Chan) : Bool := match x.tx with
      | some (none, _) => true
      | _ => false
    let s1 := if PB_CMD_ABORT.get v = 1 ∧ !inFifo (s.chan n c) then s.pbEnd n c 1 none else s
    let s2 := if PB_CMD_FLUSH.get v = 1 then s1.setChan n c { s1.chan n c with flush := true } else s1
    if PB_CMD_RECOVER.get v = 1 ∧ s2.pbState g = 4 then (s2.fs g PB_ERR_STATE 5).setChan n c { s2.chan n c with rec11 := 0 } else s2

/-- A write of PB_CMD with the one bit of `f`. In another mode the offset is not PB_CMD, and the command has no effect. -/
def State.pbCmd (s : State) (who : Initiator) (engine : Engine) (f : Fld) : State :=
  s.write who (s.enReg engine) PB_CMD fun t =>
    if t.enMode (t.enReg engine) = 2 then t.pbCmdWrite (t.enReg engine) (f.set 1 0) else t

/-- PB_ABORT. -/
def execPbAbort (who : Initiator) (engine : Engine) (s : State) : Out := .next (s.pbCmd who engine PB_CMD_ABORT)
/-- PB_FLUSH. -/
def execPbFlush (who : Initiator) (engine : Engine) (s : State) : Out := .next (s.pbCmd who engine PB_CMD_FLUSH)
/-- PB_RECOVER. -/
def execPbRecover (who : Initiator) (engine : Engine) (s : State) : Out := .next (s.pbCmd who engine PB_CMD_RECOVER)

end Sys2Proof.Machine
end

