-- ==== Sys2Proof/Machine/Matrix.lean ====
section
/-! DEFINITION. The schedule matrix (R304-R307): basic cycles, columns, reference messages and their loss. -/
namespace Sys2Proof.Machine

/-- The first service time in ns, from the present instant on, whose value modulo CYCLE is PHASE (R305); the ns count from 0 again every
2^32. -/
def State.ttFirst (s : State) (m : Nat) : Int :=
  let per : Int := s.fg m SM_CYCLE_CYCLE
  let first := -((-(s.stAt s.now)) / (timeG * 65536))
  let base := first / 2 ^ 32 * 2 ^ 32
  min (first + ((s.fg m SM_PHASE_PHASE : Int) - (first - base)) % per) (base + 2 ^ 32 + (s.fg m SM_PHASE_PHASE : Int))

/-- A channel without a basic cycle in progress, with the next one to start, or to be expected, at `next`. -/
def Chan.ttClear (x : Chan) (next : Option Int) : Chan := { x with cycle := none, refDue := false, arb := none, col := none, ttNext := next }

/-- The schedule begins, or ends, as the engine starts or a commit changes it: ROLE as SM_CFG names it, and the first basic cycle to
come. -/
def State.ttInit (s : State) (n c : Nat) : State :=
  let g := s.enOf n c
  match s.ttOn n c with
  | none =>
    let s1 := s.setChan n c ((s.chan n c).ttClear none)
    if s.enMode g = 2 then s1.wr g PB_TT_STAT 0 else s1
  | some m =>
    let r := s.fg m SM_CFG_ROLE
    let role := if r = 1 then 1 else if r = 2 then 3 else 2
    (s.setChan n c ((s.chan n c).ttClear (some (s.ttFirst m)))).wr g PB_TT_STAT
      (PB_TT_STAT_ROLE.set role (PB_TT_STAT_SYNCED.set (bit (role = 1)) 0))

/-- The schedules of a cluster's channels begin anew (R263, R305). -/
def State.ttRestart (s : State) (n : Nat) : State := (List.range 8).foldl (fun (t : State) c => t.ttInit n c) s

/-- The channel a matrix serves, where it runs (R304): its owner's cluster and channel. -/
def State.ttOwner (s : State) (m : Nat) : Option (Nat × Nat) :=
  let n := s.fg m SM_OWNER_PITCH
  let c := s.fg m SM_OWNER_CHAN
  if s.fb m SM_OWNER_VALID ∧ n < 24 ∧ s.ttOn n c = some m then some (n, c) else none

/-- The next row, and CYCLE in 1/160 ns. -/
def State.ttRowNext (s : State) (m g : Nat) : Nat :=
  let k := s.fg g PB_TT_STAT_ROW + 1
  if s.fg m SM_CFG_ROWS ≤ k then 0 else k
def State.ttCycle (s : State) (m : Nat) : Int := nsU * (s.fg m SM_CYCLE_CYCLE : Int)

/-- An instant whose outputs are to be decided about now: it lies no more than a card-link frame beyond the earliest instant that can still
be placed (R29). -/
def State.ttDue (s : State) (n : Nat) (u : Int) : Bool := decide (u ≤ s.earliest n + frameU)

/-- A basic cycle begins at `z`, in row `row`; the next is due at `next`. -/
def State.ttBegin (s : State) (n c row : Nat) (z next : Int) : State :=
  (s.fs (s.enOf n c) PB_TT_STAT_ROW row).setChan n c
    { s.chan n c with cycle := some z, col := some 0, ttNext := some next, refDue := false, arb := none }

/-- TT_BASIC_CYCLE_START (R305): a master's next basic cycle, once it is due. A follower's begin with the reference, or with its loss
(R307). -/
def execTtBasicCycleStart (matrix : Matrix) (s : State) : Out :=
  .next (
    let m := 0x240 + matrix.val
    match s.ttOwner m with
    | none => s
    | some (n, c) =>
      let g := s.enOf n c
      let x := s.chan n c
      match (if s.fg g PB_TT_STAT_ROLE = 1 then x.ttNext else none) with
      | none => s
      | some t =>
        if !s.ttDue n (s.ofNs t) then s
        else s.ttBegin n c (if x.cycle.isNone then 0 else s.ttRowNext m g) (s.ofNs t) (t + s.fg m SM_CYCLE_CYCLE))

/-- TYPE and SLOT of the cell of column `j` and row `r` (R306). -/
def State.ttCell (s : State) (m j r : Nat) : Nat × Nat :=
  let d := 0x20 * j + 4 * (r / 2)
  if r % 2 = 1 then (s.fg m (SM_CELL_TYPE_HI.at d), s.fg m (SM_CELL_SLOT_HI.at d))
  else (s.fg m (SM_CELL_TYPE_LO.at d), s.fg m (SM_CELL_SLOT_LO.at d))

/-- The engine may transmit in EXCLUSIVE and ARBITRATE columns: a master, or a follower that has not lost the reference (R307). -/
def State.ttHas (s : State) (g : Nat) : Bool := decide (s.fg g PB_TT_STAT_ROLE = 1) || decide (s.fg g PB_TT_STAT_MISSED < 2)

/-- Start of column `j` after that of its basic cycle, in 1/160 ns; the end of the last one is the cycle's (R305). -/
def State.ttColAt (s : State) (m j : Nat) : Int :=
  if j < s.fg m SM_CFG_COLS then nsU * (s.fg m (SM_COL_START.at (4 * j)) : Int) else s.ttCycle m

/-- The bus is idle and a frame can still be placed at `u`. -/
def State.ttIdle (s : State) (n c : Nat) (u : Int) : Bool :=
  let p := s.pb n c
  decide (p.ph = .idle) && p.start.isNone && decide (s.earliest n ≤ u) && s.pbMay n c

/-- Column `j`, which starts at `u` and ends at `fin`, acts by its cell (R306). -/
def State.ttColumn (s : State) (n c m j : Nat) (u fin : Int) : State :=
  let g := s.enOf n c
  let (ty, k) := s.ttCell m j (s.fg g PB_TT_STAT_ROW)
  if ty = 1 then
    if s.ttHas g && s.fb g (PB_SLOT_W1_VALID.at (0x48 * k)) && s.ttIdle n c u then s.pbStartAt n c (some k) u else s.enCnt g 3
  else if ty = 2 then s.setChan n c { s.chan n c with arb := if s.ttHas g then some (u, fin) else none }
  else if ty = 3 ∧ j = 0 ∧ s.fg g PB_TT_STAT_ROLE = 1 then
    if s.ttIdle n c u then s.pbStartAt n c (some 8) u else s.setChan n c { s.chan n c with refDue := true }
  else s

/-- TT_COLUMN_START (R306): the next column of the basic cycle in progress, once it is due. -/
def execTtColumnStart (matrix : Matrix) (s : State) : Out :=
  .next (
    let m := 0x240 + matrix.val
    match s.ttOwner m with
    | none => s
    | some (n, c) =>
      let x := s.chan n c
      match x.col, x.cycle with
      | some j, some z =>
        let u := z + s.ttColAt m j
        if !s.ttDue n u then s
        else
          let next := if j + 1 < s.fg m SM_CFG_COLS then some (j + 1) else none
          ((s.fs (s.enOf n c) PB_TT_STAT_COL j).setChan n c { x with col := next, arb := none }).ttColumn n c m j u (z + s.ttColAt m (j + 1))
      | _, _ => s)

/-- The frame whose start of frame lies at `lim` or before is still being received, or handed over: it may be the reference. -/
def Chan.mayRef (x : Chan) (lim : Int) : Bool :=
  (x.pb.inFrame && !x.pb.tx && decide (x.pb.sof ≤ lim)) || x.got.any fun e => decide (e.1 ≤ lim)

/-- A reference has not come (R307): at the first miss the schedule goes on by its own timing for one basic cycle; at the second in a row
a backup becomes the master, and a follower has lost it. -/
def State.ttMiss (s : State) (n c m : Nat) (t : Int) : State :=
  let g := s.enOf n c
  let x := s.chan n c
  let miss := s.fg g PB_TT_STAT_MISSED + 1
  let next := t + s.fg m SM_CYCLE_CYCLE
  let s1 := s.inc g PB_TT_STAT_MISSED
  if miss = 1 then
    if x.cycle.isSome then s1.ttBegin n c (s.ttRowNext m g) (s.ofNs t) next else s1.setChan n c { x with ttNext := some next }
  else if s.fg g PB_TT_STAT_ROLE = 3 then
    ((s1.fs g PB_TT_STAT_ROLE 1).fs g PB_TT_STAT_SYNCED 1).setChan n c (x.ttClear (some (s.ttFirst m)))
  else
    ((s1.fs g PB_TT_STAT_SYNCED 0).setChan n c { x.ttClear (some next) with cycle := x.cycle }).raiseIf (decide (miss = 2)) g EV_EN_TT_LOST

/-- TT_REF_TIMEOUT (R307): no reference by REF_WAIT after the expected start. -/
def execTtRefTimeout (matrix : Matrix) (s : State) : Out :=
  .next (
    let m := 0x240 + matrix.val
    match s.ttOwner m with
    | none => s
    | some (n, c) =>
      let x := s.chan n c
      match (if s.fg (s.enOf n c) PB_TT_STAT_ROLE = 1 then none else x.ttNext) with
      | none => s
      | some t =>
        let lim := s.ofNs t + nsU * (s.fg m SM_REF_REF_WAIT : Int)
        if s.now < lim ∨ x.mayRef lim then s else s.ttMiss n c m t)

/-- A message is the reference of matrix `m` (R307). -/
def State.ttIsRef (s : State) (m : Nat) (idw dlc : Nat) : Bool :=
  decide (idw / 2 ^ 29 = 0) && decide (dlc = 8) && decide (idw % 2048 / 8 = s.fg m SM_REF_REF_ID / 8)

/-- A signed value that does not fit 32 bits stays at the end of their range. -/
def clamp32 (i : Int) : Word := BitVec.ofInt 32 (max (-(2 ^ 31)) (min i (2 ^ 31 - 1)))

/-- A reference received with its start of frame at `sof` (R307). A master gives way to a lower identifier alone. -/
def State.ttReference (s : State) (n c m idw : Nat) (data : List Byte) (sof : Int) : State :=
  let g := s.enOf n c
  if s.fg g PB_TT_STAT_ROLE = 1 ∧ s.fg m SM_REF_REF_ID ≤ idw % 2048 then s
  else
    let role := if s.fg g PB_TT_STAT_ROLE = 1 then 2 else s.fg g PB_TT_STAT_ROLE
    let z := sof - nsU * (leAt data 1 2 : Int)
    let ns := s.stAt z / (timeG * 65536)
    let s1 := ((s.fs g PB_TT_STAT_ROLE role).fs g PB_TT_STAT_SYNCED 1).fs g PB_TT_STAT_MISSED 0
    (s1.wr g PB_TT_OFFSET (clamp32 ((s.stNs z : Int) - (leAt data 3 4 : Int)))).ttBegin n c (leAt data 0 1 % 16) z
      (ns + s.fg m SM_CYCLE_CYCLE)

end Sys2Proof.Machine
end

