-- ==== Sys2Proof/Machine/EngineReport.lean ====
section
/-! DEFINITION. The reports and gap markers that an engine takes, by its mode (R253-R256), and the switch of a migration (R282). -/
namespace Sys2Proof.Machine

/-- The channel with its oldest report taken and the level it ended with (none: a gap) kept. -/
def State.repTaken (s : State) (n c : Nat) (level : Option Bool) : State :=
  s.setChan n c { s.chan n c with reps := (s.chan n c).reps.tail, prev := level }

/-- The local instant of a mirrored stamp: service time in 48 bits, taken as the nearest one to the present. -/
def State.ofStamp (s : State) (v : Nat) : Int := s.localOf (s.stAt s.now + sgn 48 (v + 2 ^ 48 - s.st48 s.now) * timeG)

/-- What the active hub has taken and sent leaves a mirrored channel of the standby (R404): the items taken from the transmit FIFO, and
the receive items with a TS no later than the last one sent. -/
def State.engTaken (s : State) (n c taken : Nat) (stamp : List Byte) : State :=
  let x := s.chan n c
  let later (u : Int) : Bool := leAt stamp 0 1 = 0 || decide (0 < sgn 48 (s.st48 u + 2 ^ 48 - leAt stamp 1 6))
  s.setChan n c { x.keepItems later with fifo := x.fifo.drop (taken - x.taken), taken := max taken x.taken }

/-- A mirrored state loaded into the engine of a channel (R404), in the layout of the ENGINE entry. -/
def State.engSet (s : State) (n c : Nat) (bs : List Byte) : State :=
  let g := s.enOf n c
  let m := s.enMode g
  let w (i : Nat) : Word := BitVec.ofNat 32 (leAt bs i 4)
  if leAt bs 1 1 ≠ m then s
  else if m = 1 then s.engTaken n c (leAt bs 2 8) ((bs.drop 10).take 7)
  else if m = 3 then
    let s1 := if leAt bs 2 1 = 1 then s.setChan n c { s.chan n c with nextOk := s.ofStamp (leAt bs 3 6) } else s
    (s1.wr g SY_LAST (w 9)).wr g SY_DOUT (w 13)
  else if m = 4 then
    let s1 := (((s.wr g EN_DI_COUNT (w 2)).fs g DI_CFG_UNSURE (leAt bs 6 1)).wr g DI_WIDTH (w 7)).wr g DI_PERIOD (w 11)
    let p := sgn 64 (leAt bs 15 8)
    let s2 := if p = 0 then s1 else s1.setChan n c { s1.chan n c with pwmNext := some p }
    s2.engTaken n c (leAt bs 23 8) ((bs.drop 31).take 7)
  else if m = 2 then
    let s0 := (s.wr g PB_ERR (w 2)).wr g PB_TT_STAT (w 18)
    let s1 := if s0.pbOn g then s0 else s0.setPb n c (s0.pb n c).rest
    (s1.setChan n c { s1.chan n c with rec11 := leAt bs 6 2, attempts := leAt bs 16 2 }).engTaken n c (leAt bs 8 8) ((bs.drop 22).take 7)
  else s

/-- The mirrored state waiting for a channel is loaded at its mode boundary (R404). -/
def State.engLoad (s : State) (n c : Nat) : State := match s.tw.eng.getD (8 * n + c) [] with
  | [] => s
  | bs => if !s.atBoundary n c then s
    else ({ s with tw := { s.tw with eng := s.tw.eng.put (8 * n + c) [] [] } } : State).engSet n c bs

/-- A parity error in the microcode is a fault of the engine, with its position as detail (R254); the spare is then unusable (R285). -/
def State.engParity (s : State) (n c : Nat) (parity : EngParity) : State :=
  let err (pos : Nat) : State :=
    (if pos = 8 then s.fs (ecPage n) EC_MIG_STATUS_SPARE_OK 0 else s).fault (0xCF + 2 * n) pos
  match parity with
  | .ok => s
  | .engine => err (s.engPos n c)
  | .spare => if s.followed n = some c then err 8 else s

/-- ENGINE_FRAME_REPORT (R253-R255): the oldest report goes to the mode's decisions. -/
def execEngineFrameReport (pitch : Pitch) (chan : Channel) (parity : EngParity) (s : State) : Out :=
  .next (
    let n := pitch.val
    let c := chan.val
    match (s.chan n c).reps with
    | [] => s
    | r :: _ =>
      if r.gap then s
      else
        let g := s.enOf n c
        let s0 := s.engParity n c parity
        let m := s.enMode g
        let s1 := if !s.enRuns g then s0
          else if m = 1 then s0.asReport n c r
          else if m = 2 then s0.pbReport n c r
          else if m = 3 then s0.syReport n c r
          else if m = 4 then s0.diReport n c r
          else s0
        (s1.repTaken n c (some r.level)).engLoad n c)

/-- The interval of a gap: that of the oldest marker, or the one in progress while the link is not in ACTIVE (R242, R256). -/
def State.gapBase (s : State) (n c : Nat) : Option Int :=
  match (s.chan n c).reps with
  | r :: _ => if r.gap then some r.base else none
  | [] => if s.fg (clPage n) CL_STATUS_STATE ≠ 5 then some (s.now + s.delayU n - frameU) else none

/-- ENGINE_GAP (R256, R268, R273, R277, R298). -/
def execEngineGap (pitch : Pitch) (chan : Channel) (s : State) : Out :=
  .next (
    let n := pitch.val
    let c := chan.val
    match s.gapBase n c with
    | none => s
    | some base =>
      let g := s.enOf n c
      let m := s.enMode g
      let s1 := if !s.enRuns g then s
        else if m = 1 then s.asGap n c (base + frameU)
        else if m = 2 then s.pbGap n c
        else if m = 3 then s.syGap n c base
        else if m = 4 then (if s.fg (clPage n) CL_STATUS_STATE ≠ 5 then (s.diGap n c).dueLost n c else s.diGap n c)
        else s
      (s1.repTaken n c none).engLoad n c)

/-- What an urgent switch cuts ends as at a gap, and the loss is counted (R284). -/
def State.migCut (s : State) (n c : Nat) : State :=
  let x := s.chan n c
  let m := s.enMode (s.enOf n c)
  let s1 := if x.cutShort m (s.earliest n) then s.inc (ecPage n) EC_CNT_MIG_TRUNC else s
  if m = 1 then (if x.rx.isSome then s1.asGap n c s.now else s1)
  else if m = 2 then s1.pbGap n c
  else if m = 3 then (if x.xfer.isSome then s1.syCut n c else s1)
  else if m = 4 then s1.diGap n c
  else s1

/-- An urgent switch; a PBUS engine makes its tests as at a start. -/
def State.migUrgent (s : State) (n c cause : Nat) : State :=
  let s1 := (s.migCut n c).migSwitch n c true cause
  if s1.enMode (s1.enOf n c) = 2 ∧ s1.enRuns (s1.enOf n c) then (if s1.fg (clPage n) CL_STATUS_STATE = 5 then s1.pbTurn n c else s1).ttInit n c else s1

/-- MIGRATION_SWITCH (R282, R284): at the mode's boundary, or at once where urgent; not to a spare that has failed meanwhile. A SYNC
pair moves as one. -/
def execMigrationSwitch (cluster : Pitch) (s : State) : Out :=
  .next (
    let n := cluster.val
    match s.followed n with
    | none => s
    | some c => match (s.chan n c).mig with
      | none => s
      | some (urgent, cause) =>
        if !s.fb (ecPage n) EC_MIG_STATUS_SPARE_OK then s
        else if urgent then s.migUrgent n c cause
        else if s.atBoundary n c then s.migSwitch n c false cause
        else s)

end Sys2Proof.Machine
end

