-- ==== Sys2Proof/Machine/Queues.lean ====
section
/-! DEFINITION. Queues and mailboxes (chapter 7): flushes, freezing of the twin and cluster ports, mailbox items, and the read
ports of the software queues. -/
namespace Sys2Proof.Machine

/-! ### Flush (R209-R211) -/

/-- A write of Q_FLUSH: the request is taken unless one waits or the queue is not on the page. -/
def State.qFlushWrite (s : State) (p : Nat) (v : Word) : State :=
  if Q_FLUSH_GO.get v = 0 then s
  else if s.fb p Q_FLUSH_STATUS_BUSY || decide (qPage (Q_FLUSH_QUEUE.get v) ≠ p) then s.raise p EV_Q_FLUSH_IGNORED
  else s.wr p Q_FLUSH_STATUS (Q_FLUSH_STATUS_BUSY.set 1 (Q_FLUSH_STATUS_QUEUE.set (Q_FLUSH_QUEUE.get v) 0))

/-- Q_FLUSH (R209). -/
def execQFlush (who : Initiator) (page : Fin 4) (v : Word) (s : State) : Out :=
  .next (s.write who (0x011 + page.val) Q_FLUSH fun t => t.qFlushWrite (0x011 + page.val) v)

/-- FLUSH_POINT (R209). -/
def execFlushPoint (page : Fin 4) (s : State) : Out :=
  .next (
    let p := 0x011 + page.val
    if !s.fb p Q_FLUSH_STATUS_BUSY then s
    else
      let (s1, n) := s.flushQueue (s.fg p Q_FLUSH_STATUS_QUEUE)
      (((s1.fs p Q_FLUSH_STATUS_BUSY 0).fs p Q_FLUSH_STATUS_REMOVED (min n 65535)).addSat p Q_CNT_FLUSH_COUNT n).raise p
        EV_Q_FLUSH_DONE)

/-- A write of Q_CTRL.CLR_CNT clears both counters. -/
def State.qClrCnt (s : State) (p : Nat) : State := (s.wr p Q_CNT_FLUSH 0).wr p Q_CNT_GRACE 0

/-- The counters of every queue page cleared, as by a reset that discards the queues. -/
def State.queuesClr (s : State) : State := [0x011, 0x012, 0x013, 0x014].foldl State.qClrCnt s

/-- Q_CLR_CNT (R211). -/
def execQClrCnt (who : Initiator) (page : Fin 4) (s : State) : Out :=
  .next (s.write who (0x011 + page.val) Q_CTRL fun t => t.qClrCnt (0x011 + page.val))

/-! ### Freezing on port loss (R212, R213) -/

/-- The four queues of a port flushed, and the entries counted in Q_CNT_GRACE. -/
def State.graceFlush (s : State) (p : Nat) : State :=
  let (s1, n) := (List.range 4).foldl (fun (t : State × Nat) c =>
    let (u, k) := t.1.flushQueue (4 * p + c)
    (u, t.2 + k)) (s, 0)
  s1.addSat 0x011 Q_CNT_GRACE_COUNT n

/-- The freeze of the twin or a cluster port: 0 not lost, 1 lost, 2 lost beyond the grace interval. -/
def State.setLost (s : State) (p v : Nat) : State := { s with core := { s.core with lost := s.core.lost.put p v 0 } }

/-- The grace interval is over: the queues are flushed and GRACE_FLUSH is raised. -/
def State.graceOver (s : State) (p : Nat) : State := ((s.graceFlush p).raise 0x011 EV_Q_GRACE_FLUSH).setLost p 2

/-- A twin or cluster port's link leaves service: its queues freeze; with GRACE 0 the flush follows at once. -/
def State.portLost (s : State) (p : Nat) : State :=
  if s.core.lost.getD p 0 ≠ 0 then s
  else if s.fg 0x011 Q_GRACE_GRACE = 0 then (s.setLost p 1).graceOver p else s.setLost p 1

/-- A lost port's link returns: in time and with the same partner delivery resumes; with another partner the queues are
flushed; after the grace interval what was pushed meanwhile is removed. -/
def State.portBack (s : State) (p : Nat) (same : Bool) : State :=
  if s.core.lost.getD p 0 = 0 then s
  else if s.core.lost.getD p 0 = 2 then (s.graceFlush p).setLost p 0
  else if same then s.setLost p 0
  else ((s.graceFlush p).raise 0x011 EV_Q_GRACE_FLUSH).setLost p 0

/-- QUEUE_GRACE_EXPIRED (R212): the first time the port's queues are flushed with GRACE_FLUSH; while it stays lost, what was
pushed since is removed and counted. The ring ports follow R154. -/
def execQueueGraceExpired (p : CorePort) (s : State) : Out :=
  .next (
    if s.core.lost.getD p.val 0 = 1 then s.graceOver p.val
    else if s.core.lost.getD p.val 0 = 2 then s.graceFlush p.val else s)

/-- Entries pushed to the queues of a port lost beyond its grace interval are removed at once (R212). -/
def State.staleSweep (s : State) : State :=
  (s.core.lost.filter fun e => decide (e.2 = 2)).foldl (fun (t : State) e => t.graceFlush e.1) s

/-- Q_FROZEN. -/
def State.frozenBits (s : State) : Nat :=
  (List.range 24).foldl (fun n k => setBit n (6 + k) (s.portFrozen (6 + k)))
    (setBit (setBit (setBit 0 2 (s.portFrozen 2)) 1 (s.portFrozen 1)) 0 (s.portFrozen 0))

/-- QSTAT of a queue (R205). -/
def State.qstat (s : State) (q : Nat) : Word :=
  let x := s.que q
  let flushing := s.fb (qPage q) Q_FLUSH_STATUS_BUSY && decide (s.fg (qPage q) Q_FLUSH_STATUS_QUEUE = q)
  (⟨0, 31, 1⟩ : Fld).set (bit flushing) ((⟨0, 16, 15⟩ : Fld).set x.charge
    ((⟨0, 15, 1⟩ : Fld).set (bit (decide (q < 120) && s.portFrozen (q / 4))) ((⟨0, 0, 15⟩ : Fld).set x.depth 0)))

/-! ### Mailboxes (R214-R216) -/

/-- Queue of a mailbox. -/
def mbQueue (m : Nat) : Nat := 960 + m

/-- Mailbox bit registers: bit m mod 32 of word m ÷ 32. -/
def State.mbBit (s : State) (reg m : Nat) : Bool := nbit (s.rd 0x014 (reg + 4 * (m / 32))).toNat (m % 32)
def State.setMbBit (s : State) (reg m : Nat) : State :=
  s.wr 0x014 (reg + 4 * (m / 32)) (s.rd 0x014 (reg + 4 * (m / 32)) ||| BitVec.ofNat 32 (1 <<< (m % 32)))

/-- The cell that a take of mailbox queue `q` has released in this cycle of LC, still free: a push of the same cycle is written into it
(R208). -/
def State.mbReleased (s : State) (q : Nat) : Option Nat := match (s.que q).popped with
  | some (c, t) => if t = s.lc ∧ (s.bank (c / 1024 % 16)).back.contains (c % 1024) then some c else none
  | none => none

/-- The cell that an item pushed to queue `q` takes, if it is admitted (R214), and the state without it in its free list. -/
def State.mbCell (s : State) (q : Nat) : Option (Nat × State) :=
  if !(s.running 0x010 && decide (s.admission q 1 = .ok)) then none
  else match s.mbReleased q with
    | some c =>
      let b := s.bank (c / 1024 % 16)
      some (c, s.setBank (c / 1024 % 16) { b with back := b.back.erase (c % 1024) })
    | none => s.pickBank.map fun b => (b * 1024 + (s.bank b).take.1, s.setBank b (s.bank b).take.2)

/-- A push of mailbox `m` would be refused. -/
def State.mbOverruns (s : State) (m : Nat) : Bool := (s.endCycle.mbCell (mbQueue m)).isNone

/-- One item pushed, or refused and flagged (R214). NONEMPTY does not fall between a take and a push of one cycle (R208). -/
def State.mbPush (s0 : State) (m : Nat) (v : Word) : State :=
  let s := s0.endCycle
  let q := mbQueue m
  match s.mbCell q with
  | none => (s.setMbBit MB_OVERRUN m).raise 0x014 EV_Q_MB_OVERRUN
  | some (c, t) =>
    let s1 := (t.setCell c (packCell (leBytes v.toNat 4))).setLink c { last := true, len := 4 }
    let rises := (s.que q).ents.isEmpty && (s.mbReleased q).isNone
    let s2 := s1.pushEnt q { cell := c, item := true, n := 1 }
    (s2.raiseIf (rises && s2.mbBit MB_ARRIVE_EN m) 0x014 EV_Q_MB_ARRIVE).mirrorQueue q 1 v.toNat

/-- MB_PUSH (R214). The write completes with OK in either case. -/
def execMbPush (who : Initiator) (m : Mailbox) (v : Word) (s : State) : Out :=
  .next (s.write who 0x014 (MB_PUSH + 4 * m.val) fun t => t.mbPush m.val v)

/-- The item at the head of a mailbox. -/
def State.mbHead (s : State) (m : Nat) : Option (QEnt × Word) :=
  match (s.que (mbQueue m)).ents with
  | e :: _ => some (e, (s.cell e.cell).setWidth 32)
  | [] => none

/-- What an empty mailbox returns: the last value, or 0 under BN compatibility (R215). -/
def State.mbEmpty (s : State) (m : Nat) : Word := if s.compat 0x014 then 0 else (s.que (mbQueue m)).last

/-- A take of a mailbox (R215), with what the check of the read finds (R194, R204): an item with an uncorrected error in its row has an
unstated value. -/
def State.mbPop (s : State) (m : Nat) (ecc : Ecc) : State × Word :=
  let q := mbQueue m
  match s.mbHead m with
  | some (e, v0) =>
    let v := if ecc = .ue then BitVec.ofNat 32 (s.freeNat 32) else v0
    let s1 := (if ecc = .ue then s.tookFree else s).eccRead ecc e.cell e.cell
    let s2 := s1.setQue q { s1.que q with ents := (s1.que q).ents.tail, last := v, popped := some (e.cell, s.lc) }
    (((s2.freeCell e.cell).freeEnt e.idx).mirrorQueue q 0 1, v)
  | none => ((s.setMbBit MB_UNDERRUN m).raise 0x014 EV_Q_MB_UNDERRUN, s.mbEmpty m)

/-- What the peek of MB_POP returns. -/
def State.mbPeek (s : State) (m : Nat) : Word :=
  match s.mbHead m with
  | some (_, v) => v
  | none => s.mbEmpty m

/-- MB_POP_TAKE (R215). -/
def execMbPopTake (who : Initiator) (m : Mailbox) (ecc : Ecc) (s : State) : Out :=
  .next (s.read who 0x014 (MB_POP + 4 * m.val) fun t => t.mbPop m.val ecc)

/-- MB_NONEMPTY0 and 1 (R216). -/
def State.mbNonempty (s : State) (w : Nat) : Word :=
  BitVec.ofNat 32 ((List.range 32).foldl (fun n j => setBit n j (!(s.que (mbQueue (32 * w + j))).ents.isEmpty)) 0)

/-! ### Read ports (R217-R219) -/

/-- A software queue of the page. -/
def softQueue (p q : Nat) : Bool := decide (120 ≤ q) && decide (q < 960) && decide (qPage q = p)

/-- The status word of QRP_TAKE. -/
def qrpStatus (valid first last bad cut pending selErr : Bool) (len depth : Nat) : Word :=
  QRP_TAKE_VALID.set (bit valid) (QRP_TAKE_FIRST.set (bit first) (QRP_TAKE_LAST.set (bit last) (QRP_TAKE_BAD.set (bit bad)
    (QRP_TAKE_CUT.set (bit cut) (QRP_TAKE_PENDING.set (bit pending) (QRP_TAKE_SEL_ERR.set (bit selErr)
      (QRP_TAKE_LEN.set len (QRP_TAKE_DEPTH.set depth 0))))))))

/-- A cell loaded into QRP_CELL0 to QRP_CELL5 of page `p`. -/
def State.qrpCells (s : State) (p : Nat) (v : BitVec 192) : State :=
  (List.range 6).foldl (fun (t : State) j => t.wr p (QRP_CELL + 4 * j) ((v >>> (32 * j)).setWidth 32)) s

/-- What a take of the read port of page `p` returns and does (R217-R219), with what the check of the read finds (R194): a cell with an
uncorrected error in its row ends the frame with BAD, and its data are unstated. -/
def State.qrpTake (s : State) (p : Nat) (ecc : Ecc) : State × Word :=
  let q := s.fg p QRP_SEL_QUEUE
  if !softQueue p q then (s, qrpStatus false false false false false false true 0 0)
  else
    let x := s.que q
    let s0 := s.setQue q { x with cut := false }
    match x.ents with
    | [] => (s0.raise p EV_Q_QRP_EMPTY, qrpStatus false false false false x.cut false false 0 0)
    | e :: _ =>
      if x.taken = 0 && !s.eligible e then (s0, qrpStatus false false false false x.cut true false 0 x.depth)
      else
        let c := if x.taken = 0 then e.cell else x.next
        let l := s.link c
        let s1 := if ecc = .ue then (s0.qrpCells p (BitVec.ofNat 192 (s.freeNat 192))).tookFree else s0.qrpCells p (s.cell c)
        let s2 := (s1.setQue q { x with taken := x.taken + 1, next := l.next, cut := false }).eccRead ecc e.cell c
        let first := decide (x.taken = 0)
        let bad := decide ((s2.frec e.cell).verdict = .bad)
        if l.last || bad then
          let es := (s2.que q).ents.tail
          (((s2.setQue q { s2.que q with ents := es, taken := 0, next := 0 }).endCopy e).mirrorQueue q 0 1,
            qrpStatus true first true bad x.cut false false l.len es.length)
        else (s2, qrpStatus true first false bad x.cut false false l.len x.depth)

/-- QRP_TAKE (R217). -/
def execQrpTake (who : Initiator) (page : Fin 4) (ecc : Ecc) (s : State) : Out :=
  .next (s.read who (0x011 + page.val) QRP_TAKE fun t => t.qrpTake (0x011 + page.val) ecc)

/-- CORE_SPARE_CMD (R196). -/
def execCoreSpareCmd (who : Initiator) (v : Word) (s : State) : Out :=
  .next (s.write who 0x010 CORE_SPARE_CMD fun t => t.coreSpareCmd v)

/-- CORE_CLR_CNT (R200). -/
def execCoreClrCnt (who : Initiator) (s : State) : Out :=
  .next (s.write who 0x010 CORE_CTRL fun t => t.coreClrCnt)

/-- Every queue and cell discarded, and the frames on their way into the core with them (R72). -/
def State.coreDiscard (s : State) : State := { s with core := { lost := s.core.lost, inbox := s.core.inbox }, ingress := [] }

end Sys2Proof.Machine
end

