-- ==== Sys2Proof/Machine/CardLink.lean ====
section
/-! DEFINITION. Card links (chapter 8): bring-up, the loop measurement, roll call, frames in both directions, loss and resumption. -/
namespace Sys2Proof.Machine

def State.card (s : State) (n : Nat) : Card := s.cards.getD n {}
def State.setCard (s : State) (n : Nat) (x : Card) : State := { s with cards := s.cards.put n x {} }

/-- CL_STATUS.STATE (R231). -/
def State.clState (s : State) (n : Nat) : Nat := s.fg (clPage n) CL_STATUS_STATE

/-- One bit, and one byte, of CRC-8 (polynomial 0x07), and the CRC-8 of R224. -/
def crc8Bit (c : Nat) : Nat := if c &&& 0x80 = 0 then (c <<< 1) &&& 0xFF else ((c <<< 1) ^^^ 0x07) &&& 0xFF
def crc8Byte (c : Nat) (b : Byte) : Nat :=
  crc8Bit (crc8Bit (crc8Bit (crc8Bit (crc8Bit (crc8Bit (crc8Bit (crc8Bit (c ^^^ b.toNat))))))))
def crc8 (bs : List Byte) : Nat := bs.foldl crc8Byte 0xFF

/-- The code-groups K28.5 and K28.1 as bytes. -/
def k285 : Byte := 0xBC
def k281 : Byte := 0x3C

/-- A frame: its sync, bytes 1 to 8, and the CRC-8 (R222). -/
def clFrame (sync : Byte) (body : List Byte) : List Byte := sync :: body ++ [BitVec.ofNat 8 (crc8 body)]

/-- The CRC-8 of a received frame is right. -/
def clCrcOk (bs : List Byte) : Bool := decide (leAt bs 9 1 = crc8 ((bs.drop 1).take 8))

/-! ### States (R231) -/

/-- The start of the input interval of the frame at the position expected (R228). -/
def State.clBase (s : State) (n : Nat) : Int := (s.card n).sentAt.getD (s.card n).rxPos 0 + s.delayU n - frameU

/-- What the card quad hands a channel's engine. An island that is not READY takes no item: it is discarded, and its engine sees the link
as stopped (R14). -/
def State.clHand (s : State) (n c : Nat) (r : Rep) : State :=
  let x := s.chan n c
  s.setChan n c (if s.ready (ecPage n) then { x with reps := x.reps ++ [r], lvl := if r.gap then none else some r.level }
                 else { x with reps := [], lvl := none, prev := none })

/-- A gap marker for every channel (R241, R242); the scan unit notes it for the status grains (R349). -/
def State.clGaps (s0 : State) (n : Nat) (base : Int) : State :=
  let s := if s0.running 0x01C then { s0 with scan := { s0.scan with gaps := s0.scan.gaps ++ [(n, base)] } } else s0
  (List.range 8).foldl (fun (t : State) c => t.clHand n c { gap := true, base := base }) s

/-- The link leaves its state: an exit from ACTIVE raises LINK_DOWN, its next interval is a gap, and the port counts as lost (R212, R231,
R242). -/
def State.clLeave (s : State) (n : Nat) : State :=
  let p := clPage n
  let s1 := (s.fs p CL_STATUS_TX_ACTIVE 0).fs p CL_STATUS_TX_OUT_VALID 0
  if s.clState n = 5 then ((s1.clGaps n (s.clBase n)).raise p EV_CL_LINK_DOWN).portLost (portCluster n) else s1

/-- The link enters TRAIN. The value SELECTED is compared with becomes 0 (R245). -/
def State.clTrain (s : State) (n : Nat) : State :=
  let p := clPage n
  let s1 := (((s.clLeave n).fs p CL_STATUS_STATE 2).fs p CL_STATUS_SEL_THIS 0).fs p CL_LSTAT_LOCKED 0
  let s2 := s1.fs p CL_STATUS_HELD_REASON 0
  let x := s2.card n
  s2.setCard n { x with lock := 0, seen := 0, badRun := 0, farRun := 0, samples := [], tries := 0, fcnt := 0, looped := false,
                        roll := [], drift := 0 }

/-- The link goes to DETECT, and to OFF. -/
def State.clDetect (s : State) (n : Nat) : State :=
  let s1 := (s.clLeave n).fs (clPage n) CL_STATUS_STATE 1
  s1.setCard n { s1.card n with probes := 0 }
def State.clOff (s : State) (n : Nat) : State :=
  let s1 := (s.clLeave n).fs (clPage n) CL_STATUS_STATE 0
  let s2 := (s1.fs (clPage n) CL_LSTAT_LOCKED 0).fs (clPage n) CL_STATUS_HELD_REASON 0
  s2.setCard n { s2.card n with probes := 0, tx := [] }

/-- The link is lost (R242), or meets in ROLLCALL or HELD what would lose it (R241). -/
def State.clLost (s : State) (n : Nat) : State :=
  let p := clPage n
  if s.clState n = 5 then (s.inc p CL_CNT_LINK_LOSS).clTrain n
  else if s.clState n = 4 ∨ s.clState n = 6 then (s.inc p CL_CNT_LINK_TRAIN_FAIL).clTrain n
  else s.clTrain n

/-- The payload of a sideband block with its header and check (R236). -/
def sbBlock (ty seq : Nat) (payload : List Byte) : List Byte :=
  let body := [BitVec.ofNat 8 ty, BitVec.ofNat 8 seq] ++ (payload ++ List.replicate 60 0).take 60
  body ++ leBytes (crc16 body) 2

/-- The payload of HUB_HELLO (R238): the hub's serial number is fuse words 0 and 1. -/
def State.helloBytes (s : State) (n : Nat) : List Byte :=
  [BitVec.ofNat 8 (s.hubId + 128 * bit s.hubValid)] ++ leBytes (s.gs.fuseHeld.getD 0 0).toNat 4 ++ leBytes (s.gs.fuseHeld.getD 1 0).toNat 4 ++
    [BitVec.ofNat 8 (s.fg (clPage n) CL_SAFE_LLT), BitVec.ofNat 8 (s.fg (clPage n) CL_SAFE_SAFE_LEVEL),
     BitVec.ofNat 8 (s.fg (clPage n) CL_SAFE_SAFE_EN)]

/-- The next outbound block. -/
def State.sbNext (s : State) (n ty : Nat) (payload : List Byte) : State :=
  let x := s.card n
  s.setCard n { x with block := sbBlock ty x.outSeq payload, outSeq := (x.outSeq + 1) % 256 }

/-- Superframes begin: FPOS 0 is sent and expected next, and the first block is a HUB_HELLO (R233, R237). -/
def State.clSuper (s : State) (n : Nat) : State :=
  (s.setCard n { s.card n with txPos := 0, rxPos := 0, sf := 0, badRun := 0, farRun := 0, roll := [] }).sbNext n 1 (s.helloBytes n)

/-- Entry to HELD raises HELD (R239). -/
def State.clHeld (s : State) (n reason : Nat) : State :=
  let p := clPage n
  ((s.fs p CL_STATUS_STATE 6).fs p CL_STATUS_HELD_REASON reason).raise p EV_CL_HELD

/-- RECEIVER_DETECT_PROBE (R231). -/
def execReceiverDetectProbe (pitch : Pitch) (term : Bool) (s : State) : Out :=
  .next (
    let n := pitch.val
    if s.clState n ≠ 1 then s
    else
      let s1 := s.fs (clPage n) CL_LSTAT_TERM (bit term)
      let k := if term then (s1.card n).probes + 1 else 0
      let s2 := s1.setCard n { s1.card n with probes := k }
      if 2 ≤ k then (s2.setCard n { s2.card n with probes := 0 }).clTrain n else s2)

/-! ### Training and LOOP (R231, R233, R234) -/

/-- A training frame is valid (R233). -/
def clTrainOk (bs : List Byte) : Bool :=
  decide (bs.head? = some k285) && decide (leAt bs 1 1 = 0xCA) && decide (leAt bs 2 1 / 4 = 0) && clCrcOk bs

/-- What a frame's receiver found, counted (R118, R220). -/
def State.clMarks (s : State) (n : Nat) : CardEnd → State
  | .violations k => s.addSat (clPage n) CL_LCNT_CV (k.val + 1)
  | .unlock => if s.fb (clPage n) CL_LSTAT_LOCKED then s.inc (clPage n) CL_LCNT_LOCK_LOSS else s
  | _ => s

/-- A lane in TRAIN starts its count toward lock again. -/
def State.clUnlock (s : State) (n : Nat) : State :=
  (s.fs (clPage n) CL_LSTAT_LOCKED 0).setCard n { s.card n with lock := 0, seen := 0 }

/-- A training frame in TRAIN: 64 valid ones in a row lock, and LOCKED seen in 8 in a row then leads to LOOP. A pair that comes inverted
is corrected and reported (R103, R220). -/
def State.clTrainFrame (s : State) (n : Nat) (bs : List Byte) (ok inv : Bool) : State :=
  let p := clPage n
  let x := s.card n
  let locked := s.fb p CL_LSTAT_LOCKED
  let lock := if ok then x.lock + 1 else 0
  let seen := if ok && nbit (leAt bs 2 1) 0 then x.seen + 1 else 0
  let now := locked || decide (64 ≤ lock)
  let s1 := (if ok then ((s.fs p CL_LSTAT_LOCKED (bit now)).fs p CL_LSTAT_LOS 0).fs p CL_LSTAT_INV (bit inv) else s).setCard n
    { x with lock := min lock 64, seen := min seen 8 }
  if now && decide (8 ≤ seen) then
    (s1.fs p CL_STATUS_STATE 3).setCard n { x with lock := 64, seen := 8, badRun := 0, samples := [], tries := 0, looped := false }
  else s1

/-- CARD_TRAINING_FRAME (R231, R233, R234): `sample` is the time, in 1/16 ns, from the outbound frame of the same FCNT. A pair whose
inversion changes after TRAIN carries no valid frames. -/
def execCardTrainingFrame (pitch : Pitch) (bytes : List Byte) (sample : Nat) (inv : Bool) (mark : CardEnd) (s : State) : Out :=
  if bytes.length ≠ 10 then .fault .malformed
  else .next (
    let n := pitch.val
    let st := s.clState n
    let straight := decide (st = 2) || (inv == s.fb (clPage n) CL_LSTAT_INV)
    let ok := clTrainOk bytes && decide (mark = .clean) && straight
    let s1 := s.clMarks n mark
    let x := s.card n
    if st = 2 then (if mark = .unlock then s1.clUnlock n else s1.clTrainFrame n bytes ok inv)
    else if st = 3 then
      if ok then
        s1.setCard n { x with badRun := 0, samples := if x.looped || decide (256 ≤ x.samples.length) then x.samples
                                                      else x.samples ++ [sample] }
      else if 4 ≤ x.badRun + 1 then s1.clTrain n
      else s1.setCard n { x with badRun := x.badRun + 1 }
    else s)

/-- CARD_TRAIN_TIMEOUT (R231). -/
def execCardTrainTimeout (pitch : Pitch) (s : State) : Out :=
  .next (
    let n := pitch.val
    let p := clPage n
    if s.clState n = 2 ∧ !s.fb p CL_LSTAT_LOCKED then (s.inc p CL_CNT_LINK_TRAIN_FAIL).clDetect n else s)

/-- CARD_LOS_PERSIST (R231, R242). -/
def execCardLosPersist (pitch : Pitch) (s : State) : Out :=
  .next (
    let n := pitch.val
    let p := clPage n
    if s.clState n < 2 then s
    else
      let s1 := (if s.fb p CL_LSTAT_LOCKED then s.inc p CL_LCNT_LOCK_LOSS else s).fs p CL_LSTAT_LOS 1
      if s.clState n = 2 then s1.clUnlock n
      else s1.clLost n)

/-- LOOP_MEASURE_DONE (R234). The spread is judged before the mean. -/
def execLoopMeasureDone (pitch : Pitch) (s : State) : Out :=
  .next (
    let n := pitch.val
    let x := s.card n
    let lo := x.samples.foldl min (x.samples.headD 0)
    let hi := x.samples.foldl max 0
    let sum := x.samples.sum
    if s.clState n ≠ 3 ∨ x.looped ∨ x.samples.length ≠ 256 then s
    else if 16 < hi - lo then
      if 3 ≤ x.tries + 1 then (s.clSuper n).clHeld n 2 else s.setCard n { x with samples := [], tries := x.tries + 1 }
    else if sum < 1280 * 256 ∨ 4000 * 256 < sum then (s.clSuper n).clHeld n 1
    else (s.fs (clPage n) CL_LOOP_LOOP ((sum + 128) / 256)).setCard n { x with samples := [], looped := true })

/-- ROLLCALL_TIMEOUT (R231). -/
def execRollcallTimeout (pitch : Pitch) (s : State) : Out :=
  .next (if s.clState pitch.val = 4 then (s.inc (clPage pitch.val) CL_CNT_LINK_TRAIN_FAIL).clTrain pitch.val else s)

/-- CL_CTRL.RETRAIN (R231). -/
def State.clRetrain (s : State) (n : Nat) : State := if 3 ≤ s.clState n then s.clTrain n else s

/-- CL_CTRL.CLR_CNT: every counter from 0x064 to 0x074, and CL_LCNT (R241). -/
def State.clClrCnt (s : State) (n : Nat) : State :=
  [CL_CNT_BAD, CL_CNT_FAR, CL_CNT_LINK, CL_CNT_BLOCK, CL_CNT_GLITCH, CL_LCNT].foldl (fun (t : State) o => t.wr (clPage n) o 0) s

/-- A write of CL_CTRL. -/
def State.clCtrlWrite (s : State) (n : Nat) (v : Word) : State :=
  let s1 := if CL_CTRL_CLR_CNT.get v = 1 then s.clClrCnt n else s
  if CL_CTRL_RETRAIN.get v = 1 then s1.clRetrain n else s1

/-- CL_RETRAIN. -/
def execClRetrain (who : Initiator) (pitch : Pitch) (s : State) : Out :=
  .next (s.write who (clPage pitch.val) CL_CTRL fun t => t.clRetrain pitch.val)
/-- CL_CLR_CNT. -/
def execClClrCnt (who : Initiator) (pitch : Pitch) (s : State) : Out :=
  .next (s.write who (clPage pitch.val) CL_CTRL fun t => t.clClrCnt pitch.val)

/-! ### Inbound frames (R225, R226, R241, R242, R245) -/

/-- What the card quad hands the engine of channel `c` for a good frame (R223, R226, R228). -/
def State.clReport (v : Nat) (base : Int) (n : Nat) (s : State) (c : Nat) : State :=
  let f := v / 2 ^ (6 * c) % 64
  let x := s.chan n c
  let level := nbit f 5
  let edge := nbit f 4
  let glitch := edge && decide (x.lvl = some level)
  let r : Rep := { level := level, edge := edge, glitch := glitch, fine := f % 16, base := base }
  (if glitch then s.inc (clPage n) CL_CNT_GLITCH_COUNT else s).clHand n c r

/-- SELECTED of a good frame (R245, R247). -/
def State.clSelected (s : State) (n : Nat) (sel : Bool) : State :=
  let p := clPage n
  if s.fb p CL_STATUS_SEL_THIS = sel then s
  else
    let s1 := (s.fs p CL_STATUS_SEL_THIS (bit sel)).raise p EV_CL_SELECT_CHANGE
    s1.setCard n { s1.card n with hello := 2, safeAge := some 0, statSeen := false }

/-- A bad inbound frame (R241, R242); `lost` where the lane lost symbol lock or its elastic buffer in it. -/
def State.clBad (s : State) (n : Nat) (lost : Bool) : State :=
  let p := clPage n
  let s1 := (s.inc p CL_CNT_BAD_COUNT).raise p EV_CL_FRAME_ERR
  let x := s1.card n
  let s3 := s1.setCard n { x with badRun := x.badRun + 1, farRun := 0, rxPos := (x.rxPos + 1) % 64
                                  judged := x.judged.put x.rxPos (s.clBase n, false) (0, false) }
  let s4 := if s.clState n = 5 then s3.clGaps n (s.clBase n) else s3
  if lost || decide (4 ≤ x.badRun + 1) then s4.clLost n else s4

/-- A good inbound frame (R241, R242). -/
def State.clGood (s : State) (n : Nat) (bs : List Byte) : State :=
  let p := clPage n
  let x := s.card n
  let rxOk := nbit (leAt bs 8 1) 7
  let far := if rxOk then 0 else x.farRun + 1
  let s1 := if rxOk then s else (s.inc p CL_CNT_FAR_COUNT).raise p EV_CL_FRAME_ERR
  let s2 := s1.setCard n { x with badRun := 0, farRun := far, rxPos := (x.rxPos + 1) % 64
                                  judged := x.judged.put x.rxPos (s.clBase n, true) (0, false) }
  let s3 := s2.clSelected n (nbit (leAt bs 8 1) 6)
  if 4 ≤ far then (if s.clState n = 5 then s3.clGaps n (s.clBase n) else s3).clLost n
  else if s.clState n = 5 then (List.range 8).foldl (State.clReport (leAt bs 1 6) (s.clBase n) n) s3
  else s3

/-- CARD_FRAME_RECEIVED (R225, R241). -/
def execCardFrameReceived (pitch : Pitch) (bytes : List Byte) (mark : CardEnd) (s : State) : Out :=
  if bytes.length ≠ 10 then .fault .malformed
  else .next (
    let n := pitch.val
    if s.clState n < 4 then s
    else
      let pos := (s.card n).rxPos
      let ok := decide (mark = .clean) && decide (bytes.head? = some (if pos = 0 then k285 else k281)) && clCrcOk bytes &&
        decide (leAt bytes 8 1 % 64 = pos)
      let s1 := s.clMarks n mark
      if ok then s1.clGood n bytes else s1.clBad n (decide (mark = .unlock) || decide (mark = .elastic)))

/-! ### Outbound frames (R222, R223, R228, R229) -/

/-- A training frame is sent (R233); after the one with FCNT 255 that carries LOOPED, superframes begin, in ROLLCALL (R231). -/
def State.clSendTraining (s : State) (n : Nat) : State :=
  let p := clPage n
  let x := s.card n
  let st := bit (s.fb p CL_LSTAT_LOCKED) + 2 * bit x.looped
  let bs := clFrame k285 [0xCA, BitVec.ofNat 8 st, BitVec.ofNat 8 x.fcnt, 0x4A, 0xB5, 0x4A, 0xB5, 0x4A]
  let s1 := s.setCard n { x with tx := bs, fcnt := (x.fcnt + 1) % 256 }
  if s.clState n = 3 ∧ x.looped ∧ x.fcnt = 255 then
    (s1.fs p CL_STATUS_STATE 4).clSuper n
  else s1

/-- The outputs of a channel for the frame whose output interval starts at `base` (R223, R228, R229): the change that falls due, the
latest where there are two. An engine in mode OFF sends 0, but for a line that a SYNC engine drives (R252, R269). -/
def State.clField (base : Int) (n : Nat) (a : State × Nat) (c : Nat) : State × Nat :=
  let s := a.1
  let x := s.chan n c
  let fine (p : Place) : Int := (p.at0 - base + 80) / nsU
  let due := x.due.filter fun p => decide (fine p < 16)
  let rest := x.due.filter fun p => decide (¬ fine p < 16)
  let last := due.foldl (fun (b : Option Place) p => match b with
    | none => some p
    | some q => if q.at0 ≤ p.at0 then some p else some q) none
  let off := decide (s.enMode (s.enOf n c) = 0) && !s.secondOfPair n c
  let (l, e, k) := match last with
    | some p => (p.level, p.en, if p.level = x.outLvl ∧ p.en = x.outEn then 0 else (max 0 (fine p)).toNat)
    | none => (x.outLvl, x.outEn, 0)
  let (l, e, k) := if off then (false, false, 0) else (l, e, k)
  (s.setChan n c { x with outLvl := l, outEn := e, due := rest }, a.2 + (32 * bit l + 16 * bit e + k) * 2 ^ (6 * c))

/-- A frame of a superframe is sent (R222). -/
def State.clSendFrame (s : State) (n : Nat) : State :=
  let p := clPage n
  let x := s.card n
  let on := decide (s.clState n = 5)
  let active := on && s.serves n
  let valid := on && s.running (ecPage n)
  let (s1, v) := if on then (List.range 8).foldl (State.clField (s.now + s.delayU n) n) (s, 0) else (s, 0)
  let ctrl := 128 * bit active + 64 * bit valid + x.txPos
  let body := leBytes v 6 ++ [x.block.getD x.txPos 0, BitVec.ofNat 8 ctrl]
  let s2 := (s1.fs p CL_STATUS_TX_ACTIVE (bit active)).fs p CL_STATUS_TX_OUT_VALID (bit valid)
  s2.setCard n { s2.card n with tx := clFrame (if x.txPos = 0 then k285 else k281) body, txPos := (x.txPos + 1) % 64
                                sentAt := x.sentAt.put x.txPos s.now 0 }

/-- CARD_FRAME_SEND (R222). -/
def execCardFrameSend (pitch : Pitch) (s : State) : Out :=
  .next (
    let n := pitch.val
    if s.clState n < 2 then s
    else if s.clState n < 4 then s.clSendTraining n
    else s.clSendFrame n)

/-! ### Inbound sideband blocks (R236-R240) -/

/-- The identity of the card (R240), and the load of its roll call (R239). -/
def State.clIdentity (s : State) (n : Nat) (bs : List Byte) : State :=
  let p := clPage n
  let lo := BitVec.ofNat 32 (leAt bs 2 4)
  let hi := BitVec.ofNat 32 (leAt bs 6 4)
  let known := s.fb p CL_STATUS_ID_VALID
  let same := decide (s.rd p CL_SN_LO = lo) && decide (s.rd p CL_SN_HI = hi)
  let s1 := if !known then
      ((((s.fs p CL_STATUS_ID_VALID 1).raise p EV_CL_CARD_NEW).portBack (portCluster n) true).restartCluster n).ttRestart n
    else if same then s.portBack (portCluster n) true
    else (((s.raise p EV_CL_CARD_NEW).portBack (portCluster n) false).restartCluster n).ttRestart n
  let s2 := (((s1.wr p CL_SN_LO lo).wr p CL_SN_HI hi).fs p CL_CARD_TYPE (leAt bs 10 2)).fs p CL_CARD_FW (leAt bs 12 2)
  let s3 := s2.fs p CL_CARD_STAT_FITTED (leAt bs 14 1)
  ((s3.fs p CL_STATUS_CAP_TWIN (leAt bs 15 1 % 2)).fs p CL_STATUS_CAP_RELAY (leAt bs 15 1 / 2 % 2)).fs p CL_STATUS_CARD_LANE
    (leAt bs 16 1 % 2)

/-- The link enters ACTIVE (R231, R239); PBUS engines make their turnaround test (R293). -/
def State.clActive (s : State) (n : Nat) (bs : List Byte) : State :=
  let p := clPage n
  let s0 := if s.running 0x01C then { s with scan := { s.scan with gaps := s.scan.gaps ++ [(n, s.now)] } } else s
  let s1 := (s0.fs p CL_STATUS_STATE 5).raise p EV_CL_LINK_UP
  let s2 := s1.setCard n { s1.card n with hello := 2, sf := 0, drift := 0 }
  let s3 := (List.range 8).foldl (fun (t : State) c => t.dueLost n c) s2
  (List.range 8).foldl (fun (t : State) c => t.pbTurn n c) (s3.clIdentity n bs)

/-- A ROLL_CALL block (R239): the second of two alike is checked. -/
def State.clRollCall (s : State) (n : Nat) (bs : List Byte) : State :=
  let p := clPage n
  let x := s.card n
  let body := (bs.drop 2).take 60
  if s.clState n ≠ 4 then s
  else if x.roll ≠ body then s.setCard n { x with roll := body }
  else if leAt bs 17 1 ≠ 1 then s.clHeld n 4
  else if s.fg p CL_EXPECT_TYPE ≠ 0 ∧ s.fg p CL_EXPECT_TYPE ≠ leAt bs 10 2 then s.clHeld n 3
  else s.clActive n bs

/-- A STATUS block (R238, R247). -/
def State.clStatusBlock (s : State) (n : Nat) (bs : List Byte) : State :=
  let p := clPage n
  let f := leAt bs 2 1
  let s1 := ((s.fs p CL_CARD_STAT_LLT (leAt bs 3 1)).fs p CL_CARD_STAT_SAFE_LEVEL (leAt bs 4 1)).fs p CL_CARD_STAT_SAFE_EN (leAt bs 5 1)
  let s2 := ((s1.fs p CL_CARD_STAT_PWR_THIS (f / 4 % 2)).fs p CL_CARD_STAT_PWR_OTHER (f / 8 % 2)).setCard n
    { s1.card n with statSeen := true }
  let rose := !s.fb p CL_STATUS_CARD_SAFE && nbit f 0
  (s2.fs p CL_STATUS_CARD_SAFE (f % 2)).raiseIf rose p EV_CL_SAFE_ENTERED

/-- RL_STATUS (R505). -/
def State.clRelayStatus (s : State) (n : Nat) (bs : List Byte) : State :=
  s.setCard n { s.card n with rlState := leAt bs 2 1, rlNext := leAt bs 3 4 }

/-- SIDEBAND_BLOCK_RECEIVED (R236, R237). -/
def execSidebandBlockReceived (pitch : Pitch) (bytes : List Byte) (anyBad : Bool) (s : State) : Out :=
  if bytes.length ≠ 64 then .fault .malformed
  else .next (
    let n := pitch.val
    let ty := leAt bytes 0 1
    if s.clState n < 4 then s
    else if anyBad ∨ leAt bytes 62 2 ≠ crc16 (bytes.take 62) ∨ ¬ (ty ≤ 2 ∨ ty = 0x10) then s.inc (clPage n) CL_CNT_BLOCK_COUNT
    else if ty = 1 then s.clRollCall n bytes
    else if ty = 2 then s.clStatusBlock n bytes
    else if ty = 0x10 then s.clRelayStatus n bytes
    else s)

/-- SAFE_MISMATCH (R247): 16 superframes have passed and the card's STATUS since then still shows other values. -/
def execSafeMismatch (pitch : Pitch) (s : State) : Out :=
  .next (
    let n := pitch.val
    let p := clPage n
    let differs := decide (s.fg p CL_CARD_STAT_LLT ≠ s.fg p CL_SAFE_LLT) ||
      decide (s.fg p CL_CARD_STAT_SAFE_LEVEL ≠ s.fg p CL_SAFE_SAFE_LEVEL) ||
      decide (s.fg p CL_CARD_STAT_SAFE_EN ≠ s.fg p CL_SAFE_SAFE_EN)
    match (s.card n).safeAge with
    | some k => if 16 ≤ k ∧ (s.card n).statSeen ∧ differs then (s.setCard n { s.card n with safeAge := none }).raise p EV_CL_SAFE_MISMATCH else s
    | none => s)

end Sys2Proof.Machine
end

