-- ==== Sys2Proof/Machine/Ring.lean ====
section
/-! DEFINITION. The ring protocol's port logic (chapter 5): fences, wrap and unwrap, freezing, guy line, topology, holds, credit
frames and the frames the ring logic originates. -/
namespace Sys2Proof.Machine

/-! ### Frames of the port logic -/

/-- A frame in the merge buffer of a ring port (R135). -/
def State.mergeIn (s : State) (p : RingPort) (f : Frame) : State :=
  s.setPort p.lanes { s.port p.lanes with merge := (s.port p.lanes).merge ++ [f] }

/-- A link-local frame of the port logic (R133). -/
def State.llOut (s : State) (p : LanePort) (f : Frame) : State :=
  s.setPort p { s.port p with ll := (s.port p).ll ++ [f] }

/-- The direction a ring port sends in (R122). -/
def sendDir : RingPort → Dir
  | .east => .east | .west => .west

/-! ### Fences (R150, R541) -/

/-- A fence of a class. -/
def State.fence (s : State) (p : RingPort) (c : Cls) (kind : Nat) : Frame :=
  { hdr := { cls := c, mtype := 0x3F, dir := (sendDir p), dst := 127, src := s.hubId,
             arg := s.ring.fseq ||| (kind <<< 16) } }

/-- A frame of the ring logic on its way into a queue of its port through the port's core port (R541). -/
def State.logicOut (s : State) (p : RingPort) (c : Cls) (f : Frame) : State :=
  s.stage p.core { frame := f, route := .logic (4 * p.core + c.code) }

/-- A fence put directly in the port's queue of its class; while the core stops it waits with the other frames. -/
def State.fenceQueue (p : RingPort) (kind : Nat) (s : State) (c : Cls) : State :=
  if s.coreAdmits then s.placeDirect p.core (4 * p.core + c.code) (s.fence p c kind) else s.logicOut p c (s.fence p c kind)

/-- The four fences put on one port: directly in the port's queues, but that of class E of a wrap or an unwrap in the merge buffer
(R541). -/
def State.fencesOn (s : State) (p : RingPort) (kind : Nat) : State :=
  creditClasses.foldl (State.fenceQueue p kind) (if kind = 3 then State.fenceQueue p kind s .E else s.mergeIn p (s.fence p .E kind))

/-- The ring logic originates TOPO, FENCE and RESET frames: not in ridge-only mode, in a bare start (R541) or in a segment of one (R153). -/
def State.originates (s : State) : Bool := !s.ridgeOnly && !s.bare && s.ringUp

/-- One fence set on the ports named. -/
def State.fences (s : State) (ports : List RingPort) (kind : Nat) : State :=
  if !s.originates then s
  else
    let s1 := ports.foldl (fun t p => t.fencesOn p kind) s
    { s1 with ring := { s1.ring with fseq := (s1.ring.fseq + 1) % 65536 } }

/-! ### Wrap and unwrap (R147-R149), freezing (R154) -/

/-- The header of the frame of a queue entry. -/
def State.entHdr (s : State) (e : QEnt) : Hdr := Hdr.ofBytes (cellBytes (s.cell e.cell) 12)

/-- One unstarted entry of port `p` moved to the same class's queue of the other port (R148). -/
def State.moveEnt (p : RingPort) (c : Nat) (s : State) (e : QEnt) : State :=
  let h := (s.entHdr e).turns e.acct e.moved
  if h.ll then (s.inc p.other.page RP_LL_DROP_COUNT).endCopy e
  else if (h.turn e.acct).isNone then (s.dropLoop p.other).endCopy e
  else s.linkEnt (4 * p.other.core + c) { e with moved := e.moved + 1 }

/-- One frame of port `p`'s merge buffer moved to the other port's, turned; a link-local one, which a hub in ridge-only mode was passing,
is discarded (R148). -/
def State.moveMerged (p : RingPort) (s : State) (f : Frame) : State :=
  if f.hdr.ll then s.inc p.other.page RP_LL_DROP_COUNT
  else match f.hdr.turn true with
    | some h => s.mergeIn p.other { f with hdr := h }
    | none => s.dropLoop p.other

/-- The frames queued for `p` move to the other port behind its fences, in order; a copy in progress starts again there. -/
def State.moveQueues (s : State) (p : RingPort) : State :=
  let s0 := if s.portActive p.lanes then s else s.setEg p.core none
  let s1 := (List.range 4).foldl (fun (t : State) c =>
    let gone := t.unstarted (4 * p.core + c)
    gone.foldl (State.moveEnt p c)
      (t.setQue (4 * p.core + c) { t.que (4 * p.core + c) with ents := t.startedEnts (4 * p.core + c) })) s0
  let merged := (s1.port p.lanes).merge
  let s2 := s1.setPort p.lanes { s1.port p.lanes with merge := [], ll := if s1.portActive p.lanes then (s1.port p.lanes).ll else [] }
  merged.foldl (State.moveMerged p) s2

/-- Port `p` wraps (R147, R148). -/
def State.wrap (s : State) (p : RingPort) : State :=
  if s.wrapped p then s
  else
    let s1 := (s.fs p.page RP_NEIGHBOUR_WRAPPED 1).fs p.page RP_NEIGHBOUR_FROZEN 0
    let s2 := s1.setPort p.lanes { s1.port p.lanes with grace := 0 }
    ((s2.fences [p.other] 1).moveQueues p).raise p.page EV_RP_WRAP_START

/-- Port `p` may wrap (R147). -/
def State.mayWrap (s : State) (p : RingPort) : Bool := s.fb 0x00A RC_CTRL_WRAP_EN && s.portActive p.other.lanes

/-- The queues of a ring port freeze (R154). -/
def State.freezeRing (s : State) (p : RingPort) : State :=
  (s.fs p.page RP_NEIGHBOUR_FROZEN 1).setPort p.lanes { s.port p.lanes with grace := 1 }

/-- The frames of a frozen ring port flushed and counted in RP_FLUSHED. -/
def State.flushRing (s : State) (p : RingPort) : State :=
  let (s1, n) := (List.range 4).foldl (fun (t : State × Nat) c =>
    let (u, k) := t.1.flushQueue (4 * p.core + c)
    (u, t.2 + k)) (s, 0)
  s1.addSat p.page RP_FLUSHED_COUNT n

/-- Entries pushed to the queues of a port that stays lost beyond its grace interval are removed at the next packet boundary (R154,
R212). -/
def State.sweep (s : State) : State :=
  [RingPort.east, .west].foldl (fun t p =>
    if t.fb p.page RP_NEIGHBOUR_FROZEN && decide ((t.port p.lanes).grace = 2) then t.flushRing p else t) s.staleSweep

/-- A ring port leaves ACTIVE: its neighbour is DOWN, and it wraps, or its queues freeze. -/
def State.ringLeft (s : State) (p : RingPort) : State :=
  let s1 := (s.fs p.page RP_NEIGHBOUR_STATE 0).setEg p.core none
  let s2 := if s1.wrapped p then s1 else if s1.mayWrap p then s1.wrap p else s1.freezeRing p
  s2.twinWatch

/-- The freeze of a ring port ends as its link returns (R154). -/
def State.thawRing (s : State) (p : RingPort) : State :=
  if !s.fb p.page RP_NEIGHBOUR_FROZEN then s
  else
    let s1 := if (s.port p.lanes).grace = 2 then s.flushRing p
      else if s.fb p.page LN_STATUS_PARTNER_NEW then (s.flushRing p).raise p.page EV_RP_GRACE_FLUSH else s
    (s1.fs p.page RP_NEIGHBOUR_FROZEN 0).setPort p.lanes { s1.port p.lanes with grace := 0 }

/-- Wrapping has become possible: a port frozen within its grace interval wraps, and its frames move (R154). -/
def State.wrapFrozen (s : State) (p : RingPort) : State :=
  if s.fb p.page RP_NEIGHBOUR_FROZEN && decide ((s.port p.lanes).grace = 1) && s.mayWrap p then s.wrap p else s

/-- A ring port enters ACTIVE: SENT and LIMIT are 0 and the INIT exchange is due (R136, R137), the neighbour is AWAITING
(R144), a freeze ends (R154), and the other port may now wrap (R154). -/
def State.ringEntered (s : State) (p : RingPort) : State :=
  let s1 := creditClasses.foldl (fun t c => t.setCr p.lanes c { t.cr p.lanes c with sent := 0, limit := 0 }) s
  let s2 := s1.creditInit p.lanes
  let s3 := s2.setPort p.lanes { s2.port p.lanes with initDue := true, ll := [], merge := [] }
  let s4 := ((s3.fs p.page RP_NEIGHBOUR_STATE 4).fs p.page RP_NEIGHBOUR_GUY_VALID 0).thawRing p
  (s4.wrapFrozen p.other).twinWatch

/-- UNWRAP (R149): fences on both ports, then the port's own direction again. -/
def execUnwrap (port : RingPort) (s : State) : Out :=
  .next (
    if s.wrapped port && s.fb 0x00A RC_CTRL_UNWRAP_EN && s.portActive port.lanes &&
        (decide (s.fg port.page RP_NEIGHBOUR_STATE = 1) || decide (s.fg port.page RP_NEIGHBOUR_STATE = 2)) then
      ((s.fences [port, port.other] 2).fs port.page RP_NEIGHBOUR_WRAPPED 0).raise port.page EV_RP_WRAP_END
    else s)

/-- RING_GRACE_EXPIRED (R154): the first time with GRACE_FLUSH; while the port stays out, what was queued since is flushed. -/
def execRingGraceExpired (port : RingPort) (s : State) : Out :=
  .next (
    if !s.fb port.page RP_NEIGHBOUR_FROZEN then s
    else if (s.port port.lanes).grace = 1 then
      let s1 := (s.flushRing port).raise port.page EV_RP_GRACE_FLUSH
      s1.setPort port.lanes { s1.port port.lanes with grace := 2 }
    else s.flushRing port)

/-! ### Ridge path (R132, R140) -/

/-- A frame onto the ridge path or the turn loop of port `o`, counted at its receiving port. A port that is not ACTIVE sends nothing. -/
def State.ridge (s : State) (p o : RingPort) (f : Frame) : State :=
  if s.portActive o.lanes then (s.mergeIn o f).inc p.page RP_RIDGE_COUNT else s

/-- A link-local frame that passes a hub in ridge-only mode (R140): LANE_CTRL, and one whose port is wrapped, is discarded. One that was
closed as bad is forwarded until it stops, and counts nothing else. -/
def State.llPass (s : State) (p : RingPort) (f : Frame) : State :=
  let o := dirPort f.hdr.dir
  if f.hdr.mtype = 0x03 ∨ s.wrapped o = true then (if f.bad then s else s.inc p.page RP_LL_DROP_COUNT) else s.ridge p o f

/-! ### Guy line (R143, R144) -/

/-- A GUY frame received on a port. One from this hub itself does not count. -/
def State.guyIn (s : State) (p : RingPort) (src : Nat) : State :=
  if s.isSelf src || !s.portActive p.lanes then s
  else
    let x := s.port p.lanes
    let changed := x.guyEver && decide (s.fg p.page RP_NEIGHBOUR_GUY_HUB ≠ src)
    let first := !s.fb p.page RP_NEIGHBOUR_GUY_VALID
    let s1 := s.raiseIf changed p.page EV_RP_NEIGHBOUR_CHANGED
    let s2 := if changed && !first then
        let t := s1.creditInit p.lanes
        t.setPort p.lanes { t.port p.lanes with initDue := true }
      else s1
    let s3 := s2.setPort p.lanes { s2.port p.lanes with guyEver := true }
    let linked := decide (s3.fg p.page LN_PARTNER_HUB % 128 = src)
    (((s3.fs p.page RP_NEIGHBOUR_GUY_HUB src).fs p.page RP_NEIGHBOUR_GUY_VALID 1).fs p.page RP_NEIGHBOUR_STATE
      (if linked then 1 else 2)).twinWatch

/-- The direction in which a frame received on a ring port travels (R122). -/
def recvDir : RingPort → Dir
  | .east => .west | .west => .east

/-- GUY_RECEIVED (R144). The sequence number and the sender's wrap bits change nothing at the receiver; a hub in ridge-only mode reads the
frame and passes it on (R140). -/
def execGuyReceived (port : RingPort) (src : Fin 128) (seq : Byte) (wrapFlags : Byte) (s : State) : Out :=
  .next (
    let t := s.guyIn port src.val
    if s.ridgeOnly && s.portActive port.lanes then
      t.llPass port { hdr := { cls := .M, mtype := 0x01, dir := recvDir port, dst := 127, ll := true, src := src.val,
                               arg := seq.toNat ||| (wrapFlags.toNat % 4 <<< 16) } }
    else t)

/-- GUY_SILENCE_TIMEOUT (R144, R147). -/
def execGuySilenceTimeout (port : RingPort) (s : State) : Out :=
  .next (
    if !s.portActive port.lanes || decide (s.fg port.page RP_NEIGHBOUR_STATE = 3) then s
    else
      let s1 := (s.fs port.page RP_NEIGHBOUR_STATE 3).raise port.page EV_RP_GUY_LOST
      (if s1.mayWrap port then s1.wrap port else s1).twinWatch)

/-- GUY_SEND (R143). -/
def execGuySend (port : RingPort) (s : State) : Out :=
  .next (
    if !s.portActive port.lanes || s.ridgeOnly then s
    else
      let x := s.port port.lanes
      let h : Hdr := { cls := .M, mtype := 0x01, dir := (sendDir port), dst := 127, ll := true, src := s.hubId,
                       arg := x.guySeq ||| (bit (s.wrapped .east) <<< 16) ||| (bit (s.wrapped .west) <<< 17) }
      (s.setPort port.lanes { x with guySeq := (x.guySeq + 1) % 65536 }).llOut port.lanes { hdr := h })

/-! ### Credit frames (R137) -/

/-- A CREDIT frame received. -/
def State.creditIn (s : State) (p : RingPort) (h : Hdr) : State :=
  let init := nbit h.stream 0
  let one (t : State) (c : Cls) (lo : Nat) : State :=
    t.setCr p.lanes c { t.cr p.lanes c with limit := h.argBits lo 16, sent := if init then 0 else (t.cr p.lanes c).sent }
  one (one (one s .T 0) .B 16) .M 32

/-- A link-local class M header of a type. -/
def Hdr.isLL (h : Hdr) (mtype : Nat) : Bool :=
  decide (h.cls = .M) && decide (h.mtype = mtype) && h.ll && decide (h.dst = 127)

/-- CREDIT_RECEIVED (R137); a hub in ridge-only mode passes the frame on (R140). -/
def execCreditReceived (port : RingPort) (bytes : List Byte) (s : State) : Out :=
  .next (
    if !(Hdr.ofBytes bytes).isLL 0x02 || !s.portActive port.lanes then s
    else if s.ridgeOnly then s.llPass port { hdr := Hdr.ofBytes bytes }
    else s.creditIn port (Hdr.ofBytes bytes))

/-- CREDIT_SEND (R137): the LIMIT of each class, with INIT when an initialisation is due. -/
def execCreditSend (port : RingPort) (s : State) : Out :=
  .next (
    if !s.portActive port.lanes || s.ridgeOnly then s
    else
      let x := s.port port.lanes
      let lim (c : Cls) : Nat := (s.cr port.lanes c).lim
      let h : Hdr := { cls := .M, mtype := 0x02, dir := (sendDir port), dst := 127, ll := true, src := s.hubId,
                       stream := bit x.initDue, arg := lim .T ||| (lim .B <<< 16) ||| (lim .M <<< 32) }
      (s.setPort port.lanes { x with initDue := false }).llOut port.lanes { hdr := h })

/-- AVAIL of the classes (RP_CREDIT_AVAIL). -/
def State.creditAvail (s : State) (p : RingPort) : Word :=
  RP_CREDIT_AVAIL_AVAIL_T.set (min 4095 (s.cr p.lanes .T).avail)
    (RP_CREDIT_AVAIL_AVAIL_B.set (min 4095 (s.cr p.lanes .B).avail)
      (RP_CREDIT_AVAIL_AVAIL_M.set (min 255 (s.cr p.lanes .M).avail) 0))

/-- The hub leaves ridge-only mode: the INIT exchange on both ports (R137). -/
def State.leaveRidgeOnly (s : State) : State :=
  [RingPort.east, RingPort.west].foldl (fun t p =>
    let u := t.creditInit p.lanes
    u.setPort p.lanes { u.port p.lanes with initDue := true }) s

/-! ### Topology (R145, R146) -/

/-- Some entry of the pin table is shortest. -/
def State.anyShortest (s : State) : Bool := (List.range 256).any fun i => decide (s.pinEntry i = 2)

/-- Fences of a pin change where a topology change altered a direction that a shortest entry gives (R142, R150). -/
def State.topoFences (s before : State) (changed : List Nat) : State :=
  if s.anyShortest && changed.any (fun h => decide (s.shortest h ≠ before.shortest h)) then s.fences [.east, .west] 3 else s

/-- A TOPO frame's effect on the table (R146). -/
def State.topoIn (s : State) (src : Nat) (dir : Dir) (wraps hops flags : Nat) : State :=
  if s.isSelf src || decide (120 ≤ src) then s
  else
    let d := 4 * src
    let s1 := (s.fs 0x00A (RC_TOPO_LIVE.at d) 1).fs 0x00A (RC_TOPO_AGE.at d) 0
    let s2 := s1.fs 0x00A (RC_TOPO_REDUNDANT.at d) (bit (nbit flags 2))
    let s3 := if wraps ≠ 0 then s2
      else if dir = .west then s2.fs 0x00A (RC_TOPO_DIST_E.at d) (min 255 (hops + 1))
      else s2.fs 0x00A (RC_TOPO_DIST_W.at d) (min 255 (hops + 1))
    s3.topoFences s [src]

/-- TOPO_RECEIVED (R146). -/
def execTopoReceived (_port : RingPort) (src : Fin 128) (dir : Dir) (wraps : Nat) (hops : Nat) (flags : Byte) (s : State) : Out :=
  .next (s.topoIn src.val dir wraps hops flags.toNat)

/-- One entry ages a period. -/
def State.ageEntry (s : State) (h : Nat) : State :=
  let d := 4 * h
  let a := min 255 (s.fg 0x00A (RC_TOPO_AGE.at d) + 1)
  let s1 := s.fs 0x00A (RC_TOPO_AGE.at d) a
  if s.fb 0x00A (RC_TOPO_LIVE.at d) && decide (s.fg 0x00A RC_TOPO_CFG_AGE ≤ a) then
    (((s1.fs 0x00A (RC_TOPO_LIVE.at d) 0).fs 0x00A (RC_TOPO_DIST_E.at d) 0xFF).fs 0x00A (RC_TOPO_DIST_W.at d) 0xFF).raise
      0x00A EV_RC_TOPO_CHANGE
  else s1

/-- TOPO_AGE_TICK (R146). -/
def execTopoAgeTick (s : State) : Out :=
  .next (((List.range 120).foldl State.ageEntry s).topoFences s (List.range 120))

/-- The TOPO frame of a direction (R145), on the port R148 gives. -/
def State.topoFrame (s : State) (d : Dir) : State :=
  let (p, d', w) := s.originEgress d
  let flags := bit (s.wrapped .east) ||| (bit (s.wrapped .west) <<< 1) ||| (bit s.redundant <<< 2)
  s.logicOut p .M
    { hdr := { cls := .M, mtype := 0x08, dir := d', dst := 127, src := s.hubId, wraps := w },
      payload := [0, BitVec.ofNat 8 flags, 0, 0, 0, 0, 0, 0] }

/-- TOPO_SEND (R145). -/
def execTopoSend (s : State) : Out :=
  .next (if s.originates then (s.topoFrame .west).topoFrame .east else s)

/-- RC_TOPO word of a hub: its own entry is live with distances 0 (R146). -/
def State.topoWord (s : State) (h : Nat) : Word :=
  if s.isSelf h then 0x00000003#32 ||| (if s.redundant then 4#32 else 0#32) else s.rd 0x00A (RC_TOPO + 4 * h)

/-- RC_STATE. -/
def State.rcState (s : State) : Word :=
  RC_STATE_LIVE_COUNT.set (((List.range 120).filter fun h => s.live h).length)
    (RC_STATE_RIDGE_ONLY.set (bit s.ridgeOnly) (RC_STATE_WRAP_W.set (bit (s.wrapped .west))
      (RC_STATE_WRAP_E.set (bit (s.wrapped .east)) 0)))

/-! ### Holds (R151) -/

def flowKey (c : Cls) (src : Nat) : Nat := c.code * 128 + src
def State.flow (s : State) (k : Nat) : Flow := s.ring.flows.getD k {}
def State.setFlow (s : State) (k : Nat) (f : Flow) : State :=
  { s with ring := { s.ring with flows := s.ring.flows.put k f {} } }

/-- A consumed frame of (class, source) on port `p`: the hold it falls under, if one is open or opens (R151). Each frame consumed on the
recorded port starts the wait for a fence anew. -/
def State.holdFor (s : State) (p : RingPort) (c : Cls) (src : Nat) : State × Option Nat :=
  let k := flowKey c src
  let f := s.flow k
  if f.port = none then (s.setFlow k { port := some p }, none)
  else if f.port = some p then (s.setFlow k { f with fence := false }, none)
  else match f.hold with
    | some n => (s, some n)
    | none =>
      if f.fence || !s.fb 0x00A RC_CTRL_HOLD_EN then (s.setFlow k { port := some p }, none)
      else
        let n := s.ring.holdNo
        let s1 := { s with ring := { s.ring with holdNo := n + 1 } }
        ((s1.setFlow k { f with hold := some n }).inc 0x00A RC_CNT_HOLD_COUNT, some n)

/-- A hold closed: its frames may be delivered, and the other port is recorded. -/
def Flow.closed (f : Flow) : Flow := { port := f.port.map RingPort.other, fence := false, hold := none }

/-- Held frames stand behind all others of their queue (R142, R151): the queues after a hold has closed. -/
def State.regroup (s : State) : State :=
  let ques : Map Que := s.core.ques.map fun e => (e.1, { e.2 with ents := s.heldLast e.2.ents })
  { s with core := { s.core with ques := ques } }

/-- One flow at a class-c fence on port `p`. -/
def Flow.fenced (p : RingPort) (f : Flow) : Flow :=
  if f.port ≠ some p then f else if f.hold.isSome then f.closed else { f with fence := true }

/-- A fence of class `c` arrives on port `p`: it closes the class's holds whose recorded port it is (R151). -/
def State.fenceIn (s : State) (p : RingPort) (c : Cls) : State :=
  let flows : Map Flow := s.ring.flows.map fun e => (e.1, if e.1 / 128 = c.code then e.2.fenced p else e.2)
  ({ s with ring := { s.ring with flows := flows } } : State).regroup

/-- FENCE_RECEIVED (R151). Its source, sequence number and kind change nothing. -/
def execFenceReceived (port : RingPort) (cls : Cls) (_src : Fin 128) (_fseq : Nat) (_kind : Nat) (s : State) : Out :=
  .next (s.fenceIn port cls)

/-- HOLD_EXPIRED (R151). -/
def execHoldExpired (cls : Cls) (src : Fin 128) (s : State) : Out :=
  .next (
    let k := flowKey cls src.val
    let f := s.flow k
    if f.hold.isNone then s
    else ((s.setFlow k f.closed).regroup.inc 0x00A RC_CNT_HOLD_EXP_COUNT).raise 0x00A EV_RC_HOLD_EXPIRED)

/-! ### RESET frames and counters -/

/-- The credential of the RESET frames sent (R155). -/
def State.sendCred (s : State) : List Byte :=
  leBytes (s.rd 0x00A RC_RST_CRED).toNat 4 ++ leBytes (s.rd 0x00A (RC_RST_CRED + 4)).toNat 4 ++
  leBytes (s.rd 0x00A (RC_RST_CRED + 8)).toNat 4 ++ leBytes (s.rd 0x00A (RC_RST_CRED + 12)).toNat 4

/-- A write of RC_RST_SEND (R155, R541). -/
def State.rstSend (s : State) (v : Word) : State :=
  let dst := RC_RST_SEND_DST.get v
  if RC_RST_SEND_GO.get v = 0 || !s.originates then s
  else if !s.live dst then s.noDest
  else
    let (p, h) := s.resolve { cls := .M, mtype := 0x09, dst := dst, src := s.hubId }
    s.logicOut p .M { hdr := h, payload := s.sendCred }

/-- RESET_SEND (R155). -/
def execResetSend (who : Initiator) (v : Word) (s : State) : Out :=
  .next (s.write who 0x00A RC_RST_SEND fun t => t.rstSend v)

/-- Every counter from 0x120 to 0x15C of a ring port cleared (R157), and RP_PD_CNT. -/
def State.rpClrCnt (s : State) (p : RingPort) : State :=
  (List.range 16).foldl (fun (t : State) i => t.wr p.page (0x120 + 4 * i) 0) (s.wr p.page RP_PD_CNT 0)

/-- RP_CLR_CNT (R157). -/
def execRpClrCnt (who : Initiator) (port : RingPort) (s : State) : Out :=
  .next (s.write who port.page RP_CTRL fun t => t.rpClrCnt port)

/-! ### Frames on the lanes -/

/-- A frame put on the lanes of a ring port: counted in RP_TX_FRAMES, or in RP_TRUNC where its ingress copy stopped (R135). -/
def State.sent (s : State) (p : LanePort) (f : Frame) : State :=
  let s1 := s.setPort p { s.port p with tx := f.bytes }
  if p = .twin then s1 else s1.inc p.page (if f.bad then RP_TRUNC_COUNT else RP_TX_FRAMES_COUNT)

/-- The first frame of a port's merge buffer sent, its start column at instant `t`. -/
def State.sendMerge (s : State) (p : LanePort) (t : Int) : State :=
  match (s.port p).merge with
  | f :: fs => (s.setPort p { s.port p with merge := fs }).sent p (f.depart s.self t)
  | [] => s

/-- The first link-local frame of a port's logic sent. -/
def State.sendLL (s : State) (p : LanePort) : State :=
  match (s.port p).ll with
  | f :: fs => (s.setPort p { s.port p with ll := fs }).sent p f
  | [] => s

/-- The credit of its class lets the head of a ring port's queue start (R136), with the reserve of R138 for a frame that does
not pass through; a fence needs its own cost only. -/
def State.hasCredit (s : State) (p : RingPort) (c : Cls) : Bool :=
  match (s.que (4 * p.core + c.code)).ents with
  | [] => false
  | e :: _ =>
    let cost := s.frameCells e.cell
    let reserve := if e.acct || decide ((s.entHdr e).mtype = 0x3F) then 0 else if c = .M then 4 else 22
    decide (cost + reserve ≤ (s.cr p.lanes c).avail)

/-- The head of a ring port's class queue may start. -/
def State.canStart (s : State) (p : RingPort) (c : Cls) : Bool :=
  (s.eligibleHead (4 * p.core + c.code)).isSome && (decide (c = .E) || s.hasCredit p c)

/-- The class a ring egress takes from the core: E, then M, then T and B by weighted round robin (R133); with the counts of
the round after it. -/
def State.ringPick (s : State) (p : RingPort) : Option (Cls × Nat × Nat) :=
  let x := s.port p.lanes
  let tw := s.fg 0x00A RC_ARB_T_WEIGHT
  let bw := s.fg 0x00A RC_ARB_B_WEIGHT
  let t := s.canStart p .T
  let b := s.canStart p .B
  if s.canStart p .E then some (.E, x.rrT, x.rrB)
  else if s.canStart p .M then some (.M, x.rrT, x.rrB)
  else if t && (decide (x.rrT < tw) || !b) then some (.T, min tw (x.rrT + 1), x.rrB)
  else if b then (if x.rrB + 1 < bw then some (.B, x.rrT, x.rrB + 1) else some (.B, 0, 0))
  else none

/-- A ring egress at a frame boundary (R133), at instant `at0`. -/
def State.ringStart (s : State) (p : RingPort) (at0 : Int) : State :=
  let x := s.port p.lanes
  if !x.merge.isEmpty then s.sendMerge p.lanes at0
  else if !x.ll.isEmpty then s.sendLL p.lanes
  else if s.portFrozen p.core || s.portDown p.core || !s.coreAdmits then s
  else match s.ringPick p with
    | none => s
    | some (c, t, b) => (s.setPort p.lanes { x with rrT := t, rrB := b }).startCopy p.core (4 * p.core + c.code) at0

/-- MERGE_PREEMPT (R134): a core frame of class T, B or M being sent ends with K30.7 and stays at the head of its queue; the
ridge frame starts. -/
def execMergePreempt (port : RingPort) (sub : Fin 26) (s : State) : Out :=
  .next (match s.eg port.core with
    | none => s
    | some g =>
      if g.q % 4 = 0 ∨ g.bad ∨ (s.port port.lanes).merge.isEmpty then s
      else ((s.setEg port.core none).inc port.page RP_PREEMPT_COUNT).sendMerge port.lanes (s.stampAt sub.val))

end Sys2Proof.Machine
end

