-- ==== Sys2Proof/Machine/Lanes.lean ====
section
/-! DEFINITION. Ring and twin lanes (chapter 4): bring-up, capability exchange, lane maps, clock compensation, lane faults and
spare-lane substitution. -/
namespace Sys2Proof.Machine

/-! ### Lanes of a port (R102) -/

/-- The physical lanes of a port, and the logical lanes it needs. -/
def laneCount : LanePort → Nat
  | .twin => 2 | _ => 5
def logicalCount : LanePort → Nat
  | .twin => 2 | _ => 4

/-- Fields of lane `l`. -/
def laneFld (f : Fld) (l : Nat) : Fld := f.at (16 * l)

/-- Receive lane `l` is locked. -/
def State.laneLocked (s : State) (p : LanePort) (l : Nat) : Bool := nbit (s.fg p.page LN_STATUS_LOCKED) l
def State.setLocked (s : State) (p : LanePort) (l : Nat) (v : Bool) : State :=
  (s.fs p.page LN_STATUS_LOCKED (setBit (s.fg p.page LN_STATUS_LOCKED) l v)).fs p.page (laneFld LN_LSTAT_LOCKED l) (bit v)

/-- The locked lanes of a port. -/
def State.lockedLanes (s : State) (p : LanePort) : List Nat := (List.range (laneCount p)).filter fun l => s.laneLocked p l

/-- The physical lane of logical lane `j` in a map word, and the map with it changed. -/
def mapLane (m j : Nat) : Nat := (m >>> (3 * j)) % 8
def setMapLane (m j l : Nat) : Nat := ((⟨0, 3 * j, 3⟩ : Fld).set l (BitVec.ofNat 32 m)).toNat
/-- The logical lane that a physical lane carries in a map. -/
def logicalOf (n m l : Nat) : Option Nat := (List.range n).find? fun j => decide (mapLane m j = l)

def State.rxMap (s : State) (p : LanePort) : Nat := s.fg p.page LN_MAP_RX
def State.txMap (s : State) (p : LanePort) : Nat := s.fg p.page LN_MAP_TX
/-- Receive lane `l` carries a logical lane. -/
def State.rxInUse (s : State) (p : LanePort) (l : Nat) : Bool :=
  s.portActive p && (logicalOf (logicalCount p) (s.rxMap p) l).isSome

/-! ### State changes (R108) -/

/-- A port begins training: every lane acquires lock again. -/
def State.toTrain (s : State) (p : LanePort) : State :=
  let s1 := (List.range (laneCount p)).foldl (fun (t : State) l => t.setLocked p l false) (s.fs p.page LN_STATUS_PSTATE 1)
  s1.setPort p { s1.port p with lockCnt := [], rxOk := false, cols := [], aligned := 0, partnerRx := 0, partnerCap := 0,
                                capPrev := [], capOk := false, mismatch := false, entering := false }

/-- The twin link leaves ACTIVE (R212, R399, R408). -/
def State.twinLeft (s : State) : State :=
  let s1 := ({ s with tw := { s.tw with guy := false } }.setEg 2 none).fs 0x024 TW_STATUS_MSTATE 0
  ((s1.setPort .twin { s1.port .twin with ll := [], merge := [] }).portLost 2).twinWatch

/-- A ring port that leaves ACTIVE clears VALID and forgets its samples (R336). -/
def State.pdForget (s : State) (p : LanePort) : State :=
  if p = .twin then s
  else (s.fs p.page RP_PD_DELAY_VALID 0).setPort p { s.port p with pdHist := [], pdRej := 0, pdSent := none }

/-- The core port of a lane port. -/
def laneCore : LanePort → Nat
  | .east => 0 | .west => 1 | .twin => 2

/-- A port leaves ACTIVE for PSTATE `ps` (R108): the frame being received is closed as bad (R135), LINK_DOWN, the substitution in progress forgotten, and what the ring or the
twin link does then. -/
def State.leaveActive (s : State) (p : LanePort) (ps : Nat) : State :=
  let s0 := s.closeArriving (laneCore p)
  let s1 := if ps = 0 then (s0.toTrain p).fs p.page LN_STATUS_PSTATE 0 else s0.toTrain p
  let s2 := s1.setPort p { s1.port p with rxSub := none, txSub := none, urgent := false, tries := 0, offReq := false, tscode := [] }
  let s3 := ((s2.fs p.page LN_SPARE_STATUS_RX_OP 0).raise p.page EV_LN_LINK_DOWN).pdForget p
  match p with
  | .east => s3.ringLeft .east
  | .west => s3.ringLeft .west
  | .twin => s3.twinLeft

/-- A port goes to TRAIN from any state but OFF. -/
def State.retrain (s : State) (p : LanePort) : State :=
  if s.pstate p = 0 then s else if s.portActive p then s.leaveActive p 1 else s.toTrain p

/-- A timeout's exit to TRAIN counts TRAIN_FAIL. -/
def State.trainFail (s : State) (p : LanePort) : State := (s.toTrain p).inc p.page LN_PORT_CNT_TRAIN_FAIL

/-- DESKEW_TIMEOUT (R108). -/
def execDeskewTimeout (port : LanePort) (s : State) : Out := .next (if s.pstate port = 2 then s.trainFail port else s)

/-- CAPX_TIMEOUT (R108). -/
def execCapxTimeout (port : LanePort) (s : State) : Out := .next (if s.pstate port = 3 then s.trainFail port else s)

/-- FORCE_RETRAIN (R108). -/
def execForceRetrain (who : Initiator) (port : LanePort) (s : State) : Out :=
  .next (s.write who port.page LN_CTRL fun t => t.retrain port)

/-- The port's frame in progress is over, and a PORT_EN of 0 takes it to OFF (R108). -/
def State.portOff (s : State) (p : LanePort) : State :=
  if s.portActive p then s.leaveActive p 0
  else (s.toTrain p).fs p.page LN_STATUS_PSTATE 0

/-- The island of a lane port is released with PORT_EN 1: TRAIN (R108). -/
def State.lanesReleased (s : State) (p : LanePort) : State :=
  if s.fb p.page LN_CTRL_PORT_EN && decide (s.pstate p = 0) then s.toTrain p else s

/-- The island of a lane port. -/
def laneIsland : LanePort → Nat
  | .east => 0 | .west => 1 | .twin => 4

/-- PORT_EN takes a value (R108). -/
def State.setPortEn (s : State) (p : LanePort) (en : Bool) : State :=
  if en then
    let s1 := s.setPort p { s.port p with offReq := false }
    if s1.islUp (laneIsland p) then s1.lanesReleased p else s1
  else if s.portActive p && (s.eg (laneCore p)).isSome then s.setPort p { s.port p with offReq := true }
  else s.portOff p

/-- Every counter of the lanes cleared (R118). -/
def State.lnClrCnt (s : State) (p : LanePort) : State :=
  (List.range (laneCount p)).foldl (fun (t : State) l => t.wr p.page (LN_CNT + 16 * l) 0) (s.wr p.page LN_PORT_CNT 0)

/-- A write of LN_CTRL: its plain fields, then CLR_CNT, FORCE_RETRAIN and a change of PORT_EN. -/
def State.lnCtrlWrite (s : State) (p : LanePort) (v : Word) : State :=
  let en := LN_CTRL_PORT_EN.get v = 1
  let was := s.fb p.page LN_CTRL_PORT_EN
  let s1 := s.plain false p.page LN_CTRL v
  let s2 := if LN_CTRL_CLR_CNT.get v = 1 then s1.lnClrCnt p else s1
  let s3 := if LN_CTRL_FORCE_RETRAIN.get v = 1 then s2.retrain p else s2
  if en = was then s3 else s3.setPortEn p en

/-- PORT_EN_WRITE (R108). -/
def execPortEnWrite (who : Initiator) (port : LanePort) (v : Word) (s : State) : Out :=
  .next (s.write who port.page LN_CTRL fun t => t.lnCtrlWrite port v)

/-- LN_CLR_CNT (R118). -/
def execLnClrCnt (who : Initiator) (port : LanePort) (s : State) : Out :=
  .next (s.write who port.page LN_CTRL fun t => t.lnClrCnt port)

/-- `n` code violations of receive lane `l` counted, with their instant (R118). -/
def State.countCv (s : State) (p : LanePort) (l n : Nat) : State :=
  if n = 0 then s
  else
    let x := s.port p
    let at0 := s.inWindow (s.fg p.page LN_ERR_CFG_WINDOW) (x.cvAt.getD l []) ++ List.replicate n s.lc
    (s.setPort p { x with cvAt := x.cvAt.put l at0 [] }).addSat p.page (laneFld LN_CNT_CV l) n

/-- What a frame's ending adds to the counts (R118): a code violation of the lane that showed it, and a deskew error. -/
def State.endingMarks (s : State) (p : LanePort) : Ending → State
  | .symbol l part =>
    if laneCount p ≤ l.val ∨ s.portActive p = false then s
    else
      let t := s.countCv p l.val 1
      if part then t.inc p.page LN_PORT_CNT_DESKEW_ERR else t
  | _ => s

/-! ### Capability exchange (R110-R113) -/

/-- The PORT_KIND of a port, and the one it accepts (R110, R111). -/
def portKind : LanePort → Nat
  | .east => 0x01 | .west => 0x02 | .twin => 0x03
def pairKind : LanePort → Nat
  | .east => 0x02 | .west => 0x01 | .twin => 0x03

/-- The locked lanes as bits. -/
def State.lockedBits (s : State) (p : LanePort) : Nat := (s.lockedLanes p).foldl (fun n l => setBit n l true) 0

/-- The capability block that a port in CAPX sends (R110). -/
def State.capBlock (s : State) (p : LanePort) : List Byte :=
  let body := [1, BitVec.ofNat 8 (portKind p), BitVec.ofNat 8 (s.hubId + 128 * bit s.hubValid),
      BitVec.ofNat 8 (bit s.redundant + 2 * bit s.ridgeOnly)] ++
    leBytes (s.gs.fuseHeld.getD 0 0).toNat 4 ++ leBytes (s.gs.fuseHeld.getD 1 0).toNat 4 ++ [BitVec.ofNat 8 (s.lockedBits p), 0]
  body ++ leBytes (crc16 body) 2

/-- R111 is met: a block accepted, no other pairing seen, and CAP_OK or TSCODE 3 seen in 8 consecutive TS. The port then sends TSCODE 3. -/
def State.capDone (s : State) (p : LanePort) : State :=
  let x := s.port p
  if x.capOk && !x.mismatch && decide (8 ≤ x.partnerCap) then s.setPort p { x with entering := true } else s

/-- A block accepted (R111, R113). -/
def State.acceptCap (s : State) (p : LanePort) (bs : List Byte) : State :=
  let serial := leAt bs 4 8
  let hub := leAt bs 2 1
  let x := s.port p
  let fresh := match x.partner with
    | some q => decide (q ≠ (serial, hub))
    | none => false
  let s1 := s.setPort p { x with capOk := true, capPrev := bs, partner := some (serial, hub), txLocked := leAt bs 12 1 % 32 }
  let s2 := ((s1.fs p.page LN_PARTNER_FLAGS (leAt bs 3 1)).fs p.page LN_PARTNER_KIND (leAt bs 1 1)).fs p.page LN_PARTNER_HUB hub
  let s3 := (s2.wr p.page LN_PARTNER_SN_LO (BitVec.ofNat 32 serial)).wr p.page LN_PARTNER_SN_HI (BitVec.ofNat 32 (serial / 2 ^ 32))
  let s4 := if fresh then s3.fs p.page LN_STATUS_PARTNER_NEW 1 else s3
  if p = .twin then s4.fs 0x024 TW_STATUS_PRESENT 1 else s4

/-- CAP_BLOCK_RECEIVED (R106, R111). A block of another length, with a wrong CRC or not ended with K29.7 breaks the run of identical
blocks; one of a pairing that is not permitted keeps the port in CAPX until its timeout. -/
def execCapBlockReceived (port : LanePort) (bytes : List Byte) (ending : Ending) (s : State) : Out :=
  .next (
    if s.pstate port ≠ 3 then s
    else
      let x := s.port port
      if bytes.length ≠ 16 ∨ ending ≠ .good ∨ crc16 (bytes.take 14) ≠ leAt bytes 14 2 then s.setPort port { x with capPrev := [] }
      else if leAt bytes 1 1 ≠ pairKind port then
        (s.setPort port { x with capPrev := [], mismatch := true, entering := false }).raise port.page EV_LN_CAP_MISMATCH
      else if x.capPrev = bytes ∧ !x.capOk then (s.acceptCap port bytes).capDone port
      else if x.capOk then s
      else s.setPort port { x with capPrev := bytes })

/-! ### Lane maps (R112) -/

/-- A map of the first `n` lanes of a list. -/
def mapOf (n : Nat) (ls : List Nat) : Nat := ((List.range n).map fun j => ls.getD j 0 * 8 ^ j).sum

/-- The receive lanes that may be mapped, and the transmit lanes. -/
def State.rxLanes (s : State) (p : LanePort) : List Nat :=
  (s.lockedLanes p).filter fun l => !nbit (s.fg p.page LN_SPARE_STATUS_RX_RETIRED) l && !s.fb p.page (laneFld LN_LSTAT_FAULT l)
def State.txLanes (s : State) (p : LanePort) : List Nat :=
  (List.range (laneCount p)).filter fun l =>
    nbit (s.port p).txLocked l && !nbit (s.fg p.page LN_SPARE_STATUS_TX_RETIRED) l

/-- ROLE of every receive lane (LN_LSTAT). -/
def State.setRoles (s : State) (p : LanePort) : State :=
  (List.range (laneCount p)).foldl (fun (t : State) l =>
    t.fs p.page (laneFld LN_LSTAT_ROLE l)
      (if nbit (t.fg p.page LN_SPARE_STATUS_RX_RETIRED) l then 2
       else if (logicalOf (logicalCount p) (t.rxMap p) l).isSome then 0
       else if (t.port p).rxSpare = some l then 1 else 3)) s

/-- RX_SPARE_OK and TX_SPARE_OK follow the spares. -/
def State.setSpareOk (s : State) (p : LanePort) : State :=
  (s.fs p.page LN_SPARE_STATUS_RX_SPARE_OK (bit (s.port p).rxSpare.isSome)).fs p.page LN_SPARE_STATUS_TX_SPARE_OK
    (bit (s.port p).txSpare.isSome)

/-- PORT_ENTER_ACTIVE (R111, R112): the TS of TSCODE 3 have been sent. -/
def execPortEnterActive (port : LanePort) (s : State) : Out :=
  .next (
    let x := s.port port
    let n := logicalCount port
    let rx := s.rxLanes port
    let tx := s.txLanes port
    if s.pstate port ≠ 3 ∨ !x.entering ∨ rx.length < n ∨ tx.length < n then s
    else
      let s1 := ((s.fs port.page LN_STATUS_PSTATE 4).fs port.page LN_MAP_RX (mapOf n rx)).fs port.page LN_MAP_TX (mapOf n tx)
      let s2 := s1.setPort port { x with rxSpare := (rx.drop n).head?, txSpare := (tx.drop n).head?, tscode := [] }
      let s3 := ((s2.setRoles port).setSpareOk port).raise port.page EV_LN_LINK_UP
      match port with
      | .east => s3.ringEntered .east
      | .west => s3.ringEntered .west
      | .twin => (s3.portBack 2 (!s3.fb 0x024 LN_STATUS_PARTNER_NEW)).twinWatch)

/-! ### Lane control messages (R120, R121) -/

/-- A LANE_CTRL frame. A hub in ridge-only mode sends none (R121). -/
def State.laneCtrl (s : State) (p : RingPort) (op lane cause seq : Nat) : State :=
  if s.ridgeOnly then s
  else s.llOut p.lanes {
    hdr := { cls := .M, mtype := 0x03, dir := sendDir p, dst := 127, ll := true, src := s.hubId }
    payload := leBytes (op + 256 * lane + 65536 * cause + 16777216 * seq) 8 }

/-- A substitution refused or timed out at R. -/
def State.endSub (s : State) (p : LanePort) (op : Nat) : State :=
  ((s.fs p.page LN_SPARE_STATUS_RX_OP op).setPort p { s.port p with rxSub := none, urgent := false, tries := 0 }).raise p.page
    EV_LN_SPARE_REFUSED

/-- A planned substitution of receive lane `l` requested (R120). One on a lane not in use, with no usable spare, in ridge-only
mode or beside another substitution ends refused. -/
def State.requestSub (s : State) (p : RingPort) (l cause : Nat) : State :=
  let q := p.lanes
  let x := s.port q
  if x.rxSub.isSome then s.raise q.page EV_LN_SPARE_REFUSED
  else if !s.rxInUse q l || x.rxSpare.isNone || s.ridgeOnly then s.endSub q 4
  else
    let seq := (x.subSeq + 1) % 256
    ((s.setPort q { x with rxSub := some l, urgent := false, tries := 1, cause := cause, subSeq := seq }).fs q.page
      LN_SPARE_STATUS_RX_OP 1).laneCtrl p 0x01 l cause seq

/-- R moves logical lane from `l` to the spare and marks `l` retired (R120 steps 4 and 5). -/
def State.rxSwitch (s : State) (p : LanePort) (l sp : Nat) : State :=
  match logicalOf (logicalCount p) (s.rxMap p) l with
  | none => s
  | some k =>
    let s0 := s.wearSpared (if (s.port p).cause = 1 ∧ !(s.port p).urgent then 3 else 0)
    let s1 := s0.fs p.page LN_MAP_RX (setMapLane (s.rxMap p) k sp)
    let s2 := s1.fs p.page LN_SPARE_STATUS_RX_RETIRED (setBit (s1.fg p.page LN_SPARE_STATUS_RX_RETIRED) l true)
    let s3 := s2.setPort p { s2.port p with rxSub := none, rxSpare := none, urgent := false, tries := 0 }
    ((((s3.fs p.page LN_SPARE_STATUS_RX_OP 3).setState p.page PAGE_STATE_SPARED true).setRoles p).setSpareOk p).raise p.page
      EV_LN_SPARE_DONE

/-- R switches at once or after the comparison, and sends CONFIRM (R120 step 4, R121). -/
def State.rxConfirm (s : State) (p : RingPort) : State :=
  match (s.port p.lanes).rxSub, (s.port p.lanes).rxSpare with
  | some l, some sp => (s.rxSwitch p.lanes l sp).laneCtrl p 0x03 l (s.port p.lanes).cause (s.port p.lanes).subSeq
  | _, _ => s

/-- T moves the logical lane of `l` to the spare and retires `l`. -/
def State.txSwitch (s : State) (p : LanePort) (l sp : Nat) : State :=
  match logicalOf (logicalCount p) (s.txMap p) l with
  | none => s
  | some k =>
    let s1 := s.fs p.page LN_MAP_TX (setMapLane (s.txMap p) k sp)
    let s2 := s1.fs p.page LN_SPARE_STATUS_TX_RETIRED (setBit (s1.fg p.page LN_SPARE_STATUS_TX_RETIRED) l true)
    let x := s2.port p
    let s3 := s2.setPort p { x with txSub := none, txSpare := none, tscode := x.tscode.erase sp }
    ((s3.setState p.page PAGE_STATE_SPARED true).setSpareOk p).raise p.page EV_LN_SPARE_DONE

/-- The ring port of a lane port. -/
def ringOf : LanePort → Option RingPort
  | .east => some .east | .west => some .west | .twin => none

/-- LANE_CTRL acts on a ring port in ACTIVE, outside ridge-only mode. -/
def State.onRing (s : State) (p : LanePort) (f : RingPort → State) : State :=
  match ringOf p with
  | some r => if s.portActive p && !s.ridgeOnly then f r else s
  | none => s

/-- T receives a REQUEST (R120 steps 2 and 3). It refuses one with no unused transmit spare, beside another substitution, on a port that is
not ACTIVE, or for a lane that carries no logical lane (see the log). -/
def State.ctrlRequest (s : State) (p : LanePort) (body : List Byte) : State :=
  match ringOf p with
  | none => s
  | some r =>
    let l := leAt body 1 1
    let x := s.port p
    let refuse := s.laneCtrl r 0x05 l (leAt body 2 1) (leAt body 3 1)
    if s.ridgeOnly then s
    else match x.txSpare, x.txSub with
      | some sp, none =>
        if !s.portActive p || (logicalOf (logicalCount p) (s.txMap p) l).isNone then refuse
        else s.setPort p { x with txSub := some l, tscode := x.tscode.put sp 5 0 }
      | _, _ => refuse

/-- T receives an URGENT (R120): TSCODE 6 on the spare, and the logical lane goes on it. With no unused spare, or for a lane that carries
no logical lane, it refuses (see the log). -/
def State.ctrlUrgent (s : State) (p : LanePort) (body : List Byte) : State :=
  s.onRing p fun r =>
    let l := leAt body 1 1
    match (s.port p).txSpare with
    | some sp =>
      if (logicalOf (logicalCount p) (s.txMap p) l).isNone then s.laneCtrl r 0x05 l (leAt body 2 1) (leAt body 3 1)
      else
        let t := s.txSwitch p l sp
        t.setPort p { t.port p with tscode := (t.port p).tscode.put sp 6 0 }
    | none => s.laneCtrl r 0x05 l (leAt body 2 1) (leAt body 3 1)

/-- T receives CONFIRM (R120 step 5). -/
def State.ctrlConfirm (s : State) (p : LanePort) (body : List Byte) : State :=
  s.onRing p fun _ =>
    match (s.port p).txSub, (s.port p).txSpare with
    | some l, some sp => if l = leAt body 1 1 then s.txSwitch p l sp else s
    | _, _ => s

/-- T receives CANCEL (R121): bridging stops, and the spare is retired. -/
def State.ctrlCancel (s : State) (p : LanePort) : State :=
  s.onRing p fun _ =>
    let x := s.port p
    match x.txSub, x.txSpare with
    | some _, some sp =>
      let s1 := s.fs p.page LN_SPARE_STATUS_TX_RETIRED (setBit (s.fg p.page LN_SPARE_STATUS_TX_RETIRED) sp true)
      (s1.setPort p { x with txSub := none, txSpare := none, tscode := x.tscode.erase sp }).setSpareOk p
    | _, _ => s

/-- R receives REFUSE (R120); an urgent substitution that is not possible takes the port down (R117). -/
def State.ctrlRefuse (s : State) (p : LanePort) : State :=
  s.onRing p fun _ =>
    let x := s.port p
    if x.rxSub.isNone then s
    else if x.urgent then (s.endSub p 4).leaveActive p 1 else s.endSub p 4

/-- LANE_CTRL_REQUEST_RECEIVED (R120). -/
def execLaneCtrlRequestReceived (port : LanePort) (body : List Byte) (s : State) : Out := .next (s.ctrlRequest port body)
/-- LANE_CTRL_URGENT_RECEIVED (R120). -/
def execLaneCtrlUrgentReceived (port : LanePort) (body : List Byte) (s : State) : Out := .next (s.ctrlUrgent port body)
/-- LANE_CTRL_CONFIRM_RECEIVED (R120). -/
def execLaneCtrlConfirmReceived (port : LanePort) (body : List Byte) (s : State) : Out := .next (s.ctrlConfirm port body)
/-- LANE_CTRL_CANCEL_RECEIVED (R121). -/
def execLaneCtrlCancelReceived (port : LanePort) (_body : List Byte) (s : State) : Out := .next (s.ctrlCancel port)
/-- LANE_CTRL_REFUSE_RECEIVED (R120). -/
def execLaneCtrlRefuseReceived (port : LanePort) (_body : List Byte) (s : State) : Out := .next (s.ctrlRefuse port)

/-- A LANE_CTRL payload handled by its OP. -/
def State.laneCtrlIn (s : State) (p : RingPort) (body : List Byte) : State :=
  let op := leAt body 0 1
  if op = 1 then s.ctrlRequest p.lanes body else if op = 2 then s.ctrlUrgent p.lanes body
  else if op = 3 then s.ctrlConfirm p.lanes body else if op = 4 then s.ctrlCancel p.lanes
  else if op = 5 then s.ctrlRefuse p.lanes else s

/-- A write of LN_SPARE_CMD (R120). The twin page ignores it. -/
def State.lnSpareWrite (s : State) (p : LanePort) (v : Word) : State :=
  match ringOf p with
  | some r => if LN_SPARE_CMD_GO.get v = 1 then s.requestSub r (LN_SPARE_CMD_LANE.get v) 0 else s
  | none => s

/-- LN_SPARE_CMD (R120). -/
def execLnSpareCmd (who : Initiator) (port : LanePort) (v : Word) (s : State) : Out :=
  .next (s.write who port.page LN_SPARE_CMD fun t => t.lnSpareWrite port v)

/-- A lane's code violations have reached THRESH within WINDOW (R118); a THRESH of 0 disables this. -/
def State.laneWorn (s : State) (p : LanePort) (l : Nat) : Bool :=
  decide (s.fg p.page LN_ERR_CFG_THRESH ≠ 0) &&
  decide (s.fg p.page LN_ERR_CFG_THRESH ≤ (s.inWindow (s.fg p.page LN_ERR_CFG_WINDOW) ((s.port p).cvAt.getD l [])).length)

/-- LANE_ERR_THRESHOLD (R118): with ERR_SPARE_EN 1 and THRESH reached a planned substitution of a lane in use. -/
def execLaneErrThreshold (port : LanePort) (lane : Fin 5) (s : State) : Out :=
  .next (s.onRing port fun r =>
    if s.fb port.page LN_CTRL_ERR_SPARE_EN && s.laneWorn port lane.val && s.rxInUse port lane.val then
      s.requestSub r lane.val 2
    else s)

/-- SPARE_REQUEST_TIMEOUT (R121). -/
def execSpareRequestTimeout (port : LanePort) (s : State) : Out :=
  .next (s.onRing port fun r =>
    let x := s.port port
    match x.rxSub with
    | none => s
    | some l =>
      if s.fg port.page LN_SPARE_STATUS_RX_OP ≠ 1 ∨ x.urgent then s
      else if 3 ≤ x.tries then s.endSub port 5
      else (s.setPort port { x with tries := x.tries + 1 }).laneCtrl r 0x01 l x.cause x.subSeq)

/-- SPARE_COMPARE_DONE (R120 step 4). -/
def execSpareCompareDone (port : LanePort) (s : State) : Out :=
  .next (s.onRing port fun r => if s.fg port.page LN_SPARE_STATUS_RX_OP = 2 then s.rxConfirm r else s)

/-- URGENT_SUBST_TIMEOUT (R117). -/
def execUrgentSubstTimeout (port : LanePort) (s : State) : Out :=
  .next (if s.portActive port && (s.port port).urgent then s.leaveActive port 1 else s)

/-! ### Training sets (R107, R108) -/

/-- The KIND of a port's training sets. -/
def tsKind : LanePort → Nat
  | .twin => 2 | _ => 1

/-- The TSCODE a port sends on a physical lane (R107, R111, R120): in ACTIVE on retired lanes, on the spare, and once where a lane begins
to carry a logical lane; none elsewhere and in OFF. -/
def State.tsCode (s : State) (p : LanePort) (lane : Nat) : Option Nat :=
  let x := s.port p
  let ps := s.pstate p
  if laneCount p ≤ lane then none
  else if ps = 1 then some 0
  else if ps = 2 then some 1
  else if ps = 3 then some (if x.entering then 3 else 2)
  else if ps ≠ 4 then none
  else if nbit (s.fg p.page LN_SPARE_STATUS_TX_RETIRED) lane then some 7
  else if x.tscode.getD lane 0 ≠ 0 then some (x.tscode.getD lane 0)
  else if x.txSpare = some lane then some 4 else none

/-- The TS a port sends on a lane (R107). SEQ counts the TS since LC was 0, one in 4 columns. -/
def State.tsSent (s : State) (p : LanePort) (lane : Nat) : Option (List Byte) :=
  (s.tsCode p lane).map fun c =>
    let x := s.port p
    let b1 := tsKind p * 64 + lane
    let b2 := s.lc / 4 % 8 * 32 + c * 4 + 2 * bit x.rxOk + bit x.capOk
    [0xBC, BitVec.ofNat 8 b1, BitVec.ofNat 8 b2, BitVec.ofNat 8 (b1 ^^^ b2 ^^^ 0xA5)]

/-- A TS is accepted on a lane: K28.5, its own KIND and lane number, a right CHECK (R103, R107). -/
def tsOk (p : LanePort) (lane : Nat) (bs : List Byte) : Bool :=
  decide (bs.length = 4) && decide (leAt bs 0 1 = 0xBC) && decide (leAt bs 1 1 = tsKind p * 64 + lane) &&
  decide (leAt bs 3 1 = leAt bs 1 1 ^^^ leAt bs 2 1 ^^^ 0xA5)

/-- A run of consecutive sightings. -/
def runOf (seen : Bool) (n : Nat) : Nat := if seen then min 255 (n + 1) else 0

/-- Enough lanes are locked for DESKEW. -/
def State.enoughLocked (s : State) (p : LanePort) : Bool := decide (logicalCount p ≤ (s.lockedLanes p).length)

/-- A lane's run of valid TS, and its lock after 32 (R108). -/
def State.tsLock (s : State) (p : LanePort) (lane : Nat) (ok : Bool) : State :=
  let x := s.port p
  let n := runOf ok (x.lockCnt.getD lane 0)
  let s1 := s.setPort p { x with lockCnt := x.lockCnt.put lane n 0 }
  if 32 ≤ n ∧ !s.laneLocked p lane then s1.setLocked p lane true else s1

/-- A locked lane's TS with SEQ `k` joins the column of that SEQ (R108, R109). The column is aligned once every locked lane has shown it;
a lane that shows the fourth TS after one still incomplete gives that column up, and the run of aligned columns is over. -/
def State.tsColumn (s : State) (p : LanePort) (lane k : Nat) : State :=
  let x := s.port p
  let old := (k + 4) % 8
  let late := nbit (x.cols.getD old 0) lane
  let again := nbit (x.cols.getD k 0) lane
  let mask := setBit (if again then 0 else x.cols.getD k 0) lane true
  let full := (s.lockedLanes p).all fun l => nbit mask l
  let run := if late || again then 0 else x.aligned
  let n := if full then min 255 (run + 1) else run
  let cols := (if late then x.cols.put old 0 0 else x.cols).put k (if full then 0 else mask) 0
  s.setPort p { x with cols := cols, aligned := n, rxOk := decide (16 ≤ n) }

/-- A TS of a locked lane in DESKEW: its column, the partner's RX_OK, and the exit to CAPX, whose first capability block is sent (R108,
R110). One that is not valid ends both runs. -/
def State.tsDeskew (s : State) (p : LanePort) (lane st : Nat) (ok : Bool) : State :=
  if !s.laneLocked p lane then s
  else if !ok then s.setPort p { s.port p with aligned := 0, rxOk := false, partnerRx := 0 }
  else
    let s1 := s.tsColumn p lane (st / 32)
    let rx := runOf (nbit st 1) (s1.port p).partnerRx
    let s2 := s1.setPort p { s1.port p with partnerRx := rx }
    if (s1.port p).rxOk && decide (8 ≤ rx) then
      (s2.fs p.page LN_STATUS_PSTATE 3).setPort p
        { s2.port p with capPrev := [], capOk := false, partnerCap := 0, mismatch := false, entering := false, tx := s2.capBlock p }
    else s2

/-- A TS of a locked lane in CAPX: CAP_OK, or TSCODE 3, seen in a row (R111). -/
def State.tsCapx (s : State) (p : LanePort) (lane st : Nat) (ok : Bool) : State :=
  if !s.laneLocked p lane then s
  else
    let x := s.port p
    (s.setPort p { x with partnerCap := runOf (ok && (nbit st 0 || decide (st / 4 % 8 = 3))) x.partnerCap }).capDone p

/-- A TS in ACTIVE, on the spare or a retired lane (R107, R120). -/
def State.tsActive (s : State) (p : LanePort) (lane st : Nat) : State :=
  let code := st / 4 % 8
  let x := s.port p
  if x.rxSpare ≠ some lane then s
  else match x.rxSub with
    | none => s
    | some l =>
      if code = 5 ∧ !x.urgent ∧ s.fg p.page LN_SPARE_STATUS_RX_OP = 1 then s.fs p.page LN_SPARE_STATUS_RX_OP 2
      else if code = 6 ∧ x.urgent then s.rxSwitch p l lane
      else s

/-- A valid TS on a lane shows a signal; in TRAIN a pair that comes inverted is corrected and reported (R103). -/
def State.tsMarks (s : State) (p : LanePort) (lane : Nat) (inv : Bool) : State :=
  let s1 := s.fs p.page (laneFld LN_LSTAT_LOS lane) 0
  if s.pstate p = 1 then s1.fs p.page (laneFld LN_LSTAT_INV lane) (bit inv) else s1

/-- TS_RECEIVED (R103, R107): `inv` tells that the pair comes inverted, which only TRAIN corrects, and `cv` the code violations in the
set. A TS is valid without a violation. -/
def execTsReceived (port : LanePort) (lane : Fin 5) (inv : Bool) (cv : Fin 5) (bytes : List Byte) (s : State) : Out :=
  .next (
    if laneCount port ≤ lane.val then s
    else
      let ps := s.pstate port
      let straight := decide (ps = 1) || (inv == s.fb port.page (laneFld LN_LSTAT_INV lane.val))
      let ok := tsOk port lane.val bytes && decide (cv.val = 0) && straight
      let s1 := s.countCv port lane.val cv.val
      let s2 := if ok then s1.tsMarks port lane.val inv else s1
      let st := leAt bytes 2 1
      if ps = 1 then
        let s3 := s2.tsLock port lane.val ok
        if s3.enoughLocked port then s3.fs port.page LN_STATUS_PSTATE 2 else s3
      else if ps = 2 then (s2.tsLock port lane.val ok).tsDeskew port lane.val st ok
      else if ps = 3 then s2.tsCapx port lane.val st ok
      else if ps = 4 ∧ ok then s2.tsActive port lane.val st
      else s2)

/-! ### Clock compensation (R114, R115) -/

/-- CC_SEND (R114), at a point outside every frame. -/
def execCcSend (port : LanePort) (s : State) : Out :=
  .next (
    if s.pstate port = 0 || (s.eg (laneCore port)).isSome then s
    else s.setPort port { s.port port with ccTx := (s.port port).ccTx + 1 })

/-- An elastic buffer that holds `fill` columns at a /CC/ (R115): one deleted above 10, one inserted below 6. -/
def State.elastic (s : State) (p : LanePort) (fill : Nat) : State :=
  if 10 < fill then s.addWrap p.page LN_CC_CNT_DELETED 1
  else if fill < 6 then s.addWrap p.page LN_CC_CNT_INSERTED 1 else s

/-- CC_RECEIVED (R115, R118): `fills` are the columns that the lanes' buffers hold; before DESKEW each lane is adjusted by itself, from
DESKEW on all of them by the fullest. `deskew` and `cv` are the deskew errors and, by lane, the code violations since the last /CC/,
outside frames and TS. -/
def execCcReceived (port : LanePort) (fills : List Nat) (deskew : Nat) (cv : List Nat) (s : State) : Out :=
  .next (
    if s.pstate port = 0 then s
    else
      let s1 := (List.range (laneCount port)).foldl (fun (t : State) l => t.countCv port l (cv.getD l 0)) s
      let s2 := if s.portActive port then s1.addSat port.page LN_PORT_CNT_DESKEW_ERR deskew else s1
      match fills.take (laneCount port) with
      | [] => s2
      | f :: fs => if s.pstate port = 1 then (f :: fs).foldl (fun (t : State) x => t.elastic port x) s2
        else s2.elastic port (fs.foldl max f))

/-- ELASTIC_ERR (R115): the event, the frame being received closed as bad, and a code violation on every lane. -/
def execElasticErr (port : LanePort) (s : State) : Out :=
  .next (((List.range (laneCount port)).foldl (fun (t : State) l => t.countCv port l 1) (s.closeArriving (laneCore port))).raise port.page
    EV_LN_ELASTIC_ERR)

/-! ### Lane faults (R117, R121) -/

/-- What a fault leaves in the lane's registers. -/
def State.faultMarks (s : State) (p : LanePort) (l : Nat) : LaneCause → State
  | .signal => s.fs p.page (laneFld LN_LSTAT_LOS l) 1
  | .lock => (s.setLocked p l false).inc p.page (laneFld LN_CNT_LOCK_LOSS l)
  | .violations => s.countCv p l 4

/-- The unused spare faults: unusable, SPARE_LOST; a substitution that bridges onto it is cancelled (R121), and one that is only
requested runs out of time. -/
def State.spareLost (s : State) (p : LanePort) (l : Nat) : State :=
  let x := s.port p
  let bridging := decide (s.fg p.page LN_SPARE_STATUS_RX_OP = 2)
  let s1 := (s.fs p.page (laneFld LN_LSTAT_FAULT l) 1).setPort p { x with
    rxSpare := none, rxSub := if bridging then none else x.rxSub, urgent := x.urgent && !bridging }
  let s2 := if bridging then
      (match ringOf p with
       | some r => (s1.laneCtrl r 0x04 (x.rxSub.getD 0) x.cause x.subSeq).fs p.page LN_SPARE_STATUS_RX_OP 6
       | none => s1)
    else s1
  ((s2.setRoles p).setSpareOk p).raise p.page EV_LN_SPARE_LOST

/-- A lane in use faults (R117): the frame being received is closed as bad. A planned substitution that is not bridging the faulted lane
gives way to an urgent one on the same spare (see the log). -/
def State.laneFaultUsed (s : State) (p : LanePort) (l : Nat) : State :=
  let s1 := (s.closeArriving (laneCore p)).raise p.page EV_LN_LANE_FAULT
  let x := s1.port p
  match ringOf p with
  | none => s1.leaveActive p 1
  | some r =>
    if x.rxSub = some l ∧ s1.fg p.page LN_SPARE_STATUS_RX_OP = 2 then s1.rxConfirm r
    else if x.urgent then (if x.rxSub = some l then s1 else s1.leaveActive p 1)
    else if s1.fb p.page LN_CTRL_URGENT_EN && x.rxSpare.isSome && !s1.ridgeOnly then
      let seq := (x.subSeq + 1) % 256
      ((s1.setPort p { x with rxSub := some l, urgent := true, tries := 1, cause := 3, subSeq := seq }).fs p.page
        LN_SPARE_STATUS_RX_OP 1).laneCtrl r 0x02 l 3 seq
    else s1.leaveActive p 1

/-- LANE_FAULT (R117, R121). -/
def execLaneFault (port : LanePort) (lane : Fin 5) (cause : LaneCause) (s : State) : Out :=
  .next (
    if laneCount port ≤ lane.val then s
    else
      let s1 := s.faultMarks port lane.val cause
      if !s1.portActive port then s1
      else if s1.rxInUse port lane.val then s1.laneFaultUsed port lane.val
      else if (s1.port port).rxSpare = some lane.val then s1.spareLost port lane.val
      else s1)

end Sys2Proof.Machine
end

