-- ==== Sys2Proof/Machine/Scan.lean ====
section
/-! DEFINITION. The scan unit (chapter 12): boundaries, the latch, canopy frames in and out, the guard, and its commit check. -/
namespace Sys2Proof.Machine

/-! ### Epochs (R342-R344) -/

/-- 1 ns of service time in the units of `stAt`. -/
def stNsU : Int := timeG * 65536

/-- RUNNING rises: the first boundary and its epoch number (R342). -/
def State.scanStart (s : State) : State :=
  let st := s.stAt s.now
  let ns := st / stNsU
  let s0 := ns + sgn 32 (uns 32 (((s.rd 0x01C SC_START_NS).toNat : Int) - ns))
  let per := s.epochNs
  let least := st + (s.fg 0x01C SC_GUARD_GUARD : Int) * stNsU
  let d := -((s0 * stNsU - least) / stNsU)
  let k : Int := if d ≤ 0 ∨ per = 0 then 0 else (d + per - 1) / per
  let t := s0 + k * per
  let s1 := ((s.fs 0x01C SC_STATUS_WAITING 1).fs 0x01C SC_STATUS_STARTED 0).fs 0x01C SC_STATUS_GUARDING 0
  { s1 with scan := { s1.scan with next := t, bnd := t - per, got := [], gaps := [], late := [], lateWas := [], latchDue := false
                                   first := uns 32 (((s.rd 0x01C SC_START_EPOCH).toNat : Int) + k) } }

/-- A commit of the page at boundary B_n: the next boundary follows by the new PERIOD (R343). -/
def State.scanCommitted (s : State) : State :=
  if s.scanOn then { s with scan := { s.scan with next := s.scan.bnd + s.epochNs } } else s

/-! ### Canopy frames out (R352, R353, R359) -/

/-- The hub may send publications: it is single, or the active hub of its node (R32, R353, R359). -/
def State.publishes (s : State) : Bool := !s.redundant || decide (s.role = roleActive)

/-- One frame of `g` groups from group `m` of an image. -/
def State.canopyFrame (s : State) (img : Image) (mtype dst stream epoch grain m g pub : Nat) (final : Bool) : Frame :=
  { hdr := { cls := .E, mtype := mtype, dst := dst, src := s.hubId, stream := stream, arg := epoch + grain * 2 ^ 32 }
    payload := [BitVec.ofNat 8 g, BitVec.ofNat 8 (bit final), BitVec.ofNat 8 pub, 0] ++
      ((List.range g).map fun i => grpBytes (s.grpNew (grpKey img (m + i)))).flatten }

/-- A range of `len` groups from group `m`, as frames of 5 groups and the rest (R352); a group with an uncorrectable error
closes its frame as bad (R458). -/
def State.sendRange (s : State) (img : Image) (mtype dst stream epoch grain m len pub : Nat) : State :=
  (List.range ((len + 4) / 5)).foldl (fun (t : State) i =>
    let g := min 5 (len - 5 * i)
    let ks := (List.range g).map fun j => t.copyKey (grpKey img (m + 5 * i + j)) false
    let f := s.canopyFrame img mtype dst stream epoch (grain + 40 * i) (m + 5 * i) g pub (len ≤ 5 * i + 5)
    (ks.foldl State.copyRead t).originate portScan { f with bad := ks.any t.copyBad }) s

/-- Publication `k` of epoch `n` (R353); LAST follows as its last frame is sent. -/
def State.publish (n : Nat) (s : State) (k : Nat) : State :=
  let f (x : Fld) : Nat := s.fg 0x01C (x.at (0x10 * k))
  if f SC_PUB_DEST_EN = 0 then s
  else
    s.sendRange .input 0 (f SC_PUB_DEST_DST) (f SC_PUB_DEST_STREAM) n 0 (f SC_PUB_RANGE_FIRST / 8) (f SC_PUB_RANGE_LEN / 8) k

/-- Output publication `k` with release epoch `r` (R359). -/
def State.opublish (r : Nat) (s : State) (k : Nat) : State :=
  let f (x : Fld) : Nat := s.fg 0x01C (x.at (0x10 * k))
  if f SC_OPUB_DEST_EN = 0 then s
  else s.sendRange .output 1 (f SC_OPUB_DEST_DST) (f SC_OPUB_DEST_STREAM) r (f SC_OPUB_RFIRST_RFIRST) (f SC_OPUB_RANGE_FIRST / 8)
    (f SC_OPUB_RANGE_LEN / 8) k

/-- A frame of publication `k` still waiting at the scan port. -/
def isPub (k : Nat) (x : InFrame) : Bool :=
  decide (x.frame.hdr.cls = .E) && decide (x.frame.hdr.mtype = 0) && decide (leAt x.frame.payload 2 1 = k)

/-- A publication not sent in full by the next boundary ends at the frame in progress and counts in SC_CNT_LATE_IN; LAST keeps the one
before it (R353). -/
def State.cutPub (s : State) (k : Nat) : State :=
  let q := s.ingress.getD portScan []
  let x := s.ing portScan
  let mine := decide (x.pub.map (·.1) = some k)
  if q.any (isPub k) || mine then
    let s1 := { s with ingress := s.ingress.put portScan (q.filter fun x => !isPub k x) [] }
    (if mine then s1.setIng portScan { x with pub := none } else s1).inc 0x01C SC_CNT_LATE_IN_COUNT
  else s

/-! ### Boundaries (R344, R346, R355) -/

/-- A subscription settled at the end of epoch `e` (R355). -/
def State.settle (e : Nat) (s : State) (j : Nat) : State :=
  let d := 0x10 * j
  if !s.fb 0x01C (SC_SUB_CFG_EN.at d) then s
  else
    let want := s.fg 0x01C (SC_SUB_RANGE_LEN.at d) / 8
    let have_ := (s.scan.got.filter fun k => decide (k / 4096 = j)).length
    if want ≤ have_ then (s.fs 0x01C (SC_SUB_STAT_FRESH.at d) 1).wr 0x01C (SC_SUB_LAST + d) (BitVec.ofNat 32 e)
    else ((s.fs 0x01C (SC_SUB_STAT_FRESH.at d) 0).inc 0x01C (SC_SUB_STAT_GAPS.at d)).raise 0x01C EV_SC_GAP

/-- The engine of channel `g` = 8p + c, and whether it is the second of a SYNC pair. -/
def State.chanEng (s : State) (g : Nat) : Nat := s.enOf (g / 8) (g % 8)

/-- RUN, MODE and SY_OK of a channel's status grain at the boundary, with bit 0 for a link in ACTIVE (R349). -/
def State.statAt (s : State) (g : Nat) : Nat :=
  let e := s.chanEng g
  let off := s.secondOfPair (g / 8) (g % 8)
  let m := if off then 0 else s.enMode e
  bit (s.fg (clPage (g / 8)) CL_STATUS_STATE = 5) + 2 * bit (s.running e && !off) + 4 * m +
    32 * (if m = 3 then s.fg e SY_LAST_OK else 0)

/-- Writes held in the guard are made as the first writes of the new epoch (R347). -/
def State.heldWrites (s : State) : State :=
  s.scan.held.foldl (fun (t : State) h => t.grpPut h.1 h.2.1 h.2.2) { s with scan := { s.scan with held := [] } }

/-- The scan unit stops (R344). -/
def State.scanStop (s : State) : State :=
  let s1 := { s with scan := { s.scan with latchDue := false }, stopping := s.stopping.filter (· != 0x01C) }
  let s2 := ((s1.fs 0x01C SC_STATUS_STARTED 0).fs 0x01C SC_STATUS_WAITING 0).fs 0x01C SC_STATUS_GUARDING 0
  s2.setState 0x01C PAGE_STATE_RUNNING false

/-- A boundary of the scan unit: the written groups flip, the epoch of the boundary begins, and the subscriptions of the epoch that ended
are settled; at its stop point the unit latches nothing and stops (R342, R344, R346, R355). -/
def State.scanBoundary (s : State) : State :=
  let first := s.fb 0x01C SC_STATUS_WAITING
  let e := if first then s.scan.first else (s.epoch + 1) % 2 ^ 32
  let t := s.scan.next
  let s1 := if first then s else (List.range 8).foldl State.cutPub s
  let s2 := if first then s1 else (List.range 32).foldl (State.settle s.epoch) s1.flip
  let s3 := ((s2.fs 0x01C SC_STATUS_WAITING 0).fs 0x01C SC_STATUS_STARTED 1).fs 0x01C SC_STATUS_GUARDING 0
  let s4 := (s3.wr 0x01C SC_EPOCH (BitVec.ofNat 32 e)).wr 0x01C SC_BOUND_NS (BitVec.ofNat 32 (uns 32 t))
  let s5 := { s4 with scan := { s4.scan with
      bnd := t, next := t + s4.epochNs, got := [], lateWas := s4.scan.late, late := [], latchDue := true
      stat := (List.range 192).foldl (fun (m : Map Nat) g => m.put g (s4.statAt g) 0) [] } }
  let s6 := if s5.stopping.contains 0x01C then s5.scanStop else s5
  s6.heldWrites.raise 0x01C EV_SC_EPOCH

/-! ### The latch (R349, R351) -/

/-- What a latch at `u` takes of a channel: the newest entry no later than it. -/
def histAt (u : Int) (l : List (Int × Nat × Nat)) : Option (Nat × Nat) :=
  (l.reverse.find? fun e => decide (e.1 ≤ u)).map (·.2)

/-- The entries a later latch may still take. -/
def histKeep (u : Int) (l : List (Int × Nat × Nat)) : List (Int × Nat × Nat) :=
  let old := l.filter fun e => decide (e.1 ≤ u)
  (match old.getLast? with
   | some e => [e]
   | none => []) ++ l.filter fun e => decide (u < e.1)

/-- The interval that holds instant `u` had a good report on a pitch (R349). -/
def State.goodAt (s : State) (n : Nat) (u : Int) : Bool :=
  (s.card n).judged.any fun e => e.2.2 && decide (e.2.1 ≤ u) && decide (u < e.2.1 + frameU)

/-- An interval of the epoch that ended at `u` was a gap on a pitch (R349). -/
def State.gapBefore (s : State) (n : Nat) (u : Int) : Bool :=
  s.scan.gaps.any (fun e => decide (e.1 = n) && decide (e.2 < u)) || !nbit (s.scan.stat.getD (8 * n) 0) 0

/-- What an engine's registers show of a channel that has noted nothing: the accepted level with UNSURE and the count, or the sample. -/
def State.grainsNow (s : State) (g m : Nat) : Nat × Nat :=
  let e := s.chanEng g
  if m = 4 then (bit ((s.chan (g / 8) (g % 8)).acc.getD false) + 2 * s.fg e DI_CFG_UNSURE, (s.rd e EN_DI_COUNT).toNat)
  else (s.fg e SY_LAST_SAMPLE, 0)

/-- The input grains of a channel for a latch at `u` (R349), with those it has kept where all that is known came later. -/
def State.latchGrains (s : State) (u : Int) (g : Nat) : List Nat :=
  let st := s.scan.stat.getD g 0
  let m := st / 4 % 8
  let x := s.chan (g / 8) (g % 8)
  let h := if x.hist.isEmpty then some (s.grainsNow g m) else histAt u x.hist
  let link := nbit st 0 && s.goodAt (g / 8) u
  let status := bit link + st / 2 % 32 * 2 + 64 * bit (s.scan.lateWas.contains g) + 128 * bit (s.gapBefore (g / 8) u)
  let old (i : Nat) : Nat := s.grainNew .input (4 * g + i)
  if m = 4 then
    match h with
    | some (l, k) => [l, k % 4096, k / 4096 % 4096, status]
    | none => [old 0, old 1, old 2, status]
  else if m = 3 then
    match h with
    | some (v, _) => [v % 4096, if 13 ≤ s.fg (s.chanEng g) SY_CFG_WIDTH then v / 4096 % 4096 else 0, 0, status]
    | none => [old 0, old 1, 0, status]
  else [0, 0, 0, status]

/-- The 768 input grains written into hidden copies (R351). -/
def State.latchAll (s : State) : State :=
  let u := s.localOf (s.scan.bnd * stNsU)
  let s1 := (List.range 96).foldl (fun (t : State) m =>
    let gs := s.latchGrains u (2 * m) ++ s.latchGrains u (2 * m + 1)
    t.grpPut m allGrains (BitVec.ofNat 96 (ofBase gs))) s
  let s2 := { s1 with scan := { s1.scan with latchDue := false, gaps := s1.scan.gaps.filter fun e => decide (u ≤ e.2) } }
  { s2 with chans := s2.chans.map fun e => (e.1, { e.2 with hist := histKeep u e.2.hist }) }
where
  /-- Grains as a group, grain 0 lowest. -/
  ofBase : List Nat → Nat
    | [] => 0
    | g :: gs => g % 4096 + 4096 * ofBase gs

/-- The publications and the AUTO output publications of the boundary (R353, R359). -/
def State.publishAll (s : State) : State :=
  if !s.publishes then s
  else
    let s1 := (List.range 8).foldl (State.publish s.epoch) s
    ((List.range 32).filter fun k => s.fb 0x01C (SC_OPUB_DEST_AUTO.at (0x10 * k))).foldl (State.opublish ((s.epoch + 1) % 2 ^ 32)) s1

/-! ### The guard and release (R354, R357) -/

/-- A channel's output grain passed to its engine at the cutoff (R357). -/
def State.release (s : State) (g : Nat) : State :=
  let n := g / 8
  let c := g % 8
  let e := s.chanEng g
  let v := s.grainNew .output g
  if s.enMode e ≠ 4 ∨ !s.fb e DI_CFG_OUTSRC ∨ !s.enRuns e then s
  else if s.fg e DI_CFG_OUTMODE = 0 then s.place n c (s.localOf (s.scan.next * stNsU)) (nbit v 0) (nbit v 1)
  else if s.fg e DI_CFG_OUTMODE = 1 then s.setChan n c { s.chan n c with dutyNew := (s.chan n c).dutyNew ++ [(s.scan.next, v)] }
  else s

/-- A late OUTPUT frame marks the channels it covers (R358). -/
def State.lateOut (s : State) (grain g : Nat) : State :=
  let cs := ((List.range (8 * g)).map (grain + ·)).filter fun c => decide (c < 192)
  let s1 := cs.foldl (fun (t : State) c =>
    t.wr 0x01C (SC_LATE + 4 * (c / 32)) (t.rd 0x01C (SC_LATE + 4 * (c / 32)) ||| BitVec.ofNat 32 (1 <<< (c % 32)))) s
  let s2 := { s1 with scan := { s1.scan with late := s1.scan.late ++ cs.filter fun c => !s1.scan.late.contains c } }
  (s2.inc 0x01C SC_CNT_LATE_OUT_COUNT).raise 0x01C EV_SC_LATE_OUT

/-- The output groups read at the cutoff: one with an uncorrectable error acts as a late frame for its channels (R458). -/
def State.guardGroup (s : State) (m : Nat) : State :=
  let ck := s.copyKey (grpKey .output m) false
  let s1 := s.copyRead ck
  if s.copyBad ck then s1.lateOut (8 * m) 1 else ((List.range 8).map (8 * m + ·)).foldl State.release s1

/-- GUARD_START (R354, R357). -/
def execGuardStart (s : State) : Out :=
  .next (
    if !s.scanOn ∨ s.fb 0x01C SC_STATUS_GUARDING then s
    else (List.range 24).foldl State.guardGroup (s.fs 0x01C SC_STATUS_GUARDING 1))

/-! ### Canopy frames in (R352, R355, R356, R358) -/

/-- The groups of a canopy frame written from group `m` of an image on. -/
def State.putGroups (s : State) (img : Image) (m g : Nat) (pay : List Byte) : State :=
  (List.range g).foldl (fun (t : State) i => t.grpPut (grpKey img (m + i)) allGrains (grpOf (pay.drop (4 + 12 * i)))) s

/-- (EPOCH − e) modulo 2^32. -/
def epochDiff (a e : Nat) : Nat := (a + 2 ^ 32 - e % 2 ^ 32) % 2 ^ 32

def State.badFrame (s : State) : State := (s.inc 0x01C SC_CNT_BAD_COUNT).raise 0x01C EV_SC_BAD_FRAME

/-- A PUBLISH frame (R352, R355). -/
def State.takePublish (s : State) (f : Frame) (g : Nat) : State :=
  let off := f.hdr.argBits 32 15
  let sub := (List.range 32).find? fun j => s.fb 0x01C (SC_SUB_CFG_EN.at (0x10 * j)) &&
    decide (s.fg 0x01C (SC_SUB_CFG_SRC.at (0x10 * j)) = f.hdr.src) && decide (s.fg 0x01C (SC_SUB_CFG_PUB.at (0x10 * j)) = leAt f.payload 2 1)
  match sub with
  | none => s.badFrame
  | some j =>
    let base := s.fg 0x01C (SC_SUB_RANGE_BASE.at (0x10 * j))
    if s.fg 0x01C (SC_SUB_RANGE_LEN.at (0x10 * j)) < off + 8 * g ∨ 32768 < base + off + 8 * g then s.badFrame
    else
      let d := epochDiff (f.hdr.argBits 0 32) s.epoch
      if d = 0 then
        let keys := (List.range g).map fun i => 4096 * j + off / 8 + i
        let s1 := (s.putGroups .input ((base + off) / 8) g f.payload).inc 0x01C SC_CNT_IN_COUNT
        { s1 with scan := { s1.scan with got := s1.scan.got ++ keys.filter fun k => !s1.scan.got.contains k } }
      else if 2 ^ 31 ≤ d then
        (s.inc 0x01C SC_CNT_LATE_IN_COUNT).raiseIf (!s.fb 0x01C (SC_SUB_STAT_FRESH.at (0x10 * j))) 0x01C EV_SC_GAP
      else (s.inc 0x01C SC_CNT_SKEW_COUNT).raise 0x01C EV_SC_SKEW

/-- An OUTPUT frame (R356). -/
def State.takeOutput (s : State) (f : Frame) (g : Nat) : State :=
  let grain := f.hdr.argBits 32 15
  if 32768 < grain + 8 * g then s.badFrame
  else
    let d := epochDiff (f.hdr.argBits 0 32) s.epoch
    if d = 1 then (s.putGroups .output (grain / 8) g f.payload).inc 0x01C SC_CNT_OUT_COUNT
    else if d = 0 ∨ 2 ^ 31 ≤ d then s.lateOut grain g
    else (s.inc 0x01C SC_CNT_EARLY_COUNT).raise 0x01C EV_SC_EARLY

/-- A canopy frame judged (R352). -/
def State.takeCanopy (s : State) (f : Frame) : State :=
  let g := leAt f.payload 0 1
  if f.hdr.cls ≠ .E ∨ 2 ≤ f.hdr.mtype then s.inc 0x00A RC_CNT_UNKNOWN_COUNT
  else if g = 0 ∨ 5 < g ∨ f.payload.length ≠ 4 + 12 * g then s.badFrame
  else if f.hdr.mtype = 0 then s.takePublish f g else s.takeOutput f g

/-- SCAN_FRAME_TAKE (R344, R352, R354): the oldest frame received, but none in the guard. -/
def execScanFrameTake (s : State) : Out :=
  .next (
    match s.inbox portScan with
    | [] => s
    | f :: rest =>
      if s.fb 0x01C SC_STATUS_GUARDING then s
      else
        let s1 := s.setInbox portScan rest
        if s.scanOn then s1.takeCanopy f else s1.inc 0x01C SC_CNT_IDLE_COUNT)

/-! ### Commands -/

/-- A write of SC_OPUB_SEND (R359). -/
def State.scOpubSend (s : State) (v : Word) : State :=
  let r := (s.rd 0x01C SC_OPUB_REL).toNat
  let d := epochDiff r s.epoch
  if !s.fb 0x01C SC_STATUS_STARTED ∨ d = 0 ∨ 2 ^ 31 ≤ d then
    (s.inc 0x01C SC_CNT_LATE_OUT_COUNT).raise 0x01C EV_SC_LATE_OUT
  else if !s.publishes then s
  else ((List.range 32).filter fun k => nbit v.toNat k).foldl (State.opublish r) s

/-- SC_OPUB_SEND. -/
def execScOpubSend (who : Initiator) (v : Word) (s : State) : Out := .next (s.write who 0x01C SC_OPUB_SEND fun t => t.scOpubSend v)

/-- SC_CTRL.CLR_CNT: every counter from 0x070 to 0x08C, and every GAPS. -/
def State.scClrCnt (s : State) : State :=
  let s1 := (List.range 8).foldl (fun (t : State) i => t.wr 0x01C (SC_CNT_IN + 4 * i) 0) s
  (List.range 32).foldl (fun (t : State) j => t.fs 0x01C (SC_SUB_STAT_GAPS.at (0x10 * j)) 0) s1

/-- SC_CLR_CNT. -/
def execScClrCnt (who : Initiator) (s : State) : Out := .next (s.write who 0x01C SC_CTRL State.scClrCnt)

/-! ### Commit of page 0x01C (R361) -/

/-- A range of the shadow set: FIRST and LEN multiples of 8, LEN not 0, not past grain 32,767. -/
def rangeOk (first len : Nat) : Bool :=
  decide (first % 8 = 0) && decide (len % 8 = 0) && decide (len ≠ 0) && decide (first + len ≤ 32768)

/-- The first entry of a list with a property, as a refusal with its register. -/
def refuseAt (reason : Nat) (off : Nat → Nat) (l : List Nat) (bad : Nat → Bool) : Option (Nat × Nat) :=
  (l.find? bad).map fun k => (reason, off k)

/-- Why a commit of page 0x01C is refused (R361). -/
def State.scCheck (s : State) : Option (Nat × Nat) :=
  let p := 0x01C
  let sh (f : Fld) (k : Nat) : Nat := s.fgSh p (f.at (0x10 * k))
  let per := s.fgSh p SC_PERIOD_PERIOD
  let gd := s.fgSh p SC_GUARD_GUARD
  let pubs := (List.range 8).filter fun k => decide (sh SC_PUB_DEST_EN k = 1)
  let subs := (List.range 32).filter fun k => decide (sh SC_SUB_CFG_EN k = 1)
  let opubs := (List.range 32).filter fun k => decide (sh SC_OPUB_DEST_EN k = 1)
  let overlap (i j : Nat) : Bool := decide (sh SC_SUB_RANGE_BASE i < sh SC_SUB_RANGE_BASE j + sh SC_SUB_RANGE_LEN j) &&
    decide (sh SC_SUB_RANGE_BASE j < sh SC_SUB_RANGE_BASE i + sh SC_SUB_RANGE_LEN i)
  let alike (i j : Nat) : Bool := decide (sh SC_SUB_CFG_SRC i = sh SC_SUB_CFG_SRC j) && decide (sh SC_SUB_CFG_PUB i = sh SC_SUB_CFG_PUB j)
  let syncs := (List.range 216).filter fun e => decide (s.enMode (0x100 + e) = 3) && decide (s.fg (0x100 + e) SY_CFG_TRIG = 1)
  if per < 25 ∨ 1000000 < per then some (1, SC_PERIOD)
  else if gd < 1000 ∨ 10000 < gd then some (1, SC_GUARD)
  else
    (refuseAt 1 (fun k => SC_PUB_RANGE + 0x10 * k) pubs fun k => !rangeOk (sh SC_PUB_RANGE_FIRST k) (sh SC_PUB_RANGE_LEN k)).orElse fun _ =>
    (refuseAt 1 (fun k => SC_SUB_CFG + 0x10 * k) subs fun k => decide (119 < sh SC_SUB_CFG_SRC k)).orElse fun _ =>
    (refuseAt 1 (fun k => SC_SUB_RANGE + 0x10 * k) subs fun k => !rangeOk (sh SC_SUB_RANGE_BASE k) (sh SC_SUB_RANGE_LEN k)).orElse fun _ =>
    (refuseAt 1 (fun k => SC_OPUB_RANGE + 0x10 * k) opubs fun k =>
      !rangeOk (sh SC_OPUB_RANGE_FIRST k) (sh SC_OPUB_RANGE_LEN k)).orElse fun _ =>
    (refuseAt 1 (fun k => SC_OPUB_RFIRST + 0x10 * k) opubs fun k =>
      !rangeOk (sh SC_OPUB_RFIRST_RFIRST k) (sh SC_OPUB_RANGE_LEN k)).orElse fun _ =>
    if 1000 * per < 2 * (gd + 512) then some (2, SC_GUARD)
    else
      (refuseAt 2 (fun k => SC_SUB_RANGE + 0x10 * k) subs fun k => decide (sh SC_SUB_RANGE_BASE k < 768)).orElse fun _ =>
      (refuseAt 2 (fun k => SC_SUB_RANGE + 0x10 * k) subs fun i =>
        subs.any fun j => decide (j < i) && (overlap i j || alike i j)).orElse fun _ =>
      (refuseAt 2 (fun k => SC_PUB_DEST + 0x10 * k) pubs fun k => s.self == some (sh SC_PUB_DEST_DST k)).orElse fun _ =>
      (refuseAt 2 (fun k => SC_OPUB_DEST + 0x10 * k) opubs fun k => s.self == some (sh SC_OPUB_DEST_DST k)).orElse fun _ =>
      refuseAt 3 (fun _ => SC_PERIOD) syncs fun e =>
        let g := 0x100 + e
        decide ((1000 * per : Int) * nsU ≤ nsU * (s.fg g SY_OFFSET_OFFSET : Int) + s.syLen g + nsU * (s.fg g SY_SEL_IDLE : Int))

end Sys2Proof.Machine
end

