-- ==== Sys2Proof/Machine/Memory.lean ====
section
/-! DEFINITION. The scratchpad, the march test and repair, the epoch history (chapter 16). -/
namespace Sys2Proof.Machine

/-! ### Banks -/

def State.spBank (s : State) (b : Nat) : SpBank := s.mem.banks.getD b {}
def State.setSpBank (s : State) (b : Nat) (x : SpBank) : State := { s with mem := { s.mem with banks := s.mem.banks.put b x {} } }

/-- A field of bank `b`'s registers. -/
def bankF (f : Fld) (b : Nat) : Fld := f.at (0x10 * b)
def State.spOwner (s : State) (b : Nat) : Nat := s.fg 0x280 (bankF MEM_BANK_STAT_OWNER b)
def State.spPower (s : State) (b : Nat) : Nat := s.fg 0x280 (bankF MEM_BANK_STAT_POWER b)

/-- The owner code that an initiator's accesses count as (R453). -/
def ownerCode : Initiator → Nat
  | .lantern => 0 | .host => 1 | .spi => 1 | .ring => 2 | .preload => 15 | .mirror => 15
/-- The code of the scan unit's writes. -/
def ownerScan : Nat := 3

/-- The bank is under a destructive march run, or waits for one (R461, R462, R465). -/
def State.spTesting (s : State) (b : Nat) : Bool :=
  (s.spBank b).notReady || s.mem.powerOn.contains 0 || match s.mem.march with
    | some m => m.destruct && (decide (m.target = 1) || (decide (m.target = 0) && decide (m.bank = b)))
    | none => false

/-- A march run of either kind covers the bank (R454). -/
def State.spMarched (s : State) (b : Nat) : Bool := match s.mem.march with
  | some m => decide (m.target = 1) || (decide (m.target = 0) && decide (m.bank = b))
  | none => false

/-- What a bank does with an access (R453-R455). -/
inductive SpGate where
  | serve | hold | foreign
  | answer (rsp : Nat)
deriving DecidableEq, Repr

/-- A bank serves an access of owner code `code`, refuses it, or holds it for its new owner (R453-R455, R461). -/
def State.spGate (s : State) (code b : Nat) (write : Bool) : SpGate :=
  let x := s.spBank b
  let own := decide (s.spOwner b = code)
  let mayRead := !write && s.fb 0x280 (bankF MEM_BANK_CFG_RD_ALL b)
  if !s.ready 0x280 then .answer rspNotReady
  else if own && x.drain.isSome then .answer rspUnmapped
  else if x.drain = some (1, code) then .hold
  else if !own && !mayRead then .foreign
  else if s.spPower b ≠ 0 ∨ x.filling = true ∨ s.spTesting b = true then .answer rspNotReady
  else .serve

/-! ### Words -/

def State.spWord (s : State) (w : Nat) : Word := s.mem.sp.getD w 0

/-- A tracked row's count after a corrected error; a ninth row replaces the one with the lowest count (R459). -/
def State.spTrack (s : State) (b row : Nat) : State :=
  let x := s.spBank b
  match x.track.find? (fun e => decide (e.1 = row)) with
  | some e => s.setSpBank b { x with track := x.track.map fun y => if y.1 = row then (row, e.2 + 1) else y }
  | none =>
    if x.track.length < 8 then s.setSpBank b { x with track := x.track ++ [(row, 1)] }
    else
      let low := (x.track.map (·.2)).foldl min (x.track.headD (0, 0)).2
      let gone := s.pick ((x.track.filter fun e => decide (e.2 = low)).map (·.1))
      (s.setSpBank b { x with track := (x.track.filter fun e => decide (e.1 ≠ gone)) ++ [(row, 1)] }).tookFree

/-- The errors a read of a word meets: a corrected one is counted, tracked and written back; an uncorrected one is counted and recorded
(R458). -/
def State.spNote (s : State) (w : Nat) : State :=
  let b := w / 16384
  if s.mem.spUe.contains w then
    let s1 := (s.inc 0x280 (bankF MEM_BANK_CNT_UE b)).wr 0x280 MEM_UE_LAST (BitVec.ofNat 32 (b <<< 27 ||| w % 16384))
    s1.raise 0x280 EV_MEM_ECC_UE
  else if s.mem.spCe.contains w then
    let s1 := ((s.inc 0x280 (bankF MEM_BANK_CNT_CE b)).raise 0x280 EV_MEM_ECC_CE).spTrack b (w % 16384 / 32)
    { s1 with mem := { s1.mem with spCe := s1.mem.spCe.filter (· != w) } }
  else s

def State.spBad (s : State) (w : Nat) : Bool := s.mem.spUe.contains w

/-- The bytes of a word under byte enables. -/
def beMask (be : BitVec 4) : Word :=
  BitVec.ofNat 32 ((if be.getLsbD 0 then 0xFF else 0) + (if be.getLsbD 1 then 0xFF00 else 0) +
    (if be.getLsbD 2 then 0xFF0000 else 0) + (if be.getLsbD 3 then 0xFF000000 else 0))

/-- A word written under byte enables, with its check bits. -/
def State.spPut (s : State) (w : Nat) (data : Word) (be : BitVec 4) : State :=
  let v := (s.spWord w &&& ~~~ beMask be) ||| (data &&& beMask be)
  { s with mem := { s.mem with sp := s.mem.sp.put w v 0, spUe := s.mem.spUe.filter (· != w), spCe := s.mem.spCe.filter (· != w) } }

/-- One word access that the bank serves (R452, R458): a write of fewer than four bytes reads the word first. -/
def State.spWordAccess (s : State) (w : Nat) (write : Bool) (data : Word) (be : BitVec 4) : State × Nat × Word :=
  if write && decide (be = 15) then (s.spPut w data be, rspOk, 0)
  else
    let s1 := s.spNote w
    if s.spBad w then (s1, rspRemote, 0)
    else if write then (s1.spPut w data be, rspOk, 0) else (s1, rspOk, s1.spWord w)

/-- The words an access of address `a` makes: one, or two through the byte-lane rotate unit (R457). -/
def spWords (a : Nat) : List Nat := if a % 4 = 0 then [a / 4] else [a / 4, a / 4 + 1]

/-- The unaligned access (R457): both words read, a write in neither where one holds an uncorrectable error. -/
def State.spUnaligned (s : State) (a : Nat) (write : Bool) (data : Word) (be : BitVec 4) : State × Nat × Word :=
  let k := a % 4
  let w := a / 4
  let be0 : BitVec 4 := be <<< k
  let be1 : BitVec 4 := be >>> (4 - k)
  let s1 := (s.spNote w).spNote (w + 1)
  if s.spBad w || s.spBad (w + 1) then (s1, rspRemote, 0)
  else if write then ((s1.spPut w (data <<< (8 * k)) be0).spPut (w + 1) (data >>> (8 * (4 - k))) be1, rspOk, 0)
  else (s1, rspOk, (s1.spWord w >>> (8 * k)) ||| (s1.spWord (w + 1) <<< (8 * (4 - k))))

/-- The gate of an access of every word it makes: the first word that is not served decides (R453, R457). -/
def State.spGates (s : State) (code : Nat) (ws : List Nat) (write : Bool) : SpGate :=
  ws.foldl (fun g w => if g = .serve then s.spGate code (w / 16384) write else g) .serve

/-- A refused foreign access (R453). -/
def State.spForeign (s : State) : State := (s.inc 0x280 MEM_CNT_FOREIGN_COUNT).raise 0x280 EV_MEM_FOREIGN

/-- An access to the scratchpad at byte address `a` (R452-R458); `none` where it is held for the bank's new owner. -/
def State.spAccess (s : State) (code a : Nat) (write : Bool) (data : Word) (be : BitVec 4) : State × Option (Nat × Word) :=
  if (spWords a).any fun w => decide (131072 ≤ w) then (s, some (rspUnmapped, 0))
  else match s.spGates code (spWords a) write with
    | .hold => (s, none)
    | .foreign => (s.spForeign, some (rspUnmapped, 0))
    | .answer r => (s, some (r, 0))
    | .serve =>
      let x := if a % 4 = 0 then s.spWordAccess (a / 4) write data be else s.spUnaligned a write data be
      (x.1, some x.2)

/-- An access by an initiator of this hub, answered or held (R453, R454). -/
def State.spLocal (s : State) (who : Initiator) (a : Nat) (write : Bool) (data : Word) (be : BitVec 4) : State :=
  match s.spAccess (ownerCode who) a write data be with
  | (t, some (r, d)) => t.answer who r d
  | (t, none) => { t with mem := { t.mem with held := t.mem.held ++ [{ who := who, addr := a, write := write, data := data, be := be }] } }

/-- SCRATCHPAD_ACCESS: through the bridge, from any initiator (R362, R452). -/
def execScratchpadAccess (who : Initiator) (addr : Nat) (write : Bool) (data : Word) (be : BitVec 4) (s : State) : Out :=
  .next (let s := s.touch who (!write)
    if s.ready 0x020 then s.spLocal who addr write data be else s.answer who rspNotReady 0)

/-! ### Bank commands (R454, R455) -/

/-- A bank command refused with a RESULT. -/
def State.bankRefuse (s : State) (r : Nat) : State := (s.fs 0x280 MEM_BANK_CMD_STATUS_RESULT r).raise 0x280 EV_MEM_CMD_REFUSED

/-- A command of the bank is running. -/
def State.spBusy (s : State) (b : Nat) : Bool := (s.spBank b).drain.isSome || (s.spBank b).filling

/-- A bank command ends as done. -/
def State.bankDone (s : State) : State :=
  ((s.fs 0x280 MEM_BANK_CMD_STATUS_RESULT 1).fs 0x280 MEM_BANK_CMD_STATUS_BUSY
    (bit ((List.range 8).any fun b => s.spBusy b))).raise 0x280 EV_MEM_HANDOVER_DONE

/-- The power state that an OP names, as POWER shows it (R455). -/
def opPower (op : Nat) : Nat := op - 2

/-- MEM_BANK_CMD with GO 1 (R454, R455). -/
def State.bankCmd (s : State) (v : Word) : State :=
  let op := MEM_BANK_CMD_OP.get v
  let b := MEM_BANK_CMD_BANK.get v
  let arg := MEM_BANK_CMD_ARG.get v
  if MEM_BANK_CMD_GO.get v = 0 then s
  else
    let s1 := (s.fs 0x280 MEM_BANK_CMD_STATUS_BANK b).fs 0x280 MEM_BANK_CMD_STATUS_RESULT 0
    if s.spBusy b then s1.bankRefuse 2
    else if s.spMarched b then s1.bankRefuse 3
    else if op = 0 ∨ 4 < op ∨ (op = 1 ∧ 8 ≤ arg) then s1.bankRefuse 4
    else if 2 ≤ op ∧ s.spPower b = opPower op then s1.bankDone
    else
      let s2 := (s1.fs 0x280 MEM_BANK_CMD_STATUS_BUSY 1).fs 0x280 (bankF MEM_BANK_STAT_DRAINING b) 1
      (if op = 1 then s2 else s2.fs 0x280 (bankF MEM_BANK_STAT_POWER b) 3).setSpBank b { s.spBank b with drain := some (op, arg) }

/-- The contents of a bank written with 0 and valid check bits, or lost. -/
def State.spZero (s : State) (b : Nat) : State :=
  { s with mem := { s.mem with
      sp := s.mem.sp.drop fun w => decide (w / 16384 = b)
      spUe := s.mem.spUe.filter fun w => decide (w / 16384 ≠ b)
      spCe := s.mem.spCe.filter fun w => decide (w / 16384 ≠ b) } }

/-- A draining bank has finished: its owner or power state changes (R454 step 4, R455). A bank leaving OFF is written with 0 first. -/
def State.bankDrained (s : State) (b : Nat) : State := match (s.spBank b).drain with
  | none => s
  | some (op, arg) =>
    let x := s.spBank b
    let s1 := (s.setSpBank b { x with drain := none }).fs 0x280 (bankF MEM_BANK_STAT_DRAINING b) 0
    if op = 1 then (s1.fs 0x280 (bankF MEM_BANK_STAT_OWNER b) arg).bankDone
    else if op = 2 ∧ x.off = true then s1.setSpBank b { x with drain := none, filling := true }
    else
      let s2 := s1.fs 0x280 (bankF MEM_BANK_STAT_POWER b) (opPower op)
      (if op = 4 then (s2.spZero b).setSpBank b { x with drain := none, off := true }
       else s2.setSpBank b { x with drain := none, off := false }).bankDone

def execBankHandover (who : Initiator) (v : Word) (s : State) : Out := .next (s.write who 0x280 MEM_BANK_CMD fun t => t.bankCmd v)
def execBankPowerOn (who : Initiator) (v : Word) (s : State) : Out := .next (s.write who 0x280 MEM_BANK_CMD fun t => t.bankCmd v)
def execBankPowerRetention (who : Initiator) (v : Word) (s : State) : Out :=
  .next (s.write who 0x280 MEM_BANK_CMD fun t => t.bankCmd v)
def execBankPowerOff (who : Initiator) (v : Word) (s : State) : Out := .next (s.write who 0x280 MEM_BANK_CMD fun t => t.bankCmd v)

/-- BANK_INIT_DONE: a bank leaving OFF has been written with 0 (R455). -/
def execBankInitDone (bank : Fin 8) (s : State) : Out :=
  let b := bank.val
  .next (
    if (s.spBank b).filling then
      ((((s.spZero b).setSpBank b { s.spBank b with filling := false, off := false }).fs 0x280 (bankF MEM_BANK_STAT_POWER b) 0)).bankDone
    else s)

/-! ### Row repair (R459, R464) -/

/-- SP_ROW_ECC_THRESHOLD: a tracked row reaches ROW_THRESH and asks for its repair (R459). -/
def execSpRowEccThreshold (bank : Fin 8) (row : Nat) (s : State) : Out :=
  let th := s.fg 0x280 MEM_ECC_CFG_ROW_THRESH
  .next (
    if th ≠ 0 ∧ ((s.spBank bank.val).track.any fun e => decide (e.1 = row) && decide (th ≤ e.2)) = true ∧
        (s.mem.repairs.any fun r => decide (r.1 = bank.val) && decide (r.2.1 = row)) = false then
      { s with mem := { s.mem with repairs := s.mem.repairs ++ [(bank.val, row, 2)] } }
    else s)

/-- SPARES of a bank: spare rows in use or unusable. -/
def State.showSpares (s : State) (b : Nat) : State :=
  s.fs 0x280 (bankF MEM_BANK_STAT_SPARES b) ((s.spBank b).moved.length + (s.spBank b).badSpare.length)

/-- The free spare rows of a bank. -/
def SpBank.freeSpares (x : SpBank) : List Nat :=
  (List.range 4).filter fun k => !(x.moved.any fun e => decide (e.2 = k)) && !x.badSpare.contains k

/-- A scratchpad row moved to a free spare row and recorded, or REPAIR_FULL (R464). A spare that served the row before is unusable. -/
def State.rowRepair (s : State) (b row cause : Nat) : State :=
  let x := s.spBank b
  if x.freeSpares = [] then s.raise 0x280 EV_MEM_REPAIR_FULL
  else
    let k := s.pick x.freeSpares
    let old := (x.moved.filter fun e => decide (e.1 = row)).map (·.2)
    let s1 := s.tookFree.setSpBank b { x with
      moved := (x.moved.filter fun e => decide (e.1 ≠ row)) ++ [(row, k)], badSpare := x.badSpare ++ old
      track := x.track.filter fun e => decide (e.1 ≠ row) }
    (((s1.showSpares b).setState 0x280 PAGE_STATE_SPARED true).recordRepair ⟨1, b, row, k, cause⟩).raise 0x280 EV_MEM_REPAIR_DONE

/-- ROW_REPAIR: a requested repair is made. -/
def execRowRepair (bank : Fin 8) (row : Nat) (s : State) : Out :=
  .next (match s.mem.repairs.find? (fun r => decide (r.1 = bank.val) && decide (r.2.1 = row)) with
    | none => s
    | some r => ({ s with mem := { s.mem with repairs := s.mem.repairs.filter fun y => decide (y ≠ r) } }).rowRepair bank.val row r.2.2)

/-! ### March test (R460-R465) -/

/-- Rows of a run's target. -/
def March.rows (m : March) : Nat :=
  if m.target = 0 then 516 else if m.target = 1 then 4128 else if m.target = 2 then 17408 else 16384

/-- The memory of a target: 0 scratchpad, 1 cell memory, 2 canopy. -/
def March.memory (m : March) : Nat := if m.target < 2 then 0 else m.target - 1

/-- Row `i` of a run: its bank and row; of the canopy, row is image, copy and group. -/
def March.rowAt (m : March) (i : Nat) : Nat × Nat :=
  if m.target = 0 then (m.bank, i) else if m.target = 1 then (i / 516, i % 516)
  else if m.target = 2 then (i / 1024, i % 1024) else (0, i)

/-- The scratchpad banks of a run. -/
def March.banks (m : March) : List Nat := if m.target = 0 then [m.bank] else if m.target = 1 then List.range 8 else []

/-- MEM_MARCH_STATUS.STATE. -/
def State.marchState (s : State) (n : Nat) : State := s.fs 0x280 MEM_MARCH_STATUS_STATE n

/-- TESTING of the banks a run covers. -/
def State.showTesting (s : State) (bs : List Nat) (v : Nat) : State :=
  bs.foldl (fun t b => t.fs 0x280 (bankF MEM_BANK_STAT_TESTING b) v) s

/-- The conditions of R461 that refuse a destructive run. -/
def State.destructBad (s : State) (m : March) : Bool :=
  m.banks.any (fun b => decide (s.spPower b ≠ 0) || s.spBusy b) ||
  (decide (m.target = 2) && s.replacing) || (decide (m.target = 3) && s.running 0x01C)

/-- The cell memory's block stops being ready: every queue is discarded, and the queue pages follow (R41, R461). -/
def State.coreUnready (s : State) : State :=
  ([0x010, 0x011, 0x012, 0x013, 0x014].foldl (fun t p => t.unready p) s).coreDiscard

/-- MEM_MARCH_CMD with GO 1 (R465). -/
def State.marchGo (s : State) (v : Word) : State :=
  let m : March := { target := MEM_MARCH_CMD_TARGET.get v, bank := MEM_MARCH_CMD_BANK.get v, destruct := decide (MEM_MARCH_CMD_DESTRUCT.get v = 1) }
  if s.mem.march.isSome then s.marchState 4
  else if m.destruct && s.destructBad m then s.marchState 4
  else
    let s1 := ({ s with mem := { s.mem with march := some m } }.marchState 1).fs 0x280 MEM_MARCH_STATUS_FAILS 0
    let s2 := s1.showTesting m.banks 1
    if m.destruct then (if m.target = 2 then s2.coreUnready else if m.target = 3 then s2.unready 0x01C else s2) else s2

/-- MEM_MARCH_CMD with ABORT 1: the run stops at the end of the current row (R465). -/
def State.marchAbort (s : State) : State := match s.mem.march with
  | none => s
  | some m => { s with mem := { s.mem with march := some { m with abort := true } } }

/-- A write of MEM_MARCH_CMD. -/
def State.marchCmd (s : State) (v : Word) : State :=
  let s1 := if MEM_MARCH_CMD_ABORT.get v = 1 then s.marchAbort else s
  if MEM_MARCH_CMD_GO.get v = 1 then s1.marchGo v else s1

def execMarchGo (who : Initiator) (v : Word) (s : State) : Out := .next (s.write who 0x280 MEM_MARCH_CMD fun t => t.marchCmd v)
def execMarchAbort (who : Initiator) (s : State) : Out := .next (s.write who 0x280 MEM_MARCH_CMD State.marchAbort)

/-- A row of a memory fails a run (R464): counted, the first recorded, and repaired where REPAIR_AUTO allows. -/
def State.marchFail (s : State) (memory bank row : Nat) : State :=
  let s1 := if s.fg 0x280 MEM_MARCH_STATUS_FAILS = 0 then
      s.wr 0x280 MEM_MARCH_FAIL (BitVec.ofNat 32 (memory <<< 30 ||| bank % 32 <<< 25 ||| row % 16384)) else s
  let s2 := (s1.inc 0x280 MEM_MARCH_STATUS_FAILS).raise 0x280 EV_MEM_MARCH_FAIL
  if !s.fb 0x280 MEM_CTRL_REPAIR_AUTO || decide (memory ≠ 0) then s2
  else if row < 512 then s2.rowRepair bank row 1
  else
    let x := s2.spBank bank
    if x.badSpare.contains (row - 512) then s2
    else (s2.setSpBank bank { x with badSpare := x.badSpare ++ [row - 512], moved := x.moved.filter fun e => decide (e.2 ≠ row - 512) }).showSpares bank

/-- The bank replacements that failing cell rows ask for at the end of a run (R464): of the logical bank a physical bank serves. -/
def State.marchSpares (s : State) (bs : List Nat) : State :=
  if !s.fb 0x280 MEM_CTRL_REPAIR_AUTO then s
  else match bs.find? (fun b => decide (b < 16)) with
    | some b => if s.fb 0x010 CORE_BANK_SPARE_SPARED then s else s.requestSpare b 1
    | none => s

/-- Every unit of a memory at 0 with valid check bits, as a destructive run leaves it (R461). -/
def State.memZero (s : State) (memory : Nat) (bs : List Nat) : State :=
  if memory = 0 then bs.foldl (fun t b => (t.spZero b).setSpBank b { t.spBank b with notReady := false }) s
  else if memory = 1 then { s with core := { s.core with cells := [], links := [], recs := [] }, mem := { s.mem with cellsUnready := false } }
  else { s with scan := { s.scan with vis := [], hid := [], ue := [], ce := [] }, mem := { s.mem with canopyUnready := false } }

/-- The end of a run with its STATE (R460, R464). -/
def State.marchEnd (s : State) (m : March) (failed : Bool) : State :=
  let s1 := ({ s with mem := { s.mem with march := none } }.showTesting m.banks 0).marchState (if failed then 3 else 2)
  (s1.raise 0x280 EV_MEM_MARCH_DONE).marchSpares m.cellBanks

/-- A destructive run stopped: its memory stays not ready until a destructive run completes (R465). -/
def State.marchStopped (s : State) (m : March) : State :=
  let s1 := ({ s with mem := { s.mem with march := none } }.showTesting m.banks 0).marchState 5
  let s2 := (s1.raise 0x280 EV_MEM_MARCH_DONE).marchSpares m.cellBanks
  if !m.destruct then s2
  else if m.target < 2 then m.banks.foldl (fun t b => t.setSpBank b { t.spBank b with notReady := true }) s2
  else if m.target = 2 then { s2 with mem := { s2.mem with cellsUnready := true } }
  else { s2 with mem := { s2.mem with canopyUnready := true } }

/-- MARCH_ROW_STEP: a preserving run finishes a row and writes it back (R463); `fails` says that the row failed. -/
def execMarchRowStep (fails : Bool) (s : State) : Out :=
  .next (match s.mem.march with
    | none => s
    | some m =>
      if m.destruct || decide (m.rows ≤ m.next) then s
      else
        let (b, row) := m.rowAt m.next
        let m1 := { m with next := m.next + 1, failed := m.failed || fails,
                           cellBanks := if fails && decide (m.target = 2) then m.cellBanks ++ [b] else m.cellBanks }
        let s1 := { s with mem := { s.mem with march := some m1 } }
        let s2 := if fails then s1.marchFail m.memory b row else s1
        if m.abort then s2.marchStopped m1 else s2)

/-- A run of memory `k` of the power-on reset ends (R462): its failing rows are repaired before READY. -/
def State.powerOnEnd (s : State) (k : Nat) (failing : List (Nat × Nat)) : State :=
  let s1 := { s with mem := { s.mem with powerOn := s.mem.powerOn.filter (· != k) } }.memZero k (List.range 8)
  let s2 := failing.foldl (fun t e => t.marchFail k e.1 e.2) s1
  let s3 := s2.marchState (if failing = [] ∧ s2.fg 0x280 MEM_MARCH_STATUS_STATE ≠ 3 then 2 else 3)
  (s3.raise 0x280 EV_MEM_MARCH_DONE).marchSpares (if k = 1 then failing.map (·.1) else [])

/-- MARCH_RUN_DONE: a run ends, with the failing rows of a destructive run (R460-R464). -/
def execMarchRunDone (mem : Fin 3) (failing : List (Nat × Nat)) (s : State) : Out :=
  .next (
    if s.mem.powerOn.contains mem.val then s.powerOnEnd mem.val failing
    else match s.mem.march with
      | none => s
      | some m =>
        if m.memory ≠ mem.val then s
        else if !m.destruct then (if m.rows ≤ m.next then s.marchEnd m m.failed else s)
        else
          let m1 := { m with cellBanks := if m.target = 2 then failing.map (·.1) else [] }
          let s1 := if m.abort then s else s.memZero m.memory m.banks
          let s2 := failing.foldl (fun t e => t.marchFail m.memory e.1 e.2) s1
          if m.abort then s2.marchStopped m1 else s2.marchEnd m1 (!failing.isEmpty))

/-- MEM_CTRL.CLR_CNT: every counter of the page (R470). -/
def State.memClrCnt (s : State) : State :=
  let s1 := (((s.wr 0x280 MEM_HIST_STAT 0).wr 0x280 MEM_CNT_FOREIGN 0).wr 0x280 MEM_CAN_CNT 0)
  (List.range 8).foldl (fun (t : State) b => t.wr 0x280 (MEM_BANK_CNT + 0x10 * b) 0) s1

def execMemClrCnt (who : Initiator) (s : State) : Out := .next (s.write who 0x280 MEM_CTRL State.memClrCnt)

/-- The memories block reset (R456): owners at their reset values and every bank ON; a bank that was OFF is written with 0. The page's
registers have taken their reset values. -/
def State.memReset (s : State) : State :=
  let s0 := match s.mem.march with
    | some m => if m.destruct then s.marchStopped m else { s with mem := { s.mem with march := none } }
    | none => s
  let s1 := { s0 with mem := { s0.mem with repairs := [], held := [] } }
  ((List.range 8).foldl (fun (t : State) b =>
    let x := t.spBank b
    let t1 := t.setSpBank b { x with track := [], drain := none, filling := x.filling || x.off, off := x.filling || x.off }
    (if x.filling || x.off then t1.fs 0x280 (bankF MEM_BANK_STAT_POWER b) 3 else t1).showSpares b) s1).showTable

/-! ### Epoch history (R469) -/

/-- The words of the slot of epoch `n`: bytes 4 to 1159 after the number. -/
def State.histWords (s : State) : List Word :=
  s.rd 0x01C SC_BOUND_NS :: ((List.range 96).map fun m =>
    let v := s.grpNew (grpKey .input m)
    [BitVec.ofNat 32 v.toNat, BitVec.ofNat 32 (v.toNat / 2 ^ 32), BitVec.ofNat 32 (v.toNat / 2 ^ 64)]).flatten

/-- The slot of epoch `n` written into the history bank it falls in, or counted as missed (R469). -/
def State.histWrite (s : State) (n : Nat) : State :=
  let cfg := s.scan.hist
  if MEM_HIST_CFG_EN.get cfg = 0 then s
  else
    let slot := n % (32 * (MEM_HIST_CFG_BANKS.get cfg + 1))
    let b := MEM_HIST_CFG_FIRST.get cfg + slot / 32
    if s.spGate ownerScan b true ≠ .serve ∨ s.spOwner b ≠ ownerScan ∨ !s.ready 0x020 then
      (s.inc 0x280 MEM_HIST_STAT_MISSED).raise 0x280 EV_MEM_HIST_MISSED
    else
      let w := 16384 * b + 512 * (slot % 32)
      (BitVec.ofNat 32 n :: s.histWords).zipIdx.foldl (fun (t : State) e => t.spPut (w + e.2) e.1 15) s

/-- Why a commit of page 0x280 is refused (R470). -/
def State.memCheck (s : State) : Option (Nat × Nat) :=
  let first := s.fgSh 0x280 MEM_HIST_CFG_FIRST
  let k := s.fgSh 0x280 MEM_HIST_CFG_BANKS + 1
  if 8 < first + k then some (1, MEM_HIST_CFG)
  else if s.fgSh 0x280 MEM_HIST_CFG_EN = 1 ∧
      ((List.range k).any fun i => decide (s.spOwner (first + i) ≠ ownerScan) || decide (s.spPower (first + i) ≠ 0)) = true then
    some (0x80, MEM_HIST_CFG)
  else none

end Sys2Proof.Machine
end

