-- ==== Sys2Proof/Machine/Power.lean ====
section
/-! DEFINITION. Pitch power, feed selection and the supply disturbance recorder (chapter 15): the supervisor die's work. Its
registers are those of pages 0x028 and 0x030 to 0x047; what the logic die's reads return of them is the status copy. -/
namespace Sys2Proof.Machine

/-- The pages the supervisor die serves (R48, R423). -/
def supPage (p : Nat) : Bool := decide (p = 0x028) || (decide (0x030 ≤ p) && decide (p ≤ 0x047))

/-- A write on its way to the supervisor die (R12). -/
def State.supSend (p off : Nat) (v : Word) (s : State) : State :=
  { s with supv := { s.supv with queue := s.supv.queue ++ [⟨p, off, v⟩] } }

/-! ### The pitch power channel -/

/-- The channel states of R425. -/
def ppOff : Nat := 0
def ppEmpty : Nat := 1
def ppInsert : Nat := 2
def ppPrecheck : Nat := 3
def ppRamp : Nat := 4
def ppEnhance : Nat := 5
def ppOn : Nat := 6
def ppCool : Nat := 7
def ppLatched : Nat := 8
def ppExtracted : Nat := 9
def ppStandby : Nat := 10

/-- The power page of a pitch, and its channel. -/
def ppPage (n : Nat) : Nat := 0x030 + n % 24
def State.pwr (s : State) (n : Nat) : Pwr := s.supv.pwr.getD n {}
def State.setPwr (s : State) (n : Nat) (x : Pwr) : State := { s with supv := { s.supv with pwr := s.supv.pwr.put n x {} } }

/-- The channel's state, and the states in which the gate may be on. -/
def State.ppState (s : State) (n : Nat) : Nat := s.fg (ppPage n) PP_STATUS_STATE
def State.ppPowered (s : State) (n : Nat) : Bool := decide (ppRamp ≤ s.ppState n) && decide (s.ppState n ≤ ppOn)

/-- A configuration field in force: the words kept after an L3, else the page's own (R75). -/
def State.ppCfg (s : State) (n : Nat) (f : Fld) : Nat := match (s.pwr n).kept with
  | some m => f.get (m.getD f.off (s.rd (ppPage n) f.off))
  | none => s.fg (ppPage n) f

/-- Point `k` of the curve: a field of it. -/
def State.curve (s : State) (n k : Nat) (f : Fld) : Nat := s.ppCfg n (f.at (4 * k))

/-- The gate off: the breaker timers 0, power-good withdrawn in the same cycle with PG_DOWN (R429, R434). -/
def State.gateOff (s : State) (n : Nat) : State :=
  let s1 := s.setPwr n { s.pwr n with timers := [], out := 0 }
  let s2 := (s1.fs (ppPage n) PP_STATUS_GATE 0).fs (ppPage n) PP_TIMER_ELAPSED 0
  if s2.fb (ppPage n) PP_STATUS_PG then (s2.fs (ppPage n) PP_STATUS_PG 0).raise (ppPage n) EV_PP_PG_DOWN else s2

/-- The gate off for a cause; the cause changes only where the gate was on (R425). -/
def State.gateOffFor (s : State) (n cause : Nat) : State :=
  if s.fb (ppPage n) PP_STATUS_GATE then (s.gateOff n).fs (ppPage n) PP_STATUS_CAUSE cause else s.gateOff n

/-- STATE written. -/
def State.ppGo (s : State) (n st : Nat) : State := s.fs (ppPage n) PP_STATUS_STATE st

/-- R432: the channel holds its gate off for the role the supervisor die has. -/
def State.ppHeld (s : State) (n : Nat) : Bool :=
  decide (s.ppCfg n PP_CFG_STBY_OFF = 1) && (decide (s.supv.role = roleStarting) || decide (s.supv.role = roleStandby))

/-- STANDBY with CAUSE 9 (R432). -/
def State.ppStand (s : State) (n : Nat) : State :=
  ((s.gateOff n).fs (ppPage n) PP_STATUS_CAUSE 9).ppGo n ppStandby

/-- INSERT entered, with or without the insertion delay; STANDBY instead where the role holds the channel (R425, R432). -/
def State.ppEnterInsert (s : State) (n : Nat) (fast : Bool) : State :=
  if s.ppHeld n then s.ppStand n
  else (s.setPwr n { s.pwr n with fast := fast, ins := 0 }).ppGo n ppInsert

/-- The channel starts: EMPTY, or INSERT when present (R425). -/
def State.ppStart (s : State) (n : Nat) : State :=
  if s.ppState n ≠ ppOff then s
  else if s.fb (ppPage n) PP_STATUS_PRESENT then s.ppEnterInsert n false else s.ppGo n ppEmpty

/-- Presence lost, or ENABLE written 0: the gate off, ATTEMPTS 0, every timer cancelled (R425). -/
def State.ppLeave (s : State) (n cause st : Nat) : State :=
  let s1 := (s.gateOffFor n cause).fs (ppPage n) PP_STATUS_ATTEMPTS 0
  (s1.setPwr n { s1.pwr n with kept := none, fast := false }).ppGo n st

/-- OFF by ENABLE 0 (R425). -/
def State.ppStop (s : State) (n : Nat) : State := s.ppLeave n 8 ppOff

/-- The clamp of a reset at L0 or L1 (R74): the gate low with CAUSE 10, and the channel off. -/
def State.ppClamp (s : State) (n : Nat) : State :=
  let s1 := if s.fb (ppPage n) PP_STATUS_GATE then s.fs (ppPage n) PP_STATUS_CAUSE 10 else s
  let s2 := (s1.fs (ppPage n) PP_STATUS_GATE 0).fs (ppPage n) PP_STATUS_PG 0
  ((s2.fs (ppPage n) PP_STATUS_ATTEMPTS 0).ppGo n ppOff).setPwr n {}

/-- The filtered pins of a slot change (R424, R425, R431). -/
def presenceChange (pitch : Pitch) (pres seat : Bool) (s : State) : State :=
  let n := pitch.val
  let p := ppPage n
  let was := s.fb p PP_STATUS_PRESENT
  let err := seat && !pres && !(s.fb p PP_STATUS_SEATED && !was)
  let s1 := (s.fs p PP_STATUS_PRESENT (bit pres)).fs p PP_STATUS_SEATED (bit seat)
  let s2 := (s1.raiseIf (decide (was ≠ pres)) p EV_PP_PRESENT_CHG).raiseIf err p EV_PP_PIN_ERR
  if s.ppState n = ppOff then s2
  else if !pres then (if s.ppState n = ppEmpty then s2 else s2.ppLeave n 7 (if s.enabled p then ppEmpty else ppOff))
  else if s.ppState n = ppEmpty then s2.ppEnterInsert n false
  else if s.ppState n = ppExtracted ∧ seat = true then s2.ppEnterInsert n false
  else s2

def execPresenceChange (pitch : Pitch) (pres seat : Bool) (s : State) : Out := .next (presenceChange pitch pres seat s)

/-- The bus lies in the pitch's window at the last sample. -/
def State.ppWindow (s : State) (n : Nat) : Bool :=
  decide (s.ppCfg n PP_WIN_UV ≤ s.supv.fd.vbus) && decide (s.supv.fd.vbus ≤ s.ppCfg n PP_WIN_OV)

/-- The insertion condition and its delay are met (R426): under BN compatibility the seating; in native operation the window at the
last sample and, but after COOL and STANDBY, at every sample of the last DELAY ms. -/
def State.ppInserted (s : State) (n : Nat) : Bool :=
  if s.compat (ppPage n) then s.fb (ppPage n) PP_STATUS_SEATED
  else s.ppWindow n && ((s.pwr n).fast || decide (s.ppCfg n PP_INS_DELAY * 1000 ≤ (s.pwr n).ins))

/-- The insertion condition and its delay complete: PRECHECK (R426). -/
def insertConditionMet (pitch : Pitch) (s : State) : State :=
  let n := pitch.val
  let p := ppPage n
  if s.ppState n = ppInsert ∧ s.fb p PP_STATUS_PRESENT = true ∧ s.ppInserted n = true then
    (s.inc p PP_CNT_INSERTIONS).ppGo n ppPrecheck
  else s

def execInsertConditionMet (pitch : Pitch) (s : State) : Out := .next (insertConditionMet pitch s)

/-- A failure of the pole test latches the channel (R427, R428). -/
def State.poleFail (s : State) (n cause ev : Nat) : State :=
  let s1 := ((s.gateOff n).fs (ppPage n) PP_STATUS_CAUSE cause).inc (ppPage n) PP_CNT_POLE_FAIL
  (s1.raise (ppPage n) ev).ppGo n ppLatched

/-- PRE passes: the transistor blocks, and RAMP begins, or it conducts with its gate off (R427). -/
def precheckDone (pitch : Pitch) (s : State) : State :=
  let n := pitch.val
  if s.ppState n ≠ ppPrecheck then s
  else if 20 ≤ s.fg (ppPage n) PP_MEAS_VOUT then s.poleFail n 3 EV_PP_POLE_SHORT
  else (s.fs (ppPage n) PP_STATUS_GATE 1).ppGo n ppRamp

def execPrecheckDone (pitch : Pitch) (s : State) : Out := .next (precheckDone pitch s)

/-- The output stands at bus − 0.5 V or above at the last sample (R428). -/
def State.ppReached (s : State) (n : Nat) : Bool := decide (s.supv.fd.vbus ≤ s.fg (ppPage n) PP_MEAS_VOUT + 5)

/-- The output reaches bus − 0.5 V: ENHANCE (R428). -/
def rampReached (pitch : Pitch) (s : State) : State :=
  let n := pitch.val
  if s.ppState n = ppRamp ∧ s.ppReached n = true then s.ppGo n ppEnhance else s

def execRampReached (pitch : Pitch) (s : State) : Out := .next (rampReached pitch s)

/-- RAMP_MAX passes: the transistor is open (R428). -/
def rampTimeout (pitch : Pitch) (s : State) : State :=
  let n := pitch.val
  if s.ppState n = ppRamp ∧ s.ppReached n = false then s.poleFail n 4 EV_PP_POLE_OPEN else s

def execRampTimeout (pitch : Pitch) (s : State) : Out := .next (rampTimeout pitch s)

/-- 1 ms of ENHANCE passes (R425). -/
def enhanceDone (pitch : Pitch) (s : State) : State :=
  if s.ppState pitch.val = ppEnhance then s.ppGo pitch.val ppOn else s

def execEnhanceDone (pitch : Pitch) (s : State) : Out := .next (enhanceDone pitch s)

/-- Every enabled breaker timer is 0 (R429). -/
def State.timersZero (s : State) (n : Nat) : Bool := decide ((s.pwr n).timers = [])

/-- Power-good in ON with every breaker timer at 0 (R429). -/
def powerGoodGiven (pitch : Pitch) (s : State) : State :=
  let n := pitch.val
  let p := ppPage n
  if s.ppState n = ppOn ∧ s.timersZero n = true ∧ s.fb p PP_STATUS_PG = false then
    (s.fs p PP_STATUS_PG 1).raise p EV_PP_PG_UP
  else s

def execPowerGoodGiven (pitch : Pitch) (s : State) : Out := .next (powerGoodGiven pitch s)

/-- The bus has been outside the window for FILT µs (R430). -/
def busWindowFault (pitch : Pitch) (s : State) : State :=
  let n := pitch.val
  let p := ppPage n
  if s.ppPowered n = true ∧ s.ppCfg n PP_WIN_FILT ≤ (s.pwr n).out then
    (((s.gateOff n).fs p PP_STATUS_CAUSE 5).raise p EV_PP_BUS_WIN).ppEnterInsert n false
  else s

def execBusWindowFault (pitch : Pitch) (s : State) : Out := .next (busWindowFault pitch s)

/-- The seating pin opens while the channel is powered (R431). -/
def seatOpenExtract (pitch : Pitch) (s : State) : State :=
  let n := pitch.val
  let p := ppPage n
  if s.ppPowered n then
    ((((s.gateOff n).fs p PP_STATUS_CAUSE 6).fs p PP_STATUS_ATTEMPTS 0).raise p EV_PP_EXTRACT).ppGo n ppExtracted
  else s

def execSeatOpenExtract (pitch : Pitch) (s : State) : Out := .next (seatOpenExtract pitch s)

/-- A channel after the role it has changed (R432). -/
def State.ppRole (s : State) (n : Nat) : State :=
  let st := s.ppState n
  if s.ppHeld n then (if ppInsert ≤ st ∧ st ≤ ppCool then s.ppStand n else s)
  else if st = ppStandby then s.ppEnterInsert n true else s

/-- The role reaches the supervisor die over the control link (R432); while the link is down it keeps the last one (R423). -/
def roleToSupervisor (s : State) : State :=
  if s.supv.link then
    (List.range 24).foldl (fun t n => t.ppRole n) { s with supv := { s.supv with role := s.role } }
  else s

def execRoleToSupervisor (s : State) : Out := .next (roleToSupervisor s)

/-- A trip of either kind (R435). -/
def State.ppTrip (s : State) (n cause : Nat) : State :=
  let p := ppPage n
  let a := s.fg p PP_STATUS_ATTEMPTS + 1
  let s1 := ((s.gateOff n).fs p PP_STATUS_CAUSE cause).inc p PP_STATUS_ATTEMPTS
  let s2 := (s1.inc p PP_CNT_TRIPS).raise p EV_PP_TRIP
  if s.ppCfg n PP_CFG_RETRY < a then (s2.raise p EV_PP_LATCHED).ppGo n ppLatched else s2.ppGo n ppCool

/-- The instantaneous trip (R433). -/
def instantTrip (pitch : Pitch) (s : State) : State :=
  if s.ppPowered pitch.val then s.ppTrip pitch.val 2 else s

def execInstantTrip (pitch : Pitch) (s : State) : Out := .next (instantTrip pitch s)

/-- The enabled points whose timer has reached the point's time (R434). -/
def State.tripPoints (s : State) (n : Nat) : List Nat :=
  (List.range 8).filter fun k => decide (s.curve n k PP_CURVE_EN = 1) &&
    decide (s.curve n k PP_CURVE_T * 10 ≤ (s.pwr n).timers.getD k 0) && decide (0 < (s.pwr n).timers.getD k 0)

/-- A breaker timer reaches its point's time (R434). -/
def breakerTrip (pitch : Pitch) (s : State) : State :=
  let n := pitch.val
  let l := s.tripPoints n
  if s.ppPowered n = true ∧ l ≠ [] then
    let k := s.pick l
    (s.tookFree.fs (ppPage n) PP_STATUS_TRIP_POINT k).ppTrip n 1
  else s

def execBreakerTrip (pitch : Pitch) (s : State) : Out := .next (breakerTrip pitch s)

/-- The cool-down ends (R425). -/
def coolDone (pitch : Pitch) (s : State) : State :=
  if s.ppState pitch.val = ppCool then s.ppEnterInsert pitch.val true else s

def execCoolDone (pitch : Pitch) (s : State) : Out := .next (coolDone pitch s)

/-- CLEAR_LATCH in the supervisor die (R425). -/
def State.ppClearLatch (s : State) (n : Nat) : State :=
  if s.ppState n = ppLatched then (s.fs (ppPage n) PP_STATUS_ATTEMPTS 0).ppEnterInsert n false else s

def execClearLatch (who : Initiator) (pitch : Pitch) (s : State) : Out :=
  .next (s.write who (ppPage pitch.val) PP_CTRL (State.supSend (ppPage pitch.val) PP_CTRL 0x001))

/-- Power-good has been given for 10 s (R435). -/
def attemptsClear (pitch : Pitch) (s : State) : State :=
  if s.fb (ppPage pitch.val) PP_STATUS_PG then s.fs (ppPage pitch.val) PP_STATUS_ATTEMPTS 0 else s

def execAttemptsClear (pitch : Pitch) (s : State) : Out := .next (attemptsClear pitch s)

/-- The on-resistance in units of 10 µΩ (R437): (VBUS − VOUT) divided by the current that the sense code and SHUNT give; a result
outside the register's range is not stated. -/
def State.rdsValue (s : State) (n : Nat) : Nat :=
  let v := s.fg (ppPage n) PP_MEAS_VOUT
  let code := s.fg (ppPage n) PP_MEAS_I
  let q := s.roundQ ((s.supv.fd.vbus - v) * s.ppCfg n PP_SHUNT_SHUNT * 2000) code
  if s.supv.fd.vbus < v ∨ 0xFFFF ≤ q then s.freeNat 16 else q

/-- A capture takes a measurement; the sixteenth loads the mean into CAPT (R437). -/
def State.rdsCaptured (s : State) (n r : Nat) : State := match (s.pwr n).capture with
  | none => s
  | some (k, sum) =>
    if k + 1 < 16 then s.setPwr n { s.pwr n with capture := some (k + 1, sum + r) }
    else ((s.fs (ppPage n) PP_RDS_CAPT (s.roundQ (sum + r) 16)).setPwr n { s.pwr n with capture := none }).tookFree

/-- PERIOD passes in ON: the measurement, its capture and RDS_WEAR (R437). -/
def rdsMeasure (pitch : Pitch) (s : State) : State :=
  let n := pitch.val
  let p := ppPage n
  if s.ppState n = ppOn ∧ 100 ≤ s.fg p PP_MEAS_I then
    let r := s.rdsValue n
    let s1 := (s.tookFree.fs p PP_RDS_RDS r).rdsCaptured n r
    s1.raiseIf (decide (0 < s.ppCfg n PP_RDS_CFG_BASE) &&
      decide (s.ppCfg n PP_RDS_CFG_BASE * s.ppCfg n PP_RDS_CFG_WARN < r * 100)) p EV_PP_RDS_WEAR
  else s

def execRdsMeasure (pitch : Pitch) (s : State) : Out := .next (rdsMeasure pitch s)

/-- RDS_CAPTURE in the supervisor die: a capture begins (R437). -/
def State.ppCapture (s : State) (n : Nat) : State := s.setPwr n { s.pwr n with capture := some (0, 0) }

def execRdsCapture (who : Initiator) (pitch : Pitch) (s : State) : Out :=
  .next (s.write who (ppPage pitch.val) PP_CTRL (State.supSend (ppPage pitch.val) PP_CTRL 0x004))

/-- CLR_CNT in the supervisor die (R450). -/
def State.ppClrCnt (s : State) (n : Nat) : State := s.wr (ppPage n) PP_CNT 0

def execPpClrCnt (who : Initiator) (pitch : Pitch) (s : State) : Out :=
  .next (s.write who (ppPage pitch.val) PP_CTRL (State.supSend (ppPage pitch.val) PP_CTRL 0x100))

/-- A write of PP_CTRL that has reached the supervisor die. -/
def State.ppCtrl (s : State) (n : Nat) (v : Word) : State :=
  let s1 := if PP_CTRL_CLEAR_LATCH.get v = 1 then s.ppClearLatch n else s
  let s2 := if PP_CTRL_RDS_CAPTURE.get v = 1 then s1.ppCapture n else s1
  if PP_CTRL_CLR_CNT.get v = 1 then s2.ppClrCnt n else s2

/-! ### The samples -/

/-- The breaker timer of an enabled point after a sample (R434). -/
def timerStep (above : Bool) (t : Nat) : Nat := if above then t + 1 else t - 1

/-- The breaker timers of a powered channel after a sample of the sense code (R434). -/
def State.timersStep (s : State) (n code : Nat) : Map Nat :=
  (List.range 8).foldl (fun m k =>
    if s.curve n k PP_CURVE_EN = 1 then m.put k (timerStep (decide (s.curve n k PP_CURVE_I < code)) (m.getD k 0)) 0
    else m.put k 0 0) (s.pwr n).timers

/-- The time left of an enabled point's timer, in µs. -/
def State.timeLeft (s : State) (n k : Nat) : Nat := s.curve n k PP_CURVE_T * 10 - (s.pwr n).timers.getD k 0

/-- The enabled points whose timer stands nearest its time. -/
def State.nearest (s : State) (n : Nat) : List Nat :=
  let l := (List.range 8).filter fun k => decide (s.curve n k PP_CURVE_EN = 1)
  l.filter fun k => l.all fun j => decide (s.timeLeft n k ≤ s.timeLeft n j)

/-- PP_TIMER follows the timers. -/
def State.showTimer (s : State) (n : Nat) : State :=
  let k := s.pick (s.nearest n)
  ((s.fs (ppPage n) PP_TIMER_POINT k).fs (ppPage n) PP_TIMER_ELAPSED ((s.pwr n).timers.getD k 0 / 10)).tookFree

/-- The samples in a row, up to this one, in which the insertion condition holds in INSERT (R426). -/
def State.insStep (s : State) (n : Nat) : State :=
  let x := s.pwr n
  s.setPwr n { x with ins := if s.ppWindow n ∧ s.fb (ppPage n) PP_STATUS_PRESENT = true then x.ins + 1 else 0 }

/-- A sample of one pitch (R422, R426, R427, R430, R434). -/
def State.ppSample (s : State) (n code vout : Nat) : State :=
  let p := ppPage n
  let s1 := (s.fs p PP_MEAS_I (min code 1023)).fs p PP_MEAS_VOUT (min vout 511)
  if s1.ppState n = ppPrecheck ∧ 20 ≤ vout then s1.poleFail n 3 EV_PP_POLE_SHORT
  else if s1.ppState n = ppInsert then s1.insStep n
  else if s1.ppPowered n then
    let x := s1.pwr n
    (s1.setPwr n { x with timers := s1.timersStep n code, out := if s1.ppWindow n then 0 else x.out + 1 }).showTimer n
  else s1

/-! ### Feeds -/

/-- The two feeds' side of the state. -/
def State.feed (s : State) : Feed → FeedSt
  | .a => s.supv.fd.a
  | .b => s.supv.fd.b
def State.setFeeds (s : State) (x : Feeds) : State := { s with supv := { s.supv with fd := x } }
def State.setFeed (s : State) (f : Feed) (x : FeedSt) : State := match f with
  | .a => s.setFeeds { s.supv.fd with a := x }
  | .b => s.setFeeds { s.supv.fd with b := x }

/-- A configuration field of page 0x028 in force (R75). -/
def State.fdCfg (s : State) (f : Fld) : Nat := match s.supv.fd.kept with
  | some m => f.get (m.getD f.off (s.rd 0x028 f.off))
  | none => s.fg 0x028 f
def State.fdUv (s : State) : Feed → Nat
  | .a => s.fdCfg FD_WIN_A_UV
  | .b => s.fdCfg FD_WIN_B_UV
def State.fdOv (s : State) : Feed → Nat
  | .a => s.fdCfg FD_WIN_A_OV
  | .b => s.fdCfg FD_WIN_B_OV

/-- A feed is qualified, and the SEL value that names it. -/
def State.fdOk (s : State) : Feed → Bool
  | .a => s.fb 0x028 FD_STATUS_A_OK
  | .b => s.fb 0x028 FD_STATUS_B_OK
def feedSel : Feed → Nat
  | .a => 1
  | .b => 2
def State.setFdOk (s : State) (f : Feed) (v : Bool) : State := match f with
  | .a => s.fs 0x028 FD_STATUS_A_OK (bit v)
  | .b => s.fs 0x028 FD_STATUS_B_OK (bit v)
def State.setFdOv (s : State) (f : Feed) (v : Bool) : State := match f with
  | .a => s.fs 0x028 FD_STATUS_A_OV (bit v)
  | .b => s.fs 0x028 FD_STATUS_B_OV (bit v)

/-- The feed that R442 selects, as SEL gives it; 0 where none may be connected. -/
def State.fdWant (s : State) : Nat :=
  let m := s.fdCfg FD_CTRL_MODE
  let pref : Feed := if s.fdCfg FD_CTRL_PREF = 0 then .a else .b
  let other : Feed := if s.fdCfg FD_CTRL_PREF = 0 then .b else .a
  if m = 1 then (if s.fdOk .a then 1 else 0)
  else if m = 2 then (if s.fdOk .b then 2 else 0)
  else if s.fdCfg FD_CTRL_REVERT = 0 ∧ s.fg 0x028 FD_STATUS_SEL = feedSel other ∧ s.fdOk other = true then feedSel other
  else if s.fdOk pref then feedSel pref else if s.fdOk other then feedSel other else 0

/-- HU_DIS: closed during each changeover and while no feed is connected, with HU_EN 1 (R444). -/
def State.huUpdate (s : State) : State :=
  s.fs 0x028 FD_STATUS_HU_ACTIVE (bit (decide (s.fdCfg FD_HOLDUP_HU_EN = 1) &&
    (s.fb 0x028 FD_STATUS_CHANGING || decide (s.fg 0x028 FD_STATUS_SEL = 0))))

/-- HU_CHG is on: a feed is connected and the bus lies inside that feed's window, with HU_EN 1 (R444). -/
def State.huCharge (s : State) : Bool :=
  let f : Feed := if s.fg 0x028 FD_STATUS_SEL = 1 then .a else .b
  decide (s.fdCfg FD_HOLDUP_HU_EN = 1) && decide (s.fg 0x028 FD_STATUS_SEL ≠ 0) &&
    decide (s.fdUv f ≤ s.supv.fd.vbus) && decide (s.supv.fd.vbus ≤ s.fdOv f)

/-- No feed may be connected: both gates off and NO_FEED (R442). -/
def State.noFeed (s : State) : State :=
  let s1 := ((s.fs 0x028 FD_STATUS_SEL 0).fs 0x028 FD_STATUS_CHANGING 0).setFeeds { s.supv.fd with dead := false }
  ((s1.inc 0x028 FD_CNT_NO_FEED).raise 0x028 EV_FD_NO_FEED).huUpdate

/-- The selection followed after a feed or the configuration changed (R442, R443, R446). -/
def State.reselect (s : State) : State :=
  let sel := s.fg 0x028 FD_STATUS_SEL
  let w := s.fdWant
  if s.supv.fd.dead = true ∨ w = sel then s.huUpdate
  else if sel = 0 then (s.fs 0x028 FD_STATUS_SEL w).huUpdate
  else if w = 0 then s.noFeed
  else (((s.fs 0x028 FD_STATUS_SEL 0).fs 0x028 FD_STATUS_CHANGING 1).setFeeds { s.supv.fd with dead := true }).huUpdate

/-- A feed that is not qualified has stayed inside its inner window for QUAL ms (R441). -/
def State.fdGains (s : State) (f : Feed) : Bool := !s.fdOk f && decide (s.fdCfg FD_TIMING_QUAL * 1000 ≤ (s.feed f).inside)

/-- A qualified feed lies above OV, or has lain outside its window for FILT µs (R441). -/
def State.fdLoses (s : State) (f : Feed) : Bool :=
  s.fdOk f && (decide (s.fdOv f < (s.feed f).v) || decide (s.fdCfg FD_TIMING_FILT ≤ (s.feed f).out))

/-- A feed follows its samples: qualified, or no longer, with FEED_OV above OV and FEED_LOST of the connected feed (R441, R442). -/
def State.fdFollow (s : State) (f : Feed) : State :=
  if s.fdGains f then s.setFdOk f true
  else if s.fdLoses f then
    ((s.setFdOk f false).raiseIf (decide (s.fdOv f < (s.feed f).v)) 0x028 EV_FD_FEED_OV).raiseIf
      (decide (s.fg 0x028 FD_STATUS_SEL = feedSel f)) 0x028 EV_FD_FEED_LOST
  else s

/-- The other feed. -/
def otherFeed : Feed → Feed
  | .a => .b
  | .b => .a

/-- A feed has stayed inside its inner window for QUAL ms (R441); the other feed's change in the same sample is taken with it (R443). -/
def feedQualified (f : Feed) (s : State) : State :=
  if s.fdGains f then ((s.fdFollow f).fdFollow (otherFeed f)).reselect else s

def execFeedQualified (feed : Feed) (s : State) : Out := .next (feedQualified feed s)

/-- A feed outside its window for FILT µs, or above OV, stops being qualified (R441, R442); the other feed's change in the same sample
is taken with it (R443). -/
def feedLost (f : Feed) (s : State) : State :=
  if s.fdLoses f then ((s.fdFollow f).fdFollow (otherFeed f)).reselect else s

def execFeedLost (feed : Feed) (s : State) : Out := .next (feedLost feed s)

/-- The dead time of a changeover ends: the feed R442 selects now is connected, or none may be (R443). -/
def changeoverDeadEnd (s : State) : State :=
  if s.supv.fd.dead then
    if s.fdWant = 0 then s.noFeed
    else ((s.fs 0x028 FD_STATUS_SEL s.fdWant).setFeeds { s.supv.fd with dead := false }).huUpdate
  else s

def execChangeoverDeadEnd (s : State) : Out := .next (changeoverDeadEnd s)

/-- 100 µs after the new gate is enhanced the changeover is complete (R443). -/
def changeoverEnd (s : State) : State :=
  if s.fb 0x028 FD_STATUS_CHANGING ∧ s.supv.fd.dead = false then
    (((s.fs 0x028 FD_STATUS_CHANGING 0).inc 0x028 FD_CNT_CHANGEOVERS).raise 0x028 EV_FD_CHANGEOVER).huUpdate
  else s

def execChangeoverEnd (s : State) : Out := .next (changeoverEnd s)

/-- CLR_CNT of the feeds in the supervisor die. -/
def State.fdClr (s : State) : State := s.wr 0x028 FD_CNT 0

def execFdClrCnt (who : Initiator) (s : State) : Out :=
  .next (s.write who 0x028 FD_CTRL (State.supSend 0x028 FD_CTRL ((s.rdSh 0x028 FD_CTRL) ||| 0x100)))

/-- A disturbance after a sample (R447): begun by the first sample outside the window, followed until it ends. -/
def distStep (aon v uv ov : Nat) (d : Option Disturb) : Option Disturb :=
  let below := decide (v < uv)
  let above := decide (ov < v)
  match d with
  | none => if below || above then some ⟨aon, v, v, 1, 1, below, above⟩ else none
  | some x =>
    some { x with lo := min x.lo v, hi := max x.hi v, n := x.n + 1, last := if below || above then x.n + 1 else x.last,
                  below := x.below || below, above := x.above || above }

/-- A sample of one feed (R422, R441, R447). -/
def State.fdSample (s : State) (f : Feed) (v : Nat) : State :=
  let uv := s.fdUv f
  let ov := s.fdOv f
  let x := s.feed f
  (s.setFeed f { v := v,
                 inside := if uv + 5 ≤ v ∧ v + 5 ≤ ov then x.inside + 1 else 0,
                 out := if v < uv ∨ ov < v then x.out + 1 else 0,
                 dist := distStep s.gs.aon v uv ov x.dist }).setFdOv f (decide (ov < v))

/-- HU_OK and HU_LOW (R444). -/
def State.huSample (s : State) (hu : Nat) : State :=
  let ok := decide (s.fdCfg FD_HOLDUP_HU_EN = 1) && decide (s.fdCfg FD_HOLDUP_HU_MIN ≤ hu)
  let fell := s.fb 0x028 FD_STATUS_HU_OK && !ok && decide (s.fdCfg FD_HOLDUP_HU_EN = 1)
  (s.fs 0x028 FD_STATUS_HU_OK (bit ok)).raiseIf fell 0x028 EV_FD_HU_LOW

/-- The supervisor die's 1 µs sample (R422): the feeds and the hold-up capacitor, then each pitch. -/
def supervisorSample (x : SupSample) (s : State) : State :=
  let s1 := s.setFeeds { s.supv.fd with vbus := x.vbus, hu := x.hu }
  let s2 := ((s1.fdSample .a x.va).fdSample .b x.vb).huSample x.hu
  let s3 := (s2.fs 0x028 FD_VFEED_LO (min x.va 511)).fs 0x028 FD_VFEED_HI (min x.vb 511)
  let s4 := (s3.fs 0x028 FD_VBUS_LO (min x.vbus 511)).fs 0x028 FD_VBUS_HI (min x.hu 511)
  (List.range 24).foldl (fun t n => t.ppSample n (x.pitches.getD n (0, 0)).1 (x.pitches.getD n (0, 0)).2) s4

def execSupervisorSample (smp : SupSample) (s : State) : Out := .next (supervisorSample smp s)

/-! ### The disturbance recorder -/

/-- The smallest exponent whose mantissa, rounded up, fits 8 bits (R448). -/
def durExp (dur : Nat) : Nat → Nat → Nat
  | 0, e => e
  | fuel + 1, e => if e < 15 ∧ 255 < (dur + 4 ^ e - 1) / 4 ^ e then durExp dur fuel (e + 1) else e

/-- Word 1 of an entry (R448). KIND of a disturbance both below UV and above OV, and the rounding to 200 mV, are not stated. -/
def State.distWord (s : State) (f : Feed) (d : Disturb) : Word :=
  let e := durExp d.last 15 0
  let m := min 255 ((d.last + 4 ^ e - 1) / 4 ^ e)
  let kind := if d.lo < 20 then 2 else if d.below && d.above then s.freeNat 1 else if d.below then 0 else 1
  BitVec.ofNat 32 ((1 <<< 31) ||| ((feedSel f - 1) <<< 30) ||| (kind <<< 28) ||| (min 255 (s.tookFree.roundQ d.lo 2) <<< 20) |||
    (min 255 (s.tookFree.tookFree.roundQ d.hi 2) <<< 12) ||| (e <<< 8) ||| m)

/-- The disturbance has been inside the window for 1 ms: the groundsheet writes an entry (R447, R448). -/
def disturbanceEnd (f : Feed) (s : State) : State := match (s.feed f).dist with
  | none => s
  | some d =>
    if d.n < d.last + 1000 then s
    else
      let i := s.gs.distNext
      let s1 := (s.setFeed f { s.feed f with dist := none }).wr 0 (0x200 + 8 * i) (BitVec.ofNat 32 (d.aon / 32))
      let s2 := (s1.wr 0 (0x204 + 8 * i) (s.distWord f d)).raise 0x028 EV_FD_DISTURB
      { s2 with gs := { s2.gs with distNext := (i + 1) % 64 }, fresh := s2.fresh + 3 }

def execDisturbanceEnd (feed : Feed) (s : State) : Out := .next (disturbanceEnd feed s)

/-- A read of word 0 of an entry latches word 1 of the same entry (R448). -/
def distRead (i : Nat) (s : State) : State × Word :=
  ({ s with gs := { s.gs with distLatch := some (i, s.rd 0 (0x204 + 8 * i)) } }, s.rd 0 (0x200 + 8 * i))

/-- A read of word 1: the latched word of that entry, else the word itself (R448). -/
def State.distRead1 (s : State) (i : Nat) : Word := match s.gs.distLatch with
  | some (j, w) => if i = j then w else s.rd 0 (0x204 + 8 * i)
  | none => s.rd 0 (0x204 + 8 * i)

def execDisturbEntryRead (who : Initiator) (entry : Fin 64) (s : State) : Out :=
  .next (s.read who 0 (0x200 + 8 * entry.val) (distRead entry.val))

/-! ### Commits of the supervisor's pages -/

/-- The fields of page 0x030 + n whose shadow lies outside its range (R450), lowest offset first. -/
def State.ppRange (s : State) (p : Nat) : Option Nat :=
  let bad (f : Fld) (lo hi : Nat) : Bool := decide (s.fgSh p f < lo) || decide (hi < s.fgSh p f)
  if bad PP_CFG_PRES_DEB 1 255 || bad PP_CFG_COOL 10 65535 then some PP_CFG
  else if bad PP_INS_DELAY 10 10000 then some PP_INS
  else if bad PP_WIN_FILT 10 1000 || bad PP_WIN_OV 180 400 || bad PP_WIN_UV 100 320 then some PP_WIN
  else if bad PP_RAMP_SLEW 1 255 || bad PP_RAMP_PRE 1 255 || bad PP_RAMP_RAMP_MAX 1 1000 then some PP_RAMP
  else if bad PP_IINST_IINST 10 200 then some PP_IINST
  else if bad PP_RDS_CFG_WARN 101 255 || bad PP_RDS_CFG_PERIOD 1 255 then some PP_RDS_CFG
  else if bad PP_SHUNT_SHUNT 1 65535 then some PP_SHUNT
  else ((List.range 8).find? fun k => s.fbSh p (PP_CURVE_EN.at (4 * k)) &&
      (bad (PP_CURVE_I.at (4 * k)) 1 1000 || bad (PP_CURVE_T.at (4 * k)) 1 1048575)).map fun k => PP_CURVE + 4 * k

/-- The enabled points of the shadow, as I, T and offset, in ascending k. -/
def State.points (s : State) (p : Nat) : List (Nat × Nat × Nat) :=
  (List.range 8).filterMap fun k => if s.fbSh p (PP_CURVE_EN.at (4 * k)) then
    some (s.fgSh p (PP_CURVE_I.at (4 * k)), s.fgSh p (PP_CURVE_T.at (4 * k)), PP_CURVE + 4 * k) else none

/-- The first point that breaks the order of R450: I strictly increasing and T strictly decreasing. -/
def pointsBad : List (Nat × Nat × Nat) → Option Nat
  | a :: b :: l => if a.1 < b.1 ∧ b.2.1 < a.2.1 then pointsBad (b :: l) else some b.2.2
  | _ => none

/-- Why a commit of page 0x030 + n is refused: REASON and offset (R450). -/
def State.ppCheck (s : State) (p : Nat) : Option (Nat × Nat) := match s.ppRange p with
  | some off => some (1, off)
  | none =>
    if s.points p = [] then some (0x80, PP_CURVE)
    else match pointsBad (s.points p) with
      | some off => some (0x80, off)
      | none =>
        if s.fgSh p PP_IINST_IINST * 10 ≤ ((s.points p).map (·.1)).foldl max 0 then some (0x81, PP_IINST)
        else if s.fgSh p PP_WIN_OV ≤ s.fgSh p PP_WIN_UV then some (0x82, PP_WIN) else none

/-- After a commit of a power page: its new values are in force (R75), the role and ENABLE are followed. -/
def State.ppCommitted (s : State) (n : Nat) : State :=
  let was := (s.pwr n).kept.isSome
  let s1 := s.setPwr n { s.pwr n with kept := none }
  let s2 := if was ∧ s1.enabled (ppPage n) = false ∧ s1.ppState n ≠ ppOff then s1.ppStop n else s1
  s2.ppRole n

/-- Why a commit of page 0x028 is refused (R451). -/
def State.fdCheck (s : State) : Option (Nat × Nat) :=
  let bad (f : Fld) (lo hi : Nat) : Bool := decide (s.fgSh 0x028 f < lo) || decide (hi < s.fgSh 0x028 f)
  if s.fgSh 0x028 FD_CTRL_MODE = 3 then some (1, FD_CTRL)
  else if bad FD_WIN_A_OV 190 400 || bad FD_WIN_A_UV 100 320 then some (1, FD_WIN_A)
  else if bad FD_WIN_B_OV 190 400 || bad FD_WIN_B_UV 100 320 then some (1, FD_WIN_B)
  else if bad FD_TIMING_DEAD 1 20 || bad FD_TIMING_FILT 1 1000 || bad FD_TIMING_QUAL 1 10000 then some (1, FD_TIMING)
  else if s.fgSh 0x028 FD_WIN_A_OV < s.fgSh 0x028 FD_WIN_A_UV + 10 then some (0x80, FD_WIN_A)
  else if s.fgSh 0x028 FD_WIN_B_OV < s.fgSh 0x028 FD_WIN_B_UV + 10 then some (0x80, FD_WIN_B)
  else if (if s.fgSh 0x028 FD_CTRL_PREF = 0 then s.fgSh 0x028 FD_WIN_A_UV else s.fgSh 0x028 FD_WIN_B_UV) ≤
      s.fgSh 0x028 FD_HOLDUP_HU_MIN then some (0x81, FD_HOLDUP)
  else none

/-- After a commit of page 0x028 the new values are in force (R75, R442). -/
def State.fdCommitted (s : State) : State := (s.setFeeds { s.supv.fd with kept := none }).reselect

/-- The words of a page from 0x040 to 0x07F, in force when a reset takes the registers back (R75). -/
def State.inForce (s : State) (p : Nat) (kept : Option (Map Word)) : Map Word := match kept with
  | some m => m
  | none => (List.range 16).map fun i => (0x040 + 4 * i, s.rd p (0x040 + 4 * i))

end Sys2Proof.Machine
end

