-- ==== Sys2Proof/Machine/Reply.lean ====
section
/-! DEFINITION. How a request of another hub ends at its target, and what becomes of an access whose block is reset while it waits
(chapter 13). -/
namespace Sys2Proof.Machine

/-- The offset of a transaction frame, and its length in words. -/
def Hdr.offset (h : Hdr) : Nat := h.argBits 0 33
def Hdr.tag (h : Hdr) : Nat := h.argBits 33 8
def Hdr.words (h : Hdr) : Nat := h.argBits 41 7 + 1

/-- A completion of a request (R371). -/
def State.complete (s : State) (f : Frame) (rsp : Nat) (take : Bool) (payload : List Byte) : State :=
  s.originate portBridge
    { hdr := { cls := .T, mtype := 0x08, dst := f.hdr.src, src := s.hubId, stream := f.hdr.stream
               arg := f.hdr.tag + 256 * rsp + 2048 * bit take }
      payload := payload }

/-- The sequence table's entry of a source and window (R381). -/
def seqKey (src w : Nat) : Nat := src * 32 + w
def State.seqNote (s : State) (src w wseq : Nat) (sync : Bool) : State :=
  let e := s.br.seq.getD (seqKey src w) {}
  let gap := e.gap || (!sync && (!e.valid || decide (wseq ≠ (e.wseq + 1) % 65536)))
  { s with br := { s.br with seq := s.br.seq.put (seqKey src w) { wseq := wseq, valid := e.valid || sync, gap := gap } {} } }

/-- A request ends: a non-posted one is completed and gives its incoming tag back; a posted write updates its entry, and a failed one
returns a LATE_WR (R373, R381). -/
def State.reqDone (s : State) (f : Frame) (rsp : Nat) (take : Bool) (data : List Byte) : State :=
  let s1 : State := { s with br := { s.br with serving := s.br.serving.erase f } }
  if f.hdr.mtype ≠ 0x05 then s1.complete f rsp take (if rsp = rspOk then data else [])
  else
    let b := leAt f.payload 1 1
    let w := b % 32
    let wseq := leAt f.payload 2 2
    if nbit b 5 then s1
    else
      let s2 := s1.seqNote f.hdr.src w wseq (nbit b 7)
      if rsp = rspOk then s2
      else s2.originate portBridge
        { hdr := { cls := .T, mtype := 0x09, dst := f.hdr.src, src := s.hubId, stream := f.hdr.stream, arg := w + 256 * wseq + 2 ^ 24 * rsp }
          payload := leBytes f.hdr.offset 5 ++ [0, 0, 0] }

/-- An access that waits for a block which is reset ends with NOT_READY: at the port of this hub it came from, or as the request of
another hub it belongs to. -/
def State.accessEnds (s : State) (who : Initiator) : Option Frame → State
  | some f => s.reqDone f rspNotReady false []
  | none => match who with
    | .host => ({ s with host := none } : State).answer .host rspNotReady 0
    | .spi => ({ s with spi := none } : State).answer .spi rspNotReady 0
    | w => s.answer w rspNotReady 0

end Sys2Proof.Machine
end

