-- ==== Sys2Proof/Machine/Slots.lean ====
section
/-! DEFINITION. The firmware slots, their manifests, the chunk map and the floors (chapter 18), as resets and the update block read
them. -/
namespace Sys2Proof.Machine

/-- The base of a slot (R80), and the slot that is not the active one (R492). -/
def slotBase (k : Nat) : Nat := 0x180000 * k
def State.idleSlot (s : State) : Nat := 1 - s.up.active

/-! ### Manifest (R493) -/

/-- An entry of a manifest. -/
structure Entry where
  comp : Nat
  svn : Nat
  cardType : Nat
  version : Nat
  size : Nat
  first : Nat
  reserved : Nat
  digest : List Byte
  sig : List Byte
deriving DecidableEq, Repr

/-- Entry `i` of the manifest of a slot. -/
def State.entry (s : State) (slot i : Nat) : Entry :=
  let a := slotBase slot + 0x50 + 112 * i
  { comp := s.mle a 1, svn := s.mle (a + 1) 1, cardType := s.mle (a + 2) 2, version := s.mle (a + 4) 4, size := s.mle (a + 8) 4,
    first := s.mle (a + 12) 2, reserved := s.mle (a + 14) 2, digest := s.mbytes (a + 16) 32, sig := s.mbytes (a + 48) 64 }

/-- COUNT, MAN_SEQ and NODE of a manifest; a COUNT above 11 is taken as 11. -/
def State.manCount (s : State) (slot : Nat) : Nat := min 11 (s.mle (slotBase slot + 6) 2)
def State.manSeq (s : State) (slot : Nat) : Nat := s.mle (slotBase slot + 8) 4
def State.manNode (s : State) (slot : Nat) : Bool := decide (s.mle (slotBase slot + 12) 1 % 2 = 1)

/-- The entries of a manifest. -/
def State.entries (s : State) (slot : Nat) : List Entry := (List.range (s.manCount slot)).map (s.entry slot)

/-- The entry of a component other than card firmware. -/
def State.compEntry (s : State) (slot comp : Nat) : Option Entry := (s.entries slot).find? fun e => decide (e.comp = comp)

/-- VERSION of a component in a slot; 0 where the slot has none. -/
def State.compVersion (s : State) (slot comp : Nat) : Nat := ((s.compEntry slot comp).map (·.version)).getD 0

/-- The pieces of an entry (R492). -/
def Entry.pieces (e : Entry) : List Nat := (List.range ((e.size + 4095) / 4096)).map (e.first + ·)

/-! ### Chunk map (R496) -/

def mapBase : Nat := 0x338100
/-- A piece is complete: all 8 of its chunk bits. -/
def State.pieceOk (s : State) (p : Nat) : Bool := decide (s.mb (mapBase + p) = 0xFF)

/-- A chunk's bit as it stands in the MRAM after the chunk's write has ended, well or cut off. -/
def State.setChunk (s : State) (c : Nat) (v : Bool) : State :=
  s.mwr (mapBase + c / 8) [BitVec.ofNat 8 (setBit (s.mb (mapBase + c / 8)).toNat (c % 8) v)]

/-- Complete pieces, and UP_MAP word `k`. -/
def State.piecesDone (s : State) : Nat := ((List.range 384).filter s.pieceOk).length
def State.mapWord (s : State) (k : Nat) : Word :=
  BitVec.ofNat 32 ((List.range 32).foldl (fun n j => setBit n j (s.pieceOk (32 * k + j))) 0)

/-! ### Floors (R494, R507) -/

/-- The floor of component `k`: 1 bits in a row from bit 0 of its field. -/
def State.floorOf (s : State) (k : Nat) : Nat :=
  let w (b : Nat) : Bool := nbit (s.gs.fuseHeld.getD (64 + 8 * k + b / 32) 0).toNat (b % 32)
  ((List.range 255).find? fun b => !w b).getD 255

/-- The fuse bits to program for one entry: floor to SVN − 1 of its component's field. -/
def State.floorBits (s : State) (e : Entry) : List Nat :=
  let k := e.comp - 1
  ((List.range e.svn).filter fun b => decide (s.floorOf k ≤ b)).map fun b => 32 * (64 + 8 * k) + b

/-- One bit of a floor programmed and seen; `none` in place of the remaining bits once one has failed. -/
def State.burnFloor (s : State) (b : Nat) : State :=
  let put (m : Map Word) : Map Word := m.put (b / 32) (m.getD (b / 32) 0 ||| BitVec.ofNat 32 (1 <<< (b % 32))) 0
  { s with gs := { s.gs with fuse := put s.gs.fuse, fuseHeld := put s.gs.fuseHeld } }

/-- The floors raised for the entries of the active slot, in ascending order. The bit `bad` fails its check: its component's raise ends
there, FLOOR_FAIL is raised, and the raise is attempted again after the next L0 reset. -/
def State.raiseFloors (s : State) (bad : Option Nat) : State :=
  let s0 := { s with up := { s.up with floorOwed := false } }
  (s.entries s.up.active).foldl (fun (t : State) e =>
    let l := t.floorBits e
    let t1 := (l.takeWhile fun b => decide (some b ≠ bad)).foldl State.burnFloor t
    if l.any fun b => decide (some b = bad) then
      ({ t1 with up := { t1.up with floorOwed := true } } : State).raise 0x290 EV_UP_FLOOR_FAIL
    else t1) s0

/-- The raise attempted again after an L0 reset; whether a bit fails again is open. -/
def State.retryFloors (s : State) : State :=
  if !s.up.floorOwed then s
  else
    let l := ((s.entries s.up.active).map s.floorBits).flatten
    (if s.freeNat 1 = 0 then s.raiseFloors none else s.raiseFloors (l.head?)).tookFree

/-! ### State -/

def State.upState (s : State) : Nat := s.fg 0x290 UP_STATUS_STATE
def State.setUpState (s : State) (v : Nat) : State := s.fs 0x290 UP_STATUS_STATE v

/-- A strike armed is given up, with CMD_REFUSED (R499, R500). -/
def State.disarmed (s : State) : State :=
  if s.upState = 3 then
    (({ s with up := { s.up with strikeAt := none, turn := false } } : State).setUpState 2).raise 0x290 EV_UP_CMD_REFUSED
  else s

/-- The update state that survives every reset, in MRAM. -/
def Up.kept (u : Up) : Up :=
  { active := u.active, trial := u.trial, recSeq := u.recSeq, seq := u.seq, failing := u.failing, floorOwed := u.floorOwed }

end Sys2Proof.Machine
end

