-- ==== Sys2Proof/Machine/BlockReset.lean ====
section
/-! DEFINITION. What an L3 reset does inside each block (R44, R72), the islands and their pages, and holding an island in reset
(R88-R90). -/
namespace Sys2Proof.Machine

/-! ### Islands -/

/-- The pages of each island (R10, R312): 0, 1 ring East and West, 2 time, 3 core, 4 twin, 5-10 card quads, 11-34 clusters, 35 scan, 36
bridge, 37 host, 38 lantern, 39 the routing block. -/
def islandPages (i : Nat) : List Nat :=
  if i = 0 then [0x008] else if i = 1 then [0x009] else if i = 2 then [0x018]
  else if i = 3 then [0x010, 0x011, 0x012, 0x013, 0x014] else if i = 4 then [0x024]
  else if i < 11 then (List.range 4).map fun k => 0x050 + 4 * (i - 5) + k
  else if i < 35 then (0x080 + (i - 11)) :: (List.range 9).map fun k => 0x100 + 9 * (i - 11) + k
  else if i = 35 then [0x01C] else if i = 36 then [0x020, 0x004, 0x005, 0x280, 0x290] else if i = 37 then [0x021]
  else if i = 39 then (List.range 128).map (0x200 + ·) else []

/-- The island of a page; the ring common page lives with the ring islands, and the groundsheet's and the supervisor die's pages in
none. -/
def pageIsland (p : Nat) : Option Nat :=
  match kindOf p with
  | some .rp => some (p - 0x008) | some .rc => some 0 | some .core => some 3 | some .q => some 3 | some .tm => some 2
  | some .sc => some 35 | some .br => some 36 | some .ft => some 36 | some .wr => some 36 | some .mem => some 36
  | some .up => some 36 | some .hp => some 37 | some .tw => some 4 | some .cl => some (5 + (p - 0x050) / 4)
  | some .ec => some (11 + (p - 0x080)) | some .en => some (11 + (p - 0x100) / 9) | some .rt => some 39 | some .sm => some 39
  | _ => none

/-- The PLL of an island (R10, R485); the host island runs on the host clock. -/
def islandPll (i : Nat) : Option Nat :=
  if i < 2 then some 0 else if i = 2 then some 9 else if i = 3 then some 1 else if i = 4 then some 11
  else if i < 11 then some (i - 3) else if i < 35 then some 8 else if i < 37 then some 10
  else if i = 38 then some 12 else if i = 39 then some 8 else none

/-- The island's clock runs: its PLL or the spare has locked (R89, R485). -/
def State.clocked (s : State) (i : Nat) : Bool := match islandPll i with
  | some k => s.pll.getD k false ||
      (s.spll.getD k false && (nbit (s.fg 0x005 WR_PLL_STATUS_ON_SPARE) k || !nbit (s.fg 0x005 WR_PLL_STATUS_SPARE_BAD) k))
  | none => true

/-- The bit of GS_HOLD that holds an island. -/
def holdBit (i : Nat) : Nat :=
  if i < 2 then 0 else if i = 2 then 2 else if i = 3 then 1 else if i = 4 then 5 else if i < 11 then 8 + (i - 5)
  else if i < 35 then 14 else if i = 35 then 3 else if i = 36 then 4 else if i = 37 then 7 else if i = 38 then 6 else 14

def State.setIsl (s : State) (i : Nat) (x : Isl) : State := { s with isl := s.isl.put i x {} }

/-! ### L3 of a block (R44, R72) -/

/-- The header after RESET_BLOCK: ENABLE, EVT_STATUS and COMMIT_PENDING cleared, a pending commit discarded; EVT_ENABLE, COMPAT and
FAULT_LINK unchanged (R44). -/
def State.headReset (s : State) (p : Nat) : State :=
  let s1 := if s.commitPending p then s.endCommit p 5 6 0 else s
  let s2 := ((s1.fs p PAGE_CTRL_ENABLE 0).fs p PAGE_STATE_RUNNING 0).wr p EVT_STATUS 0
  { s2 with stopping := s2.stopping.filter (· != p) }

/-- Every block register and shadow at its reset value, but the registers `keep` names. -/
def State.regsReset (s : State) (p : Nat) (keep : Nat → Bool) : State :=
  { s with regs := s.regs.drop (fun k => inPage p 0x040 k && !keep (k % 4096)), shad := s.shad.drop (inPage p 0) }

/-- A port with lanes at an L3 of its page: out of service, its lanes and credit as after reset, its queues flushed (R211). The previous
capability exchange and the last GUY frame's source are cleared by L0 and L1 only (R113, R145). -/
def State.portReset (s : State) (p : LanePort) : State :=
  let x := s.port p
  let s1 := s.regsReset p.page fun o => decide (p ≠ .twin) && decide (o = RP_NEIGHBOUR)
  let s2 := s1.setPort p { partner := x.partner, guyEver := x.guyEver }
  let s3 := [Cls.E, .T, .B, .M].foldl (fun (t : State) c => t.setCr p c {}) s2
  s3.flushPortReset (laneCore p)

/-- A ring port's L3: RP_NEIGHBOUR keeps GUY_HUB only, and a port that was ACTIVE wraps where it may (R147). -/
def State.ringReset (s : State) (p : RingPort) : State :=
  let act := s.portActive p.lanes
  let hub := s.fg p.page RP_NEIGHBOUR_GUY_HUB
  let s1 := (s.portReset p.lanes).wr p.page RP_NEIGHBOUR 0
  let s2 := s1.fs p.page RP_NEIGHBOUR_GUY_HUB hub
  let s3 := if act && s2.mayWrap p then s2.wrap p else s2
  s3.twinWatch

/-- The engines' side of the channels of a cluster at a reset: every FIFO, decoder and buffer in its initial state. -/
def State.chansReset (s : State) (n : Nat) : State :=
  (List.range 8).foldl (fun (t : State) c => (t.stopOut n c).setChan n c { ((t.stopOut n c).chan n c).fresh with reps := [], mig := none }) s

/-- An access of a port that waits for a completion ends with TIMEOUT (R543). -/
def State.heldTimeout (s : State) (h : Holder) : State := match h with
  | .access .host => ({ s with host := none } : State).answer .host rspTimeout 0
  | .access .spi => ({ s with spi := none } : State).answer .spi rspTimeout 0
  | .access w => s.answer w rspTimeout 0
  | _ => s

/-- R543: every outgoing tag, slot and fence of the bridge ends, with its group buffers, and the accesses held for a bank's new owner or in
the guard. -/
def State.brReset (s : State) : State :=
  let held := (s.br.tags.filterMap fun e => e.2.map fun t => t.fwd.holder) ++ s.br.waits.map (·.holder) ++
    (s.mem.held.map fun h => Holder.access h.who) ++ s.scan.waits.map fun e => Holder.access e.1
  held.foldl State.heldTimeout { s with
    br := {}, mem := { s.mem with held := [] }, scan := { s.scan with packs := [], snaps := [], waits := [] } }

/-- The accesses waiting for the boundary when the scan unit is reset end. -/
def State.waitsEnd (s : State) : State :=
  s.scan.waits.foldl (fun (t : State) e => t.accessEnds e.1 e.2) { s with scan := { s.scan with waits := [] } }

/-- The accesses held for a bank's new owner when the memories block is reset end, but those their initiator abandoned. -/
def State.spHeldEnd (s : State) : State :=
  (s.mem.held.filter fun h => !h.gone).foldl (fun (t : State) h => t.accessEnds h.who h.req) { s with mem := { s.mem with held := [] } }

/-- The registers of page 0x290 that the update state in MRAM gives at every reset: STATE, ACTIVE_SLOT and UP_SEQ (R498). A record in
TRIAL shows TRIAL; with chunks written since the last CLEAR the state is LOADING, else IDLE. -/
def State.upShow (s : State) : State :=
  let loaded := (s.mbytes 0x338100 384).any (· != 0)
  (((s.fs 0x290 UP_STATUS_STATE (if s.up.trial then 4 else if loaded then 1 else 0)).fs 0x290 UP_STATUS_ACTIVE_SLOT
    s.up.active).wr 0x290 UP_SEQ (BitVec.ofNat 32 s.up.seq))

/-- An L3 or deeper reset of the update block beside its registers. -/
def State.upReset (s : State) : State :=
  ({ s with up := s.up.kept } : State).upShow

/-- The supervisor die's page at its reset values, with what stays in force (R75). -/
def State.supReset (s : State) (p : Nat) : State :=
  if p = 0x028 then
    (s.setFeeds { s.supv.fd with kept := some (s.inForce p s.supv.fd.kept) }).regsReset p fun o => decide (o = FD_STATUS) ||
      decide (o = FD_VFEED) || decide (o = FD_VBUS)
  else
    (s.setPwr (p - 0x030) { s.pwr (p - 0x030) with kept := some (s.inForce p (s.pwr (p - 0x030)).kept), capture := none }).regsReset p
      fun o => decide (o = PP_STATUS) || decide (o = PP_TIMER)

/-- The registers of page 0x000 that show what its L3 leaves as it is (R72): the last record, the AON count and the recorder; the ready
vector; the reader, its identifier in use and the straps. -/
def gsShows (o : Nat) : Bool :=
  decide (o ≤ GS_READY_EC) || decide (o = GS_OPT_STATUS) || decide (o = GS_HUB_ID) || decide (o = GS_STRAPS) || decide (0x200 ≤ o)

/-- The matrices whose owner no longer runs stop with it (R314); a commit that pends there has its point at the next COMMIT_POINT. -/
def State.smFall (s : State) : State :=
  ((List.range 64).map (0x240 + ·)).foldl
    (fun t m => if t.running m && (t.ttOwner m).isNone then t.setState m PAGE_STATE_RUNNING false else t) s

/-- A matrix page at its reset values: the channel it served has no schedule any more (R312). -/
def State.smReset (s : State) (p : Nat) : State :=
  let t := s.regsReset p fun _ => false
  if s.fb p SM_OWNER_VALID ∧ s.fg p SM_OWNER_PITCH < 24 then t.ttInit (s.fg p SM_OWNER_PITCH) (s.fg p SM_OWNER_CHAN) else t

/-- What the L3 reset does inside the block, after its header (R72). Page 0x002 has no block registers, and the reference and PLL state of
page 0x005 is that of the clocks (R484, R485). -/
def State.insideReset (s : State) (p : Nat) : State :=
  match kindOf p with
  | some .gs => s.regsReset p gsShows
  | some .opt => s.regsReset p fun o => decide (o = OPT_ACTIVE_GEN)
  | some .ft => ({ s with ft := {}, gs := { s.gs with cfgErr := false } } : State).regsReset p fun o =>
      decide (FT_ISO ≤ o) && decide (o < FT_ISO + 32)
  | some .wr => ({ s with wear := { base := s.wear.base, tj := s.wear.tj, refBad := s.wear.refBad } } : State).regsReset p fun o =>
      decide (o = WR_REF_STATUS) || decide (o = WR_PLL_STATUS)
  | some .rp => s.ringReset (if p = 0x008 then .east else .west)
  | some .core =>
    (s.coreDiscard.queuesClr.regsReset p fun _ => false).fs p PAGE_STATE_SPARED 0
  | some .tm => (s.regsReset p fun _ => false).tmReset
  | some .sc =>
    let s0 := s.disarmed.waitsEnd
    let k : ScanSt := { vis := s.scan.vis, ptr := s.scan.ptr, ue := s.scan.ue, ce := s.scan.ce, packs := s.scan.packs,
                        snaps := s.scan.snaps }
    let s1 := { s0 with scan := k }
    (s1.flushPortReset portScan).regsReset p fun _ => false
  | some .br => (s.brReset.flushPortReset portBridge).regsReset p fun _ => false
  | some .hp => ({ s with gs := { s.gs with cfgHost := false }, host := none } : State).regsReset p fun _ => false
  | some .tw => ({ (s.portReset .twin) with tw := {} } : State).twinStart
  | some .fd => s.supReset p
  | some .pp => s.supReset p
  | some .cl =>
    let n := p - 0x050
    let s1 := if s.clState n = 5 then (s.clGaps n (s.clBase n)).portLost (portCluster n) else s
    (s1.setCard n {}).regsReset p fun _ => false
  | some .ec =>
    let n := p - 0x080
    (((s.chansReset n).flushPortReset (portCluster n)).regsReset p fun o => decide (o = EC_UCODE)).fs p PAGE_STATE_SPARED 0
  | some .en =>
    let n := enCluster p
    let s1 := match s.servedBy n (enPos p) with
      | some c => (s.stopOut n c).setChan n c ((s.stopOut n c).chan n c).fresh
      | none => s
    (s1.regsReset p fun _ => false).smFall
  | some .sm => s.smReset p
  | some .mem => (s.spHeldEnd.regsReset p fun _ => false).memReset
  | some .up => (s.regsReset p fun _ => false).upReset
  | some _ => s.regsReset p fun _ => false
  | none => s

/-- An L3 reset of a page's block (R44, R72). -/
def State.blockReset (s : State) (p : Nat) : State := (s.headReset p).insideReset p

/-! ### Islands held in reset (R90) -/

/-- A block goes into reset and is no longer READY. -/
def State.blockDown (s : State) (p : Nat) : State := (s.blockReset p).setState p PAGE_STATE_READY false

/-- The blocks of an island go into L3 reset and the island is no longer released. A cluster loses its microcode; the ring common page
goes with the second ring island. -/
def State.islandDown (s : State) (i : Nat) : State :=
  let s1 := (islandPages i).foldl State.blockDown (s.setIsl i {})
  let s2 := if i < 2 ∧ !s1.islUp (1 - i) then s1.blockDown 0x00A else s1
  let s3 := if 11 ≤ i ∧ i < 35 then
    ({ s2 with gs := { s2.gs with loading := s2.gs.loading.filter (· != i - 11) }, ucode := s2.ucode.erase (i - 11) } : State).wr (ecPage (i - 11)) EC_UCODE 0 else s2
  if i = 38 then
    let s4 := s3.flushPortReset portLantern
    { s4 with gs := { s4.gs with wdog := false } }
  else s3

/-- An L3 reset of an island: down, and released again when its synchronizer allows, unless GS_HOLD or an isolation holds it (R89). -/
def State.islandReset (s : State) (i : Nat) : State :=
  let s1 := s.islandDown i
  s1.setIsl i { rel := false, req := !nbit (s1.rd 0 GS_HOLD).toNat (holdBit i) }

end Sys2Proof.Machine
end

