-- ==== Sys2Proof/Machine/Reset.lean ====
section
/-! DEFINITION. Resets of the hub (chapter 3): recognition, levels, what each level clears, the option-byte reader up to its records,
and the release of islands. -/
namespace Sys2Proof.Machine

/-! ### Levels (R65, R66) -/

/-- The fuse entry of a source code. -/
def State.fuseEntry (s : State) (n : Nat) : Nat := (s.gs.fuseHeld.getD (24 + n / 8) 0).toNat / 16 ^ (n % 8) % 16

/-- The levels permitted for a source, and its default. -/
def levelsOf (cause : Nat) : List Nat :=
  if cause = 1 then [0] else if cause = 2 ∨ cause = 3 then [0, 1, 2] else if cause = 4 then [1, 2, 3]
  else if cause = 7 then [0, 1, 2, 3] else if cause = 8 ∨ cause = 9 then [0, 1] else [1, 2]
def levelDefault (cause : Nat) : Nat :=
  if cause = 1 ∨ cause = 2 then 0 else if cause = 3 ∨ cause = 8 ∨ cause = 9 then 1 else if cause = 4 then 3 else 2

/-- An entry overrides its source's level: OVERRIDE 1 and a permitted level; the entry of power-on is ignored. -/
def State.override (s : State) (cause : Nat) : Option Nat :=
  let e := s.fuseEntry cause
  if cause ≠ 1 ∧ 8 ≤ e ∧ (levelsOf cause).contains (e % 4) then some (e % 4) else none

/-- The level of a source. -/
def State.levelOf (s : State) (cause : Nat) : Nat := (s.override cause).getD (levelDefault cause)

/-- The level of a fault reaction that asks for `lv`: no deeper than the entry. -/
def State.faultLevel (s : State) (lv : Nat) : Nat := match s.override 7 with
  | some m => max lv m
  | none => lv

/-- An entry with OVERRIDE 1 and a level not permitted for its source (R66). -/
def State.levelInvalid (s : State) : Bool :=
  (List.range 11).any fun c => decide (2 ≤ c) && decide (8 ≤ s.fuseEntry c) && !(levelsOf c).contains (s.fuseEntry c % 4)

/-! ### What a reset clears (R72) -/

/-- The pages an L2 reset keeps. -/
def l2Keeps (p : Nat) : Bool :=
  decide (p = 0x002) || (decide (0x008 ≤ p) && decide (p ≤ 0x00A)) || decide (p = 0x028) || (decide (0x030 ≤ p) && decide (p ≤ 0x047))

/-- The lane counters of the twin page, which L0 and L1 clear and L2 keeps (R118). -/
def twinCount (o : Nat) : Bool := decide (o = LN_PORT_CNT) || (decide (o % 16 = LN_CNT % 16) && decide (LN_CNT ≤ o) && decide (o < LN_CNT + 80))

/-- Registers that a reset at level `lv` keeps, by key. Page 0x000 keeps its record, its events and the ready vector; pages 0x001 and
0x002 stay READY; a PLL on its spare stays there (R91, R92, R485); the supervisor die's status stays. -/
def keepReg (lv k : Nat) : Bool :=
  let p := k / 4096
  let o := k % 4096
  let sup := (decide (p = 0x028) && (decide (o = FD_STATUS) || decide (o = FD_VFEED) || decide (o = FD_VBUS))) ||
    (supPage p && decide (p ≠ 0x028) && decide (o = PP_STATUS))
  if lv = 0 then sup
  else if lv = 2 ∧ (l2Keeps p ∨ (p = 0x024 ∧ twinCount o)) then true
  else if p = 0 then
    decide (o < 0x040) || (decide (GS_LAST_CAUSE ≤ o) && decide (o ≤ GS_READY_EC)) || (decide (lv = 2) && decide (o = GS_HUB_ID)) ||
    decide (o = GS_STRAPS) || decide (o = GS_AUTH_FAIL) || decide (0x200 ≤ o)
  else if p = 1 ∨ p = 2 then decide (o = PAGE_STATE)
  else if p = 5 then decide (o = WR_PLL_STATUS) || (decide (lv = 2) && decide (o = WR_REF_STATUS))
  else sup

/-- The groundsheet after a reset at level `lv`: the pins that hold a reset and the fuses stay; the AON count and the recorder until L0. -/
def gsReset (lv : Nat) (g : Gs) : Gs :=
  let base : Gs := { por := g.por, resetN := g.resetN, thermal := g.thermal, clockLoss := g.clockLoss, strapPins := g.strapPins,
                     straps := g.straps, fuse := g.fuse, supplyLow := g.supplyLow, io33Low := g.io33Low, errPulse := g.errPulse, errReset := g.errReset,
                     lcZero := decide (lv ≤ 1) || g.lcZero, seq := none }
  if lv = 0 then base
  else { base with fuseHeld := g.fuseHeld, fused := g.fused, aon := g.aon, aonAcc := g.aonAcc, distNext := g.distNext,
                   distLatch := g.distLatch, prog := g.prog }

/-- The supervisor die at L0 or L1 (R74, R75, R446): every gate clamped low; the feeds go on with what was in force, but a power-on
reset starts the die again. -/
def State.supClamp (s : State) (cause : Nat) : State :=
  if cause = 1 then
    { s with supv := {}, regs := s.regs.drop fun k => supPage (k / 4096) }
  else
    let s1 := s.setFeeds { s.supv.fd with kept := some (s.inForce 0x028 s.supv.fd.kept) }
    let s2 := { s1 with supv := { s1.supv with queue := [] } }
    (List.range 24).foldl State.ppClamp s2

/-- The ring islands through L2, with the twin port in reset: only its previous capability exchange stays (R113). -/
def ringKept (r : Ring) : Ring :=
  { r with ports := r.ports.put 2 { partner := (r.ports.getD 2 {}).partner } {}, cred := r.cred.filter fun e => decide (e.1 < 8) }

/-- What a word being written to the MRAM holds after a reset cut the write off (R78): its old or its new value, as a free choice by
word. -/
def State.cutWords (s : State) (a : Nat) : List Byte → State
  | b0 :: b1 :: b2 :: b3 :: bs =>
    let t := s.tookFree
    State.cutWords (if s.freeNat 1 = 0 then t else t.mwr a [b0, b1, b2, b3]) (a + 4) bs
  | _ => s

/-- What a write that its pulses had begun leaves in the MRAM when it is cut off; one that never began leaves nothing. -/
def State.cutJob (s : State) (j : UpJob) : State := if j.started then s.cutWords j.addr j.bytes else s

/-- An MRAM write in progress is cut off (R78); of a chunk written to a slot the bit is 0 (R496). -/
def State.cutWrite (s : State) : State :=
  let s1 := match s.up.job with
    | some j => if j.op = 2 ∧ j.started then (s.cutJob j).setChunk j.chunk false else s.cutJob j
    | none => s
  match s1.wear.store with
  | some j => s1.cutJob j
  | none => s1

/-- An MRAM write is in progress. -/
def State.mramBusy (s : State) : Bool :=
  (s.up.job.any fun j => j.started && decide (j.bytes ≠ [])) || (s.wear.store.any fun j => j.started)

/-- A reset of the hub at L0, L1 or L2 (R72). -/
def State.hubReset (s0 : State) (r : ResetReq) : State :=
  let lv := r.level
  let s := if lv ≤ 1 then s0.cutWrite.supClamp r.cause else s0.cutWrite
  let k2 := decide (lv = 2)
  let t : State := {
    regs := s.regs.filter fun e => keepReg lv e.1
    shad := if k2 then s.shad.filter (fun e => l2Keeps (e.1 / 4096)) else []
    stopping := if k2 then s.stopping.filter l2Keeps else []
    ans := s.ans
    gs := gsReset lv s.gs
    isl := if k2 then s.isl.filter (fun e => decide (e.1 < 2)) else []
    pll := if k2 then s.pll else [], spll := if k2 then s.spll else []
    mram := s.mram, lc := s.lc
    ring := if k2 then ringKept s.ring else {}
    mem := { s.mem with powerOn := if r.cause = 1 then [0, 1, 2] else s.mem.powerOn }
    scan := { vis := s.scan.vis, ptr := s.scan.ptr, ue := s.scan.ue, ce := s.scan.ce }
    supv := s.supv
    wear := { refBad := if k2 then s.wear.refBad else [] }
    up := s.up.kept
    fresh := s.fresh, pending := s.pending }
  t.memReset.upShow

/-! ### Recognition and assertion (R76, R78, R98) -/

/-- The record of a reset (R98), with the AON count at the assertion. -/
def State.record (s : State) (r : ResetReq) (stamp : Nat) : State :=
  let s1 := s.wr 0 GS_LAST_CAUSE (BitVec.ofNat 32 (r.detail % 256 * 256 + r.level % 4 * 16 + r.cause % 16))
  (s1.wr 0 GS_LAST_STAMP_LO (BitVec.ofNat 32 stamp)).wr 0 GS_LAST_STAMP_HI (BitVec.ofNat 32 (stamp / 2 ^ 32))

/-- The stamp of the last record. -/
def State.lastStamp (s : State) : Nat := (s.rd 0 GS_LAST_STAMP_LO).toNat + 2 ^ 32 * (s.rd 0 GS_LAST_STAMP_HI).toNat

/-- A pin, a temperature or a clock holds the reset asserted (R71, R77). -/
def State.resetHeld (s : State) : Bool := s.gs.por || s.gs.resetN || s.gs.thermal || s.gs.clockLoss

/-! ### The reader up to its records (R80-R86, R502) -/

/-- The base of an option copy, and its header fields (R81). -/
def optBase (c : Nat) : Nat := 0x300000 + 0x10000 * c
def State.optHdr (s : State) (c off k : Nat) : Nat := s.mle (optBase c + off) k

/-- A header is valid (R82). -/
def State.headerValid (s : State) (c : Nat) : Bool :=
  let len := s.optHdr c 0x0C 4
  decide (s.optHdr c 0 4 = 0x0A192001) && decide (s.optHdr c 4 2 = 1) && decide (s.optHdr c 6 2 = 64) &&
  decide (64 ≤ len) && decide (len ≤ 65536) && decide (len % 8 = 0) && decide (s.optHdr c 0x28 4 = (len - 64) / 8) &&
  decide (s.optHdr c 0x10 1 ≤ 119) && decide (s.optHdr c 0x2E 14 = 0)

/-- Record `i` of a copy: its target offset, TYPE and value. -/
def State.optRecord (s : State) (c i : Nat) : Nat × Nat × Nat :=
  let a := optBase c + 64 + 8 * i
  (s.mle a 3, s.mle (a + 3) 1, s.mle (a + 4) 4)

/-- A record is valid (R82). -/
def recordValid (off ty : Nat) : Bool :=
  let o := off % 4096
  decide (ty ≤ 1) && decide (off % 4 = 0) && (kindOf (off / 4096)).isSome &&
  (decide (o = 0x00C) || decide (o = 0x014) || decide (o = 0x020) || decide (0x040 ≤ o))

/-- An image is valid: its header, its CRC and every record (R82). -/
def State.imageValid (s : State) (c : Nat) : Bool :=
  let len := s.optHdr c 0x0C 4
  s.headerValid c &&
  decide (crc32 (s.mbytes (optBase c) 60 ++ s.mbytes (optBase c + 64) (len - 64)) = s.optHdr c 0x3C 4) &&
  (List.range ((len - 64) / 8)).all fun i => recordValid (s.optRecord c i).1 (s.optRecord c i).2.1

/-- STATE of the reader. -/
def State.opt (s : State) : Nat := s.fg 0 GS_OPT_STATUS_STATE
def State.setOpt (s : State) (v : Nat) : State := s.fs 0 GS_OPT_STATUS_STATE v

/-- The level of the sequence in progress. -/
def State.seqLevel (s : State) : Nat := (s.gs.seq.map (·.level)).getD 0

/-- The entries of the repair table in force before the islands are released (R285, R464, R468). -/
def State.applyRepair (s : State) (r : Repair) : State :=
  if r.type = 1 then
    let b := r.unit % 8
    let x := s.spBank b
    let old := (x.moved.filter fun e => decide (e.1 = r.index)).map (·.2)
    ((s.setSpBank b { x with moved := (x.moved.filter fun e => decide (e.1 ≠ r.index)) ++ [(r.index, r.spare % 4)],
                             badSpare := x.badSpare ++ old }).showSpares b).setState 0x280 PAGE_STATE_SPARED true
  else if r.type = 2 then
    let b := r.unit % 16
    let s1 := s.wr 0x010 CORE_BANK_SPARE (CORE_BANK_SPARE_RETIRED.set b (CORE_BANK_SPARE_SPARED.set 1 (CORE_BANK_SPARE_LOGICAL.set b 0)))
    (s1.fs 0x010 CORE_SPARE_STATUS_STATE 2).setState 0x010 PAGE_STATE_SPARED true
  else
    let n := r.unit
    let c := r.index % 8
    let src := r.index / 16 % 16
    if 24 ≤ n then s
    else
      let s1 := s.wr (ecPage n) EC_MAP ((⟨EC_MAP, 4 * c, 4⟩ : Fld).set 8 0x76543210)
      let s2 := ((s1.fs (ecPage n) EC_MIG_STATUS_SPARE_USED 1).fs (ecPage n) EC_MIG_STATUS_FROM src).setState (ecPage n) PAGE_STATE_SPARED true
      (s2.setState (enPage n 8) PAGE_STATE_SPARED true).setState (enPage n (src % 9)) PAGE_STATE_SPARED true

/-- The repair table read while the reader runs; TABLE_BAD when neither copy is valid (R467, R468). -/
def State.applyRepairs (s : State) : State :=
  let s1 := s.showTable
  (s1.repairs.foldl State.applyRepair s1).raiseIf s1.rtChosen.isNone 0x280 EV_MEM_TABLE_BAD

/-- The copies of the baseline table (R486, R487). -/
def blBase (c : Nat) : Nat := 0x328000 + 0x8000 * c
def State.blValid (s : State) (c : Nat) : Bool :=
  let n := s.mle (blBase c + 8) 2
  decide (s.mle (blBase c) 4 = 0x0A192B01) && decide (n ≤ 4094) &&
  decide (crc32 (s.mbytes (blBase c) 12 ++ s.mbytes (blBase c + 16) (8 * n)) = s.mle (blBase c + 12) 4)
def State.blGen (s : State) (c : Nat) : Nat := s.mle (blBase c + 4) 4
def State.blChosen (s : State) : Option Nat :=
  match s.blValid 0, s.blValid 1 with
  | true, true => some (if s.blGen 0 < s.blGen 1 then 1 else 0)
  | true, false => some 0
  | false, true => some 1
  | false, false => none

/-- The entries of a copy with KIND 1, 2 or 4, as KIND × 4096 + UNIT with VALUE. -/
def State.blEntries (s : State) (c : Nat) : List (Nat × Nat) :=
  (((List.range (s.mle (blBase c + 8) 2)).map fun i =>
    let a := blBase c + 16 + 8 * i
    (s.mle a 1, s.mle (a + 1) 1, s.mle (a + 4) 4)).filter fun e => decide (e.1 = 1) || decide (e.1 = 2) || decide (e.1 = 4)).map
    fun e => (e.1 * 4096 + e.2.1, e.2.2)

/-- The wear unit loads the baselines, or raises BASELINE_BAD (R481, R487). -/
def State.loadBaselines (s : State) : State := match s.blChosen with
  | none => (s.fs 0x005 WR_BL_STATUS_COPY 0).raise 0x005 EV_WR_BASELINE_BAD
  | some c =>
    let m := (s.blEntries c).foldl (fun (m : Map Nat) e => m.put e.1 e.2 0) []
    let s1 := { s with wear := { s.wear with base := m, tj := some (sgn 8 (s.mle (blBase c + 10) 1)) } }
    ((s1.fs 0x005 WR_BL_STATUS_COPY (c + 1)).fs 0x005 WR_BL_STATUS_TJ (s.mle (blBase c + 10) 1)).fs 0x005 WR_BL_STATUS_COUNT
      (s.mle (blBase c + 8) 2)

/-- The reader reaches DONE: repairs and baselines are in force, and release begins (R88). -/
def State.toDone (s : State) : State :=
  let s0 := if s.seqLevel = 0 then s.retryFloors else s
  let s1 := (s0.setOpt 8).applyRepairs.loadBaselines
  { s1 with gs := { s1.gs with pos := some 0 } }

/-- Every island but ring, bridge and host, as bits of GS_HOLD (R86, R88). -/
def holdMost : Word := 0x7F6E

/-- A bare start (R86). After L2 nothing is waited for. -/
def State.bareStart (s : State) : State :=
  let s1 := ((s.setOpt 9).fs 0 GS_OPT_STATUS_FALLBACK 1).fs 0 GS_OPT_STATUS_COPY 0
  let s2 := ((s1.wr 0 GS_HUB_ID 0).wr 0 GS_HOLD holdMost).wr 1 OPT_ACTIVE_GEN 0
  let s3 := s2.raise 0 EV_GS_OPT_FALLBACK
  if s.seqLevel = 2 then s3.toDone else s3.fs 0x005 WR_REF_STATUS_IN_USE 0

/-- A strike record in TRIAL found by a reset that is not the strike's own is rewritten with the previous slot, where a write pulse may
start; a revert is shown and raised once (R502). -/
def State.revertRecord (s : State) : State :=
  let late := s.up.trial && decide (s.fg 0 GS_LAST_CAUSE_CAUSE ≠ 0xA)
  if (late || s.up.failing) && !s.mramStop then
    let s1 := { s with up := { s.up with active := if late then 1 - s.up.active else s.up.active, trial := false, failing := false } }
    let s2 := ((s1.fs 0x290 UP_STATUS_STATE 0).fs 0x290 UP_STATUS_ACTIVE_SLOT s1.up.active).fs 0x290 UP_STATUS_REVERTED 1
    (s2.inc 0x290 UP_CNT_REVERTS).raise 0x290 EV_UP_UPD_REVERT
  else s

/-- HEADER (R83, R84): the copy with a valid header and the higher GENERATION, copy A when they are equal. -/
def State.readHeaders (s0 : State) : State :=
  let s := s0.revertRecord
  let pickCopy (c : Nat) : State := ({ s with gs := { s.gs with copy := c, tried := false } } : State).setOpt 4
  match s.headerValid 0, s.headerValid 1 with
  | true, true => pickCopy (if s.optHdr 0 8 4 < s.optHdr 1 8 4 then 1 else 0)
  | true, false => pickCopy 0
  | false, true => pickCopy 1
  | false, false => s.bareStart

/-- The header of the image in use takes effect (R81): identity, GS_RESET_CTRL, GS_HOLD or the BOOT_HOLD value, credential, watchdog. -/
def State.loadHeader (s : State) (c : Nat) : State :=
  let flags := s.optHdr c 0x11 1
  let id := GS_HUB_ID_ID.set (s.optHdr c 0x10 1) (GS_HUB_ID_VALID.set 1 (GS_HUB_ID_REDUNDANT.set (flags % 2) 0))
  let hold := if s.gs.straps.bootHold then holdMost else BitVec.ofNat 32 (s.optHdr c 0x14 4 % 2 ^ 15)
  let s1 := ((s.wr 0 GS_HUB_ID id).wr 0 GS_HOLD hold).wr 0 GS_RESET_CTRL (BitVec.ofNat 32 (s.optHdr c 0x12 2 % 4))
  let s2 := (s1.fs 0 GS_WDOG_CTRL_PERIOD (s.optHdr c 0x2C 2)).fs 0 GS_OPT_STATUS_COPY (c + 1)
  let s3 := s2.wr 1 OPT_ACTIVE_GEN (BitVec.ofNat 32 (s.optHdr c 8 4))
  { s3 with gs := { s3.gs with cred := s.mbytes (optBase c + 0x18) 16, record := 0 } }

/-! ### Release of the hub's reset -/

/-- The reset ends: straps sampled after L0 and L1 (R59, R99), and the reader leaves IDLE (R84). -/
def State.releaseReset (s : State) (straps : Straps) : State :=
  if s.resetHeld || decide (s.opt ≠ 0) then s
  else match s.gs.seq with
    | none => s
    | some r =>
      let s1 := if r.level ≤ 1 then
        ({ s with gs := { s.gs with straps := straps, strapPins := straps } } : State).wr 0 GS_STRAPS
          (BitVec.ofNat 32 (bit straps.compatBn + 2 * bit straps.bootHold))
        else s
      if r.level = 0 then s1.setOpt 1 else s1.readHeaders

/-- XTAL_OK after a reset: the crystal runs on, but a power-on reset takes it away. -/
def State.xtalAfter (s : State) (r : ResetReq) : Nat := if r.cause = 1 then 0 else s.fg 0 GS_AON_HI_XTAL_OK

/-- The assertion of a reset at L0, L1 or L2 (R72, R98). With nothing holding it, it ends at once. -/
def State.assertReset (s : State) (r : ResetReq) : State :=
  let stamp := if r.cause = 1 then 0 else s.gs.aon
  let s1 := ((s.hubReset r).fs 0 GS_AON_HI_XTAL_OK (s.xtalAfter r)).record r stamp
  ({ s1 with gs := { s1.gs with seq := some r, seqAt := s.lc, deferred := none } } : State).releaseReset s1.gs.strapPins

/-- The block or island that RESET_L3 of a source acts on (R475): a page, or an island. -/
inductive L3Target where
  | page (p : Nat)
  | island (i : Nat)
deriving DecidableEq, Repr

/-- R475, the column RESET_L3. -/
def l3Target (n : Nat) : Option L3Target :=
  if 0x08 ≤ n ∧ n ≤ 0x0F then some (.page 0x005) else if 0x10 ≤ n ∧ n ≤ 0x19 then some (.island 0)
  else if 0x1A ≤ n ∧ n ≤ 0x23 then some (.island 1) else if 0x28 ≤ n ∧ n ≤ 0x2D then some (.island 3)
  else if 0x31 ≤ n ∧ n ≤ 0x35 then some (.page 0x018) else if 0x36 ≤ n ∧ n ≤ 0x3A then some (.island 35)
  else if 0x3B ≤ n ∧ n ≤ 0x40 then some (.page 0x020) else if 0x41 ≤ n ∧ n ≤ 0x46 then some (.island 4)
  else if 0x4B ≤ n ∧ n ≤ 0x51 then some (.page 0x280) else if 0x52 ≤ n ∧ n ≤ 0x55 then some (.page 0x290)
  else if 0x57 ≤ n ∧ n ≤ 0x9E then some (.page (0x030 + (n - 0x57) / 3))
  else if 0x9F ≤ n ∧ n ≤ 0xCE then some (.page (0x050 + (n - 0x9F) / 2))
  else if 0xCF ≤ n ∧ n ≤ 0xFE then some (.island (11 + (n - 0xCF) / 2)) else none

/-- An isolation holds the whole island (R475, R476). -/
def State.isoIsland (s : State) (i : Nat) : Bool :=
  (i < 2 || decide (i = 3) || decide (i = 4) || (decide (11 ≤ i) && decide (i ≤ 35))) &&
    decide (s.iso.getD ((islandPages i).headD 0) 0 ≠ 0)

/-- The islands of a release position. -/
def positionIslands (k : Nat) : List Nat :=
  if k = 0 then [0, 1] else if k = 1 then [2] else if k = 2 then [3] else if k = 3 then [4] else if k < 10 then [k + 1]
  else if k = 10 then [11, 39] else if k < 34 then [k + 1] else [k + 1]

/-- The release position of an island; the routing block's is that of the first cluster. -/
def islandPosition (i : Nat) : Nat := if i < 2 then 0 else if i = 39 then 10 else i - 1

/-- A write of GS_HOLD (R89, R90): a running island whose bit rises goes down, and one not running gives up a request for its release; one
whose bit falls asks for release once its position has passed. -/
def State.holdWrite (s : State) (v : Word) : State :=
  let new := v.toNat % 2 ^ 15
  let old := (s.rd 0 GS_HOLD).toNat
  let s1 := s.wr 0 GS_HOLD (BitVec.ofNat 32 new)
  (List.range 40).foldl (fun (t : State) i =>
    let b := holdBit i
    if nbit new b && !nbit old b then (if t.islUp i then t.islandDown i else t.setIsl i {})
    else if !nbit new b && nbit old b && decide (t.opt = 8) && (t.gs.pos.all fun k => decide (islandPosition i < k)) && !t.islUp i then t.setIsl i { rel := false, req := true }
    else t) s1

/-- An L3 reset of a page, as RESET_BLOCK. That of page 0x000 returns GS_HOLD to 0, which holds nothing; that of the update page ends
every MRAM write, and is held back while one is in progress (R78). -/
def State.pageReset (s : State) (p : Nat) : State :=
  if p = 0 then (s.holdWrite 0).blockReset p
  else if p = 0x290 then
    (if s.mramBusy then { s with gs := { s.gs with deferBlock := some (s.gs.deferBlock.getD none) } } else s.blockReset p)
  else s.blockReset p

/-- An L3 reset that a source causes is recorded and acts on its target (R66, R98), that of the update page after its hold-back (R78); the
sequence of an island's ends with its release. A block that is held isolated is reset again and stays so (R476). -/
def State.assertL3 (s : State) (r : ResetReq) (t : L3Target) : State :=
  match t with
  | .page p =>
    if p = 0x290 ∧ s.mramBusy then { s with gs := { s.gs with deferBlock := some (some r) } }
    else (s.record r s.gs.aon).blockReset p
  | .island i =>
    let s1 := s.record r s.gs.aon
    if s1.isoIsland i then s1.islandDown i
    else
      let s2 := s1.islandReset i
      { s2 with gs := { s2.gs with seq := some r, seqAt := s.lc } }

/-- Of two sources at one level, recognised at instants `at0` and `at1`, the later one is recorded only where they fall together and its
code is the lower one (R76). -/
def beats (old new : ResetReq) (at0 at1 : Nat) : Bool :=
  decide (new.level < old.level) || (decide (new.level = old.level) && decide (at0 = at1) && decide (new.cause < old.cause))

/-- The sequence in progress absorbs a source (R76). -/
def State.absorbs (s : State) (r : ResetReq) : Bool := s.gs.seq.any fun q => !beats q r s.gs.seqAt s.lc && decide (q.level ≤ r.level)

/-- A source is held back behind an MRAM write pulse (R78), in place of one that it beats. -/
def State.holdBack (s : State) (r : ResetReq) : State :=
  if s.gs.deferred.any fun q => !beats q r s.gs.seqAt s.lc then s
  else { s with gs := { s.gs with deferred := some r, seqAt := s.lc } }

/-- A source is recognised (R76): absorbed while a sequence at its level or deeper is in progress; held back behind an MRAM write pulse
at L0 to L2 (R78); recorded alone where it falls together with the source of the sequence at its level; else asserted. -/
def State.recognise (s : State) (r : ResetReq) (t : Option L3Target) : State :=
  if s.absorbs r then s
  else if r.level = 3 then (match t with
    | some x => s.assertL3 r x
    | none => s)
  else if s.mramBusy then s.holdBack r
  else if s.gs.seq.any fun q => decide (q.level = r.level) then
    let s1 := s.record r (s.lastStamp)
    { s1 with gs := { s1.gs with seq := some r } }
  else s.assertReset r

/-- A strike fails on this hub by something that is not itself a reset (R502): the record is rewritten and a reset of source 0xA is
requested; the reader then shows REVERTED. -/
def State.strikeFail (s : State) : State :=
  if !s.up.trial || s.mramStop then s
  else
    ({ s with up := { s.up with active := 1 - s.up.active, trial := false, failing := true } } : State).recognise
      { cause := 0xA, level := s.levelOf 0xA } none

/-- The L3 of the update page that was held back: a source's is recorded (R98). -/
def State.assertBlock (s : State) : State := match s.gs.deferBlock with
  | none => s
  | some x =>
    let s1 := { s with gs := { s.gs with deferBlock := none } }
    (match x with
      | some r => s1.record r s1.gs.aon
      | none => s1).cutWrite.blockReset 0x290

/-- RESET_ASSERT_DEFERRED (R78): the pulse has ended. -/
def execResetAssertDeferred (s : State) : Out :=
  .next (match s.gs.deferred with
    | some r => s.assertReset r
    | none => s.assertBlock)

/-- POWER_ON_RESET. -/
def execPowerOnReset (s : State) : Out :=
  .next (({ s with gs := { s.gs with por := true } } : State).recognise { cause := 1, level := 0 } none)

/-- POWER_ON_RESET_RELEASE (R523): every supply is back above its warning threshold. -/
def execPowerOnResetRelease (straps : Straps) (s : State) : Out :=
  .next (({ s with gs := { s.gs with por := false, supplyLow := false, io33Low := false, strapPins := straps } } : State).releaseReset
    straps)

/-- RESET_N_RECOGNISED and its end (R77). -/
def execResetNRecognised (s : State) : Out :=
  .next (({ s with gs := { s.gs with resetN := true } } : State).recognise { cause := 2, level := s.levelOf 2 } none)
def execResetNRelease (straps : Straps) (s : State) : Out :=
  .next (({ s with gs := { s.gs with resetN := false, strapPins := straps } } : State).releaseReset straps)

/-- A write of GS_SOFT_RESET (R69). -/
def State.softReset (s : State) (v : Word) : State :=
  if GS_SOFT_RESET_KEY.get v ≠ 0xA55A then s.raise 0 EV_GS_SOFT_KEY_BAD
  else if GS_SOFT_RESET_GO.get v = 1 then s.recognise { cause := 3, level := s.levelOf 3 } none
  else s

def execHostSoftReset (who : Initiator) (v : Word) (s : State) : Out := .next (s.write who 0 GS_SOFT_RESET fun t => t.softReset v)

/-- A write of GS_WDOG_KICK restarts the watchdog where it writes 0x0000_00A5 (R70). -/
def State.wdogKick (s : State) (v : Word) : State := if v = 0xA5 then { s with gs := { s.gs with wdogAt := s.lc } } else s

def execWdogKick (who : Initiator) (v : Word) (s : State) : Out := .next (s.write who 0 GS_WDOG_KICK fun t => t.wdogKick v)

/-- PERIOD ms have passed since the watchdog's last restart (R70). A millisecond is 625,000 local cycles. -/
def State.wdogDue (s : State) : Bool := decide (s.fg 0 GS_WDOG_CTRL_PERIOD * 625000 ≤ s.lc - s.gs.wdogAt)

/-- WATCHDOG_EXPIRE (R70): the lantern island runs, PERIOD is not 0 and has passed. An expiry that resets the lantern only fails a strike
in its trial too (R502). -/
def execWatchdogExpire (s : State) : Out :=
  .next (
    if !s.gs.wdog || decide (s.fg 0 GS_WDOG_CTRL_PERIOD = 0) || !s.wdogDue then s
    else
      let lv := s.levelOf 4
      let s1 := s.recognise { cause := 4, level := lv } (some (.island 38))
      if lv = 3 then s1.strikeFail else s1)

/-- THERMAL_TRIP and its end (R71): 112 °C or more, and below 100 °C. -/
def execThermalTrip (tj : Int) (s : State) : Out :=
  .next (
    if tj < 112 then s
    else ({ s with gs := { s.gs with thermal := true } } : State).recognise { cause := 8, level := s.levelOf 8 } none)
def execThermalTripRelease (tj : Int) (straps : Straps) (s : State) : Out :=
  .next (
    if 100 ≤ tj then s
    else ({ s with gs := { s.gs with thermal := false, strapPins := straps } } : State).releaseReset straps)

/-- CLOCK_LOSS and its end (R71). -/
def execClockLoss (s : State) : Out :=
  .next (({ s with gs := { s.gs with clockLoss := true } } : State).recognise { cause := 9, level := s.levelOf 9 } none)
def execClockLossRelease (straps : Straps) (s : State) : Out :=
  .next (({ s with gs := { s.gs with clockLoss := false, strapPins := straps } } : State).releaseReset straps)

/-- The CRC-16 of a fuse region: whole words, then bits [31:16] of the last one, whose bits [15:0] hold it (R100). -/
def State.fuseCrcOk (s : State) (first last : Nat) : Bool :=
  let w (i : Nat) : Nat := (s.gs.fuse.getD i 0).toNat
  let bytes := ((List.range (last - first)).map fun i => leBytes (w (first + i)) 4).flatten ++ leBytes (w last / 65536) 2
  decide (crc16 bytes = w last % 65536)

/-- OPT_FUSE_READ (R84, R91): the fuse words are held, pages 0x000 to 0x002 become READY, and a bad CRC stops the reader. -/
def execOptFuseRead (s : State) : Out :=
  .next (
    if s.opt ≠ 1 then s
    else
      let s1 := { s with gs := { s.gs with fuseHeld := s.gs.fuse, fused := true } }
      let s2 := [0, 1, 2].foldl (fun (t : State) p => t.setState p PAGE_STATE_READY true) s1
      let s3 := s2.raiseIf s2.levelInvalid 0 EV_GS_FUSE_LEVEL_INVALID
      if s3.fuseCrcOk 0 7 && s3.fuseCrcOk 8 23 then s3.setOpt 2 else (s3.setOpt 10).fs 0 GS_OPT_STATUS_FUSE_BAD 1)

/-- MRAM_WAKE_DONE (R83, R84). -/
def execMramWakeDone (s : State) : Out := .next (if s.opt = 2 then s.readHeaders else s)

/-- OPT_VERIFY (R83, R84). -/
def execOptVerify (s : State) : Out :=
  .next (
    if s.opt ≠ 4 then s
    else
      let c := s.gs.copy
      if s.imageValid c then
        let s1 := s.loadHeader c
        if s.seqLevel = 2 then s1.setOpt 6
        else (s1.setOpt 5).fs 0x005 WR_REF_STATUS_IN_USE (s.optHdr c 0x11 1 / 2 % 2)
      else if !s.gs.tried && s.headerValid (1 - c) then { s with gs := { s.gs with copy := 1 - c, tried := true } }
      else s.bareStart)

/-- OPT_CLOCKS_LOCKED (R84): every PLL and its spare has locked. -/
def execOptClocksLocked (s : State) : Out :=
  .next (
    let locked : Map Bool := (List.range 13).map fun k => (k, true)
    let s1 := { s with pll := locked, spll := locked }
    if s.opt = 5 then s1.setOpt 6 else if s.opt = 9 then s1.toDone else s)

/-! ### Release of islands (R88, R89) -/

/-- What begins when an island is released: its ports train (R108), the time island loads LC and its domains restart (R316, R325), the twin
takes its role (R396), a cluster loads its microcode (R254), the watchdog starts (R70). The reference monitor shows the references that
have not failed. -/
def State.released (s : State) (i : Nat) : State :=
  if i < 2 then
    let s1 := if s.gs.lcZero then { s with lc := 0, gs := { s.gs with lcZero := false } } else s
    s1.lanesReleased (if i = 0 then .east else .west)
  else if i = 2 then s.tmReset
  else if i = 4 then s.twinStart.lanesReleased .twin
  else if 11 ≤ i ∧ i < 35 then { s with gs := { s.gs with loading := (i - 11) :: s.gs.loading.filter (· != i - 11) } }
  else if i = 36 then
    (s.fs 0x005 WR_REF_STATUS_A_OK (bit (!s.wear.refBad.contains 0))).fs 0x005 WR_REF_STATUS_B_OK (bit (!s.wear.refBad.contains 1))
  else if i = 38 then { s with gs := { s.gs with wdog := true, wdogAt := s.lc } }
  else s

/-- The island that a recorded L3 reset names: the lantern's for the watchdog, else that of the fault source (R65, R475). -/
def ResetReq.island (r : ResetReq) : Option Nat :=
  if r.cause = 4 then some 38
  else match l3Target r.detail with
    | some (.island i) => some i
    | _ => none

/-- An island leaves reset; an L3 sequence that named it ends. -/
def State.releaseIsland (s : State) (i : Nat) : State :=
  let s1 := (s.setIsl i { rel := true, req := false }).released i
  match s1.gs.seq with
  | some r => if r.level = 3 ∧ r.island = some i then { s1 with gs := { s1.gs with seq := none } } else s1
  | none => s1

/-- A release is requested: at once where the clock has run, else latched (R89). -/
def State.requestRelease (s : State) (i : Nat) : State :=
  if s.islUp i || s.isoIsland i then s
  else if s.clocked i then s.releaseIsland i
  else s.setIsl i { rel := false, req := true }

/-- ISLAND_RELEASE_POSITION (R88): the sequence ends with the last position. -/
def execIslandReleasePosition (s : State) : Out :=
  .next (match s.gs.pos with
    | none => s
    | some k =>
      let s1 := (positionIslands k).foldl (fun (t : State) i =>
        if nbit (t.rd 0 GS_HOLD).toNat (holdBit i) then t else t.requestRelease i) s
      if k < 37 then { s1 with gs := { s1.gs with pos := some (k + 1) } }
      else { s1 with gs := { s1.gs with pos := none, seq := none } })

/-- ISLAND_SYNC_RELEASE (R89): a latched request takes effect once the clock has run. -/
def execIslandSyncRelease (island : Island) (s : State) : Out :=
  .next (if (s.isl.getD island.val {}).req && s.clocked island.val && !s.isoIsland island.val then s.releaseIsland island.val else s)

def execGsHoldSet (who : Initiator) (v : Word) (s : State) : Out := .next (s.write who 0 GS_HOLD fun t => t.holdWrite v)
def execGsHoldRelease (who : Initiator) (v : Word) (s : State) : Out := .next (s.write who 0 GS_HOLD fun t => t.holdWrite v)

/-! ### Readiness (R41, R91, R92) -/

/-- A page's block is held isolated (R476). -/
def State.isolated (s : State) (p : Nat) : Bool := decide (s.iso.getD p 0 ≠ 0)

/-- A destructive march run covers the block's memory, or it waits for one (R461, R462, R465). -/
def State.marched (s : State) (p : Nat) : Bool :=
  let run (k : Nat) : Bool := s.mem.powerOn.contains k || (match s.mem.march with
    | some m => m.destruct && decide (m.memory = k) && decide (k ≠ 0)
    | none => false)
  if p = 0x280 then run 0 else if p = 0x010 then run 1 || s.mem.cellsUnready
  else if p = 0x01C then run 2 || s.mem.canopyUnready else false

/-- The island of a page is released; the supervisor die's pages have none. -/
def State.pageUp (s : State) (p : Nat) : Bool :=
  if p = 0x00A then s.islUp 0 || s.islUp 1
  else match kindOf p with
    | some .ec => s.islUp (11 + (p - 0x080)) && !s.gs.loading.contains (p - 0x080) && s.fb p EC_UCODE_LOADED
    | some .en => s.islUp (11 + enCluster p) && !s.gs.loading.contains (enCluster p) && s.fb (ecPage (enCluster p)) EC_UCODE_LOADED
    | _ => match pageIsland p with
      | some i => s.islUp i
      | none => true

/-- The block a page depends on is READY (R41). -/
def State.depReady (s : State) (p : Nat) : Bool := match kindOf p with
  | some .q => s.ready 0x010
  | some .en => s.ready (ecPage (enCluster p))
  | _ => true

/-- Every condition of R91 holds. -/
def State.readyOk (s : State) (p : Nat) : Bool :=
  if p ≤ 2 then s.gs.fused
  else (kindOf p).isSome && s.pageUp p && decide (s.opt = 8) && !s.marched p && s.depReady p && (!supPage p || s.supv.link) && !s.isolated p

/-- NR_REASON (R41): the lowest value that applies; a block held by an isolation shows 0x04 (R476); 0x02 while only the cycles of a
release remain. -/
def State.nrReason (s : State) (p : Nat) : Nat :=
  if s.ready p then 0
  else if s.isolated p then 4
  else if p ≤ 2 then 1
  else if !s.pageUp p then (match pageIsland p with
    | some i => if (s.isl.getD i {}).req then 2 else 1
    | none => 1)
  else if s.opt ≠ 8 then 3
  else if supPage p && !s.supv.link then 5
  else if s.marched p then 6
  else if !s.depReady p then 7
  else 2

/-- The ready vector's bit of a register and the pages it covers (R92): GS_READY0, GS_READY_CL, GS_READY_PP, GS_READY_EC. -/
def State.readyBit (s : State) (reg b : Nat) : Bool :=
  let all (first n : Nat) : Bool := (List.range n).all fun i => s.ready (first + i)
  if reg = 0 then
    if b = 0 then decide (s.opt = 8) else if b = 1 then s.supv.link else if b = 2 then s.ready 2 else if b = 3 then s.ready 4
    else if b = 4 then s.ready 5 else if b = 5 then s.ready 8 else if b = 6 then s.ready 9 else if b = 7 then s.ready 0xA
    else if b = 8 then s.ready 0x10 else if b = 9 then all 0x11 4 else if b = 10 then s.ready 0x18 else if b = 11 then s.ready 0x1C
    else if b = 12 then s.ready 0x20 else if b = 13 then s.ready 0x21 else if b = 14 then s.ready 0x24 else if b = 15 then s.ready 0x28
    else if b = 16 then s.islUp 38 else if b = 17 then all 0x200 64 else if b = 18 then all 0x240 64
    else if b = 19 then s.ready 0x280 else if b = 20 then s.ready 0x290 else false
  else if 24 ≤ b then false
  else s.ready ((if reg = 1 then 0x050 else if reg = 2 then 0x030 else 0x080) + b)

/-- READY_VECTOR_UPDATE (R92). -/
def execReadyVectorUpdate (reg : Fin 4) (bit : Fin 32) (s : State) : Out :=
  .next (
    let off := GS_READY0 + 4 * reg.val
    s.wr 0 off (BitVec.ofNat 32 (setBit (s.rd 0 off).toNat bit.val (s.readyBit reg.val bit.val))))

/-! ### AON count, crystal and fuses (R98, R101) -/

/-- A read of GS_AON_LO latches the high part. -/
def State.aonRead (s : State) : State × Word :=
  ((s.wr 0 GS_AON_HI ((s.rd 0 GS_AON_HI &&& 0xFFFF0000) ||| BitVec.ofNat 32 (s.gs.aon / 2 ^ 32 % 65536))), BitVec.ofNat 32 s.gs.aon)

def execAonRead (who : Initiator) (s : State) : Out := .next (s.read who 0 GS_AON_LO State.aonRead)

/-- CRYSTAL_OSCILLATION_CHANGE (R510): XTAL_OK; the count advances only while it is 1. -/
def execCrystalOscillationChange (on : Bool) (s : State) : Out := .next (s.wr 0 GS_AON_HI (setBits on (s.rd 0 GS_AON_HI)))
where setBits (on : Bool) (x : Word) : Word := (⟨GS_AON_HI, 31, 1⟩ : Fld).set (bit on) x

/-- A write of FUSE_PROG_CTRL (R101); a request is refused while VDDIO33 is out of range. -/
def State.fuseProg (s : State) (v : Word) : State :=
  if FUSE_PROG_CTRL_KEY.get v ≠ 0x0F5E ∨ FUSE_PROG_CTRL_GO.get v = 0 ∨ s.fb 1 FUSE_PROG_STATUS_BUSY = true then s
  else
    let b := s.fg 1 FUSE_PROG_ADDR_BIT
    if 24 ≤ b / 32 ∧ b / 32 ≤ 57 ∧ s.gs.io33Low = false then
      ({ s with gs := { s.gs with prog := some b } } : State).wr 1 FUSE_PROG_STATUS 1
    else s.wr 1 FUSE_PROG_STATUS 6

def execFuseProgGo (who : Initiator) (v : Word) (s : State) : Out := .next (s.write who 1 FUSE_PROG_CTRL fun t => t.fuseProg v)

/-- A fuse bit programmed to 1. -/
def Gs.burn (g : Gs) (b : Nat) : Gs :=
  { g with fuse := g.fuse.put (b / 32) ((g.fuse.getD (b / 32) 0) ||| BitVec.ofNat 32 (1 <<< (b % 32))) 0 }

/-- FUSE_PROG_DONE (R101): the bit reads 1, or VERIFY_FAIL. -/
def execFuseProgDone (ok : Bool) (s : State) : Out :=
  .next (match s.gs.prog with
    | none => s
    | some b =>
      let g := if ok then s.gs.burn b else s.gs
      ({ s with gs := { g with prog := none } } : State).wr 1 FUSE_PROG_STATUS (if ok then 2 else 10))

/-- SUPPLY_WARN (R79): no new MRAM write pulse starts, and the event is raised. The supplies are numbered as R523 lists them; VDDIO33,
number 3, is the one that programs fuses (R101). -/
def execSupplyWarn (supply : Fin 4) (s : State) : Out :=
  .next (({ s with gs := { s.gs with supplyLow := true, io33Low := s.gs.io33Low || decide (supply.val = 3) } } : State).raise 0x004
    EV_FT_SUPPLY_WARN)

end Sys2Proof.Machine
end

