-- ==== Sys2Proof/Machine/TwinLink.lean ====
section
/-! DEFINITION. Twin operation (chapter 14): roles, the twin guy line, the mirror stream as the active hub sends it, planned and
unplanned switchover, and the page's commands. -/
namespace Sys2Proof.Machine

/-! ### Messages (R398) -/

/-- A link-local frame on the twin link. -/
def State.twinFrame (s : State) (mtype arg : Nat) (payload : List Byte) : Frame :=
  { hdr := { cls := .M, mtype := mtype, ll := true, src := s.hubId, arg := arg }, payload := payload }

/-- A ROLE frame: OP, REASON and EPOCH. -/
def State.roleSend (s : State) (op reason epoch : Nat) : State :=
  s.llOut .twin (s.twinFrame 0x21 (op + 256 * reason + 65536 * (epoch % 2 ^ 32)) [])

/-- The first frame of the port logic's inbox, taken when `p` holds of it. -/
def State.twinTake (s : State) (p : Frame → Bool) : Option (Frame × State) := match s.tw.inbox with
  | [] => none
  | f :: fs => if p f then some (f, { s with tw := { s.tw with inbox := fs } }) else none

/-- A received message of a type, and a ROLE message with one of the OPs. -/
def isTwin (mtype : Nat) (f : Frame) : Bool := decide (f.hdr.mtype = mtype)
def isRole (ops : List Nat) (f : Frame) : Bool := isTwin 0x21 f && ops.contains (f.hdr.argBits 0 8)

/-! ### The mirror stream, as sent (R400-R404, R407) -/

/-- Offsets of a row's words. -/
def Row.offs (r : Row) : List Nat :=
  ((List.range r.count).map fun i => (List.range r.inner).map fun j => r.off + r.stride * i + 4 * j).flatten

/-- The registers of a mirrored page that a snapshot writes: those with fields that software writes (R401, R408). -/
def State.mirRegs (s : State) (p : Nat) : List Nat :=
  let keep (l : List Row) : List Nat := ((l.filter fun r => decide (r.rw ≠ 0) || decide (r.rws ≠ 0) || decide (r.rwl ≠ 0)).map Row.offs).flatten
  match kindOf p with
  | some .q => (List.range 256).map fun i => 0x400 + 4 * i
  | some .en => keep rows_en ++ keep (modeRows (s.fg p EN_MODE_MODE))
  | some k => keep k.rows
  | none => []

/-- The mirrored pages (R401). -/
def mirPages : List Nat :=
  [0x011, 0x012, 0x013, 0x014, 0x01C] ++ (List.range 24).map (0x050 + ·) ++ (List.range 24).map (0x080 + ·) ++
  (List.range 216).map (0x100 + ·) ++ (List.range 128).map (0x200 + ·)

/-- A CFG entry: local offset, OP, value (R400). -/
def cfgEntry (p off op : Nat) (v : Word) : MEntry := ⟨1, 0, leBytes (p * 4096 + off) 3 ++ leBytes op 1 ++ leBytes v.toNat 4⟩

/-- The CFG writes of a page, and its COMMIT; the queue pages have no other register mirrored. -/
def State.pageEntries (s : State) (p : Nat) : List MEntry :=
  ((s.mirRegs p).map fun off => cfgEntry p off 0 (s.rd p off)) ++ [cfgEntry p PAGE_CTRL 1 1, cfgEntry p PAGE_CTRL 0 (s.rd p PAGE_CTRL &&& 0x101)]

/-- A CANOPY entry of a group. -/
def State.groupEntry (s : State) (img : Image) (m : Nat) : MEntry :=
  ⟨2, s.epoch, leBytes (m + (if img = .output then 32768 else 0)) 2 ++ grpBytes (s.grpVis (grpKey img m))⟩

/-- The TIME entry (R403): SEL_ACTIVE and STATE of both domains. -/
def State.timeEntry (s : State) : MEntry := ⟨3, 0, leBytes s.sel 1 ++ leBytes (s.dstate 0) 1 ++ leBytes (s.dstate 1) 1 ++ leBytes 0 5⟩

/-- A channel that TW_ENG_MIR names (R404). -/
def State.mirroredChan (s : State) (n c : Nat) : Bool := nbit (s.rd 0x024 (TW_ENG_MIR + 4 * ((8 * n + c) / 32))).toNat ((8 * n + c) % 32)

/-- An instant of local time as a mirrored stamp, with a flag in front: service time in 48 bits. -/
def State.stampBytes (s : State) (t : Option Int) : List Byte := match t with
  | none => leBytes 0 7
  | some u => 1 :: s.tsBytes u

/-- The state of a channel as an ENGINE entry carries it (R404): 56 bytes, the layout of bytes 2 onward the model's own. -/
def State.engineEntry (s : State) (n c : Nat) : MEntry :=
  let g := s.enOf n c
  let x := s.chan n c
  let m := s.enMode g
  let st : List Byte :=
    if m = 1 then leBytes x.taken 8 ++ s.stampBytes x.sentTs
    else if m = 3 then s.stampBytes (some x.nextOk) ++ leBytes (s.rd g SY_LAST).toNat 4 ++ leBytes (s.rd g SY_DOUT).toNat 4
    else if m = 4 then leBytes (s.rd g EN_DI_COUNT).toNat 4 ++ leBytes (s.fg g DI_CFG_UNSURE) 1 ++ leBytes (s.rd g DI_WIDTH).toNat 4 ++
      leBytes (s.rd g DI_PERIOD).toNat 4 ++ leBytes (uns 64 (x.pwmNext.getD 0)) 8 ++ leBytes x.taken 8 ++ s.stampBytes x.sentTs
    else if m = 2 then leBytes (s.rd g PB_ERR).toNat 4 ++ leBytes x.rec11 2 ++ leBytes x.taken 8 ++ leBytes x.attempts 2 ++
      leBytes (s.rd g PB_TT_STAT).toNat 4 ++ s.stampBytes x.sentTs
    else []
  ⟨4, 0, (leBytes (8 * n + c) 1 ++ leBytes m 1 ++ st ++ leBytes 0 54).take 56⟩

/-- The channels that are mirrored. -/
def State.mirroredChans (s : State) : List (Nat × Nat) :=
  ((List.range 192).map fun k => (k / 8, k % 8)).filter fun e => s.mirroredChan e.1 e.2

/-- Card links in ACTIVE, as bits by pitch. -/
def State.linksActive (s : State) : Nat := (List.range 24).foldl (fun n p => setBit n p (decide (s.clState p = 5))) 0

/-- The STATE entry (R400). -/
def State.stateEntry (s : State) : MEntry := ⟨6, 0, leBytes s.linksActive 8⟩

/-- The queues that are mirrored, in queue order. -/
def State.mirroredQueues (s : State) : List Nat := ((List.range 904).map (120 + ·)).filter s.mirroredQueue

/-- The entries of a mailbox in a snapshot: its items as pushes. -/
def State.mailEntries (s : State) (q : Nat) : List MEntry :=
  (s.que q).ents.map fun e => ⟨5, 0, leBytes (q + 65536) 4 ++ cellBytes (s.cell e.cell) 4⟩

/-- The copies of a software queue sent to the twin behind their QCOPY frames. -/
def State.copyQueue (s : State) (q : Nat) : State :=
  (s.que q).ents.foldl (fun (t : State) e =>
    let r := t.frec e.cell
    (t.setRec e.cell { r with refs := r.refs + 1, copies := r.copies + 1 }).pushEnt (8 + r.cls.code)
      { cell := e.cell, n := e.n, qcopy := some q }) s

/-- RESYNC entered (R408): counted and raised; the active hub starts a snapshot. -/
def State.resync (s : State) : State :=
  let s1 := ((s.fs 0x024 TW_STATUS_MSTATE 1).inc 0x024 TW_CNT_RESYNC_COUNT).raise 0x024 EV_TW_RESYNC
  if s1.role = roleActive then
    let groups (img : Image) (n : Nat) : List MEntry := (List.range n).map fun m => s1.groupEntry img m
    let snap := [⟨7, 0, []⟩] ++ (mirPages.map s1.pageEntries).flatten ++ groups .input 4096 ++ groups .output 4096 ++
      [s1.timeEntry] ++ (s1.mirroredChans.map fun e => s1.engineEntry e.1 e.2) ++
      ((s1.mirroredQueues.filter (960 ≤ ·)).map s1.mailEntries).flatten ++ [⟨8, 0, []⟩]
    let s2 := { s1 with tw := { s1.tw with entries := snap, sentQ := [], snap := true } }
    (s2.mirroredQueues.filter (· < 960)).foldl State.copyQueue (s2.fs 0x024 TW_LAG_BACKLOG 0)
  else { s1 with tw := { s1.tw with rseq := none, eng := [], owed := [] } }

/-- The standby asks for a resync (R401, R402, R407, R408). -/
def State.askResync (s : State) : State :=
  ({ s with tw := { s.tw with resyncReq := true } } : State).resync

/-- The mirror follows the roles: off unless they are ACTIVE and STANDBY with the link in ACTIVE; RESYNC when they become so. -/
def State.mirrorRoles (s : State) : State :=
  let r := s.role
  let t := s.fg 0x024 TW_STATUS_TWIN_ROLE
  if (r = roleActive ∧ t = roleStandby ∨ r = roleStandby ∧ t = roleActive) ∧ s.portActive .twin = true ∧ s.redundant = true then
    if s.fg 0x024 TW_STATUS_MSTATE = 0 then s.resync else s
  else
    ({ s with tw := { s.tw with entries := [], sentQ := [], snap := false } } : State).fs 0x024 TW_STATUS_MSTATE 0

/-- A backlog of 4096 entries overflows (R406, R408). -/
def State.mirrorOverflow (s : State) : State :=
  let ms := s.fg 0x024 TW_STATUS_MSTATE
  if s.role = roleActive ∧ (ms = 2 ∨ ms = 3) ∧ 4096 < s.fg 0x024 TW_LAG_BACKLOG + s.tw.entries.length then s.resync else s

/-- Entries of one frame by KIND (R400). -/
def perFrame (kind : Nat) : Nat :=
  if kind = 1 then 7 else if kind = 2 then 4 else if kind = 5 then 7 else 1

/-- The entries of the next MIRROR frame: of one KIND and one epoch. -/
def frameEntries : List MEntry → List MEntry
  | [] => []
  | e :: es => e :: ((es.takeWhile fun x => decide (x.kind = e.kind) && decide (x.epoch = e.epoch)).take (perFrame e.kind - 1))

/-- The next MIRROR frame, while the backlog has room (R400, R406). -/
def State.mirrorFrame (s : State) : Option (Frame × State) :=
  match frameEntries s.tw.entries with
  | [] => none
  | e :: es =>
    let n := es.length + 1
    let back := s.fg 0x024 TW_LAG_BACKLOG
    if 4096 < back + n then none
    else
      let seq := (s.tw.mseq + 1) % 65536
      let count := if 7 ≤ e.kind then 0 else n
      let body := leBytes e.kind 1 ++ leBytes count 1 ++ leBytes seq 2 ++ leBytes e.epoch 4 ++ ((e :: es).map (·.bytes)).flatten
      let s1 := { s with tw := { s.tw with entries := s.tw.entries.drop n, mseq := seq, sentQ := s.tw.sentQ ++ [(seq, n)] } }
      some (s.twinFrame 0x22 0 (pad4 body), s1.fs 0x024 TW_LAG_BACKLOG (back + n))

/-- MIRROR_PERIODIC_ENTRY (R403, R404): the TIME entry, an ENGINE entry for every mirrored channel, the STATE entry. -/
def execMirrorPeriodicEntry (s : State) : Out :=
  .next (
    if !s.mirroring then s
    else
      let es := s.timeEntry :: (s.mirroredChans.map fun e => s.engineEntry e.1 e.2) ++ [s.stateEntry]
      ({ s with tw := { s.tw with entries := s.tw.entries ++ es } } : State).mirrorOverflow)

/-- MACK_SEND (R406). -/
def execMackSend (s : State) : Out :=
  .next (
    if s.role ≠ roleStandby ∨ !s.portActive .twin then s
    else
      let s1 := s.llOut .twin (s.twinFrame 0x23 (s.tw.rseq.getD 0 + 65536 * bit s.tw.resyncReq) [])
      { s1 with tw := { s1.tw with resyncReq := false } })

/-- The frames acknowledged by a MACK: those up to its MSEQ, in the order sent. -/
def acked (m : Nat) (l : List (Nat × Nat)) : List (Nat × Nat) :=
  if l.any (fun e => decide (e.1 = m)) then (l.dropWhile fun e => decide (e.1 ≠ m)).drop 1 else l

/-- MACK_RECEIVED (R406, R408). -/
def execMackReceived (s : State) : Out :=
  .next (match s.twinTake (isTwin 0x23) with
    | none => s
    | some (f, s1) =>
      if s1.role ≠ roleActive then s1
      else if f.hdr.argBits 16 1 = 1 then s1.resync
      else
        let q := acked (f.hdr.argBits 0 16) s1.tw.sentQ
        let back := (q.map (·.2)).sum
        let s2 := ({ s1 with tw := { s1.tw with sentQ := q } } : State).fs 0x024 TW_LAG_BACKLOG back
        if s2.tw.snap ∧ s2.fg 0x024 TW_STATUS_MSTATE = 1 ∧ back = 0 ∧ (s2.tw.entries.all fun e => decide (e.kind ≠ 7) && decide (e.kind ≠ 8)) = true then
          ({ s2 with tw := { s2.tw with snap := false } } : State).fs 0x024 TW_STATUS_MSTATE 2
        else s2)

/-! ### Readiness (R409) -/

/-- The conditions of R409 beside MSTATE, as this hub knows them. -/
def State.mirrorOk (s : State) : Bool :=
  if s.role = roleActive then decide (s.fg 0x024 TW_LAG_BACKLOG < s.fg 0x024 TW_LAG_CFG_MAX)
  else
    !s.tw.canBad && !s.tw.canLate && decide (s.tw.links &&& s.linksActive = s.tw.links) &&
    (match s.tw.peer with
      | none => true
      | some (k, a, b) => let st := if k = 0 then a else b
        !(decide (st = 2) || decide (st = 4)) || s.domGood s.sel)

/-- MSTATE judged: LAGGING with MIRROR_LAG when a condition fails in SYNCED; READY on the standby. -/
def State.mirrorJudge (s : State) : State :=
  let ok := s.mirrorOk
  let s1 := if s.fg 0x024 TW_STATUS_MSTATE = 2 ∧ !ok then (s.fs 0x024 TW_STATUS_MSTATE 3).raise 0x024 EV_TW_MIRROR_LAG else s
  let s2 := if ok then s1 else { s1 with tw := { s1.tw with lagOk := false } }
  if s2.role = roleStandby then s2.fs 0x024 TW_STATUS_READY (bit (ok && decide (s2.fg 0x024 TW_STATUS_MSTATE = 2))) else s2

/-- At an epoch boundary: the epoch's canopy entries are judged, and LAGGING ends after one whole epoch in which all held. -/
def State.mirrorEpoch (s : State) : State :=
  let s1 := ({ s with tw := { s.tw with canBad := s.tw.canLate, canLate := false } } : State).mirrorJudge
  if s1.fg 0x024 TW_STATUS_MSTATE = 3 ∧ s1.mirrorOk = true then
    if s1.tw.lagOk then (s1.fs 0x024 TW_STATUS_MSTATE 2).mirrorJudge
    else { s1 with tw := { s1.tw with lagOk := true } }
  else s1

/-- MSTATE_RETURN_SYNCED (R409): without a running scan unit, after 1 ms. -/
def execMstateReturnSynced (s : State) : Out :=
  .next (
    let s1 := if s.scanOn then s else { s with tw := { s.tw with canBad := false, canLate := false } }
    if s.fg 0x024 TW_STATUS_MSTATE = 3 ∧ !s1.scanOn ∧ s1.mirrorOk = true then (s1.fs 0x024 TW_STATUS_MSTATE 2).mirrorJudge else s)

/-! ### Roles (R396, R397, R399, R414-R416) -/

/-- Receive records at a takeover (R404, R411): from a swap's boundary only items stamped then or later; at a claim a mirrored channel
keeps what it holds, another starts anew. -/
def State.takeOver (s : State) (cut : Option Int) : State :=
  (List.range 192).foldl (fun (t : State) k =>
    let n := k / 8
    let c := k % 8
    let x := t.chan n c
    match cut with
    | some u => t.setChan n c (x.keepItems fun i => decide (u ≤ i))
    | none => if t.mirroredChan n c then t else t.setChan n c { x with buf := none, recs := [] }) s

/-- The records held are sent as the hub becomes active (R404, R410). -/
def State.sendRecords (s : State) : State :=
  (List.range 192).foldl (fun (t : State) k => t.sendHeld (k / 8) (k % 8)) s

/-- Every open record closed and sent (R411). -/
def State.closeRecords (s : State) : State :=
  (List.range 192).foldl (fun (t : State) k => t.recClose (k / 8) (k % 8) 0) s

/-- This hub's card links in ACTIVE, and those of them that show SELECTED 1. -/
def State.linksUp (s : State) : List Nat := (List.range 24).filter fun n => decide (s.clState n = 5)
def State.linksSel (s : State) : List Nat := s.linksUp.filter fun n => s.fb (clPage n) CL_STATUS_SEL_THIS

/-- This hub becomes ACTIVE, or STANDBY, outside a swap. -/
def State.becomeActive (s : State) (cut : Option Int) : State := (((s.takeOver cut).setRole roleActive).sendRecords).mirrorRoles
def State.becomeStandby (s : State) : State :=
  let s1 := { s with tw := { s.tw with swap := none, swapYes := false, quiet := [], newSwap := false } }
  (s1.setRole roleStandby).mirrorRoles

/-- TWIN_START_WAIT_EXPIRED (R397). -/
def execTwinStartWaitExpired (s : State) : Out :=
  .next (if s.redundant && decide (s.role = roleStarting) && !s.portActive .twin then
    (s.fs 0x024 TW_STATUS_PRESENT 0).becomeActive none else s)

/-- TGUY_SEND (R399). -/
def execTguySend (s : State) : Out :=
  .next (
    if !s.redundant ∨ !s.portActive .twin then s
    else
      let s1 := s.mirrorJudge.mirrorOverflow
      let arg := s1.tw.seq + 65536 * s1.role + 524288 * bit (s1.role = roleStandby && s1.fb 0x024 TW_STATUS_READY) +
        1048576 * s1.fg 0x024 TW_CFG_PREFER
      ({ s1 with tw := { s1.tw with seq := (s1.tw.seq + 1) % 65536 } } : State).llOut .twin (s1.twinFrame 0x20 arg []))

/-- The role that a TGUY decides (R397, R415, R416): of two starting hubs the preferred one, else the one with the lower identifier, is
ACTIVE. Of two active hubs the one with fewer selected cards stands by. A card in ACTIVE that does not select this hub selects the
other. -/
def State.tguyRole (s : State) (role prefer : Nat) : State :=
  let mine := s.fg 0x024 TW_CFG_PREFER
  if s.role = roleStarting then
    if role = roleStarting then
      if mine ≠ prefer then (if mine = 1 then s.becomeActive none else s.becomeStandby)
      else if s.hubId < s.twinHub then s.becomeActive none else s.becomeStandby
    else if role = roleActive ∨ role = roleClaiming then s.becomeStandby
    else s
  else if s.role = roleClaiming then (if role = roleActive then s.becomeStandby else s)
  else if s.role = roleActive ∧ role = roleActive then
    let here := s.linksSel.length
    let there := s.linksUp.length - here
    if here < there ∨ (here = there ∧ s.twinHub < s.hubId) then s.becomeStandby.raise 0x024 EV_TW_SPLIT_BRAIN else s
  else s

/-- TGUY_RECEIVED (R397, R399). -/
def execTguyReceived (s : State) : Out :=
  .next (match s.twinTake (isTwin 0x20) with
    | none => s
    | some (f, s0) =>
      if !s0.redundant then s0
      else
        let role := f.hdr.argBits 16 3
        let s1 := ({ s0 with tw := { s0.tw with guy := true } } : State).fs 0x024 TW_STATUS_TWIN_ROLE role
        let s2 := if s1.role = roleActive then s1.fs 0x024 TW_STATUS_READY (f.hdr.argBits 19 1) else s1
        ((s2.tguyRole role (f.hdr.argBits 20 1)).mirrorRoles).twinWatch)

/-- TWIN_GUY_TIMEOUT (R399, R414). -/
def execTwinGuyTimeout (s : State) : Out :=
  .next (({ s with tw := { s.tw with guy := false } } : State).twinWatch)

/-- RELEASE_RECEIVED (R414). -/
def execReleaseReceived (s : State) : Out :=
  .next (match s.twinTake (isRole [4]) with
    | none => s
    | some (_, s1) => if s1.redundant && decide (s1.role = roleStandby) then s1.claim else s1)

/-- CLAIM_DECISION (R415). -/
def execClaimDecision (s : State) : Out :=
  .next (
    if s.role ≠ roleClaiming then s
    else if s.linksUp = [] ∨ s.linksSel ≠ [] then (s.becomeActive none).inc 0x024 TW_CNT_SWITCH_UNPLANNED
    else s.becomeStandby.raise 0x024 EV_TW_SPLIT_BRAIN)

/-- TW_CMD.RELEASE, and the SWITCHOVER reaction (R418, R474). -/
def State.twRelease (s : State) : State :=
  if s.redundant && decide (s.role = roleActive) && s.twinGuy && decide (s.fg 0x024 TW_STATUS_TWIN_ROLE = roleStandby) then
    (s.roleSend 4 0 0).becomeStandby
  else s.raise 0x024 EV_TW_RELEASE_REFUSED

def execTwRelease (who : Initiator) (s : State) : Out := .next (s.write who 0x024 TW_CMD State.twRelease)

/-- TW_CMD.RESET_TWIN and its arrival (R68, R419). -/
def State.twResetTwin (s : State) : State := if s.portActive .twin then s.roleSend 5 0 0 else s
def execTwResetTwin (who : Initiator) (s : State) : Out := .next (s.write who 0x024 TW_CMD State.twResetTwin)
def execTwinResetReceived (s : State) : Out :=
  .next (match s.twinTake (isRole [5]) with
    | none => s
    | some (_, s1) =>
      if s1.fb 0 GS_RESET_CTRL_TWIN_EN && s1.portActive .twin then s1.recognise { cause := 5, level := s1.levelOf 5 } none else s1)

/-- TW_CMD.RESYNC (R408). -/
def State.twResync (s : State) : State :=
  if s.fg 0x024 TW_STATUS_MSTATE = 0 then s else if s.role = roleActive then s.resync else s.askResync
def execTwResync (who : Initiator) (s : State) : Out := .next (s.write who 0x024 TW_CMD State.twResync)

/-- TW_CMD.CLR_CNT. -/
def State.twClrCnt (s : State) : State :=
  (((s.wr 0x024 TW_CNT_SWITCH 0).wr 0x024 TW_CNT_RESYNC 0).wr 0x024 TW_CNT_CANOPY_LATE 0).wr 0x024 TW_CNT_BAD 0
def execTwClrCnt (who : Initiator) (s : State) : Out := .next (s.write who 0x024 TW_CMD State.twClrCnt)

/-! ### Planned switchover (R411-R413) -/

/-- The first epoch whose boundary lies at least 200 µs ahead; 0 when the scan unit is not running. -/
def State.aheadEpoch (s : State) : Nat :=
  if !s.scanOn then 0
  else
    let late := s.stAt s.now / stNsU + 200000 - s.scan.next
    let k : Int := if late ≤ 0 ∨ s.epochNs = 0 then 0 else (late + s.epochNs - 1) / s.epochNs
    uns 32 ((s.epoch : Int) + 1 + k)

/-- A switchover requested on this hub (R411 steps 1 and 2). A standby passes the request to the active hub as a SWAP_PROPOSE of its own. -/
def State.swapRequest (s : State) : State :=
  if !s.redundant then s.raise 0x024 EV_TW_SWAP_REFUSED
  else if s.role = roleStandby then (if s.portActive .twin then s.roleSend 1 0 0 else s.raise 0x024 EV_TW_SWAP_REFUSED)
  else if s.role ≠ roleActive ∨ s.tw.swap.isSome ∨ s.tw.quiet ≠ [] ∨ !s.fb 0x024 TW_STATUS_READY ∨ s.fg 0x024 TW_STATUS_MSTATE ≠ 2 ∨
      s.mirrorOk = false then s.raise 0x024 EV_TW_SWAP_REFUSED
  else ({ s with tw := { s.tw with swap := some (s.aheadEpoch, false) } } : State).roleSend 1 0 s.aheadEpoch

def execTwSwap (who : Initiator) (s : State) : Out := .next (s.write who 0x024 TW_CMD State.swapRequest)

/-- PERIODIC_SWAP_DUE (R413). -/
def execPeriodicSwapDue (s : State) : Out :=
  .next (if s.redundant && decide (s.role = roleActive) && decide (s.fg 0x024 TW_SWAP_INTERVAL ≠ 0) then
    (s.fs 0x024 TW_STATUS_SWAP_DUE 1).swapRequest else s)

/-- SWAP_PROPOSE_RECEIVED (R411 steps 3 and 4). -/
def execSwapProposeReceived (s : State) : Out :=
  .next (match s.twinTake (isRole [1]) with
    | none => s
    | some (f, s0) =>
      if s0.role = roleActive then s0.swapRequest
      else
        let s1 := s0.mirrorJudge
        let e := f.hdr.argBits 16 32
        if s1.role ≠ roleStandby ∨ !s1.fb 0x024 TW_STATUS_READY ∨ s1.scanOn = decide (e = 0) then s1.roleSend 3 1 e
        else if e ≠ 0 ∧ (epochDiff e s1.epoch = 0 ∨ 2 ^ 31 ≤ epochDiff e s1.epoch) then s1.roleSend 3 2 e
        else ({ s1 with tw := { s1.tw with swapYes := true, swap := some (e, true) } } : State).roleSend 2 0 e)

/-- SWAP_ANSWER_RECEIVED (R411 step 3). -/
def execSwapAnswerReceived (s : State) : Out :=
  .next (match s.twinTake (isRole [2, 3]) with
    | none => s
    | some (f, s1) =>
      match s1.tw.swap with
      | some (e, false) =>
        if s1.role ≠ roleActive then s1
        else if f.hdr.argBits 0 8 = 2 then { s1 with tw := { s1.tw with swap := some (e, true) } }
        else ({ s1 with tw := { s1.tw with swap := none } } : State).raise 0x024 EV_TW_SWAP_REFUSED
      | _ => s1)

/-- SWAP_ANSWER_TIMEOUT (R411 step 3). -/
def execSwapAnswerTimeout (s : State) : Out :=
  .next (match s.tw.swap with
    | some (_, false) =>
      if s.role = roleActive then ({ s with tw := { s.tw with swap := none } } : State).raise 0x024 EV_TW_SWAP_REFUSED else s
    | _ => s)

/-- SWAP_DONE and the update block: a hub that waited for it reverts (R503); the new standby, armed, strikes at the first epoch boundary
at least 200 µs ahead (R500 step 3). -/
def State.updSwapped (s : State) : State :=
  let s1 := { s with up := { s.up with swapWanted := false, leaving := false } }
  if s.up.leaving then s1.strikeFail
  else if s.up.turn ∧ s.role = roleStandby then { s1 with up := { s1.up with strikeAt := some s.aheadEpoch } }
  else s1

/-- A swap is complete on this hub (R411 step 7, R413). -/
def State.swapDone (s : State) : State :=
  (((s.fs 0x024 TW_STATUS_SWAP_DUE 0).inc 0x024 TW_CNT_SWITCH_PLANNED).raise 0x024 EV_TW_SWAP_DONE).updSwapped

/-- The swap point (R411 step 5): the roles change, with the mirror SYNCED in the other direction. -/
def State.swapPoint (s : State) : State :=
  let clean (t : State) : State :=
    ({ t with tw := { t.tw with swap := none, swapYes := false, entries := [], sentQ := [], snap := false, rseq := none } } : State).fs
      0x024 TW_LAG_BACKLOG 0
  if s.role = roleActive then
    let s1 := (clean s.closeRecords).setRole roleStandby
    { s1 with tw := { s1.tw with quiet := List.range 24 } }.fs 0x024 TW_STATUS_TWIN_ROLE roleActive
  else if s.role = roleStandby then
    let s1 := ((clean s).takeOver (some s.now)).setRole roleActive
    { s1 with tw := { s1.tw with newSwap := true } }.fs 0x024 TW_STATUS_TWIN_ROLE roleStandby
  else clean s

/-- The swap accepted for epoch `e` or before is due. -/
def State.swapDue (s : State) (e : Nat) : Bool := match s.tw.swap with
  | some (x, true) => decide (epochDiff e x < 2 ^ 31)
  | _ => false

/-- The new active hub's swap is done when every card link in ACTIVE has selected it. -/
def State.newSwapCheck (s : State) : State :=
  if s.tw.newSwap ∧ s.linksSel.length = s.linksUp.length then
    ({ s with tw := { s.tw with newSwap := false } } : State).swapDone else s

/-- A pitch leaves its quiet hold: ACTIVE 0 on its lane, and SWAP_DONE with the last one (R411, R412). -/
def State.quietEnd (s : State) (n : Nat) : State :=
  if !s.tw.quiet.contains n then s
  else
    let s1 := { s with tw := { s.tw with quiet := s.tw.quiet.filter (· != n) } }
    if s1.tw.quiet = [] then s1.swapDone else s1

/-- PITCH_QUIET and QUIET_HOLD_TIMEOUT (R412). -/
def execPitchQuiet (pitch : Pitch) (s : State) : Out := .next (s.quietEnd pitch.val)
def execQuietHoldTimeout (pitch : Pitch) (s : State) : Out := .next (s.quietEnd pitch.val)

end Sys2Proof.Machine
end

