-- ==== Sys2Proof/Machine/Faults.lean ====
section
/-! DEFINITION. The fault unit, page 0x004 (chapter 17): counting and judging, the reactions, isolation and ERR_N. -/
namespace Sys2Proof.Machine

/-- The configuration and the counts of a source. -/
def srcF (f : Fld) (n : Nat) : Fld := f.at (4 * n)

/-- A millisecond in units of 1/160 ns. -/
def msU : Int := 160000000

/-! ### Isolation (R475, R476) -/

/-- What ISOLATE of a source acts on: an island, a pitch power channel, a card link, or an engine of a cluster. -/
inductive IsoTarget where
  | island (i : Nat)
  | power (n : Nat)
  | link (n : Nat)
  | engine (n : Nat)
deriving DecidableEq, Repr

/-- R475, the column ISOLATE. -/
def isoTarget (n : Nat) : Option IsoTarget :=
  if 0x10 ≤ n ∧ n ≤ 0x19 then some (.island 0) else if 0x1A ≤ n ∧ n ≤ 0x23 then some (.island 1)
  else if 0x28 ≤ n ∧ n ≤ 0x2D then some (.island 3) else if 0x36 ≤ n ∧ n ≤ 0x3A then some (.island 35)
  else if 0x41 ≤ n ∧ n ≤ 0x46 then some (.island 4) else if 0x57 ≤ n ∧ n ≤ 0x9E then some (.power ((n - 0x57) / 3))
  else if 0x9F ≤ n ∧ n ≤ 0xCE then some (.link ((n - 0x9F) / 2))
  else if 0xCF ≤ n ∧ n ≤ 0xFE then (if n % 2 = 1 then some (.engine ((n - 0xCF) / 2)) else some (.island (11 + (n - 0xCF) / 2)))
  else none

/-- The pages that an isolation holds. -/
def IsoTarget.pages (t : IsoTarget) (detail : Nat) : List Nat := match t with
  | .island i => islandPages i
  | .power n => [0x030 + n]
  | .link n => [clPage n]
  | .engine n => [enPage n (detail % 9)]

/-- The block of an isolation goes into L3 reset. An engine whose channel the spare can take over hands its configuration to the spare
and its channel is switched by an urgent migration; without a spare the channel sends the outputs of mode OFF. -/
def State.isoHold (s : State) (t : IsoTarget) (detail : Nat) : State := match t with
  | .island i => s.islandDown i
  | .power n => (s.ppStop n).blockDown (0x030 + n)
  | .link n => (s.clOff n).blockDown (clPage n)
  | .engine n =>
    let pos := detail % 9
    let p := enPage n pos
    let g := ecPage n
    if pos = 8 then (s.fs g EC_MIG_STATUS_SPARE_OK 0).blockDown p
    else match s.servedBy n pos with
      | some c =>
        if s.fb g EC_MIG_STATUS_SPARE_OK && !s.fb g EC_MIG_STATUS_SPARE_USED then ((s.migRequest n c true 4).refuseUnready p).setState p PAGE_STATE_READY false
        else s.blockDown p
      | none => s.blockDown p

/-- The ISOLATE reaction of source `n`: no further effect on a block already isolated (R476). -/
def State.isolate (s : State) (n detail : Nat) : State := match isoTarget n with
  | none => s
  | some t =>
    let ps := t.pages detail
    if ps.any s.isolated then s
    else
      let s1 := s.isoHold t detail
      let s2 := ps.foldl (fun (u : State) p => { (u.setState p PAGE_STATE_FAULT true) with iso := u.iso.put p (n + 1) 0 }) s1
      s2.fs 0x004 ((⟨FT_ISO, n % 32, 1⟩ : Fld).at (4 * (n / 32))) 1

/-- The isolations that source `n` holds end (R476): their islands ask for release (R89), and their blocks may become READY. -/
def State.isoRelease (s : State) (n : Nat) : State :=
  let ps := (s.iso.filter fun e => decide (e.2 = n + 1)).map (·.1)
  let s1 := ps.foldl (fun (u : State) p => u.setState p PAGE_STATE_FAULT false) { s with iso := s.iso.filter fun e => decide (e.2 ≠ n + 1) }
  let s2 := s1.fs 0x004 ((⟨FT_ISO, n % 32, 1⟩ : Fld).at (4 * (n / 32))) 0
  match isoTarget n with
  | some (.island i) => if ps.isEmpty || nbit (s2.rd 0 GS_HOLD).toNat (holdBit i) then s2 else s2.setIsl i { rel := false, req := true }
  | _ => s2

/-! ### Counting and judging (R473) -/

/-- The state with an event of source `n` counted, and whether it is severe. -/
def State.ftCount (s : State) (n : Nat) : State × Bool :=
  let w : Int := msU * (s.fg 0x004 (srcF FT_SRC_CFG_W n) : Int)
  let opened : Bool := match s.ft.win.getD n none with
    | some t0 => decide (s.now < t0 + w)
    | none => false
  let s1 := if opened then s.inc 0x004 (srcF FT_SRC_CNT_WIN n)
    else ({ s with ft := { s.ft with win := s.ft.win.put n (some s.now) none } } : State).fs 0x004 (srcF FT_SRC_CNT_WIN n) 1
  let s2 := s1.inc 0x004 (srcF FT_SRC_CNT_TOTAL n)
  let s3 := s2.fs 0x004 ((⟨FT_STICKY, n % 32, 1⟩ : Fld).at (4 * (n / 32))) 1
  let lim := s.fg 0x004 (srcF FT_SRC_CFG_N n)
  (s3, decide (lim ≠ 0) && decide (lim ≤ s3.fg 0x004 (srcF FT_SRC_CNT_WIN n)))

/-- An ERR_N pulse starts or starts again (R479). -/
def State.errStart (s : State) : State :=
  let s1 := ({ s with gs := { s.gs with errPulse := true } } : State).fs 0x004 FT_ERR_PULSE 1
  if s1.fb 0x004 FT_CTRL_AUTO_HOLD then s1.fs 0x004 FT_ERR_HOLD 1 else s1

/-- A reset that a reaction requests: at the end of its event's pulse, or at once where the event has none (R477). -/
def State.reactReset (s : State) (severe : Bool) (r : ResetReq) : State :=
  if severe then { s with gs := { s.gs with errReset := s.gs.errReset ++ [r] } }
  else s.recognise r (l3Target r.detail)

/-- The level of a reset reaction: what it asks for, limited by the fuse entry of fault escalation (R66); `none` where it is limited to
L3 and the source has no block. -/
def State.reactLevel (s : State) (n code : Nat) : Option Nat :=
  let lv := if code = 4 then 3 else s.faultLevel (7 - code)
  if lv = 3 ∧ l3Target n = none then none else some lv

/-- The reaction of an event (R474). -/
def State.react (s : State) (n detail code : Nat) (severe : Bool) : State :=
  if code = 2 then s.isolate n detail
  else if code = 3 then (if s.redundant && decide (s.role = roleActive) then s.twRelease else s)
  else if 4 ≤ code then (match s.reactLevel n code with
    | some lv => s.reactReset severe { cause := 7, level := lv, detail := n }
    | none => s)
  else s

/-- One event of a source (R473, R474). -/
def State.ftEvent (s : State) (n detail : Nat) : State :=
  let (s1, severe) := s.ftCount n
  let code := s.fg 0x004 (srcF (if severe then FT_SRC_CFG_SEVERE else FT_SRC_CFG_MINOR) n)
  let s2 := s1.wr 0x004 FT_LAST (BitVec.ofNat 32 (n * 2 ^ 24 + detail % 256 * 65536 + bit severe * 32768 + code * 4096))
  let s3 := s2.wr 0x004 FT_LAST_TIME (BitVec.ofNat 32 (s.stNs s.now))
  let s4 := s3.inc 0x004 (if severe then FT_CNT_SEVERE else FT_CNT_MINOR)
  let s5 := s4.raiseIf (decide (code ≠ 0)) 0x004 (if severe then EV_FT_SEVERE else EV_FT_MINOR)
  (if severe then s5.errStart else s5).react n detail code severe

/-- FAULT_EVENT (R472, R473): the oldest source raised, once the fault unit is READY. -/
def execFaultEvent (s : State) : Out :=
  .next (match s.faultQ with
    | [] => s
    | (n, detail) :: rest => if s.ready 0x004 then ({ s with faultQ := rest } : State).ftEvent n detail else s)

/-! ### ERR_N (R477-R479) -/

/-- Of two requested resets, the one that governs: the deeper, then the lower source (R478). -/
def governing (a b : ResetReq) : ResetReq :=
  if b.level < a.level ∨ (b.level = a.level ∧ b.detail < a.detail) then b else a

/-- ERR_PULSE_END (R477): the L3 resets requested act in order; where one at L2 or deeper is among them, it governs alone. -/
def execErrPulseEnd (s : State) : Out :=
  .next (
    if !s.gs.errPulse then s
    else
      let l := s.gs.errReset
      let s1 := ({ s with gs := { s.gs with errPulse := false, errReset := [] } } : State).fs 0x004 FT_ERR_PULSE 0
      match l.filter fun r => decide (r.level < 3) with
      | [] => l.foldl (fun (t : State) r => t.recognise r (l3Target r.detail)) s1
      | r :: rs => s1.recognise (rs.foldl governing r) none)

/-- What ERR_N shows (R479): its peg state until FT_CTRL is first written, then high-impedance while ERR_OE is 0, low in a pulse or while
HOLD is 1, and else high. -/
def State.errN (s : State) : Pin :=
  if !s.gs.cfgErr then s.peg 4
  else if !s.fb 0x004 FT_CTRL_ERR_OE then .floating
  else if s.gs.errPulse || s.fb 0x004 FT_ERR_HOLD then .low else .high

/-! ### Registers of the page -/

/-- A write of FT_RELEASE (R476). -/
def State.ftReleaseWrite (s : State) (v : Word) : State := if FT_RELEASE_GO.get v = 1 then s.isoRelease (FT_RELEASE_SOURCE.get v) else s

def execFtRelease (who : Initiator) (v : Word) (s : State) : Out := .next (s.write who 0x004 FT_RELEASE fun t => t.ftReleaseWrite v)

/-- FT_CTRL.CLR_CNT clears FT_CNT and every FT_SRC_CNT. -/
def State.ftClrCnt (s : State) : State := (List.range 256).foldl (fun (t : State) n => t.wr 0x004 (FT_SRC_CNT + 4 * n) 0) (s.wr 0x004 FT_CNT 0)

def execFtClrCnt (who : Initiator) (s : State) : Out :=
  .next (s.write who 0x004 FT_CTRL fun t => ({ t with gs := { t.gs with cfgErr := true } } : State).ftClrCnt)

/-- A write of FT_CTRL: the pin leaves its peg state (R95). -/
def State.ftCtrlWrite (s : State) (pre : Bool) (v : Word) : State :=
  let s1 := ({ s with gs := { s.gs with cfgErr := true } } : State).plain pre 0x004 FT_CTRL v
  if FT_CTRL_CLR_CNT.get v = 1 then s1.ftClrCnt else s1

/-- THERMAL_WARN (R488): TJ shows the reading; raised once until the sensor reads 5 °C below WARN. -/
def execThermalWarn (tj : Int) (s : State) : Out :=
  .next (
    let warn : Int := (s.fg 0x004 FT_THERM_WARN : Int)
    let s1 := s.fs 0x004 FT_THERM_TJ (uns 8 tj)
    if warn ≤ tj then
      (if s.ft.warm then s1 else ({ s1 with ft := { s1.ft with warm := true } } : State).raise 0x004 EV_FT_THERMAL_WARN)
    else if tj ≤ warn - 5 then { s1 with ft := { s1.ft with warm := false } }
    else s1)

/-! ### Commit (R489) -/

/-- R489: the reason and the register of a refused commit of page 0x004. -/
def State.ftCheck (s : State) : Option (Nat × Nat) :=
  let w := s.fgSh 0x004 FT_THERM_WARN
  if w < 60 ∨ 111 < w then some (1, FT_THERM)
  else match (List.range 256).find? fun n => decide (s.fgSh 0x004 (srcF FT_SRC_CFG_W n) = 0) with
    | some n => some (1, FT_SRC_CFG + 4 * n)
    | none =>
      let bad (n code : Nat) : Bool := (decide (code = 2) && (isoTarget n).isNone) || (decide (code = 4) && (l3Target n).isNone)
      match (List.range 256).find? fun n =>
        bad n (s.fgSh 0x004 (srcF FT_SRC_CFG_MINOR n)) || bad n (s.fgSh 0x004 (srcF FT_SRC_CFG_SEVERE n)) with
      | some n => some (0x80, FT_SRC_CFG + 4 * n)
      | none => none

/-- A commit that changes N or W of a source closes its window (R473); `b` is the state before. -/
def State.ftCommitted (s b : State) : State :=
  (List.range 256).foldl (fun (t : State) n =>
    if t.fg 0x004 (srcF FT_SRC_CFG_N n) = b.fg 0x004 (srcF FT_SRC_CFG_N n) ∧
        t.fg 0x004 (srcF FT_SRC_CFG_W n) = b.fg 0x004 (srcF FT_SRC_CFG_W n) then t
    else ({ t with ft := { t.ft with win := t.ft.win.put n none none } } : State).fs 0x004 (srcF FT_SRC_CNT_WIN n) 0) s

end Sys2Proof.Machine
end

