-- ==== Sys2Proof/Machine/Wear.lean ====
section
/-! DEFINITION. The wear unit, page 0x005 (chapter 17): sentinels, wear events with their spare actions, references, PLLs and the
baseline table. -/
namespace Sys2Proof.Machine

/-! ### Wear events (R482, R483) -/

/-- ACTION of WR_LAST. -/
def actReported : Nat := 0
def actRequested : Nat := 1
def actRefused : Nat := 2
def actExhausted : Nat := 3
def actNotEnabled : Nat := 4

/-- The wear event of the unit `key`, once until re-armed: WEAR, WR_CNT, WR_LAST with KIND and UNIT, and the spare action `act`. -/
def State.wearEvent (s : State) (key kind unit : Nat) (act : State → State × Nat) : State :=
  if s.wear.worn.contains key then s
  else
    let s1 := ({ s with wear := { s.wear with worn := key :: s.wear.worn } } : State).inc 0x005 WR_CNT_WEAR
    let (s2, a) := act (s1.raise 0x005 EV_WR_WEAR)
    let s3 := s2.wr 0x005 WR_LAST (BitVec.ofNat 32 (kind * 2 ^ 28 + unit % 4096 * 65536 + a))
    s3.raiseIf (decide (a = actExhausted)) 0x005 EV_WR_SPARE_EXHAUSTED

/-- WR_SPARE_EN enables a kind of spare. -/
def State.spareEn (s : State) (k : Nat) : Bool := nbit (s.fg 0x005 WR_SPARE_EN_KIND) k

/-- The action of a wear event: not enabled, exhausted, refused, or requested. A refused request is still made, and its block refuses
it under its own rules. -/
def State.spareAct (s : State) (en gone refused : Bool) (ask : State → State) : State × Nat :=
  if !en then (s, actNotEnabled) else if gone then (s, actExhausted) else if refused then (ask s, actRefused) else (ask s, actRequested)

/-- The worn lane `l` of a ring port: a planned substitution with CAUSE 0x01; a worn spare lane becomes unusable. -/
def State.wearLane (s : State) (p : RingPort) (l : Nat) : State × Nat :=
  let x := s.port p.lanes
  if x.rxSpare = some l then (s.spareLost p.lanes l, actReported)
  else if !s.rxInUse p.lanes l then (s, actReported)
  else s.spareAct (s.spareEn 0) x.rxSpare.isNone (x.rxSub.isSome || s.ridgeOnly) fun t => t.requestSub p l 1

/-- The worn engine `g` (R285): a worn spare becomes unusable. -/
def State.wearEngine (s : State) (g : Nat) : State × Nat :=
  let n := g / 9
  let p := ecPage n
  if g % 9 = 8 then (s.fs p EC_MIG_STATUS_SPARE_OK 0, actReported)
  else match s.servedBy n (g % 9) with
    | none => (s, actReported)
    | some c => s.spareAct (s.spareEn 1 && s.fb p EC_CTRL_MIG_AUTO)
        (s.fb p EC_MIG_STATUS_SPARE_USED || !s.fb p EC_MIG_STATUS_SPARE_OK)
        ((s.followed n).isSome || !s.running p || s.secondOfPair n c) fun t => t.migRequest n c false 3

/-- The worn row of a scratchpad bank. -/
def State.wearRow (s : State) (b row : Nat) : State × Nat :=
  s.spareAct (s.spareEn 2 && s.fb 0x280 MEM_CTRL_REPAIR_AUTO) (decide ((s.spBank b).freeSpares = [])) false fun t =>
    { t with mem := { t.mem with repairs := t.mem.repairs ++ [(b, row, 3)] } }

/-- The worn physical bank of the cell memory; of the spare bank itself the wear is reported only. -/
def State.wearBank (s : State) (b : Nat) : State × Nat :=
  if b = 16 ∧ !s.fb 0x010 CORE_BANK_SPARE_SPARED then (s, actReported)
  else s.spareAct (s.spareEn 3 && s.fb 0x010 CORE_CTRL_SPARE_AUTO) (s.fb 0x010 CORE_BANK_SPARE_SPARED)
    (s.replacing || s.marchOnCells || !s.running 0x010) fun t => t.requestSpare b 3

/-! ### References (R484) -/

def State.refOk (s : State) (r : Nat) : Bool := s.fb 0x005 (if r = 0 then WR_REF_STATUS_A_OK else WR_REF_STATUS_B_OK)

/-- Every PLL and its spare move to reference `r`. -/
def State.refMove (s : State) (r : Nat) : State := ((s.fs 0x005 WR_REF_STATUS_IN_USE r).fs 0x005 WR_REF_STATUS_DRIFT 0).raise 0x005 EV_WR_REF_SWITCH

/-- The move from the reference in use to the other, when the other has not failed. -/
def State.refLeave (s : State) : State :=
  let u := s.fg 0x005 WR_REF_STATUS_IN_USE
  if s.refOk (1 - u) then s.refMove (1 - u) else s

/-- A reference fails: its event, and the move when it is in use, whatever WR_SPARE_EN holds. -/
def State.refFailed (s : State) (r : Nat) : State :=
  let s1 := ({ s with wear := { s.wear with refBad := r :: s.wear.refBad.filter (· != r) } } : State).fs 0x005
    (if r = 0 then WR_REF_STATUS_A_OK else WR_REF_STATUS_B_OK) 0
  let s2 := s1.raise 0x005 (if r = 0 then EV_WR_REF_A_FAIL else EV_WR_REF_B_FAIL)
  if s2.fg 0x005 WR_REF_STATUS_IN_USE = r then s2.refLeave else s2

/-- A reference is found drifting: shown when it is in use. -/
def State.refDrifts (s : State) (r : Nat) : State := if s.fg 0x005 WR_REF_STATUS_IN_USE = r then s.fs 0x005 WR_REF_STATUS_DRIFT 1 else s

/-- The spare action of a drifting reference: a move only from REFCLK_A in use. -/
def State.wearRef (s : State) (r : Nat) : State × Nat :=
  if r ≠ 0 ∨ s.fg 0x005 WR_REF_STATUS_IN_USE ≠ 0 then (s, actReported)
  else s.spareAct (s.spareEn 4) (!s.refOk 1) false fun t => t.refLeave.inc 0x005 WR_CNT_SPARED

/-- REFERENCE_FAIL (R484): the reference fails, or REFCLK_A in use drifts. -/
def execReferenceFail (ref : Fin 2) (drift : Bool) (s : State) : Out :=
  .next (
    if !drift then s.refFailed ref.val
    else
      let s1 := s.refDrifts ref.val
      if ref.val = 0 ∧ s1.fg 0x005 WR_REF_STATUS_IN_USE = 0 ∧ s1.spareEn 4 = true then s1.refLeave else s1)

/-- A write of WR_REF_CMD (R484). -/
def State.refCmd (s : State) (v : Word) : State :=
  let r := WR_REF_CMD_SEL.get v
  if WR_REF_CMD_GO.get v = 1 ∧ r ≠ s.fg 0x005 WR_REF_STATUS_IN_USE ∧ s.refOk r = true then s.refMove r else s

def execWrRefCmd (who : Initiator) (v : Word) (s : State) : Out := .next (s.write who 0x005 WR_REF_CMD fun t => t.refCmd v)

/-! ### PLLs (R485) -/

def State.onSpare (s : State) (k : Nat) : Bool := nbit (s.fg 0x005 WR_PLL_STATUS_ON_SPARE) k
def State.spareBad (s : State) (k : Nat) : Bool := nbit (s.fg 0x005 WR_PLL_STATUS_SPARE_BAD) k
def State.setOnSpare (s : State) (k : Nat) (b : Bool) : State :=
  s.fs 0x005 WR_PLL_STATUS_ON_SPARE (setBit (s.fg 0x005 WR_PLL_STATUS_ON_SPARE) k b)
def State.setSpareBad (s : State) (k : Nat) : State :=
  s.fs 0x005 WR_PLL_STATUS_SPARE_BAD (setBit (s.fg 0x005 WR_PLL_STATUS_SPARE_BAD) k true)

/-- The spare of a PLL is locked and usable, and not in use. -/
def State.spareReady (s : State) (k : Nat) : Bool := s.spll.getD k false && !s.spareBad k && !s.onSpare k

/-- The switch to the spare. -/
def State.pllSwitch (s : State) (k : Nat) (spare : Bool) : State := (s.setOnSpare k spare).raise 0x005 EV_WR_PLL_SWITCH

/-- The islands of a PLL. -/
def pllIslands (k : Nat) : List Nat := (List.range 40).filter fun i => decide (islandPll i = some k)

/-- Both have lost lock: the islands go into reset and wait for a clock. -/
def State.pllHold (s : State) (k : Nat) : State :=
  (pllIslands k).foldl (fun (t : State) i => if t.islUp i then (t.islandDown i).setIsl i { rel := false, req := true } else t)
    (s.raise 0x005 EV_WR_PLL_BOTH_LOST)

/-- PLL_LOCK_LOSS (R485): of the named PLL or of its spare. The one in use is replaced by the other where that one can serve. -/
def execPllLockLoss (pll : Fin 13) (spare : Bool) (s : State) : Out :=
  .next (
    let k := pll.val
    if spare then
      let s1 := ({ s with spll := s.spll.put k false false } : State).setSpareBad k
      if !s.onSpare k then s1 else if s1.pll.getD k false then s1.pllSwitch k false else s1.pllHold k
    else
      let s1 := { s with pll := s.pll.put k false false }
      if s.onSpare k then s1 else if s1.spareReady k then s1.pllSwitch k true else s1.pllHold k)

/-- PLL_RELOCK (R485): islands that wait for the clock are released. -/
def execPllRelock (pll : Fin 13) (spare : Bool) (s : State) : Out :=
  .next (
    let k := pll.val
    let dead := !s.clocked ((pllIslands k).headD 0)
    let s1 := if spare then { s with spll := s.spll.put k true false } else { s with pll := s.pll.put k true false }
    if !dead then s1
    else
      (pllIslands k).foldl (fun (t : State) i => if (t.isl.getD i {}).req && !t.isoIsland i then t.releaseIsland i else t)
        (s1.setOnSpare k spare))

/-- A write of WR_PLL_CMD (R485). -/
def State.pllCmd (s : State) (v : Word) : State :=
  let k := WR_PLL_CMD_PLL.get v
  if WR_PLL_CMD_GO.get v = 1 ∧ k < 13 ∧ s.spareReady k = true then s.pllSwitch k true else s

def execWrPllCmd (who : Initiator) (v : Word) (s : State) : Out := .next (s.write who 0x005 WR_PLL_CMD fun t => t.pllCmd v)

/-- The spare action of a worn PLL or spare. -/
def State.wearPll (s : State) (k : Nat) (spare : Bool) : State × Nat :=
  if spare then (s.setSpareBad k, actReported)
  else if s.onSpare k then (s, actReported)
  else s.spareAct (s.spareEn 5) (!s.spareReady k) false fun t => (t.pllSwitch k true).inc 0x005 WR_CNT_SPARED

/-! ### Sentinels (R480, R481) -/

/-- An oscillator has fallen below its baseline by PCT per mille or more, within 10 °C of the baseline's temperature. -/
def State.oscWorn (s : State) (key count : Nat) (tj : Int) : Bool := match s.wear.tj with
  | none => false
  | some t0 =>
    let base := s.wear.base.getD key 0
    decide (base ≠ 0) && decide (tj - t0 ≤ 10) && decide (t0 - tj ≤ 10) &&
      decide (count * 1000 ≤ base * (1000 - s.fg 0x005 WR_RO_CFG_PCT))

/-- Measurements of a unit in a row that were too low, counting this one. -/
def State.wearRun (s : State) (key : Nat) (low : Bool) : State × Nat :=
  let n := if low then s.wear.runs.getD key 0 + 1 else 0
  ({ s with wear := { s.wear with runs := s.wear.runs.put key n 0 } }, n)

/-- A march run covers a memory; the weak-write sentinel pauses. -/
def State.weakRuns (s : State) (memory : Nat) : Bool :=
  s.fb 0x005 WR_WW_CFG_EN && !s.mem.powerOn.contains memory && (match s.mem.march with
    | some m => decide (m.memory ≠ memory)
    | none => true)

/-- The registers a lane's eye is shown in. -/
def eyeAt (l : Nat) (f g : Fld) : Nat × Fld :=
  if l < 5 then (0x008, f.at (16 * l)) else if l < 10 then (0x009, f.at (16 * (l - 5))) else if l < 12 then (0x024, f.at (16 * (l - 10)))
  else (clPage (l - 12), g)

def reported (s : State) : State × Nat := (s, actReported)

/-- A sentinel's measurement judged. -/
def State.sentinel (s : State) : Sentinel → State
  | .island u count tj => if s.oscWorn (4096 + u.val) count tj then s.wearEvent u.val 0 u.val reported else s
  | .engine u count tj => if s.oscWorn (8192 + u.val) count tj then s.wearEvent (4096 + u.val) 1 u.val fun t => t.wearEngine u.val else s
  | .eye l v h =>
    let pv := eyeAt l.val LN_EYE_EYE_V CL_EYE_EYE_V
    let ph := eyeAt l.val LN_EYE_EYE_H CL_EYE_EYE_H
    let s1 := (s.fs pv.1 pv.2 v.toNat).fs ph.1 ph.2 h.toNat
    let (s2, n) := s1.wearRun (8192 + l.val)
      (decide (v.toNat < s.fg 0x005 WR_EYE_CFG_V_MIN) || decide (h.toNat < s.fg 0x005 WR_EYE_CFG_H_MIN))
    if n < s.fg 0x005 WR_EYE_CFG_COUNT then s2
    else s2.wearEvent (8192 + l.val) 2 l.val fun t =>
      if l.val < 5 then t.wearLane .east l.val else if l.val < 10 then t.wearLane .west (l.val - 5) else (t, actReported)
  | .spRow b row fails passes =>
    if s.weakRuns 0 && fails && passes then
      s.wearEvent (3 * 4096 + b.val * 512 + row.val) 3 (b.val * 512 + row.val) fun t => t.wearRow b.val row.val
    else s
  | .cellRow b fails passes =>
    if s.weakRuns 1 && fails && passes then s.wearEvent (4 * 4096 + b.val) 4 b.val fun t => t.wearBank b.val else s
  | .canopy k fails passes =>
    if s.weakRuns 2 && fails && passes then (s.wearEvent (16 * 4096 + k.val) 5 (s.freeNat 12) reported).tookFree else s
  | .microcode n fails passes =>
    if s.fb 0x005 WR_WW_CFG_EN && fails && passes then (s.wearEvent (5 * 4096 + n.val) 5 (s.freeNat 12) reported).tookFree else s
  | .pll k spare margin =>
    let u := k.val + (if spare then 16 else 0)
    let (s1, n) := s.wearRun (6 * 4096 + u) (decide (margin < s.fg 0x005 WR_PLL_CFG_MIN))
    if n < 16 then s1 else s1.wearEvent (6 * 4096 + u) 6 u fun t => t.wearPll k.val spare
  | .references apart a b =>
    let s1 := s.fs 0x005 WR_REF_STATUS_DRIFT 0
    if apart ≤ s.fg 0x005 WR_PLL_CFG_REF_PPM ∨ a = b ∨ nbit (s.rd 0 GS_AON_HI).toNat 31 = false then s1
    else
      let r := if b < a then 0 else 1
      (s1.refDrifts r).wearEvent (7 * 4096 + r) 7 r fun t => t.wearRef r
  | .transistor n =>
    let p := ppPage n.val
    if 0 < s.ppCfg n.val PP_RDS_CFG_BASE ∧ s.ppCfg n.val PP_RDS_CFG_BASE * s.ppCfg n.val PP_RDS_CFG_WARN < s.fg p PP_RDS_RDS * 100 then
      s.wearEvent (8 * 4096 + n.val) 8 n.val reported
    else s

/-- SENTINEL_MEASURE (R480). -/
def execSentinelMeasure (m : Sentinel) (s : State) : Out := .next (if s.ready 0x005 then s.sentinel m else s)

/-! ### Baselines (R487) -/

def State.blState (s : State) : Nat := s.fg 0x005 WR_BL_STATUS_STATE
def State.blBusy (s : State) : Bool := decide (s.blState = 1) || decide (s.blState = 3)

/-- CAPTURE begins. -/
def State.blCapture (s : State) : State := if s.blBusy then s else s.fs 0x005 WR_BL_STATUS_STATE 1

/-- PP_RDS.CAPT of the pitches, where it is not 0xFFFF, as KIND × 4096 + pitch with its value. -/
def State.captRds (s : State) : List (Nat × Nat) :=
  ((List.range 24).map fun n => (4 * 4096 + n, s.fg (ppPage n) PP_RDS_CAPT)).filter fun e => decide (e.2 ≠ 0xFFFF)

/-- An entry of the table. -/
def blEntry (e : Nat × Nat) : List Byte := leBytes (e.1 / 4096) 1 ++ leBytes (e.1 % 4096) 1 ++ [0, 0] ++ leBytes e.2 4

/-- A copy of the table. -/
def blBytes (gen : Nat) (tj : Int) (l : List (Nat × Nat)) : List Byte :=
  let es := (l.map blEntry).flatten
  let head := leBytes 0x0A192B01 4 ++ leBytes gen 4 ++ leBytes l.length 2 ++ leBytes (uns 8 tj) 1 ++ [0]
  head ++ leBytes (crc32 (head ++ es)) 4 ++ es

/-- STORE begins, where values have been captured: the other copy is to be written with the next generation. -/
def State.blStore (s : State) : State := match s.wear.capt with
  | none => s
  | some (tj, l) =>
    if s.blBusy then s
    else
      let (c, gen) : Nat × Nat := match s.blChosen with
        | none => (0, 1)
        | some c => (1 - c, s.blGen c + 1)
      ({ s with wear := { s.wear with store := some { addr := blBase c, bytes := blBytes gen tj (l ++ s.captRds), started := !s.mramStop } } } : State).fs 0x005
        WR_BL_STATUS_STATE 3

/-- A finished store: the stored values are in use. -/
def State.blStored (s : State) (j : UpJob) : State :=
  let s1 := ({ s with wear := { s.wear with store := none } } : State).mwr j.addr j.bytes
  (s1.loadBaselines).fs 0x005 WR_BL_STATUS_STATE 4

/-- BL_DONE (R487): a capture ends with the means of the oscillators, or a store ends. No write ends while no pulse may start (R78,
R79). -/
def execBlDone (tj : Int) (means : List (Nat × Nat)) (ok : Bool) (s : State) : Out :=
  .next (
    if s.blState = 1 then
      (({ s with wear := { s.wear with capt := some (tj, means) } } : State).fs 0x005 WR_BL_STATUS_STATE 2).raise 0x005 EV_WR_BL_DONE
    else match s.wear.store with
      | none => s
      | some j =>
        if s.mramStop then s
        else if ok then (s.blStored j).raise 0x005 EV_WR_BL_DONE
        else (({ (s.cutWords j.addr j.bytes) with wear := { s.wear with store := none } } : State).fs 0x005 WR_BL_STATUS_STATE 5).raise
          0x005 EV_WR_BL_DONE)

/-! ### Registers of the page -/

def State.wearClr (s : State) : State := { s with wear := { s.wear with worn := [] } }
def State.wrClrCnt (s : State) : State := s.wr 0x005 WR_CNT 0

/-- A write of WR_CMD. -/
def State.wrCmdWrite (s : State) (v : Word) : State :=
  let s1 := if WR_CMD_CAPTURE.get v = 1 then s.blCapture else s
  let s2 := if WR_CMD_STORE.get v = 1 then s1.blStore else s1
  let s3 := if WR_CMD_WEAR_CLR.get v = 1 then s2.wearClr else s2
  if WR_CMD_CLR_CNT.get v = 1 then s3.wrClrCnt else s3

def execWrCapture (who : Initiator) (s : State) : Out := .next (s.write who 0x005 WR_CMD State.blCapture)
def execWrStore (who : Initiator) (s : State) : Out := .next (s.write who 0x005 WR_CMD State.blStore)
def execWearClr (who : Initiator) (s : State) : Out := .next (s.write who 0x005 WR_CMD State.wearClr)
def execWrClrCnt (who : Initiator) (s : State) : Out := .next (s.write who 0x005 WR_CMD State.wrClrCnt)

/-- R490: the register of a refused commit of page 0x005. -/
def State.wrCheck (s : State) : Option (Nat × Nat) :=
  let v (f : Fld) : Nat := s.fgSh 0x005 f
  if v WR_RO_CFG_PERIOD = 0 ∨ v WR_RO_CFG_PCT = 0 then some (1, WR_RO_CFG)
  else if v WR_EYE_CFG_COUNT = 0 then some (1, WR_EYE_CFG)
  else if v WR_WW_CFG_PERIOD = 0 then some (1, WR_WW_CFG)
  else if v WR_PLL_CFG_REF_PPM < 10 ∨ 1000 < v WR_PLL_CFG_REF_PPM ∨ v WR_PLL_CFG_MIN = 0 ∨ 50 < v WR_PLL_CFG_MIN then some (1, WR_PLL_CFG)
  else none

end Sys2Proof.Machine
end

