-- ==== Sys2Proof/Machine/Blocks.lean ====
section
/-! DEFINITION. Blocks starting, stopping and committing (R42, R43, R52-R57, R91): the consistency check of every kind of page, what a
commit does beside taking the shadows, PAGE_CTRL, and the rise of READY. -/
namespace Sys2Proof.Machine

/-! ### Consistency checks (R56) -/

/-- The first listed field outside its range: REASON 0x01 and its register. -/
def State.ranges (s : State) (p : Nat) (l : List (Fld × Nat × Nat)) : Option (Nat × Nat) :=
  (l.find? fun e => decide (s.fg p e.1 < e.2.1) || decide (e.2.2 < s.fg p e.1)).map fun e => (1, e.1.off)

/-- A refusal under a condition. -/
def refuseIf (c : Bool) (reason off : Nat) : Option (Nat × Nat) := if c then some (reason, off) else none

/-- Page 0x008 or 0x009 (R159, R341); `t` has the shadows applied, as in the checks below. -/
def State.rpCheck (t : State) (p : Nat) : Option (Nat × Nat) :=
  let k := p - 0x008
  let g (c : Cls) : Nat := t.grant (if k = 0 then .east else .west) c
  (t.ranges p [(LN_ERR_CFG_WINDOW, 1, 65535), (RP_PD_CFG_PERIOD, 10, 65535)]).orElse fun _ =>
  (refuseIf (decide (g .T < 44) || decide (g .B < 44) || decide (g .M < 8)) 0x81 RP_CREDIT_GRANT).orElse fun _ =>
  refuseIf (creditClasses.any fun c => decide (t.rsv k c < g c)) 3 RP_CREDIT_GRANT

/-- Page 0x00A (R159). -/
def State.rcCheck (t : State) : Option (Nat × Nat) :=
  let p := 0x00A
  (t.ranges p [(RC_TOPO_CFG_UNWRAP_HOLD, 1, 65535), (RC_TOPO_CFG_AGE, 2, 255), (RC_TOPO_CFG_PERIOD, 1, 255),
    (RC_HOLD_CFG_HOLD_MAX, 1, 65535), (RC_GRACE_GRACE, 0, 1000), (RC_ARB_B_WEIGHT, 1, 255), (RC_ARB_T_WEIGHT, 1, 255)]).orElse fun _ =>
  (refuseIf (decide (t.fg p RC_GUY_CFG_PERIOD = 0) || decide (t.fg p RC_GUY_CFG_TIMEOUT < 3 * t.fg p RC_GUY_CFG_PERIOD)) 0x80
    RC_GUY_CFG).orElse fun _ =>
  ((List.range 256).find? fun i => decide (t.pinEntry i = 3)).map fun i => (0x82, RC_PIN + 4 * (i / 16))

/-- Page 0x010 (R178, R182). -/
def State.coreCheck (t : State) : Option (Nat × Nat) :=
  let p := 0x010
  let bad (b : Nat) : Bool := decide (b / 32 % 2 = 1) || (decide (b / 64 % 4 = 1) && (decide (b % 32 < 3) || decide (29 < b % 32)))
  let rsvs := ([0, 1].map fun k => (creditClasses.map fun c => t.rsv k c).sum).sum
  let low (k : Nat) (q : LanePort) : Bool := creditClasses.any fun c => decide (t.rsv k c < t.grant q c)
  (t.ranges p [(CORE_ECC_CFG_WINDOW, 1, 65535)]).orElse fun _ =>
  (((List.range 256).find? fun e => bad ((t.rd p (CORE_DELIV + e / 4 * 4)).toNat / 256 ^ (e % 4) % 256)).map fun e =>
    (1, CORE_DELIV + e / 4 * 4)).orElse fun _ =>
  (refuseIf (decide (15360 < rsvs + ((List.range 1024).map t.qmin).sum)) 0x80 CORE_RING_RSV_E).orElse fun _ =>
  (refuseIf (low 0 .east) 3 CORE_RING_RSV_E).orElse fun _ => refuseIf (low 1 .west) 3 CORE_RING_RSV_W

/-- A queue page (R207); `s` is the state before, whose shared space the growth is held against. -/
def State.qCheck (s t : State) (p : Nat) : Option (Nat × Nat) :=
  let qs := (List.range 256).map (256 * (p - 0x011) + ·)
  let off (q : Nat) : Nat := QCFG + 4 * (q % 256)
  let rsvs := ([0, 1].map fun k => (creditClasses.map fun c => t.rsv k c).sum).sum
  let least (q : Nat) : Nat := if q < 960 then 22 else 1
  let growth : Int := (qs.map fun q => ((max (t.qmin q) (s.que q).charge : Nat) : Int) - ((max (s.qmin q) (s.que q).charge : Nat) : Int)).sum
  (if p = 0x011 then t.ranges p [(Q_GRACE_GRACE, 0, 1000)] else none).orElse fun _ =>
  ((qs.find? fun q => decide (t.qmax q < t.qmin q) || decide (16384 < t.qmax q) || decide (t.qmax q < least q)).map fun q =>
    (1, off q)).orElse fun _ =>
  (refuseIf (decide (15360 < rsvs + ((List.range 1024).map t.qmin).sum)) 3 QCFG).orElse fun _ =>
  refuseIf (decide ((s.sharedSpace : Int) < growth)) 0x80 QCFG

/-- The forwarding windows of the bridge, and the registers of each. -/
def winF (f : Fld) (w : Nat) : Fld := f.at (0x10 * w)

/-- Page 0x020 (R395). -/
def State.brCheck (t : State) : Option (Nat × Nat) :=
  let p := 0x020
  let v (f : Fld) (w : Nat) : Nat := t.fg p (winF f w)
  let ws := List.range 32
  let first (r : Nat) (o : Nat) (bad : Nat → Bool) : Option (Nat × Nat) := (ws.find? bad).map fun w => (r, o + 0x10 * w)
  (t.ranges p [(BR_TLIMIT_LIMIT, 10, 1000000), (BR_SLOT_CFG_LIFE, 10, 65535)]).orElse fun _ =>
  (first 1 BR_WIN_BASE fun w => decide (v BR_WIN_BASE_SIZE w < 20) || decide (40 < v BR_WIN_BASE_SIZE w) ||
    decide (v BR_WIN_BASE_BASE w % 2 ^ (v BR_WIN_BASE_SIZE w - 20) ≠ 0)).orElse fun _ =>
  (first 1 BR_WIN_TGT fun w => decide (v BR_WIN_TGT_TBASE w % 2 ^ (v BR_WIN_BASE_SIZE w - 20) ≠ 0)).orElse fun _ =>
  (first 1 BR_WIN_CFG fun w => decide (v BR_WIN_CFG_QUOTA w = 0) || decide (256 < v BR_WIN_CFG_QUOTA w)).orElse fun _ =>
  first 0x80 BR_WIN_CFG fun w => decide (v BR_WIN_CFG_POSTED w = 1) && decide (33 < v BR_WIN_BASE_SIZE w)

/-- The queues that TW_QMIR names, with their registers. -/
def State.qmir (t : State) : List (Nat × Nat) :=
  (List.range 8).flatMap fun k =>
    (if t.fb 0x024 (TW_QMIR_EN_LO.at (4 * k)) then [(t.fg 0x024 (TW_QMIR_QUEUE_LO.at (4 * k)), TW_QMIR + 4 * k)] else []) ++
    (if t.fb 0x024 (TW_QMIR_EN_HI.at (4 * k)) then [(t.fg 0x024 (TW_QMIR_QUEUE_HI.at (4 * k)), TW_QMIR + 4 * k)] else [])

/-- The first queue named before in the list. -/
def repeated (seen : List Nat) : List (Nat × Nat) → Option Nat
  | [] => none
  | (q, off) :: l => if seen.contains q then some off else repeated (q :: seen) l

/-- Page 0x024 (R420). -/
def State.twCheck (t : State) : Option (Nat × Nat) :=
  let p := 0x024
  (t.ranges p [(LN_ERR_CFG_WINDOW, 1, 65535), (TW_CFG_CLAIM, 8, 255), (TW_CFG_START_WAIT, 1, 65535), (TW_SWAP_INTERVAL, 0, 43200),
    (TW_GUY_PERIOD, 1, 255), (TW_LAG_CFG_MAX, 1, 4096)]).orElse fun _ =>
  (refuseIf (decide (t.fg p TW_GUY_TIMEOUT < 3 * t.fg p TW_GUY_PERIOD)) 2 TW_GUY).orElse fun _ =>
  (((t.qmir.find? fun e => decide (e.1 < 120)).map (·.2)).orElse fun _ => repeated [] t.qmir).map fun off => (0x80, off)

/-- An engine page in ASYNC mode (R287). -/
def State.asCheck (t : State) (p : Nat) : Option (Nat × Nat) :=
  (t.ranges p [(AS_CFG_DATA, 5, 9), (AS_CFG_BATCH, 1, 250), (AS_CFG_GAP, 1, 255), (AS_CFG_PARITY, 0, 2), (AS_CFG_STOP, 0, 2),
    (AS_CFG_FRAMING, 0, 2), (AS_BIT_BIT_TIME, 1600, 53333334), (AS_DE_DE_LEAD, 16, 65535)]).orElse fun _ =>
  refuseIf (decide (t.fg p AS_CFG_FRAMING = 2) && decide (t.fg p AS_CFG_DATA ≠ 9)) 2 AS_CFG

/-- An engine page in SYNC mode (R287). -/
def State.syCheck (t : State) (p : Nat) : Option (Nat × Nat) :=
  let n := enCluster p
  let c := t.servedBy n (enPos p)
  let pair := decide (t.fg p SY_CFG_PAIR = 1) || decide (t.fg p SY_CFG_PAIR = 2)
  let len := t.syLen p + nsU * (t.fg p SY_SEL_IDLE : Int)
  let next := match c with
    | some c => pair && decide (c % 2 = 0) && decide (t.enMode (t.enOf n (c + 1)) ≠ 0)
    | none => false
  (t.ranges p [(SY_CFG_PAIR, 0, 2), (SY_CFG_TRIG, 0, 2), (SY_CFG_WIDTH, 1, 24), (SY_CFG_CLK_PERIOD, 100, 65535),
    (SY_PERIOD_PERIOD, 1000, 0xFFFFFFFF)]).orElse fun _ =>
  (refuseIf next 3 SY_CFG).orElse fun _ =>
  (refuseIf (decide (t.fg p SY_CFG_TRIG = 1) && decide (nsU * t.epochNs ≤ nsU * (t.fg p SY_OFFSET_OFFSET : Int) + len)) 3 SY_OFFSET).orElse fun _ =>
  (refuseIf (pair && decide (c.any (fun c => c % 2 = 1))) 0x81 SY_CFG).orElse fun _ =>
  refuseIf (decide (t.fg p SY_CFG_TRIG = 2) && decide (nsU * (t.fg p SY_PERIOD_PERIOD : Int) < len)) 0x82 SY_PERIOD

/-- An engine page in DISC mode (R287). -/
def State.diCheck (t : State) (p : Nat) : Option (Nat × Nat) :=
  let h := t.fg p DI_PWM_HIGH_HIGH
  let per := t.fg p DI_PWM_PERIOD_PERIOD
  (t.ranges p [(DI_CFG_OUTMODE, 0, 2), (DI_PWM_PERIOD_PERIOD, 100, 0xFFFFFFFF)]).orElse fun _ =>
  (refuseIf (decide (per ≤ t.fg p DI_PWM_PHASE_PHASE)) 2 DI_PWM_PHASE).orElse fun _ =>
  refuseIf ((decide (1 ≤ h) && decide (h ≤ 15)) || (decide (h < per) && decide (per ≤ h + 15))) 0x80 DI_PWM_HIGH

/-- Slot `k` of a PBUS engine as a message's first bytes, where it is valid. -/
def State.slotHead (t : State) (p k : Nat) : Option (List Byte) :=
  if t.fb p (PB_SLOT_W1_VALID.at (0x48 * k)) then some (leBytes (t.rd p (PB_SLOT_W0 + 0x48 * k)).toNat 4) else none

/-- An engine page in PBUS mode (R313). -/
def State.pbCheck (t : State) (p : Nat) : Option (Nat × Nat) :=
  let n := enCluster p
  let c := t.servedBy n (enPos p)
  let v (f : Fld) : Nat := t.fg p f
  let slotBad (k : Nat) : Bool := (t.slotHead p k).any fun b => t.pbInvalid p b
  let safe (c : Nat) : Bool := nbit (t.fg (clPage n) CL_SAFE_SAFE_EN) c &&
    (nbit (t.fg (clPage n) CL_SAFE_SAFE_LEVEL) c == t.fb p PB_CFG_INV)
  (t.ranges p [(PB_NBT_NTQ, 1, 1023), (PB_NBT_NSEG1, 1, 255), (PB_NBT_NSEG2, 1, 127), (PB_NBT_NSJW, 1, 127), (PB_DBT_DTQ, 1, 255),
    (PB_DBT_DSEG1, 1, 31), (PB_DBT_DSEG2, 1, 15), (PB_DBT_DSJW, 1, 15)]).orElse fun _ =>
  (refuseIf (decide (v PB_NBT_NTQ * (1 + v PB_NBT_NSEG1 + v PB_NBT_NSEG2) < 1000)) 1 PB_NBT).orElse fun _ =>
  (refuseIf (decide (v PB_DBT_DTQ * (1 + v PB_DBT_DSEG1 + v PB_DBT_DSEG2) < 125)) 1 PB_DBT).orElse fun _ =>
  (refuseIf (decide (v PB_CFG_BRS_EN = 1) && decide (v PB_CFG_FD_EN = 0)) 2 PB_CFG).orElse fun _ =>
  (refuseIf (decide (v PB_NBT_NSEG2 < v PB_NBT_NSJW)) 2 PB_NBT).orElse fun _ =>
  (refuseIf (decide (v PB_DBT_DSEG2 < v PB_DBT_DSJW)) 2 PB_DBT).orElse fun _ =>
  (((List.range 8).find? slotBad).map fun k => (2, PB_SLOT_W0 + 0x48 * k)).orElse fun _ =>
  (refuseIf (decide (v PB_CFG_TT_EN = 1) && !(c.any fun c => (t.matrixOf n c).isSome)) 3 PB_CFG).orElse fun _ =>
  refuseIf (c.any safe) 3 PB_CFG

/-- An engine page (R287, R313). -/
def State.enCheck (t : State) (p : Nat) : Option (Nat × Nat) :=
  let q := t.fg p EN_RXDST_QUEUE
  let m := t.enMode p
  (refuseIf (t.fb p EN_RXDST_RX_EN && (decide (q < 12) || decide (959 < q))) 1 EN_RXDST).orElse fun _ =>
  (t.ranges p [(EN_REC_BATCH, 1, 62)]).orElse fun _ =>
  if m = 1 then t.asCheck p else if m = 2 then t.pbCheck p else if m = 3 then t.syCheck p else if m = 4 then t.diCheck p else none

/-- A schedule matrix page (R314). -/
def State.smCheck (t : State) (p : Nat) : Option (Nat × Nat) :=
  let n := t.fg p SM_OWNER_PITCH
  let c := t.fg p SM_OWNER_CHAN
  let cols := t.fg p SM_CFG_COLS
  let col (j : Nat) : Nat := t.fg p (SM_COL_START.at (4 * j))
  let cyc := t.fg p SM_CYCLE_CYCLE
  let rows := List.range (t.fg p SM_CFG_ROWS)
  let other (m : Nat) : Bool := decide (m ≠ p) && t.fb m SM_OWNER_VALID && decide (t.fg m SM_OWNER_PITCH = n) && decide (t.fg m SM_OWNER_CHAN = c)
  let role := t.fg p SM_CFG_ROLE
  let cell (j r : Nat) : Nat := SM_CELL + 0x20 * j + r / 2 * 4
  let isRef (j r : Nat) : Bool := decide ((t.ttCell p j r).1 = 3)
  let stray : Option (Nat × Nat) := ((List.range 1008).find? fun i => isRef (1 + i / 16) (i % 16)).map fun i => (0x80, cell (1 + i / 16) (i % 16))
  let missing := (rows.find? fun r => (decide (role = 1) || decide (role = 2)) && !isRef 0 r).map fun r => (0x80, cell 0 r)
  (t.ranges p [(SM_OWNER_PITCH, 0, 23), (SM_CFG_ROLE, 0, 2), (SM_CFG_COLS, 1, 64), (SM_CFG_ROWS, 1, 16),
    (SM_CYCLE_CYCLE, 10000, 1000000000)]).orElse fun _ =>
  (refuseIf (decide (cyc ≤ t.fg p SM_PHASE_PHASE)) 1 SM_PHASE).orElse fun _ =>
  (refuseIf (decide (col 0 ≠ 0)) 2 SM_COL).orElse fun _ =>
  (((List.range (cols - 1)).find? fun j => decide (col (j + 1) ≤ col j)).map fun j => (2, SM_COL + 4 * (j + 1))).orElse fun _ =>
  (refuseIf (decide (cyc ≤ col (cols - 1))) 2 (SM_COL + 4 * (cols - 1))).orElse fun _ =>
  (refuseIf (t.fb p SM_OWNER_VALID && (((List.range 64).map (0x240 + ·)).any other || decide (t.enMode (t.enOf n c) ≠ 2))) 3 SM_OWNER).orElse fun _ =>
  stray.orElse fun _ => missing

/-- A routing page (R315). -/
def State.rtCheck (t : State) (p : Nat) : Option (Nat × Nat) :=
  let v (f : Fld) (j : Nat) : Nat := t.fg p (f.at (0x20 * j))
  let kind (j : Nat) : Nat := v RT_DEST_KIND j
  let q (j : Nat) : Nat := v RT_DEST_QUEUE j
  let bad (j : Nat) : Option Nat :=
    if v RT_MATCH_IDE j = 0 ∧ 0x7FF < v RT_MATCH_ID j then some RT_MATCH
    else if 23 < v RT_SRC_PITCH j then some RT_SRC
    else if 23 < v RT_DEST_PITCH j ∨ (kind j = 1 ∧ (q j < 12 ∨ 959 < q j)) ∨ (kind j = 2 ∧ 63 < q j) then some RT_DEST
    else if v RT_XLATE_EN j = 1 ∧ v RT_XLATE_IDE j = 0 ∧ 0x7FF < v RT_XLATE_NEW_ID j then some RT_XLATE
    else none
  (((List.range 64).filter fun j => v RT_MATCH_VALID j = 1).findSome? fun j => (bad j).map fun off => (1, off + 0x20 * j))

/-- The consistency check of a page (R56): REASON and the offset of the first register at fault; none where the commit passes. -/
def State.blockCheck (s : State) (p : Nat) : Option (Nat × Nat) :=
  let t := s.applyShadows p
  match kindOf p with
  | some .rp => t.rpCheck p
  | some .rc => t.rcCheck
  | some .core => t.coreCheck
  | some .q => s.qCheck t p
  | some .tm => s.tmCheck
  | some .sc => s.scCheck
  | some .br => t.brCheck
  | some .tw => t.twCheck
  | some .fd => s.fdCheck
  | some .pp => s.ppCheck p
  | some .cl => refuseIf (decide (13 < t.fg p CL_SAFE_LLT)) 0x80 CL_SAFE
  | some .ec => t.ranges p [(EC_MIG_CFG_TIMEOUT, 1, 60000)]
  | some .en => t.enCheck p
  | some .rt => t.rtCheck p
  | some .sm => t.smCheck p
  | some .mem => s.memCheck
  | some .ft => s.ftCheck
  | some .wr => s.wrCheck
  | _ => none

/-! ### What a commit does beside taking the shadows -/

/-- A raised GRANT raises LIMIT at once; a lowered one withholds freed cells (R137). -/
def State.regrant (p : LanePort) (b s : State) (c : Cls) : State :=
  let new := s.grant p c
  let old := b.grant p c
  let x := s.cr p c
  let back := min x.withheld (new - old)
  s.setCr p c { x with withheld := x.withheld - back + (old - new), lim := (x.lim + (new - old - back)) % 65536 }

/-- SALT or a pin entry changed: fences on both ring ports (R159). -/
def State.rcCommitted (s b : State) : State :=
  if s.fg 0x00A RC_PIN_CFG_SALT ≠ b.fg 0x00A RC_PIN_CFG_SALT ∨ ((List.range 16).any fun w => s.rd 0x00A (RC_PIN + 4 * w) ≠ b.rd 0x00A (RC_PIN + 4 * w)) then
    s.fences [.east, .west] 3
  else s

/-- An engine page's commit: PBUS makes the test of R293, leaves BUS_OFF with AUTO_RECOVER (R296) and follows its matrix, a DISC engine its output mode (R278). -/
def State.enCommitted (s b : State) (p : Nat) : State :=
  let n := enCluster p
  match s.servedBy n (enPos p) with
  | none => s
  | some c =>
    let m := s.enMode p
    let s := if s.enRuns p ∧ m ≠ 4 then s.reIdle b n c else s
    if m = 2 then
      let s1 := if s.clState n = 5 then s.pbTurn n c else s
      let s2 := if s1.pbState p = 4 ∧ s1.fb p PB_CFG_AUTO_RECOVER then
          (s1.fs (s1.enOf n c) PB_ERR_STATE 5).setChan n c { s1.chan n c with rec11 := 0 } else s1
      if s.fb p PB_CFG_TT_EN == b.fb p PB_CFG_TT_EN then s2 else s2.ttInit n c
    else if m = 4 then
      let f (x : Fld) : Bool := decide (s.fg p x ≠ b.fg p x)
      let mode := s.fg p DI_CFG_OUTMODE
      let s := if s.fb p DI_CFG_INV == b.fb p DI_CFG_INV then s else s.diTurn n c
      let s1 := if f DI_CFG_OUTMODE then s.setChan n c { s.chan n c with due := [], pwmNext := none }
        else if f DI_PWM_PHASE_PHASE then s.setChan n c { s.chan n c with pwmNext := none } else s
      if s.enRuns p ∧ mode = 0 ∧ !s.fb p DI_CFG_OUTSRC ∧ (f DI_CFG_OUTMODE || f DI_CFG_OUTSRC) = true then
        s1.place n c (s1.earliest n) (s1.fb p DI_OUT_LEVEL) (s1.fb p DI_OUT_EN)
      else s1
    else s

/-- A matrix page's commit: the schedule of its old and its new owner starts again where the owner, its validity or the
role changed, or a master's CYCLE or PHASE. -/
def State.smCommitted (s b : State) (p : Nat) : State :=
  let own (t : State) : Nat × Nat := (t.fg p SM_OWNER_PITCH, t.fg p SM_OWNER_CHAN)
  let f (x : Fld) : Bool := decide (s.fg p x ≠ b.fg p x)
  let per := f SM_CYCLE_CYCLE || f SM_PHASE_PHASE
  if s.rd p SM_OWNER = b.rd p SM_OWNER ∧ !f SM_CFG_ROLE ∧ !(per && decide (s.fg p SM_CFG_ROLE = 1)) then s
  else
    let s1 := if b.fb p SM_OWNER_VALID ∧ own b ≠ own s then s.ttInit (own b).1 (own b).2 else s
    if s.fb p SM_OWNER_VALID || b.fb p SM_OWNER_VALID then s1.ttInit (own s).1 (own s).2 else s1

/-- A window whose shadow differs: its commit affects it (R367). -/
def State.winAffected (s : State) (w : Nat) : Bool :=
  [(BR_WIN_BASE, 0xBF0FFFFF#32), (BR_WIN_TGT, 0x3F0FFFFF#32), (BR_WIN_CFG, 0xC1FF0000#32)].any fun e =>
    decide ((s.rdSh 0x020 (e.1 + 0x10 * w) ^^^ s.rd 0x020 (e.1 + 0x10 * w)) &&& e.2 ≠ 0)

/-- The first posted write after a window's commit carries SYNC 1 (R380); `b` is the state before. -/
def State.brCommitted (s b : State) : State := { s with br := { s.br with synced := s.br.synced.filter fun w => !b.winAffected w } }

/-- The committed image of a card link is sent in two HUB_HELLO blocks and then checked (R248, R250). -/
def State.clCommitted (s : State) (n : Nat) : State :=
  s.setCard n { s.card n with hello := 2, safeAge := some 0, statSeen := false }

/-- What a commit does beside taking the shadows; `b` is the state before. -/
def State.committed (s b : State) (p : Nat) : State :=
  match kindOf p with
  | some .rp => creditClasses.foldl (State.regrant (if p = 0x008 then .east else .west) b) s
  | some .rc => s.rcCommitted b
  | some .tm => s.tmCommitted b
  | some .sc => s.scanCommitted
  | some .br => s.brCommitted b
  | some .fd => s.fdCommitted
  | some .pp => s.ppCommitted (p - 0x030)
  | some .cl => s.clCommitted (p - 0x050)
  | some .en => s.enCommitted b p
  | some .sm => s.smCommitted b p
  | some .ft => s.ftCommitted b
  | _ => s

/-! ### The commit point (R48, R52, R54) -/

/-- Before a commit's shadows are taken: a record of ASYNC closes, to where it was to go, when the commit changes EN_RXDST (R265). -/
def State.beforeCommit (s : State) (p : Nat) : State :=
  if kindOf p = some .en ∧ s.enMode p = 1 ∧ (s.applyShadows p).rd p EN_RXDST ≠ s.rd p EN_RXDST then
    match s.servedBy (enCluster p) (enPos p) with
    | some c => s.recClose (enCluster p) c 0
    | none => s
  else s

/-- The check and its result: the shadows applied, or the commit refused; a refusal on a standby's mirrored page asks for a resync (R52,
R401). -/
def State.commitEnd (s : State) (p : Nat) : State :=
  match s.blockCheck p with
  | some (reason, off) =>
    let t := (s.endCommit p 3 reason off).raise p EV_COMMIT_REFUSED
    if mirrored p PAGE_CTRL && decide (s.role = roleStandby) then (t.raise 0x024 EV_TW_RELEASE_REFUSED).askResync else t
  | none => ((((s.beforeCommit p).applyShadows p).endCommit p 2 0 0).committed (s.beforeCommit p) p).raise p EV_COMMIT_DONE

/-- A window is quiescent (R367). A fence that waits for the commit point does not run yet. -/
def State.quiescent (s : State) (w : Nat) : Bool :=
  !(s.br.tags.any fun e => (e.2.map fun x => decide (x.fwd.win = w)).getD false) &&
  (!s.fb 0x020 (winF BR_WIN_FENCE_BUSY w) || s.br.waits.any fun f => f.late && decide (f.win = w))

/-- No frame is in progress at a core port. -/
def State.portIdle (s : State) (p : Nat) : Bool := !(s.ing p).busy && (s.eg p).isNone

/-- The end of a matrix cycle of the owner (R314): the last basic cycle is over, or the first column of the next has not begun. -/
def State.smEnd (s : State) (m : Nat) : Bool := match s.ttOwner m with
  | none => true
  | some (n, c) =>
    let x := s.chan n c
    let row := s.fg (s.enOf n c) PB_TT_STAT_ROW
    match x.cycle with
    | none => true
    | some z => (decide (s.fg m SM_CFG_ROWS ≤ row + 1) && decide (z + s.ttCycle m ≤ s.now)) || (decide (row = 0) && decide (x.col = some 0))

/-- The state allows the commit point now (R48); where the point is an instant that the state does not show, the command brings it. -/
def State.pointNow (s : State) (p : Nat) : Bool :=
  let run := s.running p
  match kindOf p with
  | some .br => (List.range 32).all fun w => !s.winAffected w || s.quiescent w
  | some .rt => s.looking.isEmpty
  | some .sm => !run || s.smEnd p
  | some .pp => !run || (s.pwr (p - 0x030)).timers.isEmpty
  | some .fd => !run || !s.supv.fd.dead
  | some .rp => !run || s.portIdle (p - 0x008)
  | some .rc => !run || (s.portIdle 0 && s.portIdle 1)
  | some .hp => !run || s.host.all (·.done)
  | some .en => !run || (match s.servedBy (enCluster p) (enPos p) with
      | some c => s.atBoundary (enCluster p) c
      | none => true)
  | _ => true

/-- RUNNING falls: a commit that pends has its commit point in this cycle (R54), but that of the bridge, whose point does not follow
RUNNING (R367). -/
def State.stopped (s : State) (p : Nat) : State :=
  let s1 := s.setState p PAGE_STATE_RUNNING false
  let s2 := { s1 with stopping := s1.stopping.filter (· != p) }
  if s2.commitPending p && (decide (kindOf p ≠ some .br) || s2.pointNow p) then s2.commitEnd p else s2

/-- RUNNING of a matrix page (R314): the matrix runs while its owner runs with TT_EN 1. -/
def State.smSet (s : State) (m : Nat) : State :=
  let on (t : State) : Bool := (t.ttOwner m).isSome
  if on s = s.running m then s
  else if on s then s.setState m PAGE_STATE_RUNNING true
  else
    let t := s.stopped m
    if on t then t.setState m PAGE_STATE_RUNNING true else t
def State.smFollow (s : State) : State := ((List.range 64).map (0x240 + ·)).foldl State.smSet s

/-- The matrix pages follow what has changed at page `p`. -/
def State.smAfter (s : State) (p : Nat) : State := if kindOf p = some .en ∨ kindOf p = some .sm then s.smFollow else s

/-- The commit point of a page, where a commit pends. -/
def State.commitPoint (s : State) (p : Nat) : State :=
  if s.commitPending p && s.ready p && s.pointNow p then (s.commitEnd p).smAfter p else s

/-- COMMIT_POINT (R52). -/
def execCommitPoint (page : Nat) (s : State) : Out := .next (s.commitPoint page)

/-! ### Start (R42) -/

/-- PAGE_CTRL.ENABLE of a page has an effect: not of the queue, routing and matrix pages (chapters 7 and 10). -/
def enableActs (p : Nat) : Bool := match kindOf p with
  | some .q => false | some .rt => false | some .sm => false | none => false | _ => true

/-- The queue pages whose RUNNING follows page 0x010. -/
def qPages : List Nat := [0x011, 0x012, 0x013, 0x014]
def State.queuesRun (s : State) (v : Bool) : State :=
  qPages.foldl (fun (t : State) p => if !v then t.stopped p else if t.ready p then t.setState p PAGE_STATE_RUNNING true else t) s

/-- An engine starts: its idle outputs, INTEGRATING in PBUS mode with its tests, and its schedule (R262, R293, R296). -/
def State.enStart (s : State) (p : Nat) : State :=
  let n := enCluster p
  match s.servedBy n (enPos p) with
  | none => s
  | some c =>
    let s1 := s.startOut n c
    if s.enMode p = 2 then
      let s2 := s1.fs p PB_ERR_STATE 1
      ((if s2.clState n = 5 then s2.pbTurn n c else s2).ttInit n c).smFollow
    else if s.enMode p = 4 then s1.diStart n c
    else s1

/-- A block starts and RUNNING rises. -/
def State.blockStart (s0 : State) (p : Nat) : State :=
  let s := s0.setState p PAGE_STATE_RUNNING true
  match kindOf p with
  | some .core => s.leaveRidgeOnly.queuesRun true
  | some .sc => s.scanStart
  | some .cl => s.clDetect (p - 0x050)
  | some .en => s.enStart p
  | some .pp => s.ppStart (p - 0x030)
  | _ => s

/-- The block starts where it is asked to run and can. -/
def State.mayStart (s : State) (p : Nat) : State :=
  if enableActs p && s.enabled p && s.ready p && !s.running p then s.blockStart p else s

/-! ### Stop (R42) -/


/-- An engine at its stop point: the record it assembles is closed and sent, its outputs are left as R262 states. -/
def State.enStopped (s : State) (p : Nat) : State :=
  let n := enCluster p
  match s.servedBy n (enPos p) with
  | none => s.stopped p
  | some c =>
    let s1 := (s.recClose n c 0).stopOut n c
    let s2 := if s.enMode p = 2 then (s1.fs p PB_ERR_STATE 0).setChan n c { s1.chan n c with tx := none, pb := {} } else s1
    (s2.stopped p).smFollow

/-- The stop point of a block that is asked to stop (R42), but the scan unit's, which is an epoch boundary (R344): the core when every
port is between frames (R199), an engine at its boundary (R262), a card link at a superframe boundary (R249). -/
def State.stopPoint (s : State) (p : Nat) : State :=
  if !(s.stopping.contains p && s.running p) then s
  else match kindOf p with
    | some .core => if (List.range 30).all s.portIdle then (s.stopped p).queuesRun false else s
    | some .cl => (s.clOff (p - 0x050)).stopped p
    | some .en => if s.pointNow p then s.enStopped p else s
    | some .pp => (s.ppStop (p - 0x030)).stopped p
    | some .sc => s
    | _ => s.stopped p

/-- A block that stops in the cycle of the write: a card link without superframes (R249), and a power channel (R425). -/
def State.stopsNow (s : State) (p : Nat) : Bool := match kindOf p with
  | some .cl => decide (s.clState (p - 0x050) < 4)
  | some .pp => true
  | _ => false

/-! ### PAGE_CTRL (R43) -/

/-- ENABLE and READ_ACTIVE written. -/
def State.enableWrite (s : State) (p : Nat) (en ra : Bool) : State :=
  if !enableActs p then (s.fs p PAGE_CTRL_ENABLE (bit en)).fs p PAGE_CTRL_READ_ACTIVE (bit ra)
  else
    let s1 := s.setEnable p en ra
    if s1.stopsNow p then (s1.stopPoint p).mayStart p else s1.mayStart p

/-- COMMIT: pending, and at once at its commit point where RUNNING is 0 or no affected window keeps the bridge waiting (R52, R54, R367). -/
def State.commitNow (s : State) (p : Nat) : State :=
  let t := s.commitWrite p
  if s.commitPending p then s
  else if !t.running p || decide (p = 0x020) then t.commitPoint p else t

/-- A write of PAGE_CTRL that reaches the block (R43); what took effect on a mirrored page goes into the mirror stream (R401). -/
def State.pageCtrl (s : State) (p : Nat) (v : Word) : State :=
  let en := PAGE_CTRL_ENABLE.get v = 1
  let ra := PAGE_CTRL_READ_ACTIVE.get v = 1
  if PAGE_CTRL_RESET_BLOCK.get v = 1 then (s.pageReset p).smAfter p
  else if PAGE_CTRL_ABORT_COMMIT.get v = 1 then (((s.mirrorCfg 2 p PAGE_CTRL v).abortWrite p).enableWrite p en ra)
  else if PAGE_CTRL_COMMIT.get v = 1 then
    (((s.mirrorCfg (if s.commitPending p then 0 else 1) p PAGE_CTRL v).commitNow p).enableWrite p en ra)
  else (s.mirrorCfg 0 p PAGE_CTRL v).enableWrite p en ra

/-- A write to a supervisor page goes over the control link (R12); the preload path writes directly. -/
def State.viaSup (s : State) (who : Initiator) (p off : Nat) (v : Word) (op : State → State) : State :=
  if supPage p && decide (who ≠ .preload) then s.supSend p off v else op s

/-- A write of PAGE_CTRL by an initiator, to the page that its number reaches (R284). -/
def State.pageCtrlWrite (s : State) (who : Initiator) (p : Nat) (v : Word) : State :=
  s.write who (s.enAlias p) PAGE_CTRL fun t => t.viaSup who (s.enAlias p) PAGE_CTRL v fun t => t.pageCtrl (s.enAlias p) v

/-- The word of a PAGE_CTRL write. -/
def ctrlWord (en ra : Bool) (more : Nat) : Word := BitVec.ofNat 32 (bit en + 256 * bit ra + more)

/-- PAGE_ENABLE_WRITE (R42). -/
def execPageEnableWrite (who : Initiator) (page : Nat) (en readActive : Bool) (s : State) : Out :=
  .next (s.pageCtrlWrite who page (ctrlWord en readActive 0))

/-- COMMIT (R52). -/
def execCommit (who : Initiator) (page : Nat) (en readActive : Bool) (s : State) : Out :=
  .next (s.pageCtrlWrite who page (ctrlWord en readActive 2))

/-- ABORT_COMMIT (R55), alone or with COMMIT 1 in the same write. -/
def execAbortCommit (who : Initiator) (page : Nat) (en readActive commit : Bool) (s : State) : Out :=
  .next (s.pageCtrlWrite who page (ctrlWord en readActive (4 + 2 * bit commit)))

/-- RESET_BLOCK (R44): the other bits of the write are ignored. -/
def execResetBlock (who : Initiator) (page : Nat) (others : Word) (s : State) : Out :=
  .next (s.pageCtrlWrite who page (others ||| 8))

/-- EVT_FORCE (R47). -/
def execEvtForce (who : Initiator) (page : Nat) (v : Word) (s : State) : Out :=
  .next (s.write who (s.enAlias page) EVT_FORCE fun t =>
    t.viaSup who (s.enAlias page) EVT_FORCE v fun t => t.force (s.enAlias page) v)

/-! ### READY (R91) -/

/-- READY rises; a queue page's RUNNING follows page 0x010, and a latched ENABLE starts the block. -/
def State.readyRise (s : State) (p : Nat) : State :=
  if s.ready p || !s.readyOk p then s
  else
    let t := s.setState p PAGE_STATE_READY true
    if kindOf p = some .q then (if t.running 0x010 then t.setState p PAGE_STATE_RUNNING true else t)
    else if kindOf p = some .sm then t.smSet p else t.mayStart p

/-- BLOCK_READY_RISE (R91). -/
def execBlockReadyRise (page : Nat) (s : State) : Out := .next (s.readyRise page)

end Sys2Proof.Machine
end

