-- ==== Sys2Proof/Machine/Routing.lean ====
section
/-! DEFINITION. Messages received and the routing table (R303, R308-R312), and the frames clusters take from their queues (R260,
R310). -/
namespace Sys2Proof.Machine

/-- An item with TIME, TAG or its identifier set. -/
def itemTime (item : List Byte) (t : Nat) : List Byte := item.take 8 ++ leBytes t 4 ++ item.drop 12
def itemTagged (item : List Byte) (tag : Nat) : List Byte := item.take 5 ++ [BitVec.ofNat 8 tag] ++ item.drop 6
def itemId (item : List Byte) (ide : Bool) (id : Nat) : List Byte :=
  leBytes (itemIdw item / 2 ^ 30 * 2 ^ 30 + bit ide * 2 ^ 29 + id % 2 ^ 29) 4 ++ item.drop 4

/-- A message added to the source channel's PB_RX record (R301). -/
def State.pbRecord (s : State) (l : Look) (item : List Byte) : State :=
  s.recBatch l.pitch l.chan 0x10 l.sof item

/-- An unmatched message (R303). -/
def State.pbUnmatched (s : State) (l : Look) : State :=
  let g := s.enOf l.pitch l.chan
  if decide (s.enMode g = 2) && s.fb g PB_CFG_UNMATCHED && s.fb g EN_RXDST_RX_EN then s.pbRecord l l.item
  else s.inc 0x200 RT_CNT_MISS_COUNT

/-- PBUS_MESSAGE_RECEIVED (R303): the oldest valid message of another node is counted, taken as a reference where it is one, and queued
for its lookup, or unmatched at once where none is made (R308, R312). -/
def execPbusMessageReceived (pitch : Pitch) (chan : Channel) (s : State) : Out :=
  .next (
    let n := pitch.val
    let c := chan.val
    let g := s.enOf n c
    let x := s.chan n c
    match x.got with
    | [] => s
    | (sof, item) :: rest =>
      let s1 := (s.setChan n c { x with got := rest }).inc g PB_CNT_RX_COUNT
      let s2 := match s.ttOn n c with
        | some m => if s.ttIsRef m (itemIdw item) (leAt item 4 1 % 16) then s1.ttReference n c m (itemIdw item) (item.drop 12) sof else s1
        | none => s1
      let l : Look := { pitch := n, chan := c, item := item, sof := sof }
      if s2.ready 0x200 && s2.fb 0x200 RT_CTRL_EN then { s2 with lookWait := s2.lookWait ++ [l] } else s2.pbUnmatched l)

/-- ROUTE_LOOKUP_BEGIN (R311): the oldest waiting message. -/
def execRouteLookupBegin (s : State) : Out :=
  .next (
    match s.lookWait with
    | [] => s
    | l :: rest => { s with lookWait := rest, looking := s.looking ++ [l] })

/-! ### Matches (R308, R309) -/

/-- Page and offset distance of entry `e`. -/
def rtPage (e : Nat) : Nat := 0x200 + e % 4096 / 64
def rtOff (e : Nat) : Nat := 0x20 * (e % 64)

/-- Entry `e` matches a message (R308). -/
def State.rtMatches (s : State) (l : Look) (e : Nat) : Bool :=
  let p := rtPage e
  let d := rtOff e
  let idw := itemIdw l.item
  let w := if nbit idw 29 then 2 ^ 29 else 2 ^ 11
  s.ready p && s.fb p (RT_MATCH_VALID.at d) &&
  (s.fb p (RT_SRC_ANY.at d) || (decide (s.fg p (RT_SRC_PITCH.at d) = l.pitch) && decide (s.fg p (RT_SRC_CHAN.at d) = l.chan))) &&
  decide (s.fb p (RT_MATCH_IDE.at d) = nbit idw 29) &&
  decide (((idw % 2 ^ 29 ^^^ s.fg p (RT_MATCH_ID.at d)) &&& s.fg p (RT_MASK_MASK.at d)) % w = 0)

/-- The matches of a lookup among entries `es`, at most `k`: the first, and each after one with CONT 1. -/
def State.rtFind (s : State) (l : Look) : List Nat → Nat → List Nat
  | [], _ => []
  | _, 0 => []
  | e :: es, k + 1 =>
    if s.rtMatches l e then
      (if s.fb (rtPage e) (RT_DEST_CONT.at (rtOff e)) then e :: s.rtFind l es k else [e])
    else s.rtFind l es (k + 1)

/-- The message a match sends or records: with the new identifier where RT_XLATE says so (R309). -/
def State.rtItem (s : State) (l : Look) (e : Nat) : List Byte :=
  let p := rtPage e
  let d := rtOff e
  if s.fb p (RT_XLATE_EN.at d) then itemId l.item (s.fb p (RT_XLATE_IDE.at d)) (s.fg p (RT_XLATE_NEW_ID.at d)) else l.item

/-- A frame that the routing unit puts at the source cluster's port. -/
def State.rtSend (s : State) (l : Look) (f : Frame) : State :=
  s.stage (portCluster l.pitch) { frame := f, route := .desc (descRing f), routed := true }

/-- A match acts by its KIND (R309, R310). The write of a mailbox item reaches its register only while the bridge and the mailboxes are
READY (R38). -/
def State.rtAct (l : Look) (s0 : State) (e : Nat) : State :=
  let p := rtPage e
  let d := rtOff e
  let s := s0.inc p (RT_HITS_COUNT.at d)
  let item := s.rtItem l e
  let hub := if s.fb p (RT_DEST_SELF.at d) then s.hubId else s.fg p (RT_DEST_HUB.at d)
  let kind := s.fg p (RT_DEST_KIND.at d)
  let q := s.fg p (RT_DEST_QUEUE.at d)
  if kind = 0 then
    let pay := itemTagged (itemTime item (s.st48 l.sof / 65536)) 0xFF
    let cls := if s.fb p (RT_DEST_CLASS_E.at d) && decide (pay.length ≤ 64) then Cls.E else Cls.T
    s.rtSend l { hdr := { cls := cls, mtype := 0x20, dst := hub, src := s.hubId, stream := s.fg p (RT_DEST_PITCH.at d)
                          arg := s.fg p (RT_DEST_CHAN.at d) + 256 * l.pitch + 8192 * l.chan }, payload := pay }
  else if kind = 1 then
    s.rtSend l { hdr := { cls := .B, mtype := 0x10, dst := hub, src := s.hubId, stream := l.pitch, arg := q }
                 payload := s.recBytes l.chan { rtype := 0x10, items := [(l.sof, item)] } }
  else if kind = 2 then
    if !(s.ready 0x020 && s.ready 0x014) then s else
    let before := s.mbOverruns (q % 64)
    let s1 := s.mbPush (q % 64) (BitVec.ofNat 32 (leAt item 12 4))
    if before then s1.routeDropped else s1
  else if s.fb (s.enOf l.pitch l.chan) EN_RXDST_RX_EN then s.pbRecord l item
  else s

/-- ROUTE_LOOKUP_DONE (R308, R309, R311): the oldest lookup ends. -/
def execRouteLookupDone (s : State) : Out :=
  .next (
    match s.looking with
    | [] => s
    | l :: rest =>
      let s1 := { s with looking := rest }
      match s1.rtFind l (List.range 4096) 4 with
      | [] => s1.pbUnmatched l
      | es => es.foldl (State.rtAct l) s1)

/-! ### Frames for a cluster (R260, R310) -/

/-- A routed message put into the FIFO of its channel, or discarded and counted (R310). -/
def State.routedTake (s : State) (n : Nat) (f : Frame) : State :=
  let c := f.hdr.argBits 0 3
  let g := s.enOf n c
  let x := s.chan n c
  if s.enMode g ≠ 2 ∨ 1024 < x.used + f.payload.length ∨ s.pbInvalid g f.payload ∨ f.payload.length < 12 ∨
      f.payload.length ≠ itemLen f.payload then s.enCnt g 1
  else s.setChan n c { x with fifo := x.fifo ++ [(0, f.payload)] }

/-- A transmit record accepted whole, or discarded (R260). -/
def State.txTake (s : State) (n : Nat) (f : Frame) : State :=
  let c := leAt f.payload 0 1
  let g := s.enOf n (c % 8)
  let m := s.enMode g
  let x := s.chan n (c % 8)
  match txItems m f.payload with
  | none => s.txDrop n
  | some items =>
    let size := (items.map List.length).sum
    if f.hdr.cls ≠ .B ∨ f.hdr.mtype ≠ 0x10 ∨ 8 ≤ c ∨ 1024 < x.used + size ∨
        f.payload.length ≠ 12 + (size + 3) / 4 * 4 then s.txDrop n
    else s.setChan n (c % 8) { x with fifo := x.fifo ++ items.map fun i => (if m = 4 then s.schedAt i else 0, i) }

/-- The oldest frame a port's block has received, and the state without it. -/
def State.inboxTake (s : State) (p : Nat) : Option (Frame × State) :=
  match s.core.inbox.getD p [] with
  | [] => none
  | f :: rest => some (f, { s with core := { s.core with inbox := s.core.inbox.put p rest [] } })

/-- A frame of the routed MTYPE (R310). -/
def Frame.routed (f : Frame) : Bool := decide (f.hdr.mtype = 0x20) && (decide (f.hdr.cls = .E) || decide (f.hdr.cls = .T))

/-- TX_RECORD_RECEIVED (R260): the oldest frame the cluster has received, where it is no routed message. -/
def execTxRecordReceived (pitch : Pitch) (s : State) : Out :=
  .next (
    match s.inboxTake (portCluster pitch.val) with
    | none => s
    | some (f, t) => if f.routed then s else t.txTake pitch.val f)

/-- ROUTED_FRAME_RECEIVED (R310). -/
def execRoutedFrameReceived (pitch : Pitch) (s : State) : Out :=
  .next (
    match s.inboxTake (portCluster pitch.val) with
    | none => s
    | some (f, t) => if f.routed then t.routedTake pitch.val f else s)

end Sys2Proof.Machine
end

