-- ==== Sys2Proof/Machine/Crypto.lean ====
section
/-! DEFINITION. SHA-256 and the verification of an ECDSA signature over P-256 (FIPS 180-4, FIPS 186-5), which the checks of a manifest
use (R493, R497). -/
namespace Sys2Proof.Machine

/-! ### SHA-256 -/

/-- The round constants. -/
def shaK : List Word :=
  [0x428A2F98, 0x71374491, 0xB5C0FBCF, 0xE9B5DBA5, 0x3956C25B, 0x59F111F1, 0x923F82A4, 0xAB1C5ED5,
   0xD807AA98, 0x12835B01, 0x243185BE, 0x550C7DC3, 0x72BE5D74, 0x80DEB1FE, 0x9BDC06A7, 0xC19BF174,
   0xE49B69C1, 0xEFBE4786, 0x0FC19DC6, 0x240CA1CC, 0x2DE92C6F, 0x4A7484AA, 0x5CB0A9DC, 0x76F988DA,
   0x983E5152, 0xA831C66D, 0xB00327C8, 0xBF597FC7, 0xC6E00BF3, 0xD5A79147, 0x06CA6351, 0x14292967,
   0x27B70A85, 0x2E1B2138, 0x4D2C6DFC, 0x53380D13, 0x650A7354, 0x766A0ABB, 0x81C2C92E, 0x92722C85,
   0xA2BFE8A1, 0xA81A664B, 0xC24B8B70, 0xC76C51A3, 0xD192E819, 0xD6990624, 0xF40E3585, 0x106AA070,
   0x19A4C116, 0x1E376C08, 0x2748774C, 0x34B0BCB5, 0x391C0CB3, 0x4ED8AA4A, 0x5B9CCA4F, 0x682E6FF3,
   0x748F82EE, 0x78A5636F, 0x84C87814, 0x8CC70208, 0x90BEFFFA, 0xA4506CEB, 0xBEF9A3F7, 0xC67178F2]

/-- The initial hash value. -/
def shaH : List Word := [0x6A09E667, 0xBB67AE85, 0x3C6EF372, 0xA54FF53A, 0x510E527F, 0x9B05688C, 0x1F83D9AB, 0x5BE0CD19]

/-- Bytes as a big-endian number, and a number as `k` big-endian bytes. -/
def ofBe (bs : List Byte) : Nat := bs.foldl (fun n b => n * 256 + b.toNat) 0
def beBytes (n : Nat) : Nat → List Byte
  | 0 => []
  | k + 1 => BitVec.ofNat 8 (n >>> (8 * k)) :: beBytes n k

/-- One more word of the message schedule; the list holds the newest word first. -/
def shaNext (w : List Word) : List Word :=
  let g (i : Nat) : Word := w.getD i 0
  let s0 := (g 14).rotateRight 7 ^^^ (g 14).rotateRight 18 ^^^ (g 14) >>> 3
  let s1 := (g 1).rotateRight 17 ^^^ (g 1).rotateRight 19 ^^^ (g 1) >>> 10
  (g 15 + s0 + g 6 + s1) :: w

/-- One round on the eight working variables. -/
def shaRound (v : List Word) (kw : Word) : List Word := match v with
  | [a, b, c, d, e, f, g, h] =>
    let t1 := h + (e.rotateRight 6 ^^^ e.rotateRight 11 ^^^ e.rotateRight 25) + ((e &&& f) ^^^ (~~~ e &&& g)) + kw
    let t2 := (a.rotateRight 2 ^^^ a.rotateRight 13 ^^^ a.rotateRight 22) + ((a &&& b) ^^^ (a &&& c) ^^^ (b &&& c))
    [t1 + t2, a, b, c, d + t1, e, f, g]
  | _ => v

/-- The hash value after one block of 16 words. -/
def shaBlock (h : List Word) (block : List Word) : List Word :=
  let w := ((List.range 48).foldl (fun w _ => shaNext w) block.reverse).reverse
  List.zipWith (· + ·) h ((List.zipWith (· + ·) shaK w).foldl shaRound h)

/-- Bytes cut into words, and words into blocks, big-endian; the fuel bounds their number. -/
def shaWords : List Byte → List Word
  | a :: b :: c :: d :: bs => BitVec.ofNat 32 (ofBe [a, b, c, d]) :: shaWords bs
  | _ => []
def shaFold : Nat → List Word → List Word → List Word
  | 0, h, _ => h
  | n + 1, h, ws => shaFold n (shaBlock h (ws.take 16)) (ws.drop 16)

/-- SHA-256 of a byte string. -/
def sha256 (bs : List Byte) : List Byte :=
  let n := (bs.length + 9 + 63) / 64
  let padded := bs ++ [0x80] ++ List.replicate (64 * n - 9 - bs.length) 0 ++ beBytes (8 * bs.length) 8
  ((shaFold n shaH (shaWords padded)).map fun w => beBytes w.toNat 4).flatten

/-! ### P-256 -/

def ecP : Nat := 0xFFFFFFFF00000001000000000000000000000000FFFFFFFFFFFFFFFFFFFFFFFF
def ecB : Nat := 0x5AC635D8AA3A93E7B3EBBD55769886BC651D06B0CC53B0F63BCE3C3E27D2604B
def ecN : Nat := 0xFFFFFFFF00000000FFFFFFFFFFFFFFFFBCE6FAADA7179E84F3B9CAC2FC632551
def ecG : Nat × Nat :=
  (0x6B17D1F2E12C4247F8BCE6E563A440F277037D812DEB33A0F4A13945D898C296,
   0x4FE342E2FE1A7F9B8EE7EB4A7C0F9E162BCE33576B315ECECBB6406837BF51F5)

/-- `b ^ e` modulo `m`, over the bits of `e` that the fuel counts. -/
def powMod (m : Nat) : Nat → Nat → Nat → Nat
  | 0, _, _ => 1
  | k + 1, b, e =>
    let h := powMod m k (b * b % m) (e / 2)
    if e % 2 = 1 then b * h % m else h

/-- The inverse modulo a prime. -/
def invMod (m a : Nat) : Nat := powMod m 256 (a % m) (m - 2)

/-- Subtraction modulo `p`. -/
def ecSub (a b : Nat) : Nat := (a + ecP - b % ecP) % ecP

/-- Addition of points; `none` is the point at infinity. -/
def ecAdd : Option (Nat × Nat) → Option (Nat × Nat) → Option (Nat × Nat)
  | none, q => q
  | p, none => p
  | some (x1, y1), some (x2, y2) =>
    if x1 = x2 ∧ (y1 + y2) % ecP = 0 then none
    else
      let l := if x1 = x2 then (3 * x1 * x1 + (ecP - 3)) * invMod ecP (2 * y1) % ecP else ecSub y2 y1 * invMod ecP (ecSub x2 x1) % ecP
      let x := ecSub (l * l) (x1 + x2)
      some (x, ecSub (l * ecSub x1 x) y1)

/-- Multiplication of a point by the low bits of `k` that the fuel counts. -/
def ecMul : Nat → Nat → Option (Nat × Nat) → Option (Nat × Nat)
  | 0, _, _ => none
  | n + 1, k, p => let h := ecMul n (k / 2) (ecAdd p p)
    if k % 2 = 1 then ecAdd p h else h

/-- A public key is a point of the curve with both coordinates in range. -/
def ecOn (x y : Nat) : Bool := decide (x < ecP) && decide (y < ecP) && decide (y * y % ecP = (x * x * x + (ecP - 3) * x + ecB) % ecP)

/-- The signature `sig` (r then s) over a message with hash `hash` is valid for `key` (X then Y). -/
def ecdsaOk (key hash sig : List Byte) : Bool :=
  let x := ofBe (key.take 32)
  let y := ofBe (key.drop 32)
  let r := ofBe (sig.take 32)
  let s := ofBe (sig.drop 32)
  if ecOn x y && decide (0 < r) && decide (r < ecN) && decide (0 < s) && decide (s < ecN) then
    let w := invMod ecN s
    match ecAdd (ecMul 256 (ofBe hash * w % ecN) (some ecG)) (ecMul 256 (r * w % ecN) (some (x, y))) with
    | none => false
    | some (px, _) => decide (px % ecN = r)
  else false

end Sys2Proof.Machine
end

