-- ==== Sys2Proof/Machine/Update.lean ====
section
/-! DEFINITION. The update block, page 0x290 (chapter 18): its commands, verification, the strike, the revert, the card relay and the
commit. -/
namespace Sys2Proof.Machine

def State.updRefuse (s : State) : State := s.raise 0x290 EV_UP_CMD_REFUSED

/-- A command begins or ends: BUSY. -/
def State.setJob (s : State) (j : Option UpJob) : State :=
  ({ s with up := { s.up with job := j } } : State).fs 0x290 UP_STATUS_BUSY (bit j.isSome)

/-- UP_WBUF as bytes. -/
def State.wbuf (s : State) : List Byte := ((List.range 128).map fun i => leBytes (s.rd 0x290 (UP_WBUF + 4 * i)).toNat 4).flatten

/-! ### CLEAR, WRITE and WRITE_AREA (R496, R508) -/

/-- CLEAR: UP_SEQ goes into the update state and the map is cleared; the state returns to LOADING (R496, R497). It has no effect while no
write pulse may start (R78, R79). -/
def State.updClear (s : State) : State :=
  if 3 ≤ s.upState then s.updRefuse
  else if s.mramStop then s
  else (({ s with up := { s.up with seq := (s.rd 0x290 UP_SEQ).toNat } } : State).mwr mapBase (List.replicate 384 0)).setUpState 1

/-- WRITE of a chunk of the inactive slot begins. -/
def State.updWrite (s : State) : State :=
  let a := s.fg 0x290 UP_ADDR_ADDR
  if 3 ≤ s.upState ∨ a % 512 ≠ 0 ∨ 0x180000 ≤ a then s.updRefuse
  else (s.setUpState 1).setJob (some { op := 2, addr := slotBase s.idleSlot + a, bytes := s.wbuf, chunk := a / 512, started := !s.mramStop })

/-- The areas that WRITE_AREA may write: an option copy not in use, or the equalization table. -/
def State.areaOk (s : State) (a : Nat) : Bool :=
  let copy := s.fg 0 GS_OPT_STATUS_COPY
  decide (a % 512 = 0) &&
    ((decide (0x300000 ≤ a) && decide (a < 0x310000) && decide (copy ≠ 1)) ||
     (decide (0x310000 ≤ a) && decide (a < 0x320000) && decide (copy ≠ 2)) || (decide (0x324000 ≤ a) && decide (a < 0x328000)))

def State.updWriteArea (s : State) : State :=
  let a := s.fg 0x290 UP_ADDR_ADDR
  if s.areaOk a then s.setJob (some { op := 7, addr := a, bytes := s.wbuf, started := !s.mramStop }) else s.updRefuse

/-- UPD_WRITE_DONE: the chunk is in the MRAM and its bit set, or the read-back differs. No write ends while no pulse may start (R78,
R79). -/
def execUpdWriteDone (ok : Bool) (s : State) : Out :=
  .next (match s.up.job with
    | none => s
    | some j =>
      if (j.op ≠ 2 ∧ j.op ≠ 7) ∨ s.mramStop = true then s
      else
        let s1 := s.setJob none
        if j.op = 7 then s1.mwr j.addr j.bytes
        else if ok then (s1.mwr j.addr j.bytes).setChunk j.chunk true
        else ((s1.cutWords j.addr j.bytes).setChunk j.chunk false).raise 0x290 EV_UP_UPD_MRAM_FAIL)

/-! ### VERIFY (R497) -/

/-- A manifest's entry meets R493 but for what concerns several entries. -/
def Entry.ok (e : Entry) : Bool :=
  decide (1 ≤ e.comp) && decide (e.comp ≤ 4) && decide (e.svn ≤ 254) && decide ((e.comp = 4) ↔ (e.cardType ≠ 0)) &&
  decide (1 ≤ e.first) && decide (e.first ≤ 383) && decide (1 ≤ e.size) && decide (e.size ≤ (384 - e.first) * 4096) && decide (e.reserved = 0)

/-- A list holds no value twice. -/
def noRepeat : List Nat → Bool
  | [] => true
  | x :: xs => !xs.contains x && noRepeat xs

/-- The manifest of a slot meets R492 and R493. -/
def State.manifestOk (s : State) (slot : Nat) : Bool :=
  let b := slotBase slot
  let es := s.entries slot
  decide (s.mle b 4 = 0x0A192A01) && decide (s.mle (b + 4) 2 = 1) && decide (3 ≤ s.mle (b + 6) 2) && decide (s.mle (b + 6) 2 ≤ 11) &&
  decide (s.manSeq slot ≠ 0) && decide (s.mle (b + 12) 4 ≤ 1) && es.all Entry.ok &&
  [1, 2, 3].all (fun c => decide ((es.filter fun e => decide (e.comp = c)).length = 1)) &&
  noRepeat ((es.filter fun e => decide (e.comp = 4)).map (·.cardType)) && noRepeat ((es.map Entry.pieces).flatten)

/-- PUBKEY of a slot's manifest. -/
def State.pubkey (s : State) (slot : Nat) : List Byte := s.mbytes (slotBase slot + 0x10) 64

/-- Fuse words 15 to 22 hold the SHA-256 of the accepted PUBKEY. -/
def State.keyOk (s : State) (slot : Nat) : Bool :=
  decide (sha256 (s.pubkey slot) = ((List.range 8).map fun i => leBytes (s.gs.fuseHeld.getD (15 + i) 0).toNat 4).flatten)

/-- SIG of the manifest. -/
def State.manSigOk (s : State) (slot : Nat) : Bool :=
  let n := 0x50 + 112 * s.manCount slot
  ecdsaOk (s.pubkey slot) (sha256 (s.mbytes (slotBase slot) n)) (s.mbytes (slotBase slot + n) 64)

/-- The bytes of an entry's component, its DIGEST and its SIG. -/
def State.compBytes (s : State) (slot : Nat) (e : Entry) : List Byte := s.mbytes (slotBase slot + 4096 * e.first) e.size
def State.digestOk (s : State) (slot : Nat) (e : Entry) : Bool := decide (sha256 (s.compBytes slot e) = e.digest)
def State.sigOk (s : State) (slot : Nat) (e : Entry) : Bool := ecdsaOk (s.pubkey slot) e.digest e.sig

/-- The SVN of an entry is at least its floor. -/
def State.svnOk (s : State) (e : Entry) : Bool := decide (s.floorOf (e.comp - 1) ≤ e.svn)

/-- The first entry, with its number, that a check refuses. -/
def firstBad (es : List Entry) (ok : Entry → Bool) : Option (Nat × Entry) :=
  ((List.range es.length).zip es).find? fun x => !ok x.2

/-- REASON and ENTRY of the first failing check of R497. -/
def State.verify (s : State) (slot : Nat) : Option (Nat × Nat) :=
  let es := s.entries slot
  let chk (reason : Nat) (ok : Entry → Bool) : Option (Nat × Nat) := (firstBad es ok).map fun x => (reason, x.1)
  if !s.pieceOk 0 then some (1, 0)
  else (chk 1 fun e => e.pieces.all s.pieceOk).or <|
    if !s.manifestOk slot then some (2, 0)
    else if !s.keyOk slot then some (3, 0)
    else if !s.manSigOk slot then some (4, 0)
    else (chk 5 (s.digestOk slot)).or <| (chk 6 (s.sigOk slot)).or <| chk 7 s.svnOk

/-- The first piece that is not complete, of piece 0 and the entries' pieces; 0 where none is missing. -/
def State.firstMissing (s : State) (slot : Nat) : Nat :=
  ((0 :: ((s.entries slot).map Entry.pieces).flatten).find? fun p => !s.pieceOk p).getD 0

/-- The chunk bits of a component's pieces cleared. -/
def State.clearPieces (s : State) (e : Entry) : State := e.pieces.foldl (fun (t : State) p => t.store (mapBase + p % 384) [0]) s

/-- A strike armed or run keeps its state through a VERIFY. -/
def State.verifyState (s : State) (v : Nat) : State := if s.upState < 3 then s.setUpState v else s

/-- VERIFY begins. -/
def State.updVerify (s : State) : State := s.setJob (some { op := 3 })

/-- UPD_VERIFY_DONE (R497). -/
def execUpdVerifyDone (s : State) : Out :=
  .next (
    let slot := s.idleSlot
    if s.up.job.map (·.op) ≠ some 3 then s
    else
      let s1 := s.setJob none
      match s1.verify slot with
      | none => (s1.verifyState 2).raise 0x290 EV_UP_VERIFIED
      | some (reason, i) =>
        let s2 := if reason = 5 ∨ reason = 6 then s1.clearPieces (s1.entry slot i) else s1
        let s3 := s2.wr 0x290 UP_FAIL (BitVec.ofNat 32 (reason * 2 ^ 24 + i * 65536 + s2.firstMissing slot))
        (if s3.upState = 2 then s3.setUpState 0 else s3).raise 0x290 (if reason = 7 then EV_UP_UPD_ROLLBACK_REFUSED else EV_UP_UPD_VERIFY_FAIL))

/-! ### The strike (R499, R500) -/

/-- The hub has a present twin in a redundant node (R500). -/
def State.paired (s : State) : Bool := s.redundant && s.fb 0x024 TW_STATUS_PRESENT
def State.twinUp (s : State) : Nat := s.fg 0x290 UP_STATUS_TWIN_STATE

/-- The strike runs: the record names the struck slot with STATE TRIAL, and the hub's own reset is requested. Without its record it
does not run (R79). -/
def State.strike (s : State) : State :=
  let k := s.idleSlot
  let u := { s.up with active := k, trial := true, recSeq := s.manSeq k, strikeAt := none, turn := false, confirmed := false }
  if s.mramStop then s
  else (({ s with up := u } : State).upShow).recognise { cause := 0xA, level := s.levelOf 0xA } none

/-- The boundary of epoch `e` lies at least 2 epochs ahead. -/
def State.farEnough (s : State) (e : Nat) : Bool :=
  let base : Nat := if s.fb 0x01C SC_STATUS_WAITING then s.scan.first else s.epoch + 1
  let at0 : Int := s.scan.next + sgn 32 (epochDiff e base) * s.epochNs
  s.running 0x01C && decide (s.stAt s.now + 2 * s.epochNs * stNsU ≤ at0 * stNsU)

/-- ARM and ARM_NOW. -/
def State.updArm (s : State) (now : Bool) : State :=
  let k := s.idleSlot
  if s.upState ≠ 2 then s.updRefuse
  else if !(s.entries k).all s.svnOk then (s.raise 0x290 EV_UP_UPD_ROLLBACK_REFUSED).updRefuse
  else if now then s.strike
  else if !s.farEnough (s.rd 0x290 UP_EPOCH).toNat || (s.redundant && !s.manNode k) then s.updRefuse
  else ({ s with up := { s.up with strikeAt := some (s.rd 0x290 UP_EPOCH).toNat } } : State).setUpState 3

/-- DISARM. -/
def State.updDisarm (s : State) : State :=
  if s.upState = 3 then ({ s with up := { s.up with strikeAt := none, turn := false } } : State).setUpState 2 else s

/-- Both hubs are armed with the same MAN_SEQ and epoch. -/
def State.armedAlike (s : State) (e : Nat) : Bool :=
  decide (s.twinUp = 3) && decide (s.up.twinSeq = (s.rd 0x290 UP_SEQ).toNat) && decide (s.up.twinEpoch = e)

/-- The boundary of epoch `e` and an armed strike (R499, R500). -/
def State.updEpoch (s : State) (e : Nat) : State :=
  match s.upState, s.up.strikeAt with
  | 3, some x =>
    if 2 ^ 31 ≤ epochDiff e x then s
    else if s.up.turn ∨ !s.paired then s.strike
    else if !s.armedAlike x then s.disarmed
    else if s.role = roleStandby then s.strike
    else if s.role = roleActive then { s with up := { s.up with strikeAt := none, turn := true } }
    else s.disarmed
  | _, _ => s

/-! ### Trial, HELD and the twin (R501-R503) -/

/-- A write of UP_CTRL.CONFIRM. -/
def State.updConfirm (s : State) : State := if s.upState = 4 then { s with up := { s.up with confirmed := true } } else s

/-- The first run has passed: the lantern has confirmed, every cluster runs the entry's microcode, and the supervisor die is up. -/
def State.firstRun (s : State) : Bool :=
  s.up.confirmed && s.islUp 38 && s.supv.link && (List.range 24).all fun n =>
    s.fb (ecPage n) EC_UCODE_LOADED && decide (s.fg (ecPage n) EC_UCODE_VERSION = s.compVersion s.up.active 2 % 65536)

/-- A standby in HELD whose twin is still ARMED requests the planned switchover, once (R500 step 2). -/
def State.heldAsk (s : State) : State :=
  if s.upState = 5 ∧ s.paired ∧ s.role = roleStandby ∧ s.twinUp = 3 ∧ s.up.swapWanted = false then
    ({ s with up := { s.up with swapWanted := true } } : State).swapRequest
  else s

/-- STRIKE_DONE (R501). -/
def execStrikeDone (s : State) : Out :=
  .next (if s.upState = 4 ∧ s.firstRun then ((s.setUpState 5).raise 0x290 EV_UP_STRIKE_DONE).heldAsk else s)

/-- A failure under R503: an ACTIVE hub of a node requests a planned switchover first. -/
def State.failNode (s : State) : State :=
  if s.redundant ∧ s.role = roleActive then
    (if s.up.leaving then s else ({ s with up := { s.up with leaving := true } } : State).swapRequest)
  else s.strikeFail

/-- The twin's UP_STATUS has been read (R500, R503). -/
def State.twinStatusRead (s : State) (v : Word) : State :=
  let reverted := decide (UP_STATUS_STATE.get v = 0) && decide (UP_STATUS_REVERTED.get v = 1)
  let s1 := s.fs 0x290 UP_STATUS_TWIN_STATE (UP_STATUS_STATE.get v)
  if reverted ∧ (s1.upState = 5 ∨ s1.upState = 6) then s1.failNode
  else if reverted ∧ s1.upState = 7 ∧ s1.fb 0x290 UP_STATUS_TWIN_MISMATCH = false then
    (({ s1 with up := { s1.up with agree := [] } } : State).fs 0x290 UP_STATUS_TWIN_MISMATCH 1).raise 0x290 EV_UP_UPD_REVERT
  else s1.heldAsk

/-- A register of the twin has been read: UP_STATUS, UP_SEQ, UP_EPOCH, or while TWIN_MISMATCH shows one of UP_VER, which ends the
mismatch once all three agree. -/
def State.updPolled (s : State) (off : Nat) (v : Word) : State :=
  if off = UP_STATUS then s.twinStatusRead v
  else if off = UP_SEQ then { s with up := { s.up with twinSeq := v.toNat } }
  else if off = UP_EPOCH then { s with up := { s.up with twinEpoch := v.toNat } }
  else
    let k := (off - UP_VER) / 4
    let same := decide (v.toNat = s.compVersion s.up.active (k + 1))
    let l := s.up.agree.filter (· != k)
    let s1 := { s with up := { s.up with agree := if same then k :: l else l } }
    if s1.up.agree.length = 3 then s1.fs 0x290 UP_STATUS_TWIN_MISMATCH 0 else s1

/-- TRIAL_EXPIRED (R502): the first run has not passed. -/
def execTrialExpired (s : State) : Out := .next (if s.upState = 4 ∧ s.firstRun = false then s.strikeFail else s)

/-- TWIN_STRIKE_TIMEOUT (R503): the twin has not reached HELD. -/
def execTwinStrikeTimeout (s : State) : Out :=
  .next (if s.upState = 5 ∧ s.redundant ∧ (s.twinUp < 5 ∨ 7 < s.twinUp) then s.failNode else s)

/-- SWITCHOVER_REQUEST_REPEAT (R503): the refused request is made again, or an ACTIVE hub whose request was refused reverts. -/
def execSwitchoverRequestRepeat (s : State) : Out :=
  .next (
    if s.tw.swap.isSome ∨ s.tw.swapYes ∨ s.tw.quiet ≠ [] then s
    else if s.up.leaving then ({ s with up := { s.up with leaving := false } } : State).strikeFail
    else if s.up.swapWanted ∧ s.upState = 5 ∧ s.role = roleStandby then s.swapRequest
    else s)

/-! ### Card firmware (R504, R505) -/

/-- The entry of the active slot that serves the card of a pitch. -/
def State.cardEntry (s : State) (n : Nat) : Option Entry :=
  (s.entries s.up.active).find? fun e => decide (e.comp = 4) && decide (e.cardType = s.fg (clPage n) CL_CARD_TYPE)

/-- The serial number of a pitch's card. -/
def State.cardSn (s : State) (n : Nat) : Nat := (s.rd (clPage n) CL_SN_LO).toNat + 2 ^ 32 * (s.rd (clPage n) CL_SN_HI).toNat

/-- The pitch is to be relayed to. -/
def State.relayable (s : State) (n : Nat) : Bool :=
  decide (s.clState n = 5) && s.fb (clPage n) CL_STATUS_CAP_RELAY && (match s.cardEntry n with
    | some e => decide (s.fg (clPage n) CL_CARD_FW ≠ e.version % 65536)
    | none => false)

/-- A relay block without payload waits on every relayed pitch. -/
def State.relayAll (s : State) (ty : Nat) : State :=
  s.up.relayed.foldl (fun (t : State) n => t.setCard n { t.card n with relay := (t.card n).relay ++ [leBytes ty 1] }) s

/-- CARD_RELAY_START (R504). -/
def execCardRelayStart (s : State) : Out :=
  .next (
    if s.upState ≠ 5 ∨ s.role ≠ roleActive ∨ (s.paired ∧ s.twinUp ≠ 5) then s
    else
      let l := (List.range 24).filter s.relayable
      let s1 := ({ s with up := { s.up with relayed := l, activated := false, reverting := [] } } : State).setUpState 6
      let s2 := s1.fs 0x290 UP_CNT_SKIPPED (24 - l.length)
      l.foldl (fun (t : State) n => t.setCard n { t.card n with
        rlSn := some (t.cardSn n), rlState := 0, rlNext := 0, rlOff := none, rlCheck := false }) s2)

/-- A relayed card has passed: its link is ACTIVE again with the same serial number and the entry's VERSION. -/
def State.cardPassed (s : State) (n : Nat) : Bool :=
  s.up.activated && decide (s.clState n = 5) && decide ((s.card n).rlSn = some (s.cardSn n)) && (match s.cardEntry n with
    | some e => decide (s.fg (clPage n) CL_CARD_FW = e.version % 65536)
    | none => false)

/-- The relay fails: RL_REVERT on every relayed pitch whose link is in ACTIVE, and the strike fails once they have been sent. -/
def State.cardsFail (s : State) : State :=
  let l := s.up.relayed.filter fun n => decide (s.clState n = 5)
  if l = [] then s.strikeFail
  else { (s.relayAll 0x14) with up := { s.up with reverting := l } }

/-- What the reports of the relayed cards bring about: RL_ACTIVATE on all when all are GOOD, the failure when one is BAD. -/
def State.relayJudge (s : State) : State :=
  if s.upState ≠ 6 ∨ s.up.relayed = [] ∨ s.up.reverting ≠ [] then s
  else if s.up.relayed.any fun n => decide ((s.card n).rlState = 3) then s.cardsFail
  else if !s.up.activated ∧ s.up.relayed.all fun n => decide ((s.card n).rlState = 2) then
    { (s.relayAll 0x12) with up := { s.up with activated := true } }
  else s

/-- The relay block that a pitch sends next, as TYPE and payload: a waiting one, the next RL_DATA, or RL_CHECK after the last. -/
def State.relayNext (s : State) (n : Nat) : Option (Nat × List Byte × State) :=
  let x := s.card n
  match x.relay with
  | b :: bs => some (leAt b 0 1, b.drop 1, s.setCard n { x with relay := bs })
  | [] =>
    if s.upState ≠ 6 ∨ s.up.relayed.contains n = false ∨ x.rlCheck ∨ s.up.activated then none
    else match s.cardEntry n with
      | none => none
      | some e =>
        let off := x.rlOff.getD x.rlNext
        if off < e.size then
          some (0x10, leBytes off 4 ++ s.mbytes (slotBase s.up.active + 4096 * e.first + off) (min 48 (e.size - off)),
            s.setCard n { x with rlOff := some (off + 48) })
        else some (0x11, leBytes e.size 4 ++ leBytes e.version 4 ++ e.digest, s.setCard n { x with rlCheck := true })

/-- A superframe of a pitch has ended: an RL_REVERT sent in it is out, and the strike fails after the last one. -/
def State.relaySent (s : State) (n : Nat) : State :=
  if !s.up.reverting.contains n then s
  else if s.clState n = 5 ∧ leAt (s.card n).block 0 1 ≠ 0x14 then s
  else
    let s1 := { s with up := { s.up with reverting := s.up.reverting.filter (· != n) } }
    if s1.up.reverting = [] then s1.strikeFail else s1

/-- CARD_WAIT_EXPIRED (R504): a card that is gone is skipped, any other that has not passed fails the strike. -/
def execCardWaitExpired (s : State) : Out :=
  .next (
    if s.upState ≠ 6 ∨ s.up.activated = false ∨ s.up.reverting ≠ [] then s
    else
      let late := s.up.relayed.filter fun n => !s.cardPassed n
      let gone := late.filter fun n => decide (s.clState n ≤ 1)
      let s1 := ({ s with up := { s.up with relayed := s.up.relayed.filter fun n => !gone.contains n } } : State).addSat 0x290 UP_CNT_SKIPPED
        gone.length
      if late.length = gone.length then s1 else s1.cardsFail)

/-- UPDATE_COMMIT (R507): the record, RL_COMMIT, COMMITTED and the floors; `bad` is the fuse bit that fails its check. -/
def execUpdateCommit (bad : Option Nat) (s : State) : Out :=
  .next (
    let cards := decide (s.upState = 6) && decide (s.role = roleActive) && decide (s.up.reverting = []) && s.up.relayed.all s.cardPassed
    let follow := decide (s.upState = 5) && decide (s.twinUp = 7) && decide (s.up.twinSeq = (s.rd 0x290 UP_SEQ).toNat)
    if (!cards && !follow) || s.mramStop then s
    else
      let s1 := ({ s with up := { s.up with trial := false } } : State).relayAll 0x13
      (((s1.setUpState 7).raise 0x290 EV_UP_COMMITTED).inc 0x290 UP_CNT_STRIKES).raiseFloors bad)

/-! ### Microcode (R254) -/

/-- UCODE_LOAD_DONE: the set of the active slot is in the store when its DIGEST and SIG are right; else the cluster stays held, and a
strike in TRIAL fails (R502). -/
def execUcodeLoadDone (cluster : Pitch) (s : State) : Out :=
  .next (
    let n := cluster.val
    let p := ecPage n
    let k := s.up.active
    if !s.gs.loading.contains n then s
    else
      let s1 := { s with gs := { s.gs with loading := s.gs.loading.filter (· != n) } }
      match (s.compEntry k 2).filter fun e => s.digestOk k e && s.sigOk k e with
      | some e =>
        ({ s1 with ucode := s1.ucode.put n ((s.compBytes k e).take 16384) [] } : State).wr p EC_UCODE
          (BitVec.ofNat 32 (65536 + e.version % 65536))
      | none =>
        let s2 := (s1.wr p EC_UCODE 0).raise p EV_EC_UCODE_BAD
        if s2.upState = 4 then s2.strikeFail else s2)

/-! ### Registers of the page -/

/-- A write of UP_CMD (R508). COMMITTED is shown until the next command. -/
def State.updCmd (s : State) (v : Word) : State :=
  if UP_CMD_GO.get v = 0 then s
  else if s.up.job.isSome then s.updRefuse
  else
    let t := if s.upState = 7 then s.setUpState 0 else s
    match UP_CMD_OP.get v with
    | 1 => t.updClear
    | 2 => t.updWrite
    | 3 => t.updVerify
    | 4 => t.updArm false
    | 5 => t.updArm true
    | 6 => t.updDisarm
    | 7 => t.updWriteArea
    | _ => t.updRefuse

def execUpdClear (who : Initiator) (v : Word) (s : State) : Out := .next (s.write who 0x290 UP_CMD fun t => t.updCmd v)
def execUpdWrite (who : Initiator) (v : Word) (s : State) : Out := .next (s.write who 0x290 UP_CMD fun t => t.updCmd v)
def execUpdVerify (who : Initiator) (v : Word) (s : State) : Out := .next (s.write who 0x290 UP_CMD fun t => t.updCmd v)
def execUpdArm (who : Initiator) (v : Word) (s : State) : Out := .next (s.write who 0x290 UP_CMD fun t => t.updCmd v)
def execUpdArmNow (who : Initiator) (v : Word) (s : State) : Out := .next (s.write who 0x290 UP_CMD fun t => t.updCmd v)
def execUpdDisarm (who : Initiator) (v : Word) (s : State) : Out := .next (s.write who 0x290 UP_CMD fun t => t.updCmd v)
def execUpdWriteArea (who : Initiator) (v : Word) (s : State) : Out := .next (s.write who 0x290 UP_CMD fun t => t.updCmd v)

def State.upClrCnt (s : State) : State := s.wr 0x290 UP_CNT 0

/-- A write of UP_CTRL. -/
def State.upCtrlWrite (s : State) (v : Word) : State :=
  let s1 := if UP_CTRL_CONFIRM.get v = 1 then s.updConfirm else s
  if UP_CTRL_CLR_CNT.get v = 1 then s1.upClrCnt else s1

def execUpdConfirm (who : Initiator) (s : State) : Out := .next (s.write who 0x290 UP_CTRL State.updConfirm)
def execUpClrCnt (who : Initiator) (s : State) : Out := .next (s.write who 0x290 UP_CTRL State.upClrCnt)

/-- What the page's computed registers read: UP_STATUS.PIECES, UP_VER, UP_FLOOR and UP_MAP. -/
def State.upRead (s : State) (off : Nat) : Option Word :=
  if off = UP_STATUS then some (UP_STATUS_PIECES.set s.piecesDone (s.rd 0x290 UP_STATUS))
  else if UP_VER ≤ off ∧ off < UP_VER + 12 then some (BitVec.ofNat 32 (s.compVersion s.up.active ((off - UP_VER) / 4 + 1)))
  else if off = UP_FLOOR then
    some (BitVec.ofNat 32 (s.floorOf 0 + 256 * s.floorOf 1 + 65536 * s.floorOf 2 + 16777216 * s.floorOf 3))
  else if UP_MAP ≤ off ∧ off < UP_MAP + 48 then some (s.mapWord ((off - UP_MAP) / 4))
  else none

end Sys2Proof.Machine
end

