-- ==== Sys2Proof/Machine/Bridge.lean ====
section
/-! DEFINITION. The bridge's sending side (chapter 13): windows, tags, held-read slots, posted writes and their error log, fences,
signals and the software frame. -/
namespace Sys2Proof.Machine

def brP : Nat := 0x020

/-! ### Ends of accesses -/

/-- A take register of a hub's local map, by its address (R37): QRP_TAKE, MB_POP and EN_DI_COUNT. -/
def takeAt (off : Nat) : Bool :=
  let p := off / 4096
  let o := off % 4096
  decide (off < 2 ^ 24) && match kindOf p with
    | some .q => decide (o = QRP_TAKE) || (decide (p = 0x014) && decide (MB_POP ≤ o) && decide (o < MB_POP + 256) && decide (o % 4 = 0))
    | some .en => decide (o = EN_DI_COUNT)
    | _ => false

/-- A take made whose data found no initiator (R378, R393). -/
def State.lostTake (s : State) (hub off : Nat) (data : Word) : State :=
  let s1 := (s.wr brP BR_TL_ADDR (BitVec.ofNat 32 off)).wr brP BR_TL_DATA data
  let s2 := s1.wr brP BR_TL_INFO (BR_TL_INFO_VALID.set 1 (BR_TL_INFO_HUB.set hub (BR_TL_INFO_OFFSET32.set (off / 2 ^ 32) 0)))
  (s2.inc brP BR_CNT_TAKE_LOST_COUNT).raise brP EV_BR_TAKE_LOST

/-- The end of an abandoned access: a take read's data is lost (R393, R394). -/
def State.abandoned (s : State) (hub off : Nat) (write : Bool) (rsp : Nat) (data : Word) : State :=
  if rsp = rspOk ∧ !write ∧ takeAt off = true then s.lostTake hub off data else s

/-- An access of an initiator ends. -/
def State.finish (s : State) (who : Initiator) (rsp : Nat) (data : Word) : State := match who with
  | .host => ({ s with host := s.host.map fun a => { a with done := true } } : State).answer .host rsp data
  | .spi => ({ s with spi := s.spi.map fun a => { a with done := true } } : State).answer .spi rsp data
  | w => s.answer w rsp data

/-! ### Windows (R363, R364) -/

def State.win (s : State) (f : Fld) (w : Nat) : Nat := s.fg brP (winF f w)

/-- The lowest-numbered window that covers a fabric address. -/
def State.winFor (s : State) (a : Nat) : Option Nat :=
  (List.range 32).find? fun w =>
    let n := 2 ^ s.win BR_WIN_BASE_SIZE w
    decide (s.win BR_WIN_BASE_EN w = 1) && decide (a / n = s.win BR_WIN_BASE_BASE w * 2 ^ 20 / n)

/-- The address a window translates to. -/
def State.translate (s : State) (w a : Nat) : Nat :=
  let n := 2 ^ s.win BR_WIN_BASE_SIZE w
  s.win BR_WIN_TGT_TBASE w * 2 ^ 20 / n * n + a % n

/-- Where a fabric address leads. -/
inductive Target where
  | here (off : Nat)
  | unmapped
  | far (win hub off : Nat)
deriving DecidableEq, Repr

def State.target (s : State) (a : Nat) : Target :=
  if a / 2 ^ 33 = s.hubId then .here (a % 2 ^ 33)
  else match s.winFor a with
    | none => .unmapped
    | some w =>
      let t := s.translate w a
      if t / 2 ^ 33 = s.hubId then .here (t % 2 ^ 33) else .far w (t / 2 ^ 33) (t % 2 ^ 33)

/-- The one hub a window translates to (R383, R388). -/
def State.winHub (s : State) (w : Nat) : Option Nat :=
  let hub := s.win BR_WIN_TGT_TBASE w / 2 ^ 13
  if s.win BR_WIN_BASE_SIZE w ≤ 33 ∧ hub < 120 then some hub else none

/-! ### Tags (R368) -/

def State.tagOf (s : State) (t : Nat) : Option Txn := s.br.tags.getD t none
def State.setTag (s : State) (t : Nat) (x : Option Txn) : State := { s with br := { s.br with tags := s.br.tags.put t x none } }
def State.tagFree (s : State) : Option Nat := (List.range 256).find? fun t => (s.tagOf t).isNone
def State.winTags (s : State) (w : Nat) : Nat :=
  (s.br.tags.filter fun e => (e.2.map fun x => decide (x.fwd.win = w)).getD false).length

/-- A window that a pending commit affects starts no transaction (R367). -/
def State.winHeld (s : State) (w : Nat) : Bool := s.commitPending brP && s.winAffected w

def Holder.isFence : Holder → Bool
  | .fence _ => true
  | _ => false

/-- The tag a request may be sent under now: a free one, with quota, through a window that no commit holds. A fence that ran before the
COMMIT is sent, since the commit waits for it. -/
def State.sendTag (s : State) (f : Fwd) : Option Nat :=
  if s.win BR_WIN_CFG_QUOTA f.win ≤ s.winTags f.win || (s.winHeld f.win && (f.late || !f.holder.isFence)) then none else s.tagFree

/-- A request frame of a window (R371). -/
def State.reqFrame (s : State) (w hub off mtype : Nat) (payload : List Byte) : Frame :=
  { hdr := { cls := .T, mtype := mtype, dst := hub, src := s.hubId, stream := s.win BR_WIN_TGT_STREAM w, arg := off }, payload := payload }

/-- A write's prefix and its data (R371). -/
def wrPayload (w : Nat) (sync : Bool) (wseq : Nat) (data : Word) (be : BitVec 4) : List Byte :=
  leBytes be.toNat 1 ++ leBytes (w + 128 * bit sync) 1 ++ leBytes wseq 2 ++ leBytes data.toNat 4

/-- A FENCE carries the WSEQ last sent when it leaves (R383). -/
def State.fenceFrame (s : State) (f : Fwd) : Fwd := match f.holder with
  | .fence w => { f with frame := { f.frame with payload := leBytes w 2 ++ leBytes (s.win BR_WIN_CFG_WSEQ w) 2 } }
  | _ => f

/-- A request is sent under tag `t`. -/
def State.sendFwd (s : State) (f0 : Fwd) (t : Nat) : State :=
  let f1 := s.fenceFrame f0
  let fr := { f1.frame with hdr := { f1.frame.hdr with arg := f1.frame.hdr.arg + t * 2 ^ 33 } }
  let s1 : State := match f0.holder with
    | .fence w => { s with br := { s.br with posted := s.br.posted.filter (· != w) } }
    | .slot k => { s with br := { s.br with slots := s.br.slots.put k ((s.br.slots.getD k none).map fun x => { x with tag := t }) none } }
    | _ => s
  (s1.setTag t (some { fwd := { f1 with frame := fr }, phase := .unsent })).originate portBridge fr

/-! ### Fences and ends of requests -/

/-- A fence ends (R383). -/
def State.fenceEnd (s : State) (w result : Nat) : State :=
  let s1 := ((s.fs brP (winF BR_WIN_FENCE_RESULT w) result).fs brP (winF BR_WIN_FENCE_BUSY w) 0).fs brP (winF BR_WIN_FENCE_ERR w) 0
  s1.raiseIf (decide (result ≠ rspOk)) brP EV_BR_FENCE_FAIL

/-- The fence of a request that ended with `rsp` and CONF `conf`. -/
def State.fenceDone (s : State) (w wseq rsp conf : Nat) : State :=
  let err := s.win BR_WIN_FENCE_ERR w = 1
  if rsp = rspTimeout then s.fenceEnd w rspTimeout
  else (s.fs brP (winF BR_WIN_FENCE_CONF w) conf).fenceEnd w (if rsp = rspOk ∧ conf = wseq ∧ ¬err then rspOk else rspRemote)

def State.slot (s : State) (k : Nat) : Option Slot := s.br.slots.getD k none
def State.setSlot (s : State) (k : Nat) (x : Option Slot) : State := { s with br := { s.br with slots := s.br.slots.put k x none } }

/-- A forwarded request ends with `rsp`, its data (CONF of a fence) and TAKE. -/
def State.endFwd (s : State) (f : Fwd) (rsp : Nat) (data : Word) (take : Bool) : State := match f.holder with
  | .access who => s.finish who rsp data
  | .gone hub off write => s.abandoned hub off write rsp data
  | .poll reg => if rsp = rspOk then s.updPolled reg data else s
  | .fence w => s.fenceDone w (leAt f.frame.payload 2 2) rsp (data.toNat % 65536)
  | .slot k => match s.slot k with
    | none => s
    | some x => s.setSlot k (some { x with
        state := if x.state = 4 then 5 else if rsp = rspOk ∧ take = true then 3 else 2
        rsp := rsp, held := if rsp = rspOk then data else 0, born := s.now })

/-- The destination is not live under R146: the request is not sent (R370). -/
def State.noLive (s : State) (f : Fwd) : State := (s.inc brP BR_CNT_NO_DEST_COUNT).endFwd f rspUnmapped 0 false

/-- A non-posted request of held service, a fence or a poll: sent, or waiting behind the requests of its window for a tag (R368). -/
def State.forward (s : State) (f : Fwd) : State :=
  if !s.live f.frame.hdr.dst then s.noLive f
  else match (if s.br.waits.any fun x => decide (x.win = f.win) then none else s.sendTag f) with
    | some t => s.sendFwd f t
    | none => { s with br := { s.br with waits := s.br.waits ++ [f] } }

/-! ### Posted writes (R380, R382) -/

/-- An entry of the posted-write error log (R382). -/
def State.pwLog (s : State) (cause rsp hub w wseq off : Nat) : State :=
  let s0 := (s.fs brP (winF BR_WIN_FENCE_ERR w) 1).raise brP EV_BR_LATE_WRITE
  let total := s0.fg brP BR_PWLOG_STAT_TOTAL
  if (total + 65536 - s0.fg brP BR_PWLOG_ACK_ACK) % 65536 = 32 then
    (s0.inc brP BR_PWLOG_STAT_DROPPED).raise brP EV_BR_LOG_OVERFLOW
  else
    let d := 0x10 * (total % 32)
    let w0 := BR_PWLOG0_CAUSE.set cause (BR_PWLOG0_RSP.set rsp (BR_PWLOG0_HUB.set hub (BR_PWLOG0_WIN.set w 0)))
    let s1 := (s0.wr brP (BR_PWLOG0 + d) w0).wr brP (BR_PWLOG1 + d) (BR_PWLOG1_OFFSET32.set (off / 2 ^ 32) (BR_PWLOG1_WSEQ.set wseq 0))
    let s2 := (s1.wr brP (BR_PWLOG2 + d) (BitVec.ofNat 32 off)).wr brP (BR_PWLOG3 + d) (BitVec.ofNat 32 (s0.stNs s0.now))
    s2.addWrap brP BR_PWLOG_STAT_TOTAL 1

/-- A posted write through window `w`: queued, and complete (R365, R380). -/
def State.postWrite (s : State) (w hub off : Nat) (data : Word) (be : BitVec 4) : State :=
  let wseq := (s.win BR_WIN_CFG_WSEQ w + 1) % 65536
  let f := s.reqFrame w hub off 0x05 (wrPayload w (!s.br.synced.contains w) wseq data be)
  let s1 := s.fs brP (winF BR_WIN_CFG_WSEQ w) wseq
  let s2 : State := { s1 with br := { s1.br with
    synced := if s1.br.synced.contains w then s1.br.synced else s1.br.synced ++ [w]
    posted := if s1.br.posted.contains w then s1.br.posted else s1.br.posted ++ [w] } }
  s2.originate portBridge f

/-- A waiting request is a posted write (R367). -/
def Fwd.posted (f : Fwd) : Bool := decide (f.frame.hdr.mtype = 0x05)

/-- The first request of a list that may be sent, with its tag, and the others. A posted write needs no tag. -/
def State.firstSend (s : State) : List Fwd → Option (Fwd × Nat × List Fwd)
  | [] => none
  | f :: l => match (if f.posted then (if s.winHeld f.win then none else some 0) else s.sendTag f) with
    | some t => some (f, t, l)
    | none => (s.firstSend l).map fun x => (x.1, x.2.1, f :: x.2.2)

/-- FORWARD_REQUEST_SEND (R368). -/
def execForwardRequestSend (s : State) : Out :=
  .next (match s.firstSend s.br.waits with
    | none => s
    | some (f, t, l) =>
      let s1 : State := { s with br := { s.br with waits := l } }
      if f.posted then
        (s1.postWrite f.win f.frame.hdr.dst f.frame.hdr.arg (BitVec.ofNat 32 (leAt f.frame.payload 4 4))
          (BitVec.ofNat 4 (leAt f.frame.payload 0 1))).endFwd f rspOk 0 false
      else if s1.live f.frame.hdr.dst then s1.sendFwd f t else s1.noLive f)

/-- A tag's request in the core: admitted, refused (R542), or discarded because its destination is no longer live (R370). -/
def State.reqJudged (s : State) (f : Frame) (admitted : Bool) : State :=
  match s.tagOf f.hdr.tag with
  | none => s
  | some x =>
    if x.phase ≠ .unsent ∨ x.fwd.frame ≠ f then s
    else if admitted then s.setTag f.hdr.tag (some { x with phase := .sent })
    else if s.live f.hdr.dst then s.setTag f.hdr.tag (some { x with phase := .again })
    else (s.setTag f.hdr.tag none).noLive x.fwd

/-- What the bridge makes of its frame's fate at the core: `s` before the head cell's write, `t` after (R382, R542). -/
def State.brFed (s t : State) : State := match s.ingress.getD portBridge [] with
  | [] => t
  | x :: _ =>
    let h := x.frame.hdr
    if x.soft || (s.ing portBridge).busy || !(t.ing portBridge).busy || h.cls != .T then t
    else if h.mtype = 0x00 ∨ h.mtype = 0x01 ∨ h.mtype = 0x04 ∨ h.mtype = 0x06 then t.reqJudged x.frame (t.ing portBridge).stored
    else if h.mtype = 0x05 ∧ !(t.ing portBridge).stored then
      let w := leAt x.frame.payload 1 1 % 32
      let wseq := leAt x.frame.payload 2 2
      if h.dst < 120 ∧ !s.live h.dst then t.pwLog 1 rspUnmapped h.dst w wseq h.offset else t.pwLog 2 rspRemote h.dst w wseq h.offset
    else t

/-- CORE_HEAD_CELL_WRITE (R174). -/
def execCoreHeadCellWrite (p : CorePort) (s : State) : Out :=
  .next ((if p.val = portBridge then s.brFed (s.headWrite portBridge) else s.headWrite p.val).sweep)

/-- CORE_DEFERRED_WRITE (R170). -/
def execCoreDeferredWrite (p : CorePort) (s : State) : Out :=
  .next (
    (if p.val = portBridge && !(s.ing portBridge).busy then s.brFed (s.deferredWrite portBridge) else s.deferredWrite p.val).sweep)

/-! ### Forwarded accesses (R363-R379) -/

/-- A RETRY answered (R379). -/
def State.retry (s : State) (who : Initiator) : State := (s.inc brP BR_CNT_RETRY_COUNT).finish who rspRetry 0

/-- The slot that serves an identical access (R377). -/
def State.slotFor (s : State) (spi : Bool) (a : Nat) (write : Bool) (data : Word) (be : BitVec 4) : Option Nat :=
  (List.range 16).find? fun k => (s.slot k).any fun x =>
    (x.spi == spi) && decide (x.addr = a) && (x.write == write) && (!write || (decide (x.data = data) && decide (x.be = be)))

/-- A retry-mode access to an occupied slot (R377). -/
def State.slotAgain (s : State) (who : Initiator) (k : Nat) (x : Slot) : State :=
  if x.state = 2 ∨ x.state = 5 then (s.setSlot k none).finish who x.rsp x.held
  else if x.state ≠ 3 then s.retry who
  else if !s.live x.hub then ((s.setSlot k none).inc brP BR_CNT_NO_DEST_COUNT).finish who rspUnmapped 0
  else
    let f : Fwd := { win := x.win, holder := .slot k, frame := s.reqFrame x.win x.hub x.off 0x00 [] }
    match s.sendTag f with
    | none => s.retry who
    | some t => ((s.setSlot k (some { x with state := 4 })).sendFwd f t).retry who

/-- A retry-mode access that claims a slot and sends its request (R377, R379). -/
def State.slotClaim (s : State) (who : Initiator) (a w hub off : Nat) (write : Bool) (data : Word) (be : BitVec 4) : State :=
  if !s.live hub then (s.inc brP BR_CNT_NO_DEST_COUNT).finish who rspUnmapped 0
  else match (List.range 16).find? fun k => (s.slot k).isNone with
    | none => s.retry who
    | some k =>
      let fr := if write then s.reqFrame w hub off 0x04 (wrPayload w false 0 data be) else s.reqFrame w hub off 0x01 []
      let f : Fwd := { win := w, holder := .slot k, frame := fr }
      match s.sendTag f with
      | none => s.retry who
      | some t =>
        let x : Slot := { spi := decide (who = .spi), addr := a, write := write, data := data, be := be, hub := hub, off := off, win := w, state := 1 }
        ((s.setSlot k (some x)).sendFwd f t).retry who

/-- The port is in retry mode (R375). -/
def State.retryMode (s : State) (who : Initiator) : Bool :=
  (decide (who = .host) && s.fb brP BR_CTRL_RETRY_HOST) || (decide (who = .spi) && s.fb brP BR_CTRL_RETRY_SPI)

/-- A forwarded access through window `w` (R22, R365, R367, R374-R379). While the core has not reported READY it completes with NOT_READY
(R14, R86). -/
def State.farAccess (s : State) (who : Initiator) (a w hub off : Nat) (write : Bool) (data : Word) (be : BitVec 4) : State :=
  let posted := write && decide (s.win BR_WIN_CFG_POSTED w = 1)
  let retry := s.retryMode who
  if !s.ready 0x010 || s.bare then s.finish who rspNotReady 0
  else if decide (120 ≤ hub) && !posted then s.finish who rspUnmapped 0
  else if posted then
    if s.winHeld w then
      if retry then s.retry who
      else { s with br := { s.br with waits := s.br.waits ++
        [{ win := w, holder := .access who, frame := s.reqFrame w hub off 0x05 (wrPayload w false 0 data be) }] } }
    else (s.postWrite w hub off data be).finish who rspOk 0
  else if retry then
    if !write && decide (s.win BR_WIN_CFG_SIDE_EFFECT w = 1) then (s.inc brP BR_CNT_REFUSED_COUNT).finish who rspSideEffect 0
    else match s.slotFor (decide (who = .spi)) a write data be with
      | some k => (match s.slot k with
        | some x => s.slotAgain who k x
        | none => s)
      | none => s.slotClaim who a w hub off write data be
  else
    let fr := if write then s.reqFrame w hub off 0x04 (wrPayload w false 0 data be) else s.reqFrame w hub off 0x00 []
    s.forward { win := w, holder := .access who, frame := fr }

/-! ### Timers of requests -/

/-- TRANSACTION_TIMEOUT (R370): the access ends with TIMEOUT, a request still at the core port is withdrawn, and the tag is quarantined. -/
def execTransactionTimeout (tag : Tag) (s : State) : Out :=
  .next (match s.tagOf tag.val with
    | none => s
    | some x =>
      if x.phase = .quarantined then s
      else
        let q := s.ingress.getD portBridge []
        let s1 : State := if x.phase = .unsent then
          { s with ingress := s.ingress.put portBridge (q.filter fun y => y.soft || decide (y.frame ≠ x.fwd.frame)) [] } else s
        let s2 := (s1.setTag tag.val (some { x with phase := .quarantined })).inc brP BR_CNT_TIMEOUT_COUNT
        (s2.raise brP EV_BR_TIMEOUT).endFwd x.fwd rspTimeout 0 false)

/-- TAG_QUARANTINE_END (R370). -/
def execTagQuarantineEnd (tag : Tag) (s : State) : Out :=
  .next (match s.tagOf tag.val with
    | some x => if x.phase = .quarantined then s.setTag tag.val none else s
    | none => s)

/-- REQUEST_RESEND (R369, R542). -/
def execRequestResend (tag : Tag) (s : State) : Out :=
  .next (match s.tagOf tag.val with
    | some x => if x.phase = .again then
        ((s.setTag tag.val (some { x with phase := .unsent })).inc brP BR_CNT_RESEND_COUNT).originate portBridge x.fwd.frame
      else s
    | none => s)

/-- SLOT_EXPIRED (R378). -/
def execSlotExpired (slot : Fin 16) (s : State) : Out :=
  .next (match s.slot slot.val with
    | none => s
    | some x =>
      if x.state ≠ 2 ∧ x.state ≠ 3 ∧ x.state ≠ 5 then s
      else
        let s1 := ((s.setSlot slot.val none).inc brP BR_CNT_SLOT_EXP_COUNT).raise brP EV_BR_SLOT_EXPIRED
        if x.state = 5 ∧ x.rsp = rspOk then s1.lostTake x.hub x.off x.held else s1)

/-! ### Completions and late-write errors -/

/-- The first frame the bridge has received, where it is a class T frame with this MTYPE. -/
def State.brTake (s : State) (mtype : Nat) : Option (Frame × State) := match s.inboxTake portBridge with
  | some (f, t) => if f.hdr.cls = .T ∧ f.hdr.mtype = mtype then some (f, t) else none
  | none => none

/-- A completion matched to its tag (R369, R370, R377). -/
def State.completion (s : State) (f : Frame) : State :=
  let h := f.hdr
  let late := (s.inc brP BR_CNT_LATE_CPL_COUNT).raise brP EV_BR_LATE_CPL
  let tag := h.argBits 0 8
  let rsp := h.argBits 8 3
  match s.tagOf tag with
  | none => late
  | some x =>
    if x.phase ≠ .sent then late
    else if rsp = rspRetry then s.setTag tag (some { x with phase := .again })
    else
      let data : Word := match x.fwd.holder with
        | .fence _ => BitVec.ofNat 32 (h.argBits 16 16)
        | _ => BitVec.ofNat 32 (leAt f.payload 0 4)
      (s.setTag tag none).endFwd x.fwd rsp (if rsp = rspOk ∨ x.fwd.holder.isFence = true then data else 0) (decide (h.argBits 11 1 = 1))

/-- COMPLETION_RECEIVED (R377). -/
def execCompletionReceived (s : State) : Out :=
  .next (match s.brTake 0x08 with
    | some (f, t) => t.completion f
    | none => s)

/-- LATE_WR_RECEIVED (R382). -/
def execLateWrReceived (s : State) : Out :=
  .next (match s.brTake 0x09 with
    | some (f, t) => t.pwLog 0 (f.hdr.argBits 24 3) f.hdr.src (f.hdr.argBits 0 8 % 32) (f.hdr.argBits 8 16) (leAt f.payload 0 5 % 2 ^ 33)
    | none => s)

/-! ### Fences, signals and the software frame -/

/-- A write of BR_WIN_FENCE (R383). A fence asked for while a commit holds the window waits for the commit point (R367). -/
def State.fenceWrite (s : State) (w : Nat) (v : Word) : State :=
  if BR_WIN_FENCE_GO.get v = 0 ∨ s.win BR_WIN_FENCE_BUSY w = 1 then s
  else
    let quick := s.fenceEnd w (if s.win BR_WIN_FENCE_ERR w = 1 then rspRemote else rspOk)
    if !s.br.posted.contains w then quick
    else match s.winHub w with
      | none => { quick with br := { quick.br with posted := quick.br.posted.filter (· != w) } }
      | some hub =>
        (s.fs brP (winF BR_WIN_FENCE_BUSY w) 1).forward
          { win := w, holder := .fence w, frame := s.reqFrame w hub 0 0x06 [], late := s.winHeld w }

/-- FENCE_START (R383). -/
def execFenceStart (who : Initiator) (win : Win) (v : Word) (s : State) : Out :=
  .next (s.write who brP (BR_WIN_FENCE + 0x10 * win.val) fun t => t.fenceWrite win.val v)

/-- A write of BR_SIG_SEND (R386, R388). -/
def State.sigSend (s : State) (v : Word) : State :=
  let sig := BR_SIG_SEND_SIG.get v
  if BR_SIG_SEND_GO.get v = 0 then s
  else if BR_SIG_SEND_VIA_WIN.get v = 1 then
    match s.winHub (BR_SIG_SEND_WIN.get v) with
    | none => s.inc brP BR_CNT_NO_DEST_COUNT
    | some hub => s.originate portBridge (signalFrame .T hub (s.win BR_WIN_TGT_STREAM (BR_SIG_SEND_WIN.get v)) s.hubId sig 0xFFF)
  else s.originate portBridge (signalFrame (if BR_SIG_SEND_CLASS_T.get v = 1 then .T else .E) (BR_SIG_SEND_HUB.get v)
    (BR_SIG_SEND_STREAM.get v) s.hubId sig 0xFFF)

/-- SIGNAL_SEND (R388). -/
def execSignalSend (who : Initiator) (v : Word) (s : State) : Out := .next (s.write who brP BR_SIG_SEND fun t => t.sigSend v)

/-- Two frames of one flow (R142). -/
def Frame.sameFlow (f g : Frame) : Bool :=
  decide (f.hdr.src = g.hdr.src) && decide (f.hdr.dst = g.hdr.dst) && decide (f.hdr.stream = g.hdr.stream)

/-- The requests that have come and have not been performed yet: served, or held for a bank or the boundary. -/
def State.owed (s : State) : List Frame := s.br.serving ++ (s.mem.held.filterMap fun h => h.req) ++ s.scan.waits.filterMap fun e => e.2

/-- SIGNAL_RECEIVED (R387): the signal at the front of the frames the bridge has received is raised; one of class T after the earlier
requests of its flow have been performed (R385). -/
def execSignalReceived (s : State) : Out :=
  .next (match s.inboxTake portBridge with
    | none => s
    | some (f, t) =>
      if f.hdr.mtype ≠ 0x18 ∨ (f.hdr.cls ≠ .T ∧ f.hdr.cls ≠ .E) then s
      else if f.hdr.cls = .T ∧ s.owed.any f.sameFlow then s
      else
        let sig := f.hdr.argBits 0 8
        let off := BR_SIG_PEND + sig / 32 * 4
        let t1 := t.wr brP off (t.rd brP off ||| BitVec.ofNat 32 (2 ^ (sig % 32)))
        t1.wr brP BR_SIG_LAST (BR_SIG_LAST_PAGE.set (f.hdr.argBits 8 12) (BR_SIG_LAST_SRC.set f.hdr.src (BR_SIG_LAST_SIG.set sig 0))))

/-- Bytes of the frame buffer. -/
def State.txfBytes (s : State) (n : Nat) : List Byte :=
  ((List.range ((n + 3) / 4)).flatMap fun k => leBytes (s.rd brP (BR_TXF_BUF + 4 * k)).toNat 4).take n

/-- A write of BR_TXF_CMD (R391). -/
def State.txfWrite (s : State) (v : Word) : State :=
  let n := BR_TXF_CMD_P.get v
  let q := BR_TXF_CMD_QUEUE.get v
  let direct := BR_TXF_CMD_DIRECT.get v = 1
  let h := Hdr.ofBytes (s.txfBytes 12)
  let refuse (r : Nat) : State := (s.fs brP BR_TXF_STATUS_RESULT r).raise brP EV_BR_TXF_REFUSED
  if BR_TXF_CMD_GO.get v = 0 then s
  else if s.fb brP BR_TXF_STATUS_BUSY then s.fs brP BR_TXF_STATUS_RESULT 4
  else if h.cls.maxP < n ∨ n % 4 ≠ 0 then refuse 2
  else if direct ∧ (q < 12 ∨ 959 < q) then refuse 3
  else
    let f : Frame := { hdr := { h with src := s.hubId, ll := false, wraps := 0 }, payload := (s.txfBytes (12 + n)).drop 12 }
    let s1 := (s.fs brP BR_TXF_STATUS_BUSY 1).fs brP BR_TXF_STATUS_RESULT 0
    s1.stage portBridge { frame := f, route := .desc (if direct then descDirect q f else descRing f), soft := true }

/-- TXF_SEND (R391). -/
def execTxfSend (who : Initiator) (v : Word) (s : State) : Out := .next (s.write who brP BR_TXF_CMD fun t => t.txfWrite v)

/-- TXF_WRITE_DONE (R391): once the frame has left the port's ingress. -/
def execTxfWriteDone (s : State) : Out :=
  .next (
    let waiting := ((s.ingress.getD portBridge []).any (·.soft)) || (s.ing portBridge).busy
    if s.fb brP BR_TXF_STATUS_BUSY && !waiting then (s.fs brP BR_TXF_STATUS_BUSY 0).fs brP BR_TXF_STATUS_RESULT 1 else s)

/-- BR_CTRL.CLR_CNT: the counters at 0x080 to 0x09C. -/
def State.brClrCnt (s : State) : State := (List.range 8).foldl (fun (t : State) k => t.wr brP (BR_CNT_TIMEOUT + 4 * k) 0) s

/-- BR_CLR_CNT. -/
def execBrClrCnt (who : Initiator) (s : State) : Out := .next (s.write who brP BR_CTRL State.brClrCnt)

/-! ### What the page shows -/

/-- BR_STATUS, the slots' registers and BR_SLOT_AGE. A free slot's registers read 0. -/
def State.brRead (s : State) (off : Nat) : Option Word :=
  if off = BR_STATUS then
    some (BR_STATUS_SLOTS.set s.br.slots.length (BR_STATUS_TAGS_OUT.set s.br.tags.length (BR_STATUS_TAGS_IN.set s.br.serving.length 0)))
  else if 0x300 ≤ off ∧ off < 0x400 then
    match s.slot ((off - 0x300) / 16) with
    | none => some 0
    | some x => some (
      if off % 16 = 0 then BitVec.ofNat 32 x.off
      else if off % 16 = 4 then
        BR_SLOT_INFO_STATE.set x.state (BR_SLOT_INFO_PORT.set (bit x.spi) (BR_SLOT_INFO_WRITE.set (bit x.write) (BR_SLOT_INFO_RSP.set x.rsp
          (BR_SLOT_INFO_HUB.set x.hub (BR_SLOT_INFO_OFFSET32.set (x.off / 2 ^ 32) (BR_SLOT_INFO_TAG.set x.tag 0))))))
      else if off % 16 = 8 then x.held
      else if x.state = 2 ∨ x.state = 3 ∨ x.state = 5 then
        BitVec.ofNat 32 (min 65535 (((s.now - x.born) / (160000 : Int)).toNat))
      else 0)
  else none

end Sys2Proof.Machine
end

