-- ==== Sys2Proof/Machine/Access.lean ====
section
/-! DEFINITION. The registers as an access reaches them, page by page, and the local map of R23: register pages, scratchpad, canopy views
and MRAM read window. Every register with an effect of its own is sent to the operation that its command row uses. -/
namespace Sys2Proof.Machine

/-! ### Writes -/

/-- A write of TW_CMD: its actions from bit 0 up. -/
def State.twCmdWrite (s : State) (v : Word) : State :=
  let s1 := if TW_CMD_SWAP.get v = 1 then s.swapRequest else s
  let s2 := if TW_CMD_RELEASE.get v = 1 then s1.twRelease else s1
  let s3 := if TW_CMD_RESET_TWIN.get v = 1 then s2.twResetTwin else s2
  let s4 := if TW_CMD_RESYNC.get v = 1 then s3.twResync else s3
  if TW_CMD_CLR_CNT.get v = 1 then s4.twClrCnt else s4

/-- A plain write, and the counters of the page cleared where `clr` is written 1. -/
def State.plainClr (s : State) (pre : Bool) (p off : Nat) (v : Word) (clr : Fld) (op : State → State) : State :=
  let s1 := s.plain pre p off v
  if clr.get v = 1 then op s1 else s1

/-- The lane port of a page. -/
def lanesOf (p : Nat) : LanePort := if p = 0x008 then .east else if p = 0x009 then .west else .twin
def ringPage (p : Nat) : RingPort := if p = 0x008 then .east else .west

/-- A write of an engine page's mode registers with an effect of their own. -/
def State.enWrite (s : State) (pre : Bool) (p off : Nat) (v : Word) : State :=
  let m := s.enMode p
  if off = EN_MODE then s.enModeWrite pre p v
  else if m = 4 ∧ off = DI_OUT then s.diOut pre p v
  else if m = 3 ∧ off = SY_CMD then s.syCmdWrite p v
  else if m = 2 ∧ off = PB_CMD then s.pbCmdWrite p v
  else s.plain pre p off v

/-- A write of a ring port's page. -/
def State.rpWrite (s : State) (pre : Bool) (p off : Nat) (v : Word) : State :=
  if off = LN_CTRL then s.lnCtrlWrite (lanesOf p) v
  else if off = LN_SPARE_CMD then s.lnSpareWrite (lanesOf p) v
  else if off = RP_CTRL then (if RP_CTRL_CLR_CNT.get v = 1 then s.rpClrCnt (ringPage p) else s)
  else s.plain pre p off v

/-- A write of a queue page. -/
def State.qWrite (s : State) (pre : Bool) (p off : Nat) (v : Word) : State :=
  if off = Q_FLUSH then s.qFlushWrite p v
  else if off = Q_CTRL then (if Q_CTRL_CLR_CNT.get v = 1 then s.qClrCnt p else s)
  else if p = 0x014 ∧ MB_PUSH ≤ off ∧ off < MB_PUSH + 256 then s.mbPush ((off - MB_PUSH) / 4) v
  else s.plain pre p off v

/-- A write of page 0x020. BR_TXF_BUF is closed while BUSY is 1 (R391). -/
def State.brWrite (s : State) (pre : Bool) (off : Nat) (v : Word) : State :=
  if off = BR_CTRL then s.plainClr pre brP off v BR_CTRL_CLR_CNT State.brClrCnt
  else if 0x100 ≤ off ∧ off < 0x300 ∧ off % 16 = 12 then s.fenceWrite ((off - 0x100) / 16) v
  else if off = BR_SIG_SEND then s.sigSend v
  else if off = BR_TXF_CMD then s.txfWrite v
  else if BR_TXF_BUF ≤ off ∧ off < BR_TXF_BUF + 528 ∧ s.fb brP BR_TXF_STATUS_BUSY = true then s
  else s.plain pre brP off v

/-- A write of page 0x000. -/
def State.gsWrite (s : State) (pre : Bool) (off : Nat) (v : Word) : State :=
  if off = GS_HOLD then s.holdWrite v
  else if off = GS_SOFT_RESET then s.softReset v
  else if off = GS_WDOG_KICK then s.wdogKick v
  else s.plain pre 0x000 off v

/-- A write of the registers with an effect of their own, or a plain one, that has reached the block. -/
def State.blockWrite (s : State) (pre : Bool) (p off : Nat) (v : Word) : State := match kindOf p with
  | some .gs => s.gsWrite pre off v
  | some .opt => if off = FUSE_PROG_CTRL then s.fuseProg v else s.plain pre p off v
  | some .ft => if off = FT_CTRL then s.ftCtrlWrite pre v else if off = FT_RELEASE then s.ftReleaseWrite v else s.plain pre p off v
  | some .wr => if off = WR_CMD then s.wrCmdWrite v else if off = WR_REF_CMD then s.refCmd v
      else if off = WR_PLL_CMD then s.pllCmd v else s.plain pre p off v
  | some .rp => s.rpWrite pre p off v
  | some .rc => if off = RC_RST_SEND then s.rstSend v
      else if off = RC_CTRL then ((s.plain pre p off v).wrapFrozen .east).wrapFrozen .west
      else if RC_RST_CRED ≤ off ∧ off < RC_RST_CRED + 16 then s.wr p off v else s.plain pre p off v
  | some .core => if off = CORE_CTRL then s.plainClr pre p off v CORE_CTRL_CLR_CNT State.coreClrCnt
      else if off = CORE_SPARE_CMD then s.coreSpareCmd v else s.plain pre p off v
  | some .q => s.qWrite pre p off v
  | some .tm => if off = TM_CTRL then s.tmCtrlWrite v else if off = TM_SMP_CMD then s.smpWrite v else s.plain pre p off v
  | some .sc => if off = SC_CTRL then (if SC_CTRL_CLR_CNT.get v = 1 then s.scClrCnt else s)
      else if off = SC_OPUB_SEND then s.scOpubSend v else s.plain pre p off v
  | some .br => s.brWrite pre off v
  | some .hp => if off = HOST_CFG then ({ s with gs := { s.gs with cfgHost := true } } : State).plain pre p off v else s.plain pre p off v
  | some .tw => if off = LN_CTRL then s.lnCtrlWrite .twin v else if off = LN_SPARE_CMD then s.lnSpareWrite .twin v
      else if off = TW_CMD then s.twCmdWrite v else s.plain pre p off v
  | some .fd => if off = FD_CTRL then s.plainClr pre p off v FD_CTRL_CLR_CNT State.fdClr else s.plain pre p off v
  | some .pp => if off = PP_CTRL then s.ppCtrl (p - 0x030) v else s.plain pre p off v
  | some .cl => if off = CL_CTRL then s.clCtrlWrite (p - 0x050) v else s.plain pre p off v
  | some .ec => if off = EC_CTRL then s.plainClr pre p off v EC_CTRL_CLR_CNT (fun t => t.ecClrCnt (p - 0x080))
      else if off = EC_MIG_CMD then s.ecMigWrite (p - 0x080) v else s.plain pre p off v
  | some .en => s.enWrite pre p off v
  | some .mem => if off = MEM_CTRL then s.plainClr pre p off v MEM_CTRL_CLR_CNT State.memClrCnt
      else if off = MEM_BANK_CMD then s.bankCmd v else if off = MEM_MARCH_CMD then s.marchCmd v else s.plain pre p off v
  | some .up => if off = UP_CTRL then s.upCtrlWrite v else if off = UP_CMD then s.updCmd v else s.plain pre p off v
  | _ => s.plain pre p off v

/-- A write of the common header that has reached the block (R41-R47, R60). -/
def State.headerWrite (s : State) (pre : Bool) (p off : Nat) (v : Word) : State :=
  if off = PAGE_CTRL then s.pageCtrl p v
  else if off = EVT_STATUS then s.wrEvtStatus p v
  else if off = EVT_ENABLE then (s.wrEvtEnable p v).mirrorCfg 0 p EVT_ENABLE v
  else if off = EVT_FORCE then s.force p v
  else if off = COMPAT then (if p = 0x018 then s.tmCompat pre v else s.wrCompat pre p v)
  else s

/-- A register write that has reached its block. -/
def State.regApply (s : State) (pre : Bool) (p off : Nat) (v : Word) : State :=
  if off < 0x040 then s.headerWrite pre p off v else s.blockWrite pre p off v

/-- A register write by an initiator: to the page that its number reaches (R284), over the control link for a supervisor page (R12). -/
def State.regWrite (s : State) (who : Initiator) (p0 off : Nat) (v : Word) : State :=
  let p := s.enAlias p0
  s.write who p off fun t => t.viaSup who p off v fun u => u.regApply (decide (who = .preload)) p off v

/-- REGISTER_WRITE (R49). -/
def execRegisterWrite (who : Initiator) (page off : Nat) (v : Word) (s : State) : Out := .next (s.regWrite who page off v)

/-! ### Reads -/

/-- CORE_PORT_DOWN and CORE_POOL. -/
def State.coreRead (s : State) (off : Nat) : Option Word :=
  if off = CORE_POOL then some (CORE_POOL_FREE.set s.freeCells (CORE_POOL_SHARED.set s.sharedSpace 0))
  else if off = CORE_PORT_DOWN then some (BitVec.ofNat 32 ((List.range 30).foldl (fun n p => setBit n p (s.portDown p)) 0))
  else none

/-- EN_STATUS. -/
def State.enStatus (s : State) (p : Nat) : Word :=
  let n := enCluster p
  match s.servedBy n (enPos p) with
  | none => s.rd p EN_STATUS
  | some c =>
    let x := s.chan n c
    let m := s.enMode p
    let xf := x.xfer.isSome
    let lvl := (if m = 4 then x.acc else x.lvl) == some true
    let txb := x.tx.isSome || xf || !x.due.isEmpty || decide (s.now < x.txEnd.getD s.now)
    EN_STATUS_TX_SPACE.set x.space (EN_STATUS_CHAN.set c (EN_STATUS_SERVING.set 1 (EN_STATUS_TX_BUSY.set (bit txb)
      (EN_STATUS_RX_BUSY.set (bit (x.rx.isSome || x.pb.inFrame || (xf && decide (m = 3)))) (EN_STATUS_LEVEL.set (bit lvl)
        (EN_STATUS_MODE.set m 0))))))

/-- EN_STATUS with FOLLOWING, which a spare shows. -/
def State.enStatusRead (s : State) (p : Nat) : Word :=
  let w := s.enStatus p
  if enPos p = 8 ∧ (s.servedBy (enCluster p) 8).isNone = true ∧ (s.followed (enCluster p)).isSome = true then EN_STATUS_FOLLOWING.set 1 w else w

/-- What a queue page's computed registers read, its peeks among them. -/
def State.qRead (s : State) (p off : Nat) : Option Word :=
  if off = QRP_PEEK then some (s.qrpTake p .ok).2
  else if p = 0x011 ∧ off = Q_FROZEN then some (BitVec.ofNat 32 s.frozenBits)
  else if QSTAT ≤ off then some (s.qstat (256 * (p - 0x011) + (off - QSTAT) / 4))
  else if p = 0x014 ∧ MB_NONEMPTY ≤ off ∧ off < MB_NONEMPTY + 8 then some (s.mbNonempty ((off - MB_NONEMPTY) / 4))
  else if p = 0x014 ∧ 0xB00 ≤ off ∧ off < 0xC00 then some (s.mbPeek ((off - 0xB00) / 4))
  else none

/-- The registers whose value the state gives at the read. -/
def State.computed (s : State) (p off : Nat) : Option Word := match kindOf p with
  | some .gs => if 0x200 ≤ off ∧ off < 0x400 ∧ off % 8 = 4 then some (s.distRead1 ((off - 0x200) / 8)) else none
  | some .opt =>
    if off = FUSE_SERIAL_LO then some (s.gs.fuseHeld.getD 0 0) else if off = FUSE_SERIAL_HI then some (s.gs.fuseHeld.getD 1 0)
    else if off = FUSE_PART then some ((s.gs.fuseHeld.getD 2 0) &&& 0xFFFF)
    else if FUSE_RAW ≤ off ∧ off < FUSE_RAW + 512 then some (s.gs.fuseHeld.getD ((off - FUSE_RAW) / 4) 0) else none
  | some .ft => if off = FT_ERR then some (FT_ERR_PIN.set (bit (decide (s.errN = .low))) (s.rd p off)) else none
  | some .rp => if off = RP_CREDIT_AVAIL then some (s.creditAvail (ringPage p)) else none
  | some .rc => if off = RC_STATE then some s.rcState
      else if RC_TOPO ≤ off ∧ off < RC_TOPO + 480 then some (s.topoWord ((off - RC_TOPO) / 4)) else none
  | some .core => s.coreRead off
  | some .q => s.qRead p off
  | some .tm => s.tmRead off
  | some .br => s.brRead off
  | some .tw => if off = TW_STATUS then some (TW_STATUS_RING_GUY.set (bit s.ringGuy) (TW_STATUS_TWIN_GUY.set (bit s.twinGuy) (s.rd p off)))
      else none
  | some .en => if off = EN_STATUS then some (s.enStatusRead p) else if off = 0x8A0 then some (s.rd p EN_DI_COUNT) else none
  | some .up => s.upRead off
  | _ => none

/-- A read of a supervisor page returns the status copy (R12), with READY, RUNNING and the commit as the page has them. -/
def State.supRead (s : State) (p off : Nat) : Word :=
  if off = PAGE_STATE then PAGE_STATE_NR_REASON.set (s.nrReason p) (s.plainRead p off)
  else ({ s with regs := s.supv.copy, shad := s.supv.copySh } : State).plainRead p off

/-- A register read that has reached its block: its effect, and what it returns. -/
def State.regValue (s : State) (p off : Nat) : State × Word :=
  if supPage p then (s, s.supRead p off)
  else if off < 0x040 then (s, if off = PAGE_STATE then PAGE_STATE_NR_REASON.set (s.nrReason p) (s.plainRead p off) else s.plainRead p off)
  else match kindOf p with
    | some .gs => if off = GS_AON_LO then s.aonRead
        else if 0x200 ≤ off ∧ off < 0x400 ∧ off % 8 = 0 then distRead ((off - 0x200) / 8) s
        else (s, (s.computed p off).getD (s.plainRead p off))
    | some .q => if off = QRP_TAKE then s.qrpTake p .ok
        else if p = 0x014 ∧ MB_POP ≤ off ∧ off < MB_POP + 256 then s.mbPop ((off - MB_POP) / 4) .ok
        else (s, (s.computed p off).getD (s.plainRead p off))
    | some .en => if off = EN_DI_COUNT then s.diCountTake p else (s, (s.computed p off).getD (s.plainRead p off))
    | _ => (s, (s.computed p off).getD (s.plainRead p off))

/-- A register read by an initiator. -/
def State.regRead (s : State) (who : Initiator) (p0 off : Nat) : State :=
  let p := s.enAlias p0
  s.read who p off fun t => t.regValue p off

/-! ### Canopy views (R23-R27, R347) -/

/-- The bits of a group that word `w` of the spread view carries under byte enables, and a written word at their place (R24). -/
def spreadMask (w : Nat) (be : BitVec 4) : BitVec 96 :=
  let g (lo hi : Bool) : Nat := (if lo then 0xFF else 0) + (if hi then 0xF00 else 0)
  BitVec.ofNat 96 ((g (be.getLsbD 0) (be.getLsbD 1) + 4096 * g (be.getLsbD 2) (be.getLsbD 3)) <<< (24 * (w % 4)))
def spreadVal (w : Nat) (data : Word) : BitVec 96 :=
  BitVec.ofNat 96 ((data.toNat % 4096 + 4096 * (data.toNat / 65536 % 4096)) <<< (24 * (w % 4)))

/-- Word `w` of the spread view of a group's value. -/
def spreadWord (w : Nat) (v : BitVec 96) : Word :=
  BitVec.ofNat 32 (grainOf v (2 * (w % 4)) + 65536 * grainOf v (2 * (w % 4) + 1))

/-- A software write to the canopy: made and answered OK, or in the guard held with its access until the boundary (R347). -/
def State.canWrite (s : State) (who : Initiator) (img : Image) (m : Nat) (mask v : BitVec 96) (req : Option Frame) :
    State × Option (Nat × Word) :=
  let t := s.softPut img m mask v
  if s.fb 0x01C SC_STATUS_GUARDING && !(decide (img = .input) && decide (m < 96)) then
    ({ t with scan := { t.scan with waits := t.scan.waits ++ [(who, req)] } }, none)
  else (t, some (rspOk, 0))

/-- The visible copy of a group, read by software: REMOTE_ERROR where it holds an uncorrectable error (R347, R458). -/
def State.canRead (s : State) (img : Image) (m : Nat) : State × Option (BitVec 96) :=
  let k := grpKey img m
  let ck := s.copyKey k (s.scan.hid.getD k none).isSome
  (s.copyRead ck, if s.copyBad ck then none else some (s.grpVis k))

/-- An access to word `w` of a spread view. -/
def State.spreadAccess (s0 : State) (who : Initiator) (img : Image) (w : Nat) (write : Bool) (data : Word) (be : BitVec 4)
    (req : Option Frame) : State × Option (Nat × Word) :=
  let s := s0.touch who (!write)
  if !s.ready 0x01C then (s, some (rspNotReady, 0))
  else if write then s.canWrite who img (w / 4) (spreadMask w be) (spreadVal w data) req
  else match s.canRead img (w / 4) with
    | (t, some v) => (t, some (rspOk, spreadWord w v))
    | (t, none) => (t, some (rspRemote, 0))

/-- The pack an initiator is collecting, kept only for a word of the same group (R26). -/
def State.packFor (s0 : State) (who : Initiator) (img : Image) (m : Nat) : State × Pack :=
  match s0.scan.packs.getD who.idx none with
  | some k => if k.img = img ∧ k.group = m then (s0, k) else (s0.touch who false, { img := img, group := m })
  | none => (s0, { img := img, group := m })

/-- A write of word `j` of group `m` in the packed view (R26). -/
def State.packWrite (s0 : State) (who : Initiator) (img : Image) (m j : Nat) (data : Word) (be : BitVec 4) (req : Option Frame) :
    State × Option (Nat × Word) :=
  let (s, k) := s0.packFor who img m
  if !s.ready 0x01C then (s, some (rspNotReady, 0))
  else
    let bm : BitVec 96 := (beMask be).zeroExtend 96 <<< (32 * j)
    let k1 : Pack := { k with
      got := setBit k.got j true, mask := k.mask ||| bm, val := (k.val &&& ~~~ bm) ||| (((data.zeroExtend 96) <<< (32 * j)) &&& bm) }
    if k1.got = 7 then
      ({ s with scan := { s.scan with packs := s.scan.packs.put who.idx none none } } : State).canWrite who img m k1.mask k1.val req
    else ({ s with scan := { s.scan with packs := s.scan.packs.put who.idx (some k1) none } }, some (rspOk, 0))

/-- A read of word `j` of group `m` in the packed view (R27): word 0 takes the snapshot, the others return it while it is valid. -/
def State.packRead (s0 : State) (who : Initiator) (img : Image) (m j : Nat) : State × Option (Nat × Word) :=
  let s := (s0.packFor who img m).1
  let s : State := match s.scan.packs.getD who.idx none with
    | some k => if k.img = img ∧ k.group = m then s else s.touch who false
    | none => s
  let key := grpKey img m
  let word (v : BitVec 96) : Word := (v >>> (32 * j)).setWidth 32
  let keep : Option (Nat × BitVec 96) := (s.scan.snaps.getD who.idx none).filter fun e => decide (e.1 = key)
  let drop (t : State) : State := { t with scan := { t.scan with snaps := t.scan.snaps.put who.idx none none } }
  if !s.ready 0x01C then (if keep.isSome then s else drop s, some (rspNotReady, 0))
  else match (if j = 0 then none else keep) with
    | some e => (s, some (rspOk, word e.2))
    | none => match s.canRead img m with
      | (t, none) => (drop t, some (rspRemote, 0))
      | (t, some v) =>
        (if j = 0 then { t with scan := { t.scan with snaps := t.scan.snaps.put who.idx (some (key, v)) none } } else drop t,
          some (rspOk, word v))

/-! ### The local map (R23) -/

def mapScratch : Nat := 0x1000000
def mapSpread (img : Image) : Nat := if img = .input then 0x2000000 else 0x2010000
def mapPacked (img : Image) : Nat := if img = .input then 0x2020000 else 0x2030000
def mapMram : Nat := 0x3000000

/-- What a scratchpad access gives; one that waits for a bank's new owner is held (R452-R458). -/
def State.scratch (s0 : State) (who : Initiator) (a : Nat) (write : Bool) (data : Word) (be : BitVec 4) (req : Option Frame) :
    State × Option (Nat × Word) :=
  let s := s0.touch who (!write)
  match s.spAccess (ownerCode who) a write data be with
  | (t, some r) => (t, some r)
  | (t, none) => ({ t with mem := { t.mem with held := t.mem.held ++
      [{ who := who, addr := a, write := write, data := data, be := be, req := req }] } }, none)

/-- An access to the MRAM read window: aligned reads only. -/
def State.mramAccess (s0 : State) (who : Initiator) (a : Nat) (write : Bool) : State × Option (Nat × Word) :=
  let s := s0.touch who (!write)
  if write || decide (a % 4 ≠ 0) then (s, some (rspUnmapped, 0)) else (s, some (rspOk, BitVec.ofNat 32 (s.mle a 4)))

/-- A register access: whole aligned words (R36). -/
def State.regAccess (s : State) (who : Initiator) (off : Nat) (write : Bool) (data : Word) (be : BitVec 4) : State × Option (Nat × Word) :=
  if write && decide (be ≠ 15) && (s.ready 0x020 || decide (who = .preload)) then (s.touch who false, some (rspUnmapped, 0))
  else
    let t := if write then s.regWrite who (off / 4096) (off % 4096) data else s.regRead who (off / 4096) (off % 4096)
    (t, some ((t.ansOf who).rsp, (t.ansOf who).data))

/-- An access in the local map (R23): its response and data, or none where it is held. `req` is the request of another hub that makes it. -/
def State.localAccess (s : State) (who : Initiator) (off : Nat) (write : Bool) (data : Word) (be : BitVec 4) (req : Option Frame) :
    State × Option (Nat × Word) :=
  let unmapped : State × Option (Nat × Word) := (s.touch who (!write), some (rspUnmapped, 0))
  let view (base size : Nat) : Bool := decide (base ≤ off) && decide (off < base + size)
  let spread (img : Image) : State × Option (Nat × Word) :=
    if off % 4 ≠ 0 then unmapped else s.spreadAccess who img ((off - mapSpread img) / 4) write data be req
  let packed (img : Image) : State × Option (Nat × Word) :=
    let w := (off - mapPacked img) / 4
    if off % 4 ≠ 0 then unmapped
    else if write then s.packWrite who img (w / 3) (w % 3) data be req else s.packRead who img (w / 3) (w % 3)
  if off < 2 ^ 24 then s.regAccess who off write data be
  else if !s.ready 0x020 then (s, some (rspNotReady, 0))
  else if view mapScratch 0x80000 then s.scratch who (off - mapScratch) write data be req
  else if view (mapSpread .input) 0x10000 then spread .input
  else if view (mapSpread .output) 0x10000 then spread .output
  else if view (mapPacked .input) 0xC000 then packed .input
  else if view (mapPacked .output) 0xC000 then packed .output
  else if view mapMram 0x400000 then s.mramAccess who (off - mapMram) write
  else unmapped

/-- The answer of a local access given to its initiator, unless it is held. -/
def State.answered (who : Initiator) (x : State × Option (Nat × Word)) : State := match x with
  | (t, some (r, d)) => t.finish who r d
  | (t, none) => t

/-- CANOPY_WRITE: a write of word `word` of a spread view (R24, R347). -/
def execCanopyWrite (who : Initiator) (img : Image) (word : Nat) (data : Word) (be : BitVec 4) (s : State) : Out :=
  .next (State.answered who (if word < 16384 then s.localAccess who (mapSpread img + 4 * word) true data be none
    else (s.touch who false, some (rspUnmapped, 0))))

/-- CANOPY_PACKED_WRITE (R26). -/
def execCanopyPackedWrite (who : Initiator) (img : Image) (group : Nat) (word : Fin 3) (data : Word) (be : BitVec 4) (s : State) : Out :=
  .next (State.answered who (if group < 4096 then s.localAccess who (mapPacked img + 12 * group + 4 * word.val) true data be none
    else (s.touch who false, some (rspUnmapped, 0))))

/-- CANOPY_PACKED_READ (R27). -/
def execCanopyPackedRead (who : Initiator) (img : Image) (group : Nat) (word : Fin 3) (s : State) : Out :=
  .next (State.answered who (if group < 4096 then s.localAccess who (mapPacked img + 12 * group + 4 * word.val) false 0 15 none
    else (s.touch who true, some (rspUnmapped, 0))))

/-! ### Incoming requests (R369-R373, R544) -/

/-- The word offsets of a request. -/
def Hdr.range (h : Hdr) : List Nat := (List.range h.words).map fun i => h.offset + 4 * i

/-- A word of the local map is there: UNMAPPED or NOT_READY where it is not, else OK (R544). -/
def State.mapped (s : State) (off : Nat) (write : Bool) : Nat :=
  let view (base size : Nat) : Bool := decide (base ≤ off) && decide (off < base + size)
  let canopy := view (mapSpread .input) 0x20000 || view (mapPacked .input) 0xC000 || view (mapPacked .output) 0xC000
  if off < 2 ^ 24 then (if (kindOf (off / 4096)).isNone then rspUnmapped
    else if off % 4096 < 0x040 ∨ s.ready (s.enAlias (off / 4096)) = true then rspOk else rspNotReady)
  else if view mapScratch 0x80000 then (match s.spGates (ownerCode .ring) [(off - mapScratch) / 4] write with
    | .foreign => rspUnmapped
    | .answer r => r
    | _ => rspOk)
  else if canopy then (if s.ready 0x01C then rspOk else rspNotReady)
  else if view mapMram 0x400000 then (if write then rspUnmapped else rspOk)
  else rspUnmapped

/-- A scratchpad word of the request whose bank's handover it waits for (R454). -/
def State.reqHeld (s : State) (off : Nat) (write : Bool) : Bool :=
  decide (mapScratch ≤ off) && decide (off < mapScratch + 0x80000) &&
    decide (s.spGates (ownerCode .ring) [(off - mapScratch) / 4] write = .hold)

/-- The byte enables of word `i` of a write of `n` words (R371). -/
def wordBe (prefix0 n i : Nat) : BitVec 4 :=
  if i = 0 then BitVec.ofNat 4 (prefix0 % 16) else if i + 1 = n then BitVec.ofNat 4 (prefix0 / 16) else 15

/-- The words of a multi-word write, in order, and whether one was held in the guard; a failure while they are written ends it with
REMOTE_ERROR (R544). -/
def State.writeWords (f : Frame) : List Nat → Bool → State → State × Bool × Nat
  | [], held, s => (s, held, rspOk)
  | i :: l, held, s =>
    match s.localAccess .ring (f.hdr.offset + 4 * i) true (BitVec.ofNat 32 (leAt f.payload (4 + 4 * i) 4))
        (wordBe (leAt f.payload 0 1) f.hdr.words i) none with
    | (t, none) => State.writeWords f l true t
    | (t, some (r, _)) => if r = rspOk then State.writeWords f l held t else (t, held, rspRemote)

/-- The words of a read, in order, with the first failure's code. -/
def State.readWords : List Nat → State → State × Nat × List Byte
  | [], s => (s, rspOk, [])
  | o :: l, s =>
    match s.localAccess .ring o false 0 15 none with
    | (t, none) => (t, rspNotReady, [])
    | (t, some (r, d)) =>
      if r ≠ rspOk then (t, r, [])
      else match State.readWords l t with
        | (u, r2, ds) => (u, r2, leBytes d.toNat 4 ++ ds)

/-- A take register or its peek (R372). -/
def takeOrPeek (off : Nat) : Bool := takeAt off || (decide (0x800 ≤ off % 4096) && takeAt (off - 0x800))

/-- What the checks before a multi-word write find of word `i` (R544). -/
def State.wordCheck (s : State) (f : Frame) (i : Nat) : Nat :=
  let o := f.hdr.offset + 4 * i
  if o < 2 ^ 24 ∧ wordBe (leAt f.payload 0 1) f.hdr.words i ≠ 15 then rspUnmapped else s.mapped o true

/-- A write served. Of a request of several words one that is not aligned has no mapped word. A write held in the guard ends at the
boundary. -/
def State.serveWrite (s : State) (f : Frame) : State :=
  let h := f.hdr
  if h.words = 1 then
    match s.localAccess .ring h.offset true (BitVec.ofNat 32 (leAt f.payload 4 4)) (wordBe (leAt f.payload 0 1) 1 0) (some f) with
    | (t, some (r, _)) => t.reqDone f r false []
    | (t, none) => t
  else if h.offset % 4 ≠ 0 ∨ h.range.any takeOrPeek = true then s.reqDone f rspUnmapped false []
  else match (List.range h.words).find? fun i => decide (s.wordCheck f i ≠ rspOk) with
    | some i => s.reqDone f (s.wordCheck f i) false []
    | none =>
      if h.range.any fun o => s.reqHeld o true then
        { s with mem := { s.mem with held := s.mem.held ++ [{ who := .ring, addr := h.offset, write := true, req := some f }] } }
      else match State.writeWords f (List.range h.words) false s with
        | (t, held, r) =>
          if held && decide (r = rspOk) then { t with scan := { t.scan with waits := t.scan.waits.dropLast ++ [(.ring, some f)] } }
          else t.reqDone f r false []

/-- A read served (R372). -/
def State.serveRead (s : State) (f : Frame) : State :=
  let h := f.hdr
  let hold (o : Nat) : State := { s with mem := { s.mem with held := s.mem.held ++ [{ who := .ring, addr := o, req := some f }] } }
  if h.words = 1 then
    let peek := decide (h.mtype = 0x01) && takeAt h.offset
    if s.reqHeld h.offset false then hold h.offset
    else match s.localAccess .ring (if peek then h.offset + 0x800 else h.offset) false 0 15 none with
      | (t, some (r, d)) => t.reqDone f r peek (leBytes d.toNat 4)
      | (t, none) => t
  else if h.offset % 4 ≠ 0 ∨ h.range.any takeOrPeek = true then s.reqDone f rspUnmapped false []
  else if h.range.any fun o => s.reqHeld o false then hold h.offset
  else
    let (t, r, d) := State.readWords h.range s
    t.reqDone f r false d

/-- P is right for the message type and LEN (R371, R544). -/
def Frame.requestOk (f : Frame) : Bool :=
  let m := f.hdr.mtype
  if m = 0x00 ∨ m = 0x01 then f.payload.isEmpty
  else decide (f.hdr.words ≤ 127) && decide (f.payload.length = 4 + 4 * f.hdr.words)

/-- A request served at its target (R369-R373). -/
def State.serve (s : State) (f : Frame) : State :=
  if !f.requestOk then s.reqDone f rspUnmapped false []
  else if f.hdr.mtype = 0x04 ∨ f.hdr.mtype = 0x05 then s.serveWrite f else s.serveRead f

/-- A FENCE whose payload is not its own completes with UNMAPPED; another waits for the frames before it (R383, R544). -/
def State.fenceArrives (s : State) (f : Frame) : State :=
  if f.payload.length = 4 then { s with br := { s.br with farFences := s.br.farFences ++ [f] } }
  else s.complete f rspUnmapped false []

/-- A request at the front of what the bridge has received, after the earlier posted writes of its flow (R385). A non-posted one that finds no
incoming tag free is answered with RETRY; a type that R371 does not allocate is counted (R127). -/
def execIncomingRequest (s : State) : Out :=
  .next (match s.inboxTake portBridge with
    | none => s
    | some (f, t) =>
      let m := f.hdr.mtype
      if f.hdr.cls ≠ .T then (if m = 0x18 then s else t.inc 0x00A RC_CNT_UNKNOWN_COUNT)
      else if m = 0x08 ∨ m = 0x09 ∨ m = 0x18 then s
      else if s.owed.any fun g => decide (g.hdr.mtype = 0x05) && f.sameFlow g then s
      else if m = 0x06 then t.fenceArrives f
      else if m = 0x05 then t.serve f
      else if m = 0x00 ∨ m = 0x01 ∨ m = 0x04 then
        if 256 ≤ t.br.serving.length then t.complete f rspRetry false []
        else ({ t with br := { t.br with serving := t.br.serving ++ [f] } } : State).serve f
      else t.inc 0x00A RC_CNT_UNKNOWN_COUNT)

/-- A request of a source has not been performed yet. -/
def State.owes (s : State) (src : Nat) : Bool := s.owed.any fun f => decide (f.hdr.src = src)

/-- FAR_FENCE_COMPLETE (R383): the oldest fence whose source has no earlier request left; the completion carries CONF, and REMOTE_ERROR
where GAP was set, which is then cleared. -/
def execFarFenceComplete (s : State) : Out :=
  .next (match s.br.farFences.find? fun f => !s.owes f.hdr.src with
    | none => s
    | some f =>
      let k := seqKey f.hdr.src (leAt f.payload 0 1 % 32)
      let e := s.br.seq.getD k {}
      let s1 : State := { s with br := { s.br with
        farFences := s.br.farFences.erase f, seq := s.br.seq.put k { e with gap := false } {} } }
      s1.originate portBridge
        { hdr := { cls := .T, mtype := 0x08, dst := f.hdr.src, src := s.hubId, stream := f.hdr.stream
                   arg := f.hdr.tag + 256 * (if e.gap then rspRemote else rspOk) + 4096 + 65536 * e.wseq } })

/-! ### Held accesses released -/

/-- An access held for a bank's new owner is made again (R454). -/
def State.spAgain (s : State) (h : SpHold) : State := match h.req with
  | some f => s.serve f
  | none =>
    let x := s.scratch h.who h.addr h.write h.data h.be none
    if !h.gone then State.answered h.who x
    else match x with
      | (t, some _) => t
      | (t, none) => { t with mem := { t.mem with held := t.mem.held.dropLast ++ [h] } }

/-- BANK_DRAIN_DONE (R454, R455): the bank changes, and the accesses held for it are made. -/
def execBankDrainDone (bank : Fin 8) (s : State) : Out :=
  .next (if (s.spBank bank.val).drain.isNone then s
    else
      let t := s.bankDrained bank.val
      t.mem.held.foldl State.spAgain { t with mem := { t.mem with held := [] } })

/-- The writes held in the guard have been made: their accesses end with OK (R347). -/
def State.guardRelease (s : State) : State :=
  s.scan.waits.foldl (fun (t : State) e => match e.2 with
    | some f => t.reqDone f rspOk false []
    | none => t.finish e.1 rspOk 0) { s with scan := { s.scan with waits := [] } }

end Sys2Proof.Machine
end

