-- ==== Sys2Proof/Machine/HostPort.lean ====
section
/-! DEFINITION. The host port and the SPI port (R63, R64, R392-R394, R516, R540), and the interrupt outputs (R389, R390). -/
namespace Sys2Proof.Machine

/-- An access of an initiator to a fabric address (R363). In a bare start no other hub is reached (R86). -/
def State.access (s : State) (who : Initiator) (a : Nat) (write : Bool) (data : Word) (be : BitVec 4) : State := match s.target a with
  | .here off => State.answered who (s.localAccess who off write data be none)
  | .unmapped => (s.touch who (!write)).finish who (if s.bare then rspNotReady else rspUnmapped) 0
  | .far w hub off => (s.touch who (!write)).farAccess who a w hub off write data be

/-- The hub and offset that a fabric address reaches. -/
def State.reaches (s : State) (a : Nat) : Nat × Nat := match s.target a with
  | .here off => (s.hubId, off)
  | .unmapped => (a / 2 ^ 33, a % 2 ^ 33)
  | .far _ hub off => (hub, off)

/-! ### Abandoned accesses (R393, R394) -/

/-- A request that its initiator no longer waits for. -/
def Holder.leave (who : Initiator) (a : Acc) : Holder → Holder
  | .access w => if w = who then .gone a.hub a.off a.write else .access w
  | h => h

def Fwd.leave (who : Initiator) (a : Acc) (f : Fwd) : Fwd := { f with holder := f.holder.leave who a }

/-- The access last begun by `who` is abandoned before its data phase: it completes at its target, and a take's data is lost. -/
def State.abandon (s : State) (who : Initiator) (a : Acc) : State :=
  if a.done then s.abandoned a.hub a.off a.write (s.ansOf who).rsp (s.ansOf who).data
  else
    { s with
      br := { s.br with
        waits := s.br.waits.map (Fwd.leave who a)
        tags := s.br.tags.map fun e => (e.1, e.2.map fun x => { x with fwd := x.fwd.leave who a }) }
      mem := { s.mem with held := s.mem.held.map fun h => if h.who = who then { h with gone := true } else h }
      scan := { s.scan with waits := s.scan.waits.filter fun e => decide (e.1 ≠ who) } }

/-! ### The host port -/

/-- An answer's data-phase cycle (R540), at the host clock of 125 MHz. -/
def State.cycle (s : State) (k : Option Nat) : State :=
  { s with ans := s.ans.put Initiator.host.idx { s.ansOf .host with cycle := k } {} }

/-- A target that answers slowly: a page of the groundsheet or the supervisor die, and the MRAM read window (R540). -/
def slowTarget (off : Nat) : Bool :=
  (decide (off < 2 ^ 24) && (pageIsland (off / 4096)).isNone) || (decide (mapMram ≤ off) && decide (off < mapMram + 0x400000))

/-- The fabric address of a host address in the aperture (R63). -/
def State.aperture (s : State) (addr : Nat) : Nat :=
  let p := s.rd 0x021 (HOST_PSEL + addr / 2 ^ 25 % 2 * 4)
  (if HOST_PSEL_SELF.get p = 1 then s.hubId else HOST_PSEL_HUB.get p) * 2 ^ 33 + HOST_PSEL_BASE.get p * 2 ^ 25 + addr % 2 ^ 25

/-- An address strobe while an access is in progress (R393). -/
def State.hostProto (s : State) : State := s.inc 0x021 HOST_CNT_PROTO
def State.hostBusy (s : State) : Bool := s.host.any fun a => !a.done

/-- An access to the host control block (R64): HOST_PSEL0 and 1 under R36, every other offset OK and reading 0. -/
def State.controlBlock (s0 : State) (addr : Nat) (write : Bool) (data : Word) (be : BitVec 4) : State :=
  let s := ({ s0 with host := some { hub := s0.hubId, off := 0x021000, write := write, done := true } } : State).touch .host (!write)
  let off := addr % 4096
  if 8 ≤ off then (s.answer .host rspOk 0).cycle (some 2)
  else if off % 4 ≠ 0 ∨ (write ∧ be ≠ 15) then (s.answer .host rspUnmapped 0).cycle (some 2)
  else if write then ((s.plain false 0x021 (HOST_PSEL + off) data).answer .host rspOk 0).cycle (some 2)
  else (s.answer .host rspOk (s.rd 0x021 (HOST_PSEL + off))).cycle (some 2)

/-- The pad responder's answer while the host island is held in reset (R516). -/
def State.padAnswer (s : State) : State := (s.answer .host rspNotReady 0).cycle (some 1)

/-- An access in the aperture (R63, R64, R363, R540). -/
def State.apertureAccess (s : State) (addr : Nat) (write : Bool) (data : Word) (be : BitVec 4) : State :=
  let a := s.aperture addr
  let t := s.reaches a
  let s1 : State := { s with host := some { hub := t.1, off := t.2, write := write } }
  if !s.ready 0x020 then ((s1.touch .host (!write)).finish .host rspNotReady 0).cycle (some 2)
  else
    let u := s1.access .host a write data be
    let slow := decide (t.1 = s.hubId) && slowTarget t.2 && decide ((u.ansOf .host).rsp = rspOk)
    if u.hostBusy || slow then u else u.cycle (some 7)

/-- HOST_ACCESS (R392). -/
def execHostAccess (addr : BitVec 27) (write : Bool) (data : Word) (be : BitVec 4) (s : State) : Out :=
  .next (if !s.islUp 37 then s.padAnswer
    else if s.hostBusy then s.hostProto
    else if addr.toNat < 2 ^ 26 then s.apertureAccess addr.toNat write data be
    else s.controlBlock (addr.toNat % 2 ^ 26) write data be)

/-- HOST_CONTROL_BLOCK_ACCESS (R64). -/
def execHostControlBlockAccess (addr : BitVec 26) (write : Bool) (data : Word) (be : BitVec 4) (s : State) : Out :=
  .next (if !s.islUp 37 then s.padAnswer else if s.hostBusy then s.hostProto else s.controlBlock addr.toNat write data be)

/-- PAD_RESPONDER_ACCESS (R516): while the host island is held in reset. -/
def execPadResponderAccess (_addr : BitVec 27) (_write : Bool) (_data : Word) (s : State) : Out :=
  .next (if s.islUp 37 then s else s.padAnswer)

/-- HOST_ADS_DURING_ACCESS (R393): the access last begun has not had its data phase. -/
def execHostAdsDuringAccess (s : State) : Out := .next (if s.islUp 37 && s.host.isSome then s.hostProto else s)

/-- HOST_ACCESS_ABANDON (R393): HOST_CS_N rises before the data phase of the access last begun. -/
def execHostAccessAbandon (s : State) : Out :=
  .next (match s.host with
    | some a => ({ s with host := none } : State).abandon .host a
    | none => s)

/-! ### The SPI port (R394) -/

/-- The access of an SPI frame: the local map of this hub, whole words. Before FUSE has run nothing serves the port. -/
def State.spiAccess (s : State) (cmd : Nat) (addr : Nat) (data : Word) : State :=
  let write := decide (cmd = 0x02)
  let s1 : State := { s with spi := some { hub := s.hubId, off := addr, write := write } }
  if addr % 4 ≠ 0 then s1.finish .spi rspUnmapped 0
  else State.answered .spi (s1.localAccess .spi addr write data 15 none)

/-- A frame that makes an access. -/
def State.spiServes (s : State) (cmd : Nat) : Bool :=
  (decide (cmd = 0x02) || decide (cmd = 0x0B)) && s.gs.fused && !s.spi.any fun a => !a.done

/-- SPI_FRAME (R394). -/
def execSpiFrame (cmd : BitVec 8) (addr : BitVec 32) (data : Word) (s : State) : Out :=
  .next (if s.spiServes cmd.toNat then s.spiAccess cmd.toNat addr.toNat data else s)

/-- SPI_ABORT (R394): the frame in progress, or one that made its access, ends before its last byte. -/
def execSpiAbort (cmd : BitVec 8) (addr : BitVec 32) (data : Word) (s : State) : Out :=
  .next (
    let end1 (t : State) : State := match t.spi with
      | some a => (({ t with spi := none } : State).abandon .spi a).inc 0x021 HOST_CNT_SPI_ABORT
      | none => t
    if s.spi.any fun a => !a.done then end1 s
    else if s.spiServes cmd.toNat then end1 (s.spiAccess cmd.toNat addr.toNat data) else s)

/-! ### Interrupt outputs -/

/-- Host output `n` requests (R390). -/
def State.hostRequests (s : State) (n : Nat) : Bool :=
  ((List.range 0x300).any fun p => decide (s.route p / 64 = 1) && decide (s.route p % 4 = n) && s.irq p) ||
  ((List.range 64).any fun j =>
    let off := (64 * n + j) / 32 * 4
    nbit (s.rd brP (BR_SIG_PEND + off) &&& s.rd brP (BR_SIG_EN + off)).toNat ((64 * n + j) % 32))

/-- What HOST_INT_N[n] shows (R390): its peg state until HOST_CFG is first written, then the weak pull of its entry while it is not
driven. -/
def State.hostIntN (s : State) (n : Nat) : Pin :=
  if !s.gs.cfgHost then s.peg n
  else if !s.fb 0x021 HOST_CFG_INT_OE then s.pegPull n
  else if s.hostRequests n then .low
  else if s.fb 0x021 HOST_CFG_INT_OD then s.pegPull n else .high

/-- The lantern's interrupt request: a page routed to it, or a pending signal that no host output takes (R389, R390). -/
def State.lanternInt (s : State) : Bool :=
  ((List.range 0x300).any fun p => decide (s.route p / 64 = 2) && s.irq p) ||
  ((List.range 8).any fun k => decide ((s.rd brP (BR_SIG_PEND + 4 * k) &&& ~~~ s.rd brP (BR_SIG_EN + 4 * k)) ≠ 0))

end Sys2Proof.Machine
end

