-- ==== Sys2Proof/Machine/Boundary.lean ====
section
/-! DEFINITION. What happens at an epoch boundary and at a superframe boundary (R235, R237, R249, R342-R346), and the stop point of a
block (R42). -/
namespace Sys2Proof.Machine

/-- An epoch boundary (R346): the scan unit's own part with its stop point and commit point (R343, R344), the accesses held in the guard
(R347), the history's configuration (R469), the mirror (R409), a swap that is due (R411) and an armed strike (R499). -/
def State.epochBoundary (s : State) : State :=
  if !(s.running 0x01C && s.ready 0x01C) then s
  else
    let s1 := s.scanBoundary
    let s2 := if s1.commitPending 0x01C then s1.commitEnd 0x01C else s1
    let s3 := ({ s2 with scan := { s2.scan with hist := s2.rd 0x280 MEM_HIST_CFG } } : State).guardRelease.mirrorEpoch
    let s4 := if s3.swapDue s3.epoch then s3.swapPoint else s3
    let s5 := s4.updEpoch s4.epoch
    if s5.running 0x01C then s5 else s5.disarmed

/-- EPOCH_BOUNDARY (R346). -/
def execEpochBoundary (s : State) : Out := .next s.epochBoundary

/-- LATCH_DONE (R353): the inputs latched for the boundary just passed, the publications, and the epoch's history record (R469). -/
def execLatchDone (s : State) : Out :=
  .next (if s.scan.latchDue && s.running 0x01C && s.ready 0x01C then (s.latchAll.publishAll).histWrite s.epoch else s)

/-- BLOCK_STOP_POINT (R42): the scan unit's stop point is an epoch boundary. -/
def execBlockStopPoint (page : Nat) (s : State) : Out :=
  .next (if page = 0x01C then (if s.stopping.contains 0x01C then s.epochBoundary else s) else s.stopPoint page)

/-- The loop measured in ACTIVE (R235), and the superframe counted. -/
def State.loopLive (s : State) (n live : Nat) : State :=
  let s1 := s.fs (clPage n) CL_LOOP_LIVE live
  let a := s1.fg (clPage n) CL_LOOP_LIVE
  let b := s1.fg (clPage n) CL_LOOP_LOOP
  let x := s1.card n
  let d := if a ≤ b + 16 ∧ b ≤ a + 16 then 0 else min 17 (x.drift + 1)
  (s1.setCard n { x with drift := d, sf := x.sf + 1 }).raiseIf (decide (d = 16)) (clPage n) EV_CL_LOOP_DRIFT

/-- The sideband block of the next superframe (R237). -/
def State.sfBlock (s : State) (n : Nat) : State :=
  let x := s.card n
  if s.clState n ≠ 5 then s.sbNext n 1 (s.helloBytes n)
  else if 0 < x.hello then (s.setCard n { x with hello := x.hello - 1 }).sbNext n 1 (s.helloBytes n)
  else if x.sf % 64 = 0 then s.sbNext n 1 (s.helloBytes n)
  else match s.relayNext n with
    | some (ty, pay, t) => t.sbNext n ty pay
    | none => s.sbNext n 0 []

/-- A superframe boundary of a link that has superframes: the block sent is out, a stop and commits that wait for the boundary take
effect, and the next block is chosen. -/
def State.superframe (s : State) (n live : Nat) : State :=
  if s.clState n < 4 ∨ 6 < s.clState n then s
  else
    let s0 := s.setCard n { s.card n with safeAge := (s.card n).safeAge.map (· + 1) }
    let s1 := (if s.clState n = 5 then s0.loopLive n live else s0).relaySent n
    let s2 := (s1.stopPoint (clPage n)).commitPoint (clPage n)
    let s3 := (s2.stopPoint (ecPage n)).commitPoint (ecPage n)
    if s3.clState n < 4 ∨ 6 < s3.clState n then s3 else s3.relayJudge.sfBlock n

/-- SUPERFRAME_BOUNDARY (R235). Where no scan unit runs, an accepted swap is made at the boundary of pitch 0 (R411). -/
def execSuperframeBoundary (pitch : Pitch) (live : Nat) (s : State) : Out :=
  .next (
    let s1 := s.superframe pitch.val live
    let s2 := if pitch.val = 0 ∧ s1.tw.swap = some (0, true) ∧ s1.scanOn = false then s1.swapPoint else s1
    s2.newSwapCheck)

end Sys2Proof.Machine
end

