-- ==== Sys2Proof/Machine/ControlLink.lean ====
section
/-! DEFINITION. The control link to the supervisor die (R12, R423, R488), and the option reader's APPLY and EQUALIZE states
(R84, R85, R119). -/
namespace Sys2Proof.Machine

/-! ### The control link -/

/-- The pages the supervisor die serves (R48). -/
def supPages : List Nat := 0x028 :: (List.range 24).map (0x030 + ·)

/-- SUPV_WRITE_ARRIVE (R12): the oldest write on its way takes effect in the supervisor die. Nothing crosses while the link is down. -/
def execSupvWriteArrive (s : State) : Out :=
  .next (match s.supv.queue with
    | w :: ws => if s.supv.link then
        ({ s with supv := { s.supv with queue := ws } } : State).regApply false w.page w.off w.v else s
    | [] => s)

/-- A page of the supervisor die out of reach: READY falls and a pending commit is refused, while its block keeps running (R423). -/
def State.supOut (s : State) (p : Nat) : State := if s.ready p then (s.refuseUnready p).setState p PAGE_STATE_READY false else s

/-- SUPV_LINK_DOWN (R423, R488). -/
def execSupvLinkDown (s : State) : Out :=
  .next (
    if !s.supv.link then s
    else
      let s1 : State := { s with supv := { s.supv with link := false } }
      (supPages.foldl State.supOut s1).raise 0x004 EV_FT_SUPV_LINK_DOWN)

/-- SUPV_LINK_UP (R91): the pages may become READY again. -/
def execSupvLinkUp (s : State) : Out := .next { s with supv := { s.supv with link := true } }

/-- CONTROL_FRAME_RECEIVED (R12, R488): a frame that passes its check refreshes the status copy; one that fails it is reported. -/
def execControlFrameReceived (ok : Bool) (s : State) : Out :=
  .next (
    if !ok then s.raise 0x004 EV_FT_SUPV_LINK_ERR
    else if s.supv.link then
      let mine (m : Map Word) : Map Word := m.filter fun e => supPage (e.1 / 4096)
      { s with supv := { s.supv with copy := mine s.regs, copySh := mine s.shad } }
    else s)

/-! ### APPLY (R84, R85) -/

/-- A commit made by a record has its point at once; a refusal is counted, and the first one's record is kept (R85). -/
def State.optCommit (s : State) (p off : Nat) : State :=
  let t := s.commitEnd p
  if t.fg p CFG_STATUS_RESULT ≠ 3 then t
  else
    let u := if s.fg 0 GS_OPT_STATUS_REFUSED = 0 then t.fs 0 GS_OPT_FAIL_OFFSET off else t
    (u.inc 0 GS_OPT_STATUS_REFUSED).raise 0 EV_GS_OPT_COMMIT_REFUSED

/-- One record through the preload path: a write and, for TYPE 0x01, a commit of its page; a write of PAGE_CTRL may ask for one too. -/
def State.optWrite (s : State) (off ty v : Nat) : State :=
  let p := s.enAlias (off / 4096)
  let s1 := s.regWrite .preload (off / 4096) (off % 4096) (BitVec.ofNat 32 v)
  let s2 := if ty = 1 then s1.commitWrite p else s1
  if s2.commitPending p then s2.optCommit p off else s2

/-- OPT_APPLY_RECORD (R85). After L2, records of the pages that it keeps are skipped (R84). -/
def execOptApplyRecord (s : State) : Out :=
  .next (
    if s.opt ≠ 6 then s
    else
      let c := s.gs.copy
      let i := s.gs.record
      let n := s.optHdr c 0x28 4
      if n ≤ i then s.setOpt 7
      else
        let (off, ty, v) := s.optRecord c i
        let s1 := if s.seqLevel = 2 ∧ l2Keeps (off / 4096) = true then s else s.optWrite off ty v
        let s2 : State := { s1 with gs := { s1.gs with record := i + 1 } }
        if n ≤ i + 1 then s2.setOpt 7 else s2)

/-! ### EQUALIZE (R119) -/

/-- SWING, DEEMPH and CTLE of a row of the equalization table. -/
def State.eqRow (s : State) (n : Nat) : Nat × Nat × Nat :=
  let a := 0x324010 + 8 * n
  (s.mle a 1, s.mle (a + 1) 1, s.mle (a + 2) 1)

/-- The table is valid: magic, rows, CRC and every row in range. -/
def State.eqValid (s : State) : Bool :=
  decide (s.mle 0x324000 4 = 0x0A192E01) && decide (s.mle 0x324004 2 = 36) &&
  decide (crc32 (s.mbytes 0x324000 12 ++ s.mbytes 0x324010 288) = s.mle 0x32400C 4) &&
  (List.range 36).all fun n =>
    let (sw, de, ct) := s.eqRow n
    decide (sw ≤ 16) && decide (de ≤ 15) && decide (ct ≤ 15)

/-- The register of a row's lane: page and offset. -/
def eqReg (n : Nat) : Nat × Nat :=
  if n < 5 then (0x008, LN_EQ + 16 * n) else if n < 10 then (0x009, LN_EQ + 16 * (n - 5))
  else if n < 12 then (0x024, LN_EQ + 16 * (n - 10)) else (0x050 + (n - 12), CL_EQ)

/-- One row written into its lane. -/
def State.eqLoad (s : State) (n : Nat) : State :=
  let (sw, de, ct) := s.eqRow n
  let (p, o) := eqReg n
  s.wr p o (BitVec.ofNat 32 (sw + 256 * de + 4096 * ct))

/-- The pages with LN_STATUS that EQUALIZE loads: after L2 the ring lanes are left as they are (R84). -/
def State.eqPages (s : State) : List Nat := if s.seqLevel = 2 then [0x024] else [0x008, 0x009, 0x024]

/-- OPT_EQUALIZE (R119). -/
def execOptEqualize (s : State) : Out :=
  .next (
    if s.opt ≠ 7 then s
    else
      let rows := (List.range 36).filter fun n => decide (10 ≤ n) || decide (s.seqLevel ≠ 2)
      let s1 := if s.eqValid then rows.foldl State.eqLoad s else s
      let s2 := s.eqPages.foldl (fun (t : State) p => t.fs p LN_STATUS_EQ_TABLE (bit s.eqValid)) s1
      s2.toDone)

end Sys2Proof.Machine
end

