-- ==== Sys2Proof/Machine/Mirror.lean ====
section
/-! DEFINITION. The standby's side of the mirror (R400-R408), the twin port's frames (R398), and the poll of the twin's update state
(R500). -/
namespace Sys2Proof.Machine

/-! ### Entries -/

/-- A CFG entry: a write of its own, in order; COMMIT and ABORT_COMMIT are writes of PAGE_CTRL (R401). -/
def State.mirCfg (s : State) (bs : List Byte) : State :=
  let a := leAt bs 0 3
  let op := leAt bs 3 1
  let v : Word := BitVec.ofNat 32 (leAt bs 4 4)
  let w := if op = 1 then PAGE_CTRL_COMMIT.set 1 v else if op = 2 then PAGE_CTRL_ABORT_COMMIT.set 1 v else v
  s.regWrite .mirror (a / 4096) (a % 4096) w

/-- A CANOPY entry of `epoch` (R402). -/
def State.mirCanopy (s : State) (epoch : Nat) (bs : List Byte) : State :=
  let h := leAt bs 0 2
  let k := 4096 * (h / 32768) + h % 4096
  let v := grpOf (bs.drop 2)
  let late := epochDiff epoch s.epoch
  if !s.scanOn ∨ late = 0 then s.grpPut k (BitVec.allOnes 96) v
  else if 2 ^ 31 ≤ late then
    let s1 : State := { s with scan := { s.scan with vis := s.scan.vis.put k v 0, hid := s.scan.hid.put k none none } }
    let s2 := (s1.errClear (s1.copyKey k false)).errClear (s1.copyKey k true)
    (({ s2 with tw := { s2.tw with canLate := true } } : State).inc 0x024 TW_CNT_CANOPY_LATE_COUNT).mirrorJudge
  else s.askResync

/-- A TIME entry: the standby's selection follows (R403). -/
def State.mirTime (s : State) (bs : List Byte) : State :=
  let k := leAt bs 0 1 % 2
  let s1 : State := { s with tw := { s.tw with peer := some (k, leAt bs 1 1, leAt bs 2 1) } }
  (if k = s1.sel then s1 else s1.select k).mirrorJudge

/-- An ENGINE entry: kept until the channel's mode boundary (R404). -/
def State.mirEngine (s : State) (bs : List Byte) : State :=
  let g := leAt bs 0 1
  if 192 ≤ g then s
  else ({ s with tw := { s.tw with eng := s.tw.eng.put g bs [] } } : State).engLoad (g / 8) (g % 8)

/-- The pops owed to a software queue, made as far as it holds entries (R407). -/
def State.popOwed (s : State) (q : Nat) : Nat → State
  | 0 => s
  | k + 1 =>
    if s.tw.owed.getD q 0 = 0 then s
    else match (s.que q).ents with
      | [] => s
      | e :: es =>
        let s1 : State := { s with tw := { s.tw with owed := s.tw.owed.put q (s.tw.owed.getD q 0 - 1) 0 } }
        ((s1.setQue q { s1.que q with ents := es, taken := 0, next := 0 }).endCopy e).popOwed q k

/-- A mailbox pop whose value is discarded, as often as counted. -/
def State.mbDrop (m : Nat) : Nat → State → State
  | 0, s => s
  | k + 1, s => if (s.que (mbQueue m)).ents.isEmpty then s else State.mbDrop m k (s.mbPop m .ok).1

/-- A QUEUE entry (R407). -/
def State.mirQueue (s : State) (bs : List Byte) : State :=
  let q := leAt bs 0 2 % 1024
  let v := leAt bs 4 4
  if leAt bs 2 1 = 1 then (if 960 ≤ q then s.mbPush (q - 960) (BitVec.ofNat 32 v) else s)
  else if 960 ≤ q then State.mbDrop (q - 960) (min v 16384) s
  else
    let s1 : State := { s with tw := { s.tw with owed := s.tw.owed.put q (s.tw.owed.getD q 0 + v) 0 } }
    s1.popOwed q (s1.que q).ents.length

/-- A STATE entry (R400). -/
def State.mirLinks (s : State) (bs : List Byte) : State :=
  ({ s with tw := { s.tw with links := leAt bs 0 3 } } : State).mirrorJudge

/-- One entry of a frame. -/
def State.mirEntry (kind epoch : Nat) (s : State) (bs : List Byte) : State :=
  if kind = 1 then s.mirCfg bs else if kind = 2 then s.mirCanopy epoch bs else if kind = 3 then s.mirTime bs
  else if kind = 4 then s.mirEngine bs else if kind = 5 then s.mirQueue bs else if kind = 6 then s.mirLinks bs else s

/-- Bytes of an entry of each KIND (R400). -/
def entryLen (kind : Nat) : Nat := if kind = 2 then 14 else if kind = 4 then 56 else 8

/-- A snapshot begins: the standby flushes its mirrored queues (R408). -/
def State.snapStart (s : State) : State :=
  let s1 := if s.fg 0x024 TW_STATUS_MSTATE = 1 then s else s.resync
  s1.mirroredQueues.foldl (fun (t : State) q => (t.flushQueue q).1) { s1 with tw := { s1.tw with owed := [], eng := [], resyncReq := false } }

/-- A frame's entries, in order, until one of them asks for a resync. -/
def State.mirEntries (kind epoch : Nat) : List Byte → Nat → State → State
  | _, 0, s => s
  | bs, k + 1, s => if s.tw.resyncReq then s else State.mirEntries kind epoch (bs.drop (entryLen kind)) k (s.mirEntry kind epoch (bs.take (entryLen kind)))

/-- A MIRROR frame applied (R400, R408): in RESYNC nothing is taken until SNAP_START; a gap in MSEQ asks for a resync. -/
def State.mirrorIn (s : State) (f : Frame) : State :=
  let bs := f.payload
  let kind := leAt bs 0 1
  let seq := leAt bs 2 2
  let s1 : State := { s with tw := { s.tw with rseq := some seq } }
  if kind = 7 then (let t := s1.snapStart; { t with tw := { t.tw with rseq := some seq } })
  else match s.tw.rseq with
    | none => s
    | some r =>
      if s.tw.resyncReq then s
      else if seq ≠ (r + 1) % 65536 then s.askResync
      else if kind = 8 then (s1.fs 0x024 TW_STATUS_MSTATE 2).mirrorJudge
      else State.mirEntries kind (leAt bs 4 4) (bs.drop 8) (leAt bs 1 1) s1

/-- MIRROR_RECEIVED (R400). -/
def execMirrorReceived (s : State) : Out :=
  .next (match s.twinTake (isTwin 0x22) with
    | some (f, t) => if t.role = roleStandby then t.mirrorIn f else t
    | none => s)

/-! ### The twin port (R398, R407) -/

/-- A frame's checks (R129): HCRC, form, and the rest. -/
inductive Check where
  | hcrc | form | bad | good
deriving DecidableEq, Repr

/-- The checks of a received frame, in the order in which they become known (R129). -/
def frameCheck (bytes : List Byte) (ending : Ending) : Check :=
  let n := bytes.length
  let h := Hdr.ofBytes bytes
  if n < 12 then .form
  else if leAt bytes 10 2 ≠ crc16 (bytes.take 10) then .hcrc
  else if h.ll && (h.cls != .M || h.dst != 0x7F) then .form
  else if n < 16 then .form
  else if h.cls.maxP < n - 16 ∨ n % 4 ≠ 0 ∨ ending ≠ .good then .bad
  else if leAt bytes (n - 4) 4 ≠ crc32 (bytes.take (n - 4)) then .bad
  else .good

/-- A QCOPY frame is the last that has come, and its copy is awaited. -/
def State.qcopyLost (s : State) : State :=
  if s.tw.qcopy.isNone then s
  else ({ s with tw := { s.tw with qcopy := none, inbox := s.tw.inbox.dropLast } } : State).askResync

/-- TWIN_PORT_FRAME_RECEIVE (R398). Link-local frames of an unallocated type are counted; the copy behind a QCOPY waits with it; every
other frame goes to the core. A frame that is not good is discarded. -/
def execTwinPortFrameReceive (bytes : List Byte) (ending : Ending) (s0 : State) : Out :=
  .next (
    let s := s0.endingMarks .twin ending
    let f := Frame.ofBytes bytes
    let m := f.hdr.mtype
    let keep (t : State) (q : Option Nat) : State := { t with tw := { t.tw with inbox := t.tw.inbox ++ [f], qcopy := q } }
    if !s.portActive .twin then s0
    else if frameCheck bytes ending ≠ .good then s.qcopyLost
    else if f.hdr.ll then
      let t := s.qcopyLost
      if m < 0x20 ∨ 0x24 < m then t.inc 0x024 TW_CNT_BAD_COUNT
      else keep t (if m = 0x24 then some (f.hdr.argBits 0 10) else none)
    else if s.tw.qcopy.isSome then keep s none
    else s.stage portTwin { frame := f, route := .desc (descRing f) })

/-- QCOPY_RECEIVED (R407): the QCOPY at the front and the copy behind it are delivered to the queue; a copy that is refused asks for a
resync, and pops owed to the queue are made. -/
def execQcopyReceived (s : State) : Out :=
  .next (match s.twinTake (isTwin 0x24) with
    | none => s
    | some (qf, t) => match t.tw.inbox with
      | [] => s
      | f :: rest =>
        if f.hdr.ll then t.askResync
        else
          let q := qf.hdr.argBits 0 10
          let t1 : State := { t with tw := { t.tw with inbox := rest } }
          if t1.role ≠ roleStandby then t1
          else
            let t2 := if softQueue (qPage q) q then t1.placeDirect portTwin q f else t1
            if (t2.que q).ents.length = (t1.que q).ents.length then t2.askResync else t2.popOwed q (t2.que q).ents.length)

/-! ### The poll of the twin's update state (R500) -/

/-- The slot whose manifest the strike in hand is of: the inactive one until it strikes. -/
def State.strikeSlot (s : State) : Nat := if s.upState = 2 ∨ s.upState = 3 then s.idleSlot else s.up.active

/-- TWIN_UPDATE_POLL: reads of UP_STATUS, UP_SEQ, UP_EPOCH and, while the versions are being compared, UP_VER of the twin. -/
def execTwinUpdatePoll (s : State) : Out :=
  .next (
    if !(s.redundant && s.fb 0x024 TW_STATUS_PRESENT && s.manNode s.strikeSlot) || !s.ready 0x010 || !s.ready brP || s.bare then s
    else
      let regs := [UP_STATUS, UP_SEQ, UP_EPOCH] ++ (if s.fb 0x290 UP_STATUS_TWIN_MISMATCH then [UP_VER, UP_VER + 4, UP_VER + 8] else [])
      regs.foldl (fun (t : State) off =>
        let a := t.twinHub * 2 ^ 33 + 0x290000 + off
        match t.target a with
        | .far w hub o => t.forward { win := w, holder := .poll off, frame := t.reqFrame w hub o 0x00 [] }
        | _ => t) s)

end Sys2Proof.Machine
end

