-- ==== Sys2Proof/Machine/RingReceive.lean ====
section
/-! DEFINITION. Frames received on a ring port and what a ring or twin egress starts (R67, R129-R140, R146, R148, R151, R155, R398). -/
namespace Sys2Proof.Machine

/-! ### Remote reset (R67, R98) -/

/-- A RESET frame for this hub: accepted with REMOTE_EN 1 and the right credential, else counted. SRC is the detail byte. -/
def State.remoteReset (s : State) (src : Nat) (cred : List Byte) : State :=
  if s.fb 0 GS_RESET_CTRL_REMOTE_EN && s.gs.cred.any (fun b => decide (b ≠ 0)) && decide (cred = s.gs.cred) then
    s.recognise { cause := 6, level := s.levelOf 6, detail := src } none
  else (s.inc 0 GS_AUTH_FAIL_COUNT).raise 0 EV_GS_REMOTE_AUTH_FAIL

/-- REMOTE_RESET_RECEIVED (R67). -/
def execRemoteResetReceived (src : Fin 128) (cred : List Byte) (s : State) : Out := .next (s.remoteReset src.val cred)

/-! ### Counters and credit of a ring port -/

/-- A frame that fails a check, under its counter (R129). -/
def State.rxFail (s : State) (p : RingPort) (f : Fld) : State := (s.inc p.page f).raise p.page EV_RP_FRAME_ERR

/-- Cells of a class arrived on a port (R136). -/
def State.cellsIn (s : State) (p : RingPort) (c : Cls) (n : Nat) : State :=
  s.setCr p.lanes c { s.cr p.lanes c with recv := ((s.cr p.lanes c).recv + n) % 65536 }

/-- The cells a frame of `n` bytes costs. -/
def cellsOf (n : Nat) : Nat := (n + 23) / 24

/-- The granted space left to the sender of a class (R139). -/
def State.granted (s : State) (p : RingPort) (c : Cls) : Nat :=
  let x := s.cr p.lanes c
  let d := (x.lim + 65536 - x.recv) % 65536
  if d < 32768 then d else 0

/-- Credit is kept for the frame: class T, B or M, and not in ridge-only mode, where the hub is transparent (R140). -/
def State.credited (s : State) (h : Hdr) : Bool := decide (h.cls ≠ .E) && !h.ll && !s.ridgeOnly

/-- The cells of a frame that the core does not keep are free at once. -/
def State.creditBack (s : State) (p : RingPort) (h : Hdr) (n : Nat) : State :=
  if s.credited h then s.freed p.lanes h.cls (cellsOf n) else s

/-! ### The decision (R131) -/

/-- What R131 decides: the step that governs. -/
inductive Fate where
  | strip | mark | orphan | mine | group | pass
deriving DecidableEq, Repr

/-- A TOPO frame. -/
def Hdr.isTopo (h : Hdr) : Bool := decide (h.cls = .M) && decide (h.mtype = 0x08) && !h.ll

/-- This hub subscribes to the group, or the frame is a broadcast. -/
def State.member (s : State) (dst : Nat) : Bool :=
  decide (dst = 127) || (decide (120 ≤ dst) && nbit (s.fg 0x00A RC_MCAST_GROUPS) (dst - 120))

/-- Steps 2 to 7 of R131; a bare start has step 7 only (R132). -/
def State.fate (s : State) (h : Hdr) : Fate :=
  if s.bare then .pass
  else if s.isSelf h.src && (decide (h.wraps = 0) || decide (h.wraps = 3)) then .strip
  else if s.isSelf h.src && decide (h.wraps = 1) then .mark
  else if s.fb 0x00A RC_CTRL_ORPHAN_EN && !h.isTopo && !s.live h.src then .orphan
  else if s.isSelf h.dst then .mine
  else if s.member h.dst then .group
  else .pass

/-- The frame is forwarded. -/
def Fate.forwards : Fate → Bool
  | .mark => true | .group => true | .pass => true | _ => false

/-- The frame is consumed (R131). -/
def Fate.consumes (f : Fate) (h : Hdr) : Bool := match f with
  | .mine => true
  | .group => decide (h.wraps = 0) || decide (h.wraps = 2)
  | _ => false

/-! ### Forwarding (R130, R132, R148) -/

/-- Where a forwarded frame leaves: its DIR's port, or the other with its header turned; none where it may not turn. -/
def State.wayOut (s : State) (h : Hdr) : Option (RingPort × Hdr) :=
  let o := dirPort h.dir
  s.leavesBy o true h

/-- HOPS of a TOPO frame raised by the egress logic (R145). -/
def hopped (f : Frame) : Frame :=
  if f.hdr.isTopo then { f with payload := putBytes f.payload 0 [BitVec.ofNat 8 (leAt f.payload 0 1 + 1)] } else f

/-- A link-local frame (R131 step 1, R140, R156). One of an unallocated type is discarded and counted (R127). -/
def State.llIn (s : State) (p : RingPort) (f : Frame) : State :=
  let m := f.hdr.mtype
  let s1 := if m = 0x01 then s.guyIn p f.hdr.src else s
  if s.ridgeOnly then s1.llPass p f
  else if m = 0x01 then s1
  else if m = 0x02 then s.creditIn p f.hdr
  else if m = 0x03 then s.laneCtrlIn p f.payload
  else s.inc 0x00A RC_CNT_UNKNOWN_COUNT

/-- What the port logic does with a frame it consumes (R151, R155, R181): TOPO is in the table and FENCE has closed its holds already; a type that belongs to
link-local frames is unallocated here. -/
def State.logicIn (s : State) (p : RingPort) (f : Frame) (toMe : Bool) : State :=
  let m := f.hdr.mtype
  if m = 0x3F ∨ m = 0x08 then s
  else if m = 0x09 then
    (if toMe then s.remoteReset f.hdr.src f.payload else (s.inc 0x00A RC_CNT_RESET_DROP_COUNT).raise 0x00A EV_RC_RESET_GROUP_DROP)
  else s.inc 0x00A RC_CNT_UNKNOWN_COUNT

/-- The frame handed to the core: the copy forwarded through it and the one consumed. -/
def State.toCore (s : State) (p : RingPort) (f : Frame) (fwd : Option RingPort) (consume : Bool) (hold : Option Nat) : State :=
  s.stage p.core { frame := f, route := .ring fwd consume hold }

/-- A decided frame in its two forms, forwarded and consumed; `good` tells one that passed every check of R129. A bad one is forwarded
and copied until it stops, and counts and changes nothing else. -/
def State.ringDecide (s0 : State) (p : RingPort) (ff fc : Frame) (n : Nat) (good : Bool) : State :=
  let h := fc.hdr
  let fate := s0.fate h
  let s := if !good then s0 else match fate with
    | .strip => let t := s0.inc p.page RP_STRIP_COUNT
                if h.dst < 120 then t.inc p.page RP_UNDELIV_COUNT else t
    | .orphan => s0.inc p.page RP_DROP_ORPHAN_COUNT
    | _ => s0
  let consume := fate.consumes h
  let logic := portLogicType h
  let hf : Hdr := if fate = .mark then { h with wraps := 2 } else h
  let way := if fate.forwards then s.wayOut hf else none
  let s1 := if fate.forwards && way.isNone && good then s.dropLoop p else s
  if s1.ridgeOnly then
    let s2 := match way with
      | some (o, h') => s1.ridge p o (hopped { ff with hdr := h' })
      | none => s1
    if consume && good then s2.inc p.page RP_DROP_RONLY_COUNT else s2
  else
    let express := decide (h.cls = .E)
    let s2 := match way with
      | some (o, h') => if express then s1.ridge p o (hopped { ff with hdr := h' }) else s1
      | none => s1
    let core := if express then none else way
    let copy := consume && !logic
    let (s3, hold) := if copy && good then s2.holdFor p h.cls h.src else (s2, none)
    let s4 := match core with
      | some (o, h') => s3.toCore p (hopped { fc with hdr := h' }) (some o) copy hold
      | none => if copy then s3.toCore p fc none true hold else s3.creditBack p h n
    if consume && logic && good then s4.logicIn p fc (decide (fate = .mine)) else s4

/-- A frame that has a header received at instant `t`. A bad one keeps its payload up to the class maximum. -/
def State.rxFrame (s : State) (p : RingPort) (bytes : List Byte) (good : Bool) (t : Int) : State :=
  let f0 := Frame.ofBytes bytes
  let h := f0.hdr
  if h.ll then (if good then s.llIn p f0 else if s.ridgeOnly then s.llPass p { f0 with bad := true } else s)
  else
    let n := min bytes.length (16 + h.cls.maxP)
    let f : Frame := if good then f0 else { f0 with payload := f0.payload.take h.cls.maxP, bad := true }
    let s1 := if s.credited h then s.cellsIn p h.cls (cellsOf n) else s
    if s.credited h && decide (s.granted p h.cls < cellsOf n) then
      (((s1.inc p.page RP_DROP_OVERRUN_COUNT).raise p.page EV_RP_CREDIT_OVERRUN)).creditBack p h n
    else
      let s2 := if good && h.isTopo then s1.topoIn h.src h.dir h.wraps (leAt f.payload 0 1) (leAt f.payload 1 1)
        else if good && decide (h.mtype = 0x3F) then s1.fenceIn p h.cls else s1
      let (ff, fc) := if good then f.arrive (s.ingressDelay p) t else (f, f)
      s2.ringDecide p ff fc n good

/-- A copy that its sender cut with K30.7 before its header and trailer were whole (R134): the cells that it was charged are free again
(R136). Its first byte names the class. -/
def State.cutCopy (s : State) (p : RingPort) (bytes : List Byte) : State :=
  let h := Hdr.ofBytes bytes
  if bytes.length = 0 ∨ 16 ≤ bytes.length ∨ s.credited h = false then s
  else (s.cellsIn p h.cls 1).freed p.lanes h.cls 1

/-- RING_FRAME_RECEIVE (R129-R132): the frame is counted under the first check that it fails, and decided. `sub` is the time of its
start column within the present cycle of LC, in 1/16 ns. -/
def execRingFrameReceive (port : RingPort) (bytes : List Byte) (ending : Ending) (sub : Fin 26) (s0 : State) : Out :=
  .next (
    let s := s0.endingMarks port.lanes ending
    if !s.portActive port.lanes then s0
    else match frameCheck bytes ending with
      | .hcrc => s.rxFail port RP_RX_HCRC_COUNT
      | .form =>
        let t := s.rxFail port RP_RX_BAD_COUNT
        if ending = .bad then t.cutCopy port bytes else t
      | .bad => (s.rxFail port RP_RX_BAD_COUNT).rxFrame port bytes false (s.stampAt sub.val)
      | .good => (s.inc port.page RP_RX_FRAMES_COUNT).rxFrame port bytes true (s.stampAt sub.val))

/-! ### Egress (R133, R398) -/

/-- The mirrored queue for which the head of a queue is a copy (R407). -/
def State.qcopyHead (s : State) (q : Nat) : Option Nat := match (s.que q).ents with
  | e :: _ => e.qcopy
  | [] => none

/-- The first of the twin's queues of classes M, T and B whose head may start, with copies for mirrored queues or without. -/
def State.twinPick (s : State) (copies : Bool) : Option Nat :=
  if s.portFrozen portTwin || s.portDown portTwin || !s.coreAdmits then none
  else s.firstQueue ([4 * portTwin + 3, 4 * portTwin + 1, 4 * portTwin + 2].filter fun q => (s.qcopyHead q).isSome == copies)

/-- A copy starts on the twin egress; one for a mirrored queue right behind its QCOPY frame. -/
def State.twinCopy (s : State) (q : Nat) (t : Int) : State := match s.qcopyHead q with
  | some m => (s.sent .twin (s.twinFrame 0x24 m [])).startCopy portTwin q t
  | none => s.startCopy portTwin q t

/-- Which frames had the last turn: the mirror's, or those of the classes. -/
def State.setTurn (s : State) (v : Bool) : State := { s with tw := { s.tw with turn := v } }

/-- MIRROR and QCOPY frames: a MIRROR frame where there is one, else a copy for a mirrored queue. -/
def State.twinMirror (s : State) (t : Int) : Option State := match s.mirrorFrame with
  | some (f, u) => some (u.sent .twin f)
  | none => (s.twinPick true).map fun q => s.twinCopy q t

/-- A twin egress at a frame boundary (R398): the port logic's frames, class E, then the mirror and the classes M, T and B in turn. -/
def State.twinEgress (s : State) (t : Int) : State :=
  let coreUp := !(s.portFrozen portTwin || s.portDown portTwin || !s.coreAdmits)
  let mirror := (s.twinMirror t).map fun u => u.setTurn true
  let classes := (s.twinPick false).map fun q => (s.startCopy portTwin q t).setTurn false
  if !(s.port .twin).ll.isEmpty then s.sendLL .twin
  else if coreUp && (s.eligibleHead (4 * portTwin)).isSome then s.twinCopy (4 * portTwin) t
  else ((if s.tw.turn then classes <|> mirror else mirror <|> classes)).getD s

/-- EGRESS_FRAME_START (R133, R398), at a frame boundary: a port asked to leave ACTIVE leaves it (R108), another starts a frame. -/
def execEgressFrameStart (port : LanePort) (sub : Fin 26) (s : State) : Out :=
  .next (
    if !s.portActive port || (s.eg (laneCore port)).isSome then s
    else if (s.port port).offReq then s.portOff port
    else match port with
      | .east => s.ringStart .east (s.stampAt sub.val)
      | .west => s.ringStart .west (s.stampAt sub.val)
      | .twin => s.twinEgress (s.stampAt sub.val))

end Sys2Proof.Machine
end

