-- ==== Sys2Proof/Machine/Dispatch.lean ====
section
/-! DEFINITION. The meaning of each command: one arm per constructor, each a direct call of its own definition. -/
namespace Sys2Proof.Machine

/-- What a command does to everything but the queue of waiting commands. -/
def exec (i : Instr) (s : State) : Host.Outcome State Fault Refusal :=
  match i with
  | .registerWrite who page off v => Sys2Proof.Machine.execRegisterWrite who page off v s
  | .pageEnableWrite who page en readActive => Sys2Proof.Machine.execPageEnableWrite who page en readActive s
  | .commit who page en readActive => Sys2Proof.Machine.execCommit who page en readActive s
  | .abortCommit who page en readActive commit => Sys2Proof.Machine.execAbortCommit who page en readActive commit s
  | .resetBlock who page others => Sys2Proof.Machine.execResetBlock who page others s
  | .evtForce who page v => Sys2Proof.Machine.execEvtForce who page v s
  | .commitPoint page => Sys2Proof.Machine.execCommitPoint page s
  | .blockReadyRise page => Sys2Proof.Machine.execBlockReadyRise page s
  | .blockStopPoint page => Sys2Proof.Machine.execBlockStopPoint page s
  | .readyVectorUpdate reg bit => Sys2Proof.Machine.execReadyVectorUpdate reg bit s
  | .hostAccess addr write data be => Sys2Proof.Machine.execHostAccess addr write data be s
  | .hostControlBlockAccess addr write data be => Sys2Proof.Machine.execHostControlBlockAccess addr write data be s
  | .padResponderAccess addr write data => Sys2Proof.Machine.execPadResponderAccess addr write data s
  | .spiFrame cmd addr data => Sys2Proof.Machine.execSpiFrame cmd addr data s
  | .spiAbort cmd addr data => Sys2Proof.Machine.execSpiAbort cmd addr data s
  | .canopyWrite who img word data be => Sys2Proof.Machine.execCanopyWrite who img word data be s
  | .canopyPackedWrite who img group word data be => Sys2Proof.Machine.execCanopyPackedWrite who img group word data be s
  | .canopyPackedRead who img group word => Sys2Proof.Machine.execCanopyPackedRead who img group word s
  | .resetNRelease straps => Sys2Proof.Machine.execResetNRelease straps s
  | .hostSoftReset who v => Sys2Proof.Machine.execHostSoftReset who v s
  | .wdogKick who v => Sys2Proof.Machine.execWdogKick who v s
  | .thermalTrip tj => Sys2Proof.Machine.execThermalTrip tj s
  | .thermalTripRelease tj straps => Sys2Proof.Machine.execThermalTripRelease tj straps s
  | .clockLossRelease straps => Sys2Proof.Machine.execClockLossRelease straps s
  | .supplyWarn supply => Sys2Proof.Machine.execSupplyWarn supply s
  | .islandSyncRelease island => Sys2Proof.Machine.execIslandSyncRelease island s
  | .gsHoldSet who v => Sys2Proof.Machine.execGsHoldSet who v s
  | .gsHoldRelease who v => Sys2Proof.Machine.execGsHoldRelease who v s
  | .aonRead who => Sys2Proof.Machine.execAonRead who s
  | .fuseProgGo who v => Sys2Proof.Machine.execFuseProgGo who v s
  | .fuseProgDone ok => Sys2Proof.Machine.execFuseProgDone ok s
  | .tsReceived port lane inv cv bytes => Sys2Proof.Machine.execTsReceived port lane inv cv bytes s
  | .deskewTimeout port => Sys2Proof.Machine.execDeskewTimeout port s
  | .capBlockReceived port bytes ending => Sys2Proof.Machine.execCapBlockReceived port bytes ending s
  | .capxTimeout port => Sys2Proof.Machine.execCapxTimeout port s
  | .portEnterActive port => Sys2Proof.Machine.execPortEnterActive port s
  | .forceRetrain who port => Sys2Proof.Machine.execForceRetrain who port s
  | .portEnWrite who port v => Sys2Proof.Machine.execPortEnWrite who port v s
  | .lnClrCnt who port => Sys2Proof.Machine.execLnClrCnt who port s
  | .ccSend port => Sys2Proof.Machine.execCcSend port s
  | .ccReceived port fills deskew cv => Sys2Proof.Machine.execCcReceived port fills deskew cv s
  | .elasticErr port => Sys2Proof.Machine.execElasticErr port s
  | .laneFault port lane cause => Sys2Proof.Machine.execLaneFault port lane cause s
  | .urgentSubstTimeout port => Sys2Proof.Machine.execUrgentSubstTimeout port s
  | .laneErrThreshold port lane => Sys2Proof.Machine.execLaneErrThreshold port lane s
  | .lnSpareCmd who port v => Sys2Proof.Machine.execLnSpareCmd who port v s
  | .laneCtrlRequestReceived port body => Sys2Proof.Machine.execLaneCtrlRequestReceived port body s
  | .laneCtrlUrgentReceived port body => Sys2Proof.Machine.execLaneCtrlUrgentReceived port body s
  | .spareCompareDone port => Sys2Proof.Machine.execSpareCompareDone port s
  | .laneCtrlConfirmReceived port body => Sys2Proof.Machine.execLaneCtrlConfirmReceived port body s
  | .laneCtrlCancelReceived port body => Sys2Proof.Machine.execLaneCtrlCancelReceived port body s
  | .laneCtrlRefuseReceived port body => Sys2Proof.Machine.execLaneCtrlRefuseReceived port body s
  | .spareRequestTimeout port => Sys2Proof.Machine.execSpareRequestTimeout port s
  | .ringFrameReceive port bytes ending sub => Sys2Proof.Machine.execRingFrameReceive port bytes ending sub s
  | .egressFrameStart port sub => Sys2Proof.Machine.execEgressFrameStart port sub s
  | .mergePreempt port sub => Sys2Proof.Machine.execMergePreempt port sub s
  | .creditReceived port bytes => Sys2Proof.Machine.execCreditReceived port bytes s
  | .creditSend port => Sys2Proof.Machine.execCreditSend port s
  | .guySend port => Sys2Proof.Machine.execGuySend port s
  | .guyReceived port src seq wrapFlags => Sys2Proof.Machine.execGuyReceived port src seq wrapFlags s
  | .guySilenceTimeout port => Sys2Proof.Machine.execGuySilenceTimeout port s
  | .unwrap port => Sys2Proof.Machine.execUnwrap port s
  | .topoReceived port src dir wraps hops flags => Sys2Proof.Machine.execTopoReceived port src dir wraps hops flags s
  | .fenceReceived port cls src fseq kind => Sys2Proof.Machine.execFenceReceived port cls src fseq kind s
  | .holdExpired cls src => Sys2Proof.Machine.execHoldExpired cls src s
  | .ringGraceExpired port => Sys2Proof.Machine.execRingGraceExpired port s
  | .resetSend who v => Sys2Proof.Machine.execResetSend who v s
  | .remoteResetReceived src cred => Sys2Proof.Machine.execRemoteResetReceived src cred s
  | .rpClrCnt who port => Sys2Proof.Machine.execRpClrCnt who port s
  | .coreHeadCellWrite p => Sys2Proof.Machine.execCoreHeadCellWrite p s
  | .coreCellWrite p => Sys2Proof.Machine.execCoreCellWrite p s
  | .coreDeferredWrite p => Sys2Proof.Machine.execCoreDeferredWrite p s
  | .frameVerdict p good => Sys2Proof.Machine.execFrameVerdict p good s
  | .coreCellRead p ecc => Sys2Proof.Machine.execCoreCellRead p ecc s
  | .copyEnd p => Sys2Proof.Machine.execCopyEnd p s
  | .bankEccThreshold bank => Sys2Proof.Machine.execBankEccThreshold bank s
  | .coreSpareCmd who v => Sys2Proof.Machine.execCoreSpareCmd who v s
  | .coreClrCnt who => Sys2Proof.Machine.execCoreClrCnt who s
  | .qFlush who page v => Sys2Proof.Machine.execQFlush who page v s
  | .flushPoint page => Sys2Proof.Machine.execFlushPoint page s
  | .queueGraceExpired p => Sys2Proof.Machine.execQueueGraceExpired p s
  | .qClrCnt who page => Sys2Proof.Machine.execQClrCnt who page s
  | .mbPush who m v => Sys2Proof.Machine.execMbPush who m v s
  | .mbPopTake who m ecc => Sys2Proof.Machine.execMbPopTake who m ecc s
  | .qrpTake who page ecc => Sys2Proof.Machine.execQrpTake who page ecc s
  | .receiverDetectProbe pitch term => Sys2Proof.Machine.execReceiverDetectProbe pitch term s
  | .cardTrainingFrame pitch bytes sample inv mark => Sys2Proof.Machine.execCardTrainingFrame pitch bytes sample inv mark s
  | .cardTrainTimeout pitch => Sys2Proof.Machine.execCardTrainTimeout pitch s
  | .cardLosPersist pitch => Sys2Proof.Machine.execCardLosPersist pitch s
  | .loopMeasureDone pitch => Sys2Proof.Machine.execLoopMeasureDone pitch s
  | .sidebandBlockReceived pitch bytes anyBad => Sys2Proof.Machine.execSidebandBlockReceived pitch bytes anyBad s
  | .rollcallTimeout pitch => Sys2Proof.Machine.execRollcallTimeout pitch s
  | .cardFrameReceived pitch bytes mark => Sys2Proof.Machine.execCardFrameReceived pitch bytes mark s
  | .cardFrameSend pitch => Sys2Proof.Machine.execCardFrameSend pitch s
  | .superframeBoundary pitch live => Sys2Proof.Machine.execSuperframeBoundary pitch live s
  | .safeMismatch pitch => Sys2Proof.Machine.execSafeMismatch pitch s
  | .clRetrain who pitch => Sys2Proof.Machine.execClRetrain who pitch s
  | .clClrCnt who pitch => Sys2Proof.Machine.execClClrCnt who pitch s
  | .ucodeLoadDone cluster => Sys2Proof.Machine.execUcodeLoadDone cluster s
  | .engineFrameReport pitch chan parity => Sys2Proof.Machine.execEngineFrameReport pitch chan parity s
  | .engineGap pitch chan => Sys2Proof.Machine.execEngineGap pitch chan s
  | .asyncIdleGap pitch chan => Sys2Proof.Machine.execAsyncIdleGap pitch chan s
  | .asyncTxStart pitch chan => Sys2Proof.Machine.execAsyncTxStart pitch chan s
  | .asyncDeLagExpire pitch chan => Sys2Proof.Machine.execAsyncDeLagExpire pitch chan s
  | .recordFlushTimeout pitch chan => Sys2Proof.Machine.execRecordFlushTimeout pitch chan s
  | .txRecordReceived pitch => Sys2Proof.Machine.execTxRecordReceived pitch s
  | .syCmdGo who engine => Sys2Proof.Machine.execSyCmdGo who engine s
  | .syncTrigger pitch chan => Sys2Proof.Machine.execSyncTrigger pitch chan s
  | .syncTransferEnd pitch chan => Sys2Proof.Machine.execSyncTransferEnd pitch chan s
  | .discDebounceAccept pitch chan => Sys2Proof.Machine.execDiscDebounceAccept pitch chan s
  | .enDiCountTake who engine => Sys2Proof.Machine.execEnDiCountTake who engine s
  | .diOutWrite who engine v => Sys2Proof.Machine.execDiOutWrite who engine v s
  | .pwmPeriodStart pitch chan => Sys2Proof.Machine.execPwmPeriodStart pitch chan s
  | .discSchedItem pitch chan => Sys2Proof.Machine.execDiscSchedItem pitch chan s
  | .enModeWrite who engine v => Sys2Proof.Machine.execEnModeWrite who engine v s
  | .enClrCnt who engine => Sys2Proof.Machine.execEnClrCnt who engine s
  | .ecMigCmd who cluster v => Sys2Proof.Machine.execEcMigCmd who cluster v s
  | .ecMigUrgent who cluster v => Sys2Proof.Machine.execEcMigUrgent who cluster v s
  | .migrationSwitch cluster => Sys2Proof.Machine.execMigrationSwitch cluster s
  | .migrationTimeout cluster => Sys2Proof.Machine.execMigrationTimeout cluster s
  | .ecClrCnt who cluster => Sys2Proof.Machine.execEcClrCnt who cluster s
  | .pbusMessageReceived pitch chan => Sys2Proof.Machine.execPbusMessageReceived pitch chan s
  | .pbAbort who engine => Sys2Proof.Machine.execPbAbort who engine s
  | .pbFlush who engine => Sys2Proof.Machine.execPbFlush who engine s
  | .pbRecover who engine => Sys2Proof.Machine.execPbRecover who engine s
  | .routedFrameReceived pitch => Sys2Proof.Machine.execRoutedFrameReceived pitch s
  | .ttBasicCycleStart matrix => Sys2Proof.Machine.execTtBasicCycleStart matrix s
  | .ttColumnStart matrix => Sys2Proof.Machine.execTtColumnStart matrix s
  | .ttRefTimeout matrix => Sys2Proof.Machine.execTtRefTimeout matrix s
  | .sampleSubmit who v => Sys2Proof.Machine.execSampleSubmit who v s
  | .domainTimeout dom => Sys2Proof.Machine.execDomainTimeout dom s
  | .tmJump who => Sys2Proof.Machine.execTmJump who s
  | .tmSnap who => Sys2Proof.Machine.execTmSnap who s
  | .tmClrCnt who => Sys2Proof.Machine.execTmClrCnt who s
  | .syncOriginate dom => Sys2Proof.Machine.execSyncOriginate dom s
  | .pdRequestSend port sub => Sys2Proof.Machine.execPdRequestSend port sub s
  | .pdReqReceived port bytes turn => Sys2Proof.Machine.execPdReqReceived port bytes turn s
  | .pdRespReceived port bytes sub => Sys2Proof.Machine.execPdRespReceived port bytes sub s
  | .scOpubSend who v => Sys2Proof.Machine.execScOpubSend who v s
  | .scClrCnt who => Sys2Proof.Machine.execScClrCnt who s
  | .transactionTimeout tag => Sys2Proof.Machine.execTransactionTimeout tag s
  | .tagQuarantineEnd tag => Sys2Proof.Machine.execTagQuarantineEnd tag s
  | .requestResend tag => Sys2Proof.Machine.execRequestResend tag s
  | .slotExpired slot => Sys2Proof.Machine.execSlotExpired slot s
  | .fenceStart who win v => Sys2Proof.Machine.execFenceStart who win v s
  | .signalSend who v => Sys2Proof.Machine.execSignalSend who v s
  | .txfSend who v => Sys2Proof.Machine.execTxfSend who v s
  | .brClrCnt who => Sys2Proof.Machine.execBrClrCnt who s
  | .twinPortFrameReceive bytes ending => Sys2Proof.Machine.execTwinPortFrameReceive bytes ending s
  | .twResync who => Sys2Proof.Machine.execTwResync who s
  | .twSwap who => Sys2Proof.Machine.execTwSwap who s
  | .pitchQuiet pitch => Sys2Proof.Machine.execPitchQuiet pitch s
  | .quietHoldTimeout pitch => Sys2Proof.Machine.execQuietHoldTimeout pitch s
  | .twRelease who => Sys2Proof.Machine.execTwRelease who s
  | .twResetTwin who => Sys2Proof.Machine.execTwResetTwin who s
  | .twClrCnt who => Sys2Proof.Machine.execTwClrCnt who s
  | .supervisorSample smp => Sys2Proof.Machine.execSupervisorSample smp s
  | .presenceChange pitch pres seat => Sys2Proof.Machine.execPresenceChange pitch pres seat s
  | .insertConditionMet pitch => Sys2Proof.Machine.execInsertConditionMet pitch s
  | .precheckDone pitch => Sys2Proof.Machine.execPrecheckDone pitch s
  | .rampReached pitch => Sys2Proof.Machine.execRampReached pitch s
  | .rampTimeout pitch => Sys2Proof.Machine.execRampTimeout pitch s
  | .enhanceDone pitch => Sys2Proof.Machine.execEnhanceDone pitch s
  | .powerGoodGiven pitch => Sys2Proof.Machine.execPowerGoodGiven pitch s
  | .busWindowFault pitch => Sys2Proof.Machine.execBusWindowFault pitch s
  | .seatOpenExtract pitch => Sys2Proof.Machine.execSeatOpenExtract pitch s
  | .instantTrip pitch => Sys2Proof.Machine.execInstantTrip pitch s
  | .breakerTrip pitch => Sys2Proof.Machine.execBreakerTrip pitch s
  | .coolDone pitch => Sys2Proof.Machine.execCoolDone pitch s
  | .clearLatch who pitch => Sys2Proof.Machine.execClearLatch who pitch s
  | .attemptsClear pitch => Sys2Proof.Machine.execAttemptsClear pitch s
  | .rdsMeasure pitch => Sys2Proof.Machine.execRdsMeasure pitch s
  | .rdsCapture who pitch => Sys2Proof.Machine.execRdsCapture who pitch s
  | .ppClrCnt who pitch => Sys2Proof.Machine.execPpClrCnt who pitch s
  | .feedQualified feed => Sys2Proof.Machine.execFeedQualified feed s
  | .feedLost feed => Sys2Proof.Machine.execFeedLost feed s
  | .disturbanceEnd feed => Sys2Proof.Machine.execDisturbanceEnd feed s
  | .disturbEntryRead who entry => Sys2Proof.Machine.execDisturbEntryRead who entry s
  | .fdClrCnt who => Sys2Proof.Machine.execFdClrCnt who s
  | .scratchpadAccess who addr write data be => Sys2Proof.Machine.execScratchpadAccess who addr write data be s
  | .bankHandover who v => Sys2Proof.Machine.execBankHandover who v s
  | .bankPowerOn who v => Sys2Proof.Machine.execBankPowerOn who v s
  | .bankPowerRetention who v => Sys2Proof.Machine.execBankPowerRetention who v s
  | .bankPowerOff who v => Sys2Proof.Machine.execBankPowerOff who v s
  | .bankDrainDone bank => Sys2Proof.Machine.execBankDrainDone bank s
  | .bankInitDone bank => Sys2Proof.Machine.execBankInitDone bank s
  | .spRowEccThreshold bank row => Sys2Proof.Machine.execSpRowEccThreshold bank row s
  | .marchGo who v => Sys2Proof.Machine.execMarchGo who v s
  | .marchAbort who => Sys2Proof.Machine.execMarchAbort who s
  | .marchRowStep fails => Sys2Proof.Machine.execMarchRowStep fails s
  | .marchRunDone mem failing => Sys2Proof.Machine.execMarchRunDone mem failing s
  | .rowRepair bank row => Sys2Proof.Machine.execRowRepair bank row s
  | .memClrCnt who => Sys2Proof.Machine.execMemClrCnt who s
  | .ftRelease who v => Sys2Proof.Machine.execFtRelease who v s
  | .ftClrCnt who => Sys2Proof.Machine.execFtClrCnt who s
  | .thermalWarn tj => Sys2Proof.Machine.execThermalWarn tj s
  | .sentinelMeasure m => Sys2Proof.Machine.execSentinelMeasure m s
  | .wrCapture who => Sys2Proof.Machine.execWrCapture who s
  | .wrStore who => Sys2Proof.Machine.execWrStore who s
  | .blDone tj means ok => Sys2Proof.Machine.execBlDone tj means ok s
  | .wearClr who => Sys2Proof.Machine.execWearClr who s
  | .wrClrCnt who => Sys2Proof.Machine.execWrClrCnt who s
  | .referenceFail ref drift => Sys2Proof.Machine.execReferenceFail ref drift s
  | .wrRefCmd who v => Sys2Proof.Machine.execWrRefCmd who v s
  | .pllLockLoss pll spare => Sys2Proof.Machine.execPllLockLoss pll spare s
  | .pllRelock pll spare => Sys2Proof.Machine.execPllRelock pll spare s
  | .wrPllCmd who v => Sys2Proof.Machine.execWrPllCmd who v s
  | .updClear who v => Sys2Proof.Machine.execUpdClear who v s
  | .updWrite who v => Sys2Proof.Machine.execUpdWrite who v s
  | .updWriteDone ok => Sys2Proof.Machine.execUpdWriteDone ok s
  | .updVerify who v => Sys2Proof.Machine.execUpdVerify who v s
  | .updArm who v => Sys2Proof.Machine.execUpdArm who v s
  | .updArmNow who v => Sys2Proof.Machine.execUpdArmNow who v s
  | .updDisarm who v => Sys2Proof.Machine.execUpdDisarm who v s
  | .updWriteArea who v => Sys2Proof.Machine.execUpdWriteArea who v s
  | .updConfirm who => Sys2Proof.Machine.execUpdConfirm who s
  | .updateCommit bad => Sys2Proof.Machine.execUpdateCommit bad s
  | .upClrCnt who => Sys2Proof.Machine.execUpClrCnt who s
  | .powerOnResetRelease straps => Sys2Proof.Machine.execPowerOnResetRelease straps s
  | .controlFrameReceived ok => Sys2Proof.Machine.execControlFrameReceived ok s
  | .crystalOscillationChange on => Sys2Proof.Machine.execCrystalOscillationChange on s
  | .hostAdsDuringAccess => Sys2Proof.Machine.execHostAdsDuringAccess s
  | .hostAccessAbandon => Sys2Proof.Machine.execHostAccessAbandon s
  | .powerOnReset => Sys2Proof.Machine.execPowerOnReset s
  | .resetNRecognised => Sys2Proof.Machine.execResetNRecognised s
  | .watchdogExpire => Sys2Proof.Machine.execWatchdogExpire s
  | .clockLoss => Sys2Proof.Machine.execClockLoss s
  | .resetAssertDeferred => Sys2Proof.Machine.execResetAssertDeferred s
  | .optFuseRead => Sys2Proof.Machine.execOptFuseRead s
  | .mramWakeDone => Sys2Proof.Machine.execMramWakeDone s
  | .optVerify => Sys2Proof.Machine.execOptVerify s
  | .optClocksLocked => Sys2Proof.Machine.execOptClocksLocked s
  | .optApplyRecord => Sys2Proof.Machine.execOptApplyRecord s
  | .optEqualize => Sys2Proof.Machine.execOptEqualize s
  | .islandReleasePosition => Sys2Proof.Machine.execIslandReleasePosition s
  | .topoSend => Sys2Proof.Machine.execTopoSend s
  | .topoAgeTick => Sys2Proof.Machine.execTopoAgeTick s
  | .bankRowCopy ecc => Sys2Proof.Machine.execBankRowCopy ecc s
  | .bankReplaceDone => Sys2Proof.Machine.execBankReplaceDone s
  | .routeLookupBegin => Sys2Proof.Machine.execRouteLookupBegin s
  | .routeLookupDone => Sys2Proof.Machine.execRouteLookupDone s
  | .stAutoSwitch => Sys2Proof.Machine.execStAutoSwitch s
  | .slewDone => Sys2Proof.Machine.execSlewDone s
  | .epochBoundary => Sys2Proof.Machine.execEpochBoundary s
  | .latchDone => Sys2Proof.Machine.execLatchDone s
  | .guardStart => Sys2Proof.Machine.execGuardStart s
  | .scanFrameTake => Sys2Proof.Machine.execScanFrameTake s
  | .forwardRequestSend => Sys2Proof.Machine.execForwardRequestSend s
  | .incomingRequest => Sys2Proof.Machine.execIncomingRequest s
  | .completionReceived => Sys2Proof.Machine.execCompletionReceived s
  | .lateWrReceived => Sys2Proof.Machine.execLateWrReceived s
  | .farFenceComplete => Sys2Proof.Machine.execFarFenceComplete s
  | .signalReceived => Sys2Proof.Machine.execSignalReceived s
  | .txfWriteDone => Sys2Proof.Machine.execTxfWriteDone s
  | .twinStartWaitExpired => Sys2Proof.Machine.execTwinStartWaitExpired s
  | .tguySend => Sys2Proof.Machine.execTguySend s
  | .tguyReceived => Sys2Proof.Machine.execTguyReceived s
  | .twinGuyTimeout => Sys2Proof.Machine.execTwinGuyTimeout s
  | .mirrorReceived => Sys2Proof.Machine.execMirrorReceived s
  | .mackSend => Sys2Proof.Machine.execMackSend s
  | .mackReceived => Sys2Proof.Machine.execMackReceived s
  | .qcopyReceived => Sys2Proof.Machine.execQcopyReceived s
  | .mirrorPeriodicEntry => Sys2Proof.Machine.execMirrorPeriodicEntry s
  | .swapProposeReceived => Sys2Proof.Machine.execSwapProposeReceived s
  | .swapAnswerReceived => Sys2Proof.Machine.execSwapAnswerReceived s
  | .swapAnswerTimeout => Sys2Proof.Machine.execSwapAnswerTimeout s
  | .periodicSwapDue => Sys2Proof.Machine.execPeriodicSwapDue s
  | .releaseReceived => Sys2Proof.Machine.execReleaseReceived s
  | .claimDecision => Sys2Proof.Machine.execClaimDecision s
  | .twinResetReceived => Sys2Proof.Machine.execTwinResetReceived s
  | .supvWriteArrive => Sys2Proof.Machine.execSupvWriteArrive s
  | .supvLinkDown => Sys2Proof.Machine.execSupvLinkDown s
  | .supvLinkUp => Sys2Proof.Machine.execSupvLinkUp s
  | .roleToSupervisor => Sys2Proof.Machine.execRoleToSupervisor s
  | .changeoverDeadEnd => Sys2Proof.Machine.execChangeoverDeadEnd s
  | .changeoverEnd => Sys2Proof.Machine.execChangeoverEnd s
  | .faultEvent => Sys2Proof.Machine.execFaultEvent s
  | .errPulseEnd => Sys2Proof.Machine.execErrPulseEnd s
  | .updVerifyDone => Sys2Proof.Machine.execUpdVerifyDone s
  | .twinUpdatePoll => Sys2Proof.Machine.execTwinUpdatePoll s
  | .strikeDone => Sys2Proof.Machine.execStrikeDone s
  | .trialExpired => Sys2Proof.Machine.execTrialExpired s
  | .twinStrikeTimeout => Sys2Proof.Machine.execTwinStrikeTimeout s
  | .cardRelayStart => Sys2Proof.Machine.execCardRelayStart s
  | .cardWaitExpired => Sys2Proof.Machine.execCardWaitExpired s
  | .mstateReturnSynced => Sys2Proof.Machine.execMstateReturnSynced s
  | .switchoverRequestRepeat => Sys2Proof.Machine.execSwitchoverRequestRepeat s

end Sys2Proof.Machine
end

