-- ==== Sys2Proof/Machine/Tick.lean ====
section
/-! DEFINITION. What passes when no command waits: one cycle of the local counter. -/
namespace Sys2Proof.Machine

/-- The AON count advances by the crystal's periods in one cycle of LC, while the crystal oscillates (GS_AON_HI.XTAL_OK): a period is
625,000,000 / 32,768 cycles. -/
def aonTick (s : State) : State :=
  if !s.fb 0 ⟨GS_AON_HI, 31, 1⟩ then s
  else
    let a := s.gs.aonAcc + 32768
    if a < 625000000 then { s with gs := { s.gs with aonAcc := a } }
    else { s with gs := { s.gs with aonAcc := a - 625000000, aon := (s.gs.aon + 1) % 2 ^ 48 } }

/-- One 625 MHz cycle of the time island: the local counter advances by 1, modulo 2^64 (R316); and of the core island, whose port read of
the cycle before is over (R169). -/
def tick (s : State) : State := aonTick { s with lc := (s.lc + 1) % 2 ^ 64, core := { s.core with readBank := none } }

end Sys2Proof.Machine
end

