-- ==== Sys2Proof/Safety.lean ====
section
/-! DEFINITION. What counts as a safe run: every step answers a next state, and the register store and the memories keep their
canonical form. -/
namespace Sys2Proof.Machine

/-- The step from `s` answers a next state. -/
def runs (s : State) : Prop := ∃ t, step s = .next t

/-- The first `k` steps from `s` all answer a next state. -/
def safeFor : Nat → State → Prop
  | 0, _ => True
  | k + 1, s => ∃ t, step s = .next t ∧ safeFor k t

/-- The MRAM's canonical form: addresses strictly rising, and no byte listed that equals what an unlisted one reads as. -/
def Memory.wf (m : List Host.Cell) : Bool := Map.wf (fun _ => (0 : Byte)) m

/-- The canonical form of what the hub stores: registers, MRAM and scratchpad list no entry equal to what an unlisted one reads as,
keys strictly rising; the local counter is a 64-bit count (R316). -/
def State.canonical (s : State) : Bool :=
  Map.wf resetWord s.regs && Memory.wf s.mram && Map.wf (fun _ => (0 : Word)) s.mem.sp && decide (s.lc < 2 ^ 64)

/-! ### What a command leaves alone -/

/-- Registers other than those listed, as pairs of page and offset, hold what they held. -/
def onlyRegs (l : List (Nat × Nat)) (s t : State) : Prop :=
  ∀ p off, off < 4096 → (p, off) ∉ l → t.rd p off = s.rd p off

/-- Registers of pages other than those listed hold what they held. -/
def onlyPages (l : List Nat) (s t : State) : Prop := ∀ p off, off < 4096 → p ∉ l → t.rd p off = s.rd p off

/-- The two states differ at most in registers, in the fault sources raised and in the frames waiting at core ports (a page whose
interrupt request rises may send a signal, R388). -/
def quiet (s t : State) : Prop := t = { s with regs := t.regs, faultQ := t.faultQ, ingress := t.ingress }

/-- A register access by `who` reaches the block of page `p` and takes effect there: it ends with OK (R36, R38), and a write is not one
that the standby leaves without effect (R401). -/
def State.accepts (s : State) (who : Initiator) (p off : Nat) : Bool :=
  decide (s.reach who p off = rspOk) && !s.stbyRefuses who p off

/-- The status bit of an event of a page. -/
def State.event (s : State) (p b : Nat) : Bool := (s.rd p EVT_STATUS).getLsbD b

/-- The command runs to a next state, and that state has the property. -/
def completes (c : Instr) (s : State) (P : State → Prop) : Prop := ∃ t, Sys2Proof.Machine.exec c s = .next t ∧ P t

/-- What a write of registers alone leaves: its initiator has OK with no data; the registers listed may have changed, and EVT_STATUS of
page 0x01C, since a packed group its initiator was collecting is given up (R26); beside registers, sources and signals only the answers
and the scan unit's packs differ. -/
structure Wrote (who : Initiator) (s t : State) (l : List (Nat × Nat)) : Prop where
  ok : t.ansOf who = ⟨rspOk, 0, none⟩
  regs : onlyRegs ((0x01C, EVT_STATUS) :: l) s t
  rest : quiet { s with ans := t.ans, scan := t.scan } t

/-- The parts of the state beside the registers and the queue of commands. -/
inductive Part where
  | shad | stopping | ans | faultQ | iso | gs | isl | pll | spll | mram | lc | ingress | core | ring | mem | tm
  | scan | cards | chans | ucode | lookWait | looking | tw | supv | br | host | spi | ft | wear | up | fresh
deriving DecidableEq, Repr

/-- A part is the same in two states. -/
def Part.same (s t : State) : Part → Prop
  | .shad => t.shad = s.shad
  | .stopping => t.stopping = s.stopping
  | .ans => t.ans = s.ans
  | .faultQ => t.faultQ = s.faultQ
  | .iso => t.iso = s.iso
  | .gs => t.gs = s.gs
  | .isl => t.isl = s.isl
  | .pll => t.pll = s.pll
  | .spll => t.spll = s.spll
  | .mram => t.mram = s.mram
  | .lc => t.lc = s.lc
  | .ingress => t.ingress = s.ingress
  | .core => t.core = s.core
  | .ring => t.ring = s.ring
  | .mem => t.mem = s.mem
  | .tm => t.tm = s.tm
  | .scan => t.scan = s.scan
  | .cards => t.cards = s.cards
  | .chans => t.chans = s.chans
  | .ucode => t.ucode = s.ucode
  | .lookWait => t.lookWait = s.lookWait
  | .looking => t.looking = s.looking
  | .tw => t.tw = s.tw
  | .supv => t.supv = s.supv
  | .br => t.br = s.br
  | .host => t.host = s.host
  | .spi => t.spi = s.spi
  | .ft => t.ft = s.ft
  | .wear => t.wear = s.wear
  | .up => t.up = s.up
  | .fresh => t.fresh = s.fresh

/-- Beside registers of pages of the kinds `ks` (`none`: pages the map does not have) and the parts `fs`, `t` is as `s`. -/
structure Within (ks : List (Option Kind)) (fs : List Part) (s t : State) : Prop where
  regs : ∀ p off, kindOf p ∉ ks → t.rd p off = s.rd p off
  parts : ∀ f, f ∉ fs → f.same s t

end Sys2Proof.Machine
end

