-- ==== Sys2Proof/Certificates/Slice0/Obligations.lean ====
section
/-! DEFINITION. The statements for the provers: what reset leaves, what a step does, and for every command under which conditions it
completes, what it then leaves and what it leaves alone. -/
open Sys2Proof Sys2Proof.Machine

/-! ### The hub as a whole -/

/-- With commands waiting, a step is the meaning of the first of them on the state whose queue holds the others. -/
def Obligations.StepRunsTheFrontCommand : Prop :=
    (∀ (s : State) (c : Instr) (cs : List Instr),
      (s.pending = c :: cs) →
      step s = Sys2Proof.Machine.exec c { s with pending := cs })

/-- The model's own choice (log entry 3): with no command waiting, a step is one cycle of LC. LC counts 1 modulo 2^64, and nothing else differs
but the AON count and its fraction. While the crystal oscillates the AON count advances by 1 modulo 2^48 once its fraction reaches
625,000,000 / 32,768 cycles; without it, it stands. -/
def Obligations.IdleStepCountsACycle : Prop :=
    (∀ s : State, s.pending = [] → ∃ t, step s = .next t ∧ t.lc = (s.lc + 1) % 2 ^ 64 ∧
      t = { s with lc := t.lc, gs := { s.gs with aon := t.gs.aon, aonAcc := t.gs.aonAcc } }) ∧
    (∀ s : State, s.pending = [] → ∃ t, step s = .next t ∧
      (s.fb 0 ⟨GS_AON_HI, 31, 1⟩ = false → t.gs.aon = s.gs.aon ∧ t.gs.aonAcc = s.gs.aonAcc) ∧
      (s.fb 0 ⟨GS_AON_HI, 31, 1⟩ = true → s.gs.aonAcc + 32768 < 625000000 → t.gs.aon = s.gs.aon ∧ t.gs.aonAcc = s.gs.aonAcc + 32768) ∧
      (s.fb 0 ⟨GS_AON_HI, 31, 1⟩ = true → 625000000 ≤ s.gs.aonAcc + 32768 →
      t.gs.aon = (s.gs.aon + 1) % 2 ^ 48 ∧ t.gs.aonAcc + 625000000 = s.gs.aonAcc + 32768))

/-- Whatever next state a command gives, the commands waiting are those that waited. -/
def Obligations.CommandsLeaveTheQueue : Prop :=
    (∀ (c : Instr) (s t : State), Sys2Proof.Machine.exec c s = .next t → t.pending = s.pending)

/-- The canonical form is the model's: what is stored lists keys strictly rising and no value equal to what an unlisted key reads as, and LC is
below 2^64. From every state in that form, a step that answers a next state answers one in that form. -/
def Obligations.EveryStepKeepsCanonicalForm : Prop :=
    (∀ s t : State, s.canonical = true → step s = .next t → t.canonical = true)

/-- State.reset has the canonical form that every step keeps, and its queue is empty. -/
def Obligations.ResetIsCanonical : Prop :=
    (State.reset.canonical = true ∧ State.reset.pending = [])

namespace Sys2Proof.Machine

/-- Reset values of the register tables: page, offset, value. -/
def resetValues : List (Nat × Nat × Nat) :=
  [(0x000, 0x000, 0x00010000), (0x001, 0x000, 0x00020000), (0x002, 0x000, 0x00030000), (0x004, FAULT_LINK, 0x0404),
   (0x005, FAULT_LINK, 0x0808), (0x008, LN_CTRL, 7), (0x009, 0x000, 0x00100001), (0x00A, FAULT_LINK, 0x2404), (0x00A, RC_RST_CRED, 0),
   (0x010, CORE_CTRL, 1), (0x010, FAULT_LINK, 0x2806), (0x012, 0x000, 0x00210001), (0x014, FAULT_LINK, 0x2F02), (0x018, FAULT_LINK, 0x3105),
   (0x01C, FAULT_LINK, 0x3605), (0x020, BR_CTRL, 6), (0x021, 0x000, 0x00410000), (0x024, TW_CFG, 0x10000A), (0x024, TW_STATUS, 0), (0x028, FAULT_LINK, 0x4704),
   (0x047, FAULT_LINK, 0x9C03), (0x067, FAULT_LINK, 0xCD02), (0x080, EC_MAP, 0x76543210), (0x097, FAULT_LINK, 0xFD02), (0x100, 0x000, 0x00810000),
   (0x200, FAULT_LINK, 0x5601), (0x240, 0x000, 0x00910000), (0x280, FAULT_LINK, 0x4B07), (0x290, FAULT_LINK, 0x5204), (0x290, UP_CFG, 0x27101388)]

end Sys2Proof.Machine

/-- Every register of every page holds the reset value of the register tables, no page is READY or RUNNING, the power-on reset is in progress at
L0 with code 1, and the MRAM lists nothing. Values of the register tables, one or more for each kind of page: BLOCK_TYPE and FAULT_LINK
words of R48 and R471, and the defaults of configuration registers. -/
def Obligations.PowerOnStateHoldsResetValues : Prop :=
    ((∀ p off, State.reset.rd p off = resetWord (regKey p off)) ∧
      State.reset.gs.seq = some { cause := 1, level := 0 } ∧ State.reset.mram = [] ∧ State.reset.faultQ = []) ∧
    (∀ e ∈ resetValues, State.reset.rd e.1 e.2.1 = BitVec.ofNat 32 e.2.2)

namespace Sys2Proof.Machine

/-- A card frame that is not 80 bits (R222), a training frame likewise, a sideband block that is not 64 bytes (R236). -/
def malformed : Instr → Bool
  | .cardFrameReceived _ bytes _ => bytes.length != 10
  | .cardTrainingFrame _ bytes _ _ _ => bytes.length != 10
  | .sidebandBlockReceived _ bytes _ => bytes.length != 64
  | _ => false

end Sys2Proof.Machine

/-- No command ends in a refusal, and none in a fault but those of R222 and R236 whose byte list is not of the length that their link carries.
Every command that is not malformed answers a next state in every state. A malformed one answers the fault. -/
def Obligations.EveryCommandCompletesOrIsMalformed : Prop :=
    (∀ (c : Instr) (s : State),
      malformed c = false →
      (∃ t, Sys2Proof.Machine.exec c s = .next t)) ∧
    (∀ (c : Instr) (s : State),
      malformed c = true →
      Sys2Proof.Machine.exec c s = .fault .malformed)

namespace Sys2Proof.Machine

/-- Every kind of page, and pages that the map does not have. -/
def everyKind : List (Option Kind) :=
  [none, some .gs, some .opt, some .clk, some .rp, some .rc, some .core, some .q, some .tm, some .sc, some .br, some .hp, some .tw, some .fd, some .pp, some .cl, some .ec, some .en, some .sm, some .rt, some .mem, some .ft, some .wr, some .up]

end Sys2Proof.Machine

namespace Sys2Proof.Machine

/-- Every part but the local counter. -/
def everyPart : List Part :=
  [.shad, .stopping, .ans, .faultQ, .iso, .gs, .isl, .pll, .spll, .mram, .ingress, .core, .ring, .mem, .tm, .scan, .cards, .chans, .ucode, .lookWait, .looking, .tw, .supv, .br, .host, .spi, .ft, .wear, .up, .fresh]

end Sys2Proof.Machine

namespace Sys2Proof.Machine

/-- The area of a command: the kinds of pages whose registers it may write, and the other parts it may change. -/
def area : Instr → List (Option Kind) × List Part
  | .registerWrite _ _ _ _ | .blockStopPoint _ | .hostAccess _ _ _ _ | .spiFrame _ _ _ | .spiAbort _ _ _ | .canopyWrite _ _ _ _ _ |
    .canopyPackedWrite _ _ _ _ _ _ | .canopyPackedRead _ _ _ _ | .hostSoftReset _ _ | .thermalTrip _ | .ringFrameReceive _ _ _ _ |
    .remoteResetReceived _ _ | .coreHeadCellWrite _ | .coreDeferredWrite _ | .superframeBoundary _ _ | .ucodeLoadDone _ |
    .transactionTimeout _ | .fenceStart _ _ _ | .pitchQuiet _ | .quietHoldTimeout _ | .bankDrainDone _ | .updClear _ _ | .updWrite _ _ |
    .updVerify _ _ | .updArm _ _ | .updArmNow _ _ | .updDisarm _ _ | .updWriteArea _ _ | .powerOnReset | .resetNRecognised |
    .watchdogExpire | .clockLoss | .resetAssertDeferred | .optApplyRecord | .epochBoundary | .forwardRequestSend | .incomingRequest |
    .completionReceived | .mirrorReceived | .twinResetReceived | .supvWriteArrive | .faultEvent | .errPulseEnd | .twinUpdatePoll |
    .trialExpired | .twinStrikeTimeout | .cardWaitExpired | .switchoverRequestRepeat =>
    (everyKind, everyPart)
  | .pageEnableWrite _ _ _ _ | .commit _ _ _ _ | .abortCommit _ _ _ _ _ | .resetBlock _ _ _ | .gsHoldSet _ _ | .gsHoldRelease _ _ =>
    (everyKind, [.shad, .stopping, .ans, .faultQ, .gs, .isl, .ingress, .core, .ring, .mem, .tm, .scan, .cards, .chans, .ucode, .tw, .supv, .br, .host, .spi, .ft, .wear, .up])
  | .evtForce _ page _ =>
    (kindOf page :: [some .sc, some .tw], [.ans, .faultQ, .ingress, .scan, .supv])
  | .commitPoint page =>
    (kindOf page :: [some .rp, some .core, some .tm, some .tw, some .fd, some .pp, some .en, some .ft], [.shad, .stopping, .faultQ, .ingress, .core, .ring, .tm, .scan, .cards, .chans, .tw, .supv, .br, .ft])
  | .blockReadyRise page =>
    (kindOf page :: [some .rp, some .core, some .q, some .tm, some .sc, some .tw, some .fd, some .pp, some .cl, some .en, some .ft], [.shad, .stopping, .faultQ, .ingress, .core, .ring, .tm, .scan, .cards, .chans, .tw, .supv, .br, .ft])
  | .readyVectorUpdate _ _ | .crystalOscillationChange _ =>
    ([some .gs], [])
  | .hostControlBlockAccess _ _ _ _ =>
    ([some .sc, some .hp], [.shad, .ans, .faultQ, .ingress, .scan, .tw, .host])
  | .padResponderAccess _ _ _ =>
    ([], [.ans])
  | .resetNRelease _ | .thermalTripRelease _ _ | .clockLossRelease _ | .powerOnResetRelease _ | .mramWakeDone | .optVerify =>
    ([some .gs, some .opt, some .core, some .ec, some .en, some .mem, some .wr, some .up], [.faultQ, .gs, .ingress, .mem, .wear, .up, .fresh])
  | .wdogKick _ _ =>
    ([some .sc, some .tw], [.ans, .faultQ, .gs, .ingress, .scan])
  | .supplyWarn _ =>
    ([some .ft], [.faultQ, .gs, .ingress])
  | .islandSyncRelease _ | .islandReleasePosition =>
    ([some .rp, some .tm, some .tw, some .wr], [.faultQ, .gs, .isl, .lc, .ingress, .ring, .tm])
  | .aonRead _ =>
    ([some .gs, some .sc], [.ans, .faultQ, .ingress, .scan])
  | .fuseProgGo _ _ =>
    ([some .opt, some .sc, some .tw], [.ans, .faultQ, .gs, .ingress, .scan])
  | .fuseProgDone _ =>
    ([some .opt], [.gs])
  | .tsReceived _ _ _ _ _ | .spareCompareDone _ =>
    ([some .rp, some .tw, some .wr], [.faultQ, .ingress, .ring])
  | .deskewTimeout _ | .capxTimeout _ | .ccReceived _ _ _ _ | .laneCtrlCancelReceived _ _ | .creditReceived _ _ =>
    ([some .rp, some .tw], [.ring])
  | .capBlockReceived _ _ _ | .laneErrThreshold _ _ | .laneCtrlUrgentReceived _ _ | .laneCtrlConfirmReceived _ _ | .spareRequestTimeout
    _ | .pdRespReceived _ _ _ =>
    ([some .rp, some .tw], [.faultQ, .ingress, .ring])
  | .portEnterActive _ | .urgentSubstTimeout _ | .laneCtrlRefuseReceived _ _ | .egressFrameStart _ _ =>
    ([some .rp, some .core, some .q, some .tw], [.faultQ, .ingress, .core, .ring, .tw])
  | .forceRetrain _ _ =>
    ([some .rp, some .core, some .q, some .sc, some .tw], [.ans, .faultQ, .ingress, .core, .ring, .scan, .tw])
  | .portEnWrite _ _ _ =>
    ([some .rp, some .core, some .q, some .sc, some .tw], [.shad, .ans, .faultQ, .ingress, .core, .ring, .scan, .tw])
  | .lnClrCnt _ _ | .rpClrCnt _ _ =>
    ([some .rp, some .sc, some .tw], [.ans, .faultQ, .ingress, .scan])
  | .ccSend _ | .laneCtrlRequestReceived _ _ | .creditSend _ | .guySend _ | .pdRequestSend _ _ | .pdReqReceived _ _ _ =>
    ([], [.ring])
  | .elasticErr _ | .unwrap _ | .ringGraceExpired _ =>
    ([some .rp, some .core, some .tw], [.faultQ, .ingress, .core, .ring])
  | .laneFault _ _ _ =>
    ([some .rp, some .core, some .q, some .tw, some .wr], [.faultQ, .ingress, .core, .ring, .tw])
  | .lnSpareCmd _ _ _ =>
    ([some .rp, some .sc, some .tw], [.ans, .faultQ, .ingress, .ring, .scan])
  | .mergePreempt _ _ =>
    ([some .rp, some .tw], [.core, .ring])
  | .guyReceived _ _ _ _ =>
    ([some .rp, some .tw], [.faultQ, .ingress, .ring, .tw])
  | .guySilenceTimeout _ | .qcopyReceived =>
    ([some .rp, some .core, some .tw], [.faultQ, .ingress, .core, .ring, .tw])
  | .topoReceived _ _ _ _ _ _ | .topoAgeTick =>
    ([some .rp, some .rc, some .core, some .tw], [.faultQ, .ingress, .core, .ring])
  | .fenceReceived _ _ _ _ _ =>
    ([], [.core, .ring])
  | .holdExpired _ _ =>
    ([some .rc], [.faultQ, .ingress, .core, .ring])
  | .resetSend _ _ =>
    ([some .rc, some .sc, some .tw], [.ans, .faultQ, .ingress, .scan])
  | .coreCellWrite _ =>
    ([some .core], [.core, .ring])
  | .frameVerdict _ _ =>
    ([some .core, some .sc], [.core, .ring])
  | .coreCellRead _ _ | .bankRowCopy _ =>
    ([some .core], [.faultQ, .ingress, .core, .ring])
  | .copyEnd _ =>
    ([some .rp, some .core, some .tw], [.core, .ring])
  | .bankEccThreshold _ =>
    ([some .core], [.faultQ, .ingress, .core])
  | .coreSpareCmd _ _ =>
    ([some .core, some .sc, some .tw], [.ans, .faultQ, .ingress, .core, .scan])
  | .coreClrCnt _ =>
    ([some .core, some .sc, some .tw], [.ans, .faultQ, .ingress, .scan])
  | .qFlush _ _ _ | .qClrCnt _ _ =>
    ([some .q, some .sc, some .tw], [.ans, .faultQ, .ingress, .scan])
  | .flushPoint _ | .queueGraceExpired _ =>
    ([some .core, some .q], [.faultQ, .ingress, .core, .ring])
  | .mbPush _ _ _ =>
    ([some .q, some .sc, some .tw], [.ans, .faultQ, .ingress, .core, .scan, .tw])
  | .mbPopTake _ _ _ | .qrpTake _ _ _ =>
    ([some .core, some .q, some .sc], [.ans, .faultQ, .ingress, .core, .ring, .scan, .tw, .fresh])
  | .receiverDetectProbe _ _ | .cardTrainingFrame _ _ _ _ _ | .cardTrainTimeout _ | .cardLosPersist _ | .rollcallTimeout _ |
    .cardFrameReceived _ _ _ =>
    ([some .core, some .q, some .cl], [.faultQ, .ingress, .core, .ring, .scan, .cards, .chans])
  | .loopMeasureDone _ | .safeMismatch _ =>
    ([some .cl], [.faultQ, .ingress, .cards])
  | .sidebandBlockReceived _ _ _ =>
    ([some .core, some .q, some .cl, some .ec, some .en], [.faultQ, .ingress, .core, .ring, .scan, .cards, .chans])
  | .cardFrameSend _ =>
    ([some .cl], [.cards, .chans])
  | .clRetrain _ _ =>
    ([some .core, some .q, some .sc, some .tw, some .cl], [.ans, .faultQ, .ingress, .core, .ring, .scan, .cards, .chans])
  | .clClrCnt _ _ =>
    ([some .sc, some .tw, some .cl], [.ans, .faultQ, .ingress, .scan])
  | .engineFrameReport _ _ _ =>
    ([some .ec, some .en], [.faultQ, .ingress, .chans, .tw, .fresh])
  | .engineGap _ _ =>
    ([some .en], [.faultQ, .ingress, .chans, .tw])
  | .asyncIdleGap _ _ | .asyncTxStart _ _ | .recordFlushTimeout _ _ | .syncTrigger _ _ | .syncTransferEnd _ _ | .discDebounceAccept _ _
    | .discSchedItem _ _ | .ttColumnStart _ | .ttRefTimeout _ =>
    ([some .en], [.faultQ, .ingress, .chans])
  | .asyncDeLagExpire _ _ | .pwmPeriodStart _ _ =>
    ([], [.chans])
  | .txRecordReceived _ =>
    ([some .ec], [.faultQ, .ingress, .core, .chans])
  | .syCmdGo _ _ | .pbAbort _ _ | .pbFlush _ _ | .pbRecover _ _ =>
    ([some .sc, some .tw, some .en], [.ans, .faultQ, .ingress, .scan, .chans])
  | .enDiCountTake _ _ =>
    ([some .sc, some .en], [.ans, .faultQ, .ingress, .scan, .chans])
  | .diOutWrite _ _ _ | .enModeWrite _ _ _ =>
    ([some .sc, some .tw, some .en], [.shad, .ans, .faultQ, .ingress, .scan, .chans, .tw])
  | .enClrCnt _ _ =>
    ([some .sc, some .tw, some .en], [.ans, .faultQ, .ingress, .scan])
  | .ecMigCmd _ _ _ | .ecMigUrgent _ _ _ =>
    ([some .sc, some .tw, some .ec, some .en], [.shad, .ans, .faultQ, .ingress, .scan, .chans])
  | .migrationSwitch _ =>
    ([some .ec, some .en, some .mem, some .wr], [.shad, .faultQ, .mram, .ingress, .chans])
  | .migrationTimeout _ =>
    ([some .ec], [.faultQ, .ingress, .chans])
  | .ecClrCnt _ _ =>
    ([some .sc, some .tw, some .ec], [.ans, .faultQ, .ingress, .scan])
  | .pbusMessageReceived _ _ =>
    ([some .en, some .rt], [.faultQ, .ingress, .chans, .lookWait])
  | .routedFrameReceived _ =>
    ([some .en], [.faultQ, .ingress, .core, .chans])
  | .ttBasicCycleStart _ =>
    ([some .en], [.chans])
  | .sampleSubmit _ _ =>
    ([some .tm, some .sc, some .tw], [.ans, .faultQ, .ingress, .tm, .scan, .fresh])
  | .domainTimeout _ | .stAutoSwitch | .slewDone =>
    ([some .tm], [.faultQ, .ingress, .tm])
  | .tmJump _ =>
    ([some .tm, some .sc, some .tw], [.ans, .faultQ, .ingress, .tm, .scan])
  | .tmSnap _ | .tmClrCnt _ =>
    ([some .tm, some .sc, some .tw], [.ans, .faultQ, .ingress, .scan])
  | .syncOriginate _ =>
    ([some .tm], [.ingress, .tm])
  | .scOpubSend _ _ | .memClrCnt _ =>
    ([some .sc, some .tw, some .mem], [.ans, .faultQ, .ingress, .scan])
  | .scClrCnt _ | .twClrCnt _ =>
    ([some .sc, some .tw], [.ans, .faultQ, .ingress, .scan])
  | .tagQuarantineEnd _ =>
    ([], [.br])
  | .requestResend _ =>
    ([some .br], [.ingress, .br])
  | .slotExpired _ =>
    ([some .br], [.faultQ, .ingress, .br])
  | .signalSend _ _ | .txfSend _ _ | .brClrCnt _ =>
    ([some .sc, some .br, some .tw], [.ans, .faultQ, .ingress, .scan])
  | .twinPortFrameReceive _ _ =>
    ([some .rp, some .tw], [.faultQ, .ingress, .core, .ring, .tw])
  | .twResync _ =>
    ([some .sc, some .tw], [.ans, .faultQ, .ingress, .core, .scan, .tw])
  | .twSwap _ =>
    ([some .sc, some .tw], [.ans, .faultQ, .ingress, .ring, .scan, .tw])
  | .twRelease _ =>
    ([some .sc, some .tw], [.ans, .faultQ, .ingress, .core, .ring, .scan, .tw])
  | .twResetTwin _ =>
    ([some .sc, some .tw], [.ans, .faultQ, .ingress, .ring, .scan])
  | .supervisorSample _ =>
    ([some .fd, some .pp], [.faultQ, .ingress, .supv, .fresh])
  | .presenceChange _ _ _ | .precheckDone _ | .rampTimeout _ | .busWindowFault _ | .seatOpenExtract _ | .instantTrip _ | .coolDone _ |
    .roleToSupervisor =>
    ([some .pp], [.faultQ, .ingress, .supv])
  | .insertConditionMet _ | .rampReached _ | .enhanceDone _ | .attemptsClear _ =>
    ([some .pp], [])
  | .powerGoodGiven _ =>
    ([some .pp], [.faultQ, .ingress])
  | .breakerTrip _ | .rdsMeasure _ =>
    ([some .pp], [.faultQ, .ingress, .supv, .fresh])
  | .clearLatch _ _ | .rdsCapture _ _ | .ppClrCnt _ _ | .fdClrCnt _ =>
    ([some .sc, some .tw], [.ans, .faultQ, .ingress, .scan, .supv])
  | .feedQualified _ | .feedLost _ | .changeoverDeadEnd =>
    ([some .fd], [.faultQ, .ingress, .supv])
  | .disturbanceEnd _ =>
    ([some .gs, some .fd], [.faultQ, .gs, .ingress, .supv, .fresh])
  | .disturbEntryRead _ _ =>
    ([some .sc], [.ans, .faultQ, .gs, .ingress, .scan])
  | .scratchpadAccess _ _ _ _ _ =>
    ([some .sc, some .mem], [.ans, .faultQ, .ingress, .mem, .scan, .fresh])
  | .bankHandover _ _ | .bankPowerOn _ _ | .bankPowerRetention _ _ | .bankPowerOff _ _ =>
    ([some .sc, some .tw, some .mem], [.ans, .faultQ, .ingress, .mem, .scan])
  | .bankInitDone _ =>
    ([some .mem], [.faultQ, .ingress, .mem])
  | .spRowEccThreshold _ _ =>
    ([], [.mem])
  | .marchGo _ _ =>
    ([some .core, some .q, some .sc, some .tw, some .mem], [.stopping, .ans, .faultQ, .ingress, .core, .mem, .scan])
  | .marchAbort _ =>
    ([some .sc, some .tw], [.ans, .faultQ, .ingress, .mem, .scan])
  | .marchRowStep _ =>
    ([some .core, some .mem, some .wr], [.faultQ, .mram, .ingress, .core, .mem, .fresh])
  | .marchRunDone _ _ =>
    ([some .core, some .mem, some .wr], [.faultQ, .mram, .ingress, .core, .mem, .scan, .fresh])
  | .rowRepair _ _ =>
    ([some .mem, some .wr], [.faultQ, .mram, .ingress, .mem, .fresh])
  | .ftRelease _ _ =>
    (everyKind, [.ans, .faultQ, .iso, .isl, .ingress, .scan])
  | .ftClrCnt _ =>
    ([some .sc, some .tw, some .ft], [.ans, .faultQ, .gs, .ingress, .scan])
  | .thermalWarn _ =>
    ([some .ft], [.faultQ, .ingress, .ft])
  | .sentinelMeasure _ =>
    (everyKind, [.shad, .faultQ, .ingress, .core, .ring, .mem, .chans, .wear, .fresh])
  | .wrCapture _ | .wrClrCnt _ | .wrRefCmd _ _ | .wrPllCmd _ _ =>
    ([some .sc, some .tw, some .wr], [.ans, .faultQ, .ingress, .scan])
  | .wrStore _ =>
    ([some .sc, some .tw, some .wr], [.ans, .faultQ, .ingress, .scan, .wear])
  | .blDone _ _ _ =>
    ([some .wr], [.faultQ, .mram, .ingress, .wear, .fresh])
  | .wearClr _ =>
    ([some .sc, some .tw], [.ans, .faultQ, .ingress, .scan, .wear])
  | .referenceFail _ _ =>
    ([some .wr], [.faultQ, .ingress, .wear])
  | .pllLockLoss _ _ =>
    (everyKind, [.shad, .stopping, .ans, .faultQ, .gs, .isl, .pll, .spll, .ingress, .core, .ring, .mem, .tm, .scan, .cards, .chans, .ucode, .tw, .supv, .br, .host, .spi, .ft, .wear, .up])
  | .pllRelock _ _ =>
    ([some .rp, some .tm, some .tw, some .wr], [.faultQ, .gs, .isl, .pll, .spll, .lc, .ingress, .ring, .tm])
  | .updWriteDone _ =>
    ([some .up], [.faultQ, .mram, .ingress, .up, .fresh])
  | .updConfirm _ =>
    ([some .sc, some .tw], [.ans, .faultQ, .ingress, .scan, .up])
  | .updateCommit _ =>
    ([some .up], [.faultQ, .gs, .ingress, .cards, .up])
  | .upClrCnt _ =>
    ([some .sc, some .tw, some .up], [.ans, .faultQ, .ingress, .scan])
  | .controlFrameReceived _ =>
    ([some .ft], [.faultQ, .ingress, .supv])
  | .hostAdsDuringAccess =>
    ([some .hp], [])
  | .hostAccessAbandon =>
    ([some .br], [.faultQ, .ingress, .mem, .scan, .br, .host])
  | .optFuseRead =>
    ([some .gs, some .opt, some .clk], [.faultQ, .gs, .ingress])
  | .optClocksLocked =>
    ([some .gs, some .core, some .ec, some .en, some .mem, some .wr, some .up], [.faultQ, .gs, .pll, .spll, .ingress, .mem, .wear, .up, .fresh])
  | .optEqualize =>
    (everyKind, [.faultQ, .gs, .ingress, .mem, .wear, .up, .fresh])
  | .topoSend =>
    ([], [.ingress])
  | .bankReplaceDone =>
    ([some .core, some .mem, some .wr], [.faultQ, .mram, .ingress, .core])
  | .routeLookupBegin =>
    ([], [.lookWait, .looking])
  | .routeLookupDone =>
    ([some .q, some .en, some .rt], [.faultQ, .ingress, .core, .chans, .looking, .tw])
  | .latchDone =>
    ([some .mem], [.faultQ, .ingress, .mem, .scan, .chans, .tw])
  | .guardStart =>
    ([some .sc, some .mem], [.faultQ, .ingress, .scan, .chans])
  | .scanFrameTake =>
    ([some .rc, some .sc], [.faultQ, .ingress, .core, .scan, .tw])
  | .lateWrReceived =>
    ([some .br], [.faultQ, .ingress, .core])
  | .farFenceComplete =>
    ([], [.ingress, .br])
  | .signalReceived =>
    ([some .br], [.core])
  | .txfWriteDone =>
    ([some .br], [])
  | .twinStartWaitExpired | .tguyReceived | .claimDecision =>
    ([some .tw], [.faultQ, .ingress, .core, .chans, .tw])
  | .tguySend =>
    ([some .tw], [.faultQ, .ingress, .core, .ring, .tw])
  | .twinGuyTimeout | .swapAnswerReceived | .swapAnswerTimeout | .releaseReceived | .mstateReturnSynced =>
    ([some .tw], [.faultQ, .ingress, .tw])
  | .mackSend =>
    ([], [.ring, .tw])
  | .mackReceived | .mirrorPeriodicEntry =>
    ([some .tw], [.faultQ, .ingress, .core, .tw])
  | .swapProposeReceived | .periodicSwapDue =>
    ([some .tw], [.faultQ, .ingress, .ring, .tw])
  | .supvLinkDown =>
    ([some .fd, some .pp, some .ft], [.faultQ, .ingress, .supv])
  | .supvLinkUp =>
    ([], [.supv])
  | .changeoverEnd =>
    ([some .fd], [.faultQ, .ingress])
  | .updVerifyDone =>
    ([some .up], [.faultQ, .mram, .ingress, .up])
  | .strikeDone =>
    ([some .tw, some .up], [.faultQ, .ingress, .ring, .tw, .up])
  | .cardRelayStart =>
    ([some .up], [.cards, .up])

end Sys2Proof.Machine

/-- The area of a command is listed by the table of kinds of pages and parts of the state; a command that can reach every page (a host access, a
reset, an incoming request) may change all of them but LC. From every state in canonical form, whatever next state a command gives has every
register of the other kinds of pages and every other part as it was. -/
def Obligations.CommandStaysInItsArea : Prop :=
    (∀ (c : Instr) (s t : State), s.canonical = true → Sys2Proof.Machine.exec c s = .next t → Within (area c).1 (area c).2 s t)

namespace Sys2Proof.Machine

/-- The register access that a command makes (chapter 2): who, the page its number reaches, offset, and whether it is a read. -/
def target (s : State) : Instr → Option (Initiator × Nat × Nat × Bool)
  | .fenceStart who win _ => some (who, 0x020, (BR_WIN_FENCE + 0x10 * win.val), false)
  | .signalSend who _ => some (who, 0x020, BR_SIG_SEND, false)
  | .txfSend who _ => some (who, 0x020, BR_TXF_CMD, false)
  | .brClrCnt who => some (who, 0x020, BR_CTRL, false)
  | .clRetrain who pitch => some (who, (clPage pitch.val), CL_CTRL, false)
  | .clClrCnt who pitch => some (who, (clPage pitch.val), CL_CTRL, false)
  | .enDiCountTake who engine => some (who, (s.enReg engine), EN_DI_COUNT, true)
  | .diOutWrite who engine _ => some (who, (s.enReg engine), DI_OUT, false)
  | .enModeWrite who engine _ => some (who, (s.enReg engine), EN_MODE, false)
  | .enClrCnt who engine => some (who, (s.enReg engine), EN_MODE, false)
  | .ecClrCnt who cluster => some (who, (ecPage cluster.val), EC_CTRL, false)
  | .ecMigCmd who cluster _ => some (who, (ecPage cluster.val), EC_MIG_CMD, false)
  | .ecMigUrgent who cluster _ => some (who, (ecPage cluster.val), EC_MIG_CMD, false)
  | .ftRelease who _ => some (who, 0x004, FT_RELEASE, false)
  | .ftClrCnt who => some (who, 0x004, FT_CTRL, false)
  | .forceRetrain who port => some (who, port.page, LN_CTRL, false)
  | .portEnWrite who port _ => some (who, port.page, LN_CTRL, false)
  | .lnClrCnt who port => some (who, port.page, LN_CTRL, false)
  | .lnSpareCmd who port _ => some (who, port.page, LN_SPARE_CMD, false)
  | .bankHandover who _ => some (who, 0x280, MEM_BANK_CMD, false)
  | .bankPowerOn who _ => some (who, 0x280, MEM_BANK_CMD, false)
  | .bankPowerRetention who _ => some (who, 0x280, MEM_BANK_CMD, false)
  | .bankPowerOff who _ => some (who, 0x280, MEM_BANK_CMD, false)
  | .marchGo who _ => some (who, 0x280, MEM_MARCH_CMD, false)
  | .marchAbort who => some (who, 0x280, MEM_MARCH_CMD, false)
  | .memClrCnt who => some (who, 0x280, MEM_CTRL, false)
  | .clearLatch who pitch => some (who, (ppPage pitch.val), PP_CTRL, false)
  | .rdsCapture who pitch => some (who, (ppPage pitch.val), PP_CTRL, false)
  | .ppClrCnt who pitch => some (who, (ppPage pitch.val), PP_CTRL, false)
  | .fdClrCnt who => some (who, 0x028, FD_CTRL, false)
  | .disturbEntryRead who entry => some (who, 0, (0x200 + 8 * entry.val), true)
  | .qFlush who page _ => some (who, (0x011 + page.val), Q_FLUSH, false)
  | .qClrCnt who page => some (who, (0x011 + page.val), Q_CTRL, false)
  | .mbPush who m _ => some (who, 0x014, (MB_PUSH + 4 * m.val), false)
  | .mbPopTake who m _ => some (who, 0x014, (MB_POP + 4 * m.val), true)
  | .qrpTake who page _ => some (who, (0x011 + page.val), QRP_TAKE, true)
  | .coreSpareCmd who _ => some (who, 0x010, CORE_SPARE_CMD, false)
  | .coreClrCnt who => some (who, 0x010, CORE_CTRL, false)
  | .hostSoftReset who _ => some (who, 0, GS_SOFT_RESET, false)
  | .wdogKick who _ => some (who, 0, GS_WDOG_KICK, false)
  | .gsHoldSet who _ => some (who, 0, GS_HOLD, false)
  | .gsHoldRelease who _ => some (who, 0, GS_HOLD, false)
  | .aonRead who => some (who, 0, GS_AON_LO, true)
  | .fuseProgGo who _ => some (who, 1, FUSE_PROG_CTRL, false)
  | .resetSend who _ => some (who, 0x00A, RC_RST_SEND, false)
  | .rpClrCnt who port => some (who, port.page, RP_CTRL, false)
  | .scOpubSend who _ => some (who, 0x01C, SC_OPUB_SEND, false)
  | .scClrCnt who => some (who, 0x01C, SC_CTRL, false)
  | .syCmdGo who engine => some (who, (s.enReg engine), SY_CMD, false)
  | .tmJump who => some (who, 0x018, TM_CTRL, false)
  | .tmSnap who => some (who, 0x018, TM_CTRL, false)
  | .tmClrCnt who => some (who, 0x018, TM_CTRL, false)
  | .sampleSubmit who _ => some (who, 0x018, TM_SMP_CMD, false)
  | .twRelease who => some (who, 0x024, TW_CMD, false)
  | .twResetTwin who => some (who, 0x024, TW_CMD, false)
  | .twResync who => some (who, 0x024, TW_CMD, false)
  | .twClrCnt who => some (who, 0x024, TW_CMD, false)
  | .twSwap who => some (who, 0x024, TW_CMD, false)
  | .updClear who _ => some (who, 0x290, UP_CMD, false)
  | .updWrite who _ => some (who, 0x290, UP_CMD, false)
  | .updVerify who _ => some (who, 0x290, UP_CMD, false)
  | .updArm who _ => some (who, 0x290, UP_CMD, false)
  | .updArmNow who _ => some (who, 0x290, UP_CMD, false)
  | .updDisarm who _ => some (who, 0x290, UP_CMD, false)
  | .updWriteArea who _ => some (who, 0x290, UP_CMD, false)
  | .updConfirm who => some (who, 0x290, UP_CTRL, false)
  | .upClrCnt who => some (who, 0x290, UP_CTRL, false)
  | .wrRefCmd who _ => some (who, 0x005, WR_REF_CMD, false)
  | .wrPllCmd who _ => some (who, 0x005, WR_PLL_CMD, false)
  | .wrCapture who => some (who, 0x005, WR_CMD, false)
  | .wrStore who => some (who, 0x005, WR_CMD, false)
  | .wearClr who => some (who, 0x005, WR_CMD, false)
  | .wrClrCnt who => some (who, 0x005, WR_CMD, false)
  | .pbAbort who engine => some (who, s.enReg engine, PB_CMD, false)
  | .pbFlush who engine => some (who, s.enReg engine, PB_CMD, false)
  | .pbRecover who engine => some (who, s.enReg engine, PB_CMD, false)
  | .pageEnableWrite who page _ _ => some (who, s.enAlias page, PAGE_CTRL, false)
  | .commit who page _ _ => some (who, s.enAlias page, PAGE_CTRL, false)
  | .abortCommit who page _ _ _ => some (who, s.enAlias page, PAGE_CTRL, false)
  | .resetBlock who page _ => some (who, s.enAlias page, PAGE_CTRL, false)
  | .evtForce who page _ => some (who, s.enAlias page, EVT_FORCE, false)
  | .registerWrite who page off _ => some (who, s.enAlias page, off, false)
  | _ => none

end Sys2Proof.Machine

/-- For the 82 commands that write or read a register: where the access does not reach its block (no READY block, an unmapped page or an offset
that is not a word), it is answered with the code that says so and data 0; no register changes but EVT_STATUS of page 0x01C, for a packed
group given up, and beside registers only the answers, the packs and snapshots of the scan unit, and the sources and signals of that event.
A register write that reaches its block, of a register that R401 mirrors, on a hub whose ROLE is standby, from an initiator that is neither
the mirror stream nor the preload path, is answered OK and raises STBY_WRITE; no register changes but EVT_STATUS of pages 0x024 and 0x01C. -/
def Obligations.RefusedAccessesChangeNothing : Prop :=
    (∀ (s : State) (c : Instr) (who : Initiator) (p off : Nat) (rd : Bool), target s c = some (who, p, off, rd) →
      s.reach who p off ≠ rspOk → completes c s fun t => t.ansOf who = ⟨s.reach who p off, 0, none⟩ ∧
      onlyRegs [(0x01C, EVT_STATUS)] s t ∧ quiet { s with ans := t.ans, scan := t.scan } t) ∧
    (∀ (s : State) (c : Instr) (who : Initiator) (p off : Nat), target s c = some (who, p, off, false) →
      s.reach who p off = rspOk → s.stbyRefuses who p off = true → completes c s fun t => t.ansOf who = ⟨rspOk, 0, none⟩ ∧
      t.event 0x024 EV_TW_STBY_WRITE = true ∧ onlyRegs [(0x01C, EVT_STATUS), (0x024, EVT_STATUS)] s t ∧
      quiet { s with ans := t.ans, scan := t.scan } t)

namespace Sys2Proof.Machine

/-- The registers of one page that a counter clear sets to 0: initiator, page, offset written, and the offsets of the counters (the tables
of the pages' CLR_CNT bits). -/
def clears (s : State) : Instr → Option (Initiator × Nat × Nat × List Nat)
  | .lnClrCnt who port => some (who, port.page, LN_CTRL, LN_PORT_CNT :: (List.range (laneCount port)).map (LN_CNT + 16 * ·))
  | .rpClrCnt who port => some (who, port.page, RP_CTRL, RP_PD_CNT :: (List.range 16).map (0x120 + 4 * ·))
  | .coreClrCnt who => some (who, 0x010, CORE_CTRL, [CORE_CNT_MCAST_PARTIAL, CORE_CNT_WR_DEFER, CORE_CNT_UE] ++
      (List.range 17).map (CORE_BANK_CNT + 4 * ·) ++ (List.range 240).map (CORE_PCNT_CELLS_IN + 4 * ·))
  | .qClrCnt who page => some (who, 0x011 + page.val, Q_CTRL, [Q_CNT_FLUSH, Q_CNT_GRACE])
  | .clClrCnt who pitch => some (who, clPage pitch.val, CL_CTRL, [CL_CNT_BAD, CL_CNT_FAR, CL_CNT_LINK, CL_CNT_BLOCK, CL_CNT_GLITCH, CL_LCNT])
  | .enClrCnt who engine => some (who, s.enReg engine, EN_MODE, (List.range 4).map (EN_CNT + 4 * ·))
  | .ecClrCnt who cluster => some (who, ecPage cluster.val, EC_CTRL, [EC_CNT_MIG, EC_CNT_TXDROP])
  | .tmClrCnt who => some (who, 0x018, TM_CTRL, [TM_D_CNT, TM_D_CNT + 0x40])
  | .scClrCnt who => some (who, 0x01C, SC_CTRL, (List.range 8).map (SC_CNT_IN + 4 * ·))
  | .brClrCnt who => some (who, 0x020, BR_CTRL, (List.range 8).map (BR_CNT_TIMEOUT + 4 * ·))
  | .twClrCnt who => some (who, 0x024, TW_CMD, [TW_CNT_SWITCH, TW_CNT_RESYNC, TW_CNT_CANOPY_LATE, TW_CNT_BAD])
  | .memClrCnt who => some (who, 0x280, MEM_CTRL, [MEM_HIST_STAT, MEM_CNT_FOREIGN, MEM_CAN_CNT] ++ (List.range 8).map (MEM_BANK_CNT + 0x10 * ·))
  | .ftClrCnt who => some (who, 0x004, FT_CTRL, FT_CNT :: (List.range 256).map (FT_SRC_CNT + 4 * ·))
  | .wrClrCnt who => some (who, 0x005, WR_CMD, [WR_CNT])
  | .upClrCnt who => some (who, 0x290, UP_CTRL, [UP_CNT])
  | _ => none

end Sys2Proof.Machine

/-- A write of a page's CLR_CNT bit completes and leaves every counter of its list 0; no other register changes but, for the scan page, the GAPS
fields of the subscriptions, which are 0, and for an engine in PBUS mode its three message counts, which are 0; beside registers only the
answers, the scan unit's packs and the record that FT_CTRL has been written differ. -/
def Obligations.CounterClearZeroesItsCounters : Prop :=
    (∀ (s : State) (c : Instr) (who : Initiator) (p off : Nat) (l : List Nat), clears s c = some (who, p, off, l) → s.accepts who p off = true → completes c s fun t => (∀ o ∈ l, t.rd p o = 0) ∧ t.ansOf who = ⟨rspOk, 0, none⟩ ∧ onlyRegs ((0x01C, EVT_STATUS) :: (l.map (p, ·) ++ (if p = 0x01C then (List.range 32).map (fun j => (p, SC_SUB_STAT + 0x10 * j)) else if off = EN_MODE ∧ s.enMode p = 2 then [(p, PB_CNT_ARB), (p, PB_CNT_RX), (p, PB_CNT_TX)] else []))) s t ∧ (p = 0x01C → ∀ j < 32, t.fg p (SC_SUB_STAT_GAPS.at (0x10 * j)) = 0) ∧ quiet { s with ans := t.ans, scan := t.scan, gs := { s.gs with cfgErr := t.gs.cfgErr } } t)

/-! ### Register pages (chapter 2) -/

namespace Sys2Proof.Machine

/-- Registers of these pages that have no effect of their own when written. -/
def plainAt (p off : Nat) : Bool := decide (0x040 ≤ off) && decide (off < 4096) && match kindOf p with
  | some .rt => true
  | some .sm => true
  | some .rc => decide (off ≠ RC_RST_SEND) && (decide (off < RC_RST_CRED) || decide (RC_RST_CRED + 16 ≤ off))
  | some .core => decide (off ≠ CORE_CTRL) && decide (off ≠ CORE_SPARE_CMD)
  | some .tm => decide (off ≠ TM_CTRL) && decide (off ≠ TM_SMP_CMD)
  | some .sc => decide (off ≠ SC_CTRL) && decide (off ≠ SC_OPUB_SEND)
  | some .ec => decide (off ≠ EC_CTRL) && decide (off ≠ EC_MIG_CMD)
  | some .mem => decide (off ≠ MEM_CTRL) && decide (off ≠ MEM_BANK_CMD) && decide (off ≠ MEM_MARCH_CMD)
  | _ => false

end Sys2Proof.Machine

/-- REGISTER_WRITE of a register that has no effect of its own, on the pages listed, where the access reaches the block: bits outside W1C and
W1S take the written value where they are RW, or RWL with RUNNING 0 or through the preload path, and keep theirs elsewhere; other registers
keep theirs but EVT_STATUS. A bit written 1 that is W1C clears, and one written 0 stays. With no commit pending, RWS bits go to the shadow
and the active bits stay. While a commit pends, they have no effect and SHADOW_BUSY is raised; RWL bits written while RUNNING is 1 raise
LOCKED_WRITE. -/
def Obligations.PlainWritesActByAccessCode : Prop :=
    (∀ (s : State) (who : Initiator) (page p off : Nat) (v : Word) (r : Row),
      s.enAlias page = p →
      plainAt p off = true →
      s.rowAt p off = some r →
      s.accepts who p off = true →
      completes (.registerWrite who page off v) s fun t =>
        (∀ i < 32, nbit r.w1c i = false → nbit r.w1s i = false → (t.rd p off).getLsbD i =
      (if nbit r.rw i || (nbit r.rwl i && (!s.running p || decide (who = .preload))) then v.getLsbD i else (s.rd p off).getLsbD i)) ∧
        onlyRegs [(p, off), (p, EVT_STATUS), (0x01C, EVT_STATUS)] s t ∧
        quiet { s with ans := t.ans, scan := t.scan, shad := t.shad, tw := t.tw } t ∧
        t.ansOf who = ⟨rspOk, 0, none⟩) ∧
    (∀ (s : State) (who : Initiator) (page p off : Nat) (v : Word) (r : Row) (i : Nat),
      s.enAlias page = p →
      plainAt p off = true →
      s.rowAt p off = some r →
      s.accepts who p off = true →
      nbit (r.rw ||| r.rwl ||| r.w1s) i = false →
      nbit r.w1c i = true →
      i < 32 →
      completes (.registerWrite who page off v) s fun t =>
        (t.rd p off).getLsbD i = ((s.rd p off).getLsbD i && !v.getLsbD i)) ∧
    (∀ (s : State) (who : Initiator) (page p off : Nat) (v : Word) (r : Row) (i : Nat),
      s.enAlias page = p →
      plainAt p off = true →
      s.rowAt p off = some r →
      s.accepts who p off = true →
      s.commitPending p = false →
      nbit r.rws i = true →
      nbit (r.rw ||| r.rwl ||| r.w1c ||| r.w1s) i = false →
      i < 32 →
      completes (.registerWrite who page off v) s fun t =>
        (t.rdSh p off).getLsbD i = v.getLsbD i ∧
        (t.rd p off).getLsbD i = (s.rd p off).getLsbD i) ∧
    (∀ (s : State) (who : Initiator) (page p off : Nat) (v : Word) (r : Row) (i : Nat),
      s.enAlias page = p →
      plainAt p off = true →
      s.rowAt p off = some r →
      s.accepts who p off = true →
      s.commitPending p = true →
      nbit r.rws i = true →
      nbit (r.rw ||| r.rwl ||| r.w1c ||| r.w1s) i = false →
      i < 32 →
      completes (.registerWrite who page off v) s fun t =>
        (t.rdSh p off).getLsbD i = (s.rdSh p off).getLsbD i ∧
        t.event p EV_SHADOW_BUSY = true ∧
        ((s.running p && decide (who ≠ .preload) && decide (r.rwl ≠ 0)) = true → t.event p EV_LOCKED_WRITE = true))

/-- REGISTER_WRITE of EVT_STATUS clears each bit written 1 and keeps the others. REGISTER_WRITE of EVT_ENABLE stores its defined bits. COMPAT of
the pages of R61 stores MODE while RUNNING is 0, the value 0b11 aside; on other pages nothing changes. EVT_FORCE sets the status bit of
every defined event written 1, keeps the other bits, and raises the event's fault source. -/
def Obligations.HeaderWritesAndForcedEvents : Prop :=
    (∀ (s : State) (who : Initiator) (page p : Nat) (v : Word),
      s.enAlias page = p →
      supPage p = false →
      p ≠ 0x01C →
      s.accepts who p EVT_STATUS = true →
      completes (.registerWrite who page EVT_STATUS v) s fun t =>
        t.rd p EVT_STATUS = s.rd p EVT_STATUS &&& ~~~ v ∧
        onlyRegs [(p, EVT_STATUS), (0x01C, EVT_STATUS)] s t) ∧
    (∀ (s : State) (who : Initiator) (page p : Nat) (v : Word),
      s.enAlias page = p →
      supPage p = false →
      s.accepts who p EVT_ENABLE = true →
      completes (.registerWrite who page EVT_ENABLE v) s fun t =>
        t.rd p EVT_ENABLE = v &&& BitVec.ofNat 32 (evtMaskOf p) ∧
        onlyRegs [(p, EVT_ENABLE), (0x01C, EVT_STATUS)] s t) ∧
    (∀ (s : State) (who : Initiator) (page p : Nat) (v : Word),
      s.enAlias page = p →
      supPage p = false →
      s.accepts who p COMPAT = true →
      s.running p = false →
      completes (.registerWrite who page COMPAT v) s fun t =>
        (t.fg p COMPAT_MODE = if compatPage p = true ∧ COMPAT_MODE.get v ≠ 3 then COMPAT_MODE.get v else s.fg p COMPAT_MODE) ∧
        onlyRegs [(p, COMPAT), (0x01C, EVT_STATUS)] s t) ∧
    (∀ (s : State) (who : Initiator) (page p : Nat) (v : Word) (b : Nat),
      s.enAlias page = p →
      supPage p = false →
      p ≠ 0x01C →
      s.accepts who p EVT_FORCE = true →
      b < 32 →
      completes (.evtForce who page v) s fun t =>
        t.event p b = (s.event p b || (nbit (evtMaskOf p) b && v.getLsbD b)) ∧
        ((nbit (evtMaskOf p) b && v.getLsbD b) = true → ∀ n, faultSource p b = some n → (n, 0) ∈ t.faultQ) ∧
        onlyRegs [(p, EVT_STATUS), (0x01C, EVT_STATUS)] s t)

namespace Sys2Proof.Machine

/-- Pages whose block starts with nothing beside RUNNING, and stops at its own point with nothing beside it. -/
def startsPlain : List Nat := [0x004, 0x005, 0x008, 0x009, 0x00A, 0x018, 0x020, 0x021, 0x024, 0x080, 0x097, 0x280, 0x290]

end Sys2Proof.Machine

/-- PAGE_ENABLE_WRITE with ENABLE 0 on a running block that stops at a later point: the block is stopping and still RUNNING. With ENABLE 1 on a
block that is not READY, the request is latched and nothing starts. With ENABLE 1 on a READY block that starts without more, RUNNING rises
at once with STATE_CHANGE. On queue, routing and matrix pages ENABLE is stored and has no effect. BLOCK_READY_RISE raises READY of a page
whose conditions hold, with STATE_CHANGE, and a latched ENABLE starts the block. BLOCK_STOP_POINT of a block that is asked to stop: RUNNING
falls with STATE_CHANGE. -/
def Obligations.EnableStartsAndStopsBlocks : Prop :=
    (∀ (s : State) (who : Initiator) (page p : Nat) (ra : Bool),
      s.enAlias page = p →
      supPage p = false →
      enableActs p = true →
      kindOf p ≠ some .cl →
      s.running p = true →
      s.accepts who p PAGE_CTRL = true →
      completes (.pageEnableWrite who page false ra) s fun t =>
        t.fg p PAGE_CTRL_ENABLE = 0 ∧
        t.fg p PAGE_CTRL_READ_ACTIVE = bit ra ∧
        p ∈ t.stopping ∧
        t.running p = true ∧
        onlyRegs [(p, PAGE_CTRL), (0x01C, EVT_STATUS)] s t) ∧
    (∀ (s : State) (who : Initiator) (page p : Nat) (ra : Bool),
      s.enAlias page = p →
      supPage p = false →
      s.ready p = false →
      s.running p = false →
      enableActs p = true →
      s.accepts who p PAGE_CTRL = true →
      completes (.pageEnableWrite who page true ra) s fun t =>
        t.fg p PAGE_CTRL_ENABLE = 1 ∧
        t.fg p PAGE_CTRL_READ_ACTIVE = bit ra ∧
        p ∉ t.stopping ∧
        t.running p = false) ∧
    (∀ (s : State) (who : Initiator) (page p : Nat) (ra : Bool),
      s.enAlias page = p →
      p ∈ startsPlain →
      s.ready p = true →
      s.running p = false →
      s.accepts who p PAGE_CTRL = true →
      completes (.pageEnableWrite who page true ra) s fun t =>
        t.running p = true ∧
        t.event p EV_STATE_CHANGE = true ∧
        onlyRegs [(p, PAGE_CTRL), (p, PAGE_STATE), (p, EVT_STATUS), (0x01C, EVT_STATUS)] s t) ∧
    (∀ (s : State) (who : Initiator) (page p : Nat) (en ra : Bool),
      s.enAlias page = p →
      supPage p = false →
      enableActs p = false →
      s.accepts who p PAGE_CTRL = true →
      completes (.pageEnableWrite who page en ra) s fun t =>
        t.fg p PAGE_CTRL_ENABLE = bit en ∧
        t.running p = s.running p ∧
        t.stopping = s.stopping ∧
        onlyRegs [(p, PAGE_CTRL), (0x01C, EVT_STATUS)] s t) ∧
    (∀ (s : State) (p : Nat),
      p ∈ startsPlain →
      s.ready p = false →
      s.running p = false →
      s.readyOk p = true →
      completes (.blockReadyRise p) s fun t =>
        t.ready p = true ∧
        t.event p EV_STATE_CHANGE = true ∧
        t.running p = s.enabled p ∧
        onlyRegs [(p, PAGE_STATE), (p, EVT_STATUS)] s t) ∧
    (∀ (s : State) (p : Nat),
      p ∈ startsPlain →
      p ∈ s.stopping →
      s.running p = true →
      s.commitPending p = false →
      completes (.blockStopPoint p) s fun t =>
        t.running p = false ∧
        t.event p EV_STATE_CHANGE = true ∧
        p ∉ t.stopping ∧
        onlyRegs [(p, PAGE_STATE), (p, EVT_STATUS)] s t)

namespace Sys2Proof.Machine

/-- Pages on which a commit does nothing beside taking the shadows. -/
def plainCommits : List Nat := [0x010, 0x011, 0x012, 0x013, 0x014, 0x024, 0x080, 0x097, 0x200, 0x23F, 0x280]

end Sys2Proof.Machine

/-- COMMIT on a running block: COMMIT_PENDING is 1 and RESULT pending; no other register but PAGE_CTRL changes. While one pends, a second COMMIT
changes nothing of it. COMMIT_POINT where the check passes: every shadowed field takes its shadow value, RESULT applied, SEQ counts,
COMMIT_DONE, and no shadow differs. Where the check fails, the active values and the shadows stay: RESULT refused with the reason and the
first register at fault, SEQ counts, COMMIT_REFUSED. -/
def Obligations.CommitsAreFrozenCheckedAndApplied : Prop :=
    (∀ (s : State) (who : Initiator) (page p : Nat) (ra : Bool),
      s.enAlias page = p →
      supPage p = false →
      p ≠ 0x020 →
      s.running p = true →
      s.commitPending p = false →
      s.accepts who p PAGE_CTRL = true →
      completes (.commit who page true ra) s fun t =>
        t.commitPending p = true ∧
        t.fg p CFG_STATUS_RESULT = 1 ∧
        t.shad = s.shad ∧
        onlyRegs [(p, PAGE_CTRL), (p, PAGE_STATE), (p, CFG_STATUS), (0x01C, EVT_STATUS)] s t) ∧
    (∀ (s : State) (who : Initiator) (page p : Nat) (ra : Bool),
      s.enAlias page = p →
      supPage p = false →
      s.running p = true →
      s.commitPending p = true →
      s.accepts who p PAGE_CTRL = true →
      completes (.commit who page true ra) s fun t =>
        t.rd p CFG_STATUS = s.rd p CFG_STATUS ∧
        t.commitPending p = true ∧
        t.shad = s.shad) ∧
    (∀ (s : State) (p : Nat),
      p ∈ plainCommits →
      s.commitPending p = true →
      s.ready p = true →
      s.pointNow p = true →
      s.blockCheck p = none →
      completes (.commitPoint p) s fun t =>
        t.commitPending p = false ∧
        t.fg p CFG_STATUS_RESULT = 2 ∧
        t.fg p CFG_STATUS_REASON = 0 ∧
        t.fg p CFG_STATUS_SEQ = (s.fg p CFG_STATUS_SEQ + 1) % 64 ∧
        t.event p EV_COMMIT_DONE = true ∧
        (∀ off r, 0x040 ≤ off → off < 4096 → s.rowAt p off = some r → t.rd p off = blend r.rws (s.rdSh p off) (s.rd p off)) ∧
        (∀ off, t.rdSh p off = t.rd p off) ∧
        onlyPages [p] s t) ∧
    (∀ (s : State) (p : Nat) (reason off : Nat),
      p ∈ plainCommits →
      s.commitPending p = true →
      s.ready p = true →
      s.pointNow p = true →
      s.blockCheck p = some (reason, off) →
      s.role ≠ roleStandby →
      completes (.commitPoint p) s fun t =>
        t.commitPending p = false ∧
        t.fg p CFG_STATUS_RESULT = 3 ∧
        t.fg p CFG_STATUS_REASON = reason % 256 ∧
        t.fg p CFG_STATUS_OFFSET = off / 4 % 1024 ∧
        t.fg p CFG_STATUS_SEQ = (s.fg p CFG_STATUS_SEQ + 1) % 64 ∧
        t.event p EV_COMMIT_REFUSED = true ∧
        t.shad = s.shad ∧
        onlyRegs [(p, PAGE_STATE), (p, CFG_STATUS), (p, EVT_STATUS)] s t)

/-- ABORT_COMMIT of a pending commit: RESULT aborted with REASON 0x05, SEQ counts, and every shadow equals its active value. With none pending,
ABORT_COMMIT reloads the shadows and leaves CFG_STATUS. On a page of the supervisor die both hold when the write arrives over the control
link. -/
def Obligations.AbortEndsACommitAndReloadsShadows : Prop :=
    (∀ (s : State) (who : Initiator) (page p : Nat) (ra both : Bool),
      s.enAlias page = p →
      (supPage p = false ∨ who = .preload) →
      s.commitPending p = true →
      s.accepts who p PAGE_CTRL = true →
      completes (.abortCommit who page true ra both) s fun t =>
        t.commitPending p = false ∧
        t.fg p CFG_STATUS_RESULT = 4 ∧
        t.fg p CFG_STATUS_REASON = 5 ∧
        t.fg p CFG_STATUS_SEQ = (s.fg p CFG_STATUS_SEQ + 1) % 64 ∧
        (∀ off, t.rdSh p off = t.rd p off) ∧
        (s.running p = true → onlyRegs [(p, PAGE_CTRL), (p, PAGE_STATE), (p, CFG_STATUS), (0x01C, EVT_STATUS)] s t)) ∧
    (∀ (s : State) (who : Initiator) (page p : Nat) (ra both : Bool),
      s.enAlias page = p →
      (supPage p = false ∨ who = .preload) →
      s.commitPending p = false →
      s.accepts who p PAGE_CTRL = true →
      completes (.abortCommit who page true ra both) s fun t =>
        t.rd p CFG_STATUS = s.rd p CFG_STATUS ∧
        (∀ off, t.rdSh p off = t.rd p off)) ∧
    (∀ (s : State) (p : Nat) (v : Word) (rest : List SupWrite),
      s.supv.link = true →
      (s.supv.queue = { page := p, off := PAGE_CTRL, v := v } :: rest) →
      PAGE_CTRL_ABORT_COMMIT.get v = 1 →
      PAGE_CTRL_RESET_BLOCK.get v = 0 →
      completes (.supvWriteArrive) s fun t =>
        t.commitPending p = false ∧
        (s.commitPending p = true → t.fg p CFG_STATUS_RESULT = 4 ∧ t.fg p CFG_STATUS_REASON = 5) ∧
        (s.commitPending p = false → t.rd p CFG_STATUS = s.rd p CFG_STATUS) ∧
        (∀ off, t.rdSh p off = t.rd p off))

/-- RESET_BLOCK of a routing, matrix or ring common page, whatever else is written with it: every block register has its reset value and every
shadow equals it; ENABLE, RUNNING, EVT_STATUS and COMMIT_PENDING are 0; EVT_ENABLE, COMPAT and READY stay. A commit that pends then ends
with RESULT 5 and REASON 0x06. -/
def Obligations.BlockResetRestoresAPage : Prop :=
    (∀ (s : State) (who : Initiator) (page p : Nat) (others : Word),
      s.enAlias page = p →
      (p = 0x00A ∨ (0x200 ≤ p ∧ p < 0x280)) →
      s.accepts who p PAGE_CTRL = true →
      completes (.resetBlock who page others) s fun t =>
        t.running p = false ∧
        t.enabled p = false ∧
        t.commitPending p = false ∧
        t.ready p = s.ready p ∧
        t.rd p EVT_STATUS = 0 ∧
        t.rd p EVT_ENABLE = s.rd p EVT_ENABLE ∧
        t.rd p COMPAT = s.rd p COMPAT ∧
        (∀ off, 0x040 ≤ off → off < 4096 → t.rd p off = resetWord (regKey p off)) ∧
        (∀ off, t.rdSh p off = t.rd p off) ∧
        p ∉ t.stopping ∧
        onlyPages [p, 0x01C] s t) ∧
    (∀ (s : State) (who : Initiator) (page p : Nat) (others : Word),
      s.enAlias page = p →
      (p = 0x00A ∨ (0x200 ≤ p ∧ p < 0x280)) →
      s.commitPending p = true →
      s.accepts who p PAGE_CTRL = true →
      completes (.resetBlock who page others) s fun t =>
        t.fg p CFG_STATUS_RESULT = 5 ∧
        t.fg p CFG_STATUS_REASON = 6 ∧
        t.fg p CFG_STATUS_SEQ = (s.fg p CFG_STATUS_SEQ + 1) % 64)

/-! ### Resets of the hub (chapter 3) -/

namespace Sys2Proof.Machine

/-- The source code of R65 of a command by which a pin, a temperature or a clock asserts a reset and holds it. -/
def holding : Instr → Option Nat
  | .powerOnReset => some 1
  | .resetNRecognised => some 2
  | .thermalTrip tj => if 112 ≤ tj then some 8 else none
  | .clockLoss => some 9
  | _ => none

end Sys2Proof.Machine

namespace Sys2Proof.Machine

/-- Pages that keep something of their own through a reset at L0 or L1, or whose registers show state that does. -/
def ownReset : List Nat := [0x000, 0x001, 0x002, 0x005, 0x028, 0x280, 0x290] ++ (List.range 24).map (0x030 + ·)

end Sys2Proof.Machine

/-- A power-on reset, a low RESET_N, a thermal trip and a clock loss assert a reset of their level when no reset of that level or a deeper one
is in progress and no write to the MRAM: the reset is in progress, GS_LAST_CAUSE holds code and level and GS_LAST_STAMP the AON count (0 for
power-on), no frame waits in the core, at L0 and L1 every island is in reset and every register outside the pages listed has its reset
value; the MRAM, the fuse array, the canopy's visible contents and LC stay. A source recognised while a deeper reset is in progress, or one
of its level that it does not fall together with under a lower code, changes nothing but the pin that holds it. A source that falls together
with one of its level and has the lower code is the one recorded, and the reset goes on as it is. -/
def Obligations.HeldResetAssertsAndRecords : Prop :=
    (∀ (s : State) (c : Instr) (cause : Nat),
      holding c = some cause →
      (s.gs.seq.all fun q => decide (s.levelOf cause < q.level)) = true →
      s.mramBusy = false →
      completes (c) s fun t =>
        t.gs.seq = some { cause := cause, level := s.levelOf cause } ∧
        t.resetHeld = true ∧
        t.rd 0 GS_LAST_CAUSE = BitVec.ofNat 32 (s.levelOf cause * 16 + cause) ∧
        t.rd 0 GS_LAST_STAMP_LO = BitVec.ofNat 32 (if cause = 1 then 0 else s.gs.aon) ∧
        t.rd 0 GS_LAST_STAMP_HI = BitVec.ofNat 32 ((if cause = 1 then 0 else s.gs.aon) / 2 ^ 32) ∧
        t.ingress = [] ∧
        t.core = {} ∧
        (s.levelOf cause ≤ 1 → t.isl = []) ∧
        (s.levelOf cause ≤ 1 → ∀ p off, off < 4096 → p ∉ ownReset → t.rd p off = resetWord (regKey p off)) ∧
        t.mram = s.mram ∧
        t.gs.fuse = s.gs.fuse ∧
        t.scan.vis = s.scan.vis ∧
        t.lc = s.lc) ∧
    (∀ (s : State) (c : Instr) (cause : Nat),
      holding c = some cause →
      (s.gs.seq.any fun q => decide (q.level < s.levelOf cause) || (decide (q.level = s.levelOf cause) && !(decide (s.gs.seqAt = s.lc) && decide (cause < q.cause)))) = true →
      completes (c) s fun t =>
        t = { s with gs := { s.gs with por := s.gs.por || decide (cause = 1), resetN := s.gs.resetN || decide (cause = 2), thermal := s.gs.thermal || decide (cause = 8), clockLoss := s.gs.clockLoss || decide (cause = 9) } }) ∧
    (∀ (s : State) (c : Instr) (cause : Nat) (q : ResetReq),
      holding c = some cause →
      s.gs.seq = some q →
      q.level = s.levelOf cause →
      s.gs.seqAt = s.lc →
      cause < q.cause →
      s.mramBusy = false →
      completes (c) s fun t =>
        t.gs.seq = some { cause := cause, level := q.level } ∧
        t.rd 0 GS_LAST_CAUSE = BitVec.ofNat 32 (q.level * 16 + cause) ∧
        onlyRegs [(0, GS_LAST_CAUSE)] s t ∧
        (t.core = s.core ∧ t.isl = s.isl ∧ t.lc = s.lc))

/-- RESET_ASSERT_DEFERRED asserts the reset that waited, with its record. Where the block reset of the update page waited, that page is reset.
With nothing waiting it changes nothing. WATCHDOG_EXPIRE with the lantern's watchdog counting and PERIOD ms (of 625,000 local cycles) passed
since its last restart resets the lantern's island at L3 or the hub at the level its fuse entry gives, with the record of source 4. Where it
would reset the lantern's island alone during a strike's trial, the strike fails: the active copy changes and the hub is reset with source
0xA. With the watchdog not counting, PERIOD 0 or less than PERIOD ms passed it changes nothing. -/
def Obligations.RequestedResetsAreRecordedOrWait : Prop :=
    (∀ (s : State) (r : ResetReq),
      s.gs.deferred = some r →
      completes (.resetAssertDeferred) s fun t =>
        t.gs.seq = some r ∧
        t.gs.deferred = none ∧
        t.rd 0 GS_LAST_CAUSE = BitVec.ofNat 32 (r.detail % 256 * 256 + r.level % 4 * 16 + r.cause % 16) ∧
        t.core = {}) ∧
    (∀ (s : State) (x : Option ResetReq),
      s.gs.deferred = none →
      s.gs.deferBlock = some x →
      completes (.resetAssertDeferred) s fun t =>
        t.gs.deferBlock = none ∧
        t.wear.store = none ∧
        t.rd 0x290 EVT_STATUS = 0 ∧
        (x = none → t.rd 0 GS_LAST_CAUSE = s.rd 0 GS_LAST_CAUSE)) ∧
    (∀ (s : State),
      s.gs.deferred = none →
      s.gs.deferBlock = none →
      completes (.resetAssertDeferred) s fun t =>
        t = s) ∧
    (∀ (s : State),
      s.gs.wdog = true →
      s.fg 0 GS_WDOG_CTRL_PERIOD ≠ 0 →
      s.fg 0 GS_WDOG_CTRL_PERIOD * 625000 ≤ s.lc - s.gs.wdogAt →
      s.gs.seq = none →
      s.mramBusy = false →
      (s.levelOf 4 = 3 → s.up.trial = false) →
      completes (.watchdogExpire) s fun t =>
        t.gs.seq = some { cause := 4, level := s.levelOf 4 } ∧
        t.rd 0 GS_LAST_CAUSE = BitVec.ofNat 32 (s.levelOf 4 * 16 + 4) ∧
        (s.levelOf 4 = 3 → t.islUp 38 = false) ∧
        (s.levelOf 4 = 3 → t.gs.wdog = false)) ∧
    (∀ (s : State),
      s.gs.wdog = true →
      s.fg 0 GS_WDOG_CTRL_PERIOD ≠ 0 →
      s.fg 0 GS_WDOG_CTRL_PERIOD * 625000 ≤ s.lc - s.gs.wdogAt →
      s.levelOf 4 = 3 →
      s.gs.seq = none →
      s.mramBusy = false →
      s.mramStop = false →
      s.up.trial = true →
      completes (.watchdogExpire) s fun t =>
        t.gs.seq = some { cause := 0xA, level := s.levelOf 0xA } ∧
        t.up.active = 1 - s.up.active ∧
        t.rd 0 GS_LAST_CAUSE = BitVec.ofNat 32 (s.levelOf 0xA * 16 + 0xA)) ∧
    (∀ (s : State),
      (s.gs.wdog = false ∨ s.fg 0 GS_WDOG_CTRL_PERIOD = 0 ∨ s.lc - s.gs.wdogAt < s.fg 0 GS_WDOG_CTRL_PERIOD * 625000) →
      completes (.watchdogExpire) s fun t =>
        t = s)

/-- HOST_SOFT_RESET with its key and GO asserts a reset of source 3 at its level, with the record. While a write to the MRAM is in progress it
waits and nothing else happens. With a wrong key it is answered OK, raises SOFT_KEY_BAD and resets nothing. While a deeper reset is in
progress, or one of its level that it does not fall together with under a lower code, it is absorbed as any source. -/
def Obligations.SoftResetNeedsItsKey : Prop :=
    (∀ (s : State) (who : Initiator) (v : Word),
      s.accepts who 0 GS_SOFT_RESET = true →
      GS_SOFT_RESET_KEY.get v = 0xA55A →
      GS_SOFT_RESET_GO.get v = 1 →
      (s.gs.seq.all fun q => decide (s.levelOf 3 < q.level)) = true →
      s.mramBusy = false →
      completes (.hostSoftReset who v) s fun t =>
        t.gs.seq = some { cause := 3, level := s.levelOf 3 } ∧
        t.rd 0 GS_LAST_CAUSE = BitVec.ofNat 32 (s.levelOf 3 * 16 + 3) ∧
        t.rd 0 GS_LAST_STAMP_LO = BitVec.ofNat 32 s.gs.aon ∧
        t.core = {} ∧
        t.ansOf who = ⟨rspOk, 0, none⟩) ∧
    (∀ (s : State) (who : Initiator) (v : Word),
      s.accepts who 0 GS_SOFT_RESET = true →
      GS_SOFT_RESET_KEY.get v = 0xA55A →
      GS_SOFT_RESET_GO.get v = 1 →
      s.gs.seq = none →
      s.gs.deferred = none →
      s.mramBusy = true →
      completes (.hostSoftReset who v) s fun t =>
        t.gs = { s.gs with deferred := some { cause := 3, level := s.levelOf 3 }, seqAt := s.lc } ∧
        t.core = s.core ∧
        t.isl = s.isl) ∧
    (∀ (s : State) (who : Initiator) (v : Word),
      s.accepts who 0 GS_SOFT_RESET = true →
      GS_SOFT_RESET_KEY.get v ≠ 0xA55A →
      completes (.hostSoftReset who v) s fun t =>
        t.event 0 EV_GS_SOFT_KEY_BAD = true ∧
        t.gs = s.gs ∧
        onlyRegs [(0, EVT_STATUS), (0x01C, EVT_STATUS)] s t ∧
        quiet { s with ans := t.ans, scan := t.scan, faultQ := t.faultQ, br := t.br } t ∧
        t.ansOf who = ⟨rspOk, 0, none⟩) ∧
    (∀ (s : State) (who : Initiator) (v : Word),
      s.accepts who 0 GS_SOFT_RESET = true →
      GS_SOFT_RESET_KEY.get v = 0xA55A →
      GS_SOFT_RESET_GO.get v = 1 →
      (s.gs.seq.any fun q => decide (q.level < s.levelOf 3) || (decide (q.level = s.levelOf 3) && !(decide (s.gs.seqAt = s.lc) && decide (3 < q.cause)))) = true →
      completes (.hostSoftReset who v) s fun t =>
        t.gs = s.gs ∧
        t.ansOf who = ⟨rspOk, 0, none⟩ ∧
        onlyRegs [(0x01C, EVT_STATUS)] s t)

namespace Sys2Proof.Machine

/-- The groundsheet with the pin of a release command let go, and the straps sampled. -/
def releasing (s : State) : Instr → Option (Gs × Straps)
  | .powerOnResetRelease st => some ({ s.gs with por := false, supplyLow := false, io33Low := false, strapPins := st }, st)
  | .resetNRelease st => some ({ s.gs with resetN := false, strapPins := st }, st)
  | .thermalTripRelease tj st => if tj < 100 then some ({ s.gs with thermal := false, strapPins := st }, st) else none
  | .clockLossRelease st => some ({ s.gs with clockLoss := false, strapPins := st }, st)
  | _ => none

end Sys2Proof.Machine

namespace Sys2Proof.Machine

/-- No pin, temperature or clock holds a reset. -/
def nothingHolds (g : Gs) : Bool := !(g.por || g.resetN || g.thermal || g.clockLoss)

end Sys2Proof.Machine

namespace Sys2Proof.Machine

/-- HEADER's choice (R83): the copy with a valid header and the higher GENERATION, copy A when they are equal. -/
def headerChoice (s : State) : Option Nat :=
  match s.headerValid 0, s.headerValid 1 with
  | true, true => some (if s.optHdr 0 8 4 < s.optHdr 1 8 4 then 1 else 0)
  | true, false => some 0
  | false, true => some 1
  | false, false => none

end Sys2Proof.Machine

/-- The end of a power-on reset, of RESET_N, of a thermal trip (below 100 °C) and of a clock loss, with nothing else holding the reset and the
reader in IDLE: after L0 the straps are sampled and the reader is in FUSE. After L1 or L2 it reads the option headers and goes on with the
copy chosen; the straps are sampled after L1 only. While something else still holds the reset, only the pin changes. -/
def Obligations.ResetReleaseStartsTheReader : Prop :=
    (∀ (s : State) (c : Instr) (g : Gs) (st : Straps) (r : ResetReq),
      releasing s c = some (g, st) →
      nothingHolds g = true →
      s.opt = 0 →
      s.gs.seq = some r →
      r.level = 0 →
      completes (c) s fun t =>
        t.opt = 1 ∧
        t.gs = { g with straps := st } ∧
        t.rd 0 GS_STRAPS = BitVec.ofNat 32 (bit st.compatBn + 2 * bit st.bootHold)) ∧
    (∀ (s : State) (c : Instr) (g : Gs) (st : Straps) (r : ResetReq) (k : Nat),
      releasing s c = some (g, st) →
      nothingHolds g = true →
      s.opt = 0 →
      s.gs.seq = some r →
      (r.level = 1 ∨ r.level = 2) →
      s.up.trial = false →
      s.up.failing = false →
      headerChoice s = some k →
      completes (c) s fun t =>
        t.opt = 4 ∧
        t.gs.copy = k ∧
        (t.gs.straps = if r.level = 1 then st else s.gs.straps)) ∧
    (∀ (s : State) (c : Instr) (g : Gs) (st : Straps),
      releasing s c = some (g, st) →
      nothingHolds g = false →
      completes (c) s fun t =>
        t = { s with gs := g })

/-- OPT_FUSE_READ holds the fuse words, makes pages 0x000 to 0x002 READY and goes to WAKE, or stops with FUSE_BAD on a bad CRC. MRAM_WAKE_DONE
goes on to VERIFY with the header of the higher GENERATION. With no valid header it makes a bare start: STATE 9, FALLBACK, no identity,
every island but rings, bridge and host held, OPT_FALLBACK. OPT_VERIFY of a valid image loads its header: identity with VALID,
GS_RESET_CTRL, the copy in use; the reader goes to CLOCKS, after L2 to APPLY. A bad image gives way to the other copy once.
OPT_CLOCKS_LOCKED locks every PLL and goes from CLOCKS to APPLY, and from a bare start to DONE with the release of islands at its first
position. -/
def Obligations.ReaderReadsFusesAndHeaders : Prop :=
    (∀ (s : State),
      s.opt = 1 →
      completes (.optFuseRead) s fun t =>
        t.gs.fuseHeld = s.gs.fuse ∧
        t.gs.fused = true ∧
        (t.ready 0 = true ∧ t.ready 1 = true ∧ t.ready 2 = true) ∧
        (t.opt = if s.fuseCrcOk 0 7 && s.fuseCrcOk 8 23 then 2 else 10) ∧
        ((s.fuseCrcOk 0 7 && s.fuseCrcOk 8 23) = false → t.fb 0 GS_OPT_STATUS_FUSE_BAD = true)) ∧
    (∀ (s : State) (k : Nat),
      s.opt = 2 →
      s.up.trial = false →
      s.up.failing = false →
      headerChoice s = some k →
      completes (.mramWakeDone) s fun t =>
        t.opt = 4 ∧
        t.gs.copy = k ∧
        t.gs.tried = false) ∧
    (∀ (s : State),
      s.opt = 2 →
      s.up.trial = false →
      s.up.failing = false →
      headerChoice s = none →
      s.seqLevel ≠ 2 →
      completes (.mramWakeDone) s fun t =>
        t.opt = 9 ∧
        t.fb 0 GS_OPT_STATUS_FALLBACK = true ∧
        t.rd 0 GS_HUB_ID = 0 ∧
        t.rd 0 GS_HOLD = holdMost ∧
        t.event 0 EV_GS_OPT_FALLBACK = true) ∧
    (∀ (s : State),
      s.opt = 4 →
      s.gs.copy ≤ 1 →
      s.imageValid s.gs.copy = true →
      completes (.optVerify) s fun t =>
        (t.opt = if s.seqLevel = 2 then 6 else 5) ∧
        t.hubId = s.optHdr s.gs.copy 0x10 1 ∧
        t.hubValid = true ∧
        t.rd 0 GS_RESET_CTRL = BitVec.ofNat 32 (s.optHdr s.gs.copy 0x12 2 % 4) ∧
        t.fg 0 GS_OPT_STATUS_COPY = s.gs.copy + 1 ∧
        t.gs.cred = s.mbytes (optBase s.gs.copy + 0x18) 16) ∧
    (∀ (s : State),
      s.opt = 4 →
      s.imageValid s.gs.copy = false →
      s.gs.tried = false →
      s.headerValid (1 - s.gs.copy) = true →
      completes (.optVerify) s fun t =>
        t = { s with gs := { s.gs with copy := 1 - s.gs.copy, tried := true } }) ∧
    (∀ (s : State),
      (s.opt = 5 ∨ s.opt = 9) →
      completes (.optClocksLocked) s fun t =>
        (t.opt = if s.opt = 5 then 6 else 8) ∧
        (s.opt = 5 → t.pll = (List.range 13).map fun k => (k, true)) ∧
        (s.opt = 9 → t.gs.pos = some 0))

/-- OPT_APPLY_RECORD writes the next record's value: one for EVT_ENABLE sets the defined bits; the reader goes on with the next record. After
the last record it goes to EQUALIZE. OPT_EQUALIZE with a valid table shows EQ_TABLE on the twin port and loads the twin lanes' and cards'
rows; the reader is DONE and the release of islands begins at its first position. -/
def Obligations.ReaderAppliesRecordsAndEqualization : Prop :=
    (∀ (s : State) (p v : Nat),
      s.opt = 6 →
      s.gs.record + 1 < s.optHdr s.gs.copy 0x28 4 →
      s.optRecord s.gs.copy s.gs.record = (p * 4096 + EVT_ENABLE, 0, v) →
      (kindOf p ≠ none ∧ kindOf p ≠ some .en ∧ kindOf p ≠ some .pp ∧ kindOf p ≠ some .fd) →
      s.seqLevel ≠ 2 →
      s.commitPending p = false →
      completes (.optApplyRecord) s fun t =>
        t.rd p EVT_ENABLE = BitVec.ofNat 32 v &&& BitVec.ofNat 32 (evtMaskOf p) ∧
        t.gs.record = s.gs.record + 1 ∧
        t.opt = 6) ∧
    (∀ (s : State),
      s.opt = 6 →
      s.optHdr s.gs.copy 0x28 4 ≤ s.gs.record →
      completes (.optApplyRecord) s fun t =>
        t.opt = 7 ∧
        t.gs = s.gs) ∧
    (∀ (s : State) (n : Fin 26),
      s.opt = 7 →
      completes (.optEqualize) s fun t =>
        t.opt = 8 ∧
        t.gs.pos = some 0 ∧
        t.fb 0x024 LN_STATUS_EQ_TABLE = s.eqValid ∧
        (s.eqValid = true → t.rd (eqReg (10 + n.val)).1 (eqReg (10 + n.val)).2 = BitVec.ofNat 32 ((s.eqRow (10 + n.val)).1 + 256 * (s.eqRow (10 + n.val)).2.1 + 4096 * (s.eqRow (10 + n.val)).2.2)))

/-- ISLAND_RELEASE_POSITION releases each island of the position that is not held, isolated or without clock, and goes to the next position; the
last ends the sequence. ISLAND_SYNC_RELEASE releases an island whose release was asked for once its clock runs. GS_HOLD_SET takes an island
whose bit rises down. GS_HOLD_RELEASE asks for the release of an island that is down and whose bit falls, once the reader is DONE and its
position has passed. READY_VECTOR_UPDATE makes the bit show the readiness of its pages and leaves the register's other bits. -/
def Obligations.IslandsAreReleasedAndHeld : Prop :=
    (∀ (s : State) (k : Nat) (i : Nat),
      s.gs.pos = some k →
      i ∈ positionIslands k →
      nbit (s.rd 0 GS_HOLD).toNat (holdBit i) = false →
      s.isoIsland i = false →
      s.clocked i = true →
      completes (.islandReleasePosition) s fun t =>
        t.islUp i = true ∧
        (t.gs.pos = if k < 37 then some (k + 1) else none) ∧
        (37 ≤ k → t.gs.seq = none)) ∧
    (∀ (s : State) (island : Island),
      (s.isl.getD island.val {}).req = true →
      s.clocked island.val = true →
      s.isoIsland island.val = false →
      completes (.islandSyncRelease island) s fun t =>
        t.islUp island.val = true ∧
        (t.isl.getD island.val {}).req = false) ∧
    (∀ (s : State) (who : Initiator) (v : Word) (i : Island),
      s.accepts who 0 GS_HOLD = true →
      nbit (v.toNat % 2 ^ 15) (holdBit i.val) = true →
      nbit (s.rd 0 GS_HOLD).toNat (holdBit i.val) = false →
      completes (.gsHoldSet who v) s fun t =>
        t.islUp i.val = false ∧
        (t.isl.getD i.val {}).req = false ∧
        t.rd 0 GS_HOLD = BitVec.ofNat 32 (v.toNat % 2 ^ 15)) ∧
    (∀ (s : State) (who : Initiator) (v : Word) (i : Island),
      s.accepts who 0 GS_HOLD = true →
      nbit (v.toNat % 2 ^ 15) (holdBit i.val) = false →
      nbit (s.rd 0 GS_HOLD).toNat (holdBit i.val) = true →
      s.opt = 8 →
      (s.gs.pos.all fun k => decide (islandPosition i.val < k)) = true →
      s.islUp i.val = false →
      completes (.gsHoldRelease who v) s fun t =>
        t.isl.getD i.val {} = { rel := false, req := true } ∧
        t.rd 0 GS_HOLD = BitVec.ofNat 32 (v.toNat % 2 ^ 15)) ∧
    (∀ (s : State) (reg : Fin 4) (bit : Fin 32) (j : Fin 32),
      completes (.readyVectorUpdate reg bit) s fun t =>
        (nbit (t.rd 0 (GS_READY0 + 4 * reg.val)).toNat j.val = if j = bit then s.readyBit reg.val bit.val else nbit (s.rd 0 (GS_READY0 + 4 * reg.val)).toNat j.val))

/-- AON_READ returns the low word of the count and latches its high half. CRYSTAL_OSCILLATION_CHANGE shows in XTAL_OK alone. FUSE_PROG_GO with
its key, not busy, starts the bit addressed in words 24 to 57, and refuses any other word, and every one while VDDIO33 is out of range.
FUSE_PROG_DONE leaves the bit 1 where it verified, every other bit of the array as it was, and the status with VERIFY_FAIL where it did not.
SUPPLY_WARN holds back new MRAM pulses and raises its event. WDOG_KICK is answered OK and changes no register of page 0x000; the value
0x0000_00A5 restarts the watchdog's count and any other does not. -/
def Obligations.GroundsheetCountsFusesAndSupply : Prop :=
    (∀ (s : State) (who : Initiator),
      s.reach who 0 GS_AON_LO = rspOk →
      completes (.aonRead who) s fun t =>
        t.ansOf who = ⟨rspOk, BitVec.ofNat 32 s.gs.aon, none⟩ ∧
        (t.rd 0 GS_AON_HI).toNat % 2 ^ 16 = s.gs.aon / 2 ^ 32 % 2 ^ 16 ∧
        (t.rd 0 GS_AON_HI).toNat / 2 ^ 16 = (s.rd 0 GS_AON_HI).toNat / 2 ^ 16) ∧
    (∀ (s : State) (on : Bool),
      completes (.crystalOscillationChange on) s fun t =>
        t.fb 0 ⟨GS_AON_HI, 31, 1⟩ = on ∧
        (t.rd 0 GS_AON_HI).toNat % 2 ^ 31 = (s.rd 0 GS_AON_HI).toNat % 2 ^ 31) ∧
    (∀ (s : State) (who : Initiator) (v : Word),
      s.accepts who 1 FUSE_PROG_CTRL = true →
      FUSE_PROG_CTRL_KEY.get v = 0x0F5E →
      FUSE_PROG_CTRL_GO.get v = 1 →
      s.fb 1 FUSE_PROG_STATUS_BUSY = false →
      completes (.fuseProgGo who v) s fun t =>
        ((24 ≤ s.fg 1 FUSE_PROG_ADDR_BIT / 32 ∧ s.fg 1 FUSE_PROG_ADDR_BIT / 32 ≤ 57 ∧ s.gs.io33Low = false) → t.gs.prog = some (s.fg 1 FUSE_PROG_ADDR_BIT) ∧ t.fb 1 FUSE_PROG_STATUS_BUSY = true) ∧
        (¬(24 ≤ s.fg 1 FUSE_PROG_ADDR_BIT / 32 ∧ s.fg 1 FUSE_PROG_ADDR_BIT / 32 ≤ 57 ∧ s.gs.io33Low = false) → t.gs = s.gs ∧ t.rd 1 FUSE_PROG_STATUS = 6) ∧
        t.gs.fuse = s.gs.fuse) ∧
    (∀ (s : State) (b : Nat) (ok : Bool) (i : Nat),
      s.gs.prog = some b →
      completes (.fuseProgDone ok) s fun t =>
        (t.gs.fuse.getD (i / 32) 0).getLsbD (i % 32) = ((s.gs.fuse.getD (i / 32) 0).getLsbD (i % 32) || (ok && decide (i = b))) ∧
        t.gs.prog = none ∧
        (t.rd 1 FUSE_PROG_STATUS = if ok then 2 else 10)) ∧
    (∀ (s : State) (supply : Fin 4),
      completes (.supplyWarn supply) s fun t =>
        t.gs = { s.gs with supplyLow := true, io33Low := s.gs.io33Low || decide (supply.val = 3) } ∧
        t.event 0x004 EV_FT_SUPPLY_WARN = true) ∧
    (∀ (s : State) (who : Initiator) (v : Word) (off : Fin 4096),
      s.accepts who 0 GS_WDOG_KICK = true →
      completes (.wdogKick who v) s fun t =>
        t.ansOf who = ⟨rspOk, 0, none⟩ ∧
        t.rd 0 off.val = s.rd 0 off.val ∧
        (t.gs = if v = 0xA5 then { s.gs with wdogAt := s.lc } else s.gs))

/-! ### Ring and twin lanes (chapter 4) -/

/-- TS_RECEIVED in TRAIN: the 32nd consecutive valid training set without a code violation locks its lane, INV shows whether it comes inverted,
and the port goes to DESKEW once enough lanes are locked. One that is not valid there, or comes with code violations, breaks the lane's run
and counts its violations. In DESKEW, the training set that completes the 16th aligned column, with RX_OK of the partner seen for the 8th
time, takes the port to CAPX with its capability block to send. In CAPX, with a block accepted and no other pairing seen, the 8th training
set in a row with CAP_OK or TSCODE 3 makes the port send TSCODE 3. DESKEW_TIMEOUT in DESKEW and CAPX_TIMEOUT in CAPX return the port to
TRAIN and count TRAIN_FAIL. CAP_BLOCK_RECEIVED: the second of two identical right blocks of the right kind is accepted, and the partner's
serial, hub, kind and flags are shown; PARTNER_NEW is set where a partner differs from the previous one. A right block of another kind
raises CAP_MISMATCH and is not accepted. A block of another length, with a wrong CRC or not ended with K29.7 breaks the run of identical
blocks. PORT_ENTER_ACTIVE once the port has sent its training sets of TSCODE 3: the logical lanes are mapped in order onto the lanes locked,
not retired and without fault, and LINK_UP is raised. FORCE_RETRAIN takes a port that is not OFF to TRAIN with every lane to lock again; one
in ACTIVE raises LINK_DOWN. PORT_EN_WRITE with PORT_EN 0 takes a port outside ACTIVE to OFF, and with 1 lets a port of a released island
train. CC_SEND on a port that is not OFF and has no frame in progress counts one set sent and changes no register; any other changes
nothing. CC_RECEIVED from DESKEW on: with the fullest lane's buffer above 10 columns one is deleted, below 6 one inserted, and none between;
violations are counted by lane, deskew errors in ACTIVE. In TRAIN every lane's buffer is adjusted by itself. ELASTIC_ERR raises its event
and counts a code violation on every lane of the port. -/
def Obligations.LanesTrainAndExchange : Prop :=
    (∀ (s : State) (port : LanePort) (lane : Fin 5) (inv : Bool) (bytes : List Byte),
      s.pstate port = 1 →
      lane.val < laneCount port →
      tsOk port lane.val bytes = true →
      31 ≤ (s.port port).lockCnt.getD lane.val 0 →
      completes (.tsReceived port lane inv 0 bytes) s fun t =>
        t.laneLocked port lane.val = true ∧
        t.fg port.page (laneFld LN_LSTAT_INV lane.val) = bit inv ∧
        (t.fg port.page (laneFld LN_LSTAT_LOCKED lane.val) = 1 ∨ s.laneLocked port lane.val = true) ∧
        (t.pstate port = if t.enoughLocked port = true then 2 else 1) ∧
        onlyPages [port.page] s t) ∧
    (∀ (s : State) (port : LanePort) (lane : Fin 5) (inv : Bool) (cv : Fin 5) (bytes : List Byte),
      s.pstate port = 1 →
      lane.val < laneCount port →
      (tsOk port lane.val bytes = false ∨ cv ≠ 0) →
      completes (.tsReceived port lane inv cv bytes) s fun t =>
        (t.port port).lockCnt.getD lane.val 0 = 0 ∧
        t.fg port.page (laneFld LN_CNT_CV lane.val) = min (s.fg port.page (laneFld LN_CNT_CV lane.val) + cv.val) (2 ^ LN_CNT_CV.w - 1) ∧
        onlyPages [port.page] s t) ∧
    (∀ (s : State) (port : LanePort) (lane : Fin 5) (inv : Bool) (bytes : List Byte),
      s.pstate port = 2 →
      lane.val < laneCount port →
      inv = s.fb port.page (laneFld LN_LSTAT_INV lane.val) →
      tsOk port lane.val bytes = true →
      s.laneLocked port lane.val = true →
      15 ≤ (s.port port).aligned →
      7 ≤ (s.port port).partnerRx →
      nbit (leAt bytes 2 1) 1 = true →
      nbit ((s.port port).cols.getD ((leAt bytes 2 1 / 32 + 4) % 8) 0) lane.val = false →
      nbit ((s.port port).cols.getD (leAt bytes 2 1 / 32) 0) lane.val = false →
      (∀ l ∈ s.lockedLanes port, l = lane.val ∨ nbit ((s.port port).cols.getD (leAt bytes 2 1 / 32) 0) l = true) →
      completes (.tsReceived port lane inv 0 bytes) s fun t =>
        t.pstate port = 3 ∧
        (t.port port).capOk = false ∧
        (t.port port).rxOk = true ∧
        (t.port port).tx = s.capBlock port) ∧
    (∀ (s : State) (port : LanePort) (lane : Fin 5) (inv : Bool) (bytes : List Byte),
      s.pstate port = 3 →
      lane.val < laneCount port →
      inv = s.fb port.page (laneFld LN_LSTAT_INV lane.val) →
      tsOk port lane.val bytes = true →
      s.laneLocked port lane.val = true →
      (s.port port).capOk = true →
      (s.port port).mismatch = false →
      7 ≤ (s.port port).partnerCap →
      (nbit (leAt bytes 2 1) 0 = true ∨ leAt bytes 2 1 / 4 % 8 = 3) →
      completes (.tsReceived port lane inv 0 bytes) s fun t =>
        (t.port port).entering = true ∧
        t.tsCode port lane.val = some 3 ∧
        t.pstate port = 3) ∧
    (∀ (s : State) (port : LanePort),
      s.pstate port = 2 →
      completes (.deskewTimeout port) s fun t =>
        t.pstate port = 1 ∧
        t.fg port.page LN_PORT_CNT_TRAIN_FAIL = min (s.fg port.page LN_PORT_CNT_TRAIN_FAIL + 1) (2 ^ LN_PORT_CNT_TRAIN_FAIL.w - 1) ∧
        (∀ l < laneCount port, t.laneLocked port l = false) ∧
        onlyPages [port.page] s t) ∧
    (∀ (s : State) (port : LanePort),
      s.pstate port = 3 →
      completes (.capxTimeout port) s fun t =>
        t.pstate port = 1 ∧
        t.fg port.page LN_PORT_CNT_TRAIN_FAIL = min (s.fg port.page LN_PORT_CNT_TRAIN_FAIL + 1) (2 ^ LN_PORT_CNT_TRAIN_FAIL.w - 1) ∧
        onlyPages [port.page] s t) ∧
    (∀ (s : State) (port : LanePort) (bytes : List Byte),
      s.pstate port = 3 →
      bytes.length = 16 →
      crc16 (bytes.take 14) = leAt bytes 14 2 →
      leAt bytes 1 1 = pairKind port →
      (s.port port).capPrev = bytes →
      (s.port port).capOk = false →
      completes (.capBlockReceived port bytes .good) s fun t =>
        (t.port port).capOk = true ∧
        t.rd port.page LN_PARTNER_SN_LO = BitVec.ofNat 32 (leAt bytes 4 8) ∧
        t.rd port.page LN_PARTNER_SN_HI = BitVec.ofNat 32 (leAt bytes 4 8 / 2 ^ 32) ∧
        t.fg port.page LN_PARTNER_HUB = leAt bytes 2 1 ∧
        t.fg port.page LN_PARTNER_KIND = leAt bytes 1 1 % 2 ^ LN_PARTNER_KIND.w ∧
        ((∃ q, (s.port port).partner = some q ∧ q ≠ (leAt bytes 4 8, leAt bytes 2 1)) → t.fg port.page LN_STATUS_PARTNER_NEW = 1) ∧
        (t.port port).partner = some (leAt bytes 4 8, leAt bytes 2 1) ∧
        onlyPages [port.page] s t) ∧
    (∀ (s : State) (port : LanePort) (bytes : List Byte),
      s.pstate port = 3 →
      bytes.length = 16 →
      crc16 (bytes.take 14) = leAt bytes 14 2 →
      (s.port port).capPrev ≠ bytes →
      (s.port port).capOk = false →
      completes (.capBlockReceived port bytes .good) s fun t =>
        (leAt bytes 1 1 ≠ pairKind port → t.event port.page EV_LN_CAP_MISMATCH = true ∧ (t.port port).capPrev = []) ∧
        (leAt bytes 1 1 = pairKind port → (t.port port).capPrev = bytes ∧ t.regs = s.regs) ∧
        (t.port port).capOk = false) ∧
    (∀ (s : State) (port : LanePort) (bytes : List Byte) (ending : Ending),
      s.pstate port = 3 →
      (bytes.length ≠ 16 ∨ crc16 (bytes.take 14) ≠ leAt bytes 14 2 ∨ ending ≠ .good) →
      completes (.capBlockReceived port bytes ending) s fun t =>
        (t.port port).capPrev = [] ∧
        (t.port port).capOk = (s.port port).capOk ∧
        t.regs = s.regs) ∧
    (∀ (s : State) (port : LanePort),
      s.pstate port = 3 →
      (s.port port).entering = true →
      logicalCount port ≤ (s.rxLanes port).length →
      logicalCount port ≤ (s.txLanes port).length →
      completes (.portEnterActive port) s fun t =>
        t.portActive port = true ∧
        t.fg port.page LN_MAP_RX = mapOf (logicalCount port) (s.rxLanes port) % 2 ^ LN_MAP_RX.w ∧
        t.fg port.page LN_MAP_TX = mapOf (logicalCount port) (s.txLanes port) % 2 ^ LN_MAP_TX.w ∧
        t.event port.page EV_LN_LINK_UP = true) ∧
    (∀ (s : State) (who : Initiator) (port : LanePort),
      s.pstate port ≠ 0 →
      s.accepts who port.page LN_CTRL = true →
      completes (.forceRetrain who port) s fun t =>
        t.pstate port = 1 ∧
        (∀ l < laneCount port, t.laneLocked port l = false) ∧
        (s.portActive port = true → t.event port.page EV_LN_LINK_DOWN = true)) ∧
    (∀ (s : State) (who : Initiator) (port : LanePort) (v : Word),
      s.accepts who port.page LN_CTRL = true →
      s.portActive port = false →
      LN_CTRL_FORCE_RETRAIN.get v = 0 →
      s.fb port.page LN_CTRL_PORT_EN = !decide (LN_CTRL_PORT_EN.get v = 1) →
      completes (.portEnWrite who port v) s fun t =>
        (LN_CTRL_PORT_EN.get v = 0 → t.pstate port = 0) ∧
        (LN_CTRL_PORT_EN.get v = 1 → s.islUp (laneIsland port) = true → s.pstate port = 0 → t.pstate port = 1) ∧
        t.fg port.page LN_CTRL_PORT_EN = LN_CTRL_PORT_EN.get v) ∧
    (∀ (s : State) (port : LanePort),
      completes (.ccSend port) s fun t =>
        ((s.pstate port ≠ 0 ∧ s.eg (laneCore port) = none) → (t.port port).ccTx = (s.port port).ccTx + 1 ∧ t.regs = s.regs) ∧
        (¬(s.pstate port ≠ 0 ∧ s.eg (laneCore port) = none) → t = s)) ∧
    (∀ (s : State) (port : LanePort) (fills : List Nat) (deskew : Nat) (cv : List Nat) (f : Nat),
      2 ≤ s.pstate port →
      f ∈ fills.take (laneCount port) →
      (∀ g ∈ fills.take (laneCount port), g ≤ f) →
      completes (.ccReceived port fills deskew cv) s fun t =>
        t.fg port.page LN_CC_CNT_DELETED = (s.fg port.page LN_CC_CNT_DELETED + bit (decide (10 < f))) % 2 ^ LN_CC_CNT_DELETED.w ∧
        t.fg port.page LN_CC_CNT_INSERTED = (s.fg port.page LN_CC_CNT_INSERTED + bit (decide (f < 6))) % 2 ^ LN_CC_CNT_INSERTED.w ∧
        (∀ l < laneCount port, t.fg port.page (laneFld LN_CNT_CV l) = min (s.fg port.page (laneFld LN_CNT_CV l) + cv.getD l 0) (2 ^ LN_CNT_CV.w - 1)) ∧
        (s.portActive port = true → t.fg port.page LN_PORT_CNT_DESKEW_ERR = min (s.fg port.page LN_PORT_CNT_DESKEW_ERR + deskew) (2 ^ LN_PORT_CNT_DESKEW_ERR.w - 1)) ∧
        onlyPages [port.page] s t) ∧
    (∀ (s : State) (port : LanePort) (fills : List Nat) (deskew : Nat) (cv : List Nat),
      s.pstate port = 1 →
      completes (.ccReceived port fills deskew cv) s fun t =>
        t.fg port.page LN_CC_CNT_DELETED = (s.fg port.page LN_CC_CNT_DELETED + ((fills.take (laneCount port)).filter (10 < ·)).length) % 2 ^ LN_CC_CNT_DELETED.w ∧
        t.fg port.page LN_CC_CNT_INSERTED = (s.fg port.page LN_CC_CNT_INSERTED + ((fills.take (laneCount port)).filter (· < 6)).length) % 2 ^ LN_CC_CNT_INSERTED.w ∧
        onlyPages [port.page] s t) ∧
    (∀ (s : State) (port : LanePort) (l : Nat),
      l < laneCount port →
      completes (.elasticErr port) s fun t =>
        t.fg port.page (laneFld LN_CNT_CV l) = min (s.fg port.page (laneFld LN_CNT_CV l) + 1) (2 ^ LN_CNT_CV.w - 1) ∧
        t.event port.page EV_LN_ELASTIC_ERR = true ∧
        onlyPages [port.page] s t)

/-- LANE_FAULT of a lane in use of an ACTIVE ring port, with URGENT_EN 1, a spare usable and no substitution in progress: LANE_FAULT is raised
and an URGENT is sent. One of a lane in use that no spare can replace takes the port to TRAIN with LANE_FAULT and LINK_DOWN. One of the
unused spare makes it unusable with SPARE_LOST. URGENT_SUBST_TIMEOUT takes the port to TRAIN with LINK_DOWN. LN_SPARE_CMD with GO on a ring
port, and LANE_ERR_THRESHOLD with ERR_SPARE_EN 1 and the lane's violations within WINDOW at THRESH, request the replacement of a lane in use
where a spare is usable. SPARE_COMPARE_DONE moves the logical lane to the spare, retires the old lane, sends CONFIRM and raises SPARE_DONE.
At the transmitter, LANE_CTRL_REQUEST_RECEIVED for a mapped lane bridges it onto the spare (TSCODE 5). LANE_CTRL_URGENT_RECEIVED moves the
logical lane to the spare at once (TSCODE 6), and LANE_CTRL_CONFIRM_RECEIVED moves the bridged one; the old lane is retired and SPARE_DONE
raised. LANE_CTRL_CANCEL_RECEIVED stops bridging and retires the spare. LANE_CTRL_REFUSE_RECEIVED ends a planned request as refused;
SPARE_REQUEST_TIMEOUT repeats it, and after the third attempt ends it as timed out. -/
def Obligations.LanesAreReplacedBySpares : Prop :=
    (∀ (s : State) (port : RingPort) (lane : Fin 5) (cause : LaneCause),
      s.portActive port.lanes = true →
      s.rxInUse port.lanes lane.val = true →
      s.fb port.page LN_CTRL_URGENT_EN = true →
      (s.port port.lanes).rxSpare.isSome = true →
      (s.port port.lanes).rxSub = none →
      (s.port port.lanes).urgent = false →
      s.ridgeOnly = false →
      completes (.laneFault port.lanes lane cause) s fun t =>
        (t.port port.lanes).rxSub = some lane.val ∧
        (t.port port.lanes).urgent = true ∧
        t.fg port.page LN_SPARE_STATUS_RX_OP = 1 ∧
        t.event port.page EV_LN_LANE_FAULT = true ∧
        (t.port port.lanes).ll.map (·.payload.take 2) = (s.port port.lanes).ll.map (·.payload.take 2) ++ [[2, BitVec.ofNat 8 lane.val]]) ∧
    (∀ (s : State) (port : LanePort) (lane : Fin 5) (cause : LaneCause),
      lane.val < laneCount port →
      s.rxInUse port lane.val = true →
      (port = .twin ∨ ((s.port port).rxSpare = none ∧ (s.port port).rxSub = none)) →
      completes (.laneFault port lane cause) s fun t =>
        t.pstate port = 1 ∧
        t.event port.page EV_LN_LANE_FAULT = true ∧
        t.event port.page EV_LN_LINK_DOWN = true) ∧
    (∀ (s : State) (port : LanePort) (lane : Fin 5) (cause : LaneCause),
      lane.val < laneCount port →
      s.portActive port = true →
      s.rxInUse port lane.val = false →
      (s.port port).rxSpare = some lane.val →
      completes (.laneFault port lane cause) s fun t =>
        (t.port port).rxSpare = none ∧
        t.fg port.page LN_SPARE_STATUS_RX_SPARE_OK = 0 ∧
        t.fg port.page (laneFld LN_LSTAT_FAULT lane.val) = 1 ∧
        t.event port.page EV_LN_SPARE_LOST = true) ∧
    (∀ (s : State) (port : LanePort),
      s.portActive port = true →
      (s.port port).urgent = true →
      completes (.urgentSubstTimeout port) s fun t =>
        t.pstate port = 1 ∧
        t.event port.page EV_LN_LINK_DOWN = true) ∧
    (∀ (s : State) (who : Initiator) (port : RingPort) (v : Word),
      s.accepts who port.page LN_SPARE_CMD = true →
      LN_SPARE_CMD_GO.get v = 1 →
      s.rxInUse port.lanes (LN_SPARE_CMD_LANE.get v) = true →
      (s.port port.lanes).rxSpare.isSome = true →
      (s.port port.lanes).rxSub = none →
      s.ridgeOnly = false →
      completes (.lnSpareCmd who port.lanes v) s fun t =>
        (t.port port.lanes).rxSub = some (LN_SPARE_CMD_LANE.get v) ∧
        (t.port port.lanes).tries = 1 ∧
        t.fg port.page LN_SPARE_STATUS_RX_OP = 1) ∧
    (∀ (s : State) (port : RingPort) (lane : Fin 5),
      s.portActive port.lanes = true →
      s.fb port.page LN_CTRL_ERR_SPARE_EN = true →
      s.fg port.page LN_ERR_CFG_THRESH ≠ 0 →
      s.fg port.page LN_ERR_CFG_THRESH ≤ (s.inWindow (s.fg port.page LN_ERR_CFG_WINDOW) ((s.port port.lanes).cvAt.getD lane.val [])).length →
      s.rxInUse port.lanes lane.val = true →
      (s.port port.lanes).rxSpare.isSome = true →
      (s.port port.lanes).rxSub = none →
      s.ridgeOnly = false →
      completes (.laneErrThreshold port.lanes lane) s fun t =>
        (t.port port.lanes).rxSub = some lane.val ∧
        t.fg port.page LN_SPARE_STATUS_RX_OP = 1) ∧
    (∀ (s : State) (port : RingPort) (l sp k : Nat),
      s.portActive port.lanes = true →
      s.ridgeOnly = false →
      s.fg port.page LN_SPARE_STATUS_RX_OP = 2 →
      (s.port port.lanes).rxSub = some l →
      (s.port port.lanes).rxSpare = some sp →
      logicalOf (logicalCount port.lanes) (s.rxMap port.lanes) l = some k →
      l < 5 →
      sp < 5 →
      completes (.spareCompareDone port.lanes) s fun t =>
        mapLane (t.rxMap port.lanes) k = sp ∧
        nbit (t.fg port.page LN_SPARE_STATUS_RX_RETIRED) l = true ∧
        t.fg port.page LN_SPARE_STATUS_RX_OP = 3 ∧
        (t.port port.lanes).rxSub = none ∧
        (t.port port.lanes).rxSpare = none ∧
        t.event port.page EV_LN_SPARE_DONE = true ∧
        t.fg port.page PAGE_STATE_SPARED = 1) ∧
    (∀ (s : State) (port : RingPort) (body : List Byte) (sp : Nat),
      s.portActive port.lanes = true →
      s.ridgeOnly = false →
      (s.port port.lanes).txSpare = some sp →
      (s.port port.lanes).txSub = none →
      (logicalOf (logicalCount port.lanes) (s.txMap port.lanes) (leAt body 1 1)).isSome = true →
      completes (.laneCtrlRequestReceived port.lanes body) s fun t =>
        (t.port port.lanes).txSub = some (leAt body 1 1) ∧
        (t.port port.lanes).tscode.getD sp 0 = 5 ∧
        t.regs = s.regs) ∧
    (∀ (s : State) (port : RingPort) (body : List Byte) (sp k : Nat),
      s.portActive port.lanes = true →
      s.ridgeOnly = false →
      (s.port port.lanes).txSpare = some sp →
      logicalOf (logicalCount port.lanes) (s.txMap port.lanes) (leAt body 1 1) = some k →
      leAt body 1 1 < 5 →
      sp < 5 →
      completes (.laneCtrlUrgentReceived port.lanes body) s fun t =>
        mapLane (t.txMap port.lanes) k = sp ∧
        nbit (t.fg port.page LN_SPARE_STATUS_TX_RETIRED) (leAt body 1 1) = true ∧
        (t.port port.lanes).tscode.getD sp 0 = 6 ∧
        t.event port.page EV_LN_SPARE_DONE = true) ∧
    (∀ (s : State) (port : RingPort) (body : List Byte) (sp k : Nat),
      s.portActive port.lanes = true →
      s.ridgeOnly = false →
      (s.port port.lanes).txSpare = some sp →
      (s.port port.lanes).txSub = some (leAt body 1 1) →
      logicalOf (logicalCount port.lanes) (s.txMap port.lanes) (leAt body 1 1) = some k →
      leAt body 1 1 < 5 →
      sp < 5 →
      completes (.laneCtrlConfirmReceived port.lanes body) s fun t =>
        mapLane (t.txMap port.lanes) k = sp ∧
        nbit (t.fg port.page LN_SPARE_STATUS_TX_RETIRED) (leAt body 1 1) = true ∧
        (t.port port.lanes).txSub = none ∧
        t.event port.page EV_LN_SPARE_DONE = true) ∧
    (∀ (s : State) (port : RingPort) (body : List Byte) (l sp : Nat),
      s.portActive port.lanes = true →
      s.ridgeOnly = false →
      (s.port port.lanes).txSpare = some sp →
      (s.port port.lanes).txSub = some l →
      sp < 5 →
      completes (.laneCtrlCancelReceived port.lanes body) s fun t =>
        (t.port port.lanes).txSub = none ∧
        (t.port port.lanes).txSpare = none ∧
        nbit (t.fg port.page LN_SPARE_STATUS_TX_RETIRED) sp = true ∧
        t.fg port.page LN_SPARE_STATUS_TX_SPARE_OK = 0) ∧
    (∀ (s : State) (port : RingPort) (body : List Byte),
      s.portActive port.lanes = true →
      s.ridgeOnly = false →
      (s.port port.lanes).rxSub.isSome = true →
      (s.port port.lanes).urgent = false →
      completes (.laneCtrlRefuseReceived port.lanes body) s fun t =>
        (t.port port.lanes).rxSub = none ∧
        t.fg port.page LN_SPARE_STATUS_RX_OP = 4 ∧
        t.event port.page EV_LN_SPARE_REFUSED = true) ∧
    (∀ (s : State) (port : RingPort) (l : Nat),
      s.portActive port.lanes = true →
      s.ridgeOnly = false →
      (s.port port.lanes).rxSub = some l →
      (s.port port.lanes).urgent = false →
      s.fg port.page LN_SPARE_STATUS_RX_OP = 1 →
      completes (.spareRequestTimeout port.lanes) s fun t =>
        ((s.port port.lanes).tries < 3 → (t.port port.lanes).tries = (s.port port.lanes).tries + 1 ∧ t.regs = s.regs ∧ (t.port port.lanes).ll.length = (s.port port.lanes).ll.length + 1) ∧
        (3 ≤ (s.port port.lanes).tries → t.fg port.page LN_SPARE_STATUS_RX_OP = 5 ∧ (t.port port.lanes).rxSub = none))

/-! ### Ring protocol (chapter 5) -/

/-- RING_FRAME_RECEIVE of a frame whose header check fails counts in RP_RX_HCRC, one of a wrong form in RP_RX_BAD; both raise FRAME_ERR and,
unless a wrong symbol ended it or its sender cut it, nothing else changes. A frame that its sender cut before its trailer was whole frees
the cell it was charged, of the class its first byte names. One that ends in a wrong symbol counts a code violation of its lane, and a
deskew error where only part of the lanes showed the end. A good frame from this hub that has come around is stripped: RP_STRIP counts, and
RP_UNDELIV where it was for one hub; it goes no further. A good class E frame for another hub passes on the ridge path of the port of its
direction, its own port state apart, and counts in RP_RIDGE. A good class E frame for this hub, of a type that the port logic does not take,
goes to the core to be consumed. -/
def Obligations.ReceivedRingFramesAreChecked : Prop :=
    (∀ (s : State) (port : RingPort) (bytes : List Byte) (ending : Ending) (sub : Fin 26) (f : Fld),
      s.portActive port.lanes = true →
      ((frameCheck bytes ending = .hcrc ∧ f = RP_RX_HCRC_COUNT) ∨ (frameCheck bytes ending = .form ∧ f = RP_RX_BAD_COUNT ∧ (ending = .bad → 16 ≤ bytes.length))) →
      (∀ l part, ending ≠ .symbol l part) →
      completes (.ringFrameReceive port bytes ending sub) s fun t =>
        t.fg port.page f = min (s.fg port.page f + 1) (2 ^ f.w - 1) ∧
        t.event port.page EV_RP_FRAME_ERR = true ∧
        onlyRegs [(port.page, f.off), (port.page, EVT_STATUS)] s t ∧
        quiet s t) ∧
    (∀ (s : State) (port : RingPort) (bytes : List Byte) (sub : Fin 26),
      s.portActive port.lanes = true →
      (0 < bytes.length ∧ bytes.length < 12) →
      (Hdr.ofBytes bytes).cls ≠ .E →
      (Hdr.ofBytes bytes).ll = false →
      s.ridgeOnly = false →
      completes (.ringFrameReceive port bytes .bad sub) s fun t =>
        t.fg port.page RP_RX_BAD_COUNT = min (s.fg port.page RP_RX_BAD_COUNT + 1) (2 ^ RP_RX_BAD_COUNT.w - 1) ∧
        (t.cr port.lanes (Hdr.ofBytes bytes).cls).recv = ((s.cr port.lanes (Hdr.ofBytes bytes).cls).recv + 1) % 65536 ∧
        (t.cr port.lanes (Hdr.ofBytes bytes).cls).freed = ((s.cr port.lanes (Hdr.ofBytes bytes).cls).freed + 1) % 65536 ∧
        t.ingress = s.ingress) ∧
    (∀ (s : State) (port : RingPort) (bytes : List Byte) (l : Fin 5) (part : Bool) (sub : Fin 26),
      s.portActive port.lanes = true →
      completes (.ringFrameReceive port bytes (.symbol l part) sub) s fun t =>
        t.fg port.page (laneFld LN_CNT_CV l.val) = min (s.fg port.page (laneFld LN_CNT_CV l.val) + 1) (2 ^ LN_CNT_CV.w - 1) ∧
        t.fg port.page LN_PORT_CNT_DESKEW_ERR = min (s.fg port.page LN_PORT_CNT_DESKEW_ERR + bit part) (2 ^ LN_PORT_CNT_DESKEW_ERR.w - 1) ∧
        t.event port.page EV_RP_FRAME_ERR = true) ∧
    (∀ (s : State) (port : RingPort) (f : Frame) (sub : Fin 26),
      s.portActive port.lanes = true →
      frameCheck f.bytes .good = .good →
      Frame.ofBytes f.bytes = f →
      f.hdr.cls = .E →
      f.hdr.ll = false →
      s.bare = false →
      s.isSelf f.hdr.src = true →
      (f.hdr.wraps = 0 ∨ f.hdr.wraps = 3) →
      f.hdr.isTopo = false →
      completes (.ringFrameReceive port f.bytes .good sub) s fun t =>
        t.fg port.page RP_STRIP_COUNT = min (s.fg port.page RP_STRIP_COUNT + 1) (2 ^ RP_STRIP_COUNT.w - 1) ∧
        (f.hdr.dst < 120 → t.fg port.page RP_UNDELIV_COUNT = min (s.fg port.page RP_UNDELIV_COUNT + 1) (2 ^ RP_UNDELIV_COUNT.w - 1)) ∧
        t.fg port.page RP_RX_FRAMES_COUNT = min (s.fg port.page RP_RX_FRAMES_COUNT + 1) (2 ^ RP_RX_FRAMES_COUNT.w - 1) ∧
        t.ingress = s.ingress ∧
        t.ring.ports = s.ring.ports) ∧
    (∀ (s : State) (port : RingPort) (f : Frame) (sub : Fin 26),
      s.portActive port.lanes = true →
      frameCheck f.bytes .good = .good →
      Frame.ofBytes f.bytes = f →
      f.hdr.cls = .E →
      f.hdr.ll = false →
      s.fate f.hdr = .pass →
      s.wrapped (dirPort f.hdr.dir) = false →
      s.portActive (dirPort f.hdr.dir).lanes = true →
      (f.arrive (s.ingressDelay port) (s.stampAt sub.val)).1 = f →
      completes (.ringFrameReceive port f.bytes .good sub) s fun t =>
        (t.port (dirPort f.hdr.dir).lanes).merge = (s.port (dirPort f.hdr.dir).lanes).merge ++ [f] ∧
        t.fg port.page RP_RIDGE_COUNT = min (s.fg port.page RP_RIDGE_COUNT + 1) (2 ^ RP_RIDGE_COUNT.w - 1) ∧
        t.ingress = s.ingress) ∧
    (∀ (s : State) (port : RingPort) (f : Frame) (sub : Fin 26),
      s.portActive port.lanes = true →
      frameCheck f.bytes .good = .good →
      Frame.ofBytes f.bytes = f →
      f.hdr.cls = .E →
      f.hdr.ll = false →
      s.fate f.hdr = .mine →
      s.ridgeOnly = false →
      portLogicType f.hdr = false →
      completes (.ringFrameReceive port f.bytes .good sub) s fun t =>
        (t.ingress.getD port.core []).length = (s.ingress.getD port.core []).length + 1 ∧
        ((t.ingress.getD port.core []).getLast?.map fun x => match x.route with | .ring fwd consume _ => decide (fwd = none) && consume | _ => false) = some true ∧
        t.ring.ports = s.ring.ports)

/-- EGRESS_FRAME_START on a ring port: the first frame of the merge buffer leaves it and is on the lanes. With an empty merge buffer the first
link-local frame leaves, on the twin port too. With neither, on a ring port that is neither frozen nor down, the class that the arbiter
picks (E, then M, then T and B by weight) starts the copy at the head of its queue. The twin port then takes its class E queue, and with
nothing there the classes and the mirror in turn. A port asked to go OFF leaves ACTIVE at that boundary with LINK_DOWN. MERGE_PREEMPT ends a
core frame of class T, B or M that is being sent, whose copy stays at the head of its queue; RP_PREEMPT counts and the merge buffer's first
frame is sent. CREDIT_RECEIVED on an ACTIVE port outside ridge-only mode: LIMIT of each class takes its 16 bits of ARG, and SENT is 0 with
INIT, unchanged without; no register changes. In ridge-only mode it is passed on by the port of its direction, and takes no credit; where
that port is wrapped it is discarded and RP_LL_DROP counts. CREDIT_SEND on an ACTIVE port outside ridge-only mode queues one CREDIT frame
with the LIMIT of every class, and with INIT where one is due. -/
def Obligations.RingEgressOrder : Prop :=
    (∀ (s : State) (port : RingPort) (sub : Fin 26) (f : Frame) (fs : List Frame),
      s.portActive port.lanes = true →
      s.eg port.core = none →
      (s.port port.lanes).offReq = false →
      ((s.port port.lanes).merge = f :: fs) →
      completes (.egressFrameStart port.lanes sub) s fun t =>
        (t.port port.lanes).merge = fs ∧
        (t.port port.lanes).tx = (f.depart s.self (s.stampAt sub.val)).bytes ∧
        (t.port port.lanes).ll = (s.port port.lanes).ll ∧
        t.core = s.core) ∧
    (∀ (s : State) (port : LanePort) (sub : Fin 26) (f : Frame) (fs : List Frame),
      s.portActive port = true →
      s.eg (laneCore port) = none →
      (s.port port).offReq = false →
      (port = .twin ∨ (s.port port).merge = []) →
      ((s.port port).ll = f :: fs) →
      completes (.egressFrameStart port sub) s fun t =>
        (t.port port).ll = fs ∧
        (t.port port).tx = f.bytes ∧
        t.core = s.core) ∧
    (∀ (s : State) (port : RingPort) (sub : Fin 26) (c : Cls) (rt rb : Nat),
      s.portActive port.lanes = true →
      s.eg port.core = none →
      (s.port port.lanes).offReq = false →
      (s.port port.lanes).merge = [] →
      (s.port port.lanes).ll = [] →
      s.portFrozen port.core = false →
      s.portDown port.core = false →
      s.coreAdmits = true →
      s.ringPick port = some (c, rt, rb) →
      completes (.egressFrameStart port.lanes sub) s fun t =>
        (t.eg port.core).map (·.q) = some (4 * port.core + c.code) ∧
        (t.eg port.core).map (·.next) = (s.que (4 * port.core + c.code)).ents.head?.map (·.cell) ∧
        (t.port port.lanes).rrT = rt ∧
        (t.port port.lanes).rrB = rb ∧
        t.core.ques = s.core.ques ∧
        t.regs = s.regs) ∧
    (∀ (s : State) (sub : Fin 26) (e : QEnt),
      s.portActive .twin = true →
      s.eg 2 = none →
      (s.port .twin).offReq = false →
      (s.port .twin).ll = [] →
      s.portFrozen 2 = false →
      s.portDown 2 = false →
      s.coreAdmits = true →
      s.eligibleHead 8 = some e →
      completes (.egressFrameStart .twin sub) s fun t =>
        (t.eg 2).map (·.q) = some 8 ∧
        (t.eg 2).map (·.next) = some e.cell ∧
        t.core.ques = s.core.ques ∧
        t.tw.turn = s.tw.turn) ∧
    (∀ (s : State) (sub : Fin 26),
      s.portActive .twin = true →
      s.eg 2 = none →
      (s.port .twin).offReq = false →
      (s.port .twin).ll = [] →
      s.eligibleHead 8 = none →
      completes (.egressFrameStart .twin sub) s fun t =>
        ((s.mirrorFrame.isSome = true ∧ (s.tw.turn = false ∨ s.twinPick false = none)) → t.tw.turn = true ∧ (s.mirrorFrame.map fun x => x.1.bytes) = some (t.port .twin).tx) ∧
        ((s.twinPick false).isSome = true ∧ s.mirrorFrame = none ∧ s.twinPick true = none → t.tw.turn = false ∧ (t.eg 2).map (·.q) = s.twinPick false) ∧
        ((s.twinPick false).isSome = true ∧ s.tw.turn = true → t.tw.turn = false ∧ (t.eg 2).map (·.q) = s.twinPick false) ∧
        (s.twinPick false = none ∧ s.mirrorFrame = none ∧ s.twinPick true = none → t = s)) ∧
    (∀ (s : State) (port : LanePort) (sub : Fin 26),
      s.portActive port = true →
      s.eg (laneCore port) = none →
      (s.port port).offReq = true →
      completes (.egressFrameStart port sub) s fun t =>
        t.pstate port = 0 ∧
        t.event port.page EV_LN_LINK_DOWN = true) ∧
    (∀ (s : State) (port : RingPort) (sub : Fin 26) (g : Eg) (f : Frame) (fs : List Frame),
      s.eg port.core = some g →
      g.q % 4 ≠ 0 →
      g.bad = false →
      ((s.port port.lanes).merge = f :: fs) →
      completes (.mergePreempt port sub) s fun t =>
        t.eg port.core = none ∧
        t.core.ques = s.core.ques ∧
        t.fg port.page RP_PREEMPT_COUNT = min (s.fg port.page RP_PREEMPT_COUNT + 1) (2 ^ RP_PREEMPT_COUNT.w - 1) ∧
        (t.port port.lanes).merge = fs ∧
        (t.port port.lanes).tx = (f.depart s.self (s.stampAt sub.val)).bytes ∧
        onlyRegs [(port.page, RP_PREEMPT), (port.page, RP_TX_FRAMES), (port.page, RP_TRUNC)] s t) ∧
    (∀ (s : State) (port : RingPort) (bytes : List Byte) (c : Cls),
      s.portActive port.lanes = true →
      s.ridgeOnly = false →
      (Hdr.ofBytes bytes).isLL 0x02 = true →
      c ≠ .E →
      completes (.creditReceived port bytes) s fun t =>
        (t.cr port.lanes c).limit = (Hdr.ofBytes bytes).argBits (16 * (c.code - 1)) 16 ∧
        ((t.cr port.lanes c).sent = if nbit (Hdr.ofBytes bytes).stream 0 then 0 else (s.cr port.lanes c).sent) ∧
        (t.cr port.lanes c).lim = (s.cr port.lanes c).lim ∧
        t.regs = s.regs ∧
        t.core = s.core) ∧
    (∀ (s : State) (port : RingPort) (bytes : List Byte),
      s.portActive port.lanes = true →
      s.ridgeOnly = true →
      (Hdr.ofBytes bytes).isLL 0x02 = true →
      s.portActive (dirPort (Hdr.ofBytes bytes).dir).lanes = true →
      completes (.creditReceived port bytes) s fun t =>
        t.ring.cred = s.ring.cred ∧
        (s.wrapped (dirPort (Hdr.ofBytes bytes).dir) = false → (t.port (dirPort (Hdr.ofBytes bytes).dir).lanes).merge = (s.port (dirPort (Hdr.ofBytes bytes).dir).lanes).merge ++ [{ hdr := Hdr.ofBytes bytes }]) ∧
        (s.wrapped (dirPort (Hdr.ofBytes bytes).dir) = true → t.ring = s.ring ∧ t.fg port.page RP_LL_DROP_COUNT = min (s.fg port.page RP_LL_DROP_COUNT + 1) (2 ^ RP_LL_DROP_COUNT.w - 1))) ∧
    (∀ (s : State) (port : RingPort),
      s.portActive port.lanes = true →
      s.ridgeOnly = false →
      completes (.creditSend port) s fun t =>
        (t.port port.lanes).ll = (s.port port.lanes).ll ++ [{ hdr := { cls := .M, mtype := 0x02, dir := sendDir port, dst := 127, ll := true, src := s.hubId, stream := bit (s.port port.lanes).initDue, arg := (s.cr port.lanes .T).lim ||| ((s.cr port.lanes .B).lim <<< 16) ||| ((s.cr port.lanes .M).lim <<< 32) } }] ∧
        (t.port port.lanes).initDue = false ∧
        t.ring.cred = s.ring.cred ∧
        t.regs = s.regs ∧
        t.core = s.core)

/-- GUY_SEND on an ACTIVE port outside ridge-only mode queues one GUY frame with the next number, and changes no register. GUY_RECEIVED from
another hub: GUY_HUB and GUY_VALID show it and the neighbour state is LINKED or NEIGHBOUR by whether it is the partner of the capability
exchange; a change of neighbour raises NEIGHBOUR_CHANGED. In ridge-only mode it is passed on as well, by the port of its direction where
that is ACTIVE and not wrapped. GUY_SILENCE_TIMEOUT on an ACTIVE port: the state is SILENT with GUY_LOST, and the port is wrapped where R147
lets it. -/
def Obligations.GuyLineFollowsTheNeighbour : Prop :=
    (∀ (s : State) (port : RingPort),
      s.portActive port.lanes = true →
      s.ridgeOnly = false →
      completes (.guySend port) s fun t =>
        (t.port port.lanes).guySeq = ((s.port port.lanes).guySeq + 1) % 65536 ∧
        ((t.port port.lanes).ll.getLast?.map fun f => f.hdr.isLL 0x01) = some true ∧
        (t.port port.lanes).ll.length = (s.port port.lanes).ll.length + 1 ∧
        t.regs = s.regs) ∧
    (∀ (s : State) (port : RingPort) (src : Fin 128) (seq wf : Byte),
      s.portActive port.lanes = true →
      s.isSelf src.val = false →
      completes (.guyReceived port src seq wf) s fun t =>
        t.fg port.page RP_NEIGHBOUR_GUY_HUB = src.val ∧
        t.fg port.page RP_NEIGHBOUR_GUY_VALID = 1 ∧
        (t.fg port.page RP_NEIGHBOUR_STATE = if s.fg port.page LN_PARTNER_HUB % 128 = src.val then 1 else 2) ∧
        (((s.port port.lanes).guyEver = true ∧ s.fg port.page RP_NEIGHBOUR_GUY_HUB ≠ src.val) → t.event port.page EV_RP_NEIGHBOUR_CHANGED = true) ∧
        (t.port port.lanes).guyEver = true) ∧
    (∀ (s : State) (port : RingPort) (src : Fin 128) (seq wf : Byte),
      s.portActive port.lanes = true →
      s.ridgeOnly = true →
      s.portActive port.other.lanes = true →
      s.wrapped port.other = false →
      completes (.guyReceived port src seq wf) s fun t =>
        (t.port port.other.lanes).merge.map (·.hdr) = (s.port port.other.lanes).merge.map (·.hdr) ++ [{ cls := .M, mtype := 0x01, dir := recvDir port, dst := 127, ll := true, src := src.val, arg := seq.toNat ||| (wf.toNat % 4 <<< 16) }]) ∧
    (∀ (s : State) (port : RingPort),
      s.portActive port.lanes = true →
      s.fg port.page RP_NEIGHBOUR_STATE ≠ 3 →
      completes (.guySilenceTimeout port) s fun t =>
        t.fg port.page RP_NEIGHBOUR_STATE = 3 ∧
        t.event port.page EV_RP_GUY_LOST = true ∧
        (s.mayWrap port = true → t.wrapped port = true) ∧
        (s.mayWrap port = false → t.wrapped port = s.wrapped port))

/-- UNWRAP of a wrapped port in ACTIVE whose neighbour state is good: WRAPPED falls with WRAP_END, and the next fence number is used where this
hub originates ring frames (outside ridge-only mode and bare start, with a ring port ACTIVE). RING_GRACE_EXPIRED of a frozen port whose
interval runs flushes its queues with GRACE_FLUSH, once. FENCE_RECEIVED closes every hold of its class whose recorded port it arrives on,
marks the others recorded there, and leaves those of other classes and ports; no register changes. HOLD_EXPIRED closes the open hold of a
class and source, counts RC_CNT_HOLD_EXP and raises HOLD_EXPIRED. -/
def Obligations.WrapsFreezesAndFences : Prop :=
    (∀ (s : State) (port : RingPort),
      s.wrapped port = true →
      s.fb 0x00A RC_CTRL_UNWRAP_EN = true →
      s.portActive port.lanes = true →
      (s.fg port.page RP_NEIGHBOUR_STATE = 1 ∨ s.fg port.page RP_NEIGHBOUR_STATE = 2) →
      completes (.unwrap port) s fun t =>
        t.wrapped port = false ∧
        t.event port.page EV_RP_WRAP_END = true ∧
        (t.ring.fseq = if s.ridgeOnly || s.bare || !(s.portActive .east || s.portActive .west) then s.ring.fseq else (s.ring.fseq + 1) % 65536)) ∧
    (∀ (s : State) (port : RingPort),
      s.fb port.page RP_NEIGHBOUR_FROZEN = true →
      (s.port port.lanes).grace = 1 →
      completes (.ringGraceExpired port) s fun t =>
        (t.port port.lanes).grace = 2 ∧
        t.event port.page EV_RP_GRACE_FLUSH = true ∧
        (∀ c < 4, (t.que (4 * port.core + c)).ents.length ≤ 1)) ∧
    (∀ (s : State) (port : RingPort) (cls : Cls) (src : Fin 128) (fseq kind : Nat) (k : Nat),
      s.ring.flows.any (·.1 = k) = true →
      completes (.fenceReceived port cls src fseq kind) s fun t =>
        (t.flow k = if k / 128 = cls.code then (s.flow k).fenced port else s.flow k) ∧
        t.regs = s.regs ∧
        t.ring.ports = s.ring.ports) ∧
    (∀ (s : State) (cls : Cls) (src : Fin 128),
      (s.flow (flowKey cls src.val)).hold.isSome = true →
      completes (.holdExpired cls src) s fun t =>
        (t.flow (flowKey cls src.val)).hold = none ∧
        (t.flow (flowKey cls src.val)).fence = false ∧
        t.fg 0x00A RC_CNT_HOLD_EXP_COUNT = min (s.fg 0x00A RC_CNT_HOLD_EXP_COUNT + 1) (2 ^ RC_CNT_HOLD_EXP_COUNT.w - 1) ∧
        t.event 0x00A EV_RC_HOLD_EXPIRED = true ∧
        onlyRegs [(0x00A, RC_CNT_HOLD_EXP), (0x00A, EVT_STATUS)] s t)

namespace Sys2Proof.Machine

/-- Frames of the ring logic stand behind those that wait at the ring core ports, in this order, each for the class M queue of its port. -/
abbrev logicStaged (s t : State) (l : List (RingPort × Frame)) : Prop :=
  t.ingress.getD 0 [] = s.ingress.getD 0 [] ++ ((l.filter fun x => x.1 = .east).map fun x => { frame := x.2, route := .logic 3 }) ∧
  t.ingress.getD 1 [] = s.ingress.getD 1 [] ++ ((l.filter fun x => x.1 = .west).map fun x => { frame := x.2, route := .logic 7 })

end Sys2Proof.Machine

namespace Sys2Proof.Machine

/-- The TOPO frame of a direction, with the port it leaves by: WRAPS and REDUNDANT of this hub in its payload. -/
def topoOf (s : State) (d : Dir) : RingPort × Frame :=
  ((s.originEgress d).1, {
    hdr := { cls := .M, mtype := 0x08, dir := (s.originEgress d).2.1, dst := 127, src := s.hubId, wraps := (s.originEgress d).2.2 },
    payload := [0, BitVec.ofNat 8 (bit (s.wrapped .east) + 2 * bit (s.wrapped .west) + 4 * bit s.redundant), 0, 0, 0, 0, 0, 0] })

end Sys2Proof.Machine

/-- TOPO_RECEIVED of another hub: LIVE 1, AGE 0, REDUNDANT as sent; without a turn its distance in the opposite direction is HOPS + 1.
TOPO_AGE_TICK ages every entry; one that reaches AGE of RC_TOPO_CFG is no longer live, has no distance and raises TOPO_CHANGE. TOPO_SEND,
where this hub originates ring frames, puts the TOPO frame of each direction behind the frames that wait at its port's core port for the
class M queue, on the other port and turned where its own is wrapped; elsewhere it changes nothing. -/
def Obligations.TopologyIsLearntAndAges : Prop :=
    (∀ (s : State) (port : RingPort) (src : Fin 128) (dir : Dir) (wraps hops : Nat) (flags : Byte),
      src.val < 120 →
      s.isSelf src.val = false →
      completes (.topoReceived port src dir wraps hops flags) s fun t =>
        t.fg 0x00A (RC_TOPO_LIVE.at (4 * src.val)) = 1 ∧
        t.fg 0x00A (RC_TOPO_AGE.at (4 * src.val)) = 0 ∧
        t.fg 0x00A (RC_TOPO_REDUNDANT.at (4 * src.val)) = bit (nbit flags.toNat 2) ∧
        (t.fg 0x00A (RC_TOPO_DIST_E.at (4 * src.val)) = if wraps = 0 ∧ dir = .west then min 255 (hops + 1) else s.fg 0x00A (RC_TOPO_DIST_E.at (4 * src.val))) ∧
        (t.fg 0x00A (RC_TOPO_DIST_W.at (4 * src.val)) = if wraps = 0 ∧ dir = .east then min 255 (hops + 1) else s.fg 0x00A (RC_TOPO_DIST_W.at (4 * src.val))) ∧
        (s.anyShortest = false → onlyRegs [(0x00A, RC_TOPO + 4 * src.val)] s t)) ∧
    (∀ (s : State) (h : Nat),
      h < 120 →
      completes (.topoAgeTick) s fun t =>
        t.fg 0x00A (RC_TOPO_AGE.at (4 * h)) = min 255 (s.fg 0x00A (RC_TOPO_AGE.at (4 * h)) + 1) ∧
        ((s.fb 0x00A (RC_TOPO_LIVE.at (4 * h)) = true ∧ s.fg 0x00A RC_TOPO_CFG_AGE ≤ min 255 (s.fg 0x00A (RC_TOPO_AGE.at (4 * h)) + 1)) →
      t.fb 0x00A (RC_TOPO_LIVE.at (4 * h)) = false ∧ t.fg 0x00A (RC_TOPO_DIST_E.at (4 * h)) = 0xFF ∧ t.fg 0x00A (RC_TOPO_DIST_W.at (4 * h)) = 0xFF ∧ t.event 0x00A EV_RC_TOPO_CHANGE = true) ∧
        (¬ (s.fb 0x00A (RC_TOPO_LIVE.at (4 * h)) = true ∧ s.fg 0x00A RC_TOPO_CFG_AGE ≤ min 255 (s.fg 0x00A (RC_TOPO_AGE.at (4 * h)) + 1)) →
      t.fb 0x00A (RC_TOPO_LIVE.at (4 * h)) = s.fb 0x00A (RC_TOPO_LIVE.at (4 * h)))) ∧
    (∀ (s : State),
      completes (.topoSend) s fun t =>
        (s.originates = true → logicStaged s t [topoOf s .west, topoOf s .east]) ∧
        (s.originates = true → t = { s with ingress := t.ingress }) ∧
        (s.originates = false → t = s))

namespace Sys2Proof.Machine

/-- The RESET frame for a hub, with the port it leaves by. -/
def resetOf (s : State) (dst : Nat) : RingPort × Frame :=
  ((s.resolve { cls := .M, mtype := 0x09, dst := dst, src := s.hubId }).1,
   { hdr := (s.resolve { cls := .M, mtype := 0x09, dst := dst, src := s.hubId }).2,
     payload := ([0, 4, 8, 12].map fun k => leBytes (s.rd 0x00A (RC_RST_CRED + k)).toNat 4).flatten })

end Sys2Proof.Machine

/-- REMOTE_RESET_RECEIVED with REMOTE_EN 0, no credential or the wrong one: AUTH_FAIL counts and REMOTE_AUTH_FAIL is raised, and no reset
starts. With REMOTE_EN 1 and the right credential, outside any reset and any MRAM write, a reset of code 6 at its level is in progress,
recorded with SRC. RESET_SEND with GO to a hub that is not live counts RC_CNT_NO_DEST and raises NO_DEST. With GO to a live hub a RESET
frame with the credential of RC_RST_CRED stands behind the frames that wait at the core port of the port its destination resolves to, for
the class M queue. With GO 0, or where this hub originates no ring frames, the write is answered OK and sends nothing. -/
def Obligations.RemoteResetIsCheckedAndSent : Prop :=
    (∀ (s : State) (src : Fin 128) (cred : List Byte),
      (s.fb 0 GS_RESET_CTRL_REMOTE_EN = false ∨ (s.gs.cred.all fun b => b = 0) = true ∨ cred ≠ s.gs.cred) →
      completes (.remoteResetReceived src cred) s fun t =>
        t.fg 0 GS_AUTH_FAIL_COUNT = min (s.fg 0 GS_AUTH_FAIL_COUNT + 1) (2 ^ GS_AUTH_FAIL_COUNT.w - 1) ∧
        t.event 0 EV_GS_REMOTE_AUTH_FAIL = true ∧
        t.gs = s.gs ∧
        onlyRegs [(0, GS_AUTH_FAIL), (0, EVT_STATUS)] s t) ∧
    (∀ (s : State) (src : Fin 128) (cred : List Byte),
      s.fb 0 GS_RESET_CTRL_REMOTE_EN = true →
      s.gs.cred.any (fun b => b ≠ 0) = true →
      cred = s.gs.cred →
      s.gs.seq = none →
      s.mramBusy = false →
      s.levelOf 6 ≤ 2 →
      completes (.remoteResetReceived src cred) s fun t =>
        t.gs.seq = some { cause := 6, level := s.levelOf 6, detail := src.val } ∧
        t.rd 0 GS_LAST_CAUSE = BitVec.ofNat 32 (s.levelOf 6 * 16 + 6 + 256 * src.val) ∧
        t.gs.fuse = s.gs.fuse) ∧
    (∀ (s : State) (who : Initiator) (v : Word),
      s.accepts who 0x00A RC_RST_SEND = true →
      RC_RST_SEND_GO.get v = 1 →
      s.originates = true →
      s.live (RC_RST_SEND_DST.get v) = false →
      completes (.resetSend who v) s fun t =>
        t.fg 0x00A RC_CNT_NO_DEST_COUNT = min (s.fg 0x00A RC_CNT_NO_DEST_COUNT + 1) (2 ^ RC_CNT_NO_DEST_COUNT.w - 1) ∧
        t.event 0x00A EV_RC_NO_DEST = true ∧
        t.ansOf who = ⟨rspOk, 0, none⟩ ∧
        t.core = s.core) ∧
    (∀ (s : State) (who : Initiator) (v : Word),
      s.accepts who 0x00A RC_RST_SEND = true →
      RC_RST_SEND_GO.get v = 1 →
      s.originates = true →
      s.live (RC_RST_SEND_DST.get v) = true →
      completes (.resetSend who v) s fun t =>
        logicStaged s t [resetOf s (RC_RST_SEND_DST.get v)] ∧
        t.ansOf who = ⟨rspOk, 0, none⟩ ∧
        t.core = s.core ∧
        onlyRegs [(0x01C, EVT_STATUS)] s t) ∧
    (∀ (s : State) (who : Initiator) (v : Word),
      s.accepts who 0x00A RC_RST_SEND = true →
      (RC_RST_SEND_GO.get v = 0 ∨ s.originates = false) →
      completes (.resetSend who v) s fun t =>
        t.ansOf who = ⟨rspOk, 0, none⟩ ∧
        (t.core = s.core ∧ t.ring = s.ring) ∧
        onlyRegs [(0x01C, EVT_STATUS)] s t)

/-! ### Switch core (chapter 6) -/

/-- CORE_HEAD_CELL_WRITE: where the core admits, the port is up and idle, a frame waits and a bank is open, the frame leaves the waiting list,
its port is busy with it and CORE_PCNT FRAMES_IN counts it. Where no bank is open it waits: its wait and CORE_CNT_WR_DEFER count, and the
frame stays. CORE_CELL_WRITE: the next 24 bytes of a stored frame are written to the head of the free list of the bank chosen and the
ingress goes on with the rest. Where no bank is open the write waits: its wait and CORE_CNT_WR_DEFER count. The frame of a port that has
gone down stops, and its verdict is bad from then on. CORE_DEFERRED_WRITE: a write that waited takes the cycle, in which no bank is read.
FRAME_VERDICT: with the last cell written, a good verdict of a frame not cut short makes its record good. A bad verdict never leaves the
record good, and the port is idle. -/
def Obligations.IngressWritesCellsInOrder : Prop :=
    (∀ (s : State) (p : CorePort) (x : InFrame) (rest : List InFrame) (b : Nat),
      s.coreAdmits = true →
      (s.ing p.val).busy = false →
      s.portDown p.val = false →
      (s.ingress.getD p.val [] = x :: rest) →
      s.pickBank = some b →
      completes (.coreHeadCellWrite p) s fun t =>
        (t.ingress.getD p.val []).take rest.length = rest ∧
        (p.val ≠ portBridge → t.ingress.getD p.val [] = rest) ∧
        (t.ing p.val).busy = true ∧
        t.core.readBank = none ∧
        t.fg 0x010 (whole (CORE_PCNT_FRAMES_IN + 0x20 * p.val)) = min (s.fg 0x010 (whole (CORE_PCNT_FRAMES_IN + 0x20 * p.val)) + 1) (2 ^ 32 - 1)) ∧
    (∀ (s : State) (p : CorePort) (x : InFrame) (rest : List InFrame),
      s.coreAdmits = true →
      (s.ing p.val).busy = false →
      s.portDown p.val = false →
      (s.ingress.getD p.val [] = x :: rest) →
      s.pickBank = none →
      completes (.coreHeadCellWrite p) s fun t =>
        t.ing p.val = { s.ing p.val with waits := (s.ing p.val).waits + 1 } ∧
        (t.ingress.getD p.val [] = x :: rest) ∧
        t.fg 0x010 CORE_CNT_WR_DEFER_COUNT = min (s.fg 0x010 CORE_CNT_WR_DEFER_COUNT + 1) (2 ^ 32 - 1)) ∧
    (∀ (s : State) (p : CorePort) (b : Nat),
      (s.ing p.val).busy = true →
      (s.ing p.val).rest ≠ [] →
      (s.ing p.val).stored = true →
      ((s.ing p.val).cells = 0 ∨ (s.ing p.val).k < (s.ing p.val).cells) →
      s.portDown p.val = false →
      s.pickBank = some b →
      completes (.coreCellWrite p) s fun t =>
        (t.ing p.val = { s.ing p.val with k := (s.ing p.val).k + 1, head := if (s.ing p.val).k = 0 then b * 1024 + (s.bank b).take.1 else (s.ing p.val).head, prev := b * 1024 + (s.bank b).take.1, rest := (s.ing p.val).rest.drop 24, waits := 0 }) ∧
        t.core.cells.getD (s.cellKey (b * 1024 + (s.bank b).take.1)) 0 = packCell ((s.ing p.val).rest.take 24) ∧
        t.bank b = (s.bank b).take.2 ∧
        t.core.readBank = none) ∧
    (∀ (s : State) (p : CorePort),
      (s.ing p.val).busy = true →
      (s.ing p.val).rest ≠ [] →
      (s.ing p.val).stored = true →
      s.portDown p.val = false →
      s.pickBank = none →
      completes (.coreCellWrite p) s fun t =>
        t.ing p.val = { s.ing p.val with waits := (s.ing p.val).waits + 1 } ∧
        t.fg 0x010 CORE_CNT_WR_DEFER_COUNT = min (s.fg 0x010 CORE_CNT_WR_DEFER_COUNT + 1) (2 ^ 32 - 1)) ∧
    (∀ (s : State) (p : CorePort),
      (s.ing p.val).busy = true →
      (s.ing p.val).rest ≠ [] →
      s.portDown p.val = true →
      completes (.coreCellWrite p) s fun t =>
        (t.ing p.val).rest = [] ∧
        (t.ing p.val).bad = true ∧
        t.core.readBank = s.core.readBank) ∧
    (∀ (s : State) (p : CorePort) (b : Nat),
      0 < (s.ing p.val).waits →
      (s.ing p.val).busy = true →
      (s.ing p.val).rest ≠ [] →
      (s.ing p.val).stored = true →
      ((s.ing p.val).cells = 0 ∨ (s.ing p.val).k < (s.ing p.val).cells) →
      s.endCycle.pickBank = some b →
      completes (.coreDeferredWrite p) s fun t =>
        (t.ing p.val).k = (s.ing p.val).k + 1 ∧
        (t.ing p.val).waits = 0 ∧
        (t.ing p.val).rest = (s.ing p.val).rest.drop 24 ∧
        t.core.readBank = none) ∧
    (∀ (s : State) (p : CorePort),
      (s.ing p.val).busy = true →
      (s.ing p.val).rest = [] →
      (s.ing p.val).stored = true →
      (s.ing p.val).bad = false →
      (s.frec (s.ing p.val).head).verdict = .pending →
      0 < (s.frec (s.ing p.val).head).refs →
      completes (.frameVerdict p true) s fun t =>
        (t.frec (s.ing p.val).head) = { s.frec (s.ing p.val).head with verdict := .good } ∧
        t.ing p.val = {} ∧
        t.core.ques = s.core.ques) ∧
    (∀ (s : State) (p : CorePort),
      (s.ing p.val).busy = true →
      (s.ing p.val).stored = true →
      (s.frec (s.ing p.val).head).verdict = .pending →
      0 < (s.frec (s.ing p.val).head).refs →
      completes (.frameVerdict p false) s fun t =>
        (t.frec (s.ing p.val).head).verdict ≠ .good ∧
        t.ing p.val = {})

/-- CORE_CELL_READ of a copy in progress takes its next written cell: the bytes of the cell are added, the chain's link gives the next cell and
the end, and its bank is the bank read in this cycle. A local port that reads nothing, the scan unit's outside its guard, starts the first
queue in the order E, M, T, B whose head may start. A double-bit error of a data row read counts in CORE_CNT_UE, is held in CORE_ECC_LAST
and raises ECC_UE. No read of the bank is granted where a write has waited in two cycles and every free cell lies in it. COPY_END: a copy
read to its last cell with a good verdict leaves its queue and its port, counts in FRAMES_OUT, and a local port's block has the frame. A
copy whose verdict became bad ends where it stands; a ring port counts RP_TRUNC. -/
def Obligations.EgressReadsCellsAndEndsCopies : Prop :=
    (∀ (s : State) (p : CorePort) (g : Eg) (e : QEnt) (es : List QEnt) (ecc : Ecc),
      ecc ≠ .ue →
      s.eg p.val = some g →
      ((s.que g.q).ents = e :: es) →
      g.done = false →
      g.bad = false →
      g.k < (s.frec e.cell).written →
      s.readBarred (g.next / 1024 % 16) = false →
      completes (.coreCellRead p ecc) s fun t =>
        t.eg p.val = some { g with k := g.k + 1, next := (s.link g.next).next, done := (s.link g.next).last, bytes := g.bytes ++ cellBytes (s.cell g.next) (s.link g.next).len } ∧
        t.core.readBank = some (g.next / 1024 % 16) ∧
        t.core.ques = s.core.ques) ∧
    (∀ (s : State) (p : CorePort) (q : Nat) (ecc : Ecc),
      ecc ≠ .ue →
      s.eg p.val = none →
      3 ≤ p.val →
      s.coreAdmits = true →
      s.inGuard p.val = false →
      s.portDown p.val = false →
      s.portFrozen p.val = false →
      s.firstQueue (portOrder p.val) = some q →
      completes (.coreCellRead p ecc) s fun t =>
        (t.eg p.val).map (·.q) = some q ∧
        t.core.ques = s.core.ques) ∧
    (∀ (s : State) (p : CorePort) (g : Eg) (e : QEnt) (es : List QEnt),
      s.eg p.val = some g →
      ((s.que g.q).ents = e :: es) →
      g.done = false →
      g.bad = false →
      g.k < (s.frec e.cell).written →
      s.readBarred (g.next / 1024 % 16) = false →
      completes (.coreCellRead p .ue) s fun t =>
        t.fg 0x010 CORE_CNT_UE_COUNT = min (s.fg 0x010 CORE_CNT_UE_COUNT + 1) (2 ^ 32 - 1) ∧
        t.fg 0x010 CORE_ECC_LAST_WHERE = 1 ∧
        t.event 0x010 EV_CORE_ECC_UE = true) ∧
    (∀ (s : State) (p : CorePort) (g : Eg) (ecc : Ecc),
      s.eg p.val = some g →
      (s.que g.q).ents ≠ [] →
      s.readBarred (g.next / 1024 % 16) = true →
      completes (.coreCellRead p ecc) s fun t =>
        t = s) ∧
    (∀ (s : State) (p : CorePort) (g : Eg) (e : QEnt) (es : List QEnt),
      s.eg p.val = some g →
      ((s.que g.q).ents = e :: es) →
      g.done = true →
      g.bad = false →
      (s.frec e.cell).verdict = .good →
      completes (.copyEnd p) s fun t =>
        t.eg p.val = none ∧
        (t.que g.q).ents = es ∧
        t.fg 0x010 (whole (CORE_PCNT_FRAMES_OUT + 0x20 * p.val)) = min (s.fg 0x010 (whole (CORE_PCNT_FRAMES_OUT + 0x20 * p.val)) + 1) (2 ^ 32 - 1) ∧
        (3 ≤ p.val → t.inbox p.val = s.inbox p.val ++ [Frame.ofBytes g.bytes])) ∧
    (∀ (s : State) (p : CorePort) (g : Eg) (e : QEnt) (es : List QEnt),
      s.eg p.val = some g →
      ((s.que g.q).ents = e :: es) →
      g.bad = true →
      completes (.copyEnd p) s fun t =>
        t.eg p.val = none ∧
        (t.que g.q).ents = es ∧
        (p.val < 2 → t.fg (0x008 + p.val) RP_TRUNC_COUNT = min (s.fg (0x008 + p.val) RP_TRUNC_COUNT + 1) (2 ^ 32 - 1)))

/-- BANK_ECC_THRESHOLD: with the bank's corrected errors within WINDOW at a THRESH that is not 0, SPARE_AUTO 1, the core running, no spare in
use, no replacement and no march run on the cells, the bank's replacement begins at row 0 with CAUSE 2 for its repair entry. CORE_SPARE_CMD
with GO under the same conditions begins the replacement of the bank named. With the spare in use, a replacement or a march run on the cells
in progress or the core not running it is refused with STATE 3 and SPARE_REFUSED. BANK_ROW_COPY copies the next allocated row's data and
link entry, as read, to physical bank 16 and marks it moved; a double-bit error found in it counts and raises ECC_UE. BANK_REPLACE_DONE,
once no allocated row is left, gives the spare the bank's place, with SPARED, STATE 2 and SPARE_DONE. -/
def Obligations.BankReplacementMovesABankToTheSpare : Prop :=
    (∀ (s : State) (bank : Fin 17),
      bank.val < 16 →
      s.fg 0x010 CORE_ECC_CFG_THRESH ≠ 0 →
      s.fg 0x010 CORE_ECC_CFG_THRESH ≤ (s.inWindow (s.fg 0x010 CORE_ECC_CFG_WINDOW) (s.core.ceAt.getD bank.val [])).length →
      s.fb 0x010 CORE_CTRL_SPARE_AUTO = true →
      s.replacing = false →
      s.fb 0x010 CORE_BANK_SPARE_SPARED = false →
      s.marchOnCells = false →
      s.running 0x010 = true →
      completes (.bankEccThreshold bank) s fun t =>
        t.replacing = true ∧
        t.replBank = bank.val ∧
        t.fg 0x010 CORE_SPARE_STATUS_ROW = 0 ∧
        t.core.spareCause = 2) ∧
    (∀ (s : State) (who : Initiator) (v : Word),
      s.accepts who 0x010 CORE_SPARE_CMD = true →
      CORE_SPARE_CMD_GO.get v = 1 →
      s.replacing = false →
      s.fb 0x010 CORE_BANK_SPARE_SPARED = false →
      s.marchOnCells = false →
      s.running 0x010 = true →
      completes (.coreSpareCmd who v) s fun t =>
        t.replacing = true ∧
        t.replBank = CORE_SPARE_CMD_BANK.get v ∧
        t.fg 0x010 CORE_SPARE_STATUS_ROW = 0 ∧
        t.core.spareCause = 0 ∧
        t.ansOf who = ⟨rspOk, 0, none⟩) ∧
    (∀ (s : State) (who : Initiator) (v : Word),
      s.accepts who 0x010 CORE_SPARE_CMD = true →
      CORE_SPARE_CMD_GO.get v = 1 →
      (s.fb 0x010 CORE_BANK_SPARE_SPARED = true ∨ s.replacing = true ∨ s.marchOnCells = true ∨ s.running 0x010 = false) →
      completes (.coreSpareCmd who v) s fun t =>
        t.fg 0x010 CORE_SPARE_STATUS_STATE = 3 ∧
        t.fg 0x010 CORE_SPARE_STATUS_BANK = CORE_SPARE_CMD_BANK.get v ∧
        t.event 0x010 EV_CORE_SPARE_REFUSED = true ∧
        t.core = s.core) ∧
    (∀ (s : State) (r : Nat) (ecc : Ecc),
      s.replacing = true →
      s.nextRow s.replBank (s.fg 0x010 CORE_SPARE_STATUS_ROW) = some r →
      completes (.bankRowCopy ecc) s fun t =>
        (ecc = .ue → t.event 0x010 EV_CORE_ECC_UE = true ∧ t.fg 0x010 CORE_CNT_UE_COUNT = min (s.fg 0x010 CORE_CNT_UE_COUNT + 1) (2 ^ 32 - 1)) ∧
        t.core.cells.getD (16 * 1024 + r) 0 = s.core.cells.getD (s.replBank * 1024 + r) 0 ∧
        t.core.links.getD (16 * 1024 + r) {} = s.core.links.getD (s.replBank * 1024 + r) {} ∧
        t.fg 0x010 CORE_SPARE_STATUS_ROW = r + 1 ∧
        (∀ k, k ≠ 16 * 1024 + r → t.core.cells.getD k 0 = s.core.cells.getD k 0)) ∧
    (∀ (s : State),
      s.replacing = true →
      s.nextRow s.replBank (s.fg 0x010 CORE_SPARE_STATUS_ROW) = none →
      completes (.bankReplaceDone) s fun t =>
        t.fb 0x010 CORE_BANK_SPARE_SPARED = true ∧
        t.fg 0x010 CORE_BANK_SPARE_LOGICAL = s.replBank ∧
        t.fg 0x010 CORE_SPARE_STATUS_STATE = 2 ∧
        t.fb 0x010 PAGE_STATE_SPARED = true ∧
        t.event 0x010 EV_CORE_SPARE_DONE = true)

/-! ### Queues and mailboxes (chapter 7) -/

/-- Q_FLUSH with GO for a queue of the page, none waiting, shows BUSY with the queue. A request while one waits is ignored with FLUSH_IGNORED.
FLUSH_POINT leaves only a started copy in the queue, shows the number removed and raises FLUSH_DONE. QUEUE_GRACE_EXPIRED of a lost port
flushes its four queues with GRACE_FLUSH and keeps the port lost. While it stays lost beyond that, what was pushed since is removed without
a further event; of a port not lost nothing is. -/
def Obligations.FlushAndGraceEmptyQueues : Prop :=
    (∀ (s : State) (who : Initiator) (page : Fin 4) (v : Word),
      s.accepts who (0x011 + page.val) Q_FLUSH = true →
      Q_FLUSH_GO.get v = 1 →
      s.fb (0x011 + page.val) Q_FLUSH_STATUS_BUSY = false →
      qPage (Q_FLUSH_QUEUE.get v) = 0x011 + page.val →
      completes (.qFlush who page v) s fun t =>
        t.fb (0x011 + page.val) Q_FLUSH_STATUS_BUSY = true ∧
        t.fg (0x011 + page.val) Q_FLUSH_STATUS_QUEUE = Q_FLUSH_QUEUE.get v ∧
        t.core = s.core) ∧
    (∀ (s : State) (who : Initiator) (page : Fin 4) (v : Word),
      s.accepts who (0x011 + page.val) Q_FLUSH = true →
      Q_FLUSH_GO.get v = 1 →
      s.fb (0x011 + page.val) Q_FLUSH_STATUS_BUSY = true →
      completes (.qFlush who page v) s fun t =>
        t.event (0x011 + page.val) EV_Q_FLUSH_IGNORED = true ∧
        t.rd (0x011 + page.val) Q_FLUSH_STATUS = s.rd (0x011 + page.val) Q_FLUSH_STATUS) ∧
    (∀ (s : State) (page : Fin 4) (q : Nat),
      s.fb (0x011 + page.val) Q_FLUSH_STATUS_BUSY = true →
      s.fg (0x011 + page.val) Q_FLUSH_STATUS_QUEUE = q →
      completes (.flushPoint page) s fun t =>
        (t.que q).ents = s.startedEnts q ∧
        t.fb (0x011 + page.val) Q_FLUSH_STATUS_BUSY = false ∧
        t.fg (0x011 + page.val) Q_FLUSH_STATUS_REMOVED = min (s.unstarted q).length 65535 ∧
        t.event (0x011 + page.val) EV_Q_FLUSH_DONE = true) ∧
    (∀ (s : State) (p : CorePort) (c : Fin 4),
      s.core.lost.getD p.val 0 = 1 →
      completes (.queueGraceExpired p) s fun t =>
        (t.que (4 * p.val + c.val)).ents = s.startedEnts (4 * p.val + c.val) ∧
        t.core.lost.getD p.val 0 = 2 ∧
        t.event 0x011 EV_Q_GRACE_FLUSH = true) ∧
    (∀ (s : State) (p : CorePort) (c : Fin 4),
      s.core.lost.getD p.val 0 ≠ 1 →
      completes (.queueGraceExpired p) s fun t =>
        (s.core.lost.getD p.val 0 = 2 → (t.que (4 * p.val + c.val)).ents = s.startedEnts (4 * p.val + c.val)) ∧
        (s.core.lost.getD p.val 0 ≠ 2 → t = s) ∧
        t.core.lost = s.core.lost)

/-- MB_PUSH of an admitted item puts one item with the value at the tail of the mailbox. One that is not admitted changes no queue and sets the
mailbox's OVERRUN bit with MB_OVERRUN. MB_POP_TAKE returns the oldest item and removes it; with a double-bit error in its row its value is
open and ECC_UE is raised. From an empty mailbox it returns the last value, or 0 under BN compatibility, and sets the UNDERRUN bit with
MB_UNDERRUN. QRP_TAKE of a queue whose head frame is good and not yet begun puts the head cell into QRP_CELL and returns VALID and FIRST; a
last cell pops the entry. A cell with a double-bit error ends the frame (whose record counts its copies): the take returns VALID 1 and BAD
1, and the entry leaves its queue. A take on an empty queue returns VALID 0, raises QRP_EMPTY and leaves the cell registers. -/
def Obligations.MailboxesAndReadPorts : Prop :=
    (∀ (s : State) (who : Initiator) (m : Mailbox) (v : Word) (k : Nat),
      s.accepts who 0x014 (MB_PUSH + 4 * m.val) = true →
      (s.endCycle.mbCell (mbQueue m.val)).map (·.1) = some k →
      ((s.que (mbQueue m.val)).ents.all fun e => e.hold = none) = true →
      completes (.mbPush who m v) s fun t =>
        (t.que (mbQueue m.val)).ents = (s.que (mbQueue m.val)).ents ++ [{ cell := k, item := true, n := 1, idx := (s.core.entFree.takeOf 16384).1 }] ∧
        t.core.cells.getD (s.cellKey k) 0 = packCell (leBytes v.toNat 4) ∧
        ((s.que (mbQueue m.val)).ents = [] → s.mbReleased (mbQueue m.val) = none → s.mbBit MB_ARRIVE_EN m.val = true → t.event 0x014 EV_Q_MB_ARRIVE = true) ∧
        t.ansOf who = ⟨rspOk, 0, none⟩) ∧
    (∀ (s : State) (who : Initiator) (m : Mailbox) (v : Word),
      s.accepts who 0x014 (MB_PUSH + 4 * m.val) = true →
      s.endCycle.mbCell (mbQueue m.val) = none →
      completes (.mbPush who m v) s fun t =>
        t.core.ques = s.core.ques ∧
        t.mbBit MB_OVERRUN m.val = true ∧
        t.event 0x014 EV_Q_MB_OVERRUN = true ∧
        t.ansOf who = ⟨rspOk, 0, none⟩) ∧
    (∀ (s : State) (who : Initiator) (m : Mailbox) (ecc : Ecc) (e : QEnt) (v : Word),
      s.reach who 0x014 (MB_POP + 4 * m.val) = rspOk →
      s.mbHead m.val = some (e, v) →
      completes (.mbPopTake who m ecc) s fun t =>
        (ecc ≠ .ue → t.ansOf who = ⟨rspOk, v, none⟩ ∧ (t.que (mbQueue m.val)).last = v) ∧
        (ecc = .ue → (t.ansOf who).rsp = rspOk ∧ t.event 0x010 EV_CORE_ECC_UE = true) ∧
        (t.que (mbQueue m.val)).ents = (s.que (mbQueue m.val)).ents.tail) ∧
    (∀ (s : State) (who : Initiator) (m : Mailbox) (ecc : Ecc),
      s.reach who 0x014 (MB_POP + 4 * m.val) = rspOk →
      (s.que (mbQueue m.val)).ents = [] →
      completes (.mbPopTake who m ecc) s fun t =>
        (t.ansOf who = ⟨rspOk, if s.compat 0x014 then 0 else (s.que (mbQueue m.val)).last, none⟩) ∧
        t.mbBit MB_UNDERRUN m.val = true ∧
        t.event 0x014 EV_Q_MB_UNDERRUN = true ∧
        t.core = s.core) ∧
    (∀ (s : State) (who : Initiator) (page : Fin 4) (q : Nat) (e : QEnt) (es : List QEnt) (j : Fin 6) (ecc : Ecc),
      ecc ≠ .ue →
      s.reach who (0x011 + page.val) QRP_TAKE = rspOk →
      s.fg (0x011 + page.val) QRP_SEL_QUEUE = q →
      softQueue (0x011 + page.val) q = true →
      ((s.que q).ents = e :: es) →
      (s.que q).taken = 0 →
      s.eligible e = true →
      (s.frec e.cell).verdict = .good →
      completes (.qrpTake who page ecc) s fun t =>
        t.rd (0x011 + page.val) (QRP_CELL + 4 * j.val) = (s.cell e.cell >>> (32 * j.val)).setWidth 32 ∧
        (t.ansOf who).rsp = rspOk ∧
        QRP_TAKE_VALID.get (t.ansOf who).data = 1 ∧
        QRP_TAKE_FIRST.get (t.ansOf who).data = 1 ∧
        ((t.que q).ents = if (s.link e.cell).last then es else e :: es) ∧
        ((t.que q).taken = if (s.link e.cell).last then 0 else 1)) ∧
    (∀ (s : State) (who : Initiator) (page : Fin 4) (q : Nat) (e : QEnt) (es : List QEnt),
      s.reach who (0x011 + page.val) QRP_TAKE = rspOk →
      s.fg (0x011 + page.val) QRP_SEL_QUEUE = q →
      softQueue (0x011 + page.val) q = true →
      ((s.que q).ents = e :: es) →
      0 < (s.que q).taken →
      (s.core.ques.map fun x => (x.2.ents.filter fun y => decide (y.cell = e.cell)).length).sum ≤ (s.frec e.cell).refs →
      completes (.qrpTake who page .ue) s fun t =>
        (t.ansOf who).rsp = rspOk ∧
        QRP_TAKE_VALID.get (t.ansOf who).data = 1 ∧
        QRP_TAKE_BAD.get (t.ansOf who).data = 1 ∧
        (t.que q).ents.length ≤ es.length ∧
        t.event 0x010 EV_CORE_ECC_UE = true) ∧
    (∀ (s : State) (who : Initiator) (page : Fin 4) (q : Nat) (j : Fin 6) (ecc : Ecc),
      s.reach who (0x011 + page.val) QRP_TAKE = rspOk →
      s.fg (0x011 + page.val) QRP_SEL_QUEUE = q →
      softQueue (0x011 + page.val) q = true →
      (s.que q).ents = [] →
      completes (.qrpTake who page ecc) s fun t =>
        QRP_TAKE_VALID.get (t.ansOf who).data = 0 ∧
        t.event (0x011 + page.val) EV_Q_QRP_EMPTY = true ∧
        t.rd (0x011 + page.val) (QRP_CELL + 4 * j.val) = s.rd (0x011 + page.val) (QRP_CELL + 4 * j.val))

/-! ### Network time (chapter 11) -/

/-- Service time is domain time of the selected domain less the residual (R324). ST_AUTO_SWITCH where R326 allows it selects the other domain
with ST_SWITCH, and service time at that instant is what it was. SLEW_DONE once the residual has reached 0 keeps service time, at this
instant and all later ones, and raises SLEW_DONE. A write of TM_SMP_CMD with GO never steps service time at that instant, whatever the
sample. -/
def Obligations.ServiceTimeIsContinuous : Prop :=
    (∀ (s : State),
      s.ready 0x018 = true →
      s.mayAuto = true →
      s.sel ≤ 1 →
      completes (.stAutoSwitch) s fun t =>
        t.sel = 1 - s.sel ∧
        t.stAt t.now = s.stAt s.now ∧
        t.event 0x018 EV_TM_ST_SWITCH = true ∧
        onlyRegs [(0x018, TM_ST_STATUS), (0x018, EVT_STATUS)] s t) ∧
    (∀ (s : State) (u : Int),
      s.tm.res0 ≠ 0 →
      s.resAt s.now = 0 →
      s.now ≤ u →
      completes (.slewDone) s fun t =>
        t.tm.res0 = 0 ∧
        t.stAt u = s.stAt u ∧
        t.event 0x018 EV_TM_SLEW_DONE = true ∧
        onlyRegs [(0x018, EVT_STATUS)] s t) ∧
    (∀ (s : State) (who : Initiator) (v : Word),
      s.accepts who 0x018 TM_SMP_CMD = true →
      s.sel ≤ 1 →
      completes (.sampleSubmit who v) s fun t =>
        t.stAt t.now = s.stAt s.now ∧
        t.sel = s.sel ∧
        t.ansOf who = ⟨rspOk, 0, none⟩ ∧
        onlyPages [0x018, 0x01C] s t)

/-- SAMPLE_SUBMIT for a domain whose ROLE is off or master, or whose source is neither MASTER nor BACKUP (127 names none): REJECTED counts with
SAMPLE_REJECT, and no time changes. A sample from MASTER, not seen before and of the right direction, for a ROLE 1 domain: USED counts,
LAST_SRC and SOURCE show it and ERROR holds master time less domain time at its stamp, clamped to 32 bits. DOMAIN_TIMEOUT of a READY page: a
ROLE 3 domain becomes MASTER with BACKUP_MASTER; a ROLE 1 domain acquiring or locked goes to HOLDOVER with its event. -/
def Obligations.SamplesAreJudged : Prop :=
    (∀ (s : State) (who : Initiator) (v : Word) (k : Nat),
      s.accepts who 0x018 TM_SMP_CMD = true →
      TM_SMP_CMD_GO.get v = 1 →
      TM_SMP_CMD_DOM.get v = k →
      (s.fg 0x018 (domF TM_D_CFG_ROLE k) = 0 ∨ s.fg 0x018 (domF TM_D_CFG_ROLE k) = 2 ∨ (TM_SMP_CMD_SRC.get v ≠ s.fg 0x018 (domF TM_D_CFG_MASTER k) ∧ (TM_SMP_CMD_SRC.get v ≠ s.fg 0x018 (domF TM_D_CFG_BACKUP k) ∨ TM_SMP_CMD_SRC.get v = 127))) →
      completes (.sampleSubmit who v) s fun t =>
        t.fg 0x018 (domF TM_D_CNT_REJECTED k) = min (s.fg 0x018 (domF TM_D_CNT_REJECTED k) + 1) (2 ^ TM_D_CNT_REJECTED.w - 1) ∧
        t.event 0x018 EV_TM_SAMPLE_REJECT = true ∧
        t.tm = s.tm) ∧
    (∀ (s : State) (who : Initiator) (v : Word) (k : Nat) (e : Int),
      s.accepts who 0x018 TM_SMP_CMD = true →
      TM_SMP_CMD_GO.get v = 1 →
      TM_SMP_CMD_DOM.get v = k →
      s.fg 0x018 (domF TM_D_CFG_ROLE k) = 1 →
      TM_SMP_CMD_SRC.get v = s.fg 0x018 (domF TM_D_CFG_MASTER k) →
      TM_SMP_CMD_SEQ.get v ∉ (s.dom k).seenM →
      s.fg 0x018 (domF TM_D_CFG_DIR k) = TM_SMP_CMD_DIR.get v →
      e = wrapInt (2 ^ 48) ((((s.rd 0x018 TM_SMP_NS).toNat * 65536 + s.fg 0x018 TM_SMP_FRAC_FRAC : Nat) : Int) - s.domAt k (lstampBy s.now ((s.rd 0x018 TM_SMP_LOC_LO).toNat + 2 ^ 32 * (s.rd 0x018 TM_SMP_LOC_HI).toNat)) / timeG) →
      completes (.sampleSubmit who v) s fun t =>
        t.fg 0x018 (domF TM_D_CNT_USED k) = min (s.fg 0x018 (domF TM_D_CNT_USED k) + 1) (2 ^ TM_D_CNT_USED.w - 1) ∧
        t.fg 0x018 (domF TM_D_STATUS_LAST_SRC k) = TM_SMP_CMD_SRC.get v ∧
        t.fg 0x018 (domF TM_D_STATUS_SOURCE k) = 1 ∧
        t.fg 0x018 (domF TM_D_ERROR_ERROR k) = uns 32 (max (-2 ^ 31) (min (2 ^ 31 - 1) e)) ∧
        ((s.fg 0x018 (domF TM_D_STEP_STEP k) * 65536 < e.natAbs ∧ s.dstate k ≠ 2) → (t.dom k).off = (s.dom k).off + e ∧ (s.fg 0x018 (domF TM_D_SERVO_LOCK_NS k) * 65536 < e.natAbs → t.dstate k = 1) ∧ t.event 0x018 (if k = 0 then EV_TM_A_STEP else EV_TM_B_STEP) = true) ∧
        (e.natAbs ≤ s.fg 0x018 (domF TM_D_STEP_STEP k) * 65536 → (t.dom k).off = (s.dom k).off + e / 2 ^ s.fg 0x018 (domF TM_D_SERVO_KP k))) ∧
    (∀ (s : State) (dom : Fin 2),
      s.ready 0x018 = true →
      ((s.fg 0x018 (domF TM_D_CFG_ROLE dom.val) = 3 ∧ s.dstate dom.val ≠ 4) ∨ (s.fg 0x018 (domF TM_D_CFG_ROLE dom.val) = 1 ∧ (s.dstate dom.val = 1 ∨ s.dstate dom.val = 2))) →
      completes (.domainTimeout dom) s fun t =>
        (s.fg 0x018 (domF TM_D_CFG_ROLE dom.val) = 3 → t.dstate dom.val = 4 ∧ t.event 0x018 EV_TM_BACKUP_MASTER = true) ∧
        (s.fg 0x018 (domF TM_D_CFG_ROLE dom.val) = 1 → t.dstate dom.val = 3 ∧ t.event 0x018 (if dom.val = 0 then EV_TM_A_HOLDOVER else EV_TM_B_HOLDOVER) = true) ∧
        (t.dom dom.val).recent = false ∧
        onlyRegs [(0x018, TM_D_STATUS + 0x40 * dom.val), (0x018, EVT_STATUS)] s t)

/-- TM_SNAP latches the stamp of the present instant, both domain times and service time with their ERAs, and changes nothing else of the page.
SYNC_ORIGINATE of a domain in MASTER puts two frames of class E with one SEQ, on STREAM 62 and 63, at the lantern's core port; SEQ counts.
PD_REQUEST_SEND of a measuring port at a frame boundary with an empty merge buffer sends the next SEQ and keeps its stamp. PD_REQ_RECEIVED
with a right CRC is answered there, within 2 µs, with its SEQ and the time of turning; any other is not. PD_RESP_RECEIVED that answers the
request outstanding within 10 µs gives a sample of half the round trip less TURN; an accepted one counts in SAMPLES and joins the last 16,
whose mean is DELAY. A sample out of range or more than 32 sixteenths of a ns from a valid DELAY is rejected; the 16th rejection in a row
clears VALID with PD_FAIL. -/
def Obligations.TimeIsLatchedAndSent : Prop :=
    (∀ (s : State) (who : Initiator),
      s.accepts who 0x018 TM_CTRL = true →
      completes (.tmSnap who) s fun t =>
        (t.rd 0x018 TM_SNAP_LOC_LO).toNat + 2 ^ 32 * (t.rd 0x018 TM_SNAP_LOC_HI).toNat = lstampOf s.now % 2 ^ 64 ∧
        (t.rd 0x018 TM_SNAP_A_NS).toNat * 65536 + (t.rd 0x018 (TM_SNAP_A_NS + 4)).toNat = s.dom48 0 s.now ∧
        (t.rd 0x018 TM_SNAP_B_NS).toNat * 65536 + (t.rd 0x018 (TM_SNAP_B_NS + 4)).toNat = s.dom48 1 s.now ∧
        (t.rd 0x018 TM_SNAP_ST_NS).toNat * 65536 + (t.rd 0x018 (TM_SNAP_ST_NS + 4)).toNat = s.st48 s.now ∧
        (t.rd 0x018 (TM_SNAP_ST_NS + 8)).toNat = s.stEra s.now ∧
        t.tm = s.tm ∧
        (onlyRegs ((0x01C, EVT_STATUS) :: [TM_SNAP_LOC_LO, TM_SNAP_LOC_HI, TM_SNAP_A_NS, TM_SNAP_A_NS + 4, TM_SNAP_A_NS + 8, TM_SNAP_B_NS, TM_SNAP_B_NS + 4, TM_SNAP_B_NS + 8, TM_SNAP_ST_NS, TM_SNAP_ST_NS + 4, TM_SNAP_ST_NS + 8].map (0x018, ·)) s t)) ∧
    (∀ (s : State) (dom : Fin 2),
      s.ready 0x018 = true →
      s.dstate dom.val = 4 →
      s.bare = false →
      completes (.syncOriginate dom) s fun t =>
        (t.dom dom.val).seq = ((s.dom dom.val).seq + 1) % 65536 ∧
        (((t.ingress.getD portLantern []).drop (s.ingress.getD portLantern []).length).map (fun x => (x.frame.hdr.stream, x.frame.hdr.dst, x.frame.hdr.mtype, x.frame.hdr.cls)) =
      [62, 63].map (fun n => (n, 127, if s.compat 0x018 then 0x10 else 0x11, Cls.E))) ∧
        (t.ingress.getD portLantern []).take (s.ingress.getD portLantern []).length = s.ingress.getD portLantern []) ∧
    (∀ (s : State) (port : RingPort) (sub : Fin 26),
      s.pdOn port = true →
      s.eg port.core = none →
      (s.port port.lanes).merge = [] →
      completes (.pdRequestSend port sub) s fun t =>
        (t.port port.lanes).pdSent = some ((s.port port.lanes).pdSeq, s.stampAt sub.val) ∧
        (t.port port.lanes).pdSeq = ((s.port port.lanes).pdSeq + 1) % 256 ∧
        (t.port port.lanes).tm = tmBytes 1 (s.port port.lanes).pdSeq 0 ∧
        t.regs = s.regs) ∧
    (∀ (s : State) (port : RingPort) (bytes : List Byte) (turn : BitVec 32),
      completes (.pdReqReceived port bytes turn) s fun t =>
        ((s.portActive port.lanes = true ∧ s.eg port.core = none ∧ (s.port port.lanes).merge = [] ∧ tmOk bytes 1 = true ∧ turn.toNat ≤ 32000) → (t.port port.lanes).tm = tmBytes 2 (leAt bytes 1 1) turn.toNat ∧ t.regs = s.regs) ∧
        (¬(s.portActive port.lanes = true ∧ s.eg port.core = none ∧ (s.port port.lanes).merge = [] ∧ tmOk bytes 1 = true ∧ turn.toNat ≤ 32000) → t = s)) ∧
    (∀ (s : State) (port : RingPort) (bytes : List Byte) (sub : Fin 26) (q : Nat) (t1 x : Int),
      s.pdOn port = true →
      tmOk bytes 2 = true →
      (s.port port.lanes).pdSent = some (q, t1) →
      leAt bytes 1 1 = q →
      s.stampAt sub.val - t1 ≤ 1600000 →
      x = (s.stampAt sub.val - t1 - 10 * (leAt bytes 2 4 : Int)) / 20 →
      (0 ≤ x ∧ x ≤ 32000) →
      (s.fb port.page RP_PD_DELAY_VALID = false ∨ (x - (s.fg port.page RP_PD_DELAY_DELAY : Int)).natAbs ≤ 32) →
      completes (.pdRespReceived port bytes sub) s fun t =>
        t.fg port.page RP_PD_LAST_SAMPLE = x.toNat ∧
        t.fg port.page RP_PD_LAST_ACCEPTED = 1 ∧
        ((t.port port.lanes).pdHist = (x.toNat :: (s.port port.lanes).pdHist).take 16) ∧
        (t.port port.lanes).pdSent = none ∧
        t.fg port.page RP_PD_CNT_SAMPLES = min (s.fg port.page RP_PD_CNT_SAMPLES + 1) (2 ^ RP_PD_CNT_SAMPLES.w - 1) ∧
        (15 ≤ (s.port port.lanes).pdHist.length → t.fg port.page RP_PD_DELAY_VALID = 1 ∧ t.fg port.page RP_PD_DELAY_DELAY = (x.toNat :: (s.port port.lanes).pdHist.take 15).sum / 16 % 2 ^ RP_PD_DELAY_DELAY.w)) ∧
    (∀ (s : State) (port : RingPort) (bytes : List Byte) (sub : Fin 26) (q : Nat) (t1 x : Int),
      s.pdOn port = true →
      tmOk bytes 2 = true →
      (s.port port.lanes).pdSent = some (q, t1) →
      leAt bytes 1 1 = q →
      s.stampAt sub.val - t1 ≤ 1600000 →
      x = (s.stampAt sub.val - t1 - 10 * (leAt bytes 2 4 : Int)) / 20 →
      (x < 0 ∨ 32000 < x ∨ (s.fb port.page RP_PD_DELAY_VALID = true ∧ 32 < (x - (s.fg port.page RP_PD_DELAY_DELAY : Int)).natAbs)) →
      completes (.pdRespReceived port bytes sub) s fun t =>
        t.fg port.page RP_PD_LAST_ACCEPTED = 0 ∧
        t.fg port.page RP_PD_CNT_REJECTED = min (s.fg port.page RP_PD_CNT_REJECTED + 1) (2 ^ RP_PD_CNT_REJECTED.w - 1) ∧
        ((s.port port.lanes).pdRej < 15 → (t.port port.lanes).pdRej = (s.port port.lanes).pdRej + 1 ∧ t.rd port.page RP_PD_DELAY = s.rd port.page RP_PD_DELAY) ∧
        (15 ≤ (s.port port.lanes).pdRej → t.fg port.page RP_PD_DELAY_VALID = 0 ∧ t.event port.page EV_RP_PD_FAIL = true))

/-- TM_JUMP sets the residual to 0 while the scan unit is stopped; while it runs, it is refused with JUMP_REFUSED. -/
def Obligations.JumpSetsTheResidualToZero : Prop :=
    (∀ (s : State) (who : Initiator),
      s.accepts who 0x018 TM_CTRL = true →
      completes (.tmJump who) s fun t =>
        (s.running 0x01C = false → t.resAt t.now = 0 ∧ t.st48 t.now = uns 48 ((t.domAt t.sel t.now + t.tm.stAdj) / timeG) ∧ t.tm.doms = s.tm.doms ∧ t.tm.stAdj = s.tm.stAdj) ∧
        (s.running 0x01C = true → t.tm = s.tm ∧ t.event 0x018 EV_TM_JUMP_REFUSED = true) ∧
        onlyRegs [(0x018, EVT_STATUS), (0x01C, EVT_STATUS)] s t)

/-! ### Scan exchange (chapter 12) -/

/-- For a running scan unit with nothing else due at the boundary: no commit pending, no swap proposed, no update armed, not asked to stop, and
no access held. EPOCH_BOUNDARY of a unit that has started: every group then shows the content last written to it, in the hidden copy or the
visible one, and no group is hidden; SC_EPOCH counts 1 modulo 2^32 and SC_EPOCH is raised; the latch is due. The first boundary after the
start takes the epoch number kept for it and leaves the groups as they are. At its stop point the unit stops: RUNNING falls and no latch is
due. -/
def Obligations.EpochBoundaryFlipsTheCanopy : Prop :=
    (∀ (s : State),
      s.running 0x01C = true →
      s.ready 0x01C = true →
      s.fb 0x01C SC_STATUS_WAITING = false →
      s.commitPending 0x01C = false →
      0x01C ∉ s.stopping →
      s.scan.held = [] →
      s.scan.waits = [] →
      s.tw.swap = none →
      s.upState ≠ 3 →
      completes (.epochBoundary) s fun t =>
        (∀ k, t.grpVis k = s.grpNew k) ∧
        t.scan.hid = [] ∧
        t.epoch = (s.epoch + 1) % 2 ^ 32 ∧
        t.rd 0x01C SC_BOUND_NS = BitVec.ofNat 32 (uns 32 s.scan.next) ∧
        t.scan.next = s.scan.next + s.epochNs ∧
        t.fg 0x01C SC_STATUS_STARTED = 1 ∧
        t.fg 0x01C SC_STATUS_GUARDING = 0 ∧
        t.event 0x01C EV_SC_EPOCH = true ∧
        t.scan.latchDue = true ∧
        t.running 0x01C = true) ∧
    (∀ (s : State),
      s.running 0x01C = true →
      s.ready 0x01C = true →
      s.fb 0x01C SC_STATUS_WAITING = true →
      s.commitPending 0x01C = false →
      0x01C ∉ s.stopping →
      s.scan.held = [] →
      s.scan.waits = [] →
      s.tw.swap = none →
      s.upState ≠ 3 →
      completes (.epochBoundary) s fun t =>
        t.epoch = s.scan.first % 2 ^ 32 ∧
        t.scan.vis = s.scan.vis ∧
        t.fg 0x01C SC_STATUS_WAITING = 0 ∧
        t.fg 0x01C SC_STATUS_STARTED = 1 ∧
        t.event 0x01C EV_SC_EPOCH = true) ∧
    (∀ (s : State),
      s.running 0x01C = true →
      s.ready 0x01C = true →
      s.commitPending 0x01C = false →
      0x01C ∈ s.stopping →
      s.scan.held = [] →
      s.scan.waits = [] →
      s.tw.swap = none →
      s.upState ≠ 3 →
      completes (.blockStopPoint 0x01C) s fun t =>
        t.running 0x01C = false ∧
        t.scan.latchDue = false ∧
        0x01C ∉ t.stopping ∧
        t.event 0x01C EV_STATE_CHANGE = true)

/-- LATCH_DONE, with the latch due on a running unit, writes each channel's four grains, as of the boundary: by the mode it had there, the
accepted level with UNSURE and the count's halves, or the sample, or 0; and RUN, MODE, SY_OK, the link, the late and the gap mark. Groups
from 96 on keep their content. A stopped unit or one whose latch is not due latches nothing. GUARD_START of a running unit outside the
guard: GUARDING is 1, no canopy group changes, and a running DISC channel with OUTSRC 1 has its output grain: as the level and enable placed
for the next boundary, or in PWM as the duty from then on. In the guard, and on a unit that does not run, it changes nothing.
SCAN_FRAME_TAKE takes nothing in the guard. Outside it, it takes the oldest frame received; a stopped unit counts it in SC_CNT_IDLE. A
running unit takes an OUTPUT frame of 1 to 5 whole groups for the next epoch: the groups take its bytes and SC_CNT_OUT counts; every other
group keeps its content. One for the current or a past epoch is late: SC_CNT_LATE_OUT counts with LATE_OUT and its channels are marked; no
group changes. A frame of a canopy type with no group, more than 5, or another length is bad: SC_CNT_BAD counts with BAD_FRAME. A PUBLISH
frame of the current epoch that a subscription takes writes its groups at the subscription's place in the input image and counts in
SC_CNT_IN. SC_OPUB_SEND whose release epoch is not ahead counts in SC_CNT_LATE_OUT with LATE_OUT; on a started unit with one ahead it sends,
where the hub publishes, the frames of the enabled output publications named, with that epoch. -/
def Obligations.LatchGuardAndFrames : Prop :=
    (∀ (s : State) (g : Fin 192) (l k : Nat),
      s.scan.latchDue = true →
      s.running 0x01C = true →
      s.ready 0x01C = true →
      completes (.latchDone) s fun t =>
        t.scan.latchDue = false ∧
        t.epoch = s.epoch ∧
        ((s.scan.stat.getD g.val 0 / 4 % 8 = 4 ∧ histAt (s.localOf (s.scan.bnd * stNsU)) (s.chan (g.val / 8) (g.val % 8)).hist = some (l, k)) → t.grainNew .input (4 * g.val) = l % 4096 ∧ t.grainNew .input (4 * g.val + 1) = k % 4096 ∧ t.grainNew .input (4 * g.val + 2) = k / 4096 % 4096) ∧
        ((s.scan.stat.getD g.val 0 / 4 % 8 = 3 ∧ histAt (s.localOf (s.scan.bnd * stNsU)) (s.chan (g.val / 8) (g.val % 8)).hist = some (l, k)) → t.grainNew .input (4 * g.val) = l % 4096 ∧ t.grainNew .input (4 * g.val + 1) = (if 13 ≤ s.fg (s.chanEng g.val) SY_CFG_WIDTH then l / 4096 % 4096 else 0) ∧ t.grainNew .input (4 * g.val + 2) = 0) ∧
        ((s.scan.stat.getD g.val 0 / 4 % 8 ≠ 3 ∧ s.scan.stat.getD g.val 0 / 4 % 8 ≠ 4) → t.grainNew .input (4 * g.val) = 0 ∧ t.grainNew .input (4 * g.val + 1) = 0 ∧ t.grainNew .input (4 * g.val + 2) = 0) ∧
        t.grainNew .input (4 * g.val + 3) = bit (nbit (s.scan.stat.getD g.val 0) 0 && s.goodAt (g.val / 8) (s.localOf (s.scan.bnd * stNsU))) + 2 * (s.scan.stat.getD g.val 0 / 2 % 32) + 64 * bit (s.scan.lateWas.contains g.val) + 128 * bit (s.gapBefore (g.val / 8) (s.localOf (s.scan.bnd * stNsU))) ∧
        (∀ m, 96 ≤ m → t.grpNew m = s.grpNew m)) ∧
    (∀ (s : State),
      (s.scan.latchDue = false ∨ s.running 0x01C = false) →
      completes (.latchDone) s fun t =>
        t = s) ∧
    (∀ (s : State) (g : Fin 192),
      s.scanOn = true →
      s.fb 0x01C SC_STATUS_GUARDING = false →
      completes (.guardStart) s fun t =>
        t.fg 0x01C SC_STATUS_GUARDING = 1 ∧
        t.scan.vis = s.scan.vis ∧
        t.scan.hid = s.scan.hid ∧
        ((s.copyBad (s.copyKey (grpKey .output (g.val / 8)) false) = false ∧ s.enMode (s.chanEng g.val) = 4 ∧ s.fb (s.chanEng g.val) DI_CFG_OUTSRC = true ∧ s.enRuns (s.chanEng g.val) = true ∧ s.fg (s.chanEng g.val) DI_CFG_OUTMODE = 0) → t.chan (g.val / 8) (g.val % 8) = { s.chan (g.val / 8) (g.val % 8) with due := (s.chan (g.val / 8) (g.val % 8)).due ++ [⟨s.localOf (s.scan.next * stNsU), nbit (s.grainNew .output g.val) 0, nbit (s.grainNew .output g.val) 1⟩] }) ∧
        ((s.copyBad (s.copyKey (grpKey .output (g.val / 8)) false) = false ∧ s.enMode (s.chanEng g.val) = 4 ∧ s.fb (s.chanEng g.val) DI_CFG_OUTSRC = true ∧ s.enRuns (s.chanEng g.val) = true ∧ s.fg (s.chanEng g.val) DI_CFG_OUTMODE = 1) → t.chan (g.val / 8) (g.val % 8) = { s.chan (g.val / 8) (g.val % 8) with dutyNew := (s.chan (g.val / 8) (g.val % 8)).dutyNew ++ [(s.scan.next, s.grainNew .output g.val)] })) ∧
    (∀ (s : State),
      (s.scanOn = false ∨ s.fb 0x01C SC_STATUS_GUARDING = true) →
      completes (.guardStart) s fun t =>
        t = s) ∧
    (∀ (s : State),
      s.fb 0x01C SC_STATUS_GUARDING = true →
      completes (.scanFrameTake) s fun t =>
        t = s) ∧
    (∀ (s : State) (f : Frame) (rest : List Frame),
      (s.inbox portScan = f :: rest) →
      s.fb 0x01C SC_STATUS_GUARDING = false →
      s.scanOn = false →
      completes (.scanFrameTake) s fun t =>
        t.inbox portScan = rest ∧
        t.fg 0x01C SC_CNT_IDLE_COUNT = min (s.fg 0x01C SC_CNT_IDLE_COUNT + 1) (2 ^ SC_CNT_IDLE_COUNT.w - 1) ∧
        onlyRegs [(0x01C, SC_CNT_IDLE)] s t) ∧
    (∀ (s : State) (f : Frame) (rest : List Frame) (g : Nat),
      (s.inbox portScan = f :: rest) →
      s.fb 0x01C SC_STATUS_GUARDING = false →
      s.scanOn = true →
      f.hdr.cls = .E →
      f.hdr.mtype = 1 →
      leAt f.payload 0 1 = g →
      (1 ≤ g ∧ g ≤ 5) →
      f.payload.length = 4 + 12 * g →
      f.hdr.argBits 32 15 + 8 * g ≤ 32768 →
      epochDiff (f.hdr.argBits 0 32) s.epoch = 1 →
      completes (.scanFrameTake) s fun t =>
        (∀ i < g, t.grpNew (grpKey .output (f.hdr.argBits 32 15 / 8 + i)) = grpOf (f.payload.drop (4 + 12 * i))) ∧
        (∀ k, (∀ i < g, k ≠ grpKey .output (f.hdr.argBits 32 15 / 8 + i)) → t.grpNew k = s.grpNew k) ∧
        t.scan.vis = s.scan.vis ∧
        t.fg 0x01C SC_CNT_OUT_COUNT = min (s.fg 0x01C SC_CNT_OUT_COUNT + 1) (2 ^ SC_CNT_OUT_COUNT.w - 1) ∧
        t.inbox portScan = rest ∧
        onlyRegs [(0x01C, SC_CNT_OUT)] s t) ∧
    (∀ (s : State) (f : Frame) (rest : List Frame) (g : Nat),
      (s.inbox portScan = f :: rest) →
      s.fb 0x01C SC_STATUS_GUARDING = false →
      s.scanOn = true →
      f.hdr.cls = .E →
      f.hdr.mtype = 1 →
      leAt f.payload 0 1 = g →
      (1 ≤ g ∧ g ≤ 5) →
      f.payload.length = 4 + 12 * g →
      f.hdr.argBits 32 15 + 8 * g ≤ 32768 →
      (epochDiff (f.hdr.argBits 0 32) s.epoch = 0 ∨ 2 ^ 31 ≤ epochDiff (f.hdr.argBits 0 32) s.epoch) →
      completes (.scanFrameTake) s fun t =>
        t.scan.hid = s.scan.hid ∧
        t.scan.vis = s.scan.vis ∧
        t.fg 0x01C SC_CNT_LATE_OUT_COUNT = min (s.fg 0x01C SC_CNT_LATE_OUT_COUNT + 1) (2 ^ SC_CNT_LATE_OUT_COUNT.w - 1) ∧
        t.event 0x01C EV_SC_LATE_OUT = true ∧
        (f.hdr.argBits 32 15 < 192 → (t.rd 0x01C (SC_LATE + 4 * (f.hdr.argBits 32 15 / 32))).getLsbD (f.hdr.argBits 32 15 % 32) = true)) ∧
    (∀ (s : State) (f : Frame) (rest : List Frame) (g : Nat),
      (s.inbox portScan = f :: rest) →
      s.fb 0x01C SC_STATUS_GUARDING = false →
      s.scanOn = true →
      f.hdr.cls = .E →
      f.hdr.mtype < 2 →
      leAt f.payload 0 1 = g →
      (g = 0 ∨ 5 < g ∨ f.payload.length ≠ 4 + 12 * g) →
      completes (.scanFrameTake) s fun t =>
        t.fg 0x01C SC_CNT_BAD_COUNT = min (s.fg 0x01C SC_CNT_BAD_COUNT + 1) (2 ^ SC_CNT_BAD_COUNT.w - 1) ∧
        t.event 0x01C EV_SC_BAD_FRAME = true ∧
        t.scan = s.scan ∧
        onlyRegs [(0x01C, SC_CNT_BAD), (0x01C, EVT_STATUS)] s t) ∧
    (∀ (s : State) (f : Frame) (rest : List Frame) (g j b : Nat),
      (s.inbox portScan = f :: rest) →
      s.fb 0x01C SC_STATUS_GUARDING = false →
      s.scanOn = true →
      f.hdr.cls = .E →
      f.hdr.mtype = 0 →
      leAt f.payload 0 1 = g →
      (1 ≤ g ∧ g ≤ 5) →
      f.payload.length = 4 + 12 * g →
      j < 32 →
      s.fb 0x01C (SC_SUB_CFG_EN.at (0x10 * j)) = true →
      (s.fg 0x01C (SC_SUB_CFG_SRC.at (0x10 * j)) = f.hdr.src ∧ s.fg 0x01C (SC_SUB_CFG_PUB.at (0x10 * j)) = leAt f.payload 2 1) →
      (∀ i < j, s.fb 0x01C (SC_SUB_CFG_EN.at (0x10 * i)) = false) →
      b = s.fg 0x01C (SC_SUB_RANGE_BASE.at (0x10 * j)) + f.hdr.argBits 32 15 →
      f.hdr.argBits 32 15 + 8 * g ≤ s.fg 0x01C (SC_SUB_RANGE_LEN.at (0x10 * j)) →
      b + 8 * g ≤ 32768 →
      epochDiff (f.hdr.argBits 0 32) s.epoch = 0 →
      completes (.scanFrameTake) s fun t =>
        (∀ i < g, t.grpNew (grpKey .input (b / 8 + i)) = grpOf (f.payload.drop (4 + 12 * i))) ∧
        (∀ k, (∀ i < g, k ≠ grpKey .input (b / 8 + i)) → t.grpNew k = s.grpNew k) ∧
        t.fg 0x01C SC_CNT_IN_COUNT = min (s.fg 0x01C SC_CNT_IN_COUNT + 1) (2 ^ SC_CNT_IN_COUNT.w - 1) ∧
        onlyRegs [(0x01C, SC_CNT_IN)] s t) ∧
    (∀ (s : State) (who : Initiator) (v : Word),
      s.accepts who 0x01C SC_OPUB_SEND = true →
      (s.fb 0x01C SC_STATUS_STARTED = false ∨ epochDiff (s.rd 0x01C SC_OPUB_REL).toNat s.epoch = 0 ∨ 2 ^ 31 ≤ epochDiff (s.rd 0x01C SC_OPUB_REL).toNat s.epoch) →
      completes (.scOpubSend who v) s fun t =>
        t.fg 0x01C SC_CNT_LATE_OUT_COUNT = min (s.fg 0x01C SC_CNT_LATE_OUT_COUNT + 1) (2 ^ SC_CNT_LATE_OUT_COUNT.w - 1) ∧
        t.event 0x01C EV_SC_LATE_OUT = true ∧
        t.ansOf who = ⟨rspOk, 0, none⟩ ∧
        onlyRegs [(0x01C, SC_CNT_LATE_OUT), (0x01C, EVT_STATUS)] s t) ∧
    (∀ (s : State) (who : Initiator) (v : Word),
      s.accepts who 0x01C SC_OPUB_SEND = true →
      s.fb 0x01C SC_STATUS_STARTED = true →
      (0 < epochDiff (s.rd 0x01C SC_OPUB_REL).toNat s.epoch ∧ epochDiff (s.rd 0x01C SC_OPUB_REL).toNat s.epoch < 2 ^ 31) →
      completes (.scOpubSend who v) s fun t =>
        (s.publishes = true → (t.ingress.getD portScan []).length = (s.ingress.getD portScan []).length + (((List.range 32).filter fun k => nbit v.toNat k && decide (s.fg 0x01C (SC_OPUB_DEST_EN.at (0x10 * k)) = 1)).map fun k => (s.fg 0x01C (SC_OPUB_RANGE_LEN.at (0x10 * k)) / 8 + 4) / 5).sum) ∧
        (s.publishes = true → ((t.ingress.getD portScan []).drop (s.ingress.getD portScan []).length).all (fun x => decide (x.frame.hdr.cls = .E) && decide (x.frame.hdr.mtype = 1) && decide (x.frame.hdr.argBits 0 32 = (s.rd 0x01C SC_OPUB_REL).toNat)) = true) ∧
        (s.publishes = false → t.ingress.getD portScan [] = s.ingress.getD portScan []) ∧
        t.scan.vis = s.scan.vis ∧
        t.ansOf who = ⟨rspOk, 0, none⟩)

/-! ### Card links (chapter 8) -/

/-- RECEIVER_DETECT_PROBE in DETECT: the second probe in a row that finds the termination starts training; one that does not finds none and
stays. CARD_TRAINING_FRAME in TRAIN: with the 64th valid frame in a row, LOCKED seen in 8 in a row, the link is LOCKED and measures its
loop. One that is not valid there, or shows an error, starts the count again. In LOOP a valid one adds its sample, up to 256; the fourth in
a row that is not takes the link to TRAIN. CARD_TRAIN_TIMEOUT in TRAIN without lock goes back to DETECT and counts TRAIN_FAIL.
LOOP_MEASURE_DONE on 256 samples: within 16 of each other and of a mean from 1280 to 4000, LOOP is their mean; a mean out of range or the
third spread too wide holds the link, an earlier wide one measures again. SIDEBAND_BLOCK_RECEIVED: the second of two ROLL_CALL blocks alike,
of format 1 and the type expected, makes the link ACTIVE with LINK_UP and shows the card's serial number and type. A block with a bad frame,
a wrong CRC or an unknown TYPE is counted in CL_CNT_BLOCK and has no other effect. ROLLCALL_TIMEOUT in ROLLCALL, and CL_RETRAIN from LOOP
on, take the link to TRAIN. -/
def Obligations.CardLinksComeUp : Prop :=
    (∀ (s : State) (pitch : Pitch) (term : Bool),
      s.clState pitch.val = 1 →
      completes (.receiverDetectProbe pitch term) s fun t =>
        (term = true → 1 ≤ (s.card pitch.val).probes → t.clState pitch.val = 2) ∧
        (term = false → t.clState pitch.val = 1 ∧ (t.card pitch.val).probes = 0) ∧
        (term = true → (s.card pitch.val).probes = 0 → t.clState pitch.val = 1 ∧ (t.card pitch.val).probes = 1) ∧
        t.fg (clPage pitch.val) CL_LSTAT_TERM = bit term ∧
        onlyPages [clPage pitch.val] s t) ∧
    (∀ (s : State) (pitch : Pitch) (bytes : List Byte) (sample : Nat) (inv : Bool),
      s.clState pitch.val = 2 →
      bytes.length = 10 →
      clTrainOk bytes = true →
      63 ≤ (s.card pitch.val).lock →
      7 ≤ (s.card pitch.val).seen →
      nbit (leAt bytes 2 1) 0 = true →
      completes (.cardTrainingFrame pitch bytes sample inv .clean) s fun t =>
        t.clState pitch.val = 3 ∧
        t.fg (clPage pitch.val) CL_LSTAT_INV = bit inv ∧
        t.fg (clPage pitch.val) CL_LSTAT_LOCKED = 1 ∧
        (t.card pitch.val).samples = [] ∧
        onlyPages [clPage pitch.val] s t) ∧
    (∀ (s : State) (pitch : Pitch) (bytes : List Byte) (sample : Nat) (inv : Bool) (mark : CardEnd),
      bytes.length = 10 →
      s.clState pitch.val = 2 →
      (clTrainOk bytes = false ∨ mark ≠ .clean) →
      completes (.cardTrainingFrame pitch bytes sample inv mark) s fun t =>
        (t.card pitch.val).lock = 0 ∧
        t.clState pitch.val = 2 ∧
        (mark = .unlock → t.fg (clPage pitch.val) CL_LSTAT_LOCKED = 0) ∧
        onlyPages [clPage pitch.val] s t) ∧
    (∀ (s : State) (pitch : Pitch) (bytes : List Byte) (sample : Nat) (inv : Bool) (mark : CardEnd),
      bytes.length = 10 →
      s.clState pitch.val = 3 →
      completes (.cardTrainingFrame pitch bytes sample inv mark) s fun t =>
        ((clTrainOk bytes = true ∧ mark = .clean ∧ inv = s.fb (clPage pitch.val) CL_LSTAT_INV) → (t.card pitch.val).samples = (if (s.card pitch.val).looped || decide (256 ≤ (s.card pitch.val).samples.length) then (s.card pitch.val).samples else (s.card pitch.val).samples ++ [sample]) ∧ (t.card pitch.val).badRun = 0 ∧ t.regs = s.regs) ∧
        (¬(clTrainOk bytes = true ∧ mark = .clean ∧ inv = s.fb (clPage pitch.val) CL_LSTAT_INV) → 3 ≤ (s.card pitch.val).badRun → t.clState pitch.val = 2) ∧
        (¬(clTrainOk bytes = true ∧ mark = .clean ∧ inv = s.fb (clPage pitch.val) CL_LSTAT_INV) → (s.card pitch.val).badRun < 3 → t.clState pitch.val = 3 ∧ (t.card pitch.val).badRun = (s.card pitch.val).badRun + 1 ∧ (t.card pitch.val).samples = (s.card pitch.val).samples)) ∧
    (∀ (s : State) (pitch : Pitch),
      s.clState pitch.val = 2 →
      s.fb (clPage pitch.val) CL_LSTAT_LOCKED = false →
      completes (.cardTrainTimeout pitch) s fun t =>
        t.clState pitch.val = 1 ∧
        t.fg (clPage pitch.val) CL_CNT_LINK_TRAIN_FAIL = min (s.fg (clPage pitch.val) CL_CNT_LINK_TRAIN_FAIL + 1) (2 ^ CL_CNT_LINK_TRAIN_FAIL.w - 1) ∧
        onlyPages [clPage pitch.val] s t) ∧
    (∀ (s : State) (pitch : Pitch),
      s.clState pitch.val = 3 →
      (s.card pitch.val).looped = false →
      (s.card pitch.val).samples.length = 256 →
      completes (.loopMeasureDone pitch) s fun t =>
        (((s.card pitch.val).samples.foldl max 0 - (s.card pitch.val).samples.foldl min ((s.card pitch.val).samples.headD 0) ≤ 16 ∧ 1280 * 256 ≤ (s.card pitch.val).samples.sum ∧ (s.card pitch.val).samples.sum ≤ 4000 * 256) →
      t.fg (clPage pitch.val) CL_LOOP_LOOP = ((s.card pitch.val).samples.sum + 128) / 256 ∧ (t.card pitch.val).looped = true ∧ t.clState pitch.val = 3) ∧
        ((16 < (s.card pitch.val).samples.foldl max 0 - (s.card pitch.val).samples.foldl min ((s.card pitch.val).samples.headD 0) ∧ 2 ≤ (s.card pitch.val).tries) →
      t.clState pitch.val = 6 ∧ t.fg (clPage pitch.val) CL_STATUS_HELD_REASON = 2 ∧ t.event (clPage pitch.val) EV_CL_HELD = true) ∧
        (((s.card pitch.val).samples.foldl max 0 - (s.card pitch.val).samples.foldl min ((s.card pitch.val).samples.headD 0) ≤ 16 ∧ ((s.card pitch.val).samples.sum < 1280 * 256 ∨ 4000 * 256 < (s.card pitch.val).samples.sum)) → t.clState pitch.val = 6 ∧ t.fg (clPage pitch.val) CL_STATUS_HELD_REASON = 1 ∧ t.event (clPage pitch.val) EV_CL_HELD = true) ∧
        ((16 < (s.card pitch.val).samples.foldl max 0 - (s.card pitch.val).samples.foldl min ((s.card pitch.val).samples.headD 0) ∧ (s.card pitch.val).tries < 2) → t.clState pitch.val = 3 ∧ (t.card pitch.val).samples = [] ∧ (t.card pitch.val).tries = (s.card pitch.val).tries + 1 ∧ t.regs = s.regs) ∧
        onlyPages [clPage pitch.val] s t) ∧
    (∀ (s : State) (pitch : Pitch) (bytes : List Byte),
      s.clState pitch.val = 4 →
      bytes.length = 64 →
      leAt bytes 0 1 = 1 →
      leAt bytes 62 2 = crc16 (bytes.take 62) →
      (s.card pitch.val).roll = (bytes.drop 2).take 60 →
      leAt bytes 17 1 = 1 →
      (s.fg (clPage pitch.val) CL_EXPECT_TYPE = 0 ∨ s.fg (clPage pitch.val) CL_EXPECT_TYPE = leAt bytes 10 2) →
      completes (.sidebandBlockReceived pitch bytes false) s fun t =>
        t.clState pitch.val = 5 ∧
        t.rd (clPage pitch.val) CL_SN_LO = BitVec.ofNat 32 (leAt bytes 2 4) ∧
        t.rd (clPage pitch.val) CL_SN_HI = BitVec.ofNat 32 (leAt bytes 6 4) ∧
        t.fg (clPage pitch.val) CL_CARD_TYPE = leAt bytes 10 2 ∧
        t.event (clPage pitch.val) EV_CL_LINK_UP = true) ∧
    (∀ (s : State) (pitch : Pitch) (bytes : List Byte) (anyBad : Bool),
      4 ≤ s.clState pitch.val →
      bytes.length = 64 →
      (anyBad = true ∨ leAt bytes 62 2 ≠ crc16 (bytes.take 62) ∨ (2 < leAt bytes 0 1 ∧ leAt bytes 0 1 ≠ 0x10)) →
      completes (.sidebandBlockReceived pitch bytes anyBad) s fun t =>
        t.fg (clPage pitch.val) CL_CNT_BLOCK_COUNT = min (s.fg (clPage pitch.val) CL_CNT_BLOCK_COUNT + 1) (2 ^ CL_CNT_BLOCK_COUNT.w - 1) ∧
        onlyRegs [(clPage pitch.val, CL_CNT_BLOCK)] s t ∧
        quiet s t) ∧
    (∀ (s : State) (pitch : Pitch),
      s.clState pitch.val = 4 →
      completes (.rollcallTimeout pitch) s fun t =>
        t.clState pitch.val = 2 ∧
        t.fg (clPage pitch.val) CL_CNT_LINK_TRAIN_FAIL = min (s.fg (clPage pitch.val) CL_CNT_LINK_TRAIN_FAIL + 1) (2 ^ CL_CNT_LINK_TRAIN_FAIL.w - 1) ∧
        onlyPages [clPage pitch.val] s t) ∧
    (∀ (s : State) (who : Initiator) (pitch : Pitch),
      s.accepts who (clPage pitch.val) CL_CTRL = true →
      3 ≤ s.clState pitch.val →
      completes (.clRetrain who pitch) s fun t =>
        t.clState pitch.val = 2 ∧
        t.fg (clPage pitch.val) CL_STATUS_TX_ACTIVE = 0 ∧
        t.ansOf who = ⟨rspOk, 0, none⟩ ∧
        (s.clState pitch.val = 5 → t.event (clPage pitch.val) EV_CL_LINK_DOWN = true))

/-- CARD_FRAME_RECEIVED of a good frame with the far end's RX_OK on an ACTIVE link: every channel has one more report with its level (its
cluster READY; else what was queued is discarded), the position advances and BAD does not count. A bad frame counts in CL_CNT_BAD with
FRAME_ERR; the fourth in a row, or one in which the lane loses symbol lock or its elastic buffer, loses the link: it trains again, counts
LINK_LOSS and raises LINK_DOWN. CARD_LOS_PERSIST on an ACTIVE link loses it and shows LOS. CARD_FRAME_SEND sends ten bytes: in training a
training frame with the next FCNT, in a superframe the next position with sync K28.5 at 0 and K28.1 elsewhere, and a right CRC.
SUPERFRAME_BOUNDARY of an ACTIVE link shows the loop just measured and counts the superframe; a swap or a pending stop or commit apart.
SAFE_MISMATCH once 16 superframes have passed and a STATUS block since shows values that differ from CL_SAFE raises SAFE_MISMATCH; else
nothing changes. -/
def Obligations.CardFramesInAndOut : Prop :=
    (∀ (s : State) (pitch : Pitch) (bytes : List Byte),
      s.clState pitch.val = 5 →
      bytes.length = 10 →
      bytes.head? = some (if (s.card pitch.val).rxPos = 0 then k285 else k281) →
      clCrcOk bytes = true →
      leAt bytes 8 1 % 64 = (s.card pitch.val).rxPos →
      nbit (leAt bytes 8 1) 7 = true →
      completes (.cardFrameReceived pitch bytes .clean) s fun t =>
        (∀ c < 8, if s.ready (ecPage pitch.val) = true then (t.chan pitch.val c).reps.length = (s.chan pitch.val c).reps.length + 1 ∧ (t.chan pitch.val c).lvl = some (nbit (leAt bytes 1 6 / 2 ^ (6 * c) % 64) 5) else (t.chan pitch.val c).reps = [] ∧ (t.chan pitch.val c).lvl = none) ∧
        (t.card pitch.val).rxPos = ((s.card pitch.val).rxPos + 1) % 64 ∧
        (t.card pitch.val).badRun = 0 ∧
        t.rd (clPage pitch.val) CL_CNT_BAD = s.rd (clPage pitch.val) CL_CNT_BAD ∧
        t.fg (clPage pitch.val) CL_STATUS_SEL_THIS = bit (nbit (leAt bytes 8 1) 6) ∧
        t.clState pitch.val = 5) ∧
    (∀ (s : State) (pitch : Pitch) (bytes : List Byte) (mark : CardEnd),
      s.clState pitch.val = 5 →
      bytes.length = 10 →
      (mark ≠ .clean ∨ clCrcOk bytes = false ∨ bytes.head? ≠ some (if (s.card pitch.val).rxPos = 0 then k285 else k281) ∨ leAt bytes 8 1 % 64 ≠ (s.card pitch.val).rxPos) →
      completes (.cardFrameReceived pitch bytes mark) s fun t =>
        t.fg (clPage pitch.val) CL_CNT_BAD_COUNT = min (s.fg (clPage pitch.val) CL_CNT_BAD_COUNT + 1) (2 ^ CL_CNT_BAD_COUNT.w - 1) ∧
        t.event (clPage pitch.val) EV_CL_FRAME_ERR = true ∧
        ((3 ≤ (s.card pitch.val).badRun ∨ mark = .unlock ∨ mark = .elastic) → t.clState pitch.val = 2 ∧ t.event (clPage pitch.val) EV_CL_LINK_DOWN = true ∧ t.fg (clPage pitch.val) CL_CNT_LINK_LOSS = min (s.fg (clPage pitch.val) CL_CNT_LINK_LOSS + 1) (2 ^ CL_CNT_LINK_LOSS.w - 1)) ∧
        (((s.card pitch.val).badRun < 3 ∧ mark ≠ .unlock ∧ mark ≠ .elastic) → t.clState pitch.val = 5 ∧ (t.card pitch.val).badRun = (s.card pitch.val).badRun + 1) ∧
        (∀ c < 8, (t.chan pitch.val c).lvl = none)) ∧
    (∀ (s : State) (pitch : Pitch),
      s.clState pitch.val = 5 →
      completes (.cardLosPersist pitch) s fun t =>
        t.clState pitch.val = 2 ∧
        t.fg (clPage pitch.val) CL_LSTAT_LOS = 1 ∧
        t.event (clPage pitch.val) EV_CL_LINK_DOWN = true ∧
        t.fg (clPage pitch.val) CL_CNT_LINK_LOSS = min (s.fg (clPage pitch.val) CL_CNT_LINK_LOSS + 1) (2 ^ CL_CNT_LINK_LOSS.w - 1)) ∧
    (∀ (s : State) (pitch : Pitch),
      4 ≤ s.clState pitch.val →
      completes (.cardFrameSend pitch) s fun t =>
        (t.card pitch.val).txPos = ((s.card pitch.val).txPos + 1) % 64 ∧
        (t.card pitch.val).tx.head? = some (if (s.card pitch.val).txPos = 0 then k285 else k281) ∧
        (t.card pitch.val).tx.length = 10 ∧
        clCrcOk (t.card pitch.val).tx = true ∧
        t.fg (clPage pitch.val) CL_STATUS_TX_OUT_VALID = bit (decide (s.clState pitch.val = 5) && s.running (ecPage pitch.val)) ∧
        onlyRegs [(clPage pitch.val, CL_STATUS)] s t) ∧
    (∀ (s : State) (pitch : Pitch),
      s.clState pitch.val = 2 →
      completes (.cardFrameSend pitch) s fun t =>
        (t.card pitch.val).fcnt = ((s.card pitch.val).fcnt + 1) % 256 ∧
        (t.card pitch.val).tx.length = 10 ∧
        clCrcOk (t.card pitch.val).tx = true ∧
        leAt (t.card pitch.val).tx 3 1 = (s.card pitch.val).fcnt % 256 ∧
        t.regs = s.regs) ∧
    (∀ (s : State) (pitch : Pitch) (live : Nat),
      s.clState pitch.val = 5 →
      (clPage pitch.val ∉ s.stopping ∧ ecPage pitch.val ∉ s.stopping) →
      (s.commitPending (clPage pitch.val) = false ∧ s.commitPending (ecPage pitch.val) = false) →
      s.tw.swap = none →
      s.tw.newSwap = false →
      (s.card pitch.val).rlSn = none →
      completes (.superframeBoundary pitch live) s fun t =>
        t.fg (clPage pitch.val) CL_LOOP_LIVE = live % 2 ^ CL_LOOP_LIVE.w ∧
        (t.card pitch.val).sf = (s.card pitch.val).sf + 1 ∧
        t.clState pitch.val = 5 ∧
        (t.card pitch.val).outSeq = ((s.card pitch.val).outSeq + 1) % 256) ∧
    (∀ (s : State) (pitch : Pitch) (k : Nat),
      (s.card pitch.val).safeAge = some k →
      16 ≤ k →
      (s.card pitch.val).statSeen = true →
      (s.fg (clPage pitch.val) CL_CARD_STAT_LLT ≠ s.fg (clPage pitch.val) CL_SAFE_LLT ∨ s.fg (clPage pitch.val) CL_CARD_STAT_SAFE_LEVEL ≠ s.fg (clPage pitch.val) CL_SAFE_SAFE_LEVEL ∨ s.fg (clPage pitch.val) CL_CARD_STAT_SAFE_EN ≠ s.fg (clPage pitch.val) CL_SAFE_SAFE_EN) →
      completes (.safeMismatch pitch) s fun t =>
        t.event (clPage pitch.val) EV_CL_SAFE_MISMATCH = true ∧
        (t.card pitch.val).safeAge = none ∧
        onlyRegs [(clPage pitch.val, EVT_STATUS)] s t) ∧
    (∀ (s : State) (pitch : Pitch),
      (((s.card pitch.val).safeAge.all fun k => k < 16) = true ∨ (s.card pitch.val).statSeen = false) →
      completes (.safeMismatch pitch) s fun t =>
        t = s)

/-! ### Channel engines (chapters 9 to 12) -/

/-- ENGINE_FRAME_REPORT: the channel's oldest report is taken and the level it ended with kept. While the engine does not run nothing else
happens, but a microcode parity error is a fault with the engine's position, or with the spare's while it follows the channel; the spare is
then unusable. ASYNC: an edge away from mark starts a character where the receiver is idle. SYNC: a report that holds the instant of the
next bit of the transfer gives that bit. DISC without debounce: an edge to another level is accepted at once; with both kinds of change
selected it counts in EN_DI_COUNT. PBUS: the 11th recessive bit in a row judged in INTEGRATING with both counters below 128 makes the engine
error-active. A dominant bit in a receiver's end of frame before its last bit is a form error: LEC 2, EN_CNT0 and RX_ERR, and a flag begins.
ENGINE_GAP: the oldest marker is taken, or while the link is not in ACTIVE the interval in progress; ASYNC gives up a character in progress
and waits for mark, SYNC ends a transfer with a bit in the gap, DISC gives up the debounce, PBUS integrates again. -/
def Obligations.EngineTakesReportsAndGaps : Prop :=
    (∀ (s : State) (pitch : Pitch) (chan : Channel) (parity : EngParity) (r : Rep) (rest : List Rep),
      ((s.chan pitch.val chan.val).reps = r :: rest) →
      r.gap = false →
      s.tw.eng.getD (8 * pitch.val + chan.val) [] = [] →
      completes (.engineFrameReport pitch chan parity) s fun t =>
        (t.chan pitch.val chan.val).reps = rest ∧
        (t.chan pitch.val chan.val).prev = some r.level ∧
        (s.enRuns (s.enOf pitch.val chan.val) = false → t = (fun u : State => u.setChan pitch.val chan.val { s.chan pitch.val chan.val with reps := rest, prev := some r.level })
      (match parity with
      | .ok => s
      | .engine => (if s.engPos pitch.val chan.val = 8 then s.fs (ecPage pitch.val) EC_MIG_STATUS_SPARE_OK 0 else s).fault (0xCF + 2 * pitch.val) (s.engPos pitch.val chan.val)
      | .spare => if s.followed pitch.val = some chan.val then (s.fs (ecPage pitch.val) EC_MIG_STATUS_SPARE_OK 0).fault (0xCF + 2 * pitch.val) 8 else s))) ∧
    (∀ (s : State) (pitch : Pitch) (chan : Channel) (parity : EngParity),
      (∀ r ∈ (s.chan pitch.val chan.val).reps.head?, r.gap = true) →
      completes (.engineFrameReport pitch chan parity) s fun t =>
        t = s) ∧
    (∀ (s : State) (pitch : Pitch) (chan : Channel) (r : Rep) (rest : List Rep),
      ((s.chan pitch.val chan.val).reps = r :: rest) →
      (r.gap = false ∧ r.edge = true ∧ r.glitch = false) →
      s.enMode (s.enOf pitch.val chan.val) = 1 →
      s.enRuns (s.enOf pitch.val chan.val) = true →
      r.level = !s.mark (s.enOf pitch.val chan.val) →
      ((s.chan pitch.val chan.val).rx = none ∧ (s.chan pitch.val chan.val).brk = false ∧ (s.chan pitch.val chan.val).wait = none) →
      (∀ u ∈ (s.chan pitch.val chan.val).stopAt, u < r.base + (r.fine : Int) * 160 + 80) →
      ((s.chan pitch.val chan.val).deafAt r.base = false ∧ (s.chan pitch.val chan.val).deafAt (r.base + (r.fine : Int) * 160 + 80) = false) →
      s.tw.eng.getD (8 * pitch.val + chan.val) [] = [] →
      completes (.engineFrameReport pitch chan .ok) s fun t =>
        (t.chan pitch.val chan.val).rx = some { start := r.base + (r.fine : Int) * 160 + 80 } ∧
        t.regs = s.regs) ∧
    (∀ (s : State) (pitch : Pitch) (chan : Channel) (r : Rep) (rest : List Rep) (y : Xfer) (u : Int),
      ((s.chan pitch.val chan.val).reps = r :: rest) →
      r.gap = false →
      s.enMode (s.enOf pitch.val chan.val) = 3 →
      s.enRuns (s.enOf pitch.val chan.val) = true →
      (s.chan pitch.val chan.val).xfer = some y →
      y.i < s.fg (s.enOf pitch.val chan.val) SY_CFG_WIDTH →
      u = s.syEdge (s.enOf pitch.val chan.val) y.t0 y.i + 160 * (s.fg (s.enOf pitch.val chan.val) SY_DLY_SAMPLE_DLY : Int) →
      u < r.base + 2560 →
      s.tw.eng.getD (8 * pitch.val + chan.val) [] = [] →
      completes (.engineFrameReport pitch chan .ok) s fun t =>
        (t.chan pitch.val chan.val).xfer = some { y with i := y.i + 1, bits := 2 * y.bits + bit (r.at ((s.chan pitch.val chan.val).prev.getD (if r.edge then !r.level else r.level)) u).1 } ∧
        t.regs = s.regs) ∧
    (∀ (s : State) (pitch : Pitch) (chan : Channel) (r : Rep) (rest : List Rep) (l : Bool),
      ((s.chan pitch.val chan.val).reps = r :: rest) →
      (r.gap = false ∧ r.edge = true ∧ r.glitch = false) →
      s.enMode (s.enOf pitch.val chan.val) = 4 →
      s.enRuns (s.enOf pitch.val chan.val) = true →
      (s.chan pitch.val chan.val).prev ≠ none →
      (s.chan pitch.val chan.val).acc = some l →
      (s.chan pitch.val chan.val).deb = none →
      l = (r.level == s.fb (s.enOf pitch.val chan.val) DI_CFG_INV) →
      s.fg (s.enOf pitch.val chan.val) DI_CFG_DEB = 0 →
      s.fg (s.enOf pitch.val chan.val) DI_CFG_EDGE_SEL = 3 →
      s.tw.eng.getD (8 * pitch.val + chan.val) [] = [] →
      completes (.engineFrameReport pitch chan .ok) s fun t =>
        (t.chan pitch.val chan.val).acc = some !l ∧
        t.rd (s.enOf pitch.val chan.val) EN_DI_COUNT = s.rd (s.enOf pitch.val chan.val) EN_DI_COUNT + 1) ∧
    (∀ (s : State) (pitch : Pitch) (chan : Channel) (r : Rep) (rest : List Rep) (x : Int),
      ((s.chan pitch.val chan.val).reps = r :: rest) →
      (r.gap = false ∧ r.edge = false ∧ r.glitch = false) →
      r.level = !s.fb (s.enOf pitch.val chan.val) PB_CFG_INV →
      s.enMode (s.enOf pitch.val chan.val) = 2 →
      s.enRuns (s.enOf pitch.val chan.val) = true →
      s.fg (s.enOf pitch.val chan.val) PB_ERR_STATE = 1 →
      (s.fg (s.enOf pitch.val chan.val) PB_ERR_TEC < 128 ∧ s.fg (s.enOf pitch.val chan.val) PB_ERR_REC < 128) →
      (s.chan pitch.val chan.val).flush = false →
      ((s.chan pitch.val chan.val).pb.ph = .integrate ∧ (s.chan pitch.val chan.val).pb.k = 10 ∧ (s.chan pitch.val chan.val).pb.fast = false ∧ (s.chan pitch.val chan.val).pb.start = none ∧ (s.chan pitch.val chan.val).pb.ssp = []) →
      (s.chan pitch.val chan.val).pb.x = some x →
      (x < r.base + 2560 ∧ r.base + 2560 ≤ x + s.pbT (s.enOf pitch.val chan.val) false) →
      s.tw.eng.getD (8 * pitch.val + chan.val) [] = [] →
      completes (.engineFrameReport pitch chan .ok) s fun t =>
        t.fg (s.enOf pitch.val chan.val) PB_ERR_STATE = 2 ∧
        (t.chan pitch.val chan.val).pb.ph = .idle ∧
        onlyRegs [(s.enOf pitch.val chan.val, PB_ERR)] s t) ∧
    (∀ (s : State) (pitch : Pitch) (chan : Channel) (r : Rep) (rest : List Rep) (x : Int),
      ((s.chan pitch.val chan.val).reps = r :: rest) →
      (r.gap = false ∧ r.edge = false ∧ r.glitch = false) →
      r.level = s.fb (s.enOf pitch.val chan.val) PB_CFG_INV →
      s.enMode (s.enOf pitch.val chan.val) = 2 →
      s.enRuns (s.enOf pitch.val chan.val) = true →
      (s.fg (s.enOf pitch.val chan.val) PB_ERR_STATE = 2 ∨ s.fg (s.enOf pitch.val chan.val) PB_ERR_STATE = 3) →
      s.fb (s.enOf pitch.val chan.val) PB_CFG_RESTRICTED = false →
      ((s.chan pitch.val chan.val).pb.ph = .eof ∧ (s.chan pitch.val chan.val).pb.k < 6 ∧ (s.chan pitch.val chan.val).pb.tx = false ∧ (s.chan pitch.val chan.val).pb.fast = false ∧ (s.chan pitch.val chan.val).pb.start = none ∧ (s.chan pitch.val chan.val).pb.ssp = []) →
      (s.chan pitch.val chan.val).pb.x = some x →
      (x < r.base + 2560 ∧ r.base + 2560 ≤ x + s.pbT (s.enOf pitch.val chan.val) false) →
      s.tw.eng.getD (8 * pitch.val + chan.val) [] = [] →
      completes (.engineFrameReport pitch chan .ok) s fun t =>
        t.fg (s.enOf pitch.val chan.val) PB_ERR_LEC = 2 ∧
        (t.chan pitch.val chan.val).pb.ph = .flag ∧
        (t.fg (s.enOf pitch.val chan.val) PB_ERR_TEC = s.fg (s.enOf pitch.val chan.val) PB_ERR_TEC ∧ t.fg (s.enOf pitch.val chan.val) PB_ERR_REC = min (s.fg (s.enOf pitch.val chan.val) PB_ERR_REC + 1) 255) ∧
        t.fg (s.enOf pitch.val chan.val) EN_CNT_COUNT = min (s.fg (s.enOf pitch.val chan.val) EN_CNT_COUNT + 1) (2 ^ EN_CNT_COUNT.w - 1) ∧
        t.event (s.enOf pitch.val chan.val) EV_EN_RX_ERR = true) ∧
    (∀ (s : State) (pitch : Pitch) (chan : Channel) (base : Int) (y : Xfer),
      ((match (s.chan pitch.val chan.val).reps with
      | q :: _ => if q.gap then some q.base else none
      | [] => if s.clState pitch.val ≠ 5 then some (s.now + s.delayU pitch.val - 2560) else none) = some base) →
      s.enRuns (s.enOf pitch.val chan.val) = true →
      s.tw.eng.getD (8 * pitch.val + chan.val) [] = [] →
      completes (.engineGap pitch chan) s fun t =>
        ((t.chan pitch.val chan.val).reps = (s.chan pitch.val chan.val).reps.tail ∧ (t.chan pitch.val chan.val).prev = none) ∧
        (s.enMode (s.enOf pitch.val chan.val) = 1 → (t.chan pitch.val chan.val).rx = none ∧ ((s.chan pitch.val chan.val).rx ≠ none ∨ (s.chan pitch.val chan.val).wait ≠ none → (t.chan pitch.val chan.val).wait = some (base + 2560))) ∧
        (s.enMode (s.enOf pitch.val chan.val) = 1 → (s.chan pitch.val chan.val).rx ≠ none → t.fg (s.enOf pitch.val chan.val) (EN_CNT_COUNT.at 8) = min (s.fg (s.enOf pitch.val chan.val) (EN_CNT_COUNT.at 8) + 1) (2 ^ EN_CNT_COUNT.w - 1) ∧ (t.chan pitch.val chan.val).buf = none) ∧
        ((s.enMode (s.enOf pitch.val chan.val) = 3 ∧ (s.chan pitch.val chan.val).xfer = some y ∧ y.i < s.fg (s.enOf pitch.val chan.val) SY_CFG_WIDTH ∧
      base ≤ s.syEdge (s.enOf pitch.val chan.val) y.t0 y.i + 160 * (s.fg (s.enOf pitch.val chan.val) SY_DLY_SAMPLE_DLY : Int) ∧
      s.syEdge (s.enOf pitch.val chan.val) y.t0 y.i + 160 * (s.fg (s.enOf pitch.val chan.val) SY_DLY_SAMPLE_DLY : Int) < base + 2560) →
      (t.chan pitch.val chan.val).xfer = none ∧ t.fg (s.enOf pitch.val chan.val) SY_LAST_OK = 0) ∧
        (s.enMode (s.enOf pitch.val chan.val) = 4 → (t.chan pitch.val chan.val).deb = none ∧ (t.chan pitch.val chan.val).rise = none) ∧
        ((s.enMode (s.enOf pitch.val chan.val) = 2 ∧ (s.fg (s.enOf pitch.val chan.val) PB_ERR_STATE = 2 ∨ s.fg (s.enOf pitch.val chan.val) PB_ERR_STATE = 3)) → t.fg (s.enOf pitch.val chan.val) PB_ERR_STATE = 1)) ∧
    (∀ (s : State) (pitch : Pitch) (chan : Channel),
      (∀ q ∈ (s.chan pitch.val chan.val).reps.head?, q.gap = false) →
      ((s.chan pitch.val chan.val).reps = [] → s.clState pitch.val = 5) →
      completes (.engineGap pitch chan) s fun t =>
        t = s)

/-- RECORD_FLUSH_TIMEOUT with an open record, but in ASYNC: it closes; a hub that holds its records keeps it, another drops it with REC_LOST
where RX_EN is 0, and else sends it as one frame from the cluster's port. In ASYNC nothing changes. TX_RECORD_RECEIVED: the oldest frame
that the cluster's port has received, where it is no routed message, is taken. A transmit record of class B and MTYPE 0x10 for channel 0 to
7, of the items that the mode knows, which fits the channel's 1024 bytes and has no other bytes, joins its FIFO; any other is discarded and
counted with TX_DROP. EN_MODE_WRITE of a stopped engine with another mode: MODE changes, the mode registers take that mode's reset values,
the counters are 0; of a running one: LOCKED_WRITE and nothing changes. EC_MIG_CMD and EC_MIG_URGENT with GO: where the spare is free and
usable, no migration runs, the cluster runs and the channel is not the second of a pair, the spare takes the channel's registers and
MIG_STATUS shows it; else REFUSED with its event. Without GO nothing happens. MIGRATION_SWITCH with the spare following a channel and
usable, at once where urgent, else at the channel's boundary: the channel's place in EC_MAP is 8, and that of a SYNC pair's second channel
too; FROM names the source, the counts, MIG_DONE and the SPARED marks follow. Otherwise nothing changes. MIGRATION_TIMEOUT of a running one:
TIMEOUT, and the channel keeps its engine; with none running nothing changes. UCODE_LOAD_DONE of a cluster whose microcode is being loaded:
the active slot's set, if its digest and signature are right, is in the store with its version in EC_UCODE; else EC_UCODE is 0 with
UCODE_BAD. -/
def Obligations.EngineRecordsModesAndMigration : Prop :=
    (∀ (s : State) (pitch : Pitch) (chan : Channel) (b : RecBuf),
      (s.chan pitch.val chan.val).buf = some b →
      s.enMode (s.enOf pitch.val chan.val) ≠ 1 →
      completes (.recordFlushTimeout pitch chan) s fun t =>
        (t.chan pitch.val chan.val).buf = none ∧
        (s.holdsRecords = true → s.fb (s.enOf pitch.val chan.val) EN_RXDST_RX_EN = true → (t.chan pitch.val chan.val).recs = (s.chan pitch.val chan.val).recs ++ [b] ∧ t.regs = s.regs) ∧
        (s.holdsRecords = true → s.fb (s.enOf pitch.val chan.val) EN_RXDST_RX_EN = false → (t.chan pitch.val chan.val).recs = (s.chan pitch.val chan.val).recs ∧ t.regs = s.regs) ∧
        (s.holdsRecords = false → s.fb (s.enOf pitch.val chan.val) EN_RXDST_RX_EN = false → t.event (s.enOf pitch.val chan.val) EV_EN_REC_LOST = true) ∧
        (s.holdsRecords = false → s.fb (s.enOf pitch.val chan.val) EN_RXDST_RX_EN = true → t = (s.setChan pitch.val chan.val { s.chan pitch.val chan.val with buf := none }).recSend pitch.val chan.val b)) ∧
    (∀ (s : State) (pitch : Pitch) (chan : Channel),
      ((s.chan pitch.val chan.val).buf = none ∨ s.enMode (s.enOf pitch.val chan.val) = 1) →
      completes (.recordFlushTimeout pitch chan) s fun t =>
        t = s) ∧
    (∀ (s : State) (pitch : Pitch) (f : Frame) (rest : List Frame) (items : List (List Byte)),
      (s.core.inbox.getD (portCluster pitch.val) [] = f :: rest) →
      f.routed = false →
      ((txItems (s.enMode (s.enOf pitch.val (leAt f.payload 0 1 % 8))) f.payload).filter (fun items => f.hdr.cls = .B ∧ f.hdr.mtype = 0x10 ∧
      leAt f.payload 0 1 < 8 ∧ (s.chan pitch.val (leAt f.payload 0 1 % 8)).used + (items.map List.length).sum ≤ 1024 ∧
      f.payload.length = 12 + ((items.map List.length).sum + 3) / 4 * 4) = some items) →
      completes (.txRecordReceived pitch) s fun t =>
        t.core.inbox.getD (portCluster pitch.val) [] = rest ∧
        (t.chan pitch.val (leAt f.payload 0 1 % 8)).fifo = (s.chan pitch.val (leAt f.payload 0 1 % 8)).fifo ++ items.map (fun i => (if s.enMode (s.enOf pitch.val (leAt f.payload 0 1 % 8)) = 4 then s.schedAt i else 0, i)) ∧
        t.regs = s.regs) ∧
    (∀ (s : State) (pitch : Pitch) (f : Frame) (rest : List Frame),
      (s.core.inbox.getD (portCluster pitch.val) [] = f :: rest) →
      f.routed = false →
      ((txItems (s.enMode (s.enOf pitch.val (leAt f.payload 0 1 % 8))) f.payload).filter (fun items => f.hdr.cls = .B ∧ f.hdr.mtype = 0x10 ∧
      leAt f.payload 0 1 < 8 ∧ (s.chan pitch.val (leAt f.payload 0 1 % 8)).used + (items.map List.length).sum ≤ 1024 ∧
      f.payload.length = 12 + ((items.map List.length).sum + 3) / 4 * 4) = none) →
      completes (.txRecordReceived pitch) s fun t =>
        t.core.inbox.getD (portCluster pitch.val) [] = rest ∧
        t.fg (ecPage pitch.val) EC_CNT_TXDROP_COUNT = min (s.fg (ecPage pitch.val) EC_CNT_TXDROP_COUNT + 1) (2 ^ EC_CNT_TXDROP_COUNT.w - 1) ∧
        t.event (ecPage pitch.val) EV_EC_TX_DROP = true ∧
        t.chans = s.chans) ∧
    (∀ (s : State) (pitch : Pitch),
      (∀ f ∈ (s.core.inbox.getD (portCluster pitch.val) []).head?, f.routed = true) →
      completes (.txRecordReceived pitch) s fun t =>
        t = s) ∧
    (∀ (s : State) (who : Initiator) (engine : Engine) (v : Word),
      s.accepts who (s.enReg engine) EN_MODE = true →
      (s.running (s.enReg engine) = false ∨ who = .preload) →
      EN_MODE_MODE.get v ≤ 4 →
      EN_MODE_MODE.get v ≠ s.enMode (s.enReg engine) →
      completes (.enModeWrite who engine v) s fun t =>
        t.fg (s.enReg engine) EN_MODE_MODE = EN_MODE_MODE.get v ∧
        (∀ i < 4, t.rd (s.enReg engine) (EN_CNT + 4 * i) = 0) ∧
        t.ansOf who = ⟨rspOk, 0, none⟩) ∧
    (∀ (s : State) (who : Initiator) (engine : Engine) (v : Word),
      s.accepts who (s.enReg engine) EN_MODE = true →
      s.running (s.enReg engine) = true →
      who ≠ .preload →
      EN_MODE_CLR_CNT.get v = 0 →
      completes (.enModeWrite who engine v) s fun t =>
        t.event (s.enReg engine) EV_LOCKED_WRITE = true ∧
        onlyRegs [(s.enReg engine, EVT_STATUS), (0x01C, EVT_STATUS)] s t ∧
        t.ansOf who = ⟨rspOk, 0, none⟩) ∧
    (∀ (s : State) (who : Initiator) (cluster : Pitch) (v : Word),
      s.accepts who (ecPage cluster.val) EC_MIG_CMD = true →
      EC_MIG_CMD_GO.get v = 1 →
      s.fb (ecPage cluster.val) EC_MIG_STATUS_SPARE_USED = false →
      s.fb (ecPage cluster.val) EC_MIG_STATUS_SPARE_OK = true →
      s.followed cluster.val = none →
      s.running (ecPage cluster.val) = true →
      s.secondOfPair cluster.val (EC_MIG_CMD_CHAN.get v) = false →
      s.canonical = true →
      completes (.ecMigCmd who cluster v) s fun t =>
        t.fg (ecPage cluster.val) EC_MIG_STATUS_STATE = 1 ∧
        t.fg (ecPage cluster.val) EC_MIG_STATUS_CHAN = EC_MIG_CMD_CHAN.get v ∧
        (t.chan cluster.val (EC_MIG_CMD_CHAN.get v)).mig = some (decide (EC_MIG_CMD_URGENT.get v = 1), 0) ∧
        (∀ off, off < 4096 → off ≠ 0 → off ≠ EN_STATUS → t.rd (enPage cluster.val 8) off = s.rd (s.enOf cluster.val (EC_MIG_CMD_CHAN.get v)) off)) ∧
    (∀ (s : State) (who : Initiator) (cluster : Pitch) (v : Word),
      s.accepts who (ecPage cluster.val) EC_MIG_CMD = true →
      EC_MIG_CMD_GO.get v = 1 →
      s.fb (ecPage cluster.val) EC_MIG_STATUS_SPARE_USED = false →
      s.fb (ecPage cluster.val) EC_MIG_STATUS_SPARE_OK = true →
      s.followed cluster.val = none →
      s.running (ecPage cluster.val) = true →
      s.secondOfPair cluster.val (EC_MIG_CMD_CHAN.get v) = false →
      s.canonical = true →
      completes (.ecMigUrgent who cluster v) s fun t =>
        t.fg (ecPage cluster.val) EC_MIG_STATUS_STATE = 1 ∧
        t.fg (ecPage cluster.val) EC_MIG_STATUS_CHAN = EC_MIG_CMD_CHAN.get v ∧
        (t.chan cluster.val (EC_MIG_CMD_CHAN.get v)).mig = some (true, 0) ∧
        (∀ off, off < 4096 → off ≠ 0 → off ≠ EN_STATUS → t.rd (enPage cluster.val 8) off = s.rd (s.enOf cluster.val (EC_MIG_CMD_CHAN.get v)) off)) ∧
    (∀ (s : State) (who : Initiator) (cluster : Pitch) (v : Word),
      s.accepts who (ecPage cluster.val) EC_MIG_CMD = true →
      EC_MIG_CMD_GO.get v = 1 →
      (s.fb (ecPage cluster.val) EC_MIG_STATUS_SPARE_USED = true ∨ s.fb (ecPage cluster.val) EC_MIG_STATUS_SPARE_OK = false ∨ s.followed cluster.val ≠ none ∨ s.running (ecPage cluster.val) = false ∨ s.secondOfPair cluster.val (EC_MIG_CMD_CHAN.get v) = true) →
      completes (.ecMigCmd who cluster v) s fun t =>
        t.fg (ecPage cluster.val) EC_MIG_STATUS_STATE = 3 ∧
        t.fg (ecPage cluster.val) EC_MIG_STATUS_CHAN = EC_MIG_CMD_CHAN.get v ∧
        t.event (ecPage cluster.val) EV_EC_MIG_REFUSED = true ∧
        t.chans = s.chans ∧
        onlyRegs [(ecPage cluster.val, EC_MIG_STATUS), (ecPage cluster.val, EVT_STATUS), (0x01C, EVT_STATUS)] s t) ∧
    (∀ (s : State) (who : Initiator) (cluster : Pitch) (v : Word),
      s.accepts who (ecPage cluster.val) EC_MIG_CMD = true →
      EC_MIG_CMD_GO.get v = 1 →
      (s.fb (ecPage cluster.val) EC_MIG_STATUS_SPARE_USED = true ∨ s.fb (ecPage cluster.val) EC_MIG_STATUS_SPARE_OK = false ∨ s.followed cluster.val ≠ none ∨ s.running (ecPage cluster.val) = false ∨ s.secondOfPair cluster.val (EC_MIG_CMD_CHAN.get v) = true) →
      completes (.ecMigUrgent who cluster v) s fun t =>
        t.fg (ecPage cluster.val) EC_MIG_STATUS_STATE = 3 ∧
        t.fg (ecPage cluster.val) EC_MIG_STATUS_CHAN = EC_MIG_CMD_CHAN.get v ∧
        t.event (ecPage cluster.val) EV_EC_MIG_REFUSED = true ∧
        t.chans = s.chans ∧
        onlyRegs [(ecPage cluster.val, EC_MIG_STATUS), (ecPage cluster.val, EVT_STATUS), (0x01C, EVT_STATUS)] s t) ∧
    (∀ (s : State) (who : Initiator) (cluster : Pitch) (v : Word),
      s.accepts who (ecPage cluster.val) EC_MIG_CMD = true →
      EC_MIG_CMD_GO.get v = 0 →
      completes (.ecMigCmd who cluster v) s fun t =>
        (t.chans = s.chans ∧ t.ansOf who = ⟨rspOk, 0, none⟩) ∧
        onlyRegs [(0x01C, EVT_STATUS)] s t) ∧
    (∀ (s : State) (who : Initiator) (cluster : Pitch) (v : Word),
      s.accepts who (ecPage cluster.val) EC_MIG_CMD = true →
      EC_MIG_CMD_GO.get v = 0 →
      completes (.ecMigUrgent who cluster v) s fun t =>
        (t.chans = s.chans ∧ t.ansOf who = ⟨rspOk, 0, none⟩) ∧
        onlyRegs [(0x01C, EVT_STATUS)] s t) ∧
    (∀ (s : State) (cluster : Pitch) (c : Channel) (urgent : Bool) (cause : Nat),
      s.followed cluster.val = some c.val →
      (s.chan cluster.val c.val).mig = some (urgent, cause) →
      s.fb (ecPage cluster.val) EC_MIG_STATUS_SPARE_OK = true →
      (urgent = true ∨ s.atBoundary cluster.val c.val = true) →
      s.secondOfPair cluster.val c.val = false →
      s.mapPos cluster.val c.val < 8 →
      completes (.migrationSwitch cluster) s fun t =>
        t.mapPos cluster.val c.val = 8 ∧
        ((s.pairIdle (s.enOf cluster.val c.val)).isSome = true → t.mapPos cluster.val (c.val + 1) = 8) ∧
        t.fg (ecPage cluster.val) EC_MIG_STATUS_STATE = 2 ∧
        t.fg (ecPage cluster.val) EC_MIG_STATUS_FROM = s.mapPos cluster.val c.val ∧
        t.fg (ecPage cluster.val) EC_MIG_STATUS_SPARE_USED = 1 ∧
        t.fg (ecPage cluster.val) EC_CNT_MIG_DONE = min (s.fg (ecPage cluster.val) EC_CNT_MIG_DONE + 1) (2 ^ EC_CNT_MIG_DONE.w - 1) ∧
        t.event (ecPage cluster.val) EV_EC_MIG_DONE = true ∧
        (t.fg (enPage cluster.val 8) PAGE_STATE_SPARED = 1 ∧ t.fg (enPage cluster.val (s.mapPos cluster.val c.val)) PAGE_STATE_SPARED = 1)) ∧
    (∀ (s : State) (cluster : Pitch),
      (∀ c ∈ s.followed cluster.val, ∀ m ∈ (s.chan cluster.val c).mig, s.fb (ecPage cluster.val) EC_MIG_STATUS_SPARE_OK = false ∨ (m.1 = false ∧ s.atBoundary cluster.val c = false)) →
      completes (.migrationSwitch cluster) s fun t =>
        t = s) ∧
    (∀ (s : State) (cluster : Pitch) (c : Nat),
      s.followed cluster.val = some c →
      completes (.migrationTimeout cluster) s fun t =>
        t.fg (ecPage cluster.val) EC_MIG_STATUS_STATE = 4 ∧
        t.event (ecPage cluster.val) EV_EC_MIG_TIMEOUT = true ∧
        (t.chan cluster.val c).mig = none ∧
        t.mapPos cluster.val c = s.mapPos cluster.val c ∧
        onlyRegs [(ecPage cluster.val, EC_MIG_STATUS), (ecPage cluster.val, EVT_STATUS)] s t) ∧
    (∀ (s : State) (cluster : Pitch),
      s.followed cluster.val = none →
      completes (.migrationTimeout cluster) s fun t =>
        t = s) ∧
    (∀ (s : State) (cluster : Pitch),
      s.gs.loading.contains cluster.val = true →
      completes (.ucodeLoadDone cluster) s fun t =>
        t.gs.loading.contains cluster.val = false ∧
        (match (s.compEntry s.up.active 2).filter (fun e => s.digestOk s.up.active e && s.sigOk s.up.active e) with | some e => t.rd (ecPage cluster.val) EC_UCODE = BitVec.ofNat 32 (65536 + e.version % 65536) ∧ t.ucode.getD cluster.val [] = (s.compBytes s.up.active e).take 16384 | none => t.rd (ecPage cluster.val) EC_UCODE = 0 ∧ t.event (ecPage cluster.val) EV_EC_UCODE_BAD = true)) ∧
    (∀ (s : State) (cluster : Pitch),
      s.gs.loading.contains cluster.val = false →
      completes (.ucodeLoadDone cluster) s fun t =>
        t = s)

/-- ASYNC_IDLE_GAP with no character in progress: the open record closes with END, held, sent, or dropped where RX_EN is 0, and what follows is
not kept; otherwise nothing changes. ASYNC_TX_START: the head of the FIFO is placed from the earliest instant at which the output can be
placed, or from the end of the character before where that is later; in half duplex with the driver off, TXEN rises there and the character
follows DE_LEAD later. While the engine does not run, or a commit, a stop or a migration waits, nothing starts. ASYNC_DE_LAG_EXPIRE with the
driver enabled and nothing to send: TXEN falls DE_LAG after the last stop bit, or as soon as it can be placed; otherwise nothing changes.
SY_CMD_GO with TRIG 0, and SYNC_TRIGGER with another TRIG, start a transfer of a running engine where none runs and its spacing has passed:
the clock edges are placed, or nothing while a commit, a stop or a migration waits. Else EN_CNT2 counts. SYNC_TRANSFER_END with every bit
judged: SY_LAST holds the sample, its sign extended, with OK; EN_CNT0 counts and the sample is recorded where RX_EN is 1. Before that
nothing changes. DISC_DEBOUNCE_ACCEPT once the line has held the new level for DEB: it is accepted; else nothing changes. EN_DI_COUNT_TAKE
answers the count and clears it. DI_OUT_WRITE of a running engine in STATIC mode from the register: its level and enable are placed at the
earliest instant. In another case no output is placed. PWM_PERIOD_START of a running engine in PWM mode places the rise at the start of the
period and the fall HIGH later, where HIGH is between 0 and PERIOD; from the canopy, HIGH is PERIOD times the duty that applies, by 4096.
The next period starts PERIOD later. DISC_SCHED_ITEM of a running engine in SCHED mode: an item that comes too late, or whose instant passes
while the link is not in ACTIVE, is discarded with SCHED_LATE; one less than 16 ns after the last is discarded and counted; any other is
placed at its instant. -/
def Obligations.ModeCommands : Prop :=
    (∀ (s : State) (pitch : Pitch) (chan : Channel) (b : RecBuf),
      s.enMode (s.enOf pitch.val chan.val) = 1 →
      (s.chan pitch.val chan.val).rx = none →
      (s.chan pitch.val chan.val).buf = some b →
      completes (.asyncIdleGap pitch chan) s fun t =>
        ((t.chan pitch.val chan.val).buf = none ∧ (t.chan pitch.val chan.val).keep = false ∧ (t.chan pitch.val chan.val).cont = false) ∧
        (s.holdsRecords = false → s.fb (s.enOf pitch.val chan.val) EN_RXDST_RX_EN = true → t.ingress = (s.recSend pitch.val chan.val { b with flags := b.flags ||| 4 }).ingress) ∧
        (s.holdsRecords = false → s.fb (s.enOf pitch.val chan.val) EN_RXDST_RX_EN = false → t.event (s.enOf pitch.val chan.val) EV_EN_REC_LOST = true) ∧
        (s.holdsRecords = true → (t.chan pitch.val chan.val).recs = (s.chan pitch.val chan.val).recs ++ (if s.fb (s.enOf pitch.val chan.val) EN_RXDST_RX_EN then [{ b with flags := b.flags ||| 4 }] else []) ∧ t.regs = s.regs)) ∧
    (∀ (s : State) (pitch : Pitch) (chan : Channel),
      s.enMode (s.enOf pitch.val chan.val) = 1 →
      (s.chan pitch.val chan.val).rx = none →
      (s.chan pitch.val chan.val).buf = none →
      completes (.asyncIdleGap pitch chan) s fun t =>
        t = s.setChan pitch.val chan.val { s.chan pitch.val chan.val with keep := false, cont := false }) ∧
    (∀ (s : State) (pitch : Pitch) (chan : Channel),
      (s.enMode (s.enOf pitch.val chan.val) ≠ 1 ∨ (s.chan pitch.val chan.val).rx ≠ none) →
      completes (.asyncIdleGap pitch chan) s fun t =>
        t = s) ∧
    (∀ (s : State) (pitch : Pitch) (chan : Channel) (u : Int) (item : List Byte) (rest : List (Int × List Byte)) (f : Int),
      s.enMode (s.enOf pitch.val chan.val) = 1 →
      s.enRuns (s.enOf pitch.val chan.val) = true →
      s.txHeld pitch.val chan.val = false →
      ((s.chan pitch.val chan.val).fifo = (u, item) :: rest) →
      f = max (s.earliest pitch.val) ((s.chan pitch.val chan.val).txEnd.getD (s.earliest pitch.val)) →
      completes (.asyncTxStart pitch chan) s fun t =>
        (t.chan pitch.val chan.val).fifo = rest ∧
        (s.fb (s.enOf pitch.val chan.val) AS_CFG_DUPLEX = false ∨ (s.chan pitch.val chan.val).de = true → (t.chan pitch.val chan.val).due = (s.chan pitch.val chan.val).due ++ s.asEdges (s.enOf pitch.val chan.val) (leAt item 0 2 % 512) f ∧ (t.chan pitch.val chan.val).txEnd = some (f + s.asChar (s.enOf pitch.val chan.val))) ∧
        (s.fb (s.enOf pitch.val chan.val) AS_CFG_DUPLEX = true → (s.chan pitch.val chan.val).de = false → (t.chan pitch.val chan.val).due = (s.chan pitch.val chan.val).due ++ [⟨f, s.mark (s.enOf pitch.val chan.val), true⟩] ++ s.asEdges (s.enOf pitch.val chan.val) (leAt item 0 2 % 512) (f + 160 * (s.fg (s.enOf pitch.val chan.val) AS_DE_DE_LEAD : Int)) ∧ (t.chan pitch.val chan.val).de = true ∧ (t.chan pitch.val chan.val).txEnd = some (f + 160 * (s.fg (s.enOf pitch.val chan.val) AS_DE_DE_LEAD : Int) + s.asChar (s.enOf pitch.val chan.val))) ∧
        onlyRegs [(s.enOf pitch.val chan.val, EVT_STATUS)] s t) ∧
    (∀ (s : State) (pitch : Pitch) (chan : Channel),
      (s.enMode (s.enOf pitch.val chan.val) ≠ 1 ∨ s.enRuns (s.enOf pitch.val chan.val) = false ∨ s.txHeld pitch.val chan.val = true ∨ (s.chan pitch.val chan.val).fifo = []) →
      completes (.asyncTxStart pitch chan) s fun t =>
        t = s) ∧
    (∀ (s : State) (pitch : Pitch) (chan : Channel),
      s.enMode (s.enOf pitch.val chan.val) = 1 →
      (s.chan pitch.val chan.val).de = true →
      (s.chan pitch.val chan.val).fifo = [] →
      completes (.asyncDeLagExpire pitch chan) s fun t =>
        (t.chan pitch.val chan.val).de = false ∧
        (t.chan pitch.val chan.val).due = (s.chan pitch.val chan.val).due ++ [⟨max (s.earliest pitch.val) ((s.chan pitch.val chan.val).txEnd.getD (s.earliest pitch.val) + 160 * (s.fg (s.enOf pitch.val chan.val) AS_DE_DE_LAG : Int)), s.mark (s.enOf pitch.val chan.val), false⟩] ∧
        t.regs = s.regs) ∧
    (∀ (s : State) (pitch : Pitch) (chan : Channel),
      (s.enMode (s.enOf pitch.val chan.val) ≠ 1 ∨ (s.chan pitch.val chan.val).de = false ∨ (s.chan pitch.val chan.val).fifo ≠ []) →
      completes (.asyncDeLagExpire pitch chan) s fun t =>
        t = s) ∧
    (∀ (s : State) (who : Initiator) (engine : Engine) (c : Nat),
      s.accepts who (s.enReg engine) SY_CMD = true →
      s.enMode (s.enReg engine) = 3 →
      s.servedBy (enCluster (s.enReg engine)) (enPos (s.enReg engine)) = some c →
      s.fg (s.enReg engine) SY_CFG_TRIG = 0 →
      s.enRuns (s.enReg engine) = true →
      s.enOf (enCluster (s.enReg engine)) c = s.enReg engine →
      completes (.syCmdGo who engine) s fun t =>
        ((s.chan (enCluster (s.enReg engine)) c).xfer = none → (s.chan (enCluster (s.enReg engine)) c).nextOk ≤ s.syFirst (enCluster (s.enReg engine)) (s.enReg engine) → s.txHeld (enCluster (s.enReg engine)) c = false → (t.chan (enCluster (s.enReg engine)) c).xfer = some { t0 := s.syFirst (enCluster (s.enReg engine)) (s.enReg engine) } ∧ (t.chan (enCluster (s.enReg engine)) c).due = (s.chan (enCluster (s.enReg engine)) c).due ++ s.syClock (s.enReg engine) (s.syFirst (enCluster (s.enReg engine)) (s.enReg engine))) ∧
        ((s.chan (enCluster (s.enReg engine)) c).xfer = none → (s.chan (enCluster (s.enReg engine)) c).nextOk ≤ s.syFirst (enCluster (s.enReg engine)) (s.enReg engine) → s.txHeld (enCluster (s.enReg engine)) c = true → t.chans = s.chans) ∧
        ((s.chan (enCluster (s.enReg engine)) c).xfer ≠ none ∨ s.syFirst (enCluster (s.enReg engine)) (s.enReg engine) < (s.chan (enCluster (s.enReg engine)) c).nextOk → t.chans = s.chans ∧ t.fg (s.enReg engine) (EN_CNT_COUNT.at 8) = min (s.fg (s.enReg engine) (EN_CNT_COUNT.at 8) + 1) (2 ^ EN_CNT_COUNT.w - 1)) ∧
        t.ansOf who = ⟨rspOk, 0, none⟩) ∧
    (∀ (s : State) (who : Initiator) (engine : Engine),
      s.accepts who (s.enReg engine) SY_CMD = true →
      (s.enMode (s.enReg engine) ≠ 3 ∨ s.fg (s.enReg engine) SY_CFG_TRIG ≠ 0 ∨ s.enRuns (s.enReg engine) = false) →
      completes (.syCmdGo who engine) s fun t =>
        (t.chans = s.chans ∧ t.ansOf who = ⟨rspOk, 0, none⟩) ∧
        onlyRegs [(0x01C, EVT_STATUS)] s t) ∧
    (∀ (s : State) (pitch : Pitch) (chan : Channel),
      s.enMode (s.enOf pitch.val chan.val) = 3 →
      s.fg (s.enOf pitch.val chan.val) SY_CFG_TRIG ≠ 0 →
      s.enRuns (s.enOf pitch.val chan.val) = true →
      completes (.syncTrigger pitch chan) s fun t =>
        ((s.chan pitch.val chan.val).xfer = none → (s.chan pitch.val chan.val).nextOk ≤ s.syTrigger pitch.val (s.enOf pitch.val chan.val) → s.txHeld pitch.val chan.val = false → (t.chan pitch.val chan.val).xfer = some { t0 := s.syTrigger pitch.val (s.enOf pitch.val chan.val) } ∧ (t.chan pitch.val chan.val).due = (s.chan pitch.val chan.val).due ++ s.syClock (s.enOf pitch.val chan.val) (s.syTrigger pitch.val (s.enOf pitch.val chan.val)) ∧ t.regs = s.regs) ∧
        ((s.chan pitch.val chan.val).xfer = none → (s.chan pitch.val chan.val).nextOk ≤ s.syTrigger pitch.val (s.enOf pitch.val chan.val) → s.txHeld pitch.val chan.val = true → t = s) ∧
        ((s.chan pitch.val chan.val).xfer ≠ none ∨ s.syTrigger pitch.val (s.enOf pitch.val chan.val) < (s.chan pitch.val chan.val).nextOk → t.fg (s.enOf pitch.val chan.val) (EN_CNT_COUNT.at 8) = min (s.fg (s.enOf pitch.val chan.val) (EN_CNT_COUNT.at 8) + 1) (2 ^ EN_CNT_COUNT.w - 1) ∧ t.chans = s.chans)) ∧
    (∀ (s : State) (pitch : Pitch) (chan : Channel),
      (s.enMode (s.enOf pitch.val chan.val) ≠ 3 ∨ s.fg (s.enOf pitch.val chan.val) SY_CFG_TRIG = 0 ∨ s.enRuns (s.enOf pitch.val chan.val) = false) →
      completes (.syncTrigger pitch chan) s fun t =>
        t = s) ∧
    (∀ (s : State) (pitch : Pitch) (chan : Channel) (y : Xfer) (a : Nat),
      s.enMode (s.enOf pitch.val chan.val) = 3 →
      (s.chan pitch.val chan.val).xfer = some y →
      s.fg (s.enOf pitch.val chan.val) SY_CFG_WIDTH ≤ y.i →
      a = sySample (s.fb (s.enOf pitch.val chan.val) SY_CFG_SIGN) (s.fg (s.enOf pitch.val chan.val) SY_CFG_WIDTH) y.bits →
      completes (.syncTransferEnd pitch chan) s fun t =>
        (t.chan pitch.val chan.val).xfer = none ∧
        t.rd (s.enOf pitch.val chan.val) SY_LAST = SY_LAST_OK.set 1 (SY_LAST_SAMPLE.set a 0) ∧
        t.fg (s.enOf pitch.val chan.val) (EN_CNT_COUNT.at 0) = min (s.fg (s.enOf pitch.val chan.val) (EN_CNT_COUNT.at 0) + 1) (2 ^ EN_CNT_COUNT.w - 1) ∧
        (s.fb (s.enOf pitch.val chan.val) EN_RXDST_RX_EN = true → (s.chan pitch.val chan.val).buf = none → 1 < s.fg (s.enOf pitch.val chan.val) EN_REC_BATCH → s.fg (s.enOf pitch.val chan.val) EN_REC_FLUSH ≠ 0 → (t.chan pitch.val chan.val).buf = some { rtype := 3, flags := 0, items := [(y.t0, leBytes a 3 ++ [0] ++ leBytes 0 4)] }) ∧
        (s.fb (s.enOf pitch.val chan.val) EN_RXDST_RX_EN = false → (t.chan pitch.val chan.val).buf = (s.chan pitch.val chan.val).buf)) ∧
    (∀ (s : State) (pitch : Pitch) (chan : Channel),
      (∀ y ∈ (s.chan pitch.val chan.val).xfer, s.enMode (s.enOf pitch.val chan.val) ≠ 3 ∨ y.i < s.fg (s.enOf pitch.val chan.val) SY_CFG_WIDTH) →
      completes (.syncTransferEnd pitch chan) s fun t =>
        t = s) ∧
    (∀ (s : State) (pitch : Pitch) (chan : Channel) (a : Int) (l : Bool),
      s.enMode (s.enOf pitch.val chan.val) = 4 →
      (s.chan pitch.val chan.val).deb = some (a, l) →
      a + 16000 * (s.fg (s.enOf pitch.val chan.val) DI_CFG_DEB : Int) ≤ (s.chan pitch.val chan.val).upto →
      completes (.discDebounceAccept pitch chan) s fun t =>
        (t.chan pitch.val chan.val).acc = some l ∧
        (t.chan pitch.val chan.val).deb = none ∧
        (s.diSelects (s.enOf pitch.val chan.val) l = true → t.rd (s.enOf pitch.val chan.val) EN_DI_COUNT = s.rd (s.enOf pitch.val chan.val) EN_DI_COUNT + 1) ∧
        (s.diSelects (s.enOf pitch.val chan.val) l = false → t.rd (s.enOf pitch.val chan.val) EN_DI_COUNT = s.rd (s.enOf pitch.val chan.val) EN_DI_COUNT)) ∧
    (∀ (s : State) (pitch : Pitch) (chan : Channel),
      (∀ d ∈ (s.chan pitch.val chan.val).deb, s.enMode (s.enOf pitch.val chan.val) ≠ 4 ∨ (s.chan pitch.val chan.val).upto < d.1 + 16000 * (s.fg (s.enOf pitch.val chan.val) DI_CFG_DEB : Int)) →
      completes (.discDebounceAccept pitch chan) s fun t =>
        t = s) ∧
    (∀ (s : State) (who : Initiator) (engine : Engine),
      s.reach who (s.enReg engine) EN_DI_COUNT = rspOk →
      completes (.enDiCountTake who engine) s fun t =>
        t.ansOf who = ⟨rspOk, s.rd (s.enReg engine) EN_DI_COUNT, none⟩ ∧
        t.rd (s.enReg engine) EN_DI_COUNT = 0 ∧
        (s.enMode (s.enReg engine) = 4 → t.fg (s.enReg engine) DI_CFG_UNSURE = 0) ∧
        onlyRegs [(s.enReg engine, EN_DI_COUNT), (s.enReg engine, DI_CFG), (0x01C, EVT_STATUS)] s t) ∧
    (∀ (s : State) (who : Initiator) (engine : Engine) (v : Word) (c : Nat),
      s.accepts who (s.enReg engine) DI_OUT = true →
      s.enMode (s.enReg engine) = 4 →
      s.enRuns (s.enReg engine) = true →
      s.fg (s.enReg engine) DI_CFG_OUTMODE = 0 →
      s.fb (s.enReg engine) DI_CFG_OUTSRC = false →
      s.commitPending (s.enReg engine) = false →
      s.servedBy (enCluster (s.enReg engine)) (enPos (s.enReg engine)) = some c →
      completes (.diOutWrite who engine v) s fun t =>
        (t.chan (enCluster (s.enReg engine)) c).due = (s.chan (enCluster (s.enReg engine)) c).due ++ [⟨s.earliest (enCluster (s.enReg engine)), t.fb (s.enReg engine) DI_OUT_LEVEL, t.fb (s.enReg engine) DI_OUT_EN⟩] ∧
        t.fg (s.enReg engine) DI_OUT_LEVEL = DI_OUT_LEVEL.get v ∧
        t.fg (s.enReg engine) DI_OUT_EN = DI_OUT_EN.get v ∧
        t.ansOf who = ⟨rspOk, 0, none⟩) ∧
    (∀ (s : State) (who : Initiator) (engine : Engine) (v : Word),
      s.accepts who (s.enReg engine) DI_OUT = true →
      (s.enMode (s.enReg engine) ≠ 4 ∨ s.enRuns (s.enReg engine) = false ∨ s.fg (s.enReg engine) DI_CFG_OUTMODE ≠ 0 ∨ s.fb (s.enReg engine) DI_CFG_OUTSRC = true) →
      completes (.diOutWrite who engine v) s fun t =>
        (t.chans = s.chans ∧ t.ansOf who = ⟨rspOk, 0, none⟩)) ∧
    (∀ (s : State) (pitch : Pitch) (chan : Channel) (x : Int) (per high : Nat),
      s.enMode (s.enOf pitch.val chan.val) = 4 →
      s.enRuns (s.enOf pitch.val chan.val) = true →
      s.fg (s.enOf pitch.val chan.val) DI_CFG_OUTMODE = 1 →
      x = s.pwmStart pitch.val chan.val →
      per = s.fg (s.enOf pitch.val chan.val) DI_PWM_PERIOD_PERIOD →
      (high = if s.fb (s.enOf pitch.val chan.val) DI_CFG_OUTSRC then pwmHigh per (per * ((s.chan pitch.val chan.val).dutyNew.foldl (fun d e => if e.1 ≤ x then e.2 else d) (s.chan pitch.val chan.val).duty) / 4096) else s.fg (s.enOf pitch.val chan.val) DI_PWM_HIGH_HIGH) →
      completes (.pwmPeriodStart pitch chan) s fun t =>
        ((t.chan pitch.val chan.val).due = (s.chan pitch.val chan.val).due ++ [⟨s.localOf (x * timeG * 65536), decide (high ≠ 0), true⟩] ++ (if high = 0 ∨ per ≤ high then [] else [⟨s.localOf ((x + high) * timeG * 65536), false, true⟩])) ∧
        (t.chan pitch.val chan.val).pwmNext = some (x + per) ∧
        t.regs = s.regs) ∧
    (∀ (s : State) (pitch : Pitch) (chan : Channel),
      (s.enMode (s.enOf pitch.val chan.val) ≠ 4 ∨ s.enRuns (s.enOf pitch.val chan.val) = false ∨ s.fg (s.enOf pitch.val chan.val) DI_CFG_OUTMODE ≠ 1) →
      completes (.pwmPeriodStart pitch chan) s fun t =>
        t = s) ∧
    (∀ (s : State) (pitch : Pitch) (chan : Channel) (u : Int) (item : List Byte) (rest : List (Int × List Byte)),
      s.enMode (s.enOf pitch.val chan.val) = 4 →
      s.enRuns (s.enOf pitch.val chan.val) = true →
      s.fg (s.enOf pitch.val chan.val) DI_CFG_OUTMODE = 2 →
      ((s.chan pitch.val chan.val).fifo = (u, item) :: rest) →
      completes (.discSchedItem pitch chan) s fun t =>
        (s.clState pitch.val = 5 → s.earliest pitch.val ≤ u → (s.chan pitch.val chan.val).lastItem.all (fun l => l + 2560 ≤ u) = true → (t.chan pitch.val chan.val).fifo = rest ∧ (t.chan pitch.val chan.val).due = (s.chan pitch.val chan.val).due ++ [⟨u, nbit (leAt item 6 1) 0, nbit (leAt item 6 1) 1⟩] ∧ (t.chan pitch.val chan.val).lastItem = some u) ∧
        (s.clState pitch.val = 5 → s.earliest pitch.val ≤ u → (s.chan pitch.val chan.val).lastItem.all (fun l => l + 2560 ≤ u) = false → (t.chan pitch.val chan.val).fifo = rest ∧ (t.chan pitch.val chan.val).due = (s.chan pitch.val chan.val).due ∧ t.fg (s.enOf pitch.val chan.val) (EN_CNT_COUNT.at 8) = min (s.fg (s.enOf pitch.val chan.val) (EN_CNT_COUNT.at 8) + 1) (2 ^ EN_CNT_COUNT.w - 1)) ∧
        ((s.clState pitch.val = 5 ∧ u < s.earliest pitch.val) ∨ (s.clState pitch.val ≠ 5 ∧ u ≤ s.now) → (t.chan pitch.val chan.val).fifo = rest ∧ (t.chan pitch.val chan.val).due = (s.chan pitch.val chan.val).due ∧ t.event (s.enOf pitch.val chan.val) EV_EN_SCHED_LATE = true ∧ t.fg (s.enOf pitch.val chan.val) (EN_CNT_COUNT.at 4) = min (s.fg (s.enOf pitch.val chan.val) (EN_CNT_COUNT.at 4) + 1) (2 ^ EN_CNT_COUNT.w - 1)) ∧
        (s.clState pitch.val ≠ 5 → s.now < u → t = s)) ∧
    (∀ (s : State) (pitch : Pitch) (chan : Channel),
      (s.enMode (s.enOf pitch.val chan.val) ≠ 4 ∨ s.enRuns (s.enOf pitch.val chan.val) = false ∨ s.fg (s.enOf pitch.val chan.val) DI_CFG_OUTMODE ≠ 2 ∨ (s.chan pitch.val chan.val).fifo = []) →
      completes (.discSchedItem pitch chan) s fun t =>
        t = s)

/-- PB_ABORT ends the head message of the FIFO with RESULT 1 where it is not being sent, PB_FLUSH asks for all at the next boundary, PB_RECOVER
takes BUS_OFF to RECOVERING. In another mode they do nothing. TT_BASIC_CYCLE_START at a master whose next cycle is due: it starts at its
instant, in the next row, or in row 0 where it is the first, and the one after it is due CYCLE later. Otherwise nothing changes.
TT_COLUMN_START of the next column j of the cycle in progress, once it is due: an EXCLUSIVE column starts its valid slot where the node may
send and the bus is idle, else EN_CNT3 counts; an ARBITRATE one lets the FIFO send up to its end; a REFERENCE one, the first, starts the
master's reference, or leaves it due until the bus is idle. Otherwise nothing changes. TT_REF_TIMEOUT at a follower or backup, REF_WAIT
after the expected start, with no frame in progress or waiting that may be the reference: MISSED counts. At the first miss the schedule goes
on by its own timing; at the second in a row a backup becomes master, a slave loses the schedule with TT_LOST. Otherwise nothing changes.
PBUS_MESSAGE_RECEIVED: the oldest valid message of the channel is counted. Where it is the reference of the channel's schedule, but at a
master of no higher identifier, the cycle begins DELAY before it in the row it names, with its offset noted. It waits for its lookup; with
the table off it is recorded where UNMATCHED and RX_EN are 1, or counted as a miss. ROUTE_LOOKUP_BEGIN takes the oldest; ROUTE_LOOKUP_DONE
acts on at most four matches, each by its KIND and counted in its HITS, or leaves the message unmatched. Without one they do nothing.
ROUTED_FRAME_RECEIVED: a routed message that its PBUS channel can take joins its FIFO; any other counts in EN_CNT1. Without a routed frame
in front nothing changes. -/
def Obligations.PbusMatrixAndRouting : Prop :=
    (∀ (s : State) (who : Initiator) (engine : Engine) (c : Nat),
      s.accepts who (s.enReg engine) PB_CMD = true →
      s.enMode (s.enReg engine) = 2 →
      s.servedBy (enCluster (s.enReg engine)) (enPos (s.enReg engine)) = some c →
      s.enOf (enCluster (s.enReg engine)) c = s.enReg engine →
      completes (.pbAbort who engine) s fun t =>
        (¬((s.chan (enCluster (s.enReg engine)) c).tx.map (·.1) = some none) → (t.chan (enCluster (s.enReg engine)) c).fifo = (s.chan (enCluster (s.enReg engine)) c).fifo.tail) ∧
        (¬((s.chan (enCluster (s.enReg engine)) c).tx.map (·.1) = some none) → (s.chan (enCluster (s.enReg engine)) c).fifo ≠ [] → (t.chan (enCluster (s.enReg engine)) c).attempts = 0) ∧
        ((s.chan (enCluster (s.enReg engine)) c).tx.map (·.1) = some none → t.chans = s.chans) ∧
        t.ansOf who = ⟨rspOk, 0, none⟩) ∧
    (∀ (s : State) (who : Initiator) (engine : Engine) (c : Nat),
      s.accepts who (s.enReg engine) PB_CMD = true →
      s.enMode (s.enReg engine) = 2 →
      s.servedBy (enCluster (s.enReg engine)) (enPos (s.enReg engine)) = some c →
      completes (.pbFlush who engine) s fun t =>
        (t.chan (enCluster (s.enReg engine)) c).flush = true ∧
        (t.chan (enCluster (s.enReg engine)) c).fifo = (s.chan (enCluster (s.enReg engine)) c).fifo ∧
        onlyRegs [(0x01C, EVT_STATUS)] s t) ∧
    (∀ (s : State) (who : Initiator) (engine : Engine) (c : Nat),
      s.accepts who (s.enReg engine) PB_CMD = true →
      s.enMode (s.enReg engine) = 2 →
      s.servedBy (enCluster (s.enReg engine)) (enPos (s.enReg engine)) = some c →
      completes (.pbRecover who engine) s fun t =>
        (s.fg (s.enReg engine) PB_ERR_STATE = 4 → t.fg (s.enReg engine) PB_ERR_STATE = 5 ∧ (t.chan (enCluster (s.enReg engine)) c).rec11 = 0) ∧
        (s.fg (s.enReg engine) PB_ERR_STATE ≠ 4 → t.fg (s.enReg engine) PB_ERR_STATE = s.fg (s.enReg engine) PB_ERR_STATE ∧ t.chans = s.chans) ∧
        onlyRegs [(s.enReg engine, PB_ERR), (0x01C, EVT_STATUS)] s t) ∧
    (∀ (s : State) (who : Initiator) (engine : Engine),
      s.accepts who (s.enReg engine) PB_CMD = true →
      s.enMode (s.enReg engine) ≠ 2 →
      completes (.pbAbort who engine) s fun t =>
        t.chans = s.chans ∧
        onlyRegs [(0x01C, EVT_STATUS)] s t) ∧
    (∀ (s : State) (who : Initiator) (engine : Engine),
      s.accepts who (s.enReg engine) PB_CMD = true →
      s.enMode (s.enReg engine) ≠ 2 →
      completes (.pbFlush who engine) s fun t =>
        t.chans = s.chans ∧
        onlyRegs [(0x01C, EVT_STATUS)] s t) ∧
    (∀ (s : State) (who : Initiator) (engine : Engine),
      s.accepts who (s.enReg engine) PB_CMD = true →
      s.enMode (s.enReg engine) ≠ 2 →
      completes (.pbRecover who engine) s fun t =>
        t.chans = s.chans ∧
        onlyRegs [(0x01C, EVT_STATUS)] s t) ∧
    (∀ (s : State) (matrix : Matrix) (n c : Nat) (x : Int),
      s.ttOwner (0x240 + matrix.val) = some (n, c) →
      s.fg (s.enOf n c) PB_TT_STAT_ROLE = 1 →
      (s.chan n c).ttNext = some x →
      s.localOf (x * timeG * 65536) ≤ s.earliest n + 2560 →
      completes (.ttBasicCycleStart matrix) s fun t =>
        (t.chan n c).cycle = some (s.localOf (x * timeG * 65536)) ∧
        ((t.chan n c).col = some 0 ∧ (t.chan n c).refDue = false ∧ (t.chan n c).arb = none) ∧
        (t.chan n c).ttNext = some (x + s.fg (0x240 + matrix.val) SM_CYCLE_CYCLE) ∧
        (t.fg (s.enOf n c) PB_TT_STAT_ROW = (if (s.chan n c).cycle = none ∨ s.fg (0x240 + matrix.val) SM_CFG_ROWS ≤ s.fg (s.enOf n c) PB_TT_STAT_ROW + 1 then 0 else s.fg (s.enOf n c) PB_TT_STAT_ROW + 1) % 2 ^ PB_TT_STAT_ROW.w) ∧
        onlyRegs [(s.enOf n c, PB_TT_STAT)] s t) ∧
    (∀ (s : State) (matrix : Matrix),
      (((s.ttOwner (0x240 + matrix.val)).all fun o => decide (s.fg (s.enOf o.1 o.2) PB_TT_STAT_ROLE ≠ 1 ∨ ((s.chan o.1 o.2).ttNext.all fun x => decide (s.earliest o.1 + 2560 < s.localOf (x * timeG * 65536))) = true)) = true) →
      completes (.ttBasicCycleStart matrix) s fun t =>
        t = s) ∧
    (∀ (s : State) (matrix : Matrix) (n c j ty k : Nat) (z u : Int),
      s.ttOwner (0x240 + matrix.val) = some (n, c) →
      ((s.chan n c).col = some j ∧ (s.chan n c).cycle = some z) →
      u = z + s.ttColAt (0x240 + matrix.val) j →
      u ≤ s.earliest n + 2560 →
      s.ttCell (0x240 + matrix.val) j (s.fg (s.enOf n c) PB_TT_STAT_ROW) = (ty, k) →
      completes (.ttColumnStart matrix) s fun t =>
        t.fg (s.enOf n c) PB_TT_STAT_COL = j % 2 ^ PB_TT_STAT_COL.w ∧
        ((t.chan n c).col = if j + 1 < s.fg (0x240 + matrix.val) SM_CFG_COLS then some (j + 1) else none) ∧
        ((t.chan n c).arb = if ty = 2 ∧ s.ttHas (s.enOf n c) = true then some (u, z + s.ttColAt (0x240 + matrix.val) (j + 1)) else none) ∧
        (ty = 1 → (s.ttHas (s.enOf n c) && s.fb (s.enOf n c) (PB_SLOT_W1_VALID.at (0x48 * k)) && s.ttIdle n c u) = true → (t.chan n c).tx = some (some k, u) ∧ (t.chan n c).pb.start = some u) ∧
        (ty = 1 → (s.ttHas (s.enOf n c) && s.fb (s.enOf n c) (PB_SLOT_W1_VALID.at (0x48 * k)) && s.ttIdle n c u) = false → (t.chan n c).tx = (s.chan n c).tx ∧ t.fg (s.enOf n c) (EN_CNT_COUNT.at 12) = min (s.fg (s.enOf n c) (EN_CNT_COUNT.at 12) + 1) (2 ^ EN_CNT_COUNT.w - 1)) ∧
        (ty = 3 → j = 0 → s.fg (s.enOf n c) PB_TT_STAT_ROLE = 1 → (if s.ttIdle n c u then (t.chan n c).tx = some (some 8, u) ∧ (t.chan n c).pb.start = some u else (t.chan n c).tx = (s.chan n c).tx ∧ (t.chan n c).refDue = true)) ∧
        (ty ≠ 1 → ty ≠ 3 → (t.chan n c).tx = (s.chan n c).tx ∧ (t.chan n c).refDue = (s.chan n c).refDue)) ∧
    (∀ (s : State) (matrix : Matrix),
      ((s.ttOwner (0x240 + matrix.val)).all fun o => decide (((s.chan o.1 o.2).col.all fun j => (s.chan o.1 o.2).cycle.all fun z => decide (s.earliest o.1 + 2560 < z + s.ttColAt (0x240 + matrix.val) j)) = true)) = true →
      completes (.ttColumnStart matrix) s fun t =>
        t = s) ∧
    (∀ (s : State) (matrix : Matrix) (n c : Nat) (x l : Int),
      s.ttOwner (0x240 + matrix.val) = some (n, c) →
      (s.fg (s.enOf n c) PB_TT_STAT_ROLE = 2 ∨ s.fg (s.enOf n c) PB_TT_STAT_ROLE = 3) →
      (s.chan n c).ttNext = some x →
      l = s.localOf (x * timeG * 65536) + 160 * (s.fg (0x240 + matrix.val) SM_REF_REF_WAIT : Int) →
      l ≤ s.now →
      (s.chan n c).mayRef l = false →
      completes (.ttRefTimeout matrix) s fun t =>
        t.fg (s.enOf n c) PB_TT_STAT_MISSED = min (s.fg (s.enOf n c) PB_TT_STAT_MISSED + 1) (2 ^ PB_TT_STAT_MISSED.w - 1) ∧
        (s.fg (s.enOf n c) PB_TT_STAT_MISSED = 0 → (t.chan n c).ttNext = some (x + s.fg (0x240 + matrix.val) SM_CYCLE_CYCLE)) ∧
        (s.fg (s.enOf n c) PB_TT_STAT_MISSED = 0 → (s.chan n c).cycle ≠ none → (t.chan n c).cycle = some (s.localOf (x * timeG * 65536)) ∧ (t.chan n c).col = some 0) ∧
        (1 ≤ s.fg (s.enOf n c) PB_TT_STAT_MISSED → (t.chan n c).col = none ∧ (t.chan n c).arb = none ∧ (t.chan n c).refDue = false) ∧
        (1 ≤ s.fg (s.enOf n c) PB_TT_STAT_MISSED → s.fg (s.enOf n c) PB_TT_STAT_ROLE = 3 → t.fg (s.enOf n c) PB_TT_STAT_ROLE = 1 ∧ t.fg (s.enOf n c) PB_TT_STAT_SYNCED = 1 ∧ (t.chan n c).ttNext = some (s.ttFirst (0x240 + matrix.val))) ∧
        (1 ≤ s.fg (s.enOf n c) PB_TT_STAT_MISSED → s.fg (s.enOf n c) PB_TT_STAT_ROLE = 2 → t.fg (s.enOf n c) PB_TT_STAT_SYNCED = 0 ∧ (s.fg (s.enOf n c) PB_TT_STAT_MISSED = 1 → t.event (s.enOf n c) EV_EN_TT_LOST = true)) ∧
        onlyRegs [(s.enOf n c, PB_TT_STAT), (s.enOf n c, EVT_STATUS)] s t) ∧
    (∀ (s : State) (matrix : Matrix),
      (((s.ttOwner (0x240 + matrix.val)).all fun o => decide (s.fg (s.enOf o.1 o.2) PB_TT_STAT_ROLE = 1 ∨ ((s.chan o.1 o.2).ttNext.all fun x => (fun l : Int => decide (s.now < l) || (s.chan o.1 o.2).mayRef l) (s.localOf (x * timeG * 65536) + 160 * (s.fg (0x240 + matrix.val) SM_REF_REF_WAIT : Int))) = true)) = true) →
      completes (.ttRefTimeout matrix) s fun t =>
        t = s) ∧
    (∀ (s : State) (pitch : Pitch) (chan : Channel) (sof : Int) (item : List Byte) (rest : List (Int × List Byte)),
      ((s.chan pitch.val chan.val).got = (sof, item) :: rest) →
      (∀ m ∈ s.ttOn pitch.val chan.val, s.ttIsRef m (itemIdw item) (leAt item 4 1 % 16) = true → s.fg (s.enOf pitch.val chan.val) PB_TT_STAT_ROLE = 1 ∧ s.fg m SM_REF_REF_ID ≤ itemIdw item % 2048) →
      completes (.pbusMessageReceived pitch chan) s fun t =>
        ((s.ready 0x200 && s.fb 0x200 RT_CTRL_EN) = true → t = { (s.setChan pitch.val chan.val { s.chan pitch.val chan.val with got := rest }).inc (s.enOf pitch.val chan.val) PB_CNT_RX_COUNT with lookWait := s.lookWait ++ [{ pitch := pitch.val, chan := chan.val, item := item, sof := sof }] }) ∧
        ((s.ready 0x200 && s.fb 0x200 RT_CTRL_EN) = false → (decide (s.enMode (s.enOf pitch.val chan.val) = 2) && s.fb (s.enOf pitch.val chan.val) PB_CFG_UNMATCHED && s.fb (s.enOf pitch.val chan.val) EN_RXDST_RX_EN) = true → t = ((s.setChan pitch.val chan.val { s.chan pitch.val chan.val with got := rest }).inc (s.enOf pitch.val chan.val) PB_CNT_RX_COUNT).recBatch pitch.val chan.val 0x10 sof item) ∧
        ((s.ready 0x200 && s.fb 0x200 RT_CTRL_EN) = false → (decide (s.enMode (s.enOf pitch.val chan.val) = 2) && s.fb (s.enOf pitch.val chan.val) PB_CFG_UNMATCHED && s.fb (s.enOf pitch.val chan.val) EN_RXDST_RX_EN) = false → t = ((s.setChan pitch.val chan.val { s.chan pitch.val chan.val with got := rest }).inc (s.enOf pitch.val chan.val) PB_CNT_RX_COUNT).inc 0x200 RT_CNT_MISS_COUNT)) ∧
    (∀ (s : State) (pitch : Pitch) (chan : Channel) (m : Nat) (sof z : Int) (item : List Byte) (rest : List (Int × List Byte)),
      ((s.chan pitch.val chan.val).got = (sof, item) :: rest) →
      s.ttOn pitch.val chan.val = some m →
      s.ttIsRef m (itemIdw item) (leAt item 4 1 % 16) = true →
      (s.fg (s.enOf pitch.val chan.val) PB_TT_STAT_ROLE ≠ 1 ∨ itemIdw item % 2048 < s.fg m SM_REF_REF_ID) →
      z = sof - 160 * (leAt (item.drop 12) 1 2 : Int) →
      completes (.pbusMessageReceived pitch chan) s fun t =>
        (t.chan pitch.val chan.val).got = rest ∧
        ((t.chan pitch.val chan.val).cycle = some z ∧ (t.chan pitch.val chan.val).col = some 0) ∧
        (t.fg (s.enOf pitch.val chan.val) PB_TT_STAT_ROW = leAt (item.drop 12) 0 1 % 16 ∧ t.fg (s.enOf pitch.val chan.val) PB_TT_STAT_SYNCED = 1 ∧ t.fg (s.enOf pitch.val chan.val) PB_TT_STAT_MISSED = 0) ∧
        (t.fg (s.enOf pitch.val chan.val) PB_TT_STAT_ROLE = if s.fg (s.enOf pitch.val chan.val) PB_TT_STAT_ROLE = 1 then 2 else s.fg (s.enOf pitch.val chan.val) PB_TT_STAT_ROLE) ∧
        t.rd (s.enOf pitch.val chan.val) PB_TT_OFFSET = clamp32 ((s.stNs z : Int) - (leAt (item.drop 12) 3 4 : Int)) ∧
        (t.chan pitch.val chan.val).ttNext = some (s.stAt z / (timeG * 65536) + s.fg m SM_CYCLE_CYCLE)) ∧
    (∀ (s : State) (pitch : Pitch) (chan : Channel),
      (s.chan pitch.val chan.val).got = [] →
      completes (.pbusMessageReceived pitch chan) s fun t =>
        t = s) ∧
    (∀ (s : State) (l : Look) (rest : List Look),
      (s.lookWait = l :: rest) →
      completes (.routeLookupBegin) s fun t =>
        t = { s with lookWait := rest, looking := s.looking ++ [l] }) ∧
    (∀ (s : State),
      s.lookWait = [] →
      completes (.routeLookupBegin) s fun t =>
        t = s) ∧
    (∀ (s : State),
      s.looking = [] →
      completes (.routeLookupDone) s fun t =>
        t = s) ∧
    (∀ (s : State) (l : Look) (rest : List Look),
      (s.looking = l :: rest) →
      s.rtFind l (List.range 4096) 4 = [] →
      completes (.routeLookupDone) s fun t =>
        ((decide (s.enMode (s.enOf l.pitch l.chan) = 2) && s.fb (s.enOf l.pitch l.chan) PB_CFG_UNMATCHED && s.fb (s.enOf l.pitch l.chan) EN_RXDST_RX_EN) = true → t = ({ s with looking := rest } : State).recBatch l.pitch l.chan 0x10 l.sof l.item) ∧
        ((decide (s.enMode (s.enOf l.pitch l.chan) = 2) && s.fb (s.enOf l.pitch l.chan) PB_CFG_UNMATCHED && s.fb (s.enOf l.pitch l.chan) EN_RXDST_RX_EN) = false → t = ({ s with looking := rest } : State).inc 0x200 RT_CNT_MISS_COUNT)) ∧
    (∀ (s : State) (l : Look) (rest : List Look) (es : List Nat),
      (s.looking = l :: rest) →
      s.rtFind l (List.range 4096) 4 = es →
      es ≠ [] →
      completes (.routeLookupDone) s fun t =>
        (t.looking = rest ∧ es.length ≤ 4) ∧
        t = es.foldl (State.rtAct l) { s with looking := rest }) ∧
    (∀ (s : State) (l : Look) (rest : List Look) (e hub : Nat) ,
      (s.looking = l :: rest) →
      s.rtFind l (List.range 4096) 4 = [e] →
      (hub = if s.fb (rtPage e) (RT_DEST_SELF.at (rtOff e)) then s.hubId else s.fg (rtPage e) (RT_DEST_HUB.at (rtOff e))) →
      completes (.routeLookupDone) s fun t =>
        (s.fg (rtPage e) (RT_DEST_KIND.at (rtOff e)) = 0 → t = (({ s with looking := rest } : State).inc (rtPage e) (RT_HITS_COUNT.at (rtOff e))).rtSend l { hdr := { cls := (if s.fb (rtPage e) (RT_DEST_CLASS_E.at (rtOff e)) && decide ((s.rtItem l e).length ≤ 64) then Cls.E else Cls.T), mtype := 0x20, dst := hub, src := s.hubId, stream := s.fg (rtPage e) (RT_DEST_PITCH.at (rtOff e)), arg := s.fg (rtPage e) (RT_DEST_CHAN.at (rtOff e)) + 256 * l.pitch + 8192 * l.chan }, payload := itemTagged (itemTime (s.rtItem l e) ((({ s with looking := rest } : State).inc (rtPage e) (RT_HITS_COUNT.at (rtOff e))).st48 l.sof / 65536)) 0xFF }) ∧
        (s.fg (rtPage e) (RT_DEST_KIND.at (rtOff e)) = 1 → t = (({ s with looking := rest } : State).inc (rtPage e) (RT_HITS_COUNT.at (rtOff e))).rtSend l { hdr := { cls := .B, mtype := 0x10, dst := hub, src := s.hubId, stream := l.pitch, arg := s.fg (rtPage e) (RT_DEST_QUEUE.at (rtOff e)) }, payload := (({ s with looking := rest } : State).inc (rtPage e) (RT_HITS_COUNT.at (rtOff e))).recBytes l.chan { rtype := 0x10, items := [(l.sof, s.rtItem l e)] } }) ∧
        (s.fg (rtPage e) (RT_DEST_KIND.at (rtOff e)) = 2 → (s.ready 0x020 && s.ready 0x014) = true → s.mbOverruns (s.fg (rtPage e) (RT_DEST_QUEUE.at (rtOff e)) % 64) = false → t = (({ s with looking := rest } : State).inc (rtPage e) (RT_HITS_COUNT.at (rtOff e))).mbPush (s.fg (rtPage e) (RT_DEST_QUEUE.at (rtOff e)) % 64) (BitVec.ofNat 32 (leAt (s.rtItem l e) 12 4))) ∧
        (s.fg (rtPage e) (RT_DEST_KIND.at (rtOff e)) = 2 → (s.ready 0x020 && s.ready 0x014) = false → t = ({ s with looking := rest } : State).inc (rtPage e) (RT_HITS_COUNT.at (rtOff e))) ∧
        (s.fg (rtPage e) (RT_DEST_KIND.at (rtOff e)) = 3 → t = if s.fb (s.enOf l.pitch l.chan) EN_RXDST_RX_EN then (({ s with looking := rest } : State).inc (rtPage e) (RT_HITS_COUNT.at (rtOff e))).recBatch l.pitch l.chan 0x10 l.sof (s.rtItem l e) else ({ s with looking := rest } : State).inc (rtPage e) (RT_HITS_COUNT.at (rtOff e)))) ∧
    (∀ (s : State) (pitch : Pitch) (f : Frame) (rest : List Frame) (fits : Bool),
      (s.core.inbox.getD (portCluster pitch.val) [] = f :: rest) →
      f.routed = true →
      (fits = decide (s.enMode (s.enOf pitch.val (f.hdr.argBits 0 3)) = 2 ∧ (s.chan pitch.val (f.hdr.argBits 0 3)).used + f.payload.length ≤ 1024 ∧ s.pbInvalid (s.enOf pitch.val (f.hdr.argBits 0 3)) f.payload = false ∧ 12 ≤ f.payload.length ∧ f.payload.length = itemLen f.payload)) →
      completes (.routedFrameReceived pitch) s fun t =>
        t.core.inbox.getD (portCluster pitch.val) [] = rest ∧
        (fits = true → (t.chan pitch.val (f.hdr.argBits 0 3)).fifo = (s.chan pitch.val (f.hdr.argBits 0 3)).fifo ++ [(0, f.payload)] ∧ t.regs = s.regs) ∧
        (fits = false → t.chans = s.chans ∧ t.fg (s.enOf pitch.val (f.hdr.argBits 0 3)) (EN_CNT_COUNT.at 4) = min (s.fg (s.enOf pitch.val (f.hdr.argBits 0 3)) (EN_CNT_COUNT.at 4) + 1) (2 ^ EN_CNT_COUNT.w - 1))) ∧
    (∀ (s : State) (pitch : Pitch),
      (∀ f ∈ (s.core.inbox.getD (portCluster pitch.val) []).head?, f.routed = false) →
      completes (.routedFrameReceived pitch) s fun t =>
        t = s)

/-! ### Accesses and the bridge (chapters 2 and 13) -/

/-- HOST_ACCESS with the island up, no access in progress and the bridge READY: a whole-word access to a register of this hub has its answer and
effect, with the data phase in cycle 7 (none given for a slow target's OK); one that no window covers answers UNMAPPED, or NOT_READY in a
bare start; one to another hub goes through its window. With the bridge not READY it answers NOT_READY in cycle 2. An address above the
aperture is a control block access. HOST_CONTROL_BLOCK_ACCESS reads or writes HOST_PSEL, every other offset reads 0, in cycle 2; while an
access is in progress it only counts as PROTO; with the island in reset the pad responder answers NOT_READY in cycle 1 and nothing else
happens. HOST_ADS_DURING_ACCESS counts as PROTO; HOST_ACCESS_ABANDON gives the access up, an answered take's data going to the lost-take
log, while one that is not answered yet goes on for no one. Without an access they do nothing. SPI_FRAME with command 0x02 or 0x0B, with the
fuses read and no frame in progress, makes one local access of a whole word, UNMAPPED where not aligned; any other does nothing. SPI_ABORT
ends the frame in progress, or one that makes its access, and counts. -/
def Obligations.AccessesAtTheDoors : Prop :=
    (∀ (s : State) (addr : BitVec 27) (write : Bool) (data : Word) (o : Nat),
      s.islUp 37 = true →
      s.hostBusy = false →
      addr.toNat < 2 ^ 26 →
      s.ready 0x020 = true →
      s.target (s.aperture addr.toNat) = .here o →
      o < 2 ^ 24 →
      completes (.hostAccess addr write data 15) s fun t =>
        (let u := (if write then ({ s with host := some { hub := s.hubId, off := o, write := write } } : State).regWrite .host (o / 4096) (o % 4096) data else ({ s with host := some { hub := s.hubId, off := o, write := write } } : State).regRead .host (o / 4096) (o % 4096)); t.regs = u.regs ∧ t.ansOf .host = ⟨(u.ansOf .host).rsp, (u.ansOf .host).data, if slowTarget o ∧ (u.ansOf .host).rsp = rspOk then none else some 7⟩) ∧
        t.host = some { hub := s.hubId, off := o, write := write, done := true }) ∧
    (∀ (s : State) (addr : BitVec 27) (write : Bool) (data : Word) (be : BitVec 4),
      s.islUp 37 = true →
      s.hostBusy = false →
      addr.toNat < 2 ^ 26 →
      completes (.hostAccess addr write data be) s fun t =>
        (s.ready 0x020 = false → t.ansOf .host = ⟨rspNotReady, 0, some 2⟩ ∧ t.regs = s.regs) ∧
        (s.ready 0x020 = true → s.target (s.aperture addr.toNat) = .unmapped → t.ansOf .host = ⟨if s.bare then rspNotReady else rspUnmapped, 0, some 7⟩ ∧ t.regs = s.regs)) ∧
    (∀ (s : State) (addr : BitVec 27) (write : Bool) (data : Word) (be : BitVec 4) (w hub off : Nat),
      s.islUp 37 = true →
      s.hostBusy = false →
      addr.toNat < 2 ^ 26 →
      s.ready 0x020 = true →
      s.target (s.aperture addr.toNat) = .far w hub off →
      completes (.hostAccess addr write data be) s fun t =>
        t = (if ((({ s with host := some { hub := hub, off := off, write := write } } : State).touch .host (!write)).farAccess .host (s.aperture addr.toNat) w hub off write data be).hostBusy then ((({ s with host := some { hub := hub, off := off, write := write } } : State).touch .host (!write)).farAccess .host (s.aperture addr.toNat) w hub off write data be) else ((({ s with host := some { hub := hub, off := off, write := write } } : State).touch .host (!write)).farAccess .host (s.aperture addr.toNat) w hub off write data be).cycle (some 7))) ∧
    (∀ (s : State) (addr : BitVec 27) (write : Bool) (data : Word) (be : BitVec 4),
      2 ^ 26 ≤ addr.toNat →
      s.islUp 37 = true →
      completes (.hostAccess addr write data be) s fun t =>
        Sys2Proof.Machine.exec (.hostControlBlockAccess (addr.setWidth 26) write data be) s = .next t) ∧
    (∀ (s : State) (addr : BitVec 26) (write : Bool) (data : Word) (be : BitVec 4),
      s.islUp 37 = true →
      s.hostBusy = false →
      (8 ≤ addr.toNat % 4096 ∨ addr.toNat % 4 ≠ 0 ∨ (write = true ∧ be ≠ 15)) →
      completes (.hostControlBlockAccess addr write data be) s fun t =>
        t.ansOf .host = ⟨if 8 ≤ addr.toNat % 4096 then rspOk else rspUnmapped, 0, some 2⟩ ∧
        onlyRegs [(0x01C, EVT_STATUS)] s t) ∧
    (∀ (s : State) (addr : BitVec 26) (write : Bool) (data : Word) (be : BitVec 4),
      (s.islUp 37 = false ∨ s.hostBusy = true) →
      completes (.hostControlBlockAccess addr write data be) s fun t =>
        (t = if s.islUp 37 then s.inc 0x021 HOST_CNT_PROTO else { s with ans := t.ans }) ∧
        (s.islUp 37 = false → t.ansOf .host = ⟨rspNotReady, 0, some 1⟩)) ∧
    (∀ (s : State) (addr : BitVec 27) (write : Bool) (data : Word) (be : BitVec 4),
      s.islUp 37 = false →
      completes (.hostAccess addr write data be) s fun t =>
        (t = { s with ans := t.ans } ∧ t.ansOf .host = ⟨rspNotReady, 0, some 1⟩)) ∧
    (∀ (s : State) (addr : BitVec 26) (data : Word) (be : BitVec 4),
      s.islUp 37 = true →
      s.hostBusy = false →
      completes (.hostControlBlockAccess addr false data be) s fun t =>
        (t.ansOf .host = ⟨if 8 ≤ addr.toNat % 4096 ∨ addr.toNat % 4 = 0 then rspOk else rspUnmapped, if addr.toNat % 4096 = 0 ∨ addr.toNat % 4096 = 4 then s.rd 0x021 (HOST_PSEL + addr.toNat % 4096) else 0, some 2⟩) ∧
        onlyRegs [(0x01C, EVT_STATUS)] s t) ∧
    (∀ (s : State) (addr : BitVec 26) (data : Word),
      s.islUp 37 = true →
      s.hostBusy = false →
      (addr.toNat % 4096 = 0 ∨ addr.toNat % 4096 = 4) →
      completes (.hostControlBlockAccess addr true data 15) s fun t =>
        t.rd 0x021 (HOST_PSEL + addr.toNat % 4096) = (s.plain false 0x021 (HOST_PSEL + addr.toNat % 4096) data).rd 0x021 (HOST_PSEL + addr.toNat % 4096) ∧
        t.ansOf .host = ⟨rspOk, 0, some 2⟩) ∧
    (∀ (s : State) (addr : BitVec 27) (write : Bool) (data : Word) (be : BitVec 4),
      s.islUp 37 = true →
      s.hostBusy = true →
      completes (.hostAccess addr write data be) s fun t =>
        t = s.inc 0x021 HOST_CNT_PROTO) ∧
    (∀ (s : State) (addr : BitVec 27) (write : Bool) (data : Word),
      s.islUp 37 = false →
      completes (.padResponderAccess addr write data) s fun t =>
        (t = { s with ans := t.ans } ∧ t.ansOf .host = ⟨rspNotReady, 0, some 1⟩)) ∧
    (∀ (s : State) (addr : BitVec 27) (write : Bool) (data : Word),
      s.islUp 37 = true →
      completes (.padResponderAccess addr write data) s fun t =>
        t = s) ∧
    (∀ (s : State) (a : Acc),
      s.islUp 37 = true →
      s.host = some a →
      completes (.hostAdsDuringAccess) s fun t =>
        t = s.inc 0x021 HOST_CNT_PROTO) ∧
    (∀ (s : State),
      (s.islUp 37 = false ∨ s.host = none) →
      completes (.hostAdsDuringAccess) s fun t =>
        t = s) ∧
    (∀ (s : State),
      s.host = none →
      completes (.hostAccessAbandon) s fun t =>
        t = s) ∧
    (∀ (s : State) (a : Acc),
      s.host = some a →
      a.done = false →
      completes (.hostAccessAbandon) s fun t =>
        (t.host = none ∧ t.regs = s.regs) ∧
        t.br.waits = s.br.waits.map (Fwd.leave .host a) ∧
        (t.mem.held = s.mem.held.map (fun x => if x.who = .host then { x with gone := true } else x))) ∧
    (∀ (s : State) (a : Acc),
      s.host = some a →
      a.done = true →
      completes (.hostAccessAbandon) s fun t =>
        t.host = none ∧
        (((s.ansOf .host).rsp = rspOk ∧ a.write = false ∧ takeAt a.off = true) → t.rd 0x020 BR_TL_DATA = (s.ansOf .host).data ∧ t.rd 0x020 BR_TL_ADDR = BitVec.ofNat 32 a.off ∧ t.event 0x020 EV_BR_TAKE_LOST = true) ∧
        (takeAt a.off = false → t = { s with host := none })) ∧
    (∀ (s : State) (cmd : BitVec 8) (addr : BitVec 32) (data : Word),
      (cmd = 0x02 ∨ cmd = 0x0B) →
      s.gs.fused = true →
      (s.spi.any fun a => !a.done) = false →
      addr.toNat % 4 = 0 →
      addr.toNat < 2 ^ 24 →
      completes (.spiFrame cmd addr data) s fun t =>
        (let S : State := { s with spi := some { hub := s.hubId, off := addr.toNat, write := decide (cmd = 0x02) } }; let u := (if cmd = 0x02 then S.regWrite .spi (addr.toNat / 4096) (addr.toNat % 4096) data else S.regRead .spi (addr.toNat / 4096) (addr.toNat % 4096)); t.regs = u.regs ∧ t.ansOf .spi = ⟨(u.ansOf .spi).rsp, if (u.ansOf .spi).rsp = rspOk then (u.ansOf .spi).data else 0, none⟩)) ∧
    (∀ (s : State) (cmd : BitVec 8) (addr : BitVec 32) (data : Word),
      (cmd = 0x02 ∨ cmd = 0x0B) →
      s.gs.fused = true →
      (s.spi.any fun a => !a.done) = false →
      completes (.spiFrame cmd addr data) s fun t =>
        (addr.toNat % 4 ≠ 0 → t.ansOf .spi = ⟨rspUnmapped, 0, none⟩ ∧ t.regs = s.regs) ∧
        (addr.toNat % 4 = 0 → t = State.answered .spi (({ s with spi := some { hub := s.hubId, off := addr.toNat, write := decide (cmd = 0x02) } } : State).localAccess .spi addr.toNat (decide (cmd = 0x02)) data 15 none))) ∧
    (∀ (s : State) (cmd : BitVec 8) (addr : BitVec 32) (data : Word),
      ((cmd ≠ 0x02 ∧ cmd ≠ 0x0B) ∨ s.gs.fused = false ∨ (s.spi.any fun a => !a.done) = true) →
      completes (.spiFrame cmd addr data) s fun t =>
        t = s) ∧
    (∀ (s : State) (cmd : BitVec 8) (addr : BitVec 32) (data : Word),
      (s.spi.any fun a => !a.done) = false →
      completes (.spiAbort cmd addr data) s fun t =>
        ((cmd = 0x02 ∨ cmd = 0x0B) → s.gs.fused = true → t.spi = none ∧ t.fg 0x021 HOST_CNT_SPI_ABORT = min ((s.spiAccess cmd.toNat addr.toNat data).fg 0x021 HOST_CNT_SPI_ABORT + 1) (2 ^ HOST_CNT_SPI_ABORT.w - 1)) ∧
        (¬((cmd = 0x02 ∨ cmd = 0x0B) ∧ s.gs.fused = true) → t = s)) ∧
    (∀ (s : State) (cmd : BitVec 8) (addr : BitVec 32) (data : Word) (a : Acc),
      s.spi = some a →
      a.done = false →
      completes (.spiAbort cmd addr data) s fun t =>
        t.spi = none ∧
        t.fg 0x021 HOST_CNT_SPI_ABORT = min (s.fg 0x021 HOST_CNT_SPI_ABORT + 1) (2 ^ HOST_CNT_SPI_ABORT.w - 1) ∧
        onlyRegs [(0x021, HOST_CNT_SPI_ABORT.off)] s t ∧
        t.ans = s.ans)

/-- CANOPY_WRITE, and the third word of a CANOPY_PACKED_WRITE: the group takes the grains written; in the guard the write is held until the
boundary. A latched input's group takes none. With the bridge or the scan unit not READY they answer NOT_READY, beyond the image UNMAPPED.
CANOPY_PACKED_READ of word 0 takes a snapshot of a group without error and answers from it; the other words answer from a snapshot of their
group while it is valid. A group with an uncorrectable error answers REMOTE_ERROR. INCOMING_REQUEST: a request that no earlier posted write
of its flow precedes is served, a read of one word with its completion; one that finds no incoming tag free answers RETRY; a completion or
signal in front waits for its own command. FAR_FENCE_COMPLETE answers the oldest fence whose source has no earlier request left, with the
last sequence number seen. -/
def Obligations.CanopyViewsAndIncomingRequests : Prop :=
    (∀ (s : State) (who : Initiator) (img : Image) (word : Nat) (data : Word) (be : BitVec 4),
      word < 16384 →
      (s.ready 0x020 = true ∧ s.ready 0x01C = true) →
      (¬(img = .input ∧ word / 4 < 96)) →
      completes (.canopyWrite who img word data be) s fun t =>
        (s.fb 0x01C SC_STATUS_GUARDING = false → t.grpNew (grpKey img (word / 4)) = (s.grpNew (grpKey img (word / 4)) &&& ~~~ spreadMask word be) ||| (spreadVal word data &&& spreadMask word be)) ∧
        (s.fb 0x01C SC_STATUS_GUARDING = false → (t.ansOf who).rsp = rspOk) ∧
        (s.fb 0x01C SC_STATUS_GUARDING = true → t.scan.held = s.scan.held ++ [(grpKey img (word / 4), spreadMask word be, spreadVal word data)] ∧ t.scan.waits = s.scan.waits ++ [(who, none)] ∧ t.scan.vis = s.scan.vis)) ∧
    (∀ (s : State) (who : Initiator) (img : Image) (word : Nat) (data : Word) (be : BitVec 4),
      completes (.canopyWrite who img word data be) s fun t =>
        (16384 ≤ word → (t.ansOf who).rsp = rspUnmapped ∧ t.scan.vis = s.scan.vis ∧ t.scan.hid = s.scan.hid) ∧
        (word < 16384 → s.ready 0x020 = false ∨ s.ready 0x01C = false → (t.ansOf who).rsp = rspNotReady ∧ t.scan.vis = s.scan.vis ∧ t.scan.hid = s.scan.hid) ∧
        (word < 16384 → s.ready 0x020 = true → s.ready 0x01C = true → img = .input → word / 4 < 96 → (t.ansOf who).rsp = rspOk ∧ t.scan.vis = s.scan.vis ∧ t.scan.hid = s.scan.hid)) ∧
    (∀ (s : State) (who : Initiator) (img : Image) (group : Nat) (word : Fin 3) (data : Word) (be : BitVec 4),
      completes (.canopyPackedWrite who img group word data be) s fun t =>
        (4096 ≤ group → (t.ansOf who).rsp = rspUnmapped) ∧
        (group < 4096 → s.ready 0x020 = false ∨ s.ready 0x01C = false → (t.ansOf who).rsp = rspNotReady) ∧
        ((group < 4096 ∧ s.ready 0x020 = true ∧ s.ready 0x01C = true ∧ s.scan.packs.getD who.idx none = none) → (t.ansOf who).rsp = rspOk ∧ t.scan.vis = s.scan.vis ∧ t.scan.hid = s.scan.hid) ∧
        ((group < 4096 ∧ s.ready 0x020 = true ∧ s.ready 0x01C = true ∧ s.scan.packs.getD who.idx none = none) → ((t.scan.packs.getD who.idx none).map fun k => k.got) = some (setBit 0 word.val true))) ∧
    (∀ (s : State) (who : Initiator) (img : Image) (group : Nat) (word : Fin 3) (data : Word) (k : Pack),
      group < 4096 →
      (s.ready 0x020 = true ∧ s.ready 0x01C = true) →
      (¬(img = .input ∧ group < 96)) →
      s.scan.packs.getD who.idx none = some k →
      (k.img = img ∧ k.group = group) →
      setBit k.got word.val true = 7 →
      s.fb 0x01C SC_STATUS_GUARDING = false →
      completes (.canopyPackedWrite who img group word data 15) s fun t =>
        t.grpNew (grpKey img group) = (let bm : BitVec 96 := (beMask 15).zeroExtend 96 <<< (32 * word.val); let v := (k.val &&& ~~~ bm) ||| ((data.zeroExtend 96 <<< (32 * word.val)) &&& bm); (s.grpNew (grpKey img group) &&& ~~~ (k.mask ||| bm)) ||| (v &&& (k.mask ||| bm))) ∧
        (t.ansOf who).rsp = rspOk ∧
        t.scan.packs.getD who.idx none = none) ∧
    (∀ (s : State) (who : Initiator) (img : Image) (group : Nat),
      group < 4096 →
      (s.ready 0x020 = true ∧ s.ready 0x01C = true) →
      s.copyBad (s.copyKey (grpKey img group) (s.scan.hid.getD (grpKey img group) none).isSome) = false →
      completes (.canopyPackedRead who img group 0) s fun t =>
        t.ansOf who = ⟨rspOk, (s.grpVis (grpKey img group)).setWidth 32, none⟩ ∧
        t.scan.snaps.getD who.idx none = some (grpKey img group, s.grpVis (grpKey img group)) ∧
        t.scan.vis = s.scan.vis) ∧
    (∀ (s : State) (who : Initiator) (img : Image) (group : Nat) (word : Fin 3),
      group < 4096 →
      (s.ready 0x020 = true ∧ s.ready 0x01C = true) →
      s.copyBad (s.copyKey (grpKey img group) (s.scan.hid.getD (grpKey img group) none).isSome) = true →
      (word.val = 0 ∨ s.scan.snaps.getD who.idx none = none) →
      completes (.canopyPackedRead who img group word) s fun t =>
        t.ansOf who = ⟨rspRemote, 0, none⟩) ∧
    (∀ (s : State) (who : Initiator) (img : Image) (group : Nat) (word : Fin 3) (v : BitVec 96),
      group < 4096 →
      (s.ready 0x020 = true ∧ s.ready 0x01C = true) →
      word.val ≠ 0 →
      s.scan.packs.getD who.idx none = none →
      s.scan.snaps.getD who.idx none = some (grpKey img group, v) →
      completes (.canopyPackedRead who img group word) s fun t =>
        t.ansOf who = ⟨rspOk, (v >>> (32 * word.val)).setWidth 32, none⟩ ∧
        t.regs = s.regs) ∧
    (∀ (s : State) (who : Initiator) (img : Image) (group : Nat) (word : Fin 3),
      completes (.canopyPackedRead who img group word) s fun t =>
        (4096 ≤ group → t.ansOf who = ⟨rspUnmapped, 0, none⟩) ∧
        (group < 4096 → s.ready 0x020 = false ∨ s.ready 0x01C = false → t.ansOf who = ⟨rspNotReady, 0, none⟩)) ∧
    (∀ (s : State) (f : Frame) (rest : List Frame),
      (s.core.inbox.getD portBridge [] = f :: rest) →
      (f.hdr.cls = .T ∧ f.hdr.mtype = 0x00 ∧ f.hdr.words = 1 ∧ f.payload = []) →
      s.br.serving.length < 256 →
      (s.owed.any fun g => decide (g.hdr.mtype = 0x05) && f.sameFlow g) = false →
      f.hdr.offset < 2 ^ 24 →
      completes (.incomingRequest) s fun t =>
        (let x := ({ s with core := { s.core with inbox := s.core.inbox.put portBridge rest [] }, br := { s.br with serving := s.br.serving ++ [f] } } : State).localAccess .ring f.hdr.offset false 0 15 none; t = ({ x.1 with br := { x.1.br with serving := x.1.br.serving.erase f } } : State).complete f (x.2.getD (0, 0)).1 false (if (x.2.getD (0, 0)).1 = rspOk then leBytes (x.2.getD (0, 0)).2.toNat 4 else []))) ∧
    (∀ (s : State) (f : Frame) (rest : List Frame),
      (s.core.inbox.getD portBridge [] = f :: rest) →
      f.hdr.cls = .T →
      (s.owed.any fun g => decide (g.hdr.mtype = 0x05) && f.sameFlow g) = false →
      completes (.incomingRequest) s fun t =>
        ((f.hdr.mtype = 0x00 ∨ f.hdr.mtype = 0x01 ∨ f.hdr.mtype = 0x04) → s.br.serving.length < 256 → t = ({ s with core := { s.core with inbox := s.core.inbox.put portBridge rest [] }, br := { s.br with serving := s.br.serving ++ [f] } } : State).serve f) ∧
        ((f.hdr.mtype = 0x00 ∨ f.hdr.mtype = 0x01 ∨ f.hdr.mtype = 0x04) → 256 ≤ s.br.serving.length → t = ({ s with core := { s.core with inbox := s.core.inbox.put portBridge rest [] } } : State).complete f rspRetry false []) ∧
        (f.hdr.mtype = 0x05 → t = ({ s with core := { s.core with inbox := s.core.inbox.put portBridge rest [] } } : State).serve f) ∧
        (f.hdr.mtype = 0x06 → f.payload.length = 4 → t.br.farFences = s.br.farFences ++ [f] ∧ t.regs = s.regs) ∧
        ((f.hdr.mtype = 0x08 ∨ f.hdr.mtype = 0x09 ∨ f.hdr.mtype = 0x18) → t = s)) ∧
    (∀ (s : State),
      ((s.core.inbox.getD portBridge []).head?.all fun f => decide (f.hdr.cls = .T) && decide (f.hdr.mtype ≠ 0x08) && decide (f.hdr.mtype ≠ 0x09) && decide (f.hdr.mtype ≠ 0x18) && s.owed.any fun g => decide (g.hdr.mtype = 0x05) && f.sameFlow g) = true →
      completes (.incomingRequest) s fun t =>
        t = s) ∧
    (∀ (s : State),
      s.br.farFences.find? (fun f => !s.owes f.hdr.src) = none →
      completes (.farFenceComplete) s fun t =>
        t = s) ∧
    (∀ (s : State) (f : Frame),
      s.br.farFences.find? (fun f => !s.owes f.hdr.src) = some f →
      completes (.farFenceComplete) s fun t =>
        t.br.farFences = s.br.farFences.erase f ∧
        t.ingress.getD portBridge [] = s.ingress.getD portBridge [] ++ [(let e := s.br.seq.getD (seqKey f.hdr.src (leAt f.payload 0 1 % 32)) {}; let x : Frame := { hdr := { cls := .T, mtype := 0x08, dst := f.hdr.src, src := s.hubId, stream := f.hdr.stream, arg := f.hdr.tag + 256 * (if e.gap then rspRemote else rspOk) + 4096 + 65536 * e.wseq } }; { frame := x, route := .desc (descRing x) })] ∧
        (t.br.seq.getD (seqKey f.hdr.src (leAt f.payload 0 1 % 32)) {}).gap = false ∧
        t.regs = s.regs)

/-- FORWARD_REQUEST_SEND: the first waiting request that may be sent to a live hub leaves under its tag, to one that is not live it ends with
UNMAPPED; a posted write leaves and is complete; with none nothing changes. COMPLETION_RECEIVED for a tag sent ends its access with the
response and data and frees the tag; RETRY marks it to be sent again; for any other tag it counts as LATE_CPL. With no completion in front
of what the bridge has received nothing changes. LATE_WR_RECEIVED marks its window's fence, raises LATE_WRITE and, while the log has room,
makes an entry, else counts it as dropped. With none in front nothing changes. TRANSACTION_TIMEOUT of a tag not in quarantine ends its
access with TIMEOUT and puts the tag there; TAG_QUARANTINE_END frees it; REQUEST_RESEND sends a request answered with RETRY again. Of any
other tag they change nothing. SLOT_EXPIRED of a slot in READY, PEEKED or TAKEN frees it with SLOT_EXPIRED; a take it held is lost. Another
slot stays. FENCE_START with GO where no fence runs and the window posted nothing since the last, or has no one hub: it ends at once with
OK, or REMOTE_ERROR where ERR is set; where it posted, BUSY is 1 and the FENCE leaves or waits. Without GO, or with BUSY 1, it does nothing.
SIGNAL_SEND puts the signal's frame at the bridge's port, to the hub named or to its window's, and with no one hub counts NO_DEST;
SIGNAL_RECEIVED sets the signal's pending bit and BR_SIG_LAST, for one of class T after the earlier requests of its flow. TXF_SEND of a
buffer whose length its class allows stages the frame with this hub as its source and BUSY 1; refused, RESULT says why; without GO nothing
happens. TXF_WRITE_DONE, once it has left the port, ends it with RESULT 1, and changes nothing else. -/
def Obligations.BridgeCommands : Prop :=
    (∀ (s : State) (f : Fwd) (tag : Nat) (rest : List Fwd),
      s.firstSend s.br.waits = some (f, tag, rest) →
      f.posted = false →
      s.live f.frame.hdr.dst = true →
      completes (.forwardRequestSend) s fun t =>
        t = ({ s with br := { s.br with waits := rest } } : State).sendFwd f tag ∧
        t.br.waits = rest ∧
        t.regs = s.regs ∧
        (t.tagOf tag).isSome = true) ∧
    (∀ (s : State) (f : Fwd) (tag : Nat) (rest : List Fwd),
      s.firstSend s.br.waits = some (f, tag, rest) →
      completes (.forwardRequestSend) s fun t =>
        (f.posted = false → s.live f.frame.hdr.dst = false → t = (({ s with br := { s.br with waits := rest } } : State).inc 0x020 BR_CNT_NO_DEST_COUNT).endFwd f rspUnmapped 0 false) ∧
        (f.posted = true → t = (({ s with br := { s.br with waits := rest } } : State).postWrite f.win f.frame.hdr.dst f.frame.hdr.arg (BitVec.ofNat 32 (leAt f.frame.payload 4 4)) (BitVec.ofNat 4 (leAt f.frame.payload 0 1))).endFwd f rspOk 0 false)) ∧
    (∀ (s : State),
      s.firstSend s.br.waits = none →
      completes (.forwardRequestSend) s fun t =>
        t = s) ∧
    (∀ (s : State) (f : Frame) (rest : List Frame) (x : Txn),
      (s.core.inbox.getD portBridge [] = f :: rest) →
      (f.hdr.cls = .T ∧ f.hdr.mtype = 0x08) →
      s.tagOf (f.hdr.argBits 0 8) = some x →
      x.phase = .sent →
      x.fwd.holder = .access .host →
      completes (.completionReceived) s fun t =>
        (f.hdr.argBits 8 3 ≠ rspRetry → t.tagOf (f.hdr.argBits 0 8) = none ∧ t.ansOf .host = ⟨f.hdr.argBits 8 3, if f.hdr.argBits 8 3 = rspOk then BitVec.ofNat 32 (leAt f.payload 0 4) else 0, none⟩) ∧
        (f.hdr.argBits 8 3 = rspRetry → t.tagOf (f.hdr.argBits 0 8) = some { x with phase := .again }) ∧
        t.core.inbox.getD portBridge [] = rest ∧
        t.regs = s.regs) ∧
    (∀ (s : State) (f : Frame) (rest : List Frame) (x : Txn),
      (s.core.inbox.getD portBridge [] = f :: rest) →
      (f.hdr.cls = .T ∧ f.hdr.mtype = 0x08) →
      s.tagOf (f.hdr.argBits 0 8) = some x →
      x.phase = .sent →
      completes (.completionReceived) s fun t =>
        (f.hdr.argBits 8 3 ≠ rspRetry → t = (({ s with core := { s.core with inbox := s.core.inbox.put portBridge rest [] } } : State).setTag (f.hdr.argBits 0 8) none).endFwd x.fwd (f.hdr.argBits 8 3) (if x.fwd.holder.isFence then BitVec.ofNat 32 (f.hdr.argBits 16 16) else if f.hdr.argBits 8 3 = rspOk then BitVec.ofNat 32 (leAt f.payload 0 4) else 0) (decide (f.hdr.argBits 11 1 = 1))) ∧
        (f.hdr.argBits 8 3 = rspRetry → t = ({ s with core := { s.core with inbox := s.core.inbox.put portBridge rest [] } } : State).setTag (f.hdr.argBits 0 8) (some { x with phase := .again }))) ∧
    (∀ (s : State),
      ((s.core.inbox.getD portBridge []).head?.all fun f => decide (f.hdr.cls ≠ .T) || decide (f.hdr.mtype ≠ 0x08)) = true →
      completes (.completionReceived) s fun t =>
        t = s) ∧
    (∀ (s : State) (f : Frame) (rest : List Frame),
      (s.core.inbox.getD portBridge [] = f :: rest) →
      (f.hdr.cls = .T ∧ f.hdr.mtype = 0x08) →
      ((s.tagOf (f.hdr.argBits 0 8)).all fun x => decide (x.phase ≠ .sent)) = true →
      completes (.completionReceived) s fun t =>
        t.event 0x020 EV_BR_LATE_CPL = true ∧
        t.fg 0x020 BR_CNT_LATE_CPL_COUNT = min (s.fg 0x020 BR_CNT_LATE_CPL_COUNT + 1) (2 ^ BR_CNT_LATE_CPL_COUNT.w - 1) ∧
        t.br = s.br) ∧
    (∀ (s : State) (f : Frame) (rest : List Frame),
      (s.core.inbox.getD portBridge [] = f :: rest) →
      (f.hdr.cls = .T ∧ f.hdr.mtype = 0x09) →
      completes (.lateWrReceived) s fun t =>
        t.core.inbox.getD portBridge [] = rest ∧
        t.win BR_WIN_FENCE_ERR (f.hdr.argBits 0 8 % 32) = 1 ∧
        t.event 0x020 EV_BR_LATE_WRITE = true ∧
        ((s.fg 0x020 BR_PWLOG_STAT_TOTAL + 65536 - s.fg 0x020 BR_PWLOG_ACK_ACK) % 65536 = 32 → t.fg 0x020 BR_PWLOG_STAT_DROPPED = min (s.fg 0x020 BR_PWLOG_STAT_DROPPED + 1) (2 ^ BR_PWLOG_STAT_DROPPED.w - 1) ∧ t.event 0x020 EV_BR_LOG_OVERFLOW = true) ∧
        ((s.fg 0x020 BR_PWLOG_STAT_TOTAL + 65536 - s.fg 0x020 BR_PWLOG_ACK_ACK) % 65536 ≠ 32 → t.fg 0x020 BR_PWLOG_STAT_TOTAL = (s.fg 0x020 BR_PWLOG_STAT_TOTAL + 1) % 65536) ∧
        ((s.fg 0x020 BR_PWLOG_STAT_TOTAL + 65536 - s.fg 0x020 BR_PWLOG_ACK_ACK) % 65536 ≠ 32 → t.rd 0x020 (BR_PWLOG2 + 0x10 * (s.fg 0x020 BR_PWLOG_STAT_TOTAL % 32)) = BitVec.ofNat 32 (leAt f.payload 0 5 % 2 ^ 33))) ∧
    (∀ (s : State),
      ((s.core.inbox.getD portBridge []).head?.all fun f => decide (f.hdr.cls ≠ .T) || decide (f.hdr.mtype ≠ 0x09)) = true →
      completes (.lateWrReceived) s fun t =>
        t = s) ∧
    (∀ (s : State) (tag : Tag) (x : Txn),
      s.tagOf tag.val = some x →
      x.phase ≠ .quarantined →
      completes (.transactionTimeout tag) s fun t =>
        t.tagOf tag.val = some { x with phase := .quarantined } ∧
        (x.fwd.holder = .access .host → t.ansOf .host = ⟨rspTimeout, 0, none⟩) ∧
        (x.phase = .unsent → t.ingress.getD portBridge [] = (s.ingress.getD portBridge []).filter (fun y => y.soft || decide (y.frame ≠ x.fwd.frame))) ∧
        t.event 0x020 EV_BR_TIMEOUT = true ∧
        t.fg 0x020 BR_CNT_TIMEOUT_COUNT = min (s.fg 0x020 BR_CNT_TIMEOUT_COUNT + 1) (2 ^ BR_CNT_TIMEOUT_COUNT.w - 1)) ∧
    (∀ (s : State) (tag : Tag) (x : Txn),
      s.tagOf tag.val = some x →
      x.phase = .quarantined →
      completes (.tagQuarantineEnd tag) s fun t =>
        t = s.setTag tag.val none ∧
        t.tagOf tag.val = none) ∧
    (∀ (s : State) (tag : Tag),
      ((s.tagOf tag.val).all fun x => decide (x.phase = .quarantined)) = true →
      completes (.transactionTimeout tag) s fun t =>
        t = s) ∧
    (∀ (s : State) (tag : Tag),
      ((s.tagOf tag.val).all fun x => decide (x.phase ≠ .quarantined)) = true →
      completes (.tagQuarantineEnd tag) s fun t =>
        t = s) ∧
    (∀ (s : State) (tag : Tag),
      ((s.tagOf tag.val).all fun x => decide (x.phase ≠ .again)) = true →
      completes (.requestResend tag) s fun t =>
        t = s) ∧
    (∀ (s : State) (tag : Tag) (x : Txn),
      s.tagOf tag.val = some x →
      x.phase = .again →
      completes (.requestResend tag) s fun t =>
        t.tagOf tag.val = some { x with phase := .unsent } ∧
        t.ingress.getD portBridge [] = s.ingress.getD portBridge [] ++ [{ frame := x.fwd.frame, route := .desc (descRing x.fwd.frame) }] ∧
        t.fg 0x020 BR_CNT_RESEND_COUNT = min (s.fg 0x020 BR_CNT_RESEND_COUNT + 1) (2 ^ BR_CNT_RESEND_COUNT.w - 1)) ∧
    (∀ (s : State) (slot : Fin 16) (x : Slot),
      s.slot slot.val = some x →
      (x.state = 2 ∨ x.state = 3 ∨ x.state = 5) →
      completes (.slotExpired slot) s fun t =>
        t.slot slot.val = none ∧
        t.event 0x020 EV_BR_SLOT_EXPIRED = true ∧
        t.fg 0x020 BR_CNT_SLOT_EXP_COUNT = min (s.fg 0x020 BR_CNT_SLOT_EXP_COUNT + 1) (2 ^ BR_CNT_SLOT_EXP_COUNT.w - 1) ∧
        ((x.state = 5 ∧ x.rsp = rspOk) → t.rd 0x020 BR_TL_DATA = x.held ∧ t.event 0x020 EV_BR_TAKE_LOST = true)) ∧
    (∀ (s : State) (slot : Fin 16),
      ((s.slot slot.val).all fun x => decide (x.state ≠ 2) && decide (x.state ≠ 3) && decide (x.state ≠ 5)) = true →
      completes (.slotExpired slot) s fun t =>
        t = s) ∧
    (∀ (s : State) (who : Initiator) (win : Win) (v : Word),
      s.accepts who 0x020 (BR_WIN_FENCE + 0x10 * win.val) = true →
      BR_WIN_FENCE_GO.get v = 1 →
      s.win BR_WIN_FENCE_BUSY win.val = 0 →
      (s.br.posted.contains win.val = false ∨ s.winHub win.val = none) →
      completes (.fenceStart who win v) s fun t =>
        t.win BR_WIN_FENCE_BUSY win.val = 0 ∧
        (t.win BR_WIN_FENCE_RESULT win.val = if s.win BR_WIN_FENCE_ERR win.val = 1 then rspRemote else rspOk) ∧
        t.win BR_WIN_FENCE_ERR win.val = 0 ∧
        t.ansOf who = ⟨rspOk, 0, none⟩) ∧
    (∀ (s : State) (who : Initiator) (win : Win) (v : Word) (hub : Nat),
      s.accepts who 0x020 (BR_WIN_FENCE + 0x10 * win.val) = true →
      BR_WIN_FENCE_GO.get v = 1 →
      s.win BR_WIN_FENCE_BUSY win.val = 0 →
      s.br.posted.contains win.val = true →
      s.winHub win.val = some hub →
      s.live hub = true →
      completes (.fenceStart who win v) s fun t =>
        t.win BR_WIN_FENCE_BUSY win.val = 1 ∧
        t.br = ((s.fs 0x020 (winF BR_WIN_FENCE_BUSY win.val) 1).forward { win := win.val, holder := .fence win.val, frame := s.reqFrame win.val hub 0 0x06 [], late := s.winHeld win.val }).br) ∧
    (∀ (s : State) (who : Initiator) (win : Win) (v : Word),
      s.accepts who 0x020 (BR_WIN_FENCE + 0x10 * win.val) = true →
      (BR_WIN_FENCE_GO.get v = 0 ∨ s.win BR_WIN_FENCE_BUSY win.val = 1) →
      completes (.fenceStart who win v) s fun t =>
        (t.br = s.br ∧ t.ansOf who = ⟨rspOk, 0, none⟩) ∧
        onlyRegs [(0x01C, EVT_STATUS)] s t) ∧
    (∀ (s : State) (who : Initiator) (v : Word),
      s.accepts who 0x020 BR_SIG_SEND = true →
      BR_SIG_SEND_GO.get v = 1 →
      BR_SIG_SEND_VIA_WIN.get v = 0 →
      completes (.signalSend who v) s fun t =>
        ((t.ingress.getD portBridge []).getLast?.map (·.frame)) = some (signalFrame (if BR_SIG_SEND_CLASS_T.get v = 1 then .T else .E) (BR_SIG_SEND_HUB.get v) (BR_SIG_SEND_STREAM.get v) s.hubId (BR_SIG_SEND_SIG.get v) 0xFFF) ∧
        t.ansOf who = ⟨rspOk, 0, none⟩ ∧
        onlyRegs [(0x01C, EVT_STATUS)] s t) ∧
    (∀ (s : State) (who : Initiator) (v : Word),
      s.accepts who 0x020 BR_SIG_SEND = true →
      completes (.signalSend who v) s fun t =>
        (BR_SIG_SEND_GO.get v = 1 → BR_SIG_SEND_VIA_WIN.get v = 1 → s.winHub (BR_SIG_SEND_WIN.get v) = none → t.fg 0x020 BR_CNT_NO_DEST_COUNT = min (s.fg 0x020 BR_CNT_NO_DEST_COUNT + 1) (2 ^ BR_CNT_NO_DEST_COUNT.w - 1) ∧ t.ingress = s.ingress) ∧
        (BR_SIG_SEND_GO.get v = 0 → t.ingress = s.ingress ∧ t.br = s.br) ∧
        t.ansOf who = ⟨rspOk, 0, none⟩) ∧
    (∀ (s : State) (who : Initiator) (v : Word) (hub : Nat),
      s.accepts who 0x020 BR_SIG_SEND = true →
      BR_SIG_SEND_GO.get v = 1 →
      BR_SIG_SEND_VIA_WIN.get v = 1 →
      s.winHub (BR_SIG_SEND_WIN.get v) = some hub →
      completes (.signalSend who v) s fun t =>
        ((t.ingress.getD portBridge []).getLast?.map (·.frame)) = some (signalFrame .T hub (s.win BR_WIN_TGT_STREAM (BR_SIG_SEND_WIN.get v)) s.hubId (BR_SIG_SEND_SIG.get v) 0xFFF) ∧
        t.ansOf who = ⟨rspOk, 0, none⟩) ∧
    (∀ (s : State),
      ((s.core.inbox.getD portBridge []).head?.all fun f => decide (f.hdr.mtype ≠ 0x18) || (decide (f.hdr.cls ≠ .T) && decide (f.hdr.cls ≠ .E)) || (decide (f.hdr.cls = .T) && s.owed.any f.sameFlow)) = true →
      completes (.signalReceived) s fun t =>
        t = s) ∧
    (∀ (s : State) (f : Frame) (rest : List Frame),
      (s.core.inbox.getD portBridge [] = f :: rest) →
      (f.hdr.mtype = 0x18 ∧ (f.hdr.cls = .T ∨ f.hdr.cls = .E)) →
      (f.hdr.cls = .E ∨ s.owed.any f.sameFlow = false) →
      completes (.signalReceived) s fun t =>
        (t.rd 0x020 (BR_SIG_PEND + f.hdr.argBits 0 8 / 32 * 4)).getLsbD (f.hdr.argBits 0 8 % 32) = true ∧
        t.fg 0x020 BR_SIG_LAST_SIG = f.hdr.argBits 0 8 ∧
        t.fg 0x020 BR_SIG_LAST_PAGE = f.hdr.argBits 8 12 ∧
        t.core.inbox.getD portBridge [] = rest ∧
        onlyRegs [(0x020, BR_SIG_PEND + f.hdr.argBits 0 8 / 32 * 4), (0x020, BR_SIG_LAST)] s t) ∧
    (∀ (s : State) (who : Initiator) (v : Word),
      s.accepts who 0x020 BR_TXF_CMD = true →
      BR_TXF_CMD_GO.get v = 1 →
      s.fb 0x020 BR_TXF_STATUS_BUSY = false →
      BR_TXF_CMD_P.get v ≤ (Hdr.ofBytes (s.txfBytes 12)).cls.maxP →
      BR_TXF_CMD_P.get v % 4 = 0 →
      (BR_TXF_CMD_DIRECT.get v = 0 ∨ (12 ≤ BR_TXF_CMD_QUEUE.get v ∧ BR_TXF_CMD_QUEUE.get v ≤ 959)) →
      completes (.txfSend who v) s fun t =>
        t.fg 0x020 BR_TXF_STATUS_BUSY = 1 ∧
        t.fg 0x020 BR_TXF_STATUS_RESULT = 0 ∧
        ((t.ingress.getD portBridge []).getLast?.map (·.frame)) = some { hdr := { Hdr.ofBytes (s.txfBytes 12) with src := s.hubId, ll := false, wraps := 0 }, payload := (s.txfBytes (12 + BR_TXF_CMD_P.get v)).drop 12 }) ∧
    (∀ (s : State) (who : Initiator) (v : Word),
      s.accepts who 0x020 BR_TXF_CMD = true →
      completes (.txfSend who v) s fun t =>
        (BR_TXF_CMD_GO.get v = 0 → t.ingress = s.ingress ∧ t.fg 0x020 BR_TXF_STATUS_RESULT = s.fg 0x020 BR_TXF_STATUS_RESULT) ∧
        (BR_TXF_CMD_GO.get v = 1 → s.fb 0x020 BR_TXF_STATUS_BUSY = true → t.ingress = s.ingress ∧ t.fg 0x020 BR_TXF_STATUS_RESULT = 4) ∧
        ((BR_TXF_CMD_GO.get v = 1 ∧ s.fb 0x020 BR_TXF_STATUS_BUSY = false ∧ ((Hdr.ofBytes (s.txfBytes 12)).cls.maxP < BR_TXF_CMD_P.get v ∨ BR_TXF_CMD_P.get v % 4 ≠ 0)) → t.ingress = s.ingress ∧ t.fg 0x020 BR_TXF_STATUS_RESULT = 2 ∧ t.event 0x020 EV_BR_TXF_REFUSED = true) ∧
        ((BR_TXF_CMD_GO.get v = 1 ∧ s.fb 0x020 BR_TXF_STATUS_BUSY = false ∧ BR_TXF_CMD_P.get v ≤ (Hdr.ofBytes (s.txfBytes 12)).cls.maxP ∧ BR_TXF_CMD_P.get v % 4 = 0 ∧ BR_TXF_CMD_DIRECT.get v = 1 ∧ (BR_TXF_CMD_QUEUE.get v < 12 ∨ 959 < BR_TXF_CMD_QUEUE.get v)) → t.ingress = s.ingress ∧ t.fg 0x020 BR_TXF_STATUS_RESULT = 3 ∧ t.event 0x020 EV_BR_TXF_REFUSED = true) ∧
        t.ansOf who = ⟨rspOk, 0, none⟩) ∧
    (∀ (s : State),
      (s.fb 0x020 BR_TXF_STATUS_BUSY = false ∨ ((s.ingress.getD portBridge []).any (·.soft)) = true ∨ (s.ing portBridge).busy = true) →
      completes (.txfWriteDone) s fun t =>
        t = s) ∧
    (∀ (s : State),
      s.fb 0x020 BR_TXF_STATUS_BUSY = true →
      ((s.ingress.getD portBridge []).any (·.soft)) = false →
      (s.ing portBridge).busy = false →
      completes (.txfWriteDone) s fun t =>
        t.fg 0x020 BR_TXF_STATUS_BUSY = 0 ∧
        t.fg 0x020 BR_TXF_STATUS_RESULT = 1 ∧
        onlyRegs [(0x020, BR_TXF_STATUS)] s t)

/-! ### Power and the control link (chapters 1 and 15) -/

/-- Registers of the pitch's page alone change, except where a page's interrupt is a signal. Where the condition does not hold nothing changes.
PRESENCE_CHANGE shows the filtered pins with PRESENT_CHG; in EMPTY a presence starts INSERT, or STANDBY where the role holds the channel;
its loss in a powered state takes the gate off with CAUSE 7. INSERT_CONDITION_MET, RAMP_REACHED, ENHANCE_DONE: with their condition the next
state follows: PRECHECK with INSERTIONS counted, ENHANCE, ON. PRECHECK_DONE: an output below 2 V puts the gate on and starts RAMP; any
other, and RAMP_TIMEOUT with the output still low, latch the channel with POLE_SHORT or POLE_OPEN. POWER_GOOD_GIVEN in ON with every breaker
timer 0: PG 1 and PG_UP; ATTEMPTS_CLEAR with PG 1: ATTEMPTS 0. BUS_WINDOW_FAULT after FILT µs outside the window, SEAT_OPEN_EXTRACT,
INSTANT_TRIP and BREAKER_TRIP of a powered channel take the gate off and withdraw power-good, with CAUSE 5, 6, 2 and 1; a trip counts, and
goes to COOL, or LATCHED after more than RETRY. COOL_DONE starts INSERT without delay, or STANDBY where the role holds the channel.
CLEAR_LATCH and RDS_CAPTURE travel to the supervisor die; RDS_MEASURE in ON with a current code of 100 or more records the on-resistance. -/
def Obligations.PitchPowerChannel : Prop :=
    (∀ (s : State) (pitch : Pitch) (pres seat : Bool),
      completes (.presenceChange pitch pres seat) s fun t =>
        (t.fg (ppPage pitch.val) PP_STATUS_PRESENT = bit pres ∧ t.fg (ppPage pitch.val) PP_STATUS_SEATED = bit seat) ∧
        (s.fb (ppPage pitch.val) PP_STATUS_PRESENT ≠ pres → t.event (ppPage pitch.val) EV_PP_PRESENT_CHG = true) ∧
        ((s.ppState pitch.val = 1 ∧ pres = true ∧ s.ppHeld pitch.val = false) → t.ppState pitch.val = 2) ∧
        ((s.ppState pitch.val = 1 ∧ pres = true ∧ s.ppHeld pitch.val = true) → t.ppState pitch.val = 10 ∧ t.fg (ppPage pitch.val) PP_STATUS_CAUSE = 9) ∧
        ((s.ppPowered pitch.val = true ∧ pres = false) → t.ppState pitch.val = (if s.enabled (ppPage pitch.val) then 1 else 0) ∧ t.fg (ppPage pitch.val) PP_STATUS_GATE = 0) ∧
        ((s.ppPowered pitch.val = true ∧ pres = false ∧ s.fb (ppPage pitch.val) PP_STATUS_GATE = true) → t.fg (ppPage pitch.val) PP_STATUS_CAUSE = 7) ∧
        onlyPages [ppPage pitch.val] s t) ∧
    (∀ (s : State) (pitch : Pitch),
      s.ppState pitch.val = 2 →
      s.fb (ppPage pitch.val) PP_STATUS_PRESENT = true →
      (if s.compat (ppPage pitch.val) then s.fb (ppPage pitch.val) PP_STATUS_SEATED else s.ppWindow pitch.val && ((s.pwr pitch.val).fast || decide (s.ppCfg pitch.val PP_INS_DELAY * 1000 ≤ (s.pwr pitch.val).ins))) = true →
      completes (.insertConditionMet pitch) s fun t =>
        t.ppState pitch.val = 3 ∧
        t.fg (ppPage pitch.val) PP_CNT_INSERTIONS = min (s.fg (ppPage pitch.val) PP_CNT_INSERTIONS + 1) (2 ^ PP_CNT_INSERTIONS.w - 1) ∧
        onlyRegs [(ppPage pitch.val, PP_STATUS), (ppPage pitch.val, PP_CNT)] s t) ∧
    (∀ (s : State) (pitch : Pitch),
      (s.ppState pitch.val ≠ 2 ∨ s.fb (ppPage pitch.val) PP_STATUS_PRESENT = false ∨ (if s.compat (ppPage pitch.val) then s.fb (ppPage pitch.val) PP_STATUS_SEATED else s.ppWindow pitch.val && ((s.pwr pitch.val).fast || decide (s.ppCfg pitch.val PP_INS_DELAY * 1000 ≤ (s.pwr pitch.val).ins))) = false) →
      completes (.insertConditionMet pitch) s fun t =>
        t = s) ∧
    (∀ (s : State) (pitch : Pitch),
      s.ppState pitch.val = 4 →
      s.supv.fd.vbus ≤ s.fg (ppPage pitch.val) PP_MEAS_VOUT + 5 →
      completes (.rampReached pitch) s fun t =>
        t.ppState pitch.val = 5 ∧
        onlyRegs [(ppPage pitch.val, PP_STATUS)] s t) ∧
    (∀ (s : State) (pitch : Pitch),
      s.ppState pitch.val = 5 →
      completes (.enhanceDone pitch) s fun t =>
        t.ppState pitch.val = 6 ∧
        onlyRegs [(ppPage pitch.val, PP_STATUS)] s t) ∧
    (∀ (s : State) (pitch : Pitch),
      (s.ppState pitch.val ≠ 4 ∨ s.fg (ppPage pitch.val) PP_MEAS_VOUT + 5 < s.supv.fd.vbus) →
      completes (.rampReached pitch) s fun t =>
        t = s) ∧
    (∀ (s : State) (pitch : Pitch),
      s.ppState pitch.val ≠ 5 →
      completes (.enhanceDone pitch) s fun t =>
        t = s) ∧
    (∀ (s : State) (pitch : Pitch),
      s.ppState pitch.val = 3 →
      completes (.precheckDone pitch) s fun t =>
        (s.fg (ppPage pitch.val) PP_MEAS_VOUT < 20 → t.ppState pitch.val = 4 ∧ t.fg (ppPage pitch.val) PP_STATUS_GATE = 1) ∧
        (20 ≤ s.fg (ppPage pitch.val) PP_MEAS_VOUT → t.ppState pitch.val = 8 ∧ t.fg (ppPage pitch.val) PP_STATUS_GATE = 0 ∧ t.fg (ppPage pitch.val) PP_STATUS_CAUSE = 3 ∧ t.event (ppPage pitch.val) EV_PP_POLE_SHORT = true) ∧
        onlyPages [ppPage pitch.val] s t) ∧
    (∀ (s : State) (pitch : Pitch),
      s.ppState pitch.val = 4 →
      s.fg (ppPage pitch.val) PP_MEAS_VOUT + 5 < s.supv.fd.vbus →
      completes (.rampTimeout pitch) s fun t =>
        (t.ppState pitch.val = 8 ∧ t.fg (ppPage pitch.val) PP_STATUS_GATE = 0 ∧ t.fg (ppPage pitch.val) PP_STATUS_CAUSE = 4) ∧
        t.event (ppPage pitch.val) EV_PP_POLE_OPEN = true ∧
        onlyPages [ppPage pitch.val] s t) ∧
    (∀ (s : State) (pitch : Pitch),
      s.ppState pitch.val ≠ 3 →
      completes (.precheckDone pitch) s fun t =>
        t = s) ∧
    (∀ (s : State) (pitch : Pitch),
      (s.ppState pitch.val ≠ 4 ∨ s.supv.fd.vbus ≤ s.fg (ppPage pitch.val) PP_MEAS_VOUT + 5) →
      completes (.rampTimeout pitch) s fun t =>
        t = s) ∧
    (∀ (s : State) (pitch : Pitch),
      s.ppState pitch.val = 6 →
      (s.pwr pitch.val).timers = [] →
      s.fb (ppPage pitch.val) PP_STATUS_PG = false →
      completes (.powerGoodGiven pitch) s fun t =>
        t.fg (ppPage pitch.val) PP_STATUS_PG = 1 ∧
        t.event (ppPage pitch.val) EV_PP_PG_UP = true ∧
        onlyRegs [(ppPage pitch.val, PP_STATUS), (ppPage pitch.val, EVT_STATUS)] s t) ∧
    (∀ (s : State) (pitch : Pitch),
      s.fb (ppPage pitch.val) PP_STATUS_PG = true →
      completes (.attemptsClear pitch) s fun t =>
        t.fg (ppPage pitch.val) PP_STATUS_ATTEMPTS = 0 ∧
        onlyRegs [(ppPage pitch.val, PP_STATUS)] s t) ∧
    (∀ (s : State) (pitch : Pitch),
      (s.ppState pitch.val ≠ 6 ∨ (s.pwr pitch.val).timers ≠ [] ∨ s.fb (ppPage pitch.val) PP_STATUS_PG = true) →
      completes (.powerGoodGiven pitch) s fun t =>
        t = s) ∧
    (∀ (s : State) (pitch : Pitch),
      s.fb (ppPage pitch.val) PP_STATUS_PG = false →
      completes (.attemptsClear pitch) s fun t =>
        t = s) ∧
    (∀ (s : State) (pitch : Pitch),
      s.ppPowered pitch.val = true →
      s.ppCfg pitch.val PP_WIN_FILT ≤ (s.pwr pitch.val).out →
      completes (.busWindowFault pitch) s fun t =>
        (t.fg (ppPage pitch.val) PP_STATUS_GATE = 0 ∧ t.fg (ppPage pitch.val) PP_STATUS_PG = 0) ∧
        (s.ppHeld pitch.val = false → t.ppState pitch.val = 2 ∧ t.fg (ppPage pitch.val) PP_STATUS_CAUSE = 5) ∧
        (s.ppHeld pitch.val = true → t.ppState pitch.val = 10 ∧ t.fg (ppPage pitch.val) PP_STATUS_CAUSE = 9) ∧
        t.event (ppPage pitch.val) EV_PP_BUS_WIN = true ∧
        onlyPages [ppPage pitch.val] s t) ∧
    (∀ (s : State) (pitch : Pitch),
      s.ppPowered pitch.val = true →
      completes (.seatOpenExtract pitch) s fun t =>
        (t.ppState pitch.val = 9 ∧ t.fg (ppPage pitch.val) PP_STATUS_GATE = 0 ∧ t.fg (ppPage pitch.val) PP_STATUS_PG = 0 ∧ t.fg (ppPage pitch.val) PP_STATUS_CAUSE = 6 ∧ t.fg (ppPage pitch.val) PP_STATUS_ATTEMPTS = 0) ∧
        t.event (ppPage pitch.val) EV_PP_EXTRACT = true ∧
        onlyPages [ppPage pitch.val] s t) ∧
    (∀ (s : State) (pitch : Pitch),
      s.ppPowered pitch.val = true →
      completes (.instantTrip pitch) s fun t =>
        (t.ppState pitch.val = (if s.ppCfg pitch.val PP_CFG_RETRY < s.fg (ppPage pitch.val) PP_STATUS_ATTEMPTS + 1 then 8 else 7) ∧ t.fg (ppPage pitch.val) PP_STATUS_GATE = 0 ∧ t.fg (ppPage pitch.val) PP_STATUS_PG = 0 ∧ t.fg (ppPage pitch.val) PP_STATUS_CAUSE = 2) ∧
        t.fg (ppPage pitch.val) PP_CNT_TRIPS = min (s.fg (ppPage pitch.val) PP_CNT_TRIPS + 1) (2 ^ PP_CNT_TRIPS.w - 1) ∧
        t.event (ppPage pitch.val) EV_PP_TRIP = true ∧
        onlyPages [ppPage pitch.val] s t) ∧
    (∀ (s : State) (pitch : Pitch),
      s.ppPowered pitch.val = true →
      s.tripPoints pitch.val ≠ [] →
      completes (.breakerTrip pitch) s fun t =>
        (t.ppState pitch.val = (if s.ppCfg pitch.val PP_CFG_RETRY < s.fg (ppPage pitch.val) PP_STATUS_ATTEMPTS + 1 then 8 else 7) ∧ t.fg (ppPage pitch.val) PP_STATUS_GATE = 0 ∧ t.fg (ppPage pitch.val) PP_STATUS_PG = 0 ∧ t.fg (ppPage pitch.val) PP_STATUS_CAUSE = 1) ∧
        t.fg (ppPage pitch.val) PP_STATUS_TRIP_POINT = s.pick (s.tripPoints pitch.val) % 2 ^ PP_STATUS_TRIP_POINT.w ∧
        t.event (ppPage pitch.val) EV_PP_TRIP = true ∧
        onlyPages [ppPage pitch.val] s t) ∧
    (∀ (s : State) (pitch : Pitch),
      (s.ppPowered pitch.val = false ∨ (s.pwr pitch.val).out < s.ppCfg pitch.val PP_WIN_FILT) →
      completes (.busWindowFault pitch) s fun t =>
        t = s) ∧
    (∀ (s : State) (pitch : Pitch),
      s.ppPowered pitch.val = false →
      completes (.seatOpenExtract pitch) s fun t =>
        t = s) ∧
    (∀ (s : State) (pitch : Pitch),
      s.ppPowered pitch.val = false →
      completes (.instantTrip pitch) s fun t =>
        t = s) ∧
    (∀ (s : State) (pitch : Pitch),
      (s.ppPowered pitch.val = false ∨ s.tripPoints pitch.val = []) →
      completes (.breakerTrip pitch) s fun t =>
        t = s) ∧
    (∀ (s : State) (pitch : Pitch),
      s.ppState pitch.val = 7 →
      completes (.coolDone pitch) s fun t =>
        (s.ppHeld pitch.val = false → t.ppState pitch.val = 2 ∧ (t.pwr pitch.val).fast = true) ∧
        (s.ppHeld pitch.val = true → t.ppState pitch.val = 10 ∧ t.fg (ppPage pitch.val) PP_STATUS_CAUSE = 9) ∧
        onlyPages [ppPage pitch.val] s t) ∧
    (∀ (s : State) (pitch : Pitch),
      s.ppState pitch.val ≠ 7 →
      completes (.coolDone pitch) s fun t =>
        t = s) ∧
    (∀ (s : State) (who : Initiator) (pitch : Pitch),
      s.accepts who (ppPage pitch.val) PP_CTRL = true →
      completes (.clearLatch who pitch) s fun t =>
        t.supv.queue = s.supv.queue ++ [⟨ppPage pitch.val, PP_CTRL, 1⟩] ∧
        t.ansOf who = ⟨rspOk, 0, none⟩ ∧
        onlyRegs [(0x01C, EVT_STATUS)] s t) ∧
    (∀ (s : State) (who : Initiator) (pitch : Pitch),
      s.accepts who (ppPage pitch.val) PP_CTRL = true →
      completes (.rdsCapture who pitch) s fun t =>
        t.supv.queue = s.supv.queue ++ [⟨ppPage pitch.val, PP_CTRL, 4⟩] ∧
        t.ansOf who = ⟨rspOk, 0, none⟩ ∧
        onlyRegs [(0x01C, EVT_STATUS)] s t) ∧
    (∀ (s : State) (pitch : Pitch),
      s.ppState pitch.val = 6 →
      100 ≤ s.fg (ppPage pitch.val) PP_MEAS_I →
      completes (.rdsMeasure pitch) s fun t =>
        t.fg (ppPage pitch.val) PP_RDS_RDS = s.rdsValue pitch.val % 2 ^ PP_RDS_RDS.w ∧
        ((0 < s.ppCfg pitch.val PP_RDS_CFG_BASE ∧ s.ppCfg pitch.val PP_RDS_CFG_BASE * s.ppCfg pitch.val PP_RDS_CFG_WARN < s.rdsValue pitch.val * 100) → t.event (ppPage pitch.val) EV_PP_RDS_WEAR = true) ∧
        ((s.pwr pitch.val).capture = none → t.supv = s.supv) ∧
        onlyRegs [(ppPage pitch.val, PP_RDS), (ppPage pitch.val, EVT_STATUS)] s t) ∧
    (∀ (s : State) (pitch : Pitch),
      (s.ppState pitch.val ≠ 6 ∨ s.fg (ppPage pitch.val) PP_MEAS_I < 100) →
      completes (.rdsMeasure pitch) s fun t =>
        t = s)

/-- Where a command's condition does not hold nothing changes. SUPERVISOR_SAMPLE shows what it measured in the feed and bus registers and keeps
it for the feeds' timers. FEED_QUALIFIED after QUAL ms inside the inner window: the feed is qualified; FEED_LOST of one above OV or outside
for FILT µs: it is not, with FEED_LOST where it was connected. CHANGEOVER_DEAD_END connects the feed wanted, or none with NO_FEED counted;
CHANGEOVER_END completes with CHANGEOVER counted. DISTURBANCE_END 1 ms after its last sample outside writes the next entry of the recorder
with DISTURB; DISTURB_ENTRY_READ answers word 0 and latches word 1. SUPV_WRITE_ARRIVE: the oldest write on its way takes effect while the
link is up. ROLE_TO_SUPERVISOR gives the supervisor die the role, and holds the channels that must be off on a standby. SUPV_LINK_DOWN takes
READY from the supervisor's pages with SUPV_LINK_DOWN; SUPV_LINK_UP lets frames cross again; CONTROL_FRAME_RECEIVED refreshes the status
copy, or raises SUPV_LINK_ERR. -/
def Obligations.FeedsRecorderAndControlLink : Prop :=
    (∀ (s : State) (x : SupSample),
      completes (.supervisorSample x) s fun t =>
        (t.fg 0x028 FD_VFEED_LO = min x.va 511 ∧ t.fg 0x028 FD_VFEED_HI = min x.vb 511 ∧ t.fg 0x028 FD_VBUS_LO = min x.vbus 511 ∧ t.fg 0x028 FD_VBUS_HI = min x.hu 511) ∧
        (t.supv.fd.vbus = x.vbus ∧ t.supv.fd.a.v = x.va ∧ t.supv.fd.b.v = x.vb) ∧
        (t.supv.fd.a.out = if x.va < s.fdUv .a ∨ s.fdOv .a < x.va then s.supv.fd.a.out + 1 else 0) ∧
        (t.supv.fd.b.inside = if s.fdUv .b + 5 ≤ x.vb ∧ x.vb + 5 ≤ s.fdOv .b then s.supv.fd.b.inside + 1 else 0)) ∧
    (∀ (s : State) (feed : Feed),
      s.fdOk feed = false →
      s.fdCfg FD_TIMING_QUAL * 1000 ≤ (s.feed feed).inside →
      completes (.feedQualified feed) s fun t =>
        t.fdOk feed = true ∧
        ((s.fg 0x028 FD_STATUS_SEL = 0 ∧ s.supv.fd.dead = false) → t.fg 0x028 FD_STATUS_SEL = ((s.setFdOk feed true).fdFollow (otherFeed feed)).fdWant) ∧
        onlyPages [0x028] s t) ∧
    (∀ (s : State) (feed : Feed),
      s.fdOk feed = true →
      (s.fdOv feed < (s.feed feed).v ∨ s.fdCfg FD_TIMING_FILT ≤ (s.feed feed).out) →
      completes (.feedLost feed) s fun t =>
        t.fdOk feed = false ∧
        (s.fg 0x028 FD_STATUS_SEL = feedSel feed → t.event 0x028 EV_FD_FEED_LOST = true) ∧
        (s.fdOv feed < (s.feed feed).v → t.event 0x028 EV_FD_FEED_OV = true) ∧
        onlyPages [0x028] s t) ∧
    (∀ (s : State) (feed : Feed),
      (s.fdOk feed = true ∨ (s.feed feed).inside < s.fdCfg FD_TIMING_QUAL * 1000) →
      completes (.feedQualified feed) s fun t =>
        t = s) ∧
    (∀ (s : State) (feed : Feed),
      (s.fdOk feed = false ∨ ((s.feed feed).v ≤ s.fdOv feed ∧ (s.feed feed).out < s.fdCfg FD_TIMING_FILT)) →
      completes (.feedLost feed) s fun t =>
        t = s) ∧
    (∀ (s : State),
      s.supv.fd.dead = true →
      s.fdWant ≠ 0 →
      completes (.changeoverDeadEnd) s fun t =>
        t.fg 0x028 FD_STATUS_SEL = s.fdWant ∧
        t.supv.fd.dead = false ∧
        onlyRegs [(0x028, FD_STATUS)] s t) ∧
    (∀ (s : State),
      s.supv.fd.dead = true →
      s.fdWant = 0 →
      completes (.changeoverDeadEnd) s fun t =>
        (t.fg 0x028 FD_STATUS_SEL = 0 ∧ t.fg 0x028 FD_STATUS_CHANGING = 0) ∧
        t.supv.fd.dead = false ∧
        t.fg 0x028 FD_CNT_NO_FEED = min (s.fg 0x028 FD_CNT_NO_FEED + 1) (2 ^ FD_CNT_NO_FEED.w - 1) ∧
        t.event 0x028 EV_FD_NO_FEED = true ∧
        onlyPages [0x028] s t) ∧
    (∀ (s : State),
      s.supv.fd.dead = false →
      completes (.changeoverDeadEnd) s fun t =>
        t = s) ∧
    (∀ (s : State),
      (s.supv.fd.dead = true ∨ s.fb 0x028 FD_STATUS_CHANGING = false) →
      completes (.changeoverEnd) s fun t =>
        t = s) ∧
    (∀ (s : State),
      s.supv.fd.dead = false →
      s.fb 0x028 FD_STATUS_CHANGING = true →
      completes (.changeoverEnd) s fun t =>
        t.fg 0x028 FD_STATUS_CHANGING = 0 ∧
        t.fg 0x028 FD_CNT_CHANGEOVERS = min (s.fg 0x028 FD_CNT_CHANGEOVERS + 1) (2 ^ FD_CNT_CHANGEOVERS.w - 1) ∧
        t.event 0x028 EV_FD_CHANGEOVER = true ∧
        onlyRegs [(0x028, FD_STATUS), (0x028, FD_CNT), (0x028, EVT_STATUS)] s t) ∧
    (∀ (s : State) (feed : Feed) (d : Disturb),
      (s.feed feed).dist = some d →
      d.last + 1000 ≤ d.n →
      s.gs.distNext < 64 →
      completes (.disturbanceEnd feed) s fun t =>
        t.rd 0 (0x200 + 8 * s.gs.distNext) = BitVec.ofNat 32 (d.aon / 32) ∧
        (t.rd 0 (0x204 + 8 * s.gs.distNext)).getLsbD 31 = true ∧
        t.gs.distNext = (s.gs.distNext + 1) % 64 ∧
        (t.feed feed).dist = none ∧
        t.event 0x028 EV_FD_DISTURB = true) ∧
    (∀ (s : State) (feed : Feed),
      ((s.feed feed).dist.all fun d => decide (d.n < d.last + 1000)) = true →
      completes (.disturbanceEnd feed) s fun t =>
        t = s) ∧
    (∀ (s : State) (who : Initiator) (entry : Fin 64),
      s.reach who 0 (0x200 + 8 * entry.val) = rspOk →
      completes (.disturbEntryRead who entry) s fun t =>
        t.ansOf who = ⟨rspOk, s.rd 0 (0x200 + 8 * entry.val), none⟩ ∧
        t.gs.distLatch = some (entry.val, s.rd 0 (0x204 + 8 * entry.val)) ∧
        onlyRegs [(0x01C, EVT_STATUS)] s t) ∧
    (∀ (s : State) (w : SupWrite) (ws : List SupWrite),
      (s.supv.queue = w :: ws) →
      s.supv.link = true →
      completes (.supvWriteArrive) s fun t =>
        t = ({ s with supv := { s.supv with queue := ws } } : State).regApply false w.page w.off w.v) ∧
    (∀ (s : State),
      (s.supv.queue = [] ∨ s.supv.link = false) →
      completes (.supvWriteArrive) s fun t =>
        t = s) ∧
    (∀ (s : State),
      s.supv.link = false →
      completes (.roleToSupervisor) s fun t =>
        t = s) ∧
    (∀ (s : State),
      s.supv.link = true →
      completes (.roleToSupervisor) s fun t =>
        t.supv.role = s.role ∧
        (∀ n < 24, (2 ≤ s.ppState n ∧ s.ppState n ≤ 7 ∧ ({ s with supv := { s.supv with role := s.role } } : State).ppHeld n = true) → t.ppState n = 10 ∧ t.fg (ppPage n) PP_STATUS_GATE = 0 ∧ t.fg (ppPage n) PP_STATUS_CAUSE = 9)) ∧
    (∀ (s : State),
      s.supv.link = true →
      completes (.supvLinkDown) s fun t =>
        t.supv.link = false ∧
        t.event 0x004 EV_FT_SUPV_LINK_DOWN = true ∧
        (∀ p, supPage p = true → t.ready p = false)) ∧
    (∀ (s : State),
      s.supv.link = false →
      completes (.supvLinkDown) s fun t =>
        t = s) ∧
    (∀ (s : State),
      completes (.supvLinkUp) s fun t =>
        t = { s with supv := { s.supv with link := true } }) ∧
    (∀ (s : State) (ok : Bool),
      completes (.controlFrameReceived ok) s fun t =>
        ((ok = true ∧ s.supv.link = true) → t = { s with supv := { s.supv with copy := s.regs.filter (fun e => supPage (e.1 / 4096)), copySh := s.shad.filter (fun e => supPage (e.1 / 4096)) } }) ∧
        (ok = false → t.event 0x004 EV_FT_SUPV_LINK_ERR = true ∧ t.supv = s.supv))

/-! ### Memories (chapter 16) -/

/-- SCRATCHPAD_ACCESS of an aligned word without error in an ON bank its initiator owns: a write sets the bytes enabled and no other word, a
read answers the word; of a foreign bank it is UNMAPPED and counted with FOREIGN; one to a bank on its way to this initiator is held; beyond
the memory it is UNMAPPED; NOT_READY while the bridge is not READY or the bank does not serve. BANK_HANDOVER, BANK_POWER_RETENTION,
BANK_POWER_OFF and BANK_POWER_ON with GO of an idle bank outside a march run start it draining, BUSY; a busy bank refuses with RESULT 2, one
under a run with 3, a command that is none with 4; a bank already in the state asked for is done. Without GO nothing happens.
BANK_DRAIN_DONE of a handover gives the bank its new owner; of a power command its new state, OFF losing the contents, and a bank leaving
OFF is filled first; then the accesses held for the bank are made. BANK_INIT_DONE leaves a bank full of zeros and ON. Both raise
HANDOVER_DONE at the end of the command. Of a bank that is not draining, or not being filled, they change nothing. SP_ROW_ECC_THRESHOLD of a
tracked row at ROW_THRESH asks for its repair; ROW_REPAIR of a row asked for moves it to a free spare row with REPAIR_DONE, or raises
REPAIR_FULL. Of any other row they change nothing. MARCH_GO while a run goes on, or for a destructive run that its memory's use refuses,
shows STATE 4; else the run begins with STATE 1 and FAILS 0. MARCH_ABORT marks the run to stop, and without one does nothing. MARCH_ROW_STEP
of a preserving run goes on to the next row, counting a failure with MARCH_FAIL, and where it is to stop ends it with STATE 5 and
MARCH_DONE; MARCH_RUN_DONE at its last row ends it with MARCH_DONE and STATE 2, or 3 where a row failed. A destructive run so ended, or
stopped with STATE 5, or that of a power-on reset, names its failing rows. -/
def Obligations.MemoryCommands : Prop :=
    (∀ (s : State) (who : Initiator) (addr : Nat) (write : Bool) (data : Word) (be : BitVec 4),
      s.ready 0x020 = true →
      (addr % 4 = 0 ∧ addr / 4 < 131072) →
      s.spGate (ownerCode who) (addr / 65536) write = .serve →
      (s.mem.spUe.contains (addr / 4) = false ∧ s.mem.spCe.contains (addr / 4) = false) →
      completes (.scratchpadAccess who addr write data be) s fun t =>
        (t.ansOf who).rsp = rspOk ∧
        (write = true → t.spWord (addr / 4) = (s.spWord (addr / 4) &&& ~~~ beMask be) ||| (data &&& beMask be)) ∧
        (write = false → (t.ansOf who).data = s.spWord (addr / 4) ∧ t.mem = s.mem) ∧
        (∀ w, w ≠ addr / 4 → t.spWord w = s.spWord w) ∧
        onlyRegs [(0x01C, EVT_STATUS)] s t) ∧
    (∀ (s : State) (who : Initiator) (addr : Nat) (write : Bool) (data : Word) (be : BitVec 4),
      s.ready 0x020 = true →
      (addr % 4 = 0 ∧ addr / 4 < 131072) →
      s.spGate (ownerCode who) (addr / 65536) write = .foreign →
      completes (.scratchpadAccess who addr write data be) s fun t =>
        t.ansOf who = ⟨rspUnmapped, 0, none⟩ ∧
        t.fg 0x280 MEM_CNT_FOREIGN_COUNT = min (s.fg 0x280 MEM_CNT_FOREIGN_COUNT + 1) (2 ^ MEM_CNT_FOREIGN_COUNT.w - 1) ∧
        t.event 0x280 EV_MEM_FOREIGN = true ∧
        t.mem = s.mem) ∧
    (∀ (s : State) (who : Initiator) (addr : Nat) (write : Bool) (data : Word) (be : BitVec 4),
      completes (.scratchpadAccess who addr write data be) s fun t =>
        (s.ready 0x020 = false → t.ansOf who = ⟨rspNotReady, 0, none⟩ ∧ t.mem = s.mem) ∧
        (s.ready 0x020 = true → 131072 ≤ addr / 4 → t.ansOf who = ⟨rspUnmapped, 0, none⟩ ∧ t.mem = s.mem) ∧
        (s.ready 0x020 = true → addr % 4 = 0 → addr / 4 < 131072 → s.spGate (ownerCode who) (addr / 65536) write = .hold → t.mem.held = s.mem.held ++ [{ who := who, addr := addr, write := write, data := data, be := be }] ∧ t.ans = s.ans ∧ t.mem.sp = s.mem.sp) ∧
        (s.ready 0x020 = true → addr % 4 = 0 → addr / 4 < 131072 → s.spGate (ownerCode who) (addr / 65536) write = .answer rspNotReady → t.ansOf who = ⟨rspNotReady, 0, none⟩ ∧ t.mem = s.mem)) ∧
    (∀ (s : State) (who : Initiator) (addr : Nat) (write : Bool) (data : Word) (be : BitVec 4),
      s.ready 0x020 = true →
      (addr % 4 ≠ 0 ∧ addr / 4 + 1 < 131072) →
      (s.spGate (ownerCode who) (addr / 65536) write = .serve ∧ s.spGate (ownerCode who) ((addr + 4) / 65536) write = .serve) →
      (s.mem.spUe.contains (addr / 4) = false ∧ s.mem.spCe.contains (addr / 4) = false ∧ s.mem.spUe.contains (addr / 4 + 1) = false ∧ s.mem.spCe.contains (addr / 4 + 1) = false) →
      completes (.scratchpadAccess who addr write data be) s fun t =>
        (t.ansOf who).rsp = rspOk ∧
        (write = false → (t.ansOf who).data = (s.spWord (addr / 4) >>> (8 * (addr % 4))) ||| (s.spWord (addr / 4 + 1) <<< (8 * (4 - addr % 4))) ∧ t.mem = s.mem) ∧
        (write = true → t.spWord (addr / 4) = (s.spWord (addr / 4) &&& ~~~ beMask (be <<< (addr % 4))) ||| ((data <<< (8 * (addr % 4))) &&& beMask (be <<< (addr % 4)))) ∧
        (write = true → t.spWord (addr / 4 + 1) = (s.spWord (addr / 4 + 1) &&& ~~~ beMask (be >>> (4 - addr % 4))) ||| ((data >>> (8 * (4 - addr % 4))) &&& beMask (be >>> (4 - addr % 4)))) ∧
        (∀ w, w ≠ addr / 4 → w ≠ addr / 4 + 1 → t.spWord w = s.spWord w)) ∧
    (∀ (s : State) (who : Initiator) (v : Word) (c : Instr),
      (c = .bankHandover who v ∨ c = .bankPowerOn who v ∨ c = .bankPowerRetention who v ∨ c = .bankPowerOff who v) →
      s.accepts who 0x280 MEM_BANK_CMD = true →
      MEM_BANK_CMD_GO.get v = 1 →
      s.spMarched (MEM_BANK_CMD_BANK.get v) = false →
      ((MEM_BANK_CMD_OP.get v = 1 ∧ MEM_BANK_CMD_ARG.get v < 8) ∨ (2 ≤ MEM_BANK_CMD_OP.get v ∧ MEM_BANK_CMD_OP.get v ≤ 4 ∧ s.spPower (MEM_BANK_CMD_BANK.get v) ≠ MEM_BANK_CMD_OP.get v - 2)) →
      completes (c) s fun t =>
        (s.spBusy (MEM_BANK_CMD_BANK.get v) = false → (t.spBank (MEM_BANK_CMD_BANK.get v)).drain = some (MEM_BANK_CMD_OP.get v, MEM_BANK_CMD_ARG.get v) ∧ t.fg 0x280 MEM_BANK_CMD_STATUS_BUSY = 1 ∧ t.fg 0x280 (bankF MEM_BANK_STAT_DRAINING (MEM_BANK_CMD_BANK.get v)) = 1) ∧
        (s.spBusy (MEM_BANK_CMD_BANK.get v) = true → t.fg 0x280 MEM_BANK_CMD_STATUS_RESULT = 2 ∧ t.event 0x280 EV_MEM_CMD_REFUSED = true ∧ t.mem = s.mem) ∧
        t.ansOf who = ⟨rspOk, 0, none⟩) ∧
    (∀ (s : State) (who : Initiator) (v : Word) (c : Instr) (b op arg : Nat),
      (c = .bankHandover who v ∨ c = .bankPowerOn who v ∨ c = .bankPowerRetention who v ∨ c = .bankPowerOff who v) →
      s.accepts who 0x280 MEM_BANK_CMD = true →
      (b = MEM_BANK_CMD_BANK.get v ∧ op = MEM_BANK_CMD_OP.get v ∧ arg = MEM_BANK_CMD_ARG.get v) →
      completes (c) s fun t =>
        (MEM_BANK_CMD_GO.get v = 0 → t.mem = s.mem ∧ t.fg 0x280 MEM_BANK_CMD_STATUS_RESULT = s.fg 0x280 MEM_BANK_CMD_STATUS_RESULT) ∧
        (MEM_BANK_CMD_GO.get v = 1 → s.spBusy b = false → s.spMarched b = true → t.fg 0x280 MEM_BANK_CMD_STATUS_RESULT = 3 ∧ t.event 0x280 EV_MEM_CMD_REFUSED = true ∧ t.mem = s.mem) ∧
        (MEM_BANK_CMD_GO.get v = 1 → s.spBusy b = false → s.spMarched b = false → (op = 0 ∨ 4 < op ∨ (op = 1 ∧ 8 ≤ arg)) → t.fg 0x280 MEM_BANK_CMD_STATUS_RESULT = 4 ∧ t.event 0x280 EV_MEM_CMD_REFUSED = true ∧ t.mem = s.mem) ∧
        ((MEM_BANK_CMD_GO.get v = 1 ∧ s.spBusy b = false ∧ s.spMarched b = false ∧ 2 ≤ op ∧ op ≤ 4 ∧ s.spPower b = op - 2) → t.fg 0x280 MEM_BANK_CMD_STATUS_RESULT = 1 ∧ t.event 0x280 EV_MEM_HANDOVER_DONE = true ∧ t.mem = s.mem) ∧
        t.ansOf who = ⟨rspOk, 0, none⟩) ∧
    (∀ (s : State) (bank : Fin 8) (op arg : Nat),
      (s.spBank bank.val).drain = some (op, arg) →
      (arg < 8 ∧ 1 ≤ op ∧ op ≤ 4) →
      s.mem.held = [] →
      completes (.bankDrainDone bank) s fun t =>
        (t.spBank bank.val).drain = none ∧
        (op = 1 → t.spOwner bank.val = arg ∧ t.mem.sp = s.mem.sp) ∧
        (op = 2 → (s.spBank bank.val).off = true → (t.spBank bank.val).filling = true ∧ t.mem.sp = s.mem.sp) ∧
        (op = 2 → (s.spBank bank.val).off = false → t.spPower bank.val = 0 ∧ t.mem.sp = s.mem.sp) ∧
        (op = 3 → t.spPower bank.val = 1 ∧ t.mem.sp = s.mem.sp) ∧
        (op = 4 → t.spPower bank.val = 2 ∧ (t.spBank bank.val).off = true) ∧
        (¬(op = 2 ∧ (s.spBank bank.val).off = true) → t.fg 0x280 MEM_BANK_CMD_STATUS_RESULT = 1 ∧ t.event 0x280 EV_MEM_HANDOVER_DONE = true)) ∧
    (∀ (s : State) (bank : Fin 8),
      (s.spBank bank.val).drain ≠ none →
      completes (.bankDrainDone bank) s fun t =>
        t = (s.bankDrained bank.val).mem.held.foldl State.spAgain { s.bankDrained bank.val with mem := { (s.bankDrained bank.val).mem with held := [] } }) ∧
    (∀ (s : State) (bank : Fin 8),
      (s.spBank bank.val).drain = none →
      completes (.bankDrainDone bank) s fun t =>
        t = s) ∧
    (∀ (s : State) (bank : Fin 8),
      (s.spBank bank.val).filling = false →
      completes (.bankInitDone bank) s fun t =>
        t = s) ∧
    (∀ (s : State) (bank : Fin 8),
      (s.spBank bank.val).filling = true →
      completes (.bankInitDone bank) s fun t =>
        t.spPower bank.val = 0 ∧
        (t.spBank bank.val).filling = false ∧
        t.event 0x280 EV_MEM_HANDOVER_DONE = true ∧
        (∀ w, t.spWord w = if w / 16384 = bank.val then 0 else s.spWord w)) ∧
    (∀ (s : State) (bank : Fin 8) (row n : Nat),
      s.fg 0x280 MEM_ECC_CFG_ROW_THRESH ≠ 0 →
      (row, n) ∈ (s.spBank bank.val).track →
      s.fg 0x280 MEM_ECC_CFG_ROW_THRESH ≤ n →
      (s.mem.repairs.any fun r => decide (r.1 = bank.val) && decide (r.2.1 = row)) = false →
      completes (.spRowEccThreshold bank row) s fun t =>
        t.mem.repairs = s.mem.repairs ++ [(bank.val, row, 2)] ∧
        t.regs = s.regs) ∧
    (∀ (s : State) (bank : Fin 8) (row : Nat),
      (s.fg 0x280 MEM_ECC_CFG_ROW_THRESH = 0 ∨ ((s.spBank bank.val).track.any fun e => decide (e.1 = row) && decide (s.fg 0x280 MEM_ECC_CFG_ROW_THRESH ≤ e.2)) = false ∨ (s.mem.repairs.any fun r => decide (r.1 = bank.val) && decide (r.2.1 = row)) = true) →
      completes (.spRowEccThreshold bank row) s fun t =>
        t = s) ∧
    (∀ (s : State) (bank : Fin 8) (row : Nat),
      s.mem.repairs.find? (fun r => decide (r.1 = bank.val) && decide (r.2.1 = row)) = none →
      completes (.rowRepair bank row) s fun t =>
        t = s) ∧
    (∀ (s : State) (bank : Fin 8) (row : Nat) (r : Nat × Nat × Nat),
      s.mem.repairs.find? (fun r => decide (r.1 = bank.val) && decide (r.2.1 = row)) = some r →
      completes (.rowRepair bank row) s fun t =>
        t.mem.repairs = s.mem.repairs.filter fun y => decide (y ≠ r) ∧
        ((s.spBank bank.val).freeSpares = [] → t.event 0x280 EV_MEM_REPAIR_FULL = true ∧ t.mem.banks = s.mem.banks) ∧
        ((s.spBank bank.val).freeSpares ≠ [] → t.event 0x280 EV_MEM_REPAIR_DONE = true ∧ (row, s.pick (s.spBank bank.val).freeSpares) ∈ (t.spBank bank.val).moved)) ∧
    (∀ (s : State) (who : Initiator) (v : Word) (m : March),
      s.accepts who 0x280 MEM_MARCH_CMD = true →
      (MEM_MARCH_CMD_GO.get v = 1 ∧ MEM_MARCH_CMD_ABORT.get v = 0) →
      m = { target := MEM_MARCH_CMD_TARGET.get v, bank := MEM_MARCH_CMD_BANK.get v, destruct := decide (MEM_MARCH_CMD_DESTRUCT.get v = 1) } →
      completes (.marchGo who v) s fun t =>
        ((s.mem.march ≠ none ∨ (m.destruct = true ∧ s.destructBad m = true)) → t.fg 0x280 MEM_MARCH_STATUS_STATE = 4 ∧ t.mem.march = s.mem.march) ∧
        ((s.mem.march = none ∧ ¬(m.destruct = true ∧ s.destructBad m = true)) → t.fg 0x280 MEM_MARCH_STATUS_STATE = 1 ∧ t.fg 0x280 MEM_MARCH_STATUS_FAILS = 0 ∧ t.mem.march = some m) ∧
        ((s.mem.march = none ∧ m.destruct = true ∧ s.destructBad m = false ∧ m.target = 2) → t.ready 0x010 = false) ∧
        ((s.mem.march = none ∧ m.destruct = true ∧ s.destructBad m = false ∧ m.target = 3) → t.ready 0x01C = false) ∧
        t.ansOf who = ⟨rspOk, 0, none⟩) ∧
    (∀ (s : State) (who : Initiator) (v : Word),
      s.accepts who 0x280 MEM_MARCH_CMD = true →
      MEM_MARCH_CMD_GO.get v = 0 →
      completes (.marchGo who v) s fun t =>
        (t.mem.march = if MEM_MARCH_CMD_ABORT.get v = 1 then s.mem.march.map (fun m => { m with abort := true }) else s.mem.march) ∧
        onlyRegs [(0x01C, EVT_STATUS)] s t ∧
        t.ansOf who = ⟨rspOk, 0, none⟩) ∧
    (∀ (s : State) (who : Initiator) (m : March),
      s.accepts who 0x280 MEM_MARCH_CMD = true →
      s.mem.march = some m →
      completes (.marchAbort who) s fun t =>
        t.mem.march = some { m with abort := true } ∧
        onlyRegs [(0x01C, EVT_STATUS)] s t ∧
        t.ansOf who = ⟨rspOk, 0, none⟩) ∧
    (∀ (s : State) (who : Initiator),
      s.accepts who 0x280 MEM_MARCH_CMD = true →
      s.mem.march = none →
      completes (.marchAbort who) s fun t =>
        (t.mem = s.mem ∧ t.ansOf who = ⟨rspOk, 0, none⟩) ∧
        onlyRegs [(0x01C, EVT_STATUS)] s t) ∧
    (∀ (s : State) (fails : Bool) (m : March),
      s.mem.march = some m →
      (m.destruct = false ∧ m.abort = false) →
      m.next < m.rows →
      completes (.marchRowStep fails) s fun t =>
        (t.mem.march = some { m with next := m.next + 1, failed := m.failed || fails, cellBanks := if fails && decide (m.target = 2) then m.cellBanks ++ [(m.rowAt m.next).1] else m.cellBanks }) ∧
        (fails = true → t.fg 0x280 MEM_MARCH_STATUS_FAILS = min (s.fg 0x280 MEM_MARCH_STATUS_FAILS + 1) (2 ^ MEM_MARCH_STATUS_FAILS.w - 1) ∧ t.event 0x280 EV_MEM_MARCH_FAIL = true) ∧
        (fails = false → t.regs = s.regs) ∧
        t.mem.sp = s.mem.sp) ∧
    (∀ (s : State) (fails : Bool) (m : March),
      s.mem.march = some m →
      (m.destruct = false ∧ m.abort = true) →
      m.next < m.rows →
      completes (.marchRowStep fails) s fun t =>
        t.mem.march = none ∧
        t.fg 0x280 MEM_MARCH_STATUS_STATE = 5 ∧
        t.event 0x280 EV_MEM_MARCH_DONE = true ∧
        (fails = true → t.event 0x280 EV_MEM_MARCH_FAIL = true)) ∧
    (∀ (s : State) (fails : Bool),
      (s.mem.march.all fun m => m.destruct || decide (m.rows ≤ m.next)) = true →
      completes (.marchRowStep fails) s fun t =>
        t = s) ∧
    (∀ (s : State) (mem : Fin 3) (failing : List (Nat × Nat)),
      s.mem.powerOn.contains mem.val = false →
      (s.mem.march.all fun m => decide (m.memory ≠ mem.val) || (!m.destruct && decide (m.next < m.rows))) = true →
      completes (.marchRunDone mem failing) s fun t =>
        t = s) ∧
    (∀ (s : State) (mem : Fin 3) (failing : List (Nat × Nat)),
      s.mem.powerOn.contains mem.val = true →
      completes (.marchRunDone mem failing) s fun t =>
        t.mem.powerOn.contains mem.val = false ∧
        (t.fg 0x280 MEM_MARCH_STATUS_STATE = if failing = [] ∧ s.fg 0x280 MEM_MARCH_STATUS_STATE ≠ 3 then 2 else 3) ∧
        t.event 0x280 EV_MEM_MARCH_DONE = true) ∧
    (∀ (s : State) (mem : Fin 3) (failing : List (Nat × Nat)) (m : March),
      s.mem.march = some m →
      s.mem.powerOn.contains mem.val = false →
      m.memory = mem.val →
      m.destruct = true →
      completes (.marchRunDone mem failing) s fun t =>
        t.mem.march = none ∧
        (t.fg 0x280 MEM_MARCH_STATUS_STATE = if m.abort then 5 else if failing = [] then 2 else 3) ∧
        t.event 0x280 EV_MEM_MARCH_DONE = true ∧
        (m.abort = true → m.target = 2 → t.mem.cellsUnready = true) ∧
        (m.abort = true → m.target = 3 → t.mem.canopyUnready = true)) ∧
    (∀ (s : State) (mem : Fin 3) (failing : List (Nat × Nat)) (m : March),
      s.mem.march = some m →
      s.mem.powerOn.contains mem.val = false →
      m.memory = mem.val →
      m.destruct = false →
      m.rows ≤ m.next →
      completes (.marchRunDone mem failing) s fun t =>
        t.mem.march = none ∧
        (t.fg 0x280 MEM_MARCH_STATUS_STATE = if m.failed then 3 else 2) ∧
        t.event 0x280 EV_MEM_MARCH_DONE = true ∧
        t.mem.sp = s.mem.sp)

/-! ### Faults and wear (chapter 17) -/

/-- FAULT_EVENT with page 0x004 READY: the oldest event is counted in its window and in total, its sticky bit set, FT_LAST written; a severe one
(N reached) starts an ERR_N pulse. With none, or the page not READY, nothing changes. One whose reaction is ISOLATE puts its card link's
page into L3 reset with FAULT; FT_RELEASE with GO ends the isolation. ERR_PULSE_END ends the pulse; a reset it held is then recognised, of
several at L2 or deeper the deepest, of equal ones the lowest source. THERMAL_WARN shows the reading, and raises THERMAL_WARN when it
reaches WARN and has not been raised since it was 5 °C below. SENTINEL_MEASURE with page 0x005 READY shows a lane's eye, and judges: an
oscillator worn against its baseline, the COUNTth low eye in a row, a weak row, the 16th low margin of a PLL, references apart, or a worn
transistor is a wear event, once until re-armed: WEAR, WR_CNT and WR_LAST with its kind, unit and action. What is not worn changes nothing.
WR_CAPTURE and, with captured values, WR_STORE start where none runs, else do nothing; BL_DONE ends a capture with its means, or a store
with STATE 4, or 5 where it failed, but not while no MRAM write may begin; WEAR_CLR re-arms the wear events. REFERENCE_FAIL of the reference
in use, and WR_REF_CMD with GO to another that is good, move every PLL to the other with REF_SWITCH; one not in use is only no longer good;
a drifting one is shown. PLL_LOCK_LOSS of a PLL in use whose spare can serve, and WR_PLL_CMD with GO, put its islands on the spare with
PLL_SWITCH; a spare that loses lock is bad, and where it was in use the PLL takes over; with both lost, PLL_BOTH_LOST. PLL_RELOCK gives a
clock again. -/
def Obligations.FaultsAndWear : Prop :=
    (∀ (s : State) (n detail : Nat) (rest : List (Nat × Nat)),
      (s.faultQ = (n, detail) :: rest) →
      n < 256 →
      s.ready 0x004 = true →
      (s.fg 0x004 (srcF FT_SRC_CFG_MINOR n) ≤ 1 ∧ s.fg 0x004 (srcF FT_SRC_CFG_SEVERE n) ≤ 1) →
      completes (.faultEvent) s fun t =>
        t.faultQ = rest ∧
        t.fg 0x004 (srcF FT_SRC_CNT_TOTAL n) = min (s.fg 0x004 (srcF FT_SRC_CNT_TOTAL n) + 1) (2 ^ FT_SRC_CNT_TOTAL.w - 1) ∧
        (t.rd 0x004 (FT_STICKY + 4 * (n / 32))).getLsbD (n % 32) = true ∧
        (s.ft.win.getD n none = none → t.fg 0x004 (srcF FT_SRC_CNT_WIN n) = 1 ∧ t.ft.win.getD n none = some s.now ∧ (s.fg 0x004 (srcF FT_SRC_CFG_N n) = 1 → t.gs.errPulse = true ∧ t.fg 0x004 FT_ERR_PULSE = 1 ∧ t.rd 0x004 FT_LAST = BitVec.ofNat 32 (n * 2 ^ 24 + detail % 256 * 65536 + 32768 + s.fg 0x004 (srcF FT_SRC_CFG_SEVERE n) * 4096))) ∧
        (((s.ft.win.getD n none).any fun a => decide (s.now < a + 160000000 * (s.fg 0x004 (srcF FT_SRC_CFG_W n) : Int))) = true → t.fg 0x004 (srcF FT_SRC_CNT_WIN n) = min (s.fg 0x004 (srcF FT_SRC_CNT_WIN n) + 1) (2 ^ FT_SRC_CNT_WIN.w - 1) ∧ t.ft = s.ft ∧ ((s.fg 0x004 (srcF FT_SRC_CFG_N n) ≠ 0 ∧ s.fg 0x004 (srcF FT_SRC_CFG_N n) ≤ t.fg 0x004 (srcF FT_SRC_CNT_WIN n)) → t.gs.errPulse = true ∧ t.fg 0x004 FT_ERR_PULSE = 1)) ∧
        (s.fg 0x004 (srcF FT_SRC_CFG_N n) = 0 → t.rd 0x004 FT_LAST = BitVec.ofNat 32 (n * 2 ^ 24 + detail % 256 * 65536 + s.fg 0x004 (srcF FT_SRC_CFG_MINOR n) * 4096) ∧ t.gs = s.gs) ∧
        onlyPages [0x004] s t) ∧
    (∀ (s : State),
      (s.faultQ = [] ∨ s.ready 0x004 = false) →
      completes (.faultEvent) s fun t =>
        t = s) ∧
    (∀ (s : State) (n detail : Nat) (rest : List (Nat × Nat)),
      (s.faultQ = (n, detail) :: rest) →
      s.ready 0x004 = true →
      completes (.faultEvent) s fun t =>
        t = ({ s with faultQ := rest } : State).ftEvent n detail) ∧
    (∀ (s : State) (k detail : Nat) (rest : List (Nat × Nat)),
      k < 24 →
      (s.faultQ = (0x9F + 2 * k, detail) :: rest) →
      s.ready 0x004 = true →
      s.fg 0x004 (srcF FT_SRC_CFG_N (0x9F + 2 * k)) = 0 →
      s.fg 0x004 (srcF FT_SRC_CFG_MINOR (0x9F + 2 * k)) = 2 →
      s.isolated (clPage k) = false →
      completes (.faultEvent) s fun t =>
        t.fg (clPage k) PAGE_STATE_FAULT = 1 ∧
        t.iso.getD (clPage k) 0 = 0x9F + 2 * k + 1 ∧
        t.ready (clPage k) = false ∧
        (t.rd 0x004 (FT_ISO + 4 * ((0x9F + 2 * k) / 32))).getLsbD ((0x9F + 2 * k) % 32) = true) ∧
    (∀ (s : State) (who : Initiator) (v : Word),
      s.accepts who 0x004 FT_RELEASE = true →
      FT_RELEASE_GO.get v = 1 →
      completes (.ftRelease who v) s fun t =>
        (t.rd 0x004 (FT_ISO + 4 * (FT_RELEASE_SOURCE.get v / 32))).getLsbD (FT_RELEASE_SOURCE.get v % 32) = false ∧
        (∀ p, s.iso.getD p 0 = FT_RELEASE_SOURCE.get v + 1 → t.fg p PAGE_STATE_FAULT = 0) ∧
        t.iso = s.iso.filter fun e => decide (e.2 ≠ FT_RELEASE_SOURCE.get v + 1) ∧
        t.ansOf who = ⟨rspOk, 0, none⟩) ∧
    (∀ (s : State) (who : Initiator) (v : Word),
      s.accepts who 0x004 FT_RELEASE = true →
      FT_RELEASE_GO.get v = 0 →
      completes (.ftRelease who v) s fun t =>
        (t.wear = s.wear ∧ t.iso = s.iso ∧ t.ansOf who = ⟨rspOk, 0, none⟩) ∧
        onlyRegs [(0x01C, EVT_STATUS)] s t) ∧
    (∀ (s : State),
      s.gs.errPulse = true →
      s.gs.errReset = [] →
      completes (.errPulseEnd) s fun t =>
        t.gs = { s.gs with errPulse := false } ∧
        t.fg 0x004 FT_ERR_PULSE = 0 ∧
        onlyRegs [(0x004, FT_ERR)] s t) ∧
    (∀ (s : State),
      s.gs.errPulse = false →
      completes (.errPulseEnd) s fun t =>
        t = s) ∧
    (∀ (s : State) (r : ResetReq),
      s.gs.errPulse = true →
      completes (.errPulseEnd) s fun t =>
        (s.gs.errReset = [r] → t = (({ s with gs := { s.gs with errPulse := false, errReset := [] } } : State).fs 0x004 FT_ERR_PULSE 0).recognise r (if r.level < 3 then none else l3Target r.detail)) ∧
        ((r.level < 3 ∧ r ∈ s.gs.errReset ∧ s.gs.errReset.all (fun x => x == r || decide (r.level < x.level) || (decide (r.level = x.level) && decide (r.detail < x.detail))) = true) → t = (({ s with gs := { s.gs with errPulse := false, errReset := [] } } : State).fs 0x004 FT_ERR_PULSE 0).recognise r none)) ∧
    (∀ (s : State) (tj : Int),
      completes (.thermalWarn tj) s fun t =>
        t.fg 0x004 FT_THERM_TJ = uns 8 tj ∧
        ((s.fg 0x004 FT_THERM_WARN : Int) ≤ tj → t.ft.warm = true ∧ (s.ft.warm = false → t.event 0x004 EV_FT_THERMAL_WARN = true)) ∧
        (tj ≤ (s.fg 0x004 FT_THERM_WARN : Int) - 5 → t.ft.warm = false) ∧
        onlyRegs [(0x004, FT_THERM), (0x004, EVT_STATUS)] s t) ∧
    (∀ (s : State) (u : Fin 39) (count : Nat) (tj : Int),
      s.ready 0x005 = true →
      s.oscWorn (4096 + u.val) count tj = true →
      s.wear.worn.contains u.val = false →
      completes (.sentinelMeasure (.island u count tj)) s fun t =>
        t.event 0x005 EV_WR_WEAR = true ∧
        t.fg 0x005 WR_CNT_WEAR = min (s.fg 0x005 WR_CNT_WEAR + 1) (2 ^ WR_CNT_WEAR.w - 1) ∧
        t.rd 0x005 WR_LAST = BitVec.ofNat 32 (0 * 2 ^ 28 + u.val * 65536 + 0) ∧
        onlyRegs [(0x005, WR_LAST), (0x005, WR_CNT), (0x005, EVT_STATUS)] s t) ∧
    (∀ (s : State) (u : Fin 216) (count : Nat) (tj : Int) (c : Nat),
      s.ready 0x005 = true →
      s.oscWorn (8192 + u.val) count tj = true →
      s.wear.worn.contains (4096 + u.val) = false →
      (u.val % 9 ≠ 8 ∧ s.servedBy (u.val / 9) (u.val % 9) = some c) →
      (nbit (s.fg 0x005 WR_SPARE_EN_KIND) 1 && s.fb (ecPage (u.val / 9)) EC_CTRL_MIG_AUTO) = false →
      completes (.sentinelMeasure (.engine u count tj)) s fun t =>
        t.event 0x005 EV_WR_WEAR = true ∧
        t.fg 0x005 WR_CNT_WEAR = min (s.fg 0x005 WR_CNT_WEAR + 1) (2 ^ WR_CNT_WEAR.w - 1) ∧
        t.rd 0x005 WR_LAST = BitVec.ofNat 32 (1 * 2 ^ 28 + u.val * 65536 + 4) ∧
        onlyRegs [(0x005, WR_LAST), (0x005, WR_CNT), (0x005, EVT_STATUS)] s t) ∧
    (∀ (s : State) (m : Sentinel),
      s.ready 0x005 = false →
      completes (.sentinelMeasure m) s fun t =>
        t = s) ∧
    (∀ (s : State) (u : Fin 39) (count : Nat) (tj : Int),
      (s.oscWorn (4096 + u.val) count tj = false ∨ s.wear.worn.contains u.val = true) →
      completes (.sentinelMeasure (.island u count tj)) s fun t =>
        t = s) ∧
    (∀ (s : State) (l : Fin 36) (v h : BitVec 8),
      s.ready 0x005 = true →
      l.val < 12 →
      completes (.sentinelMeasure (.eye l v h)) s fun t =>
        (t.fg (if l.val < 5 then 0x008 else if l.val < 10 then 0x009 else 0x024) (LN_EYE_EYE_V.at (16 * (if l.val < 10 then l.val % 5 else l.val - 10))) = v.toNat) ∧
        (t.fg (if l.val < 5 then 0x008 else if l.val < 10 then 0x009 else 0x024) (LN_EYE_EYE_H.at (16 * (if l.val < 10 then l.val % 5 else l.val - 10))) = h.toNat) ∧
        ((s.fg 0x005 WR_EYE_CFG_V_MIN ≤ v.toNat ∧ s.fg 0x005 WR_EYE_CFG_H_MIN ≤ h.toNat) → 0 < s.fg 0x005 WR_EYE_CFG_COUNT → t.wear.runs.getD (8192 + l.val) 0 = 0 ∧ t.wear.worn = s.wear.worn)) ∧
    (∀ (s : State) (v h : BitVec 8),
      s.ready 0x005 = true →
      v.toNat < s.fg 0x005 WR_EYE_CFG_V_MIN →
      s.fg 0x005 WR_EYE_CFG_COUNT ≤ s.wear.runs.getD 8202 0 + 1 →
      s.wear.worn.contains 8202 = false →
      completes (.sentinelMeasure (.eye 10 v h)) s fun t =>
        t.event 0x005 EV_WR_WEAR = true ∧
        t.fg 0x005 WR_CNT_WEAR = min (s.fg 0x005 WR_CNT_WEAR + 1) (2 ^ WR_CNT_WEAR.w - 1) ∧
        t.rd 0x005 WR_LAST = BitVec.ofNat 32 (2 * 2 ^ 28 + 10 * 65536 + 0) ∧
        onlyRegs [(0x024, LN_EYE), (0x005, WR_LAST), (0x005, WR_CNT), (0x005, EVT_STATUS)] s t) ∧
    (∀ (s : State) (b : Fin 8) (row : Fin 512),
      s.ready 0x005 = true →
      s.weakRuns 0 = true →
      s.wear.worn.contains (12288 + b.val * 512 + row.val) = false →
      (nbit (s.fg 0x005 WR_SPARE_EN_KIND) 2 && s.fb 0x280 MEM_CTRL_REPAIR_AUTO) = true →
      (s.spBank b.val).freeSpares ≠ [] →
      completes (.sentinelMeasure (.spRow b row true true)) s fun t =>
        t.event 0x005 EV_WR_WEAR = true ∧
        t.fg 0x005 WR_CNT_WEAR = min (s.fg 0x005 WR_CNT_WEAR + 1) (2 ^ WR_CNT_WEAR.w - 1) ∧
        t.rd 0x005 WR_LAST = BitVec.ofNat 32 (3 * 2 ^ 28 + (b.val * 512 + row.val) * 65536 + 1) ∧
        t.mem.repairs = s.mem.repairs ++ [(b.val, row.val, 3)] ∧
        onlyRegs [(0x005, WR_LAST), (0x005, WR_CNT), (0x005, EVT_STATUS)] s t) ∧
    (∀ (s : State) (b : Fin 17),
      s.ready 0x005 = true →
      s.weakRuns 1 = true →
      s.wear.worn.contains (16384 + b.val) = false →
      (nbit (s.fg 0x005 WR_SPARE_EN_KIND) 3 && s.fb 0x010 CORE_CTRL_SPARE_AUTO) = false →
      b.val ≠ 16 →
      completes (.sentinelMeasure (.cellRow b true true)) s fun t =>
        t.event 0x005 EV_WR_WEAR = true ∧
        t.fg 0x005 WR_CNT_WEAR = min (s.fg 0x005 WR_CNT_WEAR + 1) (2 ^ WR_CNT_WEAR.w - 1) ∧
        t.rd 0x005 WR_LAST = BitVec.ofNat 32 (4 * 2 ^ 28 + b.val * 65536 + 4) ∧
        onlyRegs [(0x005, WR_LAST), (0x005, WR_CNT), (0x005, EVT_STATUS)] s t) ∧
    (∀ (s : State) (n : Fin 24),
      s.ready 0x005 = true →
      s.fb 0x005 WR_WW_CFG_EN = true →
      s.wear.worn.contains (20480 + n.val) = false →
      completes (.sentinelMeasure (.microcode n true true)) s fun t =>
        t.event 0x005 EV_WR_WEAR = true ∧
        t.fg 0x005 WR_CNT_WEAR = min (s.fg 0x005 WR_CNT_WEAR + 1) (2 ^ WR_CNT_WEAR.w - 1) ∧
        t.rd 0x005 WR_LAST = BitVec.ofNat 32 (5 * 2 ^ 28 + (s.freeNat 12) * 65536 + 0) ∧
        onlyRegs [(0x005, WR_LAST), (0x005, WR_CNT), (0x005, EVT_STATUS)] s t) ∧
    (∀ (s : State) (k : Fin 16384),
      s.ready 0x005 = true →
      s.weakRuns 2 = true →
      s.wear.worn.contains (65536 + k.val) = false →
      completes (.sentinelMeasure (.canopy k true true)) s fun t =>
        t.event 0x005 EV_WR_WEAR = true ∧
        t.fg 0x005 WR_CNT_WEAR = min (s.fg 0x005 WR_CNT_WEAR + 1) (2 ^ WR_CNT_WEAR.w - 1) ∧
        t.rd 0x005 WR_LAST = BitVec.ofNat 32 (5 * 2 ^ 28 + (s.freeNat 12) * 65536 + 0) ∧
        onlyRegs [(0x005, WR_LAST), (0x005, WR_CNT), (0x005, EVT_STATUS)] s t) ∧
    (∀ (s : State) (k : Fin 13) (margin : Nat),
      s.ready 0x005 = true →
      margin < s.fg 0x005 WR_PLL_CFG_MIN →
      15 ≤ s.wear.runs.getD (24576 + k.val) 0 →
      s.wear.worn.contains (24576 + k.val) = false →
      (s.onSpare k.val = false ∧ nbit (s.fg 0x005 WR_SPARE_EN_KIND) 5 = true ∧ s.spareReady k.val = true) →
      completes (.sentinelMeasure (.pll k false margin)) s fun t =>
        t.event 0x005 EV_WR_WEAR = true ∧
        t.fg 0x005 WR_CNT_WEAR = min (s.fg 0x005 WR_CNT_WEAR + 1) (2 ^ WR_CNT_WEAR.w - 1) ∧
        t.rd 0x005 WR_LAST = BitVec.ofNat 32 (6 * 2 ^ 28 + k.val * 65536 + 1) ∧
        (t.onSpare k.val = true ∧ t.event 0x005 EV_WR_PLL_SWITCH = true) ∧
        onlyRegs [(0x005, WR_PLL_STATUS), (0x005, WR_LAST), (0x005, WR_CNT), (0x005, EVT_STATUS)] s t) ∧
    (∀ (s : State) (apart a b : Nat),
      s.ready 0x005 = true →
      apart ≤ s.fg 0x005 WR_PLL_CFG_REF_PPM →
      completes (.sentinelMeasure (.references apart a b)) s fun t =>
        (t.fg 0x005 WR_REF_STATUS_DRIFT = 0 ∧ t.wear = s.wear) ∧
        onlyRegs [(0x005, WR_REF_STATUS)] s t) ∧
    (∀ (s : State) (apart a b : Nat),
      s.ready 0x005 = true →
      (s.fg 0x005 WR_PLL_CFG_REF_PPM < apart ∧ a < b ∧ nbit (s.rd 0 GS_AON_HI).toNat 31 = true) →
      s.wear.worn.contains 28673 = false →
      completes (.sentinelMeasure (.references apart a b)) s fun t =>
        t.event 0x005 EV_WR_WEAR = true ∧
        t.fg 0x005 WR_CNT_WEAR = min (s.fg 0x005 WR_CNT_WEAR + 1) (2 ^ WR_CNT_WEAR.w - 1) ∧
        t.rd 0x005 WR_LAST = BitVec.ofNat 32 (7 * 2 ^ 28 + 1 * 65536 + 0) ∧
        t.fg 0x005 WR_REF_STATUS_DRIFT = (if s.fg 0x005 WR_REF_STATUS_IN_USE = 1 then 1 else 0) ∧
        onlyRegs [(0x005, WR_REF_STATUS), (0x005, WR_LAST), (0x005, WR_CNT), (0x005, EVT_STATUS)] s t) ∧
    (∀ (s : State) (n : Pitch),
      s.ready 0x005 = true →
      (0 < s.ppCfg n.val PP_RDS_CFG_BASE ∧ s.ppCfg n.val PP_RDS_CFG_BASE * s.ppCfg n.val PP_RDS_CFG_WARN < s.fg (ppPage n.val) PP_RDS_RDS * 100) →
      s.wear.worn.contains (32768 + n.val) = false →
      completes (.sentinelMeasure (.transistor n)) s fun t =>
        t.event 0x005 EV_WR_WEAR = true ∧
        t.fg 0x005 WR_CNT_WEAR = min (s.fg 0x005 WR_CNT_WEAR + 1) (2 ^ WR_CNT_WEAR.w - 1) ∧
        t.rd 0x005 WR_LAST = BitVec.ofNat 32 (8 * 2 ^ 28 + n.val * 65536 + 0) ∧
        onlyRegs [(0x005, WR_LAST), (0x005, WR_CNT), (0x005, EVT_STATUS)] s t) ∧
    (∀ (s : State) (who : Initiator),
      s.accepts who 0x005 WR_CMD = true →
      s.blBusy = false →
      completes (.wrCapture who) s fun t =>
        t.fg 0x005 WR_BL_STATUS_STATE = 1 ∧
        t.ansOf who = ⟨rspOk, 0, none⟩ ∧
        onlyRegs [(0x005, WR_BL_STATUS), (0x01C, EVT_STATUS)] s t) ∧
    (∀ (s : State) (who : Initiator),
      s.accepts who 0x005 WR_CMD = true →
      s.blBusy = false →
      s.wear.capt ≠ none →
      completes (.wrStore who) s fun t =>
        t.fg 0x005 WR_BL_STATUS_STATE = 3 ∧
        t.wear.store ≠ none ∧
        onlyRegs [(0x005, WR_BL_STATUS), (0x01C, EVT_STATUS)] s t) ∧
    (∀ (s : State) (tj : Int) (means : List (Nat × Nat)) (ok : Bool),
      s.blState = 1 →
      completes (.blDone tj means ok) s fun t =>
        t.wear.capt = some (tj, means) ∧
        t.fg 0x005 WR_BL_STATUS_STATE = 2 ∧
        t.event 0x005 EV_WR_BL_DONE = true ∧
        onlyRegs [(0x005, WR_BL_STATUS), (0x005, EVT_STATUS)] s t) ∧
    (∀ (s : State) (who : Initiator),
      s.accepts who 0x005 WR_CMD = true →
      s.blBusy = true →
      completes (.wrCapture who) s fun t =>
        (t.wear = s.wear ∧ t.iso = s.iso ∧ t.ansOf who = ⟨rspOk, 0, none⟩) ∧
        onlyRegs [(0x01C, EVT_STATUS)] s t) ∧
    (∀ (s : State) (who : Initiator),
      s.accepts who 0x005 WR_CMD = true →
      (s.blBusy = true ∨ s.wear.capt = none) →
      completes (.wrStore who) s fun t =>
        (t.wear = s.wear ∧ t.iso = s.iso ∧ t.ansOf who = ⟨rspOk, 0, none⟩) ∧
        onlyRegs [(0x01C, EVT_STATUS)] s t) ∧
    (∀ (s : State) (tj : Int) (means : List (Nat × Nat)) (ok : Bool),
      (s.blState ≠ 1 ∧ (s.wear.store = none ∨ s.mramStop = true)) →
      completes (.blDone tj means ok) s fun t =>
        t = s) ∧
    (∀ (s : State) (tj : Int) (means : List (Nat × Nat)) (ok : Bool) (j : UpJob),
      s.blState ≠ 1 →
      s.wear.store = some j →
      s.mramStop = false →
      completes (.blDone tj means ok) s fun t =>
        t.wear.store = none ∧
        (t.fg 0x005 WR_BL_STATUS_STATE = if ok then 4 else 5) ∧
        t.event 0x005 EV_WR_BL_DONE = true) ∧
    (∀ (s : State) (who : Initiator),
      s.accepts who 0x005 WR_CMD = true →
      completes (.wearClr who) s fun t =>
        t.wear = { s.wear with worn := [] } ∧
        t.ansOf who = ⟨rspOk, 0, none⟩ ∧
        onlyRegs [(0x01C, EVT_STATUS)] s t) ∧
    (∀ (s : State) (ref : Fin 2),
      s.fg 0x005 WR_REF_STATUS_IN_USE = ref.val →
      s.refOk (1 - ref.val) = true →
      completes (.referenceFail ref false) s fun t =>
        t.fg 0x005 WR_REF_STATUS_IN_USE = 1 - ref.val ∧
        t.refOk ref.val = false ∧
        t.event 0x005 EV_WR_REF_SWITCH = true ∧
        onlyRegs [(0x005, WR_REF_STATUS), (0x005, EVT_STATUS)] s t) ∧
    (∀ (s : State) (ref : Fin 2),
      (s.fg 0x005 WR_REF_STATUS_IN_USE ≠ ref.val ∨ s.refOk (1 - ref.val) = false) →
      completes (.referenceFail ref false) s fun t =>
        t.refOk ref.val = false ∧
        t.fg 0x005 WR_REF_STATUS_IN_USE = s.fg 0x005 WR_REF_STATUS_IN_USE ∧
        t.event 0x005 (if ref.val = 0 then EV_WR_REF_A_FAIL else EV_WR_REF_B_FAIL) = true ∧
        onlyRegs [(0x005, WR_REF_STATUS), (0x005, EVT_STATUS)] s t) ∧
    (∀ (s : State) (ref : Fin 2),
      completes (.referenceFail ref true) s fun t =>
        (s.fg 0x005 WR_REF_STATUS_IN_USE ≠ ref.val → t = s) ∧
        (s.fg 0x005 WR_REF_STATUS_IN_USE = ref.val → (ref.val ≠ 0 ∨ nbit (s.fg 0x005 WR_SPARE_EN_KIND) 4 = false ∨ s.refOk 1 = false) → t.fg 0x005 WR_REF_STATUS_DRIFT = 1 ∧ t.fg 0x005 WR_REF_STATUS_IN_USE = ref.val) ∧
        ((s.fg 0x005 WR_REF_STATUS_IN_USE = 0 ∧ ref.val = 0 ∧ nbit (s.fg 0x005 WR_SPARE_EN_KIND) 4 = true ∧ s.refOk 1 = true) → t.fg 0x005 WR_REF_STATUS_IN_USE = 1 ∧ t.event 0x005 EV_WR_REF_SWITCH = true)) ∧
    (∀ (s : State) (who : Initiator) (v : Word),
      s.accepts who 0x005 WR_REF_CMD = true →
      (WR_REF_CMD_GO.get v = 0 ∨ WR_REF_CMD_SEL.get v = s.fg 0x005 WR_REF_STATUS_IN_USE ∨ s.refOk (WR_REF_CMD_SEL.get v) = false) →
      completes (.wrRefCmd who v) s fun t =>
        (t.wear = s.wear ∧ t.iso = s.iso ∧ t.ansOf who = ⟨rspOk, 0, none⟩) ∧
        onlyRegs [(0x01C, EVT_STATUS)] s t) ∧
    (∀ (s : State) (who : Initiator) (v : Word),
      s.accepts who 0x005 WR_REF_CMD = true →
      WR_REF_CMD_GO.get v = 1 →
      WR_REF_CMD_SEL.get v ≠ s.fg 0x005 WR_REF_STATUS_IN_USE →
      s.refOk (WR_REF_CMD_SEL.get v) = true →
      completes (.wrRefCmd who v) s fun t =>
        t.fg 0x005 WR_REF_STATUS_IN_USE = WR_REF_CMD_SEL.get v ∧
        t.event 0x005 EV_WR_REF_SWITCH = true ∧
        onlyRegs [(0x005, WR_REF_STATUS), (0x005, EVT_STATUS), (0x01C, EVT_STATUS)] s t) ∧
    (∀ (s : State) (pll : Fin 13),
      s.onSpare pll.val = false →
      s.spareReady pll.val = true →
      completes (.pllLockLoss pll false) s fun t =>
        t.onSpare pll.val = true ∧
        t.pll.getD pll.val false = false ∧
        t.event 0x005 EV_WR_PLL_SWITCH = true ∧
        onlyRegs [(0x005, WR_PLL_STATUS), (0x005, EVT_STATUS)] s t) ∧
    (∀ (s : State) (pll : Fin 13) (spare : Bool),
      completes (.pllLockLoss pll spare) s fun t =>
        (spare = true → t.spll.getD pll.val false = false ∧ t.spareBad pll.val = true) ∧
        (spare = false → t.pll.getD pll.val false = false) ∧
        ((spare = true ∧ s.onSpare pll.val = false) ∨ (spare = false ∧ s.onSpare pll.val = true) → t.isl = s.isl ∧ t.fg 0x005 WR_PLL_STATUS_ON_SPARE = s.fg 0x005 WR_PLL_STATUS_ON_SPARE) ∧
        ((spare = true ∧ s.onSpare pll.val = true ∧ s.pll.getD pll.val false = true) → t.onSpare pll.val = false ∧ t.event 0x005 EV_WR_PLL_SWITCH = true ∧ t.isl = s.isl) ∧
        ((spare = true ∧ s.onSpare pll.val = true ∧ s.pll.getD pll.val false = false) ∨ (spare = false ∧ s.onSpare pll.val = false ∧ s.spareReady pll.val = false) → t.event 0x005 EV_WR_PLL_BOTH_LOST = true)) ∧
    (∀ (s : State) (who : Initiator) (v : Word),
      s.accepts who 0x005 WR_PLL_CMD = true →
      (WR_PLL_CMD_GO.get v = 0 ∨ 13 ≤ WR_PLL_CMD_PLL.get v ∨ s.spareReady (WR_PLL_CMD_PLL.get v) = false) →
      completes (.wrPllCmd who v) s fun t =>
        (t.wear = s.wear ∧ t.iso = s.iso ∧ t.ansOf who = ⟨rspOk, 0, none⟩) ∧
        onlyRegs [(0x01C, EVT_STATUS)] s t) ∧
    (∀ (s : State) (who : Initiator) (v : Word),
      s.accepts who 0x005 WR_PLL_CMD = true →
      WR_PLL_CMD_GO.get v = 1 →
      WR_PLL_CMD_PLL.get v < 13 →
      s.spareReady (WR_PLL_CMD_PLL.get v) = true →
      completes (.wrPllCmd who v) s fun t =>
        t.onSpare (WR_PLL_CMD_PLL.get v) = true ∧
        t.event 0x005 EV_WR_PLL_SWITCH = true ∧
        onlyRegs [(0x005, WR_PLL_STATUS), (0x005, EVT_STATUS), (0x01C, EVT_STATUS)] s t) ∧
    (∀ (s : State) (pll : Fin 13) (spare : Bool),
      s.clocked ((pllIslands pll.val).headD 0) = true →
      completes (.pllRelock pll spare) s fun t =>
        (spare = true → t.spll.getD pll.val false = true ∧ t.pll = s.pll) ∧
        (spare = false → t.pll.getD pll.val false = true ∧ t.spll = s.spll) ∧
        t.regs = s.regs) ∧
    (∀ (s : State) (pll : Fin 13) (spare : Bool),
      s.clocked ((pllIslands pll.val).headD 0) = false →
      completes (.pllRelock pll spare) s fun t =>
        t.onSpare pll.val = spare ∧
        (if spare then t.spll.getD pll.val false else t.pll.getD pll.val false) = true)

/-! ### Firmware update (chapter 18) -/

namespace Sys2Proof.Machine

/-- The seven commands of UP_CMD. -/
abbrev updCmds (who : Initiator) (v : Word) : List Instr :=
  [.updClear who v, .updWrite who v, .updVerify who v, .updArm who v, .updArmNow who v, .updDisarm who v, .updWriteArea who v]

end Sys2Proof.Machine

namespace Sys2Proof.Machine

/-- Each of the commands leads from `s` to `t`. -/
def leads (l : List Instr) (s t : State) : Bool := l.all fun i => match exec i s with
  | .next u => decide (u = t)
  | _ => false

end Sys2Proof.Machine

/-- The UP_CMD commands are one write: GO 0 does nothing; while a command runs, or with an OP not 1 to 7, CMD_REFUSED; the next command ends
COMMITTED. CLEAR (OP 1) and WRITE (OP 2) from ARMED on, a WRITE outside the slot or unaligned, and a WRITE_AREA (OP 7) of an area not
allowed are refused. CLEAR below ARMED clears the map, keeps UP_SEQ and shows LOADING, but has no effect while no MRAM write may begin.
WRITE of an aligned chunk of the slot, and WRITE_AREA of an area allowed, start the write; UPD_WRITE_DONE puts the bytes into the MRAM and
sets the chunk's bit, or raises MRAM_FAIL with the bit 0; it does nothing while no write may go on. VERIFY (OP 3) starts the check;
UPD_VERIFY_DONE ends it with VERIFIED, or with UP_FAIL, the event of the first failing check and a VERIFIED state lost; a component with a
wrong DIGEST or SIG loses its pieces. ARM (OP 4) in VERIFIED with no SVN below its floor and an epoch 2 ahead arms the strike; ARM_NOW (OP
5) strikes at once; else both are refused, for an SVN with UPD_ROLLBACK_REFUSED too. DISARM (OP 6) takes the arming back. UPD_CONFIRM is
kept in TRIAL; STRIKE_DONE with the first run passed goes to HELD, and asks for the switchover on a standby whose twin is ARMED.
TRIAL_EXPIRED in TRIAL, TWIN_STRIKE_TIMEOUT of a hub of a pair in HELD whose twin is not, and SWITCHOVER_REQUEST_REPEAT of an active hub
that was refused, fail the strike: the record names the other slot again and the reset is asked for; an active hub first asks for a
switchover, and a waiting standby asks again. Else nothing. CARD_RELAY_START on the active hub in HELD, of a pair only with its twin there
too, starts with the relayable pitches; CARD_WAIT_EXPIRED skips the late cards that are gone, and another late card fails the strike,
RL_REVERT first. UPDATE_COMMIT of an active hub whose cards have all passed, or of a hub in HELD whose twin has committed the same: the
record final, COMMITTED, the strike counted, the floors raised, FLOOR_FAIL for a failing bit. -/
def Obligations.UpdateCommands : Prop :=
    (∀ (s : State) (who : Initiator) (v : Word),
      completes (.updClear who v) s fun t =>
        leads (updCmds who v) s t = true) ∧
    (∀ (s : State) (who : Initiator) (v : Word),
      s.accepts who 0x290 UP_CMD = true →
      (UP_CMD_GO.get v = 0 ∨ s.up.job ≠ none ∨ UP_CMD_OP.get v = 0 ∨ 7 < UP_CMD_OP.get v) →
      completes (.updClear who v) s fun t =>
        (t.up = s.up ∧ t.mram = s.mram ∧ t.gs = s.gs ∧ t.ansOf who = ⟨rspOk, 0, none⟩) ∧
        (t.upState = (if UP_CMD_GO.get v = 1 ∧ s.up.job = none ∧ s.upState = 7 then 0 else s.upState)) ∧
        (UP_CMD_GO.get v = 1 → t.event 0x290 EV_UP_CMD_REFUSED = true) ∧
        (UP_CMD_GO.get v = 0 → t.event 0x290 EV_UP_CMD_REFUSED = s.event 0x290 EV_UP_CMD_REFUSED) ∧
        onlyRegs [(0x290, UP_STATUS), (0x290, EVT_STATUS), (0x01C, EVT_STATUS)] s t) ∧
    (∀ (s : State) (who : Initiator) (v : Word),
      s.accepts who 0x290 UP_CMD = true →
      UP_CMD_GO.get v = 1 →
      s.up.job = none →
      (((UP_CMD_OP.get v = 1 ∨ UP_CMD_OP.get v = 2) ∧ 3 ≤ s.upState ∧ s.upState ≠ 7) ∨ (UP_CMD_OP.get v = 2 ∧ (s.fg 0x290 UP_ADDR_ADDR % 512 ≠ 0 ∨ 0x180000 ≤ s.fg 0x290 UP_ADDR_ADDR)) ∨ (UP_CMD_OP.get v = 7 ∧ s.areaOk (s.fg 0x290 UP_ADDR_ADDR) = false)) →
      completes (.updWrite who v) s fun t =>
        t.event 0x290 EV_UP_CMD_REFUSED = true ∧
        t.upState = (if s.upState = 7 then 0 else s.upState) ∧
        (t.up = s.up ∧ t.mram = s.mram ∧ t.ansOf who = ⟨rspOk, 0, none⟩) ∧
        onlyRegs [(0x290, UP_STATUS), (0x290, EVT_STATUS), (0x01C, EVT_STATUS)] s t) ∧
    (∀ (s : State) (who : Initiator) (v : Word),
      s.accepts who 0x290 UP_CMD = true →
      (UP_CMD_GO.get v = 1 ∧ UP_CMD_OP.get v = 1) →
      s.up.job = none →
      (s.upState < 3 ∨ s.upState = 7) →
      completes (.updClear who v) s fun t =>
        (s.mramStop = false → t.upState = 1 ∧ t.up = { s.up with seq := (s.rd 0x290 UP_SEQ).toNat }) ∧
        (s.mramStop = false → ∀ p < 384, t.pieceOk p = false) ∧
        (s.mramStop = true → t.up = s.up ∧ t.mram = s.mram) ∧
        t.ansOf who = ⟨rspOk, 0, none⟩ ∧
        onlyRegs [(0x290, UP_STATUS), (0x01C, EVT_STATUS)] s t) ∧
    (∀ (s : State) (who : Initiator) (v : Word),
      s.accepts who 0x290 UP_CMD = true →
      (UP_CMD_GO.get v = 1 ∧ UP_CMD_OP.get v = 2) →
      (s.up.job = none ∧ (s.upState < 3 ∨ s.upState = 7)) →
      (s.fg 0x290 UP_ADDR_ADDR % 512 = 0 ∧ s.fg 0x290 UP_ADDR_ADDR < 0x180000) →
      completes (.updWrite who v) s fun t =>
        t.up = { s.up with job := some { op := 2, addr := slotBase s.idleSlot + s.fg 0x290 UP_ADDR_ADDR, bytes := s.wbuf, chunk := s.fg 0x290 UP_ADDR_ADDR / 512, started := !s.mramStop } } ∧
        t.upState = 1 ∧
        t.fg 0x290 UP_STATUS_BUSY = 1 ∧
        t.mram = s.mram ∧
        onlyRegs [(0x290, UP_STATUS), (0x01C, EVT_STATUS)] s t) ∧
    (∀ (s : State) (who : Initiator) (v : Word),
      s.accepts who 0x290 UP_CMD = true →
      (UP_CMD_GO.get v = 1 ∧ UP_CMD_OP.get v = 7) →
      s.up.job = none →
      s.areaOk (s.fg 0x290 UP_ADDR_ADDR) = true →
      completes (.updWriteArea who v) s fun t =>
        t.up = { s.up with job := some { op := 7, addr := s.fg 0x290 UP_ADDR_ADDR, bytes := s.wbuf, started := !s.mramStop } } ∧
        t.upState = (if s.upState = 7 then 0 else s.upState) ∧
        t.fg 0x290 UP_STATUS_BUSY = 1 ∧
        t.mram = s.mram ∧
        onlyRegs [(0x290, UP_STATUS), (0x01C, EVT_STATUS)] s t) ∧
    (∀ (s : State) (ok : Bool) (j : UpJob),
      s.up.job = some j →
      (j.op = 2 ∨ j.op = 7) →
      s.mramStop = false →
      completes (.updWriteDone ok) s fun t =>
        (t.up = { s.up with job := none } ∧ t.fg 0x290 UP_STATUS_BUSY = 0) ∧
        (j.op = 7 → t.mram = (s.mwr j.addr j.bytes).mram) ∧
        (j.op = 2 ∧ ok = true → t.mram = ((s.mwr j.addr j.bytes).setChunk j.chunk true).mram) ∧
        (j.op = 2 ∧ ok = false → t.event 0x290 EV_UP_UPD_MRAM_FAIL = true ∧ t.mram = ((s.cutWords j.addr j.bytes).setChunk j.chunk false).mram) ∧
        onlyRegs [(0x290, UP_STATUS), (0x290, EVT_STATUS)] s t) ∧
    (∀ (s : State) (ok : Bool),
      (s.up.job = none ∨ s.up.job.map (·.op) = some 3 ∨ s.mramStop = true) →
      completes (.updWriteDone ok) s fun t =>
        t = s) ∧
    (∀ (s : State) (who : Initiator) (v : Word),
      s.accepts who 0x290 UP_CMD = true →
      (UP_CMD_GO.get v = 1 ∧ UP_CMD_OP.get v = 3) →
      s.up.job = none →
      completes (.updVerify who v) s fun t =>
        t.up = { s.up with job := some { op := 3 } } ∧
        t.upState = (if s.upState = 7 then 0 else s.upState) ∧
        t.fg 0x290 UP_STATUS_BUSY = 1 ∧
        onlyRegs [(0x290, UP_STATUS), (0x01C, EVT_STATUS)] s t) ∧
    (∀ (s : State) (j : UpJob),
      s.up.job = some j →
      j.op = 3 →
      completes (.updVerifyDone) s fun t =>
        (t.up = { s.up with job := none } ∧ t.fg 0x290 UP_STATUS_BUSY = 0) ∧
        (s.verify s.idleSlot = none → t.event 0x290 EV_UP_VERIFIED = true ∧ t.mram = s.mram ∧ t.upState = (if s.upState < 3 then 2 else s.upState)) ∧
        (s.verify s.idleSlot ≠ none → t.upState = (if s.upState = 2 then 0 else s.upState)) ∧
        (∀ reason i, s.verify s.idleSlot = some (reason, i) → (t.rd 0x290 UP_FAIL).toNat / 2 ^ 24 = reason ∧ UP_FAIL_ENTRY.get (t.rd 0x290 UP_FAIL) = i ∧ t.event 0x290 (if reason = 7 then EV_UP_UPD_ROLLBACK_REFUSED else EV_UP_UPD_VERIFY_FAIL) = true ∧ t.mram = (if reason = 5 ∨ reason = 6 then (s.clearPieces (s.entry s.idleSlot i)).mram else s.mram) ∧ UP_FAIL_PIECE.get (t.rd 0x290 UP_FAIL) = t.firstMissing s.idleSlot) ∧
        onlyRegs [(0x290, UP_STATUS), (0x290, UP_FAIL), (0x290, EVT_STATUS)] s t) ∧
    (∀ (s : State),
      s.up.job.map (·.op) ≠ some 3 →
      completes (.updVerifyDone) s fun t =>
        t = s) ∧
    (∀ (s : State) (who : Initiator) (v : Word),
      s.accepts who 0x290 UP_CMD = true →
      (UP_CMD_GO.get v = 1 ∧ UP_CMD_OP.get v = 4) →
      s.up.job = none →
      s.upState = 2 →
      ((s.entries s.idleSlot).all s.svnOk) = true →
      s.farEnough (s.rd 0x290 UP_EPOCH).toNat = true →
      (s.redundant = false ∨ s.manNode s.idleSlot = true) →
      completes (.updArm who v) s fun t =>
        t.upState = 3 ∧
        t.up = { s.up with strikeAt := some (s.rd 0x290 UP_EPOCH).toNat } ∧
        onlyRegs [(0x290, UP_STATUS), (0x01C, EVT_STATUS)] s t) ∧
    (∀ (s : State) (who : Initiator) (v : Word),
      s.accepts who 0x290 UP_CMD = true →
      UP_CMD_GO.get v = 1 →
      s.up.job = none →
      (UP_CMD_OP.get v = 4 ∨ UP_CMD_OP.get v = 5) →
      (s.upState ≠ 2 ∨ ((s.entries s.idleSlot).all s.svnOk) = false ∨ (UP_CMD_OP.get v = 4 ∧ (s.farEnough (s.rd 0x290 UP_EPOCH).toNat = false ∨ (s.redundant = true ∧ s.manNode s.idleSlot = false)))) →
      completes (.updArm who v) s fun t =>
        t.event 0x290 EV_UP_CMD_REFUSED = true ∧
        (s.upState = 2 ∧ ((s.entries s.idleSlot).all s.svnOk) = false → t.event 0x290 EV_UP_UPD_ROLLBACK_REFUSED = true) ∧
        t.upState = (if s.upState = 7 then 0 else s.upState) ∧
        (t.up = s.up ∧ t.gs = s.gs) ∧
        onlyRegs [(0x290, UP_STATUS), (0x290, EVT_STATUS), (0x01C, EVT_STATUS)] s t) ∧
    (∀ (s : State) (who : Initiator) (v : Word),
      s.accepts who 0x290 UP_CMD = true →
      (UP_CMD_GO.get v = 1 ∧ UP_CMD_OP.get v = 5) →
      s.up.job = none →
      s.upState = 2 →
      ((s.entries s.idleSlot).all s.svnOk) = true →
      completes (.updArmNow who v) s fun t =>
        (s.mramStop = false → t.up.active = s.idleSlot ∧ t.up.trial = true ∧ t.up.recSeq = s.manSeq s.idleSlot) ∧
        (s.mramStop = false ∧ s.mramBusy = false ∧ s.gs.seq = none ∧ s.levelOf 0xA < 3 → t.gs.seq = some { cause := 0xA, level := s.levelOf 0xA }) ∧
        (s.mramStop = true → t.up = s.up ∧ t.gs = s.gs)) ∧
    (∀ (s : State) (who : Initiator) (v : Word),
      s.accepts who 0x290 UP_CMD = true →
      (UP_CMD_GO.get v = 1 ∧ UP_CMD_OP.get v = 6) →
      s.up.job = none →
      completes (.updDisarm who v) s fun t =>
        (t.upState = (if s.upState = 3 then 2 else if s.upState = 7 then 0 else s.upState)) ∧
        t.up = (if s.upState = 3 then { s.up with strikeAt := none, turn := false } else s.up) ∧
        onlyRegs [(0x290, UP_STATUS), (0x01C, EVT_STATUS)] s t) ∧
    (∀ (s : State) (who : Initiator),
      s.accepts who 0x290 UP_CTRL = true →
      completes (.updConfirm who) s fun t =>
        t.up = (if s.upState = 4 then { s.up with confirmed := true } else s.up) ∧
        t.ansOf who = ⟨rspOk, 0, none⟩ ∧
        onlyRegs [(0x01C, EVT_STATUS)] s t) ∧
    (∀ (s : State),
      s.upState = 4 →
      s.firstRun = true →
      completes (.strikeDone) s fun t =>
        t.upState = 5 ∧
        t.event 0x290 EV_UP_STRIKE_DONE = true ∧
        (s.paired = true ∧ s.role = 2 ∧ s.twinUp = 3 ∧ s.up.swapWanted = false → t.up = { s.up with swapWanted := true } ∧ t = ({ ((s.setUpState 5).raise 0x290 EV_UP_STRIKE_DONE) with up := { s.up with swapWanted := true } } : State).swapRequest) ∧
        (¬ (s.paired = true ∧ s.role = 2 ∧ s.twinUp = 3 ∧ s.up.swapWanted = false) → t.up = s.up ∧ t.tw = s.tw) ∧
        onlyRegs [(0x290, UP_STATUS), (0x290, EVT_STATUS), (0x024, EVT_STATUS)] s t) ∧
    (∀ (s : State),
      (s.upState ≠ 4 ∨ s.firstRun = false) →
      completes (.strikeDone) s fun t =>
        t = s) ∧
    (∀ (s : State),
      s.upState = 4 →
      s.firstRun = false →
      s.up.trial = true →
      s.mramStop = false →
      completes (.trialExpired) s fun t =>
        (t.up.active = 1 - s.up.active ∧ t.up.trial = false) ∧
        (s.mramBusy = false ∧ s.gs.seq = none ∧ s.levelOf 0xA < 3 → t.gs.seq = some { cause := 0xA, level := s.levelOf 0xA }) ∧
        t = s.strikeFail) ∧
    (∀ (s : State),
      (s.upState ≠ 4 ∨ s.firstRun = true) →
      completes (.trialExpired) s fun t =>
        t = s) ∧
    (∀ (s : State),
      s.upState = 5 →
      s.redundant = true →
      (s.twinUp < 5 ∨ 7 < s.twinUp) →
      completes (.twinStrikeTimeout) s fun t =>
        (s.role ≠ 1 ∧ s.up.trial = true ∧ s.mramStop = false → t.up.active = 1 - s.up.active ∧ t.up.trial = false) ∧
        (s.role ≠ 1 → t = s.strikeFail) ∧
        (s.role = 1 ∧ s.up.leaving = false → t = ({ s with up := { s.up with leaving := true } } : State).swapRequest) ∧
        (s.role = 1 ∧ s.up.leaving = true → t = s)) ∧
    (∀ (s : State),
      (s.upState ≠ 5 ∨ s.redundant = false ∨ (5 ≤ s.twinUp ∧ s.twinUp ≤ 7)) →
      completes (.twinStrikeTimeout) s fun t =>
        t = s) ∧
    (∀ (s : State),
      completes (.switchoverRequestRepeat) s fun t =>
        (s.tw.swap ≠ none ∨ s.tw.swapYes = true ∨ s.tw.quiet ≠ [] → t = s) ∧
        (s.tw.swap = none ∧ s.tw.swapYes = false ∧ s.tw.quiet = [] ∧ s.up.leaving = true ∧ s.up.trial = true ∧ s.mramStop = false → t.up.active = 1 - s.up.active ∧ t.up.trial = false) ∧
        (s.tw.swap = none ∧ s.tw.swapYes = false ∧ s.tw.quiet = [] ∧ s.up.leaving = false ∧ s.up.swapWanted = true ∧ s.upState = 5 ∧ s.role = 2 → t = s.swapRequest) ∧
        (s.up.leaving = false ∧ (s.up.swapWanted = false ∨ s.upState ≠ 5 ∨ s.role ≠ 2) → t = s)) ∧
    (∀ (s : State),
      s.upState = 5 →
      s.role = 1 →
      (s.paired = false ∨ s.twinUp = 5) →
      completes (.cardRelayStart) s fun t =>
        t.upState = 6 ∧
        t.up = { s.up with relayed := (List.range 24).filter s.relayable, activated := false, reverting := [] } ∧
        t.fg 0x290 UP_CNT_SKIPPED = 24 - ((List.range 24).filter s.relayable).length ∧
        ((List.range 24).all (fun n => if s.relayable n then decide (t.card n = { s.card n with rlSn := some (s.cardSn n), rlState := 0, rlNext := 0, rlOff := none, rlCheck := false }) else decide (t.card n = s.card n)) = true) ∧
        onlyRegs [(0x290, UP_STATUS), (0x290, UP_CNT)] s t) ∧
    (∀ (s : State),
      (s.upState ≠ 5 ∨ s.role ≠ 1 ∨ (s.paired = true ∧ s.twinUp ≠ 5)) →
      completes (.cardRelayStart) s fun t =>
        t = s) ∧
    (∀ (s : State),
      s.upState = 6 →
      s.up.activated = true →
      s.up.reverting = [] →
      ((s.up.relayed.filter fun n => !s.cardPassed n).all fun n => decide (s.clState n ≤ 1)) = true →
      completes (.cardWaitExpired) s fun t =>
        t.up = { s.up with relayed := s.up.relayed.filter (fun n => s.cardPassed n || !decide (s.clState n ≤ 1)) } ∧
        t.upState = 6 ∧
        t.fg 0x290 UP_CNT_SKIPPED = min (s.fg 0x290 UP_CNT_SKIPPED + (s.up.relayed.filter fun n => !s.cardPassed n).length) 255 ∧
        onlyRegs [(0x290, UP_CNT)] s t) ∧
    (∀ (s : State),
      s.upState = 6 →
      s.up.activated = true →
      s.up.reverting = [] →
      (s.up.relayed.any fun n => !s.cardPassed n && decide (1 < s.clState n)) = true →
      completes (.cardWaitExpired) s fun t =>
        ((s.up.relayed.any fun n => decide (s.clState n = 5)) = true → t.up.reverting = s.up.relayed.filter (fun n => decide (s.clState n = 5)) ∧ (t.up.reverting.all fun n => decide (24 ≤ n) || (t.card n).relay.contains [0x14]) = true ∧ t.gs = s.gs) ∧
        ((s.up.relayed.any fun n => decide (s.clState n = 5)) = false ∧ s.up.trial = true ∧ s.mramStop = false → t.up.active = 1 - s.up.active ∧ t.up.trial = false)) ∧
    (∀ (s : State),
      (s.upState ≠ 6 ∨ s.up.activated = false ∨ s.up.reverting ≠ []) →
      completes (.cardWaitExpired) s fun t =>
        t = s) ∧
    (∀ (s : State) (fuse : Option Nat),
      ((s.upState = 6 ∧ s.role = 1 ∧ s.up.reverting = [] ∧ s.up.relayed.all s.cardPassed = true) ∨ (s.upState = 5 ∧ s.twinUp = 7 ∧ s.up.twinSeq = (s.rd 0x290 UP_SEQ).toNat)) →
      s.mramStop = false →
      completes (.updateCommit fuse) s fun t =>
        t.upState = 7 ∧
        (t.up.trial = false ∧ t.up.active = s.up.active) ∧
        t.event 0x290 EV_UP_COMMITTED = true ∧
        t.fg 0x290 UP_CNT_STRIKES = min (s.fg 0x290 UP_CNT_STRIKES + 1) (2 ^ UP_CNT_STRIKES.w - 1) ∧
        (t.up.floorOwed = true → t.event 0x290 EV_UP_FLOOR_FAIL = true ∧ fuse ≠ none) ∧
        t.gs = (({ s with up := { s.up with trial := false } } : State).raiseFloors fuse).gs ∧
        onlyRegs [(0x290, UP_STATUS), (0x290, UP_CNT), (0x290, EVT_STATUS)] s t) ∧
    (∀ (s : State) (fuse : Option Nat),
      (((s.upState ≠ 6 ∨ s.role ≠ 1 ∨ s.up.reverting ≠ [] ∨ s.up.relayed.all s.cardPassed = false) ∧ (s.upState ≠ 5 ∨ s.twinUp ≠ 7 ∨ s.up.twinSeq ≠ (s.rd 0x290 UP_SEQ).toNat)) ∨ s.mramStop = true) →
      completes (.updateCommit fuse) s fun t =>
        t = s)

/-! ### Twin operation (chapter 14) -/

namespace Sys2Proof.Machine

/-- The first message that waits at the twin port, if any, is not one of these. -/
abbrev awaits (s : State) (p : Frame → Bool) : Bool := s.tw.inbox.head?.all fun f => !p f

end Sys2Proof.Machine

namespace Sys2Proof.Machine

/-- The role after the twin's TGUY with its role and PREFER (R397, R415, R416). -/
def guyRole (s : State) (twin prefer : Nat) : Nat :=
  if s.role = 0 then
    (if twin = 0 then
      (if s.fg 0x024 TW_CFG_PREFER ≠ prefer then (if s.fg 0x024 TW_CFG_PREFER = 1 then 1 else 2)
        else if s.hubId < s.twinHub then 1 else 2)
    else if twin = 1 ∨ twin = 3 then 2 else 0)
  else if s.role = 3 ∧ twin = 1 then 2
  else if s.role = 1 ∧ twin = 1 ∧ (2 * s.linksSel.length < s.linksUp.length ∨
      (2 * s.linksSel.length = s.linksUp.length ∧ s.twinHub < s.hubId)) then 2
  else s.role

end Sys2Proof.Machine

/-- TGUY_SEND of a redundant hub with the twin port ACTIVE sends one guy message with its sequence number, role, READY and PREFER; else nothing.
TGUY_RECEIVED takes the message: the twin's role shown, on the active hub its READY; the roles settle: of two starting hubs the preferred or
else the lower is ACTIVE; one active hub keeps the other a standby; of two, the one with fewer cards, or the higher, steps back with
SPLIT_BRAIN. TWIN_GUY_TIMEOUT loses the guy line; a hub of a pair whose twin falls silent raises TWIN_LOST, and a standby claims.
RELEASE_RECEIVED by a standby makes it claim. CLAIM_DECISION makes a claiming hub ACTIVE unless every card up selects the other hub.
TWIN_START_WAIT_EXPIRED of a starting hub of a pair without a twin port makes it ACTIVE with PRESENT 0; else nothing. TW_RELEASE on the
active hub with a standby heard sends RELEASE and stands by, else RELEASE_REFUSED; TW_RESET_TWIN sends RESET through an ACTIVE twin port.
TW_SWAP and PERIODIC_SWAP_DUE on an active hub with SYNCED and READY propose a swap, else SWAP_REFUSED; a standby passes TW_SWAP on.
SWAP_PROPOSE_RECEIVED by a READY standby accepts with OP 2, else it refuses with OP 3, and an active hub takes it as a request;
SWAP_ANSWER_RECEIVED accepts or ends the proposal, SWAP_ANSWER_TIMEOUT ends it. PITCH_QUIET and QUIET_HOLD_TIMEOUT end a pitch's hold; the
last one ends the swap with SWAP_DONE and its count. -/
def Obligations.TwinRolesAndSwaps : Prop :=
    (∀ (s : State),
      s.redundant = true →
      s.portActive .twin = true →
      completes (.tguySend) s fun t =>
        (t.port .twin).ll.length = (s.port .twin).ll.length + 1 ∧
        ((t.port .twin).ll.getLast?.map (fun f => (f.hdr.mtype, f.hdr.ll, f.hdr.argBits 16 3, f.hdr.argBits 20 1))) = some (0x20, true, s.role, s.fg 0x024 TW_CFG_PREFER) ∧
        (s.tw.seq < 65536 → ((t.port .twin).ll.getLast?.map (fun f => f.hdr.argBits 0 16)) = some s.tw.seq) ∧
        (((t.port .twin).ll.getLast?.map (fun f => f.hdr.argBits 19 1)) = some (bit (decide (s.role = 2) && t.fb 0x024 TW_STATUS_READY)) ∨ 65536 ≤ s.tw.seq) ∧
        t.tw.seq = (s.tw.seq + 1) % 65536 ∧
        t.role = s.role) ∧
    (∀ (s : State),
      (s.redundant = false ∨ s.portActive .twin = false) →
      completes (.tguySend) s fun t =>
        t = s) ∧
    (∀ (s : State) (f : Frame) (rest : List Frame),
      (s.tw.inbox = f :: rest) →
      f.hdr.mtype = 0x20 →
      s.redundant = true →
      s.portActive .twin = true →
      completes (.tguyReceived) s fun t =>
        t.fg 0x024 TW_STATUS_TWIN_ROLE = f.hdr.argBits 16 3 ∧
        t.role = guyRole s (f.hdr.argBits 16 3) (f.hdr.argBits 20 1) ∧
        (t.tw.inbox = rest ∧ t.tw.guy = true ∧ t.tw.silent = false) ∧
        (t.role ≠ s.role → t.event 0x024 EV_TW_ROLE_CHANGE = true) ∧
        ((s.role = 1 ∧ t.role = 2) → t.event 0x024 EV_TW_SPLIT_BRAIN = true) ∧
        ((s.role = 1 ∧ t.role = 1) → t.fg 0x024 TW_STATUS_READY = f.hdr.argBits 19 1)) ∧
    (∀ (s : State),
      completes (.tguyReceived) s fun t =>
        (awaits s (fun f => decide (f.hdr.mtype = 0x20)) = true → t = s) ∧
        ((awaits s (fun f => decide (f.hdr.mtype = 0x20)) = false ∧ s.redundant = false) → t = { s with tw := { s.tw with inbox := s.tw.inbox.drop 1 } })) ∧
    (∀ (s : State),
      completes (.twinGuyTimeout) s fun t =>
        t.tw.guy = false ∧
        ((s.redundant = true ∧ s.ringGuy = false ∧ s.tw.silent = false) → t.event 0x024 EV_TW_TWIN_LOST = true ∧ t.tw = { s.tw with guy := false, silent := true } ∧ t.role = (if s.role = 2 then 3 else s.role)) ∧
        ((s.redundant = true ∧ s.ringGuy = false ∧ s.tw.silent = false ∧ s.role = 2) → t.fg 0x024 TW_STATUS_MSTATE = 0 ∧ (s.fb 0x024 TW_STATUS_READY = false → t.event 0x024 EV_TW_CLAIM_UNREADY = true)) ∧
        ((s.redundant = true ∧ s.ringGuy = true) → t = { s with tw := { s.tw with guy := false, silent := false } }) ∧
        ((s.redundant = false ∨ (s.ringGuy = false ∧ s.tw.silent = true)) → t = { s with tw := { s.tw with guy := false } }) ∧
        onlyRegs [(0x024, TW_STATUS), (0x024, EVT_STATUS)] s t) ∧
    (∀ (s : State) (f : Frame) (rest : List Frame),
      (s.tw.inbox = f :: rest) →
      isRole [4] f = true →
      s.redundant = true →
      s.role = 2 →
      completes (.releaseReceived) s fun t =>
        t.role = 3 ∧
        t.event 0x024 EV_TW_ROLE_CHANGE = true ∧
        t.tw = { s.tw with inbox := rest } ∧
        onlyRegs [(0x024, TW_STATUS), (0x024, EVT_STATUS)] s t) ∧
    (∀ (s : State),
      completes (.releaseReceived) s fun t =>
        (awaits s (isRole [4]) = true → t = s) ∧
        ((awaits s (isRole [4]) = false ∧ (s.redundant = false ∨ s.role ≠ 2)) → t = { s with tw := { s.tw with inbox := s.tw.inbox.drop 1 } })) ∧
    (∀ (s : State),
      completes (.claimDecision) s fun t =>
        ((s.role = 3 ∧ (s.linksUp = [] ∨ s.linksSel ≠ [])) → t.role = 1 ∧ t.fg 0x024 TW_CNT_SWITCH_UNPLANNED = min (s.fg 0x024 TW_CNT_SWITCH_UNPLANNED + 1) (2 ^ TW_CNT_SWITCH_UNPLANNED.w - 1) ∧ t.event 0x024 EV_TW_ROLE_CHANGE = true) ∧
        ((s.role = 3 ∧ s.linksUp ≠ [] ∧ s.linksSel = []) → t.role = 2 ∧ t.event 0x024 EV_TW_SPLIT_BRAIN = true ∧ t.event 0x024 EV_TW_ROLE_CHANGE = true) ∧
        (s.role ≠ 3 → t = s)) ∧
    (∀ (s : State),
      completes (.twinStartWaitExpired) s fun t =>
        ((s.redundant = true ∧ s.role = 0 ∧ s.portActive .twin = false) → t.role = 1 ∧ t.fg 0x024 TW_STATUS_PRESENT = 0 ∧ t.event 0x024 EV_TW_ROLE_CHANGE = true) ∧
        ((s.redundant = false ∨ s.role ≠ 0 ∨ s.portActive .twin = true) → t = s)) ∧
    (∀ (s : State) (who : Initiator),
      s.accepts who 0x024 TW_CMD = true →
      completes (.twRelease who) s fun t =>
        ((s.redundant = true ∧ s.role = 1 ∧ s.twinGuy = true ∧ s.fg 0x024 TW_STATUS_TWIN_ROLE = 2) → t.role = 2 ∧ (t.port .twin).ll = (s.port .twin).ll ++ [s.twinFrame 0x21 4 []]) ∧
        ((s.redundant = false ∨ s.role ≠ 1 ∨ s.twinGuy = false ∨ s.fg 0x024 TW_STATUS_TWIN_ROLE ≠ 2) → t.event 0x024 EV_TW_RELEASE_REFUSED = true ∧ t.role = s.role ∧ t.tw = s.tw) ∧
        t.ansOf who = ⟨rspOk, 0, none⟩) ∧
    (∀ (s : State) (who : Initiator),
      s.accepts who 0x024 TW_CMD = true →
      completes (.twResetTwin who) s fun t =>
        (t.port .twin).ll = (s.port .twin).ll ++ (if s.portActive .twin then [s.twinFrame 0x21 5 []] else []) ∧
        t.ansOf who = ⟨rspOk, 0, none⟩ ∧
        onlyRegs [(0x01C, EVT_STATUS)] s t) ∧
    (∀ (s : State) (who : Initiator),
      s.accepts who 0x024 TW_CMD = true →
      completes (.twSwap who) s fun t =>
        ((s.redundant = true ∧ s.role = 1 ∧ s.tw.swap = none ∧ s.tw.quiet = [] ∧ s.fb 0x024 TW_STATUS_READY = true ∧ s.fg 0x024 TW_STATUS_MSTATE = 2 ∧ s.mirrorOk = true) → t.tw = { s.tw with swap := some (s.aheadEpoch, false) } ∧ (t.port .twin).ll = (s.port .twin).ll ++ [s.twinFrame 0x21 (1 + 65536 * (s.aheadEpoch % 2 ^ 32)) []]) ∧
        ((s.redundant = true ∧ s.role = 2 ∧ s.portActive .twin = true) → t.tw = s.tw ∧ (t.port .twin).ll = (s.port .twin).ll ++ [s.twinFrame 0x21 1 []]) ∧
        ((s.redundant = false ∨ (s.role = 2 ∧ s.portActive .twin = false) ∨ (s.role ≠ 2 ∧ (s.role ≠ 1 ∨ s.tw.swap ≠ none ∨ s.tw.quiet ≠ [] ∨ s.fb 0x024 TW_STATUS_READY = false ∨ s.fg 0x024 TW_STATUS_MSTATE ≠ 2 ∨ s.mirrorOk = false))) → t.event 0x024 EV_TW_SWAP_REFUSED = true ∧ t.tw = s.tw) ∧
        t.ansOf who = ⟨rspOk, 0, none⟩ ∧
        onlyRegs [(0x024, EVT_STATUS), (0x01C, EVT_STATUS)] s t) ∧
    (∀ (s : State),
      completes (.periodicSwapDue) s fun t =>
        ((s.redundant = true ∧ s.role = 1 ∧ s.fg 0x024 TW_SWAP_INTERVAL ≠ 0) → t.fg 0x024 TW_STATUS_SWAP_DUE = 1 ∧ t = (s.fs 0x024 TW_STATUS_SWAP_DUE 1).swapRequest) ∧
        ((s.redundant = true ∧ s.role = 1 ∧ s.fg 0x024 TW_SWAP_INTERVAL ≠ 0 ∧ s.tw.swap = none ∧ s.tw.quiet = [] ∧ s.fb 0x024 TW_STATUS_READY = true ∧ s.fg 0x024 TW_STATUS_MSTATE = 2 ∧ s.mirrorOk = true) → t.tw.swap = some (s.aheadEpoch, false)) ∧
        ((s.redundant = false ∨ s.role ≠ 1 ∨ s.fg 0x024 TW_SWAP_INTERVAL = 0) → t = s)) ∧
    (∀ (s : State) (f : Frame) (rest : List Frame),
      (s.tw.inbox = f :: rest) →
      isRole [1] f = true →
      completes (.swapProposeReceived) s fun t =>
        t.tw.inbox = rest ∧
        (s.role = 1 → t = ({ s with tw := { s.tw with inbox := rest } } : State).swapRequest) ∧
        ((s.role = 2 ∧ s.mirrorOk = true ∧ s.fg 0x024 TW_STATUS_MSTATE = 2 ∧ ((s.scanOn = false ∧ f.hdr.argBits 16 32 = 0) ∨ (s.scanOn = true ∧ f.hdr.argBits 16 32 ≠ 0 ∧ epochDiff (f.hdr.argBits 16 32) s.epoch ≠ 0 ∧ epochDiff (f.hdr.argBits 16 32) s.epoch < 2 ^ 31))) → t.tw.swapYes = true ∧ t.tw.swap = some (f.hdr.argBits 16 32, true) ∧ (t.port .twin).ll.getLast?.map (·.hdr.argBits 0 8) = some 2) ∧
        ((s.role ≠ 1 ∧ (s.role ≠ 2 ∨ s.mirrorOk = false ∨ s.fg 0x024 TW_STATUS_MSTATE ≠ 2 ∨ s.scanOn = decide (f.hdr.argBits 16 32 = 0))) → t.tw.swapYes = s.tw.swapYes ∧ t.tw.swap = s.tw.swap ∧ (t.port .twin).ll.getLast?.map (·.hdr.argBits 0 16) = some 0x103) ∧
        ((s.role = 2 ∧ s.mirrorOk = true ∧ s.fg 0x024 TW_STATUS_MSTATE = 2 ∧ s.scanOn = true ∧ f.hdr.argBits 16 32 ≠ 0 ∧ (epochDiff (f.hdr.argBits 16 32) s.epoch = 0 ∨ 2 ^ 31 ≤ epochDiff (f.hdr.argBits 16 32) s.epoch)) → t.tw.swap = s.tw.swap ∧ (t.port .twin).ll.getLast?.map (·.hdr.argBits 0 16) = some 0x203)) ∧
    (∀ (s : State) (f : Frame) (rest : List Frame),
      (s.tw.inbox = f :: rest) →
      isRole [2, 3] f = true →
      completes (.swapAnswerReceived) s fun t =>
        ((s.role = 1 ∧ (s.tw.swap.any fun e => !e.2) = true ∧ f.hdr.argBits 0 8 = 2) → t = { s with tw := { s.tw with inbox := rest, swap := s.tw.swap.map fun e => (e.1, true) } }) ∧
        ((s.role = 1 ∧ (s.tw.swap.any fun e => !e.2) = true ∧ f.hdr.argBits 0 8 = 3) → t.tw = { s.tw with inbox := rest, swap := none } ∧ t.event 0x024 EV_TW_SWAP_REFUSED = true) ∧
        ((s.role ≠ 1 ∨ (s.tw.swap.any fun e => !e.2) = false) → t = { s with tw := { s.tw with inbox := rest } }) ∧
        onlyRegs [(0x024, EVT_STATUS)] s t) ∧
    (∀ (s : State),
      completes (.swapAnswerTimeout) s fun t =>
        ((s.role = 1 ∧ (s.tw.swap.any fun e => !e.2) = true) → t.tw = { s.tw with swap := none } ∧ t.event 0x024 EV_TW_SWAP_REFUSED = true) ∧
        ((s.role ≠ 1 ∨ (s.tw.swap.any fun e => !e.2) = false) → t = s) ∧
        onlyRegs [(0x024, EVT_STATUS)] s t) ∧
    (∀ (s : State),
      completes (.swapProposeReceived) s fun t =>
        (awaits s (isRole [1]) = true → t = s)) ∧
    (∀ (s : State),
      completes (.swapAnswerReceived) s fun t =>
        (awaits s (isRole [2, 3]) = true → t = s)) ∧
    (∀ (s : State) (pitch : Pitch) (c : Instr),
      (c = .pitchQuiet pitch ∨ c = .quietHoldTimeout pitch) →
      completes (c) s fun t =>
        t.tw.quiet = s.tw.quiet.filter (· != pitch.val) ∧
        ((s.tw.quiet.contains pitch.val = true ∧ s.tw.quiet.filter (· != pitch.val) = []) → t.event 0x024 EV_TW_SWAP_DONE = true ∧ t.fg 0x024 TW_STATUS_SWAP_DUE = 0 ∧ t.fg 0x024 TW_CNT_SWITCH_PLANNED = min (s.fg 0x024 TW_CNT_SWITCH_PLANNED + 1) (2 ^ TW_CNT_SWITCH_PLANNED.w - 1) ∨ s.up.leaving = true) ∧
        ((s.tw.quiet.contains pitch.val = true ∧ s.tw.quiet.filter (· != pitch.val) ≠ []) → t.regs = s.regs) ∧
        (s.tw.quiet.contains pitch.val = false → t = s))

/-- TWIN_RESET_RECEIVED takes its message. With TWIN_EN 0 or the twin link not through its capability exchange, that is all it does; with no
such message it does nothing. With both, a reset of source 5 at its level is recognised, as any source; outside any reset and any MRAM
write, and at L0 to L2, it is then in progress, with the record. -/
def Obligations.TwinCommandedResetNeedsEnable : Prop :=
    (∀ (s : State) (f : Frame) (rest : List Frame),
      (s.tw.inbox = f :: rest) →
      isRole [5] f = true →
      (s.fb 0 GS_RESET_CTRL_TWIN_EN = false ∨ s.portActive .twin = false) →
      completes (.twinResetReceived) s fun t =>
        t = { s with tw := { s.tw with inbox := rest } }) ∧
    (∀ (s : State),
      awaits s (isRole [5]) = true →
      completes (.twinResetReceived) s fun t =>
        t = s) ∧
    (∀ (s : State) (f : Frame) (rest : List Frame),
      (s.tw.inbox = f :: rest) →
      isRole [5] f = true →
      s.fb 0 GS_RESET_CTRL_TWIN_EN = true →
      s.portActive .twin = true →
      completes (.twinResetReceived) s fun t =>
        t = ({ s with tw := { s.tw with inbox := rest } } : State).recognise { cause := 5, level := s.levelOf 5 } none ∧
        ((s.gs.seq = none ∧ s.mramBusy = false ∧ s.levelOf 5 ≤ 2) → t.gs.seq = some { cause := 5, level := s.levelOf 5 } ∧ t.rd 0 GS_LAST_CAUSE = BitVec.ofNat 32 (s.levelOf 5 * 16 + 5) ∧ t.core = {}))

/-- TWIN_PORT_FRAME_RECEIVE on an ACTIVE port: a good link-local frame of an allocated type is kept, a QCOPY with the copy behind it, one of
another type counted; one not link-local goes to the core; a bad one is discarded, and with it a QCOPY whose copy is awaited.
MIRROR_RECEIVED by a standby that has a snapshot applies a frame next in sequence, entry by entry: a CFG entry is a write of its own, a
CANOPY entry of the epoch in progress sets its group, TIME and STATE are noted, SNAP_END gives SYNCED; a gap in MSEQ asks for a resync,
SNAP_START begins a snapshot. MIRROR_PERIODIC_ENTRY on an active hub whose mirror is on adds a TIME entry, an ENGINE entry for each mirrored
channel and a STATE entry, and above 4096 entries resyncs; MACK_SEND of a standby acknowledges the last MSEQ. MACK_RECEIVED by the active
hub takes the frames acknowledged from the backlog, which ends a snapshot with SYNCED once all are; with RESYNC it starts a snapshot.
TW_RESYNC while the mirror is on enters RESYNC, which a standby also asks its twin for; MSTATE_RETURN_SYNCED in LAGGING without a running
scan unit returns to SYNCED. QCOPY_RECEIVED by a standby puts the copy behind the message into its queue, then makes the pops owed; without
a copy, or one not taken, it asks for a resync. TWIN_UPDATE_POLL of a pair asks the twin for its update registers. -/
def Obligations.TwinMirror : Prop :=
    (∀ (s : State) (bytes : List Byte) (ending : Ending),
      s.portActive .twin = true →
      completes (.twinPortFrameReceive bytes ending) s fun t =>
        ((frameCheck bytes ending = .good ∧ (Frame.ofBytes bytes).hdr.ll = true ∧ 0x20 ≤ (Frame.ofBytes bytes).hdr.mtype ∧ (Frame.ofBytes bytes).hdr.mtype ≤ 0x24 ∧ s.tw.qcopy = none) → t = { s with tw := { s.tw with inbox := s.tw.inbox ++ [Frame.ofBytes bytes], qcopy := if (Frame.ofBytes bytes).hdr.mtype = 0x24 then some ((Frame.ofBytes bytes).hdr.argBits 0 10) else none } }) ∧
        ((frameCheck bytes ending = .good ∧ (Frame.ofBytes bytes).hdr.ll = true ∧ ((Frame.ofBytes bytes).hdr.mtype < 0x20 ∨ 0x24 < (Frame.ofBytes bytes).hdr.mtype) ∧ s.tw.qcopy = none) → t.fg 0x024 TW_CNT_BAD_COUNT = min (s.fg 0x024 TW_CNT_BAD_COUNT + 1) (2 ^ TW_CNT_BAD_COUNT.w - 1) ∧ t.tw = s.tw) ∧
        ((frameCheck bytes ending = .good ∧ (Frame.ofBytes bytes).hdr.ll = false) → t = (if s.tw.qcopy.isSome then { s with tw := { s.tw with inbox := s.tw.inbox ++ [Frame.ofBytes bytes], qcopy := none } } else s.stage portTwin { frame := Frame.ofBytes bytes, route := .desc (descRing (Frame.ofBytes bytes)) })) ∧
        ((frameCheck bytes ending ≠ .good ∧ s.tw.qcopy = none) → t = s.endingMarks .twin ending) ∧
        (((frameCheck bytes ending ≠ .good ∨ (Frame.ofBytes bytes).hdr.ll = true) ∧ s.tw.qcopy ≠ none) → t.tw.inbox.take (s.tw.inbox.length - 1) = s.tw.inbox.dropLast ∧ t.tw.resyncReq = true)) ∧
    (∀ (s : State) (bytes : List Byte) (ending : Ending),
      s.portActive .twin = false →
      completes (.twinPortFrameReceive bytes ending) s fun t =>
        t = s) ∧
    (∀ (s : State) (f : Frame) (rest : List Frame) (r : Nat),
      (s.tw.inbox = f :: rest) →
      f.hdr.mtype = 0x22 →
      s.role = 2 →
      s.tw.rseq = some r →
      s.tw.resyncReq = false →
      completes (.mirrorReceived) s fun t =>
        ((leAt f.payload 0 1 < 7 ∧ leAt f.payload 2 2 = (r + 1) % 65536) → t = State.mirEntries (leAt f.payload 0 1) (leAt f.payload 4 4) (f.payload.drop 8) (leAt f.payload 1 1) { s with tw := { s.tw with inbox := rest, rseq := some ((r + 1) % 65536) } }) ∧
        ((leAt f.payload 0 1 = 1 ∧ leAt f.payload 1 1 = 1 ∧ leAt f.payload 2 2 = (r + 1) % 65536) → t = ({ s with tw := { s.tw with inbox := rest, rseq := some ((r + 1) % 65536) } } : State).mirCfg ((f.payload.drop 8).take 8)) ∧
        ((leAt f.payload 0 1 = 2 ∧ leAt f.payload 1 1 = 1 ∧ leAt f.payload 2 2 = (r + 1) % 65536 ∧ (s.scanOn = false ∨ leAt f.payload 4 4 = s.epoch)) → t.grpVis (4096 * (leAt f.payload 8 2 / 32768) + leAt f.payload 8 2 % 4096) = grpOf ((f.payload.drop 8).take 14 |>.drop 2)) ∧
        ((leAt f.payload 0 1 = 3 ∧ leAt f.payload 1 1 = 1 ∧ leAt f.payload 2 2 = (r + 1) % 65536) → t.sel = leAt f.payload 8 1 % 2) ∧
        ((leAt f.payload 0 1 = 6 ∧ leAt f.payload 1 1 = 1 ∧ leAt f.payload 2 2 = (r + 1) % 65536) → t.tw.links = leAt f.payload 8 3) ∧
        ((leAt f.payload 0 1 = 8 ∧ leAt f.payload 2 2 = (r + 1) % 65536) → t.fg 0x024 TW_STATUS_MSTATE = 2 ∨ s.mirrorOk = false) ∧
        ((leAt f.payload 0 1 ≠ 7 ∧ leAt f.payload 2 2 ≠ (r + 1) % 65536) → t.fg 0x024 TW_STATUS_MSTATE = 1 ∧ t.tw.resyncReq = true ∧ t.event 0x024 EV_TW_RESYNC = true)) ∧
    (∀ (s : State) (f : Frame) (rest : List Frame),
      (s.tw.inbox = f :: rest) →
      f.hdr.mtype = 0x22 →
      completes (.mirrorReceived) s fun t =>
        ((s.role = 2 ∧ leAt f.payload 0 1 = 7) → t.tw.rseq = some (leAt f.payload 2 2) ∧ t.tw.resyncReq = false ∧ t.fg 0x024 TW_STATUS_MSTATE = 1 ∧ s.mirroredQueues.all (fun q => (t.que q).ents.isEmpty) = true) ∧
        ((s.role ≠ 2 ∨ (leAt f.payload 0 1 ≠ 7 ∧ (s.tw.rseq = none ∨ s.tw.resyncReq = true))) → t = { s with tw := { s.tw with inbox := rest } })) ∧
    (∀ (s : State) (c : Instr),
      ((c = .mirrorReceived ∧ awaits s (isTwin 0x22) = true) ∨ (c = .mackReceived ∧ awaits s (isTwin 0x23) = true) ∨ (c = .qcopyReceived ∧ awaits s (isTwin 0x24) = true)) →
      completes (c) s fun t =>
        t = s) ∧
    (∀ (s : State),
      completes (.mirrorPeriodicEntry) s fun t =>
        ((s.mirroring = true ∧ (s.fg 0x024 TW_STATUS_MSTATE = 1 ∨ s.fg 0x024 TW_LAG_BACKLOG + s.tw.entries.length + s.mirroredChans.length + 2 ≤ 4096)) → t = { s with tw := { s.tw with entries := s.tw.entries ++ [s.timeEntry] ++ s.mirroredChans.map (fun e => s.engineEntry e.1 e.2) ++ [s.stateEntry] } }) ∧
        ((s.mirroring = true ∧ s.fg 0x024 TW_STATUS_MSTATE ≠ 1 ∧ 4096 < s.fg 0x024 TW_LAG_BACKLOG + s.tw.entries.length + s.mirroredChans.length + 2) → t.fg 0x024 TW_STATUS_MSTATE = 1 ∧ t.event 0x024 EV_TW_RESYNC = true) ∧
        (s.mirroring = false → t = s)) ∧
    (∀ (s : State),
      completes (.mackSend) s fun t =>
        ((s.role = 2 ∧ s.portActive .twin = true) → (t.port .twin).ll = (s.port .twin).ll ++ [s.twinFrame 0x23 (s.tw.rseq.getD 0 + 65536 * bit s.tw.resyncReq) []] ∧ t.tw = { s.tw with resyncReq := false }) ∧
        ((s.role ≠ 2 ∨ s.portActive .twin = false) → t = s) ∧
        t.regs = s.regs) ∧
    (∀ (s : State) (f : Frame) (rest : List Frame),
      (s.tw.inbox = f :: rest) →
      f.hdr.mtype = 0x23 →
      completes (.mackReceived) s fun t =>
        ((s.role = 1 ∧ f.hdr.argBits 16 1 = 0) → t.tw.sentQ = acked (f.hdr.argBits 0 16) s.tw.sentQ ∧ t.fg 0x024 TW_LAG_BACKLOG = ((acked (f.hdr.argBits 0 16) s.tw.sentQ).map (·.2)).sum % 2 ^ TW_LAG_BACKLOG.w) ∧
        ((s.role = 1 ∧ f.hdr.argBits 16 1 = 0) → t.fg 0x024 TW_STATUS_MSTATE = (if s.tw.snap = true ∧ s.fg 0x024 TW_STATUS_MSTATE = 1 ∧ ((acked (f.hdr.argBits 0 16) s.tw.sentQ).map (·.2)).sum = 0 ∧ (s.tw.entries.all fun e => decide (e.kind ≠ 7) && decide (e.kind ≠ 8)) = true then 2 else s.fg 0x024 TW_STATUS_MSTATE)) ∧
        ((s.role = 1 ∧ f.hdr.argBits 16 1 = 1) → t.fg 0x024 TW_STATUS_MSTATE = 1 ∧ t.tw.snap = true ∧ t.event 0x024 EV_TW_RESYNC = true) ∧
        (s.role ≠ 1 → t = { s with tw := { s.tw with inbox := rest } })) ∧
    (∀ (s : State) (who : Initiator),
      s.accepts who 0x024 TW_CMD = true →
      completes (.twResync who) s fun t =>
        (s.fg 0x024 TW_STATUS_MSTATE ≠ 0 → t.fg 0x024 TW_STATUS_MSTATE = 1 ∧ t.event 0x024 EV_TW_RESYNC = true ∧ t.fg 0x024 TW_CNT_RESYNC_COUNT = min (s.fg 0x024 TW_CNT_RESYNC_COUNT + 1) (2 ^ TW_CNT_RESYNC_COUNT.w - 1) ∧ (s.role = 1 → t.tw.snap = true) ∧ (s.role ≠ 1 → t.tw.resyncReq = true ∧ t.tw.rseq = none)) ∧
        (s.fg 0x024 TW_STATUS_MSTATE = 0 → t.tw = s.tw ∧ t.fg 0x024 TW_STATUS_MSTATE = 0) ∧
        t.ansOf who = ⟨rspOk, 0, none⟩) ∧
    (∀ (s : State),
      completes (.mstateReturnSynced) s fun t =>
        ((s.fg 0x024 TW_STATUS_MSTATE = 3 ∧ s.scanOn = false ∧ ({ s with tw := { s.tw with canBad := false, canLate := false } } : State).mirrorOk = true) → t.fg 0x024 TW_STATUS_MSTATE = 2 ∧ (s.role = 2 → t.fg 0x024 TW_STATUS_READY = 1)) ∧
        ((s.fg 0x024 TW_STATUS_MSTATE ≠ 3 ∨ s.scanOn = true ∨ ({ s with tw := { s.tw with canBad := false, canLate := false } } : State).mirrorOk = false) → t = s) ∧
        onlyRegs [(0x024, TW_STATUS), (0x024, EVT_STATUS)] s t) ∧
    (∀ (s : State) (f g : Frame) (rest : List Frame),
      (s.tw.inbox = f :: g :: rest) →
      f.hdr.mtype = 0x24 →
      g.hdr.ll = false →
      completes (.qcopyReceived) s fun t =>
        (s.role ≠ 2 → t = { s with tw := { s.tw with inbox := rest } }) ∧
        (s.role = 2 → (let q := f.hdr.argBits 0 10; let s1 := ({ s with tw := { s.tw with inbox := rest } } : State); let u := if softQueue (qPage q) q then s1.placeDirect portTwin q g else s1; t = if (u.que q).ents.length = (s.que q).ents.length then u.askResync else u.popOwed q (u.que q).ents.length))) ∧
    (∀ (s : State) (f : Frame) (rest : List Frame),
      (s.tw.inbox = f :: rest) →
      f.hdr.mtype = 0x24 →
      completes (.qcopyReceived) s fun t =>
        (rest = [] → t = s) ∧
        ((rest.head?.any fun g => g.hdr.ll) = true → t.tw.inbox = rest ∧ t.tw.resyncReq = true ∧ t.event 0x024 EV_TW_RESYNC = true)) ∧
    (∀ (s : State),
      (s.redundant = true ∧ s.fb 0x024 TW_STATUS_PRESENT = true ∧ s.manNode s.strikeSlot = true) →
      (s.ready 0x010 = true ∧ s.ready 0x020 = true) →
      s.bare = false →
      completes (.twinUpdatePoll) s fun t =>
        t = ([UP_STATUS, UP_SEQ, UP_EPOCH] ++ (if s.fb 0x290 UP_STATUS_TWIN_MISMATCH then [UP_VER, UP_VER + 4, UP_VER + 8] else [])).foldl (fun (t : State) off => match t.target (t.twinHub * 2 ^ 33 + 0x290000 + off) with | .far w hub o => t.forward { win := w, holder := .poll off, frame := t.reqFrame w hub o 0x00 [] } | _ => t) s) ∧
    (∀ (s : State),
      (s.redundant = false ∨ s.fb 0x024 TW_STATUS_PRESENT = false ∨ s.manNode s.strikeSlot = false ∨ s.ready 0x010 = false ∨ s.ready 0x020 = false ∨ s.bare = true) →
      completes (.twinUpdatePoll) s fun t =>
        t = s)
end

