-- ==== Sys2Proof/Laws/Maps.lean ====
section
/-! SUPPORT. Finite maps: what is read after a write, and that every operation keeps the canonical form. -/
namespace Sys2Proof.Machine

variable {V : Type}

theorem Map.getD_erase_same (m : Map V) (k : Nat) (d : V) : (m.erase k).getD k d = d := by
  induction m with
  | nil => rfl
  | cons e m ih =>
    obtain ⟨k', v⟩ := e
    by_cases h : k = k'
    · simp [Map.erase, h]; exact h ▸ ih
    · simp [Map.erase, Map.getD, h, ih]

theorem Map.getD_erase_other (m : Map V) {k j : Nat} (d : V) (h : j ≠ k) : (m.erase k).getD j d = m.getD j d := by
  induction m with
  | nil => rfl
  | cons e m ih =>
    obtain ⟨k', v⟩ := e
    by_cases hk : k = k'
    · subst hk; simp [Map.erase, Map.getD, h, ih]
    · by_cases hj : j = k' <;> simp [Map.erase, Map.getD, hk, hj, ih]

theorem Map.getD_ins_same (m : Map V) (k : Nat) (v d : V) (h : ∀ x, (m.getD k x = x)) : (m.ins k v).getD k d = v := by
  induction m with
  | nil => simp [Map.ins, Map.getD]
  | cons e m ih =>
    obtain ⟨k', v'⟩ := e
    by_cases hk : k ≤ k'
    · simp [Map.ins, Map.getD, hk]
    · have hne : k ≠ k' := fun e => hk (by omega)
      have h' : ∀ x, Map.getD m k x = x := fun x => by simpa [Map.getD, hne] using h x
      simp [Map.ins, Map.getD, hk, hne, ih h']

theorem Map.getD_ins_other (m : Map V) {k j : Nat} (v d : V) (h : j ≠ k) : (m.ins k v).getD j d = m.getD j d := by
  induction m with
  | nil => simp [Map.ins, Map.getD, h]
  | cons e m ih =>
    obtain ⟨k', v'⟩ := e
    by_cases hk : k ≤ k'
    · simp [Map.ins, Map.getD, hk, h]
    · by_cases hj : j = k' <;> simp [Map.ins, Map.getD, hk, hj, ih]

/-- A key reads what was put at it. -/
@[simp] theorem Map.getD_put_same [DecidableEq V] (m : Map V) (k : Nat) (v d : V) : (m.put k v d).getD k d = v := by
  unfold Map.put
  split
  · next h => rw [Map.getD_erase_same, h]
  · exact Map.getD_ins_same _ _ _ _ fun x => Map.getD_erase_same m k x

/-- A put leaves every other key alone. -/
theorem Map.getD_put_other [DecidableEq V] (m : Map V) {k j : Nat} (v d e : V) (h : j ≠ k) :
    (m.put k v d).getD j e = m.getD j e := by
  unfold Map.put
  split
  · exact Map.getD_erase_other m e h
  · rw [Map.getD_ins_other _ _ _ h, Map.getD_erase_other m e h]

/-! ### Canonical form -/

theorem Map.sortedFrom_mono {m : Map V} : ∀ {a b : Nat}, a ≤ b → Map.sortedFrom b m = true → Map.sortedFrom a m = true := by
  cases m with
  | nil => intros; rfl
  | cons e m =>
    intro a b hab h
    simp only [Map.sortedFrom, Bool.and_eq_true, decide_eq_true_eq] at h ⊢
    exact ⟨by omega, h.2⟩

theorem Map.sortedFrom_filter (p : Nat × V → Bool) {m : Map V} : ∀ {a : Nat}, Map.sortedFrom a m = true →
    Map.sortedFrom a (m.filter p) = true := by
  induction m with
  | nil => intros; rfl
  | cons e m ih =>
    intro a h
    simp only [Map.sortedFrom, Bool.and_eq_true, decide_eq_true_eq] at h
    by_cases hp : p e = true
    · simp only [List.filter_cons, hp, if_true, Map.sortedFrom, Bool.and_eq_true, decide_eq_true_eq]
      exact ⟨h.1, ih h.2⟩
    · simp only [List.filter_cons, hp]
      exact ih (Map.sortedFrom_mono (by omega) h.2)

theorem Map.erase_eq (m : Map V) (k : Nat) : m.erase k = m.filter fun e => decide (k ≠ e.1) := by
  induction m with
  | nil => rfl
  | cons e m ih =>
    obtain ⟨k', v⟩ := e
    by_cases h : k = k'
    · subst h; simp [Map.erase, ih]
    · simp [Map.erase, h, ih]

theorem Map.sortedFrom_ins (k : Nat) (v : V) {m : Map V} : ∀ {a : Nat}, Map.sortedFrom a m = true → a ≤ k →
    (m.all fun e => decide (k ≠ e.1)) = true → Map.sortedFrom a (m.ins k v) = true := by
  induction m with
  | nil => intro a _ h _; simp [Map.ins, Map.sortedFrom, h]
  | cons e m ih =>
    intro a h hk hn
    obtain ⟨k', v'⟩ := e
    simp only [Map.sortedFrom, Bool.and_eq_true, decide_eq_true_eq] at h
    simp only [List.all_cons, Bool.and_eq_true, decide_eq_true_eq] at hn
    by_cases hle : k ≤ k'
    · simp only [Map.ins, hle, if_true, Map.sortedFrom, Bool.and_eq_true, decide_eq_true_eq]
      exact ⟨hk, by omega, h.2⟩
    · simp only [Map.ins, hle, if_false, Map.sortedFrom, Bool.and_eq_true, decide_eq_true_eq]
      exact ⟨h.1, ih h.2 (by omega) hn.2⟩

theorem Map.all_ins (p : Nat × V → Bool) (m : Map V) (k : Nat) (v : V) : (m.ins k v).all p = (p (k, v) && m.all p) := by
  induction m with
  | nil => rfl
  | cons e m ih =>
    obtain ⟨k', v'⟩ := e
    by_cases h : k ≤ k'
    · simp [Map.ins, h]
    · simp only [Map.ins, h, if_false, List.all_cons, ih]
      cases p (k', v') <;> cases p (k, v) <;> rfl

theorem List.all_filter_of_all {α : Type} (p r : α → Bool) (l : List α) (h : l.all p = true) : (l.filter r).all p = true := by
  simp only [List.all_eq_true, List.mem_filter] at *
  exact fun x hx => h x hx.1

/-- Dropping entries keeps the canonical form. -/
theorem Map.wf_filter [DecidableEq V] {d : Nat → V} {m : Map V} (p : Nat × V → Bool) (h : Map.wf d m = true) :
    Map.wf d (m.filter p) = true := by
  simp only [Map.wf, Bool.and_eq_true] at *
  exact ⟨Map.sortedFrom_filter p h.1, List.all_filter_of_all _ p m h.2⟩

theorem Map.wf_drop [DecidableEq V] {d : Nat → V} {m : Map V} (p : Nat → Bool) (h : Map.wf d m = true) :
    Map.wf d (m.drop p) = true := Map.wf_filter _ h

theorem Map.wf_erase [DecidableEq V] {d : Nat → V} {m : Map V} (k : Nat) (h : Map.wf d m = true) :
    Map.wf d (m.erase k) = true := by
  rw [Map.erase_eq]; exact Map.wf_filter _ h

/-- A put with the key's own default keeps the canonical form. -/
theorem Map.wf_put [DecidableEq V] {d : Nat → V} {m : Map V} (k : Nat) (v : V) (h : Map.wf d m = true) :
    Map.wf d (m.put k v (d k)) = true := by
  unfold Map.put
  split
  · exact Map.wf_erase k h
  · next hv =>
    have he := Map.wf_erase k h
    simp only [Map.wf, Bool.and_eq_true] at he ⊢
    refine ⟨Map.sortedFrom_ins k v he.1 (Nat.zero_le _) ?_, ?_⟩
    · rw [Map.erase_eq]; simp only [List.all_eq_true, List.mem_filter]; exact fun x hx => hx.2
    · rw [Map.all_ins, he.2]; simp [hv]

@[simp] theorem Map.wf_nil [DecidableEq V] (d : Nat → V) : Map.wf d [] = true := rfl

end Sys2Proof.Machine
end

