-- ==== Sys2Proof/Laws/Regs.lean ====
section
/-! SUPPORT. Registers after each shared operation: what a register and a field read, and what an operation leaves alone. -/
namespace Sys2Proof.Machine

/-! ### Keys -/

theorem regKey_inj {p o p' o' : Nat} (h : o < 4096) (h' : o' < 4096) (e : regKey p' o' = regKey p o) : p' = p ∧ o' = o := by
  simp only [regKey] at e; omega

@[simp] theorem State.rd_wr_same (s : State) (p o : Nat) (v : Word) : (s.wr p o v).rd p o = v := by
  simp [State.rd, State.wr]

theorem State.rd_wr (s : State) (p o p' o' : Nat) (v : Word) :
    (s.wr p o v).rd p' o' = if regKey p' o' = regKey p o then v else s.rd p' o' := by
  by_cases h : regKey p' o' = regKey p o
  · simp [State.rd, State.wr, h]
  · simp [State.rd, State.wr, h, Map.getD_put_other _ _ _ _ h]

/-! ### Fields of a word -/

theorem Fld.toNat_mask (f : Fld) (h : f.lo + f.w ≤ 32) : f.mask.toNat = (2 ^ f.w - 1) <<< f.lo := by
  simp only [Fld.mask, BitVec.toNat_ofNat]
  apply Nat.mod_eq_of_lt
  rw [Nat.shiftLeft_eq]
  have h1 : 2 ^ f.w * 2 ^ f.lo ≤ 2 ^ 32 := by rw [← Nat.pow_add]; exact Nat.pow_le_pow_right (by decide) (by omega)
  have h2 : 0 < 2 ^ f.lo := Nat.pow_pos (by decide)
  have h3 : 0 < 2 ^ f.w := Nat.pow_pos (by decide)
  have : (2 ^ f.w - 1) * 2 ^ f.lo < 2 ^ f.w * 2 ^ f.lo := Nat.mul_lt_mul_of_pos_right (by omega) h2
  omega

theorem Fld.testBit_get (f : Fld) (x : Word) (i : Nat) : (f.get x).testBit i = (decide (i < f.w) && x.getLsbD (f.lo + i)) := by
  simp [Fld.get, Nat.testBit_mod_two_pow, Nat.testBit_shiftRight, BitVec.testBit_toNat]

theorem Fld.getLsbD_mask (f : Fld) (j : Nat) :
    f.mask.getLsbD j = (decide (j < 32) && decide (f.lo ≤ j) && decide (j < f.lo + f.w)) := by
  simp only [Fld.mask, BitVec.getLsbD_ofNat, Nat.testBit_shiftLeft, Nat.testBit_two_pow_sub_one]
  by_cases h : f.lo ≤ j
  · have : (j - f.lo < f.w) = (j < f.lo + f.w) := by simp; omega
    simp [h, this]
  · simp [h]

theorem Fld.getLsbD_set (f : Fld) (v : Nat) (x : Word) (j : Nat) (hj : j < 32) :
    (f.set v x).getLsbD j = if f.lo ≤ j ∧ j < f.lo + f.w then v.testBit (j - f.lo) else x.getLsbD j := by
  simp only [Fld.set, BitVec.getLsbD_or, BitVec.getLsbD_and, BitVec.getLsbD_not, Fld.getLsbD_mask, BitVec.getLsbD_ofNat,
    Nat.testBit_shiftLeft, Nat.testBit_mod_two_pow]
  by_cases h1 : f.lo ≤ j <;> by_cases h2 : j < f.lo + f.w
  · have h3 : j - f.lo < f.w := by omega
    simp [h1, h2, h3, hj]
  · have h3 : ¬ j - f.lo < f.w := by omega
    simp [h1, h2, h3, hj]
  · simp [h1, hj]
  · simp [h1, hj]

/-- A field reads what was set in it, modulo its width. -/
@[simp] theorem Fld.get_set (f : Fld) (v : Nat) (x : Word) (h : f.lo + f.w ≤ 32) : f.get (f.set v x) = v % 2 ^ f.w := by
  apply Nat.eq_of_testBit_eq
  intro i
  rw [Fld.testBit_get, Nat.testBit_mod_two_pow]
  by_cases hi : i < f.w
  · rw [Fld.getLsbD_set _ _ _ _ (by omega)]
    simp [hi]
  · simp [hi]

/-- Setting a field leaves the fields beside it. -/
theorem Fld.get_set_ne (f g : Fld) (v : Nat) (x : Word) (h : g.lo + g.w ≤ f.lo ∨ f.lo + f.w ≤ g.lo) (hg : g.lo + g.w ≤ 32) :
    g.get (f.set v x) = g.get x := by
  apply Nat.eq_of_testBit_eq
  intro i
  rw [Fld.testBit_get, Fld.testBit_get]
  by_cases hi : i < g.w
  · rw [Fld.getLsbD_set _ _ _ _ (by omega)]
    rw [if_neg (by omega)]
  · simp [hi]

theorem Fld.get_lt (f : Fld) (x : Word) : f.get x < 2 ^ f.w := Nat.mod_lt _ (Nat.pow_pos (by decide))

/-! ### Fields after a write -/

theorem State.rd_fs (s : State) (p : Nat) (f : Fld) (v p' o' : Nat) :
    (s.fs p f v).rd p' o' = if regKey p' o' = regKey p f.off then f.set v (s.rd p f.off) else s.rd p' o' := State.rd_wr ..

/-- A field reads the value written to it. -/
theorem State.fg_fs (s : State) (p : Nat) (f : Fld) (v : Nat) (h : f.lo + f.w ≤ 32) : (s.fs p f v).fg p f = v % 2 ^ f.w := by
  simp [State.fg, State.fs, Fld.get_set, h]

/-- A write of one field leaves every field of another register, and those beside it in its own. -/
theorem State.fg_fs_ne (s : State) (p p' : Nat) (f g : Fld) (v : Nat)
    (h : regKey p' g.off ≠ regKey p f.off ∨ ((g.lo + g.w ≤ f.lo ∨ f.lo + f.w ≤ g.lo) ∧ g.lo + g.w ≤ 32)) :
    (s.fs p f v).fg p' g = s.fg p' g := by
  simp only [State.fg, State.rd_fs]
  split
  · next e =>
    rcases h with h | h
    · exact absurd e h
    · rw [Fld.get_set_ne _ _ _ _ h.1 h.2]; simp only [State.rd, e]
  · rfl

/-! ### Events -/

theorem State.rd_irqRise (s : State) (p : Nat) (b : Bool) (p' o' : Nat) : (s.irqRise p b).rd p' o' = s.rd p' o' := by
  unfold State.irqRise; split <;> rfl

theorem State.rd_raiseBit (s : State) (p b p' o' : Nat) :
    (s.raiseBit p b).rd p' o' = if regKey p' o' = regKey p EVT_STATUS then s.rd p EVT_STATUS ||| BitVec.ofNat 32 (1 <<< b)
      else s.rd p' o' := by
  unfold State.raiseBit; rw [State.rd_irqRise, State.rd_wr]

/-- An event sets its status bit and changes no other register. -/
theorem State.rd_raise (s : State) (p b p' o' : Nat) :
    (s.raise p b).rd p' o' = if regKey p' o' = regKey p EVT_STATUS then s.rd p EVT_STATUS ||| BitVec.ofNat 32 (1 <<< b)
      else s.rd p' o' := by
  unfold State.raise; split
  · exact State.rd_raiseBit ..
  · exact State.rd_raiseBit ..

/-! ### What an operation leaves alone -/

theorem onlyRegs.refl (l : List (Nat × Nat)) (s : State) : onlyRegs l s s := fun _ _ _ _ => rfl
theorem onlyRegs.trans {l : List (Nat × Nat)} {s t u : State} (h : onlyRegs l s t) (h' : onlyRegs l t u) : onlyRegs l s u :=
  fun p o ho hm => (h' p o ho hm).trans (h p o ho hm)
theorem onlyRegs.of_rd {l : List (Nat × Nat)} {s t u : State} (h : onlyRegs l s t) (e : ∀ p o, u.rd p o = t.rd p o) : onlyRegs l s u :=
  fun p o ho hm => (e p o).trans (h p o ho hm)
theorem onlyRegs.of_regs {l : List (Nat × Nat)} {s t u : State} (h : onlyRegs l s t) (e : u.regs = t.regs) : onlyRegs l s u :=
  h.of_rd fun p o => by simp only [State.rd, e]
theorem onlyRegs.wr {l : List (Nat × Nat)} {s t : State} (h : onlyRegs l s t) {p o : Nat} {v : Word} (ho : o < 4096) (hm : (p, o) ∈ l) :
    onlyRegs l s (t.wr p o v) := fun p' o' ho' hm' => by
  rw [State.rd_wr, if_neg, h p' o' ho' hm']
  intro e; obtain ⟨rfl, rfl⟩ := regKey_inj ho ho' e; exact hm' hm
theorem onlyRegs.fs {l : List (Nat × Nat)} {s t : State} (h : onlyRegs l s t) {p : Nat} {f : Fld} {v : Nat} (ho : f.off < 4096)
    (hm : (p, f.off) ∈ l) : onlyRegs l s (t.fs p f v) := h.wr ho hm
theorem onlyRegs.raise {l : List (Nat × Nat)} {s t : State} (h : onlyRegs l s t) {p b : Nat} (hm : (p, EVT_STATUS) ∈ l) :
    onlyRegs l s (t.raise p b) := fun p' o' ho' hm' => by
  rw [State.rd_raise, if_neg, h p' o' ho' hm']
  intro e; obtain ⟨rfl, rfl⟩ := regKey_inj (by decide) ho' e; exact hm' hm
theorem onlyRegs.raiseIf {l : List (Nat × Nat)} {s t : State} (h : onlyRegs l s t) {c : Bool} {p b : Nat} (hm : (p, EVT_STATUS) ∈ l) :
    onlyRegs l s (t.raiseIf c p b) := by
  unfold State.raiseIf; split
  · exact h.raise hm
  · exact h
theorem onlyRegs.raiseBit {l : List (Nat × Nat)} {s t : State} (h : onlyRegs l s t) {p b : Nat} (hm : (p, EVT_STATUS) ∈ l) :
    onlyRegs l s (t.raiseBit p b) := fun p' o' ho' hm' => by
  rw [State.rd_raiseBit, if_neg, h p' o' ho' hm']
  intro e; obtain ⟨rfl, rfl⟩ := regKey_inj (by decide) ho' e; exact hm' hm
theorem onlyRegs.setState {l : List (Nat × Nat)} {s t : State} (h : onlyRegs l s t) {p : Nat} {f : Fld} {v : Bool} (ho : f.off < 4096)
    (hm : (p, f.off) ∈ l) (he : (p, EVT_STATUS) ∈ l) : onlyRegs l s (t.setState p f v) := by
  unfold State.setState; split
  · exact h
  · exact (h.fs ho hm).raise he
theorem onlyRegs.inc {l : List (Nat × Nat)} {s t : State} (h : onlyRegs l s t) {p : Nat} {f : Fld} (ho : f.off < 4096)
    (hm : (p, f.off) ∈ l) : onlyRegs l s (t.inc p f) := h.wr ho hm
theorem onlyRegs.addSat {l : List (Nat × Nat)} {s t : State} (h : onlyRegs l s t) {p : Nat} {f : Fld} {n : Nat} (ho : f.off < 4096)
    (hm : (p, f.off) ∈ l) : onlyRegs l s (t.addSat p f n) := h.wr ho hm
theorem onlyRegs.ite {l : List (Nat × Nat)} {s a b : State} {c : Prop} [Decidable c] (ha : onlyRegs l s a) (hb : onlyRegs l s b) :
    onlyRegs l s (if c then a else b) := by split <;> assumption

theorem onlyRegs.pages {l : List (Nat × Nat)} {ps : List Nat} {s t : State} (h : onlyRegs l s t) (hl : ∀ e ∈ l, e.1 ∈ ps) :
    onlyPages ps s t := fun p o ho hm => h p o ho fun hm' => hm (hl _ hm')

theorem quiet.exists {s t : State} (h : quiet s t) : ∃ r f i, t = { s with regs := r, faultQ := f, ingress := i } := ⟨_, _, _, h⟩
theorem quiet.refl (s : State) : quiet s s := rfl
theorem quiet.trans {s t u : State} (h : quiet s t) (h' : quiet t u) : quiet s u := by
  unfold quiet at *; rw [h', h]
theorem quiet.wr {s t : State} (h : quiet s t) {p o : Nat} {v : Word} : quiet s (t.wr p o v) := h.trans rfl
theorem quiet.fs {s t : State} (h : quiet s t) {p : Nat} {f : Fld} {v : Nat} : quiet s (t.fs p f v) := h.trans rfl
theorem quiet.inc {s t : State} (h : quiet s t) {p : Nat} {f : Fld} : quiet s (t.inc p f) := h.trans rfl
theorem quiet.addSat {s t : State} (h : quiet s t) {p : Nat} {f : Fld} {n : Nat} : quiet s (t.addSat p f n) := h.trans rfl
theorem quiet.addWrap {s t : State} (h : quiet s t) {p : Nat} {f : Fld} {n : Nat} : quiet s (t.addWrap p f n) := h.trans rfl
theorem quiet.stage {s t : State} (h : quiet s t) {p : Nat} {x : InFrame} : quiet s (t.stage p x) := h.trans rfl
theorem quiet.originate {s t : State} (h : quiet s t) {p : Nat} {x : Frame} : quiet s (t.originate p x) := h.trans rfl
theorem quiet.fault {s t : State} (h : quiet s t) {n d : Nat} : quiet s (t.fault n d) := h.trans rfl
theorem quiet.irqRise {s t : State} (h : quiet s t) {p : Nat} {b : Bool} : quiet s (t.irqRise p b) := by
  unfold State.irqRise; split
  · exact h.trans rfl
  · exact h
theorem quiet.raiseBit {s t : State} (h : quiet s t) {p b : Nat} : quiet s (t.raiseBit p b) := by
  unfold State.raiseBit; exact (h.wr).irqRise
theorem quiet.raise {s t : State} (h : quiet s t) {p b : Nat} : quiet s (t.raise p b) := by
  unfold State.raise; split
  · exact h.raiseBit.fault
  · exact h.raiseBit
theorem quiet.raiseIf {s t : State} (h : quiet s t) {c : Bool} {p b : Nat} : quiet s (t.raiseIf c p b) := by
  unfold State.raiseIf; split
  · exact h.raise
  · exact h
theorem quiet.setState {s t : State} (h : quiet s t) {p : Nat} {f : Fld} {v : Bool} : quiet s (t.setState p f v) := by
  unfold State.setState; split
  · exact h
  · exact h.fs.raise
theorem quiet.ite {s a b : State} {c : Prop} [Decidable c] (ha : quiet s a) (hb : quiet s b) : quiet s (if c then a else b) := by
  split <;> assumption

theorem quiet.exists' {s t : State} (r f i) (e : t = { s with regs := r, faultQ := f, ingress := i }) : quiet s t := by subst e; rfl

/-! ### Operations over a list -/

/-- One value written to a list of registers of a page. -/
theorem State.rd_foldl_wr {α : Type} (p : Nat) (g : α → Nat) (v : Word) (p' o' : Nat) (l : List α) (s : State) :
    (l.foldl (fun (t : State) a => t.wr p (g a) v) s).rd p' o' =
      if (l.any fun a => decide (regKey p' o' = regKey p (g a))) = true then v else s.rd p' o' := by
  induction l generalizing s with
  | nil => simp
  | cons a l ih =>
    rw [List.foldl_cons, ih, State.rd_wr, List.any_cons]
    by_cases h : regKey p' o' = regKey p (g a) <;> simp [h]

theorem onlyRegs.foldl {α : Type} {l : List (Nat × Nat)} {s : State} (f : State → α → State) :
    ∀ (m : List α) {t : State}, onlyRegs l s t → (∀ u, ∀ a ∈ m, onlyRegs l s u → onlyRegs l s (f u a)) → onlyRegs l s (m.foldl f t)
  | [], _, h, _ => h
  | a :: m, _, h, hf => onlyRegs.foldl f m (hf _ a (List.mem_cons_self ..) h) fun u b hb => hf u b (List.mem_cons_of_mem _ hb)

theorem quiet.foldl {α : Type} {s : State} (f : State → α → State) :
    ∀ (m : List α) {t : State}, quiet s t → (∀ u, ∀ a ∈ m, quiet s u → quiet s (f u a)) → quiet s (m.foldl f t)
  | [], _, h, _ => h
  | a :: m, _, h, hf => quiet.foldl f m (hf _ a (List.mem_cons_self ..) h) fun u b hb => hf u b (List.mem_cons_of_mem _ hb)

/-! ### Pages -/

theorem onlyPages.refl (l : List Nat) (s : State) : onlyPages l s s := fun _ _ _ _ => rfl
theorem onlyPages.trans {l : List Nat} {s t u : State} (h : onlyPages l s t) (h' : onlyPages l t u) : onlyPages l s u :=
  fun p o ho hm => (h' p o ho hm).trans (h p o ho hm)
theorem onlyPages.of_regs {l : List Nat} {s t u : State} (h : onlyPages l s t) (e : u.regs = t.regs) : onlyPages l s u :=
  fun p o ho hm => by rw [← h p o ho hm]; simp only [State.rd, e]
theorem regKey_page {p o p' o' : Nat} (e : regKey p' o' = regKey p o) : p' = p := by simp only [regKey] at e; omega
theorem onlyPages.wr {l : List Nat} {s t : State} (h : onlyPages l s t) {p o : Nat} {v : Word} (hm : p ∈ l) :
    onlyPages l s (t.wr p o v) := fun p' o' ho' hm' => by
  rw [State.rd_wr, if_neg, h p' o' ho' hm']
  intro e; exact hm' (regKey_page e ▸ hm)
theorem onlyPages.fs {l : List Nat} {s t : State} (h : onlyPages l s t) {p : Nat} {f : Fld} {v : Nat} (hm : p ∈ l) : onlyPages l s (t.fs p f v) := h.wr hm
theorem onlyPages.inc {l : List Nat} {s t : State} (h : onlyPages l s t) {p : Nat} {f : Fld} (hm : p ∈ l) : onlyPages l s (t.inc p f) := h.wr hm
theorem onlyPages.addSat {l : List Nat} {s t : State} (h : onlyPages l s t) {p : Nat} {f : Fld} {n : Nat} (hm : p ∈ l) : onlyPages l s (t.addSat p f n) := h.wr hm
theorem onlyPages.addWrap {l : List Nat} {s t : State} (h : onlyPages l s t) {p : Nat} {f : Fld} {n : Nat} (hm : p ∈ l) : onlyPages l s (t.addWrap p f n) := h.wr hm
theorem onlyPages.raise {l : List Nat} {s t : State} (h : onlyPages l s t) {p b : Nat} (hm : p ∈ l) : onlyPages l s (t.raise p b) :=
  fun p' o' ho' hm' => by
    rw [State.rd_raise, if_neg, h p' o' ho' hm']
    intro e; obtain ⟨rfl, rfl⟩ := regKey_inj (by decide) ho' e; exact hm' hm
theorem onlyPages.raiseIf {l : List Nat} {s t : State} (h : onlyPages l s t) {c : Bool} {p b : Nat} (hm : p ∈ l) :
    onlyPages l s (t.raiseIf c p b) := by
  unfold State.raiseIf; split
  · exact h.raise hm
  · exact h
theorem onlyPages.setState {l : List Nat} {s t : State} (h : onlyPages l s t) {p : Nat} {f : Fld} {v : Bool} (hm : p ∈ l) : onlyPages l s (t.setState p f v) := by
  unfold State.setState; split
  · exact h
  · exact (h.fs hm).raise hm
theorem onlyPages.ite {l : List Nat} {s a b : State} {c : Prop} [Decidable c] (ha : onlyPages l s a) (hb : onlyPages l s b) :
    onlyPages l s (if c then a else b) := by split <;> assumption
theorem onlyPages.foldl {α : Type} {l : List Nat} {s : State} (f : State → α → State) :
    ∀ (m : List α) {t : State}, onlyPages l s t → (∀ u, ∀ a ∈ m, onlyPages l s u → onlyPages l s (f u a)) → onlyPages l s (m.foldl f t)
  | [], _, h, _ => h
  | a :: m, _, h, hf => onlyPages.foldl f m (hf _ a (List.mem_cons_self ..) h) fun u b hb => hf u b (List.mem_cons_of_mem _ hb)

/-! ### Registers as a map -/

/-- A map after a put, read at any key. -/
theorem Map.getD_put {V : Type} [DecidableEq V] (m : Map V) (k j : Nat) (v d e : V) (h : j = k → d = e) :
    (m.put k v d).getD j e = if j = k then v else m.getD j e := by
  split
  · next hj => subst hj; obtain rfl := h rfl; simp
  · next hj => exact Map.getD_put_other m v d e hj

theorem State.regs_irqRise (s : State) (p : Nat) (b : Bool) : (s.irqRise p b).regs = s.regs := by
  unfold State.irqRise; split <;> rfl
theorem State.regs_raise (s : State) (p b : Nat) :
    (s.raise p b).regs = (s.wr p EVT_STATUS (s.rd p EVT_STATUS ||| BitVec.ofNat 32 (1 <<< b))).regs := by
  unfold State.raise; split <;> (unfold State.raiseBit; simp only [State.fault, State.regs_irqRise])

end Sys2Proof.Machine
end

