-- ==== Sys2Proof/Laws/Access.lean ====
section
/-! SUPPORT. Register accesses: what giving up a packed group changes, and a write or read that reaches its block. -/
namespace Sys2Proof.Machine

theorem State.rd_endPack (s : State) (who : Initiator) (p o : Nat) (h : regKey p o ≠ regKey 0x01C EVT_STATUS) :
    (s.endPack who).rd p o = s.rd p o := by
  unfold State.endPack; split
  · rw [State.rd_raise, if_neg h]; rfl
  · rfl

theorem State.endPack_quiet (s : State) (who : Initiator) : quiet { s with scan := (s.endPack who).scan } (s.endPack who) := by
  unfold State.endPack; split
  · have key : ∀ u : State, quiet { s with scan := u.scan } u → quiet { s with scan := (u.raise 0x01C EV_SC_CANOPY_PACK_PARTIAL).scan }
        (u.raise 0x01C EV_SC_CANOPY_PACK_PARTIAL) := fun u hu => by
      have h := congrArg State.scan (quiet.raise (quiet.refl u) (p := 0x01C) (b := EV_SC_CANOPY_PACK_PARTIAL))
      rw [h]; exact hu.raise
    exact key _ rfl
  · rfl

theorem State.rd_touch (s : State) (who : Initiator) (r : Bool) (p o : Nat) (h : regKey p o ≠ regKey 0x01C EVT_STATUS) :
    (s.touch who r).rd p o = s.rd p o := by
  unfold State.touch; rw [State.rd_endPack _ _ _ _ h]; cases r <;> rfl

theorem State.fg_touch (s : State) (who : Initiator) (r : Bool) (p : Nat) (f : Fld) (h : regKey p f.off ≠ regKey 0x01C EVT_STATUS) :
    (s.touch who r).fg p f = s.fg p f := by simp only [State.fg, State.rd_touch s who r p f.off h]

theorem State.touch_onlyRegs (s : State) (who : Initiator) (r : Bool) : onlyRegs [(0x01C, EVT_STATUS)] s (s.touch who r) := by
  intro p o ho hm
  refine State.rd_touch s who r p o fun e => hm ?_
  obtain ⟨rfl, rfl⟩ := regKey_inj (by decide) ho e; simp

theorem State.touch_quiet (s : State) (who : Initiator) (r : Bool) : quiet { s with scan := (s.touch who r).scan } (s.touch who r) := by
  unfold State.touch
  cases r
  · exact State.endPack_quiet s who
  · exact State.endPack_quiet (s.endSnap who) who

theorem key_ready (p : Nat) : regKey p PAGE_STATE ≠ regKey 0x01C EVT_STATUS := fun e => by
  have := regKey_inj (p := 0x01C) (o := EVT_STATUS) (p' := p) (o' := PAGE_STATE) (by decide) (by decide) e
  exact absurd this.2 (by decide)

@[simp] theorem State.ready_touch (s : State) (who : Initiator) (r : Bool) (p : Nat) : (s.touch who r).ready p = s.ready p := by
  simp only [State.ready, State.fb, State.fg_touch s who r p PAGE_STATE_READY (key_ready p)]

theorem State.gs_touch (s : State) (who : Initiator) (r : Bool) : (s.touch who r).gs = s.gs :=
by
  obtain ⟨_, _, _, e⟩ := (State.touch_quiet s who r).exists; rw [e]

@[simp] theorem State.reach_touch (s : State) (who w : Initiator) (r : Bool) (p o : Nat) : (s.touch who r).reach w p o = s.reach w p o := by
  simp only [State.reach, State.ready_touch, State.gs_touch]

@[simp] theorem State.stby_touch (s : State) (who w : Initiator) (r : Bool) (p o : Nat) :
    (s.touch who r).stbyRefuses w p o = s.stbyRefuses w p o := by
  simp only [State.stbyRefuses, State.fg_touch s who r 0x024 TW_STATUS_ROLE (by decide)]

theorem State.accepts_iff {s : State} {who : Initiator} {p o : Nat} :
    s.accepts who p o = true ↔ s.reach who p o = rspOk ∧ s.stbyRefuses who p o = false := by
  simp [State.accepts]

/-- A write that reaches its block. -/
theorem State.write_accepts {s : State} {who : Initiator} {p o : Nat} (h : s.accepts who p o = true) (op : State → State) :
    s.write who p o op = (op (s.touch who false)).answer who rspOk 0 := by
  obtain ⟨h1, h2⟩ := State.accepts_iff.1 h
  simp only [State.write, State.reach_touch, State.stby_touch, h1, h2]
  simp

/-- A read that reaches its block. -/
theorem State.read_accepts {s : State} {who : Initiator} {p o : Nat} (h : s.reach who p o = rspOk) (op : State → State × Word) :
    s.read who p o op = (op (s.touch who true)).1.answer who rspOk (op (s.touch who true)).2 := by
  simp only [State.read, State.reach_touch, h]; simp

@[simp] theorem State.rd_answer (s : State) (who : Initiator) (r : Nat) (d : Word) (p o : Nat) : (s.answer who r d).rd p o = s.rd p o := rfl
@[simp] theorem State.fg_answer (s : State) (who : Initiator) (r : Nat) (d : Word) (p : Nat) (f : Fld) :
    (s.answer who r d).fg p f = s.fg p f := rfl
@[simp] theorem State.ansOf_answer (s : State) (who : Initiator) (r : Nat) (d : Word) :
    (s.answer who r d).ansOf who = ⟨r, if r = rspOk then d else 0, none⟩ := by simp [State.ansOf, State.answer]

theorem onlyRegs.touch {l : List (Nat × Nat)} {s t : State} {who : Initiator} {r : Bool} (h : onlyRegs l (s.touch who r) t) :
    onlyRegs ((0x01C, EVT_STATUS) :: l) s t := fun p o ho hm => by
  simp only [List.mem_cons, not_or] at hm
  rw [h p o ho hm.2, State.touch_onlyRegs s who r p o ho (by simpa using hm.1)]

/-- A write whose operation changes registers alone. -/
theorem Wrote.of {who : Initiator} {s u : State} {l : List (Nat × Nat)} (hr : onlyRegs l (s.touch who false) u)
    (hq : quiet (s.touch who false) u) : Wrote who s (u.answer who rspOk 0) l := by
  refine ⟨by simp, hr.touch.of_rd fun _ _ => rfl, ?_⟩
  obtain ⟨r, f, i, e⟩ := (State.touch_quiet s who false).exists
  obtain ⟨r', f', i', rfl⟩ := hq.exists
  generalize (s.touch who false).scan = x at e
  rw [e]; rfl

end Sys2Proof.Machine
end

