-- ==== Sys2Proof/Laws/Kept.lean ====
section
/-! SUPPORT. What a command can disturb, said once for every function of the machine by the files `Kept…`: the queue of waiting commands
stays, registers, MRAM and scratchpad keep their canonical form, and registers of pages of other kinds and the other parts of the state
stay as in a base state. Kinds and parts are the bits of a mask. -/
namespace Sys2Proof.Machine

/-- The bit of a part, and of a kind of page. -/
def Part.bit : Part → Nat
  | .shad => 0
  | .stopping => 1
  | .ans => 2
  | .faultQ => 3
  | .iso => 4
  | .gs => 5
  | .isl => 6
  | .pll => 7
  | .spll => 8
  | .mram => 9
  | .lc => 10
  | .ingress => 11
  | .core => 12
  | .ring => 13
  | .mem => 14
  | .tm => 15
  | .scan => 16
  | .cards => 17
  | .chans => 18
  | .ucode => 19
  | .lookWait => 20
  | .looking => 21
  | .tw => 22
  | .supv => 23
  | .br => 24
  | .host => 25
  | .spi => 26
  | .ft => 27
  | .wear => 28
  | .up => 29
  | .fresh => 30
def kindBit : Option Kind → Nat
  | some .gs => 32
  | some .opt => 33
  | some .clk => 34
  | some .rp => 35
  | some .rc => 36
  | some .core => 37
  | some .q => 38
  | some .tm => 39
  | some .sc => 40
  | some .br => 41
  | some .hp => 42
  | some .tw => 43
  | some .fd => 44
  | some .pp => 45
  | some .cl => 46
  | some .ec => 47
  | some .en => 48
  | some .sm => 49
  | some .rt => 50
  | some .mem => 51
  | some .ft => 52
  | some .wr => 53
  | some .up => 54
  | none => 55

/-- Every bit of `m` is a bit of `M`. -/
def Sub (m M : Nat) : Prop := m &&& M = m

theorem Sub.bit {m M : Nat} (h : Sub m M) {i : Nat} (hi : m.testBit i = true) : M.testBit i = true := by
  have h2 := congrArg (Nat.testBit · i) h
  simp only [Nat.testBit_and, hi, Bool.true_and] at h2
  exact h2
theorem Sub.trans {a m M : Nat} (h' : a &&& m = a) (h : Sub m M) : Sub a M := by
  unfold Sub at *
  rw [← h', Nat.and_assoc, h]

/-- The bits of every kind of page. -/
def kindMask : Nat := 72057589742960640

theorem kindMask_bit (k : Option Kind) : kindMask.testBit (kindBit k) = true := by
  cases k with
  | none => rfl
  | some k => cases k <;> rfl
theorem Sub.kind {m M : Nat} (h : Sub m M) (hm : kindMask &&& m = kindMask) (k : Option Kind) : M.testBit (kindBit k) = true :=
  (Sub.trans hm h).bit (kindMask_bit k)

/-! ### Kinds of the pages that have names -/

theorem kindOf_clPage (n : Nat) : kindOf (clPage n) = some .cl := by
  have h : ∀ i, i < 24 → kindOf (0x050 + i) = some .cl := by decide
  exact h _ (Nat.mod_lt _ (by decide))
theorem kindOf_ecPage (n : Nat) : kindOf (ecPage n) = some .ec := by
  have h : ∀ i, i < 24 → kindOf (0x080 + i) = some .ec := by decide
  exact h _ (Nat.mod_lt _ (by decide))
theorem kindOf_ppPage (n : Nat) : kindOf (ppPage n) = some .pp := by
  have h : ∀ i, i < 24 → kindOf (0x030 + i) = some .pp := by decide
  exact h _ (Nat.mod_lt _ (by decide))
theorem kindOf_enPage (n c : Nat) : kindOf (enPage n c) = some .en := by
  have h : ∀ i, i < 24 → ∀ j, j < 9 → kindOf (0x100 + 9 * i + j) = some .en := by decide +kernel
  exact h _ (Nat.mod_lt _ (by decide)) _ (Nat.mod_lt _ (by decide))
theorem kindOf_enOf (s : State) (n c : Nat) : kindOf (s.enOf n c) = some .en := kindOf_enPage ..
theorem kindOf_qPage (q : Nat) : kindOf (qPage q) = some .q := by
  have h : ∀ i, i < 4 → kindOf (0x011 + i) = some .q := by decide
  exact h _ (by omega)
theorem kindOf_rtPage (e : Nat) : kindOf (rtPage e) = some .rt := by
  have h : ∀ i, i < 64 → kindOf (0x200 + i) = some .rt := by decide
  exact h _ (by omega)
theorem kindOf_enAlias (s : State) (p : Nat) : kindOf (s.enAlias p) = kindOf p := by
  unfold State.enAlias
  dsimp only
  split
  · next h => split
              · rw [kindOf_enPage, h]
              · rfl
  · rfl
theorem kindOf_engine (e : Engine) : kindOf (0x100 + e.val) = some .en := by
  have h : ∀ i, i < 216 → kindOf (0x100 + i) = some .en := by decide +kernel
  exact h _ e.isLt
theorem kindOf_enReg (s : State) (e : Engine) : kindOf (s.enReg e) = some .en := by
  unfold State.enReg; rw [kindOf_enAlias, kindOf_engine]

section
variable {M : Nat}
theorem bit_lanePage (h1 : M.testBit 35 = true) (h2 : M.testBit 43 = true) (p : LanePort) : M.testBit (kindBit (kindOf p.page)) = true := by
  cases p <;> assumption
theorem bit_ringPage (h1 : M.testBit 35 = true) (p : RingPort) : M.testBit (kindBit (kindOf p.page)) = true := by
  cases p <;> assumption
theorem bit_clPage (h : M.testBit 46 = true) (n : Nat) : M.testBit (kindBit (kindOf (clPage n))) = true := by rw [kindOf_clPage]; exact h
theorem bit_ecPage (h : M.testBit 47 = true) (n : Nat) : M.testBit (kindBit (kindOf (ecPage n))) = true := by rw [kindOf_ecPage]; exact h
theorem bit_ppPage (h : M.testBit 45 = true) (n : Nat) : M.testBit (kindBit (kindOf (ppPage n))) = true := by rw [kindOf_ppPage]; exact h
theorem bit_enPage (h : M.testBit 48 = true) (n c : Nat) : M.testBit (kindBit (kindOf (enPage n c))) = true := by rw [kindOf_enPage]; exact h
theorem bit_enOf (h : M.testBit 48 = true) (s : State) (n c : Nat) : M.testBit (kindBit (kindOf (s.enOf n c))) = true := by
  rw [kindOf_enOf]; exact h
theorem bit_enReg (h : M.testBit 48 = true) (s : State) (e : Engine) : M.testBit (kindBit (kindOf (s.enReg e))) = true := by
  rw [kindOf_enReg]; exact h
theorem bit_qPage (h : M.testBit 38 = true) (q : Nat) : M.testBit (kindBit (kindOf (qPage q))) = true := by rw [kindOf_qPage]; exact h
theorem bit_qVal (h : M.testBit 38 = true) (p : Fin 4) : M.testBit (kindBit (kindOf (0x011 + p.val))) = true := by
  have h' : ∀ p : Fin 4, kindOf (0x011 + p.val) = some .q := by decide
  rw [h' p]; exact h
theorem bit_rtPage (h : M.testBit 50 = true) (e : Nat) : M.testBit (kindBit (kindOf (rtPage e))) = true := by rw [kindOf_rtPage]; exact h
theorem bit_enAlias (s : State) (p : Nat) (h : M.testBit (kindBit (kindOf p)) = true) : M.testBit (kindBit (kindOf (s.enAlias p))) = true := by
  rw [kindOf_enAlias]; exact h
end

/-! ### The relation -/

/-- The queue is `q`, the stores have their canonical form, and what the mask `M` does not name is as in `b`. -/
structure Kept (M : Nat) (b : State) (q : List Instr) (s : State) : Prop where
  pending : s.pending = q
  regs : Map.wf resetWord s.regs = true
  mram : Map.wf (fun _ => (0 : Byte)) s.mram = true
  sp : Map.wf (fun _ => (0 : Word)) s.mem.sp = true
  lc : s.lc < 2 ^ 64
  rd : ∀ p o, M.testBit (kindBit (kindOf p)) = false → s.rd p o = b.rd p o
  part : ∀ f : Part, M.testBit f.bit = false → f.same b s

theorem Kept.canonical {M : Nat} {b : State} {q : List Instr} {s : State} (h : Kept M b q s) : s.canonical = true := by
  simp only [State.canonical, Memory.wf, Bool.and_eq_true, decide_eq_true_eq]
  exact ⟨⟨⟨h.regs, h.mram⟩, h.sp⟩, h.lc⟩

theorem State.canonical_kept {M : Nat} {s : State} (h : s.canonical = true) : Kept M s s.pending s := by
  simp only [State.canonical, Memory.wf, Bool.and_eq_true, decide_eq_true_eq] at h
  exact ⟨rfl, h.1.1.1, h.1.1.2, h.1.2, h.2, fun _ _ _ => rfl, fun f _ => by cases f <;> rfl⟩

theorem false_of {M i : Nat} {P : Prop} (h : M.testBit i = false) (h' : M.testBit i = true) : P := by rw [h'] at h; cases h

variable {M : Nat} {b : State} {q : List Instr} {s : State}

/-- The mask of lists of kinds and parts. -/
def maskOf (ks : List Kind) (fs : List Part) : Nat :=
  (fs.map fun f => 1 <<< f.bit).foldl (· ||| ·) 0 ||| (ks.map fun k => 1 <<< kindBit (some k)).foldl (· ||| ·) 0

theorem Kept.set_shad {x} (h : Kept M b q s) (hb : M.testBit 0 = true) : Kept M b q (State.mk s.regs x s.stopping s.ans s.faultQ s.iso s.gs s.isl s.pll s.spll s.mram s.lc s.ingress s.core s.ring s.mem s.tm s.scan s.cards s.chans s.ucode s.lookWait s.looking s.tw s.supv s.br s.host s.spi s.ft s.wear s.up s.fresh s.pending) :=
  ⟨h.pending, h.regs, h.mram, h.sp, h.lc, h.rd, fun f hf => by cases f <;> first | exact h.part _ hf | exact false_of hf hb⟩
theorem Kept.set_stopping {x} (h : Kept M b q s) (hb : M.testBit 1 = true) : Kept M b q (State.mk s.regs s.shad x s.ans s.faultQ s.iso s.gs s.isl s.pll s.spll s.mram s.lc s.ingress s.core s.ring s.mem s.tm s.scan s.cards s.chans s.ucode s.lookWait s.looking s.tw s.supv s.br s.host s.spi s.ft s.wear s.up s.fresh s.pending) :=
  ⟨h.pending, h.regs, h.mram, h.sp, h.lc, h.rd, fun f hf => by cases f <;> first | exact h.part _ hf | exact false_of hf hb⟩
theorem Kept.set_ans {x} (h : Kept M b q s) (hb : M.testBit 2 = true) : Kept M b q (State.mk s.regs s.shad s.stopping x s.faultQ s.iso s.gs s.isl s.pll s.spll s.mram s.lc s.ingress s.core s.ring s.mem s.tm s.scan s.cards s.chans s.ucode s.lookWait s.looking s.tw s.supv s.br s.host s.spi s.ft s.wear s.up s.fresh s.pending) :=
  ⟨h.pending, h.regs, h.mram, h.sp, h.lc, h.rd, fun f hf => by cases f <;> first | exact h.part _ hf | exact false_of hf hb⟩
theorem Kept.set_faultQ {x} (h : Kept M b q s) (hb : M.testBit 3 = true) : Kept M b q (State.mk s.regs s.shad s.stopping s.ans x s.iso s.gs s.isl s.pll s.spll s.mram s.lc s.ingress s.core s.ring s.mem s.tm s.scan s.cards s.chans s.ucode s.lookWait s.looking s.tw s.supv s.br s.host s.spi s.ft s.wear s.up s.fresh s.pending) :=
  ⟨h.pending, h.regs, h.mram, h.sp, h.lc, h.rd, fun f hf => by cases f <;> first | exact h.part _ hf | exact false_of hf hb⟩
theorem Kept.set_iso {x} (h : Kept M b q s) (hb : M.testBit 4 = true) : Kept M b q (State.mk s.regs s.shad s.stopping s.ans s.faultQ x s.gs s.isl s.pll s.spll s.mram s.lc s.ingress s.core s.ring s.mem s.tm s.scan s.cards s.chans s.ucode s.lookWait s.looking s.tw s.supv s.br s.host s.spi s.ft s.wear s.up s.fresh s.pending) :=
  ⟨h.pending, h.regs, h.mram, h.sp, h.lc, h.rd, fun f hf => by cases f <;> first | exact h.part _ hf | exact false_of hf hb⟩
theorem Kept.set_gs {x} (h : Kept M b q s) (hb : M.testBit 5 = true) : Kept M b q (State.mk s.regs s.shad s.stopping s.ans s.faultQ s.iso x s.isl s.pll s.spll s.mram s.lc s.ingress s.core s.ring s.mem s.tm s.scan s.cards s.chans s.ucode s.lookWait s.looking s.tw s.supv s.br s.host s.spi s.ft s.wear s.up s.fresh s.pending) :=
  ⟨h.pending, h.regs, h.mram, h.sp, h.lc, h.rd, fun f hf => by cases f <;> first | exact h.part _ hf | exact false_of hf hb⟩
theorem Kept.set_isl {x} (h : Kept M b q s) (hb : M.testBit 6 = true) : Kept M b q (State.mk s.regs s.shad s.stopping s.ans s.faultQ s.iso s.gs x s.pll s.spll s.mram s.lc s.ingress s.core s.ring s.mem s.tm s.scan s.cards s.chans s.ucode s.lookWait s.looking s.tw s.supv s.br s.host s.spi s.ft s.wear s.up s.fresh s.pending) :=
  ⟨h.pending, h.regs, h.mram, h.sp, h.lc, h.rd, fun f hf => by cases f <;> first | exact h.part _ hf | exact false_of hf hb⟩
theorem Kept.set_pll {x} (h : Kept M b q s) (hb : M.testBit 7 = true) : Kept M b q (State.mk s.regs s.shad s.stopping s.ans s.faultQ s.iso s.gs s.isl x s.spll s.mram s.lc s.ingress s.core s.ring s.mem s.tm s.scan s.cards s.chans s.ucode s.lookWait s.looking s.tw s.supv s.br s.host s.spi s.ft s.wear s.up s.fresh s.pending) :=
  ⟨h.pending, h.regs, h.mram, h.sp, h.lc, h.rd, fun f hf => by cases f <;> first | exact h.part _ hf | exact false_of hf hb⟩
theorem Kept.set_spll {x} (h : Kept M b q s) (hb : M.testBit 8 = true) : Kept M b q (State.mk s.regs s.shad s.stopping s.ans s.faultQ s.iso s.gs s.isl s.pll x s.mram s.lc s.ingress s.core s.ring s.mem s.tm s.scan s.cards s.chans s.ucode s.lookWait s.looking s.tw s.supv s.br s.host s.spi s.ft s.wear s.up s.fresh s.pending) :=
  ⟨h.pending, h.regs, h.mram, h.sp, h.lc, h.rd, fun f hf => by cases f <;> first | exact h.part _ hf | exact false_of hf hb⟩
theorem Kept.set_ingress {x} (h : Kept M b q s) (hb : M.testBit 11 = true) : Kept M b q (State.mk s.regs s.shad s.stopping s.ans s.faultQ s.iso s.gs s.isl s.pll s.spll s.mram s.lc x s.core s.ring s.mem s.tm s.scan s.cards s.chans s.ucode s.lookWait s.looking s.tw s.supv s.br s.host s.spi s.ft s.wear s.up s.fresh s.pending) :=
  ⟨h.pending, h.regs, h.mram, h.sp, h.lc, h.rd, fun f hf => by cases f <;> first | exact h.part _ hf | exact false_of hf hb⟩
theorem Kept.set_core {x} (h : Kept M b q s) (hb : M.testBit 12 = true) : Kept M b q (State.mk s.regs s.shad s.stopping s.ans s.faultQ s.iso s.gs s.isl s.pll s.spll s.mram s.lc s.ingress x s.ring s.mem s.tm s.scan s.cards s.chans s.ucode s.lookWait s.looking s.tw s.supv s.br s.host s.spi s.ft s.wear s.up s.fresh s.pending) :=
  ⟨h.pending, h.regs, h.mram, h.sp, h.lc, h.rd, fun f hf => by cases f <;> first | exact h.part _ hf | exact false_of hf hb⟩
theorem Kept.set_ring {x} (h : Kept M b q s) (hb : M.testBit 13 = true) : Kept M b q (State.mk s.regs s.shad s.stopping s.ans s.faultQ s.iso s.gs s.isl s.pll s.spll s.mram s.lc s.ingress s.core x s.mem s.tm s.scan s.cards s.chans s.ucode s.lookWait s.looking s.tw s.supv s.br s.host s.spi s.ft s.wear s.up s.fresh s.pending) :=
  ⟨h.pending, h.regs, h.mram, h.sp, h.lc, h.rd, fun f hf => by cases f <;> first | exact h.part _ hf | exact false_of hf hb⟩
theorem Kept.set_tm {x} (h : Kept M b q s) (hb : M.testBit 15 = true) : Kept M b q (State.mk s.regs s.shad s.stopping s.ans s.faultQ s.iso s.gs s.isl s.pll s.spll s.mram s.lc s.ingress s.core s.ring s.mem x s.scan s.cards s.chans s.ucode s.lookWait s.looking s.tw s.supv s.br s.host s.spi s.ft s.wear s.up s.fresh s.pending) :=
  ⟨h.pending, h.regs, h.mram, h.sp, h.lc, h.rd, fun f hf => by cases f <;> first | exact h.part _ hf | exact false_of hf hb⟩
theorem Kept.set_scan {x} (h : Kept M b q s) (hb : M.testBit 16 = true) : Kept M b q (State.mk s.regs s.shad s.stopping s.ans s.faultQ s.iso s.gs s.isl s.pll s.spll s.mram s.lc s.ingress s.core s.ring s.mem s.tm x s.cards s.chans s.ucode s.lookWait s.looking s.tw s.supv s.br s.host s.spi s.ft s.wear s.up s.fresh s.pending) :=
  ⟨h.pending, h.regs, h.mram, h.sp, h.lc, h.rd, fun f hf => by cases f <;> first | exact h.part _ hf | exact false_of hf hb⟩
theorem Kept.set_cards {x} (h : Kept M b q s) (hb : M.testBit 17 = true) : Kept M b q (State.mk s.regs s.shad s.stopping s.ans s.faultQ s.iso s.gs s.isl s.pll s.spll s.mram s.lc s.ingress s.core s.ring s.mem s.tm s.scan x s.chans s.ucode s.lookWait s.looking s.tw s.supv s.br s.host s.spi s.ft s.wear s.up s.fresh s.pending) :=
  ⟨h.pending, h.regs, h.mram, h.sp, h.lc, h.rd, fun f hf => by cases f <;> first | exact h.part _ hf | exact false_of hf hb⟩
theorem Kept.set_chans {x} (h : Kept M b q s) (hb : M.testBit 18 = true) : Kept M b q (State.mk s.regs s.shad s.stopping s.ans s.faultQ s.iso s.gs s.isl s.pll s.spll s.mram s.lc s.ingress s.core s.ring s.mem s.tm s.scan s.cards x s.ucode s.lookWait s.looking s.tw s.supv s.br s.host s.spi s.ft s.wear s.up s.fresh s.pending) :=
  ⟨h.pending, h.regs, h.mram, h.sp, h.lc, h.rd, fun f hf => by cases f <;> first | exact h.part _ hf | exact false_of hf hb⟩
theorem Kept.set_ucode {x} (h : Kept M b q s) (hb : M.testBit 19 = true) : Kept M b q (State.mk s.regs s.shad s.stopping s.ans s.faultQ s.iso s.gs s.isl s.pll s.spll s.mram s.lc s.ingress s.core s.ring s.mem s.tm s.scan s.cards s.chans x s.lookWait s.looking s.tw s.supv s.br s.host s.spi s.ft s.wear s.up s.fresh s.pending) :=
  ⟨h.pending, h.regs, h.mram, h.sp, h.lc, h.rd, fun f hf => by cases f <;> first | exact h.part _ hf | exact false_of hf hb⟩
theorem Kept.set_lookWait {x} (h : Kept M b q s) (hb : M.testBit 20 = true) : Kept M b q (State.mk s.regs s.shad s.stopping s.ans s.faultQ s.iso s.gs s.isl s.pll s.spll s.mram s.lc s.ingress s.core s.ring s.mem s.tm s.scan s.cards s.chans s.ucode x s.looking s.tw s.supv s.br s.host s.spi s.ft s.wear s.up s.fresh s.pending) :=
  ⟨h.pending, h.regs, h.mram, h.sp, h.lc, h.rd, fun f hf => by cases f <;> first | exact h.part _ hf | exact false_of hf hb⟩
theorem Kept.set_looking {x} (h : Kept M b q s) (hb : M.testBit 21 = true) : Kept M b q (State.mk s.regs s.shad s.stopping s.ans s.faultQ s.iso s.gs s.isl s.pll s.spll s.mram s.lc s.ingress s.core s.ring s.mem s.tm s.scan s.cards s.chans s.ucode s.lookWait x s.tw s.supv s.br s.host s.spi s.ft s.wear s.up s.fresh s.pending) :=
  ⟨h.pending, h.regs, h.mram, h.sp, h.lc, h.rd, fun f hf => by cases f <;> first | exact h.part _ hf | exact false_of hf hb⟩
theorem Kept.set_tw {x} (h : Kept M b q s) (hb : M.testBit 22 = true) : Kept M b q (State.mk s.regs s.shad s.stopping s.ans s.faultQ s.iso s.gs s.isl s.pll s.spll s.mram s.lc s.ingress s.core s.ring s.mem s.tm s.scan s.cards s.chans s.ucode s.lookWait s.looking x s.supv s.br s.host s.spi s.ft s.wear s.up s.fresh s.pending) :=
  ⟨h.pending, h.regs, h.mram, h.sp, h.lc, h.rd, fun f hf => by cases f <;> first | exact h.part _ hf | exact false_of hf hb⟩
theorem Kept.set_supv {x} (h : Kept M b q s) (hb : M.testBit 23 = true) : Kept M b q (State.mk s.regs s.shad s.stopping s.ans s.faultQ s.iso s.gs s.isl s.pll s.spll s.mram s.lc s.ingress s.core s.ring s.mem s.tm s.scan s.cards s.chans s.ucode s.lookWait s.looking s.tw x s.br s.host s.spi s.ft s.wear s.up s.fresh s.pending) :=
  ⟨h.pending, h.regs, h.mram, h.sp, h.lc, h.rd, fun f hf => by cases f <;> first | exact h.part _ hf | exact false_of hf hb⟩
theorem Kept.set_br {x} (h : Kept M b q s) (hb : M.testBit 24 = true) : Kept M b q (State.mk s.regs s.shad s.stopping s.ans s.faultQ s.iso s.gs s.isl s.pll s.spll s.mram s.lc s.ingress s.core s.ring s.mem s.tm s.scan s.cards s.chans s.ucode s.lookWait s.looking s.tw s.supv x s.host s.spi s.ft s.wear s.up s.fresh s.pending) :=
  ⟨h.pending, h.regs, h.mram, h.sp, h.lc, h.rd, fun f hf => by cases f <;> first | exact h.part _ hf | exact false_of hf hb⟩
theorem Kept.set_host {x} (h : Kept M b q s) (hb : M.testBit 25 = true) : Kept M b q (State.mk s.regs s.shad s.stopping s.ans s.faultQ s.iso s.gs s.isl s.pll s.spll s.mram s.lc s.ingress s.core s.ring s.mem s.tm s.scan s.cards s.chans s.ucode s.lookWait s.looking s.tw s.supv s.br x s.spi s.ft s.wear s.up s.fresh s.pending) :=
  ⟨h.pending, h.regs, h.mram, h.sp, h.lc, h.rd, fun f hf => by cases f <;> first | exact h.part _ hf | exact false_of hf hb⟩
theorem Kept.set_spi {x} (h : Kept M b q s) (hb : M.testBit 26 = true) : Kept M b q (State.mk s.regs s.shad s.stopping s.ans s.faultQ s.iso s.gs s.isl s.pll s.spll s.mram s.lc s.ingress s.core s.ring s.mem s.tm s.scan s.cards s.chans s.ucode s.lookWait s.looking s.tw s.supv s.br s.host x s.ft s.wear s.up s.fresh s.pending) :=
  ⟨h.pending, h.regs, h.mram, h.sp, h.lc, h.rd, fun f hf => by cases f <;> first | exact h.part _ hf | exact false_of hf hb⟩
theorem Kept.set_ft {x} (h : Kept M b q s) (hb : M.testBit 27 = true) : Kept M b q (State.mk s.regs s.shad s.stopping s.ans s.faultQ s.iso s.gs s.isl s.pll s.spll s.mram s.lc s.ingress s.core s.ring s.mem s.tm s.scan s.cards s.chans s.ucode s.lookWait s.looking s.tw s.supv s.br s.host s.spi x s.wear s.up s.fresh s.pending) :=
  ⟨h.pending, h.regs, h.mram, h.sp, h.lc, h.rd, fun f hf => by cases f <;> first | exact h.part _ hf | exact false_of hf hb⟩
theorem Kept.set_wear {x} (h : Kept M b q s) (hb : M.testBit 28 = true) : Kept M b q (State.mk s.regs s.shad s.stopping s.ans s.faultQ s.iso s.gs s.isl s.pll s.spll s.mram s.lc s.ingress s.core s.ring s.mem s.tm s.scan s.cards s.chans s.ucode s.lookWait s.looking s.tw s.supv s.br s.host s.spi s.ft x s.up s.fresh s.pending) :=
  ⟨h.pending, h.regs, h.mram, h.sp, h.lc, h.rd, fun f hf => by cases f <;> first | exact h.part _ hf | exact false_of hf hb⟩
theorem Kept.set_up {x} (h : Kept M b q s) (hb : M.testBit 29 = true) : Kept M b q (State.mk s.regs s.shad s.stopping s.ans s.faultQ s.iso s.gs s.isl s.pll s.spll s.mram s.lc s.ingress s.core s.ring s.mem s.tm s.scan s.cards s.chans s.ucode s.lookWait s.looking s.tw s.supv s.br s.host s.spi s.ft s.wear x s.fresh s.pending) :=
  ⟨h.pending, h.regs, h.mram, h.sp, h.lc, h.rd, fun f hf => by cases f <;> first | exact h.part _ hf | exact false_of hf hb⟩
theorem Kept.set_fresh {x} (h : Kept M b q s) (hb : M.testBit 30 = true) : Kept M b q (State.mk s.regs s.shad s.stopping s.ans s.faultQ s.iso s.gs s.isl s.pll s.spll s.mram s.lc s.ingress s.core s.ring s.mem s.tm s.scan s.cards s.chans s.ucode s.lookWait s.looking s.tw s.supv s.br s.host s.spi s.ft s.wear s.up x s.pending) :=
  ⟨h.pending, h.regs, h.mram, h.sp, h.lc, h.rd, fun f hf => by cases f <;> first | exact h.part _ hf | exact false_of hf hb⟩
theorem Kept.set_mem {march powerOn cellsUnready canopyUnready banks spUe spCe repairs held} (h : Kept M b q s) (hb : M.testBit 14 = true) :
    Kept M b q (State.mk s.regs s.shad s.stopping s.ans s.faultQ s.iso s.gs s.isl s.pll s.spll s.mram s.lc s.ingress s.core s.ring (MemSt.mk march powerOn cellsUnready canopyUnready banks s.mem.sp spUe spCe repairs held) s.tm s.scan s.cards s.chans s.ucode s.lookWait s.looking s.tw s.supv s.br s.host s.spi s.ft s.wear s.up s.fresh s.pending) :=
  ⟨h.pending, h.regs, h.mram, h.sp, h.lc, h.rd, fun f hf => by cases f <;> first | exact h.part _ hf | exact false_of hf hb⟩
/-- A record update of several parts: each is the same, or the mask names it. -/
theorem Kept.upd {shad stopping ans faultQ iso gs isl pll spll ingress core ring mem tm scan cards chans ucode lookWait looking tw supv br host spi ft wear up fresh} (h : Kept M b q s) (hsp : mem.sp = s.mem.sp)
    (h_shad : shad = s.shad ∨ M.testBit 0 = true)
    (h_stopping : stopping = s.stopping ∨ M.testBit 1 = true)
    (h_ans : ans = s.ans ∨ M.testBit 2 = true)
    (h_faultQ : faultQ = s.faultQ ∨ M.testBit 3 = true)
    (h_iso : iso = s.iso ∨ M.testBit 4 = true)
    (h_gs : gs = s.gs ∨ M.testBit 5 = true)
    (h_isl : isl = s.isl ∨ M.testBit 6 = true)
    (h_pll : pll = s.pll ∨ M.testBit 7 = true)
    (h_spll : spll = s.spll ∨ M.testBit 8 = true)
    (h_ingress : ingress = s.ingress ∨ M.testBit 11 = true)
    (h_core : core = s.core ∨ M.testBit 12 = true)
    (h_ring : ring = s.ring ∨ M.testBit 13 = true)
    (h_mem : mem = s.mem ∨ M.testBit 14 = true)
    (h_tm : tm = s.tm ∨ M.testBit 15 = true)
    (h_scan : scan = s.scan ∨ M.testBit 16 = true)
    (h_cards : cards = s.cards ∨ M.testBit 17 = true)
    (h_chans : chans = s.chans ∨ M.testBit 18 = true)
    (h_ucode : ucode = s.ucode ∨ M.testBit 19 = true)
    (h_lookWait : lookWait = s.lookWait ∨ M.testBit 20 = true)
    (h_looking : looking = s.looking ∨ M.testBit 21 = true)
    (h_tw : tw = s.tw ∨ M.testBit 22 = true)
    (h_supv : supv = s.supv ∨ M.testBit 23 = true)
    (h_br : br = s.br ∨ M.testBit 24 = true)
    (h_host : host = s.host ∨ M.testBit 25 = true)
    (h_spi : spi = s.spi ∨ M.testBit 26 = true)
    (h_ft : ft = s.ft ∨ M.testBit 27 = true)
    (h_wear : wear = s.wear ∨ M.testBit 28 = true)
    (h_up : up = s.up ∨ M.testBit 29 = true)
    (h_fresh : fresh = s.fresh ∨ M.testBit 30 = true)
    : Kept M b q (State.mk s.regs shad stopping ans faultQ iso gs isl pll spll s.mram s.lc ingress core ring mem tm scan cards chans ucode lookWait looking tw supv br host spi ft wear up fresh s.pending) :=
  ⟨h.pending, h.regs, h.mram, hsp ▸ h.sp, h.lc, h.rd, fun f hf => by
    cases f
    all_goals first
      | exact h.part _ hf
      | exact h_shad.elim (fun e => e.trans (h.part .shad hf)) (false_of hf)
      | exact h_stopping.elim (fun e => e.trans (h.part .stopping hf)) (false_of hf)
      | exact h_ans.elim (fun e => e.trans (h.part .ans hf)) (false_of hf)
      | exact h_faultQ.elim (fun e => e.trans (h.part .faultQ hf)) (false_of hf)
      | exact h_iso.elim (fun e => e.trans (h.part .iso hf)) (false_of hf)
      | exact h_gs.elim (fun e => e.trans (h.part .gs hf)) (false_of hf)
      | exact h_isl.elim (fun e => e.trans (h.part .isl hf)) (false_of hf)
      | exact h_pll.elim (fun e => e.trans (h.part .pll hf)) (false_of hf)
      | exact h_spll.elim (fun e => e.trans (h.part .spll hf)) (false_of hf)
      | exact h_ingress.elim (fun e => e.trans (h.part .ingress hf)) (false_of hf)
      | exact h_core.elim (fun e => e.trans (h.part .core hf)) (false_of hf)
      | exact h_ring.elim (fun e => e.trans (h.part .ring hf)) (false_of hf)
      | exact h_mem.elim (fun e => e.trans (h.part .mem hf)) (false_of hf)
      | exact h_tm.elim (fun e => e.trans (h.part .tm hf)) (false_of hf)
      | exact h_scan.elim (fun e => e.trans (h.part .scan hf)) (false_of hf)
      | exact h_cards.elim (fun e => e.trans (h.part .cards hf)) (false_of hf)
      | exact h_chans.elim (fun e => e.trans (h.part .chans hf)) (false_of hf)
      | exact h_ucode.elim (fun e => e.trans (h.part .ucode hf)) (false_of hf)
      | exact h_lookWait.elim (fun e => e.trans (h.part .lookWait hf)) (false_of hf)
      | exact h_looking.elim (fun e => e.trans (h.part .looking hf)) (false_of hf)
      | exact h_tw.elim (fun e => e.trans (h.part .tw hf)) (false_of hf)
      | exact h_supv.elim (fun e => e.trans (h.part .supv hf)) (false_of hf)
      | exact h_br.elim (fun e => e.trans (h.part .br hf)) (false_of hf)
      | exact h_host.elim (fun e => e.trans (h.part .host hf)) (false_of hf)
      | exact h_spi.elim (fun e => e.trans (h.part .spi hf)) (false_of hf)
      | exact h_ft.elim (fun e => e.trans (h.part .ft hf)) (false_of hf)
      | exact h_wear.elim (fun e => e.trans (h.part .wear hf)) (false_of hf)
      | exact h_up.elim (fun e => e.trans (h.part .up hf)) (false_of hf)
      | exact h_fresh.elim (fun e => e.trans (h.part .fresh hf)) (false_of hf)⟩

/-- A write of a register. -/
theorem State.wr_kept {p off : Nat} {v : Word} (hs : Kept M b q s) (hp : M.testBit (kindBit (kindOf p)) = true) : Kept M b q (s.wr p off v) :=
  ⟨hs.pending, Map.wf_put _ _ hs.regs, hs.mram, hs.sp, hs.lc, fun p' o' hf => by
    rw [← hs.rd p' o' hf]
    simp only [State.rd, State.wr]
    refine Map.getD_put_other _ _ _ _ fun e => ?_
    have : p' = p := by simp only [regKey] at e; omega
    subst this; exact false_of hf hp, fun f hf => by cases f <;> exact hs.part _ hf⟩

theorem rd_drop (f : Nat → Bool) (r : Map Word) (k : Nat) (d : Word) (h : f k = false) : (Map.drop f r).getD k d = r.getD k d := by
  induction r with
  | nil => rfl
  | cons e r ih =>
    obtain ⟨k', v⟩ := e
    simp only [Map.drop] at ih ⊢
    by_cases hk : k = k'
    · subst hk; simp [h, Map.getD]
    · by_cases hf : f k' = true
      · simp [hf, Map.getD, hk, ih]
      · simp [hf, Map.getD, hk, ih]

theorem rd_filter (f : Nat → Bool) (r : Map Word) (k : Nat) (d : Word) (h : f k = true) :
    Map.getD (List.filter (fun e => f e.1) r) k d = Map.getD r k d := by
  induction r with
  | nil => rfl
  | cons e r ih =>
    obtain ⟨k', v⟩ := e
    by_cases hk : k = k'
    · subst hk; simp [h, Map.getD]
    · by_cases hf : f k' = true
      · simp [hf, Map.getD, hk, ih]
      · simp [hf, Map.getD, hk, ih]

theorem Kept.ite {c : Prop} [Decidable c] {x y : State} (hx : Kept M b q x) (hy : Kept M b q y) :
    Kept M b q (if c then x else y) := by split <;> assumption

theorem Kept.of_pair {α : Type} {x : State × α} {u : State} {a : α} (e : x = (u, a)) (h : Kept M b q x.1) : Kept M b q u := by
  rw [e] at h; exact h

theorem Kept.foldl {α : Type} {f : State → α → State} {l : List α} {s : State} (h : Kept M b q s)
    (hf : ∀ t a, Kept M b q t → Kept M b q (f t a)) : Kept M b q (l.foldl f s) := by
  induction l generalizing s with
  | nil => exact h
  | cons a l ih => exact ih (hf s a h)

theorem Kept.foldlM {α : Type} {f : State → α → State} {l : List α} {s : State} (h : Kept M b q s)
    (hf : ∀ t a, a ∈ l → Kept M b q t → Kept M b q (f t a)) : Kept M b q (l.foldl f s) := by
  induction l generalizing s with
  | nil => exact h
  | cons a l ih => exact ih (hf s a (List.mem_cons_self ..) h) fun t a' ha => hf t a' (List.mem_cons_of_mem _ ha)

theorem Kept.foldlP {α β : Type} {f : State × β → α → State × β} {l : List α} {s : State × β} (h : Kept M b q s.1)
    (hf : ∀ t a, Kept M b q t.1 → Kept M b q (f t a).1) : Kept M b q (l.foldl f s).1 := by
  induction l generalizing s with
  | nil => exact h
  | cons a l ih => exact ih (hf s a h)

end Sys2Proof.Machine
end

