-- ==== Sys2Proof/Laws/KeptOps.lean ====
section
/-! SUPPORT. What the functions of Machine/Ops.lean keep (Laws/Kept.lean). -/
namespace Sys2Proof.Machine

theorem State.fs_kept {M : Nat} {b : State} {q : List Instr} {s : State} {p : Nat} {f : Fld} {v : Nat} (hs : Kept M b q s) (hM : Sub 0x0 M) (hp1 : M.testBit (kindBit (kindOf p)) = true) : Kept M b q (State.fs s p f v) := by
  unfold State.fs
  try dsimp only
  repeat' first
    | with_reducible assumption
    | exact Sub.trans (by decide) hM
    | exact Sub.bit hM (by decide)
    | exact Sub.kind hM (by decide) _
    | (intro _; try dsimp only)
    | with_reducible apply State.wr_kept
    | with_reducible apply Kept.ite
    | with_reducible refine Kept.of_pair (by assumption) ?_
    | split

theorem State.addSat_kept {M : Nat} {b : State} {q : List Instr} {s : State} {p : Nat} {f : Fld} {n : Nat} (hs : Kept M b q s) (hM : Sub 0x0 M) (hp1 : M.testBit (kindBit (kindOf p)) = true) : Kept M b q (State.addSat s p f n) := by
  unfold State.addSat
  try dsimp only
  repeat' first
    | with_reducible assumption
    | exact Sub.trans (by decide) hM
    | exact Sub.bit hM (by decide)
    | exact Sub.kind hM (by decide) _
    | (intro _; try dsimp only)
    | with_reducible apply State.fs_kept
    | with_reducible apply Kept.ite
    | with_reducible refine Kept.of_pair (by assumption) ?_
    | split

theorem State.inc_kept {M : Nat} {b : State} {q : List Instr} {s : State} {p : Nat} {f : Fld} (hs : Kept M b q s) (hM : Sub 0x0 M) (hp1 : M.testBit (kindBit (kindOf p)) = true) : Kept M b q (State.inc s p f) := by
  unfold State.inc
  try dsimp only
  repeat' first
    | with_reducible assumption
    | exact Sub.trans (by decide) hM
    | exact Sub.bit hM (by decide)
    | exact Sub.kind hM (by decide) _
    | (intro _; try dsimp only)
    | with_reducible apply State.addSat_kept
    | with_reducible apply Kept.ite
    | with_reducible refine Kept.of_pair (by assumption) ?_
    | split

theorem State.addWrap_kept {M : Nat} {b : State} {q : List Instr} {s : State} {p : Nat} {f : Fld} {n : Nat} (hs : Kept M b q s) (hM : Sub 0x0 M) (hp1 : M.testBit (kindBit (kindOf p)) = true) : Kept M b q (State.addWrap s p f n) := by
  unfold State.addWrap
  try dsimp only
  repeat' first
    | with_reducible assumption
    | exact Sub.trans (by decide) hM
    | exact Sub.bit hM (by decide)
    | exact Sub.kind hM (by decide) _
    | (intro _; try dsimp only)
    | with_reducible apply State.fs_kept
    | with_reducible apply Kept.ite
    | with_reducible refine Kept.of_pair (by assumption) ?_
    | split

theorem State.wrSh_kept {M : Nat} {b : State} {q : List Instr} {s : State} {p : Nat} {off : Nat} {v : Word} (hs : Kept M b q s) (hM : Sub 0x1 M) : Kept M b q (State.wrSh s p off v) := by
  unfold State.wrSh
  try dsimp only
  repeat' first
    | with_reducible assumption
    | exact Sub.trans (by decide) hM
    | exact Sub.bit hM (by decide)
    | exact Sub.kind hM (by decide) _
    | (intro _; try dsimp only)
    | with_reducible apply Kept.ite
    | with_reducible refine Kept.of_pair (by assumption) ?_
    | split
    | with_reducible refine Kept.set_shad ?_ ?_

theorem State.dropShadows_kept {M : Nat} {b : State} {q : List Instr} {s : State} {p : Nat} (hs : Kept M b q s) (hM : Sub 0x1 M) : Kept M b q (State.dropShadows s p) := by
  unfold State.dropShadows
  try dsimp only
  repeat' first
    | with_reducible assumption
    | exact Sub.trans (by decide) hM
    | exact Sub.bit hM (by decide)
    | exact Sub.kind hM (by decide) _
    | (intro _; try dsimp only)
    | with_reducible apply Kept.ite
    | with_reducible refine Kept.of_pair (by assumption) ?_
    | split
    | with_reducible refine Kept.set_shad ?_ ?_

theorem State.dropRegs_kept {M : Nat} {b : State} {q : List Instr} {s : State} {p : Nat} {lo : Nat} (hs : Kept M b q s) (hM : Sub 0x1 M) (hp1 : M.testBit (kindBit (kindOf p)) = true) : Kept M b q (State.dropRegs s p lo) := by
  exact ⟨hs.pending, Map.wf_drop _ hs.regs, hs.mram, hs.sp, hs.lc, fun p' o' hf => by
    rw [← hs.rd p' o' hf]
    simp only [State.rd, State.dropRegs]
    refine rd_drop _ _ _ _ ?_
    simp only [inPage, regKey]
    by_cases e : p' = p
    · subst e; exact false_of hf hp1
    · have : (p' * 4096 + o' % 4096) / 4096 = p' := by omega
      simp [this, e], fun f hf => by cases f <;> first | exact hs.part _ hf | exact false_of hf (hM.bit (by decide))⟩

theorem State.answer_kept {M : Nat} {b : State} {q : List Instr} {s : State} {who : Initiator} {rsp : Nat} {data : Word} (hs : Kept M b q s) (hM : Sub 0x4 M) : Kept M b q (State.answer s who rsp data) := by
  unfold State.answer
  try dsimp only
  repeat' first
    | with_reducible assumption
    | exact Sub.trans (by decide) hM
    | exact Sub.bit hM (by decide)
    | exact Sub.kind hM (by decide) _
    | (intro _; try dsimp only)
    | with_reducible apply Kept.ite
    | with_reducible refine Kept.of_pair (by assumption) ?_
    | split
    | with_reducible refine Kept.set_ans ?_ ?_

theorem State.stage_kept {M : Nat} {b : State} {q : List Instr} {s : State} {p : Nat} {x : InFrame} (hs : Kept M b q s) (hM : Sub 0x800 M) : Kept M b q (State.stage s p x) := by
  unfold State.stage
  try dsimp only
  repeat' first
    | with_reducible assumption
    | exact Sub.trans (by decide) hM
    | exact Sub.bit hM (by decide)
    | exact Sub.kind hM (by decide) _
    | (intro _; try dsimp only)
    | with_reducible apply Kept.ite
    | with_reducible refine Kept.of_pair (by assumption) ?_
    | split
    | with_reducible refine Kept.set_ingress ?_ ?_

theorem State.originate_kept {M : Nat} {b : State} {q : List Instr} {s : State} {p : Nat} {f : Frame} (hs : Kept M b q s) (hM : Sub 0x800 M) : Kept M b q (State.originate s p f) := by
  unfold State.originate
  try dsimp only
  repeat' first
    | with_reducible assumption
    | exact Sub.trans (by decide) hM
    | exact Sub.bit hM (by decide)
    | exact Sub.kind hM (by decide) _
    | (intro _; try dsimp only)
    | with_reducible apply State.stage_kept
    | with_reducible apply Kept.ite
    | with_reducible refine Kept.of_pair (by assumption) ?_
    | split

theorem State.direct_kept {M : Nat} {b : State} {q : List Instr} {s : State} {p : Nat} {x2 : Nat} {f : Frame} (hs : Kept M b q s) (hM : Sub 0x800 M) : Kept M b q (State.direct s p x2 f) := by
  unfold State.direct
  try dsimp only
  repeat' first
    | with_reducible assumption
    | exact Sub.trans (by decide) hM
    | exact Sub.bit hM (by decide)
    | exact Sub.kind hM (by decide) _
    | (intro _; try dsimp only)
    | with_reducible apply State.stage_kept
    | with_reducible apply Kept.ite
    | with_reducible refine Kept.of_pair (by assumption) ?_
    | split

theorem State.irqRise_kept {M : Nat} {b : State} {q : List Instr} {s : State} {p : Nat} {before : Bool} (hs : Kept M b q s) (hM : Sub 0x800 M) : Kept M b q (State.irqRise s p before) := by
  unfold State.irqRise
  try dsimp only
  repeat' first
    | with_reducible assumption
    | exact Sub.trans (by decide) hM
    | exact Sub.bit hM (by decide)
    | exact Sub.kind hM (by decide) _
    | (intro _; try dsimp only)
    | with_reducible apply State.originate_kept
    | with_reducible apply Kept.ite
    | with_reducible refine Kept.of_pair (by assumption) ?_
    | split

theorem State.fault_kept {M : Nat} {b : State} {q : List Instr} {s : State} {n : Nat} {detail : Nat} (hs : Kept M b q s) (hM : Sub 0x8 M) : Kept M b q (State.fault s n detail) := by
  unfold State.fault
  try dsimp only
  repeat' first
    | with_reducible assumption
    | exact Sub.trans (by decide) hM
    | exact Sub.bit hM (by decide)
    | exact Sub.kind hM (by decide) _
    | (intro _; try dsimp only)
    | with_reducible apply Kept.ite
    | with_reducible refine Kept.of_pair (by assumption) ?_
    | split
    | with_reducible refine Kept.set_faultQ ?_ ?_

theorem State.raiseBit_kept {M : Nat} {b : State} {q : List Instr} {s : State} {p : Nat} {x2 : Nat} (hs : Kept M b q s) (hM : Sub 0x800 M) (hp1 : M.testBit (kindBit (kindOf p)) = true) : Kept M b q (State.raiseBit s p x2) := by
  unfold State.raiseBit
  try dsimp only
  repeat' first
    | with_reducible assumption
    | exact Sub.trans (by decide) hM
    | exact Sub.bit hM (by decide)
    | exact Sub.kind hM (by decide) _
    | (intro _; try dsimp only)
    | with_reducible apply State.irqRise_kept
    | with_reducible apply State.wr_kept
    | with_reducible apply Kept.ite
    | with_reducible refine Kept.of_pair (by assumption) ?_
    | split

theorem State.raise_kept {M : Nat} {b : State} {q : List Instr} {s : State} {p : Nat} {x2 : Nat} (hs : Kept M b q s) (hM : Sub 0x808 M) (hp1 : M.testBit (kindBit (kindOf p)) = true) : Kept M b q (State.raise s p x2) := by
  unfold State.raise
  try dsimp only
  repeat' first
    | with_reducible assumption
    | exact Sub.trans (by decide) hM
    | exact Sub.bit hM (by decide)
    | exact Sub.kind hM (by decide) _
    | (intro _; try dsimp only)
    | with_reducible apply State.fault_kept
    | with_reducible apply State.raiseBit_kept
    | with_reducible apply Kept.ite
    | with_reducible refine Kept.of_pair (by assumption) ?_
    | split

theorem State.raiseIf_kept {M : Nat} {b : State} {q : List Instr} {s : State} {c : Bool} {p : Nat} {x3 : Nat} (hs : Kept M b q s) (hM : Sub 0x808 M) (hp2 : M.testBit (kindBit (kindOf p)) = true) : Kept M b q (State.raiseIf s c p x3) := by
  unfold State.raiseIf
  try dsimp only
  repeat' first
    | with_reducible assumption
    | exact Sub.trans (by decide) hM
    | exact Sub.bit hM (by decide)
    | exact Sub.kind hM (by decide) _
    | (intro _; try dsimp only)
    | with_reducible apply State.raise_kept
    | with_reducible apply Kept.ite
    | with_reducible refine Kept.of_pair (by assumption) ?_
    | split

theorem State.setState_kept {M : Nat} {b : State} {q : List Instr} {s : State} {p : Nat} {f : Fld} {v : Bool} (hs : Kept M b q s) (hM : Sub 0x808 M) (hp1 : M.testBit (kindBit (kindOf p)) = true) : Kept M b q (State.setState s p f v) := by
  unfold State.setState
  try dsimp only
  repeat' first
    | with_reducible assumption
    | exact Sub.trans (by decide) hM
    | exact Sub.bit hM (by decide)
    | exact Sub.kind hM (by decide) _
    | (intro _; try dsimp only)
    | with_reducible apply State.fs_kept
    | with_reducible apply State.raise_kept
    | with_reducible apply Kept.ite
    | with_reducible refine Kept.of_pair (by assumption) ?_
    | split

theorem State.tookFree_kept {M : Nat} {b : State} {q : List Instr} {s : State} (hs : Kept M b q s) (hM : Sub 0x40000000 M) : Kept M b q (State.tookFree s) := by
  unfold State.tookFree
  try dsimp only
  repeat' first
    | with_reducible assumption
    | exact Sub.trans (by decide) hM
    | exact Sub.bit hM (by decide)
    | exact Sub.kind hM (by decide) _
    | (intro _; try dsimp only)
    | with_reducible apply Kept.ite
    | with_reducible refine Kept.of_pair (by assumption) ?_
    | split
    | with_reducible refine Kept.set_fresh ?_ ?_

theorem State.mirror_kept {M : Nat} {b : State} {q : List Instr} {s : State} {kind : Nat} {epoch : Nat} {bytes : List Byte} (hs : Kept M b q s) (hM : Sub 0x400000 M) : Kept M b q (State.mirror s kind epoch bytes) := by
  unfold State.mirror
  try dsimp only
  repeat' first
    | with_reducible assumption
    | exact Sub.trans (by decide) hM
    | exact Sub.bit hM (by decide)
    | exact Sub.kind hM (by decide) _
    | (intro _; try dsimp only)
    | with_reducible apply Kept.ite
    | with_reducible refine Kept.of_pair (by assumption) ?_
    | split
    | with_reducible refine Kept.set_tw ?_ ?_

theorem State.mirrorQueue_kept {M : Nat} {b : State} {q : List Instr} {s : State} {x1 : Nat} {op : Nat} {v : Nat} (hs : Kept M b q s) (hM : Sub 0x400000 M) : Kept M b q (State.mirrorQueue s x1 op v) := by
  unfold State.mirrorQueue
  try dsimp only
  repeat' first
    | with_reducible assumption
    | exact Sub.trans (by decide) hM
    | exact Sub.bit hM (by decide)
    | exact Sub.kind hM (by decide) _
    | (intro _; try dsimp only)
    | with_reducible apply State.mirror_kept
    | with_reducible apply Kept.ite
    | with_reducible refine Kept.of_pair (by assumption) ?_
    | split

theorem State.mirrorCfg_kept {M : Nat} {b : State} {q : List Instr} {s : State} {op : Nat} {p : Nat} {off : Nat} {v : Word} (hs : Kept M b q s) (hM : Sub 0x400000 M) : Kept M b q (State.mirrorCfg s op p off v) := by
  unfold State.mirrorCfg
  try dsimp only
  repeat' first
    | with_reducible assumption
    | exact Sub.trans (by decide) hM
    | exact Sub.bit hM (by decide)
    | exact Sub.kind hM (by decide) _
    | (intro _; try dsimp only)
    | with_reducible apply State.mirror_kept
    | with_reducible apply Kept.ite
    | with_reducible refine Kept.of_pair (by assumption) ?_
    | split

theorem State.mwr_kept {M : Nat} {b : State} {q : List Instr} {s : State} {a : Nat} {x2 : List Byte} (hs : Kept M b q s) (hM : Sub 0x200 M) : Kept M b q (State.mwr s a x2) := by
  induction x2 generalizing s a with
  | nil => exact hs
  | cons b' bs ih => exact ih ⟨hs.pending, hs.regs, Map.wf_put (d := fun _ => (0 : Byte)) _ _ hs.mram, hs.sp, hs.lc, hs.rd,
      fun f hf => by cases f <;> first | exact hs.part _ hf | exact false_of hf (hM.bit (by decide))⟩

theorem State.store_kept {M : Nat} {b : State} {q : List Instr} {s : State} {a : Nat} {bs : List Byte} (hs : Kept M b q s) (hM : Sub 0x200 M) : Kept M b q (State.store s a bs) := by
  unfold State.store
  try dsimp only
  repeat' first
    | with_reducible assumption
    | exact Sub.trans (by decide) hM
    | exact Sub.bit hM (by decide)
    | exact Sub.kind hM (by decide) _
    | (intro _; try dsimp only)
    | with_reducible apply State.mwr_kept
    | with_reducible apply Kept.ite
    | with_reducible refine Kept.of_pair (by assumption) ?_
    | split

end Sys2Proof.Machine
end

