-- ==== Sys2Proof/Laws/KeptPages.lean ====
section
/-! SUPPORT. What the functions of Machine/Pages.lean keep (Laws/Kept.lean). -/
namespace Sys2Proof.Machine

theorem State.plain_kept {M : Nat} {b : State} {q : List Instr} {s : State} {pre : Bool} {p : Nat} {off : Nat} {v0 : Word} (hs : Kept M b q s) (hM : Sub 0x400809 M) (hp2 : M.testBit (kindBit (kindOf p)) = true) : Kept M b q (State.plain s pre p off v0) := by
  unfold State.plain
  try dsimp only
  repeat' first
    | with_reducible assumption
    | exact Sub.trans (by decide) hM
    | exact Sub.bit hM (by decide)
    | exact Sub.kind hM (by decide) _
    | (intro _; try dsimp only)
    | with_reducible apply State.mirrorCfg_kept
    | with_reducible apply State.raiseIf_kept
    | with_reducible apply State.wr_kept
    | with_reducible apply State.wrSh_kept
    | with_reducible apply Kept.ite
    | with_reducible refine Kept.of_pair (by assumption) ?_
    | split

theorem State.wrEvtStatus_kept {M : Nat} {b : State} {q : List Instr} {s : State} {p : Nat} {v : Word} (hs : Kept M b q s) (hM : Sub 0x0 M) (hp1 : M.testBit (kindBit (kindOf p)) = true) : Kept M b q (State.wrEvtStatus s p v) := by
  unfold State.wrEvtStatus
  try dsimp only
  repeat' first
    | with_reducible assumption
    | exact Sub.trans (by decide) hM
    | exact Sub.bit hM (by decide)
    | exact Sub.kind hM (by decide) _
    | (intro _; try dsimp only)
    | with_reducible apply State.wr_kept
    | with_reducible apply Kept.ite
    | with_reducible refine Kept.of_pair (by assumption) ?_
    | split

theorem State.wrEvtEnable_kept {M : Nat} {b : State} {q : List Instr} {s : State} {p : Nat} {v : Word} (hs : Kept M b q s) (hM : Sub 0x800 M) (hp1 : M.testBit (kindBit (kindOf p)) = true) : Kept M b q (State.wrEvtEnable s p v) := by
  unfold State.wrEvtEnable
  try dsimp only
  repeat' first
    | with_reducible assumption
    | exact Sub.trans (by decide) hM
    | exact Sub.bit hM (by decide)
    | exact Sub.kind hM (by decide) _
    | (intro _; try dsimp only)
    | with_reducible apply State.irqRise_kept
    | with_reducible apply State.wr_kept
    | with_reducible apply Kept.ite
    | with_reducible refine Kept.of_pair (by assumption) ?_
    | split

theorem State.force_kept {M : Nat} {b : State} {q : List Instr} {s : State} {p : Nat} {v : Word} (hs : Kept M b q s) (hM : Sub 0x808 M) (hp1 : M.testBit (kindBit (kindOf p)) = true) : Kept M b q (State.force s p v) := by
  unfold State.force
  try dsimp only
  repeat' first
    | with_reducible assumption
    | exact Sub.trans (by decide) hM
    | exact Sub.bit hM (by decide)
    | exact Sub.kind hM (by decide) _
    | (intro _; try dsimp only)
    | with_reducible apply State.raise_kept
    | with_reducible apply Kept.foldl
    | with_reducible apply Kept.foldlP
    | with_reducible apply Kept.ite
    | with_reducible refine Kept.of_pair (by assumption) ?_
    | split

theorem State.wrCompat_kept {M : Nat} {b : State} {q : List Instr} {s : State} {pre : Bool} {p : Nat} {v : Word} (hs : Kept M b q s) (hM : Sub 0x808 M) (hp2 : M.testBit (kindBit (kindOf p)) = true) : Kept M b q (State.wrCompat s pre p v) := by
  unfold State.wrCompat
  try dsimp only
  repeat' first
    | with_reducible assumption
    | exact Sub.trans (by decide) hM
    | exact Sub.bit hM (by decide)
    | exact Sub.kind hM (by decide) _
    | (intro _; try dsimp only)
    | with_reducible apply State.fs_kept
    | with_reducible apply State.raise_kept
    | with_reducible apply Kept.ite
    | with_reducible refine Kept.of_pair (by assumption) ?_
    | split

theorem State.setEnable_kept {M : Nat} {b : State} {q : List Instr} {s : State} {p : Nat} {en : Bool} {readActive : Bool} (hs : Kept M b q s) (hM : Sub 0x2 M) (hp1 : M.testBit (kindBit (kindOf p)) = true) : Kept M b q (State.setEnable s p en readActive) := by
  unfold State.setEnable
  try dsimp only
  repeat' first
    | with_reducible assumption
    | exact Sub.trans (by decide) hM
    | exact Sub.bit hM (by decide)
    | exact Sub.kind hM (by decide) _
    | (intro _; try dsimp only)
    | with_reducible apply State.fs_kept
    | with_reducible apply Kept.ite
    | with_reducible refine Kept.of_pair (by assumption) ?_
    | split
    | with_reducible refine Kept.set_stopping ?_ ?_

theorem State.commitWrite_kept {M : Nat} {b : State} {q : List Instr} {s : State} {p : Nat} (hs : Kept M b q s) (hM : Sub 0x0 M) (hp1 : M.testBit (kindBit (kindOf p)) = true) : Kept M b q (State.commitWrite s p) := by
  unfold State.commitWrite
  try dsimp only
  repeat' first
    | with_reducible assumption
    | exact Sub.trans (by decide) hM
    | exact Sub.bit hM (by decide)
    | exact Sub.kind hM (by decide) _
    | (intro _; try dsimp only)
    | with_reducible apply State.fs_kept
    | with_reducible apply Kept.ite
    | with_reducible refine Kept.of_pair (by assumption) ?_
    | split

theorem State.endCommit_kept {M : Nat} {b : State} {q : List Instr} {s : State} {p : Nat} {result : Nat} {reason : Nat} {off : Nat} (hs : Kept M b q s) (hM : Sub 0x0 M) (hp1 : M.testBit (kindBit (kindOf p)) = true) : Kept M b q (State.endCommit s p result reason off) := by
  unfold State.endCommit
  try dsimp only
  repeat' first
    | with_reducible assumption
    | exact Sub.trans (by decide) hM
    | exact Sub.bit hM (by decide)
    | exact Sub.kind hM (by decide) _
    | (intro _; try dsimp only)
    | with_reducible apply State.addWrap_kept
    | with_reducible apply State.fs_kept
    | with_reducible apply Kept.ite
    | with_reducible refine Kept.of_pair (by assumption) ?_
    | split

theorem State.abortWrite_kept {M : Nat} {b : State} {q : List Instr} {s : State} {p : Nat} (hs : Kept M b q s) (hM : Sub 0x1 M) (hp1 : M.testBit (kindBit (kindOf p)) = true) : Kept M b q (State.abortWrite s p) := by
  unfold State.abortWrite
  try dsimp only
  repeat' first
    | with_reducible assumption
    | exact Sub.trans (by decide) hM
    | exact Sub.bit hM (by decide)
    | exact Sub.kind hM (by decide) _
    | (intro _; try dsimp only)
    | with_reducible apply State.dropShadows_kept
    | with_reducible apply State.endCommit_kept
    | with_reducible apply Kept.ite
    | with_reducible refine Kept.of_pair (by assumption) ?_
    | split

theorem State.applyShadows_kept {M : Nat} {b : State} {q : List Instr} {s : State} {p : Nat} (hs : Kept M b q s) (hM : Sub 0x1 M) (hp1 : M.testBit (kindBit (kindOf p)) = true) : Kept M b q (State.applyShadows s p) := by
  unfold State.applyShadows
  try dsimp only
  repeat' first
    | with_reducible assumption
    | exact Sub.trans (by decide) hM
    | exact Sub.bit hM (by decide)
    | exact Sub.kind hM (by decide) _
    | (intro _; try dsimp only)
    | with_reducible apply State.dropShadows_kept
    | with_reducible apply State.wr_kept
    | with_reducible apply Kept.foldl
    | with_reducible apply Kept.foldlP
    | with_reducible apply Kept.ite
    | with_reducible refine Kept.of_pair (by assumption) ?_
    | split

theorem State.refuseUnready_kept {M : Nat} {b : State} {q : List Instr} {s : State} {p : Nat} (hs : Kept M b q s) (hM : Sub 0x0 M) (hp1 : M.testBit (kindBit (kindOf p)) = true) : Kept M b q (State.refuseUnready s p) := by
  unfold State.refuseUnready
  try dsimp only
  repeat' first
    | with_reducible assumption
    | exact Sub.trans (by decide) hM
    | exact Sub.bit hM (by decide)
    | exact Sub.kind hM (by decide) _
    | (intro _; try dsimp only)
    | with_reducible apply State.endCommit_kept
    | with_reducible apply Kept.ite
    | with_reducible refine Kept.of_pair (by assumption) ?_
    | split

theorem State.unready_kept {M : Nat} {b : State} {q : List Instr} {s : State} {p : Nat} (hs : Kept M b q s) (hM : Sub 0x80A M) (hp1 : M.testBit (kindBit (kindOf p)) = true) : Kept M b q (State.unready s p) := by
  unfold State.unready
  try dsimp only
  repeat' first
    | with_reducible assumption
    | exact Sub.trans (by decide) hM
    | exact Sub.bit hM (by decide)
    | exact Sub.kind hM (by decide) _
    | (intro _; try dsimp only)
    | with_reducible apply State.refuseUnready_kept
    | with_reducible apply State.setState_kept
    | with_reducible apply Kept.ite
    | with_reducible refine Kept.of_pair (by assumption) ?_
    | split
    | with_reducible refine Kept.set_stopping ?_ ?_

theorem State.endSnap_kept {M : Nat} {b : State} {q : List Instr} {s : State} {who : Initiator} (hs : Kept M b q s) (hM : Sub 0x10000 M) : Kept M b q (State.endSnap s who) := by
  unfold State.endSnap
  try dsimp only
  repeat' first
    | with_reducible assumption
    | exact Sub.trans (by decide) hM
    | exact Sub.bit hM (by decide)
    | exact Sub.kind hM (by decide) _
    | (intro _; try dsimp only)
    | with_reducible apply Kept.ite
    | with_reducible refine Kept.of_pair (by assumption) ?_
    | split
    | with_reducible refine Kept.set_scan ?_ ?_

theorem State.endPack_kept {M : Nat} {b : State} {q : List Instr} {s : State} {who : Initiator} (hs : Kept M b q s) (hM : Sub 0x10000010808 M) : Kept M b q (State.endPack s who) := by
  unfold State.endPack
  try dsimp only
  repeat' first
    | with_reducible assumption
    | exact Sub.trans (by decide) hM
    | exact Sub.bit hM (by decide)
    | exact Sub.kind hM (by decide) _
    | (intro _; try dsimp only)
    | with_reducible apply State.raise_kept
    | with_reducible apply Kept.ite
    | with_reducible refine Kept.of_pair (by assumption) ?_
    | split
    | with_reducible refine Kept.set_scan ?_ ?_

theorem State.touch_kept {M : Nat} {b : State} {q : List Instr} {s : State} {who : Initiator} {read : Bool} (hs : Kept M b q s) (hM : Sub 0x10000010808 M) : Kept M b q (State.touch s who read) := by
  unfold State.touch
  try dsimp only
  repeat' first
    | with_reducible assumption
    | exact Sub.trans (by decide) hM
    | exact Sub.bit hM (by decide)
    | exact Sub.kind hM (by decide) _
    | (intro _; try dsimp only)
    | with_reducible apply State.endPack_kept
    | with_reducible apply State.endSnap_kept
    | with_reducible apply State.read_kept
    | with_reducible apply Kept.ite
    | with_reducible refine Kept.of_pair (by assumption) ?_
    | split

theorem State.write_kept {M : Nat} {b : State} {q : List Instr} {s0 : State} {who : Initiator} {p : Nat} {off : Nat} {op : State → State} (hs0 : Kept M b q s0) (hop : ∀ t, Kept M b q t → Kept M b q (op t)) (hM : Sub 0x9000001080C M) : Kept M b q (State.write s0 who p off op) := by
  unfold State.write
  try dsimp only
  repeat' first
    | with_reducible assumption
    | apply hop
    | exact Sub.trans (by decide) hM
    | exact Sub.bit hM (by decide)
    | (intro _; try dsimp only)
    | exact Sub.kind hM (by decide) _
    | with_reducible apply State.answer_kept
    | with_reducible apply State.raise_kept
    | with_reducible apply State.touch_kept
    | with_reducible apply Kept.ite
    | with_reducible refine Kept.of_pair (by assumption) ?_
    | split

theorem State.read_kept {M : Nat} {b : State} {q : List Instr} {s0 : State} {who : Initiator} {p : Nat} {off : Nat} {op : State → State × Word} (hs0 : Kept M b q s0) (hop : ∀ t, Kept M b q t → Kept M b q (op t).1) (hM : Sub 0x1000001080C M) : Kept M b q (State.read s0 who p off op) := by
  unfold State.read
  try dsimp only
  repeat' first
    | with_reducible assumption
    | apply hop
    | exact Sub.trans (by decide) hM
    | exact Sub.bit hM (by decide)
    | (intro _; try dsimp only)
    | exact Sub.kind hM (by decide) _
    | with_reducible apply State.answer_kept
    | with_reducible apply State.touch_kept
    | with_reducible apply Kept.ite
    | with_reducible refine Kept.of_pair (by assumption) ?_
    | split

end Sys2Proof.Machine
end

