-- ==== Sys2Proof/Laws/KeptRepairTable.lean ====
section
/-! SUPPORT. What the functions of Machine/RepairTable.lean keep (Laws/Kept.lean). -/
namespace Sys2Proof.Machine

theorem State.showTable_kept {M : Nat} {b : State} {q : List Instr} {s : State} (hs : Kept M b q s) (hM : Sub 0x8000000000000 M) : Kept M b q (State.showTable s) := by
  unfold State.showTable
  try dsimp only
  repeat' first
    | with_reducible assumption
    | exact Sub.trans (by decide) hM
    | exact Sub.bit hM (by decide)
    | exact Sub.kind hM (by decide) _
    | (intro _; try dsimp only)
    | with_reducible apply State.fs_kept
    | with_reducible apply Kept.ite
    | with_reducible refine Kept.of_pair (by assumption) ?_
    | split

theorem State.wearSpared_kept {M : Nat} {b : State} {q : List Instr} {s : State} {cause : Nat} (hs : Kept M b q s) (hM : Sub 0x20000000000000 M) : Kept M b q (State.wearSpared s cause) := by
  unfold State.wearSpared
  try dsimp only
  repeat' first
    | with_reducible assumption
    | exact Sub.trans (by decide) hM
    | exact Sub.bit hM (by decide)
    | exact Sub.kind hM (by decide) _
    | (intro _; try dsimp only)
    | with_reducible apply State.inc_kept
    | with_reducible apply Kept.ite
    | with_reducible refine Kept.of_pair (by assumption) ?_
    | split

theorem State.recordRepair_kept {M : Nat} {b : State} {q : List Instr} {s0 : State} {r : Repair} (hs0 : Kept M b q s0) (hM : Sub 0x28000000000A08 M) : Kept M b q (State.recordRepair s0 r) := by
  unfold State.recordRepair
  try dsimp only
  repeat' first
    | with_reducible assumption
    | exact Sub.trans (by decide) hM
    | exact Sub.bit hM (by decide)
    | exact Sub.kind hM (by decide) _
    | (intro _; try dsimp only)
    | with_reducible apply State.raise_kept
    | with_reducible apply State.showTable_kept
    | with_reducible apply State.store_kept
    | with_reducible apply State.wearSpared_kept
    | with_reducible apply Kept.ite
    | with_reducible refine Kept.of_pair (by assumption) ?_
    | split

end Sys2Proof.Machine
end

