-- ==== Sys2Proof/Laws/KeptRingRoute.lean ====
section
/-! SUPPORT. What the functions of Machine/RingRoute.lean keep (Laws/Kept.lean). -/
namespace Sys2Proof.Machine

theorem State.setPort_kept {M : Nat} {b : State} {q : List Instr} {s : State} {p : LanePort} {v : Port} (hs : Kept M b q s) (hM : Sub 0x2000 M) : Kept M b q (State.setPort s p v) := by
  unfold State.setPort
  try dsimp only
  repeat' first
    | with_reducible assumption
    | exact Sub.trans (by decide) hM
    | exact Sub.bit hM (by decide)
    | exact Sub.kind hM (by decide) _
    | (intro _; try dsimp only)
    | with_reducible apply Kept.ite
    | with_reducible refine Kept.of_pair (by assumption) ?_
    | split
    | with_reducible refine Kept.set_ring ?_ ?_

theorem State.noDest_kept {M : Nat} {b : State} {q : List Instr} {s : State} (hs : Kept M b q s) (hM : Sub 0x1000000808 M) : Kept M b q (State.noDest s) := by
  unfold State.noDest
  try dsimp only
  repeat' first
    | with_reducible assumption
    | exact Sub.trans (by decide) hM
    | exact Sub.bit hM (by decide)
    | exact Sub.kind hM (by decide) _
    | (intro _; try dsimp only)
    | with_reducible apply State.inc_kept
    | with_reducible apply State.raise_kept
    | with_reducible apply Kept.ite
    | with_reducible refine Kept.of_pair (by assumption) ?_
    | split

theorem State.setCr_kept {M : Nat} {b : State} {q : List Instr} {s : State} {p : LanePort} {c : Cls} {v : Cr} (hs : Kept M b q s) (hM : Sub 0x2000 M) : Kept M b q (State.setCr s p c v) := by
  unfold State.setCr
  try dsimp only
  repeat' first
    | with_reducible assumption
    | exact Sub.trans (by decide) hM
    | exact Sub.bit hM (by decide)
    | exact Sub.kind hM (by decide) _
    | (intro _; try dsimp only)
    | with_reducible apply Kept.ite
    | with_reducible refine Kept.of_pair (by assumption) ?_
    | split
    | with_reducible refine Kept.set_ring ?_ ?_

theorem State.freed_kept {M : Nat} {b : State} {q : List Instr} {s : State} {p : LanePort} {c : Cls} {n : Nat} (hs : Kept M b q s) (hM : Sub 0x2000 M) : Kept M b q (State.freed s p c n) := by
  unfold State.freed
  try dsimp only
  repeat' first
    | with_reducible assumption
    | exact Sub.trans (by decide) hM
    | exact Sub.bit hM (by decide)
    | exact Sub.kind hM (by decide) _
    | (intro _; try dsimp only)
    | with_reducible apply bit_ringPage
    | with_reducible apply bit_lanePage
    | with_reducible apply State.setCr_kept
    | with_reducible apply Kept.ite
    | with_reducible refine Kept.of_pair (by assumption) ?_
    | split

theorem State.creditInit_kept {M : Nat} {b : State} {q : List Instr} {s : State} {p : LanePort} (hs : Kept M b q s) (hM : Sub 0x2000 M) : Kept M b q (State.creditInit s p) := by
  unfold State.creditInit
  try dsimp only
  repeat' first
    | with_reducible assumption
    | exact Sub.trans (by decide) hM
    | exact Sub.bit hM (by decide)
    | exact Sub.kind hM (by decide) _
    | (intro _; try dsimp only)
    | with_reducible apply bit_ringPage
    | with_reducible apply bit_lanePage
    | with_reducible apply State.freed_kept
    | with_reducible apply State.setCr_kept
    | with_reducible apply Kept.foldl
    | with_reducible apply Kept.foldlP
    | with_reducible apply Kept.ite
    | with_reducible refine Kept.of_pair (by assumption) ?_
    | split

end Sys2Proof.Machine
end

