-- ==== Sys2Proof/Laws/KeptSwitchCore.lean ====
section
/-! SUPPORT. What the functions of Machine/SwitchCore.lean keep (Laws/Kept.lean). -/
namespace Sys2Proof.Machine

theorem State.setQue_kept {M : Nat} {b : State} {q : List Instr} {s : State} {x1 : Nat} {v : Que} (hs : Kept M b q s) (hM : Sub 0x1000 M) : Kept M b q (State.setQue s x1 v) := by
  unfold State.setQue
  try dsimp only
  repeat' first
    | with_reducible assumption
    | exact Sub.trans (by decide) hM
    | exact Sub.bit hM (by decide)
    | exact Sub.kind hM (by decide) _
    | (intro _; try dsimp only)
    | with_reducible apply Kept.ite
    | with_reducible refine Kept.of_pair (by assumption) ?_
    | split
    | with_reducible refine Kept.set_core ?_ ?_

theorem State.setRec_kept {M : Nat} {b : State} {q : List Instr} {s : State} {c : Nat} {v : FRec} (hs : Kept M b q s) (hM : Sub 0x1000 M) : Kept M b q (State.setRec s c v) := by
  unfold State.setRec
  try dsimp only
  repeat' first
    | with_reducible assumption
    | exact Sub.trans (by decide) hM
    | exact Sub.bit hM (by decide)
    | exact Sub.kind hM (by decide) _
    | (intro _; try dsimp only)
    | with_reducible apply Kept.ite
    | with_reducible refine Kept.of_pair (by assumption) ?_
    | split
    | with_reducible refine Kept.set_core ?_ ?_

theorem State.setBank_kept {M : Nat} {b : State} {q : List Instr} {s : State} {x1 : Nat} {v : Bank} (hs : Kept M b q s) (hM : Sub 0x1000 M) : Kept M b q (State.setBank s x1 v) := by
  unfold State.setBank
  try dsimp only
  repeat' first
    | with_reducible assumption
    | exact Sub.trans (by decide) hM
    | exact Sub.bit hM (by decide)
    | exact Sub.kind hM (by decide) _
    | (intro _; try dsimp only)
    | with_reducible apply Kept.ite
    | with_reducible refine Kept.of_pair (by assumption) ?_
    | split
    | with_reducible refine Kept.set_core ?_ ?_

theorem State.setIng_kept {M : Nat} {b : State} {q : List Instr} {s : State} {p : Nat} {v : Ing} (hs : Kept M b q s) (hM : Sub 0x1000 M) : Kept M b q (State.setIng s p v) := by
  unfold State.setIng
  try dsimp only
  repeat' first
    | with_reducible assumption
    | exact Sub.trans (by decide) hM
    | exact Sub.bit hM (by decide)
    | exact Sub.kind hM (by decide) _
    | (intro _; try dsimp only)
    | with_reducible apply Kept.ite
    | with_reducible refine Kept.of_pair (by assumption) ?_
    | split
    | with_reducible refine Kept.set_core ?_ ?_

theorem State.setEg_kept {M : Nat} {b : State} {q : List Instr} {s : State} {p : Nat} {v : Option Eg} (hs : Kept M b q s) (hM : Sub 0x1000 M) : Kept M b q (State.setEg s p v) := by
  unfold State.setEg
  try dsimp only
  repeat' first
    | with_reducible assumption
    | exact Sub.trans (by decide) hM
    | exact Sub.bit hM (by decide)
    | exact Sub.kind hM (by decide) _
    | (intro _; try dsimp only)
    | with_reducible apply Kept.ite
    | with_reducible refine Kept.of_pair (by assumption) ?_
    | split
    | with_reducible refine Kept.set_core ?_ ?_

theorem State.setInbox_kept {M : Nat} {b : State} {q : List Instr} {s : State} {p : Nat} {v : List Frame} (hs : Kept M b q s) (hM : Sub 0x1000 M) : Kept M b q (State.setInbox s p v) := by
  unfold State.setInbox
  try dsimp only
  repeat' first
    | with_reducible assumption
    | exact Sub.trans (by decide) hM
    | exact Sub.bit hM (by decide)
    | exact Sub.kind hM (by decide) _
    | (intro _; try dsimp only)
    | with_reducible apply Kept.ite
    | with_reducible refine Kept.of_pair (by assumption) ?_
    | split
    | with_reducible refine Kept.set_core ?_ ?_

theorem State.pcnt_kept {M : Nat} {b : State} {q : List Instr} {s : State} {p : Nat} {off : Nat} (hs : Kept M b q s) (hM : Sub 0x2000000000 M) : Kept M b q (State.pcnt s p off) := by
  unfold State.pcnt
  try dsimp only
  repeat' first
    | with_reducible assumption
    | exact Sub.trans (by decide) hM
    | exact Sub.bit hM (by decide)
    | exact Sub.kind hM (by decide) _
    | (intro _; try dsimp only)
    | with_reducible apply State.inc_kept
    | with_reducible apply Kept.ite
    | with_reducible refine Kept.of_pair (by assumption) ?_
    | split

theorem State.setLink_kept {M : Nat} {b : State} {q : List Instr} {s : State} {c : Nat} {v : Link} (hs : Kept M b q s) (hM : Sub 0x1000 M) : Kept M b q (State.setLink s c v) := by
  unfold State.setLink
  try dsimp only
  repeat' first
    | with_reducible assumption
    | exact Sub.trans (by decide) hM
    | exact Sub.bit hM (by decide)
    | exact Sub.kind hM (by decide) _
    | (intro _; try dsimp only)
    | with_reducible apply Kept.ite
    | with_reducible refine Kept.of_pair (by assumption) ?_
    | split
    | with_reducible refine Kept.set_core ?_ ?_

theorem State.setCell_kept {M : Nat} {b : State} {q : List Instr} {s : State} {c : Nat} {v : BitVec 192} (hs : Kept M b q s) (hM : Sub 0x1000 M) : Kept M b q (State.setCell s c v) := by
  unfold State.setCell
  try dsimp only
  repeat' first
    | with_reducible assumption
    | exact Sub.trans (by decide) hM
    | exact Sub.bit hM (by decide)
    | exact Sub.kind hM (by decide) _
    | (intro _; try dsimp only)
    | with_reducible apply Kept.ite
    | with_reducible refine Kept.of_pair (by assumption) ?_
    | split
    | with_reducible refine Kept.set_core ?_ ?_

theorem State.freeCell_kept {M : Nat} {b : State} {q : List Instr} {s : State} {c : Nat} (hs : Kept M b q s) (hM : Sub 0x1000 M) : Kept M b q (State.freeCell s c) := by
  unfold State.freeCell
  try dsimp only
  repeat' first
    | with_reducible assumption
    | exact Sub.trans (by decide) hM
    | exact Sub.bit hM (by decide)
    | exact Sub.kind hM (by decide) _
    | (intro _; try dsimp only)
    | with_reducible apply State.setBank_kept
    | with_reducible apply Kept.ite
    | with_reducible refine Kept.of_pair (by assumption) ?_
    | split

theorem State.freeEnt_kept {M : Nat} {b : State} {q : List Instr} {s : State} {i : Nat} (hs : Kept M b q s) (hM : Sub 0x1000 M) : Kept M b q (State.freeEnt s i) := by
  unfold State.freeEnt
  try dsimp only
  repeat' first
    | with_reducible assumption
    | exact Sub.trans (by decide) hM
    | exact Sub.bit hM (by decide)
    | exact Sub.kind hM (by decide) _
    | (intro _; try dsimp only)
    | with_reducible apply Kept.ite
    | with_reducible refine Kept.of_pair (by assumption) ?_
    | split
    | with_reducible refine Kept.set_core ?_ ?_

theorem State.freeChain_kept {M : Nat} {b : State} {q : List Instr} {a : Nat} {x1 : Nat} {x2 : State} (hx2 : Kept M b q x2) (hM : Sub 0x1000 M) : Kept M b q (State.freeChain a x1 x2) := by
  fun_induction State.freeChain a x1 x2
  all_goals repeat' first
    | with_reducible assumption
    | exact Sub.trans (by decide) hM
    | exact Sub.bit hM (by decide)
    | exact Sub.kind hM (by decide) _
    | (intro _; try dsimp only)
    | with_reducible apply State.freeCell_kept
    | with_reducible apply Kept.ite
    | with_reducible refine Kept.of_pair (by assumption) ?_
    | split
    | apply_assumption

theorem State.partialDelivery_kept {M : Nat} {b : State} {q : List Instr} {s : State} {c : Nat} (hs : Kept M b q s) (hM : Sub 0x2000001808 M) : Kept M b q (State.partialDelivery s c) := by
  unfold State.partialDelivery
  try dsimp only
  repeat' first
    | with_reducible assumption
    | exact Sub.trans (by decide) hM
    | exact Sub.bit hM (by decide)
    | exact Sub.kind hM (by decide) _
    | (intro _; try dsimp only)
    | with_reducible apply State.inc_kept
    | with_reducible apply State.raise_kept
    | with_reducible apply State.setRec_kept
    | with_reducible apply Kept.ite
    | with_reducible refine Kept.of_pair (by assumption) ?_
    | split

theorem State.unref_kept {M : Nat} {b : State} {q : List Instr} {s : State} {c : Nat} (hs : Kept M b q s) (hM : Sub 0x1000 M) : Kept M b q (State.unref s c) := by
  unfold State.unref
  try dsimp only
  repeat' first
    | with_reducible assumption
    | exact Sub.trans (by decide) hM
    | exact Sub.bit hM (by decide)
    | exact Sub.kind hM (by decide) _
    | (intro _; try dsimp only)
    | with_reducible apply State.freeChain_kept
    | with_reducible apply State.setRec_kept
    | with_reducible apply Kept.ite
    | with_reducible refine Kept.of_pair (by assumption) ?_
    | split
    | with_reducible refine Kept.set_core ?_ ?_

theorem State.endCopy_kept {M : Nat} {b : State} {q : List Instr} {s : State} {e : QEnt} (hs : Kept M b q s) (hM : Sub 0x3000 M) : Kept M b q (State.endCopy s e) := by
  unfold State.endCopy
  try dsimp only
  repeat' first
    | with_reducible assumption
    | exact Sub.trans (by decide) hM
    | exact Sub.bit hM (by decide)
    | exact Sub.kind hM (by decide) _
    | (intro _; try dsimp only)
    | with_reducible apply bit_ringPage
    | with_reducible apply bit_lanePage
    | with_reducible apply State.freeEnt_kept
    | with_reducible apply State.freed_kept
    | with_reducible apply State.unref_kept
    | with_reducible apply Kept.ite
    | with_reducible refine Kept.of_pair (by assumption) ?_
    | split

theorem State.dropFlushed_kept {M : Nat} {b : State} {q : List Instr} {s : State} {e : QEnt} (hs : Kept M b q s) (hM : Sub 0x2000003808 M) : Kept M b q (State.dropFlushed s e) := by
  unfold State.dropFlushed
  try dsimp only
  repeat' first
    | with_reducible assumption
    | exact Sub.trans (by decide) hM
    | exact Sub.bit hM (by decide)
    | exact Sub.kind hM (by decide) _
    | (intro _; try dsimp only)
    | with_reducible apply State.endCopy_kept
    | with_reducible apply State.freeCell_kept
    | with_reducible apply State.freeEnt_kept
    | with_reducible apply State.partialDelivery_kept
    | with_reducible apply Kept.ite
    | with_reducible refine Kept.of_pair (by assumption) ?_
    | split

theorem State.flushQueue_kept {M : Nat} {b : State} {q : List Instr} {s : State} {x1 : Nat} (hs : Kept M b q s) (hM : Sub 0x2000003808 M) : Kept M b q (State.flushQueue s x1).1 := by
  unfold State.flushQueue
  try dsimp only
  repeat' first
    | with_reducible assumption
    | exact Sub.trans (by decide) hM
    | exact Sub.bit hM (by decide)
    | exact Sub.kind hM (by decide) _
    | (intro _; try dsimp only)
    | with_reducible apply State.dropFlushed_kept
    | with_reducible apply State.setQue_kept
    | with_reducible apply Kept.foldl
    | with_reducible apply Kept.foldlP
    | with_reducible apply Kept.ite
    | with_reducible refine Kept.of_pair (by assumption) ?_
    | split

theorem State.wantDeliv_kept {M : Nat} {b : State} {q : List Instr} {s : State} {p : Nat} {n : Nat} {x3 : Hdr} {hold : Option Nat} (hs : Kept M b q s) (hM : Sub 0xB000000000 M) : Kept M b q (State.wantDeliv s p n x3 hold).1 := by
  unfold State.wantDeliv
  try dsimp only
  repeat' first
    | with_reducible assumption
    | exact Sub.trans (by decide) hM
    | exact Sub.bit hM (by decide)
    | exact Sub.kind hM (by decide) _
    | (intro _; try dsimp only)
    | with_reducible apply State.inc_kept
    | with_reducible apply State.pcnt_kept
    | with_reducible apply Kept.ite
    | with_reducible refine Kept.of_pair (by assumption) ?_
    | split

theorem State.dropLoop_kept {M : Nat} {b : State} {q : List Instr} {s : State} {p : RingPort} (hs : Kept M b q s) (hM : Sub 0x80800000000 M) : Kept M b q (State.dropLoop s p) := by
  unfold State.dropLoop
  try dsimp only
  repeat' first
    | with_reducible assumption
    | exact Sub.trans (by decide) hM
    | exact Sub.bit hM (by decide)
    | exact Sub.kind hM (by decide) _
    | (intro _; try dsimp only)
    | with_reducible apply bit_ringPage
    | with_reducible apply bit_lanePage
    | with_reducible apply State.inc_kept
    | with_reducible apply Kept.ite
    | with_reducible refine Kept.of_pair (by assumption) ?_
    | split

theorem State.wants_kept {M : Nat} {b : State} {q : List Instr} {s : State} {p : Nat} {x : InFrame} (hs : Kept M b q s) (hM : Sub 0x8B800000808 M) : Kept M b q (State.wants s p x).1 := by
  unfold State.wants
  try dsimp only
  repeat' first
    | with_reducible assumption
    | exact Sub.trans (by decide) hM
    | exact Sub.bit hM (by decide)
    | exact Sub.kind hM (by decide) _
    | (intro _; try dsimp only)
    | with_reducible apply bit_ringPage
    | with_reducible apply bit_lanePage
    | with_reducible apply State.dropLoop_kept
    | with_reducible apply State.noDest_kept
    | with_reducible apply State.pcnt_kept
    | with_reducible apply State.wantDeliv_kept
    | with_reducible apply Kept.ite
    | with_reducible refine Kept.of_pair (by assumption) ?_
    | split

theorem State.endCycle_kept {M : Nat} {b : State} {q : List Instr} {s : State} (hs : Kept M b q s) (hM : Sub 0x1000 M) : Kept M b q (State.endCycle s) := by
  unfold State.endCycle
  try dsimp only
  repeat' first
    | with_reducible assumption
    | exact Sub.trans (by decide) hM
    | exact Sub.bit hM (by decide)
    | exact Sub.kind hM (by decide) _
    | (intro _; try dsimp only)
    | with_reducible apply Kept.ite
    | with_reducible refine Kept.of_pair (by assumption) ?_
    | split
    | with_reducible refine Kept.set_core ?_ ?_

theorem State.judge_kept {M : Nat} {b : State} {q : List Instr} {s : State} {p : Nat} {c : Cls} {w : Want} {head : Nat} (hs : Kept M b q s) (hM : Sub 0x82800000808 M) : Kept M b q (State.judge s p c w head).1 := by
  unfold State.judge
  try dsimp only
  repeat' first
    | with_reducible assumption
    | exact Sub.trans (by decide) hM
    | exact Sub.bit hM (by decide)
    | exact Sub.kind hM (by decide) _
    | (intro _; try dsimp only)
    | with_reducible apply bit_ringPage
    | with_reducible apply bit_lanePage
    | with_reducible apply State.inc_kept
    | with_reducible apply State.pcnt_kept
    | with_reducible apply State.raise_kept
    | with_reducible apply Kept.ite
    | with_reducible refine Kept.of_pair (by assumption) ?_
    | split

theorem State.linkEnt_kept {M : Nat} {b : State} {q : List Instr} {s : State} {x1 : Nat} {e : QEnt} (hs : Kept M b q s) (hM : Sub 0x1000 M) : Kept M b q (State.linkEnt s x1 e) := by
  unfold State.linkEnt
  try dsimp only
  repeat' first
    | with_reducible assumption
    | exact Sub.trans (by decide) hM
    | exact Sub.bit hM (by decide)
    | exact Sub.kind hM (by decide) _
    | (intro _; try dsimp only)
    | with_reducible apply State.setQue_kept
    | with_reducible apply Kept.ite
    | with_reducible refine Kept.of_pair (by assumption) ?_
    | split

theorem State.pushEnt_kept {M : Nat} {b : State} {q : List Instr} {s : State} {x1 : Nat} {e : QEnt} (hs : Kept M b q s) (hM : Sub 0x1000 M) : Kept M b q (State.pushEnt s x1 e) := by
  unfold State.pushEnt
  try dsimp only
  repeat' first
    | with_reducible assumption
    | exact Sub.trans (by decide) hM
    | exact Sub.bit hM (by decide)
    | exact Sub.kind hM (by decide) _
    | (intro _; try dsimp only)
    | with_reducible apply State.linkEnt_kept
    | with_reducible apply Kept.ite
    | with_reducible refine Kept.of_pair (by assumption) ?_
    | split
    | with_reducible refine Kept.set_core ?_ ?_

theorem State.admitTwin_kept {M : Nat} {b : State} {q : List Instr} {s : State} {p : Nat} {c : Cls} {head : Nat} {w : Want} (hs : Kept M b q s) (hM : Sub 0x82800001808 M) : Kept M b q (State.admitTwin s p c head w).1 := by
  unfold State.admitTwin
  try dsimp only
  repeat' first
    | with_reducible assumption
    | exact Sub.trans (by decide) hM
    | exact Sub.bit hM (by decide)
    | exact Sub.kind hM (by decide) _
    | (intro _; try dsimp only)
    | with_reducible apply State.judge_kept
    | with_reducible apply State.pushEnt_kept
    | with_reducible apply Kept.ite
    | with_reducible refine Kept.of_pair (by assumption) ?_
    | split

theorem State.admitAll_kept {M : Nat} {b : State} {q : List Instr} {s : State} {p : Nat} {c : Cls} {head : Nat} {ws : List Want} (hs : Kept M b q s) (hM : Sub 0x82800001808 M) : Kept M b q (State.admitAll s p c head ws).1 := by
  unfold State.admitAll
  try dsimp only
  repeat' first
    | with_reducible assumption
    | exact Sub.trans (by decide) hM
    | exact Sub.bit hM (by decide)
    | exact Sub.kind hM (by decide) _
    | (intro _; try dsimp only)
    | with_reducible apply State.admitTwin_kept
    | with_reducible apply State.judge_kept
    | with_reducible apply State.pushEnt_kept
    | with_reducible apply Kept.foldl
    | with_reducible apply Kept.foldlP
    | with_reducible apply Kept.ite
    | with_reducible refine Kept.of_pair (by assumption) ?_
    | split

theorem State.settleCharge_kept {M : Nat} {b : State} {q : List Instr} {s : State} {head : Nat} {n : Nat} (hs : Kept M b q s) (hM : Sub 0x1000 M) : Kept M b q (State.settleCharge s head n) := by
  unfold State.settleCharge
  try dsimp only
  repeat' first
    | with_reducible assumption
    | exact Sub.trans (by decide) hM
    | exact Sub.bit hM (by decide)
    | exact Sub.kind hM (by decide) _
    | (intro _; try dsimp only)
    | with_reducible apply State.settle_kept
    | with_reducible apply Kept.ite
    | with_reducible refine Kept.of_pair (by assumption) ?_
    | split
    | with_reducible refine Kept.set_core ?_ ?_

theorem State.badCopies_kept {M : Nat} {b : State} {q : List Instr} {s : State} {head : Nat} (hs : Kept M b q s) (hM : Sub 0x2000003000 M) : Kept M b q (State.badCopies s head) := by
  unfold State.badCopies
  try dsimp only
  repeat' first
    | with_reducible assumption
    | exact Sub.trans (by decide) hM
    | exact Sub.bit hM (by decide)
    | exact Sub.kind hM (by decide) _
    | (intro _; try dsimp only)
    | with_reducible apply State.endCopy_kept
    | with_reducible apply State.pcnt_kept
    | with_reducible apply State.setQue_kept
    | with_reducible apply Kept.foldl
    | with_reducible apply Kept.foldlP
    | with_reducible apply Kept.ite
    | with_reducible refine Kept.of_pair (by assumption) ?_
    | split
    | with_reducible refine Kept.set_core ?_ ?_

theorem State.setVerdict_kept {M : Nat} {b : State} {q : List Instr} {s : State} {head : Nat} {good : Bool} (hs : Kept M b q s) (hM : Sub 0x2000003000 M) : Kept M b q (State.setVerdict s head good) := by
  unfold State.setVerdict
  try dsimp only
  repeat' first
    | with_reducible assumption
    | exact Sub.trans (by decide) hM
    | exact Sub.bit hM (by decide)
    | exact Sub.kind hM (by decide) _
    | (intro _; try dsimp only)
    | with_reducible apply State.badCopies_kept
    | with_reducible apply State.setRec_kept
    | with_reducible apply Kept.ite
    | with_reducible refine Kept.of_pair (by assumption) ?_
    | split

theorem State.putCell_kept {M : Nat} {b : State} {q : List Instr} {s : State} {i : Nat} {p : Nat} {x3 : Nat} (hs : Kept M b q s) (hM : Sub 0x2000001000 M) : Kept M b q (State.putCell s i p x3) := by
  unfold State.putCell
  try dsimp only
  repeat' first
    | with_reducible assumption
    | exact Sub.trans (by decide) hM
    | exact Sub.bit hM (by decide)
    | exact Sub.kind hM (by decide) _
    | (intro _; try dsimp only)
    | with_reducible apply State.pcnt_kept
    | with_reducible apply State.setBank_kept
    | with_reducible apply State.setCell_kept
    | with_reducible apply State.setIng_kept
    | with_reducible apply State.setLink_kept
    | with_reducible apply State.setRec_kept
    | with_reducible apply Kept.ite
    | with_reducible refine Kept.of_pair (by assumption) ?_
    | split

theorem State.putHead_kept {M : Nat} {b : State} {q : List Instr} {s : State} {i : Nat} {p : Nat} {x3 : Nat} {c : Cls} {ws : List Want} {lost0 : Bool} {fed : Bool} {bytes : List Byte} {cells : Nat} {bad : Bool} (hs : Kept M b q s) (hM : Sub 0x82800003808 M) : Kept M b q (State.putHead s i p x3 c ws lost0 fed bytes cells bad) := by
  unfold State.putHead
  try dsimp only
  repeat' first
    | with_reducible assumption
    | exact Sub.trans (by decide) hM
    | exact Sub.bit hM (by decide)
    | exact Sub.kind hM (by decide) _
    | (intro _; try dsimp only)
    | with_reducible apply bit_ringPage
    | with_reducible apply bit_lanePage
    | with_reducible apply State.admitAll_kept
    | with_reducible apply State.freed_kept
    | with_reducible apply State.partialDelivery_kept
    | with_reducible apply State.pcnt_kept
    | with_reducible apply State.putCell_kept
    | with_reducible apply State.setIng_kept
    | with_reducible apply State.setRec_kept
    | with_reducible apply State.settleCharge_kept
    | with_reducible apply Kept.ite
    | with_reducible refine Kept.of_pair (by assumption) ?_
    | split

theorem State.defer_kept {M : Nat} {b : State} {q : List Instr} {s : State} {i : Nat} (hs : Kept M b q s) (hM : Sub 0x2000001000 M) : Kept M b q (State.defer s i) := by
  unfold State.defer
  try dsimp only
  repeat' first
    | with_reducible assumption
    | exact Sub.trans (by decide) hM
    | exact Sub.bit hM (by decide)
    | exact Sub.kind hM (by decide) _
    | (intro _; try dsimp only)
    | with_reducible apply State.endCycle_kept
    | with_reducible apply State.inc_kept
    | with_reducible apply State.setIng_kept
    | with_reducible apply Kept.ite
    | with_reducible refine Kept.of_pair (by assumption) ?_
    | split

theorem State.putNext_kept {M : Nat} {b : State} {q : List Instr} {s : State} {i : Nat} {p : Nat} {x3 : Nat} (hs : Kept M b q s) (hM : Sub 0x2000003000 M) : Kept M b q (State.putNext s i p x3) := by
  unfold State.putNext
  try dsimp only
  repeat' first
    | with_reducible assumption
    | exact Sub.trans (by decide) hM
    | exact Sub.bit hM (by decide)
    | exact Sub.kind hM (by decide) _
    | (intro _; try dsimp only)
    | with_reducible apply State.pcnt_kept
    | with_reducible apply State.putCell_kept
    | with_reducible apply State.setIng_kept
    | with_reducible apply State.setVerdict_kept
    | with_reducible apply State.settleCharge_kept
    | with_reducible apply Kept.ite
    | with_reducible refine Kept.of_pair (by assumption) ?_
    | split

theorem State.routeDropped_kept {M : Nat} {b : State} {q : List Instr} {s : State} (hs : Kept M b q s) (hM : Sub 0x4000000000808 M) : Kept M b q (State.routeDropped s) := by
  unfold State.routeDropped
  try dsimp only
  repeat' first
    | with_reducible assumption
    | exact Sub.trans (by decide) hM
    | exact Sub.bit hM (by decide)
    | exact Sub.kind hM (by decide) _
    | (intro _; try dsimp only)
    | with_reducible apply State.inc_kept
    | with_reducible apply State.raise_kept
    | with_reducible apply Kept.ite
    | with_reducible refine Kept.of_pair (by assumption) ?_
    | split

theorem State.pubNote_kept {M : Nat} {b : State} {q : List Instr} {s : State} {p : Nat} {f : Frame} (hs : Kept M b q s) (hM : Sub 0x1000 M) : Kept M b q (State.pubNote s p f) := by
  unfold State.pubNote
  try dsimp only
  repeat' first
    | with_reducible assumption
    | exact Sub.trans (by decide) hM
    | exact Sub.bit hM (by decide)
    | exact Sub.kind hM (by decide) _
    | (intro _; try dsimp only)
    | with_reducible apply State.setIng_kept
    | with_reducible apply Kept.ite
    | with_reducible refine Kept.of_pair (by assumption) ?_
    | split

theorem State.pubSent_kept {M : Nat} {b : State} {q : List Instr} {s : State} {p : Nat} (hs : Kept M b q s) (hM : Sub 0x10000000000 M) : Kept M b q (State.pubSent s p) := by
  unfold State.pubSent
  try dsimp only
  repeat' first
    | with_reducible assumption
    | exact Sub.trans (by decide) hM
    | exact Sub.bit hM (by decide)
    | exact Sub.kind hM (by decide) _
    | (intro _; try dsimp only)
    | with_reducible apply State.wr_kept
    | with_reducible apply Kept.ite
    | with_reducible refine Kept.of_pair (by assumption) ?_
    | split

theorem State.writeHead_kept {M : Nat} {b : State} {q : List Instr} {s : State} {p : Nat} {x : InFrame} {rest : List InFrame} (hs : Kept M b q s) (hM : Sub 0x408B800003808 M) : Kept M b q (State.writeHead s p x rest) := by
  unfold State.writeHead
  try dsimp only
  repeat' first
    | with_reducible assumption
    | exact Sub.trans (by decide) hM
    | exact Sub.bit hM (by decide)
    | exact Sub.kind hM (by decide) _
    | (intro _; try dsimp only)
    | with_reducible apply State.defer_kept
    | with_reducible apply State.endCycle_kept
    | with_reducible apply State.pubNote_kept
    | with_reducible apply State.putHead_kept
    | with_reducible apply State.routeDropped_kept
    | with_reducible apply State.wants_kept
    | with_reducible apply Kept.ite
    | with_reducible refine Kept.of_pair (by assumption) ?_
    | split
    | with_reducible refine Kept.set_ingress ?_ ?_

theorem State.writeNext_kept {M : Nat} {b : State} {q : List Instr} {s : State} {i : Nat} {p : Nat} (hs : Kept M b q s) (hM : Sub 0x2000003000 M) : Kept M b q (State.writeNext s i p) := by
  unfold State.writeNext
  try dsimp only
  repeat' first
    | with_reducible assumption
    | exact Sub.trans (by decide) hM
    | exact Sub.bit hM (by decide)
    | exact Sub.kind hM (by decide) _
    | (intro _; try dsimp only)
    | with_reducible apply State.defer_kept
    | with_reducible apply State.endCycle_kept
    | with_reducible apply State.putNext_kept
    | with_reducible apply Kept.ite
    | with_reducible refine Kept.of_pair (by assumption) ?_
    | split

theorem State.writeRest_kept {M : Nat} {b : State} {q : List Instr} {i : Nat} {p : Nat} {a : Nat} {x3 : State} (hx3 : Kept M b q x3) (hM : Sub 0x2000003000 M) : Kept M b q (State.writeRest i p a x3) := by
  fun_induction State.writeRest i p a x3
  all_goals repeat' first
    | with_reducible assumption
    | exact Sub.trans (by decide) hM
    | exact Sub.bit hM (by decide)
    | exact Sub.kind hM (by decide) _
    | (intro _; try dsimp only)
    | with_reducible apply State.writeNext_kept
    | with_reducible apply Kept.ite
    | with_reducible refine Kept.of_pair (by assumption) ?_
    | split
    | apply_assumption

theorem State.headWrite_kept {M : Nat} {b : State} {q : List Instr} {s : State} {p : Nat} (hs : Kept M b q s) (hM : Sub 0x408B800003808 M) : Kept M b q (State.headWrite s p) := by
  unfold State.headWrite
  try dsimp only
  repeat' first
    | with_reducible assumption
    | exact Sub.trans (by decide) hM
    | exact Sub.bit hM (by decide)
    | exact Sub.kind hM (by decide) _
    | (intro _; try dsimp only)
    | with_reducible apply State.writeHead_kept
    | with_reducible apply Kept.ite
    | with_reducible refine Kept.of_pair (by assumption) ?_
    | split

theorem State.deferredWrite_kept {M : Nat} {b : State} {q : List Instr} {s : State} {p : Nat} (hs : Kept M b q s) (hM : Sub 0x408B800003808 M) : Kept M b q (State.deferredWrite s p) := by
  unfold State.deferredWrite
  try dsimp only
  repeat' first
    | with_reducible assumption
    | exact Sub.trans (by decide) hM
    | exact Sub.bit hM (by decide)
    | exact Sub.kind hM (by decide) _
    | (intro _; try dsimp only)
    | with_reducible apply State.endCycle_kept
    | with_reducible apply State.writeHead_kept
    | with_reducible apply State.writeNext_kept
    | with_reducible apply Kept.ite
    | with_reducible refine Kept.of_pair (by assumption) ?_
    | split

theorem State.stopIngress_kept {M : Nat} {b : State} {q : List Instr} {s : State} {p : Nat} (hs : Kept M b q s) (hM : Sub 0x3000 M) : Kept M b q (State.stopIngress s p) := by
  unfold State.stopIngress
  try dsimp only
  repeat' first
    | with_reducible assumption
    | exact Sub.trans (by decide) hM
    | exact Sub.bit hM (by decide)
    | exact Sub.kind hM (by decide) _
    | (intro _; try dsimp only)
    | with_reducible apply bit_ringPage
    | with_reducible apply bit_lanePage
    | with_reducible apply State.freed_kept
    | with_reducible apply State.setIng_kept
    | with_reducible apply Kept.ite
    | with_reducible refine Kept.of_pair (by assumption) ?_
    | split

theorem State.ingressBad_kept {M : Nat} {b : State} {q : List Instr} {s : State} {p : Nat} (hs : Kept M b q s) (hM : Sub 0x2000003000 M) : Kept M b q (State.ingressBad s p) := by
  unfold State.ingressBad
  try dsimp only
  repeat' first
    | with_reducible assumption
    | exact Sub.trans (by decide) hM
    | exact Sub.bit hM (by decide)
    | exact Sub.kind hM (by decide) _
    | (intro _; try dsimp only)
    | with_reducible apply State.setIng_kept
    | with_reducible apply State.setVerdict_kept
    | with_reducible apply State.stopIngress_kept
    | with_reducible apply Kept.ite
    | with_reducible refine Kept.of_pair (by assumption) ?_
    | split

theorem State.closeArriving_kept {M : Nat} {b : State} {q : List Instr} {s : State} {p : Nat} (hs : Kept M b q s) (hM : Sub 0x2000003800 M) : Kept M b q (State.closeArriving s p) := by
  unfold State.closeArriving
  try dsimp only
  repeat' first
    | with_reducible assumption
    | exact Sub.trans (by decide) hM
    | exact Sub.bit hM (by decide)
    | exact Sub.kind hM (by decide) _
    | (intro _; try dsimp only)
    | with_reducible apply State.ingressBad_kept
    | with_reducible apply Kept.ite
    | with_reducible refine Kept.of_pair (by assumption) ?_
    | split
    | with_reducible refine Kept.set_ingress ?_ ?_

theorem State.ingressDown_kept {M : Nat} {b : State} {q : List Instr} {s : State} {p : Nat} (hs : Kept M b q s) (hM : Sub 0x2000003800 M) : Kept M b q (State.ingressDown s p) := by
  unfold State.ingressDown
  try dsimp only
  repeat' first
    | with_reducible assumption
    | exact Sub.trans (by decide) hM
    | exact Sub.bit hM (by decide)
    | exact Sub.kind hM (by decide) _
    | (intro _; try dsimp only)
    | with_reducible apply State.ingressBad_kept
    | with_reducible apply State.setIng_kept
    | with_reducible apply Kept.ite
    | with_reducible refine Kept.of_pair (by assumption) ?_
    | split
    | with_reducible refine Kept.set_ingress ?_ ?_

theorem State.flushPortReset_kept {M : Nat} {b : State} {q : List Instr} {s : State} {p : Nat} (hs : Kept M b q s) (hM : Sub 0x6000003808 M) : Kept M b q (State.flushPortReset s p) := by
  unfold State.flushPortReset
  try dsimp only
  repeat' first
    | with_reducible assumption
    | exact Sub.trans (by decide) hM
    | exact Sub.bit hM (by decide)
    | exact Sub.kind hM (by decide) _
    | (intro _; try dsimp only)
    | with_reducible apply State.addSat_kept
    | with_reducible apply State.flushQueue_kept
    | with_reducible apply State.ingressDown_kept
    | with_reducible apply State.setEg_kept
    | with_reducible apply Kept.foldl
    | with_reducible apply Kept.foldlP
    | with_reducible apply Kept.ite
    | with_reducible refine Kept.of_pair (by assumption) ?_
    | split
    | with_reducible refine Kept.set_core ?_ ?_

theorem execCoreCellWrite_kept {M : Nat} {b : State} {q : List Instr} {p : CorePort} {s : State} (hs : Kept M b q s) (hM : Sub 0x2000003000 M) {r : State} (e : (execCoreCellWrite p s) = .next r) : Kept M b q r := by
  unfold execCoreCellWrite at e
  injection e with e; subst e
  try dsimp only
  repeat' first
    | with_reducible assumption
    | exact Sub.trans (by decide) hM
    | exact Sub.bit hM (by decide)
    | exact Sub.kind hM (by decide) _
    | (intro _; try dsimp only)
    | with_reducible apply State.ingressBad_kept
    | with_reducible apply State.writeNext_kept
    | with_reducible apply Kept.ite
    | with_reducible refine Kept.of_pair (by assumption) ?_
    | split

theorem execFrameVerdict_kept {M : Nat} {b : State} {q : List Instr} {p : CorePort} {good : Bool} {s : State} (hs : Kept M b q s) (hM : Sub 0x12000003000 M) {r : State} (e : (execFrameVerdict p good s) = .next r) : Kept M b q r := by
  unfold execFrameVerdict at e
  injection e with e; subst e
  try dsimp only
  repeat' first
    | with_reducible assumption
    | exact Sub.trans (by decide) hM
    | exact Sub.bit hM (by decide)
    | exact Sub.kind hM (by decide) _
    | (intro _; try dsimp only)
    | with_reducible apply State.pubSent_kept
    | with_reducible apply State.setIng_kept
    | with_reducible apply State.setVerdict_kept
    | with_reducible apply State.stopIngress_kept
    | with_reducible apply Kept.ite
    | with_reducible refine Kept.of_pair (by assumption) ?_
    | split

theorem State.placeDirect_kept {M : Nat} {b : State} {q : List Instr} {s : State} {p : Nat} {x2 : Nat} {f : Frame} (hs : Kept M b q s) (hM : Sub 0x82800003808 M) : Kept M b q (State.placeDirect s p x2 f) := by
  unfold State.placeDirect
  try dsimp only
  repeat' first
    | with_reducible assumption
    | exact Sub.trans (by decide) hM
    | exact Sub.bit hM (by decide)
    | exact Sub.kind hM (by decide) _
    | (intro _; try dsimp only)
    | with_reducible apply State.defer_kept
    | with_reducible apply State.endCycle_kept
    | with_reducible apply State.pcnt_kept
    | with_reducible apply State.putHead_kept
    | with_reducible apply State.raise_kept
    | with_reducible apply State.setIng_kept
    | with_reducible apply State.setVerdict_kept
    | with_reducible apply State.writeRest_kept
    | with_reducible apply Kept.ite
    | with_reducible refine Kept.of_pair (by assumption) ?_
    | split

theorem State.startCopy_kept {M : Nat} {b : State} {q : List Instr} {s : State} {p : Nat} {x2 : Nat} {x3 : Int} (hs : Kept M b q s) (hM : Sub 0x1000 M) : Kept M b q (State.startCopy s p x2 x3) := by
  unfold State.startCopy
  try dsimp only
  repeat' first
    | with_reducible assumption
    | exact Sub.trans (by decide) hM
    | exact Sub.bit hM (by decide)
    | exact Sub.kind hM (by decide) _
    | (intro _; try dsimp only)
    | with_reducible apply State.setEg_kept
    | with_reducible apply Kept.ite
    | with_reducible refine Kept.of_pair (by assumption) ?_
    | split

theorem State.uncorrected_kept {M : Nat} {b : State} {q : List Instr} {s : State} {w : Nat} {c : Nat} (hs : Kept M b q s) (hM : Sub 0x2000000808 M) : Kept M b q (State.uncorrected s w c) := by
  unfold State.uncorrected
  try dsimp only
  repeat' first
    | with_reducible assumption
    | exact Sub.trans (by decide) hM
    | exact Sub.bit hM (by decide)
    | exact Sub.kind hM (by decide) _
    | (intro _; try dsimp only)
    | with_reducible apply State.inc_kept
    | with_reducible apply State.raise_kept
    | with_reducible apply State.wr_kept
    | with_reducible apply Kept.ite
    | with_reducible refine Kept.of_pair (by assumption) ?_
    | split

theorem State.corrected_kept {M : Nat} {b : State} {q : List Instr} {s : State} {k : Nat} (hs : Kept M b q s) (hM : Sub 0x2000001808 M) : Kept M b q (State.corrected s k) := by
  unfold State.corrected
  try dsimp only
  repeat' first
    | with_reducible assumption
    | exact Sub.trans (by decide) hM
    | exact Sub.bit hM (by decide)
    | exact Sub.kind hM (by decide) _
    | (intro _; try dsimp only)
    | with_reducible apply State.inc_kept
    | with_reducible apply State.raise_kept
    | with_reducible apply Kept.ite
    | with_reducible refine Kept.of_pair (by assumption) ?_
    | split
    | with_reducible refine Kept.set_core ?_ ?_

theorem State.eccRead_kept {M : Nat} {b : State} {q : List Instr} {s : State} {e : Ecc} {head : Nat} {c : Nat} (hs : Kept M b q s) (hM : Sub 0x2000003808 M) : Kept M b q (State.eccRead s e head c) := by
  unfold State.eccRead
  try dsimp only
  repeat' first
    | with_reducible assumption
    | exact Sub.trans (by decide) hM
    | exact Sub.bit hM (by decide)
    | exact Sub.kind hM (by decide) _
    | (intro _; try dsimp only)
    | with_reducible apply State.badCopies_kept
    | with_reducible apply State.corrected_kept
    | with_reducible apply State.setRec_kept
    | with_reducible apply State.uncorrected_kept
    | with_reducible apply Kept.ite
    | with_reducible refine Kept.of_pair (by assumption) ?_
    | split

theorem State.readCell_kept {M : Nat} {b : State} {q : List Instr} {s : State} {p : Nat} {g : Eg} {ecc : Ecc} (hs : Kept M b q s) (hM : Sub 0x2000003808 M) : Kept M b q (State.readCell s p g ecc) := by
  unfold State.readCell
  try dsimp only
  repeat' first
    | with_reducible assumption
    | exact Sub.trans (by decide) hM
    | exact Sub.bit hM (by decide)
    | exact Sub.kind hM (by decide) _
    | (intro _; try dsimp only)
    | with_reducible apply bit_ringPage
    | with_reducible apply bit_lanePage
    | with_reducible apply State.eccRead_kept
    | with_reducible apply State.pcnt_kept
    | with_reducible apply State.sent_kept
    | with_reducible apply State.setCr_kept
    | with_reducible apply State.setEg_kept
    | with_reducible apply Kept.ite
    | with_reducible refine Kept.of_pair (by assumption) ?_
    | split
    | with_reducible refine Kept.set_core ?_ ?_

theorem execCoreCellRead_kept {M : Nat} {b : State} {q : List Instr} {p : CorePort} {ecc : Ecc} {s : State} (hs : Kept M b q s) (hM : Sub 0x2000003808 M) {r : State} (e : (execCoreCellRead p ecc s) = .next r) : Kept M b q r := by
  unfold execCoreCellRead at e
  injection e with e; subst e
  try dsimp only
  repeat' first
    | with_reducible assumption
    | exact Sub.trans (by decide) hM
    | exact Sub.bit hM (by decide)
    | exact Sub.kind hM (by decide) _
    | (intro _; try dsimp only)
    | with_reducible apply State.readCell_kept
    | with_reducible apply State.startCopy_kept
    | with_reducible apply Kept.ite
    | with_reducible refine Kept.of_pair (by assumption) ?_
    | split

theorem State.popCopy_kept {M : Nat} {b : State} {q : List Instr} {s : State} {p : Nat} {g : Eg} (hs : Kept M b q s) (hM : Sub 0x3000 M) : Kept M b q (State.popCopy s p g) := by
  unfold State.popCopy
  try dsimp only
  repeat' first
    | with_reducible assumption
    | exact Sub.trans (by decide) hM
    | exact Sub.bit hM (by decide)
    | exact Sub.kind hM (by decide) _
    | (intro _; try dsimp only)
    | with_reducible apply State.endCopy_kept
    | with_reducible apply State.setEg_kept
    | with_reducible apply State.setQue_kept
    | with_reducible apply Kept.ite
    | with_reducible refine Kept.of_pair (by assumption) ?_
    | split

theorem State.finishCopy_kept {M : Nat} {b : State} {q : List Instr} {s : State} {p : Nat} {g : Eg} (hs : Kept M b q s) (hM : Sub 0x82800003000 M) : Kept M b q (State.finishCopy s p g) := by
  unfold State.finishCopy
  try dsimp only
  repeat' first
    | with_reducible assumption
    | exact Sub.trans (by decide) hM
    | exact Sub.bit hM (by decide)
    | exact Sub.kind hM (by decide) _
    | (intro _; try dsimp only)
    | with_reducible apply bit_ringPage
    | with_reducible apply bit_lanePage
    | with_reducible apply State.inc_kept
    | with_reducible apply State.pcnt_kept
    | with_reducible apply State.popCopy_kept
    | with_reducible apply State.setInbox_kept
    | with_reducible apply State.setPort_kept
    | with_reducible apply Kept.ite
    | with_reducible refine Kept.of_pair (by assumption) ?_
    | split

theorem execCopyEnd_kept {M : Nat} {b : State} {q : List Instr} {p : CorePort} {s : State} (hs : Kept M b q s) (hM : Sub 0x82800003000 M) {r : State} (e : (execCopyEnd p s) = .next r) : Kept M b q r := by
  unfold execCopyEnd at e
  injection e with e; subst e
  try dsimp only
  repeat' first
    | with_reducible assumption
    | exact Sub.trans (by decide) hM
    | exact Sub.bit hM (by decide)
    | exact Sub.kind hM (by decide) _
    | (intro _; try dsimp only)
    | with_reducible apply bit_ringPage
    | with_reducible apply bit_lanePage
    | with_reducible apply State.finishCopy_kept
    | with_reducible apply State.inc_kept
    | with_reducible apply State.popCopy_kept
    | with_reducible apply Kept.ite
    | with_reducible refine Kept.of_pair (by assumption) ?_
    | split

theorem State.refuseSpare_kept {M : Nat} {b : State} {q : List Instr} {s : State} {x1 : Nat} (hs : Kept M b q s) (hM : Sub 0x2000000808 M) : Kept M b q (State.refuseSpare s x1) := by
  unfold State.refuseSpare
  try dsimp only
  repeat' first
    | with_reducible assumption
    | exact Sub.trans (by decide) hM
    | exact Sub.bit hM (by decide)
    | exact Sub.kind hM (by decide) _
    | (intro _; try dsimp only)
    | with_reducible apply State.fs_kept
    | with_reducible apply State.raise_kept
    | with_reducible apply Kept.ite
    | with_reducible refine Kept.of_pair (by assumption) ?_
    | split

theorem State.requestSpare_kept {M : Nat} {b : State} {q : List Instr} {s : State} {x1 : Nat} {cause : Nat} (hs : Kept M b q s) (hM : Sub 0x2000001808 M) : Kept M b q (State.requestSpare s x1 cause) := by
  unfold State.requestSpare
  try dsimp only
  repeat' first
    | with_reducible assumption
    | exact Sub.trans (by decide) hM
    | exact Sub.bit hM (by decide)
    | exact Sub.kind hM (by decide) _
    | (intro _; try dsimp only)
    | with_reducible apply State.fs_kept
    | with_reducible apply State.refuseSpare_kept
    | with_reducible apply Kept.ite
    | with_reducible refine Kept.of_pair (by assumption) ?_
    | split
    | with_reducible refine Kept.set_core ?_ ?_

theorem execBankEccThreshold_kept {M : Nat} {b : State} {q : List Instr} {bank : Fin 17} {s : State} (hs : Kept M b q s) (hM : Sub 0x2000001808 M) {r : State} (e : (execBankEccThreshold bank s) = .next r) : Kept M b q r := by
  unfold execBankEccThreshold at e
  injection e with e; subst e
  try dsimp only
  repeat' first
    | with_reducible assumption
    | exact Sub.trans (by decide) hM
    | exact Sub.bit hM (by decide)
    | exact Sub.kind hM (by decide) _
    | (intro _; try dsimp only)
    | with_reducible apply State.requestSpare_kept
    | with_reducible apply Kept.ite
    | with_reducible refine Kept.of_pair (by assumption) ?_
    | split

theorem State.coreSpareCmd_kept {M : Nat} {b : State} {q : List Instr} {s : State} {v : Word} (hs : Kept M b q s) (hM : Sub 0x2000001808 M) : Kept M b q (State.coreSpareCmd s v) := by
  unfold State.coreSpareCmd
  try dsimp only
  repeat' first
    | with_reducible assumption
    | exact Sub.trans (by decide) hM
    | exact Sub.bit hM (by decide)
    | exact Sub.kind hM (by decide) _
    | (intro _; try dsimp only)
    | with_reducible apply State.requestSpare_kept
    | with_reducible apply Kept.ite
    | with_reducible refine Kept.of_pair (by assumption) ?_
    | split

theorem execBankRowCopy_kept {M : Nat} {b : State} {q : List Instr} {ecc : Ecc} {s : State} (hs : Kept M b q s) (hM : Sub 0x2000003808 M) {r : State} (e : (execBankRowCopy ecc s) = .next r) : Kept M b q r := by
  unfold execBankRowCopy at e
  injection e with e; subst e
  try dsimp only
  repeat' first
    | with_reducible assumption
    | exact Sub.trans (by decide) hM
    | exact Sub.bit hM (by decide)
    | exact Sub.kind hM (by decide) _
    | (intro _; try dsimp only)
    | with_reducible apply State.eccRead_kept
    | with_reducible apply State.fs_kept
    | with_reducible apply Kept.ite
    | with_reducible refine Kept.of_pair (by assumption) ?_
    | split
    | with_reducible refine Kept.set_core ?_ ?_

theorem execBankReplaceDone_kept {M : Nat} {b : State} {q : List Instr} {s : State} (hs : Kept M b q s) (hM : Sub 0x28002000001A08 M) {r : State} (e : (execBankReplaceDone s) = .next r) : Kept M b q r := by
  unfold execBankReplaceDone at e
  injection e with e; subst e
  try dsimp only
  repeat' first
    | with_reducible assumption
    | exact Sub.trans (by decide) hM
    | exact Sub.bit hM (by decide)
    | exact Sub.kind hM (by decide) _
    | (intro _; try dsimp only)
    | with_reducible apply State.fs_kept
    | with_reducible apply State.raise_kept
    | with_reducible apply State.recordRepair_kept
    | with_reducible apply State.setState_kept
    | with_reducible apply State.wr_kept
    | with_reducible apply Kept.ite
    | with_reducible refine Kept.of_pair (by assumption) ?_
    | split
    | with_reducible refine Kept.set_core ?_ ?_

theorem State.coreClrCnt_kept {M : Nat} {b : State} {q : List Instr} {s : State} (hs : Kept M b q s) (hM : Sub 0x2000000000 M) : Kept M b q (State.coreClrCnt s) := by
  unfold State.coreClrCnt
  try dsimp only
  repeat' first
    | with_reducible assumption
    | exact Sub.trans (by decide) hM
    | exact Sub.bit hM (by decide)
    | exact Sub.kind hM (by decide) _
    | (intro _; try dsimp only)
    | with_reducible apply State.wr_kept
    | with_reducible apply Kept.foldl
    | with_reducible apply Kept.foldlP
    | with_reducible apply Kept.ite
    | with_reducible refine Kept.of_pair (by assumption) ?_
    | split

end Sys2Proof.Machine
end

