-- ==== Sys2Proof/Laws/KeptTwinRole.lean ====
section
/-! SUPPORT. What the functions of Machine/TwinRole.lean keep (Laws/Kept.lean). -/
namespace Sys2Proof.Machine

theorem State.setRole_kept {M : Nat} {b : State} {q : List Instr} {s : State} {r : Nat} (hs : Kept M b q s) (hM : Sub 0x80000000808 M) : Kept M b q (State.setRole s r) := by
  unfold State.setRole
  try dsimp only
  repeat' first
    | with_reducible assumption
    | exact Sub.trans (by decide) hM
    | exact Sub.bit hM (by decide)
    | exact Sub.kind hM (by decide) _
    | (intro _; try dsimp only)
    | with_reducible apply State.fs_kept
    | with_reducible apply State.raise_kept
    | with_reducible apply Kept.ite
    | with_reducible refine Kept.of_pair (by assumption) ?_
    | split

theorem State.claim_kept {M : Nat} {b : State} {q : List Instr} {s : State} (hs : Kept M b q s) (hM : Sub 0x80000000808 M) : Kept M b q (State.claim s) := by
  unfold State.claim
  try dsimp only
  repeat' first
    | with_reducible assumption
    | exact Sub.trans (by decide) hM
    | exact Sub.bit hM (by decide)
    | exact Sub.kind hM (by decide) _
    | (intro _; try dsimp only)
    | with_reducible apply State.fs_kept
    | with_reducible apply State.raiseIf_kept
    | with_reducible apply State.setRole_kept
    | with_reducible apply Kept.ite
    | with_reducible refine Kept.of_pair (by assumption) ?_
    | split

theorem State.twinStart_kept {M : Nat} {b : State} {q : List Instr} {s : State} (hs : Kept M b q s) (hM : Sub 0x80000000808 M) : Kept M b q (State.twinStart s) := by
  unfold State.twinStart
  try dsimp only
  repeat' first
    | with_reducible assumption
    | exact Sub.trans (by decide) hM
    | exact Sub.bit hM (by decide)
    | exact Sub.kind hM (by decide) _
    | (intro _; try dsimp only)
    | with_reducible apply State.setRole_kept
    | with_reducible apply Kept.ite
    | with_reducible refine Kept.of_pair (by assumption) ?_
    | split

theorem State.twinWatch_kept {M : Nat} {b : State} {q : List Instr} {s : State} (hs : Kept M b q s) (hM : Sub 0x80000400808 M) : Kept M b q (State.twinWatch s) := by
  unfold State.twinWatch
  try dsimp only
  repeat' first
    | with_reducible assumption
    | exact Sub.trans (by decide) hM
    | exact Sub.bit hM (by decide)
    | exact Sub.kind hM (by decide) _
    | (intro _; try dsimp only)
    | with_reducible apply State.claim_kept
    | with_reducible apply State.raise_kept
    | with_reducible apply Kept.ite
    | with_reducible refine Kept.of_pair (by assumption) ?_
    | split
    | with_reducible refine Kept.set_tw ?_ ?_

end Sys2Proof.Machine
end

