-- ==== Sys2Proof/Laws/KeptTime.lean ====
section
/-! SUPPORT. What the functions of Machine/Time.lean keep (Laws/Kept.lean). -/
namespace Sys2Proof.Machine

theorem State.setDom_kept {M : Nat} {b : State} {q : List Instr} {s : State} {k : Nat} {d : Dom} (hs : Kept M b q s) (hM : Sub 0x8000 M) : Kept M b q (State.setDom s k d) := by
  unfold State.setDom
  try dsimp only
  repeat' first
    | with_reducible assumption
    | exact Sub.trans (by decide) hM
    | exact Sub.bit hM (by decide)
    | exact Sub.kind hM (by decide) _
    | (intro _; try dsimp only)
    | with_reducible apply Kept.ite
    | with_reducible refine Kept.of_pair (by assumption) ?_
    | split
    | with_reducible refine Kept.set_tm ?_ ?_

theorem State.setRate_kept {M : Nat} {b : State} {q : List Instr} {s : State} {k : Nat} {r : Int} (hs : Kept M b q s) (hM : Sub 0x8000008000 M) : Kept M b q (State.setRate s k r) := by
  unfold State.setRate
  try dsimp only
  repeat' first
    | with_reducible assumption
    | exact Sub.trans (by decide) hM
    | exact Sub.bit hM (by decide)
    | exact Sub.kind hM (by decide) _
    | (intro _; try dsimp only)
    | with_reducible apply State.fs_kept
    | with_reducible apply State.setDom_kept
    | with_reducible apply Kept.ite
    | with_reducible refine Kept.of_pair (by assumption) ?_
    | split

theorem State.resRebase_kept {M : Nat} {b : State} {q : List Instr} {s : State} (hs : Kept M b q s) (hM : Sub 0x8000 M) : Kept M b q (State.resRebase s) := by
  unfold State.resRebase
  try dsimp only
  repeat' first
    | with_reducible assumption
    | exact Sub.trans (by decide) hM
    | exact Sub.bit hM (by decide)
    | exact Sub.kind hM (by decide) _
    | (intro _; try dsimp only)
    | with_reducible apply Kept.ite
    | with_reducible refine Kept.of_pair (by assumption) ?_
    | split
    | with_reducible refine Kept.set_tm ?_ ?_

theorem State.absorb_kept {M : Nat} {b : State} {q : List Instr} {s : State} {f : State → State} (hs : Kept M b q s) (hf : ∀ t, Kept M b q t → Kept M b q (f t)) (hM : Sub 0x8000 M) : Kept M b q (State.absorb s f) := by
  unfold State.absorb
  try dsimp only
  repeat' first
    | with_reducible assumption
    | apply hf
    | exact Sub.trans (by decide) hM
    | exact Sub.bit hM (by decide)
    | (intro _; try dsimp only)
    | exact Sub.kind hM (by decide) _
    | with_reducible apply Kept.ite
    | with_reducible refine Kept.of_pair (by assumption) ?_
    | split
    | with_reducible refine Kept.set_tm ?_ ?_

theorem State.stepOff_kept {M : Nat} {b : State} {q : List Instr} {s : State} {k : Nat} {d : Int} (hs : Kept M b q s) (hM : Sub 0x8000 M) : Kept M b q (State.stepOff s k d) := by
  unfold State.stepOff
  try dsimp only
  repeat' first
    | with_reducible assumption
    | exact Sub.trans (by decide) hM
    | exact Sub.bit hM (by decide)
    | exact Sub.kind hM (by decide) _
    | (intro _; try dsimp only)
    | with_reducible apply State.absorb_kept
    | with_reducible apply State.setDom_kept
    | with_reducible apply Kept.ite
    | with_reducible refine Kept.of_pair (by assumption) ?_
    | split

theorem State.select_kept {M : Nat} {b : State} {q : List Instr} {s : State} {k : Nat} (hs : Kept M b q s) (hM : Sub 0x8000008808 M) : Kept M b q (State.select s k) := by
  unfold State.select
  try dsimp only
  repeat' first
    | with_reducible assumption
    | exact Sub.trans (by decide) hM
    | exact Sub.bit hM (by decide)
    | exact Sub.kind hM (by decide) _
    | (intro _; try dsimp only)
    | with_reducible apply State.absorb_kept
    | with_reducible apply State.fs_kept
    | with_reducible apply State.raise_kept
    | with_reducible apply Kept.ite
    | with_reducible refine Kept.of_pair (by assumption) ?_
    | split

theorem State.tmStart_kept {M : Nat} {b : State} {q : List Instr} {s : State} (hs : Kept M b q s) (hM : Sub 0x8000008000 M) : Kept M b q (State.tmStart s) := by
  unfold State.tmStart
  try dsimp only
  repeat' first
    | with_reducible assumption
    | exact Sub.trans (by decide) hM
    | exact Sub.bit hM (by decide)
    | exact Sub.kind hM (by decide) _
    | (intro _; try dsimp only)
    | with_reducible apply State.fs_kept
    | with_reducible apply State.setDom_kept
    | with_reducible apply Kept.ite
    | with_reducible refine Kept.of_pair (by assumption) ?_
    | split
    | with_reducible refine Kept.set_tm ?_ ?_

theorem State.tmReset_kept {M : Nat} {b : State} {q : List Instr} {s : State} (hs : Kept M b q s) (hM : Sub 0x8000008000 M) : Kept M b q (State.tmReset s) := by
  unfold State.tmReset
  try dsimp only
  repeat' first
    | with_reducible assumption
    | exact Sub.trans (by decide) hM
    | exact Sub.bit hM (by decide)
    | exact Sub.kind hM (by decide) _
    | (intro _; try dsimp only)
    | with_reducible apply State.tmStart_kept
    | with_reducible apply Kept.ite
    | with_reducible refine Kept.of_pair (by assumption) ?_
    | split
    | with_reducible refine Kept.set_tm ?_ ?_

theorem State.setDstate_kept {M : Nat} {b : State} {q : List Instr} {s : State} {k : Nat} {v : Nat} (hs : Kept M b q s) (hM : Sub 0x8000000808 M) : Kept M b q (State.setDstate s k v) := by
  unfold State.setDstate
  try dsimp only
  repeat' first
    | with_reducible assumption
    | exact Sub.trans (by decide) hM
    | exact Sub.bit hM (by decide)
    | exact Sub.kind hM (by decide) _
    | (intro _; try dsimp only)
    | with_reducible apply State.fs_kept
    | with_reducible apply State.raise_kept
    | with_reducible apply Kept.ite
    | with_reducible refine Kept.of_pair (by assumption) ?_
    | split

theorem execStAutoSwitch_kept {M : Nat} {b : State} {q : List Instr} {s : State} (hs : Kept M b q s) (hM : Sub 0x8000008808 M) {r : State} (e : (execStAutoSwitch s) = .next r) : Kept M b q r := by
  unfold execStAutoSwitch at e
  injection e with e; subst e
  try dsimp only
  repeat' first
    | with_reducible assumption
    | exact Sub.trans (by decide) hM
    | exact Sub.bit hM (by decide)
    | exact Sub.kind hM (by decide) _
    | (intro _; try dsimp only)
    | with_reducible apply State.select_kept
    | with_reducible apply Kept.ite
    | with_reducible refine Kept.of_pair (by assumption) ?_
    | split

theorem execSlewDone_kept {M : Nat} {b : State} {q : List Instr} {s : State} (hs : Kept M b q s) (hM : Sub 0x8000008808 M) {r : State} (e : (execSlewDone s) = .next r) : Kept M b q r := by
  unfold execSlewDone at e
  injection e with e; subst e
  try dsimp only
  repeat' first
    | with_reducible assumption
    | exact Sub.trans (by decide) hM
    | exact Sub.bit hM (by decide)
    | exact Sub.kind hM (by decide) _
    | (intro _; try dsimp only)
    | with_reducible apply State.raise_kept
    | with_reducible apply Kept.ite
    | with_reducible refine Kept.of_pair (by assumption) ?_
    | split
    | with_reducible refine Kept.set_tm ?_ ?_

theorem State.tmJump_kept {M : Nat} {b : State} {q : List Instr} {s : State} (hs : Kept M b q s) (hM : Sub 0x8000008808 M) : Kept M b q (State.tmJump s) := by
  unfold State.tmJump
  try dsimp only
  repeat' first
    | with_reducible assumption
    | exact Sub.trans (by decide) hM
    | exact Sub.bit hM (by decide)
    | exact Sub.kind hM (by decide) _
    | (intro _; try dsimp only)
    | with_reducible apply State.raise_kept
    | with_reducible apply Kept.ite
    | with_reducible refine Kept.of_pair (by assumption) ?_
    | split
    | with_reducible refine Kept.set_tm ?_ ?_

theorem State.tmClrCnt_kept {M : Nat} {b : State} {q : List Instr} {s : State} (hs : Kept M b q s) (hM : Sub 0x8000000000 M) : Kept M b q (State.tmClrCnt s) := by
  unfold State.tmClrCnt
  try dsimp only
  repeat' first
    | with_reducible assumption
    | exact Sub.trans (by decide) hM
    | exact Sub.bit hM (by decide)
    | exact Sub.kind hM (by decide) _
    | (intro _; try dsimp only)
    | with_reducible apply State.wr_kept
    | with_reducible apply Kept.ite
    | with_reducible refine Kept.of_pair (by assumption) ?_
    | split

theorem State.snapAt_kept {M : Nat} {b : State} {q : List Instr} {s : State} {off : Nat} {v : Nat} {era : Nat} (hs : Kept M b q s) (hM : Sub 0x8000000000 M) : Kept M b q (State.snapAt s off v era) := by
  unfold State.snapAt
  try dsimp only
  repeat' first
    | with_reducible assumption
    | exact Sub.trans (by decide) hM
    | exact Sub.bit hM (by decide)
    | exact Sub.kind hM (by decide) _
    | (intro _; try dsimp only)
    | with_reducible apply State.wr_kept
    | with_reducible apply Kept.ite
    | with_reducible refine Kept.of_pair (by assumption) ?_
    | split

theorem State.tmSnap_kept {M : Nat} {b : State} {q : List Instr} {s : State} (hs : Kept M b q s) (hM : Sub 0x8000000000 M) : Kept M b q (State.tmSnap s) := by
  unfold State.tmSnap
  try dsimp only
  repeat' first
    | with_reducible assumption
    | exact Sub.trans (by decide) hM
    | exact Sub.bit hM (by decide)
    | exact Sub.kind hM (by decide) _
    | (intro _; try dsimp only)
    | with_reducible apply State.snapAt_kept
    | with_reducible apply State.wr_kept
    | with_reducible apply Kept.ite
    | with_reducible refine Kept.of_pair (by assumption) ?_
    | split

theorem State.tmCtrlWrite_kept {M : Nat} {b : State} {q : List Instr} {s : State} {v : Word} (hs : Kept M b q s) (hM : Sub 0x8000008808 M) : Kept M b q (State.tmCtrlWrite s v) := by
  unfold State.tmCtrlWrite
  try dsimp only
  repeat' first
    | with_reducible assumption
    | exact Sub.trans (by decide) hM
    | exact Sub.bit hM (by decide)
    | exact Sub.kind hM (by decide) _
    | (intro _; try dsimp only)
    | with_reducible apply State.tmClrCnt_kept
    | with_reducible apply State.tmJump_kept
    | with_reducible apply State.tmSnap_kept
    | with_reducible apply Kept.ite
    | with_reducible refine Kept.of_pair (by assumption) ?_
    | split

theorem execTmJump_kept {M : Nat} {b : State} {q : List Instr} {who : Initiator} {s : State} (hs : Kept M b q s) (hM : Sub 0x9800001880C M) {r : State} (e : (execTmJump who s) = .next r) : Kept M b q r := by
  unfold execTmJump at e
  injection e with e; subst e
  try dsimp only
  repeat' first
    | with_reducible assumption
    | exact Sub.trans (by decide) hM
    | exact Sub.bit hM (by decide)
    | exact Sub.kind hM (by decide) _
    | (intro _; try dsimp only)
    | with_reducible apply State.tmJump_kept
    | with_reducible apply State.write_kept
    | with_reducible apply Kept.ite
    | with_reducible refine Kept.of_pair (by assumption) ?_
    | split

theorem execTmSnap_kept {M : Nat} {b : State} {q : List Instr} {who : Initiator} {s : State} (hs : Kept M b q s) (hM : Sub 0x9800001080C M) {r : State} (e : (execTmSnap who s) = .next r) : Kept M b q r := by
  unfold execTmSnap at e
  injection e with e; subst e
  try dsimp only
  repeat' first
    | with_reducible assumption
    | exact Sub.trans (by decide) hM
    | exact Sub.bit hM (by decide)
    | exact Sub.kind hM (by decide) _
    | (intro _; try dsimp only)
    | with_reducible apply State.tmSnap_kept
    | with_reducible apply State.write_kept
    | with_reducible apply Kept.ite
    | with_reducible refine Kept.of_pair (by assumption) ?_
    | split

theorem execTmClrCnt_kept {M : Nat} {b : State} {q : List Instr} {who : Initiator} {s : State} (hs : Kept M b q s) (hM : Sub 0x9800001080C M) {r : State} (e : (execTmClrCnt who s) = .next r) : Kept M b q r := by
  unfold execTmClrCnt at e
  injection e with e; subst e
  try dsimp only
  repeat' first
    | with_reducible assumption
    | exact Sub.trans (by decide) hM
    | exact Sub.bit hM (by decide)
    | exact Sub.kind hM (by decide) _
    | (intro _; try dsimp only)
    | with_reducible apply State.tmClrCnt_kept
    | with_reducible apply State.write_kept
    | with_reducible apply Kept.ite
    | with_reducible refine Kept.of_pair (by assumption) ?_
    | split

theorem State.smpReject_kept {M : Nat} {b : State} {q : List Instr} {s : State} {k : Nat} (hs : Kept M b q s) (hM : Sub 0x8000000808 M) : Kept M b q (State.smpReject s k) := by
  unfold State.smpReject
  try dsimp only
  repeat' first
    | with_reducible assumption
    | exact Sub.trans (by decide) hM
    | exact Sub.bit hM (by decide)
    | exact Sub.kind hM (by decide) _
    | (intro _; try dsimp only)
    | with_reducible apply State.inc_kept
    | with_reducible apply State.raise_kept
    | with_reducible apply Kept.ite
    | with_reducible refine Kept.of_pair (by assumption) ?_
    | split

theorem State.lockCount_kept {M : Nat} {b : State} {q : List Instr} {s : State} {k : Nat} {e : Int} (hs : Kept M b q s) (hM : Sub 0x8000008808 M) : Kept M b q (State.lockCount s k e) := by
  unfold State.lockCount
  try dsimp only
  repeat' first
    | with_reducible assumption
    | exact Sub.trans (by decide) hM
    | exact Sub.bit hM (by decide)
    | exact Sub.kind hM (by decide) _
    | (intro _; try dsimp only)
    | with_reducible apply State.setDom_kept
    | with_reducible apply State.setDstate_kept
    | with_reducible apply Kept.ite
    | with_reducible refine Kept.of_pair (by assumption) ?_
    | split

theorem State.servoRate_kept {M : Nat} {b : State} {q : List Instr} {s : State} {k : Nat} {e : Int} {x : Int} (hs : Kept M b q s) (hM : Sub 0x8040008000 M) : Kept M b q (State.servoRate s k e x) := by
  unfold State.servoRate
  try dsimp only
  repeat' first
    | with_reducible assumption
    | exact Sub.trans (by decide) hM
    | exact Sub.bit hM (by decide)
    | exact Sub.kind hM (by decide) _
    | (intro _; try dsimp only)
    | with_reducible apply State.setRate_kept
    | with_reducible apply State.tookFree_kept
    | with_reducible apply Kept.ite
    | with_reducible refine Kept.of_pair (by assumption) ?_
    | split

theorem State.servo_kept {M : Nat} {b : State} {q : List Instr} {s : State} {k : Nat} {m : Nat} {era : Nat} {x : Int} (hs : Kept M b q s) (hM : Sub 0x8040008808 M) : Kept M b q (State.servo s k m era x) := by
  unfold State.servo
  try dsimp only
  repeat' first
    | with_reducible assumption
    | exact Sub.trans (by decide) hM
    | exact Sub.bit hM (by decide)
    | exact Sub.kind hM (by decide) _
    | (intro _; try dsimp only)
    | with_reducible apply State.fs_kept
    | with_reducible apply State.lockCount_kept
    | with_reducible apply State.raise_kept
    | with_reducible apply State.servoRate_kept
    | with_reducible apply State.setDom_kept
    | with_reducible apply State.setDstate_kept
    | with_reducible apply State.stepOff_kept
    | with_reducible apply Kept.ite
    | with_reducible refine Kept.of_pair (by assumption) ?_
    | split

theorem State.smpUse_kept {M : Nat} {b : State} {q : List Instr} {s : State} {x : Sample} {kind : Nat} (hs : Kept M b q s) (hM : Sub 0x8040008808 M) : Kept M b q (State.smpUse s x kind) := by
  unfold State.smpUse
  try dsimp only
  repeat' first
    | with_reducible assumption
    | exact Sub.trans (by decide) hM
    | exact Sub.bit hM (by decide)
    | exact Sub.kind hM (by decide) _
    | (intro _; try dsimp only)
    | with_reducible apply State.fs_kept
    | with_reducible apply State.inc_kept
    | with_reducible apply State.servo_kept
    | with_reducible apply State.setDom_kept
    | with_reducible apply Kept.ite
    | with_reducible refine Kept.of_pair (by assumption) ?_
    | split

theorem State.smpReturn_kept {M : Nat} {b : State} {q : List Instr} {s : State} {k : Nat} (hs : Kept M b q s) (hM : Sub 0x8000008808 M) : Kept M b q (State.smpReturn s k) := by
  unfold State.smpReturn
  try dsimp only
  repeat' first
    | with_reducible assumption
    | exact Sub.trans (by decide) hM
    | exact Sub.bit hM (by decide)
    | exact Sub.kind hM (by decide) _
    | (intro _; try dsimp only)
    | with_reducible apply State.setDom_kept
    | with_reducible apply State.setDstate_kept
    | with_reducible apply Kept.ite
    | with_reducible refine Kept.of_pair (by assumption) ?_
    | split

theorem State.smpJudge_kept {M : Nat} {b : State} {q : List Instr} {s : State} {x : Sample} (hs : Kept M b q s) (hM : Sub 0x8040008808 M) : Kept M b q (State.smpJudge s x) := by
  unfold State.smpJudge
  try dsimp only
  repeat' first
    | with_reducible assumption
    | exact Sub.trans (by decide) hM
    | exact Sub.bit hM (by decide)
    | exact Sub.kind hM (by decide) _
    | (intro _; try dsimp only)
    | with_reducible apply State.setDom_kept
    | with_reducible apply State.smpReject_kept
    | with_reducible apply State.smpReturn_kept
    | with_reducible apply State.smpUse_kept
    | with_reducible apply Kept.ite
    | with_reducible refine Kept.of_pair (by assumption) ?_
    | split

theorem State.smpWrite_kept {M : Nat} {b : State} {q : List Instr} {s : State} {v : Word} (hs : Kept M b q s) (hM : Sub 0x8040008808 M) : Kept M b q (State.smpWrite s v) := by
  unfold State.smpWrite
  try dsimp only
  repeat' first
    | with_reducible assumption
    | exact Sub.trans (by decide) hM
    | exact Sub.bit hM (by decide)
    | exact Sub.kind hM (by decide) _
    | (intro _; try dsimp only)
    | with_reducible apply State.smpJudge_kept
    | with_reducible apply Kept.ite
    | with_reducible refine Kept.of_pair (by assumption) ?_
    | split

theorem execSampleSubmit_kept {M : Nat} {b : State} {q : List Instr} {who : Initiator} {v : Word} {s : State} (hs : Kept M b q s) (hM : Sub 0x9804001880C M) {r : State} (e : (execSampleSubmit who v s) = .next r) : Kept M b q r := by
  unfold execSampleSubmit at e
  injection e with e; subst e
  try dsimp only
  repeat' first
    | with_reducible assumption
    | exact Sub.trans (by decide) hM
    | exact Sub.bit hM (by decide)
    | exact Sub.kind hM (by decide) _
    | (intro _; try dsimp only)
    | with_reducible apply State.smpWrite_kept
    | with_reducible apply State.write_kept
    | with_reducible apply Kept.ite
    | with_reducible refine Kept.of_pair (by assumption) ?_
    | split

theorem execDomainTimeout_kept {M : Nat} {b : State} {q : List Instr} {dom : Fin 2} {s : State} (hs : Kept M b q s) (hM : Sub 0x8000008808 M) {r : State} (e : (execDomainTimeout dom s) = .next r) : Kept M b q r := by
  unfold execDomainTimeout at e
  injection e with e; subst e
  try dsimp only
  repeat' first
    | with_reducible assumption
    | exact Sub.trans (by decide) hM
    | exact Sub.bit hM (by decide)
    | exact Sub.kind hM (by decide) _
    | (intro _; try dsimp only)
    | with_reducible apply State.raise_kept
    | with_reducible apply State.setDom_kept
    | with_reducible apply State.setDstate_kept
    | with_reducible apply Kept.ite
    | with_reducible refine Kept.of_pair (by assumption) ?_
    | split

theorem State.domBegin_kept {M : Nat} {b : State} {q : List Instr} {s : State} {k : Nat} (hs : Kept M b q s) (hM : Sub 0x8000008808 M) : Kept M b q (State.domBegin s k) := by
  unfold State.domBegin
  try dsimp only
  repeat' first
    | with_reducible assumption
    | exact Sub.trans (by decide) hM
    | exact Sub.bit hM (by decide)
    | exact Sub.kind hM (by decide) _
    | (intro _; try dsimp only)
    | with_reducible apply State.fs_kept
    | with_reducible apply State.setDom_kept
    | with_reducible apply State.setDstate_kept
    | with_reducible apply Kept.ite
    | with_reducible refine Kept.of_pair (by assumption) ?_
    | split

theorem State.tmCompat_kept {M : Nat} {b : State} {q : List Instr} {s : State} {pre : Bool} {v : Word} (hs : Kept M b q s) (hM : Sub 0x8000008808 M) : Kept M b q (State.tmCompat s pre v) := by
  unfold State.tmCompat
  try dsimp only
  repeat' first
    | with_reducible assumption
    | exact Sub.trans (by decide) hM
    | exact Sub.bit hM (by decide)
    | exact Sub.kind hM (by decide) _
    | (intro _; try dsimp only)
    | with_reducible apply State.domBegin_kept
    | with_reducible apply State.wrCompat_kept
    | with_reducible apply Kept.ite
    | with_reducible refine Kept.of_pair (by assumption) ?_
    | split

theorem State.domCommitted_kept {M : Nat} {b : State} {q : List Instr} {before : State} {s : State} {k : Nat} (hbefore : Kept M b q before) (hs : Kept M b q s) (hM : Sub 0x8000008808 M) : Kept M b q (State.domCommitted before s k) := by
  unfold State.domCommitted
  try dsimp only
  repeat' first
    | with_reducible assumption
    | exact Sub.trans (by decide) hM
    | exact Sub.bit hM (by decide)
    | exact Sub.kind hM (by decide) _
    | (intro _; try dsimp only)
    | with_reducible apply State.domBegin_kept
    | with_reducible apply State.fs_kept
    | with_reducible apply State.setDom_kept
    | with_reducible apply State.setRate_kept
    | with_reducible apply State.stepOff_kept
    | with_reducible apply Kept.ite
    | with_reducible refine Kept.of_pair (by assumption) ?_
    | split

theorem State.tmCommitted_kept {M : Nat} {b : State} {q : List Instr} {s : State} {before : State} (hs : Kept M b q s) (hbefore : Kept M b q before) (hM : Sub 0x8000008808 M) : Kept M b q (State.tmCommitted s before) := by
  unfold State.tmCommitted
  try dsimp only
  repeat' first
    | with_reducible assumption
    | exact Sub.trans (by decide) hM
    | exact Sub.bit hM (by decide)
    | exact Sub.kind hM (by decide) _
    | (intro _; try dsimp only)
    | with_reducible apply State.domCommitted_kept
    | with_reducible apply State.select_kept
    | with_reducible apply Kept.ite
    | with_reducible refine Kept.of_pair (by assumption) ?_
    | split
    | with_reducible refine Kept.set_tm ?_ ?_

theorem execSyncOriginate_kept {M : Nat} {b : State} {q : List Instr} {dom : Fin 2} {s : State} (hs : Kept M b q s) (hM : Sub 0x8000008800 M) {r : State} (e : (execSyncOriginate dom s) = .next r) : Kept M b q r := by
  unfold execSyncOriginate at e
  injection e with e; subst e
  try dsimp only
  repeat' first
    | with_reducible assumption
    | exact Sub.trans (by decide) hM
    | exact Sub.bit hM (by decide)
    | exact Sub.kind hM (by decide) _
    | (intro _; try dsimp only)
    | with_reducible apply State.originate_kept
    | with_reducible apply State.setDom_kept
    | with_reducible apply State.tmSnap_kept
    | with_reducible apply Kept.ite
    | with_reducible refine Kept.of_pair (by assumption) ?_
    | split

theorem execPdRequestSend_kept {M : Nat} {b : State} {q : List Instr} {port : RingPort} {sub : Fin 26} {s : State} (hs : Kept M b q s) (hM : Sub 0x2000 M) {r : State} (e : (execPdRequestSend port sub s) = .next r) : Kept M b q r := by
  unfold execPdRequestSend at e
  injection e with e; subst e
  try dsimp only
  repeat' first
    | with_reducible assumption
    | exact Sub.trans (by decide) hM
    | exact Sub.bit hM (by decide)
    | exact Sub.kind hM (by decide) _
    | (intro _; try dsimp only)
    | with_reducible apply bit_ringPage
    | with_reducible apply bit_lanePage
    | with_reducible apply State.setPort_kept
    | with_reducible apply Kept.ite
    | with_reducible refine Kept.of_pair (by assumption) ?_
    | split

theorem execPdReqReceived_kept {M : Nat} {b : State} {q : List Instr} {port : RingPort} {bytes : List Byte} {turn : BitVec 32} {s : State} (hs : Kept M b q s) (hM : Sub 0x2000 M) {r : State} (e : (execPdReqReceived port bytes turn s) = .next r) : Kept M b q r := by
  unfold execPdReqReceived at e
  injection e with e; subst e
  try dsimp only
  repeat' first
    | with_reducible assumption
    | exact Sub.trans (by decide) hM
    | exact Sub.bit hM (by decide)
    | exact Sub.kind hM (by decide) _
    | (intro _; try dsimp only)
    | with_reducible apply bit_ringPage
    | with_reducible apply bit_lanePage
    | with_reducible apply State.setPort_kept
    | with_reducible apply Kept.ite
    | with_reducible refine Kept.of_pair (by assumption) ?_
    | split

theorem State.pdSample_kept {M : Nat} {b : State} {q : List Instr} {s : State} {p : RingPort} {v : Int} (hs : Kept M b q s) (hM : Sub 0x80800002808 M) : Kept M b q (State.pdSample s p v) := by
  unfold State.pdSample
  try dsimp only
  repeat' first
    | with_reducible assumption
    | exact Sub.trans (by decide) hM
    | exact Sub.bit hM (by decide)
    | exact Sub.kind hM (by decide) _
    | (intro _; try dsimp only)
    | with_reducible apply bit_ringPage
    | with_reducible apply bit_lanePage
    | with_reducible apply State.fs_kept
    | with_reducible apply State.inc_kept
    | with_reducible apply State.raise_kept
    | with_reducible apply State.raiseIf_kept
    | with_reducible apply State.setPort_kept
    | with_reducible apply Kept.ite
    | with_reducible refine Kept.of_pair (by assumption) ?_
    | split

theorem execPdRespReceived_kept {M : Nat} {b : State} {q : List Instr} {port : RingPort} {bytes : List Byte} {sub : Fin 26} {s : State} (hs : Kept M b q s) (hM : Sub 0x80800002808 M) {r : State} (e : (execPdRespReceived port bytes sub s) = .next r) : Kept M b q r := by
  unfold execPdRespReceived at e
  injection e with e; subst e
  try dsimp only
  repeat' first
    | with_reducible assumption
    | exact Sub.trans (by decide) hM
    | exact Sub.bit hM (by decide)
    | exact Sub.kind hM (by decide) _
    | (intro _; try dsimp only)
    | with_reducible apply bit_ringPage
    | with_reducible apply bit_lanePage
    | with_reducible apply State.pdSample_kept
    | with_reducible apply State.setPort_kept
    | with_reducible apply Kept.ite
    | with_reducible refine Kept.of_pair (by assumption) ?_
    | split

end Sys2Proof.Machine
end

