-- ==== Sys2Proof/Laws/KeptEngine.lean ====
section
/-! SUPPORT. What the functions of Machine/Engine.lean keep (Laws/Kept.lean). -/
namespace Sys2Proof.Machine

theorem State.setChan_kept {M : Nat} {b : State} {q : List Instr} {s : State} {n : Nat} {c : Nat} {x : Chan} (hs : Kept M b q s) (hM : Sub 0x40000 M) : Kept M b q (State.setChan s n c x) := by
  unfold State.setChan
  try dsimp only
  repeat' first
    | with_reducible assumption
    | exact Sub.trans (by decide) hM
    | exact Sub.bit hM (by decide)
    | exact Sub.kind hM (by decide) _
    | (intro _; try dsimp only)
    | with_reducible apply Kept.ite
    | with_reducible refine Kept.of_pair (by assumption) ?_
    | split
    | with_reducible refine Kept.set_chans ?_ ?_

theorem State.enCnt_kept {M : Nat} {b : State} {q : List Instr} {s : State} {g : Nat} {i : Nat} (hs : Kept M b q s) (hM : Sub 0x808 M) (hp1 : M.testBit (kindBit (kindOf g)) = true) : Kept M b q (State.enCnt s g i) := by
  unfold State.enCnt
  try dsimp only
  repeat' first
    | with_reducible assumption
    | exact Sub.trans (by decide) hM
    | exact Sub.bit hM (by decide)
    | exact Sub.kind hM (by decide) _
    | (intro _; try dsimp only)
    | with_reducible apply State.inc_kept
    | with_reducible apply State.raise_kept
    | with_reducible apply Kept.ite
    | with_reducible refine Kept.of_pair (by assumption) ?_
    | split

theorem State.place_kept {M : Nat} {b : State} {q : List Instr} {s : State} {n : Nat} {c : Nat} {u : Int} {level : Bool} {en : Bool} (hs : Kept M b q s) (hM : Sub 0x40000 M) : Kept M b q (State.place s n c u level en) := by
  unfold State.place
  try dsimp only
  repeat' first
    | with_reducible assumption
    | exact Sub.trans (by decide) hM
    | exact Sub.bit hM (by decide)
    | exact Sub.kind hM (by decide) _
    | (intro _; try dsimp only)
    | with_reducible apply State.setChan_kept
    | with_reducible apply Kept.ite
    | with_reducible refine Kept.of_pair (by assumption) ?_
    | split

theorem State.recSend_kept {M : Nat} {b : State} {q : List Instr} {s : State} {n : Nat} {c : Nat} {x3 : RecBuf} (hs : Kept M b q s) (hM : Sub 0x40800 M) : Kept M b q (State.recSend s n c x3) := by
  unfold State.recSend
  try dsimp only
  repeat' first
    | with_reducible assumption
    | exact Sub.trans (by decide) hM
    | exact Sub.bit hM (by decide)
    | exact Sub.kind hM (by decide) _
    | (intro _; try dsimp only)
    | with_reducible apply bit_enOf
    | with_reducible apply State.originate_kept
    | with_reducible apply State.setChan_kept
    | with_reducible apply Kept.ite
    | with_reducible refine Kept.of_pair (by assumption) ?_
    | split

theorem State.recClose_kept {M : Nat} {b : State} {q : List Instr} {s : State} {n : Nat} {c : Nat} {flags : Nat} (hs : Kept M b q s) (hM : Sub 0x1000000040808 M) : Kept M b q (State.recClose s n c flags) := by
  unfold State.recClose
  try dsimp only
  repeat' first
    | with_reducible assumption
    | exact Sub.trans (by decide) hM
    | exact Sub.bit hM (by decide)
    | exact Sub.kind hM (by decide) _
    | (intro _; try dsimp only)
    | with_reducible apply bit_enOf
    | with_reducible apply State.raise_kept
    | with_reducible apply State.recSend_kept
    | with_reducible apply State.setChan_kept
    | with_reducible apply Kept.ite
    | with_reducible refine Kept.of_pair (by assumption) ?_
    | split

theorem State.sendHeld_kept {M : Nat} {b : State} {q : List Instr} {s : State} {n : Nat} {c : Nat} (hs : Kept M b q s) (hM : Sub 0x40800 M) : Kept M b q (State.sendHeld s n c) := by
  unfold State.sendHeld
  try dsimp only
  repeat' first
    | with_reducible assumption
    | exact Sub.trans (by decide) hM
    | exact Sub.bit hM (by decide)
    | exact Sub.kind hM (by decide) _
    | (intro _; try dsimp only)
    | with_reducible apply State.recSend_kept
    | with_reducible apply State.setChan_kept
    | with_reducible apply Kept.foldl
    | with_reducible apply Kept.foldlP
    | with_reducible apply Kept.ite
    | with_reducible refine Kept.of_pair (by assumption) ?_
    | split

theorem State.recAdd_kept {M : Nat} {b : State} {q : List Instr} {s : State} {n : Nat} {c : Nat} {rtype : Nat} {flags : Nat} {u : Int} {item : List Byte} (hs : Kept M b q s) (hM : Sub 0x40000 M) : Kept M b q (State.recAdd s n c rtype flags u item) := by
  unfold State.recAdd
  try dsimp only
  repeat' first
    | with_reducible assumption
    | exact Sub.trans (by decide) hM
    | exact Sub.bit hM (by decide)
    | exact Sub.kind hM (by decide) _
    | (intro _; try dsimp only)
    | with_reducible apply State.setChan_kept
    | with_reducible apply Kept.ite
    | with_reducible refine Kept.of_pair (by assumption) ?_
    | split

theorem State.recBatch_kept {M : Nat} {b : State} {q : List Instr} {s : State} {n : Nat} {c : Nat} {rtype : Nat} {u : Int} {item : List Byte} (hs : Kept M b q s) (hM : Sub 0x1000000040808 M) : Kept M b q (State.recBatch s n c rtype u item) := by
  unfold State.recBatch
  try dsimp only
  repeat' first
    | with_reducible assumption
    | exact Sub.trans (by decide) hM
    | exact Sub.bit hM (by decide)
    | exact Sub.kind hM (by decide) _
    | (intro _; try dsimp only)
    | with_reducible apply bit_enOf
    | with_reducible apply State.recAdd_kept
    | with_reducible apply State.recClose_kept
    | with_reducible apply Kept.ite
    | with_reducible refine Kept.of_pair (by assumption) ?_
    | split

theorem execRecordFlushTimeout_kept {M : Nat} {b : State} {q : List Instr} {pitch : Pitch} {chan : Fin 8} {s : State} (hs : Kept M b q s) (hM : Sub 0x1000000040808 M) {r : State} (e : (execRecordFlushTimeout pitch chan s) = .next r) : Kept M b q r := by
  unfold execRecordFlushTimeout at e
  injection e with e; subst e
  try dsimp only
  repeat' first
    | with_reducible assumption
    | exact Sub.trans (by decide) hM
    | exact Sub.bit hM (by decide)
    | exact Sub.kind hM (by decide) _
    | (intro _; try dsimp only)
    | with_reducible apply bit_enOf
    | with_reducible apply State.recClose_kept
    | with_reducible apply Kept.ite
    | with_reducible refine Kept.of_pair (by assumption) ?_
    | split

theorem State.fifoPop_kept {M : Nat} {b : State} {q : List Instr} {s : State} {n : Nat} {c : Nat} (hs : Kept M b q s) (hM : Sub 0x1000000040808 M) : Kept M b q (State.fifoPop s n c) := by
  unfold State.fifoPop
  try dsimp only
  repeat' first
    | with_reducible assumption
    | exact Sub.trans (by decide) hM
    | exact Sub.bit hM (by decide)
    | exact Sub.kind hM (by decide) _
    | (intro _; try dsimp only)
    | with_reducible apply bit_enOf
    | with_reducible apply State.raiseIf_kept
    | with_reducible apply State.setChan_kept
    | with_reducible apply Kept.ite
    | with_reducible refine Kept.of_pair (by assumption) ?_
    | split

theorem State.txDrop_kept {M : Nat} {b : State} {q : List Instr} {s : State} {n : Nat} (hs : Kept M b q s) (hM : Sub 0x800000000808 M) : Kept M b q (State.txDrop s n) := by
  unfold State.txDrop
  try dsimp only
  repeat' first
    | with_reducible assumption
    | exact Sub.trans (by decide) hM
    | exact Sub.bit hM (by decide)
    | exact Sub.kind hM (by decide) _
    | (intro _; try dsimp only)
    | with_reducible apply bit_ecPage
    | with_reducible apply State.inc_kept
    | with_reducible apply State.raise_kept
    | with_reducible apply Kept.ite
    | with_reducible refine Kept.of_pair (by assumption) ?_
    | split

theorem State.startOut_kept {M : Nat} {b : State} {q : List Instr} {s : State} {n : Nat} {c : Nat} (hs : Kept M b q s) (hM : Sub 0x40000 M) : Kept M b q (State.startOut s n c) := by
  unfold State.startOut
  try dsimp only
  repeat' first
    | with_reducible assumption
    | exact Sub.trans (by decide) hM
    | exact Sub.bit hM (by decide)
    | exact Sub.kind hM (by decide) _
    | (intro _; try dsimp only)
    | with_reducible apply bit_enOf
    | with_reducible apply State.place_kept
    | with_reducible apply Kept.ite
    | with_reducible refine Kept.of_pair (by assumption) ?_
    | split

theorem State.reIdle_kept {M : Nat} {b : State} {q : List Instr} {s : State} {x1 : State} {n : Nat} {c : Nat} (hs : Kept M b q s) (hx1 : Kept M b q x1) (hM : Sub 0x40000 M) : Kept M b q (State.reIdle s x1 n c) := by
  unfold State.reIdle
  try dsimp only
  repeat' first
    | with_reducible assumption
    | exact Sub.trans (by decide) hM
    | exact Sub.bit hM (by decide)
    | exact Sub.kind hM (by decide) _
    | (intro _; try dsimp only)
    | with_reducible apply bit_enOf
    | with_reducible apply State.place_kept
    | with_reducible apply State.setChan_kept
    | with_reducible apply Kept.ite
    | with_reducible refine Kept.of_pair (by assumption) ?_
    | split

theorem State.stopOut_kept {M : Nat} {b : State} {q : List Instr} {s : State} {n : Nat} {c : Nat} (hs : Kept M b q s) (hM : Sub 0x40000 M) : Kept M b q (State.stopOut s n c) := by
  unfold State.stopOut
  try dsimp only
  repeat' first
    | with_reducible assumption
    | exact Sub.trans (by decide) hM
    | exact Sub.bit hM (by decide)
    | exact Sub.kind hM (by decide) _
    | (intro _; try dsimp only)
    | with_reducible apply bit_enOf
    | with_reducible apply State.place_kept
    | with_reducible apply State.setChan_kept
    | with_reducible apply Kept.ite
    | with_reducible refine Kept.of_pair (by assumption) ?_
    | split

theorem State.enClrCnt_kept {M : Nat} {b : State} {q : List Instr} {s : State} {g : Nat} (hs : Kept M b q s) (hM : Sub 0x0 M) (hp1 : M.testBit (kindBit (kindOf g)) = true) : Kept M b q (State.enClrCnt s g) := by
  unfold State.enClrCnt
  try dsimp only
  repeat' first
    | with_reducible assumption
    | exact Sub.trans (by decide) hM
    | exact Sub.bit hM (by decide)
    | exact Sub.kind hM (by decide) _
    | (intro _; try dsimp only)
    | with_reducible apply State.wr_kept
    | with_reducible apply Kept.foldl
    | with_reducible apply Kept.foldlP
    | with_reducible apply Kept.ite
    | with_reducible refine Kept.of_pair (by assumption) ?_
    | split

theorem State.restartRegs_kept {M : Nat} {b : State} {q : List Instr} {s : State} {g : Nat} (hs : Kept M b q s) (hM : Sub 0x0 M) (hp1 : M.testBit (kindBit (kindOf g)) = true) : Kept M b q (State.restartRegs s g) := by
  unfold State.restartRegs
  try dsimp only
  repeat' first
    | with_reducible assumption
    | exact Sub.trans (by decide) hM
    | exact Sub.bit hM (by decide)
    | exact Sub.kind hM (by decide) _
    | (intro _; try dsimp only)
    | with_reducible apply State.enClrCnt_kept
    | with_reducible apply State.fs_kept
    | with_reducible apply State.wr_kept
    | with_reducible apply Kept.ite
    | with_reducible refine Kept.of_pair (by assumption) ?_
    | split

theorem State.restartChan_kept {M : Nat} {b : State} {q : List Instr} {n : Nat} {s : State} {c : Nat} (hs : Kept M b q s) (hM : Sub 0x1000000040000 M) : Kept M b q (State.restartChan n s c) := by
  unfold State.restartChan
  try dsimp only
  repeat' first
    | with_reducible assumption
    | exact Sub.trans (by decide) hM
    | exact Sub.bit hM (by decide)
    | exact Sub.kind hM (by decide) _
    | (intro _; try dsimp only)
    | with_reducible apply bit_enOf
    | with_reducible apply State.restartRegs_kept
    | with_reducible apply State.setChan_kept
    | with_reducible apply Kept.ite
    | with_reducible refine Kept.of_pair (by assumption) ?_
    | split

theorem State.restartOut_kept {M : Nat} {b : State} {q : List Instr} {n : Nat} {s : State} {c : Nat} (hs : Kept M b q s) (hM : Sub 0x40000 M) : Kept M b q (State.restartOut n s c) := by
  unfold State.restartOut
  try dsimp only
  repeat' first
    | with_reducible assumption
    | exact Sub.trans (by decide) hM
    | exact Sub.bit hM (by decide)
    | exact Sub.kind hM (by decide) _
    | (intro _; try dsimp only)
    | with_reducible apply bit_enOf
    | with_reducible apply State.startOut_kept
    | with_reducible apply Kept.ite
    | with_reducible refine Kept.of_pair (by assumption) ?_
    | split

theorem State.restartCluster_kept {M : Nat} {b : State} {q : List Instr} {s : State} {n : Nat} (hs : Kept M b q s) (hM : Sub 0x1800000040808 M) : Kept M b q (State.restartCluster s n) := by
  unfold State.restartCluster
  try dsimp only
  repeat' first
    | with_reducible assumption
    | exact Sub.trans (by decide) hM
    | exact Sub.bit hM (by decide)
    | exact Sub.kind hM (by decide) _
    | (intro _; try dsimp only)
    | with_reducible apply bit_ecPage
    | with_reducible apply State.raise_kept
    | with_reducible apply State.restartChan_kept
    | with_reducible apply State.restartOut_kept
    | with_reducible apply Kept.foldl
    | with_reducible apply Kept.foldlP
    | with_reducible apply Kept.ite
    | with_reducible refine Kept.of_pair (by assumption) ?_
    | split

theorem State.loadModeRegs_kept {M : Nat} {b : State} {q : List Instr} {s : State} {g : Nat} {m : Nat} (hs : Kept M b q s) (hM : Sub 0x1 M) (hp1 : M.testBit (kindBit (kindOf g)) = true) : Kept M b q (State.loadModeRegs s g m) := by
  unfold State.loadModeRegs
  try dsimp only
  repeat' first
    | with_reducible assumption
    | exact Sub.trans (by decide) hM
    | exact Sub.bit hM (by decide)
    | exact Sub.kind hM (by decide) _
    | (intro _; try dsimp only)
    | with_reducible apply State.wr_kept
    | with_reducible apply Kept.foldl
    | with_reducible apply Kept.foldlP
    | with_reducible apply Kept.ite
    | with_reducible refine Kept.of_pair (by assumption) ?_
    | split
    | with_reducible refine Kept.set_shad ?_ ?_

theorem State.enModeWrite_kept {M : Nat} {b : State} {q : List Instr} {s : State} {pre : Bool} {g : Nat} {v : Word} (hs : Kept M b q s) (hM : Sub 0x440809 M) (hp2 : M.testBit (kindBit (kindOf g)) = true) : Kept M b q (State.enModeWrite s pre g v) := by
  unfold State.enModeWrite
  try dsimp only
  repeat' first
    | with_reducible assumption
    | exact Sub.trans (by decide) hM
    | exact Sub.bit hM (by decide)
    | exact Sub.kind hM (by decide) _
    | (intro _; try dsimp only)
    | with_reducible apply State.enClrCnt_kept
    | with_reducible apply State.fs_kept
    | with_reducible apply State.loadModeRegs_kept
    | with_reducible apply State.mirrorCfg_kept
    | with_reducible apply State.raise_kept
    | with_reducible apply State.setChan_kept
    | with_reducible apply Kept.ite
    | with_reducible refine Kept.of_pair (by assumption) ?_
    | split

theorem execEnModeWrite_kept {M : Nat} {b : State} {q : List Instr} {who : Initiator} {engine : Engine} {v : Word} {s : State} (hs : Kept M b q s) (hM : Sub 0x109000045080D M) {r : State} (e : (execEnModeWrite who engine v s) = .next r) : Kept M b q r := by
  unfold execEnModeWrite at e
  injection e with e; subst e
  try dsimp only
  repeat' first
    | with_reducible assumption
    | exact Sub.trans (by decide) hM
    | exact Sub.bit hM (by decide)
    | exact Sub.kind hM (by decide) _
    | (intro _; try dsimp only)
    | with_reducible apply bit_enReg
    | with_reducible apply State.enModeWrite_kept
    | with_reducible apply State.write_kept
    | with_reducible apply Kept.ite
    | with_reducible refine Kept.of_pair (by assumption) ?_
    | split

theorem execEnClrCnt_kept {M : Nat} {b : State} {q : List Instr} {who : Initiator} {engine : Engine} {s : State} (hs : Kept M b q s) (hM : Sub 0x109000001080C M) {r : State} (e : (execEnClrCnt who engine s) = .next r) : Kept M b q r := by
  unfold execEnClrCnt at e
  injection e with e; subst e
  try dsimp only
  repeat' first
    | with_reducible assumption
    | exact Sub.trans (by decide) hM
    | exact Sub.bit hM (by decide)
    | exact Sub.kind hM (by decide) _
    | (intro _; try dsimp only)
    | with_reducible apply bit_enReg
    | with_reducible apply State.enClrCnt_kept
    | with_reducible apply State.write_kept
    | with_reducible apply Kept.ite
    | with_reducible refine Kept.of_pair (by assumption) ?_
    | split

theorem State.ecClrCnt_kept {M : Nat} {b : State} {q : List Instr} {s : State} {n : Nat} (hs : Kept M b q s) (hM : Sub 0x800000000000 M) : Kept M b q (State.ecClrCnt s n) := by
  unfold State.ecClrCnt
  try dsimp only
  repeat' first
    | with_reducible assumption
    | exact Sub.trans (by decide) hM
    | exact Sub.bit hM (by decide)
    | exact Sub.kind hM (by decide) _
    | (intro _; try dsimp only)
    | with_reducible apply bit_ecPage
    | with_reducible apply State.wr_kept
    | with_reducible apply Kept.ite
    | with_reducible refine Kept.of_pair (by assumption) ?_
    | split

theorem execEcClrCnt_kept {M : Nat} {b : State} {q : List Instr} {who : Initiator} {cluster : Pitch} {s : State} (hs : Kept M b q s) (hM : Sub 0x89000001080C M) {r : State} (e : (execEcClrCnt who cluster s) = .next r) : Kept M b q r := by
  unfold execEcClrCnt at e
  injection e with e; subst e
  try dsimp only
  repeat' first
    | with_reducible assumption
    | exact Sub.trans (by decide) hM
    | exact Sub.bit hM (by decide)
    | exact Sub.kind hM (by decide) _
    | (intro _; try dsimp only)
    | with_reducible apply bit_ecPage
    | with_reducible apply State.ecClrCnt_kept
    | with_reducible apply State.write_kept
    | with_reducible apply Kept.ite
    | with_reducible refine Kept.of_pair (by assumption) ?_
    | split

theorem State.migRefuse_kept {M : Nat} {b : State} {q : List Instr} {s : State} {n : Nat} {c : Nat} (hs : Kept M b q s) (hM : Sub 0x800000000808 M) : Kept M b q (State.migRefuse s n c) := by
  unfold State.migRefuse
  try dsimp only
  repeat' first
    | with_reducible assumption
    | exact Sub.trans (by decide) hM
    | exact Sub.bit hM (by decide)
    | exact Sub.kind hM (by decide) _
    | (intro _; try dsimp only)
    | with_reducible apply bit_ecPage
    | with_reducible apply State.fs_kept
    | with_reducible apply State.raise_kept
    | with_reducible apply Kept.ite
    | with_reducible refine Kept.of_pair (by assumption) ?_
    | split

theorem State.copyPage_kept {M : Nat} {b : State} {q : List Instr} {s : State} {src : Nat} {dst : Nat} (hs : Kept M b q s) (hM : Sub 0x1 M) (hp2 : M.testBit (kindBit (kindOf dst)) = true) : Kept M b q (State.copyPage s src dst) := by
  unfold State.copyPage
  try dsimp only
  repeat' first
    | with_reducible assumption
    | exact Sub.trans (by decide) hM
    | exact Sub.bit hM (by decide)
    | exact Sub.kind hM (by decide) _
    | (intro _; try dsimp only)
    | with_reducible apply State.dropRegs_kept
    | with_reducible apply State.wr_kept
    | with_reducible apply State.wrSh_kept
    | with_reducible apply Kept.foldl
    | with_reducible apply Kept.foldlP
    | with_reducible apply Kept.ite
    | with_reducible refine Kept.of_pair (by assumption) ?_
    | split

theorem State.migRequest_kept {M : Nat} {b : State} {q : List Instr} {s : State} {n : Nat} {c : Nat} {urgent : Bool} {cause : Nat} (hs : Kept M b q s) (hM : Sub 0x1800000040809 M) : Kept M b q (State.migRequest s n c urgent cause) := by
  unfold State.migRequest
  try dsimp only
  repeat' first
    | with_reducible assumption
    | exact Sub.trans (by decide) hM
    | exact Sub.bit hM (by decide)
    | exact Sub.kind hM (by decide) _
    | (intro _; try dsimp only)
    | with_reducible apply bit_enOf
    | with_reducible apply bit_enPage
    | with_reducible apply bit_ecPage
    | with_reducible apply State.copyPage_kept
    | with_reducible apply State.fs_kept
    | with_reducible apply State.migRefuse_kept
    | with_reducible apply State.setChan_kept
    | with_reducible apply Kept.ite
    | with_reducible refine Kept.of_pair (by assumption) ?_
    | split

theorem State.ecMigWrite_kept {M : Nat} {b : State} {q : List Instr} {s : State} {n : Nat} {v : Word} (hs : Kept M b q s) (hM : Sub 0x1800000040809 M) : Kept M b q (State.ecMigWrite s n v) := by
  unfold State.ecMigWrite
  try dsimp only
  repeat' first
    | with_reducible assumption
    | exact Sub.trans (by decide) hM
    | exact Sub.bit hM (by decide)
    | exact Sub.kind hM (by decide) _
    | (intro _; try dsimp only)
    | with_reducible apply State.migRequest_kept
    | with_reducible apply Kept.ite
    | with_reducible refine Kept.of_pair (by assumption) ?_
    | split

theorem execEcMigCmd_kept {M : Nat} {b : State} {q : List Instr} {who : Initiator} {cluster : Pitch} {v : Word} {s : State} (hs : Kept M b q s) (hM : Sub 0x189000005080D M) {r : State} (e : (execEcMigCmd who cluster v s) = .next r) : Kept M b q r := by
  unfold execEcMigCmd at e
  injection e with e; subst e
  try dsimp only
  repeat' first
    | with_reducible assumption
    | exact Sub.trans (by decide) hM
    | exact Sub.bit hM (by decide)
    | exact Sub.kind hM (by decide) _
    | (intro _; try dsimp only)
    | with_reducible apply bit_ecPage
    | with_reducible apply State.ecMigWrite_kept
    | with_reducible apply State.write_kept
    | with_reducible apply Kept.ite
    | with_reducible refine Kept.of_pair (by assumption) ?_
    | split

theorem execEcMigUrgent_kept {M : Nat} {b : State} {q : List Instr} {who : Initiator} {cluster : Pitch} {v : Word} {s : State} (hs : Kept M b q s) (hM : Sub 0x189000005080D M) {r : State} (e : (execEcMigUrgent who cluster v s) = .next r) : Kept M b q r := by
  unfold execEcMigUrgent at e
  injection e with e; subst e
  try dsimp only
  repeat' first
    | with_reducible assumption
    | exact Sub.trans (by decide) hM
    | exact Sub.bit hM (by decide)
    | exact Sub.kind hM (by decide) _
    | (intro _; try dsimp only)
    | with_reducible apply bit_ecPage
    | with_reducible apply State.ecMigWrite_kept
    | with_reducible apply State.write_kept
    | with_reducible apply Kept.ite
    | with_reducible refine Kept.of_pair (by assumption) ?_
    | split

theorem execMigrationTimeout_kept {M : Nat} {b : State} {q : List Instr} {cluster : Pitch} {s : State} (hs : Kept M b q s) (hM : Sub 0x800000040808 M) {r : State} (e : (execMigrationTimeout cluster s) = .next r) : Kept M b q r := by
  unfold execMigrationTimeout at e
  injection e with e; subst e
  try dsimp only
  repeat' first
    | with_reducible assumption
    | exact Sub.trans (by decide) hM
    | exact Sub.bit hM (by decide)
    | exact Sub.kind hM (by decide) _
    | (intro _; try dsimp only)
    | with_reducible apply bit_ecPage
    | with_reducible apply State.fs_kept
    | with_reducible apply State.raise_kept
    | with_reducible apply State.setChan_kept
    | with_reducible apply Kept.ite
    | with_reducible refine Kept.of_pair (by assumption) ?_
    | split

theorem State.migSwitch_kept {M : Nat} {b : State} {q : List Instr} {s : State} {n : Nat} {c : Nat} {urgent : Bool} {cause : Nat} (hs : Kept M b q s) (hM : Sub 0x29800000040A09 M) : Kept M b q (State.migSwitch s n c urgent cause) := by
  unfold State.migSwitch
  try dsimp only
  repeat' first
    | with_reducible assumption
    | exact Sub.trans (by decide) hM
    | exact Sub.bit hM (by decide)
    | exact Sub.kind hM (by decide) _
    | (intro _; try dsimp only)
    | with_reducible apply bit_enOf
    | with_reducible apply bit_enPage
    | with_reducible apply bit_ecPage
    | with_reducible apply State.copyPage_kept
    | with_reducible apply State.fs_kept
    | with_reducible apply State.inc_kept
    | with_reducible apply State.raise_kept
    | with_reducible apply State.recordRepair_kept
    | with_reducible apply State.restartOut_kept
    | with_reducible apply State.restartRegs_kept
    | with_reducible apply State.setChan_kept
    | with_reducible apply State.setState_kept
    | with_reducible apply State.wr_kept
    | with_reducible apply Kept.ite
    | with_reducible refine Kept.of_pair (by assumption) ?_
    | split

end Sys2Proof.Machine
end

