-- ==== Sys2Proof/Laws/KeptAsync.lean ====
section
/-! SUPPORT. What the functions of Machine/Async.lean keep (Laws/Kept.lean). -/
namespace Sys2Proof.Machine

theorem State.asAdd_kept {M : Nat} {b : State} {q : List Instr} {s : State} {n : Nat} {c : Nat} {u : Int} {item : List Byte} {max : Nat} (hs : Kept M b q s) (hM : Sub 0x1000000040808 M) : Kept M b q (State.asAdd s n c u item max) := by
  unfold State.asAdd
  try dsimp only
  repeat' first
    | with_reducible assumption
    | exact Sub.trans (by decide) hM
    | exact Sub.bit hM (by decide)
    | exact Sub.kind hM (by decide) _
    | (intro _; try dsimp only)
    | with_reducible apply bit_enOf
    | with_reducible apply State.recAdd_kept
    | with_reducible apply State.recClose_kept
    | with_reducible apply State.setChan_kept
    | with_reducible apply Kept.ite
    | with_reducible refine Kept.of_pair (by assumption) ?_
    | split

theorem State.asFrame_kept {M : Nat} {b : State} {q : List Instr} {s : State} {n : Nat} {c : Nat} {u : Int} {data : Nat} {item : List Byte} (hs : Kept M b q s) (hM : Sub 0x1000000040808 M) : Kept M b q (State.asFrame s n c u data item) := by
  unfold State.asFrame
  try dsimp only
  repeat' first
    | with_reducible assumption
    | exact Sub.trans (by decide) hM
    | exact Sub.bit hM (by decide)
    | exact Sub.kind hM (by decide) _
    | (intro _; try dsimp only)
    | with_reducible apply bit_enOf
    | with_reducible apply State.asAdd_kept
    | with_reducible apply State.recClose_kept
    | with_reducible apply State.setChan_kept
    | with_reducible apply Kept.ite
    | with_reducible refine Kept.of_pair (by assumption) ?_
    | split

theorem State.asEnd_kept {M : Nat} {b : State} {q : List Instr} {s : State} {n : Nat} {c : Nat} {x : AsyncRx} {stop : Bool} {u : Int} (hs : Kept M b q s) (hM : Sub 0x1000000040808 M) : Kept M b q (State.asEnd s n c x stop u) := by
  unfold State.asEnd
  try dsimp only
  repeat' first
    | with_reducible assumption
    | exact Sub.trans (by decide) hM
    | exact Sub.bit hM (by decide)
    | exact Sub.kind hM (by decide) _
    | (intro _; try dsimp only)
    | with_reducible apply bit_enOf
    | with_reducible apply State.asFrame_kept
    | with_reducible apply State.enCnt_kept
    | with_reducible apply State.setChan_kept
    | with_reducible apply Kept.ite
    | with_reducible refine Kept.of_pair (by assumption) ?_
    | split

theorem State.asJudge_kept {M : Nat} {b : State} {q : List Instr} {s : State} {n : Nat} {c : Nat} {x : AsyncRx} {lvl : Bool} {unsure : Bool} {u : Int} (hs : Kept M b q s) (hM : Sub 0x1000000040808 M) : Kept M b q (State.asJudge s n c x lvl unsure u) := by
  unfold State.asJudge
  try dsimp only
  repeat' first
    | with_reducible assumption
    | exact Sub.trans (by decide) hM
    | exact Sub.bit hM (by decide)
    | exact Sub.kind hM (by decide) _
    | (intro _; try dsimp only)
    | with_reducible apply bit_enOf
    | with_reducible apply State.asEnd_kept
    | with_reducible apply State.enCnt_kept
    | with_reducible apply State.setChan_kept
    | with_reducible apply Kept.ite
    | with_reducible refine Kept.of_pair (by assumption) ?_
    | split

theorem State.asStart_kept {M : Nat} {b : State} {q : List Instr} {s : State} {n : Nat} {c : Nat} {r : Rep} (hs : Kept M b q s) (hM : Sub 0x40000 M) : Kept M b q (State.asStart s n c r) := by
  unfold State.asStart
  try dsimp only
  repeat' first
    | with_reducible assumption
    | exact Sub.trans (by decide) hM
    | exact Sub.bit hM (by decide)
    | exact Sub.kind hM (by decide) _
    | (intro _; try dsimp only)
    | with_reducible apply bit_enOf
    | with_reducible apply State.setChan_kept
    | with_reducible apply Kept.ite
    | with_reducible refine Kept.of_pair (by assumption) ?_
    | split

theorem State.asReport_kept {M : Nat} {b : State} {q : List Instr} {s : State} {n : Nat} {c : Nat} {r : Rep} (hs : Kept M b q s) (hM : Sub 0x1000000040808 M) : Kept M b q (State.asReport s n c r) := by
  unfold State.asReport
  try dsimp only
  repeat' first
    | with_reducible assumption
    | exact Sub.trans (by decide) hM
    | exact Sub.bit hM (by decide)
    | exact Sub.kind hM (by decide) _
    | (intro _; try dsimp only)
    | with_reducible apply bit_enOf
    | with_reducible apply State.asJudge_kept
    | with_reducible apply State.asStart_kept
    | with_reducible apply State.setChan_kept
    | with_reducible apply Kept.ite
    | with_reducible refine Kept.of_pair (by assumption) ?_
    | split

theorem State.asGap_kept {M : Nat} {b : State} {q : List Instr} {s : State} {n : Nat} {c : Nat} {fin : Int} (hs : Kept M b q s) (hM : Sub 0x1000000040808 M) : Kept M b q (State.asGap s n c fin) := by
  unfold State.asGap
  try dsimp only
  repeat' first
    | with_reducible assumption
    | exact Sub.trans (by decide) hM
    | exact Sub.bit hM (by decide)
    | exact Sub.kind hM (by decide) _
    | (intro _; try dsimp only)
    | with_reducible apply bit_enOf
    | with_reducible apply State.enCnt_kept
    | with_reducible apply State.recClose_kept
    | with_reducible apply State.setChan_kept
    | with_reducible apply Kept.ite
    | with_reducible refine Kept.of_pair (by assumption) ?_
    | split

theorem execAsyncIdleGap_kept {M : Nat} {b : State} {q : List Instr} {pitch : Pitch} {chan : Channel} {s : State} (hs : Kept M b q s) (hM : Sub 0x1000000040808 M) {r : State} (e : (execAsyncIdleGap pitch chan s) = .next r) : Kept M b q r := by
  unfold execAsyncIdleGap at e
  injection e with e; subst e
  try dsimp only
  repeat' first
    | with_reducible assumption
    | exact Sub.trans (by decide) hM
    | exact Sub.bit hM (by decide)
    | exact Sub.kind hM (by decide) _
    | (intro _; try dsimp only)
    | with_reducible apply bit_enOf
    | with_reducible apply State.recClose_kept
    | with_reducible apply State.setChan_kept
    | with_reducible apply Kept.ite
    | with_reducible refine Kept.of_pair (by assumption) ?_
    | split

theorem execAsyncTxStart_kept {M : Nat} {b : State} {q : List Instr} {pitch : Pitch} {chan : Channel} {s : State} (hs : Kept M b q s) (hM : Sub 0x1000000040808 M) {r : State} (e : (execAsyncTxStart pitch chan s) = .next r) : Kept M b q r := by
  unfold execAsyncTxStart at e
  injection e with e; subst e
  try dsimp only
  repeat' first
    | with_reducible assumption
    | exact Sub.trans (by decide) hM
    | exact Sub.bit hM (by decide)
    | exact Sub.kind hM (by decide) _
    | (intro _; try dsimp only)
    | with_reducible apply bit_enOf
    | with_reducible apply State.fifoPop_kept
    | with_reducible apply State.setChan_kept
    | with_reducible apply Kept.ite
    | with_reducible refine Kept.of_pair (by assumption) ?_
    | split

theorem execAsyncDeLagExpire_kept {M : Nat} {b : State} {q : List Instr} {pitch : Pitch} {chan : Channel} {s : State} (hs : Kept M b q s) (hM : Sub 0x40000 M) {r : State} (e : (execAsyncDeLagExpire pitch chan s) = .next r) : Kept M b q r := by
  unfold execAsyncDeLagExpire at e
  injection e with e; subst e
  try dsimp only
  repeat' first
    | with_reducible assumption
    | exact Sub.trans (by decide) hM
    | exact Sub.bit hM (by decide)
    | exact Sub.kind hM (by decide) _
    | (intro _; try dsimp only)
    | with_reducible apply bit_enOf
    | with_reducible apply State.setChan_kept
    | with_reducible apply Kept.ite
    | with_reducible refine Kept.of_pair (by assumption) ?_
    | split

end Sys2Proof.Machine
end

