-- ==== Sys2Proof/Laws/KeptCanopy.lean ====
section
/-! SUPPORT. What the functions of Machine/Canopy.lean keep (Laws/Kept.lean). -/
namespace Sys2Proof.Machine

theorem State.errClear_kept {M : Nat} {b : State} {q : List Instr} {s : State} {ck : Nat} (hs : Kept M b q s) (hM : Sub 0x10000 M) : Kept M b q (State.errClear s ck) := by
  unfold State.errClear
  try dsimp only
  repeat' first
    | with_reducible assumption
    | exact Sub.trans (by decide) hM
    | exact Sub.bit hM (by decide)
    | exact Sub.kind hM (by decide) _
    | (intro _; try dsimp only)
    | with_reducible apply Kept.ite
    | with_reducible refine Kept.of_pair (by assumption) ?_
    | split
    | with_reducible refine Kept.set_scan ?_ ?_

theorem State.copyRead_kept {M : Nat} {b : State} {q : List Instr} {s : State} {ck : Nat} (hs : Kept M b q s) (hM : Sub 0x8000000000808 M) : Kept M b q (State.copyRead s ck) := by
  unfold State.copyRead
  try dsimp only
  repeat' first
    | with_reducible assumption
    | exact Sub.trans (by decide) hM
    | exact Sub.bit hM (by decide)
    | exact Sub.kind hM (by decide) _
    | (intro _; try dsimp only)
    | with_reducible apply State.fault_kept
    | with_reducible apply State.inc_kept
    | with_reducible apply State.raise_kept
    | with_reducible apply State.raiseBit_kept
    | with_reducible apply State.wr_kept
    | with_reducible apply Kept.ite
    | with_reducible refine Kept.of_pair (by assumption) ?_
    | split

theorem State.grpPut_kept {M : Nat} {b : State} {q : List Instr} {s : State} {k : Nat} {mask : BitVec 96} {v : BitVec 96} (hs : Kept M b q s) (hM : Sub 0x410000 M) : Kept M b q (State.grpPut s k mask v) := by
  unfold State.grpPut
  try dsimp only
  repeat' first
    | with_reducible assumption
    | exact Sub.trans (by decide) hM
    | exact Sub.bit hM (by decide)
    | exact Sub.kind hM (by decide) _
    | (intro _; try dsimp only)
    | with_reducible apply State.errClear_kept
    | with_reducible apply State.mirror_kept
    | with_reducible apply Kept.ite
    | with_reducible refine Kept.of_pair (by assumption) ?_
    | split
    | with_reducible refine Kept.set_scan ?_ ?_

theorem State.flip_kept {M : Nat} {b : State} {q : List Instr} {s : State} (hs : Kept M b q s) (hM : Sub 0x10000 M) : Kept M b q (State.flip s) := by
  unfold State.flip
  try dsimp only
  repeat' first
    | with_reducible assumption
    | exact Sub.trans (by decide) hM
    | exact Sub.bit hM (by decide)
    | exact Sub.kind hM (by decide) _
    | (intro _; try dsimp only)
    | with_reducible apply Kept.foldl
    | with_reducible apply Kept.foldlP
    | with_reducible apply Kept.ite
    | with_reducible refine Kept.of_pair (by assumption) ?_
    | split
    | with_reducible refine Kept.set_scan ?_ ?_

theorem State.grainPut_kept {M : Nat} {b : State} {q : List Instr} {s : State} {img : Image} {g : Nat} {x : Nat} (hs : Kept M b q s) (hM : Sub 0x410000 M) : Kept M b q (State.grainPut s img g x) := by
  unfold State.grainPut
  try dsimp only
  repeat' first
    | with_reducible assumption
    | exact Sub.trans (by decide) hM
    | exact Sub.bit hM (by decide)
    | exact Sub.kind hM (by decide) _
    | (intro _; try dsimp only)
    | with_reducible apply State.grpPut_kept
    | with_reducible apply Kept.ite
    | with_reducible refine Kept.of_pair (by assumption) ?_
    | split

theorem State.softPut_kept {M : Nat} {b : State} {q : List Instr} {s : State} {img : Image} {m : Nat} {mask : BitVec 96} {v : BitVec 96} (hs : Kept M b q s) (hM : Sub 0x410000 M) : Kept M b q (State.softPut s img m mask v) := by
  unfold State.softPut
  try dsimp only
  repeat' first
    | with_reducible assumption
    | exact Sub.trans (by decide) hM
    | exact Sub.bit hM (by decide)
    | exact Sub.kind hM (by decide) _
    | (intro _; try dsimp only)
    | with_reducible apply State.grpPut_kept
    | with_reducible apply Kept.ite
    | with_reducible refine Kept.of_pair (by assumption) ?_
    | split
    | with_reducible refine Kept.set_scan ?_ ?_

end Sys2Proof.Machine
end

