-- ==== Sys2Proof/Laws/KeptSyncMode.lean ====
section
/-! SUPPORT. What the functions of Machine/SyncMode.lean keep (Laws/Kept.lean). -/
namespace Sys2Proof.Machine

theorem State.syStart_kept {M : Nat} {b : State} {q : List Instr} {s : State} {n : Nat} {c : Nat} {t0 : Int} (hs : Kept M b q s) (hM : Sub 0x1000000040808 M) : Kept M b q (State.syStart s n c t0) := by
  unfold State.syStart
  try dsimp only
  repeat' first
    | with_reducible assumption
    | exact Sub.trans (by decide) hM
    | exact Sub.bit hM (by decide)
    | exact Sub.kind hM (by decide) _
    | (intro _; try dsimp only)
    | with_reducible apply bit_enOf
    | with_reducible apply State.enCnt_kept
    | with_reducible apply State.setChan_kept
    | with_reducible apply Kept.ite
    | with_reducible refine Kept.of_pair (by assumption) ?_
    | split

theorem State.syCmdWrite_kept {M : Nat} {b : State} {q : List Instr} {s : State} {g : Nat} {v : Word} (hs : Kept M b q s) (hM : Sub 0x1000000040808 M) : Kept M b q (State.syCmdWrite s g v) := by
  unfold State.syCmdWrite
  try dsimp only
  repeat' first
    | with_reducible assumption
    | exact Sub.trans (by decide) hM
    | exact Sub.bit hM (by decide)
    | exact Sub.kind hM (by decide) _
    | (intro _; try dsimp only)
    | with_reducible apply State.syStart_kept
    | with_reducible apply Kept.ite
    | with_reducible refine Kept.of_pair (by assumption) ?_
    | split

theorem execSyCmdGo_kept {M : Nat} {b : State} {q : List Instr} {who : Initiator} {engine : Engine} {s : State} (hs : Kept M b q s) (hM : Sub 0x109000005080C M) {r : State} (e : (execSyCmdGo who engine s) = .next r) : Kept M b q r := by
  unfold execSyCmdGo at e
  injection e with e; subst e
  try dsimp only
  repeat' first
    | with_reducible assumption
    | exact Sub.trans (by decide) hM
    | exact Sub.bit hM (by decide)
    | exact Sub.kind hM (by decide) _
    | (intro _; try dsimp only)
    | with_reducible apply bit_enReg
    | with_reducible apply State.syCmdWrite_kept
    | with_reducible apply State.write_kept
    | with_reducible apply Kept.ite
    | with_reducible refine Kept.of_pair (by assumption) ?_
    | split

theorem execSyncTrigger_kept {M : Nat} {b : State} {q : List Instr} {pitch : Pitch} {chan : Channel} {s : State} (hs : Kept M b q s) (hM : Sub 0x1000000040808 M) {r : State} (e : (execSyncTrigger pitch chan s) = .next r) : Kept M b q r := by
  unfold execSyncTrigger at e
  injection e with e; subst e
  try dsimp only
  repeat' first
    | with_reducible assumption
    | exact Sub.trans (by decide) hM
    | exact Sub.bit hM (by decide)
    | exact Sub.kind hM (by decide) _
    | (intro _; try dsimp only)
    | with_reducible apply bit_enOf
    | with_reducible apply State.syStart_kept
    | with_reducible apply Kept.ite
    | with_reducible refine Kept.of_pair (by assumption) ?_
    | split

theorem State.syReport_kept {M : Nat} {b : State} {q : List Instr} {s : State} {n : Nat} {c : Nat} {r : Rep} (hs : Kept M b q s) (hM : Sub 0x40000 M) : Kept M b q (State.syReport s n c r) := by
  unfold State.syReport
  try dsimp only
  repeat' first
    | with_reducible assumption
    | exact Sub.trans (by decide) hM
    | exact Sub.bit hM (by decide)
    | exact Sub.kind hM (by decide) _
    | (intro _; try dsimp only)
    | with_reducible apply bit_enOf
    | with_reducible apply State.setChan_kept
    | with_reducible apply Kept.ite
    | with_reducible refine Kept.of_pair (by assumption) ?_
    | split

theorem State.syNote_kept {M : Nat} {b : State} {q : List Instr} {s : State} {n : Nat} {c : Nat} {t0 : Int} {v : Nat} (hs : Kept M b q s) (hM : Sub 0x40000 M) : Kept M b q (State.syNote s n c t0 v) := by
  unfold State.syNote
  try dsimp only
  repeat' first
    | with_reducible assumption
    | exact Sub.trans (by decide) hM
    | exact Sub.bit hM (by decide)
    | exact Sub.kind hM (by decide) _
    | (intro _; try dsimp only)
    | with_reducible apply bit_enOf
    | with_reducible apply State.setChan_kept
    | with_reducible apply Kept.ite
    | with_reducible refine Kept.of_pair (by assumption) ?_
    | split

theorem execSyncTransferEnd_kept {M : Nat} {b : State} {q : List Instr} {pitch : Pitch} {chan : Channel} {s : State} (hs : Kept M b q s) (hM : Sub 0x1000000040808 M) {r : State} (e : (execSyncTransferEnd pitch chan s) = .next r) : Kept M b q r := by
  unfold execSyncTransferEnd at e
  injection e with e; subst e
  try dsimp only
  repeat' first
    | with_reducible assumption
    | exact Sub.trans (by decide) hM
    | exact Sub.bit hM (by decide)
    | exact Sub.kind hM (by decide) _
    | (intro _; try dsimp only)
    | with_reducible apply bit_enOf
    | with_reducible apply State.enCnt_kept
    | with_reducible apply State.recBatch_kept
    | with_reducible apply State.setChan_kept
    | with_reducible apply State.syNote_kept
    | with_reducible apply State.wr_kept
    | with_reducible apply Kept.ite
    | with_reducible refine Kept.of_pair (by assumption) ?_
    | split

theorem State.syCut_kept {M : Nat} {b : State} {q : List Instr} {s : State} {n : Nat} {c : Nat} (hs : Kept M b q s) (hM : Sub 0x1000000040808 M) : Kept M b q (State.syCut s n c) := by
  unfold State.syCut
  try dsimp only
  repeat' first
    | with_reducible assumption
    | exact Sub.trans (by decide) hM
    | exact Sub.bit hM (by decide)
    | exact Sub.kind hM (by decide) _
    | (intro _; try dsimp only)
    | with_reducible apply bit_enOf
    | with_reducible apply State.enCnt_kept
    | with_reducible apply State.fs_kept
    | with_reducible apply State.setChan_kept
    | with_reducible apply Kept.ite
    | with_reducible refine Kept.of_pair (by assumption) ?_
    | split

theorem State.syGap_kept {M : Nat} {b : State} {q : List Instr} {s : State} {n : Nat} {c : Nat} {base : Int} (hs : Kept M b q s) (hM : Sub 0x1000000040808 M) : Kept M b q (State.syGap s n c base) := by
  unfold State.syGap
  try dsimp only
  repeat' first
    | with_reducible assumption
    | exact Sub.trans (by decide) hM
    | exact Sub.bit hM (by decide)
    | exact Sub.kind hM (by decide) _
    | (intro _; try dsimp only)
    | with_reducible apply bit_enOf
    | with_reducible apply State.syCut_kept
    | with_reducible apply Kept.ite
    | with_reducible refine Kept.of_pair (by assumption) ?_
    | split

end Sys2Proof.Machine
end

