-- ==== Sys2Proof/Laws/KeptDiscMode.lean ====
section
/-! SUPPORT. What the functions of Machine/DiscMode.lean keep (Laws/Kept.lean). -/
namespace Sys2Proof.Machine

theorem State.diRecord_kept {M : Nat} {b : State} {q : List Instr} {s : State} {n : Nat} {c : Nat} {u : Int} {level : Bool} {glitch : Bool} {gap : Bool} (hs : Kept M b q s) (hM : Sub 0x1000000040808 M) : Kept M b q (State.diRecord s n c u level glitch gap) := by
  unfold State.diRecord
  try dsimp only
  repeat' first
    | with_reducible assumption
    | exact Sub.trans (by decide) hM
    | exact Sub.bit hM (by decide)
    | exact Sub.kind hM (by decide) _
    | (intro _; try dsimp only)
    | with_reducible apply bit_enOf
    | with_reducible apply State.recBatch_kept
    | with_reducible apply Kept.ite
    | with_reducible refine Kept.of_pair (by assumption) ?_
    | split

theorem State.diNote_kept {M : Nat} {b : State} {q : List Instr} {s : State} {n : Nat} {c : Nat} {u : Int} (hs : Kept M b q s) (hM : Sub 0x40000 M) : Kept M b q (State.diNote s n c u) := by
  unfold State.diNote
  try dsimp only
  repeat' first
    | with_reducible assumption
    | exact Sub.trans (by decide) hM
    | exact Sub.bit hM (by decide)
    | exact Sub.kind hM (by decide) _
    | (intro _; try dsimp only)
    | with_reducible apply bit_enOf
    | with_reducible apply State.setChan_kept
    | with_reducible apply Kept.ite
    | with_reducible refine Kept.of_pair (by assumption) ?_
    | split

theorem State.diCapture_kept {M : Nat} {b : State} {q : List Instr} {s : State} {n : Nat} {c : Nat} {u : Int} {level : Bool} {glitch : Bool} (hs : Kept M b q s) (hM : Sub 0x1000000040000 M) : Kept M b q (State.diCapture s n c u level glitch) := by
  unfold State.diCapture
  try dsimp only
  repeat' first
    | with_reducible assumption
    | exact Sub.trans (by decide) hM
    | exact Sub.bit hM (by decide)
    | exact Sub.kind hM (by decide) _
    | (intro _; try dsimp only)
    | with_reducible apply bit_enOf
    | with_reducible apply State.setChan_kept
    | with_reducible apply State.wr_kept
    | with_reducible apply Kept.ite
    | with_reducible refine Kept.of_pair (by assumption) ?_
    | split

theorem State.diAccept_kept {M : Nat} {b : State} {q : List Instr} {s : State} {n : Nat} {c : Nat} {u : Int} {i : Int} {level : Bool} {glitch : Bool} (hs : Kept M b q s) (hM : Sub 0x1000000040808 M) : Kept M b q (State.diAccept s n c u i level glitch) := by
  unfold State.diAccept
  try dsimp only
  repeat' first
    | with_reducible assumption
    | exact Sub.trans (by decide) hM
    | exact Sub.bit hM (by decide)
    | exact Sub.kind hM (by decide) _
    | (intro _; try dsimp only)
    | with_reducible apply bit_enOf
    | with_reducible apply State.addWrap_kept
    | with_reducible apply State.diCapture_kept
    | with_reducible apply State.diNote_kept
    | with_reducible apply State.diRecord_kept
    | with_reducible apply State.setChan_kept
    | with_reducible apply Kept.ite
    | with_reducible refine Kept.of_pair (by assumption) ?_
    | split

theorem State.diMature_kept {M : Nat} {b : State} {q : List Instr} {s : State} {n : Nat} {c : Nat} {u : Int} (hs : Kept M b q s) (hM : Sub 0x1000000040808 M) : Kept M b q (State.diMature s n c u) := by
  unfold State.diMature
  try dsimp only
  repeat' first
    | with_reducible assumption
    | exact Sub.trans (by decide) hM
    | exact Sub.bit hM (by decide)
    | exact Sub.kind hM (by decide) _
    | (intro _; try dsimp only)
    | with_reducible apply bit_enOf
    | with_reducible apply State.diAccept_kept
    | with_reducible apply Kept.ite
    | with_reducible refine Kept.of_pair (by assumption) ?_
    | split

theorem State.diEdge_kept {M : Nat} {b : State} {q : List Instr} {s : State} {n : Nat} {c : Nat} {u : Int} {level : Bool} (hs : Kept M b q s) (hM : Sub 0x1000000040808 M) : Kept M b q (State.diEdge s n c u level) := by
  unfold State.diEdge
  try dsimp only
  repeat' first
    | with_reducible assumption
    | exact Sub.trans (by decide) hM
    | exact Sub.bit hM (by decide)
    | exact Sub.kind hM (by decide) _
    | (intro _; try dsimp only)
    | with_reducible apply bit_enOf
    | with_reducible apply State.diAccept_kept
    | with_reducible apply State.enCnt_kept
    | with_reducible apply State.setChan_kept
    | with_reducible apply Kept.ite
    | with_reducible refine Kept.of_pair (by assumption) ?_
    | split

theorem State.diGlitch_kept {M : Nat} {b : State} {q : List Instr} {s : State} {n : Nat} {c : Nat} {u : Int} {level : Bool} (hs : Kept M b q s) (hM : Sub 0x1000000040808 M) : Kept M b q (State.diGlitch s n c u level) := by
  unfold State.diGlitch
  try dsimp only
  repeat' first
    | with_reducible assumption
    | exact Sub.trans (by decide) hM
    | exact Sub.bit hM (by decide)
    | exact Sub.kind hM (by decide) _
    | (intro _; try dsimp only)
    | with_reducible apply bit_enOf
    | with_reducible apply State.diAccept_kept
    | with_reducible apply State.enCnt_kept
    | with_reducible apply State.setChan_kept
    | with_reducible apply Kept.ite
    | with_reducible refine Kept.of_pair (by assumption) ?_
    | split

theorem State.diAfterGap_kept {M : Nat} {b : State} {q : List Instr} {s : State} {n : Nat} {c : Nat} {u : Int} {level : Bool} (hs : Kept M b q s) (hM : Sub 0x1000000040808 M) : Kept M b q (State.diAfterGap s n c u level) := by
  unfold State.diAfterGap
  try dsimp only
  repeat' first
    | with_reducible assumption
    | exact Sub.trans (by decide) hM
    | exact Sub.bit hM (by decide)
    | exact Sub.kind hM (by decide) _
    | (intro _; try dsimp only)
    | with_reducible apply bit_enOf
    | with_reducible apply State.diNote_kept
    | with_reducible apply State.diRecord_kept
    | with_reducible apply State.enCnt_kept
    | with_reducible apply State.fs_kept
    | with_reducible apply State.setChan_kept
    | with_reducible apply Kept.ite
    | with_reducible refine Kept.of_pair (by assumption) ?_
    | split

theorem State.diReport_kept {M : Nat} {b : State} {q : List Instr} {s : State} {n : Nat} {c : Nat} {r : Rep} (hs : Kept M b q s) (hM : Sub 0x1000000040808 M) : Kept M b q (State.diReport s n c r) := by
  unfold State.diReport
  try dsimp only
  repeat' first
    | with_reducible assumption
    | exact Sub.trans (by decide) hM
    | exact Sub.bit hM (by decide)
    | exact Sub.kind hM (by decide) _
    | (intro _; try dsimp only)
    | with_reducible apply bit_enOf
    | with_reducible apply State.diAfterGap_kept
    | with_reducible apply State.diEdge_kept
    | with_reducible apply State.diGlitch_kept
    | with_reducible apply State.diMature_kept
    | with_reducible apply State.setChan_kept
    | with_reducible apply Kept.ite
    | with_reducible refine Kept.of_pair (by assumption) ?_
    | split

theorem State.diGap_kept {M : Nat} {b : State} {q : List Instr} {s : State} {n : Nat} {c : Nat} (hs : Kept M b q s) (hM : Sub 0x40000 M) : Kept M b q (State.diGap s n c) := by
  unfold State.diGap
  try dsimp only
  repeat' first
    | with_reducible assumption
    | exact Sub.trans (by decide) hM
    | exact Sub.bit hM (by decide)
    | exact Sub.kind hM (by decide) _
    | (intro _; try dsimp only)
    | with_reducible apply State.setChan_kept
    | with_reducible apply Kept.ite
    | with_reducible refine Kept.of_pair (by assumption) ?_
    | split

theorem State.diStart_kept {M : Nat} {b : State} {q : List Instr} {s : State} {n : Nat} {c : Nat} (hs : Kept M b q s) (hM : Sub 0x40000 M) : Kept M b q (State.diStart s n c) := by
  unfold State.diStart
  try dsimp only
  repeat' first
    | with_reducible assumption
    | exact Sub.trans (by decide) hM
    | exact Sub.bit hM (by decide)
    | exact Sub.kind hM (by decide) _
    | (intro _; try dsimp only)
    | with_reducible apply State.setChan_kept
    | with_reducible apply Kept.ite
    | with_reducible refine Kept.of_pair (by assumption) ?_
    | split

theorem State.diTurn_kept {M : Nat} {b : State} {q : List Instr} {s : State} {n : Nat} {c : Nat} (hs : Kept M b q s) (hM : Sub 0x40000 M) : Kept M b q (State.diTurn s n c) := by
  unfold State.diTurn
  try dsimp only
  repeat' first
    | with_reducible assumption
    | exact Sub.trans (by decide) hM
    | exact Sub.bit hM (by decide)
    | exact Sub.kind hM (by decide) _
    | (intro _; try dsimp only)
    | with_reducible apply State.diNote_kept
    | with_reducible apply State.setChan_kept
    | with_reducible apply Kept.ite
    | with_reducible refine Kept.of_pair (by assumption) ?_
    | split

theorem execDiscDebounceAccept_kept {M : Nat} {b : State} {q : List Instr} {pitch : Pitch} {chan : Channel} {s : State} (hs : Kept M b q s) (hM : Sub 0x1000000040808 M) {r : State} (e : (execDiscDebounceAccept pitch chan s) = .next r) : Kept M b q r := by
  unfold execDiscDebounceAccept at e
  injection e with e; subst e
  try dsimp only
  repeat' first
    | with_reducible assumption
    | exact Sub.trans (by decide) hM
    | exact Sub.bit hM (by decide)
    | exact Sub.kind hM (by decide) _
    | (intro _; try dsimp only)
    | with_reducible apply bit_enOf
    | with_reducible apply State.diMature_kept
    | with_reducible apply Kept.ite
    | with_reducible refine Kept.of_pair (by assumption) ?_
    | split

theorem State.diCountTake_kept {M : Nat} {b : State} {q : List Instr} {s : State} {g : Nat} (hs : Kept M b q s) (hM : Sub 0x40000 M) (hp1 : M.testBit (kindBit (kindOf g)) = true) : Kept M b q (State.diCountTake s g).1 := by
  unfold State.diCountTake
  try dsimp only
  repeat' first
    | with_reducible assumption
    | exact Sub.trans (by decide) hM
    | exact Sub.bit hM (by decide)
    | exact Sub.kind hM (by decide) _
    | (intro _; try dsimp only)
    | with_reducible apply State.diNote_kept
    | with_reducible apply State.fs_kept
    | with_reducible apply State.wr_kept
    | with_reducible apply Kept.ite
    | with_reducible refine Kept.of_pair (by assumption) ?_
    | split

theorem execEnDiCountTake_kept {M : Nat} {b : State} {q : List Instr} {who : Initiator} {engine : Engine} {s : State} (hs : Kept M b q s) (hM : Sub 0x101000005080C M) {r : State} (e : (execEnDiCountTake who engine s) = .next r) : Kept M b q r := by
  unfold execEnDiCountTake at e
  injection e with e; subst e
  try dsimp only
  repeat' first
    | with_reducible assumption
    | exact Sub.trans (by decide) hM
    | exact Sub.bit hM (by decide)
    | exact Sub.kind hM (by decide) _
    | (intro _; try dsimp only)
    | with_reducible apply bit_enReg
    | with_reducible apply State.diCountTake_kept
    | with_reducible apply State.read_kept
    | with_reducible apply Kept.ite
    | with_reducible refine Kept.of_pair (by assumption) ?_
    | split

theorem State.diOut_kept {M : Nat} {b : State} {q : List Instr} {s : State} {pre : Bool} {g : Nat} {v : Word} (hs : Kept M b q s) (hM : Sub 0x440809 M) (hp2 : M.testBit (kindBit (kindOf g)) = true) : Kept M b q (State.diOut s pre g v) := by
  unfold State.diOut
  try dsimp only
  repeat' first
    | with_reducible assumption
    | exact Sub.trans (by decide) hM
    | exact Sub.bit hM (by decide)
    | exact Sub.kind hM (by decide) _
    | (intro _; try dsimp only)
    | with_reducible apply State.place_kept
    | with_reducible apply State.plain_kept
    | with_reducible apply Kept.ite
    | with_reducible refine Kept.of_pair (by assumption) ?_
    | split

theorem execDiOutWrite_kept {M : Nat} {b : State} {q : List Instr} {who : Initiator} {engine : Engine} {v : Word} {s : State} (hs : Kept M b q s) (hM : Sub 0x109000045080D M) {r : State} (e : (execDiOutWrite who engine v s) = .next r) : Kept M b q r := by
  unfold execDiOutWrite at e
  injection e with e; subst e
  try dsimp only
  repeat' first
    | with_reducible assumption
    | exact Sub.trans (by decide) hM
    | exact Sub.bit hM (by decide)
    | exact Sub.kind hM (by decide) _
    | (intro _; try dsimp only)
    | with_reducible apply bit_enReg
    | with_reducible apply State.diOut_kept
    | with_reducible apply State.write_kept
    | with_reducible apply Kept.ite
    | with_reducible refine Kept.of_pair (by assumption) ?_
    | split

theorem State.pwmPeriod_kept {M : Nat} {b : State} {q : List Instr} {s : State} {n : Nat} {c : Nat} (hs : Kept M b q s) (hM : Sub 0x40000 M) : Kept M b q (State.pwmPeriod s n c) := by
  unfold State.pwmPeriod
  try dsimp only
  repeat' first
    | with_reducible assumption
    | exact Sub.trans (by decide) hM
    | exact Sub.bit hM (by decide)
    | exact Sub.kind hM (by decide) _
    | (intro _; try dsimp only)
    | with_reducible apply bit_enOf
    | with_reducible apply State.setChan_kept
    | with_reducible apply Kept.foldl
    | with_reducible apply Kept.foldlP
    | with_reducible apply Kept.ite
    | with_reducible refine Kept.of_pair (by assumption) ?_
    | split

theorem execPwmPeriodStart_kept {M : Nat} {b : State} {q : List Instr} {pitch : Pitch} {chan : Channel} {s : State} (hs : Kept M b q s) (hM : Sub 0x40000 M) {r : State} (e : (execPwmPeriodStart pitch chan s) = .next r) : Kept M b q r := by
  unfold execPwmPeriodStart at e
  injection e with e; subst e
  try dsimp only
  repeat' first
    | with_reducible assumption
    | exact Sub.trans (by decide) hM
    | exact Sub.bit hM (by decide)
    | exact Sub.kind hM (by decide) _
    | (intro _; try dsimp only)
    | with_reducible apply bit_enOf
    | with_reducible apply State.pwmPeriod_kept
    | with_reducible apply Kept.ite
    | with_reducible refine Kept.of_pair (by assumption) ?_
    | split

theorem State.schedLate_kept {M : Nat} {b : State} {q : List Instr} {s : State} {n : Nat} {c : Nat} (hs : Kept M b q s) (hM : Sub 0x1000000040808 M) : Kept M b q (State.schedLate s n c) := by
  unfold State.schedLate
  try dsimp only
  repeat' first
    | with_reducible assumption
    | exact Sub.trans (by decide) hM
    | exact Sub.bit hM (by decide)
    | exact Sub.kind hM (by decide) _
    | (intro _; try dsimp only)
    | with_reducible apply bit_enOf
    | with_reducible apply State.enCnt_kept
    | with_reducible apply State.fifoPop_kept
    | with_reducible apply State.raise_kept
    | with_reducible apply Kept.ite
    | with_reducible refine Kept.of_pair (by assumption) ?_
    | split

theorem State.dueLost_kept {M : Nat} {b : State} {q : List Instr} {s : State} {n : Nat} {c : Nat} (hs : Kept M b q s) (hM : Sub 0x1000000040808 M) : Kept M b q (State.dueLost s n c) := by
  unfold State.dueLost
  try dsimp only
  repeat' first
    | with_reducible assumption
    | exact Sub.trans (by decide) hM
    | exact Sub.bit hM (by decide)
    | exact Sub.kind hM (by decide) _
    | (intro _; try dsimp only)
    | with_reducible apply bit_enOf
    | with_reducible apply State.enCnt_kept
    | with_reducible apply State.raise_kept
    | with_reducible apply State.setChan_kept
    | with_reducible apply Kept.foldl
    | with_reducible apply Kept.foldlP
    | with_reducible apply Kept.ite
    | with_reducible refine Kept.of_pair (by assumption) ?_
    | split

theorem execDiscSchedItem_kept {M : Nat} {b : State} {q : List Instr} {pitch : Pitch} {chan : Channel} {s : State} (hs : Kept M b q s) (hM : Sub 0x1000000040808 M) {r : State} (e : (execDiscSchedItem pitch chan s) = .next r) : Kept M b q r := by
  unfold execDiscSchedItem at e
  injection e with e; subst e
  try dsimp only
  repeat' first
    | with_reducible assumption
    | exact Sub.trans (by decide) hM
    | exact Sub.bit hM (by decide)
    | exact Sub.kind hM (by decide) _
    | (intro _; try dsimp only)
    | with_reducible apply bit_enOf
    | with_reducible apply bit_clPage
    | with_reducible apply State.enCnt_kept
    | with_reducible apply State.fifoPop_kept
    | with_reducible apply State.schedLate_kept
    | with_reducible apply State.setChan_kept
    | with_reducible apply Kept.ite
    | with_reducible refine Kept.of_pair (by assumption) ?_
    | split

end Sys2Proof.Machine
end

