-- ==== Sys2Proof/Laws/KeptPbus.lean ====
section
/-! SUPPORT. What the functions of Machine/Pbus.lean keep (Laws/Kept.lean). -/
namespace Sys2Proof.Machine

theorem State.setPb_kept {M : Nat} {b : State} {q : List Instr} {s : State} {n : Nat} {c : Nat} {p : Pb} (hs : Kept M b q s) (hM : Sub 0x40000 M) : Kept M b q (State.setPb s n c p) := by
  unfold State.setPb
  try dsimp only
  repeat' first
    | with_reducible assumption
    | exact Sub.trans (by decide) hM
    | exact Sub.bit hM (by decide)
    | exact Sub.kind hM (by decide) _
    | (intro _; try dsimp only)
    | with_reducible apply State.setChan_kept
    | with_reducible apply Kept.ite
    | with_reducible refine Kept.of_pair (by assumption) ?_
    | split

theorem State.pbDrive_kept {M : Nat} {b : State} {q : List Instr} {s : State} {n : Nat} {c : Nat} {u : Int} {out : Bool} (hs : Kept M b q s) (hM : Sub 0x40000 M) : Kept M b q (State.pbDrive s n c u out) := by
  unfold State.pbDrive
  try dsimp only
  repeat' first
    | with_reducible assumption
    | exact Sub.trans (by decide) hM
    | exact Sub.bit hM (by decide)
    | exact Sub.kind hM (by decide) _
    | (intro _; try dsimp only)
    | with_reducible apply bit_enOf
    | with_reducible apply State.place_kept
    | with_reducible apply State.setPb_kept
    | with_reducible apply Kept.ite
    | with_reducible refine Kept.of_pair (by assumption) ?_
    | split

theorem State.pbForce_kept {M : Nat} {b : State} {q : List Instr} {s : State} {n : Nat} {c : Nat} {u : Int} {out : Bool} (hs : Kept M b q s) (hM : Sub 0x40000 M) : Kept M b q (State.pbForce s n c u out) := by
  unfold State.pbForce
  try dsimp only
  repeat' first
    | with_reducible assumption
    | exact Sub.trans (by decide) hM
    | exact Sub.bit hM (by decide)
    | exact Sub.kind hM (by decide) _
    | (intro _; try dsimp only)
    | with_reducible apply bit_enOf
    | with_reducible apply State.place_kept
    | with_reducible apply State.setChan_kept
    | with_reducible apply State.setPb_kept
    | with_reducible apply Kept.ite
    | with_reducible refine Kept.of_pair (by assumption) ?_
    | split

theorem State.pbActive_kept {M : Nat} {b : State} {q : List Instr} {s : State} {g : Nat} (hs : Kept M b q s) (hM : Sub 0x808 M) (hp1 : M.testBit (kindBit (kindOf g)) = true) : Kept M b q (State.pbActive s g) := by
  unfold State.pbActive
  try dsimp only
  repeat' first
    | with_reducible assumption
    | exact Sub.trans (by decide) hM
    | exact Sub.bit hM (by decide)
    | exact Sub.kind hM (by decide) _
    | (intro _; try dsimp only)
    | with_reducible apply State.fs_kept
    | with_reducible apply State.raiseIf_kept
    | with_reducible apply Kept.ite
    | with_reducible refine Kept.of_pair (by assumption) ?_
    | split

theorem State.pbCounters_kept {M : Nat} {b : State} {q : List Instr} {s : State} {n : Nat} {c : Nat} {tec : Nat} {rc : Nat} (hs : Kept M b q s) (hM : Sub 0x1000000040808 M) : Kept M b q (State.pbCounters s n c tec rc) := by
  unfold State.pbCounters
  try dsimp only
  repeat' first
    | with_reducible assumption
    | exact Sub.trans (by decide) hM
    | exact Sub.bit hM (by decide)
    | exact Sub.kind hM (by decide) _
    | (intro _; try dsimp only)
    | with_reducible apply bit_enOf
    | with_reducible apply State.fs_kept
    | with_reducible apply State.pbActive_kept
    | with_reducible apply State.raise_kept
    | with_reducible apply State.setChan_kept
    | with_reducible apply Kept.ite
    | with_reducible refine Kept.of_pair (by assumption) ?_
    | split

theorem State.pbMore_kept {M : Nat} {b : State} {q : List Instr} {s : State} {n : Nat} {c : Nat} {tx : Bool} {d : Nat} (hs : Kept M b q s) (hM : Sub 0x1000000040808 M) : Kept M b q (State.pbMore s n c tx d) := by
  unfold State.pbMore
  try dsimp only
  repeat' first
    | with_reducible assumption
    | exact Sub.trans (by decide) hM
    | exact Sub.bit hM (by decide)
    | exact Sub.kind hM (by decide) _
    | (intro _; try dsimp only)
    | with_reducible apply bit_enOf
    | with_reducible apply State.pbCounters_kept
    | with_reducible apply Kept.ite
    | with_reducible refine Kept.of_pair (by assumption) ?_
    | split

theorem State.pbLess_kept {M : Nat} {b : State} {q : List Instr} {s : State} {n : Nat} {c : Nat} {tx : Bool} (hs : Kept M b q s) (hM : Sub 0x1000040040808 M) : Kept M b q (State.pbLess s n c tx) := by
  unfold State.pbLess
  try dsimp only
  repeat' first
    | with_reducible assumption
    | exact Sub.trans (by decide) hM
    | exact Sub.bit hM (by decide)
    | exact Sub.kind hM (by decide) _
    | (intro _; try dsimp only)
    | with_reducible apply bit_enOf
    | with_reducible apply State.pbCounters_kept
    | with_reducible apply State.tookFree_kept
    | with_reducible apply Kept.ite
    | with_reducible refine Kept.of_pair (by assumption) ?_
    | split

theorem State.pbRecessive_kept {M : Nat} {b : State} {q : List Instr} {s : State} {n : Nat} {c : Nat} (hs : Kept M b q s) (hM : Sub 0x1000000040808 M) : Kept M b q (State.pbRecessive s n c) := by
  unfold State.pbRecessive
  try dsimp only
  repeat' first
    | with_reducible assumption
    | exact Sub.trans (by decide) hM
    | exact Sub.bit hM (by decide)
    | exact Sub.kind hM (by decide) _
    | (intro _; try dsimp only)
    | with_reducible apply bit_enOf
    | with_reducible apply State.fs_kept
    | with_reducible apply State.pbActive_kept
    | with_reducible apply State.setChan_kept
    | with_reducible apply Kept.ite
    | with_reducible refine Kept.of_pair (by assumption) ?_
    | split

theorem State.pbTurn_kept {M : Nat} {b : State} {q : List Instr} {s : State} {n : Nat} {c : Nat} (hs : Kept M b q s) (hM : Sub 0x1000000040808 M) : Kept M b q (State.pbTurn s n c) := by
  unfold State.pbTurn
  try dsimp only
  repeat' first
    | with_reducible assumption
    | exact Sub.trans (by decide) hM
    | exact Sub.bit hM (by decide)
    | exact Sub.kind hM (by decide) _
    | (intro _; try dsimp only)
    | with_reducible apply bit_enOf
    | with_reducible apply State.fs_kept
    | with_reducible apply State.raise_kept
    | with_reducible apply State.setChan_kept
    | with_reducible apply State.setPb_kept
    | with_reducible apply Kept.ite
    | with_reducible refine Kept.of_pair (by assumption) ?_
    | split

theorem State.pbEnd_kept {M : Nat} {b : State} {q : List Instr} {s : State} {n : Nat} {c : Nat} {result : Nat} {sof : Option Int} (hs : Kept M b q s) (hM : Sub 0x1000000040808 M) : Kept M b q (State.pbEnd s n c result sof) := by
  unfold State.pbEnd
  try dsimp only
  repeat' first
    | with_reducible assumption
    | exact Sub.trans (by decide) hM
    | exact Sub.bit hM (by decide)
    | exact Sub.kind hM (by decide) _
    | (intro _; try dsimp only)
    | with_reducible apply bit_enOf
    | with_reducible apply State.enCnt_kept
    | with_reducible apply State.fifoPop_kept
    | with_reducible apply State.recBatch_kept
    | with_reducible apply State.setChan_kept
    | with_reducible apply Kept.ite
    | with_reducible refine Kept.of_pair (by assumption) ?_
    | split

theorem State.pbInvalidHeads_kept {M : Nat} {b : State} {q : List Instr} {s : State} {n : Nat} {c : Nat} {a : Nat} (hs : Kept M b q s) (hM : Sub 0x1000000040808 M) : Kept M b q (State.pbInvalidHeads s n c a) := by
  fun_induction State.pbInvalidHeads s n c a
  all_goals repeat' first
    | with_reducible assumption
    | exact Sub.trans (by decide) hM
    | exact Sub.bit hM (by decide)
    | exact Sub.kind hM (by decide) _
    | (intro _; try dsimp only)
    | with_reducible apply bit_enOf
    | with_reducible apply State.pbEnd_kept
    | with_reducible apply Kept.ite
    | with_reducible refine Kept.of_pair (by assumption) ?_
    | split
    | apply_assumption

theorem State.pbPick_kept {M : Nat} {b : State} {q : List Instr} {s : State} {n : Nat} {c : Nat} {u : Int} (hs : Kept M b q s) (hM : Sub 0x1000000040808 M) : Kept M b q (State.pbPick s n c u).1 := by
  unfold State.pbPick
  try dsimp only
  repeat' first
    | with_reducible assumption
    | exact Sub.trans (by decide) hM
    | exact Sub.bit hM (by decide)
    | exact Sub.kind hM (by decide) _
    | (intro _; try dsimp only)
    | with_reducible apply bit_enOf
    | with_reducible apply State.cycle_kept
    | with_reducible apply State.pbInvalidHeads_kept
    | with_reducible apply State.setChan_kept
    | with_reducible apply Kept.ite
    | with_reducible refine Kept.of_pair (by assumption) ?_
    | split

theorem State.pbOwn_kept {M : Nat} {b : State} {q : List Instr} {s : State} {n : Nat} {c : Nat} {src : Option Nat} {u : Int} (hs : Kept M b q s) (hM : Sub 0x40000 M) : Kept M b q (State.pbOwn s n c src u) := by
  unfold State.pbOwn
  try dsimp only
  repeat' first
    | with_reducible assumption
    | exact Sub.trans (by decide) hM
    | exact Sub.bit hM (by decide)
    | exact Sub.kind hM (by decide) _
    | (intro _; try dsimp only)
    | with_reducible apply bit_enOf
    | with_reducible apply State.setChan_kept
    | with_reducible apply Kept.ite
    | with_reducible refine Kept.of_pair (by assumption) ?_
    | split

theorem State.pbStart_kept {M : Nat} {b : State} {q : List Instr} {s : State} {n : Nat} {c : Nat} {src : Option Nat} {u : Int} (hs : Kept M b q s) (hM : Sub 0x40000 M) : Kept M b q (State.pbStart s n c src u) := by
  unfold State.pbStart
  try dsimp only
  repeat' first
    | with_reducible assumption
    | exact Sub.trans (by decide) hM
    | exact Sub.bit hM (by decide)
    | exact Sub.kind hM (by decide) _
    | (intro _; try dsimp only)
    | with_reducible apply State.pbDrive_kept
    | with_reducible apply State.pbOwn_kept
    | with_reducible apply State.setPb_kept
    | with_reducible apply Kept.ite
    | with_reducible refine Kept.of_pair (by assumption) ?_
    | split

theorem State.pbTry_kept {M : Nat} {b : State} {q : List Instr} {s : State} {n : Nat} {c : Nat} {u : Int} (hs : Kept M b q s) (hM : Sub 0x1000000040808 M) : Kept M b q (State.pbTry s n c u) := by
  unfold State.pbTry
  try dsimp only
  repeat' first
    | with_reducible assumption
    | exact Sub.trans (by decide) hM
    | exact Sub.bit hM (by decide)
    | exact Sub.kind hM (by decide) _
    | (intro _; try dsimp only)
    | with_reducible apply State.pbPick_kept
    | with_reducible apply State.pbStart_kept
    | with_reducible apply Kept.ite
    | with_reducible refine Kept.of_pair (by assumption) ?_
    | split

theorem State.pbStartAt_kept {M : Nat} {b : State} {q : List Instr} {s : State} {n : Nat} {c : Nat} {src : Option Nat} {u : Int} (hs : Kept M b q s) (hM : Sub 0x40000 M) : Kept M b q (State.pbStartAt s n c src u) := by
  unfold State.pbStartAt
  try dsimp only
  repeat' first
    | with_reducible assumption
    | exact Sub.trans (by decide) hM
    | exact Sub.bit hM (by decide)
    | exact Sub.kind hM (by decide) _
    | (intro _; try dsimp only)
    | with_reducible apply State.pbDrive_kept
    | with_reducible apply State.pbOwn_kept
    | with_reducible apply State.setPb_kept
    | with_reducible apply Kept.ite
    | with_reducible refine Kept.of_pair (by assumption) ?_
    | split

theorem State.pbSendNext_kept {M : Nat} {b : State} {q : List Instr} {s : State} {n : Nat} {c : Nat} {u : Int} {fast : Bool} (hs : Kept M b q s) (hM : Sub 0x40000 M) : Kept M b q (State.pbSendNext s n c u fast) := by
  unfold State.pbSendNext
  try dsimp only
  repeat' first
    | with_reducible assumption
    | exact Sub.trans (by decide) hM
    | exact Sub.bit hM (by decide)
    | exact Sub.kind hM (by decide) _
    | (intro _; try dsimp only)
    | with_reducible apply State.pbDrive_kept
    | with_reducible apply State.setPb_kept
    | with_reducible apply Kept.ite
    | with_reducible refine Kept.of_pair (by assumption) ?_
    | split

theorem State.pbAhead_kept {M : Nat} {b : State} {q : List Instr} {s : State} {n : Nat} {c : Nat} {u : Int} (hs : Kept M b q s) (hM : Sub 0x40000 M) : Kept M b q (State.pbAhead s n c u) := by
  unfold State.pbAhead
  try dsimp only
  repeat' first
    | with_reducible assumption
    | exact Sub.trans (by decide) hM
    | exact Sub.bit hM (by decide)
    | exact Sub.kind hM (by decide) _
    | (intro _; try dsimp only)
    | with_reducible apply bit_enOf
    | with_reducible apply State.setChan_kept
    | with_reducible apply Kept.ite
    | with_reducible refine Kept.of_pair (by assumption) ?_
    | split

theorem State.pbTxError_kept {M : Nat} {b : State} {q : List Instr} {s : State} {n : Nat} {c : Nat} (hs : Kept M b q s) (hM : Sub 0x1000000040808 M) : Kept M b q (State.pbTxError s n c) := by
  unfold State.pbTxError
  try dsimp only
  repeat' first
    | with_reducible assumption
    | exact Sub.trans (by decide) hM
    | exact Sub.bit hM (by decide)
    | exact Sub.kind hM (by decide) _
    | (intro _; try dsimp only)
    | with_reducible apply bit_enOf
    | with_reducible apply State.pbEnd_kept
    | with_reducible apply State.setChan_kept
    | with_reducible apply Kept.ite
    | with_reducible refine Kept.of_pair (by assumption) ?_
    | split

theorem State.pbFlag_kept {M : Nat} {b : State} {q : List Instr} {s : State} {n : Nat} {c : Nat} {f : PbFlag} {u : Int} (hs : Kept M b q s) (hM : Sub 0x40000 M) : Kept M b q (State.pbFlag s n c f u) := by
  unfold State.pbFlag
  try dsimp only
  repeat' first
    | with_reducible assumption
    | exact Sub.trans (by decide) hM
    | exact Sub.bit hM (by decide)
    | exact Sub.kind hM (by decide) _
    | (intro _; try dsimp only)
    | with_reducible apply bit_enOf
    | with_reducible apply State.pbForce_kept
    | with_reducible apply State.setPb_kept
    | with_reducible apply Kept.ite
    | with_reducible refine Kept.of_pair (by assumption) ?_
    | split

theorem State.pbOut_kept {M : Nat} {b : State} {q : List Instr} {s : State} {n : Nat} {c : Nat} {u : Int} (hs : Kept M b q s) (hM : Sub 0x40000 M) : Kept M b q (State.pbOut s n c u) := by
  unfold State.pbOut
  try dsimp only
  repeat' first
    | with_reducible assumption
    | exact Sub.trans (by decide) hM
    | exact Sub.bit hM (by decide)
    | exact Sub.kind hM (by decide) _
    | (intro _; try dsimp only)
    | with_reducible apply bit_enOf
    | with_reducible apply State.pbForce_kept
    | with_reducible apply State.setPb_kept
    | with_reducible apply Kept.ite
    | with_reducible refine Kept.of_pair (by assumption) ?_
    | split

theorem State.pbError_kept {M : Nat} {b : State} {q : List Instr} {s : State} {n : Nat} {c : Nat} {lec : Nat} {exempt : Bool} {u : Int} (hs : Kept M b q s) (hM : Sub 0x1000000040808 M) : Kept M b q (State.pbError s n c lec exempt u) := by
  unfold State.pbError
  try dsimp only
  repeat' first
    | with_reducible assumption
    | exact Sub.trans (by decide) hM
    | exact Sub.bit hM (by decide)
    | exact Sub.kind hM (by decide) _
    | (intro _; try dsimp only)
    | with_reducible apply bit_enOf
    | with_reducible apply State.enCnt_kept
    | with_reducible apply State.fs_kept
    | with_reducible apply State.pbFlag_kept
    | with_reducible apply State.pbMore_kept
    | with_reducible apply State.pbOut_kept
    | with_reducible apply State.pbTxError_kept
    | with_reducible apply State.setPb_kept
    | with_reducible apply Kept.ite
    | with_reducible refine Kept.of_pair (by assumption) ?_
    | split

theorem State.pbSent_kept {M : Nat} {b : State} {q : List Instr} {s0 : State} {n : Nat} {c : Nat} (hs0 : Kept M b q s0) (hM : Sub 0x1000040040808 M) : Kept M b q (State.pbSent s0 n c) := by
  unfold State.pbSent
  try dsimp only
  repeat' first
    | with_reducible assumption
    | exact Sub.trans (by decide) hM
    | exact Sub.bit hM (by decide)
    | exact Sub.kind hM (by decide) _
    | (intro _; try dsimp only)
    | with_reducible apply bit_enOf
    | with_reducible apply State.inc_kept
    | with_reducible apply State.pbEnd_kept
    | with_reducible apply State.pbLess_kept
    | with_reducible apply State.setChan_kept
    | with_reducible apply Kept.ite
    | with_reducible refine Kept.of_pair (by assumption) ?_
    | split

theorem State.pbGot_kept {M : Nat} {b : State} {q : List Instr} {s0 : State} {n : Nat} {c : Nat} (hs0 : Kept M b q s0) (hM : Sub 0x1000040040808 M) : Kept M b q (State.pbGot s0 n c) := by
  unfold State.pbGot
  try dsimp only
  repeat' first
    | with_reducible assumption
    | exact Sub.trans (by decide) hM
    | exact Sub.bit hM (by decide)
    | exact Sub.kind hM (by decide) _
    | (intro _; try dsimp only)
    | with_reducible apply State.pbLess_kept
    | with_reducible apply State.setChan_kept
    | with_reducible apply Kept.ite
    | with_reducible refine Kept.of_pair (by assumption) ?_
    | split

theorem State.pbTake_kept {M : Nat} {b : State} {q : List Instr} {s : State} {n : Nat} {c : Nat} {x : Int} {u : Int} {v : Bool} (hs : Kept M b q s) (hM : Sub 0x1000000040808 M) : Kept M b q (State.pbTake s n c x u v) := by
  unfold State.pbTake
  try dsimp only
  repeat' first
    | with_reducible assumption
    | exact Sub.trans (by decide) hM
    | exact Sub.bit hM (by decide)
    | exact Sub.kind hM (by decide) _
    | (intro _; try dsimp only)
    | with_reducible apply bit_enOf
    | with_reducible apply State.pbAhead_kept
    | with_reducible apply State.pbError_kept
    | with_reducible apply State.pbSendNext_kept
    | with_reducible apply State.setPb_kept
    | with_reducible apply Kept.ite
    | with_reducible refine Kept.of_pair (by assumption) ?_
    | split

theorem State.pbFrameBit_kept {M : Nat} {b : State} {q : List Instr} {s : State} {n : Nat} {c : Nat} {x : Int} {u : Int} {v : Bool} (hs : Kept M b q s) (hM : Sub 0x1000000040808 M) : Kept M b q (State.pbFrameBit s n c x u v) := by
  unfold State.pbFrameBit
  try dsimp only
  repeat' first
    | with_reducible assumption
    | exact Sub.trans (by decide) hM
    | exact Sub.bit hM (by decide)
    | exact Sub.kind hM (by decide) _
    | (intro _; try dsimp only)
    | with_reducible apply bit_enOf
    | with_reducible apply State.inc_kept
    | with_reducible apply State.pbError_kept
    | with_reducible apply State.pbTake_kept
    | with_reducible apply State.setChan_kept
    | with_reducible apply Kept.ite
    | with_reducible refine Kept.of_pair (by assumption) ?_
    | split

theorem State.pbTail_kept {M : Nat} {b : State} {q : List Instr} {s : State} {n : Nat} {c : Nat} {x : Int} {u : Int} {v : Bool} (hs : Kept M b q s) (hM : Sub 0x1000040040808 M) : Kept M b q (State.pbTail s n c x u v) := by
  unfold State.pbTail
  try dsimp only
  repeat' first
    | with_reducible assumption
    | exact Sub.trans (by decide) hM
    | exact Sub.bit hM (by decide)
    | exact Sub.kind hM (by decide) _
    | (intro _; try dsimp only)
    | with_reducible apply bit_enOf
    | with_reducible apply State.pbDrive_kept
    | with_reducible apply State.pbError_kept
    | with_reducible apply State.pbGot_kept
    | with_reducible apply State.pbSent_kept
    | with_reducible apply State.setPb_kept
    | with_reducible apply Kept.ite
    | with_reducible refine Kept.of_pair (by assumption) ?_
    | split

theorem State.pbFlagBit_kept {M : Nat} {b : State} {q : List Instr} {s : State} {n : Nat} {c : Nat} {u : Int} {v : Bool} {was : Bool} (hs : Kept M b q s) (hM : Sub 0x1000000040808 M) : Kept M b q (State.pbFlagBit s n c u v was) := by
  unfold State.pbFlagBit
  try dsimp only
  repeat' first
    | with_reducible assumption
    | exact Sub.trans (by decide) hM
    | exact Sub.bit hM (by decide)
    | exact Sub.kind hM (by decide) _
    | (intro _; try dsimp only)
    | with_reducible apply bit_enOf
    | with_reducible apply State.enCnt_kept
    | with_reducible apply State.fs_kept
    | with_reducible apply State.pbDrive_kept
    | with_reducible apply State.pbError_kept
    | with_reducible apply State.pbMore_kept
    | with_reducible apply State.pbOut_kept
    | with_reducible apply State.setPb_kept
    | with_reducible apply Kept.ite
    | with_reducible refine Kept.of_pair (by assumption) ?_
    | split

theorem State.pbFlushAll_kept {M : Nat} {b : State} {q : List Instr} {s : State} {n : Nat} {c : Nat} {a : Nat} (hs : Kept M b q s) (hM : Sub 0x1000000040808 M) : Kept M b q (State.pbFlushAll s n c a) := by
  fun_induction State.pbFlushAll s n c a
  all_goals repeat' first
    | with_reducible assumption
    | exact Sub.trans (by decide) hM
    | exact Sub.bit hM (by decide)
    | exact Sub.kind hM (by decide) _
    | (intro _; try dsimp only)
    | with_reducible apply State.pbEnd_kept
    | with_reducible apply State.setChan_kept
    | with_reducible apply Kept.ite
    | with_reducible refine Kept.of_pair (by assumption) ?_
    | split
    | apply_assumption

theorem State.pbBoundary_kept {M : Nat} {b : State} {q : List Instr} {s : State} {n : Nat} {c : Nat} (hs : Kept M b q s) (hM : Sub 0x1000000040808 M) : Kept M b q (State.pbBoundary s n c) := by
  unfold State.pbBoundary
  try dsimp only
  repeat' first
    | with_reducible assumption
    | exact Sub.trans (by decide) hM
    | exact Sub.bit hM (by decide)
    | exact Sub.kind hM (by decide) _
    | (intro _; try dsimp only)
    | with_reducible apply State.pbFlushAll_kept
    | with_reducible apply Kept.ite
    | with_reducible refine Kept.of_pair (by assumption) ?_
    | split

theorem State.pbSof_kept {M : Nat} {b : State} {q : List Instr} {s : State} {n : Nat} {c : Nat} {x : Int} {u : Int} {v : Bool} {may : Bool} (hs : Kept M b q s) (hM : Sub 0x1000000040808 M) : Kept M b q (State.pbSof s n c x u v may) := by
  unfold State.pbSof
  try dsimp only
  repeat' first
    | with_reducible assumption
    | exact Sub.trans (by decide) hM
    | exact Sub.bit hM (by decide)
    | exact Sub.kind hM (by decide) _
    | (intro _; try dsimp only)
    | with_reducible apply State.pbForce_kept
    | with_reducible apply State.pbOwn_kept
    | with_reducible apply State.pbPick_kept
    | with_reducible apply State.pbTake_kept
    | with_reducible apply State.setPb_kept
    | with_reducible apply Kept.ite
    | with_reducible refine Kept.of_pair (by assumption) ?_
    | split

theorem State.pbBetween_kept {M : Nat} {b : State} {q : List Instr} {s : State} {n : Nat} {c : Nat} {x : Int} {u : Int} {v : Bool} (hs : Kept M b q s) (hM : Sub 0x1000000040808 M) : Kept M b q (State.pbBetween s n c x u v) := by
  unfold State.pbBetween
  try dsimp only
  repeat' first
    | with_reducible assumption
    | exact Sub.trans (by decide) hM
    | exact Sub.bit hM (by decide)
    | exact Sub.kind hM (by decide) _
    | (intro _; try dsimp only)
    | with_reducible apply bit_enOf
    | with_reducible apply State.fs_kept
    | with_reducible apply State.pbBoundary_kept
    | with_reducible apply State.pbFlag_kept
    | with_reducible apply State.pbOut_kept
    | with_reducible apply State.pbRecessive_kept
    | with_reducible apply State.pbSof_kept
    | with_reducible apply State.pbTry_kept
    | with_reducible apply State.setPb_kept
    | with_reducible apply Kept.ite
    | with_reducible refine Kept.of_pair (by assumption) ?_
    | split

theorem State.pbJudge_kept {M : Nat} {b : State} {q : List Instr} {s : State} {n : Nat} {c : Nat} {x : Int} {m : Bool} (hs : Kept M b q s) (hM : Sub 0x1000040040808 M) : Kept M b q (State.pbJudge s n c x m) := by
  unfold State.pbJudge
  try dsimp only
  repeat' first
    | with_reducible assumption
    | exact Sub.trans (by decide) hM
    | exact Sub.bit hM (by decide)
    | exact Sub.kind hM (by decide) _
    | (intro _; try dsimp only)
    | with_reducible apply bit_enOf
    | with_reducible apply State.pbBetween_kept
    | with_reducible apply State.pbFlagBit_kept
    | with_reducible apply State.pbFrameBit_kept
    | with_reducible apply State.pbTail_kept
    | with_reducible apply State.setPb_kept
    | with_reducible apply Kept.ite
    | with_reducible refine Kept.of_pair (by assumption) ?_
    | split

theorem State.pbSecond_kept {M : Nat} {b : State} {q : List Instr} {s : State} {n : Nat} {c : Nat} {y : Int} {m : Bool} (hs : Kept M b q s) (hM : Sub 0x1000000040808 M) : Kept M b q (State.pbSecond s n c y m) := by
  unfold State.pbSecond
  try dsimp only
  repeat' first
    | with_reducible assumption
    | exact Sub.trans (by decide) hM
    | exact Sub.bit hM (by decide)
    | exact Sub.kind hM (by decide) _
    | (intro _; try dsimp only)
    | with_reducible apply bit_enOf
    | with_reducible apply State.pbError_kept
    | with_reducible apply State.setPb_kept
    | with_reducible apply Kept.ite
    | with_reducible refine Kept.of_pair (by assumption) ?_
    | split

theorem State.pbEdge_kept {M : Nat} {b : State} {q : List Instr} {s0 : State} {n : Nat} {c : Nat} {e : Int} (hs0 : Kept M b q s0) (hM : Sub 0x1000000040000 M) : Kept M b q (State.pbEdge s0 n c e) := by
  unfold State.pbEdge
  try dsimp only
  repeat' first
    | with_reducible assumption
    | exact Sub.trans (by decide) hM
    | exact Sub.bit hM (by decide)
    | exact Sub.kind hM (by decide) _
    | (intro _; try dsimp only)
    | with_reducible apply bit_enOf
    | with_reducible apply State.fs_kept
    | with_reducible apply State.setPb_kept
    | with_reducible apply Kept.ite
    | with_reducible refine Kept.of_pair (by assumption) ?_
    | split

theorem State.pbRun_kept {M : Nat} {b : State} {q : List Instr} {n : Nat} {c : Nat} {r : Rep} {prev : Bool} {a : Nat} {x5 : Option Int} {x6 : State} (hx6 : Kept M b q x6) (hM : Sub 0x1000040040808 M) : Kept M b q (State.pbRun n c r prev a x5 x6) := by
  fun_induction State.pbRun n c r prev a x5 x6
  all_goals repeat' first
    | with_reducible assumption
    | exact Sub.trans (by decide) hM
    | exact Sub.bit hM (by decide)
    | exact Sub.kind hM (by decide) _
    | (intro _; try dsimp only)
    | with_reducible apply bit_enOf
    | with_reducible apply State.pbEdge_kept
    | with_reducible apply State.pbJudge_kept
    | with_reducible apply State.pbSecond_kept
    | with_reducible apply State.setPb_kept
    | with_reducible apply Kept.ite
    | with_reducible refine Kept.of_pair (by assumption) ?_
    | split
    | apply_assumption

theorem State.pbReport_kept {M : Nat} {b : State} {q : List Instr} {s : State} {n : Nat} {c : Nat} {r : Rep} (hs : Kept M b q s) (hM : Sub 0x1000040040808 M) : Kept M b q (State.pbReport s n c r) := by
  unfold State.pbReport
  try dsimp only
  repeat' first
    | with_reducible assumption
    | exact Sub.trans (by decide) hM
    | exact Sub.bit hM (by decide)
    | exact Sub.kind hM (by decide) _
    | (intro _; try dsimp only)
    | with_reducible apply bit_enOf
    | with_reducible apply State.pbBoundary_kept
    | with_reducible apply State.pbRun_kept
    | with_reducible apply State.setPb_kept
    | with_reducible apply Kept.ite
    | with_reducible refine Kept.of_pair (by assumption) ?_
    | split

theorem State.pbGap_kept {M : Nat} {b : State} {q : List Instr} {s : State} {n : Nat} {c : Nat} (hs : Kept M b q s) (hM : Sub 0x1000000040808 M) : Kept M b q (State.pbGap s n c) := by
  unfold State.pbGap
  try dsimp only
  repeat' first
    | with_reducible assumption
    | exact Sub.trans (by decide) hM
    | exact Sub.bit hM (by decide)
    | exact Sub.kind hM (by decide) _
    | (intro _; try dsimp only)
    | with_reducible apply bit_enOf
    | with_reducible apply State.enCnt_kept
    | with_reducible apply State.fs_kept
    | with_reducible apply State.pbForce_kept
    | with_reducible apply State.setChan_kept
    | with_reducible apply State.setPb_kept
    | with_reducible apply Kept.ite
    | with_reducible refine Kept.of_pair (by assumption) ?_
    | split

theorem State.pbCmdWrite_kept {M : Nat} {b : State} {q : List Instr} {s : State} {g : Nat} {v : Word} (hs : Kept M b q s) (hM : Sub 0x1000000040808 M) (hp1 : M.testBit (kindBit (kindOf g)) = true) : Kept M b q (State.pbCmdWrite s g v) := by
  unfold State.pbCmdWrite
  try dsimp only
  repeat' first
    | with_reducible assumption
    | exact Sub.trans (by decide) hM
    | exact Sub.bit hM (by decide)
    | exact Sub.kind hM (by decide) _
    | (intro _; try dsimp only)
    | with_reducible apply State.fs_kept
    | with_reducible apply State.pbEnd_kept
    | with_reducible apply State.setChan_kept
    | with_reducible apply Kept.ite
    | with_reducible refine Kept.of_pair (by assumption) ?_
    | split

theorem State.pbCmd_kept {M : Nat} {b : State} {q : List Instr} {s : State} {who : Initiator} {engine : Engine} {f : Fld} (hs : Kept M b q s) (hM : Sub 0x109000005080C M) : Kept M b q (State.pbCmd s who engine f) := by
  unfold State.pbCmd
  try dsimp only
  repeat' first
    | with_reducible assumption
    | exact Sub.trans (by decide) hM
    | exact Sub.bit hM (by decide)
    | exact Sub.kind hM (by decide) _
    | (intro _; try dsimp only)
    | with_reducible apply bit_enReg
    | with_reducible apply State.pbCmdWrite_kept
    | with_reducible apply State.write_kept
    | with_reducible apply Kept.ite
    | with_reducible refine Kept.of_pair (by assumption) ?_
    | split

theorem execPbAbort_kept {M : Nat} {b : State} {q : List Instr} {who : Initiator} {engine : Engine} {s : State} (hs : Kept M b q s) (hM : Sub 0x109000005080C M) {r : State} (e : (execPbAbort who engine s) = .next r) : Kept M b q r := by
  unfold execPbAbort at e
  injection e with e; subst e
  try dsimp only
  repeat' first
    | with_reducible assumption
    | exact Sub.trans (by decide) hM
    | exact Sub.bit hM (by decide)
    | exact Sub.kind hM (by decide) _
    | (intro _; try dsimp only)
    | with_reducible apply State.pbCmd_kept
    | with_reducible apply Kept.ite
    | with_reducible refine Kept.of_pair (by assumption) ?_
    | split

theorem execPbFlush_kept {M : Nat} {b : State} {q : List Instr} {who : Initiator} {engine : Engine} {s : State} (hs : Kept M b q s) (hM : Sub 0x109000005080C M) {r : State} (e : (execPbFlush who engine s) = .next r) : Kept M b q r := by
  unfold execPbFlush at e
  injection e with e; subst e
  try dsimp only
  repeat' first
    | with_reducible assumption
    | exact Sub.trans (by decide) hM
    | exact Sub.bit hM (by decide)
    | exact Sub.kind hM (by decide) _
    | (intro _; try dsimp only)
    | with_reducible apply State.pbCmd_kept
    | with_reducible apply Kept.ite
    | with_reducible refine Kept.of_pair (by assumption) ?_
    | split

theorem execPbRecover_kept {M : Nat} {b : State} {q : List Instr} {who : Initiator} {engine : Engine} {s : State} (hs : Kept M b q s) (hM : Sub 0x109000005080C M) {r : State} (e : (execPbRecover who engine s) = .next r) : Kept M b q r := by
  unfold execPbRecover at e
  injection e with e; subst e
  try dsimp only
  repeat' first
    | with_reducible assumption
    | exact Sub.trans (by decide) hM
    | exact Sub.bit hM (by decide)
    | exact Sub.kind hM (by decide) _
    | (intro _; try dsimp only)
    | with_reducible apply State.pbCmd_kept
    | with_reducible apply Kept.ite
    | with_reducible refine Kept.of_pair (by assumption) ?_
    | split

end Sys2Proof.Machine
end

