-- ==== Sys2Proof/Laws/KeptMatrix.lean ====
section
/-! SUPPORT. What the functions of Machine/Matrix.lean keep (Laws/Kept.lean). -/
namespace Sys2Proof.Machine

theorem State.ttInit_kept {M : Nat} {b : State} {q : List Instr} {s : State} {n : Nat} {c : Nat} (hs : Kept M b q s) (hM : Sub 0x1000000040000 M) : Kept M b q (State.ttInit s n c) := by
  unfold State.ttInit
  try dsimp only
  repeat' first
    | with_reducible assumption
    | exact Sub.trans (by decide) hM
    | exact Sub.bit hM (by decide)
    | exact Sub.kind hM (by decide) _
    | (intro _; try dsimp only)
    | with_reducible apply bit_enOf
    | with_reducible apply State.setChan_kept
    | with_reducible apply State.wr_kept
    | with_reducible apply Kept.ite
    | with_reducible refine Kept.of_pair (by assumption) ?_
    | split

theorem State.ttRestart_kept {M : Nat} {b : State} {q : List Instr} {s : State} {n : Nat} (hs : Kept M b q s) (hM : Sub 0x1000000040000 M) : Kept M b q (State.ttRestart s n) := by
  unfold State.ttRestart
  try dsimp only
  repeat' first
    | with_reducible assumption
    | exact Sub.trans (by decide) hM
    | exact Sub.bit hM (by decide)
    | exact Sub.kind hM (by decide) _
    | (intro _; try dsimp only)
    | with_reducible apply State.ttInit_kept
    | with_reducible apply Kept.foldl
    | with_reducible apply Kept.foldlP
    | with_reducible apply Kept.ite
    | with_reducible refine Kept.of_pair (by assumption) ?_
    | split

theorem State.ttBegin_kept {M : Nat} {b : State} {q : List Instr} {s : State} {n : Nat} {c : Nat} {row : Nat} {z : Int} {next : Int} (hs : Kept M b q s) (hM : Sub 0x1000000040000 M) : Kept M b q (State.ttBegin s n c row z next) := by
  unfold State.ttBegin
  try dsimp only
  repeat' first
    | with_reducible assumption
    | exact Sub.trans (by decide) hM
    | exact Sub.bit hM (by decide)
    | exact Sub.kind hM (by decide) _
    | (intro _; try dsimp only)
    | with_reducible apply bit_enOf
    | with_reducible apply State.cycle_kept
    | with_reducible apply State.fs_kept
    | with_reducible apply State.setChan_kept
    | with_reducible apply Kept.ite
    | with_reducible refine Kept.of_pair (by assumption) ?_
    | split

theorem execTtBasicCycleStart_kept {M : Nat} {b : State} {q : List Instr} {matrix : Matrix} {s : State} (hs : Kept M b q s) (hM : Sub 0x1000000040000 M) {r : State} (e : (execTtBasicCycleStart matrix s) = .next r) : Kept M b q r := by
  unfold execTtBasicCycleStart at e
  injection e with e; subst e
  try dsimp only
  repeat' first
    | with_reducible assumption
    | exact Sub.trans (by decide) hM
    | exact Sub.bit hM (by decide)
    | exact Sub.kind hM (by decide) _
    | (intro _; try dsimp only)
    | with_reducible apply bit_enOf
    | with_reducible apply State.cycle_kept
    | with_reducible apply State.ttBegin_kept
    | with_reducible apply Kept.ite
    | with_reducible refine Kept.of_pair (by assumption) ?_
    | split

theorem State.ttColumn_kept {M : Nat} {b : State} {q : List Instr} {s : State} {n : Nat} {c : Nat} {m : Nat} {j : Nat} {u : Int} {fin : Int} (hs : Kept M b q s) (hM : Sub 0x1000000040808 M) : Kept M b q (State.ttColumn s n c m j u fin) := by
  unfold State.ttColumn
  try dsimp only
  repeat' first
    | with_reducible assumption
    | exact Sub.trans (by decide) hM
    | exact Sub.bit hM (by decide)
    | exact Sub.kind hM (by decide) _
    | (intro _; try dsimp only)
    | with_reducible apply bit_enOf
    | with_reducible apply State.enCnt_kept
    | with_reducible apply State.pbStartAt_kept
    | with_reducible apply State.setChan_kept
    | with_reducible apply Kept.ite
    | with_reducible refine Kept.of_pair (by assumption) ?_
    | split

theorem execTtColumnStart_kept {M : Nat} {b : State} {q : List Instr} {matrix : Matrix} {s : State} (hs : Kept M b q s) (hM : Sub 0x1000000040808 M) {r : State} (e : (execTtColumnStart matrix s) = .next r) : Kept M b q r := by
  unfold execTtColumnStart at e
  injection e with e; subst e
  try dsimp only
  repeat' first
    | with_reducible assumption
    | exact Sub.trans (by decide) hM
    | exact Sub.bit hM (by decide)
    | exact Sub.kind hM (by decide) _
    | (intro _; try dsimp only)
    | with_reducible apply bit_enOf
    | with_reducible apply State.cycle_kept
    | with_reducible apply State.fs_kept
    | with_reducible apply State.setChan_kept
    | with_reducible apply State.ttColumn_kept
    | with_reducible apply Kept.ite
    | with_reducible refine Kept.of_pair (by assumption) ?_
    | split

theorem State.ttMiss_kept {M : Nat} {b : State} {q : List Instr} {s : State} {n : Nat} {c : Nat} {m : Nat} {x4 : Int} (hs : Kept M b q s) (hM : Sub 0x1000000040808 M) : Kept M b q (State.ttMiss s n c m x4) := by
  unfold State.ttMiss
  try dsimp only
  repeat' first
    | with_reducible assumption
    | exact Sub.trans (by decide) hM
    | exact Sub.bit hM (by decide)
    | exact Sub.kind hM (by decide) _
    | (intro _; try dsimp only)
    | with_reducible apply bit_enOf
    | with_reducible apply State.cycle_kept
    | with_reducible apply State.fs_kept
    | with_reducible apply State.inc_kept
    | with_reducible apply State.raiseIf_kept
    | with_reducible apply State.setChan_kept
    | with_reducible apply State.ttBegin_kept
    | with_reducible apply Kept.ite
    | with_reducible refine Kept.of_pair (by assumption) ?_
    | split

theorem execTtRefTimeout_kept {M : Nat} {b : State} {q : List Instr} {matrix : Matrix} {s : State} (hs : Kept M b q s) (hM : Sub 0x1000000040808 M) {r : State} (e : (execTtRefTimeout matrix s) = .next r) : Kept M b q r := by
  unfold execTtRefTimeout at e
  injection e with e; subst e
  try dsimp only
  repeat' first
    | with_reducible assumption
    | exact Sub.trans (by decide) hM
    | exact Sub.bit hM (by decide)
    | exact Sub.kind hM (by decide) _
    | (intro _; try dsimp only)
    | with_reducible apply bit_enOf
    | with_reducible apply State.ttMiss_kept
    | with_reducible apply Kept.ite
    | with_reducible refine Kept.of_pair (by assumption) ?_
    | split

theorem State.ttReference_kept {M : Nat} {b : State} {q : List Instr} {s : State} {n : Nat} {c : Nat} {m : Nat} {idw : Nat} {data : List Byte} {sof : Int} (hs : Kept M b q s) (hM : Sub 0x1000000040000 M) : Kept M b q (State.ttReference s n c m idw data sof) := by
  unfold State.ttReference
  try dsimp only
  repeat' first
    | with_reducible assumption
    | exact Sub.trans (by decide) hM
    | exact Sub.bit hM (by decide)
    | exact Sub.kind hM (by decide) _
    | (intro _; try dsimp only)
    | with_reducible apply bit_enOf
    | with_reducible apply State.fs_kept
    | with_reducible apply State.ttBegin_kept
    | with_reducible apply State.wr_kept
    | with_reducible apply Kept.ite
    | with_reducible refine Kept.of_pair (by assumption) ?_
    | split

end Sys2Proof.Machine
end

