-- ==== Sys2Proof/Laws/KeptEngineReport.lean ====
section
/-! SUPPORT. What the functions of Machine/EngineReport.lean keep (Laws/Kept.lean). -/
namespace Sys2Proof.Machine

theorem State.repTaken_kept {M : Nat} {b : State} {q : List Instr} {s : State} {n : Nat} {c : Nat} {level : Option Bool} (hs : Kept M b q s) (hM : Sub 0x40000 M) : Kept M b q (State.repTaken s n c level) := by
  unfold State.repTaken
  try dsimp only
  repeat' first
    | with_reducible assumption
    | exact Sub.trans (by decide) hM
    | exact Sub.bit hM (by decide)
    | exact Sub.kind hM (by decide) _
    | (intro _; try dsimp only)
    | with_reducible apply State.setChan_kept
    | with_reducible apply Kept.ite
    | with_reducible refine Kept.of_pair (by assumption) ?_
    | split

theorem State.engTaken_kept {M : Nat} {b : State} {q : List Instr} {s : State} {n : Nat} {c : Nat} {taken : Nat} {stamp : List Byte} (hs : Kept M b q s) (hM : Sub 0x40000 M) : Kept M b q (State.engTaken s n c taken stamp) := by
  unfold State.engTaken
  try dsimp only
  repeat' first
    | with_reducible assumption
    | exact Sub.trans (by decide) hM
    | exact Sub.bit hM (by decide)
    | exact Sub.kind hM (by decide) _
    | (intro _; try dsimp only)
    | with_reducible apply State.setChan_kept
    | with_reducible apply Kept.ite
    | with_reducible refine Kept.of_pair (by assumption) ?_
    | split

theorem State.engSet_kept {M : Nat} {b : State} {q : List Instr} {s : State} {n : Nat} {c : Nat} {bs : List Byte} (hs : Kept M b q s) (hM : Sub 0x1000000040000 M) : Kept M b q (State.engSet s n c bs) := by
  unfold State.engSet
  try dsimp only
  repeat' first
    | with_reducible assumption
    | exact Sub.trans (by decide) hM
    | exact Sub.bit hM (by decide)
    | exact Sub.kind hM (by decide) _
    | (intro _; try dsimp only)
    | with_reducible apply bit_enOf
    | with_reducible apply State.engTaken_kept
    | with_reducible apply State.fs_kept
    | with_reducible apply State.setChan_kept
    | with_reducible apply State.setPb_kept
    | with_reducible apply State.wr_kept
    | with_reducible apply Kept.ite
    | with_reducible refine Kept.of_pair (by assumption) ?_
    | split

theorem State.engLoad_kept {M : Nat} {b : State} {q : List Instr} {s : State} {n : Nat} {c : Nat} (hs : Kept M b q s) (hM : Sub 0x1000000440000 M) : Kept M b q (State.engLoad s n c) := by
  unfold State.engLoad
  try dsimp only
  repeat' first
    | with_reducible assumption
    | exact Sub.trans (by decide) hM
    | exact Sub.bit hM (by decide)
    | exact Sub.kind hM (by decide) _
    | (intro _; try dsimp only)
    | with_reducible apply State.engSet_kept
    | with_reducible apply Kept.ite
    | with_reducible refine Kept.of_pair (by assumption) ?_
    | split
    | with_reducible refine Kept.set_tw ?_ ?_

theorem State.engParity_kept {M : Nat} {b : State} {q : List Instr} {s : State} {n : Nat} {c : Nat} {parity : EngParity} (hs : Kept M b q s) (hM : Sub 0x800000000008 M) : Kept M b q (State.engParity s n c parity) := by
  unfold State.engParity
  try dsimp only
  repeat' first
    | with_reducible assumption
    | exact Sub.trans (by decide) hM
    | exact Sub.bit hM (by decide)
    | exact Sub.kind hM (by decide) _
    | (intro _; try dsimp only)
    | with_reducible apply bit_ecPage
    | with_reducible apply State.fault_kept
    | with_reducible apply State.fs_kept
    | with_reducible apply Kept.ite
    | with_reducible refine Kept.of_pair (by assumption) ?_
    | split

theorem execEngineFrameReport_kept {M : Nat} {b : State} {q : List Instr} {pitch : Pitch} {chan : Channel} {parity : EngParity} {s : State} (hs : Kept M b q s) (hM : Sub 0x1800040440808 M) {r : State} (e : (execEngineFrameReport pitch chan parity s) = .next r) : Kept M b q r := by
  unfold execEngineFrameReport at e
  injection e with e; subst e
  try dsimp only
  repeat' first
    | with_reducible assumption
    | exact Sub.trans (by decide) hM
    | exact Sub.bit hM (by decide)
    | exact Sub.kind hM (by decide) _
    | (intro _; try dsimp only)
    | with_reducible apply bit_enOf
    | with_reducible apply State.asReport_kept
    | with_reducible apply State.diReport_kept
    | with_reducible apply State.engLoad_kept
    | with_reducible apply State.engParity_kept
    | with_reducible apply State.pbReport_kept
    | with_reducible apply State.repTaken_kept
    | with_reducible apply State.syReport_kept
    | with_reducible apply Kept.ite
    | with_reducible refine Kept.of_pair (by assumption) ?_
    | split

theorem execEngineGap_kept {M : Nat} {b : State} {q : List Instr} {pitch : Pitch} {chan : Channel} {s : State} (hs : Kept M b q s) (hM : Sub 0x1000000440808 M) {r : State} (e : (execEngineGap pitch chan s) = .next r) : Kept M b q r := by
  unfold execEngineGap at e
  injection e with e; subst e
  try dsimp only
  repeat' first
    | with_reducible assumption
    | exact Sub.trans (by decide) hM
    | exact Sub.bit hM (by decide)
    | exact Sub.kind hM (by decide) _
    | (intro _; try dsimp only)
    | with_reducible apply bit_enOf
    | with_reducible apply bit_clPage
    | with_reducible apply State.asGap_kept
    | with_reducible apply State.diGap_kept
    | with_reducible apply State.dueLost_kept
    | with_reducible apply State.engLoad_kept
    | with_reducible apply State.pbGap_kept
    | with_reducible apply State.repTaken_kept
    | with_reducible apply State.syGap_kept
    | with_reducible apply Kept.ite
    | with_reducible refine Kept.of_pair (by assumption) ?_
    | split

theorem State.migCut_kept {M : Nat} {b : State} {q : List Instr} {s : State} {n : Nat} {c : Nat} (hs : Kept M b q s) (hM : Sub 0x1800000040808 M) : Kept M b q (State.migCut s n c) := by
  unfold State.migCut
  try dsimp only
  repeat' first
    | with_reducible assumption
    | exact Sub.trans (by decide) hM
    | exact Sub.bit hM (by decide)
    | exact Sub.kind hM (by decide) _
    | (intro _; try dsimp only)
    | with_reducible apply bit_enOf
    | with_reducible apply bit_ecPage
    | with_reducible apply State.asGap_kept
    | with_reducible apply State.diGap_kept
    | with_reducible apply State.inc_kept
    | with_reducible apply State.pbGap_kept
    | with_reducible apply State.syCut_kept
    | with_reducible apply Kept.ite
    | with_reducible refine Kept.of_pair (by assumption) ?_
    | split

theorem State.migUrgent_kept {M : Nat} {b : State} {q : List Instr} {s : State} {n : Nat} {c : Nat} {cause : Nat} (hs : Kept M b q s) (hM : Sub 0x29800000040A09 M) : Kept M b q (State.migUrgent s n c cause) := by
  unfold State.migUrgent
  try dsimp only
  repeat' first
    | with_reducible assumption
    | exact Sub.trans (by decide) hM
    | exact Sub.bit hM (by decide)
    | exact Sub.kind hM (by decide) _
    | (intro _; try dsimp only)
    | with_reducible apply bit_enOf
    | with_reducible apply bit_clPage
    | with_reducible apply State.migCut_kept
    | with_reducible apply State.migSwitch_kept
    | with_reducible apply State.pbTurn_kept
    | with_reducible apply State.ttInit_kept
    | with_reducible apply Kept.ite
    | with_reducible refine Kept.of_pair (by assumption) ?_
    | split

theorem execMigrationSwitch_kept {M : Nat} {b : State} {q : List Instr} {cluster : Pitch} {s : State} (hs : Kept M b q s) (hM : Sub 0x29800000040A09 M) {r : State} (e : (execMigrationSwitch cluster s) = .next r) : Kept M b q r := by
  unfold execMigrationSwitch at e
  injection e with e; subst e
  try dsimp only
  repeat' first
    | with_reducible assumption
    | exact Sub.trans (by decide) hM
    | exact Sub.bit hM (by decide)
    | exact Sub.kind hM (by decide) _
    | (intro _; try dsimp only)
    | with_reducible apply bit_ecPage
    | with_reducible apply State.migSwitch_kept
    | with_reducible apply State.migUrgent_kept
    | with_reducible apply Kept.ite
    | with_reducible refine Kept.of_pair (by assumption) ?_
    | split

end Sys2Proof.Machine
end

