-- ==== Sys2Proof/Laws/KeptQueues.lean ====
section
/-! SUPPORT. What the functions of Machine/Queues.lean keep (Laws/Kept.lean). -/
namespace Sys2Proof.Machine

theorem State.qFlushWrite_kept {M : Nat} {b : State} {q : List Instr} {s : State} {p : Nat} {v : Word} (hs : Kept M b q s) (hM : Sub 0x808 M) (hp1 : M.testBit (kindBit (kindOf p)) = true) : Kept M b q (State.qFlushWrite s p v) := by
  unfold State.qFlushWrite
  try dsimp only
  repeat' first
    | with_reducible assumption
    | exact Sub.trans (by decide) hM
    | exact Sub.bit hM (by decide)
    | exact Sub.kind hM (by decide) _
    | (intro _; try dsimp only)
    | with_reducible apply bit_qPage
    | with_reducible apply State.raise_kept
    | with_reducible apply State.wr_kept
    | with_reducible apply Kept.ite
    | with_reducible refine Kept.of_pair (by assumption) ?_
    | split

theorem execQFlush_kept {M : Nat} {b : State} {q : List Instr} {who : Initiator} {page : Fin 4} {v : Word} {s : State} (hs : Kept M b q s) (hM : Sub 0x9400001080C M) {r : State} (e : (execQFlush who page v s) = .next r) : Kept M b q r := by
  unfold execQFlush at e
  injection e with e; subst e
  try dsimp only
  repeat' first
    | with_reducible assumption
    | exact Sub.trans (by decide) hM
    | exact Sub.bit hM (by decide)
    | exact Sub.kind hM (by decide) _
    | (intro _; try dsimp only)
    | exact bit_qVal (hM.bit (by decide)) _
    | with_reducible apply State.qFlushWrite_kept
    | with_reducible apply State.write_kept
    | with_reducible apply Kept.ite
    | with_reducible refine Kept.of_pair (by assumption) ?_
    | split

theorem execFlushPoint_kept {M : Nat} {b : State} {q : List Instr} {page : Fin 4} {s : State} (hs : Kept M b q s) (hM : Sub 0x6000003808 M) {r : State} (e : (execFlushPoint page s) = .next r) : Kept M b q r := by
  unfold execFlushPoint at e
  injection e with e; subst e
  try dsimp only
  repeat' first
    | with_reducible assumption
    | exact Sub.trans (by decide) hM
    | exact Sub.bit hM (by decide)
    | exact Sub.kind hM (by decide) _
    | (intro _; try dsimp only)
    | exact bit_qVal (hM.bit (by decide)) _
    | with_reducible apply State.addSat_kept
    | with_reducible apply State.flushQueue_kept
    | with_reducible apply State.fs_kept
    | with_reducible apply State.raise_kept
    | with_reducible apply Kept.ite
    | with_reducible refine Kept.of_pair (by assumption) ?_
    | split

theorem State.qClrCnt_kept {M : Nat} {b : State} {q : List Instr} {s : State} {p : Nat} (hs : Kept M b q s) (hM : Sub 0x0 M) (hp1 : M.testBit (kindBit (kindOf p)) = true) : Kept M b q (State.qClrCnt s p) := by
  unfold State.qClrCnt
  try dsimp only
  repeat' first
    | with_reducible assumption
    | exact Sub.trans (by decide) hM
    | exact Sub.bit hM (by decide)
    | exact Sub.kind hM (by decide) _
    | (intro _; try dsimp only)
    | with_reducible apply State.wr_kept
    | with_reducible apply Kept.ite
    | with_reducible refine Kept.of_pair (by assumption) ?_
    | split

theorem State.queuesClr_kept {M : Nat} {b : State} {q : List Instr} {s : State} (hs : Kept M b q s) (hM : Sub 0x4000000000 M) : Kept M b q (State.queuesClr s) := by
  unfold State.queuesClr
  refine Kept.foldlM hs fun t p hp h => State.qClrCnt_kept h (Sub.trans (by decide) hM) ?_
  have hk : kindOf p = some .q := by
    revert p; decide
  rw [hk]; exact hM.bit (by decide)

theorem execQClrCnt_kept {M : Nat} {b : State} {q : List Instr} {who : Initiator} {page : Fin 4} {s : State} (hs : Kept M b q s) (hM : Sub 0x9400001080C M) {r : State} (e : (execQClrCnt who page s) = .next r) : Kept M b q r := by
  unfold execQClrCnt at e
  injection e with e; subst e
  try dsimp only
  repeat' first
    | with_reducible assumption
    | exact Sub.trans (by decide) hM
    | exact Sub.bit hM (by decide)
    | exact Sub.kind hM (by decide) _
    | (intro _; try dsimp only)
    | exact bit_qVal (hM.bit (by decide)) _
    | with_reducible apply State.qClrCnt_kept
    | with_reducible apply State.write_kept
    | with_reducible apply Kept.ite
    | with_reducible refine Kept.of_pair (by assumption) ?_
    | split

theorem State.graceFlush_kept {M : Nat} {b : State} {q : List Instr} {s : State} {p : Nat} (hs : Kept M b q s) (hM : Sub 0x6000003808 M) : Kept M b q (State.graceFlush s p) := by
  unfold State.graceFlush
  try dsimp only
  repeat' first
    | with_reducible assumption
    | exact Sub.trans (by decide) hM
    | exact Sub.bit hM (by decide)
    | exact Sub.kind hM (by decide) _
    | (intro _; try dsimp only)
    | with_reducible apply State.addSat_kept
    | with_reducible apply State.flushQueue_kept
    | with_reducible apply Kept.foldl
    | with_reducible apply Kept.foldlP
    | with_reducible apply Kept.ite
    | with_reducible refine Kept.of_pair (by assumption) ?_
    | split

theorem State.setLost_kept {M : Nat} {b : State} {q : List Instr} {s : State} {p : Nat} {v : Nat} (hs : Kept M b q s) (hM : Sub 0x1000 M) : Kept M b q (State.setLost s p v) := by
  unfold State.setLost
  try dsimp only
  repeat' first
    | with_reducible assumption
    | exact Sub.trans (by decide) hM
    | exact Sub.bit hM (by decide)
    | exact Sub.kind hM (by decide) _
    | (intro _; try dsimp only)
    | with_reducible apply Kept.ite
    | with_reducible refine Kept.of_pair (by assumption) ?_
    | split
    | with_reducible refine Kept.set_core ?_ ?_

theorem State.graceOver_kept {M : Nat} {b : State} {q : List Instr} {s : State} {p : Nat} (hs : Kept M b q s) (hM : Sub 0x6000003808 M) : Kept M b q (State.graceOver s p) := by
  unfold State.graceOver
  try dsimp only
  repeat' first
    | with_reducible assumption
    | exact Sub.trans (by decide) hM
    | exact Sub.bit hM (by decide)
    | exact Sub.kind hM (by decide) _
    | (intro _; try dsimp only)
    | with_reducible apply State.graceFlush_kept
    | with_reducible apply State.raise_kept
    | with_reducible apply State.setLost_kept
    | with_reducible apply Kept.ite
    | with_reducible refine Kept.of_pair (by assumption) ?_
    | split

theorem State.portLost_kept {M : Nat} {b : State} {q : List Instr} {s : State} {p : Nat} (hs : Kept M b q s) (hM : Sub 0x6000003808 M) : Kept M b q (State.portLost s p) := by
  unfold State.portLost
  try dsimp only
  repeat' first
    | with_reducible assumption
    | exact Sub.trans (by decide) hM
    | exact Sub.bit hM (by decide)
    | exact Sub.kind hM (by decide) _
    | (intro _; try dsimp only)
    | with_reducible apply State.graceOver_kept
    | with_reducible apply State.setLost_kept
    | with_reducible apply Kept.ite
    | with_reducible refine Kept.of_pair (by assumption) ?_
    | split

theorem State.portBack_kept {M : Nat} {b : State} {q : List Instr} {s : State} {p : Nat} {same : Bool} (hs : Kept M b q s) (hM : Sub 0x6000003808 M) : Kept M b q (State.portBack s p same) := by
  unfold State.portBack
  try dsimp only
  repeat' first
    | with_reducible assumption
    | exact Sub.trans (by decide) hM
    | exact Sub.bit hM (by decide)
    | exact Sub.kind hM (by decide) _
    | (intro _; try dsimp only)
    | with_reducible apply State.graceFlush_kept
    | with_reducible apply State.raise_kept
    | with_reducible apply State.setLost_kept
    | with_reducible apply Kept.ite
    | with_reducible refine Kept.of_pair (by assumption) ?_
    | split

theorem execQueueGraceExpired_kept {M : Nat} {b : State} {q : List Instr} {p : CorePort} {s : State} (hs : Kept M b q s) (hM : Sub 0x6000003808 M) {r : State} (e : (execQueueGraceExpired p s) = .next r) : Kept M b q r := by
  unfold execQueueGraceExpired at e
  injection e with e; subst e
  try dsimp only
  repeat' first
    | with_reducible assumption
    | exact Sub.trans (by decide) hM
    | exact Sub.bit hM (by decide)
    | exact Sub.kind hM (by decide) _
    | (intro _; try dsimp only)
    | with_reducible apply State.graceFlush_kept
    | with_reducible apply State.graceOver_kept
    | with_reducible apply Kept.ite
    | with_reducible refine Kept.of_pair (by assumption) ?_
    | split

theorem State.staleSweep_kept {M : Nat} {b : State} {q : List Instr} {s : State} (hs : Kept M b q s) (hM : Sub 0x6000003808 M) : Kept M b q (State.staleSweep s) := by
  unfold State.staleSweep
  try dsimp only
  repeat' first
    | with_reducible assumption
    | exact Sub.trans (by decide) hM
    | exact Sub.bit hM (by decide)
    | exact Sub.kind hM (by decide) _
    | (intro _; try dsimp only)
    | with_reducible apply State.graceFlush_kept
    | with_reducible apply Kept.foldl
    | with_reducible apply Kept.foldlP
    | with_reducible apply Kept.ite
    | with_reducible refine Kept.of_pair (by assumption) ?_
    | split

theorem State.setMbBit_kept {M : Nat} {b : State} {q : List Instr} {s : State} {reg : Nat} {m : Nat} (hs : Kept M b q s) (hM : Sub 0x4000000000 M) : Kept M b q (State.setMbBit s reg m) := by
  unfold State.setMbBit
  try dsimp only
  repeat' first
    | with_reducible assumption
    | exact Sub.trans (by decide) hM
    | exact Sub.bit hM (by decide)
    | exact Sub.kind hM (by decide) _
    | (intro _; try dsimp only)
    | with_reducible apply State.wr_kept
    | with_reducible apply Kept.ite
    | with_reducible refine Kept.of_pair (by assumption) ?_
    | split

theorem State.mbCell_kept {M : Nat} {b : State} {q : List Instr} {s : State} {x1 : Nat} (hs : Kept M b q s) (hM : Sub 0x1000 M) {α} {r : State} (e : (State.mbCell s x1) = some (α, r)) : Kept M b q r := by
  unfold State.mbCell at e
  split at e
  · cases e
  split at e
  · simp only [Option.some.injEq, Prod.mk.injEq] at e
    obtain ⟨rfl, rfl⟩ := e
    exact State.setBank_kept hs (Sub.trans (by decide) hM)
  · obtain ⟨c, _, h⟩ := Option.map_eq_some_iff.1 e
    simp only [Prod.mk.injEq] at h
    obtain ⟨rfl, rfl⟩ := h
    exact State.setBank_kept hs (Sub.trans (by decide) hM)

theorem State.mbPush_kept {M : Nat} {b : State} {q : List Instr} {s0 : State} {m : Nat} {v : Word} (hs0 : Kept M b q s0) (hM : Sub 0x4000401808 M) : Kept M b q (State.mbPush s0 m v) := by
  unfold State.mbPush
  have h0 : Kept M b q s0.endCycle := State.endCycle_kept hs0 (Sub.trans (by decide) hM)
  dsimp only
  split
  · exact State.raise_kept (State.setMbBit_kept h0 (Sub.trans (by decide) hM)) (Sub.trans (by decide) hM) (hM.bit (by decide))
  · next c t hc =>
    have h1 : Kept M b q t := State.mbCell_kept h0 (Sub.trans (by decide) hM) hc
    refine State.mirrorQueue_kept (State.raiseIf_kept (State.pushEnt_kept (State.setLink_kept (State.setCell_kept h1 ?_) ?_) ?_) ?_ ?_) ?_
    all_goals first | exact Sub.trans (by decide) hM | exact hM.bit (by decide)

theorem execMbPush_kept {M : Nat} {b : State} {q : List Instr} {who : Initiator} {m : Mailbox} {v : Word} {s : State} (hs : Kept M b q s) (hM : Sub 0x9400041180C M) {r : State} (e : (execMbPush who m v s) = .next r) : Kept M b q r := by
  unfold execMbPush at e
  injection e with e; subst e
  try dsimp only
  repeat' first
    | with_reducible assumption
    | exact Sub.trans (by decide) hM
    | exact Sub.bit hM (by decide)
    | exact Sub.kind hM (by decide) _
    | (intro _; try dsimp only)
    | with_reducible apply State.mbPush_kept
    | with_reducible apply State.write_kept
    | with_reducible apply Kept.ite
    | with_reducible refine Kept.of_pair (by assumption) ?_
    | split

theorem State.mbPop_kept {M : Nat} {b : State} {q : List Instr} {s : State} {m : Nat} {ecc : Ecc} (hs : Kept M b q s) (hM : Sub 0x6040403808 M) : Kept M b q (State.mbPop s m ecc).1 := by
  unfold State.mbPop
  try dsimp only
  repeat' first
    | with_reducible assumption
    | exact Sub.trans (by decide) hM
    | exact Sub.bit hM (by decide)
    | exact Sub.kind hM (by decide) _
    | (intro _; try dsimp only)
    | with_reducible apply State.eccRead_kept
    | with_reducible apply State.freeCell_kept
    | with_reducible apply State.freeEnt_kept
    | with_reducible apply State.mirrorQueue_kept
    | with_reducible apply State.raise_kept
    | with_reducible apply State.setMbBit_kept
    | with_reducible apply State.setQue_kept
    | with_reducible apply State.tookFree_kept
    | with_reducible apply Kept.ite
    | with_reducible refine Kept.of_pair (by assumption) ?_
    | split

theorem execMbPopTake_kept {M : Nat} {b : State} {q : List Instr} {who : Initiator} {m : Mailbox} {ecc : Ecc} {s : State} (hs : Kept M b q s) (hM : Sub 0x1604041380C M) {r : State} (e : (execMbPopTake who m ecc s) = .next r) : Kept M b q r := by
  unfold execMbPopTake at e
  injection e with e; subst e
  try dsimp only
  repeat' first
    | with_reducible assumption
    | exact Sub.trans (by decide) hM
    | exact Sub.bit hM (by decide)
    | exact Sub.kind hM (by decide) _
    | (intro _; try dsimp only)
    | with_reducible apply State.mbPop_kept
    | with_reducible apply State.read_kept
    | with_reducible apply Kept.ite
    | with_reducible refine Kept.of_pair (by assumption) ?_
    | split

theorem State.qrpCells_kept {M : Nat} {b : State} {q : List Instr} {s : State} {p : Nat} {v : BitVec 192} (hs : Kept M b q s) (hM : Sub 0x0 M) (hp1 : M.testBit (kindBit (kindOf p)) = true) : Kept M b q (State.qrpCells s p v) := by
  unfold State.qrpCells
  try dsimp only
  repeat' first
    | with_reducible assumption
    | exact Sub.trans (by decide) hM
    | exact Sub.bit hM (by decide)
    | exact Sub.kind hM (by decide) _
    | (intro _; try dsimp only)
    | with_reducible apply State.wr_kept
    | with_reducible apply Kept.foldl
    | with_reducible apply Kept.foldlP
    | with_reducible apply Kept.ite
    | with_reducible refine Kept.of_pair (by assumption) ?_
    | split

theorem State.qrpTake_kept {M : Nat} {b : State} {q : List Instr} {s : State} {p : Nat} {ecc : Ecc} (hs : Kept M b q s) (hM : Sub 0x2040403808 M) (hp1 : M.testBit (kindBit (kindOf p)) = true) : Kept M b q (State.qrpTake s p ecc).1 := by
  unfold State.qrpTake
  try dsimp only
  repeat' first
    | with_reducible assumption
    | exact Sub.trans (by decide) hM
    | exact Sub.bit hM (by decide)
    | exact Sub.kind hM (by decide) _
    | (intro _; try dsimp only)
    | with_reducible apply State.eccRead_kept
    | with_reducible apply State.endCopy_kept
    | with_reducible apply State.mirrorQueue_kept
    | with_reducible apply State.qrpCells_kept
    | with_reducible apply State.raise_kept
    | with_reducible apply State.setQue_kept
    | with_reducible apply State.tookFree_kept
    | with_reducible apply Kept.ite
    | with_reducible refine Kept.of_pair (by assumption) ?_
    | split

theorem execQrpTake_kept {M : Nat} {b : State} {q : List Instr} {who : Initiator} {page : Fin 4} {ecc : Ecc} {s : State} (hs : Kept M b q s) (hM : Sub 0x1604041380C M) {r : State} (e : (execQrpTake who page ecc s) = .next r) : Kept M b q r := by
  unfold execQrpTake at e
  injection e with e; subst e
  try dsimp only
  repeat' first
    | with_reducible assumption
    | exact Sub.trans (by decide) hM
    | exact Sub.bit hM (by decide)
    | exact Sub.kind hM (by decide) _
    | (intro _; try dsimp only)
    | exact bit_qVal (hM.bit (by decide)) _
    | with_reducible apply State.qrpTake_kept
    | with_reducible apply State.read_kept
    | with_reducible apply Kept.ite
    | with_reducible refine Kept.of_pair (by assumption) ?_
    | split

theorem execCoreSpareCmd_kept {M : Nat} {b : State} {q : List Instr} {who : Initiator} {v : Word} {s : State} (hs : Kept M b q s) (hM : Sub 0x9200001180C M) {r : State} (e : (execCoreSpareCmd who v s) = .next r) : Kept M b q r := by
  unfold execCoreSpareCmd at e
  injection e with e; subst e
  try dsimp only
  repeat' first
    | with_reducible assumption
    | exact Sub.trans (by decide) hM
    | exact Sub.bit hM (by decide)
    | exact Sub.kind hM (by decide) _
    | (intro _; try dsimp only)
    | with_reducible apply State.coreSpareCmd_kept
    | with_reducible apply State.write_kept
    | with_reducible apply Kept.ite
    | with_reducible refine Kept.of_pair (by assumption) ?_
    | split

theorem execCoreClrCnt_kept {M : Nat} {b : State} {q : List Instr} {who : Initiator} {s : State} (hs : Kept M b q s) (hM : Sub 0x9200001080C M) {r : State} (e : (execCoreClrCnt who s) = .next r) : Kept M b q r := by
  unfold execCoreClrCnt at e
  injection e with e; subst e
  try dsimp only
  repeat' first
    | with_reducible assumption
    | exact Sub.trans (by decide) hM
    | exact Sub.bit hM (by decide)
    | exact Sub.kind hM (by decide) _
    | (intro _; try dsimp only)
    | with_reducible apply State.coreClrCnt_kept
    | with_reducible apply State.write_kept
    | with_reducible apply Kept.ite
    | with_reducible refine Kept.of_pair (by assumption) ?_
    | split

theorem State.coreDiscard_kept {M : Nat} {b : State} {q : List Instr} {s : State} (hs : Kept M b q s) (hM : Sub 0x1800 M) : Kept M b q (State.coreDiscard s) := by
  unfold State.coreDiscard
  try dsimp only
  repeat' first
    | with_reducible assumption
    | exact Sub.trans (by decide) hM
    | exact Sub.bit hM (by decide)
    | exact Sub.kind hM (by decide) _
    | (intro _; try dsimp only)
    | with_reducible apply Kept.ite
    | with_reducible refine Kept.of_pair (by assumption) ?_
    | split
    | with_reducible refine Kept.set_core ?_ ?_
    | with_reducible refine Kept.set_ingress ?_ ?_
    | (refine Kept.upd (s := ?_) ?_ ?_ ?_ ?_ ?_ ?_ ?_ ?_ ?_ ?_ ?_ ?_ ?_ ?_ ?_ ?_ ?_ ?_ ?_ ?_ ?_ ?_ ?_ ?_ ?_ ?_ ?_ ?_ ?_ ?_ ?_ <;> first | rfl | exact Or.inl rfl | exact Or.inr (hM.bit (by decide)) | skip)

end Sys2Proof.Machine
end

