-- ==== Sys2Proof/Laws/KeptCardLink.lean ====
section
/-! SUPPORT. What the functions of Machine/CardLink.lean keep (Laws/Kept.lean). -/
namespace Sys2Proof.Machine

theorem State.setCard_kept {M : Nat} {b : State} {q : List Instr} {s : State} {n : Nat} {x : Card} (hs : Kept M b q s) (hM : Sub 0x20000 M) : Kept M b q (State.setCard s n x) := by
  unfold State.setCard
  try dsimp only
  repeat' first
    | with_reducible assumption
    | exact Sub.trans (by decide) hM
    | exact Sub.bit hM (by decide)
    | exact Sub.kind hM (by decide) _
    | (intro _; try dsimp only)
    | with_reducible apply Kept.ite
    | with_reducible refine Kept.of_pair (by assumption) ?_
    | split
    | with_reducible refine Kept.set_cards ?_ ?_

theorem State.clHand_kept {M : Nat} {b : State} {q : List Instr} {s : State} {n : Nat} {c : Nat} {r : Rep} (hs : Kept M b q s) (hM : Sub 0x40000 M) : Kept M b q (State.clHand s n c r) := by
  unfold State.clHand
  try dsimp only
  repeat' first
    | with_reducible assumption
    | exact Sub.trans (by decide) hM
    | exact Sub.bit hM (by decide)
    | exact Sub.kind hM (by decide) _
    | (intro _; try dsimp only)
    | with_reducible apply bit_ecPage
    | with_reducible apply State.setChan_kept
    | with_reducible apply Kept.ite
    | with_reducible refine Kept.of_pair (by assumption) ?_
    | split

theorem State.clGaps_kept {M : Nat} {b : State} {q : List Instr} {s0 : State} {n : Nat} {base : Int} (hs0 : Kept M b q s0) (hM : Sub 0x50000 M) : Kept M b q (State.clGaps s0 n base) := by
  unfold State.clGaps
  try dsimp only
  repeat' first
    | with_reducible assumption
    | exact Sub.trans (by decide) hM
    | exact Sub.bit hM (by decide)
    | exact Sub.kind hM (by decide) _
    | (intro _; try dsimp only)
    | with_reducible apply State.clHand_kept
    | with_reducible apply Kept.foldl
    | with_reducible apply Kept.foldlP
    | with_reducible apply Kept.ite
    | with_reducible refine Kept.of_pair (by assumption) ?_
    | split
    | with_reducible refine Kept.set_scan ?_ ?_

theorem State.clLeave_kept {M : Nat} {b : State} {q : List Instr} {s : State} {n : Nat} (hs : Kept M b q s) (hM : Sub 0x406000053808 M) : Kept M b q (State.clLeave s n) := by
  unfold State.clLeave
  try dsimp only
  repeat' first
    | with_reducible assumption
    | exact Sub.trans (by decide) hM
    | exact Sub.bit hM (by decide)
    | exact Sub.kind hM (by decide) _
    | (intro _; try dsimp only)
    | with_reducible apply bit_clPage
    | with_reducible apply State.clGaps_kept
    | with_reducible apply State.fs_kept
    | with_reducible apply State.portLost_kept
    | with_reducible apply State.raise_kept
    | with_reducible apply Kept.ite
    | with_reducible refine Kept.of_pair (by assumption) ?_
    | split

theorem State.clTrain_kept {M : Nat} {b : State} {q : List Instr} {s : State} {n : Nat} (hs : Kept M b q s) (hM : Sub 0x406000073808 M) : Kept M b q (State.clTrain s n) := by
  unfold State.clTrain
  try dsimp only
  repeat' first
    | with_reducible assumption
    | exact Sub.trans (by decide) hM
    | exact Sub.bit hM (by decide)
    | exact Sub.kind hM (by decide) _
    | (intro _; try dsimp only)
    | with_reducible apply bit_clPage
    | with_reducible apply State.clLeave_kept
    | with_reducible apply State.fs_kept
    | with_reducible apply State.setCard_kept
    | with_reducible apply Kept.ite
    | with_reducible refine Kept.of_pair (by assumption) ?_
    | split

theorem State.clDetect_kept {M : Nat} {b : State} {q : List Instr} {s : State} {n : Nat} (hs : Kept M b q s) (hM : Sub 0x406000073808 M) : Kept M b q (State.clDetect s n) := by
  unfold State.clDetect
  try dsimp only
  repeat' first
    | with_reducible assumption
    | exact Sub.trans (by decide) hM
    | exact Sub.bit hM (by decide)
    | exact Sub.kind hM (by decide) _
    | (intro _; try dsimp only)
    | with_reducible apply bit_clPage
    | with_reducible apply State.clLeave_kept
    | with_reducible apply State.fs_kept
    | with_reducible apply State.setCard_kept
    | with_reducible apply Kept.ite
    | with_reducible refine Kept.of_pair (by assumption) ?_
    | split

theorem State.clOff_kept {M : Nat} {b : State} {q : List Instr} {s : State} {n : Nat} (hs : Kept M b q s) (hM : Sub 0x406000073808 M) : Kept M b q (State.clOff s n) := by
  unfold State.clOff
  try dsimp only
  repeat' first
    | with_reducible assumption
    | exact Sub.trans (by decide) hM
    | exact Sub.bit hM (by decide)
    | exact Sub.kind hM (by decide) _
    | (intro _; try dsimp only)
    | with_reducible apply bit_clPage
    | with_reducible apply State.clLeave_kept
    | with_reducible apply State.fs_kept
    | with_reducible apply State.setCard_kept
    | with_reducible apply Kept.ite
    | with_reducible refine Kept.of_pair (by assumption) ?_
    | split

theorem State.clLost_kept {M : Nat} {b : State} {q : List Instr} {s : State} {n : Nat} (hs : Kept M b q s) (hM : Sub 0x406000073808 M) : Kept M b q (State.clLost s n) := by
  unfold State.clLost
  try dsimp only
  repeat' first
    | with_reducible assumption
    | exact Sub.trans (by decide) hM
    | exact Sub.bit hM (by decide)
    | exact Sub.kind hM (by decide) _
    | (intro _; try dsimp only)
    | with_reducible apply bit_clPage
    | with_reducible apply State.clTrain_kept
    | with_reducible apply State.inc_kept
    | with_reducible apply Kept.ite
    | with_reducible refine Kept.of_pair (by assumption) ?_
    | split

theorem State.sbNext_kept {M : Nat} {b : State} {q : List Instr} {s : State} {n : Nat} {ty : Nat} {payload : List Byte} (hs : Kept M b q s) (hM : Sub 0x20000 M) : Kept M b q (State.sbNext s n ty payload) := by
  unfold State.sbNext
  try dsimp only
  repeat' first
    | with_reducible assumption
    | exact Sub.trans (by decide) hM
    | exact Sub.bit hM (by decide)
    | exact Sub.kind hM (by decide) _
    | (intro _; try dsimp only)
    | with_reducible apply State.setCard_kept
    | with_reducible apply Kept.ite
    | with_reducible refine Kept.of_pair (by assumption) ?_
    | split

theorem State.clSuper_kept {M : Nat} {b : State} {q : List Instr} {s : State} {n : Nat} (hs : Kept M b q s) (hM : Sub 0x20000 M) : Kept M b q (State.clSuper s n) := by
  unfold State.clSuper
  try dsimp only
  repeat' first
    | with_reducible assumption
    | exact Sub.trans (by decide) hM
    | exact Sub.bit hM (by decide)
    | exact Sub.kind hM (by decide) _
    | (intro _; try dsimp only)
    | with_reducible apply State.sbNext_kept
    | with_reducible apply State.setCard_kept
    | with_reducible apply Kept.ite
    | with_reducible refine Kept.of_pair (by assumption) ?_
    | split

theorem State.clHeld_kept {M : Nat} {b : State} {q : List Instr} {s : State} {n : Nat} {reason : Nat} (hs : Kept M b q s) (hM : Sub 0x400000000808 M) : Kept M b q (State.clHeld s n reason) := by
  unfold State.clHeld
  try dsimp only
  repeat' first
    | with_reducible assumption
    | exact Sub.trans (by decide) hM
    | exact Sub.bit hM (by decide)
    | exact Sub.kind hM (by decide) _
    | (intro _; try dsimp only)
    | with_reducible apply bit_clPage
    | with_reducible apply State.fs_kept
    | with_reducible apply State.raise_kept
    | with_reducible apply Kept.ite
    | with_reducible refine Kept.of_pair (by assumption) ?_
    | split

theorem execReceiverDetectProbe_kept {M : Nat} {b : State} {q : List Instr} {pitch : Pitch} {term : Bool} {s : State} (hs : Kept M b q s) (hM : Sub 0x406000073808 M) {r : State} (e : (execReceiverDetectProbe pitch term s) = .next r) : Kept M b q r := by
  unfold execReceiverDetectProbe at e
  injection e with e; subst e
  try dsimp only
  repeat' first
    | with_reducible assumption
    | exact Sub.trans (by decide) hM
    | exact Sub.bit hM (by decide)
    | exact Sub.kind hM (by decide) _
    | (intro _; try dsimp only)
    | with_reducible apply bit_clPage
    | with_reducible apply State.clTrain_kept
    | with_reducible apply State.fs_kept
    | with_reducible apply State.setCard_kept
    | with_reducible apply Kept.ite
    | with_reducible refine Kept.of_pair (by assumption) ?_
    | split

theorem State.clMarks_kept {M : Nat} {b : State} {q : List Instr} {s : State} {n : Nat} {a : CardEnd} (hs : Kept M b q s) (hM : Sub 0x400000000000 M) : Kept M b q (State.clMarks s n a) := by
  unfold State.clMarks
  try dsimp only
  repeat' first
    | with_reducible assumption
    | exact Sub.trans (by decide) hM
    | exact Sub.bit hM (by decide)
    | exact Sub.kind hM (by decide) _
    | (intro _; try dsimp only)
    | with_reducible apply bit_clPage
    | with_reducible apply State.addSat_kept
    | with_reducible apply State.inc_kept
    | with_reducible apply Kept.ite
    | with_reducible refine Kept.of_pair (by assumption) ?_
    | split

theorem State.clUnlock_kept {M : Nat} {b : State} {q : List Instr} {s : State} {n : Nat} (hs : Kept M b q s) (hM : Sub 0x400000020000 M) : Kept M b q (State.clUnlock s n) := by
  unfold State.clUnlock
  try dsimp only
  repeat' first
    | with_reducible assumption
    | exact Sub.trans (by decide) hM
    | exact Sub.bit hM (by decide)
    | exact Sub.kind hM (by decide) _
    | (intro _; try dsimp only)
    | with_reducible apply bit_clPage
    | with_reducible apply State.fs_kept
    | with_reducible apply State.setCard_kept
    | with_reducible apply Kept.ite
    | with_reducible refine Kept.of_pair (by assumption) ?_
    | split

theorem State.clTrainFrame_kept {M : Nat} {b : State} {q : List Instr} {s : State} {n : Nat} {bs : List Byte} {ok : Bool} {inv : Bool} (hs : Kept M b q s) (hM : Sub 0x400000020000 M) : Kept M b q (State.clTrainFrame s n bs ok inv) := by
  unfold State.clTrainFrame
  try dsimp only
  repeat' first
    | with_reducible assumption
    | exact Sub.trans (by decide) hM
    | exact Sub.bit hM (by decide)
    | exact Sub.kind hM (by decide) _
    | (intro _; try dsimp only)
    | with_reducible apply bit_clPage
    | with_reducible apply State.fs_kept
    | with_reducible apply State.setCard_kept
    | with_reducible apply Kept.ite
    | with_reducible refine Kept.of_pair (by assumption) ?_
    | split

theorem execCardTrainingFrame_kept {M : Nat} {b : State} {q : List Instr} {pitch : Pitch} {bytes : List Byte} {sample : Nat} {inv : Bool} {mark : CardEnd} {s : State} (hs : Kept M b q s) (hM : Sub 0x406000073808 M) {r : State} (e : (execCardTrainingFrame pitch bytes sample inv mark s) = .next r) : Kept M b q r := by
  unfold execCardTrainingFrame at e
  split at e
  · cases e
  injection e with e; subst e
  try dsimp only
  repeat' first
    | with_reducible assumption
    | exact Sub.trans (by decide) hM
    | exact Sub.bit hM (by decide)
    | exact Sub.kind hM (by decide) _
    | (intro _; try dsimp only)
    | with_reducible apply bit_clPage
    | with_reducible apply State.clMarks_kept
    | with_reducible apply State.clTrain_kept
    | with_reducible apply State.clTrainFrame_kept
    | with_reducible apply State.clUnlock_kept
    | with_reducible apply State.fault_kept
    | with_reducible apply State.setCard_kept
    | with_reducible apply Kept.ite
    | with_reducible refine Kept.of_pair (by assumption) ?_
    | split

theorem execCardTrainTimeout_kept {M : Nat} {b : State} {q : List Instr} {pitch : Pitch} {s : State} (hs : Kept M b q s) (hM : Sub 0x406000073808 M) {r : State} (e : (execCardTrainTimeout pitch s) = .next r) : Kept M b q r := by
  unfold execCardTrainTimeout at e
  injection e with e; subst e
  try dsimp only
  repeat' first
    | with_reducible assumption
    | exact Sub.trans (by decide) hM
    | exact Sub.bit hM (by decide)
    | exact Sub.kind hM (by decide) _
    | (intro _; try dsimp only)
    | with_reducible apply bit_clPage
    | with_reducible apply State.clDetect_kept
    | with_reducible apply State.inc_kept
    | with_reducible apply Kept.ite
    | with_reducible refine Kept.of_pair (by assumption) ?_
    | split

theorem execCardLosPersist_kept {M : Nat} {b : State} {q : List Instr} {pitch : Pitch} {s : State} (hs : Kept M b q s) (hM : Sub 0x406000073808 M) {r : State} (e : (execCardLosPersist pitch s) = .next r) : Kept M b q r := by
  unfold execCardLosPersist at e
  injection e with e; subst e
  try dsimp only
  repeat' first
    | with_reducible assumption
    | exact Sub.trans (by decide) hM
    | exact Sub.bit hM (by decide)
    | exact Sub.kind hM (by decide) _
    | (intro _; try dsimp only)
    | with_reducible apply bit_clPage
    | with_reducible apply State.clLost_kept
    | with_reducible apply State.clUnlock_kept
    | with_reducible apply State.fs_kept
    | with_reducible apply State.inc_kept
    | with_reducible apply Kept.ite
    | with_reducible refine Kept.of_pair (by assumption) ?_
    | split

theorem execLoopMeasureDone_kept {M : Nat} {b : State} {q : List Instr} {pitch : Pitch} {s : State} (hs : Kept M b q s) (hM : Sub 0x400000020808 M) {r : State} (e : (execLoopMeasureDone pitch s) = .next r) : Kept M b q r := by
  unfold execLoopMeasureDone at e
  injection e with e; subst e
  try dsimp only
  repeat' first
    | with_reducible assumption
    | exact Sub.trans (by decide) hM
    | exact Sub.bit hM (by decide)
    | exact Sub.kind hM (by decide) _
    | (intro _; try dsimp only)
    | with_reducible apply bit_clPage
    | with_reducible apply State.clHeld_kept
    | with_reducible apply State.clSuper_kept
    | with_reducible apply State.fs_kept
    | with_reducible apply State.setCard_kept
    | with_reducible apply Kept.foldl
    | with_reducible apply Kept.foldlP
    | with_reducible apply Kept.ite
    | with_reducible refine Kept.of_pair (by assumption) ?_
    | split

theorem execRollcallTimeout_kept {M : Nat} {b : State} {q : List Instr} {pitch : Pitch} {s : State} (hs : Kept M b q s) (hM : Sub 0x406000073808 M) {r : State} (e : (execRollcallTimeout pitch s) = .next r) : Kept M b q r := by
  unfold execRollcallTimeout at e
  injection e with e; subst e
  try dsimp only
  repeat' first
    | with_reducible assumption
    | exact Sub.trans (by decide) hM
    | exact Sub.bit hM (by decide)
    | exact Sub.kind hM (by decide) _
    | (intro _; try dsimp only)
    | with_reducible apply bit_clPage
    | with_reducible apply State.clTrain_kept
    | with_reducible apply State.inc_kept
    | with_reducible apply Kept.ite
    | with_reducible refine Kept.of_pair (by assumption) ?_
    | split

theorem State.clRetrain_kept {M : Nat} {b : State} {q : List Instr} {s : State} {n : Nat} (hs : Kept M b q s) (hM : Sub 0x406000073808 M) : Kept M b q (State.clRetrain s n) := by
  unfold State.clRetrain
  try dsimp only
  repeat' first
    | with_reducible assumption
    | exact Sub.trans (by decide) hM
    | exact Sub.bit hM (by decide)
    | exact Sub.kind hM (by decide) _
    | (intro _; try dsimp only)
    | with_reducible apply State.clTrain_kept
    | with_reducible apply Kept.ite
    | with_reducible refine Kept.of_pair (by assumption) ?_
    | split

theorem State.clClrCnt_kept {M : Nat} {b : State} {q : List Instr} {s : State} {n : Nat} (hs : Kept M b q s) (hM : Sub 0x400000000000 M) : Kept M b q (State.clClrCnt s n) := by
  unfold State.clClrCnt
  try dsimp only
  repeat' first
    | with_reducible assumption
    | exact Sub.trans (by decide) hM
    | exact Sub.bit hM (by decide)
    | exact Sub.kind hM (by decide) _
    | (intro _; try dsimp only)
    | with_reducible apply bit_clPage
    | with_reducible apply State.wr_kept
    | with_reducible apply Kept.foldl
    | with_reducible apply Kept.foldlP
    | with_reducible apply Kept.ite
    | with_reducible refine Kept.of_pair (by assumption) ?_
    | split

theorem State.clCtrlWrite_kept {M : Nat} {b : State} {q : List Instr} {s : State} {n : Nat} {v : Word} (hs : Kept M b q s) (hM : Sub 0x406000073808 M) : Kept M b q (State.clCtrlWrite s n v) := by
  unfold State.clCtrlWrite
  try dsimp only
  repeat' first
    | with_reducible assumption
    | exact Sub.trans (by decide) hM
    | exact Sub.bit hM (by decide)
    | exact Sub.kind hM (by decide) _
    | (intro _; try dsimp only)
    | with_reducible apply State.clClrCnt_kept
    | with_reducible apply State.clRetrain_kept
    | with_reducible apply Kept.ite
    | with_reducible refine Kept.of_pair (by assumption) ?_
    | split

theorem execClRetrain_kept {M : Nat} {b : State} {q : List Instr} {who : Initiator} {pitch : Pitch} {s : State} (hs : Kept M b q s) (hM : Sub 0x49600007380C M) {r : State} (e : (execClRetrain who pitch s) = .next r) : Kept M b q r := by
  unfold execClRetrain at e
  injection e with e; subst e
  try dsimp only
  repeat' first
    | with_reducible assumption
    | exact Sub.trans (by decide) hM
    | exact Sub.bit hM (by decide)
    | exact Sub.kind hM (by decide) _
    | (intro _; try dsimp only)
    | with_reducible apply bit_clPage
    | with_reducible apply State.clRetrain_kept
    | with_reducible apply State.write_kept
    | with_reducible apply Kept.ite
    | with_reducible refine Kept.of_pair (by assumption) ?_
    | split

theorem execClClrCnt_kept {M : Nat} {b : State} {q : List Instr} {who : Initiator} {pitch : Pitch} {s : State} (hs : Kept M b q s) (hM : Sub 0x49000001080C M) {r : State} (e : (execClClrCnt who pitch s) = .next r) : Kept M b q r := by
  unfold execClClrCnt at e
  injection e with e; subst e
  try dsimp only
  repeat' first
    | with_reducible assumption
    | exact Sub.trans (by decide) hM
    | exact Sub.bit hM (by decide)
    | exact Sub.kind hM (by decide) _
    | (intro _; try dsimp only)
    | with_reducible apply bit_clPage
    | with_reducible apply State.clClrCnt_kept
    | with_reducible apply State.write_kept
    | with_reducible apply Kept.ite
    | with_reducible refine Kept.of_pair (by assumption) ?_
    | split

theorem State.clReport_kept {M : Nat} {b : State} {q : List Instr} {v : Nat} {base : Int} {n : Nat} {s : State} {c : Nat} (hs : Kept M b q s) (hM : Sub 0x400000040000 M) : Kept M b q (State.clReport v base n s c) := by
  unfold State.clReport
  try dsimp only
  repeat' first
    | with_reducible assumption
    | exact Sub.trans (by decide) hM
    | exact Sub.bit hM (by decide)
    | exact Sub.kind hM (by decide) _
    | (intro _; try dsimp only)
    | with_reducible apply bit_clPage
    | with_reducible apply State.clHand_kept
    | with_reducible apply State.inc_kept
    | with_reducible apply Kept.ite
    | with_reducible refine Kept.of_pair (by assumption) ?_
    | split

theorem State.clSelected_kept {M : Nat} {b : State} {q : List Instr} {s : State} {n : Nat} {sel : Bool} (hs : Kept M b q s) (hM : Sub 0x400000020808 M) : Kept M b q (State.clSelected s n sel) := by
  unfold State.clSelected
  try dsimp only
  repeat' first
    | with_reducible assumption
    | exact Sub.trans (by decide) hM
    | exact Sub.bit hM (by decide)
    | exact Sub.kind hM (by decide) _
    | (intro _; try dsimp only)
    | with_reducible apply bit_clPage
    | with_reducible apply State.fs_kept
    | with_reducible apply State.raise_kept
    | with_reducible apply State.setCard_kept
    | with_reducible apply Kept.ite
    | with_reducible refine Kept.of_pair (by assumption) ?_
    | split

theorem State.clBad_kept {M : Nat} {b : State} {q : List Instr} {s : State} {n : Nat} {lost : Bool} (hs : Kept M b q s) (hM : Sub 0x406000073808 M) : Kept M b q (State.clBad s n lost) := by
  unfold State.clBad
  try dsimp only
  repeat' first
    | with_reducible assumption
    | exact Sub.trans (by decide) hM
    | exact Sub.bit hM (by decide)
    | exact Sub.kind hM (by decide) _
    | (intro _; try dsimp only)
    | with_reducible apply bit_clPage
    | with_reducible apply State.clGaps_kept
    | with_reducible apply State.clLost_kept
    | with_reducible apply State.inc_kept
    | with_reducible apply State.raise_kept
    | with_reducible apply State.setCard_kept
    | with_reducible apply Kept.ite
    | with_reducible refine Kept.of_pair (by assumption) ?_
    | split

theorem State.clGood_kept {M : Nat} {b : State} {q : List Instr} {s : State} {n : Nat} {bs : List Byte} (hs : Kept M b q s) (hM : Sub 0x406000073808 M) : Kept M b q (State.clGood s n bs) := by
  unfold State.clGood
  try dsimp only
  repeat' first
    | with_reducible assumption
    | exact Sub.trans (by decide) hM
    | exact Sub.bit hM (by decide)
    | exact Sub.kind hM (by decide) _
    | (intro _; try dsimp only)
    | with_reducible apply bit_clPage
    | with_reducible apply State.clGaps_kept
    | with_reducible apply State.clLost_kept
    | with_reducible apply State.clReport_kept
    | with_reducible apply State.clSelected_kept
    | with_reducible apply State.inc_kept
    | with_reducible apply State.raise_kept
    | with_reducible apply State.setCard_kept
    | with_reducible apply Kept.foldl
    | with_reducible apply Kept.foldlP
    | with_reducible apply Kept.ite
    | with_reducible refine Kept.of_pair (by assumption) ?_
    | split

theorem execCardFrameReceived_kept {M : Nat} {b : State} {q : List Instr} {pitch : Pitch} {bytes : List Byte} {mark : CardEnd} {s : State} (hs : Kept M b q s) (hM : Sub 0x406000073808 M) {r : State} (e : (execCardFrameReceived pitch bytes mark s) = .next r) : Kept M b q r := by
  unfold execCardFrameReceived at e
  split at e
  · cases e
  injection e with e; subst e
  try dsimp only
  repeat' first
    | with_reducible assumption
    | exact Sub.trans (by decide) hM
    | exact Sub.bit hM (by decide)
    | exact Sub.kind hM (by decide) _
    | (intro _; try dsimp only)
    | with_reducible apply State.clBad_kept
    | with_reducible apply State.clGood_kept
    | with_reducible apply State.clMarks_kept
    | with_reducible apply State.elastic_kept
    | with_reducible apply State.fault_kept
    | with_reducible apply Kept.ite
    | with_reducible refine Kept.of_pair (by assumption) ?_
    | split

theorem State.clSendTraining_kept {M : Nat} {b : State} {q : List Instr} {s : State} {n : Nat} (hs : Kept M b q s) (hM : Sub 0x400000020000 M) : Kept M b q (State.clSendTraining s n) := by
  unfold State.clSendTraining
  try dsimp only
  repeat' first
    | with_reducible assumption
    | exact Sub.trans (by decide) hM
    | exact Sub.bit hM (by decide)
    | exact Sub.kind hM (by decide) _
    | (intro _; try dsimp only)
    | with_reducible apply bit_clPage
    | with_reducible apply State.clSuper_kept
    | with_reducible apply State.fs_kept
    | with_reducible apply State.setCard_kept
    | with_reducible apply Kept.ite
    | with_reducible refine Kept.of_pair (by assumption) ?_
    | split

theorem State.clField_kept {M : Nat} {b : State} {q : List Instr} {base : Int} {n : Nat} {a : State × Nat} {c : Nat} (ha : Kept M b q a.1) (hM : Sub 0x40000 M) : Kept M b q (State.clField base n a c).1 := by
  unfold State.clField
  try dsimp only
  repeat' first
    | with_reducible assumption
    | exact Sub.trans (by decide) hM
    | exact Sub.bit hM (by decide)
    | exact Sub.kind hM (by decide) _
    | (intro _; try dsimp only)
    | with_reducible apply bit_enOf
    | with_reducible apply State.setChan_kept
    | with_reducible apply Kept.foldl
    | with_reducible apply Kept.foldlP
    | with_reducible apply Kept.ite
    | with_reducible refine Kept.of_pair (by assumption) ?_
    | split

theorem State.clSendFrame_kept {M : Nat} {b : State} {q : List Instr} {s : State} {n : Nat} (hs : Kept M b q s) (hM : Sub 0x400000060000 M) : Kept M b q (State.clSendFrame s n) := by
  unfold State.clSendFrame
  try dsimp only
  repeat' first
    | with_reducible assumption
    | exact Sub.trans (by decide) hM
    | exact Sub.bit hM (by decide)
    | exact Sub.kind hM (by decide) _
    | (intro _; try dsimp only)
    | with_reducible apply bit_ecPage
    | with_reducible apply bit_clPage
    | with_reducible apply State.clField_kept
    | with_reducible apply State.fs_kept
    | with_reducible apply State.setCard_kept
    | with_reducible apply Kept.foldl
    | with_reducible apply Kept.foldlP
    | with_reducible apply Kept.ite
    | with_reducible refine Kept.of_pair (by assumption) ?_
    | split

theorem execCardFrameSend_kept {M : Nat} {b : State} {q : List Instr} {pitch : Pitch} {s : State} (hs : Kept M b q s) (hM : Sub 0x400000060000 M) {r : State} (e : (execCardFrameSend pitch s) = .next r) : Kept M b q r := by
  unfold execCardFrameSend at e
  injection e with e; subst e
  try dsimp only
  repeat' first
    | with_reducible assumption
    | exact Sub.trans (by decide) hM
    | exact Sub.bit hM (by decide)
    | exact Sub.kind hM (by decide) _
    | (intro _; try dsimp only)
    | with_reducible apply State.clSendFrame_kept
    | with_reducible apply State.clSendTraining_kept
    | with_reducible apply Kept.ite
    | with_reducible refine Kept.of_pair (by assumption) ?_
    | split

theorem State.clIdentity_kept {M : Nat} {b : State} {q : List Instr} {s : State} {n : Nat} {bs : List Byte} (hs : Kept M b q s) (hM : Sub 0x1C06000043808 M) : Kept M b q (State.clIdentity s n bs) := by
  unfold State.clIdentity
  try dsimp only
  repeat' first
    | with_reducible assumption
    | exact Sub.trans (by decide) hM
    | exact Sub.bit hM (by decide)
    | exact Sub.kind hM (by decide) _
    | (intro _; try dsimp only)
    | with_reducible apply bit_clPage
    | with_reducible apply State.fs_kept
    | with_reducible apply State.portBack_kept
    | with_reducible apply State.raise_kept
    | with_reducible apply State.restartCluster_kept
    | with_reducible apply State.ttRestart_kept
    | with_reducible apply State.wr_kept
    | with_reducible apply Kept.ite
    | with_reducible refine Kept.of_pair (by assumption) ?_
    | split

theorem State.clActive_kept {M : Nat} {b : State} {q : List Instr} {s : State} {n : Nat} {bs : List Byte} (hs : Kept M b q s) (hM : Sub 0x1C06000073808 M) : Kept M b q (State.clActive s n bs) := by
  unfold State.clActive
  try dsimp only
  repeat' first
    | with_reducible assumption
    | exact Sub.trans (by decide) hM
    | exact Sub.bit hM (by decide)
    | exact Sub.kind hM (by decide) _
    | (intro _; try dsimp only)
    | with_reducible apply bit_clPage
    | with_reducible apply State.clIdentity_kept
    | with_reducible apply State.dueLost_kept
    | with_reducible apply State.fs_kept
    | with_reducible apply State.pbTurn_kept
    | with_reducible apply State.raise_kept
    | with_reducible apply State.setCard_kept
    | with_reducible apply Kept.foldl
    | with_reducible apply Kept.foldlP
    | with_reducible apply Kept.ite
    | with_reducible refine Kept.of_pair (by assumption) ?_
    | split
    | with_reducible refine Kept.set_scan ?_ ?_

theorem State.clRollCall_kept {M : Nat} {b : State} {q : List Instr} {s : State} {n : Nat} {bs : List Byte} (hs : Kept M b q s) (hM : Sub 0x1C06000073808 M) : Kept M b q (State.clRollCall s n bs) := by
  unfold State.clRollCall
  try dsimp only
  repeat' first
    | with_reducible assumption
    | exact Sub.trans (by decide) hM
    | exact Sub.bit hM (by decide)
    | exact Sub.kind hM (by decide) _
    | (intro _; try dsimp only)
    | with_reducible apply bit_clPage
    | with_reducible apply State.clActive_kept
    | with_reducible apply State.clHeld_kept
    | with_reducible apply State.setCard_kept
    | with_reducible apply Kept.ite
    | with_reducible refine Kept.of_pair (by assumption) ?_
    | split

theorem State.clStatusBlock_kept {M : Nat} {b : State} {q : List Instr} {s : State} {n : Nat} {bs : List Byte} (hs : Kept M b q s) (hM : Sub 0x400000020808 M) : Kept M b q (State.clStatusBlock s n bs) := by
  unfold State.clStatusBlock
  try dsimp only
  repeat' first
    | with_reducible assumption
    | exact Sub.trans (by decide) hM
    | exact Sub.bit hM (by decide)
    | exact Sub.kind hM (by decide) _
    | (intro _; try dsimp only)
    | with_reducible apply bit_clPage
    | with_reducible apply State.fs_kept
    | with_reducible apply State.raiseIf_kept
    | with_reducible apply State.setCard_kept
    | with_reducible apply Kept.ite
    | with_reducible refine Kept.of_pair (by assumption) ?_
    | split

theorem State.clRelayStatus_kept {M : Nat} {b : State} {q : List Instr} {s : State} {n : Nat} {bs : List Byte} (hs : Kept M b q s) (hM : Sub 0x20000 M) : Kept M b q (State.clRelayStatus s n bs) := by
  unfold State.clRelayStatus
  try dsimp only
  repeat' first
    | with_reducible assumption
    | exact Sub.trans (by decide) hM
    | exact Sub.bit hM (by decide)
    | exact Sub.kind hM (by decide) _
    | (intro _; try dsimp only)
    | with_reducible apply State.setCard_kept
    | with_reducible apply Kept.ite
    | with_reducible refine Kept.of_pair (by assumption) ?_
    | split

theorem execSidebandBlockReceived_kept {M : Nat} {b : State} {q : List Instr} {pitch : Pitch} {bytes : List Byte} {anyBad : Bool} {s : State} (hs : Kept M b q s) (hM : Sub 0x1C06000073808 M) {r : State} (e : (execSidebandBlockReceived pitch bytes anyBad s) = .next r) : Kept M b q r := by
  unfold execSidebandBlockReceived at e
  split at e
  · cases e
  injection e with e; subst e
  try dsimp only
  repeat' first
    | with_reducible assumption
    | exact Sub.trans (by decide) hM
    | exact Sub.bit hM (by decide)
    | exact Sub.kind hM (by decide) _
    | (intro _; try dsimp only)
    | with_reducible apply bit_clPage
    | with_reducible apply State.clRelayStatus_kept
    | with_reducible apply State.clRollCall_kept
    | with_reducible apply State.clStatusBlock_kept
    | with_reducible apply State.fault_kept
    | with_reducible apply State.inc_kept
    | with_reducible apply Kept.ite
    | with_reducible refine Kept.of_pair (by assumption) ?_
    | split

theorem execSafeMismatch_kept {M : Nat} {b : State} {q : List Instr} {pitch : Pitch} {s : State} (hs : Kept M b q s) (hM : Sub 0x400000020808 M) {r : State} (e : (execSafeMismatch pitch s) = .next r) : Kept M b q r := by
  unfold execSafeMismatch at e
  injection e with e; subst e
  try dsimp only
  repeat' first
    | with_reducible assumption
    | exact Sub.trans (by decide) hM
    | exact Sub.bit hM (by decide)
    | exact Sub.kind hM (by decide) _
    | (intro _; try dsimp only)
    | with_reducible apply bit_clPage
    | with_reducible apply State.raise_kept
    | with_reducible apply State.setCard_kept
    | with_reducible apply Kept.ite
    | with_reducible refine Kept.of_pair (by assumption) ?_
    | split

end Sys2Proof.Machine
end

