-- ==== Sys2Proof/Laws/KeptRing.lean ====
section
/-! SUPPORT. What the functions of Machine/Ring.lean keep (Laws/Kept.lean). -/
namespace Sys2Proof.Machine

theorem State.mergeIn_kept {M : Nat} {b : State} {q : List Instr} {s : State} {p : RingPort} {f : Frame} (hs : Kept M b q s) (hM : Sub 0x2000 M) : Kept M b q (State.mergeIn s p f) := by
  unfold State.mergeIn
  try dsimp only
  repeat' first
    | with_reducible assumption
    | exact Sub.trans (by decide) hM
    | exact Sub.bit hM (by decide)
    | exact Sub.kind hM (by decide) _
    | (intro _; try dsimp only)
    | with_reducible apply bit_ringPage
    | with_reducible apply bit_lanePage
    | with_reducible apply State.setPort_kept
    | with_reducible apply Kept.ite
    | with_reducible refine Kept.of_pair (by assumption) ?_
    | split

theorem State.llOut_kept {M : Nat} {b : State} {q : List Instr} {s : State} {p : LanePort} {f : Frame} (hs : Kept M b q s) (hM : Sub 0x2000 M) : Kept M b q (State.llOut s p f) := by
  unfold State.llOut
  try dsimp only
  repeat' first
    | with_reducible assumption
    | exact Sub.trans (by decide) hM
    | exact Sub.bit hM (by decide)
    | exact Sub.kind hM (by decide) _
    | (intro _; try dsimp only)
    | with_reducible apply bit_ringPage
    | with_reducible apply bit_lanePage
    | with_reducible apply State.setPort_kept
    | with_reducible apply Kept.ite
    | with_reducible refine Kept.of_pair (by assumption) ?_
    | split

theorem State.logicOut_kept {M : Nat} {b : State} {q : List Instr} {s : State} {p : RingPort} {c : Cls} {f : Frame} (hs : Kept M b q s) (hM : Sub 0x800 M) : Kept M b q (State.logicOut s p c f) := by
  unfold State.logicOut
  try dsimp only
  repeat' first
    | with_reducible assumption
    | exact Sub.trans (by decide) hM
    | exact Sub.bit hM (by decide)
    | exact Sub.kind hM (by decide) _
    | (intro _; try dsimp only)
    | with_reducible apply State.stage_kept
    | with_reducible apply Kept.ite
    | with_reducible refine Kept.of_pair (by assumption) ?_
    | split

theorem State.fenceQueue_kept {M : Nat} {b : State} {q : List Instr} {p : RingPort} {kind : Nat} {s : State} {c : Cls} (hs : Kept M b q s) (hM : Sub 0x82800003808 M) : Kept M b q (State.fenceQueue p kind s c) := by
  unfold State.fenceQueue
  try dsimp only
  repeat' first
    | with_reducible assumption
    | exact Sub.trans (by decide) hM
    | exact Sub.bit hM (by decide)
    | exact Sub.kind hM (by decide) _
    | (intro _; try dsimp only)
    | with_reducible apply bit_ringPage
    | with_reducible apply bit_lanePage
    | with_reducible apply State.logicOut_kept
    | with_reducible apply State.placeDirect_kept
    | with_reducible apply Kept.ite
    | with_reducible refine Kept.of_pair (by assumption) ?_
    | split

theorem State.fencesOn_kept {M : Nat} {b : State} {q : List Instr} {s : State} {p : RingPort} {kind : Nat} (hs : Kept M b q s) (hM : Sub 0x82800003808 M) : Kept M b q (State.fencesOn s p kind) := by
  unfold State.fencesOn
  try dsimp only
  repeat' first
    | with_reducible assumption
    | exact Sub.trans (by decide) hM
    | exact Sub.bit hM (by decide)
    | exact Sub.kind hM (by decide) _
    | (intro _; try dsimp only)
    | with_reducible apply bit_ringPage
    | with_reducible apply bit_lanePage
    | with_reducible apply State.fenceQueue_kept
    | with_reducible apply State.mergeIn_kept
    | with_reducible apply Kept.foldl
    | with_reducible apply Kept.foldlP
    | with_reducible apply Kept.ite
    | with_reducible refine Kept.of_pair (by assumption) ?_
    | split

theorem State.fences_kept {M : Nat} {b : State} {q : List Instr} {s : State} {ports : List RingPort} {kind : Nat} (hs : Kept M b q s) (hM : Sub 0x82800003808 M) : Kept M b q (State.fences s ports kind) := by
  unfold State.fences
  try dsimp only
  repeat' first
    | with_reducible assumption
    | exact Sub.trans (by decide) hM
    | exact Sub.bit hM (by decide)
    | exact Sub.kind hM (by decide) _
    | (intro _; try dsimp only)
    | with_reducible apply bit_ringPage
    | with_reducible apply bit_lanePage
    | with_reducible apply State.fencesOn_kept
    | with_reducible apply Kept.foldl
    | with_reducible apply Kept.foldlP
    | with_reducible apply Kept.ite
    | with_reducible refine Kept.of_pair (by assumption) ?_
    | split
    | with_reducible refine Kept.set_ring ?_ ?_

theorem State.moveEnt_kept {M : Nat} {b : State} {q : List Instr} {p : RingPort} {c : Nat} {s : State} {e : QEnt} (hs : Kept M b q s) (hM : Sub 0x80800003000 M) : Kept M b q (State.moveEnt p c s e) := by
  unfold State.moveEnt
  try dsimp only
  repeat' first
    | with_reducible assumption
    | exact Sub.trans (by decide) hM
    | exact Sub.bit hM (by decide)
    | exact Sub.kind hM (by decide) _
    | (intro _; try dsimp only)
    | with_reducible apply bit_ringPage
    | with_reducible apply bit_lanePage
    | with_reducible apply State.dropLoop_kept
    | with_reducible apply State.endCopy_kept
    | with_reducible apply State.inc_kept
    | with_reducible apply State.linkEnt_kept
    | with_reducible apply Kept.ite
    | with_reducible refine Kept.of_pair (by assumption) ?_
    | split

theorem State.moveMerged_kept {M : Nat} {b : State} {q : List Instr} {p : RingPort} {s : State} {f : Frame} (hs : Kept M b q s) (hM : Sub 0x80800002000 M) : Kept M b q (State.moveMerged p s f) := by
  unfold State.moveMerged
  try dsimp only
  repeat' first
    | with_reducible assumption
    | exact Sub.trans (by decide) hM
    | exact Sub.bit hM (by decide)
    | exact Sub.kind hM (by decide) _
    | (intro _; try dsimp only)
    | with_reducible apply bit_ringPage
    | with_reducible apply bit_lanePage
    | with_reducible apply State.dropLoop_kept
    | with_reducible apply State.inc_kept
    | with_reducible apply State.mergeIn_kept
    | with_reducible apply Kept.ite
    | with_reducible refine Kept.of_pair (by assumption) ?_
    | split

theorem State.moveQueues_kept {M : Nat} {b : State} {q : List Instr} {s : State} {p : RingPort} (hs : Kept M b q s) (hM : Sub 0x80800003000 M) : Kept M b q (State.moveQueues s p) := by
  unfold State.moveQueues
  try dsimp only
  repeat' first
    | with_reducible assumption
    | exact Sub.trans (by decide) hM
    | exact Sub.bit hM (by decide)
    | exact Sub.kind hM (by decide) _
    | (intro _; try dsimp only)
    | with_reducible apply bit_ringPage
    | with_reducible apply bit_lanePage
    | with_reducible apply State.moveEnt_kept
    | with_reducible apply State.moveMerged_kept
    | with_reducible apply State.setEg_kept
    | with_reducible apply State.setPort_kept
    | with_reducible apply State.setQue_kept
    | with_reducible apply Kept.foldl
    | with_reducible apply Kept.foldlP
    | with_reducible apply Kept.ite
    | with_reducible refine Kept.of_pair (by assumption) ?_
    | split

theorem State.wrap_kept {M : Nat} {b : State} {q : List Instr} {s : State} {p : RingPort} (hs : Kept M b q s) (hM : Sub 0x82800003808 M) : Kept M b q (State.wrap s p) := by
  unfold State.wrap
  try dsimp only
  repeat' first
    | with_reducible assumption
    | exact Sub.trans (by decide) hM
    | exact Sub.bit hM (by decide)
    | exact Sub.kind hM (by decide) _
    | (intro _; try dsimp only)
    | with_reducible apply bit_ringPage
    | with_reducible apply bit_lanePage
    | with_reducible apply State.fences_kept
    | with_reducible apply State.fs_kept
    | with_reducible apply State.moveQueues_kept
    | with_reducible apply State.raise_kept
    | with_reducible apply State.setPort_kept
    | with_reducible apply Kept.ite
    | with_reducible refine Kept.of_pair (by assumption) ?_
    | split

theorem State.freezeRing_kept {M : Nat} {b : State} {q : List Instr} {s : State} {p : RingPort} (hs : Kept M b q s) (hM : Sub 0x80800002000 M) : Kept M b q (State.freezeRing s p) := by
  unfold State.freezeRing
  try dsimp only
  repeat' first
    | with_reducible assumption
    | exact Sub.trans (by decide) hM
    | exact Sub.bit hM (by decide)
    | exact Sub.kind hM (by decide) _
    | (intro _; try dsimp only)
    | with_reducible apply bit_ringPage
    | with_reducible apply bit_lanePage
    | with_reducible apply State.fs_kept
    | with_reducible apply State.setPort_kept
    | with_reducible apply Kept.ite
    | with_reducible refine Kept.of_pair (by assumption) ?_
    | split

theorem State.flushRing_kept {M : Nat} {b : State} {q : List Instr} {s : State} {p : RingPort} (hs : Kept M b q s) (hM : Sub 0x82800003808 M) : Kept M b q (State.flushRing s p) := by
  unfold State.flushRing
  try dsimp only
  repeat' first
    | with_reducible assumption
    | exact Sub.trans (by decide) hM
    | exact Sub.bit hM (by decide)
    | exact Sub.kind hM (by decide) _
    | (intro _; try dsimp only)
    | with_reducible apply bit_ringPage
    | with_reducible apply bit_lanePage
    | with_reducible apply State.addSat_kept
    | with_reducible apply State.flushQueue_kept
    | with_reducible apply Kept.foldl
    | with_reducible apply Kept.foldlP
    | with_reducible apply Kept.ite
    | with_reducible refine Kept.of_pair (by assumption) ?_
    | split

theorem State.sweep_kept {M : Nat} {b : State} {q : List Instr} {s : State} (hs : Kept M b q s) (hM : Sub 0x86800003808 M) : Kept M b q (State.sweep s) := by
  unfold State.sweep
  try dsimp only
  repeat' first
    | with_reducible assumption
    | exact Sub.trans (by decide) hM
    | exact Sub.bit hM (by decide)
    | exact Sub.kind hM (by decide) _
    | (intro _; try dsimp only)
    | with_reducible apply bit_ringPage
    | with_reducible apply bit_lanePage
    | with_reducible apply State.flushRing_kept
    | with_reducible apply State.staleSweep_kept
    | with_reducible apply Kept.foldl
    | with_reducible apply Kept.foldlP
    | with_reducible apply Kept.ite
    | with_reducible refine Kept.of_pair (by assumption) ?_
    | split

theorem State.ringLeft_kept {M : Nat} {b : State} {q : List Instr} {s : State} {p : RingPort} (hs : Kept M b q s) (hM : Sub 0x82800403808 M) : Kept M b q (State.ringLeft s p) := by
  unfold State.ringLeft
  try dsimp only
  repeat' first
    | with_reducible assumption
    | exact Sub.trans (by decide) hM
    | exact Sub.bit hM (by decide)
    | exact Sub.kind hM (by decide) _
    | (intro _; try dsimp only)
    | with_reducible apply bit_ringPage
    | with_reducible apply bit_lanePage
    | with_reducible apply State.freezeRing_kept
    | with_reducible apply State.fs_kept
    | with_reducible apply State.setEg_kept
    | with_reducible apply State.twinWatch_kept
    | with_reducible apply State.wrap_kept
    | with_reducible apply Kept.ite
    | with_reducible refine Kept.of_pair (by assumption) ?_
    | split

theorem State.thawRing_kept {M : Nat} {b : State} {q : List Instr} {s : State} {p : RingPort} (hs : Kept M b q s) (hM : Sub 0x82800003808 M) : Kept M b q (State.thawRing s p) := by
  unfold State.thawRing
  try dsimp only
  repeat' first
    | with_reducible assumption
    | exact Sub.trans (by decide) hM
    | exact Sub.bit hM (by decide)
    | exact Sub.kind hM (by decide) _
    | (intro _; try dsimp only)
    | with_reducible apply bit_ringPage
    | with_reducible apply bit_lanePage
    | with_reducible apply State.flushRing_kept
    | with_reducible apply State.fs_kept
    | with_reducible apply State.raise_kept
    | with_reducible apply State.setPort_kept
    | with_reducible apply Kept.ite
    | with_reducible refine Kept.of_pair (by assumption) ?_
    | split

theorem State.wrapFrozen_kept {M : Nat} {b : State} {q : List Instr} {s : State} {p : RingPort} (hs : Kept M b q s) (hM : Sub 0x82800003808 M) : Kept M b q (State.wrapFrozen s p) := by
  unfold State.wrapFrozen
  try dsimp only
  repeat' first
    | with_reducible assumption
    | exact Sub.trans (by decide) hM
    | exact Sub.bit hM (by decide)
    | exact Sub.kind hM (by decide) _
    | (intro _; try dsimp only)
    | with_reducible apply bit_ringPage
    | with_reducible apply bit_lanePage
    | with_reducible apply State.wrap_kept
    | with_reducible apply Kept.ite
    | with_reducible refine Kept.of_pair (by assumption) ?_
    | split

theorem State.ringEntered_kept {M : Nat} {b : State} {q : List Instr} {s : State} {p : RingPort} (hs : Kept M b q s) (hM : Sub 0x82800403808 M) : Kept M b q (State.ringEntered s p) := by
  unfold State.ringEntered
  try dsimp only
  repeat' first
    | with_reducible assumption
    | exact Sub.trans (by decide) hM
    | exact Sub.bit hM (by decide)
    | exact Sub.kind hM (by decide) _
    | (intro _; try dsimp only)
    | with_reducible apply bit_ringPage
    | with_reducible apply bit_lanePage
    | with_reducible apply State.creditInit_kept
    | with_reducible apply State.fs_kept
    | with_reducible apply State.sent_kept
    | with_reducible apply State.setCr_kept
    | with_reducible apply State.setPort_kept
    | with_reducible apply State.thawRing_kept
    | with_reducible apply State.twinWatch_kept
    | with_reducible apply State.wrapFrozen_kept
    | with_reducible apply Kept.foldl
    | with_reducible apply Kept.foldlP
    | with_reducible apply Kept.ite
    | with_reducible refine Kept.of_pair (by assumption) ?_
    | split

theorem execUnwrap_kept {M : Nat} {b : State} {q : List Instr} {port : RingPort} {s : State} (hs : Kept M b q s) (hM : Sub 0x82800003808 M) {r : State} (e : (execUnwrap port s) = .next r) : Kept M b q r := by
  unfold execUnwrap at e
  injection e with e; subst e
  try dsimp only
  repeat' first
    | with_reducible assumption
    | exact Sub.trans (by decide) hM
    | exact Sub.bit hM (by decide)
    | exact Sub.kind hM (by decide) _
    | (intro _; try dsimp only)
    | with_reducible apply bit_ringPage
    | with_reducible apply bit_lanePage
    | with_reducible apply State.fences_kept
    | with_reducible apply State.fs_kept
    | with_reducible apply State.raise_kept
    | with_reducible apply Kept.ite
    | with_reducible refine Kept.of_pair (by assumption) ?_
    | split

theorem execRingGraceExpired_kept {M : Nat} {b : State} {q : List Instr} {port : RingPort} {s : State} (hs : Kept M b q s) (hM : Sub 0x82800003808 M) {r : State} (e : (execRingGraceExpired port s) = .next r) : Kept M b q r := by
  unfold execRingGraceExpired at e
  injection e with e; subst e
  try dsimp only
  repeat' first
    | with_reducible assumption
    | exact Sub.trans (by decide) hM
    | exact Sub.bit hM (by decide)
    | exact Sub.kind hM (by decide) _
    | (intro _; try dsimp only)
    | with_reducible apply bit_ringPage
    | with_reducible apply bit_lanePage
    | with_reducible apply State.flushRing_kept
    | with_reducible apply State.raise_kept
    | with_reducible apply State.setPort_kept
    | with_reducible apply Kept.ite
    | with_reducible refine Kept.of_pair (by assumption) ?_
    | split

theorem State.ridge_kept {M : Nat} {b : State} {q : List Instr} {s : State} {p : RingPort} {o : RingPort} {f : Frame} (hs : Kept M b q s) (hM : Sub 0x80800002000 M) : Kept M b q (State.ridge s p o f) := by
  unfold State.ridge
  try dsimp only
  repeat' first
    | with_reducible assumption
    | exact Sub.trans (by decide) hM
    | exact Sub.bit hM (by decide)
    | exact Sub.kind hM (by decide) _
    | (intro _; try dsimp only)
    | with_reducible apply bit_ringPage
    | with_reducible apply bit_lanePage
    | with_reducible apply State.inc_kept
    | with_reducible apply State.mergeIn_kept
    | with_reducible apply Kept.ite
    | with_reducible refine Kept.of_pair (by assumption) ?_
    | split

theorem State.llPass_kept {M : Nat} {b : State} {q : List Instr} {s : State} {p : RingPort} {f : Frame} (hs : Kept M b q s) (hM : Sub 0x80800002000 M) : Kept M b q (State.llPass s p f) := by
  unfold State.llPass
  try dsimp only
  repeat' first
    | with_reducible assumption
    | exact Sub.trans (by decide) hM
    | exact Sub.bit hM (by decide)
    | exact Sub.kind hM (by decide) _
    | (intro _; try dsimp only)
    | with_reducible apply bit_ringPage
    | with_reducible apply bit_lanePage
    | with_reducible apply State.inc_kept
    | with_reducible apply State.ridge_kept
    | with_reducible apply Kept.ite
    | with_reducible refine Kept.of_pair (by assumption) ?_
    | split

theorem State.guyIn_kept {M : Nat} {b : State} {q : List Instr} {s : State} {p : RingPort} {src : Nat} (hs : Kept M b q s) (hM : Sub 0x80800402808 M) : Kept M b q (State.guyIn s p src) := by
  unfold State.guyIn
  try dsimp only
  repeat' first
    | with_reducible assumption
    | exact Sub.trans (by decide) hM
    | exact Sub.bit hM (by decide)
    | exact Sub.kind hM (by decide) _
    | (intro _; try dsimp only)
    | with_reducible apply bit_ringPage
    | with_reducible apply bit_lanePage
    | with_reducible apply State.creditInit_kept
    | with_reducible apply State.fs_kept
    | with_reducible apply State.raiseIf_kept
    | with_reducible apply State.setPort_kept
    | with_reducible apply State.twinWatch_kept
    | with_reducible apply Kept.ite
    | with_reducible refine Kept.of_pair (by assumption) ?_
    | split

theorem execGuyReceived_kept {M : Nat} {b : State} {q : List Instr} {port : RingPort} {src : Fin 128} {seq : Byte} {wrapFlags : Byte} {s : State} (hs : Kept M b q s) (hM : Sub 0x80800402808 M) {r : State} (e : (execGuyReceived port src seq wrapFlags s) = .next r) : Kept M b q r := by
  unfold execGuyReceived at e
  injection e with e; subst e
  try dsimp only
  repeat' first
    | with_reducible assumption
    | exact Sub.trans (by decide) hM
    | exact Sub.bit hM (by decide)
    | exact Sub.kind hM (by decide) _
    | (intro _; try dsimp only)
    | with_reducible apply bit_ringPage
    | with_reducible apply bit_lanePage
    | with_reducible apply State.guyIn_kept
    | with_reducible apply State.llPass_kept
    | with_reducible apply Kept.ite
    | with_reducible refine Kept.of_pair (by assumption) ?_
    | split

theorem execGuySilenceTimeout_kept {M : Nat} {b : State} {q : List Instr} {port : RingPort} {s : State} (hs : Kept M b q s) (hM : Sub 0x82800403808 M) {r : State} (e : (execGuySilenceTimeout port s) = .next r) : Kept M b q r := by
  unfold execGuySilenceTimeout at e
  injection e with e; subst e
  try dsimp only
  repeat' first
    | with_reducible assumption
    | exact Sub.trans (by decide) hM
    | exact Sub.bit hM (by decide)
    | exact Sub.kind hM (by decide) _
    | (intro _; try dsimp only)
    | with_reducible apply bit_ringPage
    | with_reducible apply bit_lanePage
    | with_reducible apply State.fs_kept
    | with_reducible apply State.raise_kept
    | with_reducible apply State.twinWatch_kept
    | with_reducible apply State.wrap_kept
    | with_reducible apply Kept.ite
    | with_reducible refine Kept.of_pair (by assumption) ?_
    | split

theorem execGuySend_kept {M : Nat} {b : State} {q : List Instr} {port : RingPort} {s : State} (hs : Kept M b q s) (hM : Sub 0x2000 M) {r : State} (e : (execGuySend port s) = .next r) : Kept M b q r := by
  unfold execGuySend at e
  injection e with e; subst e
  try dsimp only
  repeat' first
    | with_reducible assumption
    | exact Sub.trans (by decide) hM
    | exact Sub.bit hM (by decide)
    | exact Sub.kind hM (by decide) _
    | (intro _; try dsimp only)
    | with_reducible apply bit_ringPage
    | with_reducible apply bit_lanePage
    | with_reducible apply State.llOut_kept
    | with_reducible apply State.setPort_kept
    | with_reducible apply Kept.ite
    | with_reducible refine Kept.of_pair (by assumption) ?_
    | split

theorem State.creditIn_kept {M : Nat} {b : State} {q : List Instr} {s : State} {p : RingPort} {x2 : Hdr} (hs : Kept M b q s) (hM : Sub 0x2000 M) : Kept M b q (State.creditIn s p x2) := by
  unfold State.creditIn
  try dsimp only
  repeat' first
    | with_reducible assumption
    | exact Sub.trans (by decide) hM
    | exact Sub.bit hM (by decide)
    | exact Sub.kind hM (by decide) _
    | (intro _; try dsimp only)
    | with_reducible apply bit_ringPage
    | with_reducible apply bit_lanePage
    | with_reducible apply State.sent_kept
    | with_reducible apply State.setCr_kept
    | with_reducible apply Kept.ite
    | with_reducible refine Kept.of_pair (by assumption) ?_
    | split

theorem execCreditReceived_kept {M : Nat} {b : State} {q : List Instr} {port : RingPort} {bytes : List Byte} {s : State} (hs : Kept M b q s) (hM : Sub 0x80800002000 M) {r : State} (e : (execCreditReceived port bytes s) = .next r) : Kept M b q r := by
  unfold execCreditReceived at e
  injection e with e; subst e
  try dsimp only
  repeat' first
    | with_reducible assumption
    | exact Sub.trans (by decide) hM
    | exact Sub.bit hM (by decide)
    | exact Sub.kind hM (by decide) _
    | (intro _; try dsimp only)
    | with_reducible apply bit_ringPage
    | with_reducible apply bit_lanePage
    | with_reducible apply State.creditIn_kept
    | with_reducible apply State.llPass_kept
    | with_reducible apply Kept.ite
    | with_reducible refine Kept.of_pair (by assumption) ?_
    | split

theorem execCreditSend_kept {M : Nat} {b : State} {q : List Instr} {port : RingPort} {s : State} (hs : Kept M b q s) (hM : Sub 0x2000 M) {r : State} (e : (execCreditSend port s) = .next r) : Kept M b q r := by
  unfold execCreditSend at e
  injection e with e; subst e
  try dsimp only
  repeat' first
    | with_reducible assumption
    | exact Sub.trans (by decide) hM
    | exact Sub.bit hM (by decide)
    | exact Sub.kind hM (by decide) _
    | (intro _; try dsimp only)
    | with_reducible apply bit_ringPage
    | with_reducible apply bit_lanePage
    | with_reducible apply State.llOut_kept
    | with_reducible apply State.setPort_kept
    | with_reducible apply Kept.ite
    | with_reducible refine Kept.of_pair (by assumption) ?_
    | split

theorem State.leaveRidgeOnly_kept {M : Nat} {b : State} {q : List Instr} {s : State} (hs : Kept M b q s) (hM : Sub 0x2000 M) : Kept M b q (State.leaveRidgeOnly s) := by
  unfold State.leaveRidgeOnly
  try dsimp only
  repeat' first
    | with_reducible assumption
    | exact Sub.trans (by decide) hM
    | exact Sub.bit hM (by decide)
    | exact Sub.kind hM (by decide) _
    | (intro _; try dsimp only)
    | with_reducible apply bit_ringPage
    | with_reducible apply bit_lanePage
    | with_reducible apply State.creditInit_kept
    | with_reducible apply State.setPort_kept
    | with_reducible apply Kept.foldl
    | with_reducible apply Kept.foldlP
    | with_reducible apply Kept.ite
    | with_reducible refine Kept.of_pair (by assumption) ?_
    | split

theorem State.topoFences_kept {M : Nat} {b : State} {q : List Instr} {s : State} {before : State} {changed : List Nat} (hs : Kept M b q s) (hbefore : Kept M b q before) (hM : Sub 0x82800003808 M) : Kept M b q (State.topoFences s before changed) := by
  unfold State.topoFences
  try dsimp only
  repeat' first
    | with_reducible assumption
    | exact Sub.trans (by decide) hM
    | exact Sub.bit hM (by decide)
    | exact Sub.kind hM (by decide) _
    | (intro _; try dsimp only)
    | with_reducible apply State.fences_kept
    | with_reducible apply Kept.ite
    | with_reducible refine Kept.of_pair (by assumption) ?_
    | split

theorem State.topoIn_kept {M : Nat} {b : State} {q : List Instr} {s : State} {src : Nat} {dir : Dir} {wraps : Nat} {hops : Nat} {flags : Nat} (hs : Kept M b q s) (hM : Sub 0x83800003808 M) : Kept M b q (State.topoIn s src dir wraps hops flags) := by
  unfold State.topoIn
  try dsimp only
  repeat' first
    | with_reducible assumption
    | exact Sub.trans (by decide) hM
    | exact Sub.bit hM (by decide)
    | exact Sub.kind hM (by decide) _
    | (intro _; try dsimp only)
    | with_reducible apply State.fs_kept
    | with_reducible apply State.topoFences_kept
    | with_reducible apply Kept.ite
    | with_reducible refine Kept.of_pair (by assumption) ?_
    | split

theorem execTopoReceived_kept {M : Nat} {b : State} {q : List Instr} {x0 : RingPort} {src : Fin 128} {dir : Dir} {wraps : Nat} {hops : Nat} {flags : Byte} {s : State} (hs : Kept M b q s) (hM : Sub 0x83800003808 M) {r : State} (e : (execTopoReceived x0 src dir wraps hops flags s) = .next r) : Kept M b q r := by
  unfold execTopoReceived at e
  injection e with e; subst e
  try dsimp only
  repeat' first
    | with_reducible assumption
    | exact Sub.trans (by decide) hM
    | exact Sub.bit hM (by decide)
    | exact Sub.kind hM (by decide) _
    | (intro _; try dsimp only)
    | with_reducible apply State.topoIn_kept
    | with_reducible apply Kept.ite
    | with_reducible refine Kept.of_pair (by assumption) ?_
    | split

theorem State.ageEntry_kept {M : Nat} {b : State} {q : List Instr} {s : State} {x1 : Nat} (hs : Kept M b q s) (hM : Sub 0x1000000808 M) : Kept M b q (State.ageEntry s x1) := by
  unfold State.ageEntry
  try dsimp only
  repeat' first
    | with_reducible assumption
    | exact Sub.trans (by decide) hM
    | exact Sub.bit hM (by decide)
    | exact Sub.kind hM (by decide) _
    | (intro _; try dsimp only)
    | with_reducible apply State.fs_kept
    | with_reducible apply State.raise_kept
    | with_reducible apply Kept.ite
    | with_reducible refine Kept.of_pair (by assumption) ?_
    | split

theorem execTopoAgeTick_kept {M : Nat} {b : State} {q : List Instr} {s : State} (hs : Kept M b q s) (hM : Sub 0x83800003808 M) {r : State} (e : (execTopoAgeTick s) = .next r) : Kept M b q r := by
  unfold execTopoAgeTick at e
  injection e with e; subst e
  try dsimp only
  repeat' first
    | with_reducible assumption
    | exact Sub.trans (by decide) hM
    | exact Sub.bit hM (by decide)
    | exact Sub.kind hM (by decide) _
    | (intro _; try dsimp only)
    | with_reducible apply State.ageEntry_kept
    | with_reducible apply State.topoFences_kept
    | with_reducible apply Kept.foldl
    | with_reducible apply Kept.foldlP
    | with_reducible apply Kept.ite
    | with_reducible refine Kept.of_pair (by assumption) ?_
    | split

theorem State.topoFrame_kept {M : Nat} {b : State} {q : List Instr} {s : State} {d : Dir} (hs : Kept M b q s) (hM : Sub 0x800 M) : Kept M b q (State.topoFrame s d) := by
  unfold State.topoFrame
  try dsimp only
  repeat' first
    | with_reducible assumption
    | exact Sub.trans (by decide) hM
    | exact Sub.bit hM (by decide)
    | exact Sub.kind hM (by decide) _
    | (intro _; try dsimp only)
    | with_reducible apply bit_ringPage
    | with_reducible apply bit_lanePage
    | with_reducible apply State.logicOut_kept
    | with_reducible apply Kept.ite
    | with_reducible refine Kept.of_pair (by assumption) ?_
    | split

theorem execTopoSend_kept {M : Nat} {b : State} {q : List Instr} {s : State} (hs : Kept M b q s) (hM : Sub 0x800 M) {r : State} (e : (execTopoSend s) = .next r) : Kept M b q r := by
  unfold execTopoSend at e
  injection e with e; subst e
  try dsimp only
  repeat' first
    | with_reducible assumption
    | exact Sub.trans (by decide) hM
    | exact Sub.bit hM (by decide)
    | exact Sub.kind hM (by decide) _
    | (intro _; try dsimp only)
    | with_reducible apply State.topoFrame_kept
    | with_reducible apply Kept.ite
    | with_reducible refine Kept.of_pair (by assumption) ?_
    | split

theorem State.setFlow_kept {M : Nat} {b : State} {q : List Instr} {s : State} {k : Nat} {f : Flow} (hs : Kept M b q s) (hM : Sub 0x2000 M) : Kept M b q (State.setFlow s k f) := by
  unfold State.setFlow
  try dsimp only
  repeat' first
    | with_reducible assumption
    | exact Sub.trans (by decide) hM
    | exact Sub.bit hM (by decide)
    | exact Sub.kind hM (by decide) _
    | (intro _; try dsimp only)
    | with_reducible apply Kept.ite
    | with_reducible refine Kept.of_pair (by assumption) ?_
    | split
    | with_reducible refine Kept.set_ring ?_ ?_

theorem State.holdFor_kept {M : Nat} {b : State} {q : List Instr} {s : State} {p : RingPort} {c : Cls} {src : Nat} (hs : Kept M b q s) (hM : Sub 0x1000002000 M) : Kept M b q (State.holdFor s p c src).1 := by
  unfold State.holdFor
  try dsimp only
  repeat' first
    | with_reducible assumption
    | exact Sub.trans (by decide) hM
    | exact Sub.bit hM (by decide)
    | exact Sub.kind hM (by decide) _
    | (intro _; try dsimp only)
    | with_reducible apply State.inc_kept
    | with_reducible apply State.setFlow_kept
    | with_reducible apply Kept.ite
    | with_reducible refine Kept.of_pair (by assumption) ?_
    | split
    | with_reducible refine Kept.set_ring ?_ ?_

theorem State.regroup_kept {M : Nat} {b : State} {q : List Instr} {s : State} (hs : Kept M b q s) (hM : Sub 0x1000 M) : Kept M b q (State.regroup s) := by
  unfold State.regroup
  try dsimp only
  repeat' first
    | with_reducible assumption
    | exact Sub.trans (by decide) hM
    | exact Sub.bit hM (by decide)
    | exact Sub.kind hM (by decide) _
    | (intro _; try dsimp only)
    | with_reducible apply Kept.ite
    | with_reducible refine Kept.of_pair (by assumption) ?_
    | split
    | with_reducible refine Kept.set_core ?_ ?_

theorem State.fenceIn_kept {M : Nat} {b : State} {q : List Instr} {s : State} {p : RingPort} {c : Cls} (hs : Kept M b q s) (hM : Sub 0x3000 M) : Kept M b q (State.fenceIn s p c) := by
  unfold State.fenceIn
  try dsimp only
  repeat' first
    | with_reducible assumption
    | exact Sub.trans (by decide) hM
    | exact Sub.bit hM (by decide)
    | exact Sub.kind hM (by decide) _
    | (intro _; try dsimp only)
    | with_reducible apply State.regroup_kept
    | with_reducible apply Kept.ite
    | with_reducible refine Kept.of_pair (by assumption) ?_
    | split
    | with_reducible refine Kept.set_ring ?_ ?_

theorem execFenceReceived_kept {M : Nat} {b : State} {q : List Instr} {port : RingPort} {cls : Cls} {x2 : Fin 128} {x3 : Nat} {x4 : Nat} {s : State} (hs : Kept M b q s) (hM : Sub 0x3000 M) {r : State} (e : (execFenceReceived port cls x2 x3 x4 s) = .next r) : Kept M b q r := by
  unfold execFenceReceived at e
  injection e with e; subst e
  try dsimp only
  repeat' first
    | with_reducible assumption
    | exact Sub.trans (by decide) hM
    | exact Sub.bit hM (by decide)
    | exact Sub.kind hM (by decide) _
    | (intro _; try dsimp only)
    | with_reducible apply bit_ringPage
    | with_reducible apply bit_lanePage
    | with_reducible apply State.fenceIn_kept
    | with_reducible apply Kept.ite
    | with_reducible refine Kept.of_pair (by assumption) ?_
    | split

theorem execHoldExpired_kept {M : Nat} {b : State} {q : List Instr} {cls : Cls} {src : Fin 128} {s : State} (hs : Kept M b q s) (hM : Sub 0x1000003808 M) {r : State} (e : (execHoldExpired cls src s) = .next r) : Kept M b q r := by
  unfold execHoldExpired at e
  injection e with e; subst e
  try dsimp only
  repeat' first
    | with_reducible assumption
    | exact Sub.trans (by decide) hM
    | exact Sub.bit hM (by decide)
    | exact Sub.kind hM (by decide) _
    | (intro _; try dsimp only)
    | with_reducible apply State.inc_kept
    | with_reducible apply State.raise_kept
    | with_reducible apply State.regroup_kept
    | with_reducible apply State.setFlow_kept
    | with_reducible apply Kept.ite
    | with_reducible refine Kept.of_pair (by assumption) ?_
    | split

theorem State.rstSend_kept {M : Nat} {b : State} {q : List Instr} {s : State} {v : Word} (hs : Kept M b q s) (hM : Sub 0x1000000808 M) : Kept M b q (State.rstSend s v) := by
  unfold State.rstSend
  try dsimp only
  repeat' first
    | with_reducible assumption
    | exact Sub.trans (by decide) hM
    | exact Sub.bit hM (by decide)
    | exact Sub.kind hM (by decide) _
    | (intro _; try dsimp only)
    | with_reducible apply bit_ringPage
    | with_reducible apply bit_lanePage
    | with_reducible apply State.logicOut_kept
    | with_reducible apply State.noDest_kept
    | with_reducible apply Kept.ite
    | with_reducible refine Kept.of_pair (by assumption) ?_
    | split

theorem execResetSend_kept {M : Nat} {b : State} {q : List Instr} {who : Initiator} {v : Word} {s : State} (hs : Kept M b q s) (hM : Sub 0x9100001080C M) {r : State} (e : (execResetSend who v s) = .next r) : Kept M b q r := by
  unfold execResetSend at e
  injection e with e; subst e
  try dsimp only
  repeat' first
    | with_reducible assumption
    | exact Sub.trans (by decide) hM
    | exact Sub.bit hM (by decide)
    | exact Sub.kind hM (by decide) _
    | (intro _; try dsimp only)
    | with_reducible apply State.rstSend_kept
    | with_reducible apply State.write_kept
    | with_reducible apply Kept.ite
    | with_reducible refine Kept.of_pair (by assumption) ?_
    | split

theorem State.rpClrCnt_kept {M : Nat} {b : State} {q : List Instr} {s : State} {p : RingPort} (hs : Kept M b q s) (hM : Sub 0x80800000000 M) : Kept M b q (State.rpClrCnt s p) := by
  unfold State.rpClrCnt
  try dsimp only
  repeat' first
    | with_reducible assumption
    | exact Sub.trans (by decide) hM
    | exact Sub.bit hM (by decide)
    | exact Sub.kind hM (by decide) _
    | (intro _; try dsimp only)
    | with_reducible apply bit_ringPage
    | with_reducible apply bit_lanePage
    | with_reducible apply State.wr_kept
    | with_reducible apply Kept.foldl
    | with_reducible apply Kept.foldlP
    | with_reducible apply Kept.ite
    | with_reducible refine Kept.of_pair (by assumption) ?_
    | split

theorem execRpClrCnt_kept {M : Nat} {b : State} {q : List Instr} {who : Initiator} {port : RingPort} {s : State} (hs : Kept M b q s) (hM : Sub 0x9080001080C M) {r : State} (e : (execRpClrCnt who port s) = .next r) : Kept M b q r := by
  unfold execRpClrCnt at e
  injection e with e; subst e
  try dsimp only
  repeat' first
    | with_reducible assumption
    | exact Sub.trans (by decide) hM
    | exact Sub.bit hM (by decide)
    | exact Sub.kind hM (by decide) _
    | (intro _; try dsimp only)
    | with_reducible apply bit_ringPage
    | with_reducible apply bit_lanePage
    | with_reducible apply State.rpClrCnt_kept
    | with_reducible apply State.write_kept
    | with_reducible apply Kept.ite
    | with_reducible refine Kept.of_pair (by assumption) ?_
    | split

theorem State.sent_kept {M : Nat} {b : State} {q : List Instr} {s : State} {p : LanePort} {f : Frame} (hs : Kept M b q s) (hM : Sub 0x80800002000 M) : Kept M b q (State.sent s p f) := by
  unfold State.sent
  try dsimp only
  repeat' first
    | with_reducible assumption
    | exact Sub.trans (by decide) hM
    | exact Sub.bit hM (by decide)
    | exact Sub.kind hM (by decide) _
    | (intro _; try dsimp only)
    | with_reducible apply bit_ringPage
    | with_reducible apply bit_lanePage
    | with_reducible apply State.inc_kept
    | with_reducible apply State.setPort_kept
    | with_reducible apply Kept.ite
    | with_reducible refine Kept.of_pair (by assumption) ?_
    | split

theorem State.sendMerge_kept {M : Nat} {b : State} {q : List Instr} {s : State} {p : LanePort} {x2 : Int} (hs : Kept M b q s) (hM : Sub 0x80800002000 M) : Kept M b q (State.sendMerge s p x2) := by
  unfold State.sendMerge
  try dsimp only
  repeat' first
    | with_reducible assumption
    | exact Sub.trans (by decide) hM
    | exact Sub.bit hM (by decide)
    | exact Sub.kind hM (by decide) _
    | (intro _; try dsimp only)
    | with_reducible apply bit_ringPage
    | with_reducible apply bit_lanePage
    | with_reducible apply State.fs_kept
    | with_reducible apply State.sent_kept
    | with_reducible apply State.setPort_kept
    | with_reducible apply Kept.ite
    | with_reducible refine Kept.of_pair (by assumption) ?_
    | split

theorem State.sendLL_kept {M : Nat} {b : State} {q : List Instr} {s : State} {p : LanePort} (hs : Kept M b q s) (hM : Sub 0x80800002000 M) : Kept M b q (State.sendLL s p) := by
  unfold State.sendLL
  try dsimp only
  repeat' first
    | with_reducible assumption
    | exact Sub.trans (by decide) hM
    | exact Sub.bit hM (by decide)
    | exact Sub.kind hM (by decide) _
    | (intro _; try dsimp only)
    | with_reducible apply bit_ringPage
    | with_reducible apply bit_lanePage
    | with_reducible apply State.fs_kept
    | with_reducible apply State.sent_kept
    | with_reducible apply State.setPort_kept
    | with_reducible apply Kept.ite
    | with_reducible refine Kept.of_pair (by assumption) ?_
    | split

theorem State.ringStart_kept {M : Nat} {b : State} {q : List Instr} {s : State} {p : RingPort} {at0 : Int} (hs : Kept M b q s) (hM : Sub 0x80800003000 M) : Kept M b q (State.ringStart s p at0) := by
  unfold State.ringStart
  try dsimp only
  repeat' first
    | with_reducible assumption
    | exact Sub.trans (by decide) hM
    | exact Sub.bit hM (by decide)
    | exact Sub.kind hM (by decide) _
    | (intro _; try dsimp only)
    | with_reducible apply bit_ringPage
    | with_reducible apply bit_lanePage
    | with_reducible apply State.sendLL_kept
    | with_reducible apply State.sendMerge_kept
    | with_reducible apply State.setPort_kept
    | with_reducible apply State.startCopy_kept
    | with_reducible apply Kept.ite
    | with_reducible refine Kept.of_pair (by assumption) ?_
    | split

theorem execMergePreempt_kept {M : Nat} {b : State} {q : List Instr} {port : RingPort} {sub : Fin 26} {s : State} (hs : Kept M b q s) (hM : Sub 0x80800003000 M) {r : State} (e : (execMergePreempt port sub s) = .next r) : Kept M b q r := by
  unfold execMergePreempt at e
  injection e with e; subst e
  try dsimp only
  repeat' first
    | with_reducible assumption
    | exact Sub.trans (by decide) hM
    | exact Sub.bit hM (by decide)
    | exact Sub.kind hM (by decide) _
    | (intro _; try dsimp only)
    | with_reducible apply bit_ringPage
    | with_reducible apply bit_lanePage
    | with_reducible apply State.inc_kept
    | with_reducible apply State.sendMerge_kept
    | with_reducible apply State.setEg_kept
    | with_reducible apply Kept.ite
    | with_reducible refine Kept.of_pair (by assumption) ?_
    | split

end Sys2Proof.Machine
end

