-- ==== Sys2Proof/Laws/KeptLanes.lean ====
section
/-! SUPPORT. What the functions of Machine/Lanes.lean keep (Laws/Kept.lean). -/
namespace Sys2Proof.Machine

theorem State.setLocked_kept {M : Nat} {b : State} {q : List Instr} {s : State} {p : LanePort} {l : Nat} {v : Bool} (hs : Kept M b q s) (hM : Sub 0x80800000000 M) : Kept M b q (State.setLocked s p l v) := by
  unfold State.setLocked
  try dsimp only
  repeat' first
    | with_reducible assumption
    | exact Sub.trans (by decide) hM
    | exact Sub.bit hM (by decide)
    | exact Sub.kind hM (by decide) _
    | (intro _; try dsimp only)
    | with_reducible apply bit_ringPage
    | with_reducible apply bit_lanePage
    | with_reducible apply State.fs_kept
    | with_reducible apply Kept.ite
    | with_reducible refine Kept.of_pair (by assumption) ?_
    | split

theorem State.toTrain_kept {M : Nat} {b : State} {q : List Instr} {s : State} {p : LanePort} (hs : Kept M b q s) (hM : Sub 0x80800002000 M) : Kept M b q (State.toTrain s p) := by
  unfold State.toTrain
  try dsimp only
  repeat' first
    | with_reducible assumption
    | exact Sub.trans (by decide) hM
    | exact Sub.bit hM (by decide)
    | exact Sub.kind hM (by decide) _
    | (intro _; try dsimp only)
    | with_reducible apply bit_ringPage
    | with_reducible apply bit_lanePage
    | with_reducible apply State.fs_kept
    | with_reducible apply State.setLocked_kept
    | with_reducible apply State.setPort_kept
    | with_reducible apply Kept.foldl
    | with_reducible apply Kept.foldlP
    | with_reducible apply Kept.ite
    | with_reducible refine Kept.of_pair (by assumption) ?_
    | split

theorem State.twinLeft_kept {M : Nat} {b : State} {q : List Instr} {s : State} (hs : Kept M b q s) (hM : Sub 0x86000403808 M) : Kept M b q (State.twinLeft s) := by
  unfold State.twinLeft
  try dsimp only
  repeat' first
    | with_reducible assumption
    | exact Sub.trans (by decide) hM
    | exact Sub.bit hM (by decide)
    | exact Sub.kind hM (by decide) _
    | (intro _; try dsimp only)
    | with_reducible apply bit_ringPage
    | with_reducible apply bit_lanePage
    | with_reducible apply State.fs_kept
    | with_reducible apply State.portLost_kept
    | with_reducible apply State.setEg_kept
    | with_reducible apply State.setPort_kept
    | with_reducible apply State.twinWatch_kept
    | with_reducible apply Kept.ite
    | with_reducible refine Kept.of_pair (by assumption) ?_
    | split
    | with_reducible refine Kept.set_tw ?_ ?_

theorem State.pdForget_kept {M : Nat} {b : State} {q : List Instr} {s : State} {p : LanePort} (hs : Kept M b q s) (hM : Sub 0x80800002000 M) : Kept M b q (State.pdForget s p) := by
  unfold State.pdForget
  try dsimp only
  repeat' first
    | with_reducible assumption
    | exact Sub.trans (by decide) hM
    | exact Sub.bit hM (by decide)
    | exact Sub.kind hM (by decide) _
    | (intro _; try dsimp only)
    | with_reducible apply bit_ringPage
    | with_reducible apply bit_lanePage
    | with_reducible apply State.fs_kept
    | with_reducible apply State.setPort_kept
    | with_reducible apply Kept.ite
    | with_reducible refine Kept.of_pair (by assumption) ?_
    | split

theorem State.leaveActive_kept {M : Nat} {b : State} {q : List Instr} {s : State} {p : LanePort} {ps : Nat} (hs : Kept M b q s) (hM : Sub 0x86800403808 M) : Kept M b q (State.leaveActive s p ps) := by
  unfold State.leaveActive
  try dsimp only
  repeat' first
    | with_reducible assumption
    | exact Sub.trans (by decide) hM
    | exact Sub.bit hM (by decide)
    | exact Sub.kind hM (by decide) _
    | (intro _; try dsimp only)
    | with_reducible apply bit_ringPage
    | with_reducible apply bit_lanePage
    | with_reducible apply State.closeArriving_kept
    | with_reducible apply State.fs_kept
    | with_reducible apply State.pdForget_kept
    | with_reducible apply State.raise_kept
    | with_reducible apply State.ringLeft_kept
    | with_reducible apply State.setPort_kept
    | with_reducible apply State.toTrain_kept
    | with_reducible apply State.twinLeft_kept
    | with_reducible apply Kept.ite
    | with_reducible refine Kept.of_pair (by assumption) ?_
    | split

theorem State.retrain_kept {M : Nat} {b : State} {q : List Instr} {s : State} {p : LanePort} (hs : Kept M b q s) (hM : Sub 0x86800403808 M) : Kept M b q (State.retrain s p) := by
  unfold State.retrain
  try dsimp only
  repeat' first
    | with_reducible assumption
    | exact Sub.trans (by decide) hM
    | exact Sub.bit hM (by decide)
    | exact Sub.kind hM (by decide) _
    | (intro _; try dsimp only)
    | with_reducible apply bit_ringPage
    | with_reducible apply bit_lanePage
    | with_reducible apply State.leaveActive_kept
    | with_reducible apply State.toTrain_kept
    | with_reducible apply Kept.ite
    | with_reducible refine Kept.of_pair (by assumption) ?_
    | split

theorem State.trainFail_kept {M : Nat} {b : State} {q : List Instr} {s : State} {p : LanePort} (hs : Kept M b q s) (hM : Sub 0x80800002000 M) : Kept M b q (State.trainFail s p) := by
  unfold State.trainFail
  try dsimp only
  repeat' first
    | with_reducible assumption
    | exact Sub.trans (by decide) hM
    | exact Sub.bit hM (by decide)
    | exact Sub.kind hM (by decide) _
    | (intro _; try dsimp only)
    | with_reducible apply bit_ringPage
    | with_reducible apply bit_lanePage
    | with_reducible apply State.inc_kept
    | with_reducible apply State.toTrain_kept
    | with_reducible apply Kept.ite
    | with_reducible refine Kept.of_pair (by assumption) ?_
    | split

theorem execDeskewTimeout_kept {M : Nat} {b : State} {q : List Instr} {port : LanePort} {s : State} (hs : Kept M b q s) (hM : Sub 0x80800002000 M) {r : State} (e : (execDeskewTimeout port s) = .next r) : Kept M b q r := by
  unfold execDeskewTimeout at e
  injection e with e; subst e
  try dsimp only
  repeat' first
    | with_reducible assumption
    | exact Sub.trans (by decide) hM
    | exact Sub.bit hM (by decide)
    | exact Sub.kind hM (by decide) _
    | (intro _; try dsimp only)
    | with_reducible apply bit_ringPage
    | with_reducible apply bit_lanePage
    | with_reducible apply State.trainFail_kept
    | with_reducible apply Kept.ite
    | with_reducible refine Kept.of_pair (by assumption) ?_
    | split

theorem execCapxTimeout_kept {M : Nat} {b : State} {q : List Instr} {port : LanePort} {s : State} (hs : Kept M b q s) (hM : Sub 0x80800002000 M) {r : State} (e : (execCapxTimeout port s) = .next r) : Kept M b q r := by
  unfold execCapxTimeout at e
  injection e with e; subst e
  try dsimp only
  repeat' first
    | with_reducible assumption
    | exact Sub.trans (by decide) hM
    | exact Sub.bit hM (by decide)
    | exact Sub.kind hM (by decide) _
    | (intro _; try dsimp only)
    | with_reducible apply bit_ringPage
    | with_reducible apply bit_lanePage
    | with_reducible apply State.trainFail_kept
    | with_reducible apply Kept.ite
    | with_reducible refine Kept.of_pair (by assumption) ?_
    | split

theorem execForceRetrain_kept {M : Nat} {b : State} {q : List Instr} {who : Initiator} {port : LanePort} {s : State} (hs : Kept M b q s) (hM : Sub 0x9680041380C M) {r : State} (e : (execForceRetrain who port s) = .next r) : Kept M b q r := by
  unfold execForceRetrain at e
  injection e with e; subst e
  try dsimp only
  repeat' first
    | with_reducible assumption
    | exact Sub.trans (by decide) hM
    | exact Sub.bit hM (by decide)
    | exact Sub.kind hM (by decide) _
    | (intro _; try dsimp only)
    | with_reducible apply bit_ringPage
    | with_reducible apply bit_lanePage
    | with_reducible apply State.retrain_kept
    | with_reducible apply State.write_kept
    | with_reducible apply Kept.ite
    | with_reducible refine Kept.of_pair (by assumption) ?_
    | split

theorem State.portOff_kept {M : Nat} {b : State} {q : List Instr} {s : State} {p : LanePort} (hs : Kept M b q s) (hM : Sub 0x86800403808 M) : Kept M b q (State.portOff s p) := by
  unfold State.portOff
  try dsimp only
  repeat' first
    | with_reducible assumption
    | exact Sub.trans (by decide) hM
    | exact Sub.bit hM (by decide)
    | exact Sub.kind hM (by decide) _
    | (intro _; try dsimp only)
    | with_reducible apply bit_ringPage
    | with_reducible apply bit_lanePage
    | with_reducible apply State.fs_kept
    | with_reducible apply State.leaveActive_kept
    | with_reducible apply State.toTrain_kept
    | with_reducible apply Kept.ite
    | with_reducible refine Kept.of_pair (by assumption) ?_
    | split

theorem State.lanesReleased_kept {M : Nat} {b : State} {q : List Instr} {s : State} {p : LanePort} (hs : Kept M b q s) (hM : Sub 0x80800002000 M) : Kept M b q (State.lanesReleased s p) := by
  unfold State.lanesReleased
  try dsimp only
  repeat' first
    | with_reducible assumption
    | exact Sub.trans (by decide) hM
    | exact Sub.bit hM (by decide)
    | exact Sub.kind hM (by decide) _
    | (intro _; try dsimp only)
    | with_reducible apply bit_ringPage
    | with_reducible apply bit_lanePage
    | with_reducible apply State.toTrain_kept
    | with_reducible apply Kept.ite
    | with_reducible refine Kept.of_pair (by assumption) ?_
    | split

theorem State.setPortEn_kept {M : Nat} {b : State} {q : List Instr} {s : State} {p : LanePort} {en : Bool} (hs : Kept M b q s) (hM : Sub 0x86800403808 M) : Kept M b q (State.setPortEn s p en) := by
  unfold State.setPortEn
  try dsimp only
  repeat' first
    | with_reducible assumption
    | exact Sub.trans (by decide) hM
    | exact Sub.bit hM (by decide)
    | exact Sub.kind hM (by decide) _
    | (intro _; try dsimp only)
    | with_reducible apply bit_ringPage
    | with_reducible apply bit_lanePage
    | with_reducible apply State.lanesReleased_kept
    | with_reducible apply State.portOff_kept
    | with_reducible apply State.setPort_kept
    | with_reducible apply Kept.ite
    | with_reducible refine Kept.of_pair (by assumption) ?_
    | split

theorem State.lnClrCnt_kept {M : Nat} {b : State} {q : List Instr} {s : State} {p : LanePort} (hs : Kept M b q s) (hM : Sub 0x80800000000 M) : Kept M b q (State.lnClrCnt s p) := by
  unfold State.lnClrCnt
  try dsimp only
  repeat' first
    | with_reducible assumption
    | exact Sub.trans (by decide) hM
    | exact Sub.bit hM (by decide)
    | exact Sub.kind hM (by decide) _
    | (intro _; try dsimp only)
    | with_reducible apply bit_ringPage
    | with_reducible apply bit_lanePage
    | with_reducible apply State.wr_kept
    | with_reducible apply Kept.foldl
    | with_reducible apply Kept.foldlP
    | with_reducible apply Kept.ite
    | with_reducible refine Kept.of_pair (by assumption) ?_
    | split

theorem State.lnCtrlWrite_kept {M : Nat} {b : State} {q : List Instr} {s : State} {p : LanePort} {v : Word} (hs : Kept M b q s) (hM : Sub 0x86800403809 M) : Kept M b q (State.lnCtrlWrite s p v) := by
  unfold State.lnCtrlWrite
  try dsimp only
  repeat' first
    | with_reducible assumption
    | exact Sub.trans (by decide) hM
    | exact Sub.bit hM (by decide)
    | exact Sub.kind hM (by decide) _
    | (intro _; try dsimp only)
    | with_reducible apply bit_ringPage
    | with_reducible apply bit_lanePage
    | with_reducible apply State.lnClrCnt_kept
    | with_reducible apply State.plain_kept
    | with_reducible apply State.retrain_kept
    | with_reducible apply State.setPortEn_kept
    | with_reducible apply Kept.ite
    | with_reducible refine Kept.of_pair (by assumption) ?_
    | split

theorem execPortEnWrite_kept {M : Nat} {b : State} {q : List Instr} {who : Initiator} {port : LanePort} {v : Word} {s : State} (hs : Kept M b q s) (hM : Sub 0x9680041380D M) {r : State} (e : (execPortEnWrite who port v s) = .next r) : Kept M b q r := by
  unfold execPortEnWrite at e
  injection e with e; subst e
  try dsimp only
  repeat' first
    | with_reducible assumption
    | exact Sub.trans (by decide) hM
    | exact Sub.bit hM (by decide)
    | exact Sub.kind hM (by decide) _
    | (intro _; try dsimp only)
    | with_reducible apply bit_ringPage
    | with_reducible apply bit_lanePage
    | with_reducible apply State.lnCtrlWrite_kept
    | with_reducible apply State.write_kept
    | with_reducible apply Kept.ite
    | with_reducible refine Kept.of_pair (by assumption) ?_
    | split

theorem execLnClrCnt_kept {M : Nat} {b : State} {q : List Instr} {who : Initiator} {port : LanePort} {s : State} (hs : Kept M b q s) (hM : Sub 0x9080001080C M) {r : State} (e : (execLnClrCnt who port s) = .next r) : Kept M b q r := by
  unfold execLnClrCnt at e
  injection e with e; subst e
  try dsimp only
  repeat' first
    | with_reducible assumption
    | exact Sub.trans (by decide) hM
    | exact Sub.bit hM (by decide)
    | exact Sub.kind hM (by decide) _
    | (intro _; try dsimp only)
    | with_reducible apply bit_ringPage
    | with_reducible apply bit_lanePage
    | with_reducible apply State.lnClrCnt_kept
    | with_reducible apply State.write_kept
    | with_reducible apply Kept.ite
    | with_reducible refine Kept.of_pair (by assumption) ?_
    | split

theorem State.countCv_kept {M : Nat} {b : State} {q : List Instr} {s : State} {p : LanePort} {l : Nat} {n : Nat} (hs : Kept M b q s) (hM : Sub 0x80800002000 M) : Kept M b q (State.countCv s p l n) := by
  unfold State.countCv
  try dsimp only
  repeat' first
    | with_reducible assumption
    | exact Sub.trans (by decide) hM
    | exact Sub.bit hM (by decide)
    | exact Sub.kind hM (by decide) _
    | (intro _; try dsimp only)
    | with_reducible apply bit_ringPage
    | with_reducible apply bit_lanePage
    | with_reducible apply State.addSat_kept
    | with_reducible apply State.setPort_kept
    | with_reducible apply Kept.ite
    | with_reducible refine Kept.of_pair (by assumption) ?_
    | split

theorem State.endingMarks_kept {M : Nat} {b : State} {q : List Instr} {s : State} {p : LanePort} {a : Ending} (hs : Kept M b q s) (hM : Sub 0x80800002000 M) : Kept M b q (State.endingMarks s p a) := by
  unfold State.endingMarks
  try dsimp only
  repeat' first
    | with_reducible assumption
    | exact Sub.trans (by decide) hM
    | exact Sub.bit hM (by decide)
    | exact Sub.kind hM (by decide) _
    | (intro _; try dsimp only)
    | with_reducible apply bit_ringPage
    | with_reducible apply bit_lanePage
    | with_reducible apply State.countCv_kept
    | with_reducible apply State.inc_kept
    | with_reducible apply Kept.ite
    | with_reducible refine Kept.of_pair (by assumption) ?_
    | split

theorem State.capDone_kept {M : Nat} {b : State} {q : List Instr} {s : State} {p : LanePort} (hs : Kept M b q s) (hM : Sub 0x2000 M) : Kept M b q (State.capDone s p) := by
  unfold State.capDone
  try dsimp only
  repeat' first
    | with_reducible assumption
    | exact Sub.trans (by decide) hM
    | exact Sub.bit hM (by decide)
    | exact Sub.kind hM (by decide) _
    | (intro _; try dsimp only)
    | with_reducible apply bit_ringPage
    | with_reducible apply bit_lanePage
    | with_reducible apply State.setPort_kept
    | with_reducible apply Kept.ite
    | with_reducible refine Kept.of_pair (by assumption) ?_
    | split

theorem State.acceptCap_kept {M : Nat} {b : State} {q : List Instr} {s : State} {p : LanePort} {bs : List Byte} (hs : Kept M b q s) (hM : Sub 0x80800002000 M) : Kept M b q (State.acceptCap s p bs) := by
  unfold State.acceptCap
  try dsimp only
  repeat' first
    | with_reducible assumption
    | exact Sub.trans (by decide) hM
    | exact Sub.bit hM (by decide)
    | exact Sub.kind hM (by decide) _
    | (intro _; try dsimp only)
    | with_reducible apply bit_ringPage
    | with_reducible apply bit_lanePage
    | with_reducible apply State.fs_kept
    | with_reducible apply State.setPort_kept
    | with_reducible apply State.wr_kept
    | with_reducible apply Kept.ite
    | with_reducible refine Kept.of_pair (by assumption) ?_
    | split

theorem execCapBlockReceived_kept {M : Nat} {b : State} {q : List Instr} {port : LanePort} {bytes : List Byte} {ending : Ending} {s : State} (hs : Kept M b q s) (hM : Sub 0x80800002808 M) {r : State} (e : (execCapBlockReceived port bytes ending s) = .next r) : Kept M b q r := by
  unfold execCapBlockReceived at e
  injection e with e; subst e
  try dsimp only
  repeat' first
    | with_reducible assumption
    | exact Sub.trans (by decide) hM
    | exact Sub.bit hM (by decide)
    | exact Sub.kind hM (by decide) _
    | (intro _; try dsimp only)
    | with_reducible apply bit_ringPage
    | with_reducible apply bit_lanePage
    | with_reducible apply State.acceptCap_kept
    | with_reducible apply State.capDone_kept
    | with_reducible apply State.raise_kept
    | with_reducible apply State.setPort_kept
    | with_reducible apply Kept.ite
    | with_reducible refine Kept.of_pair (by assumption) ?_
    | split

theorem State.setRoles_kept {M : Nat} {b : State} {q : List Instr} {s : State} {p : LanePort} (hs : Kept M b q s) (hM : Sub 0x80800000000 M) : Kept M b q (State.setRoles s p) := by
  unfold State.setRoles
  try dsimp only
  repeat' first
    | with_reducible assumption
    | exact Sub.trans (by decide) hM
    | exact Sub.bit hM (by decide)
    | exact Sub.kind hM (by decide) _
    | (intro _; try dsimp only)
    | with_reducible apply bit_ringPage
    | with_reducible apply bit_lanePage
    | with_reducible apply State.fs_kept
    | with_reducible apply Kept.foldl
    | with_reducible apply Kept.foldlP
    | with_reducible apply Kept.ite
    | with_reducible refine Kept.of_pair (by assumption) ?_
    | split

theorem State.setSpareOk_kept {M : Nat} {b : State} {q : List Instr} {s : State} {p : LanePort} (hs : Kept M b q s) (hM : Sub 0x80800000000 M) : Kept M b q (State.setSpareOk s p) := by
  unfold State.setSpareOk
  try dsimp only
  repeat' first
    | with_reducible assumption
    | exact Sub.trans (by decide) hM
    | exact Sub.bit hM (by decide)
    | exact Sub.kind hM (by decide) _
    | (intro _; try dsimp only)
    | with_reducible apply bit_ringPage
    | with_reducible apply bit_lanePage
    | with_reducible apply State.fs_kept
    | with_reducible apply Kept.ite
    | with_reducible refine Kept.of_pair (by assumption) ?_
    | split

theorem execPortEnterActive_kept {M : Nat} {b : State} {q : List Instr} {port : LanePort} {s : State} (hs : Kept M b q s) (hM : Sub 0x86800403808 M) {r : State} (e : (execPortEnterActive port s) = .next r) : Kept M b q r := by
  unfold execPortEnterActive at e
  injection e with e; subst e
  try dsimp only
  repeat' first
    | with_reducible assumption
    | exact Sub.trans (by decide) hM
    | exact Sub.bit hM (by decide)
    | exact Sub.kind hM (by decide) _
    | (intro _; try dsimp only)
    | with_reducible apply bit_ringPage
    | with_reducible apply bit_lanePage
    | with_reducible apply State.fs_kept
    | with_reducible apply State.portBack_kept
    | with_reducible apply State.raise_kept
    | with_reducible apply State.ringEntered_kept
    | with_reducible apply State.setPort_kept
    | with_reducible apply State.setRoles_kept
    | with_reducible apply State.setSpareOk_kept
    | with_reducible apply State.twinWatch_kept
    | with_reducible apply Kept.ite
    | with_reducible refine Kept.of_pair (by assumption) ?_
    | split

theorem State.laneCtrl_kept {M : Nat} {b : State} {q : List Instr} {s : State} {p : RingPort} {op : Nat} {lane : Nat} {cause : Nat} {seq : Nat} (hs : Kept M b q s) (hM : Sub 0x2000 M) : Kept M b q (State.laneCtrl s p op lane cause seq) := by
  unfold State.laneCtrl
  try dsimp only
  repeat' first
    | with_reducible assumption
    | exact Sub.trans (by decide) hM
    | exact Sub.bit hM (by decide)
    | exact Sub.kind hM (by decide) _
    | (intro _; try dsimp only)
    | with_reducible apply bit_ringPage
    | with_reducible apply bit_lanePage
    | with_reducible apply State.llOut_kept
    | with_reducible apply Kept.ite
    | with_reducible refine Kept.of_pair (by assumption) ?_
    | split

theorem State.endSub_kept {M : Nat} {b : State} {q : List Instr} {s : State} {p : LanePort} {op : Nat} (hs : Kept M b q s) (hM : Sub 0x80800002808 M) : Kept M b q (State.endSub s p op) := by
  unfold State.endSub
  try dsimp only
  repeat' first
    | with_reducible assumption
    | exact Sub.trans (by decide) hM
    | exact Sub.bit hM (by decide)
    | exact Sub.kind hM (by decide) _
    | (intro _; try dsimp only)
    | with_reducible apply bit_ringPage
    | with_reducible apply bit_lanePage
    | with_reducible apply State.fs_kept
    | with_reducible apply State.raise_kept
    | with_reducible apply State.setPort_kept
    | with_reducible apply Kept.ite
    | with_reducible refine Kept.of_pair (by assumption) ?_
    | split

theorem State.requestSub_kept {M : Nat} {b : State} {q : List Instr} {s : State} {p : RingPort} {l : Nat} {cause : Nat} (hs : Kept M b q s) (hM : Sub 0x80800002808 M) : Kept M b q (State.requestSub s p l cause) := by
  unfold State.requestSub
  try dsimp only
  repeat' first
    | with_reducible assumption
    | exact Sub.trans (by decide) hM
    | exact Sub.bit hM (by decide)
    | exact Sub.kind hM (by decide) _
    | (intro _; try dsimp only)
    | with_reducible apply bit_ringPage
    | with_reducible apply bit_lanePage
    | with_reducible apply State.endSub_kept
    | with_reducible apply State.fs_kept
    | with_reducible apply State.laneCtrl_kept
    | with_reducible apply State.raise_kept
    | with_reducible apply State.setPort_kept
    | with_reducible apply Kept.ite
    | with_reducible refine Kept.of_pair (by assumption) ?_
    | split

theorem State.rxSwitch_kept {M : Nat} {b : State} {q : List Instr} {s : State} {p : LanePort} {l : Nat} {sp : Nat} (hs : Kept M b q s) (hM : Sub 0x20080800002808 M) : Kept M b q (State.rxSwitch s p l sp) := by
  unfold State.rxSwitch
  try dsimp only
  repeat' first
    | with_reducible assumption
    | exact Sub.trans (by decide) hM
    | exact Sub.bit hM (by decide)
    | exact Sub.kind hM (by decide) _
    | (intro _; try dsimp only)
    | with_reducible apply bit_ringPage
    | with_reducible apply bit_lanePage
    | with_reducible apply State.fs_kept
    | with_reducible apply State.raise_kept
    | with_reducible apply State.setPort_kept
    | with_reducible apply State.setRoles_kept
    | with_reducible apply State.setSpareOk_kept
    | with_reducible apply State.setState_kept
    | with_reducible apply State.wearSpared_kept
    | with_reducible apply Kept.ite
    | with_reducible refine Kept.of_pair (by assumption) ?_
    | split

theorem State.rxConfirm_kept {M : Nat} {b : State} {q : List Instr} {s : State} {p : RingPort} (hs : Kept M b q s) (hM : Sub 0x20080800002808 M) : Kept M b q (State.rxConfirm s p) := by
  unfold State.rxConfirm
  try dsimp only
  repeat' first
    | with_reducible assumption
    | exact Sub.trans (by decide) hM
    | exact Sub.bit hM (by decide)
    | exact Sub.kind hM (by decide) _
    | (intro _; try dsimp only)
    | with_reducible apply bit_ringPage
    | with_reducible apply bit_lanePage
    | with_reducible apply State.laneCtrl_kept
    | with_reducible apply State.rxSwitch_kept
    | with_reducible apply Kept.ite
    | with_reducible refine Kept.of_pair (by assumption) ?_
    | split

theorem State.txSwitch_kept {M : Nat} {b : State} {q : List Instr} {s : State} {p : LanePort} {l : Nat} {sp : Nat} (hs : Kept M b q s) (hM : Sub 0x80800002808 M) : Kept M b q (State.txSwitch s p l sp) := by
  unfold State.txSwitch
  try dsimp only
  repeat' first
    | with_reducible assumption
    | exact Sub.trans (by decide) hM
    | exact Sub.bit hM (by decide)
    | exact Sub.kind hM (by decide) _
    | (intro _; try dsimp only)
    | with_reducible apply bit_ringPage
    | with_reducible apply bit_lanePage
    | with_reducible apply State.fs_kept
    | with_reducible apply State.raise_kept
    | with_reducible apply State.setPort_kept
    | with_reducible apply State.setSpareOk_kept
    | with_reducible apply State.setState_kept
    | with_reducible apply Kept.ite
    | with_reducible refine Kept.of_pair (by assumption) ?_
    | split

theorem State.onRing_kept {M : Nat} {b : State} {q : List Instr} {s : State} {p : LanePort} {f : RingPort → State} (hs : Kept M b q s) (hf : ∀ r, Kept M b q (f r)) (hM : Sub 0x0 M) : Kept M b q (State.onRing s p f) := by
  unfold State.onRing
  try dsimp only
  repeat' first
    | with_reducible assumption
    | apply hf
    | exact Sub.trans (by decide) hM
    | exact Sub.bit hM (by decide)
    | (intro _; try dsimp only)
    | exact Sub.kind hM (by decide) _
    | with_reducible apply Kept.ite
    | with_reducible refine Kept.of_pair (by assumption) ?_
    | split

theorem State.ctrlRequest_kept {M : Nat} {b : State} {q : List Instr} {s : State} {p : LanePort} {body : List Byte} (hs : Kept M b q s) (hM : Sub 0x2000 M) : Kept M b q (State.ctrlRequest s p body) := by
  unfold State.ctrlRequest
  try dsimp only
  repeat' first
    | with_reducible assumption
    | exact Sub.trans (by decide) hM
    | exact Sub.bit hM (by decide)
    | exact Sub.kind hM (by decide) _
    | (intro _; try dsimp only)
    | with_reducible apply bit_ringPage
    | with_reducible apply bit_lanePage
    | with_reducible apply State.laneCtrl_kept
    | with_reducible apply State.setPort_kept
    | with_reducible apply Kept.ite
    | with_reducible refine Kept.of_pair (by assumption) ?_
    | split

theorem State.ctrlUrgent_kept {M : Nat} {b : State} {q : List Instr} {s : State} {p : LanePort} {body : List Byte} (hs : Kept M b q s) (hM : Sub 0x80800002808 M) : Kept M b q (State.ctrlUrgent s p body) := by
  unfold State.ctrlUrgent
  try dsimp only
  repeat' first
    | with_reducible assumption
    | exact Sub.trans (by decide) hM
    | exact Sub.bit hM (by decide)
    | exact Sub.kind hM (by decide) _
    | (intro _; try dsimp only)
    | with_reducible apply bit_ringPage
    | with_reducible apply bit_lanePage
    | with_reducible apply State.laneCtrl_kept
    | with_reducible apply State.onRing_kept
    | with_reducible apply State.setPort_kept
    | with_reducible apply State.txSwitch_kept
    | with_reducible apply Kept.ite
    | with_reducible refine Kept.of_pair (by assumption) ?_
    | split

theorem State.ctrlConfirm_kept {M : Nat} {b : State} {q : List Instr} {s : State} {p : LanePort} {body : List Byte} (hs : Kept M b q s) (hM : Sub 0x80800002808 M) : Kept M b q (State.ctrlConfirm s p body) := by
  unfold State.ctrlConfirm
  try dsimp only
  repeat' first
    | with_reducible assumption
    | exact Sub.trans (by decide) hM
    | exact Sub.bit hM (by decide)
    | exact Sub.kind hM (by decide) _
    | (intro _; try dsimp only)
    | with_reducible apply bit_ringPage
    | with_reducible apply bit_lanePage
    | with_reducible apply State.onRing_kept
    | with_reducible apply State.txSwitch_kept
    | with_reducible apply Kept.ite
    | with_reducible refine Kept.of_pair (by assumption) ?_
    | split

theorem State.ctrlCancel_kept {M : Nat} {b : State} {q : List Instr} {s : State} {p : LanePort} (hs : Kept M b q s) (hM : Sub 0x80800002000 M) : Kept M b q (State.ctrlCancel s p) := by
  unfold State.ctrlCancel
  try dsimp only
  repeat' first
    | with_reducible assumption
    | exact Sub.trans (by decide) hM
    | exact Sub.bit hM (by decide)
    | exact Sub.kind hM (by decide) _
    | (intro _; try dsimp only)
    | with_reducible apply bit_ringPage
    | with_reducible apply bit_lanePage
    | with_reducible apply State.fs_kept
    | with_reducible apply State.onRing_kept
    | with_reducible apply State.setPort_kept
    | with_reducible apply State.setSpareOk_kept
    | with_reducible apply Kept.ite
    | with_reducible refine Kept.of_pair (by assumption) ?_
    | split

theorem State.ctrlRefuse_kept {M : Nat} {b : State} {q : List Instr} {s : State} {p : LanePort} (hs : Kept M b q s) (hM : Sub 0x86800403808 M) : Kept M b q (State.ctrlRefuse s p) := by
  unfold State.ctrlRefuse
  try dsimp only
  repeat' first
    | with_reducible assumption
    | exact Sub.trans (by decide) hM
    | exact Sub.bit hM (by decide)
    | exact Sub.kind hM (by decide) _
    | (intro _; try dsimp only)
    | with_reducible apply bit_ringPage
    | with_reducible apply bit_lanePage
    | with_reducible apply State.endSub_kept
    | with_reducible apply State.leaveActive_kept
    | with_reducible apply State.onRing_kept
    | with_reducible apply Kept.ite
    | with_reducible refine Kept.of_pair (by assumption) ?_
    | split

theorem execLaneCtrlRequestReceived_kept {M : Nat} {b : State} {q : List Instr} {port : LanePort} {body : List Byte} {s : State} (hs : Kept M b q s) (hM : Sub 0x2000 M) {r : State} (e : (execLaneCtrlRequestReceived port body s) = .next r) : Kept M b q r := by
  unfold execLaneCtrlRequestReceived at e
  injection e with e; subst e
  try dsimp only
  repeat' first
    | with_reducible assumption
    | exact Sub.trans (by decide) hM
    | exact Sub.bit hM (by decide)
    | exact Sub.kind hM (by decide) _
    | (intro _; try dsimp only)
    | with_reducible apply bit_ringPage
    | with_reducible apply bit_lanePage
    | with_reducible apply State.ctrlRequest_kept
    | with_reducible apply Kept.ite
    | with_reducible refine Kept.of_pair (by assumption) ?_
    | split

theorem execLaneCtrlUrgentReceived_kept {M : Nat} {b : State} {q : List Instr} {port : LanePort} {body : List Byte} {s : State} (hs : Kept M b q s) (hM : Sub 0x80800002808 M) {r : State} (e : (execLaneCtrlUrgentReceived port body s) = .next r) : Kept M b q r := by
  unfold execLaneCtrlUrgentReceived at e
  injection e with e; subst e
  try dsimp only
  repeat' first
    | with_reducible assumption
    | exact Sub.trans (by decide) hM
    | exact Sub.bit hM (by decide)
    | exact Sub.kind hM (by decide) _
    | (intro _; try dsimp only)
    | with_reducible apply bit_ringPage
    | with_reducible apply bit_lanePage
    | with_reducible apply State.ctrlUrgent_kept
    | with_reducible apply Kept.ite
    | with_reducible refine Kept.of_pair (by assumption) ?_
    | split

theorem execLaneCtrlConfirmReceived_kept {M : Nat} {b : State} {q : List Instr} {port : LanePort} {body : List Byte} {s : State} (hs : Kept M b q s) (hM : Sub 0x80800002808 M) {r : State} (e : (execLaneCtrlConfirmReceived port body s) = .next r) : Kept M b q r := by
  unfold execLaneCtrlConfirmReceived at e
  injection e with e; subst e
  try dsimp only
  repeat' first
    | with_reducible assumption
    | exact Sub.trans (by decide) hM
    | exact Sub.bit hM (by decide)
    | exact Sub.kind hM (by decide) _
    | (intro _; try dsimp only)
    | with_reducible apply bit_ringPage
    | with_reducible apply bit_lanePage
    | with_reducible apply State.ctrlConfirm_kept
    | with_reducible apply Kept.ite
    | with_reducible refine Kept.of_pair (by assumption) ?_
    | split

theorem execLaneCtrlCancelReceived_kept {M : Nat} {b : State} {q : List Instr} {port : LanePort} {x1 : List Byte} {s : State} (hs : Kept M b q s) (hM : Sub 0x80800002000 M) {r : State} (e : (execLaneCtrlCancelReceived port x1 s) = .next r) : Kept M b q r := by
  unfold execLaneCtrlCancelReceived at e
  injection e with e; subst e
  try dsimp only
  repeat' first
    | with_reducible assumption
    | exact Sub.trans (by decide) hM
    | exact Sub.bit hM (by decide)
    | exact Sub.kind hM (by decide) _
    | (intro _; try dsimp only)
    | with_reducible apply bit_ringPage
    | with_reducible apply bit_lanePage
    | with_reducible apply State.ctrlCancel_kept
    | with_reducible apply Kept.ite
    | with_reducible refine Kept.of_pair (by assumption) ?_
    | split

theorem execLaneCtrlRefuseReceived_kept {M : Nat} {b : State} {q : List Instr} {port : LanePort} {x1 : List Byte} {s : State} (hs : Kept M b q s) (hM : Sub 0x86800403808 M) {r : State} (e : (execLaneCtrlRefuseReceived port x1 s) = .next r) : Kept M b q r := by
  unfold execLaneCtrlRefuseReceived at e
  injection e with e; subst e
  try dsimp only
  repeat' first
    | with_reducible assumption
    | exact Sub.trans (by decide) hM
    | exact Sub.bit hM (by decide)
    | exact Sub.kind hM (by decide) _
    | (intro _; try dsimp only)
    | with_reducible apply bit_ringPage
    | with_reducible apply bit_lanePage
    | with_reducible apply State.ctrlRefuse_kept
    | with_reducible apply Kept.ite
    | with_reducible refine Kept.of_pair (by assumption) ?_
    | split

theorem State.laneCtrlIn_kept {M : Nat} {b : State} {q : List Instr} {s : State} {p : RingPort} {body : List Byte} (hs : Kept M b q s) (hM : Sub 0x86800403808 M) : Kept M b q (State.laneCtrlIn s p body) := by
  unfold State.laneCtrlIn
  try dsimp only
  repeat' first
    | with_reducible assumption
    | exact Sub.trans (by decide) hM
    | exact Sub.bit hM (by decide)
    | exact Sub.kind hM (by decide) _
    | (intro _; try dsimp only)
    | with_reducible apply bit_ringPage
    | with_reducible apply bit_lanePage
    | with_reducible apply State.ctrlCancel_kept
    | with_reducible apply State.ctrlConfirm_kept
    | with_reducible apply State.ctrlRefuse_kept
    | with_reducible apply State.ctrlRequest_kept
    | with_reducible apply State.ctrlUrgent_kept
    | with_reducible apply Kept.ite
    | with_reducible refine Kept.of_pair (by assumption) ?_
    | split

theorem State.lnSpareWrite_kept {M : Nat} {b : State} {q : List Instr} {s : State} {p : LanePort} {v : Word} (hs : Kept M b q s) (hM : Sub 0x80800002808 M) : Kept M b q (State.lnSpareWrite s p v) := by
  unfold State.lnSpareWrite
  try dsimp only
  repeat' first
    | with_reducible assumption
    | exact Sub.trans (by decide) hM
    | exact Sub.bit hM (by decide)
    | exact Sub.kind hM (by decide) _
    | (intro _; try dsimp only)
    | with_reducible apply bit_ringPage
    | with_reducible apply bit_lanePage
    | with_reducible apply State.requestSub_kept
    | with_reducible apply Kept.ite
    | with_reducible refine Kept.of_pair (by assumption) ?_
    | split

theorem execLnSpareCmd_kept {M : Nat} {b : State} {q : List Instr} {who : Initiator} {port : LanePort} {v : Word} {s : State} (hs : Kept M b q s) (hM : Sub 0x9080001280C M) {r : State} (e : (execLnSpareCmd who port v s) = .next r) : Kept M b q r := by
  unfold execLnSpareCmd at e
  injection e with e; subst e
  try dsimp only
  repeat' first
    | with_reducible assumption
    | exact Sub.trans (by decide) hM
    | exact Sub.bit hM (by decide)
    | exact Sub.kind hM (by decide) _
    | (intro _; try dsimp only)
    | with_reducible apply bit_ringPage
    | with_reducible apply bit_lanePage
    | with_reducible apply State.lnSpareWrite_kept
    | with_reducible apply State.write_kept
    | with_reducible apply Kept.ite
    | with_reducible refine Kept.of_pair (by assumption) ?_
    | split

theorem execLaneErrThreshold_kept {M : Nat} {b : State} {q : List Instr} {port : LanePort} {lane : Fin 5} {s : State} (hs : Kept M b q s) (hM : Sub 0x80800002808 M) {r : State} (e : (execLaneErrThreshold port lane s) = .next r) : Kept M b q r := by
  unfold execLaneErrThreshold at e
  injection e with e; subst e
  try dsimp only
  repeat' first
    | with_reducible assumption
    | exact Sub.trans (by decide) hM
    | exact Sub.bit hM (by decide)
    | exact Sub.kind hM (by decide) _
    | (intro _; try dsimp only)
    | with_reducible apply bit_ringPage
    | with_reducible apply bit_lanePage
    | with_reducible apply State.onRing_kept
    | with_reducible apply State.requestSub_kept
    | with_reducible apply Kept.ite
    | with_reducible refine Kept.of_pair (by assumption) ?_
    | split

theorem execSpareRequestTimeout_kept {M : Nat} {b : State} {q : List Instr} {port : LanePort} {s : State} (hs : Kept M b q s) (hM : Sub 0x80800002808 M) {r : State} (e : (execSpareRequestTimeout port s) = .next r) : Kept M b q r := by
  unfold execSpareRequestTimeout at e
  injection e with e; subst e
  try dsimp only
  repeat' first
    | with_reducible assumption
    | exact Sub.trans (by decide) hM
    | exact Sub.bit hM (by decide)
    | exact Sub.kind hM (by decide) _
    | (intro _; try dsimp only)
    | with_reducible apply bit_ringPage
    | with_reducible apply bit_lanePage
    | with_reducible apply State.endSub_kept
    | with_reducible apply State.laneCtrl_kept
    | with_reducible apply State.onRing_kept
    | with_reducible apply State.setPort_kept
    | with_reducible apply Kept.ite
    | with_reducible refine Kept.of_pair (by assumption) ?_
    | split

theorem execSpareCompareDone_kept {M : Nat} {b : State} {q : List Instr} {port : LanePort} {s : State} (hs : Kept M b q s) (hM : Sub 0x20080800002808 M) {r : State} (e : (execSpareCompareDone port s) = .next r) : Kept M b q r := by
  unfold execSpareCompareDone at e
  injection e with e; subst e
  try dsimp only
  repeat' first
    | with_reducible assumption
    | exact Sub.trans (by decide) hM
    | exact Sub.bit hM (by decide)
    | exact Sub.kind hM (by decide) _
    | (intro _; try dsimp only)
    | with_reducible apply bit_ringPage
    | with_reducible apply bit_lanePage
    | with_reducible apply State.onRing_kept
    | with_reducible apply State.rxConfirm_kept
    | with_reducible apply Kept.ite
    | with_reducible refine Kept.of_pair (by assumption) ?_
    | split

theorem execUrgentSubstTimeout_kept {M : Nat} {b : State} {q : List Instr} {port : LanePort} {s : State} (hs : Kept M b q s) (hM : Sub 0x86800403808 M) {r : State} (e : (execUrgentSubstTimeout port s) = .next r) : Kept M b q r := by
  unfold execUrgentSubstTimeout at e
  injection e with e; subst e
  try dsimp only
  repeat' first
    | with_reducible assumption
    | exact Sub.trans (by decide) hM
    | exact Sub.bit hM (by decide)
    | exact Sub.kind hM (by decide) _
    | (intro _; try dsimp only)
    | with_reducible apply bit_ringPage
    | with_reducible apply bit_lanePage
    | with_reducible apply State.leaveActive_kept
    | with_reducible apply Kept.ite
    | with_reducible refine Kept.of_pair (by assumption) ?_
    | split

theorem State.tsLock_kept {M : Nat} {b : State} {q : List Instr} {s : State} {p : LanePort} {lane : Nat} {ok : Bool} (hs : Kept M b q s) (hM : Sub 0x80800002000 M) : Kept M b q (State.tsLock s p lane ok) := by
  unfold State.tsLock
  try dsimp only
  repeat' first
    | with_reducible assumption
    | exact Sub.trans (by decide) hM
    | exact Sub.bit hM (by decide)
    | exact Sub.kind hM (by decide) _
    | (intro _; try dsimp only)
    | with_reducible apply bit_ringPage
    | with_reducible apply bit_lanePage
    | with_reducible apply State.setLocked_kept
    | with_reducible apply State.setPort_kept
    | with_reducible apply Kept.ite
    | with_reducible refine Kept.of_pair (by assumption) ?_
    | split

theorem State.tsColumn_kept {M : Nat} {b : State} {q : List Instr} {s : State} {p : LanePort} {lane : Nat} {k : Nat} (hs : Kept M b q s) (hM : Sub 0x2000 M) : Kept M b q (State.tsColumn s p lane k) := by
  unfold State.tsColumn
  try dsimp only
  repeat' first
    | with_reducible assumption
    | exact Sub.trans (by decide) hM
    | exact Sub.bit hM (by decide)
    | exact Sub.kind hM (by decide) _
    | (intro _; try dsimp only)
    | with_reducible apply bit_ringPage
    | with_reducible apply bit_lanePage
    | with_reducible apply State.setPort_kept
    | with_reducible apply Kept.ite
    | with_reducible refine Kept.of_pair (by assumption) ?_
    | split

theorem State.tsDeskew_kept {M : Nat} {b : State} {q : List Instr} {s : State} {p : LanePort} {lane : Nat} {st : Nat} {ok : Bool} (hs : Kept M b q s) (hM : Sub 0x80800002000 M) : Kept M b q (State.tsDeskew s p lane st ok) := by
  unfold State.tsDeskew
  try dsimp only
  repeat' first
    | with_reducible assumption
    | exact Sub.trans (by decide) hM
    | exact Sub.bit hM (by decide)
    | exact Sub.kind hM (by decide) _
    | (intro _; try dsimp only)
    | with_reducible apply bit_ringPage
    | with_reducible apply bit_lanePage
    | with_reducible apply State.fs_kept
    | with_reducible apply State.setPort_kept
    | with_reducible apply State.tsColumn_kept
    | with_reducible apply Kept.ite
    | with_reducible refine Kept.of_pair (by assumption) ?_
    | split

theorem State.tsCapx_kept {M : Nat} {b : State} {q : List Instr} {s : State} {p : LanePort} {lane : Nat} {st : Nat} {ok : Bool} (hs : Kept M b q s) (hM : Sub 0x2000 M) : Kept M b q (State.tsCapx s p lane st ok) := by
  unfold State.tsCapx
  try dsimp only
  repeat' first
    | with_reducible assumption
    | exact Sub.trans (by decide) hM
    | exact Sub.bit hM (by decide)
    | exact Sub.kind hM (by decide) _
    | (intro _; try dsimp only)
    | with_reducible apply bit_ringPage
    | with_reducible apply bit_lanePage
    | with_reducible apply State.capDone_kept
    | with_reducible apply State.setPort_kept
    | with_reducible apply Kept.ite
    | with_reducible refine Kept.of_pair (by assumption) ?_
    | split

theorem State.tsActive_kept {M : Nat} {b : State} {q : List Instr} {s : State} {p : LanePort} {lane : Nat} {st : Nat} (hs : Kept M b q s) (hM : Sub 0x20080800002808 M) : Kept M b q (State.tsActive s p lane st) := by
  unfold State.tsActive
  try dsimp only
  repeat' first
    | with_reducible assumption
    | exact Sub.trans (by decide) hM
    | exact Sub.bit hM (by decide)
    | exact Sub.kind hM (by decide) _
    | (intro _; try dsimp only)
    | with_reducible apply bit_ringPage
    | with_reducible apply bit_lanePage
    | with_reducible apply State.fs_kept
    | with_reducible apply State.rxSwitch_kept
    | with_reducible apply Kept.ite
    | with_reducible refine Kept.of_pair (by assumption) ?_
    | split

theorem State.tsMarks_kept {M : Nat} {b : State} {q : List Instr} {s : State} {p : LanePort} {lane : Nat} {inv : Bool} (hs : Kept M b q s) (hM : Sub 0x80800000000 M) : Kept M b q (State.tsMarks s p lane inv) := by
  unfold State.tsMarks
  try dsimp only
  repeat' first
    | with_reducible assumption
    | exact Sub.trans (by decide) hM
    | exact Sub.bit hM (by decide)
    | exact Sub.kind hM (by decide) _
    | (intro _; try dsimp only)
    | with_reducible apply bit_ringPage
    | with_reducible apply bit_lanePage
    | with_reducible apply State.fs_kept
    | with_reducible apply Kept.ite
    | with_reducible refine Kept.of_pair (by assumption) ?_
    | split

theorem execTsReceived_kept {M : Nat} {b : State} {q : List Instr} {port : LanePort} {lane : Fin 5} {inv : Bool} {cv : Fin 5} {bytes : List Byte} {s : State} (hs : Kept M b q s) (hM : Sub 0x20080800002808 M) {r : State} (e : (execTsReceived port lane inv cv bytes s) = .next r) : Kept M b q r := by
  unfold execTsReceived at e
  injection e with e; subst e
  try dsimp only
  repeat' first
    | with_reducible assumption
    | exact Sub.trans (by decide) hM
    | exact Sub.bit hM (by decide)
    | exact Sub.kind hM (by decide) _
    | (intro _; try dsimp only)
    | with_reducible apply bit_ringPage
    | with_reducible apply bit_lanePage
    | with_reducible apply State.countCv_kept
    | with_reducible apply State.fs_kept
    | with_reducible apply State.tsActive_kept
    | with_reducible apply State.tsCapx_kept
    | with_reducible apply State.tsDeskew_kept
    | with_reducible apply State.tsLock_kept
    | with_reducible apply State.tsMarks_kept
    | with_reducible apply Kept.ite
    | with_reducible refine Kept.of_pair (by assumption) ?_
    | split

theorem execCcSend_kept {M : Nat} {b : State} {q : List Instr} {port : LanePort} {s : State} (hs : Kept M b q s) (hM : Sub 0x2000 M) {r : State} (e : (execCcSend port s) = .next r) : Kept M b q r := by
  unfold execCcSend at e
  injection e with e; subst e
  try dsimp only
  repeat' first
    | with_reducible assumption
    | exact Sub.trans (by decide) hM
    | exact Sub.bit hM (by decide)
    | exact Sub.kind hM (by decide) _
    | (intro _; try dsimp only)
    | with_reducible apply bit_ringPage
    | with_reducible apply bit_lanePage
    | with_reducible apply State.setPort_kept
    | with_reducible apply Kept.ite
    | with_reducible refine Kept.of_pair (by assumption) ?_
    | split

theorem State.elastic_kept {M : Nat} {b : State} {q : List Instr} {s : State} {p : LanePort} {fill : Nat} (hs : Kept M b q s) (hM : Sub 0x80800000000 M) : Kept M b q (State.elastic s p fill) := by
  unfold State.elastic
  try dsimp only
  repeat' first
    | with_reducible assumption
    | exact Sub.trans (by decide) hM
    | exact Sub.bit hM (by decide)
    | exact Sub.kind hM (by decide) _
    | (intro _; try dsimp only)
    | with_reducible apply bit_ringPage
    | with_reducible apply bit_lanePage
    | with_reducible apply State.addWrap_kept
    | with_reducible apply Kept.ite
    | with_reducible refine Kept.of_pair (by assumption) ?_
    | split

theorem execCcReceived_kept {M : Nat} {b : State} {q : List Instr} {port : LanePort} {fills : List Nat} {deskew : Nat} {cv : List Nat} {s : State} (hs : Kept M b q s) (hM : Sub 0x80800002000 M) {r : State} (e : (execCcReceived port fills deskew cv s) = .next r) : Kept M b q r := by
  unfold execCcReceived at e
  injection e with e; subst e
  try dsimp only
  repeat' first
    | with_reducible assumption
    | exact Sub.trans (by decide) hM
    | exact Sub.bit hM (by decide)
    | exact Sub.kind hM (by decide) _
    | (intro _; try dsimp only)
    | with_reducible apply bit_ringPage
    | with_reducible apply bit_lanePage
    | with_reducible apply State.addSat_kept
    | with_reducible apply State.countCv_kept
    | with_reducible apply State.elastic_kept
    | with_reducible apply State.fs_kept
    | with_reducible apply Kept.foldl
    | with_reducible apply Kept.foldlP
    | with_reducible apply Kept.ite
    | with_reducible refine Kept.of_pair (by assumption) ?_
    | split

theorem execElasticErr_kept {M : Nat} {b : State} {q : List Instr} {port : LanePort} {s : State} (hs : Kept M b q s) (hM : Sub 0x82800003808 M) {r : State} (e : (execElasticErr port s) = .next r) : Kept M b q r := by
  unfold execElasticErr at e
  injection e with e; subst e
  try dsimp only
  repeat' first
    | with_reducible assumption
    | exact Sub.trans (by decide) hM
    | exact Sub.bit hM (by decide)
    | exact Sub.kind hM (by decide) _
    | (intro _; try dsimp only)
    | with_reducible apply bit_ringPage
    | with_reducible apply bit_lanePage
    | with_reducible apply State.closeArriving_kept
    | with_reducible apply State.countCv_kept
    | with_reducible apply State.raise_kept
    | with_reducible apply Kept.foldl
    | with_reducible apply Kept.foldlP
    | with_reducible apply Kept.ite
    | with_reducible refine Kept.of_pair (by assumption) ?_
    | split

theorem State.faultMarks_kept {M : Nat} {b : State} {q : List Instr} {s : State} {p : LanePort} {l : Nat} {a : LaneCause} (hs : Kept M b q s) (hM : Sub 0x80800002000 M) : Kept M b q (State.faultMarks s p l a) := by
  unfold State.faultMarks
  try dsimp only
  repeat' first
    | with_reducible assumption
    | exact Sub.trans (by decide) hM
    | exact Sub.bit hM (by decide)
    | exact Sub.kind hM (by decide) _
    | (intro _; try dsimp only)
    | with_reducible apply bit_ringPage
    | with_reducible apply bit_lanePage
    | with_reducible apply State.countCv_kept
    | with_reducible apply State.fs_kept
    | with_reducible apply State.inc_kept
    | with_reducible apply State.setLocked_kept
    | with_reducible apply Kept.ite
    | with_reducible refine Kept.of_pair (by assumption) ?_
    | split

theorem State.spareLost_kept {M : Nat} {b : State} {q : List Instr} {s : State} {p : LanePort} {l : Nat} (hs : Kept M b q s) (hM : Sub 0x80800002808 M) : Kept M b q (State.spareLost s p l) := by
  unfold State.spareLost
  try dsimp only
  repeat' first
    | with_reducible assumption
    | exact Sub.trans (by decide) hM
    | exact Sub.bit hM (by decide)
    | exact Sub.kind hM (by decide) _
    | (intro _; try dsimp only)
    | with_reducible apply bit_ringPage
    | with_reducible apply bit_lanePage
    | with_reducible apply State.fs_kept
    | with_reducible apply State.laneCtrl_kept
    | with_reducible apply State.raise_kept
    | with_reducible apply State.setPort_kept
    | with_reducible apply State.setRoles_kept
    | with_reducible apply State.setSpareOk_kept
    | with_reducible apply Kept.ite
    | with_reducible refine Kept.of_pair (by assumption) ?_
    | split

theorem State.laneFaultUsed_kept {M : Nat} {b : State} {q : List Instr} {s : State} {p : LanePort} {l : Nat} (hs : Kept M b q s) (hM : Sub 0x20086800403808 M) : Kept M b q (State.laneFaultUsed s p l) := by
  unfold State.laneFaultUsed
  try dsimp only
  repeat' first
    | with_reducible assumption
    | exact Sub.trans (by decide) hM
    | exact Sub.bit hM (by decide)
    | exact Sub.kind hM (by decide) _
    | (intro _; try dsimp only)
    | with_reducible apply bit_ringPage
    | with_reducible apply bit_lanePage
    | with_reducible apply State.closeArriving_kept
    | with_reducible apply State.fs_kept
    | with_reducible apply State.laneCtrl_kept
    | with_reducible apply State.leaveActive_kept
    | with_reducible apply State.raise_kept
    | with_reducible apply State.rxConfirm_kept
    | with_reducible apply State.setPort_kept
    | with_reducible apply Kept.ite
    | with_reducible refine Kept.of_pair (by assumption) ?_
    | split

theorem execLaneFault_kept {M : Nat} {b : State} {q : List Instr} {port : LanePort} {lane : Fin 5} {cause : LaneCause} {s : State} (hs : Kept M b q s) (hM : Sub 0x20086800403808 M) {r : State} (e : (execLaneFault port lane cause s) = .next r) : Kept M b q r := by
  unfold execLaneFault at e
  injection e with e; subst e
  try dsimp only
  repeat' first
    | with_reducible assumption
    | exact Sub.trans (by decide) hM
    | exact Sub.bit hM (by decide)
    | exact Sub.kind hM (by decide) _
    | (intro _; try dsimp only)
    | with_reducible apply bit_ringPage
    | with_reducible apply bit_lanePage
    | with_reducible apply State.faultMarks_kept
    | with_reducible apply State.laneFaultUsed_kept
    | with_reducible apply State.spareLost_kept
    | with_reducible apply Kept.ite
    | with_reducible refine Kept.of_pair (by assumption) ?_
    | split

end Sys2Proof.Machine
end

