-- ==== Sys2Proof/Laws/KeptScan.lean ====
section
/-! SUPPORT. What the functions of Machine/Scan.lean keep (Laws/Kept.lean). -/
namespace Sys2Proof.Machine

theorem State.scanStart_kept {M : Nat} {b : State} {q : List Instr} {s : State} (hs : Kept M b q s) (hM : Sub 0x10000010000 M) : Kept M b q (State.scanStart s) := by
  unfold State.scanStart
  try dsimp only
  repeat' first
    | with_reducible assumption
    | exact Sub.trans (by decide) hM
    | exact Sub.bit hM (by decide)
    | exact Sub.kind hM (by decide) _
    | (intro _; try dsimp only)
    | with_reducible apply State.fs_kept
    | with_reducible apply Kept.ite
    | with_reducible refine Kept.of_pair (by assumption) ?_
    | split
    | with_reducible refine Kept.set_scan ?_ ?_

theorem State.scanCommitted_kept {M : Nat} {b : State} {q : List Instr} {s : State} (hs : Kept M b q s) (hM : Sub 0x10000 M) : Kept M b q (State.scanCommitted s) := by
  unfold State.scanCommitted
  try dsimp only
  repeat' first
    | with_reducible assumption
    | exact Sub.trans (by decide) hM
    | exact Sub.bit hM (by decide)
    | exact Sub.kind hM (by decide) _
    | (intro _; try dsimp only)
    | with_reducible apply Kept.ite
    | with_reducible refine Kept.of_pair (by assumption) ?_
    | split
    | with_reducible refine Kept.set_scan ?_ ?_

theorem State.sendRange_kept {M : Nat} {b : State} {q : List Instr} {s : State} {img : Image} {mtype : Nat} {dst : Nat} {stream : Nat} {epoch : Nat} {grain : Nat} {m : Nat} {len : Nat} {pub : Nat} (hs : Kept M b q s) (hM : Sub 0x8000000000808 M) : Kept M b q (State.sendRange s img mtype dst stream epoch grain m len pub) := by
  unfold State.sendRange
  try dsimp only
  repeat' first
    | with_reducible assumption
    | exact Sub.trans (by decide) hM
    | exact Sub.bit hM (by decide)
    | exact Sub.kind hM (by decide) _
    | (intro _; try dsimp only)
    | with_reducible apply State.copyRead_kept
    | with_reducible apply State.originate_kept
    | with_reducible apply Kept.foldl
    | with_reducible apply Kept.foldlP
    | with_reducible apply Kept.ite
    | with_reducible refine Kept.of_pair (by assumption) ?_
    | split

theorem State.publish_kept {M : Nat} {b : State} {q : List Instr} {n : Nat} {s : State} {k : Nat} (hs : Kept M b q s) (hM : Sub 0x8000000000808 M) : Kept M b q (State.publish n s k) := by
  unfold State.publish
  try dsimp only
  repeat' first
    | with_reducible assumption
    | exact Sub.trans (by decide) hM
    | exact Sub.bit hM (by decide)
    | exact Sub.kind hM (by decide) _
    | (intro _; try dsimp only)
    | with_reducible apply State.sendRange_kept
    | with_reducible apply Kept.ite
    | with_reducible refine Kept.of_pair (by assumption) ?_
    | split

theorem State.opublish_kept {M : Nat} {b : State} {q : List Instr} {r : Nat} {s : State} {k : Nat} (hs : Kept M b q s) (hM : Sub 0x8000000000808 M) : Kept M b q (State.opublish r s k) := by
  unfold State.opublish
  try dsimp only
  repeat' first
    | with_reducible assumption
    | exact Sub.trans (by decide) hM
    | exact Sub.bit hM (by decide)
    | exact Sub.kind hM (by decide) _
    | (intro _; try dsimp only)
    | with_reducible apply State.sendRange_kept
    | with_reducible apply Kept.ite
    | with_reducible refine Kept.of_pair (by assumption) ?_
    | split

theorem State.cutPub_kept {M : Nat} {b : State} {q : List Instr} {s : State} {k : Nat} (hs : Kept M b q s) (hM : Sub 0x10000001800 M) : Kept M b q (State.cutPub s k) := by
  unfold State.cutPub
  try dsimp only
  repeat' first
    | with_reducible assumption
    | exact Sub.trans (by decide) hM
    | exact Sub.bit hM (by decide)
    | exact Sub.kind hM (by decide) _
    | (intro _; try dsimp only)
    | with_reducible apply State.inc_kept
    | with_reducible apply State.setIng_kept
    | with_reducible apply Kept.ite
    | with_reducible refine Kept.of_pair (by assumption) ?_
    | split
    | with_reducible refine Kept.set_ingress ?_ ?_

theorem State.settle_kept {M : Nat} {b : State} {q : List Instr} {e : Nat} {s : State} {j : Nat} (hs : Kept M b q s) (hM : Sub 0x10000000808 M) : Kept M b q (State.settle e s j) := by
  unfold State.settle
  try dsimp only
  repeat' first
    | with_reducible assumption
    | exact Sub.trans (by decide) hM
    | exact Sub.bit hM (by decide)
    | exact Sub.kind hM (by decide) _
    | (intro _; try dsimp only)
    | with_reducible apply State.fs_kept
    | with_reducible apply State.inc_kept
    | with_reducible apply State.raise_kept
    | with_reducible apply State.wr_kept
    | with_reducible apply Kept.ite
    | with_reducible refine Kept.of_pair (by assumption) ?_
    | split

theorem State.heldWrites_kept {M : Nat} {b : State} {q : List Instr} {s : State} (hs : Kept M b q s) (hM : Sub 0x410000 M) : Kept M b q (State.heldWrites s) := by
  unfold State.heldWrites
  try dsimp only
  repeat' first
    | with_reducible assumption
    | exact Sub.trans (by decide) hM
    | exact Sub.bit hM (by decide)
    | exact Sub.kind hM (by decide) _
    | (intro _; try dsimp only)
    | with_reducible apply State.grpPut_kept
    | with_reducible apply Kept.foldl
    | with_reducible apply Kept.foldlP
    | with_reducible apply Kept.ite
    | with_reducible refine Kept.of_pair (by assumption) ?_
    | split
    | with_reducible refine Kept.set_scan ?_ ?_

theorem State.scanStop_kept {M : Nat} {b : State} {q : List Instr} {s : State} (hs : Kept M b q s) (hM : Sub 0x1000001080A M) : Kept M b q (State.scanStop s) := by
  unfold State.scanStop
  try dsimp only
  repeat' first
    | with_reducible assumption
    | exact Sub.trans (by decide) hM
    | exact Sub.bit hM (by decide)
    | exact Sub.kind hM (by decide) _
    | (intro _; try dsimp only)
    | with_reducible apply State.fs_kept
    | with_reducible apply State.setState_kept
    | with_reducible apply Kept.ite
    | with_reducible refine Kept.of_pair (by assumption) ?_
    | split
    | with_reducible refine Kept.set_scan ?_ ?_
    | with_reducible refine Kept.set_stopping ?_ ?_
    | (refine Kept.upd (s := ?_) ?_ ?_ ?_ ?_ ?_ ?_ ?_ ?_ ?_ ?_ ?_ ?_ ?_ ?_ ?_ ?_ ?_ ?_ ?_ ?_ ?_ ?_ ?_ ?_ ?_ ?_ ?_ ?_ ?_ ?_ ?_ <;> first | rfl | exact Or.inl rfl | exact Or.inr (hM.bit (by decide)) | skip)

theorem State.scanBoundary_kept {M : Nat} {b : State} {q : List Instr} {s : State} (hs : Kept M b q s) (hM : Sub 0x1000041180A M) : Kept M b q (State.scanBoundary s) := by
  unfold State.scanBoundary
  try dsimp only
  repeat' first
    | with_reducible assumption
    | exact Sub.trans (by decide) hM
    | exact Sub.bit hM (by decide)
    | exact Sub.kind hM (by decide) _
    | (intro _; try dsimp only)
    | with_reducible apply State.cutPub_kept
    | with_reducible apply State.flip_kept
    | with_reducible apply State.fs_kept
    | with_reducible apply State.heldWrites_kept
    | with_reducible apply State.raise_kept
    | with_reducible apply State.scanStop_kept
    | with_reducible apply State.settle_kept
    | with_reducible apply State.wr_kept
    | with_reducible apply Kept.foldl
    | with_reducible apply Kept.foldlP
    | with_reducible apply Kept.ite
    | with_reducible refine Kept.of_pair (by assumption) ?_
    | split
    | with_reducible refine Kept.set_scan ?_ ?_

theorem State.latchAll_kept {M : Nat} {b : State} {q : List Instr} {s : State} (hs : Kept M b q s) (hM : Sub 0x450000 M) : Kept M b q (State.latchAll s) := by
  unfold State.latchAll
  try dsimp only
  repeat' first
    | with_reducible assumption
    | exact Sub.trans (by decide) hM
    | exact Sub.bit hM (by decide)
    | exact Sub.kind hM (by decide) _
    | (intro _; try dsimp only)
    | with_reducible apply State.grpPut_kept
    | with_reducible apply Kept.foldl
    | with_reducible apply Kept.foldlP
    | with_reducible apply Kept.ite
    | with_reducible refine Kept.of_pair (by assumption) ?_
    | split
    | with_reducible refine Kept.set_chans ?_ ?_
    | with_reducible refine Kept.set_scan ?_ ?_
    | (refine Kept.upd (s := ?_) ?_ ?_ ?_ ?_ ?_ ?_ ?_ ?_ ?_ ?_ ?_ ?_ ?_ ?_ ?_ ?_ ?_ ?_ ?_ ?_ ?_ ?_ ?_ ?_ ?_ ?_ ?_ ?_ ?_ ?_ ?_ <;> first | rfl | exact Or.inl rfl | exact Or.inr (hM.bit (by decide)) | skip)

theorem State.publishAll_kept {M : Nat} {b : State} {q : List Instr} {s : State} (hs : Kept M b q s) (hM : Sub 0x8000000000808 M) : Kept M b q (State.publishAll s) := by
  unfold State.publishAll
  try dsimp only
  repeat' first
    | with_reducible assumption
    | exact Sub.trans (by decide) hM
    | exact Sub.bit hM (by decide)
    | exact Sub.kind hM (by decide) _
    | (intro _; try dsimp only)
    | with_reducible apply State.opublish_kept
    | with_reducible apply State.publish_kept
    | with_reducible apply Kept.foldl
    | with_reducible apply Kept.foldlP
    | with_reducible apply Kept.ite
    | with_reducible refine Kept.of_pair (by assumption) ?_
    | split

theorem State.release_kept {M : Nat} {b : State} {q : List Instr} {s : State} {g : Nat} (hs : Kept M b q s) (hM : Sub 0x40000 M) : Kept M b q (State.release s g) := by
  unfold State.release
  try dsimp only
  repeat' first
    | with_reducible assumption
    | exact Sub.trans (by decide) hM
    | exact Sub.bit hM (by decide)
    | exact Sub.kind hM (by decide) _
    | (intro _; try dsimp only)
    | with_reducible apply State.place_kept
    | with_reducible apply State.setChan_kept
    | with_reducible apply Kept.ite
    | with_reducible refine Kept.of_pair (by assumption) ?_
    | split

theorem State.lateOut_kept {M : Nat} {b : State} {q : List Instr} {s : State} {grain : Nat} {g : Nat} (hs : Kept M b q s) (hM : Sub 0x10000010808 M) : Kept M b q (State.lateOut s grain g) := by
  unfold State.lateOut
  try dsimp only
  repeat' first
    | with_reducible assumption
    | exact Sub.trans (by decide) hM
    | exact Sub.bit hM (by decide)
    | exact Sub.kind hM (by decide) _
    | (intro _; try dsimp only)
    | with_reducible apply State.inc_kept
    | with_reducible apply State.raise_kept
    | with_reducible apply State.wr_kept
    | with_reducible apply Kept.foldl
    | with_reducible apply Kept.foldlP
    | with_reducible apply Kept.ite
    | with_reducible refine Kept.of_pair (by assumption) ?_
    | split
    | with_reducible refine Kept.set_scan ?_ ?_

theorem State.guardGroup_kept {M : Nat} {b : State} {q : List Instr} {s : State} {m : Nat} (hs : Kept M b q s) (hM : Sub 0x8010000050808 M) : Kept M b q (State.guardGroup s m) := by
  unfold State.guardGroup
  try dsimp only
  repeat' first
    | with_reducible assumption
    | exact Sub.trans (by decide) hM
    | exact Sub.bit hM (by decide)
    | exact Sub.kind hM (by decide) _
    | (intro _; try dsimp only)
    | with_reducible apply State.copyRead_kept
    | with_reducible apply State.lateOut_kept
    | with_reducible apply State.release_kept
    | with_reducible apply Kept.foldl
    | with_reducible apply Kept.foldlP
    | with_reducible apply Kept.ite
    | with_reducible refine Kept.of_pair (by assumption) ?_
    | split

theorem execGuardStart_kept {M : Nat} {b : State} {q : List Instr} {s : State} (hs : Kept M b q s) (hM : Sub 0x8010000050808 M) {r : State} (e : (execGuardStart s) = .next r) : Kept M b q r := by
  unfold execGuardStart at e
  injection e with e; subst e
  try dsimp only
  repeat' first
    | with_reducible assumption
    | exact Sub.trans (by decide) hM
    | exact Sub.bit hM (by decide)
    | exact Sub.kind hM (by decide) _
    | (intro _; try dsimp only)
    | with_reducible apply State.fs_kept
    | with_reducible apply State.guardGroup_kept
    | with_reducible apply Kept.foldl
    | with_reducible apply Kept.foldlP
    | with_reducible apply Kept.ite
    | with_reducible refine Kept.of_pair (by assumption) ?_
    | split

theorem State.putGroups_kept {M : Nat} {b : State} {q : List Instr} {s : State} {img : Image} {m : Nat} {g : Nat} {pay : List Byte} (hs : Kept M b q s) (hM : Sub 0x410000 M) : Kept M b q (State.putGroups s img m g pay) := by
  unfold State.putGroups
  try dsimp only
  repeat' first
    | with_reducible assumption
    | exact Sub.trans (by decide) hM
    | exact Sub.bit hM (by decide)
    | exact Sub.kind hM (by decide) _
    | (intro _; try dsimp only)
    | with_reducible apply State.grpPut_kept
    | with_reducible apply Kept.foldl
    | with_reducible apply Kept.foldlP
    | with_reducible apply Kept.ite
    | with_reducible refine Kept.of_pair (by assumption) ?_
    | split

theorem State.badFrame_kept {M : Nat} {b : State} {q : List Instr} {s : State} (hs : Kept M b q s) (hM : Sub 0x10000000808 M) : Kept M b q (State.badFrame s) := by
  unfold State.badFrame
  try dsimp only
  repeat' first
    | with_reducible assumption
    | exact Sub.trans (by decide) hM
    | exact Sub.bit hM (by decide)
    | exact Sub.kind hM (by decide) _
    | (intro _; try dsimp only)
    | with_reducible apply State.inc_kept
    | with_reducible apply State.raise_kept
    | with_reducible apply Kept.ite
    | with_reducible refine Kept.of_pair (by assumption) ?_
    | split

theorem State.takePublish_kept {M : Nat} {b : State} {q : List Instr} {s : State} {f : Frame} {g : Nat} (hs : Kept M b q s) (hM : Sub 0x10000410808 M) : Kept M b q (State.takePublish s f g) := by
  unfold State.takePublish
  try dsimp only
  repeat' first
    | with_reducible assumption
    | exact Sub.trans (by decide) hM
    | exact Sub.bit hM (by decide)
    | exact Sub.kind hM (by decide) _
    | (intro _; try dsimp only)
    | with_reducible apply State.badFrame_kept
    | with_reducible apply State.inc_kept
    | with_reducible apply State.putGroups_kept
    | with_reducible apply State.raise_kept
    | with_reducible apply State.raiseIf_kept
    | with_reducible apply Kept.ite
    | with_reducible refine Kept.of_pair (by assumption) ?_
    | split
    | with_reducible refine Kept.set_scan ?_ ?_

theorem State.takeOutput_kept {M : Nat} {b : State} {q : List Instr} {s : State} {f : Frame} {g : Nat} (hs : Kept M b q s) (hM : Sub 0x10000410808 M) : Kept M b q (State.takeOutput s f g) := by
  unfold State.takeOutput
  try dsimp only
  repeat' first
    | with_reducible assumption
    | exact Sub.trans (by decide) hM
    | exact Sub.bit hM (by decide)
    | exact Sub.kind hM (by decide) _
    | (intro _; try dsimp only)
    | with_reducible apply State.badFrame_kept
    | with_reducible apply State.inc_kept
    | with_reducible apply State.lateOut_kept
    | with_reducible apply State.putGroups_kept
    | with_reducible apply State.raise_kept
    | with_reducible apply Kept.ite
    | with_reducible refine Kept.of_pair (by assumption) ?_
    | split

theorem State.takeCanopy_kept {M : Nat} {b : State} {q : List Instr} {s : State} {f : Frame} (hs : Kept M b q s) (hM : Sub 0x11000410808 M) : Kept M b q (State.takeCanopy s f) := by
  unfold State.takeCanopy
  try dsimp only
  repeat' first
    | with_reducible assumption
    | exact Sub.trans (by decide) hM
    | exact Sub.bit hM (by decide)
    | exact Sub.kind hM (by decide) _
    | (intro _; try dsimp only)
    | with_reducible apply State.badFrame_kept
    | with_reducible apply State.inc_kept
    | with_reducible apply State.takeOutput_kept
    | with_reducible apply State.takePublish_kept
    | with_reducible apply Kept.ite
    | with_reducible refine Kept.of_pair (by assumption) ?_
    | split

theorem execScanFrameTake_kept {M : Nat} {b : State} {q : List Instr} {s : State} (hs : Kept M b q s) (hM : Sub 0x11000411808 M) {r : State} (e : (execScanFrameTake s) = .next r) : Kept M b q r := by
  unfold execScanFrameTake at e
  injection e with e; subst e
  try dsimp only
  repeat' first
    | with_reducible assumption
    | exact Sub.trans (by decide) hM
    | exact Sub.bit hM (by decide)
    | exact Sub.kind hM (by decide) _
    | (intro _; try dsimp only)
    | with_reducible apply State.inc_kept
    | with_reducible apply State.setInbox_kept
    | with_reducible apply State.takeCanopy_kept
    | with_reducible apply Kept.ite
    | with_reducible refine Kept.of_pair (by assumption) ?_
    | split

theorem State.scOpubSend_kept {M : Nat} {b : State} {q : List Instr} {s : State} {v : Word} (hs : Kept M b q s) (hM : Sub 0x8010000000808 M) : Kept M b q (State.scOpubSend s v) := by
  unfold State.scOpubSend
  try dsimp only
  repeat' first
    | with_reducible assumption
    | exact Sub.trans (by decide) hM
    | exact Sub.bit hM (by decide)
    | exact Sub.kind hM (by decide) _
    | (intro _; try dsimp only)
    | with_reducible apply State.inc_kept
    | with_reducible apply State.opublish_kept
    | with_reducible apply State.raise_kept
    | with_reducible apply Kept.foldl
    | with_reducible apply Kept.foldlP
    | with_reducible apply Kept.ite
    | with_reducible refine Kept.of_pair (by assumption) ?_
    | split

theorem execScOpubSend_kept {M : Nat} {b : State} {q : List Instr} {who : Initiator} {v : Word} {s : State} (hs : Kept M b q s) (hM : Sub 0x809000001080C M) {r : State} (e : (execScOpubSend who v s) = .next r) : Kept M b q r := by
  unfold execScOpubSend at e
  injection e with e; subst e
  try dsimp only
  repeat' first
    | with_reducible assumption
    | exact Sub.trans (by decide) hM
    | exact Sub.bit hM (by decide)
    | exact Sub.kind hM (by decide) _
    | (intro _; try dsimp only)
    | with_reducible apply State.scOpubSend_kept
    | with_reducible apply State.write_kept
    | with_reducible apply Kept.ite
    | with_reducible refine Kept.of_pair (by assumption) ?_
    | split

theorem State.scClrCnt_kept {M : Nat} {b : State} {q : List Instr} {s : State} (hs : Kept M b q s) (hM : Sub 0x10000000000 M) : Kept M b q (State.scClrCnt s) := by
  unfold State.scClrCnt
  try dsimp only
  repeat' first
    | with_reducible assumption
    | exact Sub.trans (by decide) hM
    | exact Sub.bit hM (by decide)
    | exact Sub.kind hM (by decide) _
    | (intro _; try dsimp only)
    | with_reducible apply State.fs_kept
    | with_reducible apply State.wr_kept
    | with_reducible apply Kept.foldl
    | with_reducible apply Kept.foldlP
    | with_reducible apply Kept.ite
    | with_reducible refine Kept.of_pair (by assumption) ?_
    | split

theorem execScClrCnt_kept {M : Nat} {b : State} {q : List Instr} {who : Initiator} {s : State} (hs : Kept M b q s) (hM : Sub 0x9000001080C M) {r : State} (e : (execScClrCnt who s) = .next r) : Kept M b q r := by
  unfold execScClrCnt at e
  injection e with e; subst e
  try dsimp only
  repeat' first
    | with_reducible assumption
    | exact Sub.trans (by decide) hM
    | exact Sub.bit hM (by decide)
    | exact Sub.kind hM (by decide) _
    | (intro _; try dsimp only)
    | with_reducible apply State.scClrCnt_kept
    | with_reducible apply State.write_kept
    | with_reducible apply Kept.ite
    | with_reducible refine Kept.of_pair (by assumption) ?_
    | split

end Sys2Proof.Machine
end

