-- ==== Sys2Proof/Laws/KeptMemory.lean ====
section
/-! SUPPORT. What the functions of Machine/Memory.lean keep (Laws/Kept.lean). -/
namespace Sys2Proof.Machine

theorem State.setSpBank_kept {M : Nat} {b : State} {q : List Instr} {s : State} {x1 : Nat} {x : SpBank} (hs : Kept M b q s) (hM : Sub 0x4000 M) : Kept M b q (State.setSpBank s x1 x) := by
  unfold State.setSpBank
  try dsimp only
  repeat' first
    | with_reducible assumption
    | exact Sub.trans (by decide) hM
    | exact Sub.bit hM (by decide)
    | exact Sub.kind hM (by decide) _
    | (intro _; try dsimp only)
    | with_reducible apply Kept.ite
    | with_reducible refine Kept.of_pair (by assumption) ?_
    | split
    | with_reducible refine Kept.set_mem ?_ ?_

theorem State.spTrack_kept {M : Nat} {b : State} {q : List Instr} {s : State} {x1 : Nat} {row : Nat} (hs : Kept M b q s) (hM : Sub 0x40004000 M) : Kept M b q (State.spTrack s x1 row) := by
  unfold State.spTrack
  try dsimp only
  repeat' first
    | with_reducible assumption
    | exact Sub.trans (by decide) hM
    | exact Sub.bit hM (by decide)
    | exact Sub.kind hM (by decide) _
    | (intro _; try dsimp only)
    | with_reducible apply State.setSpBank_kept
    | with_reducible apply State.tookFree_kept
    | with_reducible apply Kept.foldl
    | with_reducible apply Kept.foldlP
    | with_reducible apply Kept.ite
    | with_reducible refine Kept.of_pair (by assumption) ?_
    | split

theorem State.spNote_kept {M : Nat} {b : State} {q : List Instr} {s : State} {w : Nat} (hs : Kept M b q s) (hM : Sub 0x8000040004808 M) : Kept M b q (State.spNote s w) := by
  unfold State.spNote
  try dsimp only
  repeat' first
    | with_reducible assumption
    | exact Sub.trans (by decide) hM
    | exact Sub.bit hM (by decide)
    | exact Sub.kind hM (by decide) _
    | (intro _; try dsimp only)
    | with_reducible apply State.inc_kept
    | with_reducible apply State.raise_kept
    | with_reducible apply State.spTrack_kept
    | with_reducible apply State.wr_kept
    | with_reducible apply Kept.ite
    | with_reducible refine Kept.of_pair (by assumption) ?_
    | split
    | with_reducible refine Kept.set_mem ?_ ?_

theorem State.spPut_kept {M : Nat} {b : State} {q : List Instr} {s : State} {w : Nat} {data : Word} {be : BitVec 4} (hs : Kept M b q s) (hM : Sub 0x4000 M) : Kept M b q (State.spPut s w data be) := by
  exact ⟨hs.pending, hs.regs, hs.mram, Map.wf_put (d := fun _ => (0 : Word)) _ _ hs.sp, hs.lc, hs.rd,
      fun f hf => by cases f <;> first | exact hs.part _ hf | exact false_of hf (hM.bit (by decide))⟩

theorem State.spWordAccess_kept {M : Nat} {b : State} {q : List Instr} {s : State} {w : Nat} {write : Bool} {data : Word} {be : BitVec 4} (hs : Kept M b q s) (hM : Sub 0x8000040004808 M) : Kept M b q (State.spWordAccess s w write data be).1 := by
  unfold State.spWordAccess
  try dsimp only
  repeat' first
    | with_reducible assumption
    | exact Sub.trans (by decide) hM
    | exact Sub.bit hM (by decide)
    | exact Sub.kind hM (by decide) _
    | (intro _; try dsimp only)
    | with_reducible apply State.spNote_kept
    | with_reducible apply State.spPut_kept
    | with_reducible apply State.write_kept
    | with_reducible apply Kept.ite
    | with_reducible refine Kept.of_pair (by assumption) ?_
    | split

theorem State.spUnaligned_kept {M : Nat} {b : State} {q : List Instr} {s : State} {a : Nat} {write : Bool} {data : Word} {be : BitVec 4} (hs : Kept M b q s) (hM : Sub 0x8000040004808 M) : Kept M b q (State.spUnaligned s a write data be).1 := by
  unfold State.spUnaligned
  try dsimp only
  repeat' first
    | with_reducible assumption
    | exact Sub.trans (by decide) hM
    | exact Sub.bit hM (by decide)
    | exact Sub.kind hM (by decide) _
    | (intro _; try dsimp only)
    | with_reducible apply State.spNote_kept
    | with_reducible apply State.spPut_kept
    | with_reducible apply State.write_kept
    | with_reducible apply Kept.ite
    | with_reducible refine Kept.of_pair (by assumption) ?_
    | split

theorem State.spForeign_kept {M : Nat} {b : State} {q : List Instr} {s : State} (hs : Kept M b q s) (hM : Sub 0x8000000000808 M) : Kept M b q (State.spForeign s) := by
  unfold State.spForeign
  try dsimp only
  repeat' first
    | with_reducible assumption
    | exact Sub.trans (by decide) hM
    | exact Sub.bit hM (by decide)
    | exact Sub.kind hM (by decide) _
    | (intro _; try dsimp only)
    | with_reducible apply State.inc_kept
    | with_reducible apply State.raise_kept
    | with_reducible apply Kept.ite
    | with_reducible refine Kept.of_pair (by assumption) ?_
    | split

theorem State.spAccess_kept {M : Nat} {b : State} {q : List Instr} {s : State} {code : Nat} {a : Nat} {write : Bool} {data : Word} {be : BitVec 4} (hs : Kept M b q s) (hM : Sub 0x8000040004808 M) : Kept M b q (State.spAccess s code a write data be).1 := by
  unfold State.spAccess
  try dsimp only
  repeat' first
    | with_reducible assumption
    | exact Sub.trans (by decide) hM
    | exact Sub.bit hM (by decide)
    | exact Sub.kind hM (by decide) _
    | (intro _; try dsimp only)
    | with_reducible apply State.answer_kept
    | with_reducible apply State.serve_kept
    | with_reducible apply State.spForeign_kept
    | with_reducible apply State.spUnaligned_kept
    | with_reducible apply State.spWordAccess_kept
    | with_reducible apply State.write_kept
    | with_reducible apply Kept.ite
    | with_reducible refine Kept.of_pair (by assumption) ?_
    | split

theorem State.spLocal_kept {M : Nat} {b : State} {q : List Instr} {s : State} {who : Initiator} {a : Nat} {write : Bool} {data : Word} {be : BitVec 4} (hs : Kept M b q s) (hM : Sub 0x800004000480C M) : Kept M b q (State.spLocal s who a write data be) := by
  unfold State.spLocal
  try dsimp only
  repeat' first
    | with_reducible assumption
    | exact Sub.trans (by decide) hM
    | exact Sub.bit hM (by decide)
    | exact Sub.kind hM (by decide) _
    | (intro _; try dsimp only)
    | with_reducible apply State.answer_kept
    | with_reducible apply State.spAccess_kept
    | with_reducible apply State.write_kept
    | with_reducible apply Kept.ite
    | with_reducible refine Kept.of_pair (by assumption) ?_
    | split
    | with_reducible refine Kept.set_mem ?_ ?_

theorem execScratchpadAccess_kept {M : Nat} {b : State} {q : List Instr} {who : Initiator} {addr : Nat} {write : Bool} {data : Word} {be : BitVec 4} {s : State} (hs : Kept M b q s) (hM : Sub 0x801004001480C M) {r : State} (e : (execScratchpadAccess who addr write data be s) = .next r) : Kept M b q r := by
  unfold execScratchpadAccess at e
  injection e with e; subst e
  try dsimp only
  repeat' first
    | with_reducible assumption
    | exact Sub.trans (by decide) hM
    | exact Sub.bit hM (by decide)
    | exact Sub.kind hM (by decide) _
    | (intro _; try dsimp only)
    | with_reducible apply State.answer_kept
    | with_reducible apply State.spLocal_kept
    | with_reducible apply State.touch_kept
    | with_reducible apply State.write_kept
    | with_reducible apply Kept.ite
    | with_reducible refine Kept.of_pair (by assumption) ?_
    | split

theorem State.bankRefuse_kept {M : Nat} {b : State} {q : List Instr} {s : State} {r : Nat} (hs : Kept M b q s) (hM : Sub 0x8000000000808 M) : Kept M b q (State.bankRefuse s r) := by
  unfold State.bankRefuse
  try dsimp only
  repeat' first
    | with_reducible assumption
    | exact Sub.trans (by decide) hM
    | exact Sub.bit hM (by decide)
    | exact Sub.kind hM (by decide) _
    | (intro _; try dsimp only)
    | with_reducible apply State.fs_kept
    | with_reducible apply State.raise_kept
    | with_reducible apply Kept.ite
    | with_reducible refine Kept.of_pair (by assumption) ?_
    | split

theorem State.bankDone_kept {M : Nat} {b : State} {q : List Instr} {s : State} (hs : Kept M b q s) (hM : Sub 0x8000000000808 M) : Kept M b q (State.bankDone s) := by
  unfold State.bankDone
  try dsimp only
  repeat' first
    | with_reducible assumption
    | exact Sub.trans (by decide) hM
    | exact Sub.bit hM (by decide)
    | exact Sub.kind hM (by decide) _
    | (intro _; try dsimp only)
    | with_reducible apply State.fs_kept
    | with_reducible apply State.raise_kept
    | with_reducible apply Kept.ite
    | with_reducible refine Kept.of_pair (by assumption) ?_
    | split

theorem State.bankCmd_kept {M : Nat} {b : State} {q : List Instr} {s : State} {v : Word} (hs : Kept M b q s) (hM : Sub 0x8000000004808 M) : Kept M b q (State.bankCmd s v) := by
  unfold State.bankCmd
  try dsimp only
  repeat' first
    | with_reducible assumption
    | exact Sub.trans (by decide) hM
    | exact Sub.bit hM (by decide)
    | exact Sub.kind hM (by decide) _
    | (intro _; try dsimp only)
    | with_reducible apply State.bankDone_kept
    | with_reducible apply State.bankRefuse_kept
    | with_reducible apply State.fs_kept
    | with_reducible apply State.setSpBank_kept
    | with_reducible apply Kept.ite
    | with_reducible refine Kept.of_pair (by assumption) ?_
    | split

theorem State.spZero_kept {M : Nat} {b : State} {q : List Instr} {s : State} {x1 : Nat} (hs : Kept M b q s) (hM : Sub 0x4000 M) : Kept M b q (State.spZero s x1) := by
  exact ⟨hs.pending, hs.regs, hs.mram, Map.wf_drop (d := fun _ => (0 : Word)) (fun w => decide (w / 16384 = x1)) hs.sp, hs.lc, hs.rd,
      fun f hf => by cases f <;> first | exact hs.part _ hf | exact false_of hf (hM.bit (by decide))⟩

theorem State.bankDrained_kept {M : Nat} {b : State} {q : List Instr} {s : State} {x1 : Nat} (hs : Kept M b q s) (hM : Sub 0x8000000004808 M) : Kept M b q (State.bankDrained s x1) := by
  unfold State.bankDrained
  try dsimp only
  repeat' first
    | with_reducible assumption
    | exact Sub.trans (by decide) hM
    | exact Sub.bit hM (by decide)
    | exact Sub.kind hM (by decide) _
    | (intro _; try dsimp only)
    | with_reducible apply State.bankDone_kept
    | with_reducible apply State.fs_kept
    | with_reducible apply State.setSpBank_kept
    | with_reducible apply State.spZero_kept
    | with_reducible apply Kept.ite
    | with_reducible refine Kept.of_pair (by assumption) ?_
    | split

theorem execBankHandover_kept {M : Nat} {b : State} {q : List Instr} {who : Initiator} {v : Word} {s : State} (hs : Kept M b q s) (hM : Sub 0x809000001480C M) {r : State} (e : (execBankHandover who v s) = .next r) : Kept M b q r := by
  unfold execBankHandover at e
  injection e with e; subst e
  try dsimp only
  repeat' first
    | with_reducible assumption
    | exact Sub.trans (by decide) hM
    | exact Sub.bit hM (by decide)
    | exact Sub.kind hM (by decide) _
    | (intro _; try dsimp only)
    | with_reducible apply State.bankCmd_kept
    | with_reducible apply State.write_kept
    | with_reducible apply Kept.ite
    | with_reducible refine Kept.of_pair (by assumption) ?_
    | split

theorem execBankPowerOn_kept {M : Nat} {b : State} {q : List Instr} {who : Initiator} {v : Word} {s : State} (hs : Kept M b q s) (hM : Sub 0x809000001480C M) {r : State} (e : (execBankPowerOn who v s) = .next r) : Kept M b q r := by
  unfold execBankPowerOn at e
  injection e with e; subst e
  try dsimp only
  repeat' first
    | with_reducible assumption
    | exact Sub.trans (by decide) hM
    | exact Sub.bit hM (by decide)
    | exact Sub.kind hM (by decide) _
    | (intro _; try dsimp only)
    | with_reducible apply State.bankCmd_kept
    | with_reducible apply State.write_kept
    | with_reducible apply Kept.ite
    | with_reducible refine Kept.of_pair (by assumption) ?_
    | split

theorem execBankPowerRetention_kept {M : Nat} {b : State} {q : List Instr} {who : Initiator} {v : Word} {s : State} (hs : Kept M b q s) (hM : Sub 0x809000001480C M) {r : State} (e : (execBankPowerRetention who v s) = .next r) : Kept M b q r := by
  unfold execBankPowerRetention at e
  injection e with e; subst e
  try dsimp only
  repeat' first
    | with_reducible assumption
    | exact Sub.trans (by decide) hM
    | exact Sub.bit hM (by decide)
    | exact Sub.kind hM (by decide) _
    | (intro _; try dsimp only)
    | with_reducible apply State.bankCmd_kept
    | with_reducible apply State.write_kept
    | with_reducible apply Kept.ite
    | with_reducible refine Kept.of_pair (by assumption) ?_
    | split

theorem execBankPowerOff_kept {M : Nat} {b : State} {q : List Instr} {who : Initiator} {v : Word} {s : State} (hs : Kept M b q s) (hM : Sub 0x809000001480C M) {r : State} (e : (execBankPowerOff who v s) = .next r) : Kept M b q r := by
  unfold execBankPowerOff at e
  injection e with e; subst e
  try dsimp only
  repeat' first
    | with_reducible assumption
    | exact Sub.trans (by decide) hM
    | exact Sub.bit hM (by decide)
    | exact Sub.kind hM (by decide) _
    | (intro _; try dsimp only)
    | with_reducible apply State.bankCmd_kept
    | with_reducible apply State.write_kept
    | with_reducible apply Kept.ite
    | with_reducible refine Kept.of_pair (by assumption) ?_
    | split

theorem execBankInitDone_kept {M : Nat} {b : State} {q : List Instr} {bank : Fin 8} {s : State} (hs : Kept M b q s) (hM : Sub 0x8000000004808 M) {r : State} (e : (execBankInitDone bank s) = .next r) : Kept M b q r := by
  unfold execBankInitDone at e
  injection e with e; subst e
  try dsimp only
  repeat' first
    | with_reducible assumption
    | exact Sub.trans (by decide) hM
    | exact Sub.bit hM (by decide)
    | exact Sub.kind hM (by decide) _
    | (intro _; try dsimp only)
    | with_reducible apply State.bankDone_kept
    | with_reducible apply State.fs_kept
    | with_reducible apply State.setSpBank_kept
    | with_reducible apply State.spZero_kept
    | with_reducible apply Kept.ite
    | with_reducible refine Kept.of_pair (by assumption) ?_
    | split

theorem execSpRowEccThreshold_kept {M : Nat} {b : State} {q : List Instr} {bank : Fin 8} {row : Nat} {s : State} (hs : Kept M b q s) (hM : Sub 0x4000 M) {r : State} (e : (execSpRowEccThreshold bank row s) = .next r) : Kept M b q r := by
  unfold execSpRowEccThreshold at e
  injection e with e; subst e
  try dsimp only
  repeat' first
    | with_reducible assumption
    | exact Sub.trans (by decide) hM
    | exact Sub.bit hM (by decide)
    | exact Sub.kind hM (by decide) _
    | (intro _; try dsimp only)
    | with_reducible apply Kept.ite
    | with_reducible refine Kept.of_pair (by assumption) ?_
    | split
    | with_reducible refine Kept.set_mem ?_ ?_

theorem State.showSpares_kept {M : Nat} {b : State} {q : List Instr} {s : State} {x1 : Nat} (hs : Kept M b q s) (hM : Sub 0x8000000000000 M) : Kept M b q (State.showSpares s x1) := by
  unfold State.showSpares
  try dsimp only
  repeat' first
    | with_reducible assumption
    | exact Sub.trans (by decide) hM
    | exact Sub.bit hM (by decide)
    | exact Sub.kind hM (by decide) _
    | (intro _; try dsimp only)
    | with_reducible apply State.fs_kept
    | with_reducible apply Kept.ite
    | with_reducible refine Kept.of_pair (by assumption) ?_
    | split

theorem State.rowRepair_kept {M : Nat} {b : State} {q : List Instr} {s : State} {x1 : Nat} {row : Nat} {cause : Nat} (hs : Kept M b q s) (hM : Sub 0x28000040004A08 M) : Kept M b q (State.rowRepair s x1 row cause) := by
  unfold State.rowRepair
  try dsimp only
  repeat' first
    | with_reducible assumption
    | exact Sub.trans (by decide) hM
    | exact Sub.bit hM (by decide)
    | exact Sub.kind hM (by decide) _
    | (intro _; try dsimp only)
    | with_reducible apply State.raise_kept
    | with_reducible apply State.recordRepair_kept
    | with_reducible apply State.setSpBank_kept
    | with_reducible apply State.setState_kept
    | with_reducible apply State.showSpares_kept
    | with_reducible apply State.tookFree_kept
    | with_reducible apply Kept.ite
    | with_reducible refine Kept.of_pair (by assumption) ?_
    | split

theorem execRowRepair_kept {M : Nat} {b : State} {q : List Instr} {bank : Fin 8} {row : Nat} {s : State} (hs : Kept M b q s) (hM : Sub 0x28000040004A08 M) {r : State} (e : (execRowRepair bank row s) = .next r) : Kept M b q r := by
  unfold execRowRepair at e
  injection e with e; subst e
  try dsimp only
  repeat' first
    | with_reducible assumption
    | exact Sub.trans (by decide) hM
    | exact Sub.bit hM (by decide)
    | exact Sub.kind hM (by decide) _
    | (intro _; try dsimp only)
    | with_reducible apply State.rowRepair_kept
    | with_reducible apply Kept.ite
    | with_reducible refine Kept.of_pair (by assumption) ?_
    | split
    | with_reducible refine Kept.set_mem ?_ ?_

theorem State.marchState_kept {M : Nat} {b : State} {q : List Instr} {s : State} {n : Nat} (hs : Kept M b q s) (hM : Sub 0x8000000000000 M) : Kept M b q (State.marchState s n) := by
  unfold State.marchState
  try dsimp only
  repeat' first
    | with_reducible assumption
    | exact Sub.trans (by decide) hM
    | exact Sub.bit hM (by decide)
    | exact Sub.kind hM (by decide) _
    | (intro _; try dsimp only)
    | with_reducible apply State.fs_kept
    | with_reducible apply Kept.ite
    | with_reducible refine Kept.of_pair (by assumption) ?_
    | split

theorem State.showTesting_kept {M : Nat} {b : State} {q : List Instr} {s : State} {bs : List Nat} {v : Nat} (hs : Kept M b q s) (hM : Sub 0x8000000000000 M) : Kept M b q (State.showTesting s bs v) := by
  unfold State.showTesting
  try dsimp only
  repeat' first
    | with_reducible assumption
    | exact Sub.trans (by decide) hM
    | exact Sub.bit hM (by decide)
    | exact Sub.kind hM (by decide) _
    | (intro _; try dsimp only)
    | with_reducible apply State.fs_kept
    | with_reducible apply Kept.foldl
    | with_reducible apply Kept.foldlP
    | with_reducible apply Kept.ite
    | with_reducible refine Kept.of_pair (by assumption) ?_
    | split

theorem State.coreUnready_kept {M : Nat} {b : State} {q : List Instr} {s : State} (hs : Kept M b q s) (hM : Sub 0x600000180A M) : Kept M b q (State.coreUnready s) := by
  unfold State.coreUnready
  refine State.coreDiscard_kept (Kept.foldlM hs fun t p hp h => State.unready_kept h (Sub.trans (by decide) hM) ?_) (Sub.trans (by decide) hM)
  have hk : kindOf p = some .core ∨ kindOf p = some .q := by
    revert p; decide
  rcases hk with e | e <;> rw [e] <;> exact hM.bit (by decide)

theorem State.marchGo_kept {M : Nat} {b : State} {q : List Instr} {s : State} {v : Word} (hs : Kept M b q s) (hM : Sub 0x801600000580A M) : Kept M b q (State.marchGo s v) := by
  unfold State.marchGo
  try dsimp only
  repeat' first
    | with_reducible assumption
    | exact Sub.trans (by decide) hM
    | exact Sub.bit hM (by decide)
    | exact Sub.kind hM (by decide) _
    | (intro _; try dsimp only)
    | with_reducible apply State.coreUnready_kept
    | with_reducible apply State.fs_kept
    | with_reducible apply State.marchState_kept
    | with_reducible apply State.showTesting_kept
    | with_reducible apply State.unready_kept
    | with_reducible apply Kept.ite
    | with_reducible refine Kept.of_pair (by assumption) ?_
    | split
    | with_reducible refine Kept.set_mem ?_ ?_

theorem State.marchAbort_kept {M : Nat} {b : State} {q : List Instr} {s : State} (hs : Kept M b q s) (hM : Sub 0x4000 M) : Kept M b q (State.marchAbort s) := by
  unfold State.marchAbort
  try dsimp only
  repeat' first
    | with_reducible assumption
    | exact Sub.trans (by decide) hM
    | exact Sub.bit hM (by decide)
    | exact Sub.kind hM (by decide) _
    | (intro _; try dsimp only)
    | with_reducible apply Kept.ite
    | with_reducible refine Kept.of_pair (by assumption) ?_
    | split
    | with_reducible refine Kept.set_mem ?_ ?_

theorem State.marchCmd_kept {M : Nat} {b : State} {q : List Instr} {s : State} {v : Word} (hs : Kept M b q s) (hM : Sub 0x801600000580A M) : Kept M b q (State.marchCmd s v) := by
  unfold State.marchCmd
  try dsimp only
  repeat' first
    | with_reducible assumption
    | exact Sub.trans (by decide) hM
    | exact Sub.bit hM (by decide)
    | exact Sub.kind hM (by decide) _
    | (intro _; try dsimp only)
    | with_reducible apply State.marchAbort_kept
    | with_reducible apply State.marchGo_kept
    | with_reducible apply Kept.ite
    | with_reducible refine Kept.of_pair (by assumption) ?_
    | split

theorem execMarchGo_kept {M : Nat} {b : State} {q : List Instr} {who : Initiator} {v : Word} {s : State} (hs : Kept M b q s) (hM : Sub 0x809600001580E M) {r : State} (e : (execMarchGo who v s) = .next r) : Kept M b q r := by
  unfold execMarchGo at e
  injection e with e; subst e
  try dsimp only
  repeat' first
    | with_reducible assumption
    | exact Sub.trans (by decide) hM
    | exact Sub.bit hM (by decide)
    | exact Sub.kind hM (by decide) _
    | (intro _; try dsimp only)
    | with_reducible apply State.marchCmd_kept
    | with_reducible apply State.write_kept
    | with_reducible apply Kept.ite
    | with_reducible refine Kept.of_pair (by assumption) ?_
    | split

theorem execMarchAbort_kept {M : Nat} {b : State} {q : List Instr} {who : Initiator} {s : State} (hs : Kept M b q s) (hM : Sub 0x9000001480C M) {r : State} (e : (execMarchAbort who s) = .next r) : Kept M b q r := by
  unfold execMarchAbort at e
  injection e with e; subst e
  try dsimp only
  repeat' first
    | with_reducible assumption
    | exact Sub.trans (by decide) hM
    | exact Sub.bit hM (by decide)
    | exact Sub.kind hM (by decide) _
    | (intro _; try dsimp only)
    | with_reducible apply State.marchAbort_kept
    | with_reducible apply State.write_kept
    | with_reducible apply Kept.ite
    | with_reducible refine Kept.of_pair (by assumption) ?_
    | split

theorem State.marchFail_kept {M : Nat} {b : State} {q : List Instr} {s : State} {memory : Nat} {bank : Nat} {row : Nat} (hs : Kept M b q s) (hM : Sub 0x28000040004A08 M) : Kept M b q (State.marchFail s memory bank row) := by
  unfold State.marchFail
  try dsimp only
  repeat' first
    | with_reducible assumption
    | exact Sub.trans (by decide) hM
    | exact Sub.bit hM (by decide)
    | exact Sub.kind hM (by decide) _
    | (intro _; try dsimp only)
    | with_reducible apply State.inc_kept
    | with_reducible apply State.raise_kept
    | with_reducible apply State.rowRepair_kept
    | with_reducible apply State.setSpBank_kept
    | with_reducible apply State.showSpares_kept
    | with_reducible apply State.wr_kept
    | with_reducible apply Kept.ite
    | with_reducible refine Kept.of_pair (by assumption) ?_
    | split

theorem State.marchSpares_kept {M : Nat} {b : State} {q : List Instr} {s : State} {bs : List Nat} (hs : Kept M b q s) (hM : Sub 0x2000001808 M) : Kept M b q (State.marchSpares s bs) := by
  unfold State.marchSpares
  try dsimp only
  repeat' first
    | with_reducible assumption
    | exact Sub.trans (by decide) hM
    | exact Sub.bit hM (by decide)
    | exact Sub.kind hM (by decide) _
    | (intro _; try dsimp only)
    | with_reducible apply State.requestSpare_kept
    | with_reducible apply Kept.ite
    | with_reducible refine Kept.of_pair (by assumption) ?_
    | split

theorem State.memZero_kept {M : Nat} {b : State} {q : List Instr} {s : State} {memory : Nat} {bs : List Nat} (hs : Kept M b q s) (hM : Sub 0x15000 M) : Kept M b q (State.memZero s memory bs) := by
  unfold State.memZero
  try dsimp only
  repeat' first
    | with_reducible assumption
    | exact Sub.trans (by decide) hM
    | exact Sub.bit hM (by decide)
    | exact Sub.kind hM (by decide) _
    | (intro _; try dsimp only)
    | with_reducible apply State.setSpBank_kept
    | with_reducible apply State.spZero_kept
    | with_reducible apply Kept.foldl
    | with_reducible apply Kept.foldlP
    | with_reducible apply Kept.ite
    | with_reducible refine Kept.of_pair (by assumption) ?_
    | split
    | with_reducible refine Kept.set_core ?_ ?_
    | with_reducible refine Kept.set_mem ?_ ?_
    | with_reducible refine Kept.set_scan ?_ ?_
    | (refine Kept.upd (s := ?_) ?_ ?_ ?_ ?_ ?_ ?_ ?_ ?_ ?_ ?_ ?_ ?_ ?_ ?_ ?_ ?_ ?_ ?_ ?_ ?_ ?_ ?_ ?_ ?_ ?_ ?_ ?_ ?_ ?_ ?_ ?_ <;> first | rfl | exact Or.inl rfl | exact Or.inr (hM.bit (by decide)) | skip)

theorem State.marchEnd_kept {M : Nat} {b : State} {q : List Instr} {s : State} {m : March} {failed : Bool} (hs : Kept M b q s) (hM : Sub 0x8002000005808 M) : Kept M b q (State.marchEnd s m failed) := by
  unfold State.marchEnd
  try dsimp only
  repeat' first
    | with_reducible assumption
    | exact Sub.trans (by decide) hM
    | exact Sub.bit hM (by decide)
    | exact Sub.kind hM (by decide) _
    | (intro _; try dsimp only)
    | with_reducible apply State.marchSpares_kept
    | with_reducible apply State.marchState_kept
    | with_reducible apply State.raise_kept
    | with_reducible apply State.showTesting_kept
    | with_reducible apply Kept.ite
    | with_reducible refine Kept.of_pair (by assumption) ?_
    | split
    | with_reducible refine Kept.set_mem ?_ ?_

theorem State.marchStopped_kept {M : Nat} {b : State} {q : List Instr} {s : State} {m : March} (hs : Kept M b q s) (hM : Sub 0x8002000005808 M) : Kept M b q (State.marchStopped s m) := by
  unfold State.marchStopped
  try dsimp only
  repeat' first
    | with_reducible assumption
    | exact Sub.trans (by decide) hM
    | exact Sub.bit hM (by decide)
    | exact Sub.kind hM (by decide) _
    | (intro _; try dsimp only)
    | with_reducible apply State.marchSpares_kept
    | with_reducible apply State.marchState_kept
    | with_reducible apply State.raise_kept
    | with_reducible apply State.setSpBank_kept
    | with_reducible apply State.showTesting_kept
    | with_reducible apply Kept.foldl
    | with_reducible apply Kept.foldlP
    | with_reducible apply Kept.ite
    | with_reducible refine Kept.of_pair (by assumption) ?_
    | split
    | with_reducible refine Kept.set_mem ?_ ?_

theorem execMarchRowStep_kept {M : Nat} {b : State} {q : List Instr} {fails : Bool} {s : State} (hs : Kept M b q s) (hM : Sub 0x28002040005A08 M) {r : State} (e : (execMarchRowStep fails s) = .next r) : Kept M b q r := by
  unfold execMarchRowStep at e
  injection e with e; subst e
  try dsimp only
  repeat' first
    | with_reducible assumption
    | exact Sub.trans (by decide) hM
    | exact Sub.bit hM (by decide)
    | exact Sub.kind hM (by decide) _
    | (intro _; try dsimp only)
    | with_reducible apply State.marchFail_kept
    | with_reducible apply State.marchStopped_kept
    | with_reducible apply Kept.ite
    | with_reducible refine Kept.of_pair (by assumption) ?_
    | split
    | with_reducible refine Kept.set_mem ?_ ?_

theorem State.powerOnEnd_kept {M : Nat} {b : State} {q : List Instr} {s : State} {k : Nat} {failing : List (Nat × Nat)} (hs : Kept M b q s) (hM : Sub 0x28002040015A08 M) : Kept M b q (State.powerOnEnd s k failing) := by
  unfold State.powerOnEnd
  try dsimp only
  repeat' first
    | with_reducible assumption
    | exact Sub.trans (by decide) hM
    | exact Sub.bit hM (by decide)
    | exact Sub.kind hM (by decide) _
    | (intro _; try dsimp only)
    | with_reducible apply State.marchFail_kept
    | with_reducible apply State.marchSpares_kept
    | with_reducible apply State.marchState_kept
    | with_reducible apply State.memZero_kept
    | with_reducible apply State.raise_kept
    | with_reducible apply Kept.foldl
    | with_reducible apply Kept.foldlP
    | with_reducible apply Kept.ite
    | with_reducible refine Kept.of_pair (by assumption) ?_
    | split
    | with_reducible refine Kept.set_mem ?_ ?_

theorem execMarchRunDone_kept {M : Nat} {b : State} {q : List Instr} {mem : Fin 3} {failing : List (Nat × Nat)} {s : State} (hs : Kept M b q s) (hM : Sub 0x28002040015A08 M) {r : State} (e : (execMarchRunDone mem failing s) = .next r) : Kept M b q r := by
  unfold execMarchRunDone at e
  injection e with e; subst e
  try dsimp only
  repeat' first
    | with_reducible assumption
    | exact Sub.trans (by decide) hM
    | exact Sub.bit hM (by decide)
    | exact Sub.kind hM (by decide) _
    | (intro _; try dsimp only)
    | with_reducible apply State.marchEnd_kept
    | with_reducible apply State.marchFail_kept
    | with_reducible apply State.marchStopped_kept
    | with_reducible apply State.memZero_kept
    | with_reducible apply State.powerOnEnd_kept
    | with_reducible apply Kept.foldl
    | with_reducible apply Kept.foldlP
    | with_reducible apply Kept.ite
    | with_reducible refine Kept.of_pair (by assumption) ?_
    | split

theorem State.memClrCnt_kept {M : Nat} {b : State} {q : List Instr} {s : State} (hs : Kept M b q s) (hM : Sub 0x8000000000000 M) : Kept M b q (State.memClrCnt s) := by
  unfold State.memClrCnt
  try dsimp only
  repeat' first
    | with_reducible assumption
    | exact Sub.trans (by decide) hM
    | exact Sub.bit hM (by decide)
    | exact Sub.kind hM (by decide) _
    | (intro _; try dsimp only)
    | with_reducible apply State.wr_kept
    | with_reducible apply Kept.foldl
    | with_reducible apply Kept.foldlP
    | with_reducible apply Kept.ite
    | with_reducible refine Kept.of_pair (by assumption) ?_
    | split

theorem execMemClrCnt_kept {M : Nat} {b : State} {q : List Instr} {who : Initiator} {s : State} (hs : Kept M b q s) (hM : Sub 0x809000001080C M) {r : State} (e : (execMemClrCnt who s) = .next r) : Kept M b q r := by
  unfold execMemClrCnt at e
  injection e with e; subst e
  try dsimp only
  repeat' first
    | with_reducible assumption
    | exact Sub.trans (by decide) hM
    | exact Sub.bit hM (by decide)
    | exact Sub.kind hM (by decide) _
    | (intro _; try dsimp only)
    | with_reducible apply State.memClrCnt_kept
    | with_reducible apply State.write_kept
    | with_reducible apply Kept.ite
    | with_reducible refine Kept.of_pair (by assumption) ?_
    | split

theorem State.memReset_kept {M : Nat} {b : State} {q : List Instr} {s : State} (hs : Kept M b q s) (hM : Sub 0x8002000005808 M) : Kept M b q (State.memReset s) := by
  unfold State.memReset
  try dsimp only
  repeat' first
    | with_reducible assumption
    | exact Sub.trans (by decide) hM
    | exact Sub.bit hM (by decide)
    | exact Sub.kind hM (by decide) _
    | (intro _; try dsimp only)
    | with_reducible apply State.fs_kept
    | with_reducible apply State.marchStopped_kept
    | with_reducible apply State.setSpBank_kept
    | with_reducible apply State.showSpares_kept
    | with_reducible apply State.showTable_kept
    | with_reducible apply Kept.foldl
    | with_reducible apply Kept.foldlP
    | with_reducible apply Kept.ite
    | with_reducible refine Kept.of_pair (by assumption) ?_
    | split
    | with_reducible refine Kept.set_mem ?_ ?_

theorem State.histWrite_kept {M : Nat} {b : State} {q : List Instr} {s : State} {n : Nat} (hs : Kept M b q s) (hM : Sub 0x8000000004808 M) : Kept M b q (State.histWrite s n) := by
  unfold State.histWrite
  try dsimp only
  repeat' first
    | with_reducible assumption
    | exact Sub.trans (by decide) hM
    | exact Sub.bit hM (by decide)
    | exact Sub.kind hM (by decide) _
    | (intro _; try dsimp only)
    | with_reducible apply State.inc_kept
    | with_reducible apply State.raise_kept
    | with_reducible apply State.serve_kept
    | with_reducible apply State.spPut_kept
    | with_reducible apply Kept.foldl
    | with_reducible apply Kept.foldlP
    | with_reducible apply Kept.ite
    | with_reducible refine Kept.of_pair (by assumption) ?_
    | split

end Sys2Proof.Machine
end

