-- ==== Sys2Proof/Laws/KeptPower.lean ====
section
/-! SUPPORT. What the functions of Machine/Power.lean keep (Laws/Kept.lean). -/
namespace Sys2Proof.Machine

theorem State.supSend_kept {M : Nat} {b : State} {q : List Instr} {p : Nat} {off : Nat} {v : Word} {s : State} (hs : Kept M b q s) (hM : Sub 0x800000 M) : Kept M b q (State.supSend p off v s) := by
  unfold State.supSend
  try dsimp only
  repeat' first
    | with_reducible assumption
    | exact Sub.trans (by decide) hM
    | exact Sub.bit hM (by decide)
    | exact Sub.kind hM (by decide) _
    | (intro _; try dsimp only)
    | with_reducible apply Kept.ite
    | with_reducible refine Kept.of_pair (by assumption) ?_
    | split
    | with_reducible refine Kept.set_supv ?_ ?_

theorem State.setPwr_kept {M : Nat} {b : State} {q : List Instr} {s : State} {n : Nat} {x : Pwr} (hs : Kept M b q s) (hM : Sub 0x800000 M) : Kept M b q (State.setPwr s n x) := by
  unfold State.setPwr
  try dsimp only
  repeat' first
    | with_reducible assumption
    | exact Sub.trans (by decide) hM
    | exact Sub.bit hM (by decide)
    | exact Sub.kind hM (by decide) _
    | (intro _; try dsimp only)
    | with_reducible apply Kept.ite
    | with_reducible refine Kept.of_pair (by assumption) ?_
    | split
    | with_reducible refine Kept.set_supv ?_ ?_

theorem State.gateOff_kept {M : Nat} {b : State} {q : List Instr} {s : State} {n : Nat} (hs : Kept M b q s) (hM : Sub 0x200000800808 M) : Kept M b q (State.gateOff s n) := by
  unfold State.gateOff
  try dsimp only
  repeat' first
    | with_reducible assumption
    | exact Sub.trans (by decide) hM
    | exact Sub.bit hM (by decide)
    | exact Sub.kind hM (by decide) _
    | (intro _; try dsimp only)
    | with_reducible apply bit_ppPage
    | with_reducible apply State.fs_kept
    | with_reducible apply State.raise_kept
    | with_reducible apply State.setPwr_kept
    | with_reducible apply Kept.ite
    | with_reducible refine Kept.of_pair (by assumption) ?_
    | split

theorem State.gateOffFor_kept {M : Nat} {b : State} {q : List Instr} {s : State} {n : Nat} {cause : Nat} (hs : Kept M b q s) (hM : Sub 0x200000800808 M) : Kept M b q (State.gateOffFor s n cause) := by
  unfold State.gateOffFor
  try dsimp only
  repeat' first
    | with_reducible assumption
    | exact Sub.trans (by decide) hM
    | exact Sub.bit hM (by decide)
    | exact Sub.kind hM (by decide) _
    | (intro _; try dsimp only)
    | with_reducible apply bit_ppPage
    | with_reducible apply State.fs_kept
    | with_reducible apply State.gateOff_kept
    | with_reducible apply Kept.ite
    | with_reducible refine Kept.of_pair (by assumption) ?_
    | split

theorem State.ppGo_kept {M : Nat} {b : State} {q : List Instr} {s : State} {n : Nat} {st : Nat} (hs : Kept M b q s) (hM : Sub 0x200000000000 M) : Kept M b q (State.ppGo s n st) := by
  unfold State.ppGo
  try dsimp only
  repeat' first
    | with_reducible assumption
    | exact Sub.trans (by decide) hM
    | exact Sub.bit hM (by decide)
    | exact Sub.kind hM (by decide) _
    | (intro _; try dsimp only)
    | with_reducible apply bit_ppPage
    | with_reducible apply State.fs_kept
    | with_reducible apply Kept.ite
    | with_reducible refine Kept.of_pair (by assumption) ?_
    | split

theorem State.ppStand_kept {M : Nat} {b : State} {q : List Instr} {s : State} {n : Nat} (hs : Kept M b q s) (hM : Sub 0x200000800808 M) : Kept M b q (State.ppStand s n) := by
  unfold State.ppStand
  try dsimp only
  repeat' first
    | with_reducible assumption
    | exact Sub.trans (by decide) hM
    | exact Sub.bit hM (by decide)
    | exact Sub.kind hM (by decide) _
    | (intro _; try dsimp only)
    | with_reducible apply bit_ppPage
    | with_reducible apply State.fs_kept
    | with_reducible apply State.gateOff_kept
    | with_reducible apply State.ppGo_kept
    | with_reducible apply Kept.ite
    | with_reducible refine Kept.of_pair (by assumption) ?_
    | split

theorem State.ppEnterInsert_kept {M : Nat} {b : State} {q : List Instr} {s : State} {n : Nat} {fast : Bool} (hs : Kept M b q s) (hM : Sub 0x200000800808 M) : Kept M b q (State.ppEnterInsert s n fast) := by
  unfold State.ppEnterInsert
  try dsimp only
  repeat' first
    | with_reducible assumption
    | exact Sub.trans (by decide) hM
    | exact Sub.bit hM (by decide)
    | exact Sub.kind hM (by decide) _
    | (intro _; try dsimp only)
    | with_reducible apply State.ppGo_kept
    | with_reducible apply State.ppStand_kept
    | with_reducible apply State.setPwr_kept
    | with_reducible apply Kept.ite
    | with_reducible refine Kept.of_pair (by assumption) ?_
    | split

theorem State.ppStart_kept {M : Nat} {b : State} {q : List Instr} {s : State} {n : Nat} (hs : Kept M b q s) (hM : Sub 0x200000800808 M) : Kept M b q (State.ppStart s n) := by
  unfold State.ppStart
  try dsimp only
  repeat' first
    | with_reducible assumption
    | exact Sub.trans (by decide) hM
    | exact Sub.bit hM (by decide)
    | exact Sub.kind hM (by decide) _
    | (intro _; try dsimp only)
    | with_reducible apply bit_ppPage
    | with_reducible apply State.ppEnterInsert_kept
    | with_reducible apply State.ppGo_kept
    | with_reducible apply Kept.ite
    | with_reducible refine Kept.of_pair (by assumption) ?_
    | split

theorem State.ppLeave_kept {M : Nat} {b : State} {q : List Instr} {s : State} {n : Nat} {cause : Nat} {st : Nat} (hs : Kept M b q s) (hM : Sub 0x200000800808 M) : Kept M b q (State.ppLeave s n cause st) := by
  unfold State.ppLeave
  try dsimp only
  repeat' first
    | with_reducible assumption
    | exact Sub.trans (by decide) hM
    | exact Sub.bit hM (by decide)
    | exact Sub.kind hM (by decide) _
    | (intro _; try dsimp only)
    | with_reducible apply bit_ppPage
    | with_reducible apply State.fs_kept
    | with_reducible apply State.gateOffFor_kept
    | with_reducible apply State.ppGo_kept
    | with_reducible apply State.setPwr_kept
    | with_reducible apply Kept.ite
    | with_reducible refine Kept.of_pair (by assumption) ?_
    | split

theorem State.ppStop_kept {M : Nat} {b : State} {q : List Instr} {s : State} {n : Nat} (hs : Kept M b q s) (hM : Sub 0x200000800808 M) : Kept M b q (State.ppStop s n) := by
  unfold State.ppStop
  try dsimp only
  repeat' first
    | with_reducible assumption
    | exact Sub.trans (by decide) hM
    | exact Sub.bit hM (by decide)
    | exact Sub.kind hM (by decide) _
    | (intro _; try dsimp only)
    | with_reducible apply State.ppLeave_kept
    | with_reducible apply Kept.ite
    | with_reducible refine Kept.of_pair (by assumption) ?_
    | split

theorem State.ppClamp_kept {M : Nat} {b : State} {q : List Instr} {s : State} {n : Nat} (hs : Kept M b q s) (hM : Sub 0x200000800000 M) : Kept M b q (State.ppClamp s n) := by
  unfold State.ppClamp
  try dsimp only
  repeat' first
    | with_reducible assumption
    | exact Sub.trans (by decide) hM
    | exact Sub.bit hM (by decide)
    | exact Sub.kind hM (by decide) _
    | (intro _; try dsimp only)
    | with_reducible apply bit_ppPage
    | with_reducible apply State.fs_kept
    | with_reducible apply State.ppGo_kept
    | with_reducible apply State.setPwr_kept
    | with_reducible apply Kept.ite
    | with_reducible refine Kept.of_pair (by assumption) ?_
    | split

theorem presenceChange_kept {M : Nat} {b : State} {q : List Instr} {pitch : Pitch} {pres : Bool} {seat : Bool} {s : State} (hs : Kept M b q s) (hM : Sub 0x200000800808 M) : Kept M b q (presenceChange pitch pres seat s) := by
  unfold presenceChange
  try dsimp only
  repeat' first
    | with_reducible assumption
    | exact Sub.trans (by decide) hM
    | exact Sub.bit hM (by decide)
    | exact Sub.kind hM (by decide) _
    | (intro _; try dsimp only)
    | with_reducible apply bit_ppPage
    | with_reducible apply State.fs_kept
    | with_reducible apply State.ppEnterInsert_kept
    | with_reducible apply State.ppLeave_kept
    | with_reducible apply State.raiseIf_kept
    | with_reducible apply Kept.ite
    | with_reducible refine Kept.of_pair (by assumption) ?_
    | split

theorem execPresenceChange_kept {M : Nat} {b : State} {q : List Instr} {pitch : Pitch} {pres : Bool} {seat : Bool} {s : State} (hs : Kept M b q s) (hM : Sub 0x200000800808 M) {r : State} (e : (execPresenceChange pitch pres seat s) = .next r) : Kept M b q r := by
  unfold execPresenceChange at e
  injection e with e; subst e
  try dsimp only
  repeat' first
    | with_reducible assumption
    | exact Sub.trans (by decide) hM
    | exact Sub.bit hM (by decide)
    | exact Sub.kind hM (by decide) _
    | (intro _; try dsimp only)
    | with_reducible apply presenceChange_kept
    | with_reducible apply Kept.ite
    | with_reducible refine Kept.of_pair (by assumption) ?_
    | split

theorem insertConditionMet_kept {M : Nat} {b : State} {q : List Instr} {pitch : Pitch} {s : State} (hs : Kept M b q s) (hM : Sub 0x200000000000 M) : Kept M b q (insertConditionMet pitch s) := by
  unfold insertConditionMet
  try dsimp only
  repeat' first
    | with_reducible assumption
    | exact Sub.trans (by decide) hM
    | exact Sub.bit hM (by decide)
    | exact Sub.kind hM (by decide) _
    | (intro _; try dsimp only)
    | with_reducible apply bit_ppPage
    | with_reducible apply State.inc_kept
    | with_reducible apply State.ppGo_kept
    | with_reducible apply Kept.ite
    | with_reducible refine Kept.of_pair (by assumption) ?_
    | split

theorem execInsertConditionMet_kept {M : Nat} {b : State} {q : List Instr} {pitch : Pitch} {s : State} (hs : Kept M b q s) (hM : Sub 0x200000000000 M) {r : State} (e : (execInsertConditionMet pitch s) = .next r) : Kept M b q r := by
  unfold execInsertConditionMet at e
  injection e with e; subst e
  try dsimp only
  repeat' first
    | with_reducible assumption
    | exact Sub.trans (by decide) hM
    | exact Sub.bit hM (by decide)
    | exact Sub.kind hM (by decide) _
    | (intro _; try dsimp only)
    | with_reducible apply insertConditionMet_kept
    | with_reducible apply Kept.ite
    | with_reducible refine Kept.of_pair (by assumption) ?_
    | split

theorem State.poleFail_kept {M : Nat} {b : State} {q : List Instr} {s : State} {n : Nat} {cause : Nat} {ev : Nat} (hs : Kept M b q s) (hM : Sub 0x200000800808 M) : Kept M b q (State.poleFail s n cause ev) := by
  unfold State.poleFail
  try dsimp only
  repeat' first
    | with_reducible assumption
    | exact Sub.trans (by decide) hM
    | exact Sub.bit hM (by decide)
    | exact Sub.kind hM (by decide) _
    | (intro _; try dsimp only)
    | with_reducible apply bit_ppPage
    | with_reducible apply State.fs_kept
    | with_reducible apply State.gateOff_kept
    | with_reducible apply State.inc_kept
    | with_reducible apply State.ppGo_kept
    | with_reducible apply State.raise_kept
    | with_reducible apply Kept.ite
    | with_reducible refine Kept.of_pair (by assumption) ?_
    | split

theorem precheckDone_kept {M : Nat} {b : State} {q : List Instr} {pitch : Pitch} {s : State} (hs : Kept M b q s) (hM : Sub 0x200000800808 M) : Kept M b q (precheckDone pitch s) := by
  unfold precheckDone
  try dsimp only
  repeat' first
    | with_reducible assumption
    | exact Sub.trans (by decide) hM
    | exact Sub.bit hM (by decide)
    | exact Sub.kind hM (by decide) _
    | (intro _; try dsimp only)
    | with_reducible apply bit_ppPage
    | with_reducible apply State.fs_kept
    | with_reducible apply State.poleFail_kept
    | with_reducible apply State.ppGo_kept
    | with_reducible apply Kept.ite
    | with_reducible refine Kept.of_pair (by assumption) ?_
    | split

theorem execPrecheckDone_kept {M : Nat} {b : State} {q : List Instr} {pitch : Pitch} {s : State} (hs : Kept M b q s) (hM : Sub 0x200000800808 M) {r : State} (e : (execPrecheckDone pitch s) = .next r) : Kept M b q r := by
  unfold execPrecheckDone at e
  injection e with e; subst e
  try dsimp only
  repeat' first
    | with_reducible assumption
    | exact Sub.trans (by decide) hM
    | exact Sub.bit hM (by decide)
    | exact Sub.kind hM (by decide) _
    | (intro _; try dsimp only)
    | with_reducible apply precheckDone_kept
    | with_reducible apply Kept.ite
    | with_reducible refine Kept.of_pair (by assumption) ?_
    | split

theorem rampReached_kept {M : Nat} {b : State} {q : List Instr} {pitch : Pitch} {s : State} (hs : Kept M b q s) (hM : Sub 0x200000000000 M) : Kept M b q (rampReached pitch s) := by
  unfold rampReached
  try dsimp only
  repeat' first
    | with_reducible assumption
    | exact Sub.trans (by decide) hM
    | exact Sub.bit hM (by decide)
    | exact Sub.kind hM (by decide) _
    | (intro _; try dsimp only)
    | with_reducible apply State.ppGo_kept
    | with_reducible apply Kept.ite
    | with_reducible refine Kept.of_pair (by assumption) ?_
    | split

theorem execRampReached_kept {M : Nat} {b : State} {q : List Instr} {pitch : Pitch} {s : State} (hs : Kept M b q s) (hM : Sub 0x200000000000 M) {r : State} (e : (execRampReached pitch s) = .next r) : Kept M b q r := by
  unfold execRampReached at e
  injection e with e; subst e
  try dsimp only
  repeat' first
    | with_reducible assumption
    | exact Sub.trans (by decide) hM
    | exact Sub.bit hM (by decide)
    | exact Sub.kind hM (by decide) _
    | (intro _; try dsimp only)
    | with_reducible apply rampReached_kept
    | with_reducible apply Kept.ite
    | with_reducible refine Kept.of_pair (by assumption) ?_
    | split

theorem rampTimeout_kept {M : Nat} {b : State} {q : List Instr} {pitch : Pitch} {s : State} (hs : Kept M b q s) (hM : Sub 0x200000800808 M) : Kept M b q (rampTimeout pitch s) := by
  unfold rampTimeout
  try dsimp only
  repeat' first
    | with_reducible assumption
    | exact Sub.trans (by decide) hM
    | exact Sub.bit hM (by decide)
    | exact Sub.kind hM (by decide) _
    | (intro _; try dsimp only)
    | with_reducible apply State.poleFail_kept
    | with_reducible apply Kept.ite
    | with_reducible refine Kept.of_pair (by assumption) ?_
    | split

theorem execRampTimeout_kept {M : Nat} {b : State} {q : List Instr} {pitch : Pitch} {s : State} (hs : Kept M b q s) (hM : Sub 0x200000800808 M) {r : State} (e : (execRampTimeout pitch s) = .next r) : Kept M b q r := by
  unfold execRampTimeout at e
  injection e with e; subst e
  try dsimp only
  repeat' first
    | with_reducible assumption
    | exact Sub.trans (by decide) hM
    | exact Sub.bit hM (by decide)
    | exact Sub.kind hM (by decide) _
    | (intro _; try dsimp only)
    | with_reducible apply rampTimeout_kept
    | with_reducible apply Kept.ite
    | with_reducible refine Kept.of_pair (by assumption) ?_
    | split

theorem enhanceDone_kept {M : Nat} {b : State} {q : List Instr} {pitch : Pitch} {s : State} (hs : Kept M b q s) (hM : Sub 0x200000000000 M) : Kept M b q (enhanceDone pitch s) := by
  unfold enhanceDone
  try dsimp only
  repeat' first
    | with_reducible assumption
    | exact Sub.trans (by decide) hM
    | exact Sub.bit hM (by decide)
    | exact Sub.kind hM (by decide) _
    | (intro _; try dsimp only)
    | with_reducible apply State.ppGo_kept
    | with_reducible apply Kept.ite
    | with_reducible refine Kept.of_pair (by assumption) ?_
    | split

theorem execEnhanceDone_kept {M : Nat} {b : State} {q : List Instr} {pitch : Pitch} {s : State} (hs : Kept M b q s) (hM : Sub 0x200000000000 M) {r : State} (e : (execEnhanceDone pitch s) = .next r) : Kept M b q r := by
  unfold execEnhanceDone at e
  injection e with e; subst e
  try dsimp only
  repeat' first
    | with_reducible assumption
    | exact Sub.trans (by decide) hM
    | exact Sub.bit hM (by decide)
    | exact Sub.kind hM (by decide) _
    | (intro _; try dsimp only)
    | with_reducible apply enhanceDone_kept
    | with_reducible apply Kept.ite
    | with_reducible refine Kept.of_pair (by assumption) ?_
    | split

theorem powerGoodGiven_kept {M : Nat} {b : State} {q : List Instr} {pitch : Pitch} {s : State} (hs : Kept M b q s) (hM : Sub 0x200000000808 M) : Kept M b q (powerGoodGiven pitch s) := by
  unfold powerGoodGiven
  try dsimp only
  repeat' first
    | with_reducible assumption
    | exact Sub.trans (by decide) hM
    | exact Sub.bit hM (by decide)
    | exact Sub.kind hM (by decide) _
    | (intro _; try dsimp only)
    | with_reducible apply bit_ppPage
    | with_reducible apply State.fs_kept
    | with_reducible apply State.raise_kept
    | with_reducible apply Kept.ite
    | with_reducible refine Kept.of_pair (by assumption) ?_
    | split

theorem execPowerGoodGiven_kept {M : Nat} {b : State} {q : List Instr} {pitch : Pitch} {s : State} (hs : Kept M b q s) (hM : Sub 0x200000000808 M) {r : State} (e : (execPowerGoodGiven pitch s) = .next r) : Kept M b q r := by
  unfold execPowerGoodGiven at e
  injection e with e; subst e
  try dsimp only
  repeat' first
    | with_reducible assumption
    | exact Sub.trans (by decide) hM
    | exact Sub.bit hM (by decide)
    | exact Sub.kind hM (by decide) _
    | (intro _; try dsimp only)
    | with_reducible apply powerGoodGiven_kept
    | with_reducible apply Kept.ite
    | with_reducible refine Kept.of_pair (by assumption) ?_
    | split

theorem busWindowFault_kept {M : Nat} {b : State} {q : List Instr} {pitch : Pitch} {s : State} (hs : Kept M b q s) (hM : Sub 0x200000800808 M) : Kept M b q (busWindowFault pitch s) := by
  unfold busWindowFault
  try dsimp only
  repeat' first
    | with_reducible assumption
    | exact Sub.trans (by decide) hM
    | exact Sub.bit hM (by decide)
    | exact Sub.kind hM (by decide) _
    | (intro _; try dsimp only)
    | with_reducible apply bit_ppPage
    | with_reducible apply State.fs_kept
    | with_reducible apply State.gateOff_kept
    | with_reducible apply State.ppEnterInsert_kept
    | with_reducible apply State.raise_kept
    | with_reducible apply Kept.ite
    | with_reducible refine Kept.of_pair (by assumption) ?_
    | split

theorem execBusWindowFault_kept {M : Nat} {b : State} {q : List Instr} {pitch : Pitch} {s : State} (hs : Kept M b q s) (hM : Sub 0x200000800808 M) {r : State} (e : (execBusWindowFault pitch s) = .next r) : Kept M b q r := by
  unfold execBusWindowFault at e
  injection e with e; subst e
  try dsimp only
  repeat' first
    | with_reducible assumption
    | exact Sub.trans (by decide) hM
    | exact Sub.bit hM (by decide)
    | exact Sub.kind hM (by decide) _
    | (intro _; try dsimp only)
    | with_reducible apply busWindowFault_kept
    | with_reducible apply Kept.ite
    | with_reducible refine Kept.of_pair (by assumption) ?_
    | split

theorem seatOpenExtract_kept {M : Nat} {b : State} {q : List Instr} {pitch : Pitch} {s : State} (hs : Kept M b q s) (hM : Sub 0x200000800808 M) : Kept M b q (seatOpenExtract pitch s) := by
  unfold seatOpenExtract
  try dsimp only
  repeat' first
    | with_reducible assumption
    | exact Sub.trans (by decide) hM
    | exact Sub.bit hM (by decide)
    | exact Sub.kind hM (by decide) _
    | (intro _; try dsimp only)
    | with_reducible apply bit_ppPage
    | with_reducible apply State.fs_kept
    | with_reducible apply State.gateOff_kept
    | with_reducible apply State.ppGo_kept
    | with_reducible apply State.raise_kept
    | with_reducible apply Kept.ite
    | with_reducible refine Kept.of_pair (by assumption) ?_
    | split

theorem execSeatOpenExtract_kept {M : Nat} {b : State} {q : List Instr} {pitch : Pitch} {s : State} (hs : Kept M b q s) (hM : Sub 0x200000800808 M) {r : State} (e : (execSeatOpenExtract pitch s) = .next r) : Kept M b q r := by
  unfold execSeatOpenExtract at e
  injection e with e; subst e
  try dsimp only
  repeat' first
    | with_reducible assumption
    | exact Sub.trans (by decide) hM
    | exact Sub.bit hM (by decide)
    | exact Sub.kind hM (by decide) _
    | (intro _; try dsimp only)
    | with_reducible apply seatOpenExtract_kept
    | with_reducible apply Kept.ite
    | with_reducible refine Kept.of_pair (by assumption) ?_
    | split

theorem State.ppRole_kept {M : Nat} {b : State} {q : List Instr} {s : State} {n : Nat} (hs : Kept M b q s) (hM : Sub 0x200000800808 M) : Kept M b q (State.ppRole s n) := by
  unfold State.ppRole
  try dsimp only
  repeat' first
    | with_reducible assumption
    | exact Sub.trans (by decide) hM
    | exact Sub.bit hM (by decide)
    | exact Sub.kind hM (by decide) _
    | (intro _; try dsimp only)
    | with_reducible apply State.ppEnterInsert_kept
    | with_reducible apply State.ppStand_kept
    | with_reducible apply Kept.ite
    | with_reducible refine Kept.of_pair (by assumption) ?_
    | split

theorem roleToSupervisor_kept {M : Nat} {b : State} {q : List Instr} {s : State} (hs : Kept M b q s) (hM : Sub 0x200000800808 M) : Kept M b q (roleToSupervisor s) := by
  unfold roleToSupervisor
  try dsimp only
  repeat' first
    | with_reducible assumption
    | exact Sub.trans (by decide) hM
    | exact Sub.bit hM (by decide)
    | exact Sub.kind hM (by decide) _
    | (intro _; try dsimp only)
    | with_reducible apply State.ppRole_kept
    | with_reducible apply Kept.foldl
    | with_reducible apply Kept.foldlP
    | with_reducible apply Kept.ite
    | with_reducible refine Kept.of_pair (by assumption) ?_
    | split
    | with_reducible refine Kept.set_supv ?_ ?_

theorem execRoleToSupervisor_kept {M : Nat} {b : State} {q : List Instr} {s : State} (hs : Kept M b q s) (hM : Sub 0x200000800808 M) {r : State} (e : (execRoleToSupervisor s) = .next r) : Kept M b q r := by
  unfold execRoleToSupervisor at e
  injection e with e; subst e
  try dsimp only
  repeat' first
    | with_reducible assumption
    | exact Sub.trans (by decide) hM
    | exact Sub.bit hM (by decide)
    | exact Sub.kind hM (by decide) _
    | (intro _; try dsimp only)
    | with_reducible apply roleToSupervisor_kept
    | with_reducible apply Kept.ite
    | with_reducible refine Kept.of_pair (by assumption) ?_
    | split

theorem State.ppTrip_kept {M : Nat} {b : State} {q : List Instr} {s : State} {n : Nat} {cause : Nat} (hs : Kept M b q s) (hM : Sub 0x200000800808 M) : Kept M b q (State.ppTrip s n cause) := by
  unfold State.ppTrip
  try dsimp only
  repeat' first
    | with_reducible assumption
    | exact Sub.trans (by decide) hM
    | exact Sub.bit hM (by decide)
    | exact Sub.kind hM (by decide) _
    | (intro _; try dsimp only)
    | with_reducible apply bit_ppPage
    | with_reducible apply State.fs_kept
    | with_reducible apply State.gateOff_kept
    | with_reducible apply State.inc_kept
    | with_reducible apply State.ppGo_kept
    | with_reducible apply State.raise_kept
    | with_reducible apply Kept.ite
    | with_reducible refine Kept.of_pair (by assumption) ?_
    | split

theorem instantTrip_kept {M : Nat} {b : State} {q : List Instr} {pitch : Pitch} {s : State} (hs : Kept M b q s) (hM : Sub 0x200000800808 M) : Kept M b q (instantTrip pitch s) := by
  unfold instantTrip
  try dsimp only
  repeat' first
    | with_reducible assumption
    | exact Sub.trans (by decide) hM
    | exact Sub.bit hM (by decide)
    | exact Sub.kind hM (by decide) _
    | (intro _; try dsimp only)
    | with_reducible apply State.ppTrip_kept
    | with_reducible apply Kept.ite
    | with_reducible refine Kept.of_pair (by assumption) ?_
    | split

theorem execInstantTrip_kept {M : Nat} {b : State} {q : List Instr} {pitch : Pitch} {s : State} (hs : Kept M b q s) (hM : Sub 0x200000800808 M) {r : State} (e : (execInstantTrip pitch s) = .next r) : Kept M b q r := by
  unfold execInstantTrip at e
  injection e with e; subst e
  try dsimp only
  repeat' first
    | with_reducible assumption
    | exact Sub.trans (by decide) hM
    | exact Sub.bit hM (by decide)
    | exact Sub.kind hM (by decide) _
    | (intro _; try dsimp only)
    | with_reducible apply instantTrip_kept
    | with_reducible apply Kept.ite
    | with_reducible refine Kept.of_pair (by assumption) ?_
    | split

theorem breakerTrip_kept {M : Nat} {b : State} {q : List Instr} {pitch : Pitch} {s : State} (hs : Kept M b q s) (hM : Sub 0x200040800808 M) : Kept M b q (breakerTrip pitch s) := by
  unfold breakerTrip
  try dsimp only
  repeat' first
    | with_reducible assumption
    | exact Sub.trans (by decide) hM
    | exact Sub.bit hM (by decide)
    | exact Sub.kind hM (by decide) _
    | (intro _; try dsimp only)
    | with_reducible apply bit_ppPage
    | with_reducible apply State.fs_kept
    | with_reducible apply State.ppTrip_kept
    | with_reducible apply State.tookFree_kept
    | with_reducible apply Kept.ite
    | with_reducible refine Kept.of_pair (by assumption) ?_
    | split

theorem execBreakerTrip_kept {M : Nat} {b : State} {q : List Instr} {pitch : Pitch} {s : State} (hs : Kept M b q s) (hM : Sub 0x200040800808 M) {r : State} (e : (execBreakerTrip pitch s) = .next r) : Kept M b q r := by
  unfold execBreakerTrip at e
  injection e with e; subst e
  try dsimp only
  repeat' first
    | with_reducible assumption
    | exact Sub.trans (by decide) hM
    | exact Sub.bit hM (by decide)
    | exact Sub.kind hM (by decide) _
    | (intro _; try dsimp only)
    | with_reducible apply breakerTrip_kept
    | with_reducible apply Kept.ite
    | with_reducible refine Kept.of_pair (by assumption) ?_
    | split

theorem coolDone_kept {M : Nat} {b : State} {q : List Instr} {pitch : Pitch} {s : State} (hs : Kept M b q s) (hM : Sub 0x200000800808 M) : Kept M b q (coolDone pitch s) := by
  unfold coolDone
  try dsimp only
  repeat' first
    | with_reducible assumption
    | exact Sub.trans (by decide) hM
    | exact Sub.bit hM (by decide)
    | exact Sub.kind hM (by decide) _
    | (intro _; try dsimp only)
    | with_reducible apply State.ppEnterInsert_kept
    | with_reducible apply Kept.ite
    | with_reducible refine Kept.of_pair (by assumption) ?_
    | split

theorem execCoolDone_kept {M : Nat} {b : State} {q : List Instr} {pitch : Pitch} {s : State} (hs : Kept M b q s) (hM : Sub 0x200000800808 M) {r : State} (e : (execCoolDone pitch s) = .next r) : Kept M b q r := by
  unfold execCoolDone at e
  injection e with e; subst e
  try dsimp only
  repeat' first
    | with_reducible assumption
    | exact Sub.trans (by decide) hM
    | exact Sub.bit hM (by decide)
    | exact Sub.kind hM (by decide) _
    | (intro _; try dsimp only)
    | with_reducible apply coolDone_kept
    | with_reducible apply Kept.ite
    | with_reducible refine Kept.of_pair (by assumption) ?_
    | split

theorem State.ppClearLatch_kept {M : Nat} {b : State} {q : List Instr} {s : State} {n : Nat} (hs : Kept M b q s) (hM : Sub 0x200000800808 M) : Kept M b q (State.ppClearLatch s n) := by
  unfold State.ppClearLatch
  try dsimp only
  repeat' first
    | with_reducible assumption
    | exact Sub.trans (by decide) hM
    | exact Sub.bit hM (by decide)
    | exact Sub.kind hM (by decide) _
    | (intro _; try dsimp only)
    | with_reducible apply bit_ppPage
    | with_reducible apply State.fs_kept
    | with_reducible apply State.ppEnterInsert_kept
    | with_reducible apply Kept.ite
    | with_reducible refine Kept.of_pair (by assumption) ?_
    | split

theorem execClearLatch_kept {M : Nat} {b : State} {q : List Instr} {who : Initiator} {pitch : Pitch} {s : State} (hs : Kept M b q s) (hM : Sub 0x9000081080C M) {r : State} (e : (execClearLatch who pitch s) = .next r) : Kept M b q r := by
  unfold execClearLatch at e
  injection e with e; subst e
  try dsimp only
  repeat' first
    | with_reducible assumption
    | exact Sub.trans (by decide) hM
    | exact Sub.bit hM (by decide)
    | exact Sub.kind hM (by decide) _
    | (intro _; try dsimp only)
    | with_reducible apply bit_ppPage
    | with_reducible apply State.supSend_kept
    | with_reducible apply State.write_kept
    | with_reducible apply Kept.ite
    | with_reducible refine Kept.of_pair (by assumption) ?_
    | split

theorem attemptsClear_kept {M : Nat} {b : State} {q : List Instr} {pitch : Pitch} {s : State} (hs : Kept M b q s) (hM : Sub 0x200000000000 M) : Kept M b q (attemptsClear pitch s) := by
  unfold attemptsClear
  try dsimp only
  repeat' first
    | with_reducible assumption
    | exact Sub.trans (by decide) hM
    | exact Sub.bit hM (by decide)
    | exact Sub.kind hM (by decide) _
    | (intro _; try dsimp only)
    | with_reducible apply bit_ppPage
    | with_reducible apply State.fs_kept
    | with_reducible apply Kept.ite
    | with_reducible refine Kept.of_pair (by assumption) ?_
    | split

theorem execAttemptsClear_kept {M : Nat} {b : State} {q : List Instr} {pitch : Pitch} {s : State} (hs : Kept M b q s) (hM : Sub 0x200000000000 M) {r : State} (e : (execAttemptsClear pitch s) = .next r) : Kept M b q r := by
  unfold execAttemptsClear at e
  injection e with e; subst e
  try dsimp only
  repeat' first
    | with_reducible assumption
    | exact Sub.trans (by decide) hM
    | exact Sub.bit hM (by decide)
    | exact Sub.kind hM (by decide) _
    | (intro _; try dsimp only)
    | with_reducible apply attemptsClear_kept
    | with_reducible apply Kept.ite
    | with_reducible refine Kept.of_pair (by assumption) ?_
    | split

theorem State.rdsCaptured_kept {M : Nat} {b : State} {q : List Instr} {s : State} {n : Nat} {r : Nat} (hs : Kept M b q s) (hM : Sub 0x200040800000 M) : Kept M b q (State.rdsCaptured s n r) := by
  unfold State.rdsCaptured
  try dsimp only
  repeat' first
    | with_reducible assumption
    | exact Sub.trans (by decide) hM
    | exact Sub.bit hM (by decide)
    | exact Sub.kind hM (by decide) _
    | (intro _; try dsimp only)
    | with_reducible apply bit_ppPage
    | with_reducible apply State.fs_kept
    | with_reducible apply State.setPwr_kept
    | with_reducible apply State.tookFree_kept
    | with_reducible apply Kept.ite
    | with_reducible refine Kept.of_pair (by assumption) ?_
    | split

theorem rdsMeasure_kept {M : Nat} {b : State} {q : List Instr} {pitch : Pitch} {s : State} (hs : Kept M b q s) (hM : Sub 0x200040800808 M) : Kept M b q (rdsMeasure pitch s) := by
  unfold rdsMeasure
  try dsimp only
  repeat' first
    | with_reducible assumption
    | exact Sub.trans (by decide) hM
    | exact Sub.bit hM (by decide)
    | exact Sub.kind hM (by decide) _
    | (intro _; try dsimp only)
    | with_reducible apply bit_ppPage
    | with_reducible apply State.fs_kept
    | with_reducible apply State.raiseIf_kept
    | with_reducible apply State.rdsCaptured_kept
    | with_reducible apply State.tookFree_kept
    | with_reducible apply Kept.ite
    | with_reducible refine Kept.of_pair (by assumption) ?_
    | split

theorem execRdsMeasure_kept {M : Nat} {b : State} {q : List Instr} {pitch : Pitch} {s : State} (hs : Kept M b q s) (hM : Sub 0x200040800808 M) {r : State} (e : (execRdsMeasure pitch s) = .next r) : Kept M b q r := by
  unfold execRdsMeasure at e
  injection e with e; subst e
  try dsimp only
  repeat' first
    | with_reducible assumption
    | exact Sub.trans (by decide) hM
    | exact Sub.bit hM (by decide)
    | exact Sub.kind hM (by decide) _
    | (intro _; try dsimp only)
    | with_reducible apply rdsMeasure_kept
    | with_reducible apply Kept.ite
    | with_reducible refine Kept.of_pair (by assumption) ?_
    | split

theorem State.ppCapture_kept {M : Nat} {b : State} {q : List Instr} {s : State} {n : Nat} (hs : Kept M b q s) (hM : Sub 0x800000 M) : Kept M b q (State.ppCapture s n) := by
  unfold State.ppCapture
  try dsimp only
  repeat' first
    | with_reducible assumption
    | exact Sub.trans (by decide) hM
    | exact Sub.bit hM (by decide)
    | exact Sub.kind hM (by decide) _
    | (intro _; try dsimp only)
    | with_reducible apply State.setPwr_kept
    | with_reducible apply Kept.ite
    | with_reducible refine Kept.of_pair (by assumption) ?_
    | split

theorem execRdsCapture_kept {M : Nat} {b : State} {q : List Instr} {who : Initiator} {pitch : Pitch} {s : State} (hs : Kept M b q s) (hM : Sub 0x9000081080C M) {r : State} (e : (execRdsCapture who pitch s) = .next r) : Kept M b q r := by
  unfold execRdsCapture at e
  injection e with e; subst e
  try dsimp only
  repeat' first
    | with_reducible assumption
    | exact Sub.trans (by decide) hM
    | exact Sub.bit hM (by decide)
    | exact Sub.kind hM (by decide) _
    | (intro _; try dsimp only)
    | with_reducible apply bit_ppPage
    | with_reducible apply State.supSend_kept
    | with_reducible apply State.write_kept
    | with_reducible apply Kept.ite
    | with_reducible refine Kept.of_pair (by assumption) ?_
    | split

theorem State.ppClrCnt_kept {M : Nat} {b : State} {q : List Instr} {s : State} {n : Nat} (hs : Kept M b q s) (hM : Sub 0x200000000000 M) : Kept M b q (State.ppClrCnt s n) := by
  unfold State.ppClrCnt
  try dsimp only
  repeat' first
    | with_reducible assumption
    | exact Sub.trans (by decide) hM
    | exact Sub.bit hM (by decide)
    | exact Sub.kind hM (by decide) _
    | (intro _; try dsimp only)
    | with_reducible apply bit_ppPage
    | with_reducible apply State.wr_kept
    | with_reducible apply Kept.ite
    | with_reducible refine Kept.of_pair (by assumption) ?_
    | split

theorem execPpClrCnt_kept {M : Nat} {b : State} {q : List Instr} {who : Initiator} {pitch : Pitch} {s : State} (hs : Kept M b q s) (hM : Sub 0x9000081080C M) {r : State} (e : (execPpClrCnt who pitch s) = .next r) : Kept M b q r := by
  unfold execPpClrCnt at e
  injection e with e; subst e
  try dsimp only
  repeat' first
    | with_reducible assumption
    | exact Sub.trans (by decide) hM
    | exact Sub.bit hM (by decide)
    | exact Sub.kind hM (by decide) _
    | (intro _; try dsimp only)
    | with_reducible apply bit_ppPage
    | with_reducible apply State.supSend_kept
    | with_reducible apply State.write_kept
    | with_reducible apply Kept.ite
    | with_reducible refine Kept.of_pair (by assumption) ?_
    | split

theorem State.ppCtrl_kept {M : Nat} {b : State} {q : List Instr} {s : State} {n : Nat} {v : Word} (hs : Kept M b q s) (hM : Sub 0x200000800808 M) : Kept M b q (State.ppCtrl s n v) := by
  unfold State.ppCtrl
  try dsimp only
  repeat' first
    | with_reducible assumption
    | exact Sub.trans (by decide) hM
    | exact Sub.bit hM (by decide)
    | exact Sub.kind hM (by decide) _
    | (intro _; try dsimp only)
    | with_reducible apply State.ppCapture_kept
    | with_reducible apply State.ppClearLatch_kept
    | with_reducible apply State.ppClrCnt_kept
    | with_reducible apply Kept.ite
    | with_reducible refine Kept.of_pair (by assumption) ?_
    | split

theorem State.showTimer_kept {M : Nat} {b : State} {q : List Instr} {s : State} {n : Nat} (hs : Kept M b q s) (hM : Sub 0x200040000000 M) : Kept M b q (State.showTimer s n) := by
  unfold State.showTimer
  try dsimp only
  repeat' first
    | with_reducible assumption
    | exact Sub.trans (by decide) hM
    | exact Sub.bit hM (by decide)
    | exact Sub.kind hM (by decide) _
    | (intro _; try dsimp only)
    | with_reducible apply bit_ppPage
    | with_reducible apply State.fs_kept
    | with_reducible apply State.tookFree_kept
    | with_reducible apply Kept.ite
    | with_reducible refine Kept.of_pair (by assumption) ?_
    | split

theorem State.insStep_kept {M : Nat} {b : State} {q : List Instr} {s : State} {n : Nat} (hs : Kept M b q s) (hM : Sub 0x800000 M) : Kept M b q (State.insStep s n) := by
  unfold State.insStep
  try dsimp only
  repeat' first
    | with_reducible assumption
    | exact Sub.trans (by decide) hM
    | exact Sub.bit hM (by decide)
    | exact Sub.kind hM (by decide) _
    | (intro _; try dsimp only)
    | with_reducible apply bit_ppPage
    | with_reducible apply State.setPwr_kept
    | with_reducible apply Kept.ite
    | with_reducible refine Kept.of_pair (by assumption) ?_
    | split

theorem State.ppSample_kept {M : Nat} {b : State} {q : List Instr} {s : State} {n : Nat} {code : Nat} {vout : Nat} (hs : Kept M b q s) (hM : Sub 0x200040800808 M) : Kept M b q (State.ppSample s n code vout) := by
  unfold State.ppSample
  try dsimp only
  repeat' first
    | with_reducible assumption
    | exact Sub.trans (by decide) hM
    | exact Sub.bit hM (by decide)
    | exact Sub.kind hM (by decide) _
    | (intro _; try dsimp only)
    | with_reducible apply bit_ppPage
    | with_reducible apply State.fs_kept
    | with_reducible apply State.insStep_kept
    | with_reducible apply State.poleFail_kept
    | with_reducible apply State.setPwr_kept
    | with_reducible apply State.showTimer_kept
    | with_reducible apply Kept.ite
    | with_reducible refine Kept.of_pair (by assumption) ?_
    | split

theorem State.setFeeds_kept {M : Nat} {b : State} {q : List Instr} {s : State} {x : Feeds} (hs : Kept M b q s) (hM : Sub 0x800000 M) : Kept M b q (State.setFeeds s x) := by
  unfold State.setFeeds
  try dsimp only
  repeat' first
    | with_reducible assumption
    | exact Sub.trans (by decide) hM
    | exact Sub.bit hM (by decide)
    | exact Sub.kind hM (by decide) _
    | (intro _; try dsimp only)
    | with_reducible apply Kept.ite
    | with_reducible refine Kept.of_pair (by assumption) ?_
    | split
    | with_reducible refine Kept.set_supv ?_ ?_

theorem State.setFeed_kept {M : Nat} {b : State} {q : List Instr} {s : State} {f : Feed} {x : FeedSt} (hs : Kept M b q s) (hM : Sub 0x800000 M) : Kept M b q (State.setFeed s f x) := by
  unfold State.setFeed
  try dsimp only
  repeat' first
    | with_reducible assumption
    | exact Sub.trans (by decide) hM
    | exact Sub.bit hM (by decide)
    | exact Sub.kind hM (by decide) _
    | (intro _; try dsimp only)
    | with_reducible apply State.setFeeds_kept
    | with_reducible apply Kept.ite
    | with_reducible refine Kept.of_pair (by assumption) ?_
    | split

theorem State.setFdOk_kept {M : Nat} {b : State} {q : List Instr} {s : State} {f : Feed} {v : Bool} (hs : Kept M b q s) (hM : Sub 0x100000000000 M) : Kept M b q (State.setFdOk s f v) := by
  unfold State.setFdOk
  try dsimp only
  repeat' first
    | with_reducible assumption
    | exact Sub.trans (by decide) hM
    | exact Sub.bit hM (by decide)
    | exact Sub.kind hM (by decide) _
    | (intro _; try dsimp only)
    | with_reducible apply State.fs_kept
    | with_reducible apply Kept.ite
    | with_reducible refine Kept.of_pair (by assumption) ?_
    | split

theorem State.setFdOv_kept {M : Nat} {b : State} {q : List Instr} {s : State} {f : Feed} {v : Bool} (hs : Kept M b q s) (hM : Sub 0x100000000000 M) : Kept M b q (State.setFdOv s f v) := by
  unfold State.setFdOv
  try dsimp only
  repeat' first
    | with_reducible assumption
    | exact Sub.trans (by decide) hM
    | exact Sub.bit hM (by decide)
    | exact Sub.kind hM (by decide) _
    | (intro _; try dsimp only)
    | with_reducible apply State.fs_kept
    | with_reducible apply Kept.ite
    | with_reducible refine Kept.of_pair (by assumption) ?_
    | split

theorem State.huUpdate_kept {M : Nat} {b : State} {q : List Instr} {s : State} (hs : Kept M b q s) (hM : Sub 0x100000000000 M) : Kept M b q (State.huUpdate s) := by
  unfold State.huUpdate
  try dsimp only
  repeat' first
    | with_reducible assumption
    | exact Sub.trans (by decide) hM
    | exact Sub.bit hM (by decide)
    | exact Sub.kind hM (by decide) _
    | (intro _; try dsimp only)
    | with_reducible apply State.fs_kept
    | with_reducible apply Kept.ite
    | with_reducible refine Kept.of_pair (by assumption) ?_
    | split

theorem State.noFeed_kept {M : Nat} {b : State} {q : List Instr} {s : State} (hs : Kept M b q s) (hM : Sub 0x100000800808 M) : Kept M b q (State.noFeed s) := by
  unfold State.noFeed
  try dsimp only
  repeat' first
    | with_reducible assumption
    | exact Sub.trans (by decide) hM
    | exact Sub.bit hM (by decide)
    | exact Sub.kind hM (by decide) _
    | (intro _; try dsimp only)
    | with_reducible apply State.fs_kept
    | with_reducible apply State.huUpdate_kept
    | with_reducible apply State.inc_kept
    | with_reducible apply State.raise_kept
    | with_reducible apply State.setFeeds_kept
    | with_reducible apply Kept.ite
    | with_reducible refine Kept.of_pair (by assumption) ?_
    | split

theorem State.reselect_kept {M : Nat} {b : State} {q : List Instr} {s : State} (hs : Kept M b q s) (hM : Sub 0x100000800808 M) : Kept M b q (State.reselect s) := by
  unfold State.reselect
  try dsimp only
  repeat' first
    | with_reducible assumption
    | exact Sub.trans (by decide) hM
    | exact Sub.bit hM (by decide)
    | exact Sub.kind hM (by decide) _
    | (intro _; try dsimp only)
    | with_reducible apply State.fs_kept
    | with_reducible apply State.huUpdate_kept
    | with_reducible apply State.noFeed_kept
    | with_reducible apply State.setFeeds_kept
    | with_reducible apply Kept.ite
    | with_reducible refine Kept.of_pair (by assumption) ?_
    | split

theorem State.fdFollow_kept {M : Nat} {b : State} {q : List Instr} {s : State} {f : Feed} (hs : Kept M b q s) (hM : Sub 0x100000000808 M) : Kept M b q (State.fdFollow s f) := by
  unfold State.fdFollow
  try dsimp only
  repeat' first
    | with_reducible assumption
    | exact Sub.trans (by decide) hM
    | exact Sub.bit hM (by decide)
    | exact Sub.kind hM (by decide) _
    | (intro _; try dsimp only)
    | with_reducible apply State.raiseIf_kept
    | with_reducible apply State.setFdOk_kept
    | with_reducible apply Kept.ite
    | with_reducible refine Kept.of_pair (by assumption) ?_
    | split

theorem feedQualified_kept {M : Nat} {b : State} {q : List Instr} {f : Feed} {s : State} (hs : Kept M b q s) (hM : Sub 0x100000800808 M) : Kept M b q (feedQualified f s) := by
  unfold feedQualified
  try dsimp only
  repeat' first
    | with_reducible assumption
    | exact Sub.trans (by decide) hM
    | exact Sub.bit hM (by decide)
    | exact Sub.kind hM (by decide) _
    | (intro _; try dsimp only)
    | with_reducible apply State.fdFollow_kept
    | with_reducible apply State.reselect_kept
    | with_reducible apply Kept.ite
    | with_reducible refine Kept.of_pair (by assumption) ?_
    | split

theorem execFeedQualified_kept {M : Nat} {b : State} {q : List Instr} {feed : Feed} {s : State} (hs : Kept M b q s) (hM : Sub 0x100000800808 M) {r : State} (e : (execFeedQualified feed s) = .next r) : Kept M b q r := by
  unfold execFeedQualified at e
  injection e with e; subst e
  try dsimp only
  repeat' first
    | with_reducible assumption
    | exact Sub.trans (by decide) hM
    | exact Sub.bit hM (by decide)
    | exact Sub.kind hM (by decide) _
    | (intro _; try dsimp only)
    | with_reducible apply feedQualified_kept
    | with_reducible apply Kept.ite
    | with_reducible refine Kept.of_pair (by assumption) ?_
    | split

theorem feedLost_kept {M : Nat} {b : State} {q : List Instr} {f : Feed} {s : State} (hs : Kept M b q s) (hM : Sub 0x100000800808 M) : Kept M b q (feedLost f s) := by
  unfold feedLost
  try dsimp only
  repeat' first
    | with_reducible assumption
    | exact Sub.trans (by decide) hM
    | exact Sub.bit hM (by decide)
    | exact Sub.kind hM (by decide) _
    | (intro _; try dsimp only)
    | with_reducible apply State.fdFollow_kept
    | with_reducible apply State.reselect_kept
    | with_reducible apply Kept.ite
    | with_reducible refine Kept.of_pair (by assumption) ?_
    | split

theorem execFeedLost_kept {M : Nat} {b : State} {q : List Instr} {feed : Feed} {s : State} (hs : Kept M b q s) (hM : Sub 0x100000800808 M) {r : State} (e : (execFeedLost feed s) = .next r) : Kept M b q r := by
  unfold execFeedLost at e
  injection e with e; subst e
  try dsimp only
  repeat' first
    | with_reducible assumption
    | exact Sub.trans (by decide) hM
    | exact Sub.bit hM (by decide)
    | exact Sub.kind hM (by decide) _
    | (intro _; try dsimp only)
    | with_reducible apply feedLost_kept
    | with_reducible apply Kept.ite
    | with_reducible refine Kept.of_pair (by assumption) ?_
    | split

theorem changeoverDeadEnd_kept {M : Nat} {b : State} {q : List Instr} {s : State} (hs : Kept M b q s) (hM : Sub 0x100000800808 M) : Kept M b q (changeoverDeadEnd s) := by
  unfold changeoverDeadEnd
  try dsimp only
  repeat' first
    | with_reducible assumption
    | exact Sub.trans (by decide) hM
    | exact Sub.bit hM (by decide)
    | exact Sub.kind hM (by decide) _
    | (intro _; try dsimp only)
    | with_reducible apply State.fs_kept
    | with_reducible apply State.huUpdate_kept
    | with_reducible apply State.noFeed_kept
    | with_reducible apply State.setFeeds_kept
    | with_reducible apply Kept.ite
    | with_reducible refine Kept.of_pair (by assumption) ?_
    | split

theorem execChangeoverDeadEnd_kept {M : Nat} {b : State} {q : List Instr} {s : State} (hs : Kept M b q s) (hM : Sub 0x100000800808 M) {r : State} (e : (execChangeoverDeadEnd s) = .next r) : Kept M b q r := by
  unfold execChangeoverDeadEnd at e
  injection e with e; subst e
  try dsimp only
  repeat' first
    | with_reducible assumption
    | exact Sub.trans (by decide) hM
    | exact Sub.bit hM (by decide)
    | exact Sub.kind hM (by decide) _
    | (intro _; try dsimp only)
    | with_reducible apply changeoverDeadEnd_kept
    | with_reducible apply Kept.ite
    | with_reducible refine Kept.of_pair (by assumption) ?_
    | split

theorem changeoverEnd_kept {M : Nat} {b : State} {q : List Instr} {s : State} (hs : Kept M b q s) (hM : Sub 0x100000000808 M) : Kept M b q (changeoverEnd s) := by
  unfold changeoverEnd
  try dsimp only
  repeat' first
    | with_reducible assumption
    | exact Sub.trans (by decide) hM
    | exact Sub.bit hM (by decide)
    | exact Sub.kind hM (by decide) _
    | (intro _; try dsimp only)
    | with_reducible apply State.fs_kept
    | with_reducible apply State.huUpdate_kept
    | with_reducible apply State.inc_kept
    | with_reducible apply State.raise_kept
    | with_reducible apply Kept.ite
    | with_reducible refine Kept.of_pair (by assumption) ?_
    | split

theorem execChangeoverEnd_kept {M : Nat} {b : State} {q : List Instr} {s : State} (hs : Kept M b q s) (hM : Sub 0x100000000808 M) {r : State} (e : (execChangeoverEnd s) = .next r) : Kept M b q r := by
  unfold execChangeoverEnd at e
  injection e with e; subst e
  try dsimp only
  repeat' first
    | with_reducible assumption
    | exact Sub.trans (by decide) hM
    | exact Sub.bit hM (by decide)
    | exact Sub.kind hM (by decide) _
    | (intro _; try dsimp only)
    | with_reducible apply changeoverEnd_kept
    | with_reducible apply Kept.ite
    | with_reducible refine Kept.of_pair (by assumption) ?_
    | split

theorem State.fdClr_kept {M : Nat} {b : State} {q : List Instr} {s : State} (hs : Kept M b q s) (hM : Sub 0x100000000000 M) : Kept M b q (State.fdClr s) := by
  unfold State.fdClr
  try dsimp only
  repeat' first
    | with_reducible assumption
    | exact Sub.trans (by decide) hM
    | exact Sub.bit hM (by decide)
    | exact Sub.kind hM (by decide) _
    | (intro _; try dsimp only)
    | with_reducible apply State.wr_kept
    | with_reducible apply Kept.ite
    | with_reducible refine Kept.of_pair (by assumption) ?_
    | split

theorem execFdClrCnt_kept {M : Nat} {b : State} {q : List Instr} {who : Initiator} {s : State} (hs : Kept M b q s) (hM : Sub 0x9000081080C M) {r : State} (e : (execFdClrCnt who s) = .next r) : Kept M b q r := by
  unfold execFdClrCnt at e
  injection e with e; subst e
  try dsimp only
  repeat' first
    | with_reducible assumption
    | exact Sub.trans (by decide) hM
    | exact Sub.bit hM (by decide)
    | exact Sub.kind hM (by decide) _
    | (intro _; try dsimp only)
    | with_reducible apply State.supSend_kept
    | with_reducible apply State.write_kept
    | with_reducible apply Kept.ite
    | with_reducible refine Kept.of_pair (by assumption) ?_
    | split

theorem State.fdSample_kept {M : Nat} {b : State} {q : List Instr} {s : State} {f : Feed} {v : Nat} (hs : Kept M b q s) (hM : Sub 0x100000800000 M) : Kept M b q (State.fdSample s f v) := by
  unfold State.fdSample
  try dsimp only
  repeat' first
    | with_reducible assumption
    | exact Sub.trans (by decide) hM
    | exact Sub.bit hM (by decide)
    | exact Sub.kind hM (by decide) _
    | (intro _; try dsimp only)
    | with_reducible apply State.setFdOv_kept
    | with_reducible apply State.setFeed_kept
    | with_reducible apply Kept.ite
    | with_reducible refine Kept.of_pair (by assumption) ?_
    | split

theorem State.huSample_kept {M : Nat} {b : State} {q : List Instr} {s : State} {hu : Nat} (hs : Kept M b q s) (hM : Sub 0x100000000808 M) : Kept M b q (State.huSample s hu) := by
  unfold State.huSample
  try dsimp only
  repeat' first
    | with_reducible assumption
    | exact Sub.trans (by decide) hM
    | exact Sub.bit hM (by decide)
    | exact Sub.kind hM (by decide) _
    | (intro _; try dsimp only)
    | with_reducible apply State.fs_kept
    | with_reducible apply State.raiseIf_kept
    | with_reducible apply Kept.ite
    | with_reducible refine Kept.of_pair (by assumption) ?_
    | split

theorem supervisorSample_kept {M : Nat} {b : State} {q : List Instr} {x : SupSample} {s : State} (hs : Kept M b q s) (hM : Sub 0x300040800808 M) : Kept M b q (supervisorSample x s) := by
  unfold supervisorSample
  try dsimp only
  repeat' first
    | with_reducible assumption
    | exact Sub.trans (by decide) hM
    | exact Sub.bit hM (by decide)
    | exact Sub.kind hM (by decide) _
    | (intro _; try dsimp only)
    | with_reducible apply State.fdSample_kept
    | with_reducible apply State.fs_kept
    | with_reducible apply State.huSample_kept
    | with_reducible apply State.ppSample_kept
    | with_reducible apply State.setFeeds_kept
    | with_reducible apply Kept.foldl
    | with_reducible apply Kept.foldlP
    | with_reducible apply Kept.ite
    | with_reducible refine Kept.of_pair (by assumption) ?_
    | split

theorem execSupervisorSample_kept {M : Nat} {b : State} {q : List Instr} {smp : SupSample} {s : State} (hs : Kept M b q s) (hM : Sub 0x300040800808 M) {r : State} (e : (execSupervisorSample smp s) = .next r) : Kept M b q r := by
  unfold execSupervisorSample at e
  injection e with e; subst e
  try dsimp only
  repeat' first
    | with_reducible assumption
    | exact Sub.trans (by decide) hM
    | exact Sub.bit hM (by decide)
    | exact Sub.kind hM (by decide) _
    | (intro _; try dsimp only)
    | with_reducible apply supervisorSample_kept
    | with_reducible apply Kept.ite
    | with_reducible refine Kept.of_pair (by assumption) ?_
    | split

theorem disturbanceEnd_kept {M : Nat} {b : State} {q : List Instr} {f : Feed} {s : State} (hs : Kept M b q s) (hM : Sub 0x100140800828 M) : Kept M b q (disturbanceEnd f s) := by
  unfold disturbanceEnd
  try dsimp only
  repeat' first
    | with_reducible assumption
    | exact Sub.trans (by decide) hM
    | exact Sub.bit hM (by decide)
    | exact Sub.kind hM (by decide) _
    | (intro _; try dsimp only)
    | with_reducible apply State.raise_kept
    | with_reducible apply State.setFeed_kept
    | with_reducible apply State.wr_kept
    | with_reducible apply Kept.ite
    | with_reducible refine Kept.of_pair (by assumption) ?_
    | split
    | with_reducible refine Kept.set_fresh ?_ ?_
    | with_reducible refine Kept.set_gs ?_ ?_
    | (refine Kept.upd (s := ?_) ?_ ?_ ?_ ?_ ?_ ?_ ?_ ?_ ?_ ?_ ?_ ?_ ?_ ?_ ?_ ?_ ?_ ?_ ?_ ?_ ?_ ?_ ?_ ?_ ?_ ?_ ?_ ?_ ?_ ?_ ?_ <;> first | rfl | exact Or.inl rfl | exact Or.inr (hM.bit (by decide)) | skip)

theorem execDisturbanceEnd_kept {M : Nat} {b : State} {q : List Instr} {feed : Feed} {s : State} (hs : Kept M b q s) (hM : Sub 0x100140800828 M) {r : State} (e : (execDisturbanceEnd feed s) = .next r) : Kept M b q r := by
  unfold execDisturbanceEnd at e
  injection e with e; subst e
  try dsimp only
  repeat' first
    | with_reducible assumption
    | exact Sub.trans (by decide) hM
    | exact Sub.bit hM (by decide)
    | exact Sub.kind hM (by decide) _
    | (intro _; try dsimp only)
    | with_reducible apply disturbanceEnd_kept
    | with_reducible apply Kept.ite
    | with_reducible refine Kept.of_pair (by assumption) ?_
    | split

theorem distRead_kept {M : Nat} {b : State} {q : List Instr} {i : Nat} {s : State} (hs : Kept M b q s) (hM : Sub 0x20 M) : Kept M b q (distRead i s).1 := by
  unfold distRead
  try dsimp only
  repeat' first
    | with_reducible assumption
    | exact Sub.trans (by decide) hM
    | exact Sub.bit hM (by decide)
    | exact Sub.kind hM (by decide) _
    | (intro _; try dsimp only)
    | with_reducible apply Kept.ite
    | with_reducible refine Kept.of_pair (by assumption) ?_
    | split
    | with_reducible refine Kept.set_gs ?_ ?_

theorem execDisturbEntryRead_kept {M : Nat} {b : State} {q : List Instr} {who : Initiator} {entry : Fin 64} {s : State} (hs : Kept M b q s) (hM : Sub 0x1000001082C M) {r : State} (e : (execDisturbEntryRead who entry s) = .next r) : Kept M b q r := by
  unfold execDisturbEntryRead at e
  injection e with e; subst e
  try dsimp only
  repeat' first
    | with_reducible assumption
    | exact Sub.trans (by decide) hM
    | exact Sub.bit hM (by decide)
    | exact Sub.kind hM (by decide) _
    | (intro _; try dsimp only)
    | with_reducible apply distRead_kept
    | with_reducible apply State.read_kept
    | with_reducible apply Kept.ite
    | with_reducible refine Kept.of_pair (by assumption) ?_
    | split

theorem State.ppCommitted_kept {M : Nat} {b : State} {q : List Instr} {s : State} {n : Nat} (hs : Kept M b q s) (hM : Sub 0x200000800808 M) : Kept M b q (State.ppCommitted s n) := by
  unfold State.ppCommitted
  try dsimp only
  repeat' first
    | with_reducible assumption
    | exact Sub.trans (by decide) hM
    | exact Sub.bit hM (by decide)
    | exact Sub.kind hM (by decide) _
    | (intro _; try dsimp only)
    | with_reducible apply bit_ppPage
    | with_reducible apply State.ppRole_kept
    | with_reducible apply State.ppStop_kept
    | with_reducible apply State.setPwr_kept
    | with_reducible apply Kept.ite
    | with_reducible refine Kept.of_pair (by assumption) ?_
    | split

theorem State.fdCommitted_kept {M : Nat} {b : State} {q : List Instr} {s : State} (hs : Kept M b q s) (hM : Sub 0x100000800808 M) : Kept M b q (State.fdCommitted s) := by
  unfold State.fdCommitted
  try dsimp only
  repeat' first
    | with_reducible assumption
    | exact Sub.trans (by decide) hM
    | exact Sub.bit hM (by decide)
    | exact Sub.kind hM (by decide) _
    | (intro _; try dsimp only)
    | with_reducible apply State.reselect_kept
    | with_reducible apply State.setFeeds_kept
    | with_reducible apply Kept.ite
    | with_reducible refine Kept.of_pair (by assumption) ?_
    | split

end Sys2Proof.Machine
end

