-- ==== Sys2Proof/Laws/KeptReply.lean ====
section
/-! SUPPORT. What the functions of Machine/Reply.lean keep (Laws/Kept.lean). -/
namespace Sys2Proof.Machine

theorem State.complete_kept {M : Nat} {b : State} {q : List Instr} {s : State} {f : Frame} {rsp : Nat} {take : Bool} {payload : List Byte} (hs : Kept M b q s) (hM : Sub 0x800 M) : Kept M b q (State.complete s f rsp take payload) := by
  unfold State.complete
  try dsimp only
  repeat' first
    | with_reducible assumption
    | exact Sub.trans (by decide) hM
    | exact Sub.bit hM (by decide)
    | exact Sub.kind hM (by decide) _
    | (intro _; try dsimp only)
    | with_reducible apply State.originate_kept
    | with_reducible apply Kept.ite
    | with_reducible refine Kept.of_pair (by assumption) ?_
    | split

theorem State.seqNote_kept {M : Nat} {b : State} {q : List Instr} {s : State} {src : Nat} {w : Nat} {wseq : Nat} {sync : Bool} (hs : Kept M b q s) (hM : Sub 0x1000000 M) : Kept M b q (State.seqNote s src w wseq sync) := by
  unfold State.seqNote
  try dsimp only
  repeat' first
    | with_reducible assumption
    | exact Sub.trans (by decide) hM
    | exact Sub.bit hM (by decide)
    | exact Sub.kind hM (by decide) _
    | (intro _; try dsimp only)
    | with_reducible apply Kept.ite
    | with_reducible refine Kept.of_pair (by assumption) ?_
    | split
    | with_reducible refine Kept.set_br ?_ ?_

theorem State.reqDone_kept {M : Nat} {b : State} {q : List Instr} {s : State} {f : Frame} {rsp : Nat} {take : Bool} {data : List Byte} (hs : Kept M b q s) (hM : Sub 0x1000800 M) : Kept M b q (State.reqDone s f rsp take data) := by
  unfold State.reqDone
  try dsimp only
  repeat' first
    | with_reducible assumption
    | exact Sub.trans (by decide) hM
    | exact Sub.bit hM (by decide)
    | exact Sub.kind hM (by decide) _
    | (intro _; try dsimp only)
    | with_reducible apply State.complete_kept
    | with_reducible apply State.originate_kept
    | with_reducible apply State.seqNote_kept
    | with_reducible apply Kept.ite
    | with_reducible refine Kept.of_pair (by assumption) ?_
    | split
    | with_reducible refine Kept.set_br ?_ ?_

theorem State.accessEnds_kept {M : Nat} {b : State} {q : List Instr} {s : State} {who : Initiator} {a : Option Frame} (hs : Kept M b q s) (hM : Sub 0x7000804 M) : Kept M b q (State.accessEnds s who a) := by
  unfold State.accessEnds
  try dsimp only
  repeat' first
    | with_reducible assumption
    | exact Sub.trans (by decide) hM
    | exact Sub.bit hM (by decide)
    | exact Sub.kind hM (by decide) _
    | (intro _; try dsimp only)
    | with_reducible apply State.answer_kept
    | with_reducible apply State.reqDone_kept
    | with_reducible apply Kept.ite
    | with_reducible refine Kept.of_pair (by assumption) ?_
    | split
    | with_reducible refine Kept.set_host ?_ ?_
    | with_reducible refine Kept.set_spi ?_ ?_
    | (refine Kept.upd (s := ?_) ?_ ?_ ?_ ?_ ?_ ?_ ?_ ?_ ?_ ?_ ?_ ?_ ?_ ?_ ?_ ?_ ?_ ?_ ?_ ?_ ?_ ?_ ?_ ?_ ?_ ?_ ?_ ?_ ?_ ?_ ?_ <;> first | rfl | exact Or.inl rfl | exact Or.inr (hM.bit (by decide)) | skip)

end Sys2Proof.Machine
end

