-- ==== Sys2Proof/Laws/KeptSlots.lean ====
section
/-! SUPPORT. What the functions of Machine/Slots.lean keep (Laws/Kept.lean). -/
namespace Sys2Proof.Machine

theorem State.setChunk_kept {M : Nat} {b : State} {q : List Instr} {s : State} {c : Nat} {v : Bool} (hs : Kept M b q s) (hM : Sub 0x200 M) : Kept M b q (State.setChunk s c v) := by
  unfold State.setChunk
  try dsimp only
  repeat' first
    | with_reducible assumption
    | exact Sub.trans (by decide) hM
    | exact Sub.bit hM (by decide)
    | exact Sub.kind hM (by decide) _
    | (intro _; try dsimp only)
    | with_reducible apply State.mwr_kept
    | with_reducible apply Kept.ite
    | with_reducible refine Kept.of_pair (by assumption) ?_
    | split

theorem State.burnFloor_kept {M : Nat} {b : State} {q : List Instr} {s : State} {x1 : Nat} (hs : Kept M b q s) (hM : Sub 0x20 M) : Kept M b q (State.burnFloor s x1) := by
  unfold State.burnFloor
  try dsimp only
  repeat' first
    | with_reducible assumption
    | exact Sub.trans (by decide) hM
    | exact Sub.bit hM (by decide)
    | exact Sub.kind hM (by decide) _
    | (intro _; try dsimp only)
    | with_reducible apply Kept.ite
    | with_reducible refine Kept.of_pair (by assumption) ?_
    | split
    | with_reducible refine Kept.set_gs ?_ ?_

theorem State.raiseFloors_kept {M : Nat} {b : State} {q : List Instr} {s : State} {bad : Option Nat} (hs : Kept M b q s) (hM : Sub 0x40000020000828 M) : Kept M b q (State.raiseFloors s bad) := by
  unfold State.raiseFloors
  try dsimp only
  repeat' first
    | with_reducible assumption
    | exact Sub.trans (by decide) hM
    | exact Sub.bit hM (by decide)
    | exact Sub.kind hM (by decide) _
    | (intro _; try dsimp only)
    | with_reducible apply State.burnFloor_kept
    | with_reducible apply State.raise_kept
    | with_reducible apply Kept.foldl
    | with_reducible apply Kept.foldlP
    | with_reducible apply Kept.ite
    | with_reducible refine Kept.of_pair (by assumption) ?_
    | split
    | with_reducible refine Kept.set_up ?_ ?_

theorem State.retryFloors_kept {M : Nat} {b : State} {q : List Instr} {s : State} (hs : Kept M b q s) (hM : Sub 0x40000060000828 M) : Kept M b q (State.retryFloors s) := by
  unfold State.retryFloors
  try dsimp only
  repeat' first
    | with_reducible assumption
    | exact Sub.trans (by decide) hM
    | exact Sub.bit hM (by decide)
    | exact Sub.kind hM (by decide) _
    | (intro _; try dsimp only)
    | with_reducible apply State.raiseFloors_kept
    | with_reducible apply State.tookFree_kept
    | with_reducible apply Kept.ite
    | with_reducible refine Kept.of_pair (by assumption) ?_
    | split

theorem State.setUpState_kept {M : Nat} {b : State} {q : List Instr} {s : State} {v : Nat} (hs : Kept M b q s) (hM : Sub 0x40000000000000 M) : Kept M b q (State.setUpState s v) := by
  unfold State.setUpState
  try dsimp only
  repeat' first
    | with_reducible assumption
    | exact Sub.trans (by decide) hM
    | exact Sub.bit hM (by decide)
    | exact Sub.kind hM (by decide) _
    | (intro _; try dsimp only)
    | with_reducible apply State.fs_kept
    | with_reducible apply Kept.ite
    | with_reducible refine Kept.of_pair (by assumption) ?_
    | split

theorem State.disarmed_kept {M : Nat} {b : State} {q : List Instr} {s : State} (hs : Kept M b q s) (hM : Sub 0x40000020000808 M) : Kept M b q (State.disarmed s) := by
  unfold State.disarmed
  try dsimp only
  repeat' first
    | with_reducible assumption
    | exact Sub.trans (by decide) hM
    | exact Sub.bit hM (by decide)
    | exact Sub.kind hM (by decide) _
    | (intro _; try dsimp only)
    | with_reducible apply State.raise_kept
    | with_reducible apply State.setUpState_kept
    | with_reducible apply Kept.ite
    | with_reducible refine Kept.of_pair (by assumption) ?_
    | split
    | with_reducible refine Kept.set_up ?_ ?_

end Sys2Proof.Machine
end

