-- ==== Sys2Proof/Laws/KeptBlockReset.lean ====
section
/-! SUPPORT. What the functions of Machine/BlockReset.lean keep (Laws/Kept.lean). -/
namespace Sys2Proof.Machine

theorem State.setIsl_kept {M : Nat} {b : State} {q : List Instr} {s : State} {i : Nat} {x : Isl} (hs : Kept M b q s) (hM : Sub 0x40 M) : Kept M b q (State.setIsl s i x) := by
  unfold State.setIsl
  try dsimp only
  repeat' first
    | with_reducible assumption
    | exact Sub.trans (by decide) hM
    | exact Sub.bit hM (by decide)
    | exact Sub.kind hM (by decide) _
    | (intro _; try dsimp only)
    | with_reducible apply Kept.ite
    | with_reducible refine Kept.of_pair (by assumption) ?_
    | split
    | with_reducible refine Kept.set_isl ?_ ?_

theorem State.headReset_kept {M : Nat} {b : State} {q : List Instr} {s : State} {p : Nat} (hs : Kept M b q s) (hM : Sub 0x2 M) (hp1 : M.testBit (kindBit (kindOf p)) = true) : Kept M b q (State.headReset s p) := by
  unfold State.headReset
  try dsimp only
  repeat' first
    | with_reducible assumption
    | exact Sub.trans (by decide) hM
    | exact Sub.bit hM (by decide)
    | exact Sub.kind hM (by decide) _
    | (intro _; try dsimp only)
    | with_reducible apply State.endCommit_kept
    | with_reducible apply State.fs_kept
    | with_reducible apply State.wr_kept
    | with_reducible apply Kept.ite
    | with_reducible refine Kept.of_pair (by assumption) ?_
    | split
    | with_reducible refine Kept.set_stopping ?_ ?_

theorem State.regsReset_kept {M : Nat} {b : State} {q : List Instr} {s : State} {p : Nat} {keep : Nat → Bool} (hs : Kept M b q s) (hM : Sub 0x1 M) (hp1 : M.testBit (kindBit (kindOf p)) = true) : Kept M b q (State.regsReset s p keep) := by
  exact ⟨hs.pending, Map.wf_drop (fun k => inPage p 0x040 k && !keep (k % 4096)) hs.regs, hs.mram, hs.sp, hs.lc, fun p' o' hf => by
    rw [← hs.rd p' o' hf]
    simp only [State.rd, State.regsReset]
    refine rd_drop _ _ _ _ ?_
    simp only [inPage, regKey]
    by_cases e : p' = p
    · subst e; exact false_of hf hp1
    · have : (p' * 4096 + o' % 4096) / 4096 = p' := by omega
      simp [this, e], fun f hf => by cases f <;> first | exact hs.part _ hf | exact false_of hf (hM.bit (by decide))⟩

theorem State.portReset_kept {M : Nat} {b : State} {q : List Instr} {s : State} {p : LanePort} (hs : Kept M b q s) (hM : Sub 0x86800003809 M) : Kept M b q (State.portReset s p) := by
  unfold State.portReset
  try dsimp only
  repeat' first
    | with_reducible assumption
    | exact Sub.trans (by decide) hM
    | exact Sub.bit hM (by decide)
    | exact Sub.kind hM (by decide) _
    | (intro _; try dsimp only)
    | with_reducible apply bit_ringPage
    | with_reducible apply bit_lanePage
    | with_reducible apply State.flushPortReset_kept
    | with_reducible apply State.regsReset_kept
    | with_reducible apply State.setCr_kept
    | with_reducible apply State.setPort_kept
    | with_reducible apply Kept.foldl
    | with_reducible apply Kept.foldlP
    | with_reducible apply Kept.ite
    | with_reducible refine Kept.of_pair (by assumption) ?_
    | split

theorem State.ringReset_kept {M : Nat} {b : State} {q : List Instr} {s : State} {p : RingPort} (hs : Kept M b q s) (hM : Sub 0x86800403809 M) : Kept M b q (State.ringReset s p) := by
  unfold State.ringReset
  try dsimp only
  repeat' first
    | with_reducible assumption
    | exact Sub.trans (by decide) hM
    | exact Sub.bit hM (by decide)
    | exact Sub.kind hM (by decide) _
    | (intro _; try dsimp only)
    | with_reducible apply bit_ringPage
    | with_reducible apply bit_lanePage
    | with_reducible apply State.fs_kept
    | with_reducible apply State.portReset_kept
    | with_reducible apply State.twinWatch_kept
    | with_reducible apply State.wr_kept
    | with_reducible apply State.wrap_kept
    | with_reducible apply Kept.ite
    | with_reducible refine Kept.of_pair (by assumption) ?_
    | split

theorem State.chansReset_kept {M : Nat} {b : State} {q : List Instr} {s : State} {n : Nat} (hs : Kept M b q s) (hM : Sub 0x40000 M) : Kept M b q (State.chansReset s n) := by
  unfold State.chansReset
  try dsimp only
  repeat' first
    | with_reducible assumption
    | exact Sub.trans (by decide) hM
    | exact Sub.bit hM (by decide)
    | exact Sub.kind hM (by decide) _
    | (intro _; try dsimp only)
    | with_reducible apply State.setChan_kept
    | with_reducible apply State.stopOut_kept
    | with_reducible apply Kept.foldl
    | with_reducible apply Kept.foldlP
    | with_reducible apply Kept.ite
    | with_reducible refine Kept.of_pair (by assumption) ?_
    | split

theorem State.heldTimeout_kept {M : Nat} {b : State} {q : List Instr} {s : State} {x1 : Holder} (hs : Kept M b q s) (hM : Sub 0x6000004 M) : Kept M b q (State.heldTimeout s x1) := by
  unfold State.heldTimeout
  try dsimp only
  repeat' first
    | with_reducible assumption
    | exact Sub.trans (by decide) hM
    | exact Sub.bit hM (by decide)
    | exact Sub.kind hM (by decide) _
    | (intro _; try dsimp only)
    | with_reducible apply State.access_kept
    | with_reducible apply State.answer_kept
    | with_reducible apply Kept.ite
    | with_reducible refine Kept.of_pair (by assumption) ?_
    | split
    | with_reducible refine Kept.set_host ?_ ?_
    | with_reducible refine Kept.set_spi ?_ ?_
    | (refine Kept.upd (s := ?_) ?_ ?_ ?_ ?_ ?_ ?_ ?_ ?_ ?_ ?_ ?_ ?_ ?_ ?_ ?_ ?_ ?_ ?_ ?_ ?_ ?_ ?_ ?_ ?_ ?_ ?_ ?_ ?_ ?_ ?_ ?_ <;> first | rfl | exact Or.inl rfl | exact Or.inr (hM.bit (by decide)) | skip)

theorem State.brReset_kept {M : Nat} {b : State} {q : List Instr} {s : State} (hs : Kept M b q s) (hM : Sub 0x7014004 M) : Kept M b q (State.brReset s) := by
  unfold State.brReset
  try dsimp only
  repeat' first
    | with_reducible assumption
    | exact Sub.trans (by decide) hM
    | exact Sub.bit hM (by decide)
    | exact Sub.kind hM (by decide) _
    | (intro _; try dsimp only)
    | with_reducible apply State.access_kept
    | with_reducible apply State.heldTimeout_kept
    | with_reducible apply Kept.foldl
    | with_reducible apply Kept.foldlP
    | with_reducible apply Kept.ite
    | with_reducible refine Kept.of_pair (by assumption) ?_
    | split
    | with_reducible refine Kept.set_br ?_ ?_
    | with_reducible refine Kept.set_mem ?_ ?_
    | with_reducible refine Kept.set_scan ?_ ?_
    | (refine Kept.upd (s := ?_) ?_ ?_ ?_ ?_ ?_ ?_ ?_ ?_ ?_ ?_ ?_ ?_ ?_ ?_ ?_ ?_ ?_ ?_ ?_ ?_ ?_ ?_ ?_ ?_ ?_ ?_ ?_ ?_ ?_ ?_ ?_ <;> first | rfl | exact Or.inl rfl | exact Or.inr (hM.bit (by decide)) | skip)

theorem State.waitsEnd_kept {M : Nat} {b : State} {q : List Instr} {s : State} (hs : Kept M b q s) (hM : Sub 0x7010804 M) : Kept M b q (State.waitsEnd s) := by
  unfold State.waitsEnd
  try dsimp only
  repeat' first
    | with_reducible assumption
    | exact Sub.trans (by decide) hM
    | exact Sub.bit hM (by decide)
    | exact Sub.kind hM (by decide) _
    | (intro _; try dsimp only)
    | with_reducible apply State.accessEnds_kept
    | with_reducible apply Kept.foldl
    | with_reducible apply Kept.foldlP
    | with_reducible apply Kept.ite
    | with_reducible refine Kept.of_pair (by assumption) ?_
    | split
    | with_reducible refine Kept.set_scan ?_ ?_

theorem State.spHeldEnd_kept {M : Nat} {b : State} {q : List Instr} {s : State} (hs : Kept M b q s) (hM : Sub 0x7004804 M) : Kept M b q (State.spHeldEnd s) := by
  unfold State.spHeldEnd
  try dsimp only
  repeat' first
    | with_reducible assumption
    | exact Sub.trans (by decide) hM
    | exact Sub.bit hM (by decide)
    | exact Sub.kind hM (by decide) _
    | (intro _; try dsimp only)
    | with_reducible apply State.accessEnds_kept
    | with_reducible apply Kept.foldl
    | with_reducible apply Kept.foldlP
    | with_reducible apply Kept.ite
    | with_reducible refine Kept.of_pair (by assumption) ?_
    | split
    | with_reducible refine Kept.set_mem ?_ ?_

theorem State.upShow_kept {M : Nat} {b : State} {q : List Instr} {s : State} (hs : Kept M b q s) (hM : Sub 0x40000000000000 M) : Kept M b q (State.upShow s) := by
  unfold State.upShow
  try dsimp only
  repeat' first
    | with_reducible assumption
    | exact Sub.trans (by decide) hM
    | exact Sub.bit hM (by decide)
    | exact Sub.kind hM (by decide) _
    | (intro _; try dsimp only)
    | with_reducible apply State.fs_kept
    | with_reducible apply State.wr_kept
    | with_reducible apply Kept.ite
    | with_reducible refine Kept.of_pair (by assumption) ?_
    | split

theorem State.upReset_kept {M : Nat} {b : State} {q : List Instr} {s : State} (hs : Kept M b q s) (hM : Sub 0x40000020000000 M) : Kept M b q (State.upReset s) := by
  unfold State.upReset
  try dsimp only
  repeat' first
    | with_reducible assumption
    | exact Sub.trans (by decide) hM
    | exact Sub.bit hM (by decide)
    | exact Sub.kind hM (by decide) _
    | (intro _; try dsimp only)
    | with_reducible apply State.upShow_kept
    | with_reducible apply Kept.ite
    | with_reducible refine Kept.of_pair (by assumption) ?_
    | split
    | with_reducible refine Kept.set_up ?_ ?_

theorem State.supReset_kept {M : Nat} {b : State} {q : List Instr} {s : State} {p : Nat} (hs : Kept M b q s) (hM : Sub 0x800001 M) (hp1 : M.testBit (kindBit (kindOf p)) = true) : Kept M b q (State.supReset s p) := by
  unfold State.supReset
  try dsimp only
  repeat' first
    | with_reducible assumption
    | exact Sub.trans (by decide) hM
    | exact Sub.bit hM (by decide)
    | exact Sub.kind hM (by decide) _
    | (intro _; try dsimp only)
    | with_reducible apply State.regsReset_kept
    | with_reducible apply State.setFeeds_kept
    | with_reducible apply State.setPwr_kept
    | with_reducible apply Kept.ite
    | with_reducible refine Kept.of_pair (by assumption) ?_
    | split

theorem State.smFall_kept {M : Nat} {b : State} {q : List Instr} {s : State} (hs : Kept M b q s) (hM : Sub 0x2000000000808 M) : Kept M b q (State.smFall s) := by
  unfold State.smFall
  refine Kept.foldlM hs fun t m hm h => ?_
  have hk : kindOf m = some .sm := by
    revert m; decide
  exact Kept.ite (State.setState_kept h (Sub.trans (by decide) hM) (by rw [hk]; exact hM.bit (by decide))) h

theorem State.smReset_kept {M : Nat} {b : State} {q : List Instr} {s : State} {p : Nat} (hs : Kept M b q s) (hM : Sub 0x1000000040001 M) (hp1 : M.testBit (kindBit (kindOf p)) = true) : Kept M b q (State.smReset s p) := by
  unfold State.smReset
  try dsimp only
  repeat' first
    | with_reducible assumption
    | exact Sub.trans (by decide) hM
    | exact Sub.bit hM (by decide)
    | exact Sub.kind hM (by decide) _
    | (intro _; try dsimp only)
    | with_reducible apply State.regsReset_kept
    | with_reducible apply State.ttInit_kept
    | with_reducible apply Kept.ite
    | with_reducible refine Kept.of_pair (by assumption) ?_
    | split

theorem State.insideReset_kept {M : Nat} {b : State} {q : List Instr} {s : State} {p : Nat} (hs : Kept M b q s) (hM : Sub 0x4B08E83FC7F82D M) (hp1 : M.testBit (kindBit (kindOf p)) = true) : Kept M b q (State.insideReset s p) := by
  unfold State.insideReset
  try dsimp only
  repeat' first
    | with_reducible assumption
    | exact Sub.trans (by decide) hM
    | exact Sub.bit hM (by decide)
    | exact Sub.kind hM (by decide) _
    | (intro _; try dsimp only)
    | with_reducible apply bit_ringPage
    | with_reducible apply bit_lanePage
    | with_reducible apply State.brReset_kept
    | with_reducible apply State.chansReset_kept
    | with_reducible apply State.clGaps_kept
    | with_reducible apply State.coreDiscard_kept
    | with_reducible apply State.disarmed_kept
    | with_reducible apply State.flushPortReset_kept
    | with_reducible apply State.fs_kept
    | with_reducible apply State.memReset_kept
    | with_reducible apply State.portLost_kept
    | with_reducible apply State.portReset_kept
    | with_reducible apply State.queuesClr_kept
    | with_reducible apply State.regsReset_kept
    | with_reducible apply State.ringReset_kept
    | with_reducible apply State.setCard_kept
    | with_reducible apply State.setChan_kept
    | with_reducible apply State.smFall_kept
    | with_reducible apply State.smReset_kept
    | with_reducible apply State.spHeldEnd_kept
    | with_reducible apply State.stopOut_kept
    | with_reducible apply State.supReset_kept
    | with_reducible apply State.tmReset_kept
    | with_reducible apply State.twinStart_kept
    | with_reducible apply State.upReset_kept
    | with_reducible apply State.waitsEnd_kept
    | with_reducible apply State.wr_kept
    | with_reducible apply Kept.ite
    | with_reducible refine Kept.of_pair (by assumption) ?_
    | split
    | with_reducible refine Kept.set_ft ?_ ?_
    | with_reducible refine Kept.set_gs ?_ ?_
    | with_reducible refine Kept.set_host ?_ ?_
    | with_reducible refine Kept.set_scan ?_ ?_
    | with_reducible refine Kept.set_tw ?_ ?_
    | with_reducible refine Kept.set_wear ?_ ?_
    | (refine Kept.upd (s := ?_) ?_ ?_ ?_ ?_ ?_ ?_ ?_ ?_ ?_ ?_ ?_ ?_ ?_ ?_ ?_ ?_ ?_ ?_ ?_ ?_ ?_ ?_ ?_ ?_ ?_ ?_ ?_ ?_ ?_ ?_ ?_ <;> first | rfl | exact Or.inl rfl | exact Or.inr (hM.bit (by decide)) | skip)

theorem State.blockReset_kept {M : Nat} {b : State} {q : List Instr} {s : State} {p : Nat} (hs : Kept M b q s) (hM : Sub 0x4B08E83FC7F82F M) (hp1 : M.testBit (kindBit (kindOf p)) = true) : Kept M b q (State.blockReset s p) := by
  unfold State.blockReset
  try dsimp only
  repeat' first
    | with_reducible assumption
    | exact Sub.trans (by decide) hM
    | exact Sub.bit hM (by decide)
    | exact Sub.kind hM (by decide) _
    | (intro _; try dsimp only)
    | with_reducible apply State.headReset_kept
    | with_reducible apply State.insideReset_kept
    | with_reducible apply Kept.ite
    | with_reducible refine Kept.of_pair (by assumption) ?_
    | split

theorem State.blockDown_kept {M : Nat} {b : State} {q : List Instr} {s : State} {p : Nat} (hs : Kept M b q s) (hM : Sub 0x4B08E83FC7F82F M) (hp1 : M.testBit (kindBit (kindOf p)) = true) : Kept M b q (State.blockDown s p) := by
  unfold State.blockDown
  try dsimp only
  repeat' first
    | with_reducible assumption
    | exact Sub.trans (by decide) hM
    | exact Sub.bit hM (by decide)
    | exact Sub.kind hM (by decide) _
    | (intro _; try dsimp only)
    | with_reducible apply State.blockReset_kept
    | with_reducible apply State.setState_kept
    | with_reducible apply Kept.ite
    | with_reducible refine Kept.of_pair (by assumption) ?_
    | split

theorem State.islandDown_kept {M : Nat} {b : State} {q : List Instr} {s : State} {i : Nat} (hs : Kept M b q s) (hM : Sub 0xFFFFFF3FCFF86F M) : Kept M b q (State.islandDown s i) := by
  unfold State.islandDown
  try dsimp only
  repeat' first
    | with_reducible assumption
    | exact Sub.trans (by decide) hM
    | exact Sub.bit hM (by decide)
    | exact Sub.kind hM (by decide) _
    | (intro _; try dsimp only)
    | with_reducible apply bit_ecPage
    | with_reducible apply State.blockDown_kept
    | with_reducible apply State.flushPortReset_kept
    | with_reducible apply State.setIsl_kept
    | with_reducible apply State.wr_kept
    | with_reducible apply Kept.foldl
    | with_reducible apply Kept.foldlP
    | with_reducible apply Kept.ite
    | with_reducible refine Kept.of_pair (by assumption) ?_
    | split
    | with_reducible refine Kept.set_gs ?_ ?_
    | with_reducible refine Kept.set_ucode ?_ ?_
    | (refine Kept.upd (s := ?_) ?_ ?_ ?_ ?_ ?_ ?_ ?_ ?_ ?_ ?_ ?_ ?_ ?_ ?_ ?_ ?_ ?_ ?_ ?_ ?_ ?_ ?_ ?_ ?_ ?_ ?_ ?_ ?_ ?_ ?_ ?_ <;> first | rfl | exact Or.inl rfl | exact Or.inr (hM.bit (by decide)) | skip)

theorem State.islandReset_kept {M : Nat} {b : State} {q : List Instr} {s : State} {i : Nat} (hs : Kept M b q s) (hM : Sub 0xFFFFFF3FCFF86F M) : Kept M b q (State.islandReset s i) := by
  unfold State.islandReset
  try dsimp only
  repeat' first
    | with_reducible assumption
    | exact Sub.trans (by decide) hM
    | exact Sub.bit hM (by decide)
    | exact Sub.kind hM (by decide) _
    | (intro _; try dsimp only)
    | with_reducible apply State.islandDown_kept
    | with_reducible apply State.setIsl_kept
    | with_reducible apply Kept.ite
    | with_reducible refine Kept.of_pair (by assumption) ?_
    | split

end Sys2Proof.Machine
end

