-- ==== Sys2Proof/Laws/KeptReset.lean ====
section
/-! SUPPORT. What the functions of Machine/Reset.lean keep (Laws/Kept.lean). -/
namespace Sys2Proof.Machine

theorem State.supClamp_kept {M : Nat} {b : State} {q : List Instr} {s : State} {cause : Nat} (hs : Kept M b q s) (hM : Sub 0x300000800000 M) : Kept M b q (State.supClamp s cause) := by
  unfold State.supClamp
  split
  · exact ⟨hs.pending, Map.wf_drop (fun k => supPage (k / 4096)) hs.regs, hs.mram, hs.sp, hs.lc, fun p' o' hf => by
      rw [← hs.rd p' o' hf]
      simp only [State.rd]
      refine rd_drop _ _ _ _ ?_
      have e : regKey p' o' / 4096 = p' := by simp only [regKey]; omega
      rw [e]
      cases hsp : supPage p' with
      | false => rfl
      | true =>
        have hk : kindOf p' = some .fd ∨ kindOf p' = some .pp := by
          have hl : p' < 0x48 := by simp [supPage] at hsp; omega
          have := (by decide : ∀ i < 0x48, supPage i = true → kindOf i = some .fd ∨ kindOf i = some .pp)
          exact this _ hl hsp
        rcases hk with e | e <;> rw [e] at hf <;> exact false_of hf (hM.bit (by decide)), fun f hf => by
      cases f <;> first | exact hs.part _ hf | exact false_of hf (hM.bit (by decide))⟩
  · refine Kept.foldl (Kept.set_supv (State.setFeeds_kept hs (Sub.trans (by decide) hM)) (hM.bit (by decide))) fun t n h => State.ppClamp_kept h (Sub.trans (by decide) hM)

theorem State.cutWords_kept {M : Nat} {b : State} {q : List Instr} {s : State} {a : Nat} {x2 : List Byte} (hs : Kept M b q s) (hM : Sub 0x40000200 M) : Kept M b q (State.cutWords s a x2) := by
  fun_induction State.cutWords s a x2
  · next ih =>
    apply ih
    have ht : Kept M b q (State.tookFree _) := State.tookFree_kept hs (Sub.trans (by decide) hM)
    split
    · exact ht
    · exact State.mwr_kept ht (Sub.trans (by decide) hM)
  · exact hs

theorem State.cutJob_kept {M : Nat} {b : State} {q : List Instr} {s : State} {j : UpJob} (hs : Kept M b q s) (hM : Sub 0x40000200 M) : Kept M b q (State.cutJob s j) := by
  unfold State.cutJob
  try dsimp only
  repeat' first
    | with_reducible assumption
    | exact Sub.trans (by decide) hM
    | exact Sub.bit hM (by decide)
    | exact Sub.kind hM (by decide) _
    | (intro _; try dsimp only)
    | with_reducible apply State.cutWords_kept
    | with_reducible apply Kept.ite
    | with_reducible refine Kept.of_pair (by assumption) ?_
    | split

theorem State.cutWrite_kept {M : Nat} {b : State} {q : List Instr} {s : State} (hs : Kept M b q s) (hM : Sub 0x40000200 M) : Kept M b q (State.cutWrite s) := by
  unfold State.cutWrite
  try dsimp only
  repeat' first
    | with_reducible assumption
    | exact Sub.trans (by decide) hM
    | exact Sub.bit hM (by decide)
    | exact Sub.kind hM (by decide) _
    | (intro _; try dsimp only)
    | with_reducible apply State.cutJob_kept
    | with_reducible apply State.setChunk_kept
    | with_reducible apply State.store_kept
    | with_reducible apply Kept.ite
    | with_reducible refine Kept.of_pair (by assumption) ?_
    | split

theorem State.hubReset_kept {M : Nat} {b : State} {q : List Instr} {s0 : State} {r : ResetReq} (hs0 : Kept M b q s0) (hM : Sub 0xFFFFFF7FFFFBFB M) : Kept M b q (State.hubReset s0 r) := by
  have hc : Kept M b q (if r.level ≤ 1 then s0.cutWrite.supClamp r.cause else s0.cutWrite) :=
    Kept.ite (State.supClamp_kept (State.cutWrite_kept hs0 (Sub.trans (by decide) hM)) (Sub.trans (by decide) hM)) (State.cutWrite_kept hs0 (Sub.trans (by decide) hM))
  unfold State.hubReset
  refine State.upShow_kept (State.memReset_kept ⟨hc.pending, Map.wf_filter _ hc.regs, hc.mram, hc.sp, hc.lc, fun p o hf => false_of hf (hM.kind (by decide) _), fun f hf => by cases f <;> first | exact hc.part _ hf | exact false_of hf (hM.bit (by decide))⟩ (Sub.trans (by decide) hM)) (Sub.trans (by decide) hM)

theorem State.record_kept {M : Nat} {b : State} {q : List Instr} {s : State} {r : ResetReq} {stamp : Nat} (hs : Kept M b q s) (hM : Sub 0x100000000 M) : Kept M b q (State.record s r stamp) := by
  unfold State.record
  try dsimp only
  repeat' first
    | with_reducible assumption
    | exact Sub.trans (by decide) hM
    | exact Sub.bit hM (by decide)
    | exact Sub.kind hM (by decide) _
    | (intro _; try dsimp only)
    | with_reducible apply State.wr_kept
    | with_reducible apply Kept.ite
    | with_reducible refine Kept.of_pair (by assumption) ?_
    | split

theorem State.setOpt_kept {M : Nat} {b : State} {q : List Instr} {s : State} {v : Nat} (hs : Kept M b q s) (hM : Sub 0x100000000 M) : Kept M b q (State.setOpt s v) := by
  unfold State.setOpt
  try dsimp only
  repeat' first
    | with_reducible assumption
    | exact Sub.trans (by decide) hM
    | exact Sub.bit hM (by decide)
    | exact Sub.kind hM (by decide) _
    | (intro _; try dsimp only)
    | with_reducible apply State.fs_kept
    | with_reducible apply Kept.ite
    | with_reducible refine Kept.of_pair (by assumption) ?_
    | split

theorem State.applyRepair_kept {M : Nat} {b : State} {q : List Instr} {s : State} {r : Repair} (hs : Kept M b q s) (hM : Sub 0x9802000004808 M) : Kept M b q (State.applyRepair s r) := by
  unfold State.applyRepair
  try dsimp only
  repeat' first
    | with_reducible assumption
    | exact Sub.trans (by decide) hM
    | exact Sub.bit hM (by decide)
    | exact Sub.kind hM (by decide) _
    | (intro _; try dsimp only)
    | with_reducible apply bit_enPage
    | with_reducible apply bit_ecPage
    | with_reducible apply State.fs_kept
    | with_reducible apply State.setSpBank_kept
    | with_reducible apply State.setState_kept
    | with_reducible apply State.showSpares_kept
    | with_reducible apply State.wr_kept
    | with_reducible apply Kept.ite
    | with_reducible refine Kept.of_pair (by assumption) ?_
    | split

theorem State.applyRepairs_kept {M : Nat} {b : State} {q : List Instr} {s : State} (hs : Kept M b q s) (hM : Sub 0x9802000004808 M) : Kept M b q (State.applyRepairs s) := by
  unfold State.applyRepairs
  try dsimp only
  repeat' first
    | with_reducible assumption
    | exact Sub.trans (by decide) hM
    | exact Sub.bit hM (by decide)
    | exact Sub.kind hM (by decide) _
    | (intro _; try dsimp only)
    | with_reducible apply State.applyRepair_kept
    | with_reducible apply State.raiseIf_kept
    | with_reducible apply State.showTable_kept
    | with_reducible apply Kept.foldl
    | with_reducible apply Kept.foldlP
    | with_reducible apply Kept.ite
    | with_reducible refine Kept.of_pair (by assumption) ?_
    | split

theorem State.loadBaselines_kept {M : Nat} {b : State} {q : List Instr} {s : State} (hs : Kept M b q s) (hM : Sub 0x20000010000808 M) : Kept M b q (State.loadBaselines s) := by
  unfold State.loadBaselines
  try dsimp only
  repeat' first
    | with_reducible assumption
    | exact Sub.trans (by decide) hM
    | exact Sub.bit hM (by decide)
    | exact Sub.kind hM (by decide) _
    | (intro _; try dsimp only)
    | with_reducible apply State.fs_kept
    | with_reducible apply State.raise_kept
    | with_reducible apply Kept.foldl
    | with_reducible apply Kept.foldlP
    | with_reducible apply Kept.ite
    | with_reducible refine Kept.of_pair (by assumption) ?_
    | split
    | with_reducible refine Kept.set_wear ?_ ?_

theorem State.toDone_kept {M : Nat} {b : State} {q : List Instr} {s : State} (hs : Kept M b q s) (hM : Sub 0x69802170004828 M) : Kept M b q (State.toDone s) := by
  unfold State.toDone
  try dsimp only
  repeat' first
    | with_reducible assumption
    | exact Sub.trans (by decide) hM
    | exact Sub.bit hM (by decide)
    | exact Sub.kind hM (by decide) _
    | (intro _; try dsimp only)
    | with_reducible apply State.applyRepairs_kept
    | with_reducible apply State.loadBaselines_kept
    | with_reducible apply State.retryFloors_kept
    | with_reducible apply State.setOpt_kept
    | with_reducible apply Kept.ite
    | with_reducible refine Kept.of_pair (by assumption) ?_
    | split
    | with_reducible refine Kept.set_gs ?_ ?_

theorem State.bareStart_kept {M : Nat} {b : State} {q : List Instr} {s : State} (hs : Kept M b q s) (hM : Sub 0x69802370004828 M) : Kept M b q (State.bareStart s) := by
  unfold State.bareStart
  try dsimp only
  repeat' first
    | with_reducible assumption
    | exact Sub.trans (by decide) hM
    | exact Sub.bit hM (by decide)
    | exact Sub.kind hM (by decide) _
    | (intro _; try dsimp only)
    | with_reducible apply State.fs_kept
    | with_reducible apply State.raise_kept
    | with_reducible apply State.setOpt_kept
    | with_reducible apply State.toDone_kept
    | with_reducible apply State.wr_kept
    | with_reducible apply Kept.ite
    | with_reducible refine Kept.of_pair (by assumption) ?_
    | split

theorem State.revertRecord_kept {M : Nat} {b : State} {q : List Instr} {s : State} (hs : Kept M b q s) (hM : Sub 0x40000020000808 M) : Kept M b q (State.revertRecord s) := by
  unfold State.revertRecord
  try dsimp only
  repeat' first
    | with_reducible assumption
    | exact Sub.trans (by decide) hM
    | exact Sub.bit hM (by decide)
    | exact Sub.kind hM (by decide) _
    | (intro _; try dsimp only)
    | with_reducible apply State.fs_kept
    | with_reducible apply State.inc_kept
    | with_reducible apply State.raise_kept
    | with_reducible apply Kept.ite
    | with_reducible refine Kept.of_pair (by assumption) ?_
    | split
    | with_reducible refine Kept.set_up ?_ ?_

theorem State.readHeaders_kept {M : Nat} {b : State} {q : List Instr} {s0 : State} (hs0 : Kept M b q s0) (hM : Sub 0x69802370004828 M) : Kept M b q (State.readHeaders s0) := by
  unfold State.readHeaders
  try dsimp only
  repeat' first
    | with_reducible assumption
    | exact Sub.trans (by decide) hM
    | exact Sub.bit hM (by decide)
    | exact Sub.kind hM (by decide) _
    | (intro _; try dsimp only)
    | with_reducible apply State.bareStart_kept
    | with_reducible apply State.revertRecord_kept
    | with_reducible apply State.setOpt_kept
    | with_reducible apply Kept.ite
    | with_reducible refine Kept.of_pair (by assumption) ?_
    | split
    | with_reducible refine Kept.set_gs ?_ ?_

theorem State.loadHeader_kept {M : Nat} {b : State} {q : List Instr} {s : State} {c : Nat} (hs : Kept M b q s) (hM : Sub 0x300000020 M) : Kept M b q (State.loadHeader s c) := by
  unfold State.loadHeader
  try dsimp only
  repeat' first
    | with_reducible assumption
    | exact Sub.trans (by decide) hM
    | exact Sub.bit hM (by decide)
    | exact Sub.kind hM (by decide) _
    | (intro _; try dsimp only)
    | with_reducible apply State.fs_kept
    | with_reducible apply State.record_kept
    | with_reducible apply State.wr_kept
    | with_reducible apply Kept.ite
    | with_reducible refine Kept.of_pair (by assumption) ?_
    | split
    | with_reducible refine Kept.set_gs ?_ ?_

theorem State.releaseReset_kept {M : Nat} {b : State} {q : List Instr} {s : State} {straps : Straps} (hs : Kept M b q s) (hM : Sub 0x69802370004828 M) : Kept M b q (State.releaseReset s straps) := by
  unfold State.releaseReset
  try dsimp only
  repeat' first
    | with_reducible assumption
    | exact Sub.trans (by decide) hM
    | exact Sub.bit hM (by decide)
    | exact Sub.kind hM (by decide) _
    | (intro _; try dsimp only)
    | with_reducible apply State.readHeaders_kept
    | with_reducible apply State.setOpt_kept
    | with_reducible apply State.wr_kept
    | with_reducible apply Kept.ite
    | with_reducible refine Kept.of_pair (by assumption) ?_
    | split
    | with_reducible refine Kept.set_gs ?_ ?_

theorem State.assertReset_kept {M : Nat} {b : State} {q : List Instr} {s : State} {r : ResetReq} (hs : Kept M b q s) (hM : Sub 0xFFFFFF7FFFFBFB M) : Kept M b q (State.assertReset s r) := by
  unfold State.assertReset
  try dsimp only
  repeat' first
    | with_reducible assumption
    | exact Sub.trans (by decide) hM
    | exact Sub.bit hM (by decide)
    | exact Sub.kind hM (by decide) _
    | (intro _; try dsimp only)
    | with_reducible apply State.fs_kept
    | with_reducible apply State.hubReset_kept
    | with_reducible apply State.record_kept
    | with_reducible apply State.releaseReset_kept
    | with_reducible apply Kept.ite
    | with_reducible refine Kept.of_pair (by assumption) ?_
    | split
    | with_reducible refine Kept.set_gs ?_ ?_

theorem State.holdWrite_kept {M : Nat} {b : State} {q : List Instr} {s : State} {v : Word} (hs : Kept M b q s) (hM : Sub 0xFFFFFF3FCFF86F M) : Kept M b q (State.holdWrite s v) := by
  unfold State.holdWrite
  try dsimp only
  repeat' first
    | with_reducible assumption
    | exact Sub.trans (by decide) hM
    | exact Sub.bit hM (by decide)
    | exact Sub.kind hM (by decide) _
    | (intro _; try dsimp only)
    | with_reducible apply State.islandDown_kept
    | with_reducible apply State.setIsl_kept
    | with_reducible apply State.wr_kept
    | with_reducible apply Kept.foldl
    | with_reducible apply Kept.foldlP
    | with_reducible apply Kept.ite
    | with_reducible refine Kept.of_pair (by assumption) ?_
    | split

theorem State.pageReset_kept {M : Nat} {b : State} {q : List Instr} {s : State} {p : Nat} (hs : Kept M b q s) (hM : Sub 0xFFFFFF3FCFF86F M) (hp1 : M.testBit (kindBit (kindOf p)) = true) : Kept M b q (State.pageReset s p) := by
  unfold State.pageReset
  try dsimp only
  repeat' first
    | with_reducible assumption
    | exact Sub.trans (by decide) hM
    | exact Sub.bit hM (by decide)
    | exact Sub.kind hM (by decide) _
    | (intro _; try dsimp only)
    | with_reducible apply bit_ringPage
    | with_reducible apply bit_lanePage
    | with_reducible apply State.blockReset_kept
    | with_reducible apply State.holdWrite_kept
    | with_reducible apply Kept.ite
    | with_reducible refine Kept.of_pair (by assumption) ?_
    | split
    | with_reducible refine Kept.set_gs ?_ ?_

theorem State.assertL3_kept {M : Nat} {b : State} {q : List Instr} {s : State} {r : ResetReq} {x2 : L3Target} (hs : Kept M b q s) (hM : Sub 0xFFFFFF3FCFF86F M) : Kept M b q (State.assertL3 s r x2) := by
  unfold State.assertL3
  try dsimp only
  repeat' first
    | with_reducible assumption
    | exact Sub.trans (by decide) hM
    | exact Sub.bit hM (by decide)
    | exact Sub.kind hM (by decide) _
    | (intro _; try dsimp only)
    | with_reducible apply bit_ringPage
    | with_reducible apply bit_lanePage
    | with_reducible apply State.blockReset_kept
    | with_reducible apply State.islandDown_kept
    | with_reducible apply State.islandReset_kept
    | with_reducible apply State.record_kept
    | with_reducible apply Kept.ite
    | with_reducible refine Kept.of_pair (by assumption) ?_
    | split
    | with_reducible refine Kept.set_gs ?_ ?_

theorem State.holdBack_kept {M : Nat} {b : State} {q : List Instr} {s : State} {r : ResetReq} (hs : Kept M b q s) (hM : Sub 0x20 M) : Kept M b q (State.holdBack s r) := by
  unfold State.holdBack
  try dsimp only
  repeat' first
    | with_reducible assumption
    | exact Sub.trans (by decide) hM
    | exact Sub.bit hM (by decide)
    | exact Sub.kind hM (by decide) _
    | (intro _; try dsimp only)
    | with_reducible apply Kept.ite
    | with_reducible refine Kept.of_pair (by assumption) ?_
    | split
    | with_reducible refine Kept.set_gs ?_ ?_

theorem State.recognise_kept {M : Nat} {b : State} {q : List Instr} {s : State} {r : ResetReq} {x2 : Option L3Target} (hs : Kept M b q s) (hM : Sub 0xFFFFFF7FFFFBFF M) : Kept M b q (State.recognise s r x2) := by
  unfold State.recognise
  try dsimp only
  repeat' first
    | with_reducible assumption
    | exact Sub.trans (by decide) hM
    | exact Sub.bit hM (by decide)
    | exact Sub.kind hM (by decide) _
    | (intro _; try dsimp only)
    | with_reducible apply State.assertL3_kept
    | with_reducible apply State.assertReset_kept
    | with_reducible apply State.holdBack_kept
    | with_reducible apply State.record_kept
    | with_reducible apply Kept.ite
    | with_reducible refine Kept.of_pair (by assumption) ?_
    | split
    | with_reducible refine Kept.set_gs ?_ ?_

theorem State.strikeFail_kept {M : Nat} {b : State} {q : List Instr} {s : State} (hs : Kept M b q s) (hM : Sub 0xFFFFFF7FFFFBFF M) : Kept M b q (State.strikeFail s) := by
  unfold State.strikeFail
  try dsimp only
  repeat' first
    | with_reducible assumption
    | exact Sub.trans (by decide) hM
    | exact Sub.bit hM (by decide)
    | exact Sub.kind hM (by decide) _
    | (intro _; try dsimp only)
    | with_reducible apply State.recognise_kept
    | with_reducible apply Kept.ite
    | with_reducible refine Kept.of_pair (by assumption) ?_
    | split
    | with_reducible refine Kept.set_up ?_ ?_

theorem State.assertBlock_kept {M : Nat} {b : State} {q : List Instr} {s : State} (hs : Kept M b q s) (hM : Sub 0x4B08E97FC7FA2F M) : Kept M b q (State.assertBlock s) := by
  unfold State.assertBlock
  try dsimp only
  repeat' first
    | with_reducible assumption
    | exact Sub.trans (by decide) hM
    | exact Sub.bit hM (by decide)
    | exact Sub.kind hM (by decide) _
    | (intro _; try dsimp only)
    | with_reducible apply State.blockReset_kept
    | with_reducible apply State.cutWrite_kept
    | with_reducible apply State.record_kept
    | with_reducible apply Kept.ite
    | with_reducible refine Kept.of_pair (by assumption) ?_
    | split
    | with_reducible refine Kept.set_gs ?_ ?_

theorem execResetAssertDeferred_kept {M : Nat} {b : State} {q : List Instr} {s : State} (hs : Kept M b q s) (hM : Sub 0xFFFFFF7FFFFBFF M) {r : State} (e : (execResetAssertDeferred s) = .next r) : Kept M b q r := by
  unfold execResetAssertDeferred at e
  injection e with e; subst e
  try dsimp only
  repeat' first
    | with_reducible assumption
    | exact Sub.trans (by decide) hM
    | exact Sub.bit hM (by decide)
    | exact Sub.kind hM (by decide) _
    | (intro _; try dsimp only)
    | with_reducible apply State.assertBlock_kept
    | with_reducible apply State.assertReset_kept
    | with_reducible apply Kept.ite
    | with_reducible refine Kept.of_pair (by assumption) ?_
    | split

theorem execPowerOnReset_kept {M : Nat} {b : State} {q : List Instr} {s : State} (hs : Kept M b q s) (hM : Sub 0xFFFFFF7FFFFBFF M) {r : State} (e : (execPowerOnReset s) = .next r) : Kept M b q r := by
  unfold execPowerOnReset at e
  injection e with e; subst e
  try dsimp only
  repeat' first
    | with_reducible assumption
    | exact Sub.trans (by decide) hM
    | exact Sub.bit hM (by decide)
    | exact Sub.kind hM (by decide) _
    | (intro _; try dsimp only)
    | with_reducible apply State.recognise_kept
    | with_reducible apply Kept.ite
    | with_reducible refine Kept.of_pair (by assumption) ?_
    | split
    | with_reducible refine Kept.set_gs ?_ ?_

theorem execPowerOnResetRelease_kept {M : Nat} {b : State} {q : List Instr} {straps : Straps} {s : State} (hs : Kept M b q s) (hM : Sub 0x69802370004828 M) {r : State} (e : (execPowerOnResetRelease straps s) = .next r) : Kept M b q r := by
  unfold execPowerOnResetRelease at e
  injection e with e; subst e
  try dsimp only
  repeat' first
    | with_reducible assumption
    | exact Sub.trans (by decide) hM
    | exact Sub.bit hM (by decide)
    | exact Sub.kind hM (by decide) _
    | (intro _; try dsimp only)
    | with_reducible apply State.releaseReset_kept
    | with_reducible apply Kept.ite
    | with_reducible refine Kept.of_pair (by assumption) ?_
    | split
    | with_reducible refine Kept.set_gs ?_ ?_

theorem execResetNRecognised_kept {M : Nat} {b : State} {q : List Instr} {s : State} (hs : Kept M b q s) (hM : Sub 0xFFFFFF7FFFFBFF M) {r : State} (e : (execResetNRecognised s) = .next r) : Kept M b q r := by
  unfold execResetNRecognised at e
  injection e with e; subst e
  try dsimp only
  repeat' first
    | with_reducible assumption
    | exact Sub.trans (by decide) hM
    | exact Sub.bit hM (by decide)
    | exact Sub.kind hM (by decide) _
    | (intro _; try dsimp only)
    | with_reducible apply State.recognise_kept
    | with_reducible apply Kept.ite
    | with_reducible refine Kept.of_pair (by assumption) ?_
    | split
    | with_reducible refine Kept.set_gs ?_ ?_

theorem execResetNRelease_kept {M : Nat} {b : State} {q : List Instr} {straps : Straps} {s : State} (hs : Kept M b q s) (hM : Sub 0x69802370004828 M) {r : State} (e : (execResetNRelease straps s) = .next r) : Kept M b q r := by
  unfold execResetNRelease at e
  injection e with e; subst e
  try dsimp only
  repeat' first
    | with_reducible assumption
    | exact Sub.trans (by decide) hM
    | exact Sub.bit hM (by decide)
    | exact Sub.kind hM (by decide) _
    | (intro _; try dsimp only)
    | with_reducible apply State.releaseReset_kept
    | with_reducible apply Kept.ite
    | with_reducible refine Kept.of_pair (by assumption) ?_
    | split
    | with_reducible refine Kept.set_gs ?_ ?_

theorem State.softReset_kept {M : Nat} {b : State} {q : List Instr} {s : State} {v : Word} (hs : Kept M b q s) (hM : Sub 0xFFFFFF7FFFFBFF M) : Kept M b q (State.softReset s v) := by
  unfold State.softReset
  try dsimp only
  repeat' first
    | with_reducible assumption
    | exact Sub.trans (by decide) hM
    | exact Sub.bit hM (by decide)
    | exact Sub.kind hM (by decide) _
    | (intro _; try dsimp only)
    | with_reducible apply State.raise_kept
    | with_reducible apply State.recognise_kept
    | with_reducible apply Kept.ite
    | with_reducible refine Kept.of_pair (by assumption) ?_
    | split

theorem execHostSoftReset_kept {M : Nat} {b : State} {q : List Instr} {who : Initiator} {v : Word} {s : State} (hs : Kept M b q s) (hM : Sub 0xFFFFFF7FFFFBFF M) {r : State} (e : (execHostSoftReset who v s) = .next r) : Kept M b q r := by
  unfold execHostSoftReset at e
  injection e with e; subst e
  try dsimp only
  repeat' first
    | with_reducible assumption
    | exact Sub.trans (by decide) hM
    | exact Sub.bit hM (by decide)
    | exact Sub.kind hM (by decide) _
    | (intro _; try dsimp only)
    | with_reducible apply State.softReset_kept
    | with_reducible apply State.write_kept
    | with_reducible apply Kept.ite
    | with_reducible refine Kept.of_pair (by assumption) ?_
    | split

theorem State.wdogKick_kept {M : Nat} {b : State} {q : List Instr} {s : State} {v : Word} (hs : Kept M b q s) (hM : Sub 0x20 M) : Kept M b q (State.wdogKick s v) := by
  unfold State.wdogKick
  try dsimp only
  repeat' first
    | with_reducible assumption
    | exact Sub.trans (by decide) hM
    | exact Sub.bit hM (by decide)
    | exact Sub.kind hM (by decide) _
    | (intro _; try dsimp only)
    | with_reducible apply Kept.ite
    | with_reducible refine Kept.of_pair (by assumption) ?_
    | split
    | with_reducible refine Kept.set_gs ?_ ?_

theorem execWdogKick_kept {M : Nat} {b : State} {q : List Instr} {who : Initiator} {v : Word} {s : State} (hs : Kept M b q s) (hM : Sub 0x9000001082C M) {r : State} (e : (execWdogKick who v s) = .next r) : Kept M b q r := by
  unfold execWdogKick at e
  injection e with e; subst e
  exact State.write_kept hs (fun _ h => State.wdogKick_kept h (Sub.trans (by decide) hM)) (Sub.trans (by decide) hM)

theorem execWatchdogExpire_kept {M : Nat} {b : State} {q : List Instr} {s : State} (hs : Kept M b q s) (hM : Sub 0xFFFFFF7FFFFBFF M) {r : State} (e : (execWatchdogExpire s) = .next r) : Kept M b q r := by
  unfold execWatchdogExpire at e
  injection e with e; subst e
  try dsimp only
  repeat' first
    | with_reducible assumption
    | exact Sub.trans (by decide) hM
    | exact Sub.bit hM (by decide)
    | exact Sub.kind hM (by decide) _
    | (intro _; try dsimp only)
    | with_reducible apply State.recognise_kept
    | with_reducible apply State.strikeFail_kept
    | with_reducible apply Kept.ite
    | with_reducible refine Kept.of_pair (by assumption) ?_
    | split

theorem execThermalTrip_kept {M : Nat} {b : State} {q : List Instr} {tj : Int} {s : State} (hs : Kept M b q s) (hM : Sub 0xFFFFFF7FFFFBFF M) {r : State} (e : (execThermalTrip tj s) = .next r) : Kept M b q r := by
  unfold execThermalTrip at e
  injection e with e; subst e
  try dsimp only
  repeat' first
    | with_reducible assumption
    | exact Sub.trans (by decide) hM
    | exact Sub.bit hM (by decide)
    | exact Sub.kind hM (by decide) _
    | (intro _; try dsimp only)
    | with_reducible apply State.recognise_kept
    | with_reducible apply Kept.ite
    | with_reducible refine Kept.of_pair (by assumption) ?_
    | split
    | with_reducible refine Kept.set_gs ?_ ?_

theorem execThermalTripRelease_kept {M : Nat} {b : State} {q : List Instr} {tj : Int} {straps : Straps} {s : State} (hs : Kept M b q s) (hM : Sub 0x69802370004828 M) {r : State} (e : (execThermalTripRelease tj straps s) = .next r) : Kept M b q r := by
  unfold execThermalTripRelease at e
  injection e with e; subst e
  try dsimp only
  repeat' first
    | with_reducible assumption
    | exact Sub.trans (by decide) hM
    | exact Sub.bit hM (by decide)
    | exact Sub.kind hM (by decide) _
    | (intro _; try dsimp only)
    | with_reducible apply State.releaseReset_kept
    | with_reducible apply Kept.ite
    | with_reducible refine Kept.of_pair (by assumption) ?_
    | split
    | with_reducible refine Kept.set_gs ?_ ?_

theorem execClockLoss_kept {M : Nat} {b : State} {q : List Instr} {s : State} (hs : Kept M b q s) (hM : Sub 0xFFFFFF7FFFFBFF M) {r : State} (e : (execClockLoss s) = .next r) : Kept M b q r := by
  unfold execClockLoss at e
  injection e with e; subst e
  try dsimp only
  repeat' first
    | with_reducible assumption
    | exact Sub.trans (by decide) hM
    | exact Sub.bit hM (by decide)
    | exact Sub.kind hM (by decide) _
    | (intro _; try dsimp only)
    | with_reducible apply State.recognise_kept
    | with_reducible apply Kept.ite
    | with_reducible refine Kept.of_pair (by assumption) ?_
    | split
    | with_reducible refine Kept.set_gs ?_ ?_

theorem execClockLossRelease_kept {M : Nat} {b : State} {q : List Instr} {straps : Straps} {s : State} (hs : Kept M b q s) (hM : Sub 0x69802370004828 M) {r : State} (e : (execClockLossRelease straps s) = .next r) : Kept M b q r := by
  unfold execClockLossRelease at e
  injection e with e; subst e
  try dsimp only
  repeat' first
    | with_reducible assumption
    | exact Sub.trans (by decide) hM
    | exact Sub.bit hM (by decide)
    | exact Sub.kind hM (by decide) _
    | (intro _; try dsimp only)
    | with_reducible apply State.releaseReset_kept
    | with_reducible apply Kept.ite
    | with_reducible refine Kept.of_pair (by assumption) ?_
    | split
    | with_reducible refine Kept.set_gs ?_ ?_

theorem execOptFuseRead_kept {M : Nat} {b : State} {q : List Instr} {s : State} (hs : Kept M b q s) (hM : Sub 0x700000828 M) {r : State} (e : (execOptFuseRead s) = .next r) : Kept M b q r := by
  have hf : Kept M b q ([0, 1, 2].foldl (fun (t : State) p => t.setState p PAGE_STATE_READY true)
      { s with gs := { s.gs with fuseHeld := s.gs.fuse, fused := true } }) := by
    refine Kept.foldlM (Kept.set_gs hs (hM.bit (by decide))) fun t p hp h => State.setState_kept h (Sub.trans (by decide) hM) ?_
    have hk : kindOf p = some .gs ∨ kindOf p = some .opt ∨ kindOf p = some .clk := by
      revert p; decide
    rcases hk with e | e | e <;> rw [e] <;> exact hM.bit (by decide)
  unfold execOptFuseRead at e
  injection e with e; subst e
  try dsimp only
  repeat' first
    | with_reducible assumption
    | exact Sub.trans (by decide) hM
    | exact Sub.bit hM (by decide)
    | exact Sub.kind hM (by decide) _
    | (intro _; try dsimp only)
    | with_reducible apply State.fs_kept
    | with_reducible apply State.raiseIf_kept
    | with_reducible apply State.setOpt_kept
    | with_reducible apply State.setState_kept
    | with_reducible apply Kept.foldl
    | with_reducible apply Kept.foldlP
    | with_reducible apply Kept.ite
    | with_reducible refine Kept.of_pair (by assumption) ?_
    | split
    | with_reducible refine Kept.set_gs ?_ ?_

theorem execMramWakeDone_kept {M : Nat} {b : State} {q : List Instr} {s : State} (hs : Kept M b q s) (hM : Sub 0x69802370004828 M) {r : State} (e : (execMramWakeDone s) = .next r) : Kept M b q r := by
  unfold execMramWakeDone at e
  injection e with e; subst e
  try dsimp only
  repeat' first
    | with_reducible assumption
    | exact Sub.trans (by decide) hM
    | exact Sub.bit hM (by decide)
    | exact Sub.kind hM (by decide) _
    | (intro _; try dsimp only)
    | with_reducible apply State.readHeaders_kept
    | with_reducible apply Kept.ite
    | with_reducible refine Kept.of_pair (by assumption) ?_
    | split

theorem execOptVerify_kept {M : Nat} {b : State} {q : List Instr} {s : State} (hs : Kept M b q s) (hM : Sub 0x69802370004828 M) {r : State} (e : (execOptVerify s) = .next r) : Kept M b q r := by
  unfold execOptVerify at e
  injection e with e; subst e
  try dsimp only
  repeat' first
    | with_reducible assumption
    | exact Sub.trans (by decide) hM
    | exact Sub.bit hM (by decide)
    | exact Sub.kind hM (by decide) _
    | (intro _; try dsimp only)
    | with_reducible apply State.bareStart_kept
    | with_reducible apply State.fs_kept
    | with_reducible apply State.loadHeader_kept
    | with_reducible apply State.setOpt_kept
    | with_reducible apply Kept.ite
    | with_reducible refine Kept.of_pair (by assumption) ?_
    | split
    | with_reducible refine Kept.set_gs ?_ ?_

theorem execOptClocksLocked_kept {M : Nat} {b : State} {q : List Instr} {s : State} (hs : Kept M b q s) (hM : Sub 0x698021700049A8 M) {r : State} (e : (execOptClocksLocked s) = .next r) : Kept M b q r := by
  unfold execOptClocksLocked at e
  injection e with e; subst e
  try dsimp only
  repeat' first
    | with_reducible assumption
    | exact Sub.trans (by decide) hM
    | exact Sub.bit hM (by decide)
    | exact Sub.kind hM (by decide) _
    | (intro _; try dsimp only)
    | with_reducible apply State.setOpt_kept
    | with_reducible apply State.toDone_kept
    | with_reducible apply Kept.ite
    | with_reducible refine Kept.of_pair (by assumption) ?_
    | split
    | with_reducible refine Kept.set_pll ?_ ?_
    | with_reducible refine Kept.set_spll ?_ ?_
    | (refine Kept.upd (s := ?_) ?_ ?_ ?_ ?_ ?_ ?_ ?_ ?_ ?_ ?_ ?_ ?_ ?_ ?_ ?_ ?_ ?_ ?_ ?_ ?_ ?_ ?_ ?_ ?_ ?_ ?_ ?_ ?_ ?_ ?_ ?_ <;> first | rfl | exact Or.inl rfl | exact Or.inr (hM.bit (by decide)) | skip)

theorem State.released_kept {M : Nat} {b : State} {q : List Instr} {s : State} {i : Nat} (hs : Kept M b q s) (hM : Sub 0x2008880000AC28 M) : Kept M b q (State.released s i) := by
  have hz : Kept M b q { s with lc := 0, gs := { s.gs with lcZero := false } } := ⟨hs.pending, hs.regs, hs.mram, hs.sp, Nat.two_pow_pos 64, hs.rd,
      fun f hf => by cases f <;> first | exact hs.part _ hf | exact false_of hf (hM.bit (by decide))⟩
  unfold State.released
  try dsimp only
  repeat' first
    | with_reducible assumption
    | exact Sub.trans (by decide) hM
    | exact Sub.bit hM (by decide)
    | exact Sub.kind hM (by decide) _
    | (intro _; try dsimp only)
    | with_reducible apply bit_ringPage
    | with_reducible apply bit_lanePage
    | with_reducible apply State.fs_kept
    | with_reducible apply State.lanesReleased_kept
    | with_reducible apply State.tmReset_kept
    | with_reducible apply State.twinStart_kept
    | with_reducible apply Kept.ite
    | with_reducible refine Kept.of_pair (by assumption) ?_
    | split
    | with_reducible refine Kept.set_gs ?_ ?_
    | (refine Kept.upd (s := ?_) ?_ ?_ ?_ ?_ ?_ ?_ ?_ ?_ ?_ ?_ ?_ ?_ ?_ ?_ ?_ ?_ ?_ ?_ ?_ ?_ ?_ ?_ ?_ ?_ ?_ ?_ ?_ ?_ ?_ ?_ ?_ <;> first | rfl | exact Or.inl rfl | exact Or.inr (hM.bit (by decide)) | skip)

theorem State.releaseIsland_kept {M : Nat} {b : State} {q : List Instr} {s : State} {i : Nat} (hs : Kept M b q s) (hM : Sub 0x2008880000AC68 M) : Kept M b q (State.releaseIsland s i) := by
  unfold State.releaseIsland
  try dsimp only
  repeat' first
    | with_reducible assumption
    | exact Sub.trans (by decide) hM
    | exact Sub.bit hM (by decide)
    | exact Sub.kind hM (by decide) _
    | (intro _; try dsimp only)
    | with_reducible apply State.released_kept
    | with_reducible apply State.setIsl_kept
    | with_reducible apply Kept.ite
    | with_reducible refine Kept.of_pair (by assumption) ?_
    | split
    | with_reducible refine Kept.set_gs ?_ ?_

theorem State.requestRelease_kept {M : Nat} {b : State} {q : List Instr} {s : State} {i : Nat} (hs : Kept M b q s) (hM : Sub 0x2008880000AC68 M) : Kept M b q (State.requestRelease s i) := by
  unfold State.requestRelease
  try dsimp only
  repeat' first
    | with_reducible assumption
    | exact Sub.trans (by decide) hM
    | exact Sub.bit hM (by decide)
    | exact Sub.kind hM (by decide) _
    | (intro _; try dsimp only)
    | with_reducible apply State.releaseIsland_kept
    | with_reducible apply State.setIsl_kept
    | with_reducible apply Kept.ite
    | with_reducible refine Kept.of_pair (by assumption) ?_
    | split

theorem execIslandReleasePosition_kept {M : Nat} {b : State} {q : List Instr} {s : State} (hs : Kept M b q s) (hM : Sub 0x2008880000AC68 M) {r : State} (e : (execIslandReleasePosition s) = .next r) : Kept M b q r := by
  unfold execIslandReleasePosition at e
  injection e with e; subst e
  try dsimp only
  repeat' first
    | with_reducible assumption
    | exact Sub.trans (by decide) hM
    | exact Sub.bit hM (by decide)
    | exact Sub.kind hM (by decide) _
    | (intro _; try dsimp only)
    | with_reducible apply State.requestRelease_kept
    | with_reducible apply Kept.foldl
    | with_reducible apply Kept.foldlP
    | with_reducible apply Kept.ite
    | with_reducible refine Kept.of_pair (by assumption) ?_
    | split
    | with_reducible refine Kept.set_gs ?_ ?_

theorem execIslandSyncRelease_kept {M : Nat} {b : State} {q : List Instr} {island : Island} {s : State} (hs : Kept M b q s) (hM : Sub 0x2008880000AC68 M) {r : State} (e : (execIslandSyncRelease island s) = .next r) : Kept M b q r := by
  unfold execIslandSyncRelease at e
  injection e with e; subst e
  try dsimp only
  repeat' first
    | with_reducible assumption
    | exact Sub.trans (by decide) hM
    | exact Sub.bit hM (by decide)
    | exact Sub.kind hM (by decide) _
    | (intro _; try dsimp only)
    | with_reducible apply State.releaseIsland_kept
    | with_reducible apply Kept.ite
    | with_reducible refine Kept.of_pair (by assumption) ?_
    | split

theorem execGsHoldSet_kept {M : Nat} {b : State} {q : List Instr} {who : Initiator} {v : Word} {s : State} (hs : Kept M b q s) (hM : Sub 0xFFFFFF3FCFF86F M) {r : State} (e : (execGsHoldSet who v s) = .next r) : Kept M b q r := by
  unfold execGsHoldSet at e
  injection e with e; subst e
  try dsimp only
  repeat' first
    | with_reducible assumption
    | exact Sub.trans (by decide) hM
    | exact Sub.bit hM (by decide)
    | exact Sub.kind hM (by decide) _
    | (intro _; try dsimp only)
    | with_reducible apply State.holdWrite_kept
    | with_reducible apply State.write_kept
    | with_reducible apply Kept.ite
    | with_reducible refine Kept.of_pair (by assumption) ?_
    | split

theorem execGsHoldRelease_kept {M : Nat} {b : State} {q : List Instr} {who : Initiator} {v : Word} {s : State} (hs : Kept M b q s) (hM : Sub 0xFFFFFF3FCFF86F M) {r : State} (e : (execGsHoldRelease who v s) = .next r) : Kept M b q r := by
  unfold execGsHoldRelease at e
  injection e with e; subst e
  try dsimp only
  repeat' first
    | with_reducible assumption
    | exact Sub.trans (by decide) hM
    | exact Sub.bit hM (by decide)
    | exact Sub.kind hM (by decide) _
    | (intro _; try dsimp only)
    | with_reducible apply State.holdWrite_kept
    | with_reducible apply State.write_kept
    | with_reducible apply Kept.ite
    | with_reducible refine Kept.of_pair (by assumption) ?_
    | split

theorem execReadyVectorUpdate_kept {M : Nat} {b : State} {q : List Instr} {reg : Fin 4} {bit : Fin 32} {s : State} (hs : Kept M b q s) (hM : Sub 0x100000000 M) {r : State} (e : (execReadyVectorUpdate reg bit s) = .next r) : Kept M b q r := by
  unfold execReadyVectorUpdate at e
  injection e with e; subst e
  try dsimp only
  repeat' first
    | with_reducible assumption
    | exact Sub.trans (by decide) hM
    | exact Sub.bit hM (by decide)
    | exact Sub.kind hM (by decide) _
    | (intro _; try dsimp only)
    | with_reducible apply State.wr_kept
    | with_reducible apply Kept.ite
    | with_reducible refine Kept.of_pair (by assumption) ?_
    | split

theorem State.aonRead_kept {M : Nat} {b : State} {q : List Instr} {s : State} (hs : Kept M b q s) (hM : Sub 0x100000000 M) : Kept M b q (State.aonRead s).1 := by
  unfold State.aonRead
  try dsimp only
  repeat' first
    | with_reducible assumption
    | exact Sub.trans (by decide) hM
    | exact Sub.bit hM (by decide)
    | exact Sub.kind hM (by decide) _
    | (intro _; try dsimp only)
    | with_reducible apply State.wr_kept
    | with_reducible apply Kept.ite
    | with_reducible refine Kept.of_pair (by assumption) ?_
    | split

theorem execAonRead_kept {M : Nat} {b : State} {q : List Instr} {who : Initiator} {s : State} (hs : Kept M b q s) (hM : Sub 0x1010001080C M) {r : State} (e : (execAonRead who s) = .next r) : Kept M b q r := by
  unfold execAonRead at e
  injection e with e; subst e
  try dsimp only
  repeat' first
    | with_reducible assumption
    | exact Sub.trans (by decide) hM
    | exact Sub.bit hM (by decide)
    | exact Sub.kind hM (by decide) _
    | (intro _; try dsimp only)
    | with_reducible apply State.aonRead_kept
    | with_reducible apply State.read_kept
    | with_reducible apply Kept.ite
    | with_reducible refine Kept.of_pair (by assumption) ?_
    | split

theorem execCrystalOscillationChange_kept {M : Nat} {b : State} {q : List Instr} {on : Bool} {s : State} (hs : Kept M b q s) (hM : Sub 0x100000000 M) {r : State} (e : (execCrystalOscillationChange on s) = .next r) : Kept M b q r := by
  unfold execCrystalOscillationChange at e
  injection e with e; subst e
  try dsimp only
  repeat' first
    | with_reducible assumption
    | exact Sub.trans (by decide) hM
    | exact Sub.bit hM (by decide)
    | exact Sub.kind hM (by decide) _
    | (intro _; try dsimp only)
    | with_reducible apply State.wr_kept
    | with_reducible apply Kept.ite
    | with_reducible refine Kept.of_pair (by assumption) ?_
    | split

theorem State.fuseProg_kept {M : Nat} {b : State} {q : List Instr} {s : State} {v : Word} (hs : Kept M b q s) (hM : Sub 0x200000020 M) : Kept M b q (State.fuseProg s v) := by
  unfold State.fuseProg
  try dsimp only
  repeat' first
    | with_reducible assumption
    | exact Sub.trans (by decide) hM
    | exact Sub.bit hM (by decide)
    | exact Sub.kind hM (by decide) _
    | (intro _; try dsimp only)
    | with_reducible apply State.wr_kept
    | with_reducible apply Kept.ite
    | with_reducible refine Kept.of_pair (by assumption) ?_
    | split
    | with_reducible refine Kept.set_gs ?_ ?_

theorem execFuseProgGo_kept {M : Nat} {b : State} {q : List Instr} {who : Initiator} {v : Word} {s : State} (hs : Kept M b q s) (hM : Sub 0x9020001082C M) {r : State} (e : (execFuseProgGo who v s) = .next r) : Kept M b q r := by
  unfold execFuseProgGo at e
  injection e with e; subst e
  try dsimp only
  repeat' first
    | with_reducible assumption
    | exact Sub.trans (by decide) hM
    | exact Sub.bit hM (by decide)
    | exact Sub.kind hM (by decide) _
    | (intro _; try dsimp only)
    | with_reducible apply State.fuseProg_kept
    | with_reducible apply State.write_kept
    | with_reducible apply Kept.ite
    | with_reducible refine Kept.of_pair (by assumption) ?_
    | split

theorem execFuseProgDone_kept {M : Nat} {b : State} {q : List Instr} {ok : Bool} {s : State} (hs : Kept M b q s) (hM : Sub 0x200000020 M) {r : State} (e : (execFuseProgDone ok s) = .next r) : Kept M b q r := by
  unfold execFuseProgDone at e
  injection e with e; subst e
  try dsimp only
  repeat' first
    | with_reducible assumption
    | exact Sub.trans (by decide) hM
    | exact Sub.bit hM (by decide)
    | exact Sub.kind hM (by decide) _
    | (intro _; try dsimp only)
    | with_reducible apply State.wr_kept
    | with_reducible apply Kept.ite
    | with_reducible refine Kept.of_pair (by assumption) ?_
    | split
    | with_reducible refine Kept.set_gs ?_ ?_

theorem execSupplyWarn_kept {M : Nat} {b : State} {q : List Instr} {supply : Fin 4} {s : State} (hs : Kept M b q s) (hM : Sub 0x10000000000828 M) {r : State} (e : (execSupplyWarn supply s) = .next r) : Kept M b q r := by
  unfold execSupplyWarn at e
  injection e with e; subst e
  try dsimp only
  repeat' first
    | with_reducible assumption
    | exact Sub.trans (by decide) hM
    | exact Sub.bit hM (by decide)
    | exact Sub.kind hM (by decide) _
    | (intro _; try dsimp only)
    | with_reducible apply State.raise_kept
    | with_reducible apply Kept.ite
    | with_reducible refine Kept.of_pair (by assumption) ?_
    | split
    | with_reducible refine Kept.set_gs ?_ ?_

end Sys2Proof.Machine
end

