-- ==== Sys2Proof/Laws/KeptFaults.lean ====
section
/-! SUPPORT. What the functions of Machine/Faults.lean keep (Laws/Kept.lean). -/
namespace Sys2Proof.Machine

theorem State.isoHold_kept {M : Nat} {b : State} {q : List Instr} {s : State} {x1 : IsoTarget} {detail : Nat} (hs : Kept M b q s) (hM : Sub 0xFFFFFF3FCFF86F M) : Kept M b q (State.isoHold s x1 detail) := by
  unfold State.isoHold
  try dsimp only
  repeat' first
    | with_reducible assumption
    | exact Sub.trans (by decide) hM
    | exact Sub.bit hM (by decide)
    | exact Sub.kind hM (by decide) _
    | (intro _; try dsimp only)
    | with_reducible apply bit_enPage
    | with_reducible apply bit_ecPage
    | with_reducible apply bit_clPage
    | with_reducible apply State.blockDown_kept
    | with_reducible apply State.clOff_kept
    | with_reducible apply State.fs_kept
    | with_reducible apply State.islandDown_kept
    | with_reducible apply State.migRequest_kept
    | with_reducible apply State.ppStop_kept
    | with_reducible apply State.refuseUnready_kept
    | with_reducible apply State.setState_kept
    | with_reducible apply Kept.ite
    | with_reducible refine Kept.of_pair (by assumption) ?_
    | split

theorem State.isolate_kept {M : Nat} {b : State} {q : List Instr} {s : State} {n : Nat} {detail : Nat} (hs : Kept M b q s) (hM : Sub 0xFFFFFF3FCFF87F M) : Kept M b q (State.isolate s n detail) := by
  unfold State.isolate
  try dsimp only
  repeat' first
    | with_reducible assumption
    | exact Sub.trans (by decide) hM
    | exact Sub.bit hM (by decide)
    | exact Sub.kind hM (by decide) _
    | (intro _; try dsimp only)
    | with_reducible apply bit_ringPage
    | with_reducible apply bit_lanePage
    | with_reducible apply State.fs_kept
    | with_reducible apply State.isoHold_kept
    | with_reducible apply State.setState_kept
    | with_reducible apply Kept.foldl
    | with_reducible apply Kept.foldlP
    | with_reducible apply Kept.ite
    | with_reducible refine Kept.of_pair (by assumption) ?_
    | split
    | with_reducible refine Kept.set_iso ?_ ?_

theorem State.isoRelease_kept {M : Nat} {b : State} {q : List Instr} {s : State} {n : Nat} (hs : Kept M b q s) (hM : Sub 0xFFFFFF00000858 M) : Kept M b q (State.isoRelease s n) := by
  unfold State.isoRelease
  try dsimp only
  repeat' first
    | with_reducible assumption
    | exact Sub.trans (by decide) hM
    | exact Sub.bit hM (by decide)
    | exact Sub.kind hM (by decide) _
    | (intro _; try dsimp only)
    | with_reducible apply State.fs_kept
    | with_reducible apply State.setIsl_kept
    | with_reducible apply State.setState_kept
    | with_reducible apply Kept.foldl
    | with_reducible apply Kept.foldlP
    | with_reducible apply Kept.ite
    | with_reducible refine Kept.of_pair (by assumption) ?_
    | split
    | with_reducible refine Kept.set_iso ?_ ?_

theorem State.ftCount_kept {M : Nat} {b : State} {q : List Instr} {s : State} {n : Nat} (hs : Kept M b q s) (hM : Sub 0x10000008000000 M) : Kept M b q (State.ftCount s n).1 := by
  unfold State.ftCount
  try dsimp only
  repeat' first
    | with_reducible assumption
    | exact Sub.trans (by decide) hM
    | exact Sub.bit hM (by decide)
    | exact Sub.kind hM (by decide) _
    | (intro _; try dsimp only)
    | with_reducible apply State.fs_kept
    | with_reducible apply State.inc_kept
    | with_reducible apply Kept.ite
    | with_reducible refine Kept.of_pair (by assumption) ?_
    | split
    | with_reducible refine Kept.set_ft ?_ ?_

theorem State.errStart_kept {M : Nat} {b : State} {q : List Instr} {s : State} (hs : Kept M b q s) (hM : Sub 0x10000000000020 M) : Kept M b q (State.errStart s) := by
  unfold State.errStart
  try dsimp only
  repeat' first
    | with_reducible assumption
    | exact Sub.trans (by decide) hM
    | exact Sub.bit hM (by decide)
    | exact Sub.kind hM (by decide) _
    | (intro _; try dsimp only)
    | with_reducible apply State.fs_kept
    | with_reducible apply Kept.ite
    | with_reducible refine Kept.of_pair (by assumption) ?_
    | split
    | with_reducible refine Kept.set_gs ?_ ?_

theorem State.reactReset_kept {M : Nat} {b : State} {q : List Instr} {s : State} {severe : Bool} {r : ResetReq} (hs : Kept M b q s) (hM : Sub 0xFFFFFF7FFFFBFF M) : Kept M b q (State.reactReset s severe r) := by
  unfold State.reactReset
  try dsimp only
  repeat' first
    | with_reducible assumption
    | exact Sub.trans (by decide) hM
    | exact Sub.bit hM (by decide)
    | exact Sub.kind hM (by decide) _
    | (intro _; try dsimp only)
    | with_reducible apply State.recognise_kept
    | with_reducible apply Kept.ite
    | with_reducible refine Kept.of_pair (by assumption) ?_
    | split
    | with_reducible refine Kept.set_gs ?_ ?_

theorem State.react_kept {M : Nat} {b : State} {q : List Instr} {s : State} {n : Nat} {detail : Nat} {code : Nat} {severe : Bool} (hs : Kept M b q s) (hM : Sub 0xFFFFFF7FFFFBFF M) : Kept M b q (State.react s n detail code severe) := by
  unfold State.react
  try dsimp only
  repeat' first
    | with_reducible assumption
    | exact Sub.trans (by decide) hM
    | exact Sub.bit hM (by decide)
    | exact Sub.kind hM (by decide) _
    | (intro _; try dsimp only)
    | with_reducible apply State.isolate_kept
    | with_reducible apply State.reactReset_kept
    | with_reducible apply State.twRelease_kept
    | with_reducible apply Kept.ite
    | with_reducible refine Kept.of_pair (by assumption) ?_
    | split

theorem State.ftEvent_kept {M : Nat} {b : State} {q : List Instr} {s : State} {n : Nat} {detail : Nat} (hs : Kept M b q s) (hM : Sub 0xFFFFFF7FFFFBFF M) : Kept M b q (State.ftEvent s n detail) := by
  unfold State.ftEvent
  try dsimp only
  repeat' first
    | with_reducible assumption
    | exact Sub.trans (by decide) hM
    | exact Sub.bit hM (by decide)
    | exact Sub.kind hM (by decide) _
    | (intro _; try dsimp only)
    | with_reducible apply State.errStart_kept
    | with_reducible apply State.ftCount_kept
    | with_reducible apply State.inc_kept
    | with_reducible apply State.raiseIf_kept
    | with_reducible apply State.react_kept
    | with_reducible apply State.wr_kept
    | with_reducible apply Kept.ite
    | with_reducible refine Kept.of_pair (by assumption) ?_
    | split

theorem execFaultEvent_kept {M : Nat} {b : State} {q : List Instr} {s : State} (hs : Kept M b q s) (hM : Sub 0xFFFFFF7FFFFBFF M) {r : State} (e : (execFaultEvent s) = .next r) : Kept M b q r := by
  unfold execFaultEvent at e
  injection e with e; subst e
  try dsimp only
  repeat' first
    | with_reducible assumption
    | exact Sub.trans (by decide) hM
    | exact Sub.bit hM (by decide)
    | exact Sub.kind hM (by decide) _
    | (intro _; try dsimp only)
    | with_reducible apply State.ftEvent_kept
    | with_reducible apply Kept.ite
    | with_reducible refine Kept.of_pair (by assumption) ?_
    | split
    | with_reducible refine Kept.set_faultQ ?_ ?_

theorem execErrPulseEnd_kept {M : Nat} {b : State} {q : List Instr} {s : State} (hs : Kept M b q s) (hM : Sub 0xFFFFFF7FFFFBFF M) {r : State} (e : (execErrPulseEnd s) = .next r) : Kept M b q r := by
  unfold execErrPulseEnd at e
  injection e with e; subst e
  try dsimp only
  repeat' first
    | with_reducible assumption
    | exact Sub.trans (by decide) hM
    | exact Sub.bit hM (by decide)
    | exact Sub.kind hM (by decide) _
    | (intro _; try dsimp only)
    | with_reducible apply State.fs_kept
    | with_reducible apply State.recognise_kept
    | with_reducible apply Kept.foldl
    | with_reducible apply Kept.foldlP
    | with_reducible apply Kept.ite
    | with_reducible refine Kept.of_pair (by assumption) ?_
    | split
    | with_reducible refine Kept.set_gs ?_ ?_

theorem State.ftReleaseWrite_kept {M : Nat} {b : State} {q : List Instr} {s : State} {v : Word} (hs : Kept M b q s) (hM : Sub 0xFFFFFF00000858 M) : Kept M b q (State.ftReleaseWrite s v) := by
  unfold State.ftReleaseWrite
  try dsimp only
  repeat' first
    | with_reducible assumption
    | exact Sub.trans (by decide) hM
    | exact Sub.bit hM (by decide)
    | exact Sub.kind hM (by decide) _
    | (intro _; try dsimp only)
    | with_reducible apply State.isoRelease_kept
    | with_reducible apply Kept.ite
    | with_reducible refine Kept.of_pair (by assumption) ?_
    | split

theorem execFtRelease_kept {M : Nat} {b : State} {q : List Instr} {who : Initiator} {v : Word} {s : State} (hs : Kept M b q s) (hM : Sub 0xFFFFFF0001085C M) {r : State} (e : (execFtRelease who v s) = .next r) : Kept M b q r := by
  unfold execFtRelease at e
  injection e with e; subst e
  try dsimp only
  repeat' first
    | with_reducible assumption
    | exact Sub.trans (by decide) hM
    | exact Sub.bit hM (by decide)
    | exact Sub.kind hM (by decide) _
    | (intro _; try dsimp only)
    | with_reducible apply State.ftReleaseWrite_kept
    | with_reducible apply State.write_kept
    | with_reducible apply Kept.ite
    | with_reducible refine Kept.of_pair (by assumption) ?_
    | split

theorem State.ftClrCnt_kept {M : Nat} {b : State} {q : List Instr} {s : State} (hs : Kept M b q s) (hM : Sub 0x10000000000000 M) : Kept M b q (State.ftClrCnt s) := by
  unfold State.ftClrCnt
  try dsimp only
  repeat' first
    | with_reducible assumption
    | exact Sub.trans (by decide) hM
    | exact Sub.bit hM (by decide)
    | exact Sub.kind hM (by decide) _
    | (intro _; try dsimp only)
    | with_reducible apply State.wr_kept
    | with_reducible apply Kept.foldl
    | with_reducible apply Kept.foldlP
    | with_reducible apply Kept.ite
    | with_reducible refine Kept.of_pair (by assumption) ?_
    | split

theorem execFtClrCnt_kept {M : Nat} {b : State} {q : List Instr} {who : Initiator} {s : State} (hs : Kept M b q s) (hM : Sub 0x1009000001082C M) {r : State} (e : (execFtClrCnt who s) = .next r) : Kept M b q r := by
  unfold execFtClrCnt at e
  injection e with e; subst e
  try dsimp only
  repeat' first
    | with_reducible assumption
    | exact Sub.trans (by decide) hM
    | exact Sub.bit hM (by decide)
    | exact Sub.kind hM (by decide) _
    | (intro _; try dsimp only)
    | with_reducible apply State.ftClrCnt_kept
    | with_reducible apply State.write_kept
    | with_reducible apply Kept.ite
    | with_reducible refine Kept.of_pair (by assumption) ?_
    | split
    | with_reducible refine Kept.set_gs ?_ ?_

theorem State.ftCtrlWrite_kept {M : Nat} {b : State} {q : List Instr} {s : State} {pre : Bool} {v : Word} (hs : Kept M b q s) (hM : Sub 0x10000000400829 M) : Kept M b q (State.ftCtrlWrite s pre v) := by
  unfold State.ftCtrlWrite
  try dsimp only
  repeat' first
    | with_reducible assumption
    | exact Sub.trans (by decide) hM
    | exact Sub.bit hM (by decide)
    | exact Sub.kind hM (by decide) _
    | (intro _; try dsimp only)
    | with_reducible apply State.ftClrCnt_kept
    | with_reducible apply State.plain_kept
    | with_reducible apply Kept.ite
    | with_reducible refine Kept.of_pair (by assumption) ?_
    | split
    | with_reducible refine Kept.set_gs ?_ ?_

theorem execThermalWarn_kept {M : Nat} {b : State} {q : List Instr} {tj : Int} {s : State} (hs : Kept M b q s) (hM : Sub 0x10000008000808 M) {r : State} (e : (execThermalWarn tj s) = .next r) : Kept M b q r := by
  unfold execThermalWarn at e
  injection e with e; subst e
  try dsimp only
  repeat' first
    | with_reducible assumption
    | exact Sub.trans (by decide) hM
    | exact Sub.bit hM (by decide)
    | exact Sub.kind hM (by decide) _
    | (intro _; try dsimp only)
    | with_reducible apply State.fs_kept
    | with_reducible apply State.raise_kept
    | with_reducible apply Kept.ite
    | with_reducible refine Kept.of_pair (by assumption) ?_
    | split
    | with_reducible refine Kept.set_ft ?_ ?_

theorem State.ftCommitted_kept {M : Nat} {b : State} {q : List Instr} {s : State} {x1 : State} (hs : Kept M b q s) (hx1 : Kept M b q x1) (hM : Sub 0x10000008000000 M) : Kept M b q (State.ftCommitted s x1) := by
  unfold State.ftCommitted
  try dsimp only
  repeat' first
    | with_reducible assumption
    | exact Sub.trans (by decide) hM
    | exact Sub.bit hM (by decide)
    | exact Sub.kind hM (by decide) _
    | (intro _; try dsimp only)
    | with_reducible apply State.fs_kept
    | with_reducible apply Kept.foldl
    | with_reducible apply Kept.foldlP
    | with_reducible apply Kept.ite
    | with_reducible refine Kept.of_pair (by assumption) ?_
    | split
    | with_reducible refine Kept.set_ft ?_ ?_

end Sys2Proof.Machine
end

