-- ==== Sys2Proof/Laws/KeptWear.lean ====
section
/-! SUPPORT. What the functions of Machine/Wear.lean keep (Laws/Kept.lean). -/
namespace Sys2Proof.Machine

theorem State.wearEvent_kept {M : Nat} {b : State} {q : List Instr} {s : State} {key : Nat} {kind : Nat} {unit : Nat} {act : State → State × Nat} (hs : Kept M b q s) (hact : ∀ t, Kept M b q t → Kept M b q (act t).1) (hM : Sub 0x20000010000808 M) : Kept M b q (State.wearEvent s key kind unit act) := by
  unfold State.wearEvent
  try dsimp only
  repeat' first
    | with_reducible assumption
    | apply hact
    | exact Sub.trans (by decide) hM
    | exact Sub.bit hM (by decide)
    | (intro _; try dsimp only)
    | exact Sub.kind hM (by decide) _
    | with_reducible apply State.inc_kept
    | with_reducible apply State.raise_kept
    | with_reducible apply State.raiseIf_kept
    | with_reducible apply State.wr_kept
    | with_reducible apply Kept.ite
    | with_reducible refine Kept.of_pair (by assumption) ?_
    | split
    | with_reducible refine Kept.set_wear ?_ ?_

theorem State.spareAct_kept {M : Nat} {b : State} {q : List Instr} {s : State} {en : Bool} {gone : Bool} {refused : Bool} {ask : State → State} (hs : Kept M b q s) (hask : ∀ t, Kept M b q t → Kept M b q (ask t)) (hM : Sub 0x0 M) : Kept M b q (State.spareAct s en gone refused ask).1 := by
  unfold State.spareAct
  try dsimp only
  repeat' first
    | with_reducible assumption
    | apply hask
    | exact Sub.trans (by decide) hM
    | exact Sub.bit hM (by decide)
    | (intro _; try dsimp only)
    | exact Sub.kind hM (by decide) _
    | with_reducible apply Kept.ite
    | with_reducible refine Kept.of_pair (by assumption) ?_
    | split

theorem State.wearLane_kept {M : Nat} {b : State} {q : List Instr} {s : State} {p : RingPort} {l : Nat} (hs : Kept M b q s) (hM : Sub 0x80800002808 M) : Kept M b q (State.wearLane s p l).1 := by
  unfold State.wearLane
  try dsimp only
  repeat' first
    | with_reducible assumption
    | exact Sub.trans (by decide) hM
    | exact Sub.bit hM (by decide)
    | exact Sub.kind hM (by decide) _
    | (intro _; try dsimp only)
    | with_reducible apply bit_ringPage
    | with_reducible apply bit_lanePage
    | with_reducible apply State.requestSub_kept
    | with_reducible apply State.spareAct_kept
    | with_reducible apply State.spareLost_kept
    | with_reducible apply Kept.ite
    | with_reducible refine Kept.of_pair (by assumption) ?_
    | split

theorem State.wearEngine_kept {M : Nat} {b : State} {q : List Instr} {s : State} {g : Nat} (hs : Kept M b q s) (hM : Sub 0x1800000040809 M) : Kept M b q (State.wearEngine s g).1 := by
  unfold State.wearEngine
  try dsimp only
  repeat' first
    | with_reducible assumption
    | exact Sub.trans (by decide) hM
    | exact Sub.bit hM (by decide)
    | exact Sub.kind hM (by decide) _
    | (intro _; try dsimp only)
    | with_reducible apply bit_ecPage
    | with_reducible apply State.fs_kept
    | with_reducible apply State.migRequest_kept
    | with_reducible apply State.spareAct_kept
    | with_reducible apply Kept.ite
    | with_reducible refine Kept.of_pair (by assumption) ?_
    | split

theorem State.wearRow_kept {M : Nat} {b : State} {q : List Instr} {s : State} {x1 : Nat} {row : Nat} (hs : Kept M b q s) (hM : Sub 0x4000 M) : Kept M b q (State.wearRow s x1 row).1 := by
  unfold State.wearRow
  try dsimp only
  repeat' first
    | with_reducible assumption
    | exact Sub.trans (by decide) hM
    | exact Sub.bit hM (by decide)
    | exact Sub.kind hM (by decide) _
    | (intro _; try dsimp only)
    | with_reducible apply State.spareAct_kept
    | with_reducible apply Kept.ite
    | with_reducible refine Kept.of_pair (by assumption) ?_
    | split
    | with_reducible refine Kept.set_mem ?_ ?_

theorem State.wearBank_kept {M : Nat} {b : State} {q : List Instr} {s : State} {x1 : Nat} (hs : Kept M b q s) (hM : Sub 0x2000001808 M) : Kept M b q (State.wearBank s x1).1 := by
  unfold State.wearBank
  try dsimp only
  repeat' first
    | with_reducible assumption
    | exact Sub.trans (by decide) hM
    | exact Sub.bit hM (by decide)
    | exact Sub.kind hM (by decide) _
    | (intro _; try dsimp only)
    | with_reducible apply State.requestSpare_kept
    | with_reducible apply State.spareAct_kept
    | with_reducible apply Kept.ite
    | with_reducible refine Kept.of_pair (by assumption) ?_
    | split

theorem State.refMove_kept {M : Nat} {b : State} {q : List Instr} {s : State} {r : Nat} (hs : Kept M b q s) (hM : Sub 0x20000000000808 M) : Kept M b q (State.refMove s r) := by
  unfold State.refMove
  try dsimp only
  repeat' first
    | with_reducible assumption
    | exact Sub.trans (by decide) hM
    | exact Sub.bit hM (by decide)
    | exact Sub.kind hM (by decide) _
    | (intro _; try dsimp only)
    | with_reducible apply State.fs_kept
    | with_reducible apply State.raise_kept
    | with_reducible apply Kept.ite
    | with_reducible refine Kept.of_pair (by assumption) ?_
    | split

theorem State.refLeave_kept {M : Nat} {b : State} {q : List Instr} {s : State} (hs : Kept M b q s) (hM : Sub 0x20000000000808 M) : Kept M b q (State.refLeave s) := by
  unfold State.refLeave
  try dsimp only
  repeat' first
    | with_reducible assumption
    | exact Sub.trans (by decide) hM
    | exact Sub.bit hM (by decide)
    | exact Sub.kind hM (by decide) _
    | (intro _; try dsimp only)
    | with_reducible apply State.refMove_kept
    | with_reducible apply Kept.ite
    | with_reducible refine Kept.of_pair (by assumption) ?_
    | split

theorem State.refFailed_kept {M : Nat} {b : State} {q : List Instr} {s : State} {r : Nat} (hs : Kept M b q s) (hM : Sub 0x20000010000808 M) : Kept M b q (State.refFailed s r) := by
  unfold State.refFailed
  try dsimp only
  repeat' first
    | with_reducible assumption
    | exact Sub.trans (by decide) hM
    | exact Sub.bit hM (by decide)
    | exact Sub.kind hM (by decide) _
    | (intro _; try dsimp only)
    | with_reducible apply State.fs_kept
    | with_reducible apply State.raise_kept
    | with_reducible apply State.refLeave_kept
    | with_reducible apply Kept.ite
    | with_reducible refine Kept.of_pair (by assumption) ?_
    | split
    | with_reducible refine Kept.set_wear ?_ ?_

theorem State.refDrifts_kept {M : Nat} {b : State} {q : List Instr} {s : State} {r : Nat} (hs : Kept M b q s) (hM : Sub 0x20000000000000 M) : Kept M b q (State.refDrifts s r) := by
  unfold State.refDrifts
  try dsimp only
  repeat' first
    | with_reducible assumption
    | exact Sub.trans (by decide) hM
    | exact Sub.bit hM (by decide)
    | exact Sub.kind hM (by decide) _
    | (intro _; try dsimp only)
    | with_reducible apply State.fs_kept
    | with_reducible apply Kept.ite
    | with_reducible refine Kept.of_pair (by assumption) ?_
    | split

theorem State.wearRef_kept {M : Nat} {b : State} {q : List Instr} {s : State} {r : Nat} (hs : Kept M b q s) (hM : Sub 0x20000000000808 M) : Kept M b q (State.wearRef s r).1 := by
  unfold State.wearRef
  try dsimp only
  repeat' first
    | with_reducible assumption
    | exact Sub.trans (by decide) hM
    | exact Sub.bit hM (by decide)
    | exact Sub.kind hM (by decide) _
    | (intro _; try dsimp only)
    | with_reducible apply State.inc_kept
    | with_reducible apply State.refLeave_kept
    | with_reducible apply State.spareAct_kept
    | with_reducible apply Kept.ite
    | with_reducible refine Kept.of_pair (by assumption) ?_
    | split

theorem execReferenceFail_kept {M : Nat} {b : State} {q : List Instr} {ref : Fin 2} {drift : Bool} {s : State} (hs : Kept M b q s) (hM : Sub 0x20000010000808 M) {r : State} (e : (execReferenceFail ref drift s) = .next r) : Kept M b q r := by
  unfold execReferenceFail at e
  injection e with e; subst e
  try dsimp only
  repeat' first
    | with_reducible assumption
    | exact Sub.trans (by decide) hM
    | exact Sub.bit hM (by decide)
    | exact Sub.kind hM (by decide) _
    | (intro _; try dsimp only)
    | with_reducible apply State.refDrifts_kept
    | with_reducible apply State.refFailed_kept
    | with_reducible apply State.refLeave_kept
    | with_reducible apply Kept.ite
    | with_reducible refine Kept.of_pair (by assumption) ?_
    | split

theorem State.refCmd_kept {M : Nat} {b : State} {q : List Instr} {s : State} {v : Word} (hs : Kept M b q s) (hM : Sub 0x20000000000808 M) : Kept M b q (State.refCmd s v) := by
  unfold State.refCmd
  try dsimp only
  repeat' first
    | with_reducible assumption
    | exact Sub.trans (by decide) hM
    | exact Sub.bit hM (by decide)
    | exact Sub.kind hM (by decide) _
    | (intro _; try dsimp only)
    | with_reducible apply State.refMove_kept
    | with_reducible apply Kept.ite
    | with_reducible refine Kept.of_pair (by assumption) ?_
    | split

theorem execWrRefCmd_kept {M : Nat} {b : State} {q : List Instr} {who : Initiator} {v : Word} {s : State} (hs : Kept M b q s) (hM : Sub 0x2009000001080C M) {r : State} (e : (execWrRefCmd who v s) = .next r) : Kept M b q r := by
  unfold execWrRefCmd at e
  injection e with e; subst e
  try dsimp only
  repeat' first
    | with_reducible assumption
    | exact Sub.trans (by decide) hM
    | exact Sub.bit hM (by decide)
    | exact Sub.kind hM (by decide) _
    | (intro _; try dsimp only)
    | with_reducible apply State.refCmd_kept
    | with_reducible apply State.write_kept
    | with_reducible apply Kept.ite
    | with_reducible refine Kept.of_pair (by assumption) ?_
    | split

theorem State.setOnSpare_kept {M : Nat} {b : State} {q : List Instr} {s : State} {k : Nat} {x2 : Bool} (hs : Kept M b q s) (hM : Sub 0x20000000000000 M) : Kept M b q (State.setOnSpare s k x2) := by
  unfold State.setOnSpare
  try dsimp only
  repeat' first
    | with_reducible assumption
    | exact Sub.trans (by decide) hM
    | exact Sub.bit hM (by decide)
    | exact Sub.kind hM (by decide) _
    | (intro _; try dsimp only)
    | with_reducible apply State.fs_kept
    | with_reducible apply Kept.ite
    | with_reducible refine Kept.of_pair (by assumption) ?_
    | split

theorem State.setSpareBad_kept {M : Nat} {b : State} {q : List Instr} {s : State} {k : Nat} (hs : Kept M b q s) (hM : Sub 0x20000000000000 M) : Kept M b q (State.setSpareBad s k) := by
  unfold State.setSpareBad
  try dsimp only
  repeat' first
    | with_reducible assumption
    | exact Sub.trans (by decide) hM
    | exact Sub.bit hM (by decide)
    | exact Sub.kind hM (by decide) _
    | (intro _; try dsimp only)
    | with_reducible apply State.fs_kept
    | with_reducible apply Kept.ite
    | with_reducible refine Kept.of_pair (by assumption) ?_
    | split

theorem State.pllSwitch_kept {M : Nat} {b : State} {q : List Instr} {s : State} {k : Nat} {spare : Bool} (hs : Kept M b q s) (hM : Sub 0x20000000000808 M) : Kept M b q (State.pllSwitch s k spare) := by
  unfold State.pllSwitch
  try dsimp only
  repeat' first
    | with_reducible assumption
    | exact Sub.trans (by decide) hM
    | exact Sub.bit hM (by decide)
    | exact Sub.kind hM (by decide) _
    | (intro _; try dsimp only)
    | with_reducible apply State.raise_kept
    | with_reducible apply State.setOnSpare_kept
    | with_reducible apply Kept.ite
    | with_reducible refine Kept.of_pair (by assumption) ?_
    | split

theorem State.pllHold_kept {M : Nat} {b : State} {q : List Instr} {s : State} {k : Nat} (hs : Kept M b q s) (hM : Sub 0xFFFFFF3FCFF86F M) : Kept M b q (State.pllHold s k) := by
  unfold State.pllHold
  try dsimp only
  repeat' first
    | with_reducible assumption
    | exact Sub.trans (by decide) hM
    | exact Sub.bit hM (by decide)
    | exact Sub.kind hM (by decide) _
    | (intro _; try dsimp only)
    | with_reducible apply State.islandDown_kept
    | with_reducible apply State.raise_kept
    | with_reducible apply State.setIsl_kept
    | with_reducible apply Kept.foldl
    | with_reducible apply Kept.foldlP
    | with_reducible apply Kept.ite
    | with_reducible refine Kept.of_pair (by assumption) ?_
    | split

theorem execPllLockLoss_kept {M : Nat} {b : State} {q : List Instr} {pll : Fin 13} {spare : Bool} {s : State} (hs : Kept M b q s) (hM : Sub 0xFFFFFF3FCFF9EF M) {r : State} (e : (execPllLockLoss pll spare s) = .next r) : Kept M b q r := by
  unfold execPllLockLoss at e
  injection e with e; subst e
  try dsimp only
  repeat' first
    | with_reducible assumption
    | exact Sub.trans (by decide) hM
    | exact Sub.bit hM (by decide)
    | exact Sub.kind hM (by decide) _
    | (intro _; try dsimp only)
    | with_reducible apply State.pllHold_kept
    | with_reducible apply State.pllSwitch_kept
    | with_reducible apply State.setSpareBad_kept
    | with_reducible apply Kept.ite
    | with_reducible refine Kept.of_pair (by assumption) ?_
    | split
    | with_reducible refine Kept.set_pll ?_ ?_
    | with_reducible refine Kept.set_spll ?_ ?_
    | (refine Kept.upd (s := ?_) ?_ ?_ ?_ ?_ ?_ ?_ ?_ ?_ ?_ ?_ ?_ ?_ ?_ ?_ ?_ ?_ ?_ ?_ ?_ ?_ ?_ ?_ ?_ ?_ ?_ ?_ ?_ ?_ ?_ ?_ ?_ <;> first | rfl | exact Or.inl rfl | exact Or.inr (hM.bit (by decide)) | skip)

theorem execPllRelock_kept {M : Nat} {b : State} {q : List Instr} {pll : Fin 13} {spare : Bool} {s : State} (hs : Kept M b q s) (hM : Sub 0x2008880000ADE8 M) {r : State} (e : (execPllRelock pll spare s) = .next r) : Kept M b q r := by
  unfold execPllRelock at e
  injection e with e; subst e
  try dsimp only
  repeat' first
    | with_reducible assumption
    | exact Sub.trans (by decide) hM
    | exact Sub.bit hM (by decide)
    | exact Sub.kind hM (by decide) _
    | (intro _; try dsimp only)
    | with_reducible apply State.releaseIsland_kept
    | with_reducible apply State.setOnSpare_kept
    | with_reducible apply Kept.foldl
    | with_reducible apply Kept.foldlP
    | with_reducible apply Kept.ite
    | with_reducible refine Kept.of_pair (by assumption) ?_
    | split
    | with_reducible refine Kept.set_pll ?_ ?_
    | with_reducible refine Kept.set_spll ?_ ?_
    | (refine Kept.upd (s := ?_) ?_ ?_ ?_ ?_ ?_ ?_ ?_ ?_ ?_ ?_ ?_ ?_ ?_ ?_ ?_ ?_ ?_ ?_ ?_ ?_ ?_ ?_ ?_ ?_ ?_ ?_ ?_ ?_ ?_ ?_ ?_ <;> first | rfl | exact Or.inl rfl | exact Or.inr (hM.bit (by decide)) | skip)

theorem State.pllCmd_kept {M : Nat} {b : State} {q : List Instr} {s : State} {v : Word} (hs : Kept M b q s) (hM : Sub 0x20000000000808 M) : Kept M b q (State.pllCmd s v) := by
  unfold State.pllCmd
  try dsimp only
  repeat' first
    | with_reducible assumption
    | exact Sub.trans (by decide) hM
    | exact Sub.bit hM (by decide)
    | exact Sub.kind hM (by decide) _
    | (intro _; try dsimp only)
    | with_reducible apply State.pllSwitch_kept
    | with_reducible apply Kept.ite
    | with_reducible refine Kept.of_pair (by assumption) ?_
    | split

theorem execWrPllCmd_kept {M : Nat} {b : State} {q : List Instr} {who : Initiator} {v : Word} {s : State} (hs : Kept M b q s) (hM : Sub 0x2009000001080C M) {r : State} (e : (execWrPllCmd who v s) = .next r) : Kept M b q r := by
  unfold execWrPllCmd at e
  injection e with e; subst e
  try dsimp only
  repeat' first
    | with_reducible assumption
    | exact Sub.trans (by decide) hM
    | exact Sub.bit hM (by decide)
    | exact Sub.kind hM (by decide) _
    | (intro _; try dsimp only)
    | with_reducible apply State.pllCmd_kept
    | with_reducible apply State.write_kept
    | with_reducible apply Kept.ite
    | with_reducible refine Kept.of_pair (by assumption) ?_
    | split

theorem State.wearPll_kept {M : Nat} {b : State} {q : List Instr} {s : State} {k : Nat} {spare : Bool} (hs : Kept M b q s) (hM : Sub 0x20000000000808 M) : Kept M b q (State.wearPll s k spare).1 := by
  unfold State.wearPll
  try dsimp only
  repeat' first
    | with_reducible assumption
    | exact Sub.trans (by decide) hM
    | exact Sub.bit hM (by decide)
    | exact Sub.kind hM (by decide) _
    | (intro _; try dsimp only)
    | with_reducible apply State.inc_kept
    | with_reducible apply State.pllSwitch_kept
    | with_reducible apply State.setSpareBad_kept
    | with_reducible apply State.spareAct_kept
    | with_reducible apply Kept.ite
    | with_reducible refine Kept.of_pair (by assumption) ?_
    | split

theorem State.wearRun_kept {M : Nat} {b : State} {q : List Instr} {s : State} {key : Nat} {low : Bool} (hs : Kept M b q s) (hM : Sub 0x10000000 M) : Kept M b q (State.wearRun s key low).1 := by
  unfold State.wearRun
  try dsimp only
  repeat' first
    | with_reducible assumption
    | exact Sub.trans (by decide) hM
    | exact Sub.bit hM (by decide)
    | exact Sub.kind hM (by decide) _
    | (intro _; try dsimp only)
    | with_reducible apply Kept.ite
    | with_reducible refine Kept.of_pair (by assumption) ?_
    | split
    | with_reducible refine Kept.set_wear ?_ ?_

theorem reported_kept {M : Nat} {b : State} {q : List Instr} {s : State} (hs : Kept M b q s) (hM : Sub 0x0 M) : Kept M b q (reported s).1 := by
  unfold reported
  try dsimp only
  repeat' first
    | with_reducible assumption
    | exact Sub.trans (by decide) hM
    | exact Sub.bit hM (by decide)
    | exact Sub.kind hM (by decide) _
    | (intro _; try dsimp only)
    | with_reducible apply Kept.ite
    | with_reducible refine Kept.of_pair (by assumption) ?_
    | split

theorem State.sentinel_kept {M : Nat} {b : State} {q : List Instr} {s : State} {a : Sentinel} (hs : Kept M b q s) (hM : Sub 0xFFFFFF50047809 M) : Kept M b q (State.sentinel s a) := by
  unfold State.sentinel
  try dsimp only
  repeat' first
    | with_reducible assumption
    | exact Sub.trans (by decide) hM
    | exact Sub.bit hM (by decide)
    | exact Sub.kind hM (by decide) _
    | (intro _; try dsimp only)
    | with_reducible apply bit_ppPage
    | with_reducible apply bit_ringPage
    | with_reducible apply bit_lanePage
    | with_reducible apply State.fs_kept
    | with_reducible apply State.refDrifts_kept
    | with_reducible apply reported_kept
    | with_reducible apply State.tookFree_kept
    | with_reducible apply State.wearBank_kept
    | with_reducible apply State.wearEngine_kept
    | with_reducible apply State.wearEvent_kept
    | with_reducible apply State.wearLane_kept
    | with_reducible apply State.wearPll_kept
    | with_reducible apply State.wearRef_kept
    | with_reducible apply State.wearRow_kept
    | with_reducible apply State.wearRun_kept
    | with_reducible apply Kept.ite
    | with_reducible refine Kept.of_pair (by assumption) ?_
    | split

theorem execSentinelMeasure_kept {M : Nat} {b : State} {q : List Instr} {m : Sentinel} {s : State} (hs : Kept M b q s) (hM : Sub 0xFFFFFF50047809 M) {r : State} (e : (execSentinelMeasure m s) = .next r) : Kept M b q r := by
  unfold execSentinelMeasure at e
  injection e with e; subst e
  try dsimp only
  repeat' first
    | with_reducible assumption
    | exact Sub.trans (by decide) hM
    | exact Sub.bit hM (by decide)
    | exact Sub.kind hM (by decide) _
    | (intro _; try dsimp only)
    | with_reducible apply State.sentinel_kept
    | with_reducible apply Kept.ite
    | with_reducible refine Kept.of_pair (by assumption) ?_
    | split

theorem State.blCapture_kept {M : Nat} {b : State} {q : List Instr} {s : State} (hs : Kept M b q s) (hM : Sub 0x20000000000000 M) : Kept M b q (State.blCapture s) := by
  unfold State.blCapture
  try dsimp only
  repeat' first
    | with_reducible assumption
    | exact Sub.trans (by decide) hM
    | exact Sub.bit hM (by decide)
    | exact Sub.kind hM (by decide) _
    | (intro _; try dsimp only)
    | with_reducible apply State.fs_kept
    | with_reducible apply Kept.ite
    | with_reducible refine Kept.of_pair (by assumption) ?_
    | split

theorem State.blStore_kept {M : Nat} {b : State} {q : List Instr} {s : State} (hs : Kept M b q s) (hM : Sub 0x20000010000000 M) : Kept M b q (State.blStore s) := by
  unfold State.blStore
  try dsimp only
  repeat' first
    | with_reducible assumption
    | exact Sub.trans (by decide) hM
    | exact Sub.bit hM (by decide)
    | exact Sub.kind hM (by decide) _
    | (intro _; try dsimp only)
    | with_reducible apply State.fs_kept
    | with_reducible apply State.store_kept
    | with_reducible apply Kept.ite
    | with_reducible refine Kept.of_pair (by assumption) ?_
    | split
    | with_reducible refine Kept.set_wear ?_ ?_

theorem State.blStored_kept {M : Nat} {b : State} {q : List Instr} {s : State} {j : UpJob} (hs : Kept M b q s) (hM : Sub 0x20000010000A08 M) : Kept M b q (State.blStored s j) := by
  unfold State.blStored
  try dsimp only
  repeat' first
    | with_reducible assumption
    | exact Sub.trans (by decide) hM
    | exact Sub.bit hM (by decide)
    | exact Sub.kind hM (by decide) _
    | (intro _; try dsimp only)
    | with_reducible apply State.fs_kept
    | with_reducible apply State.loadBaselines_kept
    | with_reducible apply State.mwr_kept
    | with_reducible apply State.store_kept
    | with_reducible apply Kept.ite
    | with_reducible refine Kept.of_pair (by assumption) ?_
    | split
    | with_reducible refine Kept.set_wear ?_ ?_

theorem execBlDone_kept {M : Nat} {b : State} {q : List Instr} {tj : Int} {means : List (Nat × Nat)} {ok : Bool} {s : State} (hs : Kept M b q s) (hM : Sub 0x20000050000A08 M) {r : State} (e : (execBlDone tj means ok s) = .next r) : Kept M b q r := by
  unfold execBlDone at e
  injection e with e; subst e
  try dsimp only
  repeat' first
    | with_reducible assumption
    | exact Sub.trans (by decide) hM
    | exact Sub.bit hM (by decide)
    | exact Sub.kind hM (by decide) _
    | (intro _; try dsimp only)
    | with_reducible apply State.blStored_kept
    | with_reducible apply State.cutWords_kept
    | with_reducible apply State.fs_kept
    | with_reducible apply State.raise_kept
    | with_reducible apply State.store_kept
    | with_reducible apply Kept.ite
    | with_reducible refine Kept.of_pair (by assumption) ?_
    | split
    | with_reducible refine Kept.set_wear ?_ ?_

theorem State.wearClr_kept {M : Nat} {b : State} {q : List Instr} {s : State} (hs : Kept M b q s) (hM : Sub 0x10000000 M) : Kept M b q (State.wearClr s) := by
  unfold State.wearClr
  try dsimp only
  repeat' first
    | with_reducible assumption
    | exact Sub.trans (by decide) hM
    | exact Sub.bit hM (by decide)
    | exact Sub.kind hM (by decide) _
    | (intro _; try dsimp only)
    | with_reducible apply Kept.ite
    | with_reducible refine Kept.of_pair (by assumption) ?_
    | split
    | with_reducible refine Kept.set_wear ?_ ?_

theorem State.wrClrCnt_kept {M : Nat} {b : State} {q : List Instr} {s : State} (hs : Kept M b q s) (hM : Sub 0x20000000000000 M) : Kept M b q (State.wrClrCnt s) := by
  unfold State.wrClrCnt
  try dsimp only
  repeat' first
    | with_reducible assumption
    | exact Sub.trans (by decide) hM
    | exact Sub.bit hM (by decide)
    | exact Sub.kind hM (by decide) _
    | (intro _; try dsimp only)
    | with_reducible apply State.wr_kept
    | with_reducible apply Kept.ite
    | with_reducible refine Kept.of_pair (by assumption) ?_
    | split

theorem State.wrCmdWrite_kept {M : Nat} {b : State} {q : List Instr} {s : State} {v : Word} (hs : Kept M b q s) (hM : Sub 0x20000010000000 M) : Kept M b q (State.wrCmdWrite s v) := by
  unfold State.wrCmdWrite
  try dsimp only
  repeat' first
    | with_reducible assumption
    | exact Sub.trans (by decide) hM
    | exact Sub.bit hM (by decide)
    | exact Sub.kind hM (by decide) _
    | (intro _; try dsimp only)
    | with_reducible apply State.blCapture_kept
    | with_reducible apply State.blStore_kept
    | with_reducible apply State.wearClr_kept
    | with_reducible apply State.wrClrCnt_kept
    | with_reducible apply Kept.ite
    | with_reducible refine Kept.of_pair (by assumption) ?_
    | split

theorem execWrCapture_kept {M : Nat} {b : State} {q : List Instr} {who : Initiator} {s : State} (hs : Kept M b q s) (hM : Sub 0x2009000001080C M) {r : State} (e : (execWrCapture who s) = .next r) : Kept M b q r := by
  unfold execWrCapture at e
  injection e with e; subst e
  try dsimp only
  repeat' first
    | with_reducible assumption
    | exact Sub.trans (by decide) hM
    | exact Sub.bit hM (by decide)
    | exact Sub.kind hM (by decide) _
    | (intro _; try dsimp only)
    | with_reducible apply State.blCapture_kept
    | with_reducible apply State.write_kept
    | with_reducible apply Kept.ite
    | with_reducible refine Kept.of_pair (by assumption) ?_
    | split

theorem execWrStore_kept {M : Nat} {b : State} {q : List Instr} {who : Initiator} {s : State} (hs : Kept M b q s) (hM : Sub 0x2009001001080C M) {r : State} (e : (execWrStore who s) = .next r) : Kept M b q r := by
  unfold execWrStore at e
  injection e with e; subst e
  try dsimp only
  repeat' first
    | with_reducible assumption
    | exact Sub.trans (by decide) hM
    | exact Sub.bit hM (by decide)
    | exact Sub.kind hM (by decide) _
    | (intro _; try dsimp only)
    | with_reducible apply State.blStore_kept
    | with_reducible apply State.write_kept
    | with_reducible apply Kept.ite
    | with_reducible refine Kept.of_pair (by assumption) ?_
    | split

theorem execWearClr_kept {M : Nat} {b : State} {q : List Instr} {who : Initiator} {s : State} (hs : Kept M b q s) (hM : Sub 0x9001001080C M) {r : State} (e : (execWearClr who s) = .next r) : Kept M b q r := by
  unfold execWearClr at e
  injection e with e; subst e
  try dsimp only
  repeat' first
    | with_reducible assumption
    | exact Sub.trans (by decide) hM
    | exact Sub.bit hM (by decide)
    | exact Sub.kind hM (by decide) _
    | (intro _; try dsimp only)
    | with_reducible apply State.wearClr_kept
    | with_reducible apply State.write_kept
    | with_reducible apply Kept.ite
    | with_reducible refine Kept.of_pair (by assumption) ?_
    | split

theorem execWrClrCnt_kept {M : Nat} {b : State} {q : List Instr} {who : Initiator} {s : State} (hs : Kept M b q s) (hM : Sub 0x2009000001080C M) {r : State} (e : (execWrClrCnt who s) = .next r) : Kept M b q r := by
  unfold execWrClrCnt at e
  injection e with e; subst e
  try dsimp only
  repeat' first
    | with_reducible assumption
    | exact Sub.trans (by decide) hM
    | exact Sub.bit hM (by decide)
    | exact Sub.kind hM (by decide) _
    | (intro _; try dsimp only)
    | with_reducible apply State.wrClrCnt_kept
    | with_reducible apply State.write_kept
    | with_reducible apply Kept.ite
    | with_reducible refine Kept.of_pair (by assumption) ?_
    | split

end Sys2Proof.Machine
end

