-- ==== Sys2Proof/Laws/KeptBlocks.lean ====
section
/-! SUPPORT. What the functions of Machine/Blocks.lean keep (Laws/Kept.lean). -/
namespace Sys2Proof.Machine

theorem State.regrant_kept {M : Nat} {b : State} {q : List Instr} {p : LanePort} {x1 : State} {s : State} {c : Cls} (hx1 : Kept M b q x1) (hs : Kept M b q s) (hM : Sub 0x2000 M) : Kept M b q (State.regrant p x1 s c) := by
  unfold State.regrant
  try dsimp only
  repeat' first
    | with_reducible assumption
    | exact Sub.trans (by decide) hM
    | exact Sub.bit hM (by decide)
    | exact Sub.kind hM (by decide) _
    | (intro _; try dsimp only)
    | with_reducible apply bit_ringPage
    | with_reducible apply bit_lanePage
    | with_reducible apply State.setCr_kept
    | with_reducible apply Kept.ite
    | with_reducible refine Kept.of_pair (by assumption) ?_
    | split

theorem State.rcCommitted_kept {M : Nat} {b : State} {q : List Instr} {s : State} {x1 : State} (hs : Kept M b q s) (hx1 : Kept M b q x1) (hM : Sub 0x82800003808 M) : Kept M b q (State.rcCommitted s x1) := by
  unfold State.rcCommitted
  try dsimp only
  repeat' first
    | with_reducible assumption
    | exact Sub.trans (by decide) hM
    | exact Sub.bit hM (by decide)
    | exact Sub.kind hM (by decide) _
    | (intro _; try dsimp only)
    | with_reducible apply State.fences_kept
    | with_reducible apply Kept.ite
    | with_reducible refine Kept.of_pair (by assumption) ?_
    | split

theorem State.enCommitted_kept {M : Nat} {b : State} {q : List Instr} {s : State} {x1 : State} {p : Nat} (hs : Kept M b q s) (hx1 : Kept M b q x1) (hM : Sub 0x1000000040808 M) : Kept M b q (State.enCommitted s x1 p) := by
  unfold State.enCommitted
  try dsimp only
  repeat' first
    | with_reducible assumption
    | exact Sub.trans (by decide) hM
    | exact Sub.bit hM (by decide)
    | exact Sub.kind hM (by decide) _
    | (intro _; try dsimp only)
    | with_reducible apply bit_enOf
    | with_reducible apply State.diTurn_kept
    | with_reducible apply State.fs_kept
    | with_reducible apply State.pbTurn_kept
    | with_reducible apply State.place_kept
    | with_reducible apply State.reIdle_kept
    | with_reducible apply State.setChan_kept
    | with_reducible apply State.ttInit_kept
    | with_reducible apply Kept.ite
    | with_reducible refine Kept.of_pair (by assumption) ?_
    | split

theorem State.smCommitted_kept {M : Nat} {b : State} {q : List Instr} {s : State} {x1 : State} {p : Nat} (hs : Kept M b q s) (hx1 : Kept M b q x1) (hM : Sub 0x1000000040000 M) : Kept M b q (State.smCommitted s x1 p) := by
  unfold State.smCommitted
  try dsimp only
  repeat' first
    | with_reducible assumption
    | exact Sub.trans (by decide) hM
    | exact Sub.bit hM (by decide)
    | exact Sub.kind hM (by decide) _
    | (intro _; try dsimp only)
    | with_reducible apply State.ttInit_kept
    | with_reducible apply Kept.ite
    | with_reducible refine Kept.of_pair (by assumption) ?_
    | split

theorem State.brCommitted_kept {M : Nat} {b : State} {q : List Instr} {s : State} {x1 : State} (hs : Kept M b q s) (hx1 : Kept M b q x1) (hM : Sub 0x1000000 M) : Kept M b q (State.brCommitted s x1) := by
  unfold State.brCommitted
  try dsimp only
  repeat' first
    | with_reducible assumption
    | exact Sub.trans (by decide) hM
    | exact Sub.bit hM (by decide)
    | exact Sub.kind hM (by decide) _
    | (intro _; try dsimp only)
    | with_reducible apply Kept.ite
    | with_reducible refine Kept.of_pair (by assumption) ?_
    | split
    | with_reducible refine Kept.set_br ?_ ?_

theorem State.clCommitted_kept {M : Nat} {b : State} {q : List Instr} {s : State} {n : Nat} (hs : Kept M b q s) (hM : Sub 0x20000 M) : Kept M b q (State.clCommitted s n) := by
  unfold State.clCommitted
  try dsimp only
  repeat' first
    | with_reducible assumption
    | exact Sub.trans (by decide) hM
    | exact Sub.bit hM (by decide)
    | exact Sub.kind hM (by decide) _
    | (intro _; try dsimp only)
    | with_reducible apply State.setCard_kept
    | with_reducible apply Kept.ite
    | with_reducible refine Kept.of_pair (by assumption) ?_
    | split

theorem State.committed_kept {M : Nat} {b : State} {q : List Instr} {s : State} {x1 : State} {p : Nat} (hs : Kept M b q s) (hx1 : Kept M b q x1) (hM : Sub 0x1138A80987B808 M) : Kept M b q (State.committed s x1 p) := by
  unfold State.committed
  try dsimp only
  repeat' first
    | with_reducible assumption
    | exact Sub.trans (by decide) hM
    | exact Sub.bit hM (by decide)
    | exact Sub.kind hM (by decide) _
    | (intro _; try dsimp only)
    | with_reducible apply bit_ringPage
    | with_reducible apply bit_lanePage
    | with_reducible apply State.brCommitted_kept
    | with_reducible apply State.clCommitted_kept
    | with_reducible apply State.enCommitted_kept
    | with_reducible apply State.fdCommitted_kept
    | with_reducible apply State.ftCommitted_kept
    | with_reducible apply State.ppCommitted_kept
    | with_reducible apply State.rcCommitted_kept
    | with_reducible apply State.regrant_kept
    | with_reducible apply State.scanCommitted_kept
    | with_reducible apply State.smCommitted_kept
    | with_reducible apply State.tmCommitted_kept
    | with_reducible apply Kept.foldl
    | with_reducible apply Kept.foldlP
    | with_reducible apply Kept.ite
    | with_reducible refine Kept.of_pair (by assumption) ?_
    | split

theorem State.beforeCommit_kept {M : Nat} {b : State} {q : List Instr} {s : State} {p : Nat} (hs : Kept M b q s) (hM : Sub 0x1000000040809 M) (hp1 : M.testBit (kindBit (kindOf p)) = true) : Kept M b q (State.beforeCommit s p) := by
  unfold State.beforeCommit
  try dsimp only
  repeat' first
    | with_reducible assumption
    | exact Sub.trans (by decide) hM
    | exact Sub.bit hM (by decide)
    | exact Sub.kind hM (by decide) _
    | (intro _; try dsimp only)
    | with_reducible apply State.applyShadows_kept
    | with_reducible apply State.recClose_kept
    | with_reducible apply Kept.ite
    | with_reducible refine Kept.of_pair (by assumption) ?_
    | split

theorem State.commitEnd_kept {M : Nat} {b : State} {q : List Instr} {s : State} {p : Nat} (hs : Kept M b q s) (hM : Sub 0x1138A809C7B809 M) (hp1 : M.testBit (kindBit (kindOf p)) = true) : Kept M b q (State.commitEnd s p) := by
  unfold State.commitEnd
  try dsimp only
  repeat' first
    | with_reducible assumption
    | exact Sub.trans (by decide) hM
    | exact Sub.bit hM (by decide)
    | exact Sub.kind hM (by decide) _
    | (intro _; try dsimp only)
    | with_reducible apply State.applyShadows_kept
    | with_reducible apply State.askResync_kept
    | with_reducible apply State.beforeCommit_kept
    | with_reducible apply State.committed_kept
    | with_reducible apply State.endCommit_kept
    | with_reducible apply State.raise_kept
    | with_reducible apply Kept.ite
    | with_reducible refine Kept.of_pair (by assumption) ?_
    | split

theorem State.stopped_kept {M : Nat} {b : State} {q : List Instr} {s : State} {p : Nat} (hs : Kept M b q s) (hM : Sub 0x1138A809C7B80B M) (hp1 : M.testBit (kindBit (kindOf p)) = true) : Kept M b q (State.stopped s p) := by
  unfold State.stopped
  try dsimp only
  repeat' first
    | with_reducible assumption
    | exact Sub.trans (by decide) hM
    | exact Sub.bit hM (by decide)
    | exact Sub.kind hM (by decide) _
    | (intro _; try dsimp only)
    | with_reducible apply State.commitEnd_kept
    | with_reducible apply State.setState_kept
    | with_reducible apply Kept.ite
    | with_reducible refine Kept.of_pair (by assumption) ?_
    | split
    | with_reducible refine Kept.set_stopping ?_ ?_

theorem State.smSet_kept {M : Nat} {b : State} {q : List Instr} {s : State} {m : Nat} (hs : Kept M b q s) (hM : Sub 0x1138A809C7B80B M) (hp1 : M.testBit (kindBit (kindOf m)) = true) : Kept M b q (State.smSet s m) := by
  unfold State.smSet
  try dsimp only
  repeat' first
    | with_reducible assumption
    | exact Sub.trans (by decide) hM
    | exact Sub.bit hM (by decide)
    | exact Sub.kind hM (by decide) _
    | (intro _; try dsimp only)
    | with_reducible apply State.setState_kept
    | with_reducible apply State.stopped_kept
    | with_reducible apply Kept.ite
    | with_reducible refine Kept.of_pair (by assumption) ?_
    | split

theorem State.smFollow_kept {M : Nat} {b : State} {q : List Instr} {s : State} (hs : Kept M b q s) (hM : Sub 0x1338A809C7B80B M) : Kept M b q (State.smFollow s) := by
  unfold State.smFollow
  refine Kept.foldlM hs fun t m hm h => State.smSet_kept h (Sub.trans (by decide) hM) ?_
  have hk : kindOf m = some .sm := by
    revert m; decide
  rw [hk]; exact hM.bit (by decide)

theorem State.smAfter_kept {M : Nat} {b : State} {q : List Instr} {s : State} {p : Nat} (hs : Kept M b q s) (hM : Sub 0x1338A809C7B80B M) : Kept M b q (State.smAfter s p) := by
  unfold State.smAfter
  try dsimp only
  repeat' first
    | with_reducible assumption
    | exact Sub.trans (by decide) hM
    | exact Sub.bit hM (by decide)
    | exact Sub.kind hM (by decide) _
    | (intro _; try dsimp only)
    | with_reducible apply State.smFollow_kept
    | with_reducible apply Kept.ite
    | with_reducible refine Kept.of_pair (by assumption) ?_
    | split

theorem State.commitPoint_kept {M : Nat} {b : State} {q : List Instr} {s : State} {p : Nat} (hs : Kept M b q s) (hM : Sub 0x1338A809C7B80B M) (hp1 : M.testBit (kindBit (kindOf p)) = true) : Kept M b q (State.commitPoint s p) := by
  unfold State.commitPoint
  try dsimp only
  repeat' first
    | with_reducible assumption
    | exact Sub.trans (by decide) hM
    | exact Sub.bit hM (by decide)
    | exact Sub.kind hM (by decide) _
    | (intro _; try dsimp only)
    | with_reducible apply State.commitEnd_kept
    | with_reducible apply State.smAfter_kept
    | with_reducible apply Kept.ite
    | with_reducible refine Kept.of_pair (by assumption) ?_
    | split

theorem execCommitPoint_kept {M : Nat} {b : State} {q : List Instr} {page : Nat} {s : State} (hs : Kept M b q s) (hM : Sub 0x1338A809C7B80B M) (hp0 : M.testBit (kindBit (kindOf page)) = true) {r : State} (e : (execCommitPoint page s) = .next r) : Kept M b q r := by
  unfold execCommitPoint at e
  injection e with e; subst e
  try dsimp only
  repeat' first
    | with_reducible assumption
    | exact Sub.trans (by decide) hM
    | exact Sub.bit hM (by decide)
    | exact Sub.kind hM (by decide) _
    | (intro _; try dsimp only)
    | with_reducible apply State.commitPoint_kept
    | with_reducible apply Kept.ite
    | with_reducible refine Kept.of_pair (by assumption) ?_
    | split

theorem State.queuesRun_kept {M : Nat} {b : State} {q : List Instr} {s : State} {v : Bool} (hs : Kept M b q s) (hM : Sub 0x1138E809C7B80B M) : Kept M b q (State.queuesRun s v) := by
  unfold State.queuesRun
  refine Kept.foldlM hs fun t p hp h => ?_
  have hk : kindOf p = some .q := by
    revert p; decide
  have hb : M.testBit (kindBit (kindOf p)) = true := by rw [hk]; exact hM.bit (by decide)
  exact Kept.ite (State.stopped_kept h (Sub.trans (by decide) hM) hb)
    (Kept.ite (State.setState_kept h (Sub.trans (by decide) hM) hb) h)

theorem State.enStart_kept {M : Nat} {b : State} {q : List Instr} {s : State} {p : Nat} (hs : Kept M b q s) (hM : Sub 0x1338A809C7B80B M) (hp1 : M.testBit (kindBit (kindOf p)) = true) : Kept M b q (State.enStart s p) := by
  unfold State.enStart
  try dsimp only
  repeat' first
    | with_reducible assumption
    | exact Sub.trans (by decide) hM
    | exact Sub.bit hM (by decide)
    | exact Sub.kind hM (by decide) _
    | (intro _; try dsimp only)
    | with_reducible apply State.diStart_kept
    | with_reducible apply State.fs_kept
    | with_reducible apply State.pbTurn_kept
    | with_reducible apply State.smFollow_kept
    | with_reducible apply State.startOut_kept
    | with_reducible apply State.ttInit_kept
    | with_reducible apply Kept.ite
    | with_reducible refine Kept.of_pair (by assumption) ?_
    | split

theorem State.blockStart_kept {M : Nat} {b : State} {q : List Instr} {s0 : State} {p : Nat} (hs0 : Kept M b q s0) (hM : Sub 0x1379E809C7B80B M) (hp1 : M.testBit (kindBit (kindOf p)) = true) : Kept M b q (State.blockStart s0 p) := by
  unfold State.blockStart
  try dsimp only
  repeat' first
    | with_reducible assumption
    | exact Sub.trans (by decide) hM
    | exact Sub.bit hM (by decide)
    | exact Sub.kind hM (by decide) _
    | (intro _; try dsimp only)
    | with_reducible apply State.clDetect_kept
    | with_reducible apply State.enStart_kept
    | with_reducible apply State.leaveRidgeOnly_kept
    | with_reducible apply State.ppStart_kept
    | with_reducible apply State.queuesRun_kept
    | with_reducible apply State.scanStart_kept
    | with_reducible apply State.setState_kept
    | with_reducible apply Kept.ite
    | with_reducible refine Kept.of_pair (by assumption) ?_
    | split

theorem State.mayStart_kept {M : Nat} {b : State} {q : List Instr} {s : State} {p : Nat} (hs : Kept M b q s) (hM : Sub 0x1379E809C7B80B M) (hp1 : M.testBit (kindBit (kindOf p)) = true) : Kept M b q (State.mayStart s p) := by
  unfold State.mayStart
  try dsimp only
  repeat' first
    | with_reducible assumption
    | exact Sub.trans (by decide) hM
    | exact Sub.bit hM (by decide)
    | exact Sub.kind hM (by decide) _
    | (intro _; try dsimp only)
    | with_reducible apply State.blockStart_kept
    | with_reducible apply Kept.ite
    | with_reducible refine Kept.of_pair (by assumption) ?_
    | split

theorem State.enStopped_kept {M : Nat} {b : State} {q : List Instr} {s : State} {p : Nat} (hs : Kept M b q s) (hM : Sub 0x1338A809C7B80B M) (hp1 : M.testBit (kindBit (kindOf p)) = true) : Kept M b q (State.enStopped s p) := by
  unfold State.enStopped
  try dsimp only
  repeat' first
    | with_reducible assumption
    | exact Sub.trans (by decide) hM
    | exact Sub.bit hM (by decide)
    | exact Sub.kind hM (by decide) _
    | (intro _; try dsimp only)
    | with_reducible apply State.fs_kept
    | with_reducible apply State.recClose_kept
    | with_reducible apply State.setChan_kept
    | with_reducible apply State.smFollow_kept
    | with_reducible apply State.stopOut_kept
    | with_reducible apply State.stopped_kept
    | with_reducible apply Kept.ite
    | with_reducible refine Kept.of_pair (by assumption) ?_
    | split

theorem State.stopPoint_kept {M : Nat} {b : State} {q : List Instr} {s : State} {p : Nat} (hs : Kept M b q s) (hM : Sub 0x1378E809C7B80B M) (hp1 : M.testBit (kindBit (kindOf p)) = true) : Kept M b q (State.stopPoint s p) := by
  unfold State.stopPoint
  try dsimp only
  repeat' first
    | with_reducible assumption
    | exact Sub.trans (by decide) hM
    | exact Sub.bit hM (by decide)
    | exact Sub.kind hM (by decide) _
    | (intro _; try dsimp only)
    | with_reducible apply State.clOff_kept
    | with_reducible apply State.enStopped_kept
    | with_reducible apply State.ppStop_kept
    | with_reducible apply State.queuesRun_kept
    | with_reducible apply State.stopped_kept
    | with_reducible apply Kept.ite
    | with_reducible refine Kept.of_pair (by assumption) ?_
    | split

theorem State.enableWrite_kept {M : Nat} {b : State} {q : List Instr} {s : State} {p : Nat} {en : Bool} {ra : Bool} (hs : Kept M b q s) (hM : Sub 0x1379E809C7B80B M) (hp1 : M.testBit (kindBit (kindOf p)) = true) : Kept M b q (State.enableWrite s p en ra) := by
  unfold State.enableWrite
  try dsimp only
  repeat' first
    | with_reducible assumption
    | exact Sub.trans (by decide) hM
    | exact Sub.bit hM (by decide)
    | exact Sub.kind hM (by decide) _
    | (intro _; try dsimp only)
    | with_reducible apply State.fs_kept
    | with_reducible apply State.mayStart_kept
    | with_reducible apply State.setEnable_kept
    | with_reducible apply State.stopPoint_kept
    | with_reducible apply Kept.ite
    | with_reducible refine Kept.of_pair (by assumption) ?_
    | split

theorem State.commitNow_kept {M : Nat} {b : State} {q : List Instr} {s : State} {p : Nat} (hs : Kept M b q s) (hM : Sub 0x1338A809C7B80B M) (hp1 : M.testBit (kindBit (kindOf p)) = true) : Kept M b q (State.commitNow s p) := by
  unfold State.commitNow
  try dsimp only
  repeat' first
    | with_reducible assumption
    | exact Sub.trans (by decide) hM
    | exact Sub.bit hM (by decide)
    | exact Sub.kind hM (by decide) _
    | (intro _; try dsimp only)
    | with_reducible apply State.commitPoint_kept
    | with_reducible apply State.commitWrite_kept
    | with_reducible apply Kept.ite
    | with_reducible refine Kept.of_pair (by assumption) ?_
    | split

theorem State.pageCtrl_kept {M : Nat} {b : State} {q : List Instr} {s : State} {p : Nat} {v : Word} (hs : Kept M b q s) (hM : Sub 0xFFFFFF3FCFF86F M) (hp1 : M.testBit (kindBit (kindOf p)) = true) : Kept M b q (State.pageCtrl s p v) := by
  unfold State.pageCtrl
  try dsimp only
  repeat' first
    | with_reducible assumption
    | exact Sub.trans (by decide) hM
    | exact Sub.bit hM (by decide)
    | exact Sub.kind hM (by decide) _
    | (intro _; try dsimp only)
    | with_reducible apply bit_ringPage
    | with_reducible apply bit_lanePage
    | with_reducible apply State.abortWrite_kept
    | with_reducible apply State.commitNow_kept
    | with_reducible apply State.enableWrite_kept
    | with_reducible apply State.mirrorCfg_kept
    | with_reducible apply State.pageReset_kept
    | with_reducible apply State.smAfter_kept
    | with_reducible apply Kept.ite
    | with_reducible refine Kept.of_pair (by assumption) ?_
    | split

theorem State.viaSup_kept {M : Nat} {b : State} {q : List Instr} {s : State} {who : Initiator} {p : Nat} {off : Nat} {v : Word} {op : State → State} (hs : Kept M b q s) (hop : ∀ t, Kept M b q t → Kept M b q (op t)) (hM : Sub 0x800000 M) : Kept M b q (State.viaSup s who p off v op) := by
  unfold State.viaSup
  try dsimp only
  repeat' first
    | with_reducible assumption
    | apply hop
    | exact Sub.trans (by decide) hM
    | exact Sub.bit hM (by decide)
    | (intro _; try dsimp only)
    | exact Sub.kind hM (by decide) _
    | with_reducible apply State.supSend_kept
    | with_reducible apply Kept.ite
    | with_reducible refine Kept.of_pair (by assumption) ?_
    | split

theorem State.pageCtrlWrite_kept {M : Nat} {b : State} {q : List Instr} {s : State} {who : Initiator} {p : Nat} {v : Word} (hs : Kept M b q s) (hM : Sub 0xFFFFFF3FCFF86F M) (hp2 : M.testBit (kindBit (kindOf p)) = true) : Kept M b q (State.pageCtrlWrite s who p v) := by
  unfold State.pageCtrlWrite
  try dsimp only
  repeat' first
    | with_reducible assumption
    | exact Sub.trans (by decide) hM
    | exact Sub.bit hM (by decide)
    | exact Sub.kind hM (by decide) _
    | (intro _; try dsimp only)
    | with_reducible apply bit_enAlias
    | with_reducible apply bit_ringPage
    | with_reducible apply bit_lanePage
    | with_reducible apply State.pageCtrl_kept
    | with_reducible apply State.viaSup_kept
    | with_reducible apply State.write_kept
    | with_reducible apply Kept.ite
    | with_reducible refine Kept.of_pair (by assumption) ?_
    | split

theorem execPageEnableWrite_kept {M : Nat} {b : State} {q : List Instr} {who : Initiator} {page : Nat} {en : Bool} {readActive : Bool} {s : State} (hs : Kept M b q s) (hM : Sub 0xFFFFFF3FCFF86F M) (hp1 : M.testBit (kindBit (kindOf page)) = true) {r : State} (e : (execPageEnableWrite who page en readActive s) = .next r) : Kept M b q r := by
  unfold execPageEnableWrite at e
  injection e with e; subst e
  try dsimp only
  repeat' first
    | with_reducible assumption
    | exact Sub.trans (by decide) hM
    | exact Sub.bit hM (by decide)
    | exact Sub.kind hM (by decide) _
    | (intro _; try dsimp only)
    | with_reducible apply bit_ecPage
    | with_reducible apply bit_ringPage
    | with_reducible apply bit_lanePage
    | with_reducible apply State.pageCtrlWrite_kept
    | with_reducible apply Kept.ite
    | with_reducible refine Kept.of_pair (by assumption) ?_
    | split

theorem execCommit_kept {M : Nat} {b : State} {q : List Instr} {who : Initiator} {page : Nat} {en : Bool} {readActive : Bool} {s : State} (hs : Kept M b q s) (hM : Sub 0xFFFFFF3FCFF86F M) (hp1 : M.testBit (kindBit (kindOf page)) = true) {r : State} (e : (execCommit who page en readActive s) = .next r) : Kept M b q r := by
  unfold execCommit at e
  injection e with e; subst e
  try dsimp only
  repeat' first
    | with_reducible assumption
    | exact Sub.trans (by decide) hM
    | exact Sub.bit hM (by decide)
    | exact Sub.kind hM (by decide) _
    | (intro _; try dsimp only)
    | with_reducible apply bit_ringPage
    | with_reducible apply bit_lanePage
    | with_reducible apply State.pageCtrlWrite_kept
    | with_reducible apply Kept.ite
    | with_reducible refine Kept.of_pair (by assumption) ?_
    | split

theorem execAbortCommit_kept {M : Nat} {b : State} {q : List Instr} {who : Initiator} {page : Nat} {en : Bool} {readActive : Bool} {commit : Bool} {s : State} (hs : Kept M b q s) (hM : Sub 0xFFFFFF3FCFF86F M) (hp1 : M.testBit (kindBit (kindOf page)) = true) {r : State} (e : (execAbortCommit who page en readActive commit s) = .next r) : Kept M b q r := by
  unfold execAbortCommit at e
  injection e with e; subst e
  try dsimp only
  repeat' first
    | with_reducible assumption
    | exact Sub.trans (by decide) hM
    | exact Sub.bit hM (by decide)
    | exact Sub.kind hM (by decide) _
    | (intro _; try dsimp only)
    | with_reducible apply bit_ringPage
    | with_reducible apply bit_lanePage
    | with_reducible apply State.pageCtrlWrite_kept
    | with_reducible apply Kept.ite
    | with_reducible refine Kept.of_pair (by assumption) ?_
    | split

theorem execResetBlock_kept {M : Nat} {b : State} {q : List Instr} {who : Initiator} {page : Nat} {others : Word} {s : State} (hs : Kept M b q s) (hM : Sub 0xFFFFFF3FCFF86F M) (hp1 : M.testBit (kindBit (kindOf page)) = true) {r : State} (e : (execResetBlock who page others s) = .next r) : Kept M b q r := by
  unfold execResetBlock at e
  injection e with e; subst e
  try dsimp only
  repeat' first
    | with_reducible assumption
    | exact Sub.trans (by decide) hM
    | exact Sub.bit hM (by decide)
    | exact Sub.kind hM (by decide) _
    | (intro _; try dsimp only)
    | with_reducible apply bit_ringPage
    | with_reducible apply bit_lanePage
    | with_reducible apply State.pageCtrlWrite_kept
    | with_reducible apply Kept.ite
    | with_reducible refine Kept.of_pair (by assumption) ?_
    | split

theorem execEvtForce_kept {M : Nat} {b : State} {q : List Instr} {who : Initiator} {page : Nat} {v : Word} {s : State} (hs : Kept M b q s) (hM : Sub 0x9000081080C M) (hp1 : M.testBit (kindBit (kindOf page)) = true) {r : State} (e : (execEvtForce who page v s) = .next r) : Kept M b q r := by
  unfold execEvtForce at e
  injection e with e; subst e
  try dsimp only
  repeat' first
    | with_reducible assumption
    | exact Sub.trans (by decide) hM
    | exact Sub.bit hM (by decide)
    | exact Sub.kind hM (by decide) _
    | (intro _; try dsimp only)
    | with_reducible apply bit_enAlias
    | with_reducible apply State.force_kept
    | with_reducible apply State.viaSup_kept
    | with_reducible apply State.write_kept
    | with_reducible apply Kept.ite
    | with_reducible refine Kept.of_pair (by assumption) ?_
    | split

theorem State.readyRise_kept {M : Nat} {b : State} {q : List Instr} {s : State} {p : Nat} (hs : Kept M b q s) (hM : Sub 0x1379E809C7B80B M) (hp1 : M.testBit (kindBit (kindOf p)) = true) : Kept M b q (State.readyRise s p) := by
  unfold State.readyRise
  try dsimp only
  repeat' first
    | with_reducible assumption
    | exact Sub.trans (by decide) hM
    | exact Sub.bit hM (by decide)
    | exact Sub.kind hM (by decide) _
    | (intro _; try dsimp only)
    | with_reducible apply State.mayStart_kept
    | with_reducible apply State.setState_kept
    | with_reducible apply State.smSet_kept
    | with_reducible apply Kept.ite
    | with_reducible refine Kept.of_pair (by assumption) ?_
    | split

theorem execBlockReadyRise_kept {M : Nat} {b : State} {q : List Instr} {page : Nat} {s : State} (hs : Kept M b q s) (hM : Sub 0x1379E809C7B80B M) (hp0 : M.testBit (kindBit (kindOf page)) = true) {r : State} (e : (execBlockReadyRise page s) = .next r) : Kept M b q r := by
  unfold execBlockReadyRise at e
  injection e with e; subst e
  try dsimp only
  repeat' first
    | with_reducible assumption
    | exact Sub.trans (by decide) hM
    | exact Sub.bit hM (by decide)
    | exact Sub.kind hM (by decide) _
    | (intro _; try dsimp only)
    | with_reducible apply State.readyRise_kept
    | with_reducible apply Kept.ite
    | with_reducible refine Kept.of_pair (by assumption) ?_
    | split

end Sys2Proof.Machine
end

