-- ==== Sys2Proof/Laws/KeptRouting.lean ====
section
/-! SUPPORT. What the functions of Machine/Routing.lean keep (Laws/Kept.lean). -/
namespace Sys2Proof.Machine

theorem State.pbRecord_kept {M : Nat} {b : State} {q : List Instr} {s : State} {l : Look} {item : List Byte} (hs : Kept M b q s) (hM : Sub 0x1000000040808 M) : Kept M b q (State.pbRecord s l item) := by
  unfold State.pbRecord
  try dsimp only
  repeat' first
    | with_reducible assumption
    | exact Sub.trans (by decide) hM
    | exact Sub.bit hM (by decide)
    | exact Sub.kind hM (by decide) _
    | (intro _; try dsimp only)
    | with_reducible apply State.recBatch_kept
    | with_reducible apply Kept.ite
    | with_reducible refine Kept.of_pair (by assumption) ?_
    | split

theorem State.pbUnmatched_kept {M : Nat} {b : State} {q : List Instr} {s : State} {l : Look} (hs : Kept M b q s) (hM : Sub 0x5000000040808 M) : Kept M b q (State.pbUnmatched s l) := by
  unfold State.pbUnmatched
  try dsimp only
  repeat' first
    | with_reducible assumption
    | exact Sub.trans (by decide) hM
    | exact Sub.bit hM (by decide)
    | exact Sub.kind hM (by decide) _
    | (intro _; try dsimp only)
    | with_reducible apply bit_enOf
    | with_reducible apply State.inc_kept
    | with_reducible apply State.pbRecord_kept
    | with_reducible apply Kept.ite
    | with_reducible refine Kept.of_pair (by assumption) ?_
    | split

theorem execPbusMessageReceived_kept {M : Nat} {b : State} {q : List Instr} {pitch : Pitch} {chan : Channel} {s : State} (hs : Kept M b q s) (hM : Sub 0x5000000140808 M) {r : State} (e : (execPbusMessageReceived pitch chan s) = .next r) : Kept M b q r := by
  unfold execPbusMessageReceived at e
  injection e with e; subst e
  try dsimp only
  repeat' first
    | with_reducible assumption
    | exact Sub.trans (by decide) hM
    | exact Sub.bit hM (by decide)
    | exact Sub.kind hM (by decide) _
    | (intro _; try dsimp only)
    | with_reducible apply bit_enOf
    | with_reducible apply State.inc_kept
    | with_reducible apply State.pbUnmatched_kept
    | with_reducible apply State.setChan_kept
    | with_reducible apply State.ttReference_kept
    | with_reducible apply Kept.ite
    | with_reducible refine Kept.of_pair (by assumption) ?_
    | split
    | with_reducible refine Kept.set_lookWait ?_ ?_

theorem execRouteLookupBegin_kept {M : Nat} {b : State} {q : List Instr} {s : State} (hs : Kept M b q s) (hM : Sub 0x300000 M) {r : State} (e : (execRouteLookupBegin s) = .next r) : Kept M b q r := by
  unfold execRouteLookupBegin at e
  injection e with e; subst e
  try dsimp only
  repeat' first
    | with_reducible assumption
    | exact Sub.trans (by decide) hM
    | exact Sub.bit hM (by decide)
    | exact Sub.kind hM (by decide) _
    | (intro _; try dsimp only)
    | with_reducible apply Kept.ite
    | with_reducible refine Kept.of_pair (by assumption) ?_
    | split
    | with_reducible refine Kept.set_lookWait ?_ ?_
    | with_reducible refine Kept.set_looking ?_ ?_
    | (refine Kept.upd (s := ?_) ?_ ?_ ?_ ?_ ?_ ?_ ?_ ?_ ?_ ?_ ?_ ?_ ?_ ?_ ?_ ?_ ?_ ?_ ?_ ?_ ?_ ?_ ?_ ?_ ?_ ?_ ?_ ?_ ?_ ?_ ?_ <;> first | rfl | exact Or.inl rfl | exact Or.inr (hM.bit (by decide)) | skip)

theorem State.rtSend_kept {M : Nat} {b : State} {q : List Instr} {s : State} {l : Look} {f : Frame} (hs : Kept M b q s) (hM : Sub 0x800 M) : Kept M b q (State.rtSend s l f) := by
  unfold State.rtSend
  try dsimp only
  repeat' first
    | with_reducible assumption
    | exact Sub.trans (by decide) hM
    | exact Sub.bit hM (by decide)
    | exact Sub.kind hM (by decide) _
    | (intro _; try dsimp only)
    | with_reducible apply State.stage_kept
    | with_reducible apply Kept.ite
    | with_reducible refine Kept.of_pair (by assumption) ?_
    | split

theorem State.rtAct_kept {M : Nat} {b : State} {q : List Instr} {l : Look} {s0 : State} {e : Nat} (hs0 : Kept M b q s0) (hM : Sub 0x5004000441808 M) : Kept M b q (State.rtAct l s0 e) := by
  unfold State.rtAct
  try dsimp only
  repeat' first
    | with_reducible assumption
    | exact Sub.trans (by decide) hM
    | exact Sub.bit hM (by decide)
    | exact Sub.kind hM (by decide) _
    | (intro _; try dsimp only)
    | with_reducible apply bit_rtPage
    | with_reducible apply bit_enOf
    | with_reducible apply State.inc_kept
    | with_reducible apply State.mbPush_kept
    | with_reducible apply State.pbRecord_kept
    | with_reducible apply State.routeDropped_kept
    | with_reducible apply State.rtSend_kept
    | with_reducible apply Kept.ite
    | with_reducible refine Kept.of_pair (by assumption) ?_
    | split

theorem execRouteLookupDone_kept {M : Nat} {b : State} {q : List Instr} {s : State} (hs : Kept M b q s) (hM : Sub 0x5004000641808 M) {r : State} (e : (execRouteLookupDone s) = .next r) : Kept M b q r := by
  unfold execRouteLookupDone at e
  injection e with e; subst e
  try dsimp only
  repeat' first
    | with_reducible assumption
    | exact Sub.trans (by decide) hM
    | exact Sub.bit hM (by decide)
    | exact Sub.kind hM (by decide) _
    | (intro _; try dsimp only)
    | with_reducible apply State.pbUnmatched_kept
    | with_reducible apply State.rtAct_kept
    | with_reducible apply Kept.foldl
    | with_reducible apply Kept.foldlP
    | with_reducible apply Kept.ite
    | with_reducible refine Kept.of_pair (by assumption) ?_
    | split
    | with_reducible refine Kept.set_looking ?_ ?_

theorem State.routedTake_kept {M : Nat} {b : State} {q : List Instr} {s : State} {n : Nat} {f : Frame} (hs : Kept M b q s) (hM : Sub 0x1000000040808 M) : Kept M b q (State.routedTake s n f) := by
  unfold State.routedTake
  try dsimp only
  repeat' first
    | with_reducible assumption
    | exact Sub.trans (by decide) hM
    | exact Sub.bit hM (by decide)
    | exact Sub.kind hM (by decide) _
    | (intro _; try dsimp only)
    | with_reducible apply bit_enOf
    | with_reducible apply State.enCnt_kept
    | with_reducible apply State.setChan_kept
    | with_reducible apply Kept.ite
    | with_reducible refine Kept.of_pair (by assumption) ?_
    | split

theorem State.txTake_kept {M : Nat} {b : State} {q : List Instr} {s : State} {n : Nat} {f : Frame} (hs : Kept M b q s) (hM : Sub 0x800000040808 M) : Kept M b q (State.txTake s n f) := by
  unfold State.txTake
  try dsimp only
  repeat' first
    | with_reducible assumption
    | exact Sub.trans (by decide) hM
    | exact Sub.bit hM (by decide)
    | exact Sub.kind hM (by decide) _
    | (intro _; try dsimp only)
    | with_reducible apply bit_enOf
    | with_reducible apply State.setChan_kept
    | with_reducible apply State.txDrop_kept
    | with_reducible apply Kept.ite
    | with_reducible refine Kept.of_pair (by assumption) ?_
    | split

theorem State.inboxTake_kept {M : Nat} {b : State} {q : List Instr} {s : State} {p : Nat} (hs : Kept M b q s) (hM : Sub 0x1000 M) {α} {r : State} (e : (State.inboxTake s p) = some (α, r)) : Kept M b q r := by
  unfold State.inboxTake at e
  repeat' split at e
  all_goals first | cases e | skip
  all_goals try simp only [Option.some.injEq, Prod.mk.injEq] at e
  all_goals try obtain ⟨rfl, rfl⟩ := e
  try dsimp only
  repeat' first
    | with_reducible assumption
    | exact Sub.trans (by decide) hM
    | exact Sub.bit hM (by decide)
    | exact Sub.kind hM (by decide) _
    | (intro _; try dsimp only)
    | with_reducible apply Kept.ite
    | with_reducible refine Kept.of_pair (by assumption) ?_
    | split
    | with_reducible refine Kept.set_core ?_ ?_

theorem execTxRecordReceived_kept {M : Nat} {b : State} {q : List Instr} {pitch : Pitch} {s : State} (hs : Kept M b q s) (hM : Sub 0x800000041808 M) {r : State} (e : (execTxRecordReceived pitch s) = .next r) : Kept M b q r := by
  unfold execTxRecordReceived at e
  injection e with e; subst e
  try dsimp only
  repeat' first
    | with_reducible assumption
    | exact Sub.trans (by decide) hM
    | exact Sub.bit hM (by decide)
    | exact Sub.kind hM (by decide) _
    | (intro _; try dsimp only)
    | refine State.inboxTake_kept ?_ ?_ (by assumption)
    | with_reducible apply State.txTake_kept
    | with_reducible apply Kept.ite
    | with_reducible refine Kept.of_pair (by assumption) ?_
    | split

theorem execRoutedFrameReceived_kept {M : Nat} {b : State} {q : List Instr} {pitch : Pitch} {s : State} (hs : Kept M b q s) (hM : Sub 0x1000000041808 M) {r : State} (e : (execRoutedFrameReceived pitch s) = .next r) : Kept M b q r := by
  unfold execRoutedFrameReceived at e
  injection e with e; subst e
  try dsimp only
  repeat' first
    | with_reducible assumption
    | exact Sub.trans (by decide) hM
    | exact Sub.bit hM (by decide)
    | exact Sub.kind hM (by decide) _
    | (intro _; try dsimp only)
    | refine State.inboxTake_kept ?_ ?_ (by assumption)
    | with_reducible apply State.routedTake_kept
    | with_reducible apply Kept.ite
    | with_reducible refine Kept.of_pair (by assumption) ?_
    | split

end Sys2Proof.Machine
end

