-- ==== Sys2Proof/Laws/KeptBridge.lean ====
section
/-! SUPPORT. What the functions of Machine/Bridge.lean keep (Laws/Kept.lean). -/
namespace Sys2Proof.Machine

theorem State.lostTake_kept {M : Nat} {b : State} {q : List Instr} {s : State} {hub : Nat} {off : Nat} {data : Word} (hs : Kept M b q s) (hM : Sub 0x20000000808 M) : Kept M b q (State.lostTake s hub off data) := by
  unfold State.lostTake
  try dsimp only
  repeat' first
    | with_reducible assumption
    | exact Sub.trans (by decide) hM
    | exact Sub.bit hM (by decide)
    | exact Sub.kind hM (by decide) _
    | (intro _; try dsimp only)
    | with_reducible apply State.inc_kept
    | with_reducible apply State.raise_kept
    | with_reducible apply State.wr_kept
    | with_reducible apply Kept.ite
    | with_reducible refine Kept.of_pair (by assumption) ?_
    | split

theorem State.abandoned_kept {M : Nat} {b : State} {q : List Instr} {s : State} {hub : Nat} {off : Nat} {write : Bool} {rsp : Nat} {data : Word} (hs : Kept M b q s) (hM : Sub 0x20000000808 M) : Kept M b q (State.abandoned s hub off write rsp data) := by
  unfold State.abandoned
  try dsimp only
  repeat' first
    | with_reducible assumption
    | exact Sub.trans (by decide) hM
    | exact Sub.bit hM (by decide)
    | exact Sub.kind hM (by decide) _
    | (intro _; try dsimp only)
    | with_reducible apply State.lostTake_kept
    | with_reducible apply State.write_kept
    | with_reducible apply Kept.ite
    | with_reducible refine Kept.of_pair (by assumption) ?_
    | split

theorem State.finish_kept {M : Nat} {b : State} {q : List Instr} {s : State} {who : Initiator} {rsp : Nat} {data : Word} (hs : Kept M b q s) (hM : Sub 0x6000004 M) : Kept M b q (State.finish s who rsp data) := by
  unfold State.finish
  try dsimp only
  repeat' first
    | with_reducible assumption
    | exact Sub.trans (by decide) hM
    | exact Sub.bit hM (by decide)
    | exact Sub.kind hM (by decide) _
    | (intro _; try dsimp only)
    | with_reducible apply State.answer_kept
    | with_reducible apply Kept.ite
    | with_reducible refine Kept.of_pair (by assumption) ?_
    | split
    | with_reducible refine Kept.set_host ?_ ?_
    | with_reducible refine Kept.set_spi ?_ ?_
    | (refine Kept.upd (s := ?_) ?_ ?_ ?_ ?_ ?_ ?_ ?_ ?_ ?_ ?_ ?_ ?_ ?_ ?_ ?_ ?_ ?_ ?_ ?_ ?_ ?_ ?_ ?_ ?_ ?_ ?_ ?_ ?_ ?_ ?_ ?_ <;> first | rfl | exact Or.inl rfl | exact Or.inr (hM.bit (by decide)) | skip)

theorem State.setTag_kept {M : Nat} {b : State} {q : List Instr} {s : State} {x1 : Nat} {x : Option Txn} (hs : Kept M b q s) (hM : Sub 0x1000000 M) : Kept M b q (State.setTag s x1 x) := by
  unfold State.setTag
  try dsimp only
  repeat' first
    | with_reducible assumption
    | exact Sub.trans (by decide) hM
    | exact Sub.bit hM (by decide)
    | exact Sub.kind hM (by decide) _
    | (intro _; try dsimp only)
    | with_reducible apply Kept.ite
    | with_reducible refine Kept.of_pair (by assumption) ?_
    | split
    | with_reducible refine Kept.set_br ?_ ?_

theorem State.sendFwd_kept {M : Nat} {b : State} {q : List Instr} {s : State} {f0 : Fwd} {x2 : Nat} (hs : Kept M b q s) (hM : Sub 0x1000800 M) : Kept M b q (State.sendFwd s f0 x2) := by
  unfold State.sendFwd
  try dsimp only
  repeat' first
    | with_reducible assumption
    | exact Sub.trans (by decide) hM
    | exact Sub.bit hM (by decide)
    | exact Sub.kind hM (by decide) _
    | (intro _; try dsimp only)
    | with_reducible apply State.originate_kept
    | with_reducible apply State.setTag_kept
    | with_reducible apply Kept.ite
    | with_reducible refine Kept.of_pair (by assumption) ?_
    | split
    | with_reducible refine Kept.set_br ?_ ?_

theorem State.fenceEnd_kept {M : Nat} {b : State} {q : List Instr} {s : State} {w : Nat} {result : Nat} (hs : Kept M b q s) (hM : Sub 0x20000000808 M) : Kept M b q (State.fenceEnd s w result) := by
  unfold State.fenceEnd
  try dsimp only
  repeat' first
    | with_reducible assumption
    | exact Sub.trans (by decide) hM
    | exact Sub.bit hM (by decide)
    | exact Sub.kind hM (by decide) _
    | (intro _; try dsimp only)
    | with_reducible apply State.fs_kept
    | with_reducible apply State.raiseIf_kept
    | with_reducible apply Kept.ite
    | with_reducible refine Kept.of_pair (by assumption) ?_
    | split

theorem State.fenceDone_kept {M : Nat} {b : State} {q : List Instr} {s : State} {w : Nat} {wseq : Nat} {rsp : Nat} {conf : Nat} (hs : Kept M b q s) (hM : Sub 0x20000000808 M) : Kept M b q (State.fenceDone s w wseq rsp conf) := by
  unfold State.fenceDone
  try dsimp only
  repeat' first
    | with_reducible assumption
    | exact Sub.trans (by decide) hM
    | exact Sub.bit hM (by decide)
    | exact Sub.kind hM (by decide) _
    | (intro _; try dsimp only)
    | with_reducible apply State.fenceEnd_kept
    | with_reducible apply State.fs_kept
    | with_reducible apply Kept.ite
    | with_reducible refine Kept.of_pair (by assumption) ?_
    | split

theorem State.setSlot_kept {M : Nat} {b : State} {q : List Instr} {s : State} {k : Nat} {x : Option Slot} (hs : Kept M b q s) (hM : Sub 0x1000000 M) : Kept M b q (State.setSlot s k x) := by
  unfold State.setSlot
  try dsimp only
  repeat' first
    | with_reducible assumption
    | exact Sub.trans (by decide) hM
    | exact Sub.bit hM (by decide)
    | exact Sub.kind hM (by decide) _
    | (intro _; try dsimp only)
    | with_reducible apply Kept.ite
    | with_reducible refine Kept.of_pair (by assumption) ?_
    | split
    | with_reducible refine Kept.set_br ?_ ?_

theorem State.endFwd_kept {M : Nat} {b : State} {q : List Instr} {s : State} {f : Fwd} {rsp : Nat} {data : Word} {take : Bool} (hs : Kept M b q s) (hM : Sub 0xFFFFFF7FFFFBFF M) : Kept M b q (State.endFwd s f rsp data take) := by
  unfold State.endFwd
  try dsimp only
  repeat' first
    | with_reducible assumption
    | exact Sub.trans (by decide) hM
    | exact Sub.bit hM (by decide)
    | exact Sub.kind hM (by decide) _
    | (intro _; try dsimp only)
    | with_reducible apply State.abandoned_kept
    | with_reducible apply State.access_kept
    | with_reducible apply State.fenceDone_kept
    | with_reducible apply State.finish_kept
    | with_reducible apply State.setSlot_kept
    | with_reducible apply State.updPolled_kept
    | with_reducible apply State.write_kept
    | with_reducible apply Kept.ite
    | with_reducible refine Kept.of_pair (by assumption) ?_
    | split

theorem State.noLive_kept {M : Nat} {b : State} {q : List Instr} {s : State} {f : Fwd} (hs : Kept M b q s) (hM : Sub 0xFFFFFF7FFFFBFF M) : Kept M b q (State.noLive s f) := by
  unfold State.noLive
  try dsimp only
  repeat' first
    | with_reducible assumption
    | exact Sub.trans (by decide) hM
    | exact Sub.bit hM (by decide)
    | exact Sub.kind hM (by decide) _
    | (intro _; try dsimp only)
    | with_reducible apply State.endFwd_kept
    | with_reducible apply State.inc_kept
    | with_reducible apply Kept.ite
    | with_reducible refine Kept.of_pair (by assumption) ?_
    | split

theorem State.forward_kept {M : Nat} {b : State} {q : List Instr} {s : State} {f : Fwd} (hs : Kept M b q s) (hM : Sub 0xFFFFFF7FFFFBFF M) : Kept M b q (State.forward s f) := by
  unfold State.forward
  try dsimp only
  repeat' first
    | with_reducible assumption
    | exact Sub.trans (by decide) hM
    | exact Sub.bit hM (by decide)
    | exact Sub.kind hM (by decide) _
    | (intro _; try dsimp only)
    | with_reducible apply State.noLive_kept
    | with_reducible apply State.sendFwd_kept
    | with_reducible apply Kept.ite
    | with_reducible refine Kept.of_pair (by assumption) ?_
    | split
    | with_reducible refine Kept.set_br ?_ ?_

theorem State.pwLog_kept {M : Nat} {b : State} {q : List Instr} {s : State} {cause : Nat} {rsp : Nat} {hub : Nat} {w : Nat} {wseq : Nat} {off : Nat} (hs : Kept M b q s) (hM : Sub 0x20000000808 M) : Kept M b q (State.pwLog s cause rsp hub w wseq off) := by
  unfold State.pwLog
  try dsimp only
  repeat' first
    | with_reducible assumption
    | exact Sub.trans (by decide) hM
    | exact Sub.bit hM (by decide)
    | exact Sub.kind hM (by decide) _
    | (intro _; try dsimp only)
    | with_reducible apply State.addWrap_kept
    | with_reducible apply State.fs_kept
    | with_reducible apply State.inc_kept
    | with_reducible apply State.raise_kept
    | with_reducible apply State.wr_kept
    | with_reducible apply Kept.ite
    | with_reducible refine Kept.of_pair (by assumption) ?_
    | split

theorem State.postWrite_kept {M : Nat} {b : State} {q : List Instr} {s : State} {w : Nat} {hub : Nat} {off : Nat} {data : Word} {be : BitVec 4} (hs : Kept M b q s) (hM : Sub 0x20001000800 M) : Kept M b q (State.postWrite s w hub off data be) := by
  unfold State.postWrite
  try dsimp only
  repeat' first
    | with_reducible assumption
    | exact Sub.trans (by decide) hM
    | exact Sub.bit hM (by decide)
    | exact Sub.kind hM (by decide) _
    | (intro _; try dsimp only)
    | with_reducible apply State.fs_kept
    | with_reducible apply State.originate_kept
    | with_reducible apply Kept.ite
    | with_reducible refine Kept.of_pair (by assumption) ?_
    | split
    | with_reducible refine Kept.set_br ?_ ?_

theorem execForwardRequestSend_kept {M : Nat} {b : State} {q : List Instr} {s : State} (hs : Kept M b q s) (hM : Sub 0xFFFFFF7FFFFBFF M) {r : State} (e : (execForwardRequestSend s) = .next r) : Kept M b q r := by
  unfold execForwardRequestSend at e
  injection e with e; subst e
  try dsimp only
  repeat' first
    | with_reducible assumption
    | exact Sub.trans (by decide) hM
    | exact Sub.bit hM (by decide)
    | exact Sub.kind hM (by decide) _
    | (intro _; try dsimp only)
    | with_reducible apply State.endFwd_kept
    | with_reducible apply State.noLive_kept
    | with_reducible apply State.postWrite_kept
    | with_reducible apply State.sendFwd_kept
    | with_reducible apply Kept.ite
    | with_reducible refine Kept.of_pair (by assumption) ?_
    | split
    | with_reducible refine Kept.set_br ?_ ?_

theorem State.reqJudged_kept {M : Nat} {b : State} {q : List Instr} {s : State} {f : Frame} {admitted : Bool} (hs : Kept M b q s) (hM : Sub 0xFFFFFF7FFFFBFF M) : Kept M b q (State.reqJudged s f admitted) := by
  unfold State.reqJudged
  try dsimp only
  repeat' first
    | with_reducible assumption
    | exact Sub.trans (by decide) hM
    | exact Sub.bit hM (by decide)
    | exact Sub.kind hM (by decide) _
    | (intro _; try dsimp only)
    | with_reducible apply State.noLive_kept
    | with_reducible apply State.sent_kept
    | with_reducible apply State.setTag_kept
    | with_reducible apply Kept.ite
    | with_reducible refine Kept.of_pair (by assumption) ?_
    | split

theorem State.brFed_kept {M : Nat} {b : State} {q : List Instr} {s : State} {x1 : State} (hs : Kept M b q s) (hx1 : Kept M b q x1) (hM : Sub 0xFFFFFF7FFFFBFF M) : Kept M b q (State.brFed s x1) := by
  unfold State.brFed
  try dsimp only
  repeat' first
    | with_reducible assumption
    | exact Sub.trans (by decide) hM
    | exact Sub.bit hM (by decide)
    | exact Sub.kind hM (by decide) _
    | (intro _; try dsimp only)
    | with_reducible apply State.pwLog_kept
    | with_reducible apply State.reqJudged_kept
    | with_reducible apply Kept.ite
    | with_reducible refine Kept.of_pair (by assumption) ?_
    | split

theorem execCoreHeadCellWrite_kept {M : Nat} {b : State} {q : List Instr} {p : CorePort} {s : State} (hs : Kept M b q s) (hM : Sub 0xFFFFFF7FFFFBFF M) {r : State} (e : (execCoreHeadCellWrite p s) = .next r) : Kept M b q r := by
  unfold execCoreHeadCellWrite at e
  injection e with e; subst e
  try dsimp only
  repeat' first
    | with_reducible assumption
    | exact Sub.trans (by decide) hM
    | exact Sub.bit hM (by decide)
    | exact Sub.kind hM (by decide) _
    | (intro _; try dsimp only)
    | with_reducible apply State.brFed_kept
    | with_reducible apply State.headWrite_kept
    | with_reducible apply State.sweep_kept
    | with_reducible apply Kept.ite
    | with_reducible refine Kept.of_pair (by assumption) ?_
    | split

theorem execCoreDeferredWrite_kept {M : Nat} {b : State} {q : List Instr} {p : CorePort} {s : State} (hs : Kept M b q s) (hM : Sub 0xFFFFFF7FFFFBFF M) {r : State} (e : (execCoreDeferredWrite p s) = .next r) : Kept M b q r := by
  unfold execCoreDeferredWrite at e
  injection e with e; subst e
  try dsimp only
  repeat' first
    | with_reducible assumption
    | exact Sub.trans (by decide) hM
    | exact Sub.bit hM (by decide)
    | exact Sub.kind hM (by decide) _
    | (intro _; try dsimp only)
    | with_reducible apply State.brFed_kept
    | with_reducible apply State.deferredWrite_kept
    | with_reducible apply State.sweep_kept
    | with_reducible apply Kept.ite
    | with_reducible refine Kept.of_pair (by assumption) ?_
    | split

theorem State.retry_kept {M : Nat} {b : State} {q : List Instr} {s : State} {who : Initiator} (hs : Kept M b q s) (hM : Sub 0x20006000004 M) : Kept M b q (State.retry s who) := by
  unfold State.retry
  try dsimp only
  repeat' first
    | with_reducible assumption
    | exact Sub.trans (by decide) hM
    | exact Sub.bit hM (by decide)
    | exact Sub.kind hM (by decide) _
    | (intro _; try dsimp only)
    | with_reducible apply State.finish_kept
    | with_reducible apply State.inc_kept
    | with_reducible apply Kept.ite
    | with_reducible refine Kept.of_pair (by assumption) ?_
    | split

theorem State.slotAgain_kept {M : Nat} {b : State} {q : List Instr} {s : State} {who : Initiator} {k : Nat} {x : Slot} (hs : Kept M b q s) (hM : Sub 0x20007000804 M) : Kept M b q (State.slotAgain s who k x) := by
  unfold State.slotAgain
  try dsimp only
  repeat' first
    | with_reducible assumption
    | exact Sub.trans (by decide) hM
    | exact Sub.bit hM (by decide)
    | exact Sub.kind hM (by decide) _
    | (intro _; try dsimp only)
    | with_reducible apply State.finish_kept
    | with_reducible apply State.inc_kept
    | with_reducible apply State.retry_kept
    | with_reducible apply State.sendFwd_kept
    | with_reducible apply State.setSlot_kept
    | with_reducible apply Kept.ite
    | with_reducible refine Kept.of_pair (by assumption) ?_
    | split

theorem State.slotClaim_kept {M : Nat} {b : State} {q : List Instr} {s : State} {who : Initiator} {a : Nat} {w : Nat} {hub : Nat} {off : Nat} {write : Bool} {data : Word} {be : BitVec 4} (hs : Kept M b q s) (hM : Sub 0x20007000804 M) : Kept M b q (State.slotClaim s who a w hub off write data be) := by
  unfold State.slotClaim
  try dsimp only
  repeat' first
    | with_reducible assumption
    | exact Sub.trans (by decide) hM
    | exact Sub.bit hM (by decide)
    | exact Sub.kind hM (by decide) _
    | (intro _; try dsimp only)
    | with_reducible apply State.finish_kept
    | with_reducible apply State.inc_kept
    | with_reducible apply State.retry_kept
    | with_reducible apply State.sendFwd_kept
    | with_reducible apply State.setSlot_kept
    | with_reducible apply State.write_kept
    | with_reducible apply Kept.ite
    | with_reducible refine Kept.of_pair (by assumption) ?_
    | split

theorem State.farAccess_kept {M : Nat} {b : State} {q : List Instr} {s : State} {who : Initiator} {a : Nat} {w : Nat} {hub : Nat} {off : Nat} {write : Bool} {data : Word} {be : BitVec 4} (hs : Kept M b q s) (hM : Sub 0xFFFFFF7FFFFBFF M) : Kept M b q (State.farAccess s who a w hub off write data be) := by
  unfold State.farAccess
  try dsimp only
  repeat' first
    | with_reducible assumption
    | exact Sub.trans (by decide) hM
    | exact Sub.bit hM (by decide)
    | exact Sub.kind hM (by decide) _
    | (intro _; try dsimp only)
    | with_reducible apply State.access_kept
    | with_reducible apply State.finish_kept
    | with_reducible apply State.forward_kept
    | with_reducible apply State.inc_kept
    | with_reducible apply State.postWrite_kept
    | with_reducible apply State.retry_kept
    | with_reducible apply State.slotAgain_kept
    | with_reducible apply State.slotClaim_kept
    | with_reducible apply State.write_kept
    | with_reducible apply Kept.ite
    | with_reducible refine Kept.of_pair (by assumption) ?_
    | split
    | with_reducible refine Kept.set_br ?_ ?_

theorem execTransactionTimeout_kept {M : Nat} {b : State} {q : List Instr} {tag : Tag} {s : State} (hs : Kept M b q s) (hM : Sub 0xFFFFFF7FFFFBFF M) {r : State} (e : (execTransactionTimeout tag s) = .next r) : Kept M b q r := by
  unfold execTransactionTimeout at e
  injection e with e; subst e
  try dsimp only
  repeat' first
    | with_reducible assumption
    | exact Sub.trans (by decide) hM
    | exact Sub.bit hM (by decide)
    | exact Sub.kind hM (by decide) _
    | (intro _; try dsimp only)
    | with_reducible apply State.endFwd_kept
    | with_reducible apply State.inc_kept
    | with_reducible apply State.raise_kept
    | with_reducible apply State.setTag_kept
    | with_reducible apply Kept.ite
    | with_reducible refine Kept.of_pair (by assumption) ?_
    | split
    | with_reducible refine Kept.set_ingress ?_ ?_

theorem execTagQuarantineEnd_kept {M : Nat} {b : State} {q : List Instr} {tag : Tag} {s : State} (hs : Kept M b q s) (hM : Sub 0x1000000 M) {r : State} (e : (execTagQuarantineEnd tag s) = .next r) : Kept M b q r := by
  unfold execTagQuarantineEnd at e
  injection e with e; subst e
  try dsimp only
  repeat' first
    | with_reducible assumption
    | exact Sub.trans (by decide) hM
    | exact Sub.bit hM (by decide)
    | exact Sub.kind hM (by decide) _
    | (intro _; try dsimp only)
    | with_reducible apply State.setTag_kept
    | with_reducible apply Kept.ite
    | with_reducible refine Kept.of_pair (by assumption) ?_
    | split

theorem execRequestResend_kept {M : Nat} {b : State} {q : List Instr} {tag : Tag} {s : State} (hs : Kept M b q s) (hM : Sub 0x20001000800 M) {r : State} (e : (execRequestResend tag s) = .next r) : Kept M b q r := by
  unfold execRequestResend at e
  injection e with e; subst e
  try dsimp only
  repeat' first
    | with_reducible assumption
    | exact Sub.trans (by decide) hM
    | exact Sub.bit hM (by decide)
    | exact Sub.kind hM (by decide) _
    | (intro _; try dsimp only)
    | with_reducible apply State.inc_kept
    | with_reducible apply State.originate_kept
    | with_reducible apply State.setTag_kept
    | with_reducible apply Kept.ite
    | with_reducible refine Kept.of_pair (by assumption) ?_
    | split

theorem execSlotExpired_kept {M : Nat} {b : State} {q : List Instr} {slot : Fin 16} {s : State} (hs : Kept M b q s) (hM : Sub 0x20001000808 M) {r : State} (e : (execSlotExpired slot s) = .next r) : Kept M b q r := by
  unfold execSlotExpired at e
  injection e with e; subst e
  try dsimp only
  repeat' first
    | with_reducible assumption
    | exact Sub.trans (by decide) hM
    | exact Sub.bit hM (by decide)
    | exact Sub.kind hM (by decide) _
    | (intro _; try dsimp only)
    | with_reducible apply State.inc_kept
    | with_reducible apply State.lostTake_kept
    | with_reducible apply State.raise_kept
    | with_reducible apply State.setSlot_kept
    | with_reducible apply Kept.ite
    | with_reducible refine Kept.of_pair (by assumption) ?_
    | split

theorem State.brTake_kept {M : Nat} {b : State} {q : List Instr} {s : State} {mtype : Nat} (hs : Kept M b q s) (hM : Sub 0x1000 M) {α} {r : State} (e : (State.brTake s mtype) = some (α, r)) : Kept M b q r := by
  unfold State.brTake at e
  repeat' split at e
  all_goals first | cases e | skip
  all_goals try simp only [Option.some.injEq, Prod.mk.injEq] at e
  all_goals try obtain ⟨rfl, rfl⟩ := e
  try dsimp only
  repeat' first
    | with_reducible assumption
    | exact Sub.trans (by decide) hM
    | exact Sub.bit hM (by decide)
    | exact Sub.kind hM (by decide) _
    | (intro _; try dsimp only)
    | refine State.inboxTake_kept ?_ ?_ (by assumption)
    | with_reducible apply Kept.ite
    | with_reducible refine Kept.of_pair (by assumption) ?_
    | split

theorem State.completion_kept {M : Nat} {b : State} {q : List Instr} {s : State} {f : Frame} (hs : Kept M b q s) (hM : Sub 0xFFFFFF7FFFFBFF M) : Kept M b q (State.completion s f) := by
  unfold State.completion
  try dsimp only
  repeat' first
    | with_reducible assumption
    | exact Sub.trans (by decide) hM
    | exact Sub.bit hM (by decide)
    | exact Sub.kind hM (by decide) _
    | (intro _; try dsimp only)
    | with_reducible apply State.endFwd_kept
    | with_reducible apply State.inc_kept
    | with_reducible apply State.raise_kept
    | with_reducible apply State.sent_kept
    | with_reducible apply State.setTag_kept
    | with_reducible apply Kept.ite
    | with_reducible refine Kept.of_pair (by assumption) ?_
    | split

theorem execCompletionReceived_kept {M : Nat} {b : State} {q : List Instr} {s : State} (hs : Kept M b q s) (hM : Sub 0xFFFFFF7FFFFBFF M) {r : State} (e : (execCompletionReceived s) = .next r) : Kept M b q r := by
  unfold execCompletionReceived at e
  injection e with e; subst e
  try dsimp only
  repeat' first
    | with_reducible assumption
    | exact Sub.trans (by decide) hM
    | exact Sub.bit hM (by decide)
    | exact Sub.kind hM (by decide) _
    | (intro _; try dsimp only)
    | refine State.brTake_kept ?_ ?_ (by assumption)
    | with_reducible apply State.completion_kept
    | with_reducible apply Kept.ite
    | with_reducible refine Kept.of_pair (by assumption) ?_
    | split

theorem execLateWrReceived_kept {M : Nat} {b : State} {q : List Instr} {s : State} (hs : Kept M b q s) (hM : Sub 0x20000001808 M) {r : State} (e : (execLateWrReceived s) = .next r) : Kept M b q r := by
  unfold execLateWrReceived at e
  injection e with e; subst e
  try dsimp only
  repeat' first
    | with_reducible assumption
    | exact Sub.trans (by decide) hM
    | exact Sub.bit hM (by decide)
    | exact Sub.kind hM (by decide) _
    | (intro _; try dsimp only)
    | refine State.brTake_kept ?_ ?_ (by assumption)
    | with_reducible apply State.pwLog_kept
    | with_reducible apply Kept.ite
    | with_reducible refine Kept.of_pair (by assumption) ?_
    | split

theorem State.fenceWrite_kept {M : Nat} {b : State} {q : List Instr} {s : State} {w : Nat} {v : Word} (hs : Kept M b q s) (hM : Sub 0xFFFFFF7FFFFBFF M) : Kept M b q (State.fenceWrite s w v) := by
  unfold State.fenceWrite
  try dsimp only
  repeat' first
    | with_reducible assumption
    | exact Sub.trans (by decide) hM
    | exact Sub.bit hM (by decide)
    | exact Sub.kind hM (by decide) _
    | (intro _; try dsimp only)
    | with_reducible apply State.fenceEnd_kept
    | with_reducible apply State.forward_kept
    | with_reducible apply State.fs_kept
    | with_reducible apply Kept.ite
    | with_reducible refine Kept.of_pair (by assumption) ?_
    | split
    | with_reducible refine Kept.set_br ?_ ?_

theorem execFenceStart_kept {M : Nat} {b : State} {q : List Instr} {who : Initiator} {win : Win} {v : Word} {s : State} (hs : Kept M b q s) (hM : Sub 0xFFFFFF7FFFFBFF M) {r : State} (e : (execFenceStart who win v s) = .next r) : Kept M b q r := by
  unfold execFenceStart at e
  injection e with e; subst e
  try dsimp only
  repeat' first
    | with_reducible assumption
    | exact Sub.trans (by decide) hM
    | exact Sub.bit hM (by decide)
    | exact Sub.kind hM (by decide) _
    | (intro _; try dsimp only)
    | with_reducible apply State.fenceWrite_kept
    | with_reducible apply State.write_kept
    | with_reducible apply Kept.ite
    | with_reducible refine Kept.of_pair (by assumption) ?_
    | split

theorem State.sigSend_kept {M : Nat} {b : State} {q : List Instr} {s : State} {v : Word} (hs : Kept M b q s) (hM : Sub 0x20000000800 M) : Kept M b q (State.sigSend s v) := by
  unfold State.sigSend
  try dsimp only
  repeat' first
    | with_reducible assumption
    | exact Sub.trans (by decide) hM
    | exact Sub.bit hM (by decide)
    | exact Sub.kind hM (by decide) _
    | (intro _; try dsimp only)
    | with_reducible apply State.inc_kept
    | with_reducible apply State.originate_kept
    | with_reducible apply Kept.ite
    | with_reducible refine Kept.of_pair (by assumption) ?_
    | split

theorem execSignalSend_kept {M : Nat} {b : State} {q : List Instr} {who : Initiator} {v : Word} {s : State} (hs : Kept M b q s) (hM : Sub 0xB000001080C M) {r : State} (e : (execSignalSend who v s) = .next r) : Kept M b q r := by
  unfold execSignalSend at e
  injection e with e; subst e
  try dsimp only
  repeat' first
    | with_reducible assumption
    | exact Sub.trans (by decide) hM
    | exact Sub.bit hM (by decide)
    | exact Sub.kind hM (by decide) _
    | (intro _; try dsimp only)
    | with_reducible apply State.sigSend_kept
    | with_reducible apply State.write_kept
    | with_reducible apply Kept.ite
    | with_reducible refine Kept.of_pair (by assumption) ?_
    | split

theorem execSignalReceived_kept {M : Nat} {b : State} {q : List Instr} {s : State} (hs : Kept M b q s) (hM : Sub 0x20000001000 M) {r : State} (e : (execSignalReceived s) = .next r) : Kept M b q r := by
  unfold execSignalReceived at e
  injection e with e; subst e
  try dsimp only
  repeat' first
    | with_reducible assumption
    | exact Sub.trans (by decide) hM
    | exact Sub.bit hM (by decide)
    | exact Sub.kind hM (by decide) _
    | (intro _; try dsimp only)
    | refine State.inboxTake_kept ?_ ?_ (by assumption)
    | with_reducible apply State.wr_kept
    | with_reducible apply Kept.ite
    | with_reducible refine Kept.of_pair (by assumption) ?_
    | split

theorem State.txfWrite_kept {M : Nat} {b : State} {q : List Instr} {s : State} {v : Word} (hs : Kept M b q s) (hM : Sub 0x20000000808 M) : Kept M b q (State.txfWrite s v) := by
  unfold State.txfWrite
  try dsimp only
  repeat' first
    | with_reducible assumption
    | exact Sub.trans (by decide) hM
    | exact Sub.bit hM (by decide)
    | exact Sub.kind hM (by decide) _
    | (intro _; try dsimp only)
    | with_reducible apply State.direct_kept
    | with_reducible apply State.fs_kept
    | with_reducible apply State.raise_kept
    | with_reducible apply State.stage_kept
    | with_reducible apply Kept.ite
    | with_reducible refine Kept.of_pair (by assumption) ?_
    | split

theorem execTxfSend_kept {M : Nat} {b : State} {q : List Instr} {who : Initiator} {v : Word} {s : State} (hs : Kept M b q s) (hM : Sub 0xB000001080C M) {r : State} (e : (execTxfSend who v s) = .next r) : Kept M b q r := by
  unfold execTxfSend at e
  injection e with e; subst e
  try dsimp only
  repeat' first
    | with_reducible assumption
    | exact Sub.trans (by decide) hM
    | exact Sub.bit hM (by decide)
    | exact Sub.kind hM (by decide) _
    | (intro _; try dsimp only)
    | with_reducible apply State.txfWrite_kept
    | with_reducible apply State.write_kept
    | with_reducible apply Kept.ite
    | with_reducible refine Kept.of_pair (by assumption) ?_
    | split

theorem execTxfWriteDone_kept {M : Nat} {b : State} {q : List Instr} {s : State} (hs : Kept M b q s) (hM : Sub 0x20000000000 M) {r : State} (e : (execTxfWriteDone s) = .next r) : Kept M b q r := by
  unfold execTxfWriteDone at e
  injection e with e; subst e
  try dsimp only
  repeat' first
    | with_reducible assumption
    | exact Sub.trans (by decide) hM
    | exact Sub.bit hM (by decide)
    | exact Sub.kind hM (by decide) _
    | (intro _; try dsimp only)
    | with_reducible apply State.fs_kept
    | with_reducible apply Kept.ite
    | with_reducible refine Kept.of_pair (by assumption) ?_
    | split

theorem State.brClrCnt_kept {M : Nat} {b : State} {q : List Instr} {s : State} (hs : Kept M b q s) (hM : Sub 0x20000000000 M) : Kept M b q (State.brClrCnt s) := by
  unfold State.brClrCnt
  try dsimp only
  repeat' first
    | with_reducible assumption
    | exact Sub.trans (by decide) hM
    | exact Sub.bit hM (by decide)
    | exact Sub.kind hM (by decide) _
    | (intro _; try dsimp only)
    | with_reducible apply State.wr_kept
    | with_reducible apply Kept.foldl
    | with_reducible apply Kept.foldlP
    | with_reducible apply Kept.ite
    | with_reducible refine Kept.of_pair (by assumption) ?_
    | split

theorem execBrClrCnt_kept {M : Nat} {b : State} {q : List Instr} {who : Initiator} {s : State} (hs : Kept M b q s) (hM : Sub 0xB000001080C M) {r : State} (e : (execBrClrCnt who s) = .next r) : Kept M b q r := by
  unfold execBrClrCnt at e
  injection e with e; subst e
  try dsimp only
  repeat' first
    | with_reducible assumption
    | exact Sub.trans (by decide) hM
    | exact Sub.bit hM (by decide)
    | exact Sub.kind hM (by decide) _
    | (intro _; try dsimp only)
    | with_reducible apply State.brClrCnt_kept
    | with_reducible apply State.write_kept
    | with_reducible apply Kept.ite
    | with_reducible refine Kept.of_pair (by assumption) ?_
    | split

end Sys2Proof.Machine
end

