-- ==== Sys2Proof/Laws/KeptAccess.lean ====
section
/-! SUPPORT. What the functions of Machine/Access.lean keep (Laws/Kept.lean). -/
namespace Sys2Proof.Machine

theorem State.twCmdWrite_kept {M : Nat} {b : State} {q : List Instr} {s : State} {v : Word} (hs : Kept M b q s) (hM : Sub 0x80000403808 M) : Kept M b q (State.twCmdWrite s v) := by
  unfold State.twCmdWrite
  try dsimp only
  repeat' first
    | with_reducible assumption
    | exact Sub.trans (by decide) hM
    | exact Sub.bit hM (by decide)
    | exact Sub.kind hM (by decide) _
    | (intro _; try dsimp only)
    | with_reducible apply State.swapRequest_kept
    | with_reducible apply State.twClrCnt_kept
    | with_reducible apply State.twRelease_kept
    | with_reducible apply State.twResetTwin_kept
    | with_reducible apply State.twResync_kept
    | with_reducible apply Kept.ite
    | with_reducible refine Kept.of_pair (by assumption) ?_
    | split

theorem State.plainClr_kept {M : Nat} {b : State} {q : List Instr} {s : State} {pre : Bool} {p : Nat} {off : Nat} {v : Word} {clr : Fld} {op : State → State} (hs : Kept M b q s) (hop : ∀ t, Kept M b q t → Kept M b q (op t)) (hM : Sub 0x400809 M) (hp2 : M.testBit (kindBit (kindOf p)) = true) : Kept M b q (State.plainClr s pre p off v clr op) := by
  unfold State.plainClr
  try dsimp only
  repeat' first
    | with_reducible assumption
    | apply hop
    | exact Sub.trans (by decide) hM
    | exact Sub.bit hM (by decide)
    | (intro _; try dsimp only)
    | exact Sub.kind hM (by decide) _
    | with_reducible apply State.plain_kept
    | with_reducible apply Kept.ite
    | with_reducible refine Kept.of_pair (by assumption) ?_
    | split

theorem State.enWrite_kept {M : Nat} {b : State} {q : List Instr} {s : State} {pre : Bool} {p : Nat} {off : Nat} {v : Word} (hs : Kept M b q s) (hM : Sub 0x1000000440809 M) (hp2 : M.testBit (kindBit (kindOf p)) = true) : Kept M b q (State.enWrite s pre p off v) := by
  unfold State.enWrite
  try dsimp only
  repeat' first
    | with_reducible assumption
    | exact Sub.trans (by decide) hM
    | exact Sub.bit hM (by decide)
    | exact Sub.kind hM (by decide) _
    | (intro _; try dsimp only)
    | with_reducible apply State.diOut_kept
    | with_reducible apply State.enModeWrite_kept
    | with_reducible apply State.pbCmdWrite_kept
    | with_reducible apply State.plain_kept
    | with_reducible apply State.syCmdWrite_kept
    | with_reducible apply Kept.ite
    | with_reducible refine Kept.of_pair (by assumption) ?_
    | split

theorem State.rpWrite_kept {M : Nat} {b : State} {q : List Instr} {s : State} {pre : Bool} {p : Nat} {off : Nat} {v : Word} (hs : Kept M b q s) (hM : Sub 0x86800403809 M) (hp2 : M.testBit (kindBit (kindOf p)) = true) : Kept M b q (State.rpWrite s pre p off v) := by
  unfold State.rpWrite
  try dsimp only
  repeat' first
    | with_reducible assumption
    | exact Sub.trans (by decide) hM
    | exact Sub.bit hM (by decide)
    | exact Sub.kind hM (by decide) _
    | (intro _; try dsimp only)
    | with_reducible apply bit_ringPage
    | with_reducible apply bit_lanePage
    | with_reducible apply State.lnCtrlWrite_kept
    | with_reducible apply State.lnSpareWrite_kept
    | with_reducible apply State.plain_kept
    | with_reducible apply State.rpClrCnt_kept
    | with_reducible apply Kept.ite
    | with_reducible refine Kept.of_pair (by assumption) ?_
    | split

theorem State.qWrite_kept {M : Nat} {b : State} {q : List Instr} {s : State} {pre : Bool} {p : Nat} {off : Nat} {v : Word} (hs : Kept M b q s) (hM : Sub 0x4000401809 M) (hp2 : M.testBit (kindBit (kindOf p)) = true) : Kept M b q (State.qWrite s pre p off v) := by
  unfold State.qWrite
  try dsimp only
  repeat' first
    | with_reducible assumption
    | exact Sub.trans (by decide) hM
    | exact Sub.bit hM (by decide)
    | exact Sub.kind hM (by decide) _
    | (intro _; try dsimp only)
    | with_reducible apply State.mbPush_kept
    | with_reducible apply State.plain_kept
    | with_reducible apply State.qClrCnt_kept
    | with_reducible apply State.qFlushWrite_kept
    | with_reducible apply Kept.ite
    | with_reducible refine Kept.of_pair (by assumption) ?_
    | split

theorem State.brWrite_kept {M : Nat} {b : State} {q : List Instr} {s : State} {pre : Bool} {off : Nat} {v : Word} (hs : Kept M b q s) (hM : Sub 0xFFFFFF7FFFFBFF M) : Kept M b q (State.brWrite s pre off v) := by
  unfold State.brWrite
  try dsimp only
  repeat' first
    | with_reducible assumption
    | exact Sub.trans (by decide) hM
    | exact Sub.bit hM (by decide)
    | exact Sub.kind hM (by decide) _
    | (intro _; try dsimp only)
    | with_reducible apply State.brClrCnt_kept
    | with_reducible apply State.fenceWrite_kept
    | with_reducible apply State.plain_kept
    | with_reducible apply State.plainClr_kept
    | with_reducible apply State.sigSend_kept
    | with_reducible apply State.txfWrite_kept
    | with_reducible apply Kept.ite
    | with_reducible refine Kept.of_pair (by assumption) ?_
    | split

theorem State.gsWrite_kept {M : Nat} {b : State} {q : List Instr} {s : State} {pre : Bool} {off : Nat} {v : Word} (hs : Kept M b q s) (hM : Sub 0xFFFFFF7FFFFBFF M) : Kept M b q (State.gsWrite s pre off v) := by
  unfold State.gsWrite
  try dsimp only
  repeat' first
    | with_reducible assumption
    | exact Sub.trans (by decide) hM
    | exact Sub.bit hM (by decide)
    | exact Sub.kind hM (by decide) _
    | (intro _; try dsimp only)
    | with_reducible apply State.holdWrite_kept
    | with_reducible apply State.plain_kept
    | with_reducible apply State.softReset_kept
    | with_reducible apply State.wdogKick_kept
    | with_reducible apply Kept.ite
    | with_reducible refine Kept.of_pair (by assumption) ?_
    | split

theorem State.blockWrite_kept {M : Nat} {b : State} {q : List Instr} {s : State} {pre : Bool} {p : Nat} {off : Nat} {v : Word} (hs : Kept M b q s) (hM : Sub 0xFFFFFF7FFFFBFF M) (hp2 : M.testBit (kindBit (kindOf p)) = true) : Kept M b q (State.blockWrite s pre p off v) := by
  unfold State.blockWrite
  try dsimp only
  repeat' first
    | with_reducible assumption
    | exact Sub.trans (by decide) hM
    | exact Sub.bit hM (by decide)
    | exact Sub.kind hM (by decide) _
    | (intro _; try dsimp only)
    | with_reducible apply bit_ringPage
    | with_reducible apply bit_lanePage
    | with_reducible apply State.bankCmd_kept
    | with_reducible apply State.brWrite_kept
    | with_reducible apply State.clCtrlWrite_kept
    | with_reducible apply State.coreClrCnt_kept
    | with_reducible apply State.coreSpareCmd_kept
    | with_reducible apply State.ecClrCnt_kept
    | with_reducible apply State.ecMigWrite_kept
    | with_reducible apply State.enWrite_kept
    | with_reducible apply State.fdClr_kept
    | with_reducible apply State.ftCtrlWrite_kept
    | with_reducible apply State.ftReleaseWrite_kept
    | with_reducible apply State.fuseProg_kept
    | with_reducible apply State.gsWrite_kept
    | with_reducible apply State.lnCtrlWrite_kept
    | with_reducible apply State.lnSpareWrite_kept
    | with_reducible apply State.marchCmd_kept
    | with_reducible apply State.memClrCnt_kept
    | with_reducible apply State.plain_kept
    | with_reducible apply State.plainClr_kept
    | with_reducible apply State.pllCmd_kept
    | with_reducible apply State.ppCtrl_kept
    | with_reducible apply State.qWrite_kept
    | with_reducible apply State.refCmd_kept
    | with_reducible apply State.rpWrite_kept
    | with_reducible apply State.rstSend_kept
    | with_reducible apply State.scClrCnt_kept
    | with_reducible apply State.scOpubSend_kept
    | with_reducible apply State.smpWrite_kept
    | with_reducible apply State.tmCtrlWrite_kept
    | with_reducible apply State.twCmdWrite_kept
    | with_reducible apply State.upCtrlWrite_kept
    | with_reducible apply State.updCmd_kept
    | with_reducible apply State.wr_kept
    | with_reducible apply State.wrCmdWrite_kept
    | with_reducible apply State.wrapFrozen_kept
    | with_reducible apply Kept.ite
    | with_reducible refine Kept.of_pair (by assumption) ?_
    | split
    | with_reducible refine Kept.set_gs ?_ ?_

theorem State.headerWrite_kept {M : Nat} {b : State} {q : List Instr} {s : State} {pre : Bool} {p : Nat} {off : Nat} {v : Word} (hs : Kept M b q s) (hM : Sub 0xFFFFFF3FCFF86F M) (hp2 : M.testBit (kindBit (kindOf p)) = true) : Kept M b q (State.headerWrite s pre p off v) := by
  unfold State.headerWrite
  try dsimp only
  repeat' first
    | with_reducible assumption
    | exact Sub.trans (by decide) hM
    | exact Sub.bit hM (by decide)
    | exact Sub.kind hM (by decide) _
    | (intro _; try dsimp only)
    | with_reducible apply bit_ringPage
    | with_reducible apply bit_lanePage
    | with_reducible apply State.force_kept
    | with_reducible apply State.mirrorCfg_kept
    | with_reducible apply State.pageCtrl_kept
    | with_reducible apply State.tmCompat_kept
    | with_reducible apply State.wrCompat_kept
    | with_reducible apply State.wrEvtEnable_kept
    | with_reducible apply State.wrEvtStatus_kept
    | with_reducible apply Kept.ite
    | with_reducible refine Kept.of_pair (by assumption) ?_
    | split

theorem State.regApply_kept {M : Nat} {b : State} {q : List Instr} {s : State} {pre : Bool} {p : Nat} {off : Nat} {v : Word} (hs : Kept M b q s) (hM : Sub 0xFFFFFF7FFFFBFF M) (hp2 : M.testBit (kindBit (kindOf p)) = true) : Kept M b q (State.regApply s pre p off v) := by
  unfold State.regApply
  try dsimp only
  repeat' first
    | with_reducible assumption
    | exact Sub.trans (by decide) hM
    | exact Sub.bit hM (by decide)
    | exact Sub.kind hM (by decide) _
    | (intro _; try dsimp only)
    | with_reducible apply State.blockWrite_kept
    | with_reducible apply State.headerWrite_kept
    | with_reducible apply Kept.ite
    | with_reducible refine Kept.of_pair (by assumption) ?_
    | split

theorem State.regWrite_kept {M : Nat} {b : State} {q : List Instr} {s : State} {who : Initiator} {p0 : Nat} {off : Nat} {v : Word} (hs : Kept M b q s) (hM : Sub 0xFFFFFF7FFFFBFF M) (hp2 : M.testBit (kindBit (kindOf p0)) = true) : Kept M b q (State.regWrite s who p0 off v) := by
  unfold State.regWrite
  try dsimp only
  repeat' first
    | with_reducible assumption
    | exact Sub.trans (by decide) hM
    | exact Sub.bit hM (by decide)
    | exact Sub.kind hM (by decide) _
    | (intro _; try dsimp only)
    | with_reducible apply bit_enAlias
    | with_reducible apply State.regApply_kept
    | with_reducible apply State.viaSup_kept
    | with_reducible apply State.write_kept
    | with_reducible apply Kept.ite
    | with_reducible refine Kept.of_pair (by assumption) ?_
    | split

theorem execRegisterWrite_kept {M : Nat} {b : State} {q : List Instr} {who : Initiator} {page : Nat} {off : Nat} {v : Word} {s : State} (hs : Kept M b q s) (hM : Sub 0xFFFFFF7FFFFBFF M) (hp1 : M.testBit (kindBit (kindOf page)) = true) {r : State} (e : (execRegisterWrite who page off v s) = .next r) : Kept M b q r := by
  unfold execRegisterWrite at e
  injection e with e; subst e
  try dsimp only
  repeat' first
    | with_reducible assumption
    | exact Sub.trans (by decide) hM
    | exact Sub.bit hM (by decide)
    | exact Sub.kind hM (by decide) _
    | (intro _; try dsimp only)
    | with_reducible apply State.regWrite_kept
    | with_reducible apply Kept.ite
    | with_reducible refine Kept.of_pair (by assumption) ?_
    | split

theorem State.regValue_kept {M : Nat} {b : State} {q : List Instr} {s : State} {p : Nat} {off : Nat} (hs : Kept M b q s) (hM : Sub 0x6140443828 M) (hp1 : M.testBit (kindBit (kindOf p)) = true) : Kept M b q (State.regValue s p off).1 := by
  unfold State.regValue
  try dsimp only
  repeat' first
    | with_reducible assumption
    | exact Sub.trans (by decide) hM
    | exact Sub.bit hM (by decide)
    | exact Sub.kind hM (by decide) _
    | (intro _; try dsimp only)
    | with_reducible apply State.aonRead_kept
    | with_reducible apply State.diCountTake_kept
    | with_reducible apply distRead_kept
    | with_reducible apply State.mbPop_kept
    | with_reducible apply State.qrpTake_kept
    | with_reducible apply Kept.ite
    | with_reducible refine Kept.of_pair (by assumption) ?_
    | split

theorem State.regRead_kept {M : Nat} {b : State} {q : List Instr} {s : State} {who : Initiator} {p0 : Nat} {off : Nat} (hs : Kept M b q s) (hM : Sub 0x1614045382C M) (hp2 : M.testBit (kindBit (kindOf p0)) = true) : Kept M b q (State.regRead s who p0 off) := by
  unfold State.regRead
  try dsimp only
  repeat' first
    | with_reducible assumption
    | exact Sub.trans (by decide) hM
    | exact Sub.bit hM (by decide)
    | exact Sub.kind hM (by decide) _
    | (intro _; try dsimp only)
    | with_reducible apply bit_enAlias
    | with_reducible apply State.read_kept
    | with_reducible apply State.regValue_kept
    | with_reducible apply Kept.ite
    | with_reducible refine Kept.of_pair (by assumption) ?_
    | split

theorem State.canWrite_kept {M : Nat} {b : State} {q : List Instr} {s : State} {who : Initiator} {img : Image} {m : Nat} {mask : BitVec 96} {v : BitVec 96} {req : Option Frame} (hs : Kept M b q s) (hM : Sub 0x410000 M) : Kept M b q (State.canWrite s who img m mask v req).1 := by
  unfold State.canWrite
  try dsimp only
  repeat' first
    | with_reducible assumption
    | exact Sub.trans (by decide) hM
    | exact Sub.bit hM (by decide)
    | exact Sub.kind hM (by decide) _
    | (intro _; try dsimp only)
    | with_reducible apply State.softPut_kept
    | with_reducible apply Kept.ite
    | with_reducible refine Kept.of_pair (by assumption) ?_
    | split
    | with_reducible refine Kept.set_scan ?_ ?_

theorem State.canRead_kept {M : Nat} {b : State} {q : List Instr} {s : State} {img : Image} {m : Nat} (hs : Kept M b q s) (hM : Sub 0x8000000000808 M) : Kept M b q (State.canRead s img m).1 := by
  unfold State.canRead
  try dsimp only
  repeat' first
    | with_reducible assumption
    | exact Sub.trans (by decide) hM
    | exact Sub.bit hM (by decide)
    | exact Sub.kind hM (by decide) _
    | (intro _; try dsimp only)
    | with_reducible apply State.copyRead_kept
    | with_reducible apply Kept.ite
    | with_reducible refine Kept.of_pair (by assumption) ?_
    | split

theorem State.spreadAccess_kept {M : Nat} {b : State} {q : List Instr} {s0 : State} {who : Initiator} {img : Image} {w : Nat} {write : Bool} {data : Word} {be : BitVec 4} {req : Option Frame} (hs0 : Kept M b q s0) (hM : Sub 0x8010000410808 M) : Kept M b q (State.spreadAccess s0 who img w write data be req).1 := by
  unfold State.spreadAccess
  try dsimp only
  repeat' first
    | with_reducible assumption
    | exact Sub.trans (by decide) hM
    | exact Sub.bit hM (by decide)
    | exact Sub.kind hM (by decide) _
    | (intro _; try dsimp only)
    | with_reducible apply State.canRead_kept
    | with_reducible apply State.canWrite_kept
    | with_reducible apply State.touch_kept
    | with_reducible apply State.write_kept
    | with_reducible apply Kept.ite
    | with_reducible refine Kept.of_pair (by assumption) ?_
    | split

theorem State.packFor_kept {M : Nat} {b : State} {q : List Instr} {s0 : State} {who : Initiator} {img : Image} {m : Nat} (hs0 : Kept M b q s0) (hM : Sub 0x10000010808 M) : Kept M b q (State.packFor s0 who img m).1 := by
  unfold State.packFor
  try dsimp only
  repeat' first
    | with_reducible assumption
    | exact Sub.trans (by decide) hM
    | exact Sub.bit hM (by decide)
    | exact Sub.kind hM (by decide) _
    | (intro _; try dsimp only)
    | with_reducible apply State.touch_kept
    | with_reducible apply Kept.ite
    | with_reducible refine Kept.of_pair (by assumption) ?_
    | split

theorem State.packWrite_kept {M : Nat} {b : State} {q : List Instr} {s0 : State} {who : Initiator} {img : Image} {m : Nat} {j : Nat} {data : Word} {be : BitVec 4} {req : Option Frame} (hs0 : Kept M b q s0) (hM : Sub 0x10000410808 M) : Kept M b q (State.packWrite s0 who img m j data be req).1 := by
  unfold State.packWrite
  try dsimp only
  repeat' first
    | with_reducible assumption
    | exact Sub.trans (by decide) hM
    | exact Sub.bit hM (by decide)
    | exact Sub.kind hM (by decide) _
    | (intro _; try dsimp only)
    | with_reducible apply State.canWrite_kept
    | with_reducible apply State.packFor_kept
    | with_reducible apply Kept.ite
    | with_reducible refine Kept.of_pair (by assumption) ?_
    | split
    | with_reducible refine Kept.set_scan ?_ ?_

theorem State.packRead_kept {M : Nat} {b : State} {q : List Instr} {s0 : State} {who : Initiator} {img : Image} {m : Nat} {j : Nat} (hs0 : Kept M b q s0) (hM : Sub 0x8010000010808 M) : Kept M b q (State.packRead s0 who img m j).1 := by
  unfold State.packRead
  try dsimp only
  repeat' first
    | with_reducible assumption
    | exact Sub.trans (by decide) hM
    | exact Sub.bit hM (by decide)
    | exact Sub.kind hM (by decide) _
    | (intro _; try dsimp only)
    | with_reducible apply State.canRead_kept
    | with_reducible apply State.packFor_kept
    | with_reducible apply State.touch_kept
    | with_reducible apply Kept.ite
    | with_reducible refine Kept.of_pair (by assumption) ?_
    | split
    | with_reducible refine Kept.set_scan ?_ ?_

theorem State.scratch_kept {M : Nat} {b : State} {q : List Instr} {s0 : State} {who : Initiator} {a : Nat} {write : Bool} {data : Word} {be : BitVec 4} {req : Option Frame} (hs0 : Kept M b q s0) (hM : Sub 0x8010040014808 M) : Kept M b q (State.scratch s0 who a write data be req).1 := by
  unfold State.scratch
  try dsimp only
  repeat' first
    | with_reducible assumption
    | exact Sub.trans (by decide) hM
    | exact Sub.bit hM (by decide)
    | exact Sub.kind hM (by decide) _
    | (intro _; try dsimp only)
    | with_reducible apply State.spAccess_kept
    | with_reducible apply State.touch_kept
    | with_reducible apply State.write_kept
    | with_reducible apply Kept.ite
    | with_reducible refine Kept.of_pair (by assumption) ?_
    | split
    | with_reducible refine Kept.set_mem ?_ ?_

theorem State.mramAccess_kept {M : Nat} {b : State} {q : List Instr} {s0 : State} {who : Initiator} {a : Nat} {write : Bool} (hs0 : Kept M b q s0) (hM : Sub 0x10000010808 M) : Kept M b q (State.mramAccess s0 who a write).1 := by
  unfold State.mramAccess
  try dsimp only
  repeat' first
    | with_reducible assumption
    | exact Sub.trans (by decide) hM
    | exact Sub.bit hM (by decide)
    | exact Sub.kind hM (by decide) _
    | (intro _; try dsimp only)
    | with_reducible apply State.touch_kept
    | with_reducible apply State.write_kept
    | with_reducible apply Kept.ite
    | with_reducible refine Kept.of_pair (by assumption) ?_
    | split

theorem State.regAccess_kept {M : Nat} {b : State} {q : List Instr} {s : State} {who : Initiator} {off : Nat} {write : Bool} {data : Word} {be : BitVec 4} (hs : Kept M b q s) (hM : Sub 0xFFFFFF7FFFFBFF M) : Kept M b q (State.regAccess s who off write data be).1 := by
  unfold State.regAccess
  try dsimp only
  repeat' first
    | with_reducible assumption
    | exact Sub.trans (by decide) hM
    | exact Sub.bit hM (by decide)
    | exact Sub.kind hM (by decide) _
    | (intro _; try dsimp only)
    | with_reducible apply State.regRead_kept
    | with_reducible apply State.regWrite_kept
    | with_reducible apply State.touch_kept
    | with_reducible apply State.write_kept
    | with_reducible apply Kept.ite
    | with_reducible refine Kept.of_pair (by assumption) ?_
    | split

theorem State.localAccess_kept {M : Nat} {b : State} {q : List Instr} {s : State} {who : Initiator} {off : Nat} {write : Bool} {data : Word} {be : BitVec 4} {req : Option Frame} (hs : Kept M b q s) (hM : Sub 0xFFFFFF7FFFFBFF M) : Kept M b q (State.localAccess s who off write data be req).1 := by
  unfold State.localAccess
  try dsimp only
  repeat' first
    | with_reducible assumption
    | exact Sub.trans (by decide) hM
    | exact Sub.bit hM (by decide)
    | exact Sub.kind hM (by decide) _
    | (intro _; try dsimp only)
    | with_reducible apply State.mramAccess_kept
    | with_reducible apply State.packRead_kept
    | with_reducible apply State.packWrite_kept
    | with_reducible apply State.regAccess_kept
    | with_reducible apply State.scratch_kept
    | with_reducible apply State.spreadAccess_kept
    | with_reducible apply State.touch_kept
    | with_reducible apply State.write_kept
    | with_reducible apply Kept.ite
    | with_reducible refine Kept.of_pair (by assumption) ?_
    | split

theorem State.answered_kept {M : Nat} {b : State} {q : List Instr} {who : Initiator} {x : State × Option (Nat × Word)} (hx : Kept M b q x.1) (hM : Sub 0x6000004 M) : Kept M b q (State.answered who x) := by
  unfold State.answered
  try dsimp only
  repeat' first
    | with_reducible assumption
    | exact Sub.trans (by decide) hM
    | exact Sub.bit hM (by decide)
    | exact Sub.kind hM (by decide) _
    | (intro _; try dsimp only)
    | with_reducible apply State.finish_kept
    | with_reducible apply Kept.ite
    | with_reducible refine Kept.of_pair (by assumption) ?_
    | split

theorem execCanopyWrite_kept {M : Nat} {b : State} {q : List Instr} {who : Initiator} {img : Image} {word : Nat} {data : Word} {be : BitVec 4} {s : State} (hs : Kept M b q s) (hM : Sub 0xFFFFFF7FFFFBFF M) {r : State} (e : (execCanopyWrite who img word data be s) = .next r) : Kept M b q r := by
  unfold execCanopyWrite at e
  injection e with e; subst e
  try dsimp only
  repeat' first
    | with_reducible assumption
    | exact Sub.trans (by decide) hM
    | exact Sub.bit hM (by decide)
    | exact Sub.kind hM (by decide) _
    | (intro _; try dsimp only)
    | with_reducible apply State.answered_kept
    | with_reducible apply State.localAccess_kept
    | with_reducible apply State.touch_kept
    | with_reducible apply Kept.ite
    | with_reducible refine Kept.of_pair (by assumption) ?_
    | split

theorem execCanopyPackedWrite_kept {M : Nat} {b : State} {q : List Instr} {who : Initiator} {img : Image} {group : Nat} {word : Fin 3} {data : Word} {be : BitVec 4} {s : State} (hs : Kept M b q s) (hM : Sub 0xFFFFFF7FFFFBFF M) {r : State} (e : (execCanopyPackedWrite who img group word data be s) = .next r) : Kept M b q r := by
  unfold execCanopyPackedWrite at e
  injection e with e; subst e
  try dsimp only
  repeat' first
    | with_reducible assumption
    | exact Sub.trans (by decide) hM
    | exact Sub.bit hM (by decide)
    | exact Sub.kind hM (by decide) _
    | (intro _; try dsimp only)
    | with_reducible apply State.answered_kept
    | with_reducible apply State.localAccess_kept
    | with_reducible apply State.touch_kept
    | with_reducible apply Kept.ite
    | with_reducible refine Kept.of_pair (by assumption) ?_
    | split

theorem execCanopyPackedRead_kept {M : Nat} {b : State} {q : List Instr} {who : Initiator} {img : Image} {group : Nat} {word : Fin 3} {s : State} (hs : Kept M b q s) (hM : Sub 0xFFFFFF7FFFFBFF M) {r : State} (e : (execCanopyPackedRead who img group word s) = .next r) : Kept M b q r := by
  unfold execCanopyPackedRead at e
  injection e with e; subst e
  try dsimp only
  repeat' first
    | with_reducible assumption
    | exact Sub.trans (by decide) hM
    | exact Sub.bit hM (by decide)
    | exact Sub.kind hM (by decide) _
    | (intro _; try dsimp only)
    | with_reducible apply State.answered_kept
    | with_reducible apply State.localAccess_kept
    | with_reducible apply State.touch_kept
    | with_reducible apply Kept.ite
    | with_reducible refine Kept.of_pair (by assumption) ?_
    | split

theorem State.writeWords_kept {M : Nat} {b : State} {q : List Instr} {f : Frame} {a : List Nat} {x2 : Bool} {x3 : State} (hx3 : Kept M b q x3) (hM : Sub 0xFFFFFF7FFFFBFF M) : Kept M b q (State.writeWords f a x2 x3).1 := by
  fun_induction State.writeWords f a x2 x3
  all_goals repeat' first
    | with_reducible assumption
    | exact Sub.trans (by decide) hM
    | exact Sub.bit hM (by decide)
    | exact Sub.kind hM (by decide) _
    | (intro _; try dsimp only)
    | with_reducible apply State.localAccess_kept
    | with_reducible apply Kept.ite
    | with_reducible refine Kept.of_pair (by assumption) ?_
    | split
    | apply_assumption

theorem State.readWords_kept {M : Nat} {b : State} {q : List Instr} {a : List Nat} {x1 : State} (hx1 : Kept M b q x1) (hM : Sub 0xFFFFFF7FFFFBFF M) : Kept M b q (State.readWords a x1).1 := by
  fun_induction State.readWords a x1
  all_goals repeat' first
    | with_reducible assumption
    | exact Sub.trans (by decide) hM
    | exact Sub.bit hM (by decide)
    | exact Sub.kind hM (by decide) _
    | (intro _; try dsimp only)
    | with_reducible apply State.localAccess_kept
    | with_reducible apply Kept.ite
    | with_reducible refine Kept.of_pair (by assumption) ?_
    | split
    | apply_assumption

theorem State.serveWrite_kept {M : Nat} {b : State} {q : List Instr} {s : State} {f : Frame} (hs : Kept M b q s) (hM : Sub 0xFFFFFF7FFFFBFF M) : Kept M b q (State.serveWrite s f) := by
  unfold State.serveWrite
  try dsimp only
  repeat' first
    | with_reducible assumption
    | exact Sub.trans (by decide) hM
    | exact Sub.bit hM (by decide)
    | exact Sub.kind hM (by decide) _
    | (intro _; try dsimp only)
    | with_reducible apply State.localAccess_kept
    | with_reducible apply State.reqDone_kept
    | with_reducible apply State.write_kept
    | with_reducible apply State.writeWords_kept
    | with_reducible apply Kept.ite
    | with_reducible refine Kept.of_pair (by assumption) ?_
    | split
    | with_reducible refine Kept.set_mem ?_ ?_
    | with_reducible refine Kept.set_scan ?_ ?_
    | (refine Kept.upd (s := ?_) ?_ ?_ ?_ ?_ ?_ ?_ ?_ ?_ ?_ ?_ ?_ ?_ ?_ ?_ ?_ ?_ ?_ ?_ ?_ ?_ ?_ ?_ ?_ ?_ ?_ ?_ ?_ ?_ ?_ ?_ ?_ <;> first | rfl | exact Or.inl rfl | exact Or.inr (hM.bit (by decide)) | skip)

theorem State.serveRead_kept {M : Nat} {b : State} {q : List Instr} {s : State} {f : Frame} (hs : Kept M b q s) (hM : Sub 0xFFFFFF7FFFFBFF M) : Kept M b q (State.serveRead s f) := by
  unfold State.serveRead
  try dsimp only
  repeat' first
    | with_reducible assumption
    | exact Sub.trans (by decide) hM
    | exact Sub.bit hM (by decide)
    | exact Sub.kind hM (by decide) _
    | (intro _; try dsimp only)
    | with_reducible apply State.localAccess_kept
    | with_reducible apply State.readWords_kept
    | with_reducible apply State.reqDone_kept
    | with_reducible apply Kept.ite
    | with_reducible refine Kept.of_pair (by assumption) ?_
    | split
    | with_reducible refine Kept.set_mem ?_ ?_

theorem State.serve_kept {M : Nat} {b : State} {q : List Instr} {s : State} {f : Frame} (hs : Kept M b q s) (hM : Sub 0xFFFFFF7FFFFBFF M) : Kept M b q (State.serve s f) := by
  unfold State.serve
  try dsimp only
  repeat' first
    | with_reducible assumption
    | exact Sub.trans (by decide) hM
    | exact Sub.bit hM (by decide)
    | exact Sub.kind hM (by decide) _
    | (intro _; try dsimp only)
    | with_reducible apply State.reqDone_kept
    | with_reducible apply State.serveRead_kept
    | with_reducible apply State.serveWrite_kept
    | with_reducible apply Kept.ite
    | with_reducible refine Kept.of_pair (by assumption) ?_
    | split

theorem State.fenceArrives_kept {M : Nat} {b : State} {q : List Instr} {s : State} {f : Frame} (hs : Kept M b q s) (hM : Sub 0x1000800 M) : Kept M b q (State.fenceArrives s f) := by
  unfold State.fenceArrives
  try dsimp only
  repeat' first
    | with_reducible assumption
    | exact Sub.trans (by decide) hM
    | exact Sub.bit hM (by decide)
    | exact Sub.kind hM (by decide) _
    | (intro _; try dsimp only)
    | with_reducible apply State.complete_kept
    | with_reducible apply Kept.ite
    | with_reducible refine Kept.of_pair (by assumption) ?_
    | split
    | with_reducible refine Kept.set_br ?_ ?_

theorem execIncomingRequest_kept {M : Nat} {b : State} {q : List Instr} {s : State} (hs : Kept M b q s) (hM : Sub 0xFFFFFF7FFFFBFF M) {r : State} (e : (execIncomingRequest s) = .next r) : Kept M b q r := by
  unfold execIncomingRequest at e
  injection e with e; subst e
  try dsimp only
  repeat' first
    | with_reducible assumption
    | exact Sub.trans (by decide) hM
    | exact Sub.bit hM (by decide)
    | exact Sub.kind hM (by decide) _
    | (intro _; try dsimp only)
    | with_reducible apply State.complete_kept
    | with_reducible apply State.fenceArrives_kept
    | refine State.inboxTake_kept ?_ ?_ (by assumption)
    | with_reducible apply State.inc_kept
    | with_reducible apply State.serve_kept
    | with_reducible apply Kept.ite
    | with_reducible refine Kept.of_pair (by assumption) ?_
    | split
    | with_reducible refine Kept.set_br ?_ ?_

theorem execFarFenceComplete_kept {M : Nat} {b : State} {q : List Instr} {s : State} (hs : Kept M b q s) (hM : Sub 0x1000800 M) {r : State} (e : (execFarFenceComplete s) = .next r) : Kept M b q r := by
  unfold execFarFenceComplete at e
  injection e with e; subst e
  try dsimp only
  repeat' first
    | with_reducible assumption
    | exact Sub.trans (by decide) hM
    | exact Sub.bit hM (by decide)
    | exact Sub.kind hM (by decide) _
    | (intro _; try dsimp only)
    | with_reducible apply State.originate_kept
    | with_reducible apply Kept.ite
    | with_reducible refine Kept.of_pair (by assumption) ?_
    | split
    | with_reducible refine Kept.set_br ?_ ?_

theorem State.spAgain_kept {M : Nat} {b : State} {q : List Instr} {s : State} {x1 : SpHold} (hs : Kept M b q s) (hM : Sub 0xFFFFFF7FFFFBFF M) : Kept M b q (State.spAgain s x1) := by
  unfold State.spAgain
  try dsimp only
  repeat' first
    | with_reducible assumption
    | exact Sub.trans (by decide) hM
    | exact Sub.bit hM (by decide)
    | exact Sub.kind hM (by decide) _
    | (intro _; try dsimp only)
    | with_reducible apply State.answered_kept
    | with_reducible apply State.scratch_kept
    | with_reducible apply State.serve_kept
    | with_reducible apply State.write_kept
    | with_reducible apply Kept.ite
    | with_reducible refine Kept.of_pair (by assumption) ?_
    | split
    | with_reducible refine Kept.set_mem ?_ ?_

theorem execBankDrainDone_kept {M : Nat} {b : State} {q : List Instr} {bank : Fin 8} {s : State} (hs : Kept M b q s) (hM : Sub 0xFFFFFF7FFFFBFF M) {r : State} (e : (execBankDrainDone bank s) = .next r) : Kept M b q r := by
  unfold execBankDrainDone at e
  injection e with e; subst e
  try dsimp only
  repeat' first
    | with_reducible assumption
    | exact Sub.trans (by decide) hM
    | exact Sub.bit hM (by decide)
    | exact Sub.kind hM (by decide) _
    | (intro _; try dsimp only)
    | with_reducible apply State.bankDrained_kept
    | with_reducible apply State.spAgain_kept
    | with_reducible apply Kept.foldl
    | with_reducible apply Kept.foldlP
    | with_reducible apply Kept.ite
    | with_reducible refine Kept.of_pair (by assumption) ?_
    | split
    | with_reducible refine Kept.set_mem ?_ ?_

theorem State.guardRelease_kept {M : Nat} {b : State} {q : List Instr} {s : State} (hs : Kept M b q s) (hM : Sub 0x7010804 M) : Kept M b q (State.guardRelease s) := by
  unfold State.guardRelease
  try dsimp only
  repeat' first
    | with_reducible assumption
    | exact Sub.trans (by decide) hM
    | exact Sub.bit hM (by decide)
    | exact Sub.kind hM (by decide) _
    | (intro _; try dsimp only)
    | with_reducible apply State.finish_kept
    | with_reducible apply State.reqDone_kept
    | with_reducible apply Kept.foldl
    | with_reducible apply Kept.foldlP
    | with_reducible apply Kept.ite
    | with_reducible refine Kept.of_pair (by assumption) ?_
    | split
    | with_reducible refine Kept.set_scan ?_ ?_

end Sys2Proof.Machine
end

