-- ==== Sys2Proof/Laws/KeptHostPort.lean ====
section
/-! SUPPORT. What the functions of Machine/HostPort.lean keep (Laws/Kept.lean). -/
namespace Sys2Proof.Machine

theorem State.access_kept {M : Nat} {b : State} {q : List Instr} {s : State} {who : Initiator} {a : Nat} {write : Bool} {data : Word} {be : BitVec 4} (hs : Kept M b q s) (hM : Sub 0xFFFFFF7FFFFBFF M) : Kept M b q (State.access s who a write data be) := by
  unfold State.access
  try dsimp only
  repeat' first
    | with_reducible assumption
    | exact Sub.trans (by decide) hM
    | exact Sub.bit hM (by decide)
    | exact Sub.kind hM (by decide) _
    | (intro _; try dsimp only)
    | with_reducible apply State.answered_kept
    | with_reducible apply State.farAccess_kept
    | with_reducible apply State.finish_kept
    | with_reducible apply State.localAccess_kept
    | with_reducible apply State.touch_kept
    | with_reducible apply State.write_kept
    | with_reducible apply Kept.ite
    | with_reducible refine Kept.of_pair (by assumption) ?_
    | split

theorem State.abandon_kept {M : Nat} {b : State} {q : List Instr} {s : State} {who : Initiator} {a : Acc} (hs : Kept M b q s) (hM : Sub 0x20001014808 M) : Kept M b q (State.abandon s who a) := by
  unfold State.abandon
  try dsimp only
  repeat' first
    | with_reducible assumption
    | exact Sub.trans (by decide) hM
    | exact Sub.bit hM (by decide)
    | exact Sub.kind hM (by decide) _
    | (intro _; try dsimp only)
    | with_reducible apply State.abandoned_kept
    | with_reducible apply State.write_kept
    | with_reducible apply Kept.ite
    | with_reducible refine Kept.of_pair (by assumption) ?_
    | split
    | with_reducible refine Kept.set_br ?_ ?_
    | with_reducible refine Kept.set_mem ?_ ?_
    | with_reducible refine Kept.set_scan ?_ ?_
    | (refine Kept.upd (s := ?_) ?_ ?_ ?_ ?_ ?_ ?_ ?_ ?_ ?_ ?_ ?_ ?_ ?_ ?_ ?_ ?_ ?_ ?_ ?_ ?_ ?_ ?_ ?_ ?_ ?_ ?_ ?_ ?_ ?_ ?_ ?_ <;> first | rfl | exact Or.inl rfl | exact Or.inr (hM.bit (by decide)) | skip)

theorem State.cycle_kept {M : Nat} {b : State} {q : List Instr} {s : State} {k : Option Nat} (hs : Kept M b q s) (hM : Sub 0x4 M) : Kept M b q (State.cycle s k) := by
  unfold State.cycle
  try dsimp only
  repeat' first
    | with_reducible assumption
    | exact Sub.trans (by decide) hM
    | exact Sub.bit hM (by decide)
    | exact Sub.kind hM (by decide) _
    | (intro _; try dsimp only)
    | with_reducible apply Kept.ite
    | with_reducible refine Kept.of_pair (by assumption) ?_
    | split
    | with_reducible refine Kept.set_ans ?_ ?_

theorem State.hostProto_kept {M : Nat} {b : State} {q : List Instr} {s : State} (hs : Kept M b q s) (hM : Sub 0x40000000000 M) : Kept M b q (State.hostProto s) := by
  unfold State.hostProto
  try dsimp only
  repeat' first
    | with_reducible assumption
    | exact Sub.trans (by decide) hM
    | exact Sub.bit hM (by decide)
    | exact Sub.kind hM (by decide) _
    | (intro _; try dsimp only)
    | with_reducible apply State.inc_kept
    | with_reducible apply Kept.ite
    | with_reducible refine Kept.of_pair (by assumption) ?_
    | split

theorem State.controlBlock_kept {M : Nat} {b : State} {q : List Instr} {s0 : State} {addr : Nat} {write : Bool} {data : Word} {be : BitVec 4} (hs0 : Kept M b q s0) (hM : Sub 0x5000241080D M) : Kept M b q (State.controlBlock s0 addr write data be) := by
  unfold State.controlBlock
  try dsimp only
  repeat' first
    | with_reducible assumption
    | exact Sub.trans (by decide) hM
    | exact Sub.bit hM (by decide)
    | exact Sub.kind hM (by decide) _
    | (intro _; try dsimp only)
    | with_reducible apply State.answer_kept
    | with_reducible apply State.cycle_kept
    | with_reducible apply State.plain_kept
    | with_reducible apply State.touch_kept
    | with_reducible apply State.write_kept
    | with_reducible apply Kept.ite
    | with_reducible refine Kept.of_pair (by assumption) ?_
    | split
    | with_reducible refine Kept.set_host ?_ ?_

theorem State.padAnswer_kept {M : Nat} {b : State} {q : List Instr} {s : State} (hs : Kept M b q s) (hM : Sub 0x4 M) : Kept M b q (State.padAnswer s) := by
  unfold State.padAnswer
  try dsimp only
  repeat' first
    | with_reducible assumption
    | exact Sub.trans (by decide) hM
    | exact Sub.bit hM (by decide)
    | exact Sub.kind hM (by decide) _
    | (intro _; try dsimp only)
    | with_reducible apply State.answer_kept
    | with_reducible apply State.cycle_kept
    | with_reducible apply Kept.ite
    | with_reducible refine Kept.of_pair (by assumption) ?_
    | split

theorem State.apertureAccess_kept {M : Nat} {b : State} {q : List Instr} {s : State} {addr : Nat} {write : Bool} {data : Word} {be : BitVec 4} (hs : Kept M b q s) (hM : Sub 0xFFFFFF7FFFFBFF M) : Kept M b q (State.apertureAccess s addr write data be) := by
  unfold State.apertureAccess
  try dsimp only
  repeat' first
    | with_reducible assumption
    | exact Sub.trans (by decide) hM
    | exact Sub.bit hM (by decide)
    | exact Sub.kind hM (by decide) _
    | (intro _; try dsimp only)
    | with_reducible apply State.access_kept
    | with_reducible apply State.cycle_kept
    | with_reducible apply State.finish_kept
    | with_reducible apply State.touch_kept
    | with_reducible apply State.write_kept
    | with_reducible apply Kept.ite
    | with_reducible refine Kept.of_pair (by assumption) ?_
    | split
    | with_reducible refine Kept.set_host ?_ ?_

theorem execHostAccess_kept {M : Nat} {b : State} {q : List Instr} {addr : BitVec 27} {write : Bool} {data : Word} {be : BitVec 4} {s : State} (hs : Kept M b q s) (hM : Sub 0xFFFFFF7FFFFBFF M) {r : State} (e : (execHostAccess addr write data be s) = .next r) : Kept M b q r := by
  unfold execHostAccess at e
  injection e with e; subst e
  try dsimp only
  repeat' first
    | with_reducible assumption
    | exact Sub.trans (by decide) hM
    | exact Sub.bit hM (by decide)
    | exact Sub.kind hM (by decide) _
    | (intro _; try dsimp only)
    | with_reducible apply State.apertureAccess_kept
    | with_reducible apply State.controlBlock_kept
    | with_reducible apply State.hostProto_kept
    | with_reducible apply State.padAnswer_kept
    | with_reducible apply State.write_kept
    | with_reducible apply Kept.ite
    | with_reducible refine Kept.of_pair (by assumption) ?_
    | split

theorem execHostControlBlockAccess_kept {M : Nat} {b : State} {q : List Instr} {addr : BitVec 26} {write : Bool} {data : Word} {be : BitVec 4} {s : State} (hs : Kept M b q s) (hM : Sub 0x5000241080D M) {r : State} (e : (execHostControlBlockAccess addr write data be s) = .next r) : Kept M b q r := by
  unfold execHostControlBlockAccess at e
  injection e with e; subst e
  try dsimp only
  repeat' first
    | with_reducible assumption
    | exact Sub.trans (by decide) hM
    | exact Sub.bit hM (by decide)
    | exact Sub.kind hM (by decide) _
    | (intro _; try dsimp only)
    | with_reducible apply State.controlBlock_kept
    | with_reducible apply State.hostProto_kept
    | with_reducible apply State.padAnswer_kept
    | with_reducible apply State.write_kept
    | with_reducible apply Kept.ite
    | with_reducible refine Kept.of_pair (by assumption) ?_
    | split

theorem execPadResponderAccess_kept {M : Nat} {b : State} {q : List Instr} {x0 : BitVec 27} {x1 : Bool} {x2 : Word} {s : State} (hs : Kept M b q s) (hM : Sub 0x4 M) {r : State} (e : (execPadResponderAccess x0 x1 x2 s) = .next r) : Kept M b q r := by
  unfold execPadResponderAccess at e
  injection e with e; subst e
  try dsimp only
  repeat' first
    | with_reducible assumption
    | exact Sub.trans (by decide) hM
    | exact Sub.bit hM (by decide)
    | exact Sub.kind hM (by decide) _
    | (intro _; try dsimp only)
    | with_reducible apply State.padAnswer_kept
    | with_reducible apply Kept.ite
    | with_reducible refine Kept.of_pair (by assumption) ?_
    | split

theorem execHostAdsDuringAccess_kept {M : Nat} {b : State} {q : List Instr} {s : State} (hs : Kept M b q s) (hM : Sub 0x40000000000 M) {r : State} (e : (execHostAdsDuringAccess s) = .next r) : Kept M b q r := by
  unfold execHostAdsDuringAccess at e
  injection e with e; subst e
  try dsimp only
  repeat' first
    | with_reducible assumption
    | exact Sub.trans (by decide) hM
    | exact Sub.bit hM (by decide)
    | exact Sub.kind hM (by decide) _
    | (intro _; try dsimp only)
    | with_reducible apply State.hostProto_kept
    | with_reducible apply Kept.ite
    | with_reducible refine Kept.of_pair (by assumption) ?_
    | split

theorem execHostAccessAbandon_kept {M : Nat} {b : State} {q : List Instr} {s : State} (hs : Kept M b q s) (hM : Sub 0x20003014808 M) {r : State} (e : (execHostAccessAbandon s) = .next r) : Kept M b q r := by
  unfold execHostAccessAbandon at e
  injection e with e; subst e
  try dsimp only
  repeat' first
    | with_reducible assumption
    | exact Sub.trans (by decide) hM
    | exact Sub.bit hM (by decide)
    | exact Sub.kind hM (by decide) _
    | (intro _; try dsimp only)
    | with_reducible apply State.abandon_kept
    | with_reducible apply Kept.ite
    | with_reducible refine Kept.of_pair (by assumption) ?_
    | split
    | with_reducible refine Kept.set_host ?_ ?_

theorem State.spiAccess_kept {M : Nat} {b : State} {q : List Instr} {s : State} {cmd : Nat} {addr : Nat} {data : Word} (hs : Kept M b q s) (hM : Sub 0xFFFFFF7FFFFBFF M) : Kept M b q (State.spiAccess s cmd addr data) := by
  unfold State.spiAccess
  try dsimp only
  repeat' first
    | with_reducible assumption
    | exact Sub.trans (by decide) hM
    | exact Sub.bit hM (by decide)
    | exact Sub.kind hM (by decide) _
    | (intro _; try dsimp only)
    | with_reducible apply State.answered_kept
    | with_reducible apply State.finish_kept
    | with_reducible apply State.localAccess_kept
    | with_reducible apply State.write_kept
    | with_reducible apply Kept.ite
    | with_reducible refine Kept.of_pair (by assumption) ?_
    | split
    | with_reducible refine Kept.set_spi ?_ ?_

theorem execSpiFrame_kept {M : Nat} {b : State} {q : List Instr} {cmd : BitVec 8} {addr : BitVec 32} {data : Word} {s : State} (hs : Kept M b q s) (hM : Sub 0xFFFFFF7FFFFBFF M) {r : State} (e : (execSpiFrame cmd addr data s) = .next r) : Kept M b q r := by
  unfold execSpiFrame at e
  injection e with e; subst e
  try dsimp only
  repeat' first
    | with_reducible assumption
    | exact Sub.trans (by decide) hM
    | exact Sub.bit hM (by decide)
    | exact Sub.kind hM (by decide) _
    | (intro _; try dsimp only)
    | with_reducible apply State.spiAccess_kept
    | with_reducible apply Kept.ite
    | with_reducible refine Kept.of_pair (by assumption) ?_
    | split

theorem execSpiAbort_kept {M : Nat} {b : State} {q : List Instr} {cmd : BitVec 8} {addr : BitVec 32} {data : Word} {s : State} (hs : Kept M b q s) (hM : Sub 0xFFFFFF7FFFFBFF M) {r : State} (e : (execSpiAbort cmd addr data s) = .next r) : Kept M b q r := by
  unfold execSpiAbort at e
  injection e with e; subst e
  try dsimp only
  repeat' first
    | with_reducible assumption
    | exact Sub.trans (by decide) hM
    | exact Sub.bit hM (by decide)
    | exact Sub.kind hM (by decide) _
    | (intro _; try dsimp only)
    | with_reducible apply State.abandon_kept
    | with_reducible apply State.inc_kept
    | with_reducible apply State.spiAccess_kept
    | with_reducible apply Kept.ite
    | with_reducible refine Kept.of_pair (by assumption) ?_
    | split
    | with_reducible refine Kept.set_spi ?_ ?_

end Sys2Proof.Machine
end

