-- ==== Sys2Proof/Laws/KeptBoundary.lean ====
section
/-! SUPPORT. What the functions of Machine/Boundary.lean keep (Laws/Kept.lean). -/
namespace Sys2Proof.Machine

theorem State.epochBoundary_kept {M : Nat} {b : State} {q : List Instr} {s : State} (hs : Kept M b q s) (hM : Sub 0xFFFFFF7FFFFBFF M) : Kept M b q (State.epochBoundary s) := by
  unfold State.epochBoundary
  try dsimp only
  repeat' first
    | with_reducible assumption
    | exact Sub.trans (by decide) hM
    | exact Sub.bit hM (by decide)
    | exact Sub.kind hM (by decide) _
    | (intro _; try dsimp only)
    | with_reducible apply State.commitEnd_kept
    | with_reducible apply State.disarmed_kept
    | with_reducible apply State.guardRelease_kept
    | with_reducible apply State.mirrorEpoch_kept
    | with_reducible apply State.scanBoundary_kept
    | with_reducible apply State.swapPoint_kept
    | with_reducible apply State.updEpoch_kept
    | with_reducible apply Kept.ite
    | with_reducible refine Kept.of_pair (by assumption) ?_
    | split
    | with_reducible refine Kept.set_scan ?_ ?_

theorem execEpochBoundary_kept {M : Nat} {b : State} {q : List Instr} {s : State} (hs : Kept M b q s) (hM : Sub 0xFFFFFF7FFFFBFF M) {r : State} (e : (execEpochBoundary s) = .next r) : Kept M b q r := by
  unfold execEpochBoundary at e
  injection e with e; subst e
  try dsimp only
  repeat' first
    | with_reducible assumption
    | exact Sub.trans (by decide) hM
    | exact Sub.bit hM (by decide)
    | exact Sub.kind hM (by decide) _
    | (intro _; try dsimp only)
    | with_reducible apply State.epochBoundary_kept
    | with_reducible apply Kept.ite
    | with_reducible refine Kept.of_pair (by assumption) ?_
    | split

theorem execLatchDone_kept {M : Nat} {b : State} {q : List Instr} {s : State} (hs : Kept M b q s) (hM : Sub 0x8000000454808 M) {r : State} (e : (execLatchDone s) = .next r) : Kept M b q r := by
  unfold execLatchDone at e
  injection e with e; subst e
  try dsimp only
  repeat' first
    | with_reducible assumption
    | exact Sub.trans (by decide) hM
    | exact Sub.bit hM (by decide)
    | exact Sub.kind hM (by decide) _
    | (intro _; try dsimp only)
    | with_reducible apply State.histWrite_kept
    | with_reducible apply State.latchAll_kept
    | with_reducible apply State.publishAll_kept
    | with_reducible apply Kept.ite
    | with_reducible refine Kept.of_pair (by assumption) ?_
    | split

theorem execBlockStopPoint_kept {M : Nat} {b : State} {q : List Instr} {page : Nat} {s : State} (hs : Kept M b q s) (hM : Sub 0xFFFFFF7FFFFBFF M) (hp0 : M.testBit (kindBit (kindOf page)) = true) {r : State} (e : (execBlockStopPoint page s) = .next r) : Kept M b q r := by
  unfold execBlockStopPoint at e
  injection e with e; subst e
  try dsimp only
  repeat' first
    | with_reducible assumption
    | exact Sub.trans (by decide) hM
    | exact Sub.bit hM (by decide)
    | exact Sub.kind hM (by decide) _
    | (intro _; try dsimp only)
    | with_reducible apply State.epochBoundary_kept
    | with_reducible apply State.stopPoint_kept
    | with_reducible apply Kept.ite
    | with_reducible refine Kept.of_pair (by assumption) ?_
    | split

theorem State.loopLive_kept {M : Nat} {b : State} {q : List Instr} {s : State} {n : Nat} {live : Nat} (hs : Kept M b q s) (hM : Sub 0x400000020808 M) : Kept M b q (State.loopLive s n live) := by
  unfold State.loopLive
  try dsimp only
  repeat' first
    | with_reducible assumption
    | exact Sub.trans (by decide) hM
    | exact Sub.bit hM (by decide)
    | exact Sub.kind hM (by decide) _
    | (intro _; try dsimp only)
    | with_reducible apply bit_clPage
    | with_reducible apply State.fs_kept
    | with_reducible apply State.raiseIf_kept
    | with_reducible apply State.setCard_kept
    | with_reducible apply Kept.ite
    | with_reducible refine Kept.of_pair (by assumption) ?_
    | split

theorem State.sfBlock_kept {M : Nat} {b : State} {q : List Instr} {s : State} {n : Nat} (hs : Kept M b q s) (hM : Sub 0x20000 M) : Kept M b q (State.sfBlock s n) := by
  have hr : ∀ {ty pay t}, s.relayNext n = some (ty, pay, t) → Kept M b q t := by
    intro ty pay t e
    unfold State.relayNext at e
    dsimp only at e
    repeat' split at e
    all_goals cases e
    all_goals exact State.setCard_kept hs (Sub.trans (by decide) hM)
  unfold State.sfBlock
  dsimp only
  refine Kept.ite (State.sbNext_kept hs (Sub.trans (by decide) hM)) (Kept.ite (State.sbNext_kept (State.setCard_kept hs (Sub.trans (by decide) hM)) (Sub.trans (by decide) hM))
    (Kept.ite (State.sbNext_kept hs (Sub.trans (by decide) hM)) ?_))
  split
  · next h => exact State.sbNext_kept (hr h) (Sub.trans (by decide) hM)
  · exact State.sbNext_kept hs (Sub.trans (by decide) hM)

theorem State.superframe_kept {M : Nat} {b : State} {q : List Instr} {s : State} {n : Nat} {live : Nat} (hs : Kept M b q s) (hM : Sub 0xFFFFFF7FFFFBFF M) : Kept M b q (State.superframe s n live) := by
  unfold State.superframe
  try dsimp only
  repeat' first
    | with_reducible assumption
    | exact Sub.trans (by decide) hM
    | exact Sub.bit hM (by decide)
    | exact Sub.kind hM (by decide) _
    | (intro _; try dsimp only)
    | with_reducible apply bit_ecPage
    | with_reducible apply bit_clPage
    | with_reducible apply State.commitPoint_kept
    | with_reducible apply State.loopLive_kept
    | with_reducible apply State.relayJudge_kept
    | with_reducible apply State.relaySent_kept
    | with_reducible apply State.setCard_kept
    | with_reducible apply State.sfBlock_kept
    | with_reducible apply State.stopPoint_kept
    | with_reducible apply Kept.ite
    | with_reducible refine Kept.of_pair (by assumption) ?_
    | split

theorem execSuperframeBoundary_kept {M : Nat} {b : State} {q : List Instr} {pitch : Pitch} {live : Nat} {s : State} (hs : Kept M b q s) (hM : Sub 0xFFFFFF7FFFFBFF M) {r : State} (e : (execSuperframeBoundary pitch live s) = .next r) : Kept M b q r := by
  unfold execSuperframeBoundary at e
  injection e with e; subst e
  try dsimp only
  repeat' first
    | with_reducible assumption
    | exact Sub.trans (by decide) hM
    | exact Sub.bit hM (by decide)
    | exact Sub.kind hM (by decide) _
    | (intro _; try dsimp only)
    | with_reducible apply State.newSwapCheck_kept
    | with_reducible apply State.superframe_kept
    | with_reducible apply State.swapPoint_kept
    | with_reducible apply Kept.ite
    | with_reducible refine Kept.of_pair (by assumption) ?_
    | split

end Sys2Proof.Machine
end

