-- ==== Sys2Proof/Laws/KeptControlLink.lean ====
section
/-! SUPPORT. What the functions of Machine/ControlLink.lean keep (Laws/Kept.lean). -/
namespace Sys2Proof.Machine

theorem execSupvWriteArrive_kept {M : Nat} {b : State} {q : List Instr} {s : State} (hs : Kept M b q s) (hM : Sub 0xFFFFFF7FFFFBFF M) {r : State} (e : (execSupvWriteArrive s) = .next r) : Kept M b q r := by
  unfold execSupvWriteArrive at e
  injection e with e; subst e
  try dsimp only
  repeat' first
    | with_reducible assumption
    | exact Sub.trans (by decide) hM
    | exact Sub.bit hM (by decide)
    | exact Sub.kind hM (by decide) _
    | (intro _; try dsimp only)
    | with_reducible apply bit_ringPage
    | with_reducible apply bit_lanePage
    | with_reducible apply State.regApply_kept
    | with_reducible apply Kept.ite
    | with_reducible refine Kept.of_pair (by assumption) ?_
    | split
    | with_reducible refine Kept.set_supv ?_ ?_

theorem State.supOut_kept {M : Nat} {b : State} {q : List Instr} {s : State} {p : Nat} (hs : Kept M b q s) (hM : Sub 0x808 M) (hp1 : M.testBit (kindBit (kindOf p)) = true) : Kept M b q (State.supOut s p) := by
  unfold State.supOut
  try dsimp only
  repeat' first
    | with_reducible assumption
    | exact Sub.trans (by decide) hM
    | exact Sub.bit hM (by decide)
    | exact Sub.kind hM (by decide) _
    | (intro _; try dsimp only)
    | with_reducible apply State.refuseUnready_kept
    | with_reducible apply State.setState_kept
    | with_reducible apply Kept.ite
    | with_reducible refine Kept.of_pair (by assumption) ?_
    | split

theorem execSupvLinkDown_kept {M : Nat} {b : State} {q : List Instr} {s : State} (hs : Kept M b q s) (hM : Sub 0x10300000800808 M) {r : State} (e : (execSupvLinkDown s) = .next r) : Kept M b q r := by
  unfold execSupvLinkDown at e
  injection e with e; subst e
  refine Kept.ite hs (State.raise_kept (Kept.foldlM (Kept.set_supv hs (hM.bit (by decide))) fun t p hp h => State.supOut_kept h (Sub.trans (by decide) hM) ?_)
    (Sub.trans (by decide) hM) (hM.bit (by decide)))
  have hk : kindOf p = some .fd ∨ kindOf p = some .pp := by
    revert p; decide
  rcases hk with e | e <;> rw [e] <;> exact hM.bit (by decide)

theorem execSupvLinkUp_kept {M : Nat} {b : State} {q : List Instr} {s : State} (hs : Kept M b q s) (hM : Sub 0x800000 M) {r : State} (e : (execSupvLinkUp s) = .next r) : Kept M b q r := by
  unfold execSupvLinkUp at e
  injection e with e; subst e
  try dsimp only
  repeat' first
    | with_reducible assumption
    | exact Sub.trans (by decide) hM
    | exact Sub.bit hM (by decide)
    | exact Sub.kind hM (by decide) _
    | (intro _; try dsimp only)
    | with_reducible apply Kept.ite
    | with_reducible refine Kept.of_pair (by assumption) ?_
    | split
    | with_reducible refine Kept.set_supv ?_ ?_

theorem execControlFrameReceived_kept {M : Nat} {b : State} {q : List Instr} {ok : Bool} {s : State} (hs : Kept M b q s) (hM : Sub 0x10000000800808 M) {r : State} (e : (execControlFrameReceived ok s) = .next r) : Kept M b q r := by
  unfold execControlFrameReceived at e
  injection e with e; subst e
  try dsimp only
  repeat' first
    | with_reducible assumption
    | exact Sub.trans (by decide) hM
    | exact Sub.bit hM (by decide)
    | exact Sub.kind hM (by decide) _
    | (intro _; try dsimp only)
    | with_reducible apply State.raise_kept
    | with_reducible apply Kept.ite
    | with_reducible refine Kept.of_pair (by assumption) ?_
    | split
    | with_reducible refine Kept.set_supv ?_ ?_

theorem State.optCommit_kept {M : Nat} {b : State} {q : List Instr} {s : State} {p : Nat} {off : Nat} (hs : Kept M b q s) (hM : Sub 0x1138A909C7B809 M) (hp1 : M.testBit (kindBit (kindOf p)) = true) : Kept M b q (State.optCommit s p off) := by
  unfold State.optCommit
  try dsimp only
  repeat' first
    | with_reducible assumption
    | exact Sub.trans (by decide) hM
    | exact Sub.bit hM (by decide)
    | exact Sub.kind hM (by decide) _
    | (intro _; try dsimp only)
    | with_reducible apply State.commitEnd_kept
    | with_reducible apply State.fs_kept
    | with_reducible apply State.inc_kept
    | with_reducible apply State.raise_kept
    | with_reducible apply Kept.ite
    | with_reducible refine Kept.of_pair (by assumption) ?_
    | split

theorem State.optWrite_kept {M : Nat} {b : State} {q : List Instr} {s : State} {off : Nat} {ty : Nat} {v : Nat} (hs : Kept M b q s) (hM : Sub 0xFFFFFF7FFFFBFF M) : Kept M b q (State.optWrite s off ty v) := by
  unfold State.optWrite
  try dsimp only
  repeat' first
    | with_reducible assumption
    | exact Sub.trans (by decide) hM
    | exact Sub.bit hM (by decide)
    | exact Sub.kind hM (by decide) _
    | (intro _; try dsimp only)
    | with_reducible apply bit_enAlias
    | with_reducible apply State.commitWrite_kept
    | with_reducible apply State.optCommit_kept
    | with_reducible apply State.regWrite_kept
    | with_reducible apply Kept.ite
    | with_reducible refine Kept.of_pair (by assumption) ?_
    | split

theorem execOptApplyRecord_kept {M : Nat} {b : State} {q : List Instr} {s : State} (hs : Kept M b q s) (hM : Sub 0xFFFFFF7FFFFBFF M) {r : State} (e : (execOptApplyRecord s) = .next r) : Kept M b q r := by
  unfold execOptApplyRecord at e
  injection e with e; subst e
  try dsimp only
  repeat' first
    | with_reducible assumption
    | exact Sub.trans (by decide) hM
    | exact Sub.bit hM (by decide)
    | exact Sub.kind hM (by decide) _
    | (intro _; try dsimp only)
    | with_reducible apply State.optWrite_kept
    | with_reducible apply State.record_kept
    | with_reducible apply State.setOpt_kept
    | with_reducible apply Kept.ite
    | with_reducible refine Kept.of_pair (by assumption) ?_
    | split
    | with_reducible refine Kept.set_gs ?_ ?_

theorem State.eqLoad_kept {M : Nat} {b : State} {q : List Instr} {s : State} {n : Nat} (hs : Kept M b q s) (hM : Sub 0xFFFFFF00000000 M) : Kept M b q (State.eqLoad s n) := by
  unfold State.eqLoad
  try dsimp only
  repeat' first
    | with_reducible assumption
    | exact Sub.trans (by decide) hM
    | exact Sub.bit hM (by decide)
    | exact Sub.kind hM (by decide) _
    | (intro _; try dsimp only)
    | with_reducible apply State.wr_kept
    | with_reducible apply Kept.ite
    | with_reducible refine Kept.of_pair (by assumption) ?_
    | split

theorem execOptEqualize_kept {M : Nat} {b : State} {q : List Instr} {s : State} (hs : Kept M b q s) (hM : Sub 0xFFFFFF70004828 M) {r : State} (e : (execOptEqualize s) = .next r) : Kept M b q r := by
  unfold execOptEqualize at e
  injection e with e; subst e
  try dsimp only
  repeat' first
    | with_reducible assumption
    | exact Sub.trans (by decide) hM
    | exact Sub.bit hM (by decide)
    | exact Sub.kind hM (by decide) _
    | (intro _; try dsimp only)
    | with_reducible apply bit_qPage
    | with_reducible apply State.eqLoad_kept
    | with_reducible apply State.fs_kept
    | with_reducible apply State.toDone_kept
    | with_reducible apply Kept.foldl
    | with_reducible apply Kept.foldlP
    | with_reducible apply Kept.ite
    | with_reducible refine Kept.of_pair (by assumption) ?_
    | split

end Sys2Proof.Machine
end

