-- ==== Sys2Proof/Laws/KeptMirror.lean ====
section
/-! SUPPORT. What the functions of Machine/Mirror.lean keep (Laws/Kept.lean). -/
namespace Sys2Proof.Machine

theorem State.mirCfg_kept {M : Nat} {b : State} {q : List Instr} {s : State} {bs : List Byte} (hs : Kept M b q s) (hM : Sub 0xFFFFFF7FFFFBFF M) : Kept M b q (State.mirCfg s bs) := by
  unfold State.mirCfg
  try dsimp only
  repeat' first
    | with_reducible assumption
    | exact Sub.trans (by decide) hM
    | exact Sub.bit hM (by decide)
    | exact Sub.kind hM (by decide) _
    | (intro _; try dsimp only)
    | with_reducible apply State.mirror_kept
    | with_reducible apply State.regWrite_kept
    | with_reducible apply Kept.ite
    | with_reducible refine Kept.of_pair (by assumption) ?_
    | split

theorem State.mirCanopy_kept {M : Nat} {b : State} {q : List Instr} {s : State} {epoch : Nat} {bs : List Byte} (hs : Kept M b q s) (hM : Sub 0x80000411808 M) : Kept M b q (State.mirCanopy s epoch bs) := by
  unfold State.mirCanopy
  try dsimp only
  repeat' first
    | with_reducible assumption
    | exact Sub.trans (by decide) hM
    | exact Sub.bit hM (by decide)
    | exact Sub.kind hM (by decide) _
    | (intro _; try dsimp only)
    | with_reducible apply State.askResync_kept
    | with_reducible apply State.errClear_kept
    | with_reducible apply State.grpPut_kept
    | with_reducible apply State.inc_kept
    | with_reducible apply State.mirrorJudge_kept
    | with_reducible apply Kept.ite
    | with_reducible refine Kept.of_pair (by assumption) ?_
    | split
    | with_reducible refine Kept.set_scan ?_ ?_
    | with_reducible refine Kept.set_tw ?_ ?_
    | (refine Kept.upd (s := ?_) ?_ ?_ ?_ ?_ ?_ ?_ ?_ ?_ ?_ ?_ ?_ ?_ ?_ ?_ ?_ ?_ ?_ ?_ ?_ ?_ ?_ ?_ ?_ ?_ ?_ ?_ ?_ ?_ ?_ ?_ ?_ <;> first | rfl | exact Or.inl rfl | exact Or.inr (hM.bit (by decide)) | skip)

theorem State.mirTime_kept {M : Nat} {b : State} {q : List Instr} {s : State} {bs : List Byte} (hs : Kept M b q s) (hM : Sub 0x88000408808 M) : Kept M b q (State.mirTime s bs) := by
  unfold State.mirTime
  try dsimp only
  repeat' first
    | with_reducible assumption
    | exact Sub.trans (by decide) hM
    | exact Sub.bit hM (by decide)
    | exact Sub.kind hM (by decide) _
    | (intro _; try dsimp only)
    | with_reducible apply State.mirrorJudge_kept
    | with_reducible apply State.select_kept
    | with_reducible apply Kept.ite
    | with_reducible refine Kept.of_pair (by assumption) ?_
    | split
    | with_reducible refine Kept.set_tw ?_ ?_

theorem State.mirEngine_kept {M : Nat} {b : State} {q : List Instr} {s : State} {bs : List Byte} (hs : Kept M b q s) (hM : Sub 0x1000000440000 M) : Kept M b q (State.mirEngine s bs) := by
  unfold State.mirEngine
  try dsimp only
  repeat' first
    | with_reducible assumption
    | exact Sub.trans (by decide) hM
    | exact Sub.bit hM (by decide)
    | exact Sub.kind hM (by decide) _
    | (intro _; try dsimp only)
    | with_reducible apply State.engLoad_kept
    | with_reducible apply Kept.ite
    | with_reducible refine Kept.of_pair (by assumption) ?_
    | split
    | with_reducible refine Kept.set_tw ?_ ?_

theorem State.popOwed_kept {M : Nat} {b : State} {q : List Instr} {s : State} {x1 : Nat} {a : Nat} (hs : Kept M b q s) (hM : Sub 0x403000 M) : Kept M b q (State.popOwed s x1 a) := by
  induction a generalizing s with
  | zero => exact hs
  | succ k ih =>
    unfold State.popOwed
    split
    · exact hs
    · split
      · exact hs
      · apply ih
        refine State.endCopy_kept (State.setQue_kept (Kept.set_tw hs (hM.bit (by decide))) (Sub.trans (by decide) hM)) (Sub.trans (by decide) hM)

theorem State.mbDrop_kept {M : Nat} {b : State} {q : List Instr} {m : Nat} {a : Nat} {x2 : State} (hx2 : Kept M b q x2) (hM : Sub 0x6040403808 M) : Kept M b q (State.mbDrop m a x2) := by
  fun_induction State.mbDrop m a x2
  all_goals repeat' first
    | with_reducible assumption
    | exact Sub.trans (by decide) hM
    | exact Sub.bit hM (by decide)
    | exact Sub.kind hM (by decide) _
    | (intro _; try dsimp only)
    | with_reducible apply State.mbPop_kept
    | with_reducible apply Kept.ite
    | with_reducible refine Kept.of_pair (by assumption) ?_
    | split
    | apply_assumption

theorem State.mirQueue_kept {M : Nat} {b : State} {q : List Instr} {s : State} {bs : List Byte} (hs : Kept M b q s) (hM : Sub 0x6040403808 M) : Kept M b q (State.mirQueue s bs) := by
  unfold State.mirQueue
  try dsimp only
  repeat' first
    | with_reducible assumption
    | exact Sub.trans (by decide) hM
    | exact Sub.bit hM (by decide)
    | exact Sub.kind hM (by decide) _
    | (intro _; try dsimp only)
    | with_reducible apply State.mbDrop_kept
    | with_reducible apply State.mbPush_kept
    | with_reducible apply State.popOwed_kept
    | with_reducible apply Kept.ite
    | with_reducible refine Kept.of_pair (by assumption) ?_
    | split
    | with_reducible refine Kept.set_tw ?_ ?_

theorem State.mirLinks_kept {M : Nat} {b : State} {q : List Instr} {s : State} {bs : List Byte} (hs : Kept M b q s) (hM : Sub 0x80000400808 M) : Kept M b q (State.mirLinks s bs) := by
  unfold State.mirLinks
  try dsimp only
  repeat' first
    | with_reducible assumption
    | exact Sub.trans (by decide) hM
    | exact Sub.bit hM (by decide)
    | exact Sub.kind hM (by decide) _
    | (intro _; try dsimp only)
    | with_reducible apply State.mirrorJudge_kept
    | with_reducible apply Kept.ite
    | with_reducible refine Kept.of_pair (by assumption) ?_
    | split
    | with_reducible refine Kept.set_tw ?_ ?_

theorem State.mirEntry_kept {M : Nat} {b : State} {q : List Instr} {kind : Nat} {epoch : Nat} {s : State} {bs : List Byte} (hs : Kept M b q s) (hM : Sub 0xFFFFFF7FFFFBFF M) : Kept M b q (State.mirEntry kind epoch s bs) := by
  unfold State.mirEntry
  try dsimp only
  repeat' first
    | with_reducible assumption
    | exact Sub.trans (by decide) hM
    | exact Sub.bit hM (by decide)
    | exact Sub.kind hM (by decide) _
    | (intro _; try dsimp only)
    | with_reducible apply State.mirCanopy_kept
    | with_reducible apply State.mirCfg_kept
    | with_reducible apply State.mirEngine_kept
    | with_reducible apply State.mirLinks_kept
    | with_reducible apply State.mirQueue_kept
    | with_reducible apply State.mirTime_kept
    | with_reducible apply Kept.ite
    | with_reducible refine Kept.of_pair (by assumption) ?_
    | split

theorem State.snapStart_kept {M : Nat} {b : State} {q : List Instr} {s : State} (hs : Kept M b q s) (hM : Sub 0x82000403808 M) : Kept M b q (State.snapStart s) := by
  unfold State.snapStart
  try dsimp only
  repeat' first
    | with_reducible assumption
    | exact Sub.trans (by decide) hM
    | exact Sub.bit hM (by decide)
    | exact Sub.kind hM (by decide) _
    | (intro _; try dsimp only)
    | with_reducible apply State.flushQueue_kept
    | with_reducible apply State.resync_kept
    | with_reducible apply Kept.foldl
    | with_reducible apply Kept.foldlP
    | with_reducible apply Kept.ite
    | with_reducible refine Kept.of_pair (by assumption) ?_
    | split
    | with_reducible refine Kept.set_tw ?_ ?_

theorem State.mirEntries_kept {M : Nat} {b : State} {q : List Instr} {kind : Nat} {epoch : Nat} {a : List Byte} {x3 : Nat} {x4 : State} (hx4 : Kept M b q x4) (hM : Sub 0xFFFFFF7FFFFBFF M) : Kept M b q (State.mirEntries kind epoch a x3 x4) := by
  fun_induction State.mirEntries kind epoch a x3 x4
  all_goals repeat' first
    | with_reducible assumption
    | exact Sub.trans (by decide) hM
    | exact Sub.bit hM (by decide)
    | exact Sub.kind hM (by decide) _
    | (intro _; try dsimp only)
    | with_reducible apply State.mirEntry_kept
    | with_reducible apply Kept.ite
    | with_reducible refine Kept.of_pair (by assumption) ?_
    | split
    | apply_assumption

theorem State.mirrorIn_kept {M : Nat} {b : State} {q : List Instr} {s : State} {f : Frame} (hs : Kept M b q s) (hM : Sub 0xFFFFFF7FFFFBFF M) : Kept M b q (State.mirrorIn s f) := by
  unfold State.mirrorIn
  try dsimp only
  repeat' first
    | with_reducible assumption
    | exact Sub.trans (by decide) hM
    | exact Sub.bit hM (by decide)
    | exact Sub.kind hM (by decide) _
    | (intro _; try dsimp only)
    | with_reducible apply State.askResync_kept
    | with_reducible apply State.fs_kept
    | with_reducible apply State.mirEntries_kept
    | with_reducible apply State.mirrorJudge_kept
    | with_reducible apply State.snapStart_kept
    | with_reducible apply Kept.ite
    | with_reducible refine Kept.of_pair (by assumption) ?_
    | split
    | with_reducible refine Kept.set_tw ?_ ?_

theorem execMirrorReceived_kept {M : Nat} {b : State} {q : List Instr} {s : State} (hs : Kept M b q s) (hM : Sub 0xFFFFFF7FFFFBFF M) {r : State} (e : (execMirrorReceived s) = .next r) : Kept M b q r := by
  unfold execMirrorReceived at e
  injection e with e; subst e
  try dsimp only
  repeat' first
    | with_reducible assumption
    | exact Sub.trans (by decide) hM
    | exact Sub.bit hM (by decide)
    | exact Sub.kind hM (by decide) _
    | (intro _; try dsimp only)
    | with_reducible apply State.mirrorIn_kept
    | refine State.twinTake_kept ?_ ?_ (by assumption)
    | with_reducible apply Kept.ite
    | with_reducible refine Kept.of_pair (by assumption) ?_
    | split

theorem State.qcopyLost_kept {M : Nat} {b : State} {q : List Instr} {s : State} (hs : Kept M b q s) (hM : Sub 0x80000401808 M) : Kept M b q (State.qcopyLost s) := by
  unfold State.qcopyLost
  try dsimp only
  repeat' first
    | with_reducible assumption
    | exact Sub.trans (by decide) hM
    | exact Sub.bit hM (by decide)
    | exact Sub.kind hM (by decide) _
    | (intro _; try dsimp only)
    | with_reducible apply State.askResync_kept
    | with_reducible apply Kept.ite
    | with_reducible refine Kept.of_pair (by assumption) ?_
    | split
    | with_reducible refine Kept.set_tw ?_ ?_

theorem execTwinPortFrameReceive_kept {M : Nat} {b : State} {q : List Instr} {bytes : List Byte} {ending : Ending} {s0 : State} (hs0 : Kept M b q s0) (hM : Sub 0x80800403808 M) {r : State} (e : (execTwinPortFrameReceive bytes ending s0) = .next r) : Kept M b q r := by
  unfold execTwinPortFrameReceive at e
  injection e with e; subst e
  try dsimp only
  repeat' first
    | with_reducible assumption
    | exact Sub.trans (by decide) hM
    | exact Sub.bit hM (by decide)
    | exact Sub.kind hM (by decide) _
    | (intro _; try dsimp only)
    | with_reducible apply bit_ringPage
    | with_reducible apply bit_lanePage
    | with_reducible apply State.endingMarks_kept
    | with_reducible apply State.inc_kept
    | with_reducible apply State.qcopyLost_kept
    | with_reducible apply State.stage_kept
    | with_reducible apply Kept.ite
    | with_reducible refine Kept.of_pair (by assumption) ?_
    | split
    | with_reducible refine Kept.set_tw ?_ ?_

theorem execQcopyReceived_kept {M : Nat} {b : State} {q : List Instr} {s : State} (hs : Kept M b q s) (hM : Sub 0x82800403808 M) {r : State} (e : (execQcopyReceived s) = .next r) : Kept M b q r := by
  unfold execQcopyReceived at e
  injection e with e; subst e
  try dsimp only
  repeat' first
    | with_reducible assumption
    | exact Sub.trans (by decide) hM
    | exact Sub.bit hM (by decide)
    | exact Sub.kind hM (by decide) _
    | (intro _; try dsimp only)
    | with_reducible apply bit_qPage
    | with_reducible apply State.askResync_kept
    | with_reducible apply State.placeDirect_kept
    | with_reducible apply State.popOwed_kept
    | refine State.twinTake_kept ?_ ?_ (by assumption)
    | with_reducible apply Kept.ite
    | with_reducible refine Kept.of_pair (by assumption) ?_
    | split
    | with_reducible refine Kept.set_tw ?_ ?_

theorem execTwinUpdatePoll_kept {M : Nat} {b : State} {q : List Instr} {s : State} (hs : Kept M b q s) (hM : Sub 0xFFFFFF7FFFFBFF M) {r : State} (e : (execTwinUpdatePoll s) = .next r) : Kept M b q r := by
  unfold execTwinUpdatePoll at e
  injection e with e; subst e
  try dsimp only
  repeat' first
    | with_reducible assumption
    | exact Sub.trans (by decide) hM
    | exact Sub.bit hM (by decide)
    | exact Sub.kind hM (by decide) _
    | (intro _; try dsimp only)
    | with_reducible apply State.forward_kept
    | with_reducible apply Kept.foldl
    | with_reducible apply Kept.foldlP
    | with_reducible apply Kept.ite
    | with_reducible refine Kept.of_pair (by assumption) ?_
    | split

end Sys2Proof.Machine
end

