-- ==== Sys2Proof/Laws/KeptRingReceive.lean ====
section
/-! SUPPORT. What the functions of Machine/RingReceive.lean keep (Laws/Kept.lean). -/
namespace Sys2Proof.Machine

theorem State.remoteReset_kept {M : Nat} {b : State} {q : List Instr} {s : State} {src : Nat} {cred : List Byte} (hs : Kept M b q s) (hM : Sub 0xFFFFFF7FFFFBFF M) : Kept M b q (State.remoteReset s src cred) := by
  unfold State.remoteReset
  try dsimp only
  repeat' first
    | with_reducible assumption
    | exact Sub.trans (by decide) hM
    | exact Sub.bit hM (by decide)
    | exact Sub.kind hM (by decide) _
    | (intro _; try dsimp only)
    | with_reducible apply State.inc_kept
    | with_reducible apply State.raise_kept
    | with_reducible apply State.recognise_kept
    | with_reducible apply Kept.ite
    | with_reducible refine Kept.of_pair (by assumption) ?_
    | split

theorem execRemoteResetReceived_kept {M : Nat} {b : State} {q : List Instr} {src : Fin 128} {cred : List Byte} {s : State} (hs : Kept M b q s) (hM : Sub 0xFFFFFF7FFFFBFF M) {r : State} (e : (execRemoteResetReceived src cred s) = .next r) : Kept M b q r := by
  unfold execRemoteResetReceived at e
  injection e with e; subst e
  try dsimp only
  repeat' first
    | with_reducible assumption
    | exact Sub.trans (by decide) hM
    | exact Sub.bit hM (by decide)
    | exact Sub.kind hM (by decide) _
    | (intro _; try dsimp only)
    | with_reducible apply State.remoteReset_kept
    | with_reducible apply Kept.ite
    | with_reducible refine Kept.of_pair (by assumption) ?_
    | split

theorem State.rxFail_kept {M : Nat} {b : State} {q : List Instr} {s : State} {p : RingPort} {f : Fld} (hs : Kept M b q s) (hM : Sub 0x80800000808 M) : Kept M b q (State.rxFail s p f) := by
  unfold State.rxFail
  try dsimp only
  repeat' first
    | with_reducible assumption
    | exact Sub.trans (by decide) hM
    | exact Sub.bit hM (by decide)
    | exact Sub.kind hM (by decide) _
    | (intro _; try dsimp only)
    | with_reducible apply bit_ringPage
    | with_reducible apply bit_lanePage
    | with_reducible apply State.inc_kept
    | with_reducible apply State.raise_kept
    | with_reducible apply Kept.ite
    | with_reducible refine Kept.of_pair (by assumption) ?_
    | split

theorem State.cellsIn_kept {M : Nat} {b : State} {q : List Instr} {s : State} {p : RingPort} {c : Cls} {n : Nat} (hs : Kept M b q s) (hM : Sub 0x2000 M) : Kept M b q (State.cellsIn s p c n) := by
  unfold State.cellsIn
  try dsimp only
  repeat' first
    | with_reducible assumption
    | exact Sub.trans (by decide) hM
    | exact Sub.bit hM (by decide)
    | exact Sub.kind hM (by decide) _
    | (intro _; try dsimp only)
    | with_reducible apply bit_ringPage
    | with_reducible apply bit_lanePage
    | with_reducible apply State.setCr_kept
    | with_reducible apply Kept.ite
    | with_reducible refine Kept.of_pair (by assumption) ?_
    | split

theorem State.creditBack_kept {M : Nat} {b : State} {q : List Instr} {s : State} {p : RingPort} {x2 : Hdr} {n : Nat} (hs : Kept M b q s) (hM : Sub 0x2000 M) : Kept M b q (State.creditBack s p x2 n) := by
  unfold State.creditBack
  try dsimp only
  repeat' first
    | with_reducible assumption
    | exact Sub.trans (by decide) hM
    | exact Sub.bit hM (by decide)
    | exact Sub.kind hM (by decide) _
    | (intro _; try dsimp only)
    | with_reducible apply bit_ringPage
    | with_reducible apply bit_lanePage
    | with_reducible apply State.freed_kept
    | with_reducible apply Kept.ite
    | with_reducible refine Kept.of_pair (by assumption) ?_
    | split

theorem State.llIn_kept {M : Nat} {b : State} {q : List Instr} {s : State} {p : RingPort} {f : Frame} (hs : Kept M b q s) (hM : Sub 0x87800403808 M) : Kept M b q (State.llIn s p f) := by
  unfold State.llIn
  try dsimp only
  repeat' first
    | with_reducible assumption
    | exact Sub.trans (by decide) hM
    | exact Sub.bit hM (by decide)
    | exact Sub.kind hM (by decide) _
    | (intro _; try dsimp only)
    | with_reducible apply bit_ringPage
    | with_reducible apply bit_lanePage
    | with_reducible apply State.creditIn_kept
    | with_reducible apply State.guyIn_kept
    | with_reducible apply State.inc_kept
    | with_reducible apply State.laneCtrlIn_kept
    | with_reducible apply State.llPass_kept
    | with_reducible apply Kept.ite
    | with_reducible refine Kept.of_pair (by assumption) ?_
    | split

theorem State.logicIn_kept {M : Nat} {b : State} {q : List Instr} {s : State} {p : RingPort} {f : Frame} {toMe : Bool} (hs : Kept M b q s) (hM : Sub 0xFFFFFF7FFFFBFF M) : Kept M b q (State.logicIn s p f toMe) := by
  unfold State.logicIn
  try dsimp only
  repeat' first
    | with_reducible assumption
    | exact Sub.trans (by decide) hM
    | exact Sub.bit hM (by decide)
    | exact Sub.kind hM (by decide) _
    | (intro _; try dsimp only)
    | with_reducible apply State.inc_kept
    | with_reducible apply State.raise_kept
    | with_reducible apply State.remoteReset_kept
    | with_reducible apply Kept.ite
    | with_reducible refine Kept.of_pair (by assumption) ?_
    | split

theorem State.toCore_kept {M : Nat} {b : State} {q : List Instr} {s : State} {p : RingPort} {f : Frame} {fwd : Option RingPort} {consume : Bool} {hold : Option Nat} (hs : Kept M b q s) (hM : Sub 0x800 M) : Kept M b q (State.toCore s p f fwd consume hold) := by
  unfold State.toCore
  try dsimp only
  repeat' first
    | with_reducible assumption
    | exact Sub.trans (by decide) hM
    | exact Sub.bit hM (by decide)
    | exact Sub.kind hM (by decide) _
    | (intro _; try dsimp only)
    | with_reducible apply State.stage_kept
    | with_reducible apply Kept.ite
    | with_reducible refine Kept.of_pair (by assumption) ?_
    | split

theorem State.ringDecide_kept {M : Nat} {b : State} {q : List Instr} {s0 : State} {p : RingPort} {ff : Frame} {fc : Frame} {n : Nat} {good : Bool} (hs0 : Kept M b q s0) (hM : Sub 0xFFFFFF7FFFFBFF M) : Kept M b q (State.ringDecide s0 p ff fc n good) := by
  unfold State.ringDecide
  try dsimp only
  repeat' first
    | with_reducible assumption
    | exact Sub.trans (by decide) hM
    | exact Sub.bit hM (by decide)
    | exact Sub.kind hM (by decide) _
    | (intro _; try dsimp only)
    | with_reducible apply bit_ringPage
    | with_reducible apply bit_lanePage
    | with_reducible apply State.creditBack_kept
    | with_reducible apply State.dropLoop_kept
    | with_reducible apply State.holdFor_kept
    | with_reducible apply State.inc_kept
    | with_reducible apply State.logicIn_kept
    | with_reducible apply State.ridge_kept
    | with_reducible apply State.toCore_kept
    | with_reducible apply Kept.ite
    | with_reducible refine Kept.of_pair (by assumption) ?_
    | split

theorem State.rxFrame_kept {M : Nat} {b : State} {q : List Instr} {s : State} {p : RingPort} {bytes : List Byte} {good : Bool} {x4 : Int} (hs : Kept M b q s) (hM : Sub 0xFFFFFF7FFFFBFF M) : Kept M b q (State.rxFrame s p bytes good x4) := by
  unfold State.rxFrame
  try dsimp only
  repeat' first
    | with_reducible assumption
    | exact Sub.trans (by decide) hM
    | exact Sub.bit hM (by decide)
    | exact Sub.kind hM (by decide) _
    | (intro _; try dsimp only)
    | with_reducible apply bit_ringPage
    | with_reducible apply bit_lanePage
    | with_reducible apply State.cellsIn_kept
    | with_reducible apply State.creditBack_kept
    | with_reducible apply State.fenceIn_kept
    | with_reducible apply State.inc_kept
    | with_reducible apply State.llIn_kept
    | with_reducible apply State.llPass_kept
    | with_reducible apply State.raise_kept
    | with_reducible apply State.ringDecide_kept
    | with_reducible apply State.topoIn_kept
    | with_reducible apply Kept.ite
    | with_reducible refine Kept.of_pair (by assumption) ?_
    | split

theorem State.cutCopy_kept {M : Nat} {b : State} {q : List Instr} {s : State} {p : RingPort} {bytes : List Byte} (hs : Kept M b q s) (hM : Sub 0x2000 M) : Kept M b q (State.cutCopy s p bytes) := by
  unfold State.cutCopy
  try dsimp only
  repeat' first
    | with_reducible assumption
    | exact Sub.trans (by decide) hM
    | exact Sub.bit hM (by decide)
    | exact Sub.kind hM (by decide) _
    | (intro _; try dsimp only)
    | with_reducible apply bit_ringPage
    | with_reducible apply bit_lanePage
    | with_reducible apply State.cellsIn_kept
    | with_reducible apply State.freed_kept
    | with_reducible apply Kept.ite
    | with_reducible refine Kept.of_pair (by assumption) ?_
    | split

theorem execRingFrameReceive_kept {M : Nat} {b : State} {q : List Instr} {port : RingPort} {bytes : List Byte} {ending : Ending} {sub : Fin 26} {s0 : State} (hs0 : Kept M b q s0) (hM : Sub 0xFFFFFF7FFFFBFF M) {r : State} (e : (execRingFrameReceive port bytes ending sub s0) = .next r) : Kept M b q r := by
  unfold execRingFrameReceive at e
  injection e with e; subst e
  try dsimp only
  repeat' first
    | with_reducible assumption
    | exact Sub.trans (by decide) hM
    | exact Sub.bit hM (by decide)
    | exact Sub.kind hM (by decide) _
    | (intro _; try dsimp only)
    | with_reducible apply bit_ringPage
    | with_reducible apply bit_lanePage
    | with_reducible apply State.cutCopy_kept
    | with_reducible apply State.endingMarks_kept
    | with_reducible apply State.inc_kept
    | with_reducible apply State.rxFail_kept
    | with_reducible apply State.rxFrame_kept
    | with_reducible apply Kept.ite
    | with_reducible refine Kept.of_pair (by assumption) ?_
    | split

theorem State.twinCopy_kept {M : Nat} {b : State} {q : List Instr} {s : State} {x1 : Nat} {x2 : Int} (hs : Kept M b q s) (hM : Sub 0x80800003000 M) : Kept M b q (State.twinCopy s x1 x2) := by
  unfold State.twinCopy
  try dsimp only
  repeat' first
    | with_reducible assumption
    | exact Sub.trans (by decide) hM
    | exact Sub.bit hM (by decide)
    | exact Sub.kind hM (by decide) _
    | (intro _; try dsimp only)
    | with_reducible apply bit_ringPage
    | with_reducible apply bit_lanePage
    | with_reducible apply State.sent_kept
    | with_reducible apply State.startCopy_kept
    | with_reducible apply Kept.ite
    | with_reducible refine Kept.of_pair (by assumption) ?_
    | split

theorem State.setTurn_kept {M : Nat} {b : State} {q : List Instr} {s : State} {v : Bool} (hs : Kept M b q s) (hM : Sub 0x400000 M) : Kept M b q (State.setTurn s v) := by
  unfold State.setTurn
  try dsimp only
  repeat' first
    | with_reducible assumption
    | exact Sub.trans (by decide) hM
    | exact Sub.bit hM (by decide)
    | exact Sub.kind hM (by decide) _
    | (intro _; try dsimp only)
    | with_reducible apply Kept.ite
    | with_reducible refine Kept.of_pair (by assumption) ?_
    | split
    | with_reducible refine Kept.set_tw ?_ ?_

theorem State.twinMirror_kept {M : Nat} {b : State} {q : List Instr} {s : State} {x1 : Int} (hs : Kept M b q s) (hM : Sub 0x80800403000 M) {r : State} (e : (State.twinMirror s x1) = some r) : Kept M b q r := by
  unfold State.twinMirror at e
  split at e
  · next f u hm =>
    cases e
    exact State.sent_kept (State.mirrorFrame_kept hs (Sub.trans (by decide) hM) hm) (Sub.trans (by decide) hM)
  · obtain ⟨k, _, rfl⟩ := Option.map_eq_some_iff.1 e
    exact State.twinCopy_kept hs (Sub.trans (by decide) hM)

theorem State.twinEgress_kept {M : Nat} {b : State} {q : List Instr} {s : State} {x1 : Int} (hs : Kept M b q s) (hM : Sub 0x80800403000 M) : Kept M b q (State.twinEgress s x1) := by
  have hm : ∀ u, (s.twinMirror x1).map (fun u => u.setTurn true) = some u → Kept M b q u := by
    intro u e
    obtain ⟨v, hv, rfl⟩ := Option.map_eq_some_iff.1 e
    exact State.setTurn_kept (State.twinMirror_kept hs (Sub.trans (by decide) hM) hv) (Sub.trans (by decide) hM)
  have hc : ∀ u, (s.twinPick false).map (fun k => (s.startCopy portTwin k x1).setTurn false) = some u → Kept M b q u := by
    intro u e
    obtain ⟨v, hv, rfl⟩ := Option.map_eq_some_iff.1 e
    exact State.setTurn_kept (State.startCopy_kept hs (Sub.trans (by decide) hM)) (Sub.trans (by decide) hM)
  have ho : ∀ (x y : Option State), (∀ u, x = some u → Kept M b q u) → (∀ u, y = some u → Kept M b q u) → Kept M b q ((x <|> y).getD s) := by
    intro x y hx hy
    cases x with
    | some u => exact hx u rfl
    | none => cases y with
      | some u => exact hy u rfl
      | none => exact hs
  unfold State.twinEgress
  dsimp only
  refine Kept.ite (State.sendLL_kept hs (Sub.trans (by decide) hM)) (Kept.ite (State.twinCopy_kept hs (Sub.trans (by decide) hM)) ?_)
  split
  · exact ho _ _ hc hm
  · exact ho _ _ hm hc

theorem execEgressFrameStart_kept {M : Nat} {b : State} {q : List Instr} {port : LanePort} {sub : Fin 26} {s : State} (hs : Kept M b q s) (hM : Sub 0x86800403808 M) {r : State} (e : (execEgressFrameStart port sub s) = .next r) : Kept M b q r := by
  unfold execEgressFrameStart at e
  injection e with e; subst e
  try dsimp only
  repeat' first
    | with_reducible assumption
    | exact Sub.trans (by decide) hM
    | exact Sub.bit hM (by decide)
    | exact Sub.kind hM (by decide) _
    | (intro _; try dsimp only)
    | with_reducible apply bit_ringPage
    | with_reducible apply bit_lanePage
    | with_reducible apply State.portOff_kept
    | with_reducible apply State.ringStart_kept
    | with_reducible apply State.twinEgress_kept
    | with_reducible apply Kept.ite
    | with_reducible refine Kept.of_pair (by assumption) ?_
    | split

end Sys2Proof.Machine
end

