-- ==== Sys2Proof/Laws/State.lean ====
section
/-! SUPPORT. What each update of the state leaves alone, field by field. -/
namespace Sys2Proof.Machine

@[simp] theorem State.wr_shad (s : State) (x1 : Nat) (x2 : Nat) (x3 : Word) : (s.wr x1 x2 x3).shad = s.shad := rfl
@[simp] theorem State.wr_stopping (s : State) (x1 : Nat) (x2 : Nat) (x3 : Word) : (s.wr x1 x2 x3).stopping = s.stopping := rfl
@[simp] theorem State.wr_ans (s : State) (x1 : Nat) (x2 : Nat) (x3 : Word) : (s.wr x1 x2 x3).ans = s.ans := rfl
@[simp] theorem State.wr_faultQ (s : State) (x1 : Nat) (x2 : Nat) (x3 : Word) : (s.wr x1 x2 x3).faultQ = s.faultQ := rfl
@[simp] theorem State.wr_iso (s : State) (x1 : Nat) (x2 : Nat) (x3 : Word) : (s.wr x1 x2 x3).iso = s.iso := rfl
@[simp] theorem State.wr_gs (s : State) (x1 : Nat) (x2 : Nat) (x3 : Word) : (s.wr x1 x2 x3).gs = s.gs := rfl
@[simp] theorem State.wr_isl (s : State) (x1 : Nat) (x2 : Nat) (x3 : Word) : (s.wr x1 x2 x3).isl = s.isl := rfl
@[simp] theorem State.wr_pll (s : State) (x1 : Nat) (x2 : Nat) (x3 : Word) : (s.wr x1 x2 x3).pll = s.pll := rfl
@[simp] theorem State.wr_spll (s : State) (x1 : Nat) (x2 : Nat) (x3 : Word) : (s.wr x1 x2 x3).spll = s.spll := rfl
@[simp] theorem State.wr_mram (s : State) (x1 : Nat) (x2 : Nat) (x3 : Word) : (s.wr x1 x2 x3).mram = s.mram := rfl
@[simp] theorem State.wr_lc (s : State) (x1 : Nat) (x2 : Nat) (x3 : Word) : (s.wr x1 x2 x3).lc = s.lc := rfl
@[simp] theorem State.wr_ingress (s : State) (x1 : Nat) (x2 : Nat) (x3 : Word) : (s.wr x1 x2 x3).ingress = s.ingress := rfl
@[simp] theorem State.wr_core (s : State) (x1 : Nat) (x2 : Nat) (x3 : Word) : (s.wr x1 x2 x3).core = s.core := rfl
@[simp] theorem State.wr_ring (s : State) (x1 : Nat) (x2 : Nat) (x3 : Word) : (s.wr x1 x2 x3).ring = s.ring := rfl
@[simp] theorem State.wr_mem (s : State) (x1 : Nat) (x2 : Nat) (x3 : Word) : (s.wr x1 x2 x3).mem = s.mem := rfl
@[simp] theorem State.wr_tm (s : State) (x1 : Nat) (x2 : Nat) (x3 : Word) : (s.wr x1 x2 x3).tm = s.tm := rfl
@[simp] theorem State.wr_scan (s : State) (x1 : Nat) (x2 : Nat) (x3 : Word) : (s.wr x1 x2 x3).scan = s.scan := rfl
@[simp] theorem State.wr_cards (s : State) (x1 : Nat) (x2 : Nat) (x3 : Word) : (s.wr x1 x2 x3).cards = s.cards := rfl
@[simp] theorem State.wr_chans (s : State) (x1 : Nat) (x2 : Nat) (x3 : Word) : (s.wr x1 x2 x3).chans = s.chans := rfl
@[simp] theorem State.wr_ucode (s : State) (x1 : Nat) (x2 : Nat) (x3 : Word) : (s.wr x1 x2 x3).ucode = s.ucode := rfl
@[simp] theorem State.wr_lookWait (s : State) (x1 : Nat) (x2 : Nat) (x3 : Word) : (s.wr x1 x2 x3).lookWait = s.lookWait := rfl
@[simp] theorem State.wr_looking (s : State) (x1 : Nat) (x2 : Nat) (x3 : Word) : (s.wr x1 x2 x3).looking = s.looking := rfl
@[simp] theorem State.wr_tw (s : State) (x1 : Nat) (x2 : Nat) (x3 : Word) : (s.wr x1 x2 x3).tw = s.tw := rfl
@[simp] theorem State.wr_supv (s : State) (x1 : Nat) (x2 : Nat) (x3 : Word) : (s.wr x1 x2 x3).supv = s.supv := rfl
@[simp] theorem State.wr_br (s : State) (x1 : Nat) (x2 : Nat) (x3 : Word) : (s.wr x1 x2 x3).br = s.br := rfl
@[simp] theorem State.wr_host (s : State) (x1 : Nat) (x2 : Nat) (x3 : Word) : (s.wr x1 x2 x3).host = s.host := rfl
@[simp] theorem State.wr_spi (s : State) (x1 : Nat) (x2 : Nat) (x3 : Word) : (s.wr x1 x2 x3).spi = s.spi := rfl
@[simp] theorem State.wr_ft (s : State) (x1 : Nat) (x2 : Nat) (x3 : Word) : (s.wr x1 x2 x3).ft = s.ft := rfl
@[simp] theorem State.wr_wear (s : State) (x1 : Nat) (x2 : Nat) (x3 : Word) : (s.wr x1 x2 x3).wear = s.wear := rfl
@[simp] theorem State.wr_up (s : State) (x1 : Nat) (x2 : Nat) (x3 : Word) : (s.wr x1 x2 x3).up = s.up := rfl
@[simp] theorem State.wr_fresh (s : State) (x1 : Nat) (x2 : Nat) (x3 : Word) : (s.wr x1 x2 x3).fresh = s.fresh := rfl
@[simp] theorem State.wr_pending (s : State) (x1 : Nat) (x2 : Nat) (x3 : Word) : (s.wr x1 x2 x3).pending = s.pending := rfl

@[simp] theorem State.wrSh_regs (s : State) (x1 : Nat) (x2 : Nat) (x3 : Word) : (s.wrSh x1 x2 x3).regs = s.regs := rfl
@[simp] theorem State.wrSh_stopping (s : State) (x1 : Nat) (x2 : Nat) (x3 : Word) : (s.wrSh x1 x2 x3).stopping = s.stopping := rfl
@[simp] theorem State.wrSh_ans (s : State) (x1 : Nat) (x2 : Nat) (x3 : Word) : (s.wrSh x1 x2 x3).ans = s.ans := rfl
@[simp] theorem State.wrSh_faultQ (s : State) (x1 : Nat) (x2 : Nat) (x3 : Word) : (s.wrSh x1 x2 x3).faultQ = s.faultQ := rfl
@[simp] theorem State.wrSh_iso (s : State) (x1 : Nat) (x2 : Nat) (x3 : Word) : (s.wrSh x1 x2 x3).iso = s.iso := rfl
@[simp] theorem State.wrSh_gs (s : State) (x1 : Nat) (x2 : Nat) (x3 : Word) : (s.wrSh x1 x2 x3).gs = s.gs := rfl
@[simp] theorem State.wrSh_isl (s : State) (x1 : Nat) (x2 : Nat) (x3 : Word) : (s.wrSh x1 x2 x3).isl = s.isl := rfl
@[simp] theorem State.wrSh_pll (s : State) (x1 : Nat) (x2 : Nat) (x3 : Word) : (s.wrSh x1 x2 x3).pll = s.pll := rfl
@[simp] theorem State.wrSh_spll (s : State) (x1 : Nat) (x2 : Nat) (x3 : Word) : (s.wrSh x1 x2 x3).spll = s.spll := rfl
@[simp] theorem State.wrSh_mram (s : State) (x1 : Nat) (x2 : Nat) (x3 : Word) : (s.wrSh x1 x2 x3).mram = s.mram := rfl
@[simp] theorem State.wrSh_lc (s : State) (x1 : Nat) (x2 : Nat) (x3 : Word) : (s.wrSh x1 x2 x3).lc = s.lc := rfl
@[simp] theorem State.wrSh_ingress (s : State) (x1 : Nat) (x2 : Nat) (x3 : Word) : (s.wrSh x1 x2 x3).ingress = s.ingress := rfl
@[simp] theorem State.wrSh_core (s : State) (x1 : Nat) (x2 : Nat) (x3 : Word) : (s.wrSh x1 x2 x3).core = s.core := rfl
@[simp] theorem State.wrSh_ring (s : State) (x1 : Nat) (x2 : Nat) (x3 : Word) : (s.wrSh x1 x2 x3).ring = s.ring := rfl
@[simp] theorem State.wrSh_mem (s : State) (x1 : Nat) (x2 : Nat) (x3 : Word) : (s.wrSh x1 x2 x3).mem = s.mem := rfl
@[simp] theorem State.wrSh_tm (s : State) (x1 : Nat) (x2 : Nat) (x3 : Word) : (s.wrSh x1 x2 x3).tm = s.tm := rfl
@[simp] theorem State.wrSh_scan (s : State) (x1 : Nat) (x2 : Nat) (x3 : Word) : (s.wrSh x1 x2 x3).scan = s.scan := rfl
@[simp] theorem State.wrSh_cards (s : State) (x1 : Nat) (x2 : Nat) (x3 : Word) : (s.wrSh x1 x2 x3).cards = s.cards := rfl
@[simp] theorem State.wrSh_chans (s : State) (x1 : Nat) (x2 : Nat) (x3 : Word) : (s.wrSh x1 x2 x3).chans = s.chans := rfl
@[simp] theorem State.wrSh_ucode (s : State) (x1 : Nat) (x2 : Nat) (x3 : Word) : (s.wrSh x1 x2 x3).ucode = s.ucode := rfl
@[simp] theorem State.wrSh_lookWait (s : State) (x1 : Nat) (x2 : Nat) (x3 : Word) : (s.wrSh x1 x2 x3).lookWait = s.lookWait := rfl
@[simp] theorem State.wrSh_looking (s : State) (x1 : Nat) (x2 : Nat) (x3 : Word) : (s.wrSh x1 x2 x3).looking = s.looking := rfl
@[simp] theorem State.wrSh_tw (s : State) (x1 : Nat) (x2 : Nat) (x3 : Word) : (s.wrSh x1 x2 x3).tw = s.tw := rfl
@[simp] theorem State.wrSh_supv (s : State) (x1 : Nat) (x2 : Nat) (x3 : Word) : (s.wrSh x1 x2 x3).supv = s.supv := rfl
@[simp] theorem State.wrSh_br (s : State) (x1 : Nat) (x2 : Nat) (x3 : Word) : (s.wrSh x1 x2 x3).br = s.br := rfl
@[simp] theorem State.wrSh_host (s : State) (x1 : Nat) (x2 : Nat) (x3 : Word) : (s.wrSh x1 x2 x3).host = s.host := rfl
@[simp] theorem State.wrSh_spi (s : State) (x1 : Nat) (x2 : Nat) (x3 : Word) : (s.wrSh x1 x2 x3).spi = s.spi := rfl
@[simp] theorem State.wrSh_ft (s : State) (x1 : Nat) (x2 : Nat) (x3 : Word) : (s.wrSh x1 x2 x3).ft = s.ft := rfl
@[simp] theorem State.wrSh_wear (s : State) (x1 : Nat) (x2 : Nat) (x3 : Word) : (s.wrSh x1 x2 x3).wear = s.wear := rfl
@[simp] theorem State.wrSh_up (s : State) (x1 : Nat) (x2 : Nat) (x3 : Word) : (s.wrSh x1 x2 x3).up = s.up := rfl
@[simp] theorem State.wrSh_fresh (s : State) (x1 : Nat) (x2 : Nat) (x3 : Word) : (s.wrSh x1 x2 x3).fresh = s.fresh := rfl
@[simp] theorem State.wrSh_pending (s : State) (x1 : Nat) (x2 : Nat) (x3 : Word) : (s.wrSh x1 x2 x3).pending = s.pending := rfl

@[simp] theorem State.dropShadows_regs (s : State) (x1 : Nat) : (s.dropShadows x1).regs = s.regs := rfl
@[simp] theorem State.dropShadows_stopping (s : State) (x1 : Nat) : (s.dropShadows x1).stopping = s.stopping := rfl
@[simp] theorem State.dropShadows_ans (s : State) (x1 : Nat) : (s.dropShadows x1).ans = s.ans := rfl
@[simp] theorem State.dropShadows_faultQ (s : State) (x1 : Nat) : (s.dropShadows x1).faultQ = s.faultQ := rfl
@[simp] theorem State.dropShadows_iso (s : State) (x1 : Nat) : (s.dropShadows x1).iso = s.iso := rfl
@[simp] theorem State.dropShadows_gs (s : State) (x1 : Nat) : (s.dropShadows x1).gs = s.gs := rfl
@[simp] theorem State.dropShadows_isl (s : State) (x1 : Nat) : (s.dropShadows x1).isl = s.isl := rfl
@[simp] theorem State.dropShadows_pll (s : State) (x1 : Nat) : (s.dropShadows x1).pll = s.pll := rfl
@[simp] theorem State.dropShadows_spll (s : State) (x1 : Nat) : (s.dropShadows x1).spll = s.spll := rfl
@[simp] theorem State.dropShadows_mram (s : State) (x1 : Nat) : (s.dropShadows x1).mram = s.mram := rfl
@[simp] theorem State.dropShadows_lc (s : State) (x1 : Nat) : (s.dropShadows x1).lc = s.lc := rfl
@[simp] theorem State.dropShadows_ingress (s : State) (x1 : Nat) : (s.dropShadows x1).ingress = s.ingress := rfl
@[simp] theorem State.dropShadows_core (s : State) (x1 : Nat) : (s.dropShadows x1).core = s.core := rfl
@[simp] theorem State.dropShadows_ring (s : State) (x1 : Nat) : (s.dropShadows x1).ring = s.ring := rfl
@[simp] theorem State.dropShadows_mem (s : State) (x1 : Nat) : (s.dropShadows x1).mem = s.mem := rfl
@[simp] theorem State.dropShadows_tm (s : State) (x1 : Nat) : (s.dropShadows x1).tm = s.tm := rfl
@[simp] theorem State.dropShadows_scan (s : State) (x1 : Nat) : (s.dropShadows x1).scan = s.scan := rfl
@[simp] theorem State.dropShadows_cards (s : State) (x1 : Nat) : (s.dropShadows x1).cards = s.cards := rfl
@[simp] theorem State.dropShadows_chans (s : State) (x1 : Nat) : (s.dropShadows x1).chans = s.chans := rfl
@[simp] theorem State.dropShadows_ucode (s : State) (x1 : Nat) : (s.dropShadows x1).ucode = s.ucode := rfl
@[simp] theorem State.dropShadows_lookWait (s : State) (x1 : Nat) : (s.dropShadows x1).lookWait = s.lookWait := rfl
@[simp] theorem State.dropShadows_looking (s : State) (x1 : Nat) : (s.dropShadows x1).looking = s.looking := rfl
@[simp] theorem State.dropShadows_tw (s : State) (x1 : Nat) : (s.dropShadows x1).tw = s.tw := rfl
@[simp] theorem State.dropShadows_supv (s : State) (x1 : Nat) : (s.dropShadows x1).supv = s.supv := rfl
@[simp] theorem State.dropShadows_br (s : State) (x1 : Nat) : (s.dropShadows x1).br = s.br := rfl
@[simp] theorem State.dropShadows_host (s : State) (x1 : Nat) : (s.dropShadows x1).host = s.host := rfl
@[simp] theorem State.dropShadows_spi (s : State) (x1 : Nat) : (s.dropShadows x1).spi = s.spi := rfl
@[simp] theorem State.dropShadows_ft (s : State) (x1 : Nat) : (s.dropShadows x1).ft = s.ft := rfl
@[simp] theorem State.dropShadows_wear (s : State) (x1 : Nat) : (s.dropShadows x1).wear = s.wear := rfl
@[simp] theorem State.dropShadows_up (s : State) (x1 : Nat) : (s.dropShadows x1).up = s.up := rfl
@[simp] theorem State.dropShadows_fresh (s : State) (x1 : Nat) : (s.dropShadows x1).fresh = s.fresh := rfl
@[simp] theorem State.dropShadows_pending (s : State) (x1 : Nat) : (s.dropShadows x1).pending = s.pending := rfl

@[simp] theorem State.dropRegs_stopping (s : State) (x1 : Nat) (x2 : Nat) : (s.dropRegs x1 x2).stopping = s.stopping := rfl
@[simp] theorem State.dropRegs_ans (s : State) (x1 : Nat) (x2 : Nat) : (s.dropRegs x1 x2).ans = s.ans := rfl
@[simp] theorem State.dropRegs_faultQ (s : State) (x1 : Nat) (x2 : Nat) : (s.dropRegs x1 x2).faultQ = s.faultQ := rfl
@[simp] theorem State.dropRegs_iso (s : State) (x1 : Nat) (x2 : Nat) : (s.dropRegs x1 x2).iso = s.iso := rfl
@[simp] theorem State.dropRegs_gs (s : State) (x1 : Nat) (x2 : Nat) : (s.dropRegs x1 x2).gs = s.gs := rfl
@[simp] theorem State.dropRegs_isl (s : State) (x1 : Nat) (x2 : Nat) : (s.dropRegs x1 x2).isl = s.isl := rfl
@[simp] theorem State.dropRegs_pll (s : State) (x1 : Nat) (x2 : Nat) : (s.dropRegs x1 x2).pll = s.pll := rfl
@[simp] theorem State.dropRegs_spll (s : State) (x1 : Nat) (x2 : Nat) : (s.dropRegs x1 x2).spll = s.spll := rfl
@[simp] theorem State.dropRegs_mram (s : State) (x1 : Nat) (x2 : Nat) : (s.dropRegs x1 x2).mram = s.mram := rfl
@[simp] theorem State.dropRegs_lc (s : State) (x1 : Nat) (x2 : Nat) : (s.dropRegs x1 x2).lc = s.lc := rfl
@[simp] theorem State.dropRegs_ingress (s : State) (x1 : Nat) (x2 : Nat) : (s.dropRegs x1 x2).ingress = s.ingress := rfl
@[simp] theorem State.dropRegs_core (s : State) (x1 : Nat) (x2 : Nat) : (s.dropRegs x1 x2).core = s.core := rfl
@[simp] theorem State.dropRegs_ring (s : State) (x1 : Nat) (x2 : Nat) : (s.dropRegs x1 x2).ring = s.ring := rfl
@[simp] theorem State.dropRegs_mem (s : State) (x1 : Nat) (x2 : Nat) : (s.dropRegs x1 x2).mem = s.mem := rfl
@[simp] theorem State.dropRegs_tm (s : State) (x1 : Nat) (x2 : Nat) : (s.dropRegs x1 x2).tm = s.tm := rfl
@[simp] theorem State.dropRegs_scan (s : State) (x1 : Nat) (x2 : Nat) : (s.dropRegs x1 x2).scan = s.scan := rfl
@[simp] theorem State.dropRegs_cards (s : State) (x1 : Nat) (x2 : Nat) : (s.dropRegs x1 x2).cards = s.cards := rfl
@[simp] theorem State.dropRegs_chans (s : State) (x1 : Nat) (x2 : Nat) : (s.dropRegs x1 x2).chans = s.chans := rfl
@[simp] theorem State.dropRegs_ucode (s : State) (x1 : Nat) (x2 : Nat) : (s.dropRegs x1 x2).ucode = s.ucode := rfl
@[simp] theorem State.dropRegs_lookWait (s : State) (x1 : Nat) (x2 : Nat) : (s.dropRegs x1 x2).lookWait = s.lookWait := rfl
@[simp] theorem State.dropRegs_looking (s : State) (x1 : Nat) (x2 : Nat) : (s.dropRegs x1 x2).looking = s.looking := rfl
@[simp] theorem State.dropRegs_tw (s : State) (x1 : Nat) (x2 : Nat) : (s.dropRegs x1 x2).tw = s.tw := rfl
@[simp] theorem State.dropRegs_supv (s : State) (x1 : Nat) (x2 : Nat) : (s.dropRegs x1 x2).supv = s.supv := rfl
@[simp] theorem State.dropRegs_br (s : State) (x1 : Nat) (x2 : Nat) : (s.dropRegs x1 x2).br = s.br := rfl
@[simp] theorem State.dropRegs_host (s : State) (x1 : Nat) (x2 : Nat) : (s.dropRegs x1 x2).host = s.host := rfl
@[simp] theorem State.dropRegs_spi (s : State) (x1 : Nat) (x2 : Nat) : (s.dropRegs x1 x2).spi = s.spi := rfl
@[simp] theorem State.dropRegs_ft (s : State) (x1 : Nat) (x2 : Nat) : (s.dropRegs x1 x2).ft = s.ft := rfl
@[simp] theorem State.dropRegs_wear (s : State) (x1 : Nat) (x2 : Nat) : (s.dropRegs x1 x2).wear = s.wear := rfl
@[simp] theorem State.dropRegs_up (s : State) (x1 : Nat) (x2 : Nat) : (s.dropRegs x1 x2).up = s.up := rfl
@[simp] theorem State.dropRegs_fresh (s : State) (x1 : Nat) (x2 : Nat) : (s.dropRegs x1 x2).fresh = s.fresh := rfl
@[simp] theorem State.dropRegs_pending (s : State) (x1 : Nat) (x2 : Nat) : (s.dropRegs x1 x2).pending = s.pending := rfl

@[simp] theorem State.answer_regs (s : State) (x1 : Initiator) (x2 : Nat) (x3 : Word) : (s.answer x1 x2 x3).regs = s.regs := rfl
@[simp] theorem State.answer_shad (s : State) (x1 : Initiator) (x2 : Nat) (x3 : Word) : (s.answer x1 x2 x3).shad = s.shad := rfl
@[simp] theorem State.answer_stopping (s : State) (x1 : Initiator) (x2 : Nat) (x3 : Word) : (s.answer x1 x2 x3).stopping = s.stopping := rfl
@[simp] theorem State.answer_faultQ (s : State) (x1 : Initiator) (x2 : Nat) (x3 : Word) : (s.answer x1 x2 x3).faultQ = s.faultQ := rfl
@[simp] theorem State.answer_iso (s : State) (x1 : Initiator) (x2 : Nat) (x3 : Word) : (s.answer x1 x2 x3).iso = s.iso := rfl
@[simp] theorem State.answer_gs (s : State) (x1 : Initiator) (x2 : Nat) (x3 : Word) : (s.answer x1 x2 x3).gs = s.gs := rfl
@[simp] theorem State.answer_isl (s : State) (x1 : Initiator) (x2 : Nat) (x3 : Word) : (s.answer x1 x2 x3).isl = s.isl := rfl
@[simp] theorem State.answer_pll (s : State) (x1 : Initiator) (x2 : Nat) (x3 : Word) : (s.answer x1 x2 x3).pll = s.pll := rfl
@[simp] theorem State.answer_spll (s : State) (x1 : Initiator) (x2 : Nat) (x3 : Word) : (s.answer x1 x2 x3).spll = s.spll := rfl
@[simp] theorem State.answer_mram (s : State) (x1 : Initiator) (x2 : Nat) (x3 : Word) : (s.answer x1 x2 x3).mram = s.mram := rfl
@[simp] theorem State.answer_lc (s : State) (x1 : Initiator) (x2 : Nat) (x3 : Word) : (s.answer x1 x2 x3).lc = s.lc := rfl
@[simp] theorem State.answer_ingress (s : State) (x1 : Initiator) (x2 : Nat) (x3 : Word) : (s.answer x1 x2 x3).ingress = s.ingress := rfl
@[simp] theorem State.answer_core (s : State) (x1 : Initiator) (x2 : Nat) (x3 : Word) : (s.answer x1 x2 x3).core = s.core := rfl
@[simp] theorem State.answer_ring (s : State) (x1 : Initiator) (x2 : Nat) (x3 : Word) : (s.answer x1 x2 x3).ring = s.ring := rfl
@[simp] theorem State.answer_mem (s : State) (x1 : Initiator) (x2 : Nat) (x3 : Word) : (s.answer x1 x2 x3).mem = s.mem := rfl
@[simp] theorem State.answer_tm (s : State) (x1 : Initiator) (x2 : Nat) (x3 : Word) : (s.answer x1 x2 x3).tm = s.tm := rfl
@[simp] theorem State.answer_scan (s : State) (x1 : Initiator) (x2 : Nat) (x3 : Word) : (s.answer x1 x2 x3).scan = s.scan := rfl
@[simp] theorem State.answer_cards (s : State) (x1 : Initiator) (x2 : Nat) (x3 : Word) : (s.answer x1 x2 x3).cards = s.cards := rfl
@[simp] theorem State.answer_chans (s : State) (x1 : Initiator) (x2 : Nat) (x3 : Word) : (s.answer x1 x2 x3).chans = s.chans := rfl
@[simp] theorem State.answer_ucode (s : State) (x1 : Initiator) (x2 : Nat) (x3 : Word) : (s.answer x1 x2 x3).ucode = s.ucode := rfl
@[simp] theorem State.answer_lookWait (s : State) (x1 : Initiator) (x2 : Nat) (x3 : Word) : (s.answer x1 x2 x3).lookWait = s.lookWait := rfl
@[simp] theorem State.answer_looking (s : State) (x1 : Initiator) (x2 : Nat) (x3 : Word) : (s.answer x1 x2 x3).looking = s.looking := rfl
@[simp] theorem State.answer_tw (s : State) (x1 : Initiator) (x2 : Nat) (x3 : Word) : (s.answer x1 x2 x3).tw = s.tw := rfl
@[simp] theorem State.answer_supv (s : State) (x1 : Initiator) (x2 : Nat) (x3 : Word) : (s.answer x1 x2 x3).supv = s.supv := rfl
@[simp] theorem State.answer_br (s : State) (x1 : Initiator) (x2 : Nat) (x3 : Word) : (s.answer x1 x2 x3).br = s.br := rfl
@[simp] theorem State.answer_host (s : State) (x1 : Initiator) (x2 : Nat) (x3 : Word) : (s.answer x1 x2 x3).host = s.host := rfl
@[simp] theorem State.answer_spi (s : State) (x1 : Initiator) (x2 : Nat) (x3 : Word) : (s.answer x1 x2 x3).spi = s.spi := rfl
@[simp] theorem State.answer_ft (s : State) (x1 : Initiator) (x2 : Nat) (x3 : Word) : (s.answer x1 x2 x3).ft = s.ft := rfl
@[simp] theorem State.answer_wear (s : State) (x1 : Initiator) (x2 : Nat) (x3 : Word) : (s.answer x1 x2 x3).wear = s.wear := rfl
@[simp] theorem State.answer_up (s : State) (x1 : Initiator) (x2 : Nat) (x3 : Word) : (s.answer x1 x2 x3).up = s.up := rfl
@[simp] theorem State.answer_fresh (s : State) (x1 : Initiator) (x2 : Nat) (x3 : Word) : (s.answer x1 x2 x3).fresh = s.fresh := rfl
@[simp] theorem State.answer_pending (s : State) (x1 : Initiator) (x2 : Nat) (x3 : Word) : (s.answer x1 x2 x3).pending = s.pending := rfl

@[simp] theorem State.stage_regs (s : State) (x1 : Nat) (x2 : InFrame) : (s.stage x1 x2).regs = s.regs := rfl
@[simp] theorem State.stage_shad (s : State) (x1 : Nat) (x2 : InFrame) : (s.stage x1 x2).shad = s.shad := rfl
@[simp] theorem State.stage_stopping (s : State) (x1 : Nat) (x2 : InFrame) : (s.stage x1 x2).stopping = s.stopping := rfl
@[simp] theorem State.stage_ans (s : State) (x1 : Nat) (x2 : InFrame) : (s.stage x1 x2).ans = s.ans := rfl
@[simp] theorem State.stage_faultQ (s : State) (x1 : Nat) (x2 : InFrame) : (s.stage x1 x2).faultQ = s.faultQ := rfl
@[simp] theorem State.stage_iso (s : State) (x1 : Nat) (x2 : InFrame) : (s.stage x1 x2).iso = s.iso := rfl
@[simp] theorem State.stage_gs (s : State) (x1 : Nat) (x2 : InFrame) : (s.stage x1 x2).gs = s.gs := rfl
@[simp] theorem State.stage_isl (s : State) (x1 : Nat) (x2 : InFrame) : (s.stage x1 x2).isl = s.isl := rfl
@[simp] theorem State.stage_pll (s : State) (x1 : Nat) (x2 : InFrame) : (s.stage x1 x2).pll = s.pll := rfl
@[simp] theorem State.stage_spll (s : State) (x1 : Nat) (x2 : InFrame) : (s.stage x1 x2).spll = s.spll := rfl
@[simp] theorem State.stage_mram (s : State) (x1 : Nat) (x2 : InFrame) : (s.stage x1 x2).mram = s.mram := rfl
@[simp] theorem State.stage_lc (s : State) (x1 : Nat) (x2 : InFrame) : (s.stage x1 x2).lc = s.lc := rfl
@[simp] theorem State.stage_core (s : State) (x1 : Nat) (x2 : InFrame) : (s.stage x1 x2).core = s.core := rfl
@[simp] theorem State.stage_ring (s : State) (x1 : Nat) (x2 : InFrame) : (s.stage x1 x2).ring = s.ring := rfl
@[simp] theorem State.stage_mem (s : State) (x1 : Nat) (x2 : InFrame) : (s.stage x1 x2).mem = s.mem := rfl
@[simp] theorem State.stage_tm (s : State) (x1 : Nat) (x2 : InFrame) : (s.stage x1 x2).tm = s.tm := rfl
@[simp] theorem State.stage_scan (s : State) (x1 : Nat) (x2 : InFrame) : (s.stage x1 x2).scan = s.scan := rfl
@[simp] theorem State.stage_cards (s : State) (x1 : Nat) (x2 : InFrame) : (s.stage x1 x2).cards = s.cards := rfl
@[simp] theorem State.stage_chans (s : State) (x1 : Nat) (x2 : InFrame) : (s.stage x1 x2).chans = s.chans := rfl
@[simp] theorem State.stage_ucode (s : State) (x1 : Nat) (x2 : InFrame) : (s.stage x1 x2).ucode = s.ucode := rfl
@[simp] theorem State.stage_lookWait (s : State) (x1 : Nat) (x2 : InFrame) : (s.stage x1 x2).lookWait = s.lookWait := rfl
@[simp] theorem State.stage_looking (s : State) (x1 : Nat) (x2 : InFrame) : (s.stage x1 x2).looking = s.looking := rfl
@[simp] theorem State.stage_tw (s : State) (x1 : Nat) (x2 : InFrame) : (s.stage x1 x2).tw = s.tw := rfl
@[simp] theorem State.stage_supv (s : State) (x1 : Nat) (x2 : InFrame) : (s.stage x1 x2).supv = s.supv := rfl
@[simp] theorem State.stage_br (s : State) (x1 : Nat) (x2 : InFrame) : (s.stage x1 x2).br = s.br := rfl
@[simp] theorem State.stage_host (s : State) (x1 : Nat) (x2 : InFrame) : (s.stage x1 x2).host = s.host := rfl
@[simp] theorem State.stage_spi (s : State) (x1 : Nat) (x2 : InFrame) : (s.stage x1 x2).spi = s.spi := rfl
@[simp] theorem State.stage_ft (s : State) (x1 : Nat) (x2 : InFrame) : (s.stage x1 x2).ft = s.ft := rfl
@[simp] theorem State.stage_wear (s : State) (x1 : Nat) (x2 : InFrame) : (s.stage x1 x2).wear = s.wear := rfl
@[simp] theorem State.stage_up (s : State) (x1 : Nat) (x2 : InFrame) : (s.stage x1 x2).up = s.up := rfl
@[simp] theorem State.stage_fresh (s : State) (x1 : Nat) (x2 : InFrame) : (s.stage x1 x2).fresh = s.fresh := rfl
@[simp] theorem State.stage_pending (s : State) (x1 : Nat) (x2 : InFrame) : (s.stage x1 x2).pending = s.pending := rfl

@[simp] theorem State.fault_regs (s : State) (x1 : Nat) (x2 : Nat) : (s.fault x1 x2).regs = s.regs := rfl
@[simp] theorem State.fault_shad (s : State) (x1 : Nat) (x2 : Nat) : (s.fault x1 x2).shad = s.shad := rfl
@[simp] theorem State.fault_stopping (s : State) (x1 : Nat) (x2 : Nat) : (s.fault x1 x2).stopping = s.stopping := rfl
@[simp] theorem State.fault_ans (s : State) (x1 : Nat) (x2 : Nat) : (s.fault x1 x2).ans = s.ans := rfl
@[simp] theorem State.fault_iso (s : State) (x1 : Nat) (x2 : Nat) : (s.fault x1 x2).iso = s.iso := rfl
@[simp] theorem State.fault_gs (s : State) (x1 : Nat) (x2 : Nat) : (s.fault x1 x2).gs = s.gs := rfl
@[simp] theorem State.fault_isl (s : State) (x1 : Nat) (x2 : Nat) : (s.fault x1 x2).isl = s.isl := rfl
@[simp] theorem State.fault_pll (s : State) (x1 : Nat) (x2 : Nat) : (s.fault x1 x2).pll = s.pll := rfl
@[simp] theorem State.fault_spll (s : State) (x1 : Nat) (x2 : Nat) : (s.fault x1 x2).spll = s.spll := rfl
@[simp] theorem State.fault_mram (s : State) (x1 : Nat) (x2 : Nat) : (s.fault x1 x2).mram = s.mram := rfl
@[simp] theorem State.fault_lc (s : State) (x1 : Nat) (x2 : Nat) : (s.fault x1 x2).lc = s.lc := rfl
@[simp] theorem State.fault_ingress (s : State) (x1 : Nat) (x2 : Nat) : (s.fault x1 x2).ingress = s.ingress := rfl
@[simp] theorem State.fault_core (s : State) (x1 : Nat) (x2 : Nat) : (s.fault x1 x2).core = s.core := rfl
@[simp] theorem State.fault_ring (s : State) (x1 : Nat) (x2 : Nat) : (s.fault x1 x2).ring = s.ring := rfl
@[simp] theorem State.fault_mem (s : State) (x1 : Nat) (x2 : Nat) : (s.fault x1 x2).mem = s.mem := rfl
@[simp] theorem State.fault_tm (s : State) (x1 : Nat) (x2 : Nat) : (s.fault x1 x2).tm = s.tm := rfl
@[simp] theorem State.fault_scan (s : State) (x1 : Nat) (x2 : Nat) : (s.fault x1 x2).scan = s.scan := rfl
@[simp] theorem State.fault_cards (s : State) (x1 : Nat) (x2 : Nat) : (s.fault x1 x2).cards = s.cards := rfl
@[simp] theorem State.fault_chans (s : State) (x1 : Nat) (x2 : Nat) : (s.fault x1 x2).chans = s.chans := rfl
@[simp] theorem State.fault_ucode (s : State) (x1 : Nat) (x2 : Nat) : (s.fault x1 x2).ucode = s.ucode := rfl
@[simp] theorem State.fault_lookWait (s : State) (x1 : Nat) (x2 : Nat) : (s.fault x1 x2).lookWait = s.lookWait := rfl
@[simp] theorem State.fault_looking (s : State) (x1 : Nat) (x2 : Nat) : (s.fault x1 x2).looking = s.looking := rfl
@[simp] theorem State.fault_tw (s : State) (x1 : Nat) (x2 : Nat) : (s.fault x1 x2).tw = s.tw := rfl
@[simp] theorem State.fault_supv (s : State) (x1 : Nat) (x2 : Nat) : (s.fault x1 x2).supv = s.supv := rfl
@[simp] theorem State.fault_br (s : State) (x1 : Nat) (x2 : Nat) : (s.fault x1 x2).br = s.br := rfl
@[simp] theorem State.fault_host (s : State) (x1 : Nat) (x2 : Nat) : (s.fault x1 x2).host = s.host := rfl
@[simp] theorem State.fault_spi (s : State) (x1 : Nat) (x2 : Nat) : (s.fault x1 x2).spi = s.spi := rfl
@[simp] theorem State.fault_ft (s : State) (x1 : Nat) (x2 : Nat) : (s.fault x1 x2).ft = s.ft := rfl
@[simp] theorem State.fault_wear (s : State) (x1 : Nat) (x2 : Nat) : (s.fault x1 x2).wear = s.wear := rfl
@[simp] theorem State.fault_up (s : State) (x1 : Nat) (x2 : Nat) : (s.fault x1 x2).up = s.up := rfl
@[simp] theorem State.fault_fresh (s : State) (x1 : Nat) (x2 : Nat) : (s.fault x1 x2).fresh = s.fresh := rfl
@[simp] theorem State.fault_pending (s : State) (x1 : Nat) (x2 : Nat) : (s.fault x1 x2).pending = s.pending := rfl

@[simp] theorem State.tookFree_regs (s : State)  : (s.tookFree).regs = s.regs := rfl
@[simp] theorem State.tookFree_shad (s : State)  : (s.tookFree).shad = s.shad := rfl
@[simp] theorem State.tookFree_stopping (s : State)  : (s.tookFree).stopping = s.stopping := rfl
@[simp] theorem State.tookFree_ans (s : State)  : (s.tookFree).ans = s.ans := rfl
@[simp] theorem State.tookFree_faultQ (s : State)  : (s.tookFree).faultQ = s.faultQ := rfl
@[simp] theorem State.tookFree_iso (s : State)  : (s.tookFree).iso = s.iso := rfl
@[simp] theorem State.tookFree_gs (s : State)  : (s.tookFree).gs = s.gs := rfl
@[simp] theorem State.tookFree_isl (s : State)  : (s.tookFree).isl = s.isl := rfl
@[simp] theorem State.tookFree_pll (s : State)  : (s.tookFree).pll = s.pll := rfl
@[simp] theorem State.tookFree_spll (s : State)  : (s.tookFree).spll = s.spll := rfl
@[simp] theorem State.tookFree_mram (s : State)  : (s.tookFree).mram = s.mram := rfl
@[simp] theorem State.tookFree_lc (s : State)  : (s.tookFree).lc = s.lc := rfl
@[simp] theorem State.tookFree_ingress (s : State)  : (s.tookFree).ingress = s.ingress := rfl
@[simp] theorem State.tookFree_core (s : State)  : (s.tookFree).core = s.core := rfl
@[simp] theorem State.tookFree_ring (s : State)  : (s.tookFree).ring = s.ring := rfl
@[simp] theorem State.tookFree_mem (s : State)  : (s.tookFree).mem = s.mem := rfl
@[simp] theorem State.tookFree_tm (s : State)  : (s.tookFree).tm = s.tm := rfl
@[simp] theorem State.tookFree_scan (s : State)  : (s.tookFree).scan = s.scan := rfl
@[simp] theorem State.tookFree_cards (s : State)  : (s.tookFree).cards = s.cards := rfl
@[simp] theorem State.tookFree_chans (s : State)  : (s.tookFree).chans = s.chans := rfl
@[simp] theorem State.tookFree_ucode (s : State)  : (s.tookFree).ucode = s.ucode := rfl
@[simp] theorem State.tookFree_lookWait (s : State)  : (s.tookFree).lookWait = s.lookWait := rfl
@[simp] theorem State.tookFree_looking (s : State)  : (s.tookFree).looking = s.looking := rfl
@[simp] theorem State.tookFree_tw (s : State)  : (s.tookFree).tw = s.tw := rfl
@[simp] theorem State.tookFree_supv (s : State)  : (s.tookFree).supv = s.supv := rfl
@[simp] theorem State.tookFree_br (s : State)  : (s.tookFree).br = s.br := rfl
@[simp] theorem State.tookFree_host (s : State)  : (s.tookFree).host = s.host := rfl
@[simp] theorem State.tookFree_spi (s : State)  : (s.tookFree).spi = s.spi := rfl
@[simp] theorem State.tookFree_ft (s : State)  : (s.tookFree).ft = s.ft := rfl
@[simp] theorem State.tookFree_wear (s : State)  : (s.tookFree).wear = s.wear := rfl
@[simp] theorem State.tookFree_up (s : State)  : (s.tookFree).up = s.up := rfl
@[simp] theorem State.tookFree_pending (s : State)  : (s.tookFree).pending = s.pending := rfl

@[simp] theorem State.endSnap_regs (s : State) (x1 : Initiator) : (s.endSnap x1).regs = s.regs := rfl
@[simp] theorem State.endSnap_shad (s : State) (x1 : Initiator) : (s.endSnap x1).shad = s.shad := rfl
@[simp] theorem State.endSnap_stopping (s : State) (x1 : Initiator) : (s.endSnap x1).stopping = s.stopping := rfl
@[simp] theorem State.endSnap_ans (s : State) (x1 : Initiator) : (s.endSnap x1).ans = s.ans := rfl
@[simp] theorem State.endSnap_faultQ (s : State) (x1 : Initiator) : (s.endSnap x1).faultQ = s.faultQ := rfl
@[simp] theorem State.endSnap_iso (s : State) (x1 : Initiator) : (s.endSnap x1).iso = s.iso := rfl
@[simp] theorem State.endSnap_gs (s : State) (x1 : Initiator) : (s.endSnap x1).gs = s.gs := rfl
@[simp] theorem State.endSnap_isl (s : State) (x1 : Initiator) : (s.endSnap x1).isl = s.isl := rfl
@[simp] theorem State.endSnap_pll (s : State) (x1 : Initiator) : (s.endSnap x1).pll = s.pll := rfl
@[simp] theorem State.endSnap_spll (s : State) (x1 : Initiator) : (s.endSnap x1).spll = s.spll := rfl
@[simp] theorem State.endSnap_mram (s : State) (x1 : Initiator) : (s.endSnap x1).mram = s.mram := rfl
@[simp] theorem State.endSnap_lc (s : State) (x1 : Initiator) : (s.endSnap x1).lc = s.lc := rfl
@[simp] theorem State.endSnap_ingress (s : State) (x1 : Initiator) : (s.endSnap x1).ingress = s.ingress := rfl
@[simp] theorem State.endSnap_core (s : State) (x1 : Initiator) : (s.endSnap x1).core = s.core := rfl
@[simp] theorem State.endSnap_ring (s : State) (x1 : Initiator) : (s.endSnap x1).ring = s.ring := rfl
@[simp] theorem State.endSnap_mem (s : State) (x1 : Initiator) : (s.endSnap x1).mem = s.mem := rfl
@[simp] theorem State.endSnap_tm (s : State) (x1 : Initiator) : (s.endSnap x1).tm = s.tm := rfl
@[simp] theorem State.endSnap_cards (s : State) (x1 : Initiator) : (s.endSnap x1).cards = s.cards := rfl
@[simp] theorem State.endSnap_chans (s : State) (x1 : Initiator) : (s.endSnap x1).chans = s.chans := rfl
@[simp] theorem State.endSnap_ucode (s : State) (x1 : Initiator) : (s.endSnap x1).ucode = s.ucode := rfl
@[simp] theorem State.endSnap_lookWait (s : State) (x1 : Initiator) : (s.endSnap x1).lookWait = s.lookWait := rfl
@[simp] theorem State.endSnap_looking (s : State) (x1 : Initiator) : (s.endSnap x1).looking = s.looking := rfl
@[simp] theorem State.endSnap_tw (s : State) (x1 : Initiator) : (s.endSnap x1).tw = s.tw := rfl
@[simp] theorem State.endSnap_supv (s : State) (x1 : Initiator) : (s.endSnap x1).supv = s.supv := rfl
@[simp] theorem State.endSnap_br (s : State) (x1 : Initiator) : (s.endSnap x1).br = s.br := rfl
@[simp] theorem State.endSnap_host (s : State) (x1 : Initiator) : (s.endSnap x1).host = s.host := rfl
@[simp] theorem State.endSnap_spi (s : State) (x1 : Initiator) : (s.endSnap x1).spi = s.spi := rfl
@[simp] theorem State.endSnap_ft (s : State) (x1 : Initiator) : (s.endSnap x1).ft = s.ft := rfl
@[simp] theorem State.endSnap_wear (s : State) (x1 : Initiator) : (s.endSnap x1).wear = s.wear := rfl
@[simp] theorem State.endSnap_up (s : State) (x1 : Initiator) : (s.endSnap x1).up = s.up := rfl
@[simp] theorem State.endSnap_fresh (s : State) (x1 : Initiator) : (s.endSnap x1).fresh = s.fresh := rfl
@[simp] theorem State.endSnap_pending (s : State) (x1 : Initiator) : (s.endSnap x1).pending = s.pending := rfl

@[simp] theorem State.setPort_regs (s : State) (x1 : LanePort) (x2 : Port) : (s.setPort x1 x2).regs = s.regs := rfl
@[simp] theorem State.setPort_shad (s : State) (x1 : LanePort) (x2 : Port) : (s.setPort x1 x2).shad = s.shad := rfl
@[simp] theorem State.setPort_stopping (s : State) (x1 : LanePort) (x2 : Port) : (s.setPort x1 x2).stopping = s.stopping := rfl
@[simp] theorem State.setPort_ans (s : State) (x1 : LanePort) (x2 : Port) : (s.setPort x1 x2).ans = s.ans := rfl
@[simp] theorem State.setPort_faultQ (s : State) (x1 : LanePort) (x2 : Port) : (s.setPort x1 x2).faultQ = s.faultQ := rfl
@[simp] theorem State.setPort_iso (s : State) (x1 : LanePort) (x2 : Port) : (s.setPort x1 x2).iso = s.iso := rfl
@[simp] theorem State.setPort_gs (s : State) (x1 : LanePort) (x2 : Port) : (s.setPort x1 x2).gs = s.gs := rfl
@[simp] theorem State.setPort_isl (s : State) (x1 : LanePort) (x2 : Port) : (s.setPort x1 x2).isl = s.isl := rfl
@[simp] theorem State.setPort_pll (s : State) (x1 : LanePort) (x2 : Port) : (s.setPort x1 x2).pll = s.pll := rfl
@[simp] theorem State.setPort_spll (s : State) (x1 : LanePort) (x2 : Port) : (s.setPort x1 x2).spll = s.spll := rfl
@[simp] theorem State.setPort_mram (s : State) (x1 : LanePort) (x2 : Port) : (s.setPort x1 x2).mram = s.mram := rfl
@[simp] theorem State.setPort_lc (s : State) (x1 : LanePort) (x2 : Port) : (s.setPort x1 x2).lc = s.lc := rfl
@[simp] theorem State.setPort_ingress (s : State) (x1 : LanePort) (x2 : Port) : (s.setPort x1 x2).ingress = s.ingress := rfl
@[simp] theorem State.setPort_core (s : State) (x1 : LanePort) (x2 : Port) : (s.setPort x1 x2).core = s.core := rfl
@[simp] theorem State.setPort_mem (s : State) (x1 : LanePort) (x2 : Port) : (s.setPort x1 x2).mem = s.mem := rfl
@[simp] theorem State.setPort_tm (s : State) (x1 : LanePort) (x2 : Port) : (s.setPort x1 x2).tm = s.tm := rfl
@[simp] theorem State.setPort_scan (s : State) (x1 : LanePort) (x2 : Port) : (s.setPort x1 x2).scan = s.scan := rfl
@[simp] theorem State.setPort_cards (s : State) (x1 : LanePort) (x2 : Port) : (s.setPort x1 x2).cards = s.cards := rfl
@[simp] theorem State.setPort_chans (s : State) (x1 : LanePort) (x2 : Port) : (s.setPort x1 x2).chans = s.chans := rfl
@[simp] theorem State.setPort_ucode (s : State) (x1 : LanePort) (x2 : Port) : (s.setPort x1 x2).ucode = s.ucode := rfl
@[simp] theorem State.setPort_lookWait (s : State) (x1 : LanePort) (x2 : Port) : (s.setPort x1 x2).lookWait = s.lookWait := rfl
@[simp] theorem State.setPort_looking (s : State) (x1 : LanePort) (x2 : Port) : (s.setPort x1 x2).looking = s.looking := rfl
@[simp] theorem State.setPort_tw (s : State) (x1 : LanePort) (x2 : Port) : (s.setPort x1 x2).tw = s.tw := rfl
@[simp] theorem State.setPort_supv (s : State) (x1 : LanePort) (x2 : Port) : (s.setPort x1 x2).supv = s.supv := rfl
@[simp] theorem State.setPort_br (s : State) (x1 : LanePort) (x2 : Port) : (s.setPort x1 x2).br = s.br := rfl
@[simp] theorem State.setPort_host (s : State) (x1 : LanePort) (x2 : Port) : (s.setPort x1 x2).host = s.host := rfl
@[simp] theorem State.setPort_spi (s : State) (x1 : LanePort) (x2 : Port) : (s.setPort x1 x2).spi = s.spi := rfl
@[simp] theorem State.setPort_ft (s : State) (x1 : LanePort) (x2 : Port) : (s.setPort x1 x2).ft = s.ft := rfl
@[simp] theorem State.setPort_wear (s : State) (x1 : LanePort) (x2 : Port) : (s.setPort x1 x2).wear = s.wear := rfl
@[simp] theorem State.setPort_up (s : State) (x1 : LanePort) (x2 : Port) : (s.setPort x1 x2).up = s.up := rfl
@[simp] theorem State.setPort_fresh (s : State) (x1 : LanePort) (x2 : Port) : (s.setPort x1 x2).fresh = s.fresh := rfl
@[simp] theorem State.setPort_pending (s : State) (x1 : LanePort) (x2 : Port) : (s.setPort x1 x2).pending = s.pending := rfl

@[simp] theorem State.setCr_regs (s : State) (x1 : LanePort) (x2 : Cls) (x3 : Cr) : (s.setCr x1 x2 x3).regs = s.regs := rfl
@[simp] theorem State.setCr_shad (s : State) (x1 : LanePort) (x2 : Cls) (x3 : Cr) : (s.setCr x1 x2 x3).shad = s.shad := rfl
@[simp] theorem State.setCr_stopping (s : State) (x1 : LanePort) (x2 : Cls) (x3 : Cr) : (s.setCr x1 x2 x3).stopping = s.stopping := rfl
@[simp] theorem State.setCr_ans (s : State) (x1 : LanePort) (x2 : Cls) (x3 : Cr) : (s.setCr x1 x2 x3).ans = s.ans := rfl
@[simp] theorem State.setCr_faultQ (s : State) (x1 : LanePort) (x2 : Cls) (x3 : Cr) : (s.setCr x1 x2 x3).faultQ = s.faultQ := rfl
@[simp] theorem State.setCr_iso (s : State) (x1 : LanePort) (x2 : Cls) (x3 : Cr) : (s.setCr x1 x2 x3).iso = s.iso := rfl
@[simp] theorem State.setCr_gs (s : State) (x1 : LanePort) (x2 : Cls) (x3 : Cr) : (s.setCr x1 x2 x3).gs = s.gs := rfl
@[simp] theorem State.setCr_isl (s : State) (x1 : LanePort) (x2 : Cls) (x3 : Cr) : (s.setCr x1 x2 x3).isl = s.isl := rfl
@[simp] theorem State.setCr_pll (s : State) (x1 : LanePort) (x2 : Cls) (x3 : Cr) : (s.setCr x1 x2 x3).pll = s.pll := rfl
@[simp] theorem State.setCr_spll (s : State) (x1 : LanePort) (x2 : Cls) (x3 : Cr) : (s.setCr x1 x2 x3).spll = s.spll := rfl
@[simp] theorem State.setCr_mram (s : State) (x1 : LanePort) (x2 : Cls) (x3 : Cr) : (s.setCr x1 x2 x3).mram = s.mram := rfl
@[simp] theorem State.setCr_lc (s : State) (x1 : LanePort) (x2 : Cls) (x3 : Cr) : (s.setCr x1 x2 x3).lc = s.lc := rfl
@[simp] theorem State.setCr_ingress (s : State) (x1 : LanePort) (x2 : Cls) (x3 : Cr) : (s.setCr x1 x2 x3).ingress = s.ingress := rfl
@[simp] theorem State.setCr_core (s : State) (x1 : LanePort) (x2 : Cls) (x3 : Cr) : (s.setCr x1 x2 x3).core = s.core := rfl
@[simp] theorem State.setCr_mem (s : State) (x1 : LanePort) (x2 : Cls) (x3 : Cr) : (s.setCr x1 x2 x3).mem = s.mem := rfl
@[simp] theorem State.setCr_tm (s : State) (x1 : LanePort) (x2 : Cls) (x3 : Cr) : (s.setCr x1 x2 x3).tm = s.tm := rfl
@[simp] theorem State.setCr_scan (s : State) (x1 : LanePort) (x2 : Cls) (x3 : Cr) : (s.setCr x1 x2 x3).scan = s.scan := rfl
@[simp] theorem State.setCr_cards (s : State) (x1 : LanePort) (x2 : Cls) (x3 : Cr) : (s.setCr x1 x2 x3).cards = s.cards := rfl
@[simp] theorem State.setCr_chans (s : State) (x1 : LanePort) (x2 : Cls) (x3 : Cr) : (s.setCr x1 x2 x3).chans = s.chans := rfl
@[simp] theorem State.setCr_ucode (s : State) (x1 : LanePort) (x2 : Cls) (x3 : Cr) : (s.setCr x1 x2 x3).ucode = s.ucode := rfl
@[simp] theorem State.setCr_lookWait (s : State) (x1 : LanePort) (x2 : Cls) (x3 : Cr) : (s.setCr x1 x2 x3).lookWait = s.lookWait := rfl
@[simp] theorem State.setCr_looking (s : State) (x1 : LanePort) (x2 : Cls) (x3 : Cr) : (s.setCr x1 x2 x3).looking = s.looking := rfl
@[simp] theorem State.setCr_tw (s : State) (x1 : LanePort) (x2 : Cls) (x3 : Cr) : (s.setCr x1 x2 x3).tw = s.tw := rfl
@[simp] theorem State.setCr_supv (s : State) (x1 : LanePort) (x2 : Cls) (x3 : Cr) : (s.setCr x1 x2 x3).supv = s.supv := rfl
@[simp] theorem State.setCr_br (s : State) (x1 : LanePort) (x2 : Cls) (x3 : Cr) : (s.setCr x1 x2 x3).br = s.br := rfl
@[simp] theorem State.setCr_host (s : State) (x1 : LanePort) (x2 : Cls) (x3 : Cr) : (s.setCr x1 x2 x3).host = s.host := rfl
@[simp] theorem State.setCr_spi (s : State) (x1 : LanePort) (x2 : Cls) (x3 : Cr) : (s.setCr x1 x2 x3).spi = s.spi := rfl
@[simp] theorem State.setCr_ft (s : State) (x1 : LanePort) (x2 : Cls) (x3 : Cr) : (s.setCr x1 x2 x3).ft = s.ft := rfl
@[simp] theorem State.setCr_wear (s : State) (x1 : LanePort) (x2 : Cls) (x3 : Cr) : (s.setCr x1 x2 x3).wear = s.wear := rfl
@[simp] theorem State.setCr_up (s : State) (x1 : LanePort) (x2 : Cls) (x3 : Cr) : (s.setCr x1 x2 x3).up = s.up := rfl
@[simp] theorem State.setCr_fresh (s : State) (x1 : LanePort) (x2 : Cls) (x3 : Cr) : (s.setCr x1 x2 x3).fresh = s.fresh := rfl
@[simp] theorem State.setCr_pending (s : State) (x1 : LanePort) (x2 : Cls) (x3 : Cr) : (s.setCr x1 x2 x3).pending = s.pending := rfl

@[simp] theorem State.setQue_regs (s : State) (x1 : Nat) (x2 : Que) : (s.setQue x1 x2).regs = s.regs := rfl
@[simp] theorem State.setQue_shad (s : State) (x1 : Nat) (x2 : Que) : (s.setQue x1 x2).shad = s.shad := rfl
@[simp] theorem State.setQue_stopping (s : State) (x1 : Nat) (x2 : Que) : (s.setQue x1 x2).stopping = s.stopping := rfl
@[simp] theorem State.setQue_ans (s : State) (x1 : Nat) (x2 : Que) : (s.setQue x1 x2).ans = s.ans := rfl
@[simp] theorem State.setQue_faultQ (s : State) (x1 : Nat) (x2 : Que) : (s.setQue x1 x2).faultQ = s.faultQ := rfl
@[simp] theorem State.setQue_iso (s : State) (x1 : Nat) (x2 : Que) : (s.setQue x1 x2).iso = s.iso := rfl
@[simp] theorem State.setQue_gs (s : State) (x1 : Nat) (x2 : Que) : (s.setQue x1 x2).gs = s.gs := rfl
@[simp] theorem State.setQue_isl (s : State) (x1 : Nat) (x2 : Que) : (s.setQue x1 x2).isl = s.isl := rfl
@[simp] theorem State.setQue_pll (s : State) (x1 : Nat) (x2 : Que) : (s.setQue x1 x2).pll = s.pll := rfl
@[simp] theorem State.setQue_spll (s : State) (x1 : Nat) (x2 : Que) : (s.setQue x1 x2).spll = s.spll := rfl
@[simp] theorem State.setQue_mram (s : State) (x1 : Nat) (x2 : Que) : (s.setQue x1 x2).mram = s.mram := rfl
@[simp] theorem State.setQue_lc (s : State) (x1 : Nat) (x2 : Que) : (s.setQue x1 x2).lc = s.lc := rfl
@[simp] theorem State.setQue_ingress (s : State) (x1 : Nat) (x2 : Que) : (s.setQue x1 x2).ingress = s.ingress := rfl
@[simp] theorem State.setQue_ring (s : State) (x1 : Nat) (x2 : Que) : (s.setQue x1 x2).ring = s.ring := rfl
@[simp] theorem State.setQue_mem (s : State) (x1 : Nat) (x2 : Que) : (s.setQue x1 x2).mem = s.mem := rfl
@[simp] theorem State.setQue_tm (s : State) (x1 : Nat) (x2 : Que) : (s.setQue x1 x2).tm = s.tm := rfl
@[simp] theorem State.setQue_scan (s : State) (x1 : Nat) (x2 : Que) : (s.setQue x1 x2).scan = s.scan := rfl
@[simp] theorem State.setQue_cards (s : State) (x1 : Nat) (x2 : Que) : (s.setQue x1 x2).cards = s.cards := rfl
@[simp] theorem State.setQue_chans (s : State) (x1 : Nat) (x2 : Que) : (s.setQue x1 x2).chans = s.chans := rfl
@[simp] theorem State.setQue_ucode (s : State) (x1 : Nat) (x2 : Que) : (s.setQue x1 x2).ucode = s.ucode := rfl
@[simp] theorem State.setQue_lookWait (s : State) (x1 : Nat) (x2 : Que) : (s.setQue x1 x2).lookWait = s.lookWait := rfl
@[simp] theorem State.setQue_looking (s : State) (x1 : Nat) (x2 : Que) : (s.setQue x1 x2).looking = s.looking := rfl
@[simp] theorem State.setQue_tw (s : State) (x1 : Nat) (x2 : Que) : (s.setQue x1 x2).tw = s.tw := rfl
@[simp] theorem State.setQue_supv (s : State) (x1 : Nat) (x2 : Que) : (s.setQue x1 x2).supv = s.supv := rfl
@[simp] theorem State.setQue_br (s : State) (x1 : Nat) (x2 : Que) : (s.setQue x1 x2).br = s.br := rfl
@[simp] theorem State.setQue_host (s : State) (x1 : Nat) (x2 : Que) : (s.setQue x1 x2).host = s.host := rfl
@[simp] theorem State.setQue_spi (s : State) (x1 : Nat) (x2 : Que) : (s.setQue x1 x2).spi = s.spi := rfl
@[simp] theorem State.setQue_ft (s : State) (x1 : Nat) (x2 : Que) : (s.setQue x1 x2).ft = s.ft := rfl
@[simp] theorem State.setQue_wear (s : State) (x1 : Nat) (x2 : Que) : (s.setQue x1 x2).wear = s.wear := rfl
@[simp] theorem State.setQue_up (s : State) (x1 : Nat) (x2 : Que) : (s.setQue x1 x2).up = s.up := rfl
@[simp] theorem State.setQue_fresh (s : State) (x1 : Nat) (x2 : Que) : (s.setQue x1 x2).fresh = s.fresh := rfl
@[simp] theorem State.setQue_pending (s : State) (x1 : Nat) (x2 : Que) : (s.setQue x1 x2).pending = s.pending := rfl

@[simp] theorem State.setRec_regs (s : State) (x1 : Nat) (x2 : FRec) : (s.setRec x1 x2).regs = s.regs := rfl
@[simp] theorem State.setRec_shad (s : State) (x1 : Nat) (x2 : FRec) : (s.setRec x1 x2).shad = s.shad := rfl
@[simp] theorem State.setRec_stopping (s : State) (x1 : Nat) (x2 : FRec) : (s.setRec x1 x2).stopping = s.stopping := rfl
@[simp] theorem State.setRec_ans (s : State) (x1 : Nat) (x2 : FRec) : (s.setRec x1 x2).ans = s.ans := rfl
@[simp] theorem State.setRec_faultQ (s : State) (x1 : Nat) (x2 : FRec) : (s.setRec x1 x2).faultQ = s.faultQ := rfl
@[simp] theorem State.setRec_iso (s : State) (x1 : Nat) (x2 : FRec) : (s.setRec x1 x2).iso = s.iso := rfl
@[simp] theorem State.setRec_gs (s : State) (x1 : Nat) (x2 : FRec) : (s.setRec x1 x2).gs = s.gs := rfl
@[simp] theorem State.setRec_isl (s : State) (x1 : Nat) (x2 : FRec) : (s.setRec x1 x2).isl = s.isl := rfl
@[simp] theorem State.setRec_pll (s : State) (x1 : Nat) (x2 : FRec) : (s.setRec x1 x2).pll = s.pll := rfl
@[simp] theorem State.setRec_spll (s : State) (x1 : Nat) (x2 : FRec) : (s.setRec x1 x2).spll = s.spll := rfl
@[simp] theorem State.setRec_mram (s : State) (x1 : Nat) (x2 : FRec) : (s.setRec x1 x2).mram = s.mram := rfl
@[simp] theorem State.setRec_lc (s : State) (x1 : Nat) (x2 : FRec) : (s.setRec x1 x2).lc = s.lc := rfl
@[simp] theorem State.setRec_ingress (s : State) (x1 : Nat) (x2 : FRec) : (s.setRec x1 x2).ingress = s.ingress := rfl
@[simp] theorem State.setRec_ring (s : State) (x1 : Nat) (x2 : FRec) : (s.setRec x1 x2).ring = s.ring := rfl
@[simp] theorem State.setRec_mem (s : State) (x1 : Nat) (x2 : FRec) : (s.setRec x1 x2).mem = s.mem := rfl
@[simp] theorem State.setRec_tm (s : State) (x1 : Nat) (x2 : FRec) : (s.setRec x1 x2).tm = s.tm := rfl
@[simp] theorem State.setRec_scan (s : State) (x1 : Nat) (x2 : FRec) : (s.setRec x1 x2).scan = s.scan := rfl
@[simp] theorem State.setRec_cards (s : State) (x1 : Nat) (x2 : FRec) : (s.setRec x1 x2).cards = s.cards := rfl
@[simp] theorem State.setRec_chans (s : State) (x1 : Nat) (x2 : FRec) : (s.setRec x1 x2).chans = s.chans := rfl
@[simp] theorem State.setRec_ucode (s : State) (x1 : Nat) (x2 : FRec) : (s.setRec x1 x2).ucode = s.ucode := rfl
@[simp] theorem State.setRec_lookWait (s : State) (x1 : Nat) (x2 : FRec) : (s.setRec x1 x2).lookWait = s.lookWait := rfl
@[simp] theorem State.setRec_looking (s : State) (x1 : Nat) (x2 : FRec) : (s.setRec x1 x2).looking = s.looking := rfl
@[simp] theorem State.setRec_tw (s : State) (x1 : Nat) (x2 : FRec) : (s.setRec x1 x2).tw = s.tw := rfl
@[simp] theorem State.setRec_supv (s : State) (x1 : Nat) (x2 : FRec) : (s.setRec x1 x2).supv = s.supv := rfl
@[simp] theorem State.setRec_br (s : State) (x1 : Nat) (x2 : FRec) : (s.setRec x1 x2).br = s.br := rfl
@[simp] theorem State.setRec_host (s : State) (x1 : Nat) (x2 : FRec) : (s.setRec x1 x2).host = s.host := rfl
@[simp] theorem State.setRec_spi (s : State) (x1 : Nat) (x2 : FRec) : (s.setRec x1 x2).spi = s.spi := rfl
@[simp] theorem State.setRec_ft (s : State) (x1 : Nat) (x2 : FRec) : (s.setRec x1 x2).ft = s.ft := rfl
@[simp] theorem State.setRec_wear (s : State) (x1 : Nat) (x2 : FRec) : (s.setRec x1 x2).wear = s.wear := rfl
@[simp] theorem State.setRec_up (s : State) (x1 : Nat) (x2 : FRec) : (s.setRec x1 x2).up = s.up := rfl
@[simp] theorem State.setRec_fresh (s : State) (x1 : Nat) (x2 : FRec) : (s.setRec x1 x2).fresh = s.fresh := rfl
@[simp] theorem State.setRec_pending (s : State) (x1 : Nat) (x2 : FRec) : (s.setRec x1 x2).pending = s.pending := rfl

@[simp] theorem State.setBank_regs (s : State) (x1 : Nat) (x2 : Bank) : (s.setBank x1 x2).regs = s.regs := rfl
@[simp] theorem State.setBank_shad (s : State) (x1 : Nat) (x2 : Bank) : (s.setBank x1 x2).shad = s.shad := rfl
@[simp] theorem State.setBank_stopping (s : State) (x1 : Nat) (x2 : Bank) : (s.setBank x1 x2).stopping = s.stopping := rfl
@[simp] theorem State.setBank_ans (s : State) (x1 : Nat) (x2 : Bank) : (s.setBank x1 x2).ans = s.ans := rfl
@[simp] theorem State.setBank_faultQ (s : State) (x1 : Nat) (x2 : Bank) : (s.setBank x1 x2).faultQ = s.faultQ := rfl
@[simp] theorem State.setBank_iso (s : State) (x1 : Nat) (x2 : Bank) : (s.setBank x1 x2).iso = s.iso := rfl
@[simp] theorem State.setBank_gs (s : State) (x1 : Nat) (x2 : Bank) : (s.setBank x1 x2).gs = s.gs := rfl
@[simp] theorem State.setBank_isl (s : State) (x1 : Nat) (x2 : Bank) : (s.setBank x1 x2).isl = s.isl := rfl
@[simp] theorem State.setBank_pll (s : State) (x1 : Nat) (x2 : Bank) : (s.setBank x1 x2).pll = s.pll := rfl
@[simp] theorem State.setBank_spll (s : State) (x1 : Nat) (x2 : Bank) : (s.setBank x1 x2).spll = s.spll := rfl
@[simp] theorem State.setBank_mram (s : State) (x1 : Nat) (x2 : Bank) : (s.setBank x1 x2).mram = s.mram := rfl
@[simp] theorem State.setBank_lc (s : State) (x1 : Nat) (x2 : Bank) : (s.setBank x1 x2).lc = s.lc := rfl
@[simp] theorem State.setBank_ingress (s : State) (x1 : Nat) (x2 : Bank) : (s.setBank x1 x2).ingress = s.ingress := rfl
@[simp] theorem State.setBank_ring (s : State) (x1 : Nat) (x2 : Bank) : (s.setBank x1 x2).ring = s.ring := rfl
@[simp] theorem State.setBank_mem (s : State) (x1 : Nat) (x2 : Bank) : (s.setBank x1 x2).mem = s.mem := rfl
@[simp] theorem State.setBank_tm (s : State) (x1 : Nat) (x2 : Bank) : (s.setBank x1 x2).tm = s.tm := rfl
@[simp] theorem State.setBank_scan (s : State) (x1 : Nat) (x2 : Bank) : (s.setBank x1 x2).scan = s.scan := rfl
@[simp] theorem State.setBank_cards (s : State) (x1 : Nat) (x2 : Bank) : (s.setBank x1 x2).cards = s.cards := rfl
@[simp] theorem State.setBank_chans (s : State) (x1 : Nat) (x2 : Bank) : (s.setBank x1 x2).chans = s.chans := rfl
@[simp] theorem State.setBank_ucode (s : State) (x1 : Nat) (x2 : Bank) : (s.setBank x1 x2).ucode = s.ucode := rfl
@[simp] theorem State.setBank_lookWait (s : State) (x1 : Nat) (x2 : Bank) : (s.setBank x1 x2).lookWait = s.lookWait := rfl
@[simp] theorem State.setBank_looking (s : State) (x1 : Nat) (x2 : Bank) : (s.setBank x1 x2).looking = s.looking := rfl
@[simp] theorem State.setBank_tw (s : State) (x1 : Nat) (x2 : Bank) : (s.setBank x1 x2).tw = s.tw := rfl
@[simp] theorem State.setBank_supv (s : State) (x1 : Nat) (x2 : Bank) : (s.setBank x1 x2).supv = s.supv := rfl
@[simp] theorem State.setBank_br (s : State) (x1 : Nat) (x2 : Bank) : (s.setBank x1 x2).br = s.br := rfl
@[simp] theorem State.setBank_host (s : State) (x1 : Nat) (x2 : Bank) : (s.setBank x1 x2).host = s.host := rfl
@[simp] theorem State.setBank_spi (s : State) (x1 : Nat) (x2 : Bank) : (s.setBank x1 x2).spi = s.spi := rfl
@[simp] theorem State.setBank_ft (s : State) (x1 : Nat) (x2 : Bank) : (s.setBank x1 x2).ft = s.ft := rfl
@[simp] theorem State.setBank_wear (s : State) (x1 : Nat) (x2 : Bank) : (s.setBank x1 x2).wear = s.wear := rfl
@[simp] theorem State.setBank_up (s : State) (x1 : Nat) (x2 : Bank) : (s.setBank x1 x2).up = s.up := rfl
@[simp] theorem State.setBank_fresh (s : State) (x1 : Nat) (x2 : Bank) : (s.setBank x1 x2).fresh = s.fresh := rfl
@[simp] theorem State.setBank_pending (s : State) (x1 : Nat) (x2 : Bank) : (s.setBank x1 x2).pending = s.pending := rfl

@[simp] theorem State.setIng_regs (s : State) (x1 : Nat) (x2 : Ing) : (s.setIng x1 x2).regs = s.regs := rfl
@[simp] theorem State.setIng_shad (s : State) (x1 : Nat) (x2 : Ing) : (s.setIng x1 x2).shad = s.shad := rfl
@[simp] theorem State.setIng_stopping (s : State) (x1 : Nat) (x2 : Ing) : (s.setIng x1 x2).stopping = s.stopping := rfl
@[simp] theorem State.setIng_ans (s : State) (x1 : Nat) (x2 : Ing) : (s.setIng x1 x2).ans = s.ans := rfl
@[simp] theorem State.setIng_faultQ (s : State) (x1 : Nat) (x2 : Ing) : (s.setIng x1 x2).faultQ = s.faultQ := rfl
@[simp] theorem State.setIng_iso (s : State) (x1 : Nat) (x2 : Ing) : (s.setIng x1 x2).iso = s.iso := rfl
@[simp] theorem State.setIng_gs (s : State) (x1 : Nat) (x2 : Ing) : (s.setIng x1 x2).gs = s.gs := rfl
@[simp] theorem State.setIng_isl (s : State) (x1 : Nat) (x2 : Ing) : (s.setIng x1 x2).isl = s.isl := rfl
@[simp] theorem State.setIng_pll (s : State) (x1 : Nat) (x2 : Ing) : (s.setIng x1 x2).pll = s.pll := rfl
@[simp] theorem State.setIng_spll (s : State) (x1 : Nat) (x2 : Ing) : (s.setIng x1 x2).spll = s.spll := rfl
@[simp] theorem State.setIng_mram (s : State) (x1 : Nat) (x2 : Ing) : (s.setIng x1 x2).mram = s.mram := rfl
@[simp] theorem State.setIng_lc (s : State) (x1 : Nat) (x2 : Ing) : (s.setIng x1 x2).lc = s.lc := rfl
@[simp] theorem State.setIng_ingress (s : State) (x1 : Nat) (x2 : Ing) : (s.setIng x1 x2).ingress = s.ingress := rfl
@[simp] theorem State.setIng_ring (s : State) (x1 : Nat) (x2 : Ing) : (s.setIng x1 x2).ring = s.ring := rfl
@[simp] theorem State.setIng_mem (s : State) (x1 : Nat) (x2 : Ing) : (s.setIng x1 x2).mem = s.mem := rfl
@[simp] theorem State.setIng_tm (s : State) (x1 : Nat) (x2 : Ing) : (s.setIng x1 x2).tm = s.tm := rfl
@[simp] theorem State.setIng_scan (s : State) (x1 : Nat) (x2 : Ing) : (s.setIng x1 x2).scan = s.scan := rfl
@[simp] theorem State.setIng_cards (s : State) (x1 : Nat) (x2 : Ing) : (s.setIng x1 x2).cards = s.cards := rfl
@[simp] theorem State.setIng_chans (s : State) (x1 : Nat) (x2 : Ing) : (s.setIng x1 x2).chans = s.chans := rfl
@[simp] theorem State.setIng_ucode (s : State) (x1 : Nat) (x2 : Ing) : (s.setIng x1 x2).ucode = s.ucode := rfl
@[simp] theorem State.setIng_lookWait (s : State) (x1 : Nat) (x2 : Ing) : (s.setIng x1 x2).lookWait = s.lookWait := rfl
@[simp] theorem State.setIng_looking (s : State) (x1 : Nat) (x2 : Ing) : (s.setIng x1 x2).looking = s.looking := rfl
@[simp] theorem State.setIng_tw (s : State) (x1 : Nat) (x2 : Ing) : (s.setIng x1 x2).tw = s.tw := rfl
@[simp] theorem State.setIng_supv (s : State) (x1 : Nat) (x2 : Ing) : (s.setIng x1 x2).supv = s.supv := rfl
@[simp] theorem State.setIng_br (s : State) (x1 : Nat) (x2 : Ing) : (s.setIng x1 x2).br = s.br := rfl
@[simp] theorem State.setIng_host (s : State) (x1 : Nat) (x2 : Ing) : (s.setIng x1 x2).host = s.host := rfl
@[simp] theorem State.setIng_spi (s : State) (x1 : Nat) (x2 : Ing) : (s.setIng x1 x2).spi = s.spi := rfl
@[simp] theorem State.setIng_ft (s : State) (x1 : Nat) (x2 : Ing) : (s.setIng x1 x2).ft = s.ft := rfl
@[simp] theorem State.setIng_wear (s : State) (x1 : Nat) (x2 : Ing) : (s.setIng x1 x2).wear = s.wear := rfl
@[simp] theorem State.setIng_up (s : State) (x1 : Nat) (x2 : Ing) : (s.setIng x1 x2).up = s.up := rfl
@[simp] theorem State.setIng_fresh (s : State) (x1 : Nat) (x2 : Ing) : (s.setIng x1 x2).fresh = s.fresh := rfl
@[simp] theorem State.setIng_pending (s : State) (x1 : Nat) (x2 : Ing) : (s.setIng x1 x2).pending = s.pending := rfl

@[simp] theorem State.setEg_regs (s : State) (x1 : Nat) (x2 : Option Eg) : (s.setEg x1 x2).regs = s.regs := rfl
@[simp] theorem State.setEg_shad (s : State) (x1 : Nat) (x2 : Option Eg) : (s.setEg x1 x2).shad = s.shad := rfl
@[simp] theorem State.setEg_stopping (s : State) (x1 : Nat) (x2 : Option Eg) : (s.setEg x1 x2).stopping = s.stopping := rfl
@[simp] theorem State.setEg_ans (s : State) (x1 : Nat) (x2 : Option Eg) : (s.setEg x1 x2).ans = s.ans := rfl
@[simp] theorem State.setEg_faultQ (s : State) (x1 : Nat) (x2 : Option Eg) : (s.setEg x1 x2).faultQ = s.faultQ := rfl
@[simp] theorem State.setEg_iso (s : State) (x1 : Nat) (x2 : Option Eg) : (s.setEg x1 x2).iso = s.iso := rfl
@[simp] theorem State.setEg_gs (s : State) (x1 : Nat) (x2 : Option Eg) : (s.setEg x1 x2).gs = s.gs := rfl
@[simp] theorem State.setEg_isl (s : State) (x1 : Nat) (x2 : Option Eg) : (s.setEg x1 x2).isl = s.isl := rfl
@[simp] theorem State.setEg_pll (s : State) (x1 : Nat) (x2 : Option Eg) : (s.setEg x1 x2).pll = s.pll := rfl
@[simp] theorem State.setEg_spll (s : State) (x1 : Nat) (x2 : Option Eg) : (s.setEg x1 x2).spll = s.spll := rfl
@[simp] theorem State.setEg_mram (s : State) (x1 : Nat) (x2 : Option Eg) : (s.setEg x1 x2).mram = s.mram := rfl
@[simp] theorem State.setEg_lc (s : State) (x1 : Nat) (x2 : Option Eg) : (s.setEg x1 x2).lc = s.lc := rfl
@[simp] theorem State.setEg_ingress (s : State) (x1 : Nat) (x2 : Option Eg) : (s.setEg x1 x2).ingress = s.ingress := rfl
@[simp] theorem State.setEg_ring (s : State) (x1 : Nat) (x2 : Option Eg) : (s.setEg x1 x2).ring = s.ring := rfl
@[simp] theorem State.setEg_mem (s : State) (x1 : Nat) (x2 : Option Eg) : (s.setEg x1 x2).mem = s.mem := rfl
@[simp] theorem State.setEg_tm (s : State) (x1 : Nat) (x2 : Option Eg) : (s.setEg x1 x2).tm = s.tm := rfl
@[simp] theorem State.setEg_scan (s : State) (x1 : Nat) (x2 : Option Eg) : (s.setEg x1 x2).scan = s.scan := rfl
@[simp] theorem State.setEg_cards (s : State) (x1 : Nat) (x2 : Option Eg) : (s.setEg x1 x2).cards = s.cards := rfl
@[simp] theorem State.setEg_chans (s : State) (x1 : Nat) (x2 : Option Eg) : (s.setEg x1 x2).chans = s.chans := rfl
@[simp] theorem State.setEg_ucode (s : State) (x1 : Nat) (x2 : Option Eg) : (s.setEg x1 x2).ucode = s.ucode := rfl
@[simp] theorem State.setEg_lookWait (s : State) (x1 : Nat) (x2 : Option Eg) : (s.setEg x1 x2).lookWait = s.lookWait := rfl
@[simp] theorem State.setEg_looking (s : State) (x1 : Nat) (x2 : Option Eg) : (s.setEg x1 x2).looking = s.looking := rfl
@[simp] theorem State.setEg_tw (s : State) (x1 : Nat) (x2 : Option Eg) : (s.setEg x1 x2).tw = s.tw := rfl
@[simp] theorem State.setEg_supv (s : State) (x1 : Nat) (x2 : Option Eg) : (s.setEg x1 x2).supv = s.supv := rfl
@[simp] theorem State.setEg_br (s : State) (x1 : Nat) (x2 : Option Eg) : (s.setEg x1 x2).br = s.br := rfl
@[simp] theorem State.setEg_host (s : State) (x1 : Nat) (x2 : Option Eg) : (s.setEg x1 x2).host = s.host := rfl
@[simp] theorem State.setEg_spi (s : State) (x1 : Nat) (x2 : Option Eg) : (s.setEg x1 x2).spi = s.spi := rfl
@[simp] theorem State.setEg_ft (s : State) (x1 : Nat) (x2 : Option Eg) : (s.setEg x1 x2).ft = s.ft := rfl
@[simp] theorem State.setEg_wear (s : State) (x1 : Nat) (x2 : Option Eg) : (s.setEg x1 x2).wear = s.wear := rfl
@[simp] theorem State.setEg_up (s : State) (x1 : Nat) (x2 : Option Eg) : (s.setEg x1 x2).up = s.up := rfl
@[simp] theorem State.setEg_fresh (s : State) (x1 : Nat) (x2 : Option Eg) : (s.setEg x1 x2).fresh = s.fresh := rfl
@[simp] theorem State.setEg_pending (s : State) (x1 : Nat) (x2 : Option Eg) : (s.setEg x1 x2).pending = s.pending := rfl

@[simp] theorem State.setInbox_regs (s : State) (x1 : Nat) (x2 : List Frame) : (s.setInbox x1 x2).regs = s.regs := rfl
@[simp] theorem State.setInbox_shad (s : State) (x1 : Nat) (x2 : List Frame) : (s.setInbox x1 x2).shad = s.shad := rfl
@[simp] theorem State.setInbox_stopping (s : State) (x1 : Nat) (x2 : List Frame) : (s.setInbox x1 x2).stopping = s.stopping := rfl
@[simp] theorem State.setInbox_ans (s : State) (x1 : Nat) (x2 : List Frame) : (s.setInbox x1 x2).ans = s.ans := rfl
@[simp] theorem State.setInbox_faultQ (s : State) (x1 : Nat) (x2 : List Frame) : (s.setInbox x1 x2).faultQ = s.faultQ := rfl
@[simp] theorem State.setInbox_iso (s : State) (x1 : Nat) (x2 : List Frame) : (s.setInbox x1 x2).iso = s.iso := rfl
@[simp] theorem State.setInbox_gs (s : State) (x1 : Nat) (x2 : List Frame) : (s.setInbox x1 x2).gs = s.gs := rfl
@[simp] theorem State.setInbox_isl (s : State) (x1 : Nat) (x2 : List Frame) : (s.setInbox x1 x2).isl = s.isl := rfl
@[simp] theorem State.setInbox_pll (s : State) (x1 : Nat) (x2 : List Frame) : (s.setInbox x1 x2).pll = s.pll := rfl
@[simp] theorem State.setInbox_spll (s : State) (x1 : Nat) (x2 : List Frame) : (s.setInbox x1 x2).spll = s.spll := rfl
@[simp] theorem State.setInbox_mram (s : State) (x1 : Nat) (x2 : List Frame) : (s.setInbox x1 x2).mram = s.mram := rfl
@[simp] theorem State.setInbox_lc (s : State) (x1 : Nat) (x2 : List Frame) : (s.setInbox x1 x2).lc = s.lc := rfl
@[simp] theorem State.setInbox_ingress (s : State) (x1 : Nat) (x2 : List Frame) : (s.setInbox x1 x2).ingress = s.ingress := rfl
@[simp] theorem State.setInbox_ring (s : State) (x1 : Nat) (x2 : List Frame) : (s.setInbox x1 x2).ring = s.ring := rfl
@[simp] theorem State.setInbox_mem (s : State) (x1 : Nat) (x2 : List Frame) : (s.setInbox x1 x2).mem = s.mem := rfl
@[simp] theorem State.setInbox_tm (s : State) (x1 : Nat) (x2 : List Frame) : (s.setInbox x1 x2).tm = s.tm := rfl
@[simp] theorem State.setInbox_scan (s : State) (x1 : Nat) (x2 : List Frame) : (s.setInbox x1 x2).scan = s.scan := rfl
@[simp] theorem State.setInbox_cards (s : State) (x1 : Nat) (x2 : List Frame) : (s.setInbox x1 x2).cards = s.cards := rfl
@[simp] theorem State.setInbox_chans (s : State) (x1 : Nat) (x2 : List Frame) : (s.setInbox x1 x2).chans = s.chans := rfl
@[simp] theorem State.setInbox_ucode (s : State) (x1 : Nat) (x2 : List Frame) : (s.setInbox x1 x2).ucode = s.ucode := rfl
@[simp] theorem State.setInbox_lookWait (s : State) (x1 : Nat) (x2 : List Frame) : (s.setInbox x1 x2).lookWait = s.lookWait := rfl
@[simp] theorem State.setInbox_looking (s : State) (x1 : Nat) (x2 : List Frame) : (s.setInbox x1 x2).looking = s.looking := rfl
@[simp] theorem State.setInbox_tw (s : State) (x1 : Nat) (x2 : List Frame) : (s.setInbox x1 x2).tw = s.tw := rfl
@[simp] theorem State.setInbox_supv (s : State) (x1 : Nat) (x2 : List Frame) : (s.setInbox x1 x2).supv = s.supv := rfl
@[simp] theorem State.setInbox_br (s : State) (x1 : Nat) (x2 : List Frame) : (s.setInbox x1 x2).br = s.br := rfl
@[simp] theorem State.setInbox_host (s : State) (x1 : Nat) (x2 : List Frame) : (s.setInbox x1 x2).host = s.host := rfl
@[simp] theorem State.setInbox_spi (s : State) (x1 : Nat) (x2 : List Frame) : (s.setInbox x1 x2).spi = s.spi := rfl
@[simp] theorem State.setInbox_ft (s : State) (x1 : Nat) (x2 : List Frame) : (s.setInbox x1 x2).ft = s.ft := rfl
@[simp] theorem State.setInbox_wear (s : State) (x1 : Nat) (x2 : List Frame) : (s.setInbox x1 x2).wear = s.wear := rfl
@[simp] theorem State.setInbox_up (s : State) (x1 : Nat) (x2 : List Frame) : (s.setInbox x1 x2).up = s.up := rfl
@[simp] theorem State.setInbox_fresh (s : State) (x1 : Nat) (x2 : List Frame) : (s.setInbox x1 x2).fresh = s.fresh := rfl
@[simp] theorem State.setInbox_pending (s : State) (x1 : Nat) (x2 : List Frame) : (s.setInbox x1 x2).pending = s.pending := rfl

@[simp] theorem State.setLink_regs (s : State) (x1 : Nat) (x2 : Link) : (s.setLink x1 x2).regs = s.regs := rfl
@[simp] theorem State.setLink_shad (s : State) (x1 : Nat) (x2 : Link) : (s.setLink x1 x2).shad = s.shad := rfl
@[simp] theorem State.setLink_stopping (s : State) (x1 : Nat) (x2 : Link) : (s.setLink x1 x2).stopping = s.stopping := rfl
@[simp] theorem State.setLink_ans (s : State) (x1 : Nat) (x2 : Link) : (s.setLink x1 x2).ans = s.ans := rfl
@[simp] theorem State.setLink_faultQ (s : State) (x1 : Nat) (x2 : Link) : (s.setLink x1 x2).faultQ = s.faultQ := rfl
@[simp] theorem State.setLink_iso (s : State) (x1 : Nat) (x2 : Link) : (s.setLink x1 x2).iso = s.iso := rfl
@[simp] theorem State.setLink_gs (s : State) (x1 : Nat) (x2 : Link) : (s.setLink x1 x2).gs = s.gs := rfl
@[simp] theorem State.setLink_isl (s : State) (x1 : Nat) (x2 : Link) : (s.setLink x1 x2).isl = s.isl := rfl
@[simp] theorem State.setLink_pll (s : State) (x1 : Nat) (x2 : Link) : (s.setLink x1 x2).pll = s.pll := rfl
@[simp] theorem State.setLink_spll (s : State) (x1 : Nat) (x2 : Link) : (s.setLink x1 x2).spll = s.spll := rfl
@[simp] theorem State.setLink_mram (s : State) (x1 : Nat) (x2 : Link) : (s.setLink x1 x2).mram = s.mram := rfl
@[simp] theorem State.setLink_lc (s : State) (x1 : Nat) (x2 : Link) : (s.setLink x1 x2).lc = s.lc := rfl
@[simp] theorem State.setLink_ingress (s : State) (x1 : Nat) (x2 : Link) : (s.setLink x1 x2).ingress = s.ingress := rfl
@[simp] theorem State.setLink_ring (s : State) (x1 : Nat) (x2 : Link) : (s.setLink x1 x2).ring = s.ring := rfl
@[simp] theorem State.setLink_mem (s : State) (x1 : Nat) (x2 : Link) : (s.setLink x1 x2).mem = s.mem := rfl
@[simp] theorem State.setLink_tm (s : State) (x1 : Nat) (x2 : Link) : (s.setLink x1 x2).tm = s.tm := rfl
@[simp] theorem State.setLink_scan (s : State) (x1 : Nat) (x2 : Link) : (s.setLink x1 x2).scan = s.scan := rfl
@[simp] theorem State.setLink_cards (s : State) (x1 : Nat) (x2 : Link) : (s.setLink x1 x2).cards = s.cards := rfl
@[simp] theorem State.setLink_chans (s : State) (x1 : Nat) (x2 : Link) : (s.setLink x1 x2).chans = s.chans := rfl
@[simp] theorem State.setLink_ucode (s : State) (x1 : Nat) (x2 : Link) : (s.setLink x1 x2).ucode = s.ucode := rfl
@[simp] theorem State.setLink_lookWait (s : State) (x1 : Nat) (x2 : Link) : (s.setLink x1 x2).lookWait = s.lookWait := rfl
@[simp] theorem State.setLink_looking (s : State) (x1 : Nat) (x2 : Link) : (s.setLink x1 x2).looking = s.looking := rfl
@[simp] theorem State.setLink_tw (s : State) (x1 : Nat) (x2 : Link) : (s.setLink x1 x2).tw = s.tw := rfl
@[simp] theorem State.setLink_supv (s : State) (x1 : Nat) (x2 : Link) : (s.setLink x1 x2).supv = s.supv := rfl
@[simp] theorem State.setLink_br (s : State) (x1 : Nat) (x2 : Link) : (s.setLink x1 x2).br = s.br := rfl
@[simp] theorem State.setLink_host (s : State) (x1 : Nat) (x2 : Link) : (s.setLink x1 x2).host = s.host := rfl
@[simp] theorem State.setLink_spi (s : State) (x1 : Nat) (x2 : Link) : (s.setLink x1 x2).spi = s.spi := rfl
@[simp] theorem State.setLink_ft (s : State) (x1 : Nat) (x2 : Link) : (s.setLink x1 x2).ft = s.ft := rfl
@[simp] theorem State.setLink_wear (s : State) (x1 : Nat) (x2 : Link) : (s.setLink x1 x2).wear = s.wear := rfl
@[simp] theorem State.setLink_up (s : State) (x1 : Nat) (x2 : Link) : (s.setLink x1 x2).up = s.up := rfl
@[simp] theorem State.setLink_fresh (s : State) (x1 : Nat) (x2 : Link) : (s.setLink x1 x2).fresh = s.fresh := rfl
@[simp] theorem State.setLink_pending (s : State) (x1 : Nat) (x2 : Link) : (s.setLink x1 x2).pending = s.pending := rfl

@[simp] theorem State.setCell_regs (s : State) (x1 : Nat) (x2 : BitVec 192) : (s.setCell x1 x2).regs = s.regs := rfl
@[simp] theorem State.setCell_shad (s : State) (x1 : Nat) (x2 : BitVec 192) : (s.setCell x1 x2).shad = s.shad := rfl
@[simp] theorem State.setCell_stopping (s : State) (x1 : Nat) (x2 : BitVec 192) : (s.setCell x1 x2).stopping = s.stopping := rfl
@[simp] theorem State.setCell_ans (s : State) (x1 : Nat) (x2 : BitVec 192) : (s.setCell x1 x2).ans = s.ans := rfl
@[simp] theorem State.setCell_faultQ (s : State) (x1 : Nat) (x2 : BitVec 192) : (s.setCell x1 x2).faultQ = s.faultQ := rfl
@[simp] theorem State.setCell_iso (s : State) (x1 : Nat) (x2 : BitVec 192) : (s.setCell x1 x2).iso = s.iso := rfl
@[simp] theorem State.setCell_gs (s : State) (x1 : Nat) (x2 : BitVec 192) : (s.setCell x1 x2).gs = s.gs := rfl
@[simp] theorem State.setCell_isl (s : State) (x1 : Nat) (x2 : BitVec 192) : (s.setCell x1 x2).isl = s.isl := rfl
@[simp] theorem State.setCell_pll (s : State) (x1 : Nat) (x2 : BitVec 192) : (s.setCell x1 x2).pll = s.pll := rfl
@[simp] theorem State.setCell_spll (s : State) (x1 : Nat) (x2 : BitVec 192) : (s.setCell x1 x2).spll = s.spll := rfl
@[simp] theorem State.setCell_mram (s : State) (x1 : Nat) (x2 : BitVec 192) : (s.setCell x1 x2).mram = s.mram := rfl
@[simp] theorem State.setCell_lc (s : State) (x1 : Nat) (x2 : BitVec 192) : (s.setCell x1 x2).lc = s.lc := rfl
@[simp] theorem State.setCell_ingress (s : State) (x1 : Nat) (x2 : BitVec 192) : (s.setCell x1 x2).ingress = s.ingress := rfl
@[simp] theorem State.setCell_ring (s : State) (x1 : Nat) (x2 : BitVec 192) : (s.setCell x1 x2).ring = s.ring := rfl
@[simp] theorem State.setCell_mem (s : State) (x1 : Nat) (x2 : BitVec 192) : (s.setCell x1 x2).mem = s.mem := rfl
@[simp] theorem State.setCell_tm (s : State) (x1 : Nat) (x2 : BitVec 192) : (s.setCell x1 x2).tm = s.tm := rfl
@[simp] theorem State.setCell_scan (s : State) (x1 : Nat) (x2 : BitVec 192) : (s.setCell x1 x2).scan = s.scan := rfl
@[simp] theorem State.setCell_cards (s : State) (x1 : Nat) (x2 : BitVec 192) : (s.setCell x1 x2).cards = s.cards := rfl
@[simp] theorem State.setCell_chans (s : State) (x1 : Nat) (x2 : BitVec 192) : (s.setCell x1 x2).chans = s.chans := rfl
@[simp] theorem State.setCell_ucode (s : State) (x1 : Nat) (x2 : BitVec 192) : (s.setCell x1 x2).ucode = s.ucode := rfl
@[simp] theorem State.setCell_lookWait (s : State) (x1 : Nat) (x2 : BitVec 192) : (s.setCell x1 x2).lookWait = s.lookWait := rfl
@[simp] theorem State.setCell_looking (s : State) (x1 : Nat) (x2 : BitVec 192) : (s.setCell x1 x2).looking = s.looking := rfl
@[simp] theorem State.setCell_tw (s : State) (x1 : Nat) (x2 : BitVec 192) : (s.setCell x1 x2).tw = s.tw := rfl
@[simp] theorem State.setCell_supv (s : State) (x1 : Nat) (x2 : BitVec 192) : (s.setCell x1 x2).supv = s.supv := rfl
@[simp] theorem State.setCell_br (s : State) (x1 : Nat) (x2 : BitVec 192) : (s.setCell x1 x2).br = s.br := rfl
@[simp] theorem State.setCell_host (s : State) (x1 : Nat) (x2 : BitVec 192) : (s.setCell x1 x2).host = s.host := rfl
@[simp] theorem State.setCell_spi (s : State) (x1 : Nat) (x2 : BitVec 192) : (s.setCell x1 x2).spi = s.spi := rfl
@[simp] theorem State.setCell_ft (s : State) (x1 : Nat) (x2 : BitVec 192) : (s.setCell x1 x2).ft = s.ft := rfl
@[simp] theorem State.setCell_wear (s : State) (x1 : Nat) (x2 : BitVec 192) : (s.setCell x1 x2).wear = s.wear := rfl
@[simp] theorem State.setCell_up (s : State) (x1 : Nat) (x2 : BitVec 192) : (s.setCell x1 x2).up = s.up := rfl
@[simp] theorem State.setCell_fresh (s : State) (x1 : Nat) (x2 : BitVec 192) : (s.setCell x1 x2).fresh = s.fresh := rfl
@[simp] theorem State.setCell_pending (s : State) (x1 : Nat) (x2 : BitVec 192) : (s.setCell x1 x2).pending = s.pending := rfl

@[simp] theorem State.freeEnt_regs (s : State) (x1 : Nat) : (s.freeEnt x1).regs = s.regs := rfl
@[simp] theorem State.freeEnt_shad (s : State) (x1 : Nat) : (s.freeEnt x1).shad = s.shad := rfl
@[simp] theorem State.freeEnt_stopping (s : State) (x1 : Nat) : (s.freeEnt x1).stopping = s.stopping := rfl
@[simp] theorem State.freeEnt_ans (s : State) (x1 : Nat) : (s.freeEnt x1).ans = s.ans := rfl
@[simp] theorem State.freeEnt_faultQ (s : State) (x1 : Nat) : (s.freeEnt x1).faultQ = s.faultQ := rfl
@[simp] theorem State.freeEnt_iso (s : State) (x1 : Nat) : (s.freeEnt x1).iso = s.iso := rfl
@[simp] theorem State.freeEnt_gs (s : State) (x1 : Nat) : (s.freeEnt x1).gs = s.gs := rfl
@[simp] theorem State.freeEnt_isl (s : State) (x1 : Nat) : (s.freeEnt x1).isl = s.isl := rfl
@[simp] theorem State.freeEnt_pll (s : State) (x1 : Nat) : (s.freeEnt x1).pll = s.pll := rfl
@[simp] theorem State.freeEnt_spll (s : State) (x1 : Nat) : (s.freeEnt x1).spll = s.spll := rfl
@[simp] theorem State.freeEnt_mram (s : State) (x1 : Nat) : (s.freeEnt x1).mram = s.mram := rfl
@[simp] theorem State.freeEnt_lc (s : State) (x1 : Nat) : (s.freeEnt x1).lc = s.lc := rfl
@[simp] theorem State.freeEnt_ingress (s : State) (x1 : Nat) : (s.freeEnt x1).ingress = s.ingress := rfl
@[simp] theorem State.freeEnt_ring (s : State) (x1 : Nat) : (s.freeEnt x1).ring = s.ring := rfl
@[simp] theorem State.freeEnt_mem (s : State) (x1 : Nat) : (s.freeEnt x1).mem = s.mem := rfl
@[simp] theorem State.freeEnt_tm (s : State) (x1 : Nat) : (s.freeEnt x1).tm = s.tm := rfl
@[simp] theorem State.freeEnt_scan (s : State) (x1 : Nat) : (s.freeEnt x1).scan = s.scan := rfl
@[simp] theorem State.freeEnt_cards (s : State) (x1 : Nat) : (s.freeEnt x1).cards = s.cards := rfl
@[simp] theorem State.freeEnt_chans (s : State) (x1 : Nat) : (s.freeEnt x1).chans = s.chans := rfl
@[simp] theorem State.freeEnt_ucode (s : State) (x1 : Nat) : (s.freeEnt x1).ucode = s.ucode := rfl
@[simp] theorem State.freeEnt_lookWait (s : State) (x1 : Nat) : (s.freeEnt x1).lookWait = s.lookWait := rfl
@[simp] theorem State.freeEnt_looking (s : State) (x1 : Nat) : (s.freeEnt x1).looking = s.looking := rfl
@[simp] theorem State.freeEnt_tw (s : State) (x1 : Nat) : (s.freeEnt x1).tw = s.tw := rfl
@[simp] theorem State.freeEnt_supv (s : State) (x1 : Nat) : (s.freeEnt x1).supv = s.supv := rfl
@[simp] theorem State.freeEnt_br (s : State) (x1 : Nat) : (s.freeEnt x1).br = s.br := rfl
@[simp] theorem State.freeEnt_host (s : State) (x1 : Nat) : (s.freeEnt x1).host = s.host := rfl
@[simp] theorem State.freeEnt_spi (s : State) (x1 : Nat) : (s.freeEnt x1).spi = s.spi := rfl
@[simp] theorem State.freeEnt_ft (s : State) (x1 : Nat) : (s.freeEnt x1).ft = s.ft := rfl
@[simp] theorem State.freeEnt_wear (s : State) (x1 : Nat) : (s.freeEnt x1).wear = s.wear := rfl
@[simp] theorem State.freeEnt_up (s : State) (x1 : Nat) : (s.freeEnt x1).up = s.up := rfl
@[simp] theorem State.freeEnt_fresh (s : State) (x1 : Nat) : (s.freeEnt x1).fresh = s.fresh := rfl
@[simp] theorem State.freeEnt_pending (s : State) (x1 : Nat) : (s.freeEnt x1).pending = s.pending := rfl

@[simp] theorem State.endCycle_regs (s : State)  : (s.endCycle).regs = s.regs := rfl
@[simp] theorem State.endCycle_shad (s : State)  : (s.endCycle).shad = s.shad := rfl
@[simp] theorem State.endCycle_stopping (s : State)  : (s.endCycle).stopping = s.stopping := rfl
@[simp] theorem State.endCycle_ans (s : State)  : (s.endCycle).ans = s.ans := rfl
@[simp] theorem State.endCycle_faultQ (s : State)  : (s.endCycle).faultQ = s.faultQ := rfl
@[simp] theorem State.endCycle_iso (s : State)  : (s.endCycle).iso = s.iso := rfl
@[simp] theorem State.endCycle_gs (s : State)  : (s.endCycle).gs = s.gs := rfl
@[simp] theorem State.endCycle_isl (s : State)  : (s.endCycle).isl = s.isl := rfl
@[simp] theorem State.endCycle_pll (s : State)  : (s.endCycle).pll = s.pll := rfl
@[simp] theorem State.endCycle_spll (s : State)  : (s.endCycle).spll = s.spll := rfl
@[simp] theorem State.endCycle_mram (s : State)  : (s.endCycle).mram = s.mram := rfl
@[simp] theorem State.endCycle_lc (s : State)  : (s.endCycle).lc = s.lc := rfl
@[simp] theorem State.endCycle_ingress (s : State)  : (s.endCycle).ingress = s.ingress := rfl
@[simp] theorem State.endCycle_ring (s : State)  : (s.endCycle).ring = s.ring := rfl
@[simp] theorem State.endCycle_mem (s : State)  : (s.endCycle).mem = s.mem := rfl
@[simp] theorem State.endCycle_tm (s : State)  : (s.endCycle).tm = s.tm := rfl
@[simp] theorem State.endCycle_scan (s : State)  : (s.endCycle).scan = s.scan := rfl
@[simp] theorem State.endCycle_cards (s : State)  : (s.endCycle).cards = s.cards := rfl
@[simp] theorem State.endCycle_chans (s : State)  : (s.endCycle).chans = s.chans := rfl
@[simp] theorem State.endCycle_ucode (s : State)  : (s.endCycle).ucode = s.ucode := rfl
@[simp] theorem State.endCycle_lookWait (s : State)  : (s.endCycle).lookWait = s.lookWait := rfl
@[simp] theorem State.endCycle_looking (s : State)  : (s.endCycle).looking = s.looking := rfl
@[simp] theorem State.endCycle_tw (s : State)  : (s.endCycle).tw = s.tw := rfl
@[simp] theorem State.endCycle_supv (s : State)  : (s.endCycle).supv = s.supv := rfl
@[simp] theorem State.endCycle_br (s : State)  : (s.endCycle).br = s.br := rfl
@[simp] theorem State.endCycle_host (s : State)  : (s.endCycle).host = s.host := rfl
@[simp] theorem State.endCycle_spi (s : State)  : (s.endCycle).spi = s.spi := rfl
@[simp] theorem State.endCycle_ft (s : State)  : (s.endCycle).ft = s.ft := rfl
@[simp] theorem State.endCycle_wear (s : State)  : (s.endCycle).wear = s.wear := rfl
@[simp] theorem State.endCycle_up (s : State)  : (s.endCycle).up = s.up := rfl
@[simp] theorem State.endCycle_fresh (s : State)  : (s.endCycle).fresh = s.fresh := rfl
@[simp] theorem State.endCycle_pending (s : State)  : (s.endCycle).pending = s.pending := rfl

@[simp] theorem State.setLost_regs (s : State) (x1 : Nat) (x2 : Nat) : (s.setLost x1 x2).regs = s.regs := rfl
@[simp] theorem State.setLost_shad (s : State) (x1 : Nat) (x2 : Nat) : (s.setLost x1 x2).shad = s.shad := rfl
@[simp] theorem State.setLost_stopping (s : State) (x1 : Nat) (x2 : Nat) : (s.setLost x1 x2).stopping = s.stopping := rfl
@[simp] theorem State.setLost_ans (s : State) (x1 : Nat) (x2 : Nat) : (s.setLost x1 x2).ans = s.ans := rfl
@[simp] theorem State.setLost_faultQ (s : State) (x1 : Nat) (x2 : Nat) : (s.setLost x1 x2).faultQ = s.faultQ := rfl
@[simp] theorem State.setLost_iso (s : State) (x1 : Nat) (x2 : Nat) : (s.setLost x1 x2).iso = s.iso := rfl
@[simp] theorem State.setLost_gs (s : State) (x1 : Nat) (x2 : Nat) : (s.setLost x1 x2).gs = s.gs := rfl
@[simp] theorem State.setLost_isl (s : State) (x1 : Nat) (x2 : Nat) : (s.setLost x1 x2).isl = s.isl := rfl
@[simp] theorem State.setLost_pll (s : State) (x1 : Nat) (x2 : Nat) : (s.setLost x1 x2).pll = s.pll := rfl
@[simp] theorem State.setLost_spll (s : State) (x1 : Nat) (x2 : Nat) : (s.setLost x1 x2).spll = s.spll := rfl
@[simp] theorem State.setLost_mram (s : State) (x1 : Nat) (x2 : Nat) : (s.setLost x1 x2).mram = s.mram := rfl
@[simp] theorem State.setLost_lc (s : State) (x1 : Nat) (x2 : Nat) : (s.setLost x1 x2).lc = s.lc := rfl
@[simp] theorem State.setLost_ingress (s : State) (x1 : Nat) (x2 : Nat) : (s.setLost x1 x2).ingress = s.ingress := rfl
@[simp] theorem State.setLost_ring (s : State) (x1 : Nat) (x2 : Nat) : (s.setLost x1 x2).ring = s.ring := rfl
@[simp] theorem State.setLost_mem (s : State) (x1 : Nat) (x2 : Nat) : (s.setLost x1 x2).mem = s.mem := rfl
@[simp] theorem State.setLost_tm (s : State) (x1 : Nat) (x2 : Nat) : (s.setLost x1 x2).tm = s.tm := rfl
@[simp] theorem State.setLost_scan (s : State) (x1 : Nat) (x2 : Nat) : (s.setLost x1 x2).scan = s.scan := rfl
@[simp] theorem State.setLost_cards (s : State) (x1 : Nat) (x2 : Nat) : (s.setLost x1 x2).cards = s.cards := rfl
@[simp] theorem State.setLost_chans (s : State) (x1 : Nat) (x2 : Nat) : (s.setLost x1 x2).chans = s.chans := rfl
@[simp] theorem State.setLost_ucode (s : State) (x1 : Nat) (x2 : Nat) : (s.setLost x1 x2).ucode = s.ucode := rfl
@[simp] theorem State.setLost_lookWait (s : State) (x1 : Nat) (x2 : Nat) : (s.setLost x1 x2).lookWait = s.lookWait := rfl
@[simp] theorem State.setLost_looking (s : State) (x1 : Nat) (x2 : Nat) : (s.setLost x1 x2).looking = s.looking := rfl
@[simp] theorem State.setLost_tw (s : State) (x1 : Nat) (x2 : Nat) : (s.setLost x1 x2).tw = s.tw := rfl
@[simp] theorem State.setLost_supv (s : State) (x1 : Nat) (x2 : Nat) : (s.setLost x1 x2).supv = s.supv := rfl
@[simp] theorem State.setLost_br (s : State) (x1 : Nat) (x2 : Nat) : (s.setLost x1 x2).br = s.br := rfl
@[simp] theorem State.setLost_host (s : State) (x1 : Nat) (x2 : Nat) : (s.setLost x1 x2).host = s.host := rfl
@[simp] theorem State.setLost_spi (s : State) (x1 : Nat) (x2 : Nat) : (s.setLost x1 x2).spi = s.spi := rfl
@[simp] theorem State.setLost_ft (s : State) (x1 : Nat) (x2 : Nat) : (s.setLost x1 x2).ft = s.ft := rfl
@[simp] theorem State.setLost_wear (s : State) (x1 : Nat) (x2 : Nat) : (s.setLost x1 x2).wear = s.wear := rfl
@[simp] theorem State.setLost_up (s : State) (x1 : Nat) (x2 : Nat) : (s.setLost x1 x2).up = s.up := rfl
@[simp] theorem State.setLost_fresh (s : State) (x1 : Nat) (x2 : Nat) : (s.setLost x1 x2).fresh = s.fresh := rfl
@[simp] theorem State.setLost_pending (s : State) (x1 : Nat) (x2 : Nat) : (s.setLost x1 x2).pending = s.pending := rfl

@[simp] theorem State.coreDiscard_regs (s : State)  : (s.coreDiscard).regs = s.regs := rfl
@[simp] theorem State.coreDiscard_shad (s : State)  : (s.coreDiscard).shad = s.shad := rfl
@[simp] theorem State.coreDiscard_stopping (s : State)  : (s.coreDiscard).stopping = s.stopping := rfl
@[simp] theorem State.coreDiscard_ans (s : State)  : (s.coreDiscard).ans = s.ans := rfl
@[simp] theorem State.coreDiscard_faultQ (s : State)  : (s.coreDiscard).faultQ = s.faultQ := rfl
@[simp] theorem State.coreDiscard_iso (s : State)  : (s.coreDiscard).iso = s.iso := rfl
@[simp] theorem State.coreDiscard_gs (s : State)  : (s.coreDiscard).gs = s.gs := rfl
@[simp] theorem State.coreDiscard_isl (s : State)  : (s.coreDiscard).isl = s.isl := rfl
@[simp] theorem State.coreDiscard_pll (s : State)  : (s.coreDiscard).pll = s.pll := rfl
@[simp] theorem State.coreDiscard_spll (s : State)  : (s.coreDiscard).spll = s.spll := rfl
@[simp] theorem State.coreDiscard_mram (s : State)  : (s.coreDiscard).mram = s.mram := rfl
@[simp] theorem State.coreDiscard_lc (s : State)  : (s.coreDiscard).lc = s.lc := rfl
@[simp] theorem State.coreDiscard_ring (s : State)  : (s.coreDiscard).ring = s.ring := rfl
@[simp] theorem State.coreDiscard_mem (s : State)  : (s.coreDiscard).mem = s.mem := rfl
@[simp] theorem State.coreDiscard_tm (s : State)  : (s.coreDiscard).tm = s.tm := rfl
@[simp] theorem State.coreDiscard_scan (s : State)  : (s.coreDiscard).scan = s.scan := rfl
@[simp] theorem State.coreDiscard_cards (s : State)  : (s.coreDiscard).cards = s.cards := rfl
@[simp] theorem State.coreDiscard_chans (s : State)  : (s.coreDiscard).chans = s.chans := rfl
@[simp] theorem State.coreDiscard_ucode (s : State)  : (s.coreDiscard).ucode = s.ucode := rfl
@[simp] theorem State.coreDiscard_lookWait (s : State)  : (s.coreDiscard).lookWait = s.lookWait := rfl
@[simp] theorem State.coreDiscard_looking (s : State)  : (s.coreDiscard).looking = s.looking := rfl
@[simp] theorem State.coreDiscard_tw (s : State)  : (s.coreDiscard).tw = s.tw := rfl
@[simp] theorem State.coreDiscard_supv (s : State)  : (s.coreDiscard).supv = s.supv := rfl
@[simp] theorem State.coreDiscard_br (s : State)  : (s.coreDiscard).br = s.br := rfl
@[simp] theorem State.coreDiscard_host (s : State)  : (s.coreDiscard).host = s.host := rfl
@[simp] theorem State.coreDiscard_spi (s : State)  : (s.coreDiscard).spi = s.spi := rfl
@[simp] theorem State.coreDiscard_ft (s : State)  : (s.coreDiscard).ft = s.ft := rfl
@[simp] theorem State.coreDiscard_wear (s : State)  : (s.coreDiscard).wear = s.wear := rfl
@[simp] theorem State.coreDiscard_up (s : State)  : (s.coreDiscard).up = s.up := rfl
@[simp] theorem State.coreDiscard_fresh (s : State)  : (s.coreDiscard).fresh = s.fresh := rfl
@[simp] theorem State.coreDiscard_pending (s : State)  : (s.coreDiscard).pending = s.pending := rfl

@[simp] theorem State.setDom_regs (s : State) (x1 : Nat) (x2 : Dom) : (s.setDom x1 x2).regs = s.regs := rfl
@[simp] theorem State.setDom_shad (s : State) (x1 : Nat) (x2 : Dom) : (s.setDom x1 x2).shad = s.shad := rfl
@[simp] theorem State.setDom_stopping (s : State) (x1 : Nat) (x2 : Dom) : (s.setDom x1 x2).stopping = s.stopping := rfl
@[simp] theorem State.setDom_ans (s : State) (x1 : Nat) (x2 : Dom) : (s.setDom x1 x2).ans = s.ans := rfl
@[simp] theorem State.setDom_faultQ (s : State) (x1 : Nat) (x2 : Dom) : (s.setDom x1 x2).faultQ = s.faultQ := rfl
@[simp] theorem State.setDom_iso (s : State) (x1 : Nat) (x2 : Dom) : (s.setDom x1 x2).iso = s.iso := rfl
@[simp] theorem State.setDom_gs (s : State) (x1 : Nat) (x2 : Dom) : (s.setDom x1 x2).gs = s.gs := rfl
@[simp] theorem State.setDom_isl (s : State) (x1 : Nat) (x2 : Dom) : (s.setDom x1 x2).isl = s.isl := rfl
@[simp] theorem State.setDom_pll (s : State) (x1 : Nat) (x2 : Dom) : (s.setDom x1 x2).pll = s.pll := rfl
@[simp] theorem State.setDom_spll (s : State) (x1 : Nat) (x2 : Dom) : (s.setDom x1 x2).spll = s.spll := rfl
@[simp] theorem State.setDom_mram (s : State) (x1 : Nat) (x2 : Dom) : (s.setDom x1 x2).mram = s.mram := rfl
@[simp] theorem State.setDom_lc (s : State) (x1 : Nat) (x2 : Dom) : (s.setDom x1 x2).lc = s.lc := rfl
@[simp] theorem State.setDom_ingress (s : State) (x1 : Nat) (x2 : Dom) : (s.setDom x1 x2).ingress = s.ingress := rfl
@[simp] theorem State.setDom_core (s : State) (x1 : Nat) (x2 : Dom) : (s.setDom x1 x2).core = s.core := rfl
@[simp] theorem State.setDom_ring (s : State) (x1 : Nat) (x2 : Dom) : (s.setDom x1 x2).ring = s.ring := rfl
@[simp] theorem State.setDom_mem (s : State) (x1 : Nat) (x2 : Dom) : (s.setDom x1 x2).mem = s.mem := rfl
@[simp] theorem State.setDom_scan (s : State) (x1 : Nat) (x2 : Dom) : (s.setDom x1 x2).scan = s.scan := rfl
@[simp] theorem State.setDom_cards (s : State) (x1 : Nat) (x2 : Dom) : (s.setDom x1 x2).cards = s.cards := rfl
@[simp] theorem State.setDom_chans (s : State) (x1 : Nat) (x2 : Dom) : (s.setDom x1 x2).chans = s.chans := rfl
@[simp] theorem State.setDom_ucode (s : State) (x1 : Nat) (x2 : Dom) : (s.setDom x1 x2).ucode = s.ucode := rfl
@[simp] theorem State.setDom_lookWait (s : State) (x1 : Nat) (x2 : Dom) : (s.setDom x1 x2).lookWait = s.lookWait := rfl
@[simp] theorem State.setDom_looking (s : State) (x1 : Nat) (x2 : Dom) : (s.setDom x1 x2).looking = s.looking := rfl
@[simp] theorem State.setDom_tw (s : State) (x1 : Nat) (x2 : Dom) : (s.setDom x1 x2).tw = s.tw := rfl
@[simp] theorem State.setDom_supv (s : State) (x1 : Nat) (x2 : Dom) : (s.setDom x1 x2).supv = s.supv := rfl
@[simp] theorem State.setDom_br (s : State) (x1 : Nat) (x2 : Dom) : (s.setDom x1 x2).br = s.br := rfl
@[simp] theorem State.setDom_host (s : State) (x1 : Nat) (x2 : Dom) : (s.setDom x1 x2).host = s.host := rfl
@[simp] theorem State.setDom_spi (s : State) (x1 : Nat) (x2 : Dom) : (s.setDom x1 x2).spi = s.spi := rfl
@[simp] theorem State.setDom_ft (s : State) (x1 : Nat) (x2 : Dom) : (s.setDom x1 x2).ft = s.ft := rfl
@[simp] theorem State.setDom_wear (s : State) (x1 : Nat) (x2 : Dom) : (s.setDom x1 x2).wear = s.wear := rfl
@[simp] theorem State.setDom_up (s : State) (x1 : Nat) (x2 : Dom) : (s.setDom x1 x2).up = s.up := rfl
@[simp] theorem State.setDom_fresh (s : State) (x1 : Nat) (x2 : Dom) : (s.setDom x1 x2).fresh = s.fresh := rfl
@[simp] theorem State.setDom_pending (s : State) (x1 : Nat) (x2 : Dom) : (s.setDom x1 x2).pending = s.pending := rfl

@[simp] theorem State.resRebase_regs (s : State)  : (s.resRebase).regs = s.regs := rfl
@[simp] theorem State.resRebase_shad (s : State)  : (s.resRebase).shad = s.shad := rfl
@[simp] theorem State.resRebase_stopping (s : State)  : (s.resRebase).stopping = s.stopping := rfl
@[simp] theorem State.resRebase_ans (s : State)  : (s.resRebase).ans = s.ans := rfl
@[simp] theorem State.resRebase_faultQ (s : State)  : (s.resRebase).faultQ = s.faultQ := rfl
@[simp] theorem State.resRebase_iso (s : State)  : (s.resRebase).iso = s.iso := rfl
@[simp] theorem State.resRebase_gs (s : State)  : (s.resRebase).gs = s.gs := rfl
@[simp] theorem State.resRebase_isl (s : State)  : (s.resRebase).isl = s.isl := rfl
@[simp] theorem State.resRebase_pll (s : State)  : (s.resRebase).pll = s.pll := rfl
@[simp] theorem State.resRebase_spll (s : State)  : (s.resRebase).spll = s.spll := rfl
@[simp] theorem State.resRebase_mram (s : State)  : (s.resRebase).mram = s.mram := rfl
@[simp] theorem State.resRebase_lc (s : State)  : (s.resRebase).lc = s.lc := rfl
@[simp] theorem State.resRebase_ingress (s : State)  : (s.resRebase).ingress = s.ingress := rfl
@[simp] theorem State.resRebase_core (s : State)  : (s.resRebase).core = s.core := rfl
@[simp] theorem State.resRebase_ring (s : State)  : (s.resRebase).ring = s.ring := rfl
@[simp] theorem State.resRebase_mem (s : State)  : (s.resRebase).mem = s.mem := rfl
@[simp] theorem State.resRebase_scan (s : State)  : (s.resRebase).scan = s.scan := rfl
@[simp] theorem State.resRebase_cards (s : State)  : (s.resRebase).cards = s.cards := rfl
@[simp] theorem State.resRebase_chans (s : State)  : (s.resRebase).chans = s.chans := rfl
@[simp] theorem State.resRebase_ucode (s : State)  : (s.resRebase).ucode = s.ucode := rfl
@[simp] theorem State.resRebase_lookWait (s : State)  : (s.resRebase).lookWait = s.lookWait := rfl
@[simp] theorem State.resRebase_looking (s : State)  : (s.resRebase).looking = s.looking := rfl
@[simp] theorem State.resRebase_tw (s : State)  : (s.resRebase).tw = s.tw := rfl
@[simp] theorem State.resRebase_supv (s : State)  : (s.resRebase).supv = s.supv := rfl
@[simp] theorem State.resRebase_br (s : State)  : (s.resRebase).br = s.br := rfl
@[simp] theorem State.resRebase_host (s : State)  : (s.resRebase).host = s.host := rfl
@[simp] theorem State.resRebase_spi (s : State)  : (s.resRebase).spi = s.spi := rfl
@[simp] theorem State.resRebase_ft (s : State)  : (s.resRebase).ft = s.ft := rfl
@[simp] theorem State.resRebase_wear (s : State)  : (s.resRebase).wear = s.wear := rfl
@[simp] theorem State.resRebase_up (s : State)  : (s.resRebase).up = s.up := rfl
@[simp] theorem State.resRebase_fresh (s : State)  : (s.resRebase).fresh = s.fresh := rfl
@[simp] theorem State.resRebase_pending (s : State)  : (s.resRebase).pending = s.pending := rfl

@[simp] theorem State.setChan_regs (s : State) (x1 : Nat) (x2 : Nat) (x3 : Chan) : (s.setChan x1 x2 x3).regs = s.regs := rfl
@[simp] theorem State.setChan_shad (s : State) (x1 : Nat) (x2 : Nat) (x3 : Chan) : (s.setChan x1 x2 x3).shad = s.shad := rfl
@[simp] theorem State.setChan_stopping (s : State) (x1 : Nat) (x2 : Nat) (x3 : Chan) : (s.setChan x1 x2 x3).stopping = s.stopping := rfl
@[simp] theorem State.setChan_ans (s : State) (x1 : Nat) (x2 : Nat) (x3 : Chan) : (s.setChan x1 x2 x3).ans = s.ans := rfl
@[simp] theorem State.setChan_faultQ (s : State) (x1 : Nat) (x2 : Nat) (x3 : Chan) : (s.setChan x1 x2 x3).faultQ = s.faultQ := rfl
@[simp] theorem State.setChan_iso (s : State) (x1 : Nat) (x2 : Nat) (x3 : Chan) : (s.setChan x1 x2 x3).iso = s.iso := rfl
@[simp] theorem State.setChan_gs (s : State) (x1 : Nat) (x2 : Nat) (x3 : Chan) : (s.setChan x1 x2 x3).gs = s.gs := rfl
@[simp] theorem State.setChan_isl (s : State) (x1 : Nat) (x2 : Nat) (x3 : Chan) : (s.setChan x1 x2 x3).isl = s.isl := rfl
@[simp] theorem State.setChan_pll (s : State) (x1 : Nat) (x2 : Nat) (x3 : Chan) : (s.setChan x1 x2 x3).pll = s.pll := rfl
@[simp] theorem State.setChan_spll (s : State) (x1 : Nat) (x2 : Nat) (x3 : Chan) : (s.setChan x1 x2 x3).spll = s.spll := rfl
@[simp] theorem State.setChan_mram (s : State) (x1 : Nat) (x2 : Nat) (x3 : Chan) : (s.setChan x1 x2 x3).mram = s.mram := rfl
@[simp] theorem State.setChan_lc (s : State) (x1 : Nat) (x2 : Nat) (x3 : Chan) : (s.setChan x1 x2 x3).lc = s.lc := rfl
@[simp] theorem State.setChan_ingress (s : State) (x1 : Nat) (x2 : Nat) (x3 : Chan) : (s.setChan x1 x2 x3).ingress = s.ingress := rfl
@[simp] theorem State.setChan_core (s : State) (x1 : Nat) (x2 : Nat) (x3 : Chan) : (s.setChan x1 x2 x3).core = s.core := rfl
@[simp] theorem State.setChan_ring (s : State) (x1 : Nat) (x2 : Nat) (x3 : Chan) : (s.setChan x1 x2 x3).ring = s.ring := rfl
@[simp] theorem State.setChan_mem (s : State) (x1 : Nat) (x2 : Nat) (x3 : Chan) : (s.setChan x1 x2 x3).mem = s.mem := rfl
@[simp] theorem State.setChan_tm (s : State) (x1 : Nat) (x2 : Nat) (x3 : Chan) : (s.setChan x1 x2 x3).tm = s.tm := rfl
@[simp] theorem State.setChan_scan (s : State) (x1 : Nat) (x2 : Nat) (x3 : Chan) : (s.setChan x1 x2 x3).scan = s.scan := rfl
@[simp] theorem State.setChan_cards (s : State) (x1 : Nat) (x2 : Nat) (x3 : Chan) : (s.setChan x1 x2 x3).cards = s.cards := rfl
@[simp] theorem State.setChan_ucode (s : State) (x1 : Nat) (x2 : Nat) (x3 : Chan) : (s.setChan x1 x2 x3).ucode = s.ucode := rfl
@[simp] theorem State.setChan_lookWait (s : State) (x1 : Nat) (x2 : Nat) (x3 : Chan) : (s.setChan x1 x2 x3).lookWait = s.lookWait := rfl
@[simp] theorem State.setChan_looking (s : State) (x1 : Nat) (x2 : Nat) (x3 : Chan) : (s.setChan x1 x2 x3).looking = s.looking := rfl
@[simp] theorem State.setChan_tw (s : State) (x1 : Nat) (x2 : Nat) (x3 : Chan) : (s.setChan x1 x2 x3).tw = s.tw := rfl
@[simp] theorem State.setChan_supv (s : State) (x1 : Nat) (x2 : Nat) (x3 : Chan) : (s.setChan x1 x2 x3).supv = s.supv := rfl
@[simp] theorem State.setChan_br (s : State) (x1 : Nat) (x2 : Nat) (x3 : Chan) : (s.setChan x1 x2 x3).br = s.br := rfl
@[simp] theorem State.setChan_host (s : State) (x1 : Nat) (x2 : Nat) (x3 : Chan) : (s.setChan x1 x2 x3).host = s.host := rfl
@[simp] theorem State.setChan_spi (s : State) (x1 : Nat) (x2 : Nat) (x3 : Chan) : (s.setChan x1 x2 x3).spi = s.spi := rfl
@[simp] theorem State.setChan_ft (s : State) (x1 : Nat) (x2 : Nat) (x3 : Chan) : (s.setChan x1 x2 x3).ft = s.ft := rfl
@[simp] theorem State.setChan_wear (s : State) (x1 : Nat) (x2 : Nat) (x3 : Chan) : (s.setChan x1 x2 x3).wear = s.wear := rfl
@[simp] theorem State.setChan_up (s : State) (x1 : Nat) (x2 : Nat) (x3 : Chan) : (s.setChan x1 x2 x3).up = s.up := rfl
@[simp] theorem State.setChan_fresh (s : State) (x1 : Nat) (x2 : Nat) (x3 : Chan) : (s.setChan x1 x2 x3).fresh = s.fresh := rfl
@[simp] theorem State.setChan_pending (s : State) (x1 : Nat) (x2 : Nat) (x3 : Chan) : (s.setChan x1 x2 x3).pending = s.pending := rfl

@[simp] theorem State.errClear_regs (s : State) (x1 : Nat) : (s.errClear x1).regs = s.regs := rfl
@[simp] theorem State.errClear_shad (s : State) (x1 : Nat) : (s.errClear x1).shad = s.shad := rfl
@[simp] theorem State.errClear_stopping (s : State) (x1 : Nat) : (s.errClear x1).stopping = s.stopping := rfl
@[simp] theorem State.errClear_ans (s : State) (x1 : Nat) : (s.errClear x1).ans = s.ans := rfl
@[simp] theorem State.errClear_faultQ (s : State) (x1 : Nat) : (s.errClear x1).faultQ = s.faultQ := rfl
@[simp] theorem State.errClear_iso (s : State) (x1 : Nat) : (s.errClear x1).iso = s.iso := rfl
@[simp] theorem State.errClear_gs (s : State) (x1 : Nat) : (s.errClear x1).gs = s.gs := rfl
@[simp] theorem State.errClear_isl (s : State) (x1 : Nat) : (s.errClear x1).isl = s.isl := rfl
@[simp] theorem State.errClear_pll (s : State) (x1 : Nat) : (s.errClear x1).pll = s.pll := rfl
@[simp] theorem State.errClear_spll (s : State) (x1 : Nat) : (s.errClear x1).spll = s.spll := rfl
@[simp] theorem State.errClear_mram (s : State) (x1 : Nat) : (s.errClear x1).mram = s.mram := rfl
@[simp] theorem State.errClear_lc (s : State) (x1 : Nat) : (s.errClear x1).lc = s.lc := rfl
@[simp] theorem State.errClear_ingress (s : State) (x1 : Nat) : (s.errClear x1).ingress = s.ingress := rfl
@[simp] theorem State.errClear_core (s : State) (x1 : Nat) : (s.errClear x1).core = s.core := rfl
@[simp] theorem State.errClear_ring (s : State) (x1 : Nat) : (s.errClear x1).ring = s.ring := rfl
@[simp] theorem State.errClear_mem (s : State) (x1 : Nat) : (s.errClear x1).mem = s.mem := rfl
@[simp] theorem State.errClear_tm (s : State) (x1 : Nat) : (s.errClear x1).tm = s.tm := rfl
@[simp] theorem State.errClear_cards (s : State) (x1 : Nat) : (s.errClear x1).cards = s.cards := rfl
@[simp] theorem State.errClear_chans (s : State) (x1 : Nat) : (s.errClear x1).chans = s.chans := rfl
@[simp] theorem State.errClear_ucode (s : State) (x1 : Nat) : (s.errClear x1).ucode = s.ucode := rfl
@[simp] theorem State.errClear_lookWait (s : State) (x1 : Nat) : (s.errClear x1).lookWait = s.lookWait := rfl
@[simp] theorem State.errClear_looking (s : State) (x1 : Nat) : (s.errClear x1).looking = s.looking := rfl
@[simp] theorem State.errClear_tw (s : State) (x1 : Nat) : (s.errClear x1).tw = s.tw := rfl
@[simp] theorem State.errClear_supv (s : State) (x1 : Nat) : (s.errClear x1).supv = s.supv := rfl
@[simp] theorem State.errClear_br (s : State) (x1 : Nat) : (s.errClear x1).br = s.br := rfl
@[simp] theorem State.errClear_host (s : State) (x1 : Nat) : (s.errClear x1).host = s.host := rfl
@[simp] theorem State.errClear_spi (s : State) (x1 : Nat) : (s.errClear x1).spi = s.spi := rfl
@[simp] theorem State.errClear_ft (s : State) (x1 : Nat) : (s.errClear x1).ft = s.ft := rfl
@[simp] theorem State.errClear_wear (s : State) (x1 : Nat) : (s.errClear x1).wear = s.wear := rfl
@[simp] theorem State.errClear_up (s : State) (x1 : Nat) : (s.errClear x1).up = s.up := rfl
@[simp] theorem State.errClear_fresh (s : State) (x1 : Nat) : (s.errClear x1).fresh = s.fresh := rfl
@[simp] theorem State.errClear_pending (s : State) (x1 : Nat) : (s.errClear x1).pending = s.pending := rfl

@[simp] theorem State.flip_regs (s : State)  : (s.flip).regs = s.regs := rfl
@[simp] theorem State.flip_shad (s : State)  : (s.flip).shad = s.shad := rfl
@[simp] theorem State.flip_stopping (s : State)  : (s.flip).stopping = s.stopping := rfl
@[simp] theorem State.flip_ans (s : State)  : (s.flip).ans = s.ans := rfl
@[simp] theorem State.flip_faultQ (s : State)  : (s.flip).faultQ = s.faultQ := rfl
@[simp] theorem State.flip_iso (s : State)  : (s.flip).iso = s.iso := rfl
@[simp] theorem State.flip_gs (s : State)  : (s.flip).gs = s.gs := rfl
@[simp] theorem State.flip_isl (s : State)  : (s.flip).isl = s.isl := rfl
@[simp] theorem State.flip_pll (s : State)  : (s.flip).pll = s.pll := rfl
@[simp] theorem State.flip_spll (s : State)  : (s.flip).spll = s.spll := rfl
@[simp] theorem State.flip_mram (s : State)  : (s.flip).mram = s.mram := rfl
@[simp] theorem State.flip_lc (s : State)  : (s.flip).lc = s.lc := rfl
@[simp] theorem State.flip_ingress (s : State)  : (s.flip).ingress = s.ingress := rfl
@[simp] theorem State.flip_core (s : State)  : (s.flip).core = s.core := rfl
@[simp] theorem State.flip_ring (s : State)  : (s.flip).ring = s.ring := rfl
@[simp] theorem State.flip_mem (s : State)  : (s.flip).mem = s.mem := rfl
@[simp] theorem State.flip_tm (s : State)  : (s.flip).tm = s.tm := rfl
@[simp] theorem State.flip_cards (s : State)  : (s.flip).cards = s.cards := rfl
@[simp] theorem State.flip_chans (s : State)  : (s.flip).chans = s.chans := rfl
@[simp] theorem State.flip_ucode (s : State)  : (s.flip).ucode = s.ucode := rfl
@[simp] theorem State.flip_lookWait (s : State)  : (s.flip).lookWait = s.lookWait := rfl
@[simp] theorem State.flip_looking (s : State)  : (s.flip).looking = s.looking := rfl
@[simp] theorem State.flip_tw (s : State)  : (s.flip).tw = s.tw := rfl
@[simp] theorem State.flip_supv (s : State)  : (s.flip).supv = s.supv := rfl
@[simp] theorem State.flip_br (s : State)  : (s.flip).br = s.br := rfl
@[simp] theorem State.flip_host (s : State)  : (s.flip).host = s.host := rfl
@[simp] theorem State.flip_spi (s : State)  : (s.flip).spi = s.spi := rfl
@[simp] theorem State.flip_ft (s : State)  : (s.flip).ft = s.ft := rfl
@[simp] theorem State.flip_wear (s : State)  : (s.flip).wear = s.wear := rfl
@[simp] theorem State.flip_up (s : State)  : (s.flip).up = s.up := rfl
@[simp] theorem State.flip_fresh (s : State)  : (s.flip).fresh = s.fresh := rfl
@[simp] theorem State.flip_pending (s : State)  : (s.flip).pending = s.pending := rfl

@[simp] theorem State.setCard_regs (s : State) (x1 : Nat) (x2 : Card) : (s.setCard x1 x2).regs = s.regs := rfl
@[simp] theorem State.setCard_shad (s : State) (x1 : Nat) (x2 : Card) : (s.setCard x1 x2).shad = s.shad := rfl
@[simp] theorem State.setCard_stopping (s : State) (x1 : Nat) (x2 : Card) : (s.setCard x1 x2).stopping = s.stopping := rfl
@[simp] theorem State.setCard_ans (s : State) (x1 : Nat) (x2 : Card) : (s.setCard x1 x2).ans = s.ans := rfl
@[simp] theorem State.setCard_faultQ (s : State) (x1 : Nat) (x2 : Card) : (s.setCard x1 x2).faultQ = s.faultQ := rfl
@[simp] theorem State.setCard_iso (s : State) (x1 : Nat) (x2 : Card) : (s.setCard x1 x2).iso = s.iso := rfl
@[simp] theorem State.setCard_gs (s : State) (x1 : Nat) (x2 : Card) : (s.setCard x1 x2).gs = s.gs := rfl
@[simp] theorem State.setCard_isl (s : State) (x1 : Nat) (x2 : Card) : (s.setCard x1 x2).isl = s.isl := rfl
@[simp] theorem State.setCard_pll (s : State) (x1 : Nat) (x2 : Card) : (s.setCard x1 x2).pll = s.pll := rfl
@[simp] theorem State.setCard_spll (s : State) (x1 : Nat) (x2 : Card) : (s.setCard x1 x2).spll = s.spll := rfl
@[simp] theorem State.setCard_mram (s : State) (x1 : Nat) (x2 : Card) : (s.setCard x1 x2).mram = s.mram := rfl
@[simp] theorem State.setCard_lc (s : State) (x1 : Nat) (x2 : Card) : (s.setCard x1 x2).lc = s.lc := rfl
@[simp] theorem State.setCard_ingress (s : State) (x1 : Nat) (x2 : Card) : (s.setCard x1 x2).ingress = s.ingress := rfl
@[simp] theorem State.setCard_core (s : State) (x1 : Nat) (x2 : Card) : (s.setCard x1 x2).core = s.core := rfl
@[simp] theorem State.setCard_ring (s : State) (x1 : Nat) (x2 : Card) : (s.setCard x1 x2).ring = s.ring := rfl
@[simp] theorem State.setCard_mem (s : State) (x1 : Nat) (x2 : Card) : (s.setCard x1 x2).mem = s.mem := rfl
@[simp] theorem State.setCard_tm (s : State) (x1 : Nat) (x2 : Card) : (s.setCard x1 x2).tm = s.tm := rfl
@[simp] theorem State.setCard_scan (s : State) (x1 : Nat) (x2 : Card) : (s.setCard x1 x2).scan = s.scan := rfl
@[simp] theorem State.setCard_chans (s : State) (x1 : Nat) (x2 : Card) : (s.setCard x1 x2).chans = s.chans := rfl
@[simp] theorem State.setCard_ucode (s : State) (x1 : Nat) (x2 : Card) : (s.setCard x1 x2).ucode = s.ucode := rfl
@[simp] theorem State.setCard_lookWait (s : State) (x1 : Nat) (x2 : Card) : (s.setCard x1 x2).lookWait = s.lookWait := rfl
@[simp] theorem State.setCard_looking (s : State) (x1 : Nat) (x2 : Card) : (s.setCard x1 x2).looking = s.looking := rfl
@[simp] theorem State.setCard_tw (s : State) (x1 : Nat) (x2 : Card) : (s.setCard x1 x2).tw = s.tw := rfl
@[simp] theorem State.setCard_supv (s : State) (x1 : Nat) (x2 : Card) : (s.setCard x1 x2).supv = s.supv := rfl
@[simp] theorem State.setCard_br (s : State) (x1 : Nat) (x2 : Card) : (s.setCard x1 x2).br = s.br := rfl
@[simp] theorem State.setCard_host (s : State) (x1 : Nat) (x2 : Card) : (s.setCard x1 x2).host = s.host := rfl
@[simp] theorem State.setCard_spi (s : State) (x1 : Nat) (x2 : Card) : (s.setCard x1 x2).spi = s.spi := rfl
@[simp] theorem State.setCard_ft (s : State) (x1 : Nat) (x2 : Card) : (s.setCard x1 x2).ft = s.ft := rfl
@[simp] theorem State.setCard_wear (s : State) (x1 : Nat) (x2 : Card) : (s.setCard x1 x2).wear = s.wear := rfl
@[simp] theorem State.setCard_up (s : State) (x1 : Nat) (x2 : Card) : (s.setCard x1 x2).up = s.up := rfl
@[simp] theorem State.setCard_fresh (s : State) (x1 : Nat) (x2 : Card) : (s.setCard x1 x2).fresh = s.fresh := rfl
@[simp] theorem State.setCard_pending (s : State) (x1 : Nat) (x2 : Card) : (s.setCard x1 x2).pending = s.pending := rfl

@[simp] theorem State.setSpBank_regs (s : State) (x1 : Nat) (x2 : SpBank) : (s.setSpBank x1 x2).regs = s.regs := rfl
@[simp] theorem State.setSpBank_shad (s : State) (x1 : Nat) (x2 : SpBank) : (s.setSpBank x1 x2).shad = s.shad := rfl
@[simp] theorem State.setSpBank_stopping (s : State) (x1 : Nat) (x2 : SpBank) : (s.setSpBank x1 x2).stopping = s.stopping := rfl
@[simp] theorem State.setSpBank_ans (s : State) (x1 : Nat) (x2 : SpBank) : (s.setSpBank x1 x2).ans = s.ans := rfl
@[simp] theorem State.setSpBank_faultQ (s : State) (x1 : Nat) (x2 : SpBank) : (s.setSpBank x1 x2).faultQ = s.faultQ := rfl
@[simp] theorem State.setSpBank_iso (s : State) (x1 : Nat) (x2 : SpBank) : (s.setSpBank x1 x2).iso = s.iso := rfl
@[simp] theorem State.setSpBank_gs (s : State) (x1 : Nat) (x2 : SpBank) : (s.setSpBank x1 x2).gs = s.gs := rfl
@[simp] theorem State.setSpBank_isl (s : State) (x1 : Nat) (x2 : SpBank) : (s.setSpBank x1 x2).isl = s.isl := rfl
@[simp] theorem State.setSpBank_pll (s : State) (x1 : Nat) (x2 : SpBank) : (s.setSpBank x1 x2).pll = s.pll := rfl
@[simp] theorem State.setSpBank_spll (s : State) (x1 : Nat) (x2 : SpBank) : (s.setSpBank x1 x2).spll = s.spll := rfl
@[simp] theorem State.setSpBank_mram (s : State) (x1 : Nat) (x2 : SpBank) : (s.setSpBank x1 x2).mram = s.mram := rfl
@[simp] theorem State.setSpBank_lc (s : State) (x1 : Nat) (x2 : SpBank) : (s.setSpBank x1 x2).lc = s.lc := rfl
@[simp] theorem State.setSpBank_ingress (s : State) (x1 : Nat) (x2 : SpBank) : (s.setSpBank x1 x2).ingress = s.ingress := rfl
@[simp] theorem State.setSpBank_core (s : State) (x1 : Nat) (x2 : SpBank) : (s.setSpBank x1 x2).core = s.core := rfl
@[simp] theorem State.setSpBank_ring (s : State) (x1 : Nat) (x2 : SpBank) : (s.setSpBank x1 x2).ring = s.ring := rfl
@[simp] theorem State.setSpBank_tm (s : State) (x1 : Nat) (x2 : SpBank) : (s.setSpBank x1 x2).tm = s.tm := rfl
@[simp] theorem State.setSpBank_scan (s : State) (x1 : Nat) (x2 : SpBank) : (s.setSpBank x1 x2).scan = s.scan := rfl
@[simp] theorem State.setSpBank_cards (s : State) (x1 : Nat) (x2 : SpBank) : (s.setSpBank x1 x2).cards = s.cards := rfl
@[simp] theorem State.setSpBank_chans (s : State) (x1 : Nat) (x2 : SpBank) : (s.setSpBank x1 x2).chans = s.chans := rfl
@[simp] theorem State.setSpBank_ucode (s : State) (x1 : Nat) (x2 : SpBank) : (s.setSpBank x1 x2).ucode = s.ucode := rfl
@[simp] theorem State.setSpBank_lookWait (s : State) (x1 : Nat) (x2 : SpBank) : (s.setSpBank x1 x2).lookWait = s.lookWait := rfl
@[simp] theorem State.setSpBank_looking (s : State) (x1 : Nat) (x2 : SpBank) : (s.setSpBank x1 x2).looking = s.looking := rfl
@[simp] theorem State.setSpBank_tw (s : State) (x1 : Nat) (x2 : SpBank) : (s.setSpBank x1 x2).tw = s.tw := rfl
@[simp] theorem State.setSpBank_supv (s : State) (x1 : Nat) (x2 : SpBank) : (s.setSpBank x1 x2).supv = s.supv := rfl
@[simp] theorem State.setSpBank_br (s : State) (x1 : Nat) (x2 : SpBank) : (s.setSpBank x1 x2).br = s.br := rfl
@[simp] theorem State.setSpBank_host (s : State) (x1 : Nat) (x2 : SpBank) : (s.setSpBank x1 x2).host = s.host := rfl
@[simp] theorem State.setSpBank_spi (s : State) (x1 : Nat) (x2 : SpBank) : (s.setSpBank x1 x2).spi = s.spi := rfl
@[simp] theorem State.setSpBank_ft (s : State) (x1 : Nat) (x2 : SpBank) : (s.setSpBank x1 x2).ft = s.ft := rfl
@[simp] theorem State.setSpBank_wear (s : State) (x1 : Nat) (x2 : SpBank) : (s.setSpBank x1 x2).wear = s.wear := rfl
@[simp] theorem State.setSpBank_up (s : State) (x1 : Nat) (x2 : SpBank) : (s.setSpBank x1 x2).up = s.up := rfl
@[simp] theorem State.setSpBank_fresh (s : State) (x1 : Nat) (x2 : SpBank) : (s.setSpBank x1 x2).fresh = s.fresh := rfl
@[simp] theorem State.setSpBank_pending (s : State) (x1 : Nat) (x2 : SpBank) : (s.setSpBank x1 x2).pending = s.pending := rfl

@[simp] theorem State.spZero_regs (s : State) (x1 : Nat) : (s.spZero x1).regs = s.regs := rfl
@[simp] theorem State.spZero_shad (s : State) (x1 : Nat) : (s.spZero x1).shad = s.shad := rfl
@[simp] theorem State.spZero_stopping (s : State) (x1 : Nat) : (s.spZero x1).stopping = s.stopping := rfl
@[simp] theorem State.spZero_ans (s : State) (x1 : Nat) : (s.spZero x1).ans = s.ans := rfl
@[simp] theorem State.spZero_faultQ (s : State) (x1 : Nat) : (s.spZero x1).faultQ = s.faultQ := rfl
@[simp] theorem State.spZero_iso (s : State) (x1 : Nat) : (s.spZero x1).iso = s.iso := rfl
@[simp] theorem State.spZero_gs (s : State) (x1 : Nat) : (s.spZero x1).gs = s.gs := rfl
@[simp] theorem State.spZero_isl (s : State) (x1 : Nat) : (s.spZero x1).isl = s.isl := rfl
@[simp] theorem State.spZero_pll (s : State) (x1 : Nat) : (s.spZero x1).pll = s.pll := rfl
@[simp] theorem State.spZero_spll (s : State) (x1 : Nat) : (s.spZero x1).spll = s.spll := rfl
@[simp] theorem State.spZero_mram (s : State) (x1 : Nat) : (s.spZero x1).mram = s.mram := rfl
@[simp] theorem State.spZero_lc (s : State) (x1 : Nat) : (s.spZero x1).lc = s.lc := rfl
@[simp] theorem State.spZero_ingress (s : State) (x1 : Nat) : (s.spZero x1).ingress = s.ingress := rfl
@[simp] theorem State.spZero_core (s : State) (x1 : Nat) : (s.spZero x1).core = s.core := rfl
@[simp] theorem State.spZero_ring (s : State) (x1 : Nat) : (s.spZero x1).ring = s.ring := rfl
@[simp] theorem State.spZero_tm (s : State) (x1 : Nat) : (s.spZero x1).tm = s.tm := rfl
@[simp] theorem State.spZero_scan (s : State) (x1 : Nat) : (s.spZero x1).scan = s.scan := rfl
@[simp] theorem State.spZero_cards (s : State) (x1 : Nat) : (s.spZero x1).cards = s.cards := rfl
@[simp] theorem State.spZero_chans (s : State) (x1 : Nat) : (s.spZero x1).chans = s.chans := rfl
@[simp] theorem State.spZero_ucode (s : State) (x1 : Nat) : (s.spZero x1).ucode = s.ucode := rfl
@[simp] theorem State.spZero_lookWait (s : State) (x1 : Nat) : (s.spZero x1).lookWait = s.lookWait := rfl
@[simp] theorem State.spZero_looking (s : State) (x1 : Nat) : (s.spZero x1).looking = s.looking := rfl
@[simp] theorem State.spZero_tw (s : State) (x1 : Nat) : (s.spZero x1).tw = s.tw := rfl
@[simp] theorem State.spZero_supv (s : State) (x1 : Nat) : (s.spZero x1).supv = s.supv := rfl
@[simp] theorem State.spZero_br (s : State) (x1 : Nat) : (s.spZero x1).br = s.br := rfl
@[simp] theorem State.spZero_host (s : State) (x1 : Nat) : (s.spZero x1).host = s.host := rfl
@[simp] theorem State.spZero_spi (s : State) (x1 : Nat) : (s.spZero x1).spi = s.spi := rfl
@[simp] theorem State.spZero_ft (s : State) (x1 : Nat) : (s.spZero x1).ft = s.ft := rfl
@[simp] theorem State.spZero_wear (s : State) (x1 : Nat) : (s.spZero x1).wear = s.wear := rfl
@[simp] theorem State.spZero_up (s : State) (x1 : Nat) : (s.spZero x1).up = s.up := rfl
@[simp] theorem State.spZero_fresh (s : State) (x1 : Nat) : (s.spZero x1).fresh = s.fresh := rfl
@[simp] theorem State.spZero_pending (s : State) (x1 : Nat) : (s.spZero x1).pending = s.pending := rfl

@[simp] theorem State.setPwr_regs (s : State) (x1 : Nat) (x2 : Pwr) : (s.setPwr x1 x2).regs = s.regs := rfl
@[simp] theorem State.setPwr_shad (s : State) (x1 : Nat) (x2 : Pwr) : (s.setPwr x1 x2).shad = s.shad := rfl
@[simp] theorem State.setPwr_stopping (s : State) (x1 : Nat) (x2 : Pwr) : (s.setPwr x1 x2).stopping = s.stopping := rfl
@[simp] theorem State.setPwr_ans (s : State) (x1 : Nat) (x2 : Pwr) : (s.setPwr x1 x2).ans = s.ans := rfl
@[simp] theorem State.setPwr_faultQ (s : State) (x1 : Nat) (x2 : Pwr) : (s.setPwr x1 x2).faultQ = s.faultQ := rfl
@[simp] theorem State.setPwr_iso (s : State) (x1 : Nat) (x2 : Pwr) : (s.setPwr x1 x2).iso = s.iso := rfl
@[simp] theorem State.setPwr_gs (s : State) (x1 : Nat) (x2 : Pwr) : (s.setPwr x1 x2).gs = s.gs := rfl
@[simp] theorem State.setPwr_isl (s : State) (x1 : Nat) (x2 : Pwr) : (s.setPwr x1 x2).isl = s.isl := rfl
@[simp] theorem State.setPwr_pll (s : State) (x1 : Nat) (x2 : Pwr) : (s.setPwr x1 x2).pll = s.pll := rfl
@[simp] theorem State.setPwr_spll (s : State) (x1 : Nat) (x2 : Pwr) : (s.setPwr x1 x2).spll = s.spll := rfl
@[simp] theorem State.setPwr_mram (s : State) (x1 : Nat) (x2 : Pwr) : (s.setPwr x1 x2).mram = s.mram := rfl
@[simp] theorem State.setPwr_lc (s : State) (x1 : Nat) (x2 : Pwr) : (s.setPwr x1 x2).lc = s.lc := rfl
@[simp] theorem State.setPwr_ingress (s : State) (x1 : Nat) (x2 : Pwr) : (s.setPwr x1 x2).ingress = s.ingress := rfl
@[simp] theorem State.setPwr_core (s : State) (x1 : Nat) (x2 : Pwr) : (s.setPwr x1 x2).core = s.core := rfl
@[simp] theorem State.setPwr_ring (s : State) (x1 : Nat) (x2 : Pwr) : (s.setPwr x1 x2).ring = s.ring := rfl
@[simp] theorem State.setPwr_mem (s : State) (x1 : Nat) (x2 : Pwr) : (s.setPwr x1 x2).mem = s.mem := rfl
@[simp] theorem State.setPwr_tm (s : State) (x1 : Nat) (x2 : Pwr) : (s.setPwr x1 x2).tm = s.tm := rfl
@[simp] theorem State.setPwr_scan (s : State) (x1 : Nat) (x2 : Pwr) : (s.setPwr x1 x2).scan = s.scan := rfl
@[simp] theorem State.setPwr_cards (s : State) (x1 : Nat) (x2 : Pwr) : (s.setPwr x1 x2).cards = s.cards := rfl
@[simp] theorem State.setPwr_chans (s : State) (x1 : Nat) (x2 : Pwr) : (s.setPwr x1 x2).chans = s.chans := rfl
@[simp] theorem State.setPwr_ucode (s : State) (x1 : Nat) (x2 : Pwr) : (s.setPwr x1 x2).ucode = s.ucode := rfl
@[simp] theorem State.setPwr_lookWait (s : State) (x1 : Nat) (x2 : Pwr) : (s.setPwr x1 x2).lookWait = s.lookWait := rfl
@[simp] theorem State.setPwr_looking (s : State) (x1 : Nat) (x2 : Pwr) : (s.setPwr x1 x2).looking = s.looking := rfl
@[simp] theorem State.setPwr_tw (s : State) (x1 : Nat) (x2 : Pwr) : (s.setPwr x1 x2).tw = s.tw := rfl
@[simp] theorem State.setPwr_br (s : State) (x1 : Nat) (x2 : Pwr) : (s.setPwr x1 x2).br = s.br := rfl
@[simp] theorem State.setPwr_host (s : State) (x1 : Nat) (x2 : Pwr) : (s.setPwr x1 x2).host = s.host := rfl
@[simp] theorem State.setPwr_spi (s : State) (x1 : Nat) (x2 : Pwr) : (s.setPwr x1 x2).spi = s.spi := rfl
@[simp] theorem State.setPwr_ft (s : State) (x1 : Nat) (x2 : Pwr) : (s.setPwr x1 x2).ft = s.ft := rfl
@[simp] theorem State.setPwr_wear (s : State) (x1 : Nat) (x2 : Pwr) : (s.setPwr x1 x2).wear = s.wear := rfl
@[simp] theorem State.setPwr_up (s : State) (x1 : Nat) (x2 : Pwr) : (s.setPwr x1 x2).up = s.up := rfl
@[simp] theorem State.setPwr_fresh (s : State) (x1 : Nat) (x2 : Pwr) : (s.setPwr x1 x2).fresh = s.fresh := rfl
@[simp] theorem State.setPwr_pending (s : State) (x1 : Nat) (x2 : Pwr) : (s.setPwr x1 x2).pending = s.pending := rfl

@[simp] theorem State.setFeeds_regs (s : State) (x1 : Feeds) : (s.setFeeds x1).regs = s.regs := rfl
@[simp] theorem State.setFeeds_shad (s : State) (x1 : Feeds) : (s.setFeeds x1).shad = s.shad := rfl
@[simp] theorem State.setFeeds_stopping (s : State) (x1 : Feeds) : (s.setFeeds x1).stopping = s.stopping := rfl
@[simp] theorem State.setFeeds_ans (s : State) (x1 : Feeds) : (s.setFeeds x1).ans = s.ans := rfl
@[simp] theorem State.setFeeds_faultQ (s : State) (x1 : Feeds) : (s.setFeeds x1).faultQ = s.faultQ := rfl
@[simp] theorem State.setFeeds_iso (s : State) (x1 : Feeds) : (s.setFeeds x1).iso = s.iso := rfl
@[simp] theorem State.setFeeds_gs (s : State) (x1 : Feeds) : (s.setFeeds x1).gs = s.gs := rfl
@[simp] theorem State.setFeeds_isl (s : State) (x1 : Feeds) : (s.setFeeds x1).isl = s.isl := rfl
@[simp] theorem State.setFeeds_pll (s : State) (x1 : Feeds) : (s.setFeeds x1).pll = s.pll := rfl
@[simp] theorem State.setFeeds_spll (s : State) (x1 : Feeds) : (s.setFeeds x1).spll = s.spll := rfl
@[simp] theorem State.setFeeds_mram (s : State) (x1 : Feeds) : (s.setFeeds x1).mram = s.mram := rfl
@[simp] theorem State.setFeeds_lc (s : State) (x1 : Feeds) : (s.setFeeds x1).lc = s.lc := rfl
@[simp] theorem State.setFeeds_ingress (s : State) (x1 : Feeds) : (s.setFeeds x1).ingress = s.ingress := rfl
@[simp] theorem State.setFeeds_core (s : State) (x1 : Feeds) : (s.setFeeds x1).core = s.core := rfl
@[simp] theorem State.setFeeds_ring (s : State) (x1 : Feeds) : (s.setFeeds x1).ring = s.ring := rfl
@[simp] theorem State.setFeeds_mem (s : State) (x1 : Feeds) : (s.setFeeds x1).mem = s.mem := rfl
@[simp] theorem State.setFeeds_tm (s : State) (x1 : Feeds) : (s.setFeeds x1).tm = s.tm := rfl
@[simp] theorem State.setFeeds_scan (s : State) (x1 : Feeds) : (s.setFeeds x1).scan = s.scan := rfl
@[simp] theorem State.setFeeds_cards (s : State) (x1 : Feeds) : (s.setFeeds x1).cards = s.cards := rfl
@[simp] theorem State.setFeeds_chans (s : State) (x1 : Feeds) : (s.setFeeds x1).chans = s.chans := rfl
@[simp] theorem State.setFeeds_ucode (s : State) (x1 : Feeds) : (s.setFeeds x1).ucode = s.ucode := rfl
@[simp] theorem State.setFeeds_lookWait (s : State) (x1 : Feeds) : (s.setFeeds x1).lookWait = s.lookWait := rfl
@[simp] theorem State.setFeeds_looking (s : State) (x1 : Feeds) : (s.setFeeds x1).looking = s.looking := rfl
@[simp] theorem State.setFeeds_tw (s : State) (x1 : Feeds) : (s.setFeeds x1).tw = s.tw := rfl
@[simp] theorem State.setFeeds_br (s : State) (x1 : Feeds) : (s.setFeeds x1).br = s.br := rfl
@[simp] theorem State.setFeeds_host (s : State) (x1 : Feeds) : (s.setFeeds x1).host = s.host := rfl
@[simp] theorem State.setFeeds_spi (s : State) (x1 : Feeds) : (s.setFeeds x1).spi = s.spi := rfl
@[simp] theorem State.setFeeds_ft (s : State) (x1 : Feeds) : (s.setFeeds x1).ft = s.ft := rfl
@[simp] theorem State.setFeeds_wear (s : State) (x1 : Feeds) : (s.setFeeds x1).wear = s.wear := rfl
@[simp] theorem State.setFeeds_up (s : State) (x1 : Feeds) : (s.setFeeds x1).up = s.up := rfl
@[simp] theorem State.setFeeds_fresh (s : State) (x1 : Feeds) : (s.setFeeds x1).fresh = s.fresh := rfl
@[simp] theorem State.setFeeds_pending (s : State) (x1 : Feeds) : (s.setFeeds x1).pending = s.pending := rfl

@[simp] theorem State.setFlow_regs (s : State) (x1 : Nat) (x2 : Flow) : (s.setFlow x1 x2).regs = s.regs := rfl
@[simp] theorem State.setFlow_shad (s : State) (x1 : Nat) (x2 : Flow) : (s.setFlow x1 x2).shad = s.shad := rfl
@[simp] theorem State.setFlow_stopping (s : State) (x1 : Nat) (x2 : Flow) : (s.setFlow x1 x2).stopping = s.stopping := rfl
@[simp] theorem State.setFlow_ans (s : State) (x1 : Nat) (x2 : Flow) : (s.setFlow x1 x2).ans = s.ans := rfl
@[simp] theorem State.setFlow_faultQ (s : State) (x1 : Nat) (x2 : Flow) : (s.setFlow x1 x2).faultQ = s.faultQ := rfl
@[simp] theorem State.setFlow_iso (s : State) (x1 : Nat) (x2 : Flow) : (s.setFlow x1 x2).iso = s.iso := rfl
@[simp] theorem State.setFlow_gs (s : State) (x1 : Nat) (x2 : Flow) : (s.setFlow x1 x2).gs = s.gs := rfl
@[simp] theorem State.setFlow_isl (s : State) (x1 : Nat) (x2 : Flow) : (s.setFlow x1 x2).isl = s.isl := rfl
@[simp] theorem State.setFlow_pll (s : State) (x1 : Nat) (x2 : Flow) : (s.setFlow x1 x2).pll = s.pll := rfl
@[simp] theorem State.setFlow_spll (s : State) (x1 : Nat) (x2 : Flow) : (s.setFlow x1 x2).spll = s.spll := rfl
@[simp] theorem State.setFlow_mram (s : State) (x1 : Nat) (x2 : Flow) : (s.setFlow x1 x2).mram = s.mram := rfl
@[simp] theorem State.setFlow_lc (s : State) (x1 : Nat) (x2 : Flow) : (s.setFlow x1 x2).lc = s.lc := rfl
@[simp] theorem State.setFlow_ingress (s : State) (x1 : Nat) (x2 : Flow) : (s.setFlow x1 x2).ingress = s.ingress := rfl
@[simp] theorem State.setFlow_core (s : State) (x1 : Nat) (x2 : Flow) : (s.setFlow x1 x2).core = s.core := rfl
@[simp] theorem State.setFlow_mem (s : State) (x1 : Nat) (x2 : Flow) : (s.setFlow x1 x2).mem = s.mem := rfl
@[simp] theorem State.setFlow_tm (s : State) (x1 : Nat) (x2 : Flow) : (s.setFlow x1 x2).tm = s.tm := rfl
@[simp] theorem State.setFlow_scan (s : State) (x1 : Nat) (x2 : Flow) : (s.setFlow x1 x2).scan = s.scan := rfl
@[simp] theorem State.setFlow_cards (s : State) (x1 : Nat) (x2 : Flow) : (s.setFlow x1 x2).cards = s.cards := rfl
@[simp] theorem State.setFlow_chans (s : State) (x1 : Nat) (x2 : Flow) : (s.setFlow x1 x2).chans = s.chans := rfl
@[simp] theorem State.setFlow_ucode (s : State) (x1 : Nat) (x2 : Flow) : (s.setFlow x1 x2).ucode = s.ucode := rfl
@[simp] theorem State.setFlow_lookWait (s : State) (x1 : Nat) (x2 : Flow) : (s.setFlow x1 x2).lookWait = s.lookWait := rfl
@[simp] theorem State.setFlow_looking (s : State) (x1 : Nat) (x2 : Flow) : (s.setFlow x1 x2).looking = s.looking := rfl
@[simp] theorem State.setFlow_tw (s : State) (x1 : Nat) (x2 : Flow) : (s.setFlow x1 x2).tw = s.tw := rfl
@[simp] theorem State.setFlow_supv (s : State) (x1 : Nat) (x2 : Flow) : (s.setFlow x1 x2).supv = s.supv := rfl
@[simp] theorem State.setFlow_br (s : State) (x1 : Nat) (x2 : Flow) : (s.setFlow x1 x2).br = s.br := rfl
@[simp] theorem State.setFlow_host (s : State) (x1 : Nat) (x2 : Flow) : (s.setFlow x1 x2).host = s.host := rfl
@[simp] theorem State.setFlow_spi (s : State) (x1 : Nat) (x2 : Flow) : (s.setFlow x1 x2).spi = s.spi := rfl
@[simp] theorem State.setFlow_ft (s : State) (x1 : Nat) (x2 : Flow) : (s.setFlow x1 x2).ft = s.ft := rfl
@[simp] theorem State.setFlow_wear (s : State) (x1 : Nat) (x2 : Flow) : (s.setFlow x1 x2).wear = s.wear := rfl
@[simp] theorem State.setFlow_up (s : State) (x1 : Nat) (x2 : Flow) : (s.setFlow x1 x2).up = s.up := rfl
@[simp] theorem State.setFlow_fresh (s : State) (x1 : Nat) (x2 : Flow) : (s.setFlow x1 x2).fresh = s.fresh := rfl
@[simp] theorem State.setFlow_pending (s : State) (x1 : Nat) (x2 : Flow) : (s.setFlow x1 x2).pending = s.pending := rfl

@[simp] theorem State.setIsl_regs (s : State) (x1 : Nat) (x2 : Isl) : (s.setIsl x1 x2).regs = s.regs := rfl
@[simp] theorem State.setIsl_shad (s : State) (x1 : Nat) (x2 : Isl) : (s.setIsl x1 x2).shad = s.shad := rfl
@[simp] theorem State.setIsl_stopping (s : State) (x1 : Nat) (x2 : Isl) : (s.setIsl x1 x2).stopping = s.stopping := rfl
@[simp] theorem State.setIsl_ans (s : State) (x1 : Nat) (x2 : Isl) : (s.setIsl x1 x2).ans = s.ans := rfl
@[simp] theorem State.setIsl_faultQ (s : State) (x1 : Nat) (x2 : Isl) : (s.setIsl x1 x2).faultQ = s.faultQ := rfl
@[simp] theorem State.setIsl_iso (s : State) (x1 : Nat) (x2 : Isl) : (s.setIsl x1 x2).iso = s.iso := rfl
@[simp] theorem State.setIsl_gs (s : State) (x1 : Nat) (x2 : Isl) : (s.setIsl x1 x2).gs = s.gs := rfl
@[simp] theorem State.setIsl_pll (s : State) (x1 : Nat) (x2 : Isl) : (s.setIsl x1 x2).pll = s.pll := rfl
@[simp] theorem State.setIsl_spll (s : State) (x1 : Nat) (x2 : Isl) : (s.setIsl x1 x2).spll = s.spll := rfl
@[simp] theorem State.setIsl_mram (s : State) (x1 : Nat) (x2 : Isl) : (s.setIsl x1 x2).mram = s.mram := rfl
@[simp] theorem State.setIsl_lc (s : State) (x1 : Nat) (x2 : Isl) : (s.setIsl x1 x2).lc = s.lc := rfl
@[simp] theorem State.setIsl_ingress (s : State) (x1 : Nat) (x2 : Isl) : (s.setIsl x1 x2).ingress = s.ingress := rfl
@[simp] theorem State.setIsl_core (s : State) (x1 : Nat) (x2 : Isl) : (s.setIsl x1 x2).core = s.core := rfl
@[simp] theorem State.setIsl_ring (s : State) (x1 : Nat) (x2 : Isl) : (s.setIsl x1 x2).ring = s.ring := rfl
@[simp] theorem State.setIsl_mem (s : State) (x1 : Nat) (x2 : Isl) : (s.setIsl x1 x2).mem = s.mem := rfl
@[simp] theorem State.setIsl_tm (s : State) (x1 : Nat) (x2 : Isl) : (s.setIsl x1 x2).tm = s.tm := rfl
@[simp] theorem State.setIsl_scan (s : State) (x1 : Nat) (x2 : Isl) : (s.setIsl x1 x2).scan = s.scan := rfl
@[simp] theorem State.setIsl_cards (s : State) (x1 : Nat) (x2 : Isl) : (s.setIsl x1 x2).cards = s.cards := rfl
@[simp] theorem State.setIsl_chans (s : State) (x1 : Nat) (x2 : Isl) : (s.setIsl x1 x2).chans = s.chans := rfl
@[simp] theorem State.setIsl_ucode (s : State) (x1 : Nat) (x2 : Isl) : (s.setIsl x1 x2).ucode = s.ucode := rfl
@[simp] theorem State.setIsl_lookWait (s : State) (x1 : Nat) (x2 : Isl) : (s.setIsl x1 x2).lookWait = s.lookWait := rfl
@[simp] theorem State.setIsl_looking (s : State) (x1 : Nat) (x2 : Isl) : (s.setIsl x1 x2).looking = s.looking := rfl
@[simp] theorem State.setIsl_tw (s : State) (x1 : Nat) (x2 : Isl) : (s.setIsl x1 x2).tw = s.tw := rfl
@[simp] theorem State.setIsl_supv (s : State) (x1 : Nat) (x2 : Isl) : (s.setIsl x1 x2).supv = s.supv := rfl
@[simp] theorem State.setIsl_br (s : State) (x1 : Nat) (x2 : Isl) : (s.setIsl x1 x2).br = s.br := rfl
@[simp] theorem State.setIsl_host (s : State) (x1 : Nat) (x2 : Isl) : (s.setIsl x1 x2).host = s.host := rfl
@[simp] theorem State.setIsl_spi (s : State) (x1 : Nat) (x2 : Isl) : (s.setIsl x1 x2).spi = s.spi := rfl
@[simp] theorem State.setIsl_ft (s : State) (x1 : Nat) (x2 : Isl) : (s.setIsl x1 x2).ft = s.ft := rfl
@[simp] theorem State.setIsl_wear (s : State) (x1 : Nat) (x2 : Isl) : (s.setIsl x1 x2).wear = s.wear := rfl
@[simp] theorem State.setIsl_up (s : State) (x1 : Nat) (x2 : Isl) : (s.setIsl x1 x2).up = s.up := rfl
@[simp] theorem State.setIsl_fresh (s : State) (x1 : Nat) (x2 : Isl) : (s.setIsl x1 x2).fresh = s.fresh := rfl
@[simp] theorem State.setIsl_pending (s : State) (x1 : Nat) (x2 : Isl) : (s.setIsl x1 x2).pending = s.pending := rfl

@[simp] theorem State.regsReset_stopping (s : State) (x1 : Nat) (x2 : Nat → Bool) : (s.regsReset x1 x2).stopping = s.stopping := rfl
@[simp] theorem State.regsReset_ans (s : State) (x1 : Nat) (x2 : Nat → Bool) : (s.regsReset x1 x2).ans = s.ans := rfl
@[simp] theorem State.regsReset_faultQ (s : State) (x1 : Nat) (x2 : Nat → Bool) : (s.regsReset x1 x2).faultQ = s.faultQ := rfl
@[simp] theorem State.regsReset_iso (s : State) (x1 : Nat) (x2 : Nat → Bool) : (s.regsReset x1 x2).iso = s.iso := rfl
@[simp] theorem State.regsReset_gs (s : State) (x1 : Nat) (x2 : Nat → Bool) : (s.regsReset x1 x2).gs = s.gs := rfl
@[simp] theorem State.regsReset_isl (s : State) (x1 : Nat) (x2 : Nat → Bool) : (s.regsReset x1 x2).isl = s.isl := rfl
@[simp] theorem State.regsReset_pll (s : State) (x1 : Nat) (x2 : Nat → Bool) : (s.regsReset x1 x2).pll = s.pll := rfl
@[simp] theorem State.regsReset_spll (s : State) (x1 : Nat) (x2 : Nat → Bool) : (s.regsReset x1 x2).spll = s.spll := rfl
@[simp] theorem State.regsReset_mram (s : State) (x1 : Nat) (x2 : Nat → Bool) : (s.regsReset x1 x2).mram = s.mram := rfl
@[simp] theorem State.regsReset_lc (s : State) (x1 : Nat) (x2 : Nat → Bool) : (s.regsReset x1 x2).lc = s.lc := rfl
@[simp] theorem State.regsReset_ingress (s : State) (x1 : Nat) (x2 : Nat → Bool) : (s.regsReset x1 x2).ingress = s.ingress := rfl
@[simp] theorem State.regsReset_core (s : State) (x1 : Nat) (x2 : Nat → Bool) : (s.regsReset x1 x2).core = s.core := rfl
@[simp] theorem State.regsReset_ring (s : State) (x1 : Nat) (x2 : Nat → Bool) : (s.regsReset x1 x2).ring = s.ring := rfl
@[simp] theorem State.regsReset_mem (s : State) (x1 : Nat) (x2 : Nat → Bool) : (s.regsReset x1 x2).mem = s.mem := rfl
@[simp] theorem State.regsReset_tm (s : State) (x1 : Nat) (x2 : Nat → Bool) : (s.regsReset x1 x2).tm = s.tm := rfl
@[simp] theorem State.regsReset_scan (s : State) (x1 : Nat) (x2 : Nat → Bool) : (s.regsReset x1 x2).scan = s.scan := rfl
@[simp] theorem State.regsReset_cards (s : State) (x1 : Nat) (x2 : Nat → Bool) : (s.regsReset x1 x2).cards = s.cards := rfl
@[simp] theorem State.regsReset_chans (s : State) (x1 : Nat) (x2 : Nat → Bool) : (s.regsReset x1 x2).chans = s.chans := rfl
@[simp] theorem State.regsReset_ucode (s : State) (x1 : Nat) (x2 : Nat → Bool) : (s.regsReset x1 x2).ucode = s.ucode := rfl
@[simp] theorem State.regsReset_lookWait (s : State) (x1 : Nat) (x2 : Nat → Bool) : (s.regsReset x1 x2).lookWait = s.lookWait := rfl
@[simp] theorem State.regsReset_looking (s : State) (x1 : Nat) (x2 : Nat → Bool) : (s.regsReset x1 x2).looking = s.looking := rfl
@[simp] theorem State.regsReset_tw (s : State) (x1 : Nat) (x2 : Nat → Bool) : (s.regsReset x1 x2).tw = s.tw := rfl
@[simp] theorem State.regsReset_supv (s : State) (x1 : Nat) (x2 : Nat → Bool) : (s.regsReset x1 x2).supv = s.supv := rfl
@[simp] theorem State.regsReset_br (s : State) (x1 : Nat) (x2 : Nat → Bool) : (s.regsReset x1 x2).br = s.br := rfl
@[simp] theorem State.regsReset_host (s : State) (x1 : Nat) (x2 : Nat → Bool) : (s.regsReset x1 x2).host = s.host := rfl
@[simp] theorem State.regsReset_spi (s : State) (x1 : Nat) (x2 : Nat → Bool) : (s.regsReset x1 x2).spi = s.spi := rfl
@[simp] theorem State.regsReset_ft (s : State) (x1 : Nat) (x2 : Nat → Bool) : (s.regsReset x1 x2).ft = s.ft := rfl
@[simp] theorem State.regsReset_wear (s : State) (x1 : Nat) (x2 : Nat → Bool) : (s.regsReset x1 x2).wear = s.wear := rfl
@[simp] theorem State.regsReset_up (s : State) (x1 : Nat) (x2 : Nat → Bool) : (s.regsReset x1 x2).up = s.up := rfl
@[simp] theorem State.regsReset_fresh (s : State) (x1 : Nat) (x2 : Nat → Bool) : (s.regsReset x1 x2).fresh = s.fresh := rfl
@[simp] theorem State.regsReset_pending (s : State) (x1 : Nat) (x2 : Nat → Bool) : (s.regsReset x1 x2).pending = s.pending := rfl

@[simp] theorem State.wearClr_regs (s : State)  : (s.wearClr).regs = s.regs := rfl
@[simp] theorem State.wearClr_shad (s : State)  : (s.wearClr).shad = s.shad := rfl
@[simp] theorem State.wearClr_stopping (s : State)  : (s.wearClr).stopping = s.stopping := rfl
@[simp] theorem State.wearClr_ans (s : State)  : (s.wearClr).ans = s.ans := rfl
@[simp] theorem State.wearClr_faultQ (s : State)  : (s.wearClr).faultQ = s.faultQ := rfl
@[simp] theorem State.wearClr_iso (s : State)  : (s.wearClr).iso = s.iso := rfl
@[simp] theorem State.wearClr_gs (s : State)  : (s.wearClr).gs = s.gs := rfl
@[simp] theorem State.wearClr_isl (s : State)  : (s.wearClr).isl = s.isl := rfl
@[simp] theorem State.wearClr_pll (s : State)  : (s.wearClr).pll = s.pll := rfl
@[simp] theorem State.wearClr_spll (s : State)  : (s.wearClr).spll = s.spll := rfl
@[simp] theorem State.wearClr_mram (s : State)  : (s.wearClr).mram = s.mram := rfl
@[simp] theorem State.wearClr_lc (s : State)  : (s.wearClr).lc = s.lc := rfl
@[simp] theorem State.wearClr_ingress (s : State)  : (s.wearClr).ingress = s.ingress := rfl
@[simp] theorem State.wearClr_core (s : State)  : (s.wearClr).core = s.core := rfl
@[simp] theorem State.wearClr_ring (s : State)  : (s.wearClr).ring = s.ring := rfl
@[simp] theorem State.wearClr_mem (s : State)  : (s.wearClr).mem = s.mem := rfl
@[simp] theorem State.wearClr_tm (s : State)  : (s.wearClr).tm = s.tm := rfl
@[simp] theorem State.wearClr_scan (s : State)  : (s.wearClr).scan = s.scan := rfl
@[simp] theorem State.wearClr_cards (s : State)  : (s.wearClr).cards = s.cards := rfl
@[simp] theorem State.wearClr_chans (s : State)  : (s.wearClr).chans = s.chans := rfl
@[simp] theorem State.wearClr_ucode (s : State)  : (s.wearClr).ucode = s.ucode := rfl
@[simp] theorem State.wearClr_lookWait (s : State)  : (s.wearClr).lookWait = s.lookWait := rfl
@[simp] theorem State.wearClr_looking (s : State)  : (s.wearClr).looking = s.looking := rfl
@[simp] theorem State.wearClr_tw (s : State)  : (s.wearClr).tw = s.tw := rfl
@[simp] theorem State.wearClr_supv (s : State)  : (s.wearClr).supv = s.supv := rfl
@[simp] theorem State.wearClr_br (s : State)  : (s.wearClr).br = s.br := rfl
@[simp] theorem State.wearClr_host (s : State)  : (s.wearClr).host = s.host := rfl
@[simp] theorem State.wearClr_spi (s : State)  : (s.wearClr).spi = s.spi := rfl
@[simp] theorem State.wearClr_ft (s : State)  : (s.wearClr).ft = s.ft := rfl
@[simp] theorem State.wearClr_up (s : State)  : (s.wearClr).up = s.up := rfl
@[simp] theorem State.wearClr_fresh (s : State)  : (s.wearClr).fresh = s.fresh := rfl
@[simp] theorem State.wearClr_pending (s : State)  : (s.wearClr).pending = s.pending := rfl

@[simp] theorem State.setTag_regs (s : State) (x1 : Nat) (x2 : Option Txn) : (s.setTag x1 x2).regs = s.regs := rfl
@[simp] theorem State.setTag_shad (s : State) (x1 : Nat) (x2 : Option Txn) : (s.setTag x1 x2).shad = s.shad := rfl
@[simp] theorem State.setTag_stopping (s : State) (x1 : Nat) (x2 : Option Txn) : (s.setTag x1 x2).stopping = s.stopping := rfl
@[simp] theorem State.setTag_ans (s : State) (x1 : Nat) (x2 : Option Txn) : (s.setTag x1 x2).ans = s.ans := rfl
@[simp] theorem State.setTag_faultQ (s : State) (x1 : Nat) (x2 : Option Txn) : (s.setTag x1 x2).faultQ = s.faultQ := rfl
@[simp] theorem State.setTag_iso (s : State) (x1 : Nat) (x2 : Option Txn) : (s.setTag x1 x2).iso = s.iso := rfl
@[simp] theorem State.setTag_gs (s : State) (x1 : Nat) (x2 : Option Txn) : (s.setTag x1 x2).gs = s.gs := rfl
@[simp] theorem State.setTag_isl (s : State) (x1 : Nat) (x2 : Option Txn) : (s.setTag x1 x2).isl = s.isl := rfl
@[simp] theorem State.setTag_pll (s : State) (x1 : Nat) (x2 : Option Txn) : (s.setTag x1 x2).pll = s.pll := rfl
@[simp] theorem State.setTag_spll (s : State) (x1 : Nat) (x2 : Option Txn) : (s.setTag x1 x2).spll = s.spll := rfl
@[simp] theorem State.setTag_mram (s : State) (x1 : Nat) (x2 : Option Txn) : (s.setTag x1 x2).mram = s.mram := rfl
@[simp] theorem State.setTag_lc (s : State) (x1 : Nat) (x2 : Option Txn) : (s.setTag x1 x2).lc = s.lc := rfl
@[simp] theorem State.setTag_ingress (s : State) (x1 : Nat) (x2 : Option Txn) : (s.setTag x1 x2).ingress = s.ingress := rfl
@[simp] theorem State.setTag_core (s : State) (x1 : Nat) (x2 : Option Txn) : (s.setTag x1 x2).core = s.core := rfl
@[simp] theorem State.setTag_ring (s : State) (x1 : Nat) (x2 : Option Txn) : (s.setTag x1 x2).ring = s.ring := rfl
@[simp] theorem State.setTag_mem (s : State) (x1 : Nat) (x2 : Option Txn) : (s.setTag x1 x2).mem = s.mem := rfl
@[simp] theorem State.setTag_tm (s : State) (x1 : Nat) (x2 : Option Txn) : (s.setTag x1 x2).tm = s.tm := rfl
@[simp] theorem State.setTag_scan (s : State) (x1 : Nat) (x2 : Option Txn) : (s.setTag x1 x2).scan = s.scan := rfl
@[simp] theorem State.setTag_cards (s : State) (x1 : Nat) (x2 : Option Txn) : (s.setTag x1 x2).cards = s.cards := rfl
@[simp] theorem State.setTag_chans (s : State) (x1 : Nat) (x2 : Option Txn) : (s.setTag x1 x2).chans = s.chans := rfl
@[simp] theorem State.setTag_ucode (s : State) (x1 : Nat) (x2 : Option Txn) : (s.setTag x1 x2).ucode = s.ucode := rfl
@[simp] theorem State.setTag_lookWait (s : State) (x1 : Nat) (x2 : Option Txn) : (s.setTag x1 x2).lookWait = s.lookWait := rfl
@[simp] theorem State.setTag_looking (s : State) (x1 : Nat) (x2 : Option Txn) : (s.setTag x1 x2).looking = s.looking := rfl
@[simp] theorem State.setTag_tw (s : State) (x1 : Nat) (x2 : Option Txn) : (s.setTag x1 x2).tw = s.tw := rfl
@[simp] theorem State.setTag_supv (s : State) (x1 : Nat) (x2 : Option Txn) : (s.setTag x1 x2).supv = s.supv := rfl
@[simp] theorem State.setTag_host (s : State) (x1 : Nat) (x2 : Option Txn) : (s.setTag x1 x2).host = s.host := rfl
@[simp] theorem State.setTag_spi (s : State) (x1 : Nat) (x2 : Option Txn) : (s.setTag x1 x2).spi = s.spi := rfl
@[simp] theorem State.setTag_ft (s : State) (x1 : Nat) (x2 : Option Txn) : (s.setTag x1 x2).ft = s.ft := rfl
@[simp] theorem State.setTag_wear (s : State) (x1 : Nat) (x2 : Option Txn) : (s.setTag x1 x2).wear = s.wear := rfl
@[simp] theorem State.setTag_up (s : State) (x1 : Nat) (x2 : Option Txn) : (s.setTag x1 x2).up = s.up := rfl
@[simp] theorem State.setTag_fresh (s : State) (x1 : Nat) (x2 : Option Txn) : (s.setTag x1 x2).fresh = s.fresh := rfl
@[simp] theorem State.setTag_pending (s : State) (x1 : Nat) (x2 : Option Txn) : (s.setTag x1 x2).pending = s.pending := rfl

@[simp] theorem State.setSlot_regs (s : State) (x1 : Nat) (x2 : Option Slot) : (s.setSlot x1 x2).regs = s.regs := rfl
@[simp] theorem State.setSlot_shad (s : State) (x1 : Nat) (x2 : Option Slot) : (s.setSlot x1 x2).shad = s.shad := rfl
@[simp] theorem State.setSlot_stopping (s : State) (x1 : Nat) (x2 : Option Slot) : (s.setSlot x1 x2).stopping = s.stopping := rfl
@[simp] theorem State.setSlot_ans (s : State) (x1 : Nat) (x2 : Option Slot) : (s.setSlot x1 x2).ans = s.ans := rfl
@[simp] theorem State.setSlot_faultQ (s : State) (x1 : Nat) (x2 : Option Slot) : (s.setSlot x1 x2).faultQ = s.faultQ := rfl
@[simp] theorem State.setSlot_iso (s : State) (x1 : Nat) (x2 : Option Slot) : (s.setSlot x1 x2).iso = s.iso := rfl
@[simp] theorem State.setSlot_gs (s : State) (x1 : Nat) (x2 : Option Slot) : (s.setSlot x1 x2).gs = s.gs := rfl
@[simp] theorem State.setSlot_isl (s : State) (x1 : Nat) (x2 : Option Slot) : (s.setSlot x1 x2).isl = s.isl := rfl
@[simp] theorem State.setSlot_pll (s : State) (x1 : Nat) (x2 : Option Slot) : (s.setSlot x1 x2).pll = s.pll := rfl
@[simp] theorem State.setSlot_spll (s : State) (x1 : Nat) (x2 : Option Slot) : (s.setSlot x1 x2).spll = s.spll := rfl
@[simp] theorem State.setSlot_mram (s : State) (x1 : Nat) (x2 : Option Slot) : (s.setSlot x1 x2).mram = s.mram := rfl
@[simp] theorem State.setSlot_lc (s : State) (x1 : Nat) (x2 : Option Slot) : (s.setSlot x1 x2).lc = s.lc := rfl
@[simp] theorem State.setSlot_ingress (s : State) (x1 : Nat) (x2 : Option Slot) : (s.setSlot x1 x2).ingress = s.ingress := rfl
@[simp] theorem State.setSlot_core (s : State) (x1 : Nat) (x2 : Option Slot) : (s.setSlot x1 x2).core = s.core := rfl
@[simp] theorem State.setSlot_ring (s : State) (x1 : Nat) (x2 : Option Slot) : (s.setSlot x1 x2).ring = s.ring := rfl
@[simp] theorem State.setSlot_mem (s : State) (x1 : Nat) (x2 : Option Slot) : (s.setSlot x1 x2).mem = s.mem := rfl
@[simp] theorem State.setSlot_tm (s : State) (x1 : Nat) (x2 : Option Slot) : (s.setSlot x1 x2).tm = s.tm := rfl
@[simp] theorem State.setSlot_scan (s : State) (x1 : Nat) (x2 : Option Slot) : (s.setSlot x1 x2).scan = s.scan := rfl
@[simp] theorem State.setSlot_cards (s : State) (x1 : Nat) (x2 : Option Slot) : (s.setSlot x1 x2).cards = s.cards := rfl
@[simp] theorem State.setSlot_chans (s : State) (x1 : Nat) (x2 : Option Slot) : (s.setSlot x1 x2).chans = s.chans := rfl
@[simp] theorem State.setSlot_ucode (s : State) (x1 : Nat) (x2 : Option Slot) : (s.setSlot x1 x2).ucode = s.ucode := rfl
@[simp] theorem State.setSlot_lookWait (s : State) (x1 : Nat) (x2 : Option Slot) : (s.setSlot x1 x2).lookWait = s.lookWait := rfl
@[simp] theorem State.setSlot_looking (s : State) (x1 : Nat) (x2 : Option Slot) : (s.setSlot x1 x2).looking = s.looking := rfl
@[simp] theorem State.setSlot_tw (s : State) (x1 : Nat) (x2 : Option Slot) : (s.setSlot x1 x2).tw = s.tw := rfl
@[simp] theorem State.setSlot_supv (s : State) (x1 : Nat) (x2 : Option Slot) : (s.setSlot x1 x2).supv = s.supv := rfl
@[simp] theorem State.setSlot_host (s : State) (x1 : Nat) (x2 : Option Slot) : (s.setSlot x1 x2).host = s.host := rfl
@[simp] theorem State.setSlot_spi (s : State) (x1 : Nat) (x2 : Option Slot) : (s.setSlot x1 x2).spi = s.spi := rfl
@[simp] theorem State.setSlot_ft (s : State) (x1 : Nat) (x2 : Option Slot) : (s.setSlot x1 x2).ft = s.ft := rfl
@[simp] theorem State.setSlot_wear (s : State) (x1 : Nat) (x2 : Option Slot) : (s.setSlot x1 x2).wear = s.wear := rfl
@[simp] theorem State.setSlot_up (s : State) (x1 : Nat) (x2 : Option Slot) : (s.setSlot x1 x2).up = s.up := rfl
@[simp] theorem State.setSlot_fresh (s : State) (x1 : Nat) (x2 : Option Slot) : (s.setSlot x1 x2).fresh = s.fresh := rfl
@[simp] theorem State.setSlot_pending (s : State) (x1 : Nat) (x2 : Option Slot) : (s.setSlot x1 x2).pending = s.pending := rfl

@[simp] theorem State.cycle_regs (s : State) (x1 : Option Nat) : (s.cycle x1).regs = s.regs := rfl
@[simp] theorem State.cycle_shad (s : State) (x1 : Option Nat) : (s.cycle x1).shad = s.shad := rfl
@[simp] theorem State.cycle_stopping (s : State) (x1 : Option Nat) : (s.cycle x1).stopping = s.stopping := rfl
@[simp] theorem State.cycle_faultQ (s : State) (x1 : Option Nat) : (s.cycle x1).faultQ = s.faultQ := rfl
@[simp] theorem State.cycle_iso (s : State) (x1 : Option Nat) : (s.cycle x1).iso = s.iso := rfl
@[simp] theorem State.cycle_gs (s : State) (x1 : Option Nat) : (s.cycle x1).gs = s.gs := rfl
@[simp] theorem State.cycle_isl (s : State) (x1 : Option Nat) : (s.cycle x1).isl = s.isl := rfl
@[simp] theorem State.cycle_pll (s : State) (x1 : Option Nat) : (s.cycle x1).pll = s.pll := rfl
@[simp] theorem State.cycle_spll (s : State) (x1 : Option Nat) : (s.cycle x1).spll = s.spll := rfl
@[simp] theorem State.cycle_mram (s : State) (x1 : Option Nat) : (s.cycle x1).mram = s.mram := rfl
@[simp] theorem State.cycle_lc (s : State) (x1 : Option Nat) : (s.cycle x1).lc = s.lc := rfl
@[simp] theorem State.cycle_ingress (s : State) (x1 : Option Nat) : (s.cycle x1).ingress = s.ingress := rfl
@[simp] theorem State.cycle_core (s : State) (x1 : Option Nat) : (s.cycle x1).core = s.core := rfl
@[simp] theorem State.cycle_ring (s : State) (x1 : Option Nat) : (s.cycle x1).ring = s.ring := rfl
@[simp] theorem State.cycle_mem (s : State) (x1 : Option Nat) : (s.cycle x1).mem = s.mem := rfl
@[simp] theorem State.cycle_tm (s : State) (x1 : Option Nat) : (s.cycle x1).tm = s.tm := rfl
@[simp] theorem State.cycle_scan (s : State) (x1 : Option Nat) : (s.cycle x1).scan = s.scan := rfl
@[simp] theorem State.cycle_cards (s : State) (x1 : Option Nat) : (s.cycle x1).cards = s.cards := rfl
@[simp] theorem State.cycle_chans (s : State) (x1 : Option Nat) : (s.cycle x1).chans = s.chans := rfl
@[simp] theorem State.cycle_ucode (s : State) (x1 : Option Nat) : (s.cycle x1).ucode = s.ucode := rfl
@[simp] theorem State.cycle_lookWait (s : State) (x1 : Option Nat) : (s.cycle x1).lookWait = s.lookWait := rfl
@[simp] theorem State.cycle_looking (s : State) (x1 : Option Nat) : (s.cycle x1).looking = s.looking := rfl
@[simp] theorem State.cycle_tw (s : State) (x1 : Option Nat) : (s.cycle x1).tw = s.tw := rfl
@[simp] theorem State.cycle_supv (s : State) (x1 : Option Nat) : (s.cycle x1).supv = s.supv := rfl
@[simp] theorem State.cycle_br (s : State) (x1 : Option Nat) : (s.cycle x1).br = s.br := rfl
@[simp] theorem State.cycle_host (s : State) (x1 : Option Nat) : (s.cycle x1).host = s.host := rfl
@[simp] theorem State.cycle_spi (s : State) (x1 : Option Nat) : (s.cycle x1).spi = s.spi := rfl
@[simp] theorem State.cycle_ft (s : State) (x1 : Option Nat) : (s.cycle x1).ft = s.ft := rfl
@[simp] theorem State.cycle_wear (s : State) (x1 : Option Nat) : (s.cycle x1).wear = s.wear := rfl
@[simp] theorem State.cycle_up (s : State) (x1 : Option Nat) : (s.cycle x1).up = s.up := rfl
@[simp] theorem State.cycle_fresh (s : State) (x1 : Option Nat) : (s.cycle x1).fresh = s.fresh := rfl
@[simp] theorem State.cycle_pending (s : State) (x1 : Option Nat) : (s.cycle x1).pending = s.pending := rfl

@[simp] theorem State.setTurn_regs (s : State) (x1 : Bool) : (s.setTurn x1).regs = s.regs := rfl
@[simp] theorem State.setTurn_shad (s : State) (x1 : Bool) : (s.setTurn x1).shad = s.shad := rfl
@[simp] theorem State.setTurn_stopping (s : State) (x1 : Bool) : (s.setTurn x1).stopping = s.stopping := rfl
@[simp] theorem State.setTurn_ans (s : State) (x1 : Bool) : (s.setTurn x1).ans = s.ans := rfl
@[simp] theorem State.setTurn_faultQ (s : State) (x1 : Bool) : (s.setTurn x1).faultQ = s.faultQ := rfl
@[simp] theorem State.setTurn_iso (s : State) (x1 : Bool) : (s.setTurn x1).iso = s.iso := rfl
@[simp] theorem State.setTurn_gs (s : State) (x1 : Bool) : (s.setTurn x1).gs = s.gs := rfl
@[simp] theorem State.setTurn_isl (s : State) (x1 : Bool) : (s.setTurn x1).isl = s.isl := rfl
@[simp] theorem State.setTurn_pll (s : State) (x1 : Bool) : (s.setTurn x1).pll = s.pll := rfl
@[simp] theorem State.setTurn_spll (s : State) (x1 : Bool) : (s.setTurn x1).spll = s.spll := rfl
@[simp] theorem State.setTurn_mram (s : State) (x1 : Bool) : (s.setTurn x1).mram = s.mram := rfl
@[simp] theorem State.setTurn_lc (s : State) (x1 : Bool) : (s.setTurn x1).lc = s.lc := rfl
@[simp] theorem State.setTurn_ingress (s : State) (x1 : Bool) : (s.setTurn x1).ingress = s.ingress := rfl
@[simp] theorem State.setTurn_core (s : State) (x1 : Bool) : (s.setTurn x1).core = s.core := rfl
@[simp] theorem State.setTurn_ring (s : State) (x1 : Bool) : (s.setTurn x1).ring = s.ring := rfl
@[simp] theorem State.setTurn_mem (s : State) (x1 : Bool) : (s.setTurn x1).mem = s.mem := rfl
@[simp] theorem State.setTurn_tm (s : State) (x1 : Bool) : (s.setTurn x1).tm = s.tm := rfl
@[simp] theorem State.setTurn_scan (s : State) (x1 : Bool) : (s.setTurn x1).scan = s.scan := rfl
@[simp] theorem State.setTurn_cards (s : State) (x1 : Bool) : (s.setTurn x1).cards = s.cards := rfl
@[simp] theorem State.setTurn_chans (s : State) (x1 : Bool) : (s.setTurn x1).chans = s.chans := rfl
@[simp] theorem State.setTurn_ucode (s : State) (x1 : Bool) : (s.setTurn x1).ucode = s.ucode := rfl
@[simp] theorem State.setTurn_lookWait (s : State) (x1 : Bool) : (s.setTurn x1).lookWait = s.lookWait := rfl
@[simp] theorem State.setTurn_looking (s : State) (x1 : Bool) : (s.setTurn x1).looking = s.looking := rfl
@[simp] theorem State.setTurn_supv (s : State) (x1 : Bool) : (s.setTurn x1).supv = s.supv := rfl
@[simp] theorem State.setTurn_br (s : State) (x1 : Bool) : (s.setTurn x1).br = s.br := rfl
@[simp] theorem State.setTurn_host (s : State) (x1 : Bool) : (s.setTurn x1).host = s.host := rfl
@[simp] theorem State.setTurn_spi (s : State) (x1 : Bool) : (s.setTurn x1).spi = s.spi := rfl
@[simp] theorem State.setTurn_ft (s : State) (x1 : Bool) : (s.setTurn x1).ft = s.ft := rfl
@[simp] theorem State.setTurn_wear (s : State) (x1 : Bool) : (s.setTurn x1).wear = s.wear := rfl
@[simp] theorem State.setTurn_up (s : State) (x1 : Bool) : (s.setTurn x1).up = s.up := rfl
@[simp] theorem State.setTurn_fresh (s : State) (x1 : Bool) : (s.setTurn x1).fresh = s.fresh := rfl
@[simp] theorem State.setTurn_pending (s : State) (x1 : Bool) : (s.setTurn x1).pending = s.pending := rfl

@[simp] theorem State.irqRise_regs (s : State) (x1 : Nat) (x2 : Bool) : (s.irqRise x1 x2).regs = s.regs := by unfold State.irqRise; split <;> rfl
@[simp] theorem State.irqRise_shad (s : State) (x1 : Nat) (x2 : Bool) : (s.irqRise x1 x2).shad = s.shad := by unfold State.irqRise; split <;> rfl
@[simp] theorem State.irqRise_stopping (s : State) (x1 : Nat) (x2 : Bool) : (s.irqRise x1 x2).stopping = s.stopping := by unfold State.irqRise; split <;> rfl
@[simp] theorem State.irqRise_ans (s : State) (x1 : Nat) (x2 : Bool) : (s.irqRise x1 x2).ans = s.ans := by unfold State.irqRise; split <;> rfl
@[simp] theorem State.irqRise_faultQ (s : State) (x1 : Nat) (x2 : Bool) : (s.irqRise x1 x2).faultQ = s.faultQ := by unfold State.irqRise; split <;> rfl
@[simp] theorem State.irqRise_iso (s : State) (x1 : Nat) (x2 : Bool) : (s.irqRise x1 x2).iso = s.iso := by unfold State.irqRise; split <;> rfl
@[simp] theorem State.irqRise_gs (s : State) (x1 : Nat) (x2 : Bool) : (s.irqRise x1 x2).gs = s.gs := by unfold State.irqRise; split <;> rfl
@[simp] theorem State.irqRise_isl (s : State) (x1 : Nat) (x2 : Bool) : (s.irqRise x1 x2).isl = s.isl := by unfold State.irqRise; split <;> rfl
@[simp] theorem State.irqRise_pll (s : State) (x1 : Nat) (x2 : Bool) : (s.irqRise x1 x2).pll = s.pll := by unfold State.irqRise; split <;> rfl
@[simp] theorem State.irqRise_spll (s : State) (x1 : Nat) (x2 : Bool) : (s.irqRise x1 x2).spll = s.spll := by unfold State.irqRise; split <;> rfl
@[simp] theorem State.irqRise_mram (s : State) (x1 : Nat) (x2 : Bool) : (s.irqRise x1 x2).mram = s.mram := by unfold State.irqRise; split <;> rfl
@[simp] theorem State.irqRise_lc (s : State) (x1 : Nat) (x2 : Bool) : (s.irqRise x1 x2).lc = s.lc := by unfold State.irqRise; split <;> rfl
@[simp] theorem State.irqRise_core (s : State) (x1 : Nat) (x2 : Bool) : (s.irqRise x1 x2).core = s.core := by unfold State.irqRise; split <;> rfl
@[simp] theorem State.irqRise_ring (s : State) (x1 : Nat) (x2 : Bool) : (s.irqRise x1 x2).ring = s.ring := by unfold State.irqRise; split <;> rfl
@[simp] theorem State.irqRise_mem (s : State) (x1 : Nat) (x2 : Bool) : (s.irqRise x1 x2).mem = s.mem := by unfold State.irqRise; split <;> rfl
@[simp] theorem State.irqRise_tm (s : State) (x1 : Nat) (x2 : Bool) : (s.irqRise x1 x2).tm = s.tm := by unfold State.irqRise; split <;> rfl
@[simp] theorem State.irqRise_scan (s : State) (x1 : Nat) (x2 : Bool) : (s.irqRise x1 x2).scan = s.scan := by unfold State.irqRise; split <;> rfl
@[simp] theorem State.irqRise_cards (s : State) (x1 : Nat) (x2 : Bool) : (s.irqRise x1 x2).cards = s.cards := by unfold State.irqRise; split <;> rfl
@[simp] theorem State.irqRise_chans (s : State) (x1 : Nat) (x2 : Bool) : (s.irqRise x1 x2).chans = s.chans := by unfold State.irqRise; split <;> rfl
@[simp] theorem State.irqRise_ucode (s : State) (x1 : Nat) (x2 : Bool) : (s.irqRise x1 x2).ucode = s.ucode := by unfold State.irqRise; split <;> rfl
@[simp] theorem State.irqRise_lookWait (s : State) (x1 : Nat) (x2 : Bool) : (s.irqRise x1 x2).lookWait = s.lookWait := by unfold State.irqRise; split <;> rfl
@[simp] theorem State.irqRise_looking (s : State) (x1 : Nat) (x2 : Bool) : (s.irqRise x1 x2).looking = s.looking := by unfold State.irqRise; split <;> rfl
@[simp] theorem State.irqRise_tw (s : State) (x1 : Nat) (x2 : Bool) : (s.irqRise x1 x2).tw = s.tw := by unfold State.irqRise; split <;> rfl
@[simp] theorem State.irqRise_supv (s : State) (x1 : Nat) (x2 : Bool) : (s.irqRise x1 x2).supv = s.supv := by unfold State.irqRise; split <;> rfl
@[simp] theorem State.irqRise_br (s : State) (x1 : Nat) (x2 : Bool) : (s.irqRise x1 x2).br = s.br := by unfold State.irqRise; split <;> rfl
@[simp] theorem State.irqRise_host (s : State) (x1 : Nat) (x2 : Bool) : (s.irqRise x1 x2).host = s.host := by unfold State.irqRise; split <;> rfl
@[simp] theorem State.irqRise_spi (s : State) (x1 : Nat) (x2 : Bool) : (s.irqRise x1 x2).spi = s.spi := by unfold State.irqRise; split <;> rfl
@[simp] theorem State.irqRise_ft (s : State) (x1 : Nat) (x2 : Bool) : (s.irqRise x1 x2).ft = s.ft := by unfold State.irqRise; split <;> rfl
@[simp] theorem State.irqRise_wear (s : State) (x1 : Nat) (x2 : Bool) : (s.irqRise x1 x2).wear = s.wear := by unfold State.irqRise; split <;> rfl
@[simp] theorem State.irqRise_up (s : State) (x1 : Nat) (x2 : Bool) : (s.irqRise x1 x2).up = s.up := by unfold State.irqRise; split <;> rfl
@[simp] theorem State.irqRise_fresh (s : State) (x1 : Nat) (x2 : Bool) : (s.irqRise x1 x2).fresh = s.fresh := by unfold State.irqRise; split <;> rfl
@[simp] theorem State.irqRise_pending (s : State) (x1 : Nat) (x2 : Bool) : (s.irqRise x1 x2).pending = s.pending := by unfold State.irqRise; split <;> rfl

@[simp] theorem State.fs_shad (s : State) (x1 : Nat) (x2 : Fld) (x3 : Nat) : (s.fs x1 x2 x3).shad = s.shad := rfl
@[simp] theorem State.fs_stopping (s : State) (x1 : Nat) (x2 : Fld) (x3 : Nat) : (s.fs x1 x2 x3).stopping = s.stopping := rfl
@[simp] theorem State.fs_ans (s : State) (x1 : Nat) (x2 : Fld) (x3 : Nat) : (s.fs x1 x2 x3).ans = s.ans := rfl
@[simp] theorem State.fs_faultQ (s : State) (x1 : Nat) (x2 : Fld) (x3 : Nat) : (s.fs x1 x2 x3).faultQ = s.faultQ := rfl
@[simp] theorem State.fs_iso (s : State) (x1 : Nat) (x2 : Fld) (x3 : Nat) : (s.fs x1 x2 x3).iso = s.iso := rfl
@[simp] theorem State.fs_gs (s : State) (x1 : Nat) (x2 : Fld) (x3 : Nat) : (s.fs x1 x2 x3).gs = s.gs := rfl
@[simp] theorem State.fs_isl (s : State) (x1 : Nat) (x2 : Fld) (x3 : Nat) : (s.fs x1 x2 x3).isl = s.isl := rfl
@[simp] theorem State.fs_pll (s : State) (x1 : Nat) (x2 : Fld) (x3 : Nat) : (s.fs x1 x2 x3).pll = s.pll := rfl
@[simp] theorem State.fs_spll (s : State) (x1 : Nat) (x2 : Fld) (x3 : Nat) : (s.fs x1 x2 x3).spll = s.spll := rfl
@[simp] theorem State.fs_mram (s : State) (x1 : Nat) (x2 : Fld) (x3 : Nat) : (s.fs x1 x2 x3).mram = s.mram := rfl
@[simp] theorem State.fs_lc (s : State) (x1 : Nat) (x2 : Fld) (x3 : Nat) : (s.fs x1 x2 x3).lc = s.lc := rfl
@[simp] theorem State.fs_ingress (s : State) (x1 : Nat) (x2 : Fld) (x3 : Nat) : (s.fs x1 x2 x3).ingress = s.ingress := rfl
@[simp] theorem State.fs_core (s : State) (x1 : Nat) (x2 : Fld) (x3 : Nat) : (s.fs x1 x2 x3).core = s.core := rfl
@[simp] theorem State.fs_ring (s : State) (x1 : Nat) (x2 : Fld) (x3 : Nat) : (s.fs x1 x2 x3).ring = s.ring := rfl
@[simp] theorem State.fs_mem (s : State) (x1 : Nat) (x2 : Fld) (x3 : Nat) : (s.fs x1 x2 x3).mem = s.mem := rfl
@[simp] theorem State.fs_tm (s : State) (x1 : Nat) (x2 : Fld) (x3 : Nat) : (s.fs x1 x2 x3).tm = s.tm := rfl
@[simp] theorem State.fs_scan (s : State) (x1 : Nat) (x2 : Fld) (x3 : Nat) : (s.fs x1 x2 x3).scan = s.scan := rfl
@[simp] theorem State.fs_cards (s : State) (x1 : Nat) (x2 : Fld) (x3 : Nat) : (s.fs x1 x2 x3).cards = s.cards := rfl
@[simp] theorem State.fs_chans (s : State) (x1 : Nat) (x2 : Fld) (x3 : Nat) : (s.fs x1 x2 x3).chans = s.chans := rfl
@[simp] theorem State.fs_ucode (s : State) (x1 : Nat) (x2 : Fld) (x3 : Nat) : (s.fs x1 x2 x3).ucode = s.ucode := rfl
@[simp] theorem State.fs_lookWait (s : State) (x1 : Nat) (x2 : Fld) (x3 : Nat) : (s.fs x1 x2 x3).lookWait = s.lookWait := rfl
@[simp] theorem State.fs_looking (s : State) (x1 : Nat) (x2 : Fld) (x3 : Nat) : (s.fs x1 x2 x3).looking = s.looking := rfl
@[simp] theorem State.fs_tw (s : State) (x1 : Nat) (x2 : Fld) (x3 : Nat) : (s.fs x1 x2 x3).tw = s.tw := rfl
@[simp] theorem State.fs_supv (s : State) (x1 : Nat) (x2 : Fld) (x3 : Nat) : (s.fs x1 x2 x3).supv = s.supv := rfl
@[simp] theorem State.fs_br (s : State) (x1 : Nat) (x2 : Fld) (x3 : Nat) : (s.fs x1 x2 x3).br = s.br := rfl
@[simp] theorem State.fs_host (s : State) (x1 : Nat) (x2 : Fld) (x3 : Nat) : (s.fs x1 x2 x3).host = s.host := rfl
@[simp] theorem State.fs_spi (s : State) (x1 : Nat) (x2 : Fld) (x3 : Nat) : (s.fs x1 x2 x3).spi = s.spi := rfl
@[simp] theorem State.fs_ft (s : State) (x1 : Nat) (x2 : Fld) (x3 : Nat) : (s.fs x1 x2 x3).ft = s.ft := rfl
@[simp] theorem State.fs_wear (s : State) (x1 : Nat) (x2 : Fld) (x3 : Nat) : (s.fs x1 x2 x3).wear = s.wear := rfl
@[simp] theorem State.fs_up (s : State) (x1 : Nat) (x2 : Fld) (x3 : Nat) : (s.fs x1 x2 x3).up = s.up := rfl
@[simp] theorem State.fs_fresh (s : State) (x1 : Nat) (x2 : Fld) (x3 : Nat) : (s.fs x1 x2 x3).fresh = s.fresh := rfl
@[simp] theorem State.fs_pending (s : State) (x1 : Nat) (x2 : Fld) (x3 : Nat) : (s.fs x1 x2 x3).pending = s.pending := rfl

@[simp] theorem State.addSat_shad (s : State) (x1 : Nat) (x2 : Fld) (x3 : Nat) : (s.addSat x1 x2 x3).shad = s.shad := rfl
@[simp] theorem State.addSat_stopping (s : State) (x1 : Nat) (x2 : Fld) (x3 : Nat) : (s.addSat x1 x2 x3).stopping = s.stopping := rfl
@[simp] theorem State.addSat_ans (s : State) (x1 : Nat) (x2 : Fld) (x3 : Nat) : (s.addSat x1 x2 x3).ans = s.ans := rfl
@[simp] theorem State.addSat_faultQ (s : State) (x1 : Nat) (x2 : Fld) (x3 : Nat) : (s.addSat x1 x2 x3).faultQ = s.faultQ := rfl
@[simp] theorem State.addSat_iso (s : State) (x1 : Nat) (x2 : Fld) (x3 : Nat) : (s.addSat x1 x2 x3).iso = s.iso := rfl
@[simp] theorem State.addSat_gs (s : State) (x1 : Nat) (x2 : Fld) (x3 : Nat) : (s.addSat x1 x2 x3).gs = s.gs := rfl
@[simp] theorem State.addSat_isl (s : State) (x1 : Nat) (x2 : Fld) (x3 : Nat) : (s.addSat x1 x2 x3).isl = s.isl := rfl
@[simp] theorem State.addSat_pll (s : State) (x1 : Nat) (x2 : Fld) (x3 : Nat) : (s.addSat x1 x2 x3).pll = s.pll := rfl
@[simp] theorem State.addSat_spll (s : State) (x1 : Nat) (x2 : Fld) (x3 : Nat) : (s.addSat x1 x2 x3).spll = s.spll := rfl
@[simp] theorem State.addSat_mram (s : State) (x1 : Nat) (x2 : Fld) (x3 : Nat) : (s.addSat x1 x2 x3).mram = s.mram := rfl
@[simp] theorem State.addSat_lc (s : State) (x1 : Nat) (x2 : Fld) (x3 : Nat) : (s.addSat x1 x2 x3).lc = s.lc := rfl
@[simp] theorem State.addSat_ingress (s : State) (x1 : Nat) (x2 : Fld) (x3 : Nat) : (s.addSat x1 x2 x3).ingress = s.ingress := rfl
@[simp] theorem State.addSat_core (s : State) (x1 : Nat) (x2 : Fld) (x3 : Nat) : (s.addSat x1 x2 x3).core = s.core := rfl
@[simp] theorem State.addSat_ring (s : State) (x1 : Nat) (x2 : Fld) (x3 : Nat) : (s.addSat x1 x2 x3).ring = s.ring := rfl
@[simp] theorem State.addSat_mem (s : State) (x1 : Nat) (x2 : Fld) (x3 : Nat) : (s.addSat x1 x2 x3).mem = s.mem := rfl
@[simp] theorem State.addSat_tm (s : State) (x1 : Nat) (x2 : Fld) (x3 : Nat) : (s.addSat x1 x2 x3).tm = s.tm := rfl
@[simp] theorem State.addSat_scan (s : State) (x1 : Nat) (x2 : Fld) (x3 : Nat) : (s.addSat x1 x2 x3).scan = s.scan := rfl
@[simp] theorem State.addSat_cards (s : State) (x1 : Nat) (x2 : Fld) (x3 : Nat) : (s.addSat x1 x2 x3).cards = s.cards := rfl
@[simp] theorem State.addSat_chans (s : State) (x1 : Nat) (x2 : Fld) (x3 : Nat) : (s.addSat x1 x2 x3).chans = s.chans := rfl
@[simp] theorem State.addSat_ucode (s : State) (x1 : Nat) (x2 : Fld) (x3 : Nat) : (s.addSat x1 x2 x3).ucode = s.ucode := rfl
@[simp] theorem State.addSat_lookWait (s : State) (x1 : Nat) (x2 : Fld) (x3 : Nat) : (s.addSat x1 x2 x3).lookWait = s.lookWait := rfl
@[simp] theorem State.addSat_looking (s : State) (x1 : Nat) (x2 : Fld) (x3 : Nat) : (s.addSat x1 x2 x3).looking = s.looking := rfl
@[simp] theorem State.addSat_tw (s : State) (x1 : Nat) (x2 : Fld) (x3 : Nat) : (s.addSat x1 x2 x3).tw = s.tw := rfl
@[simp] theorem State.addSat_supv (s : State) (x1 : Nat) (x2 : Fld) (x3 : Nat) : (s.addSat x1 x2 x3).supv = s.supv := rfl
@[simp] theorem State.addSat_br (s : State) (x1 : Nat) (x2 : Fld) (x3 : Nat) : (s.addSat x1 x2 x3).br = s.br := rfl
@[simp] theorem State.addSat_host (s : State) (x1 : Nat) (x2 : Fld) (x3 : Nat) : (s.addSat x1 x2 x3).host = s.host := rfl
@[simp] theorem State.addSat_spi (s : State) (x1 : Nat) (x2 : Fld) (x3 : Nat) : (s.addSat x1 x2 x3).spi = s.spi := rfl
@[simp] theorem State.addSat_ft (s : State) (x1 : Nat) (x2 : Fld) (x3 : Nat) : (s.addSat x1 x2 x3).ft = s.ft := rfl
@[simp] theorem State.addSat_wear (s : State) (x1 : Nat) (x2 : Fld) (x3 : Nat) : (s.addSat x1 x2 x3).wear = s.wear := rfl
@[simp] theorem State.addSat_up (s : State) (x1 : Nat) (x2 : Fld) (x3 : Nat) : (s.addSat x1 x2 x3).up = s.up := rfl
@[simp] theorem State.addSat_fresh (s : State) (x1 : Nat) (x2 : Fld) (x3 : Nat) : (s.addSat x1 x2 x3).fresh = s.fresh := rfl
@[simp] theorem State.addSat_pending (s : State) (x1 : Nat) (x2 : Fld) (x3 : Nat) : (s.addSat x1 x2 x3).pending = s.pending := rfl

@[simp] theorem State.inc_shad (s : State) (x1 : Nat) (x2 : Fld) : (s.inc x1 x2).shad = s.shad := rfl
@[simp] theorem State.inc_stopping (s : State) (x1 : Nat) (x2 : Fld) : (s.inc x1 x2).stopping = s.stopping := rfl
@[simp] theorem State.inc_ans (s : State) (x1 : Nat) (x2 : Fld) : (s.inc x1 x2).ans = s.ans := rfl
@[simp] theorem State.inc_faultQ (s : State) (x1 : Nat) (x2 : Fld) : (s.inc x1 x2).faultQ = s.faultQ := rfl
@[simp] theorem State.inc_iso (s : State) (x1 : Nat) (x2 : Fld) : (s.inc x1 x2).iso = s.iso := rfl
@[simp] theorem State.inc_gs (s : State) (x1 : Nat) (x2 : Fld) : (s.inc x1 x2).gs = s.gs := rfl
@[simp] theorem State.inc_isl (s : State) (x1 : Nat) (x2 : Fld) : (s.inc x1 x2).isl = s.isl := rfl
@[simp] theorem State.inc_pll (s : State) (x1 : Nat) (x2 : Fld) : (s.inc x1 x2).pll = s.pll := rfl
@[simp] theorem State.inc_spll (s : State) (x1 : Nat) (x2 : Fld) : (s.inc x1 x2).spll = s.spll := rfl
@[simp] theorem State.inc_mram (s : State) (x1 : Nat) (x2 : Fld) : (s.inc x1 x2).mram = s.mram := rfl
@[simp] theorem State.inc_lc (s : State) (x1 : Nat) (x2 : Fld) : (s.inc x1 x2).lc = s.lc := rfl
@[simp] theorem State.inc_ingress (s : State) (x1 : Nat) (x2 : Fld) : (s.inc x1 x2).ingress = s.ingress := rfl
@[simp] theorem State.inc_core (s : State) (x1 : Nat) (x2 : Fld) : (s.inc x1 x2).core = s.core := rfl
@[simp] theorem State.inc_ring (s : State) (x1 : Nat) (x2 : Fld) : (s.inc x1 x2).ring = s.ring := rfl
@[simp] theorem State.inc_mem (s : State) (x1 : Nat) (x2 : Fld) : (s.inc x1 x2).mem = s.mem := rfl
@[simp] theorem State.inc_tm (s : State) (x1 : Nat) (x2 : Fld) : (s.inc x1 x2).tm = s.tm := rfl
@[simp] theorem State.inc_scan (s : State) (x1 : Nat) (x2 : Fld) : (s.inc x1 x2).scan = s.scan := rfl
@[simp] theorem State.inc_cards (s : State) (x1 : Nat) (x2 : Fld) : (s.inc x1 x2).cards = s.cards := rfl
@[simp] theorem State.inc_chans (s : State) (x1 : Nat) (x2 : Fld) : (s.inc x1 x2).chans = s.chans := rfl
@[simp] theorem State.inc_ucode (s : State) (x1 : Nat) (x2 : Fld) : (s.inc x1 x2).ucode = s.ucode := rfl
@[simp] theorem State.inc_lookWait (s : State) (x1 : Nat) (x2 : Fld) : (s.inc x1 x2).lookWait = s.lookWait := rfl
@[simp] theorem State.inc_looking (s : State) (x1 : Nat) (x2 : Fld) : (s.inc x1 x2).looking = s.looking := rfl
@[simp] theorem State.inc_tw (s : State) (x1 : Nat) (x2 : Fld) : (s.inc x1 x2).tw = s.tw := rfl
@[simp] theorem State.inc_supv (s : State) (x1 : Nat) (x2 : Fld) : (s.inc x1 x2).supv = s.supv := rfl
@[simp] theorem State.inc_br (s : State) (x1 : Nat) (x2 : Fld) : (s.inc x1 x2).br = s.br := rfl
@[simp] theorem State.inc_host (s : State) (x1 : Nat) (x2 : Fld) : (s.inc x1 x2).host = s.host := rfl
@[simp] theorem State.inc_spi (s : State) (x1 : Nat) (x2 : Fld) : (s.inc x1 x2).spi = s.spi := rfl
@[simp] theorem State.inc_ft (s : State) (x1 : Nat) (x2 : Fld) : (s.inc x1 x2).ft = s.ft := rfl
@[simp] theorem State.inc_wear (s : State) (x1 : Nat) (x2 : Fld) : (s.inc x1 x2).wear = s.wear := rfl
@[simp] theorem State.inc_up (s : State) (x1 : Nat) (x2 : Fld) : (s.inc x1 x2).up = s.up := rfl
@[simp] theorem State.inc_fresh (s : State) (x1 : Nat) (x2 : Fld) : (s.inc x1 x2).fresh = s.fresh := rfl
@[simp] theorem State.inc_pending (s : State) (x1 : Nat) (x2 : Fld) : (s.inc x1 x2).pending = s.pending := rfl

@[simp] theorem State.addWrap_shad (s : State) (x1 : Nat) (x2 : Fld) (x3 : Nat) : (s.addWrap x1 x2 x3).shad = s.shad := rfl
@[simp] theorem State.addWrap_stopping (s : State) (x1 : Nat) (x2 : Fld) (x3 : Nat) : (s.addWrap x1 x2 x3).stopping = s.stopping := rfl
@[simp] theorem State.addWrap_ans (s : State) (x1 : Nat) (x2 : Fld) (x3 : Nat) : (s.addWrap x1 x2 x3).ans = s.ans := rfl
@[simp] theorem State.addWrap_faultQ (s : State) (x1 : Nat) (x2 : Fld) (x3 : Nat) : (s.addWrap x1 x2 x3).faultQ = s.faultQ := rfl
@[simp] theorem State.addWrap_iso (s : State) (x1 : Nat) (x2 : Fld) (x3 : Nat) : (s.addWrap x1 x2 x3).iso = s.iso := rfl
@[simp] theorem State.addWrap_gs (s : State) (x1 : Nat) (x2 : Fld) (x3 : Nat) : (s.addWrap x1 x2 x3).gs = s.gs := rfl
@[simp] theorem State.addWrap_isl (s : State) (x1 : Nat) (x2 : Fld) (x3 : Nat) : (s.addWrap x1 x2 x3).isl = s.isl := rfl
@[simp] theorem State.addWrap_pll (s : State) (x1 : Nat) (x2 : Fld) (x3 : Nat) : (s.addWrap x1 x2 x3).pll = s.pll := rfl
@[simp] theorem State.addWrap_spll (s : State) (x1 : Nat) (x2 : Fld) (x3 : Nat) : (s.addWrap x1 x2 x3).spll = s.spll := rfl
@[simp] theorem State.addWrap_mram (s : State) (x1 : Nat) (x2 : Fld) (x3 : Nat) : (s.addWrap x1 x2 x3).mram = s.mram := rfl
@[simp] theorem State.addWrap_lc (s : State) (x1 : Nat) (x2 : Fld) (x3 : Nat) : (s.addWrap x1 x2 x3).lc = s.lc := rfl
@[simp] theorem State.addWrap_ingress (s : State) (x1 : Nat) (x2 : Fld) (x3 : Nat) : (s.addWrap x1 x2 x3).ingress = s.ingress := rfl
@[simp] theorem State.addWrap_core (s : State) (x1 : Nat) (x2 : Fld) (x3 : Nat) : (s.addWrap x1 x2 x3).core = s.core := rfl
@[simp] theorem State.addWrap_ring (s : State) (x1 : Nat) (x2 : Fld) (x3 : Nat) : (s.addWrap x1 x2 x3).ring = s.ring := rfl
@[simp] theorem State.addWrap_mem (s : State) (x1 : Nat) (x2 : Fld) (x3 : Nat) : (s.addWrap x1 x2 x3).mem = s.mem := rfl
@[simp] theorem State.addWrap_tm (s : State) (x1 : Nat) (x2 : Fld) (x3 : Nat) : (s.addWrap x1 x2 x3).tm = s.tm := rfl
@[simp] theorem State.addWrap_scan (s : State) (x1 : Nat) (x2 : Fld) (x3 : Nat) : (s.addWrap x1 x2 x3).scan = s.scan := rfl
@[simp] theorem State.addWrap_cards (s : State) (x1 : Nat) (x2 : Fld) (x3 : Nat) : (s.addWrap x1 x2 x3).cards = s.cards := rfl
@[simp] theorem State.addWrap_chans (s : State) (x1 : Nat) (x2 : Fld) (x3 : Nat) : (s.addWrap x1 x2 x3).chans = s.chans := rfl
@[simp] theorem State.addWrap_ucode (s : State) (x1 : Nat) (x2 : Fld) (x3 : Nat) : (s.addWrap x1 x2 x3).ucode = s.ucode := rfl
@[simp] theorem State.addWrap_lookWait (s : State) (x1 : Nat) (x2 : Fld) (x3 : Nat) : (s.addWrap x1 x2 x3).lookWait = s.lookWait := rfl
@[simp] theorem State.addWrap_looking (s : State) (x1 : Nat) (x2 : Fld) (x3 : Nat) : (s.addWrap x1 x2 x3).looking = s.looking := rfl
@[simp] theorem State.addWrap_tw (s : State) (x1 : Nat) (x2 : Fld) (x3 : Nat) : (s.addWrap x1 x2 x3).tw = s.tw := rfl
@[simp] theorem State.addWrap_supv (s : State) (x1 : Nat) (x2 : Fld) (x3 : Nat) : (s.addWrap x1 x2 x3).supv = s.supv := rfl
@[simp] theorem State.addWrap_br (s : State) (x1 : Nat) (x2 : Fld) (x3 : Nat) : (s.addWrap x1 x2 x3).br = s.br := rfl
@[simp] theorem State.addWrap_host (s : State) (x1 : Nat) (x2 : Fld) (x3 : Nat) : (s.addWrap x1 x2 x3).host = s.host := rfl
@[simp] theorem State.addWrap_spi (s : State) (x1 : Nat) (x2 : Fld) (x3 : Nat) : (s.addWrap x1 x2 x3).spi = s.spi := rfl
@[simp] theorem State.addWrap_ft (s : State) (x1 : Nat) (x2 : Fld) (x3 : Nat) : (s.addWrap x1 x2 x3).ft = s.ft := rfl
@[simp] theorem State.addWrap_wear (s : State) (x1 : Nat) (x2 : Fld) (x3 : Nat) : (s.addWrap x1 x2 x3).wear = s.wear := rfl
@[simp] theorem State.addWrap_up (s : State) (x1 : Nat) (x2 : Fld) (x3 : Nat) : (s.addWrap x1 x2 x3).up = s.up := rfl
@[simp] theorem State.addWrap_fresh (s : State) (x1 : Nat) (x2 : Fld) (x3 : Nat) : (s.addWrap x1 x2 x3).fresh = s.fresh := rfl
@[simp] theorem State.addWrap_pending (s : State) (x1 : Nat) (x2 : Fld) (x3 : Nat) : (s.addWrap x1 x2 x3).pending = s.pending := rfl

@[simp] theorem State.originate_regs (s : State) (x1 : Nat) (x2 : Frame) : (s.originate x1 x2).regs = s.regs := rfl
@[simp] theorem State.originate_shad (s : State) (x1 : Nat) (x2 : Frame) : (s.originate x1 x2).shad = s.shad := rfl
@[simp] theorem State.originate_stopping (s : State) (x1 : Nat) (x2 : Frame) : (s.originate x1 x2).stopping = s.stopping := rfl
@[simp] theorem State.originate_ans (s : State) (x1 : Nat) (x2 : Frame) : (s.originate x1 x2).ans = s.ans := rfl
@[simp] theorem State.originate_faultQ (s : State) (x1 : Nat) (x2 : Frame) : (s.originate x1 x2).faultQ = s.faultQ := rfl
@[simp] theorem State.originate_iso (s : State) (x1 : Nat) (x2 : Frame) : (s.originate x1 x2).iso = s.iso := rfl
@[simp] theorem State.originate_gs (s : State) (x1 : Nat) (x2 : Frame) : (s.originate x1 x2).gs = s.gs := rfl
@[simp] theorem State.originate_isl (s : State) (x1 : Nat) (x2 : Frame) : (s.originate x1 x2).isl = s.isl := rfl
@[simp] theorem State.originate_pll (s : State) (x1 : Nat) (x2 : Frame) : (s.originate x1 x2).pll = s.pll := rfl
@[simp] theorem State.originate_spll (s : State) (x1 : Nat) (x2 : Frame) : (s.originate x1 x2).spll = s.spll := rfl
@[simp] theorem State.originate_mram (s : State) (x1 : Nat) (x2 : Frame) : (s.originate x1 x2).mram = s.mram := rfl
@[simp] theorem State.originate_lc (s : State) (x1 : Nat) (x2 : Frame) : (s.originate x1 x2).lc = s.lc := rfl
@[simp] theorem State.originate_core (s : State) (x1 : Nat) (x2 : Frame) : (s.originate x1 x2).core = s.core := rfl
@[simp] theorem State.originate_ring (s : State) (x1 : Nat) (x2 : Frame) : (s.originate x1 x2).ring = s.ring := rfl
@[simp] theorem State.originate_mem (s : State) (x1 : Nat) (x2 : Frame) : (s.originate x1 x2).mem = s.mem := rfl
@[simp] theorem State.originate_tm (s : State) (x1 : Nat) (x2 : Frame) : (s.originate x1 x2).tm = s.tm := rfl
@[simp] theorem State.originate_scan (s : State) (x1 : Nat) (x2 : Frame) : (s.originate x1 x2).scan = s.scan := rfl
@[simp] theorem State.originate_cards (s : State) (x1 : Nat) (x2 : Frame) : (s.originate x1 x2).cards = s.cards := rfl
@[simp] theorem State.originate_chans (s : State) (x1 : Nat) (x2 : Frame) : (s.originate x1 x2).chans = s.chans := rfl
@[simp] theorem State.originate_ucode (s : State) (x1 : Nat) (x2 : Frame) : (s.originate x1 x2).ucode = s.ucode := rfl
@[simp] theorem State.originate_lookWait (s : State) (x1 : Nat) (x2 : Frame) : (s.originate x1 x2).lookWait = s.lookWait := rfl
@[simp] theorem State.originate_looking (s : State) (x1 : Nat) (x2 : Frame) : (s.originate x1 x2).looking = s.looking := rfl
@[simp] theorem State.originate_tw (s : State) (x1 : Nat) (x2 : Frame) : (s.originate x1 x2).tw = s.tw := rfl
@[simp] theorem State.originate_supv (s : State) (x1 : Nat) (x2 : Frame) : (s.originate x1 x2).supv = s.supv := rfl
@[simp] theorem State.originate_br (s : State) (x1 : Nat) (x2 : Frame) : (s.originate x1 x2).br = s.br := rfl
@[simp] theorem State.originate_host (s : State) (x1 : Nat) (x2 : Frame) : (s.originate x1 x2).host = s.host := rfl
@[simp] theorem State.originate_spi (s : State) (x1 : Nat) (x2 : Frame) : (s.originate x1 x2).spi = s.spi := rfl
@[simp] theorem State.originate_ft (s : State) (x1 : Nat) (x2 : Frame) : (s.originate x1 x2).ft = s.ft := rfl
@[simp] theorem State.originate_wear (s : State) (x1 : Nat) (x2 : Frame) : (s.originate x1 x2).wear = s.wear := rfl
@[simp] theorem State.originate_up (s : State) (x1 : Nat) (x2 : Frame) : (s.originate x1 x2).up = s.up := rfl
@[simp] theorem State.originate_fresh (s : State) (x1 : Nat) (x2 : Frame) : (s.originate x1 x2).fresh = s.fresh := rfl
@[simp] theorem State.originate_pending (s : State) (x1 : Nat) (x2 : Frame) : (s.originate x1 x2).pending = s.pending := rfl

@[simp] theorem State.direct_regs (s : State) (x1 : Nat) (x2 : Nat) (x3 : Frame) : (s.direct x1 x2 x3).regs = s.regs := rfl
@[simp] theorem State.direct_shad (s : State) (x1 : Nat) (x2 : Nat) (x3 : Frame) : (s.direct x1 x2 x3).shad = s.shad := rfl
@[simp] theorem State.direct_stopping (s : State) (x1 : Nat) (x2 : Nat) (x3 : Frame) : (s.direct x1 x2 x3).stopping = s.stopping := rfl
@[simp] theorem State.direct_ans (s : State) (x1 : Nat) (x2 : Nat) (x3 : Frame) : (s.direct x1 x2 x3).ans = s.ans := rfl
@[simp] theorem State.direct_faultQ (s : State) (x1 : Nat) (x2 : Nat) (x3 : Frame) : (s.direct x1 x2 x3).faultQ = s.faultQ := rfl
@[simp] theorem State.direct_iso (s : State) (x1 : Nat) (x2 : Nat) (x3 : Frame) : (s.direct x1 x2 x3).iso = s.iso := rfl
@[simp] theorem State.direct_gs (s : State) (x1 : Nat) (x2 : Nat) (x3 : Frame) : (s.direct x1 x2 x3).gs = s.gs := rfl
@[simp] theorem State.direct_isl (s : State) (x1 : Nat) (x2 : Nat) (x3 : Frame) : (s.direct x1 x2 x3).isl = s.isl := rfl
@[simp] theorem State.direct_pll (s : State) (x1 : Nat) (x2 : Nat) (x3 : Frame) : (s.direct x1 x2 x3).pll = s.pll := rfl
@[simp] theorem State.direct_spll (s : State) (x1 : Nat) (x2 : Nat) (x3 : Frame) : (s.direct x1 x2 x3).spll = s.spll := rfl
@[simp] theorem State.direct_mram (s : State) (x1 : Nat) (x2 : Nat) (x3 : Frame) : (s.direct x1 x2 x3).mram = s.mram := rfl
@[simp] theorem State.direct_lc (s : State) (x1 : Nat) (x2 : Nat) (x3 : Frame) : (s.direct x1 x2 x3).lc = s.lc := rfl
@[simp] theorem State.direct_core (s : State) (x1 : Nat) (x2 : Nat) (x3 : Frame) : (s.direct x1 x2 x3).core = s.core := rfl
@[simp] theorem State.direct_ring (s : State) (x1 : Nat) (x2 : Nat) (x3 : Frame) : (s.direct x1 x2 x3).ring = s.ring := rfl
@[simp] theorem State.direct_mem (s : State) (x1 : Nat) (x2 : Nat) (x3 : Frame) : (s.direct x1 x2 x3).mem = s.mem := rfl
@[simp] theorem State.direct_tm (s : State) (x1 : Nat) (x2 : Nat) (x3 : Frame) : (s.direct x1 x2 x3).tm = s.tm := rfl
@[simp] theorem State.direct_scan (s : State) (x1 : Nat) (x2 : Nat) (x3 : Frame) : (s.direct x1 x2 x3).scan = s.scan := rfl
@[simp] theorem State.direct_cards (s : State) (x1 : Nat) (x2 : Nat) (x3 : Frame) : (s.direct x1 x2 x3).cards = s.cards := rfl
@[simp] theorem State.direct_chans (s : State) (x1 : Nat) (x2 : Nat) (x3 : Frame) : (s.direct x1 x2 x3).chans = s.chans := rfl
@[simp] theorem State.direct_ucode (s : State) (x1 : Nat) (x2 : Nat) (x3 : Frame) : (s.direct x1 x2 x3).ucode = s.ucode := rfl
@[simp] theorem State.direct_lookWait (s : State) (x1 : Nat) (x2 : Nat) (x3 : Frame) : (s.direct x1 x2 x3).lookWait = s.lookWait := rfl
@[simp] theorem State.direct_looking (s : State) (x1 : Nat) (x2 : Nat) (x3 : Frame) : (s.direct x1 x2 x3).looking = s.looking := rfl
@[simp] theorem State.direct_tw (s : State) (x1 : Nat) (x2 : Nat) (x3 : Frame) : (s.direct x1 x2 x3).tw = s.tw := rfl
@[simp] theorem State.direct_supv (s : State) (x1 : Nat) (x2 : Nat) (x3 : Frame) : (s.direct x1 x2 x3).supv = s.supv := rfl
@[simp] theorem State.direct_br (s : State) (x1 : Nat) (x2 : Nat) (x3 : Frame) : (s.direct x1 x2 x3).br = s.br := rfl
@[simp] theorem State.direct_host (s : State) (x1 : Nat) (x2 : Nat) (x3 : Frame) : (s.direct x1 x2 x3).host = s.host := rfl
@[simp] theorem State.direct_spi (s : State) (x1 : Nat) (x2 : Nat) (x3 : Frame) : (s.direct x1 x2 x3).spi = s.spi := rfl
@[simp] theorem State.direct_ft (s : State) (x1 : Nat) (x2 : Nat) (x3 : Frame) : (s.direct x1 x2 x3).ft = s.ft := rfl
@[simp] theorem State.direct_wear (s : State) (x1 : Nat) (x2 : Nat) (x3 : Frame) : (s.direct x1 x2 x3).wear = s.wear := rfl
@[simp] theorem State.direct_up (s : State) (x1 : Nat) (x2 : Nat) (x3 : Frame) : (s.direct x1 x2 x3).up = s.up := rfl
@[simp] theorem State.direct_fresh (s : State) (x1 : Nat) (x2 : Nat) (x3 : Frame) : (s.direct x1 x2 x3).fresh = s.fresh := rfl
@[simp] theorem State.direct_pending (s : State) (x1 : Nat) (x2 : Nat) (x3 : Frame) : (s.direct x1 x2 x3).pending = s.pending := rfl

@[simp] theorem State.setEnable_shad (s : State) (x1 : Nat) (x2 : Bool) (x3 : Bool) : (s.setEnable x1 x2 x3).shad = s.shad := rfl
@[simp] theorem State.setEnable_ans (s : State) (x1 : Nat) (x2 : Bool) (x3 : Bool) : (s.setEnable x1 x2 x3).ans = s.ans := rfl
@[simp] theorem State.setEnable_faultQ (s : State) (x1 : Nat) (x2 : Bool) (x3 : Bool) : (s.setEnable x1 x2 x3).faultQ = s.faultQ := rfl
@[simp] theorem State.setEnable_iso (s : State) (x1 : Nat) (x2 : Bool) (x3 : Bool) : (s.setEnable x1 x2 x3).iso = s.iso := rfl
@[simp] theorem State.setEnable_gs (s : State) (x1 : Nat) (x2 : Bool) (x3 : Bool) : (s.setEnable x1 x2 x3).gs = s.gs := rfl
@[simp] theorem State.setEnable_isl (s : State) (x1 : Nat) (x2 : Bool) (x3 : Bool) : (s.setEnable x1 x2 x3).isl = s.isl := rfl
@[simp] theorem State.setEnable_pll (s : State) (x1 : Nat) (x2 : Bool) (x3 : Bool) : (s.setEnable x1 x2 x3).pll = s.pll := rfl
@[simp] theorem State.setEnable_spll (s : State) (x1 : Nat) (x2 : Bool) (x3 : Bool) : (s.setEnable x1 x2 x3).spll = s.spll := rfl
@[simp] theorem State.setEnable_mram (s : State) (x1 : Nat) (x2 : Bool) (x3 : Bool) : (s.setEnable x1 x2 x3).mram = s.mram := rfl
@[simp] theorem State.setEnable_lc (s : State) (x1 : Nat) (x2 : Bool) (x3 : Bool) : (s.setEnable x1 x2 x3).lc = s.lc := rfl
@[simp] theorem State.setEnable_ingress (s : State) (x1 : Nat) (x2 : Bool) (x3 : Bool) : (s.setEnable x1 x2 x3).ingress = s.ingress := rfl
@[simp] theorem State.setEnable_core (s : State) (x1 : Nat) (x2 : Bool) (x3 : Bool) : (s.setEnable x1 x2 x3).core = s.core := rfl
@[simp] theorem State.setEnable_ring (s : State) (x1 : Nat) (x2 : Bool) (x3 : Bool) : (s.setEnable x1 x2 x3).ring = s.ring := rfl
@[simp] theorem State.setEnable_mem (s : State) (x1 : Nat) (x2 : Bool) (x3 : Bool) : (s.setEnable x1 x2 x3).mem = s.mem := rfl
@[simp] theorem State.setEnable_tm (s : State) (x1 : Nat) (x2 : Bool) (x3 : Bool) : (s.setEnable x1 x2 x3).tm = s.tm := rfl
@[simp] theorem State.setEnable_scan (s : State) (x1 : Nat) (x2 : Bool) (x3 : Bool) : (s.setEnable x1 x2 x3).scan = s.scan := rfl
@[simp] theorem State.setEnable_cards (s : State) (x1 : Nat) (x2 : Bool) (x3 : Bool) : (s.setEnable x1 x2 x3).cards = s.cards := rfl
@[simp] theorem State.setEnable_chans (s : State) (x1 : Nat) (x2 : Bool) (x3 : Bool) : (s.setEnable x1 x2 x3).chans = s.chans := rfl
@[simp] theorem State.setEnable_ucode (s : State) (x1 : Nat) (x2 : Bool) (x3 : Bool) : (s.setEnable x1 x2 x3).ucode = s.ucode := rfl
@[simp] theorem State.setEnable_lookWait (s : State) (x1 : Nat) (x2 : Bool) (x3 : Bool) : (s.setEnable x1 x2 x3).lookWait = s.lookWait := rfl
@[simp] theorem State.setEnable_looking (s : State) (x1 : Nat) (x2 : Bool) (x3 : Bool) : (s.setEnable x1 x2 x3).looking = s.looking := rfl
@[simp] theorem State.setEnable_tw (s : State) (x1 : Nat) (x2 : Bool) (x3 : Bool) : (s.setEnable x1 x2 x3).tw = s.tw := rfl
@[simp] theorem State.setEnable_supv (s : State) (x1 : Nat) (x2 : Bool) (x3 : Bool) : (s.setEnable x1 x2 x3).supv = s.supv := rfl
@[simp] theorem State.setEnable_br (s : State) (x1 : Nat) (x2 : Bool) (x3 : Bool) : (s.setEnable x1 x2 x3).br = s.br := rfl
@[simp] theorem State.setEnable_host (s : State) (x1 : Nat) (x2 : Bool) (x3 : Bool) : (s.setEnable x1 x2 x3).host = s.host := rfl
@[simp] theorem State.setEnable_spi (s : State) (x1 : Nat) (x2 : Bool) (x3 : Bool) : (s.setEnable x1 x2 x3).spi = s.spi := rfl
@[simp] theorem State.setEnable_ft (s : State) (x1 : Nat) (x2 : Bool) (x3 : Bool) : (s.setEnable x1 x2 x3).ft = s.ft := rfl
@[simp] theorem State.setEnable_wear (s : State) (x1 : Nat) (x2 : Bool) (x3 : Bool) : (s.setEnable x1 x2 x3).wear = s.wear := rfl
@[simp] theorem State.setEnable_up (s : State) (x1 : Nat) (x2 : Bool) (x3 : Bool) : (s.setEnable x1 x2 x3).up = s.up := rfl
@[simp] theorem State.setEnable_fresh (s : State) (x1 : Nat) (x2 : Bool) (x3 : Bool) : (s.setEnable x1 x2 x3).fresh = s.fresh := rfl
@[simp] theorem State.setEnable_pending (s : State) (x1 : Nat) (x2 : Bool) (x3 : Bool) : (s.setEnable x1 x2 x3).pending = s.pending := rfl

@[simp] theorem State.raiseBit_shad (s : State) (x1 : Nat) (x2 : Nat) : (s.raiseBit x1 x2).shad = s.shad := by simp [State.raiseBit]
@[simp] theorem State.raiseBit_stopping (s : State) (x1 : Nat) (x2 : Nat) : (s.raiseBit x1 x2).stopping = s.stopping := by simp [State.raiseBit]
@[simp] theorem State.raiseBit_ans (s : State) (x1 : Nat) (x2 : Nat) : (s.raiseBit x1 x2).ans = s.ans := by simp [State.raiseBit]
@[simp] theorem State.raiseBit_faultQ (s : State) (x1 : Nat) (x2 : Nat) : (s.raiseBit x1 x2).faultQ = s.faultQ := by simp [State.raiseBit]
@[simp] theorem State.raiseBit_iso (s : State) (x1 : Nat) (x2 : Nat) : (s.raiseBit x1 x2).iso = s.iso := by simp [State.raiseBit]
@[simp] theorem State.raiseBit_gs (s : State) (x1 : Nat) (x2 : Nat) : (s.raiseBit x1 x2).gs = s.gs := by simp [State.raiseBit]
@[simp] theorem State.raiseBit_isl (s : State) (x1 : Nat) (x2 : Nat) : (s.raiseBit x1 x2).isl = s.isl := by simp [State.raiseBit]
@[simp] theorem State.raiseBit_pll (s : State) (x1 : Nat) (x2 : Nat) : (s.raiseBit x1 x2).pll = s.pll := by simp [State.raiseBit]
@[simp] theorem State.raiseBit_spll (s : State) (x1 : Nat) (x2 : Nat) : (s.raiseBit x1 x2).spll = s.spll := by simp [State.raiseBit]
@[simp] theorem State.raiseBit_mram (s : State) (x1 : Nat) (x2 : Nat) : (s.raiseBit x1 x2).mram = s.mram := by simp [State.raiseBit]
@[simp] theorem State.raiseBit_lc (s : State) (x1 : Nat) (x2 : Nat) : (s.raiseBit x1 x2).lc = s.lc := by simp [State.raiseBit]
@[simp] theorem State.raiseBit_core (s : State) (x1 : Nat) (x2 : Nat) : (s.raiseBit x1 x2).core = s.core := by simp [State.raiseBit]
@[simp] theorem State.raiseBit_ring (s : State) (x1 : Nat) (x2 : Nat) : (s.raiseBit x1 x2).ring = s.ring := by simp [State.raiseBit]
@[simp] theorem State.raiseBit_mem (s : State) (x1 : Nat) (x2 : Nat) : (s.raiseBit x1 x2).mem = s.mem := by simp [State.raiseBit]
@[simp] theorem State.raiseBit_tm (s : State) (x1 : Nat) (x2 : Nat) : (s.raiseBit x1 x2).tm = s.tm := by simp [State.raiseBit]
@[simp] theorem State.raiseBit_scan (s : State) (x1 : Nat) (x2 : Nat) : (s.raiseBit x1 x2).scan = s.scan := by simp [State.raiseBit]
@[simp] theorem State.raiseBit_cards (s : State) (x1 : Nat) (x2 : Nat) : (s.raiseBit x1 x2).cards = s.cards := by simp [State.raiseBit]
@[simp] theorem State.raiseBit_chans (s : State) (x1 : Nat) (x2 : Nat) : (s.raiseBit x1 x2).chans = s.chans := by simp [State.raiseBit]
@[simp] theorem State.raiseBit_ucode (s : State) (x1 : Nat) (x2 : Nat) : (s.raiseBit x1 x2).ucode = s.ucode := by simp [State.raiseBit]
@[simp] theorem State.raiseBit_lookWait (s : State) (x1 : Nat) (x2 : Nat) : (s.raiseBit x1 x2).lookWait = s.lookWait := by simp [State.raiseBit]
@[simp] theorem State.raiseBit_looking (s : State) (x1 : Nat) (x2 : Nat) : (s.raiseBit x1 x2).looking = s.looking := by simp [State.raiseBit]
@[simp] theorem State.raiseBit_tw (s : State) (x1 : Nat) (x2 : Nat) : (s.raiseBit x1 x2).tw = s.tw := by simp [State.raiseBit]
@[simp] theorem State.raiseBit_supv (s : State) (x1 : Nat) (x2 : Nat) : (s.raiseBit x1 x2).supv = s.supv := by simp [State.raiseBit]
@[simp] theorem State.raiseBit_br (s : State) (x1 : Nat) (x2 : Nat) : (s.raiseBit x1 x2).br = s.br := by simp [State.raiseBit]
@[simp] theorem State.raiseBit_host (s : State) (x1 : Nat) (x2 : Nat) : (s.raiseBit x1 x2).host = s.host := by simp [State.raiseBit]
@[simp] theorem State.raiseBit_spi (s : State) (x1 : Nat) (x2 : Nat) : (s.raiseBit x1 x2).spi = s.spi := by simp [State.raiseBit]
@[simp] theorem State.raiseBit_ft (s : State) (x1 : Nat) (x2 : Nat) : (s.raiseBit x1 x2).ft = s.ft := by simp [State.raiseBit]
@[simp] theorem State.raiseBit_wear (s : State) (x1 : Nat) (x2 : Nat) : (s.raiseBit x1 x2).wear = s.wear := by simp [State.raiseBit]
@[simp] theorem State.raiseBit_up (s : State) (x1 : Nat) (x2 : Nat) : (s.raiseBit x1 x2).up = s.up := by simp [State.raiseBit]
@[simp] theorem State.raiseBit_fresh (s : State) (x1 : Nat) (x2 : Nat) : (s.raiseBit x1 x2).fresh = s.fresh := by simp [State.raiseBit]
@[simp] theorem State.raiseBit_pending (s : State) (x1 : Nat) (x2 : Nat) : (s.raiseBit x1 x2).pending = s.pending := by simp [State.raiseBit]

@[simp] theorem State.raise_shad (s : State) (x1 : Nat) (x2 : Nat) : (s.raise x1 x2).shad = s.shad := by unfold State.raise; split <;> simp
@[simp] theorem State.raise_stopping (s : State) (x1 : Nat) (x2 : Nat) : (s.raise x1 x2).stopping = s.stopping := by unfold State.raise; split <;> simp
@[simp] theorem State.raise_ans (s : State) (x1 : Nat) (x2 : Nat) : (s.raise x1 x2).ans = s.ans := by unfold State.raise; split <;> simp
@[simp] theorem State.raise_iso (s : State) (x1 : Nat) (x2 : Nat) : (s.raise x1 x2).iso = s.iso := by unfold State.raise; split <;> simp
@[simp] theorem State.raise_gs (s : State) (x1 : Nat) (x2 : Nat) : (s.raise x1 x2).gs = s.gs := by unfold State.raise; split <;> simp
@[simp] theorem State.raise_isl (s : State) (x1 : Nat) (x2 : Nat) : (s.raise x1 x2).isl = s.isl := by unfold State.raise; split <;> simp
@[simp] theorem State.raise_pll (s : State) (x1 : Nat) (x2 : Nat) : (s.raise x1 x2).pll = s.pll := by unfold State.raise; split <;> simp
@[simp] theorem State.raise_spll (s : State) (x1 : Nat) (x2 : Nat) : (s.raise x1 x2).spll = s.spll := by unfold State.raise; split <;> simp
@[simp] theorem State.raise_mram (s : State) (x1 : Nat) (x2 : Nat) : (s.raise x1 x2).mram = s.mram := by unfold State.raise; split <;> simp
@[simp] theorem State.raise_lc (s : State) (x1 : Nat) (x2 : Nat) : (s.raise x1 x2).lc = s.lc := by unfold State.raise; split <;> simp
@[simp] theorem State.raise_core (s : State) (x1 : Nat) (x2 : Nat) : (s.raise x1 x2).core = s.core := by unfold State.raise; split <;> simp
@[simp] theorem State.raise_ring (s : State) (x1 : Nat) (x2 : Nat) : (s.raise x1 x2).ring = s.ring := by unfold State.raise; split <;> simp
@[simp] theorem State.raise_mem (s : State) (x1 : Nat) (x2 : Nat) : (s.raise x1 x2).mem = s.mem := by unfold State.raise; split <;> simp
@[simp] theorem State.raise_tm (s : State) (x1 : Nat) (x2 : Nat) : (s.raise x1 x2).tm = s.tm := by unfold State.raise; split <;> simp
@[simp] theorem State.raise_scan (s : State) (x1 : Nat) (x2 : Nat) : (s.raise x1 x2).scan = s.scan := by unfold State.raise; split <;> simp
@[simp] theorem State.raise_cards (s : State) (x1 : Nat) (x2 : Nat) : (s.raise x1 x2).cards = s.cards := by unfold State.raise; split <;> simp
@[simp] theorem State.raise_chans (s : State) (x1 : Nat) (x2 : Nat) : (s.raise x1 x2).chans = s.chans := by unfold State.raise; split <;> simp
@[simp] theorem State.raise_ucode (s : State) (x1 : Nat) (x2 : Nat) : (s.raise x1 x2).ucode = s.ucode := by unfold State.raise; split <;> simp
@[simp] theorem State.raise_lookWait (s : State) (x1 : Nat) (x2 : Nat) : (s.raise x1 x2).lookWait = s.lookWait := by unfold State.raise; split <;> simp
@[simp] theorem State.raise_looking (s : State) (x1 : Nat) (x2 : Nat) : (s.raise x1 x2).looking = s.looking := by unfold State.raise; split <;> simp
@[simp] theorem State.raise_tw (s : State) (x1 : Nat) (x2 : Nat) : (s.raise x1 x2).tw = s.tw := by unfold State.raise; split <;> simp
@[simp] theorem State.raise_supv (s : State) (x1 : Nat) (x2 : Nat) : (s.raise x1 x2).supv = s.supv := by unfold State.raise; split <;> simp
@[simp] theorem State.raise_br (s : State) (x1 : Nat) (x2 : Nat) : (s.raise x1 x2).br = s.br := by unfold State.raise; split <;> simp
@[simp] theorem State.raise_host (s : State) (x1 : Nat) (x2 : Nat) : (s.raise x1 x2).host = s.host := by unfold State.raise; split <;> simp
@[simp] theorem State.raise_spi (s : State) (x1 : Nat) (x2 : Nat) : (s.raise x1 x2).spi = s.spi := by unfold State.raise; split <;> simp
@[simp] theorem State.raise_ft (s : State) (x1 : Nat) (x2 : Nat) : (s.raise x1 x2).ft = s.ft := by unfold State.raise; split <;> simp
@[simp] theorem State.raise_wear (s : State) (x1 : Nat) (x2 : Nat) : (s.raise x1 x2).wear = s.wear := by unfold State.raise; split <;> simp
@[simp] theorem State.raise_up (s : State) (x1 : Nat) (x2 : Nat) : (s.raise x1 x2).up = s.up := by unfold State.raise; split <;> simp
@[simp] theorem State.raise_fresh (s : State) (x1 : Nat) (x2 : Nat) : (s.raise x1 x2).fresh = s.fresh := by unfold State.raise; split <;> simp
@[simp] theorem State.raise_pending (s : State) (x1 : Nat) (x2 : Nat) : (s.raise x1 x2).pending = s.pending := by unfold State.raise; split <;> simp

@[simp] theorem State.raiseIf_shad (s : State) (x1 : Bool) (x2 : Nat) (x3 : Nat) : (s.raiseIf x1 x2 x3).shad = s.shad := by unfold State.raiseIf; split <;> simp
@[simp] theorem State.raiseIf_stopping (s : State) (x1 : Bool) (x2 : Nat) (x3 : Nat) : (s.raiseIf x1 x2 x3).stopping = s.stopping := by unfold State.raiseIf; split <;> simp
@[simp] theorem State.raiseIf_ans (s : State) (x1 : Bool) (x2 : Nat) (x3 : Nat) : (s.raiseIf x1 x2 x3).ans = s.ans := by unfold State.raiseIf; split <;> simp
@[simp] theorem State.raiseIf_iso (s : State) (x1 : Bool) (x2 : Nat) (x3 : Nat) : (s.raiseIf x1 x2 x3).iso = s.iso := by unfold State.raiseIf; split <;> simp
@[simp] theorem State.raiseIf_gs (s : State) (x1 : Bool) (x2 : Nat) (x3 : Nat) : (s.raiseIf x1 x2 x3).gs = s.gs := by unfold State.raiseIf; split <;> simp
@[simp] theorem State.raiseIf_isl (s : State) (x1 : Bool) (x2 : Nat) (x3 : Nat) : (s.raiseIf x1 x2 x3).isl = s.isl := by unfold State.raiseIf; split <;> simp
@[simp] theorem State.raiseIf_pll (s : State) (x1 : Bool) (x2 : Nat) (x3 : Nat) : (s.raiseIf x1 x2 x3).pll = s.pll := by unfold State.raiseIf; split <;> simp
@[simp] theorem State.raiseIf_spll (s : State) (x1 : Bool) (x2 : Nat) (x3 : Nat) : (s.raiseIf x1 x2 x3).spll = s.spll := by unfold State.raiseIf; split <;> simp
@[simp] theorem State.raiseIf_mram (s : State) (x1 : Bool) (x2 : Nat) (x3 : Nat) : (s.raiseIf x1 x2 x3).mram = s.mram := by unfold State.raiseIf; split <;> simp
@[simp] theorem State.raiseIf_lc (s : State) (x1 : Bool) (x2 : Nat) (x3 : Nat) : (s.raiseIf x1 x2 x3).lc = s.lc := by unfold State.raiseIf; split <;> simp
@[simp] theorem State.raiseIf_core (s : State) (x1 : Bool) (x2 : Nat) (x3 : Nat) : (s.raiseIf x1 x2 x3).core = s.core := by unfold State.raiseIf; split <;> simp
@[simp] theorem State.raiseIf_ring (s : State) (x1 : Bool) (x2 : Nat) (x3 : Nat) : (s.raiseIf x1 x2 x3).ring = s.ring := by unfold State.raiseIf; split <;> simp
@[simp] theorem State.raiseIf_mem (s : State) (x1 : Bool) (x2 : Nat) (x3 : Nat) : (s.raiseIf x1 x2 x3).mem = s.mem := by unfold State.raiseIf; split <;> simp
@[simp] theorem State.raiseIf_tm (s : State) (x1 : Bool) (x2 : Nat) (x3 : Nat) : (s.raiseIf x1 x2 x3).tm = s.tm := by unfold State.raiseIf; split <;> simp
@[simp] theorem State.raiseIf_scan (s : State) (x1 : Bool) (x2 : Nat) (x3 : Nat) : (s.raiseIf x1 x2 x3).scan = s.scan := by unfold State.raiseIf; split <;> simp
@[simp] theorem State.raiseIf_cards (s : State) (x1 : Bool) (x2 : Nat) (x3 : Nat) : (s.raiseIf x1 x2 x3).cards = s.cards := by unfold State.raiseIf; split <;> simp
@[simp] theorem State.raiseIf_chans (s : State) (x1 : Bool) (x2 : Nat) (x3 : Nat) : (s.raiseIf x1 x2 x3).chans = s.chans := by unfold State.raiseIf; split <;> simp
@[simp] theorem State.raiseIf_ucode (s : State) (x1 : Bool) (x2 : Nat) (x3 : Nat) : (s.raiseIf x1 x2 x3).ucode = s.ucode := by unfold State.raiseIf; split <;> simp
@[simp] theorem State.raiseIf_lookWait (s : State) (x1 : Bool) (x2 : Nat) (x3 : Nat) : (s.raiseIf x1 x2 x3).lookWait = s.lookWait := by unfold State.raiseIf; split <;> simp
@[simp] theorem State.raiseIf_looking (s : State) (x1 : Bool) (x2 : Nat) (x3 : Nat) : (s.raiseIf x1 x2 x3).looking = s.looking := by unfold State.raiseIf; split <;> simp
@[simp] theorem State.raiseIf_tw (s : State) (x1 : Bool) (x2 : Nat) (x3 : Nat) : (s.raiseIf x1 x2 x3).tw = s.tw := by unfold State.raiseIf; split <;> simp
@[simp] theorem State.raiseIf_supv (s : State) (x1 : Bool) (x2 : Nat) (x3 : Nat) : (s.raiseIf x1 x2 x3).supv = s.supv := by unfold State.raiseIf; split <;> simp
@[simp] theorem State.raiseIf_br (s : State) (x1 : Bool) (x2 : Nat) (x3 : Nat) : (s.raiseIf x1 x2 x3).br = s.br := by unfold State.raiseIf; split <;> simp
@[simp] theorem State.raiseIf_host (s : State) (x1 : Bool) (x2 : Nat) (x3 : Nat) : (s.raiseIf x1 x2 x3).host = s.host := by unfold State.raiseIf; split <;> simp
@[simp] theorem State.raiseIf_spi (s : State) (x1 : Bool) (x2 : Nat) (x3 : Nat) : (s.raiseIf x1 x2 x3).spi = s.spi := by unfold State.raiseIf; split <;> simp
@[simp] theorem State.raiseIf_ft (s : State) (x1 : Bool) (x2 : Nat) (x3 : Nat) : (s.raiseIf x1 x2 x3).ft = s.ft := by unfold State.raiseIf; split <;> simp
@[simp] theorem State.raiseIf_wear (s : State) (x1 : Bool) (x2 : Nat) (x3 : Nat) : (s.raiseIf x1 x2 x3).wear = s.wear := by unfold State.raiseIf; split <;> simp
@[simp] theorem State.raiseIf_up (s : State) (x1 : Bool) (x2 : Nat) (x3 : Nat) : (s.raiseIf x1 x2 x3).up = s.up := by unfold State.raiseIf; split <;> simp
@[simp] theorem State.raiseIf_fresh (s : State) (x1 : Bool) (x2 : Nat) (x3 : Nat) : (s.raiseIf x1 x2 x3).fresh = s.fresh := by unfold State.raiseIf; split <;> simp
@[simp] theorem State.raiseIf_pending (s : State) (x1 : Bool) (x2 : Nat) (x3 : Nat) : (s.raiseIf x1 x2 x3).pending = s.pending := by unfold State.raiseIf; split <;> simp

@[simp] theorem State.setState_shad (s : State) (x1 : Nat) (x2 : Fld) (x3 : Bool) : (s.setState x1 x2 x3).shad = s.shad := by unfold State.setState; split <;> simp
@[simp] theorem State.setState_stopping (s : State) (x1 : Nat) (x2 : Fld) (x3 : Bool) : (s.setState x1 x2 x3).stopping = s.stopping := by unfold State.setState; split <;> simp
@[simp] theorem State.setState_ans (s : State) (x1 : Nat) (x2 : Fld) (x3 : Bool) : (s.setState x1 x2 x3).ans = s.ans := by unfold State.setState; split <;> simp
@[simp] theorem State.setState_iso (s : State) (x1 : Nat) (x2 : Fld) (x3 : Bool) : (s.setState x1 x2 x3).iso = s.iso := by unfold State.setState; split <;> simp
@[simp] theorem State.setState_gs (s : State) (x1 : Nat) (x2 : Fld) (x3 : Bool) : (s.setState x1 x2 x3).gs = s.gs := by unfold State.setState; split <;> simp
@[simp] theorem State.setState_isl (s : State) (x1 : Nat) (x2 : Fld) (x3 : Bool) : (s.setState x1 x2 x3).isl = s.isl := by unfold State.setState; split <;> simp
@[simp] theorem State.setState_pll (s : State) (x1 : Nat) (x2 : Fld) (x3 : Bool) : (s.setState x1 x2 x3).pll = s.pll := by unfold State.setState; split <;> simp
@[simp] theorem State.setState_spll (s : State) (x1 : Nat) (x2 : Fld) (x3 : Bool) : (s.setState x1 x2 x3).spll = s.spll := by unfold State.setState; split <;> simp
@[simp] theorem State.setState_mram (s : State) (x1 : Nat) (x2 : Fld) (x3 : Bool) : (s.setState x1 x2 x3).mram = s.mram := by unfold State.setState; split <;> simp
@[simp] theorem State.setState_lc (s : State) (x1 : Nat) (x2 : Fld) (x3 : Bool) : (s.setState x1 x2 x3).lc = s.lc := by unfold State.setState; split <;> simp
@[simp] theorem State.setState_core (s : State) (x1 : Nat) (x2 : Fld) (x3 : Bool) : (s.setState x1 x2 x3).core = s.core := by unfold State.setState; split <;> simp
@[simp] theorem State.setState_ring (s : State) (x1 : Nat) (x2 : Fld) (x3 : Bool) : (s.setState x1 x2 x3).ring = s.ring := by unfold State.setState; split <;> simp
@[simp] theorem State.setState_mem (s : State) (x1 : Nat) (x2 : Fld) (x3 : Bool) : (s.setState x1 x2 x3).mem = s.mem := by unfold State.setState; split <;> simp
@[simp] theorem State.setState_tm (s : State) (x1 : Nat) (x2 : Fld) (x3 : Bool) : (s.setState x1 x2 x3).tm = s.tm := by unfold State.setState; split <;> simp
@[simp] theorem State.setState_scan (s : State) (x1 : Nat) (x2 : Fld) (x3 : Bool) : (s.setState x1 x2 x3).scan = s.scan := by unfold State.setState; split <;> simp
@[simp] theorem State.setState_cards (s : State) (x1 : Nat) (x2 : Fld) (x3 : Bool) : (s.setState x1 x2 x3).cards = s.cards := by unfold State.setState; split <;> simp
@[simp] theorem State.setState_chans (s : State) (x1 : Nat) (x2 : Fld) (x3 : Bool) : (s.setState x1 x2 x3).chans = s.chans := by unfold State.setState; split <;> simp
@[simp] theorem State.setState_ucode (s : State) (x1 : Nat) (x2 : Fld) (x3 : Bool) : (s.setState x1 x2 x3).ucode = s.ucode := by unfold State.setState; split <;> simp
@[simp] theorem State.setState_lookWait (s : State) (x1 : Nat) (x2 : Fld) (x3 : Bool) : (s.setState x1 x2 x3).lookWait = s.lookWait := by unfold State.setState; split <;> simp
@[simp] theorem State.setState_looking (s : State) (x1 : Nat) (x2 : Fld) (x3 : Bool) : (s.setState x1 x2 x3).looking = s.looking := by unfold State.setState; split <;> simp
@[simp] theorem State.setState_tw (s : State) (x1 : Nat) (x2 : Fld) (x3 : Bool) : (s.setState x1 x2 x3).tw = s.tw := by unfold State.setState; split <;> simp
@[simp] theorem State.setState_supv (s : State) (x1 : Nat) (x2 : Fld) (x3 : Bool) : (s.setState x1 x2 x3).supv = s.supv := by unfold State.setState; split <;> simp
@[simp] theorem State.setState_br (s : State) (x1 : Nat) (x2 : Fld) (x3 : Bool) : (s.setState x1 x2 x3).br = s.br := by unfold State.setState; split <;> simp
@[simp] theorem State.setState_host (s : State) (x1 : Nat) (x2 : Fld) (x3 : Bool) : (s.setState x1 x2 x3).host = s.host := by unfold State.setState; split <;> simp
@[simp] theorem State.setState_spi (s : State) (x1 : Nat) (x2 : Fld) (x3 : Bool) : (s.setState x1 x2 x3).spi = s.spi := by unfold State.setState; split <;> simp
@[simp] theorem State.setState_ft (s : State) (x1 : Nat) (x2 : Fld) (x3 : Bool) : (s.setState x1 x2 x3).ft = s.ft := by unfold State.setState; split <;> simp
@[simp] theorem State.setState_wear (s : State) (x1 : Nat) (x2 : Fld) (x3 : Bool) : (s.setState x1 x2 x3).wear = s.wear := by unfold State.setState; split <;> simp
@[simp] theorem State.setState_up (s : State) (x1 : Nat) (x2 : Fld) (x3 : Bool) : (s.setState x1 x2 x3).up = s.up := by unfold State.setState; split <;> simp
@[simp] theorem State.setState_fresh (s : State) (x1 : Nat) (x2 : Fld) (x3 : Bool) : (s.setState x1 x2 x3).fresh = s.fresh := by unfold State.setState; split <;> simp
@[simp] theorem State.setState_pending (s : State) (x1 : Nat) (x2 : Fld) (x3 : Bool) : (s.setState x1 x2 x3).pending = s.pending := by unfold State.setState; split <;> simp

@[simp] theorem State.mirror_regs (s : State) (x1 : Nat) (x2 : Nat) (x3 : List Byte) : (s.mirror x1 x2 x3).regs = s.regs := by unfold State.mirror; split <;> rfl
@[simp] theorem State.mirror_shad (s : State) (x1 : Nat) (x2 : Nat) (x3 : List Byte) : (s.mirror x1 x2 x3).shad = s.shad := by unfold State.mirror; split <;> rfl
@[simp] theorem State.mirror_stopping (s : State) (x1 : Nat) (x2 : Nat) (x3 : List Byte) : (s.mirror x1 x2 x3).stopping = s.stopping := by unfold State.mirror; split <;> rfl
@[simp] theorem State.mirror_ans (s : State) (x1 : Nat) (x2 : Nat) (x3 : List Byte) : (s.mirror x1 x2 x3).ans = s.ans := by unfold State.mirror; split <;> rfl
@[simp] theorem State.mirror_faultQ (s : State) (x1 : Nat) (x2 : Nat) (x3 : List Byte) : (s.mirror x1 x2 x3).faultQ = s.faultQ := by unfold State.mirror; split <;> rfl
@[simp] theorem State.mirror_iso (s : State) (x1 : Nat) (x2 : Nat) (x3 : List Byte) : (s.mirror x1 x2 x3).iso = s.iso := by unfold State.mirror; split <;> rfl
@[simp] theorem State.mirror_gs (s : State) (x1 : Nat) (x2 : Nat) (x3 : List Byte) : (s.mirror x1 x2 x3).gs = s.gs := by unfold State.mirror; split <;> rfl
@[simp] theorem State.mirror_isl (s : State) (x1 : Nat) (x2 : Nat) (x3 : List Byte) : (s.mirror x1 x2 x3).isl = s.isl := by unfold State.mirror; split <;> rfl
@[simp] theorem State.mirror_pll (s : State) (x1 : Nat) (x2 : Nat) (x3 : List Byte) : (s.mirror x1 x2 x3).pll = s.pll := by unfold State.mirror; split <;> rfl
@[simp] theorem State.mirror_spll (s : State) (x1 : Nat) (x2 : Nat) (x3 : List Byte) : (s.mirror x1 x2 x3).spll = s.spll := by unfold State.mirror; split <;> rfl
@[simp] theorem State.mirror_mram (s : State) (x1 : Nat) (x2 : Nat) (x3 : List Byte) : (s.mirror x1 x2 x3).mram = s.mram := by unfold State.mirror; split <;> rfl
@[simp] theorem State.mirror_lc (s : State) (x1 : Nat) (x2 : Nat) (x3 : List Byte) : (s.mirror x1 x2 x3).lc = s.lc := by unfold State.mirror; split <;> rfl
@[simp] theorem State.mirror_ingress (s : State) (x1 : Nat) (x2 : Nat) (x3 : List Byte) : (s.mirror x1 x2 x3).ingress = s.ingress := by unfold State.mirror; split <;> rfl
@[simp] theorem State.mirror_core (s : State) (x1 : Nat) (x2 : Nat) (x3 : List Byte) : (s.mirror x1 x2 x3).core = s.core := by unfold State.mirror; split <;> rfl
@[simp] theorem State.mirror_ring (s : State) (x1 : Nat) (x2 : Nat) (x3 : List Byte) : (s.mirror x1 x2 x3).ring = s.ring := by unfold State.mirror; split <;> rfl
@[simp] theorem State.mirror_mem (s : State) (x1 : Nat) (x2 : Nat) (x3 : List Byte) : (s.mirror x1 x2 x3).mem = s.mem := by unfold State.mirror; split <;> rfl
@[simp] theorem State.mirror_tm (s : State) (x1 : Nat) (x2 : Nat) (x3 : List Byte) : (s.mirror x1 x2 x3).tm = s.tm := by unfold State.mirror; split <;> rfl
@[simp] theorem State.mirror_scan (s : State) (x1 : Nat) (x2 : Nat) (x3 : List Byte) : (s.mirror x1 x2 x3).scan = s.scan := by unfold State.mirror; split <;> rfl
@[simp] theorem State.mirror_cards (s : State) (x1 : Nat) (x2 : Nat) (x3 : List Byte) : (s.mirror x1 x2 x3).cards = s.cards := by unfold State.mirror; split <;> rfl
@[simp] theorem State.mirror_chans (s : State) (x1 : Nat) (x2 : Nat) (x3 : List Byte) : (s.mirror x1 x2 x3).chans = s.chans := by unfold State.mirror; split <;> rfl
@[simp] theorem State.mirror_ucode (s : State) (x1 : Nat) (x2 : Nat) (x3 : List Byte) : (s.mirror x1 x2 x3).ucode = s.ucode := by unfold State.mirror; split <;> rfl
@[simp] theorem State.mirror_lookWait (s : State) (x1 : Nat) (x2 : Nat) (x3 : List Byte) : (s.mirror x1 x2 x3).lookWait = s.lookWait := by unfold State.mirror; split <;> rfl
@[simp] theorem State.mirror_looking (s : State) (x1 : Nat) (x2 : Nat) (x3 : List Byte) : (s.mirror x1 x2 x3).looking = s.looking := by unfold State.mirror; split <;> rfl
@[simp] theorem State.mirror_supv (s : State) (x1 : Nat) (x2 : Nat) (x3 : List Byte) : (s.mirror x1 x2 x3).supv = s.supv := by unfold State.mirror; split <;> rfl
@[simp] theorem State.mirror_br (s : State) (x1 : Nat) (x2 : Nat) (x3 : List Byte) : (s.mirror x1 x2 x3).br = s.br := by unfold State.mirror; split <;> rfl
@[simp] theorem State.mirror_host (s : State) (x1 : Nat) (x2 : Nat) (x3 : List Byte) : (s.mirror x1 x2 x3).host = s.host := by unfold State.mirror; split <;> rfl
@[simp] theorem State.mirror_spi (s : State) (x1 : Nat) (x2 : Nat) (x3 : List Byte) : (s.mirror x1 x2 x3).spi = s.spi := by unfold State.mirror; split <;> rfl
@[simp] theorem State.mirror_ft (s : State) (x1 : Nat) (x2 : Nat) (x3 : List Byte) : (s.mirror x1 x2 x3).ft = s.ft := by unfold State.mirror; split <;> rfl
@[simp] theorem State.mirror_wear (s : State) (x1 : Nat) (x2 : Nat) (x3 : List Byte) : (s.mirror x1 x2 x3).wear = s.wear := by unfold State.mirror; split <;> rfl
@[simp] theorem State.mirror_up (s : State) (x1 : Nat) (x2 : Nat) (x3 : List Byte) : (s.mirror x1 x2 x3).up = s.up := by unfold State.mirror; split <;> rfl
@[simp] theorem State.mirror_fresh (s : State) (x1 : Nat) (x2 : Nat) (x3 : List Byte) : (s.mirror x1 x2 x3).fresh = s.fresh := by unfold State.mirror; split <;> rfl
@[simp] theorem State.mirror_pending (s : State) (x1 : Nat) (x2 : Nat) (x3 : List Byte) : (s.mirror x1 x2 x3).pending = s.pending := by unfold State.mirror; split <;> rfl

@[simp] theorem State.mirrorQueue_regs (s : State) (x1 : Nat) (x2 : Nat) (x3 : Nat) : (s.mirrorQueue x1 x2 x3).regs = s.regs := by unfold State.mirrorQueue; split <;> simp
@[simp] theorem State.mirrorQueue_shad (s : State) (x1 : Nat) (x2 : Nat) (x3 : Nat) : (s.mirrorQueue x1 x2 x3).shad = s.shad := by unfold State.mirrorQueue; split <;> simp
@[simp] theorem State.mirrorQueue_stopping (s : State) (x1 : Nat) (x2 : Nat) (x3 : Nat) : (s.mirrorQueue x1 x2 x3).stopping = s.stopping := by unfold State.mirrorQueue; split <;> simp
@[simp] theorem State.mirrorQueue_ans (s : State) (x1 : Nat) (x2 : Nat) (x3 : Nat) : (s.mirrorQueue x1 x2 x3).ans = s.ans := by unfold State.mirrorQueue; split <;> simp
@[simp] theorem State.mirrorQueue_faultQ (s : State) (x1 : Nat) (x2 : Nat) (x3 : Nat) : (s.mirrorQueue x1 x2 x3).faultQ = s.faultQ := by unfold State.mirrorQueue; split <;> simp
@[simp] theorem State.mirrorQueue_iso (s : State) (x1 : Nat) (x2 : Nat) (x3 : Nat) : (s.mirrorQueue x1 x2 x3).iso = s.iso := by unfold State.mirrorQueue; split <;> simp
@[simp] theorem State.mirrorQueue_gs (s : State) (x1 : Nat) (x2 : Nat) (x3 : Nat) : (s.mirrorQueue x1 x2 x3).gs = s.gs := by unfold State.mirrorQueue; split <;> simp
@[simp] theorem State.mirrorQueue_isl (s : State) (x1 : Nat) (x2 : Nat) (x3 : Nat) : (s.mirrorQueue x1 x2 x3).isl = s.isl := by unfold State.mirrorQueue; split <;> simp
@[simp] theorem State.mirrorQueue_pll (s : State) (x1 : Nat) (x2 : Nat) (x3 : Nat) : (s.mirrorQueue x1 x2 x3).pll = s.pll := by unfold State.mirrorQueue; split <;> simp
@[simp] theorem State.mirrorQueue_spll (s : State) (x1 : Nat) (x2 : Nat) (x3 : Nat) : (s.mirrorQueue x1 x2 x3).spll = s.spll := by unfold State.mirrorQueue; split <;> simp
@[simp] theorem State.mirrorQueue_mram (s : State) (x1 : Nat) (x2 : Nat) (x3 : Nat) : (s.mirrorQueue x1 x2 x3).mram = s.mram := by unfold State.mirrorQueue; split <;> simp
@[simp] theorem State.mirrorQueue_lc (s : State) (x1 : Nat) (x2 : Nat) (x3 : Nat) : (s.mirrorQueue x1 x2 x3).lc = s.lc := by unfold State.mirrorQueue; split <;> simp
@[simp] theorem State.mirrorQueue_ingress (s : State) (x1 : Nat) (x2 : Nat) (x3 : Nat) : (s.mirrorQueue x1 x2 x3).ingress = s.ingress := by unfold State.mirrorQueue; split <;> simp
@[simp] theorem State.mirrorQueue_core (s : State) (x1 : Nat) (x2 : Nat) (x3 : Nat) : (s.mirrorQueue x1 x2 x3).core = s.core := by unfold State.mirrorQueue; split <;> simp
@[simp] theorem State.mirrorQueue_ring (s : State) (x1 : Nat) (x2 : Nat) (x3 : Nat) : (s.mirrorQueue x1 x2 x3).ring = s.ring := by unfold State.mirrorQueue; split <;> simp
@[simp] theorem State.mirrorQueue_mem (s : State) (x1 : Nat) (x2 : Nat) (x3 : Nat) : (s.mirrorQueue x1 x2 x3).mem = s.mem := by unfold State.mirrorQueue; split <;> simp
@[simp] theorem State.mirrorQueue_tm (s : State) (x1 : Nat) (x2 : Nat) (x3 : Nat) : (s.mirrorQueue x1 x2 x3).tm = s.tm := by unfold State.mirrorQueue; split <;> simp
@[simp] theorem State.mirrorQueue_scan (s : State) (x1 : Nat) (x2 : Nat) (x3 : Nat) : (s.mirrorQueue x1 x2 x3).scan = s.scan := by unfold State.mirrorQueue; split <;> simp
@[simp] theorem State.mirrorQueue_cards (s : State) (x1 : Nat) (x2 : Nat) (x3 : Nat) : (s.mirrorQueue x1 x2 x3).cards = s.cards := by unfold State.mirrorQueue; split <;> simp
@[simp] theorem State.mirrorQueue_chans (s : State) (x1 : Nat) (x2 : Nat) (x3 : Nat) : (s.mirrorQueue x1 x2 x3).chans = s.chans := by unfold State.mirrorQueue; split <;> simp
@[simp] theorem State.mirrorQueue_ucode (s : State) (x1 : Nat) (x2 : Nat) (x3 : Nat) : (s.mirrorQueue x1 x2 x3).ucode = s.ucode := by unfold State.mirrorQueue; split <;> simp
@[simp] theorem State.mirrorQueue_lookWait (s : State) (x1 : Nat) (x2 : Nat) (x3 : Nat) : (s.mirrorQueue x1 x2 x3).lookWait = s.lookWait := by unfold State.mirrorQueue; split <;> simp
@[simp] theorem State.mirrorQueue_looking (s : State) (x1 : Nat) (x2 : Nat) (x3 : Nat) : (s.mirrorQueue x1 x2 x3).looking = s.looking := by unfold State.mirrorQueue; split <;> simp
@[simp] theorem State.mirrorQueue_supv (s : State) (x1 : Nat) (x2 : Nat) (x3 : Nat) : (s.mirrorQueue x1 x2 x3).supv = s.supv := by unfold State.mirrorQueue; split <;> simp
@[simp] theorem State.mirrorQueue_br (s : State) (x1 : Nat) (x2 : Nat) (x3 : Nat) : (s.mirrorQueue x1 x2 x3).br = s.br := by unfold State.mirrorQueue; split <;> simp
@[simp] theorem State.mirrorQueue_host (s : State) (x1 : Nat) (x2 : Nat) (x3 : Nat) : (s.mirrorQueue x1 x2 x3).host = s.host := by unfold State.mirrorQueue; split <;> simp
@[simp] theorem State.mirrorQueue_spi (s : State) (x1 : Nat) (x2 : Nat) (x3 : Nat) : (s.mirrorQueue x1 x2 x3).spi = s.spi := by unfold State.mirrorQueue; split <;> simp
@[simp] theorem State.mirrorQueue_ft (s : State) (x1 : Nat) (x2 : Nat) (x3 : Nat) : (s.mirrorQueue x1 x2 x3).ft = s.ft := by unfold State.mirrorQueue; split <;> simp
@[simp] theorem State.mirrorQueue_wear (s : State) (x1 : Nat) (x2 : Nat) (x3 : Nat) : (s.mirrorQueue x1 x2 x3).wear = s.wear := by unfold State.mirrorQueue; split <;> simp
@[simp] theorem State.mirrorQueue_up (s : State) (x1 : Nat) (x2 : Nat) (x3 : Nat) : (s.mirrorQueue x1 x2 x3).up = s.up := by unfold State.mirrorQueue; split <;> simp
@[simp] theorem State.mirrorQueue_fresh (s : State) (x1 : Nat) (x2 : Nat) (x3 : Nat) : (s.mirrorQueue x1 x2 x3).fresh = s.fresh := by unfold State.mirrorQueue; split <;> simp
@[simp] theorem State.mirrorQueue_pending (s : State) (x1 : Nat) (x2 : Nat) (x3 : Nat) : (s.mirrorQueue x1 x2 x3).pending = s.pending := by unfold State.mirrorQueue; split <;> simp

@[simp] theorem State.mirrorCfg_regs (s : State) (x1 : Nat) (x2 : Nat) (x3 : Nat) (x4 : Word) : (s.mirrorCfg x1 x2 x3 x4).regs = s.regs := by unfold State.mirrorCfg; split <;> simp
@[simp] theorem State.mirrorCfg_shad (s : State) (x1 : Nat) (x2 : Nat) (x3 : Nat) (x4 : Word) : (s.mirrorCfg x1 x2 x3 x4).shad = s.shad := by unfold State.mirrorCfg; split <;> simp
@[simp] theorem State.mirrorCfg_stopping (s : State) (x1 : Nat) (x2 : Nat) (x3 : Nat) (x4 : Word) : (s.mirrorCfg x1 x2 x3 x4).stopping = s.stopping := by unfold State.mirrorCfg; split <;> simp
@[simp] theorem State.mirrorCfg_ans (s : State) (x1 : Nat) (x2 : Nat) (x3 : Nat) (x4 : Word) : (s.mirrorCfg x1 x2 x3 x4).ans = s.ans := by unfold State.mirrorCfg; split <;> simp
@[simp] theorem State.mirrorCfg_faultQ (s : State) (x1 : Nat) (x2 : Nat) (x3 : Nat) (x4 : Word) : (s.mirrorCfg x1 x2 x3 x4).faultQ = s.faultQ := by unfold State.mirrorCfg; split <;> simp
@[simp] theorem State.mirrorCfg_iso (s : State) (x1 : Nat) (x2 : Nat) (x3 : Nat) (x4 : Word) : (s.mirrorCfg x1 x2 x3 x4).iso = s.iso := by unfold State.mirrorCfg; split <;> simp
@[simp] theorem State.mirrorCfg_gs (s : State) (x1 : Nat) (x2 : Nat) (x3 : Nat) (x4 : Word) : (s.mirrorCfg x1 x2 x3 x4).gs = s.gs := by unfold State.mirrorCfg; split <;> simp
@[simp] theorem State.mirrorCfg_isl (s : State) (x1 : Nat) (x2 : Nat) (x3 : Nat) (x4 : Word) : (s.mirrorCfg x1 x2 x3 x4).isl = s.isl := by unfold State.mirrorCfg; split <;> simp
@[simp] theorem State.mirrorCfg_pll (s : State) (x1 : Nat) (x2 : Nat) (x3 : Nat) (x4 : Word) : (s.mirrorCfg x1 x2 x3 x4).pll = s.pll := by unfold State.mirrorCfg; split <;> simp
@[simp] theorem State.mirrorCfg_spll (s : State) (x1 : Nat) (x2 : Nat) (x3 : Nat) (x4 : Word) : (s.mirrorCfg x1 x2 x3 x4).spll = s.spll := by unfold State.mirrorCfg; split <;> simp
@[simp] theorem State.mirrorCfg_mram (s : State) (x1 : Nat) (x2 : Nat) (x3 : Nat) (x4 : Word) : (s.mirrorCfg x1 x2 x3 x4).mram = s.mram := by unfold State.mirrorCfg; split <;> simp
@[simp] theorem State.mirrorCfg_lc (s : State) (x1 : Nat) (x2 : Nat) (x3 : Nat) (x4 : Word) : (s.mirrorCfg x1 x2 x3 x4).lc = s.lc := by unfold State.mirrorCfg; split <;> simp
@[simp] theorem State.mirrorCfg_ingress (s : State) (x1 : Nat) (x2 : Nat) (x3 : Nat) (x4 : Word) : (s.mirrorCfg x1 x2 x3 x4).ingress = s.ingress := by unfold State.mirrorCfg; split <;> simp
@[simp] theorem State.mirrorCfg_core (s : State) (x1 : Nat) (x2 : Nat) (x3 : Nat) (x4 : Word) : (s.mirrorCfg x1 x2 x3 x4).core = s.core := by unfold State.mirrorCfg; split <;> simp
@[simp] theorem State.mirrorCfg_ring (s : State) (x1 : Nat) (x2 : Nat) (x3 : Nat) (x4 : Word) : (s.mirrorCfg x1 x2 x3 x4).ring = s.ring := by unfold State.mirrorCfg; split <;> simp
@[simp] theorem State.mirrorCfg_mem (s : State) (x1 : Nat) (x2 : Nat) (x3 : Nat) (x4 : Word) : (s.mirrorCfg x1 x2 x3 x4).mem = s.mem := by unfold State.mirrorCfg; split <;> simp
@[simp] theorem State.mirrorCfg_tm (s : State) (x1 : Nat) (x2 : Nat) (x3 : Nat) (x4 : Word) : (s.mirrorCfg x1 x2 x3 x4).tm = s.tm := by unfold State.mirrorCfg; split <;> simp
@[simp] theorem State.mirrorCfg_scan (s : State) (x1 : Nat) (x2 : Nat) (x3 : Nat) (x4 : Word) : (s.mirrorCfg x1 x2 x3 x4).scan = s.scan := by unfold State.mirrorCfg; split <;> simp
@[simp] theorem State.mirrorCfg_cards (s : State) (x1 : Nat) (x2 : Nat) (x3 : Nat) (x4 : Word) : (s.mirrorCfg x1 x2 x3 x4).cards = s.cards := by unfold State.mirrorCfg; split <;> simp
@[simp] theorem State.mirrorCfg_chans (s : State) (x1 : Nat) (x2 : Nat) (x3 : Nat) (x4 : Word) : (s.mirrorCfg x1 x2 x3 x4).chans = s.chans := by unfold State.mirrorCfg; split <;> simp
@[simp] theorem State.mirrorCfg_ucode (s : State) (x1 : Nat) (x2 : Nat) (x3 : Nat) (x4 : Word) : (s.mirrorCfg x1 x2 x3 x4).ucode = s.ucode := by unfold State.mirrorCfg; split <;> simp
@[simp] theorem State.mirrorCfg_lookWait (s : State) (x1 : Nat) (x2 : Nat) (x3 : Nat) (x4 : Word) : (s.mirrorCfg x1 x2 x3 x4).lookWait = s.lookWait := by unfold State.mirrorCfg; split <;> simp
@[simp] theorem State.mirrorCfg_looking (s : State) (x1 : Nat) (x2 : Nat) (x3 : Nat) (x4 : Word) : (s.mirrorCfg x1 x2 x3 x4).looking = s.looking := by unfold State.mirrorCfg; split <;> simp
@[simp] theorem State.mirrorCfg_supv (s : State) (x1 : Nat) (x2 : Nat) (x3 : Nat) (x4 : Word) : (s.mirrorCfg x1 x2 x3 x4).supv = s.supv := by unfold State.mirrorCfg; split <;> simp
@[simp] theorem State.mirrorCfg_br (s : State) (x1 : Nat) (x2 : Nat) (x3 : Nat) (x4 : Word) : (s.mirrorCfg x1 x2 x3 x4).br = s.br := by unfold State.mirrorCfg; split <;> simp
@[simp] theorem State.mirrorCfg_host (s : State) (x1 : Nat) (x2 : Nat) (x3 : Nat) (x4 : Word) : (s.mirrorCfg x1 x2 x3 x4).host = s.host := by unfold State.mirrorCfg; split <;> simp
@[simp] theorem State.mirrorCfg_spi (s : State) (x1 : Nat) (x2 : Nat) (x3 : Nat) (x4 : Word) : (s.mirrorCfg x1 x2 x3 x4).spi = s.spi := by unfold State.mirrorCfg; split <;> simp
@[simp] theorem State.mirrorCfg_ft (s : State) (x1 : Nat) (x2 : Nat) (x3 : Nat) (x4 : Word) : (s.mirrorCfg x1 x2 x3 x4).ft = s.ft := by unfold State.mirrorCfg; split <;> simp
@[simp] theorem State.mirrorCfg_wear (s : State) (x1 : Nat) (x2 : Nat) (x3 : Nat) (x4 : Word) : (s.mirrorCfg x1 x2 x3 x4).wear = s.wear := by unfold State.mirrorCfg; split <;> simp
@[simp] theorem State.mirrorCfg_up (s : State) (x1 : Nat) (x2 : Nat) (x3 : Nat) (x4 : Word) : (s.mirrorCfg x1 x2 x3 x4).up = s.up := by unfold State.mirrorCfg; split <;> simp
@[simp] theorem State.mirrorCfg_fresh (s : State) (x1 : Nat) (x2 : Nat) (x3 : Nat) (x4 : Word) : (s.mirrorCfg x1 x2 x3 x4).fresh = s.fresh := by unfold State.mirrorCfg; split <;> simp
@[simp] theorem State.mirrorCfg_pending (s : State) (x1 : Nat) (x2 : Nat) (x3 : Nat) (x4 : Word) : (s.mirrorCfg x1 x2 x3 x4).pending = s.pending := by unfold State.mirrorCfg; split <;> simp

@[simp] theorem State.endPack_shad (s : State) (x1 : Initiator) : (s.endPack x1).shad = s.shad := by unfold State.endPack; split <;> simp
@[simp] theorem State.endPack_stopping (s : State) (x1 : Initiator) : (s.endPack x1).stopping = s.stopping := by unfold State.endPack; split <;> simp
@[simp] theorem State.endPack_ans (s : State) (x1 : Initiator) : (s.endPack x1).ans = s.ans := by unfold State.endPack; split <;> simp
@[simp] theorem State.endPack_iso (s : State) (x1 : Initiator) : (s.endPack x1).iso = s.iso := by unfold State.endPack; split <;> simp
@[simp] theorem State.endPack_gs (s : State) (x1 : Initiator) : (s.endPack x1).gs = s.gs := by unfold State.endPack; split <;> simp
@[simp] theorem State.endPack_isl (s : State) (x1 : Initiator) : (s.endPack x1).isl = s.isl := by unfold State.endPack; split <;> simp
@[simp] theorem State.endPack_pll (s : State) (x1 : Initiator) : (s.endPack x1).pll = s.pll := by unfold State.endPack; split <;> simp
@[simp] theorem State.endPack_spll (s : State) (x1 : Initiator) : (s.endPack x1).spll = s.spll := by unfold State.endPack; split <;> simp
@[simp] theorem State.endPack_mram (s : State) (x1 : Initiator) : (s.endPack x1).mram = s.mram := by unfold State.endPack; split <;> simp
@[simp] theorem State.endPack_lc (s : State) (x1 : Initiator) : (s.endPack x1).lc = s.lc := by unfold State.endPack; split <;> simp
@[simp] theorem State.endPack_core (s : State) (x1 : Initiator) : (s.endPack x1).core = s.core := by unfold State.endPack; split <;> simp
@[simp] theorem State.endPack_ring (s : State) (x1 : Initiator) : (s.endPack x1).ring = s.ring := by unfold State.endPack; split <;> simp
@[simp] theorem State.endPack_mem (s : State) (x1 : Initiator) : (s.endPack x1).mem = s.mem := by unfold State.endPack; split <;> simp
@[simp] theorem State.endPack_tm (s : State) (x1 : Initiator) : (s.endPack x1).tm = s.tm := by unfold State.endPack; split <;> simp
@[simp] theorem State.endPack_cards (s : State) (x1 : Initiator) : (s.endPack x1).cards = s.cards := by unfold State.endPack; split <;> simp
@[simp] theorem State.endPack_chans (s : State) (x1 : Initiator) : (s.endPack x1).chans = s.chans := by unfold State.endPack; split <;> simp
@[simp] theorem State.endPack_ucode (s : State) (x1 : Initiator) : (s.endPack x1).ucode = s.ucode := by unfold State.endPack; split <;> simp
@[simp] theorem State.endPack_lookWait (s : State) (x1 : Initiator) : (s.endPack x1).lookWait = s.lookWait := by unfold State.endPack; split <;> simp
@[simp] theorem State.endPack_looking (s : State) (x1 : Initiator) : (s.endPack x1).looking = s.looking := by unfold State.endPack; split <;> simp
@[simp] theorem State.endPack_tw (s : State) (x1 : Initiator) : (s.endPack x1).tw = s.tw := by unfold State.endPack; split <;> simp
@[simp] theorem State.endPack_supv (s : State) (x1 : Initiator) : (s.endPack x1).supv = s.supv := by unfold State.endPack; split <;> simp
@[simp] theorem State.endPack_br (s : State) (x1 : Initiator) : (s.endPack x1).br = s.br := by unfold State.endPack; split <;> simp
@[simp] theorem State.endPack_host (s : State) (x1 : Initiator) : (s.endPack x1).host = s.host := by unfold State.endPack; split <;> simp
@[simp] theorem State.endPack_spi (s : State) (x1 : Initiator) : (s.endPack x1).spi = s.spi := by unfold State.endPack; split <;> simp
@[simp] theorem State.endPack_ft (s : State) (x1 : Initiator) : (s.endPack x1).ft = s.ft := by unfold State.endPack; split <;> simp
@[simp] theorem State.endPack_wear (s : State) (x1 : Initiator) : (s.endPack x1).wear = s.wear := by unfold State.endPack; split <;> simp
@[simp] theorem State.endPack_up (s : State) (x1 : Initiator) : (s.endPack x1).up = s.up := by unfold State.endPack; split <;> simp
@[simp] theorem State.endPack_fresh (s : State) (x1 : Initiator) : (s.endPack x1).fresh = s.fresh := by unfold State.endPack; split <;> simp
@[simp] theorem State.endPack_pending (s : State) (x1 : Initiator) : (s.endPack x1).pending = s.pending := by unfold State.endPack; split <;> simp

@[simp] theorem State.touch_shad (s : State) (x1 : Initiator) (x2 : Bool) : (s.touch x1 x2).shad = s.shad := by unfold State.touch; split <;> simp
@[simp] theorem State.touch_stopping (s : State) (x1 : Initiator) (x2 : Bool) : (s.touch x1 x2).stopping = s.stopping := by unfold State.touch; split <;> simp
@[simp] theorem State.touch_ans (s : State) (x1 : Initiator) (x2 : Bool) : (s.touch x1 x2).ans = s.ans := by unfold State.touch; split <;> simp
@[simp] theorem State.touch_iso (s : State) (x1 : Initiator) (x2 : Bool) : (s.touch x1 x2).iso = s.iso := by unfold State.touch; split <;> simp
@[simp] theorem State.touch_gs (s : State) (x1 : Initiator) (x2 : Bool) : (s.touch x1 x2).gs = s.gs := by unfold State.touch; split <;> simp
@[simp] theorem State.touch_isl (s : State) (x1 : Initiator) (x2 : Bool) : (s.touch x1 x2).isl = s.isl := by unfold State.touch; split <;> simp
@[simp] theorem State.touch_pll (s : State) (x1 : Initiator) (x2 : Bool) : (s.touch x1 x2).pll = s.pll := by unfold State.touch; split <;> simp
@[simp] theorem State.touch_spll (s : State) (x1 : Initiator) (x2 : Bool) : (s.touch x1 x2).spll = s.spll := by unfold State.touch; split <;> simp
@[simp] theorem State.touch_mram (s : State) (x1 : Initiator) (x2 : Bool) : (s.touch x1 x2).mram = s.mram := by unfold State.touch; split <;> simp
@[simp] theorem State.touch_lc (s : State) (x1 : Initiator) (x2 : Bool) : (s.touch x1 x2).lc = s.lc := by unfold State.touch; split <;> simp
@[simp] theorem State.touch_core (s : State) (x1 : Initiator) (x2 : Bool) : (s.touch x1 x2).core = s.core := by unfold State.touch; split <;> simp
@[simp] theorem State.touch_ring (s : State) (x1 : Initiator) (x2 : Bool) : (s.touch x1 x2).ring = s.ring := by unfold State.touch; split <;> simp
@[simp] theorem State.touch_mem (s : State) (x1 : Initiator) (x2 : Bool) : (s.touch x1 x2).mem = s.mem := by unfold State.touch; split <;> simp
@[simp] theorem State.touch_tm (s : State) (x1 : Initiator) (x2 : Bool) : (s.touch x1 x2).tm = s.tm := by unfold State.touch; split <;> simp
@[simp] theorem State.touch_cards (s : State) (x1 : Initiator) (x2 : Bool) : (s.touch x1 x2).cards = s.cards := by unfold State.touch; split <;> simp
@[simp] theorem State.touch_chans (s : State) (x1 : Initiator) (x2 : Bool) : (s.touch x1 x2).chans = s.chans := by unfold State.touch; split <;> simp
@[simp] theorem State.touch_ucode (s : State) (x1 : Initiator) (x2 : Bool) : (s.touch x1 x2).ucode = s.ucode := by unfold State.touch; split <;> simp
@[simp] theorem State.touch_lookWait (s : State) (x1 : Initiator) (x2 : Bool) : (s.touch x1 x2).lookWait = s.lookWait := by unfold State.touch; split <;> simp
@[simp] theorem State.touch_looking (s : State) (x1 : Initiator) (x2 : Bool) : (s.touch x1 x2).looking = s.looking := by unfold State.touch; split <;> simp
@[simp] theorem State.touch_tw (s : State) (x1 : Initiator) (x2 : Bool) : (s.touch x1 x2).tw = s.tw := by unfold State.touch; split <;> simp
@[simp] theorem State.touch_supv (s : State) (x1 : Initiator) (x2 : Bool) : (s.touch x1 x2).supv = s.supv := by unfold State.touch; split <;> simp
@[simp] theorem State.touch_br (s : State) (x1 : Initiator) (x2 : Bool) : (s.touch x1 x2).br = s.br := by unfold State.touch; split <;> simp
@[simp] theorem State.touch_host (s : State) (x1 : Initiator) (x2 : Bool) : (s.touch x1 x2).host = s.host := by unfold State.touch; split <;> simp
@[simp] theorem State.touch_spi (s : State) (x1 : Initiator) (x2 : Bool) : (s.touch x1 x2).spi = s.spi := by unfold State.touch; split <;> simp
@[simp] theorem State.touch_ft (s : State) (x1 : Initiator) (x2 : Bool) : (s.touch x1 x2).ft = s.ft := by unfold State.touch; split <;> simp
@[simp] theorem State.touch_wear (s : State) (x1 : Initiator) (x2 : Bool) : (s.touch x1 x2).wear = s.wear := by unfold State.touch; split <;> simp
@[simp] theorem State.touch_up (s : State) (x1 : Initiator) (x2 : Bool) : (s.touch x1 x2).up = s.up := by unfold State.touch; split <;> simp
@[simp] theorem State.touch_fresh (s : State) (x1 : Initiator) (x2 : Bool) : (s.touch x1 x2).fresh = s.fresh := by unfold State.touch; split <;> simp
@[simp] theorem State.touch_pending (s : State) (x1 : Initiator) (x2 : Bool) : (s.touch x1 x2).pending = s.pending := by unfold State.touch; split <;> simp

end Sys2Proof.Machine
end

