-- ==== Sys2Proof/WellFormed.lean ====
section
/-! DEFINITION. Which commands are well formed: the bounds an operand's type does not state already. -/
namespace Sys2Proof

/-- A page number of the fabric address (R22). -/
def pageBound (p : Nat) : Bool := decide (p < 4096)

/-- The operand bounds of a command that its types leave open: pages and offsets (R22), words and groups of the canopy views (R23),
scratchpad addresses and rows, and the lengths of a card frame and of a sideband block (R222, R236). -/
def Instr.wf : Instr → Bool
  | .registerWrite _ p off _ => pageBound p && decide (off < 4096)
  | .pageEnableWrite _ p _ _ => pageBound p
  | .commit _ p _ _ => pageBound p
  | .abortCommit _ p _ _ _ => pageBound p
  | .resetBlock _ p _ => pageBound p
  | .evtForce _ p _ => pageBound p
  | .commitPoint p => pageBound p
  | .blockReadyRise p => pageBound p
  | .blockStopPoint p => pageBound p
  | .canopyWrite _ _ w _ _ => decide (w < 16384)
  | .canopyPackedWrite _ _ g _ _ _ => decide (g < 4096)
  | .canopyPackedRead _ _ g _ => decide (g < 4096)
  | .scratchpadAccess _ a _ _ _ => decide (a < 0x80000)
  | .spRowEccThreshold _ r => decide (r < 512)
  | .rowRepair _ r => decide (r < 512)
  | .cardTrainingFrame _ bytes _ _ _ => decide (bytes.length = 10)
  | .cardFrameReceived _ bytes _ => decide (bytes.length = 10)
  | .sidebandBlockReceived _ bytes _ => decide (bytes.length = 64)
  | .topoReceived _ _ _ w _ _ => decide (w < 4)
  | _ => true

end Sys2Proof
end

