-- ==== Sys2Proof/Tests/Slice0.lean ====
section
/-! SUPPORT. The model's own tests: ill-formed commands are refused by the well-formedness check, the spec's worked examples come
out, and every statement's hypotheses are met together by a state and operands written here. -/
section Tests
set_option linter.unusedVariables false
set_option Elab.async false
open Sys2Proof Sys2Proof.Machine

/-! ### Well-formedness: an ill-formed term for each check -/

theorem test_wf_registerWrite_page : Instr.wf (.registerWrite .host 4096 0 0) = false := by decide
theorem test_wf_registerWrite_offset : Instr.wf (.registerWrite .host 0 4096 0) = false := by decide
theorem test_wf_pageEnableWrite : Instr.wf (.pageEnableWrite .host 4096 true false) = false := by decide
theorem test_wf_commit : Instr.wf (.commit .host 4096 true false) = false := by decide
theorem test_wf_abortCommit : Instr.wf (.abortCommit .host 4096 true false false) = false := by decide
theorem test_wf_resetBlock : Instr.wf (.resetBlock .host 4096 0) = false := by decide
theorem test_wf_evtForce : Instr.wf (.evtForce .host 4096 0) = false := by decide
theorem test_wf_commitPoint : Instr.wf (.commitPoint 4096) = false := by decide
theorem test_wf_blockReadyRise : Instr.wf (.blockReadyRise 4096) = false := by decide
theorem test_wf_blockStopPoint : Instr.wf (.blockStopPoint 4096) = false := by decide
theorem test_wf_canopyWrite : Instr.wf (.canopyWrite .host .input 16384 0 15) = false := by decide
theorem test_wf_canopyPackedWrite : Instr.wf (.canopyPackedWrite .host .input 4096 0 0 15) = false := by decide
theorem test_wf_canopyPackedRead : Instr.wf (.canopyPackedRead .host .input 4096 0) = false := by decide
theorem test_wf_scratchpadAccess : Instr.wf (.scratchpadAccess .host 0x80000 false 0 15) = false := by decide
theorem test_wf_spRowEccThreshold : Instr.wf (.spRowEccThreshold 0 512) = false := by decide
theorem test_wf_rowRepair : Instr.wf (.rowRepair 0 512) = false := by decide
theorem test_wf_cardTrainingFrame : Instr.wf (.cardTrainingFrame 0 [1, 2] 0 false .clean) = false := by decide
theorem test_wf_cardFrameReceived : Instr.wf (.cardFrameReceived 0 [] .clean) = false := by decide
theorem test_wf_sidebandBlockReceived : Instr.wf (.sidebandBlockReceived 0 [0] false) = false := by decide
theorem test_wf_topoReceived : Instr.wf (.topoReceived .east 1 .west 4 0 0) = false := by decide
theorem test_wf_accepts : Instr.wf (.registerWrite .host 0x0FF 0xFFC 5) = true := by decide

/-- The opcode table gives no row bits: no word spells a command. -/
theorem test_no_word_spells_a_command (nbits w : Nat) : decodeTableWord nbits w = none := rfl

/-! ### States for witnesses -/

/-- The reset state with registers written: page, offset, value. -/
def st (l : List (Nat × Nat × Nat)) : State := l.foldl (fun s e => s.wr e.1 e.2.1 (BitVec.ofNat 32 e.2.2)) {}

/-- Pages READY and RUNNING. -/
def upOn (ps : List Nat) (l : List (Nat × Nat × Nat)) : State :=
  st (ps.map (fun p => (p, PAGE_STATE, 3)) ++ l)

/-- A decidable statement's truth value. -/
def holds (p : Prop) [Decidable p] : Bool := decide p

/-- An option image of records (target offset, TYPE, value): 64 header bytes with GENERATION, identity and flags, and the records. -/
def optImage (gen id flags : Nat) (recs : List (Nat × Nat × Nat)) : List Byte :=
  let n := recs.length
  let h := leBytes 0x0A192001 4 ++ leBytes 1 2 ++ leBytes 64 2 ++ leBytes gen 4 ++ leBytes (64 + 8 * n) 4 ++ leBytes id 1 ++
    leBytes flags 1 ++ List.replicate 22 0 ++ leBytes n 4 ++ List.replicate 16 0
  let r := (recs.map fun e => leBytes e.1 3 ++ leBytes e.2.1 1 ++ leBytes e.2.2 4).flatten
  h ++ leBytes (crc32 (h ++ r)) 4 ++ r

/-! ### The spec's worked examples and published test values -/

/-- The eight grains of the packed view's example (after R27). -/
def exGroup : BitVec 96 :=
  BitVec.ofNat 96 (0xABC + 0x123 * 2 ^ 12 + 0x456 * 2 ^ 24 + 0x789 * 2 ^ 36 + 0xFFF * 2 ^ 60 + 0x5A5 * 2 ^ 72 + 0x0F0 * 2 ^ 84)

/-- What the host reads of word `w` of the packed view in the example. -/
def exPacked (w : Fin 3) : Bool :=
  match Sys2Proof.Machine.exec (.canopyPackedRead .host .output 0 w)
      { upOn [0x020, 0x01C] [] with scan := { vis := [(grpKey .output 0, exGroup)] } } with
  | .next t => t.ansOf .host == ⟨rspOk, [0x56123ABC, 0xF0007894, 0x0F05A5FF].getD w.val 0, none⟩
  | _ => false

-- The example after R27: the three words of group 0, and grain 2 in the spread view.
theorem test_packed_word0 : exPacked 0 = true := by decide +kernel
theorem test_packed_word2 : exPacked 2 = true := by decide +kernel
theorem test_spread_grain2 : (spreadWord 1 exGroup).toNat % 65536 = 0x0456 := by decide +kernel

-- The example of R457: an unaligned write of four bytes reaches the two words it touches.
theorem test_scratchpad_unaligned :
    (match Sys2Proof.Machine.exec (.scratchpadAccess .host 0x106 true 0xAABBCCDD 15)
        { upOn [0x020, 0x280] [(0x280, MEM_BANK_STAT, 1)] with mem := { powerOn := [] } } with
     | .next t => t.mem.sp == [(0x104 / 4, 0xCCDD0000), (0x108 / 4, 0x0000AABB)]
     | _ => false) = true := by decide +kernel

-- The example of the pin table (R141): entries 46 and 78.
theorem test_pin_entry : pinIdx 0x5C 3 10 9 = 46 ∧ pinIdx 0x5C 3 10 10 = 78 := by decide

-- The example of the host aperture (R63): window 1 set to hub 37 reaches page 0x050, offset 0x044 there.
theorem test_host_window :
    (st [(0x021, HOST_PSEL + 4, 0x00250000)]).aperture 0x02050044 = 0x4A00050044 := by decide +kernel

-- The example of R336: t4 - t1 is 1550 ns and TURN 24,000 sixteenths, so the sample is 400 sixteenths of a ns.
theorem test_peer_delay_sample :
    (match Sys2Proof.Machine.exec (.pdRespReceived .east (tmBytes 2 7 24000) 0)
        { (st [(0x008, LN_STATUS, 4)]).fs 0x008 RP_PD_CFG_EN 1 with
          lc := 1000, ring := { ports := [(0, { pdSent := some (7, ({ ({} : State) with lc := 1000 } : State).stampAt 0 - 248000) })] } } with
     | .next t => t.fg 0x008 RP_PD_LAST_SAMPLE == 400
     | _ => false) = true := by decide +kernel

-- The example of R216, cycle C0: a pop of an empty mailbox returns its last value and sets its MB_UNDERRUN bit.
theorem test_mailbox_underrun :
    (match Sys2Proof.Machine.exec (.mbPopTake .host 3 .ok)
        ((upOn [0x020, 0x014] []).setQue 963 { last := 0xAA }) with
     | .next t => t.ansOf .host == ⟨rspOk, 0xAA, none⟩ && t.rd 0x014 MB_UNDERRUN == 8
     | _ => false) = true := by decide +kernel

-- FIPS 180-4's test value of SHA-256, and the published check values of the two CRCs, over "123456789".
theorem test_sha256_abc :
    (sha256 [0x61, 0x62, 0x63]).take 8 = [0xBA, 0x78, 0x16, 0xBF, 0x8F, 0x01, 0xCF, 0xEA] := by decide +kernel
theorem test_crc16 : crc16 [0x31, 0x32, 0x33, 0x34, 0x35, 0x36, 0x37, 0x38, 0x39] = 0x29B1 := by decide +kernel
theorem test_crc32 : crc32 [0x31, 0x32, 0x33, 0x34, 0x35, 0x36, 0x37, 0x38, 0x39] = 0xCBF43926 := by decide +kernel

-- R76 and R65: after reset a power-on reset at L0 is in progress, and the machine's first idle step only counts a cycle.
theorem test_reset_por : State.reset.gs.seq = some { cause := 1, level := 0 } := by decide
theorem test_idle_step :
    (match step State.reset with | .next t => t.lc == State.reset.lc + 1 && t.pending.isEmpty | _ => false) = true := by decide +kernel

/-! ### The statements' hypotheses are met -/

theorem test_meets_StepRunsTheFrontCommand_1 :
    (fun (s : State) (c : Instr) (cs : List Instr) => holds (
      (s.pending = c :: cs))) ({ ({} : State) with pending := [.tguySend] }) (.tguySend) ([]) = true := by
  decide +kernel

theorem test_meets_IdleStepCountsACycle_1 : State.reset.pending = [] := by
  decide

theorem test_meets_CommandsLeaveTheQueue_1 : (match Sys2Proof.Machine.exec .tguySend State.reset with | .next _ => true | _ => false) = true := by
  decide +kernel

theorem test_meets_EveryStepKeepsCanonicalForm_1 : (State.reset.canonical && (match step State.reset with | .next t => t.canonical | _ => false)) = true := by
  decide +kernel

theorem test_meets_EveryCommandCompletesOrIsMalformed_1 : malformed .tguySend = false := by
  decide

theorem test_meets_EveryCommandCompletesOrIsMalformed_2 : malformed (.sidebandBlockReceived 0 [] false) = true := by
  decide

theorem test_meets_CommandStaysInItsArea_1 : (State.reset.canonical && (match Sys2Proof.Machine.exec .topoAgeTick State.reset with | .next _ => true | _ => false)) = true := by
  decide +kernel

theorem test_meets_RefusedAccessesChangeNothing_1 : (target State.reset (.brClrCnt .host) == some (.host, 0x020, BR_CTRL, false) &&
    decide (State.reset.reach .host 0x020 BR_CTRL ≠ rspOk)) = true := by
  decide +kernel

theorem test_meets_RefusedAccessesChangeNothing_2 : (let s := upOn [0x020, 0x080] [(0x024, TW_STATUS, 2)]
    target s (.ecClrCnt .host 0) == some (.host, 0x080, EC_CTRL, false) && decide (s.reach .host 0x080 EC_CTRL = rspOk) &&
    s.stbyRefuses .host 0x080 EC_CTRL) = true := by
  decide +kernel

theorem test_meets_CounterClearZeroesItsCounters_1 : (let s := upOn [0x020, 0x080] []
    clears s (.ecClrCnt .host 0) == some (.host, 0x080, EC_CTRL, [EC_CNT_MIG, EC_CNT_TXDROP]) && s.accepts .host 0x080 EC_CTRL) = true := by
  decide +kernel

theorem test_meets_PlainWritesActByAccessCode_1 :
    (fun (s : State) (who : Initiator) (page p off : Nat) (v : Word) (r : Row) => holds (
      (s.enAlias page = p) ∧
      (plainAt p off = true) ∧
      (s.rowAt p off = some r) ∧
      (s.accepts who p off = true))) (upOn [0x020, 0x080] []) (.host) (0x080) (0x080) (EC_MIG_CFG) (0x12345678) (((({} : State).rowAt 0x080 EC_MIG_CFG).getD ⟨0, 1, 4, 1, 0, 0, 0, 0, 0, 0, 0⟩)) = true := by
  decide +kernel

theorem test_meets_PlainWritesActByAccessCode_2 :
    (fun (s : State) (who : Initiator) (page p off : Nat) (v : Word) (r : Row) (i : Nat) => holds (
      (s.enAlias page = p) ∧
      (plainAt p off = true) ∧
      (s.rowAt p off = some r) ∧
      (s.accepts who p off = true) ∧
      (nbit (r.rw ||| r.rwl ||| r.w1s) i = false) ∧
      (nbit r.w1c i = true) ∧
      (i < 32))) (upOn [0x020, 0x01C] [(0x01C, 0x0A0, 7)]) (.host) (0x01C) (0x01C) (0x0A0) (3) (((({} : State).rowAt 0x01C 0x0A0).getD ⟨0, 1, 4, 1, 0, 0, 0, 0, 0, 0, 0⟩)) (0) = true := by
  decide +kernel

theorem test_meets_PlainWritesActByAccessCode_3 :
    (fun (s : State) (who : Initiator) (page p off : Nat) (v : Word) (r : Row) (i : Nat) => holds (
      (s.enAlias page = p) ∧
      (plainAt p off = true) ∧
      (s.rowAt p off = some r) ∧
      (s.accepts who p off = true) ∧
      (s.commitPending p = false) ∧
      (nbit r.rws i = true) ∧
      (nbit (r.rw ||| r.rwl ||| r.w1c ||| r.w1s) i = false) ∧
      (i < 32))) (upOn [0x020, 0x080] []) (.host) (0x080) (0x080) (EC_MIG_CFG) (0x12345678) (((({} : State).rowAt 0x080 EC_MIG_CFG).getD ⟨0, 1, 4, 1, 0, 0, 0, 0, 0, 0, 0⟩)) (0) = true := by
  decide +kernel

theorem test_meets_PlainWritesActByAccessCode_4 :
    (fun (s : State) (who : Initiator) (page p off : Nat) (v : Word) (r : Row) (i : Nat) => holds (
      (s.enAlias page = p) ∧
      (plainAt p off = true) ∧
      (s.rowAt p off = some r) ∧
      (s.accepts who p off = true) ∧
      (s.commitPending p = true) ∧
      (nbit r.rws i = true) ∧
      (nbit (r.rw ||| r.rwl ||| r.w1c ||| r.w1s) i = false) ∧
      (i < 32))) (upOn [0x020] [(0x080, PAGE_STATE, 0x13)]) (.host) (0x080) (0x080) (EC_MIG_CFG) (0x12345678) (((({} : State).rowAt 0x080 EC_MIG_CFG).getD ⟨0, 1, 4, 1, 0, 0, 0, 0, 0, 0, 0⟩)) (0) = true := by
  decide +kernel

theorem test_meets_HeaderWritesAndForcedEvents_1 :
    (fun (s : State) (who : Initiator) (page p : Nat) (v : Word) => holds (
      (s.enAlias page = p) ∧
      (supPage p = false) ∧
      (p ≠ 0x01C) ∧
      (s.accepts who p EVT_STATUS = true))) (upOn [0x020, 0x010] [(0x010, EVT_STATUS, 0x301)]) (.host) (0x010) (0x010) (0x101) = true := by
  decide +kernel

theorem test_meets_HeaderWritesAndForcedEvents_2 :
    (fun (s : State) (who : Initiator) (page p : Nat) (v : Word) => holds (
      (s.enAlias page = p) ∧
      (supPage p = false) ∧
      (s.accepts who p EVT_ENABLE = true))) (upOn [0x020, 0x010] []) (.host) (0x010) (0x010) (0xFFFFFFFF) = true := by
  decide +kernel

theorem test_meets_HeaderWritesAndForcedEvents_3 :
    (fun (s : State) (who : Initiator) (page p : Nat) (v : Word) => holds (
      (s.enAlias page = p) ∧
      (supPage p = false) ∧
      (s.accepts who p COMPAT = true) ∧
      (s.running p = false))) (upOn [0x020] [(0x021, PAGE_STATE, 1)]) (.host) (0x021) (0x021) (2) = true := by
  decide +kernel

theorem test_meets_HeaderWritesAndForcedEvents_4 :
    (fun (s : State) (who : Initiator) (page p : Nat) (v : Word) (b : Nat) => holds (
      (s.enAlias page = p) ∧
      (supPage p = false) ∧
      (p ≠ 0x01C) ∧
      (s.accepts who p EVT_FORCE = true) ∧
      (b < 32))) (upOn [0x020, 0x010] []) (.host) (0x010) (0x010) (0xFFFFFFFF) (8) = true := by
  decide +kernel

theorem test_meets_EnableStartsAndStopsBlocks_1 :
    (fun (s : State) (who : Initiator) (page p : Nat) (ra : Bool) => holds (
      (s.enAlias page = p) ∧
      (supPage p = false) ∧
      (enableActs p = true) ∧
      (kindOf p ≠ some .cl) ∧
      (s.running p = true) ∧
      (s.accepts who p PAGE_CTRL = true))) (upOn [0x020, 0x010] [(0x010, PAGE_CTRL, 1)]) (.host) (0x010) (0x010) (true) = true := by
  decide +kernel

theorem test_meets_EnableStartsAndStopsBlocks_2 :
    (fun (s : State) (who : Initiator) (page p : Nat) (ra : Bool) => holds (
      (s.enAlias page = p) ∧
      (supPage p = false) ∧
      (s.ready p = false) ∧
      (s.running p = false) ∧
      (enableActs p = true) ∧
      (s.accepts who p PAGE_CTRL = true))) (upOn [0x020] []) (.host) (0x018) (0x018) (true) = true := by
  decide +kernel

theorem test_meets_EnableStartsAndStopsBlocks_3 :
    (fun (s : State) (who : Initiator) (page p : Nat) (ra : Bool) => holds (
      (s.enAlias page = p) ∧
      (p ∈ startsPlain) ∧
      (s.ready p = true) ∧
      (s.running p = false) ∧
      (s.accepts who p PAGE_CTRL = true))) (upOn [0x020] [(0x018, PAGE_STATE, 1)]) (.host) (0x018) (0x018) (true) = true := by
  decide +kernel

theorem test_meets_EnableStartsAndStopsBlocks_4 :
    (fun (s : State) (who : Initiator) (page p : Nat) (en ra : Bool) => holds (
      (s.enAlias page = p) ∧
      (supPage p = false) ∧
      (enableActs p = false) ∧
      (s.accepts who p PAGE_CTRL = true))) (upOn [0x020, 0x200] []) (.host) (0x200) (0x200) (false) (true) = true := by
  decide +kernel

theorem test_meets_EnableStartsAndStopsBlocks_5 :
    (fun (s : State) (p : Nat) => holds (
      (p ∈ startsPlain) ∧
      (s.ready p = false) ∧
      (s.running p = false) ∧
      (s.readyOk p = true))) ({ st [(0, GS_OPT_STATUS, 8), (0x018, PAGE_CTRL, 1)] with isl := [(2, { rel := true })] }) (0x018) = true := by
  decide +kernel

theorem test_meets_EnableStartsAndStopsBlocks_6 :
    (fun (s : State) (p : Nat) => holds (
      (p ∈ startsPlain) ∧
      (p ∈ s.stopping) ∧
      (s.running p = true) ∧
      (s.commitPending p = false))) ({ upOn [0x018] [] with stopping := [0x018] }) (0x018) = true := by
  decide +kernel

theorem test_meets_CommitsAreFrozenCheckedAndApplied_1 :
    (fun (s : State) (who : Initiator) (page p : Nat) (ra : Bool) => holds (
      (s.enAlias page = p) ∧
      (supPage p = false) ∧
      (p ≠ 0x020) ∧
      (s.running p = true) ∧
      (s.commitPending p = false) ∧
      (s.accepts who p PAGE_CTRL = true))) (upOn [0x020, 0x018] []) (.host) (0x018) (0x018) (true) = true := by
  decide +kernel

theorem test_meets_CommitsAreFrozenCheckedAndApplied_2 :
    (fun (s : State) (who : Initiator) (page p : Nat) (ra : Bool) => holds (
      (s.enAlias page = p) ∧
      (supPage p = false) ∧
      (s.running p = true) ∧
      (s.commitPending p = true) ∧
      (s.accepts who p PAGE_CTRL = true))) (upOn [0x020] [(0x018, PAGE_STATE, 0x13)]) (.host) (0x018) (0x018) (true) = true := by
  decide +kernel

theorem test_meets_CommitsAreFrozenCheckedAndApplied_3 :
    (fun (s : State) (p : Nat) => holds (
      (p ∈ plainCommits) ∧
      (s.commitPending p = true) ∧
      (s.ready p = true) ∧
      (s.pointNow p = true) ∧
      (s.blockCheck p = none))) ((upOn [0x020] [(0x080, PAGE_STATE, 0x13)]).wrSh 0x080 EC_MIG_CFG 0x50) (0x080) = true := by
  decide +kernel

theorem test_meets_CommitsAreFrozenCheckedAndApplied_4 :
    (fun (s : State) (p : Nat) (reason off : Nat) => holds (
      (p ∈ plainCommits) ∧
      (s.commitPending p = true) ∧
      (s.ready p = true) ∧
      (s.pointNow p = true) ∧
      (s.blockCheck p = some (reason, off)) ∧
      (s.role ≠ roleStandby))) ((upOn [0x020] [(0x080, PAGE_STATE, 0x13)]).wrSh 0x080 EC_MIG_CFG 0) (0x080) (1) (EC_MIG_CFG) = true := by
  decide +kernel

theorem test_meets_AbortEndsACommitAndReloadsShadows_1 :
    (fun (s : State) (who : Initiator) (page p : Nat) (ra both : Bool) => holds (
      (s.enAlias page = p) ∧
      (supPage p = false ∨ who = .preload) ∧
      (s.commitPending p = true) ∧
      (s.accepts who p PAGE_CTRL = true))) (upOn [0x020] [(0x018, PAGE_STATE, 0x13)]) (.host) (0x018) (0x018) (true) (false) = true := by
  decide +kernel

theorem test_meets_AbortEndsACommitAndReloadsShadows_2 :
    (fun (s : State) (who : Initiator) (page p : Nat) (ra both : Bool) => holds (
      (s.enAlias page = p) ∧
      (supPage p = false ∨ who = .preload) ∧
      (s.commitPending p = false) ∧
      (s.accepts who p PAGE_CTRL = true))) (upOn [0x020, 0x018] []) (.host) (0x018) (0x018) (true) (true) = true := by
  decide +kernel

theorem test_meets_AbortEndsACommitAndReloadsShadows_3 :
    (fun (s : State) (p : Nat) (v : Word) (rest : List SupWrite) => holds (
      (s.supv.link = true) ∧
      (s.supv.queue = { page := p, off := PAGE_CTRL, v := v } :: rest) ∧
      (PAGE_CTRL_ABORT_COMMIT.get v = 1) ∧
      (PAGE_CTRL_RESET_BLOCK.get v = 0))) ({ upOn [0x030] [(0x030, PAGE_STATE, 0x13)] with supv := { link := true, queue := [{ page := 0x030, off := PAGE_CTRL, v := 4 }] } }) (0x030) (4) ([]) = true := by
  decide +kernel

theorem test_meets_BlockResetRestoresAPage_1 :
    (fun (s : State) (who : Initiator) (page p : Nat) (others : Word) => holds (
      (s.enAlias page = p) ∧
      (p = 0x00A ∨ (0x200 ≤ p ∧ p < 0x280)) ∧
      (s.accepts who p PAGE_CTRL = true))) (upOn [0x020, 0x200] [(0x200, RT_MATCH, 5)]) (.host) (0x200) (0x200) (0x107) = true := by
  decide +kernel

theorem test_meets_BlockResetRestoresAPage_2 :
    (fun (s : State) (who : Initiator) (page p : Nat) (others : Word) => holds (
      (s.enAlias page = p) ∧
      (p = 0x00A ∨ (0x200 ≤ p ∧ p < 0x280)) ∧
      (s.commitPending p = true) ∧
      (s.accepts who p PAGE_CTRL = true))) (upOn [0x020] [(0x200, PAGE_STATE, 0x13)]) (.host) (0x200) (0x200) (0) = true := by
  decide +kernel

theorem test_meets_HeldResetAssertsAndRecords_1 :
    (fun (s : State) (c : Instr) (cause : Nat) => holds (
      (holding c = some cause) ∧
      ((s.gs.seq.all fun q => decide (s.levelOf cause < q.level)) = true) ∧
      (s.mramBusy = false))) ({ upOn [0x010] [(0x010, CORE_ECC_CFG, 5)] with gs := { seq := none, por := false, aon := 2 ^ 33 + 5 } }) (.thermalTrip 112) (8) = true := by
  decide +kernel

theorem test_meets_HeldResetAssertsAndRecords_2 :
    (fun (s : State) (c : Instr) (cause : Nat) => holds (
      (holding c = some cause) ∧
      ((s.gs.seq.any fun q => decide (q.level < s.levelOf cause) || (decide (q.level = s.levelOf cause) && !(decide (s.gs.seqAt = s.lc) && decide (cause < q.cause)))) = true))) (State.reset) (.clockLoss) (9) = true := by
  decide +kernel

theorem test_meets_HeldResetAssertsAndRecords_3 :
    (fun (s : State) (c : Instr) (cause : Nat) (q : ResetReq) => holds (
      (holding c = some cause) ∧
      (s.gs.seq = some q) ∧
      (q.level = s.levelOf cause) ∧
      (s.gs.seqAt = s.lc) ∧
      (cause < q.cause) ∧
      (s.mramBusy = false))) ({ State.reset with gs := { State.reset.gs with seq := some { cause := 9, level := 1 } } }) (.thermalTrip 112) (8) ({ cause := 9, level := 1 }) = true := by
  decide +kernel

theorem test_meets_RequestedResetsAreRecordedOrWait_1 :
    (fun (s : State) (r : ResetReq) => holds (
      (s.gs.deferred = some r))) ({ upOn [0, 0x020] [] with gs := { seq := none, por := false, deferred := some { cause := 3, level := 1 } } }) ({ cause := 3, level := 1 }) = true := by
  decide +kernel

theorem test_meets_RequestedResetsAreRecordedOrWait_2 :
    (fun (s : State) (x : Option ResetReq) => holds (
      (s.gs.deferred = none) ∧
      (s.gs.deferBlock = some x))) ({ upOn [0, 0x020, 0x290] [(0x290, EVT_STATUS, 1)] with gs := { seq := none, por := false, deferBlock := some none } }) (none) = true := by
  decide +kernel

theorem test_meets_RequestedResetsAreRecordedOrWait_3 :
    (fun (s : State) => holds (
      (s.gs.deferred = none) ∧
      (s.gs.deferBlock = none))) (upOn [0] []) = true := by
  decide +kernel

theorem test_meets_RequestedResetsAreRecordedOrWait_4 :
    (fun (s : State) => holds (
      (s.gs.wdog = true) ∧
      (s.fg 0 GS_WDOG_CTRL_PERIOD ≠ 0) ∧
      (s.fg 0 GS_WDOG_CTRL_PERIOD * 625000 ≤ s.lc - s.gs.wdogAt) ∧
      (s.gs.seq = none) ∧
      (s.mramBusy = false) ∧
      (s.levelOf 4 = 3 → s.up.trial = false))) ({ upOn [0, 0x020] [(0, GS_WDOG_CTRL, 2)] with gs := { seq := none, por := false, wdog := true }, isl := [(38, { rel := true })], lc := 1300000 }) = true := by
  decide +kernel

theorem test_meets_RequestedResetsAreRecordedOrWait_5 :
    (fun (s : State) => holds (
      (s.gs.wdog = true) ∧
      (s.fg 0 GS_WDOG_CTRL_PERIOD ≠ 0) ∧
      (s.fg 0 GS_WDOG_CTRL_PERIOD * 625000 ≤ s.lc - s.gs.wdogAt) ∧
      (s.levelOf 4 = 3) ∧
      (s.gs.seq = none) ∧
      (s.mramBusy = false) ∧
      (s.mramStop = false) ∧
      (s.up.trial = true))) ({ upOn [0, 0x020] [(0, GS_WDOG_CTRL, 2)] with gs := { seq := none, por := false, wdog := true }, isl := [(38, { rel := true })], lc := 1300000, up := { trial := true } }) = true := by
  decide +kernel

theorem test_meets_RequestedResetsAreRecordedOrWait_6 :
    (fun (s : State) => holds (
      (s.gs.wdog = false ∨ s.fg 0 GS_WDOG_CTRL_PERIOD = 0 ∨ s.lc - s.gs.wdogAt < s.fg 0 GS_WDOG_CTRL_PERIOD * 625000))) (upOn [0] []) = true := by
  decide +kernel

theorem test_meets_SoftResetNeedsItsKey_1 :
    (fun (s : State) (who : Initiator) (v : Word) => holds (
      (s.accepts who 0 GS_SOFT_RESET = true) ∧
      (GS_SOFT_RESET_KEY.get v = 0xA55A) ∧
      (GS_SOFT_RESET_GO.get v = 1) ∧
      ((s.gs.seq.all fun q => decide (s.levelOf 3 < q.level)) = true) ∧
      (s.mramBusy = false))) ({ upOn [0, 0x020] [] with gs := { seq := none, por := false } }) (.host) (BitVec.ofNat 32 0xA55A0001) = true := by
  decide +kernel

theorem test_meets_SoftResetNeedsItsKey_2 :
    (fun (s : State) (who : Initiator) (v : Word) => holds (
      (s.accepts who 0 GS_SOFT_RESET = true) ∧
      (GS_SOFT_RESET_KEY.get v = 0xA55A) ∧
      (GS_SOFT_RESET_GO.get v = 1) ∧
      (s.gs.seq = none) ∧
      (s.gs.deferred = none) ∧
      (s.mramBusy = true))) ({ upOn [0, 0x020] [] with gs := { seq := none, por := false }, wear := { store := some { addr := 0x328000, bytes := [1], started := true } } }) (.host) (BitVec.ofNat 32 0xA55A0001) = true := by
  decide +kernel

theorem test_meets_SoftResetNeedsItsKey_3 :
    (fun (s : State) (who : Initiator) (v : Word) => holds (
      (s.accepts who 0 GS_SOFT_RESET = true) ∧
      (GS_SOFT_RESET_KEY.get v ≠ 0xA55A))) (upOn [0, 0x020] []) (.host) (1) = true := by
  decide +kernel

theorem test_meets_SoftResetNeedsItsKey_4 :
    (fun (s : State) (who : Initiator) (v : Word) => holds (
      (s.accepts who 0 GS_SOFT_RESET = true) ∧
      (GS_SOFT_RESET_KEY.get v = 0xA55A) ∧
      (GS_SOFT_RESET_GO.get v = 1) ∧
      ((s.gs.seq.any fun q => decide (q.level < s.levelOf 3) || (decide (q.level = s.levelOf 3) && !(decide (s.gs.seqAt = s.lc) && decide (3 < q.cause)))) = true))) ({ upOn [0, 0x020] [] with gs := { seq := some { cause := 2, level := 0 }, por := false } }) (.host) (BitVec.ofNat 32 0xA55A0001) = true := by
  decide +kernel

theorem test_meets_ResetReleaseStartsTheReader_1 :
    (fun (s : State) (c : Instr) (g : Gs) (st : Straps) (r : ResetReq) => holds (
      (releasing s c = some (g, st)) ∧
      (nothingHolds g = true) ∧
      (s.opt = 0) ∧
      (s.gs.seq = some r) ∧
      (r.level = 0))) (State.reset) (.powerOnResetRelease ⟨true, false⟩) ({ State.reset.gs with por := false, strapPins := ⟨true, false⟩ }) (⟨true, false⟩) ({ cause := 1 }) = true := by
  decide +kernel

theorem test_meets_ResetReleaseStartsTheReader_2 :
    (fun (s : State) (c : Instr) (g : Gs) (st : Straps) (r : ResetReq) (k : Nat) => holds (
      (releasing s c = some (g, st)) ∧
      (nothingHolds g = true) ∧
      (s.opt = 0) ∧
      (s.gs.seq = some r) ∧
      (r.level = 1 ∨ r.level = 2) ∧
      (s.up.trial = false) ∧
      (s.up.failing = false) ∧
      (headerChoice s = some k))) (({ st [] with gs := { por := false, resetN := true, seq := some { cause := 2, level := 1 } } } : State).mwr 0x300000 (optImage 1 5 0 [])) (.resetNRelease ⟨true, false⟩) ({ por := false, seq := some { cause := 2, level := 1 }, strapPins := ⟨true, false⟩ }) (⟨true, false⟩) ({ cause := 2, level := 1 }) (0) = true := by
  decide +kernel

theorem test_meets_ResetReleaseStartsTheReader_3 :
    (fun (s : State) (c : Instr) (g : Gs) (st : Straps) => holds (
      (releasing s c = some (g, st)) ∧
      (nothingHolds g = false))) (State.reset) (.resetNRelease ⟨true, false⟩) ({ State.reset.gs with strapPins := ⟨true, false⟩ }) (⟨true, false⟩) = true := by
  decide +kernel

theorem test_meets_ReaderReadsFusesAndHeaders_1 :
    (fun (s : State) => holds (
      (s.opt = 1))) ((st []).setOpt 1) = true := by
  decide +kernel

theorem test_meets_ReaderReadsFusesAndHeaders_2 :
    (fun (s : State) (k : Nat) => holds (
      (s.opt = 2) ∧
      (s.up.trial = false) ∧
      (s.up.failing = false) ∧
      (headerChoice s = some k))) (((st []).setOpt 2).mwr 0x310000 (optImage 1 5 0 [])) (1) = true := by
  decide +kernel

theorem test_meets_ReaderReadsFusesAndHeaders_3 :
    (fun (s : State) => holds (
      (s.opt = 2) ∧
      (s.up.trial = false) ∧
      (s.up.failing = false) ∧
      (headerChoice s = none) ∧
      (s.seqLevel ≠ 2))) ((st []).setOpt 2) = true := by
  decide +kernel

theorem test_meets_ReaderReadsFusesAndHeaders_4 :
    (fun (s : State) => holds (
      (s.opt = 4) ∧
      (s.gs.copy ≤ 1) ∧
      (s.imageValid s.gs.copy = true))) (((st []).setOpt 4).mwr 0x300000 (optImage 1 5 0 [])) = true := by
  decide +kernel

theorem test_meets_ReaderReadsFusesAndHeaders_5 :
    (fun (s : State) => holds (
      (s.opt = 4) ∧
      (s.imageValid s.gs.copy = false) ∧
      (s.gs.tried = false) ∧
      (s.headerValid (1 - s.gs.copy) = true))) (((st []).setOpt 4).mwr 0x310000 (optImage 1 5 0 [])) = true := by
  decide +kernel

theorem test_meets_ReaderReadsFusesAndHeaders_6 :
    (fun (s : State) => holds (
      (s.opt = 5 ∨ s.opt = 9))) ((st []).setOpt 5) = true := by
  decide +kernel

theorem test_meets_ReaderAppliesRecordsAndEqualization_1 :
    (fun (s : State) (p v : Nat) => holds (
      (s.opt = 6) ∧
      (s.gs.record + 1 < s.optHdr s.gs.copy 0x28 4) ∧
      (s.optRecord s.gs.copy s.gs.record = (p * 4096 + EVT_ENABLE, 0, v)) ∧
      (kindOf p ≠ none ∧ kindOf p ≠ some .en ∧ kindOf p ≠ some .pp ∧ kindOf p ≠ some .fd) ∧
      (s.seqLevel ≠ 2) ∧
      (s.commitPending p = false))) (((st []).setOpt 6).mwr 0x300000 (optImage 1 5 0 [(0x010014, 0, 0xFFFFFFFF), (0x010014, 0, 1)])) (0x010) (0xFFFFFFFF) = true := by
  decide +kernel

theorem test_meets_ReaderAppliesRecordsAndEqualization_2 :
    (fun (s : State) => holds (
      (s.opt = 6) ∧
      (s.optHdr s.gs.copy 0x28 4 ≤ s.gs.record))) (((st []).setOpt 6).mwr 0x300000 (optImage 1 5 0 [])) = true := by
  decide +kernel

theorem test_meets_ReaderAppliesRecordsAndEqualization_3 :
    (fun (s : State) (n : Fin 26) => holds (
      (s.opt = 7))) ((st []).setOpt 7) (3) = true := by
  decide +kernel

theorem test_meets_IslandsAreReleasedAndHeld_1 :
    (fun (s : State) (k : Nat) (i : Nat) => holds (
      (s.gs.pos = some k) ∧
      (i ∈ positionIslands k) ∧
      (nbit (s.rd 0 GS_HOLD).toNat (holdBit i) = false) ∧
      (s.isoIsland i = false) ∧
      (s.clocked i = true))) ({ st [] with gs := { pos := some 2 }, pll := (List.range 13).map fun k => (k, true) }) (2) (3) = true := by
  decide +kernel

theorem test_meets_IslandsAreReleasedAndHeld_2 :
    (fun (s : State) (island : Island) => holds (
      ((s.isl.getD island.val {}).req = true) ∧
      (s.clocked island.val = true) ∧
      (s.isoIsland island.val = false))) ({ st [] with isl := [(3, { req := true })], pll := (List.range 13).map fun k => (k, true) }) (3) = true := by
  decide +kernel

theorem test_meets_IslandsAreReleasedAndHeld_3 :
    (fun (s : State) (who : Initiator) (v : Word) (i : Island) => holds (
      (s.accepts who 0 GS_HOLD = true) ∧
      (nbit (v.toNat % 2 ^ 15) (holdBit i.val) = true) ∧
      (nbit (s.rd 0 GS_HOLD).toNat (holdBit i.val) = false))) ({ upOn [0, 0x020] [] with isl := [(3, { rel := true })] }) (.host) (2) (3) = true := by
  decide +kernel

theorem test_meets_IslandsAreReleasedAndHeld_4 :
    (fun (s : State) (who : Initiator) (v : Word) (i : Island) => holds (
      (s.accepts who 0 GS_HOLD = true) ∧
      (nbit (v.toNat % 2 ^ 15) (holdBit i.val) = false) ∧
      (nbit (s.rd 0 GS_HOLD).toNat (holdBit i.val) = true) ∧
      (s.opt = 8) ∧
      ((s.gs.pos.all fun k => decide (islandPosition i.val < k)) = true) ∧
      (s.islUp i.val = false))) ((upOn [0, 0x020] [(0, GS_HOLD, 2)]).setOpt 8) (.host) (0) (3) = true := by
  decide +kernel

theorem test_meets_IslandsAreReleasedAndHeld_5 :
    (fun (s : State) (reg : Fin 4) (bit : Fin 32) (j : Fin 32) => holds (
      True)) (upOn [0x010] []) (0) (8) (8) = true := by
  decide +kernel

theorem test_meets_GroundsheetCountsFusesAndSupply_1 :
    (fun (s : State) (who : Initiator) => holds (
      (s.reach who 0 GS_AON_LO = rspOk))) ({ upOn [0, 0x020] [] with gs := { aon := 2 ^ 40 + 7 } }) (.host) = true := by
  decide +kernel

theorem test_meets_GroundsheetCountsFusesAndSupply_2 :
    (fun (s : State) (on : Bool) => holds (
      True)) (upOn [0] []) (true) = true := by
  decide +kernel

theorem test_meets_GroundsheetCountsFusesAndSupply_3 :
    (fun (s : State) (who : Initiator) (v : Word) => holds (
      (s.accepts who 1 FUSE_PROG_CTRL = true) ∧
      (FUSE_PROG_CTRL_KEY.get v = 0x0F5E) ∧
      (FUSE_PROG_CTRL_GO.get v = 1) ∧
      (s.fb 1 FUSE_PROG_STATUS_BUSY = false))) (upOn [1, 0x020] [(1, FUSE_PROG_ADDR, 800)]) (.host) (BitVec.ofNat 32 0x0F5E0001) = true := by
  decide +kernel

theorem test_meets_GroundsheetCountsFusesAndSupply_4 :
    (fun (s : State) (b : Nat) (ok : Bool) (i : Nat) => holds (
      (s.gs.prog = some b))) ({ upOn [1] [] with gs := { prog := some 800 } }) (800) (true) (800) = true := by
  decide +kernel

theorem test_meets_GroundsheetCountsFusesAndSupply_5 :
    (fun (s : State) (supply : Fin 4) => holds (
      True)) (upOn [4] []) (3) = true := by
  decide +kernel

theorem test_meets_GroundsheetCountsFusesAndSupply_6 :
    (fun (s : State) (who : Initiator) (v : Word) (off : Fin 4096) => holds (
      (s.accepts who 0 GS_WDOG_KICK = true))) ({ upOn [0, 0x020] [] with lc := 77 }) (.host) (0xA5) (5) = true := by
  decide +kernel

theorem test_meets_LanesTrainAndExchange_1 :
    (fun (s : State) (port : LanePort) (lane : Fin 5) (inv : Bool) (bytes : List Byte) => holds (
      (s.pstate port = 1) ∧
      (lane.val < laneCount port) ∧
      (tsOk port lane.val bytes = true) ∧
      (31 ≤ (s.port port).lockCnt.getD lane.val 0))) ({ st [(0x008, LN_STATUS, 1)] with ring := { ports := [(0, { lockCnt := [(2, 31)] })] } }) (.east) (2) (true) ([0xBC, 0x42, 0x00, 0xE7]) = true := by
  decide +kernel

theorem test_meets_LanesTrainAndExchange_2 :
    (fun (s : State) (port : LanePort) (lane : Fin 5) (inv : Bool) (cv : Fin 5) (bytes : List Byte) => holds (
      (s.pstate port = 1) ∧
      (lane.val < laneCount port) ∧
      (tsOk port lane.val bytes = false ∨ cv ≠ 0))) ({ st [(0x008, LN_STATUS, 1)] with ring := { ports := [(0, { lockCnt := [(2, 31)] })] } }) (.east) (2) (false) (3) ([0xBC, 0x42, 0x00, 0xE6]) = true := by
  decide +kernel

theorem test_meets_LanesTrainAndExchange_3 :
    (fun (s : State) (port : LanePort) (lane : Fin 5) (inv : Bool) (bytes : List Byte) => holds (
      (s.pstate port = 2) ∧
      (lane.val < laneCount port) ∧
      (inv = s.fb port.page (laneFld LN_LSTAT_INV lane.val)) ∧
      (tsOk port lane.val bytes = true) ∧
      (s.laneLocked port lane.val = true) ∧
      (15 ≤ (s.port port).aligned) ∧
      (7 ≤ (s.port port).partnerRx) ∧
      (nbit (leAt bytes 2 1) 1 = true) ∧
      (nbit ((s.port port).cols.getD ((leAt bytes 2 1 / 32 + 4) % 8) 0) lane.val = false) ∧
      (nbit ((s.port port).cols.getD (leAt bytes 2 1 / 32) 0) lane.val = false) ∧
      (∀ l ∈ s.lockedLanes port, l = lane.val ∨ nbit ((s.port port).cols.getD (leAt bytes 2 1 / 32) 0) l = true))) ({ st [(0x024, LN_STATUS, 0x302)] with ring := { ports := [(2, { aligned := 15, partnerRx := 7, cols := [(1, 1)] })] } }) (.twin) (1) (false) ([0xBC, 0x81, 0x22, 0x06]) = true := by
  decide +kernel

theorem test_meets_LanesTrainAndExchange_4 :
    (fun (s : State) (port : LanePort) (lane : Fin 5) (inv : Bool) (bytes : List Byte) => holds (
      (s.pstate port = 3) ∧
      (lane.val < laneCount port) ∧
      (inv = s.fb port.page (laneFld LN_LSTAT_INV lane.val)) ∧
      (tsOk port lane.val bytes = true) ∧
      (s.laneLocked port lane.val = true) ∧
      ((s.port port).capOk = true) ∧
      ((s.port port).mismatch = false) ∧
      (7 ≤ (s.port port).partnerCap) ∧
      (nbit (leAt bytes 2 1) 0 = true ∨ leAt bytes 2 1 / 4 % 8 = 3))) ({ st [(0x024, LN_STATUS, 0x303)] with ring := { ports := [(2, { capOk := true, partnerCap := 7 })] } }) (.twin) (1) (false) ([0xBC, 0x81, 0x21, 0x05]) = true := by
  decide +kernel

theorem test_meets_LanesTrainAndExchange_5 :
    (fun (s : State) (port : LanePort) => holds (
      (s.pstate port = 2))) (st [(0x008, LN_STATUS, 2)]) (.east) = true := by
  decide +kernel

theorem test_meets_LanesTrainAndExchange_6 :
    (fun (s : State) (port : LanePort) => holds (
      (s.pstate port = 3))) (st [(0x024, LN_STATUS, 3)]) (.twin) = true := by
  decide +kernel

theorem test_meets_LanesTrainAndExchange_7 :
    (fun (s : State) (port : LanePort) (bytes : List Byte) => holds (
      (s.pstate port = 3) ∧
      (bytes.length = 16) ∧
      (crc16 (bytes.take 14) = leAt bytes 14 2) ∧
      (leAt bytes 1 1 = pairKind port) ∧
      ((s.port port).capPrev = bytes) ∧
      ((s.port port).capOk = false))) ((let b : List Byte := [1, 2, 5, 0, 9, 9, 9, 9, 1, 2, 3, 4, 31, 0]; let c := b ++ leBytes (crc16 b) 2; { st [(0x008, LN_STATUS, 3)] with ring := { ports := [(0, { capPrev := c })] } })) (.east) ((let b : List Byte := [1, 2, 5, 0, 9, 9, 9, 9, 1, 2, 3, 4, 31, 0]; b ++ leBytes (crc16 b) 2)) = true := by
  decide +kernel

theorem test_meets_LanesTrainAndExchange_8 :
    (fun (s : State) (port : LanePort) (bytes : List Byte) => holds (
      (s.pstate port = 3) ∧
      (bytes.length = 16) ∧
      (crc16 (bytes.take 14) = leAt bytes 14 2) ∧
      ((s.port port).capPrev ≠ bytes) ∧
      ((s.port port).capOk = false))) (st [(0x008, LN_STATUS, 3)]) (.east) ((let b : List Byte := [1, 2, 5, 0, 9, 9, 9, 9, 1, 2, 3, 4, 31, 0]; b ++ leBytes (crc16 b) 2)) = true := by
  decide +kernel

theorem test_meets_LanesTrainAndExchange_9 :
    (fun (s : State) (port : LanePort) (bytes : List Byte) (ending : Ending) => holds (
      (s.pstate port = 3) ∧
      (bytes.length ≠ 16 ∨ crc16 (bytes.take 14) ≠ leAt bytes 14 2 ∨ ending ≠ .good))) (st [(0x008, LN_STATUS, 3)]) (.east) ([1, 2, 3]) (.bad) = true := by
  decide +kernel

theorem test_meets_LanesTrainAndExchange_10 :
    (fun (s : State) (port : LanePort) => holds (
      (s.pstate port = 3) ∧
      ((s.port port).entering = true) ∧
      (logicalCount port ≤ (s.rxLanes port).length) ∧
      (logicalCount port ≤ (s.txLanes port).length))) ({ st [(0x008, LN_STATUS, 0x1F03), (0x008, LN_STATUS, 0x1F03)] with ring := { ports := [(0, { capOk := true, partnerCap := 8, entering := true, txLocked := 31 })] } }) (.east) = true := by
  decide +kernel

theorem test_meets_LanesTrainAndExchange_11 :
    (fun (s : State) (who : Initiator) (port : LanePort) => holds (
      (s.pstate port ≠ 0) ∧
      (s.accepts who port.page LN_CTRL = true))) (upOn [0x008, 0x020] [(0x008, LN_STATUS, 0x1F04)]) (.host) (.east) = true := by
  decide +kernel

theorem test_meets_LanesTrainAndExchange_12 :
    (fun (s : State) (who : Initiator) (port : LanePort) (v : Word) => holds (
      (s.accepts who port.page LN_CTRL = true) ∧
      (s.portActive port = false) ∧
      (LN_CTRL_FORCE_RETRAIN.get v = 0) ∧
      (s.fb port.page LN_CTRL_PORT_EN = !decide (LN_CTRL_PORT_EN.get v = 1)))) (upOn [0x008, 0x020] [(0x008, LN_STATUS, 1)]) (.host) (.east) (0) = true := by
  decide +kernel

theorem test_meets_LanesTrainAndExchange_13 :
    (fun (s : State) (port : LanePort) => holds (
      True)) (st [(0x008, LN_STATUS, 4)]) (.east) = true := by
  decide +kernel

theorem test_meets_LanesTrainAndExchange_14 :
    (fun (s : State) (port : LanePort) (fills : List Nat) (deskew : Nat) (cv : List Nat) (f : Nat) => holds (
      (2 ≤ s.pstate port) ∧
      (f ∈ fills.take (laneCount port)) ∧
      (∀ g ∈ fills.take (laneCount port), g ≤ f))) (st [(0x008, LN_STATUS, 4)]) (.east) ([3, 11]) (2) ([0, 7]) (11) = true := by
  decide +kernel

theorem test_meets_LanesTrainAndExchange_15 :
    (fun (s : State) (port : LanePort) (fills : List Nat) (deskew : Nat) (cv : List Nat) => holds (
      (s.pstate port = 1))) (st [(0x008, LN_STATUS, 1)]) (.east) ([3, 11, 12, 8]) (2) ([0, 7]) = true := by
  decide +kernel

theorem test_meets_LanesTrainAndExchange_16 :
    (fun (s : State) (port : LanePort) (l : Nat) => holds (
      (l < laneCount port))) ({}) (.east) (4) = true := by
  decide +kernel

theorem test_meets_LanesAreReplacedBySpares_1 :
    (fun (s : State) (port : RingPort) (lane : Fin 5) (cause : LaneCause) => holds (
      (s.portActive port.lanes = true) ∧
      (s.rxInUse port.lanes lane.val = true) ∧
      (s.fb port.page LN_CTRL_URGENT_EN = true) ∧
      ((s.port port.lanes).rxSpare.isSome = true) ∧
      ((s.port port.lanes).rxSub = none) ∧
      ((s.port port.lanes).urgent = false) ∧
      (s.ridgeOnly = false))) ({ upOn [0x008, 0x010] [(0x008, LN_STATUS, 0x1F04), (0x008, LN_MAP, 0x6880688)] with ring := { ports := [(0, { rxSpare := some 4 })] } }) (.east) (2) (.signal) = true := by
  decide +kernel

theorem test_meets_LanesAreReplacedBySpares_2 :
    (fun (s : State) (port : LanePort) (lane : Fin 5) (cause : LaneCause) => holds (
      (lane.val < laneCount port) ∧
      (s.rxInUse port lane.val = true) ∧
      (port = .twin ∨ ((s.port port).rxSpare = none ∧ (s.port port).rxSub = none)))) (st [(0x024, LN_STATUS, 0x304), (0x024, LN_MAP, 0x80008)]) (.twin) (1) (.lock) = true := by
  decide +kernel

theorem test_meets_LanesAreReplacedBySpares_3 :
    (fun (s : State) (port : LanePort) (lane : Fin 5) (cause : LaneCause) => holds (
      (lane.val < laneCount port) ∧
      (s.portActive port = true) ∧
      (s.rxInUse port lane.val = false) ∧
      ((s.port port).rxSpare = some lane.val))) ({ st [(0x008, LN_STATUS, 0x1F04), (0x008, LN_MAP, 0x6880688)] with ring := { ports := [(0, { rxSpare := some 4 })] } }) (.east) (4) (.signal) = true := by
  decide +kernel

theorem test_meets_LanesAreReplacedBySpares_4 :
    (fun (s : State) (port : LanePort) => holds (
      (s.portActive port = true) ∧
      ((s.port port).urgent = true))) ({ st [(0x008, LN_STATUS, 0x1F04)] with ring := { ports := [(0, { urgent := true })] } }) (.east) = true := by
  decide +kernel

theorem test_meets_LanesAreReplacedBySpares_5 :
    (fun (s : State) (who : Initiator) (port : RingPort) (v : Word) => holds (
      (s.accepts who port.page LN_SPARE_CMD = true) ∧
      (LN_SPARE_CMD_GO.get v = 1) ∧
      (s.rxInUse port.lanes (LN_SPARE_CMD_LANE.get v) = true) ∧
      ((s.port port.lanes).rxSpare.isSome = true) ∧
      ((s.port port.lanes).rxSub = none) ∧
      (s.ridgeOnly = false))) ({ upOn [0x008, 0x010, 0x020] [(0x008, LN_STATUS, 0x1F04), (0x008, LN_MAP, 0x6880688)] with ring := { ports := [(0, { rxSpare := some 4 })] } }) (.host) (.east) (0x82) = true := by
  decide +kernel

theorem test_meets_LanesAreReplacedBySpares_6 :
    (fun (s : State) (port : RingPort) (lane : Fin 5) => holds (
      (s.portActive port.lanes = true) ∧
      (s.fb port.page LN_CTRL_ERR_SPARE_EN = true) ∧
      (s.fg port.page LN_ERR_CFG_THRESH ≠ 0) ∧
      (s.fg port.page LN_ERR_CFG_THRESH ≤ (s.inWindow (s.fg port.page LN_ERR_CFG_WINDOW) ((s.port port.lanes).cvAt.getD lane.val [])).length) ∧
      (s.rxInUse port.lanes lane.val = true) ∧
      ((s.port port.lanes).rxSpare.isSome = true) ∧
      ((s.port port.lanes).rxSub = none) ∧
      (s.ridgeOnly = false))) ({ upOn [0x008, 0x010, 0x020] [(0x008, LN_STATUS, 0x1F04), (0x008, LN_MAP, 0x6880688), (0x008, LN_CTRL, 0x100000F), (0x008, LN_ERR_CFG, 0x10001)] with ring := { ports := [(0, { rxSpare := some 4, cvAt := [(2, [0])] })] } }) (.east) (2) = true := by
  decide +kernel

theorem test_meets_LanesAreReplacedBySpares_7 :
    (fun (s : State) (port : RingPort) (l sp k : Nat) => holds (
      (s.portActive port.lanes = true) ∧
      (s.ridgeOnly = false) ∧
      (s.fg port.page LN_SPARE_STATUS_RX_OP = 2) ∧
      ((s.port port.lanes).rxSub = some l) ∧
      ((s.port port.lanes).rxSpare = some sp) ∧
      (logicalOf (logicalCount port.lanes) (s.rxMap port.lanes) l = some k) ∧
      (l < 5) ∧
      (sp < 5))) ({ upOn [0x008, 0x010] [(0x008, LN_STATUS, 0x1F04), (0x008, LN_MAP, 0x6880688), (0x008, LN_SPARE_STATUS, 2)] with ring := { ports := [(0, { rxSpare := some 4, rxSub := some 2 })] } }) (.east) (2) (4) (2) = true := by
  decide +kernel

theorem test_meets_LanesAreReplacedBySpares_8 :
    (fun (s : State) (port : RingPort) (body : List Byte) (sp : Nat) => holds (
      (s.portActive port.lanes = true) ∧
      (s.ridgeOnly = false) ∧
      ((s.port port.lanes).txSpare = some sp) ∧
      ((s.port port.lanes).txSub = none) ∧
      ((logicalOf (logicalCount port.lanes) (s.txMap port.lanes) (leAt body 1 1)).isSome = true))) ({ upOn [0x008, 0x010] [(0x008, LN_STATUS, 0x1F04), (0x008, LN_MAP, 0x6880688)] with ring := { ports := [(0, { txSpare := some 4 })] } }) (.east) ([1, 2, 0, 1]) (4) = true := by
  decide +kernel

theorem test_meets_LanesAreReplacedBySpares_9 :
    (fun (s : State) (port : RingPort) (body : List Byte) (sp k : Nat) => holds (
      (s.portActive port.lanes = true) ∧
      (s.ridgeOnly = false) ∧
      ((s.port port.lanes).txSpare = some sp) ∧
      (logicalOf (logicalCount port.lanes) (s.txMap port.lanes) (leAt body 1 1) = some k) ∧
      (leAt body 1 1 < 5) ∧
      (sp < 5))) ({ upOn [0x008, 0x010] [(0x008, LN_STATUS, 0x1F04), (0x008, LN_MAP, 0x6880688)] with ring := { ports := [(0, { txSpare := some 4 })] } }) (.east) ([2, 2, 0, 1]) (4) (2) = true := by
  decide +kernel

theorem test_meets_LanesAreReplacedBySpares_10 :
    (fun (s : State) (port : RingPort) (body : List Byte) (sp k : Nat) => holds (
      (s.portActive port.lanes = true) ∧
      (s.ridgeOnly = false) ∧
      ((s.port port.lanes).txSpare = some sp) ∧
      ((s.port port.lanes).txSub = some (leAt body 1 1)) ∧
      (logicalOf (logicalCount port.lanes) (s.txMap port.lanes) (leAt body 1 1) = some k) ∧
      (leAt body 1 1 < 5) ∧
      (sp < 5))) ({ upOn [0x008, 0x010] [(0x008, LN_STATUS, 0x1F04), (0x008, LN_MAP, 0x6880688)] with ring := { ports := [(0, { txSpare := some 4, txSub := some 2 })] } }) (.east) ([3, 2, 0, 1]) (4) (2) = true := by
  decide +kernel

theorem test_meets_LanesAreReplacedBySpares_11 :
    (fun (s : State) (port : RingPort) (body : List Byte) (l sp : Nat) => holds (
      (s.portActive port.lanes = true) ∧
      (s.ridgeOnly = false) ∧
      ((s.port port.lanes).txSpare = some sp) ∧
      ((s.port port.lanes).txSub = some l) ∧
      (sp < 5))) ({ upOn [0x008, 0x010] [(0x008, LN_STATUS, 0x1F04), (0x008, LN_MAP, 0x6880688)] with ring := { ports := [(0, { txSpare := some 4, txSub := some 2 })] } }) (.east) ([4, 2, 0, 1]) (2) (4) = true := by
  decide +kernel

theorem test_meets_LanesAreReplacedBySpares_12 :
    (fun (s : State) (port : RingPort) (body : List Byte) => holds (
      (s.portActive port.lanes = true) ∧
      (s.ridgeOnly = false) ∧
      ((s.port port.lanes).rxSub.isSome = true) ∧
      ((s.port port.lanes).urgent = false))) ({ upOn [0x008, 0x010] [(0x008, LN_STATUS, 0x1F04)] with ring := { ports := [(0, { rxSub := some 1 })] } }) (.east) ([5, 1]) = true := by
  decide +kernel

theorem test_meets_LanesAreReplacedBySpares_13 :
    (fun (s : State) (port : RingPort) (l : Nat) => holds (
      (s.portActive port.lanes = true) ∧
      (s.ridgeOnly = false) ∧
      ((s.port port.lanes).rxSub = some l) ∧
      ((s.port port.lanes).urgent = false) ∧
      (s.fg port.page LN_SPARE_STATUS_RX_OP = 1))) ({ upOn [0x008, 0x010] [(0x008, LN_STATUS, 0x1F04), (0x008, LN_SPARE_STATUS, 1)] with ring := { ports := [(0, { rxSub := some 1, tries := 3 })] } }) (.east) (1) = true := by
  decide +kernel

theorem test_meets_ReceivedRingFramesAreChecked_1 :
    (fun (s : State) (port : RingPort) (bytes : List Byte) (ending : Ending) (sub : Fin 26) (f : Fld) => holds (
      (s.portActive port.lanes = true) ∧
      ((frameCheck bytes ending = .hcrc ∧ f = RP_RX_HCRC_COUNT) ∨ (frameCheck bytes ending = .form ∧ f = RP_RX_BAD_COUNT ∧ (ending = .bad → 16 ≤ bytes.length))) ∧
      (∀ l part, ending ≠ .symbol l part))) (st [(0x008, LN_STATUS, 4)]) (.east) ((({ hdr := { dst := 5 } } : Frame).bytes.set 10 0)) (.good) (0) (RP_RX_HCRC_COUNT) = true := by
  decide +kernel

theorem test_meets_ReceivedRingFramesAreChecked_2 :
    (fun (s : State) (port : RingPort) (bytes : List Byte) (sub : Fin 26) => holds (
      (s.portActive port.lanes = true) ∧
      (0 < bytes.length ∧ bytes.length < 12) ∧
      ((Hdr.ofBytes bytes).cls ≠ .E) ∧
      ((Hdr.ofBytes bytes).ll = false) ∧
      (s.ridgeOnly = false))) (upOn [0x010] [(0x008, LN_STATUS, 4)]) (.east) (((({ hdr := { dst := 5, cls := .T } } : Frame).bytes).take 8)) (3) = true := by
  decide +kernel

theorem test_meets_ReceivedRingFramesAreChecked_3 :
    (fun (s : State) (port : RingPort) (bytes : List Byte) (l : Fin 5) (part : Bool) (sub : Fin 26) => holds (
      (s.portActive port.lanes = true))) (upOn [0x010] [(0x008, LN_STATUS, 4)]) (.east) (({ hdr := { dst := 5 } } : Frame).bytes) (2) (true) (3) = true := by
  decide +kernel

theorem test_meets_ReceivedRingFramesAreChecked_4 :
    (fun (s : State) (port : RingPort) (f : Frame) (sub : Fin 26) => holds (
      (s.portActive port.lanes = true) ∧
      (frameCheck f.bytes .good = .good) ∧
      (Frame.ofBytes f.bytes = f) ∧
      (f.hdr.cls = .E) ∧
      (f.hdr.ll = false) ∧
      (s.bare = false) ∧
      (s.isSelf f.hdr.src = true) ∧
      (f.hdr.wraps = 0 ∨ f.hdr.wraps = 3) ∧
      (f.hdr.isTopo = false))) (upOn [0x010] [(0x008, LN_STATUS, 4), (0, GS_HUB_ID, 0x105)]) (.east) ({ hdr := { src := 5, dst := 9 } }) (3) = true := by
  decide +kernel

theorem test_meets_ReceivedRingFramesAreChecked_5 :
    (fun (s : State) (port : RingPort) (f : Frame) (sub : Fin 26) => holds (
      (s.portActive port.lanes = true) ∧
      (frameCheck f.bytes .good = .good) ∧
      (Frame.ofBytes f.bytes = f) ∧
      (f.hdr.cls = .E) ∧
      (f.hdr.ll = false) ∧
      (s.fate f.hdr = .pass) ∧
      (s.wrapped (dirPort f.hdr.dir) = false) ∧
      (s.portActive (dirPort f.hdr.dir).lanes = true) ∧
      ((f.arrive (s.ingressDelay port) (s.stampAt sub.val)).1 = f))) (upOn [0x010] [(0x008, LN_STATUS, 4), (0x009, LN_STATUS, 4), (0, GS_HUB_ID, 0x105), (0x00A, RC_TOPO + 4 * 7, 0xFFFFFF01)]) (.east) ({ hdr := { src := 7, dst := 9 } }) (3) = true := by
  decide +kernel

theorem test_meets_ReceivedRingFramesAreChecked_6 :
    (fun (s : State) (port : RingPort) (f : Frame) (sub : Fin 26) => holds (
      (s.portActive port.lanes = true) ∧
      (frameCheck f.bytes .good = .good) ∧
      (Frame.ofBytes f.bytes = f) ∧
      (f.hdr.cls = .E) ∧
      (f.hdr.ll = false) ∧
      (s.fate f.hdr = .mine) ∧
      (s.ridgeOnly = false) ∧
      (portLogicType f.hdr = false))) (upOn [0x010] [(0x008, LN_STATUS, 4), (0x009, LN_STATUS, 4), (0, GS_HUB_ID, 0x105), (0x00A, RC_TOPO + 4 * 7, 0xFFFFFF01)]) (.east) ({ hdr := { src := 7, dst := 5 } }) (3) = true := by
  decide +kernel

theorem test_meets_RingEgressOrder_1 :
    (fun (s : State) (port : RingPort) (sub : Fin 26) (f : Frame) (fs : List Frame) => holds (
      (s.portActive port.lanes = true) ∧
      (s.eg port.core = none) ∧
      ((s.port port.lanes).offReq = false) ∧
      ((s.port port.lanes).merge = f :: fs))) ({ st [(0x008, LN_STATUS, 4)] with ring := { ports := [(0, { merge := [{}] })] } }) (.east) (1) ({}) ([]) = true := by
  decide +kernel

theorem test_meets_RingEgressOrder_2 :
    (fun (s : State) (port : LanePort) (sub : Fin 26) (f : Frame) (fs : List Frame) => holds (
      (s.portActive port = true) ∧
      (s.eg (laneCore port) = none) ∧
      ((s.port port).offReq = false) ∧
      (port = .twin ∨ (s.port port).merge = []) ∧
      ((s.port port).ll = f :: fs))) ({ st [(0x008, LN_STATUS, 4)] with ring := { ports := [(0, { ll := [{}] })] } }) (.east) (1) ({}) ([]) = true := by
  decide +kernel

theorem test_meets_RingEgressOrder_3 :
    (fun (s : State) (port : RingPort) (sub : Fin 26) (c : Cls) (rt rb : Nat) => holds (
      (s.portActive port.lanes = true) ∧
      (s.eg port.core = none) ∧
      ((s.port port.lanes).offReq = false) ∧
      ((s.port port.lanes).merge = []) ∧
      ((s.port port.lanes).ll = []) ∧
      (s.portFrozen port.core = false) ∧
      (s.portDown port.core = false) ∧
      (s.coreAdmits = true) ∧
      (s.ringPick port = some (c, rt, rb)))) ({ upOn [0x008, 0x010] [(0x008, LN_STATUS, 4), (0x010, CORE_PORT_EN, 0x3FFFFFFF)] with core := { ques := [(0, { ents := [{ cell := 7 }] })], recs := [(7, { refs := 1, written := 1, verdict := .good })] } }) (.east) (1) (.E) (0) (0) = true := by
  decide +kernel

theorem test_meets_RingEgressOrder_4 :
    (fun (s : State) (sub : Fin 26) (e : QEnt) => holds (
      (s.portActive .twin = true) ∧
      (s.eg 2 = none) ∧
      ((s.port .twin).offReq = false) ∧
      ((s.port .twin).ll = []) ∧
      (s.portFrozen 2 = false) ∧
      (s.portDown 2 = false) ∧
      (s.coreAdmits = true) ∧
      (s.eligibleHead 8 = some e))) ({ upOn [0x024, 0x010] [(0x024, LN_STATUS, 4), (0x010, CORE_PORT_EN, 0x3FFFFFFF)] with core := { ques := [(8, { ents := [{ cell := 7 }] })], recs := [(7, { refs := 1, written := 1, verdict := .good })] } }) (1) ({ cell := 7 }) = true := by
  decide +kernel

theorem test_meets_RingEgressOrder_5 :
    (fun (s : State) (sub : Fin 26) => holds (
      (s.portActive .twin = true) ∧
      (s.eg 2 = none) ∧
      ((s.port .twin).offReq = false) ∧
      ((s.port .twin).ll = []) ∧
      (s.eligibleHead 8 = none))) ({ upOn [0x024, 0x010] [(0x024, LN_STATUS, 4), (0x010, CORE_PORT_EN, 0x3FFFFFFF)] with core := { ques := [(9, { ents := [{ cell := 7 }] })], recs := [(7, { refs := 1, written := 1, verdict := .good })] } }) (1) = true := by
  decide +kernel

theorem test_meets_RingEgressOrder_6 :
    (fun (s : State) (port : LanePort) (sub : Fin 26) => holds (
      (s.portActive port = true) ∧
      (s.eg (laneCore port) = none) ∧
      ((s.port port).offReq = true))) ({ st [(0x008, LN_STATUS, 4)] with ring := { ports := [(0, { offReq := true })] } }) (.east) (1) = true := by
  decide +kernel

theorem test_meets_RingEgressOrder_7 :
    (fun (s : State) (port : RingPort) (sub : Fin 26) (g : Eg) (f : Frame) (fs : List Frame) => holds (
      (s.eg port.core = some g) ∧
      (g.q % 4 ≠ 0) ∧
      (g.bad = false) ∧
      ((s.port port.lanes).merge = f :: fs))) ({ st [(0x008, LN_STATUS, 4)] with core := { eg := [(0, some { q := 1 })] }, ring := { ports := [(0, { merge := [{}] })] } }) (.east) (1) ({ q := 1 }) ({}) ([]) = true := by
  decide +kernel

theorem test_meets_RingEgressOrder_8 :
    (fun (s : State) (port : RingPort) (bytes : List Byte) (c : Cls) => holds (
      (s.portActive port.lanes = true) ∧
      (s.ridgeOnly = false) ∧
      ((Hdr.ofBytes bytes).isLL 0x02 = true) ∧
      (c ≠ .E))) (upOn [0x010] [(0x008, LN_STATUS, 4)]) (.east) (({ cls := .M, mtype := 2, ll := true, dst := 127, stream := 1, arg := 0x123456789ABC } : Hdr).bytes) (.B) = true := by
  decide +kernel

theorem test_meets_RingEgressOrder_9 :
    (fun (s : State) (port : RingPort) (bytes : List Byte) => holds (
      (s.portActive port.lanes = true) ∧
      (s.ridgeOnly = true) ∧
      ((Hdr.ofBytes bytes).isLL 0x02 = true) ∧
      (s.portActive (dirPort (Hdr.ofBytes bytes).dir).lanes = true))) (st [(0x008, LN_STATUS, 4), (0x009, LN_STATUS, 4)]) (.east) (({ cls := .M, mtype := 2, ll := true, dst := 127, stream := 1, arg := 0x123456789ABC } : Hdr).bytes) = true := by
  decide +kernel

theorem test_meets_RingEgressOrder_10 :
    (fun (s : State) (port : RingPort) => holds (
      (s.portActive port.lanes = true) ∧
      (s.ridgeOnly = false))) ({ upOn [0x010] [(0x008, LN_STATUS, 4)] with ring := { ports := [(0, { initDue := true })], cred := [(1, { lim := 77 })] } }) (.east) = true := by
  decide +kernel

theorem test_meets_GuyLineFollowsTheNeighbour_1 :
    (fun (s : State) (port : RingPort) => holds (
      (s.portActive port.lanes = true) ∧
      (s.ridgeOnly = false))) (upOn [0x010] [(0x008, LN_STATUS, 4)]) (.east) = true := by
  decide +kernel

theorem test_meets_GuyLineFollowsTheNeighbour_2 :
    (fun (s : State) (port : RingPort) (src : Fin 128) (seq wf : Byte) => holds (
      (s.portActive port.lanes = true) ∧
      (s.isSelf src.val = false))) ({ st [(0x008, LN_STATUS, 4)] with ring := { ports := [(0, { guyEver := true })] } }) (.east) (9) (0) (0) = true := by
  decide +kernel

theorem test_meets_GuyLineFollowsTheNeighbour_3 :
    (fun (s : State) (port : RingPort) (src : Fin 128) (seq wf : Byte) => holds (
      (s.portActive port.lanes = true) ∧
      (s.ridgeOnly = true) ∧
      (s.portActive port.other.lanes = true) ∧
      (s.wrapped port.other = false))) (st [(0x008, LN_STATUS, 4), (0x009, LN_STATUS, 4)]) (.east) (9) (1) (2) = true := by
  decide +kernel

theorem test_meets_GuyLineFollowsTheNeighbour_4 :
    (fun (s : State) (port : RingPort) => holds (
      (s.portActive port.lanes = true) ∧
      (s.fg port.page RP_NEIGHBOUR_STATE ≠ 3))) (st [(0x008, LN_STATUS, 4), (0x009, LN_STATUS, 4)]) (.east) = true := by
  decide +kernel

theorem test_meets_WrapsFreezesAndFences_1 :
    (fun (s : State) (port : RingPort) => holds (
      (s.wrapped port = true) ∧
      (s.fb 0x00A RC_CTRL_UNWRAP_EN = true) ∧
      (s.portActive port.lanes = true) ∧
      (s.fg port.page RP_NEIGHBOUR_STATE = 1 ∨ s.fg port.page RP_NEIGHBOUR_STATE = 2))) (st [(0x008, LN_STATUS, 4), (0x008, RP_NEIGHBOUR, 0x90000)]) (.east) = true := by
  decide +kernel

theorem test_meets_WrapsFreezesAndFences_2 :
    (fun (s : State) (port : RingPort) => holds (
      (s.fb port.page RP_NEIGHBOUR_FROZEN = true) ∧
      ((s.port port.lanes).grace = 1))) ({ (({} : State).fs 0x008 RP_NEIGHBOUR_FROZEN 1) with ring := { ports := [(0, { grace := 1 })] }, core := { ques := [(1, { ents := [{ cell := 3 }] })], recs := [(3, { refs := 1, verdict := .good, written := 1 })] } }) (.east) = true := by
  decide +kernel

theorem test_meets_WrapsFreezesAndFences_3 :
    (fun (s : State) (port : RingPort) (cls : Cls) (src : Fin 128) (fseq kind : Nat) (k : Nat) => holds (
      (s.ring.flows.any (·.1 = k) = true))) ({ ({} : State) with ring := { flows := [(130, { port := some .east, hold := some 3 })] } }) (.east) (.T) (9) (0) (1) (130) = true := by
  decide +kernel

theorem test_meets_WrapsFreezesAndFences_4 :
    (fun (s : State) (cls : Cls) (src : Fin 128) => holds (
      ((s.flow (flowKey cls src.val)).hold.isSome = true))) ({ ({} : State) with ring := { flows := [(137, { port := some .east, hold := some 3 })] } }) (.T) (9) = true := by
  decide +kernel

theorem test_meets_TopologyIsLearntAndAges_1 :
    (fun (s : State) (port : RingPort) (src : Fin 128) (dir : Dir) (wraps hops : Nat) (flags : Byte) => holds (
      (src.val < 120) ∧
      (s.isSelf src.val = false))) ((List.range 16).foldl (fun t w => t.wr 0x00A (RC_PIN + 4 * w) 0) {}) (.east) (9) (.west) (0) (3) (4) = true := by
  decide +kernel

theorem test_meets_TopologyIsLearntAndAges_2 :
    (fun (s : State) (h : Nat) => holds (
      (h < 120))) ((List.range 16).foldl (fun t w => t.wr 0x00A (RC_PIN + 4 * w) 0) (((({} : State).fs 0x00A (RC_TOPO_LIVE.at 36) 1).fs 0x00A (RC_TOPO_AGE.at 36) 200))) (9) = true := by
  decide +kernel

theorem test_meets_TopologyIsLearntAndAges_3 :
    (fun (s : State) => holds (
      True)) (upOn [0x008, 0x009, 0x010, 0x011] [(0, GS_HUB_ID, 0x105), (0x008, LN_STATUS, 4), (0x009, LN_STATUS, 4), (0x008, RP_NEIGHBOUR, 0x80000)]) = true := by
  decide +kernel

theorem test_meets_RemoteResetIsCheckedAndSent_1 :
    (fun (s : State) (src : Fin 128) (cred : List Byte) => holds (
      (s.fb 0 GS_RESET_CTRL_REMOTE_EN = false ∨ (s.gs.cred.all fun b => b = 0) = true ∨ cred ≠ s.gs.cred))) ({}) (7) ([1]) = true := by
  decide +kernel

theorem test_meets_RemoteResetIsCheckedAndSent_2 :
    (fun (s : State) (src : Fin 128) (cred : List Byte) => holds (
      (s.fb 0 GS_RESET_CTRL_REMOTE_EN = true) ∧
      (s.gs.cred.any (fun b => b ≠ 0) = true) ∧
      (cred = s.gs.cred) ∧
      (s.gs.seq = none) ∧
      (s.mramBusy = false) ∧
      (s.levelOf 6 ≤ 2))) ({ (({} : State).fs 0 GS_RESET_CTRL_REMOTE_EN 1) with gs := { por := false, seq := none, cred := [1, 2, 3] } }) (7) ([1, 2, 3]) = true := by
  decide +kernel

theorem test_meets_RemoteResetIsCheckedAndSent_3 :
    (fun (s : State) (who : Initiator) (v : Word) => holds (
      (s.accepts who 0x00A RC_RST_SEND = true) ∧
      (RC_RST_SEND_GO.get v = 1) ∧
      (s.originates = true) ∧
      (s.live (RC_RST_SEND_DST.get v) = false))) (upOn [0x010, 0x020, 0x00A] [(0, GS_HUB_ID, 0x105), (0x008, LN_STATUS, 4)]) (.host) (0x00090001) = true := by
  decide +kernel

theorem test_meets_RemoteResetIsCheckedAndSent_4 :
    (fun (s : State) (who : Initiator) (v : Word) => holds (
      (s.accepts who 0x00A RC_RST_SEND = true) ∧
      (RC_RST_SEND_GO.get v = 1) ∧
      (s.originates = true) ∧
      (s.live (RC_RST_SEND_DST.get v) = true))) (upOn [0x008, 0x009, 0x010, 0x020, 0x00A] [(0, GS_HUB_ID, 0x105), (0x00A, RC_TOPO + 36, 1), (0x008, LN_STATUS, 4), (0x009, LN_STATUS, 4)]) (.host) (0x00090001) = true := by
  decide +kernel

theorem test_meets_RemoteResetIsCheckedAndSent_5 :
    (fun (s : State) (who : Initiator) (v : Word) => holds (
      (s.accepts who 0x00A RC_RST_SEND = true) ∧
      (RC_RST_SEND_GO.get v = 0 ∨ s.originates = false))) (upOn [0x020, 0x00A] []) (.host) (0x00090001) = true := by
  decide +kernel

theorem test_meets_IngressWritesCellsInOrder_1 :
    (fun (s : State) (p : CorePort) (x : InFrame) (rest : List InFrame) (b : Nat) => holds (
      (s.coreAdmits = true) ∧
      ((s.ing p.val).busy = false) ∧
      (s.portDown p.val = false) ∧
      (s.ingress.getD p.val [] = x :: rest) ∧
      (s.pickBank = some b))) ({ upOn [0x010, 0x01C] [(0x010, CORE_PORT_EN, 0x3FFFFFFF)] with ingress := [(5, [{ frame := { hdr := { dst := 3 } }, route := .desc 0x8000 }])] }) (5) ({ frame := { hdr := { dst := 3 } }, route := .desc 0x8000 }) ([]) (0) = true := by
  decide +kernel

theorem test_meets_IngressWritesCellsInOrder_2 :
    (fun (s : State) (p : CorePort) (x : InFrame) (rest : List InFrame) => holds (
      (s.coreAdmits = true) ∧
      ((s.ing p.val).busy = false) ∧
      (s.portDown p.val = false) ∧
      (s.ingress.getD p.val [] = x :: rest) ∧
      (s.pickBank = none))) ({ upOn [0x010, 0x01C] [(0x010, CORE_PORT_EN, 0x3FFFFFFF)] with core := { banks := (List.range 16).map (fun b => (b, { fresh := 1024 })) }, ingress := [(5, [{ frame := { hdr := { dst := 3 } }, route := .desc 0x8000 }])] }) (5) ({ frame := { hdr := { dst := 3 } }, route := .desc 0x8000 }) ([]) = true := by
  decide +kernel

theorem test_meets_IngressWritesCellsInOrder_3 :
    (fun (s : State) (p : CorePort) (b : Nat) => holds (
      ((s.ing p.val).busy = true) ∧
      ((s.ing p.val).rest ≠ []) ∧
      ((s.ing p.val).stored = true) ∧
      ((s.ing p.val).cells = 0 ∨ (s.ing p.val).k < (s.ing p.val).cells) ∧
      (s.portDown p.val = false) ∧
      (s.pickBank = some b))) ({ upOn [0x010, 0x01C] [(0x010, CORE_PORT_EN, 0x3FFFFFFF)] with core := { ing := [(5, { busy := true, k := 1, rest := [1, 2, 3], stored := true })] } }) (5) (0) = true := by
  decide +kernel

theorem test_meets_IngressWritesCellsInOrder_4 :
    (fun (s : State) (p : CorePort) => holds (
      ((s.ing p.val).busy = true) ∧
      ((s.ing p.val).rest ≠ []) ∧
      ((s.ing p.val).stored = true) ∧
      (s.portDown p.val = false) ∧
      (s.pickBank = none))) ({ upOn [0x010, 0x01C] [(0x010, CORE_PORT_EN, 0x3FFFFFFF)] with core := { readBank := some 3, banks := (List.range 16).map (fun b => (b, if b = 3 then {} else { fresh := 1024 })), ing := [(5, { busy := true, k := 1, rest := [1, 2, 3], stored := true })] } }) (5) = true := by
  decide +kernel

theorem test_meets_IngressWritesCellsInOrder_5 :
    (fun (s : State) (p : CorePort) => holds (
      ((s.ing p.val).busy = true) ∧
      ((s.ing p.val).rest ≠ []) ∧
      (s.portDown p.val = true))) ({ upOn [0x010] [] with core := { ing := [(5, { busy := true, k := 1, rest := [1, 2, 3] })] } }) (5) = true := by
  decide +kernel

theorem test_meets_IngressWritesCellsInOrder_6 :
    (fun (s : State) (p : CorePort) (b : Nat) => holds (
      (0 < (s.ing p.val).waits) ∧
      ((s.ing p.val).busy = true) ∧
      ((s.ing p.val).rest ≠ []) ∧
      ((s.ing p.val).stored = true) ∧
      ((s.ing p.val).cells = 0 ∨ (s.ing p.val).k < (s.ing p.val).cells) ∧
      (s.endCycle.pickBank = some b))) ({ upOn [0x010] [] with core := { readBank := some 3, banks := (List.range 16).map (fun b => (b, if b = 3 then {} else { fresh := 1024 })), ing := [(5, { busy := true, k := 1, rest := [1, 2, 3], stored := true, waits := 2 })] } }) (5) (3) = true := by
  decide +kernel

theorem test_meets_IngressWritesCellsInOrder_7 :
    (fun (s : State) (p : CorePort) => holds (
      ((s.ing p.val).busy = true) ∧
      ((s.ing p.val).rest = []) ∧
      ((s.ing p.val).stored = true) ∧
      ((s.ing p.val).bad = false) ∧
      ((s.frec (s.ing p.val).head).verdict = .pending) ∧
      (0 < (s.frec (s.ing p.val).head).refs))) ({ upOn [0x010] [] with core := { ing := [(5, { busy := true, k := 1, head := 7, stored := true })], recs := [(7, { refs := 1, written := 1 })] } }) (5) = true := by
  decide +kernel

theorem test_meets_IngressWritesCellsInOrder_8 :
    (fun (s : State) (p : CorePort) => holds (
      ((s.ing p.val).busy = true) ∧
      ((s.ing p.val).stored = true) ∧
      ((s.frec (s.ing p.val).head).verdict = .pending) ∧
      (0 < (s.frec (s.ing p.val).head).refs))) ({ upOn [0x010] [] with core := { ing := [(5, { busy := true, k := 1, head := 7, stored := true })], recs := [(7, { refs := 1, written := 1 })] } }) (5) = true := by
  decide +kernel

theorem test_meets_EgressReadsCellsAndEndsCopies_1 :
    (fun (s : State) (p : CorePort) (g : Eg) (e : QEnt) (es : List QEnt) (ecc : Ecc) => holds (
      (ecc ≠ .ue) ∧
      (s.eg p.val = some g) ∧
      ((s.que g.q).ents = e :: es) ∧
      (g.done = false) ∧
      (g.bad = false) ∧
      (g.k < (s.frec e.cell).written) ∧
      (s.readBarred (g.next / 1024 % 16) = false))) ({ upOn [0x010] [] with core := { eg := [(5, some { q := 20, next := 7 })], ques := [(20, { ents := [{ cell := 7 }] })], recs := [(7, { refs := 1, written := 1, verdict := .good })] } }) (5) ({ q := 20, next := 7 }) ({ cell := 7 }) ([]) (.ce) = true := by
  decide +kernel

theorem test_meets_EgressReadsCellsAndEndsCopies_2 :
    (fun (s : State) (p : CorePort) (q : Nat) (ecc : Ecc) => holds (
      (ecc ≠ .ue) ∧
      (s.eg p.val = none) ∧
      (3 ≤ p.val) ∧
      (s.coreAdmits = true) ∧
      (s.inGuard p.val = false) ∧
      (s.portDown p.val = false) ∧
      (s.portFrozen p.val = false) ∧
      (s.firstQueue (portOrder p.val) = some q))) ({ upOn [0x010, 0x01C] [(0x010, CORE_PORT_EN, 0x3FFFFFFF)] with core := { ques := [(23, { ents := [{ cell := 7 }] })], recs := [(7, { refs := 1, written := 1, verdict := .good })] } }) (5) (23) (.ok) = true := by
  decide +kernel

theorem test_meets_EgressReadsCellsAndEndsCopies_3 :
    (fun (s : State) (p : CorePort) (g : Eg) (e : QEnt) (es : List QEnt) => holds (
      (s.eg p.val = some g) ∧
      ((s.que g.q).ents = e :: es) ∧
      (g.done = false) ∧
      (g.bad = false) ∧
      (g.k < (s.frec e.cell).written) ∧
      (s.readBarred (g.next / 1024 % 16) = false))) ({ upOn [0x010] [] with core := { eg := [(5, some { q := 20, next := 7 })], ques := [(20, { ents := [{ cell := 7 }] })], recs := [(7, { refs := 1, written := 1, verdict := .good })] } }) (5) ({ q := 20, next := 7 }) ({ cell := 7 }) ([]) = true := by
  decide +kernel

theorem test_meets_EgressReadsCellsAndEndsCopies_4 :
    (fun (s : State) (p : CorePort) (g : Eg) (ecc : Ecc) => holds (
      (s.eg p.val = some g) ∧
      ((s.que g.q).ents ≠ []) ∧
      (s.readBarred (g.next / 1024 % 16) = true))) ({ upOn [0x010] [] with core := { banks := (List.range 16).map (fun b => (b, if b = 0 then {} else { fresh := 1024 })), ing := [(6, { waits := 2 })], eg := [(5, some { q := 20, next := 7 })], ques := [(20, { ents := [{ cell := 7 }] })], recs := [(7, { refs := 1, written := 1, verdict := .good })] } }) (5) ({ q := 20, next := 7 }) (.ok) = true := by
  decide +kernel

theorem test_meets_EgressReadsCellsAndEndsCopies_5 :
    (fun (s : State) (p : CorePort) (g : Eg) (e : QEnt) (es : List QEnt) => holds (
      (s.eg p.val = some g) ∧
      ((s.que g.q).ents = e :: es) ∧
      (g.done = true) ∧
      (g.bad = false) ∧
      ((s.frec e.cell).verdict = .good))) ({ upOn [0x010] [] with core := { eg := [(5, some { q := 20, next := 7, done := true })], ques := [(20, { ents := [{ cell := 7 }] })], recs := [(7, { refs := 1, written := 1, verdict := .good })] } }) (5) ({ q := 20, next := 7, done := true }) ({ cell := 7 }) ([]) = true := by
  decide +kernel

theorem test_meets_EgressReadsCellsAndEndsCopies_6 :
    (fun (s : State) (p : CorePort) (g : Eg) (e : QEnt) (es : List QEnt) => holds (
      (s.eg p.val = some g) ∧
      ((s.que g.q).ents = e :: es) ∧
      (g.bad = true))) ({ upOn [0x010] [] with core := { eg := [(1, some { q := 4, next := 7, bad := true })], ques := [(4, { ents := [{ cell := 7 }] })], recs := [(7, { refs := 1, written := 1, verdict := .bad })] } }) (1) ({ q := 4, next := 7, bad := true }) ({ cell := 7 }) ([]) = true := by
  decide +kernel

theorem test_meets_BankReplacementMovesABankToTheSpare_1 :
    (fun (s : State) (bank : Fin 17) => holds (
      (bank.val < 16) ∧
      (s.fg 0x010 CORE_ECC_CFG_THRESH ≠ 0) ∧
      (s.fg 0x010 CORE_ECC_CFG_THRESH ≤ (s.inWindow (s.fg 0x010 CORE_ECC_CFG_WINDOW) (s.core.ceAt.getD bank.val [])).length) ∧
      (s.fb 0x010 CORE_CTRL_SPARE_AUTO = true) ∧
      (s.replacing = false) ∧
      (s.fb 0x010 CORE_BANK_SPARE_SPARED = false) ∧
      (s.marchOnCells = false) ∧
      (s.running 0x010 = true))) ({ upOn [0x010] [(0x010, CORE_ECC_CFG, 0x10001), (0x010, CORE_CTRL, 1)] with core := { ceAt := [(3, [0])] } }) (3) = true := by
  decide +kernel

theorem test_meets_BankReplacementMovesABankToTheSpare_2 :
    (fun (s : State) (who : Initiator) (v : Word) => holds (
      (s.accepts who 0x010 CORE_SPARE_CMD = true) ∧
      (CORE_SPARE_CMD_GO.get v = 1) ∧
      (s.replacing = false) ∧
      (s.fb 0x010 CORE_BANK_SPARE_SPARED = false) ∧
      (s.marchOnCells = false) ∧
      (s.running 0x010 = true))) (upOn [0x010, 0x020] []) (.host) (CORE_SPARE_CMD_GO.set 1 (CORE_SPARE_CMD_BANK.set 5 0)) = true := by
  decide +kernel

theorem test_meets_BankReplacementMovesABankToTheSpare_3 :
    (fun (s : State) (who : Initiator) (v : Word) => holds (
      (s.accepts who 0x010 CORE_SPARE_CMD = true) ∧
      (CORE_SPARE_CMD_GO.get v = 1) ∧
      (s.fb 0x010 CORE_BANK_SPARE_SPARED = true ∨ s.replacing = true ∨ s.marchOnCells = true ∨ s.running 0x010 = false))) ((upOn [0x010, 0x020] []).fs 0x010 CORE_BANK_SPARE_SPARED 1) (.host) (CORE_SPARE_CMD_GO.set 1 (CORE_SPARE_CMD_BANK.set 5 0)) = true := by
  decide +kernel

theorem test_meets_BankReplacementMovesABankToTheSpare_4 :
    (fun (s : State) (r : Nat) (ecc : Ecc) => holds (
      (s.replacing = true) ∧
      (s.nextRow s.replBank (s.fg 0x010 CORE_SPARE_STATUS_ROW) = some r))) ({ (upOn [0x010] []).fs 0x010 CORE_SPARE_STATUS_STATE 1 with core := { repl := some 0, banks := [(0, { fresh := 3 })], cells := [(1, 9)] } }) (0) (.ue) = true := by
  decide +kernel

theorem test_meets_BankReplacementMovesABankToTheSpare_5 :
    (fun (s : State) => holds (
      (s.replacing = true) ∧
      (s.nextRow s.replBank (s.fg 0x010 CORE_SPARE_STATUS_ROW) = none))) ({ (upOn [0x010] []).fs 0x010 CORE_SPARE_STATUS_STATE 1 with core := { repl := some 0 } }) = true := by
  decide +kernel

theorem test_meets_FlushAndGraceEmptyQueues_1 :
    (fun (s : State) (who : Initiator) (page : Fin 4) (v : Word) => holds (
      (s.accepts who (0x011 + page.val) Q_FLUSH = true) ∧
      (Q_FLUSH_GO.get v = 1) ∧
      (s.fb (0x011 + page.val) Q_FLUSH_STATUS_BUSY = false) ∧
      (qPage (Q_FLUSH_QUEUE.get v) = 0x011 + page.val))) (upOn [0x012, 0x020] []) (.host) (1) (Q_FLUSH_GO.set 1 (Q_FLUSH_QUEUE.set 300 0)) = true := by
  decide +kernel

theorem test_meets_FlushAndGraceEmptyQueues_2 :
    (fun (s : State) (who : Initiator) (page : Fin 4) (v : Word) => holds (
      (s.accepts who (0x011 + page.val) Q_FLUSH = true) ∧
      (Q_FLUSH_GO.get v = 1) ∧
      (s.fb (0x011 + page.val) Q_FLUSH_STATUS_BUSY = true))) ((upOn [0x012, 0x020] []).fs 0x012 Q_FLUSH_STATUS_BUSY 1) (.host) (1) (Q_FLUSH_GO.set 1 (Q_FLUSH_QUEUE.set 300 0)) = true := by
  decide +kernel

theorem test_meets_FlushAndGraceEmptyQueues_3 :
    (fun (s : State) (page : Fin 4) (q : Nat) => holds (
      (s.fb (0x011 + page.val) Q_FLUSH_STATUS_BUSY = true) ∧
      (s.fg (0x011 + page.val) Q_FLUSH_STATUS_QUEUE = q))) ({ ((upOn [0x012] []).fs 0x012 Q_FLUSH_STATUS_BUSY 1).fs 0x012 Q_FLUSH_STATUS_QUEUE 300 with core := { ques := [(300, { ents := [{ cell := 7 }] })], recs := [(7, { refs := 1, written := 1 })] } }) (1) (300) = true := by
  decide +kernel

theorem test_meets_FlushAndGraceEmptyQueues_4 :
    (fun (s : State) (p : CorePort) (c : Fin 4) => holds (
      (s.core.lost.getD p.val 0 = 1))) ({ upOn [0x011] [] with core := { lost := [(8, 1)], ques := [(33, { ents := [{ cell := 7 }] })], recs := [(7, { refs := 1, written := 1 })] } }) (8) (1) = true := by
  decide +kernel

theorem test_meets_FlushAndGraceEmptyQueues_5 :
    (fun (s : State) (p : CorePort) (c : Fin 4) => holds (
      (s.core.lost.getD p.val 0 ≠ 1))) ({ upOn [0x011] [] with core := { lost := [(8, 2)], ques := [(33, { ents := [{ cell := 7 }] })], recs := [(7, { refs := 1, written := 1 })] } }) (8) (1) = true := by
  decide +kernel

theorem test_meets_MailboxesAndReadPorts_1 :
    (fun (s : State) (who : Initiator) (m : Mailbox) (v : Word) (k : Nat) => holds (
      (s.accepts who 0x014 (MB_PUSH + 4 * m.val) = true) ∧
      ((s.endCycle.mbCell (mbQueue m.val)).map (·.1) = some k) ∧
      (((s.que (mbQueue m.val)).ents.all fun e => e.hold = none) = true))) (upOn [0x010, 0x014, 0x020] [(0x014, QCFG + 4 * 200, 0x40000000)]) (.host) (8) (77) (0) = true := by
  decide +kernel

theorem test_meets_MailboxesAndReadPorts_2 :
    (fun (s : State) (who : Initiator) (m : Mailbox) (v : Word) => holds (
      (s.accepts who 0x014 (MB_PUSH + 4 * m.val) = true) ∧
      (s.endCycle.mbCell (mbQueue m.val) = none))) (upOn [0x014, 0x020] []) (.host) (8) (77) = true := by
  decide +kernel

theorem test_meets_MailboxesAndReadPorts_3 :
    (fun (s : State) (who : Initiator) (m : Mailbox) (ecc : Ecc) (e : QEnt) (v : Word) => holds (
      (s.reach who 0x014 (MB_POP + 4 * m.val) = rspOk) ∧
      (s.mbHead m.val = some (e, v)))) ({ upOn [0x010, 0x014, 0x020] [] with core := { ques := [(968, { ents := [{ cell := 7, item := true }] })], cells := [(7, 77)] } }) (.host) (8) (.ce) ({ cell := 7, item := true }) (77) = true := by
  decide +kernel

theorem test_meets_MailboxesAndReadPorts_4 :
    (fun (s : State) (who : Initiator) (m : Mailbox) (ecc : Ecc) => holds (
      (s.reach who 0x014 (MB_POP + 4 * m.val) = rspOk) ∧
      ((s.que (mbQueue m.val)).ents = []))) (upOn [0x014, 0x020] []) (.host) (8) (.ok) = true := by
  decide +kernel

theorem test_meets_MailboxesAndReadPorts_5 :
    (fun (s : State) (who : Initiator) (page : Fin 4) (q : Nat) (e : QEnt) (es : List QEnt) (j : Fin 6) (ecc : Ecc) => holds (
      (ecc ≠ .ue) ∧
      (s.reach who (0x011 + page.val) QRP_TAKE = rspOk) ∧
      (s.fg (0x011 + page.val) QRP_SEL_QUEUE = q) ∧
      (softQueue (0x011 + page.val) q = true) ∧
      ((s.que q).ents = e :: es) ∧
      ((s.que q).taken = 0) ∧
      (s.eligible e = true) ∧
      ((s.frec e.cell).verdict = .good))) ({ upOn [0x012, 0x020] [(0x012, QRP_SEL, 300)] with core := { ques := [(300, { ents := [{ cell := 7 }] })], recs := [(7, { refs := 1, written := 1, verdict := .good })], cells := [(7, 77)], links := [(7, { last := true, len := 16 })] } }) (.host) (1) (300) ({ cell := 7 }) ([]) (0) (.linkCe) = true := by
  decide +kernel

theorem test_meets_MailboxesAndReadPorts_6 :
    (fun (s : State) (who : Initiator) (page : Fin 4) (q : Nat) (e : QEnt) (es : List QEnt) => holds (
      (s.reach who (0x011 + page.val) QRP_TAKE = rspOk) ∧
      (s.fg (0x011 + page.val) QRP_SEL_QUEUE = q) ∧
      (softQueue (0x011 + page.val) q = true) ∧
      ((s.que q).ents = e :: es) ∧
      (0 < (s.que q).taken) ∧
      ((s.core.ques.map fun x => (x.2.ents.filter fun y => decide (y.cell = e.cell)).length).sum ≤ (s.frec e.cell).refs))) ({ upOn [0x012, 0x020] [(0x012, QRP_SEL, 300)] with core := { ques := [(300, { taken := 1, next := 8, ents := [{ cell := 7 }] })], recs := [(7, { refs := 1, written := 2, verdict := .good })], cells := [(7, 77)], links := [(7, { next := 8, len := 24 })] } }) (.host) (1) (300) ({ cell := 7 }) ([]) = true := by
  decide +kernel

theorem test_meets_MailboxesAndReadPorts_7 :
    (fun (s : State) (who : Initiator) (page : Fin 4) (q : Nat) (j : Fin 6) (ecc : Ecc) => holds (
      (s.reach who (0x011 + page.val) QRP_TAKE = rspOk) ∧
      (s.fg (0x011 + page.val) QRP_SEL_QUEUE = q) ∧
      (softQueue (0x011 + page.val) q = true) ∧
      ((s.que q).ents = []))) (upOn [0x012, 0x020] [(0x012, QRP_SEL, 300)]) (.host) (1) (300) (0) (.ok) = true := by
  decide +kernel

theorem test_meets_ServiceTimeIsContinuous_1 :
    (fun (s : State) => holds (
      (s.ready 0x018 = true) ∧
      (s.mayAuto = true) ∧
      (s.sel ≤ 1))) (((upOn [0x018] []).fs 0x018 (domF TM_D_STATUS_STATE 1) 2).fs 0x018 TM_ST_CFG_AUTO 1) = true := by
  decide +kernel

theorem test_meets_ServiceTimeIsContinuous_2 :
    (fun (s : State) (u : Int) => holds (
      (s.tm.res0 ≠ 0) ∧
      (s.resAt s.now = 0) ∧
      (s.now ≤ u))) ({ ({} : State) with tm := { res0 := 5 }, lc := 1000000 }) (256000000) = true := by
  decide +kernel

theorem test_meets_ServiceTimeIsContinuous_3 :
    (fun (s : State) (who : Initiator) (v : Word) => holds (
      (s.accepts who 0x018 TM_SMP_CMD = true) ∧
      (s.sel ≤ 1))) ((upOn [0x018, 0x020] [(0x018, TM_SMP_NS, 500)]).fs 0x018 (domF TM_D_CFG_ROLE 0) 1) (.host) (0x80000001) = true := by
  decide +kernel

theorem test_meets_SamplesAreJudged_1 :
    (fun (s : State) (who : Initiator) (v : Word) (k : Nat) => holds (
      (s.accepts who 0x018 TM_SMP_CMD = true) ∧
      (TM_SMP_CMD_GO.get v = 1) ∧
      (TM_SMP_CMD_DOM.get v = k) ∧
      (s.fg 0x018 (domF TM_D_CFG_ROLE k) = 0 ∨ s.fg 0x018 (domF TM_D_CFG_ROLE k) = 2 ∨ (TM_SMP_CMD_SRC.get v ≠ s.fg 0x018 (domF TM_D_CFG_MASTER k) ∧ (TM_SMP_CMD_SRC.get v ≠ s.fg 0x018 (domF TM_D_CFG_BACKUP k) ∨ TM_SMP_CMD_SRC.get v = 127))))) (upOn [0x018, 0x020] []) (.host) (0x80000000) (0) = true := by
  decide +kernel

theorem test_meets_SamplesAreJudged_2 :
    (fun (s : State) (who : Initiator) (v : Word) (k : Nat) (e : Int) => holds (
      (s.accepts who 0x018 TM_SMP_CMD = true) ∧
      (TM_SMP_CMD_GO.get v = 1) ∧
      (TM_SMP_CMD_DOM.get v = k) ∧
      (s.fg 0x018 (domF TM_D_CFG_ROLE k) = 1) ∧
      (TM_SMP_CMD_SRC.get v = s.fg 0x018 (domF TM_D_CFG_MASTER k)) ∧
      (TM_SMP_CMD_SEQ.get v ∉ (s.dom k).seenM) ∧
      (s.fg 0x018 (domF TM_D_CFG_DIR k) = TM_SMP_CMD_DIR.get v) ∧
      (e = wrapInt (2 ^ 48) ((((s.rd 0x018 TM_SMP_NS).toNat * 65536 + s.fg 0x018 TM_SMP_FRAC_FRAC : Nat) : Int) - s.domAt k (lstampBy s.now ((s.rd 0x018 TM_SMP_LOC_LO).toNat + 2 ^ 32 * (s.rd 0x018 TM_SMP_LOC_HI).toNat)) / timeG)))) ((((upOn [0x018, 0x020] [(0x018, TM_SMP_NS, 500)]).fs 0x018 (domF TM_D_CFG_DIR 0) 0).fs 0x018 (domF TM_D_CFG_ROLE 0) 1).fs 0x018 (domF TM_D_CFG_MASTER 0) 5) (.host) ((TM_SMP_CMD_SRC.set 5 (TM_SMP_CMD_GO.set 1 (TM_SMP_CMD_DIR.set 0 0)))) (0) (500 * 65536) = true := by
  decide +kernel

theorem test_meets_SamplesAreJudged_3 :
    (fun (s : State) (dom : Fin 2) => holds (
      (s.ready 0x018 = true) ∧
      ((s.fg 0x018 (domF TM_D_CFG_ROLE dom.val) = 3 ∧ s.dstate dom.val ≠ 4) ∨ (s.fg 0x018 (domF TM_D_CFG_ROLE dom.val) = 1 ∧ (s.dstate dom.val = 1 ∨ s.dstate dom.val = 2))))) (((upOn [0x018] []).fs 0x018 (domF TM_D_CFG_ROLE 1) 3)) (1) = true := by
  decide +kernel

theorem test_meets_TimeIsLatchedAndSent_1 :
    (fun (s : State) (who : Initiator) => holds (
      (s.accepts who 0x018 TM_CTRL = true))) ({ upOn [0x018, 0x020] [] with lc := 123456789 }) (.host) = true := by
  decide +kernel

theorem test_meets_TimeIsLatchedAndSent_2 :
    (fun (s : State) (dom : Fin 2) => holds (
      (s.ready 0x018 = true) ∧
      (s.dstate dom.val = 4) ∧
      (s.bare = false))) ((upOn [0x018] [(0, GS_HUB_ID, 0x105)]).fs 0x018 (domF TM_D_STATUS_STATE 0) 4) (0) = true := by
  decide +kernel

theorem test_meets_TimeIsLatchedAndSent_3 :
    (fun (s : State) (port : RingPort) (sub : Fin 26) => holds (
      (s.pdOn port = true) ∧
      (s.eg port.core = none) ∧
      ((s.port port.lanes).merge = []))) ((st [(0x008, LN_STATUS, 4)]).fs 0x008 RP_PD_CFG_EN 1) (.east) (3) = true := by
  decide +kernel

theorem test_meets_TimeIsLatchedAndSent_4 :
    (fun (s : State) (port : RingPort) (bytes : List Byte) (turn : BitVec 32) => holds (
      True)) (st [(0x008, LN_STATUS, 4)]) (.east) ((tmBytes 1 7 0)) (9) = true := by
  decide +kernel

theorem test_meets_TimeIsLatchedAndSent_5 :
    (fun (s : State) (port : RingPort) (bytes : List Byte) (sub : Fin 26) (q : Nat) (t1 x : Int) => holds (
      (s.pdOn port = true) ∧
      (tmOk bytes 2 = true) ∧
      ((s.port port.lanes).pdSent = some (q, t1)) ∧
      (leAt bytes 1 1 = q) ∧
      (s.stampAt sub.val - t1 ≤ 1600000) ∧
      (x = (s.stampAt sub.val - t1 - 10 * (leAt bytes 2 4 : Int)) / 20) ∧
      (0 ≤ x ∧ x ≤ 32000) ∧
      (s.fb port.page RP_PD_DELAY_VALID = false ∨ (x - (s.fg port.page RP_PD_DELAY_DELAY : Int)).natAbs ≤ 32))) ({ (st [(0x008, LN_STATUS, 4)]).fs 0x008 RP_PD_CFG_EN 1 with lc := 100, ring := { ports := [(0, { pdSent := some (7, 5600), pdHist := List.replicate 15 1000 })] } }) (.east) ((tmBytes 2 7 0)) (0) (7) (5600) (1000) = true := by
  decide +kernel

theorem test_meets_TimeIsLatchedAndSent_6 :
    (fun (s : State) (port : RingPort) (bytes : List Byte) (sub : Fin 26) (q : Nat) (t1 x : Int) => holds (
      (s.pdOn port = true) ∧
      (tmOk bytes 2 = true) ∧
      ((s.port port.lanes).pdSent = some (q, t1)) ∧
      (leAt bytes 1 1 = q) ∧
      (s.stampAt sub.val - t1 ≤ 1600000) ∧
      (x = (s.stampAt sub.val - t1 - 10 * (leAt bytes 2 4 : Int)) / 20) ∧
      (x < 0 ∨ 32000 < x ∨ (s.fb port.page RP_PD_DELAY_VALID = true ∧ 32 < (x - (s.fg port.page RP_PD_DELAY_DELAY : Int)).natAbs)))) ({ (st [(0x008, LN_STATUS, 4)]).fs 0x008 RP_PD_CFG_EN 1 with lc := 5000, ring := { ports := [(0, { pdSent := some (7, 5600), pdRej := 15 })] } }) (.east) ((tmBytes 2 7 0)) (0) (7) (5600) (63720) = true := by
  decide +kernel

theorem test_meets_JumpSetsTheResidualToZero_1 :
    (fun (s : State) (who : Initiator) => holds (
      (s.accepts who 0x018 TM_CTRL = true))) ({ upOn [0x018, 0x020] [] with tm := { res0 := 99999999 } }) (.host) = true := by
  decide +kernel

theorem test_meets_EpochBoundaryFlipsTheCanopy_1 :
    (fun (s : State) => holds (
      (s.running 0x01C = true) ∧
      (s.ready 0x01C = true) ∧
      (s.fb 0x01C SC_STATUS_WAITING = false) ∧
      (s.commitPending 0x01C = false) ∧
      (0x01C ∉ s.stopping) ∧
      (s.scan.held = []) ∧
      (s.scan.waits = []) ∧
      (s.tw.swap = none) ∧
      (s.upState ≠ 3))) ({ upOn [0x01C] [(0x01C, SC_EPOCH, 0xFFFFFFFF)] with scan := { vis := [(3, 5)], hid := [(3, some 9), (100, some 77)], next := 1000 } }) = true := by
  decide +kernel

theorem test_meets_EpochBoundaryFlipsTheCanopy_2 :
    (fun (s : State) => holds (
      (s.running 0x01C = true) ∧
      (s.ready 0x01C = true) ∧
      (s.fb 0x01C SC_STATUS_WAITING = true) ∧
      (s.commitPending 0x01C = false) ∧
      (0x01C ∉ s.stopping) ∧
      (s.scan.held = []) ∧
      (s.scan.waits = []) ∧
      (s.tw.swap = none) ∧
      (s.upState ≠ 3))) ({ (upOn [0x01C] []).fs 0x01C SC_STATUS_WAITING 1 with scan := { first := 12, next := 1000 } }) = true := by
  decide +kernel

theorem test_meets_EpochBoundaryFlipsTheCanopy_3 :
    (fun (s : State) => holds (
      (s.running 0x01C = true) ∧
      (s.ready 0x01C = true) ∧
      (s.commitPending 0x01C = false) ∧
      (0x01C ∈ s.stopping) ∧
      (s.scan.held = []) ∧
      (s.scan.waits = []) ∧
      (s.tw.swap = none) ∧
      (s.upState ≠ 3))) ({ upOn [0x01C] [] with stopping := [0x01C] }) = true := by
  decide +kernel

theorem test_meets_LatchGuardAndFrames_1 :
    (fun (s : State) (g : Fin 192) (l k : Nat) => holds (
      (s.scan.latchDue = true) ∧
      (s.running 0x01C = true) ∧
      (s.ready 0x01C = true))) ({ upOn [0x01C] [] with scan := { latchDue := true, vis := [(3, 5)], stat := [(7, 17), (9, 13)] }, chans := [(7, { hist := [(0, 3, 70000)] }), (9, { hist := [(0, 4099, 0)] })] }) (7) (3) (70000) = true := by
  decide +kernel

theorem test_meets_LatchGuardAndFrames_2 :
    (fun (s : State) => holds (
      (s.scan.latchDue = false ∨ s.running 0x01C = false))) (upOn [0x01C] []) = true := by
  decide +kernel

theorem test_meets_LatchGuardAndFrames_3 :
    (fun (s : State) (g : Fin 192) => holds (
      (s.scanOn = true) ∧
      (s.fb 0x01C SC_STATUS_GUARDING = false))) (upOn [0x01C, 0x100 + 9] [(0x100 + 9, EN_MODE, 4), (0x100 + 9, DI_CFG, 0x2000000)]) (8) = true := by
  decide +kernel

theorem test_meets_LatchGuardAndFrames_4 :
    (fun (s : State) => holds (
      (s.scanOn = false ∨ s.fb 0x01C SC_STATUS_GUARDING = true))) (upOn [] []) = true := by
  decide +kernel

theorem test_meets_LatchGuardAndFrames_5 :
    (fun (s : State) => holds (
      (s.fb 0x01C SC_STATUS_GUARDING = true))) (st [(0x01C, SC_STATUS, 4)]) = true := by
  decide +kernel

theorem test_meets_LatchGuardAndFrames_6 :
    (fun (s : State) (f : Frame) (rest : List Frame) => holds (
      (s.inbox portScan = f :: rest) ∧
      (s.fb 0x01C SC_STATUS_GUARDING = false) ∧
      (s.scanOn = false))) ({ ({} : State) with core := { inbox := [(5, [{}])] } }) ({}) ([]) = true := by
  decide +kernel

theorem test_meets_LatchGuardAndFrames_7 :
    (fun (s : State) (f : Frame) (rest : List Frame) (g : Nat) => holds (
      (s.inbox portScan = f :: rest) ∧
      (s.fb 0x01C SC_STATUS_GUARDING = false) ∧
      (s.scanOn = true) ∧
      (f.hdr.cls = .E) ∧
      (f.hdr.mtype = 1) ∧
      (leAt f.payload 0 1 = g) ∧
      (1 ≤ g ∧ g ≤ 5) ∧
      (f.payload.length = 4 + 12 * g) ∧
      (f.hdr.argBits 32 15 + 8 * g ≤ 32768) ∧
      (epochDiff (f.hdr.argBits 0 32) s.epoch = 1))) ({ upOn [0x01C] [(0x01C, SC_EPOCH, 41)] with core := { inbox := [(5, [{ hdr := { mtype := 1, arg := 42 + 16 * 2 ^ 32 }, payload := [1, 0, 0, 0, 1, 2, 3, 4, 5, 6, 7, 8, 9, 10, 11, 12] }])] } }) ({ hdr := { mtype := 1, arg := 42 + 16 * 2 ^ 32 }, payload := [1, 0, 0, 0, 1, 2, 3, 4, 5, 6, 7, 8, 9, 10, 11, 12] }) ([]) (1) = true := by
  decide +kernel

theorem test_meets_LatchGuardAndFrames_8 :
    (fun (s : State) (f : Frame) (rest : List Frame) (g : Nat) => holds (
      (s.inbox portScan = f :: rest) ∧
      (s.fb 0x01C SC_STATUS_GUARDING = false) ∧
      (s.scanOn = true) ∧
      (f.hdr.cls = .E) ∧
      (f.hdr.mtype = 1) ∧
      (leAt f.payload 0 1 = g) ∧
      (1 ≤ g ∧ g ≤ 5) ∧
      (f.payload.length = 4 + 12 * g) ∧
      (f.hdr.argBits 32 15 + 8 * g ≤ 32768) ∧
      (epochDiff (f.hdr.argBits 0 32) s.epoch = 0 ∨ 2 ^ 31 ≤ epochDiff (f.hdr.argBits 0 32) s.epoch))) ({ upOn [0x01C] [(0x01C, SC_EPOCH, 41)] with core := { inbox := [(5, [{ hdr := { mtype := 1, arg := 41 + 16 * 2 ^ 32 }, payload := [1, 0, 0, 0, 1, 2, 3, 4, 5, 6, 7, 8, 9, 10, 11, 12] }])] } }) ({ hdr := { mtype := 1, arg := 41 + 16 * 2 ^ 32 }, payload := [1, 0, 0, 0, 1, 2, 3, 4, 5, 6, 7, 8, 9, 10, 11, 12] }) ([]) (1) = true := by
  decide +kernel

theorem test_meets_LatchGuardAndFrames_9 :
    (fun (s : State) (f : Frame) (rest : List Frame) (g : Nat) => holds (
      (s.inbox portScan = f :: rest) ∧
      (s.fb 0x01C SC_STATUS_GUARDING = false) ∧
      (s.scanOn = true) ∧
      (f.hdr.cls = .E) ∧
      (f.hdr.mtype < 2) ∧
      (leAt f.payload 0 1 = g) ∧
      (g = 0 ∨ 5 < g ∨ f.payload.length ≠ 4 + 12 * g))) ({ upOn [0x01C] [] with core := { inbox := [(5, [{}])] } }) ({}) ([]) (0) = true := by
  decide +kernel

theorem test_meets_LatchGuardAndFrames_10 :
    (fun (s : State) (f : Frame) (rest : List Frame) (g j b : Nat) => holds (
      (s.inbox portScan = f :: rest) ∧
      (s.fb 0x01C SC_STATUS_GUARDING = false) ∧
      (s.scanOn = true) ∧
      (f.hdr.cls = .E) ∧
      (f.hdr.mtype = 0) ∧
      (leAt f.payload 0 1 = g) ∧
      (1 ≤ g ∧ g ≤ 5) ∧
      (f.payload.length = 4 + 12 * g) ∧
      (j < 32) ∧
      (s.fb 0x01C (SC_SUB_CFG_EN.at (0x10 * j)) = true) ∧
      (s.fg 0x01C (SC_SUB_CFG_SRC.at (0x10 * j)) = f.hdr.src ∧ s.fg 0x01C (SC_SUB_CFG_PUB.at (0x10 * j)) = leAt f.payload 2 1) ∧
      (∀ i < j, s.fb 0x01C (SC_SUB_CFG_EN.at (0x10 * i)) = false) ∧
      (b = s.fg 0x01C (SC_SUB_RANGE_BASE.at (0x10 * j)) + f.hdr.argBits 32 15) ∧
      (f.hdr.argBits 32 15 + 8 * g ≤ s.fg 0x01C (SC_SUB_RANGE_LEN.at (0x10 * j))) ∧
      (b + 8 * g ≤ 32768) ∧
      (epochDiff (f.hdr.argBits 0 32) s.epoch = 0))) ({ ((((upOn [0x01C] [(0x01C, SC_EPOCH, 41)]).fs 0x01C SC_SUB_CFG_EN 1).fs 0x01C SC_SUB_CFG_SRC 7).fs 0x01C SC_SUB_RANGE_BASE 800).fs 0x01C SC_SUB_RANGE_LEN 64 with core := { inbox := [(5, [{ hdr := { src := 7, arg := 41 }, payload := [1, 0, 0, 0, 1, 2, 3, 4, 5, 6, 7, 8, 9, 10, 11, 12] }])] } }) ({ hdr := { src := 7, arg := 41 }, payload := [1, 0, 0, 0, 1, 2, 3, 4, 5, 6, 7, 8, 9, 10, 11, 12] }) ([]) (1) (0) (800) = true := by
  decide +kernel

theorem test_meets_LatchGuardAndFrames_11 :
    (fun (s : State) (who : Initiator) (v : Word) => holds (
      (s.accepts who 0x01C SC_OPUB_SEND = true) ∧
      (s.fb 0x01C SC_STATUS_STARTED = false ∨ epochDiff (s.rd 0x01C SC_OPUB_REL).toNat s.epoch = 0 ∨ 2 ^ 31 ≤ epochDiff (s.rd 0x01C SC_OPUB_REL).toNat s.epoch))) (upOn [0x01C, 0x020] []) (.host) (1) = true := by
  decide +kernel

theorem test_meets_LatchGuardAndFrames_12 :
    (fun (s : State) (who : Initiator) (v : Word) => holds (
      (s.accepts who 0x01C SC_OPUB_SEND = true) ∧
      (s.fb 0x01C SC_STATUS_STARTED = true) ∧
      (0 < epochDiff (s.rd 0x01C SC_OPUB_REL).toNat s.epoch ∧ epochDiff (s.rd 0x01C SC_OPUB_REL).toNat s.epoch < 2 ^ 31))) (((((upOn [0x01C, 0x020] [(0x01C, SC_OPUB_REL, 5)]).fs 0x01C SC_STATUS_STARTED 1).fs 0x01C SC_OPUB_DEST_EN 1).fs 0x01C SC_OPUB_RANGE_LEN 48)) (.host) (1) = true := by
  decide +kernel

theorem test_meets_CardLinksComeUp_1 :
    (fun (s : State) (pitch : Pitch) (term : Bool) => holds (
      (s.clState pitch.val = 1))) ({ (({} : State).fs 0x050 CL_STATUS_STATE 1) with cards := [(0, { probes := 1 })] }) (0) (true) = true := by
  decide +kernel

theorem test_meets_CardLinksComeUp_2 :
    (fun (s : State) (pitch : Pitch) (bytes : List Byte) (sample : Nat) (inv : Bool) => holds (
      (s.clState pitch.val = 2) ∧
      (bytes.length = 10) ∧
      (clTrainOk bytes = true) ∧
      (63 ≤ (s.card pitch.val).lock) ∧
      (7 ≤ (s.card pitch.val).seen) ∧
      (nbit (leAt bytes 2 1) 0 = true))) ({ (({} : State).fs 0x050 CL_STATUS_STATE 2) with cards := [(0, { lock := 63, seen := 7 })] }) (0) ((clFrame k285 [0xCA, 1, 9, 0x4A, 0xB5, 0x4A, 0xB5, 0x4A])) (3) (true) = true := by
  decide +kernel

theorem test_meets_CardLinksComeUp_3 :
    (fun (s : State) (pitch : Pitch) (bytes : List Byte) (sample : Nat) (inv : Bool) (mark : CardEnd) => holds (
      (bytes.length = 10) ∧
      (s.clState pitch.val = 2) ∧
      (clTrainOk bytes = false ∨ mark ≠ .clean))) ((({} : State).fs 0x050 CL_STATUS_STATE 2)) (0) ((clFrame k285 [0xCA, 1, 9, 0x4A, 0xB5, 0x4A, 0xB5, 0x4A])) (3) (false) (.violations 1) = true := by
  decide +kernel

theorem test_meets_CardLinksComeUp_4 :
    (fun (s : State) (pitch : Pitch) (bytes : List Byte) (sample : Nat) (inv : Bool) (mark : CardEnd) => holds (
      (bytes.length = 10) ∧
      (s.clState pitch.val = 3))) ((({} : State).fs 0x050 CL_STATUS_STATE 3)) (0) ((clFrame k285 [0xCA, 1, 9, 0x4A, 0xB5, 0x4A, 0xB5, 0x4A])) (3) (false) (.clean) = true := by
  decide +kernel

theorem test_meets_CardLinksComeUp_5 :
    (fun (s : State) (pitch : Pitch) => holds (
      (s.clState pitch.val = 2) ∧
      (s.fb (clPage pitch.val) CL_LSTAT_LOCKED = false))) ((({} : State).fs 0x050 CL_STATUS_STATE 2)) (0) = true := by
  decide +kernel

theorem test_meets_CardLinksComeUp_6 :
    (fun (s : State) (pitch : Pitch) => holds (
      (s.clState pitch.val = 3) ∧
      ((s.card pitch.val).looped = false) ∧
      ((s.card pitch.val).samples.length = 256))) ({ (({} : State).fs 0x050 CL_STATUS_STATE 3) with cards := [(0, { samples := List.replicate 256 1500 })] }) (0) = true := by
  decide +kernel

theorem test_meets_CardLinksComeUp_7 :
    (fun (s : State) (pitch : Pitch) (bytes : List Byte) => holds (
      (s.clState pitch.val = 4) ∧
      (bytes.length = 64) ∧
      (leAt bytes 0 1 = 1) ∧
      (leAt bytes 62 2 = crc16 (bytes.take 62)) ∧
      ((s.card pitch.val).roll = (bytes.drop 2).take 60) ∧
      (leAt bytes 17 1 = 1) ∧
      (s.fg (clPage pitch.val) CL_EXPECT_TYPE = 0 ∨ s.fg (clPage pitch.val) CL_EXPECT_TYPE = leAt bytes 10 2))) ((let b : List Byte := [1, 0, 1, 2, 3, 4, 5, 6, 7, 8, 9, 0, 1, 1, 0xFF, 0, 0, 1] ++ List.replicate 44 0; let x := b ++ leBytes (crc16 b) 2; { (({} : State).fs 0x050 CL_STATUS_STATE 4) with cards := [(0, { roll := (x.drop 2).take 60 })] })) (0) ((let b : List Byte := [1, 0, 1, 2, 3, 4, 5, 6, 7, 8, 9, 0, 1, 1, 0xFF, 0, 0, 1] ++ List.replicate 44 0; b ++ leBytes (crc16 b) 2)) = true := by
  decide +kernel

theorem test_meets_CardLinksComeUp_8 :
    (fun (s : State) (pitch : Pitch) (bytes : List Byte) (anyBad : Bool) => holds (
      (4 ≤ s.clState pitch.val) ∧
      (bytes.length = 64) ∧
      (anyBad = true ∨ leAt bytes 62 2 ≠ crc16 (bytes.take 62) ∨ (2 < leAt bytes 0 1 ∧ leAt bytes 0 1 ≠ 0x10)))) ((({} : State).fs 0x050 CL_STATUS_STATE 5)) (0) ((List.replicate 64 7)) (false) = true := by
  decide +kernel

theorem test_meets_CardLinksComeUp_9 :
    (fun (s : State) (pitch : Pitch) => holds (
      (s.clState pitch.val = 4))) ((({} : State).fs 0x050 CL_STATUS_STATE 4)) (0) = true := by
  decide +kernel

theorem test_meets_CardLinksComeUp_10 :
    (fun (s : State) (who : Initiator) (pitch : Pitch) => holds (
      (s.accepts who (clPage pitch.val) CL_CTRL = true) ∧
      (3 ≤ s.clState pitch.val))) (((upOn [0x020, 0x050] []).fs 0x050 CL_STATUS_STATE 5)) (.host) (0) = true := by
  decide +kernel

theorem test_meets_CardFramesInAndOut_1 :
    (fun (s : State) (pitch : Pitch) (bytes : List Byte) => holds (
      (s.clState pitch.val = 5) ∧
      (bytes.length = 10) ∧
      (bytes.head? = some (if (s.card pitch.val).rxPos = 0 then k285 else k281)) ∧
      (clCrcOk bytes = true) ∧
      (leAt bytes 8 1 % 64 = (s.card pitch.val).rxPos) ∧
      (nbit (leAt bytes 8 1) 7 = true))) (((upOn [0x048] []).fs 0x050 CL_STATUS_STATE 5)) (0) ((clFrame k285 [0x20, 0, 0, 0, 0, 0, 0, 0x80])) = true := by
  decide +kernel

theorem test_meets_CardFramesInAndOut_2 :
    (fun (s : State) (pitch : Pitch) (bytes : List Byte) (mark : CardEnd) => holds (
      (s.clState pitch.val = 5) ∧
      (bytes.length = 10) ∧
      (mark ≠ .clean ∨ clCrcOk bytes = false ∨ bytes.head? ≠ some (if (s.card pitch.val).rxPos = 0 then k285 else k281) ∨ leAt bytes 8 1 % 64 ≠ (s.card pitch.val).rxPos))) ({ (({} : State).fs 0x050 CL_STATUS_STATE 5) with cards := [(0, { badRun := 3 })] }) (0) ((List.replicate 10 0)) (.violations 0) = true := by
  decide +kernel

theorem test_meets_CardFramesInAndOut_3 :
    (fun (s : State) (pitch : Pitch) => holds (
      (s.clState pitch.val = 5))) ((({} : State).fs 0x050 CL_STATUS_STATE 5)) (0) = true := by
  decide +kernel

theorem test_meets_CardFramesInAndOut_4 :
    (fun (s : State) (pitch : Pitch) => holds (
      (4 ≤ s.clState pitch.val))) ((({} : State).fs 0x050 CL_STATUS_STATE 5)) (0) = true := by
  decide +kernel

theorem test_meets_CardFramesInAndOut_5 :
    (fun (s : State) (pitch : Pitch) => holds (
      (s.clState pitch.val = 2))) ((({} : State).fs 0x050 CL_STATUS_STATE 2)) (0) = true := by
  decide +kernel

theorem test_meets_CardFramesInAndOut_6 :
    (fun (s : State) (pitch : Pitch) (live : Nat) => holds (
      (s.clState pitch.val = 5) ∧
      (clPage pitch.val ∉ s.stopping ∧ ecPage pitch.val ∉ s.stopping) ∧
      (s.commitPending (clPage pitch.val) = false ∧ s.commitPending (ecPage pitch.val) = false) ∧
      (s.tw.swap = none) ∧
      (s.tw.newSwap = false) ∧
      ((s.card pitch.val).rlSn = none))) ((({} : State).fs 0x050 CL_STATUS_STATE 5)) (0) (1500) = true := by
  decide +kernel

theorem test_meets_CardFramesInAndOut_7 :
    (fun (s : State) (pitch : Pitch) (k : Nat) => holds (
      ((s.card pitch.val).safeAge = some k) ∧
      (16 ≤ k) ∧
      ((s.card pitch.val).statSeen = true) ∧
      (s.fg (clPage pitch.val) CL_CARD_STAT_LLT ≠ s.fg (clPage pitch.val) CL_SAFE_LLT ∨ s.fg (clPage pitch.val) CL_CARD_STAT_SAFE_LEVEL ≠ s.fg (clPage pitch.val) CL_SAFE_SAFE_LEVEL ∨ s.fg (clPage pitch.val) CL_CARD_STAT_SAFE_EN ≠ s.fg (clPage pitch.val) CL_SAFE_SAFE_EN))) ({ (({} : State).fs 0x050 CL_SAFE_LLT 5) with cards := [(0, { safeAge := some 16, statSeen := true })] }) (0) (16) = true := by
  decide +kernel

theorem test_meets_CardFramesInAndOut_8 :
    (fun (s : State) (pitch : Pitch) => holds (
      (((s.card pitch.val).safeAge.all fun k => k < 16) = true ∨ (s.card pitch.val).statSeen = false))) ({}) (0) = true := by
  decide +kernel

theorem test_meets_EngineTakesReportsAndGaps_1 :
    (fun (s : State) (pitch : Pitch) (chan : Channel) (parity : EngParity) (r : Rep) (rest : List Rep) => holds (
      ((s.chan pitch.val chan.val).reps = r :: rest) ∧
      (r.gap = false) ∧
      (s.tw.eng.getD (8 * pitch.val + chan.val) [] = []))) ({ upOn [0x080] [(0x100, EN_MODE, 2), (0x100, 0x9C, 2)] with chans := [(0, { reps := [{ level := true, edge := true, fine := 3, base := 2560000 }], prev := some false })] }) (0) (0) (.engine) ({ level := true, edge := true, fine := 3, base := 2560000 }) ([]) = true := by
  decide +kernel

theorem test_meets_EngineTakesReportsAndGaps_2 :
    (fun (s : State) (pitch : Pitch) (chan : Channel) (parity : EngParity) => holds (
      (∀ r ∈ (s.chan pitch.val chan.val).reps.head?, r.gap = true))) ((({} : State))) (0) (0) (.engine) = true := by
  decide +kernel

theorem test_meets_EngineTakesReportsAndGaps_3 :
    (fun (s : State) (pitch : Pitch) (chan : Channel) (r : Rep) (rest : List Rep) => holds (
      ((s.chan pitch.val chan.val).reps = r :: rest) ∧
      (r.gap = false ∧ r.edge = true ∧ r.glitch = false) ∧
      (s.enMode (s.enOf pitch.val chan.val) = 1) ∧
      (s.enRuns (s.enOf pitch.val chan.val) = true) ∧
      (r.level = !s.mark (s.enOf pitch.val chan.val)) ∧
      ((s.chan pitch.val chan.val).rx = none ∧ (s.chan pitch.val chan.val).brk = false ∧ (s.chan pitch.val chan.val).wait = none) ∧
      (∀ u ∈ (s.chan pitch.val chan.val).stopAt, u < r.base + (r.fine : Int) * 160 + 80) ∧
      ((s.chan pitch.val chan.val).deafAt r.base = false ∧ (s.chan pitch.val chan.val).deafAt (r.base + (r.fine : Int) * 160 + 80) = false) ∧
      (s.tw.eng.getD (8 * pitch.val + chan.val) [] = []))) ({ upOn [0x100, 0x080] [(0x100, EN_MODE, 1)] with chans := [(0, { reps := [{ level := false, edge := true, fine := 3, base := 2560000 }], stopAt := some 5 })] }) (0) (0) ({ level := false, edge := true, fine := 3, base := 2560000 }) ([]) = true := by
  decide +kernel

theorem test_meets_EngineTakesReportsAndGaps_4 :
    (fun (s : State) (pitch : Pitch) (chan : Channel) (r : Rep) (rest : List Rep) (y : Xfer) (u : Int) => holds (
      ((s.chan pitch.val chan.val).reps = r :: rest) ∧
      (r.gap = false) ∧
      (s.enMode (s.enOf pitch.val chan.val) = 3) ∧
      (s.enRuns (s.enOf pitch.val chan.val) = true) ∧
      ((s.chan pitch.val chan.val).xfer = some y) ∧
      (y.i < s.fg (s.enOf pitch.val chan.val) SY_CFG_WIDTH) ∧
      (u = s.syEdge (s.enOf pitch.val chan.val) y.t0 y.i + 160 * (s.fg (s.enOf pitch.val chan.val) SY_DLY_SAMPLE_DLY : Int)) ∧
      (u < r.base + 2560) ∧
      (s.tw.eng.getD (8 * pitch.val + chan.val) [] = []))) ({ upOn [0x100, 0x080] [(0x100, EN_MODE, 3), (0x100, SY_CFG, 0x80000)] with chans := [(0, { reps := [{ level := true, base := 2560000 }], xfer := some {} })] }) (0) (0) ({ level := true, base := 2560000 }) ([]) ({}) (0) = true := by
  decide +kernel

theorem test_meets_EngineTakesReportsAndGaps_5 :
    (fun (s : State) (pitch : Pitch) (chan : Channel) (r : Rep) (rest : List Rep) (l : Bool) => holds (
      ((s.chan pitch.val chan.val).reps = r :: rest) ∧
      (r.gap = false ∧ r.edge = true ∧ r.glitch = false) ∧
      (s.enMode (s.enOf pitch.val chan.val) = 4) ∧
      (s.enRuns (s.enOf pitch.val chan.val) = true) ∧
      ((s.chan pitch.val chan.val).prev ≠ none) ∧
      ((s.chan pitch.val chan.val).acc = some l) ∧
      ((s.chan pitch.val chan.val).deb = none) ∧
      (l = (r.level == s.fb (s.enOf pitch.val chan.val) DI_CFG_INV)) ∧
      (s.fg (s.enOf pitch.val chan.val) DI_CFG_DEB = 0) ∧
      (s.fg (s.enOf pitch.val chan.val) DI_CFG_EDGE_SEL = 3) ∧
      (s.tw.eng.getD (8 * pitch.val + chan.val) [] = []))) ({ upOn [0x100, 0x080] [(0x100, EN_MODE, 4), (0x100, DI_CFG, 3 * 2 ^ DI_CFG_EDGE_SEL.lo)] with chans := [(0, { reps := [{ level := true, edge := true, base := 2560000 }], prev := some false, acc := some false })] }) (0) (0) ({ level := true, edge := true, base := 2560000 }) ([]) (false) = true := by
  decide +kernel

theorem test_meets_EngineTakesReportsAndGaps_6 :
    (fun (s : State) (pitch : Pitch) (chan : Channel) (r : Rep) (rest : List Rep) (x : Int) => holds (
      ((s.chan pitch.val chan.val).reps = r :: rest) ∧
      (r.gap = false ∧ r.edge = false ∧ r.glitch = false) ∧
      (r.level = !s.fb (s.enOf pitch.val chan.val) PB_CFG_INV) ∧
      (s.enMode (s.enOf pitch.val chan.val) = 2) ∧
      (s.enRuns (s.enOf pitch.val chan.val) = true) ∧
      (s.fg (s.enOf pitch.val chan.val) PB_ERR_STATE = 1) ∧
      (s.fg (s.enOf pitch.val chan.val) PB_ERR_TEC < 128 ∧ s.fg (s.enOf pitch.val chan.val) PB_ERR_REC < 128) ∧
      ((s.chan pitch.val chan.val).flush = false) ∧
      ((s.chan pitch.val chan.val).pb.ph = .integrate ∧ (s.chan pitch.val chan.val).pb.k = 10 ∧ (s.chan pitch.val chan.val).pb.fast = false ∧ (s.chan pitch.val chan.val).pb.start = none ∧ (s.chan pitch.val chan.val).pb.ssp = []) ∧
      ((s.chan pitch.val chan.val).pb.x = some x) ∧
      (x < r.base + 2560 ∧ r.base + 2560 ≤ x + s.pbT (s.enOf pitch.val chan.val) false) ∧
      (s.tw.eng.getD (8 * pitch.val + chan.val) [] = []))) ({ upOn [0x100, 0x080] [(0x100, EN_MODE, 2), (0x100, PB_ERR, 2 ^ PB_ERR_STATE.lo), (0x100, PB_NBT, 0x3F3F1F20)] with chans := [(0, { reps := [{ level := true, base := 2560000 }], pb := { k := 10, x := some 2560000 } })] }) (0) (0) ({ level := true, base := 2560000 }) ([]) (2560000) = true := by
  decide +kernel

theorem test_meets_EngineTakesReportsAndGaps_7 :
    (fun (s : State) (pitch : Pitch) (chan : Channel) (r : Rep) (rest : List Rep) (x : Int) => holds (
      ((s.chan pitch.val chan.val).reps = r :: rest) ∧
      (r.gap = false ∧ r.edge = false ∧ r.glitch = false) ∧
      (r.level = s.fb (s.enOf pitch.val chan.val) PB_CFG_INV) ∧
      (s.enMode (s.enOf pitch.val chan.val) = 2) ∧
      (s.enRuns (s.enOf pitch.val chan.val) = true) ∧
      (s.fg (s.enOf pitch.val chan.val) PB_ERR_STATE = 2 ∨ s.fg (s.enOf pitch.val chan.val) PB_ERR_STATE = 3) ∧
      (s.fb (s.enOf pitch.val chan.val) PB_CFG_RESTRICTED = false) ∧
      ((s.chan pitch.val chan.val).pb.ph = .eof ∧ (s.chan pitch.val chan.val).pb.k < 6 ∧ (s.chan pitch.val chan.val).pb.tx = false ∧ (s.chan pitch.val chan.val).pb.fast = false ∧ (s.chan pitch.val chan.val).pb.start = none ∧ (s.chan pitch.val chan.val).pb.ssp = []) ∧
      ((s.chan pitch.val chan.val).pb.x = some x) ∧
      (x < r.base + 2560 ∧ r.base + 2560 ≤ x + s.pbT (s.enOf pitch.val chan.val) false) ∧
      (s.tw.eng.getD (8 * pitch.val + chan.val) [] = []))) ({ upOn [0x100, 0x080] [(0x100, EN_MODE, 2), (0x100, PB_ERR, 2 * 2 ^ PB_ERR_STATE.lo), (0x100, PB_NBT, 0x3F3F1F20)] with chans := [(0, { reps := [{ level := false, base := 2560000 }], pb := { ph := .eof, k := 3, x := some 2560000 } })] }) (0) (0) ({ level := false, base := 2560000 }) ([]) (2560000) = true := by
  decide +kernel

theorem test_meets_EngineTakesReportsAndGaps_8 :
    (fun (s : State) (pitch : Pitch) (chan : Channel) (base : Int) (y : Xfer) => holds (
      ((match (s.chan pitch.val chan.val).reps with | q :: _ => if q.gap then some q.base else none | [] => if s.clState pitch.val ≠ 5 then some (s.now + s.delayU pitch.val - 2560) else none) = some base) ∧
      (s.enRuns (s.enOf pitch.val chan.val) = true) ∧
      (s.tw.eng.getD (8 * pitch.val + chan.val) [] = []))) ({ upOn [0x100, 0x080] [(0x100, EN_MODE, 3), (0x100, SY_CFG, 0x80000)] with chans := [(0, { reps := [{ gap := true, base := 0 }], xfer := some {} })] }) (0) (0) (0) ({}) = true := by
  decide +kernel

theorem test_meets_EngineTakesReportsAndGaps_9 :
    (fun (s : State) (pitch : Pitch) (chan : Channel) => holds (
      (∀ q ∈ (s.chan pitch.val chan.val).reps.head?, q.gap = false) ∧
      ((s.chan pitch.val chan.val).reps = [] → s.clState pitch.val = 5))) ((({} : State).fs 0x050 CL_STATUS_STATE 5)) (0) (0) = true := by
  decide +kernel

theorem test_meets_EngineRecordsModesAndMigration_1 :
    (fun (s : State) (pitch : Pitch) (chan : Channel) (b : RecBuf) => holds (
      ((s.chan pitch.val chan.val).buf = some b) ∧
      (s.enMode (s.enOf pitch.val chan.val) ≠ 1))) ({ upOn [0x100, 0x080, 0x010] [(0x100, EN_MODE, 4), (0x100, EN_RXDST, 2 ^ EN_RXDST_RX_EN.lo)] with chans := [(0, { buf := some { rtype := 4, items := [(3, [1, 2, 3, 4, 5, 6, 7, 0])] } })] }) (0) (0) ({ rtype := 4, items := [(3, [1, 2, 3, 4, 5, 6, 7, 0])] }) = true := by
  decide +kernel

theorem test_meets_EngineRecordsModesAndMigration_2 :
    (fun (s : State) (pitch : Pitch) (chan : Channel) => holds (
      ((s.chan pitch.val chan.val).buf = none ∨ s.enMode (s.enOf pitch.val chan.val) = 1))) ((({} : State).fs 0x100 EN_MODE_MODE 1)) (0) (0) = true := by
  decide +kernel

theorem test_meets_EngineRecordsModesAndMigration_3 :
    (fun (s : State) (pitch : Pitch) (f : Frame) (rest : List Frame) (items : List (List Byte)) => holds (
      (s.core.inbox.getD (portCluster pitch.val) [] = f :: rest) ∧
      (f.routed = false) ∧
      ((txItems (s.enMode (s.enOf pitch.val (leAt f.payload 0 1 % 8))) f.payload).filter (fun items => f.hdr.cls = .B ∧ f.hdr.mtype = 0x10 ∧ leAt f.payload 0 1 < 8 ∧ (s.chan pitch.val (leAt f.payload 0 1 % 8)).used + (items.map List.length).sum ≤ 1024 ∧ f.payload.length = 12 + ((items.map List.length).sum + 3) / 4 * 4) = some items))) ({ upOn [0x100, 0x080] [(0x100, EN_MODE, 1)] with core := { inbox := [(6, [{ hdr := { cls := .B, mtype := 0x10 }, payload := [0, 0, 2, 2, 0, 0, 0, 0, 0, 0, 0, 0, 65, 0, 66, 0] }])] } }) (0) ({ hdr := { cls := .B, mtype := 0x10 }, payload := [0, 0, 2, 2, 0, 0, 0, 0, 0, 0, 0, 0, 65, 0, 66, 0] }) ([]) ([[65, 0], [66, 0]]) = true := by
  decide +kernel

theorem test_meets_EngineRecordsModesAndMigration_4 :
    (fun (s : State) (pitch : Pitch) (f : Frame) (rest : List Frame) => holds (
      (s.core.inbox.getD (portCluster pitch.val) [] = f :: rest) ∧
      (f.routed = false) ∧
      ((txItems (s.enMode (s.enOf pitch.val (leAt f.payload 0 1 % 8))) f.payload).filter (fun items => f.hdr.cls = .B ∧ f.hdr.mtype = 0x10 ∧ leAt f.payload 0 1 < 8 ∧ (s.chan pitch.val (leAt f.payload 0 1 % 8)).used + (items.map List.length).sum ≤ 1024 ∧ f.payload.length = 12 + ((items.map List.length).sum + 3) / 4 * 4) = none))) ({ upOn [0x080] [] with core := { inbox := [(6, [{ hdr := { cls := .B, mtype := 0x10 } }])] } }) (0) ({ hdr := { cls := .B, mtype := 0x10 } }) ([]) = true := by
  decide +kernel

theorem test_meets_EngineRecordsModesAndMigration_5 :
    (fun (s : State) (pitch : Pitch) => holds (
      (∀ f ∈ (s.core.inbox.getD (portCluster pitch.val) []).head?, f.routed = true))) ((({} : State))) (0) = true := by
  decide +kernel

theorem test_meets_EngineRecordsModesAndMigration_6 :
    (fun (s : State) (who : Initiator) (engine : Engine) (v : Word) => holds (
      (s.accepts who (s.enReg engine) EN_MODE = true) ∧
      (s.running (s.enReg engine) = false ∨ who = .preload) ∧
      (EN_MODE_MODE.get v ≤ 4) ∧
      (EN_MODE_MODE.get v ≠ s.enMode (s.enReg engine)))) (upOn [0x020] [(0x100, PAGE_STATE, 1), (0x100, EN_CNT, 5)]) (.host) (0) (3) = true := by
  decide +kernel

theorem test_meets_EngineRecordsModesAndMigration_7 :
    (fun (s : State) (who : Initiator) (engine : Engine) (v : Word) => holds (
      (s.accepts who (s.enReg engine) EN_MODE = true) ∧
      (s.running (s.enReg engine) = true) ∧
      (who ≠ .preload) ∧
      (EN_MODE_CLR_CNT.get v = 0))) (upOn [0x020, 0x100] []) (.host) (0) (3) = true := by
  decide +kernel

theorem test_meets_EngineRecordsModesAndMigration_8 :
    (fun (s : State) (who : Initiator) (cluster : Pitch) (v : Word) => holds (
      (s.accepts who (ecPage cluster.val) EC_MIG_CMD = true) ∧
      (EC_MIG_CMD_GO.get v = 1) ∧
      (s.fb (ecPage cluster.val) EC_MIG_STATUS_SPARE_USED = false) ∧
      (s.fb (ecPage cluster.val) EC_MIG_STATUS_SPARE_OK = true) ∧
      (s.followed cluster.val = none) ∧
      (s.running (ecPage cluster.val) = true) ∧
      (s.secondOfPair cluster.val (EC_MIG_CMD_CHAN.get v) = false) ∧
      (s.canonical = true))) (upOn [0x020, 0x080, 0x102] [(0x080, EC_MIG_STATUS, 2 ^ EC_MIG_STATUS_SPARE_OK.lo), (0x102, EN_MODE, 1)]) (.host) (0) (BitVec.ofNat 32 (2 ^ EC_MIG_CMD_GO.lo + 2 * 2 ^ EC_MIG_CMD_CHAN.lo)) = true := by
  decide +kernel

theorem test_meets_EngineRecordsModesAndMigration_9 :
    (fun (s : State) (who : Initiator) (cluster : Pitch) (v : Word) => holds (
      (s.accepts who (ecPage cluster.val) EC_MIG_CMD = true) ∧
      (EC_MIG_CMD_GO.get v = 1) ∧
      (s.fb (ecPage cluster.val) EC_MIG_STATUS_SPARE_USED = false) ∧
      (s.fb (ecPage cluster.val) EC_MIG_STATUS_SPARE_OK = true) ∧
      (s.followed cluster.val = none) ∧
      (s.running (ecPage cluster.val) = true) ∧
      (s.secondOfPair cluster.val (EC_MIG_CMD_CHAN.get v) = false) ∧
      (s.canonical = true))) (upOn [0x020, 0x080, 0x102] [(0x080, EC_MIG_STATUS, 2 ^ EC_MIG_STATUS_SPARE_OK.lo), (0x102, EN_MODE, 1)]) (.host) (0) (BitVec.ofNat 32 (2 ^ EC_MIG_CMD_GO.lo + 2 * 2 ^ EC_MIG_CMD_CHAN.lo)) = true := by
  decide +kernel

theorem test_meets_EngineRecordsModesAndMigration_10 :
    (fun (s : State) (who : Initiator) (cluster : Pitch) (v : Word) => holds (
      (s.accepts who (ecPage cluster.val) EC_MIG_CMD = true) ∧
      (EC_MIG_CMD_GO.get v = 1) ∧
      (s.fb (ecPage cluster.val) EC_MIG_STATUS_SPARE_USED = true ∨ s.fb (ecPage cluster.val) EC_MIG_STATUS_SPARE_OK = false ∨ s.followed cluster.val ≠ none ∨ s.running (ecPage cluster.val) = false ∨ s.secondOfPair cluster.val (EC_MIG_CMD_CHAN.get v) = true))) (upOn [0x020, 0x080, 0x102] [(0x080, EC_MIG_STATUS, 2 ^ EC_MIG_STATUS_SPARE_USED.lo), (0x102, EN_MODE, 1)]) (.host) (0) (BitVec.ofNat 32 (2 ^ EC_MIG_CMD_GO.lo + 2 * 2 ^ EC_MIG_CMD_CHAN.lo)) = true := by
  decide +kernel

theorem test_meets_EngineRecordsModesAndMigration_11 :
    (fun (s : State) (who : Initiator) (cluster : Pitch) (v : Word) => holds (
      (s.accepts who (ecPage cluster.val) EC_MIG_CMD = true) ∧
      (EC_MIG_CMD_GO.get v = 1) ∧
      (s.fb (ecPage cluster.val) EC_MIG_STATUS_SPARE_USED = true ∨ s.fb (ecPage cluster.val) EC_MIG_STATUS_SPARE_OK = false ∨ s.followed cluster.val ≠ none ∨ s.running (ecPage cluster.val) = false ∨ s.secondOfPair cluster.val (EC_MIG_CMD_CHAN.get v) = true))) (upOn [0x020, 0x080, 0x102] [(0x080, EC_MIG_STATUS, 2 ^ EC_MIG_STATUS_SPARE_USED.lo), (0x102, EN_MODE, 1)]) (.host) (0) (BitVec.ofNat 32 (2 ^ EC_MIG_CMD_GO.lo + 2 * 2 ^ EC_MIG_CMD_CHAN.lo)) = true := by
  decide +kernel

theorem test_meets_EngineRecordsModesAndMigration_12 :
    (fun (s : State) (who : Initiator) (cluster : Pitch) (v : Word) => holds (
      (s.accepts who (ecPage cluster.val) EC_MIG_CMD = true) ∧
      (EC_MIG_CMD_GO.get v = 0))) (upOn [0x020, 0x080] []) (.host) (0) (0) = true := by
  decide +kernel

theorem test_meets_EngineRecordsModesAndMigration_13 :
    (fun (s : State) (who : Initiator) (cluster : Pitch) (v : Word) => holds (
      (s.accepts who (ecPage cluster.val) EC_MIG_CMD = true) ∧
      (EC_MIG_CMD_GO.get v = 0))) (upOn [0x020, 0x080] []) (.host) (0) (0) = true := by
  decide +kernel

theorem test_meets_EngineRecordsModesAndMigration_14 :
    (fun (s : State) (cluster : Pitch) (c : Channel) (urgent : Bool) (cause : Nat) => holds (
      (s.followed cluster.val = some c.val) ∧
      ((s.chan cluster.val c.val).mig = some (urgent, cause)) ∧
      (s.fb (ecPage cluster.val) EC_MIG_STATUS_SPARE_OK = true) ∧
      (urgent = true ∨ s.atBoundary cluster.val c.val = true) ∧
      (s.secondOfPair cluster.val c.val = false) ∧
      (s.mapPos cluster.val c.val < 8))) ({ upOn [0x080, 0x102] [(0x080, EC_MIG_STATUS, 2 ^ EC_MIG_STATUS_SPARE_OK.lo + 2 ^ EC_MIG_STATUS_STATE.lo + 2 * 2 ^ EC_MIG_STATUS_CHAN.lo)] with chans := [(2, { mig := some (true, 3), xfer := some {} })] }) (0) (2) (true) (3) = true := by
  decide +kernel

theorem test_meets_EngineRecordsModesAndMigration_15 :
    (fun (s : State) (cluster : Pitch) => holds (
      (∀ c ∈ s.followed cluster.val, ∀ m ∈ (s.chan cluster.val c).mig, s.fb (ecPage cluster.val) EC_MIG_STATUS_SPARE_OK = false ∨ (m.1 = false ∧ s.atBoundary cluster.val c = false)))) ((({} : State))) (0) = true := by
  decide +kernel

theorem test_meets_EngineRecordsModesAndMigration_16 :
    (fun (s : State) (cluster : Pitch) (c : Nat) => holds (
      (s.followed cluster.val = some c))) ({ upOn [0x080] [(0x080, EC_MIG_STATUS, 2 ^ EC_MIG_STATUS_STATE.lo + 2 * 2 ^ EC_MIG_STATUS_CHAN.lo)] with chans := [(2, { mig := some (true, 3) })] }) (0) (2) = true := by
  decide +kernel

theorem test_meets_EngineRecordsModesAndMigration_17 :
    (fun (s : State) (cluster : Pitch) => holds (
      (s.followed cluster.val = none))) ((({} : State))) (0) = true := by
  decide +kernel

theorem test_meets_EngineRecordsModesAndMigration_18 :
    (fun (s : State) (cluster : Pitch) => holds (
      (s.gs.loading.contains cluster.val = true))) ({ upOn [0x080] [] with gs := { loading := [0, 4] } }) (0) = true := by
  decide +kernel

theorem test_meets_EngineRecordsModesAndMigration_19 :
    (fun (s : State) (cluster : Pitch) => holds (
      (s.gs.loading.contains cluster.val = false))) ((({} : State))) (3) = true := by
  decide +kernel

theorem test_meets_ModeCommands_1 :
    (fun (s : State) (pitch : Pitch) (chan : Channel) (b : RecBuf) => holds (
      (s.enMode (s.enOf pitch.val chan.val) = 1) ∧
      ((s.chan pitch.val chan.val).rx = none) ∧
      ((s.chan pitch.val chan.val).buf = some b))) ({ upOn [0x100, 0x080, 0x010] [(0x100, EN_MODE, 1), (0x100, EN_RXDST, 2 ^ EN_RXDST_RX_EN.lo)] with chans := [(0, { buf := some { rtype := 1, items := [(3, [65, 0])] } })] }) (0) (0) ({ rtype := 1, items := [(3, [65, 0])] }) = true := by
  decide +kernel

theorem test_meets_ModeCommands_2 :
    (fun (s : State) (pitch : Pitch) (chan : Channel) => holds (
      (s.enMode (s.enOf pitch.val chan.val) = 1) ∧
      ((s.chan pitch.val chan.val).rx = none) ∧
      ((s.chan pitch.val chan.val).buf = none))) (upOn [0x100, 0x080, 0x010] [(0x100, EN_MODE, 1)]) (0) (0) = true := by
  decide +kernel

theorem test_meets_ModeCommands_3 :
    (fun (s : State) (pitch : Pitch) (chan : Channel) => holds (
      (s.enMode (s.enOf pitch.val chan.val) ≠ 1 ∨ (s.chan pitch.val chan.val).rx ≠ none))) (({} : State)) (0) (0) = true := by
  decide +kernel

theorem test_meets_ModeCommands_4 :
    (fun (s : State) (pitch : Pitch) (chan : Channel) (u : Int) (item : List Byte) (rest : List (Int × List Byte)) (f : Int) => holds (
      (s.enMode (s.enOf pitch.val chan.val) = 1) ∧
      (s.enRuns (s.enOf pitch.val chan.val) = true) ∧
      (s.txHeld pitch.val chan.val = false) ∧
      ((s.chan pitch.val chan.val).fifo = (u, item) :: rest) ∧
      (f = max (s.earliest pitch.val) ((s.chan pitch.val chan.val).txEnd.getD (s.earliest pitch.val))))) ({ upOn [0x100, 0x080] [(0x100, EN_MODE, 1), (0x100, AS_BIT, 1000)] with chans := [(0, { fifo := [(0, [65, 0]), (0, [66, 0])] })] }) (0) (0) (0) ([65, 0]) ([(0, [66, 0])]) (({} : State).earliest 0) = true := by
  decide +kernel

theorem test_meets_ModeCommands_5 :
    (fun (s : State) (pitch : Pitch) (chan : Channel) => holds (
      (s.enMode (s.enOf pitch.val chan.val) ≠ 1 ∨ s.enRuns (s.enOf pitch.val chan.val) = false ∨ s.txHeld pitch.val chan.val = true ∨ (s.chan pitch.val chan.val).fifo = []))) (({} : State)) (0) (0) = true := by
  decide +kernel

theorem test_meets_ModeCommands_6 :
    (fun (s : State) (pitch : Pitch) (chan : Channel) => holds (
      (s.enMode (s.enOf pitch.val chan.val) = 1) ∧
      ((s.chan pitch.val chan.val).de = true) ∧
      ((s.chan pitch.val chan.val).fifo = []))) ({ upOn [0x100, 0x080] [(0x100, EN_MODE, 1), (0x100, AS_DE, 0x00050007)] with chans := [(0, { de := true, txEnd := some 99999999 })] }) (0) (0) = true := by
  decide +kernel

theorem test_meets_ModeCommands_7 :
    (fun (s : State) (pitch : Pitch) (chan : Channel) => holds (
      (s.enMode (s.enOf pitch.val chan.val) ≠ 1 ∨ (s.chan pitch.val chan.val).de = false ∨ (s.chan pitch.val chan.val).fifo ≠ []))) (({} : State)) (0) (0) = true := by
  decide +kernel

theorem test_meets_ModeCommands_8 :
    (fun (s : State) (who : Initiator) (engine : Engine) (c : Nat) => holds (
      (s.accepts who (s.enReg engine) SY_CMD = true) ∧
      (s.enMode (s.enReg engine) = 3) ∧
      (s.servedBy (enCluster (s.enReg engine)) (enPos (s.enReg engine)) = some c) ∧
      (s.fg (s.enReg engine) SY_CFG_TRIG = 0) ∧
      (s.enRuns (s.enReg engine) = true) ∧
      (s.enOf (enCluster (s.enReg engine)) c = s.enReg engine))) (upOn [0x020, 0x080, 0x100] [(0x100, EN_MODE, 3), (0x100, SY_CFG, 0x80000)]) (.host) (0) (0) = true := by
  decide +kernel

theorem test_meets_ModeCommands_9 :
    (fun (s : State) (who : Initiator) (engine : Engine) => holds (
      (s.accepts who (s.enReg engine) SY_CMD = true) ∧
      (s.enMode (s.enReg engine) ≠ 3 ∨ s.fg (s.enReg engine) SY_CFG_TRIG ≠ 0 ∨ s.enRuns (s.enReg engine) = false))) (upOn [0x020, 0x080, 0x100] [(0x100, EN_MODE, 4)]) (.host) (0) = true := by
  decide +kernel

theorem test_meets_ModeCommands_10 :
    (fun (s : State) (pitch : Pitch) (chan : Channel) => holds (
      (s.enMode (s.enOf pitch.val chan.val) = 3) ∧
      (s.fg (s.enOf pitch.val chan.val) SY_CFG_TRIG ≠ 0) ∧
      (s.enRuns (s.enOf pitch.val chan.val) = true))) (upOn [0x080, 0x100] [(0x100, EN_MODE, 3), (0x100, SY_CFG, 0x80000 + 2 * 2 ^ SY_CFG_TRIG.lo)]) (0) (0) = true := by
  decide +kernel

theorem test_meets_ModeCommands_11 :
    (fun (s : State) (pitch : Pitch) (chan : Channel) => holds (
      (s.enMode (s.enOf pitch.val chan.val) ≠ 3 ∨ s.fg (s.enOf pitch.val chan.val) SY_CFG_TRIG = 0 ∨ s.enRuns (s.enOf pitch.val chan.val) = false))) (({} : State)) (0) (0) = true := by
  decide +kernel

theorem test_meets_ModeCommands_12 :
    (fun (s : State) (pitch : Pitch) (chan : Channel) (y : Xfer) (a : Nat) => holds (
      (s.enMode (s.enOf pitch.val chan.val) = 3) ∧
      ((s.chan pitch.val chan.val).xfer = some y) ∧
      (s.fg (s.enOf pitch.val chan.val) SY_CFG_WIDTH ≤ y.i) ∧
      (a = sySample (s.fb (s.enOf pitch.val chan.val) SY_CFG_SIGN) (s.fg (s.enOf pitch.val chan.val) SY_CFG_WIDTH) y.bits))) ({ upOn [0x080, 0x100] [(0x100, EN_MODE, 3), (0x100, EN_REC, 0xFFFFFFFF), (0x100, EN_RXDST, 2 ^ EN_RXDST_RX_EN.lo), (0x100, SY_CFG, 0x80000 + 2 ^ SY_CFG_SIGN.lo)] with chans := [(0, { xfer := some { i := 8, bits := 0x9C } })] }) (0) (0) ({ i := 8, bits := 0x9C }) (sySample true 8 0x9C) = true := by
  decide +kernel

theorem test_meets_ModeCommands_13 :
    (fun (s : State) (pitch : Pitch) (chan : Channel) => holds (
      (∀ y ∈ (s.chan pitch.val chan.val).xfer, s.enMode (s.enOf pitch.val chan.val) ≠ 3 ∨ y.i < s.fg (s.enOf pitch.val chan.val) SY_CFG_WIDTH))) (({} : State)) (0) (0) = true := by
  decide +kernel

theorem test_meets_ModeCommands_14 :
    (fun (s : State) (pitch : Pitch) (chan : Channel) (a : Int) (l : Bool) => holds (
      (s.enMode (s.enOf pitch.val chan.val) = 4) ∧
      ((s.chan pitch.val chan.val).deb = some (a, l)) ∧
      (a + 16000 * (s.fg (s.enOf pitch.val chan.val) DI_CFG_DEB : Int) ≤ (s.chan pitch.val chan.val).upto))) ({ upOn [0x080, 0x100] [(0x100, EN_MODE, 4), (0x100, DI_CFG, 5 + 2 ^ DI_CFG_EDGE_SEL.lo)] with chans := [(0, { deb := some (100, true), acc := some false, upto := 80100 })] }) (0) (0) (100) (true) = true := by
  decide +kernel

theorem test_meets_ModeCommands_15 :
    (fun (s : State) (pitch : Pitch) (chan : Channel) => holds (
      (∀ d ∈ (s.chan pitch.val chan.val).deb, s.enMode (s.enOf pitch.val chan.val) ≠ 4 ∨ (s.chan pitch.val chan.val).upto < d.1 + 16000 * (s.fg (s.enOf pitch.val chan.val) DI_CFG_DEB : Int)))) (({} : State)) (0) (0) = true := by
  decide +kernel

theorem test_meets_ModeCommands_16 :
    (fun (s : State) (who : Initiator) (engine : Engine) => holds (
      (s.reach who (s.enReg engine) EN_DI_COUNT = rspOk))) (upOn [0x020, 0x080, 0x100] [(0x100, EN_MODE, 4), (0x100, EN_DI_COUNT, 77)]) (.host) (0) = true := by
  decide +kernel

theorem test_meets_ModeCommands_17 :
    (fun (s : State) (who : Initiator) (engine : Engine) (v : Word) (c : Nat) => holds (
      (s.accepts who (s.enReg engine) DI_OUT = true) ∧
      (s.enMode (s.enReg engine) = 4) ∧
      (s.enRuns (s.enReg engine) = true) ∧
      (s.fg (s.enReg engine) DI_CFG_OUTMODE = 0) ∧
      (s.fb (s.enReg engine) DI_CFG_OUTSRC = false) ∧
      (s.commitPending (s.enReg engine) = false) ∧
      (s.servedBy (enCluster (s.enReg engine)) (enPos (s.enReg engine)) = some c))) (upOn [0x020, 0x080, 0x100] [(0x100, EN_MODE, 4)]) (.host) (0) (3) (0) = true := by
  decide +kernel

theorem test_meets_ModeCommands_18 :
    (fun (s : State) (who : Initiator) (engine : Engine) (v : Word) => holds (
      (s.accepts who (s.enReg engine) DI_OUT = true) ∧
      (s.enMode (s.enReg engine) ≠ 4 ∨ s.enRuns (s.enReg engine) = false ∨ s.fg (s.enReg engine) DI_CFG_OUTMODE ≠ 0 ∨ s.fb (s.enReg engine) DI_CFG_OUTSRC = true))) (upOn [0x020, 0x080, 0x100] [(0x100, EN_MODE, 4), (0x100, DI_CFG, 2 ^ DI_CFG_OUTMODE.lo)]) (.host) (0) (3) = true := by
  decide +kernel

theorem test_meets_ModeCommands_19 :
    (fun (s : State) (pitch : Pitch) (chan : Channel) (x : Int) (per high : Nat) => holds (
      (s.enMode (s.enOf pitch.val chan.val) = 4) ∧
      (s.enRuns (s.enOf pitch.val chan.val) = true) ∧
      (s.fg (s.enOf pitch.val chan.val) DI_CFG_OUTMODE = 1) ∧
      (x = s.pwmStart pitch.val chan.val) ∧
      (per = s.fg (s.enOf pitch.val chan.val) DI_PWM_PERIOD_PERIOD) ∧
      (high = if s.fb (s.enOf pitch.val chan.val) DI_CFG_OUTSRC then pwmHigh per (per * ((s.chan pitch.val chan.val).dutyNew.foldl (fun d e => if e.1 ≤ x then e.2 else d) (s.chan pitch.val chan.val).duty) / 4096) else s.fg (s.enOf pitch.val chan.val) DI_PWM_HIGH_HIGH))) ({ upOn [0x080, 0x100] [(0x100, EN_MODE, 4), (0x100, DI_CFG, 2 ^ DI_CFG_OUTMODE.lo), (0x100, DI_PWM_PERIOD, 1000), (0x100, DI_PWM_HIGH, 300)] with chans := [(0, { pwmNext := some 5000 })] }) (0) (0) (5000) (1000) (300) = true := by
  decide +kernel

theorem test_meets_ModeCommands_20 :
    (fun (s : State) (pitch : Pitch) (chan : Channel) => holds (
      (s.enMode (s.enOf pitch.val chan.val) ≠ 4 ∨ s.enRuns (s.enOf pitch.val chan.val) = false ∨ s.fg (s.enOf pitch.val chan.val) DI_CFG_OUTMODE ≠ 1))) (({} : State)) (0) (0) = true := by
  decide +kernel

theorem test_meets_ModeCommands_21 :
    (fun (s : State) (pitch : Pitch) (chan : Channel) (u : Int) (item : List Byte) (rest : List (Int × List Byte)) => holds (
      (s.enMode (s.enOf pitch.val chan.val) = 4) ∧
      (s.enRuns (s.enOf pitch.val chan.val) = true) ∧
      (s.fg (s.enOf pitch.val chan.val) DI_CFG_OUTMODE = 2) ∧
      ((s.chan pitch.val chan.val).fifo = (u, item) :: rest))) ({ upOn [0x050, 0x080, 0x100] [(0x100, EN_MODE, 4), (0x100, DI_CFG, 2 * 2 ^ DI_CFG_OUTMODE.lo), (0x050, CL_STATUS, 5 * 2 ^ CL_STATUS_STATE.lo)] with chans := [(0, { fifo := [(99999999, [1, 0, 0, 0, 0, 0, 3, 0])], lastItem := some 99997439 })] }) (0) (0) (99999999) ([1, 0, 0, 0, 0, 0, 3, 0]) ([]) = true := by
  decide +kernel

theorem test_meets_ModeCommands_22 :
    (fun (s : State) (pitch : Pitch) (chan : Channel) => holds (
      (s.enMode (s.enOf pitch.val chan.val) ≠ 4 ∨ s.enRuns (s.enOf pitch.val chan.val) = false ∨ s.fg (s.enOf pitch.val chan.val) DI_CFG_OUTMODE ≠ 2 ∨ (s.chan pitch.val chan.val).fifo = []))) (({} : State)) (0) (0) = true := by
  decide +kernel

theorem test_meets_PbusMatrixAndRouting_1 :
    (fun (s : State) (who : Initiator) (engine : Engine) (c : Nat) => holds (
      (s.accepts who (s.enReg engine) PB_CMD = true) ∧
      (s.enMode (s.enReg engine) = 2) ∧
      (s.servedBy (enCluster (s.enReg engine)) (enPos (s.enReg engine)) = some c) ∧
      (s.enOf (enCluster (s.enReg engine)) c = s.enReg engine))) ({ upOn [0x020, 0x080, 0x100] [(0x100, EN_MODE, 2)] with chans := [(0, { fifo := [(0, List.replicate 12 0), (0, List.replicate 12 0)], attempts := 3 })] }) (.host) (0) (0) = true := by
  decide +kernel

theorem test_meets_PbusMatrixAndRouting_2 :
    (fun (s : State) (who : Initiator) (engine : Engine) (c : Nat) => holds (
      (s.accepts who (s.enReg engine) PB_CMD = true) ∧
      (s.enMode (s.enReg engine) = 2) ∧
      (s.servedBy (enCluster (s.enReg engine)) (enPos (s.enReg engine)) = some c))) ({ upOn [0x020, 0x080, 0x100] [(0x100, EN_MODE, 2)] with chans := [(0, { fifo := [(0, List.replicate 12 0)] })] }) (.host) (0) (0) = true := by
  decide +kernel

theorem test_meets_PbusMatrixAndRouting_3 :
    (fun (s : State) (who : Initiator) (engine : Engine) (c : Nat) => holds (
      (s.accepts who (s.enReg engine) PB_CMD = true) ∧
      (s.enMode (s.enReg engine) = 2) ∧
      (s.servedBy (enCluster (s.enReg engine)) (enPos (s.enReg engine)) = some c))) ({ upOn [0x020, 0x080, 0x100] [(0x100, EN_MODE, 2), (0x100, PB_ERR, 4 * 2 ^ PB_ERR_STATE.lo)] with chans := [(0, { rec11 := 3 })] }) (.host) (0) (0) = true := by
  decide +kernel

theorem test_meets_PbusMatrixAndRouting_4 :
    (fun (s : State) (who : Initiator) (engine : Engine) => holds (
      (s.accepts who (s.enReg engine) PB_CMD = true) ∧
      (s.enMode (s.enReg engine) ≠ 2))) (upOn [0x020, 0x080, 0x100] [(0x100, EN_MODE, 3)]) (.host) (0) = true := by
  decide +kernel

theorem test_meets_PbusMatrixAndRouting_5 :
    (fun (s : State) (who : Initiator) (engine : Engine) => holds (
      (s.accepts who (s.enReg engine) PB_CMD = true) ∧
      (s.enMode (s.enReg engine) ≠ 2))) (upOn [0x020, 0x080, 0x100] [(0x100, EN_MODE, 3)]) (.host) (0) = true := by
  decide +kernel

theorem test_meets_PbusMatrixAndRouting_6 :
    (fun (s : State) (who : Initiator) (engine : Engine) => holds (
      (s.accepts who (s.enReg engine) PB_CMD = true) ∧
      (s.enMode (s.enReg engine) ≠ 2))) (upOn [0x020, 0x080, 0x100] [(0x100, EN_MODE, 3)]) (.host) (0) = true := by
  decide +kernel

theorem test_meets_PbusMatrixAndRouting_7 :
    (fun (s : State) (matrix : Matrix) (n c : Nat) (x : Int) => holds (
      (s.ttOwner (0x240 + matrix.val) = some (n, c)) ∧
      (s.fg (s.enOf n c) PB_TT_STAT_ROLE = 1) ∧
      ((s.chan n c).ttNext = some x) ∧
      (s.localOf (x * timeG * 65536) ≤ s.earliest n + 2560))) ({ upOn [0x240, 0x080, 0x100] [(0x240, SM_OWNER, 2 ^ SM_OWNER_VALID.lo), (0x240, SM_CFG, 4 * 2 ^ SM_CFG_ROWS.lo), (0x100, EN_MODE, 2), (0x100, PB_CFG, 2 ^ PB_CFG_TT_EN.lo), (0x100, PB_TT_STAT, 2 ^ PB_TT_STAT_ROLE.lo)] with chans := [(0, { ttNext := some 0, cycle := some 3 })] }) (0) (0) (0) (0) = true := by
  decide +kernel

theorem test_meets_PbusMatrixAndRouting_8 :
    (fun (s : State) (matrix : Matrix) => holds (
      (((s.ttOwner (0x240 + matrix.val)).all fun o => decide (s.fg (s.enOf o.1 o.2) PB_TT_STAT_ROLE ≠ 1 ∨ ((s.chan o.1 o.2).ttNext.all fun x => decide (s.earliest o.1 + 2560 < s.localOf (x * timeG * 65536))) = true)) = true))) (({} : State)) (0) = true := by
  decide +kernel

theorem test_meets_PbusMatrixAndRouting_9 :
    (fun (s : State) (matrix : Matrix) (n c j ty k : Nat) (z u : Int) => holds (
      (s.ttOwner (0x240 + matrix.val) = some (n, c)) ∧
      ((s.chan n c).col = some j ∧ (s.chan n c).cycle = some z) ∧
      (u = z + s.ttColAt (0x240 + matrix.val) j) ∧
      (u ≤ s.earliest n + 2560) ∧
      (s.ttCell (0x240 + matrix.val) j (s.fg (s.enOf n c) PB_TT_STAT_ROW) = (ty, k)))) ({ upOn [0x240, 0x080, 0x100] [(0x240, SM_OWNER, 2 ^ SM_OWNER_VALID.lo), (0x240, SM_CFG, 4 * 2 ^ SM_CFG_ROWS.lo + 3 * 2 ^ SM_CFG_COLS.lo), (0x240, SM_CELL, 2 ^ SM_CELL_TYPE_LO.lo), (0x100, EN_MODE, 2), (0x100, PB_CFG, 2 ^ PB_CFG_TT_EN.lo), (0x100, PB_ERR, 2 * 2 ^ PB_ERR_STATE.lo), (0x100, PB_SLOT_W1, 2 ^ PB_SLOT_W1_VALID.lo), (0x100, PB_TT_STAT, 2 ^ PB_TT_STAT_ROLE.lo)] with chans := [(0, { col := some 0, cycle := some 10240, pb := { ph := .idle } })] }) (0) (0) (0) (0) (1) (0) (10240) (10240) = true := by
  decide +kernel

theorem test_meets_PbusMatrixAndRouting_10 :
    (fun (s : State) (matrix : Matrix) => holds (
      (((s.ttOwner (0x240 + matrix.val)).all fun o => decide (((s.chan o.1 o.2).col.all fun j => (s.chan o.1 o.2).cycle.all fun z => decide (s.earliest o.1 + 2560 < z + s.ttColAt (0x240 + matrix.val) j)) = true)) = true))) (({} : State)) (0) = true := by
  decide +kernel

theorem test_meets_PbusMatrixAndRouting_11 :
    (fun (s : State) (matrix : Matrix) (n c : Nat) (x l : Int) => holds (
      (s.ttOwner (0x240 + matrix.val) = some (n, c)) ∧
      (s.fg (s.enOf n c) PB_TT_STAT_ROLE = 2 ∨ s.fg (s.enOf n c) PB_TT_STAT_ROLE = 3) ∧
      ((s.chan n c).ttNext = some x) ∧
      (l = s.localOf (x * timeG * 65536) + 160 * (s.fg (0x240 + matrix.val) SM_REF_REF_WAIT : Int)) ∧
      (l ≤ s.now) ∧
      ((s.chan n c).mayRef l = false))) ({ upOn [0x240, 0x080, 0x100] [(0x240, SM_OWNER, 2 ^ SM_OWNER_VALID.lo), (0x240, SM_REF, 0), (0x100, EN_MODE, 2), (0x100, PB_CFG, 2 ^ PB_CFG_TT_EN.lo), (0x100, PB_TT_STAT, 3 * 2 ^ PB_TT_STAT_ROLE.lo + 2 ^ PB_TT_STAT_MISSED.lo)] with chans := [(0, { col := some 2, ttNext := some 0 })] }) (0) (0) (0) (0) (({} : State).localOf 0) = true := by
  decide +kernel

theorem test_meets_PbusMatrixAndRouting_12 :
    (fun (s : State) (matrix : Matrix) => holds (
      (((s.ttOwner (0x240 + matrix.val)).all fun o => decide (s.fg (s.enOf o.1 o.2) PB_TT_STAT_ROLE = 1 ∨ ((s.chan o.1 o.2).ttNext.all fun x => (fun l : Int => decide (s.now < l) || (s.chan o.1 o.2).mayRef l) (s.localOf (x * timeG * 65536) + 160 * (s.fg (0x240 + matrix.val) SM_REF_REF_WAIT : Int))) = true)) = true))) (({} : State)) (0) = true := by
  decide +kernel

theorem test_meets_PbusMatrixAndRouting_13 :
    (fun (s : State) (pitch : Pitch) (chan : Channel) (sof : Int) (item : List Byte) (rest : List (Int × List Byte)) => holds (
      ((s.chan pitch.val chan.val).got = (sof, item) :: rest) ∧
      (∀ m ∈ s.ttOn pitch.val chan.val, s.ttIsRef m (itemIdw item) (leAt item 4 1 % 16) = true → s.fg (s.enOf pitch.val chan.val) PB_TT_STAT_ROLE = 1 ∧ s.fg m SM_REF_REF_ID ≤ itemIdw item % 2048))) (({ upOn [0x200, 0x080, 0x100] [(0x100, EN_MODE, 2), (0x200, RT_CTRL, 2 ^ RT_CTRL_EN.lo)] with chans := [(0, { got := [(777, List.replicate 12 1)] })] } : State)) (0) (0) (777) (List.replicate 12 1) ([]) = true := by
  decide +kernel

theorem test_meets_PbusMatrixAndRouting_14 :
    (fun (s : State) (pitch : Pitch) (chan : Channel) (m : Nat) (sof z : Int) (item : List Byte) (rest : List (Int × List Byte)) => holds (
      ((s.chan pitch.val chan.val).got = (sof, item) :: rest) ∧
      (s.ttOn pitch.val chan.val = some m) ∧
      (s.ttIsRef m (itemIdw item) (leAt item 4 1 % 16) = true) ∧
      (s.fg (s.enOf pitch.val chan.val) PB_TT_STAT_ROLE ≠ 1 ∨ itemIdw item % 2048 < s.fg m SM_REF_REF_ID) ∧
      (z = sof - 160 * (leAt (item.drop 12) 1 2 : Int)))) ({ upOn [0x200, 0x240, 0x080, 0x100] [(0x240, SM_OWNER, 2 ^ SM_OWNER_VALID.lo), (0x100, EN_MODE, 2), (0x100, PB_CFG, 2 ^ PB_CFG_TT_EN.lo), (0x200, RT_CTRL, 2 ^ RT_CTRL_EN.lo)] with chans := [(0, { got := [(777, [0, 0, 0, 0, 8, 0, 0, 0, 0, 0, 0, 0, 1, 0, 0, 5, 0, 0, 0, 0])] })] }) (0) (0) (0x240) (777) (777) ([0, 0, 0, 0, 8, 0, 0, 0, 0, 0, 0, 0, 1, 0, 0, 5, 0, 0, 0, 0]) ([]) = true := by
  decide +kernel

theorem test_meets_PbusMatrixAndRouting_15 :
    (fun (s : State) (pitch : Pitch) (chan : Channel) => holds (
      ((s.chan pitch.val chan.val).got = []))) (({} : State)) (0) (0) = true := by
  decide +kernel

theorem test_meets_PbusMatrixAndRouting_16 :
    (fun (s : State) (l : Look) (rest : List Look) => holds (
      (s.lookWait = l :: rest))) ({ ({} : State) with lookWait := [{ item := [1] }] }) ({ item := [1] }) ([]) = true := by
  decide +kernel

theorem test_meets_PbusMatrixAndRouting_17 :
    (fun (s : State) => holds (
      (s.lookWait = []))) (({} : State)) = true := by
  decide +kernel

theorem test_meets_PbusMatrixAndRouting_18 :
    (fun (s : State) => holds (
      (s.looking = []))) (({} : State)) = true := by
  decide +kernel

theorem test_meets_PbusMatrixAndRouting_19 :
    (fun (s : State) (l : Look) (rest : List Look) => holds (
      (s.looking = l :: rest) ∧
      (s.rtFind l (List.range 4096) 4 = []))) ({ ({} : State) with looking := [{ item := List.replicate 12 0 }] }) ({ item := List.replicate 12 0 }) ([]) = true := by
  decide +kernel

theorem test_meets_PbusMatrixAndRouting_20 :
    (fun (s : State) (l : Look) (rest : List Look) (es : List Nat) => holds (
      (s.looking = l :: rest) ∧
      (s.rtFind l (List.range 4096) 4 = es) ∧
      (es ≠ []))) ({ upOn [0x200, 0x010, 0x011, 0x014, 0x020] [(0x200, RT_MATCH, 2 ^ RT_MATCH_VALID.lo), (0x200, RT_SRC, 2 ^ RT_SRC_ANY.lo), (0x200, RT_DEST, 2 * 2 ^ RT_DEST_KIND.lo)] with looking := [{ item := List.replicate 16 0 }], core := { banks := [(0, { fresh := 1024 })] } }) ({ item := List.replicate 16 0 }) ([]) ([0]) = true := by
  decide +kernel

theorem test_meets_PbusMatrixAndRouting_21 :
    (fun (s : State) (l : Look) (rest : List Look) (e hub : Nat)  => holds (
      (s.looking = l :: rest) ∧
      (s.rtFind l (List.range 4096) 4 = [e]) ∧
      (hub = if s.fb (rtPage e) (RT_DEST_SELF.at (rtOff e)) then s.hubId else s.fg (rtPage e) (RT_DEST_HUB.at (rtOff e))))) (({ upOn [0x200, 0x010, 0x011, 0x014, 0x020] [(0x200, RT_MATCH, 2 ^ RT_MATCH_VALID.lo), (0x200, RT_SRC, 2 ^ RT_SRC_ANY.lo), (0x200, RT_DEST, 2 * 2 ^ RT_DEST_KIND.lo)] with looking := [{ item := List.replicate 16 0 }], core := { banks := [(0, { fresh := 1024 })] } } : State)) ({ item := List.replicate 16 0 }) ([]) (0) (0) = true := by
  decide +kernel

theorem test_meets_PbusMatrixAndRouting_22 :
    (fun (s : State) (pitch : Pitch) (f : Frame) (rest : List Frame) (fits : Bool) => holds (
      (s.core.inbox.getD (portCluster pitch.val) [] = f :: rest) ∧
      (f.routed = true) ∧
      (fits = decide (s.enMode (s.enOf pitch.val (f.hdr.argBits 0 3)) = 2 ∧ (s.chan pitch.val (f.hdr.argBits 0 3)).used + f.payload.length ≤ 1024 ∧ s.pbInvalid (s.enOf pitch.val (f.hdr.argBits 0 3)) f.payload = false ∧ 12 ≤ f.payload.length ∧ f.payload.length = itemLen f.payload)))) ({ upOn [0x080, 0x100] [(0x100, EN_MODE, 2)] with core := { inbox := [(6, [{ hdr := { cls := .T, mtype := 0x20 }, payload := List.replicate 12 0 }])] } }) (0) ({ hdr := { cls := .T, mtype := 0x20 }, payload := List.replicate 12 0 }) ([]) (true) = true := by
  decide +kernel

theorem test_meets_PbusMatrixAndRouting_23 :
    (fun (s : State) (pitch : Pitch) => holds (
      (∀ f ∈ (s.core.inbox.getD (portCluster pitch.val) []).head?, f.routed = false))) (({} : State)) (0) = true := by
  decide +kernel

theorem test_meets_AccessesAtTheDoors_1 :
    (fun (s : State) (addr : BitVec 27) (write : Bool) (data : Word) (o : Nat) => holds (
      (s.islUp 37 = true) ∧
      (s.hostBusy = false) ∧
      (addr.toNat < 2 ^ 26) ∧
      (s.ready 0x020 = true) ∧
      (s.target (s.aperture addr.toNat) = .here o) ∧
      (o < 2 ^ 24))) ({ upOn [0x020, 0x050] [(0x021, HOST_PSEL, 2 ^ HOST_PSEL_SELF.lo)] with isl := [(37, { rel := true })] }) (0x50044) (true) (77) (0x50044) = true := by
  decide +kernel

theorem test_meets_AccessesAtTheDoors_2 :
    (fun (s : State) (addr : BitVec 27) (write : Bool) (data : Word) (be : BitVec 4) => holds (
      (s.islUp 37 = true) ∧
      (s.hostBusy = false) ∧
      (addr.toNat < 2 ^ 26))) ({ upOn [0x020] [] with isl := [(37, { rel := true })] }) (0x50044) (true) (77) (15) = true := by
  decide +kernel

theorem test_meets_AccessesAtTheDoors_3 :
    (fun (s : State) (addr : BitVec 27) (write : Bool) (data : Word) (be : BitVec 4) (w hub off : Nat) => holds (
      (s.islUp 37 = true) ∧
      (s.hostBusy = false) ∧
      (addr.toNat < 2 ^ 26) ∧
      (s.ready 0x020 = true) ∧
      (s.target (s.aperture addr.toNat) = .far w hub off))) ({ upOn [0x020, 0x010] [(0x021, HOST_PSEL, 9 * 2 ^ HOST_PSEL_HUB.lo), (0x020, BR_WIN_BASE, 2 ^ BR_WIN_BASE_EN.lo + 33 * 2 ^ BR_WIN_BASE_SIZE.lo + 9 * 2 ^ 13), (0x020, BR_WIN_TGT, 10 * 2 ^ 13), (0x020, BR_WIN_CFG, 2 ^ BR_WIN_CFG_POSTED.lo)] with isl := [(37, { rel := true })] }) (0) (true) (77) (15) (0) (10) (0) = true := by
  decide +kernel

theorem test_meets_AccessesAtTheDoors_4 :
    (fun (s : State) (addr : BitVec 27) (write : Bool) (data : Word) (be : BitVec 4) => holds (
      (2 ^ 26 ≤ addr.toNat) ∧
      (s.islUp 37 = true))) ({ upOn [0x020] [(0x021, HOST_PSEL, 7)] with isl := [(37, { rel := true })] }) (0x4000004) (true) (9) (15) = true := by
  decide +kernel

theorem test_meets_AccessesAtTheDoors_5 :
    (fun (s : State) (addr : BitVec 26) (write : Bool) (data : Word) (be : BitVec 4) => holds (
      (s.islUp 37 = true) ∧
      (s.hostBusy = false) ∧
      (8 ≤ addr.toNat % 4096 ∨ addr.toNat % 4 ≠ 0 ∨ (write = true ∧ be ≠ 15)))) ({ upOn [0x020] [(0x021, HOST_PSEL, 7)] with isl := [(37, { rel := true })] }) (4) (true) (9) (3) = true := by
  decide +kernel

theorem test_meets_AccessesAtTheDoors_6 :
    (fun (s : State) (addr : BitVec 26) (write : Bool) (data : Word) (be : BitVec 4) => holds (
      (s.islUp 37 = false ∨ s.hostBusy = true))) (({} : State)) (4) (true) (9) (3) = true := by
  decide +kernel

theorem test_meets_AccessesAtTheDoors_7 :
    (fun (s : State) (addr : BitVec 27) (write : Bool) (data : Word) (be : BitVec 4) => holds (
      (s.islUp 37 = false))) (({} : State)) (4) (true) (9) (3) = true := by
  decide +kernel

theorem test_meets_AccessesAtTheDoors_8 :
    (fun (s : State) (addr : BitVec 26) (data : Word) (be : BitVec 4) => holds (
      (s.islUp 37 = true) ∧
      (s.hostBusy = false))) ({ upOn [0x020] [(0x021, HOST_PSEL, 7)] with isl := [(37, { rel := true })] }) (0) (9) (15) = true := by
  decide +kernel

theorem test_meets_AccessesAtTheDoors_9 :
    (fun (s : State) (addr : BitVec 26) (data : Word) => holds (
      (s.islUp 37 = true) ∧
      (s.hostBusy = false) ∧
      (addr.toNat % 4096 = 0 ∨ addr.toNat % 4096 = 4))) ({ upOn [0x020] [(0x021, HOST_PSEL, 7)] with isl := [(37, { rel := true })] }) (4) (9) = true := by
  decide +kernel

theorem test_meets_AccessesAtTheDoors_10 :
    (fun (s : State) (addr : BitVec 27) (write : Bool) (data : Word) (be : BitVec 4) => holds (
      (s.islUp 37 = true) ∧
      (s.hostBusy = true))) ({ ({} : State) with isl := [(37, { rel := true })], host := some {} }) (0) (false) (0) (15) = true := by
  decide +kernel

theorem test_meets_AccessesAtTheDoors_11 :
    (fun (s : State) (addr : BitVec 27) (write : Bool) (data : Word) => holds (
      (s.islUp 37 = false))) (({} : State)) (0) (false) (0) = true := by
  decide +kernel

theorem test_meets_AccessesAtTheDoors_12 :
    (fun (s : State) (addr : BitVec 27) (write : Bool) (data : Word) => holds (
      (s.islUp 37 = true))) ({ ({} : State) with isl := [(37, { rel := true })] }) (0) (false) (0) = true := by
  decide +kernel

theorem test_meets_AccessesAtTheDoors_13 :
    (fun (s : State) (a : Acc) => holds (
      (s.islUp 37 = true) ∧
      (s.host = some a))) ({ ({} : State) with isl := [(37, { rel := true })], host := some {} }) ({}) = true := by
  decide +kernel

theorem test_meets_AccessesAtTheDoors_14 :
    (fun (s : State) => holds (
      (s.islUp 37 = false ∨ s.host = none))) (({} : State)) = true := by
  decide +kernel

theorem test_meets_AccessesAtTheDoors_15 :
    (fun (s : State) => holds (
      (s.host = none))) (({} : State)) = true := by
  decide +kernel

theorem test_meets_AccessesAtTheDoors_16 :
    (fun (s : State) (a : Acc) => holds (
      (s.host = some a) ∧
      (a.done = false))) ({ ({} : State) with host := some { hub := 9 }, br := { waits := [{}] } }) ({ hub := 9 }) = true := by
  decide +kernel

theorem test_meets_AccessesAtTheDoors_17 :
    (fun (s : State) (a : Acc) => holds (
      (s.host = some a) ∧
      (a.done = true))) ({ upOn [0x020] [] with host := some { off := 0x014900, done := true } }) ({ off := 0x014900, done := true }) = true := by
  decide +kernel

theorem test_meets_AccessesAtTheDoors_18 :
    (fun (s : State) (cmd : BitVec 8) (addr : BitVec 32) (data : Word) => holds (
      (cmd = 0x02 ∨ cmd = 0x0B) ∧
      (s.gs.fused = true) ∧
      ((s.spi.any fun a => !a.done) = false) ∧
      (addr.toNat % 4 = 0) ∧
      (addr.toNat < 2 ^ 24))) ({ upOn [0x020, 0x050] [] with gs := { fused := true } }) (0x0B) (0x50000) (77) = true := by
  decide +kernel

theorem test_meets_AccessesAtTheDoors_19 :
    (fun (s : State) (cmd : BitVec 8) (addr : BitVec 32) (data : Word) => holds (
      (cmd = 0x02 ∨ cmd = 0x0B) ∧
      (s.gs.fused = true) ∧
      ((s.spi.any fun a => !a.done) = false))) ({ upOn [0x020, 0x050] [] with gs := { fused := true } }) (0x0B) (0x50001) (77) = true := by
  decide +kernel

theorem test_meets_AccessesAtTheDoors_20 :
    (fun (s : State) (cmd : BitVec 8) (addr : BitVec 32) (data : Word) => holds (
      ((cmd ≠ 0x02 ∧ cmd ≠ 0x0B) ∨ s.gs.fused = false ∨ (s.spi.any fun a => !a.done) = true))) (({} : State)) (0x0B) (0x50001) (77) = true := by
  decide +kernel

theorem test_meets_AccessesAtTheDoors_21 :
    (fun (s : State) (cmd : BitVec 8) (addr : BitVec 32) (data : Word) => holds (
      ((s.spi.any fun a => !a.done) = false))) ({ upOn [0x020, 0x050] [] with gs := { fused := true } }) (0x0B) (0x50000) (77) = true := by
  decide +kernel

theorem test_meets_AccessesAtTheDoors_22 :
    (fun (s : State) (cmd : BitVec 8) (addr : BitVec 32) (data : Word) (a : Acc) => holds (
      (s.spi = some a) ∧
      (a.done = false))) ({ ({} : State) with spi := some {} }) (0x0B) (0) (0) ({}) = true := by
  decide +kernel

theorem test_meets_CanopyViewsAndIncomingRequests_1 :
    (fun (s : State) (who : Initiator) (img : Image) (word : Nat) (data : Word) (be : BitVec 4) => holds (
      (word < 16384) ∧
      (s.ready 0x020 = true ∧ s.ready 0x01C = true) ∧
      (¬(img = .input ∧ word / 4 < 96)))) (upOn [0x020, 0x01C] []) (.host) (.output) (9) (0x0ABC0123) (15) = true := by
  decide +kernel

theorem test_meets_CanopyViewsAndIncomingRequests_2 :
    (fun (s : State) (who : Initiator) (img : Image) (word : Nat) (data : Word) (be : BitVec 4) => holds (
      True)) (upOn [0x020] []) (.host) (.output) (9) (0x0ABC0123) (15) = true := by
  decide +kernel

theorem test_meets_CanopyViewsAndIncomingRequests_3 :
    (fun (s : State) (who : Initiator) (img : Image) (group : Nat) (word : Fin 3) (data : Word) (be : BitVec 4) => holds (
      True)) (upOn [0x020, 0x01C] []) (.host) (.output) (5) (1) (0x0ABC0123) (15) = true := by
  decide +kernel

theorem test_meets_CanopyViewsAndIncomingRequests_4 :
    (fun (s : State) (who : Initiator) (img : Image) (group : Nat) (word : Fin 3) (data : Word) (k : Pack) => holds (
      (group < 4096) ∧
      (s.ready 0x020 = true ∧ s.ready 0x01C = true) ∧
      (¬(img = .input ∧ group < 96)) ∧
      (s.scan.packs.getD who.idx none = some k) ∧
      (k.img = img ∧ k.group = group) ∧
      (setBit k.got word.val true = 7) ∧
      (s.fb 0x01C SC_STATUS_GUARDING = false))) ({ upOn [0x020, 0x01C] [] with scan := { packs := [(0, some { img := .output, group := 5, got := 5, mask := 3, val := 1 })] } }) (.host) (.output) (5) (1) (0x12345678) ({ img := .output, group := 5, got := 5, mask := 3, val := 1 }) = true := by
  decide +kernel

theorem test_meets_CanopyViewsAndIncomingRequests_5 :
    (fun (s : State) (who : Initiator) (img : Image) (group : Nat) => holds (
      (group < 4096) ∧
      (s.ready 0x020 = true ∧ s.ready 0x01C = true) ∧
      (s.copyBad (s.copyKey (grpKey img group) (s.scan.hid.getD (grpKey img group) none).isSome) = false))) ({ upOn [0x020, 0x01C] [] with scan := { vis := [(5, 0x123456789)] } }) (.spi) (.input) (5) = true := by
  decide +kernel

theorem test_meets_CanopyViewsAndIncomingRequests_6 :
    (fun (s : State) (who : Initiator) (img : Image) (group : Nat) (word : Fin 3) => holds (
      (group < 4096) ∧
      (s.ready 0x020 = true ∧ s.ready 0x01C = true) ∧
      (s.copyBad (s.copyKey (grpKey img group) (s.scan.hid.getD (grpKey img group) none).isSome) = true) ∧
      (word.val = 0 ∨ s.scan.snaps.getD who.idx none = none))) ({ upOn [0x020, 0x01C] [] with scan := { ue := [5] } }) (.spi) (.input) (5) (0) = true := by
  decide +kernel

theorem test_meets_CanopyViewsAndIncomingRequests_7 :
    (fun (s : State) (who : Initiator) (img : Image) (group : Nat) (word : Fin 3) (v : BitVec 96) => holds (
      (group < 4096) ∧
      (s.ready 0x020 = true ∧ s.ready 0x01C = true) ∧
      (word.val ≠ 0) ∧
      (s.scan.packs.getD who.idx none = none) ∧
      (s.scan.snaps.getD who.idx none = some (grpKey img group, v)))) ({ upOn [0x020, 0x01C] [] with scan := { snaps := [(Initiator.spi.idx, some (5, 77))] } }) (.spi) (.input) (5) (1) (77) = true := by
  decide +kernel

theorem test_meets_CanopyViewsAndIncomingRequests_8 :
    (fun (s : State) (who : Initiator) (img : Image) (group : Nat) (word : Fin 3) => holds (
      True)) (upOn [0x020] []) (.spi) (.input) (5) (0) = true := by
  decide +kernel

theorem test_meets_CanopyViewsAndIncomingRequests_9 :
    (fun (s : State) (f : Frame) (rest : List Frame) => holds (
      (s.core.inbox.getD portBridge [] = f :: rest) ∧
      (f.hdr.cls = .T ∧ f.hdr.mtype = 0x00 ∧ f.hdr.words = 1 ∧ f.payload = []) ∧
      (s.br.serving.length < 256) ∧
      ((s.owed.any fun g => decide (g.hdr.mtype = 0x05) && f.sameFlow g) = false) ∧
      (f.hdr.offset < 2 ^ 24))) ({ upOn [0x020, 0x050] [] with core := { inbox := [(portBridge, [{ hdr := { cls := .T, arg := 0x50000 } }])] } }) ({ hdr := { cls := .T, arg := 0x50000 } }) ([]) = true := by
  decide +kernel

theorem test_meets_CanopyViewsAndIncomingRequests_10 :
    (fun (s : State) (f : Frame) (rest : List Frame) => holds (
      (s.core.inbox.getD portBridge [] = f :: rest) ∧
      (f.hdr.cls = .T) ∧
      ((s.owed.any fun g => decide (g.hdr.mtype = 0x05) && f.sameFlow g) = false))) ({ upOn [0x020, 0x050] [] with core := { inbox := [(portBridge, [{ hdr := { cls := .T, arg := 0x50000 } }])] } }) ({ hdr := { cls := .T, arg := 0x50000 } }) ([]) = true := by
  decide +kernel

theorem test_meets_CanopyViewsAndIncomingRequests_11 :
    (fun (s : State) => holds (
      (((s.core.inbox.getD portBridge []).head?.all fun f => decide (f.hdr.cls = .T) && decide (f.hdr.mtype ≠ 0x08) && decide (f.hdr.mtype ≠ 0x09) && decide (f.hdr.mtype ≠ 0x18) && s.owed.any fun g => decide (g.hdr.mtype = 0x05) && f.sameFlow g) = true))) (({} : State)) = true := by
  decide +kernel

theorem test_meets_CanopyViewsAndIncomingRequests_12 :
    (fun (s : State) => holds (
      (s.br.farFences.find? (fun f => !s.owes f.hdr.src) = none))) (({} : State)) = true := by
  decide +kernel

theorem test_meets_CanopyViewsAndIncomingRequests_13 :
    (fun (s : State) (f : Frame) => holds (
      (s.br.farFences.find? (fun f => !s.owes f.hdr.src) = some f))) ({ ({} : State) with br := { farFences := [{ hdr := { cls := .T, mtype := 6, src := 7, arg := 2 ^ 33 }, payload := [2, 0, 9, 0] }] } }) ({ hdr := { cls := .T, mtype := 6, src := 7, arg := 2 ^ 33 }, payload := [2, 0, 9, 0] }) = true := by
  decide +kernel

theorem test_meets_BridgeCommands_1 :
    (fun (s : State) (f : Fwd) (tag : Nat) (rest : List Fwd) => holds (
      (s.firstSend s.br.waits = some (f, tag, rest)) ∧
      (f.posted = false) ∧
      (s.live f.frame.hdr.dst = true))) ({ upOn [0x020] [(0x020, BR_WIN_CFG, 4 * 2 ^ BR_WIN_CFG_QUOTA.lo), (0x00A, RC_TOPO + 36, 0xFFFFFFFF)] with br := { waits := [{ frame := { hdr := { cls := .T, mtype := 0, dst := 9 } } }] } }) ({ frame := { hdr := { cls := .T, mtype := 0, dst := 9 } } }) (0) ([]) = true := by
  decide +kernel

theorem test_meets_BridgeCommands_2 :
    (fun (s : State) (f : Fwd) (tag : Nat) (rest : List Fwd) => holds (
      (s.firstSend s.br.waits = some (f, tag, rest)))) ({ upOn [0x020] [(0x020, BR_WIN_CFG, 4 * 2 ^ BR_WIN_CFG_QUOTA.lo)] with br := { waits := [{ frame := { hdr := { cls := .T, mtype := 0, dst := 9 } } }] } }) ({ frame := { hdr := { cls := .T, mtype := 0, dst := 9 } } }) (0) ([]) = true := by
  decide +kernel

theorem test_meets_BridgeCommands_3 :
    (fun (s : State) => holds (
      (s.firstSend s.br.waits = none))) (({} : State)) = true := by
  decide +kernel

theorem test_meets_BridgeCommands_4 :
    (fun (s : State) (f : Frame) (rest : List Frame) (x : Txn) => holds (
      (s.core.inbox.getD portBridge [] = f :: rest) ∧
      (f.hdr.cls = .T ∧ f.hdr.mtype = 0x08) ∧
      (s.tagOf (f.hdr.argBits 0 8) = some x) ∧
      (x.phase = .sent) ∧
      (x.fwd.holder = .access .host))) ({ ({} : State) with core := { inbox := [(portBridge, [{ hdr := { cls := .T, mtype := 8, arg := 3 }, payload := [1, 2, 3, 4] }])] }, br := { tags := [(3, some { phase := .sent })] } }) ({ hdr := { cls := .T, mtype := 8, arg := 3 }, payload := [1, 2, 3, 4] }) ([]) ({ phase := .sent }) = true := by
  decide +kernel

theorem test_meets_BridgeCommands_5 :
    (fun (s : State) (f : Frame) (rest : List Frame) (x : Txn) => holds (
      (s.core.inbox.getD portBridge [] = f :: rest) ∧
      (f.hdr.cls = .T ∧ f.hdr.mtype = 0x08) ∧
      (s.tagOf (f.hdr.argBits 0 8) = some x) ∧
      (x.phase = .sent))) ({ ({} : State) with core := { inbox := [(portBridge, [{ hdr := { cls := .T, mtype := 8, arg := 3 }, payload := [1, 2, 3, 4] }])] }, br := { tags := [(3, some { phase := .sent, fwd := { holder := .fence 2 } })] } }) ({ hdr := { cls := .T, mtype := 8, arg := 3 }, payload := [1, 2, 3, 4] }) ([]) ({ phase := .sent, fwd := { holder := .fence 2 } }) = true := by
  decide +kernel

theorem test_meets_BridgeCommands_6 :
    (fun (s : State) => holds (
      (((s.core.inbox.getD portBridge []).head?.all fun f => decide (f.hdr.cls ≠ .T) || decide (f.hdr.mtype ≠ 0x08)) = true))) (({} : State)) = true := by
  decide +kernel

theorem test_meets_BridgeCommands_7 :
    (fun (s : State) (f : Frame) (rest : List Frame) => holds (
      (s.core.inbox.getD portBridge [] = f :: rest) ∧
      (f.hdr.cls = .T ∧ f.hdr.mtype = 0x08) ∧
      (((s.tagOf (f.hdr.argBits 0 8)).all fun x => decide (x.phase ≠ .sent)) = true))) ({ ({} : State) with core := { inbox := [(portBridge, [{ hdr := { cls := .T, mtype := 8, arg := 3 } }])] } }) ({ hdr := { cls := .T, mtype := 8, arg := 3 } }) ([]) = true := by
  decide +kernel

theorem test_meets_BridgeCommands_8 :
    (fun (s : State) (f : Frame) (rest : List Frame) => holds (
      (s.core.inbox.getD portBridge [] = f :: rest) ∧
      (f.hdr.cls = .T ∧ f.hdr.mtype = 0x09))) ({ ({} : State) with core := { inbox := [(portBridge, [{ hdr := { cls := .T, mtype := 9, src := 3, arg := 2 }, payload := [1, 2, 3, 4, 0, 0, 0, 0] }])] } }) ({ hdr := { cls := .T, mtype := 9, src := 3, arg := 2 }, payload := [1, 2, 3, 4, 0, 0, 0, 0] }) ([]) = true := by
  decide +kernel

theorem test_meets_BridgeCommands_9 :
    (fun (s : State) => holds (
      (((s.core.inbox.getD portBridge []).head?.all fun f => decide (f.hdr.cls ≠ .T) || decide (f.hdr.mtype ≠ 0x09)) = true))) (({} : State)) = true := by
  decide +kernel

theorem test_meets_BridgeCommands_10 :
    (fun (s : State) (tag : Tag) (x : Txn) => holds (
      (s.tagOf tag.val = some x) ∧
      (x.phase ≠ .quarantined))) ({ ({} : State) with br := { tags := [(3, some { phase := .sent })] } }) (3) ({ phase := .sent }) = true := by
  decide +kernel

theorem test_meets_BridgeCommands_11 :
    (fun (s : State) (tag : Tag) (x : Txn) => holds (
      (s.tagOf tag.val = some x) ∧
      (x.phase = .quarantined))) ({ ({} : State) with br := { tags := [(3, some { phase := .quarantined })] } }) (3) ({ phase := .quarantined }) = true := by
  decide +kernel

theorem test_meets_BridgeCommands_12 :
    (fun (s : State) (tag : Tag) => holds (
      (((s.tagOf tag.val).all fun x => decide (x.phase = .quarantined)) = true))) (({} : State)) (3) = true := by
  decide +kernel

theorem test_meets_BridgeCommands_13 :
    (fun (s : State) (tag : Tag) => holds (
      (((s.tagOf tag.val).all fun x => decide (x.phase ≠ .quarantined)) = true))) (({} : State)) (3) = true := by
  decide +kernel

theorem test_meets_BridgeCommands_14 :
    (fun (s : State) (tag : Tag) => holds (
      (((s.tagOf tag.val).all fun x => decide (x.phase ≠ .again)) = true))) (({} : State)) (3) = true := by
  decide +kernel

theorem test_meets_BridgeCommands_15 :
    (fun (s : State) (tag : Tag) (x : Txn) => holds (
      (s.tagOf tag.val = some x) ∧
      (x.phase = .again))) ({ ({} : State) with br := { tags := [(3, some { phase := .again })] } }) (3) ({ phase := .again }) = true := by
  decide +kernel

theorem test_meets_BridgeCommands_16 :
    (fun (s : State) (slot : Fin 16) (x : Slot) => holds (
      (s.slot slot.val = some x) ∧
      (x.state = 2 ∨ x.state = 3 ∨ x.state = 5))) ({ ({} : State) with br := { slots := [(3, some { state := 5, held := 9 })] } }) (3) ({ state := 5, held := 9 }) = true := by
  decide +kernel

theorem test_meets_BridgeCommands_17 :
    (fun (s : State) (slot : Fin 16) => holds (
      (((s.slot slot.val).all fun x => decide (x.state ≠ 2) && decide (x.state ≠ 3) && decide (x.state ≠ 5)) = true))) (({} : State)) (3) = true := by
  decide +kernel

theorem test_meets_BridgeCommands_18 :
    (fun (s : State) (who : Initiator) (win : Win) (v : Word) => holds (
      (s.accepts who 0x020 (BR_WIN_FENCE + 0x10 * win.val) = true) ∧
      (BR_WIN_FENCE_GO.get v = 1) ∧
      (s.win BR_WIN_FENCE_BUSY win.val = 0) ∧
      (s.br.posted.contains win.val = false ∨ s.winHub win.val = none))) (upOn [0x020] [(0x020, BR_WIN_FENCE + 0x30, 2 ^ BR_WIN_FENCE_ERR.lo)]) (.host) (3) (BitVec.ofNat 32 (2 ^ BR_WIN_FENCE_GO.lo)) = true := by
  decide +kernel

theorem test_meets_BridgeCommands_19 :
    (fun (s : State) (who : Initiator) (win : Win) (v : Word) (hub : Nat) => holds (
      (s.accepts who 0x020 (BR_WIN_FENCE + 0x10 * win.val) = true) ∧
      (BR_WIN_FENCE_GO.get v = 1) ∧
      (s.win BR_WIN_FENCE_BUSY win.val = 0) ∧
      (s.br.posted.contains win.val = true) ∧
      (s.winHub win.val = some hub) ∧
      (s.live hub = true))) ({ upOn [0x020] [(0x020, BR_WIN_CFG, 4 * 2 ^ BR_WIN_CFG_QUOTA.lo), (0x020, BR_WIN_BASE, 33 * 2 ^ BR_WIN_BASE_SIZE.lo), (0x020, BR_WIN_TGT, 9 * 2 ^ 13 * 2 ^ BR_WIN_TGT_TBASE.lo), (0x00A, RC_TOPO + 36, 0xFFFFFFFF)] with br := { posted := [0] } }) (.host) (0) (BitVec.ofNat 32 (2 ^ BR_WIN_FENCE_GO.lo)) (9) = true := by
  decide +kernel

theorem test_meets_BridgeCommands_20 :
    (fun (s : State) (who : Initiator) (win : Win) (v : Word) => holds (
      (s.accepts who 0x020 (BR_WIN_FENCE + 0x10 * win.val) = true) ∧
      (BR_WIN_FENCE_GO.get v = 0 ∨ s.win BR_WIN_FENCE_BUSY win.val = 1))) (upOn [0x020] []) (.host) (3) (0) = true := by
  decide +kernel

theorem test_meets_BridgeCommands_21 :
    (fun (s : State) (who : Initiator) (v : Word) => holds (
      (s.accepts who 0x020 BR_SIG_SEND = true) ∧
      (BR_SIG_SEND_GO.get v = 1) ∧
      (BR_SIG_SEND_VIA_WIN.get v = 0))) (upOn [0x020] []) (.host) (BitVec.ofNat 32 (2 ^ BR_SIG_SEND_GO.lo + 5)) = true := by
  decide +kernel

theorem test_meets_BridgeCommands_22 :
    (fun (s : State) (who : Initiator) (v : Word) => holds (
      (s.accepts who 0x020 BR_SIG_SEND = true))) (upOn [0x020] []) (.host) (BitVec.ofNat 32 (2 ^ BR_SIG_SEND_GO.lo + 2 ^ BR_SIG_SEND_VIA_WIN.lo)) = true := by
  decide +kernel

theorem test_meets_BridgeCommands_23 :
    (fun (s : State) (who : Initiator) (v : Word) (hub : Nat) => holds (
      (s.accepts who 0x020 BR_SIG_SEND = true) ∧
      (BR_SIG_SEND_GO.get v = 1) ∧
      (BR_SIG_SEND_VIA_WIN.get v = 1) ∧
      (s.winHub (BR_SIG_SEND_WIN.get v) = some hub))) (upOn [0x020] [(0x020, BR_WIN_BASE, 33 * 2 ^ BR_WIN_BASE_SIZE.lo), (0x020, BR_WIN_TGT, 9 * 2 ^ 13 * 2 ^ BR_WIN_TGT_TBASE.lo)]) (.host) (BitVec.ofNat 32 (2 ^ BR_SIG_SEND_GO.lo + 2 ^ BR_SIG_SEND_VIA_WIN.lo)) (9) = true := by
  decide +kernel

theorem test_meets_BridgeCommands_24 :
    (fun (s : State) => holds (
      (((s.core.inbox.getD portBridge []).head?.all fun f => decide (f.hdr.mtype ≠ 0x18) || (decide (f.hdr.cls ≠ .T) && decide (f.hdr.cls ≠ .E)) || (decide (f.hdr.cls = .T) && s.owed.any f.sameFlow)) = true))) (({} : State)) = true := by
  decide +kernel

theorem test_meets_BridgeCommands_25 :
    (fun (s : State) (f : Frame) (rest : List Frame) => holds (
      (s.core.inbox.getD portBridge [] = f :: rest) ∧
      (f.hdr.mtype = 0x18 ∧ (f.hdr.cls = .T ∨ f.hdr.cls = .E)) ∧
      (f.hdr.cls = .E ∨ s.owed.any f.sameFlow = false))) ({ ({} : State) with core := { inbox := [(portBridge, [{ hdr := { cls := .E, mtype := 0x18, src := 3, arg := 37 } }])] } }) ({ hdr := { cls := .E, mtype := 0x18, src := 3, arg := 37 } }) ([]) = true := by
  decide +kernel

theorem test_meets_BridgeCommands_26 :
    (fun (s : State) (who : Initiator) (v : Word) => holds (
      (s.accepts who 0x020 BR_TXF_CMD = true) ∧
      (BR_TXF_CMD_GO.get v = 1) ∧
      (s.fb 0x020 BR_TXF_STATUS_BUSY = false) ∧
      (BR_TXF_CMD_P.get v ≤ (Hdr.ofBytes (s.txfBytes 12)).cls.maxP) ∧
      (BR_TXF_CMD_P.get v % 4 = 0) ∧
      (BR_TXF_CMD_DIRECT.get v = 0 ∨ (12 ≤ BR_TXF_CMD_QUEUE.get v ∧ BR_TXF_CMD_QUEUE.get v ≤ 959)))) (upOn [0x020] [(0x020, BR_TXF_BUF, 0x12345678), (0x020, BR_TXF_BUF + 12, 0x11223344)]) (.host) (BitVec.ofNat 32 (2 ^ BR_TXF_CMD_GO.lo + 8 * 2 ^ BR_TXF_CMD_P.lo)) = true := by
  decide +kernel

theorem test_meets_BridgeCommands_27 :
    (fun (s : State) (who : Initiator) (v : Word) => holds (
      (s.accepts who 0x020 BR_TXF_CMD = true))) (upOn [0x020] [(0x020, BR_TXF_BUF, 0x12345678), (0x020, BR_TXF_BUF + 12, 0x11223344)]) (.host) (BitVec.ofNat 32 (2 ^ BR_TXF_CMD_GO.lo + 7 * 2 ^ BR_TXF_CMD_P.lo)) = true := by
  decide +kernel

theorem test_meets_BridgeCommands_28 :
    (fun (s : State) => holds (
      (s.fb 0x020 BR_TXF_STATUS_BUSY = false ∨ ((s.ingress.getD portBridge []).any (·.soft)) = true ∨ (s.ing portBridge).busy = true))) (({} : State)) = true := by
  decide +kernel

theorem test_meets_BridgeCommands_29 :
    (fun (s : State) => holds (
      (s.fb 0x020 BR_TXF_STATUS_BUSY = true) ∧
      (((s.ingress.getD portBridge []).any (·.soft)) = false) ∧
      ((s.ing portBridge).busy = false))) (upOn [0x020] [(0x020, BR_TXF_STATUS, 2 ^ BR_TXF_STATUS_BUSY.lo)]) = true := by
  decide +kernel

theorem test_meets_PitchPowerChannel_1 :
    (fun (s : State) (pitch : Pitch) (pres seat : Bool) => holds (
      True)) (st [(0x030, PP_STATUS, 6 * 2 ^ PP_STATUS_STATE.lo + 2 ^ PP_STATUS_GATE.lo + 2 ^ PP_STATUS_PRESENT.lo)]) (0) (false) (false) = true := by
  decide +kernel

theorem test_meets_PitchPowerChannel_2 :
    (fun (s : State) (pitch : Pitch) => holds (
      (s.ppState pitch.val = 2) ∧
      (s.fb (ppPage pitch.val) PP_STATUS_PRESENT = true) ∧
      ((if s.compat (ppPage pitch.val) then s.fb (ppPage pitch.val) PP_STATUS_SEATED else s.ppWindow pitch.val && ((s.pwr pitch.val).fast || decide (s.ppCfg pitch.val PP_INS_DELAY * 1000 ≤ (s.pwr pitch.val).ins))) = true))) ({ st [(0x030, PP_STATUS, 2 * 2 ^ PP_STATUS_STATE.lo + 2 ^ PP_STATUS_PRESENT.lo)] with supv := { fd := { vbus := 240 }, pwr := [(0, { ins := 10000000 })] } }) (0) = true := by
  decide +kernel

theorem test_meets_PitchPowerChannel_3 :
    (fun (s : State) (pitch : Pitch) => holds (
      (s.ppState pitch.val ≠ 2 ∨ s.fb (ppPage pitch.val) PP_STATUS_PRESENT = false ∨ (if s.compat (ppPage pitch.val) then s.fb (ppPage pitch.val) PP_STATUS_SEATED else s.ppWindow pitch.val && ((s.pwr pitch.val).fast || decide (s.ppCfg pitch.val PP_INS_DELAY * 1000 ≤ (s.pwr pitch.val).ins))) = false))) (({} : State)) (0) = true := by
  decide +kernel

theorem test_meets_PitchPowerChannel_4 :
    (fun (s : State) (pitch : Pitch) => holds (
      (s.ppState pitch.val = 4) ∧
      (s.supv.fd.vbus ≤ s.fg (ppPage pitch.val) PP_MEAS_VOUT + 5))) (st [(0x030, PP_STATUS, 4 * 2 ^ PP_STATUS_STATE.lo)]) (0) = true := by
  decide +kernel

theorem test_meets_PitchPowerChannel_5 :
    (fun (s : State) (pitch : Pitch) => holds (
      (s.ppState pitch.val = 5))) (st [(0x030, PP_STATUS, 5 * 2 ^ PP_STATUS_STATE.lo)]) (0) = true := by
  decide +kernel

theorem test_meets_PitchPowerChannel_6 :
    (fun (s : State) (pitch : Pitch) => holds (
      (s.ppState pitch.val ≠ 4 ∨ s.fg (ppPage pitch.val) PP_MEAS_VOUT + 5 < s.supv.fd.vbus))) (({} : State)) (0) = true := by
  decide +kernel

theorem test_meets_PitchPowerChannel_7 :
    (fun (s : State) (pitch : Pitch) => holds (
      (s.ppState pitch.val ≠ 5))) (({} : State)) (0) = true := by
  decide +kernel

theorem test_meets_PitchPowerChannel_8 :
    (fun (s : State) (pitch : Pitch) => holds (
      (s.ppState pitch.val = 3))) (st [(0x030, PP_STATUS, 3 * 2 ^ PP_STATUS_STATE.lo)]) (0) = true := by
  decide +kernel

theorem test_meets_PitchPowerChannel_9 :
    (fun (s : State) (pitch : Pitch) => holds (
      (s.ppState pitch.val = 4) ∧
      (s.fg (ppPage pitch.val) PP_MEAS_VOUT + 5 < s.supv.fd.vbus))) ({ st [(0x030, PP_STATUS, 4 * 2 ^ PP_STATUS_STATE.lo)] with supv := { fd := { vbus := 240 } } }) (0) = true := by
  decide +kernel

theorem test_meets_PitchPowerChannel_10 :
    (fun (s : State) (pitch : Pitch) => holds (
      (s.ppState pitch.val ≠ 3))) (({} : State)) (0) = true := by
  decide +kernel

theorem test_meets_PitchPowerChannel_11 :
    (fun (s : State) (pitch : Pitch) => holds (
      (s.ppState pitch.val ≠ 4 ∨ s.supv.fd.vbus ≤ s.fg (ppPage pitch.val) PP_MEAS_VOUT + 5))) (({} : State)) (0) = true := by
  decide +kernel

theorem test_meets_PitchPowerChannel_12 :
    (fun (s : State) (pitch : Pitch) => holds (
      (s.ppState pitch.val = 6) ∧
      ((s.pwr pitch.val).timers = []) ∧
      (s.fb (ppPage pitch.val) PP_STATUS_PG = false))) (st [(0x030, PP_STATUS, 6 * 2 ^ PP_STATUS_STATE.lo)]) (0) = true := by
  decide +kernel

theorem test_meets_PitchPowerChannel_13 :
    (fun (s : State) (pitch : Pitch) => holds (
      (s.fb (ppPage pitch.val) PP_STATUS_PG = true))) (st [(0x030, PP_STATUS, 2 ^ PP_STATUS_PG.lo + 2 * 2 ^ PP_STATUS_ATTEMPTS.lo)]) (0) = true := by
  decide +kernel

theorem test_meets_PitchPowerChannel_14 :
    (fun (s : State) (pitch : Pitch) => holds (
      (s.ppState pitch.val ≠ 6 ∨ (s.pwr pitch.val).timers ≠ [] ∨ s.fb (ppPage pitch.val) PP_STATUS_PG = true))) (({} : State)) (0) = true := by
  decide +kernel

theorem test_meets_PitchPowerChannel_15 :
    (fun (s : State) (pitch : Pitch) => holds (
      (s.fb (ppPage pitch.val) PP_STATUS_PG = false))) (({} : State)) (0) = true := by
  decide +kernel

theorem test_meets_PitchPowerChannel_16 :
    (fun (s : State) (pitch : Pitch) => holds (
      (s.ppPowered pitch.val = true) ∧
      (s.ppCfg pitch.val PP_WIN_FILT ≤ (s.pwr pitch.val).out))) ({ st [(0x030, PP_STATUS, 6 * 2 ^ PP_STATUS_STATE.lo + 2 ^ PP_STATUS_PG.lo)] with supv := { pwr := [(0, { out := 5000 })] } }) (0) = true := by
  decide +kernel

theorem test_meets_PitchPowerChannel_17 :
    (fun (s : State) (pitch : Pitch) => holds (
      (s.ppPowered pitch.val = true))) (st [(0x030, PP_STATUS, 6 * 2 ^ PP_STATUS_STATE.lo + 2 ^ PP_STATUS_PG.lo)]) (0) = true := by
  decide +kernel

theorem test_meets_PitchPowerChannel_18 :
    (fun (s : State) (pitch : Pitch) => holds (
      (s.ppPowered pitch.val = true))) (st [(0x030, PP_STATUS, 6 * 2 ^ PP_STATUS_STATE.lo + 2 ^ PP_STATUS_PG.lo)]) (0) = true := by
  decide +kernel

theorem test_meets_PitchPowerChannel_19 :
    (fun (s : State) (pitch : Pitch) => holds (
      (s.ppPowered pitch.val = true) ∧
      (s.tripPoints pitch.val ≠ []))) ({ st [(0x030, PP_STATUS, 6 * 2 ^ PP_STATUS_STATE.lo), (0x030, PP_CURVE, 2 ^ PP_CURVE_EN.lo + 2 ^ PP_CURVE_T.lo)] with supv := { pwr := [(0, { timers := [(0, 10)] })] } }) (0) = true := by
  decide +kernel

theorem test_meets_PitchPowerChannel_20 :
    (fun (s : State) (pitch : Pitch) => holds (
      (s.ppPowered pitch.val = false ∨ (s.pwr pitch.val).out < s.ppCfg pitch.val PP_WIN_FILT))) (({} : State)) (0) = true := by
  decide +kernel

theorem test_meets_PitchPowerChannel_21 :
    (fun (s : State) (pitch : Pitch) => holds (
      (s.ppPowered pitch.val = false))) (({} : State)) (0) = true := by
  decide +kernel

theorem test_meets_PitchPowerChannel_22 :
    (fun (s : State) (pitch : Pitch) => holds (
      (s.ppPowered pitch.val = false))) (({} : State)) (0) = true := by
  decide +kernel

theorem test_meets_PitchPowerChannel_23 :
    (fun (s : State) (pitch : Pitch) => holds (
      (s.ppPowered pitch.val = false ∨ s.tripPoints pitch.val = []))) (({} : State)) (0) = true := by
  decide +kernel

theorem test_meets_PitchPowerChannel_24 :
    (fun (s : State) (pitch : Pitch) => holds (
      (s.ppState pitch.val = 7))) (st [(0x030, PP_STATUS, 7 * 2 ^ PP_STATUS_STATE.lo)]) (0) = true := by
  decide +kernel

theorem test_meets_PitchPowerChannel_25 :
    (fun (s : State) (pitch : Pitch) => holds (
      (s.ppState pitch.val ≠ 7))) (({} : State)) (0) = true := by
  decide +kernel

theorem test_meets_PitchPowerChannel_26 :
    (fun (s : State) (who : Initiator) (pitch : Pitch) => holds (
      (s.accepts who (ppPage pitch.val) PP_CTRL = true))) (upOn [0x020, 0x030] []) (.host) (0) = true := by
  decide +kernel

theorem test_meets_PitchPowerChannel_27 :
    (fun (s : State) (who : Initiator) (pitch : Pitch) => holds (
      (s.accepts who (ppPage pitch.val) PP_CTRL = true))) (upOn [0x020, 0x030] []) (.host) (0) = true := by
  decide +kernel

theorem test_meets_PitchPowerChannel_28 :
    (fun (s : State) (pitch : Pitch) => holds (
      (s.ppState pitch.val = 6) ∧
      (100 ≤ s.fg (ppPage pitch.val) PP_MEAS_I))) ({ st [(0x030, PP_STATUS, 6 * 2 ^ PP_STATUS_STATE.lo), (0x030, PP_MEAS, 200 * 2 ^ PP_MEAS_I.lo + 230 * 2 ^ PP_MEAS_VOUT.lo)] with supv := { fd := { vbus := 240 } } }) (0) = true := by
  decide +kernel

theorem test_meets_PitchPowerChannel_29 :
    (fun (s : State) (pitch : Pitch) => holds (
      (s.ppState pitch.val ≠ 6 ∨ s.fg (ppPage pitch.val) PP_MEAS_I < 100))) (({} : State)) (0) = true := by
  decide +kernel

theorem test_meets_FeedsRecorderAndControlLink_1 :
    (fun (s : State) (x : SupSample) => holds (
      True)) (st [(0x030, PP_STATUS, 6 * 2 ^ PP_STATUS_STATE.lo)]) ({ vbus := 240, va := 900, vb := 240, hu := 3, pitches := [(3, 4), (20, 240)] }) = true := by
  decide +kernel

theorem test_meets_FeedsRecorderAndControlLink_2 :
    (fun (s : State) (feed : Feed) => holds (
      (s.fdOk feed = false) ∧
      (s.fdCfg FD_TIMING_QUAL * 1000 ≤ (s.feed feed).inside))) ({ ({} : State) with supv := { fd := { b := { inside := 20000000 } } } }) (.b) = true := by
  decide +kernel

theorem test_meets_FeedsRecorderAndControlLink_3 :
    (fun (s : State) (feed : Feed) => holds (
      (s.fdOk feed = true) ∧
      (s.fdOv feed < (s.feed feed).v ∨ s.fdCfg FD_TIMING_FILT ≤ (s.feed feed).out))) ({ st [(0x028, FD_STATUS, 2 ^ FD_STATUS_A_OK.lo + 2 ^ FD_STATUS_SEL.lo)] with supv := { fd := { a := { out := 20000000 } } } }) (.a) = true := by
  decide +kernel

theorem test_meets_FeedsRecorderAndControlLink_4 :
    (fun (s : State) (feed : Feed) => holds (
      (s.fdOk feed = true ∨ (s.feed feed).inside < s.fdCfg FD_TIMING_QUAL * 1000))) (({} : State)) (.a) = true := by
  decide +kernel

theorem test_meets_FeedsRecorderAndControlLink_5 :
    (fun (s : State) (feed : Feed) => holds (
      (s.fdOk feed = false ∨ ((s.feed feed).v ≤ s.fdOv feed ∧ (s.feed feed).out < s.fdCfg FD_TIMING_FILT)))) (({} : State)) (.a) = true := by
  decide +kernel

theorem test_meets_FeedsRecorderAndControlLink_6 :
    (fun (s : State) => holds (
      (s.supv.fd.dead = true) ∧
      (s.fdWant ≠ 0))) ({ st [(0x028, FD_STATUS, 2 ^ FD_STATUS_A_OK.lo)] with supv := { fd := { dead := true } } }) = true := by
  decide +kernel

theorem test_meets_FeedsRecorderAndControlLink_7 :
    (fun (s : State) => holds (
      (s.supv.fd.dead = true) ∧
      (s.fdWant = 0))) ({ ({} : State) with supv := { fd := { dead := true } } }) = true := by
  decide +kernel

theorem test_meets_FeedsRecorderAndControlLink_8 :
    (fun (s : State) => holds (
      (s.supv.fd.dead = false))) (({} : State)) = true := by
  decide +kernel

theorem test_meets_FeedsRecorderAndControlLink_9 :
    (fun (s : State) => holds (
      (s.supv.fd.dead = true ∨ s.fb 0x028 FD_STATUS_CHANGING = false))) (({} : State)) = true := by
  decide +kernel

theorem test_meets_FeedsRecorderAndControlLink_10 :
    (fun (s : State) => holds (
      (s.supv.fd.dead = false) ∧
      (s.fb 0x028 FD_STATUS_CHANGING = true))) (st [(0x028, FD_STATUS, 2 ^ FD_STATUS_CHANGING.lo)]) = true := by
  decide +kernel

theorem test_meets_FeedsRecorderAndControlLink_11 :
    (fun (s : State) (feed : Feed) (d : Disturb) => holds (
      ((s.feed feed).dist = some d) ∧
      (d.last + 1000 ≤ d.n) ∧
      (s.gs.distNext < 64))) ({ ({} : State) with supv := { fd := { a := { dist := some { aon := 640, n := 1007, last := 7, lo := 150, hi := 240, below := true } } } } }) (.a) ({ aon := 640, n := 1007, last := 7, lo := 150, hi := 240, below := true }) = true := by
  decide +kernel

theorem test_meets_FeedsRecorderAndControlLink_12 :
    (fun (s : State) (feed : Feed) => holds (
      (((s.feed feed).dist.all fun d => decide (d.n < d.last + 1000)) = true))) (({} : State)) (.a) = true := by
  decide +kernel

theorem test_meets_FeedsRecorderAndControlLink_13 :
    (fun (s : State) (who : Initiator) (entry : Fin 64) => holds (
      (s.reach who 0 (0x200 + 8 * entry.val) = rspOk))) (upOn [0x000, 0x020] [(0, 0x208, 77)]) (.host) (1) = true := by
  decide +kernel

theorem test_meets_FeedsRecorderAndControlLink_14 :
    (fun (s : State) (w : SupWrite) (ws : List SupWrite) => holds (
      (s.supv.queue = w :: ws) ∧
      (s.supv.link = true))) ({ upOn [0x030] [] with supv := { link := true, queue := [⟨0x030, PP_CTRL, 4⟩] } }) (⟨0x030, PP_CTRL, 4⟩) ([]) = true := by
  decide +kernel

theorem test_meets_FeedsRecorderAndControlLink_15 :
    (fun (s : State) => holds (
      (s.supv.queue = [] ∨ s.supv.link = false))) (({} : State)) = true := by
  decide +kernel

theorem test_meets_FeedsRecorderAndControlLink_16 :
    (fun (s : State) => holds (
      (s.supv.link = false))) (({} : State)) = true := by
  decide +kernel

theorem test_meets_FeedsRecorderAndControlLink_17 :
    (fun (s : State) => holds (
      (s.supv.link = true))) ({ st [(0x030, PP_STATUS, 6 * 2 ^ PP_STATUS_STATE.lo), (0x030, PP_CFG, 2 ^ PP_CFG_STBY_OFF.lo)] with supv := { link := true } }) = true := by
  decide +kernel

theorem test_meets_FeedsRecorderAndControlLink_18 :
    (fun (s : State) => holds (
      (s.supv.link = true))) ({ upOn [0x030, 0x028] [] with supv := { link := true } }) = true := by
  decide +kernel

theorem test_meets_FeedsRecorderAndControlLink_19 :
    (fun (s : State) => holds (
      (s.supv.link = false))) (({} : State)) = true := by
  decide +kernel

theorem test_meets_FeedsRecorderAndControlLink_20 :
    (fun (s : State) => holds (
      True)) (({} : State)) = true := by
  decide +kernel

theorem test_meets_FeedsRecorderAndControlLink_21 :
    (fun (s : State) (ok : Bool) => holds (
      True)) ({ upOn [0x030] [] with supv := { link := true } }) (true) = true := by
  decide +kernel

theorem test_meets_MemoryCommands_1 :
    (fun (s : State) (who : Initiator) (addr : Nat) (write : Bool) (data : Word) (be : BitVec 4) => holds (
      (s.ready 0x020 = true) ∧
      (addr % 4 = 0 ∧ addr / 4 < 131072) ∧
      (s.spGate (ownerCode who) (addr / 65536) write = .serve) ∧
      (s.mem.spUe.contains (addr / 4) = false ∧ s.mem.spCe.contains (addr / 4) = false))) ({ upOn [0x020, 0x280] [(0x280, MEM_BANK_STAT, 2 ^ MEM_BANK_STAT_OWNER.lo)] with mem := { powerOn := [], sp := [(3, 0xAABBCCDD)] } }) (.host) (12) (true) (0x11223344) (5) = true := by
  decide +kernel

theorem test_meets_MemoryCommands_2 :
    (fun (s : State) (who : Initiator) (addr : Nat) (write : Bool) (data : Word) (be : BitVec 4) => holds (
      (s.ready 0x020 = true) ∧
      (addr % 4 = 0 ∧ addr / 4 < 131072) ∧
      (s.spGate (ownerCode who) (addr / 65536) write = .foreign))) (upOn [0x020, 0x280] [(0x280, MEM_BANK_STAT, 2 ^ MEM_BANK_STAT_OWNER.lo)]) (.lantern) (12) (true) (0x11223344) (5) = true := by
  decide +kernel

theorem test_meets_MemoryCommands_3 :
    (fun (s : State) (who : Initiator) (addr : Nat) (write : Bool) (data : Word) (be : BitVec 4) => holds (
      True)) (upOn [0x280] []) (.lantern) (12) (true) (0x11223344) (5) = true := by
  decide +kernel

theorem test_meets_MemoryCommands_4 :
    (fun (s : State) (who : Initiator) (addr : Nat) (write : Bool) (data : Word) (be : BitVec 4) => holds (
      (s.ready 0x020 = true) ∧
      (addr % 4 ≠ 0 ∧ addr / 4 + 1 < 131072) ∧
      (s.spGate (ownerCode who) (addr / 65536) write = .serve ∧ s.spGate (ownerCode who) ((addr + 4) / 65536) write = .serve) ∧
      (s.mem.spUe.contains (addr / 4) = false ∧ s.mem.spCe.contains (addr / 4) = false ∧ s.mem.spUe.contains (addr / 4 + 1) = false ∧ s.mem.spCe.contains (addr / 4 + 1) = false))) ({ upOn [0x020, 0x280] [(0x280, MEM_BANK_STAT, 2 ^ MEM_BANK_STAT_OWNER.lo)] with mem := { powerOn := [], sp := [(3, 0xAABBCCDD)] } }) (.host) (13) (true) (0x11223344) (5) = true := by
  decide +kernel

theorem test_meets_MemoryCommands_5 :
    (fun (s : State) (who : Initiator) (v : Word) (c : Instr) => holds (
      (c = .bankHandover who v ∨ c = .bankPowerOn who v ∨ c = .bankPowerRetention who v ∨ c = .bankPowerOff who v) ∧
      (s.accepts who 0x280 MEM_BANK_CMD = true) ∧
      (MEM_BANK_CMD_GO.get v = 1) ∧
      (s.spMarched (MEM_BANK_CMD_BANK.get v) = false) ∧
      ((MEM_BANK_CMD_OP.get v = 1 ∧ MEM_BANK_CMD_ARG.get v < 8) ∨ (2 ≤ MEM_BANK_CMD_OP.get v ∧ MEM_BANK_CMD_OP.get v ≤ 4 ∧ s.spPower (MEM_BANK_CMD_BANK.get v) ≠ MEM_BANK_CMD_OP.get v - 2)))) (upOn [0x020, 0x280] []) (.host) (BitVec.ofNat 32 (2 ^ MEM_BANK_CMD_GO.lo + 2 ^ MEM_BANK_CMD_OP.lo + 3 * 2 ^ MEM_BANK_CMD_BANK.lo + 2 * 2 ^ MEM_BANK_CMD_ARG.lo)) ((.bankHandover .host (BitVec.ofNat 32 (2 ^ MEM_BANK_CMD_GO.lo + 2 ^ MEM_BANK_CMD_OP.lo + 3 * 2 ^ MEM_BANK_CMD_BANK.lo + 2 * 2 ^ MEM_BANK_CMD_ARG.lo)))) = true := by
  decide +kernel

theorem test_meets_MemoryCommands_6 :
    (fun (s : State) (who : Initiator) (v : Word) (c : Instr) (b op arg : Nat) => holds (
      (c = .bankHandover who v ∨ c = .bankPowerOn who v ∨ c = .bankPowerRetention who v ∨ c = .bankPowerOff who v) ∧
      (s.accepts who 0x280 MEM_BANK_CMD = true) ∧
      (b = MEM_BANK_CMD_BANK.get v ∧ op = MEM_BANK_CMD_OP.get v ∧ arg = MEM_BANK_CMD_ARG.get v))) (upOn [0x020, 0x280] []) (.host) (BitVec.ofNat 32 (2 ^ MEM_BANK_CMD_GO.lo)) ((.bankHandover .host (BitVec.ofNat 32 (2 ^ MEM_BANK_CMD_GO.lo)))) (0) (0) (0) = true := by
  decide +kernel

theorem test_meets_MemoryCommands_7 :
    (fun (s : State) (bank : Fin 8) (op arg : Nat) => holds (
      ((s.spBank bank.val).drain = some (op, arg)) ∧
      (arg < 8 ∧ 1 ≤ op ∧ op ≤ 4) ∧
      (s.mem.held = []))) ({ upOn [0x280] [] with mem := { banks := [(3, { drain := some (1, 2) })], sp := [(3, 7)] } }) (3) (1) (2) = true := by
  decide +kernel

theorem test_meets_MemoryCommands_8 :
    (fun (s : State) (bank : Fin 8) => holds (
      ((s.spBank bank.val).drain ≠ none))) ({ upOn [0x280] [] with mem := { banks := [(3, { drain := some (1, 2) })], sp := [(3, 7)], held := [{ who := .host, addr := 4 }] } }) (3) = true := by
  decide +kernel

theorem test_meets_MemoryCommands_9 :
    (fun (s : State) (bank : Fin 8) => holds (
      ((s.spBank bank.val).drain = none))) (({} : State)) (0) = true := by
  decide +kernel

theorem test_meets_MemoryCommands_10 :
    (fun (s : State) (bank : Fin 8) => holds (
      ((s.spBank bank.val).filling = false))) (({} : State)) (0) = true := by
  decide +kernel

theorem test_meets_MemoryCommands_11 :
    (fun (s : State) (bank : Fin 8) => holds (
      ((s.spBank bank.val).filling = true))) ({ upOn [0x280] [] with mem := { banks := [(0, { filling := true })], sp := [(3, 7)] } }) (0) = true := by
  decide +kernel

theorem test_meets_MemoryCommands_12 :
    (fun (s : State) (bank : Fin 8) (row n : Nat) => holds (
      (s.fg 0x280 MEM_ECC_CFG_ROW_THRESH ≠ 0) ∧
      ((row, n) ∈ (s.spBank bank.val).track) ∧
      (s.fg 0x280 MEM_ECC_CFG_ROW_THRESH ≤ n) ∧
      ((s.mem.repairs.any fun r => decide (r.1 = bank.val) && decide (r.2.1 = row)) = false))) ({ upOn [0x280] [(0x280, MEM_ECC_CFG, 2 * 2 ^ MEM_ECC_CFG_ROW_THRESH.lo)] with mem := { banks := [(3, { track := [(9, 2)] })] } }) (3) (9) (2) = true := by
  decide +kernel

theorem test_meets_MemoryCommands_13 :
    (fun (s : State) (bank : Fin 8) (row : Nat) => holds (
      (s.fg 0x280 MEM_ECC_CFG_ROW_THRESH = 0 ∨ ((s.spBank bank.val).track.any fun e => decide (e.1 = row) && decide (s.fg 0x280 MEM_ECC_CFG_ROW_THRESH ≤ e.2)) = false ∨ (s.mem.repairs.any fun r => decide (r.1 = bank.val) && decide (r.2.1 = row)) = true))) (({} : State)) (3) (9) = true := by
  decide +kernel

theorem test_meets_MemoryCommands_14 :
    (fun (s : State) (bank : Fin 8) (row : Nat) => holds (
      (s.mem.repairs.find? (fun r => decide (r.1 = bank.val) && decide (r.2.1 = row)) = none))) (({} : State)) (3) (9) = true := by
  decide +kernel

theorem test_meets_MemoryCommands_15 :
    (fun (s : State) (bank : Fin 8) (row : Nat) (r : Nat × Nat × Nat) => holds (
      (s.mem.repairs.find? (fun r => decide (r.1 = bank.val) && decide (r.2.1 = row)) = some r))) ({ upOn [0x280] [] with mem := { repairs := [(3, 9, 2)] } }) (3) (9) ((3, 9, 2)) = true := by
  decide +kernel

theorem test_meets_MemoryCommands_16 :
    (fun (s : State) (who : Initiator) (v : Word) (m : March) => holds (
      (s.accepts who 0x280 MEM_MARCH_CMD = true) ∧
      (MEM_MARCH_CMD_GO.get v = 1 ∧ MEM_MARCH_CMD_ABORT.get v = 0) ∧
      (m = { target := MEM_MARCH_CMD_TARGET.get v, bank := MEM_MARCH_CMD_BANK.get v, destruct := decide (MEM_MARCH_CMD_DESTRUCT.get v = 1) }))) (upOn [0x020, 0x280] []) (.host) (BitVec.ofNat 32 (2 ^ MEM_MARCH_CMD_GO.lo + 3 * 2 ^ MEM_MARCH_CMD_BANK.lo)) ({ bank := 3 }) = true := by
  decide +kernel

theorem test_meets_MemoryCommands_17 :
    (fun (s : State) (who : Initiator) (v : Word) => holds (
      (s.accepts who 0x280 MEM_MARCH_CMD = true) ∧
      (MEM_MARCH_CMD_GO.get v = 0))) (upOn [0x020, 0x280] []) (.host) (0) = true := by
  decide +kernel

theorem test_meets_MemoryCommands_18 :
    (fun (s : State) (who : Initiator) (m : March) => holds (
      (s.accepts who 0x280 MEM_MARCH_CMD = true) ∧
      (s.mem.march = some m))) ({ upOn [0x020, 0x280] [] with mem := { march := some {} } }) (.host) ({}) = true := by
  decide +kernel

theorem test_meets_MemoryCommands_19 :
    (fun (s : State) (who : Initiator) => holds (
      (s.accepts who 0x280 MEM_MARCH_CMD = true) ∧
      (s.mem.march = none))) (upOn [0x020, 0x280] []) (.host) = true := by
  decide +kernel

theorem test_meets_MemoryCommands_20 :
    (fun (s : State) (fails : Bool) (m : March) => holds (
      (s.mem.march = some m) ∧
      (m.destruct = false ∧ m.abort = false) ∧
      (m.next < m.rows))) ({ upOn [0x280] [] with mem := { march := some { bank := 3 } } }) (true) ({ bank := 3 }) = true := by
  decide +kernel

theorem test_meets_MemoryCommands_21 :
    (fun (s : State) (fails : Bool) (m : March) => holds (
      (s.mem.march = some m) ∧
      (m.destruct = false ∧ m.abort = true) ∧
      (m.next < m.rows))) ({ upOn [0x280] [] with mem := { march := some { bank := 3, abort := true } } }) (true) ({ bank := 3, abort := true }) = true := by
  decide +kernel

theorem test_meets_MemoryCommands_22 :
    (fun (s : State) (fails : Bool) => holds (
      ((s.mem.march.all fun m => m.destruct || decide (m.rows ≤ m.next)) = true))) (({} : State)) (true) = true := by
  decide +kernel

theorem test_meets_MemoryCommands_23 :
    (fun (s : State) (mem : Fin 3) (failing : List (Nat × Nat)) => holds (
      (s.mem.powerOn.contains mem.val = false) ∧
      ((s.mem.march.all fun m => decide (m.memory ≠ mem.val) || (!m.destruct && decide (m.next < m.rows))) = true))) ({ ({} : State) with mem := { powerOn := [] } }) (0) ([]) = true := by
  decide +kernel

theorem test_meets_MemoryCommands_24 :
    (fun (s : State) (mem : Fin 3) (failing : List (Nat × Nat)) => holds (
      (s.mem.powerOn.contains mem.val = true))) ({ upOn [0x280] [] with mem := { powerOn := [0, 1, 2] } }) (0) ([(3, 5)]) = true := by
  decide +kernel

theorem test_meets_MemoryCommands_25 :
    (fun (s : State) (mem : Fin 3) (failing : List (Nat × Nat)) (m : March) => holds (
      (s.mem.march = some m) ∧
      (s.mem.powerOn.contains mem.val = false) ∧
      (m.memory = mem.val) ∧
      (m.destruct = true))) ({ upOn [0x280] [] with mem := { powerOn := [], march := some { bank := 3, destruct := true } } }) (0) ([(3, 5)]) ({ bank := 3, destruct := true }) = true := by
  decide +kernel

theorem test_meets_MemoryCommands_26 :
    (fun (s : State) (mem : Fin 3) (failing : List (Nat × Nat)) (m : March) => holds (
      (s.mem.march = some m) ∧
      (s.mem.powerOn.contains mem.val = false) ∧
      (m.memory = mem.val) ∧
      (m.destruct = false) ∧
      (m.rows ≤ m.next))) ({ upOn [0x280] [] with mem := { powerOn := [], march := some { bank := 3, next := 516 } } }) (0) ([]) ({ bank := 3, next := 516 }) = true := by
  decide +kernel

theorem test_meets_FaultsAndWear_1 :
    (fun (s : State) (n detail : Nat) (rest : List (Nat × Nat)) => holds (
      (s.faultQ = (n, detail) :: rest) ∧
      (n < 256) ∧
      (s.ready 0x004 = true) ∧
      (s.fg 0x004 (srcF FT_SRC_CFG_MINOR n) ≤ 1 ∧ s.fg 0x004 (srcF FT_SRC_CFG_SEVERE n) ≤ 1))) ({ upOn [0x004] [(0x004, FT_SRC_CFG + 4 * 9, 2 ^ FT_SRC_CFG_N.lo)] with faultQ := [(9, 5)] }) (9) (5) ([]) = true := by
  decide +kernel

theorem test_meets_FaultsAndWear_2 :
    (fun (s : State) => holds (
      (s.faultQ = [] ∨ s.ready 0x004 = false))) (({} : State)) = true := by
  decide +kernel

theorem test_meets_FaultsAndWear_3 :
    (fun (s : State) (n detail : Nat) (rest : List (Nat × Nat)) => holds (
      (s.faultQ = (n, detail) :: rest) ∧
      (s.ready 0x004 = true))) ({ upOn [0x004] [(0x004, FT_SRC_CFG + 4 * 9, 2 ^ FT_SRC_CFG_N.lo + 6 * 2 ^ FT_SRC_CFG_MINOR.lo)] with faultQ := [(9, 5)] }) (9) (5) ([]) = true := by
  decide +kernel

theorem test_meets_FaultsAndWear_4 :
    (fun (s : State) (k detail : Nat) (rest : List (Nat × Nat)) => holds (
      (k < 24) ∧
      (s.faultQ = (0x9F + 2 * k, detail) :: rest) ∧
      (s.ready 0x004 = true) ∧
      (s.fg 0x004 (srcF FT_SRC_CFG_N (0x9F + 2 * k)) = 0) ∧
      (s.fg 0x004 (srcF FT_SRC_CFG_MINOR (0x9F + 2 * k)) = 2) ∧
      (s.isolated (clPage k) = false))) ({ upOn [0x004, 0x050] [(0x004, FT_SRC_CFG + 4 * 0x9F, 2 * 2 ^ FT_SRC_CFG_MINOR.lo)] with faultQ := [(0x9F, 5)] }) (0) (5) ([]) = true := by
  decide +kernel

theorem test_meets_FaultsAndWear_5 :
    (fun (s : State) (who : Initiator) (v : Word) => holds (
      (s.accepts who 0x004 FT_RELEASE = true) ∧
      (FT_RELEASE_GO.get v = 1))) ({ upOn [0x020, 0x004] [(0x050, PAGE_STATE, 4)] with iso := [(0x050, 0xA0)] }) (.host) (BitVec.ofNat 32 (2 ^ FT_RELEASE_GO.lo + 0x9F * 2 ^ FT_RELEASE_SOURCE.lo)) = true := by
  decide +kernel

theorem test_meets_FaultsAndWear_6 :
    (fun (s : State) (who : Initiator) (v : Word) => holds (
      (s.accepts who 0x004 FT_RELEASE = true) ∧
      (FT_RELEASE_GO.get v = 0))) (upOn [0x020, 0x004] []) (.host) (0) = true := by
  decide +kernel

theorem test_meets_FaultsAndWear_7 :
    (fun (s : State) => holds (
      (s.gs.errPulse = true) ∧
      (s.gs.errReset = []))) ({ st [(0x004, FT_ERR, 2 ^ FT_ERR_PULSE.lo)] with gs := { errPulse := true } }) = true := by
  decide +kernel

theorem test_meets_FaultsAndWear_8 :
    (fun (s : State) => holds (
      (s.gs.errPulse = false))) (({} : State)) = true := by
  decide +kernel

theorem test_meets_FaultsAndWear_9 :
    (fun (s : State) (r : ResetReq) => holds (
      (s.gs.errPulse = true))) ({ st [(0x004, FT_ERR, 2 ^ FT_ERR_PULSE.lo)] with gs := { errPulse := true, errReset := [⟨7, 3, 0x9F⟩, ⟨7, 2, 9⟩] } }) (⟨7, 2, 9⟩) = true := by
  decide +kernel

theorem test_meets_FaultsAndWear_10 :
    (fun (s : State) (tj : Int) => holds (
      True)) (st [(0x004, FT_THERM, 2 ^ FT_THERM_WARN.lo * 90)]) (95) = true := by
  decide +kernel

theorem test_meets_FaultsAndWear_11 :
    (fun (s : State) (u : Fin 39) (count : Nat) (tj : Int) => holds (
      (s.ready 0x005 = true) ∧
      (s.oscWorn (4096 + u.val) count tj = true) ∧
      (s.wear.worn.contains u.val = false))) ({ upOn [0x005] [(0x005, WR_RO_CFG, 50 * 2 ^ WR_RO_CFG_PCT.lo)] with wear := { tj := some 30, base := [(4099, 1000)] } }) (3) (900) (35) = true := by
  decide +kernel

theorem test_meets_FaultsAndWear_12 :
    (fun (s : State) (u : Fin 216) (count : Nat) (tj : Int) (c : Nat) => holds (
      (s.ready 0x005 = true) ∧
      (s.oscWorn (8192 + u.val) count tj = true) ∧
      (s.wear.worn.contains (4096 + u.val) = false) ∧
      (u.val % 9 ≠ 8 ∧ s.servedBy (u.val / 9) (u.val % 9) = some c) ∧
      ((nbit (s.fg 0x005 WR_SPARE_EN_KIND) 1 && s.fb (ecPage (u.val / 9)) EC_CTRL_MIG_AUTO) = false))) ({ upOn [0x005] [(0x005, WR_RO_CFG, 50 * 2 ^ WR_RO_CFG_PCT.lo), (0x005, WR_SPARE_EN, 0)] with wear := { tj := some 30, base := [(8195, 1000)] } }) (3) (900) (35) (3) = true := by
  decide +kernel

theorem test_meets_FaultsAndWear_13 :
    (fun (s : State) (m : Sentinel) => holds (
      (s.ready 0x005 = false))) (({} : State)) ((.transistor 3)) = true := by
  decide +kernel

theorem test_meets_FaultsAndWear_14 :
    (fun (s : State) (u : Fin 39) (count : Nat) (tj : Int) => holds (
      (s.oscWorn (4096 + u.val) count tj = false ∨ s.wear.worn.contains u.val = true))) (({} : State)) (3) (900) (35) = true := by
  decide +kernel

theorem test_meets_FaultsAndWear_15 :
    (fun (s : State) (l : Fin 36) (v h : BitVec 8) => holds (
      (s.ready 0x005 = true) ∧
      (l.val < 12))) (upOn [0x005] [(0x005, WR_EYE_CFG, 2 ^ WR_EYE_CFG_COUNT.lo)]) (7) (3) (4) = true := by
  decide +kernel

theorem test_meets_FaultsAndWear_16 :
    (fun (s : State) (v h : BitVec 8) => holds (
      (s.ready 0x005 = true) ∧
      (v.toNat < s.fg 0x005 WR_EYE_CFG_V_MIN) ∧
      (s.fg 0x005 WR_EYE_CFG_COUNT ≤ s.wear.runs.getD 8202 0 + 1) ∧
      (s.wear.worn.contains 8202 = false))) (upOn [0x005] [(0x005, WR_EYE_CFG, 2 ^ WR_EYE_CFG_COUNT.lo + 9 * 2 ^ WR_EYE_CFG_V_MIN.lo)]) (3) (4) = true := by
  decide +kernel

theorem test_meets_FaultsAndWear_17 :
    (fun (s : State) (b : Fin 8) (row : Fin 512) => holds (
      (s.ready 0x005 = true) ∧
      (s.weakRuns 0 = true) ∧
      (s.wear.worn.contains (12288 + b.val * 512 + row.val) = false) ∧
      ((nbit (s.fg 0x005 WR_SPARE_EN_KIND) 2 && s.fb 0x280 MEM_CTRL_REPAIR_AUTO) = true) ∧
      ((s.spBank b.val).freeSpares ≠ []))) ({ upOn [0x005] [(0x005, WR_WW_CFG, 2 ^ WR_WW_CFG_EN.lo), (0x005, WR_SPARE_EN, 63), (0x280, MEM_CTRL, 2 ^ MEM_CTRL_REPAIR_AUTO.lo)] with mem := { powerOn := [] } }) (3) (9) = true := by
  decide +kernel

theorem test_meets_FaultsAndWear_18 :
    (fun (s : State) (b : Fin 17) => holds (
      (s.ready 0x005 = true) ∧
      (s.weakRuns 1 = true) ∧
      (s.wear.worn.contains (16384 + b.val) = false) ∧
      ((nbit (s.fg 0x005 WR_SPARE_EN_KIND) 3 && s.fb 0x010 CORE_CTRL_SPARE_AUTO) = false) ∧
      (b.val ≠ 16))) ({ upOn [0x005] [(0x005, WR_WW_CFG, 2 ^ WR_WW_CFG_EN.lo), (0x005, WR_SPARE_EN, 0)] with mem := { powerOn := [] } }) (3) = true := by
  decide +kernel

theorem test_meets_FaultsAndWear_19 :
    (fun (s : State) (n : Fin 24) => holds (
      (s.ready 0x005 = true) ∧
      (s.fb 0x005 WR_WW_CFG_EN = true) ∧
      (s.wear.worn.contains (20480 + n.val) = false))) (upOn [0x005] [(0x005, WR_WW_CFG, 2 ^ WR_WW_CFG_EN.lo)]) (3) = true := by
  decide +kernel

theorem test_meets_FaultsAndWear_20 :
    (fun (s : State) (k : Fin 16384) => holds (
      (s.ready 0x005 = true) ∧
      (s.weakRuns 2 = true) ∧
      (s.wear.worn.contains (65536 + k.val) = false))) ({ upOn [0x005] [(0x005, WR_WW_CFG, 2 ^ WR_WW_CFG_EN.lo)] with mem := { powerOn := [] } }) (3) = true := by
  decide +kernel

theorem test_meets_FaultsAndWear_21 :
    (fun (s : State) (k : Fin 13) (margin : Nat) => holds (
      (s.ready 0x005 = true) ∧
      (margin < s.fg 0x005 WR_PLL_CFG_MIN) ∧
      (15 ≤ s.wear.runs.getD (24576 + k.val) 0) ∧
      (s.wear.worn.contains (24576 + k.val) = false) ∧
      (s.onSpare k.val = false ∧ nbit (s.fg 0x005 WR_SPARE_EN_KIND) 5 = true ∧ s.spareReady k.val = true))) ({ upOn [0x005] [(0x005, WR_PLL_CFG, 9 * 2 ^ WR_PLL_CFG_MIN.lo), (0x005, WR_SPARE_EN, 63)] with spll := [(3, true)], wear := { runs := [(24579, 15)] } }) (3) (4) = true := by
  decide +kernel

theorem test_meets_FaultsAndWear_22 :
    (fun (s : State) (apart a b : Nat) => holds (
      (s.ready 0x005 = true) ∧
      (apart ≤ s.fg 0x005 WR_PLL_CFG_REF_PPM))) (upOn [0x005] [(0x005, WR_PLL_CFG, 9 * 2 ^ WR_PLL_CFG_REF_PPM.lo)]) (5) (3) (4) = true := by
  decide +kernel

theorem test_meets_FaultsAndWear_23 :
    (fun (s : State) (apart a b : Nat) => holds (
      (s.ready 0x005 = true) ∧
      (s.fg 0x005 WR_PLL_CFG_REF_PPM < apart ∧ a < b ∧ nbit (s.rd 0 GS_AON_HI).toNat 31 = true) ∧
      (s.wear.worn.contains 28673 = false))) (upOn [0x005] [(0, GS_AON_HI, 2 ^ 31), (0x005, WR_PLL_CFG, 9 * 2 ^ WR_PLL_CFG_REF_PPM.lo)]) (50) (3) (4) = true := by
  decide +kernel

theorem test_meets_FaultsAndWear_24 :
    (fun (s : State) (n : Pitch) => holds (
      (s.ready 0x005 = true) ∧
      (0 < s.ppCfg n.val PP_RDS_CFG_BASE ∧ s.ppCfg n.val PP_RDS_CFG_BASE * s.ppCfg n.val PP_RDS_CFG_WARN < s.fg (ppPage n.val) PP_RDS_RDS * 100) ∧
      (s.wear.worn.contains (32768 + n.val) = false))) (upOn [0x005] [(0x033, PP_RDS_CFG, 10 * 2 ^ PP_RDS_CFG_BASE.lo + 120 * 2 ^ PP_RDS_CFG_WARN.lo), (0x033, PP_RDS, 50 * 2 ^ PP_RDS_RDS.lo)]) (3) = true := by
  decide +kernel

theorem test_meets_FaultsAndWear_25 :
    (fun (s : State) (who : Initiator) => holds (
      (s.accepts who 0x005 WR_CMD = true) ∧
      (s.blBusy = false))) (upOn [0x020, 0x005] []) (.host) = true := by
  decide +kernel

theorem test_meets_FaultsAndWear_26 :
    (fun (s : State) (who : Initiator) => holds (
      (s.accepts who 0x005 WR_CMD = true) ∧
      (s.blBusy = false) ∧
      (s.wear.capt ≠ none))) ({ upOn [0x020, 0x005] [] with wear := { capt := some (40, [(4097, 1000)]) } }) (.host) = true := by
  decide +kernel

theorem test_meets_FaultsAndWear_27 :
    (fun (s : State) (tj : Int) (means : List (Nat × Nat)) (ok : Bool) => holds (
      (s.blState = 1))) (st [(0x005, WR_BL_STATUS, 2 ^ WR_BL_STATUS_STATE.lo)]) (40) ([(4097, 1000)]) (true) = true := by
  decide +kernel

theorem test_meets_FaultsAndWear_28 :
    (fun (s : State) (who : Initiator) => holds (
      (s.accepts who 0x005 WR_CMD = true) ∧
      (s.blBusy = true))) (upOn [0x020, 0x005] [(0x005, WR_BL_STATUS, 2 ^ WR_BL_STATUS_STATE.lo)]) (.host) = true := by
  decide +kernel

theorem test_meets_FaultsAndWear_29 :
    (fun (s : State) (who : Initiator) => holds (
      (s.accepts who 0x005 WR_CMD = true) ∧
      (s.blBusy = true ∨ s.wear.capt = none))) (upOn [0x020, 0x005, 0x004] []) (.host) = true := by
  decide +kernel

theorem test_meets_FaultsAndWear_30 :
    (fun (s : State) (tj : Int) (means : List (Nat × Nat)) (ok : Bool) => holds (
      (s.blState ≠ 1 ∧ (s.wear.store = none ∨ s.mramStop = true)))) (({} : State)) (40) ([]) (true) = true := by
  decide +kernel

theorem test_meets_FaultsAndWear_31 :
    (fun (s : State) (tj : Int) (means : List (Nat × Nat)) (ok : Bool) (j : UpJob) => holds (
      (s.blState ≠ 1) ∧
      (s.wear.store = some j) ∧
      (s.mramStop = false))) ({ st [(0x005, WR_BL_STATUS, 3 * 2 ^ WR_BL_STATUS_STATE.lo)] with wear := { store := some { addr := 0x310000, bytes := [1, 2, 3], started := true } } }) (40) ([]) (true) ({ addr := 0x310000, bytes := [1, 2, 3], started := true }) = true := by
  decide +kernel

theorem test_meets_FaultsAndWear_32 :
    (fun (s : State) (who : Initiator) => holds (
      (s.accepts who 0x005 WR_CMD = true))) ({ upOn [0x020, 0x005] [] with wear := { worn := [3] } }) (.host) = true := by
  decide +kernel

theorem test_meets_FaultsAndWear_33 :
    (fun (s : State) (ref : Fin 2) => holds (
      (s.fg 0x005 WR_REF_STATUS_IN_USE = ref.val) ∧
      (s.refOk (1 - ref.val) = true))) (st [(0x005, WR_REF_STATUS, 2 ^ WR_REF_STATUS_A_OK.lo + 2 ^ WR_REF_STATUS_B_OK.lo)]) (0) = true := by
  decide +kernel

theorem test_meets_FaultsAndWear_34 :
    (fun (s : State) (ref : Fin 2) => holds (
      (s.fg 0x005 WR_REF_STATUS_IN_USE ≠ ref.val ∨ s.refOk (1 - ref.val) = false))) (st [(0x005, WR_REF_STATUS, 2 ^ WR_REF_STATUS_A_OK.lo + 2 ^ WR_REF_STATUS_B_OK.lo)]) (1) = true := by
  decide +kernel

theorem test_meets_FaultsAndWear_35 :
    (fun (s : State) (ref : Fin 2) => holds (
      True)) (st [(0x005, WR_SPARE_EN, 63), (0x005, WR_REF_STATUS, 2 ^ WR_REF_STATUS_A_OK.lo + 2 ^ WR_REF_STATUS_B_OK.lo)]) (0) = true := by
  decide +kernel

theorem test_meets_FaultsAndWear_36 :
    (fun (s : State) (who : Initiator) (v : Word) => holds (
      (s.accepts who 0x005 WR_REF_CMD = true) ∧
      (WR_REF_CMD_GO.get v = 0 ∨ WR_REF_CMD_SEL.get v = s.fg 0x005 WR_REF_STATUS_IN_USE ∨ s.refOk (WR_REF_CMD_SEL.get v) = false))) (upOn [0x020, 0x005] []) (.host) (0) = true := by
  decide +kernel

theorem test_meets_FaultsAndWear_37 :
    (fun (s : State) (who : Initiator) (v : Word) => holds (
      (s.accepts who 0x005 WR_REF_CMD = true) ∧
      (WR_REF_CMD_GO.get v = 1) ∧
      (WR_REF_CMD_SEL.get v ≠ s.fg 0x005 WR_REF_STATUS_IN_USE) ∧
      (s.refOk (WR_REF_CMD_SEL.get v) = true))) (upOn [0x020, 0x005] [(0x005, WR_REF_STATUS, 2 ^ WR_REF_STATUS_A_OK.lo + 2 ^ WR_REF_STATUS_B_OK.lo)]) (.host) (BitVec.ofNat 32 (2 ^ WR_REF_CMD_GO.lo + 2 ^ WR_REF_CMD_SEL.lo)) = true := by
  decide +kernel

theorem test_meets_FaultsAndWear_38 :
    (fun (s : State) (pll : Fin 13) => holds (
      (s.onSpare pll.val = false) ∧
      (s.spareReady pll.val = true))) ({ ({} : State) with spll := [(3, true)] }) (3) = true := by
  decide +kernel

theorem test_meets_FaultsAndWear_39 :
    (fun (s : State) (pll : Fin 13) (spare : Bool) => holds (
      True)) ({ ({} : State) with spll := [(3, true)] }) (3) (true) = true := by
  decide +kernel

theorem test_meets_FaultsAndWear_40 :
    (fun (s : State) (who : Initiator) (v : Word) => holds (
      (s.accepts who 0x005 WR_PLL_CMD = true) ∧
      (WR_PLL_CMD_GO.get v = 0 ∨ 13 ≤ WR_PLL_CMD_PLL.get v ∨ s.spareReady (WR_PLL_CMD_PLL.get v) = false))) (upOn [0x020, 0x005] []) (.host) (0) = true := by
  decide +kernel

theorem test_meets_FaultsAndWear_41 :
    (fun (s : State) (who : Initiator) (v : Word) => holds (
      (s.accepts who 0x005 WR_PLL_CMD = true) ∧
      (WR_PLL_CMD_GO.get v = 1) ∧
      (WR_PLL_CMD_PLL.get v < 13) ∧
      (s.spareReady (WR_PLL_CMD_PLL.get v) = true))) ({ upOn [0x020, 0x005] [] with spll := [(3, true)] }) (.host) (BitVec.ofNat 32 (2 ^ WR_PLL_CMD_GO.lo + 3 * 2 ^ WR_PLL_CMD_PLL.lo)) = true := by
  decide +kernel

theorem test_meets_FaultsAndWear_42 :
    (fun (s : State) (pll : Fin 13) (spare : Bool) => holds (
      (s.clocked ((pllIslands pll.val).headD 0) = true))) ({ ({} : State) with pll := [(3, true)] }) (3) (true) = true := by
  decide +kernel

theorem test_meets_FaultsAndWear_43 :
    (fun (s : State) (pll : Fin 13) (spare : Bool) => holds (
      (s.clocked ((pllIslands pll.val).headD 0) = false))) (({} : State)) (3) (true) = true := by
  decide +kernel

theorem test_meets_UpdateCommands_1 :
    (fun (s : State) (who : Initiator) (v : Word) => holds (
      True)) (upOn [0x020, 0x290] []) (.host) (BitVec.ofNat 32 (2 ^ UP_CMD_GO.lo + 2 ^ UP_CMD_OP.lo)) = true := by
  decide +kernel

theorem test_meets_UpdateCommands_2 :
    (fun (s : State) (who : Initiator) (v : Word) => holds (
      (s.accepts who 0x290 UP_CMD = true) ∧
      (UP_CMD_GO.get v = 0 ∨ s.up.job ≠ none ∨ UP_CMD_OP.get v = 0 ∨ 7 < UP_CMD_OP.get v))) ({ upOn [0x020, 0x290] [] with up := { job := some { op := 3 } } }) (.host) (BitVec.ofNat 32 (2 ^ UP_CMD_GO.lo + 2 ^ UP_CMD_OP.lo)) = true := by
  decide +kernel

theorem test_meets_UpdateCommands_3 :
    (fun (s : State) (who : Initiator) (v : Word) => holds (
      (s.accepts who 0x290 UP_CMD = true) ∧
      (UP_CMD_GO.get v = 1) ∧
      (s.up.job = none) ∧
      (((UP_CMD_OP.get v = 1 ∨ UP_CMD_OP.get v = 2) ∧ 3 ≤ s.upState ∧ s.upState ≠ 7) ∨ (UP_CMD_OP.get v = 2 ∧ (s.fg 0x290 UP_ADDR_ADDR % 512 ≠ 0 ∨ 0x180000 ≤ s.fg 0x290 UP_ADDR_ADDR)) ∨ (UP_CMD_OP.get v = 7 ∧ s.areaOk (s.fg 0x290 UP_ADDR_ADDR) = false)))) (upOn [0x020, 0x290] [(0x290, UP_ADDR, 1)]) (.host) (BitVec.ofNat 32 (2 ^ UP_CMD_GO.lo + 2 * 2 ^ UP_CMD_OP.lo)) = true := by
  decide +kernel

theorem test_meets_UpdateCommands_4 :
    (fun (s : State) (who : Initiator) (v : Word) => holds (
      (s.accepts who 0x290 UP_CMD = true) ∧
      (UP_CMD_GO.get v = 1 ∧ UP_CMD_OP.get v = 1) ∧
      (s.up.job = none) ∧
      (s.upState < 3 ∨ s.upState = 7))) (upOn [0x020, 0x290] []) (.host) (BitVec.ofNat 32 (2 ^ UP_CMD_GO.lo + 2 ^ UP_CMD_OP.lo)) = true := by
  decide +kernel

theorem test_meets_UpdateCommands_5 :
    (fun (s : State) (who : Initiator) (v : Word) => holds (
      (s.accepts who 0x290 UP_CMD = true) ∧
      (UP_CMD_GO.get v = 1 ∧ UP_CMD_OP.get v = 2) ∧
      (s.up.job = none ∧ (s.upState < 3 ∨ s.upState = 7)) ∧
      (s.fg 0x290 UP_ADDR_ADDR % 512 = 0 ∧ s.fg 0x290 UP_ADDR_ADDR < 0x180000))) (upOn [0x020, 0x290] []) (.host) (BitVec.ofNat 32 (2 ^ UP_CMD_GO.lo + 2 * 2 ^ UP_CMD_OP.lo)) = true := by
  decide +kernel

theorem test_meets_UpdateCommands_6 :
    (fun (s : State) (who : Initiator) (v : Word) => holds (
      (s.accepts who 0x290 UP_CMD = true) ∧
      (UP_CMD_GO.get v = 1 ∧ UP_CMD_OP.get v = 7) ∧
      (s.up.job = none) ∧
      (s.areaOk (s.fg 0x290 UP_ADDR_ADDR) = true))) (upOn [0x020, 0x290] [(0x290, UP_ADDR, 0x324000)]) (.host) (BitVec.ofNat 32 (2 ^ UP_CMD_GO.lo + 7 * 2 ^ UP_CMD_OP.lo)) = true := by
  decide +kernel

theorem test_meets_UpdateCommands_7 :
    (fun (s : State) (ok : Bool) (j : UpJob) => holds (
      (s.up.job = some j) ∧
      (j.op = 2 ∨ j.op = 7) ∧
      (s.mramStop = false))) ({ upOn [0x020, 0x290] [] with up := { job := some { op := 2, addr := 0x180000, bytes := [1, 2, 3, 4] } } }) (true) ({ op := 2, addr := 0x180000, bytes := [1, 2, 3, 4] }) = true := by
  decide +kernel

theorem test_meets_UpdateCommands_8 :
    (fun (s : State) (ok : Bool) => holds (
      (s.up.job = none ∨ s.up.job.map (·.op) = some 3 ∨ s.mramStop = true))) (({} : State)) (true) = true := by
  decide +kernel

theorem test_meets_UpdateCommands_9 :
    (fun (s : State) (who : Initiator) (v : Word) => holds (
      (s.accepts who 0x290 UP_CMD = true) ∧
      (UP_CMD_GO.get v = 1 ∧ UP_CMD_OP.get v = 3) ∧
      (s.up.job = none))) (upOn [0x020, 0x290] []) (.host) (BitVec.ofNat 32 (2 ^ UP_CMD_GO.lo + 3 * 2 ^ UP_CMD_OP.lo)) = true := by
  decide +kernel

theorem test_meets_UpdateCommands_10 :
    (fun (s : State) (j : UpJob) => holds (
      (s.up.job = some j) ∧
      (j.op = 3))) ({ upOn [0x020, 0x290] [] with up := { job := some { op := 3 } } }) ({ op := 3 }) = true := by
  decide +kernel

theorem test_meets_UpdateCommands_11 :
    (fun (s : State) => holds (
      (s.up.job.map (·.op) ≠ some 3))) (({} : State)) = true := by
  decide +kernel

theorem test_meets_UpdateCommands_12 :
    (fun (s : State) (who : Initiator) (v : Word) => holds (
      (s.accepts who 0x290 UP_CMD = true) ∧
      (UP_CMD_GO.get v = 1 ∧ UP_CMD_OP.get v = 4) ∧
      (s.up.job = none) ∧
      (s.upState = 2) ∧
      (((s.entries s.idleSlot).all s.svnOk) = true) ∧
      (s.farEnough (s.rd 0x290 UP_EPOCH).toNat = true) ∧
      (s.redundant = false ∨ s.manNode s.idleSlot = true))) ({ upOn [0x020, 0x290, 0x01C] [(0x290, UP_STATUS, 2 * 2 ^ UP_STATUS_STATE.lo), (0x290, UP_EPOCH, 1000), (0x01C, SC_PERIOD, 1000)] with scan := { next := 100000 } }) (.host) (BitVec.ofNat 32 (2 ^ UP_CMD_GO.lo + 4 * 2 ^ UP_CMD_OP.lo)) = true := by
  decide +kernel

theorem test_meets_UpdateCommands_13 :
    (fun (s : State) (who : Initiator) (v : Word) => holds (
      (s.accepts who 0x290 UP_CMD = true) ∧
      (UP_CMD_GO.get v = 1) ∧
      (s.up.job = none) ∧
      (UP_CMD_OP.get v = 4 ∨ UP_CMD_OP.get v = 5) ∧
      (s.upState ≠ 2 ∨ ((s.entries s.idleSlot).all s.svnOk) = false ∨ (UP_CMD_OP.get v = 4 ∧ (s.farEnough (s.rd 0x290 UP_EPOCH).toNat = false ∨ (s.redundant = true ∧ s.manNode s.idleSlot = false)))))) (upOn [0x020, 0x290, 0x01C] []) (.host) (BitVec.ofNat 32 (2 ^ UP_CMD_GO.lo + 4 * 2 ^ UP_CMD_OP.lo)) = true := by
  decide +kernel

theorem test_meets_UpdateCommands_14 :
    (fun (s : State) (who : Initiator) (v : Word) => holds (
      (s.accepts who 0x290 UP_CMD = true) ∧
      (UP_CMD_GO.get v = 1 ∧ UP_CMD_OP.get v = 5) ∧
      (s.up.job = none) ∧
      (s.upState = 2) ∧
      (((s.entries s.idleSlot).all s.svnOk) = true))) ({ upOn [0x020, 0x290] [(0x290, UP_STATUS, 2 * 2 ^ UP_STATUS_STATE.lo)] with gs := { seq := none } }) (.host) (BitVec.ofNat 32 (2 ^ UP_CMD_GO.lo + 5 * 2 ^ UP_CMD_OP.lo)) = true := by
  decide +kernel

theorem test_meets_UpdateCommands_15 :
    (fun (s : State) (who : Initiator) (v : Word) => holds (
      (s.accepts who 0x290 UP_CMD = true) ∧
      (UP_CMD_GO.get v = 1 ∧ UP_CMD_OP.get v = 6) ∧
      (s.up.job = none))) (upOn [0x020, 0x290] [(0x290, UP_STATUS, 3 * 2 ^ UP_STATUS_STATE.lo)]) (.host) (BitVec.ofNat 32 (2 ^ UP_CMD_GO.lo + 6 * 2 ^ UP_CMD_OP.lo)) = true := by
  decide +kernel

theorem test_meets_UpdateCommands_16 :
    (fun (s : State) (who : Initiator) => holds (
      (s.accepts who 0x290 UP_CTRL = true))) (upOn [0x020, 0x290] [(0x290, UP_STATUS, 4 * 2 ^ UP_STATUS_STATE.lo)]) (.host) = true := by
  decide +kernel

theorem test_meets_UpdateCommands_17 :
    (fun (s : State) => holds (
      (s.upState = 4) ∧
      (s.firstRun = true))) ({ st ([(0x290, UP_STATUS, 4 * 2 ^ UP_STATUS_STATE.lo)] ++ (List.range 24).map (fun n => (0x080 + n, EC_UCODE, 2 ^ EC_UCODE_LOADED.lo))) with up := { confirmed := true }, isl := [(38, { rel := true })], supv := { link := true } }) = true := by
  decide +kernel

theorem test_meets_UpdateCommands_18 :
    (fun (s : State) => holds (
      (s.upState ≠ 4 ∨ s.firstRun = false))) (({} : State)) = true := by
  decide +kernel

theorem test_meets_UpdateCommands_19 :
    (fun (s : State) => holds (
      (s.upState = 4) ∧
      (s.firstRun = false) ∧
      (s.up.trial = true) ∧
      (s.mramStop = false))) ({ st [(0x290, UP_STATUS, 4 * 2 ^ UP_STATUS_STATE.lo)] with up := { active := 1, trial := true } }) = true := by
  decide +kernel

theorem test_meets_UpdateCommands_20 :
    (fun (s : State) => holds (
      (s.upState ≠ 4 ∨ s.firstRun = true))) (({} : State)) = true := by
  decide +kernel

theorem test_meets_UpdateCommands_21 :
    (fun (s : State) => holds (
      (s.upState = 5) ∧
      (s.redundant = true) ∧
      (s.twinUp < 5 ∨ 7 < s.twinUp))) ({ st [(0x290, UP_STATUS, 5 * 2 ^ UP_STATUS_STATE.lo), (0x000, GS_HUB_ID, 2 ^ GS_HUB_ID_REDUNDANT.lo)] with up := { active := 1, trial := true } }) = true := by
  decide +kernel

theorem test_meets_UpdateCommands_22 :
    (fun (s : State) => holds (
      (s.upState ≠ 5 ∨ s.redundant = false ∨ (5 ≤ s.twinUp ∧ s.twinUp ≤ 7)))) (({} : State)) = true := by
  decide +kernel

theorem test_meets_UpdateCommands_23 :
    (fun (s : State) => holds (
      True)) ({ ({} : State) with up := { active := 1, trial := true, leaving := true } }) = true := by
  decide +kernel

theorem test_meets_UpdateCommands_24 :
    (fun (s : State) => holds (
      (s.upState = 5) ∧
      (s.role = 1) ∧
      (s.paired = false ∨ s.twinUp = 5))) (st [(0x290, UP_STATUS, 5 * 2 ^ UP_STATUS_STATE.lo), (0x024, TW_STATUS, 2 ^ TW_STATUS_ROLE.lo)]) = true := by
  decide +kernel

theorem test_meets_UpdateCommands_25 :
    (fun (s : State) => holds (
      (s.upState ≠ 5 ∨ s.role ≠ 1 ∨ (s.paired = true ∧ s.twinUp ≠ 5)))) (({} : State)) = true := by
  decide +kernel

theorem test_meets_UpdateCommands_26 :
    (fun (s : State) => holds (
      (s.upState = 6) ∧
      (s.up.activated = true) ∧
      (s.up.reverting = []) ∧
      (((s.up.relayed.filter fun n => !s.cardPassed n).all fun n => decide (s.clState n ≤ 1)) = true))) ({ st [(0x290, UP_STATUS, 6 * 2 ^ UP_STATUS_STATE.lo)] with up := { activated := true, relayed := [3, 9] } }) = true := by
  decide +kernel

theorem test_meets_UpdateCommands_27 :
    (fun (s : State) => holds (
      (s.upState = 6) ∧
      (s.up.activated = true) ∧
      (s.up.reverting = []) ∧
      ((s.up.relayed.any fun n => !s.cardPassed n && decide (1 < s.clState n)) = true))) ({ st [(0x290, UP_STATUS, 6 * 2 ^ UP_STATUS_STATE.lo), (0x053, CL_STATUS, 5 * 2 ^ CL_STATUS_STATE.lo)] with up := { activated := true, relayed := [3, 9] } }) = true := by
  decide +kernel

theorem test_meets_UpdateCommands_28 :
    (fun (s : State) => holds (
      (s.upState ≠ 6 ∨ s.up.activated = false ∨ s.up.reverting ≠ []))) (({} : State)) = true := by
  decide +kernel

theorem test_meets_UpdateCommands_29 :
    (fun (s : State) (fuse : Option Nat) => holds (
      ((s.upState = 6 ∧ s.role = 1 ∧ s.up.reverting = [] ∧ s.up.relayed.all s.cardPassed = true) ∨ (s.upState = 5 ∧ s.twinUp = 7 ∧ s.up.twinSeq = (s.rd 0x290 UP_SEQ).toNat)) ∧
      (s.mramStop = false))) (st [(0x290, UP_STATUS, 6 * 2 ^ UP_STATUS_STATE.lo), (0x024, TW_STATUS, 2 ^ TW_STATUS_ROLE.lo)]) (none) = true := by
  decide +kernel

theorem test_meets_UpdateCommands_30 :
    (fun (s : State) (fuse : Option Nat) => holds (
      (((s.upState ≠ 6 ∨ s.role ≠ 1 ∨ s.up.reverting ≠ [] ∨ s.up.relayed.all s.cardPassed = false) ∧ (s.upState ≠ 5 ∨ s.twinUp ≠ 7 ∨ s.up.twinSeq ≠ (s.rd 0x290 UP_SEQ).toNat)) ∨ s.mramStop = true))) (({} : State)) (none) = true := by
  decide +kernel

theorem test_meets_TwinRolesAndSwaps_1 :
    (fun (s : State) => holds (
      (s.redundant = true) ∧
      (s.portActive .twin = true))) (st [(0x000, GS_HUB_ID, 2 ^ GS_HUB_ID_REDUNDANT.lo), (0x024, LN_STATUS, 4)]) = true := by
  decide +kernel

theorem test_meets_TwinRolesAndSwaps_2 :
    (fun (s : State) => holds (
      (s.redundant = false ∨ s.portActive .twin = false))) (({} : State)) = true := by
  decide +kernel

theorem test_meets_TwinRolesAndSwaps_3 :
    (fun (s : State) (f : Frame) (rest : List Frame) => holds (
      (s.tw.inbox = f :: rest) ∧
      (f.hdr.mtype = 0x20) ∧
      (s.redundant = true) ∧
      (s.portActive .twin = true))) ({ st [(0x000, GS_HUB_ID, 2 ^ GS_HUB_ID_REDUNDANT.lo), (0x024, TW_CFG, 2 ^ TW_CFG_PREFER.lo), (0x024, LN_STATUS, 4)] with tw := { inbox := [{ hdr := { cls := .M, mtype := 0x20, ll := true } }] } }) ({ hdr := { cls := .M, mtype := 0x20, ll := true } }) ([]) = true := by
  decide +kernel

theorem test_meets_TwinRolesAndSwaps_4 :
    (fun (s : State) => holds (
      True)) ({ ({} : State) with tw := { inbox := [{ hdr := { cls := .M, mtype := 0x20, ll := true } }] } }) = true := by
  decide +kernel

theorem test_meets_TwinRolesAndSwaps_5 :
    (fun (s : State) => holds (
      True)) ({ st [(0x000, GS_HUB_ID, 2 ^ GS_HUB_ID_REDUNDANT.lo), (0x024, TW_STATUS, 2 * 2 ^ TW_STATUS_ROLE.lo)] with tw := { silent := false } }) = true := by
  decide +kernel

theorem test_meets_TwinRolesAndSwaps_6 :
    (fun (s : State) (f : Frame) (rest : List Frame) => holds (
      (s.tw.inbox = f :: rest) ∧
      (isRole [4] f = true) ∧
      (s.redundant = true) ∧
      (s.role = 2))) ({ st [(0x000, GS_HUB_ID, 2 ^ GS_HUB_ID_REDUNDANT.lo), (0x024, TW_STATUS, 2 * 2 ^ TW_STATUS_ROLE.lo)] with tw := { inbox := [{ hdr := { cls := .M, mtype := 0x21, ll := true, arg := 4 } }] } }) ({ hdr := { cls := .M, mtype := 0x21, ll := true, arg := 4 } }) ([]) = true := by
  decide +kernel

theorem test_meets_TwinRolesAndSwaps_7 :
    (fun (s : State) => holds (
      True)) ({ ({} : State) with tw := { inbox := [{ hdr := { cls := .M, mtype := 0x21, ll := true, arg := 4 } }] } }) = true := by
  decide +kernel

theorem test_meets_TwinRolesAndSwaps_8 :
    (fun (s : State) => holds (
      True)) (st [(0x024, TW_STATUS, 3 * 2 ^ TW_STATUS_ROLE.lo)]) = true := by
  decide +kernel

theorem test_meets_TwinRolesAndSwaps_9 :
    (fun (s : State) => holds (
      True)) (st [(0x000, GS_HUB_ID, 2 ^ GS_HUB_ID_REDUNDANT.lo)]) = true := by
  decide +kernel

theorem test_meets_TwinRolesAndSwaps_10 :
    (fun (s : State) (who : Initiator) => holds (
      (s.accepts who 0x024 TW_CMD = true))) ({ upOn [0x020, 0x024] [(0x000, GS_HUB_ID, 2 ^ GS_HUB_ID_REDUNDANT.lo), (0x024, TW_STATUS, 2 ^ TW_STATUS_ROLE.lo + 2 * 2 ^ TW_STATUS_TWIN_ROLE.lo), (0x024, LN_STATUS, 4)] with tw := { guy := true } }) (.host) = true := by
  decide +kernel

theorem test_meets_TwinRolesAndSwaps_11 :
    (fun (s : State) (who : Initiator) => holds (
      (s.accepts who 0x024 TW_CMD = true))) (upOn [0x020, 0x024] [(0x024, LN_STATUS, 4)]) (.host) = true := by
  decide +kernel

theorem test_meets_TwinRolesAndSwaps_12 :
    (fun (s : State) (who : Initiator) => holds (
      (s.accepts who 0x024 TW_CMD = true))) (upOn [0x020, 0x024] [(0x000, GS_HUB_ID, 2 ^ GS_HUB_ID_REDUNDANT.lo), (0x024, TW_STATUS, 2 ^ TW_STATUS_ROLE.lo + 2 * 2 ^ TW_STATUS_MSTATE.lo + 2 ^ TW_STATUS_READY.lo), (0x024, TW_LAG_CFG, 2 ^ TW_LAG_CFG_MAX.lo)]) (.host) = true := by
  decide +kernel

theorem test_meets_TwinRolesAndSwaps_13 :
    (fun (s : State) => holds (
      True)) (st [(0x000, GS_HUB_ID, 2 ^ GS_HUB_ID_REDUNDANT.lo), (0x024, TW_STATUS, 2 ^ TW_STATUS_ROLE.lo + 2 * 2 ^ TW_STATUS_MSTATE.lo + 2 ^ TW_STATUS_READY.lo), (0x024, TW_LAG_CFG, 2 ^ TW_LAG_CFG_MAX.lo), (0x024, TW_SWAP_INTERVAL.off, 5)]) = true := by
  decide +kernel

theorem test_meets_TwinRolesAndSwaps_14 :
    (fun (s : State) (f : Frame) (rest : List Frame) => holds (
      (s.tw.inbox = f :: rest) ∧
      (isRole [1] f = true))) ({ st [(0x024, TW_STATUS, 2 * 2 ^ TW_STATUS_ROLE.lo + 2 * 2 ^ TW_STATUS_MSTATE.lo)] with tw := { inbox := [{ hdr := { cls := .M, mtype := 0x21, ll := true, arg := 1 } }] } }) ({ hdr := { cls := .M, mtype := 0x21, ll := true, arg := 1 } }) ([]) = true := by
  decide +kernel

theorem test_meets_TwinRolesAndSwaps_15 :
    (fun (s : State) (f : Frame) (rest : List Frame) => holds (
      (s.tw.inbox = f :: rest) ∧
      (isRole [2, 3] f = true))) ({ st [(0x024, TW_STATUS, 2 ^ TW_STATUS_ROLE.lo)] with tw := { swap := some (7, false), inbox := [{ hdr := { cls := .M, mtype := 0x21, ll := true, arg := 2 } }] } }) ({ hdr := { cls := .M, mtype := 0x21, ll := true, arg := 2 } }) ([]) = true := by
  decide +kernel

theorem test_meets_TwinRolesAndSwaps_16 :
    (fun (s : State) => holds (
      True)) ({ st [(0x024, TW_STATUS, 2 ^ TW_STATUS_ROLE.lo)] with tw := { swap := some (7, false) } }) = true := by
  decide +kernel

theorem test_meets_TwinRolesAndSwaps_17 :
    (fun (s : State) => holds (
      True)) (({} : State)) = true := by
  decide +kernel

theorem test_meets_TwinRolesAndSwaps_18 :
    (fun (s : State) => holds (
      True)) (({} : State)) = true := by
  decide +kernel

theorem test_meets_TwinRolesAndSwaps_19 :
    (fun (s : State) (pitch : Pitch) (c : Instr) => holds (
      (c = .pitchQuiet pitch ∨ c = .quietHoldTimeout pitch))) ({ ({} : State) with tw := { quiet := [3] } }) (3) ((.pitchQuiet 3)) = true := by
  decide +kernel

theorem test_meets_TwinCommandedResetNeedsEnable_1 :
    (fun (s : State) (f : Frame) (rest : List Frame) => holds (
      (s.tw.inbox = f :: rest) ∧
      (isRole [5] f = true) ∧
      (s.fb 0 GS_RESET_CTRL_TWIN_EN = false ∨ s.portActive .twin = false))) ({ st [(0x024, LN_STATUS, 4)] with tw := { inbox := [{ hdr := { cls := .M, mtype := 0x21, ll := true, arg := 5 } }] } }) ({ hdr := { cls := .M, mtype := 0x21, ll := true, arg := 5 } }) ([]) = true := by
  decide +kernel

theorem test_meets_TwinCommandedResetNeedsEnable_2 :
    (fun (s : State) => holds (
      (awaits s (isRole [5]) = true))) (({} : State)) = true := by
  decide +kernel

theorem test_meets_TwinCommandedResetNeedsEnable_3 :
    (fun (s : State) (f : Frame) (rest : List Frame) => holds (
      (s.tw.inbox = f :: rest) ∧
      (isRole [5] f = true) ∧
      (s.fb 0 GS_RESET_CTRL_TWIN_EN = true) ∧
      (s.portActive .twin = true))) ({ st [(0x024, LN_STATUS, 4), (0x000, GS_RESET_CTRL, 2 ^ GS_RESET_CTRL_TWIN_EN.lo)] with gs := { por := false, seq := none }, tw := { inbox := [{ hdr := { cls := .M, mtype := 0x21, ll := true, arg := 5 } }] } }) ({ hdr := { cls := .M, mtype := 0x21, ll := true, arg := 5 } }) ([]) = true := by
  decide +kernel

theorem test_meets_TwinMirror_1 :
    (fun (s : State) (bytes : List Byte) (ending : Ending) => holds (
      (s.portActive .twin = true))) (st [(0x024, LN_STATUS, 4)]) ((({ hdr := { cls := .M, mtype := 0x21, dst := 0x7F, ll := true, arg := 4 } } : Frame).bytes)) (.good) = true := by
  decide +kernel

theorem test_meets_TwinMirror_2 :
    (fun (s : State) (bytes : List Byte) (ending : Ending) => holds (
      (s.portActive .twin = false))) (({} : State)) ((({ hdr := { cls := .M, mtype := 0x21, dst := 0x7F, ll := true, arg := 4 } } : Frame).bytes)) (.good) = true := by
  decide +kernel

theorem test_meets_TwinMirror_3 :
    (fun (s : State) (f : Frame) (rest : List Frame) (r : Nat) => holds (
      (s.tw.inbox = f :: rest) ∧
      (f.hdr.mtype = 0x22) ∧
      (s.role = 2) ∧
      (s.tw.rseq = some r) ∧
      (s.tw.resyncReq = false))) ({ upOn [0x01C] [(0x024, TW_STATUS, 2 * 2 ^ TW_STATUS_ROLE.lo)] with tw := { rseq := some 4, inbox := [{ hdr := { cls := .M, mtype := 0x22, ll := true }, payload := [1, 1, 5, 0, 0, 0, 0, 0, 0x40, 0xC0, 0x01, 0, 9, 0, 0, 0] }] } }) ({ hdr := { cls := .M, mtype := 0x22, ll := true }, payload := [1, 1, 5, 0, 0, 0, 0, 0, 0x40, 0xC0, 0x01, 0, 9, 0, 0, 0] }) ([]) (4) = true := by
  decide +kernel

theorem test_meets_TwinMirror_4 :
    (fun (s : State) (f : Frame) (rest : List Frame) => holds (
      (s.tw.inbox = f :: rest) ∧
      (f.hdr.mtype = 0x22))) ({ st [(0x024, TW_STATUS, 2 * 2 ^ TW_STATUS_ROLE.lo)] with tw := { inbox := [{ hdr := { cls := .M, mtype := 0x22, ll := true }, payload := [7, 0, 5, 0, 0, 0, 0, 0] }] } }) ({ hdr := { cls := .M, mtype := 0x22, ll := true }, payload := [7, 0, 5, 0, 0, 0, 0, 0] }) ([]) = true := by
  decide +kernel

theorem test_meets_TwinMirror_5 :
    (fun (s : State) (c : Instr) => holds (
      ((c = .mirrorReceived ∧ awaits s (isTwin 0x22) = true) ∨ (c = .mackReceived ∧ awaits s (isTwin 0x23) = true) ∨ (c = .qcopyReceived ∧ awaits s (isTwin 0x24) = true)))) (({} : State)) (.mirrorReceived) = true := by
  decide +kernel

theorem test_meets_TwinMirror_6 :
    (fun (s : State) => holds (
      True)) (st [(0x000, GS_HUB_ID, 2 ^ GS_HUB_ID_REDUNDANT.lo), (0x024, TW_STATUS, 2 ^ TW_STATUS_ROLE.lo + 2 * 2 ^ TW_STATUS_MSTATE.lo + 2 * 2 ^ TW_STATUS_TWIN_ROLE.lo), (0x024, LN_STATUS, 4)]) = true := by
  decide +kernel

theorem test_meets_TwinMirror_7 :
    (fun (s : State) => holds (
      True)) ({ st [(0x024, TW_STATUS, 2 * 2 ^ TW_STATUS_ROLE.lo), (0x024, LN_STATUS, 4)] with tw := { rseq := some 4 } }) = true := by
  decide +kernel

theorem test_meets_TwinMirror_8 :
    (fun (s : State) (f : Frame) (rest : List Frame) => holds (
      (s.tw.inbox = f :: rest) ∧
      (f.hdr.mtype = 0x23))) ({ st [(0x024, TW_STATUS, 2 ^ TW_STATUS_ROLE.lo)] with tw := { sentQ := [(3, 1), (4, 2), (5, 1)], inbox := [{ hdr := { cls := .M, mtype := 0x23, ll := true, arg := 4 } }] } }) ({ hdr := { cls := .M, mtype := 0x23, ll := true, arg := 4 } }) ([]) = true := by
  decide +kernel

theorem test_meets_TwinMirror_9 :
    (fun (s : State) (who : Initiator) => holds (
      (s.accepts who 0x024 TW_CMD = true))) (upOn [0x020, 0x024] [(0x024, TW_STATUS, 2 * 2 ^ TW_STATUS_ROLE.lo + 2 * 2 ^ TW_STATUS_MSTATE.lo)]) (.host) = true := by
  decide +kernel

theorem test_meets_TwinMirror_10 :
    (fun (s : State) => holds (
      True)) (st [(0x024, TW_STATUS, 2 ^ TW_STATUS_ROLE.lo + 3 * 2 ^ TW_STATUS_MSTATE.lo), (0x024, TW_LAG_CFG, 2 ^ TW_LAG_CFG_MAX.lo)]) = true := by
  decide +kernel

theorem test_meets_TwinMirror_11 :
    (fun (s : State) (f g : Frame) (rest : List Frame) => holds (
      (s.tw.inbox = f :: g :: rest) ∧
      (f.hdr.mtype = 0x24) ∧
      (g.hdr.ll = false))) ({ upOn [0x010, 0x011] [(0x024, TW_STATUS, 2 * 2 ^ TW_STATUS_ROLE.lo), (0x011, QCFG + 4 * 200, 0xC0000000)] with core := { banks := [(0, { fresh := 1024 })] }, tw := { inbox := [{ hdr := { cls := .M, mtype := 0x24, ll := true, arg := 200 } }, { payload := [1, 2, 3, 4] }] } }) ({ hdr := { cls := .M, mtype := 0x24, ll := true, arg := 200 } }) ({ payload := [1, 2, 3, 4] }) ([]) = true := by
  decide +kernel

theorem test_meets_TwinMirror_12 :
    (fun (s : State) (f : Frame) (rest : List Frame) => holds (
      (s.tw.inbox = f :: rest) ∧
      (f.hdr.mtype = 0x24))) ({ st [(0x024, TW_STATUS, 2 * 2 ^ TW_STATUS_ROLE.lo)] with tw := { inbox := [{ hdr := { cls := .M, mtype := 0x24, ll := true, arg := 200 } }, { hdr := { ll := true } }] } }) ({ hdr := { cls := .M, mtype := 0x24, ll := true, arg := 200 } }) ([{ hdr := { ll := true } }]) = true := by
  decide +kernel

theorem test_meets_TwinMirror_13 :
    (fun (s : State) => holds (
      (s.redundant = true ∧ s.fb 0x024 TW_STATUS_PRESENT = true ∧ s.manNode s.strikeSlot = true) ∧
      (s.ready 0x010 = true ∧ s.ready 0x020 = true) ∧
      (s.bare = false))) ({ upOn [0x010, 0x020] [(0x000, GS_HUB_ID, 0x105 + 2 ^ GS_HUB_ID_REDUNDANT.lo), (0x024, TW_STATUS, 2 ^ TW_STATUS_PRESENT.lo)] with mram := [(12, 1)] }) = true := by
  decide +kernel

theorem test_meets_TwinMirror_14 :
    (fun (s : State) => holds (
      (s.redundant = false ∨ s.fb 0x024 TW_STATUS_PRESENT = false ∨ s.manNode s.strikeSlot = false ∨ s.ready 0x010 = false ∨ s.ready 0x020 = false ∨ s.bare = true))) (({} : State)) = true := by
  decide +kernel

end Tests
end

section
/-! What stays of a page's commit while blocks start and stop: the registers that hold it, and that no shadow appears. The lemmas follow
the functions a write of ENABLE can reach, from the registers up to `State.enableWrite`. -/
namespace Sys2Proof.Machine

/-- From `s` to `t`, CFG_STATUS and COMMIT_PENDING of page `p` stay, and no page gains a shadow. -/
structure CommitStays (p : Nat) (s t : State) : Prop where
  status : t.rd p CFG_STATUS = s.rd p CFG_STATUS
  pending : t.commitPending p = s.commitPending p
  shad : t.shad ⊆ s.shad

namespace CommitStays

variable {p q : Nat} {s t u : State}

theorem refl (p : Nat) (s : State) : CommitStays p s s := ⟨rfl, rfl, fun _ h => h⟩

theorem of_same (h : CommitStays p s t) (hr : u.regs = t.regs) (hs : u.shad = t.shad) : CommitStays p s u := by
  have hrd : ∀ o, u.rd p o = t.rd p o := fun o => by simp only [State.rd, hr]
  refine ⟨(hrd _).trans h.status, ?_, hs ▸ h.shad⟩
  rw [← h.pending]; simp only [State.commitPending, State.fb, State.fg, hrd]

theorem ite {c : Prop} [Decidable c] (ht : CommitStays p s t) (hu : CommitStays p s u) : CommitStays p s (if c then t else u) := by
  split <;> assumption

theorem foldl {α : Type} {f : State → α → State} {l : List α} (h : CommitStays p s t)
    (hf : ∀ a ∈ l, ∀ u, CommitStays p s u → CommitStays p s (f u a)) : CommitStays p s (l.foldl f t) := by
  induction l generalizing t with
  | nil => exact h
  | cons a l ih => exact ih (hf a (List.mem_cons_self ..) t h) fun b hb => hf b (List.mem_cons_of_mem _ hb)

/-- A fold that carries something beside the state. -/
theorem foldl_fst {α β : Type} {f : State × β → α → State × β} {l : List α} {x : State × β} (h : CommitStays p s x.1)
    (hf : ∀ y a, CommitStays p s y.1 → CommitStays p s (f y a).1) : CommitStays p s (l.foldl f x).1 := by
  induction l generalizing x with
  | nil => exact h
  | cons a l ih => exact ih (hf x a h)

theorem of_pair {α : Type} {x : State × α} {a : α} (e : x = (u, a)) (h : CommitStays p s x.1) : CommitStays p s u := by
  rwa [e] at h

/-- A field of CFG_STATUS. -/
theorem fg {f : Fld} (h : CommitStays p s t) (hf : f.off = CFG_STATUS) : t.fg p f = s.fg p f := by
  simp only [State.fg, hf, h.status]

/-! ### Registers and events -/

/-- A write elsewhere than to the two registers of the page. -/
theorem wr_of_ne {o : Nat} {v : Word} (h : CommitStays p s t) (hc : regKey p CFG_STATUS ≠ regKey q o)
    (hs : regKey p PAGE_STATE ≠ regKey q o) : CommitStays p s (t.wr q o v) := by
  refine ⟨?_, ?_, h.shad⟩
  · rw [State.rd_wr, if_neg hc, h.status]
  · have hrd : (t.wr q o v).rd p PAGE_STATE_COMMIT_PENDING.off = t.rd p PAGE_STATE_COMMIT_PENDING.off :=
      (State.rd_wr ..).trans (if_neg hs)
    rw [← h.pending]
    simp only [State.commitPending, State.fb, State.fg, hrd]

theorem wr {o : Nat} {v : Word} (h : CommitStays p s t)
    (ho : o % 4096 ≠ CFG_STATUS ∧ o % 4096 ≠ PAGE_STATE := by decide) : CommitStays p s (t.wr q o v) := by
  obtain ⟨hc, hs⟩ := ho
  simp only [CFG_STATUS, PAGE_STATE] at hc hs
  refine h.wr_of_ne ?_ ?_ <;> (simp only [regKey, CFG_STATUS, PAGE_STATE]; omega)

theorem wr_page {o : Nat} {v : Word} (h : CommitStays p s t) (hq : q ≠ p) : CommitStays p s (t.wr q o v) :=
  h.wr_of_ne (fun e => hq (regKey_page e).symm) fun e => hq (regKey_page e).symm

theorem fs {f : Fld} {v : Nat} (h : CommitStays p s t)
    (ho : f.off % 4096 ≠ CFG_STATUS ∧ f.off % 4096 ≠ PAGE_STATE := by decide) : CommitStays p s (t.fs q f v) := h.wr ho

theorem addSat {f : Fld} {n : Nat} (h : CommitStays p s t)
    (ho : f.off % 4096 ≠ CFG_STATUS ∧ f.off % 4096 ≠ PAGE_STATE := by decide) : CommitStays p s (t.addSat q f n) := h.wr ho

theorem inc {f : Fld} (h : CommitStays p s t)
    (ho : f.off % 4096 ≠ CFG_STATUS ∧ f.off % 4096 ≠ PAGE_STATE := by decide) : CommitStays p s (t.inc q f) := h.wr ho

theorem fs_running {v : Nat} (h : CommitStays p s t) : CommitStays p s (t.fs q PAGE_STATE_RUNNING v) := by
  refine ⟨?_, ?_, h.shad⟩
  · rw [State.rd_fs, if_neg (by simp only [regKey, CFG_STATUS, PAGE_STATE_RUNNING]; omega), h.status]
  · rw [← h.pending]
    simp only [State.commitPending, State.fb]
    rw [State.fg_fs_ne _ _ _ _ _ _ (.inr (by decide))]

theorem raise {b : Nat} (h : CommitStays p s t) : CommitStays p s (t.raise q b) :=
  (h.wr (q := q) (o := EVT_STATUS)).of_same (State.regs_raise ..) (by simp)

theorem setState_running {v : Bool} (h : CommitStays p s t) : CommitStays p s (t.setState q PAGE_STATE_RUNNING v) :=
  h.ite h.fs_running.raise

/-! ### Flushed queues of a port that is lost (R209-R213) -/

theorem setChan {n c : Nat} {x : Chan} (h : CommitStays p s t) : CommitStays p s (t.setChan n c x) := h.of_same rfl rfl

theorem setRec {c : Nat} {x : FRec} (h : CommitStays p s t) : CommitStays p s (t.setRec c x) := h.of_same rfl rfl

theorem freeChain {n c : Nat} (h : CommitStays p s t) : CommitStays p s (State.freeChain n c t) := by
  induction n generalizing c t with
  | zero => exact h
  | succ n ih => exact ih (h.of_same rfl rfl)

theorem unref {c : Nat} (h : CommitStays p s t) : CommitStays p s (t.unref c) := by
  unfold State.unref
  dsimp only
  exact ite (setRec (freeChain (h.of_same rfl rfl))) h.setRec

theorem freed {l : LanePort} {c : Cls} {n : Nat} (h : CommitStays p s t) : CommitStays p s (t.freed l c n) :=
  h.ite (h.of_same rfl rfl)

theorem endCopy {e : QEnt} (h : CommitStays p s t) : CommitStays p s (t.endCopy e) :=
  (unref (ite h.freed h)).of_same rfl rfl

theorem partialDelivery {c : Nat} (h : CommitStays p s t) : CommitStays p s (t.partialDelivery c) :=
  h.ite h.setRec.inc.raise

theorem dropFlushed {e : QEnt} (h : CommitStays p s t) : CommitStays p s (t.dropFlushed e) := by
  unfold State.dropFlushed
  exact ite (h.of_same rfl rfl) (ite h.partialDelivery h).endCopy

theorem flushQueue {k : Nat} (h : CommitStays p s t) : CommitStays p s (t.flushQueue k).1 :=
  foldl (h.of_same rfl rfl) fun _ _ _ hu => hu.dropFlushed

theorem graceFlush {k : Nat} (h : CommitStays p s t) : CommitStays p s (t.graceFlush k) := by
  unfold State.graceFlush
  split
  next e => exact (of_pair e (foldl_fst h fun _ _ hu => hu.flushQueue)).addSat

theorem portLost {k : Nat} (h : CommitStays p s t) : CommitStays p s (t.portLost k) := by
  have grace : CommitStays p s (t.setLost k 1) := h.of_same rfl rfl
  have flushed : CommitStays p s ((t.setLost k 1).graceOver k) := grace.graceFlush.raise.of_same rfl rfl
  exact h.ite (flushed.ite grace)

/-! ### Card links (R231, R249) -/

theorem clGaps {n : Nat} {base : Int} (h : CommitStays p s t) : CommitStays p s (t.clGaps n base) :=
  foldl (ite (h.of_same rfl rfl) h) fun _ _ _ hu => hu.setChan

theorem clLeave {n : Nat} (h : CommitStays p s t) : CommitStays p s (t.clLeave n) := by
  unfold State.clLeave
  exact ite h.fs.fs.clGaps.raise.portLost h.fs.fs

theorem clDetect {n : Nat} (h : CommitStays p s t) : CommitStays p s (t.clDetect n) := h.clLeave.fs.of_same rfl rfl

theorem clOff {n : Nat} (h : CommitStays p s t) : CommitStays p s (t.clOff n) := h.clLeave.fs.fs.fs.of_same rfl rfl

/-! ### Pitch power (R425) -/

theorem setPwr {n : Nat} {x : Pwr} (h : CommitStays p s t) : CommitStays p s (t.setPwr n x) := h.of_same rfl rfl

theorem gateOff {n : Nat} (h : CommitStays p s t) : CommitStays p s (t.gateOff n) := by
  unfold State.gateOff
  exact ite h.setPwr.fs.fs.fs.raise h.setPwr.fs.fs

theorem ppStart {n : Nat} (h : CommitStays p s t) : CommitStays p s (t.ppStart n) := by
  have insert : CommitStays p s (t.ppEnterInsert n false) := ite h.gateOff.fs.fs h.setPwr.fs
  exact h.ite (insert.ite h.fs)

theorem ppStop {n : Nat} (h : CommitStays p s t) : CommitStays p s (t.ppStop n) := by
  have gate : CommitStays p s (t.gateOffFor n 8) := ite h.gateOff.fs h.gateOff
  exact gate.fs.setPwr.fs

/-! ### The core, the scan unit and the engines -/

theorem setPort {l : LanePort} {x : Port} (h : CommitStays p s t) : CommitStays p s (t.setPort l x) := h.of_same rfl rfl

theorem creditInit {l : LanePort} (h : CommitStays p s t) : CommitStays p s (t.creditInit l) := by
  unfold State.creditInit
  exact foldl h fun _ _ _ hu => hu.of_same rfl rfl

theorem leaveRidgeOnly (h : CommitStays p s t) : CommitStays p s t.leaveRidgeOnly := by
  unfold State.leaveRidgeOnly
  exact foldl h fun _ _ _ hu => hu.creditInit.setPort

theorem queuesRun (h : CommitStays p s t) : CommitStays p s (t.queuesRun true) :=
  foldl h fun _ _ _ hu => hu.setState_running.ite hu

theorem scanStart (h : CommitStays p s t) : CommitStays p s t.scanStart := h.fs.fs.fs.of_same rfl rfl

theorem place {n c : Nat} {u : Int} {l e : Bool} (h : CommitStays p s t) : CommitStays p s (t.place n c u l e) := h.setChan

theorem startOut {n c : Nat} (h : CommitStays p s t) : CommitStays p s (t.startOut n c) := by
  unfold State.startOut
  dsimp only
  split
  · exact place (ite (ite h.place h) h.place)
  · exact ite (ite h.place h) h.place

theorem pbTurn {n c : Nat} (h : CommitStays p s t) : CommitStays p s (t.pbTurn n c) := by
  unfold State.pbTurn
  exact h.ite (ite (ite h.fs.setChan h) h.fs.raise.setChan)

theorem ttInit {n c : Nat} (h : CommitStays p s t) : CommitStays p s (t.ttInit n c) := by
  unfold State.ttInit
  dsimp only
  split
  · exact ite h.setChan.wr h.setChan
  · exact h.setChan.wr

/-! ### The matrices that follow an engine (R314) -/

theorem kindOf_matrix {m : Nat} (h : 0x240 ≤ m ∧ m < 0x280) : kindOf m = some .sm := by
  have all : ∀ i < 64, kindOf (0x240 + i) = some .sm := by decide
  have := all (m - 0x240) (by omega)
  rwa [Nat.add_sub_cancel' h.1] at this

theorem endCommit {r a o : Nat} (h : CommitStays p s t) (hq : q ≠ p) : CommitStays p s (t.endCommit q r a o) :=
  ((((h.wr_page hq).wr_page hq).wr_page hq).wr_page hq).wr_page hq

theorem dropShadows (h : CommitStays p s t) : CommitStays p s (t.dropShadows q) :=
  have same := h.of_same (u := { t.dropShadows q with shad := t.shad }) rfl rfl
  ⟨same.status, same.pending, fun _ he => h.shad (List.mem_filter.1 he).1⟩

theorem applyShadows (h : CommitStays p s t) (hq : q ≠ p) : CommitStays p s (t.applyShadows q) := by
  refine dropShadows (foldl h fun e _ u hu => ?_)
  split
  · exact hu.wr_page hq
  · exact hu

theorem resync (h : CommitStays p s t) : CommitStays p s t.resync := by
  have copied : ∀ {u : State} {k : Nat}, CommitStays p s u → CommitStays p s (u.copyQueue k) := fun hu =>
    foldl hu fun _ _ _ hv => hv.of_same rfl rfl
  unfold State.resync
  exact ite (foldl (fs (h.fs.inc.raise.of_same rfl rfl)) fun _ _ _ hu => copied hu) (h.fs.inc.raise.of_same rfl rfl)

theorem askResync (h : CommitStays p s t) : CommitStays p s t.askResync := resync (h.of_same rfl rfl)

theorem smCommitted {b : State} {m : Nat} (h : CommitStays p s t) : CommitStays p s (t.smCommitted b m) := by
  unfold State.smCommitted
  exact h.ite (ite (ite h.ttInit h).ttInit (ite h.ttInit h))

/-- The commit of a matrix page leaves the commits of the other pages. -/
theorem commitEnd_matrix (h : CommitStays p s t) (hq : q ≠ p) (hk : kindOf q = some .sm) : CommitStays p s (t.commitEnd q) := by
  have before : t.beforeCommit q = t := by simp [State.beforeCommit, hk]
  unfold State.commitEnd
  split
  · exact ite (h.endCommit hq).raise.raise.askResync (h.endCommit hq).raise
  · rw [before]
    simp only [State.committed, hk]
    exact ((h.applyShadows hq).endCommit hq).smCommitted.raise

theorem stopped_matrix (h : CommitStays p s t) (hq : q ≠ p) (hk : kindOf q = some .sm) : CommitStays p s (t.stopped q) := by
  have fell := (h.setState_running (q := q) (v := false)).of_same (u := { t.setState q PAGE_STATE_RUNNING false with
    stopping := (t.setState q PAGE_STATE_RUNNING false).stopping.filter (· != q) }) rfl rfl
  exact ite (fell.commitEnd_matrix hq hk) fell

theorem smSet (h : CommitStays p s t) (hq : q ≠ p) (hk : kindOf q = some .sm) : CommitStays p s (t.smSet q) := by
  have off := h.stopped_matrix hq hk
  exact h.ite (ite h.setState_running (ite off.setState_running off))

theorem smFollow (h : CommitStays p s t) (hp : kindOf p ≠ some .sm) : CommitStays p s t.smFollow := by
  refine foldl h fun m hm u hu => ?_
  obtain ⟨i, hi, rfl⟩ := List.mem_map.1 hm
  have hk := kindOf_matrix (m := 0x240 + i) (by have := List.mem_range.1 hi; omega)
  exact hu.smSet (fun e => hp (e ▸ hk)) hk

theorem enStart (h : CommitStays p s t) (hp : kindOf p ≠ some .sm) : CommitStays p s (t.enStart q) := by
  unfold State.enStart
  dsimp only
  split
  · exact h
  · next c _ =>
    have out := h.startOut (n := enCluster q) (c := c)
    have active := out.fs (q := q) (f := PB_ERR_STATE) (v := 1)
    exact ite ((ite active.pbTurn active).ttInit.smFollow hp) (ite out.setChan out)

/-! ### ENABLE (R42, R43) -/

theorem blockStart (h : CommitStays p s t) : CommitStays p s (t.blockStart p) := by
  have rise := h.setState_running (q := p) (v := true)
  unfold State.blockStart
  dsimp only
  split
  · exact rise.leaveRidgeOnly.queuesRun
  · exact rise.scanStart
  · exact rise.clDetect
  · next hk => exact rise.enStart (by simp [hk])
  · exact rise.ppStart
  · exact rise

theorem mayStart (h : CommitStays p s t) : CommitStays p s (t.mayStart p) := ite h.blockStart h

/-- RUNNING falls with no commit pending: there is none to end. -/
theorem stopped (h : CommitStays p s t) (hc : s.commitPending p = false) : CommitStays p s (t.stopped p) := by
  have fell := (h.setState_running (q := p) (v := false)).of_same (u := { t.setState p PAGE_STATE_RUNNING false with
    stopping := (t.setState p PAGE_STATE_RUNNING false).stopping.filter (· != p) }) rfl rfl
  have idle := fell.pending.trans hc
  unfold State.stopped
  dsimp only
  rw [idle]
  exact fell

/-- The blocks that stop in the cycle of the write: a card link, and a power channel. -/
theorem stopPoint_now (h : CommitStays p s t) (hc : s.commitPending p = false) (hn : u.stopsNow p = true) :
    CommitStays p s (t.stopPoint p) := by
  have kinds : kindOf p = some .cl ∨ kindOf p = some .pp := by
    unfold State.stopsNow at hn
    split at hn
    · next hk => exact .inl hk
    · next hk => exact .inr hk
    · cases hn
  unfold State.stopPoint
  refine h.ite ?_
  obtain hk | hk := kinds <;> simp only [hk]
  · exact h.clOff.stopped hc
  · exact h.ppStop.stopped hc

/-- A write of ENABLE and READ_ACTIVE on a page with no commit pending leaves its commit registers and shadows, whether the block then
starts, stops or goes on. -/
theorem enableWrite {en ra : Bool} (h : CommitStays p s t) (hc : s.commitPending p = false) :
    CommitStays p s (t.enableWrite p en ra) := by
  have latched : CommitStays p s (t.setEnable p en ra) := h.fs.fs.of_same rfl rfl
  unfold State.enableWrite
  dsimp only
  split
  · exact h.fs.fs
  · split
    · next hn => exact (latched.stopPoint_now hc hn).mayStart
    · exact latched.mayStart

end CommitStays

end Sys2Proof.Machine
end

section
/-! ABORT_COMMIT (R55): what the abort alone leaves, what a write of PAGE_CTRL that carries it leaves, and the two ways such a write
reaches its page. -/
namespace Sys2Proof.Machine

/-! ### Shadows -/

theorem Map.getD_absent {V : Type} {m : Map V} {k : Nat} {d : V} (h : ∀ e ∈ m, e.1 ≠ k) : m.getD k d = d := by
  induction m with
  | nil => rfl
  | cons e m ih =>
    obtain ⟨hk, hm⟩ := List.forall_mem_cons.1 h
    simp only [Map.getD, if_neg (Ne.symm hk), ih hm]

/-- A page with no shadow listed has every shadow equal to its active value (R49). -/
theorem State.rdSh_of_unlisted {s : State} {p : Nat} (h : ∀ e ∈ s.shad, inPage p 0 e.1 = false) (off : Nat) :
    s.rdSh p off = s.rd p off := by
  refine Map.getD_absent fun e he hk => ?_
  have : inPage p 0 e.1 = true := by simp only [inPage, hk, regKey]; simp; omega
  rw [h e he] at this; cases this

theorem State.dropShadows_unlisted (s : State) (p : Nat) : ∀ e ∈ (s.dropShadows p).shad, inPage p 0 e.1 = false := fun e he => by
  simpa using (List.mem_filter.1 he).2

/-! ### The ending of a commit -/

section EndCommit
variable (s : State) (p r a o : Nat)

/-- PAGE_STATE and CFG_STATUS are two registers of a page. -/
theorem key_state_ne_cfg (p : Nat) : regKey p PAGE_STATE ≠ regKey p CFG_STATUS := by simp only [regKey, CFG_STATUS, PAGE_STATE]; omega

theorem State.endCommit_result : (s.endCommit p r a o).fg p CFG_STATUS_RESULT = r % 8 := by
  unfold State.endCommit State.addWrap
  rw [State.fg_fs_ne _ _ _ _ _ _ (.inr (by decide)), State.fg_fs_ne _ _ _ _ _ _ (.inr (by decide)),
    State.fg_fs_ne _ _ _ _ _ _ (.inr (by decide)), State.fg_fs _ _ _ _ (by decide)]
  rfl

theorem State.endCommit_reason : (s.endCommit p r a o).fg p CFG_STATUS_REASON = a % 256 := by
  unfold State.endCommit State.addWrap
  rw [State.fg_fs_ne _ _ _ _ _ _ (.inr (by decide)), State.fg_fs_ne _ _ _ _ _ _ (.inr (by decide)),
    State.fg_fs _ _ _ _ (by decide)]
  rfl

theorem State.endCommit_seq : (s.endCommit p r a o).fg p CFG_STATUS_SEQ = (s.fg p CFG_STATUS_SEQ + 1) % 64 := by
  unfold State.endCommit State.addWrap
  rw [State.fg_fs _ _ _ _ (by decide), State.fg_fs_ne _ _ _ _ _ _ (.inr (by decide)), State.fg_fs_ne _ _ _ _ _ _ (.inr (by decide)),
    State.fg_fs_ne _ _ _ _ _ _ (.inr (by decide)), State.fg_fs_ne _ _ _ _ _ _ (.inl (key_state_ne_cfg p).symm)]
  rfl

/-- Of PAGE_STATE the ending clears COMMIT_PENDING; what it writes after that is CFG_STATUS. -/
theorem State.endCommit_state {f : Fld} (hf : f.off = PAGE_STATE) :
    (s.endCommit p r a o).fg p f = (s.fs p PAGE_STATE_COMMIT_PENDING 0).fg p f := by
  have key := hf ▸ key_state_ne_cfg p
  unfold State.endCommit State.addWrap
  rw [State.fg_fs_ne _ _ _ _ _ _ (.inl key), State.fg_fs_ne _ _ _ _ _ _ (.inl key), State.fg_fs_ne _ _ _ _ _ _ (.inl key),
    State.fg_fs_ne _ _ _ _ _ _ (.inl key)]

theorem State.endCommit_pending : (s.endCommit p r a o).commitPending p = false := by
  unfold State.commitPending State.fb
  rw [State.endCommit_state _ _ _ _ _ rfl, State.fg_fs _ _ _ _ (by decide)]
  rfl

theorem State.endCommit_running : (s.endCommit p r a o).running p = s.running p := by
  unfold State.running State.fb
  rw [State.endCommit_state _ _ _ _ _ rfl, State.fg_fs_ne _ _ _ _ _ _ (.inr (by decide))]

theorem State.endCommit_onlyRegs : onlyRegs [(p, PAGE_STATE), (p, CFG_STATUS)] s (s.endCommit p r a o) :=
  ((((onlyRegs.refl _ s).fs (by decide) (by simp [PAGE_STATE_COMMIT_PENDING, PAGE_STATE])).fs (by decide)
    (by simp [CFG_STATUS_RESULT, CFG_STATUS])).fs (by decide) (by simp [CFG_STATUS_REASON, CFG_STATUS])).fs (by decide)
    (by simp [CFG_STATUS_OFFSET, CFG_STATUS]) |>.fs (by decide) (by simp [CFG_STATUS_SEQ, CFG_STATUS])

end EndCommit

/-! ### ABORT_COMMIT -/

/-- What ABORT_COMMIT on page `p` leaves: no commit pends, one that did ended aborted, else CFG_STATUS stays, and every shadow equals its
active value (R55). -/
structure Aborted (p : Nat) (s t : State) : Prop where
  idle : t.commitPending p = false
  result : s.commitPending p = true → t.fg p CFG_STATUS_RESULT = 4
  reason : s.commitPending p = true → t.fg p CFG_STATUS_REASON = 5
  seq : s.commitPending p = true → t.fg p CFG_STATUS_SEQ = (s.fg p CFG_STATUS_SEQ + 1) % 64
  status : s.commitPending p = false → t.rd p CFG_STATUS = s.rd p CFG_STATUS
  unlisted : ∀ e ∈ t.shad, inPage p 0 e.1 = false

theorem State.abortWrite_aborted (s : State) (p : Nat) : Aborted p s (s.abortWrite p) := by
  have gone := s.dropShadows_unlisted p
  cases hc : s.commitPending p with
  | true =>
    have e : s.abortWrite p = (s.dropShadows p).endCommit p 4 5 0 := by simp [State.abortWrite, hc]
    rw [e]
    exact ⟨State.endCommit_pending .., fun _ => State.endCommit_result .., fun _ => State.endCommit_reason ..,
      fun _ => State.endCommit_seq .., fun h => absurd (hc.symm.trans h) (by decide), gone⟩
  | false =>
    have e : s.abortWrite p = s.dropShadows p := by simp [State.abortWrite, hc]
    have never {P : Prop} (h : s.commitPending p = true) : P := absurd (hc.symm.trans h) (by decide)
    rw [e]
    exact ⟨hc, never, never, never, fun _ => rfl, gone⟩

theorem State.abortWrite_onlyRegs (s : State) (p : Nat) : onlyRegs [(p, PAGE_STATE), (p, CFG_STATUS)] s (s.abortWrite p) :=
  onlyRegs.ite (State.endCommit_onlyRegs (s.dropShadows p) p 4 5 0) (onlyRegs.refl _ s)

/-- What the block then does by its ENABLE leaves the abort as it is. -/
theorem Aborted.stays {p : Nat} {s t u : State} (h : Aborted p s t) (k : CommitStays p t u) : Aborted p s u where
  idle := k.pending.trans h.idle
  result hc := (k.fg rfl).trans (h.result hc)
  reason hc := (k.fg rfl).trans (h.reason hc)
  seq hc := (k.fg rfl).trans (h.seq hc)
  status hc := k.status.trans (h.status hc)
  unlisted e he := h.unlisted e (k.shad he)

/-- The abort of a state that has the commit registers of another is an abort of that one. -/
theorem Aborted.of_stays {p : Nat} {s t u : State} (h : Aborted p t u) (k : CommitStays p s t) : Aborted p s u where
  idle := h.idle
  result hc := h.result (k.pending.trans hc)
  reason hc := h.reason (k.pending.trans hc)
  seq hc := by rw [h.seq (k.pending.trans hc), k.fg rfl]
  status hc := (h.status (k.pending.trans hc)).trans k.status
  unlisted := h.unlisted

/-! ### A write of PAGE_CTRL with ABORT_COMMIT 1 -/

theorem State.pageCtrl_abort {s : State} {p : Nat} {v : Word} (ha : PAGE_CTRL_ABORT_COMMIT.get v = 1)
    (hr : PAGE_CTRL_RESET_BLOCK.get v = 0) : s.pageCtrl p v =
      ((s.mirrorCfg 2 p PAGE_CTRL v).abortWrite p).enableWrite p (PAGE_CTRL_ENABLE.get v = 1) (PAGE_CTRL_READ_ACTIVE.get v = 1) := by
  simp [State.pageCtrl, ha, hr]

theorem CommitStays.mirrorCfg {p q op off : Nat} {v : Word} (s : State) : CommitStays p s (s.mirrorCfg op q off v) :=
  (CommitStays.refl p s).of_same (by simp) (by simp)

theorem CommitStays.touch {p : Nat} {who : Initiator} {r : Bool} (s : State) : CommitStays p s (s.touch who r) := by
  have packs {u : State} (h : CommitStays p s u) : CommitStays p s (u.endPack who) :=
    CommitStays.ite (CommitStays.raise (h.of_same rfl rfl)) h
  exact packs (CommitStays.ite ((CommitStays.refl p s).of_same rfl rfl) (CommitStays.refl p s))

/-- ABORT_COMMIT with any ENABLE, READ_ACTIVE and COMMIT in the same write. -/
theorem State.pageCtrl_aborted {s : State} {p : Nat} {v : Word} (ha : PAGE_CTRL_ABORT_COMMIT.get v = 1)
    (hr : PAGE_CTRL_RESET_BLOCK.get v = 0) : Aborted p s (s.pageCtrl p v) := by
  have aborted := ((s.mirrorCfg 2 p PAGE_CTRL v).abortWrite_aborted p).of_stays (.mirrorCfg s)
  rw [State.pageCtrl_abort ha hr]
  exact aborted.stays ((CommitStays.refl p _).enableWrite aborted.idle)

/-! ### ENABLE 1 on a block that runs -/

theorem State.stopPoint_unasked {s : State} {p : Nat} (h : p ∉ s.stopping) : s.stopPoint p = s := by
  simp [State.stopPoint, h]

theorem State.mayStart_running {s : State} {p : Nat} (h : s.running p = true) : s.mayStart p = s := by
  simp [State.mayStart, h]

theorem State.setEnable_running (s : State) (p : Nat) (en ra : Bool) : (s.setEnable p en ra).running p = s.running p := by
  have key : regKey p PAGE_STATE ≠ regKey p PAGE_CTRL := by simp only [regKey, PAGE_STATE, PAGE_CTRL]; omega
  change (((s.fs p PAGE_CTRL_ENABLE (bit en)).fs p PAGE_CTRL_READ_ACTIVE (bit ra)).fg p PAGE_STATE_RUNNING != 0) = _
  rw [State.fg_fs_ne _ _ _ _ _ _ (.inl key), State.fg_fs_ne _ _ _ _ _ _ (.inl key)]
  rfl

theorem State.setEnable_unasked (s : State) (p : Nat) (ra : Bool) : p ∉ (s.setEnable p true ra).stopping := by
  simp [State.setEnable]

theorem State.ctrl_onlyRegs (s : State) (p : Nat) (en ra : Bool) :
    onlyRegs [(p, PAGE_CTRL)] s ((s.fs p PAGE_CTRL_ENABLE (bit en)).fs p PAGE_CTRL_READ_ACTIVE (bit ra)) :=
  ((onlyRegs.refl _ s).fs (by decide) (by simp [PAGE_CTRL_ENABLE, PAGE_CTRL])).fs (by decide)
    (by simp [PAGE_CTRL_READ_ACTIVE, PAGE_CTRL])

/-- The block neither starts nor stops: PAGE_CTRL alone changes. -/
theorem State.enableWrite_running {s : State} {p : Nat} {ra : Bool} (hrun : s.running p = true) :
    onlyRegs [(p, PAGE_CTRL)] s (s.enableWrite p true ra) := by
  have latched : onlyRegs [(p, PAGE_CTRL)] s (s.setEnable p true ra) := (s.ctrl_onlyRegs p true ra).of_regs rfl
  have go := State.mayStart_running ((s.setEnable_running p true ra).trans hrun)
  have stay := State.stopPoint_unasked (s.setEnable_unasked p ra)
  simp only [State.enableWrite, stay, go, ite_self]
  exact onlyRegs.ite (s.ctrl_onlyRegs p true ra) latched

theorem State.abortWrite_running (s : State) (p : Nat) : (s.abortWrite p).running p = s.running p := by
  unfold State.abortWrite
  split
  · exact State.endCommit_running (s.dropShadows p) ..
  · rfl

theorem State.rd_mirrorCfg (s : State) (op q off : Nat) (v : Word) (p o : Nat) : (s.mirrorCfg op q off v).rd p o = s.rd p o := by
  simp only [State.rd, State.mirrorCfg_regs]

theorem onlyRegs.mono {l m : List (Nat × Nat)} {s t : State} (h : onlyRegs l s t) (hl : l ⊆ m) : onlyRegs m s t :=
  fun p o ho hm => h p o ho fun hin => hm (hl hin)

/-- ABORT_COMMIT with ENABLE 1 on a block that runs. -/
theorem State.pageCtrl_abort_onlyRegs {s : State} {p : Nat} {v : Word} (ha : PAGE_CTRL_ABORT_COMMIT.get v = 1)
    (hr : PAGE_CTRL_RESET_BLOCK.get v = 0) (he : PAGE_CTRL_ENABLE.get v = 1) (hrun : s.running p = true) :
    onlyRegs [(p, PAGE_CTRL), (p, PAGE_STATE), (p, CFG_STATUS)] s (s.pageCtrl p v) := by
  have hm : (s.mirrorCfg 2 p PAGE_CTRL v).running p = true := by
    rw [← hrun]; simp only [State.running, State.fb, State.fg, State.rd_mirrorCfg]
  have mirrored := (onlyRegs.refl [] s).of_rd (s.rd_mirrorCfg 2 p PAGE_CTRL v)
  have ended := (s.mirrorCfg 2 p PAGE_CTRL v).abortWrite_onlyRegs p
  have enabled := State.enableWrite_running (ra := PAGE_CTRL_READ_ACTIVE.get v = 1) ((State.abortWrite_running _ p).trans hm)
  rw [State.pageCtrl_abort ha hr, he, decide_eq_true rfl]
  exact ((mirrored.mono (by simp)).trans (ended.mono (by simp))).trans (enabled.mono (by simp))

/-! ### How the write reaches the page -/

/-- The word of ABORT_COMMIT, alone or with COMMIT 1. -/
theorem ctrlWord_abort (ra both : Bool) :
    PAGE_CTRL_ABORT_COMMIT.get (ctrlWord true ra (4 + 2 * bit both)) = 1 ∧
      PAGE_CTRL_RESET_BLOCK.get (ctrlWord true ra (4 + 2 * bit both)) = 0 ∧
      PAGE_CTRL_ENABLE.get (ctrlWord true ra (4 + 2 * bit both)) = 1 := by
  cases ra <;> cases both <;> decide

/-- An accepted ABORT_COMMIT is a write of PAGE_CTRL at its page: directly but on a supervisor page, where only the preload path is. -/
theorem exec_abortCommit {s : State} {who : Initiator} {page p : Nat} {ra both : Bool} (hp : s.enAlias page = p)
    (hsup : supPage p = false ∨ who = .preload) (hacc : s.accepts who p PAGE_CTRL = true) :
    exec (.abortCommit who page true ra both) s =
      .next (((s.touch who false).pageCtrl p (ctrlWord true ra (4 + 2 * bit both))).answer who rspOk 0) := by
  have direct : (supPage p && decide (who ≠ .preload)) = false := by
    obtain h | h := hsup <;> simp [h]
  change Host.Outcome.next (s.pageCtrlWrite who page (ctrlWord true ra (4 + 2 * bit both))) = _
  unfold State.pageCtrlWrite
  rw [hp, State.write_accepts hacc]
  simp only [State.viaSup, direct]
  rfl

/-- The oldest write on its way, when it is one of PAGE_CTRL, takes effect there. -/
theorem exec_supvWriteArrive {s : State} {p : Nat} {v : Word} {rest : List SupWrite} (hl : s.supv.link = true)
    (hq : s.supv.queue = { page := p, off := PAGE_CTRL, v := v } :: rest) :
    exec .supvWriteArrive s = .next (({ s with supv := { s.supv with queue := rest } } : State).pageCtrl p v) := by
  change Sys2Proof.Machine.execSupvWriteArrive s = _
  unfold execSupvWriteArrive
  rw [hq]
  simp only [hl]
  rfl

/-- The abort that an accepted ABORT_COMMIT makes. -/
theorem abortCommit_aborted {s : State} {who : Initiator} {p : Nat} {ra both : Bool} : Aborted p s
    (((s.touch who false).pageCtrl p (ctrlWord true ra (4 + 2 * bit both))).answer who rspOk 0) := by
  obtain ⟨ha, hr, -⟩ := ctrlWord_abort ra both
  exact ((State.pageCtrl_aborted ha hr).of_stays (.touch s)).stays ((CommitStays.refl p _).of_same rfl rfl)

theorem Aborted.rdSh {p : Nat} {s t : State} (h : Aborted p s t) (off : Nat) : t.rdSh p off = t.rd p off :=
  State.rdSh_of_unlisted h.unlisted off

/-- Settles O15: what the abort leaves (`State.abortWrite_aborted`, R55) outlives whatever ENABLE in the same write does to the block
(`CommitStays.enableWrite`, R42), over each of the two ways a write reaches its page (R12). -/
theorem abortEndsACommitAndReloadsShadows : Obligations.AbortEndsACommitAndReloadsShadows := by
  refine ⟨fun s who page p ra both hp hsup hc hacc => ?_, fun s who page p ra both hp hsup hc hacc => ?_,
    fun s p v rest hl hq ha hr => ?_⟩
  · have h : Aborted p s _ := abortCommit_aborted (who := who) (ra := ra) (both := both)
    refine ⟨_, exec_abortCommit hp hsup hacc, h.idle, h.result hc, h.reason hc, h.seq hc, h.rdSh, fun hrun => ?_⟩
    obtain ⟨ha, hr, he⟩ := ctrlWord_abort ra both
    have running : (s.touch who false).running p = true := by
      rw [← hrun]; simp only [State.running, State.fb, State.fg_touch s who false p PAGE_STATE_RUNNING (key_ready p)]
    have regs := (State.pageCtrl_abort_onlyRegs ha hr he running).touch
    exact (regs.mono (by simp)).of_rd fun _ _ => rfl
  · have h : Aborted p s _ := abortCommit_aborted (who := who) (ra := ra) (both := both)
    exact ⟨_, exec_abortCommit hp hsup hacc, h.status hc, h.rdSh⟩
  · have h := (State.pageCtrl_aborted ha hr).of_stays
      (s := s) ((CommitStays.refl p s).of_same (u := { s with supv := { s.supv with queue := rest } }) rfl rfl)
    exact ⟨_, exec_supvWriteArrive hl hq, h.idle, fun hc => ⟨h.result hc, h.reason hc⟩, h.status, h.rdSh⟩

end Sys2Proof.Machine
end

section
/-! What stays of a reset's sequence while the hub comes out of it: the sequence in progress, its record and the empty core. The lemmas
follow the functions that the assertion of a reset reaches, from the registers up to `State.releaseReset`. -/
namespace Sys2Proof.Machine

/-- The registers of page 0x000 that hold the record of the last reset (R98). -/
def recordOffs : List Nat := [GS_LAST_CAUSE, GS_LAST_STAMP_LO, GS_LAST_STAMP_HI]

/-- From `s` to `t`, the sequence in progress, the record of the last reset and the core stay. -/
structure SequenceStays (s t : State) : Prop where
  seq : t.gs.seq = s.gs.seq
  core : t.core = s.core
  record : ∀ o ∈ recordOffs, t.rd 0 o = s.rd 0 o

theorem not_running_of_onlyPages {l : List Nat} {p : Nat} {s t : State} (h : onlyPages l s t) (hp : p ∉ l)
    (hr : s.running p = false) : t.running p = false := by
  have hrd := h p PAGE_STATE_RUNNING.off (by decide) hp
  rw [← hr]; simp only [State.running, State.fb, State.fg, hrd]

theorem State.showTesting_onlyPages (s : State) (bs : List Nat) (v : Nat) : onlyPages [0x280] s (s.showTesting bs v) :=
  onlyPages.foldl _ _ (onlyPages.refl _ s) fun _ _ _ hu => hu.fs (by simp)

theorem ecPage_ne_zero (n : Nat) : ecPage n ≠ 0 := by unfold ecPage; omega

theorem enPage_ne_zero (n k : Nat) : enPage n k ≠ 0 := by unfold enPage; omega

namespace SequenceStays

variable {q : Nat} {s t u : State}

theorem refl (s : State) : SequenceStays s s := ⟨rfl, rfl, fun _ _ => rfl⟩

theorem of_same (h : SequenceStays s t) (hg : u.gs.seq = t.gs.seq) (hc : u.core = t.core) (hr : u.regs = t.regs) :
    SequenceStays s u :=
  ⟨hg.trans h.seq, hc.trans h.core, fun o ho => by rw [← h.record o ho]; simp only [State.rd, hr]⟩

theorem ite {c : Prop} [Decidable c] (ht : SequenceStays s t) (hu : SequenceStays s u) : SequenceStays s (if c then t else u) := by
  split <;> assumption

theorem foldl {α : Type} {f : State → α → State} (l : List α) (h : SequenceStays s t)
    (hf : ∀ u a, SequenceStays s u → SequenceStays s (f u a)) : SequenceStays s (l.foldl f t) := by
  induction l generalizing t with
  | nil => exact h
  | cons a l ih => exact ih (hf t a h)

/-! ### Registers and events -/

theorem wr_of_ne {o : Nat} {v : Word} (h : SequenceStays s t) (hk : ∀ r ∈ recordOffs, regKey 0 r ≠ regKey q o) :
    SequenceStays s (t.wr q o v) :=
  ⟨h.seq, h.core, fun r hr => by rw [State.rd_wr, if_neg (hk r hr), h.record r hr]⟩

/-- A write to another page than that of the record. -/
theorem wr {o : Nat} {v : Word} (h : SequenceStays s t) (hq : q ≠ 0 := by decide) : SequenceStays s (t.wr q o v) :=
  h.wr_of_ne fun _ _ e => hq (regKey_page e).symm

/-- A write to a register that holds no part of the record. -/
theorem wr_beside {o : Nat} {v : Word} (h : SequenceStays s t) (ho : o % 4096 ∉ recordOffs := by decide) :
    SequenceStays s (t.wr q o v) :=
  h.wr_of_ne fun r hr e => ho <| by
    have small : ∀ r ∈ recordOffs, r < 4096 := by decide
    have : o % 4096 = r := by have := small r hr; simp only [regKey] at e; omega
    rwa [this]

theorem fs {f : Fld} {v : Nat} (h : SequenceStays s t) (hq : q ≠ 0 := by decide) : SequenceStays s (t.fs q f v) := h.wr hq

theorem inc {f : Fld} (h : SequenceStays s t) (hq : q ≠ 0 := by decide) : SequenceStays s (t.inc q f) := h.wr hq

theorem fs_beside {f : Fld} {v : Nat} (h : SequenceStays s t) (ho : f.off % 4096 ∉ recordOffs := by decide) :
    SequenceStays s (t.fs q f v) := h.wr_beside ho

theorem raise {b : Nat} (h : SequenceStays s t) : SequenceStays s (t.raise q b) :=
  (h.wr_beside (q := q) (o := EVT_STATUS)).of_same (by simp) (by simp) (State.regs_raise ..)

theorem raiseIf {c : Bool} {b : Nat} (h : SequenceStays s t) : SequenceStays s (t.raiseIf c q b) := h.raise.ite h

theorem setState {f : Fld} {v : Bool} (h : SequenceStays s t) (hq : q ≠ 0 := by decide) : SequenceStays s (t.setState q f v) :=
  h.ite (h.fs hq).raise

/-! ### The memories (R456, R465) -/

theorem setSpBank {b : Nat} {x : SpBank} (h : SequenceStays s t) : SequenceStays s (t.setSpBank b x) := h.of_same rfl rfl rfl

theorem showSpares {b : Nat} (h : SequenceStays s t) : SequenceStays s (t.showSpares b) := h.fs

theorem showTable (h : SequenceStays s t) : SequenceStays s t.showTable := by
  unfold State.showTable
  split <;> exact h.fs.fs

theorem showTesting {bs : List Nat} {v : Nat} (h : SequenceStays s t) : SequenceStays s (t.showTesting bs v) :=
  foldl bs h fun _ _ hu => hu.fs

/-- A bank replacement that a march run asks for is refused where the core does not run (R196). -/
theorem marchSpares {bs : List Nat} (h : SequenceStays s t) (hr : t.running 0x010 = false) : SequenceStays s (t.marchSpares bs) := by
  have refused : ∀ b, SequenceStays s (t.requestSpare b 1) := fun b => by
    have e : t.requestSpare b 1 = t.refuseSpare b := by simp [State.requestSpare, hr]
    exact e ▸ h.fs.fs.raise
  unfold State.marchSpares
  split
  · exact h
  · split
    · exact h.ite (refused _)
    · exact h

theorem marchStopped {m : March} (h : SequenceStays s t) (hr : t.running 0x010 = false) : SequenceStays s (t.marchStopped m) := by
  have gone : SequenceStays s ({ t with mem := { t.mem with march := none } } : State) := h.of_same rfl rfl rfl
  have pages := ((State.showTesting_onlyPages { t with mem := { t.mem with march := none } } m.banks 0).fs
    (p := 0x280) (f := MEM_MARCH_STATUS_STATE) (v := 5) (by decide)).raise (p := 0x280) (b := EV_MEM_MARCH_DONE) (by decide)
  have done := (gone.showTesting (bs := m.banks) (v := 0)).fs (q := 0x280) (f := MEM_MARCH_STATUS_STATE) (v := 5)
    |>.raise (q := 0x280) (b := EV_MEM_MARCH_DONE) |>.marchSpares (bs := m.cellBanks) (not_running_of_onlyPages pages (by decide) hr)
  exact done.ite (ite (foldl _ done fun _ _ hu => hu.setSpBank) (ite (done.of_same rfl rfl rfl) (done.of_same rfl rfl rfl)))

theorem memReset (h : SequenceStays s t) (hr : t.running 0x010 = false) : SequenceStays s t.memReset := by
  unfold State.memReset
  dsimp only
  refine (foldl _ ?_ fun u b hu => showSpares (ite (fs hu.setSpBank) hu.setSpBank)).showTable
  split
  · split
    · exact (h.marchStopped hr).of_same rfl rfl rfl
    · exact h.of_same rfl rfl rfl
  · exact h.of_same rfl rfl rfl

/-! ### The update state, the repairs and the baselines (R468, R487, R498, R502, R507) -/

theorem upShow (h : SequenceStays s t) : SequenceStays s t.upShow := h.fs.fs.wr

theorem applyRepair {r : Repair} (h : SequenceStays s t) : SequenceStays s (t.applyRepair r) := by
  unfold State.applyRepair
  dsimp only
  split
  · exact setState (showSpares h.setSpBank)
  · split
    · exact h.wr.fs.setState
    · split
      · exact h
      · have ec := ecPage_ne_zero r.unit
        exact setState (setState (setState (fs (fs (h.wr ec) ec) ec) ec) (enPage_ne_zero _ _)) (enPage_ne_zero _ _)

theorem applyRepairs (h : SequenceStays s t) : SequenceStays s t.applyRepairs :=
  (foldl _ h.showTable fun _ _ hu => hu.applyRepair).raiseIf

theorem loadBaselines (h : SequenceStays s t) : SequenceStays s t.loadBaselines := by
  unfold State.loadBaselines
  split
  · exact h.fs.raise
  · exact fs (fs (fs (h.of_same rfl rfl rfl)))

theorem raiseFloors {bad : Option Nat} (h : SequenceStays s t) : SequenceStays s (t.raiseFloors bad) := by
  have burnt {u : State} (l : List Nat) (hu : SequenceStays s u) : SequenceStays s (l.foldl State.burnFloor u) :=
    foldl l hu fun _ _ hv => hv.of_same rfl rfl rfl
  refine foldl _ (h.of_same rfl rfl rfl) fun u e hu => ?_
  exact ite (raise ((burnt _ hu).of_same rfl rfl rfl)) (burnt _ hu)

theorem retryFloors (h : SequenceStays s t) : SequenceStays s t.retryFloors := by
  unfold State.retryFloors
  exact h.ite ((h.raiseFloors.ite h.raiseFloors).of_same rfl rfl rfl)

theorem revertRecord (h : SequenceStays s t) : SequenceStays s t.revertRecord := by
  unfold State.revertRecord
  exact ite (raise (inc (fs (fs (fs (h.of_same rfl rfl rfl)))))) h

/-! ### The reader (R83-R88) -/

theorem setOpt {v : Nat} (h : SequenceStays s t) : SequenceStays s (t.setOpt v) := h.fs_beside

theorem set_pos {x : Option Nat} (h : SequenceStays s t) : SequenceStays s { t with gs := { t.gs with pos := x } } :=
  h.of_same rfl rfl rfl

theorem toDone (h : SequenceStays s t) : SequenceStays s t.toDone :=
  set_pos (loadBaselines (applyRepairs (setOpt (ite h.retryFloors h))))

theorem bareStart (h : SequenceStays s t) : SequenceStays s t.bareStart := by
  have bare := ((h.setOpt (v := 9)).fs_beside (q := 0) (f := GS_OPT_STATUS_FALLBACK) (v := 1)).fs_beside (q := 0)
    (f := GS_OPT_STATUS_COPY) (v := 0)
    |>.wr_beside (q := 0) (o := GS_HUB_ID) (v := 0) |>.wr_beside (q := 0) (o := GS_HOLD) (v := holdMost)
    |>.wr (q := 1) (o := OPT_ACTIVE_GEN) (v := 0) |>.raise (q := 0) (b := EV_GS_OPT_FALLBACK)
  exact bare.toDone.ite bare.fs

theorem readHeaders (h : SequenceStays s t) : SequenceStays s t.readHeaders := by
  have picked (c : Nat) : SequenceStays s (({ t.revertRecord with
      gs := { t.revertRecord.gs with copy := c, tried := false } } : State).setOpt 4) :=
    setOpt (h.revertRecord.of_same rfl rfl rfl)
  unfold State.readHeaders
  dsimp only
  split
  · exact picked _
  · exact picked 0
  · exact picked 1
  · exact h.revertRecord.bareStart

theorem releaseReset {straps : Straps} (h : SequenceStays s t) : SequenceStays s (t.releaseReset straps) := by
  have sampled (v : Word) : SequenceStays s (({ t with gs := { t.gs with straps := straps, strapPins := straps } } : State).wr 0
      GS_STRAPS v) := wr_beside (h.of_same rfl rfl rfl)
  unfold State.releaseReset
  dsimp only
  split
  · exact h
  · split
    · exact h
    · exact ((sampled _).ite h).setOpt.ite ((sampled _).ite h).readHeaders

end SequenceStays

end Sys2Proof.Machine
end

section
/-! The recognition and the assertion of a reset at L0 to L2 (R72, R76, R78, R98), and the levels of the sources (R65, R66). -/
namespace Sys2Proof.Machine

/-! ### Levels -/

theorem levelDefault_permitted (c : Nat) : levelDefault c ∈ levelsOf c := by
  unfold levelDefault levelsOf
  split_ifs <;> simp <;> omega

/-- A source's level is one permitted for it (R66). -/
theorem State.levelOf_permitted (s : State) (c : Nat) : s.levelOf c ∈ levelsOf c := by
  unfold State.levelOf State.override
  dsimp only
  split
  · next h => obtain ⟨-, -, h⟩ := h; simpa using h
  · exact levelDefault_permitted c

/-- A source that may not be at L3 is at L0, L1 or L2. -/
theorem State.levelOf_hub (s : State) {c : Nat} (h : ∀ l ∈ levelsOf c, l < 3) : s.levelOf c < 3 := h _ (s.levelOf_permitted c)

theorem State.levelOf_touch (s : State) (who : Initiator) (r : Bool) (c : Nat) : (s.touch who r).levelOf c = s.levelOf c := by
  simp [State.levelOf, State.override, State.fuseEntry]

/-! ### The assertion -/

theorem keepReg_core_state (lv : Nat) : keepReg lv (regKey 0x010 PAGE_STATE) = false := by
  by_cases h0 : lv = 0
  · subst h0; decide
  · by_cases h2 : lv = 2
    · subst h2; decide
    · simp only [keepReg, h0, h2, false_and, if_false]; decide

/-- A core whose PAGE_STATE is at its reset value does not run. -/
theorem State.not_running_of_unlisted {s : State} (h : ∀ e ∈ s.regs, e.1 ≠ regKey 0x010 PAGE_STATE) : s.running 0x010 = false := by
  have reset : s.rd 0x010 PAGE_STATE_RUNNING.off = resetWord (regKey 0x010 PAGE_STATE) := Map.getD_absent h
  simp only [State.running, State.fb, State.fg, reset]
  decide

/-- A reset of the hub empties the core, and no march run that it stops asks the core for a bank replacement (R72, R456). -/
theorem State.hubReset_core (s : State) (r : ResetReq) : (s.hubReset r).core = {} := by
  unfold State.hubReset
  refine ((SequenceStays.refl _).memReset (State.not_running_of_unlisted fun e he hk => ?_)).upShow.core
  have kept := (List.mem_filter.1 he).2
  rw [hk, keepReg_core_state] at kept
  cases kept

theorem State.record_cause (s : State) (r : ResetReq) (n : Nat) : (s.record r n).rd 0 GS_LAST_CAUSE =
    BitVec.ofNat 32 (r.detail % 256 * 256 + r.level % 4 * 16 + r.cause % 16) := by
  unfold State.record
  rw [State.rd_wr, if_neg (by decide), State.rd_wr, if_neg (by decide), State.rd_wr_same]

theorem State.record_stampLo (s : State) (r : ResetReq) (n : Nat) :
    (s.record r n).rd 0 GS_LAST_STAMP_LO = BitVec.ofNat 32 n := by
  unfold State.record
  rw [State.rd_wr, if_neg (by decide), State.rd_wr_same]

theorem State.record_stampHi (s : State) (r : ResetReq) (n : Nat) :
    (s.record r n).rd 0 GS_LAST_STAMP_HI = BitVec.ofNat 32 (n / 2 ^ 32) := State.rd_wr_same ..

/-- The reset `r` of the hub is in progress, recorded with the AON count `stamp` (R98), and the core is empty (R72). -/
structure InReset (r : ResetReq) (stamp : Nat) (t : State) : Prop where
  seq : t.gs.seq = some r
  cause : t.rd 0 GS_LAST_CAUSE = BitVec.ofNat 32 (r.detail % 256 * 256 + r.level % 4 * 16 + r.cause % 16)
  stampLo : t.rd 0 GS_LAST_STAMP_LO = BitVec.ofNat 32 stamp
  stampHi : t.rd 0 GS_LAST_STAMP_HI = BitVec.ofNat 32 (stamp / 2 ^ 32)
  core : t.core = {}

theorem InReset.of_stays {r : ResetReq} {n : Nat} {t u : State} (h : InReset r n t) (k : SequenceStays t u) : InReset r n u where
  seq := k.seq.trans h.seq
  cause := (k.record _ (by decide)).trans h.cause
  stampLo := (k.record _ (by decide)).trans h.stampLo
  stampHi := (k.record _ (by decide)).trans h.stampHi
  core := k.core.trans h.core

/-- A sequence set to `r` beside its record. -/
theorem InReset.of_record {r : ResetReq} {n : Nat} {u : State} {g : Gs} (hc : u.core = {}) (hg : g.seq = some r) :
    InReset r n { u.record r n with gs := g } :=
  ⟨hg, u.record_cause r n, u.record_stampLo r n, u.record_stampHi r n, hc⟩

/-- Coming out of the reset at once leaves it in progress. -/
theorem InReset.released {r : ResetReq} {n : Nat} {u : State} {g : Gs} {straps : Straps} (hc : u.core = {}) (hg : g.seq = some r) :
    InReset r n (({ u.record r n with gs := g } : State).releaseReset straps) :=
  (InReset.of_record hc hg).of_stays (SequenceStays.refl _).releaseReset

theorem InReset.answer {r : ResetReq} {n : Nat} {t : State} (h : InReset r n t) (who : Initiator) (rsp : Nat) (d : Word) :
    InReset r n (t.answer who rsp d) := ⟨h.seq, h.cause, h.stampLo, h.stampHi, h.core⟩

/-- An asserted reset is in progress with its record, also where nothing holds it and the hub comes out of it at once. -/
theorem State.assertReset_inReset (s : State) (r : ResetReq) :
    InReset r (if r.cause = 1 then 0 else s.gs.aon) (s.assertReset r) :=
  InReset.released (by rw [State.fs_core, s.hubReset_core r]) rfl

/-- The cause word of a source without detail, at a level of the hub. -/
theorem InReset.cause_word {c l stamp : Nat} {t : State} (h : InReset { cause := c, level := l } stamp t) (hc : c < 16) (hl : l < 4) :
    t.rd 0 GS_LAST_CAUSE = BitVec.ofNat 32 (l * 16 + c) := by
  rw [h.cause, Nat.mod_eq_of_lt hc, Nat.mod_eq_of_lt hl]; simp

/-! ### Recognition -/

/-- A sequence at a deeper level, or at the same level and not beaten, absorbs the source (R76). -/
theorem State.absorbs_of {s : State} {r q : ResetReq} (hs : s.gs.seq = some q)
    (h : q.level < r.level ∨ (q.level = r.level ∧ ¬(s.gs.seqAt = s.lc ∧ r.cause < q.cause))) : s.absorbs r = true := by
  simp only [State.absorbs, hs, beats, Option.any_some, Bool.and_eq_true, Bool.not_eq_true', Bool.or_eq_false_iff,
    Bool.and_eq_false_iff, decide_eq_true_eq, decide_eq_false_iff_not]
  obtain hl | ⟨hl, hb⟩ := h
  · exact ⟨⟨by omega, .inl (.inl (by omega))⟩, by omega⟩
  · refine ⟨⟨by omega, ?_⟩, by omega⟩
    obtain ha | hc := not_and_or.1 hb
    · exact .inl (.inr ha)
    · exact .inr hc

/-- No sequence, or one at a level less deep, absorbs nothing. -/
theorem State.not_absorbs_of_deeper {s : State} {r : ResetReq} (h : (s.gs.seq.all fun q => decide (r.level < q.level)) = true) :
    s.absorbs r = false := by
  unfold State.absorbs
  cases hs : s.gs.seq with
  | none => rfl
  | some q =>
    have : r.level < q.level := by simpa [hs] using h
    simp; omega

theorem State.recognise_absorbed {s : State} {r : ResetReq} {x : Option L3Target} (h : s.absorbs r = true) :
    s.recognise r x = s := by simp [State.recognise, h]

/-- During a write to the MRAM a reset of the hub waits (R78). -/
theorem State.recognise_waits {s : State} {r : ResetReq} {x : Option L3Target} (hq : s.gs.seq = none) (hd : s.gs.deferred = none)
    (hl : r.level < 3) (hb : s.mramBusy = true) :
    s.recognise r x = { s with gs := { s.gs with deferred := some r, seqAt := s.lc } } := by
  have idle : s.absorbs r = false := State.not_absorbs_of_deeper (by rw [hq]; rfl)
  simp [State.recognise, idle, hb, State.holdBack, hd, show r.level ≠ 3 by omega]

/-- Outside a write to the MRAM, a reset of the hub deeper than any in progress is asserted (R76). -/
theorem State.recognise_asserts {s : State} {r : ResetReq} {x : Option L3Target}
    (hq : (s.gs.seq.all fun q => decide (r.level < q.level)) = true) (hl : r.level < 3) (hb : s.mramBusy = false) :
    s.recognise r x = s.assertReset r := by
  have alone : (s.gs.seq.any fun q => decide (q.level = r.level)) = false := by
    cases hs : s.gs.seq with
    | none => rfl
    | some q =>
      have : r.level < q.level := by simpa [hs] using hq
      simp; omega
  simp [State.recognise, State.not_absorbs_of_deeper hq, hb, alone, show r.level ≠ 3 by omega]

end Sys2Proof.Machine
end

section
/-! The two commanded resets: GS_SOFT_RESET (R69) and the twin's RESET_TWIN (R68). -/
namespace Sys2Proof.Machine

/-! ### GS_SOFT_RESET -/

theorem State.mramBusy_touch (s : State) (who : Initiator) (r : Bool) : (s.touch who r).mramBusy = s.mramBusy := by
  simp [State.mramBusy]

/-- With the key and GO, an accepted write recognises a source 3. -/
theorem exec_hostSoftReset_keyed {s : State} {who : Initiator} {v : Word} (hacc : s.accepts who 0 GS_SOFT_RESET = true)
    (hk : GS_SOFT_RESET_KEY.get v = 0xA55A) (hg : GS_SOFT_RESET_GO.get v = 1) :
    exec (.hostSoftReset who v) s =
      .next (((s.touch who false).recognise { cause := 3, level := s.levelOf 3 } none).answer who rspOk 0) := by
  change Host.Outcome.next (s.write who 0 GS_SOFT_RESET fun t => t.softReset v) = _
  rw [State.write_accepts hacc]
  simp [State.softReset, hk, hg, State.levelOf_touch]

/-- With another key, an accepted write raises SOFT_KEY_BAD. -/
theorem exec_hostSoftReset_badKey {s : State} {who : Initiator} {v : Word} (hacc : s.accepts who 0 GS_SOFT_RESET = true)
    (hk : GS_SOFT_RESET_KEY.get v ≠ 0xA55A) :
    exec (.hostSoftReset who v) s = .next (((s.touch who false).raise 0 EV_GS_SOFT_KEY_BAD).answer who rspOk 0) := by
  change Host.Outcome.next (s.write who 0 GS_SOFT_RESET fun t => t.softReset v) = _
  rw [State.write_accepts hacc]
  simp [State.softReset, hk]

/-- An event raised shows in its status bit. -/
theorem State.event_raise (s : State) (p : Nat) {b : Nat} (hb : b < 32) : (s.raise p b).event p b = true := by
  unfold State.event
  rw [State.rd_raise, if_pos rfl, BitVec.getLsbD_or, BitVec.getLsbD_ofNat]
  simp [hb, Nat.testBit_shiftLeft]

theorem quiet.br {s t : State} (h : quiet s t) : t.br = s.br := by
  obtain ⟨_, _, _, rfl⟩ := h.exists; rfl

/-- What differs in the answers and the packs may differ in the sources and the bridge too. -/
theorem quiet.beside_br {s t : State} (h : quiet { s with ans := t.ans, scan := t.scan } t) :
    quiet { s with ans := t.ans, scan := t.scan, faultQ := t.faultQ, br := t.br } t := by
  have br : t.br = s.br := h.br
  rw [br]; exact h

/-- Settles O19: the source is recognised in the state the access leaves (R26), where it is asserted, waits behind the MRAM write (R78) or
is absorbed (R76); the levels of source 3 are L0 to L2 (R66). -/
theorem softResetNeedsItsKey : Obligations.SoftResetNeedsItsKey := by
  refine ⟨fun s who v hacc hk hg hq hb => ?_, fun s who v hacc hk hg hq hd hb => ?_, fun s who v hacc hk => ?_,
    fun s who v hacc hk hg hq => ?_⟩
  · have hl : s.levelOf 3 < 3 := s.levelOf_hub (by decide)
    have asserts := State.recognise_asserts (s := s.touch who false) (r := { cause := 3, level := s.levelOf 3 }) (x := none)
      (by simpa using hq) hl ((State.mramBusy_touch ..).trans hb)
    have h := ((s.touch who false).assertReset_inReset { cause := 3, level := s.levelOf 3 }).answer who rspOk 0
    refine ⟨_, exec_hostSoftReset_keyed hacc hk hg, ?_⟩
    rw [asserts]
    exact ⟨h.seq, h.cause_word (by decide) (by omega), by simpa using h.stampLo, h.core, by simp⟩
  · have waits := State.recognise_waits (s := s.touch who false) (r := { cause := 3, level := s.levelOf 3 }) (x := none)
      (by simpa using hq) (by simpa using hd) (s.levelOf_hub (by decide)) ((State.mramBusy_touch ..).trans hb)
    refine ⟨_, exec_hostSoftReset_keyed hacc hk hg, ?_⟩
    rw [waits]
    simp
  · have wrote := Wrote.of (who := who) (s := s) (u := (s.touch who false).raise 0 EV_GS_SOFT_KEY_BAD) (l := [(0, EVT_STATUS)])
      ((onlyRegs.refl _ _).raise (by simp)) (quiet.refl _).raise
    exact ⟨_, exec_hostSoftReset_badKey hacc hk, State.event_raise _ 0 (by decide), by simp, wrote.regs.mono (by simp),
      wrote.rest.beside_br, wrote.ok⟩
  · obtain ⟨q, hs, h⟩ : ∃ q, s.gs.seq = some q ∧ _ := by simpa only [Option.any_eq_true] using hq
    have absorbed := State.recognise_absorbed (x := none) <| State.absorbs_of (s := s.touch who false)
      (r := { cause := 3, level := s.levelOf 3 }) (q := q) (by simpa using hs) (by simpa [imp_iff_not_or] using h)
    refine ⟨_, exec_hostSoftReset_keyed hacc hk hg, ?_⟩
    rw [absorbed]
    exact ⟨by simp, by simp, (s.touch_onlyRegs who false).of_rd fun _ _ => rfl⟩

/-! ### RESET_TWIN -/

/-- Taken with the enable and the link through its capability exchange, the message recognises a source 5; else it is only taken. -/
theorem exec_twinResetReceived_taken {s : State} {f : Frame} {rest : List Frame} (hf : s.tw.inbox = f :: rest)
    (hr : isRole [5] f = true) : exec .twinResetReceived s =
      .next (if s.fb 0 GS_RESET_CTRL_TWIN_EN && s.portActive .twin then
          ({ s with tw := { s.tw with inbox := rest } } : State).recognise { cause := 5, level := s.levelOf 5 } none
        else { s with tw := { s.tw with inbox := rest } }) := by
  have taken : s.twinTake (isRole [5]) = some (f, { s with tw := { s.tw with inbox := rest } }) := by simp [State.twinTake, hf, hr]
  change execTwinResetReceived s = _
  unfold execTwinResetReceived
  rw [taken]
  rfl

/-- With another message first, or none, nothing is taken. -/
theorem exec_twinResetReceived_awaited {s : State} (h : awaits s (isRole [5]) = true) : exec .twinResetReceived s = .next s := by
  have none_taken : s.twinTake (isRole [5]) = none := by
    unfold State.twinTake
    cases hi : s.tw.inbox with
    | nil => rfl
    | cons f rest =>
      have other : isRole [5] f = false := by simpa [awaits, hi] using h
      simp [other]
  change execTwinResetReceived s = _
  unfold execTwinResetReceived
  rw [none_taken]

/-- Settles O59: a message taken with both conditions recognises its source, which outside any reset and any MRAM write is asserted
(`State.recognise_asserts`, R76). -/
theorem twinCommandedResetNeedsEnable : Obligations.TwinCommandedResetNeedsEnable := by
  refine ⟨fun s f rest hf hr hoff => ?_, fun s h => ⟨s, exec_twinResetReceived_awaited h, rfl⟩, fun s f rest hf hr hen hact => ?_⟩
  · have off : (s.fb 0 GS_RESET_CTRL_TWIN_EN && s.portActive .twin) = false := by obtain h | h := hoff <;> simp [h]
    exact ⟨_, exec_twinResetReceived_taken hf hr, by rw [off]; rfl⟩
  · refine ⟨_, (exec_twinResetReceived_taken hf hr).trans (by rw [hen, hact]; rfl), rfl, fun ⟨hq, hb, hl⟩ => ?_⟩
    have asserts := State.recognise_asserts (s := { s with tw := { s.tw with inbox := rest } })
      (r := { cause := 5, level := s.levelOf 5 }) (x := none) (by rw [hq]; rfl) (Nat.lt_succ_of_le hl) hb
    have h := State.assertReset_inReset { s with tw := { s.tw with inbox := rest } } { cause := 5, level := s.levelOf 5 }
    rw [asserts]
    exact ⟨h.seq, h.cause_word (by decide) (by omega), h.core⟩

end Sys2Proof.Machine
end

section
/-! TM_CTRL.JUMP (R328): the residual at 0, service time with it, and the jump carried out or refused. -/
namespace Sys2Proof.Machine

/-- RUNNING is a bit of PAGE_STATE, which an access does not touch (R26). -/
@[simp] theorem State.running_touch (s : State) (who : Initiator) (r : Bool) (p : Nat) : (s.touch who r).running p = s.running p := by
  simp only [State.running, State.fb, State.fg_touch s who r p PAGE_STATE_RUNNING (key_ready p)]

/-! ### The residual and service time (R324) -/

/-- A residual of 0 stays 0: it moves toward 0 and no further. -/
theorem State.resAt_of_res0_zero {s : State} (h : s.tm.res0 = 0) (u : Int) : s.resAt u = 0 := by
  simp [State.resAt, h]

/-- Without a residual, service time is the followed domain's time and the whole steps it has kept out. -/
theorem State.st48_of_res0_zero {s : State} (h : s.tm.res0 = 0) (u : Int) :
    s.st48 u = uns 48 ((s.domAt s.sel u + s.tm.stAdj) / timeG) := by
  rw [State.st48, State.stAt, State.resAt_of_res0_zero h, sub_zero]

/-! ### The jump -/

/-- An accepted jump while the scan unit is stopped sets the residual to 0 at the present instant. -/
theorem exec_tmJump_stopped {s : State} {who : Initiator} (hacc : s.accepts who 0x018 TM_CTRL = true) (hrun : s.running 0x01C = false) :
    exec (.tmJump who) s =
      .next ({ s.touch who false with tm := { s.tm with res0 := 0, anchor := s.now } }.answer who rspOk 0) := by
  change Host.Outcome.next (s.write who 0x018 TM_CTRL State.tmJump) = _
  rw [State.write_accepts hacc]
  simp [State.tmJump, State.now, hrun]

/-- An accepted jump while the scan unit runs raises JUMP_REFUSED. -/
theorem exec_tmJump_running {s : State} {who : Initiator} (hacc : s.accepts who 0x018 TM_CTRL = true) (hrun : s.running 0x01C = true) :
    exec (.tmJump who) s = .next (((s.touch who false).raise 0x018 EV_TM_JUMP_REFUSED).answer who rspOk 0) := by
  change Host.Outcome.next (s.write who 0x018 TM_CTRL State.tmJump) = _
  rw [State.write_accepts hacc]
  simp [State.tmJump, hrun]

/-- Settles O41, by whether the scan unit runs: stopped, the jump writes no register beside what the access itself may raise (R26);
running, it is left at JUMP_REFUSED. -/
theorem jumpSetsTheResidualToZero : Obligations.JumpSetsTheResidualToZero := by
  intro s who hacc
  cases hrun : s.running 0x01C with
  | false =>
    have untouched : onlyRegs [(0x01C, EVT_STATUS)] s (s.touch who false) := s.touch_onlyRegs who false
    refine ⟨_, exec_tmJump_stopped hacc hrun, fun _ => ⟨State.resAt_of_res0_zero rfl _, State.st48_of_res0_zero rfl _, rfl, rfl⟩,
      nofun, ?_⟩
    exact (untouched.of_regs rfl).mono (by simp)
  | true =>
    have raised : onlyRegs [(0x018, EVT_STATUS)] (s.touch who false) ((s.touch who false).raise 0x018 EV_TM_JUMP_REFUSED) :=
      (onlyRegs.refl _ _).raise (by simp)
    refine ⟨_, exec_tmJump_running hacc hrun, nofun, fun _ => ⟨by simp, State.event_raise _ 0x018 (by decide)⟩, ?_⟩
    exact (raised.touch.of_regs rfl).mono (by simp)

end Sys2Proof.Machine
end

section
set_option Elab.async false
/-! What every command keeps (Laws/Kept…), said over the commands: the canonical form of the stores. -/
namespace Sys2Proof.Machine

/-- A mask within another, from the masks' bits. -/
theorem Sub.of {m M : Nat} (h : m &&& M = m) : Sub m M := h

/-- The mask of every kind of page and every part. -/
def everyBit : Nat := 2 ^ 56 - 1

theorem everyBit_kind (k : Option Kind) : everyBit.testBit (kindBit k) = true :=
  Sub.bit (.of (by decide : kindMask &&& everyBit = kindMask)) (kindMask_bit k)

/-- From a state in canonical form a command answers one in canonical form: the lemmas of Laws/Kept…, by command. -/
theorem exec_kept (c : Instr) {b s t : State} {q : List Instr} (hs : Kept everyBit b q s) (e : exec c s = .next t) :
    Kept everyBit b q t := by
  cases c with
  | registerWrite who page off v => exact execRegisterWrite_kept hs (.of (by decide)) (everyBit_kind _) e
  | pageEnableWrite who page en readActive => exact execPageEnableWrite_kept hs (.of (by decide)) (everyBit_kind _) e
  | commit who page en readActive => exact execCommit_kept hs (.of (by decide)) (everyBit_kind _) e
  | abortCommit who page en readActive commit => exact execAbortCommit_kept hs (.of (by decide)) (everyBit_kind _) e
  | resetBlock who page others => exact execResetBlock_kept hs (.of (by decide)) (everyBit_kind _) e
  | evtForce who page v => exact execEvtForce_kept hs (.of (by decide)) (everyBit_kind _) e
  | commitPoint page => exact execCommitPoint_kept hs (.of (by decide)) (everyBit_kind _) e
  | blockReadyRise page => exact execBlockReadyRise_kept hs (.of (by decide)) (everyBit_kind _) e
  | blockStopPoint page => exact execBlockStopPoint_kept hs (.of (by decide)) (everyBit_kind _) e
  | readyVectorUpdate reg bit => exact execReadyVectorUpdate_kept hs (.of (by decide)) e
  | hostAccess addr write data be => exact execHostAccess_kept hs (.of (by decide)) e
  | hostControlBlockAccess addr write data be => exact execHostControlBlockAccess_kept hs (.of (by decide)) e
  | padResponderAccess addr write data => exact execPadResponderAccess_kept (x0 := addr) (x1 := write) (x2 := data) hs (.of (by decide)) e
  | spiFrame cmd addr data => exact execSpiFrame_kept hs (.of (by decide)) e
  | spiAbort cmd addr data => exact execSpiAbort_kept hs (.of (by decide)) e
  | canopyWrite who img word data be => exact execCanopyWrite_kept hs (.of (by decide)) e
  | canopyPackedWrite who img group word data be => exact execCanopyPackedWrite_kept hs (.of (by decide)) e
  | canopyPackedRead who img group word => exact execCanopyPackedRead_kept hs (.of (by decide)) e
  | resetNRelease straps => exact execResetNRelease_kept hs (.of (by decide)) e
  | hostSoftReset who v => exact execHostSoftReset_kept hs (.of (by decide)) e
  | wdogKick who v => exact execWdogKick_kept hs (.of (by decide)) e
  | thermalTrip tj => exact execThermalTrip_kept hs (.of (by decide)) e
  | thermalTripRelease tj straps => exact execThermalTripRelease_kept hs (.of (by decide)) e
  | clockLossRelease straps => exact execClockLossRelease_kept hs (.of (by decide)) e
  | supplyWarn supply => exact execSupplyWarn_kept hs (.of (by decide)) e
  | islandSyncRelease island => exact execIslandSyncRelease_kept hs (.of (by decide)) e
  | gsHoldSet who v => exact execGsHoldSet_kept hs (.of (by decide)) e
  | gsHoldRelease who v => exact execGsHoldRelease_kept hs (.of (by decide)) e
  | aonRead who => exact execAonRead_kept hs (.of (by decide)) e
  | fuseProgGo who v => exact execFuseProgGo_kept hs (.of (by decide)) e
  | fuseProgDone ok => exact execFuseProgDone_kept hs (.of (by decide)) e
  | tsReceived port lane inv cv bytes => exact execTsReceived_kept hs (.of (by decide)) e
  | deskewTimeout port => exact execDeskewTimeout_kept hs (.of (by decide)) e
  | capBlockReceived port bytes ending => exact execCapBlockReceived_kept hs (.of (by decide)) e
  | capxTimeout port => exact execCapxTimeout_kept hs (.of (by decide)) e
  | portEnterActive port => exact execPortEnterActive_kept hs (.of (by decide)) e
  | forceRetrain who port => exact execForceRetrain_kept hs (.of (by decide)) e
  | portEnWrite who port v => exact execPortEnWrite_kept hs (.of (by decide)) e
  | lnClrCnt who port => exact execLnClrCnt_kept hs (.of (by decide)) e
  | ccSend port => exact execCcSend_kept hs (.of (by decide)) e
  | ccReceived port fills deskew cv => exact execCcReceived_kept hs (.of (by decide)) e
  | elasticErr port => exact execElasticErr_kept hs (.of (by decide)) e
  | laneFault port lane cause => exact execLaneFault_kept hs (.of (by decide)) e
  | urgentSubstTimeout port => exact execUrgentSubstTimeout_kept hs (.of (by decide)) e
  | laneErrThreshold port lane => exact execLaneErrThreshold_kept hs (.of (by decide)) e
  | lnSpareCmd who port v => exact execLnSpareCmd_kept hs (.of (by decide)) e
  | laneCtrlRequestReceived port body => exact execLaneCtrlRequestReceived_kept hs (.of (by decide)) e
  | laneCtrlUrgentReceived port body => exact execLaneCtrlUrgentReceived_kept hs (.of (by decide)) e
  | spareCompareDone port => exact execSpareCompareDone_kept hs (.of (by decide)) e
  | laneCtrlConfirmReceived port body => exact execLaneCtrlConfirmReceived_kept hs (.of (by decide)) e
  | laneCtrlCancelReceived port body => exact execLaneCtrlCancelReceived_kept (x1 := body) hs (.of (by decide)) e
  | laneCtrlRefuseReceived port body => exact execLaneCtrlRefuseReceived_kept (x1 := body) hs (.of (by decide)) e
  | spareRequestTimeout port => exact execSpareRequestTimeout_kept hs (.of (by decide)) e
  | ringFrameReceive port bytes ending sub => exact execRingFrameReceive_kept hs (.of (by decide)) e
  | egressFrameStart port sub => exact execEgressFrameStart_kept hs (.of (by decide)) e
  | mergePreempt port sub => exact execMergePreempt_kept hs (.of (by decide)) e
  | creditReceived port bytes => exact execCreditReceived_kept hs (.of (by decide)) e
  | creditSend port => exact execCreditSend_kept hs (.of (by decide)) e
  | guySend port => exact execGuySend_kept hs (.of (by decide)) e
  | guyReceived port src seq wrapFlags => exact execGuyReceived_kept hs (.of (by decide)) e
  | guySilenceTimeout port => exact execGuySilenceTimeout_kept hs (.of (by decide)) e
  | unwrap port => exact execUnwrap_kept hs (.of (by decide)) e
  | topoReceived port src dir wraps hops flags => exact execTopoReceived_kept (x0 := port) hs (.of (by decide)) e
  | fenceReceived port cls src fseq kind => exact execFenceReceived_kept (x2 := src) (x3 := fseq) (x4 := kind) hs (.of (by decide)) e
  | holdExpired cls src => exact execHoldExpired_kept hs (.of (by decide)) e
  | ringGraceExpired port => exact execRingGraceExpired_kept hs (.of (by decide)) e
  | resetSend who v => exact execResetSend_kept hs (.of (by decide)) e
  | remoteResetReceived src cred => exact execRemoteResetReceived_kept hs (.of (by decide)) e
  | rpClrCnt who port => exact execRpClrCnt_kept hs (.of (by decide)) e
  | coreHeadCellWrite p => exact execCoreHeadCellWrite_kept hs (.of (by decide)) e
  | coreCellWrite p => exact execCoreCellWrite_kept hs (.of (by decide)) e
  | coreDeferredWrite p => exact execCoreDeferredWrite_kept hs (.of (by decide)) e
  | frameVerdict p good => exact execFrameVerdict_kept hs (.of (by decide)) e
  | coreCellRead p ecc => exact execCoreCellRead_kept hs (.of (by decide)) e
  | copyEnd p => exact execCopyEnd_kept hs (.of (by decide)) e
  | bankEccThreshold bank => exact execBankEccThreshold_kept hs (.of (by decide)) e
  | coreSpareCmd who v => exact execCoreSpareCmd_kept hs (.of (by decide)) e
  | coreClrCnt who => exact execCoreClrCnt_kept hs (.of (by decide)) e
  | qFlush who page v => exact execQFlush_kept hs (.of (by decide)) e
  | flushPoint page => exact execFlushPoint_kept hs (.of (by decide)) e
  | queueGraceExpired p => exact execQueueGraceExpired_kept hs (.of (by decide)) e
  | qClrCnt who page => exact execQClrCnt_kept hs (.of (by decide)) e
  | mbPush who m v => exact execMbPush_kept hs (.of (by decide)) e
  | mbPopTake who m ecc => exact execMbPopTake_kept hs (.of (by decide)) e
  | qrpTake who page ecc => exact execQrpTake_kept hs (.of (by decide)) e
  | receiverDetectProbe pitch term => exact execReceiverDetectProbe_kept hs (.of (by decide)) e
  | cardTrainingFrame pitch bytes sample inv mark => exact execCardTrainingFrame_kept hs (.of (by decide)) e
  | cardTrainTimeout pitch => exact execCardTrainTimeout_kept hs (.of (by decide)) e
  | cardLosPersist pitch => exact execCardLosPersist_kept hs (.of (by decide)) e
  | loopMeasureDone pitch => exact execLoopMeasureDone_kept hs (.of (by decide)) e
  | sidebandBlockReceived pitch bytes anyBad => exact execSidebandBlockReceived_kept hs (.of (by decide)) e
  | rollcallTimeout pitch => exact execRollcallTimeout_kept hs (.of (by decide)) e
  | cardFrameReceived pitch bytes mark => exact execCardFrameReceived_kept hs (.of (by decide)) e
  | cardFrameSend pitch => exact execCardFrameSend_kept hs (.of (by decide)) e
  | superframeBoundary pitch live => exact execSuperframeBoundary_kept hs (.of (by decide)) e
  | safeMismatch pitch => exact execSafeMismatch_kept hs (.of (by decide)) e
  | clRetrain who pitch => exact execClRetrain_kept hs (.of (by decide)) e
  | clClrCnt who pitch => exact execClClrCnt_kept hs (.of (by decide)) e
  | ucodeLoadDone cluster => exact execUcodeLoadDone_kept hs (.of (by decide)) e
  | engineFrameReport pitch chan parity => exact execEngineFrameReport_kept hs (.of (by decide)) e
  | engineGap pitch chan => exact execEngineGap_kept hs (.of (by decide)) e
  | asyncIdleGap pitch chan => exact execAsyncIdleGap_kept hs (.of (by decide)) e
  | asyncTxStart pitch chan => exact execAsyncTxStart_kept hs (.of (by decide)) e
  | asyncDeLagExpire pitch chan => exact execAsyncDeLagExpire_kept hs (.of (by decide)) e
  | recordFlushTimeout pitch chan => exact execRecordFlushTimeout_kept hs (.of (by decide)) e
  | txRecordReceived pitch => exact execTxRecordReceived_kept hs (.of (by decide)) e
  | syCmdGo who engine => exact execSyCmdGo_kept hs (.of (by decide)) e
  | syncTrigger pitch chan => exact execSyncTrigger_kept hs (.of (by decide)) e
  | syncTransferEnd pitch chan => exact execSyncTransferEnd_kept hs (.of (by decide)) e
  | discDebounceAccept pitch chan => exact execDiscDebounceAccept_kept hs (.of (by decide)) e
  | enDiCountTake who engine => exact execEnDiCountTake_kept hs (.of (by decide)) e
  | diOutWrite who engine v => exact execDiOutWrite_kept hs (.of (by decide)) e
  | pwmPeriodStart pitch chan => exact execPwmPeriodStart_kept hs (.of (by decide)) e
  | discSchedItem pitch chan => exact execDiscSchedItem_kept hs (.of (by decide)) e
  | enModeWrite who engine v => exact execEnModeWrite_kept hs (.of (by decide)) e
  | enClrCnt who engine => exact execEnClrCnt_kept hs (.of (by decide)) e
  | ecMigCmd who cluster v => exact execEcMigCmd_kept hs (.of (by decide)) e
  | ecMigUrgent who cluster v => exact execEcMigUrgent_kept hs (.of (by decide)) e
  | migrationSwitch cluster => exact execMigrationSwitch_kept hs (.of (by decide)) e
  | migrationTimeout cluster => exact execMigrationTimeout_kept hs (.of (by decide)) e
  | ecClrCnt who cluster => exact execEcClrCnt_kept hs (.of (by decide)) e
  | pbusMessageReceived pitch chan => exact execPbusMessageReceived_kept hs (.of (by decide)) e
  | pbAbort who engine => exact execPbAbort_kept hs (.of (by decide)) e
  | pbFlush who engine => exact execPbFlush_kept hs (.of (by decide)) e
  | pbRecover who engine => exact execPbRecover_kept hs (.of (by decide)) e
  | routedFrameReceived pitch => exact execRoutedFrameReceived_kept hs (.of (by decide)) e
  | ttBasicCycleStart matrix => exact execTtBasicCycleStart_kept hs (.of (by decide)) e
  | ttColumnStart matrix => exact execTtColumnStart_kept hs (.of (by decide)) e
  | ttRefTimeout matrix => exact execTtRefTimeout_kept hs (.of (by decide)) e
  | sampleSubmit who v => exact execSampleSubmit_kept hs (.of (by decide)) e
  | domainTimeout dom => exact execDomainTimeout_kept hs (.of (by decide)) e
  | tmJump who => exact execTmJump_kept hs (.of (by decide)) e
  | tmSnap who => exact execTmSnap_kept hs (.of (by decide)) e
  | tmClrCnt who => exact execTmClrCnt_kept hs (.of (by decide)) e
  | syncOriginate dom => exact execSyncOriginate_kept hs (.of (by decide)) e
  | pdRequestSend port sub => exact execPdRequestSend_kept hs (.of (by decide)) e
  | pdReqReceived port bytes turn => exact execPdReqReceived_kept hs (.of (by decide)) e
  | pdRespReceived port bytes sub => exact execPdRespReceived_kept hs (.of (by decide)) e
  | scOpubSend who v => exact execScOpubSend_kept hs (.of (by decide)) e
  | scClrCnt who => exact execScClrCnt_kept hs (.of (by decide)) e
  | transactionTimeout tag => exact execTransactionTimeout_kept hs (.of (by decide)) e
  | tagQuarantineEnd tag => exact execTagQuarantineEnd_kept hs (.of (by decide)) e
  | requestResend tag => exact execRequestResend_kept hs (.of (by decide)) e
  | slotExpired slot => exact execSlotExpired_kept hs (.of (by decide)) e
  | fenceStart who win v => exact execFenceStart_kept hs (.of (by decide)) e
  | signalSend who v => exact execSignalSend_kept hs (.of (by decide)) e
  | txfSend who v => exact execTxfSend_kept hs (.of (by decide)) e
  | brClrCnt who => exact execBrClrCnt_kept hs (.of (by decide)) e
  | twinPortFrameReceive bytes ending => exact execTwinPortFrameReceive_kept hs (.of (by decide)) e
  | twResync who => exact execTwResync_kept hs (.of (by decide)) e
  | twSwap who => exact execTwSwap_kept hs (.of (by decide)) e
  | pitchQuiet pitch => exact execPitchQuiet_kept hs (.of (by decide)) e
  | quietHoldTimeout pitch => exact execQuietHoldTimeout_kept hs (.of (by decide)) e
  | twRelease who => exact execTwRelease_kept hs (.of (by decide)) e
  | twResetTwin who => exact execTwResetTwin_kept hs (.of (by decide)) e
  | twClrCnt who => exact execTwClrCnt_kept hs (.of (by decide)) e
  | supervisorSample smp => exact execSupervisorSample_kept hs (.of (by decide)) e
  | presenceChange pitch pres seat => exact execPresenceChange_kept hs (.of (by decide)) e
  | insertConditionMet pitch => exact execInsertConditionMet_kept hs (.of (by decide)) e
  | precheckDone pitch => exact execPrecheckDone_kept hs (.of (by decide)) e
  | rampReached pitch => exact execRampReached_kept hs (.of (by decide)) e
  | rampTimeout pitch => exact execRampTimeout_kept hs (.of (by decide)) e
  | enhanceDone pitch => exact execEnhanceDone_kept hs (.of (by decide)) e
  | powerGoodGiven pitch => exact execPowerGoodGiven_kept hs (.of (by decide)) e
  | busWindowFault pitch => exact execBusWindowFault_kept hs (.of (by decide)) e
  | seatOpenExtract pitch => exact execSeatOpenExtract_kept hs (.of (by decide)) e
  | instantTrip pitch => exact execInstantTrip_kept hs (.of (by decide)) e
  | breakerTrip pitch => exact execBreakerTrip_kept hs (.of (by decide)) e
  | coolDone pitch => exact execCoolDone_kept hs (.of (by decide)) e
  | clearLatch who pitch => exact execClearLatch_kept hs (.of (by decide)) e
  | attemptsClear pitch => exact execAttemptsClear_kept hs (.of (by decide)) e
  | rdsMeasure pitch => exact execRdsMeasure_kept hs (.of (by decide)) e
  | rdsCapture who pitch => exact execRdsCapture_kept hs (.of (by decide)) e
  | ppClrCnt who pitch => exact execPpClrCnt_kept hs (.of (by decide)) e
  | feedQualified feed => exact execFeedQualified_kept hs (.of (by decide)) e
  | feedLost feed => exact execFeedLost_kept hs (.of (by decide)) e
  | disturbanceEnd feed => exact execDisturbanceEnd_kept hs (.of (by decide)) e
  | disturbEntryRead who entry => exact execDisturbEntryRead_kept hs (.of (by decide)) e
  | fdClrCnt who => exact execFdClrCnt_kept hs (.of (by decide)) e
  | scratchpadAccess who addr write data be => exact execScratchpadAccess_kept hs (.of (by decide)) e
  | bankHandover who v => exact execBankHandover_kept hs (.of (by decide)) e
  | bankPowerOn who v => exact execBankPowerOn_kept hs (.of (by decide)) e
  | bankPowerRetention who v => exact execBankPowerRetention_kept hs (.of (by decide)) e
  | bankPowerOff who v => exact execBankPowerOff_kept hs (.of (by decide)) e
  | bankDrainDone bank => exact execBankDrainDone_kept hs (.of (by decide)) e
  | bankInitDone bank => exact execBankInitDone_kept hs (.of (by decide)) e
  | spRowEccThreshold bank row => exact execSpRowEccThreshold_kept hs (.of (by decide)) e
  | marchGo who v => exact execMarchGo_kept hs (.of (by decide)) e
  | marchAbort who => exact execMarchAbort_kept hs (.of (by decide)) e
  | marchRowStep fails => exact execMarchRowStep_kept hs (.of (by decide)) e
  | marchRunDone mem failing => exact execMarchRunDone_kept hs (.of (by decide)) e
  | rowRepair bank row => exact execRowRepair_kept hs (.of (by decide)) e
  | memClrCnt who => exact execMemClrCnt_kept hs (.of (by decide)) e
  | ftRelease who v => exact execFtRelease_kept hs (.of (by decide)) e
  | ftClrCnt who => exact execFtClrCnt_kept hs (.of (by decide)) e
  | thermalWarn tj => exact execThermalWarn_kept hs (.of (by decide)) e
  | sentinelMeasure m => exact execSentinelMeasure_kept hs (.of (by decide)) e
  | wrCapture who => exact execWrCapture_kept hs (.of (by decide)) e
  | wrStore who => exact execWrStore_kept hs (.of (by decide)) e
  | blDone tj means ok => exact execBlDone_kept hs (.of (by decide)) e
  | wearClr who => exact execWearClr_kept hs (.of (by decide)) e
  | wrClrCnt who => exact execWrClrCnt_kept hs (.of (by decide)) e
  | referenceFail ref drift => exact execReferenceFail_kept hs (.of (by decide)) e
  | wrRefCmd who v => exact execWrRefCmd_kept hs (.of (by decide)) e
  | pllLockLoss pll spare => exact execPllLockLoss_kept hs (.of (by decide)) e
  | pllRelock pll spare => exact execPllRelock_kept hs (.of (by decide)) e
  | wrPllCmd who v => exact execWrPllCmd_kept hs (.of (by decide)) e
  | updClear who v => exact execUpdClear_kept hs (.of (by decide)) e
  | updWrite who v => exact execUpdWrite_kept hs (.of (by decide)) e
  | updWriteDone ok => exact execUpdWriteDone_kept hs (.of (by decide)) e
  | updVerify who v => exact execUpdVerify_kept hs (.of (by decide)) e
  | updArm who v => exact execUpdArm_kept hs (.of (by decide)) e
  | updArmNow who v => exact execUpdArmNow_kept hs (.of (by decide)) e
  | updDisarm who v => exact execUpdDisarm_kept hs (.of (by decide)) e
  | updWriteArea who v => exact execUpdWriteArea_kept hs (.of (by decide)) e
  | updConfirm who => exact execUpdConfirm_kept hs (.of (by decide)) e
  | updateCommit bad => exact execUpdateCommit_kept hs (.of (by decide)) e
  | upClrCnt who => exact execUpClrCnt_kept hs (.of (by decide)) e
  | powerOnResetRelease straps => exact execPowerOnResetRelease_kept hs (.of (by decide)) e
  | controlFrameReceived ok => exact execControlFrameReceived_kept hs (.of (by decide)) e
  | crystalOscillationChange on => exact execCrystalOscillationChange_kept hs (.of (by decide)) e
  | hostAdsDuringAccess => exact execHostAdsDuringAccess_kept hs (.of (by decide)) e
  | hostAccessAbandon => exact execHostAccessAbandon_kept hs (.of (by decide)) e
  | powerOnReset => exact execPowerOnReset_kept hs (.of (by decide)) e
  | resetNRecognised => exact execResetNRecognised_kept hs (.of (by decide)) e
  | watchdogExpire => exact execWatchdogExpire_kept hs (.of (by decide)) e
  | clockLoss => exact execClockLoss_kept hs (.of (by decide)) e
  | resetAssertDeferred => exact execResetAssertDeferred_kept hs (.of (by decide)) e
  | optFuseRead => exact execOptFuseRead_kept hs (.of (by decide)) e
  | mramWakeDone => exact execMramWakeDone_kept hs (.of (by decide)) e
  | optVerify => exact execOptVerify_kept hs (.of (by decide)) e
  | optClocksLocked => exact execOptClocksLocked_kept hs (.of (by decide)) e
  | optApplyRecord => exact execOptApplyRecord_kept hs (.of (by decide)) e
  | optEqualize => exact execOptEqualize_kept hs (.of (by decide)) e
  | islandReleasePosition => exact execIslandReleasePosition_kept hs (.of (by decide)) e
  | topoSend => exact execTopoSend_kept hs (.of (by decide)) e
  | topoAgeTick => exact execTopoAgeTick_kept hs (.of (by decide)) e
  | bankRowCopy ecc => exact execBankRowCopy_kept hs (.of (by decide)) (show execBankRowCopy ecc s = .next t from e)
  | bankReplaceDone => exact execBankReplaceDone_kept hs (.of (by decide)) e
  | routeLookupBegin => exact execRouteLookupBegin_kept hs (.of (by decide)) e
  | routeLookupDone => exact execRouteLookupDone_kept hs (.of (by decide)) e
  | stAutoSwitch => exact execStAutoSwitch_kept hs (.of (by decide)) e
  | slewDone => exact execSlewDone_kept hs (.of (by decide)) e
  | epochBoundary => exact execEpochBoundary_kept hs (.of (by decide)) e
  | latchDone => exact execLatchDone_kept hs (.of (by decide)) e
  | guardStart => exact execGuardStart_kept hs (.of (by decide)) e
  | scanFrameTake => exact execScanFrameTake_kept hs (.of (by decide)) e
  | forwardRequestSend => exact execForwardRequestSend_kept hs (.of (by decide)) e
  | incomingRequest => exact execIncomingRequest_kept hs (.of (by decide)) e
  | completionReceived => exact execCompletionReceived_kept hs (.of (by decide)) e
  | lateWrReceived => exact execLateWrReceived_kept hs (.of (by decide)) e
  | farFenceComplete => exact execFarFenceComplete_kept hs (.of (by decide)) e
  | signalReceived => exact execSignalReceived_kept hs (.of (by decide)) e
  | txfWriteDone => exact execTxfWriteDone_kept hs (.of (by decide)) e
  | twinStartWaitExpired => exact execTwinStartWaitExpired_kept hs (.of (by decide)) e
  | tguySend => exact execTguySend_kept hs (.of (by decide)) e
  | tguyReceived => exact execTguyReceived_kept hs (.of (by decide)) e
  | twinGuyTimeout => exact execTwinGuyTimeout_kept hs (.of (by decide)) e
  | mirrorReceived => exact execMirrorReceived_kept hs (.of (by decide)) e
  | mackSend => exact execMackSend_kept hs (.of (by decide)) e
  | mackReceived => exact execMackReceived_kept hs (.of (by decide)) e
  | qcopyReceived => exact execQcopyReceived_kept hs (.of (by decide)) e
  | mirrorPeriodicEntry => exact execMirrorPeriodicEntry_kept hs (.of (by decide)) e
  | swapProposeReceived => exact execSwapProposeReceived_kept hs (.of (by decide)) e
  | swapAnswerReceived => exact execSwapAnswerReceived_kept hs (.of (by decide)) e
  | swapAnswerTimeout => exact execSwapAnswerTimeout_kept hs (.of (by decide)) e
  | periodicSwapDue => exact execPeriodicSwapDue_kept hs (.of (by decide)) e
  | releaseReceived => exact execReleaseReceived_kept hs (.of (by decide)) e
  | claimDecision => exact execClaimDecision_kept hs (.of (by decide)) e
  | twinResetReceived => exact execTwinResetReceived_kept hs (.of (by decide)) e
  | supvWriteArrive => exact execSupvWriteArrive_kept hs (.of (by decide)) e
  | supvLinkDown => exact execSupvLinkDown_kept hs (.of (by decide)) e
  | supvLinkUp => exact execSupvLinkUp_kept hs (.of (by decide)) e
  | roleToSupervisor => exact execRoleToSupervisor_kept hs (.of (by decide)) e
  | changeoverDeadEnd => exact execChangeoverDeadEnd_kept hs (.of (by decide)) e
  | changeoverEnd => exact execChangeoverEnd_kept hs (.of (by decide)) e
  | faultEvent => exact execFaultEvent_kept hs (.of (by decide)) e
  | errPulseEnd => exact execErrPulseEnd_kept hs (.of (by decide)) e
  | updVerifyDone => exact execUpdVerifyDone_kept hs (.of (by decide)) e
  | twinUpdatePoll => exact execTwinUpdatePoll_kept hs (.of (by decide)) e
  | strikeDone => exact execStrikeDone_kept hs (.of (by decide)) e
  | trialExpired => exact execTrialExpired_kept hs (.of (by decide)) e
  | twinStrikeTimeout => exact execTwinStrikeTimeout_kept hs (.of (by decide)) e
  | cardRelayStart => exact execCardRelayStart_kept hs (.of (by decide)) e
  | cardWaitExpired => exact execCardWaitExpired_kept hs (.of (by decide)) e
  | mstateReturnSynced => exact execMstateReturnSynced_kept hs (.of (by decide)) e
  | switchoverRequestRepeat => exact execSwitchoverRequestRepeat_kept hs (.of (by decide)) e

/-- A cycle of the local counter touches no store, and its count wraps (R316). -/
theorem tick_canonical {s : State} (h : s.canonical = true) : (tick s).canonical = true := by
  have aon (u : State) (hu : u.canonical = true) : (aonTick u).canonical = true := by
    unfold aonTick
    split
    · exact hu
    · dsimp only; split <;> exact hu
  refine aon _ ?_
  simp only [State.canonical, Bool.and_eq_true, decide_eq_true_eq] at h ⊢
  obtain ⟨stores, -⟩ := h
  exact ⟨stores, Nat.mod_lt _ (by decide)⟩

/-- Settles O4: a command by `exec_kept`, and a cycle without one by `tick_canonical`. -/
theorem everyStepKeepsCanonicalForm : Obligations.EveryStepKeepsCanonicalForm := by
  intro s t hs e
  unfold step at e
  split at e
  · injection e with e
    exact e ▸ tick_canonical hs
  · next c cs _ =>
    have behind : ({ s with pending := cs } : State).canonical = true := hs
    exact (exec_kept c (State.canonical_kept behind) e).canonical

/-- Settles O1. -/
theorem stepRunsTheFrontCommand : Obligations.StepRunsTheFrontCommand := by
  intro s c cs h
  unfold step
  rw [h]

/-! ### A cycle without a command (R169, R316) -/

/-- The bank read in the cycle before, as the cycle counts on: its port read is over (R169), which is a change of the core. -/
def afterRead : State := { core := { readBank := some 0 } }

/-- Refutes O2: a cycle ends the core's port read of the cycle before (R169), so that beside LC and the AON count `core` differs. -/
theorem not_idleStepCountsACycle : ¬ Obligations.IdleStepCountsACycle := by
  rintro ⟨onlyCounts, -⟩
  obtain ⟨t, e, -, same⟩ := onlyCounts afterRead rfl
  have cleared : t = tick afterRead := by injection e with e; exact e.symm
  have kept : t.core.readBank = some 0 := congrArg (fun u : State => u.core.readBank) same
  rw [cleared] at kept
  exact absurd kept (by decide)

/-! ### Areas (R314) -/

/-- An engine page whose commit pends, beside a matrix page that shows RUNNING without an owner that runs. -/
def commitBesideMatrix : State := { regs := [(regKey 0x100 PAGE_STATE, 0x11), (regKey 0x240 PAGE_STATE, 0x3)] }

/-- The commit point of the engine page has the matrix pages follow (`State.smFollow`): RUNNING of page 0x240 falls. -/
theorem commitPoint_moves_matrix : (match exec (.commitPoint 0x100) commitBesideMatrix with
    | .next t => t.rd 0x240 PAGE_STATE
    | _ => commitBesideMatrix.rd 0x240 PAGE_STATE) ≠ commitBesideMatrix.rd 0x240 PAGE_STATE := by decide +kernel

/-- Refutes O8: COMMIT_POINT of an engine page writes PAGE_STATE of a matrix page (R314), a kind that the area of COMMIT_POINT does not
name for an engine page. -/
theorem not_commandStaysInItsArea : ¬ Obligations.CommandStaysInItsArea := by
  intro stays
  obtain ⟨t, e⟩ : ∃ t, exec (.commitPoint 0x100) commitBesideMatrix = .next t := ⟨_, rfl⟩
  have within := (stays _ _ t (by decide +kernel) e).regs 0x240 PAGE_STATE (by decide)
  have moves := commitPoint_moves_matrix
  rw [e] at moves
  exact moves within

/-! ### Completion (R222, R236) -/

/-- Settles O7: each command's meaning is a next state, but for the three that check the length of the byte list first. -/
theorem everyCommandCompletesOrIsMalformed : Obligations.EveryCommandCompletesOrIsMalformed := by
  refine ⟨fun c s h => ?_, fun c s h => ?_⟩
  · cases c with
    | cardTrainingFrame => exact ⟨_, if_neg (by simpa [malformed] using h)⟩
    | cardFrameReceived => exact ⟨_, if_neg (by simpa [malformed] using h)⟩
    | sidebandBlockReceived => exact ⟨_, if_neg (by simpa [malformed] using h)⟩
    | _ => exact ⟨_, rfl⟩
  · cases c with
    | cardTrainingFrame => exact if_pos (by simpa [malformed] using h)
    | cardFrameReceived => exact if_pos (by simpa [malformed] using h)
    | sidebandBlockReceived => exact if_pos (by simpa [malformed] using h)
    | _ => cases h

/-! ### The state after reset -/

/-- Settles O5. -/
theorem resetIsCanonical : Obligations.ResetIsCanonical := ⟨rfl, rfl⟩

/-- Settles O6: no register is listed after reset, so each reads its reset value; those of the tables are evaluated. -/
theorem powerOnStateHoldsResetValues : Obligations.PowerOnStateHoldsResetValues :=
  ⟨⟨fun _ _ => rfl, rfl, rfl, rfl⟩, by decide +kernel⟩

end Sys2Proof.Machine
end

section
set_option Elab.async false
/-! Service time through the commands of page 0x018 (R319-R326): what a command that changes neither the selection nor the rate of a domain
leaves of it, and how the operations that do change them keep it continuous at the present instant. -/
namespace Sys2Proof.Machine

/-! ### What service time reads -/

/-- The registers of page 0x018 that service time depends on: both RATEs, SEL_ACTIVE and SLEW. -/
def timeOffs : List Nat := [TM_D_RATE, TM_D_RATE + 0x40, TM_ST_STATUS, TM_ST_CFG]

/-- SEL_ACTIVE is one bit. -/
theorem State.sel_le (s : State) : s.sel = 0 ∨ s.sel = 1 := by
  have : s.sel < 2 := Fld.get_lt ..
  omega

theorem State.resAt_congr {s t : State} (ht : t.tm = s.tm) (hf : t.fg 0x018 TM_ST_CFG_SLEW = s.fg 0x018 TM_ST_CFG_SLEW) (u : Int) :
    t.resAt u = s.resAt u := by
  unfold State.resAt
  rw [ht, hf]

theorem State.domAt_congr {s t : State} {k : Nat} (hd : t.dom k = s.dom k) (hr : t.rate k = s.rate k) (u : Int) :
    t.domAt k u = s.domAt k u := by
  unfold State.domAt
  rw [hd, hr]

/-- Service time at any instant, from what it reads. -/
theorem State.stAt_congr {s t : State} (ht : t.tm = s.tm) (hr : ∀ o ∈ timeOffs, t.rd 0x018 o = s.rd 0x018 o) :
    t.sel = s.sel ∧ ∀ u, t.stAt u = s.stAt u := by
  have fg (f : Fld) (hf : f.off ∈ timeOffs) : t.fg 0x018 f = s.fg 0x018 f := by simp only [State.fg, hr _ hf]
  have sel : t.sel = s.sel := fg TM_ST_STATUS_SEL_ACTIVE (by decide)
  have rate : t.rate s.sel = s.rate s.sel := by
    unfold State.rate
    rw [fg]
    obtain h | h := s.sel_le <;> (rw [h]; decide)
  refine ⟨sel, fun u => ?_⟩
  have dom : t.dom s.sel = s.dom s.sel := by unfold State.dom; rw [ht]
  unfold State.stAt
  rw [sel, State.domAt_congr dom rate, State.resAt_congr ht (fg TM_ST_CFG_SLEW (by decide)), ht]

/-- From `s` to `t`, the local counter and the selection stay, service time is at the present instant what it was, and page 0x018 alone has
changed. -/
structure TimeKept (s t : State) : Prop where
  lc : t.lc = s.lc
  sel : t.sel = s.sel
  time : t.stAt t.now = s.stAt s.now
  pages : onlyPages [0x018] s t

namespace TimeKept

variable {s t u : State}

theorem refl (s : State) : TimeKept s s := ⟨rfl, rfl, rfl, onlyPages.refl _ _⟩

theorem trans (h : TimeKept s t) (k : TimeKept t u) : TimeKept s u :=
  ⟨k.lc.trans h.lc, k.sel.trans h.sel, k.time.trans h.time, h.pages.trans k.pages⟩

theorem ite {c : Prop} [Decidable c] (ht : TimeKept s t) (hu : TimeKept s u) : TimeKept s (if c then t else u) := by
  split <;> assumption

/-- What service time reads is as it was. -/
theorem of_rd (hl : t.lc = s.lc) (ht : t.tm = s.tm) (hr : ∀ o ∈ timeOffs, t.rd 0x018 o = s.rd 0x018 o)
    (hp : onlyPages [0x018] s t) : TimeKept s t := by
  obtain ⟨sel, st⟩ := State.stAt_congr ht hr
  refine ⟨hl, sel, ?_, hp⟩
  rw [st, State.now, State.now, hl]

theorem of_same (h : TimeKept s t) (hl : u.lc = t.lc) (ht : u.tm = t.tm) (hr : u.regs = t.regs) : TimeKept s u :=
  h.trans <| of_rd hl ht (fun _ _ => by simp only [State.rd, hr]) ((onlyPages.refl _ _).of_regs hr)

/-- A write of a register that service time does not read. -/
theorem wr (h : TimeKept s t) {o : Nat} {v : Word} (ho : ∀ r ∈ timeOffs, regKey 0x018 r ≠ regKey 0x018 o) :
    TimeKept s (t.wr 0x018 o v) :=
  h.trans <| of_rd rfl rfl (fun r hr => (State.rd_wr ..).trans (if_neg (ho r hr))) ((onlyPages.refl _ _).wr (by simp))

/-- A field of a domain's block that service time does not read, for either domain. -/
theorem fs_dom (h : TimeKept s t) {f : Fld} {k v : Nat} (hk : k < 2)
    (ho : ∀ r ∈ timeOffs, regKey 0x018 r ≠ regKey 0x018 f.off ∧ regKey 0x018 r ≠ regKey 0x018 (f.off + 0x40)) :
    TimeKept s (t.fs 0x018 (domF f k) v) := by
  obtain rfl | rfl : k = 0 ∨ k = 1 := by omega
  · exact h.wr fun r hr => (ho r hr).1
  · exact h.wr fun r hr => (ho r hr).2

theorem raise (h : TimeKept s t) {b : Nat} : TimeKept s (t.raise 0x018 b) :=
  (h.wr (o := EVT_STATUS) (by decide)).of_same (by simp) (by simp) (State.regs_raise ..)

/-- A domain written beside its offset, its rate's part and its anchor. -/
theorem setDom (h : TimeKept s t) {k : Nat} {d : Dom} (ho : d.off = (t.dom k).off := by rfl) (ha : d.acc = (t.dom k).acc := by rfl)
    (hc : d.anchor = (t.dom k).anchor := by rfl) : TimeKept s (t.setDom k d) := by
  refine h.trans ⟨rfl, rfl, ?_, onlyPages.refl _ _⟩
  have same : (t.setDom k d).domAt t.sel t.now = t.domAt t.sel t.now := by
    by_cases hk : t.sel = k
    · subst hk
      simp only [State.domAt, State.dom, State.setDom, Map.getD_put_same] at ho ha hc ⊢
      rw [ho, ha, hc]; rfl
    · simp only [State.domAt, State.dom, State.setDom, Map.getD_put_other _ _ _ _ hk]; rfl
  change (t.setDom k d).domAt t.sel t.now - t.resAt t.now + t.tm.stAdj = _
  rw [same]; rfl

end TimeKept

/-! ### Operations that keep service time continuous (R319, R324) -/

/-- At its anchor the residual is what was set there. -/
theorem State.resAt_anchor {s : State} : s.resAt s.tm.anchor = s.tm.res0 := by
  unfold State.resAt
  simp only [sub_self, zero_mul, Int.zero_ediv, Int.toNat_zero, Nat.le_zero, Int.natAbs_eq_zero, sub_zero, add_zero, ite_self]
  split
  · next h => exact h.symm
  · rfl

/-- What the residual takes keeps service time continuous, whatever the change. -/
theorem State.stAt_absorb (s : State) (f : State → State) : (s.absorb f).stAt (s.absorb f).now = s.stAt s.now := by
  have anchored : (s.absorb f).resAt (s.absorb f).now = (s.absorb f).tm.res0 := State.resAt_anchor (s := s.absorb f)
  change (f s).domAt (f s).sel (f s).now - (s.absorb f).resAt (s.absorb f).now +
    (s.stAt s.now - (f s).domAt (f s).sel (f s).now + (s.absorb f).tm.res0) = s.stAt s.now
  rw [anchored]
  ring

namespace TimeKept

variable {s t : State}

theorem stepOff (h : TimeKept s t) {k : Nat} {d : Int} : TimeKept s (t.stepOff k d) := by
  unfold State.stepOff
  dsimp only
  split
  · exact h.trans ⟨rfl, rfl, State.stAt_absorb .., onlyPages.refl _ _⟩
  · next hk =>
    refine h.trans ⟨rfl, rfl, ?_, onlyPages.refl _ _⟩
    have other {x : Dom} : (t.setDom k x).domAt t.sel t.now = t.domAt t.sel t.now :=
      State.domAt_congr (s := t) (t := t.setDom k x) (Map.getD_put_other _ _ _ _ hk) rfl _
    change State.domAt (t.setDom k _) t.sel t.now - t.resAt t.now + t.tm.stAdj = _
    rw [other]
    rfl

/-- A rate changed at the present instant turns the domain about that instant (R319). -/
theorem setRate (h : TimeKept s t) {k : Nat} (hk : k < 2) {r : Int} : TimeKept s (t.setRate k r) := by
  have off : (domF TM_D_RATE_RATE k).off = TM_D_RATE ∨ (domF TM_D_RATE_RATE k).off = TM_D_RATE + 0x40 := by
    obtain rfl | rfl : k = 0 ∨ k = 1 := by omega
    · exact .inl rfl
    · exact .inr rfl
  have fg (f : Fld) (hf : f.off = TM_ST_STATUS ∨ f.off = TM_ST_CFG) : (t.setRate k r).fg 0x018 f = t.fg 0x018 f := by
    unfold State.setRate
    refine (State.fg_fs_ne _ _ _ _ _ _ (.inl ?_)).trans rfl
    obtain ho | ho := off <;> obtain hf | hf := hf <;> (rw [ho, hf]; decide)
  have sel : (t.setRate k r).sel = t.sel := fg TM_ST_STATUS_SEL_ACTIVE (.inl rfl)
  have dom : (t.setRate k r).domAt t.sel t.now = t.domAt t.sel t.now := by
    by_cases hs : t.sel = k
    · rw [hs]
      have turned : (t.setRate k r).dom k = { t.dom k with acc := (t.dom k).acc + t.rate k * (t.now - (t.dom k).anchor), anchor := t.now } := by
        simp only [State.setRate, State.dom, State.setDom, State.fs, State.wr, Map.getD_put_same]
      unfold State.domAt
      rw [turned]
      ring
    · refine State.domAt_congr ?_ ?_ _
      · simp only [State.setRate, State.dom, State.setDom, State.fs, State.wr, Map.getD_put_other _ _ _ _ hs]
      · unfold State.rate State.setRate
        rw [State.fg_fs_ne _ _ _ _ _ _ (.inl ?_)]; · rfl
        have := t.sel_le
        simp only [domF, Fld.at, regKey, TM_D_RATE_RATE]
        omega
  refine h.trans ⟨rfl, sel, ?_, (onlyPages.refl _ _).fs (by simp)⟩
  change (t.setRate k r).domAt (t.setRate k r).sel t.now - (t.setRate k r).resAt t.now + t.tm.stAdj = _
  rw [sel, dom]
  congr 2
  unfold State.resAt
  rw [fg TM_ST_CFG_SLEW (.inr rfl)]; rfl

/-! ### Samples (R320-R323) -/

theorem setDstate (h : TimeKept s t) {k v : Nat} (hk : k < 2) : TimeKept s (t.setDstate k v) := by
  have shown : TimeKept s (t.fs 0x018 (domF TM_D_STATUS_STATE k) v) := h.fs_dom hk (by decide)
  unfold State.setDstate
  exact h.ite (.ite shown.raise (.ite shown.raise shown))

/-- The run of good samples counted anew. -/
theorem restart (t : State) (k : Nat) : TimeKept t (t.setDom k { t.dom k with good := 0 }) := (refl t).setDom

theorem lockCount (h : TimeKept s t) {k : Nat} {e : Int} (hk : k < 2) : TimeKept s (t.lockCount k e) := by
  unfold State.lockCount
  dsimp only
  have counted {g b : Nat} : TimeKept s (t.setDom k { t.dom k with good := g, bad := b }) := h.setDom
  refine .ite (counted.setDstate hk) (.ite (setDstate ?_ hk) counted)
  exact counted.trans (restart ..)

theorem servoRate (h : TimeKept s t) {k : Nat} {e x : Int} (hk : k < 2) : TimeKept s (t.servoRate k e x) := by
  unfold State.servoRate
  split
  · exact h
  · dsimp only
    refine setRate ?_ hk
    exact .ite (h.of_same rfl rfl rfl) h

theorem smpReject (h : TimeKept s t) {k : Nat} (hk : k < 2) : TimeKept s (t.smpReject k) :=
  (h.fs_dom (f := TM_D_CNT_REJECTED) hk (by decide)).raise

theorem servo (h : TimeKept s t) {k m era : Nat} {x : Int} (hk : k < 2) : TimeKept s (t.servo k m era x) := by
  have erred {v : Nat} : TimeKept s (t.fs 0x018 (domF TM_D_ERROR_ERROR k) v) := h.fs_dom hk (by decide)
  have counted {v w : Nat} : TimeKept s ((t.fs 0x018 (domF TM_D_ERROR_ERROR k) v).fs 0x018 (domF TM_D_STATUS_OUTLIERS k) w) :=
    erred.fs_dom hk (by decide)
  unfold State.servo
  dsimp only
  split
  · exact counted.lockCount hk
  · split
    · exact ((counted.stepOff.setDom (by split <;> rfl) (by split <;> rfl) (by split <;> rfl)).raise.setDstate hk).lockCount hk
    · have turned {v : Nat} {d e : Int} : TimeKept s (((((t.fs 0x018 (domF TM_D_ERROR_ERROR k) v).fs 0x018 (domF TM_D_STATUS_OUTLIERS k) 0).stepOff k d).servoRate k e x)) :=
        counted.stepOff.servoRate hk
      refine (TimeKept.ite ?_ (turned.setDom)).lockCount hk
      exact ((turned.setDom).setDom).setDstate hk

theorem smpUse (h : TimeKept s t) {x : Sample} {kind : Nat} (hk : x.dom < 2) : TimeKept s (t.smpUse x kind) := by
  have counted : TimeKept s (((t.inc 0x018 (domF TM_D_CNT_USED x.dom)).fs 0x018 (domF TM_D_STATUS_LAST_SRC x.dom) x.src).fs 0x018
      (domF TM_D_STATUS_SOURCE x.dom) kind) :=
    ((h.fs_dom (f := TM_D_CNT_USED) hk (by decide)).fs_dom hk (by decide)).fs_dom hk (by decide)
  unfold State.smpUse
  exact (TimeKept.ite (counted.setDom) counted).servo hk

theorem smpReturn (h : TimeKept s t) {k : Nat} (hk : k < 2) : TimeKept s (t.smpReturn k) := by
  unfold State.smpReturn
  exact .ite (h.setDom.setDstate hk) (h.setDom)

theorem smpJudge (h : TimeKept s t) {x : Sample} (hk : x.dom < 2) : TimeKept s (t.smpJudge x) := by
  have remembered : TimeKept s (t.setDom x.dom
      (if decide (x.src = t.fg 0x018 (domF TM_D_CFG_MASTER x.dom)) then
        { t.dom x.dom with seenM := remember (if decide (x.src = t.fg 0x018 (domF TM_D_CFG_MASTER x.dom)) then (t.dom x.dom).seenM else (t.dom x.dom).seenB) x.seq }
      else { t.dom x.dom with seenB := remember (if decide (x.src = t.fg 0x018 (domF TM_D_CFG_MASTER x.dom)) then (t.dom x.dom).seenM else (t.dom x.dom).seenB) x.seq })) :=
    h.setDom (by split <;> rfl) (by split <;> rfl) (by split <;> rfl)
  unfold State.smpJudge
  dsimp only
  refine .ite (h.smpReject hk) (.ite (h.smpReject hk) (.ite (h.smpReject hk) (.ite (.ite ?_ ?_) (.ite ?_ (.ite ?_ ?_)))))
  · exact remembered.smpReturn hk
  · exact remembered.smpReject hk
  · exact remembered.smpUse hk
  · exact remembered.smpReject hk
  · exact remembered.smpUse hk

theorem smpWrite (h : TimeKept s t) {v : Word} : TimeKept s (t.smpWrite v) :=
  TimeKept.ite (h.smpJudge (Fld.get_lt TM_SMP_CMD_DOM v)) h

end TimeKept

/-! ### The residual with time (R324) -/

/-- The residual, once it has reached 0, stays there. -/
theorem State.resAt_zero_later {s : State} {u v : Int} (h : s.resAt u = 0) (huv : u ≤ v) (h0 : s.tm.res0 ≠ 0) : s.resAt v = 0 := by
  have mono : (u - s.tm.anchor) * 2 ^ 40 * (s.fg 0x018 TM_ST_CFG_SLEW : Int) / 1000000 ≤
      (v - s.tm.anchor) * 2 ^ 40 * (s.fg 0x018 TM_ST_CFG_SLEW : Int) / 1000000 := by
    refine Int.ediv_le_ediv (by decide) (mul_le_mul_of_nonneg_right ?_ (by positivity))
    omega
  unfold State.resAt at h ⊢
  dsimp only at h ⊢
  generalize (u - s.tm.anchor) * 2 ^ 40 * (s.fg 0x018 TM_ST_CFG_SLEW : Int) / 1000000 = a at *
  generalize (v - s.tm.anchor) * 2 ^ 40 * (s.fg 0x018 TM_ST_CFG_SLEW : Int) / 1000000 = b at *
  split_ifs at h ⊢ <;> omega

/-! ### The selection changed (R326) -/

theorem State.select_sel (s : State) (k : Nat) (hk : k < 2) : (s.select k).sel = k := by
  unfold State.select State.sel
  simp only [State.fg, State.rd_raise]
  rw [if_neg (by decide)]
  exact (State.fg_fs s 0x018 TM_ST_STATUS_SEL_ACTIVE k (by decide)).trans (Nat.mod_eq_of_lt hk)

/-- Raising an event of page 0x018 leaves service time. -/
theorem State.stAt_raise (s : State) (b : Nat) : ∀ u, (s.raise 0x018 b).stAt u = s.stAt u :=
  (State.stAt_congr (by simp) fun o ho => (State.rd_raise ..).trans (if_neg
    ((by decide : ∀ o ∈ timeOffs, regKey 0x018 o ≠ regKey 0x018 EVT_STATUS) o ho))).2

/-- An access leaves service time and the selection (R26). -/
theorem State.stAt_touch (s : State) (who : Initiator) :
    (s.touch who false).sel = s.sel ∧ ∀ u, (s.touch who false).stAt u = s.stAt u :=
  State.stAt_congr (by simp) fun o ho => State.rd_touch _ _ _ _ _
    ((by decide : ∀ o ∈ timeOffs, regKey 0x018 o ≠ regKey 0x01C EVT_STATUS) o ho)

theorem State.now_raise (s : State) (p b : Nat) : (s.raise p b).now = s.now := by simp [State.now]

/-- Settles O38: a change of the selection goes through `State.absorb`, a residual at 0 stays there, and every step of the judging of a
sample keeps service time (`TimeKept.smpWrite`). -/
theorem serviceTimeIsContinuous : Obligations.ServiceTimeIsContinuous := by
  refine ⟨fun s hrdy hmay _ => ?_, fun s u h0 hz hu => ?_, fun s who v hacc _ => ?_⟩
  · refine ⟨s.select (1 - s.sel), congrArg Host.Outcome.next (if_pos (by rw [hrdy, hmay]; rfl)), s.select_sel _ (by omega), ?_, ?_, ?_⟩
    · exact (State.stAt_raise ..).trans <| (congrArg _ (State.now_raise ..)).trans (State.stAt_absorb ..)
    · exact State.event_raise _ _ (by decide)
    · have chosen : onlyRegs [(0x018, TM_ST_STATUS), (0x018, EVT_STATUS)] s (s.fs 0x018 TM_ST_STATUS_SEL_ACTIVE (1 - s.sel)) :=
        (onlyRegs.refl _ _).fs (by decide) (.head _)
      exact onlyRegs.raise (t := s.absorb fun t => t.fs 0x018 TM_ST_STATUS_SEL_ACTIVE (1 - s.sel)) (chosen.of_regs rfl) (by simp)
  · have due : ¬(s.tm.res0 = 0 ∨ s.resAt s.now ≠ 0) := by simp [h0, hz]
    refine ⟨_, congrArg Host.Outcome.next (if_neg due), ?_, ?_, State.event_raise _ _ (by decide), ?_⟩
    · rw [State.raise_tm]
    · rw [State.stAt_raise]
      change s.domAt s.sel u - State.resAt _ u + s.tm.stAdj = s.domAt s.sel u - s.resAt u + s.tm.stAdj
      rw [State.resAt_of_res0_zero rfl, State.resAt_zero_later hz hu h0]
    · exact ((onlyRegs.refl _ _).of_regs rfl).raise (by simp)
  · have judged := (TimeKept.refl (s.touch who false)).smpWrite (v := v)
    obtain ⟨touched, same⟩ := s.stAt_touch who
    have now : (s.touch who false).now = s.now := by simp [State.now]
    refine ⟨((s.touch who false).smpWrite v).answer who rspOk 0, congrArg Host.Outcome.next (State.write_accepts hacc _), ?_, ?_,
      State.ansOf_answer .., ?_⟩
    · exact judged.time.trans ((same _).trans (congrArg _ now))
    · exact judged.sel.trans touched
    · have pages : onlyPages [0x018, 0x01C] s (s.touch who false) := (s.touch_onlyRegs who false).pages (by simp)
      exact (pages.trans fun p o ho hp => judged.pages p o ho fun h => hp (by simp_all)).of_regs rfl

end Sys2Proof.Machine
end

section
set_option Elab.async false
/-! Accesses that do not take effect at their block (R36, R38, R401), and the writes of CLR_CNT. -/
namespace Sys2Proof.Machine

/-! ### What a register command does (chapter 2) -/

/-- A command that writes a register is a write by its initiator at its target. -/
theorem exec_of_target_write {s : State} {c : Instr} {who : Initiator} {p off : Nat} (h : target s c = some (who, p, off, false)) :
    ∃ op, exec c s = .next (s.write who p off op) := by
  cases c with
  | registerWrite who page off v =>
    cases h
    exact ⟨fun t => t.viaSup who (s.enAlias page) off v fun u => u.regApply (decide (who = .preload)) (s.enAlias page) off v, rfl⟩
  | _ => cases h <;> exact ⟨_, rfl⟩

/-- A command that reads a register is a read by its initiator at its target. -/
theorem exec_of_target_read {s : State} {c : Instr} {who : Initiator} {p off : Nat} (h : target s c = some (who, p, off, true)) :
    ∃ op, exec c s = .next (s.read who p off op) := by
  cases c with
  | _ => cases h <;> exact ⟨_, rfl⟩

theorem exec_of_target {s : State} {c : Instr} {who : Initiator} {p off : Nat} {rd : Bool} (h : target s c = some (who, p, off, rd)) :
    (∃ op, exec c s = .next (s.write who p off op)) ∨ ∃ op, exec c s = .next (s.read who p off op) := by
  cases rd with
  | false => exact .inl (exec_of_target_write h)
  | true => exact .inr (exec_of_target_read h)

/-! ### Accesses that do not reach their block -/

/-- A write that does not reach its block is answered with the code that says so. -/
theorem State.write_unreached {s : State} {who : Initiator} {p o : Nat} (h : s.reach who p o ≠ rspOk) (op : State → State) :
    s.write who p o op = (s.touch who false).answer who (s.reach who p o) 0 := by
  simp [State.write, h]

theorem State.read_unreached {s : State} {who : Initiator} {p o : Nat} (h : s.reach who p o ≠ rspOk) (op : State → State × Word) :
    s.read who p o op = (s.touch who true).answer who (s.reach who p o) 0 := by
  simp [State.read, h]

/-- A write of a mirrored register of the standby that its own side makes raises STBY_WRITE (R401). -/
theorem State.write_standby {s : State} {who : Initiator} {p o : Nat} (h : s.reach who p o = rspOk) (hs : s.stbyRefuses who p o = true)
    (op : State → State) : s.write who p o op = ((s.touch who false).raise 0x024 EV_TW_STBY_WRITE).answer who rspOk 0 := by
  simp [State.write, h, hs]

/-- An answer changes the answers alone. -/
theorem quiet.answered {s t : State} (h : quiet { s with scan := t.scan } t) {who : Initiator} {r : Nat} {d : Word} :
    quiet { s with ans := (t.answer who r d).ans, scan := (t.answer who r d).scan } (t.answer who r d) := by
  have scan : (t.answer who r d).scan = t.scan := rfl
  unfold quiet at h ⊢
  rw [scan]
  generalize t.scan = x at h
  rw [h]; rfl

/-- What an access does before it reaches a block, and its answer. -/
theorem refused_access (s : State) (who : Initiator) (r : Bool) {code : Nat} (hc : code ≠ rspOk) :
    ((s.touch who r).answer who code 0).ansOf who = ⟨code, 0, none⟩ ∧
      onlyRegs [(0x01C, EVT_STATUS)] s ((s.touch who r).answer who code 0) ∧
      quiet { s with ans := ((s.touch who r).answer who code 0).ans, scan := ((s.touch who r).answer who code 0).scan }
        ((s.touch who r).answer who code 0) :=
  ⟨by simp [hc], (s.touch_onlyRegs who r).of_regs rfl, (s.touch_quiet who r).answered⟩

/-- Settles O9: each of the commands is a write or a read at its target (`exec_of_target`), which ends before its operation. -/
theorem refusedAccessesChangeNothing : Obligations.RefusedAccessesChangeNothing := by
  refine ⟨fun s c who p off rd ht hr => ?_, fun s c who p off ht hr hs => ?_⟩
  · obtain ⟨op, e⟩ | ⟨op, e⟩ := exec_of_target ht
    · exact ⟨_, e.trans (congrArg _ (State.write_unreached hr op)), refused_access s who false hr⟩
    · exact ⟨_, e.trans (congrArg _ (State.read_unreached hr op)), refused_access s who true hr⟩
  · obtain ⟨op, e⟩ := exec_of_target_write ht
    have raised : onlyRegs [(0x024, EVT_STATUS)] (s.touch who false) ((s.touch who false).raise 0x024 EV_TW_STBY_WRITE) :=
      (onlyRegs.refl _ _).raise (by simp)
    have wrote : Wrote who s (((s.touch who false).raise 0x024 EV_TW_STBY_WRITE).answer who rspOk 0) [(0x024, EVT_STATUS)] :=
      Wrote.of raised (quiet.refl _).raise
    exact ⟨_, e.trans (congrArg _ (State.write_standby hr hs op)), wrote.ok, State.event_raise _ 0x024 (by decide), wrote.regs, wrote.rest⟩

/-! ### CLR_CNT -/

/-- Registers of a page written 0. -/
def State.zeroRegs (s : State) (p : Nat) (l : List Nat) : State := l.foldl (fun (t : State) o => t.wr p o 0) s

theorem State.zeroRegs_quiet (s : State) (p : Nat) (l : List Nat) : quiet s (s.zeroRegs p l) :=
  quiet.foldl _ l (quiet.refl s) fun _ _ _ h => h.wr

theorem State.rd_zeroRegs (s : State) (p : Nat) (l : List Nat) : ∀ o ∈ l, (s.zeroRegs p l).rd p o = 0 := fun o ho => by
  unfold State.zeroRegs
  rw [State.rd_foldl_wr p (fun o => o), if_pos (List.any_eq_true.2 ⟨o, ho, by simp⟩)]

theorem State.zeroRegs_onlyRegs (s : State) (p : Nat) {l : List Nat} (hl : ∀ o ∈ l, o < 4096) :
    onlyRegs (l.map (p, ·)) s (s.zeroRegs p l) :=
  onlyRegs.foldl _ l (onlyRegs.refl _ s) fun _ o ho h => h.wr (hl o ho) (List.mem_map.2 ⟨o, ho, rfl⟩)

/-- What a counter clear leaves: its counters are 0, and beside them at most the registers `more` of its page differ. -/
structure Cleared (who : Initiator) (p : Nat) (l : List Nat) (more : List (Nat × Nat)) (s t : State) : Prop where
  zero : ∀ o ∈ l, t.rd p o = 0
  ok : t.ansOf who = ⟨rspOk, 0, none⟩
  regs : onlyRegs ((0x01C, EVT_STATUS) :: (l.map (p, ·) ++ more)) s t
  rest : quiet { s with ans := t.ans, scan := t.scan, gs := { s.gs with cfgErr := t.gs.cfgErr } } t

theorem quiet.gs {s t : State} (h : quiet s t) : t.gs = s.gs := by
  obtain ⟨_, _, _, rfl⟩ := h.exists; rfl

/-- A clear whose operation writes registers alone. -/
theorem Cleared.of {who : Initiator} {s u : State} {p : Nat} {l : List Nat} {more : List (Nat × Nat)} (hz : ∀ o ∈ l, u.rd p o = 0)
    (hr : onlyRegs (l.map (p, ·) ++ more) (s.touch who false) u) (hq : quiet (s.touch who false) u) :
    Cleared who p l more s (u.answer who rspOk 0) := by
  have wrote := Wrote.of hr hq
  refine ⟨hz, wrote.ok, wrote.regs, ?_⟩
  have gs : (u.answer who rspOk 0).gs = s.gs := wrote.rest.gs
  rw [gs]; exact wrote.rest

/-- A clear whose operation is the writing of its counters with 0. -/
theorem Cleared.of_zeroRegs (who : Initiator) (s : State) (p : Nat) {l : List Nat} (hl : ∀ o ∈ l, o < 4096) :
    Cleared who p l [] s (((s.touch who false).zeroRegs p l).answer who rspOk 0) :=
  .of (State.rd_zeroRegs _ p l) (by simpa using State.zeroRegs_onlyRegs _ p hl) (State.zeroRegs_quiet _ p l)

theorem State.lnClrCnt_eq (s : State) (p : LanePort) :
    s.lnClrCnt p = s.zeroRegs p.page (LN_PORT_CNT :: (List.range (laneCount p)).map (LN_CNT + 16 * ·)) := by
  simp [State.lnClrCnt, State.zeroRegs, List.foldl_map]

theorem State.rpClrCnt_eq (s : State) (p : RingPort) :
    s.rpClrCnt p = s.zeroRegs p.page (RP_PD_CNT :: (List.range 16).map (0x120 + 4 * ·)) := by
  simp only [State.rpClrCnt, State.zeroRegs, List.foldl_cons, List.foldl_map]

theorem State.coreClrCnt_eq (s : State) : s.coreClrCnt = s.zeroRegs 0x010 ([CORE_CNT_MCAST_PARTIAL, CORE_CNT_WR_DEFER, CORE_CNT_UE] ++
    (List.range 17).map (CORE_BANK_CNT + 4 * ·) ++ (List.range 240).map (CORE_PCNT_CELLS_IN + 4 * ·)) := by
  simp only [State.coreClrCnt, State.zeroRegs, List.foldl_append, List.foldl_cons, List.foldl_nil, List.foldl_map]

theorem State.memClrCnt_eq (s : State) : s.memClrCnt = s.zeroRegs 0x280 ([MEM_HIST_STAT, MEM_CNT_FOREIGN, MEM_CAN_CNT] ++
    (List.range 8).map (MEM_BANK_CNT + 0x10 * ·)) := by
  simp only [State.memClrCnt, State.zeroRegs, List.foldl_append, List.foldl_cons, List.foldl_nil, List.foldl_map]

theorem State.ftClrCnt_eq (s : State) : s.ftClrCnt = s.zeroRegs 0x004 (FT_CNT :: (List.range 256).map (FT_SRC_CNT + 4 * ·)) := by
  simp only [State.ftClrCnt, State.zeroRegs, List.foldl_cons, List.foldl_map]

theorem State.brClrCnt_eq (s : State) : s.brClrCnt = s.zeroRegs 0x020 ((List.range 8).map (BR_CNT_TIMEOUT + 4 * ·)) := by
  simp only [State.brClrCnt, State.zeroRegs, List.foldl_map, brP]

/-- The offsets of the counters that a command clears are a page's. -/
theorem clears_offs {s : State} {c : Instr} {who : Initiator} {p off : Nat} {l : List Nat} (h : clears s c = some (who, p, off, l)) :
    ∀ o ∈ l, o < 4096 := by
  cases c with
  | lnClrCnt who port => cases h; cases port <;> decide
  | _ => cases h <;> decide +kernel

/-- Every counter clear but those of the scan and the engine pages is the writing of its counters with 0; that of the fault unit marks its
page as configured first. -/
theorem exec_of_clears {s : State} {c : Instr} {who : Initiator} {p off : Nat} {l : List Nat} (h : clears s c = some (who, p, off, l))
    (hsc : p ≠ 0x01C) (hen : ∀ w e, c ≠ .enClrCnt w e) :
    exec c s = .next (s.write who p off fun t => t.zeroRegs p l) ∨
      exec c s = .next (s.write who p off fun t => ({ t with gs := { t.gs with cfgErr := true } } : State).zeroRegs p l) := by
  have write_congr {a b : State → State} (e : ∀ t, a t = b t) :
      (Host.Outcome.next (s.write who p off a) : Host.Outcome State Fault Refusal) = .next (s.write who p off b) :=
    congrArg (fun op => Host.Outcome.next (s.write who p off op)) (funext e)
  cases c with
  | lnClrCnt => cases h; exact .inl (write_congr fun t => t.lnClrCnt_eq _)
  | rpClrCnt => cases h; exact .inl (write_congr fun t => t.rpClrCnt_eq _)
  | coreClrCnt => cases h; exact .inl (write_congr State.coreClrCnt_eq)
  | memClrCnt => cases h; exact .inl (write_congr State.memClrCnt_eq)
  | brClrCnt => cases h; exact .inl (write_congr State.brClrCnt_eq)
  | ftClrCnt => cases h; exact .inr (write_congr fun t => State.ftClrCnt_eq _)
  | scClrCnt => cases h; exact absurd rfl hsc
  | enClrCnt w e => exact absurd rfl (hen w e)
  | _ => cases h <;> exact .inl rfl

theorem Cleared.of_plain {s : State} {c : Instr} {who : Initiator} {p off : Nat} {l : List Nat} (h : clears s c = some (who, p, off, l))
    (hsc : p ≠ 0x01C) (hen : ∀ w e, c ≠ .enClrCnt w e) (hacc : s.accepts who p off = true) : ∃ t, exec c s = .next t ∧ Cleared who p l [] s t := by
  have hl := clears_offs h
  obtain e | e := exec_of_clears h hsc hen
  · exact ⟨_, e.trans (congrArg _ (State.write_accepts hacc _)), .of_zeroRegs who s p hl⟩
  · refine ⟨_, e.trans (congrArg _ (State.write_accepts hacc _)), State.rd_zeroRegs _ p l, by simp, ?_, ?_⟩
    · have zeroed : onlyRegs (l.map (p, ·) ++ []) (s.touch who false)
          (({ s.touch who false with gs := { (s.touch who false).gs with cfgErr := true } } : State).zeroRegs p l) := by
        rw [List.append_nil]; exact State.zeroRegs_onlyRegs _ p hl
      exact zeroed.touch.of_regs rfl
    · obtain ⟨_, _, _, e1⟩ := (s.touch_quiet who false).exists
      obtain ⟨_, _, _, e2⟩ := (State.zeroRegs_quiet ({ s.touch who false with gs := { (s.touch who false).gs with cfgErr := true } } : State) p l).exists
      rw [e2]
      generalize (s.touch who false).scan = x at e1
      rw [e1]; rfl

/-! ### The scan page (R361) and the engine pages (R286) -/

/-- The GAPS fields of the subscriptions written 0. -/
def State.zeroGaps (s : State) (l : List Nat) : State :=
  l.foldl (fun (t : State) j => t.fs 0x01C (SC_SUB_STAT_GAPS.at (0x10 * j)) 0) s

theorem State.zeroGaps_onlyRegs (s : State) {l : List Nat} (hl : ∀ j ∈ l, j < 32) :
    onlyRegs (l.map fun j => (0x01C, SC_SUB_STAT + 0x10 * j)) s (s.zeroGaps l) :=
  onlyRegs.foldl _ l (onlyRegs.refl _ s) fun _ j hj h =>
    h.fs (by have := hl j hj; simp only [Fld.at, SC_SUB_STAT_GAPS]; omega) (List.mem_map.2 ⟨j, hj, rfl⟩)

theorem State.zeroGaps_quiet (s : State) (l : List Nat) : quiet s (s.zeroGaps l) :=
  quiet.foldl _ l (quiet.refl s) fun _ _ _ h => h.fs

theorem State.rd_zeroGaps (s : State) {l : List Nat} {o : Nat} (h : ∀ j ∈ l, regKey 0x01C o ≠ regKey 0x01C (SC_SUB_STAT + 0x10 * j)) :
    (s.zeroGaps l).rd 0x01C o = s.rd 0x01C o := by
  induction l generalizing s with
  | nil => rfl
  | cons j l ih =>
    refine (ih _ fun i hi => h i (List.mem_cons_of_mem _ hi)).trans ?_
    exact (State.rd_fs ..).trans (if_neg (h j (List.mem_cons_self ..)))

/-- Each GAPS field of the list is 0: those written after it are other registers or the same field. -/
theorem State.fg_zeroGaps (s : State) {l : List Nat} {j : Nat} (hl : ∀ i ∈ l, i < 32) (hj : j < 32)
    (h : j ∈ l ∨ s.fg 0x01C (SC_SUB_STAT_GAPS.at (0x10 * j)) = 0) : (s.zeroGaps l).fg 0x01C (SC_SUB_STAT_GAPS.at (0x10 * j)) = 0 := by
  induction l generalizing s with
  | nil => exact h.resolve_left (by simp)
  | cons i l ih =>
    refine ih _ (fun k hk => hl k (List.mem_cons_of_mem _ hk)) ?_
    have hi := hl i (List.mem_cons_self ..)
    by_cases e : j = i
    · subst e; exact .inr (State.fg_fs _ _ _ _ (by simp [Fld.at, SC_SUB_STAT_GAPS]))
    · refine (h.imp (fun hm => (List.mem_cons.1 hm).resolve_left e) fun h0 => ?_)
      rw [State.fg_fs_ne _ _ _ _ _ _ (.inl ?_), h0]
      simp only [regKey, Fld.at, SC_SUB_STAT_GAPS]; omega

theorem Cleared.scan {s : State} {who : Initiator} (hacc : s.accepts who 0x01C SC_CTRL = true) :
    ∃ t, exec (.scClrCnt who) s = .next t ∧
      Cleared who 0x01C ((List.range 8).map (SC_CNT_IN + 4 * ·)) ((List.range 32).map fun j => (0x01C, SC_SUB_STAT + 0x10 * j)) s t ∧
      ∀ j < 32, t.fg 0x01C (SC_SUB_STAT_GAPS.at (0x10 * j)) = 0 := by
  have op (t : State) : t.scClrCnt = (t.zeroRegs 0x01C ((List.range 8).map (SC_CNT_IN + 4 * ·))).zeroGaps (List.range 32) := by
    simp only [State.scClrCnt, State.zeroRegs, State.zeroGaps, List.foldl_map]
  have small : ∀ j ∈ List.range 32, j < 32 := by simp
  refine ⟨_, congrArg Host.Outcome.next (State.write_accepts hacc _), ?_, fun j hj => ?_⟩
  · rw [op]
    refine .of (fun o ho => ?_) ?_ ((State.zeroRegs_quiet ..).trans (State.zeroGaps_quiet ..))
    · rw [State.rd_zeroGaps, State.rd_zeroRegs _ _ _ o ho]
      revert o; decide
    · have counters := State.zeroRegs_onlyRegs (s.touch who false) 0x01C (l := (List.range 8).map (SC_CNT_IN + 4 * ·)) (by decide)
      have gaps := State.zeroGaps_onlyRegs ((s.touch who false).zeroRegs 0x01C ((List.range 8).map (SC_CNT_IN + 4 * ·))) small
      exact onlyRegs.trans (counters.mono (List.subset_append_left ..)) (gaps.mono (List.subset_append_right ..))
  · rw [State.fg_answer, op]; exact State.fg_zeroGaps _ small hj (.inl (by simpa using hj))

theorem Cleared.engine {s : State} {who : Initiator} {e : Engine} (hacc : s.accepts who (s.enReg e) EN_MODE = true) :
    ∃ t, exec (.enClrCnt who e) s = .next t ∧ Cleared who (s.enReg e) ((List.range 4).map (EN_CNT + 4 * ·))
      (if s.enMode (s.enReg e) = 2 then [(s.enReg e, PB_CNT_ARB), (s.enReg e, PB_CNT_RX), (s.enReg e, PB_CNT_TX)] else []) s t := by
  refine ⟨_, congrArg Host.Outcome.next (State.write_accepts hacc _), ?_⟩
  have mode : (s.touch who false).enMode (s.enReg e) = s.enMode (s.enReg e) :=
    State.fg_touch _ _ _ _ _ fun k => absurd (regKey_inj (by decide) (by decide) k).2 (by decide)
  generalize s.enReg e = g at mode hacc ⊢
  have op (t : State) : t.enClrCnt g = if t.enMode g = 2 then
      ((t.zeroRegs g ((List.range 4).map (EN_CNT + 4 * ·))).zeroRegs g [PB_CNT_ARB, PB_CNT_RX, PB_CNT_TX])
      else t.zeroRegs g ((List.range 4).map (EN_CNT + 4 * ·)) := by
    simp only [State.enClrCnt, State.zeroRegs, List.foldl_map, List.foldl_cons, List.foldl_nil]
  have counters := State.zeroRegs_onlyRegs (s.touch who false) g (l := (List.range 4).map (EN_CNT + 4 * ·)) (by decide)
  rw [op, mode]
  by_cases h2 : s.enMode g = 2
  · simp only [if_pos h2]
    refine .of (fun o ho => ?_) ?_ ((State.zeroRegs_quiet ..).trans (State.zeroRegs_quiet ..))
    · rw [← State.rd_zeroRegs (s.touch who false) g _ o ho]
      refine State.zeroRegs_onlyRegs _ g (l := [PB_CNT_ARB, PB_CNT_RX, PB_CNT_TX]) (by decide) g o ?_ ?_
      · revert o; decide
      · have other : o ∉ [PB_CNT_ARB, PB_CNT_RX, PB_CNT_TX] := by revert o; decide
        simpa using other
    · refine (counters.mono (by simp)).trans (onlyRegs.mono (State.zeroRegs_onlyRegs _ g (by decide)) ?_)
      simp
  · simp only [if_neg h2]
    exact .of (State.rd_zeroRegs _ g _) (counters.mono (by simp)) (State.zeroRegs_quiet ..)

/-- Which commands clear the counters of the scan page and of an engine page. -/
theorem clears_page {s : State} {c : Instr} {who : Initiator} {p off : Nat} {l : List Nat} (h : clears s c = some (who, p, off, l)) :
    c = .scClrCnt who ∨ (∃ e, c = .enClrCnt who e) ∨ (p ≠ 0x01C ∧ ∀ w e, c ≠ .enClrCnt w e) := by
  cases c with
  | scClrCnt => cases h; exact .inl rfl
  | enClrCnt _ e => cases h; exact .inr (.inl ⟨e, rfl⟩)
  | lnClrCnt _ port => cases h; exact .inr (.inr ⟨by cases port <;> decide, nofun⟩)
  | rpClrCnt _ port => cases h; exact .inr (.inr ⟨by cases port <;> decide, nofun⟩)
  | clClrCnt => cases h; exact .inr (.inr ⟨by unfold clPage; omega, nofun⟩)
  | ecClrCnt => cases h; exact .inr (.inr ⟨by unfold ecPage; omega, nofun⟩)
  | qClrCnt _ page => cases h; exact .inr (.inr ⟨by omega, nofun⟩)
  | _ => cases h <;> exact .inr (.inr ⟨by decide, nofun⟩)

/-- Settles O10: the scan page clears the GAPS fields too, an engine page in PBUS mode its message counts; every other clear is the writing
of its list with 0. -/
theorem counterClearZeroesItsCounters : Obligations.CounterClearZeroesItsCounters := by
  intro s c who p off l h hacc
  obtain rfl | ⟨e, rfl⟩ | ⟨hsc, hen⟩ := clears_page h
  · cases h
    obtain ⟨t, e, cleared, gaps⟩ := Cleared.scan hacc
    exact ⟨t, e, cleared.zero, cleared.ok, cleared.regs, fun _ => gaps, cleared.rest⟩
  · cases h
    obtain ⟨t, e', cleared⟩ := Cleared.engine hacc
    have page : s.enReg e ≠ 0x01C := fun h => absurd (kindOf_enReg s e) (by rw [h]; decide)
    refine ⟨t, e', cleared.zero, cleared.ok, ?_, fun h => absurd h page, cleared.rest⟩
    rw [if_neg page]
    simpa only [true_and] using cleared.regs
  · obtain ⟨t, e, cleared⟩ := Cleared.of_plain h hsc hen hacc
    refine ⟨t, e, cleared.zero, cleared.ok, ?_, fun h => absurd h hsc, cleared.rest⟩
    rw [if_neg hsc]
    exact cleared.regs.mono (List.cons_subset_cons _ ((List.nil_sublist _).append_left _).subset)

end Sys2Proof.Machine
end

section
set_option Elab.async false
namespace Sys2Proof.Machine

/-! ## Statements that fail for an effect they leave out -/

/-! ### The compatibility mode of the time page (R61, R322) -/

/-- Page 0x018 READY with its domain B in ROLE 1 and locked, and the bridge READY. -/
def lockedDomainB : State :=
  { regs := [(regKey 0x018 PAGE_STATE, 1), (regKey 0x018 (TM_D_CFG + 0x40), 0x40000001), (regKey 0x018 (TM_D_STATUS + 0x40), 0x3F82),
      (regKey 0x020 PAGE_STATE, 1)] }

/-- BN compatibility takes domain B's role away, and its state in TM_D_STATUS begins anew. -/
theorem compat_write_ends_domainB : (match exec (.registerWrite .host 0x018 COMPAT 2) lockedDomainB with
    | .next t => t.rd 0x018 (TM_D_STATUS + 0x40)
    | _ => lockedDomainB.rd 0x018 (TM_D_STATUS + 0x40)) ≠ lockedDomainB.rd 0x018 (TM_D_STATUS + 0x40) := by decide +kernel

/-- Refutes O12: a COMPAT write of page 0x018 while it does not run changes TM_D_STATUS of domain B, beside COMPAT and EVT_STATUS. -/
theorem not_headerWritesAndForcedEvents : ¬ Obligations.HeaderWritesAndForcedEvents := by
  rintro ⟨-, -, compatWrite, -⟩
  obtain ⟨t, e, -, only⟩ := compatWrite lockedDomainB .host 0x018 0x018 2 (by decide +kernel) (by decide) (by decide +kernel) (by decide +kernel)
  have moves := compat_write_ends_domainB
  rw [e] at moves
  have kept := only 0x018 (TM_D_STATUS + 0x40) (by decide) (by decide)
  exact moves kept

/-! ### The matrix pages follow the block reset of one of them (R314) -/

/-- Matrix page 0x249 READY beside page 0x240, which shows RUNNING without an owner that runs. -/
def readyBesideMatrix : State :=
  { regs := [(regKey 0x020 PAGE_STATE, 1), (regKey 0x240 PAGE_STATE, 0x3), (regKey 0x249 PAGE_STATE, 0x1)] }

/-- After the block reset of page 0x249 the matrix pages follow their owners: RUNNING of page 0x240 falls. -/
theorem resetBlock_moves_matrix : (match exec (.resetBlock .host 0x249 0) readyBesideMatrix with
    | .next t => t.rd 0x240 PAGE_STATE
    | _ => readyBesideMatrix.rd 0x240 PAGE_STATE) ≠ readyBesideMatrix.rd 0x240 PAGE_STATE := by decide +kernel

/-- Refutes O16: RESET_BLOCK of matrix page 0x249 writes PAGE_STATE of page 0x240, which is neither the page nor 0x01C. -/
theorem not_blockResetRestoresAPage : ¬ Obligations.BlockResetRestoresAPage := by
  rintro ⟨restores, -⟩
  obtain ⟨t, e, -, -, -, -, -, -, -, -, -, -, only⟩ :=
    restores readyBesideMatrix .host 0x249 0x249 0 (by decide +kernel) (by decide) (by decide +kernel)
  have moves := resetBlock_moves_matrix
  rw [e] at moves
  have kept := only 0x240 PAGE_STATE (by decide) (by decide)
  exact moves kept

/-! ### A page routed to a signal (R388) -/

/-- The east port in ACTIVE, the core running with its events enabled and routed to a signal, and the bridge READY with its signal target. -/
def framesSignalled : State :=
  { regs := [(regKey 0x008 EVT_ENABLE, 0xFFFFFFFF), (regKey 0x008 LN_STATUS, 4), (regKey 0x010 PAGE_STATE, 3), (regKey 0x020 PAGE_STATE, 1),
      (regKey 0x020 BR_SIG_TGT_EN.off, 0x80000000), (regKey 0x020 (BR_IRQ_ROUTE + 8), 0xC0)] }

/-- The first eight bytes of a class T frame. -/
def cutFrame : List Byte := [0x40, 0x05, 0, 0, 0, 0, 0, 0]

/-- FRAME_ERR of the cut frame raises the page's interrupt, whose signal frame waits at the bridge's core port. -/
theorem cutFrame_sends_signal : (match exec (.ringFrameReceive .east cutFrame .bad 3) framesSignalled with
    | .next t => t.ingress.length
    | _ => framesSignalled.ingress.length) ≠ framesSignalled.ingress.length := by decide +kernel

/-- Refutes O27: a frame that its sender cut puts a signal frame into the core where its FRAME_ERR is routed to a signal. -/
theorem not_receivedRingFramesAreChecked : ¬ Obligations.ReceivedRingFramesAreChecked := by
  rintro ⟨-, cut, -⟩
  obtain ⟨t, e, -, -, -, same⟩ := cut framesSignalled .east cutFrame 3 (by decide +kernel) (by decide +kernel) (by decide +kernel)
    (by decide +kernel) (by decide +kernel)
  have moves := cutFrame_sends_signal
  rw [e] at moves
  have kept := congrArg List.length same
  exact moves kept

/-! ### A slave domain under BN compatibility (R61, R325) -/

/-- Page 0x018 READY in BN compatibility with its domain B acquiring in ROLE 1. -/
def acquiringUnderBn : State :=
  { regs := [(regKey 0x018 PAGE_STATE, 1), (regKey 0x018 COMPAT, 2), (regKey 0x018 (TM_D_CFG + 0x40), 0x40000001),
      (regKey 0x018 (TM_D_STATUS + 0x40), 0x3F81)] }

/-- Under BN compatibility domain B has no role, and its time-out leaves its state. -/
theorem timeout_leaves_domainB : (match exec (.domainTimeout 1) acquiringUnderBn with
    | .next t => t.dstate 1
    | _ => 3) ≠ 3 := by decide +kernel

/-- Refutes O39: DOMAIN_TIMEOUT of domain B with ROLE 1 in TM_D_CFG and BN compatibility does not go to HOLDOVER. -/
theorem not_samplesAreJudged : ¬ Obligations.SamplesAreJudged := by
  rintro ⟨-, -, timeout⟩
  obtain ⟨t, e, -, slave, -⟩ := timeout acquiringUnderBn 1 (by decide +kernel) (by decide +kernel)
  have stays := timeout_leaves_domainB
  rw [e] at stays
  obtain ⟨holdover, -⟩ := slave (by decide +kernel)
  exact stays holdover

end Sys2Proof.Machine
end

section
set_option Elab.async false
namespace Sys2Proof.Machine

/-! ## Reading a register after an operation

A register, a field and an event bit of the state after each of the shared operations. Operations on other parts leave them; a write of
another register, another field or another event leaves them by a condition on closed offsets and bits, which `decide` settles. -/

theorem State.rd_of_regs {s t : State} (h : t.regs = s.regs) (p o : Nat) : t.rd p o = s.rd p o := by simp only [State.rd, h]
theorem State.fg_of_regs {s t : State} (h : t.regs = s.regs) (p : Nat) (f : Fld) : t.fg p f = s.fg p f := by
  simp only [State.fg, State.rd_of_regs h]

@[simp] theorem State.rd_mk (s : State) {x0 x1 x2 x3 x4 x5 x6 x7 x8 x9 x10 x11 x12 x13 x14 x15 x16 x17 x18 x19 x20 x21 x22 x23 x24 x25 x26 x27 x28 x29 x30 x31} (p o : Nat) :
    State.rd (State.mk s.regs x0 x1 x2 x3 x4 x5 x6 x7 x8 x9 x10 x11 x12 x13 x14 x15 x16 x17 x18 x19 x20 x21 x22 x23 x24 x25 x26 x27 x28 x29 x30 x31) p o = s.rd p o := rfl
@[simp] theorem State.fg_mk (s : State) {x0 x1 x2 x3 x4 x5 x6 x7 x8 x9 x10 x11 x12 x13 x14 x15 x16 x17 x18 x19 x20 x21 x22 x23 x24 x25 x26 x27 x28 x29 x30 x31} (p : Nat) (f : Fld) :
    State.fg (State.mk s.regs x0 x1 x2 x3 x4 x5 x6 x7 x8 x9 x10 x11 x12 x13 x14 x15 x16 x17 x18 x19 x20 x21 x22 x23 x24 x25 x26 x27 x28 x29 x30 x31) p f = s.fg p f := rfl

@[simp] theorem State.rd_wrSh (s : State) (x1 : Nat) (x2 : Nat) (x3 : Word) (p o : Nat) : (s.wrSh x1 x2 x3).rd p o = s.rd p o := State.rd_of_regs (by simp) ..
@[simp] theorem State.fg_wrSh (s : State) (x1 : Nat) (x2 : Nat) (x3 : Word) (p : Nat) (f : Fld) : (s.wrSh x1 x2 x3).fg p f = s.fg p f := State.fg_of_regs (by simp) ..
@[simp] theorem State.rd_dropShadows (s : State) (x1 : Nat) (p o : Nat) : (s.dropShadows x1).rd p o = s.rd p o := State.rd_of_regs (by simp) ..
@[simp] theorem State.fg_dropShadows (s : State) (x1 : Nat) (p : Nat) (f : Fld) : (s.dropShadows x1).fg p f = s.fg p f := State.fg_of_regs (by simp) ..
@[simp] theorem State.rd_stage (s : State) (x1 : Nat) (x2 : InFrame) (p o : Nat) : (s.stage x1 x2).rd p o = s.rd p o := State.rd_of_regs (by simp) ..
@[simp] theorem State.fg_stage (s : State) (x1 : Nat) (x2 : InFrame) (p : Nat) (f : Fld) : (s.stage x1 x2).fg p f = s.fg p f := State.fg_of_regs (by simp) ..
@[simp] theorem State.rd_fault (s : State) (x1 : Nat) (x2 : Nat) (p o : Nat) : (s.fault x1 x2).rd p o = s.rd p o := State.rd_of_regs (by simp) ..
@[simp] theorem State.fg_fault (s : State) (x1 : Nat) (x2 : Nat) (p : Nat) (f : Fld) : (s.fault x1 x2).fg p f = s.fg p f := State.fg_of_regs (by simp) ..
@[simp] theorem State.rd_tookFree (s : State) (p o : Nat) : (s.tookFree).rd p o = s.rd p o := State.rd_of_regs (by simp) ..
@[simp] theorem State.fg_tookFree (s : State) (p : Nat) (f : Fld) : (s.tookFree).fg p f = s.fg p f := State.fg_of_regs (by simp) ..
@[simp] theorem State.rd_endSnap (s : State) (x1 : Initiator) (p o : Nat) : (s.endSnap x1).rd p o = s.rd p o := State.rd_of_regs (by simp) ..
@[simp] theorem State.fg_endSnap (s : State) (x1 : Initiator) (p : Nat) (f : Fld) : (s.endSnap x1).fg p f = s.fg p f := State.fg_of_regs (by simp) ..
@[simp] theorem State.rd_setPort (s : State) (x1 : LanePort) (x2 : Port) (p o : Nat) : (s.setPort x1 x2).rd p o = s.rd p o := State.rd_of_regs (by simp) ..
@[simp] theorem State.fg_setPort (s : State) (x1 : LanePort) (x2 : Port) (p : Nat) (f : Fld) : (s.setPort x1 x2).fg p f = s.fg p f := State.fg_of_regs (by simp) ..
@[simp] theorem State.rd_setCr (s : State) (x1 : LanePort) (x2 : Cls) (x3 : Cr) (p o : Nat) : (s.setCr x1 x2 x3).rd p o = s.rd p o := State.rd_of_regs (by simp) ..
@[simp] theorem State.fg_setCr (s : State) (x1 : LanePort) (x2 : Cls) (x3 : Cr) (p : Nat) (f : Fld) : (s.setCr x1 x2 x3).fg p f = s.fg p f := State.fg_of_regs (by simp) ..
@[simp] theorem State.rd_setQue (s : State) (x1 : Nat) (x2 : Que) (p o : Nat) : (s.setQue x1 x2).rd p o = s.rd p o := State.rd_of_regs (by simp) ..
@[simp] theorem State.fg_setQue (s : State) (x1 : Nat) (x2 : Que) (p : Nat) (f : Fld) : (s.setQue x1 x2).fg p f = s.fg p f := State.fg_of_regs (by simp) ..
@[simp] theorem State.rd_setRec (s : State) (x1 : Nat) (x2 : FRec) (p o : Nat) : (s.setRec x1 x2).rd p o = s.rd p o := State.rd_of_regs (by simp) ..
@[simp] theorem State.fg_setRec (s : State) (x1 : Nat) (x2 : FRec) (p : Nat) (f : Fld) : (s.setRec x1 x2).fg p f = s.fg p f := State.fg_of_regs (by simp) ..
@[simp] theorem State.rd_setBank (s : State) (x1 : Nat) (x2 : Bank) (p o : Nat) : (s.setBank x1 x2).rd p o = s.rd p o := State.rd_of_regs (by simp) ..
@[simp] theorem State.fg_setBank (s : State) (x1 : Nat) (x2 : Bank) (p : Nat) (f : Fld) : (s.setBank x1 x2).fg p f = s.fg p f := State.fg_of_regs (by simp) ..
@[simp] theorem State.rd_setIng (s : State) (x1 : Nat) (x2 : Ing) (p o : Nat) : (s.setIng x1 x2).rd p o = s.rd p o := State.rd_of_regs (by simp) ..
@[simp] theorem State.fg_setIng (s : State) (x1 : Nat) (x2 : Ing) (p : Nat) (f : Fld) : (s.setIng x1 x2).fg p f = s.fg p f := State.fg_of_regs (by simp) ..
@[simp] theorem State.rd_setEg (s : State) (x1 : Nat) (x2 : Option Eg) (p o : Nat) : (s.setEg x1 x2).rd p o = s.rd p o := State.rd_of_regs (by simp) ..
@[simp] theorem State.fg_setEg (s : State) (x1 : Nat) (x2 : Option Eg) (p : Nat) (f : Fld) : (s.setEg x1 x2).fg p f = s.fg p f := State.fg_of_regs (by simp) ..
@[simp] theorem State.rd_setInbox (s : State) (x1 : Nat) (x2 : List Frame) (p o : Nat) : (s.setInbox x1 x2).rd p o = s.rd p o := State.rd_of_regs (by simp) ..
@[simp] theorem State.fg_setInbox (s : State) (x1 : Nat) (x2 : List Frame) (p : Nat) (f : Fld) : (s.setInbox x1 x2).fg p f = s.fg p f := State.fg_of_regs (by simp) ..
@[simp] theorem State.rd_setLink (s : State) (x1 : Nat) (x2 : Link) (p o : Nat) : (s.setLink x1 x2).rd p o = s.rd p o := State.rd_of_regs (by simp) ..
@[simp] theorem State.fg_setLink (s : State) (x1 : Nat) (x2 : Link) (p : Nat) (f : Fld) : (s.setLink x1 x2).fg p f = s.fg p f := State.fg_of_regs (by simp) ..
@[simp] theorem State.rd_setCell (s : State) (x1 : Nat) (x2 : BitVec 192) (p o : Nat) : (s.setCell x1 x2).rd p o = s.rd p o := State.rd_of_regs (by simp) ..
@[simp] theorem State.fg_setCell (s : State) (x1 : Nat) (x2 : BitVec 192) (p : Nat) (f : Fld) : (s.setCell x1 x2).fg p f = s.fg p f := State.fg_of_regs (by simp) ..
@[simp] theorem State.rd_freeEnt (s : State) (x1 : Nat) (p o : Nat) : (s.freeEnt x1).rd p o = s.rd p o := State.rd_of_regs (by simp) ..
@[simp] theorem State.fg_freeEnt (s : State) (x1 : Nat) (p : Nat) (f : Fld) : (s.freeEnt x1).fg p f = s.fg p f := State.fg_of_regs (by simp) ..
@[simp] theorem State.rd_endCycle (s : State) (p o : Nat) : (s.endCycle).rd p o = s.rd p o := State.rd_of_regs (by simp) ..
@[simp] theorem State.fg_endCycle (s : State) (p : Nat) (f : Fld) : (s.endCycle).fg p f = s.fg p f := State.fg_of_regs (by simp) ..
@[simp] theorem State.rd_setLost (s : State) (x1 : Nat) (x2 : Nat) (p o : Nat) : (s.setLost x1 x2).rd p o = s.rd p o := State.rd_of_regs (by simp) ..
@[simp] theorem State.fg_setLost (s : State) (x1 : Nat) (x2 : Nat) (p : Nat) (f : Fld) : (s.setLost x1 x2).fg p f = s.fg p f := State.fg_of_regs (by simp) ..
@[simp] theorem State.rd_coreDiscard (s : State) (p o : Nat) : (s.coreDiscard).rd p o = s.rd p o := State.rd_of_regs (by simp) ..
@[simp] theorem State.fg_coreDiscard (s : State) (p : Nat) (f : Fld) : (s.coreDiscard).fg p f = s.fg p f := State.fg_of_regs (by simp) ..
@[simp] theorem State.rd_setDom (s : State) (x1 : Nat) (x2 : Dom) (p o : Nat) : (s.setDom x1 x2).rd p o = s.rd p o := State.rd_of_regs (by simp) ..
@[simp] theorem State.fg_setDom (s : State) (x1 : Nat) (x2 : Dom) (p : Nat) (f : Fld) : (s.setDom x1 x2).fg p f = s.fg p f := State.fg_of_regs (by simp) ..
@[simp] theorem State.rd_resRebase (s : State) (p o : Nat) : (s.resRebase).rd p o = s.rd p o := State.rd_of_regs (by simp) ..
@[simp] theorem State.fg_resRebase (s : State) (p : Nat) (f : Fld) : (s.resRebase).fg p f = s.fg p f := State.fg_of_regs (by simp) ..
@[simp] theorem State.rd_setChan (s : State) (x1 : Nat) (x2 : Nat) (x3 : Chan) (p o : Nat) : (s.setChan x1 x2 x3).rd p o = s.rd p o := State.rd_of_regs (by simp) ..
@[simp] theorem State.fg_setChan (s : State) (x1 : Nat) (x2 : Nat) (x3 : Chan) (p : Nat) (f : Fld) : (s.setChan x1 x2 x3).fg p f = s.fg p f := State.fg_of_regs (by simp) ..
@[simp] theorem State.rd_errClear (s : State) (x1 : Nat) (p o : Nat) : (s.errClear x1).rd p o = s.rd p o := State.rd_of_regs (by simp) ..
@[simp] theorem State.fg_errClear (s : State) (x1 : Nat) (p : Nat) (f : Fld) : (s.errClear x1).fg p f = s.fg p f := State.fg_of_regs (by simp) ..
@[simp] theorem State.rd_flip (s : State) (p o : Nat) : (s.flip).rd p o = s.rd p o := State.rd_of_regs (by simp) ..
@[simp] theorem State.fg_flip (s : State) (p : Nat) (f : Fld) : (s.flip).fg p f = s.fg p f := State.fg_of_regs (by simp) ..
@[simp] theorem State.rd_setCard (s : State) (x1 : Nat) (x2 : Card) (p o : Nat) : (s.setCard x1 x2).rd p o = s.rd p o := State.rd_of_regs (by simp) ..
@[simp] theorem State.fg_setCard (s : State) (x1 : Nat) (x2 : Card) (p : Nat) (f : Fld) : (s.setCard x1 x2).fg p f = s.fg p f := State.fg_of_regs (by simp) ..
@[simp] theorem State.rd_setSpBank (s : State) (x1 : Nat) (x2 : SpBank) (p o : Nat) : (s.setSpBank x1 x2).rd p o = s.rd p o := State.rd_of_regs (by simp) ..
@[simp] theorem State.fg_setSpBank (s : State) (x1 : Nat) (x2 : SpBank) (p : Nat) (f : Fld) : (s.setSpBank x1 x2).fg p f = s.fg p f := State.fg_of_regs (by simp) ..
@[simp] theorem State.rd_spZero (s : State) (x1 : Nat) (p o : Nat) : (s.spZero x1).rd p o = s.rd p o := State.rd_of_regs (by simp) ..
@[simp] theorem State.fg_spZero (s : State) (x1 : Nat) (p : Nat) (f : Fld) : (s.spZero x1).fg p f = s.fg p f := State.fg_of_regs (by simp) ..
@[simp] theorem State.rd_setPwr (s : State) (x1 : Nat) (x2 : Pwr) (p o : Nat) : (s.setPwr x1 x2).rd p o = s.rd p o := State.rd_of_regs (by simp) ..
@[simp] theorem State.fg_setPwr (s : State) (x1 : Nat) (x2 : Pwr) (p : Nat) (f : Fld) : (s.setPwr x1 x2).fg p f = s.fg p f := State.fg_of_regs (by simp) ..
@[simp] theorem State.rd_setFeeds (s : State) (x1 : Feeds) (p o : Nat) : (s.setFeeds x1).rd p o = s.rd p o := State.rd_of_regs (by simp) ..
@[simp] theorem State.fg_setFeeds (s : State) (x1 : Feeds) (p : Nat) (f : Fld) : (s.setFeeds x1).fg p f = s.fg p f := State.fg_of_regs (by simp) ..
@[simp] theorem State.rd_setFlow (s : State) (x1 : Nat) (x2 : Flow) (p o : Nat) : (s.setFlow x1 x2).rd p o = s.rd p o := State.rd_of_regs (by simp) ..
@[simp] theorem State.fg_setFlow (s : State) (x1 : Nat) (x2 : Flow) (p : Nat) (f : Fld) : (s.setFlow x1 x2).fg p f = s.fg p f := State.fg_of_regs (by simp) ..
@[simp] theorem State.rd_setIsl (s : State) (x1 : Nat) (x2 : Isl) (p o : Nat) : (s.setIsl x1 x2).rd p o = s.rd p o := State.rd_of_regs (by simp) ..
@[simp] theorem State.fg_setIsl (s : State) (x1 : Nat) (x2 : Isl) (p : Nat) (f : Fld) : (s.setIsl x1 x2).fg p f = s.fg p f := State.fg_of_regs (by simp) ..
@[simp] theorem State.rd_wearClr (s : State) (p o : Nat) : (s.wearClr).rd p o = s.rd p o := State.rd_of_regs (by simp) ..
@[simp] theorem State.fg_wearClr (s : State) (p : Nat) (f : Fld) : (s.wearClr).fg p f = s.fg p f := State.fg_of_regs (by simp) ..
@[simp] theorem State.rd_setTag (s : State) (x1 : Nat) (x2 : Option Txn) (p o : Nat) : (s.setTag x1 x2).rd p o = s.rd p o := State.rd_of_regs (by simp) ..
@[simp] theorem State.fg_setTag (s : State) (x1 : Nat) (x2 : Option Txn) (p : Nat) (f : Fld) : (s.setTag x1 x2).fg p f = s.fg p f := State.fg_of_regs (by simp) ..
@[simp] theorem State.rd_setSlot (s : State) (x1 : Nat) (x2 : Option Slot) (p o : Nat) : (s.setSlot x1 x2).rd p o = s.rd p o := State.rd_of_regs (by simp) ..
@[simp] theorem State.fg_setSlot (s : State) (x1 : Nat) (x2 : Option Slot) (p : Nat) (f : Fld) : (s.setSlot x1 x2).fg p f = s.fg p f := State.fg_of_regs (by simp) ..
@[simp] theorem State.rd_cycle (s : State) (x1 : Option Nat) (p o : Nat) : (s.cycle x1).rd p o = s.rd p o := State.rd_of_regs (by simp) ..
@[simp] theorem State.fg_cycle (s : State) (x1 : Option Nat) (p : Nat) (f : Fld) : (s.cycle x1).fg p f = s.fg p f := State.fg_of_regs (by simp) ..
@[simp] theorem State.rd_setTurn (s : State) (x1 : Bool) (p o : Nat) : (s.setTurn x1).rd p o = s.rd p o := State.rd_of_regs (by simp) ..
@[simp] theorem State.fg_setTurn (s : State) (x1 : Bool) (p : Nat) (f : Fld) : (s.setTurn x1).fg p f = s.fg p f := State.fg_of_regs (by simp) ..
@[simp] theorem State.fg_irqRise (s : State) (x1 : Nat) (x2 : Bool) (p : Nat) (f : Fld) : (s.irqRise x1 x2).fg p f = s.fg p f := State.fg_of_regs (by simp) ..
@[simp] theorem State.rd_originate (s : State) (x1 : Nat) (x2 : Frame) (p o : Nat) : (s.originate x1 x2).rd p o = s.rd p o := State.rd_of_regs (by simp) ..
@[simp] theorem State.fg_originate (s : State) (x1 : Nat) (x2 : Frame) (p : Nat) (f : Fld) : (s.originate x1 x2).fg p f = s.fg p f := State.fg_of_regs (by simp) ..
@[simp] theorem State.rd_direct (s : State) (x1 : Nat) (x2 : Nat) (x3 : Frame) (p o : Nat) : (s.direct x1 x2 x3).rd p o = s.rd p o := State.rd_of_regs (by simp) ..
@[simp] theorem State.fg_direct (s : State) (x1 : Nat) (x2 : Nat) (x3 : Frame) (p : Nat) (f : Fld) : (s.direct x1 x2 x3).fg p f = s.fg p f := State.fg_of_regs (by simp) ..
@[simp] theorem State.rd_mirror (s : State) (x1 : Nat) (x2 : Nat) (x3 : List Byte) (p o : Nat) : (s.mirror x1 x2 x3).rd p o = s.rd p o := State.rd_of_regs (by simp) ..
@[simp] theorem State.fg_mirror (s : State) (x1 : Nat) (x2 : Nat) (x3 : List Byte) (p : Nat) (f : Fld) : (s.mirror x1 x2 x3).fg p f = s.fg p f := State.fg_of_regs (by simp) ..
@[simp] theorem State.rd_mirrorQueue (s : State) (x1 : Nat) (x2 : Nat) (x3 : Nat) (p o : Nat) : (s.mirrorQueue x1 x2 x3).rd p o = s.rd p o := State.rd_of_regs (by simp) ..
@[simp] theorem State.fg_mirrorQueue (s : State) (x1 : Nat) (x2 : Nat) (x3 : Nat) (p : Nat) (f : Fld) : (s.mirrorQueue x1 x2 x3).fg p f = s.fg p f := State.fg_of_regs (by simp) ..
@[simp] theorem State.fg_mirrorCfg (s : State) (x1 : Nat) (x2 : Nat) (x3 : Nat) (x4 : Word) (p : Nat) (f : Fld) : (s.mirrorCfg x1 x2 x3 x4).fg p f = s.fg p f := State.fg_of_regs (by simp) ..

theorem regKey_eq_iff {p o p' o' : Nat} : regKey p o = regKey p' o' ↔ p = p' ∧ o % 4096 = o' % 4096 := by
  unfold regKey; omega
/-- The offsets differ, whatever the page. -/
theorem regKey_ne_of_off {o o' : Nat} (h : regKey 0 o' ≠ regKey 0 o) (p q : Nat) : regKey q o' ≠ regKey p o :=
  fun e => h (regKey_eq_iff.2 ⟨rfl, (regKey_eq_iff.1 e).2⟩)
theorem regKey_ne_of_page {p q : Nat} (h : q ≠ p) (o o' : Nat) : regKey q o' ≠ regKey p o := fun e => h (regKey_eq_iff.1 e).1

section
variable (s : State) (p q : Nat)

/-! ### Writes -/

theorem State.rd_wr_off (v : Word) {o o' : Nat} (h : regKey 0 o' ≠ regKey 0 o) : (s.wr p o v).rd p o' = s.rd p o' := by
  rw [State.rd_wr, if_neg (regKey_ne_of_off h _ _)]
theorem State.rd_wr_page (v : Word) {o o' : Nat} (h : q ≠ p) : (s.wr p o v).rd q o' = s.rd q o' := by
  rw [State.rd_wr, if_neg (regKey_ne_of_page h _ _)]
theorem State.fg_wr_off (v : Word) {o : Nat} {f : Fld} (h : regKey 0 f.off ≠ regKey 0 o) : (s.wr p o v).fg p f = s.fg p f := by
  simp only [State.fg, State.rd_wr_off s p v h]
theorem State.fg_wr_page (v : Word) {o : Nat} {f : Fld} (h : q ≠ p) : (s.wr p o v).fg q f = s.fg q f := by
  simp only [State.fg, State.rd_wr_page s p q v h]

theorem State.fg_wr_get (v : Word) {o : Nat} {f : Fld} (h : o = f.off) : (s.wr p o v).fg p f = f.get v := by
  rw [h, State.fg, State.rd_wr_same]

theorem State.rd_fs_off (v : Nat) {f : Fld} {o : Nat} (h : regKey 0 o ≠ regKey 0 f.off) : (s.fs p f v).rd p o = s.rd p o :=
  State.rd_wr_off s p _ h
theorem State.rd_fs_page (v : Nat) {f : Fld} {o : Nat} (h : q ≠ p) : (s.fs p f v).rd q o = s.rd q o := State.rd_wr_page s p q _ h
theorem State.fg_fs_apart (v : Nat) {f g : Fld}
    (h : regKey 0 g.off ≠ regKey 0 f.off ∨ ((g.lo + g.w ≤ f.lo ∨ f.lo + f.w ≤ g.lo) ∧ g.lo + g.w ≤ 32)) :
    (s.fs p f v).fg p g = s.fg p g :=
  State.fg_fs_ne s p p f g v (h.imp_left fun h => regKey_ne_of_off h _ _)
theorem State.fg_fs_page (v : Nat) {f g : Fld} (h : q ≠ p) : (s.fs p f v).fg q g = s.fg q g := State.fg_wr_page s p q _ h

theorem State.fg_addSat {f : Fld} (n : Nat) (h : f.lo + f.w ≤ 32) : (s.addSat p f n).fg p f = min (s.fg p f + n) (2 ^ f.w - 1) := by
  unfold State.addSat
  rw [State.fg_fs _ _ _ _ h, Nat.mod_eq_of_lt]
  have : 0 < 2 ^ f.w := Nat.two_pow_pos _
  omega
theorem State.fg_inc {f : Fld} (h : f.lo + f.w ≤ 32) : (s.inc p f).fg p f = min (s.fg p f + 1) (2 ^ f.w - 1) := State.fg_addSat s p 1 h
theorem State.fg_addWrap {f : Fld} (n : Nat) (h : f.lo + f.w ≤ 32) : (s.addWrap p f n).fg p f = (s.fg p f + n) % 2 ^ f.w :=
  State.fg_fs s p f _ h
theorem State.inc_eq_fs (f : Fld) : s.inc p f = s.fs p f (min (s.fg p f + 1) (2 ^ f.w - 1)) := rfl
theorem State.addSat_eq_fs (f : Fld) (n : Nat) : s.addSat p f n = s.fs p f (min (s.fg p f + n) (2 ^ f.w - 1)) := rfl

/-! ### Events -/

theorem State.rd_raise_off {b o : Nat} (h : regKey 0 o ≠ regKey 0 EVT_STATUS) : (s.raise p b).rd p o = s.rd p o := by
  rw [State.rd_raise, if_neg (regKey_ne_of_off h _ _)]
theorem State.rd_raise_page {b o : Nat} (h : q ≠ p) : (s.raise p b).rd q o = s.rd q o := by
  rw [State.rd_raise, if_neg (regKey_ne_of_page h _ _)]
theorem State.fg_raise_off {b : Nat} {f : Fld} (h : regKey 0 f.off ≠ regKey 0 EVT_STATUS) : (s.raise p b).fg p f = s.fg p f := by
  simp only [State.fg, State.rd_raise_off s p h]
theorem State.fg_raise_page {b : Nat} {f : Fld} (h : q ≠ p) : (s.raise p b).fg q f = s.fg q f := by
  simp only [State.fg, State.rd_raise_page s p q h]
theorem State.rd_raiseBit_eq (b o : Nat) : (s.raiseBit p b).rd q o = (s.raise p b).rd q o := by rw [State.rd_raiseBit, State.rd_raise]
theorem State.fg_raiseBit_eq (b : Nat) (f : Fld) : (s.raiseBit p b).fg q f = (s.raise p b).fg q f := by
  simp only [State.fg, State.rd_raiseBit_eq]
theorem State.event_raiseBit_eq (b c : Nat) : (s.raiseBit p b).event q c = (s.raise p b).event q c := by
  simp only [State.event, State.rd_raiseBit_eq]

/-- An event raised adds itself to the events of its page. -/
theorem State.event_raise_or {b c : Nat} (hb : b < 32) : (s.raise p c).event p b = (decide (b = c) || s.event p b) := by
  unfold State.event
  rw [State.rd_raise, if_pos rfl, BitVec.getLsbD_or, BitVec.getLsbD_ofNat, Nat.shiftLeft_eq, Nat.one_mul, Nat.testBit_two_pow, Bool.or_comm]
  simp [hb, eq_comm]
theorem State.event_raise_page {b c : Nat} (h : q ≠ p) : (s.raise p c).event q b = s.event q b := by
  simp only [State.event, State.rd_raise_page s p q h]
/-- An event stays raised. -/
theorem State.event_raise_keeps {b c : Nat} (h : s.event q b = true) : (s.raise p c).event q b = true := by
  unfold State.event at *
  rw [State.rd_raise]
  split
  · next e =>
    have : s.rd q EVT_STATUS = s.rd p EVT_STATUS := by simp only [State.rd, e]
    rw [BitVec.getLsbD_or, ← this, h, Bool.true_or]
  · exact h
theorem State.event_fs_off (v : Nat) {f : Fld} {b : Nat} (h : regKey 0 EVT_STATUS ≠ regKey 0 f.off) : (s.fs p f v).event q b = s.event q b := by
  unfold State.event
  rw [State.rd_fs, if_neg (regKey_ne_of_off h _ _)]
theorem State.event_wr_off (v : Word) {o b : Nat} (h : regKey 0 EVT_STATUS ≠ regKey 0 o) : (s.wr p o v).event q b = s.event q b := by
  unfold State.event
  rw [State.rd_wr, if_neg (regKey_ne_of_off h _ _)]
end
end Sys2Proof.Machine
end

section
set_option Elab.async false
/-! The epoch boundary (R342-R346): what a boundary settles before the epoch's own registers are written, and what follows it when no commit,
swap or armed strike is due. -/
namespace Sys2Proof.Machine

theorem onlyRegs.fg {l : List (Nat × Nat)} {s t : State} (h : onlyRegs l s t) {p : Nat} {f : Fld} (ho : f.off < 4096) (hm : (p, f.off) ∉ l) :
    t.fg p f = s.fg p f := by simp only [State.fg, h p f.off ho hm]

/-! ### Publications cut and subscriptions settled -/

/-- The registers in which publications cut and subscriptions settled show. -/
def settledRegs : List (Nat × Nat) :=
  (0x01C, EVT_STATUS) :: (0x01C, SC_CNT_LATE_IN) ::
    (List.range 32).flatMap fun j => [(0x01C, SC_SUB_STAT + 0x10 * j), (0x01C, SC_SUB_LAST + 0x10 * j)]

theorem settledRegs_sub {j : Nat} (hj : j < 32) :
    (0x01C, SC_SUB_STAT + 0x10 * j) ∈ settledRegs ∧ (0x01C, SC_SUB_LAST + 0x10 * j) ∈ settledRegs := by
  have all : ∀ j, j < 32 → (0x01C, SC_SUB_STAT + 0x10 * j) ∈ settledRegs ∧ (0x01C, SC_SUB_LAST + 0x10 * j) ∈ settledRegs := by decide
  exact all j hj

/-- Beside those registers, and the parts that no boundary's own registers, flip or end read, nothing has changed. -/
structure Settled (s t : State) : Prop where
  regs : onlyRegs settledRegs s t
  scan : t.scan = s.scan
  stopping : t.stopping = s.stopping
  tw : t.tw = s.tw
  up : t.up = s.up

namespace Settled
variable {s t u : State}

theorem refl (s : State) : Settled s s := ⟨onlyRegs.refl _ _, rfl, rfl, rfl, rfl⟩

theorem trans (h : Settled s t) (k : Settled t u) : Settled s u :=
  ⟨h.regs.trans k.regs, k.scan.trans h.scan, k.stopping.trans h.stopping, k.tw.trans h.tw, k.up.trans h.up⟩

theorem foldl {α : Type} {f : State → α → State} {l : List α} (hf : ∀ t, ∀ a ∈ l, Settled t (f t a)) (s : State) : Settled s (l.foldl f s) := by
  induction l generalizing s with
  | nil => exact refl s
  | cons a l ih => exact (hf s a (by simp)).trans (ih (fun t b hb => hf t b (by simp [hb])) _)

theorem cutPub (s : State) (k : Nat) : Settled s (s.cutPub k) := by
  have counted (t : State) : Settled t (t.inc 0x01C SC_CNT_LATE_IN_COUNT) :=
    ⟨(onlyRegs.refl _ t).inc (by decide) (by decide), rfl, rfl, rfl, rfl⟩
  have same {t : State} (h : t = { s with ingress := t.ingress, core := t.core }) : Settled s t :=
    ⟨(onlyRegs.refl _ s).of_regs (by rw [h]), by rw [h], by rw [h], by rw [h], by rw [h]⟩
  unfold State.cutPub
  dsimp only
  split
  · refine trans ?_ (counted _)
    split
    · exact same rfl
    · exact same rfl
  · exact refl s

theorem settle (e : Nat) (s : State) {j : Nat} (hj : j < 32) : Settled s (s.settle e j) := by
  obtain ⟨stat, last⟩ := settledRegs_sub hj
  have low : SC_SUB_STAT + 0x10 * j < 4096 ∧ SC_SUB_LAST + 0x10 * j < 4096 := by simp only [SC_SUB_STAT, SC_SUB_LAST]; omega
  unfold State.settle
  dsimp only
  split
  · exact refl s
  · split
    · exact ⟨((onlyRegs.refl _ s).fs low.1 stat).wr low.2 last, by simp, by simp, by simp, by simp⟩
    · exact ⟨(((onlyRegs.refl _ s).fs low.1 stat).inc low.1 stat).raise (by decide), by simp, by simp, by simp, by simp⟩

end Settled

/-! ### The flip -/

theorem Map.getD_foldl_put {V : Type} [DecidableEq V] {f : Nat → V} {d : V} (l : List (Nat × Option V)) (m : Map V) (k : Nat)
    (h : k ∉ l.map (·.1)) : (l.foldl (fun (m : Map V) e => m.put e.1 (f e.1) d) m).getD k d = m.getD k d := by
  induction l generalizing m with
  | nil => rfl
  | cons e l ih =>
    simp only [List.map_cons, List.mem_cons, not_or] at h
    rw [List.foldl_cons, ih _ h.2, Map.getD_put_other _ _ _ _ h.1]

theorem Map.getD_foldl_put_mem {V : Type} [DecidableEq V] {f : Nat → V} {d : V} (l : List (Nat × Option V)) (m : Map V) (k : Nat)
    (h : k ∈ l.map (·.1)) : (l.foldl (fun (m : Map V) e => m.put e.1 (f e.1) d) m).getD k d = f k := by
  induction l generalizing m with
  | nil => simp at h
  | cons e l ih =>
    rw [List.foldl_cons]
    by_cases hl : k ∈ l.map (·.1)
    · exact ih _ hl
    · have : k = e.1 := by simpa [hl] using h
      rw [Map.getD_foldl_put _ _ _ hl, this, Map.getD_put_same]

theorem Map.getD_of_unlisted {V : Type} (m : Map V) (k : Nat) (d : V) (h : k ∉ m.map (·.1)) : m.getD k d = d := by
  induction m with
  | nil => rfl
  | cons e m ih =>
    simp only [List.map_cons, List.mem_cons, not_or] at h
    simp only [Map.getD, if_neg h.1, ih h.2]

/-- After a flip every group shows its newest content. -/
theorem State.grpVis_flip (s : State) (k : Nat) : s.flip.grpVis k = s.grpNew k := by
  by_cases h : k ∈ s.scan.hid.map (·.1)
  · exact Map.getD_foldl_put_mem s.scan.hid s.scan.vis k h
  · have unwritten : s.grpNew k = s.grpVis k := by
      unfold State.grpNew
      rw [Map.getD_of_unlisted _ _ _ h]; rfl
    rw [unwritten]
    exact Map.getD_foldl_put s.scan.hid s.scan.vis k h

/-! ### The boundary's own registers -/

/-- The state in which a boundary writes its own registers: at the first one nothing is settled. -/
def State.boundarySettled (s : State) : State :=
  if s.fb 0x01C SC_STATUS_WAITING then s else (List.range 32).foldl (State.settle s.epoch) ((List.range 8).foldl State.cutPub s).flip

/-- What a boundary has settled reads, beside the registers settled, as before it; the groups are flipped but at the first. -/
structure AtBoundary (s u : State) : Prop where
  regs : onlyRegs settledRegs s u
  scan : u.scan = if s.fb 0x01C SC_STATUS_WAITING then s.scan else s.flip.scan
  stopping : u.stopping = s.stopping
  tw : u.tw = s.tw
  up : u.up = s.up

theorem State.flip_scan_congr {s t : State} (h : t.scan = s.scan) : t.flip.scan = s.flip.scan := by
  unfold State.flip State.grpNew State.grpVis
  rw [h]

theorem State.boundarySettled_spec (s : State) : AtBoundary s s.boundarySettled := by
  unfold State.boundarySettled
  split
  · next h => exact ⟨onlyRegs.refl _ _, by rw [if_pos h], rfl, rfl, rfl⟩
  · next h =>
    have cut : Settled s ((List.range 8).foldl State.cutPub s) := Settled.foldl (fun t a _ => Settled.cutPub t a) s
    have settled := Settled.foldl (l := List.range 32) (f := State.settle s.epoch)
      (fun t a ha => Settled.settle _ t (List.mem_range.1 ha)) ((List.range 8).foldl State.cutPub s).flip
    exact ⟨(cut.regs.of_regs (State.flip_regs _)).trans settled.regs,
      by rw [if_neg h, settled.scan, State.flip_scan_congr cut.scan], by rw [settled.stopping, State.flip_stopping, cut.stopping],
      by rw [settled.tw, State.flip_tw, cut.tw], by rw [settled.up, State.flip_up, cut.up]⟩

/-- The epoch that a boundary begins. -/
def State.nextEpoch (s : State) : Nat := if s.fb 0x01C SC_STATUS_WAITING then s.scan.first else (s.epoch + 1) % 2 ^ 32

/-- The boundary's own registers and marks, written in `u`. -/
def State.stampBoundary (s u : State) : State :=
  let s3 := ((u.fs 0x01C SC_STATUS_WAITING 0).fs 0x01C SC_STATUS_STARTED 1).fs 0x01C SC_STATUS_GUARDING 0
  let s4 := (s3.wr 0x01C SC_EPOCH (BitVec.ofNat 32 s.nextEpoch)).wr 0x01C SC_BOUND_NS (BitVec.ofNat 32 (uns 32 s.scan.next))
  { s4 with scan := { s4.scan with
      bnd := s.scan.next, next := s.scan.next + s4.epochNs, got := [], lateWas := s4.scan.late, late := [], latchDue := true
      stat := (List.range 192).foldl (fun (m : Map Nat) g => m.put g (s4.statAt g) 0) [] } }

theorem State.scanBoundary_eq (s : State) : s.scanBoundary =
    ((if (s.stampBoundary s.boundarySettled).stopping.contains 0x01C then (s.stampBoundary s.boundarySettled).scanStop
      else s.stampBoundary s.boundarySettled).heldWrites).raise 0x01C EV_SC_EPOCH := by
  unfold State.scanBoundary State.stampBoundary State.boundarySettled State.nextEpoch
  dsimp only
  split <;> rfl

/-- With no access held, no write waits for the boundary. -/
theorem State.heldWrites_none {s : State} (h : s.scan.held = []) : s.heldWrites = s := by
  unfold State.heldWrites
  rw [h]
  have : { s.scan with held := [] } = s.scan := by rw [← h]
  rw [List.foldl_nil, this]

/-! ### What follows a boundary -/

/-- Beside the twin's page and part, `t` is as `s`, and the swap proposed stays. -/
structure TwinJudged (s t : State) : Prop where
  pages : onlyPages [0x024] s t
  scan : t.scan = s.scan
  stopping : t.stopping = s.stopping
  swap : t.tw.swap = s.tw.swap

namespace TwinJudged
variable {s t : State}

theorem refl (s : State) : TwinJudged s s := ⟨onlyPages.refl _ _, rfl, rfl, rfl⟩

theorem ite {c : Prop} [Decidable c] {u : State} (ht : TwinJudged s t) (hu : TwinJudged s u) : TwinJudged s (if c then t else u) := by
  split <;> assumption

theorem fs (h : TwinJudged s t) {f : Fld} {v : Nat} : TwinJudged s (t.fs 0x024 f v) := ⟨h.pages.fs (by decide), h.scan, h.stopping, h.swap⟩

theorem raise (h : TwinJudged s t) {b : Nat} : TwinJudged s (t.raise 0x024 b) :=
  ⟨h.pages.raise (by decide), by simp [h.scan], by simp [h.stopping], by simp [h.swap]⟩

theorem setTw (h : TwinJudged s t) {x : Tw} (hx : x.swap = t.tw.swap := by rfl) : TwinJudged s { t with tw := x } :=
  ⟨h.pages.of_regs rfl, h.scan, h.stopping, hx.trans h.swap⟩

theorem mirrorJudge (h : TwinJudged s t) : TwinJudged s t.mirrorJudge := by
  have lag := ite (u := t) (c := t.fg 0x024 TW_STATUS_MSTATE = 2 ∧ (!t.mirrorOk) = true) ((h.fs (f := TW_STATUS_MSTATE) (v := 3)).raise (b := EV_TW_MIRROR_LAG)) h
  exact ite (ite lag lag.setTw).fs (ite lag lag.setTw)

theorem mirrorEpoch (h : TwinJudged s t) : TwinJudged s t.mirrorEpoch := by
  have judged := (h.setTw (x := { t.tw with canBad := t.tw.canLate, canLate := false })).mirrorJudge
  exact ite (ite judged.fs.mirrorJudge judged.setTw) judged

end TwinJudged

/-- With no write waiting for the guard's end, its release only takes the empty list. -/
theorem State.guardRelease_none {s : State} (h : s.scan.waits = []) : s.guardRelease = s := by
  unfold State.guardRelease
  rw [h]
  have : { s.scan with waits := [] } = s.scan := by rw [← h]
  rw [List.foldl_nil, this]

theorem State.swapDue_none {s : State} (h : s.tw.swap = none) (e : Nat) : s.swapDue e = false := by
  unfold State.swapDue
  rw [h]

theorem State.updEpoch_unarmed {s : State} (h : s.upState ≠ 3) (e : Nat) : s.updEpoch e = s := by
  unfold State.updEpoch
  split
  · next h3 _ => exact absurd h3 h
  · rfl

theorem State.disarmed_unarmed {s : State} (h : s.upState ≠ 3) : s.disarmed = s := if_neg h

/-- What a boundary's follow-up leaves: with no commit, swap or strike due, the scan page and the canopy stay as the boundary made them. -/
theorem State.epochBoundary_quiet {s : State} (hrun : s.running 0x01C = true) (hready : s.ready 0x01C = true)
    (hcommit : s.scanBoundary.commitPending 0x01C = false) (hwaits : s.scanBoundary.scan.waits = [])
    (hswap : s.scanBoundary.tw.swap = none) (hup : s.scanBoundary.upState ≠ 3) :
    ∃ t, s.epochBoundary = t ∧ onlyPages [0x024] s.scanBoundary t ∧
      t.scan = { s.scanBoundary.scan with hist := s.scanBoundary.rd 0x280 MEM_HIST_CFG } ∧ t.stopping = s.scanBoundary.stopping := by
  set b := s.scanBoundary with hb
  have after := (TwinJudged.refl ({ b with scan := { b.scan with hist := b.rd 0x280 MEM_HIST_CFG } } : State)).mirrorEpoch
  set m := ({ b with scan := { b.scan with hist := b.rd 0x280 MEM_HIST_CFG } } : State).mirrorEpoch with hm
  have unarmed : m.upState ≠ 3 := by
    unfold State.upState State.fg at hup ⊢
    rwa [after.pages _ _ (by decide) (by decide)]
  refine ⟨m, ?_, after.pages, after.scan, after.stopping⟩
  unfold State.epochBoundary
  rw [hrun, hready, ← hb]
  simp only [Bool.and_self, Bool.not_true, Bool.false_eq_true, if_false, hcommit]
  rw [State.guardRelease_none (by exact hwaits), ← hm, State.swapDue_none (after.swap.trans hswap)]
  simp only [Bool.false_eq_true, if_false, State.updEpoch_unarmed unarmed, State.disarmed_unarmed unarmed, ite_self]

/-! ### The three boundaries -/

/-- The registers of the scan page and the marks as a boundary's stamp writes them; the rest as before it or as settled. -/
structure Stamped (s b : State) : Prop where
  epoch : b.rd 0x01C SC_EPOCH = BitVec.ofNat 32 s.nextEpoch
  bound : b.rd 0x01C SC_BOUND_NS = BitVec.ofNat 32 (uns 32 s.scan.next)
  waiting : b.fg 0x01C SC_STATUS_WAITING = 0
  started : b.fg 0x01C SC_STATUS_STARTED = 1
  guarding : b.fg 0x01C SC_STATUS_GUARDING = 0
  pageState : ∀ f : Fld, f.off = PAGE_STATE → b.fg 0x01C f = s.fg 0x01C f
  upState : b.upState = s.upState
  scan : b.scan = { s.boundarySettled.scan with
    bnd := b.scan.bnd, next := s.scan.next + s.epochNs, got := b.scan.got, lateWas := b.scan.lateWas, late := b.scan.late, latchDue := true
    stat := b.scan.stat }
  stopping : b.stopping = s.stopping
  swap : b.tw = s.tw

theorem State.stampBoundary_spec (s : State) : Stamped s (s.stampBoundary s.boundarySettled) := by
  have settled := s.boundarySettled_spec
  have period : s.boundarySettled.fg 0x01C SC_PERIOD_PERIOD = s.fg 0x01C SC_PERIOD_PERIOD := settled.regs.fg (by decide) (by decide)
  have up : s.boundarySettled.fg 0x290 UP_STATUS_STATE = s.fg 0x290 UP_STATUS_STATE := settled.regs.fg (by decide) (by decide)
  refine ⟨?_, ?_, ?_, ?_, ?_, fun f hf => ?_, ?_, ?_, ?_, ?_⟩ <;> unfold State.stampBoundary <;>
    simp (disch := decide) [State.rd_wr_off, State.fg_wr_off, State.fg_fs_apart, State.fg_fs, State.upState, State.fg_wr_page, State.fg_fs_page, up,
      State.epochNs, period, settled.stopping, settled.tw]
  unfold State.fg
  rw [hf, State.rd_wr_off _ _ _ (by decide), State.rd_wr_off _ _ _ (by decide), State.rd_fs_off _ _ _ (by decide),
    State.rd_fs_off _ _ _ (by decide), State.rd_fs_off _ _ _ (by decide), settled.regs _ _ (by decide) (by decide)]

/-- A boundary of a unit that is not asked to stop, with nothing held or due: its stamp, SC_EPOCH raised, and the registers of the twin's page. -/
theorem State.epochBoundary_running {s : State} (hrun : s.running 0x01C = true) (hready : s.ready 0x01C = true)
    (hcommit : s.commitPending 0x01C = false) (hstop : 0x01C ∉ s.stopping) (hheld : s.scan.held = []) (hwaits : s.scan.waits = [])
    (hswap : s.tw.swap = none) (hup : s.upState ≠ 3) :
    ∃ b t, s.epochBoundary = t ∧ Stamped s b ∧ onlyPages [0x024] (b.raise 0x01C EV_SC_EPOCH) t ∧ t.scan.vis = b.scan.vis ∧
      t.scan.hid = b.scan.hid ∧ t.scan.next = b.scan.next ∧ t.scan.latchDue = b.scan.latchDue := by
  have spec := s.stampBoundary_spec
  have settled := s.boundarySettled_spec
  have held : (s.stampBoundary s.boundarySettled).scan.held = [] := by
    rw [spec.scan, settled.scan]; split <;> exact hheld
  have waits : (s.stampBoundary s.boundarySettled).scan.waits = [] := by
    rw [spec.scan, settled.scan]; split <;> exact hwaits
  have boundary : s.scanBoundary = (s.stampBoundary s.boundarySettled).raise 0x01C EV_SC_EPOCH := by
    rw [State.scanBoundary_eq, if_neg (by simpa [spec.stopping] using hstop), State.heldWrites_none held]
  generalize s.stampBoundary s.boundarySettled = b at *
  obtain ⟨t, e, pages, scan, -⟩ := State.epochBoundary_quiet hrun hready
    (by rw [boundary]
        simpa (disch := decide) [State.commitPending, State.fb, State.fg_raise_off, spec.pageState PAGE_STATE_COMMIT_PENDING rfl] using hcommit)
    (by rw [boundary]; simpa using waits) (by rw [boundary]; simpa [spec.swap] using hswap)
    (by rw [boundary]
        have : (b.raise 0x01C EV_SC_EPOCH).upState = b.upState := by simp (disch := decide) [State.upState, State.fg_raise_page]
        rw [this, spec.upState]; exact hup)
  rw [boundary] at pages scan
  simp only [State.raise_scan] at scan
  exact ⟨b, t, e, spec, pages, by rw [scan], by rw [scan], by rw [scan], by rw [scan]⟩

/-- What the scan unit's stop leaves on its page (R344). -/
theorem State.scanStop_spec (s : State) (hrun : s.running 0x01C = true) :
    s.scanStop.running 0x01C = false ∧ s.scanStop.scan = { s.scan with latchDue := false } ∧
      s.scanStop.stopping = s.stopping.filter (· != 0x01C) ∧ s.scanStop.event 0x01C EV_STATE_CHANGE = true ∧
      s.scanStop.commitPending 0x01C = s.commitPending 0x01C ∧ s.scanStop.upState = s.upState ∧ s.scanStop.tw = s.tw := by
  have running : s.fg 0x01C PAGE_STATE_RUNNING ≠ 0 := by simpa [State.running, State.fb] using hrun
  unfold State.scanStop State.setState
  dsimp only
  rw [if_neg (by simpa (disch := decide) [State.fb, State.fg_fs_apart] using running)]
  refine ⟨?_, ?_, ?_, State.event_raise _ _ (by decide), ?_, ?_, ?_⟩ <;>
    simp (disch := decide) [State.running, State.commitPending, State.upState, State.fb, State.fg_raise_off, State.fg_raise_page, State.fg_fs,
      State.fg_fs_apart, State.fg_fs_page, bit]

/-- The boundary at which a unit asked to stop stops. -/
theorem State.epochBoundary_stopping {s : State} (hrun : s.running 0x01C = true) (hready : s.ready 0x01C = true)
    (hcommit : s.commitPending 0x01C = false) (hstop : 0x01C ∈ s.stopping) (hheld : s.scan.held = []) (hwaits : s.scan.waits = [])
    (hswap : s.tw.swap = none) (hup : s.upState ≠ 3) :
    ∃ b t, s.epochBoundary = t ∧ Stamped s b ∧ onlyPages [0x024] (b.scanStop.raise 0x01C EV_SC_EPOCH) t ∧
      t.scan.latchDue = b.scanStop.scan.latchDue ∧ t.stopping = b.scanStop.stopping := by
  have spec := s.stampBoundary_spec
  have settled := s.boundarySettled_spec
  have running : (s.stampBoundary s.boundarySettled).running 0x01C = true := by
    simpa only [State.running, State.fb, spec.pageState PAGE_STATE_RUNNING rfl] using hrun
  obtain ⟨stopped, scan, -, -, commit, up, tw⟩ := State.scanStop_spec _ running
  have held : (s.stampBoundary s.boundarySettled).scanStop.scan.held = [] := by
    rw [scan, spec.scan, settled.scan]; split <;> exact hheld
  have waits : (s.stampBoundary s.boundarySettled).scanStop.scan.waits = [] := by
    rw [scan, spec.scan, settled.scan]; split <;> exact hwaits
  have boundary : s.scanBoundary = (s.stampBoundary s.boundarySettled).scanStop.raise 0x01C EV_SC_EPOCH := by
    rw [State.scanBoundary_eq, if_pos (by simpa [spec.stopping] using hstop), State.heldWrites_none held]
  generalize s.stampBoundary s.boundarySettled = b at *
  obtain ⟨t, e, pages, scan', stops⟩ := State.epochBoundary_quiet hrun hready
    (by rw [boundary]
        have : (b.scanStop.raise 0x01C EV_SC_EPOCH).commitPending 0x01C = b.scanStop.commitPending 0x01C := by
          simp (disch := decide) [State.commitPending, State.fb, State.fg_raise_off]
        rw [this, commit]
        simpa [State.commitPending, State.fb, spec.pageState PAGE_STATE_COMMIT_PENDING rfl] using hcommit)
    (by rw [boundary]; simpa using waits) (by rw [boundary]; simpa [tw, spec.swap] using hswap)
    (by rw [boundary]
        have : (b.scanStop.raise 0x01C EV_SC_EPOCH).upState = b.scanStop.upState := by
          simp (disch := decide) [State.upState, State.fg_raise_page]
        rw [this, up, spec.upState]; exact hup)
  rw [boundary] at pages scan' stops
  simp only [State.raise_scan, State.raise_stopping] at scan' stops
  exact ⟨b, t, e, spec, pages, by rw [scan'], stops⟩

/-- A field of the scan page that a boundary's follow-up and its SC_EPOCH leave. -/
theorem fg_after {b t : State} (h : onlyPages [0x024] (b.raise 0x01C EV_SC_EPOCH) t) {f : Fld} (ho : f.off < 4096)
    (hf : regKey 0 f.off ≠ regKey 0 EVT_STATUS) : t.fg 0x01C f = b.fg 0x01C f := by
  rw [← State.fg_raise_off b 0x01C (b := EV_SC_EPOCH) hf]
  simp only [State.fg, h 0x01C f.off ho (by decide)]

theorem event_after {b t : State} (h : onlyPages [0x024] b t) (e : Nat) : t.event 0x01C e = b.event 0x01C e := by
  simp only [State.event, h 0x01C EVT_STATUS (by decide) (by decide)]

/-- Settles O42: a boundary with nothing due is its stamp on what it has settled, and nothing that follows it is of the scan page. -/
theorem epochBoundaryFlipsTheCanopy : Obligations.EpochBoundaryFlipsTheCanopy := by
  refine ⟨fun s hrun hready hwait hcommit hstop hheld hwaits hswap hup => ?_,
    fun s hrun hready hwait hcommit hstop hheld hwaits hswap hup => ?_,
    fun s hrun hready hcommit hstop hheld hwaits hswap hup => ?_⟩
  · obtain ⟨b, t, e, spec, pages, vis, hid, next, latch⟩ :=
      State.epochBoundary_running hrun hready hcommit hstop hheld hwaits hswap hup
    have flipped : b.scan.vis = s.flip.scan.vis ∧ b.scan.hid = [] := by
      rw [spec.scan, s.boundarySettled_spec.scan, hwait]; exact ⟨rfl, rfl⟩
    have epoch : t.rd 0x01C SC_EPOCH = BitVec.ofNat 32 s.nextEpoch := by
      rw [pages _ _ (by decide) (by decide), State.rd_raise_off _ _ (by decide), spec.epoch]
    refine ⟨t, congrArg Host.Outcome.next e, fun k => ?_, ?_, ?_, ?_, ?_, ?_, ?_, ?_, ?_, ?_⟩
    · rw [← State.grpVis_flip]
      unfold State.grpVis; rw [vis, flipped.1]
    · rw [hid, flipped.2]
    · rw [State.epoch, epoch, State.nextEpoch, hwait]
      simp
    · rw [pages _ _ (by decide) (by decide), State.rd_raise_off _ _ (by decide), spec.bound]
    · rw [next, spec.scan]
    · rw [fg_after pages (by decide) (by decide), spec.started]
    · rw [fg_after pages (by decide) (by decide), spec.guarding]
    · rw [event_after pages, State.event_raise _ _ (by decide)]
    · rw [latch, spec.scan]
    · rw [State.running, State.fb, fg_after pages (by decide) (by decide), spec.pageState _ rfl]; exact hrun
  · obtain ⟨b, t, e, spec, pages, vis, -⟩ := State.epochBoundary_running hrun hready hcommit hstop hheld hwaits hswap hup
    have epoch : t.rd 0x01C SC_EPOCH = BitVec.ofNat 32 s.nextEpoch := by
      rw [pages _ _ (by decide) (by decide), State.rd_raise_off _ _ (by decide), spec.epoch]
    refine ⟨t, congrArg Host.Outcome.next e, ?_, ?_, ?_, ?_, ?_⟩
    · rw [State.epoch, epoch, State.nextEpoch, hwait]
      simp
    · rw [vis, spec.scan, s.boundarySettled_spec.scan, hwait]; rfl
    · rw [fg_after pages (by decide) (by decide), spec.waiting]
    · rw [fg_after pages (by decide) (by decide), spec.started]
    · rw [event_after pages, State.event_raise _ _ (by decide)]
  · obtain ⟨b, t, e, spec, pages, latch, stops⟩ := State.epochBoundary_stopping hrun hready hcommit hstop hheld hwaits hswap hup
    obtain ⟨stopped, scan, stopping, change, -⟩ :=
      State.scanStop_spec b (by simpa only [State.running, State.fb, spec.pageState PAGE_STATE_RUNNING rfl] using hrun)
    have asked : exec (.blockStopPoint 0x01C) s = .next s.epochBoundary := by
      change execBlockStopPoint 0x01C s = _
      rw [execBlockStopPoint, if_pos rfl, if_pos (by simpa using hstop)]
    refine ⟨t, asked.trans (congrArg Host.Outcome.next e), ?_, ?_, ?_, ?_⟩
    · rw [State.running, State.fb, fg_after pages (by decide) (by decide)]; exact stopped
    · rw [latch, scan]
    · rw [stops, stopping]; simp
    · rw [event_after pages]
      exact State.event_raise_keeps _ _ _ change

end Sys2Proof.Machine
end

section
set_option Elab.async false
/-! The groundsheet's count, fuses, supply and watchdog (R74, R83-R85). -/
namespace Sys2Proof.Machine

/-- A completed write: what its operation leaves of the state in which the access has ended the initiator's packed group. -/
theorem completes_write {c : Instr} {s : State} {who : Initiator} {p o : Nat} {op : State → State} {P : State → Prop}
    (he : exec c s = .next (s.write who p o op)) (hacc : s.accepts who p o = true)
    (h : P ((op (s.touch who false)).answer who rspOk 0)) : completes c s P :=
  ⟨_, he.trans (congrArg Host.Outcome.next (State.write_accepts hacc op)), h⟩

/-- A completed read. -/
theorem completes_read {c : Instr} {s : State} {who : Initiator} {p o : Nat} {op : State → State × Word} {P : State → Prop}
    (he : exec c s = .next (s.read who p o op)) (hacc : s.reach who p o = rspOk)
    (h : P ((op (s.touch who true)).1.answer who rspOk (op (s.touch who true)).2)) : completes c s P :=
  ⟨_, he.trans (congrArg Host.Outcome.next (State.read_accepts hacc op)), h⟩

/-! ### The count read -/

/-- The bits of AON_HI with its low half latched. -/
theorem aonHi_bit (x : Word) (n i : Nat) :
    ((x &&& 0xFFFF0000) ||| BitVec.ofNat 32 (n % 65536)).getLsbD i = if i < 16 then n.testBit i else x.getLsbD i := by
  have high : ∀ i, i < 32 → (0xFFFF0000#32).getLsbD i = decide (16 ≤ i) := by decide
  simp only [BitVec.getLsbD_or, BitVec.getLsbD_and, BitVec.getLsbD_ofNat]
  rw [show (65536 : Nat) = 2 ^ 16 from rfl, Nat.testBit_mod_two_pow]
  by_cases h : i < 32
  · rw [show BitVec.getLsbD (4294901760 : Word) i = decide (16 ≤ i) from high i h]
    by_cases h16 : i < 16 <;> simp [h16, h, Nat.not_le.2, Nat.le_of_not_lt]
  · simp [BitVec.getLsbD_of_ge x i (by omega), h, show ¬ i < 16 by omega]

theorem aonHi_latched (x : Word) (n : Nat) :
    ((x &&& 0xFFFF0000) ||| BitVec.ofNat 32 (n % 65536)).toNat % 2 ^ 16 = n % 2 ^ 16 ∧
      ((x &&& 0xFFFF0000) ||| BitVec.ofNat 32 (n % 65536)).toNat / 2 ^ 16 = x.toNat / 2 ^ 16 := by
  constructor <;> apply Nat.eq_of_testBit_eq <;> intro i
  · rw [Nat.testBit_mod_two_pow, Nat.testBit_mod_two_pow, BitVec.testBit_toNat, aonHi_bit]
    by_cases h : i < 16 <;> simp [h]
  · rw [Nat.testBit_div_two_pow, Nat.testBit_div_two_pow, BitVec.testBit_toNat, BitVec.testBit_toNat, aonHi_bit, if_neg (by omega)]

/-- The low 31 bits stay when the top bit is written. -/
theorem topBit_set_mod (v : Nat) (x : Word) (o : Nat) : ((⟨o, 31, 1⟩ : Fld).set v x).toNat % 2 ^ 31 = x.toNat % 2 ^ 31 := by
  apply Nat.eq_of_testBit_eq
  intro i
  rw [Nat.testBit_mod_two_pow, Nat.testBit_mod_two_pow, BitVec.testBit_toNat, BitVec.testBit_toNat]
  by_cases h : i < 31
  · rw [Fld.getLsbD_set _ _ _ _ (by omega), if_neg (by dsimp only; omega)]
  · simp [h]

/-! ### The fuse array -/

/-- A bit of the array after one is burnt. -/
theorem Gs.burn_bit (g : Gs) (b i : Nat) : ((g.burn b).fuse.getD (i / 32) 0).getLsbD (i % 32) =
    ((g.fuse.getD (i / 32) 0).getLsbD (i % 32) || decide (i = b)) := by
  unfold Gs.burn
  rw [Map.getD_put _ _ _ _ _ _ fun _ => rfl]
  split
  · next e =>
    rw [BitVec.getLsbD_or, BitVec.getLsbD_ofNat, Nat.shiftLeft_eq, Nat.one_mul, Nat.testBit_two_pow, e]
    have : decide (b % 32 = i % 32) = decide (i = b) := by
      rw [decide_eq_decide]; omega
    simp [this, Nat.mod_lt]
  · next e =>
    rw [decide_eq_false (fun h => e (by rw [h])), Bool.or_false]

/-- Settles O24. -/
theorem groundsheetCountsFusesAndSupply : Obligations.GroundsheetCountsFusesAndSupply := by
  refine ⟨fun s who hreach => ?_, fun s on => ?_, fun s who v hacc hkey hgo hbusy => ?_, fun s b ok i hprog => ?_, fun s supply => ?_,
    fun s who v off hacc => ?_⟩
  · refine completes_read rfl hreach ?_
    have latched := aonHi_latched (s.rd 0 GS_AON_HI) (s.gs.aon / 2 ^ 32)
    have gs : (s.touch who true).gs = s.gs := State.gs_touch ..
    refine ⟨by simp [State.aonRead, gs], ?_, ?_⟩ <;>
      simpa (disch := decide) [State.aonRead, State.rd_touch, gs] using (by first | exact latched.1 | exact latched.2)
  · refine ⟨_, rfl, ?_, ?_⟩
    · rw [State.fb, show execCrystalOscillationChange.setBits on (s.rd 0 GS_AON_HI) = (⟨GS_AON_HI, 31, 1⟩ : Fld).set (bit on) (s.rd 0 GS_AON_HI) from rfl]
      rw [State.fg, State.rd_wr_same, Fld.get_set _ _ _ (by decide)]
      cases on <;> rfl
    · rw [State.rd_wr_same]
      exact topBit_set_mod ..
  · refine completes_write rfl hacc ?_
    have gs : (s.touch who false).gs = s.gs := State.gs_touch ..
    have busy : (s.touch who false).fb 1 FUSE_PROG_STATUS_BUSY = false := by
      rw [State.fb, State.fg_touch _ _ _ _ _ (by decide)]; exact hbusy
    have addr : (s.touch who false).fg 1 FUSE_PROG_ADDR_BIT = s.fg 1 FUSE_PROG_ADDR_BIT := State.fg_touch _ _ _ _ _ (by decide)
    unfold State.fuseProg
    rw [if_neg (by simp [hkey, hgo, busy])]
    simp only [addr, gs]
    split
    · next h =>
      refine ⟨fun _ => ⟨by simp, ?_⟩, fun n => absurd h n, by simp⟩
      rw [State.fb, State.fg_answer, State.fg_wr_get _ _ _ (by decide)]; decide
    · next h => exact ⟨fun y => absurd y h, fun _ => ⟨by simp, by simp⟩, by simp⟩
  · refine ⟨_, rfl, ?_⟩
    simp only [hprog]
    refine ⟨?_, by simp, by simp⟩
    cases ok
    · simp
    · simpa using Gs.burn_bit s.gs b i
  · exact ⟨_, rfl, by simp, State.event_raise _ _ (by decide)⟩
  · refine completes_write rfl hacc ?_
    have other (o : Nat) : (s.touch who false).rd 0 o = s.rd 0 o := State.rd_touch _ _ _ _ _ (regKey_ne_of_page (by decide) _ _)
    unfold State.wdogKick
    split <;> simp [other]

end Sys2Proof.Machine
end

section
set_option Elab.async false
/-! ## What each function of the machine leaves

The frame of every function, from any state: registers of pages of other kinds, and the other parts of the state, stay as in a base state.
The layer follows Laws/Kept, whose masks it shares, without the canonical form, which needs a canonical state to begin with. -/
namespace Sys2Proof.Machine

/-! ### The relation -/

/-- The commands waiting are those of `b`, and what the mask `M` does not name is as in `b`. -/
structure Framed (M : Nat) (b s : State) : Prop where
  pending : s.pending = b.pending
  rd : ∀ p o, M.testBit (kindBit (kindOf p)) = false → s.rd p o = b.rd p o
  part : ∀ f : Part, M.testBit f.bit = false → f.same b s

/-- A mask is within itself. -/
theorem Sub.self (m : Nat) : Sub m m := Nat.and_self m

theorem Framed.refl (M : Nat) (s : State) : Framed M s s := ⟨rfl, fun _ _ _ => rfl, fun f _ => by cases f <;> rfl⟩

variable {M : Nat} {b : State} {s : State}

theorem Framed.set_stopping {x} (h : Framed M b s) (hb : M.testBit 1 = true) : Framed M b (State.mk s.regs s.shad x s.ans s.faultQ s.iso s.gs s.isl s.pll s.spll s.mram s.lc s.ingress s.core s.ring s.mem s.tm s.scan s.cards s.chans s.ucode s.lookWait s.looking s.tw s.supv s.br s.host s.spi s.ft s.wear s.up s.fresh s.pending) :=
  ⟨h.pending, h.rd, fun f hf => by cases f <;> first | exact h.part _ hf | exact false_of hf hb⟩
theorem Framed.set_ans {x} (h : Framed M b s) (hb : M.testBit 2 = true) : Framed M b (State.mk s.regs s.shad s.stopping x s.faultQ s.iso s.gs s.isl s.pll s.spll s.mram s.lc s.ingress s.core s.ring s.mem s.tm s.scan s.cards s.chans s.ucode s.lookWait s.looking s.tw s.supv s.br s.host s.spi s.ft s.wear s.up s.fresh s.pending) :=
  ⟨h.pending, h.rd, fun f hf => by cases f <;> first | exact h.part _ hf | exact false_of hf hb⟩
theorem Framed.set_faultQ {x} (h : Framed M b s) (hb : M.testBit 3 = true) : Framed M b (State.mk s.regs s.shad s.stopping s.ans x s.iso s.gs s.isl s.pll s.spll s.mram s.lc s.ingress s.core s.ring s.mem s.tm s.scan s.cards s.chans s.ucode s.lookWait s.looking s.tw s.supv s.br s.host s.spi s.ft s.wear s.up s.fresh s.pending) :=
  ⟨h.pending, h.rd, fun f hf => by cases f <;> first | exact h.part _ hf | exact false_of hf hb⟩
theorem Framed.set_gs {x} (h : Framed M b s) (hb : M.testBit 5 = true) : Framed M b (State.mk s.regs s.shad s.stopping s.ans s.faultQ s.iso x s.isl s.pll s.spll s.mram s.lc s.ingress s.core s.ring s.mem s.tm s.scan s.cards s.chans s.ucode s.lookWait s.looking s.tw s.supv s.br s.host s.spi s.ft s.wear s.up s.fresh s.pending) :=
  ⟨h.pending, h.rd, fun f hf => by cases f <;> first | exact h.part _ hf | exact false_of hf hb⟩
theorem Framed.set_ingress {x} (h : Framed M b s) (hb : M.testBit 11 = true) : Framed M b (State.mk s.regs s.shad s.stopping s.ans s.faultQ s.iso s.gs s.isl s.pll s.spll s.mram s.lc x s.core s.ring s.mem s.tm s.scan s.cards s.chans s.ucode s.lookWait s.looking s.tw s.supv s.br s.host s.spi s.ft s.wear s.up s.fresh s.pending) :=
  ⟨h.pending, h.rd, fun f hf => by cases f <;> first | exact h.part _ hf | exact false_of hf hb⟩
theorem Framed.set_core {x} (h : Framed M b s) (hb : M.testBit 12 = true) : Framed M b (State.mk s.regs s.shad s.stopping s.ans s.faultQ s.iso s.gs s.isl s.pll s.spll s.mram s.lc s.ingress x s.ring s.mem s.tm s.scan s.cards s.chans s.ucode s.lookWait s.looking s.tw s.supv s.br s.host s.spi s.ft s.wear s.up s.fresh s.pending) :=
  ⟨h.pending, h.rd, fun f hf => by cases f <;> first | exact h.part _ hf | exact false_of hf hb⟩
theorem Framed.set_ring {x} (h : Framed M b s) (hb : M.testBit 13 = true) : Framed M b (State.mk s.regs s.shad s.stopping s.ans s.faultQ s.iso s.gs s.isl s.pll s.spll s.mram s.lc s.ingress s.core x s.mem s.tm s.scan s.cards s.chans s.ucode s.lookWait s.looking s.tw s.supv s.br s.host s.spi s.ft s.wear s.up s.fresh s.pending) :=
  ⟨h.pending, h.rd, fun f hf => by cases f <;> first | exact h.part _ hf | exact false_of hf hb⟩
theorem Framed.set_tm {x} (h : Framed M b s) (hb : M.testBit 15 = true) : Framed M b (State.mk s.regs s.shad s.stopping s.ans s.faultQ s.iso s.gs s.isl s.pll s.spll s.mram s.lc s.ingress s.core s.ring s.mem x s.scan s.cards s.chans s.ucode s.lookWait s.looking s.tw s.supv s.br s.host s.spi s.ft s.wear s.up s.fresh s.pending) :=
  ⟨h.pending, h.rd, fun f hf => by cases f <;> first | exact h.part _ hf | exact false_of hf hb⟩
theorem Framed.set_scan {x} (h : Framed M b s) (hb : M.testBit 16 = true) : Framed M b (State.mk s.regs s.shad s.stopping s.ans s.faultQ s.iso s.gs s.isl s.pll s.spll s.mram s.lc s.ingress s.core s.ring s.mem s.tm x s.cards s.chans s.ucode s.lookWait s.looking s.tw s.supv s.br s.host s.spi s.ft s.wear s.up s.fresh s.pending) :=
  ⟨h.pending, h.rd, fun f hf => by cases f <;> first | exact h.part _ hf | exact false_of hf hb⟩
theorem Framed.set_cards {x} (h : Framed M b s) (hb : M.testBit 17 = true) : Framed M b (State.mk s.regs s.shad s.stopping s.ans s.faultQ s.iso s.gs s.isl s.pll s.spll s.mram s.lc s.ingress s.core s.ring s.mem s.tm s.scan x s.chans s.ucode s.lookWait s.looking s.tw s.supv s.br s.host s.spi s.ft s.wear s.up s.fresh s.pending) :=
  ⟨h.pending, h.rd, fun f hf => by cases f <;> first | exact h.part _ hf | exact false_of hf hb⟩
theorem Framed.set_chans {x} (h : Framed M b s) (hb : M.testBit 18 = true) : Framed M b (State.mk s.regs s.shad s.stopping s.ans s.faultQ s.iso s.gs s.isl s.pll s.spll s.mram s.lc s.ingress s.core s.ring s.mem s.tm s.scan s.cards x s.ucode s.lookWait s.looking s.tw s.supv s.br s.host s.spi s.ft s.wear s.up s.fresh s.pending) :=
  ⟨h.pending, h.rd, fun f hf => by cases f <;> first | exact h.part _ hf | exact false_of hf hb⟩
theorem Framed.set_tw {x} (h : Framed M b s) (hb : M.testBit 22 = true) : Framed M b (State.mk s.regs s.shad s.stopping s.ans s.faultQ s.iso s.gs s.isl s.pll s.spll s.mram s.lc s.ingress s.core s.ring s.mem s.tm s.scan s.cards s.chans s.ucode s.lookWait s.looking x s.supv s.br s.host s.spi s.ft s.wear s.up s.fresh s.pending) :=
  ⟨h.pending, h.rd, fun f hf => by cases f <;> first | exact h.part _ hf | exact false_of hf hb⟩
theorem Framed.set_supv {x} (h : Framed M b s) (hb : M.testBit 23 = true) : Framed M b (State.mk s.regs s.shad s.stopping s.ans s.faultQ s.iso s.gs s.isl s.pll s.spll s.mram s.lc s.ingress s.core s.ring s.mem s.tm s.scan s.cards s.chans s.ucode s.lookWait s.looking s.tw x s.br s.host s.spi s.ft s.wear s.up s.fresh s.pending) :=
  ⟨h.pending, h.rd, fun f hf => by cases f <;> first | exact h.part _ hf | exact false_of hf hb⟩
theorem Framed.set_br {x} (h : Framed M b s) (hb : M.testBit 24 = true) : Framed M b (State.mk s.regs s.shad s.stopping s.ans s.faultQ s.iso s.gs s.isl s.pll s.spll s.mram s.lc s.ingress s.core s.ring s.mem s.tm s.scan s.cards s.chans s.ucode s.lookWait s.looking s.tw s.supv x s.host s.spi s.ft s.wear s.up s.fresh s.pending) :=
  ⟨h.pending, h.rd, fun f hf => by cases f <;> first | exact h.part _ hf | exact false_of hf hb⟩
theorem Framed.set_host {x} (h : Framed M b s) (hb : M.testBit 25 = true) : Framed M b (State.mk s.regs s.shad s.stopping s.ans s.faultQ s.iso s.gs s.isl s.pll s.spll s.mram s.lc s.ingress s.core s.ring s.mem s.tm s.scan s.cards s.chans s.ucode s.lookWait s.looking s.tw s.supv s.br x s.spi s.ft s.wear s.up s.fresh s.pending) :=
  ⟨h.pending, h.rd, fun f hf => by cases f <;> first | exact h.part _ hf | exact false_of hf hb⟩
theorem Framed.set_spi {x} (h : Framed M b s) (hb : M.testBit 26 = true) : Framed M b (State.mk s.regs s.shad s.stopping s.ans s.faultQ s.iso s.gs s.isl s.pll s.spll s.mram s.lc s.ingress s.core s.ring s.mem s.tm s.scan s.cards s.chans s.ucode s.lookWait s.looking s.tw s.supv s.br s.host x s.ft s.wear s.up s.fresh s.pending) :=
  ⟨h.pending, h.rd, fun f hf => by cases f <;> first | exact h.part _ hf | exact false_of hf hb⟩
theorem Framed.set_ft {x} (h : Framed M b s) (hb : M.testBit 27 = true) : Framed M b (State.mk s.regs s.shad s.stopping s.ans s.faultQ s.iso s.gs s.isl s.pll s.spll s.mram s.lc s.ingress s.core s.ring s.mem s.tm s.scan s.cards s.chans s.ucode s.lookWait s.looking s.tw s.supv s.br s.host s.spi x s.wear s.up s.fresh s.pending) :=
  ⟨h.pending, h.rd, fun f hf => by cases f <;> first | exact h.part _ hf | exact false_of hf hb⟩
theorem Framed.set_wear {x} (h : Framed M b s) (hb : M.testBit 28 = true) : Framed M b (State.mk s.regs s.shad s.stopping s.ans s.faultQ s.iso s.gs s.isl s.pll s.spll s.mram s.lc s.ingress s.core s.ring s.mem s.tm s.scan s.cards s.chans s.ucode s.lookWait s.looking s.tw s.supv s.br s.host s.spi s.ft x s.up s.fresh s.pending) :=
  ⟨h.pending, h.rd, fun f hf => by cases f <;> first | exact h.part _ hf | exact false_of hf hb⟩
theorem Framed.set_up {x} (h : Framed M b s) (hb : M.testBit 29 = true) : Framed M b (State.mk s.regs s.shad s.stopping s.ans s.faultQ s.iso s.gs s.isl s.pll s.spll s.mram s.lc s.ingress s.core s.ring s.mem s.tm s.scan s.cards s.chans s.ucode s.lookWait s.looking s.tw s.supv s.br s.host s.spi s.ft s.wear x s.fresh s.pending) :=
  ⟨h.pending, h.rd, fun f hf => by cases f <;> first | exact h.part _ hf | exact false_of hf hb⟩
theorem Framed.set_fresh {x} (h : Framed M b s) (hb : M.testBit 30 = true) : Framed M b (State.mk s.regs s.shad s.stopping s.ans s.faultQ s.iso s.gs s.isl s.pll s.spll s.mram s.lc s.ingress s.core s.ring s.mem s.tm s.scan s.cards s.chans s.ucode s.lookWait s.looking s.tw s.supv s.br s.host s.spi s.ft s.wear s.up x s.pending) :=
  ⟨h.pending, h.rd, fun f hf => by cases f <;> first | exact h.part _ hf | exact false_of hf hb⟩
theorem Framed.set_mem {march powerOn cellsUnready canopyUnready banks spUe spCe repairs held} (h : Framed M b s) (hb : M.testBit 14 = true) :
    Framed M b (State.mk s.regs s.shad s.stopping s.ans s.faultQ s.iso s.gs s.isl s.pll s.spll s.mram s.lc s.ingress s.core s.ring (MemSt.mk march powerOn cellsUnready canopyUnready banks s.mem.sp spUe spCe repairs held) s.tm s.scan s.cards s.chans s.ucode s.lookWait s.looking s.tw s.supv s.br s.host s.spi s.ft s.wear s.up s.fresh s.pending) :=
  ⟨h.pending, h.rd, fun f hf => by cases f <;> first | exact h.part _ hf | exact false_of hf hb⟩
/-- A record update of several parts: each is the same, or the mask names it. -/
theorem Framed.upd {shad stopping ans faultQ iso gs isl pll spll ingress core ring mem tm scan cards chans ucode lookWait looking tw supv br host spi ft wear up fresh} (h : Framed M b s) (hsp : mem.sp = s.mem.sp)
    (h_shad : shad = s.shad ∨ M.testBit 0 = true)
    (h_stopping : stopping = s.stopping ∨ M.testBit 1 = true)
    (h_ans : ans = s.ans ∨ M.testBit 2 = true)
    (h_faultQ : faultQ = s.faultQ ∨ M.testBit 3 = true)
    (h_iso : iso = s.iso ∨ M.testBit 4 = true)
    (h_gs : gs = s.gs ∨ M.testBit 5 = true)
    (h_isl : isl = s.isl ∨ M.testBit 6 = true)
    (h_pll : pll = s.pll ∨ M.testBit 7 = true)
    (h_spll : spll = s.spll ∨ M.testBit 8 = true)
    (h_ingress : ingress = s.ingress ∨ M.testBit 11 = true)
    (h_core : core = s.core ∨ M.testBit 12 = true)
    (h_ring : ring = s.ring ∨ M.testBit 13 = true)
    (h_mem : mem = s.mem ∨ M.testBit 14 = true)
    (h_tm : tm = s.tm ∨ M.testBit 15 = true)
    (h_scan : scan = s.scan ∨ M.testBit 16 = true)
    (h_cards : cards = s.cards ∨ M.testBit 17 = true)
    (h_chans : chans = s.chans ∨ M.testBit 18 = true)
    (h_ucode : ucode = s.ucode ∨ M.testBit 19 = true)
    (h_lookWait : lookWait = s.lookWait ∨ M.testBit 20 = true)
    (h_looking : looking = s.looking ∨ M.testBit 21 = true)
    (h_tw : tw = s.tw ∨ M.testBit 22 = true)
    (h_supv : supv = s.supv ∨ M.testBit 23 = true)
    (h_br : br = s.br ∨ M.testBit 24 = true)
    (h_host : host = s.host ∨ M.testBit 25 = true)
    (h_spi : spi = s.spi ∨ M.testBit 26 = true)
    (h_ft : ft = s.ft ∨ M.testBit 27 = true)
    (h_wear : wear = s.wear ∨ M.testBit 28 = true)
    (h_up : up = s.up ∨ M.testBit 29 = true)
    (h_fresh : fresh = s.fresh ∨ M.testBit 30 = true)
    : Framed M b (State.mk s.regs shad stopping ans faultQ iso gs isl pll spll s.mram s.lc ingress core ring mem tm scan cards chans ucode lookWait looking tw supv br host spi ft wear up fresh s.pending) :=
  ⟨h.pending, h.rd, fun f hf => by
    cases f
    all_goals first
      | exact h.part _ hf
      | exact h_shad.elim (fun e => e.trans (h.part .shad hf)) (false_of hf)
      | exact h_stopping.elim (fun e => e.trans (h.part .stopping hf)) (false_of hf)
      | exact h_ans.elim (fun e => e.trans (h.part .ans hf)) (false_of hf)
      | exact h_faultQ.elim (fun e => e.trans (h.part .faultQ hf)) (false_of hf)
      | exact h_iso.elim (fun e => e.trans (h.part .iso hf)) (false_of hf)
      | exact h_gs.elim (fun e => e.trans (h.part .gs hf)) (false_of hf)
      | exact h_isl.elim (fun e => e.trans (h.part .isl hf)) (false_of hf)
      | exact h_pll.elim (fun e => e.trans (h.part .pll hf)) (false_of hf)
      | exact h_spll.elim (fun e => e.trans (h.part .spll hf)) (false_of hf)
      | exact h_ingress.elim (fun e => e.trans (h.part .ingress hf)) (false_of hf)
      | exact h_core.elim (fun e => e.trans (h.part .core hf)) (false_of hf)
      | exact h_ring.elim (fun e => e.trans (h.part .ring hf)) (false_of hf)
      | exact h_mem.elim (fun e => e.trans (h.part .mem hf)) (false_of hf)
      | exact h_tm.elim (fun e => e.trans (h.part .tm hf)) (false_of hf)
      | exact h_scan.elim (fun e => e.trans (h.part .scan hf)) (false_of hf)
      | exact h_cards.elim (fun e => e.trans (h.part .cards hf)) (false_of hf)
      | exact h_chans.elim (fun e => e.trans (h.part .chans hf)) (false_of hf)
      | exact h_ucode.elim (fun e => e.trans (h.part .ucode hf)) (false_of hf)
      | exact h_lookWait.elim (fun e => e.trans (h.part .lookWait hf)) (false_of hf)
      | exact h_looking.elim (fun e => e.trans (h.part .looking hf)) (false_of hf)
      | exact h_tw.elim (fun e => e.trans (h.part .tw hf)) (false_of hf)
      | exact h_supv.elim (fun e => e.trans (h.part .supv hf)) (false_of hf)
      | exact h_br.elim (fun e => e.trans (h.part .br hf)) (false_of hf)
      | exact h_host.elim (fun e => e.trans (h.part .host hf)) (false_of hf)
      | exact h_spi.elim (fun e => e.trans (h.part .spi hf)) (false_of hf)
      | exact h_ft.elim (fun e => e.trans (h.part .ft hf)) (false_of hf)
      | exact h_wear.elim (fun e => e.trans (h.part .wear hf)) (false_of hf)
      | exact h_up.elim (fun e => e.trans (h.part .up hf)) (false_of hf)
      | exact h_fresh.elim (fun e => e.trans (h.part .fresh hf)) (false_of hf)⟩

/-- A write of a register. -/
theorem State.wr_framed {p off : Nat} {v : Word} (hs : Framed M b s) (hp : M.testBit (kindBit (kindOf p)) = true) : Framed M b (s.wr p off v) :=
  ⟨hs.pending, fun p' o' hf => by
    rw [← hs.rd p' o' hf]
    simp only [State.rd, State.wr]
    refine Map.getD_put_other _ _ _ _ fun e => ?_
    have : p' = p := by simp only [regKey] at e; omega
    subst this; exact false_of hf hp, fun f hf => by cases f <;> exact hs.part _ hf⟩

theorem Framed.ite {c : Prop} [Decidable c] {x y : State} (hx : Framed M b x) (hy : Framed M b y) :
    Framed M b (if c then x else y) := by split <;> assumption

theorem Framed.of_pair {α : Type} {x : State × α} {u : State} {a : α} (e : x = (u, a)) (h : Framed M b x.1) : Framed M b u := by
  rw [e] at h; exact h

theorem Framed.foldl {α : Type} {f : State → α → State} {l : List α} {s : State} (h : Framed M b s)
    (hf : ∀ t a, Framed M b t → Framed M b (f t a)) : Framed M b (l.foldl f s) := by
  induction l generalizing s with
  | nil => exact h
  | cons a l ih => exact ih (hf s a h)

theorem Framed.foldlM {α : Type} {f : State → α → State} {l : List α} {s : State} (h : Framed M b s)
    (hf : ∀ t a, a ∈ l → Framed M b t → Framed M b (f t a)) : Framed M b (l.foldl f s) := by
  induction l generalizing s with
  | nil => exact h
  | cons a l ih => exact ih (hf s a (List.mem_cons_self ..) h) fun t a' ha => hf t a' (List.mem_cons_of_mem _ ha)

theorem Framed.foldlP {α β : Type} {f : State × β → α → State × β} {l : List α} {s : State × β} (h : Framed M b s.1)
    (hf : ∀ t a, Framed M b t.1 → Framed M b (f t a).1) : Framed M b (l.foldl f s).1 := by
  induction l generalizing s with
  | nil => exact h
  | cons a l ih => exact ih (hf s a h)

end Sys2Proof.Machine
end

section
set_option Elab.async false
/-! What the functions of Machine/Ops.lean keep (Laws/Framed.lean). -/
namespace Sys2Proof.Machine

theorem State.fs_framed {M : Nat} {b : State} {s : State} {p : Nat} {f : Fld} {v : Nat} (hs : Framed M b s) (hM : Sub 0x0 M) (hp1 : M.testBit (kindBit (kindOf p)) = true) : Framed M b (State.fs s p f v) := by
  unfold State.fs
  try dsimp only
  repeat' first
    | with_reducible assumption | exact Sub.trans (by decide) hM | exact Sub.bit hM (by decide) | exact Sub.kind hM (by decide) _
    | (intro _; try dsimp only) | with_reducible apply State.wr_framed | with_reducible apply Framed.ite
    | with_reducible refine Framed.of_pair (by assumption) ?_ | split

theorem State.addSat_framed {M : Nat} {b : State} {s : State} {p : Nat} {f : Fld} {n : Nat} (hs : Framed M b s) (hM : Sub 0x0 M) (hp1 : M.testBit (kindBit (kindOf p)) = true) : Framed M b (State.addSat s p f n) := by
  unfold State.addSat
  try dsimp only
  repeat' first
    | with_reducible assumption | exact Sub.trans (by decide) hM | exact Sub.bit hM (by decide) | exact Sub.kind hM (by decide) _
    | (intro _; try dsimp only) | with_reducible apply State.fs_framed | with_reducible apply Framed.ite
    | with_reducible refine Framed.of_pair (by assumption) ?_ | split

theorem State.inc_framed {M : Nat} {b : State} {s : State} {p : Nat} {f : Fld} (hs : Framed M b s) (hM : Sub 0x0 M) (hp1 : M.testBit (kindBit (kindOf p)) = true) : Framed M b (State.inc s p f) := by
  unfold State.inc
  try dsimp only
  repeat' first
    | with_reducible assumption | exact Sub.trans (by decide) hM | exact Sub.bit hM (by decide) | exact Sub.kind hM (by decide) _
    | (intro _; try dsimp only) | with_reducible apply State.addSat_framed | with_reducible apply Framed.ite
    | with_reducible refine Framed.of_pair (by assumption) ?_ | split

theorem State.addWrap_framed {M : Nat} {b : State} {s : State} {p : Nat} {f : Fld} {n : Nat} (hs : Framed M b s) (hM : Sub 0x0 M) (hp1 : M.testBit (kindBit (kindOf p)) = true) : Framed M b (State.addWrap s p f n) := by
  unfold State.addWrap
  try dsimp only
  repeat' first
    | with_reducible assumption | exact Sub.trans (by decide) hM | exact Sub.bit hM (by decide) | exact Sub.kind hM (by decide) _
    | (intro _; try dsimp only) | with_reducible apply State.fs_framed | with_reducible apply Framed.ite
    | with_reducible refine Framed.of_pair (by assumption) ?_ | split

theorem State.answer_framed {M : Nat} {b : State} {s : State} {who : Initiator} {rsp : Nat} {data : Word} (hs : Framed M b s) (hM : Sub 0x4 M) : Framed M b (State.answer s who rsp data) := by
  unfold State.answer
  try dsimp only
  repeat' first
    | with_reducible assumption | exact Sub.trans (by decide) hM | exact Sub.bit hM (by decide) | exact Sub.kind hM (by decide) _
    | (intro _; try dsimp only) | with_reducible apply Framed.ite | with_reducible refine Framed.of_pair (by assumption) ?_ | split
    | with_reducible refine Framed.set_ans ?_ ?_

theorem State.stage_framed {M : Nat} {b : State} {s : State} {p : Nat} {x : InFrame} (hs : Framed M b s) (hM : Sub 0x800 M) : Framed M b (State.stage s p x) := by
  unfold State.stage
  try dsimp only
  repeat' first
    | with_reducible assumption | exact Sub.trans (by decide) hM | exact Sub.bit hM (by decide) | exact Sub.kind hM (by decide) _
    | (intro _; try dsimp only) | with_reducible apply Framed.ite | with_reducible refine Framed.of_pair (by assumption) ?_ | split
    | with_reducible refine Framed.set_ingress ?_ ?_

theorem State.originate_framed {M : Nat} {b : State} {s : State} {p : Nat} {f : Frame} (hs : Framed M b s) (hM : Sub 0x800 M) : Framed M b (State.originate s p f) := by
  unfold State.originate
  try dsimp only
  repeat' first
    | with_reducible assumption | exact Sub.trans (by decide) hM | exact Sub.bit hM (by decide) | exact Sub.kind hM (by decide) _
    | (intro _; try dsimp only) | with_reducible apply State.stage_framed | with_reducible apply Framed.ite
    | with_reducible refine Framed.of_pair (by assumption) ?_ | split

theorem State.irqRise_framed {M : Nat} {b : State} {s : State} {p : Nat} {before : Bool} (hs : Framed M b s) (hM : Sub 0x800 M) : Framed M b (State.irqRise s p before) := by
  unfold State.irqRise
  try dsimp only
  repeat' first
    | with_reducible assumption | exact Sub.trans (by decide) hM | exact Sub.bit hM (by decide) | exact Sub.kind hM (by decide) _
    | (intro _; try dsimp only) | with_reducible apply State.originate_framed | with_reducible apply Framed.ite
    | with_reducible refine Framed.of_pair (by assumption) ?_ | split

theorem State.fault_framed {M : Nat} {b : State} {s : State} {n : Nat} {detail : Nat} (hs : Framed M b s) (hM : Sub 0x8 M) : Framed M b (State.fault s n detail) := by
  unfold State.fault
  try dsimp only
  repeat' first
    | with_reducible assumption | exact Sub.trans (by decide) hM | exact Sub.bit hM (by decide) | exact Sub.kind hM (by decide) _
    | (intro _; try dsimp only) | with_reducible apply Framed.ite | with_reducible refine Framed.of_pair (by assumption) ?_ | split
    | with_reducible refine Framed.set_faultQ ?_ ?_

theorem State.raiseBit_framed {M : Nat} {b : State} {s : State} {p : Nat} {x2 : Nat} (hs : Framed M b s) (hM : Sub 0x800 M) (hp1 : M.testBit (kindBit (kindOf p)) = true) : Framed M b (State.raiseBit s p x2) := by
  unfold State.raiseBit
  try dsimp only
  repeat' first
    | with_reducible assumption | exact Sub.trans (by decide) hM | exact Sub.bit hM (by decide) | exact Sub.kind hM (by decide) _
    | (intro _; try dsimp only) | with_reducible apply State.irqRise_framed | with_reducible apply State.wr_framed
    | with_reducible apply Framed.ite | with_reducible refine Framed.of_pair (by assumption) ?_ | split

theorem State.raise_framed {M : Nat} {b : State} {s : State} {p : Nat} {x2 : Nat} (hs : Framed M b s) (hM : Sub 0x808 M) (hp1 : M.testBit (kindBit (kindOf p)) = true) : Framed M b (State.raise s p x2) := by
  unfold State.raise
  try dsimp only
  repeat' first
    | with_reducible assumption | exact Sub.trans (by decide) hM | exact Sub.bit hM (by decide) | exact Sub.kind hM (by decide) _
    | (intro _; try dsimp only) | with_reducible apply State.fault_framed | with_reducible apply State.raiseBit_framed
    | with_reducible apply Framed.ite | with_reducible refine Framed.of_pair (by assumption) ?_ | split

theorem State.raiseIf_framed {M : Nat} {b : State} {s : State} {c : Bool} {p : Nat} {x3 : Nat} (hs : Framed M b s) (hM : Sub 0x808 M) (hp2 : M.testBit (kindBit (kindOf p)) = true) : Framed M b (State.raiseIf s c p x3) := by
  unfold State.raiseIf
  try dsimp only
  repeat' first
    | with_reducible assumption | exact Sub.trans (by decide) hM | exact Sub.bit hM (by decide) | exact Sub.kind hM (by decide) _
    | (intro _; try dsimp only) | with_reducible apply State.raise_framed | with_reducible apply Framed.ite
    | with_reducible refine Framed.of_pair (by assumption) ?_ | split

theorem State.setState_framed {M : Nat} {b : State} {s : State} {p : Nat} {f : Fld} {v : Bool} (hs : Framed M b s) (hM : Sub 0x808 M) (hp1 : M.testBit (kindBit (kindOf p)) = true) : Framed M b (State.setState s p f v) := by
  unfold State.setState
  try dsimp only
  repeat' first
    | with_reducible assumption | exact Sub.trans (by decide) hM | exact Sub.bit hM (by decide) | exact Sub.kind hM (by decide) _
    | (intro _; try dsimp only) | with_reducible apply State.fs_framed | with_reducible apply State.raise_framed
    | with_reducible apply Framed.ite | with_reducible refine Framed.of_pair (by assumption) ?_ | split

theorem State.tookFree_framed {M : Nat} {b : State} {s : State} (hs : Framed M b s) (hM : Sub 0x40000000 M) : Framed M b (State.tookFree s) := by
  unfold State.tookFree
  try dsimp only
  repeat' first
    | with_reducible assumption | exact Sub.trans (by decide) hM | exact Sub.bit hM (by decide) | exact Sub.kind hM (by decide) _
    | (intro _; try dsimp only) | with_reducible apply Framed.ite | with_reducible refine Framed.of_pair (by assumption) ?_ | split
    | with_reducible refine Framed.set_fresh ?_ ?_

end Sys2Proof.Machine
end

section
set_option Elab.async false
/-! What the functions of Machine/Pages.lean keep (Laws/Framed.lean). -/
namespace Sys2Proof.Machine

theorem State.endCommit_framed {M : Nat} {b : State} {s : State} {p : Nat} {result : Nat} {reason : Nat} {off : Nat} (hs : Framed M b s) (hM : Sub 0x0 M) (hp1 : M.testBit (kindBit (kindOf p)) = true) : Framed M b (State.endCommit s p result reason off) := by
  unfold State.endCommit
  try dsimp only
  repeat' first
    | with_reducible assumption | exact Sub.trans (by decide) hM | exact Sub.bit hM (by decide) | exact Sub.kind hM (by decide) _
    | (intro _; try dsimp only) | with_reducible apply State.addWrap_framed | with_reducible apply State.fs_framed
    | with_reducible apply Framed.ite | with_reducible refine Framed.of_pair (by assumption) ?_ | split

end Sys2Proof.Machine
end

section
set_option Elab.async false
/-! What the functions of Machine/RepairTable.lean keep (Laws/Framed.lean). -/
namespace Sys2Proof.Machine

theorem State.showTable_framed {M : Nat} {b : State} {s : State} (hs : Framed M b s) (hM : Sub 0x8000000000000 M) : Framed M b (State.showTable s) := by
  unfold State.showTable
  try dsimp only
  repeat' first
    | with_reducible assumption | exact Sub.trans (by decide) hM | exact Sub.bit hM (by decide) | exact Sub.kind hM (by decide) _
    | (intro _; try dsimp only) | with_reducible apply State.fs_framed | with_reducible apply Framed.ite
    | with_reducible refine Framed.of_pair (by assumption) ?_ | split

end Sys2Proof.Machine
end

section
set_option Elab.async false
/-! What the functions of Machine/RingRoute.lean keep (Laws/Framed.lean). -/
namespace Sys2Proof.Machine

theorem State.setPort_framed {M : Nat} {b : State} {s : State} {p : LanePort} {v : Port} (hs : Framed M b s) (hM : Sub 0x2000 M) : Framed M b (State.setPort s p v) := by
  unfold State.setPort
  try dsimp only
  repeat' first
    | with_reducible assumption | exact Sub.trans (by decide) hM | exact Sub.bit hM (by decide) | exact Sub.kind hM (by decide) _
    | (intro _; try dsimp only) | with_reducible apply Framed.ite | with_reducible refine Framed.of_pair (by assumption) ?_ | split
    | with_reducible refine Framed.set_ring ?_ ?_

theorem State.setCr_framed {M : Nat} {b : State} {s : State} {p : LanePort} {c : Cls} {v : Cr} (hs : Framed M b s) (hM : Sub 0x2000 M) : Framed M b (State.setCr s p c v) := by
  unfold State.setCr
  try dsimp only
  repeat' first
    | with_reducible assumption | exact Sub.trans (by decide) hM | exact Sub.bit hM (by decide) | exact Sub.kind hM (by decide) _
    | (intro _; try dsimp only) | with_reducible apply Framed.ite | with_reducible refine Framed.of_pair (by assumption) ?_ | split
    | with_reducible refine Framed.set_ring ?_ ?_

theorem State.freed_framed {M : Nat} {b : State} {s : State} {p : LanePort} {c : Cls} {n : Nat} (hs : Framed M b s) (hM : Sub 0x2000 M) : Framed M b (State.freed s p c n) := by
  unfold State.freed
  try dsimp only
  repeat' first
    | with_reducible assumption | exact Sub.trans (by decide) hM | exact Sub.bit hM (by decide) | exact Sub.kind hM (by decide) _
    | (intro _; try dsimp only) | with_reducible apply bit_ringPage | with_reducible apply bit_lanePage
    | with_reducible apply State.setCr_framed | with_reducible apply Framed.ite | with_reducible refine Framed.of_pair (by assumption) ?_
    | split

end Sys2Proof.Machine
end

section
set_option Elab.async false
/-! What the functions of Machine/SwitchCore.lean keep (Laws/Framed.lean). -/
namespace Sys2Proof.Machine

theorem State.setQue_framed {M : Nat} {b : State} {s : State} {x1 : Nat} {v : Que} (hs : Framed M b s) (hM : Sub 0x1000 M) : Framed M b (State.setQue s x1 v) := by
  unfold State.setQue
  try dsimp only
  repeat' first
    | with_reducible assumption | exact Sub.trans (by decide) hM | exact Sub.bit hM (by decide) | exact Sub.kind hM (by decide) _
    | (intro _; try dsimp only) | with_reducible apply Framed.ite | with_reducible refine Framed.of_pair (by assumption) ?_ | split
    | with_reducible refine Framed.set_core ?_ ?_

theorem State.setRec_framed {M : Nat} {b : State} {s : State} {c : Nat} {v : FRec} (hs : Framed M b s) (hM : Sub 0x1000 M) : Framed M b (State.setRec s c v) := by
  unfold State.setRec
  try dsimp only
  repeat' first
    | with_reducible assumption | exact Sub.trans (by decide) hM | exact Sub.bit hM (by decide) | exact Sub.kind hM (by decide) _
    | (intro _; try dsimp only) | with_reducible apply Framed.ite | with_reducible refine Framed.of_pair (by assumption) ?_ | split
    | with_reducible refine Framed.set_core ?_ ?_

theorem State.setBank_framed {M : Nat} {b : State} {s : State} {x1 : Nat} {v : Bank} (hs : Framed M b s) (hM : Sub 0x1000 M) : Framed M b (State.setBank s x1 v) := by
  unfold State.setBank
  try dsimp only
  repeat' first
    | with_reducible assumption | exact Sub.trans (by decide) hM | exact Sub.bit hM (by decide) | exact Sub.kind hM (by decide) _
    | (intro _; try dsimp only) | with_reducible apply Framed.ite | with_reducible refine Framed.of_pair (by assumption) ?_ | split
    | with_reducible refine Framed.set_core ?_ ?_

theorem State.setIng_framed {M : Nat} {b : State} {s : State} {p : Nat} {v : Ing} (hs : Framed M b s) (hM : Sub 0x1000 M) : Framed M b (State.setIng s p v) := by
  unfold State.setIng
  try dsimp only
  repeat' first
    | with_reducible assumption | exact Sub.trans (by decide) hM | exact Sub.bit hM (by decide) | exact Sub.kind hM (by decide) _
    | (intro _; try dsimp only) | with_reducible apply Framed.ite | with_reducible refine Framed.of_pair (by assumption) ?_ | split
    | with_reducible refine Framed.set_core ?_ ?_

theorem State.setEg_framed {M : Nat} {b : State} {s : State} {p : Nat} {v : Option Eg} (hs : Framed M b s) (hM : Sub 0x1000 M) : Framed M b (State.setEg s p v) := by
  unfold State.setEg
  try dsimp only
  repeat' first
    | with_reducible assumption | exact Sub.trans (by decide) hM | exact Sub.bit hM (by decide) | exact Sub.kind hM (by decide) _
    | (intro _; try dsimp only) | with_reducible apply Framed.ite | with_reducible refine Framed.of_pair (by assumption) ?_ | split
    | with_reducible refine Framed.set_core ?_ ?_

theorem State.pcnt_framed {M : Nat} {b : State} {s : State} {p : Nat} {off : Nat} (hs : Framed M b s) (hM : Sub 0x2000000000 M) : Framed M b (State.pcnt s p off) := by
  unfold State.pcnt
  try dsimp only
  repeat' first
    | with_reducible assumption | exact Sub.trans (by decide) hM | exact Sub.bit hM (by decide) | exact Sub.kind hM (by decide) _
    | (intro _; try dsimp only) | with_reducible apply State.inc_framed | with_reducible apply Framed.ite
    | with_reducible refine Framed.of_pair (by assumption) ?_ | split

theorem State.setLink_framed {M : Nat} {b : State} {s : State} {c : Nat} {v : Link} (hs : Framed M b s) (hM : Sub 0x1000 M) : Framed M b (State.setLink s c v) := by
  unfold State.setLink
  try dsimp only
  repeat' first
    | with_reducible assumption | exact Sub.trans (by decide) hM | exact Sub.bit hM (by decide) | exact Sub.kind hM (by decide) _
    | (intro _; try dsimp only) | with_reducible apply Framed.ite | with_reducible refine Framed.of_pair (by assumption) ?_ | split
    | with_reducible refine Framed.set_core ?_ ?_

theorem State.setCell_framed {M : Nat} {b : State} {s : State} {c : Nat} {v : BitVec 192} (hs : Framed M b s) (hM : Sub 0x1000 M) : Framed M b (State.setCell s c v) := by
  unfold State.setCell
  try dsimp only
  repeat' first
    | with_reducible assumption | exact Sub.trans (by decide) hM | exact Sub.bit hM (by decide) | exact Sub.kind hM (by decide) _
    | (intro _; try dsimp only) | with_reducible apply Framed.ite | with_reducible refine Framed.of_pair (by assumption) ?_ | split
    | with_reducible refine Framed.set_core ?_ ?_

theorem State.freeCell_framed {M : Nat} {b : State} {s : State} {c : Nat} (hs : Framed M b s) (hM : Sub 0x1000 M) : Framed M b (State.freeCell s c) := by
  unfold State.freeCell
  try dsimp only
  repeat' first
    | with_reducible assumption | exact Sub.trans (by decide) hM | exact Sub.bit hM (by decide) | exact Sub.kind hM (by decide) _
    | (intro _; try dsimp only) | with_reducible apply State.setBank_framed | with_reducible apply Framed.ite
    | with_reducible refine Framed.of_pair (by assumption) ?_ | split

theorem State.freeEnt_framed {M : Nat} {b : State} {s : State} {i : Nat} (hs : Framed M b s) (hM : Sub 0x1000 M) : Framed M b (State.freeEnt s i) := by
  unfold State.freeEnt
  try dsimp only
  repeat' first
    | with_reducible assumption | exact Sub.trans (by decide) hM | exact Sub.bit hM (by decide) | exact Sub.kind hM (by decide) _
    | (intro _; try dsimp only) | with_reducible apply Framed.ite | with_reducible refine Framed.of_pair (by assumption) ?_ | split
    | with_reducible refine Framed.set_core ?_ ?_

theorem State.freeChain_framed {M : Nat} {b : State} {a : Nat} {x1 : Nat} {x2 : State} (hx2 : Framed M b x2) (hM : Sub 0x1000 M) : Framed M b (State.freeChain a x1 x2) := by
  fun_induction State.freeChain a x1 x2
  all_goals repeat' first
    | with_reducible assumption | exact Sub.trans (by decide) hM | exact Sub.bit hM (by decide) | exact Sub.kind hM (by decide) _
    | (intro _; try dsimp only) | with_reducible apply State.freeCell_framed | with_reducible apply Framed.ite
    | with_reducible refine Framed.of_pair (by assumption) ?_ | split | apply_assumption

theorem State.partialDelivery_framed {M : Nat} {b : State} {s : State} {c : Nat} (hs : Framed M b s) (hM : Sub 0x2000001808 M) : Framed M b (State.partialDelivery s c) := by
  unfold State.partialDelivery
  try dsimp only
  repeat' first
    | with_reducible assumption | exact Sub.trans (by decide) hM | exact Sub.bit hM (by decide) | exact Sub.kind hM (by decide) _
    | (intro _; try dsimp only) | with_reducible apply State.inc_framed | with_reducible apply State.raise_framed
    | with_reducible apply State.setRec_framed | with_reducible apply Framed.ite | with_reducible refine Framed.of_pair (by assumption) ?_
    | split

theorem State.unref_framed {M : Nat} {b : State} {s : State} {c : Nat} (hs : Framed M b s) (hM : Sub 0x1000 M) : Framed M b (State.unref s c) := by
  unfold State.unref
  try dsimp only
  repeat' first
    | with_reducible assumption | exact Sub.trans (by decide) hM | exact Sub.bit hM (by decide) | exact Sub.kind hM (by decide) _
    | (intro _; try dsimp only) | with_reducible apply State.freeChain_framed | with_reducible apply State.setRec_framed
    | with_reducible apply Framed.ite | with_reducible refine Framed.of_pair (by assumption) ?_ | split
    | with_reducible refine Framed.set_core ?_ ?_

theorem State.endCopy_framed {M : Nat} {b : State} {s : State} {e : QEnt} (hs : Framed M b s) (hM : Sub 0x3000 M) : Framed M b (State.endCopy s e) := by
  unfold State.endCopy
  try dsimp only
  repeat' first
    | with_reducible assumption | exact Sub.trans (by decide) hM | exact Sub.bit hM (by decide) | exact Sub.kind hM (by decide) _
    | (intro _; try dsimp only) | with_reducible apply bit_ringPage | with_reducible apply bit_lanePage
    | with_reducible apply State.freeEnt_framed | with_reducible apply State.freed_framed | with_reducible apply State.unref_framed
    | with_reducible apply Framed.ite | with_reducible refine Framed.of_pair (by assumption) ?_ | split

theorem State.dropFlushed_framed {M : Nat} {b : State} {s : State} {e : QEnt} (hs : Framed M b s) (hM : Sub 0x2000003808 M) : Framed M b (State.dropFlushed s e) := by
  unfold State.dropFlushed
  try dsimp only
  repeat' first
    | with_reducible assumption | exact Sub.trans (by decide) hM | exact Sub.bit hM (by decide) | exact Sub.kind hM (by decide) _
    | (intro _; try dsimp only) | with_reducible apply State.endCopy_framed | with_reducible apply State.freeCell_framed
    | with_reducible apply State.freeEnt_framed | with_reducible apply State.partialDelivery_framed | with_reducible apply Framed.ite
    | with_reducible refine Framed.of_pair (by assumption) ?_ | split

theorem State.flushQueue_framed {M : Nat} {b : State} {s : State} {x1 : Nat} (hs : Framed M b s) (hM : Sub 0x2000003808 M) : Framed M b (State.flushQueue s x1).1 := by
  unfold State.flushQueue
  try dsimp only
  repeat' first
    | with_reducible assumption | exact Sub.trans (by decide) hM | exact Sub.bit hM (by decide) | exact Sub.kind hM (by decide) _
    | (intro _; try dsimp only) | with_reducible apply State.dropFlushed_framed | with_reducible apply State.setQue_framed
    | with_reducible apply Framed.foldl | with_reducible apply Framed.foldlP | with_reducible apply Framed.ite
    | with_reducible refine Framed.of_pair (by assumption) ?_ | split

theorem State.dropLoop_framed {M : Nat} {b : State} {s : State} {p : RingPort} (hs : Framed M b s) (hM : Sub 0x80800000000 M) : Framed M b (State.dropLoop s p) := by
  unfold State.dropLoop
  try dsimp only
  repeat' first
    | with_reducible assumption | exact Sub.trans (by decide) hM | exact Sub.bit hM (by decide) | exact Sub.kind hM (by decide) _
    | (intro _; try dsimp only) | with_reducible apply bit_ringPage | with_reducible apply bit_lanePage
    | with_reducible apply State.inc_framed | with_reducible apply Framed.ite | with_reducible refine Framed.of_pair (by assumption) ?_
    | split

theorem State.endCycle_framed {M : Nat} {b : State} {s : State} (hs : Framed M b s) (hM : Sub 0x1000 M) : Framed M b (State.endCycle s) := by
  unfold State.endCycle
  try dsimp only
  repeat' first
    | with_reducible assumption | exact Sub.trans (by decide) hM | exact Sub.bit hM (by decide) | exact Sub.kind hM (by decide) _
    | (intro _; try dsimp only) | with_reducible apply Framed.ite | with_reducible refine Framed.of_pair (by assumption) ?_ | split
    | with_reducible refine Framed.set_core ?_ ?_

theorem State.judge_framed {M : Nat} {b : State} {s : State} {p : Nat} {c : Cls} {w : Want} {head : Nat} (hs : Framed M b s) (hM : Sub 0x82800000808 M) : Framed M b (State.judge s p c w head).1 := by
  unfold State.judge
  try dsimp only
  repeat' first
    | with_reducible assumption | exact Sub.trans (by decide) hM | exact Sub.bit hM (by decide) | exact Sub.kind hM (by decide) _
    | (intro _; try dsimp only) | with_reducible apply bit_ringPage | with_reducible apply bit_lanePage
    | with_reducible apply State.inc_framed | with_reducible apply State.pcnt_framed | with_reducible apply State.raise_framed
    | with_reducible apply Framed.ite | with_reducible refine Framed.of_pair (by assumption) ?_ | split

theorem State.linkEnt_framed {M : Nat} {b : State} {s : State} {x1 : Nat} {e : QEnt} (hs : Framed M b s) (hM : Sub 0x1000 M) : Framed M b (State.linkEnt s x1 e) := by
  unfold State.linkEnt
  try dsimp only
  repeat' first
    | with_reducible assumption | exact Sub.trans (by decide) hM | exact Sub.bit hM (by decide) | exact Sub.kind hM (by decide) _
    | (intro _; try dsimp only) | with_reducible apply State.setQue_framed | with_reducible apply Framed.ite
    | with_reducible refine Framed.of_pair (by assumption) ?_ | split

theorem State.pushEnt_framed {M : Nat} {b : State} {s : State} {x1 : Nat} {e : QEnt} (hs : Framed M b s) (hM : Sub 0x1000 M) : Framed M b (State.pushEnt s x1 e) := by
  unfold State.pushEnt
  try dsimp only
  repeat' first
    | with_reducible assumption | exact Sub.trans (by decide) hM | exact Sub.bit hM (by decide) | exact Sub.kind hM (by decide) _
    | (intro _; try dsimp only) | with_reducible apply State.linkEnt_framed | with_reducible apply Framed.ite
    | with_reducible refine Framed.of_pair (by assumption) ?_ | split | with_reducible refine Framed.set_core ?_ ?_

theorem State.admitTwin_framed {M : Nat} {b : State} {s : State} {p : Nat} {c : Cls} {head : Nat} {w : Want} (hs : Framed M b s) (hM : Sub 0x82800001808 M) : Framed M b (State.admitTwin s p c head w).1 := by
  unfold State.admitTwin
  try dsimp only
  repeat' first
    | with_reducible assumption | exact Sub.trans (by decide) hM | exact Sub.bit hM (by decide) | exact Sub.kind hM (by decide) _
    | (intro _; try dsimp only) | with_reducible apply State.judge_framed | with_reducible apply State.pushEnt_framed
    | with_reducible apply Framed.ite | with_reducible refine Framed.of_pair (by assumption) ?_ | split

theorem State.admitAll_framed {M : Nat} {b : State} {s : State} {p : Nat} {c : Cls} {head : Nat} {ws : List Want} (hs : Framed M b s) (hM : Sub 0x82800001808 M) : Framed M b (State.admitAll s p c head ws).1 := by
  unfold State.admitAll
  try dsimp only
  repeat' first
    | with_reducible assumption | exact Sub.trans (by decide) hM | exact Sub.bit hM (by decide) | exact Sub.kind hM (by decide) _
    | (intro _; try dsimp only) | with_reducible apply State.admitTwin_framed | with_reducible apply State.judge_framed
    | with_reducible apply State.pushEnt_framed | with_reducible apply Framed.foldl | with_reducible apply Framed.foldlP
    | with_reducible apply Framed.ite | with_reducible refine Framed.of_pair (by assumption) ?_ | split

theorem State.settleCharge_framed {M : Nat} {b : State} {s : State} {head : Nat} {n : Nat} (hs : Framed M b s) (hM : Sub 0x1000 M) : Framed M b (State.settleCharge s head n) := by
  unfold State.settleCharge
  try dsimp only
  repeat' first
    | with_reducible assumption | exact Sub.trans (by decide) hM | exact Sub.bit hM (by decide) | exact Sub.kind hM (by decide) _
    | (intro _; try dsimp only) | with_reducible apply State.settle_framed | with_reducible apply Framed.ite
    | with_reducible refine Framed.of_pair (by assumption) ?_ | split | with_reducible refine Framed.set_core ?_ ?_

theorem State.badCopies_framed {M : Nat} {b : State} {s : State} {head : Nat} (hs : Framed M b s) (hM : Sub 0x2000003000 M) : Framed M b (State.badCopies s head) := by
  unfold State.badCopies
  try dsimp only
  repeat' first
    | with_reducible assumption | exact Sub.trans (by decide) hM | exact Sub.bit hM (by decide) | exact Sub.kind hM (by decide) _
    | (intro _; try dsimp only) | with_reducible apply State.endCopy_framed | with_reducible apply State.pcnt_framed
    | with_reducible apply State.setQue_framed | with_reducible apply Framed.foldl | with_reducible apply Framed.foldlP
    | with_reducible apply Framed.ite | with_reducible refine Framed.of_pair (by assumption) ?_ | split
    | with_reducible refine Framed.set_core ?_ ?_

theorem State.setVerdict_framed {M : Nat} {b : State} {s : State} {head : Nat} {good : Bool} (hs : Framed M b s) (hM : Sub 0x2000003000 M) : Framed M b (State.setVerdict s head good) := by
  unfold State.setVerdict
  try dsimp only
  repeat' first
    | with_reducible assumption | exact Sub.trans (by decide) hM | exact Sub.bit hM (by decide) | exact Sub.kind hM (by decide) _
    | (intro _; try dsimp only) | with_reducible apply State.badCopies_framed | with_reducible apply State.setRec_framed
    | with_reducible apply Framed.ite | with_reducible refine Framed.of_pair (by assumption) ?_ | split

theorem State.putCell_framed {M : Nat} {b : State} {s : State} {i : Nat} {p : Nat} {x3 : Nat} (hs : Framed M b s) (hM : Sub 0x2000001000 M) : Framed M b (State.putCell s i p x3) := by
  unfold State.putCell
  try dsimp only
  repeat' first
    | with_reducible assumption | exact Sub.trans (by decide) hM | exact Sub.bit hM (by decide) | exact Sub.kind hM (by decide) _
    | (intro _; try dsimp only) | with_reducible apply State.pcnt_framed | with_reducible apply State.setBank_framed
    | with_reducible apply State.setCell_framed | with_reducible apply State.setIng_framed | with_reducible apply State.setLink_framed
    | with_reducible apply State.setRec_framed | with_reducible apply Framed.ite | with_reducible refine Framed.of_pair (by assumption) ?_
    | split

theorem State.putHead_framed {M : Nat} {b : State} {s : State} {i : Nat} {p : Nat} {x3 : Nat} {c : Cls} {ws : List Want} {lost0 : Bool} {fed : Bool} {bytes : List Byte} {cells : Nat} {bad : Bool} (hs : Framed M b s) (hM : Sub 0x82800003808 M) : Framed M b (State.putHead s i p x3 c ws lost0 fed bytes cells bad) := by
  unfold State.putHead
  try dsimp only
  repeat' first
    | with_reducible assumption | exact Sub.trans (by decide) hM | exact Sub.bit hM (by decide) | exact Sub.kind hM (by decide) _
    | (intro _; try dsimp only) | with_reducible apply bit_ringPage | with_reducible apply bit_lanePage
    | with_reducible apply State.admitAll_framed | with_reducible apply State.freed_framed
    | with_reducible apply State.partialDelivery_framed | with_reducible apply State.pcnt_framed | with_reducible apply State.putCell_framed
    | with_reducible apply State.setIng_framed | with_reducible apply State.setRec_framed | with_reducible apply State.settleCharge_framed
    | with_reducible apply Framed.ite | with_reducible refine Framed.of_pair (by assumption) ?_ | split

theorem State.defer_framed {M : Nat} {b : State} {s : State} {i : Nat} (hs : Framed M b s) (hM : Sub 0x2000001000 M) : Framed M b (State.defer s i) := by
  unfold State.defer
  try dsimp only
  repeat' first
    | with_reducible assumption | exact Sub.trans (by decide) hM | exact Sub.bit hM (by decide) | exact Sub.kind hM (by decide) _
    | (intro _; try dsimp only) | with_reducible apply State.endCycle_framed | with_reducible apply State.inc_framed
    | with_reducible apply State.setIng_framed | with_reducible apply Framed.ite | with_reducible refine Framed.of_pair (by assumption) ?_
    | split

theorem State.putNext_framed {M : Nat} {b : State} {s : State} {i : Nat} {p : Nat} {x3 : Nat} (hs : Framed M b s) (hM : Sub 0x2000003000 M) : Framed M b (State.putNext s i p x3) := by
  unfold State.putNext
  try dsimp only
  repeat' first
    | with_reducible assumption | exact Sub.trans (by decide) hM | exact Sub.bit hM (by decide) | exact Sub.kind hM (by decide) _
    | (intro _; try dsimp only) | with_reducible apply State.pcnt_framed | with_reducible apply State.putCell_framed
    | with_reducible apply State.setIng_framed | with_reducible apply State.setVerdict_framed
    | with_reducible apply State.settleCharge_framed | with_reducible apply Framed.ite
    | with_reducible refine Framed.of_pair (by assumption) ?_ | split

theorem State.writeNext_framed {M : Nat} {b : State} {s : State} {i : Nat} {p : Nat} (hs : Framed M b s) (hM : Sub 0x2000003000 M) : Framed M b (State.writeNext s i p) := by
  unfold State.writeNext
  try dsimp only
  repeat' first
    | with_reducible assumption | exact Sub.trans (by decide) hM | exact Sub.bit hM (by decide) | exact Sub.kind hM (by decide) _
    | (intro _; try dsimp only) | with_reducible apply State.defer_framed | with_reducible apply State.endCycle_framed
    | with_reducible apply State.putNext_framed | with_reducible apply Framed.ite | with_reducible refine Framed.of_pair (by assumption) ?_
    | split

theorem State.writeRest_framed {M : Nat} {b : State} {i : Nat} {p : Nat} {a : Nat} {x3 : State} (hx3 : Framed M b x3) (hM : Sub 0x2000003000 M) : Framed M b (State.writeRest i p a x3) := by
  fun_induction State.writeRest i p a x3
  all_goals repeat' first
    | with_reducible assumption | exact Sub.trans (by decide) hM | exact Sub.bit hM (by decide) | exact Sub.kind hM (by decide) _
    | (intro _; try dsimp only) | with_reducible apply State.writeNext_framed | with_reducible apply Framed.ite
    | with_reducible refine Framed.of_pair (by assumption) ?_ | split | apply_assumption

theorem State.stopIngress_framed {M : Nat} {b : State} {s : State} {p : Nat} (hs : Framed M b s) (hM : Sub 0x3000 M) : Framed M b (State.stopIngress s p) := by
  unfold State.stopIngress
  try dsimp only
  repeat' first
    | with_reducible assumption | exact Sub.trans (by decide) hM | exact Sub.bit hM (by decide) | exact Sub.kind hM (by decide) _
    | (intro _; try dsimp only) | with_reducible apply bit_ringPage | with_reducible apply bit_lanePage
    | with_reducible apply State.freed_framed | with_reducible apply State.setIng_framed | with_reducible apply Framed.ite
    | with_reducible refine Framed.of_pair (by assumption) ?_ | split

theorem State.ingressBad_framed {M : Nat} {b : State} {s : State} {p : Nat} (hs : Framed M b s) (hM : Sub 0x2000003000 M) : Framed M b (State.ingressBad s p) := by
  unfold State.ingressBad
  try dsimp only
  repeat' first
    | with_reducible assumption | exact Sub.trans (by decide) hM | exact Sub.bit hM (by decide) | exact Sub.kind hM (by decide) _
    | (intro _; try dsimp only) | with_reducible apply State.setIng_framed | with_reducible apply State.setVerdict_framed
    | with_reducible apply State.stopIngress_framed | with_reducible apply Framed.ite
    | with_reducible refine Framed.of_pair (by assumption) ?_ | split

theorem State.ingressDown_framed {M : Nat} {b : State} {s : State} {p : Nat} (hs : Framed M b s) (hM : Sub 0x2000003800 M) : Framed M b (State.ingressDown s p) := by
  unfold State.ingressDown
  try dsimp only
  repeat' first
    | with_reducible assumption | exact Sub.trans (by decide) hM | exact Sub.bit hM (by decide) | exact Sub.kind hM (by decide) _
    | (intro _; try dsimp only) | with_reducible apply State.ingressBad_framed | with_reducible apply State.setIng_framed
    | with_reducible apply Framed.ite | with_reducible refine Framed.of_pair (by assumption) ?_ | split
    | with_reducible refine Framed.set_ingress ?_ ?_

theorem State.flushPortReset_framed {M : Nat} {b : State} {s : State} {p : Nat} (hs : Framed M b s) (hM : Sub 0x6000003808 M) : Framed M b (State.flushPortReset s p) := by
  unfold State.flushPortReset
  try dsimp only
  repeat' first
    | with_reducible assumption | exact Sub.trans (by decide) hM | exact Sub.bit hM (by decide) | exact Sub.kind hM (by decide) _
    | (intro _; try dsimp only) | with_reducible apply State.addSat_framed | with_reducible apply State.flushQueue_framed
    | with_reducible apply State.ingressDown_framed | with_reducible apply State.setEg_framed | with_reducible apply Framed.foldl
    | with_reducible apply Framed.foldlP | with_reducible apply Framed.ite | with_reducible refine Framed.of_pair (by assumption) ?_ | split
    | with_reducible refine Framed.set_core ?_ ?_

theorem State.placeDirect_framed {M : Nat} {b : State} {s : State} {p : Nat} {x2 : Nat} {f : Frame} (hs : Framed M b s) (hM : Sub 0x82800003808 M) : Framed M b (State.placeDirect s p x2 f) := by
  unfold State.placeDirect
  try dsimp only
  repeat' first
    | with_reducible assumption | exact Sub.trans (by decide) hM | exact Sub.bit hM (by decide) | exact Sub.kind hM (by decide) _
    | (intro _; try dsimp only) | with_reducible apply State.defer_framed | with_reducible apply State.endCycle_framed
    | with_reducible apply State.pcnt_framed | with_reducible apply State.putHead_framed | with_reducible apply State.raise_framed
    | with_reducible apply State.setIng_framed | with_reducible apply State.setVerdict_framed | with_reducible apply State.writeRest_framed
    | with_reducible apply Framed.ite | with_reducible refine Framed.of_pair (by assumption) ?_ | split

theorem State.refuseSpare_framed {M : Nat} {b : State} {s : State} {x1 : Nat} (hs : Framed M b s) (hM : Sub 0x2000000808 M) : Framed M b (State.refuseSpare s x1) := by
  unfold State.refuseSpare
  try dsimp only
  repeat' first
    | with_reducible assumption | exact Sub.trans (by decide) hM | exact Sub.bit hM (by decide) | exact Sub.kind hM (by decide) _
    | (intro _; try dsimp only) | with_reducible apply State.fs_framed | with_reducible apply State.raise_framed
    | with_reducible apply Framed.ite | with_reducible refine Framed.of_pair (by assumption) ?_ | split

theorem State.requestSpare_framed {M : Nat} {b : State} {s : State} {x1 : Nat} {cause : Nat} (hs : Framed M b s) (hM : Sub 0x2000001808 M) : Framed M b (State.requestSpare s x1 cause) := by
  unfold State.requestSpare
  try dsimp only
  repeat' first
    | with_reducible assumption | exact Sub.trans (by decide) hM | exact Sub.bit hM (by decide) | exact Sub.kind hM (by decide) _
    | (intro _; try dsimp only) | with_reducible apply State.fs_framed | with_reducible apply State.refuseSpare_framed
    | with_reducible apply Framed.ite | with_reducible refine Framed.of_pair (by assumption) ?_ | split
    | with_reducible refine Framed.set_core ?_ ?_

end Sys2Proof.Machine
end

section
set_option Elab.async false
/-! What the functions of Machine/TwinRole.lean keep (Laws/Framed.lean). -/
namespace Sys2Proof.Machine

theorem State.setRole_framed {M : Nat} {b : State} {s : State} {r : Nat} (hs : Framed M b s) (hM : Sub 0x80000000808 M) : Framed M b (State.setRole s r) := by
  unfold State.setRole
  try dsimp only
  repeat' first
    | with_reducible assumption | exact Sub.trans (by decide) hM | exact Sub.bit hM (by decide) | exact Sub.kind hM (by decide) _
    | (intro _; try dsimp only) | with_reducible apply State.fs_framed | with_reducible apply State.raise_framed
    | with_reducible apply Framed.ite | with_reducible refine Framed.of_pair (by assumption) ?_ | split

theorem State.claim_framed {M : Nat} {b : State} {s : State} (hs : Framed M b s) (hM : Sub 0x80000000808 M) : Framed M b (State.claim s) := by
  unfold State.claim
  try dsimp only
  repeat' first
    | with_reducible assumption | exact Sub.trans (by decide) hM | exact Sub.bit hM (by decide) | exact Sub.kind hM (by decide) _
    | (intro _; try dsimp only) | with_reducible apply State.fs_framed | with_reducible apply State.raiseIf_framed
    | with_reducible apply State.setRole_framed | with_reducible apply Framed.ite | with_reducible refine Framed.of_pair (by assumption) ?_
    | split

theorem State.twinStart_framed {M : Nat} {b : State} {s : State} (hs : Framed M b s) (hM : Sub 0x80000000808 M) : Framed M b (State.twinStart s) := by
  unfold State.twinStart
  try dsimp only
  repeat' first
    | with_reducible assumption | exact Sub.trans (by decide) hM | exact Sub.bit hM (by decide) | exact Sub.kind hM (by decide) _
    | (intro _; try dsimp only) | with_reducible apply State.setRole_framed | with_reducible apply Framed.ite
    | with_reducible refine Framed.of_pair (by assumption) ?_ | split

theorem State.twinWatch_framed {M : Nat} {b : State} {s : State} (hs : Framed M b s) (hM : Sub 0x80000400808 M) : Framed M b (State.twinWatch s) := by
  unfold State.twinWatch
  try dsimp only
  repeat' first
    | with_reducible assumption | exact Sub.trans (by decide) hM | exact Sub.bit hM (by decide) | exact Sub.kind hM (by decide) _
    | (intro _; try dsimp only) | with_reducible apply State.claim_framed | with_reducible apply State.raise_framed
    | with_reducible apply Framed.ite | with_reducible refine Framed.of_pair (by assumption) ?_ | split
    | with_reducible refine Framed.set_tw ?_ ?_

end Sys2Proof.Machine
end

section
set_option Elab.async false
/-! What the functions of Machine/Time.lean keep (Laws/Framed.lean). -/
namespace Sys2Proof.Machine

theorem State.setDom_framed {M : Nat} {b : State} {s : State} {k : Nat} {d : Dom} (hs : Framed M b s) (hM : Sub 0x8000 M) : Framed M b (State.setDom s k d) := by
  unfold State.setDom
  try dsimp only
  repeat' first
    | with_reducible assumption | exact Sub.trans (by decide) hM | exact Sub.bit hM (by decide) | exact Sub.kind hM (by decide) _
    | (intro _; try dsimp only) | with_reducible apply Framed.ite | with_reducible refine Framed.of_pair (by assumption) ?_ | split
    | with_reducible refine Framed.set_tm ?_ ?_

theorem State.tmStart_framed {M : Nat} {b : State} {s : State} (hs : Framed M b s) (hM : Sub 0x8000008000 M) : Framed M b (State.tmStart s) := by
  unfold State.tmStart
  try dsimp only
  repeat' first
    | with_reducible assumption | exact Sub.trans (by decide) hM | exact Sub.bit hM (by decide) | exact Sub.kind hM (by decide) _
    | (intro _; try dsimp only) | with_reducible apply State.fs_framed | with_reducible apply State.setDom_framed
    | with_reducible apply Framed.ite | with_reducible refine Framed.of_pair (by assumption) ?_ | split
    | with_reducible refine Framed.set_tm ?_ ?_

theorem State.tmReset_framed {M : Nat} {b : State} {s : State} (hs : Framed M b s) (hM : Sub 0x8000008000 M) : Framed M b (State.tmReset s) := by
  unfold State.tmReset
  try dsimp only
  repeat' first
    | with_reducible assumption | exact Sub.trans (by decide) hM | exact Sub.bit hM (by decide) | exact Sub.kind hM (by decide) _
    | (intro _; try dsimp only) | with_reducible apply State.tmStart_framed | with_reducible apply Framed.ite
    | with_reducible refine Framed.of_pair (by assumption) ?_ | split | with_reducible refine Framed.set_tm ?_ ?_

end Sys2Proof.Machine
end

section
set_option Elab.async false
/-! What the functions of Machine/Engine.lean keep (Laws/Framed.lean). -/
namespace Sys2Proof.Machine

theorem State.setChan_framed {M : Nat} {b : State} {s : State} {n : Nat} {c : Nat} {x : Chan} (hs : Framed M b s) (hM : Sub 0x40000 M) : Framed M b (State.setChan s n c x) := by
  unfold State.setChan
  try dsimp only
  repeat' first
    | with_reducible assumption | exact Sub.trans (by decide) hM | exact Sub.bit hM (by decide) | exact Sub.kind hM (by decide) _
    | (intro _; try dsimp only) | with_reducible apply Framed.ite | with_reducible refine Framed.of_pair (by assumption) ?_ | split
    | with_reducible refine Framed.set_chans ?_ ?_

theorem State.place_framed {M : Nat} {b : State} {s : State} {n : Nat} {c : Nat} {u : Int} {level : Bool} {en : Bool} (hs : Framed M b s) (hM : Sub 0x40000 M) : Framed M b (State.place s n c u level en) := by
  unfold State.place
  try dsimp only
  repeat' first
    | with_reducible assumption | exact Sub.trans (by decide) hM | exact Sub.bit hM (by decide) | exact Sub.kind hM (by decide) _
    | (intro _; try dsimp only) | with_reducible apply State.setChan_framed | with_reducible apply Framed.ite
    | with_reducible refine Framed.of_pair (by assumption) ?_ | split

theorem State.stopOut_framed {M : Nat} {b : State} {s : State} {n : Nat} {c : Nat} (hs : Framed M b s) (hM : Sub 0x40000 M) : Framed M b (State.stopOut s n c) := by
  unfold State.stopOut
  try dsimp only
  repeat' first
    | with_reducible assumption | exact Sub.trans (by decide) hM | exact Sub.bit hM (by decide) | exact Sub.kind hM (by decide) _
    | (intro _; try dsimp only) | with_reducible apply bit_enOf | with_reducible apply State.place_framed
    | with_reducible apply State.setChan_framed | with_reducible apply Framed.ite | with_reducible refine Framed.of_pair (by assumption) ?_
    | split

end Sys2Proof.Machine
end

section
set_option Elab.async false
/-! What the functions of Machine/Matrix.lean keep (Laws/Framed.lean). -/
namespace Sys2Proof.Machine

theorem State.ttInit_framed {M : Nat} {b : State} {s : State} {n : Nat} {c : Nat} (hs : Framed M b s) (hM : Sub 0x1000000040000 M) : Framed M b (State.ttInit s n c) := by
  unfold State.ttInit
  try dsimp only
  repeat' first
    | with_reducible assumption | exact Sub.trans (by decide) hM | exact Sub.bit hM (by decide) | exact Sub.kind hM (by decide) _
    | (intro _; try dsimp only) | with_reducible apply bit_enOf | with_reducible apply State.setChan_framed
    | with_reducible apply State.wr_framed | with_reducible apply Framed.ite | with_reducible refine Framed.of_pair (by assumption) ?_
    | split

end Sys2Proof.Machine
end

section
set_option Elab.async false
/-! What the functions of Machine/Queues.lean keep (Laws/Framed.lean). -/
namespace Sys2Proof.Machine

theorem State.qClrCnt_framed {M : Nat} {b : State} {s : State} {p : Nat} (hs : Framed M b s) (hM : Sub 0x0 M) (hp1 : M.testBit (kindBit (kindOf p)) = true) : Framed M b (State.qClrCnt s p) := by
  unfold State.qClrCnt
  try dsimp only
  repeat' first
    | with_reducible assumption | exact Sub.trans (by decide) hM | exact Sub.bit hM (by decide) | exact Sub.kind hM (by decide) _
    | (intro _; try dsimp only) | with_reducible apply State.wr_framed | with_reducible apply Framed.ite
    | with_reducible refine Framed.of_pair (by assumption) ?_ | split

theorem State.queuesClr_framed {M : Nat} {b : State} {s : State} (hs : Framed M b s) (hM : Sub 0x4000000000 M) : Framed M b (State.queuesClr s) := by
  unfold State.queuesClr
  refine Framed.foldlM hs fun t p hp h => State.qClrCnt_framed h (Sub.trans (by decide) hM) ?_
  have hk : kindOf p = some .q := by
    revert p; decide
  rw [hk]; exact hM.bit (by decide)

theorem State.graceFlush_framed {M : Nat} {b : State} {s : State} {p : Nat} (hs : Framed M b s) (hM : Sub 0x6000003808 M) : Framed M b (State.graceFlush s p) := by
  unfold State.graceFlush
  try dsimp only
  repeat' first
    | with_reducible assumption | exact Sub.trans (by decide) hM | exact Sub.bit hM (by decide) | exact Sub.kind hM (by decide) _
    | (intro _; try dsimp only) | with_reducible apply State.addSat_framed | with_reducible apply State.flushQueue_framed
    | with_reducible apply Framed.foldl | with_reducible apply Framed.foldlP | with_reducible apply Framed.ite
    | with_reducible refine Framed.of_pair (by assumption) ?_ | split

theorem State.setLost_framed {M : Nat} {b : State} {s : State} {p : Nat} {v : Nat} (hs : Framed M b s) (hM : Sub 0x1000 M) : Framed M b (State.setLost s p v) := by
  unfold State.setLost
  try dsimp only
  repeat' first
    | with_reducible assumption | exact Sub.trans (by decide) hM | exact Sub.bit hM (by decide) | exact Sub.kind hM (by decide) _
    | (intro _; try dsimp only) | with_reducible apply Framed.ite | with_reducible refine Framed.of_pair (by assumption) ?_ | split
    | with_reducible refine Framed.set_core ?_ ?_

theorem State.graceOver_framed {M : Nat} {b : State} {s : State} {p : Nat} (hs : Framed M b s) (hM : Sub 0x6000003808 M) : Framed M b (State.graceOver s p) := by
  unfold State.graceOver
  try dsimp only
  repeat' first
    | with_reducible assumption | exact Sub.trans (by decide) hM | exact Sub.bit hM (by decide) | exact Sub.kind hM (by decide) _
    | (intro _; try dsimp only) | with_reducible apply State.graceFlush_framed | with_reducible apply State.raise_framed
    | with_reducible apply State.setLost_framed | with_reducible apply Framed.ite | with_reducible refine Framed.of_pair (by assumption) ?_
    | split

theorem State.portLost_framed {M : Nat} {b : State} {s : State} {p : Nat} (hs : Framed M b s) (hM : Sub 0x6000003808 M) : Framed M b (State.portLost s p) := by
  unfold State.portLost
  try dsimp only
  repeat' first
    | with_reducible assumption | exact Sub.trans (by decide) hM | exact Sub.bit hM (by decide) | exact Sub.kind hM (by decide) _
    | (intro _; try dsimp only) | with_reducible apply State.graceOver_framed | with_reducible apply State.setLost_framed
    | with_reducible apply Framed.ite | with_reducible refine Framed.of_pair (by assumption) ?_ | split

theorem State.coreDiscard_framed {M : Nat} {b : State} {s : State} (hs : Framed M b s) (hM : Sub 0x1800 M) : Framed M b (State.coreDiscard s) := by
  unfold State.coreDiscard
  try dsimp only
  repeat' first
    | with_reducible assumption | exact Sub.trans (by decide) hM | exact Sub.bit hM (by decide) | exact Sub.kind hM (by decide) _
    | (intro _; try dsimp only) | with_reducible apply Framed.ite | with_reducible refine Framed.of_pair (by assumption) ?_ | split
    | with_reducible refine Framed.set_core ?_ ?_ | with_reducible refine Framed.set_ingress ?_ ?_
    | (refine Framed.upd (s := ?_) ?_ ?_ ?_ ?_ ?_ ?_ ?_ ?_ ?_ ?_ ?_ ?_ ?_ ?_ ?_ ?_ ?_ ?_ ?_ ?_ ?_ ?_ ?_ ?_ ?_ ?_ ?_ ?_ ?_ ?_ ?_ <;> first | rfl | exact Or.inl rfl | exact Or.inr (hM.bit (by decide)) | skip)

end Sys2Proof.Machine
end

section
set_option Elab.async false
/-! What the functions of Machine/CardLink.lean keep (Laws/Framed.lean). -/
namespace Sys2Proof.Machine

theorem State.setCard_framed {M : Nat} {b : State} {s : State} {n : Nat} {x : Card} (hs : Framed M b s) (hM : Sub 0x20000 M) : Framed M b (State.setCard s n x) := by
  unfold State.setCard
  try dsimp only
  repeat' first
    | with_reducible assumption | exact Sub.trans (by decide) hM | exact Sub.bit hM (by decide) | exact Sub.kind hM (by decide) _
    | (intro _; try dsimp only) | with_reducible apply Framed.ite | with_reducible refine Framed.of_pair (by assumption) ?_ | split
    | with_reducible refine Framed.set_cards ?_ ?_

theorem State.clHand_framed {M : Nat} {b : State} {s : State} {n : Nat} {c : Nat} {r : Rep} (hs : Framed M b s) (hM : Sub 0x40000 M) : Framed M b (State.clHand s n c r) := by
  unfold State.clHand
  try dsimp only
  repeat' first
    | with_reducible assumption | exact Sub.trans (by decide) hM | exact Sub.bit hM (by decide) | exact Sub.kind hM (by decide) _
    | (intro _; try dsimp only) | with_reducible apply bit_ecPage | with_reducible apply State.setChan_framed
    | with_reducible apply Framed.ite | with_reducible refine Framed.of_pair (by assumption) ?_ | split

theorem State.clGaps_framed {M : Nat} {b : State} {s0 : State} {n : Nat} {base : Int} (hs0 : Framed M b s0) (hM : Sub 0x50000 M) : Framed M b (State.clGaps s0 n base) := by
  unfold State.clGaps
  try dsimp only
  repeat' first
    | with_reducible assumption | exact Sub.trans (by decide) hM | exact Sub.bit hM (by decide) | exact Sub.kind hM (by decide) _
    | (intro _; try dsimp only) | with_reducible apply State.clHand_framed | with_reducible apply Framed.foldl
    | with_reducible apply Framed.foldlP | with_reducible apply Framed.ite | with_reducible refine Framed.of_pair (by assumption) ?_ | split
    | with_reducible refine Framed.set_scan ?_ ?_

end Sys2Proof.Machine
end

section
set_option Elab.async false
/-! What the functions of Machine/Ring.lean keep (Laws/Framed.lean). -/
namespace Sys2Proof.Machine

theorem State.mergeIn_framed {M : Nat} {b : State} {s : State} {p : RingPort} {f : Frame} (hs : Framed M b s) (hM : Sub 0x2000 M) : Framed M b (State.mergeIn s p f) := by
  unfold State.mergeIn
  try dsimp only
  repeat' first
    | with_reducible assumption | exact Sub.trans (by decide) hM | exact Sub.bit hM (by decide) | exact Sub.kind hM (by decide) _
    | (intro _; try dsimp only) | with_reducible apply bit_ringPage | with_reducible apply bit_lanePage
    | with_reducible apply State.setPort_framed | with_reducible apply Framed.ite | with_reducible refine Framed.of_pair (by assumption) ?_
    | split

theorem State.logicOut_framed {M : Nat} {b : State} {s : State} {p : RingPort} {c : Cls} {f : Frame} (hs : Framed M b s) (hM : Sub 0x800 M) : Framed M b (State.logicOut s p c f) := by
  unfold State.logicOut
  try dsimp only
  repeat' first
    | with_reducible assumption | exact Sub.trans (by decide) hM | exact Sub.bit hM (by decide) | exact Sub.kind hM (by decide) _
    | (intro _; try dsimp only) | with_reducible apply State.stage_framed | with_reducible apply Framed.ite
    | with_reducible refine Framed.of_pair (by assumption) ?_ | split

theorem State.fenceQueue_framed {M : Nat} {b : State} {p : RingPort} {kind : Nat} {s : State} {c : Cls} (hs : Framed M b s) (hM : Sub 0x82800003808 M) : Framed M b (State.fenceQueue p kind s c) := by
  unfold State.fenceQueue
  try dsimp only
  repeat' first
    | with_reducible assumption | exact Sub.trans (by decide) hM | exact Sub.bit hM (by decide) | exact Sub.kind hM (by decide) _
    | (intro _; try dsimp only) | with_reducible apply bit_ringPage | with_reducible apply bit_lanePage
    | with_reducible apply State.logicOut_framed | with_reducible apply State.placeDirect_framed | with_reducible apply Framed.ite
    | with_reducible refine Framed.of_pair (by assumption) ?_ | split

theorem State.fencesOn_framed {M : Nat} {b : State} {s : State} {p : RingPort} {kind : Nat} (hs : Framed M b s) (hM : Sub 0x82800003808 M) : Framed M b (State.fencesOn s p kind) := by
  unfold State.fencesOn
  try dsimp only
  repeat' first
    | with_reducible assumption | exact Sub.trans (by decide) hM | exact Sub.bit hM (by decide) | exact Sub.kind hM (by decide) _
    | (intro _; try dsimp only) | with_reducible apply bit_ringPage | with_reducible apply bit_lanePage
    | with_reducible apply State.fenceQueue_framed | with_reducible apply State.mergeIn_framed | with_reducible apply Framed.foldl
    | with_reducible apply Framed.foldlP | with_reducible apply Framed.ite | with_reducible refine Framed.of_pair (by assumption) ?_ | split

theorem State.fences_framed {M : Nat} {b : State} {s : State} {ports : List RingPort} {kind : Nat} (hs : Framed M b s) (hM : Sub 0x82800003808 M) : Framed M b (State.fences s ports kind) := by
  unfold State.fences
  try dsimp only
  repeat' first
    | with_reducible assumption | exact Sub.trans (by decide) hM | exact Sub.bit hM (by decide) | exact Sub.kind hM (by decide) _
    | (intro _; try dsimp only) | with_reducible apply bit_ringPage | with_reducible apply bit_lanePage
    | with_reducible apply State.fencesOn_framed | with_reducible apply Framed.foldl | with_reducible apply Framed.foldlP
    | with_reducible apply Framed.ite | with_reducible refine Framed.of_pair (by assumption) ?_ | split
    | with_reducible refine Framed.set_ring ?_ ?_

theorem State.moveEnt_framed {M : Nat} {b : State} {p : RingPort} {c : Nat} {s : State} {e : QEnt} (hs : Framed M b s) (hM : Sub 0x80800003000 M) : Framed M b (State.moveEnt p c s e) := by
  unfold State.moveEnt
  try dsimp only
  repeat' first
    | with_reducible assumption | exact Sub.trans (by decide) hM | exact Sub.bit hM (by decide) | exact Sub.kind hM (by decide) _
    | (intro _; try dsimp only) | with_reducible apply bit_ringPage | with_reducible apply bit_lanePage
    | with_reducible apply State.dropLoop_framed | with_reducible apply State.endCopy_framed | with_reducible apply State.inc_framed
    | with_reducible apply State.linkEnt_framed | with_reducible apply Framed.ite | with_reducible refine Framed.of_pair (by assumption) ?_
    | split

theorem State.moveMerged_framed {M : Nat} {b : State} {p : RingPort} {s : State} {f : Frame} (hs : Framed M b s) (hM : Sub 0x80800002000 M) : Framed M b (State.moveMerged p s f) := by
  unfold State.moveMerged
  try dsimp only
  repeat' first
    | with_reducible assumption | exact Sub.trans (by decide) hM | exact Sub.bit hM (by decide) | exact Sub.kind hM (by decide) _
    | (intro _; try dsimp only) | with_reducible apply bit_ringPage | with_reducible apply bit_lanePage
    | with_reducible apply State.dropLoop_framed | with_reducible apply State.inc_framed | with_reducible apply State.mergeIn_framed
    | with_reducible apply Framed.ite | with_reducible refine Framed.of_pair (by assumption) ?_ | split

theorem State.moveQueues_framed {M : Nat} {b : State} {s : State} {p : RingPort} (hs : Framed M b s) (hM : Sub 0x80800003000 M) : Framed M b (State.moveQueues s p) := by
  unfold State.moveQueues
  try dsimp only
  repeat' first
    | with_reducible assumption | exact Sub.trans (by decide) hM | exact Sub.bit hM (by decide) | exact Sub.kind hM (by decide) _
    | (intro _; try dsimp only) | with_reducible apply bit_ringPage | with_reducible apply bit_lanePage
    | with_reducible apply State.moveEnt_framed | with_reducible apply State.moveMerged_framed | with_reducible apply State.setEg_framed
    | with_reducible apply State.setPort_framed | with_reducible apply State.setQue_framed | with_reducible apply Framed.foldl
    | with_reducible apply Framed.foldlP | with_reducible apply Framed.ite | with_reducible refine Framed.of_pair (by assumption) ?_ | split

theorem State.wrap_framed {M : Nat} {b : State} {s : State} {p : RingPort} (hs : Framed M b s) (hM : Sub 0x82800003808 M) : Framed M b (State.wrap s p) := by
  unfold State.wrap
  try dsimp only
  repeat' first
    | with_reducible assumption | exact Sub.trans (by decide) hM | exact Sub.bit hM (by decide) | exact Sub.kind hM (by decide) _
    | (intro _; try dsimp only) | with_reducible apply bit_ringPage | with_reducible apply bit_lanePage
    | with_reducible apply State.fences_framed | with_reducible apply State.fs_framed | with_reducible apply State.moveQueues_framed
    | with_reducible apply State.raise_framed | with_reducible apply State.setPort_framed | with_reducible apply Framed.ite
    | with_reducible refine Framed.of_pair (by assumption) ?_ | split

end Sys2Proof.Machine
end

section
set_option Elab.async false
/-! What the functions of Machine/Lanes.lean keep (Laws/Framed.lean). -/
namespace Sys2Proof.Machine

theorem State.setLocked_framed {M : Nat} {b : State} {s : State} {p : LanePort} {l : Nat} {v : Bool} (hs : Framed M b s) (hM : Sub 0x80800000000 M) : Framed M b (State.setLocked s p l v) := by
  unfold State.setLocked
  try dsimp only
  repeat' first
    | with_reducible assumption | exact Sub.trans (by decide) hM | exact Sub.bit hM (by decide) | exact Sub.kind hM (by decide) _
    | (intro _; try dsimp only) | with_reducible apply bit_ringPage | with_reducible apply bit_lanePage
    | with_reducible apply State.fs_framed | with_reducible apply Framed.ite | with_reducible refine Framed.of_pair (by assumption) ?_
    | split

theorem State.toTrain_framed {M : Nat} {b : State} {s : State} {p : LanePort} (hs : Framed M b s) (hM : Sub 0x80800002000 M) : Framed M b (State.toTrain s p) := by
  unfold State.toTrain
  try dsimp only
  repeat' first
    | with_reducible assumption | exact Sub.trans (by decide) hM | exact Sub.bit hM (by decide) | exact Sub.kind hM (by decide) _
    | (intro _; try dsimp only) | with_reducible apply bit_ringPage | with_reducible apply bit_lanePage
    | with_reducible apply State.fs_framed | with_reducible apply State.setLocked_framed | with_reducible apply State.setPort_framed
    | with_reducible apply Framed.foldl | with_reducible apply Framed.foldlP | with_reducible apply Framed.ite
    | with_reducible refine Framed.of_pair (by assumption) ?_ | split

theorem State.lanesReleased_framed {M : Nat} {b : State} {s : State} {p : LanePort} (hs : Framed M b s) (hM : Sub 0x80800002000 M) : Framed M b (State.lanesReleased s p) := by
  unfold State.lanesReleased
  try dsimp only
  repeat' first
    | with_reducible assumption | exact Sub.trans (by decide) hM | exact Sub.bit hM (by decide) | exact Sub.kind hM (by decide) _
    | (intro _; try dsimp only) | with_reducible apply bit_ringPage | with_reducible apply bit_lanePage
    | with_reducible apply State.toTrain_framed | with_reducible apply Framed.ite | with_reducible refine Framed.of_pair (by assumption) ?_
    | split

end Sys2Proof.Machine
end

section
set_option Elab.async false
/-! What the functions of Machine/Scan.lean keep (Laws/Framed.lean). -/
namespace Sys2Proof.Machine

theorem State.settle_framed {M : Nat} {b : State} {e : Nat} {s : State} {j : Nat} (hs : Framed M b s) (hM : Sub 0x10000000808 M) : Framed M b (State.settle e s j) := by
  unfold State.settle
  try dsimp only
  repeat' first
    | with_reducible assumption | exact Sub.trans (by decide) hM | exact Sub.bit hM (by decide) | exact Sub.kind hM (by decide) _
    | (intro _; try dsimp only) | with_reducible apply State.fs_framed | with_reducible apply State.inc_framed
    | with_reducible apply State.raise_framed | with_reducible apply State.wr_framed | with_reducible apply Framed.ite
    | with_reducible refine Framed.of_pair (by assumption) ?_ | split

end Sys2Proof.Machine
end

section
set_option Elab.async false
/-! What the functions of Machine/Memory.lean keep (Laws/Framed.lean). -/
namespace Sys2Proof.Machine

theorem State.setSpBank_framed {M : Nat} {b : State} {s : State} {x1 : Nat} {x : SpBank} (hs : Framed M b s) (hM : Sub 0x4000 M) : Framed M b (State.setSpBank s x1 x) := by
  unfold State.setSpBank
  try dsimp only
  repeat' first
    | with_reducible assumption | exact Sub.trans (by decide) hM | exact Sub.bit hM (by decide) | exact Sub.kind hM (by decide) _
    | (intro _; try dsimp only) | with_reducible apply Framed.ite | with_reducible refine Framed.of_pair (by assumption) ?_ | split
    | with_reducible refine Framed.set_mem ?_ ?_

theorem State.showSpares_framed {M : Nat} {b : State} {s : State} {x1 : Nat} (hs : Framed M b s) (hM : Sub 0x8000000000000 M) : Framed M b (State.showSpares s x1) := by
  unfold State.showSpares
  try dsimp only
  repeat' first
    | with_reducible assumption | exact Sub.trans (by decide) hM | exact Sub.bit hM (by decide) | exact Sub.kind hM (by decide) _
    | (intro _; try dsimp only) | with_reducible apply State.fs_framed | with_reducible apply Framed.ite
    | with_reducible refine Framed.of_pair (by assumption) ?_ | split

theorem State.marchState_framed {M : Nat} {b : State} {s : State} {n : Nat} (hs : Framed M b s) (hM : Sub 0x8000000000000 M) : Framed M b (State.marchState s n) := by
  unfold State.marchState
  try dsimp only
  repeat' first
    | with_reducible assumption | exact Sub.trans (by decide) hM | exact Sub.bit hM (by decide) | exact Sub.kind hM (by decide) _
    | (intro _; try dsimp only) | with_reducible apply State.fs_framed | with_reducible apply Framed.ite
    | with_reducible refine Framed.of_pair (by assumption) ?_ | split

theorem State.showTesting_framed {M : Nat} {b : State} {s : State} {bs : List Nat} {v : Nat} (hs : Framed M b s) (hM : Sub 0x8000000000000 M) : Framed M b (State.showTesting s bs v) := by
  unfold State.showTesting
  try dsimp only
  repeat' first
    | with_reducible assumption | exact Sub.trans (by decide) hM | exact Sub.bit hM (by decide) | exact Sub.kind hM (by decide) _
    | (intro _; try dsimp only) | with_reducible apply State.fs_framed | with_reducible apply Framed.foldl
    | with_reducible apply Framed.foldlP | with_reducible apply Framed.ite | with_reducible refine Framed.of_pair (by assumption) ?_ | split

theorem State.marchSpares_framed {M : Nat} {b : State} {s : State} {bs : List Nat} (hs : Framed M b s) (hM : Sub 0x2000001808 M) : Framed M b (State.marchSpares s bs) := by
  unfold State.marchSpares
  try dsimp only
  repeat' first
    | with_reducible assumption | exact Sub.trans (by decide) hM | exact Sub.bit hM (by decide) | exact Sub.kind hM (by decide) _
    | (intro _; try dsimp only) | with_reducible apply State.requestSpare_framed | with_reducible apply Framed.ite
    | with_reducible refine Framed.of_pair (by assumption) ?_ | split

theorem State.marchStopped_framed {M : Nat} {b : State} {s : State} {m : March} (hs : Framed M b s) (hM : Sub 0x8002000005808 M) : Framed M b (State.marchStopped s m) := by
  unfold State.marchStopped
  try dsimp only
  repeat' first
    | with_reducible assumption | exact Sub.trans (by decide) hM | exact Sub.bit hM (by decide) | exact Sub.kind hM (by decide) _
    | (intro _; try dsimp only) | with_reducible apply State.marchSpares_framed | with_reducible apply State.marchState_framed
    | with_reducible apply State.raise_framed | with_reducible apply State.setSpBank_framed | with_reducible apply State.showTesting_framed
    | with_reducible apply Framed.foldl | with_reducible apply Framed.foldlP | with_reducible apply Framed.ite
    | with_reducible refine Framed.of_pair (by assumption) ?_ | split | with_reducible refine Framed.set_mem ?_ ?_

theorem State.memReset_framed {M : Nat} {b : State} {s : State} (hs : Framed M b s) (hM : Sub 0x8002000005808 M) : Framed M b (State.memReset s) := by
  unfold State.memReset
  try dsimp only
  repeat' first
    | with_reducible assumption | exact Sub.trans (by decide) hM | exact Sub.bit hM (by decide) | exact Sub.kind hM (by decide) _
    | (intro _; try dsimp only) | with_reducible apply State.fs_framed | with_reducible apply State.marchStopped_framed
    | with_reducible apply State.setSpBank_framed | with_reducible apply State.showSpares_framed
    | with_reducible apply State.showTable_framed | with_reducible apply Framed.foldl | with_reducible apply Framed.foldlP
    | with_reducible apply Framed.ite | with_reducible refine Framed.of_pair (by assumption) ?_ | split
    | with_reducible refine Framed.set_mem ?_ ?_

end Sys2Proof.Machine
end

section
set_option Elab.async false
/-! What the functions of Machine/Power.lean keep (Laws/Framed.lean). -/
namespace Sys2Proof.Machine

theorem State.setPwr_framed {M : Nat} {b : State} {s : State} {n : Nat} {x : Pwr} (hs : Framed M b s) (hM : Sub 0x800000 M) : Framed M b (State.setPwr s n x) := by
  unfold State.setPwr
  try dsimp only
  repeat' first
    | with_reducible assumption | exact Sub.trans (by decide) hM | exact Sub.bit hM (by decide) | exact Sub.kind hM (by decide) _
    | (intro _; try dsimp only) | with_reducible apply Framed.ite | with_reducible refine Framed.of_pair (by assumption) ?_ | split
    | with_reducible refine Framed.set_supv ?_ ?_

theorem State.setFeeds_framed {M : Nat} {b : State} {s : State} {x : Feeds} (hs : Framed M b s) (hM : Sub 0x800000 M) : Framed M b (State.setFeeds s x) := by
  unfold State.setFeeds
  try dsimp only
  repeat' first
    | with_reducible assumption | exact Sub.trans (by decide) hM | exact Sub.bit hM (by decide) | exact Sub.kind hM (by decide) _
    | (intro _; try dsimp only) | with_reducible apply Framed.ite | with_reducible refine Framed.of_pair (by assumption) ?_ | split
    | with_reducible refine Framed.set_supv ?_ ?_

end Sys2Proof.Machine
end

section
set_option Elab.async false
/-! What the functions of Machine/Reply.lean keep (Laws/Framed.lean). -/
namespace Sys2Proof.Machine

theorem State.complete_framed {M : Nat} {b : State} {s : State} {f : Frame} {rsp : Nat} {take : Bool} {payload : List Byte} (hs : Framed M b s) (hM : Sub 0x800 M) : Framed M b (State.complete s f rsp take payload) := by
  unfold State.complete
  try dsimp only
  repeat' first
    | with_reducible assumption | exact Sub.trans (by decide) hM | exact Sub.bit hM (by decide) | exact Sub.kind hM (by decide) _
    | (intro _; try dsimp only) | with_reducible apply State.originate_framed | with_reducible apply Framed.ite
    | with_reducible refine Framed.of_pair (by assumption) ?_ | split

theorem State.seqNote_framed {M : Nat} {b : State} {s : State} {src : Nat} {w : Nat} {wseq : Nat} {sync : Bool} (hs : Framed M b s) (hM : Sub 0x1000000 M) : Framed M b (State.seqNote s src w wseq sync) := by
  unfold State.seqNote
  try dsimp only
  repeat' first
    | with_reducible assumption | exact Sub.trans (by decide) hM | exact Sub.bit hM (by decide) | exact Sub.kind hM (by decide) _
    | (intro _; try dsimp only) | with_reducible apply Framed.ite | with_reducible refine Framed.of_pair (by assumption) ?_ | split
    | with_reducible refine Framed.set_br ?_ ?_

theorem State.reqDone_framed {M : Nat} {b : State} {s : State} {f : Frame} {rsp : Nat} {take : Bool} {data : List Byte} (hs : Framed M b s) (hM : Sub 0x1000800 M) : Framed M b (State.reqDone s f rsp take data) := by
  unfold State.reqDone
  try dsimp only
  repeat' first
    | with_reducible assumption | exact Sub.trans (by decide) hM | exact Sub.bit hM (by decide) | exact Sub.kind hM (by decide) _
    | (intro _; try dsimp only) | with_reducible apply State.complete_framed | with_reducible apply State.originate_framed
    | with_reducible apply State.seqNote_framed | with_reducible apply Framed.ite | with_reducible refine Framed.of_pair (by assumption) ?_
    | split | with_reducible refine Framed.set_br ?_ ?_

theorem State.accessEnds_framed {M : Nat} {b : State} {s : State} {who : Initiator} {a : Option Frame} (hs : Framed M b s) (hM : Sub 0x7000804 M) : Framed M b (State.accessEnds s who a) := by
  unfold State.accessEnds
  try dsimp only
  repeat' first
    | with_reducible assumption | exact Sub.trans (by decide) hM | exact Sub.bit hM (by decide) | exact Sub.kind hM (by decide) _
    | (intro _; try dsimp only) | with_reducible apply State.answer_framed | with_reducible apply State.reqDone_framed
    | with_reducible apply Framed.ite | with_reducible refine Framed.of_pair (by assumption) ?_ | split
    | with_reducible refine Framed.set_host ?_ ?_ | with_reducible refine Framed.set_spi ?_ ?_
    | (refine Framed.upd (s := ?_) ?_ ?_ ?_ ?_ ?_ ?_ ?_ ?_ ?_ ?_ ?_ ?_ ?_ ?_ ?_ ?_ ?_ ?_ ?_ ?_ ?_ ?_ ?_ ?_ ?_ ?_ ?_ ?_ ?_ ?_ ?_ <;> first | rfl | exact Or.inl rfl | exact Or.inr (hM.bit (by decide)) | skip)

end Sys2Proof.Machine
end

section
set_option Elab.async false
/-! What the functions of Machine/Slots.lean keep (Laws/Framed.lean). -/
namespace Sys2Proof.Machine

theorem State.burnFloor_framed {M : Nat} {b : State} {s : State} {x1 : Nat} (hs : Framed M b s) (hM : Sub 0x20 M) : Framed M b (State.burnFloor s x1) := by
  unfold State.burnFloor
  try dsimp only
  repeat' first
    | with_reducible assumption | exact Sub.trans (by decide) hM | exact Sub.bit hM (by decide) | exact Sub.kind hM (by decide) _
    | (intro _; try dsimp only) | with_reducible apply Framed.ite | with_reducible refine Framed.of_pair (by assumption) ?_ | split
    | with_reducible refine Framed.set_gs ?_ ?_

theorem State.raiseFloors_framed {M : Nat} {b : State} {s : State} {bad : Option Nat} (hs : Framed M b s) (hM : Sub 0x40000020000828 M) : Framed M b (State.raiseFloors s bad) := by
  unfold State.raiseFloors
  try dsimp only
  repeat' first
    | with_reducible assumption | exact Sub.trans (by decide) hM | exact Sub.bit hM (by decide) | exact Sub.kind hM (by decide) _
    | (intro _; try dsimp only) | with_reducible apply State.burnFloor_framed | with_reducible apply State.raise_framed
    | with_reducible apply Framed.foldl | with_reducible apply Framed.foldlP | with_reducible apply Framed.ite
    | with_reducible refine Framed.of_pair (by assumption) ?_ | split | with_reducible refine Framed.set_up ?_ ?_

theorem State.retryFloors_framed {M : Nat} {b : State} {s : State} (hs : Framed M b s) (hM : Sub 0x40000060000828 M) : Framed M b (State.retryFloors s) := by
  unfold State.retryFloors
  try dsimp only
  repeat' first
    | with_reducible assumption | exact Sub.trans (by decide) hM | exact Sub.bit hM (by decide) | exact Sub.kind hM (by decide) _
    | (intro _; try dsimp only) | with_reducible apply State.raiseFloors_framed | with_reducible apply State.tookFree_framed
    | with_reducible apply Framed.ite | with_reducible refine Framed.of_pair (by assumption) ?_ | split

theorem State.setUpState_framed {M : Nat} {b : State} {s : State} {v : Nat} (hs : Framed M b s) (hM : Sub 0x40000000000000 M) : Framed M b (State.setUpState s v) := by
  unfold State.setUpState
  try dsimp only
  repeat' first
    | with_reducible assumption | exact Sub.trans (by decide) hM | exact Sub.bit hM (by decide) | exact Sub.kind hM (by decide) _
    | (intro _; try dsimp only) | with_reducible apply State.fs_framed | with_reducible apply Framed.ite
    | with_reducible refine Framed.of_pair (by assumption) ?_ | split

theorem State.disarmed_framed {M : Nat} {b : State} {s : State} (hs : Framed M b s) (hM : Sub 0x40000020000808 M) : Framed M b (State.disarmed s) := by
  unfold State.disarmed
  try dsimp only
  repeat' first
    | with_reducible assumption | exact Sub.trans (by decide) hM | exact Sub.bit hM (by decide) | exact Sub.kind hM (by decide) _
    | (intro _; try dsimp only) | with_reducible apply State.raise_framed | with_reducible apply State.setUpState_framed
    | with_reducible apply Framed.ite | with_reducible refine Framed.of_pair (by assumption) ?_ | split
    | with_reducible refine Framed.set_up ?_ ?_

end Sys2Proof.Machine
end

section
set_option Elab.async false
/-! What the functions of Machine/BlockReset.lean keep (Laws/Framed.lean). -/
namespace Sys2Proof.Machine

theorem State.headReset_framed {M : Nat} {b : State} {s : State} {p : Nat} (hs : Framed M b s) (hM : Sub 0x2 M) (hp1 : M.testBit (kindBit (kindOf p)) = true) : Framed M b (State.headReset s p) := by
  unfold State.headReset
  try dsimp only
  repeat' first
    | with_reducible assumption | exact Sub.trans (by decide) hM | exact Sub.bit hM (by decide) | exact Sub.kind hM (by decide) _
    | (intro _; try dsimp only) | with_reducible apply State.endCommit_framed | with_reducible apply State.fs_framed
    | with_reducible apply State.wr_framed | with_reducible apply Framed.ite | with_reducible refine Framed.of_pair (by assumption) ?_
    | split | with_reducible refine Framed.set_stopping ?_ ?_

theorem State.regsReset_framed {M : Nat} {b : State} {s : State} {p : Nat} {keep : Nat → Bool} (hs : Framed M b s) (hM : Sub 0x1 M) (hp1 : M.testBit (kindBit (kindOf p)) = true) : Framed M b (State.regsReset s p keep) := by
  exact ⟨hs.pending, fun p' o' hf => by
    rw [← hs.rd p' o' hf]
    simp only [State.rd, State.regsReset]
    refine rd_drop _ _ _ _ ?_
    simp only [inPage, regKey]
    by_cases e : p' = p
    · subst e; exact false_of hf hp1
    · have : (p' * 4096 + o' % 4096) / 4096 = p' := by omega
      simp [this, e], fun f hf => by cases f <;> first | exact hs.part _ hf | exact false_of hf (hM.bit (by decide))⟩

theorem State.portReset_framed {M : Nat} {b : State} {s : State} {p : LanePort} (hs : Framed M b s) (hM : Sub 0x86800003809 M) : Framed M b (State.portReset s p) := by
  unfold State.portReset
  try dsimp only
  repeat' first
    | with_reducible assumption | exact Sub.trans (by decide) hM | exact Sub.bit hM (by decide) | exact Sub.kind hM (by decide) _
    | (intro _; try dsimp only) | with_reducible apply bit_ringPage | with_reducible apply bit_lanePage
    | with_reducible apply State.flushPortReset_framed | with_reducible apply State.regsReset_framed
    | with_reducible apply State.setCr_framed | with_reducible apply State.setPort_framed | with_reducible apply Framed.foldl
    | with_reducible apply Framed.foldlP | with_reducible apply Framed.ite | with_reducible refine Framed.of_pair (by assumption) ?_ | split

theorem State.ringReset_framed {M : Nat} {b : State} {s : State} {p : RingPort} (hs : Framed M b s) (hM : Sub 0x86800403809 M) : Framed M b (State.ringReset s p) := by
  unfold State.ringReset
  try dsimp only
  repeat' first
    | with_reducible assumption | exact Sub.trans (by decide) hM | exact Sub.bit hM (by decide) | exact Sub.kind hM (by decide) _
    | (intro _; try dsimp only) | with_reducible apply bit_ringPage | with_reducible apply bit_lanePage
    | with_reducible apply State.fs_framed | with_reducible apply State.portReset_framed | with_reducible apply State.twinWatch_framed
    | with_reducible apply State.wr_framed | with_reducible apply State.wrap_framed | with_reducible apply Framed.ite
    | with_reducible refine Framed.of_pair (by assumption) ?_ | split

theorem State.chansReset_framed {M : Nat} {b : State} {s : State} {n : Nat} (hs : Framed M b s) (hM : Sub 0x40000 M) : Framed M b (State.chansReset s n) := by
  unfold State.chansReset
  try dsimp only
  repeat' first
    | with_reducible assumption | exact Sub.trans (by decide) hM | exact Sub.bit hM (by decide) | exact Sub.kind hM (by decide) _
    | (intro _; try dsimp only) | with_reducible apply State.setChan_framed | with_reducible apply State.stopOut_framed
    | with_reducible apply Framed.foldl | with_reducible apply Framed.foldlP | with_reducible apply Framed.ite
    | with_reducible refine Framed.of_pair (by assumption) ?_ | split

theorem State.heldTimeout_framed {M : Nat} {b : State} {s : State} {x1 : Holder} (hs : Framed M b s) (hM : Sub 0x6000004 M) : Framed M b (State.heldTimeout s x1) := by
  unfold State.heldTimeout
  try dsimp only
  repeat' first
    | with_reducible assumption | exact Sub.trans (by decide) hM | exact Sub.bit hM (by decide) | exact Sub.kind hM (by decide) _
    | (intro _; try dsimp only) | with_reducible apply State.answer_framed
    | with_reducible apply Framed.ite | with_reducible refine Framed.of_pair (by assumption) ?_ | split
    | with_reducible refine Framed.set_host ?_ ?_ | with_reducible refine Framed.set_spi ?_ ?_
    | (refine Framed.upd (s := ?_) ?_ ?_ ?_ ?_ ?_ ?_ ?_ ?_ ?_ ?_ ?_ ?_ ?_ ?_ ?_ ?_ ?_ ?_ ?_ ?_ ?_ ?_ ?_ ?_ ?_ ?_ ?_ ?_ ?_ ?_ ?_ <;> first | rfl | exact Or.inl rfl | exact Or.inr (hM.bit (by decide)) | skip)

theorem State.brReset_framed {M : Nat} {b : State} {s : State} (hs : Framed M b s) (hM : Sub 0x7014004 M) : Framed M b (State.brReset s) := by
  unfold State.brReset
  try dsimp only
  repeat' first
    | with_reducible assumption | exact Sub.trans (by decide) hM | exact Sub.bit hM (by decide) | exact Sub.kind hM (by decide) _
    | (intro _; try dsimp only) | with_reducible apply State.heldTimeout_framed
    | with_reducible apply Framed.foldl | with_reducible apply Framed.foldlP | with_reducible apply Framed.ite
    | with_reducible refine Framed.of_pair (by assumption) ?_ | split | with_reducible refine Framed.set_br ?_ ?_
    | with_reducible refine Framed.set_mem ?_ ?_ | with_reducible refine Framed.set_scan ?_ ?_
    | (refine Framed.upd (s := ?_) ?_ ?_ ?_ ?_ ?_ ?_ ?_ ?_ ?_ ?_ ?_ ?_ ?_ ?_ ?_ ?_ ?_ ?_ ?_ ?_ ?_ ?_ ?_ ?_ ?_ ?_ ?_ ?_ ?_ ?_ ?_ <;> first | rfl | exact Or.inl rfl | exact Or.inr (hM.bit (by decide)) | skip)

theorem State.waitsEnd_framed {M : Nat} {b : State} {s : State} (hs : Framed M b s) (hM : Sub 0x7010804 M) : Framed M b (State.waitsEnd s) := by
  unfold State.waitsEnd
  try dsimp only
  repeat' first
    | with_reducible assumption | exact Sub.trans (by decide) hM | exact Sub.bit hM (by decide) | exact Sub.kind hM (by decide) _
    | (intro _; try dsimp only) | with_reducible apply State.accessEnds_framed | with_reducible apply Framed.foldl
    | with_reducible apply Framed.foldlP | with_reducible apply Framed.ite | with_reducible refine Framed.of_pair (by assumption) ?_ | split
    | with_reducible refine Framed.set_scan ?_ ?_

theorem State.spHeldEnd_framed {M : Nat} {b : State} {s : State} (hs : Framed M b s) (hM : Sub 0x7004804 M) : Framed M b (State.spHeldEnd s) := by
  unfold State.spHeldEnd
  try dsimp only
  repeat' first
    | with_reducible assumption | exact Sub.trans (by decide) hM | exact Sub.bit hM (by decide) | exact Sub.kind hM (by decide) _
    | (intro _; try dsimp only) | with_reducible apply State.accessEnds_framed | with_reducible apply Framed.foldl
    | with_reducible apply Framed.foldlP | with_reducible apply Framed.ite | with_reducible refine Framed.of_pair (by assumption) ?_ | split
    | with_reducible refine Framed.set_mem ?_ ?_

theorem State.upShow_framed {M : Nat} {b : State} {s : State} (hs : Framed M b s) (hM : Sub 0x40000000000000 M) : Framed M b (State.upShow s) := by
  unfold State.upShow
  try dsimp only
  repeat' first
    | with_reducible assumption | exact Sub.trans (by decide) hM | exact Sub.bit hM (by decide) | exact Sub.kind hM (by decide) _
    | (intro _; try dsimp only) | with_reducible apply State.fs_framed | with_reducible apply State.wr_framed
    | with_reducible apply Framed.ite | with_reducible refine Framed.of_pair (by assumption) ?_ | split

theorem State.upReset_framed {M : Nat} {b : State} {s : State} (hs : Framed M b s) (hM : Sub 0x40000020000000 M) : Framed M b (State.upReset s) := by
  unfold State.upReset
  try dsimp only
  repeat' first
    | with_reducible assumption | exact Sub.trans (by decide) hM | exact Sub.bit hM (by decide) | exact Sub.kind hM (by decide) _
    | (intro _; try dsimp only) | with_reducible apply State.upShow_framed | with_reducible apply Framed.ite
    | with_reducible refine Framed.of_pair (by assumption) ?_ | split | with_reducible refine Framed.set_up ?_ ?_

theorem State.supReset_framed {M : Nat} {b : State} {s : State} {p : Nat} (hs : Framed M b s) (hM : Sub 0x800001 M) (hp1 : M.testBit (kindBit (kindOf p)) = true) : Framed M b (State.supReset s p) := by
  unfold State.supReset
  try dsimp only
  repeat' first
    | with_reducible assumption | exact Sub.trans (by decide) hM | exact Sub.bit hM (by decide) | exact Sub.kind hM (by decide) _
    | (intro _; try dsimp only) | with_reducible apply State.regsReset_framed | with_reducible apply State.setFeeds_framed
    | with_reducible apply State.setPwr_framed | with_reducible apply Framed.ite | with_reducible refine Framed.of_pair (by assumption) ?_
    | split

theorem State.smFall_framed {M : Nat} {b : State} {s : State} (hs : Framed M b s) (hM : Sub 0x2000000000808 M) : Framed M b (State.smFall s) := by
  unfold State.smFall
  refine Framed.foldlM hs fun t m hm h => ?_
  have hk : kindOf m = some .sm := by
    revert m; decide
  exact Framed.ite (State.setState_framed h (Sub.trans (by decide) hM) (by rw [hk]; exact hM.bit (by decide))) h

theorem State.smReset_framed {M : Nat} {b : State} {s : State} {p : Nat} (hs : Framed M b s) (hM : Sub 0x1000000040001 M) (hp1 : M.testBit (kindBit (kindOf p)) = true) : Framed M b (State.smReset s p) := by
  unfold State.smReset
  try dsimp only
  repeat' first
    | with_reducible assumption | exact Sub.trans (by decide) hM | exact Sub.bit hM (by decide) | exact Sub.kind hM (by decide) _
    | (intro _; try dsimp only) | with_reducible apply State.regsReset_framed | with_reducible apply State.ttInit_framed
    | with_reducible apply Framed.ite | with_reducible refine Framed.of_pair (by assumption) ?_ | split

theorem State.insideReset_framed {M : Nat} {b : State} {s : State} {p : Nat} (hs : Framed M b s) (hM : Sub 0x4B08E83FC7F82D M) (hp1 : M.testBit (kindBit (kindOf p)) = true) : Framed M b (State.insideReset s p) := by
  unfold State.insideReset
  try dsimp only
  repeat' first
    | with_reducible assumption | exact Sub.trans (by decide) hM | exact Sub.bit hM (by decide) | exact Sub.kind hM (by decide) _
    | (intro _; try dsimp only) | with_reducible apply bit_ringPage | with_reducible apply bit_lanePage
    | with_reducible apply State.brReset_framed | with_reducible apply State.chansReset_framed | with_reducible apply State.clGaps_framed
    | with_reducible apply State.coreDiscard_framed | with_reducible apply State.disarmed_framed
    | with_reducible apply State.flushPortReset_framed | with_reducible apply State.fs_framed | with_reducible apply State.memReset_framed
    | with_reducible apply State.portLost_framed | with_reducible apply State.portReset_framed | with_reducible apply State.queuesClr_framed
    | with_reducible apply State.regsReset_framed | with_reducible apply State.ringReset_framed | with_reducible apply State.setCard_framed
    | with_reducible apply State.setChan_framed | with_reducible apply State.smFall_framed | with_reducible apply State.smReset_framed
    | with_reducible apply State.spHeldEnd_framed | with_reducible apply State.stopOut_framed | with_reducible apply State.supReset_framed
    | with_reducible apply State.tmReset_framed | with_reducible apply State.twinStart_framed | with_reducible apply State.upReset_framed
    | with_reducible apply State.waitsEnd_framed | with_reducible apply State.wr_framed | with_reducible apply Framed.ite
    | with_reducible refine Framed.of_pair (by assumption) ?_ | split | with_reducible refine Framed.set_ft ?_ ?_
    | with_reducible refine Framed.set_gs ?_ ?_ | with_reducible refine Framed.set_host ?_ ?_ | with_reducible refine Framed.set_scan ?_ ?_
    | with_reducible refine Framed.set_tw ?_ ?_ | with_reducible refine Framed.set_wear ?_ ?_
    | (refine Framed.upd (s := ?_) ?_ ?_ ?_ ?_ ?_ ?_ ?_ ?_ ?_ ?_ ?_ ?_ ?_ ?_ ?_ ?_ ?_ ?_ ?_ ?_ ?_ ?_ ?_ ?_ ?_ ?_ ?_ ?_ ?_ ?_ ?_ <;> first | rfl | exact Or.inl rfl | exact Or.inr (hM.bit (by decide)) | skip)

theorem State.blockReset_framed {M : Nat} {b : State} {s : State} {p : Nat} (hs : Framed M b s) (hM : Sub 0x4B08E83FC7F82F M) (hp1 : M.testBit (kindBit (kindOf p)) = true) : Framed M b (State.blockReset s p) := by
  unfold State.blockReset
  try dsimp only
  repeat' first
    | with_reducible assumption | exact Sub.trans (by decide) hM | exact Sub.bit hM (by decide) | exact Sub.kind hM (by decide) _
    | (intro _; try dsimp only) | with_reducible apply State.headReset_framed | with_reducible apply State.insideReset_framed
    | with_reducible apply Framed.ite | with_reducible refine Framed.of_pair (by assumption) ?_ | split

theorem State.blockDown_framed {M : Nat} {b : State} {s : State} {p : Nat} (hs : Framed M b s) (hM : Sub 0x4B08E83FC7F82F M) (hp1 : M.testBit (kindBit (kindOf p)) = true) : Framed M b (State.blockDown s p) := by
  unfold State.blockDown
  try dsimp only
  repeat' first
    | with_reducible assumption | exact Sub.trans (by decide) hM | exact Sub.bit hM (by decide) | exact Sub.kind hM (by decide) _
    | (intro _; try dsimp only) | with_reducible apply State.blockReset_framed | with_reducible apply State.setState_framed
    | with_reducible apply Framed.ite | with_reducible refine Framed.of_pair (by assumption) ?_ | split

end Sys2Proof.Machine
end

section
set_option Elab.async false
/-! What the functions of Machine/Reset.lean keep (Laws/Framed.lean). -/
namespace Sys2Proof.Machine

theorem State.applyRepair_framed {M : Nat} {b : State} {s : State} {r : Repair} (hs : Framed M b s) (hM : Sub 0x9802000004808 M) : Framed M b (State.applyRepair s r) := by
  unfold State.applyRepair
  try dsimp only
  repeat' first
    | with_reducible assumption | exact Sub.trans (by decide) hM | exact Sub.bit hM (by decide) | exact Sub.kind hM (by decide) _
    | (intro _; try dsimp only) | with_reducible apply bit_enPage | with_reducible apply bit_ecPage | with_reducible apply State.fs_framed
    | with_reducible apply State.setSpBank_framed | with_reducible apply State.setState_framed
    | with_reducible apply State.showSpares_framed | with_reducible apply State.wr_framed | with_reducible apply Framed.ite
    | with_reducible refine Framed.of_pair (by assumption) ?_ | split

theorem State.applyRepairs_framed {M : Nat} {b : State} {s : State} (hs : Framed M b s) (hM : Sub 0x9802000004808 M) : Framed M b (State.applyRepairs s) := by
  unfold State.applyRepairs
  try dsimp only
  repeat' first
    | with_reducible assumption | exact Sub.trans (by decide) hM | exact Sub.bit hM (by decide) | exact Sub.kind hM (by decide) _
    | (intro _; try dsimp only) | with_reducible apply State.applyRepair_framed | with_reducible apply State.raiseIf_framed
    | with_reducible apply State.showTable_framed | with_reducible apply Framed.foldl | with_reducible apply Framed.foldlP
    | with_reducible apply Framed.ite | with_reducible refine Framed.of_pair (by assumption) ?_ | split

theorem State.loadBaselines_framed {M : Nat} {b : State} {s : State} (hs : Framed M b s) (hM : Sub 0x20000010000808 M) : Framed M b (State.loadBaselines s) := by
  unfold State.loadBaselines
  try dsimp only
  repeat' first
    | with_reducible assumption | exact Sub.trans (by decide) hM | exact Sub.bit hM (by decide) | exact Sub.kind hM (by decide) _
    | (intro _; try dsimp only) | with_reducible apply State.fs_framed | with_reducible apply State.raise_framed
    | with_reducible apply Framed.foldl | with_reducible apply Framed.foldlP | with_reducible apply Framed.ite
    | with_reducible refine Framed.of_pair (by assumption) ?_ | split | with_reducible refine Framed.set_wear ?_ ?_

end Sys2Proof.Machine
end

section
set_option Elab.async false
/-! The release of islands and their hold (R88-R92). -/
namespace Sys2Proof.Machine

/-! ### A bit of a number set -/

/-- The bits of a number from which a bit that is 1 is taken away. -/
theorem testBit_sub_two_pow {n i : Nat} (h : n.testBit i = true) (j : Nat) :
    (n - 2 ^ i).testBit j = (n.testBit j && !decide (j = i)) := by
  obtain ⟨x, rfl⟩ : ∃ x, n = 2 ^ i + x := ⟨n - 2 ^ i, by have := Nat.ge_two_pow_of_testBit h; omega⟩
  have hx : x.testBit i = false := by simpa [Nat.testBit_two_pow_add_eq] using h
  rw [Nat.add_sub_cancel_left]
  obtain hj | rfl | hj := Nat.lt_trichotomy j i
  · simp [Nat.testBit_two_pow_add_gt hj, Nat.ne_of_lt hj]
  · simp [hx]
  · have hp : 2 ^ (i + 1) = 2 * 2 ^ i := by rw [pow_succ, mul_comm]
    have low : x % 2 ^ (i + 1) < 2 ^ i := by
      have even : x / 2 ^ i % 2 = 0 := by simpa [Nat.testBit_eq_decide_div_mod_eq] using hx
      rw [Nat.mod_pow_succ, even, mul_zero, add_zero]
      exact Nat.mod_lt _ (Nat.two_pow_pos i)
    have high : (2 ^ i + x) / 2 ^ (i + 1) = x / 2 ^ (i + 1) := by
      have whole := Nat.div_add_mod x (2 ^ (i + 1))
      have := Nat.two_pow_pos i
      apply Nat.div_eq_of_lt_le
      · rw [mul_comm]; omega
      · rw [Nat.add_mul, mul_comm]; omega
    have e (m : Nat) : m.testBit j = (m / 2 ^ (i + 1)).testBit (j - (i + 1)) := by
      rw [Nat.testBit_div_two_pow]; congr 1; omega
    rw [e, e (2 ^ i + x), high]
    simp [Nat.ne_of_gt hj]

theorem testBit_setBit (n i : Nat) (b : Bool) (j : Nat) : (setBit n i b).testBit j = if j = i then b else n.testBit j := by
  unfold setBit
  rw [Nat.shiftLeft_eq, Nat.one_mul]
  cases b
  · rw [if_neg (by decide)]
    by_cases h : n.testBit i = true
    · rw [if_pos h, testBit_sub_two_pow h]
      by_cases e : j = i <;> simp [e]
    · rw [if_neg h]
      by_cases e : j = i
      · simpa [e] using h
      · simp [e]
  · rw [if_pos rfl, Nat.testBit_or, Nat.testBit_two_pow]
    by_cases e : j = i
    · simp [e]
    · simp [e, Ne.symm e]

/-! ### An island released -/

/-- What later islands of a position are released by, as it was. -/
structure Releasing (s t : State) : Prop where
  iso : t.iso = s.iso
  pll : t.pll = s.pll
  spll : t.spll = s.spll
  hold : t.rd 0 GS_HOLD = s.rd 0 GS_HOLD
  spare : t.rd 0x005 WR_PLL_STATUS = s.rd 0x005 WR_PLL_STATUS

namespace Releasing
variable {s t u : State}

theorem trans (h : Releasing s t) (k : Releasing t u) : Releasing s u :=
  ⟨k.iso.trans h.iso, k.pll.trans h.pll, k.spll.trans h.spll, k.hold.trans h.hold, k.spare.trans h.spare⟩

theorem isoIsland (h : Releasing s t) (i : Nat) : t.isoIsland i = s.isoIsland i := by simp only [State.isoIsland, h.iso]

theorem clocked (h : Releasing s t) (i : Nat) : t.clocked i = s.clocked i := by
  unfold State.clocked State.fg
  rw [h.pll, h.spll]
  simp only [show WR_PLL_STATUS_ON_SPARE.off = WR_PLL_STATUS from rfl, show WR_PLL_STATUS_SPARE_BAD.off = WR_PLL_STATUS from rfl, h.spare]

/-- What a frame leaves. -/
theorem of_framed {M : Nat} (h : Framed M s t) (hM : M &&& maskOf [.gs, .wr] [.iso, .pll, .spll] = 0 := by decide) : Releasing s t := by
  have out {i : Nat} (hi : (maskOf [.gs, .wr] [.iso, .pll, .spll]).testBit i = true) : M.testBit i = false := by
    have := congrArg (Nat.testBit · i) hM
    simpa [Nat.testBit_and, hi] using this
  exact ⟨h.part .iso (out (by decide)), h.part .pll (out (by decide)), h.part .spll (out (by decide)), h.rd 0 _ (out (by decide)),
    h.rd 5 _ (out (by decide))⟩

end Releasing

/-- What begins when an island is released changes no island. -/
theorem State.released_spec (s : State) (i : Nat) : Releasing s (s.released i) ∧ (s.released i).isl = s.isl := by
  have lanes (u : State) (p : LanePort) : Releasing u (u.lanesReleased p) ∧ (u.lanesReleased p).isl = u.isl :=
    have h := State.lanesReleased_framed (p := p) (.refl _ u) (.self _)
    ⟨.of_framed h, h.part .isl rfl⟩
  have tm := State.tmReset_framed (.refl _ s) (.self _)
  have tw := State.twinStart_framed (.refl _ s) (.self _)
  unfold State.released
  split
  · have start : Releasing s (if s.gs.lcZero then { s with lc := 0, gs := { s.gs with lcZero := false } } else s) ∧
        (if s.gs.lcZero then { s with lc := 0, gs := { s.gs with lcZero := false } } else s).isl = s.isl := by
      split <;> exact ⟨⟨rfl, rfl, rfl, rfl, rfl⟩, rfl⟩
    exact ⟨start.1.trans (lanes _ _).1, (lanes _ _).2.trans start.2⟩
  · split
    · exact ⟨.of_framed tm, tm.part .isl rfl⟩
    · split
      · exact ⟨(Releasing.of_framed tw).trans (lanes _ _).1, (lanes _ _).2.trans (tw.part .isl rfl)⟩
      · split
        · exact ⟨⟨rfl, rfl, rfl, rfl, rfl⟩, rfl⟩
        · split
          · refine ⟨⟨rfl, rfl, rfl, ?_, ?_⟩, rfl⟩ <;>
              simp (disch := decide) [State.rd_fs_page, State.rd_fs_off]
          · split
            · exact ⟨⟨rfl, rfl, rfl, rfl, rfl⟩, rfl⟩
            · exact ⟨⟨rfl, rfl, rfl, rfl, rfl⟩, rfl⟩

/-- An island released is up, without a request; the others are as they were. -/
theorem State.releaseIsland_spec (s : State) (i : Nat) :
    Releasing s (s.releaseIsland i) ∧ (s.releaseIsland i).isl = s.isl.put i { rel := true, req := false } {} := by
  have h := State.released_spec (s.setIsl i { rel := true, req := false }) i
  have set : Releasing s (s.setIsl i { rel := true, req := false }) := ⟨rfl, rfl, rfl, rfl, rfl⟩
  have ended (g : Gs) : Releasing ((s.setIsl i { rel := true, req := false }).released i)
      { (s.setIsl i { rel := true, req := false }).released i with gs := g } := ⟨rfl, rfl, rfl, rfl, rfl⟩
  unfold State.releaseIsland
  dsimp only
  split
  · split
    · exact ⟨(set.trans h.1).trans (ended _), h.2⟩
    · exact ⟨set.trans h.1, h.2⟩
  · exact ⟨set.trans h.1, h.2⟩

theorem State.requestRelease_spec (s : State) (i : Nat) :
    Releasing s (s.requestRelease i) ∧ (∀ j, s.islUp j = true → (s.requestRelease i).islUp j = true) ∧
      (s.isoIsland i = false → s.clocked i = true → (s.requestRelease i).islUp i = true) := by
  unfold State.requestRelease
  split
  · next h =>
    refine ⟨⟨rfl, rfl, rfl, rfl, rfl⟩, fun _ h => h, fun hiso _ => ?_⟩
    simpa [hiso] using h
  · next h =>
    have down : s.islUp i = false := by simp only [Bool.or_eq_true, not_or] at h; simpa using h.1
    have other {j : Nat} (hj : s.islUp j = true) : j ≠ i := fun e => by rw [e, down] at hj; cases hj
    split
    · obtain ⟨stays, isl⟩ := State.releaseIsland_spec s i
      refine ⟨stays, fun j hj => ?_, fun _ _ => ?_⟩
      · rw [State.islUp, isl, Map.getD_put_other _ _ _ _ (other hj)]; exact hj
      · rw [State.islUp, isl, Map.getD_put_same]
    · next hc =>
      refine ⟨⟨rfl, rfl, rfl, rfl, rfl⟩, fun j hj => ?_, fun _ h => absurd h hc⟩
      rw [State.islUp, State.setIsl, Map.getD_put_other _ _ _ _ (other hj)]; exact hj

/-- A position's step over one island: nothing where it is held, else a request for its release. -/
def State.positionStep (t : State) (i : Nat) : State := if nbit (t.rd 0 GS_HOLD).toNat (holdBit i) then t else t.requestRelease i

/-- After a position's steps every island of it that is not held, isolated or without clock is up. -/
theorem position_up (l : List Nat) (s : State) :
    (∀ j, s.islUp j = true → (l.foldl State.positionStep s).islUp j = true) ∧
      ∀ i ∈ l, nbit (s.rd 0 GS_HOLD).toNat (holdBit i) = false → s.isoIsland i = false → s.clocked i = true →
        (l.foldl State.positionStep s).islUp i = true := by
  induction l generalizing s with
  | nil => exact ⟨fun _ h => h, by simp⟩
  | cons a l ih =>
    obtain ⟨stays, up, rises⟩ : Releasing s (s.positionStep a) ∧ (∀ j, s.islUp j = true → (s.positionStep a).islUp j = true) ∧
        (nbit (s.rd 0 GS_HOLD).toNat (holdBit a) = false → s.isoIsland a = false → s.clocked a = true → (s.positionStep a).islUp a = true) := by
      unfold State.positionStep
      split
      · next h => exact ⟨⟨rfl, rfl, rfl, rfl, rfl⟩, fun _ h => h, fun h' => by rw [h] at h'; cases h'⟩
      · exact ⟨(s.requestRelease_spec a).1, (s.requestRelease_spec a).2.1, fun _ => (s.requestRelease_spec a).2.2⟩
    obtain ⟨keep, all⟩ := ih (s.positionStep a)
    refine ⟨fun j hj => keep j (up j hj), fun i hi hhold hiso hclk => ?_⟩
    rw [List.foldl_cons]
    rcases List.mem_cons.1 hi with rfl | hi
    · exact keep _ (rises hhold hiso hclk)
    · exact all i hi (by rw [stays.hold]; exact hhold) (by rw [stays.isoIsland]; exact hiso) (by rw [stays.clocked]; exact hclk)

/-! ### An island down -/

/-- Every part and kind but the groundsheet's part. -/
def besideGs : Nat := everyBit - 2 ^ 5

theorem besideGs_kind (k : Option Kind) : besideGs.testBit (kindBit k) = true :=
  Sub.bit (.of (by decide : kindMask &&& besideGs = kindMask)) (kindMask_bit k)

/-- Of the groundsheet's part, a block's reset changes the two marks that begin with a host's and a fault's configuration. -/
theorem State.insideReset_pos (s : State) (p : Nat) : (s.insideReset p).gs.pos = s.gs.pos := by
  by_cases h : kindOf p = some .ft ∨ kindOf p = some .hp
  · unfold State.insideReset
    obtain h | h := h <;> rw [h] <;> rfl
  · have framed : Framed besideGs s (s.insideReset p) := by
      have hs := Framed.refl besideGs s
      have hM : Sub besideGs besideGs := .self _
      have hp1 := besideGs_kind (kindOf p)
      unfold State.insideReset
      split
      case h_3 e => exact absurd (.inl e) h
      case h_10 e => exact absurd (.inr e) h
      all_goals try dsimp only
      all_goals repeat' first
        | with_reducible assumption | exact Sub.trans (by decide) hM | exact Sub.bit hM (by decide) | exact Sub.kind hM (by decide) _
        | (intro _; try dsimp only) | with_reducible apply bit_ringPage | with_reducible apply bit_lanePage
        | with_reducible apply State.brReset_framed | with_reducible apply State.chansReset_framed | with_reducible apply State.clGaps_framed
        | with_reducible apply State.coreDiscard_framed | with_reducible apply State.disarmed_framed
        | with_reducible apply State.flushPortReset_framed | with_reducible apply State.fs_framed | with_reducible apply State.memReset_framed
        | with_reducible apply State.portLost_framed | with_reducible apply State.portReset_framed | with_reducible apply State.queuesClr_framed
        | with_reducible apply State.regsReset_framed | with_reducible apply State.ringReset_framed | with_reducible apply State.setCard_framed
        | with_reducible apply State.setChan_framed | with_reducible apply State.smFall_framed | with_reducible apply State.smReset_framed
        | with_reducible apply State.spHeldEnd_framed | with_reducible apply State.stopOut_framed | with_reducible apply State.supReset_framed
        | with_reducible apply State.tmReset_framed | with_reducible apply State.twinStart_framed | with_reducible apply State.upReset_framed
        | with_reducible apply State.waitsEnd_framed | with_reducible apply State.wr_framed | with_reducible apply Framed.ite
        | with_reducible refine Framed.of_pair (by assumption) ?_ | split | with_reducible refine Framed.set_ft ?_ ?_
        | with_reducible refine Framed.set_gs ?_ ?_ | with_reducible refine Framed.set_host ?_ ?_ | with_reducible refine Framed.set_scan ?_ ?_
        | with_reducible refine Framed.set_tw ?_ ?_ | with_reducible refine Framed.set_wear ?_ ?_
        | (refine Framed.upd (s := ?_) ?_ ?_ ?_ ?_ ?_ ?_ ?_ ?_ ?_ ?_ ?_ ?_ ?_ ?_ ?_ ?_ ?_ ?_ ?_ ?_ ?_ ?_ ?_ ?_ ?_ ?_ ?_ ?_ ?_ ?_ ?_ <;> first | rfl | exact Or.inl rfl | exact Or.inr (hM.bit (by decide)) | skip)
    rw [framed.part .gs rfl]

theorem State.blockDown_pos (s : State) (p : Nat) : (s.blockDown p).gs.pos = s.gs.pos := by
  have head := State.headReset_framed (M := besideGs) (p := p) (.refl _ s) (.of (by decide)) (besideGs_kind _)
  unfold State.blockDown State.blockReset
  rw [State.setState_gs, State.insideReset_pos, head.part .gs rfl]

/-- The islands, page 0x000 and the release position are as they were. -/
structure HoldKept (s t : State) : Prop where
  isl : t.isl = s.isl
  rd : ∀ o, t.rd 0 o = s.rd 0 o
  pos : t.gs.pos = s.gs.pos

namespace HoldKept
variable {s t u : State}

theorem refl (s : State) : HoldKept s s := ⟨rfl, fun _ => rfl, rfl⟩
theorem trans (h : HoldKept s t) (k : HoldKept t u) : HoldKept s u :=
  ⟨k.isl.trans h.isl, fun o => (k.rd o).trans (h.rd o), k.pos.trans h.pos⟩

/-- Every part and kind but the islands and the groundsheet's page. -/
def mask : Nat := everyBit - 2 ^ 32 - 2 ^ 6

theorem mask_kind {k : Option Kind} (h : k ≠ some .gs) : mask.testBit (kindBit k) = true := by
  have all : ∀ k : Kind, k ≠ .gs → mask.testBit (kindBit (some k)) = true := fun k => by cases k <;> decide
  cases k with
  | none => decide
  | some k => exact all k fun e => h (by rw [e])

theorem blockDown (s : State) {p : Nat} (hp : kindOf p ≠ some .gs) : HoldKept s (s.blockDown p) :=
  have h := State.blockDown_framed (M := mask) (p := p) (.refl _ s) (.of (by decide)) (mask_kind hp)
  ⟨h.part .isl (by decide), fun _ => h.rd _ _ (by decide), s.blockDown_pos p⟩

theorem foldl {α : Type} {f : State → α → State} (l : List α) (hf : ∀ t, ∀ a ∈ l, HoldKept t (f t a)) (s : State) :
    HoldKept s (l.foldl f s) := by
  induction l generalizing s with
  | nil => exact refl s
  | cons a l ih => exact (hf s a (by simp)).trans (ih (fun t b hb => hf t b (by simp [hb])) _)

end HoldKept

theorem islandPages_kind {i p : Nat} (hi : i < 40) (hp : p ∈ islandPages i) : kindOf p ≠ some .gs := by
  have all : ∀ i, i < 40 → ∀ p ∈ islandPages i, kindOf p ≠ some .gs := by decide +kernel
  exact all i hi p hp

/-- An island that goes down is not released and asks for nothing; the other islands, page 0x000 and the release position stay. -/
theorem State.islandDown_spec (s : State) {i : Nat} (hi : i < 40) : HoldKept (s.setIsl i {}) (s.islandDown i) := by
  have pages := HoldKept.foldl (f := State.blockDown) (islandPages i) (fun t p hp => .blockDown t (islandPages_kind hi hp)) (s.setIsl i {})
  unfold State.islandDown
  dsimp only
  generalize (islandPages i).foldl State.blockDown (s.setIsl i {}) = s1 at pages ⊢
  have common : HoldKept (s.setIsl i {}) (if i < 2 ∧ (!s1.islUp (1 - i)) = true then s1.blockDown 0x00A else s1) := by
    split
    · exact pages.trans (.blockDown _ (by decide))
    · exact pages
  generalize (if i < 2 ∧ (!s1.islUp (1 - i)) = true then s1.blockDown 0x00A else s1) = s2 at common ⊢
  have cluster : HoldKept (s.setIsl i {}) (if 11 ≤ i ∧ i < 35 then
      ({ s2 with gs := { s2.gs with loading := s2.gs.loading.filter (· != i - 11) }, ucode := s2.ucode.erase (i - 11) } : State).wr
        (ecPage (i - 11)) EC_UCODE 0 else s2) := by
    split
    · exact common.trans ⟨rfl, fun o => by rw [State.rd_wr_page _ _ _ _ (ecPage_ne_zero _).symm]; rfl, rfl⟩
    · exact common
  generalize (if 11 ≤ i ∧ i < 35 then
      ({ s2 with gs := { s2.gs with loading := s2.gs.loading.filter (· != i - 11) }, ucode := s2.ucode.erase (i - 11) } : State).wr
        (ecPage (i - 11)) EC_UCODE 0 else s2) = s3 at cluster ⊢
  split
  · have flush := State.flushPortReset_framed (p := portLantern) (.refl _ s3) (.self _)
    have isl : (s3.flushPortReset portLantern).isl = s3.isl := flush.part .isl rfl
    have gs : (s3.flushPortReset portLantern).gs = s3.gs := flush.part .gs rfl
    have rd (o : Nat) : (s3.flushPortReset portLantern).rd 0 o = s3.rd 0 o := flush.rd 0 o rfl
    generalize s3.flushPortReset portLantern = s4 at isl gs rd ⊢
    exact cluster.trans ⟨isl, rd, by rw [gs]⟩
  · exact cluster

/-! ### A write of GS_HOLD -/

/-- A write's step over one island, with the bits of GS_HOLD before and after it. -/
def State.holdStep (old new : Nat) (t : State) (i : Nat) : State :=
  let b := holdBit i
  if nbit new b && !nbit old b then (if t.islUp i then t.islandDown i else t.setIsl i {})
  else if !nbit new b && nbit old b && decide (t.opt = 8) && (t.gs.pos.all fun k => decide (islandPosition i < k)) && !t.islUp i then
    t.setIsl i { rel := false, req := true }
  else t

theorem State.setIsl_same (s : State) (i : Nat) (x : Isl) : (s.setIsl i x).isl.getD i {} = x := Map.getD_put_same s.isl i x {}
theorem State.setIsl_other (s : State) {i j : Nat} (x : Isl) (h : j ≠ i) : (s.setIsl i x).isl.getD j {} = s.isl.getD j {} :=
  Map.getD_put_other s.isl x {} {} h

/-- What a step over island `i` leaves: page 0x000, the release position and the other islands; and what it makes of the island itself. -/
structure Stepped (old new i : Nat) (t u : State) : Prop where
  rd : ∀ o, u.rd 0 o = t.rd 0 o
  pos : u.gs.pos = t.gs.pos
  other : ∀ j, j ≠ i → u.isl.getD j {} = t.isl.getD j {}
  down : nbit new (holdBit i) = true → nbit old (holdBit i) = false → u.isl.getD i {} = {}
  asks : nbit new (holdBit i) = false → nbit old (holdBit i) = true → t.opt = 8 →
    (t.gs.pos.all fun k => decide (islandPosition i < k)) = true → t.islUp i = false → u.isl.getD i {} = { rel := false, req := true }

theorem Stepped.of_setIsl {old new i : Nat} {t u : State} {x : Isl} (h : HoldKept (t.setIsl i x) u)
    (down : nbit new (holdBit i) = true → nbit old (holdBit i) = false → x = {})
    (asks : nbit new (holdBit i) = false → nbit old (holdBit i) = true → x = { rel := false, req := true }) : Stepped old new i t u where
  rd := h.rd
  pos := h.pos
  other j hj := by rw [h.isl, State.setIsl_other _ _ hj]
  down hn ho := by rw [h.isl, State.setIsl_same, down hn ho]
  asks hn ho _ _ _ := by rw [h.isl, State.setIsl_same, asks hn ho]

theorem State.holdStep_spec (old new : Nat) (t : State) {i : Nat} (hi : i < 40) : Stepped old new i t (t.holdStep old new i) := by
  unfold State.holdStep
  dsimp only
  split
  · next h =>
    have raised : nbit new (holdBit i) = true := by simp only [Bool.and_eq_true] at h; exact h.1
    split
    · exact .of_setIsl (t.islandDown_spec hi) (fun _ _ => rfl) fun hn => by rw [raised] at hn; cases hn
    · exact .of_setIsl (.refl _) (fun _ _ => rfl) fun hn => by rw [raised] at hn; cases hn
  · next h =>
    split
    · next h' =>
      have fell : nbit new (holdBit i) = false := by simp only [Bool.and_eq_true, Bool.not_eq_true'] at h'; exact h'.1.1.1.1
      exact .of_setIsl (.refl _) (fun hn => by rw [fell] at hn; cases hn) fun _ _ => rfl
    · next h' =>
      refine ⟨fun _ => rfl, rfl, fun _ _ => rfl, fun hn ho => absurd (by simp [hn, ho]) h, fun hn ho hopt hpos hup => absurd ?_ h'⟩
      simp only [hn, ho, hopt, hpos, hup]
      decide

/-- What the steps over a list of distinct islands leave, and what they make of each. -/
theorem holdSteps_spec (old new : Nat) {i : Nat} : ∀ (l : List Nat) (t : State), (∀ j ∈ l, j < 40) → l.Nodup →
    (∀ o, (l.foldl (State.holdStep old new) t).rd 0 o = t.rd 0 o) ∧
      (i ∉ l → (l.foldl (State.holdStep old new) t).isl.getD i {} = t.isl.getD i {}) ∧
      (i ∈ l → nbit new (holdBit i) = true → nbit old (holdBit i) = false → (l.foldl (State.holdStep old new) t).isl.getD i {} = {}) ∧
      (i ∈ l → nbit new (holdBit i) = false → nbit old (holdBit i) = true → t.opt = 8 →
        (t.gs.pos.all fun k => decide (islandPosition i < k)) = true → t.islUp i = false →
        (l.foldl (State.holdStep old new) t).isl.getD i {} = { rel := false, req := true })
  | [], t, _, _ => ⟨fun _ => rfl, fun _ => rfl, fun h => absurd h List.not_mem_nil, fun h => absurd h List.not_mem_nil⟩
  | a :: l, t, hl, hn => by
    obtain ⟨notin, nodup⟩ := List.nodup_cons.1 hn
    have step := State.holdStep_spec old new t (hl a (by simp))
    obtain ⟨rd, out, down, asks⟩ := holdSteps_spec old new (i := i) l (t.holdStep old new a) (fun j hj => hl j (by simp [hj])) nodup
    have opt : (t.holdStep old new a).opt = t.opt := by simp only [State.opt, State.fg, step.rd]
    refine ⟨fun o => (rd o).trans (step.rd o), fun h => ?_, fun h => ?_, fun h => ?_⟩
    · rw [List.mem_cons, not_or] at h
      exact (out h.2).trans (step.other i h.1)
    · rcases List.mem_cons.1 h with rfl | h
      · exact fun hn ho => (out notin).trans (step.down hn ho)
      · exact down h
    · rcases List.mem_cons.1 h with rfl | h
      · exact fun hn ho hopt hpos hup => (out notin).trans (step.asks hn ho hopt hpos hup)
      · have other : i ≠ a := fun e => notin (e ▸ h)
        exact fun hn ho hopt hpos hup => asks h hn ho (opt.trans hopt) (by rw [step.pos]; exact hpos)
          (by rw [State.islUp, step.other i other]; exact hup)

/-- A write of GS_HOLD is the steps over the 40 islands. -/
theorem State.holdWrite_eq (s : State) (v : Word) : s.holdWrite v =
    (List.range 40).foldl (State.holdStep (s.rd 0 GS_HOLD).toNat (v.toNat % 2 ^ 15)) (s.wr 0 GS_HOLD (BitVec.ofNat 32 (v.toNat % 2 ^ 15))) := rfl

/-- What a write of GS_HOLD leaves: the register, and of an island whose bit rises or falls. -/
theorem State.holdWrite_spec (s : State) (v : Word) {i : Nat} (hi : i < 40) :
    (s.holdWrite v).rd 0 GS_HOLD = BitVec.ofNat 32 (v.toNat % 2 ^ 15) ∧
      (nbit (v.toNat % 2 ^ 15) (holdBit i) = true → nbit (s.rd 0 GS_HOLD).toNat (holdBit i) = false → (s.holdWrite v).isl.getD i {} = {}) ∧
      (nbit (v.toNat % 2 ^ 15) (holdBit i) = false → nbit (s.rd 0 GS_HOLD).toNat (holdBit i) = true → s.opt = 8 →
        (s.gs.pos.all fun k => decide (islandPosition i < k)) = true → s.islUp i = false →
        (s.holdWrite v).isl.getD i {} = { rel := false, req := true }) := by
  obtain ⟨rd, -, down, asks⟩ := holdSteps_spec (s.rd 0 GS_HOLD).toNat (v.toNat % 2 ^ 15) (i := i) (List.range 40)
    (s.wr 0 GS_HOLD (BitVec.ofNat 32 (v.toNat % 2 ^ 15))) (fun j hj => List.mem_range.1 hj) List.nodup_range
  rw [← State.holdWrite_eq] at rd down asks
  refine ⟨by rw [rd, State.rd_wr_same], down (List.mem_range.2 hi), fun hn ho hopt => asks (List.mem_range.2 hi) hn ho ?_⟩
  rw [← hopt]
  exact State.fg_wr_off _ _ _ (by decide)

/-! ### The statement -/

/-- Settles O23. -/
theorem islandsAreReleasedAndHeld : Obligations.IslandsAreReleasedAndHeld := by
  refine ⟨fun s k i hpos hi hhold hiso hclk => ?_, fun s island hreq hclk hiso => ?_, fun s who v i hacc hnew hold => ?_,
    fun s who v i hacc hnew hold hopt hpos hup => ?_, fun s reg bit j => ?_⟩
  · have rises : State.islUp ((positionIslands k).foldl State.positionStep s) i = true := (position_up _ s).2 i hi hhold hiso hclk
    have step : exec .islandReleasePosition s = .next (if k < 37 then
        { (positionIslands k).foldl State.positionStep s with
          gs := { ((positionIslands k).foldl State.positionStep s).gs with pos := some (k + 1) } }
        else { (positionIslands k).foldl State.positionStep s with
          gs := { ((positionIslands k).foldl State.positionStep s).gs with pos := none, seq := none } }) := by
      change execIslandReleasePosition s = _
      rw [execIslandReleasePosition, hpos]; rfl
    refine ⟨_, step, ?_⟩
    split
    · exact ⟨rises, rfl, fun h => by omega⟩
    · exact ⟨rises, rfl, fun _ => rfl⟩
  · obtain ⟨-, isl⟩ := State.releaseIsland_spec s island.val
    refine ⟨_, congrArg Host.Outcome.next (if_pos (by simp [hreq, hclk, hiso])), ?_, ?_⟩
    · rw [State.islUp, isl, Map.getD_put_same]
    · rw [isl, Map.getD_put_same]
  · have before : (s.touch who false).rd 0 GS_HOLD = s.rd 0 GS_HOLD := State.rd_touch _ _ _ _ _ (by decide)
    obtain ⟨word, down, -⟩ := (s.touch who false).holdWrite_spec v i.isLt
    have isl := down hnew (by rw [before]; exact hold)
    refine completes_write rfl hacc ⟨?_, ?_, ?_⟩
    · rw [State.islUp, State.answer_isl, isl]
    · rw [State.answer_isl, isl]
    · rw [State.rd_answer, word]
  · have before : (s.touch who false).rd 0 GS_HOLD = s.rd 0 GS_HOLD := State.rd_touch _ _ _ _ _ (by decide)
    obtain ⟨word, -, asks⟩ := (s.touch who false).holdWrite_spec v i.isLt
    have isl := asks hnew (by rw [before]; exact hold) ((State.fg_touch _ _ _ _ _ (by decide)).trans hopt)
      (by rw [State.gs_touch]; exact hpos) (by simpa [State.islUp] using hup)
    refine completes_write rfl hacc ⟨?_, ?_⟩
    · rw [State.answer_isl, isl]
    · rw [State.rd_answer, word]
  · refine ⟨_, rfl, ?_⟩
    dsimp only
    rw [State.rd_wr_same, nbit, BitVec.testBit_toNat, BitVec.getLsbD_ofNat, testBit_setBit]
    simp [nbit, Fin.ext_iff]

end Sys2Proof.Machine
end

section
set_option Elab.async false
/-! The release of a hub reset and the option reader up to its records (R59, R81-R86, R99, R100). -/
namespace Sys2Proof.Machine

/-! ### What the reader reads of the MRAM -/

theorem State.mbytes_congr {s t : State} (h : t.mram = s.mram) (a k : Nat) : t.mbytes a k = s.mbytes a k := by
  induction k generalizing a with
  | zero => rfl
  | succ k ih => simp only [State.mbytes, ih, State.mb, h]
theorem State.mle_congr {s t : State} (h : t.mram = s.mram) (a k : Nat) : t.mle a k = s.mle a k := by
  simp only [State.mle, State.mbytes_congr h]
theorem State.optHdr_congr {s t : State} (h : t.mram = s.mram) : t.optHdr = s.optHdr := by
  funext c off k; exact State.mle_congr h _ _
theorem State.headerValid_congr {s t : State} (h : t.mram = s.mram) (c : Nat) : t.headerValid c = s.headerValid c := by
  unfold State.headerValid
  rw [State.optHdr_congr h]
theorem headerChoice_congr {s t : State} (h : t.mram = s.mram) : headerChoice t = headerChoice s := by
  unfold headerChoice
  rw [State.headerValid_congr h, State.headerValid_congr h, State.optHdr_congr h]

/-! ### The choice of a copy (R83) -/

theorem State.revertRecord_settled {s : State} (ht : s.up.trial = false) (hf : s.up.failing = false) : s.revertRecord = s := by
  unfold State.revertRecord
  simp [ht, hf]

/-- With a valid header the reader goes on to VERIFY with the copy chosen. -/
theorem State.readHeaders_chosen {s : State} {k : Nat} (ht : s.up.trial = false) (hf : s.up.failing = false) (hk : headerChoice s = some k) :
    s.readHeaders = ({ s with gs := { s.gs with copy := k, tried := false } } : State).setOpt 4 := by
  unfold State.readHeaders
  rw [State.revertRecord_settled ht hf]
  unfold headerChoice at hk
  dsimp only
  split at hk <;> simp_all

theorem State.readHeaders_none {s : State} (ht : s.up.trial = false) (hf : s.up.failing = false) (hk : headerChoice s = none) :
    s.readHeaders = s.bareStart := by
  unfold State.readHeaders
  rw [State.revertRecord_settled ht hf]
  unfold headerChoice at hk
  dsimp only
  split at hk <;> simp_all

theorem State.setOpt_opt (s : State) {v : Nat} (h : v < 16) : (s.setOpt v).opt = v := by
  rw [State.opt, State.setOpt, State.fg_fs _ _ _ _ (by decide)]
  exact Nat.mod_eq_of_lt h

/-! ### The release of a hub reset -/

/-- A release command lets its pin go and releases the reset with the straps sampled. -/
theorem exec_releasing {s : State} {c : Instr} {g : Gs} {st : Straps} (h : releasing s c = some (g, st)) :
    exec c s = .next (({ s with gs := g } : State).releaseReset st) ∧ g.seq = s.gs.seq ∧ g.straps = s.gs.straps ∧ g.strapPins = st := by
  unfold releasing at h
  split at h
  · cases h; exact ⟨rfl, rfl, rfl, rfl⟩
  · cases h; exact ⟨rfl, rfl, rfl, rfl⟩
  · next tj st' =>
    split at h
    · next hlow =>
      cases h
      refine ⟨congrArg Host.Outcome.next (if_neg (by omega)), rfl, rfl, rfl⟩
    · cases h
  · cases h; exact ⟨rfl, rfl, rfl, rfl⟩
  · cases h

/-- Without a pin, a temperature or a clock that holds it, a reset in progress is released from IDLE. -/
theorem State.releaseReset_free {s : State} {st : Straps} {r : ResetReq} (hfree : nothingHolds s.gs = true) (hopt : s.opt = 0)
    (hseq : s.gs.seq = some r) : s.releaseReset st =
      let s1 := if r.level ≤ 1 then
          ({ s with gs := { s.gs with straps := st, strapPins := st } } : State).wr 0 GS_STRAPS (BitVec.ofNat 32 (bit st.compatBn + 2 * bit st.bootHold))
        else s
      if r.level = 0 then s1.setOpt 1 else s1.readHeaders := by
  have free : s.resetHeld = false := by simpa [nothingHolds, State.resetHeld] using hfree
  unfold State.releaseReset
  rw [if_neg (by simp [free, hopt]), hseq]

/-- Settles O20. -/
theorem resetReleaseStartsTheReader : Obligations.ResetReleaseStartsTheReader := by
  refine ⟨fun s c g st r hrel hfree hopt hseq hlv => ?_, fun s c g st r k hrel hfree hopt hseq hlv htrial hfail hk => ?_,
    fun s c g st hrel hheld => ?_⟩
  · obtain ⟨e, seq, -, pins⟩ := exec_releasing hrel
    refine ⟨_, e, ?_⟩
    rw [State.releaseReset_free (s := { s with gs := g }) hfree hopt (seq.trans hseq)]
    simp only [hlv, Nat.zero_le, if_true]
    refine ⟨State.setOpt_opt _ (by decide), ?_, ?_⟩
    · subst pins; rfl
    · rw [State.setOpt, State.rd_fs_off _ _ _ (by decide), State.rd_wr_same]
  · obtain ⟨e, seq, straps, -⟩ := exec_releasing hrel
    refine ⟨_, e, ?_⟩
    rw [State.releaseReset_free (s := { s with gs := g }) hfree hopt (seq.trans hseq)]
    obtain h | h := hlv
    · simp only [h, Nat.one_ne_zero, if_false, le_refl, if_true]
      rw [State.readHeaders_chosen (by exact htrial) (by exact hfail) ((headerChoice_congr (by rfl)).trans hk)]
      exact ⟨State.setOpt_opt _ (by decide), rfl, rfl⟩
    · simp only [h, show ¬ 2 ≤ 1 by decide, show ¬ 2 = 0 by decide, show ¬ 2 = 1 by decide, if_false]
      rw [State.readHeaders_chosen (by exact htrial) (by exact hfail) ((headerChoice_congr (by rfl)).trans hk)]
      exact ⟨State.setOpt_opt _ (by decide), rfl, straps⟩
  · obtain ⟨e, -⟩ := exec_releasing hrel
    refine ⟨_, e, ?_⟩
    have held : ({ s with gs := g } : State).resetHeld = true := by
      unfold State.resetHeld
      simpa only [nothingHolds, Bool.not_eq_false'] using hheld
    rw [State.releaseReset, if_pos (by simp [held])]

/-! ### The reader's last step (R88) -/

/-- The reader is DONE and the release of islands begins; the twin's, the ring ports' and the card links' pages are left. -/
structure ReaderDone (s t : State) : Prop where
  opt : t.opt = 8
  pos : t.gs.pos = some 0
  rd : ∀ p o, kindOf p ∈ [some .tw, some .rp, some .cl] → t.rd p o = s.rd p o

theorem State.toDone_spec (s : State) : ReaderDone s s.toDone := by
  unfold State.toDone
  dsimp only
  have floors : Framed 0x40000060000828 s (if s.seqLevel = 0 then s.retryFloors else s) :=
    .ite (State.retryFloors_framed (.refl _ s) (.self _)) (.refl _ s)
  generalize (if s.seqLevel = 0 then s.retryFloors else s) = u at floors ⊢
  have loaded : Framed (0x9802000004808 ||| 0x20000010000808) (u.setOpt 8) (u.setOpt 8).applyRepairs.loadBaselines :=
    State.loadBaselines_framed (State.applyRepairs_framed (.refl _ _) (.of (by decide))) (.of (by decide))
  generalize (u.setOpt 8).applyRepairs.loadBaselines = w at loaded ⊢
  refine ⟨?_, rfl, fun p o hp => ?_⟩
  · have : w.rd 0 GS_OPT_STATUS_STATE.off = (u.setOpt 8).rd 0 GS_OPT_STATUS_STATE.off := loaded.rd 0 _ rfl
    rw [← u.setOpt_opt (v := 8) (by decide)]
    simp only [State.opt, State.fg]
    exact congrArg _ this
  · have out : (0x9802000004808 ||| 0x20000010000808 : Nat).testBit (kindBit (kindOf p)) = false ∧
        (0x40000060000828 : Nat).testBit (kindBit (kindOf p)) = false ∧ p ≠ 0 := by
      have zero : p = 0 → kindOf p = some .gs := fun e => by rw [e]; rfl
      simp only [List.mem_cons, List.not_mem_nil, or_false] at hp
      obtain h | h | h := hp <;> rw [h] at zero ⊢ <;> exact ⟨by decide, by decide, fun e => by cases zero e⟩
    exact (loaded.rd p o out.1).trans ((State.rd_fs_page _ _ _ _ out.2.2).trans (floors.rd p o out.2.1))

/-! ### FUSE, HEADER, VERIFY and CLOCKS -/

theorem State.setState_self (s : State) (p : Nat) {f : Fld} (hf : f.lo + f.w ≤ 32) (hw : 1 ≤ f.w) (he : regKey 0 f.off ≠ regKey 0 EVT_STATUS) (v : Bool) :
    (s.setState p f v).fb p f = v := by
  have two : 1 < 2 ^ f.w := Nat.one_lt_two_pow (by omega)
  unfold State.setState
  split
  · next h => exact h
  · rw [State.fb, State.fg_raise_off _ _ he, State.fg_fs _ _ _ _ hf]
    cases v <;> simp [bit, Nat.mod_eq_of_lt two]

theorem State.setState_page (s : State) {p q : Nat} (f g : Fld) (v : Bool) (h : q ≠ p) : (s.setState p f v).fb q g = s.fb q g := by
  unfold State.setState
  split
  · rfl
  · rw [State.fb, State.fg_raise_page _ _ _ h, State.fg_fs_page _ _ _ _ h]; rfl

/-- A bare start waits for the clocks, unless the reset was an L2 one. -/
theorem State.bareStart_waits {s : State} (h : s.seqLevel ≠ 2) :
    s.bareStart.opt = 9 ∧ s.bareStart.fb 0 GS_OPT_STATUS_FALLBACK = true ∧ s.bareStart.rd 0 GS_HUB_ID = 0 ∧
      s.bareStart.rd 0 GS_HOLD = holdMost ∧ s.bareStart.event 0 EV_GS_OPT_FALLBACK = true := by
  unfold State.bareStart
  simp only [if_neg h]
  refine ⟨?_, ?_, ?_, ?_, ?_⟩
  · simp (disch := decide) [State.opt, State.setOpt, State.fg_fs_page, State.fg_raise_off, State.fg_wr_page, State.fg_wr_off, State.fg_fs_apart,
      State.fg_fs]
    rfl
  · simp (disch := decide) [State.fb, State.fg_fs_page, State.fg_raise_off, State.fg_wr_page, State.fg_wr_off, State.fg_fs_apart,
      State.fg_fs]
  · simp (disch := decide) [State.rd_fs_page, State.rd_raise_off, State.rd_wr_page, State.rd_wr_off]
  · simp (disch := decide) [State.rd_fs_page, State.rd_raise_off, State.rd_wr_page, State.rd_wr_off]
  · rw [State.event_fs_off _ _ _ _ (by decide), State.event_raise _ _ (by decide)]

/-- The header of copy `c` in effect. -/
theorem State.loadHeader_spec (s : State) {c : Nat} (hc : c ≤ 1) (hid : s.optHdr c 0x10 1 ≤ 119) :
    (s.loadHeader c).hubId = s.optHdr c 0x10 1 ∧ (s.loadHeader c).hubValid = true ∧
      (s.loadHeader c).rd 0 GS_RESET_CTRL = BitVec.ofNat 32 (s.optHdr c 0x12 2 % 4) ∧ (s.loadHeader c).fg 0 GS_OPT_STATUS_COPY = c + 1 ∧
      (s.loadHeader c).gs.cred = s.mbytes (optBase c + 0x18) 16 := by
  have id : s.optHdr c 0x10 1 % 2 ^ GS_HUB_ID_ID.w = s.optHdr c 0x10 1 := Nat.mod_eq_of_lt (lt_of_le_of_lt hid (by decide))
  have copy : (c + 1) % 2 ^ GS_OPT_STATUS_COPY.w = c + 1 := Nat.mod_eq_of_lt (lt_of_le_of_lt (Nat.succ_le_succ hc) (by decide))
  unfold State.loadHeader
  refine ⟨?_, ?_, ?_, ?_, rfl⟩
  · simp (disch := decide) [State.hubId, State.fg_wr_page, State.fg_wr_off, State.fg_fs_apart, State.fg_wr_get, id]
  · simp (disch := decide) [State.hubValid, State.fb, State.fg_wr_page, State.fg_wr_off, State.fg_fs_apart, State.fg_wr_get, Fld.get_set_ne]
  · simp (disch := decide) [State.rd_wr_page, State.rd_fs_off]
  · simp (disch := decide) [State.fg_wr_page, State.fg_fs, copy]

/-- Pages 0x000 to 0x002 made READY. -/
theorem fusePages_ready (s : State) : ∀ p ∈ [0, 1, 2], ([0, 1, 2].foldl (fun (t : State) p => t.setState p PAGE_STATE_READY true) s).ready p = true := by
  intro p hp
  have self (u : State) (q : Nat) : (u.setState q PAGE_STATE_READY true).fb q PAGE_STATE_READY = true :=
    u.setState_self q (by decide) (by decide) (by decide) true
  simp only [List.foldl_cons, List.foldl_nil, State.ready]
  simp only [List.mem_cons, List.not_mem_nil, or_false] at hp
  obtain rfl | rfl | rfl := hp
  · rw [State.setState_page _ _ _ _ (by decide), State.setState_page _ _ _ _ (by decide), self]
  · rw [State.setState_page _ _ _ _ (by decide), self]
  · exact self _ _

/-- Settles O21. -/
theorem readerReadsFusesAndHeaders : Obligations.ReaderReadsFusesAndHeaders := by
  refine ⟨fun s hopt => ?_, fun s k hopt ht hf hk => ?_, fun s hopt ht hf hk hlv => ?_, fun s hopt hcopy hvalid => ?_,
    fun s hopt hbad htried hother => ?_, fun s hopt => ?_⟩
  · refine ⟨_, congrArg Host.Outcome.next (if_neg (by simp [hopt])), ?_⟩
    have ready := fusePages_ready { s with gs := { s.gs with fuseHeld := s.gs.fuse, fused := true } }
    have gs : ([0, 1, 2].foldl (fun (t : State) p => t.setState p PAGE_STATE_READY true)
        { s with gs := { s.gs with fuseHeld := s.gs.fuse, fused := true } }).gs = { s.gs with fuseHeld := s.gs.fuse, fused := true } := by simp
    dsimp only at ready gs ⊢
    generalize [0, 1, 2].foldl (fun (t : State) p => t.setState p PAGE_STATE_READY true)
      { s with gs := { s.gs with fuseHeld := s.gs.fuse, fused := true } } = u at ready gs ⊢
    have raised : (u.raiseIf u.levelInvalid 0 EV_GS_FUSE_LEVEL_INVALID).gs = u.gs ∧
        ∀ p ∈ [0, 1, 2], (u.raiseIf u.levelInvalid 0 EV_GS_FUSE_LEVEL_INVALID).ready p = true := by
      unfold State.raiseIf
      split
      · refine ⟨State.raise_gs .., fun p hp => ?_⟩
        rw [← ready p hp]
        simp only [State.ready, State.fb, State.fg, State.rd_raise, if_neg (regKey_ne_of_off (o' := PAGE_STATE) (o := EVT_STATUS) (by decide) 0 p),
          show PAGE_STATE_READY.off = PAGE_STATE from rfl]
      · exact ⟨rfl, ready⟩
    obtain ⟨same, ready⟩ := raised
    generalize u.raiseIf u.levelInvalid 0 EV_GS_FUSE_LEVEL_INVALID = w at same ready ⊢
    rw [gs] at same
    have crc (a b : Nat) : w.fuseCrcOk a b = s.fuseCrcOk a b := by simp only [State.fuseCrcOk, same]
    have shown {f : Fld} {v : Nat} (x : State) (hx : ∀ p ∈ [0, 1, 2], x.ready p = true) (hf : regKey 0 PAGE_STATE ≠ regKey 0 f.off) :
        ∀ p ∈ [0, 1, 2], (x.fs 0 f v).ready p = true := fun p hp => by
      rw [← hx p hp]
      simp only [State.ready, State.fb, State.fg, State.rd_fs, if_neg (regKey_ne_of_off (o' := PAGE_STATE) (o := f.off) hf 0 p),
        show PAGE_STATE_READY.off = PAGE_STATE from rfl]
    simp only [crc]
    cases hcrc : s.fuseCrcOk 0 7 && s.fuseCrcOk 8 23
    · have all := shown (f := GS_OPT_STATUS_FUSE_BAD) (v := 1) _ (shown (f := GS_OPT_STATUS_STATE) (v := 10) w ready (by decide)) (by decide)
      refine ⟨?_, ?_, ⟨all 0 (by simp), all 1 (by simp), all 2 (by simp)⟩, ?_, fun _ => ?_⟩
      · exact congrArg Gs.fuseHeld same
      · exact congrArg Gs.fused same
      · exact (State.fg_fs_apart _ _ _ (by decide)).trans (State.setOpt_opt w (by decide))
      · simp only [Bool.false_eq_true, if_false]
        rw [State.fb, State.fg_fs _ _ _ _ (by decide)]; rfl
    · have all := shown (f := GS_OPT_STATUS_STATE) (v := 2) w ready (by decide)
      refine ⟨?_, ?_, ⟨all 0 (by simp), all 1 (by simp), all 2 (by simp)⟩, ?_, fun h => by cases h⟩
      · exact congrArg Gs.fuseHeld same
      · exact congrArg Gs.fused same
      · exact State.setOpt_opt w (by decide)
  · refine ⟨_, congrArg Host.Outcome.next ((if_pos hopt).trans (State.readHeaders_chosen ht hf hk)), ?_, rfl, rfl⟩
    exact State.setOpt_opt _ (by decide)
  · exact ⟨_, congrArg Host.Outcome.next ((if_pos hopt).trans (State.readHeaders_none ht hf hk)), State.bareStart_waits hlv⟩
  · have hid : s.optHdr s.gs.copy 0x10 1 ≤ 119 := by
      simp only [State.imageValid, State.headerValid, Bool.and_eq_true, decide_eq_true_eq] at hvalid
      exact hvalid.1.1.1.2
    obtain ⟨hub, valid, ctrl, copy, cred⟩ := s.loadHeader_spec hcopy hid
    refine ⟨_, congrArg Host.Outcome.next ((if_neg (by simp [hopt])).trans (if_pos hvalid)), ?_⟩
    dsimp only
    have stays (x : State) (f g : Fld) (v : Nat) (hfg : regKey 0 g.off ≠ regKey 0 f.off ∨
        ((g.lo + g.w ≤ f.lo ∨ f.lo + f.w ≤ g.lo) ∧ g.lo + g.w ≤ 32)) : (x.fs 0 f v).fg 0 g = x.fg 0 g := State.fg_fs_apart _ _ _ hfg
    split
    · refine ⟨State.setOpt_opt _ (by decide), ?_, ?_, ?_, ?_, cred⟩
      · rw [← hub]; exact stays _ _ _ _ (by decide)
      · rw [← valid]; exact congrArg (· != 0) (stays _ _ GS_HUB_ID_VALID _ (by decide))
      · rw [← ctrl]; exact State.rd_fs_off _ _ _ (by decide)
      · rw [← copy]; exact stays _ _ _ _ (by decide)
    · have other (x : State) (f g : Fld) (v : Nat) : (x.fs 0x005 f v).fg 0 g = x.fg 0 g := State.fg_fs_page _ _ _ _ (by decide)
      refine ⟨?_, ?_, ?_, ?_, ?_, cred⟩
      · exact (other _ _ _ _).trans (State.setOpt_opt _ (by decide))
      · rw [← hub]; exact (other _ _ _ _).trans (stays _ _ _ _ (by decide))
      · rw [← valid]; exact congrArg (· != 0) ((other _ _ GS_HUB_ID_VALID _).trans (stays _ _ _ _ (by decide)))
      · rw [← ctrl]; exact (State.rd_fs_page _ _ _ _ (by decide)).trans (State.rd_fs_off _ _ _ (by decide))
      · rw [← copy]; exact (other _ _ _ _).trans (stays _ _ _ _ (by decide))
  · refine ⟨_, congrArg Host.Outcome.next (if_neg (by simp [hopt])), ?_⟩
    simp [hbad, htried, hother]
  · obtain h | h := hopt
    · refine ⟨_, congrArg Host.Outcome.next (if_pos h), ?_, fun _ => rfl, fun h' => absurd (h.symm.trans h') (by decide)⟩
      rw [if_pos h]; exact State.setOpt_opt _ (by decide)
    · have done := State.toDone_spec { s with pll := (List.range 13).map fun k => (k, true), spll := (List.range 13).map fun k => (k, true) }
      refine ⟨_, congrArg Host.Outcome.next ((if_neg (by simp [h])).trans (if_pos h)), ?_, fun h' => absurd (h.symm.trans h') (by decide), fun _ => done.pos⟩
      rw [if_neg (by simp [h])]; exact done.opt

end Sys2Proof.Machine
end

section
set_option Elab.async false
/-! Option records and equalization rows (R98-R100, R119). -/
namespace Sys2Proof.Machine

/-! ### A record of EVT_ENABLE -/

/-- The preload path's write of EVT_ENABLE: the defined bits are stored, and no other register but EVT_STATUS of page 0x01C changes. -/
theorem State.regWrite_evtEnable (s : State) {p : Nat} (v : Word) (hp : kindOf p ≠ none) (he : kindOf p ≠ some .en) :
    (s.regWrite .preload p EVT_ENABLE v).rd p EVT_ENABLE = v &&& BitVec.ofNat 32 (evtMaskOf p) ∧
      (∀ p' o, regKey p' o ≠ regKey p EVT_ENABLE → regKey p' o ≠ regKey 0x01C EVT_STATUS →
        (s.regWrite .preload p EVT_ENABLE v).rd p' o = s.rd p' o) ∧
      (s.regWrite .preload p EVT_ENABLE v).gs = s.gs := by
  have own : s.enAlias p = p := if_neg he
  have reached : s.accepts .preload p EVT_ENABLE = true := by
    have mapped : (kindOf p).isNone = false := by cases h : kindOf p <;> simp_all
    simp [State.accepts_iff, State.reach, State.stbyRefuses, mapped, EVT_ENABLE]
  have eq : s.regWrite .preload p EVT_ENABLE v =
      (((s.touch .preload false).wrEvtEnable p v).mirrorCfg 0 p EVT_ENABLE v).answer .preload rspOk 0 := by
    rw [State.regWrite, own, State.write_accepts reached]
    simp [State.viaSup, State.regApply, State.headerWrite, EVT_ENABLE, PAGE_CTRL, EVT_STATUS]
  have rd (p' o : Nat) : (s.regWrite .preload p EVT_ENABLE v).rd p' o =
      ((s.touch .preload false).wr p EVT_ENABLE (v &&& BitVec.ofNat 32 (evtMaskOf p))).rd p' o := by
    rw [eq, State.rd_answer, State.rd_of_regs (State.mirrorCfg_regs ..), State.wrEvtEnable, State.rd_irqRise]
  refine ⟨by rw [rd, State.rd_wr_same], fun p' o h h' => ?_, ?_⟩
  · rw [rd, State.rd_wr, if_neg h, State.rd_touch _ _ _ _ _ h']
  · rw [eq]; simp [State.wrEvtEnable, State.gs_touch]

/-! ### The equalization rows -/

/-- The content of an equalization row's register. -/
def State.eqWord (s : State) (n : Nat) : Word := BitVec.ofNat 32 ((s.eqRow n).1 + 256 * (s.eqRow n).2.1 + 4096 * (s.eqRow n).2.2)

theorem eqReg_inj : ∀ n < 36, ∀ m < 36, regKey (eqReg n).1 (eqReg n).2 = regKey (eqReg m).1 (eqReg m).2 → n = m := by decide +kernel

theorem State.eqLoad_eq (s : State) (n : Nat) : s.eqLoad n = s.wr (eqReg n).1 (eqReg n).2 (s.eqWord n) := rfl

theorem State.eqWord_eqLoad (s : State) (a n : Nat) : (s.eqLoad a).eqWord n = s.eqWord n := by
  simp only [State.eqWord, State.eqRow, mle_congr (State.wr_mram ..), State.eqLoad_eq]

/-- After a list of rows is loaded, each row's register holds what its row of the table says; other registers are as they were. -/
theorem rd_eqLoads (l : List Nat) (s : State) (hl : ∀ m ∈ l, m < 36) :
    (∀ n ∈ l, (l.foldl State.eqLoad s).rd (eqReg n).1 (eqReg n).2 = s.eqWord n) ∧
      ∀ p o, (∀ m ∈ l, regKey p o ≠ regKey (eqReg m).1 (eqReg m).2) → (l.foldl State.eqLoad s).rd p o = s.rd p o := by
  induction l generalizing s with
  | nil => exact ⟨by simp, fun _ _ _ => rfl⟩
  | cons a l ih =>
    obtain ⟨loaded, out⟩ := ih (s.eqLoad a) fun m hm => hl m (by simp [hm])
    refine ⟨fun n hn => ?_, fun p o h => ?_⟩
    · by_cases hnl : n ∈ l
      · rw [List.foldl_cons, loaded n hnl, State.eqWord_eqLoad]
      · have e : n = a := by simpa [hnl] using hn
        subst e
        rw [List.foldl_cons, out, State.eqLoad_eq, State.rd_wr_same]
        exact fun m hm h => hnl (eqReg_inj n (hl n (by simp)) m (hl m (by simp [hm])) h ▸ hm)
    · rw [List.foldl_cons, out p o fun m hm => h m (by simp [hm]), State.eqLoad_eq, State.rd_wr, if_neg (h a (by simp))]

/-- EQ_TABLE lies in no row's register, on none of the pages that show it. -/
theorem eqReg_status : ∀ n < 26, ∀ p ∈ [0x008, 0x009, 0x024],
    regKey (eqReg (10 + n)).1 (eqReg (10 + n)).2 ≠ regKey p LN_STATUS_EQ_TABLE.off := by decide +kernel

theorem eqReg_kind : ∀ n < 26, kindOf (eqReg (10 + n)).1 ∈ [some .tw, some .rp, some .cl] := by decide +kernel

theorem State.eqPages_spec (s : State) : (∀ p ∈ s.eqPages, p ∈ [0x008, 0x009, 0x024]) ∧ s.eqPages.getLast? = some 0x024 := by
  unfold State.eqPages; split <;> decide

/-- EQ_TABLE shown on pages of which the twin port's is the last. -/
theorem rd_eqShown (l : List Nat) (b : Bool) (s : State) (hl : (∀ p ∈ l, p ∈ [0x008, 0x009, 0x024]) ∧ l.getLast? = some 0x024) :
    (l.foldl (fun (t : State) p => t.fs p LN_STATUS_EQ_TABLE (bit b)) s).fb 0x024 LN_STATUS_EQ_TABLE = b ∧
      ∀ n < 26, (l.foldl (fun (t : State) p => t.fs p LN_STATUS_EQ_TABLE (bit b)) s).rd (eqReg (10 + n)).1 (eqReg (10 + n)).2 =
        s.rd (eqReg (10 + n)).1 (eqReg (10 + n)).2 := by
  induction l generalizing s with
  | nil => cases hl.2
  | cons a l ih =>
    have first (n : Nat) (hn : n < 26) : (s.fs a LN_STATUS_EQ_TABLE (bit b)).rd (eqReg (10 + n)).1 (eqReg (10 + n)).2 =
        s.rd (eqReg (10 + n)).1 (eqReg (10 + n)).2 := by
      rw [State.rd_fs, if_neg (eqReg_status n hn a (hl.1 a (by simp)))]
    cases l with
    | nil =>
      have e : a = 0x024 := by simpa using hl.2
      subst e
      exact ⟨by cases b <;> simp [State.fb, State.fg_fs, bit, LN_STATUS_EQ_TABLE], first⟩
    | cons c l =>
      obtain ⟨shown, rows⟩ := ih (s.fs a LN_STATUS_EQ_TABLE (bit b)) ⟨fun p hp => hl.1 p (by simp [hp]), by simpa using hl.2⟩
      exact ⟨shown, fun n hn => (rows n hn).trans (first n hn)⟩

/-- Settles O22. -/
theorem readerAppliesRecordsAndEqualization : Obligations.ReaderAppliesRecordsAndEqualization := by
  refine ⟨fun s p v hopt hn hrec hkind hlevel hcommit => ?_, fun s hopt hn => ?_, fun s n hopt => ?_⟩
  · obtain ⟨word, other, gs⟩ := s.regWrite_evtEnable (BitVec.ofNat 32 v) hkind.1 hkind.2.1
    generalize hu : s.regWrite .preload p EVT_ENABLE (BitVec.ofNat 32 v) = u at word other gs
    have page : (p * 4096 + EVT_ENABLE) / 4096 = p ∧ (p * 4096 + EVT_ENABLE) % 4096 = EVT_ENABLE := by
      simp only [EVT_ENABLE]; omega
    have keep (p' : Nat) (f : Fld) (h : f.off % 4096 ≠ EVT_ENABLE) (h' : f.off % 4096 ≠ EVT_STATUS) : u.fg p' f = s.fg p' f := by
      simp only [State.fg]
      rw [other p' f.off (fun e => h ?_) fun e => h' ?_]
      · simp only [regKey, EVT_ENABLE] at e ⊢; omega
      · simp only [regKey, EVT_STATUS] at e ⊢; omega
    have written : s.optWrite (p * 4096 + EVT_ENABLE) 0 v = u := by
      have pending : u.commitPending p = false := by
        rw [← hcommit]; simp only [State.commitPending, State.fb, keep p PAGE_STATE_COMMIT_PENDING (by decide) (by decide)]
      have own : s.enAlias p = p := if_neg hkind.2.1
      unfold State.optWrite
      simp only [page, hu, own]
      simp [pending]
    have step : exec .optApplyRecord s = .next { u with gs := { u.gs with record := s.gs.record + 1 } } := by
      change execOptApplyRecord s = _
      unfold execOptApplyRecord
      dsimp only
      rw [if_neg (by simp [hopt]), if_neg (by omega : ¬ s.optHdr s.gs.copy 0x28 4 ≤ s.gs.record), hrec]
      dsimp only
      rw [if_neg (Nat.not_le.2 hn), if_neg fun h => hlevel h.1, written]
    refine ⟨_, step, word, rfl, ?_⟩
    exact (keep 0 GS_OPT_STATUS_STATE (by decide) (by decide)).trans hopt
  · have step : exec .optApplyRecord s = .next (s.setOpt 7) :=
      congrArg Host.Outcome.next ((if_neg (by simp [hopt])).trans (if_pos hn))
    exact ⟨_, step, s.setOpt_opt (by decide), rfl⟩
  · generalize hs1 : (if s.eqValid then ((List.range 36).filter fun n => decide (10 ≤ n) || decide (s.seqLevel ≠ 2)).foldl State.eqLoad s else s) = s1
    have loads : s.eqValid = true → s1.rd (eqReg (10 + n.val)).1 (eqReg (10 + n.val)).2 = s.eqWord (10 + n.val) := fun h => by
      rw [← hs1, if_pos h]
      refine (rd_eqLoads _ s fun m hm => by simpa using (List.mem_filter.1 hm).1).1 _ (List.mem_filter.2 ⟨?_, by simp⟩)
      exact List.mem_range.2 (by omega)
    have done := State.toDone_spec (s.eqPages.foldl (fun (t : State) p => t.fs p LN_STATUS_EQ_TABLE (bit s.eqValid)) s1)
    have step : exec .optEqualize s =
        .next (s.eqPages.foldl (fun (t : State) p => t.fs p LN_STATUS_EQ_TABLE (bit s.eqValid)) s1).toDone := by
      rw [← hs1]; exact congrArg Host.Outcome.next (if_neg (by simp [hopt]))
    obtain ⟨shown, rows⟩ := rd_eqShown s.eqPages s.eqValid s1 s.eqPages_spec
    refine ⟨_, step, done.opt, done.pos, ?_, fun h => ?_⟩
    · rw [State.fb, State.fg, done.rd _ _ (by decide)]; exact shown
    · rw [done.rd _ _ (eqReg_kind n n.isLt), rows n n.isLt, loads h]; rfl

end Sys2Proof.Machine
end

section
set_option Elab.async false
/-! ENABLE of a page and what its block does by it (R42, R43, R51). -/
namespace Sys2Proof.Machine

/-! ### A write of PAGE_CTRL with ENABLE and READ_ACTIVE -/

/-- An accepted write of PAGE_CTRL acts at its page. -/
theorem State.pageCtrlWrite_accepted {s : State} {who : Initiator} {page p : Nat} (v : Word) (hp : s.enAlias page = p)
    (hsup : supPage p = false) (hacc : s.accepts who p PAGE_CTRL = true) :
    s.pageCtrlWrite who page v = ((s.touch who false).pageCtrl p v).answer who rspOk 0 := by
  unfold State.pageCtrlWrite
  rw [hp, State.write_accepts hacc]
  simp [State.viaSup, hsup]

/-- What of page `p` the write finds as it was. -/
structure PageFound (p : Nat) (s u : State) : Prop where
  running : u.running p = s.running p
  ready : u.ready p = s.ready p
  stopping : u.stopping = s.stopping
  regs : onlyRegs [(0x01C, EVT_STATUS)] s u

/-- ENABLE and READ_ACTIVE written are what the block then acts by. -/
theorem exec_pageEnableWrite {s : State} {who : Initiator} {page p : Nat} (en ra : Bool) (hp : s.enAlias page = p)
    (hsup : supPage p = false) (hacc : s.accepts who p PAGE_CTRL = true) :
    ∃ u, PageFound p s u ∧ exec (.pageEnableWrite who page en ra) s = .next ((u.enableWrite p en ra).answer who rspOk 0) := by
  have word : PAGE_CTRL_RESET_BLOCK.get (ctrlWord en ra 0) = 0 ∧ PAGE_CTRL_ABORT_COMMIT.get (ctrlWord en ra 0) = 0 ∧
      PAGE_CTRL_COMMIT.get (ctrlWord en ra 0) = 0 ∧ decide (PAGE_CTRL_ENABLE.get (ctrlWord en ra 0) = 1) = en ∧
      decide (PAGE_CTRL_READ_ACTIVE.get (ctrlWord en ra 0) = 1) = ra := by
    revert en ra; decide
  obtain ⟨hr, ha, hc, he, hra⟩ := word
  have same (f : Fld) (hf : f.off = PAGE_STATE) :
      ((s.touch who false).mirrorCfg 0 p PAGE_CTRL (ctrlWord en ra 0)).fb p f = s.fb p f := by
    rw [State.fb, State.fg_of_regs (State.mirrorCfg_regs ..), State.fg_touch _ _ _ _ _ (hf ▸ key_ready p)]; rfl
  refine ⟨(s.touch who false).mirrorCfg 0 p PAGE_CTRL (ctrlWord en ra 0), ⟨same _ rfl, same _ rfl, by simp, ?_⟩, ?_⟩
  · exact onlyRegs.touch (l := []) (who := who) (r := false) (((onlyRegs.refl [] _)).of_regs (State.mirrorCfg_regs ..))
  · change Host.Outcome.next (s.pageCtrlWrite who page (ctrlWord en ra 0)) = _
    rw [State.pageCtrlWrite_accepted _ hp hsup hacc, State.pageCtrl, hr, ha, hc, he, hra]
    rfl

theorem State.ctrl_enable (s : State) (p : Nat) (en ra : Bool) :
    ((s.fs p PAGE_CTRL_ENABLE (bit en)).fs p PAGE_CTRL_READ_ACTIVE (bit ra)).fg p PAGE_CTRL_ENABLE = bit en := by
  rw [State.fg_fs_apart _ _ _ (by decide), State.fg_fs _ _ _ _ (by decide)]; cases en <;> rfl

theorem State.ctrl_readActive (s : State) (p : Nat) (en ra : Bool) :
    ((s.fs p PAGE_CTRL_ENABLE (bit en)).fs p PAGE_CTRL_READ_ACTIVE (bit ra)).fg p PAGE_CTRL_READ_ACTIVE = bit ra := by
  rw [State.fg_fs _ _ _ _ (by decide)]; cases ra <;> rfl

theorem State.setEnable_onlyRegs (s : State) (p : Nat) (en ra : Bool) : onlyRegs [(p, PAGE_CTRL)] s (s.setEnable p en ra) :=
  (s.ctrl_onlyRegs p en ra).of_regs rfl

theorem State.setEnable_ready (s : State) (p : Nat) (en ra : Bool) : (s.setEnable p en ra).ready p = s.ready p := by
  change (((s.fs p PAGE_CTRL_ENABLE (bit en)).fs p PAGE_CTRL_READ_ACTIVE (bit ra)).fg p PAGE_STATE_READY != 0) = _
  rw [State.fg_fs_apart _ _ _ (by decide), State.fg_fs_apart _ _ _ (by decide)]
  rfl

theorem State.mem_setEnable_stopping {s : State} {p : Nat} {ra : Bool} (h : s.running p = true) : p ∈ (s.setEnable p false ra).stopping := by
  simp only [State.setEnable, h, Bool.not_false, Bool.and_self, if_true]
  split
  · next hc => simpa using hc
  · simp

theorem State.mayStart_unready {s : State} {p : Nat} (h : s.ready p = false) : s.mayStart p = s := by
  simp [State.mayStart, h]

/-- With ENABLE 1 nothing stops: the block starts where it may. -/
theorem State.enableWrite_on {p : Nat} (s : State) (ra : Bool) (h : enableActs p = true) :
    s.enableWrite p true ra = (s.setEnable p true ra).mayStart p := by
  simp [State.enableWrite, h, State.stopPoint_unasked (s.setEnable_unasked p ra)]

theorem kindOf_beyond {p : Nat} (h : 0x290 < p) : kindOf p = none := by
  unfold kindOf
  repeat rw [if_neg (by omega)]

theorem supPage_of_pp {p : Nat} (h : kindOf p = some .pp) : supPage p = true := by
  have all : ∀ p < 0x291, kindOf p = some .pp → supPage p = true := by decide +kernel
  refine all p (Nat.lt_of_not_le fun hp => ?_) h
  rw [kindOf_beyond hp] at h
  cases h

/-! ### Starting and stopping -/

theorem State.setState_fb (s : State) (p : Nat) {f : Fld} (hf : f.w = 1 ∧ f.lo + f.w ≤ 32 := by decide)
    (ho : regKey 0 f.off ≠ regKey 0 EVT_STATUS := by decide) (v : Bool) : (s.setState p f v).fb p f = v :=
  State.setState_self _ _ hf.2 hf.1.symm.le ho _

/-- A state that changes is reported. -/
theorem State.setState_event {s : State} {p : Nat} {f : Fld} {v : Bool} (h : s.fb p f = !v) : (s.setState p f v).event p EV_STATE_CHANGE = true := by
  unfold State.setState
  rw [if_neg (by rw [h]; cases v <;> decide)]
  exact State.event_raise _ _ (by decide)

theorem State.fg_setState_beside (s : State) (p : Nat) {f g : Fld} (v : Bool)
    (h : regKey 0 g.off ≠ regKey 0 f.off ∨ ((g.lo + g.w ≤ f.lo ∨ f.lo + f.w ≤ g.lo) ∧ g.lo + g.w ≤ 32))
    (ho : regKey 0 g.off ≠ regKey 0 EVT_STATUS) : (s.setState p f v).fg p g = s.fg p g := by
  unfold State.setState
  split
  · rfl
  · rw [State.fg_raise_off _ _ ho, State.fg_fs_apart _ _ _ h]

/-- The pages whose block starts and stops with RUNNING alone. -/
theorem startsPlain_kind : ∀ p ∈ startsPlain, supPage p = false ∧ enableActs p = true ∧ p ≠ 0x01C ∧
    kindOf p ∉ [none, some .core, some .sc, some .cl, some .en, some .pp, some .q, some .sm] := by decide

theorem State.blockStart_plain {s : State} {p : Nat} (hp : p ∈ startsPlain) : s.blockStart p = s.setState p PAGE_STATE_RUNNING true := by
  have hk := (startsPlain_kind p hp).2.2.2
  unfold State.blockStart
  generalize kindOf p = k at hk
  dsimp only
  split <;> first | exact absurd hk (by decide) | rfl

theorem State.stopPoint_plain {s : State} {p : Nat} (hp : p ∈ startsPlain) (hs : p ∈ s.stopping) (hr : s.running p = true) :
    s.stopPoint p = s.stopped p := by
  have hk := (startsPlain_kind p hp).2.2.2
  unfold State.stopPoint
  rw [if_neg (by simp [hs, hr])]
  generalize kindOf p = k at hk
  split <;> first | exact absurd hk (by decide) | rfl

theorem State.stopped_unpending {s : State} {p : Nat} (h : s.commitPending p = false) :
    s.stopped p = { s.setState p PAGE_STATE_RUNNING false with
      stopping := (s.setState p PAGE_STATE_RUNNING false).stopping.filter (· != p) } := by
  have still : (s.setState p PAGE_STATE_RUNNING false).commitPending p = false := by
    rw [← h, State.commitPending, State.fb, State.fg_setState_beside _ _ _ (by decide) (by decide)]; rfl
  unfold State.stopped
  dsimp only
  rw [if_neg]
  simp only [Bool.and_eq_true, not_and]
  intro hc
  exact absurd (still.symm.trans hc) (by decide)

/-- READY rises, and a latched ENABLE starts the block. -/
theorem State.readyRise_plain {s : State} {p : Nat} (hp : p ∈ startsPlain) (hready : s.ready p = false) (hok : s.readyOk p = true) :
    s.readyRise p = (s.setState p PAGE_STATE_READY true).mayStart p := by
  have hk := (startsPlain_kind p hp).2.2.2
  simp only [List.mem_cons, not_or] at hk
  obtain ⟨-, -, -, -, -, -, hq, hsm, -⟩ := hk
  unfold State.readyRise
  rw [if_neg (by simp [hready, hok])]
  dsimp only
  rw [if_neg hq, if_neg hsm]

/-- Settles O13. -/
theorem enableStartsAndStopsBlocks : Obligations.EnableStartsAndStopsBlocks := by
  refine ⟨fun s who page p ra hp hsup hact hcl hrun hacc => ?_, fun s who page p ra hp hsup hready hrun hact hacc => ?_,
    fun s who page p ra hp hpl hready hrun hacc => ?_, fun s who page p en ra hp hsup hact hacc => ?_,
    fun s p hpl hready hrun hok => ?_, fun s p hpl hstop hrun hcommit => ?_⟩
  · obtain ⟨u, found, step⟩ := exec_pageEnableWrite false ra hp hsup hacc
    have runs : u.running p = true := found.running.trans hrun
    have later : (u.setEnable p false ra).stopsNow p = false := by
      have hpp : kindOf p ≠ some .pp := fun e => by rw [supPage_of_pp e] at hsup; cases hsup
      unfold State.stopsNow
      split <;> first | rfl | contradiction
    have eq : u.enableWrite p false ra = u.setEnable p false ra := by
      simp [State.enableWrite, hact, later, State.mayStart_running ((u.setEnable_running p false ra).trans runs)]
    rw [eq] at step
    exact ⟨_, step, u.ctrl_enable p false ra, u.ctrl_readActive p false ra, State.mem_setEnable_stopping (ra := ra) runs,
      (u.setEnable_running p false ra).trans runs,
      ((found.regs.mono (by simp)).trans ((u.setEnable_onlyRegs p false ra).mono (by simp))).of_rd fun _ _ => rfl⟩
  · obtain ⟨u, found, step⟩ := exec_pageEnableWrite true ra hp hsup hacc
    rw [State.enableWrite_on _ _ hact, State.mayStart_unready ((u.setEnable_ready p true ra).trans (found.ready.trans hready))] at step
    exact ⟨_, step, u.ctrl_enable p true ra, u.ctrl_readActive p true ra, u.setEnable_unasked p ra,
      (u.setEnable_running p true ra).trans (found.running.trans hrun)⟩
  · obtain ⟨hsup, hact, -, -⟩ := startsPlain_kind p hpl
    obtain ⟨u, found, step⟩ := exec_pageEnableWrite true ra hp hsup hacc
    have idle : (u.setEnable p true ra).running p = false := (u.setEnable_running p true ra).trans (found.running.trans hrun)
    have starts : (u.setEnable p true ra).mayStart p = (u.setEnable p true ra).setState p PAGE_STATE_RUNNING true := by
      have enabled : (u.setEnable p true ra).enabled p = true := by
        change (((u.fs p PAGE_CTRL_ENABLE (bit true)).fs p PAGE_CTRL_READ_ACTIVE (bit ra)).fg p PAGE_CTRL_ENABLE != 0) = true
        rw [State.ctrl_enable]; rfl
      have ready : (u.setEnable p true ra).ready p = true := (u.setEnable_ready p true ra).trans (found.ready.trans hready)
      rw [State.mayStart, if_pos (by simp [hact, enabled, ready, idle]), State.blockStart_plain hpl]
    rw [State.enableWrite_on _ _ hact, starts] at step
    refine ⟨_, step, State.setState_fb _ _ (v := true), State.setState_event idle, onlyRegs.of_rd ?_ fun _ _ => rfl⟩
    exact ((found.regs.mono (by simp)).trans ((u.setEnable_onlyRegs p true ra).mono (by simp))).setState (by decide)
      (by simp [PAGE_STATE_RUNNING, PAGE_STATE]) (by simp)
  · obtain ⟨u, found, step⟩ := exec_pageEnableWrite en ra hp hsup hacc
    rw [State.enableWrite, if_pos (by simp [hact])] at step
    refine ⟨_, step, u.ctrl_enable p en ra, ?_, found.stopping, ?_⟩
    · exact (u.setEnable_running p en ra).trans found.running
    · exact ((found.regs.mono (by simp)).trans ((u.ctrl_onlyRegs p en ra).mono (by simp))).of_rd fun _ _ => rfl
  · obtain ⟨-, hact, -, -⟩ := startsPlain_kind p hpl
    have step : exec (.blockReadyRise p) s = .next ((s.setState p PAGE_STATE_READY true).mayStart p) :=
      congrArg Host.Outcome.next (State.readyRise_plain hpl hready hok)
    have rose : onlyRegs [(p, PAGE_STATE), (p, EVT_STATUS)] s (s.setState p PAGE_STATE_READY true) :=
      (onlyRegs.refl _ s).setState (by decide) (by simp [PAGE_STATE_READY, PAGE_STATE]) (by simp)
    have ready : (s.setState p PAGE_STATE_READY true).ready p = true := State.setState_fb _ _ (v := true)
    have event : (s.setState p PAGE_STATE_READY true).event p EV_STATE_CHANGE = true := State.setState_event hready
    have running : (s.setState p PAGE_STATE_READY true).running p = false := by
      rw [← hrun, State.running, State.fb, State.fg_setState_beside _ _ _ (by decide) (by decide)]; rfl
    have enabled : (s.setState p PAGE_STATE_READY true).enabled p = s.enabled p := by
      rw [State.enabled, State.fb, State.fg_setState_beside _ _ _ (by decide) (by decide)]; rfl
    generalize s.setState p PAGE_STATE_READY true = u at step rose ready event running enabled
    refine ⟨_, step, ?_⟩
    rw [State.mayStart, hact, enabled, ready, running]
    cases s.enabled p with
    | false => exact ⟨ready, event, running, rose⟩
    | true =>
      rw [if_pos (by decide), State.blockStart_plain hpl]
      refine ⟨?_, State.setState_event running, State.setState_fb _ _ (v := true),
        rose.setState (by decide) (by simp [PAGE_STATE_RUNNING, PAGE_STATE]) (by simp)⟩
      rw [← ready, State.ready, State.fb, State.fg_setState_beside _ _ _ (by decide) (by decide)]; rfl
  · obtain ⟨-, -, hsc, -⟩ := startsPlain_kind p hpl
    have eq := (State.stopPoint_plain hpl hstop hrun).trans (State.stopped_unpending hcommit)
    refine ⟨_, congrArg Host.Outcome.next ((if_neg hsc).trans eq), State.setState_fb _ _ (v := false), State.setState_event hrun,
      by simp, ?_⟩
    exact ((onlyRegs.refl _ s).setState (by decide) (by simp [PAGE_STATE_RUNNING, PAGE_STATE]) (by simp)).of_regs rfl

end Sys2Proof.Machine
end

section
set_option Elab.async false
/-! COMMIT and its point (R52-R54). -/
namespace Sys2Proof.Machine

/-! ### Shadows taken -/

theorem blend_again (m : Nat) (v x : Word) : blend m v (blend m v x) = blend m v x := by
  unfold blend; ext i; simp only [BitVec.getElem_or, BitVec.getElem_and, BitVec.getElem_not]; grind

theorem blend_same (m : Nat) (x : Word) : blend m x x = x := by
  unfold blend; ext i; simp only [BitVec.getElem_or, BitVec.getElem_and, BitVec.getElem_not]; grind

theorem blend_zero (v x : Word) : blend 0 v x = x := by
  have all : (~~~ (0 : Word)) = BitVec.allOnes 32 := rfl
  change (x &&& ~~~ (0 : Word)) ||| (v &&& 0) = x
  rw [all, BitVec.and_allOnes]; simp

/-- The step of `State.applyShadows` over one shadow that differs. -/
def State.takeShadow (s : State) (p : Nat) (t : State) (e : Nat × Word) : State :=
  match s.rowAt p (e.1 % 4096) with
  | some r => t.wr p (e.1 % 4096) (blend r.rws (s.rdSh p (e.1 % 4096)) (t.rd p (e.1 % 4096)))
  | none => t

theorem State.applyShadows_eq (s : State) (p : Nat) : s.applyShadows p = ((s.shadKeys p).foldl (s.takeShadow p) s).dropShadows p := rfl

theorem State.rd_takeShadow (s : State) (p : Nat) (t : State) (e : Nat × Word) {off : Nat} (ho : off < 4096) :
    (s.takeShadow p t e).rd p off = match s.rowAt p off with
      | some r => if e.1 % 4096 = off then blend r.rws (s.rdSh p off) (t.rd p off) else t.rd p off
      | none => t.rd p off := by
  unfold State.takeShadow
  by_cases h : e.1 % 4096 = off
  · rw [h]
    cases s.rowAt p off with
    | none => rfl
    | some r => exact (State.rd_wr_same ..).trans (if_pos rfl).symm
  · have other : regKey p off ≠ regKey p (e.1 % 4096) := fun k => h (by have := (regKey_eq_iff.1 k).2; omega)
    have keeps : (match s.rowAt p (e.1 % 4096) with
        | some r => t.wr p (e.1 % 4096) (blend r.rws (s.rdSh p (e.1 % 4096)) (t.rd p (e.1 % 4096)))
        | none => t).rd p off = t.rd p off := by
      split
      · rw [State.rd_wr, if_neg other]
      · rfl
    rw [keeps]
    cases s.rowAt p off <;> simp [h]

theorem State.rd_takeShadows (s : State) (p : Nat) {off : Nat} (ho : off < 4096) (l : List (Nat × Word)) (t : State) :
    (l.foldl (s.takeShadow p) t).rd p off = match s.rowAt p off with
      | some r => if l.any (fun e => e.1 % 4096 = off) then blend r.rws (s.rdSh p off) (t.rd p off) else t.rd p off
      | none => t.rd p off := by
  induction l generalizing t with
  | nil => cases s.rowAt p off <;> rfl
  | cons e l ih =>
    rw [List.foldl_cons, ih, State.rd_takeShadow _ _ _ _ ho, List.any_cons]
    cases s.rowAt p off with
    | none => rfl
    | some r =>
      by_cases h : e.1 % 4096 = off <;> simp only [h, decide_true, decide_false, Bool.true_or, Bool.false_or, if_true, if_false]
      · split
        · exact blend_again ..
        · rfl

theorem State.takeShadow_onlyPages (s : State) (p : Nat) (l : List (Nat × Word)) (t : State) : onlyPages [p] t (l.foldl (s.takeShadow p) t) :=
  onlyPages.foldl _ _ (onlyPages.refl _ t) fun u e _ hu => by
    unfold State.takeShadow
    split
    · exact hu.wr (by simp)
    · exact hu

/-- Every field of a page's row takes its shadow value. -/
theorem State.rd_applyShadows {s : State} {p off : Nat} {r : Row} (ho : off < 4096) (hr : s.rowAt p off = some r) :
    (s.applyShadows p).rd p off = blend r.rws (s.rdSh p off) (s.rd p off) := by
  change ((s.shadKeys p).foldl (s.takeShadow p) s).rd p off = _
  rw [State.rd_takeShadows _ _ ho, hr]
  dsimp only
  split
  · rfl
  · next h =>
    have unlisted : s.rdSh p off = s.rd p off := Map.getD_absent fun e he hk => h <| by
      have page : inPage p 0 e.1 = true := by simp [inPage, hk, regKey]; omega
      refine List.any_eq_true.2 ⟨e, List.mem_filter.2 ⟨he, page⟩, ?_⟩
      simp only [hk, regKey, decide_eq_true_eq]; omega
    rw [unlisted, blend_same]

/-- A register without shadowed bits stays. -/
theorem State.rd_applyShadows_plain {s : State} {p off : Nat} (ho : off < 4096) (h : ∀ r, s.rowAt p off = some r → r.rws = 0) :
    (s.applyShadows p).rd p off = s.rd p off := by
  cases hr : s.rowAt p off with
  | none =>
    change ((s.shadKeys p).foldl (s.takeShadow p) s).rd p off = _
    rw [State.rd_takeShadows _ _ ho, hr]
  | some r => rw [State.rd_applyShadows ho hr, h r hr, blend_zero]

/-! ### The point -/

/-- The pages of `plainCommits`: nothing beside the shadows is taken, no matrix follows, and CFG_STATUS has no shadow. -/
theorem plainCommits_kind : ∀ p ∈ plainCommits, (kindOf p ∈ [some .core, some .q, some .tw, some .ec, some .rt, some .mem]) ∧
    ((rowOf p CFG_STATUS).all fun r => r.rws = 0) = true := by decide +kernel

theorem State.endCommit_offset (s : State) (p a o : Nat) : (s.endCommit p 3 a o).fg p CFG_STATUS_OFFSET = o / 4 % 1024 := by
  unfold State.endCommit State.addWrap
  rw [State.fg_fs_ne _ _ _ _ _ _ (.inr (by decide)), State.fg_fs _ _ _ _ (by decide)]
  rfl

section
variable {s : State} {p : Nat} (hk : kindOf p ∈ [some .core, some .q, some .tw, some .ec, some .rt, some .mem])
include hk

theorem State.smAfter_plain : s.smAfter p = s := by
  unfold State.smAfter
  rw [if_neg]
  rintro (h | h) <;> rw [h] at hk <;> exact absurd hk (by decide)

theorem State.beforeCommit_plain : s.beforeCommit p = s := by
  unfold State.beforeCommit
  rw [if_neg]
  rintro ⟨h, -⟩
  rw [h] at hk
  exact absurd hk (by decide)

theorem State.committed_plain (b : State) : s.committed b p = s := by
  unfold State.committed
  generalize kindOf p = k at hk
  split <;> first | exact absurd hk (by decide) | rfl

theorem State.commitPoint_applied (hc : s.commitPending p = true) (hr : s.ready p = true) (hp : s.pointNow p = true)
    (hb : s.blockCheck p = none) : s.commitPoint p = ((s.applyShadows p).endCommit p 2 0 0).raise p EV_COMMIT_DONE := by
  rw [State.commitPoint, if_pos (by simp [hc, hr, hp]), State.smAfter_plain hk, State.commitEnd, hb]
  dsimp only
  rw [State.beforeCommit_plain hk, State.committed_plain hk]

theorem State.commitPoint_refused {reason off : Nat} (hc : s.commitPending p = true) (hr : s.ready p = true) (hp : s.pointNow p = true)
    (hb : s.blockCheck p = some (reason, off)) (hs : s.role ≠ roleStandby) :
    s.commitPoint p = (s.endCommit p 3 reason off).raise p EV_COMMIT_REFUSED := by
  rw [State.commitPoint, if_pos (by simp [hc, hr, hp]), State.smAfter_plain hk, State.commitEnd, hb]
  dsimp only
  rw [if_neg (by simp [hs])]
end

/-! ### A write of PAGE_CTRL with COMMIT -/

theorem exec_commit {s : State} {who : Initiator} {page p : Nat} (ra : Bool) (hp : s.enAlias page = p) (hsup : supPage p = false)
    (hacc : s.accepts who p PAGE_CTRL = true) : ∃ u, PageFound p s u ∧ u.commitPending p = s.commitPending p ∧ u.shad = s.shad ∧
      exec (.commit who page true ra) s = .next (((u.commitNow p).enableWrite p true ra).answer who rspOk 0) := by
  have word : PAGE_CTRL_RESET_BLOCK.get (ctrlWord true ra 2) = 0 ∧ PAGE_CTRL_ABORT_COMMIT.get (ctrlWord true ra 2) = 0 ∧
      PAGE_CTRL_COMMIT.get (ctrlWord true ra 2) = 1 ∧ decide (PAGE_CTRL_ENABLE.get (ctrlWord true ra 2) = 1) = true ∧
      decide (PAGE_CTRL_READ_ACTIVE.get (ctrlWord true ra 2) = 1) = ra := by
    revert ra; decide
  obtain ⟨hr, ha, hc, he, hra⟩ := word
  generalize hv : ctrlWord true ra 2 = v at hr ha hc he hra
  have same (op : Nat) (f : Fld) (hf : f.off = PAGE_STATE) : ((s.touch who false).mirrorCfg op p PAGE_CTRL v).fb p f = s.fb p f := by
    rw [State.fb, State.fg_of_regs (State.mirrorCfg_regs ..), State.fg_touch _ _ _ _ _ (hf ▸ key_ready p)]; rfl
  have pending (op : Nat) : ((s.touch who false).mirrorCfg op p PAGE_CTRL v).commitPending p = s.commitPending p := same op _ rfl
  refine ⟨(s.touch who false).mirrorCfg (if (s.touch who false).commitPending p then 0 else 1) p PAGE_CTRL v,
    ⟨same _ _ rfl, same _ _ rfl, by simp, ?_⟩, pending _, by simp, ?_⟩
  · exact onlyRegs.touch (l := []) (who := who) (r := false) (((onlyRegs.refl [] _)).of_regs (State.mirrorCfg_regs ..))
  · change Host.Outcome.next (s.pageCtrlWrite who page (ctrlWord true ra 2)) = _
    rw [hv, State.pageCtrlWrite_accepted _ hp hsup hacc, State.pageCtrl, hr, ha, hc, he, hra]
    rfl

theorem State.shad_enableWrite_running {s : State} {p : Nat} {ra : Bool} (hrun : s.running p = true) :
    (s.enableWrite p true ra).shad = s.shad := by
  have go := State.mayStart_running ((s.setEnable_running p true ra).trans hrun)
  have stay := State.stopPoint_unasked (s.setEnable_unasked p ra)
  simp only [State.enableWrite, stay, go, ite_self]
  split <;> rfl

/-- A register of the page but PAGE_CTRL is as the commit left it, where the block runs. -/
theorem State.rd_enableWrite_running {s : State} {p : Nat} {ra : Bool} (hrun : s.running p = true) {o : Nat} (ho : o < 4096)
    (hc : o ≠ PAGE_CTRL) : (s.enableWrite p true ra).rd p o = s.rd p o :=
  State.enableWrite_running (ra := ra) hrun p o ho (by simp [hc])

/-- Settles O14. -/
theorem commitsAreFrozenCheckedAndApplied : Obligations.CommitsAreFrozenCheckedAndApplied := by
  refine ⟨fun s who page p ra hp hsup hbr hrun hc hacc => ?_, fun s who page p ra hp hsup hrun hc hacc => ?_,
    fun s p hpl hc hr hpt hb => ?_, fun s p reason off hpl hc hr hpt hb hs => ?_⟩
  · obtain ⟨u, found, pending, shad, step⟩ := exec_commit ra hp hsup hacc
    have written : u.commitWrite p = (u.fs p PAGE_STATE_COMMIT_PENDING 1).fs p CFG_STATUS_RESULT 1 := by
      rw [State.commitWrite, if_neg (by simp [pending, hc])]
    have state (f : Fld) (hf : f.off = PAGE_STATE) : (u.commitWrite p).fg p f = (u.fs p PAGE_STATE_COMMIT_PENDING 1).fg p f := by
      rw [written, State.fg_fs_ne _ _ _ _ _ _ (.inl (hf ▸ key_state_ne_cfg p))]
    have runs : (u.commitWrite p).running p = true := by
      rw [State.running, State.fb, state _ rfl, State.fg_fs_apart _ _ _ (by decide)]
      exact found.running.trans hrun
    have now : u.commitNow p = u.commitWrite p := by
      simp only [State.commitNow, runs, pending, hc, hbr]; rfl
    rw [now] at step
    have kept {o : Nat} (ho : o < 4096) (hne : o ≠ PAGE_CTRL) := State.rd_enableWrite_running (ra := ra) runs ho hne
    refine ⟨_, step, ?_, ?_, ?_, ?_⟩
    · change (Fld.get PAGE_STATE_COMMIT_PENDING (((u.commitWrite p).enableWrite p true ra).rd p PAGE_STATE) != 0) = true
      rw [kept (by decide) (by decide)]
      change ((u.commitWrite p).fg p PAGE_STATE_COMMIT_PENDING != 0) = true
      rw [state _ rfl, State.fg_fs _ _ _ _ (by decide)]; rfl
    · change Fld.get CFG_STATUS_RESULT (((u.commitWrite p).enableWrite p true ra).rd p CFG_STATUS) = 1
      rw [kept (by decide) (by decide)]
      change (u.commitWrite p).fg p CFG_STATUS_RESULT = 1
      rw [written, State.fg_fs _ _ _ _ (by decide)]; rfl
    · refine (State.shad_enableWrite_running (ra := ra) runs).trans ?_
      rw [written]; exact shad
    · have marks : onlyRegs [(p, PAGE_STATE), (p, CFG_STATUS)] u (u.commitWrite p) := by
        rw [written]
        exact ((onlyRegs.refl _ u).fs (by decide) (by simp [PAGE_STATE_COMMIT_PENDING, PAGE_STATE])).fs (by decide)
          (by simp [CFG_STATUS_RESULT, CFG_STATUS])
      have ctrl := State.enableWrite_running (ra := ra) runs
      exact (((found.regs.mono (by simp)).trans (marks.mono (by simp))).trans (ctrl.mono (by simp))).of_rd fun _ _ => rfl
  · obtain ⟨u, found, pending, shad, step⟩ := exec_commit ra hp hsup hacc
    have now : u.commitNow p = u := by simp [State.commitNow, pending, hc]
    have runs := found.running.trans hrun
    have cfg : (p, CFG_STATUS) ∉ [((0x01C : Nat), EVT_STATUS)] := by simp [CFG_STATUS, EVT_STATUS]
    rw [now] at step
    refine ⟨_, step, ?_, ?_, (State.shad_enableWrite_running runs).trans shad⟩
    · exact (State.rd_enableWrite_running (ra := ra) runs (by decide) (by decide)).trans (found.regs p CFG_STATUS (by decide) cfg)
    · change (Fld.get PAGE_STATE_COMMIT_PENDING ((u.enableWrite p true ra).rd p PAGE_STATE) != 0) = true
      rw [State.rd_enableWrite_running (ra := ra) runs (by decide) (by decide)]
      exact pending.trans hc
  · obtain ⟨hk, hcfg⟩ := plainCommits_kind p hpl
    have notEn : kindOf p ≠ some .en := fun e => by rw [e] at hk; exact absurd hk (by decide)
    have cfg : (s.applyShadows p).rd p CFG_STATUS = s.rd p CFG_STATUS := State.rd_applyShadows_plain (by decide) fun r hr => by
      have row : rowOf p CFG_STATUS = some r := by
        unfold State.rowAt at hr
        split at hr
        · next h => rw [h]; exact hr
        · rw [if_neg notEn] at hr; cases hr
      simpa [row] using hcfg
    have taken := s.takeShadow_onlyPages p (s.shadKeys p) s
    have unlisted := ((s.shadKeys p).foldl (s.takeShadow p) s).dropShadows_unlisted p
    rw [← State.applyShadows_eq] at unlisted
    have applied {off : Nat} {r : Row} (ho : off < 4096) (hr : s.rowAt p off = some r) := State.rd_applyShadows ho hr
    have pages : onlyPages [p] s (s.applyShadows p) := taken
    have step := State.commitPoint_applied hk hc hr hpt hb
    generalize s.applyShadows p = a at cfg unlisted applied pages step
    have ended := State.endCommit_onlyRegs a p 2 0 0
    have raised {f : Fld} (hf : regKey 0 f.off ≠ regKey 0 EVT_STATUS) := State.fg_raise_off (a.endCommit p 2 0 0) p (b := EV_COMMIT_DONE) hf
    refine ⟨_, congrArg Host.Outcome.next step, ?_, ?_, ?_, ?_, ?_, ?_, ?_, ?_⟩
    · rw [State.commitPending, State.fb, raised (by decide)]; exact a.endCommit_pending p 2 0 0
    · rw [raised (by decide)]; exact a.endCommit_result p 2 0 0
    · rw [raised (by decide)]; exact a.endCommit_reason p 2 0 0
    · rw [raised (by decide), State.endCommit_seq]; simp only [State.fg]; rw [show CFG_STATUS_SEQ.off = CFG_STATUS from rfl, cfg]
    · exact State.event_raise _ _ (by decide)
    · intro off r lo hi hrow
      have status : off ≠ EVT_STATUS ∧ off ≠ PAGE_STATE ∧ off ≠ CFG_STATUS := by simp only [EVT_STATUS, PAGE_STATE, CFG_STATUS]; omega
      rw [State.rd_raise, if_neg, ended p off hi (by simp [status]), applied hi hrow]
      intro e
      have := (regKey_eq_iff.1 e).2
      simp only [EVT_STATUS] at this; omega
    · refine State.rdSh_of_unlisted ?_
      rw [State.raise_shad]
      exact unlisted
    · exact ((pages.trans (ended.pages (by simp))).raise (by simp))
  · obtain ⟨hk, -⟩ := plainCommits_kind p hpl
    have raised {f : Fld} (hf : regKey 0 f.off ≠ regKey 0 EVT_STATUS) :=
      State.fg_raise_off (s.endCommit p 3 reason off) p (b := EV_COMMIT_REFUSED) hf
    refine ⟨_, congrArg Host.Outcome.next (State.commitPoint_refused hk hc hr hpt hb hs), ?_, ?_, ?_, ?_, ?_, ?_, ?_, ?_⟩
    · rw [State.commitPending, State.fb, raised (by decide)]; exact s.endCommit_pending p 3 reason off
    · rw [raised (by decide)]; exact s.endCommit_result p 3 reason off
    · rw [raised (by decide)]; exact s.endCommit_reason p 3 reason off
    · rw [raised (by decide)]; exact s.endCommit_offset p reason off
    · rw [raised (by decide)]; exact s.endCommit_seq p 3 reason off
    · exact State.event_raise _ _ (by decide)
    · rw [State.raise_shad]; rfl
    · exact ((State.endCommit_onlyRegs s p 3 reason off).mono (by simp)).raise (by simp)

end Sys2Proof.Machine
end

section
set_option Elab.async false
namespace Sys2Proof.Machine

/-! ## Further statements that fail for an effect they leave out or presume -/

/-! ### The update page's block reset that waited (R78) -/

/-- A reset of the update page waits while a store of baselines is in progress. -/
def deferredBesideStore : State := { gs := { deferBlock := some none }, wear := { store := some {} } }

/-- The reset that then comes is of the update page's block: the store goes on. -/
theorem deferred_keeps_store : (match exec .resetAssertDeferred deferredBesideStore with
    | .next t => t.wear.store.isSome
    | _ => false) = true := by decide +kernel

/-- Refutes O18: the update page's block reset that waited does not end the store of baselines. -/
theorem not_requestedResetsAreRecordedOrWait : ¬ Obligations.RequestedResetsAreRecordedOrWait := by
  rintro ⟨-, waited, -⟩
  obtain ⟨t, e, -, ended, -⟩ := waited deferredBesideStore none rfl rfl
  have goesOn := deferred_keeps_store
  rw [e] at goesOn
  dsimp only at goesOn
  rw [ended] at goesOn
  cases goesOn

/-! ### A chunk written whose bit is still to be set (R78, R496) -/

/-- All pulses of a chunk's write are done, and its bit in the map was set before. -/
def chunkWritten : State := { gs := { seq := none }, mram := [(mapBase, 1)], up := { job := some { op := 2, started := true } } }

/-- No word of the write is left, so no write is in progress; the reset makes the chunk's bit 0. -/
theorem reset_clears_chunkBit : (match exec .resetNRecognised chunkWritten with
    | .next t => t.mb mapBase
    | _ => chunkWritten.mb mapBase) ≠ chunkWritten.mb mapBase := by decide +kernel

/-- Refutes O17: a reset changes the MRAM where a chunk's write has no byte left and its bit is still to be set. -/
theorem not_heldResetAssertsAndRecords : ¬ Obligations.HeldResetAssertsAndRecords := by
  rintro ⟨asserted, -⟩
  obtain ⟨t, e, -, -, -, -, -, -, -, -, -, mram, -⟩ := asserted chunkWritten .resetNRecognised 2 rfl rfl (by decide)
  have moves := reset_clears_chunkBit
  rw [e] at moves
  exact moves (by simp only [State.mb, mram])

end Sys2Proof.Machine
end

section
set_option Elab.async false
namespace Sys2Proof.Machine

/-! ### A frame still arriving when the elastic buffer fails (R115, R135, R166) -/

/-- A frame of the east port is being written, and a copy of it waits at a card quad's queue. -/
def frameArriving : State :=
  { core := {
      ing := [(0, { busy := true, stored := true, head := 5, rest := [0] })]
      recs := [(5, { refs := 1 })]
      ques := [(60, { ents := [{ cell := 5 }] })] } }

/-- The frame is closed as bad, and its copy is dropped and counted by the core. -/
theorem elasticErr_drops_copy : (match exec (.elasticErr .east) frameArriving with
    | .next t => t.rd 0x010 CORE_PCNT_DROP_BAD
    | _ => frameArriving.rd 0x010 CORE_PCNT_DROP_BAD) ≠ frameArriving.rd 0x010 CORE_PCNT_DROP_BAD := by decide +kernel

/-- Refutes O25: ELASTIC_ERR counts the copies of the frame that was arriving as dropped on the core's page. -/
theorem not_lanesTrainAndExchange : ¬ Obligations.LanesTrainAndExchange := by
  rintro ⟨-, -, -, -, -, -, -, -, -, -, -, -, -, -, -, elastic⟩
  obtain ⟨t, e, -, -, only⟩ := elastic frameArriving .east 0 (by decide)
  have counts := elasticErr_drops_copy
  rw [e] at counts
  exact counts (only 0x010 CORE_PCNT_DROP_BAD (by decide) (by decide))

end Sys2Proof.Machine
end

section
set_option Elab.async false
namespace Sys2Proof.Machine

/-! ### An event of the sweep behind a core command (R154, R212, R388) -/

/-- No cell is free, a frame waits at the bridge's core port, and a copy of a frame delivered twice was pushed to the frozen east port's
queue after its grace interval; the core's events are routed to a signal. -/
def sweptWhileDeferred : State :=
  { regs := [(regKey 0x008 RP_NEIGHBOUR_FROZEN.off, RP_NEIGHBOUR_FROZEN.set 1 0), (regKey 0x010 PAGE_STATE, 3), (regKey 0x010 EVT_ENABLE, 0xFFFFFFFF),
      (regKey 0x010 CORE_PORT_EN_PORT.off, 0xFFFFFFFF), (regKey 0x020 PAGE_STATE, 1), (regKey 0x020 BR_SIG_TGT_EN.off, 0x80000000),
      (regKey 0x020 (BR_IRQ_ROUTE + 0x10), 0xC0)]
    ring := { ports := [(0, { grace := 2 })] }
    core := {
      banks := (List.range 16).map fun b => (b, { fresh := 1024 })
      recs := [(5, { refs := 2, copies := 2, verdict := .good })]
      ques := [(0, { ents := [{ cell := 5 }] })] }
    ingress := [(3, [{}])] }

/-- The copy is flushed with MULTICAST_PARTIAL, whose signal stands behind the frame that waits. -/
theorem deferral_sends_signal : (match exec (.coreHeadCellWrite 3) sweptWhileDeferred with
    | .next t => (t.ingress.getD 3 []).length
    | _ => 1) ≠ 1 := by decide +kernel

/-- Refutes O33: where no bank is open the write of a head cell waits, but the sweep's event puts a signal frame behind the frame. -/
theorem not_ingressWritesCellsInOrder : ¬ Obligations.IngressWritesCellsInOrder := by
  rintro ⟨-, waits, -⟩
  obtain ⟨t, e, -, same, -⟩ := waits sweptWhileDeferred 3 {} [] (by decide +kernel) (by decide +kernel) (by decide +kernel) (by decide +kernel)
    (by decide +kernel)
  have sends := deferral_sends_signal
  rw [e] at sends
  exact sends (congrArg List.length same)

/-! ### A bank number beyond its field (R196) -/

/-- A replacement whose bank number has no place in the four bits of LOGICAL. -/
def replacingBank20 : State := { core := { repl := some 20 } }

theorem replaceDone_truncates : (match exec .bankReplaceDone replacingBank20 with
    | .next t => t.fg 0x010 CORE_BANK_SPARE_LOGICAL
    | _ => replacingBank20.replBank) ≠ replacingBank20.replBank := by decide +kernel

/-- Refutes O35: LOGICAL shows the bank's number modulo 16. -/
theorem not_bankReplacementMovesABankToTheSpare : ¬ Obligations.BankReplacementMovesABankToTheSpare := by
  rintro ⟨-, -, -, -, done⟩
  obtain ⟨t, e, -, logical, -⟩ := done replacingBank20 (by decide) (by decide +kernel)
  have shows := replaceDone_truncates
  rw [e] at shows
  exact shows logical

/-! ### A frame copy at a mailbox's head (R186, R194) -/

/-- The mailbox's oldest entry is a copy of a frame, before two items. -/
def copyInMailbox : State :=
  { regs := [(regKey 0x014 PAGE_STATE, 1), (regKey 0x020 PAGE_STATE, 1)]
    core := { recs := [(5, { refs := 2 })], ques := [(960, { ents := [{ cell := 5 }, { cell := 6, item := true }, { cell := 7, item := true }] })] } }

/-- The error makes the frame bad, which removes its copy before the take removes the entry behind it. -/
theorem badTake_removes_two : (match exec (.mbPopTake .host 0 .ue) copyInMailbox with
    | .next t => (t.que (mbQueue 0)).ents.length
    | _ => 2) ≠ 2 := by decide +kernel

/-- Refutes O37: a take with a double-bit error of a mailbox whose oldest entry is a frame copy removes two entries. -/
theorem not_mailboxesAndReadPorts : ¬ Obligations.MailboxesAndReadPorts := by
  rintro ⟨-, -, take, -⟩
  obtain ⟨t, e, -, -, ents⟩ := take copyInMailbox .host 0 .ue { cell := 5 } 0 (by decide +kernel) (by decide +kernel)
  have removes := badTake_removes_two
  rw [e] at removes
  exact removes (congrArg List.length ents)

end Sys2Proof.Machine
end

section
set_option Elab.async false
namespace Sys2Proof.Machine

/-! ### A sequence number beyond 16 bits (R398, R399) -/

/-- The next guy message of a redundant hub in STARTING has number 65536. -/
def guyNumber65536 : State :=
  { regs := [(regKey 0 GS_HUB_ID_REDUNDANT.off, GS_HUB_ID_REDUNDANT.set 1 0), (regKey 0x024 LN_STATUS_PSTATE.off, LN_STATUS_PSTATE.set 4 0)]
    tw := { seq := 65536 } }

/-- The number's bit 16 stands in the message's ROLE. -/
theorem tguySend_role_overlaps : (match exec .tguySend guyNumber65536 with
    | .next t => (t.port .twin).ll.getLast?.map fun f => f.hdr.argBits 16 3
    | _ => some guyNumber65536.role) ≠ some guyNumber65536.role := by decide +kernel

/-- Refutes O58: a guy message whose number exceeds 16 bits does not carry the hub's role. -/
theorem not_twinRolesAndSwaps : ¬ Obligations.TwinRolesAndSwaps := by
  rintro ⟨send, -⟩
  obtain ⟨t, e, -, carried, -⟩ := send guyNumber65536 (by decide +kernel) (by decide +kernel)
  have overlaps := tguySend_role_overlaps
  rw [e] at overlaps
  refine overlaps ?_
  have role := congrArg (Option.map fun x : Nat × Bool × Nat × Nat => x.2.2.1) carried
  rwa [Option.map_map] at role

/-! ### A canopy entry while the scan unit runs (R346, R402) -/

/-- A CANOPY entry for group 0 of the epoch in progress. -/
def canopyEntry : Frame := { hdr := { mtype := 0x22 }, payload := [2, 1, 1, 0, 0, 0, 0, 0, 0, 0, 1] }

/-- A standby with the snapshot, whose scan unit runs in epoch 0. -/
def standbyScanning : State :=
  { regs := [(regKey 0x01C PAGE_STATE, 3), (regKey 0x024 TW_STATUS_ROLE.off, TW_STATUS_ROLE.set 2 0)]
    tw := { inbox := [canopyEntry], rseq := some 0 } }

/-- The entry is written to the hidden copy; the visible one changes at the boundary. -/
theorem canopyEntry_hidden : (match exec .mirrorReceived standbyScanning with
    | .next t => t.grpVis 0
    | _ => grpOf ((canopyEntry.payload.drop 8).take 14 |>.drop 2)) ≠ grpOf ((canopyEntry.payload.drop 8).take 14 |>.drop 2) := by
  decide +kernel

/-- Refutes O60: a CANOPY entry of the epoch in progress is not visible at once on a standby whose scan unit runs. -/
theorem not_twinMirror : ¬ Obligations.TwinMirror := by
  rintro ⟨-, -, received, -⟩
  obtain ⟨t, e, -, -, canopy, -⟩ := received standbyScanning canopyEntry [] 0 rfl rfl (by decide +kernel) rfl rfl
  have hidden := canopyEntry_hidden
  rw [e] at hidden
  exact hidden (canopy (by decide +kernel))

/-! ### The last card told to revert (R503) -/

/-- A strike on trial is being taken back, and card 0 in ACTIVE is the last to be told. -/
def lastCardReverting : State :=
  { gs := { seq := none }
    regs := [(regKey 0x050 CL_STATUS_STATE.off, CL_STATUS_STATE.set 5 0)]
    cards := [(0, { block := [0x14] })]
    up := { trial := true, reverting := [0] } }

/-- The block sent, the strike fails and the hub is reset. -/
theorem superframe_resets_link : (match exec (.superframeBoundary 0 1) lastCardReverting with
    | .next t => t.clState 0
    | _ => 5) ≠ 5 := by decide +kernel

/-- Refutes O45: at the superframe boundary that ends the last RL_REVERT the hub is reset, and the link with it. -/
theorem not_cardFramesInAndOut : ¬ Obligations.CardFramesInAndOut := by
  rintro ⟨-, -, -, -, -, boundary, -⟩
  obtain ⟨t, e, -, -, active, -⟩ := boundary lastCardReverting 0 1 (by decide +kernel) (by decide +kernel) (by decide +kernel) rfl rfl
    (by decide +kernel)
  have resets := superframe_resets_link
  rw [e] at resets
  exact resets active

/-! ### A pair that begins at the last channel (R244, R297) -/

/-- The spare of cluster 0 follows channel 7, whose idle engine has PAIR set. -/
def lastChannelPaired : State :=
  { regs := [(regKey 0x080 EC_MIG_STATUS_SPARE_OK.off, EC_MIG_STATUS_SPARE_OK.set 1 0), (regKey 0x107 EN_MODE_MODE.off, EN_MODE_MODE.set 3 0),
      (regKey 0x107 SY_CFG_PAIR.off, SY_CFG_PAIR.set 1 0)]
    chans := [(7, { mig := some (false, 0) })] }

/-- There is no channel 8 to place. -/
theorem migrationSwitch_no_second : (match exec (.migrationSwitch 0) lastChannelPaired with
    | .next t => t.mapPos 0 8
    | _ => 8) ≠ 8 := by decide +kernel

/-- Refutes O47: where PAIR is set at channel 7, no second channel's place becomes 8. -/
theorem not_engineRecordsModesAndMigration : ¬ Obligations.EngineRecordsModesAndMigration := by
  rintro ⟨-, -, -, -, -, -, -, -, -, -, -, -, -, switch, -⟩
  obtain ⟨t, e, -, second, -⟩ := switch lastChannelPaired 0 7 false 0 (by decide +kernel) (by decide +kernel) (by decide +kernel)
    (by decide +kernel) (by decide +kernel) (by decide +kernel)
  have none8 := migrationSwitch_no_second
  rw [e] at none8
  exact none8 (second (by decide +kernel))

/-! ### The host port's own block reset (R78, R420) -/

/-- The host port's island is up, and pages 0x020 and 0x021 are READY, with window 0 on this hub. -/
def hostOnItself : State :=
  { regs := [(regKey 0x020 PAGE_STATE, 1), (regKey 0x021 PAGE_STATE, 1), (regKey 0x021 HOST_PSEL, HOST_PSEL_SELF.set 1 0)]
    isl := [(37, { rel := true })] }

/-- The reset of the block ends the access that asked for it. -/
theorem hostReset_ends_access : (match exec (.hostAccess (BitVec.ofNat 27 (0x021000 + PAGE_CTRL)) true 8 15) hostOnItself with
    | .next t => t.host.isSome
    | _ => true) ≠ true := by decide +kernel

/-- Refutes O50: a host access that resets the host port's block leaves no completed access. -/
theorem not_accessesAtTheDoors : ¬ Obligations.AccessesAtTheDoors := by
  rintro ⟨here, -⟩
  obtain ⟨t, e, -, done⟩ := here hostOnItself (BitVec.ofNat 27 (0x021000 + PAGE_CTRL)) true 8 (0x021000 + PAGE_CTRL) (by decide +kernel)
    (by decide +kernel) (by decide +kernel) (by decide +kernel) (by decide +kernel) (by decide +kernel)
  have ends := hostReset_ends_access
  rw [e] at ends
  exact ends (by dsimp only; rw [done]; rfl)

/-! ### The bridge's own event as a signal (R370, R388) -/

/-- Tag 0 is not sent yet, and the bridge's events are routed to a signal. -/
def unsentTag : State :=
  { regs := [(regKey 0x020 PAGE_STATE, 1), (regKey 0x020 EVT_ENABLE, 0xFFFFFFFF), (regKey 0x020 BR_SIG_TGT_EN.off, 0x80000000),
      (regKey 0x020 (BR_IRQ_ROUTE + 0x20), 0xC0)]
    br := { tags := [(0, some {})] } }

/-- The event's signal waits at the bridge's port. -/
theorem timeout_sends_signal : (match exec (.transactionTimeout 0) unsentTag with
    | .next t => (t.ingress.getD portBridge []).length
    | _ => 0) ≠ 0 := by decide +kernel

/-- Refutes O52: a timeout's event may put a signal frame behind the requests that remain at the bridge's port. -/
theorem not_bridgeCommands : ¬ Obligations.BridgeCommands := by
  rintro ⟨-, -, -, -, -, -, -, -, -, timeout, -⟩
  obtain ⟨t, e, -, -, removed, -⟩ := timeout unsentTag 0 {} (by decide +kernel) (by decide +kernel)
  have sends := timeout_sends_signal
  rw [e] at sends
  exact sends (congrArg List.length (removed rfl))

/-! ### A piece number beyond its field (R497) -/

/-- A check of slot 0, whose manifest has one entry, of one piece that does not come, number 1000. -/
def piece1000Missing : State :=
  { mram := [(6, 1), (0x58, 1), (0x5C, 0xE8), (0x5D, 0x03), (mapBase, 0xFF)]
    up := { active := 1, job := some { op := 3 } } }

/-- PIECE has nine bits. -/
theorem verify_truncates_piece : (match exec .updVerifyDone piece1000Missing with
    | .next t => decide (UP_FAIL_PIECE.get (t.rd 0x290 UP_FAIL) = t.firstMissing 0)
    | _ => true) ≠ true := by decide +kernel

/-- Refutes O57: UP_FAIL shows the missing piece's number modulo 512. -/
theorem not_updateCommands : ¬ Obligations.UpdateCommands := by
  rintro ⟨-, -, -, -, -, -, -, -, -, verify, -⟩
  obtain ⟨t, e, -, -, -, fails, -⟩ := verify piece1000Missing { op := 3 } rfl rfl
  obtain ⟨-, -, -, -, piece⟩ := fails 1 0 (by decide +kernel)
  have truncates := verify_truncates_piece
  rw [e] at truncates
  exact truncates (decide_eq_true piece)

end Sys2Proof.Machine
end

section
set_option Elab.async false
/-! The pitch power channel (R424-R437). -/
namespace Sys2Proof.Machine

/-- A field of another register than EVT_STATUS that lies beside each of the fields listed. -/
def Fld.beside (l : List Fld) (f : Fld) : Bool :=
  decide (regKey 0 f.off ≠ regKey 0 EVT_STATUS) &&
    l.all fun g => decide (regKey 0 f.off ≠ regKey 0 g.off ∨ ((f.lo + f.w ≤ g.lo ∨ g.lo + g.w ≤ f.lo) ∧ f.lo + f.w ≤ 32))

/-- What an operation on a page may do to it: it writes the fields listed, and raises events. -/
def WritesFields (p : Nat) (l : List Fld) (s t : State) : Prop :=
  (∀ f, f.beside l = true → t.fg p f = s.fg p f) ∧ (∀ b, s.event p b = true → t.event p b = true) ∧ onlyPages [p] s t

namespace WritesFields
variable {p : Nat} {l : List Fld} {s t : State}

theorem refl : WritesFields p l s s := ⟨fun _ _ => rfl, fun _ h => h, onlyPages.refl _ _⟩

theorem of_regs (h : WritesFields p l s t) {u : State} (e : u.regs = t.regs) : WritesFields p l s u := by
  obtain ⟨fields, events, only⟩ := h
  exact ⟨fun f hf => (State.fg_of_regs e ..).trans (fields f hf), fun b hb => by simpa only [State.event, State.rd_of_regs e] using events b hb,
    only.of_regs e⟩

theorem fs (h : WritesFields p l s t) {g : Fld} {v : Nat} (hg : g ∈ l) (off : regKey 0 EVT_STATUS ≠ regKey 0 g.off := by decide) :
    WritesFields p l s (t.fs p g v) := by
  obtain ⟨fields, events, only⟩ := h
  refine ⟨fun f hf => ?_, fun b hb => by rw [State.event_fs_off _ _ _ _ off]; exact events b hb, only.fs (by simp)⟩
  have apart := List.all_eq_true.1 (Bool.and_eq_true_iff.1 hf).2 g hg
  rw [State.fg_fs_apart _ _ _ (of_decide_eq_true apart), fields f hf]

theorem raise (h : WritesFields p l s t) {b : Nat} : WritesFields p l s (t.raise p b) := by
  obtain ⟨fields, events, only⟩ := h
  refine ⟨fun f hf => ?_, fun c hc => State.event_raise_keeps _ _ _ (events c hc), only.raise (by simp)⟩
  rw [State.fg_raise_off _ _ (of_decide_eq_true (Bool.and_eq_true_iff.1 hf).1), fields f hf]

theorem ite {a b : State} {c : Prop} [Decidable c] (ha : WritesFields p l s a) (hb : WritesFields p l s b) :
    WritesFields p l s (if c then a else b) := by split <;> assumption

theorem raiseIf (h : WritesFields p l s t) {c : Bool} {b : Nat} : WritesFields p l s (t.raiseIf c p b) := .ite h.raise h

theorem trans {u : State} (h : WritesFields p l s t) (h' : WritesFields p l t u) : WritesFields p l s u :=
  ⟨fun f hf => (h'.1 f hf).trans (h.1 f hf), fun b hb => h'.2.1 b (h.2.1 b hb), h.2.2.trans h'.2.2⟩

theorem mono (h : WritesFields p l s t) {m : List Fld} (hl : l ⊆ m) : WritesFields p m s t := by
  obtain ⟨fields, events, only⟩ := h
  refine ⟨fun f hf => fields f ?_, events, only⟩
  simp only [Fld.beside, Bool.and_eq_true, List.all_eq_true] at hf ⊢
  exact ⟨hf.1, fun g hg => hf.2 g (hl hg)⟩

/-- A whole register that holds none of the fields listed. -/
theorem rd (h : WritesFields p l s t) {o : Nat} (ho : (whole o).beside l = true) : t.rd p o = s.rd p o := by
  have eq := h.1 _ ho
  simp only [State.fg, Fld.get, whole, Nat.shiftRight_zero, Nat.mod_eq_of_lt (BitVec.isLt _)] at eq
  exact BitVec.eq_of_toNat_eq eq

end WritesFields

theorem min_mod_pred (a w : Nat) : min a (2 ^ w - 1) % 2 ^ w = min a (2 ^ w - 1) :=
  Nat.mod_eq_of_lt (by have := Nat.two_pow_pos w; omega)

/-! ### The gate off -/

section
variable (s : State) (n : Nat)

theorem State.pwr_setPwr (x : Pwr) : (s.setPwr n x).pwr n = x := Map.getD_put_same ..

theorem State.gateOff_writes : WritesFields (ppPage n) [PP_STATUS_GATE, PP_STATUS_PG, PP_TIMER_ELAPSED] s (s.gateOff n) := by
  have off := ((WritesFields.refl (p := ppPage n) (l := [PP_STATUS_GATE, PP_STATUS_PG, PP_TIMER_ELAPSED]) (s := s)).of_regs
    (u := s.setPwr n { s.pwr n with timers := [], out := 0 }) rfl |>.fs (v := 0) (.head _)).fs (v := 0) (.tail _ (.tail _ (.head _)))
  exact .ite (off.fs (.tail _ (.head _))).raise off

/-- The gate off: GATE and PG are 0. -/
theorem State.gateOff_gate : (s.gateOff n).fg (ppPage n) PP_STATUS_GATE = 0 := by
  unfold State.gateOff
  dsimp only
  split <;> simp (disch := decide) [State.fg_fs, State.fg_fs_apart, State.fg_raise_off]

theorem State.gateOff_pg : (s.gateOff n).fg (ppPage n) PP_STATUS_PG = 0 := by
  unfold State.gateOff
  dsimp only
  split
  · simp (disch := decide) [State.fg_fs, State.fg_raise_off]
  · next h => simpa [State.fb] using h

theorem State.gateOff_supv : (s.gateOff n).supv = (s.setPwr n { s.pwr n with timers := [], out := 0 }).supv := by
  unfold State.gateOff
  dsimp only
  split <;> simp

theorem State.gateOffFor_supv (c : Nat) : (s.gateOffFor n c).supv = (s.setPwr n { s.pwr n with timers := [], out := 0 }).supv := by
  unfold State.gateOffFor
  split <;> simp [State.gateOff_supv]
end

/-! ### The role's hold -/

/-- A configuration field in force depends on the words kept and on the page's own. -/
theorem State.ppCfg_congr {s t : State} {n : Nat} {f : Fld} (hk : (t.pwr n).kept = (s.pwr n).kept)
    (hr : t.rd (ppPage n) f.off = s.rd (ppPage n) f.off) : t.ppCfg n f = s.ppCfg n f := by
  simp only [State.ppCfg, hk, hr, State.fg]

theorem State.ppHeld_congr {s t : State} {n : Nat} (hk : (t.pwr n).kept = (s.pwr n).kept) (role : t.supv.role = s.supv.role)
    (hr : t.rd (ppPage n) PP_CFG = s.rd (ppPage n) PP_CFG) : t.ppHeld n = s.ppHeld n := by
  simp only [State.ppHeld, State.ppCfg_congr (f := PP_CFG_STBY_OFF) hk hr, role]

section
variable (s : State) (n : Nat)

/-! ### INSERT or STANDBY entered, and what takes a channel out of its powered states -/

theorem State.gateOff_held : (s.gateOff n).ppHeld n = s.ppHeld n :=
  State.ppHeld_congr (by simp only [State.pwr, State.gateOff_supv]; simp [State.setPwr]) (by rw [State.gateOff_supv]; rfl)
    ((s.gateOff_writes n).rd (by decide))

/-- The fields that taking the gate off and entering another state write. -/
def ppMoves : List Fld := [PP_STATUS_GATE, PP_STATUS_PG, PP_TIMER_ELAPSED, PP_STATUS_CAUSE, PP_STATUS_STATE]

theorem State.ppStand_writes : WritesFields (ppPage n) ppMoves s (s.ppStand n) :=
  (((s.gateOff_writes n).mono (by decide)).fs (by decide)).fs (by decide)

theorem State.ppEnterInsert_writes (fast : Bool) : WritesFields (ppPage n) ppMoves s (s.ppEnterInsert n fast) :=
  .ite (s.ppStand_writes n) ((WritesFields.refl.of_regs rfl).fs (by decide))

theorem State.ppState_ppGo (st : Nat) : (s.ppGo n st).ppState n = st % 16 := State.fg_fs _ _ _ _ (by decide)

theorem State.ppEnterInsert_state (fast : Bool) : (s.ppEnterInsert n fast).ppState n = if s.ppHeld n = true then 10 else 2 := by
  unfold State.ppEnterInsert State.ppStand
  split <;> rw [State.ppState_ppGo] <;> rfl

theorem State.ppEnterInsert_cause (fast : Bool) (held : s.ppHeld n = true) : (s.ppEnterInsert n fast).fg (ppPage n) PP_STATUS_CAUSE = 9 := by
  rw [State.ppEnterInsert, if_pos held, State.ppStand, State.ppGo]
  simp (disch := decide) [State.fg_fs_apart, State.fg_fs]
  rfl

theorem State.ppEnterInsert_free (fast : Bool) (free : s.ppHeld n = false) :
    s.ppEnterInsert n fast = (s.setPwr n { s.pwr n with fast := fast, ins := 0 }).ppGo n ppInsert := by
  rw [State.ppEnterInsert, if_neg (by simp [free])]

/-- A gate that is off stays off, with power-good withdrawn. -/
theorem State.ppEnterInsert_off (fast : Bool) (gate : s.fg (ppPage n) PP_STATUS_GATE = 0) (pg : s.fg (ppPage n) PP_STATUS_PG = 0) :
    (s.ppEnterInsert n fast).fg (ppPage n) PP_STATUS_GATE = 0 ∧ (s.ppEnterInsert n fast).fg (ppPage n) PP_STATUS_PG = 0 := by
  unfold State.ppEnterInsert State.ppStand State.ppGo
  split <;> constructor <;> simp (disch := decide) [State.fg_fs_apart, State.gateOff_gate, State.gateOff_pg, gate, pg]

/-- The seating pin's opening. -/
theorem State.seatOpened_spec : let t := ((((s.gateOff n).fs (ppPage n) PP_STATUS_CAUSE 6).fs (ppPage n) PP_STATUS_ATTEMPTS 0).raise (ppPage n) EV_PP_EXTRACT).ppGo n ppExtracted
    (t.ppState n = 9 ∧ t.fg (ppPage n) PP_STATUS_GATE = 0 ∧ t.fg (ppPage n) PP_STATUS_PG = 0 ∧ t.fg (ppPage n) PP_STATUS_CAUSE = 6 ∧
      t.fg (ppPage n) PP_STATUS_ATTEMPTS = 0) ∧ t.event (ppPage n) EV_PP_EXTRACT = true ∧ onlyPages [ppPage n] s t := by
  refine ⟨⟨State.ppState_ppGo .., ?_, ?_, ?_, ?_⟩, ?_, ((((s.gateOff_writes n).2.2.fs (by simp)).fs (by simp)).raise (by simp)).fs (by simp)⟩ <;>
    simp (disch := decide) [State.ppGo, State.fg_raise_off, State.fg_fs_apart, State.fg_fs, State.gateOff_gate, State.gateOff_pg, State.event_fs_off,
      State.event_raise]
  rfl

theorem State.gateOffFor_writes (c : Nat) : WritesFields (ppPage n) ppMoves s (s.gateOffFor n c) :=
  .ite (((s.gateOff_writes n).mono (by decide)).fs (by decide)) ((s.gateOff_writes n).mono (by decide))

theorem State.gateOffFor_gate (c : Nat) : (s.gateOffFor n c).fg (ppPage n) PP_STATUS_GATE = 0 := by
  unfold State.gateOffFor
  split <;> simp (disch := decide) [State.fg_fs_apart, State.gateOff_gate]

theorem State.gateOffFor_cause (c : Nat) (on : s.fb (ppPage n) PP_STATUS_GATE = true) :
    (s.gateOffFor n c).fg (ppPage n) PP_STATUS_CAUSE = c % 16 := by
  rw [State.gateOffFor, if_pos on]
  exact State.fg_fs _ _ _ _ (by decide)

theorem State.ppLeave_writes (c st : Nat) : WritesFields (ppPage n) (PP_STATUS_ATTEMPTS :: ppMoves) s (s.ppLeave n c st) :=
  ((((s.gateOffFor_writes n c).mono (by decide)).fs (by decide)).of_regs rfl).fs (by decide)

/-- The channel left: the gate off, with the cause where it was on, in the state given. -/
theorem State.ppLeave_spec (c st : Nat) :
    (s.ppLeave n c st).ppState n = st % 16 ∧ (s.ppLeave n c st).fg (ppPage n) PP_STATUS_GATE = 0 ∧
      (s.fb (ppPage n) PP_STATUS_GATE = true → (s.ppLeave n c st).fg (ppPage n) PP_STATUS_CAUSE = c % 16) := by
  refine ⟨State.ppState_ppGo .., ?_, fun on => ?_⟩ <;> unfold State.ppLeave State.ppGo <;>
    simp (disch := decide) only [State.fg_fs_apart, State.fg_setPwr]
  · exact s.gateOffFor_gate n c
  · exact s.gateOffFor_cause n c on

theorem State.poleFail_writes (c ev : Nat) : WritesFields (ppPage n) (PP_CNT_POLE_FAIL :: ppMoves) s (s.poleFail n c ev) :=
  (((((s.gateOff_writes n).mono (by decide)).fs (by decide)).fs (by decide)).raise).fs (by decide)

/-- A pole test failed: latched with the gate off, the cause and the event. -/
theorem State.poleFail_spec (c : Nat) {ev : Nat} (hev : ev < 32) :
    (s.poleFail n c ev).ppState n = 8 ∧ (s.poleFail n c ev).fg (ppPage n) PP_STATUS_GATE = 0 ∧
      (s.poleFail n c ev).fg (ppPage n) PP_STATUS_CAUSE = c % 16 ∧ (s.poleFail n c ev).event (ppPage n) ev = true := by
  refine ⟨State.ppState_ppGo .., ?_⟩
  unfold State.poleFail State.ppGo
  simp (disch := decide) [State.fg_fs_apart, State.fg_fs, State.fg_raise_off, State.inc_eq_fs, State.gateOff_gate, State.event_fs_off,
    State.event_raise _ _ hev]
  rfl

/-- The fields a trip writes. -/
def ppTrips : List Fld := PP_STATUS_ATTEMPTS :: PP_CNT_TRIPS :: ppMoves

theorem State.ppTrip_writes (c : Nat) : WritesFields (ppPage n) ppTrips s (s.ppTrip n c) :=
  have trips := (((((s.gateOff_writes n).mono (m := ppTrips) (by decide)).fs (g := PP_STATUS_CAUSE) (v := c) (by decide)).fs
    (g := PP_STATUS_ATTEMPTS) (by decide)).fs (g := PP_CNT_TRIPS) (by decide)).raise (b := EV_PP_TRIP)
  .ite (trips.raise.fs (by decide)) (trips.fs (by decide))

/-- A trip: the gate off with the cause, counted, in COOL or LATCHED. -/
theorem State.ppTrip_spec (c : Nat) :
    (s.ppTrip n c).ppState n = (if s.ppCfg n PP_CFG_RETRY < s.fg (ppPage n) PP_STATUS_ATTEMPTS + 1 then 8 else 7) ∧
      (s.ppTrip n c).fg (ppPage n) PP_STATUS_GATE = 0 ∧ (s.ppTrip n c).fg (ppPage n) PP_STATUS_PG = 0 ∧
      (s.ppTrip n c).fg (ppPage n) PP_STATUS_CAUSE = c % 16 ∧
      (s.ppTrip n c).fg (ppPage n) PP_CNT_TRIPS = min (s.fg (ppPage n) PP_CNT_TRIPS + 1) (2 ^ PP_CNT_TRIPS.w - 1) ∧
      (s.ppTrip n c).event (ppPage n) EV_PP_TRIP = true := by
  have count : (s.gateOff n).fg (ppPage n) PP_CNT_TRIPS = s.fg (ppPage n) PP_CNT_TRIPS := (s.gateOff_writes n).1 _ (by decide)
  unfold State.ppTrip
  dsimp only
  split <;> refine ⟨State.ppState_ppGo .., ?_, ?_, ?_, ?_, ?_⟩ <;> unfold State.ppGo <;>
    simp (disch := decide) only [State.fg_fs_apart, State.fg_fs, State.fg_raise_off, State.inc_eq_fs, State.gateOff_gate, State.gateOff_pg,
      State.event_fs_off, State.event_raise_or, decide_true, Bool.true_or, Bool.or_true, count]
  · rfl
  · exact min_mod_pred _ _
  · rfl
  · exact min_mod_pred _ _

end

section
variable (s : State) (n : Nat)

/-! ### The commands of a channel -/

/-- PP_STATUS holds the states 0 to 10. -/
theorem State.ppPowered_iff : s.ppPowered n = true ↔ 4 ≤ s.ppState n ∧ s.ppState n ≤ 6 := by
  rw [State.ppPowered, Bool.and_eq_true, decide_eq_true_eq, decide_eq_true_eq]; rfl

/-- The pins shown, with their events, before the channel's answer to them. -/
def State.pinsShown (s : State) (n : Nat) (pres seat : Bool) : State :=
  ((((s.fs (ppPage n) PP_STATUS_PRESENT (bit pres)).fs (ppPage n) PP_STATUS_SEATED (bit seat)).raiseIf
    (decide (s.fb (ppPage n) PP_STATUS_PRESENT ≠ pres)) (ppPage n) EV_PP_PRESENT_CHG).raiseIf
    (seat && !pres && !(s.fb (ppPage n) PP_STATUS_SEATED && !s.fb (ppPage n) PP_STATUS_PRESENT)) (ppPage n) EV_PP_PIN_ERR)

theorem presenceChange_eq (pitch : Pitch) (pres seat : Bool) : presenceChange pitch pres seat s =
    if s.ppState pitch.val = ppOff then s.pinsShown pitch.val pres seat
    else if pres = false then (if s.ppState pitch.val = ppEmpty then s.pinsShown pitch.val pres seat
      else (s.pinsShown pitch.val pres seat).ppLeave pitch.val 7 (if s.enabled (ppPage pitch.val) then ppEmpty else ppOff))
    else if s.ppState pitch.val = ppEmpty then (s.pinsShown pitch.val pres seat).ppEnterInsert pitch.val false
    else if s.ppState pitch.val = ppExtracted ∧ seat = true then (s.pinsShown pitch.val pres seat).ppEnterInsert pitch.val false
    else s.pinsShown pitch.val pres seat := by
  cases pres <;> rfl

theorem State.pinsShown_writes (pres seat : Bool) : WritesFields (ppPage n) [PP_STATUS_PRESENT, PP_STATUS_SEATED] s (s.pinsShown n pres seat) :=
  (((WritesFields.refl.fs (by decide)).fs (by decide)).raiseIf).raiseIf

theorem State.pinsShown_spec (pres seat : Bool) :
    (s.pinsShown n pres seat).fg (ppPage n) PP_STATUS_PRESENT = bit pres ∧ (s.pinsShown n pres seat).fg (ppPage n) PP_STATUS_SEATED = bit seat ∧
      (s.fb (ppPage n) PP_STATUS_PRESENT ≠ pres → (s.pinsShown n pres seat).event (ppPage n) EV_PP_PRESENT_CHG = true) ∧
      (s.pinsShown n pres seat).ppHeld n = s.ppHeld n := by
  refine ⟨?_, ?_, fun h => ?_, ?_⟩
  · unfold State.pinsShown State.raiseIf
    split <;> split <;> cases pres <;> simp (disch := decide) [State.fg_fs, State.fg_fs_apart, State.fg_raise_off, bit]
  · unfold State.pinsShown State.raiseIf
    split <;> split <;> cases seat <;> simp (disch := decide) [State.fg_fs, State.fg_fs_apart, State.fg_raise_off, bit]
  · unfold State.pinsShown
    rw [decide_eq_true h]
    exact (WritesFields.refl.raiseIf (p := ppPage n) (l := [])).2.1 _ (State.event_raise _ _ (by decide))
  · have supv : (s.pinsShown n pres seat).supv = s.supv := by simp [State.pinsShown]
    exact State.ppHeld_congr (by rw [State.pwr, supv]; rfl) (by rw [supv]) ((s.pinsShown_writes n pres seat).rd (by decide))

end

/-- PRESENCE_CHANGE: the pins shown, and what the channel does of it. -/
theorem presenceChange_spec (s : State) (pitch : Pitch) (pres seat : Bool) :
    completes (.presenceChange pitch pres seat) s fun t =>
      (t.fg (ppPage pitch.val) PP_STATUS_PRESENT = bit pres ∧ t.fg (ppPage pitch.val) PP_STATUS_SEATED = bit seat) ∧
      (s.fb (ppPage pitch.val) PP_STATUS_PRESENT ≠ pres → t.event (ppPage pitch.val) EV_PP_PRESENT_CHG = true) ∧
      ((s.ppState pitch.val = 1 ∧ pres = true ∧ s.ppHeld pitch.val = false) → t.ppState pitch.val = 2) ∧
      ((s.ppState pitch.val = 1 ∧ pres = true ∧ s.ppHeld pitch.val = true) → t.ppState pitch.val = 10 ∧ t.fg (ppPage pitch.val) PP_STATUS_CAUSE = 9) ∧
      ((s.ppPowered pitch.val = true ∧ pres = false) → t.ppState pitch.val = (if s.enabled (ppPage pitch.val) then 1 else 0) ∧ t.fg (ppPage pitch.val) PP_STATUS_GATE = 0) ∧
      ((s.ppPowered pitch.val = true ∧ pres = false ∧ s.fb (ppPage pitch.val) PP_STATUS_GATE = true) → t.fg (ppPage pitch.val) PP_STATUS_CAUSE = 7) ∧
      onlyPages [ppPage pitch.val] s t := by
  refine ⟨presenceChange pitch pres seat s, rfl, ?_⟩
  obtain ⟨present, seated, changed, held⟩ := s.pinsShown_spec pitch.val pres seat
  have shown := s.pinsShown_writes pitch.val pres seat
  have gate : (s.pinsShown pitch.val pres seat).fb (ppPage pitch.val) PP_STATUS_GATE = s.fb (ppPage pitch.val) PP_STATUS_GATE := by
    simp only [State.fb, shown.1 PP_STATUS_GATE (by decide)]
  generalize hu : s.pinsShown pitch.val pres seat = u at *
  have after {t : State} (w : WritesFields (ppPage pitch.val) (PP_STATUS_ATTEMPTS :: ppMoves) u t) :
      (t.fg (ppPage pitch.val) PP_STATUS_PRESENT = bit pres ∧ t.fg (ppPage pitch.val) PP_STATUS_SEATED = bit seat) ∧
        (s.fb (ppPage pitch.val) PP_STATUS_PRESENT ≠ pres → t.event (ppPage pitch.val) EV_PP_PRESENT_CHG = true) ∧
        onlyPages [ppPage pitch.val] s t :=
    ⟨⟨(w.1 _ (by decide)).trans present, (w.1 _ (by decide)).trans seated⟩, fun h => w.2.1 _ (changed h), shown.2.2.trans w.2.2⟩
  have writes : WritesFields (ppPage pitch.val) (PP_STATUS_ATTEMPTS :: ppMoves) u (presenceChange pitch pres seat s) := by
    have enter := (u.ppEnterInsert_writes pitch.val false).mono (m := PP_STATUS_ATTEMPTS :: ppMoves) (by decide)
    rw [presenceChange_eq, hu]
    exact .ite .refl (.ite (.ite .refl (u.ppLeave_writes ..)) (.ite enter (.ite enter .refl)))
  obtain ⟨pins, event, only⟩ := after writes
  have entered (st : s.ppState pitch.val = 1) (yes : pres = true) : presenceChange pitch pres seat s = u.ppEnterInsert pitch.val false := by
    rw [presenceChange_eq, hu]
    simp [st, yes, ppOff, ppEmpty]
  have left (on : s.ppPowered pitch.val = true) (no : pres = false) :
      presenceChange pitch pres seat s = u.ppLeave pitch.val 7 (if s.enabled (ppPage pitch.val) then ppEmpty else ppOff) := by
    rw [State.ppPowered_iff] at on
    rw [presenceChange_eq, hu]
    simp [no, ppOff, ppEmpty, show s.ppState pitch.val ≠ 0 by omega, show s.ppState pitch.val ≠ 1 by omega]
  refine ⟨pins, event, fun ⟨st, yes, free⟩ => ?_, fun ⟨st, yes, held'⟩ => ?_, fun ⟨on, no⟩ => ?_, fun ⟨on, no, gated⟩ => ?_, only⟩
  · rw [entered st yes, State.ppEnterInsert_state, held, free]; rfl
  · rw [entered st yes, State.ppEnterInsert_state, held, held']
    exact ⟨rfl, u.ppEnterInsert_cause _ _ (held.trans held')⟩
  · obtain ⟨state, off, -⟩ := u.ppLeave_spec pitch.val 7 (if s.enabled (ppPage pitch.val) then ppEmpty else ppOff)
    rw [left on no, state]
    exact ⟨by split <;> rfl, off⟩
  · rw [left on no]
    exact (u.ppLeave_spec pitch.val 7 _).2.2 (gate.trans gated)

/-- The gate off for the bus window, with its event. -/
def windowOff (s : State) (n : Nat) : State := ((s.gateOff n).fs (ppPage n) PP_STATUS_CAUSE 5).raise (ppPage n) EV_PP_BUS_WIN

theorem busWindow_off (s : State) (n : Nat) :
    (windowOff s n).fg (ppPage n) PP_STATUS_GATE = 0 ∧ (windowOff s n).fg (ppPage n) PP_STATUS_PG = 0 ∧ (windowOff s n).ppHeld n = s.ppHeld n ∧
      (windowOff s n).event (ppPage n) EV_PP_BUS_WIN = true ∧ onlyPages [ppPage n] s (windowOff s n) := by
  have writes : WritesFields (ppPage n) ppMoves s (windowOff s n) :=
    (((s.gateOff_writes n).mono (by decide)).fs (by decide)).raise
  refine ⟨?_, ?_, ?_, State.event_raise _ _ (by decide), writes.2.2⟩
  · simp (disch := decide) [windowOff, State.fg_raise_off, State.fg_fs_apart, State.gateOff_gate]
  · simp (disch := decide) [windowOff, State.fg_raise_off, State.fg_fs_apart, State.gateOff_pg]
  · rw [← s.gateOff_held n]
    refine State.ppHeld_congr ?_ ?_ ?_
    · simp [windowOff, State.pwr]
    · simp [windowOff]
    · simp (disch := decide) [windowOff, State.rd_raise_off, State.rd_fs_off]

/-- The measurement shown, and the capture's part of it. -/
theorem rdsCaptured_spec (s : State) (n r : Nat) :
    ((s.fs (ppPage n) PP_RDS_RDS r).rdsCaptured n r).fg (ppPage n) PP_RDS_RDS = r % 2 ^ PP_RDS_RDS.w ∧
      ((s.pwr n).capture = none → (s.fs (ppPage n) PP_RDS_RDS r).rdsCaptured n r = s.fs (ppPage n) PP_RDS_RDS r) ∧
      onlyRegs [(ppPage n, PP_RDS), (ppPage n, EVT_STATUS)] s ((s.fs (ppPage n) PP_RDS_RDS r).rdsCaptured n r) := by
  have value : (s.fs (ppPage n) PP_RDS_RDS r).fg (ppPage n) PP_RDS_RDS = r % 2 ^ PP_RDS_RDS.w := State.fg_fs _ _ _ _ (by decide)
  have only : onlyRegs [(ppPage n, PP_RDS), (ppPage n, EVT_STATUS)] s (s.fs (ppPage n) PP_RDS_RDS r) :=
    (onlyRegs.refl _ s).fs (by decide) (by simp [PP_RDS, PP_RDS_RDS])
  have pwr : (s.fs (ppPage n) PP_RDS_RDS r).pwr n = s.pwr n := rfl
  unfold State.rdsCaptured
  rw [pwr]
  cases hc : (s.pwr n).capture with
  | none => exact ⟨value, fun _ => rfl, only⟩
  | some x =>
    dsimp only
    split
    · exact ⟨value, (fun h => by cases h), only.of_regs rfl⟩
    · refine ⟨?_, (fun h => by cases h), (only.fs (f := PP_RDS_CAPT) (by decide) (by simp [PP_RDS, PP_RDS_CAPT])).of_regs rfl⟩
      simp (disch := decide) [State.fg_fs_apart, value]

/-- A measurement of the on-resistance: its value, its warning, and a capture's part of it. -/
theorem rdsMeasure_spec (s : State) (pitch : Pitch) (on : s.ppState pitch.val = 6) (code : 100 ≤ s.fg (ppPage pitch.val) PP_MEAS_I) :
    completes (.rdsMeasure pitch) s fun t =>
      t.fg (ppPage pitch.val) PP_RDS_RDS = s.rdsValue pitch.val % 2 ^ PP_RDS_RDS.w ∧
      ((0 < s.ppCfg pitch.val PP_RDS_CFG_BASE ∧ s.ppCfg pitch.val PP_RDS_CFG_BASE * s.ppCfg pitch.val PP_RDS_CFG_WARN < s.rdsValue pitch.val * 100) → t.event (ppPage pitch.val) EV_PP_RDS_WEAR = true) ∧
      ((s.pwr pitch.val).capture = none → t.supv = s.supv) ∧
      onlyRegs [(ppPage pitch.val, PP_RDS), (ppPage pitch.val, EVT_STATUS)] s t := by
  refine ⟨rdsMeasure pitch s, rfl, ?_⟩
  obtain ⟨value, none', only⟩ := rdsCaptured_spec s.tookFree pitch.val (s.rdsValue pitch.val)
  rw [rdsMeasure, if_pos ⟨on, code⟩]
  dsimp only
  refine ⟨?_, fun ⟨base, warn⟩ => ?_, fun h => ?_, (((onlyRegs.refl _ s).of_regs rfl).trans only).raiseIf (by simp)⟩
  · unfold State.raiseIf
    split <;> simp (disch := decide) only [State.fg_raise_off, value]
  · rw [decide_eq_true base, decide_eq_true warn]
    exact State.event_raise _ _ (by decide)
  · rw [State.raiseIf_supv, none' h]; rfl

/-- A write of the page's control register that travels to the supervisor die. -/
theorem supSend_completes {c : Instr} {s : State} {who : Initiator} {p off : Nat} {v : Word}
    (he : exec c s = .next (s.write who p off (State.supSend p off v))) (hacc : s.accepts who p off = true) :
    completes c s fun t => t.supv.queue = s.supv.queue ++ [⟨p, off, v⟩] ∧ t.ansOf who = ⟨rspOk, 0, none⟩ ∧ onlyRegs [(0x01C, EVT_STATUS)] s t := by
  refine completes_write he hacc ⟨?_, State.ansOf_answer .., ?_⟩
  · simp [State.supSend]
  · exact onlyRegs.touch ((onlyRegs.refl _ _).of_regs rfl)

/-- Settles O53: what taking the gate off, entering INSERT or STANDBY, a trip and a failed pole test write is said once each, and every command
is one of them under its condition. -/
theorem pitchPowerChannel : Obligations.PitchPowerChannel := by
  unfold Obligations.PitchPowerChannel
  refine ⟨presenceChange_spec, fun s pitch st pres ins => ?_, fun s pitch h => ?_, fun s pitch st up => ?_, fun s pitch st => ?_,
    fun s pitch h => ?_, fun s pitch h => ⟨_, rfl, if_neg h⟩, fun s pitch st => ?_, fun s pitch st low => ?_,
    fun s pitch h => ⟨_, rfl, if_pos h⟩, fun s pitch h => ?_, fun s pitch st zero pg => ?_, fun s pitch pg => ?_, fun s pitch h => ?_,
    fun s pitch h => ⟨_, rfl, if_neg (by simp [h])⟩, fun s pitch on filt => ?_, fun s pitch on => ?_, fun s pitch on => ?_,
    fun s pitch on trips => ?_, fun s pitch h => ?_, fun s pitch h => ⟨_, rfl, if_neg (by simp [h])⟩,
    fun s pitch h => ⟨_, rfl, if_neg (by simp [h])⟩, fun s pitch h => ?_, fun s pitch st => ?_, fun s pitch h => ⟨_, rfl, if_neg h⟩,
    fun s who pitch hacc => supSend_completes rfl hacc, fun s who pitch hacc => supSend_completes rfl hacc, rdsMeasure_spec,
    fun s pitch h => ?_⟩
  · obtain ⟨only1, only2⟩ : (PP_STATUS = PP_STATUS_STATE.off) ∧ PP_CNT = PP_CNT_INSERTIONS.off := ⟨rfl, rfl⟩
    refine ⟨_, congrArg Host.Outcome.next (if_pos ⟨st, pres, ins⟩), State.ppState_ppGo .., ?_, ?_⟩
    · simp (disch := decide) only [State.ppGo, State.fg_fs_apart, State.fg_inc]
    · exact ((onlyRegs.refl _ s).inc (by decide) (by simp [only2])).fs (by decide) (by simp [only1])
  · refine ⟨_, rfl, if_neg fun ⟨st, pres, ins⟩ => ?_⟩
    rcases h with h | h | h
    · exact h st
    · rw [h] at pres; cases pres
    · exact absurd (h.symm.trans ins) (by decide)
  · exact ⟨_, congrArg Host.Outcome.next (if_pos ⟨st, decide_eq_true up⟩), State.ppState_ppGo .., (onlyRegs.refl _ s).fs (by decide) (by simp [PP_STATUS, PP_STATUS_STATE])⟩
  · exact ⟨_, congrArg Host.Outcome.next (if_pos st), State.ppState_ppGo .., (onlyRegs.refl _ s).fs (by decide) (by simp [PP_STATUS, PP_STATUS_STATE])⟩
  · refine ⟨_, rfl, if_neg fun ⟨st, up⟩ => ?_⟩
    have := of_decide_eq_true up
    exact h.elim (fun h => h st) fun h => by omega
  · rcases Nat.lt_or_ge (s.fg (ppPage pitch.val) PP_MEAS_VOUT) 20 with low | high
    · refine ⟨_, congrArg Host.Outcome.next ((if_neg (by simp [st, ppPrecheck])).trans (if_neg (by omega))), fun _ => ?_, fun h => by omega, ?_⟩
      · exact ⟨State.ppState_ppGo .., by simp (disch := decide) [State.ppGo, State.fg_fs_apart, State.fg_fs]⟩
      · exact ((onlyPages.refl _ s).fs (by simp)).fs (by simp)
    · obtain ⟨state, gate, cause, event⟩ := s.poleFail_spec pitch.val 3 (ev := EV_PP_POLE_SHORT) (by decide)
      exact ⟨_, congrArg Host.Outcome.next ((if_neg (by simp [st, ppPrecheck])).trans (if_pos high)), fun h => by omega,
        fun _ => ⟨state, gate, cause, event⟩, (s.poleFail_writes ..).2.2⟩
  · obtain ⟨state, gate, cause, event⟩ := s.poleFail_spec pitch.val 4 (ev := EV_PP_POLE_OPEN) (by decide)
    exact ⟨_, congrArg Host.Outcome.next (if_pos ⟨st, decide_eq_false (by omega)⟩), ⟨state, gate, cause⟩, event, (s.poleFail_writes ..).2.2⟩
  · refine ⟨_, rfl, if_neg fun ⟨st, up⟩ => ?_⟩
    have := of_decide_eq_false up
    exact h.elim (fun h => h st) fun h => by omega
  · refine ⟨_, congrArg Host.Outcome.next (if_pos ⟨st, decide_eq_true zero, pg⟩), ?_, State.event_raise _ _ (by decide),
      ((onlyRegs.refl _ s).fs (by decide) (by simp [PP_STATUS, PP_STATUS_PG])).raise (by simp)⟩
    simp (disch := decide) [State.fg_raise_off, State.fg_fs]
  · exact ⟨_, congrArg Host.Outcome.next (if_pos pg), State.fg_fs _ _ _ _ (by decide), (onlyRegs.refl _ s).fs (by decide) (by simp [PP_STATUS, PP_STATUS_ATTEMPTS])⟩
  · refine ⟨_, rfl, if_neg fun ⟨st, zero, pg⟩ => ?_⟩
    rcases h with h | h | h
    · exact h st
    · exact h (of_decide_eq_true zero)
    · rw [h] at pg; cases pg
  · obtain ⟨gate, pg, held, event, only⟩ := busWindow_off s pitch.val
    have writes := (windowOff s pitch.val).ppEnterInsert_writes pitch.val false
    refine ⟨(windowOff s pitch.val).ppEnterInsert pitch.val false, congrArg Host.Outcome.next (if_pos ⟨on, filt⟩), ⟨?_, ?_⟩,
      fun free => ?_, fun held' => ?_, writes.2.1 _ event, only.trans writes.2.2⟩
    · exact ((windowOff s pitch.val).ppEnterInsert_off _ _ gate pg).1
    · exact ((windowOff s pitch.val).ppEnterInsert_off _ _ gate pg).2
    · rw [State.ppEnterInsert_state, held, free, State.ppEnterInsert_free _ _ _ (held.trans free)]
      exact ⟨rfl, by simp (disch := decide) [State.ppGo, windowOff, State.fg_fs_apart, State.fg_raise_off, State.fg_fs]; rfl⟩
    · rw [State.ppEnterInsert_state, held, held']
      exact ⟨rfl, State.ppEnterInsert_cause _ _ _ (held.trans held')⟩
  · obtain ⟨ext, only⟩ := s.seatOpened_spec pitch.val
    exact ⟨_, congrArg Host.Outcome.next (if_pos on), ext, only⟩
  · obtain ⟨state, gate, pg, cause, count, event⟩ := s.ppTrip_spec pitch.val 2
    exact ⟨_, congrArg Host.Outcome.next (if_pos on), ⟨state, gate, pg, cause⟩, count, event, (s.ppTrip_writes ..).2.2⟩
  · have point : WritesFields (ppPage pitch.val) [PP_STATUS_TRIP_POINT] s (s.tookFree.fs (ppPage pitch.val) PP_STATUS_TRIP_POINT (s.pick (s.tripPoints pitch.val))) :=
      (WritesFields.refl.of_regs rfl).fs (by decide)
    have shown : (s.tookFree.fs (ppPage pitch.val) PP_STATUS_TRIP_POINT (s.pick (s.tripPoints pitch.val))).fg (ppPage pitch.val) PP_STATUS_TRIP_POINT =
        s.pick (s.tripPoints pitch.val) % 2 ^ PP_STATUS_TRIP_POINT.w := State.fg_fs _ _ _ _ (by decide)
    have retry : (s.tookFree.fs (ppPage pitch.val) PP_STATUS_TRIP_POINT (s.pick (s.tripPoints pitch.val))).ppCfg pitch.val PP_CFG_RETRY =
        s.ppCfg pitch.val PP_CFG_RETRY := State.ppCfg_congr rfl (point.rd (o := PP_CFG) (by decide))
    obtain ⟨state, gate, pg, cause, -, event⟩ :=
      (s.tookFree.fs (ppPage pitch.val) PP_STATUS_TRIP_POINT (s.pick (s.tripPoints pitch.val))).ppTrip_spec pitch.val 1
    have writes := (s.tookFree.fs (ppPage pitch.val) PP_STATUS_TRIP_POINT (s.pick (s.tripPoints pitch.val))).ppTrip_writes pitch.val 1
    rw [retry, point.1 PP_STATUS_ATTEMPTS (by decide)] at state
    exact ⟨_, congrArg Host.Outcome.next (if_pos ⟨on, trips⟩), ⟨state, gate, pg, cause⟩,
      (writes.1 _ (by decide)).trans shown, event, point.2.2.trans writes.2.2⟩
  · refine ⟨_, rfl, if_neg fun ⟨on, filt⟩ => ?_⟩
    rcases h with h | h
    · rw [h] at on; cases on
    · omega
  · refine ⟨_, rfl, if_neg fun ⟨on, trips⟩ => ?_⟩
    rcases h with h | h
    · rw [h] at on; cases on
    · exact trips h
  · refine ⟨_, congrArg Host.Outcome.next (if_pos st), fun free => ?_, fun held => ?_, (s.ppEnterInsert_writes ..).2.2⟩
    · rw [State.ppEnterInsert_state, free, State.ppEnterInsert_free _ _ _ free]
      exact ⟨rfl, congrArg Pwr.fast (State.pwr_setPwr ..)⟩
    · rw [State.ppEnterInsert_state, held]
      exact ⟨rfl, s.ppEnterInsert_cause _ _ held⟩
  · refine ⟨_, rfl, if_neg fun ⟨st, code⟩ => ?_⟩
    rcases h with h | h
    · exact h st
    · omega

end Sys2Proof.Machine
end

section
set_option Elab.async false
/-! Feeds, the disturbance recorder and the control link (R12, R422, R423, R441-R448). -/
namespace Sys2Proof.Machine

/-! ### The pitches after a sample and after the role -/

/-- A power page is another page than that of another pitch, and than the feeds' page. -/
theorem ppPage_ne {n m : Nat} (hn : n < 24) (hm : m < 24) (h : n ≠ m) : ppPage n ≠ ppPage m := by unfold ppPage; omega
theorem ppPage_ne_fd (n : Nat) : 0x028 ≠ ppPage n := by unfold ppPage; omega

theorem State.poleFail_fd (s : State) (n c ev : Nat) : (s.poleFail n c ev).supv.fd = s.supv.fd := by
  simp [State.poleFail, State.ppGo, State.gateOff_supv]; rfl

theorem State.ppSample_writes (s : State) (n code vout : Nat) : onlyPages [ppPage n] s (s.ppSample n code vout) ∧ (s.ppSample n code vout).supv.fd = s.supv.fd := by
  unfold State.ppSample
  have meas := ((onlyPages.refl [ppPage n] s).fs (p := ppPage n) (f := PP_MEAS_I) (v := min code 1023) (by simp)).fs (f := PP_MEAS_VOUT) (v := min vout 511) (p := ppPage n) (by simp)
  dsimp only
  split
  · exact ⟨meas.trans (State.poleFail_writes ..).2.2, State.poleFail_fd ..⟩
  split
  · exact ⟨meas.of_regs rfl, rfl⟩
  split
  · exact ⟨(((meas.of_regs rfl).fs (by simp)).fs (by simp)).of_regs rfl, rfl⟩
  · exact ⟨meas, rfl⟩

/-- The pitches' samples leave page 0x028 and the feeds. -/
theorem ppSamples_fd (l : List Nat) (g : Nat → Nat × Nat) (s : State) :
    (∀ o < 4096, (l.foldl (fun (t : State) n => t.ppSample n (g n).1 (g n).2) s).rd 0x028 o = s.rd 0x028 o) ∧
      (l.foldl (fun (t : State) n => t.ppSample n (g n).1 (g n).2) s).supv.fd = s.supv.fd := by
  induction l generalizing s with
  | nil => exact ⟨fun _ _ => rfl, rfl⟩
  | cons a l ih =>
    obtain ⟨regs, fd⟩ := ih (s.ppSample a (g a).1 (g a).2)
    obtain ⟨only, fd'⟩ := s.ppSample_writes a (g a).1 (g a).2
    exact ⟨fun o ho => (regs o ho).trans (only 0x028 o ho (by simpa using ppPage_ne_fd a)), fd.trans fd'⟩

theorem State.ppRole_writes (s : State) (n : Nat) : onlyPages [ppPage n] s (s.ppRole n) := by
  unfold State.ppRole
  exact .ite (.ite (s.ppStand_writes n).2.2 (.refl _ _)) (.ite (s.ppEnterInsert_writes n true).2.2 (.refl _ _))

/-- A pitch's page, its channel and the role are as they were. -/
def PitchKept (n : Nat) (s t : State) : Prop :=
  (∀ o < 4096, t.rd (ppPage n) o = s.rd (ppPage n) o) ∧ t.pwr n = s.pwr n ∧ t.supv.role = s.supv.role

theorem PitchKept.trans {n : Nat} {s t u : State} (h : PitchKept n s t) (h' : PitchKept n t u) : PitchKept n s u :=
  ⟨fun o ho => (h'.1 o ho).trans (h.1 o ho), h'.2.1.trans h.2.1, h'.2.2.trans h.2.2⟩

theorem State.pwr_setPwr_other (s : State) {n m : Nat} (h : n ≠ m) (x : Pwr) : (s.setPwr m x).pwr n = s.pwr n :=
  Map.getD_put_other s.supv.pwr x {} {} h

theorem State.ppStand_supv (s : State) (m : Nat) : (s.ppStand m).supv = (s.setPwr m { s.pwr m with timers := [], out := 0 }).supv := s.gateOff_supv m

theorem State.ppRole_supv (s : State) (m : Nat) :
    (s.ppRole m).supv.role = s.supv.role ∧ ∀ n, n ≠ m → (s.ppRole m).pwr n = s.pwr n := by
  have stand : (s.ppStand m).supv.role = s.supv.role ∧ ∀ n, n ≠ m → (s.ppStand m).pwr n = s.pwr n := by
    refine ⟨by rw [State.ppStand_supv]; rfl, fun n h => ?_⟩
    rw [State.pwr, State.ppStand_supv]
    exact s.pwr_setPwr_other h _
  unfold State.ppRole
  dsimp only
  split
  · split
    · exact stand
    · exact ⟨rfl, fun _ _ => rfl⟩
  · next free =>
    split
    · rw [State.ppEnterInsert_free _ _ _ (by simpa using free)]
      exact ⟨rfl, fun n h => s.pwr_setPwr_other h _⟩
    · exact ⟨rfl, fun _ _ => rfl⟩

theorem State.ppRole_other (s : State) {n m : Nat} (hn : n < 24) (hm : m < 24) (h : n ≠ m) : PitchKept n s (s.ppRole m) :=
  ⟨fun o ho => s.ppRole_writes m _ o ho (by simpa using ppPage_ne hn hm h), (s.ppRole_supv m).2 n h, (s.ppRole_supv m).1⟩

theorem ppRoles_other (l : List Nat) (s : State) {n : Nat} (hn : n < 24) (hl : ∀ m ∈ l, m < 24 ∧ n ≠ m) :
    PitchKept n s (l.foldl (fun (t : State) m => t.ppRole m) s) := by
  induction l generalizing s with
  | nil => exact ⟨fun _ _ => rfl, rfl, rfl⟩
  | cons a l ih =>
    obtain ⟨ha, hne⟩ := hl a (by simp)
    exact (s.ppRole_other hn ha hne).trans (ih _ fun m hm => hl m (by simp [hm]))

theorem State.ppRole_stand (s : State) (n : Nat) (st : 2 ≤ s.ppState n ∧ s.ppState n ≤ 7) (held : s.ppHeld n = true) :
    (s.ppRole n).ppState n = 10 ∧ (s.ppRole n).fg (ppPage n) PP_STATUS_GATE = 0 ∧ (s.ppRole n).fg (ppPage n) PP_STATUS_CAUSE = 9 := by
  have eq : s.ppRole n = s.ppStand n := (if_pos held).trans (if_pos st)
  rw [eq]
  refine ⟨State.ppState_ppGo .., ?_, ?_⟩ <;> unfold State.ppStand State.ppGo <;>
    simp (disch := decide) [State.fg_fs_apart, State.fg_fs, State.gateOff_gate]
  rfl

/-- A pitch whose channel the new role holds stands by; what is done for the others does not touch its page. -/
theorem ppRoles_stand (l : List Nat) (s : State) {n : Nat} (hn : n < 24) (mem : n ∈ l) (hl : ∀ m ∈ l, m < 24) (nodup : l.Nodup)
    (st : 2 ≤ s.ppState n ∧ s.ppState n ≤ 7) (held : s.ppHeld n = true) :
    (l.foldl (fun (t : State) m => t.ppRole m) s).ppState n = 10 ∧
      (l.foldl (fun (t : State) m => t.ppRole m) s).fg (ppPage n) PP_STATUS_GATE = 0 ∧
      (l.foldl (fun (t : State) m => t.ppRole m) s).fg (ppPage n) PP_STATUS_CAUSE = 9 := by
  obtain ⟨before, after, rfl⟩ := List.append_of_mem mem
  have apart : ∀ m ∈ before ++ after, n ≠ m := by
    rw [List.nodup_append, List.nodup_cons] at nodup
    obtain ⟨-, ⟨notAfter, -⟩, disjoint⟩ := nodup
    intro m hm e
    subst e
    rcases List.mem_append.1 hm with h | h
    · exact disjoint n h n (by simp) rfl
    · exact notAfter h
  rw [List.foldl_append, List.foldl_cons]
  obtain ⟨rd, pwr, role⟩ := ppRoles_other before s hn fun m hm => ⟨hl m (by simp [hm]), apart m (by simp [hm])⟩
  generalize before.foldl (fun (t : State) m => t.ppRole m) s = u at *
  have state : u.ppState n = s.ppState n := by simp only [State.ppState, State.fg, rd _ (show PP_STATUS_STATE.off < 4096 by decide)]
  obtain ⟨st', gate, cause⟩ := u.ppRole_stand n (state ▸ st)
    ((State.ppHeld_congr (congrArg Pwr.kept pwr) role (rd _ (by decide))).trans held)
  obtain ⟨rd', -, -⟩ := ppRoles_other after (u.ppRole n) hn fun m hm => ⟨hl m (by simp [hm]), apart m (by simp [hm])⟩
  have fields {f : Fld} (hf : f.off < 4096) : (after.foldl (fun (t : State) m => t.ppRole m) (u.ppRole n)).fg (ppPage n) f = (u.ppRole n).fg (ppPage n) f := by
    simp only [State.fg, rd' _ hf]
  exact ⟨(fields (by decide)).trans st', (fields (by decide)).trans gate, (fields (by decide)).trans cause⟩

theorem ppRoles_role (l : List Nat) (s : State) : (l.foldl (fun (t : State) m => t.ppRole m) s).supv.role = s.supv.role := by
  induction l generalizing s with
  | nil => rfl
  | cons a l ih => exact (ih _).trans (s.ppRole_supv a).1

/-! ### READY of the supervisor's pages -/

/-- A page of the supervisor die taken out of reach is not READY, and leaves no other page's READY set that was not. -/
theorem State.supOut_ready (s : State) (p : Nat) : (s.supOut p).ready p = false ∧ ∀ q, s.ready q = false → (s.supOut p).ready q = false := by
  have self : (s.supOut p).ready p = false := by
    unfold State.supOut
    split
    · exact State.setState_fb _ _ (f := PAGE_STATE_READY) (v := false)
    · next h => simpa using h
  refine ⟨self, fun q hq => ?_⟩
  by_cases h : q = p
  · rw [h, self]
  · unfold State.supOut
    split
    · have other : ((s.refuseUnready p).setState p PAGE_STATE_READY false).ready q = (s.refuseUnready p).ready q := by
        unfold State.setState
        split
        · rfl
        · simp only [State.ready, State.fb, State.fg_raise_page _ _ _ h, State.fg_fs_page _ _ _ _ h]
      rw [other]
      unfold State.refuseUnready
      split
      · have rd := State.endCommit_onlyRegs s p 3 4 0 q PAGE_STATE (by decide) (by simp [h])
        simpa only [State.ready, State.fb, State.fg, show PAGE_STATE_READY.off = PAGE_STATE from rfl, rd] using hq
      · exact hq
    · exact hq

theorem supOuts_ready (l : List Nat) (s : State) :
    (∀ q, s.ready q = false → (l.foldl State.supOut s).ready q = false) ∧ ∀ p ∈ l, (l.foldl State.supOut s).ready p = false := by
  induction l generalizing s with
  | nil => exact ⟨fun _ h => h, by simp⟩
  | cons a l ih =>
    obtain ⟨keeps, down⟩ := ih (s.supOut a)
    obtain ⟨self, other⟩ := s.supOut_ready a
    refine ⟨fun q h => keeps q (other q h), fun p hp => ?_⟩
    rcases List.mem_cons.1 hp with rfl | hp
    · exact keeps _ self
    · exact down p hp

theorem supPages_mem {p : Nat} (h : supPage p = true) : p ∈ supPages := by
  simp only [supPage, Bool.or_eq_true, Bool.and_eq_true, decide_eq_true_eq] at h
  simp only [supPages, List.mem_cons, List.mem_map, List.mem_range]
  rcases h with h | h
  · exact .inl h
  · exact .inr ⟨p - 0x030, by omega, by omega⟩

theorem State.supOut_link (s : State) (p : Nat) : (s.supOut p).supv = s.supv := by
  unfold State.supOut State.refuseUnready
  split
  · rw [State.setState_supv]; split <;> rfl
  · rfl

/-! ### Feeds -/

/-- Fields of page 0x028 that describe the feeds' selection. -/
theorem State.fdCfg_congr {s t : State} {f : Fld} (hk : t.supv.fd.kept = s.supv.fd.kept) (hr : t.rd 0x028 f.off = s.rd 0x028 f.off) :
    t.fdCfg f = s.fdCfg f := by simp only [State.fdCfg, hk, hr, State.fg]

theorem State.huUpdate_writes (s : State) : WritesFields 0x028 [FD_STATUS_HU_ACTIVE] s s.huUpdate := WritesFields.refl.fs (by decide)

theorem State.fdWant_lt (s : State) : s.fdWant < 4 := by
  unfold State.fdWant feedSel
  dsimp only
  repeat' split
  all_goals omega

/-- The fields that a change of selection writes. -/
def fdMoves : List Fld := [FD_STATUS_SEL, FD_STATUS_CHANGING, FD_STATUS_HU_ACTIVE, FD_CNT_NO_FEED]

/-- Both gates off with NO_FEED, before the hold-up follows. -/
def State.feedsOff (s : State) : State :=
  ((((s.fs 0x028 FD_STATUS_SEL 0).fs 0x028 FD_STATUS_CHANGING 0).setFeeds { s.supv.fd with dead := false }).inc 0x028 FD_CNT_NO_FEED).raise
    0x028 EV_FD_NO_FEED

theorem State.noFeed_eq (s : State) : s.noFeed = s.feedsOff.huUpdate := rfl

theorem State.feedsOff_writes (s : State) : WritesFields 0x028 fdMoves s s.feedsOff := by
  have off : WritesFields 0x028 fdMoves s (((s.fs 0x028 FD_STATUS_SEL 0).fs 0x028 FD_STATUS_CHANGING 0).setFeeds { s.supv.fd with dead := false }) :=
    ((WritesFields.refl.fs (by decide)).fs (by decide)).of_regs rfl
  unfold State.feedsOff
  generalize ((s.fs 0x028 FD_STATUS_SEL 0).fs 0x028 FD_STATUS_CHANGING 0).setFeeds { s.supv.fd with dead := false } = t at off ⊢
  exact (off.fs (by decide)).raise

theorem State.noFeed_writes (s : State) : WritesFields 0x028 fdMoves s s.noFeed :=
  s.noFeed_eq ▸ s.feedsOff_writes.trans ((State.huUpdate_writes _).mono (by decide))

theorem State.reselect_writes (s : State) : WritesFields 0x028 fdMoves s s.reselect := by
  unfold State.reselect
  refine .ite ((State.huUpdate_writes _).mono (by decide)) (.ite ?_ (.ite s.noFeed_writes ?_))
  · exact (WritesFields.refl.fs (by decide)).trans ((State.huUpdate_writes _).mono (by decide))
  · exact (((WritesFields.refl.fs (by decide)).fs (by decide)).of_regs rfl).trans ((State.huUpdate_writes _).mono (by decide))

theorem State.reselect_fdOk (s : State) (f : Feed) : s.reselect.fdOk f = s.fdOk f := by
  cases f <;> exact congrArg (· != 0) (s.reselect_writes.1 _ (by decide))

/-- With no feed connected and no dead time running the wanted one is. -/
theorem State.reselect_sel (s : State) (sel : s.fg 0x028 FD_STATUS_SEL = 0) (live : s.supv.fd.dead = false) :
    s.reselect.fg 0x028 FD_STATUS_SEL = s.fdWant := by
  unfold State.reselect
  rw [sel, live]
  dsimp only
  have hu (t : State) : t.huUpdate.fg 0x028 FD_STATUS_SEL = t.fg 0x028 FD_STATUS_SEL := t.huUpdate_writes.1 _ (by decide)
  split
  · next h =>
    rcases h with h | h
    · cases h
    · rw [hu, sel, h]
  · rw [if_pos rfl, hu, State.fg_fs _ _ _ _ (by decide)]
    exact Nat.mod_eq_of_lt s.fdWant_lt

/-- The fields that following a feed's samples writes. -/
theorem State.fdFollow_writes (s : State) (f : Feed) : WritesFields 0x028 [if f = .a then FD_STATUS_A_OK else FD_STATUS_B_OK] s (s.fdFollow f) := by
  have set (v : Bool) : WritesFields 0x028 [if f = .a then FD_STATUS_A_OK else FD_STATUS_B_OK] s (s.setFdOk f v) := by
    cases f <;> exact WritesFields.refl.fs (by decide)
  exact .ite (set true) (.ite (set false).raiseIf.raiseIf .refl)

theorem State.fdFollow_supv (s : State) (f : Feed) : (s.fdFollow f).supv = s.supv := by
  unfold State.fdFollow State.setFdOk
  split
  · cases f <;> rfl
  · split
    · rw [State.raiseIf_supv, State.raiseIf_supv]; cases f <;> rfl
    · rfl

theorem State.setFdOk_fdOk (s : State) (f : Feed) (v : Bool) : (s.setFdOk f v).fdOk f = v := by
  cases f <;> cases v <;> simp (disch := decide) [State.setFdOk, State.fdOk, State.fb, State.fg_fs, bit]

theorem State.fdFollow_other (s : State) (f : Feed) : (s.fdFollow (otherFeed f)).fdOk f = s.fdOk f := by
  have writes := s.fdFollow_writes (otherFeed f)
  cases f <;> exact congrArg (· != 0) (writes.1 _ (by decide))

theorem State.fdFollow_fg (s : State) (f : Feed) {g : Fld} (h : g.beside [FD_STATUS_A_OK, FD_STATUS_B_OK] = true) :
    (s.fdFollow f).fg 0x028 g = s.fg 0x028 g :=
  ((s.fdFollow_writes f).mono (m := [FD_STATUS_A_OK, FD_STATUS_B_OK]) (by cases f <;> decide)).1 g h

/-- The feeds' part of a sample. -/
def feedsSampled (x : SupSample) (s : State) : State :=
  let s2 := (((s.setFeeds { s.supv.fd with vbus := x.vbus, hu := x.hu }).fdSample .a x.va).fdSample .b x.vb).huSample x.hu
  (((s2.fs 0x028 FD_VFEED_LO (min x.va 511)).fs 0x028 FD_VFEED_HI (min x.vb 511)).fs 0x028 FD_VBUS_LO (min x.vbus 511)).fs 0x028 FD_VBUS_HI (min x.hu 511)

theorem supervisorSample_eq (x : SupSample) (s : State) : supervisorSample x s =
    (List.range 24).foldl (fun (t : State) n => t.ppSample n (x.pitches.getD n (0, 0)).1 (x.pitches.getD n (0, 0)).2) (feedsSampled x s) := rfl

theorem feedsSampled_fd (x : SupSample) (s : State) :
    (feedsSampled x s).supv.fd = (((s.setFeeds { s.supv.fd with vbus := x.vbus, hu := x.hu }).fdSample .a x.va).fdSample .b x.vb).supv.fd := by
  simp only [feedsSampled, State.huSample, State.fs_supv, State.raiseIf_supv]

theorem State.huSample_supv (s : State) (hu : Nat) : (s.huSample hu).supv = s.supv := by
  simp only [State.huSample, State.raiseIf_supv]; rfl

theorem supervisorSample_spec (s : State) (x : SupSample) :
    completes (.supervisorSample x) s fun t =>
      (t.fg 0x028 FD_VFEED_LO = min x.va 511 ∧ t.fg 0x028 FD_VFEED_HI = min x.vb 511 ∧ t.fg 0x028 FD_VBUS_LO = min x.vbus 511 ∧ t.fg 0x028 FD_VBUS_HI = min x.hu 511) ∧
      (t.supv.fd.vbus = x.vbus ∧ t.supv.fd.a.v = x.va ∧ t.supv.fd.b.v = x.vb) ∧
      (t.supv.fd.a.out = if x.va < s.fdUv .a ∨ s.fdOv .a < x.va then s.supv.fd.a.out + 1 else 0) ∧
      (t.supv.fd.b.inside = if s.fdUv .b + 5 ≤ x.vb ∧ x.vb + 5 ≤ s.fdOv .b then s.supv.fd.b.inside + 1 else 0) := by
  refine ⟨supervisorSample x s, rfl, ?_⟩
  obtain ⟨regs, fd⟩ := ppSamples_fd (List.range 24) (fun n => x.pitches.getD n (0, 0)) (feedsSampled x s)
  rw [supervisorSample_eq]
  generalize (List.range 24).foldl _ (feedsSampled x s) = t at regs fd ⊢
  have fields {f : Fld} (hf : f.off < 4096) : t.fg 0x028 f = (feedsSampled x s).fg 0x028 f := by simp only [State.fg, regs _ hf]
  rw [fields (by decide), fields (by decide), fields (by decide), fields (by decide), fd, feedsSampled_fd]
  have small (v : Nat) : min v 511 % 512 = min v 511 := Nat.mod_eq_of_lt (by omega)
  refine ⟨?_, ⟨rfl, rfl, rfl⟩, rfl, ?_⟩
  · simp (disch := decide) only [feedsSampled, State.fg_fs, State.fg_fs_apart]
    exact ⟨small _, small _, small _, small _⟩
  · have uv : ((s.setFeeds { s.supv.fd with vbus := x.vbus, hu := x.hu }).fdSample .a x.va).fdUv .b = s.fdUv .b :=
      State.fdCfg_congr rfl (State.rd_fs_off _ _ _ (by decide))
    have ov : ((s.setFeeds { s.supv.fd with vbus := x.vbus, hu := x.hu }).fdSample .a x.va).fdOv .b = s.fdOv .b :=
      State.fdCfg_congr rfl (State.rd_fs_off _ _ _ (by decide))
    rw [← uv, ← ov]
    rfl

/-- The two feeds of a sample followed, and the selection with them. -/
theorem State.fdFollowed_spec (s : State) (f : Feed) :
    (((s.fdFollow f).fdFollow (otherFeed f)).reselect.fdOk f = (s.fdFollow f).fdOk f) ∧
      (∀ b, (s.fdFollow f).event 0x028 b = true → ((s.fdFollow f).fdFollow (otherFeed f)).reselect.event 0x028 b = true) ∧
      onlyPages [0x028] s ((s.fdFollow f).fdFollow (otherFeed f)).reselect := by
  have other := (s.fdFollow f).fdFollow_writes (otherFeed f)
  have sel := ((s.fdFollow f).fdFollow (otherFeed f)).reselect_writes
  exact ⟨by rw [State.reselect_fdOk, State.fdFollow_other], fun b h => sel.2.1 b (other.2.1 b h),
    ((s.fdFollow_writes f).2.2.trans other.2.2).trans sel.2.2⟩

theorem feedQualified_spec (s : State) (f : Feed) (no : s.fdOk f = false) (inside : s.fdCfg FD_TIMING_QUAL * 1000 ≤ (s.feed f).inside) :
    completes (.feedQualified f) s fun t =>
      t.fdOk f = true ∧
      ((s.fg 0x028 FD_STATUS_SEL = 0 ∧ s.supv.fd.dead = false) → t.fg 0x028 FD_STATUS_SEL = ((s.setFdOk f true).fdFollow (otherFeed f)).fdWant) ∧
      onlyPages [0x028] s t := by
  have gains : s.fdGains f = true := by simp [State.fdGains, no, inside]
  have set : s.fdFollow f = s.setFdOk f true := if_pos gains
  obtain ⟨ok, -, only⟩ := s.fdFollowed_spec f
  refine ⟨_, congrArg Host.Outcome.next (if_pos gains), ?_, fun ⟨sel, live⟩ => ?_, only⟩
  · rw [ok, set, State.setFdOk_fdOk]
  · rw [← set, State.reselect_sel]
    · rw [State.fdFollow_fg _ _ (by decide), State.fdFollow_fg _ _ (by decide), sel]
    · rw [State.fdFollow_supv, State.fdFollow_supv, live]

theorem State.raiseIf_fdOk (s : State) (c : Bool) (b : Nat) (f : Feed) : (s.raiseIf c 0x028 b).fdOk f = s.fdOk f := by
  cases c with
  | false => rfl
  | true => cases f <;> exact congrArg (· != 0) (State.fg_raise_off s 0x028 (by decide))

theorem State.event_raiseIf (s : State) {c : Bool} (h : c = true) {b : Nat} (hb : b < 32) : (s.raiseIf c 0x028 b).event 0x028 b = true := by
  subst h; exact State.event_raise _ _ hb

theorem State.raiseIf_event (s : State) (c : Bool) {b k : Nat} (h : s.event 0x028 k = true) : (s.raiseIf c 0x028 b).event 0x028 k = true := by
  cases c with
  | false => exact h
  | true => exact State.event_raise_keeps _ _ _ h

theorem feedLost_spec (s : State) (f : Feed) (ok : s.fdOk f = true)
    (lost : s.fdOv f < (s.feed f).v ∨ s.fdCfg FD_TIMING_FILT ≤ (s.feed f).out) :
    completes (.feedLost f) s fun t =>
      t.fdOk f = false ∧
      (s.fg 0x028 FD_STATUS_SEL = feedSel f → t.event 0x028 EV_FD_FEED_LOST = true) ∧
      (s.fdOv f < (s.feed f).v → t.event 0x028 EV_FD_FEED_OV = true) ∧
      onlyPages [0x028] s t := by
  have loses : s.fdLoses f = true := by simpa [State.fdLoses, ok] using lost
  have set : s.fdFollow f = ((s.setFdOk f false).raiseIf (decide (s.fdOv f < (s.feed f).v)) 0x028 EV_FD_FEED_OV).raiseIf
      (decide (s.fg 0x028 FD_STATUS_SEL = feedSel f)) 0x028 EV_FD_FEED_LOST := (if_neg (by simp [State.fdGains, ok])).trans (if_pos loses)
  obtain ⟨off, events, only⟩ := s.fdFollowed_spec f
  refine ⟨_, congrArg Host.Outcome.next (if_pos loses), ?_, fun sel => events _ ?_, fun above => events _ ?_, only⟩
  · rw [off, set, State.raiseIf_fdOk, State.raiseIf_fdOk, State.setFdOk_fdOk]
  · rw [set]
    exact State.event_raiseIf _ (decide_eq_true sel) (by decide)
  · rw [set]
    exact State.raiseIf_event _ _ (State.event_raiseIf _ (decide_eq_true above) (by decide))

theorem changeoverDeadEnd_connects (s : State) (dead : s.supv.fd.dead = true) (want : s.fdWant ≠ 0) :
    completes .changeoverDeadEnd s fun t =>
      t.fg 0x028 FD_STATUS_SEL = s.fdWant ∧ t.supv.fd.dead = false ∧ onlyRegs [(0x028, FD_STATUS)] s t := by
  refine ⟨_, congrArg Host.Outcome.next ((if_pos dead).trans (if_neg want)), ?_, rfl, ?_⟩
  · simp (disch := decide) only [State.huUpdate, State.fg_fs_apart, State.fg_setFeeds, State.fg_fs]
    exact Nat.mod_eq_of_lt s.fdWant_lt
  · exact (((onlyRegs.refl _ s).fs (by decide) (by decide)).of_regs rfl).fs (by decide) (by decide)

theorem changeoverDeadEnd_none (s : State) (dead : s.supv.fd.dead = true) (want : s.fdWant = 0) :
    completes .changeoverDeadEnd s fun t =>
      (t.fg 0x028 FD_STATUS_SEL = 0 ∧ t.fg 0x028 FD_STATUS_CHANGING = 0) ∧ t.supv.fd.dead = false ∧
      t.fg 0x028 FD_CNT_NO_FEED = min (s.fg 0x028 FD_CNT_NO_FEED + 1) (2 ^ FD_CNT_NO_FEED.w - 1) ∧
      t.event 0x028 EV_FD_NO_FEED = true ∧ onlyPages [0x028] s t := by
  refine ⟨s.noFeed, congrArg Host.Outcome.next ((if_pos dead).trans (if_pos want)), ?_, ?_, ?_, ?_, s.noFeed_writes.2.2⟩
  · simp (disch := decide) [State.noFeed, State.huUpdate, State.fg_fs_apart, State.fg_raise_off, State.inc_eq_fs, State.fg_fs]
  · simp [State.noFeed, State.huUpdate]; rfl
  · simp (disch := decide) [State.noFeed, State.huUpdate, State.fg_fs_apart, State.fg_raise_off, State.fg_inc]
  · exact (State.huUpdate_writes _).2.1 _ (State.event_raise _ _ (by decide))

theorem changeoverEnd_spec (s : State) (live : s.supv.fd.dead = false) (changing : s.fb 0x028 FD_STATUS_CHANGING = true) :
    completes .changeoverEnd s fun t =>
      t.fg 0x028 FD_STATUS_CHANGING = 0 ∧
      t.fg 0x028 FD_CNT_CHANGEOVERS = min (s.fg 0x028 FD_CNT_CHANGEOVERS + 1) (2 ^ FD_CNT_CHANGEOVERS.w - 1) ∧
      t.event 0x028 EV_FD_CHANGEOVER = true ∧
      onlyRegs [(0x028, FD_STATUS), (0x028, FD_CNT), (0x028, EVT_STATUS)] s t := by
  refine ⟨_, congrArg Host.Outcome.next (if_pos ⟨changing, live⟩), ?_, ?_, ?_, ?_⟩
  · simp (disch := decide) [State.huUpdate, State.fg_fs_apart, State.fg_raise_off, State.inc_eq_fs, State.fg_fs]
  · simp (disch := decide) [State.huUpdate, State.fg_fs_apart, State.fg_raise_off, State.fg_inc]
  · exact (State.huUpdate_writes _).2.1 _ (State.event_raise _ _ (by decide))
  · exact ((((onlyRegs.refl _ s).fs (by decide) (by decide)).inc (by decide) (by decide)).raise (by decide)).fs (by decide) (by decide)

/-! ### The recorder -/

theorem distWord_top (s : State) (f : Feed) (d : Disturb) : (s.distWord f d).getLsbD 31 = true := by
  unfold State.distWord
  simp [Nat.testBit_or]

theorem disturbanceEnd_spec (s : State) (f : Feed) (d : Disturb) (dist : (s.feed f).dist = some d) (last : d.last + 1000 ≤ d.n)
    (next : s.gs.distNext < 64) :
    completes (.disturbanceEnd f) s fun t =>
      t.rd 0 (0x200 + 8 * s.gs.distNext) = BitVec.ofNat 32 (d.aon / 32) ∧
      (t.rd 0 (0x204 + 8 * s.gs.distNext)).getLsbD 31 = true ∧
      t.gs.distNext = (s.gs.distNext + 1) % 64 ∧ (t.feed f).dist = none ∧ t.event 0x028 EV_FD_DISTURB = true := by
  refine ⟨disturbanceEnd f s, rfl, ?_⟩
  unfold disturbanceEnd
  simp only [dist, if_neg (show ¬ d.n < d.last + 1000 by omega)]
  have apart : regKey 0 (0x200 + 8 * s.gs.distNext) ≠ regKey 0 (0x204 + 8 * s.gs.distNext) := by unfold regKey; omega
  refine ⟨?_, ?_, trivial, ?_, State.event_raise _ _ (by decide)⟩
  · rw [State.rd_mk, State.rd_raise_page _ _ _ (by decide), State.rd_wr, if_neg apart, State.rd_wr_same]
  · rw [State.rd_mk, State.rd_raise_page _ _ _ (by decide), State.rd_wr_same]
    exact distWord_top ..
  · cases f <;> simp [State.feed, State.setFeed, State.setFeeds]

theorem disturbEntryRead_spec (s : State) (who : Initiator) (e : Fin 64) (reach : s.reach who 0 (0x200 + 8 * e.val) = rspOk) :
    completes (.disturbEntryRead who e) s fun t =>
      t.ansOf who = ⟨rspOk, s.rd 0 (0x200 + 8 * e.val), none⟩ ∧
      t.gs.distLatch = some (e.val, s.rd 0 (0x204 + 8 * e.val)) ∧
      onlyRegs [(0x01C, EVT_STATUS)] s t := by
  have rd (o : Nat) : (s.touch who true).rd 0 o = s.rd 0 o := State.rd_touch _ _ _ _ _ (regKey_ne_of_page (by decide) _ _)
  refine completes_read rfl reach ⟨?_, ?_, onlyRegs.touch ((onlyRegs.refl _ _).of_regs rfl)⟩
  · rw [State.ansOf_answer]
    simp only [distRead, rd, if_true]
  · simp only [distRead, rd]
    rfl

theorem supOuts_supv (l : List Nat) (s : State) : (l.foldl State.supOut s).supv = s.supv := by
  induction l generalizing s with
  | nil => rfl
  | cons p l ih => exact (ih _).trans (s.supOut_link p)

theorem State.raise_ready (s : State) (p b q : Nat) : (s.raise p b).ready q = s.ready q := by
  by_cases e : q = p
  · subst e; exact congrArg (· != 0) (s.fg_raise_off q (by decide))
  · exact congrArg (· != 0) (s.fg_raise_page p q e)

/-- Settles O54: a sample, a role and a change of selection keep to their pages, and the link's loss takes READY page by page. -/
theorem feedsRecorderAndControlLink : Obligations.FeedsRecorderAndControlLink := by
  unfold Obligations.FeedsRecorderAndControlLink
  refine ⟨supervisorSample_spec, feedQualified_spec, feedLost_spec, fun s f h => ?_, fun s f h => ?_, changeoverDeadEnd_connects,
    changeoverDeadEnd_none, fun s dead => ⟨_, rfl, if_neg (by simp [dead])⟩, fun s h => ?_, changeoverEnd_spec, disturbanceEnd_spec,
    fun s f h => ?_, disturbEntryRead_spec, fun s w ws q link => ?_, fun s h => ?_, fun s link => ⟨_, rfl, if_neg (by simp [link])⟩,
    fun s link => ?_, fun s link => ?_, fun s link => ⟨_, rfl, if_pos (by simp [link])⟩, fun s => ⟨_, rfl, rfl⟩, fun s ok => ?_⟩
  · refine ⟨_, rfl, if_neg ?_⟩
    rcases h with h | h <;> simp [State.fdGains, h]
  · refine ⟨_, rfl, if_neg ?_⟩
    rcases h with h | ⟨h, h'⟩ <;> simp [State.fdLoses, *]
  · refine ⟨_, rfl, if_neg fun ⟨changing, live⟩ => ?_⟩
    rcases h with h | h
    · rw [h] at live; cases live
    · rw [h] at changing; cases changing
  · refine ⟨disturbanceEnd f s, rfl, ?_⟩
    unfold disturbanceEnd
    split
    · rfl
    · next d hd =>
      rw [hd] at h
      exact if_pos (of_decide_eq_true h)
  · refine ⟨_, rfl, ?_⟩
    simp [q, link]
  · refine ⟨_, rfl, ?_⟩
    rcases h with h | h
    · simp [h]
    · dsimp only; split
      · exact if_neg (by simp [h])
      · rfl
  · refine ⟨_, congrArg Host.Outcome.next (if_pos link), ppRoles_role .., fun n hn ⟨low, high, held⟩ => ?_⟩
    exact ppRoles_stand (List.range 24) _ hn (by simpa using hn) (by simp) List.nodup_range ⟨low, high⟩ held
  · refine ⟨_, congrArg Host.Outcome.next (if_neg (by simp [link])), ?_, State.event_raise _ _ (by decide), fun p hp => ?_⟩
    · rw [State.raise_supv, supOuts_supv]
    · rw [State.raise_ready]
      exact (supOuts_ready supPages _).2 p (supPages_mem hp)
  · refine ⟨_, rfl, fun ⟨good, link⟩ => ?_, fun bad => ?_⟩
    · simp [good, link]
    · simp only [bad, Bool.not_false, if_true]
      exact ⟨State.event_raise _ _ (by decide), State.raise_supv ..⟩

end Sys2Proof.Machine
end

section
set_option Elab.async false
namespace Sys2Proof.Machine

/-! ### A PLL whose island holds the wear unit itself (R485) -/

/-- The island of page 0x005 is up on PLL 10, whose spare is not locked. -/
def wearIslandUp : State := { isl := [(36, { rel := true })], pll := [(10, true)] }

/-- The island's reset takes the event with the page. -/
theorem pllLockLoss_clears_event : (match exec (.pllLockLoss 10 false) wearIslandUp with
    | .next t => t.event 0x005 EV_WR_PLL_BOTH_LOST
    | _ => true) = false := by decide +kernel

/-- Refutes O56: with the PLL of the wear unit's island and its spare both lost, the island's reset clears EVT_STATUS of page 0x005. -/
theorem not_faultsAndWear : ¬ Obligations.FaultsAndWear := by
  rintro ⟨-, -, -, -, -, -, -, -, -, -, -, -, -, -, -, -, -, -, -, -, -, -, -, -, -, -, -, -, -, -, -, -, -, -, -, -, -, -, lost, -⟩
  obtain ⟨t, e, -, -, -, -, both⟩ := lost wearIslandUp 10 false
  have cleared := pllLockLoss_clears_event
  rw [e] at cleared
  exact absurd (both (.inr (by decide +kernel))) (by simp [cleared])

end Sys2Proof.Machine
end

section
set_option Elab.async false
namespace Sys2Proof.Machine

/-! ### Answers and touches leave the canopy's contents (R347) -/

@[simp] theorem State.finish_scan (s : State) (who : Initiator) (r : Nat) (d : Word) : (s.finish who r d).scan = s.scan := by
  cases who <;> rfl

@[simp] theorem State.finish_regs (s : State) (who : Initiator) (r : Nat) (d : Word) : (s.finish who r d).regs = s.regs := by
  cases who <;> rfl

@[simp] theorem State.ansOf_finish (s : State) (who : Initiator) (r : Nat) (d : Word) :
    (s.finish who r d).ansOf who = ⟨r, if r = rspOk then d else 0, none⟩ := by
  cases who <;> exact State.ansOf_answer ..

theorem State.touch_scan (s : State) (who : Initiator) (r : Bool) :
    (s.touch who r).scan = { s.scan with packs := (s.touch who r).scan.packs, snaps := (s.touch who r).scan.snaps } := by
  unfold State.touch State.endPack
  cases r
  · simp only [Bool.false_eq_true, if_false]
    split <;> simp
  · simp only [if_true, State.endSnap]
    split <;> simp

@[simp] theorem State.touch_vis (s : State) (who : Initiator) (r : Bool) : (s.touch who r).scan.vis = s.scan.vis := by
  have e := congrArg ScanSt.vis (s.touch_scan who r)
  exact e

@[simp] theorem State.touch_hid (s : State) (who : Initiator) (r : Bool) : (s.touch who r).scan.hid = s.scan.hid := by
  have e := congrArg ScanSt.hid (s.touch_scan who r)
  exact e

@[simp] theorem State.touch_held (s : State) (who : Initiator) (r : Bool) : (s.touch who r).scan.held = s.scan.held := by
  have e := congrArg ScanSt.held (s.touch_scan who r)
  exact e

@[simp] theorem State.touch_waits (s : State) (who : Initiator) (r : Bool) : (s.touch who r).scan.waits = s.scan.waits := by
  have e := congrArg ScanSt.waits (s.touch_scan who r)
  exact e

theorem State.touch_copyBad (s : State) (who : Initiator) (r : Bool) (ck : Nat) : (s.touch who r).copyBad ck = s.copyBad ck := by
  unfold State.copyBad
  rw [s.touch_scan]

theorem State.touch_copyKey (s : State) (who : Initiator) (r : Bool) (k : Nat) (flip : Bool) :
    (s.touch who r).copyKey k flip = s.copyKey k flip := by
  unfold State.copyKey
  rw [s.touch_scan]

@[simp] theorem State.touch_grpVis (s : State) (who : Initiator) (r : Bool) (k : Nat) : (s.touch who r).grpVis k = s.grpVis k := by
  simp [State.grpVis]

@[simp] theorem State.touch_grpNew (s : State) (who : Initiator) (r : Bool) (k : Nat) : (s.touch who r).grpNew k = s.grpNew k := by
  simp [State.grpNew]

/-- What is not a read of the initiator leaves its snapshot. -/
theorem State.touch_write_snaps (s : State) (who : Initiator) : (s.touch who false).scan.snaps = s.scan.snaps := by
  simp only [State.touch, State.endPack, Bool.false_eq_true, if_false]
  split
  · rw [State.raise_scan]
  · rfl

/-- An initiator that is collecting no pack gives none up. -/
theorem State.touch_write_idle {s : State} {who : Initiator} (h : s.scan.packs.getD who.idx none = none) : s.touch who false = s := by
  simp [State.touch, State.endPack, h]

theorem State.touch_guarding (s : State) (who : Initiator) (r : Bool) :
    (s.touch who r).fb 0x01C SC_STATUS_GUARDING = s.fb 0x01C SC_STATUS_GUARDING :=
  congrArg (· != 0) (s.fg_touch who r 0x01C SC_STATUS_GUARDING (by decide))

/-! ### Groups written (R347) -/

theorem State.grpNew_grpPut (s : State) (k : Nat) (mask v : BitVec 96) :
    (s.grpPut k mask v).grpNew k = (s.grpNew k &&& ~~~ mask) ||| (v &&& mask) := by
  unfold State.grpPut State.grpNew State.grpVis
  dsimp only
  split <;> split <;> first | split | skip
  all_goals simp [Map.getD_erase_same]

/-- A write of a latched input's group takes no grain. -/
theorem State.canWrite_latched (s : State) (who : Initiator) {img : Image} {m : Nat} (h : img = .input ∧ m < 96) (mask v : BitVec 96)
    (req : Option Frame) : s.canWrite who img m mask v req = (s, some (rspOk, 0)) := by
  obtain ⟨rfl, hm⟩ := h
  simp [State.canWrite, State.softPut, hm]

/-- In the guard a write waits with its access. -/
theorem State.canWrite_guarding {s : State} (who : Initiator) {img : Image} {m : Nat} (h : ¬(img = .input ∧ m < 96))
    (g : s.fb 0x01C SC_STATUS_GUARDING = true) (mask v : BitVec 96) (req : Option Frame) :
    s.canWrite who img m mask v req =
      ({ s with scan := { s.scan with held := s.scan.held ++ [(grpKey img m, mask, v)], waits := s.scan.waits ++ [(who, req)] } }, none) := by
  have open_ : (s.fb 0x01C SC_STATUS_GUARDING && !(decide (img = .input) && decide (m < 96))) = true := by
    rcases Decidable.not_and_iff_or_not.1 h with h | h <;> simp [g, h]
  simp only [State.canWrite, State.softPut, if_neg h, if_pos g, if_pos open_]

theorem State.canWrite_made {s : State} (who : Initiator) {img : Image} {m : Nat} (h : ¬(img = .input ∧ m < 96))
    (g : s.fb 0x01C SC_STATUS_GUARDING = false) (mask v : BitVec 96) (req : Option Frame) :
    s.canWrite who img m mask v req = (s.grpPut (grpKey img m) mask v, some (rspOk, 0)) := by
  simp [State.canWrite, State.softPut, if_neg h, g]

/-! ### The local map (R23) -/

theorem State.localAccess_spread {s : State} (who : Initiator) (img : Image) {w : Nat} (write : Bool) (data : Word) (be : BitVec 4)
    (req : Option Frame) (hw : w < 16384) (br : s.ready 0x020 = true) :
    s.localAccess who (mapSpread img + 4 * w) write data be req = s.spreadAccess who img w write data be req := by
  cases img
  all_goals
    simp only [State.localAccess, mapSpread, mapScratch, br, if_true, Bool.and_eq_true, decide_eq_true_eq, Bool.not_true, Bool.false_eq_true,
      if_false, reduceCtorEq]
    rw [if_neg (by omega), if_neg (by omega)]
  · rw [if_pos (by omega), if_neg (by omega)]
    congr 1; omega
  · rw [if_neg (by omega), if_pos (by omega), if_neg (by omega)]
    congr 1; omega

theorem State.localAccess_packed {s : State} (who : Initiator) (img : Image) {m j : Nat} (write : Bool) (data : Word) (be : BitVec 4)
    (req : Option Frame) (hm : m < 4096) (hj : j < 3) (br : s.ready 0x020 = true) :
    s.localAccess who (mapPacked img + 12 * m + 4 * j) write data be req =
      if write then s.packWrite who img m j data be req else s.packRead who img m j := by
  cases img
  all_goals
    simp only [State.localAccess, mapSpread, mapPacked, mapScratch, br, if_true, Bool.and_eq_true, decide_eq_true_eq, Bool.not_true,
      Bool.false_eq_true, if_false, reduceCtorEq]
    rw [if_neg (by omega), if_neg (by omega), if_neg (by omega), if_neg (by omega)]
  · rw [if_pos (by omega), if_neg (by omega), show (33685504 + 12 * m + 4 * j - 33685504) / 4 = 3 * m + j by omega,
      show (3 * m + j) / 3 = m by omega, show (3 * m + j) % 3 = j by omega]
  · rw [if_neg (by omega), if_pos (by omega), if_neg (by omega), show (33751040 + 12 * m + 4 * j - 33751040) / 4 = 3 * m + j by omega,
      show (3 * m + j) / 3 = m by omega, show (3 * m + j) % 3 = j by omega]

/-- Above the registers the bridge answers alone while it is not READY. -/
theorem State.localAccess_notReady {s : State} (who : Initiator) {off : Nat} (write : Bool) (data : Word) (be : BitVec 4) (req : Option Frame)
    (h : 2 ^ 24 ≤ off) (br : s.ready 0x020 = false) : s.localAccess who off write data be req = (s, some (rspNotReady, 0)) := by
  simp only [State.localAccess, if_neg (Nat.not_lt.2 h), br, Bool.not_false, if_true]

theorem mapSpread_ge (img : Image) (n : Nat) : 2 ^ 24 ≤ mapSpread img + n := by cases img <;> simp only [mapSpread, if_true, reduceCtorEq, if_false] <;> omega
theorem mapPacked_ge (img : Image) (n : Nat) : 2 ^ 24 ≤ mapPacked img + n := by cases img <;> simp only [mapPacked, if_true, reduceCtorEq, if_false] <;> omega

/-! ### The spread views -/

theorem exec_canopyWrite {s : State} (who : Initiator) (img : Image) {word : Nat} (data : Word) (be : BitVec 4) (hw : word < 16384)
    (br : s.ready 0x020 = true) (sc : s.ready 0x01C = true) : exec (.canopyWrite who img word data be) s =
      .next (State.answered who ((s.touch who false).canWrite who img (word / 4) (spreadMask word be) (spreadVal word data) none)) := by
  refine congrArg (fun x => Host.Outcome.next (State.answered who x))
    ((if_pos hw).trans ((State.localAccess_spread who img true data be none hw br).trans ?_))
  simp [State.spreadAccess, sc]

theorem canopyWrite_takes (s : State) (who : Initiator) (img : Image) (word : Nat) (data : Word) (be : BitVec 4) (hw : word < 16384)
    (rdy : s.ready 0x020 = true ∧ s.ready 0x01C = true) (free : ¬(img = .input ∧ word / 4 < 96)) :
    completes (.canopyWrite who img word data be) s fun t =>
      (s.fb 0x01C SC_STATUS_GUARDING = false → t.grpNew (grpKey img (word / 4)) =
        (s.grpNew (grpKey img (word / 4)) &&& ~~~ spreadMask word be) ||| (spreadVal word data &&& spreadMask word be)) ∧
      (s.fb 0x01C SC_STATUS_GUARDING = false → (t.ansOf who).rsp = rspOk) ∧
      (s.fb 0x01C SC_STATUS_GUARDING = true →
        t.scan.held = s.scan.held ++ [(grpKey img (word / 4), spreadMask word be, spreadVal word data)] ∧
        t.scan.waits = s.scan.waits ++ [(who, none)] ∧ t.scan.vis = s.scan.vis) := by
  have guard := s.touch_guarding who false
  refine ⟨_, exec_canopyWrite who img data be hw rdy.1 rdy.2, fun g => ?_, fun g => ?_, fun g => ?_⟩
  · rw [State.canWrite_made who free (guard.trans g)]
    simp only [State.answered, State.grpNew, State.grpVis, State.finish_scan]
    exact (State.grpNew_grpPut ..).trans (by rw [State.touch_grpNew]; rfl)
  · rw [State.canWrite_made who free (guard.trans g)]
    simp only [State.answered, State.ansOf_finish]
  · rw [State.canWrite_guarding who free (guard.trans g)]
    simp only [State.answered, State.touch_held, State.touch_waits, State.touch_vis, and_self]

theorem canopyWrite_refused (s : State) (who : Initiator) (img : Image) (word : Nat) (data : Word) (be : BitVec 4) :
    completes (.canopyWrite who img word data be) s fun t =>
      (16384 ≤ word → (t.ansOf who).rsp = rspUnmapped ∧ t.scan.vis = s.scan.vis ∧ t.scan.hid = s.scan.hid) ∧
      (word < 16384 → s.ready 0x020 = false ∨ s.ready 0x01C = false →
        (t.ansOf who).rsp = rspNotReady ∧ t.scan.vis = s.scan.vis ∧ t.scan.hid = s.scan.hid) ∧
      (word < 16384 → s.ready 0x020 = true → s.ready 0x01C = true → img = .input → word / 4 < 96 →
        (t.ansOf who).rsp = rspOk ∧ t.scan.vis = s.scan.vis ∧ t.scan.hid = s.scan.hid) := by
  refine ⟨_, rfl, fun h => ?_, fun hw h => ?_, fun hw br sc hi hm => ?_⟩
  · rw [if_neg (Nat.not_lt.2 h)]
    simp [State.answered]
  · rw [if_pos hw]
    cases br : s.ready 0x020 with
    | false =>
      rw [State.localAccess_notReady who true data be none (mapSpread_ge ..) br]
      simp [State.answered]
    | true =>
      have sc : s.ready 0x01C = false := h.resolve_left (by simp [br])
      rw [State.localAccess_spread who img true data be none hw br]
      simp [State.answered, State.spreadAccess, sc]
  · rw [if_pos hw, State.localAccess_spread who img true data be none hw br]
    simp [State.answered, State.spreadAccess, sc, State.canWrite_latched _ who ⟨hi, hm⟩]

/-! ### The packed views (R26, R27) -/

@[simp] theorem State.grpPut_packs (s : State) (k : Nat) (mask v : BitVec 96) : (s.grpPut k mask v).scan.packs = s.scan.packs := by
  unfold State.grpPut
  dsimp only
  split <;> split <;> first | split | skip
  all_goals simp [State.errClear]

@[simp] theorem State.copyRead_scan (s : State) (ck : Nat) : (s.copyRead ck).scan = s.scan := by
  unfold State.copyRead
  split
  · simp
  · split <;> simp

/-- The state in which a packed access goes on: as it was, or with another group's pack given up. -/
theorem State.packFor_fst (s : State) (who : Initiator) (img : Image) (m : Nat) :
    (s.packFor who img m).1 = s ∨ (s.packFor who img m).1 = s.touch who false := by
  unfold State.packFor
  split
  · split
    · exact .inl rfl
    · exact .inr rfl
  · exact .inl rfl

theorem State.packFor_idle {s : State} {who : Initiator} (h : s.scan.packs.getD who.idx none = none) (img : Image) (m : Nat) :
    s.packFor who img m = (s, { img := img, group := m }) := by
  simp [State.packFor, h]

/-- Giving up another group's pack leaves what a packed access reads. -/
theorem State.packFor_reads (s : State) (who : Initiator) (img : Image) (m : Nat) : let u := (s.packFor who img m).1
    (∀ p, u.ready p = s.ready p) ∧ u.scan.vis = s.scan.vis ∧ u.scan.hid = s.scan.hid ∧ u.scan.snaps = s.scan.snaps ∧
      (∀ k flip, u.copyBad (u.copyKey k flip) = s.copyBad (s.copyKey k flip)) := by
  intro u
  rcases s.packFor_fst who img m with h | h <;> simp only [u, h, implies_true, and_self]
  simp [State.touch_write_snaps, State.touch_copyKey, State.touch_copyBad]

/-- A pack of another group has been given up by then. -/
theorem State.packFor_settled (s : State) (who : Initiator) (img : Image) (m : Nat) : let u := (s.packFor who img m).1
    (match u.scan.packs.getD who.idx none with
      | some k => if k.img = img ∧ k.group = m then u else u.touch who false
      | none => u) = u := by
  intro u
  rcases h : s.scan.packs.getD who.idx none with _ | k
  · have e : u = s := by simp [u, State.packFor, h]
    simp [e, h]
  · by_cases same : k.img = img ∧ k.group = m
    · have e : u = s := by simp [u, State.packFor, h, same]
      simp [e, h, same]
    · have e : u = s.touch who false := by simp [u, State.packFor, h, same]
      have none_ : (s.touch who false).scan.packs.getD who.idx none = none := by simp [State.touch, State.endPack, h]
      simp [e, none_]

theorem exec_packedWrite {s : State} (who : Initiator) (img : Image) {group : Nat} (word : Fin 3) (data : Word) (be : BitVec 4)
    (hg : group < 4096) (br : s.ready 0x020 = true) : exec (.canopyPackedWrite who img group word data be) s =
      .next (State.answered who (s.packWrite who img group word.val data be none)) :=
  congrArg (fun x => Host.Outcome.next (State.answered who x))
    ((if_pos hg).trans (State.localAccess_packed who img true data be none hg word.isLt br))

theorem packedWrite_first (s : State) (who : Initiator) (img : Image) (group : Nat) (word : Fin 3) (data : Word) (be : BitVec 4) :
    completes (.canopyPackedWrite who img group word data be) s fun t =>
      (4096 ≤ group → (t.ansOf who).rsp = rspUnmapped) ∧
      (group < 4096 → s.ready 0x020 = false ∨ s.ready 0x01C = false → (t.ansOf who).rsp = rspNotReady) ∧
      ((group < 4096 ∧ s.ready 0x020 = true ∧ s.ready 0x01C = true ∧ s.scan.packs.getD who.idx none = none) →
        (t.ansOf who).rsp = rspOk ∧ t.scan.vis = s.scan.vis ∧ t.scan.hid = s.scan.hid) ∧
      ((group < 4096 ∧ s.ready 0x020 = true ∧ s.ready 0x01C = true ∧ s.scan.packs.getD who.idx none = none) →
        ((t.scan.packs.getD who.idx none).map fun k => k.got) = some (setBit 0 word.val true)) := by
  have begun (h : group < 4096 ∧ s.ready 0x020 = true ∧ s.ready 0x01C = true ∧ s.scan.packs.getD who.idx none = none) :
      ∃ k : Pack, k.got = setBit 0 word.val true ∧
        (if group < 4096 then s.localAccess who (mapPacked img + 12 * group + 4 * word.val) true data be none
          else (s.touch who false, some (rspUnmapped, 0))) =
        ({ s with scan := { s.scan with packs := s.scan.packs.put who.idx (some k) none } }, some (rspOk, 0)) := by
    obtain ⟨hg, br, sc, idle⟩ := h
    have more : setBit 0 word.val true ≠ 7 := by revert word; decide
    rw [if_pos hg, State.localAccess_packed who img true data be none hg word.isLt br]
    simp only [if_true, State.packWrite, State.packFor_idle idle, sc, Bool.not_true, Bool.false_eq_true, if_false, if_neg more]
    refine ⟨_, ?_, rfl⟩
    rfl
  refine ⟨_, rfl, fun h => ?_, fun hg h => ?_, fun h => ?_, fun h => ?_⟩
  · rw [if_neg (Nat.not_lt.2 h)]
    simp [State.answered]
  · rw [if_pos hg]
    cases br : s.ready 0x020 with
    | false =>
      rw [State.localAccess_notReady who true data be none (by rw [Nat.add_assoc]; exact mapPacked_ge ..) br]
      simp [State.answered]
    | true =>
      have sc : ((s.packFor who img group).1).ready 0x01C = false :=
        ((s.packFor_reads who img group).1 _).trans (h.resolve_left (by simp [br]))
      rw [State.localAccess_packed who img true data be none hg word.isLt br]
      simp [State.answered, State.packWrite, sc]
  · obtain ⟨k, -, e⟩ := begun h
    rw [e]
    simp [State.answered]
  · obtain ⟨k, got, e⟩ := begun h
    rw [e]
    simp [State.answered, got]

theorem packedWrite_last (s : State) (who : Initiator) (img : Image) (group : Nat) (word : Fin 3) (data : Word) (k : Pack)
    (hg : group < 4096) (rdy : s.ready 0x020 = true ∧ s.ready 0x01C = true) (free : ¬(img = .input ∧ group < 96))
    (pack : s.scan.packs.getD who.idx none = some k) (same : k.img = img ∧ k.group = group) (all : setBit k.got word.val true = 7)
    (g : s.fb 0x01C SC_STATUS_GUARDING = false) :
    completes (.canopyPackedWrite who img group word data 15) s fun t =>
      t.grpNew (grpKey img group) = (let bm : BitVec 96 := (beMask 15).zeroExtend 96 <<< (32 * word.val)
        let v := (k.val &&& ~~~ bm) ||| ((data.zeroExtend 96 <<< (32 * word.val)) &&& bm)
        (s.grpNew (grpKey img group) &&& ~~~ (k.mask ||| bm)) ||| (v &&& (k.mask ||| bm))) ∧
      (t.ansOf who).rsp = rspOk ∧ t.scan.packs.getD who.idx none = none := by
  have mine : s.packFor who img group = (s, k) := by simp [State.packFor, pack, same]
  obtain ⟨u, e, new, gone⟩ : ∃ u, s.packWrite who img group word.val data 15 none = (u, some (rspOk, 0)) ∧
      u.grpNew (grpKey img group) = (let bm : BitVec 96 := (beMask 15).zeroExtend 96 <<< (32 * word.val)
        let v := (k.val &&& ~~~ bm) ||| ((data.zeroExtend 96 <<< (32 * word.val)) &&& bm)
        (s.grpNew (grpKey img group) &&& ~~~ (k.mask ||| bm)) ||| (v &&& (k.mask ||| bm))) ∧
      u.scan.packs.getD who.idx none = none := by
    simp only [State.packWrite, mine, rdy.2, Bool.not_true, Bool.false_eq_true, if_false, all, if_true]
    exact ⟨_, State.canWrite_made who free (by exact g) .., State.grpNew_grpPut .., by simp⟩
  refine ⟨u.finish who rspOk 0, (exec_packedWrite who img word data 15 hg rdy.1).trans (by rw [e]; rfl), ?_, by simp, by simpa using gone⟩
  simp only [State.grpNew, State.grpVis, State.finish_scan]
  exact new

theorem exec_packedRead {s : State} (who : Initiator) (img : Image) {group : Nat} (word : Fin 3) (hg : group < 4096)
    (br : s.ready 0x020 = true) : exec (.canopyPackedRead who img group word) s =
      .next (State.answered who (s.packRead who img group word.val)) :=
  congrArg (fun x => Host.Outcome.next (State.answered who x))
    ((if_pos hg).trans (State.localAccess_packed who img false 0 15 none hg word.isLt br))

/-- A read of word `j` of a group's packed view once another group's pack has been given up (R27). -/
def State.packReadFrom (u : State) (who : Initiator) (img : Image) (m j : Nat) : State × Option (Nat × Word) :=
  let key := grpKey img m
  let word (v : BitVec 96) : Word := (v >>> (32 * j)).setWidth 32
  let keep : Option (Nat × BitVec 96) := (u.scan.snaps.getD who.idx none).filter fun e => decide (e.1 = key)
  let drop (t : State) : State := { t with scan := { t.scan with snaps := t.scan.snaps.put who.idx none none } }
  if !u.ready 0x01C then (if keep.isSome then u else drop u, some (rspNotReady, 0))
  else match (if j = 0 then none else keep) with
    | some e => (u, some (rspOk, word e.2))
    | none => match u.canRead img m with
      | (t, none) => (drop t, some (rspRemote, 0))
      | (t, some v) =>
        (if j = 0 then { t with scan := { t.scan with snaps := t.scan.snaps.put who.idx (some (key, v)) none } } else drop t,
          some (rspOk, word v))

theorem State.packRead_eq (s : State) (who : Initiator) (img : Image) (m j : Nat) :
    s.packRead who img m j = ((s.packFor who img m).1).packReadFrom who img m j := by
  unfold State.packRead
  dsimp only
  have settled := s.packFor_settled who img m
  dsimp only at settled
  generalize (s.packFor who img m).1 = u at settled ⊢
  rcases h : u.scan.packs.getD who.idx none with _ | k
  · rfl
  · rw [h] at settled
    dsimp only at settled ⊢
    by_cases same : k.img = img ∧ k.group = m
    · simp only [if_pos same]; rfl
    · replace settled : u.touch who false = u := by simpa only [if_neg same] using settled
      simp only [if_neg same, settled]; rfl

theorem State.packReadFrom_notReady {u : State} (who : Initiator) (img : Image) (m j : Nat) (sc : u.ready 0x01C = false) :
    ∃ t, u.packReadFrom who img m j = (t, some (rspNotReady, 0)) :=
  ⟨_, if_pos (by simp [sc])⟩

/-- An uncorrectable error answers a read that takes a snapshot, or finds none. -/
theorem State.packReadFrom_bad {u : State} {who : Initiator} {img : Image} {m j : Nat} (sc : u.ready 0x01C = true)
    (bad : u.copyBad (u.copyKey (grpKey img m) (u.scan.hid.getD (grpKey img m) none).isSome) = true)
    (none_ : j = 0 ∨ u.scan.snaps.getD who.idx none = none) : ∃ t, u.packReadFrom who img m j = (t, some (rspRemote, 0)) := by
  simp only [State.packReadFrom, sc, Bool.not_true, Bool.false_eq_true, if_false]
  rcases none_ with rfl | h
  · simp only [if_true, State.canRead, bad]
    exact ⟨_, rfl⟩
  · simp only [h, Option.filter_none, ite_self, State.canRead, bad, if_true]
    exact ⟨_, rfl⟩

/-- Word 0 takes the snapshot. -/
theorem State.packReadFrom_zero {u : State} (who : Initiator) {img : Image} {m : Nat} (sc : u.ready 0x01C = true)
    (good : u.copyBad (u.copyKey (grpKey img m) (u.scan.hid.getD (grpKey img m) none).isSome) = false) :
    ∃ t, t.scan = { u.scan with snaps := u.scan.snaps.put who.idx (some (grpKey img m, u.grpVis (grpKey img m))) none } ∧
      u.packReadFrom who img m 0 = (t, some (rspOk, (u.grpVis (grpKey img m)).setWidth 32)) := by
  simp only [State.packReadFrom, sc, Bool.not_true, Bool.false_eq_true, if_false, if_true, State.canRead, good, Nat.mul_zero,
    BitVec.ushiftRight_zero]
  refine ⟨_, And.symm ⟨rfl, ?_⟩⟩
  simp

theorem canopyPackedRead_zero (s : State) (who : Initiator) (img : Image) (group : Nat) (hg : group < 4096)
    (rdy : s.ready 0x020 = true ∧ s.ready 0x01C = true)
    (good : s.copyBad (s.copyKey (grpKey img group) (s.scan.hid.getD (grpKey img group) none).isSome) = false) :
    completes (.canopyPackedRead who img group 0) s fun t =>
      t.ansOf who = ⟨rspOk, (s.grpVis (grpKey img group)).setWidth 32, none⟩ ∧
      t.scan.snaps.getD who.idx none = some (grpKey img group, s.grpVis (grpKey img group)) ∧ t.scan.vis = s.scan.vis := by
  obtain ⟨ready, vis, hid, -, bad⟩ := s.packFor_reads who img group
  have grp : ((s.packFor who img group).1).grpVis (grpKey img group) = s.grpVis (grpKey img group) := by simp only [State.grpVis, vis]
  obtain ⟨t, scan, e⟩ := State.packReadFrom_zero who ((ready _).trans rdy.2) ((bad _ _).trans (by rw [hid]; exact good))
  refine ⟨_, (exec_packedRead who img 0 hg rdy.1).trans (congrArg (fun x => Host.Outcome.next (State.answered who x))
    ((s.packRead_eq ..).trans e)), ?_, ?_, ?_⟩
  · simp only [State.answered, State.ansOf_finish, if_true, grp]
  · simp only [State.answered, State.finish_scan, scan, Map.getD_put_same, grp]
  · simp only [State.answered, State.finish_scan, scan, vis]

theorem canopyPackedRead_bad (s : State) (who : Initiator) (img : Image) (group : Nat) (word : Fin 3) (hg : group < 4096)
    (rdy : s.ready 0x020 = true ∧ s.ready 0x01C = true)
    (bad : s.copyBad (s.copyKey (grpKey img group) (s.scan.hid.getD (grpKey img group) none).isSome) = true)
    (none_ : word.val = 0 ∨ s.scan.snaps.getD who.idx none = none) :
    completes (.canopyPackedRead who img group word) s fun t => t.ansOf who = ⟨rspRemote, 0, none⟩ := by
  obtain ⟨ready, -, hid, snaps, same⟩ := s.packFor_reads who img group
  obtain ⟨t, e⟩ := State.packReadFrom_bad (j := word.val) ((ready _).trans rdy.2) ((same _ _).trans (by rw [hid]; exact bad))
    (none_.imp_right fun h => (congrArg (fun m => Map.getD m who.idx none) snaps).trans h)
  exact ⟨_, (exec_packedRead who img word hg rdy.1).trans (congrArg (fun x => Host.Outcome.next (State.answered who x))
    ((s.packRead_eq ..).trans e)), by simp [State.answered, rspRemote, rspOk]⟩

theorem canopyPackedRead_kept (s : State) (who : Initiator) (img : Image) (group : Nat) (word : Fin 3) (v : BitVec 96) (hg : group < 4096)
    (rdy : s.ready 0x020 = true ∧ s.ready 0x01C = true) (nz : word.val ≠ 0) (idle : s.scan.packs.getD who.idx none = none)
    (snap : s.scan.snaps.getD who.idx none = some (grpKey img group, v)) :
    completes (.canopyPackedRead who img group word) s fun t =>
      t.ansOf who = ⟨rspOk, (v >>> (32 * word.val)).setWidth 32, none⟩ ∧ t.regs = s.regs := by
  have e : s.packRead who img group word.val = (s, some (rspOk, (v >>> (32 * word.val)).setWidth 32)) := by
    rw [State.packRead_eq, State.packFor_idle idle]
    simp only [State.packReadFrom, rdy.2, Bool.not_true, Bool.false_eq_true, if_false, if_neg nz, snap, Option.filter_some, decide_true,
      if_true]
  exact ⟨s.finish who rspOk ((v >>> (32 * word.val)).setWidth 32), (exec_packedRead who img word hg rdy.1).trans (by rw [e]; rfl), by simp,
    by simp⟩

theorem canopyPackedRead_refused (s : State) (who : Initiator) (img : Image) (group : Nat) (word : Fin 3) :
    completes (.canopyPackedRead who img group word) s fun t =>
      (4096 ≤ group → t.ansOf who = ⟨rspUnmapped, 0, none⟩) ∧
      (group < 4096 → s.ready 0x020 = false ∨ s.ready 0x01C = false → t.ansOf who = ⟨rspNotReady, 0, none⟩) := by
  refine ⟨_, rfl, fun h => ?_, fun hg h => ?_⟩
  · rw [if_neg (Nat.not_lt.2 h)]
    simp [State.answered, rspUnmapped, rspOk]
  · rw [if_pos hg]
    cases br : s.ready 0x020 with
    | false =>
      rw [State.localAccess_notReady who false 0 15 none (by rw [Nat.add_assoc]; exact mapPacked_ge ..) br]
      simp [State.answered, rspNotReady, rspOk]
    | true =>
      obtain ⟨t, e⟩ := State.packReadFrom_notReady who img group word.val
        (((s.packFor_reads who img group).1 _).trans (h.resolve_left (by simp [br])))
      rw [State.localAccess_packed who img false 0 15 none hg word.isLt br, if_neg (by simp), State.packRead_eq, e]
      simp [State.answered, rspNotReady, rspOk]

/-! ### Incoming requests and fences (R369-R373, R383) -/

/-- A register access is answered at once. -/
theorem State.localAccess_register (s : State) (who : Initiator) {off : Nat} (write : Bool) (data : Word) (be : BitVec 4) (req : Option Frame)
    (h : off < 2 ^ 24) : ∃ t r d, s.localAccess who off write data be req = (t, some (r, d)) := by
  simp only [State.localAccess, if_pos h, State.regAccess]
  split
  · exact ⟨_, _, _, rfl⟩
  · exact ⟨_, _, _, rfl⟩

/-- What the bridge has received, without its first frame. -/
theorem State.inboxTake_eq {s : State} {p : Nat} {f : Frame} {rest : List Frame} (h : s.core.inbox.getD p [] = f :: rest) :
    s.inboxTake p = some (f, { s with core := { s.core with inbox := s.core.inbox.put p rest [] } }) := by
  simp [State.inboxTake, h]

theorem State.serve_word {s : State} {f : Frame} (form : f.hdr.cls = .T ∧ f.hdr.mtype = 0x00 ∧ f.hdr.words = 1 ∧ f.payload = [])
    (low : f.hdr.offset < 2 ^ 24) : s.serve f =
      (let x := s.localAccess .ring f.hdr.offset false 0 15 none
       ({ x.1 with br := { x.1.br with serving := x.1.br.serving.erase f } } : State).complete f (x.2.getD (0, 0)).1 false
         (if (x.2.getD (0, 0)).1 = rspOk then leBytes (x.2.getD (0, 0)).2.toNat 4 else [])) := by
  obtain ⟨-, mtype, words, payload⟩ := form
  obtain ⟨t, r, d, e⟩ := s.localAccess_register .ring false 0 15 none low
  have free : s.reqHeld f.hdr.offset false = false := by
    have : ¬ mapScratch ≤ f.hdr.offset := by simp only [mapScratch]; omega
    simp [State.reqHeld, this]
  have read : s.serve f = s.serveRead f := by simp [State.serve, Frame.requestOk, mtype, payload]
  rw [read]
  simp only [State.serveRead, words, if_true, free, Bool.false_eq_true, if_false, mtype, Nat.reduceEqDiff, decide_false, Bool.false_and, e,
    Option.getD_some]
  simp [State.reqDone, mtype]

/-- Settles O51, command by command. -/
theorem canopyViewsAndIncomingRequests : Obligations.CanopyViewsAndIncomingRequests := by
  unfold Obligations.CanopyViewsAndIncomingRequests
  refine ⟨canopyWrite_takes, canopyWrite_refused, packedWrite_first, packedWrite_last, canopyPackedRead_zero, canopyPackedRead_bad,
    canopyPackedRead_kept, canopyPackedRead_refused, fun s f rest first form room flow low => ?_, fun s f rest first cls flow => ?_,
    fun s h => ?_, fun s h => ?_, fun s f h => ?_⟩
  · refine ⟨_, rfl, ?_⟩
    have some_ := State.inboxTake_eq first
    simp only [some_, form.1, form.2.1, flow, ne_eq, not_true_eq_false, if_false, Nat.not_le.2 room, Bool.false_eq_true, true_or, or_false,
      if_true, reduceCtorEq, Nat.reduceEqDiff, State.serve_word form low]
  · have some_ := State.inboxTake_eq first
    refine ⟨_, rfl, fun m room => ?_, fun m full => ?_, fun m => ?_, fun m four => ?_, fun m => ?_⟩
    · simp only [some_, cls, flow, ne_eq, not_true_eq_false, if_false, Bool.false_eq_true]
      rcases m with m | m | m <;> simp [m, Nat.not_le.2 room]
    · simp only [some_, cls, flow, ne_eq, not_true_eq_false, if_false, Bool.false_eq_true]
      rcases m with m | m | m <;> simp [m, full]
    · simp [some_, cls, flow, m]
    · simp [some_, cls, flow, m, State.fenceArrives, four]
    · simp only [some_, cls, ne_eq, not_true_eq_false, if_false]
      exact if_pos m
  · refine ⟨_, rfl, ?_⟩
    rcases first : s.core.inbox.getD portBridge [] with _ | ⟨f, rest⟩
    · simp [State.inboxTake, first]
    · simp [first] at h
      simp [State.inboxTake_eq first, h]
  · exact ⟨_, rfl, by simp [h]⟩
  · refine ⟨_, rfl, ?_⟩
    simp [h, State.originate, State.stage]

end Sys2Proof.Machine
end

section
set_option Elab.async false
namespace Sys2Proof.Machine

/-! ### Snapshots of time (R338) -/

@[simp] theorem State.port_setPort (s : State) (p : LanePort) (v : Port) : (s.setPort p v).port p = v :=
  Map.getD_put_same ..

@[simp] theorem State.dom_setDom (s : State) (k : Nat) (d : Dom) : (s.setDom k d).dom k = d := Map.getD_put_same ..

/-- Time as read in a state depends on its time part, its counter and the registers of page 0x018 alone. -/
theorem State.time_of {s t : State} (htm : t.tm = s.tm) (hlc : t.lc = s.lc) (hrd : ∀ o, t.rd 0x018 o = s.rd 0x018 o) :
    t.now = s.now ∧ (∀ k u, t.dom48 k u = s.dom48 k u) ∧ (∀ u, t.st48 u = s.st48 u) ∧ ∀ u, t.stEra u = s.stEra u := by
  have hnow : t.now = s.now := by simp only [State.now, hlc]
  have hfg : ∀ f, t.fg 0x018 f = s.fg 0x018 f := fun f => by simp only [State.fg, hrd]
  have hdom : ∀ k, t.domAt k = s.domAt k := fun k => by funext u; simp only [State.domAt, State.dom, State.rate, htm, hfg]
  have hst : ∀ u, t.stAt u = s.stAt u := fun u => by simp only [State.stAt, State.sel, State.resAt, hdom, hfg, htm]
  exact ⟨hnow, fun k u => by simp only [State.dom48, hdom], fun u => by simp only [State.st48, hst],
    fun u => by simp only [State.stEra, hst]⟩

/-- What the two registers of a 48-bit time in 2^-16 ns show together. -/
theorem State.snapAt_shows (s : State) (off era : Nat) {v : Nat} (hv : v < 2 ^ 48) (ho : regKey 0 off ≠ regKey 0 (off + 4))
    (h8 : regKey 0 off ≠ regKey 0 (off + 8)) (h48 : regKey 0 (off + 4) ≠ regKey 0 (off + 8)) :
    ((s.snapAt off v era).rd 0x018 off).toNat * 65536 + ((s.snapAt off v era).rd 0x018 (off + 4)).toNat = v := by
  unfold State.snapAt
  rw [State.rd_wr_off _ _ _ h8, State.rd_wr_off _ _ _ ho, State.rd_wr_same, State.rd_wr_off _ _ _ h48, State.rd_wr_same,
    BitVec.toNat_ofNat, BitVec.toNat_ofNat]
  omega

theorem State.snapAt_era (s : State) (off v : Nat) {era : Nat} (he : era < 2 ^ 32) :
    ((s.snapAt off v era).rd 0x018 (off + 8)).toNat = era := by
  unfold State.snapAt
  rw [State.rd_wr_same, BitVec.toNat_ofNat, Nat.mod_eq_of_lt he]

theorem State.rd_snapAt_off (s : State) (off v era o : Nat) (h : regKey 0 o ≠ regKey 0 off) (h4 : regKey 0 o ≠ regKey 0 (off + 4))
    (h8 : regKey 0 o ≠ regKey 0 (off + 8)) : (s.snapAt off v era).rd 0x018 o = s.rd 0x018 o := by
  unfold State.snapAt
  rw [State.rd_wr_off _ _ _ h8, State.rd_wr_off _ _ _ h4, State.rd_wr_off _ _ _ h]

theorem uns_lt (w : Nat) (i : Int) : uns w i < 2 ^ w := by
  unfold uns
  have h := Int.emod_lt_of_pos i (b := (2 ^ w : Nat)) (by positivity)
  have h0 := Int.emod_nonneg i (b := (2 ^ w : Nat)) (by positivity)
  omega

/-- The snapshot registers show the local stamp, both domain times and service time of the instant (R338). -/
theorem State.tmSnap_shows (s : State) :
    (s.tmSnap.rd 0x018 TM_SNAP_LOC_LO).toNat + 2 ^ 32 * (s.tmSnap.rd 0x018 TM_SNAP_LOC_HI).toNat = lstampOf s.now % 2 ^ 64 ∧
    (s.tmSnap.rd 0x018 TM_SNAP_A_NS).toNat * 65536 + (s.tmSnap.rd 0x018 (TM_SNAP_A_NS + 4)).toNat = s.dom48 0 s.now ∧
    (s.tmSnap.rd 0x018 TM_SNAP_B_NS).toNat * 65536 + (s.tmSnap.rd 0x018 (TM_SNAP_B_NS + 4)).toNat = s.dom48 1 s.now ∧
    (s.tmSnap.rd 0x018 TM_SNAP_ST_NS).toNat * 65536 + (s.tmSnap.rd 0x018 (TM_SNAP_ST_NS + 4)).toNat = s.st48 s.now ∧
    (s.tmSnap.rd 0x018 (TM_SNAP_ST_NS + 8)).toNat = s.stEra s.now := by
  unfold State.tmSnap
  refine ⟨?_, ?_, ?_, State.snapAt_shows _ _ _ (uns_lt ..) (by decide) (by decide) (by decide), State.snapAt_era _ _ _ (uns_lt ..)⟩
  · simp (disch := decide) only [State.rd_snapAt_off, State.rd_wr_same, State.rd_wr_off, BitVec.toNat_ofNat]
    omega
  · rw [State.rd_snapAt_off _ _ _ _ _ (by decide) (by decide) (by decide), State.rd_snapAt_off _ _ _ _ _ (by decide) (by decide) (by decide),
      State.rd_snapAt_off _ _ _ _ (TM_SNAP_A_NS + 4) (by decide) (by decide) (by decide),
      State.rd_snapAt_off _ _ _ _ (TM_SNAP_A_NS + 4) (by decide) (by decide) (by decide)]
    exact State.snapAt_shows _ _ _ (uns_lt ..) (by decide) (by decide) (by decide)
  · rw [State.rd_snapAt_off _ _ _ _ _ (by decide) (by decide) (by decide),
      State.rd_snapAt_off _ _ _ _ (TM_SNAP_B_NS + 4) (by decide) (by decide) (by decide)]
    exact State.snapAt_shows _ _ _ (uns_lt ..) (by decide) (by decide) (by decide)

/-- The registers of a snapshot (R338). -/
def snapRegs : List (Nat × Nat) :=
  [TM_SNAP_LOC_LO, TM_SNAP_LOC_HI, TM_SNAP_A_NS, TM_SNAP_A_NS + 4, TM_SNAP_A_NS + 8, TM_SNAP_B_NS, TM_SNAP_B_NS + 4, TM_SNAP_B_NS + 8,
    TM_SNAP_ST_NS, TM_SNAP_ST_NS + 4, TM_SNAP_ST_NS + 8].map (0x018, ·)

theorem onlyRegs.snapAt {l : List (Nat × Nat)} {s t : State} (h : onlyRegs l s t) {off v era : Nat} (ho : off + 8 < 4096)
    (h0 : (0x018, off) ∈ l) (h4 : (0x018, off + 4) ∈ l) (h8 : (0x018, off + 8) ∈ l) : onlyRegs l s (t.snapAt off v era) :=
  ((h.wr (by omega) h0).wr (by omega) h4).wr ho h8

theorem State.tmSnap_onlyRegs (s : State) : onlyRegs snapRegs s s.tmSnap := by
  have hloc := ((onlyRegs.refl snapRegs s).wr (p := 0x018) (o := TM_SNAP_LOC_LO) (v := BitVec.ofNat 32 (lstampOf s.now)) (by decide)
    (by decide)).wr (p := 0x018) (o := TM_SNAP_LOC_HI) (v := BitVec.ofNat 32 (lstampOf s.now / 2 ^ 32)) (by decide) (by decide)
  have hab := (hloc.snapAt (off := TM_SNAP_A_NS) (v := s.dom48 0 s.now) (era := s.domEra 0 s.now) (by decide) (by decide) (by decide)
    (by decide)).snapAt (off := TM_SNAP_B_NS) (v := s.dom48 1 s.now) (era := s.domEra 1 s.now) (by decide) (by decide) (by decide) (by decide)
  exact hab.snapAt (by decide) (by decide) (by decide) (by decide)

/-- A snapshot writes registers alone. -/
theorem State.tmSnap_regs (s : State) : ∃ r, s.tmSnap = { s with regs := r } := by
  unfold State.tmSnap State.snapAt
  exact ⟨_, rfl⟩

@[simp] theorem State.tmSnap_tm (s : State) : s.tmSnap.tm = s.tm := by
  obtain ⟨r, e⟩ := s.tmSnap_regs
  rw [e]

@[simp] theorem State.tmSnap_ingress (s : State) : s.tmSnap.ingress = s.ingress := by
  obtain ⟨r, e⟩ := s.tmSnap_regs
  rw [e]

theorem State.tmSnap_completes (s : State) (who : Initiator) (h : s.accepts who 0x018 TM_CTRL = true) :
    completes (.tmSnap who) s fun t =>
      (t.rd 0x018 TM_SNAP_LOC_LO).toNat + 2 ^ 32 * (t.rd 0x018 TM_SNAP_LOC_HI).toNat = lstampOf s.now % 2 ^ 64 ∧
      (t.rd 0x018 TM_SNAP_A_NS).toNat * 65536 + (t.rd 0x018 (TM_SNAP_A_NS + 4)).toNat = s.dom48 0 s.now ∧
      (t.rd 0x018 TM_SNAP_B_NS).toNat * 65536 + (t.rd 0x018 (TM_SNAP_B_NS + 4)).toNat = s.dom48 1 s.now ∧
      (t.rd 0x018 TM_SNAP_ST_NS).toNat * 65536 + (t.rd 0x018 (TM_SNAP_ST_NS + 4)).toNat = s.st48 s.now ∧
      (t.rd 0x018 (TM_SNAP_ST_NS + 8)).toNat = s.stEra s.now ∧
      t.tm = s.tm ∧ onlyRegs ((0x01C, EVT_STATUS) :: snapRegs) s t := by
  refine completes_write rfl h ?_
  obtain ⟨hnow, hdom, hst, hera⟩ := State.time_of (s := s) (t := s.touch who false) (by simp) (by simp)
    fun o => State.rd_touch _ _ _ _ _ (regKey_ne_of_page (by decide) _ _)
  have hs := (s.touch who false).tmSnap_shows
  rw [hnow, hdom, hdom, hst, hera] at hs
  obtain ⟨hloc, ha, hb, ht, he⟩ := hs
  simp only [State.rd_answer]
  exact ⟨hloc, ha, hb, ht, he, by simp,
    onlyRegs.touch ((State.tmSnap_onlyRegs (s.touch who false)).of_regs (State.answer_regs ..))⟩

/-! ### SYNC frames (R331) -/

@[simp] theorem State.dom_originate (s : State) (p : Nat) (f : Frame) (k : Nat) : (s.originate p f).dom k = s.dom k := by
  simp [State.dom]

theorem State.ingress_originate (s : State) (p : Nat) (f : Frame) :
    (s.originate p f).ingress.getD p [] = s.ingress.getD p [] ++ [{ frame := f, route := .desc (descRing f) }] := Map.getD_put_same ..

theorem syncOriginate_completes (s : State) (dom : Fin 2) (hr : s.ready 0x018 = true) (hd : s.dstate dom.val = 4) (hb : s.bare = false) :
    completes (.syncOriginate dom) s fun t =>
      (t.dom dom.val).seq = ((s.dom dom.val).seq + 1) % 65536 ∧
      ((t.ingress.getD portLantern []).drop (s.ingress.getD portLantern []).length).map
          (fun x => (x.frame.hdr.stream, x.frame.hdr.dst, x.frame.hdr.mtype, x.frame.hdr.cls)) =
        [62, 63].map (fun n => (n, 127, if s.compat 0x018 then 0x10 else 0x11, Cls.E)) ∧
      (t.ingress.getD portLantern []).take (s.ingress.getD portLantern []).length = s.ingress.getD portLantern [] := by
  refine ⟨_, congrArg Host.Outcome.next (if_neg ?_), ?_⟩
  · simp [hr, hd, hb]
  · simp only [State.ingress_originate, State.setDom_ingress, State.tmSnap_ingress]
    refine ⟨?_, by simp, by simp⟩
    rw [State.dom_originate, State.dom_originate, State.dom_setDom]

/-! ### Peer delay (R335, R336) -/

theorem State.tmMay_iff (s : State) (p : RingPort) : s.tmMay p = true ↔ s.eg p.core = none ∧ (s.port p.lanes).merge = [] := by
  simp [State.tmMay]

theorem State.fg_raiseIf_off (s : State) (c : Bool) (p : Nat) {b : Nat} {f : Fld} (h : regKey 0 f.off ≠ regKey 0 EVT_STATUS) :
    (s.raiseIf c p b).fg p f = s.fg p f := by
  unfold State.raiseIf
  split
  · exact State.fg_raise_off s p h
  · rfl

theorem State.port_raiseIf (s : State) (c : Bool) (p b : Nat) (l : LanePort) : (s.raiseIf c p b).port l = s.port l := by
  simp [State.port]

@[simp] theorem State.port_fs (s : State) (p : Nat) (f : Fld) (v : Nat) (l : LanePort) : (s.fs p f v).port l = s.port l := rfl

@[simp] theorem State.port_raise (s : State) (p b : Nat) (l : LanePort) : (s.raise p b).port l = s.port l := by simp [State.port]

/-- A sample that is taken (R336): it is shown, joins the last 16 and counts; the 16th gives the mean. -/
theorem State.pdSample_accepted (s : State) (p : RingPort) {x : Int} (h0 : 0 ≤ x) (h1 : x ≤ 32000)
    (hf : s.fb p.page RP_PD_DELAY_VALID = false ∨ (x - (s.fg p.page RP_PD_DELAY_DELAY : Int)).natAbs ≤ 32) :
    (s.pdSample p x).fg p.page RP_PD_LAST_SAMPLE = x.toNat ∧
    (s.pdSample p x).fg p.page RP_PD_LAST_ACCEPTED = 1 ∧
    (s.pdSample p x).port p.lanes = { s.port p.lanes with pdRej := 0, pdHist := (x.toNat :: (s.port p.lanes).pdHist).take 16 } ∧
    (s.pdSample p x).fg p.page RP_PD_CNT_SAMPLES = min (s.fg p.page RP_PD_CNT_SAMPLES + 1) (2 ^ RP_PD_CNT_SAMPLES.w - 1) ∧
    (15 ≤ (s.port p.lanes).pdHist.length → (s.pdSample p x).fg p.page RP_PD_DELAY_VALID = 1 ∧
      (s.pdSample p x).fg p.page RP_PD_DELAY_DELAY = (x.toNat :: (s.port p.lanes).pdHist.take 15).sum / 16 % 2 ^ RP_PD_DELAY_DELAY.w) := by
  have hacc : ¬(x < 0 ∨ 32000 < x ∨ (s.fb p.page RP_PD_DELAY_VALID &&
      decide (32 < (x - (s.fg p.page RP_PD_DELAY_DELAY : Int)).natAbs)) = true) := by
    rcases hf with hf | hf
    · simp [hf]; omega
    · simp; omega
  have hs : min 65535 x.toNat % 2 ^ 16 = x.toNat := by omega
  unfold State.pdSample
  simp only [if_neg hacc]
  split
  next hl =>
    refine ⟨?_, ?_, State.port_setPort .., ?_, fun h => absurd hl (by simp; omega)⟩
    · simp (disch := decide) [State.inc_eq_fs, State.fg_fs_apart, State.fg_fs, hs]
      exact hs
    · simp (disch := decide) [State.inc_eq_fs, State.fg_fs_apart, State.fg_fs]
    · rw [State.fg_setPort, State.fg_inc _ _ (by decide)]
      simp (disch := decide) [State.fg_fs_apart]
  next hl =>
    have hlen : 15 ≤ (s.port p.lanes).pdHist.length := by simp at hl; omega
    refine ⟨?_, ?_, ?_, ?_, fun _ => ⟨?_, ?_⟩⟩
    · simp (disch := decide) [State.fg_raiseIf_off, State.inc_eq_fs, State.fg_fs_apart, State.fg_fs]
      exact hs
    · simp (disch := decide) [State.fg_raiseIf_off, State.inc_eq_fs, State.fg_fs_apart, State.fg_fs]
    · rw [State.port_raiseIf, State.port_fs, State.port_fs, State.port_setPort]
    · simp (disch := decide) only [State.fg_raiseIf_off, State.fg_fs_apart, State.fg_setPort]
      rw [State.fg_inc _ _ (by decide)]
      simp (disch := decide) only [State.fg_fs_apart]
    · simp (disch := decide) only [State.fg_raiseIf_off, State.fg_fs]
      rfl
    · simp (disch := decide) only [State.fg_raiseIf_off, State.fg_fs_apart, State.fg_fs, List.take_succ_cons]

/-- A sample that is refused (R336): it counts, and the 16th in a row takes the mean away. -/
theorem State.pdSample_rejected (s : State) (p : RingPort) {x : Int}
    (hr : x < 0 ∨ 32000 < x ∨ (s.fb p.page RP_PD_DELAY_VALID = true ∧ 32 < (x - (s.fg p.page RP_PD_DELAY_DELAY : Int)).natAbs)) :
    (s.pdSample p x).fg p.page RP_PD_LAST_ACCEPTED = 0 ∧
    (s.pdSample p x).fg p.page RP_PD_CNT_REJECTED = min (s.fg p.page RP_PD_CNT_REJECTED + 1) (2 ^ RP_PD_CNT_REJECTED.w - 1) ∧
    ((s.port p.lanes).pdRej < 15 → ((s.pdSample p x).port p.lanes).pdRej = (s.port p.lanes).pdRej + 1 ∧
      (s.pdSample p x).rd p.page RP_PD_DELAY = s.rd p.page RP_PD_DELAY) ∧
    (15 ≤ (s.port p.lanes).pdRej →
      (s.pdSample p x).fg p.page RP_PD_DELAY_VALID = 0 ∧ (s.pdSample p x).event p.page EV_RP_PD_FAIL = true) := by
  have hrej : x < 0 ∨ 32000 < x ∨ (s.fb p.page RP_PD_DELAY_VALID &&
      decide (32 < (x - (s.fg p.page RP_PD_DELAY_DELAY : Int)).natAbs)) = true := by simpa using hr
  unfold State.pdSample
  simp only [if_pos hrej]
  split
  next hl =>
    refine ⟨?_, ?_, fun _ => ⟨?_, ?_⟩, fun h => absurd hl (by omega)⟩
    · simp (disch := decide) only [State.fg_setPort, State.inc_eq_fs, State.fg_fs_apart, State.fg_fs]
      rfl
    · rw [State.fg_setPort, State.fg_inc _ _ (by decide)]
      simp (disch := decide) only [State.fg_fs_apart]
    · rw [State.port_setPort]
    · simp (disch := decide) only [State.rd_setPort, State.inc_eq_fs, State.rd_fs_off]
  next hl =>
    refine ⟨?_, ?_, fun h => absurd h (by omega), fun _ => ⟨?_, State.event_raise (hb := by decide) ..⟩⟩
    · simp (disch := decide) only [State.fg_raise_off, State.fg_setPort, State.inc_eq_fs, State.fg_fs_apart, State.fg_fs]
      rfl
    · simp (disch := decide) only [State.fg_raise_off, State.fg_fs_apart, State.fg_setPort]
      rw [State.fg_inc _ _ (by decide)]
      simp (disch := decide) only [State.fg_fs_apart]
    · simp (disch := decide) only [State.fg_raise_off, State.fg_fs]
      rfl

/-- The answer that a port awaits gives its delay sample. -/
theorem pdRespReceived_sample {s : State} {port : RingPort} {bytes : List Byte} {sub : Fin 26} {q : Nat} {t1 x : Int} {P : State → Prop}
    (hon : s.pdOn port = true) (hok : tmOk bytes 2 = true) (hsent : (s.port port.lanes).pdSent = some (q, t1))
    (hq : leAt bytes 1 1 = q) (hd : s.stampAt sub.val - t1 ≤ 1600000)
    (hx : x = (s.stampAt sub.val - t1 - 10 * (leAt bytes 2 4 : Int)) / 20)
    (h : P ((s.setPort port.lanes { s.port port.lanes with pdSent := none }).pdSample port x)) :
    completes (.pdRespReceived port bytes sub) s P := by
  refine ⟨_, ?_, h⟩
  show execPdRespReceived port bytes sub s = _
  unfold execPdRespReceived
  rw [hsent]
  dsimp only
  rw [if_neg, hx]
  simp [hon, hok, hq]
  omega

/-- Settles O40: the snapshot, the SYNC frames and the delay measurement, each by what its command leaves. -/
theorem timeIsLatchedAndSent : Obligations.TimeIsLatchedAndSent := by
  refine ⟨State.tmSnap_completes, syncOriginate_completes, ?_, ?_, ?_, ?_⟩
  · intro s port sub hon heg hm
    refine ⟨_, congrArg Host.Outcome.next (if_neg ?_), ?_⟩
    · simp [hon, (s.tmMay_iff port).2 ⟨heg, hm⟩]
    · dsimp only
      rw [State.port_setPort]
      exact ⟨rfl, rfl, rfl, rfl⟩
  · intro s port bytes turn
    refine ⟨_, rfl, fun ⟨ha, heg, hm, hok, ht⟩ => ?_, fun hn => if_neg ?_⟩
    · rw [if_pos (by simp [ha, (s.tmMay_iff port).2 ⟨heg, hm⟩, hok, ht]), State.port_setPort]
      exact ⟨rfl, rfl⟩
    · simpa [State.tmMay_iff, and_assoc] using hn
  · intro s port bytes sub q t1 x hon hok hsent hq hd hx hr hf
    refine pdRespReceived_sample hon hok hsent hq hd hx ?_
    have h := State.pdSample_accepted (s.setPort port.lanes { s.port port.lanes with pdSent := none }) port hr.1 hr.2
      (by simpa [State.fb] using hf)
    rw [State.port_setPort] at h
    simp only [State.fg_setPort] at h
    obtain ⟨hsample, hacc, hport, hcnt, hmean⟩ := h
    exact ⟨hsample, hacc, by rw [hport], by rw [hport], hcnt, hmean⟩
  · intro s port bytes sub q t1 x hon hok hsent hq hd hx hr
    refine pdRespReceived_sample hon hok hsent hq hd hx ?_
    have h := State.pdSample_rejected (s.setPort port.lanes { s.port port.lanes with pdSent := none }) port
      (by simpa [State.fb] using hr)
    rw [State.port_setPort] at h
    simpa only [State.fg_setPort, State.rd_setPort] using h

end Sys2Proof.Machine
end

section
set_option Elab.async false
namespace Sys2Proof.Machine

/-! ### The end of a copy leaves the queues (R182, R211) -/

/-- The queues, the copies in progress and the freezes of `s` are those of `b`. -/
structure SameQueues (b s : State) : Prop where
  ques : s.core.ques = b.core.ques
  eg : s.core.eg = b.core.eg
  lost : s.core.lost = b.core.lost

theorem SameQueues.refl (s : State) : SameQueues s s := ⟨rfl, rfl, rfl⟩

theorem SameQueues.trans {a b s : State} (h : SameQueues a b) (h' : SameQueues b s) : SameQueues a s :=
  ⟨h'.ques.trans h.ques, h'.eg.trans h.eg, h'.lost.trans h.lost⟩

/-- What leaves the core leaves its queues. -/
theorem SameQueues.of_core {b s : State} (h : s.core = b.core) : SameQueues b s :=
  ⟨congrArg _ h, congrArg _ h, congrArg _ h⟩

theorem SameQueues.foldl {α : Type} {b : State} (f : State → α → State) (hf : ∀ t a, SameQueues t (f t a)) :
    ∀ (l : List α) {s : State}, SameQueues b s → SameQueues b (l.foldl f s)
  | [], _, h => h
  | _ :: l, _, h => SameQueues.foldl f hf l (h.trans (hf _ _))

theorem SameQueues.que {b s : State} (h : SameQueues b s) (q : Nat) : s.que q = b.que q := by simp only [State.que, h.ques]

theorem State.freeChain_queues (n c : Nat) (s : State) : SameQueues s (State.freeChain n c s) := by
  induction n generalizing c s with
  | zero => exact .refl s
  | succ n ih => exact SameQueues.trans (b := s.freeCell c) ⟨rfl, rfl, rfl⟩ (ih ..)

theorem State.unref_queues (s : State) (c : Nat) : SameQueues s (s.unref c) := by
  unfold State.unref
  dsimp only
  split
  · exact ⟨(State.freeChain_queues _ _ _).ques, (State.freeChain_queues _ _ _).eg, (State.freeChain_queues _ _ _).lost⟩
  · exact ⟨rfl, rfl, rfl⟩

theorem State.freed_queues (s : State) (p : LanePort) (c : Cls) (n : Nat) : SameQueues s (s.freed p c n) := by
  unfold State.freed
  split
  · exact .refl s
  · exact ⟨rfl, rfl, rfl⟩

theorem State.endCopy_queues (s : State) (e : QEnt) : SameQueues s (s.endCopy e) := by
  unfold State.endCopy
  dsimp only
  refine SameQueues.trans ?_ (SameQueues.trans (State.unref_queues _ _) ⟨rfl, rfl, rfl⟩)
  split
  · exact State.freed_queues ..
  · exact .refl s

theorem State.partialDelivery_queues (s : State) (c : Nat) : SameQueues s (s.partialDelivery c) := by
  unfold State.partialDelivery
  dsimp only
  split
  · exact .refl s
  · exact SameQueues.trans (b := s.setRec c { s.frec c with partialSeen := true }) ⟨rfl, rfl, rfl⟩ (.of_core (State.raise_core ..))

theorem State.dropFlushed_queues (s : State) (e : QEnt) : SameQueues s (s.dropFlushed e) := by
  unfold State.dropFlushed
  split
  · exact ⟨rfl, rfl, rfl⟩
  · refine SameQueues.trans ?_ (State.endCopy_queues _ _)
    split
    · exact State.partialDelivery_queues ..
    · exact .refl s

/-! ### What a flush leaves in the queues (R209-R212) -/

/-- The flush of a queue leaves its started copy there. -/
theorem State.flushQueue_same (s : State) (q : Nat) : ((s.flushQueue q).1.que q).ents = s.startedEnts q := by
  unfold State.flushQueue
  dsimp only
  rw [(SameQueues.foldl _ State.dropFlushed_queues _ (.refl _)).que]
  exact congrArg Que.ents (Map.getD_put_same ..)

/-- The flush of a queue leaves the others, with the copies in progress and the freezes. -/
theorem State.flushQueue_other (s : State) {q q' : Nat} (h : q' ≠ q) :
    (s.flushQueue q).1.que q' = s.que q' ∧ (s.flushQueue q).1.core.eg = s.core.eg ∧ (s.flushQueue q).1.core.lost = s.core.lost := by
  unfold State.flushQueue
  dsimp only
  have hk := SameQueues.foldl _ State.dropFlushed_queues (s.unstarted q) (.refl (s.setQue q { s.que q with
    ents := s.startedEnts q, cut := (s.que q).cut || decide (0 < (s.que q).taken), taken := 0, next := 0 }))
  exact ⟨(hk.que q').trans (Map.getD_put_other _ _ _ _ h), hk.eg, hk.lost⟩

/-- One queue flushed, with the number of entries removed so far. -/
def flushNext (p : Nat) (t : State × Nat) (c : Nat) : State × Nat :=
  let (u, k) := t.1.flushQueue (4 * p + c)
  (u, t.2 + k)

theorem startedEnts_of {s u : State} {q : Nat} (hq : u.que q = s.que q) (he : u.core.eg = s.core.eg) :
    u.startedEnts q = s.startedEnts q := by
  have hsend : u.sending (q / 4) q = s.sending (q / 4) q := by
    unfold State.sending State.eg
    rw [he]
  simp [State.startedEnts, State.headStarted, hsend, hq]

/-- Flushes of several queues of a port leave its started copies in those, and the others as they were. -/
theorem flushNext_spec (p : Nat) : ∀ (l : List Nat) (t : State × Nat), l.Nodup →
    (∀ c ∈ l, (((l.foldl (flushNext p) t).1).que (4 * p + c)).ents = t.1.startedEnts (4 * p + c)) ∧
    (∀ q, (∀ c ∈ l, q ≠ 4 * p + c) → ((l.foldl (flushNext p) t).1).que q = t.1.que q) ∧
    ((l.foldl (flushNext p) t).1).core.eg = t.1.core.eg ∧ ((l.foldl (flushNext p) t).1).core.lost = t.1.core.lost
  | [], _, _ => ⟨fun _ h => absurd h (by simp), fun _ _ => rfl, rfl, rfl⟩
  | a :: l, t, hn => by
    obtain ⟨ha, hn⟩ := List.nodup_cons.1 hn
    obtain ⟨hin, hout, heg, hlost⟩ := flushNext_spec p l (flushNext p t a) hn
    have hother : ∀ {q}, q ≠ 4 * p + a → (flushNext p t a).1.que q = t.1.que q := fun h => (State.flushQueue_other _ h).1
    have hkeep := State.flushQueue_other t.1 (q := 4 * p + a) (q' := 4 * p + a + 1) (by omega)
    refine ⟨fun c hc => ?_, fun q hq => ?_, heg.trans hkeep.2.1, hlost.trans hkeep.2.2⟩
    · rcases List.mem_cons.1 hc with hca | hc
      · subst hca
        rw [List.foldl_cons, hout _ fun d hd e => ha (by rwa [show c = d by omega])]
        exact State.flushQueue_same ..
      · have hne : 4 * p + c ≠ 4 * p + a := fun e => ha (by rwa [show a = c by omega])
        exact (hin c hc).trans (startedEnts_of (hother hne) hkeep.2.1)
    · exact (hout q fun c hc => hq c (List.mem_cons_of_mem _ hc)).trans (hother (hq a List.mem_cons_self))

/-- The grace flush of a port leaves its started copies in its four queues. -/
theorem State.graceFlush_spec (s : State) (p : Nat) :
    (∀ c < 4, ((s.graceFlush p).que (4 * p + c)).ents = s.startedEnts (4 * p + c)) ∧ (s.graceFlush p).core.lost = s.core.lost := by
  obtain ⟨hin, -, -, hlost⟩ := flushNext_spec p (List.range 4) (s, 0) List.nodup_range
  exact ⟨fun c hc => hin c (List.mem_range.2 hc), hlost⟩

/-- A flush leaves the registers of the queue pages. -/
theorem State.rd_flushQueue (s : State) (q : Nat) (page : Fin 4) (o : Nat) :
    (s.flushQueue q).1.rd (0x011 + page.val) o = s.rd (0x011 + page.val) o := by
  refine (State.flushQueue_framed (.refl 0x2000003808 s) (.self _)).rd _ _ ?_
  revert page
  decide

theorem State.rd_qFlushWrite {s : State} {p : Nat} {v : Word} (hgo : Q_FLUSH_GO.get v = 1) (hb : s.fb p Q_FLUSH_STATUS_BUSY = false)
    (hq : qPage (Q_FLUSH_QUEUE.get v) = p) :
    s.qFlushWrite p v = s.wr p Q_FLUSH_STATUS (Q_FLUSH_STATUS_BUSY.set 1 (Q_FLUSH_STATUS_QUEUE.set (Q_FLUSH_QUEUE.get v) 0)) := by
  simp [State.qFlushWrite, hgo, hb, hq]

/-- Settles O36: a request stands in the status register, and each flush is that of `flushQueue_same`. -/
theorem flushAndGraceEmptyQueues : Obligations.FlushAndGraceEmptyQueues := by
  have hpage : ∀ page : Fin 4, 0x011 + page.val ≠ 0x01C := by decide
  have hbusy : ∀ (s : State) (who : Initiator) (page : Fin 4),
      (s.touch who false).fb (0x011 + page.val) Q_FLUSH_STATUS_BUSY = s.fb (0x011 + page.val) Q_FLUSH_STATUS_BUSY := fun s who page => by
    simp only [State.fb, State.fg_touch _ _ _ _ _ (regKey_ne_of_page (hpage page) _ _)]
  refine ⟨?_, ?_, ?_, ?_, ?_⟩
  · intro s who page v hacc hgo hb hq
    refine completes_write rfl hacc ?_
    rw [State.rd_qFlushWrite hgo ((hbusy s who page).trans hb) hq]
    refine ⟨?_, ?_, ?_⟩
    · simp only [State.fb, State.fg_answer]
      rw [State.fg_wr_get (o := Q_FLUSH_STATUS) (f := Q_FLUSH_STATUS_BUSY) _ _ _ rfl, Fld.get_set _ _ _ (by decide)]
      rfl
    · rw [State.fg_answer, State.fg_wr_get (o := Q_FLUSH_STATUS) (f := Q_FLUSH_STATUS_QUEUE) _ _ _ rfl, Fld.get_set_ne _ _ _ _ (by decide) (by decide), Fld.get_set _ _ _ (by decide)]
      exact Nat.mod_eq_of_lt (Fld.get_lt ..)
    · simp
  · intro s who page v hacc hgo hb
    refine completes_write rfl hacc ?_
    have e : (s.touch who false).qFlushWrite (0x011 + page.val) v = (s.touch who false).raise (0x011 + page.val) EV_Q_FLUSH_IGNORED := by
      simp [State.qFlushWrite, hgo, hbusy, hb]
    rw [e]
    refine ⟨State.event_raise (hb := by decide) .., ?_⟩
    rw [State.rd_answer, State.rd_raise_off _ _ (by decide), State.rd_touch _ _ _ _ _ (regKey_ne_of_page (hpage page) _ _)]
  · intro s page q hb hq
    refine ⟨_, congrArg Host.Outcome.next (if_neg (by simp [hb])), ?_⟩
    subst hq
    refine ⟨?_, ?_, ?_, State.event_raise (hb := by decide) ..⟩
    · simp only [State.que, State.raise_core, State.addSat_core, State.fs_core]
      exact State.flushQueue_same ..
    · simp (disch := decide) only [State.fb, State.fg_raise_off, State.addSat_eq_fs, State.fg_fs_apart, State.fg_fs]
      rfl
    · simp (disch := decide) only [State.fg_raise_off, State.addSat_eq_fs, State.fg_fs_apart, State.fg_fs]
      exact Nat.mod_eq_of_lt (by simp [Q_FLUSH_STATUS_REMOVED])
  · intro s p c hl
    refine ⟨_, congrArg Host.Outcome.next (if_pos hl), ?_, ?_, ?_⟩
    · refine Eq.trans ?_ ((s.graceFlush_spec p.val).1 c.val c.isLt)
      simp [State.graceOver, State.setLost, State.que]
    · simp [State.graceOver, State.setLost]
    · exact State.event_raise (hb := by decide) ..
  · intro s p c hl
    refine ⟨_, congrArg Host.Outcome.next (if_neg hl), fun h2 => ?_, fun h2 => if_neg h2, ?_⟩
    · rw [if_pos h2]
      exact (s.graceFlush_spec p.val).1 c.val c.isLt
    · split
      · exact (s.graceFlush_spec p.val).2
      · rfl

end Sys2Proof.Machine
end

section
set_option Elab.async false
namespace Sys2Proof.Machine

/-! ### What the ring logic's frames leave of the registers (R150, R541)

A frame that the port logic puts into the queues passes the core's admission, which counts what it drops at the ring ports. -/

/-- EVT_STATUS, the counters of drops and of passing frames at the ring ports, and the role in the twin's status. -/
def dropOffs : List Nat := [EVT_STATUS, RP_DROP_E_COUNT.off, RP_DROP_LOOP_COUNT.off, RP_LL_DROP_COUNT.off, RP_RIDGE_COUNT.off, TW_STATUS]

/-- The pages of the ring ports, of the ring and of the twin port. -/
def ringPages : List Nat := [0x008, 0x009, 0x00A, 0x024]

/-- On the ring's pages `s` has the registers of `b` but those of `dropOffs`, and every event of `b`. -/
structure RingSoft (b s : State) : Prop where
  rd : ∀ p o, p ∈ ringPages → o < 4096 → o ∉ dropOffs → s.rd p o = b.rd p o
  ev : ∀ p n, p ∈ ringPages → b.event p n = true → s.event p n = true

namespace RingSoft

variable {b s t : State}

theorem refl (s : State) : RingSoft s s := ⟨fun _ _ _ _ _ => rfl, fun _ _ _ h => h⟩

theorem trans (h : RingSoft b s) (h' : RingSoft s t) : RingSoft b t :=
  ⟨fun p o hp ho hm => (h'.rd p o hp ho hm).trans (h.rd p o hp ho hm), fun p n hp hn => h'.ev p n hp (h.ev p n hp hn)⟩

theorem of_regs (h : RingSoft b s) (e : t.regs = s.regs) : RingSoft b t :=
  h.trans ⟨fun p o _ _ _ => State.rd_of_regs e p o, fun p n _ hn => by simpa only [State.event, State.rd_of_regs e] using hn⟩

/-- The parts of the state, and the pages of the core and of the queues. -/
def coreMask : Nat := 0x60FFFFFFFF

theorem ringKind_apart {p : Nat} (hp : p ∈ ringPages) : coreMask.testBit (kindBit (kindOf p)) = false := by
  simp only [ringPages, List.mem_cons, List.not_mem_nil, or_false] at hp
  rcases hp with rfl | rfl | rfl | rfl <;> rfl

theorem framed (h : RingSoft b s) (hf : Framed coreMask s t) : RingSoft b t :=
  h.trans ⟨fun p o hp _ _ => hf.rd p o (ringKind_apart hp), fun p n hp hn => by
    simpa only [State.event, hf.rd p EVT_STATUS (ringKind_apart hp)] using hn⟩

theorem fs (h : RingSoft b s) {p : Nat} {f : Fld} {v : Nat} (hf : f.off ∈ dropOffs.tail) : RingSoft b (s.fs p f v) := by
  have hoff : f.off < 4096 ∧ f.off ≠ EVT_STATUS := by
    simp only [dropOffs, List.tail_cons, List.mem_cons, List.not_mem_nil, or_false] at hf
    rcases hf with e | e | e | e | e <;> rw [e] <;> decide
  refine h.trans ⟨fun q o _ ho hm => ?_, fun q n _ hn => ?_⟩
  · rw [State.fs, State.rd_wr, if_neg]
    intro e
    obtain ⟨-, rfl⟩ := regKey_inj hoff.1 ho e
    exact hm (List.mem_of_mem_tail hf)
  · rw [State.event, State.fs, State.rd_wr, if_neg]
    · exact hn
    · intro e
      exact hoff.2 (regKey_inj hoff.1 (by decide) e).2.symm

theorem inc (h : RingSoft b s) {p : Nat} {f : Fld} (hf : f.off ∈ dropOffs.tail) : RingSoft b (s.inc p f) := h.fs hf

theorem raise (h : RingSoft b s) (p n : Nat) : RingSoft b (s.raise p n) :=
  h.trans ⟨fun q o _ ho hm => by
    rw [State.rd_raise, if_neg]
    intro e
    obtain ⟨-, rfl⟩ := regKey_inj (by decide) ho e
    exact hm (by decide), fun q m _ hm => State.event_raise_keeps _ _ _ hm⟩

theorem raiseIf (h : RingSoft b s) (c : Bool) (p n : Nat) : RingSoft b (s.raiseIf c p n) := by
  unfold State.raiseIf
  split
  · exact h.raise p n
  · exact h

theorem ite {c : Prop} [Decidable c] (hs : RingSoft b s) (ht : RingSoft b t) : RingSoft b (if c then s else t) := by
  split <;> assumption

theorem foldl {α : Type} (f : State → α → State) (hf : ∀ u a, RingSoft u (f u a)) : ∀ (l : List α) {s : State}, RingSoft b s →
    RingSoft b (l.foldl f s)
  | [], _, h => h
  | _ :: l, _, h => foldl f hf l (h.trans (hf _ _))

end RingSoft

theorem State.event_of_regs {s t : State} (h : t.regs = s.regs) (p n : Nat) : t.event p n = s.event p n := by
  simp only [State.event, State.rd_of_regs h]

/-! ### Admission -/

theorem State.pcnt_soft (s : State) (p o : Nat) : RingSoft s (s.pcnt p o) := (RingSoft.refl s).framed (State.pcnt_framed (.refl _ s) rfl)

theorem State.judge_soft (s : State) (p : Nat) (c : Cls) (w : Want) (head : Nat) : RingSoft s (s.judge p c w head).1 := by
  unfold State.judge
  dsimp only
  split
  · exact State.pcnt_soft ..
  · split
    · exact .refl s
    · split
      · exact .refl s
      · exact .ite ((State.pcnt_soft ..).inc (by decide)) (State.pcnt_soft ..)
      · exact .ite (((State.pcnt_soft ..).raise _ _).inc (by decide)) ((State.pcnt_soft ..).raise _ _)

theorem State.pushEnt_soft (s : State) (q : Nat) (e : QEnt) : RingSoft s (s.pushEnt q e) := (RingSoft.refl s).of_regs rfl

theorem State.admitTwin_soft (s : State) (p : Nat) (c : Cls) (head : Nat) (w : Want) : RingSoft s (s.admitTwin p c head w).1 := by
  unfold State.admitTwin
  have hj := s.judge_soft p c { w with q := 8 + c.code, hold := none } head
  split
  · split
    next u e h => rw [h] at hj; exact hj.trans (State.pushEnt_soft ..)
    next u h => rw [h] at hj; exact hj
  · exact .refl s

theorem RingSoft.foldl_pair {α β : Type} {b : State} (f : State × β → α → State × β) (hf : ∀ t a, RingSoft t.1 (f t a).1) :
    ∀ (l : List α) {t : State × β}, RingSoft b t.1 → RingSoft b (l.foldl f t).1
  | [], _, h => h
  | _ :: l, _, h => RingSoft.foldl_pair f hf l (h.trans (hf _ _))

theorem State.admitAll_soft (s : State) (p : Nat) (c : Cls) (head : Nat) (ws : List Want) : RingSoft s (s.admitAll p c head ws).1 := by
  unfold State.admitAll
  refine RingSoft.foldl_pair _ (fun t w => ?_) ws (.refl s)
  dsimp only
  have hj := t.1.judge_soft p c w head
  split
  next u e hu => rw [hu] at hj; exact (hj.trans (State.pushEnt_soft ..)).trans (State.admitTwin_soft ..)
  next u hu => rw [hu] at hj; exact hj

theorem State.putHead_soft (s : State) (i p b : Nat) (c : Cls) (ws : List Want) (lost0 fed : Bool) (bytes : List Byte) (cells : Nat)
    (bad : Bool) : RingSoft s (s.putHead i p b c ws lost0 fed bytes cells bad) := by
  unfold State.putHead
  dsimp only
  have ha := s.admitAll_soft p c (b * 1024 + (s.bank b).take.1) ws
  generalize s.admitAll p c (b * 1024 + (s.bank b).take.1) ws = u at ha ⊢
  obtain ⟨s1, k, lost⟩ := u
  refine ha.framed ?_
  have hin : Framed RingSoft.coreMask s1 (s1.pcnt p CORE_PCNT_FRAMES_IN) := State.pcnt_framed (.refl _ s1) rfl
  have hfed := Framed.ite (c := (fed && !(ws.any fun w => w.acct && !(decide (w.q < 120) && s.portDown (w.q / 4)))) = true)
    (State.freed_framed (p := ringLane p) (c := c) (n := (bytes.length + 23) / 24) hin rfl) hin
  split
  · exact State.pcnt_framed (State.setIng_framed hfed rfl) rfl
  · have hput := fun r g => State.putCell_framed (i := i) (p := p) (x3 := b) (State.setIng_framed (p := i) (v := g)
      (State.setRec_framed (c := b * 1024 + (s.bank b).take.1) (v := r) hfed rfl) rfl) rfl
    exact .ite (State.partialDelivery_framed (.ite (State.settleCharge_framed (hput _ _) rfl) (hput _ _)) rfl)
      (.ite (State.settleCharge_framed (hput _ _) rfl) (hput _ _))

theorem State.placeDirect_soft (s : State) (p q : Nat) (f : Frame) : RingSoft s (s.placeDirect p q f) := by
  unfold State.placeDirect
  dsimp only
  split
  · exact .refl s
  · have hrest := State.writeRest_framed (i := p) (p := p) (a := 64) (.refl RingSoft.coreMask s) rfl
    have hwait := Framed.ite (c := (State.writeRest p p 64 s).pickBank.isNone = true) (State.defer_framed (i := 100 + p) hrest rfl) hrest
    split
    next => exact (RingSoft.refl s).framed (State.raise_framed (State.pcnt_framed hwait rfl) rfl rfl)
    next k _ =>
      refine RingSoft.framed (((RingSoft.refl s).framed hwait).trans (State.putHead_soft _ (100 + p) p k f.hdr.cls
        [⟨q, false, f.cells, none⟩] false false f.bytes f.cells false)) ?_
      refine State.setIng_framed (.ite (State.setVerdict_framed ?_ rfl) ?_) rfl
      all_goals exact State.writeRest_framed (State.endCycle_framed (.refl _ _) rfl) rfl

/-! ### Fences, and frames moved to the other port -/

theorem State.setPort_soft (s : State) (p : LanePort) (v : Port) : RingSoft s (s.setPort p v) := (RingSoft.refl s).of_regs rfl

theorem State.fenceQueue_soft (p : RingPort) (kind : Nat) (s : State) (c : Cls) : RingSoft s (State.fenceQueue p kind s c) := by
  unfold State.fenceQueue
  exact .ite (State.placeDirect_soft ..) ((RingSoft.refl s).of_regs rfl)

theorem State.fencesOn_soft (s : State) (p : RingPort) (kind : Nat) : RingSoft s (s.fencesOn p kind) := by
  unfold State.fencesOn
  exact .foldl _ (State.fenceQueue_soft p kind) _ (.ite (State.fenceQueue_soft ..) (State.setPort_soft ..))

theorem State.fences_soft (s : State) (ports : List RingPort) (kind : Nat) : RingSoft s (s.fences ports kind) := by
  unfold State.fences
  split
  · exact .refl s
  · exact RingSoft.of_regs (.foldl _ (fun t p => t.fencesOn_soft p kind) _ (.refl s)) rfl

theorem State.endCopy_soft (s : State) (e : QEnt) : RingSoft s (s.endCopy e) := (RingSoft.refl s).framed (State.endCopy_framed (.refl _ s) rfl)

theorem State.moveEnt_soft (p : RingPort) (c : Nat) (s : State) (e : QEnt) : RingSoft s (State.moveEnt p c s e) := by
  unfold State.moveEnt
  dsimp only
  split
  · exact ((RingSoft.refl s).inc (by decide)).trans (State.endCopy_soft ..)
  · split
    · exact ((RingSoft.refl s).inc (by decide)).trans (State.endCopy_soft ..)
    · exact (RingSoft.refl s).of_regs rfl

theorem State.moveMerged_soft (p : RingPort) (s : State) (f : Frame) : RingSoft s (State.moveMerged p s f) := by
  unfold State.moveMerged
  split
  · exact (RingSoft.refl s).inc (by decide)
  · split
    · exact State.setPort_soft ..
    · exact (RingSoft.refl s).inc (by decide)

theorem State.moveQueues_soft (s : State) (p : RingPort) : RingSoft s (s.moveQueues p) := by
  unfold State.moveQueues
  dsimp only
  refine .foldl _ (State.moveMerged_soft p) _ (RingSoft.trans ?_ (State.setPort_soft ..))
  refine .foldl _ (fun t c => ?_) _ (.ite (.refl s) ((RingSoft.refl s).of_regs rfl))
  exact .foldl _ (State.moveEnt_soft p c) _ ((RingSoft.refl t).of_regs rfl)

/-! ### The watch over the twin (R377) -/

theorem State.claim_soft (s : State) : RingSoft s s.claim := by
  unfold State.claim State.setRole
  exact .fs (.ite ((RingSoft.refl s).raiseIf _ _ _) ((((RingSoft.refl s).raiseIf _ _ _).fs (by decide)).raise _ _)) (by decide)

theorem State.twinWatch_soft (s : State) : RingSoft s s.twinWatch := by
  unfold State.twinWatch
  split
  · exact .refl s
  · split
    · split
      · exact .refl s
      · have hlost : RingSoft s ({ s with tw := { s.tw with silent := true } }.raise 0x024 EV_TW_TWIN_LOST) :=
          RingSoft.raise (s := { s with tw := { s.tw with silent := true } }) ((RingSoft.refl s).of_regs rfl) _ _
        exact .ite (hlost.trans (State.claim_soft _)) hlost
    · exact (RingSoft.refl s).of_regs rfl

/-! ### A ring port wraps (R147, R148) -/

theorem ringPage_mem (p : RingPort) : p.page ∈ ringPages := by cases p <;> decide

theorem RingSoft.fg {b s : State} (h : RingSoft b s) (p : RingPort) {f : Fld} (hf : f.off < 4096 ∧ f.off ∉ dropOffs) :
    s.fg p.page f = b.fg p.page f := by simp only [State.fg, h.rd _ _ (ringPage_mem p) hf.1 hf.2]

/-- A port that is not wrapped wraps: WRAPPED shows it, its neighbour's state and every event stay. -/
theorem State.wrap_spec (s : State) (p : RingPort) :
    (s.wrap p).wrapped p = true ∧ (s.wrap p).fg p.page RP_NEIGHBOUR_STATE = s.fg p.page RP_NEIGHBOUR_STATE ∧
    (∀ o < 4096, o ∉ dropOffs → o ≠ RP_NEIGHBOUR → (s.wrap p).rd p.page o = s.rd p.page o) ∧
    ∀ n, s.event p.page n = true → (s.wrap p).event p.page n = true := by
  unfold State.wrap
  split
  next hw => exact ⟨hw, rfl, fun _ _ _ _ => rfl, fun _ h => h⟩
  next =>
    dsimp only
    have hsoft := RingSoft.raise (((State.setPort_soft ((s.fs p.page RP_NEIGHBOUR_WRAPPED 1).fs p.page RP_NEIGHBOUR_FROZEN 0) p.lanes
      { ((s.fs p.page RP_NEIGHBOUR_WRAPPED 1).fs p.page RP_NEIGHBOUR_FROZEN 0).port p.lanes with grace := 0 }).trans
        (State.fences_soft _ [p.other] 1)).trans (State.moveQueues_soft _ p)) p.page EV_RP_WRAP_START
    refine ⟨?_, ?_, fun o ho hm hn => ?_, fun n hn => ?_⟩
    · simp (disch := decide) only [State.wrapped, State.fb, hsoft.fg p (f := RP_NEIGHBOUR_WRAPPED) (by decide), State.fg_fs_apart, State.fg_fs]
      rfl
    · simp (disch := decide) only [hsoft.fg p (f := RP_NEIGHBOUR_STATE) (by decide), State.fg_fs_apart]
    · have hk : regKey 0 o ≠ regKey 0 RP_NEIGHBOUR := fun e => hn (regKey_inj (by decide : RP_NEIGHBOUR < 4096) ho e).2
      rw [hsoft.rd _ _ (ringPage_mem p) ho hm, State.rd_fs_off _ _ _ hk, State.rd_fs_off _ _ _ hk]
    · refine hsoft.ev _ _ (ringPage_mem p) ?_
      rw [State.event_fs_off _ _ _ _ (by decide), State.event_fs_off _ _ _ _ (by decide)]
      exact hn

/-! ### The guy line (R143, R144) -/

theorem State.twinWatch_ports (s : State) : s.twinWatch.ring = s.ring :=
  (State.twinWatch_framed (.refl 0x80000400808 s) (.self _)).part .ring rfl

theorem lanes_other_ne (p : RingPort) : laneIdx p.other.lanes ≠ laneIdx p.lanes := by cases p <;> decide

theorem State.port_setPort_other (s : State) {l m : LanePort} (v : Port) (h : laneIdx m ≠ laneIdx l) : (s.setPort l v).port m = s.port m :=
  Map.getD_put_other _ _ _ _ h

theorem State.ridge_soft (s : State) (p o : RingPort) (f : Frame) : RingSoft s (s.ridge p o f) := by
  unfold State.ridge
  exact .ite (RingSoft.inc (State.setPort_soft ..) (by decide)) (.refl s)

theorem State.llPass_soft (s : State) (p : RingPort) (f : Frame) : RingSoft s (s.llPass p f) := by
  unfold State.llPass
  dsimp only
  exact .ite (.ite (.refl s) ((RingSoft.refl s).inc (by decide))) (State.ridge_soft ..)

theorem State.llPass_guyEver (s : State) (p : RingPort) (f : Frame) (l : LanePort) :
    ((s.llPass p f).port l).guyEver = (s.port l).guyEver := by
  unfold State.llPass State.ridge State.mergeIn
  dsimp only
  split
  · split <;> rfl
  · split
    · rw [State.inc_eq_fs, State.port_fs]
      by_cases hl : laneIdx l = laneIdx (dirPort f.hdr.dir).lanes
      · rw [show l = (dirPort f.hdr.dir).lanes by revert hl; cases l <;> cases f.hdr.dir <;> decide, State.port_setPort]
      · rw [State.port_setPort_other _ _ hl]
    · rfl

theorem State.creditInit_regs (s : State) (p : LanePort) : (s.creditInit p).regs = s.regs := rfl

theorem State.port_creditInit (s : State) (p l : LanePort) : (s.creditInit p).port l = s.port l := rfl

/-- What a port shows of the guy frame received from a hub. -/
def State.guyShow (s : State) (p : RingPort) (src st : Nat) : State :=
  ((s.fs p.page RP_NEIGHBOUR_GUY_HUB src).fs p.page RP_NEIGHBOUR_GUY_VALID 1).fs p.page RP_NEIGHBOUR_STATE st

/-- A guy frame of another hub: the change of neighbour, then what the port shows, then the watch over the twin. -/
theorem State.guyIn_steps (s : State) (p : RingPort) {src : Nat} (hself : s.isSelf src = false) (ha : s.portActive p.lanes = true) :
    ∃ u : State, s.guyIn p src = (u.guyShow p src (if s.fg p.page LN_PARTNER_HUB % 128 = src then 1 else 2)).twinWatch ∧
      RingSoft s u ∧ (u.port p.lanes).guyEver = true ∧ u.port p.other.lanes = s.port p.other.lanes ∧
      (((s.port p.lanes).guyEver = true ∧ s.fg p.page RP_NEIGHBOUR_GUY_HUB ≠ src) → u.event p.page EV_RP_NEIGHBOUR_CHANGED = true) := by
  have hraise := fun c => (RingSoft.refl s).raiseIf c p.page EV_RP_NEIGHBOUR_CHANGED
  unfold State.guyIn
  rw [if_neg (by simp [hself, ha])]
  dsimp only
  generalize hch : ((s.port p.lanes).guyEver && decide (s.fg p.page RP_NEIGHBOUR_GUY_HUB ≠ src)) = ch
  generalize hu : (if (ch && !!s.fb p.page RP_NEIGHBOUR_GUY_VALID) = true then
      ((s.raiseIf ch p.page EV_RP_NEIGHBOUR_CHANGED).creditInit p.lanes).setPort p.lanes
        { ((s.raiseIf ch p.page EV_RP_NEIGHBOUR_CHANGED).creditInit p.lanes).port p.lanes with initDue := true }
    else s.raiseIf ch p.page EV_RP_NEIGHBOUR_CHANGED) = u
  have hregs : u.regs = (s.raiseIf ch p.page EV_RP_NEIGHBOUR_CHANGED).regs := by
    rw [← hu]
    split
    · rw [State.setPort_regs, State.creditInit_regs]
    · rfl
  have hport : u.port p.other.lanes = s.port p.other.lanes := by
    rw [← hu]
    split
    · rw [State.port_setPort_other _ _ (lanes_other_ne p), State.port_creditInit, State.port_raiseIf]
    · exact State.port_raiseIf ..
  have hsoft : RingSoft s (u.setPort p.lanes { u.port p.lanes with guyEver := true }) := ((hraise ch).of_regs hregs).of_regs rfl
  refine ⟨u.setPort p.lanes { u.port p.lanes with guyEver := true }, ?_, hsoft, ?_, ?_, fun hc => ?_⟩
  · rw [hsoft.fg p (f := LN_PARTNER_HUB) (by decide)]
    simp only [decide_eq_true_eq, State.guyShow]
  · rw [State.port_setPort]
  · rw [State.port_setPort_other _ _ (lanes_other_ne p), hport]
  · have hon : ch = true := by simp [← hch, hc]
    have hev : (s.raiseIf ch p.page EV_RP_NEIGHBOUR_CHANGED).event p.page EV_RP_NEIGHBOUR_CHANGED = true := by
      rw [hon]
      exact State.event_raise (hb := by decide) ..
    exact (State.event_of_regs (by rw [State.setPort_regs, hregs]) _ _).trans hev

/-- Events and the registers besides RP_NEIGHBOUR stay as a port shows its neighbour. -/
theorem State.guyShow_rd (s : State) (p : RingPort) (src st : Nat) {q o : Nat} (h : regKey q o ≠ regKey p.page RP_NEIGHBOUR) :
    (s.guyShow p src st).rd q o = s.rd q o := by
  unfold State.guyShow
  exact ((State.rd_fs ..).trans (if_neg h)).trans (((State.rd_fs ..).trans (if_neg h)).trans ((State.rd_fs ..).trans (if_neg h)))

theorem otherPage_ne (p : RingPort) : p.other.page ≠ p.page := by cases p <;> decide

/-- A guy frame leaves the other ring port. -/
theorem State.guyIn_other (s : State) (p : RingPort) (src : Nat) (ha : s.portActive p.lanes = true) :
    (s.guyIn p src).port p.other.lanes = s.port p.other.lanes ∧
    ∀ o < 4096, o ∉ dropOffs → (s.guyIn p src).rd p.other.page o = s.rd p.other.page o := by
  by_cases hself : s.isSelf src = true
  · have e : s.guyIn p src = s := if_pos (by simp [hself])
    rw [e]
    exact ⟨rfl, fun _ _ _ => rfl⟩
  · obtain ⟨u, e, hsoft, -, hport, -⟩ := s.guyIn_steps p (src := src) (by simpa using hself) ha
    rw [e]
    refine ⟨?_, fun o ho hm => ?_⟩
    · rw [State.port, State.twinWatch_ports]
      exact hport
    · rw [(State.twinWatch_soft _).rd _ _ (ringPage_mem _) ho hm, State.guyShow_rd _ _ _ _ (regKey_ne_of_page (otherPage_ne p) _ _),
        hsoft.rd _ _ (ringPage_mem _) ho hm]

theorem ringLanes_page (p : RingPort) : p.lanes.page = p.page := by cases p <;> rfl

theorem dirPort_recvDir (p : RingPort) : dirPort (recvDir p) = p.other := by cases p <;> rfl

/-- The neighbour's silence (R144): the state and its event, and whether the port may wrap. -/
theorem State.silence_spec (s : State) (p : RingPort) :
    let t := (s.fs p.page RP_NEIGHBOUR_STATE 3).raise p.page EV_RP_GUY_LOST
    t.fg p.page RP_NEIGHBOUR_STATE = 3 ∧ t.event p.page EV_RP_GUY_LOST = true ∧ t.mayWrap p = s.mayWrap p ∧
    t.wrapped p = s.wrapped p := by
  refine ⟨?_, State.event_raise (hb := by decide) .., ?_, ?_⟩
  · simp (disch := decide) only [State.fg_raise_off, State.fg_fs]
    rfl
  · have hrc : 0x00A ≠ p.page := by cases p <;> decide
    have ho := otherPage_ne p
    simp only [State.mayWrap, State.fb, State.portActive, State.pstate, ringLanes_page, State.fg_raise_page _ _ _ hrc,
      State.fg_fs_page _ _ _ _ hrc, State.fg_raise_page _ _ _ ho, State.fg_fs_page _ _ _ _ ho]
  · simp (disch := decide) only [State.wrapped, State.fb, State.fg_raise_off, State.fg_fs_apart]

/-- Settles O29, by the registers that the guy line's commands leave. -/
theorem guyLineFollowsTheNeighbour : Obligations.GuyLineFollowsTheNeighbour := by
  refine ⟨?_, ?_, ?_, ?_⟩
  · intro s port ha hr
    refine ⟨_, congrArg Host.Outcome.next (if_neg (by simp [ha, hr])), ?_⟩
    dsimp only [State.llOut]
    rw [State.port_setPort, State.port_setPort]
    refine ⟨rfl, ?_, ?_, rfl⟩
    · rw [List.getLast?_concat]
      rfl
    · exact List.length_append
  · intro s port src seq wf ha hself
    obtain ⟨u, e, hsoft, hever, -, hch⟩ := s.guyIn_steps port hself ha
    generalize hst : (if s.fg port.page LN_PARTNER_HUB % 128 = src.val then 1 else 2) = st at e ⊢
    have hst7 : st < 8 := by rw [← hst]; split <;> decide
    have hw := State.twinWatch_soft (u.guyShow port src st)
    have hshown : ∀ t, RingSoft (u.guyShow port src st) t → (t.port port.lanes).guyEver = true →
        t.fg port.page RP_NEIGHBOUR_GUY_HUB = src.val ∧ t.fg port.page RP_NEIGHBOUR_GUY_VALID = 1 ∧
        t.fg port.page RP_NEIGHBOUR_STATE = st ∧
        (((s.port port.lanes).guyEver = true ∧ s.fg port.page RP_NEIGHBOUR_GUY_HUB ≠ src.val) →
          t.event port.page EV_RP_NEIGHBOUR_CHANGED = true) ∧ (t.port port.lanes).guyEver = true := by
      intro t ht hg
      refine ⟨?_, ?_, ?_, fun hc => ht.ev _ _ (ringPage_mem port) ?_, hg⟩
      · rw [ht.fg port (f := RP_NEIGHBOUR_GUY_HUB) (by decide)]
        simp (disch := decide) only [State.guyShow, State.fg_fs_apart, State.fg_fs]
        exact Nat.mod_eq_of_lt src.isLt
      · rw [ht.fg port (f := RP_NEIGHBOUR_GUY_VALID) (by decide)]
        simp (disch := decide) only [State.guyShow, State.fg_fs_apart, State.fg_fs]
        rfl
      · rw [ht.fg port (f := RP_NEIGHBOUR_STATE) (by decide)]
        simp (disch := decide) only [State.guyShow, State.fg_fs]
        exact Nat.mod_eq_of_lt hst7
      · rw [State.event, State.guyShow_rd _ _ _ _ (regKey_ne_of_off (by decide) _ _)]
        exact hch hc
    have hring : ((s.guyIn port src.val).port port.lanes).guyEver = true := by
      rw [e, State.port, State.twinWatch_ports]
      exact hever
    refine ⟨_, rfl, ?_⟩
    dsimp only
    split
    · exact hshown _ ((e ▸ hw).trans (State.llPass_soft ..)) ((State.llPass_guyEver ..).trans hring)
    · exact hshown _ (e ▸ hw) hring
  · intro s port src seq wf ha hr hoa how
    obtain ⟨hport, hrd⟩ := s.guyIn_other port src.val ha
    have hact : (s.guyIn port src.val).portActive port.other.lanes = true := by
      simpa only [State.portActive, State.pstate, State.fg, ringLanes_page, hrd LN_STATUS_PSTATE.off (by decide) (by decide)] using hoa
    have hwr : (s.guyIn port src.val).wrapped port.other = false := by
      simpa only [State.wrapped, State.fb, State.fg, hrd RP_NEIGHBOUR_WRAPPED.off (by decide) (by decide)] using how
    refine ⟨_, congrArg Host.Outcome.next (if_pos (by simp [hr, ha])), ?_⟩
    dsimp only [State.llPass]
    rw [dirPort_recvDir, if_neg (by simp [hwr]), State.ridge, if_pos hact, State.inc_eq_fs, State.port_fs, State.mergeIn, State.port_setPort, hport]
    exact List.map_append
  · intro s port ha hn
    obtain ⟨hst, hev, hmay, hwr⟩ := s.silence_spec port
    refine ⟨_, congrArg Host.Outcome.next (if_neg (by simp [ha, hn])), ?_⟩
    dsimp only
    generalize (s.fs port.page RP_NEIGHBOUR_STATE 3).raise port.page EV_RP_GUY_LOST = t at hst hev hmay hwr ⊢
    rw [hmay]
    have hw := State.twinWatch_soft (if s.mayWrap port = true then t.wrap port else t)
    obtain ⟨hwd, hws, -, hwe⟩ := t.wrap_spec port
    simp only [State.wrapped, State.fb, hw.fg port (f := RP_NEIGHBOUR_STATE) (by decide), hw.fg port (f := RP_NEIGHBOUR_WRAPPED) (by decide)]
    refine ⟨?_, hw.ev _ _ (ringPage_mem port) ?_, fun h => ?_, fun h => ?_⟩
    · split
      · exact hws.trans hst
      · exact hst
    · split
      · exact hwe _ hev
      · exact hev
    · rw [if_pos h]
      exact hwd
    · rw [if_neg (by simp [h])]
      exact hwr

end Sys2Proof.Machine
end

section
set_option Elab.async false
namespace Sys2Proof.Machine

/-! ### The fence number (R150)

The frames that the core takes and drops give credits back; they leave the number of the next fence. -/

/-- The fence number of `s` is that of `b`. -/
structure SameFseq (b s : State) : Prop where
  eq : s.ring.fseq = b.ring.fseq

namespace SameFseq

variable {b s t : State}

theorem refl (s : State) : SameFseq s s := ⟨rfl⟩

theorem trans (h : SameFseq b s) (h' : SameFseq s t) : SameFseq b t := ⟨h'.eq.trans h.eq⟩

theorem of_ring (h : t.ring = s.ring) : SameFseq s t := ⟨by rw [h]⟩

theorem ite {c : Prop} [Decidable c] (hs : SameFseq b s) (ht : SameFseq b t) : SameFseq b (if c then s else t) := by
  split <;> assumption

theorem foldl {α : Type} (f : State → α → State) (hf : ∀ t a, SameFseq t (f t a)) : ∀ (l : List α) {s : State}, SameFseq b s →
    SameFseq b (l.foldl f s)
  | [], _, h => h
  | _ :: l, _, h => foldl f hf l (h.trans (hf _ _))

end SameFseq

theorem State.setIng_fseq (s : State) (i : Nat) (v : Ing) : SameFseq s (s.setIng i v) := ⟨rfl⟩

theorem State.setRec_fseq (s : State) (c : Nat) (r : FRec) : SameFseq s (s.setRec c r) := ⟨rfl⟩

theorem State.freed_fseq (s : State) (p : LanePort) (c : Cls) (n : Nat) : SameFseq s (s.freed p c n) := by
  unfold State.freed
  exact .ite (.refl s) ⟨rfl⟩

theorem State.endCopy_fseq (s : State) (e : QEnt) : SameFseq s (s.endCopy e) := by
  unfold State.endCopy
  dsimp only
  have hback := SameFseq.ite (c := e.acct = true) (s.freed_fseq (ringLane (s.frec e.cell).ingress) (s.frec e.cell).cls
    (s.frameCells e.cell)) (.refl s)
  refine hback.trans (.of_ring ?_)
  exact (State.freeEnt_framed (State.unref_framed (.refl 0x1000 _) (.self _)) (.self _)).part .ring rfl

theorem State.pcnt_fseq (s : State) (p o : Nat) : SameFseq s (s.pcnt p o) :=
  .of_ring ((State.pcnt_framed (.refl 0x2000000000 s) (.self _)).part .ring rfl)

theorem State.badCopies_fseq (s : State) (head : Nat) : SameFseq s (s.badCopies head) := by
  unfold State.badCopies
  refine .foldl _ (fun t e => ?_) _ ⟨rfl⟩
  dsimp only
  refine .ite (.refl t) (.foldl _ (fun u x => ?_) _ ⟨rfl⟩)
  exact (u.pcnt_fseq (s.frec head).ingress CORE_PCNT_DROP_BAD).trans (State.endCopy_fseq ..)

theorem State.setVerdict_fseq (s : State) (head : Nat) (good : Bool) : SameFseq s (s.setVerdict head good) := by
  unfold State.setVerdict
  exact .ite (.refl s) (.ite ⟨rfl⟩ ((State.setRec_fseq ..).trans (State.badCopies_fseq _ head)))

theorem State.putCell_fseq (s : State) (i p b : Nat) : SameFseq s (s.putCell i p b) :=
  .of_ring ((State.putCell_framed (.refl 0x2000001000 s) (.self _)).part .ring rfl)

theorem State.putNext_fseq (s : State) (i p b : Nat) : SameFseq s (s.putNext i p b) := by
  unfold State.putNext
  dsimp only
  have hset := s.setIng_fseq i
  refine .ite (.ite ((hset _).trans (State.setVerdict_fseq ..)) ((hset _).trans (State.pcnt_fseq ..))) (.ite ?_ ?_)
  · exact .ite ((s.putCell_fseq i p b).trans ⟨rfl⟩) (s.putCell_fseq i p b)
  · exact (hset _).trans (State.pcnt_fseq ..)

theorem State.defer_fseq (s : State) (i : Nat) : SameFseq s (s.defer i) :=
  .of_ring ((State.defer_framed (.refl 0x2000001000 s) (.self _)).part .ring rfl)

theorem State.writeNext_fseq (s : State) (i p : Nat) : SameFseq s (s.writeNext i p) := by
  unfold State.writeNext
  split
  · exact State.putNext_fseq ..
  · split
    · exact State.defer_fseq ..
    · exact (State.putNext_fseq ..).trans ⟨rfl⟩

theorem State.writeRest_fseq (i p n : Nat) (s : State) : SameFseq s (State.writeRest i p n s) := by
  induction n generalizing s with
  | zero => exact .refl s
  | succ n ih => exact .ite (.refl s) ((s.writeNext_fseq i p).trans (ih _))

theorem State.putHead_fseq (s : State) (i p b : Nat) (c : Cls) (ws : List Want) (lost0 fed : Bool) (bytes : List Byte) (cells : Nat)
    (bad : Bool) : SameFseq s (s.putHead i p b c ws lost0 fed bytes cells bad) := by
  unfold State.putHead
  dsimp only
  have ha : SameFseq s (s.admitAll p c (b * 1024 + (s.bank b).take.1) ws).1 :=
    .of_ring ((State.admitAll_framed (.refl 0x82800001808 s) (.self _)).part .ring rfl)
  generalize s.admitAll p c (b * 1024 + (s.bank b).take.1) ws = u at ha ⊢
  obtain ⟨s1, k, lost⟩ := u
  refine ha.trans ?_
  have hin := s1.pcnt_fseq p CORE_PCNT_FRAMES_IN
  have hfed := SameFseq.ite (c := (fed && !(ws.any fun w => w.acct && !(decide (w.q < 120) && s.portDown (w.q / 4)))) = true)
    (hin.trans (State.freed_fseq _ (ringLane p) c ((bytes.length + 23) / 24))) hin
  split
  · exact (hfed.trans (State.setIng_fseq ..)).trans (State.pcnt_fseq ..)
  · have hput := fun r v => ((hfed.trans (State.setRec_fseq _ (b * 1024 + (s.bank b).take.1) r)).trans
      (State.setIng_fseq _ i v)).trans (State.putCell_fseq _ i p b)
    have hlast : ∀ (t : State) (c₁ c₂ : Bool) (h n : Nat), SameFseq t
        (if c₂ then (if c₁ then t.settleCharge h n else t).partialDelivery h else if c₁ then t.settleCharge h n else t) := fun t c₁ c₂ h n => by
      have hset := Framed.ite (c := c₁ = true) (State.settleCharge_framed (head := h) (n := n) (.refl 0x2000001808 t) rfl) (.refl _ t)
      exact .of_ring ((Framed.ite (c := c₂ = true) (State.partialDelivery_framed (c := h) hset rfl) hset).part .ring rfl)
    have h5 := hput { refs := k, verdict := .pending, ingress := p, cls := c, written := 1, copies := k }
      { busy := true, k := 0, rest := bytes, stored := true, cells := cells, bad := bad }
    exact h5.trans (hlast _ _ _ _ _)

theorem State.placeDirect_fseq (s : State) (p q : Nat) (f : Frame) : SameFseq s (s.placeDirect p q f) := by
  unfold State.placeDirect
  dsimp only
  have hrest := State.writeRest_fseq p p 64 s
  have hwait := hrest.trans (SameFseq.ite (c := (State.writeRest p p 64 s).pickBank.isNone = true) (State.defer_fseq _ (100 + p)) (.refl _))
  split
  · exact .refl s
  · split
    next => exact (hwait.trans (State.pcnt_fseq ..)).trans (.of_ring (State.raise_ring ..))
    next k _ =>
      have hhead := hwait.trans (State.putHead_fseq _ (100 + p) p k f.hdr.cls [⟨q, false, f.cells, none⟩] false false f.bytes f.cells false)
      generalize State.putHead _ (100 + p) p k f.hdr.cls [⟨q, false, f.cells, none⟩] false false f.bytes f.cells false = u at hhead ⊢
      have hend := (hhead.trans (⟨rfl⟩ : SameFseq u u.endCycle)).trans (State.writeRest_fseq (100 + p) p 64 u.endCycle)
      generalize State.writeRest (100 + p) p 64 u.endCycle = w at hend ⊢
      exact hend.trans ((SameFseq.ite (State.setVerdict_fseq ..) (.refl w)).trans (State.setIng_fseq ..))

theorem State.fenceQueue_fseq (p : RingPort) (kind : Nat) (s : State) (c : Cls) : SameFseq s (State.fenceQueue p kind s c) := by
  unfold State.fenceQueue
  exact .ite (State.placeDirect_fseq ..) ⟨rfl⟩

theorem State.fencesOn_fseq (s : State) (p : RingPort) (kind : Nat) : SameFseq s (s.fencesOn p kind) := by
  unfold State.fencesOn
  exact .foldl _ (State.fenceQueue_fseq p kind) _ (.ite (State.fenceQueue_fseq ..) ⟨rfl⟩)

/-- A fence set uses the next fence number where this hub originates ring frames. -/
theorem State.fences_number (s : State) (ports : List RingPort) (kind : Nat) :
    (s.fences ports kind).ring.fseq = if s.originates then (s.ring.fseq + 1) % 65536 else s.ring.fseq := by
  unfold State.fences
  cases s.originates
  · rfl
  · have h : SameFseq s (ports.foldl (fun t p => t.fencesOn p kind) s) := .foldl _ (fun t p => t.fencesOn_fseq p kind) _ (.refl s)
    exact congrArg (fun n => (n + 1) % 65536) h.eq

/-! ### Holds (R151) -/

theorem Map.getD_map {V W : Type} (g : Nat → V → W) (d : V) (e : W) (k : Nat) : ∀ m : Map V, (m.any fun x => x.1 = k) = true →
    Map.getD (m.map fun x => (x.1, g x.1 x.2)) k e = g k (m.getD k d)
  | [], h => absurd h (by simp)
  | (j, v) :: m, h => by
    by_cases hk : k = j
    · subst hk
      simp [Map.getD]
    · have hm : (m.any fun x => x.1 = k) = true := by
        rw [List.any_cons, Bool.or_eq_true] at h
        exact h.resolve_left (by simpa using fun e => hk e.symm)
      simp only [List.map_cons, Map.getD, if_neg hk]
      exact Map.getD_map g d e k m hm

/-- A flushed ring port keeps at most its started copies. -/
theorem State.flushRing_ents (s : State) (p : RingPort) {c : Nat} (hc : c < 4) :
    ((s.flushRing p).que (4 * p.core + c)).ents.length ≤ 1 := by
  obtain ⟨hin, -⟩ := flushNext_spec p.core (List.range 4) (s, 0) List.nodup_range
  have e : ((s.flushRing p).que (4 * p.core + c)).ents = s.startedEnts (4 * p.core + c) := hin c (List.mem_range.2 hc)
  rw [e, State.startedEnts]
  split
  · exact List.length_take_le 1 _
  · exact Nat.zero_le 1

/-- A hold that expires is closed. -/
theorem State.flow_expired (s : State) (k : Nat) (f : Flow) (g : Fld) (n : Nat) :
    (((s.setFlow k f).regroup.inc 0x00A g).raise 0x00A n).flow k = f := by
  rw [State.flow, State.raise_ring]
  exact Map.getD_put_same ..

/-- Settles O30: the unwrap, the grace flush, and what a fence and an expiry leave of the holds. -/
theorem wrapsFreezesAndFences : Obligations.WrapsFreezesAndFences := by
  refine ⟨?_, ?_, ?_, ?_⟩
  · intro s port hw hen ha hst
    have hgood : (s.wrapped port && s.fb 0x00A RC_CTRL_UNWRAP_EN && s.portActive port.lanes &&
        (decide (s.fg port.page RP_NEIGHBOUR_STATE = 1) || decide (s.fg port.page RP_NEIGHBOUR_STATE = 2))) = true := by
      simpa [hw, hen, ha] using hst
    refine ⟨_, congrArg Host.Outcome.next (if_pos hgood), ?_, State.event_raise (hb := by decide) .., ?_⟩
    · simp (disch := decide) only [State.wrapped, State.fb, State.fg_raise_off, State.fg_fs]
      rfl
    · rw [State.raise_ring, State.fs_ring, State.fences_number]
      have e : (s.ridgeOnly || s.bare || !(s.portActive .east || s.portActive .west)) = !s.originates := by
        simp only [State.originates, State.ringUp, Bool.not_and, Bool.not_not]
      rw [e]
      cases s.originates <;> rfl
  · intro s port hf hg
    refine ⟨_, congrArg Host.Outcome.next ((if_neg (by simp [hf])).trans (if_pos hg)), ?_, State.event_raise (hb := by decide) .., ?_⟩
    · dsimp only
      rw [State.port_setPort]
    · intro c hc
      rw [State.que, State.setPort_core, State.raise_core]
      exact s.flushRing_ents port hc
  · intro s port cls src fseq kind k hk
    refine ⟨_, rfl, ?_, rfl, rfl⟩
    exact Map.getD_map (fun j f => if j / 128 = cls.code then f.fenced port else f) _ _ k s.ring.flows hk
  · intro s cls src hh
    have hopen : ¬(s.flow (flowKey cls src.val)).hold.isNone = true := by simpa [Option.isSome_iff_ne_none] using hh
    refine ⟨_, congrArg Host.Outcome.next (if_neg hopen), ?_, ?_, ?_, State.event_raise (hb := by decide) .., ?_⟩
    · rw [State.flow_expired]
      rfl
    · rw [State.flow_expired]
      rfl
    · rw [State.fg_raise_off _ _ (by decide), State.fg_inc _ _ (by decide)]
      rfl
    · exact ((onlyRegs.of_regs (t := s) (u := (s.setFlow (flowKey cls src.val) (s.flow (flowKey cls src.val)).closed).regroup)
        (.refl [(0x00A, RC_CNT_HOLD_EXP), (0x00A, EVT_STATUS)] s) rfl).inc (p := 0x00A)
        (f := RC_CNT_HOLD_EXP_COUNT) (by decide) (by decide)).raise (by decide)

end Sys2Proof.Machine
end

section
set_option Elab.async false
namespace Sys2Proof.Machine

/-! ### The topology table (R146) -/

theorem State.fg_fs_at (s : State) (p d v : Nat) {f : Fld} (h : f.lo + f.w ≤ 32) : (s.fs p (f.at d) v).fg p (f.at d) = v % 2 ^ f.w :=
  State.fg_fs s p (f.at d) v h

/-- Fields of one entry that do not overlap. -/
theorem State.fg_fs_at_apart (s : State) (p d v : Nat) {f g : Fld} (h : (g.lo + g.w ≤ f.lo ∨ f.lo + f.w ≤ g.lo) ∧ g.lo + g.w ≤ 32) :
    (s.fs p (f.at d) v).fg p (g.at d) = s.fg p (g.at d) := State.fg_fs_apart s p v (.inr h)

/-- Fences leave the registers of the ring's page. -/
theorem State.rd_topoFences (s b : State) (l : List Nat) (o : Nat) : (s.topoFences b l).rd 0x00A o = s.rd 0x00A o := by
  unfold State.topoFences
  split
  · exact (State.fences_framed (.refl 0x82800003808 s) (.self _)).rd _ o rfl
  · rfl

theorem State.fg_topoFences (s b : State) (l : List Nat) (f : Fld) : (s.topoFences b l).fg 0x00A f = s.fg 0x00A f := by
  simp only [State.fg, State.rd_topoFences]

/-- The entry of a source heard, before its fences. -/
def State.topoHeard (s : State) (src : Nat) (dir : Dir) (wraps hops flags : Nat) : State :=
  let s2 := ((s.fs 0x00A (RC_TOPO_LIVE.at (4 * src)) 1).fs 0x00A (RC_TOPO_AGE.at (4 * src)) 0).fs 0x00A (RC_TOPO_REDUNDANT.at (4 * src))
    (bit (nbit flags 2))
  if wraps ≠ 0 then s2
  else if dir = .west then s2.fs 0x00A (RC_TOPO_DIST_E.at (4 * src)) (min 255 (hops + 1))
  else s2.fs 0x00A (RC_TOPO_DIST_W.at (4 * src)) (min 255 (hops + 1))

theorem State.topoIn_eq {s : State} {src : Nat} (h : s.isSelf src = false) (hs : src < 120) (dir : Dir) (wraps hops flags : Nat) :
    s.topoIn src dir wraps hops flags = (s.topoHeard src dir wraps hops flags).topoFences s [src] :=
  if_neg (by simp [h]; omega)

theorem State.topoHeard_only (s : State) {src : Nat} (hs : src < 120) (dir : Dir) (wraps hops flags : Nat) :
    onlyRegs [(0x00A, RC_TOPO + 4 * src)] s (s.topoHeard src dir wraps hops flags) := by
  have hfs : ∀ {t : State} {f : Fld} {v : Nat}, f.off = RC_TOPO → onlyRegs [(0x00A, RC_TOPO + 4 * src)] s t →
      onlyRegs [(0x00A, RC_TOPO + 4 * src)] s (t.fs 0x00A (f.at (4 * src)) v) := fun {t f v} hf h => by
    refine h.fs ?_ ?_
    · simp only [Fld.at, hf, RC_TOPO]; omega
    · simp only [Fld.at, hf, List.mem_singleton]
  unfold State.topoHeard
  have h2 := hfs (f := RC_TOPO_REDUNDANT) (v := bit (nbit flags 2)) rfl (hfs (f := RC_TOPO_AGE) (v := 0) rfl
    (hfs (f := RC_TOPO_LIVE) (v := 1) rfl (.refl _ s)))
  exact .ite h2 (.ite (hfs rfl h2) (hfs rfl h2))

theorem bit_lt_two (b : Bool) : bit b < 2 := by cases b <;> decide

theorem State.topoHeard_fields (s : State) (src : Nat) (dir : Dir) (wraps hops flags : Nat) :
    (s.topoHeard src dir wraps hops flags).fg 0x00A (RC_TOPO_LIVE.at (4 * src)) = 1 ∧
    (s.topoHeard src dir wraps hops flags).fg 0x00A (RC_TOPO_AGE.at (4 * src)) = 0 ∧
    (s.topoHeard src dir wraps hops flags).fg 0x00A (RC_TOPO_REDUNDANT.at (4 * src)) = bit (nbit flags 2) ∧
    ((s.topoHeard src dir wraps hops flags).fg 0x00A (RC_TOPO_DIST_E.at (4 * src)) =
      if wraps = 0 ∧ dir = .west then min 255 (hops + 1) else s.fg 0x00A (RC_TOPO_DIST_E.at (4 * src))) ∧
    ((s.topoHeard src dir wraps hops flags).fg 0x00A (RC_TOPO_DIST_W.at (4 * src)) =
      if wraps = 0 ∧ dir = .east then min 255 (hops + 1) else s.fg 0x00A (RC_TOPO_DIST_W.at (4 * src))) := by
  have hd : min 255 (hops + 1) % 2 ^ 8 = min 255 (hops + 1) := Nat.mod_eq_of_lt (by omega)
  have hb : bit (nbit flags 2) % 2 ^ 1 = bit (nbit flags 2) := Nat.mod_eq_of_lt (bit_lt_two _)
  unfold State.topoHeard
  by_cases hw : wraps = 0
  · cases dir
    all_goals simp (disch := decide) [hw, State.fg_fs_at_apart, State.fg_fs_at]
    all_goals exact ⟨hb, hd⟩
  · simp (disch := decide) [hw, State.fg_fs_at_apart, State.fg_fs_at]
    exact hb

/-- A table without shortest entries sends no fences. -/
theorem State.topoFences_none {s : State} (h : s.anyShortest = false) (b : State) (l : List Nat) : s.topoFences b l = s :=
  if_neg (by simp [h])

theorem State.anyShortest_of {s t : State} (h : ∀ o < 0x140, t.rd 0x00A o = s.rd 0x00A o) : t.anyShortest = s.anyShortest := by
  unfold State.anyShortest
  refine Bool.eq_iff_iff.2 ?_
  simp only [List.any_eq_true, List.mem_range]
  refine exists_congr fun i => and_congr_right fun hi => ?_
  rw [State.pinEntry, State.pinEntry, h _ (by simp only [RC_PIN]; omega)]

theorem topoReceived_completes (s : State) (port : RingPort) (src : Fin 128) (dir : Dir) (wraps hops : Nat) (flags : Byte) (hs : src.val < 120)
    (hself : s.isSelf src.val = false) : completes (.topoReceived port src dir wraps hops flags) s fun t =>
      t.fg 0x00A (RC_TOPO_LIVE.at (4 * src.val)) = 1 ∧
      t.fg 0x00A (RC_TOPO_AGE.at (4 * src.val)) = 0 ∧
      t.fg 0x00A (RC_TOPO_REDUNDANT.at (4 * src.val)) = bit (nbit flags.toNat 2) ∧
      (t.fg 0x00A (RC_TOPO_DIST_E.at (4 * src.val)) =
        if wraps = 0 ∧ dir = .west then min 255 (hops + 1) else s.fg 0x00A (RC_TOPO_DIST_E.at (4 * src.val))) ∧
      (t.fg 0x00A (RC_TOPO_DIST_W.at (4 * src.val)) =
        if wraps = 0 ∧ dir = .east then min 255 (hops + 1) else s.fg 0x00A (RC_TOPO_DIST_W.at (4 * src.val))) ∧
      (s.anyShortest = false → onlyRegs [(0x00A, RC_TOPO + 4 * src.val)] s t) := by
  refine ⟨_, congrArg Host.Outcome.next (State.topoIn_eq hself hs ..), ?_⟩
  simp only [State.fg_topoFences]
  obtain ⟨hlive, hage, hred, he, hw⟩ := s.topoHeard_fields src.val dir wraps hops flags.toNat
  refine ⟨hlive, hage, hred, he, hw, fun hn => ?_⟩
  have honly := s.topoHeard_only hs dir wraps hops flags.toNat
  rw [State.topoFences_none]
  · exact honly
  · rw [State.anyShortest_of fun o ho => honly _ _ (by omega) (by simp [RC_TOPO]; omega), hn]

/-! ### Ageing -/

/-- The entry of another hub, and events, as one entry ages. -/
theorem State.ageEntry_other (s : State) {h o : Nat} (ho : o < 4096) (hh : h < 120) (he : o ≠ EVT_STATUS) (hne : o ≠ RC_TOPO + 4 * h) :
    (s.ageEntry h).rd 0x00A o = s.rd 0x00A o := by
  have hoff : ∀ f : Fld, f.off = RC_TOPO → regKey 0 o ≠ regKey 0 (f.at (4 * h)).off := fun f hf e => by
    refine hne ((regKey_inj ?_ ho e).2.trans ?_)
    · simp only [Fld.at, hf, RC_TOPO]; omega
    · simp only [Fld.at, hf]
  have hev : regKey 0 o ≠ regKey 0 EVT_STATUS := fun e => he (regKey_inj (by decide) ho e).2
  unfold State.ageEntry
  dsimp only
  split
  · rw [State.rd_raise_off _ _ hev, State.rd_fs_off _ _ _ (hoff _ rfl), State.rd_fs_off _ _ _ (hoff _ rfl), State.rd_fs_off _ _ _ (hoff _ rfl),
      State.rd_fs_off _ _ _ (hoff _ rfl)]
  · rw [State.rd_fs_off _ _ _ (hoff _ rfl)]

theorem State.ageEntry_event (s : State) {h n : Nat} (hh : h < 120) (hn : s.event 0x00A n = true) : (s.ageEntry h).event 0x00A n = true := by
  have hoff : ∀ f : Fld, f.off = RC_TOPO → regKey 0 EVT_STATUS ≠ regKey 0 (f.at (4 * h)).off := fun f hf => by
    simp only [Fld.at, hf, regKey, RC_TOPO, EVT_STATUS]; omega
  unfold State.ageEntry
  dsimp only
  split
  · refine State.event_raise_keeps _ _ _ ?_
    rw [State.event_fs_off _ _ _ _ (hoff _ rfl), State.event_fs_off _ _ _ _ (hoff _ rfl), State.event_fs_off _ _ _ _ (hoff _ rfl),
      State.event_fs_off _ _ _ _ (hoff _ rfl)]
    exact hn
  · rw [State.event_fs_off _ _ _ _ (hoff _ rfl)]
    exact hn

/-- Entries other than one, and events, as entries age. -/
theorem State.ageEntries_other : ∀ (l : List Nat) (s : State), (∀ h ∈ l, h < 120) →
    (∀ o < 4096, o ≠ EVT_STATUS → (∀ h ∈ l, o ≠ RC_TOPO + 4 * h) → (l.foldl State.ageEntry s).rd 0x00A o = s.rd 0x00A o) ∧
    ∀ n, s.event 0x00A n = true → (l.foldl State.ageEntry s).event 0x00A n = true
  | [], _, _ => ⟨fun _ _ _ _ => rfl, fun _ h => h⟩
  | a :: l, s, hl => by
    obtain ⟨hrd, hev⟩ := State.ageEntries_other l (s.ageEntry a) fun h hh => hl h (List.mem_cons_of_mem _ hh)
    have ha := hl a List.mem_cons_self
    refine ⟨fun o ho he hne => ?_, fun n hn => hev n (s.ageEntry_event ha hn)⟩
    exact (hrd o ho he fun h hh => hne h (List.mem_cons_of_mem _ hh)).trans (s.ageEntry_other ho ha he (hne a List.mem_cons_self))

/-- What a period makes of an entry. -/
theorem State.ageEntry_fields (s : State) {h : Nat} (hh : h < 120) :
    (s.ageEntry h).fg 0x00A (RC_TOPO_AGE.at (4 * h)) = min 255 (s.fg 0x00A (RC_TOPO_AGE.at (4 * h)) + 1) ∧
    ((s.fb 0x00A (RC_TOPO_LIVE.at (4 * h)) = true ∧ s.fg 0x00A RC_TOPO_CFG_AGE ≤ min 255 (s.fg 0x00A (RC_TOPO_AGE.at (4 * h)) + 1)) →
      (s.ageEntry h).fb 0x00A (RC_TOPO_LIVE.at (4 * h)) = false ∧ (s.ageEntry h).fg 0x00A (RC_TOPO_DIST_E.at (4 * h)) = 0xFF ∧
      (s.ageEntry h).fg 0x00A (RC_TOPO_DIST_W.at (4 * h)) = 0xFF ∧ (s.ageEntry h).event 0x00A EV_RC_TOPO_CHANGE = true) ∧
    (¬(s.fb 0x00A (RC_TOPO_LIVE.at (4 * h)) = true ∧ s.fg 0x00A RC_TOPO_CFG_AGE ≤ min 255 (s.fg 0x00A (RC_TOPO_AGE.at (4 * h)) + 1)) →
      (s.ageEntry h).fb 0x00A (RC_TOPO_LIVE.at (4 * h)) = s.fb 0x00A (RC_TOPO_LIVE.at (4 * h))) := by
  have hoff : ∀ f : Fld, f.off = RC_TOPO → regKey 0 (f.at (4 * h)).off ≠ regKey 0 EVT_STATUS := fun f hf => by
    simp only [Fld.at, hf, regKey, RC_TOPO, EVT_STATUS]; omega
  have hage : min 255 (s.fg 0x00A (RC_TOPO_AGE.at (4 * h)) + 1) % 2 ^ RC_TOPO_AGE.w = min 255 (s.fg 0x00A (RC_TOPO_AGE.at (4 * h)) + 1) :=
    Nat.mod_eq_of_lt (by simp only [RC_TOPO_AGE]; omega)
  have hraise : ∀ (t : State) (f : Fld), f.off = RC_TOPO →
      (t.raise 0x00A EV_RC_TOPO_CHANGE).fg 0x00A (f.at (4 * h)) = t.fg 0x00A (f.at (4 * h)) := fun t f hf => State.fg_raise_off _ _ (hoff f hf)
  unfold State.ageEntry
  dsimp only
  by_cases hc : s.fb 0x00A (RC_TOPO_LIVE.at (4 * h)) = true ∧ s.fg 0x00A RC_TOPO_CFG_AGE ≤ min 255 (s.fg 0x00A (RC_TOPO_AGE.at (4 * h)) + 1)
  · rw [if_pos (by simpa using hc)]
    refine ⟨?_, fun _ => ⟨?_, ?_, ?_, State.event_raise (hb := by decide) ..⟩, fun hn => absurd hc hn⟩
    · rw [hraise _ _ rfl]
      simp (disch := decide) only [State.fg_fs_at_apart, State.fg_fs_at]
      exact hage
    · rw [State.fb, hraise _ _ rfl]
      simp (disch := decide) only [State.fg_fs_at_apart, State.fg_fs_at]
      rfl
    · rw [hraise _ _ rfl]
      simp (disch := decide) only [State.fg_fs_at_apart, State.fg_fs_at]
      rfl
    · rw [hraise _ _ rfl]
      simp (disch := decide) only [State.fg_fs_at_apart, State.fg_fs_at]
      rfl
  · rw [if_neg (by simpa using hc)]
    refine ⟨?_, fun hy => absurd hy hc, fun _ => ?_⟩
    · rw [State.fg_fs_at _ _ _ _ (by decide)]
      exact hage
    · rw [State.fb, State.fb, State.fg_fs_at_apart _ _ _ _ (by decide)]

theorem topoAgeTick_completes (s : State) (h : Nat) (hh : h < 120) : completes (.topoAgeTick) s fun t =>
    t.fg 0x00A (RC_TOPO_AGE.at (4 * h)) = min 255 (s.fg 0x00A (RC_TOPO_AGE.at (4 * h)) + 1) ∧
    ((s.fb 0x00A (RC_TOPO_LIVE.at (4 * h)) = true ∧ s.fg 0x00A RC_TOPO_CFG_AGE ≤ min 255 (s.fg 0x00A (RC_TOPO_AGE.at (4 * h)) + 1)) →
      t.fb 0x00A (RC_TOPO_LIVE.at (4 * h)) = false ∧ t.fg 0x00A (RC_TOPO_DIST_E.at (4 * h)) = 0xFF ∧
      t.fg 0x00A (RC_TOPO_DIST_W.at (4 * h)) = 0xFF ∧ t.event 0x00A EV_RC_TOPO_CHANGE = true) ∧
    (¬ (s.fb 0x00A (RC_TOPO_LIVE.at (4 * h)) = true ∧ s.fg 0x00A RC_TOPO_CFG_AGE ≤ min 255 (s.fg 0x00A (RC_TOPO_AGE.at (4 * h)) + 1)) →
      t.fb 0x00A (RC_TOPO_LIVE.at (4 * h)) = s.fb 0x00A (RC_TOPO_LIVE.at (4 * h))) := by
  have hsplit : List.range 120 = List.range h ++ h :: (List.range (119 - h)).map (fun i => h + 1 + i) := by
    rw [show (120 : Nat) = h + (1 + (119 - h)) by omega, List.range_add, List.range_add]
    simp [Nat.add_assoc]
  have hlo : ∀ i ∈ List.range h, i < 120 := fun i hi => by have := List.mem_range.1 hi; omega
  have hhi : ∀ i ∈ (List.range (119 - h)).map (fun i => h + 1 + i), i < 120 := fun i hi => by
    obtain ⟨j, hj, rfl⟩ := List.mem_map.1 hi
    have := List.mem_range.1 hj
    omega
  obtain ⟨hrd₁, -⟩ := State.ageEntries_other (List.range h) s hlo
  obtain ⟨hrd₂, hev₂⟩ := State.ageEntries_other _ (((List.range h).foldl State.ageEntry s).ageEntry h) hhi
  have hword : ∀ f : Fld, f.off = RC_TOPO → ∀ i ≠ h, (f.at (4 * h)).off ≠ RC_TOPO + 4 * i := fun f hf i hi => by
    simp only [Fld.at, hf]; omega
  have hsmall : ∀ f : Fld, f.off = RC_TOPO → (f.at (4 * h)).off < 4096 ∧ (f.at (4 * h)).off ≠ EVT_STATUS := fun f hf => by
    simp only [Fld.at, hf, RC_TOPO, EVT_STATUS]; omega
  have hbefore : ∀ f : Fld, f.off = RC_TOPO →
      ((List.range h).foldl State.ageEntry s).fg 0x00A (f.at (4 * h)) = s.fg 0x00A (f.at (4 * h)) := fun f hf => by
    simp only [State.fg]
    rw [hrd₁ _ (hsmall f hf).1 (hsmall f hf).2 fun i hi => hword f hf i (by have := List.mem_range.1 hi; omega)]
  have hcfg : ((List.range h).foldl State.ageEntry s).fg 0x00A RC_TOPO_CFG_AGE = s.fg 0x00A RC_TOPO_CFG_AGE := by
    simp only [State.fg]
    rw [hrd₁ _ (by decide) (by decide) fun i _ => by simp only [RC_TOPO_CFG_AGE, RC_TOPO]; omega]
  refine ⟨_, rfl, ?_⟩
  rw [hsplit, List.foldl_append, List.foldl_cons]
  have hafter : ∀ f : Fld, f.off = RC_TOPO → (((List.range (119 - h)).map (fun i => h + 1 + i)).foldl State.ageEntry
      (((List.range h).foldl State.ageEntry s).ageEntry h)).fg 0x00A (f.at (4 * h)) =
      (((List.range h).foldl State.ageEntry s).ageEntry h).fg 0x00A (f.at (4 * h)) := fun f hf => by
    simp only [State.fg]
    rw [hrd₂ _ (hsmall f hf).1 (hsmall f hf).2 fun i hi => hword f hf i (by obtain ⟨j, -, rfl⟩ := List.mem_map.1 hi; omega)]
  have hfields := ((List.range h).foldl State.ageEntry s).ageEntry_fields hh
  simp only [State.fb, hbefore RC_TOPO_AGE rfl, hbefore RC_TOPO_LIVE rfl, hcfg] at hfields
  obtain ⟨hage, hold, hkeep⟩ := hfields
  simp only [State.fb, State.fg_topoFences, hafter RC_TOPO_AGE rfl, hafter RC_TOPO_LIVE rfl, hafter RC_TOPO_DIST_E rfl,
    hafter RC_TOPO_DIST_W rfl]
  refine ⟨hage, fun hc => ?_, hkeep⟩
  obtain ⟨hlive, he, hw, hev⟩ := hold hc
  refine ⟨hlive, he, hw, ?_⟩
  rw [State.event, State.rd_topoFences]
  exact hev₂ _ hev

/-! ### The TOPO frames sent (R145) -/

theorem State.topoFrame_eq (s : State) (d : Dir) : s.topoFrame d = s.logicOut (topoOf s d).1 .M (topoOf s d).2 := by
  have hf : bit (s.wrapped .east) ||| (bit (s.wrapped .west) <<< 1) ||| (bit s.redundant <<< 2) =
      bit (s.wrapped .east) + 2 * bit (s.wrapped .west) + 4 * bit s.redundant := by
    cases s.wrapped .east <;> cases s.wrapped .west <;> cases s.redundant <;> rfl
  unfold State.topoFrame topoOf
  rw [hf]

theorem topoOf_logicOut (s : State) (p : RingPort) (c : Cls) (f : Frame) (d : Dir) : topoOf (s.logicOut p c f) d = topoOf s d := rfl

/-- Two frames of the ring logic stand one behind the other. -/
theorem State.logicStaged_two (s : State) (x y : RingPort × Frame) :
    logicStaged s ((s.logicOut x.1 .M x.2).logicOut y.1 .M y.2) [x, y] := by
  obtain ⟨p, f⟩ := x
  obtain ⟨q, g⟩ := y
  cases p <;> cases q <;>
    simp [logicStaged, State.logicOut, State.stage, RingPort.core, Map.getD_put_other, Cls.code]

/-- Settles O31, entry by entry. -/
theorem topologyIsLearntAndAges : Obligations.TopologyIsLearntAndAges := by
  refine ⟨topoReceived_completes, topoAgeTick_completes, fun s => ⟨_, rfl, fun h => ?_, fun h => ?_, fun h => if_neg (by simp [h])⟩⟩
  · rw [if_pos h, State.topoFrame_eq, State.topoFrame_eq, topoOf_logicOut]
    exact s.logicStaged_two _ _
  · rw [if_pos h, State.topoFrame_eq, State.topoFrame_eq]
    rfl

end Sys2Proof.Machine
end

section
set_option Elab.async false
namespace Sys2Proof.Machine

/-! ### A reset of the hub leaves the fuse array (R72, R80) -/

theorem State.mwr_gs_same (s : State) (a : Nat) (b : List Byte) : (s.mwr a b).gs = s.gs := by
  induction b generalizing s a with
  | nil => rfl
  | cons x b ih => exact ih _ _

theorem State.setChunk_gs (s : State) (c : Nat) (v : Bool) : (s.setChunk c v).gs = s.gs := State.mwr_gs_same ..

theorem State.cutWords_gs (s : State) (a : Nat) (b : List Byte) : (s.cutWords a b).gs = s.gs := by
  fun_induction State.cutWords s a b with
  | case1 s a b0 b1 b2 b3 bs t ih =>
    rw [ih]
    split
    · rfl
    · exact State.mwr_gs_same ..
  | case2 => rfl

theorem State.cutJob_gs (s : State) (j : UpJob) : (s.cutJob j).gs = s.gs := by
  unfold State.cutJob
  split
  · exact State.cutWords_gs ..
  · rfl

theorem State.cutWrite_gs (s : State) : s.cutWrite.gs = s.gs := by
  have hjob : ∀ t : State, (match t.up.job with
      | some j => if j.op = 2 ∧ j.started then (t.cutJob j).setChunk j.chunk false else t.cutJob j
      | none => t).gs = t.gs := fun t => by
    split
    · split
      · exact (State.setChunk_gs ..).trans (State.cutJob_gs ..)
      · exact State.cutJob_gs ..
    · rfl
  unfold State.cutWrite
  dsimp only
  split
  · exact (State.cutJob_gs ..).trans (hjob s)
  · exact hjob s

theorem State.ppClamp_gs (s : State) (n : Nat) : (s.ppClamp n).gs = s.gs := by
  unfold State.ppClamp
  dsimp only [State.ppGo]
  split <;> rfl

theorem State.supClamp_gs (s : State) (c : Nat) : (s.supClamp c).gs = s.gs := by
  have hall : ∀ (l : List Nat) (t : State), (l.foldl State.ppClamp t).gs = t.gs := fun l => by
    induction l with
    | nil => exact fun _ => rfl
    | cons n l ih => exact fun t => (ih _).trans (t.ppClamp_gs n)
  unfold State.supClamp
  split
  · rfl
  · exact hall _ _

theorem gsReset_fuse (lv : Nat) (g : Gs) : (gsReset lv g).fuse = g.fuse := by
  unfold gsReset
  split <;> rfl

theorem State.hubReset_fuse (s : State) (r : ResetReq) : (s.hubReset r).gs.fuse = s.gs.fuse := by
  unfold State.hubReset
  dsimp only
  have hup : ∀ t : State, t.memReset.upShow.gs = t.gs := fun t =>
    (State.upShow_framed (State.memReset_framed (.refl (0x8002000005808 ||| 0x40000000000000) t) (.of (by decide))) (.of (by decide))).part .gs rfl
  rw [hup]
  refine (gsReset_fuse ..).trans (congrArg Gs.fuse ?_)
  split
  · exact (State.supClamp_gs ..).trans s.cutWrite_gs
  · exact s.cutWrite_gs

theorem State.revertRecord_gs (s : State) : s.revertRecord.gs = s.gs := by
  unfold State.revertRecord
  dsimp only
  split
  · rw [State.raise_gs]
    rfl
  · rfl

/-- A reset other than L0 burns no version floor as the reader ends. -/
theorem State.toDone_fuse {s : State} (h : s.seqLevel ≠ 0) : s.toDone.gs.fuse = s.gs.fuse := by
  unfold State.toDone
  dsimp only
  rw [if_neg h]
  have hload : Framed (0x9802000004808 ||| 0x20000010000808) (s.setOpt 8) (s.setOpt 8).applyRepairs.loadBaselines :=
    State.loadBaselines_framed (State.applyRepairs_framed (.refl _ _) (.of (by decide))) (.of (by decide))
  exact congrArg Gs.fuse (hload.part .gs rfl)

theorem State.bareStart_fuse (s : State) : s.bareStart.gs.fuse = s.gs.fuse := by
  unfold State.bareStart
  dsimp only
  have hgs : ((((((s.setOpt 9).fs 0 GS_OPT_STATUS_FALLBACK 1).fs 0 GS_OPT_STATUS_COPY 0).wr 0 GS_HUB_ID 0).wr 0 GS_HOLD holdMost).wr 1
      OPT_ACTIVE_GEN 0 |>.raise 0 EV_GS_OPT_FALLBACK).gs = s.gs := State.raise_gs ..
  generalize ((((((s.setOpt 9).fs 0 GS_OPT_STATUS_FALLBACK 1).fs 0 GS_OPT_STATUS_COPY 0).wr 0 GS_HUB_ID 0).wr 0 GS_HOLD holdMost).wr 1
      OPT_ACTIVE_GEN 0 |>.raise 0 EV_GS_OPT_FALLBACK) = t at hgs ⊢
  have hlv : t.seqLevel = s.seqLevel := by simp only [State.seqLevel, hgs]
  split
  next h => rw [State.toDone_fuse (by rw [hlv, h]; decide), hgs]
  next => exact congrArg Gs.fuse hgs

theorem State.readHeaders_fuse (s : State) : s.readHeaders.gs.fuse = s.gs.fuse := by
  have hrev : s.revertRecord.gs.fuse = s.gs.fuse := congrArg Gs.fuse s.revertRecord_gs
  unfold State.readHeaders
  dsimp only
  split
  iterate 3
    · rw [State.setOpt, State.fs_gs]
      exact hrev
  · exact (State.bareStart_fuse _).trans hrev

theorem State.releaseReset_fuse (s : State) (st : Straps) : (s.releaseReset st).gs.fuse = s.gs.fuse := by
  unfold State.releaseReset
  split
  · rfl
  · split
    · rfl
    · dsimp only
      split
      · split <;> rfl
      · rw [State.readHeaders_fuse]
        split <;> rfl

theorem State.assertReset_fuse (s : State) (r : ResetReq) : (s.assertReset r).gs.fuse = s.gs.fuse := by
  unfold State.assertReset
  dsimp only
  rw [State.releaseReset_fuse]
  have hrecord : ∀ (t : State) (q : ResetReq) (n : Nat), (t.record q n).gs = t.gs := fun _ _ _ => rfl
  have hfuse : (((s.hubReset r).fs 0 GS_AON_HI_XTAL_OK (s.xtalAfter r)).record r (if r.cause = 1 then 0 else s.gs.aon)).gs.fuse = s.gs.fuse := by
    rw [hrecord, State.fs_gs, State.hubReset_fuse]
  generalize ((s.hubReset r).fs 0 GS_AON_HI_XTAL_OK (s.xtalAfter r)).record r (if r.cause = 1 then 0 else s.gs.aon) = u at hfuse ⊢
  exact hfuse

/-! ### RESET frames (R155) -/

theorem remoteReset_refused {s : State} {src : Nat} {cred : List Byte}
    (h : s.fb 0 GS_RESET_CTRL_REMOTE_EN = false ∨ (s.gs.cred.all fun b => b = 0) = true ∨ cred ≠ s.gs.cred) :
    s.remoteReset src cred = (s.inc 0 GS_AUTH_FAIL_COUNT).raise 0 EV_GS_REMOTE_AUTH_FAIL := by
  refine if_neg ?_
  rcases h with h | h | h
  · simp [h]
  · simp only [List.all_eq_true, decide_eq_true_eq] at h
    have hn : s.gs.cred.any (fun b => decide (b ≠ 0)) = false := by
      simp only [List.any_eq_false, decide_eq_true_eq, not_not]
      exact h
    rw [hn]
    simp
  · simp [h]

theorem remoteReset_granted {s : State} {src : Nat} {cred : List Byte} (hen : s.fb 0 GS_RESET_CTRL_REMOTE_EN = true)
    (hc : s.gs.cred.any (fun b => b ≠ 0) = true) (he : cred = s.gs.cred) :
    s.remoteReset src cred = s.recognise { cause := 6, level := s.levelOf 6, detail := src } none := by
  refine if_pos ?_
  simp [hen, he]
  simpa using hc

/-! ### Touches leave what a RESET frame is made of -/

section
variable (s : State) (who : Initiator) (r : Bool)

theorem State.fg_touch_page {p : Nat} (f : Fld) (h : p ≠ 0x01C) : (s.touch who r).fg p f = s.fg p f :=
  State.fg_touch _ _ _ _ _ (regKey_ne_of_page h _ _)

theorem State.rd_touch_page {p : Nat} (o : Nat) (h : p ≠ 0x01C) : (s.touch who r).rd p o = s.rd p o :=
  State.rd_touch _ _ _ _ _ (regKey_ne_of_page h _ _)

theorem State.hubId_touch : (s.touch who r).hubId = s.hubId := State.fg_touch_page _ _ _ _ (by decide)

theorem State.hubValid_touch : (s.touch who r).hubValid = s.hubValid := congrArg (· != 0) (State.fg_touch_page _ _ _ _ (by decide))

theorem State.isSelf_touch (h : Nat) : (s.touch who r).isSelf h = s.isSelf h := by
  unfold State.isSelf
  rw [State.hubValid_touch, State.hubId_touch]

theorem State.live_touch (h : Nat) : (s.touch who r).live h = s.live h := by
  unfold State.live State.fb
  rw [State.isSelf_touch, State.fg_touch_page _ _ _ _ (by decide)]

theorem State.portActive_touch (l : LanePort) : (s.touch who r).portActive l = s.portActive l := by
  unfold State.portActive State.pstate
  rw [State.fg_touch_page _ _ _ _ (by cases l <;> decide)]

theorem State.originates_touch : (s.touch who r).originates = s.originates := by
  unfold State.originates State.ridgeOnly State.bare State.ringUp
  rw [State.ready_touch, State.running_touch, State.hubValid_touch, State.portActive_touch, State.portActive_touch]

theorem State.wrapped_touch (p : RingPort) : (s.touch who r).wrapped p = s.wrapped p := by
  unfold State.wrapped State.fb
  rw [State.fg_touch_page _ _ _ _ (by cases p <;> decide)]

theorem State.shortest_touch (d : Nat) : (s.touch who r).shortest d = s.shortest d := by
  unfold State.shortest State.distE State.distW
  rw [State.isSelf_touch, State.fg_touch_page _ _ _ _ (by decide), State.fg_touch_page _ _ _ _ (by decide)]

theorem State.pinDir_touch (a b c : Nat) : (s.touch who r).pinDir a b c = s.pinDir a b c := by
  unfold State.pinDir State.pinEntry
  rw [State.rd_touch_page _ _ _ _ (by decide), State.fg_touch_page _ _ _ _ (by decide), State.shortest_touch]

theorem State.resolve_touch (h : Hdr) : (s.touch who r).resolve h = s.resolve h := by
  unfold State.resolve State.originEgress
  rw [State.pinDir_touch, State.wrapped_touch, State.wrapped_touch]

theorem State.resetOf_touch (d : Nat) : resetOf (s.touch who r) d = resetOf s d := by
  simp only [resetOf, State.hubId_touch, State.resolve_touch, State.rd_touch_page _ _ _ _ (show (0x00A : Nat) ≠ 0x01C by decide)]

end

/-! ### A signal waits at the bridge's port alone -/

theorem State.ingress_raise (s : State) (p b : Nat) {k : Nat} (h : k ≠ portBridge) :
    (s.raise p b).ingress.getD k [] = s.ingress.getD k [] := by
  have hbit : (s.raiseBit p b).ingress.getD k [] = s.ingress.getD k [] := by
    unfold State.raiseBit State.irqRise
    split
    · exact Map.getD_put_other _ _ _ _ h
    · rfl
  unfold State.raise
  split
  · exact hbit
  · exact hbit

theorem State.ingress_endPack (s : State) (who : Initiator) {k : Nat} (h : k ≠ portBridge) :
    (s.endPack who).ingress.getD k [] = s.ingress.getD k [] := by
  unfold State.endPack
  split
  · exact State.ingress_raise _ _ _ h
  · rfl

theorem State.ingress_touch (s : State) (who : Initiator) (r : Bool) {k : Nat} (h : k ≠ portBridge) :
    (s.touch who r).ingress.getD k [] = s.ingress.getD k [] := by
  cases r
  · exact State.ingress_endPack _ _ h
  · exact State.ingress_endPack _ _ h

theorem State.rstSend_sent {s : State} {v : Word} (hgo : RC_RST_SEND_GO.get v = 1) (ho : s.originates = true)
    (hl : s.live (RC_RST_SEND_DST.get v) = true) : s.rstSend v =
      s.logicOut (resetOf s (RC_RST_SEND_DST.get v)).1 .M (resetOf s (RC_RST_SEND_DST.get v)).2 := by
  have hcred : s.sendCred = ([0, 4, 8, 12].map fun k => leBytes (s.rd 0x00A (RC_RST_CRED + k)).toNat 4).flatten := by
    simp [State.sendCred]
  unfold State.rstSend resetOf
  rw [if_neg (by simp [hgo, ho]), if_neg (by simp [hl]), hcred]

theorem State.rstSend_noDest {s : State} {v : Word} (hgo : RC_RST_SEND_GO.get v = 1) (ho : s.originates = true)
    (hl : s.live (RC_RST_SEND_DST.get v) = false) : s.rstSend v = s.noDest := by
  unfold State.rstSend
  rw [if_neg (by simp [hgo, ho]), if_pos (by simp [hl])]

/-- Settles O32. -/
theorem remoteResetIsCheckedAndSent : Obligations.RemoteResetIsCheckedAndSent := by
  refine ⟨?_, ?_, ?_, ?_, ?_⟩
  · intro s src cred h
    refine ⟨_, congrArg Host.Outcome.next (remoteReset_refused h), ?_, State.event_raise (hb := by decide) .., ?_, ?_⟩
    · rw [State.fg_raise_off _ _ (by decide), State.fg_inc _ _ (by decide)]
    · rw [State.raise_gs]
      rfl
    · exact ((onlyRegs.refl _ s).inc (by decide) (by decide)).raise (by decide)
  · intro s src cred hen hc he hseq hb hl
    have h := s.assertReset_inReset { cause := 6, level := s.levelOf 6, detail := src.val }
    refine ⟨_, congrArg Host.Outcome.next ((remoteReset_granted hen hc he).trans (State.recognise_asserts (by rw [hseq]; rfl) (Nat.lt_succ_of_le hl) hb)),
      h.seq, ?_, State.assertReset_fuse ..⟩
    rw [h.cause]
    congr 1
    have hs := src.isLt
    have h6 : ({ cause := 6, level := s.levelOf 6, detail := src.val } : ResetReq).level = s.levelOf 6 := rfl
    dsimp only
    omega
  · intro s who v hacc hgo ho hlive
    refine completes_write rfl hacc ?_
    rw [State.rstSend_noDest hgo (by rw [State.originates_touch, ho]) (by rw [State.live_touch, hlive])]
    refine ⟨?_, State.event_raise (hb := by decide) .., State.ansOf_answer .., ?_⟩
    · rw [State.fg_answer, State.noDest, State.fg_raise_off _ _ (by decide), State.fg_inc _ _ (by decide), State.fg_touch_page _ _ _ _ (by decide)]
    · simp [State.noDest, State.inc_eq_fs]
  · intro s who v hacc hgo ho hlive
    refine completes_write rfl hacc ?_
    rw [State.rstSend_sent hgo (by rw [State.originates_touch, ho]) (by rw [State.live_touch, hlive]), State.resetOf_touch]
    generalize resetOf s (RC_RST_SEND_DST.get v) = x
    refine ⟨?_, State.ansOf_answer .., State.touch_core .., ?_⟩
    · obtain ⟨p, f⟩ := x
      cases p <;> simp [logicStaged, State.logicOut, State.stage, RingPort.core, Map.getD_put_other, Cls.code,
        State.ingress_touch _ _ _ (show (0 : Nat) ≠ portBridge by decide), State.ingress_touch _ _ _ (show (1 : Nat) ≠ portBridge by decide)]
    · exact onlyRegs.of_regs (s.touch_onlyRegs who false) rfl
  · intro s who v hacc h
    refine completes_write rfl hacc ?_
    have e : (s.touch who false).rstSend v = s.touch who false := if_pos (by rw [State.originates_touch]; rcases h with h | h <;> simp [h])
    rw [e]
    refine ⟨State.ansOf_answer .., by simp, ?_⟩
    exact onlyRegs.of_regs (s.touch_onlyRegs who false) (State.answer_regs ..)

end Sys2Proof.Machine
end

section
set_option Elab.async false
namespace Sys2Proof.Machine

/-! ### A port leaves ACTIVE (R108)

What the ring, the twin link and the core do then leaves the registers of the port's lanes. -/

/-- The registers of page `p` but those of `dropOffs` and RP_NEIGHBOUR are those of `b`, and every event of the page stays. -/
structure LinkSoft (p : Nat) (b s : State) : Prop where
  rd : ∀ o < 4096, o ∉ dropOffs → o ≠ RP_NEIGHBOUR → s.rd p o = b.rd p o
  ev : ∀ n, b.event p n = true → s.event p n = true

namespace LinkSoft

variable {p : Nat} {b s t : State}

theorem refl (p : Nat) (s : State) : LinkSoft p s s := ⟨fun _ _ _ _ => rfl, fun _ h => h⟩

theorem trans (h : LinkSoft p b s) (h' : LinkSoft p s t) : LinkSoft p b t :=
  ⟨fun o ho hm hn => (h'.rd o ho hm hn).trans (h.rd o ho hm hn), fun n hn => h'.ev n (h.ev n hn)⟩

theorem of_soft (hp : p ∈ ringPages) (h : RingSoft b s) : LinkSoft p b s :=
  ⟨fun o ho hm _ => h.rd p o hp ho hm, fun n hn => h.ev p n hp hn⟩

theorem of_regs (h : s.regs = b.regs) : LinkSoft p b s :=
  ⟨fun o _ _ _ => State.rd_of_regs h p o, fun n hn => (State.event_of_regs h p n).trans hn⟩

theorem ite {c : Prop} [Decidable c] (hs : LinkSoft p b s) (ht : LinkSoft p b t) : LinkSoft p b (if c then s else t) := by
  split <;> assumption

/-- The port's neighbour is shown. -/
theorem neighbour (s : State) (p : Nat) {f : Fld} (v : Nat) (hf : f.off = RP_NEIGHBOUR) : LinkSoft p s (s.fs p f v) := by
  refine ⟨fun o ho _ hn => State.rd_fs_off _ _ _ ?_, fun n hn => ?_⟩
  · rw [hf]
    exact fun e => hn (regKey_inj (by decide) ho e).2
  · rw [State.event_fs_off]
    · exact hn
    · rw [hf]
      decide

theorem fg (h : LinkSoft p b s) {f : Fld} (hf : f.off < 4096 ∧ f.off ∉ dropOffs ∧ f.off ≠ RP_NEIGHBOUR) : s.fg p f = b.fg p f := by
  simp only [State.fg, h.rd _ hf.1 hf.2.1 hf.2.2]

end LinkSoft

theorem lanePage_mem (p : LanePort) : p.page ∈ ringPages := by cases p <;> decide

theorem State.ringLeft_soft (s : State) (p : RingPort) : LinkSoft p.page s (s.ringLeft p) := by
  unfold State.ringLeft
  dsimp only
  have h1 : LinkSoft p.page s ((s.fs p.page RP_NEIGHBOUR_STATE 0).setEg p.core none) :=
    (LinkSoft.neighbour s p.page 0 rfl).trans (.of_regs rfl)
  generalize (s.fs p.page RP_NEIGHBOUR_STATE 0).setEg p.core none = u at h1 ⊢
  refine LinkSoft.trans (h1.trans (.ite (.refl _ u) (.ite ?_ ?_))) (.of_soft (ringPage_mem p) (State.twinWatch_soft _))
  · obtain ⟨-, -, hrd, hev⟩ := u.wrap_spec p
    exact ⟨hrd, hev⟩
  · exact (LinkSoft.neighbour u p.page 1 rfl).trans (.of_regs rfl)

theorem State.twinLeft_soft (s : State) : LinkSoft LanePort.twin.page s s.twinLeft := by
  unfold State.twinLeft
  dsimp only
  refine .of_soft (lanePage_mem .twin) (RingSoft.trans ?_ (State.twinWatch_soft _))
  refine RingSoft.framed ?_ (State.portLost_framed (.refl RingSoft.coreMask _) rfl)
  refine RingSoft.of_regs (RingSoft.fs ?_ (by decide)) rfl
  exact (RingSoft.refl s).of_regs rfl

/-! ### Training begins -/

/-- The lock marks of a lane leave the registers beside the port's state and the lanes', and the state. -/
theorem State.setLocked_spec (s : State) (p : LanePort) {l : Nat} (hl : l < 5) (v : Bool) :
    (s.setLocked p l v).fg p.page LN_STATUS_PSTATE = s.fg p.page LN_STATUS_PSTATE ∧
    ∀ n, (s.setLocked p l v).event p.page n = s.event p.page n := by
  have hoff : ∀ o ∈ [LN_STATUS, EVT_STATUS], regKey 0 o ≠ regKey 0 (laneFld LN_LSTAT_LOCKED l).off := by
    simp only [List.mem_cons, List.not_mem_nil, or_false, forall_eq_or_imp, forall_eq, regKey, laneFld, Fld.at, LN_LSTAT_LOCKED, LN_STATUS,
      EVT_STATUS]
    omega
  unfold State.setLocked
  refine ⟨?_, fun n => ?_⟩
  · rw [State.fg_fs_apart _ _ _ (.inl (hoff LN_STATUS (by simp))), State.fg_fs_apart _ _ _ (by decide)]
  · rw [State.event_fs_off _ _ _ _ (hoff EVT_STATUS (by simp)), State.event_fs_off _ _ _ _ (by decide)]

theorem State.toTrain_spec (s : State) (p : LanePort) :
    (s.toTrain p).pstate p = 1 ∧ ∀ n, (s.toTrain p).event p.page n = s.event p.page n := by
  have hall : ∀ (l : List Nat) (t : State), (∀ i ∈ l, i < 5) →
      (l.foldl (fun (t : State) i => t.setLocked p i false) t).pstate p = t.pstate p ∧
      ∀ n, (l.foldl (fun (t : State) i => t.setLocked p i false) t).event p.page n = t.event p.page n := fun l => by
    induction l with
    | nil => exact fun _ _ => ⟨rfl, fun _ => rfl⟩
    | cons i l ih =>
      intro t hl
      obtain ⟨hp, he⟩ := ih (t.setLocked p i false) fun j hj => hl j (List.mem_cons_of_mem _ hj)
      obtain ⟨hp', he'⟩ := t.setLocked_spec p (hl i List.mem_cons_self) false
      exact ⟨hp.trans hp', fun n => (he n).trans (he' n)⟩
  have hcount : ∀ i ∈ List.range (laneCount p), i < 5 := fun i hi => by
    have := List.mem_range.1 hi
    cases p <;> simp only [laneCount] at this <;> omega
  obtain ⟨hp, he⟩ := hall (List.range (laneCount p)) (s.fs p.page LN_STATUS_PSTATE 1) hcount
  unfold State.toTrain
  refine ⟨hp.trans ((State.fg_fs _ _ _ _ (by decide)).trans rfl), fun n => (he n).trans (State.event_fs_off _ _ _ _ (by decide))⟩

theorem State.closeArriving_soft (s : State) (q : Nat) : RingSoft s (s.closeArriving q) := by
  unfold State.closeArriving
  cases closeFirst (s.ingress.getD q []).reverse with
  | some l => exact .of_regs (.refl s) rfl
  | none => exact (RingSoft.refl s).framed (State.ingressBad_framed (.refl _ s) rfl)

/-- Training, or OFF, in the port's state; the events stay. -/
theorem State.toState_spec (s : State) (p : LanePort) {ps : Nat} (hps : ps ≤ 1) :
    (if ps = 0 then (s.toTrain p).fs p.page LN_STATUS_PSTATE 0 else s.toTrain p).pstate p = ps ∧
    ∀ n, (if ps = 0 then (s.toTrain p).fs p.page LN_STATUS_PSTATE 0 else s.toTrain p).event p.page n = s.event p.page n := by
  obtain ⟨hp, he⟩ := s.toTrain_spec p
  by_cases h : ps = 0
  · rw [if_pos h]
    exact ⟨(State.fg_fs _ _ _ _ (by decide)).trans h.symm, fun n => (State.event_fs_off _ _ _ _ (by decide)).trans (he n)⟩
  · rw [if_neg h]
    exact ⟨hp.trans (by omega), he⟩

/-- The peer delay is forgotten: the port's state and the events stay. -/
theorem State.pdForget_spec (s : State) (p : LanePort) :
    (s.pdForget p).pstate p = s.pstate p ∧ ∀ n, (s.pdForget p).event p.page n = s.event p.page n := by
  unfold State.pdForget
  split
  · exact ⟨rfl, fun _ => rfl⟩
  · exact ⟨State.fg_fs_apart _ _ _ (by decide), fun n => State.event_fs_off _ _ _ _ (by decide)⟩

/-- A port that leaves ACTIVE is OFF or trains, with LINK_DOWN; its other events stay. -/
theorem State.leaveActive_spec (s : State) (p : LanePort) {ps : Nat} (hps : ps ≤ 1) :
    (s.leaveActive p ps).pstate p = ps ∧ (s.leaveActive p ps).event p.page EV_LN_LINK_DOWN = true ∧
    ∀ n, s.event p.page n = true → (s.leaveActive p ps).event p.page n = true := by
  unfold State.leaveActive
  dsimp only
  have h0 := s.closeArriving_soft (laneCore p)
  generalize s.closeArriving (laneCore p) = s0 at h0 ⊢
  obtain ⟨hp1, he1⟩ := s0.toState_spec p hps
  generalize (if ps = 0 then (s0.toTrain p).fs p.page LN_STATUS_PSTATE 0 else s0.toTrain p) = s1 at hp1 he1 ⊢
  let s2 : State := s1.setPort p { s1.port p with rxSub := none, txSub := none, urgent := false, tries := 0, offReq := false, tscode := [] }
  let s3 : State := (s2.fs p.page LN_SPARE_STATUS_RX_OP 0).raise p.page EV_LN_LINK_DOWN
  have hp3 : (s3.pdForget p).pstate p = ps := by
    rw [(s3.pdForget_spec p).1]
    exact (State.fg_raise_off _ _ (by decide)).trans ((State.fg_fs_apart _ _ _ (by decide)).trans hp1)
  have hdown : (s3.pdForget p).event p.page EV_LN_LINK_DOWN = true := by
    rw [(s3.pdForget_spec p).2]
    exact State.event_raise _ _ (hb := by decide)
  have hev3 : ∀ n, s.event p.page n = true → (s3.pdForget p).event p.page n = true := fun n hn => by
    rw [(s3.pdForget_spec p).2]
    refine State.event_raise_keeps _ _ _ ?_
    rw [State.event_fs_off _ _ _ _ (by decide)]
    exact (he1 n).trans (h0.ev _ _ (lanePage_mem p) hn)
  have hend : ∀ t, LinkSoft p.page (s3.pdForget p) t →
      t.pstate p = ps ∧ t.event p.page EV_LN_LINK_DOWN = true ∧ ∀ n, s.event p.page n = true → t.event p.page n = true :=
    fun t ht => ⟨(ht.fg (f := LN_STATUS_PSTATE) (by decide)).trans hp3, ht.ev _ hdown, fun n hn => ht.ev n (hev3 n hn)⟩
  cases p with
  | east => exact hend _ (State.ringLeft_soft (s3.pdForget .east) .east)
  | west => exact hend _ (State.ringLeft_soft (s3.pdForget .west) .west)
  | twin => exact hend _ (State.twinLeft_soft (s3.pdForget .twin))

theorem State.portOff_active {s : State} {p : LanePort} (ha : s.portActive p = true) : s.portOff p = s.leaveActive p 0 := if_pos ha

/-! ### A frame leaves a port -/

theorem State.self_of_regs {s t : State} (h : t.rd 0 GS_HUB_ID = s.rd 0 GS_HUB_ID) : t.self = s.self := by
  unfold State.self State.hubValid State.hubId State.fb State.fg
  rw [show GS_HUB_ID_ID.off = GS_HUB_ID from rfl, show GS_HUB_ID_VALID.off = GS_HUB_ID from rfl, h]

theorem State.port_inc (s : State) (q : Nat) (f : Fld) (p : LanePort) : (s.inc q f).port p = s.port p := rfl

/-- A frame sent is on the lanes; the port's other parts and the core stay. -/
theorem State.sent_port (s : State) (p : LanePort) (f : Frame) : (s.sent p f).port p = { s.port p with tx := f.bytes } := by
  unfold State.sent
  dsimp only
  split
  · exact State.port_setPort ..
  · exact (State.port_inc ..).trans (State.port_setPort ..)

theorem State.sent_core (s : State) (p : LanePort) (f : Frame) : (s.sent p f).core = s.core := by
  unfold State.sent
  dsimp only
  split <;> rfl

theorem State.sent_tw (s : State) (p : LanePort) (f : Frame) : (s.sent p f).tw = s.tw := by
  unfold State.sent
  dsimp only
  split <;> rfl

theorem State.sendMerge_eq {s : State} {p : LanePort} {f : Frame} {fs : List Frame} (h : (s.port p).merge = f :: fs) (t : Int) :
    s.sendMerge p t = (s.setPort p { s.port p with merge := fs }).sent p (f.depart s.self t) := by
  unfold State.sendMerge
  rw [h]

theorem State.sendLL_eq {s : State} {p : LanePort} {f : Frame} {fs : List Frame} (h : (s.port p).ll = f :: fs) :
    s.sendLL p = (s.setPort p { s.port p with ll := fs }).sent p f := by
  unfold State.sendLL
  rw [h]

/-- The first frame of the merge buffer leaves it and is on the lanes. -/
theorem State.sendMerge_spec {s : State} {p : LanePort} {f : Frame} {fs : List Frame} (h : (s.port p).merge = f :: fs) (t : Int) :
    (s.sendMerge p t).port p = { s.port p with merge := fs, tx := (f.depart s.self t).bytes } ∧ (s.sendMerge p t).core = s.core := by
  rw [State.sendMerge_eq h]
  exact ⟨by rw [State.sent_port, State.port_setPort], State.sent_core ..⟩

/-- The first link-local frame leaves its list and is on the lanes. -/
theorem State.sendLL_spec {s : State} {p : LanePort} {f : Frame} {fs : List Frame} (h : (s.port p).ll = f :: fs) :
    (s.sendLL p).port p = { s.port p with ll := fs, tx := f.bytes } ∧ (s.sendLL p).core = s.core := by
  rw [State.sendLL_eq h]
  exact ⟨by rw [State.sent_port, State.port_setPort], State.sent_core ..⟩

/-- A copy starts at the head of its queue. -/
theorem State.startCopy_spec {s : State} {q : Nat} {e : QEnt} {es : List QEnt} (h : (s.que q).ents = e :: es) (p : Nat) (t : Int) :
    s.startCopy p q t = s.setEg p (some { q := q, next := e.cell, start := t }) := by
  unfold State.startCopy
  rw [h]

theorem State.eg_setEg (s : State) (p : Nat) (v : Option Eg) : (s.setEg p v).eg p = v := Map.getD_put_same _ _ _ _

/-! ### What an egress does at a frame boundary (R133, R398) -/

theorem egressFrameStart_twin {s : State} {sub : Fin 26} (ha : s.portActive .twin = true) (he : s.eg 2 = none)
    (ho : (s.port .twin).offReq = false) :
    exec (.egressFrameStart .twin sub) s = .next (s.twinEgress (s.stampAt sub.val)) := by
  refine congrArg Host.Outcome.next ?_
  rw [if_neg (by simp [ha, show s.eg (laneCore .twin) = none from he]), if_neg (by simp [ho])]

theorem egressFrameStart_ring {s : State} {port : RingPort} {sub : Fin 26} (ha : s.portActive port.lanes = true) (he : s.eg port.core = none)
    (ho : (s.port port.lanes).offReq = false) :
    exec (.egressFrameStart port.lanes sub) s = .next (s.ringStart port (s.stampAt sub.val)) := by
  refine congrArg Host.Outcome.next ?_
  have hcore : laneCore port.lanes = port.core := by cases port <;> rfl
  rw [if_neg (by simp [ha, hcore, he]), if_neg (by simp [ho])]
  cases port <;> rfl

theorem egressFrameStart_off {s : State} {port : LanePort} {sub : Fin 26} (ha : s.portActive port = true) (he : s.eg (laneCore port) = none)
    (ho : (s.port port).offReq = true) :
    exec (.egressFrameStart port sub) s = .next (s.leaveActive port 0) := by
  refine congrArg Host.Outcome.next ?_
  rw [if_neg (by simp [ha, he]), if_pos ho, State.portOff_active ha]

/-- A head that may start is the first copy of its queue. -/
theorem State.ents_of_eligible {s : State} {q : Nat} {e : QEnt} (h : s.eligibleHead q = some e) : ∃ es, (s.que q).ents = e :: es := by
  unfold State.eligibleHead at h
  cases hq : (s.que q).ents with
  | nil => simp [hq] at h
  | cons a es =>
    rw [hq] at h
    dsimp only at h
    split at h
    · exact ⟨es, by rw [Option.some.inj h]⟩
    · simp at h

theorem State.eligible_of_twinPick {s : State} {b : Bool} {q : Nat} (h : s.twinPick b = some q) : ∃ e, s.eligibleHead q = some e := by
  unfold State.twinPick State.firstQueue at h
  split at h
  · cases h
  · exact Option.isSome_iff_exists.1 (List.find?_some (p := fun q => (s.eligibleHead q).isSome) h)

/-- The copy of a class of the twin port that is picked starts. -/
theorem State.startCopy_twinPick {s : State} {b : Bool} {q : Nat} (h : s.twinPick b = some q) (t : Int) :
    ((s.startCopy portTwin q t).eg 2).map (·.q) = some q := by
  obtain ⟨e, he⟩ := State.eligible_of_twinPick h
  obtain ⟨es, hes⟩ := State.ents_of_eligible he
  rw [State.startCopy_spec hes, show portTwin = 2 from rfl, State.eg_setEg]
  rfl

/-- The copy at the head of the twin port's class E queue starts, behind its QCOPY where it has one. -/
theorem State.twinCopy_spec {s : State} {q : Nat} {e : QEnt} {es : List QEnt} (h : (s.que q).ents = e :: es) (t : Int) :
    (s.twinCopy q t).core.ques = s.core.ques ∧ (s.twinCopy q t).tw.turn = s.tw.turn ∧
    (s.twinCopy q t).eg 2 = some { q := q, next := e.cell, start := t } := by
  unfold State.twinCopy
  cases s.qcopyHead q with
  | none =>
    dsimp only
    rw [State.startCopy_spec h]
    exact ⟨rfl, rfl, State.eg_setEg ..⟩
  | some m =>
    dsimp only
    have hc := s.sent_core .twin (s.twinFrame 0x24 m [])
    have ht := s.sent_tw .twin (s.twinFrame 0x24 m [])
    generalize s.sent .twin (s.twinFrame 0x24 m []) = u at hc ht ⊢
    have hq : (u.que q).ents = e :: es := by
      unfold State.que at h ⊢
      rw [hc]
      exact h
    rw [State.startCopy_spec hq]
    exact ⟨by rw [← hc]; rfl, by rw [← ht]; rfl, State.eg_setEg ..⟩

theorem State.twinEgress_idle {s : State} (hl : (s.port .twin).ll = []) (he : s.eligibleHead 8 = none) (t : Int) :
    s.twinEgress t =
      ((if s.tw.turn then ((s.twinPick false).map fun q => (s.startCopy portTwin q t).setTurn false) <|> (s.twinMirror t).map fun u => u.setTurn true
        else ((s.twinMirror t).map fun u => u.setTurn true) <|> (s.twinPick false).map fun q => (s.startCopy portTwin q t).setTurn false)).getD s := by
  unfold State.twinEgress
  dsimp only
  rw [if_neg (by simp [hl]), if_neg (by simp [show 4 * portTwin = 8 from rfl, he])]

theorem State.twinMirror_some {s : State} (h : s.mirrorFrame.isSome = true) (t : Int) :
    ∃ f u, s.mirrorFrame = some (f, u) ∧ s.twinMirror t = some (u.sent .twin f) := by
  obtain ⟨⟨f, u⟩, hx⟩ := Option.isSome_iff_exists.1 h
  exact ⟨f, u, hx, by unfold State.twinMirror; rw [hx]⟩

theorem State.twinMirror_none {s : State} (h : s.mirrorFrame = none) (hp : s.twinPick true = none) (t : Int) : s.twinMirror t = none := by
  unfold State.twinMirror
  rw [h, hp]
  rfl

/-- The class that a ring egress takes has a head that may start. -/
theorem State.eligible_of_ringPick {s : State} {p : RingPort} {c : Cls} {t b : Nat} (h : s.ringPick p = some (c, t, b)) :
    ∃ e, s.eligibleHead (4 * p.core + c.code) = some e := by
  have hc : s.canStart p c = true := by
    unfold State.ringPick at h
    dsimp only at h
    split at h
    · next hE => cases h; exact hE
    split at h
    · next hM => cases h; exact hM
    split at h
    · next hT => cases h; exact (Bool.and_eq_true_iff.1 hT).1
    split at h
    · next hB => split at h <;> cases h <;> exact hB
    · cases h
  exact Option.isSome_iff_exists.1 (Bool.and_eq_true_iff.1 hc).1

/-- A ring egress with no ridge or link-local frame starts the copy of the class picked. -/
theorem State.ringStart_core {s : State} {p : RingPort} {c : Cls} {rt rb : Nat} (hm : (s.port p.lanes).merge = []) (hl : (s.port p.lanes).ll = [])
    (hf : s.portFrozen p.core = false) (hd : s.portDown p.core = false) (ha : s.coreAdmits = true) (hp : s.ringPick p = some (c, rt, rb)) (t : Int) :
    ∃ e es, (s.que (4 * p.core + c.code)).ents = e :: es ∧
      s.ringStart p t = (s.setPort p.lanes { s.port p.lanes with rrT := rt, rrB := rb }).setEg p.core
        (some { q := 4 * p.core + c.code, next := e.cell, start := t }) := by
  obtain ⟨e, he⟩ := State.eligible_of_ringPick hp
  obtain ⟨es, hes⟩ := State.ents_of_eligible he
  refine ⟨e, es, hes, ?_⟩
  unfold State.ringStart
  dsimp only
  rw [if_neg (by simp [hm]), if_neg (by simp [hl]), if_neg (by simp [hf, hd, ha]), hp]
  exact State.startCopy_spec (s := s.setPort p.lanes { s.port p.lanes with rrT := rt, rrB := rb }) hes _ _

/-! ### CREDIT frames (R137) -/

theorem creditReceived_pass {s : State} {port : RingPort} {bytes : List Byte} (ha : s.portActive port.lanes = true) (hr : s.ridgeOnly = true)
    (hl : (Hdr.ofBytes bytes).isLL 0x02 = true) :
    exec (.creditReceived port bytes) s = .next (s.llPass port { hdr := Hdr.ofBytes bytes }) :=
  congrArg Host.Outcome.next ((if_neg (by simp [ha, hl])).trans (if_pos hr))

theorem creditReceived_in {s : State} {port : RingPort} {bytes : List Byte} (ha : s.portActive port.lanes = true) (hr : s.ridgeOnly = false)
    (hl : (Hdr.ofBytes bytes).isLL 0x02 = true) :
    exec (.creditReceived port bytes) s = .next (s.creditIn port (Hdr.ofBytes bytes)) :=
  congrArg Host.Outcome.next ((if_neg (by simp [ha, hl])).trans (if_neg (by simp [hr])))

theorem State.cr_setCr (s : State) (p : LanePort) (c : Cls) (v : Cr) : (s.setCr p c v).cr p c = v := Map.getD_put_same _ _ _ _

theorem State.cr_setCr_ne (s : State) (p : LanePort) {c d : Cls} (v : Cr) (h : crKey p d ≠ crKey p c) : (s.setCr p c v).cr p d = s.cr p d :=
  Map.getD_put_other _ _ _ _ h

/-- What a CREDIT frame leaves of a class's credit: the limit of its field of ARG, and what is sent, from 0 with INIT. -/
theorem State.creditIn_cr (s : State) (p : RingPort) (h : Hdr) {c : Cls} (hc : c ≠ .E) :
    (s.creditIn p h).cr p.lanes c =
      { s.cr p.lanes c with limit := h.argBits (16 * (c.code - 1)) 16, sent := if nbit h.stream 0 then 0 else (s.cr p.lanes c).sent } := by
  have hne : ∀ {a b : Cls}, a.code ≠ b.code → crKey p.lanes a ≠ crKey p.lanes b := fun h e => h (Nat.add_left_cancel e)
  unfold State.creditIn
  dsimp only
  cases c with
  | E => exact absurd rfl hc
  | T =>
    rw [State.cr_setCr_ne _ _ _ (hne (by decide)), State.cr_setCr_ne _ _ _ (hne (by decide)), State.cr_setCr]
    rfl
  | B =>
    rw [State.cr_setCr_ne _ _ _ (hne (by decide)), State.cr_setCr, State.cr_setCr_ne _ _ _ (hne (by decide))]
    rfl
  | M =>
    rw [State.cr_setCr, State.cr_setCr_ne _ _ _ (hne (by decide)), State.cr_setCr_ne _ _ _ (hne (by decide))]
    rfl

/-- A link-local frame to be passed on joins the merge buffer of the port of its direction. -/
theorem State.llPass_ridge {s : State} {p : RingPort} {f : Frame} (hm : f.hdr.mtype ≠ 3) (hw : s.wrapped (dirPort f.hdr.dir) = false)
    (ha : s.portActive (dirPort f.hdr.dir).lanes = true) :
    s.llPass p f = (s.mergeIn (dirPort f.hdr.dir) f).inc p.page RP_RIDGE_COUNT := by
  unfold State.llPass State.ridge
  dsimp only
  rw [if_neg (by simp [hm, hw]), if_pos ha]

/-- At a wrapped port it is discarded and counted. -/
theorem State.llPass_wrapped {s : State} {p : RingPort} {f : Frame} (hw : s.wrapped (dirPort f.hdr.dir) = true) (hb : f.bad = false) :
    s.llPass p f = s.inc p.page RP_LL_DROP_COUNT := by
  unfold State.llPass
  dsimp only
  rw [if_pos (Or.inr hw), if_neg (by simp [hb])]

/-- What of the twin port's egress the mirror's turn and the classes' turn show. -/
theorem State.twinEgress_turns {s : State} (hl : (s.port .twin).ll = []) (he : s.eligibleHead 8 = none) (t : Int) :
    ((s.mirrorFrame.isSome = true ∧ (s.tw.turn = false ∨ s.twinPick false = none)) →
      (s.twinEgress t).tw.turn = true ∧ (s.mirrorFrame.map fun x => x.1.bytes) = some ((s.twinEgress t).port .twin).tx) ∧
    ((s.twinPick false).isSome = true ∧ s.mirrorFrame = none ∧ s.twinPick true = none →
      (s.twinEgress t).tw.turn = false ∧ ((s.twinEgress t).eg 2).map (·.q) = s.twinPick false) ∧
    ((s.twinPick false).isSome = true ∧ s.tw.turn = true →
      (s.twinEgress t).tw.turn = false ∧ ((s.twinEgress t).eg 2).map (·.q) = s.twinPick false) ∧
    (s.twinPick false = none ∧ s.mirrorFrame = none ∧ s.twinPick true = none → s.twinEgress t = s) := by
  have hclass : ∀ q, s.twinPick false = some q →
      ((s.startCopy portTwin q t).setTurn false).tw.turn = false ∧ (((s.startCopy portTwin q t).setTurn false).eg 2).map (·.q) = s.twinPick false :=
    fun q hq => ⟨rfl, (State.startCopy_twinPick hq t).trans hq.symm⟩
  rw [State.twinEgress_idle hl he]
  refine ⟨?_, ?_, ?_, ?_⟩
  · rintro ⟨hm, hturn⟩
    obtain ⟨f, u, hmf, hmir⟩ := State.twinMirror_some hm t
    have hsel : ((if s.tw.turn then ((s.twinPick false).map fun q => (s.startCopy portTwin q t).setTurn false) <|> (s.twinMirror t).map fun u => u.setTurn true
        else ((s.twinMirror t).map fun u => u.setTurn true) <|> (s.twinPick false).map fun q => (s.startCopy portTwin q t).setTurn false)).getD s =
        (u.sent .twin f).setTurn true := by
      rw [hmir]
      rcases hturn with hturn | hturn
      · rw [if_neg (by simp [hturn])]
        rfl
      · rw [hturn]
        split <;> rfl
    rw [hsel, hmf]
    exact ⟨rfl, congrArg some (by rw [show ((u.sent .twin f).setTurn true).port .twin = (u.sent .twin f).port .twin from rfl, State.sent_port])⟩
  · rintro ⟨hp, hm, hq⟩
    obtain ⟨q, hpq⟩ := Option.isSome_iff_exists.1 hp
    rw [State.twinMirror_none hm hq, hpq]
    have := hclass q hpq
    rw [hpq] at this
    split <;> exact this
  · rintro ⟨hp, hturn⟩
    obtain ⟨q, hpq⟩ := Option.isSome_iff_exists.1 hp
    have := hclass q hpq
    rw [if_pos hturn, hpq]
    rw [hpq] at this
    exact this
  · rintro ⟨hp, hm, hq⟩
    rw [State.twinMirror_none hm hq, hp]
    split <;> rfl

/-- A ring port counts what it sends, in RP_TX_FRAMES or RP_TRUNC. -/
theorem State.sendMerge_counts {s : State} {p : RingPort} {f : Frame} {fs : List Frame} (h : (s.port p.lanes).merge = f :: fs) (t : Int) :
    (s.sendMerge p.lanes t).fg p.page RP_PREEMPT_COUNT = s.fg p.page RP_PREEMPT_COUNT ∧
    onlyRegs [(p.page, RP_PREEMPT), (p.page, RP_TX_FRAMES), (p.page, RP_TRUNC)] s (s.sendMerge p.lanes t) := by
  rw [State.sendMerge_eq h]
  unfold State.sent
  dsimp only
  rw [if_neg (by cases p <;> decide), ringLanes_page]
  generalize (f.depart s.self t) = g
  cases hb : g.bad with
  | true =>
    rw [if_pos rfl]
    exact ⟨State.fg_fs_apart _ _ _ (by decide), onlyRegs.inc (f := RP_TRUNC_COUNT) ((onlyRegs.refl _ _).of_regs rfl) (by decide) (by simp [show RP_TRUNC_COUNT.off = RP_TRUNC from rfl])⟩
  | false =>
    rw [if_neg Bool.false_ne_true]
    exact ⟨State.fg_fs_apart _ _ _ (by decide), onlyRegs.inc (f := RP_TX_FRAMES_COUNT) ((onlyRegs.refl _ _).of_regs rfl) (by decide) (by simp [show RP_TX_FRAMES_COUNT.off = RP_TX_FRAMES from rfl])⟩

/-- A core frame of class T, B or M is cut by the merge buffer's first frame. -/
theorem State.preempt_spec {s : State} {p : RingPort} {f : Frame} {fs : List Frame} (hm : (s.port p.lanes).merge = f :: fs) (t : Int) :
    let u := ((s.setEg p.core none).inc p.page RP_PREEMPT_COUNT).sendMerge p.lanes t
    u.eg p.core = none ∧ u.core.ques = s.core.ques ∧
    u.fg p.page RP_PREEMPT_COUNT = min (s.fg p.page RP_PREEMPT_COUNT + 1) (2 ^ RP_PREEMPT_COUNT.w - 1) ∧
    (u.port p.lanes).merge = fs ∧ (u.port p.lanes).tx = (f.depart s.self t).bytes ∧
    onlyRegs [(p.page, RP_PREEMPT), (p.page, RP_TX_FRAMES), (p.page, RP_TRUNC)] s u := by
  dsimp only
  let v : State := (s.setEg p.core none).inc p.page RP_PREEMPT_COUNT
  have hcnt : v.fg p.page RP_PREEMPT_COUNT = min (s.fg p.page RP_PREEMPT_COUNT + 1) (2 ^ RP_PREEMPT_COUNT.w - 1) := State.fg_inc _ _ (by decide)
  have hself : v.self = s.self := State.self_of_regs (State.rd_fs_page _ _ _ _ (by cases p <;> decide))
  have hregs : onlyRegs [(p.page, RP_PREEMPT), (p.page, RP_TX_FRAMES), (p.page, RP_TRUNC)] s v :=
    onlyRegs.inc (f := RP_PREEMPT_COUNT) ((onlyRegs.refl _ _).of_regs rfl) (by decide) List.mem_cons_self
  have heg : v.eg p.core = none := State.eg_setEg ..
  have hmv : (v.port p.lanes).merge = f :: fs := hm
  have hpv : v.port p.lanes = s.port p.lanes := rfl
  have hcv : v.core.ques = s.core.ques := rfl
  rw [show (s.setEg p.core none).inc p.page RP_PREEMPT_COUNT = v from rfl]
  clear_value v
  obtain ⟨hport, hcore⟩ := State.sendMerge_spec hmv t
  obtain ⟨hfg, hrest⟩ := State.sendMerge_counts hmv t
  rw [hself, hpv] at hport
  exact ⟨(congrArg (fun c : CoreSt => c.eg.getD p.core none) hcore).trans heg, (congrArg CoreSt.ques hcore).trans hcv, hfg.trans hcnt,
    congrArg Port.merge hport, congrArg Port.tx hport, hregs.trans hrest⟩

/-- Settles O28: what is due at a frame boundary is sent in the order of R133 and R398, and CREDIT frames set and carry the limits. -/
theorem ringEgressOrder : Obligations.RingEgressOrder := by
  unfold Obligations.RingEgressOrder
  refine ⟨?_, ?_, ?_, ?_, ?_, ?_, ?_, ?_, ?_, ?_⟩
  · intro s port sub f fs ha he ho hm
    refine ⟨_, egressFrameStart_ring ha he ho, ?_⟩
    rw [show s.ringStart port (s.stampAt sub.val) = s.sendMerge port.lanes (s.stampAt sub.val) from if_pos (by simp [hm])]
    obtain ⟨hport, hcore⟩ := State.sendMerge_spec hm (s.stampAt sub.val)
    rw [hport]
    exact ⟨rfl, rfl, rfl, hcore⟩
  · intro s port sub f fs ha he ho hm hl
    have hsend : exec (.egressFrameStart port sub) s = .next (s.sendLL port) := by
      have hring : ∀ p : RingPort, (s.port p.lanes).merge = [] → (s.port p.lanes).ll = f :: fs → ∀ t, s.ringStart p t = s.sendLL p.lanes :=
        fun p hm hl t => (if_neg (by simp [hm])).trans (if_pos (by simp [hl]))
      cases port with
      | east => exact (egressFrameStart_ring (port := .east) ha he ho).trans (congrArg _ (hring .east (hm.resolve_left nofun) hl _))
      | west => exact (egressFrameStart_ring (port := .west) ha he ho).trans (congrArg _ (hring .west (hm.resolve_left nofun) hl _))
      | twin => exact (egressFrameStart_twin ha he ho).trans (congrArg _ (if_pos (by simp [hl])))
    refine ⟨_, hsend, ?_⟩
    obtain ⟨hport, hcore⟩ := State.sendLL_spec hl
    rw [hport]
    exact ⟨rfl, rfl, hcore⟩
  · intro s port sub c rt rb ha he ho hm hl hf hd hadm hp
    refine ⟨_, egressFrameStart_ring ha he ho, ?_⟩
    obtain ⟨e, es, hes, hstart⟩ := State.ringStart_core hm hl hf hd hadm hp (s.stampAt sub.val)
    rw [hstart, State.eg_setEg, hes]
    refine ⟨rfl, rfl, ?_, ?_, rfl, rfl⟩ <;>
    · refine (congrArg _ (State.port_setPort ..)).trans ?_
      rfl
  · intro s sub e ha he ho hl hf hd hadm hel
    refine ⟨_, egressFrameStart_twin ha he ho, ?_⟩
    obtain ⟨es, hes⟩ := State.ents_of_eligible hel
    obtain ⟨hq, ht, heg⟩ := State.twinCopy_spec hes (s.stampAt sub.val)
    have : s.twinEgress (s.stampAt sub.val) = s.twinCopy 8 (s.stampAt sub.val) := by
      unfold State.twinEgress
      dsimp only
      rw [if_neg (by simp [hl]), show (4 * portTwin) = 8 from rfl, show portTwin = 2 from rfl, if_pos (by simp [hf, hd, hadm, hel])]
    rw [this, heg]
    exact ⟨rfl, rfl, hq, ht⟩
  · intro s sub ha he ho hl hel
    exact ⟨_, egressFrameStart_twin ha he ho, State.twinEgress_turns hl hel _⟩
  · intro s port sub ha he ho
    obtain ⟨hp, hdown, -⟩ := s.leaveActive_spec port (ps := 0) (by decide)
    exact ⟨_, egressFrameStart_off ha he ho, hp, hdown⟩
  · intro s port sub g f fs he hq hb hm
    have hexec : exec (.mergePreempt port sub) s =
        .next (((s.setEg port.core none).inc port.page RP_PREEMPT_COUNT).sendMerge port.lanes (s.stampAt sub.val)) := by
      refine congrArg Host.Outcome.next ?_
      rw [he]
      exact if_neg (by simp [hq, hb, hm])
    exact ⟨_, hexec, State.preempt_spec hm _⟩
  · intro s port bytes c ha hr hl hc
    refine ⟨_, creditReceived_in ha hr hl, ?_⟩
    have hcr := s.creditIn_cr port (Hdr.ofBytes bytes) hc
    exact ⟨congrArg Cr.limit hcr, congrArg Cr.sent hcr, (congrArg Cr.lim hcr).trans rfl, rfl, rfl⟩
  · intro s port bytes ha hr hl had
    refine ⟨_, creditReceived_pass ha hr hl, ?_⟩
    have hmt : (Hdr.ofBytes bytes).mtype ≠ 3 := by
      unfold Hdr.isLL at hl
      simp only [Bool.and_eq_true, decide_eq_true_eq] at hl
      omega
    generalize Hdr.ofBytes bytes = h at hmt had ⊢
    cases hw : s.wrapped (dirPort h.dir) with
    | false =>
      rw [State.llPass_ridge (f := { hdr := h }) hmt hw had]
      exact ⟨rfl, fun _ => congrArg Port.merge (State.port_setPort ..), nofun⟩
    | true =>
      rw [State.llPass_wrapped (f := { hdr := h }) hw rfl]
      exact ⟨rfl, nofun, fun _ => ⟨rfl, State.fg_inc _ _ (by decide)⟩⟩
  · intro s port ha hr
    refine ⟨_, congrArg Host.Outcome.next (if_neg (by simp [ha, hr])), ?_, ?_, rfl, rfl, rfl⟩
    · refine (congrArg Port.ll (State.port_setPort ..)).trans ?_
      exact congrArg (· ++ _) ((congrArg Port.ll (State.port_setPort ..)).trans rfl)
    · refine (congrArg Port.initDue (State.port_setPort ..)).trans ?_
      exact congrArg Port.initDue (State.port_setPort ..)

end Sys2Proof.Machine
end

section
set_option Elab.async false
namespace Sys2Proof.Machine

/-! ### What a lane fault finds of the port (R117)

The frame being received is closed and the lane marked; the port's state, its lane maps, its substitution and the frames that
it has to send stay. -/

theorem State.pcnt_coreState (s : State) (p : Nat) : (s.pcnt p CORE_PCNT_DROP_BAD).rd 0x010 PAGE_STATE = s.rd 0x010 PAGE_STATE := by
  refine State.rd_fs_off _ _ _ ?_
  simp only [regKey, whole, CORE_PCNT_DROP_BAD, PAGE_STATE]
  omega

/-- The port's lanes and the core's page show the same, and the ports hold what they held. -/
structure SamePorts (b s : State) : Prop where
  ports : s.ring.ports = b.ring.ports
  core : s.rd 0x010 PAGE_STATE = b.rd 0x010 PAGE_STATE

namespace SamePorts

variable {b s t : State}

theorem refl (s : State) : SamePorts s s := ⟨rfl, rfl⟩

theorem trans (h : SamePorts b s) (h' : SamePorts s t) : SamePorts b t := ⟨h'.ports.trans h.ports, h'.core.trans h.core⟩

theorem ite {c : Prop} [Decidable c] (hs : SamePorts b s) (ht : SamePorts b t) : SamePorts b (if c then s else t) := by
  split <;> assumption

theorem foldl {α : Type} (f : State → α → State) (hf : ∀ t a, SamePorts t (f t a)) : ∀ (l : List α) {s : State}, SamePorts b s →
    SamePorts b (l.foldl f s)
  | [], _, h => h
  | _ :: l, _, h => foldl f hf l (h.trans (hf _ _))

end SamePorts

theorem State.freed_ports (s : State) (p : LanePort) (c : Cls) (n : Nat) : SamePorts s (s.freed p c n) := by
  unfold State.freed
  exact .ite (.refl s) ⟨rfl, rfl⟩

theorem State.endCopy_ports (s : State) (e : QEnt) : SamePorts s (s.endCopy e) := by
  unfold State.endCopy
  dsimp only
  have hback := SamePorts.ite (c := e.acct = true) (s.freed_ports (ringLane (s.frec e.cell).ingress) (s.frec e.cell).cls
    (s.frameCells e.cell)) (.refl s)
  have hfr := fun u : State => State.freeEnt_framed (i := e.idx) (State.unref_framed (c := e.cell) (.refl 0x1000 u) (.self _)) (.self _)
  exact hback.trans ⟨congrArg Ring.ports ((hfr _).part .ring rfl), (hfr _).rd 0x010 _ rfl⟩

theorem State.badCopies_ports (s : State) (head : Nat) : SamePorts s (s.badCopies head) := by
  unfold State.badCopies
  refine .foldl _ (fun t e => ?_) _ ⟨rfl, rfl⟩
  dsimp only
  refine .ite (.refl t) (.foldl _ (fun u x => ?_) _ ⟨rfl, rfl⟩)
  exact SamePorts.trans (s := u.pcnt (s.frec head).ingress CORE_PCNT_DROP_BAD) ⟨rfl, u.pcnt_coreState _⟩ (State.endCopy_ports ..)

theorem State.ingressBad_ports (s : State) (p : Nat) : SamePorts s (s.ingressBad p) := by
  have hstop : SamePorts s (s.stopIngress p) := by
    unfold State.stopIngress
    dsimp only
    exact (SamePorts.ite (State.freed_ports ..) (.refl s)).trans ⟨rfl, rfl⟩
  have hverdict : ∀ (u : State) (h : Nat), SamePorts u (u.setVerdict h false) := fun u h => by
    unfold State.setVerdict
    refine .ite (.refl u) ?_
    rw [if_neg Bool.false_ne_true]
    exact SamePorts.trans (s := u.setRec h { u.frec h with verdict := .bad }) ⟨rfl, rfl⟩ (State.badCopies_ports ..)
  unfold State.ingressBad
  dsimp only
  exact .ite (.refl s) (SamePorts.trans (.ite (hstop.trans (hverdict ..)) (.refl s)) ⟨rfl, rfl⟩)

theorem State.closeArriving_ports (s : State) (q : Nat) : SamePorts s (s.closeArriving q) := by
  unfold State.closeArriving
  cases closeFirst (s.ingress.getD q []).reverse with
  | some l => exact ⟨rfl, rfl⟩
  | none => exact s.ingressBad_ports q

/-- The registers that say how a port stands, beside the marks of its lanes. -/
def standOffs : List Nat := [LN_CTRL, LN_MAP, LN_SPARE_STATUS]

/-- Port `p` stands as in `b`, the marks of its lanes apart; its events stay raised. -/
structure LaneKept (p : LanePort) (b s : State) : Prop where
  spare : (s.port p).rxSpare = (b.port p).rxSpare
  sub : (s.port p).rxSub = (b.port p).rxSub
  urgent : (s.port p).urgent = (b.port p).urgent
  ll : (s.port p).ll = (b.port p).ll
  pstate : s.pstate p = b.pstate p
  rd : ∀ o ∈ standOffs, s.rd p.page o = b.rd p.page o
  core : s.rd 0x010 PAGE_STATE = b.rd 0x010 PAGE_STATE

namespace LaneKept

variable {p : LanePort} {b s t : State}

theorem refl (p : LanePort) (s : State) : LaneKept p s s := ⟨rfl, rfl, rfl, rfl, rfl, fun _ _ => rfl, rfl⟩

theorem trans (h : LaneKept p b s) (h' : LaneKept p s t) : LaneKept p b t :=
  ⟨h'.spare.trans h.spare, h'.sub.trans h.sub, h'.urgent.trans h.urgent, h'.ll.trans h.ll, h'.pstate.trans h.pstate,
    fun o ho => (h'.rd o ho).trans (h.rd o ho), h'.core.trans h.core⟩

/-- A field apart from how the port stands. -/
theorem fs (s : State) (p : LanePort) {f : Fld} (v : Nat) (ho : ∀ o ∈ standOffs, regKey 0 o ≠ regKey 0 f.off)
    (hs : regKey 0 LN_STATUS ≠ regKey 0 f.off ∨ (3 ≤ f.lo ∧ f.off = LN_STATUS)) : LaneKept p s (s.fs p.page f v) :=
  ⟨rfl, rfl, rfl, rfl, State.fg_fs_apart _ _ _ (hs.imp_right fun h => ⟨.inl h.1, by decide⟩), fun _ h => State.rd_fs_off _ _ _ (ho _ h),
    State.rd_fs_page _ _ _ _ (by cases p <;> decide)⟩

theorem laneFs (s : State) (p : LanePort) {f : Fld} {l : Nat} (v : Nat) (hf : f.off = LN_LSTAT ∨ f.off = LN_CNT) (hl : l < 5) :
    LaneKept p s (s.fs p.page (laneFld f l) v) := by
  refine .fs s p v ?_ (.inl ?_) <;> rcases hf with hf | hf <;>
  · simp only [standOffs, List.mem_cons, List.not_mem_nil, or_false, forall_eq_or_imp, forall_eq, regKey, laneFld, Fld.at, hf, LN_CTRL, LN_MAP,
      LN_SPARE_STATUS, LN_STATUS, LN_LSTAT, LN_CNT]
    omega

theorem raise (s : State) (p : LanePort) (n : Nat) : LaneKept p s (s.raise p.page n) :=
  ⟨by rw [State.port_raise], by rw [State.port_raise], by rw [State.port_raise], by rw [State.port_raise],
    State.fg_raise_off _ _ (by decide), fun o ho => State.rd_raise_off _ _ ((by decide : ∀ o ∈ standOffs, regKey 0 o ≠ regKey 0 EVT_STATUS) o ho),
    State.rd_raise_page _ _ _ (by cases p <;> decide)⟩

theorem fg (h : LaneKept p b s) {f : Fld} (hf : f.off ∈ standOffs) : s.fg p.page f = b.fg p.page f := by simp only [State.fg, h.rd _ hf]

theorem active (h : LaneKept p b s) : s.portActive p = b.portActive p := by simp only [State.portActive, h.pstate]

theorem inUse (h : LaneKept p b s) (l : Nat) : s.rxInUse p l = b.rxInUse p l := by
  simp only [State.rxInUse, h.active, State.rxMap, h.fg (f := LN_MAP_RX) (by decide)]

theorem ridgeOnly (h : LaneKept p b s) : s.ridgeOnly = b.ridgeOnly := by
  simp only [State.ridgeOnly, State.ready, State.running, State.fb, State.fg, show PAGE_STATE_READY.off = PAGE_STATE from rfl,
    show PAGE_STATE_RUNNING.off = PAGE_STATE from rfl, h.core]

end LaneKept

theorem State.closeArriving_stands (s : State) (p : LanePort) (q : Nat) : LaneKept p s (s.closeArriving q) := by
  obtain ⟨hports, hcore⟩ := s.closeArriving_ports q
  have hport : (s.closeArriving q).port p = s.port p := by simp only [State.port, hports]
  have hrd := s.closeArriving_soft q
  exact ⟨by rw [hport], by rw [hport], by rw [hport], by rw [hport],
    by simp only [State.pstate, State.fg, hrd.rd p.page LN_STATUS_PSTATE.off (lanePage_mem p) (by decide) (by decide)],
    fun o ho => hrd.rd _ _ (lanePage_mem p) ((by decide : ∀ o ∈ standOffs, o < 4096) o ho) ((by decide : ∀ o ∈ standOffs, o ∉ dropOffs) o ho), hcore⟩

theorem State.countCv_stands (s : State) (p : LanePort) {l : Nat} (n : Nat) (hl : l < 5) : LaneKept p s (s.countCv p l n) := by
  unfold State.countCv
  split
  · exact .refl p s
  · dsimp only
    generalize s.inWindow (s.fg p.page LN_ERR_CFG_WINDOW) ((s.port p).cvAt.getD l []) ++ List.replicate n s.lc = w
    have hset : LaneKept p s (s.setPort p { s.port p with cvAt := (s.port p).cvAt.put l w [] }) := by
      refine ⟨?_, ?_, ?_, ?_, rfl, fun _ _ => rfl, rfl⟩ <;> rw [State.port_setPort]
    rw [State.addSat_eq_fs]
    exact hset.trans (.laneFs (f := LN_CNT_CV) _ p _ (.inr rfl) hl)

theorem State.faultMarks_stands (s : State) (p : LanePort) {l : Nat} (c : LaneCause) (hl : l < 5) : LaneKept p s (s.faultMarks p l c) := by
  cases c with
  | signal => exact .laneFs s p 1 (.inl rfl) hl
  | lock =>
    refine LaneKept.trans ?_ (.laneFs _ p _ (.inr rfl) hl)
    exact (LaneKept.fs s p _ (by decide) (.inr (by decide))).trans (.laneFs _ p _ (.inl rfl) hl)
  | violations => exact s.countCv_stands p 4 hl

/-! ### A substitution begins (R117, R120) -/

/-- A LANE_CTRL frame joins the port's link-local frames, outside ridge-only mode. -/
theorem State.laneCtrl_sent {s : State} (p : RingPort) {op lane cause seq : Nat} (hr : s.ridgeOnly = false) :
    (s.laneCtrl p op lane cause seq).port p.lanes = { s.port p.lanes with ll := (s.port p.lanes).ll ++
      [{ hdr := { cls := .M, mtype := 0x03, dir := sendDir p, dst := 127, ll := true, src := s.hubId },
         payload := leBytes (op + 256 * lane + 65536 * cause + 16777216 * seq) 8 }] } := by
  unfold State.laneCtrl
  rw [if_neg (by simp [hr])]
  exact State.port_setPort ..

theorem State.laneCtrl_regs (s : State) (p : RingPort) (op lane cause seq : Nat) : (s.laneCtrl p op lane cause seq).regs = s.regs := by
  unfold State.laneCtrl
  split <;> rfl

/-- Whether it is sent or not, the substitution at the port is as it was. -/
theorem State.laneCtrl_sub (s : State) (p : RingPort) (op lane cause seq : Nat) :
    ((s.laneCtrl p op lane cause seq).port p.lanes).rxSub = (s.port p.lanes).rxSub ∧
    ((s.laneCtrl p op lane cause seq).port p.lanes).rxSpare = (s.port p.lanes).rxSpare ∧
    ((s.laneCtrl p op lane cause seq).port p.lanes).tries = (s.port p.lanes).tries ∧
    ((s.laneCtrl p op lane cause seq).port p.lanes).urgent = (s.port p.lanes).urgent := by
  cases h : s.ridgeOnly with
  | true => rw [show s.laneCtrl p op lane cause seq = s from if_pos h]; exact ⟨rfl, rfl, rfl, rfl⟩
  | false => rw [State.laneCtrl_sent p h]; exact ⟨rfl, rfl, rfl, rfl⟩

/-- The first two bytes of a LANE_CTRL frame name its operation and its lane. -/
theorem laneCtrl_payload {op lane : Nat} (cause seq : Nat) (ho : op < 256) (hl : lane < 256) :
    (leBytes (op + 256 * lane + 65536 * cause + 16777216 * seq) 8).take 2 = [BitVec.ofNat 8 op, BitVec.ofNat 8 lane] := by
  simp only [leBytes, List.take_succ_cons, List.take_zero, List.cons.injEq, and_true]
  refine ⟨BitVec.eq_of_toNat_eq ?_, BitVec.eq_of_toNat_eq ?_⟩ <;> simp only [BitVec.toNat_ofNat] <;> omega

theorem ringOf_lanes (p : RingPort) : ringOf p.lanes = some p := by cases p <;> rfl

/-- A port at which a substitution has begun, its request sent. -/
theorem State.subBegun_spec {u : State} {p : RingPort} (x : Port) {op lane cause seq : Nat} (hr : u.ridgeOnly = false)
    (ho : op < 256) (hl : lane < 256) :
    let t := ((u.setPort p.lanes x).fs p.page LN_SPARE_STATUS_RX_OP 1).laneCtrl p op lane cause seq
    (t.port p.lanes).rxSub = x.rxSub ∧ (t.port p.lanes).urgent = x.urgent ∧ (t.port p.lanes).tries = x.tries ∧
    (t.port p.lanes).ll.map (·.payload.take 2) = x.ll.map (·.payload.take 2) ++ [[BitVec.ofNat 8 op, BitVec.ofNat 8 lane]] ∧
    t.fg p.page LN_SPARE_STATUS_RX_OP = 1 ∧ (∀ n, t.event p.page n = u.event p.page n) := by
  dsimp only
  let v : State := (u.setPort p.lanes x).fs p.page LN_SPARE_STATUS_RX_OP 1
  have hv : v.ridgeOnly = false := by
    have h := fun f : Fld => State.fg_fs_page (u.setPort p.lanes x) p.page 0x010 (f := LN_SPARE_STATUS_RX_OP) 1 (g := f) (by cases p <;> decide)
    simp only [State.ridgeOnly, State.ready, State.running, State.fb, v, h]
    exact hr
  have hport := State.laneCtrl_sent (s := v) p (op := op) (lane := lane) (cause := cause) (seq := seq) hv
  have hx : v.port p.lanes = x := (State.port_fs ..).trans (State.port_setPort ..)
  rw [hx] at hport
  have hregs := v.laneCtrl_regs p op lane cause seq
  refine ⟨(congrArg Port.rxSub hport).trans rfl, (congrArg Port.urgent hport).trans rfl, (congrArg Port.tries hport).trans rfl, ?_, ?_, fun n => ?_⟩
  · refine (congrArg (fun y : Port => y.ll.map (·.payload.take 2)) hport).trans ?_
    rw [List.map_append, List.map_cons, laneCtrl_payload cause seq ho hl]
    rfl
  · exact (State.fg_of_regs hregs ..).trans ((State.fg_fs _ _ _ _ (by decide)).trans rfl)
  · exact (State.event_of_regs hregs ..).trans (State.event_fs_off _ _ _ _ (by decide))

/-- An urgent substitution by a usable spare takes the place of what a lane in use carried. -/
theorem State.laneFaultUsed_urgent {s : State} {p : RingPort} {l : Nat} (hl : l < 5) (hu : s.fb p.page LN_CTRL_URGENT_EN = true)
    (hs : (s.port p.lanes).rxSpare.isSome = true) (hn : (s.port p.lanes).rxSub = none) (hg : (s.port p.lanes).urgent = false)
    (hr : s.ridgeOnly = false) :
    ((s.laneFaultUsed p.lanes l).port p.lanes).rxSub = some l ∧ ((s.laneFaultUsed p.lanes l).port p.lanes).urgent = true ∧
    (s.laneFaultUsed p.lanes l).fg p.page LN_SPARE_STATUS_RX_OP = 1 ∧ (s.laneFaultUsed p.lanes l).event p.page EV_LN_LANE_FAULT = true ∧
    ((s.laneFaultUsed p.lanes l).port p.lanes).ll.map (·.payload.take 2) =
      (s.port p.lanes).ll.map (·.payload.take 2) ++ [[2, BitVec.ofNat 8 l]] := by
  unfold State.laneFaultUsed
  rw [ringOf_lanes]
  dsimp only
  have hk := (s.closeArriving_stands p.lanes (laneCore p.lanes)).trans (LaneKept.raise _ p.lanes EV_LN_LANE_FAULT)
  have hev : ((s.closeArriving (laneCore p.lanes)).raise p.lanes.page EV_LN_LANE_FAULT).event p.page EV_LN_LANE_FAULT = true := by
    rw [ringLanes_page]
    exact State.event_raise _ _ (hb := by decide)
  generalize (s.closeArriving (laneCore p.lanes)).raise p.lanes.page EV_LN_LANE_FAULT = u at hk hev ⊢
  have hue : u.fb p.lanes.page LN_CTRL_URGENT_EN = true := by
    rw [State.fb, hk.fg (by decide), ringLanes_page]
    exact hu
  rw [if_neg (by simp [hk.sub, hn]), if_neg (by simp [hk.urgent, hg]), if_pos (by simp [hue, hk.spare, hs, hk.ridgeOnly, hr]), ringLanes_page]
  have hul : (u.port p.lanes).ll = (s.port p.lanes).ll := hk.ll
  generalize u.port p.lanes = x at hul ⊢
  obtain ⟨hsub, hurg, -, hll, hop, hkeep⟩ := State.subBegun_spec (u := u) (p := p)
    { x with rxSub := some l, urgent := true, tries := 1, cause := 3, subSeq := (x.subSeq + 1) % 256 } (op := 2) (lane := l) (cause := 3)
    (seq := (x.subSeq + 1) % 256) (hk.ridgeOnly.trans hr) (by decide) (by omega)
  exact ⟨hsub, hurg, hop, (hkeep _).trans hev, hll.trans (by rw [hul]; rfl)⟩

/-- With no spare to take its place the port trains again. -/
theorem State.laneFaultUsed_down {s : State} {p : LanePort} (l : Nat)
    (h : p = .twin ∨ ((s.port p).rxSpare = none ∧ (s.port p).rxSub = none)) :
    (s.laneFaultUsed p l).pstate p = 1 ∧ (s.laneFaultUsed p l).event p.page EV_LN_LANE_FAULT = true ∧
    (s.laneFaultUsed p l).event p.page EV_LN_LINK_DOWN = true := by
  have hk := (s.closeArriving_stands p (laneCore p)).trans (LaneKept.raise _ p EV_LN_LANE_FAULT)
  have hev : ((s.closeArriving (laneCore p)).raise p.page EV_LN_LANE_FAULT).event p.page EV_LN_LANE_FAULT = true :=
    State.event_raise _ _ (hb := by decide)
  have heq : s.laneFaultUsed p l = ((s.closeArriving (laneCore p)).raise p.page EV_LN_LANE_FAULT).leaveActive p 1 := by
    unfold State.laneFaultUsed
    dsimp only
    generalize (s.closeArriving (laneCore p)).raise p.page EV_LN_LANE_FAULT = u at hk ⊢
    cases hr : ringOf p with
    | none => rfl
    | some r =>
      obtain ⟨hspare, hsub⟩ := h.resolve_left fun e => by rw [e] at hr; cases hr
      simp [hk.sub, hsub, hk.spare, hspare]
  rw [heq]
  obtain ⟨hps, hdown, hkeep⟩ := State.leaveActive_spec ((s.closeArriving (laneCore p)).raise p.page EV_LN_LANE_FAULT) p (ps := 1) (by decide)
  exact ⟨hps, hkeep _ hev, hdown⟩

/-- A planned substitution of a lane in use is requested where a spare is usable. -/
theorem State.requestSub_spec {s : State} {p : RingPort} {l : Nat} (cause : Nat) (hl : l < 256) (hu : s.rxInUse p.lanes l = true)
    (hs : (s.port p.lanes).rxSpare.isSome = true) (hn : (s.port p.lanes).rxSub = none) (hr : s.ridgeOnly = false) :
    ((s.requestSub p l cause).port p.lanes).rxSub = some l ∧ ((s.requestSub p l cause).port p.lanes).tries = 1 ∧
    (s.requestSub p l cause).fg p.page LN_SPARE_STATUS_RX_OP = 1 := by
  unfold State.requestSub
  dsimp only
  rw [if_neg (by simp [hn]), if_neg (by simp [hu, Option.isSome_iff_ne_none.1 hs, hr]), ringLanes_page]
  generalize s.port p.lanes = x
  obtain ⟨hsub, -, htries, -, hop, -⟩ := State.subBegun_spec (u := s) (p := p)
    { x with rxSub := some l, urgent := false, tries := 1, cause := cause, subSeq := (x.subSeq + 1) % 256 } (op := 1) (lane := l) (cause := cause)
    (seq := (x.subSeq + 1) % 256) hr (by decide) hl
  exact ⟨hsub, htries, hop⟩

theorem State.ridgeOnly_touch (s : State) (who : Initiator) (r : Bool) : (s.touch who r).ridgeOnly = s.ridgeOnly := by
  simp only [State.ridgeOnly, State.ready, State.running, State.fb, State.fg_touch_page s who r _ (show (0x010 : Nat) ≠ 0x01C by decide)]

theorem State.rxInUse_touch (s : State) (who : Initiator) (r : Bool) (p : LanePort) (l : Nat) : (s.touch who r).rxInUse p l = s.rxInUse p l := by
  simp only [State.rxInUse, State.rxMap, State.portActive_touch, State.fg_touch_page s who r _ (show p.page ≠ 0x01C by cases p <;> decide)]

theorem State.port_touch (s : State) (who : Initiator) (r : Bool) (p : LanePort) : (s.touch who r).port p = s.port p :=
  congrArg (fun x : Ring => x.ports.getD (laneIdx p) {}) (s.touch_ring who r)

/-! ### The spare is lost -/

theorem State.setRoles_ports (s : State) (p : LanePort) : (s.setRoles p).ring = s.ring :=
  List.foldlRecOn (motive := fun t : State => t.ring = s.ring) _ _ rfl fun _ h _ _ => h

/-- The roles of the lanes leave every field but those of ROLE. -/
theorem State.setRoles_fg (s : State) (p : LanePort) {g : Fld}
    (h : ∀ l < 5, regKey 0 g.off ≠ regKey 0 (laneFld LN_LSTAT_ROLE l).off ∨ (4 ≤ g.lo ∧ g.lo + g.w ≤ 32)) :
    (s.setRoles p).fg p.page g = s.fg p.page g := by
  refine List.foldlRecOn (motive := fun t : State => t.fg p.page g = s.fg p.page g) _ _ rfl fun t ht l hl => ?_
  have hl5 : l < 5 := by
    have := List.mem_range.1 hl
    cases p <;> simp only [laneCount] at this <;> omega
  exact (State.fg_fs_apart _ _ _ ((h l hl5).imp_right fun h => ⟨.inr h.1, h.2⟩)).trans ht

theorem State.setRoles_event (s : State) (p : LanePort) (n : Nat) : (s.setRoles p).event p.page n = s.event p.page n := by
  refine List.foldlRecOn (motive := fun t : State => t.event p.page n = s.event p.page n) _ _ rfl fun t ht l hl => ?_
  have hl5 : l < 5 := by
    have := List.mem_range.1 hl
    cases p <;> simp only [laneCount] at this <;> omega
  refine (State.event_fs_off _ _ _ _ ?_).trans ht
  simp only [regKey, laneFld, Fld.at, EVT_STATUS, LN_LSTAT_ROLE]
  omega

theorem roleApart {o : Nat} (h : o = LN_SPARE_STATUS ∨ o = LN_MAP ∨ o = PAGE_STATE) : ∀ l < 5, regKey 0 o ≠ regKey 0 (laneFld LN_LSTAT_ROLE l).off := by
  intro l hl
  rcases h with h | h | h <;> simp only [h, regKey, laneFld, Fld.at, LN_LSTAT_ROLE, LN_SPARE_STATUS, LN_MAP, PAGE_STATE] <;> omega

/-- The roles and the marks of the spares leave the ports. -/
theorem State.sparesShown_port (s : State) (p q : LanePort) (n : Nat) : ((((s.setRoles p).setSpareOk p).raise p.page n)).port q = s.port q := by
  rw [State.port_raise]
  exact congrArg (fun r : Ring => r.ports.getD (laneIdx q) {}) (s.setRoles_ports p)

/-- The unused spare that faults is unusable, with SPARE_LOST. -/
theorem State.spareLost_spec (s : State) (p : LanePort) {l : Nat} (hl : l < 5) :
    ((s.spareLost p l).port p).rxSpare = none ∧ (s.spareLost p l).fg p.page LN_SPARE_STATUS_RX_SPARE_OK = 0 ∧
    (s.spareLost p l).fg p.page (laneFld LN_LSTAT_FAULT l) = 1 ∧ (s.spareLost p l).event p.page EV_LN_SPARE_LOST = true := by
  unfold State.spareLost
  dsimp only
  generalize decide (s.fg p.page LN_SPARE_STATUS_RX_OP = 2) = br
  generalize hu : (s.fs p.page (laneFld LN_LSTAT_FAULT l) 1).setPort p _ = u
  have hport : (u.port p).rxSpare = none := by rw [← hu, State.port_setPort]
  have hfault : u.fg p.page (laneFld LN_LSTAT_FAULT l) = 1 := by
    rw [← hu]
    exact (State.fg_fs _ _ _ _ (by simp [laneFld, Fld.at, LN_LSTAT_FAULT])).trans rfl
  have hlost : ∀ t : State, (t.port p).rxSpare = none → t.fg p.page (laneFld LN_LSTAT_FAULT l) = 1 →
      ((((t.setRoles p).setSpareOk p).raise p.page EV_LN_SPARE_LOST).port p).rxSpare = none ∧
      (((t.setRoles p).setSpareOk p).raise p.page EV_LN_SPARE_LOST).fg p.page LN_SPARE_STATUS_RX_SPARE_OK = 0 ∧
      (((t.setRoles p).setSpareOk p).raise p.page EV_LN_SPARE_LOST).fg p.page (laneFld LN_LSTAT_FAULT l) = 1 ∧
      (((t.setRoles p).setSpareOk p).raise p.page EV_LN_SPARE_LOST).event p.page EV_LN_SPARE_LOST = true := fun t hsp hf => by
    have hr : ((t.setRoles p).port p).rxSpare = none :=
      (congrArg (fun r : Ring => (r.ports.getD (laneIdx p) {}).rxSpare) (t.setRoles_ports p)).trans hsp
    refine ⟨by rw [State.sparesShown_port]; exact hsp, ?_, ?_, State.event_raise _ _ (hb := by decide)⟩
    · refine (State.fg_raise_off _ _ (by decide)).trans ((State.fg_fs_apart _ _ _ (by decide)).trans ((State.fg_fs _ _ _ _ (by decide)).trans ?_))
      rw [hr]
      rfl
    · have hoff : regKey 0 (laneFld LN_LSTAT_FAULT l).off ≠ regKey 0 EVT_STATUS ∧
          regKey 0 (laneFld LN_LSTAT_FAULT l).off ≠ regKey 0 LN_SPARE_STATUS := by
        simp only [regKey, laneFld, Fld.at, EVT_STATUS, LN_LSTAT_FAULT, LN_SPARE_STATUS]
        omega
      refine (State.fg_raise_off _ _ hoff.1).trans ((State.fg_fs_apart _ _ _ (.inl hoff.2)).trans ((State.fg_fs_apart _ _ _ (.inl hoff.2)).trans ?_))
      exact (t.setRoles_fg p fun k _ => .inr (by simp [laneFld, Fld.at, LN_LSTAT_FAULT])).trans hf
  cases br with
  | false => exact hlost u hport hfault
  | true =>
    rw [if_pos rfl]
    cases hr : ringOf p with
    | none => exact hlost u hport hfault
    | some r =>
      have hp : r.lanes = p := by cases p <;> cases hr <;> rfl
      refine hlost _ ?_ ?_
      · rw [State.port_fs, ← hp, (State.laneCtrl_sub ..).2.1, hp]
        exact hport
      · refine (State.fg_fs_apart _ _ _ (.inl ?_)).trans ((State.fg_of_regs (State.laneCtrl_regs ..) ..).trans hfault)
        simp only [regKey, laneFld, Fld.at, LN_LSTAT_FAULT, LN_SPARE_STATUS_RX_OP]
        omega

/-! ### A lane takes the place of another in a map -/

/-- The logical lane `k` is on the lane to which the map word was set. -/
theorem mapLane_setMapLane (m : Nat) {k l : Nat} (hk : k < 4) (hl : l < 8) : mapLane (setMapLane m k l % 2 ^ 12) k = l := by
  have hget : mapLane (setMapLane m k l) k = l := by
    refine (Fld.get_set (⟨0, 3 * k, 3⟩ : Fld) l (BitVec.ofNat 32 m) (by dsimp only; omega)).trans ?_
    exact Nat.mod_eq_of_lt hl
  refine Eq.trans ?_ hget
  unfold mapLane
  generalize setMapLane m k l = n
  rw [Nat.shiftRight_eq_div_pow, Nat.shiftRight_eq_div_pow]
  have h4 : k = 0 ∨ k = 1 ∨ k = 2 ∨ k = 3 := by omega
  rcases h4 with rfl | rfl | rfl | rfl <;> norm_num <;> omega

theorem logicalOf_lt {n m l k : Nat} (h : logicalOf n m l = some k) : k < n := List.mem_range.1 (List.mem_of_find?_eq_some h)

theorem nbit_setBit (n : Nat) {l w : Nat} (hl : l < w) : nbit (setBit n l true % 2 ^ w) l = true := by
  unfold nbit setBit
  rw [if_pos rfl, Nat.testBit_mod_two_pow]
  simp [hl, Nat.shiftLeft_eq]

/-- The marks of the spares and an event leave the fields apart from them. -/
theorem State.spareShown_fg (u : State) (p : LanePort) (n : Nat) {g : Fld}
    (h : regKey 0 g.off ≠ regKey 0 LN_SPARE_STATUS ∨ ((g.lo + g.w ≤ 6 ∨ 8 ≤ g.lo) ∧ g.lo + g.w ≤ 32)) (he : regKey 0 g.off ≠ regKey 0 EVT_STATUS) :
    ((u.setSpareOk p).raise p.page n).fg p.page g = u.fg p.page g := by
  refine (State.fg_raise_off _ _ he).trans ((State.fg_fs_apart _ _ _ ?_).trans (State.fg_fs_apart _ _ _ ?_))
  · exact h.imp_right fun h => ⟨h.1.imp id fun h => Nat.le_trans (by decide) h, h.2⟩
  · exact h.imp_right fun h => ⟨h.1.imp (fun h => Nat.le_trans h (by decide)) id, h.2⟩

theorem State.spareShown_port (u : State) (p : LanePort) (n : Nat) : ((u.setSpareOk p).raise p.page n).port p = u.port p := State.port_raise ..

theorem State.port_setState (s : State) (p : Nat) (f : Fld) (v : Bool) (q : LanePort) : (s.setState p f v).port q = s.port q := by
  unfold State.setState
  split
  · rfl
  · rw [State.port_raise, State.port_fs]

theorem State.spared_fg (s : State) (p : Nat) : (s.setState p PAGE_STATE_SPARED true).fg p PAGE_STATE_SPARED = 1 := by
  have h := State.setState_fb s p (f := PAGE_STATE_SPARED) (v := true)
  have hlt := Fld.get_lt PAGE_STATE_SPARED ((s.setState p PAGE_STATE_SPARED true).rd p PAGE_STATE_SPARED.off)
  simp only [State.fb, State.fg, bne_iff_ne, PAGE_STATE_SPARED] at h hlt ⊢
  omega

/-- The lane in use gives its logical lane to the spare and is retired, with SPARE_DONE. -/
theorem State.rxSwitch_spec {s : State} {p : LanePort} {l sp k : Nat} (hk : logicalOf (logicalCount p) (s.rxMap p) l = some k)
    (hl : l < 5) (hsp : sp < 5) :
    let t := s.rxSwitch p l sp
    mapLane (t.rxMap p) k = sp ∧ nbit (t.fg p.page LN_SPARE_STATUS_RX_RETIRED) l = true ∧ t.fg p.page LN_SPARE_STATUS_RX_OP = 3 ∧
    (t.port p).rxSub = none ∧ (t.port p).rxSpare = none ∧ t.event p.page EV_LN_SPARE_DONE = true ∧ t.fg p.page PAGE_STATE_SPARED = 1 := by
  have hk4 : k < 4 := by
    have := logicalOf_lt hk
    cases p <;> simp only [logicalCount] at this <;> omega
  dsimp only
  unfold State.rxSwitch
  rw [hk]
  dsimp only
  generalize s.rxMap p = m
  generalize s.wearSpared _ = s0
  let s1 : State := s0.fs p.page LN_MAP_RX (setMapLane m k sp)
  let s2 : State := s1.fs p.page LN_SPARE_STATUS_RX_RETIRED (setBit (s1.fg p.page LN_SPARE_STATUS_RX_RETIRED) l true)
  let s3 : State := s2.setPort p { s2.port p with rxSub := none, rxSpare := none, urgent := false, tries := 0 }
  have hshown := fun {g : Fld} => State.spareShown_fg (((s3.fs p.page LN_SPARE_STATUS_RX_OP 3).setState p.page PAGE_STATE_SPARED true).setRoles p) p
    EV_LN_SPARE_DONE (g := g)
  have hport : ((((s3.fs p.page LN_SPARE_STATUS_RX_OP 3).setState p.page PAGE_STATE_SPARED true).setRoles p).port p) = s3.port p :=
    (congrArg (fun r : Ring => r.ports.getD (laneIdx p) {}) (State.setRoles_ports ..)).trans ((State.port_setState ..).trans (State.port_fs ..))
  have hset : s3.port p = { s2.port p with rxSub := none, rxSpare := none, urgent := false, tries := 0 } := State.port_setPort ..
  refine ⟨?_, ?_, ?_, ?_, ?_, State.event_raise _ _ (hb := by decide), ?_⟩
  · have hmap : s3.fg p.page LN_MAP_RX = setMapLane m k sp % 2 ^ 12 :=
      (State.fg_fs_apart _ _ _ (by decide)).trans (State.fg_fs _ _ _ _ (by decide))
    refine (congrArg (mapLane · k) ?_).trans (mapLane_setMapLane m hk4 (by omega))
    refine (hshown (by decide) (by decide)).trans ((State.setRoles_fg _ _ fun j hj => .inl (roleApart (.inr (.inl rfl)) j hj)).trans ?_)
    exact (State.fg_setState_beside _ _ _ (by decide) (by decide)).trans ((State.fg_fs_apart _ _ _ (by decide)).trans hmap)
  · refine (congrArg (nbit · l) ?_).trans (nbit_setBit (s1.fg p.page LN_SPARE_STATUS_RX_RETIRED) (w := 5) hl)
    refine (hshown (by decide) (by decide)).trans ((State.setRoles_fg _ _ fun j hj => .inl (roleApart (.inl rfl) j hj)).trans ?_)
    refine (State.fg_setState_beside _ _ _ (by decide) (by decide)).trans ((State.fg_fs_apart _ _ _ (by decide)).trans ?_)
    exact State.fg_fs _ _ _ _ (by decide)
  · refine (hshown (by decide) (by decide)).trans ((State.setRoles_fg _ _ fun j hj => .inl (roleApart (.inl rfl) j hj)).trans ?_)
    exact (State.fg_setState_beside _ _ _ (by decide) (by decide)).trans ((State.fg_fs _ _ _ _ (by decide)).trans rfl)
  · exact congrArg Port.rxSub ((State.spareShown_port ..).trans (hport.trans hset))
  · exact congrArg Port.rxSpare ((State.spareShown_port ..).trans (hport.trans hset))
  · refine (hshown (by decide) (by decide)).trans ((State.setRoles_fg _ _ fun j hj => .inl (roleApart (.inr (.inr rfl)) j hj)).trans ?_)
    exact State.spared_fg ..

/-- The sender's lane gives its logical lane to the spare and is retired, with SPARE_DONE. -/
theorem State.txSwitch_spec {s : State} {p : LanePort} {l sp k : Nat} (hk : logicalOf (logicalCount p) (s.txMap p) l = some k)
    (hl : l < 5) (hsp : sp < 5) :
    let t := s.txSwitch p l sp
    mapLane (t.txMap p) k = sp ∧ nbit (t.fg p.page LN_SPARE_STATUS_TX_RETIRED) l = true ∧ (t.port p).txSub = none ∧
    t.event p.page EV_LN_SPARE_DONE = true := by
  have hk4 : k < 4 := by
    have := logicalOf_lt hk
    cases p <;> simp only [logicalCount] at this <;> omega
  dsimp only
  unfold State.txSwitch
  rw [hk]
  dsimp only
  generalize s.txMap p = m
  let s1 : State := s.fs p.page LN_MAP_TX (setMapLane m k sp)
  let s2 : State := s1.fs p.page LN_SPARE_STATUS_TX_RETIRED (setBit (s1.fg p.page LN_SPARE_STATUS_TX_RETIRED) l true)
  let s3 : State := s2.setPort p { s2.port p with txSub := none, txSpare := none, tscode := (s2.port p).tscode.erase sp }
  have hshown := fun {g : Fld} => State.spareShown_fg (s3.setState p.page PAGE_STATE_SPARED true) p EV_LN_SPARE_DONE (g := g)
  have hset : s3.port p = { s2.port p with txSub := none, txSpare := none, tscode := (s2.port p).tscode.erase sp } := State.port_setPort ..
  refine ⟨?_, ?_, ?_, State.event_raise _ _ (hb := by decide)⟩
  · have hmap : s3.fg p.page LN_MAP_TX = setMapLane m k sp % 2 ^ 12 :=
      (State.fg_fs_apart _ _ _ (by decide)).trans (State.fg_fs _ _ _ _ (by decide))
    refine (congrArg (mapLane · k) ?_).trans (mapLane_setMapLane m hk4 (by omega))
    exact (hshown (by decide) (by decide)).trans ((State.fg_setState_beside _ _ _ (by decide) (by decide)).trans hmap)
  · refine (congrArg (nbit · l) ?_).trans (nbit_setBit (s1.fg p.page LN_SPARE_STATUS_TX_RETIRED) (w := 5) hl)
    refine (hshown (by decide) (by decide)).trans ((State.fg_setState_beside _ _ _ (by decide) (by decide)).trans ?_)
    exact State.fg_fs _ _ _ _ (by decide)
  · exact congrArg Port.txSub ((State.spareShown_port ..).trans ((State.port_setState ..).trans hset))

/-! ### Lane control on a ring port -/

theorem State.onRing_eq {s : State} {p : RingPort} (ha : s.portActive p.lanes = true) (hr : s.ridgeOnly = false) (f : RingPort → State) :
    s.onRing p.lanes f = f p := by
  unfold State.onRing
  rw [ringOf_lanes]
  exact if_pos (by simp [ha, hr])

/-- A planned request is repeated twice; after the third attempt the substitution ends as timed out. -/
theorem spareRequestTimeout_spec {s : State} {p : RingPort} {l : Nat} (ha : s.portActive p.lanes = true) (hr : s.ridgeOnly = false)
    (hs : (s.port p.lanes).rxSub = some l) (hu : (s.port p.lanes).urgent = false) (ho : s.fg p.page LN_SPARE_STATUS_RX_OP = 1) :
    exec (.spareRequestTimeout p.lanes) s = .next (if 3 ≤ (s.port p.lanes).tries then s.endSub p.lanes 5
      else (s.setPort p.lanes { s.port p.lanes with tries := (s.port p.lanes).tries + 1 }).laneCtrl p 0x01 l (s.port p.lanes).cause
        (s.port p.lanes).subSeq) := by
  refine congrArg Host.Outcome.next ((State.onRing_eq ha hr _).trans ?_)
  dsimp only
  rw [hs]
  exact if_neg (by simp [ringLanes_page, ho, hu])

theorem State.endSub_spec (s : State) (p : LanePort) {op : Nat} (hop : op < 8) :
    ((s.endSub p op).port p).rxSub = none ∧ (s.endSub p op).fg p.page LN_SPARE_STATUS_RX_OP = op ∧
    (s.endSub p op).event p.page EV_LN_SPARE_REFUSED = true :=
  ⟨congrArg Port.rxSub ((State.port_raise ..).trans (State.port_setPort ..)),
    (State.fg_raise_off _ _ (by decide)).trans ((State.fg_fs _ _ _ _ (by decide)).trans (Nat.mod_eq_of_lt hop)),
    State.event_raise _ _ (hb := by decide)⟩

/-- Settles O26: a faulted or worn lane is replaced by the port's spare, at once or after request, comparison and confirmation. -/
theorem lanesAreReplacedBySpares : Obligations.LanesAreReplacedBySpares := by
  unfold Obligations.LanesAreReplacedBySpares
  have hcount : ∀ (p : RingPort) (l : Fin 5), ¬ laneCount p.lanes ≤ l.val := fun p l => by
    cases p <;> exact Nat.not_le.2 l.isLt
  refine ⟨?_, ?_, ?_, ?_, ?_, ?_, ?_, ?_, ?_, ?_, ?_, ?_, ?_⟩
  · intro s port lane cause ha hu hen hsp hsub hurg hr
    have hk := s.faultMarks_stands port.lanes cause lane.isLt
    have hexec : exec (.laneFault port.lanes lane cause) s = .next ((s.faultMarks port.lanes lane.val cause).laneFaultUsed port.lanes lane.val) :=
      congrArg Host.Outcome.next ((if_neg (hcount port lane)).trans ((if_neg (by simp [hk.active, ha])).trans (if_pos ((hk.inUse _).trans hu))))
    refine ⟨_, hexec, ?_⟩
    generalize s.faultMarks port.lanes lane.val cause = u at hk ⊢
    have hen' : u.fb port.page LN_CTRL_URGENT_EN = true := by
      rw [← ringLanes_page, State.fb, hk.fg (by decide), ringLanes_page]
      exact hen
    have hspec := State.laneFaultUsed_urgent lane.isLt hen' (by rw [hk.spare]; exact hsp) (hk.sub.trans hsub) (hk.urgent.trans hurg)
      (hk.ridgeOnly.trans hr)
    rw [hk.ll] at hspec
    exact hspec
  · intro s port lane cause hl hu hnone
    have hk := s.faultMarks_stands port cause lane.isLt
    have ha : s.portActive port = true := (Bool.and_eq_true_iff.1 hu).1
    have hexec : exec (.laneFault port lane cause) s = .next ((s.faultMarks port lane.val cause).laneFaultUsed port lane.val) :=
      congrArg Host.Outcome.next ((if_neg (Nat.not_le.2 hl)).trans ((if_neg (by simp [hk.active, ha])).trans (if_pos ((hk.inUse _).trans hu))))
    exact ⟨_, hexec, State.laneFaultUsed_down _ (hnone.imp_right fun h => ⟨hk.spare.trans h.1, hk.sub.trans h.2⟩)⟩
  · intro s port lane cause hl ha hu hsp
    have hk := s.faultMarks_stands port cause lane.isLt
    have hexec : exec (.laneFault port lane cause) s = .next ((s.faultMarks port lane.val cause).spareLost port lane.val) :=
      congrArg Host.Outcome.next ((if_neg (Nat.not_le.2 hl)).trans ((if_neg (by simp [hk.active, ha])).trans
        ((if_neg (by simp [hk.inUse, hu])).trans (if_pos (hk.spare.trans hsp)))))
    exact ⟨_, hexec, State.spareLost_spec _ _ lane.isLt⟩
  · intro s port ha hu
    obtain ⟨hp, hdown, -⟩ := s.leaveActive_spec port (ps := 1) (by decide)
    exact ⟨_, congrArg Host.Outcome.next (if_pos (by simp [ha, hu])), hp, hdown⟩
  · intro s who port v hacc hgo hu hsp hsub hr
    rw [← ringLanes_page] at hacc ⊢
    refine completes_write rfl hacc ?_
    have hwrite : (s.touch who false).lnSpareWrite port.lanes v = (s.touch who false).requestSub port (LN_SPARE_CMD_LANE.get v) 0 := by
      unfold State.lnSpareWrite
      rw [ringOf_lanes]
      exact if_pos hgo
    have hspec := State.requestSub_spec (s := s.touch who false) 0 (Nat.lt_trans (Fld.get_lt LN_SPARE_CMD_LANE v) (by decide))
      ((State.rxInUse_touch ..).trans hu) (by rw [State.port_touch]; exact hsp) (by rw [State.port_touch]; exact hsub)
      ((State.ridgeOnly_touch ..).trans hr)
    rw [← hwrite, ← ringLanes_page] at hspec
    exact hspec
  · intro s port lane ha hen hth hw hu hsp hsub hr
    have hexec : exec (.laneErrThreshold port.lanes lane) s = .next (s.requestSub port lane.val 2) := by
      refine congrArg Host.Outcome.next ((State.onRing_eq ha hr _).trans (if_pos ?_))
      simp [ringLanes_page, hen, hu, State.laneWorn, hth, hw]
    obtain ⟨hs, -, ho⟩ := State.requestSub_spec 2 (by omega) hu hsp hsub hr
    exact ⟨_, hexec, hs, ho⟩
  · intro s port l sp k ha hr ho hsub hsp hk hl hsp5
    have hexec : exec (.spareCompareDone port.lanes) s =
        .next ((s.rxSwitch port.lanes l sp).laneCtrl port 0x03 l (s.port port.lanes).cause (s.port port.lanes).subSeq) := by
      refine congrArg Host.Outcome.next ((State.onRing_eq ha hr _).trans ((if_pos ((congrArg (s.fg · _) (ringLanes_page port)).trans ho)).trans ?_))
      unfold State.rxConfirm
      rw [hsub, hsp]
    obtain ⟨hm, hret, hop, hs, hspare, hdone, hspared⟩ := State.rxSwitch_spec hk hl hsp5
    refine ⟨_, hexec, ?_⟩
    obtain ⟨hls, hlsp, -, -⟩ := (s.rxSwitch port.lanes l sp).laneCtrl_sub port 0x03 l (s.port port.lanes).cause (s.port port.lanes).subSeq
    have hregs := (s.rxSwitch port.lanes l sp).laneCtrl_regs port 0x03 l (s.port port.lanes).cause (s.port port.lanes).subSeq
    rw [ringLanes_page] at hret hop hdone hspared
    exact ⟨(congrArg (mapLane · k) (State.fg_of_regs hregs ..)).trans hm, (congrArg (nbit · l) (State.fg_of_regs hregs ..)).trans hret,
      (State.fg_of_regs hregs ..).trans hop, hls.trans hs, hlsp.trans hspare, (State.event_of_regs hregs ..).trans hdone,
      (State.fg_of_regs hregs ..).trans hspared⟩
  · intro s port body sp ha hr hsp hsub hin
    have hexec : exec (.laneCtrlRequestReceived port.lanes body) s = .next (s.setPort port.lanes { s.port port.lanes with
        txSub := some (leAt body 1 1), tscode := (s.port port.lanes).tscode.put sp 5 0 }) := by
      refine congrArg Host.Outcome.next ?_
      unfold State.ctrlRequest
      rw [ringOf_lanes]
      dsimp only
      rw [if_neg (by simp [hr]), hsp, hsub]
      exact if_neg (by simp [ha, Option.isSome_iff_ne_none.1 hin])
    refine ⟨_, hexec, congrArg Port.txSub (State.port_setPort ..), ?_, rfl⟩
    exact (congrArg (fun x : Port => x.tscode.getD sp 0) (State.port_setPort ..)).trans
      (Map.getD_put_same (s.port port.lanes).tscode sp 5 0)
  · intro s port body sp k ha hr hsp hk hl hsp5
    have hexec : exec (.laneCtrlUrgentReceived port.lanes body) s = .next
        ((s.txSwitch port.lanes (leAt body 1 1) sp).setPort port.lanes { (s.txSwitch port.lanes (leAt body 1 1) sp).port port.lanes with
          tscode := ((s.txSwitch port.lanes (leAt body 1 1) sp).port port.lanes).tscode.put sp 6 0 }) := by
      refine congrArg Host.Outcome.next ((State.onRing_eq ha hr _).trans ?_)
      dsimp only
      rw [hsp]
      exact if_neg (by simp [hk])
    obtain ⟨hm, hret, -, hdone⟩ := State.txSwitch_spec hk hl hsp5
    refine ⟨_, hexec, ?_⟩
    generalize s.txSwitch port.lanes (leAt body 1 1) sp = u at hm hret hdone ⊢
    rw [ringLanes_page] at hret hdone
    refine ⟨hm, hret, ?_, hdone⟩
    exact (congrArg (fun x : Port => x.tscode.getD sp 0) (State.port_setPort ..)).trans
      (Map.getD_put_same (u.port port.lanes).tscode sp 6 0)
  · intro s port body sp k ha hr hsp hsub hk hl hsp5
    have hexec : exec (.laneCtrlConfirmReceived port.lanes body) s = .next (s.txSwitch port.lanes (leAt body 1 1) sp) := by
      refine congrArg Host.Outcome.next ((State.onRing_eq ha hr _).trans ?_)
      rw [hsub, hsp]
      exact if_pos rfl
    obtain ⟨hm, hret, hs, hdone⟩ := State.txSwitch_spec hk hl hsp5
    rw [ringLanes_page] at hret hdone
    exact ⟨_, hexec, hm, hret, hs, hdone⟩
  · intro s port body l sp ha hr hsp hsub hsp5
    let u : State := (s.fs port.lanes.page LN_SPARE_STATUS_TX_RETIRED (setBit (s.fg port.lanes.page LN_SPARE_STATUS_TX_RETIRED) sp true)).setPort
      port.lanes { s.port port.lanes with txSub := none, txSpare := none, tscode := (s.port port.lanes).tscode.erase sp }
    have hexec : exec (.laneCtrlCancelReceived port.lanes body) s = .next (u.setSpareOk port.lanes) := by
      refine congrArg Host.Outcome.next ((State.onRing_eq ha hr _).trans ?_)
      dsimp only
      rw [hsub, hsp]
    have hport : u.port port.lanes = { s.port port.lanes with txSub := none, txSpare := none, tscode := (s.port port.lanes).tscode.erase sp } :=
      State.port_setPort ..
    refine ⟨_, hexec, congrArg Port.txSub hport, congrArg Port.txSpare hport, ?_, ?_⟩
    · refine (congrArg (nbit · sp) ?_).trans (nbit_setBit (s.fg port.lanes.page LN_SPARE_STATUS_TX_RETIRED) (w := 5) hsp5)
      rw [← ringLanes_page]
      exact (State.fg_fs_apart _ _ _ (by decide)).trans ((State.fg_fs_apart _ _ _ (by decide)).trans (State.fg_fs _ _ _ _ (by decide)))
    · rw [← ringLanes_page]
      refine (State.fg_fs _ _ _ _ (by decide)).trans ?_
      rw [show (u.port port.lanes).txSpare = none from congrArg Port.txSpare hport]
      rfl
  · intro s port body ha hr hs hu
    have hexec : exec (.laneCtrlRefuseReceived port.lanes body) s = .next (s.endSub port.lanes 4) := by
      refine congrArg Host.Outcome.next ((State.onRing_eq ha hr _).trans ?_)
      dsimp only
      rw [if_neg (by simp [Option.isSome_iff_ne_none.1 hs]), if_neg (by simp [hu])]
    have hend := s.endSub_spec port.lanes (op := 4) (by decide)
    rw [ringLanes_page] at hend
    exact ⟨_, hexec, hend⟩
  · intro s port l ha hr hs hu ho
    refine ⟨_, spareRequestTimeout_spec ha hr hs hu ho, fun h3 => ?_, fun h3 => ?_⟩
    · rw [if_neg (by omega)]
      have hsent := State.laneCtrl_sent (s := s.setPort port.lanes { s.port port.lanes with tries := (s.port port.lanes).tries + 1 }) port
        (op := 0x01) (lane := l) (cause := (s.port port.lanes).cause) (seq := (s.port port.lanes).subSeq) hr
      rw [State.port_setPort] at hsent
      exact ⟨(congrArg Port.tries hsent).trans rfl, (State.laneCtrl_regs ..).trans rfl,
        (congrArg (fun x : Port => x.ll.length) hsent).trans List.length_append⟩
    · rw [if_pos h3]
      obtain ⟨hsub, hop, -⟩ := s.endSub_spec port.lanes (op := 5) (by decide)
      rw [ringLanes_page] at hop
      exact ⟨hop, hsub⟩

end Sys2Proof.Machine
end

section
set_option Elab.async false
namespace Sys2Proof.Machine

/-! ### What the check of a read leaves (R193, R194) -/

/-- The queues, the copies in progress and the bank read are those of `b`. -/
structure SameCopies (b s : State) : Prop where
  ques : s.core.ques = b.core.ques
  eg : s.core.eg = b.core.eg
  bank : s.core.readBank = b.core.readBank

theorem SameCopies.of_core {b s : State} (h : s.core = b.core) : SameCopies b s := ⟨by rw [h], by rw [h], by rw [h]⟩

theorem SameCopies.trans {a b s : State} (h : SameCopies a b) (h' : SameCopies b s) : SameCopies a s :=
  ⟨h'.ques.trans h.ques, h'.eg.trans h.eg, h'.bank.trans h.bank⟩

theorem State.corrected_copies (s : State) (k : Nat) : SameCopies s (s.corrected k) := by
  unfold State.corrected
  dsimp only
  refine SameCopies.trans (b := State.inc _ 0x010 (CORE_BANK_CNT_CE.at (4 * k))) ?_ (.of_core (State.raise_core ..))
  exact ⟨rfl, rfl, rfl⟩

theorem State.uncorrected_core (s : State) (w c : Nat) : (s.uncorrected w c).core = s.core := (State.raise_core ..).trans rfl

/-- A read that finds no double-bit error of a data row leaves the copies and the queues. -/
theorem State.eccRead_copies (s : State) {e : Ecc} (h c : Nat) (he : e ≠ .ue) : SameCopies s (s.eccRead e h c) := by
  cases e with
  | ok => exact .of_core rfl
  | ue => exact absurd rfl he
  | ce => exact s.corrected_copies _
  | linkCe => exact s.corrected_copies _
  | recCe => exact s.corrected_copies _
  | entCe => exact s.corrected_copies _
  | linkUe => exact .of_core (s.uncorrected_core ..)
  | recUe => exact .of_core (s.uncorrected_core ..)
  | entUe => exact .of_core (s.uncorrected_core ..)

theorem State.freeChain_inbox (n c : Nat) (s : State) :
    (State.freeChain n c s).core.inbox = s.core.inbox ∧ (State.freeChain n c s).regs = s.regs := by
  induction n generalizing c s with
  | zero => exact ⟨rfl, rfl⟩
  | succ n ih => exact ih (s.link c).next (s.freeCell c)

theorem State.endCopy_inbox (s : State) (e : QEnt) : (s.endCopy e).core.inbox = s.core.inbox ∧ (s.endCopy e).regs = s.regs := by
  have hunref : ∀ u : State, (u.unref e.cell).core.inbox = u.core.inbox ∧ (u.unref e.cell).regs = u.regs := fun u => by
    unfold State.unref
    dsimp only
    split
    · obtain ⟨hi, hr⟩ := State.freeChain_inbox (u.frec e.cell).written e.cell { u with core := { u.core with ing := u.core.ing.map fun (x : Nat × Ing) =>
        (x.1, if x.2.busy && x.2.stored && decide (x.2.head = e.cell) then { x.2 with stored := false } else x.2) } }
      exact ⟨hi, hr⟩
    · exact ⟨rfl, rfl⟩
  have hfreed : ∀ (u : State) p c n, (u.freed p c n).core = u.core ∧ (u.freed p c n).regs = u.regs := fun u p c n => by
    unfold State.freed
    split <;> exact ⟨rfl, rfl⟩
  unfold State.endCopy
  dsimp only
  split
  · exact ⟨(hunref _).1.trans (by rw [(hfreed ..).1]), (hunref _).2.trans (hfreed ..).2⟩
  · exact hunref s

/-- The copies that end bad are counted per port; the other registers of the core stay. -/
theorem State.badCopies_rd (s : State) (head : Nat) {o : Nat} (ho : o % 32 ≠ 28) : (s.badCopies head).rd 0x010 o = s.rd 0x010 o := by
  have hend : ∀ (u : State) (e : QEnt), (u.endCopy e).rd 0x010 o = u.rd 0x010 o := fun u e =>
    State.rd_of_regs (State.endCopy_inbox ..).2 ..
  have hcnt : ∀ (u : State) (p : Nat), (u.pcnt p CORE_PCNT_DROP_BAD).rd 0x010 o = u.rd 0x010 o := fun u p => by
    refine State.rd_fs_off _ _ _ ?_
    simp only [regKey, whole, CORE_PCNT_DROP_BAD]
    omega
  unfold State.badCopies
  refine List.foldlRecOn (motive := fun t : State => t.rd 0x010 o = s.rd 0x010 o) _ _ rfl fun t ht e _ => ?_
  dsimp only
  split
  · exact ht
  · exact List.foldlRecOn (motive := fun u : State => u.rd 0x010 o = s.rd 0x010 o) _ _ ht fun u hu x _ => (hend ..).trans ((hcnt ..).trans hu)

/-- A double-bit error of a data row counts and is held, with ECC_UE. -/
theorem State.eccRead_ue (s : State) (h c : Nat) :
    (s.eccRead .ue h c).fg 0x010 CORE_CNT_UE_COUNT = min (s.fg 0x010 CORE_CNT_UE_COUNT + 1) (2 ^ 32 - 1) ∧
    (s.eccRead .ue h c).fg 0x010 CORE_ECC_LAST_WHERE = 1 ∧ (s.eccRead .ue h c).event 0x010 EV_CORE_ECC_UE = true := by
  have hcnt : (s.uncorrected 1 c).fg 0x010 CORE_CNT_UE_COUNT = min (s.fg 0x010 CORE_CNT_UE_COUNT + 1) (2 ^ 32 - 1) :=
    (State.fg_raise_off _ _ (by decide)).trans ((State.fg_wr_off _ _ _ (by decide)).trans (State.fg_inc _ _ (by decide)))
  have hwhere : (s.uncorrected 1 c).fg 0x010 CORE_ECC_LAST_WHERE = 1 :=
    (State.fg_raise_off _ _ (by decide)).trans ((State.fg_wr_get (o := CORE_ECC_LAST) (f := CORE_ECC_LAST_WHERE) _ _ _ rfl).trans
      (Fld.get_set _ _ _ (by decide)))
  have hev : (s.uncorrected 1 c).event 0x010 EV_CORE_ECC_UE = true := State.event_raise _ _ (hb := by decide)
  unfold State.eccRead
  dsimp only
  split
  · exact ⟨hcnt, hwhere, hev⟩
  · generalize s.uncorrected 1 c = u at hcnt hwhere hev ⊢
    have hrd := fun o (ho : o % 32 ≠ 28) => (u.setRec h { u.frec h with verdict := .bad }).badCopies_rd h ho
    refine ⟨?_, ?_, ?_⟩
    · simp only [State.fg, hrd CORE_CNT_UE_COUNT.off (by decide)]
      exact hcnt
    · simp only [State.fg, hrd CORE_ECC_LAST_WHERE.off (by decide)]
      exact hwhere
    · simp only [State.event, hrd EVT_STATUS (by decide)]
      exact hev

/-! ### A cell read -/

/-- A copy with the bytes of its next cell. -/
def State.egNext (s : State) (g : Eg) : Eg :=
  { g with k := g.k + 1, next := (s.link g.next).next, done := (s.link g.next).last, bytes := g.bytes ++ cellBytes (s.cell g.next) (s.link g.next).len }

/-- The next written cell of a copy in progress is read, before its check. -/
theorem State.readCell_steps {s : State} {p : Nat} {g : Eg} {e : QEnt} {es : List QEnt} (ecc : Ecc) (hq : (s.que g.q).ents = e :: es)
    (hd : g.done = false) (hb : g.bad = false) (hk : g.k < (s.frec e.cell).written) (hbar : s.readBarred (g.next / 1024 % 16) = false) :
    ∃ u : State, s.readCell p g ecc = u.eccRead ecc e.cell g.next ∧ u.eg p = some (s.egNext g) ∧
      u.core.readBank = some (g.next / 1024 % 16) ∧ u.core.ques = s.core.ques ∧
      (p < 30 → u.fg 0x010 CORE_CNT_UE_COUNT = s.fg 0x010 CORE_CNT_UE_COUNT) := by
  let s1 : State := s.setEg p (some (s.egNext g))
  let s2 : State := ({ s1 with core := { s1.core with readBank := some (g.next / 1024 % 16) } } : State).pcnt p CORE_PCNT_CELLS_OUT
  have hcount : p < 30 → s2.fg 0x010 CORE_CNT_UE_COUNT = s.fg 0x010 CORE_CNT_UE_COUNT := fun hp => by
    refine State.fg_fs_apart _ _ _ (.inl ?_)
    simp only [regKey, whole, CORE_PCNT_CELLS_OUT, CORE_CNT_UE_COUNT]
    omega
  have heg : s2.eg p = some (s.egNext g) := State.eg_setEg s p (some (s.egNext g))
  unfold State.readCell
  rw [hq]
  dsimp only
  rw [if_neg (by simp [hd, hb, hbar, hk])]
  refine ⟨_, rfl, ?_⟩
  have hcr : ∀ u : State, u.core = s2.core → u.regs = s2.regs → u.eg p = some (s.egNext g) ∧ u.core.readBank = some (g.next / 1024 % 16) ∧
      u.core.ques = s.core.ques ∧ (p < 30 → u.fg 0x010 CORE_CNT_UE_COUNT = s.fg 0x010 CORE_CNT_UE_COUNT) := fun u hc hr =>
    ⟨(congrArg (fun c : CoreSt => c.eg.getD p none) hc).trans heg, by rw [hc]; rfl, by rw [hc]; rfl, fun hp => (State.fg_of_regs hr ..).trans (hcount hp)⟩
  split
  · split
    · exact hcr _ rfl rfl
    · exact hcr _ rfl rfl
  · exact hcr _ rfl rfl

/-- What a read without a double-bit error of the data row leaves. -/
theorem State.readCell_spec {s : State} {p : Nat} {g : Eg} {e : QEnt} {es : List QEnt} {ecc : Ecc} (he : ecc ≠ .ue) (hq : (s.que g.q).ents = e :: es)
    (hd : g.done = false) (hb : g.bad = false) (hk : g.k < (s.frec e.cell).written) (hbar : s.readBarred (g.next / 1024 % 16) = false) :
    (s.readCell p g ecc).eg p = some (s.egNext g) ∧ (s.readCell p g ecc).core.readBank = some (g.next / 1024 % 16) ∧
    (s.readCell p g ecc).core.ques = s.core.ques := by
  obtain ⟨u, heq, heg, hbank, hques, -⟩ := State.readCell_steps (p := p) ecc hq hd hb hk hbar
  have hc := u.eccRead_copies e.cell g.next he
  rw [heq]
  exact ⟨(congrArg (Map.getD · p none) hc.eg).trans heg, hc.bank.trans hbank, hc.ques.trans hques⟩

/-- A read that takes nothing leaves the state. -/
theorem State.readCell_waits {s : State} {p : Nat} {g : Eg} {ecc : Ecc} (hq : (s.que g.q).ents ≠ [])
    (hw : g.done = true ∨ g.bad = true ∨ (∀ e ∈ (s.que g.q).ents.head?, (s.frec e.cell).written ≤ g.k) ∨ s.readBarred (g.next / 1024 % 16) = true) :
    s.readCell p g ecc = s := by
  unfold State.readCell
  cases h : (s.que g.q).ents with
  | nil => exact absurd h hq
  | cons e es =>
    rw [h] at hw
    exact if_pos (by simpa using hw)

/-- A read of a copy in progress keeps its queue, and the queues. -/
theorem State.readCell_queue {s : State} {p : Nat} {g : Eg} {ecc : Ecc} (he : ecc ≠ .ue) (hg : s.eg p = some g) (hq : (s.que g.q).ents ≠ []) :
    ((s.readCell p g ecc).eg p).map (·.q) = some g.q ∧ (s.readCell p g ecc).core.ques = s.core.ques := by
  by_cases hw : g.done = true ∨ g.bad = true ∨ (∀ e ∈ (s.que g.q).ents.head?, (s.frec e.cell).written ≤ g.k) ∨ s.readBarred (g.next / 1024 % 16) = true
  · rw [State.readCell_waits hq hw, hg]
    exact ⟨rfl, rfl⟩
  · obtain ⟨e, es, hes⟩ := List.exists_cons_of_ne_nil hq
    rw [hes] at hw
    simp only [List.head?_cons, Option.mem_def, Option.some.injEq, forall_eq', not_or, Bool.not_eq_true, Nat.not_le] at hw
    obtain ⟨hd, hb, hk, hbar⟩ := hw
    obtain ⟨heg, -, hques⟩ := State.readCell_spec (p := p) he hes hd hb hk hbar
    rw [heg]
    exact ⟨rfl, hques⟩

/-! ### A copy ends -/

/-- The copy in progress leaves its queue and its port; the registers and the frames handed over stay. -/
theorem State.popCopy_spec {s : State} {p : Nat} {g : Eg} {e : QEnt} {es : List QEnt} (hq : (s.que g.q).ents = e :: es) :
    (s.popCopy p g).eg p = none ∧ ((s.popCopy p g).que g.q).ents = es ∧ (∀ q f, (s.popCopy p g).fg q f = s.fg q f) ∧
    (s.popCopy p g).core.inbox = s.core.inbox := by
  unfold State.popCopy
  rw [hq]
  dsimp only
  have hk := ((s.setQue g.q { s.que g.q with ents := es }).setEg p none).endCopy_queues e
  refine ⟨(congrArg (Map.getD · p none) hk.eg).trans (State.eg_setEg ..), ?_, fun q f => ?_, (State.endCopy_inbox ..).1.trans rfl⟩
  · rw [hk.que]
    exact congrArg Que.ents (Map.getD_put_same ..)
  · exact State.fg_of_regs ((State.endCopy_inbox ..).2.trans rfl) ..

/-- A copy sent or taken whole is counted, and a local port's block has its frame. -/
theorem State.finishCopy_spec {s : State} {p : Nat} {g : Eg} {e : QEnt} {es : List QEnt} (hp : p < 30) (hq : (s.que g.q).ents = e :: es) :
    (s.finishCopy p g).eg p = none ∧ ((s.finishCopy p g).que g.q).ents = es ∧
    (s.finishCopy p g).fg 0x010 (whole (CORE_PCNT_FRAMES_OUT + 0x20 * p)) =
      min (s.fg 0x010 (whole (CORE_PCNT_FRAMES_OUT + 0x20 * p)) + 1) (2 ^ 32 - 1) ∧
    (3 ≤ p → (s.finishCopy p g).inbox p = s.inbox p ++ [Frame.ofBytes g.bytes]) := by
  obtain ⟨heg, hque, hfg, hinbox⟩ := State.popCopy_spec (p := p) hq
  unfold State.finishCopy
  dsimp only
  generalize s.popCopy p g = u at heg hque hfg hinbox ⊢
  have hcnt : (u.pcnt p CORE_PCNT_FRAMES_OUT).fg 0x010 (whole (CORE_PCNT_FRAMES_OUT + 0x20 * p)) =
      min (s.fg 0x010 (whole (CORE_PCNT_FRAMES_OUT + 0x20 * p)) + 1) (2 ^ 32 - 1) := by
    rw [← hfg]
    exact State.fg_inc _ _ (by simp [whole])
  by_cases h3 : p < 3
  · rw [if_pos h3]
    refine ⟨?_, ?_, ?_, fun h => absurd h3 (by omega)⟩
    · split <;> exact heg
    · split <;> exact hque
    · split
      · exact (State.fg_fs_page _ _ _ _ (by cases (if p = 2 then LanePort.twin else ringLane p) <;> decide)).trans hcnt
      · exact hcnt
  · rw [if_neg h3]
    refine ⟨heg, hque, hcnt, fun _ => ?_⟩
    refine (Map.getD_put_same _ _ _ _).trans ?_
    exact congrArg (· ++ _) (congrArg (Map.getD · p []) hinbox)

/-- Settles O34: a copy is read cell by cell along its chain, and ends whole and good or where a bad verdict stops it. -/
theorem egressReadsCellsAndEndsCopies : Obligations.EgressReadsCellsAndEndsCopies := by
  unfold Obligations.EgressReadsCellsAndEndsCopies
  have hread : ∀ {s : State} {p : CorePort} {g : Eg} {ecc : Ecc}, s.eg p.val = some g →
      exec (.coreCellRead p ecc) s = .next (s.readCell p.val g ecc) := fun hg => by
    refine congrArg Host.Outcome.next ?_
    rw [hg]
  refine ⟨?_, ?_, ?_, ?_, ?_, ?_⟩
  · intro s p g e es ecc he hg hq hd hb hk hbar
    exact ⟨_, hread hg, State.readCell_spec he hq hd hb hk hbar⟩
  · intro s p q ecc he hg h3 hadm hguard hdown hfrozen hfirst
    obtain ⟨e, hel⟩ : ∃ e, s.eligibleHead q = some e :=
      Option.isSome_iff_exists.1 (List.find?_some (p := fun q => (s.eligibleHead q).isSome) hfirst)
    obtain ⟨es, hes⟩ := State.ents_of_eligible hel
    have hexec : exec (.coreCellRead p ecc) s =
        .next ((s.startCopy p.val q s.now).readCell p.val { q := q, next := e.cell, start := s.now } ecc) := by
      refine congrArg Host.Outcome.next ?_
      rw [hg]
      dsimp only
      rw [if_neg (by simp [hadm, hdown, hfrozen, hguard]; omega), hfirst]
      dsimp only
      rw [State.startCopy_spec hes, State.eg_setEg]
    refine ⟨_, hexec, ?_⟩
    rw [State.startCopy_spec hes]
    exact State.readCell_queue he (State.eg_setEg ..) (by
      rw [show ((s.setEg p.val (some { q := q, next := e.cell, start := s.now })).que q).ents = e :: es from hes]
      simp)
  · intro s p g e es hg hq hd hb hk hbar
    obtain ⟨u, heq, -, -, -, hcnt⟩ := State.readCell_steps (p := p.val) .ue hq hd hb hk hbar
    refine ⟨_, hread hg, ?_⟩
    rw [heq, ← hcnt p.isLt]
    exact u.eccRead_ue e.cell g.next
  · intro s p g ecc hg hq hbar
    exact ⟨_, hread hg, State.readCell_waits hq (.inr (.inr (.inr hbar)))⟩
  · intro s p g e es hg hq hd hb hv
    have hexec : exec (.copyEnd p) s = .next (s.finishCopy p.val g) := by
      refine congrArg Host.Outcome.next ?_
      rw [hg]
      exact (if_neg (by simp [hb])).trans (if_pos (by simp [hd, hq, hv]))
    exact ⟨_, hexec, State.finishCopy_spec p.isLt hq⟩
  · intro s p g e es hg hq hb
    obtain ⟨heg, hque, hfg, -⟩ := State.popCopy_spec (p := p.val) hq
    have hexec : exec (.copyEnd p) s = .next (if p.val < 2 then (s.popCopy p.val g).inc (ringLane p.val).page RP_TRUNC_COUNT
        else s.popCopy p.val g) := by
      refine congrArg Host.Outcome.next ?_
      rw [hg]
      exact if_pos hb
    refine ⟨_, hexec, ?_⟩
    by_cases h2 : p.val < 2
    · rw [if_pos h2]
      refine ⟨heg, hque, fun _ => ?_⟩
      have hpage : (ringLane p.val).page = 0x008 + p.val := by
        have : p.val = 0 ∨ p.val = 1 := by omega
        rcases this with h | h <;> rw [h] <;> rfl
      rw [← hfg, hpage]
      exact State.fg_inc _ _ (by decide)
    · rw [if_neg h2]
      exact ⟨heg, hque, fun h => absurd h h2⟩

end Sys2Proof.Machine
end

section
set_option Elab.async false
namespace Sys2Proof.Machine

/-! ### The gate of a bank (R453-R455, R457) -/

theorem State.fb_touch_page (s : State) (who : Initiator) (r : Bool) {p : Nat} (f : Fld) (h : p ≠ 0x01C) : (s.touch who r).fb p f = s.fb p f := by
  simp only [State.fb, State.fg_touch_page s who r f h]

theorem State.spGate_touch (s : State) (who : Initiator) (r : Bool) (code b : Nat) (w : Bool) : (s.touch who r).spGate code b w = s.spGate code b w := by
  have hp : (0x280 : Nat) ≠ 0x01C := by decide
  have htest : (s.touch who r).spTesting b = s.spTesting b := by
    unfold State.spTesting State.spBank
    rw [State.touch_mem]
  have hbank : (s.touch who r).spBank b = s.spBank b := by
    unfold State.spBank
    rw [State.touch_mem]
  have hpower : (s.touch who r).spPower b = s.spPower b := State.fg_touch_page s who r _ hp
  have howner : (s.touch who r).spOwner b = s.spOwner b := State.fg_touch_page s who r _ hp
  unfold State.spGate
  rw [htest, hbank, hpower, howner, State.ready_touch, State.fb_touch_page s who r _ hp]

/-- An aligned access asks the gate of its word's bank. -/
theorem State.spGates_one (s : State) (code : Nat) (w : Bool) {a : Nat} (h : a % 4 = 0) : s.spGates code (spWords a) w = s.spGate code (a / 65536) w := by
  unfold State.spGates spWords
  rw [if_pos h]
  simp [Nat.div_div_eq_div_mul]

/-- An unaligned access that both of its words' banks serve is served. -/
theorem State.spGates_two (s : State) (code : Nat) (w : Bool) {a : Nat} (h : a % 4 ≠ 0) (h1 : s.spGate code (a / 65536) w = .serve)
    (h2 : s.spGate code ((a + 4) / 65536) w = .serve) : s.spGates code (spWords a) w = .serve := by
  have hw : (a / 4 + 1) / 16384 = (a + 4) / 65536 := by omega
  unfold State.spGates spWords
  rw [if_neg h]
  simp [Nat.div_div_eq_div_mul, h1, hw, h2]

/-- The accesses of aligned words within the memory. -/
theorem State.spAccess_aligned (s : State) (code : Nat) (write : Bool) (data : Word) (be : BitVec 4) {a : Nat} (h : a % 4 = 0) (hw : a / 4 < 131072) :
    s.spAccess code a write data be = match s.spGate code (a / 65536) write with
      | .hold => (s, none)
      | .foreign => (s.spForeign, some (rspUnmapped, 0))
      | .answer r => (s, some (r, 0))
      | .serve => ((s.spWordAccess (a / 4) write data be).1, some (s.spWordAccess (a / 4) write data be).2) := by
  unfold State.spAccess
  rw [if_neg (by simp [spWords, h]; omega), State.spGates_one s code write h]
  simp only [h, if_true] <;> rfl

theorem State.spAccess_beyond (s : State) (code : Nat) (write : Bool) (data : Word) (be : BitVec 4) {a : Nat} (hw : 131072 ≤ a / 4) :
    s.spAccess code a write data be = (s, some (rspUnmapped, 0)) := by
  unfold State.spAccess
  exact if_pos (by unfold spWords; split <;> simp [hw])

/-! ### Words -/

theorem State.spPut_same (s : State) (w : Nat) (d : Word) (be : BitVec 4) :
    (s.spPut w d be).spWord w = (s.spWord w &&& ~~~ beMask be) ||| (d &&& beMask be) := Map.getD_put_same _ _ _ _

theorem State.spPut_other (s : State) {w v : Nat} (d : Word) (be : BitVec 4) (h : v ≠ w) : (s.spPut w d be).spWord v = s.spWord v :=
  Map.getD_put_other _ _ _ _ h

theorem State.spNote_clean {s : State} {w : Nat} (hu : s.mem.spUe.contains w = false) (hc : s.mem.spCe.contains w = false) : s.spNote w = s := by
  unfold State.spNote
  dsimp only
  rw [if_neg (by rw [hu]; decide), if_neg (by rw [hc]; decide)]

/-- An access of a word without an error. -/
theorem State.spWordAccess_clean {s : State} {w : Nat} (write : Bool) (d : Word) (be : BitVec 4) (hu : s.mem.spUe.contains w = false)
    (hc : s.mem.spCe.contains w = false) :
    s.spWordAccess w write d be = if write then (s.spPut w d be, rspOk, 0) else (s, rspOk, s.spWord w) := by
  have hbad : s.spBad w = false := hu
  unfold State.spWordAccess
  simp only [State.spNote_clean hu hc, hbad, Bool.false_eq_true, if_false]
  cases write
  · rfl
  · simp only [Bool.true_and, if_true]
    split <;> rfl

/-- An unaligned access of two words without an error. -/
theorem State.spUnaligned_clean {s : State} {a : Nat} (write : Bool) (d : Word) (be : BitVec 4) (hu : s.mem.spUe.contains (a / 4) = false)
    (hc : s.mem.spCe.contains (a / 4) = false) (hu' : s.mem.spUe.contains (a / 4 + 1) = false) (hc' : s.mem.spCe.contains (a / 4 + 1) = false) :
    s.spUnaligned a write d be =
      if write then ((s.spPut (a / 4) (d <<< (8 * (a % 4))) (be <<< (a % 4))).spPut (a / 4 + 1) (d >>> (8 * (4 - a % 4))) (be >>> (4 - a % 4)), rspOk, 0)
      else (s, rspOk, (s.spWord (a / 4) >>> (8 * (a % 4))) ||| (s.spWord (a / 4 + 1) <<< (8 * (4 - a % 4)))) := by
  have hbad : (s.spBad (a / 4) || s.spBad (a / 4 + 1)) = false := by simp only [State.spBad, hu, hu', Bool.or_self]
  unfold State.spUnaligned
  simp only [State.spNote_clean hu hc, State.spNote_clean hu' hc', hbad, Bool.false_eq_true, if_false]

/-! ### An access at this hub (R362, R452) -/

/-- The command acts on the state in which the access has ended the initiator's packed group. -/
theorem scratchpadAccess_eq (s : State) (who : Initiator) (a : Nat) (write : Bool) (d : Word) (be : BitVec 4) :
    exec (.scratchpadAccess who a write d be) s = .next (if s.ready 0x020 then (s.touch who (!write)).spLocal who a write d be
      else (s.touch who (!write)).answer who rspNotReady 0) := by
  refine congrArg Host.Outcome.next ?_
  dsimp only
  rw [show (s.touch who !write).ready 0x020 = s.ready 0x020 from State.fb_touch_page _ _ _ _ (by decide)]

/-- An access that is answered. -/
theorem State.spLocal_answer {s t : State} {who : Initiator} {a : Nat} {write : Bool} {d : Word} {be : BitVec 4} {r : Nat} {x : Word}
    (h : s.spAccess (ownerCode who) a write d be = (t, some (r, x))) : s.spLocal who a write d be = t.answer who r x := by
  unfold State.spLocal
  rw [h]

theorem State.spLocal_hold {s : State} {who : Initiator} {a : Nat} {write : Bool} {d : Word} {be : BitVec 4}
    (h : s.spAccess (ownerCode who) a write d be = (s, none)) :
    s.spLocal who a write d be = { s with mem := { s.mem with held := s.mem.held ++ [{ who := who, addr := a, write := write, data := d, be := be }] } } := by
  unfold State.spLocal
  rw [h]

theorem State.answer_spWord (s : State) (who : Initiator) (r : Nat) (d : Word) (w : Nat) : (s.answer who r d).spWord w = s.spWord w := rfl

theorem State.touch_spWord (s : State) (who : Initiator) (r : Bool) (w : Nat) : (s.touch who r).spWord w = s.spWord w := by
  simp only [State.spWord, State.touch_mem]

/-- An aligned access that its bank serves without an error. -/
theorem scratchpad_served {s : State} {who : Initiator} {a : Nat} (write : Bool) (d : Word) (be : BitVec 4) (hready : s.ready 0x020 = true)
    (ha : a % 4 = 0) (hw : a / 4 < 131072) (hgate : s.spGate (ownerCode who) (a / 65536) write = .serve)
    (hu : s.mem.spUe.contains (a / 4) = false) (hc : s.mem.spCe.contains (a / 4) = false) :
    exec (.scratchpadAccess who a write d be) s = .next (if write then ((s.touch who (!write)).spPut (a / 4) d be).answer who rspOk 0
      else (s.touch who (!write)).answer who rspOk (s.spWord (a / 4))) := by
  rw [scratchpadAccess_eq, if_pos hready]
  refine congrArg Host.Outcome.next ?_
  have hacc := (s.touch who (!write)).spAccess_aligned (ownerCode who) write d be ha hw
  rw [State.spGate_touch, hgate] at hacc
  dsimp only at hacc
  rw [State.spWordAccess_clean write d be (by rw [State.touch_mem]; exact hu) (by rw [State.touch_mem]; exact hc), State.touch_spWord] at hacc
  cases write
  · exact State.spLocal_answer hacc
  · exact State.spLocal_answer hacc

/-- An unaligned access that its banks serve without an error. -/
theorem scratchpad_unaligned {s : State} {who : Initiator} {a : Nat} (write : Bool) (d : Word) (be : BitVec 4) (hready : s.ready 0x020 = true)
    (ha : a % 4 ≠ 0) (hw : a / 4 + 1 < 131072) (h1 : s.spGate (ownerCode who) (a / 65536) write = .serve)
    (h2 : s.spGate (ownerCode who) ((a + 4) / 65536) write = .serve)
    (hu : s.mem.spUe.contains (a / 4) = false) (hc : s.mem.spCe.contains (a / 4) = false) (hu' : s.mem.spUe.contains (a / 4 + 1) = false)
    (hc' : s.mem.spCe.contains (a / 4 + 1) = false) :
    exec (.scratchpadAccess who a write d be) s = .next (if write then
        (((s.touch who (!write)).spPut (a / 4) (d <<< (8 * (a % 4))) (be <<< (a % 4))).spPut (a / 4 + 1) (d >>> (8 * (4 - a % 4))) (be >>> (4 - a % 4))).answer who rspOk 0
      else (s.touch who (!write)).answer who rspOk ((s.spWord (a / 4) >>> (8 * (a % 4))) ||| (s.spWord (a / 4 + 1) <<< (8 * (4 - a % 4))))) := by
  rw [scratchpadAccess_eq, if_pos hready]
  refine congrArg Host.Outcome.next ?_
  have hacc : (s.touch who (!write)).spAccess (ownerCode who) a write d be = (((s.touch who (!write)).spUnaligned a write d be).1,
      some ((s.touch who (!write)).spUnaligned a write d be).2) := by
    unfold State.spAccess
    rw [if_neg (by simp [spWords, ha]; omega), State.spGates_two _ _ _ ha ((State.spGate_touch ..).trans h1) ((State.spGate_touch ..).trans h2)]
    simp only [ha, if_false]
  rw [State.spUnaligned_clean write d be (by rw [State.touch_mem]; exact hu) (by rw [State.touch_mem]; exact hc) (by rw [State.touch_mem]; exact hu')
    (by rw [State.touch_mem]; exact hc'), State.touch_spWord, State.touch_spWord] at hacc
  cases write
  · exact State.spLocal_answer hacc
  · exact State.spLocal_answer hacc

/-! ### Bank commands (R454, R455) -/

/-- A bank's registers are apart from those of the page's first 0x80 bytes. -/
theorem bankF_apart {f : Fld} {b o : Nat} (hf : f.off = MEM_BANK_STAT) (hb : b < 8) (ho : o < 0x80) : regKey 0 o ≠ regKey 0 (bankF f b).off := by
  simp only [regKey, bankF, Fld.at, hf, MEM_BANK_STAT]
  omega

theorem bankCommand_exec {who : Initiator} {v : Word} {c : Instr} (hc : c = .bankHandover who v ∨ c = .bankPowerOn who v ∨
    c = .bankPowerRetention who v ∨ c = .bankPowerOff who v) (s : State) : exec c s = .next (s.write who 0x280 MEM_BANK_CMD fun t => t.bankCmd v) := by
  rcases hc with rfl | rfl | rfl | rfl <;> rfl

/-- The status that a bank command shows at its start. -/
def State.bankStart (s : State) (b : Nat) : State := (s.fs 0x280 MEM_BANK_CMD_STATUS_BANK b).fs 0x280 MEM_BANK_CMD_STATUS_RESULT 0

/-- The branches of a bank command with GO. -/
theorem State.bankCmd_go {s : State} {v : Word} (hgo : MEM_BANK_CMD_GO.get v = 1) :
    s.bankCmd v = if s.spBusy (MEM_BANK_CMD_BANK.get v) then (s.bankStart (MEM_BANK_CMD_BANK.get v)).bankRefuse 2
      else if s.spMarched (MEM_BANK_CMD_BANK.get v) then (s.bankStart (MEM_BANK_CMD_BANK.get v)).bankRefuse 3
      else if MEM_BANK_CMD_OP.get v = 0 ∨ 4 < MEM_BANK_CMD_OP.get v ∨ (MEM_BANK_CMD_OP.get v = 1 ∧ 8 ≤ MEM_BANK_CMD_ARG.get v) then
        (s.bankStart (MEM_BANK_CMD_BANK.get v)).bankRefuse 4
      else if 2 ≤ MEM_BANK_CMD_OP.get v ∧ s.spPower (MEM_BANK_CMD_BANK.get v) = opPower (MEM_BANK_CMD_OP.get v) then
        (s.bankStart (MEM_BANK_CMD_BANK.get v)).bankDone
      else (if MEM_BANK_CMD_OP.get v = 1 then
          ((s.bankStart (MEM_BANK_CMD_BANK.get v)).fs 0x280 MEM_BANK_CMD_STATUS_BUSY 1).fs 0x280 (bankF MEM_BANK_STAT_DRAINING (MEM_BANK_CMD_BANK.get v)) 1
        else (((s.bankStart (MEM_BANK_CMD_BANK.get v)).fs 0x280 MEM_BANK_CMD_STATUS_BUSY 1).fs 0x280
          (bankF MEM_BANK_STAT_DRAINING (MEM_BANK_CMD_BANK.get v)) 1).fs 0x280 (bankF MEM_BANK_STAT_POWER (MEM_BANK_CMD_BANK.get v)) 3).setSpBank
        (MEM_BANK_CMD_BANK.get v) { s.spBank (MEM_BANK_CMD_BANK.get v) with drain := some (MEM_BANK_CMD_OP.get v, MEM_BANK_CMD_ARG.get v) } := by
  unfold State.bankCmd
  exact if_neg (by omega)

/-- A refusal shows its RESULT and CMD_REFUSED, and leaves the memory. -/
theorem State.bankRefuse_spec (s : State) {r : Nat} (hr : r < 8) :
    (s.bankRefuse r).fg 0x280 MEM_BANK_CMD_STATUS_RESULT = r ∧ (s.bankRefuse r).event 0x280 EV_MEM_CMD_REFUSED = true ∧ (s.bankRefuse r).mem = s.mem :=
  ⟨(State.fg_raise_off _ _ (by decide)).trans ((State.fg_fs _ _ _ _ (by decide)).trans (Nat.mod_eq_of_lt hr)), State.event_raise _ _ (hb := by decide),
    (State.raise_mem ..).trans rfl⟩

/-- A command that is done shows it, with HANDOVER_DONE, and leaves the memory and the banks' registers. -/
theorem State.bankDone_spec (s : State) :
    s.bankDone.fg 0x280 MEM_BANK_CMD_STATUS_RESULT = 1 ∧ s.bankDone.event 0x280 EV_MEM_HANDOVER_DONE = true ∧ s.bankDone.mem = s.mem ∧
    ∀ f : Fld, regKey 0 f.off ≠ regKey 0 EVT_STATUS → regKey 0 f.off ≠ regKey 0 MEM_BANK_CMD_STATUS → s.bankDone.fg 0x280 f = s.fg 0x280 f :=
  ⟨(State.fg_raise_off _ _ (by decide)).trans ((State.fg_fs_apart _ _ _ (by decide)).trans ((State.fg_fs _ _ _ _ (by decide)).trans rfl)),
    State.event_raise _ _ (hb := by decide), (State.raise_mem ..).trans rfl,
    fun _ he hs => (State.fg_raise_off _ _ he).trans ((State.fg_fs_apart _ _ _ (.inl hs)).trans (State.fg_fs_apart _ _ _ (.inl hs)))⟩

theorem State.spBank_setSpBank (s : State) (b : Nat) (x : SpBank) : (s.setSpBank b x).spBank b = x := Map.getD_put_same _ _ _ _

/-- What a command finds of the banks as it did before the access. -/
theorem State.banks_touch (s : State) (who : Initiator) (r : Bool) (b : Nat) :
    (s.touch who r).spBusy b = s.spBusy b ∧ (s.touch who r).spMarched b = s.spMarched b ∧ (s.touch who r).spPower b = s.spPower b := by
  refine ⟨?_, ?_, State.fg_touch_page s who r _ (by decide)⟩
  · unfold State.spBusy State.spBank
    rw [State.touch_mem]
  · unfold State.spMarched
    rw [State.touch_mem]

/-- The command of an idle bank outside a run that does not stand as asked starts its draining. -/
theorem State.bankCmd_drains {s : State} {v : Word} (hgo : MEM_BANK_CMD_GO.get v = 1) (hm : s.spMarched (MEM_BANK_CMD_BANK.get v) = false)
    (hop : (MEM_BANK_CMD_OP.get v = 1 ∧ MEM_BANK_CMD_ARG.get v < 8) ∨ (2 ≤ MEM_BANK_CMD_OP.get v ∧ MEM_BANK_CMD_OP.get v ≤ 4 ∧
      s.spPower (MEM_BANK_CMD_BANK.get v) ≠ MEM_BANK_CMD_OP.get v - 2)) (hb : s.spBusy (MEM_BANK_CMD_BANK.get v) = false) :
    ((s.bankCmd v).spBank (MEM_BANK_CMD_BANK.get v)).drain = some (MEM_BANK_CMD_OP.get v, MEM_BANK_CMD_ARG.get v) ∧
    (s.bankCmd v).fg 0x280 MEM_BANK_CMD_STATUS_BUSY = 1 ∧ (s.bankCmd v).fg 0x280 (bankF MEM_BANK_STAT_DRAINING (MEM_BANK_CMD_BANK.get v)) = 1 := by
  have hlt : MEM_BANK_CMD_BANK.get v < 8 := Fld.get_lt MEM_BANK_CMD_BANK v
  rw [State.bankCmd_go hgo, if_neg (by simp [hb]), if_neg (by simp [hm]), if_neg (by omega), if_neg (by unfold opPower; omega)]
  generalize MEM_BANK_CMD_BANK.get v = b at hlt ⊢
  rw [State.spBank_setSpBank, State.fg_setSpBank, State.fg_setSpBank]
  refine ⟨rfl, ?_, ?_⟩
  · have hd := bankF_apart (f := MEM_BANK_STAT_DRAINING) (o := MEM_BANK_CMD_STATUS) rfl hlt (by decide)
    have hp := bankF_apart (f := MEM_BANK_STAT_POWER) (o := MEM_BANK_CMD_STATUS) rfl hlt (by decide)
    have hbusy : (((s.bankStart b).fs 0x280 MEM_BANK_CMD_STATUS_BUSY 1).fs 0x280 (bankF MEM_BANK_STAT_DRAINING b) 1).fg 0x280 MEM_BANK_CMD_STATUS_BUSY = 1 := by
      rw [State.fg_fs_apart _ _ _ (.inl hd), State.fg_fs _ _ _ _ (by decide)]
      rfl
    split
    · exact hbusy
    · rw [State.fg_fs_apart _ _ _ (.inl hp)]
      exact hbusy
  · have hdrain : (((s.bankStart b).fs 0x280 MEM_BANK_CMD_STATUS_BUSY 1).fs 0x280 (bankF MEM_BANK_STAT_DRAINING b) 1).fg 0x280
        (bankF MEM_BANK_STAT_DRAINING b) = 1 := by
      rw [State.fg_fs _ _ _ _ (by simp [bankF, Fld.at, MEM_BANK_STAT_DRAINING])]
      rfl
    split
    · exact hdrain
    · rw [State.fg_fs_apart _ _ _ (.inr (by simp [bankF, Fld.at, MEM_BANK_STAT_DRAINING, MEM_BANK_STAT_POWER]))]
      exact hdrain

/-! ### The end of a bank command -/

theorem State.fs_spBank (s : State) (p : Nat) (f : Fld) (v b : Nat) : (s.fs p f v).spBank b = s.spBank b := rfl

/-- A draining bank that has finished. -/
theorem State.bankDrained_spec {s : State} {b op arg : Nat} (hd : (s.spBank b).drain = some (op, arg)) (hb : b < 8) (ha : arg < 8)
    (h1 : 1 ≤ op) (h4 : op ≤ 4) (hh : s.mem.held = []) :
    let t := s.bankDrained b
    t.mem.held = [] ∧ (t.spBank b).drain = none ∧ (op = 1 → t.spOwner b = arg ∧ t.mem.sp = s.mem.sp) ∧
    (op = 2 → (s.spBank b).off = true → (t.spBank b).filling = true ∧ t.mem.sp = s.mem.sp) ∧
    (op = 2 → (s.spBank b).off = false → t.spPower b = 0 ∧ t.mem.sp = s.mem.sp) ∧ (op = 3 → t.spPower b = 1 ∧ t.mem.sp = s.mem.sp) ∧
    (op = 4 → t.spPower b = 2 ∧ (t.spBank b).off = true) ∧
    (¬(op = 2 ∧ (s.spBank b).off = true) → t.fg 0x280 MEM_BANK_CMD_STATUS_RESULT = 1 ∧ t.event 0x280 EV_MEM_HANDOVER_DONE = true) := by
  have hkeep : ∀ {f : Fld}, f.off = MEM_BANK_STAT → ∀ u : State, u.bankDone.fg 0x280 (bankF f b) = u.fg 0x280 (bankF f b) := fun hf u =>
    u.bankDone_spec.2.2.2 _ (bankF_apart hf hb (by decide)).symm (bankF_apart hf hb (by decide)).symm
  have hbank : ∀ u : State, u.bankDone.spBank b = u.spBank b := fun u => by
    unfold State.spBank
    rw [u.bankDone_spec.2.2.1]
  have hmem : ∀ u : State, u.bankDone.mem = u.mem := fun u => u.bankDone_spec.2.2.1
  have hdone : ∀ u : State, u.bankDone.fg 0x280 MEM_BANK_CMD_STATUS_RESULT = 1 ∧ u.bankDone.event 0x280 EV_MEM_HANDOVER_DONE = true :=
    fun u => ⟨u.bankDone_spec.1, u.bankDone_spec.2.1⟩
  dsimp only
  unfold State.bankDrained
  rw [hd]
  dsimp only
  have hx : (((s.setSpBank b { s.spBank b with drain := none }).fs 0x280 (bankF MEM_BANK_STAT_DRAINING b) 0).spBank b).drain = none := by
    rw [State.fs_spBank, State.spBank_setSpBank]
  have hsp : ((s.setSpBank b { s.spBank b with drain := none }).fs 0x280 (bankF MEM_BANK_STAT_DRAINING b) 0).mem.sp = s.mem.sp := by
    rw [State.fs_mem]
    rfl
  have hheld : ((s.setSpBank b { s.spBank b with drain := none }).fs 0x280 (bankF MEM_BANK_STAT_DRAINING b) 0).mem.held = [] := by
    rw [State.fs_mem]
    exact hh
  generalize (s.setSpBank b { s.spBank b with drain := none }).fs 0x280 (bankF MEM_BANK_STAT_DRAINING b) 0 = s1 at hx hsp hheld ⊢
  by_cases hop1 : op = 1
  · rw [if_pos hop1]
    have howner : (s1.fs 0x280 (bankF MEM_BANK_STAT_OWNER b) arg).fg 0x280 (bankF MEM_BANK_STAT_OWNER b) = arg := by
      rw [State.fg_fs _ _ _ _ (by simp [bankF, Fld.at, MEM_BANK_STAT_OWNER])]
      exact Nat.mod_eq_of_lt (Nat.lt_of_lt_of_le ha (by simp [bankF, Fld.at, MEM_BANK_STAT_OWNER]))
    rw [hmem, hbank, State.fs_mem, State.fs_spBank]
    exact ⟨hheld, hx, fun _ => ⟨by unfold State.spOwner; rw [hkeep rfl, howner], hsp⟩, fun h => absurd h (by omega), fun h => absurd h (by omega),
      fun h => absurd h (by omega), fun h => absurd h (by omega), fun _ => hdone _⟩
  · rw [if_neg hop1]
    by_cases hfill : op = 2 ∧ (s.spBank b).off = true
    · rw [if_pos hfill, State.spBank_setSpBank]
      exact ⟨hheld, rfl, fun h => absurd h hop1, fun _ _ => ⟨rfl, hsp⟩, fun _ h => absurd (hfill.2.symm.trans h) (by decide),
        fun h => absurd h (by omega), fun h => absurd h (by omega), fun h => absurd hfill h⟩
    · rw [if_neg hfill]
      have hpower : (s1.fs 0x280 (bankF MEM_BANK_STAT_POWER b) (opPower op)).fg 0x280 (bankF MEM_BANK_STAT_POWER b) = op - 2 := by
        rw [State.fg_fs _ _ _ _ (by simp [bankF, Fld.at, MEM_BANK_STAT_POWER])]
        refine Nat.mod_eq_of_lt ?_
        simp only [bankF, Fld.at, MEM_BANK_STAT_POWER, opPower]
        omega
      have hsp2 : (s1.fs 0x280 (bankF MEM_BANK_STAT_POWER b) (opPower op)).mem.sp = s.mem.sp := by rw [State.fs_mem]; exact hsp
      have hheld2 : (s1.fs 0x280 (bankF MEM_BANK_STAT_POWER b) (opPower op)).mem.held = [] := by rw [State.fs_mem]; exact hheld
      generalize s1.fs 0x280 (bankF MEM_BANK_STAT_POWER b) (opPower op) = s2 at hpower hsp2 hheld2 ⊢
      have hshown : ∀ (u : State) y, u.regs = s2.regs → (u.setSpBank b y).bankDone.spPower b = op - 2 := fun u y hu => by
        unfold State.spPower
        rw [hkeep rfl, State.fg_setSpBank, State.fg_of_regs hu]
        exact hpower
      by_cases hop4 : op = 4
      · rw [if_pos hop4, hmem, hbank, State.spBank_setSpBank]
        exact ⟨hheld2, rfl, fun h => absurd h hop1, fun h => absurd h (by omega), fun h => absurd h (by omega), fun h => absurd h (by omega),
          fun h => ⟨(hshown (s2.spZero b) _ rfl).trans (by rw [h]), rfl⟩, fun _ => hdone _⟩
      · rw [if_neg hop4, hmem, hbank, State.spBank_setSpBank]
        exact ⟨hheld2, rfl, fun h => absurd h hop1, fun h ho => absurd ⟨h, ho⟩ hfill, fun h _ => ⟨(hshown s2 _ rfl).trans (by rw [h]), hsp2⟩,
          fun h => ⟨(hshown s2 _ rfl).trans (by rw [h]), hsp2⟩, fun h => absurd h hop4, fun _ => hdone _⟩

theorem bankDrainDone_eq {s : State} {bank : Fin 8} (h : (s.spBank bank.val).drain ≠ none) :
    exec (.bankDrainDone bank) s = .next ((s.bankDrained bank.val).mem.held.foldl State.spAgain
      { s.bankDrained bank.val with mem := { (s.bankDrained bank.val).mem with held := [] } }) :=
  congrArg Host.Outcome.next (if_neg (by simpa using h))

/-- A key that was dropped reads as an unlisted one, any other as before. -/
theorem Map.getD_drop {V : Type} (f : Nat → Bool) (m : Map V) (k : Nat) (d : V) : (Map.drop f m).getD k d = if f k then d else m.getD k d := by
  unfold Map.drop
  induction m with
  | nil => simp [Map.getD]
  | cons e m ih =>
    obtain ⟨k', v⟩ := e
    by_cases hk : k = k'
    · subst hk
      cases hf : f k with
      | true => simpa [hf] using ih
      | false => simp [hf, Map.getD]
    · cases hf : f k' with
      | true => simpa [hf, Map.getD, hk] using ih
      | false => simpa [hf, Map.getD, hk] using ih

/-- A bank filled with zeros is ON. -/
theorem State.bankFilled_spec (s : State) {b : Nat} (hb : b < 8) (x : SpBank) :
    let t := ((((s.spZero b).setSpBank b { x with filling := false, off := false }).fs 0x280 (bankF MEM_BANK_STAT_POWER b) 0)).bankDone
    t.spPower b = 0 ∧ (t.spBank b).filling = false ∧ t.event 0x280 EV_MEM_HANDOVER_DONE = true ∧
    ∀ w, t.spWord w = if w / 16384 = b then 0 else s.spWord w := by
  dsimp only
  let u : State := ((s.spZero b).setSpBank b { x with filling := false, off := false }).fs 0x280 (bankF MEM_BANK_STAT_POWER b) 0
  obtain ⟨-, hdone, hmem, hkeep⟩ := u.bankDone_spec
  have hpower : u.fg 0x280 (bankF MEM_BANK_STAT_POWER b) = 0 := by
    rw [State.fg_fs _ _ _ _ (by simp [bankF, Fld.at, MEM_BANK_STAT_POWER])]
    rfl
  refine ⟨(hkeep _ (bankF_apart rfl hb (by decide)).symm (bankF_apart rfl hb (by decide)).symm).trans hpower, ?_, hdone, fun w => ?_⟩
  · refine (congrArg (fun m : MemSt => (m.banks.getD b {}).filling) hmem).trans ?_
    exact congrArg SpBank.filling ((s.spZero b).spBank_setSpBank b { x with filling := false, off := false })
  · refine (congrArg (fun m : MemSt => m.sp.getD w 0) hmem).trans ?_
    refine (Map.getD_drop (fun v => decide (v / 16384 = b)) s.mem.sp w 0).trans ?_
    simp only [decide_eq_true_eq]
    rfl

/-! ### What a march run keeps while rows are repaired (R460-R465) -/

/-- The run, its memories and its status are those of `b`; the events from MARCH_DONE on stay raised. -/
structure MarchSoft (b s : State) : Prop where
  march : s.mem.march = b.mem.march
  sp : s.mem.sp = b.mem.sp
  powerOn : s.mem.powerOn = b.mem.powerOn
  cells : s.mem.cellsUnready = b.mem.cellsUnready
  canopy : s.mem.canopyUnready = b.mem.canopyUnready
  repairs : s.mem.repairs = b.mem.repairs
  status : s.rd 0x280 MEM_MARCH_STATUS = b.rd 0x280 MEM_MARCH_STATUS
  ev : ∀ n, EV_MEM_MARCH_DONE ≤ n → n < 32 → b.event 0x280 n = true → s.event 0x280 n = true

namespace MarchSoft

variable {b s t : State}

theorem refl (s : State) : MarchSoft s s := ⟨rfl, rfl, rfl, rfl, rfl, rfl, rfl, fun _ _ _ h => h⟩

theorem trans (h : MarchSoft b s) (h' : MarchSoft s t) : MarchSoft b t :=
  ⟨h'.march.trans h.march, h'.sp.trans h.sp, h'.powerOn.trans h.powerOn, h'.cells.trans h.cells, h'.canopy.trans h.canopy,
    h'.repairs.trans h.repairs, h'.status.trans h.status, fun n hn h32 he => h'.ev n hn h32 (h.ev n hn h32 he)⟩

theorem ite {c : Prop} [Decidable c] (hs : MarchSoft b s) (ht : MarchSoft b t) : MarchSoft b (if c then s else t) := by
  split <;> assumption

theorem foldl {α : Type} (f : State → α → State) (hf : ∀ t a, MarchSoft t (f t a)) : ∀ (l : List α) {s : State}, MarchSoft b s →
    MarchSoft b (l.foldl f s)
  | [], _, h => h
  | _ :: l, _, h => foldl f hf l (h.trans (hf _ _))

/-- What leaves the memory and the page's registers. -/
theorem of_rd (hm : s.mem = b.mem) (hr : ∀ o, s.rd 0x280 o = b.rd 0x280 o) : MarchSoft b s :=
  ⟨by rw [hm], by rw [hm], by rw [hm], by rw [hm], by rw [hm], by rw [hm], hr _, fun n _ _ h => by
    unfold State.event at h ⊢
    rwa [hr]⟩

/-- A field apart from the run's status; in EVT_STATUS one below the events named. -/
theorem fs (s : State) {f : Fld} (v : Nat) (hs : regKey 0 MEM_MARCH_STATUS ≠ regKey 0 f.off)
    (he : regKey 0 EVT_STATUS ≠ regKey 0 f.off ∨ f.lo + f.w ≤ EV_MEM_MARCH_DONE) : MarchSoft s (s.fs 0x280 f v) := by
  refine ⟨rfl, rfl, rfl, rfl, rfl, rfl, State.rd_fs_off _ _ _ hs, fun n hn h32 h => ?_⟩
  by_cases hk : regKey 0x280 EVT_STATUS = regKey 0x280 f.off
  · have hlo := he.resolve_left fun hne => regKey_ne_of_off hne _ _ hk
    unfold State.event at h ⊢
    have hrd : s.rd 0x280 f.off = s.rd 0x280 EVT_STATUS := by
      unfold State.rd
      rw [hk]
    rw [State.fs, State.rd_wr, if_pos hk, Fld.getLsbD_set _ _ _ _ h32, if_neg (by omega), hrd]
    exact h
  · rw [State.event, State.fs, State.rd_wr, if_neg hk]
    exact h

theorem fsPage (s : State) {p : Nat} (f : Fld) (v : Nat) (hp : 0x280 ≠ p) : MarchSoft s (s.fs p f v) :=
  of_rd rfl fun _ => State.rd_fs_page _ _ _ _ hp

theorem raise (s : State) (p n : Nat) : MarchSoft s (s.raise p n) := by
  have hm := State.raise_mem s p n
  refine ⟨by rw [hm], by rw [hm], by rw [hm], by rw [hm], by rw [hm], by rw [hm], ?_, fun _ _ _ h => State.event_raise_keeps _ _ _ h⟩
  rw [State.rd_raise, if_neg (by unfold regKey MEM_MARCH_STATUS EVT_STATUS; omega)]

/-- A field of a scratchpad bank's status, whatever the bank. -/
theorem bank (s : State) {f : Fld} (b v : Nat) (hf : f.off = MEM_BANK_STAT) (hw : f.lo + f.w ≤ EV_MEM_MARCH_DONE) :
    MarchSoft s (s.fs 0x280 (bankF f b) v) := by
  refine fs s v ?_ (.inr hw)
  simp only [regKey, bankF, Fld.at, hf, MEM_BANK_STAT, MEM_MARCH_STATUS]
  omega

theorem setSpBank (s : State) (b : Nat) (x : SpBank) : MarchSoft s (s.setSpBank b x) :=
  ⟨rfl, rfl, rfl, rfl, rfl, rfl, rfl, fun _ _ _ h => h⟩

end MarchSoft

theorem State.mwr_soft (bs : List Byte) : ∀ (s : State) (a : Nat), (s.mwr a bs).mem = s.mem ∧ (s.mwr a bs).regs = s.regs := by
  induction bs with
  | nil => exact fun _ _ => ⟨rfl, rfl⟩
  | cons b bs ih => exact fun s a => ih { s with mram := Map.put s.mram a b 0 } (a + 1)

theorem State.store_soft (s : State) (a : Nat) (bs : List Byte) : MarchSoft s (s.store a bs) := by
  unfold State.store
  exact .ite (.refl s) (.of_rd (State.mwr_soft ..).1 fun o => State.rd_of_regs (State.mwr_soft ..).2 ..)

theorem State.showTable_soft (s : State) : MarchSoft s s.showTable := by
  have htbl : ∀ (u : State) (f : Fld) (v : Nat), f.off = MEM_TBL → MarchSoft u (u.fs 0x280 f v) := fun u f v hf =>
    .fs u v (by rw [hf]; decide) (.inl (by rw [hf]; decide))
  unfold State.showTable
  split
  · exact (htbl _ _ _ rfl).trans (htbl _ _ _ rfl)
  · exact (htbl _ _ _ rfl).trans (htbl _ _ _ rfl)

theorem State.recordRepair_soft (s : State) (r : Repair) : MarchSoft s (s.recordRepair r) := by
  have hw : MarchSoft s (s.wearSpared r.cause) := .ite (.fsPage s _ _ (by decide)) (.refl s)
  unfold State.recordRepair
  dsimp only
  split
  · exact hw.trans (((MarchSoft.raise ..).trans (State.store_soft ..)).trans (State.showTable_soft _))
  · exact .ite hw (hw.trans ((State.store_soft ..).trans (State.showTable_soft _)))

theorem State.showSpares_soft (s : State) (b : Nat) : MarchSoft s (s.showSpares b) := .bank s b _ rfl (by decide)

theorem State.spared_soft (s : State) : MarchSoft s (s.setState 0x280 PAGE_STATE_SPARED true) := by
  unfold State.setState
  exact .ite (.refl s) ((MarchSoft.fs s _ (by decide) (.inl (by decide))).trans (.raise ..))

theorem State.rowRepair_soft (s : State) (b row cause : Nat) : MarchSoft s (s.rowRepair b row cause) := by
  unfold State.rowRepair
  dsimp only
  refine .ite (.raise ..) (MarchSoft.trans ?_ (.raise ..))
  refine MarchSoft.trans ?_ (State.recordRepair_soft ..)
  refine MarchSoft.trans (MarchSoft.trans ?_ (State.showSpares_soft ..)) (State.spared_soft _)
  exact MarchSoft.trans (s := s.tookFree) (.of_rd rfl fun _ => rfl) (.setSpBank ..)

theorem State.requestSpare_soft (s : State) (b cause : Nat) : MarchSoft s (s.requestSpare b cause) := by
  unfold State.requestSpare
  refine .ite ?_ ?_
  · exact ((MarchSoft.fsPage (p := 0x010) s _ _ (by decide)).trans (.fsPage (p := 0x010) _ _ _ (by decide))).trans (.raise ..)
  · exact .of_rd rfl fun _ => (State.rd_fs_page _ 0x010 _ _ (by decide)).trans
      ((State.rd_fs_page _ 0x010 _ _ (by decide)).trans (State.rd_fs_page _ 0x010 _ _ (by decide)))

theorem State.marchSpares_soft (s : State) (bs : List Nat) : MarchSoft s (s.marchSpares bs) := by
  unfold State.marchSpares
  refine .ite (.refl s) ?_
  split
  · exact .ite (.refl s) (State.requestSpare_soft ..)
  · exact .refl s

theorem State.showTesting_soft (s : State) (bs : List Nat) (v : Nat) : MarchSoft s (s.showTesting bs v) :=
  .foldl _ (fun t b => .bank t b v rfl (by decide)) _ (.refl s)

/-! ### Failing rows -/

/-- What a failing row adds before its repair: the first is recorded, and it is counted with MARCH_FAIL. -/
def State.marchCount (s : State) (memory bank row : Nat) : State :=
  ((if s.fg 0x280 MEM_MARCH_STATUS_FAILS = 0 then
      s.wr 0x280 MEM_MARCH_FAIL (BitVec.ofNat 32 (memory <<< 30 ||| bank % 32 <<< 25 ||| row % 16384)) else s).inc 0x280 MEM_MARCH_STATUS_FAILS).raise
    0x280 EV_MEM_MARCH_FAIL

theorem State.marchFail_soft (s : State) (memory bank row : Nat) : MarchSoft (s.marchCount memory bank row) (s.marchFail memory bank row) := by
  unfold State.marchFail
  dsimp only
  rw [show ((if s.fg 0x280 MEM_MARCH_STATUS_FAILS = 0 then
      s.wr 0x280 MEM_MARCH_FAIL (BitVec.ofNat 32 (memory <<< 30 ||| bank % 32 <<< 25 ||| row % 16384)) else s).inc 0x280 MEM_MARCH_STATUS_FAILS).raise
    0x280 EV_MEM_MARCH_FAIL = s.marchCount memory bank row from rfl]
  generalize s.marchCount memory bank row = u
  exact .ite (.refl u) (.ite (State.rowRepair_soft ..) (.ite (.refl u) ((MarchSoft.setSpBank ..).trans (State.showSpares_soft ..))))

theorem State.marchCount_spec (s : State) (memory bank row : Nat) :
    (s.marchCount memory bank row).fg 0x280 MEM_MARCH_STATUS_FAILS =
      min (s.fg 0x280 MEM_MARCH_STATUS_FAILS + 1) (2 ^ MEM_MARCH_STATUS_FAILS.w - 1) ∧
    (s.marchCount memory bank row).event 0x280 EV_MEM_MARCH_FAIL = true ∧ (s.marchCount memory bank row).mem = s.mem := by
  have hfirst : ∀ v : Word, (s.wr 0x280 MEM_MARCH_FAIL v).fg 0x280 MEM_MARCH_STATUS_FAILS = s.fg 0x280 MEM_MARCH_STATUS_FAILS :=
    fun v => State.fg_wr_off _ _ _ (by decide)
  unfold State.marchCount
  refine ⟨?_, State.event_raise _ _ (hb := by decide), ?_⟩
  · rw [State.fg_raise_off _ _ (by decide), State.fg_inc _ _ (by decide)]
    split
    · rw [hfirst]
    · rfl
  · rw [State.raise_mem]
    split <;> rfl

/-- A failing row counts, with MARCH_FAIL, and leaves the run. -/
theorem State.marchFail_spec (s : State) (memory bank row : Nat) :
    (s.marchFail memory bank row).fg 0x280 MEM_MARCH_STATUS_FAILS =
      min (s.fg 0x280 MEM_MARCH_STATUS_FAILS + 1) (2 ^ MEM_MARCH_STATUS_FAILS.w - 1) ∧
    (s.marchFail memory bank row).event 0x280 EV_MEM_MARCH_FAIL = true ∧ (s.marchFail memory bank row).mem.march = s.mem.march ∧
    (s.marchFail memory bank row).mem.sp = s.mem.sp ∧ (s.marchFail memory bank row).mem.powerOn = s.mem.powerOn := by
  obtain ⟨hcnt, hev, hmem⟩ := s.marchCount_spec memory bank row
  have h := s.marchFail_soft memory bank row
  exact ⟨(congrArg MEM_MARCH_STATUS_FAILS.get h.status).trans hcnt, h.ev _ (by decide) (by decide) hev, h.march.trans (by rw [hmem]),
    h.sp.trans (by rw [hmem]), h.powerOn.trans (by rw [hmem])⟩

theorem State.marchFails_powerOn (memory : Nat) : ∀ (l : List (Nat × Nat)) (s : State),
    (l.foldl (fun t e => t.marchFail memory e.1 e.2) s).mem.powerOn = s.mem.powerOn
  | [], _ => rfl
  | e :: l, s => (State.marchFails_powerOn memory l (s.marchFail memory e.1 e.2)).trans (s.marchFail_spec memory e.1 e.2).2.2.2.2

/-! ### The end of a run -/

/-- A run that is over, its banks no longer in test, with its STATE and MARCH_DONE, and the replacements that it asks for. -/
def State.marchOver (s : State) (m : March) (n : Nat) : State :=
  (((({ s with mem := { s.mem with march := none } } : State).showTesting m.banks 0).marchState n).raise 0x280 EV_MEM_MARCH_DONE).marchSpares m.cellBanks

theorem State.marchState_fg (s : State) {n : Nat} (hn : n < 8) : (s.marchState n).fg 0x280 MEM_MARCH_STATUS_STATE = n :=
  (State.fg_fs _ _ _ _ (by decide)).trans (Nat.mod_eq_of_lt hn)

theorem State.marchOver_spec (s : State) (m : March) {n : Nat} (hn : n < 8) :
    (s.marchOver m n).mem.march = none ∧ (s.marchOver m n).fg 0x280 MEM_MARCH_STATUS_STATE = n ∧
    (s.marchOver m n).event 0x280 EV_MEM_MARCH_DONE = true ∧ (s.marchOver m n).mem.sp = s.mem.sp ∧
    (s.event 0x280 EV_MEM_MARCH_FAIL = true → (s.marchOver m n).event 0x280 EV_MEM_MARCH_FAIL = true) := by
  let s0 : State := { s with mem := { s.mem with march := none } }
  have htest := s0.showTesting_soft m.banks 0
  have hend := ((MarchSoft.raise ((s0.showTesting m.banks 0).marchState n) 0x280 EV_MEM_MARCH_DONE).trans (State.marchSpares_soft _ m.cellBanks))
  refine ⟨hend.march.trans htest.march, ?_, ?_, hend.sp.trans htest.sp, fun h => hend.ev _ (by decide) (by decide) ?_⟩
  · exact (congrArg MEM_MARCH_STATUS_STATE.get hend.status).trans (State.marchState_fg _ hn)
  · exact (State.marchSpares_soft _ m.cellBanks).ev _ (by decide) (by decide) (State.event_raise _ _ (hb := by decide))
  · rw [State.marchState, State.event_fs_off _ _ _ _ (by decide)]
    exact htest.ev _ (by decide) (by decide) h

theorem State.marchEnd_eq (s : State) (m : March) (failed : Bool) : s.marchEnd m failed = s.marchOver m (if failed then 3 else 2) := rfl

theorem State.marchStopped_preserving (s : State) {m : March} (h : m.destruct = false) : s.marchStopped m = s.marchOver m 5 := if_pos (by simp [h])

/-- A destructive run stopped leaves its memory not ready. -/
theorem State.marchStopped_spec (s : State) {m : March} (h : m.destruct = true) :
    (s.marchStopped m).mem.march = none ∧ (s.marchStopped m).fg 0x280 MEM_MARCH_STATUS_STATE = 5 ∧
    (s.marchStopped m).event 0x280 EV_MEM_MARCH_DONE = true ∧ (m.target = 2 → (s.marchStopped m).mem.cellsUnready = true) ∧
    (m.target = 3 → (s.marchStopped m).mem.canopyUnready = true) := by
  obtain ⟨hmarch, hstate, hdone, -, -⟩ := s.marchOver_spec m (n := 5) (by decide)
  have heq : s.marchStopped m = if m.target < 2 then m.banks.foldl (fun t b => t.setSpBank b { t.spBank b with notReady := true }) (s.marchOver m 5)
      else if m.target = 2 then { s.marchOver m 5 with mem := { (s.marchOver m 5).mem with cellsUnready := true } }
      else { s.marchOver m 5 with mem := { (s.marchOver m 5).mem with canopyUnready := true } } := if_neg (by simp [h])
  rw [heq]
  generalize s.marchOver m 5 = u at hmarch hstate hdone ⊢
  by_cases h2 : m.target < 2
  · rw [if_pos h2]
    have hk := MarchSoft.foldl (fun t b => t.setSpBank b { t.spBank b with notReady := true }) (fun t b => .setSpBank t b _) m.banks (.refl u)
    exact ⟨hk.march.trans hmarch, (congrArg MEM_MARCH_STATUS_STATE.get hk.status).trans hstate, hk.ev _ (by decide) (by decide) hdone,
      fun h => absurd h2 (by omega), fun h => absurd h2 (by omega)⟩
  · rw [if_neg h2]
    by_cases h3 : m.target = 2
    · rw [if_pos h3]
      exact ⟨hmarch, hstate, hdone, fun _ => rfl, fun h => absurd h3 (by omega)⟩
    · rw [if_neg h3]
      exact ⟨hmarch, hstate, hdone, fun h => absurd h h3, fun _ => rfl⟩

/-- A memory at 0 leaves the registers and the runs that wait. -/
theorem State.memZero_keeps (s : State) (k : Nat) (bs : List Nat) : (s.memZero k bs).regs = s.regs ∧ (s.memZero k bs).mem.powerOn = s.mem.powerOn := by
  unfold State.memZero
  split
  · exact List.foldlRecOn (motive := fun t : State => t.regs = s.regs ∧ t.mem.powerOn = s.mem.powerOn) _ _ ⟨rfl, rfl⟩ fun _ h _ _ => h
  · split <;> exact ⟨rfl, rfl⟩

/-- The end of a run of the power-on reset. -/
theorem State.powerOnEnd_spec (s : State) (k : Nat) (failing : List (Nat × Nat)) :
    (s.powerOnEnd k failing).mem.powerOn.contains k = false ∧
    (s.powerOnEnd k failing).fg 0x280 MEM_MARCH_STATUS_STATE = (if failing = [] ∧ s.fg 0x280 MEM_MARCH_STATUS_STATE ≠ 3 then 2 else 3) ∧
    (s.powerOnEnd k failing).event 0x280 EV_MEM_MARCH_DONE = true := by
  let s1 : State := ({ s with mem := { s.mem with powerOn := s.mem.powerOn.filter (· != k) } } : State).memZero k (List.range 8)
  let s2 : State := failing.foldl (fun t e => t.marchFail k e.1 e.2) s1
  let n : Nat := if failing = [] ∧ s2.fg 0x280 MEM_MARCH_STATUS_STATE ≠ 3 then 2 else 3
  obtain ⟨hregs, hon⟩ := ({ s with mem := { s.mem with powerOn := s.mem.powerOn.filter (· != k) } } : State).memZero_keeps k (List.range 8)
  have hend := (MarchSoft.raise (s2.marchState n) 0x280 EV_MEM_MARCH_DONE).trans (State.marchSpares_soft _ (if k = 1 then failing.map (·.1) else []))
  have hpower : s2.mem.powerOn = s.mem.powerOn.filter (· != k) := (State.marchFails_powerOn k failing s1).trans hon
  have hn : n = if failing = [] ∧ s.fg 0x280 MEM_MARCH_STATUS_STATE ≠ 3 then 2 else 3 := by
    by_cases hf : failing = []
    · have : s2.fg 0x280 MEM_MARCH_STATUS_STATE = s.fg 0x280 MEM_MARCH_STATUS_STATE := by
        simp only [s2, hf, List.foldl_nil]
        exact State.fg_of_regs hregs ..
      simp only [n, this]
    · simp only [n, hf, false_and, if_false]
  refine ⟨?_, ?_, (State.marchSpares_soft _ _).ev _ (by decide) (by decide) (State.event_raise _ _ (hb := by decide))⟩
  · refine (congrArg (List.contains · k) (hend.powerOn.trans hpower)).trans ?_
    simp
  · rw [← hn]
    refine (congrArg MEM_MARCH_STATUS_STATE.get hend.status).trans (State.marchState_fg _ ?_)
    simp only [n]
    split <;> decide

/-! ### A run begins (R461, R465) -/

theorem State.setState_softPage (s : State) {p : Nat} (hp : 0x280 ≠ p) (f : Fld) (v : Bool) : MarchSoft s (s.setState p f v) := by
  unfold State.setState
  exact .ite (.refl s) ((MarchSoft.fsPage s _ _ hp).trans (.raise ..))

theorem State.unready_soft (s : State) {p : Nat} (hp : 0x280 ≠ p) : MarchSoft s (s.unready p) := by
  have hend : MarchSoft s (s.refuseUnready p) := by
    have hfs := fun (u : State) f v => MarchSoft.fsPage u (p := p) f v hp
    unfold State.refuseUnready State.endCommit State.addWrap
    exact .ite ((((hfs _ _ _).trans (hfs _ _ _)).trans (hfs _ _ _)).trans ((hfs _ _ _).trans (hfs _ _ _))) (.refl s)
  unfold State.unready
  exact ((hend.trans (State.setState_softPage _ hp _ _)).trans (State.setState_softPage _ hp _ _)).trans (.of_rd rfl fun _ => rfl)

theorem State.unready_ready (s : State) (p : Nat) : (s.unready p).ready p = false := by
  have h := State.setState_fb (s.refuseUnready p) p (f := PAGE_STATE_READY) (v := false)
  have hb := State.fg_setState_beside ((s.refuseUnready p).setState p PAGE_STATE_READY false) p (f := PAGE_STATE_RUNNING)
    (g := PAGE_STATE_READY) false (by decide) (by decide)
  simp only [State.fb] at h
  unfold State.ready State.fb
  exact (congrArg (· != 0) hb).trans h

theorem State.unready_other (s : State) {p q : Nat} (h : q ≠ p) : (s.unready p).ready q = s.ready q := by
  have hend : (s.refuseUnready p).ready q = s.ready q := by
    unfold State.refuseUnready State.endCommit State.addWrap State.ready State.fb
    split
    · simp only [State.fg_fs_page _ p q _ h]
    · rfl
  unfold State.unready State.ready
  exact (State.setState_page _ _ _ _ h).trans ((State.setState_page _ _ _ _ h).trans hend)

/-- The core stops being ready, and with it the queue pages. -/
theorem State.coreUnready_spec (s : State) : MarchSoft s s.coreUnready ∧ s.coreUnready.ready 0x010 = false := by
  refine ⟨?_, ?_⟩
  · have hall := ((((State.unready_soft s (p := 0x010) (by decide)).trans (State.unready_soft _ (p := 0x011) (by decide))).trans
      (State.unready_soft _ (p := 0x012) (by decide))).trans (State.unready_soft _ (p := 0x013) (by decide))).trans
      (State.unready_soft _ (p := 0x014) (by decide))
    exact hall.trans (.of_rd rfl fun _ => rfl)
  · exact (State.unready_other _ (by decide)).trans ((State.unready_other _ (by decide)).trans ((State.unready_other _ (by decide)).trans
      ((State.unready_other _ (by decide)).trans (s.unready_ready 0x010))))

/-- The run that a word of MEM_MARCH_CMD asks for. -/
def marchOf (v : Word) : March :=
  { target := MEM_MARCH_CMD_TARGET.get v, bank := MEM_MARCH_CMD_BANK.get v, destruct := decide (MEM_MARCH_CMD_DESTRUCT.get v = 1) }

theorem State.marchGo_refused {s : State} {v : Word} (h : s.mem.march ≠ none ∨ ((marchOf v).destruct = true ∧ s.destructBad (marchOf v) = true)) :
    s.marchGo v = s.marchState 4 := by
  unfold State.marchGo
  by_cases hm : s.mem.march = none
  · rw [if_neg (by simp [hm])]
    have hd := h.resolve_left fun hn => hn hm
    exact if_pos (Bool.and_eq_true_iff.2 hd)
  · exact if_pos (Option.isSome_iff_ne_none.2 hm)

/-- A run that begins shows STATE 1 and FAILS 0; a destructive one of the cells or the canopy takes READY from their block. -/
theorem State.marchGo_begins {s : State} {v : Word} (hm : s.mem.march = none)
    (hd : ¬((marchOf v).destruct = true ∧ s.destructBad (marchOf v) = true)) :
    (s.marchGo v).fg 0x280 MEM_MARCH_STATUS_STATE = 1 ∧ (s.marchGo v).fg 0x280 MEM_MARCH_STATUS_FAILS = 0 ∧
    (s.marchGo v).mem.march = some (marchOf v) ∧ ((marchOf v).destruct = true → (marchOf v).target = 2 → (s.marchGo v).ready 0x010 = false) ∧
    ((marchOf v).destruct = true → (marchOf v).target = 3 → (s.marchGo v).ready 0x01C = false) := by
  let s1 : State := (({ s with mem := { s.mem with march := some (marchOf v) } } : State).marchState 1).fs 0x280 MEM_MARCH_STATUS_FAILS 0
  have heq : s.marchGo v = if (marchOf v).destruct then (if (marchOf v).target = 2 then (s1.showTesting (marchOf v).banks 1).coreUnready
      else if (marchOf v).target = 3 then (s1.showTesting (marchOf v).banks 1).unready 0x01C else s1.showTesting (marchOf v).banks 1)
      else s1.showTesting (marchOf v).banks 1 := by
    unfold State.marchGo
    exact (if_neg (by simp [hm])).trans (if_neg fun h => hd (Bool.and_eq_true_iff.1 h))
  have hstate : s1.fg 0x280 MEM_MARCH_STATUS_STATE = 1 := (State.fg_fs_apart _ _ _ (by decide)).trans (State.marchState_fg _ (by decide))
  have hfails : s1.fg 0x280 MEM_MARCH_STATUS_FAILS = 0 := (State.fg_fs _ _ _ _ (by decide)).trans rfl
  have hrun : s1.mem.march = some (marchOf v) := rfl
  have hsoft : MarchSoft s1 (s.marchGo v) := by
    rw [heq]
    have ht := s1.showTesting_soft (marchOf v).banks 1
    exact .ite (.ite (ht.trans (State.coreUnready_spec _).1) (.ite (ht.trans (State.unready_soft _ (by decide))) ht)) ht
  refine ⟨(congrArg MEM_MARCH_STATUS_STATE.get hsoft.status).trans hstate, (congrArg MEM_MARCH_STATUS_FAILS.get hsoft.status).trans hfails,
    hsoft.march.trans hrun, fun h h2 => ?_, fun h h3 => ?_⟩
  · rw [heq, if_pos h, if_pos h2]
    exact (State.coreUnready_spec _).2
  · rw [heq, if_pos h, if_neg (by omega), if_pos h3]
    exact State.unready_ready ..

theorem State.destructBad_touch (s : State) (who : Initiator) (m : March) : (s.touch who false).destructBad m = s.destructBad m := by
  have hbank := fun b => s.banks_touch who false b
  unfold State.destructBad State.replacing
  rw [State.running_touch, State.touch_core]
  congr 2
  exact congrArg (fun f => m.banks.any f) (funext fun b => by rw [(hbank b).1, (hbank b).2.2])

theorem State.marchAbort_none {s : State} (h : s.mem.march = none) : s.marchAbort = s := by
  unfold State.marchAbort
  rw [h]

theorem State.marchAbort_some {s : State} {m : March} (h : s.mem.march = some m) :
    s.marchAbort = { s with mem := { s.mem with march := some { m with abort := true } } } := by
  unfold State.marchAbort
  rw [h]

/-- A preserving run with one more row behind it. -/
def March.stepped (m : March) (fails : Bool) : March :=
  { m with next := m.next + 1, failed := m.failed || fails,
           cellBanks := if fails && decide (m.target = 2) then m.cellBanks ++ [(m.rowAt m.next).1] else m.cellBanks }

/-- The state in which a preserving run has finished its next row. -/
def State.rowStepped (s : State) (m : March) (fails : Bool) : State :=
  let s1 : State := { s with mem := { s.mem with march := some (m.stepped fails) } }
  if fails then s1.marchFail m.memory (m.rowAt m.next).1 (m.rowAt m.next).2 else s1

theorem marchRowStep_eq {s : State} (fails : Bool) {m : March} (hm : s.mem.march = some m) (hd : m.destruct = false) (hn : m.next < m.rows) :
    exec (.marchRowStep fails) s = .next (if m.abort then (s.rowStepped m fails).marchStopped (m.stepped fails) else s.rowStepped m fails) := by
  refine congrArg Host.Outcome.next ?_
  rw [hm]
  exact if_neg (by simp [hd, hn])

theorem State.rowStepped_spec (s : State) (m : March) (fails : Bool) :
    (s.rowStepped m fails).mem.march = some (m.stepped fails) ∧
    (fails = true → (s.rowStepped m fails).fg 0x280 MEM_MARCH_STATUS_FAILS =
      min (s.fg 0x280 MEM_MARCH_STATUS_FAILS + 1) (2 ^ MEM_MARCH_STATUS_FAILS.w - 1) ∧
      (s.rowStepped m fails).event 0x280 EV_MEM_MARCH_FAIL = true) ∧
    (fails = false → (s.rowStepped m fails).regs = s.regs) ∧ (s.rowStepped m fails).mem.sp = s.mem.sp := by
  unfold State.rowStepped
  dsimp only
  cases fails with
  | false => exact ⟨rfl, nofun, fun _ => rfl, rfl⟩
  | true =>
    rw [if_pos rfl]
    obtain ⟨hcnt, hev, hmarch, hsp, -⟩ := ({ s with mem := { s.mem with march := some (m.stepped true) } } : State).marchFail_spec m.memory
      (m.rowAt m.next).1 (m.rowAt m.next).2
    exact ⟨hmarch, fun _ => ⟨hcnt, hev⟩, nofun, hsp⟩

/-- A destructive run as it ends, with the banks of its failing cell rows. -/
def March.failedAt (m : March) (failing : List (Nat × Nat)) : March := { m with cellBanks := if m.target = 2 then failing.map (·.1) else [] }

/-- The state at the end of a destructive run, its failing rows named. -/
def State.destroyed (s : State) (m : March) (failing : List (Nat × Nat)) : State :=
  failing.foldl (fun t e => t.marchFail m.memory e.1 e.2) (if m.abort then s else s.memZero m.memory m.banks)

theorem marchRunDone_destructive {s : State} {mem : Fin 3} (failing : List (Nat × Nat)) {m : March} (hm : s.mem.march = some m)
    (hon : s.mem.powerOn.contains mem.val = false) (hmem : m.memory = mem.val) (hd : m.destruct = true) :
    exec (.marchRunDone mem failing) s = .next (if m.abort then (s.destroyed m failing).marchStopped (m.failedAt failing)
      else (s.destroyed m failing).marchEnd (m.failedAt failing) (!failing.isEmpty)) := by
  refine congrArg Host.Outcome.next ((if_neg (by rw [hon]; decide)).trans ?_)
  rw [hm]
  exact (if_neg (not_not.2 hmem)).trans (if_neg (by simp [hd]))

/-! ### Rows of the scratchpad (R459, R464) -/

theorem State.recordRepair_mem (s : State) (r : Repair) : (s.recordRepair r).mem = s.mem := by
  have hw : (s.wearSpared r.cause).mem = s.mem := by
    unfold State.wearSpared
    split <;> rfl
  have hstore : ∀ (u : State) a bs, (u.store a bs).mem = u.mem := fun u a bs => by
    unfold State.store
    split
    · rfl
    · exact (State.mwr_soft ..).1
  have htable : ∀ u : State, u.showTable.mem = u.mem := fun u => by
    unfold State.showTable
    split <;> rfl
  unfold State.recordRepair
  dsimp only
  split
  · rw [htable, hstore, State.raise_mem, hw]
  · split
    · exact hw
    · rw [htable, hstore, hw]

/-- A row moved to a free spare row, or none left. -/
theorem State.rowRepair_spec (s : State) (b row cause : Nat) :
    ((s.spBank b).freeSpares = [] → (s.rowRepair b row cause).event 0x280 EV_MEM_REPAIR_FULL = true ∧
      (s.rowRepair b row cause).mem.banks = s.mem.banks) ∧
    ((s.spBank b).freeSpares ≠ [] → (s.rowRepair b row cause).event 0x280 EV_MEM_REPAIR_DONE = true ∧
      (row, s.pick (s.spBank b).freeSpares) ∈ ((s.rowRepair b row cause).spBank b).moved) := by
  refine ⟨fun h => ?_, fun h => ?_⟩
  · rw [show s.rowRepair b row cause = s.raise 0x280 EV_MEM_REPAIR_FULL from if_pos h]
    exact ⟨State.event_raise _ _ (hb := by decide), by rw [State.raise_mem]⟩
  · unfold State.rowRepair
    dsimp only
    rw [if_neg h]
    refine ⟨State.event_raise _ _ (hb := by decide), ?_⟩
    have hstate : ∀ u : State, (u.setState 0x280 PAGE_STATE_SPARED true).mem = u.mem := fun u => by
      unfold State.setState
      split
      · rfl
      · rw [State.raise_mem, State.fs_mem]
    unfold State.spBank
    rw [State.raise_mem, State.recordRepair_mem, hstate, State.showSpares, State.fs_mem]
    refine Eq.mpr (congrArg (fun x : SpBank => _ ∈ x.moved) (Map.getD_put_same ..)) ?_
    exact List.mem_append_right _ List.mem_cons_self

/-- Settles O55: the scratchpad's accesses and bank commands, the repair of rows and the march runs, each with its end. -/
theorem memoryCommands : Obligations.MemoryCommands := by
  unfold Obligations.MemoryCommands
  refine ⟨?_, ?_, ?_, ?_, ?_, ?_, ?_, ?_, ?_, ?_, ?_, ?_, ?_, ?_, ?_, ?_, ?_, ?_, ?_, ?_, ?_, ?_, ?_, ?_, ?_, ?_⟩
  · intro s who a write d be hready ⟨ha, hw⟩ hgate ⟨hu, hc⟩
    refine ⟨_, scratchpad_served write d be hready ha hw hgate hu hc, ?_⟩
    have hregs := s.touch_onlyRegs who (!write)
    cases write with
    | true =>
      exact ⟨by simp, fun _ => (State.spPut_same ..).trans (by rw [State.touch_spWord]), nofun,
        fun w hne => (State.spPut_other _ _ _ hne).trans (State.touch_spWord ..), hregs.of_regs rfl⟩
    | false =>
      exact ⟨by simp, nofun, fun _ => ⟨by simp [rspOk], State.touch_mem ..⟩, fun w _ => State.touch_spWord .., hregs.of_regs rfl⟩
  · intro s who a write d be hready ⟨ha, hw⟩ hgate
    have hacc := (s.touch who (!write)).spAccess_aligned (ownerCode who) write d be ha hw
    rw [State.spGate_touch, hgate] at hacc
    have hexec : exec (.scratchpadAccess who a write d be) s = .next (((s.touch who (!write)).spForeign).answer who rspUnmapped 0) := by
      rw [scratchpadAccess_eq, if_pos hready, State.spLocal_answer hacc]
    have hcnt : (s.touch who (!write)).fg 0x280 MEM_CNT_FOREIGN_COUNT = s.fg 0x280 MEM_CNT_FOREIGN_COUNT := State.fg_touch_page _ _ _ _ (by decide)
    refine ⟨_, hexec, by simp, ?_, State.event_raise _ _ (hb := by decide), (State.raise_mem ..).trans (State.touch_mem ..)⟩
    rw [← hcnt]
    exact (State.fg_raise_off _ _ (by decide)).trans (State.fg_inc _ _ (by decide))
  · intro s who a write d be
    refine ⟨_, scratchpadAccess_eq .., fun h => ?_, fun h hw => ?_, fun h ha hw hg => ?_, fun h ha hw hg => ?_⟩
    · rw [if_neg (by simp [h])]
      exact ⟨by simp, State.touch_mem ..⟩
    · rw [if_pos h, State.spLocal_answer (State.spAccess_beyond _ _ _ _ _ hw)]
      exact ⟨by simp, State.touch_mem ..⟩
    · have hacc := (s.touch who (!write)).spAccess_aligned (ownerCode who) write d be ha hw
      rw [State.spGate_touch, hg] at hacc
      rw [if_pos h, State.spLocal_hold hacc]
      exact ⟨by rw [State.touch_mem], by rw [State.touch_ans], by rw [State.touch_mem]⟩
    · have hacc := (s.touch who (!write)).spAccess_aligned (ownerCode who) write d be ha hw
      rw [State.spGate_touch, hg] at hacc
      rw [if_pos h, State.spLocal_answer hacc]
      exact ⟨by simp, State.touch_mem ..⟩
  · intro s who a write d be hready ⟨ha, hw⟩ ⟨h1, h2⟩ ⟨hu, hc, hu', hc'⟩
    refine ⟨_, scratchpad_unaligned write d be hready ha hw h1 h2 hu hc hu' hc', ?_⟩
    cases write with
    | true =>
      refine ⟨by simp, nofun, fun _ => ?_, fun _ => ?_, fun w hne hne' => ?_⟩
      · exact (State.spPut_other _ _ _ (by omega)).trans ((State.spPut_same ..).trans (by rw [State.touch_spWord]))
      · exact (State.spPut_same ..).trans (by rw [State.spPut_other _ _ _ (by omega), State.touch_spWord])
      · exact (State.spPut_other _ _ _ hne').trans ((State.spPut_other _ _ _ hne).trans (State.touch_spWord ..))
    | false =>
      exact ⟨by simp, fun _ => ⟨by simp [rspOk], State.touch_mem ..⟩, nofun, nofun, fun w _ _ => State.touch_spWord ..⟩
  · intro s who v c hc hacc hgo hm hop
    refine completes_write (bankCommand_exec hc s) hacc ⟨fun hb => ?_, fun hb => ?_, by simp⟩
    · obtain ⟨hbusy, hmarched, hpower⟩ := s.banks_touch who false (MEM_BANK_CMD_BANK.get v)
      exact State.bankCmd_drains hgo (hmarched.trans hm) (by rw [hpower]; exact hop) (hbusy.trans hb)
    · have heq : (s.touch who false).bankCmd v = ((s.touch who false).bankStart (MEM_BANK_CMD_BANK.get v)).bankRefuse 2 :=
        (State.bankCmd_go hgo).trans (if_pos ((s.banks_touch who false _).1.trans hb))
      have hspec := ((s.touch who false).bankStart (MEM_BANK_CMD_BANK.get v)).bankRefuse_spec (r := 2) (by decide)
      rw [← heq] at hspec
      exact ⟨hspec.1, hspec.2.1, hspec.2.2.trans (State.touch_mem s who false)⟩
  · intro s who v c b op arg hc hacc hbits
    obtain ⟨rfl, rfl, rfl⟩ := hbits
    obtain ⟨hbusy, hmarched, hpower⟩ := s.banks_touch who false (MEM_BANK_CMD_BANK.get v)
    have hrefused : ∀ r < 8, (s.touch who false).bankCmd v = ((s.touch who false).bankStart (MEM_BANK_CMD_BANK.get v)).bankRefuse r →
        ((s.touch who false).bankCmd v).fg 0x280 MEM_BANK_CMD_STATUS_RESULT = r ∧ ((s.touch who false).bankCmd v).event 0x280 EV_MEM_CMD_REFUSED = true ∧
        ((s.touch who false).bankCmd v).mem = s.mem := fun r hr heq => by
      have hspec := ((s.touch who false).bankStart (MEM_BANK_CMD_BANK.get v)).bankRefuse_spec hr
      rw [← heq] at hspec
      exact ⟨hspec.1, hspec.2.1, hspec.2.2.trans (State.touch_mem s who false)⟩
    refine completes_write (bankCommand_exec hc s) hacc ⟨fun hgo => ?_, fun hgo hb hm => ?_, fun hgo hb hm hop => ?_, fun ⟨hgo, hb, hm, h2, h4, hp⟩ => ?_,
      by simp⟩
    · have heq : (s.touch who false).bankCmd v = s.touch who false := if_pos hgo
      rw [heq]
      exact ⟨State.touch_mem .., State.fg_touch_page _ _ _ _ (by decide)⟩
    · exact hrefused 3 (by decide) ((State.bankCmd_go hgo).trans ((if_neg (by simp [hbusy, hb])).trans (if_pos (hmarched.trans hm))))
    · exact hrefused 4 (by decide) ((State.bankCmd_go hgo).trans ((if_neg (by simp [hbusy, hb])).trans ((if_neg (by simp [hmarched, hm])).trans (if_pos hop))))
    · have heq : (s.touch who false).bankCmd v = ((s.touch who false).bankStart (MEM_BANK_CMD_BANK.get v)).bankDone :=
        (State.bankCmd_go hgo).trans ((if_neg (by simp [hbusy, hb])).trans ((if_neg (by simp [hmarched, hm])).trans ((if_neg (by omega)).trans
          (if_pos ⟨h2, hpower.trans hp⟩))))
      have hspec := ((s.touch who false).bankStart (MEM_BANK_CMD_BANK.get v)).bankDone_spec
      rw [← heq] at hspec
      exact ⟨hspec.1, hspec.2.1, hspec.2.2.1.trans (State.touch_mem s who false)⟩
  · intro s bank op arg hd ⟨ha, h1, h4⟩ hh
    obtain ⟨hheld, hrest⟩ := State.bankDrained_spec hd bank.isLt ha h1 h4 hh
    refine ⟨_, bankDrainDone_eq (by simp [hd]), ?_⟩
    rw [hheld]
    exact hrest
  · intro s bank hd
    exact ⟨_, bankDrainDone_eq hd, rfl⟩
  · intro s bank hd
    exact ⟨_, congrArg Host.Outcome.next (if_pos (by simp [hd])), rfl⟩
  · intro s bank hf
    exact ⟨_, congrArg Host.Outcome.next (if_neg (by simp [hf])), rfl⟩
  · intro s bank hf
    exact ⟨_, congrArg Host.Outcome.next (if_pos hf), s.bankFilled_spec bank.isLt (s.spBank bank.val)⟩
  · intro s bank row n hth hmem hn hno
    refine ⟨_, congrArg Host.Outcome.next (if_pos ⟨hth, ?_, hno⟩), rfl, rfl⟩
    exact List.any_eq_true.2 ⟨_, hmem, by simp [hn]⟩
  · intro s bank row h
    refine ⟨_, congrArg Host.Outcome.next (if_neg fun ⟨hth, htrack, hno⟩ => ?_), rfl⟩
    rcases h with h | h | h
    · exact hth h
    · rw [h] at htrack
      cases htrack
    · rw [h] at hno
      cases hno
  · intro s bank row h
    refine ⟨s, congrArg Host.Outcome.next ?_, rfl⟩
    rw [h]
  · intro s bank row r h
    let u : State := { s with mem := { s.mem with repairs := s.mem.repairs.filter fun y => decide (y ≠ r) } }
    have hexec : exec (.rowRepair bank row) s = .next (u.rowRepair bank.val row r.2.2) := by
      refine congrArg Host.Outcome.next ?_
      rw [h]
    obtain ⟨hfull, hdone⟩ := u.rowRepair_spec bank.val row r.2.2
    refine ⟨_, hexec, ((u.rowRepair_soft bank.val row r.2.2).repairs).trans (List.filter_congr fun y _ => ?_)⟩
    simp only [decide_eq_true_eq, decide_eq_decide]
    exact ⟨fun hy => ⟨hy, hfull, hdone⟩, fun hy => hy.1⟩
  · intro s who v m hacc ⟨hgo, hab⟩ hm
    obtain rfl : m = marchOf v := hm
    have hcmd : (s.touch who false).marchCmd v = (s.touch who false).marchGo v := by
      unfold State.marchCmd
      rw [hgo, hab]
      rfl
    have hmarch : (s.touch who false).mem.march = s.mem.march := by rw [State.touch_mem]
    have hbad := s.destructBad_touch who (marchOf v)
    refine completes_write rfl hacc ?_
    rw [hcmd]
    refine ⟨fun h => ?_, fun h => ?_, fun h => ?_, fun h => ?_, by simp⟩
    · rw [State.marchGo_refused (by rw [hmarch, hbad]; exact h)]
      exact ⟨State.marchState_fg _ (by decide), hmarch⟩
    · obtain ⟨hst, hf, hr, -, -⟩ := State.marchGo_begins (hmarch.trans h.1) (by rw [hbad]; exact h.2)
      exact ⟨hst, hf, hr⟩
    · obtain ⟨-, -, -, hcore, -⟩ := State.marchGo_begins (v := v) (hmarch.trans h.1) fun hn => by
        rw [hbad] at hn
        exact absurd (h.2.2.1.symm.trans hn.2) (by decide)
      exact hcore h.2.1 h.2.2.2
    · obtain ⟨-, -, -, -, hscan⟩ := State.marchGo_begins (v := v) (hmarch.trans h.1) fun hn => by
        rw [hbad] at hn
        exact absurd (h.2.2.1.symm.trans hn.2) (by decide)
      exact hscan h.2.1 h.2.2.2
  · intro s who v hacc hgo
    have hcmd : (s.touch who false).marchCmd v = if MEM_MARCH_CMD_ABORT.get v = 1 then (s.touch who false).marchAbort else s.touch who false := by
      unfold State.marchCmd
      rw [hgo]
      rfl
    have hregs := s.touch_onlyRegs who false
    refine completes_write rfl hacc ?_
    rw [hcmd]
    by_cases hab : MEM_MARCH_CMD_ABORT.get v = 1
    · rw [if_pos hab, if_pos hab]
      cases hm : s.mem.march with
      | none =>
        rw [State.marchAbort_none (by rw [State.touch_mem]; exact hm)]
        exact ⟨(congrArg MemSt.march (State.touch_mem ..)).trans hm, hregs.of_regs rfl, by simp⟩
      | some m =>
        rw [State.marchAbort_some (m := m) (by rw [State.touch_mem]; exact hm)]
        exact ⟨rfl, hregs.of_regs rfl, by simp⟩
    · rw [if_neg hab, if_neg hab]
      exact ⟨congrArg MemSt.march (State.touch_mem ..), hregs.of_regs rfl, by simp⟩
  · intro s who m hacc hm
    refine completes_write rfl hacc ?_
    rw [State.marchAbort_some (m := m) (by rw [State.touch_mem]; exact hm)]
    exact ⟨rfl, (s.touch_onlyRegs who false).of_regs rfl, by simp⟩
  · intro s who hacc hm
    refine completes_write rfl hacc ?_
    rw [State.marchAbort_none (by rw [State.touch_mem]; exact hm)]
    exact ⟨⟨State.touch_mem .., by simp⟩, (s.touch_onlyRegs who false).of_regs rfl⟩
  · intro s fails m hm ⟨hd, hab⟩ hnext
    have hexec : exec (.marchRowStep fails) s = .next (s.rowStepped m fails) :=
      (marchRowStep_eq fails hm hd hnext).trans (congrArg _ (if_neg (by rw [hab]; decide)))
    exact ⟨_, hexec, s.rowStepped_spec m fails⟩
  · intro s fails m hm ⟨hd, hab⟩ hnext
    refine ⟨_, marchRowStep_eq fails hm hd hnext, ?_⟩
    rw [if_pos hab, State.marchStopped_preserving _ (m := m.stepped fails) hd]
    obtain ⟨hmarch, hst, hdone, -, hkeep⟩ := (s.rowStepped m fails).marchOver_spec (m.stepped fails) (n := 5) (by decide)
    exact ⟨hmarch, hst, hdone, fun hf => hkeep ((s.rowStepped_spec m fails).2.1 hf).2⟩
  · intro s fails h
    refine ⟨s, congrArg Host.Outcome.next ?_, rfl⟩
    cases hm : s.mem.march with
    | none => rfl
    | some m =>
      rw [hm] at h
      exact if_pos h
  · intro s mem failing hon h
    refine ⟨s, congrArg Host.Outcome.next ((if_neg (by rw [hon]; decide)).trans ?_), rfl⟩
    cases hm : s.mem.march with
    | none => rfl
    | some m =>
      rw [hm] at h
      rcases Bool.or_eq_true_iff.1 h with h | h
      · exact if_pos (of_decide_eq_true h)
      · obtain ⟨hd, hn⟩ := Bool.and_eq_true_iff.1 h
        by_cases hmem : m.memory ≠ mem.val
        · exact if_pos hmem
        · exact (if_neg hmem).trans ((if_pos hd).trans (if_neg (Nat.not_le.2 (of_decide_eq_true hn))))
  · intro s mem failing hon
    exact ⟨_, congrArg Host.Outcome.next (if_pos hon), s.powerOnEnd_spec mem.val failing⟩
  · intro s mem failing m hm hon hmem hd
    refine ⟨_, marchRunDone_destructive failing hm hon hmem hd, ?_⟩
    cases hab : m.abort with
    | true => exact (s.destroyed m failing).marchStopped_spec (m := m.failedAt failing) hd |>.imp id fun ⟨hst, hdone, hc, hs⟩ =>
        ⟨hst, hdone, fun _ => hc, fun _ => hs⟩
    | false =>
      have hst : (if (!failing.isEmpty) = true then 3 else 2) = if failing = [] then 2 else 3 := by cases failing <;> rfl
      obtain ⟨hmarch, hstate, hdone, -, -⟩ := (s.destroyed m failing).marchOver_spec (m.failedAt failing)
        (n := if (!failing.isEmpty) = true then 3 else 2) (by split <;> decide)
      exact ⟨hmarch, hstate.trans hst, hdone, nofun, nofun⟩
  · intro s mem failing m hm hon hmem hd hn
    have hexec : exec (.marchRunDone mem failing) s = .next (s.marchEnd m m.failed) := by
      refine congrArg Host.Outcome.next ((if_neg (by rw [hon]; decide)).trans ?_)
      rw [hm]
      exact (if_neg (not_not.2 hmem)).trans ((if_pos (by simp [hd])).trans (if_pos hn))
    refine ⟨_, hexec, ?_⟩
    rw [State.marchEnd_eq]
    obtain ⟨hmarch, hst, hdone, hsp, -⟩ := s.marchOver_spec m (n := if m.failed then 3 else 2) (by split <;> decide)
    exact ⟨hmarch, hst, hdone, hsp⟩

end Sys2Proof.Machine
end

section
set_option Elab.async false
namespace Sys2Proof.Machine

/-! ### A channel after the operations of its engine -/

@[simp] theorem State.chan_setChan (s : State) (n c : Nat) (x : Chan) : (s.setChan n c x).chan n c = x := Map.getD_put_same ..
theorem State.chan_setChan_ne (s : State) {n c n' c' : Nat} (x : Chan) (h : 8 * n' + c' ≠ 8 * n + c) :
    (s.setChan n c x).chan n' c' = s.chan n' c' := Map.getD_put_other _ _ _ _ h
theorem State.chan_of_chans {s t : State} (h : t.chans = s.chans) (n c : Nat) : t.chan n c = s.chan n c := by
  unfold State.chan; rw [h]
@[simp] theorem State.chan_raise (s : State) (p b n c : Nat) : (s.raise p b).chan n c = s.chan n c := State.chan_of_chans (State.raise_chans ..) ..
@[simp] theorem State.chan_raiseIf (s : State) (e : Bool) (p b n c : Nat) : (s.raiseIf e p b).chan n c = s.chan n c := by
  unfold State.raiseIf; split <;> simp
@[simp] theorem State.chan_wr (s : State) (p o : Nat) (v : Word) (n c : Nat) : (s.wr p o v).chan n c = s.chan n c := rfl
@[simp] theorem State.chan_fs (s : State) (p : Nat) (f : Fld) (v n c : Nat) : (s.fs p f v).chan n c = s.chan n c := rfl
@[simp] theorem State.chan_inc (s : State) (p : Nat) (f : Fld) (n c : Nat) : (s.inc p f).chan n c = s.chan n c := rfl
@[simp] theorem State.chan_answer (s : State) (who : Initiator) (r : Nat) (d : Word) (n c : Nat) : (s.answer who r d).chan n c = s.chan n c := rfl
@[simp] theorem State.chan_touch (s : State) (who : Initiator) (r : Bool) (n c : Nat) : (s.touch who r).chan n c = s.chan n c :=
  State.chan_of_chans (State.touch_chans ..) ..
@[simp] theorem State.chan_enCnt (s : State) (g i n c : Nat) : (s.enCnt g i).chan n c = s.chan n c := by
  unfold State.enCnt; split <;> simp
@[simp] theorem State.enCnt_chans (s : State) (g i : Nat) : (s.enCnt g i).chans = s.chans := by
  unfold State.enCnt; split <;> simp

/-! ### Registers that hold but EVT_STATUS -/

theorem State.enOf_of_map {s t : State} {n : Nat} (h : t.rd (ecPage n) EC_MAP = s.rd (ecPage n) EC_MAP) (c : Nat) : t.enOf n c = s.enOf n c := by
  have hmap (c : Nat) : t.mapPos n c = s.mapPos n c := by unfold State.mapPos; rw [h]
  unfold State.enOf State.engPos
  rw [hmap c, hmap (c - 1)]

theorem State.servedBy_of_map {s t : State} {n : Nat} (h : t.rd (ecPage n) EC_MAP = s.rd (ecPage n) EC_MAP) (pos : Nat) :
    t.servedBy n pos = s.servedBy n pos := by
  have hmap (c : Nat) : t.mapPos n c = s.mapPos n c := by unfold State.mapPos; rw [h]
  unfold State.servedBy State.engPos
  simp only [hmap]

/-- Every register but the event status of each page holds what it held, and no event is lost. -/
structure RegsHold (s t : State) : Prop where
  rd : ∀ p o, regKey 0 o ≠ regKey 0 EVT_STATUS → t.rd p o = s.rd p o
  event : ∀ p b, s.event p b = true → t.event p b = true

namespace RegsHold

variable {s t u : State}

theorem refl (s : State) : RegsHold s s := ⟨fun _ _ _ => rfl, fun _ _ h => h⟩
theorem trans (h : RegsHold s t) (h' : RegsHold t u) : RegsHold s u :=
  ⟨fun p o ho => (h'.rd p o ho).trans (h.rd p o ho), fun p b hb => h'.event p b (h.event p b hb)⟩
theorem of_regs (h : t.regs = s.regs) : RegsHold s t :=
  ⟨fun p o _ => State.rd_of_regs h p o, fun p b hb => by rw [State.event, State.rd_of_regs h]; exact hb⟩
theorem raise (s : State) (p b : Nat) : RegsHold s (s.raise p b) := by
  refine ⟨fun q o ho => ?_, fun q c hc => ?_⟩
  · rw [State.rd_raise, if_neg (regKey_ne_of_off ho _ _)]
  · by_cases h : q = p
    · rw [h] at hc ⊢; exact State.event_raise_keeps _ _ _ hc
    · rw [State.event_raise_page _ _ _ h]; exact hc
theorem raiseIf (s : State) (c : Bool) (p b : Nat) : RegsHold s (s.raiseIf c p b) := by
  unfold State.raiseIf; split
  · exact raise ..
  · exact refl s
theorem fg (h : RegsHold s t) (p : Nat) {f : Fld} (ho : regKey 0 f.off ≠ regKey 0 EVT_STATUS) : t.fg p f = s.fg p f := by
  simp only [State.fg, h.rd p f.off ho]
theorem fb (h : RegsHold s t) (p : Nat) {f : Fld} (ho : regKey 0 f.off ≠ regKey 0 EVT_STATUS) : t.fb p f = s.fb p f := by
  simp only [State.fb, h.fg p ho]
theorem enOf (h : RegsHold s t) (n c : Nat) : t.enOf n c = s.enOf n c := State.enOf_of_map (h.rd _ _ (by decide)) c

end RegsHold

@[simp] theorem State.enOf_setChan (s : State) (n c : Nat) (x : Chan) (n' c' : Nat) : (s.setChan n c x).enOf n' c' = s.enOf n' c' := rfl

/-! ### The FIFO and the counters of an engine -/

theorem State.fifoPop_chan (s : State) (n c : Nat) :
    (s.fifoPop n c).chan n c = { s.chan n c with fifo := (s.chan n c).fifo.tail, taken := (s.chan n c).taken + 1 } := by
  unfold State.fifoPop; simp
theorem State.fifoPop_hold (s : State) (n c : Nat) : RegsHold s (s.fifoPop n c) :=
  (RegsHold.of_regs (by simp)).trans (RegsHold.raiseIf ..)
theorem State.fifoPop_onlyRegs (s : State) (n c : Nat) : onlyRegs [(s.enOf n c, EVT_STATUS)] s (s.fifoPop n c) :=
  ((onlyRegs.refl _ s).of_regs (by simp)).raiseIf (by simp)

/-- An engine's counter counts; a counter's register is not that of the events. -/
theorem State.fg_enCnt (s : State) (g : Nat) {i : Nat} (hi : i < 4) :
    (s.enCnt g i).fg g (EN_CNT_COUNT.at (4 * i)) = min (s.fg g (EN_CNT_COUNT.at (4 * i)) + 1) (2 ^ EN_CNT_COUNT.w - 1) := by
  have hoff : regKey 0 (EN_CNT_COUNT.at (4 * i)).off ≠ regKey 0 EVT_STATUS := by revert i; decide
  have hinc := State.fg_inc s g (f := EN_CNT_COUNT.at (4 * i)) (show 0 + 32 ≤ 32 by decide)
  unfold State.enCnt
  split
  · exact (State.fg_raise_off _ _ hoff).trans hinc
  · exact hinc
theorem State.rd_enCnt (s : State) (g : Nat) {i q o : Nat} (ho : regKey 0 o ≠ regKey 0 EVT_STATUS) (hi : regKey 0 o ≠ regKey 0 (EN_CNT_COUNT.at (4 * i)).off) :
    (s.enCnt g i).rd q o = s.rd q o := by
  have hinc : (s.inc g (EN_CNT_COUNT.at (4 * i))).rd q o = s.rd q o := by
    rw [State.inc_eq_fs]
    exact (State.rd_wr _ _ _ _ _ _).trans (if_neg (regKey_ne_of_off hi _ _))
  unfold State.enCnt
  split
  · exact ((RegsHold.raise _ _ _).rd q o ho).trans hinc
  · exact hinc
theorem State.fg_enCnt_off (s : State) (g : Nat) {i q : Nat} {f : Fld} (ho : regKey 0 f.off ≠ regKey 0 EVT_STATUS)
    (hi : regKey 0 f.off ≠ regKey 0 (EN_CNT_COUNT.at (4 * i)).off) : (s.enCnt g i).fg q f = s.fg q f := by
  simp only [State.fg, State.rd_enCnt s g ho hi]
theorem State.event_enCnt (s : State) (g : Nat) {i : Nat} (hi : i < 4) (q b : Nat) (h : s.event q b = true) : (s.enCnt g i).event q b = true := by
  have hoff : regKey 0 EVT_STATUS ≠ regKey 0 (EN_CNT_COUNT.at (4 * i)).off := by revert i; decide
  have hinc : (s.inc g (EN_CNT_COUNT.at (4 * i))).event q b = true := (State.event_fs_off s g q _ hoff).trans h
  unfold State.enCnt
  split
  · exact (RegsHold.raise _ _ _).event q b hinc
  · exact hinc

/-! ### Records -/

/-- The channel is as it was but for the records it assembles and holds, and registers but EVT_STATUS hold. -/
structure RecKept (n c : Nat) (s t : State) : Prop where
  chan : ∃ b r u, t.chan n c = { s.chan n c with buf := b, recs := r, sentTs := u }
  hold : RegsHold s t

namespace RecKept

variable {n c : Nat} {s t u : State}

theorem refl (s : State) : RecKept n c s s := ⟨⟨_, _, _, rfl⟩, .refl s⟩
theorem trans (h : RecKept n c s t) (h' : RecKept n c t u) : RecKept n c s u := by
  obtain ⟨⟨b, r, v, e⟩, hold⟩ := h
  obtain ⟨⟨b', r', v', e'⟩, hold'⟩ := h'
  exact ⟨⟨b', r', v', by rw [e', e]⟩, hold.trans hold'⟩
theorem setChan (s : State) (n c : Nat) (b : Option RecBuf) (r : List RecBuf) (u : Option Int) :
    RecKept n c s (s.setChan n c { s.chan n c with buf := b, recs := r, sentTs := u }) :=
  ⟨⟨b, r, u, State.chan_setChan ..⟩, .of_regs (by simp)⟩
theorem raise (s : State) (p b : Nat) : RecKept n c s (s.raise p b) := ⟨⟨_, _, _, State.chan_raise ..⟩, .raise ..⟩

end RecKept

theorem State.recSend_recKept (s : State) (n c : Nat) (b : RecBuf) : RecKept n c s (s.recSend n c b) :=
  ⟨⟨_, _, _, State.chan_setChan ..⟩, .of_regs rfl⟩
theorem State.recClose_recKept (s : State) (n c f : Nat) : RecKept n c s (s.recClose n c f) := by
  unfold State.recClose
  split
  · exact .refl s
  next b _ =>
    have h := RecKept.setChan s n c none (s.chan n c).recs (s.chan n c).sentTs
    dsimp only
    split
    · exact h.trans (RecKept.setChan ..)
    · split
      · exact h.trans (State.recSend_recKept ..)
      · exact h.trans (RecKept.raise ..)
theorem RecKept.closed {n c : Nat} {s t : State} (h : RecKept n c s t) (full : Prop) [Decidable full] :
    RecKept n c s (if full then t.recClose n c 0 else t) := by
  split
  · exact h.trans (State.recClose_recKept ..)
  · exact h
theorem State.recAdd_recKept (s : State) (n c ty f : Nat) (u : Int) (i : List Byte) : RecKept n c s (s.recAdd n c ty f u i) :=
  RecKept.setChan ..
theorem State.recBatch_recKept (s : State) (n c ty : Nat) (u : Int) (i : List Byte) : RecKept n c s (s.recBatch n c ty u i) := by
  have hfirst (o : Bool) : RecKept n c s ((if o then s.recClose n c 0 else s).recAdd n c ty 0 u i) := by
    refine RecKept.trans ?_ (State.recAdd_recKept ..)
    cases o
    · exact .refl s
    · exact State.recClose_recKept ..
  unfold State.recBatch
  dsimp only
  split <;> exact (hfirst _).closed _


/-! ### A record closes (R259) -/

section
variable {s : State} {n c : Nat} {b : RecBuf} (hb : (s.chan n c).buf = some b) (f : Nat)
include hb

theorem State.recClose_sent (hh : s.holdsRecords = false) (hr : s.fb (s.enOf n c) EN_RXDST_RX_EN = true) :
    s.recClose n c f = (s.setChan n c { s.chan n c with buf := none }).recSend n c { b with flags := b.flags ||| f } := by
  unfold State.recClose; simp [hb, hh, hr]
theorem State.recClose_dropped (hh : s.holdsRecords = false) (hr : s.fb (s.enOf n c) EN_RXDST_RX_EN = false) :
    s.recClose n c f = (s.setChan n c { s.chan n c with buf := none }).raise (s.enOf n c) EV_EN_REC_LOST := by
  unfold State.recClose; simp [hb, hh, hr]
theorem State.recClose_held (hh : s.holdsRecords = true) :
    (s.recClose n c f).regs = s.regs ∧ ((s.recClose n c f).chan n c).recs =
      (s.chan n c).recs ++ (if s.fb (s.enOf n c) EN_RXDST_RX_EN then [{ b with flags := b.flags ||| f }] else []) := by
  unfold State.recClose
  cases h : s.fb (s.enOf n c) EN_RXDST_RX_EN <;> simp [hb, hh, h]

end

theorem State.recClose_none {s : State} {n c : Nat} (hb : (s.chan n c).buf = none) (f : Nat) : s.recClose n c f = s := by
  unfold State.recClose; rw [hb]
theorem State.recClose_buf (s : State) (n c f : Nat) : ((s.recClose n c f).chan n c).buf = none := by
  unfold State.recClose
  split
  · assumption
  · dsimp only
    split
    · simp
    · split
      · exact congrArg Chan.buf (State.chan_setChan ..) |>.trans (congrArg Chan.buf (State.chan_setChan ..))
      · simp

/-! ### A SYNC transfer starts (R270, R271) -/

section
variable {s : State} {n c : Nat} {t0 : Int}

theorem State.syStart_starts (hx : (s.chan n c).xfer = none) (hok : (s.chan n c).nextOk ≤ t0) (hh : s.txHeld n c = false) :
    ((s.syStart n c t0).chan n c).xfer = some { t0 := t0 } ∧
      ((s.syStart n c t0).chan n c).due = (s.chan n c).due ++ s.syClock (s.enOf n c) t0 ∧ (s.syStart n c t0).regs = s.regs := by
  have hother (x : Chan) (t : State) : (t.setChan n (c + 1) x).chan n c = t.chan n c := State.chan_setChan_ne _ _ (by omega)
  unfold State.syStart
  rw [if_neg (by simp [hx, hok]), if_neg (by simp [hh])]
  dsimp only
  split <;> simp [hother]
theorem State.syStart_held (hx : (s.chan n c).xfer = none) (hok : (s.chan n c).nextOk ≤ t0) (hh : s.txHeld n c = true) :
    s.syStart n c t0 = s := by
  unfold State.syStart
  rw [if_neg (by simp [hx, hok]), if_pos hh]
theorem State.syStart_skipped (h : (s.chan n c).xfer ≠ none ∨ t0 < (s.chan n c).nextOk) : s.syStart n c t0 = s.enCnt (s.enOf n c) 2 := by
  unfold State.syStart
  exact if_pos (by rwa [← Option.ne_none_iff_isSome] : (s.chan n c).xfer.isSome ∨ t0 < (s.chan n c).nextOk)

end


/-! ### A change at a DISC input is accepted (R274-R276) -/

/-- The accepted level, the debounce and the counts of changes are as they were. -/
structure DiKept (n c : Nat) (s t : State) : Prop where
  acc : (t.chan n c).acc = (s.chan n c).acc
  deb : (t.chan n c).deb = (s.chan n c).deb
  count : ∀ g, t.rd g EN_DI_COUNT = s.rd g EN_DI_COUNT

namespace DiKept

variable {n c : Nat} {s t u : State}

theorem refl (s : State) : DiKept n c s s := ⟨rfl, rfl, fun _ => rfl⟩
theorem trans (h : DiKept n c s t) (h' : DiKept n c t u) : DiKept n c s u :=
  ⟨h'.acc.trans h.acc, h'.deb.trans h.deb, fun g => (h'.count g).trans (h.count g)⟩
theorem of_recKept (h : RecKept n c s t) : DiKept n c s t := by
  obtain ⟨⟨b, r, u, e⟩, hold⟩ := h
  exact ⟨by rw [e], by rw [e], fun g => hold.rd _ _ (by decide)⟩
theorem wr (s : State) (g o : Nat) (v : Word) (h : regKey 0 EN_DI_COUNT ≠ regKey 0 o) : DiKept n c s (s.wr g o v) :=
  ⟨rfl, rfl, fun g' => (State.rd_wr _ _ _ _ _ _).trans (if_neg (regKey_ne_of_off h _ _))⟩
theorem rise (s : State) (r : Option Int) : DiKept n c s (s.setChan n c { s.chan n c with rise := r }) :=
  ⟨by simp, by simp, fun _ => State.rd_setChan ..⟩
theorem hist (s : State) (l : List (Int × Nat × Nat)) : DiKept n c s (s.setChan n c { s.chan n c with hist := l }) :=
  ⟨by simp, by simp, fun _ => State.rd_setChan ..⟩

end DiKept

theorem State.diRecord_kept' (s : State) (n c : Nat) (u : Int) (l g e : Bool) : DiKept n c s (s.diRecord n c u l g e) := by
  unfold State.diRecord
  dsimp only
  split
  · exact .of_recKept (State.recBatch_recKept ..)
  · exact .refl s
theorem State.diCapture_kept' (s : State) (n c : Nat) (u : Int) (l g : Bool) : DiKept n c s (s.diCapture n c u l g) := by
  unfold State.diCapture
  dsimp only
  split
  · exact .rise ..
  · split
    · split
      · exact (DiKept.wr s _ _ _ (by decide)).trans (DiKept.rise ..)
      · exact .wr _ _ _ _ (by decide)
    · split
      · exact .rise ..
      · exact .refl s
theorem State.diNote_kept' (s : State) (n c : Nat) (u : Int) : DiKept n c s (s.diNote n c u) := DiKept.hist ..

/-- A field that is a whole register: its count by 1. -/
theorem State.rd_addWrap_word (s : State) (g o : Nat) : (s.addWrap g ⟨o, 0, 32⟩ 1).rd g o = s.rd g o + 1 := by
  have hget (x : Word) : (⟨o, 0, 32⟩ : Fld).get x = x.toNat := by
    simp [Fld.get, Nat.mod_eq_of_lt x.isLt]
  have h := State.fg_addWrap s g (f := ⟨o, 0, 32⟩) 1 (show 0 + 32 ≤ 32 by decide)
  simp only [State.fg, hget] at h
  exact BitVec.eq_of_toNat_eq (by rw [h, BitVec.toNat_add]; rfl)

theorem State.diAccept_spec (s : State) (n c : Nat) (u i : Int) (l g : Bool) :
    ((s.diAccept n c u i l g).chan n c).acc = some l ∧ ((s.diAccept n c u i l g).chan n c).deb = none ∧
      (s.diSelects (s.enOf n c) l = true → (s.diAccept n c u i l g).rd (s.enOf n c) EN_DI_COUNT = s.rd (s.enOf n c) EN_DI_COUNT + 1) ∧
      (s.diSelects (s.enOf n c) l = false → (s.diAccept n c u i l g).rd (s.enOf n c) EN_DI_COUNT = s.rd (s.enOf n c) EN_DI_COUNT) := by
  have hsel : (s.setChan n c { s.chan n c with acc := some l, deb := none }).diSelects (s.enOf n c) l = s.diSelects (s.enOf n c) l := rfl
  have htail (t : State) : DiKept n c t ((t.diCapture n c u l g).diNote n c i) := (State.diCapture_kept' ..).trans (State.diNote_kept' ..)
  unfold State.diAccept
  dsimp only
  rw [hsel]
  cases h : s.diSelects (s.enOf n c) l
  · rw [if_neg (by simp)]
    have k := htail (s.setChan n c { s.chan n c with acc := some l, deb := none })
    refine ⟨k.acc.trans ?_, k.deb.trans ?_, nofun, fun _ => (k.count _).trans (State.rd_setChan ..)⟩ <;> simp
  · rw [if_pos rfl]
    have hcount : ((s.setChan n c { s.chan n c with acc := some l, deb := none }).addWrap (s.enOf n c) EN_DI_COUNT_COUNT 1).rd (s.enOf n c) EN_DI_COUNT =
        s.rd (s.enOf n c) EN_DI_COUNT + 1 := (State.rd_addWrap_word _ _ _).trans (congrArg (· + 1) (State.rd_setChan ..))
    have hchan : ((s.setChan n c { s.chan n c with acc := some l, deb := none }).addWrap (s.enOf n c) EN_DI_COUNT_COUNT 1).chan n c =
        { s.chan n c with acc := some l, deb := none } := State.chan_setChan ..
    generalize (s.setChan n c { s.chan n c with acc := some l, deb := none }).addWrap (s.enOf n c) EN_DI_COUNT_COUNT 1 = t at hcount hchan ⊢
    have k := (State.diRecord_kept' t n c u l g false).trans (htail _)
    exact ⟨k.acc.trans (by rw [hchan]), k.deb.trans (by rw [hchan]), fun _ => (k.count _).trans hcount, nofun⟩

/-! ### DI_OUT (R278) -/

/-- DI_OUT of a DISC engine stores its two fields. -/
theorem State.plain_diOut {s : State} {g : Nat} (hk : kindOf g = some .en) (hm : s.enMode g = 4) (pre : Bool) (v : Word) :
    s.plain pre g DI_OUT v = (s.wr g DI_OUT (blend 3 v (s.rd g DI_OUT))).mirrorCfg 0 g DI_OUT v := by
  have hrow : rowOf g DI_OUT = none := by
    unfold rowOf; rw [hk]; rfl
  have hmode : s.fg g EN_MODE_MODE = 4 := hm
  have hrowAt : s.rowAt g DI_OUT = Sys2Proof.Machine.rowAt (modeRows 4) DI_OUT := by
    unfold State.rowAt; rw [hrow, hmode]; exact if_pos hk
  have hadj : s.adjust g DI_OUT v = v := by
    unfold State.adjust; rw [hk]
  unfold State.plain
  rw [hrowAt, hadj, show Sys2Proof.Machine.rowAt (modeRows 4) DI_OUT = some ⟨DI_OUT, 1, 4, 1, 0, 3, 0, 0, 0, 0, 0⟩ from rfl]
  have hsame : (blend 3 v (s.rd g DI_OUT) &&& ~~~ (v &&& BitVec.ofNat 32 0)) ||| (v &&& BitVec.ofNat 32 0) = blend 3 v (s.rd g DI_OUT) := by
    rw [show v &&& BitVec.ofNat 32 0 = 0#32 from BitVec.and_zero]
    exact BitVec.or_zero.trans BitVec.and_allOnes
  simp only [State.raiseIf, ne_eq, not_true_eq_false, decide_false, Bool.and_false, Bool.false_and, Bool.false_eq_true, if_false, true_or, if_true,
    or_self, Nat.or_zero]
  rw [hsame]


/-- A plain write leaves the channels, and every register but its own and the events. -/
theorem State.plain_beside (s : State) (pre : Bool) (g off : Nat) (v : Word) : (s.plain pre g off v).chans = s.chans ∧
    ∀ p o, regKey 0 o ≠ regKey 0 EVT_STATUS → regKey 0 o ≠ regKey 0 off → (s.plain pre g off v).rd p o = s.rd p o := by
  have hraise (t : State) (e f : Bool) (p o : Nat) (ho : regKey 0 o ≠ regKey 0 EVT_STATUS) :
      ((t.raiseIf e g EV_LOCKED_WRITE).raiseIf f g EV_SHADOW_BUSY).rd p o = t.rd p o :=
    ((RegsHold.raiseIf ..).trans (RegsHold.raiseIf ..)).rd p o ho
  unfold State.plain
  split
  · exact ⟨rfl, fun _ _ _ _ => rfl⟩
  · dsimp only
    refine ⟨?_, fun p o ho hoff => ?_⟩
    · split <;> split <;> simp
    · have hwr (a : Word) : (s.wr g off a).rd p o = s.rd p o := by rw [State.rd_wr, if_neg (regKey_ne_of_off hoff _ _)]
      split <;> split <;> simp only [State.rd_mirrorCfg, hraise _ _ _ _ _ ho, State.rd_wrSh, hwr]

theorem blend_diOut (v old : Word) : DI_OUT_LEVEL.get (blend 3 v old) = DI_OUT_LEVEL.get v ∧ DI_OUT_EN.get (blend 3 v old) = DI_OUT_EN.get v := by
  have hbit (i : Nat) (hi : i < 2) : (blend 3 v old).getLsbD i = v.getLsbD i := by
    have hmask : (BitVec.ofNat 32 3).getLsbD i = true ∧ (~~~ BitVec.ofNat 32 3).getLsbD i = false := by revert i; decide
    unfold blend
    rw [BitVec.getLsbD_or, BitVec.getLsbD_and, BitVec.getLsbD_and, hmask.1, hmask.2, Bool.and_false, Bool.and_true, Bool.false_or]
  have hget (x : Word) (i : Nat) (o : Nat) : (⟨o, i, 1⟩ : Fld).get x = bit (x.getLsbD i) := by
    unfold Fld.get bit
    rw [← BitVec.testBit_toNat, Nat.testBit_eq_decide_div_mod_eq, Nat.shiftRight_eq_div_pow]
    obtain h | h := Nat.mod_two_eq_zero_or_one (x.toNat / 2 ^ i) <;> simp [h]
  exact ⟨by simp only [DI_OUT_LEVEL, hget, hbit 0 (by decide)], by simp only [DI_OUT_EN, hget, hbit 1 (by decide)]⟩


/-! ### An engine seen after an access has ended its initiator's packed group -/

theorem ecPage_ne_scan (n : Nat) : ecPage n ≠ 0x01C := by unfold ecPage; omega
theorem clPage_ne_scan (n : Nat) : clPage n ≠ 0x01C := by unfold clPage; omega
theorem enReg_ne_scan (s : State) (e : Engine) : s.enReg e ≠ 0x01C := fun h => absurd (kindOf_enReg s e) (by rw [h]; decide)
theorem enOf_ne_scan (s : State) (n c : Nat) : s.enOf n c ≠ 0x01C := by unfold State.enOf enPage; omega

section
variable (s : State) (who : Initiator) (r : Bool)

theorem State.engPos_touch (n c : Nat) : (s.touch who r).engPos n c = s.engPos n c := by
  have hmap (c : Nat) : (s.touch who r).mapPos n c = s.mapPos n c := by
    unfold State.mapPos
    rw [State.rd_touch_page s who r _ (ecPage_ne_scan n)]
  unfold State.engPos
  rw [hmap c, hmap (c - 1)]
theorem State.enOf_touch (n c : Nat) : (s.touch who r).enOf n c = s.enOf n c := by unfold State.enOf; rw [State.engPos_touch]
theorem State.servedBy_touch (n pos : Nat) : (s.touch who r).servedBy n pos = s.servedBy n pos := by
  unfold State.servedBy
  simp only [State.engPos_touch]
theorem State.enReg_touch (e : Engine) : (s.touch who r).enReg e = s.enReg e := by
  unfold State.enReg State.enAlias
  simp only [State.fb_touch_page s who r _ (ecPage_ne_scan _), State.fg_touch_page s who r _ (ecPage_ne_scan _)]
theorem State.enMode_touch {g : Nat} (h : g ≠ 0x01C) : (s.touch who r).enMode g = s.enMode g := State.fg_touch_page s who r _ h
theorem State.enRuns_touch {g : Nat} (h : g ≠ 0x01C) : (s.touch who r).enRuns g = s.enRuns g := by
  simp only [State.enRuns, State.running, State.ready, State.fb_touch_page s who r _ h]
theorem State.earliest_touch (n : Nat) : (s.touch who r).earliest n = s.earliest n := by
  simp only [State.earliest, State.now, State.delayU, State.touch_lc, State.fg_touch_page s who r _ (clPage_ne_scan n)]
theorem State.syFirst_touch {g : Nat} (h : g ≠ 0x01C) (n : Nat) : (s.touch who r).syFirst n g = s.syFirst n g := by
  simp only [State.syFirst, State.syH, State.earliest_touch, State.fg_touch_page s who r _ h]
theorem State.syClock_touch {g : Nat} (h : g ≠ 0x01C) (t0 : Int) : (s.touch who r).syClock g t0 = s.syClock g t0 := by
  simp only [State.syClock, State.syL, State.syP, State.syH, State.fb_touch_page s who r _ h, State.fg_touch_page s who r _ h]
theorem State.pitchHeld_touch {n : Nat} (h : 0x050 + n ≠ 0x01C) : (s.touch who r).pitchHeld n = s.pitchHeld n := by
  simp only [State.pitchHeld, State.redundant, State.touch_tw, State.fb_touch_page s who r _ h,
    State.fb_touch_page s who r _ (show (0 : Nat) ≠ 0x01C by decide)]
theorem State.txHeld_touch (n c : Nat) : (s.touch who r).txHeld n c = s.txHeld n c := by
  simp only [State.txHeld, State.commitPending, State.enOf_touch, State.touch_stopping, State.chan_touch, State.fb_touch_page s who r _ (enOf_ne_scan s n c),
    State.pitchHeld_touch s who r (show 0x050 + n ≠ 0x01C by omega)]

end

/-- SY_CMD with GO runs on the engine's channel. -/
theorem State.syCmdWrite_go {s : State} {g c : Nat} (hc : s.servedBy (enCluster g) (enPos g) = some c) (hm : s.enMode g = 3)
    (ht : s.fg g SY_CFG_TRIG = 0) (hr : s.enRuns g = true) : s.syCmdWrite g 1 = s.syStart (enCluster g) c (s.syFirst (enCluster g) g) := by
  unfold State.syCmdWrite
  rw [hc]
  exact if_pos (by simp [hm, ht, hr]; decide)
theorem State.syCmdWrite_idle {s : State} {g : Nat} (h : s.enMode g ≠ 3 ∨ s.fg g SY_CFG_TRIG ≠ 0 ∨ s.enRuns g = false) (v : Word) :
    s.syCmdWrite g v = s := by
  unfold State.syCmdWrite
  split
  · rfl
  · exact if_neg (by rcases h with h | h | h <;> simp [h])


/-! ### Transmission of a character (R267) -/

theorem exec_asyncTxStart {s : State} {pitch : Pitch} {chan : Channel} {item : Int × List Byte} {rest : List (Int × List Byte)}
    (hf : (s.chan pitch.val chan.val).fifo = item :: rest) (hm : s.enMode (s.enOf pitch.val chan.val) = 1)
    (hr : s.enRuns (s.enOf pitch.val chan.val) = true) (hh : s.txHeld pitch.val chan.val = false) :
    let n := pitch.val
    let c := chan.val
    let g := s.enOf n c
    let x := s.chan n c
    let half := s.fb g AS_CFG_DUPLEX
    let free := max (s.earliest n) (x.txEnd.getD (s.earliest n))
    let lead := half && !x.de
    let start := if lead then free + nsU * (s.fg g AS_DE_DE_LEAD : Int) else free
    let rise : List Place := if lead then [⟨free, s.mark g, true⟩] else []
    exec (.asyncTxStart pitch chan) s = .next ((s.fifoPop n c).setChan n c
      { x with
        fifo := rest
        taken := x.taken + 1
        due := x.due ++ rise ++ s.asEdges g (leAt item.2 0 2 % 512) start
        txEnd := some (start + s.asChar g)
        de := half
        deFrom := if lead then some free else x.deFrom
        deaf := if lead then none else x.deaf }) := by
  have hpop := State.fifoPop_chan s pitch.val chan.val
  rw [hf] at hpop
  refine congrArg Host.Outcome.next ?_
  dsimp only
  rw [hf]
  dsimp only
  rw [if_neg (by simp [hm, hr, hh]), hpop]
  rfl

/-! ### A SYNC transfer ends (R270, R272) -/

/-- The transfer's end without its record: the sample shown and counted. -/
def State.sySampled (s : State) (n c : Nat) (t0 : Int) (v : Nat) : State :=
  (((s.setChan n c { s.chan n c with xfer := none }).enCnt (s.enOf n c) 0).wr (s.enOf n c) SY_LAST
    (SY_LAST_OK.set 1 (SY_LAST_SAMPLE.set v 0))).syNote n c t0 v

theorem exec_syncTransferEnd {s : State} {pitch : Pitch} {chan : Channel} {y : Xfer} {v : Nat} (hx : (s.chan pitch.val chan.val).xfer = some y)
    (hm : s.enMode (s.enOf pitch.val chan.val) = 3) (hw : s.fg (s.enOf pitch.val chan.val) SY_CFG_WIDTH ≤ y.i)
    (hv : v = sySample (s.fb (s.enOf pitch.val chan.val) SY_CFG_SIGN) (s.fg (s.enOf pitch.val chan.val) SY_CFG_WIDTH) y.bits) :
    exec (.syncTransferEnd pitch chan) s = .next (if s.fb (s.enOf pitch.val chan.val) EN_RXDST_RX_EN
      then (s.sySampled pitch.val chan.val y.t0 v).recBatch pitch.val chan.val 3 y.t0 (leBytes v 3 ++ [0] ++ leBytes 0 4)
      else s.sySampled pitch.val chan.val y.t0 v) := by
  refine congrArg Host.Outcome.next ?_
  dsimp only
  rw [hx]
  dsimp only
  rw [if_neg (by simp [hm, hw]), hv]
  cases s.fb (s.enOf pitch.val chan.val) EN_RXDST_RX_EN <;> rfl

theorem State.syNote_chan (s : State) (n c : Nat) (t0 : Int) (v : Nat) : ∃ l, (s.syNote n c t0 v).chan n c = { s.chan n c with hist := l } :=
  ⟨_, State.chan_setChan ..⟩
theorem State.sySampled_chan (s : State) (n c : Nat) (t0 : Int) (v : Nat) :
    ∃ l, (s.sySampled n c t0 v).chan n c = { s.chan n c with xfer := none, hist := l } := by
  obtain ⟨l, h⟩ := State.syNote_chan (((s.setChan n c { s.chan n c with xfer := none }).enCnt (s.enOf n c) 0).wr (s.enOf n c) SY_LAST
    (SY_LAST_OK.set 1 (SY_LAST_SAMPLE.set v 0))) n c t0 v
  rw [State.chan_wr, State.chan_enCnt, State.chan_setChan] at h
  exact ⟨l, h⟩
theorem State.rd_sySampled (s : State) (n c : Nat) (t0 : Int) (v : Nat) {p o : Nat} (ho : regKey 0 o ≠ regKey 0 EVT_STATUS)
    (hc : regKey 0 o ≠ regKey 0 (EN_CNT_COUNT.at (4 * 0)).off) (hl : regKey 0 o ≠ regKey 0 SY_LAST) :
    (s.sySampled n c t0 v).rd p o = s.rd p o := by
  refine (State.rd_setChan ..).trans ((State.rd_wr ..).trans ((if_neg (regKey_ne_of_off hl _ _)).trans ?_))
  exact (State.rd_enCnt _ _ ho hc).trans (State.rd_setChan ..)
theorem State.sySampled_last (s : State) (n c : Nat) (t0 : Int) (v : Nat) :
    (s.sySampled n c t0 v).rd (s.enOf n c) SY_LAST = SY_LAST_OK.set 1 (SY_LAST_SAMPLE.set v 0) :=
  (State.rd_setChan ..).trans (State.rd_wr_same ..)
theorem State.sySampled_count (s : State) (n c : Nat) (t0 : Int) (v : Nat) :
    (s.sySampled n c t0 v).fg (s.enOf n c) (EN_CNT_COUNT.at 0) = min (s.fg (s.enOf n c) (EN_CNT_COUNT.at 0) + 1) (2 ^ EN_CNT_COUNT.w - 1) := by
  refine (State.fg_setChan ..).trans ((State.fg_wr_off _ _ _ (by decide)).trans ((State.fg_enCnt _ _ (i := 0) (by decide)).trans ?_))
  rw [State.fg_setChan]

/-- An item that opens a record which does not close with it. -/
theorem State.recBatch_opens {s : State} {n c : Nat} (hb : (s.chan n c).buf = none) (hn : 1 < s.fg (s.enOf n c) EN_REC_BATCH)
    (hf : s.fg (s.enOf n c) EN_REC_FLUSH ≠ 0) (ty : Nat) (u : Int) (i : List Byte) :
    ((s.recBatch n c ty u i).chan n c).buf = some { rtype := ty, flags := 0, items := [(u, i)] } := by
  have hadd : ((s.recAdd n c ty 0 u i).chan n c).buf = some { rtype := ty, flags := 0, items := [(u, i)] } := by
    unfold State.recAdd
    dsimp only
    rw [hb]
    exact congrArg Chan.buf (State.chan_setChan ..)
  unfold State.recBatch
  rw [hb]
  dsimp only
  rw [if_neg Bool.false_ne_true, if_neg]
  · exact hadd
  · simp [State.recLen, hadd, hf, hn]

/-! ### The take of the count, and DI_OUT's placing (R275, R278) -/

theorem State.diCountTake_spec (s : State) (g : Nat) :
    (s.diCountTake g).2 = s.rd g EN_DI_COUNT ∧ (s.diCountTake g).1.rd g EN_DI_COUNT = 0 ∧
      (s.enMode g = 4 → (s.diCountTake g).1.fg g DI_CFG_UNSURE = 0) ∧
      onlyRegs [(g, EN_DI_COUNT), (g, DI_CFG)] s (s.diCountTake g).1 := by
  have hmode : (s.wr g EN_DI_COUNT 0).enMode g = s.enMode g := State.fg_wr_off _ _ _ (by decide)
  have hcount : onlyRegs [(g, EN_DI_COUNT), (g, DI_CFG)] s (s.wr g EN_DI_COUNT 0) := (onlyRegs.refl _ s).wr (by decide) (by simp)
  unfold State.diCountTake
  dsimp only
  split
  next h => exact ⟨rfl, State.rd_wr_same .., fun h4 => absurd h4 h, hcount⟩
  next h =>
    have hunsure : onlyRegs [(g, EN_DI_COUNT), (g, DI_CFG)] s ((s.wr g EN_DI_COUNT 0).fs g DI_CFG_UNSURE 0) := hcount.fs (by decide) (by simp; decide)
    have hzero : ((s.wr g EN_DI_COUNT 0).fs g DI_CFG_UNSURE 0).rd g EN_DI_COUNT = 0 := (State.rd_fs_off _ _ _ (by decide)).trans (State.rd_wr_same ..)
    have hflag : ((s.wr g EN_DI_COUNT 0).fs g DI_CFG_UNSURE 0).fg g DI_CFG_UNSURE = 0 := State.fg_fs _ _ _ _ (by decide)
    split
    · exact ⟨rfl, (State.rd_setChan ..).trans hzero, fun _ => (State.fg_setChan ..).trans hflag, hunsure.of_regs (State.setChan_regs ..)⟩
    · exact ⟨rfl, hzero, fun _ => hflag, hunsure⟩

section
variable {s : State} {g : Nat} {v : Word} {pre : Bool} (hk : kindOf g = some .en)
include hk

theorem State.diOut_places (hm : s.enMode g = 4) (hr : s.enRuns g = true) (ho : s.fg g DI_CFG_OUTMODE = 0) (hsrc : s.fb g DI_CFG_OUTSRC = false)
    {c : Nat} (hc : s.servedBy (enCluster g) (enPos g) = some c) :
    ((s.diOut pre g v).chan (enCluster g) c).due = (s.chan (enCluster g) c).due ++
        [⟨s.earliest (enCluster g), (s.diOut pre g v).fb g DI_OUT_LEVEL, (s.diOut pre g v).fb g DI_OUT_EN⟩] ∧
      (s.diOut pre g v).fg g DI_OUT_LEVEL = DI_OUT_LEVEL.get v ∧ (s.diOut pre g v).fg g DI_OUT_EN = DI_OUT_EN.get v := by
  have hplain := State.plain_diOut hk hm pre v
  have hrd (p o : Nat) (ho : regKey 0 o ≠ regKey 0 DI_OUT) : (s.plain pre g DI_OUT v).rd p o = s.rd p o := by
    rw [hplain, State.rd_mirrorCfg, State.rd_wr, if_neg (regKey_ne_of_off ho _ _)]
  have hout (f : Fld) (hf : DI_OUT = f.off) : (s.plain pre g DI_OUT v).fg g f = f.get (blend 3 v (s.rd g DI_OUT)) := by
    rw [hplain, State.fg_mirrorCfg, State.fg_wr_get _ _ _ hf]
  have hserved : (s.plain pre g DI_OUT v).servedBy (enCluster g) (enPos g) = some c :=
    (State.servedBy_of_map (hrd _ _ (by decide)) _).trans hc
  have hchan : (s.plain pre g DI_OUT v).chan (enCluster g) c = s.chan (enCluster g) c := State.chan_of_chans (by rw [hplain]; simp) ..
  have hlc : (s.plain pre g DI_OUT v).lc = s.lc := by rw [hplain]; simp
  unfold State.diOut
  dsimp only
  generalize s.plain pre g DI_OUT v = t at hrd hout hserved hchan hlc ⊢
  have hheld (p : Nat) (f : Fld) (hf : regKey 0 f.off ≠ regKey 0 DI_OUT) : t.fg p f = s.fg p f := by simp only [State.fg, hrd p f.off hf]
  have hearliest : t.earliest (enCluster g) = s.earliest (enCluster g) := by
    simp only [State.earliest, State.now, State.delayU, hlc, hheld _ CL_LOOP_LOOP (by decide)]
  rw [hserved]
  dsimp only
  rw [if_pos]
  · unfold State.place
    simp only [State.chan_setChan, State.fb, State.fg_setChan, hchan, hearliest]
    exact ⟨trivial, (hout _ rfl).trans (blend_diOut ..).1, (hout _ rfl).trans (blend_diOut ..).2⟩
  · have hm' : t.enMode g = 4 := (hheld g EN_MODE_MODE (by decide)).trans hm
    have hr' : t.enRuns g = true := by
      simpa only [State.enRuns, State.running, State.ready, State.fb, hheld g PAGE_STATE_RUNNING (by decide), hheld g PAGE_STATE_READY (by decide)] using hr
    have hsrc' : t.fb g DI_CFG_OUTSRC = false := by simpa only [State.fb, hheld g DI_CFG_OUTSRC (by decide)] using hsrc
    simp [hm', hr', hsrc', (hheld g DI_CFG_OUTMODE (by decide)).trans ho]
theorem State.diOut_idle (h : s.enMode g ≠ 4 ∨ s.enRuns g = false ∨ s.fg g DI_CFG_OUTMODE ≠ 0 ∨ s.fb g DI_CFG_OUTSRC = true) :
    (s.diOut pre g v).chans = s.chans := by
  obtain ⟨hchans, hheld⟩ := State.plain_beside s pre g DI_OUT v
  unfold State.diOut
  dsimp only
  generalize s.plain pre g DI_OUT v = t at hchans hheld ⊢
  split
  · exact hchans
  · rw [if_neg]
    · exact hchans
    · have hfg (f : Fld) (he : regKey 0 f.off ≠ regKey 0 EVT_STATUS) (hf : regKey 0 f.off ≠ regKey 0 DI_OUT) : t.fg g f = s.fg g f := by
        simp only [State.fg, hheld g f.off he hf]
      have hmode : t.enMode g = s.enMode g := hfg EN_MODE_MODE (by decide) (by decide)
      have hruns : t.enRuns g = s.enRuns g := by
        simp only [State.enRuns, State.running, State.ready, State.fb, hfg PAGE_STATE_RUNNING (by decide) (by decide), hfg PAGE_STATE_READY (by decide) (by decide)]
      have hsrc : t.fb g DI_CFG_OUTSRC = s.fb g DI_CFG_OUTSRC := by simp only [State.fb, hfg DI_CFG_OUTSRC (by decide) (by decide)]
      rw [hmode, hruns, hfg DI_CFG_OUTMODE (by decide) (by decide), hsrc]
      rcases h with h | h | h | h <;> simp [h]

end

/-! ### Scheduled items (R279) -/

theorem exec_discSchedItem {s : State} {pitch : Pitch} {chan : Channel} {u : Int} {item : List Byte} {rest : List (Int × List Byte)}
    (hf : (s.chan pitch.val chan.val).fifo = (u, item) :: rest) (hm : s.enMode (s.enOf pitch.val chan.val) = 4)
    (hr : s.enRuns (s.enOf pitch.val chan.val) = true) (ho : s.fg (s.enOf pitch.val chan.val) DI_CFG_OUTMODE = 2) :
    let n := pitch.val
    let c := chan.val
    let s1 := s.fifoPop n c
    exec (.discSchedItem pitch chan) s = .next (
      if s.clState n ≠ 5 then (if u ≤ s.now then s.schedLate n c else s)
      else if u < s.earliest n then s.schedLate n c
      else if (s.chan n c).lastItem.all (fun l => l + 2560 ≤ u) = false then s1.enCnt (s.enOf n c) 2
      else s1.setChan n c { s1.chan n c with
        due := (s1.chan n c).due ++ [⟨u, nbit (leAt item 6 1) 0, nbit (leAt item 6 1) 1⟩]
        lastItem := some u }) := by
  refine congrArg Host.Outcome.next ?_
  dsimp only
  rw [hf]
  dsimp only
  rw [if_neg (by simp [hm, hr, ho])]
  refine if_congr Iff.rfl rfl (if_congr Iff.rfl rfl (if_congr ?_ rfl rfl))
  cases (s.chan pitch.val chan.val).lastItem with
  | none => simp
  | some l => simp only [nsU, Option.all_some, decide_eq_false_iff_not, Int.not_le]; exact decide_eq_true_iff

theorem State.schedLate_spec {s : State} {n c : Nat} {x : Int × List Byte} {rest : List (Int × List Byte)} (hf : (s.chan n c).fifo = x :: rest) :
    ((s.schedLate n c).chan n c).fifo = rest ∧ ((s.schedLate n c).chan n c).due = (s.chan n c).due ∧
      (s.schedLate n c).event (s.enOf n c) EV_EN_SCHED_LATE = true ∧
      (s.schedLate n c).fg (s.enOf n c) (EN_CNT_COUNT.at 4) = min (s.fg (s.enOf n c) (EN_CNT_COUNT.at 4) + 1) (2 ^ EN_CNT_COUNT.w - 1) := by
  have hpop := State.fifoPop_chan s n c
  rw [hf] at hpop
  unfold State.schedLate
  dsimp only
  refine ⟨by rw [State.chan_raise, State.chan_enCnt, hpop]; rfl, by rw [State.chan_raise, State.chan_enCnt, hpop], State.event_raise _ _ (by decide), ?_⟩
  rw [State.fg_raise_off _ _ (by decide)]
  refine (State.fg_enCnt _ _ (i := 1) (by decide)).trans ?_
  rw [(State.fifoPop_hold ..).fg _ (by decide)]

/-- Settles O48. -/
theorem modeCommands : Obligations.ModeCommands := by
  refine ⟨?_, ?_, ?_, ?_, ?_, ?_, ?_, ?_, ?_, ?_, ?_, ?_, ?_, ?_, ?_, ?_, ?_, ?_, ?_, ?_, ?_, ?_⟩
  · intro s pitch chan b hm hrx hbuf
    refine ⟨_, congrArg Host.Outcome.next (if_neg (by simp [hm, hrx])), ?_, ?_, ?_, ?_⟩
    · simp [State.recClose_buf]
    · intro hh hr
      rw [State.setChan_ingress, State.recClose_sent hbuf 4 hh hr]
      rfl
    · intro hh hr
      rw [State.recClose_dropped hbuf 4 hh hr]
      exact State.event_raise _ _ (by decide)
    · intro hh
      obtain ⟨hregs, hrecs⟩ := State.recClose_held hbuf 4 hh
      exact ⟨by simpa using hrecs, by simpa using hregs⟩
  · intro s pitch chan hm hrx hbuf
    refine ⟨_, congrArg Host.Outcome.next (if_neg (by simp [hm, hrx])), ?_⟩
    rw [State.recClose_none hbuf]
  · intro s pitch chan h
    exact ⟨_, congrArg Host.Outcome.next (if_pos (by rwa [← Option.ne_none_iff_isSome])), rfl⟩
  · intro s pitch chan u item rest f hm hr hh hf hfree
    refine ⟨_, exec_asyncTxStart hf hm hr hh, ?_, ?_, ?_, onlyRegs.of_regs (State.fifoPop_onlyRegs s _ _) (State.setChan_regs ..)⟩
    · rw [State.chan_setChan]
    · intro hlead
      have hlead : (s.fb (s.enOf pitch.val chan.val) AS_CFG_DUPLEX && !(s.chan pitch.val chan.val).de) = false := by
        rcases hlead with h | h <;> simp [h]
      simp [State.chan_setChan, hlead, hfree]
    · intro hhalf hde
      simp [State.chan_setChan, hhalf, hde, hfree, nsU]
  · intro s pitch chan h
    refine ⟨_, rfl, ?_⟩
    dsimp only
    cases hf : (s.chan pitch.val chan.val).fifo with
    | nil => rfl
    | cons x xs => exact if_pos (by simpa [hf] using h)
  · intro s pitch chan hm hd hf
    refine ⟨_, congrArg Host.Outcome.next (if_neg (by simp [hm, hd, hf])), ?_, ?_, State.setChan_regs ..⟩ <;> simp [nsU]
  · intro s pitch chan h
    exact ⟨_, congrArg Host.Outcome.next (if_pos (by simpa using h)), rfl⟩
  · intro s who engine c hacc hm hc ht hr hen
    have hg := enReg_ne_scan s engine
    refine completes_write rfl hacc ?_
    beta_reduce
    rw [State.enReg_touch, State.enMode_touch s who _ hg, if_pos hm, State.syCmdWrite_go (c := c) ((State.servedBy_touch ..).trans hc)
      ((State.enMode_touch s who _ hg).trans hm) ((State.fg_touch_page s who _ _ hg).trans ht) ((State.enRuns_touch s who _ hg).trans hr),
      State.syFirst_touch s who _ hg]
    generalize s.syFirst (enCluster (s.enReg engine)) (s.enReg engine) = t0
    refine ⟨fun hx hok hh => ?_, fun hx hok hh => ?_, fun h => ?_, State.ansOf_answer ..⟩
    · obtain ⟨hxfer, hdue, -⟩ := State.syStart_starts (s := s.touch who false) (n := enCluster (s.enReg engine)) (c := c) (t0 := t0)
        (by rwa [State.chan_touch]) (by rwa [State.chan_touch]) (by rwa [State.txHeld_touch])
      rw [State.chan_answer, hxfer, hdue, State.chan_touch, State.enOf_touch, hen, State.syClock_touch s who _ hg]
      exact ⟨rfl, rfl⟩
    · rw [State.answer_chans, State.syStart_held (by rwa [State.chan_touch]) (by rwa [State.chan_touch]) (by rwa [State.txHeld_touch]), State.touch_chans]
    · rw [State.answer_chans, State.fg_answer, State.syStart_skipped (by rwa [State.chan_touch]), State.enCnt_chans, State.touch_chans, State.enOf_touch, hen]
      refine ⟨rfl, (State.fg_enCnt _ _ (i := 2) (by decide)).trans ?_⟩
      rw [State.fg_touch_page s who _ _ hg]
  · intro s who engine hacc h
    have hg := enReg_ne_scan s engine
    have hidle : (s.touch who false).syCmdWrite (s.enReg engine) 1 = s.touch who false := by
      refine State.syCmdWrite_idle ?_ 1
      rwa [State.enMode_touch s who _ hg, State.fg_touch_page s who _ _ hg, State.enRuns_touch s who _ hg]
    refine completes_write rfl hacc ?_
    beta_reduce
    rw [State.enReg_touch, hidle, ite_self]
    exact ⟨⟨State.touch_chans .., State.ansOf_answer ..⟩, (State.touch_onlyRegs s who false).of_regs (State.answer_regs ..)⟩
  · intro s pitch chan hm ht hr
    refine ⟨_, congrArg Host.Outcome.next (if_pos (by simp [hm, ht, hr])), fun hx hok hh => State.syStart_starts hx hok hh,
      fun hx hok hh => State.syStart_held hx hok hh, fun h => ?_⟩
    rw [State.syStart_skipped h]
    exact ⟨State.fg_enCnt _ _ (i := 2) (by decide), State.enCnt_chans ..⟩
  · intro s pitch chan h
    exact ⟨_, congrArg Host.Outcome.next (if_neg (by rcases h with h | h | h <;> simp [h])), rfl⟩
  · intro s pitch chan y a hm hx hw ha
    obtain ⟨l, hchan⟩ := State.sySampled_chan s pitch.val chan.val y.t0 a
    have hlast := State.sySampled_last s pitch.val chan.val y.t0 a
    have hcount := State.sySampled_count s pitch.val chan.val y.t0 a
    have hrd (f : Fld) (ho : regKey 0 f.off ≠ regKey 0 EVT_STATUS) (hc : regKey 0 f.off ≠ regKey 0 (EN_CNT_COUNT.at (4 * 0)).off)
        (hl : regKey 0 f.off ≠ regKey 0 SY_LAST) (p : Nat) : (s.sySampled pitch.val chan.val y.t0 a).fg p f = s.fg p f := by
      simp only [State.fg, State.rd_sySampled s pitch.val chan.val y.t0 a ho hc hl]
    refine ⟨_, exec_syncTransferEnd hx hm hw ha, ?_⟩
    cases hrx : s.fb (s.enOf pitch.val chan.val) EN_RXDST_RX_EN
    · rw [if_neg (by simp)]
      exact ⟨by rw [hchan], hlast, hcount, nofun, fun _ => by rw [hchan]⟩
    · rw [if_pos rfl]
      obtain ⟨⟨b, r, u, hrec⟩, hold⟩ := State.recBatch_recKept (s.sySampled pitch.val chan.val y.t0 a) pitch.val chan.val 3 y.t0
        (leBytes a 3 ++ [0] ++ leBytes 0 4)
      have hen : (s.sySampled pitch.val chan.val y.t0 a).enOf pitch.val chan.val = s.enOf pitch.val chan.val :=
        State.enOf_of_map (State.rd_sySampled _ _ _ _ _ (by decide) (by decide) (by decide)) _
      refine ⟨by rw [hrec, hchan], (hold.rd _ _ (by decide)).trans hlast, (hold.fg _ (by decide)).trans hcount, fun _ hb hn hf => ?_, nofun⟩
      refine State.recBatch_opens (by rw [hchan]; exact hb) ?_ ?_ ..
      · rwa [hen, hrd _ (by decide) (by decide) (by decide)]
      · rwa [hen, hrd _ (by decide) (by decide) (by decide)]
  · intro s pitch chan h
    refine ⟨_, rfl, ?_⟩
    dsimp only
    cases hx : (s.chan pitch.val chan.val).xfer with
    | none => rfl
    | some y => exact if_pos (h y hx)
  · intro s pitch chan a l hm hd ha
    obtain ⟨hacc, hdeb, hcount⟩ := State.diAccept_spec s pitch.val chan.val a (a + s.diDeb (s.enOf pitch.val chan.val)) l false
    have hmature : s.diMature pitch.val chan.val (s.chan pitch.val chan.val).upto =
        s.diAccept pitch.val chan.val a (a + s.diDeb (s.enOf pitch.val chan.val)) l false := by
      unfold State.diMature
      rw [hd]
      exact if_pos ha
    refine ⟨_, congrArg Host.Outcome.next (if_neg (by simp [hm])), ?_⟩
    rw [hmature]
    exact ⟨hacc, hdeb, hcount⟩
  · intro s pitch chan h
    refine ⟨_, rfl, ?_⟩
    by_cases hm : s.enMode (s.enOf pitch.val chan.val) = 4
    · rw [if_neg (by simp [hm])]
      unfold State.diMature
      dsimp only
      cases hd : (s.chan pitch.val chan.val).deb with
      | none => rfl
      | some d => exact if_neg (Int.not_le.2 ((h d hd).resolve_left (by simp [hm])))
    · exact if_pos hm
  · intro s who engine hreach
    have hg := enReg_ne_scan s engine
    refine completes_read rfl hreach ?_
    beta_reduce
    obtain ⟨hv, hzero, hunsure, honly⟩ := State.diCountTake_spec (s.touch who true) (s.enReg engine)
    rw [State.enMode_touch s who _ hg] at hunsure
    refine ⟨?_, hzero, hunsure, ?_⟩
    · rw [State.ansOf_answer, hv, State.rd_touch_page s who _ _ hg]; rfl
    · exact onlyRegs.of_regs (onlyRegs.mono (onlyRegs.touch honly) (by simp)) (State.answer_regs ..)
  · intro s who engine v c hacc hm hr ho hsrc hcp hc
    have hg := enReg_ne_scan s engine
    refine completes_write rfl hacc ?_
    beta_reduce
    obtain ⟨hdue, hlevel, hen⟩ := State.diOut_places (s := s.touch who false) (v := v) (pre := decide (who = .preload)) (kindOf_enReg s engine)
      ((State.enMode_touch s who _ hg).trans hm) ((State.enRuns_touch s who _ hg).trans hr) ((State.fg_touch_page s who _ _ hg).trans ho)
      ((State.fb_touch_page s who _ _ hg).trans hsrc) ((State.servedBy_touch ..).trans hc)
    rw [State.chan_touch, State.earliest_touch] at hdue
    exact ⟨hdue, hlevel, hen, State.ansOf_answer ..⟩
  · intro s who engine v hacc h
    have hg := enReg_ne_scan s engine
    refine completes_write rfl hacc ⟨?_, State.ansOf_answer ..⟩
    rw [State.answer_chans, State.diOut_idle (kindOf_enReg s engine), State.touch_chans]
    rwa [State.enMode_touch s who _ hg, State.enRuns_touch s who _ hg, State.fg_touch_page s who _ _ hg, State.fb_touch_page s who _ _ hg]
  · intro s pitch chan x per high hm hr ho hx hper hhigh
    refine ⟨_, congrArg Host.Outcome.next (if_pos ⟨hm, hr, ho⟩), ?_⟩
    subst hx hper hhigh
    refine ⟨?_, congrArg Chan.pwmNext (State.chan_setChan ..), State.setChan_regs ..⟩
    refine (congrArg Chan.due (State.chan_setChan ..)).trans ?_
    dsimp only
    congr 2
    split <;> (split <;> simp_all)
  · intro s pitch chan h
    exact ⟨_, congrArg Host.Outcome.next (if_neg (by rcases h with h | h | h <;> simp [h])), rfl⟩
  · intro s pitch chan u item rest hm hr ho hf
    have hexec := exec_discSchedItem hf hm hr ho
    have hpop := State.fifoPop_chan s pitch.val chan.val
    rw [hf] at hpop
    refine ⟨_, hexec, fun hs he hl => ?_, fun hs he hl => ?_, fun h => ?_, fun hs he => ?_⟩
    · rw [if_neg (by simpa using hs), if_neg (by omega), if_neg (by simp [hl]), State.chan_setChan, hpop]
      exact ⟨rfl, rfl, rfl⟩
    · rw [if_neg (by simpa using hs), if_neg (by omega), if_pos hl, State.chan_enCnt, hpop]
      refine ⟨rfl, rfl, (State.fg_enCnt _ _ (i := 2) (by decide)).trans ?_⟩
      rw [(State.fifoPop_hold ..).fg _ (by decide)]
    · have hlate := State.schedLate_spec hf
      obtain ⟨hs, hu⟩ | ⟨hs, hu⟩ := h
      · rw [if_neg (by simpa using hs), if_pos hu]; exact hlate
      · rw [if_pos hs, if_pos hu]; exact hlate
    · rw [if_pos hs, if_neg (by omega)]
  · intro s pitch chan h
    refine ⟨_, rfl, ?_⟩
    dsimp only
    cases hf : (s.chan pitch.val chan.val).fifo with
    | nil => rfl
    | cons x xs => exact if_pos (by rcases h with h | h | h | h <;> simp_all)

end Sys2Proof.Machine
end

section
set_option Elab.async false
namespace Sys2Proof.Machine

/-! ### The commands of PB_CMD (R296, R302) -/

/-- The head message of the FIFO ends: it leaves the FIFO and the attempts begin anew. -/
theorem State.pbEnd_chan (s : State) (n c result : Nat) (sof : Option Int) :
    ((s.pbEnd n c result sof).chan n c).fifo = (s.chan n c).fifo.tail ∧
      ((s.chan n c).fifo ≠ [] → ((s.pbEnd n c result sof).chan n c).attempts = 0) := by
  unfold State.pbEnd
  dsimp only
  cases hf : (s.chan n c).fifo with
  | nil => exact ⟨hf, fun h => absurd rfl h⟩
  | cons x xs =>
    obtain ⟨u, item⟩ := x
    have hpop := State.fifoPop_chan s n c
    rw [hf] at hpop
    dsimp only
    rw [hpop]
    generalize hs2 : (s.fifoPop n c).setChan n c _ = s2
    have hc2 : (s2.chan n c).fifo = xs ∧ (s2.chan n c).attempts = 0 := by
      rw [← hs2, State.chan_setChan]
      exact ⟨rfl, rfl⟩
    have hc3 : ((if result = 2 ∨ result = 4 then s2.enCnt (s.enOf n c) 2 else s2).chan n c) = s2.chan n c := by
      split
      · exact State.chan_enCnt ..
      · rfl
    generalize (if result = 2 ∨ result = 4 then s2.enCnt (s.enOf n c) 2 else s2) = s3 at hc3 ⊢
    rw [← hc3] at hc2
    split
    · obtain ⟨⟨b, r, u, e⟩, -⟩ := State.recBatch_recKept s3 n c 0x12 (sof.getD s3.now)
        ([BitVec.ofNat 8 (itemTag item), BitVec.ofNat 8 result] ++ leBytes ((s.chan n c).attempts + (if result = 0 then 1 else 0)) 2 ++ leBytes 0 4)
      rw [e]
      exact ⟨hc2.1, fun _ => hc2.2⟩
    · exact ⟨hc2.1, fun _ => hc2.2⟩

section
variable {s : State} {g c : Nat} (hc : s.servedBy (enCluster g) (enPos g) = some c)
include hc

theorem State.pbCmdWrite_abort (h : ¬ (s.chan (enCluster g) c).tx.map (·.1) = some none) :
    s.pbCmdWrite g (PB_CMD_ABORT.set 1 0) = s.pbEnd (enCluster g) c 1 none := by
  unfold State.pbCmdWrite
  rw [hc]
  have hset : PB_CMD_ABORT.get (PB_CMD_ABORT.set 1 0) = 1 ∧ ¬ PB_CMD_FLUSH.get (PB_CMD_ABORT.set 1 0) = 1 ∧
    ¬ PB_CMD_RECOVER.get (PB_CMD_ABORT.set 1 0) = 1 := by decide
  obtain ⟨h1, h2, h3⟩ := hset
  dsimp only
  rw [if_neg (fun k => h3 k.1), if_neg h2]
  refine if_pos ⟨h1, ?_⟩
  cases ht : (s.chan (enCluster g) c).tx with
  | none => rfl
  | some x =>
    obtain ⟨src, u⟩ := x
    cases src with
    | none => exact absurd (by rw [ht]; rfl) h
    | some k => rfl
theorem State.pbCmdWrite_abort_sending (h : (s.chan (enCluster g) c).tx.map (·.1) = some none) :
    s.pbCmdWrite g (PB_CMD_ABORT.set 1 0) = s := by
  unfold State.pbCmdWrite
  rw [hc]
  have hset : ¬ PB_CMD_FLUSH.get (PB_CMD_ABORT.set 1 0) = 1 ∧ ¬ PB_CMD_RECOVER.get (PB_CMD_ABORT.set 1 0) = 1 := by decide
  obtain ⟨h2, h3⟩ := hset
  dsimp only
  rw [if_neg (fun k => h3 k.1), if_neg h2]
  refine if_neg fun k => ?_
  cases ht : (s.chan (enCluster g) c).tx with
  | none => rw [ht] at h; cases h
  | some x =>
    obtain ⟨src, u⟩ := x
    rw [ht] at h k
    cases h
    simp at k
theorem State.pbCmdWrite_flush : s.pbCmdWrite g (PB_CMD_FLUSH.set 1 0) =
    s.setChan (enCluster g) c { s.chan (enCluster g) c with flush := true } := by
  unfold State.pbCmdWrite
  rw [hc]
  have hset : ¬ PB_CMD_ABORT.get (PB_CMD_FLUSH.set 1 0) = 1 ∧ PB_CMD_FLUSH.get (PB_CMD_FLUSH.set 1 0) = 1 ∧
    ¬ PB_CMD_RECOVER.get (PB_CMD_FLUSH.set 1 0) = 1 := by decide
  obtain ⟨h1, h2, h3⟩ := hset
  dsimp only
  rw [if_neg (fun k => h3 k.1), if_pos h2, if_neg (fun k => h1 k.1)]
theorem State.pbCmdWrite_recover : s.pbCmdWrite g (PB_CMD_RECOVER.set 1 0) = if s.pbState g = 4 then
    (s.fs g PB_ERR_STATE 5).setChan (enCluster g) c { s.chan (enCluster g) c with rec11 := 0 } else s := by
  unfold State.pbCmdWrite
  rw [hc]
  have hset : ¬ PB_CMD_ABORT.get (PB_CMD_RECOVER.set 1 0) = 1 ∧ ¬ PB_CMD_FLUSH.get (PB_CMD_RECOVER.set 1 0) = 1 ∧
    PB_CMD_RECOVER.get (PB_CMD_RECOVER.set 1 0) = 1 := by decide
  obtain ⟨h1, h2, h3⟩ := hset
  dsimp only
  simp only [h1, h2, h3, false_and, true_and, if_false]

end

/-- A command of an engine in PBUS mode. -/
theorem completes_pbCmd {cmd : Instr} {s : State} {who : Initiator} {e : Engine} {f : Fld} {P : State → Prop}
    (he : exec cmd s = .next (s.pbCmd who e f)) (hacc : s.accepts who (s.enReg e) PB_CMD = true) (hm : s.enMode (s.enReg e) = 2)
    (h : P (((s.touch who false).pbCmdWrite (s.enReg e) (f.set 1 0)).answer who rspOk 0)) : completes cmd s P := by
  refine completes_write he hacc ?_
  beta_reduce
  rw [State.enReg_touch, State.enMode_touch s who _ (enReg_ne_scan s e), if_pos hm]
  exact h
/-- One in another mode has no effect. -/
theorem completes_pbCmd_other {cmd : Instr} {s : State} {who : Initiator} {e : Engine} {f : Fld}
    (he : exec cmd s = .next (s.pbCmd who e f)) (hacc : s.accepts who (s.enReg e) PB_CMD = true) (hm : s.enMode (s.enReg e) ≠ 2) :
    completes cmd s fun t => t.chans = s.chans ∧ onlyRegs [(0x01C, EVT_STATUS)] s t := by
  refine completes_write he hacc ?_
  beta_reduce
  rw [State.enReg_touch, State.enMode_touch s who _ (enReg_ne_scan s e), if_neg hm]
  exact ⟨State.touch_chans .., (State.touch_onlyRegs s who false).of_regs (State.answer_regs ..)⟩


/-! ### Columns of the schedule (R306) -/

theorem State.pbDrive_chan (s : State) (n c : Nat) (u : Int) (out : Bool) : ∃ l o,
    (s.pbDrive n c u out).chan n c = { s.chan n c with due := l, pb := { (s.chan n c).pb with out := o } } := by
  unfold State.pbDrive
  dsimp only
  split
  · exact ⟨_, _, rfl⟩
  · refine ⟨(s.chan n c).due ++ [⟨u, out != s.fb (s.enOf n c) PB_CFG_INV, true⟩], out, ?_⟩
    unfold State.setPb State.place State.pb
    rw [State.chan_setChan, State.chan_setChan]
theorem State.pbDrive_regs (s : State) (n c : Nat) (u : Int) (out : Bool) : (s.pbDrive n c u out).regs = s.regs := by
  unfold State.pbDrive
  dsimp only
  split <;> rfl

/-- The engine's own frame will begin at `u`. -/
theorem State.pbStartAt_chan (s : State) (n c : Nat) (src : Option Nat) (u : Int) : ∃ l p,
    (s.pbStartAt n c src u).chan n c = { s.chan n c with tx := some (src, u), due := l, pb := p } ∧ p.start = some u := by
  have hown : ∃ p, (s.pbOwn n c src u).chan n c = { s.chan n c with tx := some (src, u), pb := p } := ⟨_, State.chan_setChan ..⟩
  obtain ⟨p, hown⟩ := hown
  have hset : ((s.pbOwn n c src u).setPb n c { (s.pbOwn n c src u).pb n c with start := some u }).chan n c =
      { s.chan n c with tx := some (src, u), pb := { p with start := some u } } := by
    unfold State.setPb State.pb
    rw [State.chan_setChan, hown]
  obtain ⟨l, o, h⟩ := State.pbDrive_chan ((s.pbOwn n c src u).setPb n c { (s.pbOwn n c src u).pb n c with start := some u }) n c u false
  rw [hset] at h
  exact ⟨l, _, h, rfl⟩
theorem State.pbStartAt_regs (s : State) (n c : Nat) (src : Option Nat) (u : Int) : (s.pbStartAt n c src u).regs = s.regs :=
  State.pbDrive_regs ..

theorem State.ttColumn_eq {s : State} {n c m j ty k : Nat} (h : s.ttCell m j (s.fg (s.enOf n c) PB_TT_STAT_ROW) = (ty, k)) (u fin : Int) :
    s.ttColumn n c m j u fin =
      if ty = 1 then
        if s.ttHas (s.enOf n c) && s.fb (s.enOf n c) (PB_SLOT_W1_VALID.at (0x48 * k)) && s.ttIdle n c u then s.pbStartAt n c (some k) u
        else s.enCnt (s.enOf n c) 3
      else if ty = 2 then s.setChan n c { s.chan n c with arb := if s.ttHas (s.enOf n c) then some (u, fin) else none }
      else if ty = 3 ∧ j = 0 ∧ s.fg (s.enOf n c) PB_TT_STAT_ROLE = 1 then
        if s.ttIdle n c u then s.pbStartAt n c (some 8) u else s.setChan n c { s.chan n c with refDue := true }
      else s := by
  unfold State.ttColumn
  dsimp only
  rw [h]

/-- The state in which a column acts: COL shows it and the next one follows. -/
def State.ttColTurn (s : State) (n c m j : Nat) : State :=
  (s.fs (s.enOf n c) PB_TT_STAT_COL j).setChan n c
    { s.chan n c with col := if j + 1 < s.fg m SM_CFG_COLS then some (j + 1) else none, arb := none }

section
variable (s : State) (n c m j : Nat)

theorem State.ttColTurn_chan : (s.ttColTurn n c m j).chan n c =
    { s.chan n c with col := if j + 1 < s.fg m SM_CFG_COLS then some (j + 1) else none, arb := none } := State.chan_setChan ..
theorem State.fg_ttColTurn_off (p : Nat) {f : Fld} (h : regKey 0 f.off ≠ regKey 0 PB_TT_STAT) : (s.ttColTurn n c m j).fg p f = s.fg p f :=
  (State.fg_setChan ..).trans (State.fg_fs_ne _ _ _ _ _ _ (.inl (regKey_ne_of_off h _ _)))
theorem State.fg_ttColTurn_apart {f : Fld} (h : (f.lo + f.w ≤ 22 ∨ 28 ≤ f.lo) ∧ f.lo + f.w ≤ 32) :
    (s.ttColTurn n c m j).fg (s.enOf n c) f = s.fg (s.enOf n c) f :=
  (State.fg_setChan ..).trans (State.fg_fs_apart _ _ _ (.inr h))
theorem State.fg_ttColTurn_page {p : Nat} (h : p ≠ s.enOf n c) (f : Fld) : (s.ttColTurn n c m j).fg p f = s.fg p f :=
  (State.fg_setChan ..).trans (State.fg_fs_page _ _ _ _ h)
theorem State.fg_ttColTurn_col : (s.ttColTurn n c m j).fg (s.enOf n c) PB_TT_STAT_COL = j % 2 ^ PB_TT_STAT_COL.w :=
  (State.fg_setChan ..).trans (State.fg_fs _ _ _ _ (by decide))
theorem State.enOf_ttColTurn : (s.ttColTurn n c m j).enOf n c = s.enOf n c :=
  State.enOf_of_map ((State.rd_setChan ..).trans (State.rd_wr_page _ _ _ _ (by unfold ecPage State.enOf enPage; omega))) c
theorem State.ttHas_ttColTurn : (s.ttColTurn n c m j).ttHas (s.enOf n c) = s.ttHas (s.enOf n c) := by
  unfold State.ttHas
  rw [State.fg_ttColTurn_apart _ _ _ _ _ (by decide), State.fg_ttColTurn_apart _ _ _ _ _ (by decide)]
theorem State.ttCell_ttColTurn {q : Nat} (h : q ≠ s.enOf n c) (i r : Nat) : (s.ttColTurn n c m j).ttCell q i r = s.ttCell q i r := by
  unfold State.ttCell
  simp only [State.fg_ttColTurn_page s n c m j h]
theorem State.ttIdle_ttColTurn (u : Int) : (s.ttColTurn n c m j).ttIdle n c u = s.ttIdle n c u := by
  have hearliest : (s.ttColTurn n c m j).earliest n = s.earliest n := by
    unfold State.earliest State.delayU
    rw [State.fg_ttColTurn_off _ _ _ _ _ _ (by decide)]
    rfl
  have hmay : (s.ttColTurn n c m j).pbMay n c = s.pbMay n c := by
    have hon : (s.ttColTurn n c m j).pbOn (s.enOf n c) = s.pbOn (s.enOf n c) := by
      unfold State.pbOn State.pbState
      rw [State.fg_ttColTurn_off _ _ _ _ _ _ (by decide)]
    have hfb (p : Nat) (f : Fld) (h : regKey 0 f.off ≠ regKey 0 PB_TT_STAT) : (s.ttColTurn n c m j).fb p f = s.fb p f := by
      unfold State.fb
      rw [State.fg_ttColTurn_off _ _ _ _ _ _ h]
    have hheld : (s.ttColTurn n c m j).pitchHeld n = s.pitchHeld n := by
      unfold State.pitchHeld State.redundant
      rw [hfb _ GS_HUB_ID_REDUNDANT (by decide), hfb _ CL_STATUS_SEL_THIS (by decide)]
      rfl
    unfold State.pbMay
    dsimp only
    rw [State.enOf_ttColTurn, hon, hfb _ PB_CFG_RESTRICTED (by decide), hheld, State.ttColTurn_chan]
  unfold State.ttIdle State.pb
  rw [hearliest, hmay, State.ttColTurn_chan]

end


theorem matrix_ne_enOf (s : State) (n c : Nat) {m : Nat} (h : 0x240 ≤ m) : m ≠ s.enOf n c := by
  unfold State.enOf enPage; omega

theorem State.ttCell_slot_lt {s : State} {m j r ty k : Nat} (h : s.ttCell m j r = (ty, k)) : k < 8 := by
  have hget (f : Fld) (hw : f.w = 3) : s.fg m f < 8 := by
    have := Fld.get_lt f (s.rd m f.off)
    rwa [hw] at this
  unfold State.ttCell at h
  dsimp only at h
  split at h <;> cases h <;> exact hget _ rfl

/-- What a column that is due does by its cell. -/
theorem State.ttColumn_spec {s : State} {n c m j ty k : Nat} (hm : 0x240 ≤ m) (hcell : s.ttCell m j (s.fg (s.enOf n c) PB_TT_STAT_ROW) = (ty, k))
    (u fin : Int) :
    ((s.ttColTurn n c m j).ttColumn n c m j u fin).fg (s.enOf n c) PB_TT_STAT_COL = j % 2 ^ PB_TT_STAT_COL.w ∧
      (((s.ttColTurn n c m j).ttColumn n c m j u fin).chan n c).col = (if j + 1 < s.fg m SM_CFG_COLS then some (j + 1) else none) ∧
      (((s.ttColTurn n c m j).ttColumn n c m j u fin).chan n c).arb = (if ty = 2 ∧ s.ttHas (s.enOf n c) = true then some (u, fin) else none) ∧
      (ty = 1 → (s.ttHas (s.enOf n c) && s.fb (s.enOf n c) (PB_SLOT_W1_VALID.at (0x48 * k)) && s.ttIdle n c u) = true →
        (((s.ttColTurn n c m j).ttColumn n c m j u fin).chan n c).tx = some (some k, u) ∧
          (((s.ttColTurn n c m j).ttColumn n c m j u fin).chan n c).pb.start = some u) ∧
      (ty = 1 → (s.ttHas (s.enOf n c) && s.fb (s.enOf n c) (PB_SLOT_W1_VALID.at (0x48 * k)) && s.ttIdle n c u) = false →
        (((s.ttColTurn n c m j).ttColumn n c m j u fin).chan n c).tx = (s.chan n c).tx ∧
          ((s.ttColTurn n c m j).ttColumn n c m j u fin).fg (s.enOf n c) (EN_CNT_COUNT.at 12) =
            min (s.fg (s.enOf n c) (EN_CNT_COUNT.at 12) + 1) (2 ^ EN_CNT_COUNT.w - 1)) ∧
      (ty = 3 → j = 0 → s.fg (s.enOf n c) PB_TT_STAT_ROLE = 1 →
        (if s.ttIdle n c u then (((s.ttColTurn n c m j).ttColumn n c m j u fin).chan n c).tx = some (some 8, u) ∧
            (((s.ttColTurn n c m j).ttColumn n c m j u fin).chan n c).pb.start = some u
          else (((s.ttColTurn n c m j).ttColumn n c m j u fin).chan n c).tx = (s.chan n c).tx ∧
            (((s.ttColTurn n c m j).ttColumn n c m j u fin).chan n c).refDue = true)) ∧
      (ty ≠ 1 → ty ≠ 3 → (((s.ttColTurn n c m j).ttColumn n c m j u fin).chan n c).tx = (s.chan n c).tx ∧
        (((s.ttColTurn n c m j).ttColumn n c m j u fin).chan n c).refDue = (s.chan n c).refDue) := by
  have hcell' : (s.ttColTurn n c m j).ttCell m j ((s.ttColTurn n c m j).fg ((s.ttColTurn n c m j).enOf n c) PB_TT_STAT_ROW) = (ty, k) := by
    rw [State.enOf_ttColTurn, State.ttCell_ttColTurn _ _ _ _ _ (matrix_ne_enOf s n c hm), State.fg_ttColTurn_apart _ _ _ _ _ (by decide), hcell]
  have hslot : regKey 0 (PB_SLOT_W1_VALID.at (0x48 * k)).off ≠ regKey 0 PB_TT_STAT :=
    (by decide : ∀ i < 8, regKey 0 (PB_SLOT_W1_VALID.at (0x48 * i)).off ≠ regKey 0 PB_TT_STAT) k (State.ttCell_slot_lt hcell)
  have hfb : (s.ttColTurn n c m j).fb (s.enOf n c) (PB_SLOT_W1_VALID.at (0x48 * k)) = s.fb (s.enOf n c) (PB_SLOT_W1_VALID.at (0x48 * k)) := by
    unfold State.fb
    rw [State.fg_ttColTurn_off _ _ _ _ _ _ hslot]
  have hcol := State.fg_ttColTurn_col s n c m j
  have hchan := State.ttColTurn_chan s n c m j
  have hcnt := State.fg_ttColTurn_off s n c m j (s.enOf n c) (f := EN_CNT_COUNT.at 12) (by decide)
  rw [State.ttColumn_eq hcell', State.enOf_ttColTurn, State.ttHas_ttColTurn, State.ttIdle_ttColTurn, State.fg_ttColTurn_apart _ _ _ _ _ (by decide), hfb]
  generalize s.ttColTurn n c m j = t at hcol hchan hcnt ⊢
  have hstart (src : Option Nat) := State.pbStartAt_chan t n c src u
  have hregs (src : Option Nat) : (t.pbStartAt n c src u).fg (s.enOf n c) PB_TT_STAT_COL = t.fg (s.enOf n c) PB_TT_STAT_COL :=
    State.fg_of_regs (State.pbStartAt_regs ..) ..
  by_cases h1 : ty = 1
  · subst h1
    cases hsend : s.ttHas (s.enOf n c) && s.fb (s.enOf n c) (PB_SLOT_W1_VALID.at (0x48 * k)) && s.ttIdle n c u
    · have hcount := State.fg_enCnt t (s.enOf n c) (i := 3) (by decide)
      simp only [if_true, Bool.false_eq_true, if_false, State.chan_enCnt, hchan]
      exact ⟨(State.fg_enCnt_off _ _ (by decide) (by decide)).trans hcol, trivial, by simp, nofun, fun _ _ => ⟨trivial, hcount.trans (by rw [← hcnt])⟩, nofun,
        fun h => absurd rfl h⟩
    · obtain ⟨l, p, hch, hp⟩ := hstart (some k)
      simp only [if_true, hch, hchan]
      exact ⟨(hregs _).trans hcol, trivial, by simp, fun _ _ => ⟨trivial, hp⟩, nofun, nofun, fun h => absurd rfl h⟩
  · rw [if_neg h1]
    by_cases h2 : ty = 2
    · subst h2
      rw [if_pos rfl, State.chan_setChan, hchan]
      exact ⟨(State.fg_setChan ..).trans hcol, rfl, by simp, nofun, nofun, nofun, fun _ _ => ⟨rfl, rfl⟩⟩
    · rw [if_neg h2]
      have harb : (if ty = 2 ∧ s.ttHas (s.enOf n c) = true then some (u, fin) else none) = none := if_neg fun h => h2 h.1
      rw [harb]
      by_cases h3 : ty = 3 ∧ j = 0 ∧ s.fg (s.enOf n c) PB_TT_STAT_ROLE = 1
      · rw [if_pos h3]
        cases hidle : s.ttIdle n c u
        · rw [if_neg Bool.false_ne_true, State.chan_setChan, hchan]
          exact ⟨(State.fg_setChan ..).trans hcol, rfl, rfl, fun h => absurd h h1, fun h => absurd h h1, fun _ _ _ => by simp, fun _ h => absurd h3.1 h⟩
        · obtain ⟨l, p, hch, hp⟩ := hstart (some 8)
          rw [if_pos rfl, hch, hchan]
          exact ⟨(hregs _).trans hcol, rfl, rfl, fun h => absurd h h1, fun h => absurd h h1, fun _ _ _ => by simpa using hp, fun _ h => absurd h3.1 h⟩
      · rw [if_neg h3, hchan]
        exact ⟨hcol, rfl, rfl, fun h => absurd h h1, fun h => absurd h h1, fun a b d => absurd ⟨a, b, d⟩ h3, fun _ _ => ⟨rfl, rfl⟩⟩


/-! ### Basic cycles and references (R305, R307) -/

section
variable (s : State) (n c row : Nat) (z next : Int)

theorem State.ttBegin_chan : (s.ttBegin n c row z next).chan n c =
    { s.chan n c with cycle := some z, col := some 0, ttNext := some next, refDue := false, arb := none } := State.chan_setChan ..
theorem State.ttBegin_row : (s.ttBegin n c row z next).fg (s.enOf n c) PB_TT_STAT_ROW = row % 2 ^ PB_TT_STAT_ROW.w :=
  (State.fg_setChan ..).trans (State.fg_fs _ _ _ _ (by decide))
theorem State.fg_ttBegin_apart {f : Fld} (h : regKey 0 f.off ≠ regKey 0 PB_TT_STAT ∨ (f.lo + f.w ≤ 28 ∧ f.lo + f.w ≤ 32)) :
    (s.ttBegin n c row z next).fg (s.enOf n c) f = s.fg (s.enOf n c) f :=
  (State.fg_setChan ..).trans (State.fg_fs_apart _ _ _ (h.imp_right fun h => ⟨.inl h.1, h.2⟩))
theorem State.ttBegin_onlyRegs : onlyRegs [(s.enOf n c, PB_TT_STAT)] s (s.ttBegin n c row z next) :=
  ((onlyRegs.refl _ s).fs (f := PB_TT_STAT_ROW) (by decide) (List.mem_singleton.2 rfl)).of_regs (State.setChan_regs ..)

end

theorem exec_ttBasicCycleStart {s : State} {matrix : Matrix} {n c : Nat} {x : Int} (hown : s.ttOwner (0x240 + matrix.val) = some (n, c))
    (hrole : s.fg (s.enOf n c) PB_TT_STAT_ROLE = 1) (hnext : (s.chan n c).ttNext = some x)
    (hdue : s.localOf (x * timeG * 65536) ≤ s.earliest n + 2560) :
    exec (.ttBasicCycleStart matrix) s = .next (s.ttBegin n c
      (if (s.chan n c).cycle.isNone then 0 else s.ttRowNext (0x240 + matrix.val) (s.enOf n c)) (s.localOf (x * timeG * 65536))
      (x + s.fg (0x240 + matrix.val) SM_CYCLE_CYCLE)) := by
  refine congrArg Host.Outcome.next ?_
  dsimp only
  rw [hown]
  dsimp only
  rw [if_pos hrole, hnext]
  have hd : s.ttDue n (s.ofNs x) = true := decide_eq_true hdue
  exact if_neg (by simp [hd])

/-- A reference missed. -/
theorem State.ttMiss_spec (s : State) (n c m : Nat) (x : Int) :
    (s.ttMiss n c m x).fg (s.enOf n c) PB_TT_STAT_MISSED = min (s.fg (s.enOf n c) PB_TT_STAT_MISSED + 1) (2 ^ PB_TT_STAT_MISSED.w - 1) ∧
      (s.fg (s.enOf n c) PB_TT_STAT_MISSED = 0 → ((s.ttMiss n c m x).chan n c).ttNext = some (x + s.fg m SM_CYCLE_CYCLE)) ∧
      (s.fg (s.enOf n c) PB_TT_STAT_MISSED = 0 → (s.chan n c).cycle ≠ none →
        ((s.ttMiss n c m x).chan n c).cycle = some (s.ofNs x) ∧ ((s.ttMiss n c m x).chan n c).col = some 0) ∧
      (1 ≤ s.fg (s.enOf n c) PB_TT_STAT_MISSED → ((s.ttMiss n c m x).chan n c).col = none ∧ ((s.ttMiss n c m x).chan n c).arb = none ∧
        ((s.ttMiss n c m x).chan n c).refDue = false) ∧
      (1 ≤ s.fg (s.enOf n c) PB_TT_STAT_MISSED → s.fg (s.enOf n c) PB_TT_STAT_ROLE = 3 →
        (s.ttMiss n c m x).fg (s.enOf n c) PB_TT_STAT_ROLE = 1 ∧ (s.ttMiss n c m x).fg (s.enOf n c) PB_TT_STAT_SYNCED = 1 ∧
          ((s.ttMiss n c m x).chan n c).ttNext = some (s.ttFirst m)) ∧
      (1 ≤ s.fg (s.enOf n c) PB_TT_STAT_MISSED → s.fg (s.enOf n c) PB_TT_STAT_ROLE = 2 →
        (s.ttMiss n c m x).fg (s.enOf n c) PB_TT_STAT_SYNCED = 0 ∧
          (s.fg (s.enOf n c) PB_TT_STAT_MISSED = 1 → (s.ttMiss n c m x).event (s.enOf n c) EV_EN_TT_LOST = true)) ∧
      onlyRegs [(s.enOf n c, PB_TT_STAT), (s.enOf n c, EVT_STATUS)] s (s.ttMiss n c m x) := by
  have hmissed : (s.inc (s.enOf n c) PB_TT_STAT_MISSED).fg (s.enOf n c) PB_TT_STAT_MISSED =
      min (s.fg (s.enOf n c) PB_TT_STAT_MISSED + 1) (2 ^ PB_TT_STAT_MISSED.w - 1) := State.fg_inc _ _ (by decide)
  have honly : onlyRegs [(s.enOf n c, PB_TT_STAT), (s.enOf n c, EVT_STATUS)] s (s.inc (s.enOf n c) PB_TT_STAT_MISSED) :=
    (onlyRegs.refl _ s).inc (by decide) (List.mem_cons_self ..)
  have hen : (s.inc (s.enOf n c) PB_TT_STAT_MISSED).enOf n c = s.enOf n c :=
    State.enOf_of_map (State.rd_wr_page _ _ _ _ (by unfold ecPage State.enOf enPage; omega)) c
  have hchan : (s.inc (s.enOf n c) PB_TT_STAT_MISSED).chan n c = s.chan n c := rfl
  unfold State.ttMiss
  dsimp only
  generalize s.inc (s.enOf n c) PB_TT_STAT_MISSED = t at hmissed honly hen hchan ⊢
  by_cases h0 : s.fg (s.enOf n c) PB_TT_STAT_MISSED = 0
  · rw [if_pos (by rw [h0])]
    have hno : ¬ 1 ≤ s.fg (s.enOf n c) PB_TT_STAT_MISSED := by omega
    by_cases hcyc : (s.chan n c).cycle.isSome
    · rw [if_pos hcyc, State.ttBegin_chan, ← hen]
      refine ⟨(State.fg_ttBegin_apart _ _ _ _ _ _ (.inr (by decide))).trans (by rw [hen]; exact hmissed), fun _ => rfl, fun _ _ => ⟨rfl, rfl⟩,
        ?_, ?_, ?_, ?_⟩
      · rw [hen]; exact fun h => absurd h hno
      · rw [hen]; exact fun h => absurd h hno
      · rw [hen]; exact fun h => absurd h hno
      · exact (hen ▸ honly).trans (onlyRegs.mono (State.ttBegin_onlyRegs t n c _ _ _) (by simp))
    · rw [if_neg hcyc, State.chan_setChan]
      refine ⟨(State.fg_setChan ..).trans hmissed, fun _ => rfl, fun _ h => absurd (Option.isSome_iff_ne_none.2 h) hcyc, fun h => absurd h hno,
        fun h => absurd h hno, fun h => absurd h hno, honly.of_regs (State.setChan_regs ..)⟩
  · rw [if_neg (by omega)]
    by_cases h3 : s.fg (s.enOf n c) PB_TT_STAT_ROLE = 3
    · rw [if_pos h3, State.chan_setChan]
      refine ⟨?_, fun h => absurd h h0, fun h => absurd h h0, fun _ => ⟨rfl, rfl, rfl⟩, fun _ _ => ⟨?_, ?_, rfl⟩, fun _ h => absurd (h3.symm.trans h) (by decide), ?_⟩
      · rw [State.fg_setChan, State.fg_fs_apart _ _ _ (by decide), State.fg_fs_apart _ _ _ (by decide), hmissed]
      · rw [State.fg_setChan, State.fg_fs_apart _ _ _ (by decide), State.fg_fs _ _ _ _ (by decide)]; rfl
      · rw [State.fg_setChan, State.fg_fs _ _ _ _ (by decide)]; rfl
      · exact ((honly.fs (f := PB_TT_STAT_ROLE) (by decide) (List.mem_cons_self ..)).fs (f := PB_TT_STAT_SYNCED) (by decide) (List.mem_cons_self ..)).of_regs
          (State.setChan_regs ..)
    · rw [if_neg h3, State.chan_raiseIf, State.chan_setChan]
      refine ⟨?_, fun h => absurd h h0, fun h => absurd h h0, fun _ => ⟨rfl, rfl, rfl⟩, fun _ h => absurd h h3, fun _ _ => ⟨?_, fun h1 => ?_⟩, ?_⟩
      · rw [(RegsHold.raiseIf ..).fg _ (by decide), State.fg_setChan, State.fg_fs_apart _ _ _ (by decide), hmissed]
      · rw [(RegsHold.raiseIf ..).fg _ (by decide), State.fg_setChan, State.fg_fs _ _ _ _ (by decide)]; rfl
      · rw [h1]
        exact State.event_raise _ _ (by decide)
      · exact (((honly.fs (f := PB_TT_STAT_SYNCED) (by decide) (List.mem_cons_self ..))).of_regs (State.setChan_regs ..)).raiseIf (by simp)


/-! ### A message received, and the reference among them (R303, R307) -/

/-- The message taken off the channel's list and counted. -/
def State.msgCounted (s : State) (n c : Nat) (rest : List (Int × List Byte)) : State :=
  (s.setChan n c { s.chan n c with got := rest }).inc (s.enOf n c) PB_CNT_RX_COUNT

/-- What becomes of a message that has been counted, and taken as a reference where it is one. -/
def State.msgPassed (s : State) (l : Look) : State :=
  if s.ready 0x200 && s.fb 0x200 RT_CTRL_EN then { s with lookWait := s.lookWait ++ [l] } else s.pbUnmatched l

section
variable {s : State} {pitch : Pitch} {chan : Channel} {sof : Int} {item : List Byte} {rest : List (Int × List Byte)}
  (hgot : (s.chan pitch.val chan.val).got = (sof, item) :: rest)
include hgot

theorem exec_pbusMessageReceived : exec (.pbusMessageReceived pitch chan) s = .next ((match s.ttOn pitch.val chan.val with
    | some m => if s.ttIsRef m (itemIdw item) (leAt item 4 1 % 16) then
        (s.msgCounted pitch.val chan.val rest).ttReference pitch.val chan.val m (itemIdw item) (item.drop 12) sof
      else s.msgCounted pitch.val chan.val rest
    | none => s.msgCounted pitch.val chan.val rest).msgPassed { pitch := pitch.val, chan := chan.val, item := item, sof := sof }) := by
  refine congrArg Host.Outcome.next ?_
  dsimp only
  rw [hgot]
  rfl

end

section
variable (s : State) (n c : Nat) (rest : List (Int × List Byte))

theorem State.msgCounted_chan : (s.msgCounted n c rest).chan n c = { s.chan n c with got := rest } := State.chan_setChan ..
theorem State.rd_msgCounted_page {p : Nat} (h : p ≠ s.enOf n c) (o : Nat) : (s.msgCounted n c rest).rd p o = s.rd p o :=
  (State.rd_fs_page _ _ _ _ h).trans (State.rd_setChan ..)
theorem State.fg_msgCounted_page {p : Nat} (h : p ≠ s.enOf n c) (f : Fld) : (s.msgCounted n c rest).fg p f = s.fg p f := by
  simp only [State.fg, State.rd_msgCounted_page s n c rest h]
theorem State.fg_msgCounted_off {f : Fld} (h : regKey 0 f.off ≠ regKey 0 PB_CNT_RX_COUNT.off) (p : Nat) :
    (s.msgCounted n c rest).fg p f = s.fg p f :=
  (State.fg_fs_ne _ _ _ _ _ _ (.inl (regKey_ne_of_off h _ _))).trans (State.fg_setChan ..)
theorem State.enOf_msgCounted : (s.msgCounted n c rest).enOf n c = s.enOf n c :=
  State.enOf_of_map (State.rd_msgCounted_page _ _ _ _ (by unfold ecPage State.enOf enPage; omega) _) c
theorem State.stAt_msgCounted (u : Int) : (s.msgCounted n c rest).stAt u = s.stAt u := by
  have hpage (f : Fld) : (s.msgCounted n c rest).fg 0x018 f = s.fg 0x018 f :=
    State.fg_msgCounted_page _ _ _ _ (by unfold State.enOf enPage; omega) f
  have htm : (s.msgCounted n c rest).tm = s.tm := rfl
  simp only [State.stAt, State.domAt, State.dom, State.rate, State.sel, State.resAt, hpage, htm]

end

/-- The schedule that an engine follows is on a matrix page. -/
theorem State.ttOn_page {s : State} {n c m : Nat} (h : s.ttOn n c = some m) : 0x240 ≤ m := by
  unfold State.ttOn at h
  dsimp only at h
  split at h
  · obtain ⟨hm, -⟩ := Option.filter_eq_some_iff.1 h
    obtain ⟨k, -, rfl⟩ := List.mem_map.1 (List.mem_of_find?_eq_some hm)
    exact Nat.le_add_right ..
  · cases h

/-- A reference taken. -/
theorem State.ttReference_taken {s : State} {n c m idw : Nat} {data : List Byte} {sof : Int}
    (h : s.fg (s.enOf n c) PB_TT_STAT_ROLE ≠ 1 ∨ idw % 2048 < s.fg m SM_REF_REF_ID) :
    (s.ttReference n c m idw data sof).chan n c = { s.chan n c with
        cycle := some (sof - nsU * (leAt data 1 2 : Int)), col := some 0, refDue := false, arb := none
        ttNext := some (s.stAt (sof - nsU * (leAt data 1 2 : Int)) / (timeG * 65536) + s.fg m SM_CYCLE_CYCLE) } ∧
    (s.ttReference n c m idw data sof).fg (s.enOf n c) PB_TT_STAT_ROW = leAt data 0 1 % 16 ∧
    (s.ttReference n c m idw data sof).fg (s.enOf n c) PB_TT_STAT_SYNCED = 1 ∧
    (s.ttReference n c m idw data sof).fg (s.enOf n c) PB_TT_STAT_MISSED = 0 ∧
    (s.ttReference n c m idw data sof).fg (s.enOf n c) PB_TT_STAT_ROLE =
      (if s.fg (s.enOf n c) PB_TT_STAT_ROLE = 1 then 2 else s.fg (s.enOf n c) PB_TT_STAT_ROLE) ∧
    (s.ttReference n c m idw data sof).rd (s.enOf n c) PB_TT_OFFSET =
      clamp32 ((s.stNs (sof - nsU * (leAt data 1 2 : Int)) : Int) - (leAt data 3 4 : Int)) := by
  have hrole : (if s.fg (s.enOf n c) PB_TT_STAT_ROLE = 1 then 2 else s.fg (s.enOf n c) PB_TT_STAT_ROLE) < 4 := by
    have := Fld.get_lt PB_TT_STAT_ROLE (s.rd (s.enOf n c) PB_TT_STAT_ROLE.off)
    split
    · decide
    · exact this
  unfold State.ttReference
  dsimp only
  rw [if_neg (by omega)]
  generalize (if s.fg (s.enOf n c) PB_TT_STAT_ROLE = 1 then 2 else s.fg (s.enOf n c) PB_TT_STAT_ROLE) = role at hrole ⊢
  generalize clamp32 ((s.stNs (sof - nsU * (leAt data 1 2 : Int)) : Int) - (leAt data 3 4 : Int)) = v
  generalize s.stAt (sof - nsU * (leAt data 1 2 : Int)) / (timeG * 65536) + s.fg m SM_CYCLE_CYCLE = next
  generalize hw : (((s.fs (s.enOf n c) PB_TT_STAT_ROLE role).fs (s.enOf n c) PB_TT_STAT_SYNCED 1).fs (s.enOf n c) PB_TT_STAT_MISSED 0).wr (s.enOf n c)
    PB_TT_OFFSET v = w
  have hen : w.enOf n c = s.enOf n c := by
    have hpage : ecPage n ≠ s.enOf n c := by unfold ecPage State.enOf enPage; omega
    refine State.enOf_of_map ?_ c
    rw [← hw, State.rd_wr_page _ _ _ _ hpage, State.rd_fs_page _ _ _ _ hpage, State.rd_fs_page _ _ _ _ hpage, State.rd_fs_page _ _ _ _ hpage]
  have hoffset : w.rd (s.enOf n c) PB_TT_OFFSET = v := by rw [← hw, State.rd_wr_same]
  have hfields : w.fg (s.enOf n c) PB_TT_STAT_ROLE = role ∧ w.fg (s.enOf n c) PB_TT_STAT_SYNCED = 1 ∧ w.fg (s.enOf n c) PB_TT_STAT_MISSED = 0 := by
    rw [← hw]
    refine ⟨?_, ?_, ?_⟩ <;> rw [State.fg_wr_off _ _ _ (by decide)]
    · rw [State.fg_fs_apart _ _ _ (by decide), State.fg_fs_apart _ _ _ (by decide), State.fg_fs _ _ _ _ (by decide)]
      exact Nat.mod_eq_of_lt hrole
    · rw [State.fg_fs_apart _ _ _ (by decide), State.fg_fs _ _ _ _ (by decide)]; rfl
    · rw [State.fg_fs _ _ _ _ (by decide)]; rfl
  have hchan : w.chan n c = s.chan n c := by rw [← hw]; rfl
  obtain ⟨hr, hs, hm⟩ := hfields
  rw [← hen] at hr hs hm hoffset ⊢
  refine ⟨by rw [State.ttBegin_chan, hchan], (State.ttBegin_row ..).trans ?_, ?_, ?_, ?_, ?_⟩
  · exact Nat.mod_mod ..
  · rw [State.fg_ttBegin_apart _ _ _ _ _ _ (by decide), hs]
  · rw [State.fg_ttBegin_apart _ _ _ _ _ _ (by decide), hm]
  · rw [State.fg_ttBegin_apart _ _ _ _ _ _ (by decide), hr]
  · exact ((State.rd_setChan ..).trans (State.rd_fs_off _ _ _ (by decide))).trans hoffset


theorem State.ttReference_stays {s : State} {n c m idw : Nat} {data : List Byte} {sof : Int}
    (h : s.fg (s.enOf n c) PB_TT_STAT_ROLE = 1 ∧ s.fg m SM_REF_REF_ID ≤ idw % 2048) : s.ttReference n c m idw data sof = s := by
  unfold State.ttReference
  exact if_pos h

/-- What becomes of a message leaves the channel but for its records, and every register of the engine but its events. -/
theorem State.msgPassed_soft (s : State) (l : Look) : (∃ b r u, (s.msgPassed l).chan l.pitch l.chan =
      { s.chan l.pitch l.chan with buf := b, recs := r, sentTs := u }) ∧
    ∀ p o, p ≠ 0x200 → regKey 0 o ≠ regKey 0 EVT_STATUS → (s.msgPassed l).rd p o = s.rd p o := by
  unfold State.msgPassed State.pbUnmatched State.pbRecord
  dsimp only
  split
  · exact ⟨⟨_, _, _, rfl⟩, fun _ _ _ _ => rfl⟩
  · split
    · obtain ⟨hchan, hold⟩ := State.recBatch_recKept s l.pitch l.chan 0x10 l.sof l.item
      exact ⟨hchan, fun p o _ ho => hold.rd p o ho⟩
    · exact ⟨⟨_, _, _, rfl⟩, fun p o hp _ => State.rd_fs_page _ _ _ _ hp⟩

/-! ### Lookups (R308-R311) -/

theorem State.rtFind_looking (s : State) (rest : List Look) (l : Look) (es : List Nat) (k : Nat) :
    ({ s with looking := rest } : State).rtFind l es k = s.rtFind l es k := by
  induction es generalizing k with
  | nil => rfl
  | cons e es ih =>
    cases k with
    | zero => rfl
    | succ k =>
      unfold State.rtFind
      rw [ih k, ih (k + 1)]
      rfl
theorem State.rtFind_length (s : State) (l : Look) (es : List Nat) (k : Nat) : (s.rtFind l es k).length ≤ k := by
  induction es generalizing k with
  | nil => exact Nat.zero_le _
  | cons e es ih =>
    cases k with
    | zero => exact Nat.zero_le _
    | succ k =>
      unfold State.rtFind
      split
      · split
        · exact Nat.succ_le_succ (ih k)
        · exact Nat.succ_le_succ (Nat.zero_le _)
      · exact ih (k + 1)

section
variable {s : State} {l : Look} {rest : List Look} (hl : s.looking = l :: rest)
include hl

theorem exec_routeLookupDone_unmatched (hes : s.rtFind l (List.range 4096) 4 = []) :
    exec .routeLookupDone s = .next (({ s with looking := rest } : State).pbUnmatched l) := by
  refine congrArg Host.Outcome.next ?_
  rw [hl]
  dsimp only
  rw [State.rtFind_looking, hes]
theorem exec_routeLookupDone_matched {es : List Nat} (hes : s.rtFind l (List.range 4096) 4 = es) (hne : es ≠ []) :
    exec .routeLookupDone s = .next (es.foldl (State.rtAct l) { s with looking := rest }) := by
  refine congrArg Host.Outcome.next ?_
  rw [hl]
  dsimp only
  rw [State.rtFind_looking, hes]
  cases es with
  | nil => exact absurd rfl hne
  | cons e es => rfl

end


/-- Whether a mailbox takes an item depends on the core and the core's pages alone. -/
theorem State.mbOverruns_congr {s t : State} (hcore : t.core = s.core) (hlc : t.lc = s.lc) (hfg : ∀ p < 0x200, ∀ f, t.fg p f = s.fg p f) (m : Nat) :
    t.mbOverruns m = s.mbOverruns m := by
  have hque (q : Nat) : t.endCycle.que q = s.endCycle.que q := by unfold State.que State.endCycle; rw [hcore]
  have hbank (b : Nat) : t.endCycle.bank b = s.endCycle.bank b := by unfold State.bank State.endCycle; rw [hcore]
  have hfg' (p : Nat) (hp : p < 0x200) (f : Fld) : t.endCycle.fg p f = s.endCycle.fg p f := hfg p hp f
  have hqp (q : Nat) : qPage q < 0x200 := by unfold qPage; omega
  have hmin (q : Nat) : t.endCycle.qmin q = s.endCycle.qmin q := hfg' _ (hqp q) _
  have hmax (q : Nat) : t.endCycle.qmax q = s.endCycle.qmax q := hfg' _ (hqp q) _
  have hrsv (p : Nat) (c : Cls) : t.endCycle.rsv p c = s.endCycle.rsv p c := by
    cases c
    · rfl
    all_goals exact hfg' _ (by decide) _
  have hrepl : t.endCycle.replacing = s.endCycle.replacing ∧ t.endCycle.replBank = s.endCycle.replBank := by
    unfold State.replacing State.replBank State.endCycle; rw [hcore]; exact ⟨rfl, rfl⟩
  have hacct (p : Nat) (c : Cls) : t.endCycle.acctCharge p c = s.endCycle.acctCharge p c := by
    unfold State.acctCharge State.frec
    simp only [hque]
    unfold State.endCycle
    rw [hcore]
  have hshared : t.endCycle.sharedSpace = s.endCycle.sharedSpace := by
    unfold State.sharedSpace State.pool State.heldByQueues State.heldByRings
    simp only [hmin, hque, hrsv, hacct, hrepl.1]
  have hadm (q k : Nat) : t.endCycle.admission q k = s.endCycle.admission q k := by
    unfold State.admission
    simp only [hque, hmin, hmax, hshared]
  have hrun : t.endCycle.running 0x010 = s.endCycle.running 0x010 := by
    unfold State.running State.fb
    rw [hfg' _ (by decide)]
  have hrel (q : Nat) : t.endCycle.mbReleased q = s.endCycle.mbReleased q := by
    unfold State.mbReleased
    rw [hque]
    simp only [hbank]
    unfold State.endCycle
    rw [hlc]
  have hpick : t.endCycle.pickBank = s.endCycle.pickBank := by
    unfold State.pickBank State.openBanks
    simp only [hbank, hrepl.1, hrepl.2]
    unfold State.endCycle
    rfl
  unfold State.mbOverruns State.mbCell
  rw [hrun, hadm, hrel, hpick]
  split
  · rfl
  · split
    · rfl
    · simp

section
variable (s : State) (rest : List Look) (l : Look) (e : Nat)

/-- A match that has counted in its HITS. -/
def State.rtHit : State := ({ s with looking := rest } : State).inc (rtPage e) (RT_HITS_COUNT.at (rtOff e))

theorem State.fg_rtHit_page {p : Nat} (h : p ≠ rtPage e) (f : Fld) : (s.rtHit rest e).fg p f = s.fg p f := State.fg_fs_page _ _ _ _ h
theorem State.fg_rtHit_off {f : Fld} (h : f.off < 0x200 ∧ f.off ≠ RT_HITS_COUNT.off) :
    (s.rtHit rest e).fg (rtPage e) (f.at (rtOff e)) = s.fg (rtPage e) (f.at (rtOff e)) := by
  refine State.fg_fs_apart _ _ _ (.inl fun k => h.2 ?_)
  have hoff : (f.off + rtOff e) % 4096 = (RT_HITS_COUNT.off + rtOff e) % 4096 := (regKey_eq_iff.1 k).2
  have hhits : RT_HITS_COUNT.off < 0x200 := by decide
  unfold rtOff at hoff
  omega

theorem State.rtItem_rtHit : (s.rtHit rest e).rtItem l e = s.rtItem l e := by
  unfold State.rtItem State.fb
  simp only [State.fg_rtHit_off s rest e (f := RT_XLATE_EN) (by decide), State.fg_rtHit_off s rest e (f := RT_XLATE_IDE) (by decide),
    State.fg_rtHit_off s rest e (f := RT_XLATE_NEW_ID) (by decide)]
theorem State.hubId_rtHit : (s.rtHit rest e).hubId = s.hubId := State.fg_rtHit_page _ _ _ (by unfold rtPage; omega) _
theorem State.mbOverruns_rtHit (m : Nat) : (s.rtHit rest e).mbOverruns m = s.mbOverruns m := by
  have hcore : (s.rtHit rest e).core = s.core := State.inc_core ..
  have hlc : (s.rtHit rest e).lc = s.lc := State.inc_lc ..
  exact State.mbOverruns_congr hcore hlc (fun p hp f => State.fg_rtHit_page s rest e (show p ≠ rtPage e by unfold rtPage; omega) f) m
theorem State.ready_rtHit {p : Nat} (h : p < 0x200) : (s.rtHit rest e).ready p = s.ready p := by
  unfold State.ready State.fb
  rw [State.fg_rtHit_page _ _ _ (by unfold rtPage; omega)]
theorem State.recordsOn_rtHit (n c : Nat) : (s.rtHit rest e).fb ((s.rtHit rest e).enOf n c) EN_RXDST_RX_EN = s.fb (s.enOf n c) EN_RXDST_RX_EN := by
  have hen : (s.rtHit rest e).enOf n c = s.enOf n c :=
    State.enOf_of_map ((State.rd_fs_page _ _ _ _ (by unfold ecPage rtPage; omega)).trans rfl) c
  rw [hen]
  unfold State.fb
  rw [State.fg_rtHit_page _ _ _ (by unfold State.enOf enPage rtPage; omega)]

theorem length_leBytes (v k : Nat) : (leBytes v k).length = k := by
  induction k generalizing v with
  | zero => rfl
  | succ k ih => exact congrArg (· + 1) (ih _)
/-- Setting the time and the tag of an item shorter than a frame of class E keeps it one. -/
theorem item_le_iff (item : List Byte) (t tag : Nat) : (itemTagged (itemTime item t) tag).length ≤ 64 ↔ item.length ≤ 64 := by
  unfold itemTagged itemTime
  simp only [List.length_append, List.length_take, List.length_drop, length_leBytes, List.length_cons, List.length_nil]
  omega

/-- A match acts by its KIND on the state in which it has counted; the entry and the message are those of before. -/
theorem State.rtAct_eq : State.rtAct l { s with looking := rest } e =
    let u := s.rtHit rest e
    let p := rtPage e
    let d := rtOff e
    let hub := if s.fb p (RT_DEST_SELF.at d) then s.hubId else s.fg p (RT_DEST_HUB.at d)
    let q := s.fg p (RT_DEST_QUEUE.at d) % 64
    if s.fg p (RT_DEST_KIND.at d) = 0 then
      u.rtSend l { hdr := { cls := if s.fb p (RT_DEST_CLASS_E.at d) && decide ((s.rtItem l e).length ≤ 64) then Cls.E else Cls.T, mtype := 0x20, dst := hub,
                            src := s.hubId, stream := s.fg p (RT_DEST_PITCH.at d), arg := s.fg p (RT_DEST_CHAN.at d) + 256 * l.pitch + 8192 * l.chan },
                   payload := itemTagged (itemTime (s.rtItem l e) (u.st48 l.sof / 65536)) 0xFF }
    else if s.fg p (RT_DEST_KIND.at d) = 1 then
      u.rtSend l { hdr := { cls := .B, mtype := 0x10, dst := hub, src := s.hubId, stream := l.pitch, arg := s.fg p (RT_DEST_QUEUE.at d) }
                   payload := u.recBytes l.chan { rtype := 0x10, items := [(l.sof, s.rtItem l e)] } }
    else if s.fg p (RT_DEST_KIND.at d) = 2 then
      if !(s.ready 0x020 && s.ready 0x014) then u
      else if s.mbOverruns q then (u.mbPush q (BitVec.ofNat 32 (leAt (s.rtItem l e) 12 4))).routeDropped
      else u.mbPush q (BitVec.ofNat 32 (leAt (s.rtItem l e) 12 4))
    else if s.fb (s.enOf l.pitch l.chan) EN_RXDST_RX_EN then u.recBatch l.pitch l.chan 0x10 l.sof (s.rtItem l e)
    else u := by
  have hfg (f : Fld) (h : f.off < 0x200 ∧ f.off ≠ RT_HITS_COUNT.off) := State.fg_rtHit_off s rest e (f := f) h
  have hfb (f : Fld) (h : f.off < 0x200 ∧ f.off ≠ RT_HITS_COUNT.off) :
      (s.rtHit rest e).fb (rtPage e) (f.at (rtOff e)) = s.fb (rtPage e) (f.at (rtOff e)) := by unfold State.fb; rw [hfg f h]
  unfold State.rtAct State.pbRecord
  dsimp only
  rw [show ({ s with looking := rest } : State).inc (rtPage e) (RT_HITS_COUNT.at (rtOff e)) = s.rtHit rest e from rfl]
  simp only [hfg RT_DEST_HUB (by decide), hfg RT_DEST_KIND (by decide), hfg RT_DEST_QUEUE (by decide), hfg RT_DEST_PITCH (by decide),
    hfg RT_DEST_CHAN (by decide), hfb RT_DEST_SELF (by decide), hfb RT_DEST_CLASS_E (by decide), State.rtItem_rtHit, State.hubId_rtHit,
    State.mbOverruns_rtHit, State.ready_rtHit s rest e (show 0x020 < 0x200 by decide), State.ready_rtHit s rest e (show 0x014 < 0x200 by decide),
    State.recordsOn_rtHit, item_le_iff]

end


/-! ### Routed frames (R310) -/

theorem State.enCnt_core (s : State) (g i : Nat) : (s.enCnt g i).core = s.core := by
  unfold State.enCnt; split <;> simp

theorem State.inboxTake_cons {s : State} {p : Nat} {f : Frame} {rest : List Frame} (h : s.core.inbox.getD p [] = f :: rest) :
    s.inboxTake p = some (f, { s with core := { s.core with inbox := s.core.inbox.put p rest [] } }) := by
  unfold State.inboxTake
  rw [h]

/-- A routed message that its channel can take joins its FIFO; any other counts. -/
theorem State.routedTake_eq (s : State) (n : Nat) (f : Frame) :
    s.routedTake n f = if s.enMode (s.enOf n (f.hdr.argBits 0 3)) = 2 ∧ (s.chan n (f.hdr.argBits 0 3)).used + f.payload.length ≤ 1024 ∧
        s.pbInvalid (s.enOf n (f.hdr.argBits 0 3)) f.payload = false ∧ 12 ≤ f.payload.length ∧ f.payload.length = itemLen f.payload then
      s.setChan n (f.hdr.argBits 0 3) { s.chan n (f.hdr.argBits 0 3) with fifo := (s.chan n (f.hdr.argBits 0 3)).fifo ++ [(0, f.payload)] }
      else s.enCnt (s.enOf n (f.hdr.argBits 0 3)) 1 := by
  unfold State.routedTake
  dsimp only
  split
  next h =>
    refine (if_neg fun k => ?_).symm
    obtain ⟨h1, h2, h3, h4, h5⟩ := k
    rcases h with h | h | h | h | h
    · exact h h1
    · omega
    · rw [h3] at h; exact absurd h (by decide)
    · omega
    · exact h h5
  next h =>
    simp only [not_or, Bool.not_eq_true, Nat.not_lt, ne_eq, not_not] at h
    exact (if_pos h).symm

/-! ### Lookups in progress -/

theorem State.recBatch_looking (s : State) (n c ty : Nat) (u : Int) (i : List Byte) : (s.recBatch n c ty u i).looking = s.looking := by
  have hclose (t : State) : (t.recClose n c 0).looking = t.looking := by
    unfold State.recClose State.recSend
    split
    · rfl
    · dsimp only
      split
      · rfl
      · split <;> simp
  have hclosed {t : State} (h : t.looking = s.looking) (full : Prop) [Decidable full] : (if full then t.recClose n c 0 else t).looking = s.looking := by
    split
    · exact (hclose t).trans h
    · exact h
  have hfirst (o : Bool) : ((if o then s.recClose n c 0 else s).recAdd n c ty 0 u i).looking = s.looking := by
    cases o
    · rfl
    · exact hclose s
  unfold State.recBatch
  dsimp only
  split <;> exact hclosed (hfirst _) _
theorem State.pushEnt_looking (s : State) (q : Nat) (e : QEnt) : (s.pushEnt q e).looking = s.looking := rfl
theorem State.mbPush_looking (s : State) (m : Nat) (v : Word) : (s.mbPush m v).looking = s.looking := by
  unfold State.mbPush
  dsimp only
  cases hcell : s.endCycle.mbCell (mbQueue m) with
  | none => exact State.raise_looking ..
  | some ct =>
    obtain ⟨c, t⟩ := ct
    have ht : t.looking = s.looking := by
      unfold State.mbCell at hcell
      split at hcell
      · cases hcell
      · split at hcell
        · cases hcell; rfl
        · obtain ⟨b, -, hb⟩ := Option.map_eq_some_iff.1 hcell
          cases hb; rfl
    dsimp only
    rw [State.mirrorQueue_looking, State.raiseIf_looking, State.pushEnt_looking, State.setLink_looking, State.setCell_looking]
    exact ht
theorem State.rtAct_looking (s : State) (l : Look) (e : Nat) : (State.rtAct l s e).looking = s.looking := by
  unfold State.rtAct State.rtSend State.pbRecord State.routeDropped
  dsimp only
  generalize hu : s.inc (rtPage e) (RT_HITS_COUNT.at (rtOff e)) = u
  have hlook : u.looking = s.looking := by rw [← hu, State.inc_looking]
  rw [← hlook]
  split
  · exact State.stage_looking ..
  · split
    · exact State.stage_looking ..
    · split
      · split
        · rfl
        · split
          · rw [State.raise_looking, State.inc_looking, State.mbPush_looking]
          · exact State.mbPush_looking ..
      · split
        · exact State.recBatch_looking ..
        · rfl

/-- Settles O49. -/
theorem pbusMatrixAndRouting : Obligations.PbusMatrixAndRouting := by
  refine ⟨?_, ?_, ?_, fun s who e hacc hm => completes_pbCmd_other rfl hacc hm, fun s who e hacc hm => completes_pbCmd_other rfl hacc hm,
    fun s who e hacc hm => completes_pbCmd_other rfl hacc hm, ?_, ?_, ?_, ?_, ?_, ?_, ?_, ?_, ?_, ?_, ?_, ?_, ?_, ?_, ?_, ?_, ?_⟩
  · intro s who engine c hacc hm hc hen
    have hc' := (State.servedBy_touch s who false (enCluster (s.enReg engine)) (enPos (s.enReg engine))).trans hc
    refine completes_pbCmd rfl hacc hm ⟨fun h => ?_, fun h hne => ?_, fun h => ?_, State.ansOf_answer ..⟩
    · rw [State.pbCmdWrite_abort hc' (by rwa [State.chan_touch]), State.chan_answer, (State.pbEnd_chan ..).1, State.chan_touch]
    · rw [State.pbCmdWrite_abort hc' (by rwa [State.chan_touch]), State.chan_answer]
      exact (State.pbEnd_chan ..).2 (by rwa [State.chan_touch])
    · rw [State.pbCmdWrite_abort_sending hc' (by rwa [State.chan_touch]), State.answer_chans, State.touch_chans]
  · intro s who engine c hacc hm hc
    have hc' := (State.servedBy_touch s who false (enCluster (s.enReg engine)) (enPos (s.enReg engine))).trans hc
    refine completes_pbCmd rfl hacc hm ?_
    rw [State.pbCmdWrite_flush hc', State.chan_answer, State.chan_setChan, State.chan_touch]
    exact ⟨rfl, rfl, ((State.touch_onlyRegs s who false).of_regs (State.setChan_regs ..)).of_regs (State.answer_regs ..)⟩
  · intro s who engine c hacc hm hc
    have hg := enReg_ne_scan s engine
    have hc' := (State.servedBy_touch s who false (enCluster (s.enReg engine)) (enPos (s.enReg engine))).trans hc
    have hstate : (s.touch who false).pbState (s.enReg engine) = s.fg (s.enReg engine) PB_ERR_STATE := State.fg_touch_page s who _ _ hg
    refine completes_pbCmd rfl hacc hm ?_
    rw [State.pbCmdWrite_recover hc', hstate, State.chan_answer, State.fg_answer, State.answer_chans]
    have honly : onlyRegs [(s.enReg engine, PB_ERR), (0x01C, EVT_STATUS)] s (s.touch who false) :=
      onlyRegs.mono (State.touch_onlyRegs s who false) (by simp)
    refine ⟨fun h => ?_, fun h => ?_, ?_⟩
    · rw [if_pos h, State.fg_setChan, State.fg_fs _ _ _ _ (by decide), State.chan_setChan]
      exact ⟨rfl, rfl⟩
    · rw [if_neg h, State.touch_chans]
      exact ⟨State.fg_touch_page s who _ _ hg, rfl⟩
    · refine onlyRegs.of_regs ?_ (State.answer_regs ..)
      exact .ite ((honly.fs (f := PB_ERR_STATE) (by decide) (List.mem_cons_self ..)).of_regs (State.setChan_regs ..)) honly
  · intro s matrix n c x hown hrole hnext hdue
    refine ⟨_, exec_ttBasicCycleStart hown hrole hnext hdue, ?_⟩
    beta_reduce
    rw [State.ttBegin_chan]
    refine ⟨rfl, ⟨rfl, rfl, rfl⟩, rfl, (State.ttBegin_row ..).trans ?_, State.ttBegin_onlyRegs s n c _ _ _⟩
    unfold State.ttRowNext
    congr 1
    cases (s.chan n c).cycle <;> simp
  · intro s matrix h
    refine ⟨_, rfl, ?_⟩
    dsimp only
    cases hown : s.ttOwner (0x240 + matrix.val) with
    | none => rfl
    | some o =>
      rw [hown] at h
      obtain h := of_decide_eq_true h
      dsimp only
      by_cases hrole : s.fg (s.enOf o.1 o.2) PB_TT_STAT_ROLE = 1
      · rw [if_pos hrole]
        have h := h.resolve_left (fun k => k hrole)
        cases hnext : (s.chan o.1 o.2).ttNext with
        | none => rfl
        | some x =>
          rw [hnext] at h
          have hd : s.ttDue o.1 (s.ofNs x) = false := decide_eq_false (Int.not_le.2 (of_decide_eq_true h))
          exact if_pos (by simp [hd])
      · rw [if_neg hrole]
  · intro s matrix n c j ty k z u hown hcol hu hdue hcell
    obtain ⟨hj, hz⟩ := hcol
    have hexec : exec (.ttColumnStart matrix) s = .next ((s.ttColTurn n c (0x240 + matrix.val) j).ttColumn n c (0x240 + matrix.val) j u
        (z + s.ttColAt (0x240 + matrix.val) (j + 1))) := by
      have hd : s.ttDue n (z + s.ttColAt (0x240 + matrix.val) j) = true := decide_eq_true (hu ▸ hdue)
      refine congrArg Host.Outcome.next ?_
      unfold State.ttColTurn
      dsimp only
      rw [hown]
      dsimp only
      rw [hj, hz, hu]
      have hgo : ¬ (!s.ttDue n (z + s.ttColAt (0x240 + matrix.val) j)) = true := by rw [hd]; decide
      exact if_neg hgo
    exact ⟨_, hexec, State.ttColumn_spec (Nat.le_add_right ..) hcell u _⟩
  · intro s matrix h
    refine ⟨_, rfl, ?_⟩
    dsimp only
    cases hown : s.ttOwner (0x240 + matrix.val) with
    | none => rfl
    | some o =>
      rw [hown] at h
      have h := of_decide_eq_true h
      dsimp only
      cases hj : (s.chan o.1 o.2).col with
      | none => rfl
      | some j =>
        cases hz : (s.chan o.1 o.2).cycle with
        | none => rfl
        | some z =>
          rw [hj, hz] at h
          have hd : s.ttDue o.1 (z + s.ttColAt (0x240 + matrix.val) j) = false := decide_eq_false (Int.not_le.2 (of_decide_eq_true h))
          exact if_pos (by simp [hd])
  · intro s matrix n c x l hown hrole hnext hl hnow hmay
    have hexec : exec (.ttRefTimeout matrix) s = .next (s.ttMiss n c (0x240 + matrix.val) x) := by
      refine congrArg Host.Outcome.next ?_
      dsimp only
      rw [hown]
      dsimp only
      rw [if_neg (by omega), hnext]
      have hlim : s.ofNs x + nsU * (s.fg (0x240 + matrix.val) SM_REF_REF_WAIT : Int) = l := hl.symm
      dsimp only
      rw [hlim]
      exact if_neg (not_or.2 ⟨Int.not_lt.2 hnow, by rw [hmay]; decide⟩)
    exact ⟨_, hexec, State.ttMiss_spec s n c _ x⟩
  · intro s matrix h
    refine ⟨_, rfl, ?_⟩
    dsimp only
    cases hown : s.ttOwner (0x240 + matrix.val) with
    | none => rfl
    | some o =>
      rw [hown] at h
      have h := of_decide_eq_true h
      dsimp only
      by_cases hrole : s.fg (s.enOf o.1 o.2) PB_TT_STAT_ROLE = 1
      · rw [if_pos hrole]
      · rw [if_neg hrole]
        have h := h.resolve_left hrole
        cases hnext : (s.chan o.1 o.2).ttNext with
        | none => rfl
        | some x =>
          rw [hnext] at h
          refine if_pos ?_
          have h : (decide (s.now < s.ofNs x + nsU * (s.fg (0x240 + matrix.val) SM_REF_REF_WAIT : Int)) ||
            (s.chan o.1 o.2).mayRef (s.ofNs x + nsU * (s.fg (0x240 + matrix.val) SM_REF_REF_WAIT : Int))) = true := h
          simpa using h
  · intro s pitch chan sof item rest hgot href
    have hkept : (match s.ttOn pitch.val chan.val with
        | some m => if s.ttIsRef m (itemIdw item) (leAt item 4 1 % 16) then
            (s.msgCounted pitch.val chan.val rest).ttReference pitch.val chan.val m (itemIdw item) (item.drop 12) sof
          else s.msgCounted pitch.val chan.val rest
        | none => s.msgCounted pitch.val chan.val rest) = s.msgCounted pitch.val chan.val rest := by
      cases hon : s.ttOn pitch.val chan.val with
      | none => rfl
      | some m =>
        dsimp only
        split
        next his =>
          obtain ⟨hrole, hid⟩ := href m hon his
          refine State.ttReference_stays ⟨?_, ?_⟩
          · rw [State.enOf_msgCounted, State.fg_msgCounted_off _ _ _ _ (by decide), hrole]
          · rwa [State.fg_msgCounted_page _ _ _ _ (matrix_ne_enOf _ _ _ (State.ttOn_page hon))]
        next => rfl
    have hrt : (0x200 : Nat) ≠ s.enOf pitch.val chan.val := by unfold State.enOf enPage; omega
    have hfb (p : Nat) (f : Fld) (h : regKey 0 f.off ≠ regKey 0 PB_CNT_RX_COUNT.off) : (s.msgCounted pitch.val chan.val rest).fb p f = s.fb p f := by
      unfold State.fb
      rw [State.fg_msgCounted_off _ _ _ _ h]
    have hmode (p : Nat) : (s.msgCounted pitch.val chan.val rest).enMode p = s.enMode p := State.fg_msgCounted_off _ _ _ _ (by decide) _
    have hgate : ((s.msgCounted pitch.val chan.val rest).ready 0x200 && (s.msgCounted pitch.val chan.val rest).fb 0x200 RT_CTRL_EN) =
        (s.ready 0x200 && s.fb 0x200 RT_CTRL_EN) := congrArg₂ (· && ·) (hfb _ _ (by decide)) (hfb _ _ (by decide))
    refine ⟨_, (exec_pbusMessageReceived hgot).trans (congrArg (fun t : State => Host.Outcome.next (t.msgPassed _)) hkept), ?_⟩
    unfold State.msgPassed State.pbUnmatched State.pbRecord
    dsimp only
    rw [hgate, State.enOf_msgCounted, hmode, hfb _ PB_CFG_UNMATCHED (by decide), hfb _ EN_RXDST_RX_EN (by decide)]
    refine ⟨fun h => if_pos h, fun h hrec => ?_, fun h hrec => ?_⟩
    · rw [h, hrec]; rfl
    · rw [h, hrec]; rfl
  · intro s pitch chan m sof z item rest hgot hon his hlower hz
    have hm := State.ttOn_page hon
    have hrole := State.fg_msgCounted_off s pitch.val chan.val rest (f := PB_TT_STAT_ROLE) (by decide) (s.enOf pitch.val chan.val)
    have hpage (f : Fld) := State.fg_msgCounted_page s pitch.val chan.val rest (matrix_ne_enOf _ _ _ hm) f
    obtain ⟨hchan, hrow, hsync, hmiss, hrole', hoff⟩ := State.ttReference_taken (s := s.msgCounted pitch.val chan.val rest) (n := pitch.val)
      (c := chan.val) (m := m) (idw := itemIdw item) (data := item.drop 12) (sof := sof) (by rwa [State.enOf_msgCounted, hrole, hpage])
    have hst48 (u : Int) : (s.msgCounted pitch.val chan.val rest).stNs u = s.stNs u := by
      unfold State.stNs State.st48
      rw [State.stAt_msgCounted]
    have hz' : sof - nsU * (leAt (item.drop 12) 1 2 : Int) = z := hz.symm
    rw [State.msgCounted_chan, State.stAt_msgCounted, hpage, hz'] at hchan
    rw [hst48, hz'] at hoff
    rw [State.enOf_msgCounted] at hrow hsync hmiss hrole' hoff
    rw [hrole] at hrole'
    refine ⟨_, exec_pbusMessageReceived hgot, ?_⟩
    beta_reduce
    rw [hon]
    dsimp only
    rw [if_pos his]
    generalize (s.msgCounted pitch.val chan.val rest).ttReference pitch.val chan.val m (itemIdw item) (item.drop 12) sof = t at hchan hrow hsync hmiss hrole' hoff ⊢
    obtain ⟨⟨b, r, u, hsoft⟩, hrd⟩ := State.msgPassed_soft t { pitch := pitch.val, chan := chan.val, item := item, sof := sof }
    have hne : s.enOf pitch.val chan.val ≠ 0x200 := by unfold State.enOf enPage; omega
    have hfg (f : Fld) (h : regKey 0 f.off ≠ regKey 0 EVT_STATUS) :
        (t.msgPassed { pitch := pitch.val, chan := chan.val, item := item, sof := sof }).fg (s.enOf pitch.val chan.val) f =
          t.fg (s.enOf pitch.val chan.val) f := by simp only [State.fg, hrd _ f.off hne h]
    dsimp only at hsoft
    rw [hsoft, hchan, hfg _ (by decide), hfg _ (by decide), hfg _ (by decide), hfg _ (by decide), hrd _ _ hne (by decide)]
    exact ⟨rfl, ⟨rfl, rfl⟩, ⟨hrow, hsync, hmiss⟩, hrole', hoff, rfl⟩
  · intro s pitch chan hgot
    refine ⟨_, rfl, ?_⟩
    dsimp only
    rw [hgot]
  · intro s l rest hw
    refine ⟨_, rfl, ?_⟩
    rw [hw]
  · intro s hw
    refine ⟨_, rfl, ?_⟩
    rw [hw]
  · intro s hl
    refine ⟨_, rfl, ?_⟩
    rw [hl]
  · intro s l rest hl hes
    refine ⟨_, exec_routeLookupDone_unmatched hl hes, fun h => if_pos h, fun h => if_neg ?_⟩
    exact Bool.eq_false_iff.1 h
  · intro s l rest es hl hes hne
    have hlooking (t : State) : (es.foldl (State.rtAct l) t).looking = t.looking := by
      clear hes hne
      induction es generalizing t with
      | nil => rfl
      | cons e es ih => exact (ih _).trans (State.rtAct_looking ..)
    exact ⟨_, exec_routeLookupDone_matched hl hes hne, ⟨hlooking _, hes ▸ State.rtFind_length ..⟩, rfl⟩
  · intro s l rest e hub hl hes hhub
    refine ⟨_, exec_routeLookupDone_matched hl hes (List.cons_ne_nil _ _), ?_⟩
    rw [List.foldl_cons, List.foldl_nil, State.rtAct_eq]
    dsimp only
    rw [← hhub]
    refine ⟨fun h => if_pos h, fun h => ?_, fun h hready hover => ?_, fun h hready => ?_, fun h => ?_⟩
    · rw [if_neg (by omega), if_pos h]; rfl
    · rw [if_neg (by omega), if_neg (by omega), if_pos h, hready, hover]; rfl
    · rw [if_neg (by omega), if_neg (by omega), if_pos h, hready]; rfl
    · rw [if_neg (by omega), if_neg (by omega), if_neg (by omega)]; rfl
  · intro s pitch f rest fits hin hrouted hfits
    generalize hu : ({ s with core := { s.core with inbox := s.core.inbox.put (portCluster pitch.val) rest [] } } : State) = u
    have hexec : exec (.routedFrameReceived pitch) s = .next (u.routedTake pitch.val f) := by
      refine congrArg Host.Outcome.next ?_
      rw [State.inboxTake_cons hin, hu]
      exact if_pos hrouted
    have hinbox : u.core.inbox.getD (portCluster pitch.val) [] = rest := by rw [← hu]; exact Map.getD_put_same ..
    have hregs : u.regs = s.regs := by rw [← hu]
    have hchans : u.chans = s.chans := by rw [← hu]
    have hen (c : Nat) : u.enOf pitch.val c = s.enOf pitch.val c := State.enOf_of_map (State.rd_of_regs hregs _ _) c
    have hchan (c : Nat) : u.chan pitch.val c = s.chan pitch.val c := State.chan_of_chans hchans ..
    have hmode (g : Nat) : u.enMode g = s.enMode g := State.fg_of_regs hregs ..
    have hinv (g : Nat) (b : List Byte) : u.pbInvalid g b = s.pbInvalid g b := by
      unfold State.pbInvalid State.fb
      rw [State.fg_of_regs hregs]
    refine ⟨_, hexec, ?_⟩
    rw [State.routedTake_eq, hchan, hmode, hinv, hen]
    cases fits
    · rw [if_neg (of_decide_eq_false hfits.symm)]
      refine ⟨?_, nofun, fun _ => ⟨(State.enCnt_chans ..).trans hchans, (State.fg_enCnt _ _ (i := 1) (by decide)).trans ?_⟩⟩
      · rw [State.enCnt_core]; exact hinbox
      · rw [State.fg_of_regs hregs]
    · rw [if_pos (of_decide_eq_true hfits.symm), State.chan_setChan]
      exact ⟨hinbox, fun _ => ⟨rfl, (State.setChan_regs ..).trans hregs⟩, nofun⟩
  · intro s pitch h
    refine ⟨_, rfl, ?_⟩
    dsimp only
    cases hin : s.core.inbox.getD (portCluster pitch.val) [] with
    | nil =>
      unfold State.inboxTake
      rw [hin]
    | cons f rest =>
      rw [State.inboxTake_cons hin]
      exact if_neg (by rw [h f (by rw [hin]; rfl)]; decide)

end Sys2Proof.Machine
end

section
set_option Elab.async false
namespace Sys2Proof.Machine

/-! ### What an engine's decisions leave: the reports waiting for the channel, and the twin's state -/

/-- The reports that wait for the channel and the state of the twin are as they were. -/
structure RepsKept (n c : Nat) (s t : State) : Prop where
  reps : (t.chan n c).reps = (s.chan n c).reps
  tw : t.tw = s.tw

namespace RepsKept

variable {n c : Nat} {s t : State}

theorem refl (n c : Nat) (s : State) : RepsKept n c s s := ⟨rfl, rfl⟩
theorem ite {p : Prop} [Decidable p] {a b : State} (ha : RepsKept n c s a) (hb : RepsKept n c s b) : RepsKept n c s (if p then a else b) := by
  split
  · exact ha
  · exact hb

/-! #### Operations on the state -/

theorem set (h : RepsKept n c s t) (x : Chan) (hx : x.reps = (t.chan n c).reps := by rfl) : RepsKept n c s (t.setChan n c x) :=
  ⟨by rw [State.chan_setChan, hx, h.reps], h.tw⟩
theorem setNext (h : RepsKept n c s t) (x : Chan) : RepsKept n c s (t.setChan n (c + 1) x) :=
  ⟨by rw [State.chan_setChan_ne _ _ (by omega), h.reps], h.tw⟩
theorem wr (h : RepsKept n c s t) (p o : Nat) (v : Word) : RepsKept n c s (t.wr p o v) := ⟨h.reps, h.tw⟩
theorem fs (h : RepsKept n c s t) (p : Nat) (f : Fld) (v : Nat) : RepsKept n c s (t.fs p f v) := ⟨h.reps, h.tw⟩
theorem inc (h : RepsKept n c s t) (p : Nat) (f : Fld) : RepsKept n c s (t.inc p f) := ⟨h.reps, h.tw⟩
theorem tookFree (h : RepsKept n c s t) : RepsKept n c s t.tookFree := ⟨h.reps, h.tw⟩
theorem fault (h : RepsKept n c s t) (a b : Nat) : RepsKept n c s (t.fault a b) := ⟨h.reps, h.tw⟩
theorem raise (h : RepsKept n c s t) (p b : Nat) : RepsKept n c s (t.raise p b) :=
  ⟨by rw [State.chan_raise, h.reps], by rw [State.raise_tw, h.tw]⟩
theorem raiseIf (h : RepsKept n c s t) (e : Bool) (p b : Nat) : RepsKept n c s (t.raiseIf e p b) := h.raise p b |>.ite h
theorem enCnt (h : RepsKept n c s t) (g i : Nat) : RepsKept n c s (t.enCnt g i) := ((h.inc ..).raise ..).ite (h.inc ..)
theorem enCntIf {p : Prop} [Decidable p] (h : RepsKept n c s t) (g i : Nat) : RepsKept n c s (if p then t.enCnt g i else t) :=
  (h.enCnt ..).ite h
theorem addWrap (h : RepsKept n c s t) (p : Nat) (f : Fld) (k : Nat) : RepsKept n c s (t.addWrap p f k) := ⟨h.reps, h.tw⟩

/-! #### Outputs, FIFO and records of a channel -/

theorem place (h : RepsKept n c s t) (u : Int) (l e : Bool) : RepsKept n c s (t.place n c u l e) := h.set _
theorem fifoPop (h : RepsKept n c s t) : RepsKept n c s (t.fifoPop n c) := (h.set _).raiseIf ..
theorem recSend (h : RepsKept n c s t) (b : RecBuf) : RepsKept n c s (t.recSend n c b) :=
  ⟨(congrArg Chan.reps (State.chan_setChan ..)).trans h.reps, h.tw⟩
theorem recAdd (h : RepsKept n c s t) (ty f : Nat) (u : Int) (i : List Byte) : RepsKept n c s (t.recAdd n c ty f u i) := h.set _
theorem recClose (h : RepsKept n c s t) (f : Nat) : RepsKept n c s (t.recClose n c f) := by
  unfold State.recClose
  split
  · exact h
  next b _ =>
    have hopen : RepsKept n c s (t.setChan n c { t.chan n c with buf := none }) := h.set _
    exact (hopen.set _).ite ((hopen.recSend _).ite (hopen.raise ..))
theorem recBatch (h : RepsKept n c s t) (ty : Nat) (u : Int) (i : List Byte) : RepsKept n c s (t.recBatch n c ty u i) := by
  have hadd := fun e : Bool => ((h.recClose 0).ite (p := e = true) h).recAdd ty 0 u i
  exact ((hadd _).recClose 0).ite (hadd _)

/-! #### ASYNC (R264-R268) -/

theorem asAdd (h : RepsKept n c s t) (u : Int) (i : List Byte) (m : Nat) : RepsKept n c s (t.asAdd n c u i m) := by
  have hadd : RepsKept n c s _ := (h.recAdd 0x01 (if (t.chan n c).cont then 2 else 0) u i).set
    { (t.recAdd n c 0x01 (if (t.chan n c).cont then 2 else 0) u i).chan n c with cont := false }
  exact ((hadd.recClose 0).set _).ite hadd
theorem asFrame (h : RepsKept n c s t) (u : Int) (d : Nat) (i : List Byte) : RepsKept n c s (t.asFrame n c u d i) := by
  have haddr : RepsKept n c s _ := (h.recClose 4).set
    { (t.recClose n c 4).chan n c with keep := t.asKeep (t.enOf n c) d, addrSeen := true, cont := false }
  exact (h.asAdd ..).ite ((h.asAdd ..).ite (((haddr.asAdd ..).ite haddr).ite ((h.asAdd ..).ite h)))
theorem asEnd (h : RepsKept n c s t) (x : AsyncRx) (stop : Bool) (u : Int) : RepsKept n c s (t.asEnd n c x stop u) :=
  (((h.set _).enCntIf ..).enCntIf ..).asFrame ..
theorem asJudge (h : RepsKept n c s t) (x : AsyncRx) (l q : Bool) (u : Int) : RepsKept n c s (t.asJudge n c x l q u) := by
  have h1 := fun p : Bool => (h.enCnt (t.enOf n c) 3).ite (p := p = true) h
  exact ((((h1 _).enCnt ..).set _ (by simp)).ite ((h1 _).set _)).ite (((h1 _).set _).ite ((h1 _).asEnd ..))
theorem asStart (h : RepsKept n c s t) (r : Rep) : RepsKept n c s (t.asStart n c r) := ((h.set _).ite h).ite (h.set _)
theorem asReport (h : RepsKept n c s t) (r : Rep) : RepsKept n c s (t.asReport n c r) := by
  unfold State.asReport
  refine (h.set _).ite (asStart ?_ r)
  have hwait : RepsKept n c s (match (t.chan n c).wait with
      | some u => t.setChan n c { t.chan n c with wait := waitMark (t.asChar (t.enOf n c)) (t.mark (t.enOf n c)) r u }
      | none => t) := by
    split
    · exact h.set _
    · exact h
  split
  · exact (hwait.asJudge ..).ite hwait
  · exact hwait
theorem asGap (h : RepsKept n c s t) (fin : Int) : RepsKept n c s (t.asGap n c fin) :=
  (((h.set _).enCnt ..).recClose 1).ite ((h.set _).ite h)

/-! #### SYNC (R269-R273) -/

theorem syReport (h : RepsKept n c s t) (r : Rep) : RepsKept n c s (t.syReport n c r) := by
  unfold State.syReport
  dsimp only
  split
  · exact h
  · exact (h.set _).ite h
theorem syCut (h : RepsKept n c s t) : RepsKept n c s (t.syCut n c) := by
  unfold State.syCut
  dsimp only
  split
  · exact (((h.set _).enCnt ..).fs ..).setNext _
  · exact ((h.set _).enCnt ..).fs ..
theorem syGap (h : RepsKept n c s t) (base : Int) : RepsKept n c s (t.syGap n c base) := by
  unfold State.syGap
  dsimp only
  split
  · exact h
  · exact h.syCut.ite h

/-! #### DISC (R274-R279) -/

theorem diRecord (h : RepsKept n c s t) (u : Int) (l g e : Bool) : RepsKept n c s (t.diRecord n c u l g e) := (h.recBatch ..).ite h
theorem diNote (h : RepsKept n c s t) (u : Int) : RepsKept n c s (t.diNote n c u) := h.set _
theorem diCapture (h : RepsKept n c s t) (u : Int) (l g : Bool) : RepsKept n c s (t.diCapture n c u l g) := by
  unfold State.diCapture
  refine (h.set _).ite ?_
  split
  · exact ((h.wr ..).set _).ite (h.wr ..)
  · exact (h.set _).ite h
theorem diAccept (h : RepsKept n c s t) (u i : Int) (l g : Bool) : RepsKept n c s (t.diAccept n c u i l g) := by
  have h1 : RepsKept n c s (t.setChan n c { t.chan n c with acc := some l, deb := none }) := h.set _
  exact ((((h1.addWrap ..).diRecord ..).ite h1).diCapture ..).diNote _
theorem diMature (h : RepsKept n c s t) (u : Int) : RepsKept n c s (t.diMature n c u) := by
  unfold State.diMature
  dsimp only
  split
  · exact (h.diAccept ..).ite h
  · exact h
theorem diEdge (h : RepsKept n c s t) (u : Int) (l : Bool) : RepsKept n c s (t.diEdge n c u l) :=
  (((h.set _).enCnt ..).ite h).ite ((h.diAccept ..).ite (h.set _))
theorem diGlitch (h : RepsKept n c s t) (u : Int) (l : Bool) : RepsKept n c s (t.diGlitch n c u l) :=
  ((h.set _).enCnt ..).ite (((h.diAccept ..).diAccept ..).ite (h.diAccept ..))
theorem diAfterGap (h : RepsKept n c s t) (u : Int) (l : Bool) : RepsKept n c s (t.diAfterGap n c u l) :=
  ((h.set _).diNote _).ite (h.ite (((((h.set _).fs ..).enCnt ..).diRecord ..).diNote _))
theorem diReport (h : RepsKept n c s t) (r : Rep) : RepsKept n c s (t.diReport n c r) := by
  unfold State.diReport
  dsimp only
  have h1 := fun (p : Bool) l => (h.diAfterGap r.base l).ite (p := p = true) h
  have h2 := fun (p q : Bool) l => ((h1 p l).diMature r.stamp).ite (p := q = true) (h1 p l)
  exact (((h2 _ _ _).diGlitch ..).ite (((h2 _ _ _).diEdge ..).ite (h2 _ _ _))).set _
theorem diGap (h : RepsKept n c s t) : RepsKept n c s (t.diGap n c) := h.set _

/-! #### PBUS (R288-R303) -/

theorem setPb (h : RepsKept n c s t) (p : Pb) : RepsKept n c s (t.setPb n c p) := h.set _
theorem pbDrive (h : RepsKept n c s t) (u : Int) (o : Bool) : RepsKept n c s (t.pbDrive n c u o) := h.ite ((h.place ..).setPb _)
theorem pbForce (h : RepsKept n c s t) (u : Int) (o : Bool) : RepsKept n c s (t.pbForce n c u o) := ((h.set _).place ..).setPb _
theorem pbActive (h : RepsKept n c s t) (g : Nat) : RepsKept n c s (t.pbActive g) := ((h.fs ..).raiseIf ..).ite (h.fs ..)
theorem pbCounters (h : RepsKept n c s t) (tec rc : Nat) : RepsKept n c s (t.pbCounters n c tec rc) := by
  have h1 : RepsKept n c s ((t.fs (t.enOf n c) PB_ERR_TEC (min tec 255)).fs (t.enOf n c) PB_ERR_REC (min rc 255)) := (h.fs ..).fs ..
  exact h.ite (h1.ite ((((h1.fs ..).raise ..).set _).ite (h1.pbActive _)))
theorem pbMore (h : RepsKept n c s t) (tx : Bool) (d : Nat) : RepsKept n c s (t.pbMore n c tx d) := (h.pbCounters ..).ite (h.pbCounters ..)
theorem pbLess (h : RepsKept n c s t) (tx : Bool) : RepsKept n c s (t.pbLess n c tx) :=
  (h.pbCounters ..).ite ((h.pbCounters ..).ite (h.tookFree.pbCounters ..))
theorem pbRecessive (h : RepsKept n c s t) : RepsKept n c s (t.pbRecessive n c) :=
  (h.pbActive _).ite (((((h.fs ..).fs ..).fs ..).set _).ite (h.set _) |>.ite h)
theorem pbEnd (h : RepsKept n c s t) (res : Nat) (sof : Option Int) : RepsKept n c s (t.pbEnd n c res sof) := by
  unfold State.pbEnd
  dsimp only
  split
  · exact h
  · have h3 : RepsKept n c s _ := (h.fifoPop.set { (t.fifoPop n c).chan n c with
      tx := ((t.fifoPop n c).chan n c).tx.filter fun t => t.1.isSome, attempts := 0 }).enCntIf (p := res = 2 ∨ res = 4) (t.enOf n c) 2
    exact (h3.recBatch ..).ite h3
theorem pbInvalidHeads (k : Nat) : ∀ {t : State}, RepsKept n c s t → RepsKept n c s (t.pbInvalidHeads n c k) := by
  induction k with
  | zero => exact id
  | succ k ih =>
    intro t h
    unfold State.pbInvalidHeads
    split
    · exact h
    · exact (ih (h.pbEnd ..)).ite h
theorem pbPick (h : RepsKept n c s t) (u : Int) : RepsKept n c s (t.pbPick n c u).1 := by
  have hinv := pbInvalidHeads (t.chan n c).fifo.length h
  unfold State.pbPick
  dsimp only
  split
  · exact h
  · split
    · split <;> exact h.set _
    · repeat' split
      all_goals exact hinv
theorem pbOwn (h : RepsKept n c s t) (src : Option Nat) (u : Int) : RepsKept n c s (t.pbOwn n c src u) := h.set _
theorem pbStart (h : RepsKept n c s t) (src : Option Nat) (u : Int) : RepsKept n c s (t.pbStart n c src u) := ((h.setPb _).pbOwn ..).pbDrive ..
theorem pbTry (h : RepsKept n c s t) (u : Int) : RepsKept n c s (t.pbTry n c u) := by
  have hp := h.pbPick u
  unfold State.pbTry
  split
  next a src e => rw [e] at hp; exact hp.pbStart ..
  next a e => rw [e] at hp; exact hp
theorem pbSendNext (h : RepsKept n c s t) (u : Int) (f : Bool) : RepsKept n c s (t.pbSendNext n c u f) :=
  ((h.setPb _).setPb _).ite ((h.setPb _).pbDrive ..)
theorem pbAhead (h : RepsKept n c s t) (u : Int) : RepsKept n c s (t.pbAhead n c u) := h.set _
theorem pbTxError (h : RepsKept n c s t) : RepsKept n c s (t.pbTxError n c) := by
  unfold State.pbTxError
  dsimp only
  split
  · exact h
  · exact h.set _
  · exact ((h.set _).pbEnd ..).ite (h.set _)
theorem pbFlag (h : RepsKept n c s t) (f : PbFlag) (u : Int) : RepsKept n c s (t.pbFlag n c f u) := (h.setPb _).pbForce ..
theorem pbOut (h : RepsKept n c s t) (u : Int) : RepsKept n c s (t.pbOut n c u) := (h.setPb _).pbForce ..
theorem pbError (h : RepsKept n c s t) (lec : Nat) (e : Bool) (u : Int) : RepsKept n c s (t.pbError n c lec e u) := by
  have h1 : RepsKept n c s ((t.fs (t.enOf n c) PB_ERR_LEC lec).enCnt (t.enOf n c) 0) := (h.fs ..).enCnt ..
  unfold State.pbError
  dsimp only
  refine ((h1.fs ..).pbOut _).ite ?_
  have h2 := h1.pbTxError.ite (p := (t.pb n c).tx = true) h1
  have h3 (p : Bool) := h2.ite (p := p = true) (h2.pbMore (t.pb n c).tx (if (t.pb n c).tx then 8 else 1))
  exact ((h3 _).pbOut _).ite (((h3 _).setPb _).pbFlag ..)
theorem pbSent (h : RepsKept n c s t) : RepsKept n c s (t.pbSent n c) := by
  have h1 := h.pbLess true
  unfold State.pbSent
  dsimp only
  split
  · exact h1
  · exact (h1.set _).inc ..
  · exact (h1.inc ..).pbEnd ..
theorem pbGot (h : RepsKept n c s t) : RepsKept n c s (t.pbGot n c) := (h.pbLess false).set _
theorem pbTake (h : RepsKept n c s t) (x u : Int) (v : Bool) : RepsKept n c s (t.pbTake n c x u v) := by
  unfold State.pbTake
  dsimp only
  split
  · exact h.pbError ..
  · exact h.pbError ..
  · exact (h.setPb _).pbSendNext ..
  · exact ((((h.setPb _).pbSendNext ..).ite (h.setPb _)).pbAhead _).ite (((h.setPb _).pbSendNext ..).ite (h.setPb _))
theorem pbFrameBit (h : RepsKept n c s t) (x u : Int) (v : Bool) : RepsKept n c s (t.pbFrameBit n c x u v) :=
  (h.pbTake ..).ite (((h.pbError ..).ite (((h.set _).inc ..).pbTake ..)).ite (h.pbError ..))
theorem pbTail (h : RepsKept n c s t) (x u : Int) (v : Bool) : RepsKept n c s (t.pbTail n c x u v) := by
  unfold State.pbTail
  dsimp only
  split
  · exact (h.pbError ..).ite ((h.setPb _).pbDrive ..)
  · exact (h.pbError ..).ite ((h.pbError ..).ite ((h.setPb _).pbDrive ..))
  · exact ((h.pbError ..).ite ((h.pbError ..).ite (h.setPb _))).ite ((h.setPb _).ite (h.pbError ..))
  · exact (((h.setPb _).pbGot).ite ((h.setPb _).pbSent.ite (h.setPb _))).ite (h.pbError ..)
  · exact h
theorem pbFlagBit (h : RepsKept n c s t) (u : Int) (v was : Bool) : RepsKept n c s (t.pbFlagBit n c u v was) := by
  have hnext {a : State} (ha : RepsKept n c s a) (ph : PbPhase) (k : Nat) :
      RepsKept n c s (if a.pbOn (t.enOf n c) then a.setPb n c { a.pb n c with ph := ph, k := k } else a.pbOut n c u) :=
    (ha.setPb _).ite (ha.pbOut _)
  unfold State.pbFlagBit
  dsimp only
  split
  · refine (hnext (((h.pbMore ..).setPb _).ite h) ..).ite ?_
    have h1 := (((h.fs (t.enOf n c) PB_ERR_LEC 5).enCnt (t.enOf n c) 0).pbMore (t.pb n c).tx 8).ite (p := v = true) h
    exact ((hnext h1 ..).pbDrive ..).ite (hnext h1 ..)
  · have h1 := (h.pbMore false 8).ite (p := (t.pb n c).k = 0 ∧ (!(t.pb n c).tx) = true ∧ (t.pb n c).flag ≠ .overload) h
    exact (h.setPb _).ite (hnext ((h1.pbMore ..).ite h1) ..)
  · exact (h.setPb _).ite ((h.setPb _).ite (h.pbError ..))
  · exact h
theorem pbFlushAll (k : Nat) : ∀ {t : State}, RepsKept n c s t → RepsKept n c s (t.pbFlushAll n c k) := by
  induction k with
  | zero => exact fun h => h.set _
  | succ k ih => exact fun h => ih (h.pbEnd ..)
theorem pbBoundary (h : RepsKept n c s t) : RepsKept n c s (t.pbBoundary n c) := (pbFlushAll _ h).ite h
theorem pbSof (h : RepsKept n c s t) (x u : Int) (v may : Bool) : RepsKept n c s (t.pbSof n c x u v may) := by
  have h1 := h.setPb ((t.pb n c).begin (t.pb n c).sof)
  have hp := h1.pbPick (t.pb n c).sof
  unfold State.pbSof
  dsimp only
  refine (((h1.pbOwn ..).pbForce ..).pbTake ..).ite ((h1.pbTake ..).ite ?_)
  split
  next a src e => rw [e] at hp; exact (hp.pbOwn ..).pbTake ..
  next a e => rw [e] at hp; exact hp.pbTake ..
theorem pbBetween (h : RepsKept n c s t) (x u : Int) (v : Bool) : RepsKept n c s (t.pbBetween n c x u v) := by
  unfold State.pbBetween
  dsimp only
  split
  · exact (h.setPb _).ite ((h.setPb _).ite (h.pbRecessive.setPb _))
  · exact (h.pbSof ..).ite (h.ite (h.pbTry _))
  · exact (h.pbSof ..).ite ((h.setPb _).ite ((h.setPb _).pbTry _))
  · refine ((h.setPb _).ite (((h.fs ..).pbOut _).ite (h.pbFlag ..))).ite ((h.pbSof ..).ite ?_)
    have h1 := (h.setPb { t.pb n c with bnd := t.pbWaits n c }).pbBoundary
    exact (h1.setPb _).ite ((h1.setPb _).ite ((h1.setPb _).pbTry _))
  · exact h
theorem pbJudge (h : RepsKept n c s t) (x : Int) (m : Bool) : RepsKept n c s (t.pbJudge n c x m) := by
  unfold State.pbJudge
  dsimp only
  split
  · exact (h.setPb _).pbFrameBit ..
  iterate 4 exact (h.setPb _).pbTail ..
  iterate 3 exact (h.setPb _).pbFlagBit ..
  iterate 4 exact (h.setPb _).pbBetween ..
theorem pbSecond (h : RepsKept n c s t) (y : Int) (m : Bool) : RepsKept n c s (t.pbSecond n c y m) := by
  unfold State.pbSecond
  dsimp only
  split
  · exact h
  · exact (h.setPb _).ite ((h.setPb _).pbError ..)
theorem pbEdge (h : RepsKept n c s t) (e : Int) : RepsKept n c s (t.pbEdge n c e) := by
  unfold State.pbEdge
  extract_lets _ q a p
  have ha : RepsKept n c s a := by
    dsimp only [a]
    split
    · exact ((h.fs ..).setPb _).ite h
    · exact h
  exact ha.ite ((ha.setPb _).ite ((ha.setPb _).ite (ha.ite ((ha.setPb _).ite (ha.ite (ha.setPb _))))))
theorem pbRun (r : Rep) (prev : Bool) (k : Nat) :
    ∀ (edge : Option Int) {t : State}, RepsKept n c s t → RepsKept n c s (State.pbRun n c r prev k edge t) := by
  induction k with
  | zero => exact fun _ _ h => h
  | succ k ih =>
    intro edge t h
    unfold State.pbRun
    dsimp only
    split
    · exact h
    · exact (ih _ (h.pbEdge _)).ite ((ih _ (h.setPb _)).ite ((ih _ (h.pbSecond ..)).ite (ih _ (h.pbJudge ..))))
theorem pbReport (h : RepsKept n c s t) (r : Rep) : RepsKept n c s (t.pbReport n c r) := by
  unfold State.pbReport
  exact pbRun _ _ _ _ ((h.setPb _).ite (h.setPb _).pbBoundary)
theorem pbGap (h : RepsKept n c s t) : RepsKept n c s (t.pbGap n c) := by
  unfold State.pbGap
  dsimp only
  have h1 (p q : Prop) [Decidable p] [Decidable q] :=
    ((h.set { t.chan n c with tx := none }).enCnt (t.enOf n c) 2).ite (p := p) ((h.enCnt (t.enOf n c) 1).ite (p := q) h)
  have h2 (p q w : Prop) [Decidable p] [Decidable q] [Decidable w] (u : Int) := ((h1 p q).ite (p := w) ((h1 p q).pbForce u true)).setPb { out := true }
  exact ((h2 _ _ _ _).fs ..).ite (h2 _ _ _ _)
theorem dueLost (h : RepsKept n c s t) : RepsKept n c s (t.dueLost n c) := by
  unfold State.dueLost
  dsimp only
  refine h.ite ?_
  refine List.foldlRecOn (motive := fun u => RepsKept n c s u) _ _ (h.set _) fun u hu _ _ => (hu.enCnt ..).raise ..

end RepsKept

/-! ### The oldest report leaves the channel -/

theorem State.repTaken_chan (s : State) (n c : Nat) (l : Option Bool) :
    (s.repTaken n c l).chan n c = { s.chan n c with reps := (s.chan n c).reps.tail, prev := l } := State.chan_setChan ..
theorem State.repTaken_regs (s : State) (n c : Nat) (l : Option Bool) : (s.repTaken n c l).regs = s.regs := rfl
/-- With no mirrored state waiting for the channel nothing is loaded (R404). -/
theorem RepsKept.engLoad {s t : State} {n c : Nat} (h : RepsKept n c s t) (he : s.tw.eng.getD (8 * n + c) [] = []) (l : Option Bool) :
    (t.repTaken n c l).engLoad n c = t.repTaken n c l := by
  have : (t.repTaken n c l).tw.eng.getD (8 * n + c) [] = [] := (congrArg (fun w => w.eng.getD (8 * n + c) []) h.tw).trans he
  unfold State.engLoad
  rw [this]

/-- What an engine that runs makes of a report, by its mode. -/
def State.repJudged (s t : State) (n c : Nat) (r : Rep) : State :=
  if !s.enRuns (s.enOf n c) then t
  else if s.enMode (s.enOf n c) = 1 then t.asReport n c r
  else if s.enMode (s.enOf n c) = 2 then t.pbReport n c r
  else if s.enMode (s.enOf n c) = 3 then t.syReport n c r
  else if s.enMode (s.enOf n c) = 4 then t.diReport n c r
  else t

theorem RepsKept.repJudged {n c : Nat} {s t : State} (h : RepsKept n c s t) (r : Rep) : RepsKept n c s (s.repJudged t n c r) :=
  h.ite ((h.asReport r).ite ((h.pbReport r).ite ((h.syReport r).ite ((h.diReport r).ite h))))

theorem RepsKept.engParity {n c : Nat} {s t : State} (h : RepsKept n c s t) (p : EngParity) : RepsKept n c s (t.engParity n c p) := by
  cases p
  · exact h
  · exact ((h.fs ..).ite h).fault ..
  · exact (((h.fs ..).ite h).fault ..).ite h
theorem State.engParity_chans (s : State) (n c : Nat) (p : EngParity) : (s.engParity n c p).chans = s.chans := by
  cases p
  · rfl
  · unfold State.engParity
    dsimp only
    split <;> rfl
  · unfold State.engParity
    dsimp only
    repeat' split
    all_goals rfl

section
variable {s : State} {pitch : Pitch} {chan : Channel} {r : Rep} {rest : List Rep}

theorem exec_engineFrameReport (hr : (s.chan pitch.val chan.val).reps = r :: rest) (hg : r.gap = false)
    (he : s.tw.eng.getD (8 * pitch.val + chan.val) [] = []) (parity : EngParity) :
    exec (.engineFrameReport pitch chan parity) s = .next
      ((s.repJudged (s.engParity pitch.val chan.val parity) pitch.val chan.val r).repTaken pitch.val chan.val (some r.level)) := by
  rw [← (((RepsKept.refl pitch.val chan.val s).engParity parity).repJudged r).engLoad he]
  refine congrArg Host.Outcome.next ?_
  dsimp only
  rw [hr]
  exact if_neg (by simp [hg])

theorem reps_engineFrameReport (hr : (s.chan pitch.val chan.val).reps = r :: rest) (parity : EngParity) :
    ((s.repJudged (s.engParity pitch.val chan.val parity) pitch.val chan.val r).repTaken pitch.val chan.val (some r.level)).chan pitch.val chan.val =
      { (s.repJudged (s.engParity pitch.val chan.val parity) pitch.val chan.val r).chan pitch.val chan.val with
        reps := rest, prev := some r.level } := by
  rw [State.repTaken_chan, (((RepsKept.refl pitch.val chan.val s).engParity parity).repJudged r).reps, hr]
  rfl

/-- A report of an engine that runs, its microcode without error. -/
theorem completes_report (hr : (s.chan pitch.val chan.val).reps = r :: rest) (hg : r.gap = false)
    (he : s.tw.eng.getD (8 * pitch.val + chan.val) [] = []) {t : State} (ht : s.repJudged s pitch.val chan.val r = t) {P : State → Prop}
    (h : P (t.repTaken pitch.val chan.val (some r.level))) : completes (.engineFrameReport pitch chan .ok) s P := by
  refine ⟨_, exec_engineFrameReport hr hg he .ok, ?_⟩
  rw [show s.engParity pitch.val chan.val .ok = s from rfl, ht]
  exact h

end

/-! ### ASYNC, SYNC and DISC: what a report decides -/

section
variable {s : State} {n c : Nat} {r : Rep}

theorem State.asReport_starts (he : r.edge = true ∧ r.glitch = false) (hl : r.level = !s.mark (s.enOf n c))
    (hidle : (s.chan n c).rx = none ∧ (s.chan n c).brk = false ∧ (s.chan n c).wait = none)
    (hstop : ∀ u ∈ (s.chan n c).stopAt, u < r.stamp)
    (hdeaf : (s.chan n c).deafAt r.base = false ∧ (s.chan n c).deafAt r.stamp = false) :
    s.asReport n c r = s.setChan n c { s.chan n c with rx := some { start := r.stamp } } := by
  obtain ⟨hrx, hbrk, hwait⟩ := hidle
  have hstart : s.asReport n c r = s.asStart n c r := by
    unfold State.asReport
    rw [if_neg (by simp [hdeaf.1])]
    dsimp only
    rw [hwait, hrx]
  rw [hstart]
  unfold State.asStart
  dsimp only
  refine if_neg ?_
  cases hs : (s.chan n c).stopAt with
  | none => simp [hrx, hbrk, hwait, he.1, he.2, hl, hdeaf.2]
  | some u =>
    have := hstop u (by simp [hs])
    simp [hrx, hbrk, hwait, he.1, he.2, hl, hdeaf.2, this]

theorem State.syReport_samples {y : Xfer} (hx : (s.chan n c).xfer = some y) (hi : y.i < s.fg (s.enOf n c) SY_CFG_WIDTH)
    (hu : s.syEdge (s.enOf n c) y.t0 y.i + nsU * (s.fg (s.enOf n c) SY_DLY_SAMPLE_DLY : Int) < r.base + frameU) :
    s.syReport n c r = s.setChan n c { s.chan n c with xfer := some { y with
      i := y.i + 1
      bits := 2 * y.bits + bit (r.at ((s.chan n c).prev.getD (if r.edge then !r.level else r.level))
        (s.syEdge (s.enOf n c) y.t0 y.i + nsU * (s.fg (s.enOf n c) SY_DLY_SAMPLE_DLY : Int))).1 } } := by
  unfold State.syReport
  dsimp only
  rw [hx]
  exact if_pos ⟨hi, hu⟩

theorem State.diReport_accepts {l : Bool} (he : r.edge = true ∧ r.glitch = false) (hp : (s.chan n c).prev ≠ none)
    (ha : (s.chan n c).acc = some l) (hd : (s.chan n c).deb = none) (hl : l = (r.level == s.fb (s.enOf n c) DI_CFG_INV))
    (hdeb : s.fg (s.enOf n c) DI_CFG_DEB = 0) :
    s.diReport n c r = (s.diAccept n c r.stamp r.stamp (!l) false).setChan n c
      { (s.diAccept n c r.stamp r.stamp (!l) false).chan n c with upto := r.base + frameU } := by
  have hlevel : (r.level != s.fb (s.enOf n c) DI_CFG_INV) = !l := by rw [hl]; rfl
  have hmature : s.diMature n c r.stamp = s := by unfold State.diMature; rw [hd]
  have hedge : s.diEdge n c r.stamp (!l) = s.diAccept n c r.stamp r.stamp (!l) false := by
    unfold State.diEdge
    dsimp only
    rw [if_neg (by simp [ha]), if_pos (by simp [State.diDeb, hdeb])]
  unfold State.diReport
  dsimp only
  rw [if_neg (show ¬ ((s.chan n c).prev.isNone || (s.chan n c).acc.isNone) = true by simp [ha, hp]),
    if_pos (show (r.edge || r.glitch) = true by simp [he.1]), if_neg (show ¬ r.glitch = true by simp [he.2]), if_pos he.1, hlevel,
    hmature, hedge]

end

/-! ### PBUS: a report with one sample point (R255, R290) -/

@[simp] theorem State.chan_setPb (s : State) (n c : Nat) (p : Pb) : (s.setPb n c p).chan n c = { s.chan n c with pb := p } :=
  State.chan_setChan ..
@[simp] theorem State.pb_setPb (s : State) (n c : Nat) (p : Pb) : (s.setPb n c p).pb n c = p := congrArg Chan.pb (State.chan_setChan ..)
@[simp] theorem State.enOf_setPb (s : State) (n c : Nat) (p : Pb) (m d : Nat) : (s.setPb n c p).enOf m d = s.enOf m d := rfl
@[simp] theorem State.fg_setPb (s : State) (n c : Nat) (p : Pb) (g : Nat) (f : Fld) : (s.setPb n c p).fg g f = s.fg g f := rfl
@[simp] theorem State.fb_setPb (s : State) (n c : Nat) (p : Pb) (g : Nat) (f : Fld) : (s.setPb n c p).fb g f = s.fb g f := rfl

/-- No instant of the bit machine is left before `fin`. -/
structure Pb.Quiet (p : Pb) (fin : Int) : Prop where
  start : p.start = none
  ssp : p.ssp = []
  x : ∃ x, p.x = some x ∧ fin ≤ x

theorem Pb.Quiet.none {p : Pb} {fin : Int} (h : p.Quiet fin) :
    firstBefore fin [Option.none, p.start, p.ssp.head?.map (·.1), p.x] = Option.none := by
  obtain ⟨x, hx, hle⟩ := h.x
  simp [firstBefore, h.start, h.ssp, hx, hle]

section
variable {s : State} {n c : Nat} {r : Rep} {x : Int}

/-- The first instant is a sample point, and nothing follows it in the report. -/
theorem State.pbRun_once {prev : Bool} (hst : (s.pb n c).start = none) (hssp : (s.pb n c).ssp = []) (hx : (s.pb n c).x = some x)
    (hlt : x < r.base + frameU)
    (hq : ((s.pbJudge n c x ((r.at prev x).1 != s.fb (s.enOf n c) PB_CFG_INV)).pb n c).Quiet (r.base + frameU)) (k : Nat) :
    State.pbRun n c r prev (k + 2) none s = s.pbJudge n c x ((r.at prev x).1 != s.fb (s.enOf n c) PB_CFG_INV) := by
  have hfirst : firstBefore (r.base + frameU) [none, (s.pb n c).start, (s.pb n c).ssp.head?.map (·.1), (s.pb n c).x] = some x := by
    simp [firstBefore, hst, hssp, hx, Int.not_le.2 hlt]
  unfold State.pbRun
  dsimp only
  rw [hfirst]
  dsimp only
  rw [if_neg nofun, if_neg (by simp [hst]), if_neg (by simp [hssp])]
  unfold State.pbRun
  dsimp only
  rw [hq.none]

/-- A report without an edge, whose one sample point is judged at the level it shows. -/
theorem State.pbReport_judges (he : r.edge = false ∧ r.glitch = false)
    (hb : s.pbOn (s.enOf n c) = true ∨ (s.chan n c).flush = false)
    (hst : (s.pb n c).start = none) (hssp : (s.pb n c).ssp = []) (hx : (s.pb n c).x = some x) (hlt : x < r.base + frameU)
    (hq : (((s.setPb n c { s.pb n c with bnd := false }).pbJudge n c x (r.level != s.fb (s.enOf n c) PB_CFG_INV)).pb n c).Quiet (r.base + frameU)) :
    s.pbReport n c r = (s.setPb n c { s.pb n c with bnd := false }).pbJudge n c x (r.level != s.fb (s.enOf n c) PB_CFG_INV) := by
  have hat (prev : Bool) : (r.at prev x).1 = r.level := by simp [Rep.at, he.1, he.2]
  have hset : s.setPb n c (if (s.pb n c).x.isNone then s.pbGrid (s.enOf n c) { s.pb n c with bnd := false } r.base false
      else { s.pb n c with bnd := false }) = s.setPb n c { s.pb n c with bnd := false } := by rw [if_neg (by simp [hx])]
  have hbound (p : Pb) : (if (s.setPb n c p).pbOn (s.enOf n c) = true then s.setPb n c p else (s.setPb n c p).pbBoundary n c) = s.setPb n c p := by
    have hon : (s.setPb n c p).pbOn (s.enOf n c) = s.pbOn (s.enOf n c) := rfl
    have hflush : ((s.setPb n c p).chan n c).flush = (s.chan n c).flush := by rw [State.chan_setPb]
    unfold State.pbBoundary
    rw [hon, hflush]
    split
    · rfl
    next h => rw [hb.resolve_left h]; rfl
  unfold State.pbReport
  dsimp only
  rw [hset, hbound, if_neg (show ¬ (r.edge && !r.glitch && decide (r.level = s.fb (s.enOf n c) PB_CFG_INV)) = true by simp [he.1])]
  refine (State.pbRun_once (by simpa using hst) (by simpa using hssp) (by simpa using hx) hlt ?_ 6).trans ?_
  · rw [hat]; exact hq
  · rw [hat]; rfl

end

/-! ### PBUS: the 11th recessive bit, and a form error at the end of a frame (R294, R296) -/

section
variable {s : State} {n c : Nat} {x : Int}

/-- The bit timing after a sample point at `x` of a nominal bit. -/
def State.pbNext (s : State) (n c : Nat) (x : Int) (m : Bool) : Pb :=
  { s.pbGrid (s.enOf n c) (s.pb n c) (x + s.pbSeg2 (s.enOf n c) false) false with sync := false, last := m }

theorem State.pbJudge_nominal (hf : (s.pb n c).fast = false) (m : Bool) :
    s.pbJudge n c x m = (match (s.pb n c).ph with
      | .frame => (s.setPb n c (s.pbNext n c x m)).pbFrameBit n c x (x + s.pbSeg2 (s.enOf n c) false) m
      | .crcDel => (s.setPb n c (s.pbNext n c x m)).pbTail n c x (x + s.pbSeg2 (s.enOf n c) false) m
      | .ack => (s.setPb n c (s.pbNext n c x m)).pbTail n c x (x + s.pbSeg2 (s.enOf n c) false) m
      | .ackDel => (s.setPb n c (s.pbNext n c x m)).pbTail n c x (x + s.pbSeg2 (s.enOf n c) false) m
      | .eof => (s.setPb n c (s.pbNext n c x m)).pbTail n c x (x + s.pbSeg2 (s.enOf n c) false) m
      | .flag => (s.setPb n c (s.pbNext n c x m)).pbFlagBit n c (x + s.pbSeg2 (s.enOf n c) false) m (s.pb n c).last
      | .after => (s.setPb n c (s.pbNext n c x m)).pbFlagBit n c (x + s.pbSeg2 (s.enOf n c) false) m (s.pb n c).last
      | .delim => (s.setPb n c (s.pbNext n c x m)).pbFlagBit n c (x + s.pbSeg2 (s.enOf n c) false) m (s.pb n c).last
      | .integrate => (s.setPb n c (s.pbNext n c x m)).pbBetween n c x (x + s.pbSeg2 (s.enOf n c) false) m
      | .idle => (s.setPb n c (s.pbNext n c x m)).pbBetween n c x (x + s.pbSeg2 (s.enOf n c) false) m
      | .inter => (s.setPb n c (s.pbNext n c x m)).pbBetween n c x (x + s.pbSeg2 (s.enOf n c) false) m
      | .suspend => (s.setPb n c (s.pbNext n c x m)).pbBetween n c x (x + s.pbSeg2 (s.enOf n c) false) m) := by
  have hv : (if s.pbTdc (s.enOf n c) (s.pb n c) then (s.pb n c).out else m) = m := if_neg (by simp [State.pbTdc, hf])
  unfold State.pbJudge
  dsimp only
  rw [hv, hf]
  rfl

/-- The 11th recessive bit in a row, judged by an engine that integrates with both counters below 128 (R296). -/
theorem State.pbBetween_eleventh (hph : (s.pb n c).ph = .integrate) (hk : (s.pb n c).k = 10) (hst : s.fg (s.enOf n c) PB_ERR_STATE = 1)
    (hcnt : s.fg (s.enOf n c) PB_ERR_TEC < 128 ∧ s.fg (s.enOf n c) PB_ERR_REC < 128) (u : Int) :
    s.pbBetween n c x u true = (s.fs (s.enOf n c) PB_ERR_STATE 2).setPb n c { s.pb n c with k := 0, ph := .idle } := by
  have hactive : s.pbRecessive n c = s.fs (s.enOf n c) PB_ERR_STATE 2 := by
    unfold State.pbRecessive State.pbActive
    dsimp only
    rw [if_pos (show s.pbState (s.enOf n c) = 1 from hst), if_neg (by omega)]
  have hon : (s.fs (s.enOf n c) PB_ERR_STATE 2).pbOn (s.enOf n c) = true := by
    simp only [State.pbOn, State.pbState, State.fg_fs s (s.enOf n c) PB_ERR_STATE 2 (by decide)]
    decide
  unfold State.pbBetween
  dsimp only
  rw [hph]
  dsimp only
  rw [if_neg nofun, if_neg (by omega), hactive, if_pos hon]
  rfl

/-- A dominant bit in the end of frame, before its last bit (R294). -/
theorem State.pbTail_formError (hph : (s.pb n c).ph = .eof) (hk : (s.pb n c).k < 6) (u : Int) :
    s.pbTail n c x u false = s.pbError n c 2 false u := by
  unfold State.pbTail
  dsimp only
  rw [hph]
  exact if_neg (by simp; omega)

theorem State.pbOn_of_state {s : State} {g : Nat} (h : s.fg g PB_ERR_STATE = 2 ∨ s.fg g PB_ERR_STATE = 3) : s.pbOn g = true := by
  unfold State.pbOn State.pbState
  rcases h with h | h
  · rw [h]; rfl
  · rw [h]; rfl
theorem State.pbOn_congr {s t : State} {g : Nat} (h : t.fg g PB_ERR_STATE = s.fg g PB_ERR_STATE) : t.pbOn g = s.pbOn g := by
  unfold State.pbOn State.pbState
  rw [h]

/-- An engine on the bus stays on it: error-active or error-passive by its counters (R296). -/
theorem State.pbActive_spec (s : State) (g : Nat) :
    (s.pbActive g).pbOn g = true ∧ onlyRegs [(g, PB_ERR), (g, EVT_STATUS)] s (s.pbActive g) ∧ (s.pbActive g).chans = s.chans ∧
      (s.pbActive g).fg g PB_ERR_TEC = s.fg g PB_ERR_TEC ∧ (s.pbActive g).fg g PB_ERR_REC = s.fg g PB_ERR_REC ∧
      (s.pbActive g).fg g PB_ERR_LEC = s.fg g PB_ERR_LEC ∧ ∀ b, s.event g b = true → (s.pbActive g).event g b = true := by
  have hfs (v : Nat) : onlyRegs [(g, PB_ERR), (g, EVT_STATUS)] s (s.fs g PB_ERR_STATE v) := (onlyRegs.refl _ s).fs (by decide) (by simp [PB_ERR_STATE, PB_ERR])
  have hkeep (v : Nat) {f : Fld} (h : f.off = PB_ERR_STATE.off ∧ f.lo + f.w ≤ PB_ERR_STATE.lo ∧ f.lo + f.w ≤ 32) :
      (s.fs g PB_ERR_STATE v).fg g f = s.fg g f := State.fg_fs_apart _ _ _ (.inr ⟨.inl h.2.1, h.2.2⟩)
  have hevent (v b : Nat) (h : s.event g b = true) : (s.fs g PB_ERR_STATE v).event g b = true := (State.event_fs_off _ _ _ _ (by decide)).trans h
  have hstate (v : Nat) : (s.fs g PB_ERR_STATE v).fg g PB_ERR_STATE = v % 8 := State.fg_fs _ _ _ _ (by decide)
  unfold State.pbActive
  split
  · have hr := RegsHold.raiseIf (s.fs g PB_ERR_STATE 3) (decide (s.pbState g ≠ 3)) g EV_EN_ERR_PASSIVE
    refine ⟨State.pbOn_of_state (.inr ((hr.fg g (by decide)).trans (hstate 3))), (hfs 3).raiseIf (by simp), by simp, (hr.fg g (by decide)).trans (hkeep 3 (by decide)), (hr.fg g (by decide)).trans (hkeep 3 (by decide)),
      (hr.fg g (by decide)).trans (hkeep 3 (by decide)), fun b h => hr.event g b (hevent 3 b h)⟩
  · exact ⟨State.pbOn_of_state (.inl (hstate 2)), hfs 2, by simp, hkeep 2 (by decide), hkeep 2 (by decide), hkeep 2 (by decide), hevent 2⟩

/-- A receiver on the bus counts an error: REC grows by 1, up to 255 (R296). -/
theorem State.pbMore_receiver (hr : s.fb (s.enOf n c) PB_CFG_RESTRICTED = false) (hon : s.pbOn (s.enOf n c) = true) :
    (s.pbMore n c false 1).pbOn (s.enOf n c) = true ∧
      onlyRegs [(s.enOf n c, PB_ERR), (s.enOf n c, EVT_STATUS)] s (s.pbMore n c false 1) ∧ (s.pbMore n c false 1).chans = s.chans ∧
      (s.pbMore n c false 1).fg (s.enOf n c) PB_ERR_TEC = s.fg (s.enOf n c) PB_ERR_TEC ∧
      (s.pbMore n c false 1).fg (s.enOf n c) PB_ERR_REC = min (s.fg (s.enOf n c) PB_ERR_REC + 1) 255 ∧
      (s.pbMore n c false 1).fg (s.enOf n c) PB_ERR_LEC = s.fg (s.enOf n c) PB_ERR_LEC ∧
      ∀ b, s.event (s.enOf n c) b = true → (s.pbMore n c false 1).event (s.enOf n c) b = true := by
  have htec : s.fg (s.enOf n c) PB_ERR_TEC < 256 := Fld.get_lt ..
  generalize hg : s.enOf n c = g at *
  let u : State := (s.fs g PB_ERR_TEC (min (s.fg g PB_ERR_TEC) 255)).fs g PB_ERR_REC (min (s.fg g PB_ERR_REC + 1) 255)
  have hu : onlyRegs [(g, PB_ERR), (g, EVT_STATUS)] s u :=
    ((onlyRegs.refl _ s).fs (by decide) (by simp [PB_ERR_TEC, PB_ERR])).fs (by decide) (by simp [PB_ERR_REC, PB_ERR])
  have hut : u.fg g PB_ERR_TEC = s.fg g PB_ERR_TEC := by
    refine (State.fg_fs_apart _ _ _ (by decide)).trans ((State.fg_fs _ _ _ _ (by decide)).trans ?_)
    exact (Nat.mod_eq_of_lt (by simp [PB_ERR_TEC])).trans (by omega)
  have hur : u.fg g PB_ERR_REC = min (s.fg g PB_ERR_REC + 1) 255 :=
    (State.fg_fs _ _ _ _ (by decide)).trans (Nat.mod_eq_of_lt (by simp [PB_ERR_REC]))
  have hother {f : Fld} (h : f = PB_ERR_LEC ∨ f = PB_ERR_STATE) : u.fg g f = s.fg g f := by
    rcases h with rfl | rfl
    all_goals exact (State.fg_fs_apart _ _ _ (by decide)).trans (State.fg_fs_apart _ _ _ (by decide))
  have hue (b : Nat) (h : s.event g b = true) : u.event g b = true :=
    (State.event_fs_off _ _ _ _ (by decide)).trans ((State.event_fs_off _ _ _ _ (by decide)).trans h)
  have hmore : s.pbMore n c false 1 = u.pbActive g := by
    unfold State.pbMore State.pbCounters
    simp only [hg]
    rw [if_neg nofun, if_neg (by simp [hr]), if_neg (by simp [hon]), if_neg (by omega)]
  obtain ⟨aon, aregs, achans, atec, arec, alec, aev⟩ := State.pbActive_spec u g
  rw [hmore]
  exact ⟨aon, hu.trans aregs, achans, atec.trans hut, arec.trans hur, alec.trans (hother (.inl rfl)), fun b h => aev b (hue b h)⟩

theorem State.pbForce_regs (s : State) (n c : Nat) (u : Int) (o : Bool) : (s.pbForce n c u o).regs = s.regs := by
  unfold State.pbForce State.place State.setPb
  simp
theorem State.pbForce_pb (s : State) (n c : Nat) (u : Int) (o : Bool) : (s.pbForce n c u o).pb n c = { s.pb n c with out := o } := by
  have hcut : (s.setChan n c ((s.chan n c).cutDue u)).pb n c = s.pb n c := by
    unfold State.pb
    rw [State.chan_setChan]
    rfl
  unfold State.pbForce
  dsimp only
  rw [State.pb_setPb, hcut]

/-- A flag begins with the bit that starts at `u`, in nominal bit timing (R294). -/
theorem State.pbFlag_spec (s : State) (n c : Nat) (f : PbFlag) (u : Int) :
    (s.pbFlag n c f u).regs = s.regs ∧ ((s.pbFlag n c f u).pb n c).ph = .flag ∧ ((s.pbFlag n c f u).pb n c).start = (s.pb n c).start ∧
      ((s.pbFlag n c f u).pb n c).ssp = [] ∧ ((s.pbFlag n c f u).pb n c).x = some (u + s.pbSeg1 (s.enOf n c) false) := by
  unfold State.pbFlag
  rw [State.pbForce_regs, State.pbForce_pb, State.pb_setPb]
  exact ⟨rfl, rfl, rfl, rfl, rfl⟩

/-- An error that a receiver on the bus detects, outside restricted operation (R294, R296). -/
theorem State.pbError_receiver (htx : (s.pb n c).tx = false) (hr : s.fb (s.enOf n c) PB_CFG_RESTRICTED = false)
    (hon : s.pbOn (s.enOf n c) = true) {lec : Nat} (hlec : lec < 8) (e : Bool) (u : Int) :
    let t := s.pbError n c lec e u
    (t.pb n c).ph = .flag ∧ (t.pb n c).start = (s.pb n c).start ∧ (t.pb n c).ssp = [] ∧ (t.pb n c).x = some (u + s.pbSeg1 (s.enOf n c) false) ∧
      t.fg (s.enOf n c) PB_ERR_LEC = lec ∧ t.fg (s.enOf n c) PB_ERR_TEC = s.fg (s.enOf n c) PB_ERR_TEC ∧
      t.fg (s.enOf n c) PB_ERR_REC = min (s.fg (s.enOf n c) PB_ERR_REC + 1) 255 ∧
      t.fg (s.enOf n c) EN_CNT_COUNT = min (s.fg (s.enOf n c) EN_CNT_COUNT + 1) (2 ^ EN_CNT_COUNT.w - 1) ∧
      t.event (s.enOf n c) EV_EN_RX_ERR = true := by
  let a : State := (s.fs (s.enOf n c) PB_ERR_LEC lec).enCnt (s.enOf n c) 0
  have haoff {q o : Nat} (ho : regKey 0 o ≠ regKey 0 EVT_STATUS) (hi : regKey 0 o ≠ regKey 0 EN_CNT_COUNT.off) (hp : regKey 0 o ≠ regKey 0 PB_ERR_LEC.off) :
      a.rd q o = s.rd q o := by
    refine (State.rd_enCnt (i := 0) _ _ ho hi).trans ?_
    exact (State.rd_wr _ _ _ _ _ _).trans (if_neg (regKey_ne_of_off hp _ _))
  have hafld {f : Fld} (h : f = PB_ERR_TEC ∨ f = PB_ERR_REC ∨ f = PB_ERR_STATE) : a.fg (s.enOf n c) f = s.fg (s.enOf n c) f := by
    rcases h with rfl | rfl | rfl
    all_goals exact (State.fg_enCnt_off _ _ (by decide) (by decide)).trans (State.fg_fs_apart _ _ _ (by decide))
  have haen : a.enOf n c = s.enOf n c := State.enOf_of_map (haoff (by decide) (by decide) (by decide)) c
  have hafg {q : Nat} {f : Fld} (ho : regKey 0 f.off ≠ regKey 0 EVT_STATUS) (hi : regKey 0 f.off ≠ regKey 0 EN_CNT_COUNT.off)
      (hp : regKey 0 f.off ≠ regKey 0 PB_ERR_LEC.off) : a.fg q f = s.fg q f := by simp only [State.fg, haoff ho hi hp]
  have harestr : a.fb (a.enOf n c) PB_CFG_RESTRICTED = false := by
    rw [← hr, haen]
    simp only [State.fb, hafg (q := s.enOf n c) (f := PB_CFG_RESTRICTED) (by decide) (by decide) (by decide)]
  have haon : a.pbOn (a.enOf n c) = true := by
    rw [← hon, haen]
    exact State.pbOn_congr (hafld (.inr (.inr rfl)))
  obtain ⟨bon, bregs, bchans, btec, brec, blec, bev⟩ := State.pbMore_receiver harestr haon
  simp only [haen] at bon bregs btec brec blec bev
  generalize hb : a.pbMore n c false 1 = b at *
  have hbpb : b.pb n c = s.pb n c := by
    refine (congrArg Chan.pb (State.chan_of_chans bchans n c)).trans ?_
    exact congrArg Chan.pb ((State.chan_enCnt ..).trans (State.chan_fs ..))
  have hbfg {q : Nat} {f : Fld} (ho : f.off < 4096) (hm : f.off ≠ PB_ERR ∧ f.off ≠ EVT_STATUS) : b.fg q f = a.fg q f :=
    onlyRegs.fg bregs ho (by simp [hm.1, hm.2])
  have hben : b.enOf n c = s.enOf n c := (State.enOf_of_map (bregs _ _ (by decide) (by simp [EC_MAP, PB_ERR, EVT_STATUS])) c).trans haen
  have hseg : b.pbSeg1 (s.enOf n c) false = s.pbSeg1 (s.enOf n c) false := by
    simp only [State.pbSeg1, State.pbTq, Bool.false_eq_true, if_false]
    rw [hbfg (by decide) (by decide), hbfg (by decide) (by decide), hafg (by decide) (by decide) (by decide),
      hafg (by decide) (by decide) (by decide)]
  have herr : s.pbError n c lec e u = (b.setPb n c { b.pb n c with ackErr := false }).pbFlag n c
      (if decide (s.pbState (s.enOf n c) = 3) then .passive else .active) u := by
    unfold State.pbError
    simp only [hr, htx, Bool.and_false, Bool.false_and, Bool.false_eq_true, if_false]
    rw [show State.pbMore _ n c false 1 = b from hb, if_neg (by simp [bon])]
  have hwregs : (b.setPb n c { b.pb n c with ackErr := false }).regs = b.regs := by unfold State.setPb; simp
  have hwstart : ((b.setPb n c { b.pb n c with ackErr := false }).pb n c).start = (s.pb n c).start := by rw [State.pb_setPb, hbpb]
  have hwen : (b.setPb n c { b.pb n c with ackErr := false }).enOf n c = s.enOf n c := hben
  have hwseg : (b.setPb n c { b.pb n c with ackErr := false }).pbSeg1 (s.enOf n c) false = s.pbSeg1 (s.enOf n c) false := hseg
  generalize b.setPb n c { b.pb n c with ackErr := false } = w at *
  obtain ⟨fregs, fph, fstart, fssp, fx⟩ := State.pbFlag_spec w n c (if decide (s.pbState (s.enOf n c) = 3) then .passive else .active) u
  intro t
  rw [show t = _ from herr]
  simp only [State.fg_of_regs (fregs.trans hwregs), State.event, State.rd_of_regs (fregs.trans hwregs)]
  rw [fph, fstart, fssp, fx, hwstart, hwen, hwseg, btec, brec, blec, hafld (.inl rfl), hafld (.inr (.inl rfl)),
    hbfg (by decide) (by decide)]
  refine ⟨rfl, rfl, rfl, rfl, ?_, rfl, rfl, ?_, bev _ ?_⟩
  · exact (State.fg_enCnt_off _ _ (by decide) (by decide)).trans ((State.fg_fs _ _ _ _ (by decide)).trans (Nat.mod_eq_of_lt hlec))
  · refine (State.fg_enCnt _ _ (i := 0) (by decide)).trans ?_
    rw [show (EN_CNT_COUNT.at (4 * 0)) = EN_CNT_COUNT from rfl, State.fg_fs_apart _ _ _ (by decide)]
  · exact State.event_raise _ _ (by decide)

/-- The bit machine after a judged bit has nothing left before `fin`, where its next sample point is not. -/
theorem State.pbNext_quiet (hst : (s.pb n c).start = none) (hssp : (s.pb n c).ssp = []) {fin : Int} (hfin : fin ≤ x + s.pbT (s.enOf n c) false)
    (m : Bool) : (s.pbNext n c x m).Quiet fin := by
  refine ⟨hst, hssp, _, rfl, ?_⟩
  unfold State.pbT at hfin
  omega

theorem State.setPb_regs (s : State) (n c : Nat) (p : Pb) : (s.setPb n c p).regs = s.regs := by unfold State.setPb; simp
theorem State.pbOn_setPb (s : State) (n c : Nat) (p : Pb) (g : Nat) : (s.setPb n c p).pbOn g = s.pbOn g := rfl
theorem State.pbT_setPb (s : State) (n c : Nat) (p : Pb) (g : Nat) (f : Bool) : (s.setPb n c p).pbT g f = s.pbT g f := rfl
theorem State.pbSeg1_setPb (s : State) (n c : Nat) (p : Pb) (g : Nat) (f : Bool) : (s.setPb n c p).pbSeg1 g f = s.pbSeg1 g f := rfl

section
variable (hf : (s.pb n c).fast = false) (hstart : (s.pb n c).start = none) (hssp : (s.pb n c).ssp = []) {fin : Int}
  (hfin : fin ≤ x + s.pbT (s.enOf n c) false)
include hf hstart hssp hfin

theorem State.pbJudge_eleventh (hst : s.fg (s.enOf n c) PB_ERR_STATE = 1)
    (hcnt : s.fg (s.enOf n c) PB_ERR_TEC < 128 ∧ s.fg (s.enOf n c) PB_ERR_REC < 128)
    (hph : (s.pb n c).ph = .integrate) (hk : (s.pb n c).k = 10) :
    ((s.pbJudge n c x true).pb n c).Quiet fin ∧ (s.pbJudge n c x true).fg (s.enOf n c) PB_ERR_STATE = 2 ∧
      ((s.pbJudge n c x true).pb n c).ph = .idle ∧ onlyRegs [(s.enOf n c, PB_ERR)] s (s.pbJudge n c x true) := by
  have hq := State.pbNext_quiet hstart hssp hfin true
  have hjudge : s.pbJudge n c x true = ((s.setPb n c (s.pbNext n c x true)).fs (s.enOf n c) PB_ERR_STATE 2).setPb n c
      { s.pbNext n c x true with k := 0, ph := .idle } := by
    rw [State.pbJudge_nominal hf, hph]
    dsimp only
    rw [State.pbBetween_eleventh (by rw [State.pb_setPb]; exact hph) (by rw [State.pb_setPb]; exact hk)
      (by rw [State.enOf_setPb, State.fg_setPb]; exact hst) (by rw [State.enOf_setPb, State.fg_setPb, State.fg_setPb]; exact hcnt),
      State.pb_setPb, State.enOf_setPb]
  rw [hjudge, State.pb_setPb, State.fg_setPb]
  refine ⟨⟨hq.start, hq.ssp, hq.x⟩, State.fg_fs _ _ _ _ (by decide), rfl, ?_⟩
  exact (((onlyRegs.refl _ s).of_regs (State.setPb_regs ..)).fs (by decide) (by simp [PB_ERR_STATE, PB_ERR])).of_regs (State.setPb_regs ..)

theorem State.pbJudge_formError (hon : s.pbOn (s.enOf n c) = true) (hr : s.fb (s.enOf n c) PB_CFG_RESTRICTED = false)
    (hph : (s.pb n c).ph = .eof) (hk : (s.pb n c).k < 6) (htx : (s.pb n c).tx = false) :
    let t := s.pbJudge n c x false
    (t.pb n c).Quiet fin ∧ t.fg (s.enOf n c) PB_ERR_LEC = 2 ∧ (t.pb n c).ph = .flag ∧
      t.fg (s.enOf n c) PB_ERR_TEC = s.fg (s.enOf n c) PB_ERR_TEC ∧
      t.fg (s.enOf n c) PB_ERR_REC = min (s.fg (s.enOf n c) PB_ERR_REC + 1) 255 ∧
      t.fg (s.enOf n c) EN_CNT_COUNT = min (s.fg (s.enOf n c) EN_CNT_COUNT + 1) (2 ^ EN_CNT_COUNT.w - 1) ∧
      t.event (s.enOf n c) EV_EN_RX_ERR = true := by
  have hq := State.pbNext_quiet hstart hssp hfin false
  have hjudge : s.pbJudge n c x false =
      (s.setPb n c (s.pbNext n c x false)).pbError n c 2 false (x + s.pbSeg2 (s.enOf n c) false) := by
    rw [State.pbJudge_nominal hf, hph]
    dsimp only
    rw [State.pbTail_formError (by rw [State.pb_setPb]; exact hph) (by rw [State.pb_setPb]; exact hk)]
  have herr := State.pbError_receiver (s := s.setPb n c (s.pbNext n c x false)) (n := n) (c := c) (by rw [State.pb_setPb]; exact htx)
    (by rw [State.enOf_setPb, State.fb_setPb]; exact hr) (by rw [State.enOf_setPb, State.pbOn_setPb]; exact hon) (lec := 2) (by decide) false
    (x + s.pbSeg2 (s.enOf n c) false)
  simp only [State.enOf_setPb, State.fg_setPb, State.pbSeg1_setPb, State.pb_setPb] at herr
  obtain ⟨eph, estart, essp, ex, elec, etec, erec, ecnt, eev⟩ := herr
  intro t
  rw [show t = _ from hjudge]
  refine ⟨⟨estart.trans hq.start, essp, _, ex, hfin.trans (le_of_eq ?_)⟩, elec, eph, etec, erec, ecnt, eev⟩
  unfold State.pbT
  omega

end

/-- The 11th recessive bit in a report. -/
theorem State.pbReport_eleventh {r : Rep} (he : r.edge = false ∧ r.glitch = false) (hl : r.level = !s.fb (s.enOf n c) PB_CFG_INV)
    (hst : s.fg (s.enOf n c) PB_ERR_STATE = 1) (hcnt : s.fg (s.enOf n c) PB_ERR_TEC < 128 ∧ s.fg (s.enOf n c) PB_ERR_REC < 128)
    (hfl : (s.chan n c).flush = false) (hph : (s.pb n c).ph = .integrate) (hk : (s.pb n c).k = 10) (hf : (s.pb n c).fast = false)
    (hstart : (s.pb n c).start = none) (hssp : (s.pb n c).ssp = []) (hx : (s.pb n c).x = some x) (hlt : x < r.base + frameU)
    (hfin : r.base + frameU ≤ x + s.pbT (s.enOf n c) false) :
    (s.pbReport n c r).fg (s.enOf n c) PB_ERR_STATE = 2 ∧ ((s.pbReport n c r).pb n c).ph = .idle ∧
      onlyRegs [(s.enOf n c, PB_ERR)] s (s.pbReport n c r) := by
  have hrec : (r.level != s.fb (s.enOf n c) PB_CFG_INV) = true := by rw [hl]; simp
  obtain ⟨hq, hstate, hidle, honly⟩ := State.pbJudge_eleventh (s := s.setPb n c { s.pb n c with bnd := false }) (n := n) (c := c) (x := x) (fin := r.base + frameU)
    (by rw [State.pb_setPb]; exact hf) (by rw [State.pb_setPb]; exact hstart) (by rw [State.pb_setPb]; exact hssp)
    (by rw [State.enOf_setPb, State.pbT_setPb]; exact hfin) (by rw [State.enOf_setPb, State.fg_setPb]; exact hst)
    (by rw [State.enOf_setPb, State.fg_setPb, State.fg_setPb]; exact hcnt) (by rw [State.pb_setPb]; exact hph) (by rw [State.pb_setPb]; exact hk)
  rw [State.pbReport_judges he (.inr hfl) hstart hssp hx hlt (by rw [hrec]; exact hq), hrec]
  exact ⟨hstate, hidle, ((onlyRegs.refl _ s).of_regs (State.setPb_regs ..)).trans honly⟩

/-- A form error in a report. -/
theorem State.pbReport_formError {r : Rep} (he : r.edge = false ∧ r.glitch = false) (hl : r.level = s.fb (s.enOf n c) PB_CFG_INV)
    (hon : s.pbOn (s.enOf n c) = true) (hr : s.fb (s.enOf n c) PB_CFG_RESTRICTED = false)
    (hph : (s.pb n c).ph = .eof) (hk : (s.pb n c).k < 6) (htx : (s.pb n c).tx = false) (hf : (s.pb n c).fast = false)
    (hstart : (s.pb n c).start = none) (hssp : (s.pb n c).ssp = []) (hx : (s.pb n c).x = some x) (hlt : x < r.base + frameU)
    (hfin : r.base + frameU ≤ x + s.pbT (s.enOf n c) false) :
    (s.pbReport n c r).fg (s.enOf n c) PB_ERR_LEC = 2 ∧ ((s.pbReport n c r).pb n c).ph = .flag ∧
      (s.pbReport n c r).fg (s.enOf n c) PB_ERR_TEC = s.fg (s.enOf n c) PB_ERR_TEC ∧
      (s.pbReport n c r).fg (s.enOf n c) PB_ERR_REC = min (s.fg (s.enOf n c) PB_ERR_REC + 1) 255 ∧
      (s.pbReport n c r).fg (s.enOf n c) EN_CNT_COUNT = min (s.fg (s.enOf n c) EN_CNT_COUNT + 1) (2 ^ EN_CNT_COUNT.w - 1) ∧
      (s.pbReport n c r).event (s.enOf n c) EV_EN_RX_ERR = true := by
  have hdom : (r.level != s.fb (s.enOf n c) PB_CFG_INV) = false := by rw [hl]; simp
  obtain ⟨hq, hrest⟩ := State.pbJudge_formError (s := s.setPb n c { s.pb n c with bnd := false }) (n := n) (c := c) (x := x) (fin := r.base + frameU)
    (by rw [State.pb_setPb]; exact hf) (by rw [State.pb_setPb]; exact hstart) (by rw [State.pb_setPb]; exact hssp)
    (by rw [State.enOf_setPb, State.pbT_setPb]; exact hfin) (by rw [State.enOf_setPb, State.pbOn_setPb]; exact hon)
    (by rw [State.enOf_setPb, State.fb_setPb]; exact hr) (by rw [State.pb_setPb]; exact hph) (by rw [State.pb_setPb]; exact hk)
    (by rw [State.pb_setPb]; exact htx)
  rw [State.pbReport_judges he (.inl hon) hstart hssp hx hlt (by rw [hdom]; exact hq), hdom]
  exact hrest

end
/-! ### A gap, by the engine's mode (R256, R268, R273, R277, R298) -/

/-- What an engine that runs does at a gap whose interval starts at `base`, by its mode. -/
def State.gapJudged (s : State) (n c : Nat) (base : Int) : State :=
  if !s.enRuns (s.enOf n c) then s
  else if s.enMode (s.enOf n c) = 1 then s.asGap n c (base + frameU)
  else if s.enMode (s.enOf n c) = 2 then s.pbGap n c
  else if s.enMode (s.enOf n c) = 3 then s.syGap n c base
  else if s.enMode (s.enOf n c) = 4 then (if s.fg (clPage n) CL_STATUS_STATE ≠ 5 then (s.diGap n c).dueLost n c else s.diGap n c)
  else s

theorem RepsKept.gapJudged (n c : Nat) (s : State) (base : Int) : RepsKept n c s (s.gapJudged n c base) := by
  have h := RepsKept.refl n c s
  exact h.ite ((h.asGap _).ite (h.pbGap.ite ((h.syGap _).ite ((h.diGap.dueLost.ite h.diGap).ite h))))

theorem exec_engineGap {s : State} {pitch : Pitch} {chan : Channel} {base : Int} (hb : s.gapBase pitch.val chan.val = some base)
    (he : s.tw.eng.getD (8 * pitch.val + chan.val) [] = []) :
    exec (.engineGap pitch chan) s = .next ((s.gapJudged pitch.val chan.val base).repTaken pitch.val chan.val none) := by
  rw [← (RepsKept.gapJudged pitch.val chan.val s base).engLoad he]
  refine congrArg Host.Outcome.next ?_
  dsimp only
  rw [hb]
  rfl

section
variable {s : State} {n c : Nat}

/-- A character in progress is given up, and its record closes (R268). -/
theorem State.asGap_inCharacter (h : (s.chan n c).rx ≠ none) (fin : Int) :
    ((s.asGap n c fin).chan n c).rx = none ∧ ((s.asGap n c fin).chan n c).wait = some fin ∧ ((s.asGap n c fin).chan n c).buf = none ∧
      (s.asGap n c fin).fg (s.enOf n c) (EN_CNT_COUNT.at 8) = min (s.fg (s.enOf n c) (EN_CNT_COUNT.at 8) + 1) (2 ^ EN_CNT_COUNT.w - 1) := by
  have hgap : s.asGap n c fin =
      ((s.setChan n c { s.chan n c with rx := none, wait := some fin }).enCnt (s.enOf n c) 2).recClose n c 1 :=
    if_pos (by rwa [← Option.ne_none_iff_isSome])
  have hk := State.recClose_recKept ((s.setChan n c { s.chan n c with rx := none, wait := some fin }).enCnt (s.enOf n c) 2) n c 1
  obtain ⟨b, r, u, hchan⟩ := hk.chan
  rw [State.chan_enCnt, State.chan_setChan] at hchan
  rw [hgap]
  refine ⟨by rw [hchan], by rw [hchan], State.recClose_buf .., (hk.hold.fg _ (by decide)).trans ?_⟩
  exact State.fg_enCnt _ _ (i := 2) (by decide)
/-- A wait for mark begins again. -/
theorem State.asGap_waits (h : (s.chan n c).rx = none) (hw : (s.chan n c).wait ≠ none) (fin : Int) :
    s.asGap n c fin = s.setChan n c { s.chan n c with wait := some fin } := by
  unfold State.asGap
  dsimp only
  rw [if_neg (by simp [h]), if_pos (by rwa [← Option.ne_none_iff_isSome])]
theorem State.asGap_idle (h : (s.chan n c).rx = none) (hw : (s.chan n c).wait = none) (fin : Int) : s.asGap n c fin = s := by
  unfold State.asGap
  dsimp only
  rw [if_neg (by simp [h]), if_neg (by simp [hw])]
theorem State.asGap_rx (fin : Int) : ((s.asGap n c fin).chan n c).rx = none := by
  by_cases h : (s.chan n c).rx = none
  · by_cases hw : (s.chan n c).wait = none
    · rw [State.asGap_idle h hw, h]
    · rw [State.asGap_waits h hw, State.chan_setChan]; exact h
  · exact (State.asGap_inCharacter h fin).1
theorem State.asGap_wait (h : (s.chan n c).rx ≠ none ∨ (s.chan n c).wait ≠ none) (fin : Int) :
    ((s.asGap n c fin).chan n c).wait = some fin := by
  by_cases hr : (s.chan n c).rx = none
  · rw [State.asGap_waits hr (h.resolve_left (· hr)), State.chan_setChan]
  · exact (State.asGap_inCharacter hr fin).2.1

/-- A transfer that ends cut short leaves no sample (R273). -/
theorem State.syCut_spec (s : State) (n c : Nat) : ((s.syCut n c).chan n c).xfer = none ∧ (s.syCut n c).fg (s.enOf n c) SY_LAST_OK = 0 := by
  have hxfer (x : Chan) (hx : x.xfer = none) (g i : Nat) : ((((s.setChan n c x).enCnt g i).fs g SY_LAST_OK 0).chan n c).xfer = none := by
    rw [State.chan_fs, State.chan_enCnt, State.chan_setChan]; exact hx
  have hok (t : State) : (t.fs (s.enOf n c) SY_LAST_OK 0).fg (s.enOf n c) SY_LAST_OK = 0 := State.fg_fs _ _ _ _ (by decide)
  unfold State.syCut
  dsimp only
  split
  · rw [State.chan_setChan_ne _ _ (by omega)]
    exact ⟨hxfer _ rfl _ _, hok _⟩
  · exact ⟨hxfer _ rfl _ _, hok _⟩
theorem State.syGap_cuts {y : Xfer} {base : Int} (hx : (s.chan n c).xfer = some y) (hi : y.i < s.fg (s.enOf n c) SY_CFG_WIDTH)
    (hlo : base ≤ s.syEdge (s.enOf n c) y.t0 y.i + nsU * (s.fg (s.enOf n c) SY_DLY_SAMPLE_DLY : Int))
    (hhi : s.syEdge (s.enOf n c) y.t0 y.i + nsU * (s.fg (s.enOf n c) SY_DLY_SAMPLE_DLY : Int) < base + frameU) :
    s.syGap n c base = s.syCut n c := by
  unfold State.syGap
  dsimp only
  rw [hx]
  refine if_pos (List.any_eq_true.2 ⟨y.i, List.mem_range.2 hi, ?_⟩)
  simp only [le_refl, decide_true, Bool.true_and, Bool.and_eq_true, decide_eq_true_eq]
  exact ⟨hlo, hhi⟩

/-- Output changes lost leave the debounce and the measurement of a width as they are. -/
theorem State.dueLost_input (s : State) (n c : Nat) :
    ((s.dueLost n c).chan n c).deb = (s.chan n c).deb ∧ ((s.dueLost n c).chan n c).rise = (s.chan n c).rise := by
  unfold State.dueLost
  dsimp only
  split
  · exact ⟨rfl, rfl⟩
  · refine List.foldlRecOn (motive := fun u : State => (u.chan n c).deb = (s.chan n c).deb ∧ (u.chan n c).rise = (s.chan n c).rise) _ _ ?_ ?_
    · rw [State.chan_setChan]; exact ⟨rfl, rfl⟩
    · intro u hu _ _
      rw [State.chan_raise, State.chan_enCnt]; exact hu
theorem State.diGap_chan (s : State) (n c : Nat) : (s.diGap n c).chan n c = { s.chan n c with deb := none, rise := none } := State.chan_setChan ..

/-- A gap takes an engine that is on the bus off it: it integrates again (R298). -/
theorem State.pbGap_state (h : s.pbOn (s.enOf n c) = true) : (s.pbGap n c).fg (s.enOf n c) PB_ERR_STATE = 1 := by
  unfold State.pbGap
  dsimp only
  rw [if_pos h]
  exact State.fg_fs _ _ _ _ (by decide)

end

/-! ### What a taken report shows -/

section
variable (s : State) (n c : Nat) (l : Option Bool)

theorem State.repTaken_rd (p o : Nat) : (s.repTaken n c l).rd p o = s.rd p o := rfl
theorem State.repTaken_fg (p : Nat) (f : Fld) : (s.repTaken n c l).fg p f = s.fg p f := rfl
theorem State.repTaken_event (p b : Nat) : (s.repTaken n c l).event p b = s.event p b := rfl

end

theorem State.diReport_counts {s : State} {n c : Nat} {r : Rep} {l : Bool} (he : r.edge = true ∧ r.glitch = false) (hp : (s.chan n c).prev ≠ none)
    (ha : (s.chan n c).acc = some l) (hd : (s.chan n c).deb = none) (hl : l = (r.level == s.fb (s.enOf n c) DI_CFG_INV))
    (hdeb : s.fg (s.enOf n c) DI_CFG_DEB = 0) (hsel : s.fg (s.enOf n c) DI_CFG_EDGE_SEL = 3) :
    ((s.diReport n c r).chan n c).acc = some (!l) ∧
      (s.diReport n c r).rd (s.enOf n c) EN_DI_COUNT = s.rd (s.enOf n c) EN_DI_COUNT + 1 := by
  obtain ⟨hacc, -, hcount, -⟩ := State.diAccept_spec s n c r.stamp r.stamp (!l) false
  rw [State.diReport_accepts he hp ha hd hl hdeb, State.chan_setChan, State.rd_setChan]
  exact ⟨hacc, hcount (by simp [State.diSelects, hsel])⟩

/-! ### The statement -/

/-- Settles O46: an engine's decisions leave the reports that wait and the twin's state (`RepsKept`), so that the oldest report leaves its
channel whatever the mode decides; each clause then is one decision of its mode. -/
theorem engineTakesReportsAndGaps : Obligations.EngineTakesReportsAndGaps := by
  unfold Obligations.EngineTakesReportsAndGaps
  refine ⟨?_, ?_, ?_, ?_, ?_, ?_, ?_, ?_, ?_⟩
  · intro s pitch chan parity r rest hr hg he
    refine ⟨_, exec_engineFrameReport hr hg he parity, ?_⟩
    beta_reduce
    rw [reps_engineFrameReport hr]
    refine ⟨rfl, rfl, fun hrun => ?_⟩
    have hpar : s.repJudged (s.engParity pitch.val chan.val parity) pitch.val chan.val r = s.engParity pitch.val chan.val parity :=
      if_pos (by simp [hrun])
    unfold State.repTaken
    rw [hpar, State.chan_of_chans (State.engParity_chans ..), hr]
    cases parity <;> rfl
  · intro s pitch chan parity h
    refine ⟨_, rfl, ?_⟩
    dsimp only
    cases hr : (s.chan pitch.val chan.val).reps with
    | nil => rfl
    | cons r rest => exact if_pos (h r (by simp [hr]))
  · intro s pitch chan r rest hr ⟨hg, hedge⟩ hm hrun hl hidle hstop hdeaf he
    refine completes_report hr hg he (if_neg (by simp [hrun]) |>.trans (if_pos hm)) ?_
    rw [State.asReport_starts hedge hl hidle hstop hdeaf, State.repTaken_chan, State.chan_setChan]
    exact ⟨rfl, rfl⟩
  · intro s pitch chan r rest y u hr hg hm hrun hx hi hu hlt he
    refine completes_report hr hg he (if_neg (by simp [hrun]) |>.trans ((if_neg (by simp [hm])).trans ((if_neg (by simp [hm])).trans (if_pos hm)))) ?_
    rw [State.syReport_samples hx hi (by rw [hu] at hlt; exact hlt), State.repTaken_chan, State.chan_setChan, hu]
    exact ⟨rfl, rfl⟩
  · intro s pitch chan r rest l hr ⟨hg, hedge⟩ hm hrun hp ha hd hl hdeb hsel he
    refine completes_report hr hg he (if_neg (by simp [hrun]) |>.trans ((if_neg (by simp [hm])).trans ((if_neg (by simp [hm])).trans
      ((if_neg (by simp [hm])).trans (if_pos hm))))) ?_
    rw [State.repTaken_chan, State.repTaken_rd]
    exact State.diReport_counts hedge hp ha hd hl hdeb hsel
  · intro s pitch chan r rest x hr ⟨hg, hedge⟩ hl hm hrun hst hcnt hfl ⟨hph, hk, hf, hstart, hssp⟩ hx ⟨hlt, hfin⟩ he
    refine completes_report hr hg he (if_neg (by simp [hrun]) |>.trans ((if_neg (by simp [hm])).trans (if_pos hm))) ?_
    obtain ⟨hstate, hidle, honly⟩ := State.pbReport_eleventh hedge hl hst hcnt hfl hph hk hf hstart hssp hx hlt hfin
    rw [State.repTaken_chan, State.repTaken_fg]
    exact ⟨hstate, hidle, honly.of_regs rfl⟩
  · intro s pitch chan r rest x hr ⟨hg, hedge⟩ hl hm hrun hon hrestr ⟨hph, hk, htx, hf, hstart, hssp⟩ hx ⟨hlt, hfin⟩ he
    refine completes_report hr hg he (if_neg (by simp [hrun]) |>.trans ((if_neg (by simp [hm])).trans (if_pos hm))) ?_
    obtain ⟨hlec, hflag, htec, hrec, hcnt, hev⟩ :=
      State.pbReport_formError hedge hl (State.pbOn_of_state hon) hrestr hph hk htx hf hstart hssp hx hlt hfin
    rw [State.repTaken_chan, State.repTaken_fg, State.repTaken_fg, State.repTaken_fg, State.repTaken_fg, State.repTaken_event]
    exact ⟨hlec, hflag, ⟨htec, hrec⟩, hcnt, hev⟩
  · intro s pitch chan base y hb hrun he
    have hmode {t : State} (h : (if s.enMode (s.enOf pitch.val chan.val) = 1 then s.asGap pitch.val chan.val (base + frameU)
        else if s.enMode (s.enOf pitch.val chan.val) = 2 then s.pbGap pitch.val chan.val
        else if s.enMode (s.enOf pitch.val chan.val) = 3 then s.syGap pitch.val chan.val base
        else if s.enMode (s.enOf pitch.val chan.val) = 4 then (if s.fg (clPage pitch.val) CL_STATUS_STATE ≠ 5 then
          (s.diGap pitch.val chan.val).dueLost pitch.val chan.val else s.diGap pitch.val chan.val)
        else s) = t) : s.gapJudged pitch.val chan.val base = t := (if_neg (by simp [hrun])).trans h
    refine ⟨_, exec_engineGap hb he, ?_⟩
    beta_reduce
    simp only [State.repTaken_chan, State.repTaken_fg, (RepsKept.gapJudged pitch.val chan.val s base).reps]
    refine ⟨⟨trivial, trivial⟩, fun hm => ?_, fun hm hrx => ?_, fun ⟨hm, hx, hi, hlo, hhi⟩ => ?_, fun hm => ?_, fun ⟨hm, hon⟩ => ?_⟩
    · rw [hmode (if_pos hm)]
      exact ⟨State.asGap_rx _, fun h => State.asGap_wait h _⟩
    · rw [hmode (if_pos hm)]
      obtain ⟨-, -, hbuf, hcnt⟩ := State.asGap_inCharacter hrx (base + frameU)
      exact ⟨hcnt, hbuf⟩
    · rw [hmode ((if_neg (by simp [hm])).trans ((if_neg (by simp [hm])).trans (if_pos hm))), State.syGap_cuts hx hi hlo hhi]
      exact State.syCut_spec ..
    · rw [hmode ((if_neg (by simp [hm])).trans ((if_neg (by simp [hm])).trans ((if_neg (by simp [hm])).trans (if_pos hm))))]
      split
      · obtain ⟨hdeb, hrise⟩ := State.dueLost_input (s.diGap pitch.val chan.val) pitch.val chan.val
        rw [State.diGap_chan] at hdeb hrise
        exact ⟨hdeb, hrise⟩
      · rw [State.diGap_chan]
        exact ⟨rfl, rfl⟩
    · rw [hmode ((if_neg (by simp [hm])).trans (if_pos hm))]
      exact State.pbGap_state (State.pbOn_of_state hon)
  · intro s pitch chan h hnil
    refine ⟨_, rfl, ?_⟩
    dsimp only
    have hbase : s.gapBase pitch.val chan.val = none := by
      unfold State.gapBase
      cases hr : (s.chan pitch.val chan.val).reps with
      | nil => exact if_neg (not_not.2 (hnil hr))
      | cons r rest => exact if_neg (by simp [h r (by simp [hr])])
    rw [hbase]

end Sys2Proof.Machine
end

section
set_option Elab.async false
namespace Sys2Proof.Machine

/-! ### A page whose registers hold -/

/-- Every register of the page holds what it held. -/
structure PageHolds (p : Nat) (s t : State) : Prop where
  rd : ∀ o, t.rd p o = s.rd p o

namespace PageHolds

variable {p q : Nat} {s t : State}

theorem refl (p : Nat) (s : State) : PageHolds p s s := ⟨fun _ => rfl⟩
theorem trans {u : State} (h : PageHolds p s t) (h' : PageHolds p t u) : PageHolds p s u := ⟨fun o => (h'.rd o).trans (h.rd o)⟩
theorem of_regs {u : State} (h : PageHolds p s t) (e : u.regs = t.regs) : PageHolds p s u := ⟨fun o => (State.rd_of_regs e p o).trans (h.rd o)⟩
theorem fg (h : PageHolds p s t) (f : Fld) : t.fg p f = s.fg p f := by simp only [State.fg, h.rd f.off]
theorem event (h : PageHolds p s t) (b : Nat) : t.event p b = s.event p b := by simp only [State.event, h.rd EVT_STATUS]
theorem set (h : PageHolds p s t) (n c : Nat) (x : Chan) : PageHolds p s (t.setChan n c x) := h.of_regs (by simp)
theorem wr (h : PageHolds p s t) (hq : p ≠ q) (o : Nat) (v : Word) : PageHolds p s (t.wr q o v) :=
  ⟨fun _ => (State.rd_wr_page _ _ _ _ hq).trans (h.rd _)⟩
theorem fs (h : PageHolds p s t) (hq : p ≠ q) (f : Fld) (v : Nat) : PageHolds p s (t.fs q f v) := h.wr hq ..
theorem inc (h : PageHolds p s t) (hq : p ≠ q) (f : Fld) : PageHolds p s (t.inc q f) := h.wr hq ..
theorem raise (h : PageHolds p s t) (hq : p ≠ q) (b : Nat) : PageHolds p s (t.raise q b) :=
  ⟨fun _ => (State.rd_raise_page _ _ _ hq).trans (h.rd _)⟩
theorem ite {c : Prop} [Decidable c] {a b : State} (ha : PageHolds p s a) (hb : PageHolds p s b) : PageHolds p s (if c then a else b) := by
  split
  · exact ha
  · exact hb
theorem foldl {α : Type} {f : State → α → State} (h : PageHolds p s t) (hf : ∀ u a, PageHolds p s u → PageHolds p s (f u a)) (l : List α) :
    PageHolds p s (l.foldl f t) := List.foldlRecOn (motive := fun u => PageHolds p s u) _ _ h fun u hu a _ => hf u a hu
theorem enCnt (h : PageHolds p s t) (hq : p ≠ q) (i : Nat) : PageHolds p s (t.enCnt q i) := ((h.inc hq _).raise hq _).ite (h.inc hq _)

end PageHolds

/-! ### A card link's page is no page of a cluster, an engine or a queue -/

theorem clPage_ne_enOf (s : State) (n m c : Nat) : clPage n ≠ s.enOf m c := by unfold clPage State.enOf enPage; omega
theorem clPage_ne_ecPage (n m : Nat) : clPage n ≠ ecPage m := by unfold clPage ecPage; omega
theorem clPage_ne_queues (n : Nat) : clPage n ≠ 0x011 := by unfold clPage; omega

/-- What touches pages of queues and core ports alone leaves a card link's page. -/
theorem Framed.clHolds {M : Nat} {s t : State} (h : Framed M s t) (hM : M.testBit 46 = false) (n : Nat) : PageHolds (clPage n) s t :=
  ⟨fun o => h.rd (clPage n) o (by rw [kindOf_clPage]; exact hM)⟩

namespace PageHolds

variable {n : Nat} {s t : State}

theorem graceFlush (h : PageHolds (clPage n) s t) (q : Nat) : PageHolds (clPage n) s (t.graceFlush q) :=
  h.trans ((State.graceFlush_framed (.refl 0x6000003808 t) (Sub.self _)).clHolds (by decide) n)
theorem portLost (h : PageHolds (clPage n) s t) (q : Nat) : PageHolds (clPage n) s (t.portLost q) :=
  h.trans ((State.portLost_framed (.refl 0x6000003808 t) (Sub.self _)).clHolds (by decide) n)
theorem setLost {p : Nat} (h : PageHolds p s t) (q v : Nat) : PageHolds p s (t.setLost q v) := h.of_regs rfl
theorem portBack (h : PageHolds (clPage n) s t) (q : Nat) (same : Bool) : PageHolds (clPage n) s (t.portBack q same) :=
  h.ite (((h.graceFlush q).setLost ..).ite ((h.setLost ..).ite (((h.graceFlush q).raise (clPage_ne_queues n) _).setLost ..)))

/-! #### What a link that enters ACTIVE begins again -/

theorem dueLost (h : PageHolds (clPage n) s t) (m c : Nat) : PageHolds (clPage n) s (t.dueLost m c) := by
  have hg := clPage_ne_enOf t n m c
  exact h.ite ((h.set ..).foldl (fun _ _ hu => (hu.enCnt hg _).raise hg _) _)
theorem pbTurn (h : PageHolds (clPage n) s t) (m c : Nat) : PageHolds (clPage n) s (t.pbTurn m c) := by
  have hg := clPage_ne_enOf t n m c
  exact h.ite ((((h.fs hg ..).set ..).ite h).ite (((h.fs hg ..).raise hg _).set ..))
theorem ttInit (h : PageHolds (clPage n) s t) (m c : Nat) : PageHolds (clPage n) s (t.ttInit m c) := by
  have hg := clPage_ne_enOf t n m c
  unfold State.ttInit
  dsimp only
  split
  · exact ((h.set ..).wr hg ..).ite (h.set ..)
  · exact (h.set ..).wr hg ..
theorem restartRegs {p g : Nat} (h : PageHolds p s t) (hg : p ≠ g) : PageHolds p s (t.restartRegs g) := by
  have hfold := h.foldl (f := fun (u : State) i => u.wr g (EN_CNT + 4 * i) 0) (fun _ _ hu => hu.wr hg ..) (List.range 4)
  have hcnt : PageHolds p s (t.enClrCnt g) := (((hfold.wr hg ..).wr hg ..).wr hg ..).ite hfold
  exact ((((hcnt.wr hg ..).wr hg ..).wr hg ..).fs hg ..).ite ((hcnt.wr hg ..).ite ((((hcnt.wr hg ..).wr hg ..).wr hg ..).ite hcnt))
theorem restartChan (h : PageHolds (clPage n) s t) (m c : Nat) : PageHolds (clPage n) s (State.restartChan m t c) :=
  (h.set ..).restartRegs (clPage_ne_enOf t n m c)
theorem place {p : Nat} (h : PageHolds p s t) (m c : Nat) (u : Int) (l e : Bool) : PageHolds p s (t.place m c u l e) := h.set ..
theorem startOut {p : Nat} (h : PageHolds p s t) (m c : Nat) : PageHolds p s (t.startOut m c) := by
  have hout := ((h.place m c (t.earliest m) (t.fb (t.enOf m c) DI_OUT_LEVEL) (t.fb (t.enOf m c) DI_OUT_EN)).ite
    (c := (t.fg (t.enOf m c) DI_CFG_OUTMODE = 0 && !t.fb (t.enOf m c) DI_CFG_OUTSRC) = true) h).ite (c := t.enMode (t.enOf m c) = 4)
    (h.place m c (t.earliest m) (t.idleOut (t.enOf m c) m c).1 (t.idleOut (t.enOf m c) m c).2)
  unfold State.startOut
  dsimp only
  split
  · exact hout.place ..
  · exact hout
theorem restartCluster (h : PageHolds (clPage n) s t) (m : Nat) : PageHolds (clPage n) s (t.restartCluster m) :=
  ((h.foldl (fun _ _ hu => hu.restartChan ..) _).foldl (fun _ _ hu => (hu.startOut ..).ite hu) _).raise (clPage_ne_ecPage n m) _
theorem ttRestart (h : PageHolds (clPage n) s t) (m : Nat) : PageHolds (clPage n) s (t.ttRestart m) := h.foldl (fun _ _ hu => hu.ttInit ..) _

end PageHolds

/-! ### A link leaves its state and enters TRAIN (R231, R242) -/

section
variable (s : State) (n : Nat)

theorem State.clHand_regs (c : Nat) (r : Rep) : (s.clHand n c r).regs = s.regs := by unfold State.clHand; simp
theorem State.clGaps_regs (base : Int) : (s.clGaps n base).regs = s.regs := by
  unfold State.clGaps
  refine List.foldlRecOn (motive := fun u : State => u.regs = s.regs) _ _ ?_ fun u hu _ _ => (State.clHand_regs ..).trans hu
  split <;> rfl

/-- The two fields of the outputs are 0 while the link is not in ACTIVE. -/
def State.clSilent : State := (s.fs (clPage n) CL_STATUS_TX_ACTIVE 0).fs (clPage n) CL_STATUS_TX_OUT_VALID 0

theorem State.clSilent_writes : WritesFields (clPage n) [CL_STATUS_TX_ACTIVE, CL_STATUS_TX_OUT_VALID] s (s.clSilent n) :=
  (WritesFields.refl.fs (by simp)).fs (by simp)
theorem State.clSilent_tx : (s.clSilent n).fg (clPage n) CL_STATUS_TX_ACTIVE = 0 :=
  (State.fg_fs_apart _ _ _ (by decide)).trans (State.fg_fs _ _ _ _ (by decide))
theorem State.clLeave_off (h : s.clState n ≠ 5) : s.clLeave n = s.clSilent n := if_neg h
theorem State.clLeave_active (h : s.clState n = 5) :
    PageHolds (clPage n) ((((s.clSilent n).clGaps n (s.clBase n)).raise (clPage n) EV_CL_LINK_DOWN)) (s.clLeave n) := by
  have : s.clLeave n = (((s.clSilent n).clGaps n (s.clBase n)).raise (clPage n) EV_CL_LINK_DOWN).portLost (portCluster n) := if_pos h
  rw [this]
  exact (PageHolds.refl ..).portLost _
theorem State.clLeave_tx : (s.clLeave n).fg (clPage n) CL_STATUS_TX_ACTIVE = 0 := by
  by_cases h : s.clState n = 5
  · rw [(s.clLeave_active n h).fg, State.fg_raise_off _ _ (by decide), State.fg_of_regs (State.clGaps_regs ..)]
    exact State.clSilent_tx ..
  · rw [State.clLeave_off _ _ h]; exact State.clSilent_tx ..
theorem State.clLeave_down (h : s.clState n = 5) : (s.clLeave n).event (clPage n) EV_CL_LINK_DOWN = true :=
  ((s.clLeave_active n h).event _).trans (State.event_raise _ _ (by decide))

/-- The fields that entry to TRAIN writes. -/
def clTrained : List Fld := [CL_STATUS_STATE, CL_STATUS_SEL_THIS, CL_LSTAT_LOCKED, CL_STATUS_HELD_REASON]

theorem State.clTrain_writes : WritesFields (clPage n) clTrained (s.clLeave n) (s.clTrain n) :=
  ((((WritesFields.refl.fs (by simp [clTrained])).fs (by simp [clTrained])).fs (by simp [clTrained])).fs (by simp [clTrained])).of_regs rfl
theorem State.clTrain_state : (s.clTrain n).clState n = 2 := by
  have h (t : State) (v : Nat) {f : Fld} (hf : regKey 0 CL_STATUS_STATE.off ≠ regKey 0 f.off ∨ CL_STATUS_STATE.lo + CL_STATUS_STATE.w ≤ f.lo) :
      (t.fs (clPage n) f v).fg (clPage n) CL_STATUS_STATE = t.fg (clPage n) CL_STATUS_STATE :=
    State.fg_fs_apart _ _ _ (hf.imp_right fun h => ⟨.inl h, by decide⟩)
  refine (h _ 0 (f := CL_STATUS_HELD_REASON) (by decide)).trans ((h _ 0 (f := CL_LSTAT_LOCKED) (by decide)).trans
    ((h _ 0 (f := CL_STATUS_SEL_THIS) (by decide)).trans ?_))
  exact State.fg_fs _ _ _ _ (by decide)
theorem State.clTrain_tx : (s.clTrain n).fg (clPage n) CL_STATUS_TX_ACTIVE = 0 := by
  obtain ⟨fields, -, -⟩ := s.clTrain_writes n
  exact (fields _ (by decide)).trans (s.clLeave_tx n)
theorem State.clTrain_down (h : s.clState n = 5) : (s.clTrain n).event (clPage n) EV_CL_LINK_DOWN = true := by
  obtain ⟨-, events, -⟩ := s.clTrain_writes n
  exact events _ (s.clLeave_down n h)
/-- A link not in ACTIVE enters TRAIN on its page alone. -/
theorem State.clTrain_off (h : s.clState n ≠ 5) :
    WritesFields (clPage n) (CL_STATUS_TX_ACTIVE :: CL_STATUS_TX_OUT_VALID :: clTrained) s (s.clTrain n) := by
  have hl := (s.clSilent_writes n).mono (m := CL_STATUS_TX_ACTIVE :: CL_STATUS_TX_OUT_VALID :: clTrained) (by simp)
  rw [← s.clLeave_off n h] at hl
  exact hl.trans ((s.clTrain_writes n).mono (by simp))

end

/-! ### The card of a link after the operations on it -/

@[simp] theorem State.card_setCard (s : State) (n : Nat) (x : Card) : (s.setCard n x).card n = x := Map.getD_put_same ..
@[simp] theorem State.card_fs (s : State) (p : Nat) (f : Fld) (v n : Nat) : (s.fs p f v).card n = s.card n := rfl
@[simp] theorem State.clState_setCard (s : State) (n m : Nat) (x : Card) : (s.setCard n x).clState m = s.clState m := rfl

section
variable (s : State) (n : Nat)

/-- A write beside the state of the link, and of one of the counters of its page. -/
theorem State.clState_fs (v : Nat) {f : Fld} (h : regKey 0 CL_STATUS_STATE.off ≠ regKey 0 f.off ∨ CL_STATUS_STATE.lo + CL_STATUS_STATE.w ≤ f.lo) :
    (s.fs (clPage n) f v).clState n = s.clState n := State.fg_fs_apart _ _ _ (h.imp_right fun h => ⟨.inl h, by decide⟩)
theorem State.clState_inc {f : Fld} (h : regKey 0 CL_STATUS_STATE.off ≠ regKey 0 f.off) : (s.inc (clPage n) f).clState n = s.clState n :=
  s.clState_fs n _ (.inl h)
theorem State.clState_of_fs (v : Nat) : (s.fs (clPage n) CL_STATUS_STATE v).clState n = v % 8 := State.fg_fs _ _ _ _ (by decide)

/-- What a frame's receiver found shows in the lane's counters alone. -/
theorem State.clMarks_writes (m : CardEnd) : WritesFields (clPage n) [CL_LCNT_CV, CL_LCNT_LOCK_LOSS] s (s.clMarks n m) := by
  unfold State.clMarks
  split
  · exact WritesFields.refl.fs (by simp)
  · exact (WritesFields.refl.fs (by simp)).ite .refl
  · exact .refl
theorem State.clMarks_card (m : CardEnd) (i : Nat) : (s.clMarks n m).card i = s.card i := by
  unfold State.clMarks
  split
  · rfl
  · split <;> rfl
  · rfl
theorem State.clMarks_state (m : CardEnd) : (s.clMarks n m).clState n = s.clState n := (s.clMarks_writes n m).1 _ (by decide)

end

/-! ### Commands by which a link enters TRAIN or counts toward it (R231, R233) -/

section
variable {s u : State} {n : Nat}

theorem State.clTrain_fg (hu : u.clState n ≠ 5) {f : Fld} (hf : f.beside (CL_STATUS_TX_ACTIVE :: CL_STATUS_TX_OUT_VALID :: clTrained) = true) :
    (u.clTrain n).fg (clPage n) f = u.fg (clPage n) f := (u.clTrain_off n hu).1 f hf
theorem State.clTrain_only (hu : u.clState n ≠ 5) (h : onlyPages [clPage n] s u) : onlyPages [clPage n] s (u.clTrain n) := by
  obtain ⟨-, -, only⟩ := u.clTrain_off n hu
  exact h.trans only

/-- What a probe found, and how many found the termination in a row. -/
def State.clProbed (s : State) (n : Nat) (term : Bool) (k : Nat) : State :=
  (s.fs (clPage n) CL_LSTAT_TERM (bit term)).setCard n { s.card n with probes := k }

theorem State.clProbed_spec (s : State) (n : Nat) (term : Bool) (k : Nat) :
    (s.clProbed n term k).clState n = s.clState n ∧ ((s.clProbed n term k).card n).probes = k ∧
      (s.clProbed n term k).fg (clPage n) CL_LSTAT_TERM = bit term ∧ onlyPages [clPage n] s (s.clProbed n term k) := by
  refine ⟨s.clState_fs n _ (by decide), congrArg Card.probes (State.card_setCard ..), ?_,
    ((onlyPages.refl [clPage n] s).fs (List.mem_singleton.2 rfl)).of_regs rfl⟩
  refine (State.fg_fs _ _ _ _ (by decide)).trans ?_
  cases term <;> rfl

theorem exec_receiverDetectProbe {pitch : Pitch} (h : s.clState pitch.val = 1) (term : Bool) {k : Nat}
    (hk : k = if term then (s.card pitch.val).probes + 1 else 0) :
    exec (.receiverDetectProbe pitch term) s = .next (if 2 ≤ k then
      ((s.clProbed pitch.val term k).setCard pitch.val { (s.clProbed pitch.val term k).card pitch.val with probes := 0 }).clTrain pitch.val
      else s.clProbed pitch.val term k) := by
  subst hk
  exact congrArg Host.Outcome.next (if_neg (not_not.2 h))

/-- A training frame in TRAIN that locks the link, and shows that the card has locked (R233). -/
theorem State.clTrainFrame_locks (inv : Bool) {bs : List Byte} (hl : 63 ≤ (s.card n).lock) (hs : 7 ≤ (s.card n).seen) (hb : nbit (leAt bs 2 1) 0 = true) :
    (s.clTrainFrame n bs true inv).clState n = 3 ∧ (s.clTrainFrame n bs true inv).fg (clPage n) CL_LSTAT_INV = bit inv ∧
      (s.clTrainFrame n bs true inv).fg (clPage n) CL_LSTAT_LOCKED = 1 ∧ ((s.clTrainFrame n bs true inv).card n).samples = [] ∧
      onlyPages [clPage n] s (s.clTrainFrame n bs true inv) := by
  have hmem : clPage n ∈ [clPage n] := List.mem_singleton.2 rfl
  have hnow : (s.fb (clPage n) CL_LSTAT_LOCKED || decide (64 ≤ (s.card n).lock + 1)) = true := by
    rw [decide_eq_true (by omega), Bool.or_true]
  unfold State.clTrainFrame
  simp only [hb, hnow, Bool.and_true, Bool.true_and, if_true, decide_eq_true_eq]
  rw [if_pos (by omega)]
  refine ⟨State.clState_of_fs _ _ _, ?_, ?_, congrArg Card.samples (State.card_setCard ..),
    (((((onlyPages.refl [clPage n] s).fs hmem).fs hmem).fs hmem).of_regs rfl).fs hmem |>.of_regs rfl⟩
  · refine (State.fg_fs_apart _ _ _ (by decide)).trans ((State.fg_fs _ _ _ _ (by decide)).trans ?_)
    cases inv <;> rfl
  · refine (State.fg_fs_apart _ _ _ (by decide)).trans ((State.fg_fs_apart _ _ _ (by decide)).trans ?_)
    exact (State.fg_fs_apart _ _ _ (by decide)).trans (State.fg_fs _ _ _ _ (by decide))

/-- A frame in TRAIN that is not valid starts the count again. -/
theorem State.clTrainFrame_bad (s : State) (n : Nat) (bs : List Byte) (inv : Bool) :
    s.clTrainFrame n bs false inv = s.setCard n { s.card n with lock := 0, seen := 0 } := by
  unfold State.clTrainFrame
  simp
theorem State.clUnlock_spec (s : State) (n : Nat) : (s.clUnlock n).clState n = s.clState n ∧ ((s.clUnlock n).card n).lock = 0 ∧
    (s.clUnlock n).fg (clPage n) CL_LSTAT_LOCKED = 0 ∧ onlyPages [clPage n] s (s.clUnlock n) :=
  ⟨s.clState_fs n _ (by decide), congrArg Card.lock (State.card_setCard ..), State.fg_fs _ _ _ _ (by decide),
    ((onlyPages.refl [clPage n] s).fs (List.mem_singleton.2 rfl)).of_regs rfl⟩

/-- The link goes to DETECT from a state that is not ACTIVE. -/
theorem State.clDetect_spec (h : s.clState n ≠ 5) :
    (s.clDetect n).clState n = 1 ∧ (s.clDetect n).fg (clPage n) CL_CNT_LINK_TRAIN_FAIL = s.fg (clPage n) CL_CNT_LINK_TRAIN_FAIL ∧
      onlyPages [clPage n] s (s.clDetect n) := by
  obtain ⟨fields, -, only⟩ := s.clSilent_writes n
  have hd : s.clDetect n = ((s.clSilent n).fs (clPage n) CL_STATUS_STATE 1).setCard n
      { ((s.clSilent n).fs (clPage n) CL_STATUS_STATE 1).card n with probes := 0 } := by
    unfold State.clDetect
    rw [s.clLeave_off n h]
  rw [hd]
  exact ⟨State.clState_of_fs _ _ _, (State.fg_fs_apart _ _ _ (by decide)).trans (fields _ (by decide)),
    (only.fs (List.mem_singleton.2 rfl)).of_regs rfl⟩

end

section
variable {s : State} {pitch : Pitch} {bytes : List Byte} {sample : Nat} {inv : Bool} {mark : CardEnd}

/-- A frame is valid where its code, its marks and its inversion say so. -/
def State.clFrameOk (s : State) (n : Nat) (bytes : List Byte) (inv : Bool) (mark : CardEnd) : Bool :=
  clTrainOk bytes && decide (mark = .clean) && (inv == s.fb (clPage n) CL_LSTAT_INV)

theorem State.clFrameOk_iff (s : State) (n : Nat) :
    s.clFrameOk n bytes inv mark = true ↔ clTrainOk bytes = true ∧ mark = .clean ∧ inv = s.fb (clPage n) CL_LSTAT_INV := by
  simp [State.clFrameOk, and_assoc]

theorem exec_cardTrainingFrame_train (hl : bytes.length = 10) (h : s.clState pitch.val = 2) :
    exec (.cardTrainingFrame pitch bytes sample inv mark) s = .next (if mark = .unlock then (s.clMarks pitch.val mark).clUnlock pitch.val
      else (s.clMarks pitch.val mark).clTrainFrame pitch.val bytes (clTrainOk bytes && decide (mark = .clean)) inv) := by
  refine (if_neg (not_not.2 hl)).trans (congrArg Host.Outcome.next ?_)
  dsimp only
  rw [h]
  simp

theorem exec_cardTrainingFrame_loop (hl : bytes.length = 10) (h : s.clState pitch.val = 3) :
    exec (.cardTrainingFrame pitch bytes sample inv mark) s = .next (
      if s.clFrameOk pitch.val bytes inv mark then (s.clMarks pitch.val mark).setCard pitch.val { s.card pitch.val with
        badRun := 0
        samples := if (s.card pitch.val).looped || decide (256 ≤ (s.card pitch.val).samples.length) then (s.card pitch.val).samples
          else (s.card pitch.val).samples ++ [sample] }
      else if 4 ≤ (s.card pitch.val).badRun + 1 then (s.clMarks pitch.val mark).clTrain pitch.val
      else (s.clMarks pitch.val mark).setCard pitch.val { s.card pitch.val with badRun := (s.card pitch.val).badRun + 1 }) := by
  refine (if_neg (not_not.2 hl)).trans (congrArg Host.Outcome.next ?_)
  dsimp only
  rw [h]
  rfl

end

/-! ### The loop measured (R234), and entry to HELD (R239) -/

section
variable (s : State) (n : Nat)

theorem State.clSuper_regs : (s.clSuper n).regs = s.regs := by unfold State.clSuper State.sbNext; simp
theorem State.clHeld_spec {reason : Nat} (h : reason < 256) :
    (s.clHeld n reason).clState n = 6 ∧ (s.clHeld n reason).fg (clPage n) CL_STATUS_HELD_REASON = reason ∧
      (s.clHeld n reason).event (clPage n) EV_CL_HELD = true ∧ onlyPages [clPage n] s (s.clHeld n reason) := by
  have hmem : clPage n ∈ [clPage n] := List.mem_singleton.2 rfl
  refine ⟨?_, ?_, State.event_raise _ _ (by decide), (((onlyPages.refl [clPage n] s).fs hmem).fs hmem).raise hmem⟩
  · refine (State.fg_raise_off _ _ (by decide)).trans ((State.fg_fs_apart _ _ _ (by decide)).trans ?_)
    exact State.fg_fs _ _ _ _ (by decide)
  · exact (State.fg_raise_off _ _ (by decide)).trans ((State.fg_fs _ _ _ _ (by decide)).trans (Nat.mod_eq_of_lt h))
theorem State.clSuperHeld_spec {reason : Nat} (h : reason < 256) :
    ((s.clSuper n).clHeld n reason).clState n = 6 ∧ ((s.clSuper n).clHeld n reason).fg (clPage n) CL_STATUS_HELD_REASON = reason ∧
      ((s.clSuper n).clHeld n reason).event (clPage n) EV_CL_HELD = true ∧ onlyPages [clPage n] s ((s.clSuper n).clHeld n reason) := by
  obtain ⟨state, why, event, only⟩ := (s.clSuper n).clHeld_spec n h
  exact ⟨state, why, event, ((onlyPages.refl [clPage n] s).of_regs (State.clSuper_regs ..)).trans only⟩

end

theorem exec_loopMeasureDone {s : State} {pitch : Pitch} (h : s.clState pitch.val = 3) (hl : (s.card pitch.val).looped = false)
    (hn : (s.card pitch.val).samples.length = 256) :
    exec (.loopMeasureDone pitch) s = .next (
      if 16 < (s.card pitch.val).samples.foldl max 0 - (s.card pitch.val).samples.foldl min ((s.card pitch.val).samples.headD 0) then
        (if 3 ≤ (s.card pitch.val).tries + 1 then (s.clSuper pitch.val).clHeld pitch.val 2
          else s.setCard pitch.val { s.card pitch.val with samples := [], tries := (s.card pitch.val).tries + 1 })
      else if (s.card pitch.val).samples.sum < 1280 * 256 ∨ 4000 * 256 < (s.card pitch.val).samples.sum then (s.clSuper pitch.val).clHeld pitch.val 1
      else (s.fs (clPage pitch.val) CL_LOOP_LOOP (((s.card pitch.val).samples.sum + 128) / 256)).setCard pitch.val
        { s.card pitch.val with samples := [], looped := true }) :=
  congrArg Host.Outcome.next (if_neg (by simp [h, hl, hn]))

/-! ### The roll call: the link enters ACTIVE (R231, R239, R240) -/

/-- What happens to a page leaves the fields beside those listed, and loses no event. -/
structure PageShows (p : Nat) (l : List Fld) (s t : State) : Prop where
  fields : ∀ f, f.beside l = true → t.fg p f = s.fg p f
  events : ∀ b, s.event p b = true → t.event p b = true

namespace PageShows

variable {p : Nat} {l : List Fld} {s t u : State}

theorem of_holds (h : PageHolds p s t) : PageShows p l s t := ⟨fun f _ => h.fg f, fun b hb => (h.event b).trans hb⟩
theorem of_writes (h : WritesFields p l s t) : PageShows p l s t := ⟨h.1, h.2.1⟩
theorem trans (h : PageShows p l s t) (h' : PageShows p l t u) : PageShows p l s u :=
  ⟨fun f hf => (h'.fields f hf).trans (h.fields f hf), fun b hb => h'.events b (h.events b hb)⟩

end PageShows

section
variable (s : State) (n : Nat) (bs : List Byte)

/-- What the identity of the card begins again: nothing for the card that was there, the queues and the cluster for another. -/
def State.clWelcome (lo hi : Word) : State :=
  if !s.fb (clPage n) CL_STATUS_ID_VALID then
    ((((s.fs (clPage n) CL_STATUS_ID_VALID 1).raise (clPage n) EV_CL_CARD_NEW).portBack (portCluster n) true).restartCluster n).ttRestart n
  else if decide (s.rd (clPage n) CL_SN_LO = lo) && decide (s.rd (clPage n) CL_SN_HI = hi) then s.portBack (portCluster n) true
  else (((s.raise (clPage n) EV_CL_CARD_NEW).portBack (portCluster n) false).restartCluster n).ttRestart n

theorem State.clWelcome_shows (lo hi : Word) : PageShows (clPage n) [CL_STATUS_ID_VALID] s (s.clWelcome n lo hi) := by
  have hagain (t : State) (b : Bool) : PageHolds (clPage n) t (((t.portBack (portCluster n) b).restartCluster n).ttRestart n) :=
    (((PageHolds.refl (clPage n) t).portBack ..).restartCluster n).ttRestart n
  unfold State.clWelcome
  split
  · exact (PageShows.of_writes ((WritesFields.refl.fs (by simp)).raise)).trans (.of_holds (hagain _ _))
  · split
    · exact .of_holds ((PageHolds.refl _ s).portBack ..)
    · exact (PageShows.of_writes WritesFields.refl.raise).trans (.of_holds (hagain _ _))

/-- The registers of the card's identity. -/
def State.clNamed (lo hi : Word) : State :=
  let s2 := (((s.wr (clPage n) CL_SN_LO lo).wr (clPage n) CL_SN_HI hi).fs (clPage n) CL_CARD_TYPE (leAt bs 10 2)).fs (clPage n) CL_CARD_FW (leAt bs 12 2)
  let s3 := s2.fs (clPage n) CL_CARD_STAT_FITTED (leAt bs 14 1)
  ((s3.fs (clPage n) CL_STATUS_CAP_TWIN (leAt bs 15 1 % 2)).fs (clPage n) CL_STATUS_CAP_RELAY (leAt bs 15 1 / 2 % 2)).fs (clPage n) CL_STATUS_CARD_LANE
    (leAt bs 16 1 % 2)

theorem State.clIdentity_eq : s.clIdentity n bs = (s.clWelcome n (BitVec.ofNat 32 (leAt bs 2 4)) (BitVec.ofNat 32 (leAt bs 6 4))).clNamed n bs
    (BitVec.ofNat 32 (leAt bs 2 4)) (BitVec.ofNat 32 (leAt bs 6 4)) := rfl

theorem State.clNamed_spec (lo hi : Word) :
    (s.clNamed n bs lo hi).rd (clPage n) CL_SN_LO = lo ∧ (s.clNamed n bs lo hi).rd (clPage n) CL_SN_HI = hi ∧
      (s.clNamed n bs lo hi).fg (clPage n) CL_CARD_TYPE = leAt bs 10 2 % 2 ^ 16 ∧
      (s.clNamed n bs lo hi).clState n = s.clState n ∧ ∀ b, s.event (clPage n) b = true → (s.clNamed n bs lo hi).event (clPage n) b = true := by
  let a : State := (s.wr (clPage n) CL_SN_LO lo).wr (clPage n) CL_SN_HI hi
  let b : State := a.fs (clPage n) CL_CARD_TYPE (leAt bs 10 2)
  have hafter : WritesFields (clPage n) [CL_CARD_FW, CL_CARD_STAT_FITTED, CL_STATUS_CAP_TWIN, CL_STATUS_CAP_RELAY, CL_STATUS_CARD_LANE] b
      (s.clNamed n bs lo hi) :=
    ((((WritesFields.refl.fs (by simp)).fs (by simp)).fs (by simp)).fs (by simp)).fs (by simp)
  have hword := fun o => hafter.rd (o := o)
  obtain ⟨fields, events, -⟩ := hafter
  refine ⟨(hword CL_SN_LO (by decide)).trans ?_, (hword CL_SN_HI (by decide)).trans ?_, (fields _ (by decide)).trans (State.fg_fs _ _ _ _ (by decide)),
    (fields CL_STATUS_STATE (by decide)).trans ?_, fun e he => events e ?_⟩
  · exact (State.rd_fs_off _ _ _ (by decide)).trans ((State.rd_wr_off _ _ _ (by decide)).trans (State.rd_wr_same ..))
  · exact (State.rd_fs_off _ _ _ (by decide)).trans (State.rd_wr_same ..)
  · refine (State.fg_fs_apart _ _ _ (by decide)).trans ((State.fg_wr_off _ _ _ (by decide)).trans ?_)
    exact State.fg_wr_off _ _ _ (by decide)
  · exact (State.event_fs_off _ _ _ _ (by decide)).trans ((State.event_wr_off _ _ _ _ (by decide)).trans
      ((State.event_wr_off _ _ _ _ (by decide)).trans he))

theorem State.clActive_spec :
    (s.clActive n bs).clState n = 5 ∧ (s.clActive n bs).rd (clPage n) CL_SN_LO = BitVec.ofNat 32 (leAt bs 2 4) ∧
      (s.clActive n bs).rd (clPage n) CL_SN_HI = BitVec.ofNat 32 (leAt bs 6 4) ∧
      (s.clActive n bs).fg (clPage n) CL_CARD_TYPE = leAt bs 10 2 % 2 ^ 16 ∧ (s.clActive n bs).event (clPage n) EV_CL_LINK_UP = true := by
  have hup (t : State) : ((t.fs (clPage n) CL_STATUS_STATE 5).raise (clPage n) EV_CL_LINK_UP).clState n = 5 :=
    (State.fg_raise_off _ _ (by decide)).trans (State.clState_of_fs _ _ _)
  have hdue (t : State) : PageHolds (clPage n) t ((List.range 8).foldl (fun (u : State) c => u.dueLost n c) t) :=
    (PageHolds.refl _ t).foldl (fun _ _ hu => hu.dueLost ..) _
  have hturn (t : State) : PageHolds (clPage n) t ((List.range 8).foldl (fun (u : State) c => u.pbTurn n c) t) :=
    (PageHolds.refl _ t).foldl (fun _ _ hu => hu.pbTurn ..) _
  unfold State.clActive
  dsimp only
  generalize hs0 : (if s.running 0x01C then { s with scan := { s.scan with gaps := s.scan.gaps ++ [(n, s.now)] } } else s) = s0
  generalize hs2 : State.setCard _ n _ = s2
  have hstate : s2.clState n = 5 := by rw [← hs2]; exact hup s0
  have hevent : s2.event (clPage n) EV_CL_LINK_UP = true := by rw [← hs2]; exact State.event_raise _ _ (by decide)
  generalize hs3 : (List.range 8).foldl (fun (u : State) c => u.dueLost n c) s2 = s3
  have hholds : PageHolds (clPage n) s2 s3 := hs3 ▸ hdue s2
  obtain ⟨wfields, wevents⟩ := s3.clWelcome_shows n (BitVec.ofNat 32 (leAt bs 2 4)) (BitVec.ofNat 32 (leAt bs 6 4))
  rw [State.clIdentity_eq]
  obtain ⟨hlo, hhi, htype, hst, hev⟩ := (s3.clWelcome n (BitVec.ofNat 32 (leAt bs 2 4)) (BitVec.ofNat 32 (leAt bs 6 4))).clNamed_spec n bs
    (BitVec.ofNat 32 (leAt bs 2 4)) (BitVec.ofNat 32 (leAt bs 6 4))
  have hend := hturn ((s3.clWelcome n (BitVec.ofNat 32 (leAt bs 2 4)) (BitVec.ofNat 32 (leAt bs 6 4))).clNamed n bs (BitVec.ofNat 32 (leAt bs 2 4))
    (BitVec.ofNat 32 (leAt bs 6 4)))
  refine ⟨?_, (hend.rd _).trans hlo, (hend.rd _).trans hhi, (hend.fg _).trans htype, (hend.event _).trans (hev _ (wevents _ ((hholds.event _).trans hevent)))⟩
  exact (hend.fg _).trans (hst.trans ((wfields _ (by decide)).trans ((hholds.fg _).trans hstate)))

end

theorem ofLe_lt (bs : List Byte) : ofLe bs < 256 ^ bs.length := by
  induction bs with
  | nil => decide
  | cons b bs ih =>
    have := b.isLt
    simp only [ofLe, List.length_cons, Nat.pow_succ]
    omega
/-- A field of two bytes. -/
theorem leAt_two_lt (bs : List Byte) (i : Nat) : leAt bs i 2 < 2 ^ 16 := by
  refine (ofLe_lt _).trans_le ((Nat.pow_le_pow_right (by decide) ?_).trans_eq (show 256 ^ 2 = 2 ^ 16 by decide))
  rw [List.length_take]
  exact Nat.min_le_left _ _

/-! ### Sideband blocks (R236, R239) -/

section
variable {s : State} {pitch : Pitch} {bytes : List Byte}

theorem exec_rollCall (h : s.clState pitch.val = 4) (hl : bytes.length = 64) (hty : leAt bytes 0 1 = 1) (hcrc : leAt bytes 62 2 = crc16 (bytes.take 62))
    (hroll : (s.card pitch.val).roll = (bytes.drop 2).take 60) (hfmt : leAt bytes 17 1 = 1)
    (hexp : s.fg (clPage pitch.val) CL_EXPECT_TYPE = 0 ∨ s.fg (clPage pitch.val) CL_EXPECT_TYPE = leAt bytes 10 2) :
    exec (.sidebandBlockReceived pitch bytes false) s = .next (s.clActive pitch.val bytes) := by
  have hroll' : s.clRollCall pitch.val bytes = s.clActive pitch.val bytes := by
    unfold State.clRollCall
    dsimp only
    rw [if_neg (not_not.2 h), if_neg (not_not.2 hroll), if_neg (not_not.2 hfmt), if_neg (fun hne => hexp.elim hne.1 hne.2)]
  refine (if_neg (not_not.2 hl)).trans (congrArg Host.Outcome.next ?_)
  dsimp only
  rw [if_neg (by omega), if_neg (by simp [hcrc, hty]), if_pos hty, hroll']

theorem exec_badBlock (h : 4 ≤ s.clState pitch.val) (hl : bytes.length = 64) {anyBad : Bool}
    (hbad : anyBad = true ∨ leAt bytes 62 2 ≠ crc16 (bytes.take 62) ∨ (2 < leAt bytes 0 1 ∧ leAt bytes 0 1 ≠ 0x10)) :
    exec (.sidebandBlockReceived pitch bytes anyBad) s = .next (s.inc (clPage pitch.val) CL_CNT_BLOCK_COUNT) := by
  refine (if_neg (not_not.2 hl)).trans (congrArg Host.Outcome.next ((if_neg (by omega)).trans (if_pos ?_)))
  exact hbad.imp_right (Or.imp_right fun hty => by omega)

end

/-! ### CL_CTRL.RETRAIN (R231) -/

theorem State.clState_touch (s : State) (who : Initiator) (r : Bool) (n : Nat) : (s.touch who r).clState n = s.clState n :=
  State.fg_touch_page s who r CL_STATUS_STATE (clPage_ne_scan n)
theorem State.clState_answer (s : State) (who : Initiator) (r : Nat) (d : Word) (n : Nat) : (s.answer who r d).clState n = s.clState n := rfl
theorem State.fg_answer_card (s : State) (who : Initiator) (r : Nat) (d : Word) (p : Nat) (f : Fld) : (s.answer who r d).fg p f = s.fg p f := rfl
theorem State.event_answer_card (s : State) (who : Initiator) (r : Nat) (d : Word) (p b : Nat) : (s.answer who r d).event p b = s.event p b := rfl

theorem completes_retrain {s : State} {who : Initiator} {pitch : Pitch} (hacc : s.accepts who (clPage pitch.val) CL_CTRL = true)
    (h : 3 ≤ s.clState pitch.val) : completes (.clRetrain who pitch) s fun t =>
      t.clState pitch.val = 2 ∧ t.fg (clPage pitch.val) CL_STATUS_TX_ACTIVE = 0 ∧ t.ansOf who = ⟨rspOk, 0, none⟩ ∧
        (s.clState pitch.val = 5 → t.event (clPage pitch.val) EV_CL_LINK_DOWN = true) := by
  have hretrain : (s.touch who false).clRetrain pitch.val = (s.touch who false).clTrain pitch.val :=
    if_pos (by rw [State.clState_touch]; exact h)
  refine completes_write rfl hacc ?_
  beta_reduce
  rw [hretrain, State.clState_answer, State.fg_answer_card, State.event_answer_card]
  exact ⟨State.clTrain_state .., State.clTrain_tx .., State.ansOf_answer ..,
    fun h5 => State.clTrain_down _ _ ((State.clState_touch ..).trans h5)⟩

/-! ### The statement -/

/-- Settles O44: each command of bring-up is an explicit function of the link's page and card. Entry to TRAIN writes four fields of the page
after what leaving the state before does (`clTrain_writes`), and what a link that enters ACTIVE begins again lies on other pages
(`PageHolds`). -/
theorem cardLinksComeUp : Obligations.CardLinksComeUp := by
  unfold Obligations.CardLinksComeUp
  refine ⟨?_, ?_, ?_, ?_, ?_, ?_, ?_, ?_, ?_, ?_⟩
  · intro s pitch term h
    obtain ⟨k, hk⟩ : ∃ k, k = if term then (s.card pitch.val).probes + 1 else 0 := ⟨_, rfl⟩
    obtain ⟨hst, hprobes, hterm, honly⟩ := s.clProbed_spec pitch.val term k
    have hne : ((s.clProbed pitch.val term k).setCard pitch.val { (s.clProbed pitch.val term k).card pitch.val with probes := 0 }).clState
        pitch.val ≠ 5 := by
      rw [State.clState_setCard, hst, h]; decide
    refine ⟨_, exec_receiverDetectProbe h term hk, ?_⟩
    by_cases hp : 2 ≤ k
    · rw [if_pos hp]
      refine ⟨fun _ _ => State.clTrain_state .., fun ht => ?_, fun ht h0 => ?_, (State.clTrain_fg hne (by decide)).trans hterm,
        State.clTrain_only hne (honly.of_regs rfl)⟩
      · rw [hk, ht, if_neg nofun] at hp; omega
      · rw [hk, ht, h0, if_pos rfl] at hp; omega
    · rw [if_neg hp]
      refine ⟨fun ht h1 => ?_, fun ht => ⟨hst.trans h, ?_⟩, fun ht h0 => ⟨hst.trans h, ?_⟩, hterm, honly⟩
      · rw [hk, ht, if_pos rfl] at hp; omega
      · rw [hprobes, hk, ht, if_neg nofun]
      · rw [hprobes, hk, ht, h0, if_pos rfl]
  · intro s pitch bytes sample inv h hl hok hlock hseen hb
    refine ⟨_, exec_cardTrainingFrame_train hl h, ?_⟩
    rw [if_neg nofun, hok]
    exact State.clTrainFrame_locks inv hlock hseen hb
  · intro s pitch bytes sample inv mark hl h hbad
    obtain ⟨-, -, monly⟩ := s.clMarks_writes pitch.val mark
    have mst : (s.clMarks pitch.val mark).clState pitch.val = 2 := (s.clMarks_state pitch.val mark).trans h
    refine ⟨_, exec_cardTrainingFrame_train hl h, ?_⟩
    split
    next hu =>
      obtain ⟨ust, ulock, ulocked, uonly⟩ := (s.clMarks pitch.val mark).clUnlock_spec pitch.val
      exact ⟨ulock, ust.trans mst, fun _ => ulocked, monly.trans uonly⟩
    next hu =>
      have hno : (clTrainOk bytes && decide (mark = .clean)) = false := by
        rcases hbad with hb | hb
        · rw [hb, Bool.false_and]
        · rw [decide_eq_false hb, Bool.and_false]
      rw [hno, State.clTrainFrame_bad]
      exact ⟨congrArg Card.lock (State.card_setCard ..), mst, fun he => absurd he hu, monly.of_regs rfl⟩
  · intro s pitch bytes sample inv mark hl h
    have mst : (s.clMarks pitch.val mark).clState pitch.val = 3 := (s.clMarks_state pitch.val mark).trans h
    refine ⟨_, exec_cardTrainingFrame_loop hl h, ?_⟩
    beta_reduce
    rw [← s.clFrameOk_iff pitch.val]
    refine ⟨fun hok => ?_, fun hok hrun => ?_, fun hok hrun => ?_⟩
    · have hclean := ((s.clFrameOk_iff pitch.val).1 hok).2.1
      rw [if_pos hok, hclean, State.card_setCard]
      exact ⟨rfl, rfl, rfl⟩
    · rw [if_neg hok, if_pos (by omega)]
      exact State.clTrain_state ..
    · rw [if_neg hok, if_neg (by omega), State.card_setCard]
      exact ⟨mst, rfl, rfl⟩
  · intro s pitch h hl
    have hinc : (s.inc (clPage pitch.val) CL_CNT_LINK_TRAIN_FAIL).clState pitch.val ≠ 5 := by
      rw [s.clState_inc pitch.val (by decide), h]; decide
    obtain ⟨hst, hcnt, honly⟩ := State.clDetect_spec hinc
    refine ⟨_, congrArg Host.Outcome.next (if_pos ⟨h, by simp [hl]⟩), hst, hcnt.trans (State.fg_inc _ _ (by decide)), ?_⟩
    exact ((onlyPages.refl [clPage pitch.val] s).inc (List.mem_singleton.2 rfl)).trans honly
  · intro s pitch h hl hn
    have hmem : clPage pitch.val ∈ [clPage pitch.val] := List.mem_singleton.2 rfl
    refine ⟨_, exec_loopMeasureDone h hl hn, ?_⟩
    split
    next hwide =>
      split
      next htries =>
        obtain ⟨hst, hwhy, hev, honly⟩ := s.clSuperHeld_spec pitch.val (reason := 2) (by decide)
        exact ⟨fun hc => absurd hc.1 (by omega), fun _ => ⟨hst, hwhy, hev⟩, fun hc => absurd hc.1 (by omega), fun hc => absurd hc.2 (by omega), honly⟩
      next htries =>
        refine ⟨fun hc => absurd hc.1 (by omega), fun hc => absurd hc.2 (by omega), fun hc => absurd hc.1 (by omega), fun _ => ?_,
          (onlyPages.refl _ s).of_regs rfl⟩
        rw [State.card_setCard]
        exact ⟨h, rfl, rfl, rfl⟩
    next hwide =>
      split
      next hmean =>
        obtain ⟨hst, hwhy, hev, honly⟩ := s.clSuperHeld_spec pitch.val (reason := 1) (by decide)
        exact ⟨fun hc => absurd hmean (by omega), fun hc => absurd hc.1 hwide, fun _ => ⟨hst, hwhy, hev⟩, fun hc => absurd hc.1 hwide, honly⟩
      next hmean =>
        refine ⟨fun _ => ⟨?_, congrArg Card.looped (State.card_setCard ..), (s.clState_fs _ _ (by decide)).trans h⟩, fun hc => absurd hc.1 hwide,
          fun hc => absurd hc.2 hmean, fun hc => absurd hc.1 hwide, ((onlyPages.refl _ s).fs hmem).of_regs rfl⟩
        exact (State.fg_fs _ _ _ _ (by decide)).trans (Nat.mod_eq_of_lt (by simp [CL_LOOP_LOOP]; omega))
  · intro s pitch bytes h hl hty hcrc hroll hfmt hexp
    obtain ⟨hst, hlo, hhi, htype, hev⟩ := s.clActive_spec pitch.val bytes
    exact ⟨_, exec_rollCall h hl hty hcrc hroll hfmt hexp, hst, hlo, hhi, htype.trans (Nat.mod_eq_of_lt (leAt_two_lt ..)), hev⟩
  · intro s pitch bytes anyBad h hl hbad
    exact ⟨_, exec_badBlock h hl hbad, State.fg_inc _ _ (by decide), (onlyRegs.refl _ s).inc (by decide) (List.mem_singleton.2 rfl), (quiet.refl s).inc⟩
  · intro s pitch h
    have hinc : (s.inc (clPage pitch.val) CL_CNT_LINK_TRAIN_FAIL).clState pitch.val ≠ 5 := by
      rw [s.clState_inc pitch.val (by decide), h]; decide
    refine ⟨_, congrArg Host.Outcome.next (if_pos h), State.clTrain_state .., (State.clTrain_fg hinc (by decide)).trans (State.fg_inc _ _ (by decide)), ?_⟩
    exact State.clTrain_only hinc ((onlyPages.refl [clPage pitch.val] s).inc (List.mem_singleton.2 rfl))
  · intro s who pitch hacc h
    exact completes_retrain hacc h

end Sys2Proof.Machine
end

section
set_option Elab.async false

/-! ## The commands that wait (O3)

No function of the machine writes the field `pending`. One `@[simp]` lemma per function says so from any state, in the order of the model, each by
the lemmas of the functions that it calls; the last ones are about the commands themselves. -/

namespace Sys2Proof.Machine

/-- Every next state that the outcome `o` answers has the commands of `s` waiting. -/
def KeepsWaiting (s : State) (o : Out) : Prop := ∀ t, o = .next t → t.pending = s.pending

@[simp] theorem keepsWaiting_next {s t : State} : KeepsWaiting s (.next t) ↔ t.pending = s.pending :=
  ⟨fun h => h t rfl, fun h _ e => by cases e; exact h⟩

@[simp] theorem keepsWaiting_fault {s : State} {f : Fault} : KeepsWaiting s (.fault f) := fun _ e => nomatch e

@[simp] theorem State.ite_pending {c : Prop} [Decidable c] (a b : State) :
    (if c then a else b).pending = if c then a.pending else b.pending := apply_ite _ _ _ _

/-- `op` leaves the commands waiting as they are. -/
def KeepsQueue (op : State → State) : Prop := ∀ t, (op t).pending = t.pending

@[simp] theorem keepsQueue_iff {op : State → State} : KeepsQueue op ↔ ∀ t, (op t).pending = t.pending := ⟨fun h => h, fun h => h⟩

@[simp] theorem State.foldl_pending {α : Type} {f : State → α → State} (hf : ∀ a, KeepsQueue fun t => f t a) (l : List α) (s : State) :
    (l.foldl f s).pending = s.pending := by
  induction l generalizing s with
  | nil => rfl
  | cons a l ih => exact (ih _).trans (hf a s)

theorem keepsWaiting_foldl {α : Type} {f : State → α → State} (hf : ∀ t a, KeepsWaiting t (.next (f t a))) (l : List α) (s : State) :
    KeepsWaiting s (.next (l.foldl f s)) :=
  keepsWaiting_next.2 (State.foldl_pending (fun a t => keepsWaiting_next.1 (hf t a)) l s)

@[simp] theorem State.foldl_fst_pending {α β : Type} {f : State × β → α → State × β} (hf : ∀ a x, KeepsQueue fun t => (f (t, x) a).1)
    (l : List α) (x : State × β) : (l.foldl f x).1.pending = x.1.pending := by
  induction l generalizing x with
  | nil => rfl
  | cons a l ih => exact (ih _).trans (hf a x.2 x.1)

@[simp] theorem ite_fst_pending {α : Type} {c : Prop} [Decidable c] (a b : State × α) :
    (if c then a else b).1.pending = if c then a.1.pending else b.1.pending := by split <;> rfl

/-- The first of two options that holds a state, else `s`, has the commands of `s` waiting where both have. -/
theorem State.orElse_pending {s : State} {x y : Option State} (hx : ∀ u ∈ x, u.pending = s.pending) (hy : ∀ u ∈ y, u.pending = s.pending) :
    ((x <|> y).getD s).pending = s.pending := by
  cases x with
  | some u => exact hx u rfl
  | none => cases y with
    | some u => exact hy u rfl
    | none => rfl

/-- The state in a pair that a match takes apart is the pair's. -/
theorem pending_of_pair {α : Type} {x : State × α} {u : State} {a : α} (e : x = (u, a)) : u.pending = x.1.pending := by rw [e]

@[simp] theorem State.mwr_pending (s : State) (a : Nat) (x2 : List Byte) : (State.mwr s a x2).pending = s.pending := by
  induction x2 generalizing s a with
  | nil => rfl
  | cons b bs ih => exact ih ..
@[simp] theorem State.store_pending (s : State) (a : Nat) (bs : List Byte) : (State.store s a bs).pending = s.pending := by
  simp only [State.store, State.mwr_pending, State.ite_pending, ite_self]
@[simp] theorem State.plain_pending (s : State) (pre : Bool) (p off : Nat) (v0 : Word) : (State.plain s pre p off v0).pending = s.pending := by
  unfold State.plain
  split <;> simp only [State.mirrorCfg_pending, State.raiseIf_pending, State.wr_pending, State.wrSh_pending, State.ite_pending, ite_self]
@[simp] theorem State.wrEvtStatus_pending (s : State) (p : Nat) (v : Word) : (State.wrEvtStatus s p v).pending = s.pending := rfl
@[simp] theorem State.wrEvtEnable_pending (s : State) (p : Nat) (v : Word) : (State.wrEvtEnable s p v).pending = s.pending := by
  simp only [State.wrEvtEnable, State.irqRise_pending, State.wr_pending]
@[simp] theorem State.force_pending (s : State) (p : Nat) (v : Word) : (State.force s p v).pending = s.pending := by
  simp only [State.force, State.raise_pending, State.foldl_pending, keepsQueue_iff, implies_true]
@[simp] theorem State.wrCompat_pending (s : State) (pre : Bool) (p : Nat) (v : Word) : (State.wrCompat s pre p v).pending = s.pending := by
  simp only [State.wrCompat, State.fs_pending, State.raise_pending, State.ite_pending, ite_self]
@[simp] theorem State.commitWrite_pending (s : State) (p : Nat) : (State.commitWrite s p).pending = s.pending := by
  simp only [State.commitWrite, State.fs_pending, State.ite_pending, ite_self]
@[simp] theorem State.endCommit_waiting (s : State) (p result reason off : Nat) : (State.endCommit s p result reason off).pending = s.pending := rfl
@[simp] theorem State.abortWrite_pending (s : State) (p : Nat) : (State.abortWrite s p).pending = s.pending := by simp [State.abortWrite]
@[simp] theorem State.applyShadows_pending (s : State) (p : Nat) : (State.applyShadows s p).pending = s.pending := by
  unfold State.applyShadows
  rw [State.dropShadows_pending]
  exact State.foldl_pending (fun a t => by dsimp only; split <;> simp) _ _
@[simp] theorem State.refuseUnready_pending (s : State) (p : Nat) : (State.refuseUnready s p).pending = s.pending := by
  simp only [State.refuseUnready, State.endCommit_waiting, State.ite_pending, ite_self]
@[simp] theorem State.unready_pending (s : State) (p : Nat) : (State.unready s p).pending = s.pending := by
  simp only [State.unready, State.refuseUnready_pending, State.setState_pending]
@[simp] theorem State.write_pending (s0 : State) (who : Initiator) (p off : Nat) (op : State → State) (hop : KeepsQueue op) : (State.write s0 who p off op).pending = s0.pending := by
  have hq := keepsQueue_iff.1 hop
  simp [State.write, hq]
@[simp] theorem State.read_pending (s0 : State) (who : Initiator) (p off : Nat) (op : State → State × Word) (hop : KeepsQueue fun t => (op t).1) : (State.read s0 who p off op).pending = s0.pending := by
  have hq := keepsQueue_iff.1 hop
  simp [State.read, hq]
@[simp] theorem State.showTable_pending (s : State) : (State.showTable s).pending = s.pending := by
  unfold State.showTable
  split <;> simp only [State.fs_pending]
@[simp] theorem State.wearSpared_pending (s : State) (cause : Nat) : (State.wearSpared s cause).pending = s.pending := by
  simp only [State.wearSpared, State.inc_pending, State.ite_pending, ite_self]
@[simp] theorem State.recordRepair_pending (s0 : State) (r : Repair) : (State.recordRepair s0 r).pending = s0.pending := by
  unfold State.recordRepair
  dsimp only
  (repeat' split) <;> simp only [State.raise_pending, State.showTable_pending, State.store_pending, State.wearSpared_pending]
@[simp] theorem State.noDest_pending (s : State) : (State.noDest s).pending = s.pending := by
  simp only [State.noDest, State.inc_pending, State.raise_pending]
@[simp] theorem State.freed_pending (s : State) (p : LanePort) (c : Cls) (n : Nat) : (State.freed s p c n).pending = s.pending := by
  simp only [State.freed, State.setCr_pending, State.ite_pending, ite_self]
@[simp] theorem State.creditInit_pending (s : State) (p : LanePort) : (State.creditInit s p).pending = s.pending := rfl
@[simp] theorem State.pcnt_pending (s : State) (p off : Nat) : (State.pcnt s p off).pending = s.pending := rfl
@[simp] theorem State.freeCell_pending (s : State) (c : Nat) : (State.freeCell s c).pending = s.pending := rfl
@[simp] theorem State.freeChain_pending (a x1 : Nat) (x2 : State) : (State.freeChain a x1 x2).pending = x2.pending := by
  induction a generalizing x1 x2 with
  | zero => rfl
  | succ n ih => exact (ih ..).trans (by simp)
@[simp] theorem State.partialDelivery_pending (s : State) (c : Nat) : (State.partialDelivery s c).pending = s.pending := by
  simp only [State.partialDelivery, State.inc_pending, State.raise_pending, State.setRec_pending, State.ite_pending, ite_self]
@[simp] theorem State.unref_pending (s : State) (c : Nat) : (State.unref s c).pending = s.pending := by
  simp only [State.unref, State.freeChain_pending, State.setRec_pending, State.ite_pending, ite_self]
@[simp] theorem State.endCopy_pending (s : State) (e : QEnt) : (State.endCopy s e).pending = s.pending := by
  simp only [State.endCopy, State.freeEnt_pending, State.freed_pending, State.unref_pending, State.ite_pending, ite_self]
@[simp] theorem State.dropFlushed_pending (s : State) (e : QEnt) : (State.dropFlushed s e).pending = s.pending := by
  simp only [State.dropFlushed, State.endCopy_pending, State.freeCell_pending, State.freeEnt_pending, State.partialDelivery_pending,
    State.ite_pending, ite_self]
@[simp] theorem State.flushQueue_pending (s : State) (x1 : Nat) : (State.flushQueue s x1).1.pending = s.pending := by
  simp only [State.flushQueue, State.dropFlushed_pending, State.setQue_pending, State.foldl_pending, keepsQueue_iff, implies_true]
@[simp] theorem State.wantDeliv_pending (s : State) (p n : Nat) (x3 : Hdr) (hold : Option Nat) : (State.wantDeliv s p n x3 hold).1.pending = s.pending := by
  unfold State.wantDeliv
  split
  · simp
  · split
    · dsimp only; split <;> simp
    · split <;> simp
@[simp] theorem State.dropLoop_pending (s : State) (p : RingPort) : (State.dropLoop s p).pending = s.pending := rfl
@[simp] theorem State.wants_pending (s : State) (p : Nat) (x : InFrame) : (State.wants s p x).1.pending = s.pending := by
  unfold State.wants
  dsimp only
  (repeat' split) <;> simp only [State.dropLoop_pending, State.noDest_pending, State.pcnt_pending, State.wantDeliv_pending]
@[simp] theorem State.judge_pending (s : State) (p : Nat) (c : Cls) (w : Want) (head : Nat) : (State.judge s p c w head).1.pending = s.pending := by
  unfold State.judge
  dsimp only
  (repeat' split) <;> simp only [State.inc_pending, State.pcnt_pending, State.raise_pending]
@[simp] theorem State.linkEnt_pending (s : State) (x1 : Nat) (e : QEnt) : (State.linkEnt s x1 e).pending = s.pending := rfl
@[simp] theorem State.pushEnt_pending (s : State) (x1 : Nat) (e : QEnt) : (State.pushEnt s x1 e).pending = s.pending := rfl
@[simp] theorem State.admitTwin_pending (s : State) (p : Nat) (c : Cls) (head : Nat) (w : Want) : (State.admitTwin s p c head w).1.pending = s.pending := by
  unfold State.admitTwin
  split
  · split <;> next e => simp [pending_of_pair e]
  · rfl
@[simp] theorem State.admitAll_pending (s : State) (p : Nat) (c : Cls) (head : Nat) (ws : List Want) : (State.admitAll s p c head ws).1.pending = s.pending := by
  unfold State.admitAll
  exact State.foldl_fst_pending (fun w x t => by dsimp only; split <;> next e => simp [pending_of_pair e]) ..
@[simp] theorem State.settleCharge_pending (s : State) (head n : Nat) : (State.settleCharge s head n).pending = s.pending := rfl
@[simp] theorem State.badCopies_pending (s : State) (head : Nat) : (State.badCopies s head).pending = s.pending := by
  simp only [State.badCopies, State.endCopy_pending, State.pcnt_pending, State.setQue_pending, State.foldl_pending, keepsQueue_iff, implies_true,
    State.ite_pending, ite_self]
@[simp] theorem State.setVerdict_pending (s : State) (head : Nat) (good : Bool) : (State.setVerdict s head good).pending = s.pending := by
  simp only [State.setVerdict, State.badCopies_pending, State.setRec_pending, State.ite_pending, ite_self]
@[simp] theorem State.putCell_pending (s : State) (i p x3 : Nat) : (State.putCell s i p x3).pending = s.pending := by
  simp only [State.putCell, State.pcnt_pending, State.setBank_pending, State.setCell_pending, State.setIng_pending, State.setLink_pending,
    State.setRec_pending, State.ite_pending, ite_self]
@[simp] theorem State.putHead_pending (s : State) (i p x3 : Nat) (c : Cls) (ws : List Want) (lost0 fed : Bool) (bytes : List Byte) (cells : Nat) (bad : Bool) : (State.putHead s i p x3 c ws lost0 fed bytes cells bad).pending = s.pending := by
  simp only [State.putHead, State.admitAll_pending, State.freed_pending, State.partialDelivery_pending, State.pcnt_pending, State.putCell_pending,
    State.setIng_pending, State.setRec_pending, State.settleCharge_pending, State.ite_pending, ite_self]
@[simp] theorem State.defer_pending (s : State) (i : Nat) : (State.defer s i).pending = s.pending := rfl
@[simp] theorem State.putNext_pending (s : State) (i p x3 : Nat) : (State.putNext s i p x3).pending = s.pending := by
  simp only [State.putNext, State.pcnt_pending, State.putCell_pending, State.setIng_pending, State.setVerdict_pending, State.settleCharge_pending,
    State.ite_pending, ite_self]
@[simp] theorem State.routeDropped_pending (s : State) : (State.routeDropped s).pending = s.pending := by
  simp only [State.routeDropped, State.inc_pending, State.raise_pending]
@[simp] theorem State.pubNote_pending (s : State) (p : Nat) (f : Frame) : (State.pubNote s p f).pending = s.pending := by
  simp only [State.pubNote, State.setIng_pending, State.ite_pending, ite_self]
@[simp] theorem State.pubSent_pending (s : State) (p : Nat) : (State.pubSent s p).pending = s.pending := by
  unfold State.pubSent
  split <;> simp only [State.wr_pending]
@[simp] theorem State.writeHead_pending (s : State) (p : Nat) (x : InFrame) (rest : List InFrame) : (State.writeHead s p x rest).pending = s.pending := by
  unfold State.writeHead
  split <;> simp only [State.defer_pending, State.endCycle_pending, State.pubNote_pending, State.putHead_pending, State.routeDropped_pending,
    State.wants_pending, State.ite_pending, ite_self]
@[simp] theorem State.writeNext_pending (s : State) (i p : Nat) : (State.writeNext s i p).pending = s.pending := by
  unfold State.writeNext
  split
  · simp
  · split <;> simp
@[simp] theorem State.writeRest_pending (i p a : Nat) (x3 : State) : (State.writeRest i p a x3).pending = x3.pending := by
  induction a generalizing x3 with
  | zero => rfl
  | succ n ih => unfold State.writeRest; split <;> simp [ih]
@[simp] theorem State.headWrite_pending (s : State) (p : Nat) : (State.headWrite s p).pending = s.pending := by
  unfold State.headWrite
  split <;> simp only [State.writeHead_pending, State.ite_pending, ite_self]
@[simp] theorem State.deferredWrite_pending (s : State) (p : Nat) : (State.deferredWrite s p).pending = s.pending := by
  unfold State.deferredWrite
  split
  · rfl
  · split
    · simp
    · split <;> simp
@[simp] theorem State.stopIngress_pending (s : State) (p : Nat) : (State.stopIngress s p).pending = s.pending := by
  simp only [State.stopIngress, State.freed_pending, State.setIng_pending, State.ite_pending, ite_self]
@[simp] theorem State.ingressBad_pending (s : State) (p : Nat) : (State.ingressBad s p).pending = s.pending := by
  simp only [State.ingressBad, State.setIng_pending, State.setVerdict_pending, State.stopIngress_pending, State.ite_pending, ite_self]
@[simp] theorem State.closeArriving_pending (s : State) (p : Nat) : (State.closeArriving s p).pending = s.pending := by
  unfold State.closeArriving
  split <;> simp only [State.ingressBad_pending]
@[simp] theorem State.ingressDown_pending (s : State) (p : Nat) : (State.ingressDown s p).pending = s.pending := by
  simp only [State.ingressDown, State.ingressBad_pending, State.setIng_pending]
@[simp] theorem State.flushPortReset_pending (s : State) (p : Nat) : (State.flushPortReset s p).pending = s.pending := by
  simp only [State.flushPortReset, State.addSat_pending, State.flushQueue_pending, State.ingressDown_pending, State.setEg_pending,
    State.foldl_fst_pending, keepsQueue_iff, implies_true]
@[simp] theorem execCoreCellWrite_waits (p : CorePort) (s : State) : KeepsWaiting s (execCoreCellWrite p s) := by
  simp only [execCoreCellWrite, keepsWaiting_next, State.ingressBad_pending, State.writeNext_pending, State.ite_pending, ite_self]
@[simp] theorem execFrameVerdict_waits (p : CorePort) (good : Bool) (s : State) : KeepsWaiting s (execFrameVerdict p good s) := by
  simp only [execFrameVerdict, keepsWaiting_next, State.stopIngress_pending, State.setVerdict_pending, State.pubSent_pending, State.setIng_pending,
    State.ite_pending, ite_self]
@[simp] theorem State.placeDirect_pending (s : State) (p x2 : Nat) (f : Frame) : (State.placeDirect s p x2 f).pending = s.pending := by
  unfold State.placeDirect
  dsimp only
  (repeat' split) <;> simp only [State.defer_pending, State.endCycle_pending, State.pcnt_pending, State.putHead_pending, State.raise_pending,
    State.setIng_pending, State.setVerdict_pending, State.writeRest_pending]
@[simp] theorem State.startCopy_pending (s : State) (p x2 : Nat) (x3 : Int) : (State.startCopy s p x2 x3).pending = s.pending := by
  unfold State.startCopy
  split <;> simp only [State.setEg_pending]
@[simp] theorem State.uncorrected_pending (s : State) (w c : Nat) : (State.uncorrected s w c).pending = s.pending := by
  simp only [State.uncorrected, State.inc_pending, State.raise_pending, State.wr_pending]
@[simp] theorem State.corrected_pending (s : State) (k : Nat) : (State.corrected s k).pending = s.pending := by
  simp only [State.corrected, State.inc_pending, State.raise_pending]
@[simp] theorem State.eccRead_pending (s : State) (e : Ecc) (head c : Nat) : (State.eccRead s e head c).pending = s.pending := by
  unfold State.eccRead
  split <;> simp only [State.badCopies_pending, State.corrected_pending, State.setRec_pending, State.uncorrected_pending, State.ite_pending, ite_self]
@[simp] theorem State.readCell_pending (s : State) (p : Nat) (g : Eg) (ecc : Ecc) : (State.readCell s p g ecc).pending = s.pending := by
  unfold State.readCell
  split
  · exact State.setEg_pending ..
  · rw [State.ite_pending]
    simp only [State.eccRead_pending, State.ite_pending, State.setCr_pending, State.pcnt_pending, State.setEg_pending, ite_self]
@[simp] theorem execCoreCellRead_waits (p : CorePort) (ecc : Ecc) (s : State) : KeepsWaiting s (execCoreCellRead p ecc s) := by
  unfold execCoreCellRead
  dsimp only
  (repeat' split) <;> simp only [keepsWaiting_next, State.readCell_pending, State.startCopy_pending]
@[simp] theorem State.popCopy_pending (s : State) (p : Nat) (g : Eg) : (State.popCopy s p g).pending = s.pending := by
  unfold State.popCopy
  split <;> simp only [State.endCopy_pending, State.setEg_pending, State.setQue_pending]
@[simp] theorem State.finishCopy_pending (s : State) (p : Nat) (g : Eg) : (State.finishCopy s p g).pending = s.pending := by
  simp only [State.finishCopy, State.inc_pending, State.pcnt_pending, State.popCopy_pending, State.setInbox_pending, State.setPort_pending,
    State.ite_pending, ite_self]
@[simp] theorem execCopyEnd_waits (p : CorePort) (s : State) : KeepsWaiting s (execCopyEnd p s) := by
  unfold execCopyEnd
  split <;> simp only [keepsWaiting_next, State.popCopy_pending, State.inc_pending, State.finishCopy_pending, State.ite_pending, ite_self]
@[simp] theorem State.refuseSpare_pending (s : State) (x1 : Nat) : (State.refuseSpare s x1).pending = s.pending := by
  simp only [State.refuseSpare, State.fs_pending, State.raise_pending]
@[simp] theorem State.requestSpare_pending (s : State) (x1 cause : Nat) : (State.requestSpare s x1 cause).pending = s.pending := by
  simp only [State.requestSpare, State.fs_pending, State.refuseSpare_pending, State.ite_pending, ite_self]
@[simp] theorem execBankEccThreshold_waits (bank : Fin 17) (s : State) : KeepsWaiting s (execBankEccThreshold bank s) := by
  simp only [execBankEccThreshold, keepsWaiting_next, State.requestSpare_pending, State.ite_pending, ite_self]
@[simp] theorem State.coreSpareCmd_pending (s : State) (v : Word) : (State.coreSpareCmd s v).pending = s.pending := by
  simp only [State.coreSpareCmd, State.requestSpare_pending, State.ite_pending, ite_self]
@[simp] theorem execBankRowCopy_waits (ecc : Ecc) (s : State) : KeepsWaiting s (execBankRowCopy ecc s) := by
  unfold execBankRowCopy
  dsimp only
  (repeat' split) <;> simp only [keepsWaiting_next, State.fs_pending, State.eccRead_pending]
@[simp] theorem execBankReplaceDone_waits (s : State) : KeepsWaiting s (execBankReplaceDone s) := by
  simp only [execBankReplaceDone, keepsWaiting_next, State.wr_pending, State.fs_pending, State.setState_pending, State.raise_pending,
    State.recordRepair_pending, State.ite_pending, ite_self]
@[simp] theorem State.coreClrCnt_pending (s : State) : (State.coreClrCnt s).pending = s.pending := by
  simp only [State.coreClrCnt, State.wr_pending, State.foldl_pending, keepsQueue_iff, implies_true]
@[simp] theorem State.setRole_pending (s : State) (r : Nat) : (State.setRole s r).pending = s.pending := by
  simp only [State.setRole, State.fs_pending, State.raise_pending, State.ite_pending, ite_self]
@[simp] theorem State.claim_pending (s : State) : (State.claim s).pending = s.pending := by
  simp only [State.claim, State.fs_pending, State.raiseIf_pending, State.setRole_pending]
@[simp] theorem State.twinStart_pending (s : State) : (State.twinStart s).pending = s.pending := by
  simp only [State.twinStart, State.setRole_pending, State.ite_pending, ite_self]
@[simp] theorem State.twinWatch_pending (s : State) : (State.twinWatch s).pending = s.pending := by
  simp only [State.twinWatch, State.claim_pending, State.raise_pending, State.ite_pending, ite_self]
@[simp] theorem State.setRate_pending (s : State) (k : Nat) (r : Int) : (State.setRate s k r).pending = s.pending := rfl
@[simp] theorem State.absorb_pending (s : State) (f : State → State) (hf : KeepsQueue f) : (State.absorb s f).pending = s.pending := by
  have hq := keepsQueue_iff.1 hf
  simp [State.absorb, hq]
@[simp] theorem State.stepOff_pending (s : State) (k : Nat) (d : Int) : (State.stepOff s k d).pending = s.pending := by
  simp only [State.stepOff, State.absorb_pending, State.setDom_pending, keepsQueue_iff, implies_true, State.ite_pending, ite_self]
@[simp] theorem State.select_pending (s : State) (k : Nat) : (State.select s k).pending = s.pending := by
  simp only [State.select, State.absorb_pending, State.fs_pending, State.raise_pending, keepsQueue_iff, implies_true]
@[simp] theorem State.tmStart_pending (s : State) : (State.tmStart s).pending = s.pending := rfl
@[simp] theorem State.tmReset_pending (s : State) : (State.tmReset s).pending = s.pending := rfl
@[simp] theorem State.setDstate_pending (s : State) (k v : Nat) : (State.setDstate s k v).pending = s.pending := by
  simp only [State.setDstate, State.fs_pending, State.raise_pending, State.ite_pending, ite_self]
@[simp] theorem execStAutoSwitch_waits (s : State) : KeepsWaiting s (execStAutoSwitch s) := by
  simp only [execStAutoSwitch, keepsWaiting_next, State.select_pending, State.ite_pending, ite_self]
@[simp] theorem execSlewDone_waits (s : State) : KeepsWaiting s (execSlewDone s) := by
  simp only [execSlewDone, keepsWaiting_next, State.raise_pending, State.ite_pending, ite_self]
@[simp] theorem State.tmJump_pending (s : State) : (State.tmJump s).pending = s.pending := by
  simp only [State.tmJump, State.raise_pending, State.ite_pending, ite_self]
@[simp] theorem State.tmClrCnt_pending (s : State) : (State.tmClrCnt s).pending = s.pending := rfl
@[simp] theorem State.snapAt_pending (s : State) (off v era : Nat) : (State.snapAt s off v era).pending = s.pending := rfl
@[simp] theorem State.tmSnap_pending (s : State) : (State.tmSnap s).pending = s.pending := rfl
@[simp] theorem State.tmCtrlWrite_pending (s : State) (v : Word) : (State.tmCtrlWrite s v).pending = s.pending := by
  simp only [State.tmCtrlWrite, State.tmClrCnt_pending, State.tmJump_pending, State.tmSnap_pending, State.ite_pending, ite_self]
@[simp] theorem execTmJump_waits (who : Initiator) (s : State) : KeepsWaiting s (execTmJump who s) := by
  simp only [execTmJump, keepsWaiting_next, State.write_pending, State.tmJump_pending, keepsQueue_iff, implies_true]
@[simp] theorem execTmSnap_waits (who : Initiator) (s : State) : KeepsWaiting s (execTmSnap who s) := by
  simp only [execTmSnap, keepsWaiting_next, State.write_pending, State.tmSnap_pending, keepsQueue_iff, implies_true]
@[simp] theorem execTmClrCnt_waits (who : Initiator) (s : State) : KeepsWaiting s (execTmClrCnt who s) := by
  simp only [execTmClrCnt, keepsWaiting_next, State.write_pending, State.tmClrCnt_pending, keepsQueue_iff, implies_true]
@[simp] theorem State.smpReject_pending (s : State) (k : Nat) : (State.smpReject s k).pending = s.pending := by
  simp only [State.smpReject, State.inc_pending, State.raise_pending]
@[simp] theorem State.lockCount_pending (s : State) (k : Nat) (e : Int) : (State.lockCount s k e).pending = s.pending := by
  simp only [State.lockCount, State.setDom_pending, State.setDstate_pending, State.ite_pending, ite_self]
@[simp] theorem State.servoRate_pending (s : State) (k : Nat) (e x : Int) : (State.servoRate s k e x).pending = s.pending := by
  unfold State.servoRate
  split <;> simp only [State.setRate_pending, State.tookFree_pending, State.ite_pending, ite_self]
@[simp] theorem State.servo_pending (s : State) (k m era : Nat) (x : Int) : (State.servo s k m era x).pending = s.pending := by
  simp only [State.servo, State.fs_pending, State.lockCount_pending, State.raise_pending, State.servoRate_pending, State.setDom_pending,
    State.setDstate_pending, State.stepOff_pending, State.ite_pending, ite_self]
@[simp] theorem State.smpUse_pending (s : State) (x : Sample) (kind : Nat) : (State.smpUse s x kind).pending = s.pending := by
  simp only [State.smpUse, State.fs_pending, State.inc_pending, State.servo_pending, State.setDom_pending, State.ite_pending, ite_self]
@[simp] theorem State.smpReturn_pending (s : State) (k : Nat) : (State.smpReturn s k).pending = s.pending := by
  simp only [State.smpReturn, State.setDom_pending, State.setDstate_pending, State.ite_pending, ite_self]
@[simp] theorem State.smpJudge_pending (s : State) (x : Sample) : (State.smpJudge s x).pending = s.pending := by
  simp only [State.smpJudge, State.setDom_pending, State.smpReject_pending, State.smpReturn_pending, State.smpUse_pending, State.ite_pending,
    ite_self]
@[simp] theorem State.smpWrite_pending (s : State) (v : Word) : (State.smpWrite s v).pending = s.pending := by
  simp only [State.smpWrite, State.smpJudge_pending, State.ite_pending, ite_self]
@[simp] theorem execSampleSubmit_waits (who : Initiator) (v : Word) (s : State) : KeepsWaiting s (execSampleSubmit who v s) := by
  simp only [execSampleSubmit, keepsWaiting_next, State.write_pending, State.smpWrite_pending, keepsQueue_iff, implies_true]
@[simp] theorem execDomainTimeout_waits (dom : Fin 2) (s : State) : KeepsWaiting s (execDomainTimeout dom s) := by
  simp only [execDomainTimeout, keepsWaiting_next, State.setDom_pending, State.setDstate_pending, State.raise_pending, State.ite_pending, ite_self]
@[simp] theorem State.domBegin_pending (s : State) (k : Nat) : (State.domBegin s k).pending = s.pending := by
  simp only [State.domBegin, State.fs_pending, State.setDom_pending, State.setDstate_pending]
@[simp] theorem State.tmCompat_pending (s : State) (pre : Bool) (v : Word) : (State.tmCompat s pre v).pending = s.pending := by
  simp only [State.tmCompat, State.domBegin_pending, State.wrCompat_pending, State.ite_pending, ite_self]
@[simp] theorem State.domCommitted_pending (before s : State) (k : Nat) : (State.domCommitted before s k).pending = s.pending := by
  simp only [State.domCommitted, State.domBegin_pending, State.fs_pending, State.setDom_pending, State.setRate_pending, State.stepOff_pending,
    State.ite_pending, ite_self]
@[simp] theorem State.tmCommitted_pending (s before : State) : (State.tmCommitted s before).pending = s.pending := by
  simp only [State.tmCommitted, State.domCommitted_pending, State.select_pending, State.ite_pending, ite_self]
@[simp] theorem execSyncOriginate_waits (dom : Fin 2) (s : State) : KeepsWaiting s (execSyncOriginate dom s) := by
  simp only [execSyncOriginate, keepsWaiting_next, State.tmSnap_pending, State.setDom_pending, State.originate_pending, State.ite_pending, ite_self]
@[simp] theorem execPdRequestSend_waits (port : RingPort) (sub : Fin 26) (s : State) : KeepsWaiting s (execPdRequestSend port sub s) := by
  simp only [execPdRequestSend, keepsWaiting_next, State.setPort_pending, State.ite_pending, ite_self]
@[simp] theorem execPdReqReceived_waits (port : RingPort) (bytes : List Byte) (turn : BitVec 32) (s : State) : KeepsWaiting s (execPdReqReceived port bytes turn s) := by
  simp only [execPdReqReceived, keepsWaiting_next, State.setPort_pending, State.ite_pending, ite_self]
@[simp] theorem State.pdSample_pending (s : State) (p : RingPort) (v : Int) : (State.pdSample s p v).pending = s.pending := by
  simp only [State.pdSample, State.fs_pending, State.inc_pending, State.raise_pending, State.raiseIf_pending, State.setPort_pending,
    State.ite_pending, ite_self]
@[simp] theorem execPdRespReceived_waits (port : RingPort) (bytes : List Byte) (sub : Fin 26) (s : State) : KeepsWaiting s (execPdRespReceived port bytes sub s) := by
  unfold execPdRespReceived
  split <;> simp only [keepsWaiting_next, State.setPort_pending, State.pdSample_pending, State.ite_pending, ite_self]
@[simp] theorem State.enCnt_pending (s : State) (g i : Nat) : (State.enCnt s g i).pending = s.pending := by
  simp only [State.enCnt, State.inc_pending, State.raise_pending, State.ite_pending, ite_self]
@[simp] theorem State.place_pending (s : State) (n c : Nat) (u : Int) (level en : Bool) : (State.place s n c u level en).pending = s.pending := rfl
@[simp] theorem State.recSend_pending (s : State) (n c : Nat) (x3 : RecBuf) : (State.recSend s n c x3).pending = s.pending := rfl
@[simp] theorem State.recClose_pending (s : State) (n c flags : Nat) : (State.recClose s n c flags).pending = s.pending := by
  unfold State.recClose
  split <;> simp only [State.raise_pending, State.recSend_pending, State.setChan_pending, State.ite_pending, ite_self]
@[simp] theorem State.sendHeld_pending (s : State) (n c : Nat) : (State.sendHeld s n c).pending = s.pending := by
  simp only [State.sendHeld, State.recSend_pending, State.setChan_pending, State.foldl_pending, keepsQueue_iff, implies_true]
@[simp] theorem State.recAdd_pending (s : State) (n c rtype flags : Nat) (u : Int) (item : List Byte) : (State.recAdd s n c rtype flags u item).pending = s.pending :=
  rfl
@[simp] theorem State.recBatch_pending (s : State) (n c rtype : Nat) (u : Int) (item : List Byte) : (State.recBatch s n c rtype u item).pending = s.pending := by
  simp only [State.recBatch, State.recAdd_pending, State.recClose_pending, State.ite_pending, ite_self]
@[simp] theorem execRecordFlushTimeout_waits (pitch : Pitch) (chan : Fin 8) (s : State) : KeepsWaiting s (execRecordFlushTimeout pitch chan s) := by
  simp only [execRecordFlushTimeout, keepsWaiting_next, State.recClose_pending, State.ite_pending, ite_self]
@[simp] theorem State.fifoPop_pending (s : State) (n c : Nat) : (State.fifoPop s n c).pending = s.pending := by
  simp only [State.fifoPop, State.raiseIf_pending, State.setChan_pending]
@[simp] theorem State.txDrop_pending (s : State) (n : Nat) : (State.txDrop s n).pending = s.pending := by
  simp only [State.txDrop, State.inc_pending, State.raise_pending]
@[simp] theorem State.startOut_pending (s : State) (n c : Nat) : (State.startOut s n c).pending = s.pending := by
  unfold State.startOut
  dsimp only
  (repeat' split) <;> simp only [State.place_pending]
@[simp] theorem State.reIdle_pending (s x1 : State) (n c : Nat) : (State.reIdle s x1 n c).pending = s.pending := by
  unfold State.reIdle
  dsimp only
  (repeat' split) <;> simp only [State.place_pending, State.setChan_pending]
@[simp] theorem State.stopOut_pending (s : State) (n c : Nat) : (State.stopOut s n c).pending = s.pending := by
  unfold State.stopOut
  dsimp only
  (repeat' split) <;> simp only [State.place_pending, State.setChan_pending]
@[simp] theorem State.enClrCnt_pending (s : State) (g : Nat) : (State.enClrCnt s g).pending = s.pending := by
  simp only [State.enClrCnt, State.wr_pending, State.foldl_pending, keepsQueue_iff, implies_true, State.ite_pending, ite_self]
@[simp] theorem State.restartRegs_pending (s : State) (g : Nat) : (State.restartRegs s g).pending = s.pending := by
  simp only [State.restartRegs, State.enClrCnt_pending, State.fs_pending, State.wr_pending, State.ite_pending, ite_self]
@[simp] theorem State.restartChan_pending (n : Nat) (s : State) (c : Nat) : (State.restartChan n s c).pending = s.pending := by
  simp only [State.restartChan, State.restartRegs_pending, State.setChan_pending]
@[simp] theorem State.restartOut_pending (n : Nat) (s : State) (c : Nat) : (State.restartOut n s c).pending = s.pending := by
  simp only [State.restartOut, State.startOut_pending, State.ite_pending, ite_self]
@[simp] theorem State.restartCluster_pending (s : State) (n : Nat) : (State.restartCluster s n).pending = s.pending := by
  simp only [State.restartCluster, State.raise_pending, State.restartChan_pending, State.restartOut_pending, State.foldl_pending, keepsQueue_iff,
    implies_true]
@[simp] theorem State.loadModeRegs_pending (s : State) (g m : Nat) : (State.loadModeRegs s g m).pending = s.pending := rfl
@[simp] theorem State.enModeWrite_pending (s : State) (pre : Bool) (g : Nat) (v : Word) : (State.enModeWrite s pre g v).pending = s.pending := by
  unfold State.enModeWrite
  dsimp only
  (repeat' split) <;> simp only [State.enClrCnt_pending, State.fs_pending, State.loadModeRegs_pending, State.mirrorCfg_pending, State.raise_pending,
    State.setChan_pending]
@[simp] theorem execEnModeWrite_waits (who : Initiator) (engine : Engine) (v : Word) (s : State) : KeepsWaiting s (execEnModeWrite who engine v s) := by
  simp only [execEnModeWrite, keepsWaiting_next, State.write_pending, State.enModeWrite_pending, keepsQueue_iff, implies_true]
@[simp] theorem execEnClrCnt_waits (who : Initiator) (engine : Engine) (s : State) : KeepsWaiting s (execEnClrCnt who engine s) := by
  simp only [execEnClrCnt, keepsWaiting_next, State.write_pending, State.enClrCnt_pending, keepsQueue_iff, implies_true]
@[simp] theorem State.ecClrCnt_pending (s : State) (n : Nat) : (State.ecClrCnt s n).pending = s.pending := rfl
@[simp] theorem execEcClrCnt_waits (who : Initiator) (cluster : Pitch) (s : State) : KeepsWaiting s (execEcClrCnt who cluster s) := by
  simp only [execEcClrCnt, keepsWaiting_next, State.write_pending, State.ecClrCnt_pending, keepsQueue_iff, implies_true]
@[simp] theorem State.migRefuse_pending (s : State) (n c : Nat) : (State.migRefuse s n c).pending = s.pending := by
  simp only [State.migRefuse, State.fs_pending, State.raise_pending]
@[simp] theorem State.copyPage_pending (s : State) (src dst : Nat) : (State.copyPage s src dst).pending = s.pending := by
  simp only [State.copyPage, State.dropRegs_pending, State.wr_pending, State.wrSh_pending, State.foldl_pending, keepsQueue_iff, implies_true]
@[simp] theorem State.migRequest_pending (s : State) (n c : Nat) (urgent : Bool) (cause : Nat) : (State.migRequest s n c urgent cause).pending = s.pending := by
  simp only [State.migRequest, State.copyPage_pending, State.fs_pending, State.migRefuse_pending, State.setChan_pending, State.ite_pending, ite_self]
@[simp] theorem State.ecMigWrite_pending (s : State) (n : Nat) (v : Word) : (State.ecMigWrite s n v).pending = s.pending := by
  simp only [State.ecMigWrite, State.migRequest_pending, State.ite_pending, ite_self]
@[simp] theorem execEcMigCmd_waits (who : Initiator) (cluster : Pitch) (v : Word) (s : State) : KeepsWaiting s (execEcMigCmd who cluster v s) := by
  simp only [execEcMigCmd, keepsWaiting_next, State.write_pending, State.ecMigWrite_pending, keepsQueue_iff, implies_true]
@[simp] theorem execEcMigUrgent_waits (who : Initiator) (cluster : Pitch) (v : Word) (s : State) : KeepsWaiting s (execEcMigUrgent who cluster v s) := by
  simp only [execEcMigUrgent, keepsWaiting_next, State.write_pending, State.ecMigWrite_pending, keepsQueue_iff, implies_true]
@[simp] theorem execMigrationTimeout_waits (cluster : Pitch) (s : State) : KeepsWaiting s (execMigrationTimeout cluster s) := by
  unfold execMigrationTimeout
  split <;> simp only [keepsWaiting_next, State.fs_pending, State.setChan_pending, State.raise_pending]
@[simp] theorem State.migSwitch_pending (s : State) (n c : Nat) (urgent : Bool) (cause : Nat) : (State.migSwitch s n c urgent cause).pending = s.pending := by
  simp only [State.migSwitch, State.copyPage_pending, State.fs_pending, State.inc_pending, State.raise_pending, State.recordRepair_pending,
    State.restartOut_pending, State.restartRegs_pending, State.setChan_pending, State.setState_pending, State.wr_pending, State.ite_pending, ite_self]
@[simp] theorem State.asAdd_pending (s : State) (n c : Nat) (u : Int) (item : List Byte) (max : Nat) : (State.asAdd s n c u item max).pending = s.pending := by
  simp only [State.asAdd, State.recAdd_pending, State.recClose_pending, State.setChan_pending, State.ite_pending, ite_self]
@[simp] theorem State.asFrame_pending (s : State) (n c : Nat) (u : Int) (data : Nat) (item : List Byte) : (State.asFrame s n c u data item).pending = s.pending := by
  simp only [State.asFrame, State.asAdd_pending, State.recClose_pending, State.setChan_pending, State.ite_pending, ite_self]
@[simp] theorem State.asEnd_pending (s : State) (n c : Nat) (x : AsyncRx) (stop : Bool) (u : Int) : (State.asEnd s n c x stop u).pending = s.pending := by
  simp only [State.asEnd, State.asFrame_pending, State.enCnt_pending, State.setChan_pending, State.ite_pending, ite_self]
@[simp] theorem State.asJudge_pending (s : State) (n c : Nat) (x : AsyncRx) (lvl unsure : Bool) (u : Int) : (State.asJudge s n c x lvl unsure u).pending = s.pending := by
  simp only [State.asJudge, State.asEnd_pending, State.enCnt_pending, State.setChan_pending, State.ite_pending, ite_self]
@[simp] theorem State.asStart_pending (s : State) (n c : Nat) (r : Rep) : (State.asStart s n c r).pending = s.pending := by
  simp only [State.asStart, State.setChan_pending, State.ite_pending, ite_self]
@[simp] theorem State.asReport_pending (s : State) (n c : Nat) (r : Rep) : (State.asReport s n c r).pending = s.pending := by
  unfold State.asReport
  dsimp only
  (repeat' split) <;> simp only [State.asJudge_pending, State.asStart_pending, State.setChan_pending]
@[simp] theorem State.asGap_pending (s : State) (n c : Nat) (fin : Int) : (State.asGap s n c fin).pending = s.pending := by
  simp only [State.asGap, State.enCnt_pending, State.recClose_pending, State.setChan_pending, State.ite_pending, ite_self]
@[simp] theorem execAsyncIdleGap_waits (pitch : Pitch) (chan : Channel) (s : State) : KeepsWaiting s (execAsyncIdleGap pitch chan s) := by
  simp only [execAsyncIdleGap, keepsWaiting_next, State.recClose_pending, State.setChan_pending, State.ite_pending, ite_self]
@[simp] theorem execAsyncTxStart_waits (pitch : Pitch) (chan : Channel) (s : State) : KeepsWaiting s (execAsyncTxStart pitch chan s) := by
  unfold execAsyncTxStart
  dsimp only
  (repeat' split) <;> simp only [keepsWaiting_next, State.fifoPop_pending, State.setChan_pending]
@[simp] theorem execAsyncDeLagExpire_waits (pitch : Pitch) (chan : Channel) (s : State) : KeepsWaiting s (execAsyncDeLagExpire pitch chan s) := by
  simp only [execAsyncDeLagExpire, keepsWaiting_next, State.setChan_pending, State.ite_pending, ite_self]
@[simp] theorem State.copyRead_pending (s : State) (ck : Nat) : (State.copyRead s ck).pending = s.pending := by
  simp only [State.copyRead, State.fault_pending, State.inc_pending, State.raise_pending, State.raiseBit_pending, State.wr_pending,
    State.ite_pending, ite_self]
@[simp] theorem State.grpPut_pending (s : State) (k : Nat) (mask v : BitVec 96) : (State.grpPut s k mask v).pending = s.pending := by
  simp only [State.grpPut, State.errClear_pending, State.mirror_pending, State.ite_pending, ite_self]
@[simp] theorem State.grainPut_pending (s : State) (img : Image) (g x : Nat) : (State.grainPut s img g x).pending = s.pending := by
  simp only [State.grainPut, State.grpPut_pending]
@[simp] theorem State.softPut_pending (s : State) (img : Image) (m : Nat) (mask v : BitVec 96) : (State.softPut s img m mask v).pending = s.pending := by
  simp only [State.softPut, State.grpPut_pending, State.ite_pending, ite_self]
@[simp] theorem State.syStart_pending (s : State) (n c : Nat) (t0 : Int) : (State.syStart s n c t0).pending = s.pending := by
  simp only [State.syStart, State.enCnt_pending, State.setChan_pending, State.ite_pending, ite_self]
@[simp] theorem State.syCmdWrite_pending (s : State) (g : Nat) (v : Word) : (State.syCmdWrite s g v).pending = s.pending := by
  unfold State.syCmdWrite
  split <;> simp only [State.syStart_pending, State.ite_pending, ite_self]
@[simp] theorem execSyCmdGo_waits (who : Initiator) (engine : Engine) (s : State) : KeepsWaiting s (execSyCmdGo who engine s) := by
  simp only [execSyCmdGo, keepsWaiting_next, State.write_pending, State.syCmdWrite_pending, keepsQueue_iff, implies_true, State.ite_pending, ite_self]
@[simp] theorem execSyncTrigger_waits (pitch : Pitch) (chan : Channel) (s : State) : KeepsWaiting s (execSyncTrigger pitch chan s) := by
  simp only [execSyncTrigger, keepsWaiting_next, State.syStart_pending, State.ite_pending, ite_self]
@[simp] theorem State.syReport_pending (s : State) (n c : Nat) (r : Rep) : (State.syReport s n c r).pending = s.pending := by
  unfold State.syReport
  dsimp only
  (repeat' split) <;> simp only [State.setChan_pending]
@[simp] theorem State.syNote_pending (s : State) (n c : Nat) (t0 : Int) (v : Nat) : (State.syNote s n c t0 v).pending = s.pending := rfl
@[simp] theorem execSyncTransferEnd_waits (pitch : Pitch) (chan : Channel) (s : State) : KeepsWaiting s (execSyncTransferEnd pitch chan s) := by
  unfold execSyncTransferEnd
  dsimp only
  (repeat' split) <;> simp only [keepsWaiting_next, State.setChan_pending, State.enCnt_pending, State.wr_pending, State.syNote_pending,
    State.recBatch_pending]
@[simp] theorem State.syCut_pending (s : State) (n c : Nat) : (State.syCut s n c).pending = s.pending := by
  unfold State.syCut
  dsimp only
  (repeat' split) <;> simp only [State.enCnt_pending, State.fs_pending, State.setChan_pending]
@[simp] theorem State.syGap_pending (s : State) (n c : Nat) (base : Int) : (State.syGap s n c base).pending = s.pending := by
  unfold State.syGap
  dsimp only
  (repeat' split) <;> simp only [State.syCut_pending]
@[simp] theorem State.diRecord_pending (s : State) (n c : Nat) (u : Int) (level glitch gap : Bool) : (State.diRecord s n c u level glitch gap).pending = s.pending := by
  simp only [State.diRecord, State.recBatch_pending, State.ite_pending, ite_self]
@[simp] theorem State.diNote_pending (s : State) (n c : Nat) (u : Int) : (State.diNote s n c u).pending = s.pending := rfl
@[simp] theorem State.diCapture_pending (s : State) (n c : Nat) (u : Int) (level glitch : Bool) : (State.diCapture s n c u level glitch).pending = s.pending := by
  unfold State.diCapture
  dsimp only
  (repeat' split) <;> simp only [State.setChan_pending, State.wr_pending]
@[simp] theorem State.diAccept_pending (s : State) (n c : Nat) (u i : Int) (level glitch : Bool) : (State.diAccept s n c u i level glitch).pending = s.pending := by
  simp only [State.diAccept, State.addWrap_pending, State.diCapture_pending, State.diNote_pending, State.diRecord_pending, State.setChan_pending,
    State.ite_pending, ite_self]
@[simp] theorem State.diMature_pending (s : State) (n c : Nat) (u : Int) : (State.diMature s n c u).pending = s.pending := by
  unfold State.diMature
  split <;> simp only [State.diAccept_pending, State.ite_pending, ite_self]
@[simp] theorem State.diEdge_pending (s : State) (n c : Nat) (u : Int) (level : Bool) : (State.diEdge s n c u level).pending = s.pending := by
  simp only [State.diEdge, State.diAccept_pending, State.enCnt_pending, State.setChan_pending, State.ite_pending, ite_self]
@[simp] theorem State.diGlitch_pending (s : State) (n c : Nat) (u : Int) (level : Bool) : (State.diGlitch s n c u level).pending = s.pending := by
  simp only [State.diGlitch, State.diAccept_pending, State.enCnt_pending, State.setChan_pending, State.ite_pending, ite_self]
@[simp] theorem State.diAfterGap_pending (s : State) (n c : Nat) (u : Int) (level : Bool) : (State.diAfterGap s n c u level).pending = s.pending := by
  simp only [State.diAfterGap, State.diNote_pending, State.diRecord_pending, State.enCnt_pending, State.fs_pending, State.setChan_pending,
    State.ite_pending, ite_self]
@[simp] theorem State.diReport_pending (s : State) (n c : Nat) (r : Rep) : (State.diReport s n c r).pending = s.pending := by
  simp only [State.diReport, State.diAfterGap_pending, State.diEdge_pending, State.diGlitch_pending, State.diMature_pending, State.setChan_pending,
    State.ite_pending, ite_self]
@[simp] theorem State.diGap_pending (s : State) (n c : Nat) : (State.diGap s n c).pending = s.pending := rfl
@[simp] theorem State.diStart_pending (s : State) (n c : Nat) : (State.diStart s n c).pending = s.pending := rfl
@[simp] theorem State.diTurn_pending (s : State) (n c : Nat) : (State.diTurn s n c).pending = s.pending := rfl
@[simp] theorem execDiscDebounceAccept_waits (pitch : Pitch) (chan : Channel) (s : State) : KeepsWaiting s (execDiscDebounceAccept pitch chan s) := by
  simp only [execDiscDebounceAccept, keepsWaiting_next, State.diMature_pending, State.ite_pending, ite_self]
@[simp] theorem State.diCountTake_pending (s : State) (g : Nat) : (State.diCountTake s g).1.pending = s.pending := by
  unfold State.diCountTake
  dsimp only
  (repeat' split) <;> simp only [State.diNote_pending, State.fs_pending, State.wr_pending]
@[simp] theorem execEnDiCountTake_waits (who : Initiator) (engine : Engine) (s : State) : KeepsWaiting s (execEnDiCountTake who engine s) := by
  simp only [execEnDiCountTake, keepsWaiting_next, State.read_pending, State.diCountTake_pending, keepsQueue_iff, implies_true]
@[simp] theorem State.diOut_pending (s : State) (pre : Bool) (g : Nat) (v : Word) : (State.diOut s pre g v).pending = s.pending := by
  unfold State.diOut
  dsimp only
  (repeat' split) <;> simp only [State.place_pending, State.plain_pending]
@[simp] theorem execDiOutWrite_waits (who : Initiator) (engine : Engine) (v : Word) (s : State) : KeepsWaiting s (execDiOutWrite who engine v s) := by
  simp only [execDiOutWrite, keepsWaiting_next, State.write_pending, State.diOut_pending, keepsQueue_iff, implies_true]
@[simp] theorem State.pwmPeriod_pending (s : State) (n c : Nat) : (State.pwmPeriod s n c).pending = s.pending := rfl
@[simp] theorem execPwmPeriodStart_waits (pitch : Pitch) (chan : Channel) (s : State) : KeepsWaiting s (execPwmPeriodStart pitch chan s) := by
  simp only [execPwmPeriodStart, keepsWaiting_next, State.pwmPeriod_pending, State.ite_pending, ite_self]
@[simp] theorem State.schedLate_pending (s : State) (n c : Nat) : (State.schedLate s n c).pending = s.pending := by
  simp only [State.schedLate, State.enCnt_pending, State.fifoPop_pending, State.raise_pending]
@[simp] theorem State.dueLost_pending (s : State) (n c : Nat) : (State.dueLost s n c).pending = s.pending := by
  simp only [State.dueLost, State.enCnt_pending, State.raise_pending, State.setChan_pending, State.foldl_pending, keepsQueue_iff, implies_true,
    State.ite_pending, ite_self]
@[simp] theorem execDiscSchedItem_waits (pitch : Pitch) (chan : Channel) (s : State) : KeepsWaiting s (execDiscSchedItem pitch chan s) := by
  unfold execDiscSchedItem
  dsimp only
  (repeat' split) <;> simp only [keepsWaiting_next, State.schedLate_pending, State.fifoPop_pending, State.enCnt_pending, State.setChan_pending]
@[simp] theorem State.setPb_pending (s : State) (n c : Nat) (p : Pb) : (State.setPb s n c p).pending = s.pending := rfl
@[simp] theorem State.pbDrive_pending (s : State) (n c : Nat) (u : Int) (out : Bool) : (State.pbDrive s n c u out).pending = s.pending := by
  simp only [State.pbDrive, State.place_pending, State.setPb_pending, State.ite_pending, ite_self]
@[simp] theorem State.pbForce_pending (s : State) (n c : Nat) (u : Int) (out : Bool) : (State.pbForce s n c u out).pending = s.pending := rfl
@[simp] theorem State.pbActive_pending (s : State) (g : Nat) : (State.pbActive s g).pending = s.pending := by
  simp only [State.pbActive, State.fs_pending, State.raiseIf_pending, State.ite_pending, ite_self]
@[simp] theorem State.pbCounters_pending (s : State) (n c tec rc : Nat) : (State.pbCounters s n c tec rc).pending = s.pending := by
  simp only [State.pbCounters, State.fs_pending, State.pbActive_pending, State.raise_pending, State.setChan_pending, State.ite_pending, ite_self]
@[simp] theorem State.pbMore_pending (s : State) (n c : Nat) (tx : Bool) (d : Nat) : (State.pbMore s n c tx d).pending = s.pending := by
  simp only [State.pbMore, State.pbCounters_pending, State.ite_pending, ite_self]
@[simp] theorem State.pbLess_pending (s : State) (n c : Nat) (tx : Bool) : (State.pbLess s n c tx).pending = s.pending := by
  simp only [State.pbLess, State.pbCounters_pending, State.tookFree_pending, State.ite_pending, ite_self]
@[simp] theorem State.pbRecessive_pending (s : State) (n c : Nat) : (State.pbRecessive s n c).pending = s.pending := by
  simp only [State.pbRecessive, State.fs_pending, State.pbActive_pending, State.setChan_pending, State.ite_pending, ite_self]
@[simp] theorem State.pbTurn_pending (s : State) (n c : Nat) : (State.pbTurn s n c).pending = s.pending := by
  simp only [State.pbTurn, State.fs_pending, State.raise_pending, State.setChan_pending, State.setPb_pending, State.ite_pending, ite_self]
@[simp] theorem State.pbEnd_pending (s : State) (n c result : Nat) (sof : Option Int) : (State.pbEnd s n c result sof).pending = s.pending := by
  unfold State.pbEnd
  dsimp only
  (repeat' split) <;> simp only [State.enCnt_pending, State.fifoPop_pending, State.recBatch_pending, State.setChan_pending]
@[simp] theorem State.pbInvalidHeads_pending (s : State) (n c a : Nat) : (State.pbInvalidHeads s n c a).pending = s.pending := by
  induction a generalizing s with
  | zero => rfl
  | succ k ih => unfold State.pbInvalidHeads; split <;> simp [ih]
@[simp] theorem State.pbPick_pending (s : State) (n c : Nat) (u : Int) : (State.pbPick s n c u).1.pending = s.pending := by
  unfold State.pbPick
  dsimp only
  (repeat' split) <;> simp only [State.pbInvalidHeads_pending, State.setChan_pending]
@[simp] theorem State.pbOwn_pending (s : State) (n c : Nat) (src : Option Nat) (u : Int) : (State.pbOwn s n c src u).pending = s.pending := rfl
@[simp] theorem State.pbStart_pending (s : State) (n c : Nat) (src : Option Nat) (u : Int) : (State.pbStart s n c src u).pending = s.pending := by
  simp only [State.pbStart, State.pbDrive_pending, State.pbOwn_pending, State.setPb_pending]
@[simp] theorem State.pbTry_pending (s : State) (n c : Nat) (u : Int) : (State.pbTry s n c u).pending = s.pending := by
  unfold State.pbTry
  split <;> next e => simp [pending_of_pair e]
@[simp] theorem State.pbStartAt_pending (s : State) (n c : Nat) (src : Option Nat) (u : Int) : (State.pbStartAt s n c src u).pending = s.pending := by
  simp only [State.pbStartAt, State.pbDrive_pending, State.pbOwn_pending, State.setPb_pending]
@[simp] theorem State.pbSendNext_pending (s : State) (n c : Nat) (u : Int) (fast : Bool) : (State.pbSendNext s n c u fast).pending = s.pending := by
  simp only [State.pbSendNext, State.pbDrive_pending, State.setPb_pending, State.ite_pending, ite_self]
@[simp] theorem State.pbAhead_pending (s : State) (n c : Nat) (u : Int) : (State.pbAhead s n c u).pending = s.pending := rfl
@[simp] theorem State.pbTxError_pending (s : State) (n c : Nat) : (State.pbTxError s n c).pending = s.pending := by
  unfold State.pbTxError
  dsimp only
  (repeat' split) <;> simp only [State.pbEnd_pending, State.setChan_pending]
@[simp] theorem State.pbFlag_pending (s : State) (n c : Nat) (f : PbFlag) (u : Int) : (State.pbFlag s n c f u).pending = s.pending := by
  simp only [State.pbFlag, State.pbForce_pending, State.setPb_pending]
@[simp] theorem State.pbOut_pending (s : State) (n c : Nat) (u : Int) : (State.pbOut s n c u).pending = s.pending := by
  simp only [State.pbOut, State.pbForce_pending, State.setPb_pending]
@[simp] theorem State.pbError_pending (s : State) (n c lec : Nat) (exempt : Bool) (u : Int) : (State.pbError s n c lec exempt u).pending = s.pending := by
  simp only [State.pbError, State.enCnt_pending, State.fs_pending, State.pbFlag_pending, State.pbMore_pending, State.pbOut_pending,
    State.pbTxError_pending, State.setPb_pending, State.ite_pending, ite_self]
@[simp] theorem State.pbSent_pending (s0 : State) (n c : Nat) : (State.pbSent s0 n c).pending = s0.pending := by
  unfold State.pbSent
  dsimp only
  (repeat' split) <;> simp only [State.inc_pending, State.pbEnd_pending, State.pbLess_pending, State.setChan_pending]
@[simp] theorem State.pbGot_pending (s0 : State) (n c : Nat) : (State.pbGot s0 n c).pending = s0.pending := by
  simp only [State.pbGot, State.pbLess_pending, State.setChan_pending]
@[simp] theorem State.pbTake_pending (s : State) (n c : Nat) (x u : Int) (v : Bool) : (State.pbTake s n c x u v).pending = s.pending := by
  unfold State.pbTake
  dsimp only
  (repeat' split) <;> simp only [State.pbAhead_pending, State.pbError_pending, State.pbSendNext_pending, State.setPb_pending]
@[simp] theorem State.pbFrameBit_pending (s : State) (n c : Nat) (x u : Int) (v : Bool) : (State.pbFrameBit s n c x u v).pending = s.pending := by
  simp only [State.pbFrameBit, State.inc_pending, State.pbError_pending, State.pbTake_pending, State.setChan_pending, State.ite_pending, ite_self]
@[simp] theorem State.pbTail_pending (s : State) (n c : Nat) (x u : Int) (v : Bool) : (State.pbTail s n c x u v).pending = s.pending := by
  unfold State.pbTail
  dsimp only
  (repeat' split) <;> simp only [State.pbDrive_pending, State.pbError_pending, State.pbGot_pending, State.pbSent_pending, State.setPb_pending]
@[simp] theorem State.pbFlagBit_pending (s : State) (n c : Nat) (u : Int) (v was : Bool) : (State.pbFlagBit s n c u v was).pending = s.pending := by
  unfold State.pbFlagBit
  dsimp only
  (repeat' split) <;> simp only [State.enCnt_pending, State.fs_pending, State.pbDrive_pending, State.pbError_pending, State.pbMore_pending,
    State.pbOut_pending, State.setPb_pending]
@[simp] theorem State.pbFlushAll_pending (s : State) (n c a : Nat) : (State.pbFlushAll s n c a).pending = s.pending := by
  induction a generalizing s with
  | zero => simp [State.pbFlushAll]
  | succ k ih => simp [State.pbFlushAll, ih]
@[simp] theorem State.pbBoundary_pending (s : State) (n c : Nat) : (State.pbBoundary s n c).pending = s.pending := by
  simp only [State.pbBoundary, State.pbFlushAll_pending, State.ite_pending, ite_self]
@[simp] theorem State.pbSof_pending (s : State) (n c : Nat) (x u : Int) (v may : Bool) : (State.pbSof s n c x u v may).pending = s.pending := by
  unfold State.pbSof
  dsimp only
  split
  · simp
  · split
    · simp
    · split <;> next e => simp [pending_of_pair e]
@[simp] theorem State.pbBetween_pending (s : State) (n c : Nat) (x u : Int) (v : Bool) : (State.pbBetween s n c x u v).pending = s.pending := by
  unfold State.pbBetween
  dsimp only
  (repeat' split) <;> simp only [State.fs_pending, State.pbBoundary_pending, State.pbFlag_pending, State.pbOut_pending, State.pbRecessive_pending,
    State.pbSof_pending, State.pbTry_pending, State.setPb_pending]
@[simp] theorem State.pbJudge_pending (s : State) (n c : Nat) (x : Int) (m : Bool) : (State.pbJudge s n c x m).pending = s.pending := by
  unfold State.pbJudge
  dsimp only
  (repeat' split) <;> simp only [State.pbBetween_pending, State.pbFlagBit_pending, State.pbFrameBit_pending, State.pbTail_pending,
    State.setPb_pending]
@[simp] theorem State.pbSecond_pending (s : State) (n c : Nat) (y : Int) (m : Bool) : (State.pbSecond s n c y m).pending = s.pending := by
  unfold State.pbSecond
  dsimp only
  (repeat' split) <;> simp only [State.pbError_pending, State.setPb_pending]
@[simp] theorem State.pbEdge_pending (s0 : State) (n c : Nat) (e : Int) : (State.pbEdge s0 n c e).pending = s0.pending := by
  unfold State.pbEdge
  dsimp only
  (repeat' split) <;> simp only [State.fs_pending, State.setPb_pending]
@[simp] theorem State.pbRun_pending (n c : Nat) (r : Rep) (prev : Bool) (a : Nat) (x5 : Option Int) (x6 : State) : (State.pbRun n c r prev a x5 x6).pending = x6.pending := by
  induction a generalizing x5 x6 with
  | zero => rfl
  | succ k ih => unfold State.pbRun; dsimp only; split <;> simp [ih]
@[simp] theorem State.pbReport_pending (s : State) (n c : Nat) (r : Rep) : (State.pbReport s n c r).pending = s.pending := by
  simp only [State.pbReport, State.pbBoundary_pending, State.pbRun_pending, State.setPb_pending, State.ite_pending, ite_self]
@[simp] theorem State.pbGap_pending (s : State) (n c : Nat) : (State.pbGap s n c).pending = s.pending := by
  simp only [State.pbGap, State.enCnt_pending, State.fs_pending, State.pbForce_pending, State.setChan_pending, State.setPb_pending,
    State.ite_pending, ite_self]
@[simp] theorem State.pbCmdWrite_pending (s : State) (g : Nat) (v : Word) : (State.pbCmdWrite s g v).pending = s.pending := by
  unfold State.pbCmdWrite
  split <;> simp only [State.fs_pending, State.pbEnd_pending, State.setChan_pending, State.ite_pending, ite_self]
@[simp] theorem State.pbCmd_pending (s : State) (who : Initiator) (engine : Engine) (f : Fld) : (State.pbCmd s who engine f).pending = s.pending := by
  simp only [State.pbCmd, State.pbCmdWrite_pending, State.write_pending, keepsQueue_iff, implies_true, State.ite_pending, ite_self]
@[simp] theorem execPbAbort_waits (who : Initiator) (engine : Engine) (s : State) : KeepsWaiting s (execPbAbort who engine s) := by
  simp only [execPbAbort, keepsWaiting_next, State.pbCmd_pending]
@[simp] theorem execPbFlush_waits (who : Initiator) (engine : Engine) (s : State) : KeepsWaiting s (execPbFlush who engine s) := by
  simp only [execPbFlush, keepsWaiting_next, State.pbCmd_pending]
@[simp] theorem execPbRecover_waits (who : Initiator) (engine : Engine) (s : State) : KeepsWaiting s (execPbRecover who engine s) := by
  simp only [execPbRecover, keepsWaiting_next, State.pbCmd_pending]
@[simp] theorem State.ttInit_pending (s : State) (n c : Nat) : (State.ttInit s n c).pending = s.pending := by
  unfold State.ttInit
  split <;> simp only [State.setChan_pending, State.wr_pending, State.ite_pending, ite_self]
@[simp] theorem State.ttRestart_pending (s : State) (n : Nat) : (State.ttRestart s n).pending = s.pending := by
  simp only [State.ttRestart, State.ttInit_pending, State.foldl_pending, keepsQueue_iff, implies_true]
@[simp] theorem State.ttBegin_pending (s : State) (n c row : Nat) (z next : Int) : (State.ttBegin s n c row z next).pending = s.pending := rfl
@[simp] theorem execTtBasicCycleStart_waits (matrix : Matrix) (s : State) : KeepsWaiting s (execTtBasicCycleStart matrix s) := by
  unfold execTtBasicCycleStart
  dsimp only
  (repeat' split) <;> simp only [keepsWaiting_next, State.ttBegin_pending]
@[simp] theorem State.ttColumn_pending (s : State) (n c m j : Nat) (u fin : Int) : (State.ttColumn s n c m j u fin).pending = s.pending := by
  simp only [State.ttColumn, State.enCnt_pending, State.pbStartAt_pending, State.setChan_pending, State.ite_pending, ite_self]
@[simp] theorem execTtColumnStart_waits (matrix : Matrix) (s : State) : KeepsWaiting s (execTtColumnStart matrix s) := by
  unfold execTtColumnStart
  dsimp only
  (repeat' split) <;> simp only [keepsWaiting_next, State.fs_pending, State.setChan_pending, State.ttColumn_pending]
@[simp] theorem State.ttMiss_pending (s : State) (n c m : Nat) (x4 : Int) : (State.ttMiss s n c m x4).pending = s.pending := by
  simp only [State.ttMiss, State.fs_pending, State.inc_pending, State.raiseIf_pending, State.setChan_pending, State.ttBegin_pending,
    State.ite_pending, ite_self]
@[simp] theorem execTtRefTimeout_waits (matrix : Matrix) (s : State) : KeepsWaiting s (execTtRefTimeout matrix s) := by
  unfold execTtRefTimeout
  dsimp only
  (repeat' split) <;> simp only [keepsWaiting_next, State.ttMiss_pending]
@[simp] theorem State.ttReference_pending (s : State) (n c m idw : Nat) (data : List Byte) (sof : Int) : (State.ttReference s n c m idw data sof).pending = s.pending := by
  simp only [State.ttReference, State.fs_pending, State.ttBegin_pending, State.wr_pending, State.ite_pending, ite_self]
@[simp] theorem State.repTaken_pending (s : State) (n c : Nat) (level : Option Bool) : (State.repTaken s n c level).pending = s.pending := rfl
@[simp] theorem State.engTaken_pending (s : State) (n c taken : Nat) (stamp : List Byte) : (State.engTaken s n c taken stamp).pending = s.pending :=
  rfl
@[simp] theorem State.engSet_pending (s : State) (n c : Nat) (bs : List Byte) : (State.engSet s n c bs).pending = s.pending := by
  simp only [State.engSet, State.engTaken_pending, State.fs_pending, State.setChan_pending, State.setPb_pending, State.wr_pending, State.ite_pending,
    ite_self]
@[simp] theorem State.engLoad_pending (s : State) (n c : Nat) : (State.engLoad s n c).pending = s.pending := by
  unfold State.engLoad
  split <;> simp only [State.engSet_pending, State.ite_pending, ite_self]
@[simp] theorem State.engParity_pending (s : State) (n c : Nat) (parity : EngParity) : (State.engParity s n c parity).pending = s.pending := by
  unfold State.engParity
  split <;> simp only [State.fault_pending, State.fs_pending, State.ite_pending, ite_self]
@[simp] theorem execEngineFrameReport_waits (pitch : Pitch) (chan : Channel) (parity : EngParity) (s : State) : KeepsWaiting s (execEngineFrameReport pitch chan parity s) := by
  unfold execEngineFrameReport
  dsimp only
  (repeat' split) <;> simp only [keepsWaiting_next, State.engParity_pending, State.asReport_pending, State.pbReport_pending, State.syReport_pending,
    State.diReport_pending, State.repTaken_pending, State.engLoad_pending]
@[simp] theorem execEngineGap_waits (pitch : Pitch) (chan : Channel) (s : State) : KeepsWaiting s (execEngineGap pitch chan s) := by
  unfold execEngineGap
  dsimp only
  (repeat' split) <;> simp only [keepsWaiting_next, State.asGap_pending, State.pbGap_pending, State.syGap_pending, State.diGap_pending,
    State.dueLost_pending, State.repTaken_pending, State.engLoad_pending]
@[simp] theorem State.migCut_pending (s : State) (n c : Nat) : (State.migCut s n c).pending = s.pending := by
  simp only [State.migCut, State.asGap_pending, State.diGap_pending, State.inc_pending, State.pbGap_pending, State.syCut_pending, State.ite_pending,
    ite_self]
@[simp] theorem State.migUrgent_pending (s : State) (n c cause : Nat) : (State.migUrgent s n c cause).pending = s.pending := by
  simp only [State.migUrgent, State.migCut_pending, State.migSwitch_pending, State.pbTurn_pending, State.ttInit_pending, State.ite_pending, ite_self]
@[simp] theorem execMigrationSwitch_waits (cluster : Pitch) (s : State) : KeepsWaiting s (execMigrationSwitch cluster s) := by
  unfold execMigrationSwitch
  dsimp only
  (repeat' split) <;> simp only [keepsWaiting_next, State.migUrgent_pending, State.migSwitch_pending]
@[simp] theorem State.qFlushWrite_pending (s : State) (p : Nat) (v : Word) : (State.qFlushWrite s p v).pending = s.pending := by
  simp only [State.qFlushWrite, State.raise_pending, State.wr_pending, State.ite_pending, ite_self]
@[simp] theorem execQFlush_waits (who : Initiator) (page : Fin 4) (v : Word) (s : State) : KeepsWaiting s (execQFlush who page v s) := by
  simp only [execQFlush, keepsWaiting_next, State.write_pending, State.qFlushWrite_pending, keepsQueue_iff, implies_true]
@[simp] theorem execFlushPoint_waits (page : Fin 4) (s : State) : KeepsWaiting s (execFlushPoint page s) := by
  simp only [execFlushPoint, keepsWaiting_next, State.flushQueue_pending, State.fs_pending, State.addSat_pending, State.raise_pending,
    State.ite_pending, ite_self]
@[simp] theorem State.qClrCnt_pending (s : State) (p : Nat) : (State.qClrCnt s p).pending = s.pending := rfl
@[simp] theorem State.queuesClr_pending (s : State) : (State.queuesClr s).pending = s.pending := rfl
@[simp] theorem execQClrCnt_waits (who : Initiator) (page : Fin 4) (s : State) : KeepsWaiting s (execQClrCnt who page s) := by
  simp only [execQClrCnt, keepsWaiting_next, State.write_pending, State.qClrCnt_pending, keepsQueue_iff, implies_true]
@[simp] theorem State.graceFlush_pending (s : State) (p : Nat) : (State.graceFlush s p).pending = s.pending := by
  simp only [State.graceFlush, State.addSat_pending, State.flushQueue_pending, State.foldl_fst_pending, keepsQueue_iff, implies_true]
@[simp] theorem State.graceOver_pending (s : State) (p : Nat) : (State.graceOver s p).pending = s.pending := by
  simp only [State.graceOver, State.graceFlush_pending, State.raise_pending, State.setLost_pending]
@[simp] theorem State.portLost_pending (s : State) (p : Nat) : (State.portLost s p).pending = s.pending := by
  simp only [State.portLost, State.graceOver_pending, State.setLost_pending, State.ite_pending, ite_self]
@[simp] theorem State.portBack_pending (s : State) (p : Nat) (same : Bool) : (State.portBack s p same).pending = s.pending := by
  simp only [State.portBack, State.graceFlush_pending, State.raise_pending, State.setLost_pending, State.ite_pending, ite_self]
@[simp] theorem execQueueGraceExpired_waits (p : CorePort) (s : State) : KeepsWaiting s (execQueueGraceExpired p s) := by
  simp only [execQueueGraceExpired, keepsWaiting_next, State.graceOver_pending, State.graceFlush_pending, State.ite_pending, ite_self]
@[simp] theorem State.staleSweep_pending (s : State) : (State.staleSweep s).pending = s.pending := by
  simp only [State.staleSweep, State.graceFlush_pending, State.foldl_pending, keepsQueue_iff, implies_true]
@[simp] theorem State.setMbBit_pending (s : State) (reg m : Nat) : (State.setMbBit s reg m).pending = s.pending := rfl
theorem State.mbCell_pending (s : State) (x1 : Nat) {a} {r : State} (e : State.mbCell s x1 = some (a, r)) : r.pending = s.pending := by
  unfold State.mbCell at e
  split at e
  · cases e
  · split at e
    · cases e; simp
    · obtain ⟨b, _, hb⟩ := Option.map_eq_some_iff.1 e
      cases hb; simp
@[simp] theorem State.mbPush_pending (s0 : State) (m : Nat) (v : Word) : (State.mbPush s0 m v).pending = s0.pending := by
  unfold State.mbPush
  dsimp only
  split
  · simp
  · next e => simp [State.mbCell_pending _ _ e]
@[simp] theorem execMbPush_waits (who : Initiator) (m : Mailbox) (v : Word) (s : State) : KeepsWaiting s (execMbPush who m v s) := by
  simp only [execMbPush, keepsWaiting_next, State.write_pending, State.mbPush_pending, keepsQueue_iff, implies_true]
@[simp] theorem State.mbPop_pending (s : State) (m : Nat) (ecc : Ecc) : (State.mbPop s m ecc).1.pending = s.pending := by
  unfold State.mbPop
  split <;> simp only [State.eccRead_pending, State.freeCell_pending, State.freeEnt_pending, State.mirrorQueue_pending, State.raise_pending,
    State.setMbBit_pending, State.setQue_pending, State.tookFree_pending, State.ite_pending, ite_self]
@[simp] theorem execMbPopTake_waits (who : Initiator) (m : Mailbox) (ecc : Ecc) (s : State) : KeepsWaiting s (execMbPopTake who m ecc s) := by
  simp only [execMbPopTake, keepsWaiting_next, State.read_pending, State.mbPop_pending, keepsQueue_iff, implies_true]
@[simp] theorem State.qrpCells_pending (s : State) (p : Nat) (v : BitVec 192) : (State.qrpCells s p v).pending = s.pending := rfl
@[simp] theorem State.qrpTake_pending (s : State) (p : Nat) (ecc : Ecc) : (State.qrpTake s p ecc).1.pending = s.pending := by
  unfold State.qrpTake
  extract_lets q x s0 first
  have h0 : s0.pending = s.pending := State.setQue_pending ..
  clear_value s0 q first x
  split
  · rfl
  · split
    · exact (State.raise_pending ..).trans h0
    · split
      · exact h0
      · extract_lets c l s1 s2 bad es
        have h2 : s2.pending = s.pending := by simp [s2, s1, h0]
        clear_value s2 l bad es
        split
        · rw [State.mirrorQueue_pending, State.endCopy_pending, State.setQue_pending, h2]
        · exact h2
@[simp] theorem execQrpTake_waits (who : Initiator) (page : Fin 4) (ecc : Ecc) (s : State) : KeepsWaiting s (execQrpTake who page ecc s) := by
  simp only [execQrpTake, keepsWaiting_next, State.read_pending, State.qrpTake_pending, keepsQueue_iff, implies_true]
@[simp] theorem execCoreSpareCmd_waits (who : Initiator) (v : Word) (s : State) : KeepsWaiting s (execCoreSpareCmd who v s) := by
  simp only [execCoreSpareCmd, keepsWaiting_next, State.write_pending, State.coreSpareCmd_pending, keepsQueue_iff, implies_true]
@[simp] theorem execCoreClrCnt_waits (who : Initiator) (s : State) : KeepsWaiting s (execCoreClrCnt who s) := by
  simp only [execCoreClrCnt, keepsWaiting_next, State.write_pending, State.coreClrCnt_pending, keepsQueue_iff, implies_true]
@[simp] theorem State.clHand_pending (s : State) (n c : Nat) (r : Rep) : (State.clHand s n c r).pending = s.pending := rfl
@[simp] theorem State.clGaps_pending (s0 : State) (n : Nat) (base : Int) : (State.clGaps s0 n base).pending = s0.pending := by
  simp only [State.clGaps, State.clHand_pending, State.foldl_pending, keepsQueue_iff, implies_true, State.ite_pending, ite_self]
@[simp] theorem State.clLeave_pending (s : State) (n : Nat) : (State.clLeave s n).pending = s.pending := by
  simp only [State.clLeave, State.clGaps_pending, State.fs_pending, State.portLost_pending, State.raise_pending, State.ite_pending, ite_self]
@[simp] theorem State.clTrain_pending (s : State) (n : Nat) : (State.clTrain s n).pending = s.pending := by
  simp only [State.clTrain, State.clLeave_pending, State.fs_pending, State.setCard_pending]
@[simp] theorem State.clDetect_pending (s : State) (n : Nat) : (State.clDetect s n).pending = s.pending := by
  simp only [State.clDetect, State.clLeave_pending, State.fs_pending, State.setCard_pending]
@[simp] theorem State.clOff_pending (s : State) (n : Nat) : (State.clOff s n).pending = s.pending := by
  simp only [State.clOff, State.clLeave_pending, State.fs_pending, State.setCard_pending]
@[simp] theorem State.clLost_pending (s : State) (n : Nat) : (State.clLost s n).pending = s.pending := by
  simp only [State.clLost, State.clTrain_pending, State.inc_pending, State.ite_pending, ite_self]
@[simp] theorem State.sbNext_pending (s : State) (n ty : Nat) (payload : List Byte) : (State.sbNext s n ty payload).pending = s.pending := rfl
@[simp] theorem State.clSuper_pending (s : State) (n : Nat) : (State.clSuper s n).pending = s.pending := rfl
@[simp] theorem State.clHeld_pending (s : State) (n reason : Nat) : (State.clHeld s n reason).pending = s.pending := by
  simp only [State.clHeld, State.fs_pending, State.raise_pending]
@[simp] theorem execReceiverDetectProbe_waits (pitch : Pitch) (term : Bool) (s : State) : KeepsWaiting s (execReceiverDetectProbe pitch term s) := by
  simp only [execReceiverDetectProbe, keepsWaiting_next, State.fs_pending, State.setCard_pending, State.clTrain_pending, State.ite_pending, ite_self]
@[simp] theorem State.clMarks_pending (s : State) (n : Nat) (a : CardEnd) : (State.clMarks s n a).pending = s.pending := by
  unfold State.clMarks
  split <;> simp only [State.addSat_pending, State.inc_pending, State.ite_pending, ite_self]
@[simp] theorem State.clUnlock_pending (s : State) (n : Nat) : (State.clUnlock s n).pending = s.pending := rfl
@[simp] theorem State.clTrainFrame_pending (s : State) (n : Nat) (bs : List Byte) (ok inv : Bool) : (State.clTrainFrame s n bs ok inv).pending = s.pending := by
  simp only [State.clTrainFrame, State.fs_pending, State.setCard_pending, State.ite_pending, ite_self]
@[simp] theorem execCardTrainingFrame_waits (pitch : Pitch) (bytes : List Byte) (sample : Nat) (inv : Bool) (mark : CardEnd) (s : State) : KeepsWaiting s (execCardTrainingFrame pitch bytes sample inv mark s) := by
  unfold execCardTrainingFrame
  split <;> simp only [keepsWaiting_next, keepsWaiting_fault, State.clMarks_pending, State.clUnlock_pending, State.clTrainFrame_pending,
    State.setCard_pending, State.clTrain_pending, State.ite_pending, ite_self]
@[simp] theorem execCardTrainTimeout_waits (pitch : Pitch) (s : State) : KeepsWaiting s (execCardTrainTimeout pitch s) := by
  simp only [execCardTrainTimeout, keepsWaiting_next, State.inc_pending, State.clDetect_pending, State.ite_pending, ite_self]
@[simp] theorem execCardLosPersist_waits (pitch : Pitch) (s : State) : KeepsWaiting s (execCardLosPersist pitch s) := by
  simp only [execCardLosPersist, keepsWaiting_next, State.inc_pending, State.fs_pending, State.clUnlock_pending, State.clLost_pending,
    State.ite_pending, ite_self]
@[simp] theorem execLoopMeasureDone_waits (pitch : Pitch) (s : State) : KeepsWaiting s (execLoopMeasureDone pitch s) := by
  simp only [execLoopMeasureDone, keepsWaiting_next, State.clSuper_pending, State.clHeld_pending, State.setCard_pending, State.fs_pending,
    State.ite_pending, ite_self]
@[simp] theorem execRollcallTimeout_waits (pitch : Pitch) (s : State) : KeepsWaiting s (execRollcallTimeout pitch s) := by
  simp only [execRollcallTimeout, keepsWaiting_next, State.inc_pending, State.clTrain_pending, State.ite_pending, ite_self]
@[simp] theorem State.clRetrain_pending (s : State) (n : Nat) : (State.clRetrain s n).pending = s.pending := by
  simp only [State.clRetrain, State.clTrain_pending, State.ite_pending, ite_self]
@[simp] theorem State.clClrCnt_pending (s : State) (n : Nat) : (State.clClrCnt s n).pending = s.pending := rfl
@[simp] theorem State.clCtrlWrite_pending (s : State) (n : Nat) (v : Word) : (State.clCtrlWrite s n v).pending = s.pending := by
  simp only [State.clCtrlWrite, State.clClrCnt_pending, State.clRetrain_pending, State.ite_pending, ite_self]
@[simp] theorem execClRetrain_waits (who : Initiator) (pitch : Pitch) (s : State) : KeepsWaiting s (execClRetrain who pitch s) := by
  simp only [execClRetrain, keepsWaiting_next, State.write_pending, State.clRetrain_pending, keepsQueue_iff, implies_true]
@[simp] theorem execClClrCnt_waits (who : Initiator) (pitch : Pitch) (s : State) : KeepsWaiting s (execClClrCnt who pitch s) := by
  simp only [execClClrCnt, keepsWaiting_next, State.write_pending, State.clClrCnt_pending, keepsQueue_iff, implies_true]
@[simp] theorem State.clReport_pending (v : Nat) (base : Int) (n : Nat) (s : State) (c : Nat) : (State.clReport v base n s c).pending = s.pending := by
  simp only [State.clReport, State.clHand_pending, State.inc_pending, State.ite_pending, ite_self]
@[simp] theorem State.clSelected_pending (s : State) (n : Nat) (sel : Bool) : (State.clSelected s n sel).pending = s.pending := by
  simp only [State.clSelected, State.fs_pending, State.raise_pending, State.setCard_pending, State.ite_pending, ite_self]
@[simp] theorem State.clBad_pending (s : State) (n : Nat) (lost : Bool) : (State.clBad s n lost).pending = s.pending := by
  simp only [State.clBad, State.clGaps_pending, State.clLost_pending, State.inc_pending, State.raise_pending, State.setCard_pending,
    State.ite_pending, ite_self]
@[simp] theorem State.clGood_pending (s : State) (n : Nat) (bs : List Byte) : (State.clGood s n bs).pending = s.pending := by
  simp only [State.clGood, State.clGaps_pending, State.clLost_pending, State.clReport_pending, State.clSelected_pending, State.inc_pending,
    State.raise_pending, State.setCard_pending, State.foldl_pending, keepsQueue_iff, implies_true, State.ite_pending, ite_self]
@[simp] theorem execCardFrameReceived_waits (pitch : Pitch) (bytes : List Byte) (mark : CardEnd) (s : State) : KeepsWaiting s (execCardFrameReceived pitch bytes mark s) := by
  unfold execCardFrameReceived
  split
  · exact keepsWaiting_fault
  · simp only [keepsWaiting_next, State.ite_pending, State.clGood_pending, State.clBad_pending, State.clMarks_pending, ite_self]
@[simp] theorem State.clSendTraining_pending (s : State) (n : Nat) : (State.clSendTraining s n).pending = s.pending := by
  simp only [State.clSendTraining, State.clSuper_pending, State.fs_pending, State.setCard_pending, State.ite_pending, ite_self]
@[simp] theorem State.clField_pending (base : Int) (n : Nat) (a : State × Nat) (c : Nat) : (State.clField base n a c).1.pending = a.1.pending := rfl
@[simp] theorem State.clSendFrame_pending (s : State) (n : Nat) : (State.clSendFrame s n).pending = s.pending := by
  unfold State.clSendFrame
  dsimp only
  (repeat' split) <;> simp only [State.clField_pending, State.fs_pending, State.setCard_pending, State.foldl_fst_pending, keepsQueue_iff,
    implies_true]
@[simp] theorem execCardFrameSend_waits (pitch : Pitch) (s : State) : KeepsWaiting s (execCardFrameSend pitch s) := by
  simp only [execCardFrameSend, keepsWaiting_next, State.clSendTraining_pending, State.clSendFrame_pending, State.ite_pending, ite_self]
@[simp] theorem State.clIdentity_pending (s : State) (n : Nat) (bs : List Byte) : (State.clIdentity s n bs).pending = s.pending := by
  simp only [State.clIdentity, State.fs_pending, State.portBack_pending, State.raise_pending, State.restartCluster_pending, State.ttRestart_pending,
    State.wr_pending, State.ite_pending, ite_self]
@[simp] theorem State.clActive_pending (s : State) (n : Nat) (bs : List Byte) : (State.clActive s n bs).pending = s.pending := by
  simp only [State.clActive, State.clIdentity_pending, State.dueLost_pending, State.fs_pending, State.pbTurn_pending, State.raise_pending,
    State.setCard_pending, State.foldl_pending, keepsQueue_iff, implies_true, State.ite_pending, ite_self]
@[simp] theorem State.clRollCall_pending (s : State) (n : Nat) (bs : List Byte) : (State.clRollCall s n bs).pending = s.pending := by
  simp only [State.clRollCall, State.clActive_pending, State.clHeld_pending, State.setCard_pending, State.ite_pending, ite_self]
@[simp] theorem State.clStatusBlock_pending (s : State) (n : Nat) (bs : List Byte) : (State.clStatusBlock s n bs).pending = s.pending := by
  simp only [State.clStatusBlock, State.fs_pending, State.raiseIf_pending, State.setCard_pending]
@[simp] theorem State.clRelayStatus_pending (s : State) (n : Nat) (bs : List Byte) : (State.clRelayStatus s n bs).pending = s.pending := rfl
@[simp] theorem execSidebandBlockReceived_waits (pitch : Pitch) (bytes : List Byte) (anyBad : Bool) (s : State) : KeepsWaiting s (execSidebandBlockReceived pitch bytes anyBad s) := by
  unfold execSidebandBlockReceived
  split <;> simp only [keepsWaiting_next, keepsWaiting_fault, State.inc_pending, State.clRollCall_pending, State.clStatusBlock_pending,
    State.clRelayStatus_pending, State.ite_pending, ite_self]
@[simp] theorem execSafeMismatch_waits (pitch : Pitch) (s : State) : KeepsWaiting s (execSafeMismatch pitch s) := by
  unfold execSafeMismatch
  dsimp only
  (repeat' split) <;> simp only [keepsWaiting_next, State.setCard_pending, State.raise_pending]
@[simp] theorem State.mergeIn_pending (s : State) (p : RingPort) (f : Frame) : (State.mergeIn s p f).pending = s.pending := rfl
@[simp] theorem State.llOut_pending (s : State) (p : LanePort) (f : Frame) : (State.llOut s p f).pending = s.pending := rfl
@[simp] theorem State.logicOut_pending (s : State) (p : RingPort) (c : Cls) (f : Frame) : (State.logicOut s p c f).pending = s.pending := rfl
@[simp] theorem State.fenceQueue_pending (p : RingPort) (kind : Nat) (s : State) (c : Cls) : (State.fenceQueue p kind s c).pending = s.pending := by
  simp only [State.fenceQueue, State.logicOut_pending, State.placeDirect_pending, State.ite_pending, ite_self]
@[simp] theorem State.fencesOn_pending (s : State) (p : RingPort) (kind : Nat) : (State.fencesOn s p kind).pending = s.pending := by
  simp only [State.fencesOn, State.fenceQueue_pending, State.mergeIn_pending, State.foldl_pending, keepsQueue_iff, implies_true, State.ite_pending,
    ite_self]
@[simp] theorem State.fences_pending (s : State) (ports : List RingPort) (kind : Nat) : (State.fences s ports kind).pending = s.pending := by
  simp only [State.fences, State.fencesOn_pending, State.foldl_pending, keepsQueue_iff, implies_true, State.ite_pending, ite_self]
@[simp] theorem State.moveEnt_pending (p : RingPort) (c : Nat) (s : State) (e : QEnt) : (State.moveEnt p c s e).pending = s.pending := by
  simp only [State.moveEnt, State.dropLoop_pending, State.endCopy_pending, State.inc_pending, State.linkEnt_pending, State.ite_pending, ite_self]
@[simp] theorem State.moveMerged_pending (p : RingPort) (s : State) (f : Frame) : (State.moveMerged p s f).pending = s.pending := by
  unfold State.moveMerged
  split
  · simp
  · split <;> simp
@[simp] theorem State.moveQueues_pending (s : State) (p : RingPort) : (State.moveQueues s p).pending = s.pending := by
  simp only [State.moveQueues, State.moveEnt_pending, State.moveMerged_pending, State.setEg_pending, State.setPort_pending, State.setQue_pending,
    State.foldl_pending, keepsQueue_iff, implies_true, State.ite_pending, ite_self]
@[simp] theorem State.wrap_pending (s : State) (p : RingPort) : (State.wrap s p).pending = s.pending := by
  simp only [State.wrap, State.fences_pending, State.fs_pending, State.moveQueues_pending, State.raise_pending, State.setPort_pending,
    State.ite_pending, ite_self]
@[simp] theorem State.freezeRing_pending (s : State) (p : RingPort) : (State.freezeRing s p).pending = s.pending := rfl
@[simp] theorem State.flushRing_pending (s : State) (p : RingPort) : (State.flushRing s p).pending = s.pending := by
  simp only [State.flushRing, State.addSat_pending, State.flushQueue_pending, State.foldl_fst_pending, keepsQueue_iff, implies_true]
@[simp] theorem State.sweep_pending (s : State) : (State.sweep s).pending = s.pending := by
  simp only [State.sweep, State.flushRing_pending, State.staleSweep_pending, State.foldl_pending, keepsQueue_iff, implies_true, State.ite_pending,
    ite_self]
@[simp] theorem State.ringLeft_pending (s : State) (p : RingPort) : (State.ringLeft s p).pending = s.pending := by
  simp only [State.ringLeft, State.freezeRing_pending, State.fs_pending, State.setEg_pending, State.twinWatch_pending, State.wrap_pending,
    State.ite_pending, ite_self]
@[simp] theorem State.thawRing_pending (s : State) (p : RingPort) : (State.thawRing s p).pending = s.pending := by
  simp only [State.thawRing, State.flushRing_pending, State.fs_pending, State.raise_pending, State.setPort_pending, State.ite_pending, ite_self]
@[simp] theorem State.wrapFrozen_pending (s : State) (p : RingPort) : (State.wrapFrozen s p).pending = s.pending := by
  simp only [State.wrapFrozen, State.wrap_pending, State.ite_pending, ite_self]
@[simp] theorem State.ringEntered_pending (s : State) (p : RingPort) : (State.ringEntered s p).pending = s.pending := by
  unfold State.ringEntered
  extract_lets s1 s2 x s3 s4
  have h1 : s1.pending = s.pending := State.foldl_pending (fun _ _ => State.setCr_pending ..) ..
  have h3 : s3.pending = s.pending := (State.setPort_pending ..).trans ((State.creditInit_pending ..).trans h1)
  rw [State.twinWatch_pending, State.wrapFrozen_pending, State.thawRing_pending, State.fs_pending, State.fs_pending, h3]
@[simp] theorem execUnwrap_waits (port : RingPort) (s : State) : KeepsWaiting s (execUnwrap port s) := by
  simp only [execUnwrap, keepsWaiting_next, State.fences_pending, State.fs_pending, State.raise_pending, State.ite_pending, ite_self]
@[simp] theorem execRingGraceExpired_waits (port : RingPort) (s : State) : KeepsWaiting s (execRingGraceExpired port s) := by
  simp only [execRingGraceExpired, keepsWaiting_next, State.flushRing_pending, State.raise_pending, State.setPort_pending, State.ite_pending,
    ite_self]
@[simp] theorem State.ridge_pending (s : State) (p o : RingPort) (f : Frame) : (State.ridge s p o f).pending = s.pending := by
  simp only [State.ridge, State.inc_pending, State.mergeIn_pending, State.ite_pending, ite_self]
@[simp] theorem State.llPass_pending (s : State) (p : RingPort) (f : Frame) : (State.llPass s p f).pending = s.pending := by
  simp only [State.llPass, State.inc_pending, State.ridge_pending, State.ite_pending, ite_self]
@[simp] theorem State.guyIn_pending (s : State) (p : RingPort) (src : Nat) : (State.guyIn s p src).pending = s.pending := by
  simp only [State.guyIn, State.creditInit_pending, State.fs_pending, State.raiseIf_pending, State.setPort_pending, State.twinWatch_pending,
    State.ite_pending, ite_self]
@[simp] theorem execGuyReceived_waits (port : RingPort) (src : Fin 128) (seq wrapFlags : Byte) (s : State) : KeepsWaiting s (execGuyReceived port src seq wrapFlags s) := by
  simp only [execGuyReceived, keepsWaiting_next, State.guyIn_pending, State.llPass_pending, State.ite_pending, ite_self]
@[simp] theorem execGuySilenceTimeout_waits (port : RingPort) (s : State) : KeepsWaiting s (execGuySilenceTimeout port s) := by
  simp only [execGuySilenceTimeout, keepsWaiting_next, State.fs_pending, State.raise_pending, State.wrap_pending, State.twinWatch_pending,
    State.ite_pending, ite_self]
@[simp] theorem execGuySend_waits (port : RingPort) (s : State) : KeepsWaiting s (execGuySend port s) := by
  simp only [execGuySend, keepsWaiting_next, State.setPort_pending, State.llOut_pending, State.ite_pending, ite_self]
@[simp] theorem State.creditIn_pending (s : State) (p : RingPort) (x2 : Hdr) : (State.creditIn s p x2).pending = s.pending := rfl
@[simp] theorem execCreditReceived_waits (port : RingPort) (bytes : List Byte) (s : State) : KeepsWaiting s (execCreditReceived port bytes s) := by
  simp only [execCreditReceived, keepsWaiting_next, State.llPass_pending, State.creditIn_pending, State.ite_pending, ite_self]
@[simp] theorem execCreditSend_waits (port : RingPort) (s : State) : KeepsWaiting s (execCreditSend port s) := by
  simp only [execCreditSend, keepsWaiting_next, State.setPort_pending, State.llOut_pending, State.ite_pending, ite_self]
@[simp] theorem State.leaveRidgeOnly_pending (s : State) : (State.leaveRidgeOnly s).pending = s.pending := by
  simp only [State.leaveRidgeOnly, State.creditInit_pending, State.setPort_pending, State.foldl_pending, keepsQueue_iff, implies_true]
@[simp] theorem State.topoFences_pending (s before : State) (changed : List Nat) : (State.topoFences s before changed).pending = s.pending := by
  simp only [State.topoFences, State.fences_pending, State.ite_pending, ite_self]
@[simp] theorem State.topoIn_pending (s : State) (src : Nat) (dir : Dir) (wraps hops flags : Nat) : (State.topoIn s src dir wraps hops flags).pending = s.pending := by
  simp only [State.topoIn, State.fs_pending, State.topoFences_pending, State.ite_pending, ite_self]
@[simp] theorem execTopoReceived_waits (x0 : RingPort) (src : Fin 128) (dir : Dir) (wraps hops : Nat) (flags : Byte) (s : State) : KeepsWaiting s (execTopoReceived x0 src dir wraps hops flags s) := by
  simp only [execTopoReceived, keepsWaiting_next, State.topoIn_pending]
@[simp] theorem State.ageEntry_pending (s : State) (x1 : Nat) : (State.ageEntry s x1).pending = s.pending := by
  simp only [State.ageEntry, State.fs_pending, State.raise_pending, State.ite_pending, ite_self]
@[simp] theorem execTopoAgeTick_waits (s : State) : KeepsWaiting s (execTopoAgeTick s) := by
  simp only [execTopoAgeTick, keepsWaiting_next, State.ageEntry_pending, State.topoFences_pending, State.foldl_pending, keepsQueue_iff, implies_true]
@[simp] theorem State.topoFrame_pending (s : State) (d : Dir) : (State.topoFrame s d).pending = s.pending := rfl
@[simp] theorem execTopoSend_waits (s : State) : KeepsWaiting s (execTopoSend s) := by
  simp only [execTopoSend, keepsWaiting_next, State.topoFrame_pending, State.ite_pending, ite_self]
@[simp] theorem State.holdFor_pending (s : State) (p : RingPort) (c : Cls) (src : Nat) : (State.holdFor s p c src).1.pending = s.pending := by
  unfold State.holdFor
  dsimp only
  (repeat' split) <;> simp only [State.inc_pending, State.setFlow_pending]
@[simp] theorem State.regroup_pending (s : State) : (State.regroup s).pending = s.pending := rfl
@[simp] theorem State.fenceIn_pending (s : State) (p : RingPort) (c : Cls) : (State.fenceIn s p c).pending = s.pending := rfl
@[simp] theorem execFenceReceived_waits (port : RingPort) (cls : Cls) (x2 : Fin 128) (x3 x4 : Nat) (s : State) : KeepsWaiting s (execFenceReceived port cls x2 x3 x4 s) := by
  simp only [execFenceReceived, keepsWaiting_next, State.fenceIn_pending]
@[simp] theorem execHoldExpired_waits (cls : Cls) (src : Fin 128) (s : State) : KeepsWaiting s (execHoldExpired cls src s) := by
  simp only [execHoldExpired, keepsWaiting_next, State.setFlow_pending, State.regroup_pending, State.inc_pending, State.raise_pending,
    State.ite_pending, ite_self]
@[simp] theorem State.rstSend_pending (s : State) (v : Word) : (State.rstSend s v).pending = s.pending := by
  simp only [State.rstSend, State.logicOut_pending, State.noDest_pending, State.ite_pending, ite_self]
@[simp] theorem execResetSend_waits (who : Initiator) (v : Word) (s : State) : KeepsWaiting s (execResetSend who v s) := by
  simp only [execResetSend, keepsWaiting_next, State.write_pending, State.rstSend_pending, keepsQueue_iff, implies_true]
@[simp] theorem State.rpClrCnt_pending (s : State) (p : RingPort) : (State.rpClrCnt s p).pending = s.pending := rfl
@[simp] theorem execRpClrCnt_waits (who : Initiator) (port : RingPort) (s : State) : KeepsWaiting s (execRpClrCnt who port s) := by
  simp only [execRpClrCnt, keepsWaiting_next, State.write_pending, State.rpClrCnt_pending, keepsQueue_iff, implies_true]
@[simp] theorem State.sent_pending (s : State) (p : LanePort) (f : Frame) : (State.sent s p f).pending = s.pending := by
  simp only [State.sent, State.inc_pending, State.setPort_pending, State.ite_pending, ite_self]
@[simp] theorem State.sendMerge_pending (s : State) (p : LanePort) (x2 : Int) : (State.sendMerge s p x2).pending = s.pending := by
  unfold State.sendMerge
  split <;> simp only [State.sent_pending, State.setPort_pending]
@[simp] theorem State.sendLL_pending (s : State) (p : LanePort) : (State.sendLL s p).pending = s.pending := by
  unfold State.sendLL
  split <;> simp only [State.sent_pending, State.setPort_pending]
@[simp] theorem State.ringStart_pending (s : State) (p : RingPort) (at0 : Int) : (State.ringStart s p at0).pending = s.pending := by
  unfold State.ringStart
  dsimp only
  (repeat' split) <;> simp only [State.sendLL_pending, State.sendMerge_pending, State.setPort_pending, State.startCopy_pending]
@[simp] theorem execMergePreempt_waits (port : RingPort) (sub : Fin 26) (s : State) : KeepsWaiting s (execMergePreempt port sub s) := by
  unfold execMergePreempt
  split <;> simp only [keepsWaiting_next, State.setEg_pending, State.inc_pending, State.sendMerge_pending, State.ite_pending, ite_self]
@[simp] theorem State.setLocked_pending (s : State) (p : LanePort) (l : Nat) (v : Bool) : (State.setLocked s p l v).pending = s.pending := rfl
@[simp] theorem State.toTrain_pending (s : State) (p : LanePort) : (State.toTrain s p).pending = s.pending := by
  simp only [State.toTrain, State.fs_pending, State.setLocked_pending, State.setPort_pending, State.foldl_pending, keepsQueue_iff, implies_true]
@[simp] theorem State.twinLeft_pending (s : State) : (State.twinLeft s).pending = s.pending := by
  simp only [State.twinLeft, State.fs_pending, State.portLost_pending, State.setEg_pending, State.setPort_pending, State.twinWatch_pending]
@[simp] theorem State.pdForget_pending (s : State) (p : LanePort) : (State.pdForget s p).pending = s.pending := by
  simp only [State.pdForget, State.fs_pending, State.setPort_pending, State.ite_pending, ite_self]
@[simp] theorem State.leaveActive_pending (s : State) (p : LanePort) (ps : Nat) : (State.leaveActive s p ps).pending = s.pending := by
  unfold State.leaveActive
  extract_lets s0 s1 x s2 s3
  have h1 : s1.pending = s.pending := by simp [s1, s0]
  have h3 : s3.pending = s.pending := by
    rw [State.pdForget_pending, State.raise_pending, State.fs_pending, State.setPort_pending, h1]
  cases p with
  | east | west => exact (State.ringLeft_pending ..).trans h3
  | twin => exact (State.twinLeft_pending ..).trans h3
@[simp] theorem State.retrain_pending (s : State) (p : LanePort) : (State.retrain s p).pending = s.pending := by
  simp only [State.retrain, State.leaveActive_pending, State.toTrain_pending, State.ite_pending, ite_self]
@[simp] theorem State.trainFail_pending (s : State) (p : LanePort) : (State.trainFail s p).pending = s.pending := by
  simp only [State.trainFail, State.inc_pending, State.toTrain_pending]
@[simp] theorem execDeskewTimeout_waits (port : LanePort) (s : State) : KeepsWaiting s (execDeskewTimeout port s) := by
  simp only [execDeskewTimeout, keepsWaiting_next, State.trainFail_pending, State.ite_pending, ite_self]
@[simp] theorem execCapxTimeout_waits (port : LanePort) (s : State) : KeepsWaiting s (execCapxTimeout port s) := by
  simp only [execCapxTimeout, keepsWaiting_next, State.trainFail_pending, State.ite_pending, ite_self]
@[simp] theorem execForceRetrain_waits (who : Initiator) (port : LanePort) (s : State) : KeepsWaiting s (execForceRetrain who port s) := by
  simp only [execForceRetrain, keepsWaiting_next, State.write_pending, State.retrain_pending, keepsQueue_iff, implies_true]
@[simp] theorem State.portOff_pending (s : State) (p : LanePort) : (State.portOff s p).pending = s.pending := by
  simp only [State.portOff, State.fs_pending, State.leaveActive_pending, State.toTrain_pending, State.ite_pending, ite_self]
@[simp] theorem State.lanesReleased_pending (s : State) (p : LanePort) : (State.lanesReleased s p).pending = s.pending := by
  simp only [State.lanesReleased, State.toTrain_pending, State.ite_pending, ite_self]
@[simp] theorem State.setPortEn_pending (s : State) (p : LanePort) (en : Bool) : (State.setPortEn s p en).pending = s.pending := by
  simp only [State.setPortEn, State.lanesReleased_pending, State.portOff_pending, State.setPort_pending, State.ite_pending, ite_self]
@[simp] theorem State.lnClrCnt_pending (s : State) (p : LanePort) : (State.lnClrCnt s p).pending = s.pending := by
  simp only [State.lnClrCnt, State.wr_pending, State.foldl_pending, keepsQueue_iff, implies_true]
@[simp] theorem State.lnCtrlWrite_pending (s : State) (p : LanePort) (v : Word) : (State.lnCtrlWrite s p v).pending = s.pending := by
  simp only [State.lnCtrlWrite, State.lnClrCnt_pending, State.plain_pending, State.retrain_pending, State.setPortEn_pending, State.ite_pending,
    ite_self]
@[simp] theorem execPortEnWrite_waits (who : Initiator) (port : LanePort) (v : Word) (s : State) : KeepsWaiting s (execPortEnWrite who port v s) := by
  simp only [execPortEnWrite, keepsWaiting_next, State.write_pending, State.lnCtrlWrite_pending, keepsQueue_iff, implies_true]
@[simp] theorem execLnClrCnt_waits (who : Initiator) (port : LanePort) (s : State) : KeepsWaiting s (execLnClrCnt who port s) := by
  simp only [execLnClrCnt, keepsWaiting_next, State.write_pending, State.lnClrCnt_pending, keepsQueue_iff, implies_true]
@[simp] theorem State.countCv_pending (s : State) (p : LanePort) (l n : Nat) : (State.countCv s p l n).pending = s.pending := by
  simp only [State.countCv, State.addSat_pending, State.setPort_pending, State.ite_pending, ite_self]
@[simp] theorem State.endingMarks_pending (s : State) (p : LanePort) (a : Ending) : (State.endingMarks s p a).pending = s.pending := by
  unfold State.endingMarks
  split <;> simp only [State.countCv_pending, State.inc_pending, State.ite_pending, ite_self]
@[simp] theorem State.capDone_pending (s : State) (p : LanePort) : (State.capDone s p).pending = s.pending := by
  simp only [State.capDone, State.setPort_pending, State.ite_pending, ite_self]
@[simp] theorem State.acceptCap_pending (s : State) (p : LanePort) (bs : List Byte) : (State.acceptCap s p bs).pending = s.pending := by
  simp only [State.acceptCap, State.fs_pending, State.setPort_pending, State.wr_pending, State.ite_pending, ite_self]
@[simp] theorem execCapBlockReceived_waits (port : LanePort) (bytes : List Byte) (ending : Ending) (s : State) : KeepsWaiting s (execCapBlockReceived port bytes ending s) := by
  simp only [execCapBlockReceived, keepsWaiting_next, State.setPort_pending, State.raise_pending, State.acceptCap_pending, State.capDone_pending,
    State.ite_pending, ite_self]
@[simp] theorem State.setRoles_pending (s : State) (p : LanePort) : (State.setRoles s p).pending = s.pending := by
  simp only [State.setRoles, State.fs_pending, State.foldl_pending, keepsQueue_iff, implies_true]
@[simp] theorem State.setSpareOk_pending (s : State) (p : LanePort) : (State.setSpareOk s p).pending = s.pending := rfl
@[simp] theorem execPortEnterActive_waits (port : LanePort) (s : State) : KeepsWaiting s (execPortEnterActive port s) := by
  rw [execPortEnterActive, keepsWaiting_next]
  extract_lets x n rx tx s1 s2 s3
  have h3 : s3.pending = s.pending := by
    rw [State.raise_pending, State.setSpareOk_pending, State.setRoles_pending, State.setPort_pending, State.fs_pending, State.fs_pending,
      State.fs_pending]
  split
  · rfl
  · split
    · exact (State.ringEntered_pending ..).trans h3
    · exact (State.ringEntered_pending ..).trans h3
    · rw [State.twinWatch_pending, State.portBack_pending, h3]
@[simp] theorem State.laneCtrl_pending (s : State) (p : RingPort) (op lane cause seq : Nat) : (State.laneCtrl s p op lane cause seq).pending = s.pending := by
  simp only [State.laneCtrl, State.llOut_pending, State.ite_pending, ite_self]
@[simp] theorem State.endSub_pending (s : State) (p : LanePort) (op : Nat) : (State.endSub s p op).pending = s.pending := by
  simp only [State.endSub, State.fs_pending, State.raise_pending, State.setPort_pending]
@[simp] theorem State.requestSub_pending (s : State) (p : RingPort) (l cause : Nat) : (State.requestSub s p l cause).pending = s.pending := by
  simp only [State.requestSub, State.endSub_pending, State.fs_pending, State.laneCtrl_pending, State.raise_pending, State.setPort_pending,
    State.ite_pending, ite_self]
@[simp] theorem State.rxSwitch_pending (s : State) (p : LanePort) (l sp : Nat) : (State.rxSwitch s p l sp).pending = s.pending := by
  unfold State.rxSwitch
  split <;> simp only [State.fs_pending, State.raise_pending, State.setPort_pending, State.setRoles_pending, State.setSpareOk_pending,
    State.setState_pending, State.wearSpared_pending]
@[simp] theorem State.rxConfirm_pending (s : State) (p : RingPort) : (State.rxConfirm s p).pending = s.pending := by
  unfold State.rxConfirm
  split <;> simp only [State.laneCtrl_pending, State.rxSwitch_pending]
@[simp] theorem State.txSwitch_pending (s : State) (p : LanePort) (l sp : Nat) : (State.txSwitch s p l sp).pending = s.pending := by
  unfold State.txSwitch
  split <;> simp only [State.fs_pending, State.raise_pending, State.setPort_pending, State.setSpareOk_pending, State.setState_pending]
@[simp] theorem State.onRing_pending (s : State) (p : LanePort) (f : RingPort → State) (hf : ∀ r, KeepsWaiting s (.next (f r))) : (State.onRing s p f).pending = s.pending := by
  unfold State.onRing
  split
  · next r _ => rw [State.ite_pending, keepsWaiting_next.1 (hf r), ite_self]
  · rfl
@[simp] theorem State.ctrlRequest_pending (s : State) (p : LanePort) (body : List Byte) : (State.ctrlRequest s p body).pending = s.pending := by
  unfold State.ctrlRequest
  dsimp only
  (repeat' split) <;> simp only [State.laneCtrl_pending, State.setPort_pending]
@[simp] theorem State.ctrlUrgent_pending (s : State) (p : LanePort) (body : List Byte) : (State.ctrlUrgent s p body).pending = s.pending := by
  refine State.onRing_pending _ _ _ fun r => keepsWaiting_next.2 ?_
  dsimp only
  split
  · simp only [State.ite_pending, State.laneCtrl_pending, State.setPort_pending, State.txSwitch_pending, ite_self]
  · exact State.laneCtrl_pending ..
@[simp] theorem State.ctrlConfirm_pending (s : State) (p : LanePort) (body : List Byte) : (State.ctrlConfirm s p body).pending = s.pending := by
  refine State.onRing_pending _ _ _ fun r => keepsWaiting_next.2 ?_
  split
  · simp only [State.ite_pending, State.txSwitch_pending, ite_self]
  · rfl
@[simp] theorem State.ctrlCancel_pending (s : State) (p : LanePort) : (State.ctrlCancel s p).pending = s.pending := by
  refine State.onRing_pending _ _ _ fun r => keepsWaiting_next.2 ?_
  extract_lets x
  split
  · extract_lets s1
    rw [State.setSpareOk_pending, State.setPort_pending, State.fs_pending]
  · rfl
@[simp] theorem State.ctrlRefuse_pending (s : State) (p : LanePort) : (State.ctrlRefuse s p).pending = s.pending := by
  refine State.onRing_pending _ _ _ fun r => keepsWaiting_next.2 ?_
  simp only [State.ite_pending, State.leaveActive_pending, State.endSub_pending, ite_self]
@[simp] theorem execLaneCtrlRequestReceived_waits (port : LanePort) (body : List Byte) (s : State) : KeepsWaiting s (execLaneCtrlRequestReceived port body s) := by
  simp only [execLaneCtrlRequestReceived, keepsWaiting_next, State.ctrlRequest_pending]
@[simp] theorem execLaneCtrlUrgentReceived_waits (port : LanePort) (body : List Byte) (s : State) : KeepsWaiting s (execLaneCtrlUrgentReceived port body s) := by
  simp only [execLaneCtrlUrgentReceived, keepsWaiting_next, State.ctrlUrgent_pending]
@[simp] theorem execLaneCtrlConfirmReceived_waits (port : LanePort) (body : List Byte) (s : State) : KeepsWaiting s (execLaneCtrlConfirmReceived port body s) := by
  simp only [execLaneCtrlConfirmReceived, keepsWaiting_next, State.ctrlConfirm_pending]
@[simp] theorem execLaneCtrlCancelReceived_waits (port : LanePort) (x1 : List Byte) (s : State) : KeepsWaiting s (execLaneCtrlCancelReceived port x1 s) := by
  simp only [execLaneCtrlCancelReceived, keepsWaiting_next, State.ctrlCancel_pending]
@[simp] theorem execLaneCtrlRefuseReceived_waits (port : LanePort) (x1 : List Byte) (s : State) : KeepsWaiting s (execLaneCtrlRefuseReceived port x1 s) := by
  simp only [execLaneCtrlRefuseReceived, keepsWaiting_next, State.ctrlRefuse_pending]
@[simp] theorem State.laneCtrlIn_pending (s : State) (p : RingPort) (body : List Byte) : (State.laneCtrlIn s p body).pending = s.pending := by
  simp only [State.laneCtrlIn, State.ctrlCancel_pending, State.ctrlConfirm_pending, State.ctrlRefuse_pending, State.ctrlRequest_pending,
    State.ctrlUrgent_pending, State.ite_pending, ite_self]
@[simp] theorem State.lnSpareWrite_pending (s : State) (p : LanePort) (v : Word) : (State.lnSpareWrite s p v).pending = s.pending := by
  unfold State.lnSpareWrite
  split <;> simp only [State.requestSub_pending, State.ite_pending, ite_self]
@[simp] theorem execLnSpareCmd_waits (who : Initiator) (port : LanePort) (v : Word) (s : State) : KeepsWaiting s (execLnSpareCmd who port v s) := by
  simp only [execLnSpareCmd, keepsWaiting_next, State.write_pending, State.lnSpareWrite_pending, keepsQueue_iff, implies_true]
@[simp] theorem execLaneErrThreshold_waits (port : LanePort) (lane : Fin 5) (s : State) : KeepsWaiting s (execLaneErrThreshold port lane s) := by
  simp only [execLaneErrThreshold, keepsWaiting_next, State.onRing_pending, State.requestSub_pending, implies_true, State.ite_pending, ite_self]
@[simp] theorem execSpareRequestTimeout_waits (port : LanePort) (s : State) : KeepsWaiting s (execSpareRequestTimeout port s) := by
  rw [execSpareRequestTimeout, keepsWaiting_next]
  refine State.onRing_pending _ _ _ fun r => keepsWaiting_next.2 ?_
  extract_lets x
  split
  · rfl
  · simp only [State.ite_pending, State.laneCtrl_pending, State.setPort_pending, State.endSub_pending, ite_self]
@[simp] theorem execSpareCompareDone_waits (port : LanePort) (s : State) : KeepsWaiting s (execSpareCompareDone port s) := by
  simp only [execSpareCompareDone, keepsWaiting_next, State.onRing_pending, State.rxConfirm_pending, implies_true, State.ite_pending, ite_self]
@[simp] theorem execUrgentSubstTimeout_waits (port : LanePort) (s : State) : KeepsWaiting s (execUrgentSubstTimeout port s) := by
  simp only [execUrgentSubstTimeout, keepsWaiting_next, State.leaveActive_pending, State.ite_pending, ite_self]
@[simp] theorem State.tsLock_pending (s : State) (p : LanePort) (lane : Nat) (ok : Bool) : (State.tsLock s p lane ok).pending = s.pending := by
  simp only [State.tsLock, State.setLocked_pending, State.setPort_pending, State.ite_pending, ite_self]
@[simp] theorem State.tsColumn_pending (s : State) (p : LanePort) (lane k : Nat) : (State.tsColumn s p lane k).pending = s.pending := rfl
@[simp] theorem State.tsDeskew_pending (s : State) (p : LanePort) (lane st : Nat) (ok : Bool) : (State.tsDeskew s p lane st ok).pending = s.pending := by
  simp only [State.tsDeskew, State.fs_pending, State.setPort_pending, State.tsColumn_pending, State.ite_pending, ite_self]
@[simp] theorem State.tsCapx_pending (s : State) (p : LanePort) (lane st : Nat) (ok : Bool) : (State.tsCapx s p lane st ok).pending = s.pending := by
  simp only [State.tsCapx, State.capDone_pending, State.setPort_pending, State.ite_pending, ite_self]
@[simp] theorem State.tsActive_pending (s : State) (p : LanePort) (lane st : Nat) : (State.tsActive s p lane st).pending = s.pending := by
  unfold State.tsActive
  dsimp only
  (repeat' split) <;> simp only [State.fs_pending, State.rxSwitch_pending]
@[simp] theorem State.tsMarks_pending (s : State) (p : LanePort) (lane : Nat) (inv : Bool) : (State.tsMarks s p lane inv).pending = s.pending := by
  simp only [State.tsMarks, State.fs_pending, State.ite_pending, ite_self]
@[simp] theorem execTsReceived_waits (port : LanePort) (lane : Fin 5) (inv : Bool) (cv : Fin 5) (bytes : List Byte) (s : State) : KeepsWaiting s (execTsReceived port lane inv cv bytes s) := by
  simp only [execTsReceived, keepsWaiting_next, State.countCv_pending, State.tsMarks_pending, State.tsLock_pending, State.fs_pending,
    State.tsDeskew_pending, State.tsCapx_pending, State.tsActive_pending, State.ite_pending, ite_self]
@[simp] theorem execCcSend_waits (port : LanePort) (s : State) : KeepsWaiting s (execCcSend port s) := by
  simp only [execCcSend, keepsWaiting_next, State.setPort_pending, State.ite_pending, ite_self]
@[simp] theorem State.elastic_pending (s : State) (p : LanePort) (fill : Nat) : (State.elastic s p fill).pending = s.pending := by
  simp only [State.elastic, State.addWrap_pending, State.ite_pending, ite_self]
@[simp] theorem execCcReceived_waits (port : LanePort) (fills : List Nat) (deskew : Nat) (cv : List Nat) (s : State) : KeepsWaiting s (execCcReceived port fills deskew cv s) := by
  unfold execCcReceived
  dsimp only
  (repeat' split) <;> simp only [keepsWaiting_next, State.countCv_pending, State.addSat_pending, State.elastic_pending, State.foldl_pending,
    keepsQueue_iff, implies_true]
@[simp] theorem execElasticErr_waits (port : LanePort) (s : State) : KeepsWaiting s (execElasticErr port s) := by
  simp only [execElasticErr, keepsWaiting_next, State.countCv_pending, State.closeArriving_pending, State.raise_pending, State.foldl_pending,
    keepsQueue_iff, implies_true]
@[simp] theorem State.faultMarks_pending (s : State) (p : LanePort) (l : Nat) (a : LaneCause) : (State.faultMarks s p l a).pending = s.pending := by
  cases a with
  | signal => exact State.fs_pending ..
  | lock => exact (State.inc_pending ..).trans (State.setLocked_pending ..)
  | violations => exact State.countCv_pending ..
@[simp] theorem State.spareLost_pending (s : State) (p : LanePort) (l : Nat) : (State.spareLost s p l).pending = s.pending := by
  unfold State.spareLost
  split <;> simp only [State.fs_pending, State.laneCtrl_pending, State.raise_pending, State.setPort_pending, State.setRoles_pending,
    State.setSpareOk_pending, State.ite_pending, ite_self]
@[simp] theorem State.laneFaultUsed_pending (s : State) (p : LanePort) (l : Nat) : (State.laneFaultUsed s p l).pending = s.pending := by
  unfold State.laneFaultUsed
  split <;> simp only [State.closeArriving_pending, State.fs_pending, State.laneCtrl_pending, State.leaveActive_pending, State.raise_pending,
    State.rxConfirm_pending, State.setPort_pending, State.ite_pending, ite_self]
@[simp] theorem execLaneFault_waits (port : LanePort) (lane : Fin 5) (cause : LaneCause) (s : State) : KeepsWaiting s (execLaneFault port lane cause s) := by
  simp only [execLaneFault, keepsWaiting_next, State.faultMarks_pending, State.laneFaultUsed_pending, State.spareLost_pending, State.ite_pending,
    ite_self]
@[simp] theorem State.scanStart_pending (s : State) : (State.scanStart s).pending = s.pending := rfl
@[simp] theorem State.scanCommitted_pending (s : State) : (State.scanCommitted s).pending = s.pending := by
  simp only [State.scanCommitted, State.ite_pending, ite_self]
@[simp] theorem State.sendRange_pending (s : State) (img : Image) (mtype dst stream epoch grain m len pub : Nat) : (State.sendRange s img mtype dst stream epoch grain m len pub).pending = s.pending := by
  simp only [State.sendRange, State.copyRead_pending, State.originate_pending, State.foldl_pending, keepsQueue_iff, implies_true]
@[simp] theorem State.publish_pending (n : Nat) (s : State) (k : Nat) : (State.publish n s k).pending = s.pending := by
  simp only [State.publish, State.sendRange_pending, State.ite_pending, ite_self]
@[simp] theorem State.opublish_pending (r : Nat) (s : State) (k : Nat) : (State.opublish r s k).pending = s.pending := by
  simp only [State.opublish, State.sendRange_pending, State.ite_pending, ite_self]
@[simp] theorem State.cutPub_pending (s : State) (k : Nat) : (State.cutPub s k).pending = s.pending := by
  simp only [State.cutPub, State.inc_pending, State.setIng_pending, State.ite_pending, ite_self]
@[simp] theorem State.settle_pending (e : Nat) (s : State) (j : Nat) : (State.settle e s j).pending = s.pending := by
  simp only [State.settle, State.fs_pending, State.inc_pending, State.raise_pending, State.wr_pending, State.ite_pending, ite_self]
@[simp] theorem State.heldWrites_pending (s : State) : (State.heldWrites s).pending = s.pending := by
  simp only [State.heldWrites, State.grpPut_pending, State.foldl_pending, keepsQueue_iff, implies_true]
@[simp] theorem State.scanStop_pending (s : State) : (State.scanStop s).pending = s.pending := by
  simp only [State.scanStop, State.fs_pending, State.setState_pending]
@[simp] theorem State.scanBoundary_pending (s : State) : (State.scanBoundary s).pending = s.pending := by
  simp only [State.scanBoundary, State.cutPub_pending, State.flip_pending, State.fs_pending, State.heldWrites_pending, State.raise_pending,
    State.scanStop_pending, State.settle_pending, State.wr_pending, State.foldl_pending, keepsQueue_iff, implies_true, State.ite_pending, ite_self]
@[simp] theorem State.latchAll_pending (s : State) : (State.latchAll s).pending = s.pending := by
  simp only [State.latchAll, State.grpPut_pending, State.foldl_pending, keepsQueue_iff, implies_true]
@[simp] theorem State.publishAll_pending (s : State) : (State.publishAll s).pending = s.pending := by
  simp only [State.publishAll, State.opublish_pending, State.publish_pending, State.foldl_pending, keepsQueue_iff, implies_true, State.ite_pending,
    ite_self]
@[simp] theorem State.release_pending (s : State) (g : Nat) : (State.release s g).pending = s.pending := by
  simp only [State.release, State.place_pending, State.setChan_pending, State.ite_pending, ite_self]
@[simp] theorem State.lateOut_pending (s : State) (grain g : Nat) : (State.lateOut s grain g).pending = s.pending := by
  simp only [State.lateOut, State.inc_pending, State.raise_pending, State.wr_pending, State.foldl_pending, keepsQueue_iff, implies_true]
@[simp] theorem State.guardGroup_pending (s : State) (m : Nat) : (State.guardGroup s m).pending = s.pending := by
  simp only [State.guardGroup, State.copyRead_pending, State.lateOut_pending, State.release_pending, State.foldl_pending, keepsQueue_iff,
    implies_true, State.ite_pending, ite_self]
@[simp] theorem execGuardStart_waits (s : State) : KeepsWaiting s (execGuardStart s) := by
  simp only [execGuardStart, keepsWaiting_next, State.guardGroup_pending, State.fs_pending, State.foldl_pending, keepsQueue_iff, implies_true,
    State.ite_pending, ite_self]
@[simp] theorem State.putGroups_pending (s : State) (img : Image) (m g : Nat) (pay : List Byte) : (State.putGroups s img m g pay).pending = s.pending := by
  simp only [State.putGroups, State.grpPut_pending, State.foldl_pending, keepsQueue_iff, implies_true]
@[simp] theorem State.badFrame_pending (s : State) : (State.badFrame s).pending = s.pending := by
  simp only [State.badFrame, State.inc_pending, State.raise_pending]
@[simp] theorem State.takePublish_pending (s : State) (f : Frame) (g : Nat) : (State.takePublish s f g).pending = s.pending := by
  unfold State.takePublish
  dsimp only
  (repeat' split) <;> simp only [State.badFrame_pending, State.inc_pending, State.putGroups_pending, State.raise_pending, State.raiseIf_pending]
@[simp] theorem State.takeOutput_pending (s : State) (f : Frame) (g : Nat) : (State.takeOutput s f g).pending = s.pending := by
  simp only [State.takeOutput, State.badFrame_pending, State.inc_pending, State.lateOut_pending, State.putGroups_pending, State.raise_pending,
    State.ite_pending, ite_self]
@[simp] theorem State.takeCanopy_pending (s : State) (f : Frame) : (State.takeCanopy s f).pending = s.pending := by
  simp only [State.takeCanopy, State.badFrame_pending, State.inc_pending, State.takeOutput_pending, State.takePublish_pending, State.ite_pending,
    ite_self]
@[simp] theorem execScanFrameTake_waits (s : State) : KeepsWaiting s (execScanFrameTake s) := by
  unfold execScanFrameTake
  split <;> simp only [keepsWaiting_next, State.setInbox_pending, State.takeCanopy_pending, State.inc_pending, State.ite_pending, ite_self]
@[simp] theorem State.scOpubSend_pending (s : State) (v : Word) : (State.scOpubSend s v).pending = s.pending := by
  simp only [State.scOpubSend, State.inc_pending, State.opublish_pending, State.raise_pending, State.foldl_pending, keepsQueue_iff, implies_true,
    State.ite_pending, ite_self]
@[simp] theorem execScOpubSend_waits (who : Initiator) (v : Word) (s : State) : KeepsWaiting s (execScOpubSend who v s) := by
  simp only [execScOpubSend, keepsWaiting_next, State.write_pending, State.scOpubSend_pending, keepsQueue_iff, implies_true]
@[simp] theorem State.scClrCnt_pending (s : State) : (State.scClrCnt s).pending = s.pending := rfl
@[simp] theorem execScClrCnt_waits (who : Initiator) (s : State) : KeepsWaiting s (execScClrCnt who s) := by
  simp only [execScClrCnt, keepsWaiting_next, State.write_pending, State.scClrCnt_pending, keepsQueue_iff, implies_true]
@[simp] theorem State.spTrack_pending (s : State) (x1 row : Nat) : (State.spTrack s x1 row).pending = s.pending := by
  unfold State.spTrack
  dsimp only
  (repeat' split) <;> simp only [State.setSpBank_pending, State.tookFree_pending]
@[simp] theorem State.spNote_pending (s : State) (w : Nat) : (State.spNote s w).pending = s.pending := by
  simp only [State.spNote, State.inc_pending, State.raise_pending, State.spTrack_pending, State.wr_pending, State.ite_pending, ite_self]
@[simp] theorem State.spPut_pending (s : State) (w : Nat) (data : Word) (be : BitVec 4) : (State.spPut s w data be).pending = s.pending := rfl
@[simp] theorem State.spWordAccess_pending (s : State) (w : Nat) (write : Bool) (data : Word) (be : BitVec 4) : (State.spWordAccess s w write data be).1.pending = s.pending := by
  unfold State.spWordAccess
  dsimp only
  (repeat' split) <;> simp only [State.spNote_pending, State.spPut_pending]
@[simp] theorem State.spUnaligned_pending (s : State) (a : Nat) (write : Bool) (data : Word) (be : BitVec 4) : (State.spUnaligned s a write data be).1.pending = s.pending := by
  unfold State.spUnaligned
  dsimp only
  (repeat' split) <;> simp only [State.spNote_pending, State.spPut_pending]
@[simp] theorem State.spForeign_pending (s : State) : (State.spForeign s).pending = s.pending := by
  simp only [State.spForeign, State.inc_pending, State.raise_pending]
@[simp] theorem State.spAccess_pending (s : State) (code a : Nat) (write : Bool) (data : Word) (be : BitVec 4) : (State.spAccess s code a write data be).1.pending = s.pending := by
  unfold State.spAccess
  split
  · rfl
  · split
    · rfl
    · exact State.spForeign_pending ..
    · rfl
    · extract_lets x
      simp only [x, ite_fst_pending, State.spWordAccess_pending, State.spUnaligned_pending, ite_self]
@[simp] theorem State.spLocal_pending (s : State) (who : Initiator) (a : Nat) (write : Bool) (data : Word) (be : BitVec 4) : (State.spLocal s who a write data be).pending = s.pending := by
  unfold State.spLocal
  split <;> next e => simp [pending_of_pair e]
@[simp] theorem execScratchpadAccess_waits (who : Initiator) (addr : Nat) (write : Bool) (data : Word) (be : BitVec 4) (s : State) : KeepsWaiting s (execScratchpadAccess who addr write data be s) := by
  simp only [execScratchpadAccess, keepsWaiting_next, State.touch_pending, State.spLocal_pending, State.answer_pending, State.ite_pending, ite_self]
@[simp] theorem State.bankRefuse_pending (s : State) (r : Nat) : (State.bankRefuse s r).pending = s.pending := by
  simp only [State.bankRefuse, State.fs_pending, State.raise_pending]
@[simp] theorem State.bankDone_pending (s : State) : (State.bankDone s).pending = s.pending := by
  simp only [State.bankDone, State.fs_pending, State.raise_pending]
@[simp] theorem State.bankCmd_pending (s : State) (v : Word) : (State.bankCmd s v).pending = s.pending := by
  simp only [State.bankCmd, State.bankDone_pending, State.bankRefuse_pending, State.fs_pending, State.setSpBank_pending, State.ite_pending, ite_self]
@[simp] theorem State.bankDrained_pending (s : State) (x1 : Nat) : (State.bankDrained s x1).pending = s.pending := by
  unfold State.bankDrained
  split <;> simp only [State.bankDone_pending, State.fs_pending, State.setSpBank_pending, State.spZero_pending, State.ite_pending, ite_self]
@[simp] theorem execBankHandover_waits (who : Initiator) (v : Word) (s : State) : KeepsWaiting s (execBankHandover who v s) := by
  simp only [execBankHandover, keepsWaiting_next, State.write_pending, State.bankCmd_pending, keepsQueue_iff, implies_true]
@[simp] theorem execBankPowerOn_waits (who : Initiator) (v : Word) (s : State) : KeepsWaiting s (execBankPowerOn who v s) := by
  simp only [execBankPowerOn, keepsWaiting_next, State.write_pending, State.bankCmd_pending, keepsQueue_iff, implies_true]
@[simp] theorem execBankPowerRetention_waits (who : Initiator) (v : Word) (s : State) : KeepsWaiting s (execBankPowerRetention who v s) := by
  simp only [execBankPowerRetention, keepsWaiting_next, State.write_pending, State.bankCmd_pending, keepsQueue_iff, implies_true]
@[simp] theorem execBankPowerOff_waits (who : Initiator) (v : Word) (s : State) : KeepsWaiting s (execBankPowerOff who v s) := by
  simp only [execBankPowerOff, keepsWaiting_next, State.write_pending, State.bankCmd_pending, keepsQueue_iff, implies_true]
@[simp] theorem execBankInitDone_waits (bank : Fin 8) (s : State) : KeepsWaiting s (execBankInitDone bank s) := by
  simp only [execBankInitDone, keepsWaiting_next, State.spZero_pending, State.setSpBank_pending, State.fs_pending, State.bankDone_pending,
    State.ite_pending, ite_self]
@[simp] theorem execSpRowEccThreshold_waits (bank : Fin 8) (row : Nat) (s : State) : KeepsWaiting s (execSpRowEccThreshold bank row s) := by
  simp only [execSpRowEccThreshold, keepsWaiting_next, State.ite_pending, ite_self]
@[simp] theorem State.showSpares_pending (s : State) (x1 : Nat) : (State.showSpares s x1).pending = s.pending := rfl
@[simp] theorem State.rowRepair_pending (s : State) (x1 row cause : Nat) : (State.rowRepair s x1 row cause).pending = s.pending := by
  simp only [State.rowRepair, State.raise_pending, State.recordRepair_pending, State.setSpBank_pending, State.setState_pending,
    State.showSpares_pending, State.tookFree_pending, State.ite_pending, ite_self]
@[simp] theorem execRowRepair_waits (bank : Fin 8) (row : Nat) (s : State) : KeepsWaiting s (execRowRepair bank row s) := by
  unfold execRowRepair
  split <;> simp only [keepsWaiting_next, State.rowRepair_pending]
@[simp] theorem State.marchState_pending (s : State) (n : Nat) : (State.marchState s n).pending = s.pending := rfl
@[simp] theorem State.showTesting_pending (s : State) (bs : List Nat) (v : Nat) : (State.showTesting s bs v).pending = s.pending := by
  simp only [State.showTesting, State.fs_pending, State.foldl_pending, keepsQueue_iff, implies_true]
@[simp] theorem State.coreUnready_pending (s : State) : (State.coreUnready s).pending = s.pending := by
  simp only [State.coreUnready, State.unready_pending, State.coreDiscard_pending, State.foldl_pending, keepsQueue_iff, implies_true]
@[simp] theorem State.marchGo_pending (s : State) (v : Word) : (State.marchGo s v).pending = s.pending := by
  simp only [State.marchGo, State.coreUnready_pending, State.fs_pending, State.marchState_pending, State.showTesting_pending, State.unready_pending,
    State.ite_pending, ite_self]
@[simp] theorem State.marchAbort_pending (s : State) : (State.marchAbort s).pending = s.pending := by unfold State.marchAbort; split <;> simp only []
@[simp] theorem State.marchCmd_pending (s : State) (v : Word) : (State.marchCmd s v).pending = s.pending := by
  simp only [State.marchCmd, State.marchAbort_pending, State.marchGo_pending, State.ite_pending, ite_self]
@[simp] theorem execMarchGo_waits (who : Initiator) (v : Word) (s : State) : KeepsWaiting s (execMarchGo who v s) := by
  simp only [execMarchGo, keepsWaiting_next, State.write_pending, State.marchCmd_pending, keepsQueue_iff, implies_true]
@[simp] theorem execMarchAbort_waits (who : Initiator) (s : State) : KeepsWaiting s (execMarchAbort who s) := by
  simp only [execMarchAbort, keepsWaiting_next, State.write_pending, State.marchAbort_pending, keepsQueue_iff, implies_true]
@[simp] theorem State.marchFail_pending (s : State) (memory bank row : Nat) : (State.marchFail s memory bank row).pending = s.pending := by
  simp only [State.marchFail, State.inc_pending, State.raise_pending, State.rowRepair_pending, State.setSpBank_pending, State.showSpares_pending,
    State.wr_pending, State.ite_pending, ite_self]
@[simp] theorem State.marchSpares_pending (s : State) (bs : List Nat) : (State.marchSpares s bs).pending = s.pending := by
  unfold State.marchSpares
  split
  · rfl
  · split <;> simp
@[simp] theorem State.memZero_pending (s : State) (memory : Nat) (bs : List Nat) : (State.memZero s memory bs).pending = s.pending := by
  simp only [State.memZero, State.setSpBank_pending, State.spZero_pending, State.foldl_pending, keepsQueue_iff, implies_true, State.ite_pending,
    ite_self]
@[simp] theorem State.marchEnd_pending (s : State) (m : March) (failed : Bool) : (State.marchEnd s m failed).pending = s.pending := by
  simp only [State.marchEnd, State.marchSpares_pending, State.marchState_pending, State.raise_pending, State.showTesting_pending]
@[simp] theorem State.marchStopped_pending (s : State) (m : March) : (State.marchStopped s m).pending = s.pending := by
  simp only [State.marchStopped, State.marchSpares_pending, State.marchState_pending, State.raise_pending, State.setSpBank_pending,
    State.showTesting_pending, State.foldl_pending, keepsQueue_iff, implies_true, State.ite_pending, ite_self]
@[simp] theorem execMarchRowStep_waits (fails : Bool) (s : State) : KeepsWaiting s (execMarchRowStep fails s) := by
  unfold execMarchRowStep
  split <;> simp only [keepsWaiting_next, State.marchFail_pending, State.marchStopped_pending, State.ite_pending, ite_self]
@[simp] theorem State.powerOnEnd_pending (s : State) (k : Nat) (failing : List (Nat × Nat)) : (State.powerOnEnd s k failing).pending = s.pending := by
  simp only [State.powerOnEnd, State.marchFail_pending, State.marchSpares_pending, State.marchState_pending, State.memZero_pending,
    State.raise_pending, State.foldl_pending, keepsQueue_iff, implies_true]
@[simp] theorem execMarchRunDone_waits (mem : Fin 3) (failing : List (Nat × Nat)) (s : State) : KeepsWaiting s (execMarchRunDone mem failing s) := by
  unfold execMarchRunDone
  dsimp only
  (repeat' split) <;> simp only [keepsWaiting_next, State.powerOnEnd_pending, State.marchEnd_pending, State.memZero_pending, State.marchFail_pending,
    State.marchStopped_pending, State.foldl_pending, keepsQueue_iff, implies_true]
@[simp] theorem State.memClrCnt_pending (s : State) : (State.memClrCnt s).pending = s.pending := rfl
@[simp] theorem execMemClrCnt_waits (who : Initiator) (s : State) : KeepsWaiting s (execMemClrCnt who s) := by
  simp only [execMemClrCnt, keepsWaiting_next, State.write_pending, State.memClrCnt_pending, keepsQueue_iff, implies_true]
@[simp] theorem State.memReset_pending (s : State) : (State.memReset s).pending = s.pending := by
  unfold State.memReset
  split <;> simp only [State.fs_pending, State.marchStopped_pending, State.setSpBank_pending, State.showSpares_pending, State.showTable_pending,
    State.foldl_pending, keepsQueue_iff, implies_true, State.ite_pending, ite_self]
@[simp] theorem State.histWrite_pending (s : State) (n : Nat) : (State.histWrite s n).pending = s.pending := by
  unfold State.histWrite
  extract_lets cfg slot b w
  split
  · rfl
  · split
    · exact (State.raise_pending ..).trans (State.inc_pending ..)
    · exact State.foldl_pending (fun _ _ => State.spPut_pending ..) ..
@[simp] theorem State.supSend_pending (p off : Nat) (v : Word) (s : State) : (State.supSend p off v s).pending = s.pending := rfl
@[simp] theorem State.gateOff_pending (s : State) (n : Nat) : (State.gateOff s n).pending = s.pending := by
  simp only [State.gateOff, State.fs_pending, State.raise_pending, State.setPwr_pending, State.ite_pending, ite_self]
@[simp] theorem State.gateOffFor_pending (s : State) (n cause : Nat) : (State.gateOffFor s n cause).pending = s.pending := by
  simp only [State.gateOffFor, State.fs_pending, State.gateOff_pending, State.ite_pending, ite_self]
@[simp] theorem State.ppGo_pending (s : State) (n st : Nat) : (State.ppGo s n st).pending = s.pending := rfl
@[simp] theorem State.ppStand_pending (s : State) (n : Nat) : (State.ppStand s n).pending = s.pending := by
  simp only [State.ppStand, State.fs_pending, State.gateOff_pending, State.ppGo_pending]
@[simp] theorem State.ppEnterInsert_pending (s : State) (n : Nat) (fast : Bool) : (State.ppEnterInsert s n fast).pending = s.pending := by
  simp only [State.ppEnterInsert, State.ppGo_pending, State.ppStand_pending, State.setPwr_pending, State.ite_pending, ite_self]
@[simp] theorem State.ppStart_pending (s : State) (n : Nat) : (State.ppStart s n).pending = s.pending := by
  simp only [State.ppStart, State.ppEnterInsert_pending, State.ppGo_pending, State.ite_pending, ite_self]
@[simp] theorem State.ppLeave_pending (s : State) (n cause st : Nat) : (State.ppLeave s n cause st).pending = s.pending := by
  simp only [State.ppLeave, State.fs_pending, State.gateOffFor_pending, State.ppGo_pending, State.setPwr_pending]
@[simp] theorem State.ppStop_pending (s : State) (n : Nat) : (State.ppStop s n).pending = s.pending := by
  simp only [State.ppStop, State.ppLeave_pending]
@[simp] theorem State.ppClamp_pending (s : State) (n : Nat) : (State.ppClamp s n).pending = s.pending := by
  simp only [State.ppClamp, State.fs_pending, State.ppGo_pending, State.setPwr_pending, State.ite_pending, ite_self]
@[simp] theorem presenceChange_pending (pitch : Pitch) (pres seat : Bool) (s : State) : (presenceChange pitch pres seat s).pending = s.pending := by
  simp only [presenceChange, State.fs_pending, State.ppEnterInsert_pending, State.ppLeave_pending, State.raiseIf_pending, State.ite_pending, ite_self]
@[simp] theorem execPresenceChange_waits (pitch : Pitch) (pres seat : Bool) (s : State) : KeepsWaiting s (execPresenceChange pitch pres seat s) := by
  simp only [execPresenceChange, keepsWaiting_next, presenceChange_pending]
@[simp] theorem insertConditionMet_pending (pitch : Pitch) (s : State) : (insertConditionMet pitch s).pending = s.pending := by
  simp only [insertConditionMet, State.inc_pending, State.ppGo_pending, State.ite_pending, ite_self]
@[simp] theorem execInsertConditionMet_waits (pitch : Pitch) (s : State) : KeepsWaiting s (execInsertConditionMet pitch s) := by
  simp only [execInsertConditionMet, keepsWaiting_next, insertConditionMet_pending]
@[simp] theorem State.poleFail_pending (s : State) (n cause ev : Nat) : (State.poleFail s n cause ev).pending = s.pending := by
  simp only [State.poleFail, State.fs_pending, State.gateOff_pending, State.inc_pending, State.ppGo_pending, State.raise_pending]
@[simp] theorem precheckDone_pending (pitch : Pitch) (s : State) : (precheckDone pitch s).pending = s.pending := by
  simp only [precheckDone, State.fs_pending, State.poleFail_pending, State.ppGo_pending, State.ite_pending, ite_self]
@[simp] theorem execPrecheckDone_waits (pitch : Pitch) (s : State) : KeepsWaiting s (execPrecheckDone pitch s) := by
  simp only [execPrecheckDone, keepsWaiting_next, precheckDone_pending]
@[simp] theorem rampReached_pending (pitch : Pitch) (s : State) : (rampReached pitch s).pending = s.pending := by
  simp only [rampReached, State.ppGo_pending, State.ite_pending, ite_self]
@[simp] theorem execRampReached_waits (pitch : Pitch) (s : State) : KeepsWaiting s (execRampReached pitch s) := by
  simp only [execRampReached, keepsWaiting_next, rampReached_pending]
@[simp] theorem rampTimeout_pending (pitch : Pitch) (s : State) : (rampTimeout pitch s).pending = s.pending := by
  simp only [rampTimeout, State.poleFail_pending, State.ite_pending, ite_self]
@[simp] theorem execRampTimeout_waits (pitch : Pitch) (s : State) : KeepsWaiting s (execRampTimeout pitch s) := by
  simp only [execRampTimeout, keepsWaiting_next, rampTimeout_pending]
@[simp] theorem enhanceDone_pending (pitch : Pitch) (s : State) : (enhanceDone pitch s).pending = s.pending := by
  simp only [enhanceDone, State.ppGo_pending, State.ite_pending, ite_self]
@[simp] theorem execEnhanceDone_waits (pitch : Pitch) (s : State) : KeepsWaiting s (execEnhanceDone pitch s) := by
  simp only [execEnhanceDone, keepsWaiting_next, enhanceDone_pending]
@[simp] theorem powerGoodGiven_pending (pitch : Pitch) (s : State) : (powerGoodGiven pitch s).pending = s.pending := by
  simp only [powerGoodGiven, State.fs_pending, State.raise_pending, State.ite_pending, ite_self]
@[simp] theorem execPowerGoodGiven_waits (pitch : Pitch) (s : State) : KeepsWaiting s (execPowerGoodGiven pitch s) := by
  simp only [execPowerGoodGiven, keepsWaiting_next, powerGoodGiven_pending]
@[simp] theorem busWindowFault_pending (pitch : Pitch) (s : State) : (busWindowFault pitch s).pending = s.pending := by
  simp only [busWindowFault, State.fs_pending, State.gateOff_pending, State.ppEnterInsert_pending, State.raise_pending, State.ite_pending, ite_self]
@[simp] theorem execBusWindowFault_waits (pitch : Pitch) (s : State) : KeepsWaiting s (execBusWindowFault pitch s) := by
  simp only [execBusWindowFault, keepsWaiting_next, busWindowFault_pending]
@[simp] theorem seatOpenExtract_pending (pitch : Pitch) (s : State) : (seatOpenExtract pitch s).pending = s.pending := by
  simp only [seatOpenExtract, State.fs_pending, State.gateOff_pending, State.ppGo_pending, State.raise_pending, State.ite_pending, ite_self]
@[simp] theorem execSeatOpenExtract_waits (pitch : Pitch) (s : State) : KeepsWaiting s (execSeatOpenExtract pitch s) := by
  simp only [execSeatOpenExtract, keepsWaiting_next, seatOpenExtract_pending]
@[simp] theorem State.ppRole_pending (s : State) (n : Nat) : (State.ppRole s n).pending = s.pending := by
  simp only [State.ppRole, State.ppEnterInsert_pending, State.ppStand_pending, State.ite_pending, ite_self]
@[simp] theorem roleToSupervisor_pending (s : State) : (roleToSupervisor s).pending = s.pending := by
  simp only [roleToSupervisor, State.ppRole_pending, State.foldl_pending, keepsQueue_iff, implies_true, State.ite_pending, ite_self]
@[simp] theorem execRoleToSupervisor_waits (s : State) : KeepsWaiting s (execRoleToSupervisor s) := by
  simp only [execRoleToSupervisor, keepsWaiting_next, roleToSupervisor_pending]
@[simp] theorem State.ppTrip_pending (s : State) (n cause : Nat) : (State.ppTrip s n cause).pending = s.pending := by
  simp only [State.ppTrip, State.fs_pending, State.gateOff_pending, State.inc_pending, State.ppGo_pending, State.raise_pending, State.ite_pending,
    ite_self]
@[simp] theorem instantTrip_pending (pitch : Pitch) (s : State) : (instantTrip pitch s).pending = s.pending := by
  simp only [instantTrip, State.ppTrip_pending, State.ite_pending, ite_self]
@[simp] theorem execInstantTrip_waits (pitch : Pitch) (s : State) : KeepsWaiting s (execInstantTrip pitch s) := by
  simp only [execInstantTrip, keepsWaiting_next, instantTrip_pending]
@[simp] theorem breakerTrip_pending (pitch : Pitch) (s : State) : (breakerTrip pitch s).pending = s.pending := by
  simp only [breakerTrip, State.fs_pending, State.ppTrip_pending, State.tookFree_pending, State.ite_pending, ite_self]
@[simp] theorem execBreakerTrip_waits (pitch : Pitch) (s : State) : KeepsWaiting s (execBreakerTrip pitch s) := by
  simp only [execBreakerTrip, keepsWaiting_next, breakerTrip_pending]
@[simp] theorem coolDone_pending (pitch : Pitch) (s : State) : (coolDone pitch s).pending = s.pending := by
  simp only [coolDone, State.ppEnterInsert_pending, State.ite_pending, ite_self]
@[simp] theorem execCoolDone_waits (pitch : Pitch) (s : State) : KeepsWaiting s (execCoolDone pitch s) := by
  simp only [execCoolDone, keepsWaiting_next, coolDone_pending]
@[simp] theorem State.ppClearLatch_pending (s : State) (n : Nat) : (State.ppClearLatch s n).pending = s.pending := by
  simp only [State.ppClearLatch, State.fs_pending, State.ppEnterInsert_pending, State.ite_pending, ite_self]
@[simp] theorem execClearLatch_waits (who : Initiator) (pitch : Pitch) (s : State) : KeepsWaiting s (execClearLatch who pitch s) := by
  simp only [execClearLatch, keepsWaiting_next, State.write_pending, State.supSend_pending, keepsQueue_iff, implies_true]
@[simp] theorem attemptsClear_pending (pitch : Pitch) (s : State) : (attemptsClear pitch s).pending = s.pending := by
  simp only [attemptsClear, State.fs_pending, State.ite_pending, ite_self]
@[simp] theorem execAttemptsClear_waits (pitch : Pitch) (s : State) : KeepsWaiting s (execAttemptsClear pitch s) := by
  simp only [execAttemptsClear, keepsWaiting_next, attemptsClear_pending]
@[simp] theorem State.rdsCaptured_pending (s : State) (n r : Nat) : (State.rdsCaptured s n r).pending = s.pending := by
  unfold State.rdsCaptured
  split <;> simp only [State.fs_pending, State.setPwr_pending, State.tookFree_pending, State.ite_pending, ite_self]
@[simp] theorem rdsMeasure_pending (pitch : Pitch) (s : State) : (rdsMeasure pitch s).pending = s.pending := by
  simp only [rdsMeasure, State.fs_pending, State.raiseIf_pending, State.rdsCaptured_pending, State.tookFree_pending, State.ite_pending, ite_self]
@[simp] theorem execRdsMeasure_waits (pitch : Pitch) (s : State) : KeepsWaiting s (execRdsMeasure pitch s) := by
  simp only [execRdsMeasure, keepsWaiting_next, rdsMeasure_pending]
@[simp] theorem State.ppCapture_pending (s : State) (n : Nat) : (State.ppCapture s n).pending = s.pending := rfl
@[simp] theorem execRdsCapture_waits (who : Initiator) (pitch : Pitch) (s : State) : KeepsWaiting s (execRdsCapture who pitch s) := by
  simp only [execRdsCapture, keepsWaiting_next, State.write_pending, State.supSend_pending, keepsQueue_iff, implies_true]
@[simp] theorem State.ppClrCnt_pending (s : State) (n : Nat) : (State.ppClrCnt s n).pending = s.pending := rfl
@[simp] theorem execPpClrCnt_waits (who : Initiator) (pitch : Pitch) (s : State) : KeepsWaiting s (execPpClrCnt who pitch s) := by
  simp only [execPpClrCnt, keepsWaiting_next, State.write_pending, State.supSend_pending, keepsQueue_iff, implies_true]
@[simp] theorem State.ppCtrl_pending (s : State) (n : Nat) (v : Word) : (State.ppCtrl s n v).pending = s.pending := by
  simp only [State.ppCtrl, State.ppCapture_pending, State.ppClearLatch_pending, State.ppClrCnt_pending, State.ite_pending, ite_self]
@[simp] theorem State.showTimer_pending (s : State) (n : Nat) : (State.showTimer s n).pending = s.pending := rfl
@[simp] theorem State.insStep_pending (s : State) (n : Nat) : (State.insStep s n).pending = s.pending := rfl
@[simp] theorem State.ppSample_pending (s : State) (n code vout : Nat) : (State.ppSample s n code vout).pending = s.pending := by
  simp only [State.ppSample, State.fs_pending, State.insStep_pending, State.poleFail_pending, State.setPwr_pending, State.showTimer_pending,
    State.ite_pending, ite_self]
@[simp] theorem State.setFeed_pending (s : State) (f : Feed) (x : FeedSt) : (State.setFeed s f x).pending = s.pending := by
  unfold State.setFeed
  split <;> simp only [State.setFeeds_pending]
@[simp] theorem State.setFdOk_pending (s : State) (f : Feed) (v : Bool) : (State.setFdOk s f v).pending = s.pending := by
  unfold State.setFdOk
  split <;> simp only [State.fs_pending]
@[simp] theorem State.setFdOv_pending (s : State) (f : Feed) (v : Bool) : (State.setFdOv s f v).pending = s.pending := by
  unfold State.setFdOv
  split <;> simp only [State.fs_pending]
@[simp] theorem State.huUpdate_pending (s : State) : (State.huUpdate s).pending = s.pending := rfl
@[simp] theorem State.noFeed_pending (s : State) : (State.noFeed s).pending = s.pending := by
  simp only [State.noFeed, State.fs_pending, State.huUpdate_pending, State.inc_pending, State.raise_pending, State.setFeeds_pending]
@[simp] theorem State.reselect_pending (s : State) : (State.reselect s).pending = s.pending := by
  simp only [State.reselect, State.fs_pending, State.huUpdate_pending, State.noFeed_pending, State.setFeeds_pending, State.ite_pending, ite_self]
@[simp] theorem State.fdFollow_pending (s : State) (f : Feed) : (State.fdFollow s f).pending = s.pending := by
  simp only [State.fdFollow, State.raiseIf_pending, State.setFdOk_pending, State.ite_pending, ite_self]
@[simp] theorem feedQualified_pending (f : Feed) (s : State) : (feedQualified f s).pending = s.pending := by
  simp only [feedQualified, State.fdFollow_pending, State.reselect_pending, State.ite_pending, ite_self]
@[simp] theorem execFeedQualified_waits (feed : Feed) (s : State) : KeepsWaiting s (execFeedQualified feed s) := by
  simp only [execFeedQualified, keepsWaiting_next, feedQualified_pending]
@[simp] theorem feedLost_pending (f : Feed) (s : State) : (feedLost f s).pending = s.pending := by
  simp only [feedLost, State.fdFollow_pending, State.reselect_pending, State.ite_pending, ite_self]
@[simp] theorem execFeedLost_waits (feed : Feed) (s : State) : KeepsWaiting s (execFeedLost feed s) := by
  simp only [execFeedLost, keepsWaiting_next, feedLost_pending]
@[simp] theorem changeoverDeadEnd_pending (s : State) : (changeoverDeadEnd s).pending = s.pending := by
  simp only [changeoverDeadEnd, State.fs_pending, State.huUpdate_pending, State.noFeed_pending, State.setFeeds_pending, State.ite_pending, ite_self]
@[simp] theorem execChangeoverDeadEnd_waits (s : State) : KeepsWaiting s (execChangeoverDeadEnd s) := by
  simp only [execChangeoverDeadEnd, keepsWaiting_next, changeoverDeadEnd_pending]
@[simp] theorem changeoverEnd_pending (s : State) : (changeoverEnd s).pending = s.pending := by
  simp only [changeoverEnd, State.fs_pending, State.huUpdate_pending, State.inc_pending, State.raise_pending, State.ite_pending, ite_self]
@[simp] theorem execChangeoverEnd_waits (s : State) : KeepsWaiting s (execChangeoverEnd s) := by
  simp only [execChangeoverEnd, keepsWaiting_next, changeoverEnd_pending]
@[simp] theorem State.fdClr_pending (s : State) : (State.fdClr s).pending = s.pending := rfl
@[simp] theorem execFdClrCnt_waits (who : Initiator) (s : State) : KeepsWaiting s (execFdClrCnt who s) := by
  simp only [execFdClrCnt, keepsWaiting_next, State.write_pending, State.supSend_pending, keepsQueue_iff, implies_true]
@[simp] theorem State.fdSample_pending (s : State) (f : Feed) (v : Nat) : (State.fdSample s f v).pending = s.pending := by
  simp only [State.fdSample, State.setFdOv_pending, State.setFeed_pending]
@[simp] theorem State.huSample_pending (s : State) (hu : Nat) : (State.huSample s hu).pending = s.pending := by
  simp only [State.huSample, State.fs_pending, State.raiseIf_pending]
@[simp] theorem supervisorSample_pending (x : SupSample) (s : State) : (supervisorSample x s).pending = s.pending := by
  simp only [supervisorSample, State.fdSample_pending, State.fs_pending, State.huSample_pending, State.ppSample_pending, State.setFeeds_pending,
    State.foldl_pending, keepsQueue_iff, implies_true]
@[simp] theorem execSupervisorSample_waits (smp : SupSample) (s : State) : KeepsWaiting s (execSupervisorSample smp s) := by
  simp only [execSupervisorSample, keepsWaiting_next, supervisorSample_pending]
@[simp] theorem disturbanceEnd_pending (f : Feed) (s : State) : (disturbanceEnd f s).pending = s.pending := by
  unfold disturbanceEnd
  split <;> simp only [State.raise_pending, State.setFeed_pending, State.wr_pending, State.ite_pending, ite_self]
@[simp] theorem execDisturbanceEnd_waits (feed : Feed) (s : State) : KeepsWaiting s (execDisturbanceEnd feed s) := by
  simp only [execDisturbanceEnd, keepsWaiting_next, disturbanceEnd_pending]
@[simp] theorem distRead_pending (i : Nat) (s : State) : (distRead i s).1.pending = s.pending := rfl
@[simp] theorem execDisturbEntryRead_waits (who : Initiator) (entry : Fin 64) (s : State) : KeepsWaiting s (execDisturbEntryRead who entry s) := by
  simp only [execDisturbEntryRead, keepsWaiting_next, State.read_pending, distRead_pending, keepsQueue_iff, implies_true]
@[simp] theorem State.ppCommitted_pending (s : State) (n : Nat) : (State.ppCommitted s n).pending = s.pending := by
  simp only [State.ppCommitted, State.ppRole_pending, State.ppStop_pending, State.setPwr_pending, State.ite_pending, ite_self]
@[simp] theorem State.fdCommitted_pending (s : State) : (State.fdCommitted s).pending = s.pending := by
  simp only [State.fdCommitted, State.reselect_pending, State.setFeeds_pending]
@[simp] theorem State.complete_pending (s : State) (f : Frame) (rsp : Nat) (take : Bool) (payload : List Byte) : (State.complete s f rsp take payload).pending = s.pending :=
  rfl
@[simp] theorem State.seqNote_pending (s : State) (src w wseq : Nat) (sync : Bool) : (State.seqNote s src w wseq sync).pending = s.pending := rfl
@[simp] theorem State.reqDone_pending (s : State) (f : Frame) (rsp : Nat) (take : Bool) (data : List Byte) : (State.reqDone s f rsp take data).pending = s.pending := by
  simp only [State.reqDone, State.complete_pending, State.originate_pending, State.seqNote_pending, State.ite_pending, ite_self]
@[simp] theorem State.accessEnds_pending (s : State) (who : Initiator) (a : Option Frame) : (State.accessEnds s who a).pending = s.pending := by
  unfold State.accessEnds
  split
  · simp
  · split <;> simp
@[simp] theorem State.setChunk_pending (s : State) (c : Nat) (v : Bool) : (State.setChunk s c v).pending = s.pending := rfl
@[simp] theorem State.burnFloor_pending (s : State) (x1 : Nat) : (State.burnFloor s x1).pending = s.pending := rfl
@[simp] theorem State.raiseFloors_pending (s : State) (bad : Option Nat) : (State.raiseFloors s bad).pending = s.pending := by
  simp only [State.raiseFloors, State.burnFloor_pending, State.raise_pending, State.foldl_pending, keepsQueue_iff, implies_true, State.ite_pending,
    ite_self]
@[simp] theorem State.retryFloors_pending (s : State) : (State.retryFloors s).pending = s.pending := by
  simp only [State.retryFloors, State.raiseFloors_pending, State.tookFree_pending, State.ite_pending, ite_self]
@[simp] theorem State.setUpState_pending (s : State) (v : Nat) : (State.setUpState s v).pending = s.pending := rfl
@[simp] theorem State.disarmed_pending (s : State) : (State.disarmed s).pending = s.pending := by
  simp only [State.disarmed, State.raise_pending, State.setUpState_pending, State.ite_pending, ite_self]
@[simp] theorem State.headReset_pending (s : State) (p : Nat) : (State.headReset s p).pending = s.pending := by simp [State.headReset]
@[simp] theorem State.portReset_pending (s : State) (p : LanePort) : (State.portReset s p).pending = s.pending := by
  simp only [State.portReset, State.flushPortReset_pending, State.regsReset_pending, State.setCr_pending, State.setPort_pending, State.foldl_pending,
    keepsQueue_iff, implies_true]
@[simp] theorem State.ringReset_pending (s : State) (p : RingPort) : (State.ringReset s p).pending = s.pending := by
  simp only [State.ringReset, State.fs_pending, State.portReset_pending, State.twinWatch_pending, State.wr_pending, State.wrap_pending,
    State.ite_pending, ite_self]
@[simp] theorem State.chansReset_pending (s : State) (n : Nat) : (State.chansReset s n).pending = s.pending := by
  simp only [State.chansReset, State.setChan_pending, State.stopOut_pending, State.foldl_pending, keepsQueue_iff, implies_true]
@[simp] theorem State.heldTimeout_pending (s : State) (x1 : Holder) : (State.heldTimeout s x1).pending = s.pending := by
  unfold State.heldTimeout
  split <;> simp
@[simp] theorem State.brReset_pending (s : State) : (State.brReset s).pending = s.pending := by
  unfold State.brReset
  exact (State.foldl_pending (fun _ _ => State.heldTimeout_pending ..) ..).trans rfl
@[simp] theorem State.waitsEnd_pending (s : State) : (State.waitsEnd s).pending = s.pending := by
  simp only [State.waitsEnd, State.accessEnds_pending, State.foldl_pending, keepsQueue_iff, implies_true]
@[simp] theorem State.spHeldEnd_pending (s : State) : (State.spHeldEnd s).pending = s.pending := by
  simp only [State.spHeldEnd, State.accessEnds_pending, State.foldl_pending, keepsQueue_iff, implies_true]
@[simp] theorem State.upShow_pending (s : State) : (State.upShow s).pending = s.pending := rfl
@[simp] theorem State.upReset_pending (s : State) : (State.upReset s).pending = s.pending := rfl
@[simp] theorem State.supReset_pending (s : State) (p : Nat) : (State.supReset s p).pending = s.pending := by
  simp only [State.supReset, State.regsReset_pending, State.setFeeds_pending, State.setPwr_pending, State.ite_pending, ite_self]
@[simp] theorem State.smFall_pending (s : State) : (State.smFall s).pending = s.pending := by
  simp only [State.smFall, State.setState_pending, State.foldl_pending, keepsQueue_iff, implies_true, State.ite_pending, ite_self]
@[simp] theorem State.smReset_pending (s : State) (p : Nat) : (State.smReset s p).pending = s.pending := by
  simp only [State.smReset, State.regsReset_pending, State.ttInit_pending, State.ite_pending, ite_self]
@[simp] theorem State.insideReset_pending (s : State) (p : Nat) : (State.insideReset s p).pending = s.pending := by
  unfold State.insideReset
  dsimp only
  (repeat' split) <;> simp only [State.brReset_pending, State.chansReset_pending, State.clGaps_pending, State.coreDiscard_pending,
    State.disarmed_pending, State.flushPortReset_pending, State.fs_pending, State.memReset_pending, State.portLost_pending, State.portReset_pending,
    State.queuesClr_pending, State.regsReset_pending, State.ringReset_pending, State.setCard_pending, State.setChan_pending, State.smFall_pending,
    State.smReset_pending, State.spHeldEnd_pending, State.stopOut_pending, State.supReset_pending, State.tmReset_pending, State.twinStart_pending,
    State.upReset_pending, State.waitsEnd_pending]
@[simp] theorem State.blockReset_pending (s : State) (p : Nat) : (State.blockReset s p).pending = s.pending := by
  simp only [State.blockReset, State.headReset_pending, State.insideReset_pending]
@[simp] theorem State.blockDown_pending (s : State) (p : Nat) : (State.blockDown s p).pending = s.pending := by
  simp only [State.blockDown, State.blockReset_pending, State.setState_pending]
@[simp] theorem State.islandDown_pending (s : State) (i : Nat) : (State.islandDown s i).pending = s.pending := by
  simp only [State.islandDown, State.blockDown_pending, State.flushPortReset_pending, State.setIsl_pending, State.wr_pending, State.foldl_pending,
    keepsQueue_iff, implies_true, State.ite_pending, ite_self]
@[simp] theorem State.islandReset_pending (s : State) (i : Nat) : (State.islandReset s i).pending = s.pending := by
  simp only [State.islandReset, State.islandDown_pending, State.setIsl_pending]
@[simp] theorem State.supClamp_pending (s : State) (cause : Nat) : (State.supClamp s cause).pending = s.pending := by
  simp only [State.supClamp, State.setFeeds_pending, State.ppClamp_pending, State.foldl_pending, keepsQueue_iff, implies_true, State.ite_pending,
    ite_self]
@[simp] theorem State.cutWords_pending (s : State) (a : Nat) (x2 : List Byte) : (State.cutWords s a x2).pending = s.pending := by
  induction s, a, x2 using State.cutWords.induct with
  | case1 s a b0 b1 b2 b3 bs t ih => unfold State.cutWords; rw [ih]; simp [t]
  | case2 s a bs h => unfold State.cutWords; simp
@[simp] theorem State.cutJob_pending (s : State) (j : UpJob) : (State.cutJob s j).pending = s.pending := by
  simp only [State.cutJob, State.cutWords_pending, State.ite_pending, ite_self]
@[simp] theorem State.cutWrite_pending (s : State) : (State.cutWrite s).pending = s.pending := by
  unfold State.cutWrite
  dsimp only
  (repeat' split) <;> simp only [State.cutJob_pending, State.setChunk_pending]
@[simp] theorem State.hubReset_pending (s0 : State) (r : ResetReq) : (State.hubReset s0 r).pending = s0.pending := by
  simp only [State.hubReset, State.cutWrite_pending, State.supClamp_pending, State.memReset_pending, State.upShow_pending, State.ite_pending,
    ite_self]
@[simp] theorem State.record_pending (s : State) (r : ResetReq) (stamp : Nat) : (State.record s r stamp).pending = s.pending := rfl
@[simp] theorem State.setOpt_pending (s : State) (v : Nat) : (State.setOpt s v).pending = s.pending := rfl
@[simp] theorem State.applyRepair_pending (s : State) (r : Repair) : (State.applyRepair s r).pending = s.pending := by
  simp only [State.applyRepair, State.fs_pending, State.setSpBank_pending, State.setState_pending, State.showSpares_pending, State.wr_pending,
    State.ite_pending, ite_self]
@[simp] theorem State.applyRepairs_pending (s : State) : (State.applyRepairs s).pending = s.pending := by
  simp only [State.applyRepairs, State.applyRepair_pending, State.raiseIf_pending, State.showTable_pending, State.foldl_pending, keepsQueue_iff,
    implies_true]
@[simp] theorem State.loadBaselines_pending (s : State) : (State.loadBaselines s).pending = s.pending := by
  unfold State.loadBaselines
  split <;> simp only [State.fs_pending, State.raise_pending]
@[simp] theorem State.toDone_pending (s : State) : (State.toDone s).pending = s.pending := by
  simp only [State.toDone, State.applyRepairs_pending, State.loadBaselines_pending, State.retryFloors_pending, State.setOpt_pending,
    State.ite_pending, ite_self]
@[simp] theorem State.bareStart_pending (s : State) : (State.bareStart s).pending = s.pending := by
  simp only [State.bareStart, State.fs_pending, State.raise_pending, State.setOpt_pending, State.toDone_pending, State.wr_pending, State.ite_pending,
    ite_self]
@[simp] theorem State.revertRecord_pending (s : State) : (State.revertRecord s).pending = s.pending := by
  simp only [State.revertRecord, State.fs_pending, State.inc_pending, State.raise_pending, State.ite_pending, ite_self]
@[simp] theorem State.readHeaders_pending (s0 : State) : (State.readHeaders s0).pending = s0.pending := by
  unfold State.readHeaders
  dsimp only
  (repeat' split) <;> simp only [State.bareStart_pending, State.revertRecord_pending, State.setOpt_pending]
@[simp] theorem State.loadHeader_pending (s : State) (c : Nat) : (State.loadHeader s c).pending = s.pending := rfl
@[simp] theorem State.releaseReset_pending (s : State) (straps : Straps) : (State.releaseReset s straps).pending = s.pending := by
  unfold State.releaseReset
  dsimp only
  (repeat' split) <;> simp only [State.readHeaders_pending, State.setOpt_pending, State.wr_pending]
@[simp] theorem State.assertReset_pending (s : State) (r : ResetReq) : (State.assertReset s r).pending = s.pending := by
  simp only [State.assertReset, State.fs_pending, State.hubReset_pending, State.record_pending, State.releaseReset_pending]
@[simp] theorem State.holdWrite_pending (s : State) (v : Word) : (State.holdWrite s v).pending = s.pending := by
  simp only [State.holdWrite, State.islandDown_pending, State.setIsl_pending, State.wr_pending, State.foldl_pending, keepsQueue_iff, implies_true,
    State.ite_pending, ite_self]
@[simp] theorem State.pageReset_pending (s : State) (p : Nat) : (State.pageReset s p).pending = s.pending := by
  simp only [State.pageReset, State.blockReset_pending, State.holdWrite_pending, State.ite_pending, ite_self]
@[simp] theorem State.assertL3_pending (s : State) (r : ResetReq) (x2 : L3Target) : (State.assertL3 s r x2).pending = s.pending := by
  unfold State.assertL3
  split <;> simp only [State.blockReset_pending, State.islandDown_pending, State.islandReset_pending, State.record_pending, State.ite_pending,
    ite_self]
@[simp] theorem State.holdBack_pending (s : State) (r : ResetReq) : (State.holdBack s r).pending = s.pending := by
  simp only [State.holdBack, State.ite_pending, ite_self]
@[simp] theorem State.recognise_pending (s : State) (r : ResetReq) (x2 : Option L3Target) : (State.recognise s r x2).pending = s.pending := by
  unfold State.recognise
  dsimp only
  (repeat' split) <;> simp only [State.assertL3_pending, State.assertReset_pending, State.holdBack_pending, State.record_pending]
@[simp] theorem State.strikeFail_pending (s : State) : (State.strikeFail s).pending = s.pending := by
  simp only [State.strikeFail, State.recognise_pending, State.ite_pending, ite_self]
@[simp] theorem State.assertBlock_pending (s : State) : (State.assertBlock s).pending = s.pending := by
  unfold State.assertBlock
  dsimp only
  (repeat' split) <;> simp only [State.blockReset_pending, State.cutWrite_pending, State.record_pending]
@[simp] theorem execResetAssertDeferred_waits (s : State) : KeepsWaiting s (execResetAssertDeferred s) := by
  unfold execResetAssertDeferred
  split <;> simp only [keepsWaiting_next, State.assertReset_pending, State.assertBlock_pending]
@[simp] theorem execPowerOnReset_waits (s : State) : KeepsWaiting s (execPowerOnReset s) := by
  simp only [execPowerOnReset, keepsWaiting_next, State.recognise_pending]
@[simp] theorem execPowerOnResetRelease_waits (straps : Straps) (s : State) : KeepsWaiting s (execPowerOnResetRelease straps s) := by
  simp only [execPowerOnResetRelease, keepsWaiting_next, State.releaseReset_pending]
@[simp] theorem execResetNRecognised_waits (s : State) : KeepsWaiting s (execResetNRecognised s) := by
  simp only [execResetNRecognised, keepsWaiting_next, State.recognise_pending]
@[simp] theorem execResetNRelease_waits (straps : Straps) (s : State) : KeepsWaiting s (execResetNRelease straps s) := by
  simp only [execResetNRelease, keepsWaiting_next, State.releaseReset_pending]
@[simp] theorem State.softReset_pending (s : State) (v : Word) : (State.softReset s v).pending = s.pending := by
  simp only [State.softReset, State.raise_pending, State.recognise_pending, State.ite_pending, ite_self]
@[simp] theorem execHostSoftReset_waits (who : Initiator) (v : Word) (s : State) : KeepsWaiting s (execHostSoftReset who v s) := by
  simp only [execHostSoftReset, keepsWaiting_next, State.write_pending, State.softReset_pending, keepsQueue_iff, implies_true]
@[simp] theorem State.wdogKick_pending (s : State) (v : Word) : (State.wdogKick s v).pending = s.pending := by
  simp only [State.wdogKick, State.ite_pending, ite_self]
@[simp] theorem execWdogKick_waits (who : Initiator) (v : Word) (s : State) : KeepsWaiting s (execWdogKick who v s) := by
  simp only [execWdogKick, keepsWaiting_next, State.write_pending, State.wdogKick_pending, keepsQueue_iff, implies_true]
@[simp] theorem execWatchdogExpire_waits (s : State) : KeepsWaiting s (execWatchdogExpire s) := by
  simp only [execWatchdogExpire, keepsWaiting_next, State.recognise_pending, State.strikeFail_pending, State.ite_pending, ite_self]
@[simp] theorem execThermalTrip_waits (tj : Int) (s : State) : KeepsWaiting s (execThermalTrip tj s) := by
  simp only [execThermalTrip, keepsWaiting_next, State.recognise_pending, State.ite_pending, ite_self]
@[simp] theorem execThermalTripRelease_waits (tj : Int) (straps : Straps) (s : State) : KeepsWaiting s (execThermalTripRelease tj straps s) := by
  simp only [execThermalTripRelease, keepsWaiting_next, State.releaseReset_pending, State.ite_pending, ite_self]
@[simp] theorem execClockLoss_waits (s : State) : KeepsWaiting s (execClockLoss s) := by
  simp only [execClockLoss, keepsWaiting_next, State.recognise_pending]
@[simp] theorem execClockLossRelease_waits (straps : Straps) (s : State) : KeepsWaiting s (execClockLossRelease straps s) := by
  simp only [execClockLossRelease, keepsWaiting_next, State.releaseReset_pending]
@[simp] theorem execOptFuseRead_waits (s : State) : KeepsWaiting s (execOptFuseRead s) := by
  simp only [execOptFuseRead, keepsWaiting_next, State.setState_pending, State.raiseIf_pending, State.setOpt_pending, State.fs_pending,
    State.foldl_pending, keepsQueue_iff, implies_true, State.ite_pending, ite_self]
@[simp] theorem execMramWakeDone_waits (s : State) : KeepsWaiting s (execMramWakeDone s) := by
  simp only [execMramWakeDone, keepsWaiting_next, State.readHeaders_pending, State.ite_pending, ite_self]
@[simp] theorem execOptVerify_waits (s : State) : KeepsWaiting s (execOptVerify s) := by
  simp only [execOptVerify, keepsWaiting_next, State.loadHeader_pending, State.setOpt_pending, State.fs_pending, State.bareStart_pending,
    State.ite_pending, ite_self]
@[simp] theorem execOptClocksLocked_waits (s : State) : KeepsWaiting s (execOptClocksLocked s) := by
  simp only [execOptClocksLocked, keepsWaiting_next, State.setOpt_pending, State.toDone_pending, State.ite_pending, ite_self]
@[simp] theorem State.released_pending (s : State) (i : Nat) : (State.released s i).pending = s.pending := by
  simp only [State.released, State.lanesReleased_pending, State.tmReset_pending, State.twinStart_pending, State.fs_pending, State.ite_pending,
    ite_self]
@[simp] theorem State.releaseIsland_pending (s : State) (i : Nat) : (State.releaseIsland s i).pending = s.pending := by
  unfold State.releaseIsland
  dsimp only
  (repeat' split) <;> simp only [State.released_pending, State.setIsl_pending]
@[simp] theorem State.requestRelease_pending (s : State) (i : Nat) : (State.requestRelease s i).pending = s.pending := by
  simp only [State.requestRelease, State.releaseIsland_pending, State.setIsl_pending, State.ite_pending, ite_self]
@[simp] theorem execIslandReleasePosition_waits (s : State) : KeepsWaiting s (execIslandReleasePosition s) := by
  unfold execIslandReleasePosition
  split <;> simp only [keepsWaiting_next, State.requestRelease_pending, State.foldl_pending, keepsQueue_iff, implies_true, State.ite_pending,
    ite_self]
@[simp] theorem execIslandSyncRelease_waits (island : Island) (s : State) : KeepsWaiting s (execIslandSyncRelease island s) := by
  simp only [execIslandSyncRelease, keepsWaiting_next, State.releaseIsland_pending, State.ite_pending, ite_self]
@[simp] theorem execGsHoldSet_waits (who : Initiator) (v : Word) (s : State) : KeepsWaiting s (execGsHoldSet who v s) := by
  simp only [execGsHoldSet, keepsWaiting_next, State.write_pending, State.holdWrite_pending, keepsQueue_iff, implies_true]
@[simp] theorem execGsHoldRelease_waits (who : Initiator) (v : Word) (s : State) : KeepsWaiting s (execGsHoldRelease who v s) := by
  simp only [execGsHoldRelease, keepsWaiting_next, State.write_pending, State.holdWrite_pending, keepsQueue_iff, implies_true]
@[simp] theorem execReadyVectorUpdate_waits (reg : Fin 4) (bit : Fin 32) (s : State) : KeepsWaiting s (execReadyVectorUpdate reg bit s) := by
  simp only [execReadyVectorUpdate, keepsWaiting_next, State.wr_pending]
@[simp] theorem State.aonRead_pending (s : State) : (State.aonRead s).1.pending = s.pending := rfl
@[simp] theorem execAonRead_waits (who : Initiator) (s : State) : KeepsWaiting s (execAonRead who s) := by
  simp only [execAonRead, keepsWaiting_next, State.read_pending, State.aonRead_pending, keepsQueue_iff, implies_true]
@[simp] theorem execCrystalOscillationChange_waits (on : Bool) (s : State) : KeepsWaiting s (execCrystalOscillationChange on s) := by
  simp only [execCrystalOscillationChange, keepsWaiting_next, State.wr_pending]
@[simp] theorem State.fuseProg_pending (s : State) (v : Word) : (State.fuseProg s v).pending = s.pending := by
  simp only [State.fuseProg, State.wr_pending, State.ite_pending, ite_self]
@[simp] theorem execFuseProgGo_waits (who : Initiator) (v : Word) (s : State) : KeepsWaiting s (execFuseProgGo who v s) := by
  simp only [execFuseProgGo, keepsWaiting_next, State.write_pending, State.fuseProg_pending, keepsQueue_iff, implies_true]
@[simp] theorem execFuseProgDone_waits (ok : Bool) (s : State) : KeepsWaiting s (execFuseProgDone ok s) := by
  unfold execFuseProgDone
  split <;> simp only [keepsWaiting_next, State.wr_pending]
@[simp] theorem execSupplyWarn_waits (supply : Fin 4) (s : State) : KeepsWaiting s (execSupplyWarn supply s) := by
  simp only [execSupplyWarn, keepsWaiting_next, State.raise_pending]
@[simp] theorem State.roleSend_pending (s : State) (op reason epoch : Nat) : (State.roleSend s op reason epoch).pending = s.pending := rfl
theorem State.twinTake_pending (s : State) (p : Frame → Bool) {a} {r : State} (e : State.twinTake s p = some (a, r)) : r.pending = s.pending := by
  unfold State.twinTake at e
  split at e
  · cases e
  · split at e
    · cases e; rfl
    · cases e
@[simp] theorem State.copyQueue_pending (s : State) (x1 : Nat) : (State.copyQueue s x1).pending = s.pending := by
  simp only [State.copyQueue, State.pushEnt_pending, State.setRec_pending, State.foldl_pending, keepsQueue_iff, implies_true]
@[simp] theorem State.resync_pending (s : State) : (State.resync s).pending = s.pending := by
  simp only [State.resync, State.copyQueue_pending, State.fs_pending, State.inc_pending, State.raise_pending, State.foldl_pending, keepsQueue_iff,
    implies_true, State.ite_pending, ite_self]
@[simp] theorem State.askResync_pending (s : State) : (State.askResync s).pending = s.pending := by simp only [State.askResync, State.resync_pending]
@[simp] theorem State.mirrorRoles_pending (s : State) : (State.mirrorRoles s).pending = s.pending := by
  simp only [State.mirrorRoles, State.fs_pending, State.resync_pending, State.ite_pending, ite_self]
@[simp] theorem State.mirrorOverflow_pending (s : State) : (State.mirrorOverflow s).pending = s.pending := by
  simp only [State.mirrorOverflow, State.resync_pending, State.ite_pending, ite_self]
theorem State.mirrorFrame_pending (s : State) {a} {r : State} (e : State.mirrorFrame s = some (a, r)) : r.pending = s.pending := by
  unfold State.mirrorFrame at e
  split at e
  · cases e
  · dsimp only at e
    split at e
    · cases e
    · cases e; simp
@[simp] theorem execMirrorPeriodicEntry_waits (s : State) : KeepsWaiting s (execMirrorPeriodicEntry s) := by
  simp only [execMirrorPeriodicEntry, keepsWaiting_next, State.mirrorOverflow_pending, State.ite_pending, ite_self]
@[simp] theorem execMackSend_waits (s : State) : KeepsWaiting s (execMackSend s) := by
  simp only [execMackSend, keepsWaiting_next, State.llOut_pending, State.ite_pending, ite_self]
@[simp] theorem execMackReceived_waits (s : State) : KeepsWaiting s (execMackReceived s) := by
  rw [execMackReceived, keepsWaiting_next]
  split
  · rfl
  · next e => simp [State.twinTake_pending _ _ e]
@[simp] theorem State.mirrorJudge_pending (s : State) : (State.mirrorJudge s).pending = s.pending := by
  simp only [State.mirrorJudge, State.fs_pending, State.raise_pending, State.ite_pending, ite_self]
@[simp] theorem State.mirrorEpoch_pending (s : State) : (State.mirrorEpoch s).pending = s.pending := by
  simp only [State.mirrorEpoch, State.fs_pending, State.mirrorJudge_pending, State.ite_pending, ite_self]
@[simp] theorem execMstateReturnSynced_waits (s : State) : KeepsWaiting s (execMstateReturnSynced s) := by
  simp only [execMstateReturnSynced, keepsWaiting_next, State.fs_pending, State.mirrorJudge_pending, State.ite_pending, ite_self]
@[simp] theorem State.takeOver_pending (s : State) (cut : Option Int) : (State.takeOver s cut).pending = s.pending := by
  unfold State.takeOver
  refine State.foldl_pending (fun k t => ?_) ..
  dsimp only
  split <;> simp
@[simp] theorem State.sendRecords_pending (s : State) : (State.sendRecords s).pending = s.pending := by
  simp only [State.sendRecords, State.sendHeld_pending, State.foldl_pending, keepsQueue_iff, implies_true]
@[simp] theorem State.closeRecords_pending (s : State) : (State.closeRecords s).pending = s.pending := by
  simp only [State.closeRecords, State.recClose_pending, State.foldl_pending, keepsQueue_iff, implies_true]
@[simp] theorem State.becomeActive_pending (s : State) (cut : Option Int) : (State.becomeActive s cut).pending = s.pending := by
  simp only [State.becomeActive, State.mirrorRoles_pending, State.sendRecords_pending, State.setRole_pending, State.takeOver_pending]
@[simp] theorem State.becomeStandby_pending (s : State) : (State.becomeStandby s).pending = s.pending := by
  simp only [State.becomeStandby, State.mirrorRoles_pending, State.setRole_pending]
@[simp] theorem execTwinStartWaitExpired_waits (s : State) : KeepsWaiting s (execTwinStartWaitExpired s) := by
  simp only [execTwinStartWaitExpired, keepsWaiting_next, State.fs_pending, State.becomeActive_pending, State.ite_pending, ite_self]
@[simp] theorem execTguySend_waits (s : State) : KeepsWaiting s (execTguySend s) := by
  simp only [execTguySend, keepsWaiting_next, State.mirrorJudge_pending, State.mirrorOverflow_pending, State.llOut_pending, State.ite_pending,
    ite_self]
@[simp] theorem State.tguyRole_pending (s : State) (role prefer : Nat) : (State.tguyRole s role prefer).pending = s.pending := by
  simp only [State.tguyRole, State.becomeActive_pending, State.becomeStandby_pending, State.raise_pending, State.ite_pending, ite_self]
@[simp] theorem execTguyReceived_waits (s : State) : KeepsWaiting s (execTguyReceived s) := by
  rw [execTguyReceived, keepsWaiting_next]
  split
  · rfl
  · next e => simp [State.twinTake_pending _ _ e]
@[simp] theorem execTwinGuyTimeout_waits (s : State) : KeepsWaiting s (execTwinGuyTimeout s) := by
  simp only [execTwinGuyTimeout, keepsWaiting_next, State.twinWatch_pending]
@[simp] theorem execReleaseReceived_waits (s : State) : KeepsWaiting s (execReleaseReceived s) := by
  rw [execReleaseReceived, keepsWaiting_next]
  split
  · rfl
  · next e => simp [State.twinTake_pending _ _ e]
@[simp] theorem execClaimDecision_waits (s : State) : KeepsWaiting s (execClaimDecision s) := by
  simp only [execClaimDecision, keepsWaiting_next, State.becomeActive_pending, State.inc_pending, State.becomeStandby_pending, State.raise_pending,
    State.ite_pending, ite_self]
@[simp] theorem State.twRelease_pending (s : State) : (State.twRelease s).pending = s.pending := by
  simp only [State.twRelease, State.becomeStandby_pending, State.raise_pending, State.roleSend_pending, State.ite_pending, ite_self]
@[simp] theorem execTwRelease_waits (who : Initiator) (s : State) : KeepsWaiting s (execTwRelease who s) := by
  simp only [execTwRelease, keepsWaiting_next, State.write_pending, State.twRelease_pending, keepsQueue_iff, implies_true]
@[simp] theorem State.twResetTwin_pending (s : State) : (State.twResetTwin s).pending = s.pending := by
  simp only [State.twResetTwin, State.roleSend_pending, State.ite_pending, ite_self]
@[simp] theorem execTwResetTwin_waits (who : Initiator) (s : State) : KeepsWaiting s (execTwResetTwin who s) := by
  simp only [execTwResetTwin, keepsWaiting_next, State.write_pending, State.twResetTwin_pending, keepsQueue_iff, implies_true]
@[simp] theorem execTwinResetReceived_waits (s : State) : KeepsWaiting s (execTwinResetReceived s) := by
  rw [execTwinResetReceived, keepsWaiting_next]
  split
  · rfl
  · next e => simp [State.twinTake_pending _ _ e]
@[simp] theorem State.twResync_pending (s : State) : (State.twResync s).pending = s.pending := by
  simp only [State.twResync, State.askResync_pending, State.resync_pending, State.ite_pending, ite_self]
@[simp] theorem execTwResync_waits (who : Initiator) (s : State) : KeepsWaiting s (execTwResync who s) := by
  simp only [execTwResync, keepsWaiting_next, State.write_pending, State.twResync_pending, keepsQueue_iff, implies_true]
@[simp] theorem State.twClrCnt_pending (s : State) : (State.twClrCnt s).pending = s.pending := rfl
@[simp] theorem execTwClrCnt_waits (who : Initiator) (s : State) : KeepsWaiting s (execTwClrCnt who s) := by
  simp only [execTwClrCnt, keepsWaiting_next, State.write_pending, State.twClrCnt_pending, keepsQueue_iff, implies_true]
@[simp] theorem State.swapRequest_pending (s : State) : (State.swapRequest s).pending = s.pending := by
  simp only [State.swapRequest, State.raise_pending, State.roleSend_pending, State.ite_pending, ite_self]
@[simp] theorem execTwSwap_waits (who : Initiator) (s : State) : KeepsWaiting s (execTwSwap who s) := by
  simp only [execTwSwap, keepsWaiting_next, State.write_pending, State.swapRequest_pending, keepsQueue_iff, implies_true]
@[simp] theorem execPeriodicSwapDue_waits (s : State) : KeepsWaiting s (execPeriodicSwapDue s) := by
  simp only [execPeriodicSwapDue, keepsWaiting_next, State.fs_pending, State.swapRequest_pending, State.ite_pending, ite_self]
@[simp] theorem execSwapProposeReceived_waits (s : State) : KeepsWaiting s (execSwapProposeReceived s) := by
  rw [execSwapProposeReceived, keepsWaiting_next]
  split
  · rfl
  · next e => simp [State.twinTake_pending _ _ e]
@[simp] theorem execSwapAnswerReceived_waits (s : State) : KeepsWaiting s (execSwapAnswerReceived s) := by
  rw [execSwapAnswerReceived, keepsWaiting_next]
  split
  · rfl
  · next e =>
    have ht := State.twinTake_pending _ _ e
    split <;> simp [ht]
@[simp] theorem execSwapAnswerTimeout_waits (s : State) : KeepsWaiting s (execSwapAnswerTimeout s) := by
  unfold execSwapAnswerTimeout
  split <;> simp only [keepsWaiting_next, State.raise_pending, State.ite_pending, ite_self]
@[simp] theorem State.updSwapped_pending (s : State) : (State.updSwapped s).pending = s.pending := by
  simp only [State.updSwapped, State.strikeFail_pending, State.ite_pending, ite_self]
@[simp] theorem State.swapDone_pending (s : State) : (State.swapDone s).pending = s.pending := by
  simp only [State.swapDone, State.fs_pending, State.inc_pending, State.raise_pending, State.updSwapped_pending]
@[simp] theorem State.swapPoint_pending (s : State) : (State.swapPoint s).pending = s.pending := by
  simp only [State.swapPoint, State.closeRecords_pending, State.fs_pending, State.setRole_pending, State.takeOver_pending, State.ite_pending,
    ite_self]
@[simp] theorem State.newSwapCheck_pending (s : State) : (State.newSwapCheck s).pending = s.pending := by
  simp only [State.newSwapCheck, State.swapDone_pending, State.ite_pending, ite_self]
@[simp] theorem State.quietEnd_pending (s : State) (n : Nat) : (State.quietEnd s n).pending = s.pending := by
  simp only [State.quietEnd, State.swapDone_pending, State.ite_pending, ite_self]
@[simp] theorem execPitchQuiet_waits (pitch : Pitch) (s : State) : KeepsWaiting s (execPitchQuiet pitch s) := by
  simp only [execPitchQuiet, keepsWaiting_next, State.quietEnd_pending]
@[simp] theorem execQuietHoldTimeout_waits (pitch : Pitch) (s : State) : KeepsWaiting s (execQuietHoldTimeout pitch s) := by
  simp only [execQuietHoldTimeout, keepsWaiting_next, State.quietEnd_pending]
@[simp] theorem State.isoHold_pending (s : State) (x1 : IsoTarget) (detail : Nat) : (State.isoHold s x1 detail).pending = s.pending := by
  unfold State.isoHold
  dsimp only
  (repeat' split) <;> simp only [State.blockDown_pending, State.clOff_pending, State.fs_pending, State.islandDown_pending, State.migRequest_pending,
    State.ppStop_pending, State.refuseUnready_pending, State.setState_pending]
@[simp] theorem State.isolate_pending (s : State) (n detail : Nat) : (State.isolate s n detail).pending = s.pending := by
  unfold State.isolate
  split <;> simp only [State.fs_pending, State.isoHold_pending, State.setState_pending, State.foldl_pending, keepsQueue_iff, implies_true,
    State.ite_pending, ite_self]
@[simp] theorem State.isoRelease_pending (s : State) (n : Nat) : (State.isoRelease s n).pending = s.pending := by
  unfold State.isoRelease
  split <;> simp only [State.fs_pending, State.setIsl_pending, State.setState_pending, State.foldl_pending, keepsQueue_iff, implies_true,
    State.ite_pending, ite_self]
@[simp] theorem State.ftCount_pending (s : State) (n : Nat) : (State.ftCount s n).1.pending = s.pending := by
  simp only [State.ftCount, State.fs_pending, State.inc_pending, State.ite_pending, ite_self]
@[simp] theorem State.errStart_pending (s : State) : (State.errStart s).pending = s.pending := by
  simp only [State.errStart, State.fs_pending, State.ite_pending, ite_self]
@[simp] theorem State.reactReset_pending (s : State) (severe : Bool) (r : ResetReq) : (State.reactReset s severe r).pending = s.pending := by
  simp only [State.reactReset, State.recognise_pending, State.ite_pending, ite_self]
@[simp] theorem State.react_pending (s : State) (n detail code : Nat) (severe : Bool) : (State.react s n detail code severe).pending = s.pending := by
  unfold State.react
  split
  · simp
  · split
    · simp
    · split
      · split <;> simp
      · rfl
@[simp] theorem State.ftEvent_pending (s : State) (n detail : Nat) : (State.ftEvent s n detail).pending = s.pending := by
  unfold State.ftEvent
  dsimp only
  rw [State.react_pending, State.ite_pending, State.errStart_pending, ite_self, State.raiseIf_pending, State.inc_pending,
    State.wr_pending, State.wr_pending, State.ftCount_pending]
@[simp] theorem execFaultEvent_waits (s : State) : KeepsWaiting s (execFaultEvent s) := by
  unfold execFaultEvent
  split <;> simp only [keepsWaiting_next, State.ftEvent_pending, State.ite_pending, ite_self]
@[simp] theorem execErrPulseEnd_waits (s : State) : KeepsWaiting s (execErrPulseEnd s) := by
  unfold execErrPulseEnd
  dsimp only
  (repeat' split) <;> simp only [keepsWaiting_next, State.fs_pending, State.recognise_pending, State.foldl_pending, keepsQueue_iff, implies_true]
@[simp] theorem State.ftReleaseWrite_pending (s : State) (v : Word) : (State.ftReleaseWrite s v).pending = s.pending := by
  simp only [State.ftReleaseWrite, State.isoRelease_pending, State.ite_pending, ite_self]
@[simp] theorem execFtRelease_waits (who : Initiator) (v : Word) (s : State) : KeepsWaiting s (execFtRelease who v s) := by
  simp only [execFtRelease, keepsWaiting_next, State.write_pending, State.ftReleaseWrite_pending, keepsQueue_iff, implies_true]
@[simp] theorem State.ftClrCnt_pending (s : State) : (State.ftClrCnt s).pending = s.pending := by
  simp only [State.ftClrCnt, State.wr_pending, State.foldl_pending, keepsQueue_iff, implies_true]
@[simp] theorem execFtClrCnt_waits (who : Initiator) (s : State) : KeepsWaiting s (execFtClrCnt who s) := by
  simp only [execFtClrCnt, keepsWaiting_next, State.write_pending, State.ftClrCnt_pending, keepsQueue_iff, implies_true]
@[simp] theorem State.ftCtrlWrite_pending (s : State) (pre : Bool) (v : Word) : (State.ftCtrlWrite s pre v).pending = s.pending := by
  simp only [State.ftCtrlWrite, State.ftClrCnt_pending, State.plain_pending, State.ite_pending, ite_self]
@[simp] theorem execThermalWarn_waits (tj : Int) (s : State) : KeepsWaiting s (execThermalWarn tj s) := by
  simp only [execThermalWarn, keepsWaiting_next, State.fs_pending, State.raise_pending, State.ite_pending, ite_self]
@[simp] theorem State.ftCommitted_pending (s x1 : State) : (State.ftCommitted s x1).pending = s.pending := by
  simp only [State.ftCommitted, State.fs_pending, State.foldl_pending, keepsQueue_iff, implies_true, State.ite_pending, ite_self]
@[simp] theorem State.wearEvent_pending (s : State) (key kind unit : Nat) (act : State → State × Nat) (hact : KeepsQueue fun t => (act t).1) : (State.wearEvent s key kind unit act).pending = s.pending := by
  have hq := keepsQueue_iff.1 hact
  unfold State.wearEvent
  split
  · rfl
  · dsimp only
    rw [State.raiseIf_pending, State.wr_pending, hq, State.raise_pending, State.inc_pending]
@[simp] theorem State.spareAct_pending (s : State) (en gone refused : Bool) (ask : State → State) (hask : KeepsQueue ask) : (State.spareAct s en gone refused ask).1.pending = s.pending := by
  have hq := keepsQueue_iff.1 hask
  simp [State.spareAct, hq]
@[simp] theorem State.wearLane_pending (s : State) (p : RingPort) (l : Nat) : (State.wearLane s p l).1.pending = s.pending := by
  unfold State.wearLane
  dsimp only
  (repeat' split) <;> simp only [State.requestSub_pending, State.spareAct_pending, State.spareLost_pending, keepsQueue_iff, implies_true]
@[simp] theorem State.wearEngine_pending (s : State) (g : Nat) : (State.wearEngine s g).1.pending = s.pending := by
  unfold State.wearEngine
  dsimp only
  (repeat' split) <;> simp only [State.fs_pending, State.migRequest_pending, State.spareAct_pending, keepsQueue_iff, implies_true]
@[simp] theorem State.wearRow_pending (s : State) (x1 row : Nat) : (State.wearRow s x1 row).1.pending = s.pending := by
  simp only [State.wearRow, State.spareAct_pending, keepsQueue_iff, implies_true]
@[simp] theorem State.wearBank_pending (s : State) (x1 : Nat) : (State.wearBank s x1).1.pending = s.pending := by
  unfold State.wearBank
  split <;> simp only [State.requestSpare_pending, State.spareAct_pending, keepsQueue_iff, implies_true]
@[simp] theorem State.refMove_pending (s : State) (r : Nat) : (State.refMove s r).pending = s.pending := by
  simp only [State.refMove, State.fs_pending, State.raise_pending]
@[simp] theorem State.refLeave_pending (s : State) : (State.refLeave s).pending = s.pending := by
  simp only [State.refLeave, State.refMove_pending, State.ite_pending, ite_self]
@[simp] theorem State.refFailed_pending (s : State) (r : Nat) : (State.refFailed s r).pending = s.pending := by
  simp only [State.refFailed, State.fs_pending, State.raise_pending, State.refLeave_pending, State.ite_pending, ite_self]
@[simp] theorem State.refDrifts_pending (s : State) (r : Nat) : (State.refDrifts s r).pending = s.pending := by
  simp only [State.refDrifts, State.fs_pending, State.ite_pending, ite_self]
@[simp] theorem State.wearRef_pending (s : State) (r : Nat) : (State.wearRef s r).1.pending = s.pending := by
  unfold State.wearRef
  split <;> simp only [State.inc_pending, State.refLeave_pending, State.spareAct_pending, keepsQueue_iff, implies_true]
@[simp] theorem execReferenceFail_waits (ref : Fin 2) (drift : Bool) (s : State) : KeepsWaiting s (execReferenceFail ref drift s) := by
  simp only [execReferenceFail, keepsWaiting_next, State.refFailed_pending, State.refDrifts_pending, State.refLeave_pending, State.ite_pending,
    ite_self]
@[simp] theorem State.refCmd_pending (s : State) (v : Word) : (State.refCmd s v).pending = s.pending := by
  simp only [State.refCmd, State.refMove_pending, State.ite_pending, ite_self]
@[simp] theorem execWrRefCmd_waits (who : Initiator) (v : Word) (s : State) : KeepsWaiting s (execWrRefCmd who v s) := by
  simp only [execWrRefCmd, keepsWaiting_next, State.write_pending, State.refCmd_pending, keepsQueue_iff, implies_true]
@[simp] theorem State.setOnSpare_pending (s : State) (k : Nat) (x2 : Bool) : (State.setOnSpare s k x2).pending = s.pending := rfl
@[simp] theorem State.setSpareBad_pending (s : State) (k : Nat) : (State.setSpareBad s k).pending = s.pending := rfl
@[simp] theorem State.pllSwitch_pending (s : State) (k : Nat) (spare : Bool) : (State.pllSwitch s k spare).pending = s.pending := by
  simp only [State.pllSwitch, State.raise_pending, State.setOnSpare_pending]
@[simp] theorem State.pllHold_pending (s : State) (k : Nat) : (State.pllHold s k).pending = s.pending := by
  simp only [State.pllHold, State.islandDown_pending, State.raise_pending, State.setIsl_pending, State.foldl_pending, keepsQueue_iff, implies_true,
    State.ite_pending, ite_self]
@[simp] theorem execPllLockLoss_waits (pll : Fin 13) (spare : Bool) (s : State) : KeepsWaiting s (execPllLockLoss pll spare s) := by
  simp only [execPllLockLoss, keepsWaiting_next, State.setSpareBad_pending, State.pllSwitch_pending, State.pllHold_pending, State.ite_pending,
    ite_self]
@[simp] theorem execPllRelock_waits (pll : Fin 13) (spare : Bool) (s : State) : KeepsWaiting s (execPllRelock pll spare s) := by
  simp only [execPllRelock, keepsWaiting_next, State.releaseIsland_pending, State.setOnSpare_pending, State.foldl_pending, keepsQueue_iff,
    implies_true, State.ite_pending, ite_self]
@[simp] theorem State.pllCmd_pending (s : State) (v : Word) : (State.pllCmd s v).pending = s.pending := by
  simp only [State.pllCmd, State.pllSwitch_pending, State.ite_pending, ite_self]
@[simp] theorem execWrPllCmd_waits (who : Initiator) (v : Word) (s : State) : KeepsWaiting s (execWrPllCmd who v s) := by
  simp only [execWrPllCmd, keepsWaiting_next, State.write_pending, State.pllCmd_pending, keepsQueue_iff, implies_true]
@[simp] theorem State.wearPll_pending (s : State) (k : Nat) (spare : Bool) : (State.wearPll s k spare).1.pending = s.pending := by
  simp only [State.wearPll, State.inc_pending, State.pllSwitch_pending, State.setSpareBad_pending, State.spareAct_pending, keepsQueue_iff,
    implies_true, ite_self, ite_fst_pending]
@[simp] theorem State.wearRun_pending (s : State) (key : Nat) (low : Bool) : (State.wearRun s key low).1.pending = s.pending := rfl
@[simp] theorem reported_pending (s : State) : (reported s).1.pending = s.pending := rfl
@[simp] theorem State.sentinel_pending (s : State) (a : Sentinel) : (State.sentinel s a).pending = s.pending := by
  cases a with
  | eye l v h => simp [State.sentinel]
  | references apart a b => simp [State.sentinel]
  | _ => simp [State.sentinel]
@[simp] theorem execSentinelMeasure_waits (m : Sentinel) (s : State) : KeepsWaiting s (execSentinelMeasure m s) := by
  simp only [execSentinelMeasure, keepsWaiting_next, State.sentinel_pending, State.ite_pending, ite_self]
@[simp] theorem State.blCapture_pending (s : State) : (State.blCapture s).pending = s.pending := by
  simp only [State.blCapture, State.fs_pending, State.ite_pending, ite_self]
@[simp] theorem State.blStore_pending (s : State) : (State.blStore s).pending = s.pending := by
  unfold State.blStore
  split <;> simp only [State.fs_pending, State.ite_pending, ite_self]
@[simp] theorem State.blStored_pending (s : State) (j : UpJob) : (State.blStored s j).pending = s.pending := by
  simp only [State.blStored, State.fs_pending, State.loadBaselines_pending, State.mwr_pending]
@[simp] theorem execBlDone_waits (tj : Int) (means : List (Nat × Nat)) (ok : Bool) (s : State) : KeepsWaiting s (execBlDone tj means ok s) := by
  unfold execBlDone
  dsimp only
  (repeat' split) <;> simp only [keepsWaiting_next, State.fs_pending, State.raise_pending, State.blStored_pending, State.cutWords_pending]
@[simp] theorem State.wrClrCnt_pending (s : State) : (State.wrClrCnt s).pending = s.pending := rfl
@[simp] theorem State.wrCmdWrite_pending (s : State) (v : Word) : (State.wrCmdWrite s v).pending = s.pending := by
  simp only [State.wrCmdWrite, State.blCapture_pending, State.blStore_pending, State.wearClr_pending, State.wrClrCnt_pending, State.ite_pending,
    ite_self]
@[simp] theorem execWrCapture_waits (who : Initiator) (s : State) : KeepsWaiting s (execWrCapture who s) := by
  simp only [execWrCapture, keepsWaiting_next, State.write_pending, State.blCapture_pending, keepsQueue_iff, implies_true]
@[simp] theorem execWrStore_waits (who : Initiator) (s : State) : KeepsWaiting s (execWrStore who s) := by
  simp only [execWrStore, keepsWaiting_next, State.write_pending, State.blStore_pending, keepsQueue_iff, implies_true]
@[simp] theorem execWearClr_waits (who : Initiator) (s : State) : KeepsWaiting s (execWearClr who s) := by
  simp only [execWearClr, keepsWaiting_next, State.write_pending, State.wearClr_pending, keepsQueue_iff, implies_true]
@[simp] theorem execWrClrCnt_waits (who : Initiator) (s : State) : KeepsWaiting s (execWrClrCnt who s) := by
  simp only [execWrClrCnt, keepsWaiting_next, State.write_pending, State.wrClrCnt_pending, keepsQueue_iff, implies_true]
@[simp] theorem State.regrant_pending (p : LanePort) (x1 s : State) (c : Cls) : (State.regrant p x1 s c).pending = s.pending := rfl
@[simp] theorem State.rcCommitted_pending (s x1 : State) : (State.rcCommitted s x1).pending = s.pending := by
  simp only [State.rcCommitted, State.fences_pending, State.ite_pending, ite_self]
@[simp] theorem State.enCommitted_pending (s x1 : State) (p : Nat) : (State.enCommitted s x1 p).pending = s.pending := by
  unfold State.enCommitted
  dsimp only
  (repeat' split) <;> simp only [State.diTurn_pending, State.fs_pending, State.pbTurn_pending, State.place_pending, State.reIdle_pending,
    State.setChan_pending, State.ttInit_pending]
@[simp] theorem State.smCommitted_pending (s x1 : State) (p : Nat) : (State.smCommitted s x1 p).pending = s.pending := by
  simp only [State.smCommitted, State.ttInit_pending, State.ite_pending, ite_self]
@[simp] theorem State.brCommitted_pending (s x1 : State) : (State.brCommitted s x1).pending = s.pending := rfl
@[simp] theorem State.clCommitted_pending (s : State) (n : Nat) : (State.clCommitted s n).pending = s.pending := rfl
@[simp] theorem State.committed_pending (s x1 : State) (p : Nat) : (State.committed s x1 p).pending = s.pending := by
  unfold State.committed
  split <;> simp only [State.brCommitted_pending, State.clCommitted_pending, State.enCommitted_pending, State.fdCommitted_pending,
    State.ftCommitted_pending, State.ppCommitted_pending, State.rcCommitted_pending, State.regrant_pending, State.scanCommitted_pending,
    State.smCommitted_pending, State.tmCommitted_pending, State.foldl_pending, keepsQueue_iff, implies_true]
@[simp] theorem State.beforeCommit_pending (s : State) (p : Nat) : (State.beforeCommit s p).pending = s.pending := by
  unfold State.beforeCommit
  split
  · split <;> simp
  · rfl
@[simp] theorem State.commitEnd_pending (s : State) (p : Nat) : (State.commitEnd s p).pending = s.pending := by
  unfold State.commitEnd
  split <;> simp
@[simp] theorem State.stopped_pending (s : State) (p : Nat) : (State.stopped s p).pending = s.pending := by
  simp only [State.stopped, State.commitEnd_pending, State.setState_pending, State.ite_pending, ite_self]
@[simp] theorem State.smSet_pending (s : State) (m : Nat) : (State.smSet s m).pending = s.pending := by
  simp only [State.smSet, State.setState_pending, State.stopped_pending, State.ite_pending, ite_self]
@[simp] theorem State.smFollow_pending (s : State) : (State.smFollow s).pending = s.pending := by
  simp only [State.smFollow, State.smSet_pending, State.foldl_pending, keepsQueue_iff, implies_true]
@[simp] theorem State.smAfter_pending (s : State) (p : Nat) : (State.smAfter s p).pending = s.pending := by
  simp only [State.smAfter, State.smFollow_pending, State.ite_pending, ite_self]
@[simp] theorem State.commitPoint_pending (s : State) (p : Nat) : (State.commitPoint s p).pending = s.pending := by
  simp only [State.commitPoint, State.commitEnd_pending, State.smAfter_pending, State.ite_pending, ite_self]
@[simp] theorem execCommitPoint_waits (page : Nat) (s : State) : KeepsWaiting s (execCommitPoint page s) := by
  simp only [execCommitPoint, keepsWaiting_next, State.commitPoint_pending]
@[simp] theorem State.queuesRun_pending (s : State) (v : Bool) : (State.queuesRun s v).pending = s.pending := by
  simp only [State.queuesRun, State.stopped_pending, State.setState_pending, State.foldl_pending, keepsQueue_iff, implies_true, State.ite_pending,
    ite_self]
@[simp] theorem State.enStart_pending (s : State) (p : Nat) : (State.enStart s p).pending = s.pending := by
  unfold State.enStart
  dsimp only
  (repeat' split) <;> simp only [State.diStart_pending, State.fs_pending, State.pbTurn_pending, State.smFollow_pending, State.startOut_pending,
    State.ttInit_pending]
@[simp] theorem State.blockStart_pending (s0 : State) (p : Nat) : (State.blockStart s0 p).pending = s0.pending := by
  unfold State.blockStart
  split <;> simp only [State.clDetect_pending, State.enStart_pending, State.leaveRidgeOnly_pending, State.ppStart_pending, State.queuesRun_pending,
    State.scanStart_pending, State.setState_pending]
@[simp] theorem State.mayStart_pending (s : State) (p : Nat) : (State.mayStart s p).pending = s.pending := by
  simp only [State.mayStart, State.blockStart_pending, State.ite_pending, ite_self]
@[simp] theorem State.enStopped_pending (s : State) (p : Nat) : (State.enStopped s p).pending = s.pending := by
  unfold State.enStopped
  dsimp only
  (repeat' split) <;> simp only [State.fs_pending, State.recClose_pending, State.setChan_pending, State.smFollow_pending, State.stopOut_pending,
    State.stopped_pending]
@[simp] theorem State.stopPoint_pending (s : State) (p : Nat) : (State.stopPoint s p).pending = s.pending := by
  unfold State.stopPoint
  split
  · rfl
  · split <;> simp
@[simp] theorem State.enableWrite_pending (s : State) (p : Nat) (en ra : Bool) : (State.enableWrite s p en ra).pending = s.pending := by
  simp only [State.enableWrite, State.fs_pending, State.mayStart_pending, State.setEnable_pending, State.stopPoint_pending, State.ite_pending,
    ite_self]
@[simp] theorem State.commitNow_pending (s : State) (p : Nat) : (State.commitNow s p).pending = s.pending := by
  simp only [State.commitNow, State.commitPoint_pending, State.commitWrite_pending, State.ite_pending, ite_self]
@[simp] theorem State.pageCtrl_pending (s : State) (p : Nat) (v : Word) : (State.pageCtrl s p v).pending = s.pending := by
  simp only [State.pageCtrl, State.abortWrite_pending, State.commitNow_pending, State.enableWrite_pending, State.mirrorCfg_pending,
    State.pageReset_pending, State.smAfter_pending, State.ite_pending, ite_self]
@[simp] theorem State.viaSup_pending (s : State) (who : Initiator) (p off : Nat) (v : Word) (op : State → State) (hop : KeepsQueue op) : (State.viaSup s who p off v op).pending = s.pending := by
  have hq := keepsQueue_iff.1 hop
  simp [State.viaSup, hq]
@[simp] theorem State.pageCtrlWrite_pending (s : State) (who : Initiator) (p : Nat) (v : Word) : (State.pageCtrlWrite s who p v).pending = s.pending := by
  simp only [State.pageCtrlWrite, State.pageCtrl_pending, State.viaSup_pending, State.write_pending, keepsQueue_iff, implies_true]
@[simp] theorem execPageEnableWrite_waits (who : Initiator) (page : Nat) (en readActive : Bool) (s : State) : KeepsWaiting s (execPageEnableWrite who page en readActive s) := by
  simp only [execPageEnableWrite, keepsWaiting_next, State.pageCtrlWrite_pending]
@[simp] theorem execCommit_waits (who : Initiator) (page : Nat) (en readActive : Bool) (s : State) : KeepsWaiting s (execCommit who page en readActive s) := by
  simp only [execCommit, keepsWaiting_next, State.pageCtrlWrite_pending]
@[simp] theorem execAbortCommit_waits (who : Initiator) (page : Nat) (en readActive commit : Bool) (s : State) : KeepsWaiting s (execAbortCommit who page en readActive commit s) := by
  simp only [execAbortCommit, keepsWaiting_next, State.pageCtrlWrite_pending]
@[simp] theorem execResetBlock_waits (who : Initiator) (page : Nat) (others : Word) (s : State) : KeepsWaiting s (execResetBlock who page others s) := by
  simp only [execResetBlock, keepsWaiting_next, State.pageCtrlWrite_pending]
@[simp] theorem execEvtForce_waits (who : Initiator) (page : Nat) (v : Word) (s : State) : KeepsWaiting s (execEvtForce who page v s) := by
  simp only [execEvtForce, keepsWaiting_next, State.write_pending, State.viaSup_pending, State.force_pending, keepsQueue_iff, implies_true]
@[simp] theorem State.readyRise_pending (s : State) (p : Nat) : (State.readyRise s p).pending = s.pending := by
  simp only [State.readyRise, State.mayStart_pending, State.setState_pending, State.smSet_pending, State.ite_pending, ite_self]
@[simp] theorem execBlockReadyRise_waits (page : Nat) (s : State) : KeepsWaiting s (execBlockReadyRise page s) := by
  simp only [execBlockReadyRise, keepsWaiting_next, State.readyRise_pending]
@[simp] theorem State.pbRecord_pending (s : State) (l : Look) (item : List Byte) : (State.pbRecord s l item).pending = s.pending := by
  simp only [State.pbRecord, State.recBatch_pending]
@[simp] theorem State.pbUnmatched_pending (s : State) (l : Look) : (State.pbUnmatched s l).pending = s.pending := by
  simp only [State.pbUnmatched, State.inc_pending, State.pbRecord_pending, State.ite_pending, ite_self]
@[simp] theorem execPbusMessageReceived_waits (pitch : Pitch) (chan : Channel) (s : State) : KeepsWaiting s (execPbusMessageReceived pitch chan s) := by
  unfold execPbusMessageReceived
  dsimp only
  (repeat' split) <;> simp only [keepsWaiting_next, State.setChan_pending, State.inc_pending, State.ttReference_pending, State.pbUnmatched_pending]
@[simp] theorem execRouteLookupBegin_waits (s : State) : KeepsWaiting s (execRouteLookupBegin s) := by
  unfold execRouteLookupBegin
  split <;> simp only [keepsWaiting_next]
@[simp] theorem State.rtSend_pending (s : State) (l : Look) (f : Frame) : (State.rtSend s l f).pending = s.pending := rfl
@[simp] theorem State.rtAct_pending (l : Look) (s0 : State) (e : Nat) : (State.rtAct l s0 e).pending = s0.pending := by
  simp only [State.rtAct, State.inc_pending, State.mbPush_pending, State.pbRecord_pending, State.routeDropped_pending, State.rtSend_pending,
    State.ite_pending, ite_self]
@[simp] theorem execRouteLookupDone_waits (s : State) : KeepsWaiting s (execRouteLookupDone s) := by
  unfold execRouteLookupDone
  dsimp only
  (repeat' split) <;> simp only [keepsWaiting_next, State.pbUnmatched_pending, State.rtAct_pending, State.foldl_pending, keepsQueue_iff, implies_true]
@[simp] theorem State.routedTake_pending (s : State) (n : Nat) (f : Frame) : (State.routedTake s n f).pending = s.pending := by
  simp only [State.routedTake, State.enCnt_pending, State.setChan_pending, State.ite_pending, ite_self]
@[simp] theorem State.txTake_pending (s : State) (n : Nat) (f : Frame) : (State.txTake s n f).pending = s.pending := by
  unfold State.txTake
  dsimp only
  (repeat' split) <;> simp only [State.setChan_pending, State.txDrop_pending]
theorem State.inboxTake_pending (s : State) (p : Nat) {a} {r : State} (e : State.inboxTake s p = some (a, r)) : r.pending = s.pending := by
  unfold State.inboxTake at e
  split at e
  · cases e
  · cases e; rfl
@[simp] theorem execTxRecordReceived_waits (pitch : Pitch) (s : State) : KeepsWaiting s (execTxRecordReceived pitch s) := by
  rw [execTxRecordReceived, keepsWaiting_next]
  split
  · rfl
  · next e => simp [State.inboxTake_pending _ _ e]
@[simp] theorem execRoutedFrameReceived_waits (pitch : Pitch) (s : State) : KeepsWaiting s (execRoutedFrameReceived pitch s) := by
  rw [execRoutedFrameReceived, keepsWaiting_next]
  split
  · rfl
  · next e => simp [State.inboxTake_pending _ _ e]
@[simp] theorem State.updRefuse_pending (s : State) : (State.updRefuse s).pending = s.pending := by simp only [State.updRefuse, State.raise_pending]
@[simp] theorem State.setJob_pending (s : State) (j : Option UpJob) : (State.setJob s j).pending = s.pending := rfl
@[simp] theorem State.updClear_pending (s : State) : (State.updClear s).pending = s.pending := by
  have h := State.mwr_pending { s with up := { s.up with seq := (s.rd 0x290 UP_SEQ).toNat } } mapBase (List.replicate 384 0)
  unfold State.updClear
  rw [State.ite_pending, State.ite_pending, State.setUpState_pending, h]
  simp only [State.updRefuse_pending, ite_self]
@[simp] theorem State.updWrite_pending (s : State) : (State.updWrite s).pending = s.pending := by
  simp only [State.updWrite, State.setJob_pending, State.setUpState_pending, State.updRefuse_pending, State.ite_pending, ite_self]
@[simp] theorem State.updWriteArea_pending (s : State) : (State.updWriteArea s).pending = s.pending := by
  simp only [State.updWriteArea, State.setJob_pending, State.updRefuse_pending, State.ite_pending, ite_self]
@[simp] theorem execUpdWriteDone_waits (ok : Bool) (s : State) : KeepsWaiting s (execUpdWriteDone ok s) := by
  unfold execUpdWriteDone
  split <;> simp only [keepsWaiting_next, State.setJob_pending, State.mwr_pending, State.setChunk_pending, State.cutWords_pending,
    State.raise_pending, State.ite_pending, ite_self]
@[simp] theorem State.clearPieces_pending (s : State) (e : Entry) : (State.clearPieces s e).pending = s.pending := by
  simp only [State.clearPieces, State.store_pending, State.foldl_pending, keepsQueue_iff, implies_true]
@[simp] theorem State.verifyState_pending (s : State) (v : Nat) : (State.verifyState s v).pending = s.pending := by
  simp only [State.verifyState, State.setUpState_pending, State.ite_pending, ite_self]
@[simp] theorem State.updVerify_pending (s : State) : (State.updVerify s).pending = s.pending := rfl
@[simp] theorem execUpdVerifyDone_waits (s : State) : KeepsWaiting s (execUpdVerifyDone s) := by
  rw [execUpdVerifyDone, keepsWaiting_next]
  dsimp only
  split
  · rfl
  · split
    · simp
    · rw [State.raise_pending, State.ite_pending, State.setUpState_pending, ite_self, State.wr_pending]
      simp
@[simp] theorem State.strike_pending (s : State) : (State.strike s).pending = s.pending := by
  simp only [State.strike, State.recognise_pending, State.upShow_pending, State.ite_pending, ite_self]
@[simp] theorem State.updArm_pending (s : State) (now : Bool) : (State.updArm s now).pending = s.pending := by
  simp only [State.updArm, State.raise_pending, State.setUpState_pending, State.strike_pending, State.updRefuse_pending, State.ite_pending, ite_self]
@[simp] theorem State.updDisarm_pending (s : State) : (State.updDisarm s).pending = s.pending := by
  simp only [State.updDisarm, State.setUpState_pending, State.ite_pending, ite_self]
@[simp] theorem State.updEpoch_pending (s : State) (e : Nat) : (State.updEpoch s e).pending = s.pending := by
  unfold State.updEpoch
  split <;> simp only [State.disarmed_pending, State.strike_pending, State.ite_pending, ite_self]
@[simp] theorem State.updConfirm_pending (s : State) : (State.updConfirm s).pending = s.pending := by
  simp only [State.updConfirm, State.ite_pending, ite_self]
@[simp] theorem State.heldAsk_pending (s : State) : (State.heldAsk s).pending = s.pending := by
  simp only [State.heldAsk, State.swapRequest_pending, State.ite_pending, ite_self]
@[simp] theorem execStrikeDone_waits (s : State) : KeepsWaiting s (execStrikeDone s) := by
  simp only [execStrikeDone, keepsWaiting_next, State.setUpState_pending, State.raise_pending, State.heldAsk_pending, State.ite_pending, ite_self]
@[simp] theorem State.failNode_pending (s : State) : (State.failNode s).pending = s.pending := by
  simp only [State.failNode, State.strikeFail_pending, State.swapRequest_pending, State.ite_pending, ite_self]
@[simp] theorem State.twinStatusRead_pending (s : State) (v : Word) : (State.twinStatusRead s v).pending = s.pending := by
  simp only [State.twinStatusRead, State.failNode_pending, State.fs_pending, State.heldAsk_pending, State.raise_pending, State.ite_pending, ite_self]
@[simp] theorem State.updPolled_pending (s : State) (off : Nat) (v : Word) : (State.updPolled s off v).pending = s.pending := by
  simp only [State.updPolled, State.fs_pending, State.twinStatusRead_pending, State.ite_pending, ite_self]
@[simp] theorem execTrialExpired_waits (s : State) : KeepsWaiting s (execTrialExpired s) := by
  simp only [execTrialExpired, keepsWaiting_next, State.strikeFail_pending, State.ite_pending, ite_self]
@[simp] theorem execTwinStrikeTimeout_waits (s : State) : KeepsWaiting s (execTwinStrikeTimeout s) := by
  simp only [execTwinStrikeTimeout, keepsWaiting_next, State.failNode_pending, State.ite_pending, ite_self]
@[simp] theorem execSwitchoverRequestRepeat_waits (s : State) : KeepsWaiting s (execSwitchoverRequestRepeat s) := by
  simp only [execSwitchoverRequestRepeat, keepsWaiting_next, State.strikeFail_pending, State.swapRequest_pending, State.ite_pending, ite_self]
@[simp] theorem State.relayAll_pending (s : State) (ty : Nat) : (State.relayAll s ty).pending = s.pending := by
  simp only [State.relayAll, State.setCard_pending, State.foldl_pending, keepsQueue_iff, implies_true]
@[simp] theorem execCardRelayStart_waits (s : State) : KeepsWaiting s (execCardRelayStart s) := by
  simp only [execCardRelayStart, keepsWaiting_next, State.setUpState_pending, State.fs_pending, State.setCard_pending, State.foldl_pending,
    keepsQueue_iff, implies_true, State.ite_pending, ite_self]
@[simp] theorem State.cardsFail_pending (s : State) : (State.cardsFail s).pending = s.pending := by
  simp only [State.cardsFail, State.relayAll_pending, State.strikeFail_pending, State.ite_pending, ite_self]
@[simp] theorem State.relayJudge_pending (s : State) : (State.relayJudge s).pending = s.pending := by
  simp only [State.relayJudge, State.cardsFail_pending, State.relayAll_pending, State.ite_pending, ite_self]
@[simp] theorem State.relaySent_pending (s : State) (n : Nat) : (State.relaySent s n).pending = s.pending := by
  simp only [State.relaySent, State.strikeFail_pending, State.ite_pending, ite_self]
@[simp] theorem execCardWaitExpired_waits (s : State) : KeepsWaiting s (execCardWaitExpired s) := by
  simp only [execCardWaitExpired, keepsWaiting_next, State.addSat_pending, State.cardsFail_pending, State.ite_pending, ite_self]
@[simp] theorem execUpdateCommit_waits (bad : Option Nat) (s : State) : KeepsWaiting s (execUpdateCommit bad s) := by
  simp only [execUpdateCommit, keepsWaiting_next, State.relayAll_pending, State.setUpState_pending, State.raise_pending, State.inc_pending,
    State.raiseFloors_pending, State.ite_pending, ite_self]
@[simp] theorem execUcodeLoadDone_waits (cluster : Pitch) (s : State) : KeepsWaiting s (execUcodeLoadDone cluster s) := by
  unfold execUcodeLoadDone
  dsimp only
  (repeat' split) <;> simp only [keepsWaiting_next, State.wr_pending, State.raise_pending, State.strikeFail_pending]
@[simp] theorem State.updCmd_pending (s : State) (v : Word) : (State.updCmd s v).pending = s.pending := by
  unfold State.updCmd
  dsimp only
  (repeat' split) <;> simp only [State.setUpState_pending, State.updArm_pending, State.updClear_pending, State.updDisarm_pending,
    State.updRefuse_pending, State.updVerify_pending, State.updWrite_pending, State.updWriteArea_pending]
@[simp] theorem execUpdClear_waits (who : Initiator) (v : Word) (s : State) : KeepsWaiting s (execUpdClear who v s) := by
  simp only [execUpdClear, keepsWaiting_next, State.write_pending, State.updCmd_pending, keepsQueue_iff, implies_true]
@[simp] theorem execUpdWrite_waits (who : Initiator) (v : Word) (s : State) : KeepsWaiting s (execUpdWrite who v s) := by
  simp only [execUpdWrite, keepsWaiting_next, State.write_pending, State.updCmd_pending, keepsQueue_iff, implies_true]
@[simp] theorem execUpdVerify_waits (who : Initiator) (v : Word) (s : State) : KeepsWaiting s (execUpdVerify who v s) := by
  simp only [execUpdVerify, keepsWaiting_next, State.write_pending, State.updCmd_pending, keepsQueue_iff, implies_true]
@[simp] theorem execUpdArm_waits (who : Initiator) (v : Word) (s : State) : KeepsWaiting s (execUpdArm who v s) := by
  simp only [execUpdArm, keepsWaiting_next, State.write_pending, State.updCmd_pending, keepsQueue_iff, implies_true]
@[simp] theorem execUpdArmNow_waits (who : Initiator) (v : Word) (s : State) : KeepsWaiting s (execUpdArmNow who v s) := by
  simp only [execUpdArmNow, keepsWaiting_next, State.write_pending, State.updCmd_pending, keepsQueue_iff, implies_true]
@[simp] theorem execUpdDisarm_waits (who : Initiator) (v : Word) (s : State) : KeepsWaiting s (execUpdDisarm who v s) := by
  simp only [execUpdDisarm, keepsWaiting_next, State.write_pending, State.updCmd_pending, keepsQueue_iff, implies_true]
@[simp] theorem execUpdWriteArea_waits (who : Initiator) (v : Word) (s : State) : KeepsWaiting s (execUpdWriteArea who v s) := by
  simp only [execUpdWriteArea, keepsWaiting_next, State.write_pending, State.updCmd_pending, keepsQueue_iff, implies_true]
@[simp] theorem State.upClrCnt_pending (s : State) : (State.upClrCnt s).pending = s.pending := rfl
@[simp] theorem State.upCtrlWrite_pending (s : State) (v : Word) : (State.upCtrlWrite s v).pending = s.pending := by
  simp only [State.upCtrlWrite, State.upClrCnt_pending, State.updConfirm_pending, State.ite_pending, ite_self]
@[simp] theorem execUpdConfirm_waits (who : Initiator) (s : State) : KeepsWaiting s (execUpdConfirm who s) := by
  simp only [execUpdConfirm, keepsWaiting_next, State.write_pending, State.updConfirm_pending, keepsQueue_iff, implies_true]
@[simp] theorem execUpClrCnt_waits (who : Initiator) (s : State) : KeepsWaiting s (execUpClrCnt who s) := by
  simp only [execUpClrCnt, keepsWaiting_next, State.write_pending, State.upClrCnt_pending, keepsQueue_iff, implies_true]
@[simp] theorem State.lostTake_pending (s : State) (hub off : Nat) (data : Word) : (State.lostTake s hub off data).pending = s.pending := by
  simp only [State.lostTake, State.inc_pending, State.raise_pending, State.wr_pending]
@[simp] theorem State.abandoned_pending (s : State) (hub off : Nat) (write : Bool) (rsp : Nat) (data : Word) : (State.abandoned s hub off write rsp data).pending = s.pending := by
  simp only [State.abandoned, State.lostTake_pending, State.ite_pending, ite_self]
@[simp] theorem State.finish_pending (s : State) (who : Initiator) (rsp : Nat) (data : Word) : (State.finish s who rsp data).pending = s.pending := by
  unfold State.finish
  split <;> simp only [State.answer_pending]
@[simp] theorem State.sendFwd_pending (s : State) (f0 : Fwd) (x2 : Nat) : (State.sendFwd s f0 x2).pending = s.pending := by
  unfold State.sendFwd
  split <;> simp only [State.originate_pending, State.setTag_pending]
@[simp] theorem State.fenceEnd_pending (s : State) (w result : Nat) : (State.fenceEnd s w result).pending = s.pending := by
  simp only [State.fenceEnd, State.fs_pending, State.raiseIf_pending]
@[simp] theorem State.fenceDone_pending (s : State) (w wseq rsp conf : Nat) : (State.fenceDone s w wseq rsp conf).pending = s.pending := by
  simp only [State.fenceDone, State.fenceEnd_pending, State.fs_pending, State.ite_pending, ite_self]
@[simp] theorem State.endFwd_pending (s : State) (f : Fwd) (rsp : Nat) (data : Word) (take : Bool) : (State.endFwd s f rsp data take).pending = s.pending := by
  unfold State.endFwd
  split
  · simp
  · simp
  · simp
  · simp
  · split <;> simp
@[simp] theorem State.noLive_pending (s : State) (f : Fwd) : (State.noLive s f).pending = s.pending := by
  simp only [State.noLive, State.endFwd_pending, State.inc_pending]
@[simp] theorem State.forward_pending (s : State) (f : Fwd) : (State.forward s f).pending = s.pending := by
  unfold State.forward
  dsimp only
  (repeat' split) <;> simp only [State.noLive_pending, State.sendFwd_pending]
@[simp] theorem State.pwLog_pending (s : State) (cause rsp hub w wseq off : Nat) : (State.pwLog s cause rsp hub w wseq off).pending = s.pending := by
  simp only [State.pwLog, State.addWrap_pending, State.fs_pending, State.inc_pending, State.raise_pending, State.wr_pending, State.ite_pending,
    ite_self]
@[simp] theorem State.postWrite_pending (s : State) (w hub off : Nat) (data : Word) (be : BitVec 4) : (State.postWrite s w hub off data be).pending = s.pending :=
  rfl
@[simp] theorem execForwardRequestSend_waits (s : State) : KeepsWaiting s (execForwardRequestSend s) := by
  unfold execForwardRequestSend
  split <;> simp only [keepsWaiting_next, State.postWrite_pending, State.endFwd_pending, State.sendFwd_pending, State.noLive_pending,
    State.ite_pending, ite_self]
@[simp] theorem State.reqJudged_pending (s : State) (f : Frame) (admitted : Bool) : (State.reqJudged s f admitted).pending = s.pending := by
  unfold State.reqJudged
  split <;> simp only [State.noLive_pending, State.setTag_pending, State.ite_pending, ite_self]
@[simp] theorem State.brFed_pending (s x1 : State) : (State.brFed s x1).pending = x1.pending := by
  unfold State.brFed
  split
  · rfl
  · simp
@[simp] theorem execCoreHeadCellWrite_waits (p : CorePort) (s : State) : KeepsWaiting s (execCoreHeadCellWrite p s) := by
  simp only [execCoreHeadCellWrite, keepsWaiting_next, State.brFed_pending, State.headWrite_pending, State.sweep_pending, State.ite_pending, ite_self]
@[simp] theorem execCoreDeferredWrite_waits (p : CorePort) (s : State) : KeepsWaiting s (execCoreDeferredWrite p s) := by
  simp only [execCoreDeferredWrite, keepsWaiting_next, State.brFed_pending, State.deferredWrite_pending, State.sweep_pending, State.ite_pending,
    ite_self]
@[simp] theorem State.retry_pending (s : State) (who : Initiator) : (State.retry s who).pending = s.pending := by
  simp only [State.retry, State.finish_pending, State.inc_pending]
@[simp] theorem State.slotAgain_pending (s : State) (who : Initiator) (k : Nat) (x : Slot) : (State.slotAgain s who k x).pending = s.pending := by
  unfold State.slotAgain
  dsimp only
  (repeat' split) <;> simp only [State.finish_pending, State.inc_pending, State.retry_pending, State.sendFwd_pending, State.setSlot_pending]
@[simp] theorem State.slotClaim_pending (s : State) (who : Initiator) (a w hub off : Nat) (write : Bool) (data : Word) (be : BitVec 4) : (State.slotClaim s who a w hub off write data be).pending = s.pending := by
  unfold State.slotClaim
  dsimp only
  (repeat' split) <;> simp only [State.finish_pending, State.inc_pending, State.retry_pending, State.sendFwd_pending, State.setSlot_pending]
@[simp] theorem State.farAccess_pending (s : State) (who : Initiator) (a w hub off : Nat) (write : Bool) (data : Word) (be : BitVec 4) : (State.farAccess s who a w hub off write data be).pending = s.pending := by
  unfold State.farAccess
  extract_lets posted retry fr
  split
  · exact State.finish_pending ..
  · split
    · exact State.finish_pending ..
    · split
      · simp only [State.ite_pending, State.retry_pending, State.finish_pending, State.postWrite_pending, ite_self]
      · split
        · split
          · exact (State.finish_pending ..).trans (State.inc_pending ..)
          · split
            · split
              · exact State.slotAgain_pending ..
              · rfl
            · exact State.slotClaim_pending ..
        · exact State.forward_pending ..
@[simp] theorem execTransactionTimeout_waits (tag : Tag) (s : State) : KeepsWaiting s (execTransactionTimeout tag s) := by
  unfold execTransactionTimeout
  split <;> simp only [keepsWaiting_next, State.setTag_pending, State.inc_pending, State.raise_pending, State.endFwd_pending, State.ite_pending,
    ite_self]
@[simp] theorem execTagQuarantineEnd_waits (tag : Tag) (s : State) : KeepsWaiting s (execTagQuarantineEnd tag s) := by
  unfold execTagQuarantineEnd
  split <;> simp only [keepsWaiting_next, State.setTag_pending, State.ite_pending, ite_self]
@[simp] theorem execRequestResend_waits (tag : Tag) (s : State) : KeepsWaiting s (execRequestResend tag s) := by
  unfold execRequestResend
  split <;> simp only [keepsWaiting_next, State.setTag_pending, State.inc_pending, State.originate_pending, State.ite_pending, ite_self]
@[simp] theorem execSlotExpired_waits (slot : Fin 16) (s : State) : KeepsWaiting s (execSlotExpired slot s) := by
  unfold execSlotExpired
  split <;> simp only [keepsWaiting_next, State.setSlot_pending, State.inc_pending, State.raise_pending, State.lostTake_pending, State.ite_pending,
    ite_self]
theorem State.brTake_pending (s : State) (mtype : Nat) {a} {r : State} (e : State.brTake s mtype = some (a, r)) : r.pending = s.pending := by
  unfold State.brTake at e
  split at e
  · next h =>
    split at e
    · cases e; exact State.inboxTake_pending _ _ h
    · cases e
  · cases e
@[simp] theorem State.completion_pending (s : State) (f : Frame) : (State.completion s f).pending = s.pending := by
  unfold State.completion
  dsimp only
  (repeat' split) <;> simp only [State.endFwd_pending, State.inc_pending, State.raise_pending, State.setTag_pending]
@[simp] theorem execCompletionReceived_waits (s : State) : KeepsWaiting s (execCompletionReceived s) := by
  rw [execCompletionReceived, keepsWaiting_next]
  split
  · next e => simp [State.brTake_pending _ _ e]
  · rfl
@[simp] theorem execLateWrReceived_waits (s : State) : KeepsWaiting s (execLateWrReceived s) := by
  rw [execLateWrReceived, keepsWaiting_next]
  split
  · next e => simp [State.brTake_pending _ _ e]
  · rfl
@[simp] theorem State.fenceWrite_pending (s : State) (w : Nat) (v : Word) : (State.fenceWrite s w v).pending = s.pending := by
  unfold State.fenceWrite
  dsimp only
  (repeat' split) <;> simp only [State.fenceEnd_pending, State.forward_pending, State.fs_pending]
@[simp] theorem execFenceStart_waits (who : Initiator) (win : Win) (v : Word) (s : State) : KeepsWaiting s (execFenceStart who win v s) := by
  simp only [execFenceStart, keepsWaiting_next, State.write_pending, State.fenceWrite_pending, keepsQueue_iff, implies_true]
@[simp] theorem State.sigSend_pending (s : State) (v : Word) : (State.sigSend s v).pending = s.pending := by
  unfold State.sigSend
  dsimp only
  (repeat' split) <;> simp only [State.inc_pending, State.originate_pending]
@[simp] theorem execSignalSend_waits (who : Initiator) (v : Word) (s : State) : KeepsWaiting s (execSignalSend who v s) := by
  simp only [execSignalSend, keepsWaiting_next, State.write_pending, State.sigSend_pending, keepsQueue_iff, implies_true]
@[simp] theorem execSignalReceived_waits (s : State) : KeepsWaiting s (execSignalReceived s) := by
  rw [execSignalReceived, keepsWaiting_next]
  split
  · rfl
  · next e => simp [State.inboxTake_pending _ _ e]
@[simp] theorem State.txfWrite_pending (s : State) (v : Word) : (State.txfWrite s v).pending = s.pending := by
  simp only [State.txfWrite, State.fs_pending, State.raise_pending, State.stage_pending, State.ite_pending, ite_self]
@[simp] theorem execTxfSend_waits (who : Initiator) (v : Word) (s : State) : KeepsWaiting s (execTxfSend who v s) := by
  simp only [execTxfSend, keepsWaiting_next, State.write_pending, State.txfWrite_pending, keepsQueue_iff, implies_true]
@[simp] theorem execTxfWriteDone_waits (s : State) : KeepsWaiting s (execTxfWriteDone s) := by
  simp only [execTxfWriteDone, keepsWaiting_next, State.fs_pending, State.ite_pending, ite_self]
@[simp] theorem State.brClrCnt_pending (s : State) : (State.brClrCnt s).pending = s.pending := rfl
@[simp] theorem execBrClrCnt_waits (who : Initiator) (s : State) : KeepsWaiting s (execBrClrCnt who s) := by
  simp only [execBrClrCnt, keepsWaiting_next, State.write_pending, State.brClrCnt_pending, keepsQueue_iff, implies_true]
@[simp] theorem State.twCmdWrite_pending (s : State) (v : Word) : (State.twCmdWrite s v).pending = s.pending := by
  simp only [State.twCmdWrite, State.swapRequest_pending, State.twClrCnt_pending, State.twRelease_pending, State.twResetTwin_pending,
    State.twResync_pending, State.ite_pending, ite_self]
@[simp] theorem State.plainClr_pending (s : State) (pre : Bool) (p off : Nat) (v : Word) (clr : Fld) (op : State → State) (hop : KeepsQueue op) : (State.plainClr s pre p off v clr op).pending = s.pending := by
  have hq := keepsQueue_iff.1 hop
  simp [State.plainClr, hq]
@[simp] theorem State.enWrite_pending (s : State) (pre : Bool) (p off : Nat) (v : Word) : (State.enWrite s pre p off v).pending = s.pending := by
  simp only [State.enWrite, State.diOut_pending, State.enModeWrite_pending, State.pbCmdWrite_pending, State.plain_pending, State.syCmdWrite_pending,
    State.ite_pending, ite_self]
@[simp] theorem State.rpWrite_pending (s : State) (pre : Bool) (p off : Nat) (v : Word) : (State.rpWrite s pre p off v).pending = s.pending := by
  simp only [State.rpWrite, State.lnCtrlWrite_pending, State.lnSpareWrite_pending, State.plain_pending, State.rpClrCnt_pending, State.ite_pending,
    ite_self]
@[simp] theorem State.qWrite_pending (s : State) (pre : Bool) (p off : Nat) (v : Word) : (State.qWrite s pre p off v).pending = s.pending := by
  simp only [State.qWrite, State.mbPush_pending, State.plain_pending, State.qClrCnt_pending, State.qFlushWrite_pending, State.ite_pending, ite_self]
@[simp] theorem State.brWrite_pending (s : State) (pre : Bool) (off : Nat) (v : Word) : (State.brWrite s pre off v).pending = s.pending := by
  simp only [State.brWrite, State.brClrCnt_pending, State.fenceWrite_pending, State.plain_pending, State.plainClr_pending, State.sigSend_pending,
    State.txfWrite_pending, keepsQueue_iff, implies_true, State.ite_pending, ite_self]
@[simp] theorem State.gsWrite_pending (s : State) (pre : Bool) (off : Nat) (v : Word) : (State.gsWrite s pre off v).pending = s.pending := by
  simp only [State.gsWrite, State.holdWrite_pending, State.plain_pending, State.softReset_pending, State.wdogKick_pending, State.ite_pending,
    ite_self]
@[simp] theorem State.blockWrite_pending (s : State) (pre : Bool) (p off : Nat) (v : Word) : (State.blockWrite s pre p off v).pending = s.pending := by
  unfold State.blockWrite
  split <;> simp only [State.bankCmd_pending, State.brWrite_pending, State.clCtrlWrite_pending, State.coreClrCnt_pending, State.coreSpareCmd_pending,
    State.ecClrCnt_pending, State.ecMigWrite_pending, State.enWrite_pending, State.fdClr_pending, State.ftCtrlWrite_pending,
    State.ftReleaseWrite_pending, State.fuseProg_pending, State.gsWrite_pending, State.lnCtrlWrite_pending, State.lnSpareWrite_pending,
    State.marchCmd_pending, State.memClrCnt_pending, State.plain_pending, State.plainClr_pending, State.pllCmd_pending, State.ppCtrl_pending,
    State.qWrite_pending, State.refCmd_pending, State.rpWrite_pending, State.rstSend_pending, State.scClrCnt_pending, State.scOpubSend_pending,
    State.smpWrite_pending, State.tmCtrlWrite_pending, State.twCmdWrite_pending, State.upCtrlWrite_pending, State.updCmd_pending, State.wr_pending,
    State.wrCmdWrite_pending, State.wrapFrozen_pending, keepsQueue_iff, implies_true, State.ite_pending, ite_self]
@[simp] theorem State.headerWrite_pending (s : State) (pre : Bool) (p off : Nat) (v : Word) : (State.headerWrite s pre p off v).pending = s.pending := by
  simp only [State.headerWrite, State.force_pending, State.mirrorCfg_pending, State.pageCtrl_pending, State.tmCompat_pending, State.wrCompat_pending,
    State.wrEvtEnable_pending, State.wrEvtStatus_pending, State.ite_pending, ite_self]
@[simp] theorem State.regApply_pending (s : State) (pre : Bool) (p off : Nat) (v : Word) : (State.regApply s pre p off v).pending = s.pending := by
  simp only [State.regApply, State.blockWrite_pending, State.headerWrite_pending, State.ite_pending, ite_self]
@[simp] theorem State.regWrite_pending (s : State) (who : Initiator) (p0 off : Nat) (v : Word) : (State.regWrite s who p0 off v).pending = s.pending := by
  simp only [State.regWrite, State.regApply_pending, State.viaSup_pending, State.write_pending, keepsQueue_iff, implies_true]
@[simp] theorem execRegisterWrite_waits (who : Initiator) (page off : Nat) (v : Word) (s : State) : KeepsWaiting s (execRegisterWrite who page off v s) := by
  simp only [execRegisterWrite, keepsWaiting_next, State.regWrite_pending]
@[simp] theorem State.regValue_pending (s : State) (p off : Nat) : (State.regValue s p off).1.pending = s.pending := by
  unfold State.regValue
  split
  · rfl
  · split
    · rfl
    · split <;> simp
@[simp] theorem State.regRead_pending (s : State) (who : Initiator) (p0 off : Nat) : (State.regRead s who p0 off).pending = s.pending := by
  simp only [State.regRead, State.read_pending, State.regValue_pending, keepsQueue_iff, implies_true]
@[simp] theorem State.canWrite_pending (s : State) (who : Initiator) (img : Image) (m : Nat) (mask v : BitVec 96) (req : Option Frame) : (State.canWrite s who img m mask v req).1.pending = s.pending := by
  unfold State.canWrite
  split <;> simp only [State.softPut_pending]
@[simp] theorem State.canRead_pending (s : State) (img : Image) (m : Nat) : (State.canRead s img m).1.pending = s.pending := by
  simp only [State.canRead, State.copyRead_pending]
@[simp] theorem State.spreadAccess_pending (s0 : State) (who : Initiator) (img : Image) (w : Nat) (write : Bool) (data : Word) (be : BitVec 4) (req : Option Frame) : (State.spreadAccess s0 who img w write data be req).1.pending = s0.pending := by
  unfold State.spreadAccess
  dsimp only
  split
  · simp
  · split
    · simp
    · split <;> next e => simp [pending_of_pair e]
@[simp] theorem State.packFor_pending (s0 : State) (who : Initiator) (img : Image) (m : Nat) : (State.packFor s0 who img m).1.pending = s0.pending := by
  unfold State.packFor
  split
  · simp only [ite_fst_pending, State.touch_pending, ite_self]
  · rfl
@[simp] theorem State.packWrite_pending (s0 : State) (who : Initiator) (img : Image) (m j : Nat) (data : Word) (be : BitVec 4) (req : Option Frame) : (State.packWrite s0 who img m j data be req).1.pending = s0.pending := by
  unfold State.packWrite
  dsimp only
  (repeat' split) <;> simp only [State.canWrite_pending, State.packFor_pending]
@[simp] theorem State.packRead_pending (s0 : State) (who : Initiator) (img : Image) (m j : Nat) : (State.packRead s0 who img m j).1.pending = s0.pending := by
  have hf : (s0.packFor who img m).1.pending = s0.pending := by simp
  unfold State.packRead
  extract_lets s t key word keep drop
  have ht : t.pending = s0.pending := by
    simp only [t]
    split
    · split
      · exact hf
      · exact (State.touch_pending ..).trans hf
    · exact hf
  have hd : ∀ u : State, (drop u).pending = u.pending := fun _ => rfl
  split
  · split
    · exact ht
    · exact ht
  · split
    · exact ht
    · split
      · next e => exact (pending_of_pair e).trans ((State.canRead_pending ..).trans ht)
      · next e =>
        have hu := (pending_of_pair e).trans ((State.canRead_pending ..).trans ht)
        dsimp only
        split <;> exact hu
@[simp] theorem State.scratch_pending (s0 : State) (who : Initiator) (a : Nat) (write : Bool) (data : Word) (be : BitVec 4) (req : Option Frame) : (State.scratch s0 who a write data be req).1.pending = s0.pending := by
  unfold State.scratch
  dsimp only
  split <;> next e => simp [pending_of_pair e]
@[simp] theorem State.mramAccess_pending (s0 : State) (who : Initiator) (a : Nat) (write : Bool) : (State.mramAccess s0 who a write).1.pending = s0.pending := by
  unfold State.mramAccess
  split <;> simp only [State.touch_pending]
@[simp] theorem State.regAccess_pending (s : State) (who : Initiator) (off : Nat) (write : Bool) (data : Word) (be : BitVec 4) : (State.regAccess s who off write data be).1.pending = s.pending := by
  unfold State.regAccess
  split <;> simp only [State.regRead_pending, State.regWrite_pending, State.touch_pending, State.ite_pending, ite_self]
@[simp] theorem State.localAccess_pending (s : State) (who : Initiator) (off : Nat) (write : Bool) (data : Word) (be : BitVec 4) (req : Option Frame) : (State.localAccess s who off write data be req).1.pending = s.pending := by
  unfold State.localAccess
  dsimp only
  (repeat' split) <;> simp only [State.mramAccess_pending, State.packRead_pending, State.packWrite_pending, State.regAccess_pending,
    State.scratch_pending, State.spreadAccess_pending, State.touch_pending]
@[simp] theorem State.answered_pending (who : Initiator) (x : State × Option (Nat × Word)) : (State.answered who x).pending = x.1.pending := by
  unfold State.answered
  split <;> simp only [State.finish_pending]
@[simp] theorem execCanopyWrite_waits (who : Initiator) (img : Image) (word : Nat) (data : Word) (be : BitVec 4) (s : State) : KeepsWaiting s (execCanopyWrite who img word data be s) := by
  unfold execCanopyWrite
  split <;> simp only [keepsWaiting_next, State.answered_pending, State.localAccess_pending, State.touch_pending]
@[simp] theorem execCanopyPackedWrite_waits (who : Initiator) (img : Image) (group : Nat) (word : Fin 3) (data : Word) (be : BitVec 4) (s : State) : KeepsWaiting s (execCanopyPackedWrite who img group word data be s) := by
  unfold execCanopyPackedWrite
  split <;> simp only [keepsWaiting_next, State.answered_pending, State.localAccess_pending, State.touch_pending]
@[simp] theorem execCanopyPackedRead_waits (who : Initiator) (img : Image) (group : Nat) (word : Fin 3) (s : State) : KeepsWaiting s (execCanopyPackedRead who img group word s) := by
  unfold execCanopyPackedRead
  split <;> simp only [keepsWaiting_next, State.answered_pending, State.localAccess_pending, State.touch_pending]
@[simp] theorem State.writeWords_pending (f : Frame) (a : List Nat) (x2 : Bool) (x3 : State) : (State.writeWords f a x2 x3).1.pending = x3.pending := by
  induction a generalizing x2 x3 with
  | nil => rfl
  | cons i l ih =>
    unfold State.writeWords
    split
    · next e => simp [ih, pending_of_pair e]
    · next e => simp [ih, pending_of_pair e]
@[simp] theorem State.readWords_pending (a : List Nat) (x1 : State) : (State.readWords a x1).1.pending = x1.pending := by
  induction a generalizing x1 with
  | nil => rfl
  | cons o l ih =>
    unfold State.readWords
    split
    · next e => simp [pending_of_pair e]
    · next e => simp [ih, pending_of_pair e]
@[simp] theorem State.serveWrite_pending (s : State) (f : Frame) : (State.serveWrite s f).pending = s.pending := by
  unfold State.serveWrite
  dsimp only
  split
  · split <;> next e => simp [pending_of_pair e]
  · split
    · simp
    · split
      · simp
      · split
        · rfl
        · simp
@[simp] theorem State.serveRead_pending (s : State) (f : Frame) : (State.serveRead s f).pending = s.pending := by
  unfold State.serveRead
  dsimp only
  split
  · split
    · simp
    · split <;> next e => simp [pending_of_pair e]
  · simp
@[simp] theorem State.serve_pending (s : State) (f : Frame) : (State.serve s f).pending = s.pending := by
  simp only [State.serve, State.reqDone_pending, State.serveRead_pending, State.serveWrite_pending, State.ite_pending, ite_self]
@[simp] theorem State.fenceArrives_pending (s : State) (f : Frame) : (State.fenceArrives s f).pending = s.pending := by
  simp only [State.fenceArrives, State.complete_pending, State.ite_pending, ite_self]
@[simp] theorem execIncomingRequest_waits (s : State) : KeepsWaiting s (execIncomingRequest s) := by
  rw [execIncomingRequest, keepsWaiting_next]
  split
  · rfl
  · next e => simp [State.inboxTake_pending _ _ e]
@[simp] theorem execFarFenceComplete_waits (s : State) : KeepsWaiting s (execFarFenceComplete s) := by
  unfold execFarFenceComplete
  split <;> simp only [keepsWaiting_next, State.originate_pending]
@[simp] theorem State.spAgain_pending (s : State) (x1 : SpHold) : (State.spAgain s x1).pending = s.pending := by
  unfold State.spAgain
  split
  · simp
  · dsimp only
    split
    · simp
    · split <;> next e => simp [pending_of_pair e]
@[simp] theorem execBankDrainDone_waits (bank : Fin 8) (s : State) : KeepsWaiting s (execBankDrainDone bank s) := by
  simp only [execBankDrainDone, keepsWaiting_next, State.bankDrained_pending, State.spAgain_pending, State.foldl_pending, keepsQueue_iff,
    implies_true, State.ite_pending, ite_self]
@[simp] theorem State.guardRelease_pending (s : State) : (State.guardRelease s).pending = s.pending := by
  unfold State.guardRelease
  refine (State.foldl_pending (fun x t => ?_) ..).trans rfl
  dsimp only
  split <;> simp
@[simp] theorem State.access_pending (s : State) (who : Initiator) (a : Nat) (write : Bool) (data : Word) (be : BitVec 4) : (State.access s who a write data be).pending = s.pending := by
  unfold State.access
  split <;> simp only [State.answered_pending, State.farAccess_pending, State.finish_pending, State.localAccess_pending, State.touch_pending]
@[simp] theorem State.abandon_pending (s : State) (who : Initiator) (a : Acc) : (State.abandon s who a).pending = s.pending := by
  simp only [State.abandon, State.abandoned_pending, State.ite_pending, ite_self]
@[simp] theorem State.hostProto_pending (s : State) : (State.hostProto s).pending = s.pending := rfl
@[simp] theorem State.controlBlock_pending (s0 : State) (addr : Nat) (write : Bool) (data : Word) (be : BitVec 4) : (State.controlBlock s0 addr write data be).pending = s0.pending := by
  simp only [State.controlBlock, State.answer_pending, State.cycle_pending, State.plain_pending, State.touch_pending, State.ite_pending, ite_self]
@[simp] theorem State.padAnswer_pending (s : State) : (State.padAnswer s).pending = s.pending := rfl
@[simp] theorem State.apertureAccess_pending (s : State) (addr : Nat) (write : Bool) (data : Word) (be : BitVec 4) : (State.apertureAccess s addr write data be).pending = s.pending := by
  unfold State.apertureAccess
  dsimp only
  rw [State.ite_pending, State.cycle_pending, State.finish_pending, State.touch_pending, State.ite_pending, State.cycle_pending,
    State.access_pending]
  simp only [ite_self]
@[simp] theorem execHostAccess_waits (addr : BitVec 27) (write : Bool) (data : Word) (be : BitVec 4) (s : State) : KeepsWaiting s (execHostAccess addr write data be s) := by
  simp only [execHostAccess, keepsWaiting_next, State.padAnswer_pending, State.hostProto_pending, State.apertureAccess_pending,
    State.controlBlock_pending, State.ite_pending, ite_self]
@[simp] theorem execHostControlBlockAccess_waits (addr : BitVec 26) (write : Bool) (data : Word) (be : BitVec 4) (s : State) : KeepsWaiting s (execHostControlBlockAccess addr write data be s) := by
  simp only [execHostControlBlockAccess, keepsWaiting_next, State.padAnswer_pending, State.hostProto_pending, State.controlBlock_pending,
    State.ite_pending, ite_self]
@[simp] theorem execPadResponderAccess_waits (x0 : BitVec 27) (x1 : Bool) (x2 : Word) (s : State) : KeepsWaiting s (execPadResponderAccess x0 x1 x2 s) := by
  simp only [execPadResponderAccess, keepsWaiting_next, State.padAnswer_pending, State.ite_pending, ite_self]
@[simp] theorem execHostAdsDuringAccess_waits (s : State) : KeepsWaiting s (execHostAdsDuringAccess s) := by
  simp only [execHostAdsDuringAccess, keepsWaiting_next, State.hostProto_pending, State.ite_pending, ite_self]
@[simp] theorem execHostAccessAbandon_waits (s : State) : KeepsWaiting s (execHostAccessAbandon s) := by
  unfold execHostAccessAbandon
  split <;> simp only [keepsWaiting_next, State.abandon_pending]
@[simp] theorem State.spiAccess_pending (s : State) (cmd addr : Nat) (data : Word) : (State.spiAccess s cmd addr data).pending = s.pending := by
  simp only [State.spiAccess, State.answered_pending, State.finish_pending, State.localAccess_pending, State.ite_pending, ite_self]
@[simp] theorem execSpiFrame_waits (cmd : BitVec 8) (addr : BitVec 32) (data : Word) (s : State) : KeepsWaiting s (execSpiFrame cmd addr data s) := by
  simp only [execSpiFrame, keepsWaiting_next, State.spiAccess_pending, State.ite_pending, ite_self]
@[simp] theorem execSpiAbort_waits (cmd : BitVec 8) (addr : BitVec 32) (data : Word) (s : State) : KeepsWaiting s (execSpiAbort cmd addr data s) := by
  unfold execSpiAbort
  dsimp only
  (repeat' split) <;> simp only [keepsWaiting_next, State.abandon_pending, State.inc_pending, State.spiAccess_pending]
@[simp] theorem State.epochBoundary_pending (s : State) : (State.epochBoundary s).pending = s.pending := by
  simp only [State.epochBoundary, State.commitEnd_pending, State.disarmed_pending, State.guardRelease_pending, State.mirrorEpoch_pending,
    State.scanBoundary_pending, State.swapPoint_pending, State.updEpoch_pending, State.ite_pending, ite_self]
@[simp] theorem execEpochBoundary_waits (s : State) : KeepsWaiting s (execEpochBoundary s) := by
  simp only [execEpochBoundary, keepsWaiting_next, State.epochBoundary_pending]
@[simp] theorem execLatchDone_waits (s : State) : KeepsWaiting s (execLatchDone s) := by
  simp only [execLatchDone, keepsWaiting_next, State.latchAll_pending, State.publishAll_pending, State.histWrite_pending, State.ite_pending, ite_self]
@[simp] theorem execBlockStopPoint_waits (page : Nat) (s : State) : KeepsWaiting s (execBlockStopPoint page s) := by
  simp only [execBlockStopPoint, keepsWaiting_next, State.epochBoundary_pending, State.stopPoint_pending, State.ite_pending, ite_self]
@[simp] theorem State.loopLive_pending (s : State) (n live : Nat) : (State.loopLive s n live).pending = s.pending := by
  simp only [State.loopLive, State.fs_pending, State.raiseIf_pending, State.setCard_pending]
theorem State.relayNext_pending {s : State} {n ty : Nat} {pay : List Byte} {t : State} (e : s.relayNext n = some (ty, pay, t)) : t.pending = s.pending := by
  unfold State.relayNext at e
  dsimp only at e
  split at e
  · cases e; simp
  · split at e
    · cases e
    · split at e
      · cases e
      · split at e <;> cases e <;> simp
@[simp] theorem State.sfBlock_pending (s : State) (n : Nat) : (State.sfBlock s n).pending = s.pending := by
  unfold State.sfBlock
  dsimp only
  split
  · simp
  · split
    · simp
    · split
      · simp
      · split
        · next e => simp [State.relayNext_pending e]
        · simp
@[simp] theorem State.superframe_pending (s : State) (n live : Nat) : (State.superframe s n live).pending = s.pending := by
  simp only [State.superframe, State.commitPoint_pending, State.loopLive_pending, State.relayJudge_pending, State.relaySent_pending,
    State.setCard_pending, State.sfBlock_pending, State.stopPoint_pending, State.ite_pending, ite_self]
@[simp] theorem execSuperframeBoundary_waits (pitch : Pitch) (live : Nat) (s : State) : KeepsWaiting s (execSuperframeBoundary pitch live s) := by
  simp only [execSuperframeBoundary, keepsWaiting_next, State.superframe_pending, State.swapPoint_pending, State.newSwapCheck_pending,
    State.ite_pending, ite_self]
@[simp] theorem execSupvWriteArrive_waits (s : State) : KeepsWaiting s (execSupvWriteArrive s) := by
  unfold execSupvWriteArrive
  split <;> simp only [keepsWaiting_next, State.regApply_pending, State.ite_pending, ite_self]
@[simp] theorem State.supOut_pending (s : State) (p : Nat) : (State.supOut s p).pending = s.pending := by
  simp only [State.supOut, State.refuseUnready_pending, State.setState_pending, State.ite_pending, ite_self]
@[simp] theorem execSupvLinkDown_waits (s : State) : KeepsWaiting s (execSupvLinkDown s) := by
  simp only [execSupvLinkDown, keepsWaiting_next, State.supOut_pending, State.raise_pending, State.foldl_pending, keepsQueue_iff, implies_true,
    State.ite_pending, ite_self]
@[simp] theorem execSupvLinkUp_waits (s : State) : KeepsWaiting s (execSupvLinkUp s) := by simp only [execSupvLinkUp, keepsWaiting_next]
@[simp] theorem execControlFrameReceived_waits (ok : Bool) (s : State) : KeepsWaiting s (execControlFrameReceived ok s) := by
  simp only [execControlFrameReceived, keepsWaiting_next, State.raise_pending, State.ite_pending, ite_self]
@[simp] theorem State.optCommit_pending (s : State) (p off : Nat) : (State.optCommit s p off).pending = s.pending := by
  simp only [State.optCommit, State.commitEnd_pending, State.fs_pending, State.inc_pending, State.raise_pending, State.ite_pending, ite_self]
@[simp] theorem State.optWrite_pending (s : State) (off ty v : Nat) : (State.optWrite s off ty v).pending = s.pending := by
  simp only [State.optWrite, State.commitWrite_pending, State.optCommit_pending, State.regWrite_pending, State.ite_pending, ite_self]
@[simp] theorem execOptApplyRecord_waits (s : State) : KeepsWaiting s (execOptApplyRecord s) := by
  simp only [execOptApplyRecord, keepsWaiting_next, State.setOpt_pending, State.optWrite_pending, State.ite_pending, ite_self]
@[simp] theorem State.eqLoad_pending (s : State) (n : Nat) : (State.eqLoad s n).pending = s.pending := rfl
@[simp] theorem execOptEqualize_waits (s : State) : KeepsWaiting s (execOptEqualize s) := by
  simp only [execOptEqualize, keepsWaiting_next, State.eqLoad_pending, State.fs_pending, State.toDone_pending, State.foldl_pending, keepsQueue_iff,
    implies_true, State.ite_pending, ite_self]
@[simp] theorem State.mirCfg_pending (s : State) (bs : List Byte) : (State.mirCfg s bs).pending = s.pending := by
  simp only [State.mirCfg, State.regWrite_pending]
@[simp] theorem State.mirCanopy_pending (s : State) (epoch : Nat) (bs : List Byte) : (State.mirCanopy s epoch bs).pending = s.pending := by
  simp only [State.mirCanopy, State.askResync_pending, State.errClear_pending, State.grpPut_pending, State.inc_pending, State.mirrorJudge_pending,
    State.ite_pending, ite_self]
@[simp] theorem State.mirTime_pending (s : State) (bs : List Byte) : (State.mirTime s bs).pending = s.pending := by
  simp only [State.mirTime, State.mirrorJudge_pending, State.select_pending, State.ite_pending, ite_self]
@[simp] theorem State.mirEngine_pending (s : State) (bs : List Byte) : (State.mirEngine s bs).pending = s.pending := by
  simp only [State.mirEngine, State.engLoad_pending, State.ite_pending, ite_self]
@[simp] theorem State.popOwed_pending (s : State) (x1 a : Nat) : (State.popOwed s x1 a).pending = s.pending := by
  induction a generalizing s with
  | zero => rfl
  | succ k ih => unfold State.popOwed; split; · rfl
                 split <;> simp [ih]
@[simp] theorem State.mbDrop_pending (m a : Nat) (x2 : State) : (State.mbDrop m a x2).pending = x2.pending := by
  induction a generalizing x2 with
  | zero => rfl
  | succ k ih => unfold State.mbDrop; split <;> simp [ih]
@[simp] theorem State.mirQueue_pending (s : State) (bs : List Byte) : (State.mirQueue s bs).pending = s.pending := by
  simp only [State.mirQueue, State.mbDrop_pending, State.mbPush_pending, State.popOwed_pending, State.ite_pending, ite_self]
@[simp] theorem State.mirLinks_pending (s : State) (bs : List Byte) : (State.mirLinks s bs).pending = s.pending := by
  simp only [State.mirLinks, State.mirrorJudge_pending]
@[simp] theorem State.mirEntry_pending (kind epoch : Nat) (s : State) (bs : List Byte) : (State.mirEntry kind epoch s bs).pending = s.pending := by
  simp only [State.mirEntry, State.mirCanopy_pending, State.mirCfg_pending, State.mirEngine_pending, State.mirLinks_pending, State.mirQueue_pending,
    State.mirTime_pending, State.ite_pending, ite_self]
@[simp] theorem State.snapStart_pending (s : State) : (State.snapStart s).pending = s.pending := by
  simp only [State.snapStart, State.flushQueue_pending, State.resync_pending, State.foldl_pending, keepsQueue_iff, implies_true, State.ite_pending,
    ite_self]
@[simp] theorem State.mirEntries_pending (kind epoch : Nat) (a : List Byte) (x3 : Nat) (x4 : State) : (State.mirEntries kind epoch a x3 x4).pending = x4.pending := by
  induction x3 generalizing a x4 with
  | zero => unfold State.mirEntries; rfl
  | succ k ih => unfold State.mirEntries; split <;> simp [ih]
@[simp] theorem State.mirrorIn_pending (s : State) (f : Frame) : (State.mirrorIn s f).pending = s.pending := by
  unfold State.mirrorIn
  split <;> simp only [State.askResync_pending, State.fs_pending, State.mirEntries_pending, State.mirrorJudge_pending, State.snapStart_pending,
    State.ite_pending, ite_self]
@[simp] theorem execMirrorReceived_waits (s : State) : KeepsWaiting s (execMirrorReceived s) := by
  rw [execMirrorReceived, keepsWaiting_next]
  split
  · next e => simp [State.twinTake_pending _ _ e]
  · rfl
@[simp] theorem State.qcopyLost_pending (s : State) : (State.qcopyLost s).pending = s.pending := by
  simp only [State.qcopyLost, State.askResync_pending, State.ite_pending, ite_self]
@[simp] theorem execTwinPortFrameReceive_waits (bytes : List Byte) (ending : Ending) (s0 : State) : KeepsWaiting s0 (execTwinPortFrameReceive bytes ending s0) := by
  rw [execTwinPortFrameReceive, keepsWaiting_next]
  simp
@[simp] theorem execQcopyReceived_waits (s : State) : KeepsWaiting s (execQcopyReceived s) := by
  rw [execQcopyReceived, keepsWaiting_next]
  split
  · rfl
  · next e =>
    have ht := State.twinTake_pending _ _ e
    split <;> simp [ht]
@[simp] theorem execTwinUpdatePoll_waits (s : State) : KeepsWaiting s (execTwinUpdatePoll s) := by
  unfold execTwinUpdatePoll
  split
  · exact keepsWaiting_next.2 rfl
  · refine keepsWaiting_foldl (fun t off => ?_) _ _
    dsimp only
    split
    · exact keepsWaiting_next.2 (State.forward_pending ..)
    · exact keepsWaiting_next.2 rfl
@[simp] theorem State.remoteReset_pending (s : State) (src : Nat) (cred : List Byte) : (State.remoteReset s src cred).pending = s.pending := by
  simp only [State.remoteReset, State.inc_pending, State.raise_pending, State.recognise_pending, State.ite_pending, ite_self]
@[simp] theorem execRemoteResetReceived_waits (src : Fin 128) (cred : List Byte) (s : State) : KeepsWaiting s (execRemoteResetReceived src cred s) := by
  simp only [execRemoteResetReceived, keepsWaiting_next, State.remoteReset_pending]
@[simp] theorem State.rxFail_pending (s : State) (p : RingPort) (f : Fld) : (State.rxFail s p f).pending = s.pending := by
  simp only [State.rxFail, State.inc_pending, State.raise_pending]
@[simp] theorem State.cellsIn_pending (s : State) (p : RingPort) (c : Cls) (n : Nat) : (State.cellsIn s p c n).pending = s.pending := rfl
@[simp] theorem State.creditBack_pending (s : State) (p : RingPort) (x2 : Hdr) (n : Nat) : (State.creditBack s p x2 n).pending = s.pending := by
  simp only [State.creditBack, State.freed_pending, State.ite_pending, ite_self]
@[simp] theorem State.llIn_pending (s : State) (p : RingPort) (f : Frame) : (State.llIn s p f).pending = s.pending := by
  simp only [State.llIn, State.creditIn_pending, State.guyIn_pending, State.inc_pending, State.laneCtrlIn_pending, State.llPass_pending,
    State.ite_pending, ite_self]
@[simp] theorem State.logicIn_pending (s : State) (p : RingPort) (f : Frame) (toMe : Bool) : (State.logicIn s p f toMe).pending = s.pending := by
  simp only [State.logicIn, State.inc_pending, State.raise_pending, State.remoteReset_pending, State.ite_pending, ite_self]
@[simp] theorem State.toCore_pending (s : State) (p : RingPort) (f : Frame) (fwd : Option RingPort) (consume : Bool) (hold : Option Nat) : (State.toCore s p f fwd consume hold).pending = s.pending :=
  rfl
@[simp] theorem State.ringDecide_pending (s0 : State) (p : RingPort) (ff fc : Frame) (n : Nat) (good : Bool) : (State.ringDecide s0 p ff fc n good).pending = s0.pending := by
  unfold State.ringDecide
  extract_lets h fate t s consume logic hf way s1 s2 express s2' core copy
  have h0 : s.pending = s0.pending := by
    simp only [s]
    clear_value fate
    split
    · rfl
    · split <;> simp [t]
  have h1 : s1.pending = s0.pending := by simp [s1, h0]
  have h2 : s2.pending = s0.pending := by
    simp only [s2]
    clear_value way
    split <;> simp [h1]
  have h2' : s2'.pending = s0.pending := by
    simp only [s2']
    clear_value way
    split <;> simp [h1]
  clear_value h fate s consume logic way s1 s2 express s2' core copy
  split
  · simp [h2]
  · have h3 : (if (copy && good) = true then s2'.holdFor p h.cls h.src else (s2', none)).1.pending = s0.pending := by
      simp [h2']
    split
    next s3 hold e =>
      have h3' := (pending_of_pair e).trans h3
      split
      · split <;> simp [h3']
      · split <;> simp [h3']
@[simp] theorem State.rxFrame_pending (s : State) (p : RingPort) (bytes : List Byte) (good : Bool) (x4 : Int) : (State.rxFrame s p bytes good x4).pending = s.pending := by
  simp only [State.rxFrame, State.cellsIn_pending, State.creditBack_pending, State.fenceIn_pending, State.inc_pending, State.llIn_pending,
    State.llPass_pending, State.raise_pending, State.ringDecide_pending, State.topoIn_pending, State.ite_pending, ite_self]
@[simp] theorem State.cutCopy_pending (s : State) (p : RingPort) (bytes : List Byte) : (State.cutCopy s p bytes).pending = s.pending := by
  simp only [State.cutCopy, State.cellsIn_pending, State.freed_pending, State.ite_pending, ite_self]
@[simp] theorem execRingFrameReceive_waits (port : RingPort) (bytes : List Byte) (ending : Ending) (sub : Fin 26) (s0 : State) : KeepsWaiting s0 (execRingFrameReceive port bytes ending sub s0) := by
  rw [execRingFrameReceive, keepsWaiting_next]
  dsimp only
  split
  · rfl
  · split <;> simp
@[simp] theorem State.twinCopy_pending (s : State) (x1 : Nat) (x2 : Int) : (State.twinCopy s x1 x2).pending = s.pending := by
  unfold State.twinCopy
  split <;> simp only [State.sent_pending, State.startCopy_pending]
theorem State.twinMirror_pending (s : State) (x1 : Int) {r : State} (e : State.twinMirror s x1 = some r) : r.pending = s.pending := by
  unfold State.twinMirror at e
  split at e
  · next h => cases e; simp [State.mirrorFrame_pending _ h]
  · obtain ⟨q, _, rfl⟩ := Option.map_eq_some_iff.1 e
    simp
@[simp] theorem State.twinEgress_pending (s : State) (x1 : Int) : (State.twinEgress s x1).pending = s.pending := by
  have hm : ∀ u ∈ (s.twinMirror x1).map fun u => u.setTurn true, u.pending = s.pending := by
    intro u hu
    obtain ⟨v, hv, rfl⟩ := Option.map_eq_some_iff.1 hu
    simp [State.twinMirror_pending _ _ hv]
  have hc : ∀ u ∈ (s.twinPick false).map fun q => (s.startCopy portTwin q x1).setTurn false, u.pending = s.pending := by
    intro u hu
    obtain ⟨q, _, rfl⟩ := Option.map_eq_some_iff.1 hu
    simp
  unfold State.twinEgress
  dsimp only
  split
  · simp
  · split
    · simp
    · split
      · exact State.orElse_pending hc hm
      · exact State.orElse_pending hm hc
@[simp] theorem execEgressFrameStart_waits (port : LanePort) (sub : Fin 26) (s : State) : KeepsWaiting s (execEgressFrameStart port sub s) := by
  unfold execEgressFrameStart
  rw [keepsWaiting_next]
  split
  · rfl
  · split
    · exact State.portOff_pending ..
    · split
      · exact State.ringStart_pending ..
      · exact State.ringStart_pending ..
      · exact State.twinEgress_pending ..

/-- No command touches the commands that wait behind it: each has its lemma above. -/
theorem exec_waits (c : Instr) (s : State) : KeepsWaiting s (exec c s) := by
  cases c with
  | registerWrite => exact execRegisterWrite_waits _ _ _ _ _
  | pageEnableWrite => exact execPageEnableWrite_waits _ _ _ _ _
  | commit => exact execCommit_waits _ _ _ _ _
  | abortCommit => exact execAbortCommit_waits _ _ _ _ _ _
  | resetBlock => exact execResetBlock_waits _ _ _ _
  | evtForce => exact execEvtForce_waits _ _ _ _
  | commitPoint => exact execCommitPoint_waits _ _
  | blockReadyRise => exact execBlockReadyRise_waits _ _
  | blockStopPoint => exact execBlockStopPoint_waits _ _
  | readyVectorUpdate => exact execReadyVectorUpdate_waits _ _ _
  | hostAccess => exact execHostAccess_waits _ _ _ _ _
  | hostControlBlockAccess => exact execHostControlBlockAccess_waits _ _ _ _ _
  | padResponderAccess addr write data => exact execPadResponderAccess_waits addr write data s
  | spiFrame => exact execSpiFrame_waits _ _ _ _
  | spiAbort => exact execSpiAbort_waits _ _ _ _
  | canopyWrite => exact execCanopyWrite_waits _ _ _ _ _ _
  | canopyPackedWrite => exact execCanopyPackedWrite_waits _ _ _ _ _ _ _
  | canopyPackedRead => exact execCanopyPackedRead_waits _ _ _ _ _
  | resetNRelease => exact execResetNRelease_waits _ _
  | hostSoftReset => exact execHostSoftReset_waits _ _ _
  | wdogKick => exact execWdogKick_waits _ _ _
  | thermalTrip => exact execThermalTrip_waits _ _
  | thermalTripRelease => exact execThermalTripRelease_waits _ _ _
  | clockLossRelease => exact execClockLossRelease_waits _ _
  | supplyWarn => exact execSupplyWarn_waits _ _
  | islandSyncRelease => exact execIslandSyncRelease_waits _ _
  | gsHoldSet => exact execGsHoldSet_waits _ _ _
  | gsHoldRelease => exact execGsHoldRelease_waits _ _ _
  | aonRead => exact execAonRead_waits _ _
  | fuseProgGo => exact execFuseProgGo_waits _ _ _
  | fuseProgDone => exact execFuseProgDone_waits _ _
  | tsReceived => exact execTsReceived_waits _ _ _ _ _ _
  | deskewTimeout => exact execDeskewTimeout_waits _ _
  | capBlockReceived => exact execCapBlockReceived_waits _ _ _ _
  | capxTimeout => exact execCapxTimeout_waits _ _
  | portEnterActive => exact execPortEnterActive_waits _ _
  | forceRetrain => exact execForceRetrain_waits _ _ _
  | portEnWrite => exact execPortEnWrite_waits _ _ _ _
  | lnClrCnt => exact execLnClrCnt_waits _ _ _
  | ccSend => exact execCcSend_waits _ _
  | ccReceived => exact execCcReceived_waits _ _ _ _ _
  | elasticErr => exact execElasticErr_waits _ _
  | laneFault => exact execLaneFault_waits _ _ _ _
  | urgentSubstTimeout => exact execUrgentSubstTimeout_waits _ _
  | laneErrThreshold => exact execLaneErrThreshold_waits _ _ _
  | lnSpareCmd => exact execLnSpareCmd_waits _ _ _ _
  | laneCtrlRequestReceived => exact execLaneCtrlRequestReceived_waits _ _ _
  | laneCtrlUrgentReceived => exact execLaneCtrlUrgentReceived_waits _ _ _
  | spareCompareDone => exact execSpareCompareDone_waits _ _
  | laneCtrlConfirmReceived => exact execLaneCtrlConfirmReceived_waits _ _ _
  | laneCtrlCancelReceived port body => exact execLaneCtrlCancelReceived_waits port body s
  | laneCtrlRefuseReceived port body => exact execLaneCtrlRefuseReceived_waits port body s
  | spareRequestTimeout => exact execSpareRequestTimeout_waits _ _
  | ringFrameReceive => exact execRingFrameReceive_waits _ _ _ _ _
  | egressFrameStart => exact execEgressFrameStart_waits _ _ _
  | mergePreempt => exact execMergePreempt_waits _ _ _
  | creditReceived => exact execCreditReceived_waits _ _ _
  | creditSend => exact execCreditSend_waits _ _
  | guySend => exact execGuySend_waits _ _
  | guyReceived => exact execGuyReceived_waits _ _ _ _ _
  | guySilenceTimeout => exact execGuySilenceTimeout_waits _ _
  | unwrap => exact execUnwrap_waits _ _
  | topoReceived port src dir wraps hops flags => exact execTopoReceived_waits port src dir wraps hops flags s
  | fenceReceived port cls src fseq kind => exact execFenceReceived_waits port cls src fseq kind s
  | holdExpired => exact execHoldExpired_waits _ _ _
  | ringGraceExpired => exact execRingGraceExpired_waits _ _
  | resetSend => exact execResetSend_waits _ _ _
  | remoteResetReceived => exact execRemoteResetReceived_waits _ _ _
  | rpClrCnt => exact execRpClrCnt_waits _ _ _
  | coreHeadCellWrite => exact execCoreHeadCellWrite_waits _ _
  | coreCellWrite => exact execCoreCellWrite_waits _ _
  | coreDeferredWrite => exact execCoreDeferredWrite_waits _ _
  | frameVerdict => exact execFrameVerdict_waits _ _ _
  | coreCellRead => exact execCoreCellRead_waits _ _ _
  | copyEnd => exact execCopyEnd_waits _ _
  | bankEccThreshold => exact execBankEccThreshold_waits _ _
  | coreSpareCmd => exact execCoreSpareCmd_waits _ _ _
  | coreClrCnt => exact execCoreClrCnt_waits _ _
  | qFlush => exact execQFlush_waits _ _ _ _
  | flushPoint => exact execFlushPoint_waits _ _
  | queueGraceExpired => exact execQueueGraceExpired_waits _ _
  | qClrCnt => exact execQClrCnt_waits _ _ _
  | mbPush => exact execMbPush_waits _ _ _ _
  | mbPopTake => exact execMbPopTake_waits _ _ _ _
  | qrpTake => exact execQrpTake_waits _ _ _ _
  | receiverDetectProbe => exact execReceiverDetectProbe_waits _ _ _
  | cardTrainingFrame => exact execCardTrainingFrame_waits _ _ _ _ _ _
  | cardTrainTimeout => exact execCardTrainTimeout_waits _ _
  | cardLosPersist => exact execCardLosPersist_waits _ _
  | loopMeasureDone => exact execLoopMeasureDone_waits _ _
  | sidebandBlockReceived => exact execSidebandBlockReceived_waits _ _ _ _
  | rollcallTimeout => exact execRollcallTimeout_waits _ _
  | cardFrameReceived => exact execCardFrameReceived_waits _ _ _ _
  | cardFrameSend => exact execCardFrameSend_waits _ _
  | superframeBoundary => exact execSuperframeBoundary_waits _ _ _
  | safeMismatch => exact execSafeMismatch_waits _ _
  | clRetrain => exact execClRetrain_waits _ _ _
  | clClrCnt => exact execClClrCnt_waits _ _ _
  | ucodeLoadDone => exact execUcodeLoadDone_waits _ _
  | engineFrameReport => exact execEngineFrameReport_waits _ _ _ _
  | engineGap => exact execEngineGap_waits _ _ _
  | asyncIdleGap => exact execAsyncIdleGap_waits _ _ _
  | asyncTxStart => exact execAsyncTxStart_waits _ _ _
  | asyncDeLagExpire => exact execAsyncDeLagExpire_waits _ _ _
  | recordFlushTimeout => exact execRecordFlushTimeout_waits _ _ _
  | txRecordReceived => exact execTxRecordReceived_waits _ _
  | syCmdGo => exact execSyCmdGo_waits _ _ _
  | syncTrigger => exact execSyncTrigger_waits _ _ _
  | syncTransferEnd => exact execSyncTransferEnd_waits _ _ _
  | discDebounceAccept => exact execDiscDebounceAccept_waits _ _ _
  | enDiCountTake => exact execEnDiCountTake_waits _ _ _
  | diOutWrite => exact execDiOutWrite_waits _ _ _ _
  | pwmPeriodStart => exact execPwmPeriodStart_waits _ _ _
  | discSchedItem => exact execDiscSchedItem_waits _ _ _
  | enModeWrite => exact execEnModeWrite_waits _ _ _ _
  | enClrCnt => exact execEnClrCnt_waits _ _ _
  | ecMigCmd => exact execEcMigCmd_waits _ _ _ _
  | ecMigUrgent => exact execEcMigUrgent_waits _ _ _ _
  | migrationSwitch => exact execMigrationSwitch_waits _ _
  | migrationTimeout => exact execMigrationTimeout_waits _ _
  | ecClrCnt => exact execEcClrCnt_waits _ _ _
  | pbusMessageReceived => exact execPbusMessageReceived_waits _ _ _
  | pbAbort => exact execPbAbort_waits _ _ _
  | pbFlush => exact execPbFlush_waits _ _ _
  | pbRecover => exact execPbRecover_waits _ _ _
  | routedFrameReceived => exact execRoutedFrameReceived_waits _ _
  | ttBasicCycleStart => exact execTtBasicCycleStart_waits _ _
  | ttColumnStart => exact execTtColumnStart_waits _ _
  | ttRefTimeout => exact execTtRefTimeout_waits _ _
  | sampleSubmit => exact execSampleSubmit_waits _ _ _
  | domainTimeout => exact execDomainTimeout_waits _ _
  | tmJump => exact execTmJump_waits _ _
  | tmSnap => exact execTmSnap_waits _ _
  | tmClrCnt => exact execTmClrCnt_waits _ _
  | syncOriginate => exact execSyncOriginate_waits _ _
  | pdRequestSend => exact execPdRequestSend_waits _ _ _
  | pdReqReceived => exact execPdReqReceived_waits _ _ _ _
  | pdRespReceived => exact execPdRespReceived_waits _ _ _ _
  | scOpubSend => exact execScOpubSend_waits _ _ _
  | scClrCnt => exact execScClrCnt_waits _ _
  | transactionTimeout => exact execTransactionTimeout_waits _ _
  | tagQuarantineEnd => exact execTagQuarantineEnd_waits _ _
  | requestResend => exact execRequestResend_waits _ _
  | slotExpired => exact execSlotExpired_waits _ _
  | fenceStart => exact execFenceStart_waits _ _ _ _
  | signalSend => exact execSignalSend_waits _ _ _
  | txfSend => exact execTxfSend_waits _ _ _
  | brClrCnt => exact execBrClrCnt_waits _ _
  | twinPortFrameReceive => exact execTwinPortFrameReceive_waits _ _ _
  | twResync => exact execTwResync_waits _ _
  | twSwap => exact execTwSwap_waits _ _
  | pitchQuiet => exact execPitchQuiet_waits _ _
  | quietHoldTimeout => exact execQuietHoldTimeout_waits _ _
  | twRelease => exact execTwRelease_waits _ _
  | twResetTwin => exact execTwResetTwin_waits _ _
  | twClrCnt => exact execTwClrCnt_waits _ _
  | supervisorSample => exact execSupervisorSample_waits _ _
  | presenceChange => exact execPresenceChange_waits _ _ _ _
  | insertConditionMet => exact execInsertConditionMet_waits _ _
  | precheckDone => exact execPrecheckDone_waits _ _
  | rampReached => exact execRampReached_waits _ _
  | rampTimeout => exact execRampTimeout_waits _ _
  | enhanceDone => exact execEnhanceDone_waits _ _
  | powerGoodGiven => exact execPowerGoodGiven_waits _ _
  | busWindowFault => exact execBusWindowFault_waits _ _
  | seatOpenExtract => exact execSeatOpenExtract_waits _ _
  | instantTrip => exact execInstantTrip_waits _ _
  | breakerTrip => exact execBreakerTrip_waits _ _
  | coolDone => exact execCoolDone_waits _ _
  | clearLatch => exact execClearLatch_waits _ _ _
  | attemptsClear => exact execAttemptsClear_waits _ _
  | rdsMeasure => exact execRdsMeasure_waits _ _
  | rdsCapture => exact execRdsCapture_waits _ _ _
  | ppClrCnt => exact execPpClrCnt_waits _ _ _
  | feedQualified => exact execFeedQualified_waits _ _
  | feedLost => exact execFeedLost_waits _ _
  | disturbanceEnd => exact execDisturbanceEnd_waits _ _
  | disturbEntryRead => exact execDisturbEntryRead_waits _ _ _
  | fdClrCnt => exact execFdClrCnt_waits _ _
  | scratchpadAccess => exact execScratchpadAccess_waits _ _ _ _ _ _
  | bankHandover => exact execBankHandover_waits _ _ _
  | bankPowerOn => exact execBankPowerOn_waits _ _ _
  | bankPowerRetention => exact execBankPowerRetention_waits _ _ _
  | bankPowerOff => exact execBankPowerOff_waits _ _ _
  | bankDrainDone => exact execBankDrainDone_waits _ _
  | bankInitDone => exact execBankInitDone_waits _ _
  | spRowEccThreshold => exact execSpRowEccThreshold_waits _ _ _
  | marchGo => exact execMarchGo_waits _ _ _
  | marchAbort => exact execMarchAbort_waits _ _
  | marchRowStep => exact execMarchRowStep_waits _ _
  | marchRunDone => exact execMarchRunDone_waits _ _ _
  | rowRepair => exact execRowRepair_waits _ _ _
  | memClrCnt => exact execMemClrCnt_waits _ _
  | ftRelease => exact execFtRelease_waits _ _ _
  | ftClrCnt => exact execFtClrCnt_waits _ _
  | thermalWarn => exact execThermalWarn_waits _ _
  | sentinelMeasure => exact execSentinelMeasure_waits _ _
  | wrCapture => exact execWrCapture_waits _ _
  | wrStore => exact execWrStore_waits _ _
  | blDone => exact execBlDone_waits _ _ _ _
  | wearClr => exact execWearClr_waits _ _
  | wrClrCnt => exact execWrClrCnt_waits _ _
  | referenceFail => exact execReferenceFail_waits _ _ _
  | wrRefCmd => exact execWrRefCmd_waits _ _ _
  | pllLockLoss => exact execPllLockLoss_waits _ _ _
  | pllRelock => exact execPllRelock_waits _ _ _
  | wrPllCmd => exact execWrPllCmd_waits _ _ _
  | updClear => exact execUpdClear_waits _ _ _
  | updWrite => exact execUpdWrite_waits _ _ _
  | updWriteDone => exact execUpdWriteDone_waits _ _
  | updVerify => exact execUpdVerify_waits _ _ _
  | updArm => exact execUpdArm_waits _ _ _
  | updArmNow => exact execUpdArmNow_waits _ _ _
  | updDisarm => exact execUpdDisarm_waits _ _ _
  | updWriteArea => exact execUpdWriteArea_waits _ _ _
  | updConfirm => exact execUpdConfirm_waits _ _
  | updateCommit => exact execUpdateCommit_waits _ _
  | upClrCnt => exact execUpClrCnt_waits _ _
  | powerOnResetRelease => exact execPowerOnResetRelease_waits _ _
  | controlFrameReceived => exact execControlFrameReceived_waits _ _
  | crystalOscillationChange => exact execCrystalOscillationChange_waits _ _
  | hostAdsDuringAccess => exact execHostAdsDuringAccess_waits _
  | hostAccessAbandon => exact execHostAccessAbandon_waits _
  | powerOnReset => exact execPowerOnReset_waits _
  | resetNRecognised => exact execResetNRecognised_waits _
  | watchdogExpire => exact execWatchdogExpire_waits _
  | clockLoss => exact execClockLoss_waits _
  | resetAssertDeferred => exact execResetAssertDeferred_waits _
  | optFuseRead => exact execOptFuseRead_waits _
  | mramWakeDone => exact execMramWakeDone_waits _
  | optVerify => exact execOptVerify_waits _
  | optClocksLocked => exact execOptClocksLocked_waits _
  | optApplyRecord => exact execOptApplyRecord_waits _
  | optEqualize => exact execOptEqualize_waits _
  | islandReleasePosition => exact execIslandReleasePosition_waits _
  | topoSend => exact execTopoSend_waits _
  | topoAgeTick => exact execTopoAgeTick_waits _
  | bankRowCopy ecc => exact show KeepsWaiting s (execBankRowCopy ecc s) from execBankRowCopy_waits ecc s
  | bankReplaceDone => exact execBankReplaceDone_waits _
  | routeLookupBegin => exact execRouteLookupBegin_waits _
  | routeLookupDone => exact execRouteLookupDone_waits _
  | stAutoSwitch => exact execStAutoSwitch_waits _
  | slewDone => exact execSlewDone_waits _
  | epochBoundary => exact execEpochBoundary_waits _
  | latchDone => exact execLatchDone_waits _
  | guardStart => exact execGuardStart_waits _
  | scanFrameTake => exact execScanFrameTake_waits _
  | forwardRequestSend => exact execForwardRequestSend_waits _
  | incomingRequest => exact execIncomingRequest_waits _
  | completionReceived => exact execCompletionReceived_waits _
  | lateWrReceived => exact execLateWrReceived_waits _
  | farFenceComplete => exact execFarFenceComplete_waits _
  | signalReceived => exact execSignalReceived_waits _
  | txfWriteDone => exact execTxfWriteDone_waits _
  | twinStartWaitExpired => exact execTwinStartWaitExpired_waits _
  | tguySend => exact execTguySend_waits _
  | tguyReceived => exact execTguyReceived_waits _
  | twinGuyTimeout => exact execTwinGuyTimeout_waits _
  | mirrorReceived => exact execMirrorReceived_waits _
  | mackSend => exact execMackSend_waits _
  | mackReceived => exact execMackReceived_waits _
  | qcopyReceived => exact execQcopyReceived_waits _
  | mirrorPeriodicEntry => exact execMirrorPeriodicEntry_waits _
  | swapProposeReceived => exact execSwapProposeReceived_waits _
  | swapAnswerReceived => exact execSwapAnswerReceived_waits _
  | swapAnswerTimeout => exact execSwapAnswerTimeout_waits _
  | periodicSwapDue => exact execPeriodicSwapDue_waits _
  | releaseReceived => exact execReleaseReceived_waits _
  | claimDecision => exact execClaimDecision_waits _
  | twinResetReceived => exact execTwinResetReceived_waits _
  | supvWriteArrive => exact execSupvWriteArrive_waits _
  | supvLinkDown => exact execSupvLinkDown_waits _
  | supvLinkUp => exact execSupvLinkUp_waits _
  | roleToSupervisor => exact execRoleToSupervisor_waits _
  | changeoverDeadEnd => exact execChangeoverDeadEnd_waits _
  | changeoverEnd => exact execChangeoverEnd_waits _
  | faultEvent => exact execFaultEvent_waits _
  | errPulseEnd => exact execErrPulseEnd_waits _
  | updVerifyDone => exact execUpdVerifyDone_waits _
  | twinUpdatePoll => exact execTwinUpdatePoll_waits _
  | strikeDone => exact execStrikeDone_waits _
  | trialExpired => exact execTrialExpired_waits _
  | twinStrikeTimeout => exact execTwinStrikeTimeout_waits _
  | cardRelayStart => exact execCardRelayStart_waits _
  | cardWaitExpired => exact execCardWaitExpired_waits _
  | mstateReturnSynced => exact execMstateReturnSynced_waits _
  | switchoverRequestRepeat => exact execSwitchoverRequestRepeat_waits _

/-- Settles O3: every function of the machine leaves the field `pending`, so every command's outcome does. -/
theorem commandsLeaveTheQueue : Obligations.CommandsLeaveTheQueue := by
  unfold Obligations.CommandsLeaveTheQueue
  exact exec_waits

end Sys2Proof.Machine
end
